-- ==== Sys2Proof/Word.lean ====
section
/-!
DEFINITION. The words of the block: a register is 32 bits (R16), a schedule time 64 bits (Table 02-3),
a microword 256 bits; and the sparse tables in which the state holds repeated objects.
-/

namespace Sys2Proof

/-- A byte of an image, of the HBM or of a packet. -/
abbrev Byte := BitVec 8

/-- A register (R16). -/
abbrev Word := BitVec 32

/-- A 64-bit word: a queue word, a rider register or a packed schedule time. -/
abbrev Word64 := BitVec 64

/-- A code of the device (R709): class, subsystem and detail. -/
abbrev Code := BitVec 16

/-- An instant or a duration in fine steps (Table 02-1), 1/16 of a DAC sample. -/
abbrev Fine := Nat

/-- A sparse table: key and value, keys strictly rising. An unlisted key holds the table's default. -/
abbrev Tab (α : Type) := List (Nat × α)

end Sys2Proof
end

