-- ==== Sys2Proof/Types.lean ====
section
/-!
DEFINITION. The names of the module's countable objects (Table 00-3, R10 to R13) and the small sets of
alternatives that commands and state share.
-/

namespace Sys2Proof

/-- A stall, 0 to 7. -/
abbrev StallId := Fin 8

/-- A PCI Express function: 0 is the physical function, k the virtual function k.  It carries owner k (R688). -/
abbrev Func := Fin 15

/-- An owner 0 to 15; 15 is the Tally (Table 00-4). -/
abbrev Owner := Fin 16

/-- The owner a host access carries (R688). -/
def Func.owner (f : Func) : Owner := ⟨f.val, by omega⟩

/-- The converter kinds that have a spare (R39). -/
inductive SliceKind where
  | drive
  | probe
  | acq
  deriving DecidableEq, Repr

/-- A slice: D0 to D8, P0 to P4, A0 to A4 of a stall. -/
structure SliceId where
  stall : StallId
  kind : SliceKind
  idx : Fin 9
  deriving DecidableEq, Repr

/-- A voice: V00 to V63 (drive) or Q00 to Q63 (probe) of a stall. -/
structure VoiceId where
  stall : StallId
  probe : Bool
  num : Fin 64
  deriving DecidableEq, Repr

/-- A readout channel C00 to C63 of a stall. -/
structure ChanId where
  stall : StallId
  num : Fin 64
  deriving DecidableEq, Repr

/-- A flux line F00 to F63 of a stall. -/
structure LineId where
  stall : StallId
  num : Fin 64
  deriving DecidableEq, Repr

/-- A flux group G0 to G7 of a stall. -/
structure GroupId where
  stall : StallId
  num : Fin 8
  deriving DecidableEq, Repr

/-- A rider H00 to H15 of a stall. -/
structure RiderId where
  stall : StallId
  num : Fin 16
  deriving DecidableEq, Repr

/-- A 14-bit queue ID: the stall in bits 13 to 11, the index in bits 10 to 0 (R13). -/
abbrev QueueId := BitVec 14

/-- A rein channel E0000 to E4095. -/
abbrev ReinChan := BitVec 12

/-- A tether lane 0 to 15. -/
abbrev LaneId := Fin 16

/-- The life states of a stall (Table 01-8). -/
inductive Life where
  | off
  | stabled
  | harnessed
  | riding
  | resting
  deriving DecidableEq, Repr

/-- What a mutual-exclusion element does with an arrival (R706): it grants it, or it holds it because another
party is served first.  Which of the two happens is the element's, so a command carries it. -/
inductive Grant where
  | granted
  | held
  deriving DecidableEq, Repr

/-- The state field of OP_STATUS (Table 19-7). -/
inductive OpState where
  | idle
  | busy
  | done
  | failed
  | aborted
  deriving DecidableEq, Repr

/-- The two staging slots of the loader (Table 03-6). -/
abbrev SlotId := Fin 2

end Sys2Proof
end

