-- ==== Sys2Proof/Parts/Stall.lean ====
section
/-!
DEFINITION. State of one stall's CTL block: life state, command in progress, drain, spares (chapter 1),
Trot deadlines, pace monitors and gate counters (chapter 2), and the state of its voices and slices (chapters 4 and 5).
-/

namespace Sys2Proof

/-- OP_STATUS (Table 19-7): the state, progress and code of a long operation. -/
structure OpStatus where
  state : OpState := .idle
  progress : Nat := 0
  code : Code := 0
  deriving DecidableEq, Repr

/-- The stall command in progress (R61). -/
inductive StallCmd where
  | powerUp
  | drain
  | halt
  | powerDown
  deriving DecidableEq, Repr

/-- STn_DRAIN_RESULT (Table 01-13). -/
structure DrainResult where
  valid : Bool := false
  atStart : Nat := 0
  aborted : Nat := 0
  finished : Nat := 0
  deriving DecidableEq, Repr

/-- The use of a spare (Table 01-7). -/
inductive SpareUse where
  | idle
  | replacing
  | farrier
  | switching
  deriving DecidableEq, Repr

/-- One spare: its use, the slice it replaces or serves, whether it failed its self-test, whether the takeover in force is a forced one (R51),
whether it still carries its slice while a requested release waits for silence (R42, R43), whether A4 makes the live results of its target during a
calibration (R47), and the slice it served last (R496). -/
structure Spare where
  use : SpareUse := .idle
  target : BitVec 4 := 0xF
  bad : Bool := false
  forced : Bool := false
  leaving : Bool := false
  live : Bool := false
  served : BitVec 4 := 0
  deriving DecidableEq, Repr

/-- A spare command in progress (R50): its kind, its target (none for a release), the function that gave it, and
whether it waits for a Farrier calibration to end (R52). -/
structure SpareReq where
  kind : SliceKind
  target : Option (BitVec 4)
  func : Func
  at_ : Fine
  waitsFarrier : Bool := false
  deriving DecidableEq, Repr

/-- A set of four pace monitors (R106) with the registers of Tables 02-9 and 02-10: `margins` holds each monitor's latest margin in per cent (R107). -/
structure Pace where
  margins : Tab Int := []
  belowZero : Bool := false
  crit : Bool := false
  warn : Bool := false
  low : BitVec 8 := 0xFF
  now : BitVec 8 := 0xFF
  warnPct : BitVec 8 := 0x0A
  critPct : BitVec 8 := 0x03
  deriving DecidableEq, Repr

/-- The control block of a stall.  `drainFlush` and `drainTimeout` are STn_DRAIN_CFG, `flushing` what the DRAIN in progress took of it (R64);
`faultHalt` says that a fault-initiated halt is in progress (R60). -/
structure StallCtl where
  life : Life := .off
  imageTag : BitVec 16 := 0
  fault : Bool := false
  frameLocked : Bool := false
  haltPending : Bool := false
  cmd : Option StallCmd := none
  op : OpStatus := {}
  drainFlush : Bool := false
  drainTimeout : BitVec 16 := 0x0064
  drain : DrainResult := {}
  draining : Bool := false
  flushing : Bool := false
  drainCode : Code := 0
  faultHalt : Bool := false
  powered : Bool := false
  factoryHold : Bool := false
  spareDrive : Spare := {}
  spareProbe : Spare := {}
  spareAcq : Spare := {}
  spareOp : OpStatus := {}
  spareReq : Option SpareReq := none
  envPage : BitVec 2 := 0
  kernelBank : Bool := false
  kernelChan : Fin 64 := 0
  deriving DecidableEq, Repr

/-- The gait, pace and gate registers of a stall (Table 02-7); `deadlines` lists the Trot deadlines that an image or a write has set. -/
structure Gait where
  deadlines : Tab (BitVec 12) := []
  pace : Pace := {}
  late : BitVec 32 := 0
  adcFull : BitVec 16 := 0
  dacEmpty : BitVec 16 := 0
  deriving DecidableEq, Repr

/-- The position of an output switch (Table 04-2). -/
inductive Port where
  | terminated
  | opening
  | open_
  deriving DecidableEq, Repr

/-- A drive or probe slice (Tables 04-7 to 04-10).  `loudTo` is the end of the last beat in which its summed output was not zero (R42); its DAC plays
zero from `zeroFrom` to `zeroTo`, the beats in which its gate ran empty (R76). -/
structure Slice where
  portEn : Bool := false
  atten : BitVec 5 := 0x0A
  attenPend : Option (BitVec 5) := none
  scale : BitVec 16 := 0x4000
  port : Port := .terminated
  portAt : Fine := 0
  fault : Bool := false
  guardHit : Bool := false
  guardIrq : Bool := true
  guardInvalid : Bool := false
  clipped : BitVec 32 := 0
  guardTime : Fine := 0
  loudTo : Option Fine := none
  zeroFrom : Fine := 0
  zeroTo : Fine := 0
  deriving DecidableEq, Repr

/-- The tuning of a voice that takes effect at segment boundaries (R167). -/
structure Tuning where
  ftw : BitVec 48 := 0
  offset : BitVec 16 := 0
  vz : BitVec 16 := 0
  x : Bool := false
  z : Bool := false
  scale : BitVec 16 := 0
  enable : Bool := false
  mask : BitVec 4 := 0xF
  deriving DecidableEq, Repr

/-- The pending tuning of a voice: each field that a write or an addition has set since values last took effect (R167, R169). -/
structure PendTuning where
  ftw : Option (BitVec 48) := none
  offset : Option (BitVec 16) := none
  vz : Option (BitVec 16) := none
  x : Option Bool := none
  z : Option Bool := none
  scale : Option (BitVec 16) := none
  enable : Option Bool := none
  mask : Option (BitVec 4) := none
  deriving DecidableEq, Repr

/-- A beat that a voice plays (Tables 04-1, 05-2): the instant of its first sample after the voice's delay (R176, R179), its envelope sample,
its marker bits after the mask (R183), and the tuning of its segment (R167). -/
structure Beat where
  at_ : Fine
  i : BitVec 16
  q : BitVec 16
  marks : BitVec 4
  tune : Tuning
  deriving DecidableEq, Repr

/-- The tuning side of a voice: values in force, pending values, the held low frequency word (R168), delay and trim (R176, R178), the marker bits that
its rein ports saw last (R186), the beats it played last, newest first, and the end of its last beat. -/
structure Voice where
  tune : Tuning := {}
  pend : PendTuning := {}
  ftwLo : Option Word := none
  delay : BitVec 9 := 0
  pendDelay : Option (BitVec 9) := none
  trim : BitVec 8 := 0
  pendTrim : Option (BitVec 8) := none
  contend : BitVec 16 := 0
  marks : BitVec 4 := 0
  beats : List Beat := []
  playedTo : Option Fine := none
  was : List (Fine × BitVec 48 × BitVec 16) := []
  deriving DecidableEq, Repr

/-- A segment descriptor of four words (Table 05-1), lowest word first. -/
abbrev Desc := BitVec 128

/-- The state of a prefetch port's segment (R215). -/
inductive PortState where
  | loading
  | ready
  deriving DecidableEq, Repr

/-- A segment held in a port: the descriptor's index, its copy (R206), whether it is ready and since when, and the first words of a PLAY (R214). -/
structure PortSeg where
  idx : BitVec 13
  desc : Desc
  state : PortState
  head : List Word := []
  readyAt : Fine := 0
  deriving DecidableEq, Repr

/-- The words of a STREAM segment in a voice's stream buffer (R239), oldest first, its queue, how many of its words are still to be taken, and how many
of those held stand in the bank that plays. -/
structure StreamBuf where
  queue : QueueId := 0
  words : List Word := []
  toTake : Nat := 0
  bank : Nat := 0
  deriving DecidableEq, Repr

/-- A boundary selection (Table 05-3); a BRANCH with the number of the port that loads its descriptor. -/
inductive Selection where
  | alt
  | branch (k : Nat)
  | stop
  | break_
  deriving DecidableEq, Repr

/-- A gait of a conditional release (R83). -/
inductive GaitKind where
  | gallop
  | trot
  deriving DecidableEq, Repr

/-- A fork armed on a voice (R229): the rider that armed it, its gait, release and latch instants, the anchor, the port that
the token selected (some true: the alternate), and whether it turned late (R92), missed (R233), is past its latch point, was disarmed by its rider's stop (R383), or met its
Gallop deadline (R399). -/
structure Fork where
  rider : Nat
  input : Nat
  gait : GaitKind
  cond : BitVec 8
  anchor : Option Fine
  deadline : Nat
  release : Fine
  chosen : Option Bool := none
  consumedAt : Option Fine := none
  late : Bool := false
  missed : Bool := false
  latched : Bool := false
  hub : Bool := false
  disarmed : Bool := false
  timedOut : Bool := false
  deriving DecidableEq, Repr

/-- What a voice is doing (VS_STATUS.state, Table 05-6; state 4 is a HOLD with a fork armed). -/
inductive SeqState where
  | idle
  | play
  | stream
  | hold
  | waiting
  deriving DecidableEq, Repr

/-- Which port a waiting voice has taken (R218). -/
inductive WaitPort where
  | primary
  | alternate
  | branch (k : Nat)
  deriving DecidableEq, Repr

/-- The sequencer of a voice (chapter 5).  `sel` is the selection for the next boundary, with whether it was already counted late;
`committed` says that the commit point has passed; `later` are late or held selections; `branches` are the ports of BRANCHes not yet taken, by number;
`brkAt` is the repetition at whose end a BREAK in `sel` acts; `head` holds the words that the segment's port had copied; `play` is the stream buffer of the
STREAM in play and `ahead` that of a STREAM at the head of the primary port (R214); `backlog` counts stream words to be discarded by queue;
`spent` are Trot forks whose HOLD ended before their latch point without a token (R234, R400); `owed` is a release whose port is still loading (R112);
`lead` are the whole beats by which the samples of a Gallop successor leave after its boundary (R84); `selAt` is the instant at which the boundary in
hand got its selection. -/
structure Seq where
  state : SeqState := .idle
  cur : BitVec 13 := 0
  desc : Desc := 0
  segTime : Fine := 0
  rep : BitVec 12 := 0
  beat : BitVec 20 := 0
  startOff : BitVec 8 := 0
  lead : Nat := 0
  start : Option (BitVec 13 × Fine) := none
  prim : List PortSeg := []
  primEmpty : Bool := false
  alt : Option PortSeg := none
  sel : Option (Selection × Bool) := none
  selAt : Fine := 0
  committed : Bool := false
  later : List Selection := []
  branches : Tab PortSeg := []
  nextBranch : Nat := 0
  brkAt : Option Nat := none
  waitOn : Option WaitPort := none
  fork : Option Fork := none
  spent : List Fork := []
  owed : Option Fork := none
  under : Bool := false
  backlog : Tab Nat := []
  head : List Word := []
  play : StreamBuf := {}
  ahead : Option StreamBuf := none
  late : BitVec 16 := 0
  missed : BitVec 16 := 0
  events : BitVec 16 := 0
  zeroBeats : BitVec 16 := 0
  discarded : BitVec 32 := 0
  startReg : Word64 := 0
  deriving DecidableEq, Repr

end Sys2Proof
end

