-- ==== Sys2Proof/Parts/Host.lean ====
section
/-!
DEFINITION. State of the host interface (chapter 19): per-function HOST blocks, code logs, interrupt sources, the link.
-/

namespace Sys2Proof

/-- The source of a code for merging (R697): a host access of a function at a BAR and offset, or a stall with an object. -/
inductive LogSource where
  | host (func : Func) (bar2 : Bool) (offset : Nat)
  | device (stall : Nat) (object : Word)
  deriving DecidableEq, Repr

/-- An entry of a code log (Table 19-5), with the latest occurrence counted in it (R697). -/
structure LogEntry where
  number : Nat
  code : Code
  owner : Owner
  stall : Nat
  rep : Nat
  at_ : Word64
  latest : Fine
  object : Word
  aux : Word
  func : BitVec 8
  source : LogSource
  deriving DecidableEq, Repr

/-- One entry of a function's MSI-X table. -/
structure MsixEntry where
  addrLo : Word := 0
  addrHi : Word := 0
  data : Word := 0
  masked : Bool := true
  pending : Bool := false
  sent : Nat := 0
  deriving DecidableEq, Repr

/-- A function's own state (Table 19-4): error status, log, interrupt counters, MSI-X table, and its configuration state. -/
structure HostFunc where
  lastCode : Code := 0
  errCount : BitVec 16 := 0
  errBar2 : Bool := false
  errOffset : BitVec 36 := 0
  log : List LogEntry := []
  logCount : Nat := 0
  merged : BitVec 16 := 0
  unsent : BitVec 16 := 0
  msix : Tab MsixEntry := []
  msixEnable : Bool := false
  msixMask : Bool := false
  enabled : Bool := false
  d3hot : Bool := false
  bar0 : Word64 := 0
  bar2 : Word64 := 0
  memEnable : Bool := false
  deriving DecidableEq, Repr

/-- The rate cap of one interrupt source (R700): its last message, whether a message is held under the cap, and whether its
message waits behind a masked entry. -/
structure IrqSource where
  last : Option Fine := none
  held : Bool := false
  parked : Bool := false
  deriving DecidableEq, Repr

/-- What all functions share: the link (HOST_LINK), the wake request of the watch (R594), the Tally mirror's stale flag. -/
structure HostCommon where
  width : BitVec 4 := 0
  speed : BitVec 4 := 0
  downs : BitVec 16 := 0
  wake : Bool := false
  mirrorStale : Bool := false
  deriving DecidableEq, Repr

end Sys2Proof
end

