-- ==== Sys2Proof/Parts/Read.lean ====
section
/-!
DEFINITION. State of the read engine (chapter 6) and of trace acquisition (chapter 7).
-/

namespace Sys2Proof

/-- An acquisition slice (Table 06-8).  `range` is the range last written, `inForce` the one in force. -/
structure AcqSlice where
  range : BitVec 2 := 3
  inForce : BitVec 2 := 3
  fault : Bool := false
  ovrHit : Bool := false
  ovr : BitVec 32 := 0
  deriving DecidableEq, Repr

/-- One discrimination plane (R268, R270). -/
structure Plane where
  a : BitVec 16 := 0
  b : BitVec 16 := 0
  c : BitVec 32 := 0
  ksh : BitVec 5 := 0
  k : BitVec 16 := 0
  deriving DecidableEq, Repr

/-- The staged fields of CH_INT (R271). -/
structure IntSet where
  bank : Bool := false
  shift : BitVec 5 := 0
  deriving DecidableEq, Repr

/-- The staged fields that the Farrier holds while farrier_owns is 1 (R272). -/
structure PlaneSet where
  rot : BitVec 16 := 0
  en : BitVec 3 := 1
  map : BitVec 16 := 0x0004
  p0 : Plane := { a := 0x7FFF }
  p1 : Plane := {}
  p2 : Plane := {}
  deriving DecidableEq, Repr

/-- A granted window that waits in the open latch (R258, R260, R261): the frame at which it opens, its length, the opening rider and
the shot it belongs to, and whether that frame lies after its start frame. -/
structure OpenReq where
  start : Nat
  len : Nat
  rider : Nat
  shot : BitVec 32
  late : Bool := false
  deriving DecidableEq, Repr

/-- An open window, with the values it took at its start frame (R262), the frames of it that the gate dropped (R267), the flags gathered so far
(Table 06-3), and whether it met a full-scale code (R285). -/
structure Window where
  start : Nat
  len : Nat
  rider : Nat
  shot : BitVec 32
  index : Nat
  ints : IntSet
  planes : PlaneSet
  lateOpen : Bool := false
  settle : Bool := false
  ovr : Bool := false
  gate : Bool := false
  slice : Bool := false
  full : Bool := false
  dropped : List Nat := []
  deriving DecidableEq, Repr

/-- CH_LAST (Table 06-9). -/
structure LastWindow where
  valid : Bool := false
  invalid : Bool := false
  sat : Bool := false
  state : BitVec 2 := 0
  quality : BitVec 16 := 0
  deriving DecidableEq, Repr

/-- A readout channel (Table 06-9).  `filter` is the mode last written, `filterOn` the mode in force; `flagFrom` to
`flagTo` are the frames whose decimated samples are flagged (R250, R255, R256); `was` holds the filter modes and rotations in force before, with the
frames up to which they were, the newest first. -/
structure Channel where
  filter : BitVec 2 := 0
  filterOn : BitVec 2 := 0
  enable : Bool := false
  stagedInt : IntSet := {}
  stagedPlane : PlaneSet := {}
  pendInt : Option IntSet := none
  pendPlane : Option PlaneSet := none
  ints : IntSet := {}
  planes : PlaneSet := {}
  onInvalid : Bool := false
  masked : Bool := false
  stateMask : BitVec 4 := 0xF
  tokenEn : Bool := false
  win : Option Window := none
  latch : Option OpenReq := none
  flagFrom : Nat := 0
  flagTo : Nat := 0
  last : LastWindow := {}
  windows : BitVec 32 := 0
  invalid : BitVec 32 := 0
  dropped : BitVec 16 := 0
  contend : BitVec 16 := 0
  was : List (Nat × BitVec 2 × BitVec 16) := []
  deriving DecidableEq, Repr

/-- The written fields of a capture unit (Table 07-6), which an ARM copies (R300). -/
structure UnitCfg where
  decimated : Bool := false
  target : BitVec 6 := 0
  trigSrc : BitVec 3 := 0
  trigObj : BitVec 12 := 0
  level : BitVec 16 := 0
  hyst : BitVec 8 := 0x04
  stateMask : BitVec 4 := 0xF
  component : BitVec 2 := 0
  slope : BitVec 2 := 0
  hobMode : BitVec 2 := 0
  hobValue : BitVec 24 := 0
  pre : BitVec 20 := 0
  post : BitVec 32 := 0x400
  recCount : BitVec 16 := 1
  continuous : Bool := false
  avg : BitVec 4 := 0
  measOff : BitVec 32 := 0
  measLen : BitVec 20 := 0
  ringMib : BitVec 13 := 0x40
  time : Word64 := 0
  deriving DecidableEq, Repr

/-- A running hobble (R311). -/
inductive Hobble where
  | none
  | frames (until_ : Nat)
  | events (left : Nat)
  deriving DecidableEq, Repr

/-- A record in progress (Table 07-4): the place of its trigger, its trigger sample's number, and the flags gathered: of `settle`, `ovr` and `gate` the
earliest flagged instant in it, since a record that is cut leaves out what lies behind the cut (R292). -/
structure Record where
  trigFrame : Nat
  trigPos : Nat
  sample : Nat
  force : Bool := false
  interp : Bool := false
  settle : Option Fine := none
  ovr : Option Fine := none
  gate : Option Fine := none
  slice : Bool := false
  deriving DecidableEq, Repr

/-- A gap not yet written (R315 to R317): cause 0 storage, 1 drain, 2 both; its first and last frame; what it lost; the instant from which
it counts lost samples while it runs; whether its storage part and its drain part still run; and the instants at which storage recovered and
up to which the storage part runs at least. -/
structure Gap where
  cause : BitVec 2
  first : Nat
  last : Nat
  lostSamples : Nat := 0
  lostTriggers : Nat := 0
  from_ : Fine := 0
  store : Bool := false
  drain : Bool := false
  recovered : Option Fine := none
  until_ : Fine := 0
  deriving DecidableEq, Repr

/-- A trigger (R304, R307): its frame, its place in 1/4,096 frame, whether it was interpolated, and whether a FORCE gave it. -/
structure Trigger where
  frame : Nat
  pos : Nat := 0
  interp : Bool := false
  force : Bool := false
  deriving DecidableEq, Repr

/-- A capture unit (R286 to R325).  `arm` is the configuration that the last ARM copied; `ringPage` the first HBM page of its ring and
`used` the ring's unread bytes; `filledFrom` the instant from which the pre region counts; `waiting` the triggers whose instant is not reached, in its order (R309);
`started` says that a trigger of a continuous capture was accepted (R313); `lastTrig` is the last trigger's instant in 1/4,096 frame; `ovrAt` the ADC
sample of the latest full-scale code, `dropped` the frames that the gate dropped, `sliceAt` the instant of the latest forced takeover; `upFrom` and
`downFrom` the source samples from which the signal counts for the hysteresis of a rising and a falling crossing (R306). -/
structure CapUnit where
  cfg : UnitCfg := {}
  arm : UnitCfg := {}
  owner : Option Owner := none
  armed : Bool := false
  op : OpStatus := {}
  partialValid : Bool := false
  records : Nat := 0
  ringPage : Nat := 0
  ringBytes : Nat := 0
  wr : Nat := 0
  rd : Nat := 0
  used : Nat := 0
  early : BitVec 16 := 0
  busy : BitVec 16 := 0
  gaps : BitVec 16 := 0
  hobbled : BitVec 16 := 0
  filledFrom : Fine := 0
  hobble : Hobble := .none
  record : Option Record := none
  gap : Option Gap := none
  fired : Bool := false
  waiting : List Trigger := []
  started : Bool := false
  lastTrig : Option Nat := none
  ovrAt : Option Nat := none
  dropped : List Nat := []
  sliceAt : Option Fine := none
  upFrom : Nat := 0
  downFrom : Nat := 0
  deriving DecidableEq, Repr

end Sys2Proof
end

