-- ==== Sys2Proof/Parts/Farrier.lean ====
section
/-!
DEFINITION. State of the Farrier (chapter 12) and the contents of the stud book.
-/

namespace Sys2Proof

/-- The calibration kinds (Table 12-1). -/
inductive CalKind where
  | adcIl
  | dac
  | iq
  | skew
  | marker
  | planes
  deriving DecidableEq, Repr

/-- A centroid of a channel's set with its standard deviations (R501): along the normal of the lower-numbered plane that concerns its state, and of the
other where there are two. -/
structure Centroid where
  i : Int := 0
  q : Int := 0
  sigma : Nat := 0
  sigma2 : Nat := 0
  deriving DecidableEq, Repr

/-- The fitted values of a calibration that has passed phase 3 (Table 12-1): trims by lane or sub-converter, or a plane set with its centroids. -/
inductive CalValues where
  | trims (vals : Tab (BitVec 32))
  | planes (set : PlaneSet) (cents : List Centroid) (sep : BitVec 16)
  deriving DecidableEq, Repr

/-- The calibration in progress or last run (Table 12-4): who started it, kind, target, phase, the windows or blocks observed, the I and Q of the windows
collected, newest first (R501), whether a natural gap was met (R497), and the values it fitted; `ran` says that one has started since reset. -/
structure Calib where
  running : Bool := false
  ran : Bool := false
  auto : Bool := false
  func : Func := 0
  kind : CalKind := .adcIl
  target : BitVec 8 := 0
  phase : Nat := 0
  obs : BitVec 16 := 0
  windows : List (Int × Int) := []
  gap : Bool := false
  phaseAt : Fine := 0
  values : Option CalValues := none
  quality : BitVec 16 := 0
  returning : Bool := false
  deriving DecidableEq, Repr

/-- A stall's Farrier (Table 12-6). -/
structure Farrier where
  op : OpStatus := {}
  cal : Calib := {}
  now : BitVec 16 := 0
  prev : BitVec 16 := 0
  studStale : Bool := false
  accepted : BitVec 16 := 0
  rejected : BitVec 8 := 0
  preempted : BitVec 8 := 0
  minSep : BitVec 16 := 0
  maxShift : BitVec 16 := 0
  minSpur : BitVec 8 := 0
  minImage : BitVec 8 := 0
  maxSkew : BitVec 8 := 0
  maxMarker : BitVec 8 := 0
  minWindows : BitVec 16 := 0
  minPerState : BitVec 16 := 0
  obsTimeout : BitVec 16 := 0
  actTimeout : BitVec 16 := 0
  lastEnd : Tab Fine := []
  deriving DecidableEq, Repr

/-- The trims and quality of a slice, lane or marker as a stud-book copy holds them (Table 12-5); a slice has the trims of its parts. -/
structure Trim where
  accepted : Bool := false
  value : BitVec 32 := 0
  parts : Tab (BitVec 32) := []
  quality : BitVec 16 := 0
  deriving DecidableEq, Repr

/-- A channel's entry of a stud-book copy (Table 12-5). -/
structure StudChan where
  accepted : Bool := false
  kernelCrc : Word := 0
  shift : BitVec 5 := 0
  states : BitVec 2 := 0
  planes : PlaneSet := {}
  cents : List Centroid := []
  sep : BitVec 16 := 0
  deriving DecidableEq, Repr

/-- One copy of a stall's stud book (R518): sequence number, whether its CRC-32 holds, slice trims, lane trims, marker trims and channels. -/
structure StudCopy where
  seq : Nat := 0
  ok : Bool := true
  slices : Tab Trim := []
  skew : Tab Trim := []
  iq : Tab Trim := []
  markers : Tab Trim := []
  chans : Tab StudChan := []
  deriving DecidableEq, Repr

/-- A stall's stud book: copies A and B, and which values were loaded (true: factory). -/
structure Stud where
  a : StudCopy := {}
  b : StudCopy := {}
  factory : Bool := false
  aOk : Bool := true
  bOk : Bool := true
  deriving DecidableEq, Repr

/-- The trims in force of a stall, and the plane sets' accepted state, as loaded or calibrated (R493, R521); the `pend` tables hold accepted trims of DAC
cores, lanes and marker outputs that wait for the instant at which they take effect (Table 12-3). -/
structure Trims where
  slices : Tab Trim := []
  skew : Tab Trim := []
  iq : Tab Trim := []
  markers : Tab Trim := []
  chans : Tab StudChan := []
  pendSlices : Tab Trim := []
  pendIq : Tab Trim := []
  pendMarkers : Tab Trim := []
  deriving DecidableEq, Repr

end Sys2Proof
end

