-- ==== Sys2Proof/Parts/Flux.lean ====
section
/-!
DEFINITION. State of the flux lines and flux groups (chapter 10).
-/

namespace Sys2Proof

/-- A DC point: span (Table 10-1) and 18-bit code. -/
structure DcPoint where
  span : BitVec 2 := 0
  code : BitVec 18 := 0
  deriving DecidableEq, Repr

/-- FL_CURB (R426): move size and ticks between moves. -/
structure Curb where
  step : BitVec 16 := 16
  period : BitVec 16 := 10
  deriving DecidableEq, Repr

/-- dc_state of FL_STATUS (Table 10-2, Table 10-8). -/
inductive DcState where
  | steady
  | ramping
  | phase1
  | switching
  | phase3
  | generator
  | halter
  deriving DecidableEq, Repr

/-- A flux line (Table 10-8).  `goal` is the stored goal, which FL_DC reads; `entering` the span that a switch enters (Table 10-2);
`lastMove` counts DC ticks since the last move; `genRunning` says that a generator has reached lo (R434). -/
structure Line where
  goal : DcPoint := {}
  curb : Curb := {}
  safe : DcPoint := {}
  spanNow : BitVec 2 := 0
  codeNow : BitVec 18 := 0
  dc : DcState := .steady
  entering : Option (BitVec 2) := none
  lastMove : Option Nat := none
  persistBad : Bool := false
  safeWritten : Bool := false
  genMode : BitVec 2 := 0
  genLo : BitVec 18 := 0
  genHi : BitVec 18 := 0
  genHold : BitVec 16 := 0x000A
  genStep : BitVec 16 := 0x0010
  genSeed : BitVec 16 := 1
  genRising : Bool := true
  genRunning : Bool := false
  genIndex : Nat := 0
  genGoal : BitVec 18 := 0
  genTicks : Nat := 0
  connected : Bool := false
  deriving DecidableEq, Repr

/-- A posted fast level (R439): the frame of its boundary, and the level. -/
structure FastPost where
  frame : Nat
  level : BitVec 16
  deriving DecidableEq, Repr

/-- The fast path of a line.  `level` is the level bound for, `old` the output code at the first sample of the change that started at
`changeAt` (R437), `counted` the samples of that change whose clips are counted (R438); `waiting` are host writes to FL_FAST_SET that wait in their
handshakes (R439), with the function of each; the path plays zero from `zeroFrom` to `zeroTo`, while its gate ran empty (R76). -/
structure Fast where
  en : Bool := false
  level : BitVec 16 := 0
  changeAt : Option Fine := none
  counted : Nat := 0
  old : BitVec 16 := 0
  posts : List FastPost := []
  waiting : List (Func × BitVec 16) := []
  zeroFrom : Fine := 0
  zeroTo : Fine := 0
  late : BitVec 8 := 0
  contend : BitVec 8 := 0
  clipped : BitVec 16 := 0
  edge : Tab (BitVec 16) := []
  deriving DecidableEq, Repr

/-- A flux group (FG_STATUS). -/
structure Group where
  cause : BitVec 4 := 0
  faulted : Bool := false
  deriving DecidableEq, Repr

end Sys2Proof
end

