-- ==== Sys2Proof/Parts/Net.lean ====
section
/-!
DEFINITION. State of the time subsystem (chapter 14) and of the watch (chapter 15).
-/

namespace Sys2Proof

/-- TIME_STATUS.servo (Table 14-5). -/
inductive Servo where
  | free
  | primary
  | secondary
  | holdover
  | follow
  | followHold
  deriving DecidableEq, Repr

/-- A 1588 time (R558): seconds, and sub-nanoseconds of 2^-16 ns since the second began. -/
structure Tai where
  sec : BitVec 48 := 0
  ns : BitVec 32 := 0
  sub : BitVec 16 := 0
  deriving DecidableEq, Repr

/-- The persisted fields of TIME_CTL, TIME_SERVO and TIME_DETECT (Table 14-5). -/
structure TimeCfg where
  altValid : Bool := false
  followAlt : BitVec 4 := 0
  followLane : BitVec 4 := 0
  revert : Bool := false
  autoSwitch : Bool := true
  role : BitVec 2 := 0
  slewMax : BitVec 16 := 100
  lockThresh : BitVec 16 := 100
  offStep : BitVec 16 := 50
  pathStep : BitVec 12 := 20
  persist : BitVec 4 := 4
  deriving DecidableEq, Repr

/-- The TIME block's common state: epoch, servo, ALIGN, latched TIME_NOW (Table 14-5); `slewSub` is what a slew has taken off the error beyond whole
sixteenths of a nanosecond, in 1/(3 × 10^9) of one (R562).  `osc` is the steering of the disciplined oscillator in 10^-12 (R563), with the sum of it over `oscBeats` beats of
the second in progress and its means over the last seconds, up to 100, the newest first (R580). -/
structure TimeCtl where
  tai : Tai := {}
  epochValid : Bool := false
  slewSat : Bool := false
  stepped : Bool := false
  refSrc : BitVec 2 := 0
  servo : Servo := .free
  op : OpStatus := {}
  align : Bool := false
  alignStepped : Bool := false
  error : Int := 0
  slewSub : Nat := 0
  osc : Int := 0
  oscSum : Int := 0
  oscBeats : Nat := 0
  oscMeans : List Int := []
  inter : Int := 0
  nowTai : Tai := {}
  nowSched : Word64 := 0
  deriving DecidableEq, Repr

/-- The persisted fields of a port (PT_CTL and latencies). -/
structure PortCfg where
  enable : Bool := false
  dereri : Bool := false
  transport : BitVec 2 := 0
  p2p : Bool := false
  oneStep : Bool := false
  txLat : BitVec 16 := 0
  rxLat : BitVec 16 := 0
  asym : BitVec 32 := 0
  ipv4 : BitVec 32 := 0
  mac : BitVec 48 := 0
  deriving DecidableEq, Repr

/-- A message that a port sent (R567, R571): kind 1 Delay_Req, 2 Pdelay_Req, 3 Pdelay_Resp, 4 Pdelay_Resp_Follow_Up; its stamp and whether the stamp was put into
the frame as it left; its correctionField; and whether its UDP checksum is 0. -/
structure PtpSent where
  kind : BitVec 4 := 0
  stamp : Int := 0
  inFrame : Bool := false
  correction : Int := 0
  checksumZero : Bool := false
  deriving DecidableEq, Repr

/-- An XE port (Table 14-5), with the messages that it sent last. -/
structure EthPort where
  link : Bool := false
  ptpRx : BitVec 16 := 0
  dropped : BitVec 16 := 0
  answered : Nat := 0
  sent : List PtpSent := []
  deriving DecidableEq, Repr

/-- The persisted fields of DM_CTL. -/
structure DomainCfg where
  enable : Bool := false
  port : Bool := false
  number : BitVec 8 := 0
  annTimeout : BitVec 4 := 3
  deriving DecidableEq, Repr

/-- The states of a domain (Table 14-3). -/
inductive DomainState where
  | disabled
  | listening
  | locked
  | degraded
  | lost
  deriving DecidableEq, Repr

/-- What an Announce says of a grandmaster and of the way to it, as the default best master algorithm compares it (R567). -/
structure AnnounceData where
  sender : BitVec 64 := 0
  priority1 : BitVec 8 := 128
  gmClass : BitVec 8 := 0
  accuracy : BitVec 8 := 0xFE
  variance : BitVec 16 := 0xFFFF
  priority2 : BitVec 8 := 128
  gmId : BitVec 64 := 0
  steps : BitVec 16 := 0
  deriving DecidableEq, Repr

/-- A 1588 domain: the Announces heard, the latest of each sender; its last 16 accepted samples (offset, path), the last 16 samples since it entered its state, and its run of outliers (path
differs). -/
structure Domain where
  state : DomainState := .disabled
  cause : BitVec 3 := 0
  gmClass : BitVec 8 := 0
  gmId : BitVec 64 := 0
  masters : List AnnounceData := []
  offset : Int := 0
  path : Int := 0
  samples : List (Int × Int) := []
  recent : List (Int × Int) := []
  outRun : List Bool := []
  outliers : BitVec 16 := 0
  count : BitVec 16 := 0
  deriving DecidableEq, Repr

/-- The fields that an ARM of a time-pulse output copies (R583). -/
structure TpArm where
  mode : BitVec 2 := 0
  start : Fine := 0
  period : Nat := 0
  width : Nat := 0
  deriving DecidableEq, Repr

/-- A time-pulse output (Table 14-5).  `rose` and `endsAt` are the instants, in the module's own time, of the latest rising edge and of the end of its pulse. -/
structure TimePulse where
  mode : BitVec 2 := 0
  polarity : Bool := false
  start : Word64 := 0
  period : Word64 := 0
  width : BitVec 24 := 0x005DC0
  armed : Option TpArm := none
  nextArm : Option TpArm := none
  disarmPend : Bool := false
  level : Bool := false
  rose : Option Fine := none
  endsAt : Fine := 0
  missed : BitVec 8 := 0
  pulses : BitVec 16 := 0
  deriving DecidableEq, Repr

/-- The written fields of a comparator (Table 15-5). -/
structure WatchCfg where
  action : BitVec 2 := 0
  mode : BitVec 2 := 0
  enable : Bool := false
  irqEn : Bool := true
  reinEn : Bool := true
  wakeEn : Bool := false
  dwell : BitVec 8 := 2
  hi : BitVec 10 := 0x3FF
  lo : BitVec 10 := 0
  blankSrc : BitVec 2 := 0
  chan : BitVec 12 := 0
  period : BitVec 16 := 0
  offset : BitVec 16 := 0
  length : BitVec 16 := 0
  clrMode : Bool := false
  clrPeriod : BitVec 16 := 0
  deriving DecidableEq, Repr

/-- A window comparator (Table 15-5).  `next` is a configuration written, which takes effect at the next frame boundary (R599); `blankTok` is value
bit 0 of the latest token on its blanking channel; `since` is the latest instant, in the module's own time, at which its dwell began again (R592, R599). -/
structure Watch where
  cfg : WatchCfg := {}
  next : Option WatchCfg := none
  tripped : Bool := false
  cond : Bool := false
  since : Fine := 0
  chkFail : Bool := false
  chkBusy : Bool := false
  chkLevels : Bool := false
  which : BitVec 8 := 0
  level : BitVec 10 := 0
  cap : Fine := 0
  trips : BitVec 16 := 0
  blanked : BitVec 16 := 0
  blankTok : Bool := false
  wake : Bool := false
  shunt : Option (BitVec 2) := none
  deriving DecidableEq, Repr

/-- An entry of a scan list. -/
structure ScanEntry where
  gain : BitVec 2 := 0
  input : BitVec 10 := 0
  deriving DecidableEq, Repr

/-- A housekeeping converter (Table 15-5). -/
structure HkConv where
  mode : BitVec 2 := 0
  length : BitVec 4 := 0
  interval : BitVec 20 := 0
  entries : Tab ScanEntry := []
  running : Bool := false
  at_ : Nat := 0
  extra : Nat := 0
  primed : Bool := false
  due : Fine := 0
  restart : Bool := false
  lastInput : Option (BitVec 10 × BitVec 2) := none
  valid : Bool := false
  overrun : Bool := false
  settle : Bool := false
  spare : Bool := false
  gain : BitVec 2 := 0
  input : BitVec 10 := 0
  code : BitVec 12 := 0
  overruns : BitVec 16 := 0
  settles : BitVec 16 := 0
  failed : Bool := false
  offsetTrim : Int := 0
  gainTrim : Int := 0
  deriving DecidableEq, Repr

/-- The housekeeping bank's common state. -/
structure HkCtl where
  bgCal : Bool := true
  refEn : Bool := true
  refReady : Bool := false
  spareTgt : BitVec 4 := 0xF
  spareUse : BitVec 2 := 0
  nextTurn : Fin 8 := 0
  deriving DecidableEq, Repr

end Sys2Proof
end

