-- ==== Sys2Proof/Parts/Power.lean ====
section
/-!
DEFINITION. State of power, reset and boot, of the memories that outlive a reset (chapter 16), and of the Tally (chapter 17).
-/

namespace Sys2Proof

/-- One mains supply (PWR_SUPPLY). -/
structure Supply where
  present : Bool := false
  acOk : Bool := false
  dcOk : Bool := false
  warn : Bool := false
  inService : Bool := false
  deriving DecidableEq, Repr

/-- The power operation that PWR_OP_STATUS shows (Table 16-8). -/
inductive PwrCmd where
  | boot
  | fwWrite
  | fwSwitch
  deriving DecidableEq, Repr

/-- Where the module stands between power and running: off or held in reset, booting in a step, or running. -/
inductive ModulePhase where
  | held
  | boot (step : Nat)
  | running
  deriving DecidableEq, Repr

/-- The POWER block (Table 16-8).  A bring-up (R632, R633) has `bringing` in hand and `toBring` not yet reached, of `bringTotal`; `fwWriting` holds
the version that a FW_WRITE in progress writes; the new firmware of an FW_SWITCH starts until `fwUntil`; the
domains that wait to be switched on stand in `switchOn`, the first since `switchFrom` (R620); `busLow` says that the 12 V bus has fallen
below 10.2 V. -/
structure Power where
  supply1 : Supply := {}
  supply2 : Supply := {}
  inputW : BitVec 12 := 0
  phase : ModulePhase := .held
  cmd : Option PwrCmd := none
  op : OpStatus := {}
  partialValid : Bool := false
  stallsUp : BitVec 8 := 0
  toBring : List StallId := []
  harnessAtBoot : List StallId := []
  bringing : Option StallId := none
  bringTotal : Nat := 0
  straps : BitVec 8 := 0
  ga : BitVec 5 := 0
  recovery : Bool := false
  domOn : BitVec 256 := 0
  domFault : BitVec 256 := 0
  switchOn : List Nat := []
  switchFrom : Fine := 0
  shutdown : Bool := false
  fwOk : Bool := false
  fwWriting : Option (BitVec 32) := none
  fwUntil : Fine := 0
  busLow : Bool := false
  fanTray : Bool := true
  deriving DecidableEq, Repr

/-- The backup domain (R626, R627, R641).  `rtcSub` counts fine steps since the clock last rose by 1/65,536 s. -/
structure Backup where
  lost : Bool := true
  powerFail : Bool := false
  fluxStepped : Bool := false
  linesStepped : BitVec 8 := 0
  lastCause : BitVec 4 := 1
  resetCount : BitVec 32 := 0
  rtc : BitVec 64 := 0
  rtcValid : Bool := false
  rtcSub : Nat := 0
  floorHerd : BitVec 16 := 0
  floorStall : BitVec 16 := 0
  deriving DecidableEq, Repr

/-- A key slot (R126). -/
inductive KeySlot where
  | empty
  | enrolled (digest : BitVec 384)
  | revoked
  deriving DecidableEq, Repr

/-- The key store and floors (R126, R129). -/
structure KeyStore where
  slot0 : KeySlot := .enrolled 0
  slot1 : KeySlot := .empty
  slot2 : KeySlot := .empty
  slot3 : KeySlot := .empty
  floorHerd : BitVec 16 := 0
  floorStall : BitVec 16 := 0
  deriving DecidableEq, Repr

/-- One copy of the key store in the persistent register file: its sequence number, and whether its CRC-32 holds (R638). -/
structure KeyCopy where
  keys : KeyStore := {}
  seq : Nat := 0
  ok : Bool := true
  deriving DecidableEq, Repr

/-- One copy of a line's persisted flux values (R445, R638): the curb and safe value, its sequence number, and whether its CRC-32 holds. -/
structure FluxCopy where
  curb : Curb := {}
  safe : DcPoint := {}
  seq : Nat := 0
  ok : Bool := true
  deriving DecidableEq, Repr

/-- A line's persisted flux values: copies A and B. -/
structure FluxPersist where
  a : FluxCopy := {}
  b : FluxCopy := {}
  deriving DecidableEq, Repr

/-- The persistent register file and the fuses, the boot flash and the public key of the boot ROM (R125) beside it: everything a module reset keeps
(Table 16-2).  `flash` holds the
images of R630: the herd image from byte 0, stall n's from byte (n + 1) × 64 MiB.  `keys` is the key store in force, `keyA` and `keyB` its copies. -/
structure Persist where
  keys : KeyStore := {}
  keyA : KeyCopy := {}
  keyB : KeyCopy := {}
  flux : Tab FluxPersist := []
  studs : Tab Stud := []
  time : TimeCfg := {}
  ports : Tab PortCfg := []
  domains : Tab DomainCfg := []
  perstScope : Bool := false
  fwBank : Bool := false
  hwIssue : BitVec 8 := 0
  cooling : BitVec 4 := 1
  fuseKey : BitVec 384 := 0
  romKeyX : BitVec 384 := 0
  romKeyY : BitVec 384 := 0
  factoryTrim : Tab (BitVec 8) := []
  xqTrim : Tab (BitVec 8) := []
  user : Tab Byte := []
  flash : Tab Byte := []
  corrected : BitVec 16 := 0
  uncorrected : BitVec 8 := 0
  keyRebuilt : Bool := false
  rwpSeq : Nat := 0
  fwVersion0 : BitVec 32 := 0
  fwVersion1 : BitVec 32 := 0
  fwFloor : BitVec 32 := 0
  deriving DecidableEq, Repr

/-- The Tally's states (Table 17-3). -/
inductive SealState where
  | closed
  | opened
  | unbound
  | fault
  deriving DecidableEq, Repr

/-- The counters that a feed carries and the Tally keeps for one owner (Table 17-1). -/
structure Counts where
  done : Nat := 0
  aborted : Nat := 0
  driveBeats : Nat := 0
  probeBeats : Nat := 0
  chanFrames : Nat := 0
  deriving DecidableEq, Repr

/-- A feed transmitter of a stall: its totals since power-on by owner (R649), and the message it last sent. -/
structure Feed where
  totals : Tab Counts := []
  gen : Nat := 0
  sent : Tab Counts := []
  sentFrame : Nat := 0
  deriving DecidableEq, Repr

/-- A configuration item written through the seal port (R658). -/
inductive SealItem where
  | clock (t : BitVec 64)
  | serial (n : Nat)
  | meter (inlet2 : Bool) (k : Nat)
  | tenantRead (on : Bool)
  deriving DecidableEq, Repr

/-- An entry of the Tally's log (Table 17-4). -/
structure TallyEntry where
  number : Nat
  seconds : BitVec 32
  kind : BitVec 8
  source : BitVec 8
  data : BitVec 32
  deriving DecidableEq, Repr

/-- What the mirror shows after its last refresh (Table 17-6). -/
structure Mirror where
  seq : BitVec 32 := 0
  state : SealState := .closed
  tenantRead : Bool := false
  clock : BitVec 64 := 0
  frame : Nat := 0
  feed : BitVec 11 := 0
  opens : BitVec 16 := 0
  changes : BitVec 16 := 0
  logLast : Nat := 0
  eTotal : Nat := 0
  eIn1 : Nat := 0
  eIn2 : Nat := 0
  owners : Tab Counts := []
  log : List TallyEntry := []
  deriving DecidableEq, Repr

/-- The Tally (chapter 17).  `last` holds, for each stall, the generation and totals of the latest intact message, `frames` its frame; `conf` the
configuration written since the last refresh (Table 17-3), `clockSub` the fine steps since its clock last rose; `recent` what the messages since the last
refresh have added, with their frames, newest first (R664); `refreshLeft` the beats that a refresh of the mirror still takes. -/
structure Tally where
  state : SealState := .closed
  fwId : BitVec 16 := 0
  hwIssue : BitVec 16 := 0
  fwCheck : BitVec 32 := 0
  serial : Nat := 0
  carrier : Nat := 0
  tenantRead : Bool := false
  clock : BitVec 64 := 0
  clockSub : Nat := 0
  feed : BitVec 11 := 0x7FF
  opens : BitVec 16 := 0
  changes : BitVec 16 := 0
  logCount : Nat := 0
  log : List TallyEntry := []
  owners : Tab Counts := []
  last : Tab (Nat × Tab Counts) := []
  frames : Tab Nat := []
  recent : List (Nat × Tab Counts) := []
  eIn1 : Nat := 0
  eIn2 : Nat := 0
  supplySerial1 : Nat := 0
  supplySerial2 : Nat := 0
  supplyBase1 : Nat := 0
  supplyBase2 : Nat := 0
  const1 : Nat := 1
  const2 : Nat := 1
  conf : List SealItem := []
  mirror : Mirror := {}
  refreshLeft : Nat := 0
  deriving DecidableEq, Repr

end Sys2Proof
end

