-- ==== Sys2Proof/Parts/Queue.lean ====
section
/-!
DEFINITION. State of the queues, of QDIR and of the page book (chapter 11).
-/

namespace Sys2Proof

/-- A port of a queue (Table 11-1, R456).  A rider's shot writer spends the rider's credits (R407), so it is the rider's port;
a slice is an acquisition slice; a lane is tether ingress or egress. -/
inductive QPort where
  | rider (r : RiderId)
  | slice (stall : StallId) (idx : Fin 5)
  | voice (v : VoiceId)
  | host
  | tether (lane : LaneId)
  deriving DecidableEq, Repr

/-- A word of a queue with its end marker (R463) and the number of the port that pushed it. -/
structure QWord where
  word : Word
  eoi : Bool
  port : Nat
  deriving DecidableEq, Repr

/-- What one producer port of a queue holds (R459 to R468): its credits, the credits held at the queue for it while it is absent
(R139, R461), credits on their way back, words issued and not yet at the element, its staged item and its discarding state. -/
structure QProd where
  credits : Nat := 0
  absent : Nat := 0
  returning : Nat := 0
  flight : List QWord := []
  staged : List QWord := []
  openItem : Bool := false
  discarding : Bool := false
  deriving DecidableEq, Repr

/-- A queue (Table 11-3).  `freeing` counts pages of a flush on their way back (R469), `releasing` other pages on their way back (R473),
`heldPops` the host takes that an audit holds (R486).  Of the stored words the oldest 32 stand in the head and the newest in the tail; the `spilled`
words between them lie in spill pages, from word `spillAt` of the first page on (R473). -/
structure Queue where
  stored : List QWord := []
  spilled : Nat := 0
  spillAt : Nat := 0
  prods : Tab QProd := []
  ungranted : Nat := 0
  fault : Bool := false
  freeing : Nat := 0
  releasing : Nat := 0
  pages : Nat := 0
  heldPops : List Nat := []
  resets : BitVec 8 := 0
  discards : BitVec 8 := 0
  popValid : Bool := false
  popTaken : BitVec 4 := 0
  popEoi : Bool := false
  popData : Tab Word := []
  lost : Nat := 0
  deriving DecidableEq, Repr

/-- An allocation or release of pages of a stall that an audit of the pages holds (R486). -/
inductive PageMove where
  | take (stall : StallId) (pages : Nat)
  | give (stall : StallId) (pages : Nat)
  deriving DecidableEq, Repr

/-- The command of QDIR in progress (R487). -/
inductive QdirCmd where
  | flush (q : QueueId)
  | auditQueue (q : QueueId)
  | auditPages
  | scrub
  deriving DecidableEq, Repr

/-- QDIR (Table 11-5) and the page book (R483): pages free, allocated and in transit; `ringTransit` holds, for each stall, the rings on their way back,
each with its first page still in transit and the pages left, and `heldMoves` the allocations and releases that an audit holds (R486). -/
structure Qdir where
  cmd : Option QdirCmd := none
  op : OpStatus := {}
  partialValid : Bool := false
  result : BitVec 31 := 0
  flushPages : Nat := 0
  openDropped : Bool := false
  audit0 : Word := 0
  audit1 : Word := 0
  audit2 : Word := 0
  audit3 : Word := 0
  free : Nat := 1045952
  allocated : Nat := 0
  transit : Nat := 0
  used : Tab Nat := []
  ringTransit : Tab (List (Nat × Nat)) := []
  heldMoves : List PageMove := []
  noQueue : BitVec 16 := 0
  resets : BitVec 16 := 0
  corrected : BitVec 16 := 0
  uncorrected : BitVec 16 := 0
  deriving DecidableEq, Repr

end Sys2Proof
end

