-- ==== Sys2Proof/Parts/Rein.lean ====
section
/-!
DEFINITION. State of the rein fabric (chapter 8): tokens, cells, nodes, channels, copies in flight and the hub.
-/

namespace Sys2Proof

/-- The kind of a token (Table 08-2). -/
inductive TokenKind where
  | decision
  | edge
  | emission
  | cell
  deriving DecidableEq, Repr

/-- A token (Table 08-2). -/
structure Token where
  chan : ReinChan
  kind : TokenKind
  hop : BitVec 3
  inv : Bool
  value : BitVec 2
  deriving DecidableEq, Repr

/-- A buckle cell of a stall node, or of a hub plane (false: plane A, true: plane B), number 0 to 1,023 from B1000. -/
inductive CellId where
  | node (stall : StallId) (num : Fin 256)
  | hub (planeB : Bool) (num : Fin 1024)
  deriving DecidableEq, Repr

/-- A consumer of a channel (Table 08-4, R598 for a comparator's blanking, R586 for time-pulse routing, and the Tally). -/
inductive Consumer where
  | taskInput (rider : RiderId) (ti : Fin 4)
  | cellInput (cell : CellId) (input : Fin 6)
  | capture (stall : StallId) (unit : Fin 4)
  | blank (comparator : Fin 96)
  | egress (lane : LaneId)
  | tally
  deriving DecidableEq, Repr

/-- Where a producer of a channel sits (Table 08-1): a stall's node, or the hub. -/
inductive Place where
  | node (stall : StallId)
  | hub
  deriving DecidableEq, Repr

/-- The way of a copy through the fabric. -/
inductive Stage where
  | local_
  | hubLink
  | planes
  | exit
  deriving DecidableEq, Repr

/-- One copy of a token in flight (R328), accounted on its own: its token, where and at which producer port it was issued, its consumer and its
stage; in the hub, the copy each plane holds (R362) and the plane copy its compare unit holds (R363). -/
structure Flight where
  tok : Token
  src : Place
  port : Nat
  dst : Consumer
  stage : Stage
  a : Option Token := none
  b : Option Token := none
  gotA : Bool := false
  gotB : Bool := false
  at_ : Fine := 0
  deriving DecidableEq, Repr

/-- The filter interval or join window state and the latches of a cell (R340 to R347, Table 08-11). -/
structure Cell where
  joinWin : BitVec 8 := 0
  width : BitVec 8 := 1
  pendFilter : Option (BitVec 8 × BitVec 8) := none
  overrun : Bool := false
  ffValue : BitVec 2 := 0
  ffInv : Bool := false
  outValue : BitVec 2 := 0
  outInv : Bool := false
  outHop : BitVec 3 := 0
  absorbed : BitVec 16 := 0
  overruns : BitVec 8 := 0
  expired : BitVec 8 := 0
  latches : Tab (List Token) := []
  heldBits : BitVec 6 := 0
  join : Option Nat := none
  cand : Option (BitVec 2 × Bool × BitVec 3) := none
  filterRun : Bool := false
  history : List (BitVec 2) := []
  disabled : Bool := false
  deriving DecidableEq, Repr

/-- A stall's rein node (Table 08-12). -/
structure Node where
  fault : Bool := false
  cause : BitVec 4 := 0
  chan : Option ReinChan := none
  cell : Option (BitVec 8) := none
  busy : BitVec 16 := 0
  notRiding : BitVec 16 := 0
  ownerDrop : BitVec 8 := 0
  faultDrop : BitVec 8 := 0
  loop : BitVec 16 := 0
  contend : BitVec 16 := 0
  auditDrop : BitVec 16 := 0
  corrected : BitVec 16 := 0
  passes : BitVec 16 := 0
  deriving DecidableEq, Repr

/-- The token book of a channel (R374), and the tokens that its producer ports keep while an audit holds it,
each with its producer's place and port number (R376). -/
structure Book where
  issued : Nat := 0
  consumed : Nat := 0
  overrun : Nat := 0
  loop : Nat := 0
  kept : List (Place × Nat × Token) := []
  deriving DecidableEq, Repr

/-- The state of a hub plane (Table 08-5). -/
inductive PlaneState where
  | service
  | out
  | rejoin
  | writing
  deriving DecidableEq, Repr

/-- A hub plane (PL_STATUS, PL_ERR). -/
structure HubPlane where
  state : PlaneState := .out
  cause : BitVec 4 := 0
  entry : Bool := false
  corrected : BitVec 16 := 0
  missing : BitVec 16 := 0
  deriving DecidableEq, Repr

/-- An action that waits for a hub settle point (R367). -/
inductive HubAction where
  | takeOut (planeB : Bool)
  | rejoin (planeB : Bool)
  | switchEntry
  deriving DecidableEq, Repr

/-- The audit of one channel's token book (R374). -/
structure ReinAudit where
  op : OpStatus := {}
  chan : ReinChan := 0
  held : Bool := false
  issued : BitVec 64 := 0
  consumed : BitVec 64 := 0
  overrun : BitVec 64 := 0
  loop : BitVec 64 := 0
  inFlight : BitVec 32 := 0
  deriving DecidableEq, Repr

/-- The rein hub (Table 08-13). -/
structure Hub where
  planeA : HubPlane := {}
  planeB : HubPlane := {}
  op : OpStatus := {}
  partialValid : Bool := false
  cellsDone : BitVec 11 := 0
  noRoute : BitVec 16 := 0
  mismatch : BitVec 16 := 0
  contend : BitVec 16 := 0
  loop : BitVec 16 := 0
  pend : List HubAction := []
  audit : ReinAudit := {}
  loading : Bool := false
  scrubRoute : Bool := false
  deriving DecidableEq, Repr

end Sys2Proof
end

