-- ==== Sys2Proof/Parts/Rider.lean ====
section
/-!
DEFINITION. State of a rider (Table 09-1, Table 09-13).
-/

namespace Sys2Proof

/-- The states of a rider (Table 09-2). -/
inductive RiderState where
  | stopped
  | running
  | waiting
  | held
  | forked
  deriving DecidableEq, Repr

/-- The eight flags (Table 09-1). -/
structure Flags where
  z : Bool := false
  n : Bool := false
  c : Bool := false
  v : Bool := false
  tmo : Bool := false
  late : Bool := false
  alt : Bool := false
  eoi : Bool := false
  deriving DecidableEq, Repr

/-- A task input (R396): its latch, oldest first, each token with whether it came over the hub, its overrun flag and its late claim (R401). -/
structure TaskInput where
  latch : List (Token × Bool) := []
  overrun : Bool := false
  claim : Bool := false
  deriving DecidableEq, Repr

/-- The shot of a rider in progress or the last one (R406, R278, R111): the cause bits of its record, the voices and lines the
rider has posted to (R279, R449), and what the latency word gathers. -/
structure Shot where
  num : BitVec 32 := 0
  active : Bool := false
  start : Word64 := 0
  windows : Nat := 0
  dropped : BitVec 16 := 0
  channel : Bool := false
  guard : Bool := false
  seq : Bool := false
  missed : Bool := false
  gate : Bool := false
  slice : Bool := false
  voices : List Nat := []
  lines : List Nat := []
  chans : List Nat := []
  releases : Nat := 0
  late : Bool := false
  trot : Bool := false
  noAnchor : Bool := false
  maxLat : Nat := 0
  pace : Option Nat := none
  hub : Bool := false
  spinePace : Option Nat := none
  deriving DecidableEq, Repr

/-- Faults pending at the rider for handler entry (R404, R405). -/
structure PendFaults where
  late : Bool := false
  overrun : Bool := false
  refused : Bool := false
  ctrig : Bool := false
  spur : Bool := false
  deriving DecidableEq, Repr

/-- The fault registers of a rider (RH_FAULT, RH_FAULT_EN, RH_HANDLER). -/
structure RiderFault where
  code : Code := 0
  fatal : Bool := false
  late : Bool := false
  overrun : Bool := false
  refused : Bool := false
  en : BitVec 3 := 0
  handler : BitVec 16 := 0
  pend : PendFaults := {}
  deriving DecidableEq, Repr

/-- A rider.  `deadline` is that of the wait in hand (R394), `savedWait` the waiting word that a handler entry left, with its deadline;
`lastAnchor` the anchor of the last window it opened; `lastStable` says that the word fetched last lay in the stable (R410);
`release` that it starts at the next frame boundary; `forkVoice` the voice of its last FORK while that fork is unsettled (R400); `corrected` the single-bit
errors of its fetches (R411), which no register shows. -/
structure Rider where
  state : RiderState := .stopped
  pc : BitVec 16 := 0
  regs : Tab Word := []
  times : Tab Word64 := []
  flags : Flags := {}
  stack : List (BitVec 16) := []
  inputs : Tab TaskInput := []
  shot : Shot := {}
  lastVoices : List Nat := []
  inHandler : Bool := false
  deadline : Option Fine := none
  savedWait : Option (BitVec 16 × Fine) := none
  lastAnchor : Word64 := 0
  lastStable : Bool := false
  stopPending : Bool := false
  release : Bool := false
  forkVoice : Option Nat := none
  fault : RiderFault := {}
  started : BitVec 32 := 0
  completed : BitVec 32 := 0
  aborted : BitVec 32 := 0
  timeouts : BitVec 16 := 0
  heldCount : BitVec 16 := 0
  lateDiscard : BitVec 8 := 0
  recordsDropped : BitVec 8 := 0
  refusedCount : BitVec 16 := 0
  corrected : Nat := 0
  deriving DecidableEq, Repr

end Sys2Proof
end

