-- ==== Sys2Proof/Parts/Image.lean ====
section
/-!
DEFINITION. What the sections of a tack image say (chapter 3, Table 03-3), once decoded, and the state of the loader.
The encodings of the sections inside an image are not given (R123), so a command carries what they say.
-/

namespace Sys2Proof

/-- A security attribute (R130). -/
inductive SecAttr where
  | sys
  | ten
  | seal
  deriving DecidableEq, Repr

/-- Where BIND and OWNERS put a voice: its slice (0xF unbound), lane, owner and qubit position. -/
structure VoiceBind where
  slice : BitVec 4 := 0xF
  lane : BitVec 4 := 0
  owner : Owner := 0
  attr : Option SecAttr := none
  pos : Option (Fin 64) := none
  deriving DecidableEq, Repr

/-- Where BIND, OWNERS, USES, QUEUES and FARRIER put a readout channel (Table 06-9, R494). -/
structure ChanBind where
  slice : BitVec 4 := 0xF
  lane : BitVec 4 := 0
  probe : Fin 64 := 0
  klimit : Nat := 0
  owner : Owner := 0
  attr : Option SecAttr := none
  pos : Option (Fin 64) := none
  rein : ReinChan := 0xFFF
  resultQ : Option QueueId := none
  states : BitVec 2 := 0
  seeds : List Centroid := []
  alignRot : Bool := false
  deriving DecidableEq, Repr

/-- Owner and qubit position of a flux line (R419). -/
structure LineBind where
  owner : Owner := 0
  attr : Option SecAttr := none
  pos : Option (Fin 64) := none
  deriving DecidableEq, Repr

/-- What the image sets for a rider (R381): `subs` lists, by task input, the channels it subscribes to. -/
structure RiderBind where
  owner : Owner := 0
  attr : Option SecAttr := none
  entry : BitVec 16 := 0
  start : Bool := false
  shotQ : Option QueueId := none
  subs : Tab (List ReinChan) := []
  deriving DecidableEq, Repr

/-- STn_MARKER_ROUTEk (Table 04-13). -/
structure MarkerRoute where
  enable : Bool := false
  probe : Bool := false
  voice : Fin 64 := 0
  bit : Fin 4 := 0
  polarity : Bool := false
  deriving DecidableEq, Repr

/-- A queue's allocation (R455): capacity in words, spill quota in pages, its producer ports with grants and its consumer. -/
structure QueueAlloc where
  owner : Owner := 0
  attr : Option SecAttr := none
  capacity : Nat := 64
  quota : Nat := 0
  itemMode : Bool := false
  prods : List (QPort × Nat) := []
  consumer : Option QPort := none
  deriving DecidableEq, Repr

/-- The source of a cell input (R340). -/
inductive CellSource where
  | chan (e : ReinChan)
  | cell (b : Nat)
  | flipFlop (b : Nat)
  | const (v : Bool)
  deriving DecidableEq, Repr

/-- One input of a cell: joined or held, which bit it takes (0 and 1 value bits, 2 inv), and its source. -/
structure CellInput where
  joined : Bool := false
  bit : Fin 3 := 0
  source : CellSource := .const false
  deriving DecidableEq, Repr

/-- A cell as NODE or HUB wires it (R339, Table 08-11). -/
structure CellImage where
  used : Bool := false
  ffEn : Bool := false
  filterMode : BitVec 2 := 0
  owner : Owner := 0
  expireInv : Bool := false
  emitMask : BitVec 4 := 0
  chan : Option ReinChan := none
  inputs : List CellInput := []
  table : BitVec 128 := 0
  ffValue : BitVec 2 := 0
  ffInv : Bool := false
  deriving DecidableEq, Repr

/-- A marker bit wired to a rein channel (R186). -/
structure MarkerWire where
  probe : Bool
  voice : Fin 64
  bit : Fin 4
  chan : ReinChan
  deriving DecidableEq, Repr

/-- The FARRIER section's policy (R494). -/
structure FarrierPolicy where
  kindEn : BitVec 6 := 0
  autoEn : BitVec 6 := 0
  periods : Tab Nat := []
  minSep : BitVec 16 := 0x0300
  maxShift : BitVec 16 := 0x0200
  minSpur : BitVec 8 := 60
  minImage : BitVec 8 := 50
  maxSkew : BitVec 8 := 5
  maxMarker : BitVec 8 := 25
  minWindows : BitVec 16 := 4000
  minPerState : BitVec 16 := 200
  obsTimeout : BitVec 16 := 1000
  actTimeout : BitVec 16 := 100
  deriving DecidableEq, Repr

/-- A region of the paddock: the address of its first word, its words, its owner and the attribute that the image gives it (R132). -/
structure Region where
  first : Nat
  words : Nat
  owner : Owner
  attr : Option SecAttr := none
  deriving DecidableEq, Repr

/-- The control store of an image: paddock regions, its words, and the stable's words. -/
structure ProgramImage where
  regions : List Region := []
  paddock : Tab (BitVec 256) := []
  stable : Tab (BitVec 256) := []
  deriving DecidableEq, Repr

/-- The wiring of a stall's rein node (NODE, USES): a USES entry gives a channel, its owner, and whether the stall produces into it. -/
structure NodeImage where
  cells : Tab CellImage := []
  markers : List MarkerWire := []
  comparators : Tab ReinChan := []
  pace : Option ReinChan := none
  depth : BitVec 3 := 0
  uses : List (ReinChan × Owner × Bool) := []
  deriving DecidableEq, Repr

/-- A Trot deadline entry of the TROT section (R102). -/
structure TrotEntry where
  deadline : Nat
  owner : Owner
  attr : Option SecAttr := none
  deriving DecidableEq, Repr

/-- A partial stall image.  Where an object's `attr` is none, the image gives it the attribute of its owner (R130).  `init` gives offsets in the stall window with values; `outOfRange` names a section type and an object whose index no field here can
hold. -/
structure StallImage where
  voices : Tab VoiceBind := []
  chans : Tab ChanBind := []
  lines : Tab LineBind := []
  riders : Tab RiderBind := []
  markers : Tab MarkerRoute := []
  policy : BitVec 20 := 0
  standing : List (SliceKind × BitVec 4) := []
  program : ProgramImage := {}
  node : NodeImage := {}
  queues : Tab QueueAlloc := []
  produces : List (QPort × QueueId) := []
  farrier : FarrierPolicy := {}
  power : BitVec 30 := 0x3FFFFFFF
  trot : List TrotEntry := []
  blocks : Tab Owner := []
  groups : Tab Owner := []
  library : Tab Word := []
  descs : Tab Word := []
  watch : Tab WatchCfg := []
  init : List (Nat × Word) := []
  outOfRange : Option (BitVec 8 × Word) := none
  deriving DecidableEq, Repr

/-- Owner and attribute of a rein channel (R130): `ten` is TEN. -/
structure ChanAttr where
  owner : Owner := 0
  ten : Bool := false
  deriving DecidableEq, Repr

/-- A lane as TETHER gives it (R525). -/
structure LaneCfg where
  enable : Bool := false
  partnerId : BitVec 16 := 0
  partnerLane : BitVec 4 := 0
  eqAuto : Bool := false
  eqSet : BitVec 4 := 0
  deriving DecidableEq, Repr

/-- The route of a channel, or of a queue with tether egress, over lanes (R525). -/
structure Route where
  primary : LaneId
  alternate : Option LaneId := none
  partner : BitVec 14 := 0
  deriving DecidableEq, Repr

/-- The wiring of the hub (HUB section): cells B1000 to B2023, and the channels of its producers. -/
structure HubImage where
  cells : Tab CellImage := []
  comparators : Tab ReinChan := []
  pulses : Tab ReinChan := []
  pace : Option ReinChan := none
  deriving DecidableEq, Repr

/-- An entry of a KEYS section (R128). -/
inductive KeyOp where
  | enrol (slot : Fin 4) (digest : BitVec 384)
  | revoke (slot : Fin 4)
  deriving DecidableEq, Repr

/-- A herd image; a hub update uses only `hub`. -/
structure HerdImage where
  chans : Tab ChanAttr := []
  moduleId : BitVec 16 := 0
  lanes : Tab LaneCfg := []
  routes : Tab Route := []
  queueRoutes : Tab Route := []
  quotas : Tab Nat := []
  cages : BitVec 4 := 0
  stabled : BitVec 8 := 0
  harnessed : BitVec 8 := 0
  vectors : List (Nat × Func × Nat) := []
  keys : List KeyOp := []
  triggers : List (Fin 9 × Fin 8) := []
  watch : Tab WatchCfg := []
  hub : HubImage := {}
  outOfRange : Option (BitVec 8 × Word) := none
  deriving DecidableEq, Repr

/-- What an image's sections say. -/
inductive ImageBody where
  | herd (i : HerdImage)
  | stall (i : StallImage)
  | hub (i : HubImage)
  deriving DecidableEq, Repr

/-- The operation of the loader (Table 03-9). -/
inductive TackOp where
  | loadStall (n : StallId)
  | loadHerd
  | loadHub
  | check (n : StallId)
  deriving DecidableEq, Repr

/-- A header of an image (Table 03-1). -/
structure Header where
  magic : BitVec 32 := 0
  format : BitVec 16 := 0
  kind : BitVec 8 := 0
  target : BitVec 8 := 0
  tag : BitVec 16 := 0
  secVersion : BitVec 16 := 0
  length : BitVec 32 := 0
  sections : BitVec 16 := 0
  flags : BitVec 16 := 0
  herdTag : BitVec 16 := 0
  herdDigest8 : BitVec 64 := 0
  keySlot : BitVec 8 := 0
  ibvex : BitVec 32 := 0
  deriving DecidableEq, Repr

/-- A directory entry (Table 03-2). -/
structure DirEntry where
  type : BitVec 8 := 0
  attr : BitVec 8 := 0
  offset : BitVec 32 := 0
  size : BitVec 32 := 0
  crc : BitVec 32 := 0
  deriving DecidableEq, Repr

/-- A check that fails (R136, R140): its phase, its code, the section in work, the object at fault and the value that describes it. -/
structure Flaw where
  phase : Nat := 4
  code : Code
  section_ : Nat := 0
  object : Word := 0
  aux : Option Nat := none
  deriving DecidableEq, Repr

/-- The TACK block (Table 03-8) with the load in progress: its slot or the boot flash, the slot's length and the fitness of the target's state as they
stood at its start (R136, R143), header and sections as checked, and the image's digest.  `phase` is 1 in phases 1 to 4 and 5 in phases 5 and 6. -/
structure Tack where
  run : Option TackOp := none
  slot : SlotId := 0
  flash : Bool := false
  len : Word := 0
  fits : Bool := true
  func : Option Func := none
  op : OpStatus := {}
  partialValid : Bool := false
  phase : Nat := 0
  sectionsDone : BitVec 8 := 0
  sectionAt : BitVec 8 := 0
  sectionsTotal : BitVec 8 := 0
  faultObj : Word := 0
  faultAux : Word := 0
  slot0Len : Word := 0
  slot1Len : Word := 0
  herdTag : BitVec 16 := 0
  herdDigest : BitVec 384 := 0
  header : Header := {}
  body : Option ImageBody := none
  digest : BitVec 384 := 0
  lostTarget : Bool := false
  planeAFirst : Bool := true
  badBlocks : List Nat := []
  deriving DecidableEq, Repr

/-- A shot audit of a stall (Table 18-5). -/
structure ShotAudit where
  op : OpStatus := {}
  ownerScope : Bool := false
  index : BitVec 4 := 0
  started : BitVec 32 := 0
  completed : BitVec 32 := 0
  aborted : BitVec 32 := 0
  inProgress : BitVec 5 := 0
  deriving DecidableEq, Repr

end Sys2Proof
end

