-- ==== Sys2Proof/Parts/Tether.lean ====
section
/-!
DEFINITION. State of the tether lanes (chapter 13).
-/

namespace Sys2Proof

/-- The states of a lane (Table 13-3). -/
inductive LaneState where
  | unhitched
  | training
  | hitched
  deriving DecidableEq, Repr

/-- A copy in an egress latch or unacknowledged on the line: the token and the local channel of its route; `bad` says that an INJECT
corrupted its CRC-4 (R552). -/
structure Egress where
  chan : ReinChan
  tok : Token
  bad : Bool := false
  deriving DecidableEq, Repr

/-- A packet not yet acknowledged (R536): queue words or credit returns of one local queue, numbered within its queue and kind, with
the lane that carries it (none: it waits for one, R537), whether it waits to leave, and how often it was sent. -/
structure Packet where
  seq : Nat
  queue : QueueId
  words : List QWord
  credits : Nat := 0
  lane : Option LaneId := none
  due : Bool := true
  sends : Nat := 0
  deriving DecidableEq, Repr

/-- A symbol of the line (R527): an octet, and whether it is a special symbol. -/
structure LineSym where
  octet : Byte
  special : Bool := false
  deriving DecidableEq, Repr

/-- A time mark that waits to leave (R547): a request, or a reply with the stamps of the request's arrival and of its own departure, in 1/16 ns. -/
inductive MarkOut where
  | request (t1 : Int)
  | reply (t2 t3 : Int)
  deriving DecidableEq, Repr

/-- The transmitter of a lane (R527 to R529): its running disparity, what is left of the event and of the unit in progress, the acknowledges of events and of
packets and the time marks that wait to leave, and the ten bits on the line, the first sent highest; none is electrical idle (R541). -/
structure Transmit where
  positive : Bool := false
  event : List LineSym := []
  unit : List LineSym := []
  ackDue : Bool := false
  packAcks : List (QueueId × Bool × Nat) := []
  marks : List MarkOut := []
  line : Option (BitVec 10) := none
  deriving DecidableEq, Repr

/-- The pattern generator and checker of a lane (R550 to R552): the generator's shift register and the bits it has sent; `thirds` are the thirds of bits
checked beyond those that `bits` shows. -/
structure Prbs where
  genEn : Bool := false
  chkEn : Bool := false
  poly : BitVec 2 := 0
  locked : Bool := false
  injRate : BitVec 4 := 0
  injectNext : Bool := false
  shift : BitVec 31 := 0
  sent : Nat := 0
  errors : BitVec 32 := 0
  bits : BitVec 32 := 0
  thirds : Nat := 0
  deriving DecidableEq, Repr

/-- The measured latencies of a lane (R547 to R549), in 1/16 ns; `trips`, `sum` (twice the latencies) and `largest` gather phase 5; `sent` is the stamp of the
request that is out. -/
structure LaneTime where
  worst : BitVec 16 := 0
  mean : BitVec 16 := 0
  maxRun : BitVec 16 := 0
  last : BitVec 16 := 0
  offset : BitVec 32 := 0
  trips : Nat := 0
  sum : Int := 0
  largest : Nat := 0
  sent : Option Int := none
  deriving DecidableEq, Repr

/-- A tether lane (Table 13-7).  `intactIn` is the count of intact events that its next acknowledge carries (Table 13-1); `trainAuto` and `trainSet` are the
equaliser fields that the training in progress uses (R540). -/
structure Lane where
  enable : Bool := false
  eqAuto : Bool := false
  eqSet : BitVec 4 := 0
  trainAuto : Bool := false
  trainSet : BitVec 4 := 0
  state : LaneState := .unhitched
  phase : Nat := 0
  backoff : Nat := 0
  eqNow : BitVec 4 := 0
  cause : BitVec 4 := 0
  overErr : Bool := false
  overrun : Bool := false
  seenLane : BitVec 4 := 0
  seenId : BitVec 16 := 0
  eye : BitVec 8 := 0
  time : LaneTime := {}
  codeErr : BitVec 16 := 0
  lost : BitVec 16 := 0
  trainings : BitVec 16 := 0
  diverted : BitVec 16 := 0
  egress : List Egress := []
  unacked : List Egress := []
  ackCount : BitVec 8 := 0
  intactIn : BitVec 8 := 0
  corruptNext : Bool := false
  prbs : Prbs := {}
  tx : Transmit := {}
  deriving DecidableEq, Repr

/-- The TETHER block's common registers (Table 13-7), and the queue words of its routes (R535 to R537): packets not acknowledged, oldest first; by queue and
kind the number of the next packet and of packets received; by queue the remote credits that an egress holds, the credits of an ingress port that
the partner has been told of, and the lane of its latest words. -/
structure TetherCtl where
  op : OpStatus := {}
  retrain : Option LaneId := none
  partialValid : Bool := false
  phase : Nat := 0
  measured : BitVec 11 := 0
  noLane : BitVec 16 := 0
  busy : BitVec 16 := 0
  packets : List Packet := []
  nextSeq : Tab Nat := []
  received : Tab Nat := []
  remote : Tab Nat := []
  told : Tab Nat := []
  via : Tab Nat := []
  deriving DecidableEq, Repr

end Sys2Proof
end

