-- ==== Sys2Proof/Parts/Event.lean ====
section
/-!
DEFINITION. The operands of commands that bring something from outside the model: samples, stamps, verdicts of checks
and outcomes of races that the rules leave to the hardware.
-/

namespace Sys2Proof

/-- Whether a fetched microword or a scrubbed word was clean, corrected or bad (R411, R338). -/
inductive Ecc where
  | clean
  | single
  | double
  deriving DecidableEq, Repr

/-- What a span readback finds (R431): the span that it reads, or a fault of the DC reference (Table 10-5). -/
inductive SpanCheck where
  | span (x : BitVec 2)
  | reference
  deriving DecidableEq, Repr

/-- How a microword meets the store and its target's element: the code of its fetch, and whether its post is granted at once. -/
structure Run where
  ecc : Ecc := .clean
  grant : Grant := .granted
  deriving DecidableEq, Repr

/-- What a page comes back from (R483): a queue's spill, or a capture ring of a stall. -/
inductive PageFrom where
  | queue (q : QueueId)
  | ring (n : StallId)
  deriving DecidableEq, Repr

/-- A gate that runs empty (R76): a DAC gate of a slice or the fast flux gate of a group. -/
inductive Gate where
  | dac (slice : SliceId)
  | flux (group : GroupId)
  deriving DecidableEq, Repr

/-- A place of a fabric fault or scrub: a stall's node or a hub plane. -/
inductive FabricPlace where
  | node (stall : StallId)
  | plane (b : Bool)
  deriving DecidableEq, Repr

/-- A comparator: W0 to W9 of a stall, or SW0 to SW15. -/
inductive CmpId where
  | stall (n : StallId) (w : Fin 10)
  | spine (s : Fin 16)
  deriving DecidableEq, Repr

/-- What a command brings of the signal at an XA port: ADC codes from a sample of the epoch on (R252).  A code that it does not bring is a free value. -/
structure Signal where
  codesFrom : Nat := 0
  codes : List Int := []
  deriving DecidableEq, Repr

/-- The voice fields that VOICE_TUNING_WRITE covers. -/
inductive TuneReg where
  | ctl
  | phase
  | frame
  | scale
  deriving DecidableEq, Repr

/-- Which port of a voice has finished loading (R215). -/
inductive PortSide where
  | primary
  | alternate
  | branch
  deriving DecidableEq, Repr

/-- The staged registers of a channel (R271). -/
inductive StagedReg where
  | int_
  | demod
  | disc
  | ab (p : Fin 3)
  | c (p : Fin 3)
  | qk (p : Fin 3)
  deriving DecidableEq, Repr

/-- The generator registers of a line (R435). -/
inductive GenReg where
  | lo
  | hi
  | cfg
  deriving DecidableEq, Repr

/-- A work or time register of a rider as the host writes it (R414). -/
inductive RiderReg where
  | l (k : Fin 16)
  | tLo (n : Fin 4)
  | tHi (n : Fin 4)
  deriving DecidableEq, Repr

/-- The comparator registers of R599. -/
inductive WatchReg where
  | ctl
  | ref
  | blank
  | blankTime
  | latch
  deriving DecidableEq, Repr

/-- What phase 4 needs of an image beside its bytes: what its sections say, whose encodings are not given (R123). -/
structure ImageChecks where
  body : ImageBody
  deriving DecidableEq, Repr

/-- How phases 5 and 6 end (R147, R152): every write read back, a write failed, or for a hub update the first plane failed. -/
inductive CommitResult where
  | good
  | bad
  deriving DecidableEq, Repr

/-- HBM errors that a pass finds (R485): single-bit errors, and the address of a double-bit error with the queue whose spill page it
lies in, if it lies in one. -/
structure HbmErrors where
  singles : Nat := 0
  double : Option (BitVec 36 × Option QueueId) := none
  deriving DecidableEq, Repr

/-- What phase 2 of a calibration observed (R501 to R507): for PLANES the clusters, each with its count, centroid and
standard deviations; for the other kinds the residual or spur figure in Q8.8 and the trims fitted, by lane or sub-converter. -/
inductive Observation where
  | planes (clusters : List Nat)
  | trims (figure : BitVec 16) (inRange : Bool) (vals : Tab (BitVec 32))
  deriving DecidableEq, Repr

/-- What a training phase found (Table 13-4): the references' difference, the eye width at each peaking from 0 dB on, and the partner. -/
structure PhaseFound where
  ppm : Nat := 0
  eyes : Tab (BitVec 8) := []
  partnerId : BitVec 16 := 0
  partnerLane : BitVec 4 := 0
  deriving DecidableEq, Repr

/-- A time mark as it arrives (R547), so many fine steps into the beat in progress: a request, or a reply with the partner's stamps in 1/16 ns. -/
inductive TimeMark where
  | request (at_ : Fin 256)
  | reply (t2 t3 : Int) (at_ : Fin 256)
  deriving DecidableEq, Repr

/-- A packet as it arrives (R536): queue words or credit returns of a queue. -/
structure PacketIn where
  seq : Nat
  queue : QueueId
  words : List (Word × Bool) := []
  credits : Nat := 0
  deriving DecidableEq, Repr

/-- An acknowledge for a packet (R536), named by its queue, kind and number, or one for events with the count of intact events modulo 256
(R533) and how many of the unacknowledged events, oldest first, it answers. -/
inductive AckIn where
  | events (count : BitVec 8) (answers : Nat)
  | packet (queue : QueueId) (credits : Bool) (seq : Nat)
  deriving DecidableEq, Repr

/-- A PTP message by its kind (R567, R573): an Announce with its logAnnounceInterval; a message that completes a sample of a sender (offset and path in
1/16 ns, before the corrections of R569 and R570) with its logSyncInterval; a Pdelay_Req with the stamps of its arrival and of the answer's departure; or one that
is ignored. -/
inductive PtpMsg where
  | announce (data : AnnounceData) (interval : Int)
  | sample (sender : BitVec 64) (offset : Int) (path : Int) (interval : Int)
  | pdelayReq (rx tx : Int)
  | ignored
  deriving DecidableEq, Repr

/-- A PTP message as a port receives it (R567, R572): its domain number, its transport in the coding of PT_CTL, whether it was sent to a multicast address, and
its kind. -/
structure PtpFrame where
  number : BitVec 8
  transport : BitVec 2 := 0
  multicast : Bool := true
  msg : PtpMsg
  deriving DecidableEq, Repr

/-- A frame that is not PTP (R568). -/
inductive FrameIn where
  | arp (addr : BitVec 32)
  | echo (addr : BitVec 32)
  | other
  deriving DecidableEq, Repr

/-- A feed transmitter: a stall's, the spine's, or a supply's metering front end (R648). -/
inductive FeedId where
  | stall (n : StallId)
  | spine
  | inlet (two : Bool)
  deriving DecidableEq, Repr

/-- A feed message as it reaches the Tally: whether its CRC-32 holds, and for an inlet the supply's serial number and energy register in mWh. -/
structure FeedIn where
  from_ : FeedId
  intact : Bool := true
  serial : Nat := 0
  energy : Nat := 0
  deriving DecidableEq, Repr

/-- A PCI Express configuration request (R687, R688, R624). -/
inductive ConfigReq where
  | enableVfs (count : Fin 15)
  | power (func : Func) (d3hot : Bool)
  | msix (func : Func) (enable : Bool) (mask : Bool)
  | bars (func : Func) (bar0 bar2 : Word64)
  | memory (func : Func) (enable : Bool)
  | other
  deriving DecidableEq, Repr

/-- What a module reset finds outside the module: switch bank S1 (R628), the slot address (R725), whether the backup domain held its charge (R627). -/
structure ResetWorld where
  straps : BitVec 8 := 0
  ga : BitVec 5 := 0
  backupValid : Bool := true
  deriving DecidableEq, Repr

/-- What boot steps 1 and 2 find (R630, R639): the checks of the firmware banks and of the two copies of the key store, and the lines of whose flux
values copy A, or copy B, no longer passes its check; `doubles` of the copies that fail hold a double-bit error, and `corrected` single-bit errors were
corrected (R637). -/
structure BootFound where
  bank0 : Bool := true
  bank1 : Bool := true
  keyA : Bool := true
  keyB : Bool := true
  fluxA : List LineId := []
  fluxB : List LineId := []
  corrected : Nat := 0
  doubles : Nat := 0
  deriving DecidableEq, Repr

/-- What a POWER_UP finds (R604, R639, R637): the comparators and spares whose checks fail, the copies of the stud book that pass, the single-bit errors
corrected in them, and how many of the copies that fail hold a double-bit error. -/
structure PowerUpFound where
  comparators : BitVec 10 := 0
  spareDrive : Bool := false
  spareProbe : Bool := false
  spareAcq : Bool := false
  studA : Bool := true
  studB : Bool := true
  corrected : Nat := 0
  doubles : Nat := 0
  deriving DecidableEq, Repr

/-- The persisted registers outside the flux lines (R638). -/
inductive RwpReg where
  | timeCtl
  | timeServo
  | timeDetect
  | ptCtl (port : Fin 2)
  | ptTxLat (port : Fin 2)
  | ptRxLat (port : Fin 2)
  | ptAsym (port : Fin 2)
  | ptIpv4 (port : Fin 2)
  | pwrCfg
  deriving DecidableEq, Repr

/-- A spine or stall pace monitor group (R106, R115). -/
inductive PacePlace where
  | stall (n : StallId)
  | spine
  deriving DecidableEq, Repr

/-- A capture unit U0 to U3 of a stall. -/
structure UnitId where
  stall : StallId
  num : Fin 4
  deriving DecidableEq, Repr

/-- A BAR0 access's size in bytes (R690). -/
inductive AccessSize where
  | b1
  | b2
  | b4
  | b8
  deriving DecidableEq, Repr

/-- What a host write brings from outside the model besides its value, for the registers that start something: what a self-test or a
module reset finds, the verdicts of a firmware check, the level at a comparator, the outcome at a mutual-exclusion element, and whether the converter or
reference of a flux group still reports a fault (R450). -/
structure WriteEnv where
  found : PowerUpFound := {}
  world : ResetWorld := {}
  sigOk : Bool := true
  version : Word := 0
  level : BitVec 10 := 0
  grant : Grant := .granted
  reports : Bool := false
  bring : Tab PowerUpFound := []
  deriving DecidableEq, Repr

end Sys2Proof
end

