-- ==== Sys2Proof/Syntax.lean ====
section
/-!
DEFINITION. The commands of the block: one constructor per row of the opcode table, in the table's order.
Operand names: `f` is the function whose host access gives a command (R688), `n` a stall, `val` the value written, `bring` what the self-tests
of the stalls find that a bring-up powers up next (R632, R633).
What a command brings from outside the model (samples, stamps, verdicts, the outcome of a mutual-exclusion element) is an operand.
-/

namespace Sys2Proof

/-- A command of the module: a host command, a microword of a rider, an event of a unit, or an event from outside. -/
inductive Instr where
  -- chapter 1: life of a stall, spares
  | powerUp (f : Func) (n : StallId) (found : PowerUpFound)
  | frameAlignmentDone (n : StallId) (bring : Tab PowerUpFound)
  | alignmentTimeout (n : StallId) (bring : Tab PowerUpFound)
  | start (f : Func) (n : StallId)
  | drain (f : Func) (n : StallId)
  | unload (f : Func) (n : StallId)
  | powerDown (f : Func) (n : StallId)
  | halt (f : Func) (n : StallId)
  | stallFatalFault (n : StallId) (code : Code) (object : Word)
  | ridersAllStopped (n : StallId)
  | drainTimeout (n : StallId)
  | stallPowerLoss (n : StallId) (domain : BitVec 8) (bring : Tab PowerUpFound)
  | spareTakeover (f : Func) (n : StallId) (kind : SliceKind) (target : BitVec 4)
  | spareRelease (f : Func) (n : StallId) (kind : SliceKind)
  | spareSwitch (n : StallId) (kind : SliceKind)
  | spareSilenceTimeout (n : StallId) (kind : SliceKind)
  | sliceConverterFault (slice : SliceId)
  | forcedTakeoverComplete (n : StallId) (kind : SliceKind)
  -- chapter 2: gates, gaits, pace
  | dacGateUnderrun (gate : Gate) (beats : Nat)
  | adcGateFull (n : StallId) (slice : Fin 5) (frame : Nat)
  | trotLatchPoint (v : VoiceId)
  | trotRelease (v : VoiceId)
  | paceMeasurement (place : PacePlace) (monitor : Fin 4) (margin : Int)
  | trotDeadlineWrite (f : Func) (n : StallId) (k : Fin 8) (val : Word)
  | paceWarnClear (f : Func) (place : PacePlace)
  -- chapter 3: images
  | loadStall (f : Func) (n : StallId) (slot : SlotId)
  | loadHerd (f : Func) (slot : SlotId)
  | loadHub (f : Func) (slot : SlotId)
  | check (f : Func) (n : StallId) (slot : SlotId)
  | abort (f : Func) (bring : Tab PowerUpFound)
  | tackChecksEnd (checks : ImageChecks) (bring : Tab PowerUpFound)
  | loadEnd (result : CommitResult) (bring : Tab PowerUpFound)
  | stagingSlotWrite (f : Func) (addr : BitVec 36) (bytes : List Byte)
  -- chapter 4: voices and slices
  | ftwLoWrite (f : Func) (v : VoiceId) (val : Word)
  | ftwHiWrite (f : Func) (v : VoiceId) (val : Word) (grant : Grant)
  | voiceTuningWrite (f : Func) (v : VoiceId) (reg : TuneReg) (val : Word) (grant : Grant)
  | delayWrite (f : Func) (v : VoiceId) (val : Word) (grant : Grant)
  | delayTakesEffect (v : VoiceId)
  | sumGuardClip (slice : SliceId) (sample : Fin 16)
  | guardHitClear (f : Func) (slice : SliceId)
  | slCtlWrite (f : Func) (slice : SliceId) (val : Word)
  | attenTakesEffect (slice : SliceId)
  | portOpenTimer (slice : SliceId)
  | switchReadbackMismatch (slice : SliceId)
  -- chapter 5: sequencers
  | voiceStart (f : Func) (v : VoiceId) (desc : Word) (grant : Grant)
  | loadAlt (f : Func) (v : VoiceId) (desc : Word) (grant : Grant)
  | selectAlt (f : Func) (v : VoiceId) (grant : Grant)
  | branch (f : Func) (v : VoiceId) (desc : Word) (grant : Grant)
  | break_ (f : Func) (v : VoiceId) (grant : Grant)
  | stop (f : Func) (v : VoiceId) (grant : Grant)
  | playStart (v : VoiceId)
  | descriptorLoadDone (v : VoiceId) (side : PortSide)
  | commitPoint (v : VoiceId)
  | repetitionBoundary (v : VoiceId)
  | segmentBoundary (v : VoiceId)
  | streamUnderrun (v : VoiceId)
  | streamResume (v : VoiceId)
  | envelopeWindowWrite (f : Func) (n : StallId) (w : Fin 2097152) (val : Word)
  -- chapter 6: readout
  | asCtlWrite (f : Func) (n : StallId) (k : Fin 5) (val : Word)
  | rangeTakesEffect (n : StallId) (k : Fin 5)
  | adcFullScaleCode (n : StallId) (k : Fin 5) (sample : Nat)
  | chCtlWrite (f : Func) (c : ChanId) (val : Word)
  | filterTakesEffect (c : ChanId)
  | stagedSetWrite (f : Func) (c : ChanId) (reg : StagedReg) (val : Word)
  | chCommit (f : Func) (c : ChanId)
  | kernelWindowWrite (f : Func) (n : StallId) (t : Fin 4096) (val : Word)
  | windowStart (c : ChanId)
  | windowDecision (c : ChanId) (sig : Signal)
  -- chapter 7: capture units
  | arm (f : Func) (u : UnitId)
  | disarm (f : Func) (u : UnitId)
  | force (f : Func) (u : UnitId)
  | release (f : Func) (u : UnitId)
  | levelCrossing (u : UnitId) (sample : Nat) (sig : Signal)
  | scheduleTimeTrigger (u : UnitId)
  | hobbleEnd (u : UnitId)
  | recordEnd (u : UnitId) (sig : Signal)
  | storageBehind (u : UnitId)
  | tuRdWrite (f : Func) (u : UnitId) (val : Word)
  -- chapter 8: rein fabric
  | markerEdge (v : VoiceId) (bit : Fin 4) (level : Bool)
  | hubEntry (copy nodeWaits hubWaits : Nat)
  | compareUnitCopy (copy : Nat) (planeB : Bool) (waits : Nat)
  | missingCopyTimeout (copy : Nat)
  | consumerDelivery (copy waits : Nat)
  | cellEvaluation (cell : CellId)
  | joinWindowExpiry (cell : CellId)
  | filterWidthExpiry (cell : CellId)
  | fabricFault (place : FabricPlace) (cause : BitVec 4) (chan : Option ReinChan) (cell : Option (Fin 1024))
  | scrubPass (place : FabricPlace) (singles : Nat) (double : Option (Fin 1024))
  | setFlipFlop (f : Func) (n : StallId) (cell : Fin 256) (value : BitVec 2) (inv : Bool)
  | clearFlipFlops (f : Func) (n : StallId)
  | bkFilterWrite (f : Func) (cell : CellId) (val : Word)
  | reinInject (f : Func) (chan : ReinChan) (value : BitVec 2) (inv : Bool) (grant : Grant)
  | takeOut (f : Func) (planeB : Bool)
  | return_ (f : Func) (planeB : Bool)
  | rejoinReadbackDone (good : Bool)
  | hubSettlePoint
  | reinAuditCmd (f : Func) (chan : ReinChan)
  | channelAuditSettlePoint
  -- chapter 9: microwords, and what a rider meets
  | nop (r : RiderId) (u : Run)
  | alu (r : RiderId) (u : Run)
  | time (r : RiderId) (u : Run)
  | take (r : RiderId) (u : Run)
  | push (r : RiderId) (u : Run)
  | pop (r : RiderId) (u : Run)
  | irq (r : RiderId) (u : Run)
  | shotBegin (r : RiderId) (u : Run)
  | shotEnd (r : RiderId) (u : Run)
  | vstart (r : RiderId) (u : Run)
  | vloadalt (r : RiderId) (u : Run)
  | vselalt (r : RiderId) (u : Run)
  | vbranch (r : RiderId) (u : Run)
  | vbreak (r : RiderId) (u : Run)
  | vstop (r : RiderId) (u : Run)
  | fork (r : RiderId) (u : Run)
  | vtune (r : RiderId) (u : Run)
  | fluxDcGoal (r : RiderId) (u : Run)
  | fluxFastCode (r : RiderId) (u : Run)
  | fluxDcCode (r : RiderId) (u : Run)
  | open_ (r : RiderId) (u : Run)
  | emit (r : RiderId) (u : Run)
  | emitRelay (r : RiderId) (u : Run)
  | ffSet (r : RiderId) (u : Run)
  | ffClear (r : RiderId) (u : Run)
  | ctrig (r : RiderId) (u : Run)
  | waitConditionTrue (r : RiderId) (u : Run)
  | waitDeadline (r : RiderId)
  | postGranted (r : RiderId)
  | riderRelease (r : RiderId)
  | riderStart (f : Func) (r : RiderId)
  | riderStop (f : Func) (r : RiderId)
  | spur (f : Func) (r : RiderId)
  | controlStoreWrite (f : Func) (n : StallId) (w : Fin 524288) (val : Word)
  | riderRegisterWrite (f : Func) (r : RiderId) (reg : RiderReg) (val : Word)
  | rhHandlerWrite (f : Func) (r : RiderId) (val : Word)
  -- chapter 10: flux
  | flDcWrite (f : Func) (l : LineId) (val : Word) (grant : Grant)
  | dcTick
  | spanSwitchEnd (l : LineId)
  | spanReadbackCheck (l : LineId) (found : SpanCheck)
  | flCurbWrite (f : Func) (l : LineId) (val : Word)
  | flSafeWrite (f : Func) (l : LineId) (val : Word)
  | flCtlWrite (f : Func) (l : LineId) (val : Word)
  | generatorConfigWrite (f : Func) (l : LineId) (reg : GenReg) (val : Word)
  | flFastSet (f : Func) (l : LineId) (val : Word) (grant : Grant)
  | fastLevelChange (l : LineId)
  | edgeTableWrite (f : Func) (l : LineId) (t : Fin 32) (val : Word)
  | fastDacFault (g : GroupId)
  | clear (f : Func) (g : GroupId) (reports : Bool)
  -- chapter 11: queues and memory
  | queueWordGrant (q : QueueId) (port : Nat)
  | creditReturnArrives (q : QueueId) (port : Nat)
  | qPush (f : Func) (q : QueueId) (val : Word)
  | qPushEnd (f : Func) (q : QueueId) (val : Word)
  | qPop (f : Func) (q : QueueId) (words : Fin 16)
  | flush (f : Func) (q : QueueId)
  | auditQueue (f : Func) (q : QueueId)
  | auditPages (f : Func)
  | scrub (f : Func)
  | bookAuditSettlePoint
  | pageReleaseDone (from_ : PageFrom)
  | pointerCheckPass (q : QueueId) (differs : Bool)
  | backgroundScrub (err : HbmErrors)
  -- chapter 12: Farrier
  | farrierStart (f : Func) (n : StallId) (kind : CalKind) (target : BitVec 8)
  | farrierAbort (f : Func) (n : StallId)
  | restore (f : Func) (n : StallId) (target : BitVec 8)
  | automaticCalibrationStart (n : StallId) (kind : CalKind) (target : BitVec 8)
  | observationComplete (n : StallId) (obs : Observation)
  | observationTimeout (n : StallId)
  | quietBoundary (n : StallId) (badCopy : Option Bool)
  | activationTimeout (n : StallId)
  -- chapter 13: tether
  | retrain (f : Func) (lane : LaneId)
  | inject (f : Func) (lane : LaneId)
  | tlCtlWrite (f : Func) (lane : LaneId) (val : Word)
  | trainingPatternReceived (lane : LaneId)
  | trainingPhaseEnd (lane : LaneId) (found : PhaseFound)
  | trainingTimeout (lane : LaneId)
  | backoffWaitEnd (lane : LaneId)
  | lossOfSignal (lane : LaneId)
  | errorRateLimit (lane : LaneId)
  | eventReceived (lane : LaneId) (tok : Token) (intact : Bool)
  | eventAcknowledge (lane : LaneId) (ack : AckIn)
  | packetReceived (lane : LaneId) (pkt : PacketIn) (intact : Bool)
  | packetRetransmission (lane : LaneId) (queue : QueueId) (credits : Bool) (seq : Nat)
  | timeMarkReceived (lane : LaneId) (mark : TimeMark)
  | timeMarkTimer (lane : LaneId)
  | tlPrbsWrite (f : Func) (lane : LaneId) (val : Word)
  -- chapter 14: time
  | align (f : Func)
  | alignStep (tai : Tai) (error : Int)
  | alignComplete (error : Int)
  | alignTimeout
  | switch (f : Func) (d : Fin 2)
  | accept (f : Func) (d : Fin 2)
  | epochTaiWrite (f : Func) (word : Fin 3) (val : Word)
  | timeNowRead (f : Func)
  | ptpMessageReceived (port : Fin 2) (msg : PtpFrame)
  | nonPtpFrame (port : Fin 2) (frame : FrameIn)
  | announceTimeout (d : Fin 2)
  | dmCtlWrite (f : Func) (d : Fin 2) (val : Word)
  | slewSaturation
  | tpArm (f : Func) (k : Fin 8)
  | tpDisarm (f : Func) (k : Fin 8)
  | timePulseEdge (k : Fin 8) (rising : Bool)
  -- chapter 15: watch and housekeeping
  | comparatorTrip (cmp : CmpId) (level : BitVec 10) (which : BitVec 8)
  | latchClear (f : Func) (cmp : CmpId) (level : BitVec 10)
  | periodClear (cmp : CmpId) (level : BitVec 10)
  | checkSwap (f : Func) (cmp : CmpId)
  | checkLevels (f : Func) (cmp : CmpId)
  | selfCheckEnd (cmp : CmpId) (pass : Bool)
  | comparatorConfigWrite (f : Func) (cmp : CmpId) (reg : WatchReg) (val : Word)
  | hkStart (f : Func) (k : Fin 8)
  | hkStop (f : Func) (k : Fin 8)
  | conversionDone (k : Fin 8) (code : BitVec 12)
  | hkDataRead (f : Func) (k : Fin 8)
  | hkCtlWrite (f : Func) (val : Word)
  | referenceReady
  | scanEntryWrite (f : Func) (k : Fin 8) (entry : Fin 16) (val : Word)
  | backgroundCalibrationTurn
  | backgroundCalibrationTurnEnd (offsetErr gainErr : Int)
  -- chapter 16: power, reset, boot
  | supplyFailure (second : Bool) (removed : Bool)
  | supplyInService (second : Bool)
  | supplyAcFailure
  | busBelow10V2
  | powerOnReset (world : ResetWorld)
  | brownOutReset (world : ResetWorld)
  | perst (width : Fine) (world : ResetWorld)
  | hotReset
  | linkTrained (width speed : BitVec 4)
  | watchdog (world : ResetWorld)
  | bootStart (found : BootFound)
  | referenceLocked (src : BitVec 2) (bring : Tab PowerUpFound)
  | referenceLockTimeout
  | powerDomainFault (domain : BitVec 8) (bring : Tab PowerUpFound)
  | moduleReset (f : Func) (key : BitVec 16) (world : ResetWorld)
  | acceptFactory (f : Func) (key : BitVec 16) (n : StallId)
  | fwWrite (f : Func) (key : BitVec 16) (slot : SlotId) (sigOk : Bool) (version : Word)
  | fwSwitch (f : Func) (key : BitVec 16)
  | spineSettlePoint
  | rwpWrite (f : Func) (reg : RwpReg) (val : Word)
  | rtcHiWrite (f : Func) (val : Word)
  -- chapter 17: Tally
  | feedSend (id : FeedId)
  | feedMessage (msg : FeedIn)
  | feedTimeout (id : FeedId)
  | sealOpened
  | sealClosed
  | sealPortConfiguration (item : SealItem)
  | tallyPowerOn (carrier : Nat) (check : BitVec 32) (memoryOk : Bool)
  | firmwareCheck (check : BitVec 32)
  | mirrorRefresh
  | mirrorStale
  | tallyMirrorWrite (f : Func) (w : Fin 17408)
  -- chapter 18: audits and service
  | shotAuditCmd (f : Func) (n : StallId) (val : Word)
  | shotAuditSettlePoint (n : StallId)
  | fanTrayRemoved
  | fanTrayFitted
  -- chapter 19: host interface
  | msixCapRelease (source : Nat)
  | msixTableWrite (f : Func) (entry : Fin 2048) (word : Fin 4) (val : Word)
  | hostRegisterWrite (f : Func) (size : AccessSize) (addr : BitVec 28) (val : Word64) (env : WriteEnv)
  -- rows that close the table
  | farrierSpareSwitch (n : StallId)
  | tuningTakesEffect (v : VoiceId)
  | storageRecovered (u : UnitId)
  | checkerLocked (lane : LaneId)
  | checkerLockLost (lane : LaneId)
  | fwWriteDone (good : Bool)
  | hbmScrubDone (err : HbmErrors)
  | configurationRequest (req : ConfigReq)
  | hbmHostWrite (f : Func) (addr : BitVec 36) (bytes : List Byte)
  | delayReqSend (p : Fin 2) (stamp : Int)
  | ptLinkChange (p : Fin 2) (up : Bool)
  deriving DecidableEq, Repr

end Sys2Proof
end

