-- ==== Sys2Proof/Decode.lean ====
section
/-!
DEFINITION. The opcode table gives no row of this block any bits: its commands are register writes, microwords and events, not words of an
instruction stream.  So no word spells a command.
-/

namespace Sys2Proof

/-- The command that a word spells by the table's bits: none, for the table gives none. -/
def decodeTableWord (_nbits _w : Nat) : Option Instr := none

end Sys2Proof
end

