-- ==== Sys2Proof/Config.lean ====
section
/-!
DEFINITION. What an implementation fixes and the free values: constants without a body, so that no proof can see what they are.
-/

namespace Sys2Proof.Config

open Sys2Proof

/-- Whole beats that the synthesis of a Gallop successor takes in one shot (R84), ahead of the fixed 8 ns of DAC and output: at most 39, the 26 ns
worst of R89.  It varies from shot to shot, so it is a free value of the counter of free values. -/
opaque synthesisBeats : Nat → Fin 40

/-- Draw number k of the noise generator of a seed and a line (R434): the generator's polynomial and seeding are not given. -/
opaque noise : BitVec 16 → Nat → Nat → Nat

/-- The ADC code of a sample of a stall's acquisition slice: the signal at the XA port, which the block does not make.  A command that ends a window or a
record may bring codes of its own. -/
opaque adcCode : Nat → Nat → Int → Int

/-- Tap i of the channel filter of a mode from the second on, in units of 2^-32, and the mode's gain at the carrier, which R254 holds within 2 %: Table
06-1 gives a filter's behaviour, not its taps. -/
opaque filterTap : BitVec 2 → Nat → Int
opaque filterGain : BitVec 2 → Fin 2748779069

/-- Tap k of the interpolating bank at a phase of 256, from the second on, in units of 2^-16, and the bank's gain for a steady envelope, which R181 holds
within 0.05 dB: the manual gives the bank's behaviour, not its taps. -/
opaque interpTap : Nat → Nat → Int
opaque interpGain : Nat → Fin 755

/-- Whether a component of yr (R252, R254), or a sample of a fast path's change (R437), that is no whole number is rounded up: its rounding is not given. -/
opaque roundsUp : Int → Bool

/-- A value of a fitted plane set that the statistics do not determine (R502 to R504): a coefficient of 32,768, which its field cannot
hold, or one of clusters without distance or without spread. -/
opaque planeFree : Nat → Nat → Int

/-- The running quality figure of a calibration (R512): the manual gives its refresh, not its computation. -/
opaque runningQuality : Nat → BitVec 16

/-- The code with which a FW_WRITE fails whose write or read-back fails (R642): the manual names none. -/
opaque writeFailCode : Nat → BitVec 16

/-- The configuration item in a log entry of kind 0x03 (Table 17-4): its coding is not given. -/
opaque sealItem : Nat → BitVec 32

/-- Word w of a record in the persistent window whose layout is not given (Table 16-6: key store, RWP backing, flux values, calibration entries). -/
opaque persistWord : Nat → Nat → BitVec 32

/-- Thousandths by which a long operation gets on in one beat (R145, R512, Tables 13-4 and 16-4), and the cells that a plane's write gets on in one
(R368): the manual gives no rate. -/
opaque loadPace : Nat → Nat

/-- The beats that a refresh of the Tally's mirror takes, where those are at most 50 µs (R664). -/
opaque refreshPace : Nat → Nat

/-- The time that a power domain's switch-on takes, in fine steps, where that is at most 200 µs (R620). -/
opaque switchPace : Nat → Nat

/-- Whether the reset-pulse filter accepts an assertion of PERST# between 5 µs and 20 µs (R623): it resolves it once, either way. -/
opaque perstAccepts : Nat → Bool

/-- The module's input power in W, as supply telemetry shows it, and the warning of a supply (Table 16-8): no command brings them. -/
opaque inputPower : Nat → BitVec 12
opaque supplyWarn : Nat → Bool → Bool

/-- Errors that a lane's checker finds in the bits of one beat (R551): what the partner's line brings. -/
opaque lineErrors : Nat → Fin 10

/-- What the manual gives a lane's units without its coding (Table 13-1, R536, R547): the octets of a training pattern behind its K28.0, the octet of a packet's
acknowledge, the octets of a packet ahead of its words, the word of a returned credit, and the CRC-16 of a time mark. -/
opaque trainOctet : Nat → BitVec 8
opaque packetAck : Nat → BitVec 8
opaque packetHead : Nat → Nat → List Bool → List (BitVec 8)
opaque creditWord : Nat → BitVec 32
opaque markCrc : List (BitVec 8) → BitVec 16

/-- The state in which a pattern generator starts (R550): the manual gives none. -/
opaque prbsSeed : Nat → BitVec 31

/-- Pages that the SCRUB in progress reads in one beat (R485): the manual gives no rate. -/
opaque scrubPace : Nat → Nat

end Sys2Proof.Config
end

