-- ==== Sys2Proof/Machine/Trig.lean ====
section
/-!
DEFINITION. Cosine and sine of a carrier phase (R159), in fixed point: a phase is a fraction of a turn in units of 2^-49, a value is an integer in
units of 2^-96.  Quarter turns are exact; every other value is within some units of the last place (log entry 154).
-/

namespace Sys2Proof.Machine

open Sys2Proof

/-- One, in units of 2^-96. -/
def trigOne : Int := 2 ^ 96

/-- A whole turn, 2 pi, in units of 2^-96. -/
def trigTurn : Int := 497805226624462170461043889244

/-- The sum of a power series whose next term is the last one, times minus x squared, over (n + 1)(n + 2). -/
def trigSeries (sq : Int) : Nat → Int → Int → Int
  | 0, _, _ => 0
  | k + 1, n, term => term + trigSeries sq k (n + 2) (-(term * sq / trigOne) / ((n + 1) * (n + 2)))

/-- Cosine and sine of an eighth of a turn or less. -/
def cosSinEighth (r : Nat) : Int × Int :=
  let x := r * trigTurn / 2 ^ 49
  let sq := x * x / trigOne
  (trigSeries sq 14 0 trigOne, trigSeries sq 14 1 x)

/-- Cosine and sine of a quarter of a turn or less: past the eighth they are the sine and cosine of the rest. -/
def cosSinQuarter (r : Nat) : Int × Int := if r ≤ 2 ^ 46 then cosSinEighth r else (cosSinEighth (2 ^ 47 - r)).swap

/-- Cosine and sine of a phase. -/
def cosSin (theta : BitVec 49) : Int × Int :=
  let r := cosSinQuarter (theta.toNat % 2 ^ 47)
  match theta.toNat / 2 ^ 47 with
  | 0 => r
  | 1 => (-r.2, r.1)
  | 2 => (-r.1, -r.2)
  | _ => (r.2, -r.1)

end Sys2Proof.Machine
end

