-- ==== Sys2Proof/Parts/Regs.lean ====
section
/-!
DEFINITION. The registers of BAR0 by name: one enumeration for each block's map table, and `Reg`, the sum of them all.
-/

namespace Sys2Proof

/-- HOST block (Table 19-3). -/
inductive HostReg where
  | moduleId | link | func | slot | errStatus | errLo | errHi | logLast | irqStatus
  deriving DecidableEq, Repr

/-- POWER block (Table 16-7). -/
inductive PowerReg where
  | supply | cmd | opStatus | result | cause | count | straps | cfg | rtcLo | rtcHi | persistStatus
  | domOn (i : Fin 8) | domFault (i : Fin 8)
  deriving DecidableEq, Repr

/-- TACK block (Table 03-8). -/
inductive TackReg where
  | cmd | opStatus | result | faultObj | faultAux | slotLen (k : Fin 2) | herdTag | keyStatus | floors | digest (i : Fin 12)
  deriving DecidableEq, Repr

/-- TIME block (Table 14-4, R115). -/
inductive TimeReg where
  | ctl | status | cmd | opStatus | result | servo | detect | tai (i : Fin 3) | now (i : Fin 5) | paceStatus | paceThresh
  deriving DecidableEq, Repr

/-- Registers of an XE port. -/
inductive PtReg where
  | ctl | status | txLat | rxLat | asym | ipv4 | macLo | macHi | count
  deriving DecidableEq, Repr

/-- Registers of a 1588 domain. -/
inductive DmReg where
  | ctl | status | offset | path | inter | gmLo | gmHi | count
  deriving DecidableEq, Repr

/-- Registers of a time-pulse output. -/
inductive TpReg where
  | ctl | status | startLo | startHi | periodLo | periodHi | width
  deriving DecidableEq, Repr

/-- TETHER block (Table 13-6). -/
inductive TetherReg where
  | module | cmd | opStatus | result | drop
  deriving DecidableEq, Repr

/-- Registers of a lane. -/
inductive TlReg where
  | ctl | status | partner | lat | latNow | offset | err | count | prbs | prbsErr | prbsBits
  deriving DecidableEq, Repr

/-- HUBA and HUBB (Table 08-10): the registers that stand in HUBA only. -/
inductive HubReg where
  | cmd | opStatus | result | mode | drop | loop | inject | auditCmd | auditOp
  | issued (hi : Bool) | consumed (hi : Bool) | overrun (hi : Bool) | auditLoop (hi : Bool) | inFlight
  deriving DecidableEq, Repr

/-- Registers of a buckle cell. -/
inductive BkReg where
  | cfg | filter | state | count
  deriving DecidableEq, Repr

/-- Registers of a comparator (Table 15-4). -/
inductive WcReg where
  | ctl | ref | blank | blankTime | latch | status | cmd | capLo | capHi | count
  deriving DecidableEq, Repr

/-- Registers of a housekeeping converter. -/
inductive HkReg where
  | cfg | data | cmd | count
  deriving DecidableEq, Repr

/-- QDIR (Table 11-4). -/
inductive QdirReg where
  | cmd | opStatus | result | audit (i : Fin 4) | pageTotal | pageFree | quota (n : StallId) | used (n : StallId) | drop | ecc
  deriving DecidableEq, Repr

/-- CTL block of a stall (Tables 01-4, 02-7, 18-4, STn_ENV_PAGE). -/
inductive CtlReg where
  | state | cmd | drainCfg | opStatus | drainResult | sparePolicy | spareCmd | spareStatus | spareOp
  | trot (k : Fin 8) | paceStatus | paceThresh | lateCount | gateUnderrun | envPage
  | shotCmd | shotOp | shotStarted | shotCompleted | shotAborted | shotProgress
  deriving DecidableEq, Repr

/-- Registers of a drive or probe slice (Table 04-5). -/
inductive SlReg where
  | ctl | status | guardCfg | guardCount | guardLo | guardHi | lanes (i : Fin 4)
  deriving DecidableEq, Repr

/-- Registers of a voice (Table 04-6). -/
inductive VcReg where
  | ctl | status | ftwLo | ftwHi | phase | frame | scale | delay
  deriving DecidableEq, Repr

/-- Sequencer registers of a voice (Table 05-5). -/
inductive VsReg where
  | post | status | ports | pos | late | underrun | discard | startLo | startHi | segLo | segHi
  deriving DecidableEq, Repr

/-- Registers of an acquisition slice (Table 06-6). -/
inductive AsReg where
  | ctl | status | ovrCount | lanes (i : Fin 4)
  deriving DecidableEq, Repr

/-- Registers of a readout channel (Table 06-7). -/
inductive ChReg where
  | ctl | status | int_ | demod | disc | ab (p : Fin 3) | c (p : Fin 3) | qk (p : Fin 3) | commit | token | resultQ | last
  | windows | invalid | drop
  deriving DecidableEq, Repr

/-- Registers of a capture unit (Table 07-5). -/
inductive TuReg where
  | src | trig | hobble | pre | post | mode | measOff | measLen | ring | timeLo | timeHi | cmd | opStatus | result
  | baseLo | baseHi | wr | rd | countA | countB
  deriving DecidableEq, Repr

/-- Registers of a flux line (Table 10-7). -/
inductive FlReg where
  | ctl | dc | curb | safe | status | genLo | genHi | genCfg | fast | fastSet | count
  deriving DecidableEq, Repr

/-- REIN block of a stall (Table 08-9). -/
inductive NodeReg where
  | status | fault | dropA | dropB | misc | scrub | ffCmd
  deriving DecidableEq, Repr

/-- Registers of a rider (Table 09-12). -/
inductive RhReg where
  | cfg | cmd | status | fault | faultEn | handler | tiStatus | shotQ | shot | started | completed | aborted | count | drop
  | l (k : Fin 16) | tLo (n : Fin 4) | tHi (n : Fin 4)
  deriving DecidableEq, Repr

/-- Registers of a queue (Table 11-2). -/
inductive QReg where
  | cfg | count | status | hostCredit | push | pushEnd | pop | popStatus | data (k : Fin 8)
  deriving DecidableEq, Repr

/-- FARRIER block of a stall (Table 12-6). -/
inductive FaReg where
  | cmd | opStatus | result | quality | status | count | policy | limitsR | limitsD | windows | timeouts
  | period (k : Fin 6) | chan (c : Fin 64)
  deriving DecidableEq, Repr

/-- A register of BAR0 (Tables 19-1 and 19-2). -/
inductive Reg where
  | host (r : HostReg)
  | log (slot : Fin 512) (w : Fin 8)
  | pba (w : Fin 64)
  | msix (e : Fin 2048) (w : Fin 4)
  | power (r : PowerReg)
  | tack (r : TackReg)
  | time (r : TimeReg)
  | pt (p : Fin 2) (r : PtReg)
  | dm (d : Fin 2) (r : DmReg)
  | tp (k : Fin 8) (r : TpReg)
  | tether (r : TetherReg)
  | tl (k : LaneId) (r : TlReg)
  | hub (r : HubReg)
  | plane (planeB : Bool) (err : Bool)
  | hubCell (planeB : Bool) (b : Fin 1024) (r : BkReg)
  | reinChan (e : Fin 4096)
  | hkCtl (status : Bool)
  | spineCmp (s : Fin 16) (r : WcReg)
  | hk (k : Fin 8) (r : HkReg)
  | scan (k : Fin 8) (i : Fin 16)
  | sfStud
  | qdir (r : QdirReg)
  | persist (w : Fin 1048576)
  | ctl (n : StallId) (r : CtlReg)
  | cmp (n : StallId) (w : Fin 10) (r : WcReg)
  | drive (n : StallId) (k : Fin 9) (r : SlReg)
  | probe (n : StallId) (k : Fin 5) (r : SlReg)
  | voice (v : VoiceId) (r : VcReg)
  | seq (v : VoiceId) (r : VsReg)
  | markerRoute (n : StallId) (probeBlock : Bool) (k : Fin 4)
  | acq (n : StallId) (k : Fin 5) (r : AsReg)
  | chan (c : ChanId) (r : ChReg)
  | unit (n : StallId) (u : Fin 4) (r : TuReg)
  | traceAllow (n : StallId)
  | kernelPage (n : StallId)
  | kernelTap (n : StallId) (t : Fin 4096)
  | group (g : GroupId) (cmd : Bool)
  | line (l : LineId) (r : FlReg)
  | edge (l : LineId) (t : Fin 32)
  | node (n : StallId) (r : NodeReg)
  | cell (n : StallId) (b : Fin 256) (r : BkReg)
  | rider (h : RiderId) (r : RhReg)
  | riderSummary (n : StallId)
  | queue (n : StallId) (i : Fin 2048) (r : QReg)
  | farrier (n : StallId) (r : FaReg)
  | store (n : StallId) (w : Fin 524288)
  | env (n : StallId) (w : Fin 2097152)
  | tally (w : Fin 17408)
  deriving DecidableEq, Repr

end Sys2Proof
end

