-- ==== Sys2Proof/Machine/Map.lean ====
section
/-!
DEFINITION. The address map of BAR0 (Tables 19-1, 19-2 and the map table of each block): where each register lies, and which
register an offset names.
-/

namespace Sys2Proof.Machine

open Sys2Proof

/-- The entry of a block's map that lies at an offset. -/
def regAt {ρ : Type} (off : ρ → Nat) (all : List ρ) (o : Nat) : Option ρ := all.find? fun r => off r == o

/-- Offsets in HOST (Table 19-3). -/
def hostOff : HostReg → Nat
  | .moduleId => 0x00 | .link => 0x04 | .func => 0x08 | .slot => 0x0C | .errStatus => 0x10 | .errLo => 0x14 | .errHi => 0x18
  | .logLast => 0x20 | .irqStatus => 0x24

/-- The registers of HOST. -/
def hostAll : List HostReg := [.moduleId, .link, .func, .slot, .errStatus, .errLo, .errHi, .logLast, .irqStatus]

/-- Offsets in POWER (Table 16-7). -/
def powerOff : PowerReg → Nat
  | .supply => 0x00 | .cmd => 0x04 | .opStatus => 0x08 | .result => 0x0C | .cause => 0x10 | .count => 0x14 | .straps => 0x18
  | .cfg => 0x1C | .rtcLo => 0x20 | .rtcHi => 0x24 | .persistStatus => 0x28
  | .domOn i => 0x40 + i.val * 4 | .domFault i => 0x60 + i.val * 4

/-- The registers of POWER. -/
def powerAll : List PowerReg :=
  [.supply, .cmd, .opStatus, .result, .cause, .count, .straps, .cfg, .rtcLo, .rtcHi, .persistStatus] ++
    (List.finRange 8).map .domOn ++ (List.finRange 8).map .domFault

/-- Offsets in TACK (Table 03-8). -/
def tackOff : TackReg → Nat
  | .cmd => 0x00 | .opStatus => 0x04 | .result => 0x08 | .faultObj => 0x0C | .faultAux => 0x10 | .slotLen k => 0x14 + k.val * 4
  | .herdTag => 0x20 | .keyStatus => 0x24 | .floors => 0x28 | .digest i => 0x40 + i.val * 4

/-- The registers of TACK. -/
def tackAll : List TackReg :=
  [.cmd, .opStatus, .result, .faultObj, .faultAux, .slotLen 0, .slotLen 1, .herdTag, .keyStatus, .floors] ++
    (List.finRange 12).map .digest

/-- Offsets in TIME (Table 14-4, R115). -/
def timeOff : TimeReg → Nat
  | .ctl => 0x00 | .status => 0x04 | .cmd => 0x08 | .opStatus => 0x0C | .result => 0x10 | .servo => 0x14 | .detect => 0x18
  | .tai i => 0x20 + i.val * 4 | .now i => 0x30 + i.val * 4 | .paceStatus => 0xF00 | .paceThresh => 0xF04

/-- The registers of TIME that stand once. -/
def timeAll : List TimeReg :=
  [.ctl, .status, .cmd, .opStatus, .result, .servo, .detect, .paceStatus, .paceThresh] ++ (List.finRange 3).map .tai ++
    (List.finRange 5).map .now

/-- Offsets in an XE port. -/
def ptOff : PtReg → Nat
  | .ctl => 0x00 | .status => 0x04 | .txLat => 0x08 | .rxLat => 0x0C | .asym => 0x10 | .ipv4 => 0x14 | .macLo => 0x18
  | .macHi => 0x1C | .count => 0x20

/-- The registers of an XE port. -/
def ptAll : List PtReg := [.ctl, .status, .txLat, .rxLat, .asym, .ipv4, .macLo, .macHi, .count]

/-- Offsets in a 1588 domain. -/
def dmOff : DmReg → Nat
  | .ctl => 0x00 | .status => 0x04 | .offset => 0x08 | .path => 0x0C | .inter => 0x10 | .gmLo => 0x14 | .gmHi => 0x18 | .count => 0x1C

/-- The registers of a 1588 domain. -/
def dmAll : List DmReg := [.ctl, .status, .offset, .path, .inter, .gmLo, .gmHi, .count]

/-- Offsets in a time-pulse output. -/
def tpOff : TpReg → Nat
  | .ctl => 0x00 | .status => 0x04 | .startLo => 0x08 | .startHi => 0x0C | .periodLo => 0x10 | .periodHi => 0x14 | .width => 0x18

/-- The registers of a time-pulse output. -/
def tpAll : List TpReg := [.ctl, .status, .startLo, .startHi, .periodLo, .periodHi, .width]

/-- Offsets in TETHER (Table 13-6). -/
def tetherOff : TetherReg → Nat
  | .module => 0x00 | .cmd => 0x04 | .opStatus => 0x08 | .result => 0x0C | .drop => 0x10

/-- The registers of TETHER that stand once. -/
def tetherAll : List TetherReg := [.module, .cmd, .opStatus, .result, .drop]

/-- Offsets in a lane. -/
def tlOff : TlReg → Nat
  | .ctl => 0x00 | .status => 0x04 | .partner => 0x08 | .lat => 0x0C | .latNow => 0x10 | .offset => 0x14 | .err => 0x18
  | .count => 0x1C | .prbs => 0x20 | .prbsErr => 0x24 | .prbsBits => 0x28

/-- The registers of a lane. -/
def tlAll : List TlReg := [.ctl, .status, .partner, .lat, .latNow, .offset, .err, .count, .prbs, .prbsErr, .prbsBits]

/-- The offset of a low word, or of its high word 4 above. -/
def loHi (o : Nat) (hi : Bool) : Nat := if hi then o + 4 else o

/-- Offsets in HUBA (Table 08-10). -/
def hubOff : HubReg → Nat
  | .cmd => 0x00 | .opStatus => 0x04 | .result => 0x08 | .mode => 0x0C | .drop => 0x10 | .loop => 0x14 | .inject => 0x40
  | .auditCmd => 0x80 | .auditOp => 0x84 | .issued h => loHi 0x88 h | .consumed h => loHi 0x90 h | .overrun h => loHi 0x98 h
  | .auditLoop h => loHi 0xA0 h | .inFlight => 0xA8

/-- The registers that stand in HUBA only. -/
def hubAll : List HubReg :=
  [.cmd, .opStatus, .result, .mode, .drop, .loop, .inject, .auditCmd, .auditOp, .issued false, .issued true, .consumed false,
    .consumed true, .overrun false, .overrun true, .auditLoop false, .auditLoop true, .inFlight]

/-- Offsets in a buckle cell. -/
def bkOff : BkReg → Nat
  | .cfg => 0x0 | .filter => 0x4 | .state => 0x8 | .count => 0xC

/-- The registers of a buckle cell. -/
def bkAll : List BkReg := [.cfg, .filter, .state, .count]

/-- Offsets in a comparator (Table 15-4). -/
def wcOff : WcReg → Nat
  | .ctl => 0x00 | .ref => 0x04 | .blank => 0x08 | .blankTime => 0x0C | .latch => 0x10 | .status => 0x14 | .cmd => 0x18
  | .capLo => 0x1C | .capHi => 0x20 | .count => 0x24

/-- The registers of a comparator. -/
def wcAll : List WcReg := [.ctl, .ref, .blank, .blankTime, .latch, .status, .cmd, .capLo, .capHi, .count]

/-- Offsets in a housekeeping converter. -/
def hkOff : HkReg → Nat
  | .cfg => 0x0 | .data => 0x4 | .cmd => 0x8 | .count => 0xC

/-- The registers of a housekeeping converter. -/
def hkAll : List HkReg := [.cfg, .data, .cmd, .count]

/-- Offsets in QDIR (Table 11-4). -/
def qdirOff : QdirReg → Nat
  | .cmd => 0x00 | .opStatus => 0x04 | .result => 0x08 | .audit i => 0x10 + i.val * 4 | .pageTotal => 0x20 | .pageFree => 0x24
  | .quota n => 0x40 + n.val * 8 | .used n => 0x44 + n.val * 8 | .drop => 0x80 | .ecc => 0x84

/-- The registers of QDIR. -/
def qdirAll : List QdirReg :=
  [.cmd, .opStatus, .result, .pageTotal, .pageFree, .drop, .ecc] ++ (List.finRange 4).map .audit ++
    (List.finRange 8).map .quota ++ (List.finRange 8).map .used

/-- Offsets in CTL (Tables 01-4, 02-7, 18-4; STn_ENV_PAGE at 0x0080). -/
def ctlOff : CtlReg → Nat
  | .state => 0x00 | .cmd => 0x04 | .drainCfg => 0x08 | .opStatus => 0x0C | .drainResult => 0x10 | .sparePolicy => 0x20
  | .spareCmd => 0x24 | .spareStatus => 0x28 | .spareOp => 0x2C | .trot k => 0x40 + k.val * 4 | .paceStatus => 0x60
  | .paceThresh => 0x64 | .lateCount => 0x68 | .gateUnderrun => 0x6C | .envPage => 0x80 | .shotCmd => 0xA0 | .shotOp => 0xA4
  | .shotStarted => 0xA8 | .shotCompleted => 0xAC | .shotAborted => 0xB0 | .shotProgress => 0xB4

/-- The registers of CTL. -/
def ctlAll : List CtlReg :=
  [.state, .cmd, .drainCfg, .opStatus, .drainResult, .sparePolicy, .spareCmd, .spareStatus, .spareOp, .paceStatus, .paceThresh,
    .lateCount, .gateUnderrun, .envPage, .shotCmd, .shotOp, .shotStarted, .shotCompleted, .shotAborted, .shotProgress] ++
    (List.finRange 8).map .trot

/-- Offsets in a drive or probe slice (Table 04-5). -/
def slOff : SlReg → Nat
  | .ctl => 0x00 | .status => 0x04 | .guardCfg => 0x0C | .guardCount => 0x10 | .guardLo => 0x18 | .guardHi => 0x1C
  | .lanes i => 0x20 + i.val * 4

/-- The registers of a drive or probe slice. -/
def slAll : List SlReg := [.ctl, .status, .guardCfg, .guardCount, .guardLo, .guardHi, .lanes 0, .lanes 1, .lanes 2, .lanes 3]

/-- Offsets in a voice (Table 04-6). -/
def vcOff : VcReg → Nat
  | .ctl => 0x00 | .status => 0x04 | .ftwLo => 0x08 | .ftwHi => 0x0C | .phase => 0x10 | .frame => 0x14 | .scale => 0x18 | .delay => 0x1C

/-- The registers of a voice. -/
def vcAll : List VcReg := [.ctl, .status, .ftwLo, .ftwHi, .phase, .frame, .scale, .delay]

/-- Offsets in a voice's sequencer (Table 05-5). -/
def vsOff : VsReg → Nat
  | .post => 0x00 | .status => 0x04 | .ports => 0x08 | .pos => 0x0C | .late => 0x10 | .underrun => 0x14 | .discard => 0x18
  | .startLo => 0x20 | .startHi => 0x24 | .segLo => 0x28 | .segHi => 0x2C

/-- The registers of a sequencer. -/
def vsAll : List VsReg := [.post, .status, .ports, .pos, .late, .underrun, .discard, .startLo, .startHi, .segLo, .segHi]

/-- Offsets in an acquisition slice (Table 06-6). -/
def asOff : AsReg → Nat
  | .ctl => 0x00 | .status => 0x04 | .ovrCount => 0x08 | .lanes i => 0x20 + i.val * 4

/-- The registers of an acquisition slice. -/
def asAll : List AsReg := [.ctl, .status, .ovrCount, .lanes 0, .lanes 1, .lanes 2, .lanes 3]

/-- Offsets in a readout channel (Table 06-7). -/
def chOff : ChReg → Nat
  | .ctl => 0x00 | .status => 0x04 | .int_ => 0x08 | .demod => 0x0C | .disc => 0x10 | .ab p => 0x14 + p.val * 0xC
  | .c p => 0x18 + p.val * 0xC | .qk p => 0x1C + p.val * 0xC | .commit => 0x38 | .token => 0x40 | .resultQ => 0x44 | .last => 0x48
  | .windows => 0x4C | .invalid => 0x50 | .drop => 0x54

/-- The registers of a readout channel. -/
def chAll : List ChReg :=
  [.ctl, .status, .int_, .demod, .disc, .ab 0, .c 0, .qk 0, .ab 1, .c 1, .qk 1, .ab 2, .c 2, .qk 2, .commit, .token, .resultQ,
    .last, .windows, .invalid, .drop]

/-- Offsets in a capture unit (Table 07-5). -/
def tuOff : TuReg → Nat
  | .src => 0x00 | .trig => 0x04 | .hobble => 0x08 | .pre => 0x0C | .post => 0x10 | .mode => 0x14 | .measOff => 0x18
  | .measLen => 0x1C | .ring => 0x20 | .timeLo => 0x24 | .timeHi => 0x28 | .cmd => 0x30 | .opStatus => 0x34 | .result => 0x38
  | .baseLo => 0x40 | .baseHi => 0x44 | .wr => 0x48 | .rd => 0x4C | .countA => 0x50 | .countB => 0x54

/-- The registers of a capture unit. -/
def tuAll : List TuReg :=
  [.src, .trig, .hobble, .pre, .post, .mode, .measOff, .measLen, .ring, .timeLo, .timeHi, .cmd, .opStatus, .result, .baseLo,
    .baseHi, .wr, .rd, .countA, .countB]

/-- Offsets in a flux line (Table 10-7). -/
def flOff : FlReg → Nat
  | .ctl => 0x00 | .dc => 0x04 | .curb => 0x08 | .safe => 0x0C | .status => 0x10 | .genLo => 0x14 | .genHi => 0x18
  | .genCfg => 0x1C | .fast => 0x20 | .fastSet => 0x24 | .count => 0x28

/-- The registers of a flux line. -/
def flAll : List FlReg := [.ctl, .dc, .curb, .safe, .status, .genLo, .genHi, .genCfg, .fast, .fastSet, .count]

/-- Offsets in REIN (Table 08-9). -/
def nodeOff : NodeReg → Nat
  | .status => 0x00 | .fault => 0x04 | .dropA => 0x08 | .dropB => 0x0C | .misc => 0x10 | .scrub => 0x14 | .ffCmd => 0x20

/-- The registers of REIN that stand once. -/
def nodeAll : List NodeReg := [.status, .fault, .dropA, .dropB, .misc, .scrub, .ffCmd]

/-- Offsets in a rider (Table 09-12). -/
def rhOff : RhReg → Nat
  | .cfg => 0x00 | .cmd => 0x04 | .status => 0x08 | .fault => 0x0C | .faultEn => 0x10 | .handler => 0x14 | .tiStatus => 0x18
  | .shotQ => 0x1C | .shot => 0x20 | .started => 0x24 | .completed => 0x28 | .aborted => 0x2C | .count => 0x30 | .drop => 0x34
  | .l k => 0x40 + k.val * 4 | .tLo n => 0x80 + n.val * 8 | .tHi n => 0x84 + n.val * 8

/-- The registers of a rider. -/
def rhAll : List RhReg :=
  [.cfg, .cmd, .status, .fault, .faultEn, .handler, .tiStatus, .shotQ, .shot, .started, .completed, .aborted, .count, .drop] ++
    (List.finRange 16).map .l ++ (List.finRange 4).map .tLo ++ (List.finRange 4).map .tHi

/-- Offsets in a queue (Table 11-2). -/
def qOff : QReg → Nat
  | .cfg => 0x00 | .count => 0x04 | .status => 0x08 | .hostCredit => 0x0C | .push => 0x10 | .pushEnd => 0x14 | .pop => 0x18
  | .popStatus => 0x1C | .data k => 0x20 + k.val * 4

/-- The registers of a queue. -/
def qAll : List QReg :=
  [.cfg, .count, .status, .hostCredit, .push, .pushEnd, .pop, .popStatus] ++ (List.finRange 8).map .data

/-- Offsets in FARRIER of a stall (Table 12-6, R522). -/
def faOff : FaReg → Nat
  | .cmd => 0x00 | .opStatus => 0x04 | .result => 0x08 | .quality => 0x0C | .status => 0x10 | .count => 0x14 | .policy => 0x18
  | .limitsR => 0x1C | .limitsD => 0x20 | .windows => 0x24 | .timeouts => 0x28 | .period k => 0x30 + k.val * 4
  | .chan c => 0x100 + c.val * 4

/-- The registers of FARRIER of a stall. -/
def faAll : List FaReg :=
  [.cmd, .opStatus, .result, .quality, .status, .count, .policy, .limitsR, .limitsD, .windows, .timeouts] ++
    (List.finRange 6).map .period ++ (List.finRange 64).map .chan

/-- Number `i` as an index below `n`, if it is one. -/
def fin? (n i : Nat) : Option (Fin n) := if h : i < n then some ⟨i, h⟩ else none

/-- The base of stall n's window (Table 19-1). -/
def stallBase (n : StallId) : Nat := 0x1000000 + n.val * 0x1000000

/-- The offset of DRIVE (false) or PROBE (true) in a stall window. -/
def voiceBlock (probe : Bool) : Nat := if probe then 0x20000 else 0x10000

/-- The BAR0 offset of a register. -/
def regAddr : Reg → Nat
  | .host r => hostOff r
  | .log k w => 0x2000 + k.val * 0x20 + w.val * 4
  | .pba w => 0x7000 + w.val * 4
  | .msix e w => 0x8000 + e.val * 16 + w.val * 4
  | .power r => 0x10000 + powerOff r
  | .tack r => 0x20000 + tackOff r
  | .time r => 0x30000 + timeOff r
  | .pt p r => 0x30100 + p.val * 0x40 + ptOff r
  | .dm d r => 0x30200 + d.val * 0x40 + dmOff r
  | .tp k r => 0x30400 + k.val * 0x20 + tpOff r
  | .tether r => 0x40000 + tetherOff r
  | .tl k r => 0x40100 + k.val * 0x40 + tlOff r
  | .hub r => 0x50000 + hubOff r
  | .plane b err => (if b then 0x60000 else 0x50000) + 0x100 + (if err then 4 else 0)
  | .hubCell b c r => (if b then 0x60000 else 0x50000) + 0x2000 + c.val * 16 + bkOff r
  | .reinChan e => 0x58000 + e.val * 4
  | .hkCtl st => 0x70000 + (if st then 4 else 0)
  | .spineCmp k r => 0x70400 + k.val * 0x40 + wcOff r
  | .hk k r => 0x70100 + k.val * 16 + hkOff r
  | .scan k i => 0x70200 + k.val * 0x40 + i.val * 4
  | .sfStud => 0x80000
  | .qdir r => 0x90000 + qdirOff r
  | .persist w => 0x100000 + w.val * 4
  | .ctl n r => stallBase n + ctlOff r
  | .cmp n w r => stallBase n + 0x400 + w.val * 0x40 + wcOff r
  | .drive n k r => stallBase n + 0x10000 + k.val * 0x1000 + slOff r
  | .probe n k r => stallBase n + 0x20000 + k.val * 0x1000 + slOff r
  | .voice v r => stallBase v.stall + voiceBlock v.probe + 0x9000 + v.num.val * 0x40 + vcOff r
  | .seq v r => stallBase v.stall + voiceBlock v.probe + 0xB000 + v.num.val * 0x40 + vsOff r
  | .markerRoute n b k => stallBase n + voiceBlock b + 0xA000 + k.val * 4
  | .acq n k r => stallBase n + 0x30000 + k.val * 0x1000 + asOff r
  | .unit n u r => stallBase n + 0x35000 + u.val * 0x100 + tuOff r
  | .traceAllow n => stallBase n + 0x35400
  | .chan c r => stallBase c.stall + 0x38000 + c.num.val * 0x80 + chOff r
  | .kernelPage n => stallBase n + 0x3A000
  | .kernelTap n t => stallBase n + 0x3C000 + t.val * 4
  | .group g c => stallBase g.stall + 0x40000 + g.num.val * 16 + (if c then 4 else 0)
  | .line l r => stallBase l.stall + 0x41000 + l.num.val * 0x40 + flOff r
  | .edge l t => stallBase l.stall + 0x44000 + l.num.val * 0x80 + t.val * 4
  | .node n r => stallBase n + 0x50000 + nodeOff r
  | .cell n b r => stallBase n + 0x51000 + b.val * 16 + bkOff r
  | .rider h r => stallBase h.stall + 0x60000 + h.num.val * 0x100 + rhOff r
  | .riderSummary n => stallBase n + 0x61000
  | .queue n i r => stallBase n + 0x80000 + i.val * 0x40 + qOff r
  | .farrier n r => stallBase n + 0xA0000 + faOff r
  | .store n w => stallBase n + 0x400000 + w.val * 4
  | .env n w => stallBase n + 0x800000 + w.val * 4
  | .tally w => 0xF000000 + w.val * 4

/-- Split an offset into an index and the offset inside its stride. -/
def indexed {ρ : Type} (n stride o : Nat) (rest : Fin n → Nat → Option ρ) : Option ρ :=
  match fin? n (o / stride) with
  | some i => rest i (o % stride)
  | none => none

/-- An index of words: the offset must be a multiple of 4. -/
def wordAt {ρ : Type} (n o : Nat) (mk : Fin n → ρ) : Option ρ := if o % 4 = 0 then (fin? n (o / 4)).map mk else none

/-- HUBA (false) or HUBB (true) at offset `o` in the block (Table 08-10). -/
def decodeHub (b : Bool) (o : Nat) : Option Reg :=
  if o < 0x100 then (if b then none else (regAt hubOff hubAll o).map .hub)
  else if o = 0x100 then some (.plane b false)
  else if o = 0x104 then some (.plane b true)
  else if o < 0x2000 then none
  else if o < 0x6000 then indexed 1024 16 (o - 0x2000) fun c i => (regAt bkOff bkAll i).map (.hubCell b c)
  else if o < 0x8000 then none
  else if b then none else wordAt 4096 (o - 0x8000) .reinChan

/-- WATCH at offset `o` (Table 15-4). -/
def decodeWatch (o : Nat) : Option Reg :=
  if o = 0 then some (.hkCtl false)
  else if o = 4 then some (.hkCtl true)
  else if o < 0x100 then none
  else if o < 0x180 then indexed 8 16 (o - 0x100) fun k i => (regAt hkOff hkAll i).map (.hk k)
  else if o < 0x200 then none
  else if o < 0x400 then indexed 8 0x40 (o - 0x200) fun k i => wordAt 16 i (.scan k)
  else indexed 16 0x40 (o - 0x400) fun k i => (regAt wcOff wcAll i).map (.spineCmp k)

/-- TIME at offset `o` (Table 14-4). -/
def decodeTime (o : Nat) : Option Reg :=
  if o < 0x100 then (regAt timeOff timeAll o).map .time
  else if o < 0x180 then indexed 2 0x40 (o - 0x100) fun p i => (regAt ptOff ptAll i).map (.pt p)
  else if o < 0x200 then none
  else if o < 0x280 then indexed 2 0x40 (o - 0x200) fun d i => (regAt dmOff dmAll i).map (.dm d)
  else if o < 0x400 then none
  else if o < 0x500 then indexed 8 0x20 (o - 0x400) fun k i => (regAt tpOff tpAll i).map (.tp k)
  else (regAt timeOff timeAll o).map .time

/-- DRIVE or PROBE at offset `o` (Table 04-4). -/
def decodeVoices (n : StallId) (b : Bool) (o : Nat) : Option Reg :=
  if o < 0x9000 then
    (if b then indexed 5 0x1000 o fun k i => (regAt slOff slAll i).map (.probe n k)
     else indexed 9 0x1000 o fun k i => (regAt slOff slAll i).map (.drive n k))
  else if o < 0xA000 then indexed 64 0x40 (o - 0x9000) fun v i => (regAt vcOff vcAll i).map (.voice ⟨n, b, v⟩)
  else if o < 0xB000 then wordAt 4 (o - 0xA000) (.markerRoute n b)
  else indexed 64 0x40 (o - 0xB000) fun v i => (regAt vsOff vsAll i).map (.seq ⟨n, b, v⟩)

/-- ACQ at offset `o` (Table 06-5, R324). -/
def decodeAcq (n : StallId) (o : Nat) : Option Reg :=
  if o < 0x5000 then indexed 5 0x1000 o fun k i => (regAt asOff asAll i).map (.acq n k)
  else if o < 0x5400 then indexed 4 0x100 (o - 0x5000) fun u i => (regAt tuOff tuAll i).map (.unit n u)
  else if o = 0x5400 then some (.traceAllow n)
  else if o < 0x8000 then none
  else if o < 0xA000 then indexed 64 0x80 (o - 0x8000) fun c i => (regAt chOff chAll i).map (.chan ⟨n, c⟩)
  else if o = 0xA000 then some (.kernelPage n)
  else if o < 0xC000 then none
  else wordAt 4096 (o - 0xC000) (.kernelTap n)

/-- FLUX at offset `o` (Table 10-6). -/
def decodeFlux (n : StallId) (o : Nat) : Option Reg :=
  if o < 0x80 then
    indexed 8 16 o fun g i => if i = 0 then some (.group ⟨n, g⟩ false) else if i = 4 then some (.group ⟨n, g⟩ true) else none
  else if o < 0x1000 then none
  else if o < 0x2000 then indexed 64 0x40 (o - 0x1000) fun l i => (regAt flOff flAll i).map (.line ⟨n, l⟩)
  else if o < 0x4000 then none
  else indexed 64 0x80 (o - 0x4000) fun l i => wordAt 32 i (.edge ⟨n, l⟩)

/-- A stall window at offset `o` (Table 19-2). -/
def decodeStall (n : StallId) (o : Nat) : Option Reg :=
  if o < 0x10000 then
    (if o < 0x400 then (regAt ctlOff ctlAll o).map (.ctl n)
     else indexed 10 0x40 (o - 0x400) fun w i => (regAt wcOff wcAll i).map (.cmp n w))
  else if o < 0x20000 then decodeVoices n false (o - 0x10000)
  else if o < 0x30000 then decodeVoices n true (o - 0x20000)
  else if o < 0x40000 then decodeAcq n (o - 0x30000)
  else if o < 0x50000 then decodeFlux n (o - 0x40000)
  else if o < 0x60000 then
    (if o < 0x51000 then (regAt nodeOff nodeAll (o - 0x50000)).map (.node n)
     else indexed 256 16 (o - 0x51000) fun b i => (regAt bkOff bkAll i).map (.cell n b))
  else if o < 0x61000 then indexed 16 0x100 (o - 0x60000) fun h i => (regAt rhOff rhAll i).map (.rider ⟨n, h⟩)
  else if o = 0x61000 then some (.riderSummary n)
  else if o < 0x80000 then none
  else if o < 0xA0000 then indexed 2048 0x40 (o - 0x80000) fun q i => (regAt qOff qAll i).map (.queue n q)
  else if o < 0x400000 then (regAt faOff faAll (o - 0xA0000)).map (.farrier n)
  else if o < 0x800000 then wordAt 524288 (o - 0x400000) (.store n)
  else wordAt 2097152 (o - 0x800000) (.env n)

/-- The spine blocks below PERSIST at offset `o` (Table 19-1). -/
def decodeSpine (o : Nat) : Option Reg :=
  if o < 0x2000 then (regAt hostOff hostAll o).map .host
  else if o < 0x6000 then indexed 512 0x20 (o - 0x2000) fun k i => wordAt 8 i (.log k)
  else if o < 0x7000 then none
  else if o < 0x8000 then wordAt 64 (o - 0x7000) .pba
  else if o < 0x10000 then indexed 2048 16 (o - 0x8000) fun e i => wordAt 4 i (.msix e)
  else if o < 0x20000 then (regAt powerOff powerAll (o - 0x10000)).map .power
  else if o < 0x30000 then (regAt tackOff tackAll (o - 0x20000)).map .tack
  else if o < 0x40000 then decodeTime (o - 0x30000)
  else if o < 0x50000 then
    (if o < 0x40100 then (regAt tetherOff tetherAll (o - 0x40000)).map .tether
     else indexed 16 0x40 (o - 0x40100) fun k i => (regAt tlOff tlAll i).map (.tl k))
  else if o < 0x60000 then decodeHub false (o - 0x50000)
  else if o < 0x70000 then decodeHub true (o - 0x60000)
  else if o < 0x80000 then decodeWatch (o - 0x70000)
  else if o < 0x90000 then (if o = 0x80000 then some .sfStud else none)
  else (regAt qdirOff qdirAll (o - 0x90000)).map .qdir

/-- The register that a BAR0 offset names; none where Table 19-1 or the chapter of the block leaves it unassigned (R692). -/
def decodeReg (a : Nat) : Option Reg :=
  if a < 0x100000 then decodeSpine a
  else if a < 0x500000 then wordAt 1048576 (a - 0x100000) .persist
  else if a < 0x1000000 then none
  else if a < 0x9000000 then indexed 8 0x1000000 (a - 0x1000000) decodeStall
  else if a < 0xF000000 then none
  else wordAt 17408 (a - 0xF000000) .tally

/-- The stall whose window holds a register, and whether the register lies in its CTL block (R693). -/
def regStall : Reg → Option (StallId × Bool)
  | .ctl n _ => some (n, true)
  | .cmp n _ _ => some (n, true)
  | .drive n _ _ => some (n, false)
  | .probe n _ _ => some (n, false)
  | .voice v _ => some (v.stall, false)
  | .seq v _ => some (v.stall, false)
  | .markerRoute n _ _ => some (n, false)
  | .acq n _ _ => some (n, false)
  | .unit n _ _ => some (n, false)
  | .traceAllow n => some (n, false)
  | .chan c _ => some (c.stall, false)
  | .kernelPage n => some (n, false)
  | .kernelTap n _ => some (n, false)
  | .group g _ => some (g.stall, false)
  | .line l _ => some (l.stall, false)
  | .edge l _ => some (l.stall, false)
  | .node n _ => some (n, false)
  | .cell n _ _ => some (n, false)
  | .rider h _ => some (h.stall, false)
  | .riderSummary n => some (n, false)
  | .queue n _ _ => some (n, false)
  | .farrier n _ => some (n, false)
  | .store n _ => some (n, false)
  | .env n _ => some (n, false)
  | _ => none

end Sys2Proof.Machine
end

