-- ==== Sys2Proof/Machine/State.lean ====
section
/-!
DEFINITION. The state of the module: every register, counter, queue, buffer, mode and pin of the spec, as plain data; and its
value at reset. Repeated objects stand in sparse tables: an unlisted key holds the table's reset record.
-/

namespace Sys2Proof.Machine

open Sys2Proof

/-- Why the block stops.  It never does: the spec gives every command an effect, and a command whose operands name nothing changes nothing. -/
inductive Fault where
  /-- Raised by no command of this model.  Safe. -/
  | noSuchObject
  deriving DecidableEq, Repr

/-- Why the block gives a command no meaning. -/
inductive Refusal where
  /-- Raised by no command of this model: it is for an arm of exec whose meaning is not written.  Safe. -/
  | notModelled (mnemonic : String)
  deriving DecidableEq, Repr

/-- The module's time (R63, R64): `now` counts fine steps since the last module reset; `sched` is the schedule time, which runs from
the epoch; `running` says that an epoch runs. -/
structure Clock where
  now : Fine := 0
  sched : Fine := 0
  running : Bool := false
  deriving DecidableEq, Repr

/-- Spine registers that no other block holds: the spine pace monitors (R115). -/
structure Spine where
  pace : Pace := {}
  deriving DecidableEq, Repr

/-- The state of the block. -/
structure State where
  pending : List Instr := []
  clock : Clock := {}
  host : HostCommon := {}
  funcs : Tab HostFunc := []
  irqs : Tab IrqSource := []
  power : Power := {}
  backup : Backup := {}
  persist : Persist := {}
  tack : Tack := {}
  spine : Spine := {}
  herdImage : Option HerdImage := none
  hubImage : Option HubImage := none
  stallImages : Tab StallImage := []
  stalls : Tab StallCtl := []
  gaits : Tab Gait := []
  slices : Tab Slice := []
  acqs : Tab AcqSlice := []
  voices : Tab Voice := []
  seqs : Tab Seq := []
  chans : Tab Channel := []
  units : Tab CapUnit := []
  nodes : Tab Node := []
  cells : Tab Cell := []
  books : Tab Book := []
  flights : Tab Flight := []
  nextFlight : Nat := 0
  hub : Hub := {}
  riders : Tab Rider := []
  lines : Tab Line := []
  fasts : Tab Fast := []
  groups : Tab Group := []
  queues : Tab Queue := []
  qdir : Qdir := {}
  farriers : Tab Farrier := []
  trims : Tab Trims := []
  shotAudits : Tab ShotAudit := []
  lanes : Tab Lane := []
  tether : TetherCtl := {}
  tc : TimeCtl := {}
  ethPorts : Tab EthPort := []
  domains : Tab Domain := []
  pulses : Tab TimePulse := []
  watches : Tab Watch := []
  hks : Tab HkConv := []
  hkCtl : HkCtl := {}
  feeds : Tab Feed := []
  tally : Tally := {}
  hbm : Tab Byte := []
  library : Tab Word := []
  descs : Tab Word := []
  kernels : Tab Word := []
  store : Tab (BitVec 256) := []
  held : Tab Word := []
  latched : Tab Word := []
  freeCtr : Nat := 0
  deriving DecidableEq, Repr

/-- The module right after reset: every register at the value of its table's Reset column, no image in force, every stall off, no
link trained, the queue of commands empty.  A value that the spec does not give stands in the assumption log. -/
def State.reset : State := {}

end Sys2Proof.Machine
end

