-- ==== Sys2Proof/Machine/Tab.lean ====
section
/-!
DEFINITION. Reading and writing the sparse tables of the state.
-/

namespace Sys2Proof.Machine

open Sys2Proof

/-- The entry of key `k`, if the table lists it. -/
def tabFind {α : Type} (k : Nat) : Tab α → Option α
  | [] => none
  | (i, a) :: rest => if i = k then some a else tabFind k rest

/-- The value at key `k`: the listed one, or the default `d`. -/
def tabGet {α : Type} (d : α) (t : Tab α) (k : Nat) : α := (tabFind k t).getD d

/-- The table with `a` at key `k`; keys stay strictly rising. -/
def tabSet {α : Type} (t : Tab α) (k : Nat) (a : α) : Tab α :=
  match t with
  | [] => [(k, a)]
  | (i, b) :: rest =>
    if k < i then (k, a) :: (i, b) :: rest
    else if k = i then (k, a) :: rest
    else (i, b) :: tabSet rest k a

/-- The table without key `k`. -/
def tabDel {α : Type} (t : Tab α) (k : Nat) : Tab α := t.filter fun p => p.1 ≠ k

/-- Apply `f` to the value at key `k`. -/
def tabMod {α : Type} (d : α) (t : Tab α) (k : Nat) (f : α → α) : Tab α := tabSet t k (f (tabGet d t k))

/-- Keys strictly rising. -/
def tabSorted {α : Type} : Tab α → Bool
  | [] => true
  | [_] => true
  | (i, _) :: (j, b) :: rest => decide (i < j) && tabSorted ((j, b) :: rest)

/-- Memory in canonical form: an entry equal to the unlisted value `d` is not listed. -/
def memSet {α : Type} [DecidableEq α] (d : α) (t : Tab α) (k : Nat) (a : α) : Tab α :=
  if a = d then tabDel t k else tabSet t k a

/-- The canonical form of a memory: keys strictly rising, no entry equal to the unlisted value. -/
def memWf {α : Type} [DecidableEq α] (d : α) (t : Tab α) : Bool := tabSorted t && t.all fun p => decide (p.2 ≠ d)

/-- Write consecutive cells from key `k` on. -/
def memWrite {α : Type} [DecidableEq α] (d : α) (t : Tab α) (k : Nat) : List α → Tab α
  | [] => t
  | a :: rest => memWrite d (memSet d t k a) (k + 1) rest

/-- A run of `n` cells from key `k` on. -/
def memRead {α : Type} (d : α) (t : Tab α) (k : Nat) : Nat → List α
  | 0 => []
  | n + 1 => tabGet d t k :: memRead d t (k + 1) n

end Sys2Proof.Machine
end

