-- ==== Sys2Proof/Machine/Ops.lean ====
section
/-!
DEFINITION. The named operations that all commands share: keys and accessors of the state's tables, schedule times, code logs and the
host interface error status, interrupts under the rate cap, long operations.
-/

namespace Sys2Proof.Machine

open Sys2Proof

/-- What a meaning answers. -/
abbrev Res := Host.Outcome State Fault Refusal

/-! ## Numbers -/

/-- A counter that saturates (R94, R695). -/
def satAdd {w : Nat} (x : BitVec w) (n : Nat) : BitVec w := BitVec.ofNat w (min (x.toNat + n) (2 ^ w - 1))

/-- Add 1 to a saturating counter. -/
def satInc {w : Nat} (x : BitVec w) : BitVec w := satAdd x 1

/-- Bits [lo + w - 1 : lo] of a word. -/
def bits {n : Nat} (x : BitVec n) (lo w : Nat) : BitVec w := x.extractLsb' lo w

/-- Bit k of a word. -/
def bit {n : Nat} (x : BitVec n) (k : Nat) : Bool := x.getLsbD k

/-- A one-bit field. -/
def flag (b : Bool) : BitVec 1 := if b then 1 else 0

/-- A W1C field: each bit written 1 clears that bit (R19); all ones clear a counter (Table 19-4). -/
def clearBits {w : Nat} (x val : BitVec w) : BitVec w := x &&& ~~~val

/-- A W1C bit (R19). -/
def w1c (b written : Bool) : Bool := b && !written

/-! ## Time -/

/-- Fine steps in a beat (Table 02-1). -/
def fineBeat : Nat := 256

/-- Fine steps in a frame (Table 02-1). -/
def fineFrame : Nat := 1536

/-- Fine steps in 10 µs (2,500 frames). -/
def fineTenUs : Nat := 3840000

/-- Fine steps in a millisecond. -/
def fineMs : Nat := 384000000

/-- The schedule-time word of an instant (Table 02-3). -/
def schedOfFine (t : Fine) : Word64 :=
  BitVec.ofNat 64 ((t / fineFrame) * 2048 + (t / fineBeat % 6) * 256 + t % fineBeat)

/-- A schedule-time word is invalid when its beat field holds 6 or 7 (R82). -/
def schedValid (w : Word64) : Bool := decide ((bits w 8 3).toNat < 6)

/-- The instant of a valid schedule-time word (Table 02-3). -/
def schedToFine (w : Word64) : Fine := (bits w 11 53).toNat * fineFrame + (bits w 8 3).toNat * fineBeat + (bits w 0 8).toNat

/-- The next frame boundary strictly after an instant. -/
def nextFrame (t : Fine) : Fine := (t / fineFrame + 1) * fineFrame

/-- The first frame boundary at or after an instant. -/
def frameAtOrAfter (t : Fine) : Fine := ((t + fineFrame - 1) / fineFrame) * fineFrame

/-! ## Keys -/

/-- Key of a drive or probe slice. -/
def sliceKey (i : SliceId) : Nat := i.stall.val * 32 + (match i.kind with | .drive => 0 | .probe => 9 | .acq => 14) + i.idx.val

/-- Key of an acquisition slice. -/
def acqKey (n : StallId) (k : Fin 5) : Nat := n.val * 5 + k.val

/-- Key of a voice. -/
def voiceKey (v : VoiceId) : Nat := v.stall.val * 128 + (if v.probe then 64 else 0) + v.num.val

/-- Key of a readout channel. -/
def chanKey (c : ChanId) : Nat := c.stall.val * 64 + c.num.val

/-- Key of a flux line. -/
def lineKey (l : LineId) : Nat := l.stall.val * 64 + l.num.val

/-- Key of a flux group. -/
def groupKey (g : GroupId) : Nat := g.stall.val * 8 + g.num.val

/-- Key of a rider. -/
def riderKey (r : RiderId) : Nat := r.stall.val * 16 + r.num.val

/-- Key of a capture unit. -/
def unitKey (u : UnitId) : Nat := u.stall.val * 4 + u.num.val

/-- Key of a comparator: 10 per stall, then the 16 of the spine. -/
def cmpKey : CmpId → Nat
  | .stall n w => n.val * 10 + w.val
  | .spine k => 80 + k.val

/-- Key of a cell: 256 per stall, then 1,024 for each hub plane. -/
def cellKey : CellId → Nat
  | .node n b => n.val * 256 + b.val
  | .hub p b => 2048 + (if p then 1024 else 0) + b.val

/-- The stall of a queue (R13). -/
def queueStall (q : QueueId) : StallId := ⟨(bits q 11 3).toNat, (bits q 11 3).isLt⟩

/-- The queue index of a queue within its stall (R13). -/
def queueIndex (q : QueueId) : Nat := (bits q 0 11).toNat

/-- The voices of a stall. -/
def stallVoices (n : StallId) : List VoiceId :=
  (List.finRange 64).map (⟨n, false, ·⟩) ++ (List.finRange 64).map (⟨n, true, ·⟩)

/-- The riders of a stall. -/
def stallRiders (n : StallId) : List RiderId := (List.finRange 16).map (⟨n, ·⟩)

/-- The readout channels of a stall. -/
def stallChans (n : StallId) : List ChanId := (List.finRange 64).map (⟨n, ·⟩)

/-- The flux lines of a stall. -/
def stallLines (n : StallId) : List LineId := (List.finRange 64).map (⟨n, ·⟩)

/-- The flux groups of a stall. -/
def stallGroups (n : StallId) : List GroupId := (List.finRange 8).map (⟨n, ·⟩)

/-- The capture units of a stall. -/
def stallUnits (n : StallId) : List UnitId := (List.finRange 4).map (⟨n, ·⟩)

/-- The acquisition slices of a stall. -/
def stallAcqs : List (Fin 5) := List.finRange 5

/-- The drive and probe slices of a stall. -/
def stallSlices (n : StallId) : List SliceId :=
  (List.finRange 9).map (⟨n, .drive, ·⟩) ++ [⟨n, .probe, 0⟩, ⟨n, .probe, 1⟩, ⟨n, .probe, 2⟩, ⟨n, .probe, 3⟩, ⟨n, .probe, 4⟩]

/-- The group of a line: group Gg holds F(8g) to F(8g + 7) (Table 00-3). -/
def lineGroup (l : LineId) : GroupId := ⟨l.stall, ⟨l.num.val / 8, by omega⟩⟩

/-- The lines of a group. -/
def groupLines (g : GroupId) : List LineId := (List.finRange 8).map fun i => ⟨g.stall, ⟨g.num.val * 8 + i.val, by omega⟩⟩

/-- Do for each of a list. -/
def forEach {α : Type} (l : List α) (f : α → State → State) (s : State) : State := l.foldl (fun acc a => f a acc) s

/-! ## Accessors -/

def getStall (s : State) (n : StallId) : StallCtl := tabGet {} s.stalls n.val
def modStall (n : StallId) (f : StallCtl → StallCtl) (s : State) : State := { s with stalls := tabMod {} s.stalls n.val f }
def getGait (s : State) (n : StallId) : Gait := tabGet {} s.gaits n.val
/-- A Trot deadline entry: 168 beats in entry 0 and 204 in every other that nothing has set (R102, log entry 80). -/
def trotDeadline (g : Gait) (k : Nat) : BitVec 12 := tabGet (if k = 0 then 168 else 204) g.deadlines k

def modGait (n : StallId) (f : Gait → Gait) (s : State) : State := { s with gaits := tabMod {} s.gaits n.val f }
def getSlice (s : State) (i : SliceId) : Slice := tabGet {} s.slices (sliceKey i)
def modSlice (i : SliceId) (f : Slice → Slice) (s : State) : State := { s with slices := tabMod {} s.slices (sliceKey i) f }
def getAcq (s : State) (n : StallId) (k : Fin 5) : AcqSlice := tabGet {} s.acqs (acqKey n k)
def modAcq (n : StallId) (k : Fin 5) (f : AcqSlice → AcqSlice) (s : State) : State := { s with acqs := tabMod {} s.acqs (acqKey n k) f }
def getVoice (s : State) (v : VoiceId) : Voice := tabGet {} s.voices (voiceKey v)
def modVoice (v : VoiceId) (f : Voice → Voice) (s : State) : State := { s with voices := tabMod {} s.voices (voiceKey v) f }
def getSeq (s : State) (v : VoiceId) : Seq := tabGet {} s.seqs (voiceKey v)
def modSeq (v : VoiceId) (f : Seq → Seq) (s : State) : State := { s with seqs := tabMod {} s.seqs (voiceKey v) f }
def getChan (s : State) (c : ChanId) : Channel := tabGet {} s.chans (chanKey c)
def modChan (c : ChanId) (f : Channel → Channel) (s : State) : State := { s with chans := tabMod {} s.chans (chanKey c) f }
def getUnit (s : State) (u : UnitId) : CapUnit := tabGet {} s.units (unitKey u)
def modUnit (u : UnitId) (f : CapUnit → CapUnit) (s : State) : State := { s with units := tabMod {} s.units (unitKey u) f }
def getNode (s : State) (n : StallId) : Node := tabGet {} s.nodes n.val
def modNode (n : StallId) (f : Node → Node) (s : State) : State := { s with nodes := tabMod {} s.nodes n.val f }
def getCell (s : State) (c : CellId) : Cell := tabGet {} s.cells (cellKey c)
def modCell (c : CellId) (f : Cell → Cell) (s : State) : State := { s with cells := tabMod {} s.cells (cellKey c) f }
def getBook (s : State) (e : ReinChan) : Book := tabGet {} s.books e.toNat
def modBook (e : ReinChan) (f : Book → Book) (s : State) : State := { s with books := tabMod {} s.books e.toNat f }
def getRider (s : State) (r : RiderId) : Rider := tabGet {} s.riders (riderKey r)
def modRider (r : RiderId) (f : Rider → Rider) (s : State) : State := { s with riders := tabMod {} s.riders (riderKey r) f }
def getLine (s : State) (l : LineId) : Line := tabGet {} s.lines (lineKey l)
def modLine (l : LineId) (f : Line → Line) (s : State) : State := { s with lines := tabMod {} s.lines (lineKey l) f }
def getFast (s : State) (l : LineId) : Fast := tabGet {} s.fasts (lineKey l)
def modFast (l : LineId) (f : Fast → Fast) (s : State) : State := { s with fasts := tabMod {} s.fasts (lineKey l) f }
def getGroup (s : State) (g : GroupId) : Group := tabGet {} s.groups (groupKey g)
def modGroup (g : GroupId) (f : Group → Group) (s : State) : State := { s with groups := tabMod {} s.groups (groupKey g) f }
def getQueue (s : State) (q : QueueId) : Queue := tabGet {} s.queues q.toNat
def modQueue (q : QueueId) (f : Queue → Queue) (s : State) : State := { s with queues := tabMod {} s.queues q.toNat f }
def getFarrier (s : State) (n : StallId) : Farrier := tabGet {} s.farriers n.val
def modFarrier (n : StallId) (f : Farrier → Farrier) (s : State) : State := { s with farriers := tabMod {} s.farriers n.val f }
def getTrims (s : State) (n : StallId) : Trims := tabGet {} s.trims n.val
def modTrims (n : StallId) (f : Trims → Trims) (s : State) : State := { s with trims := tabMod {} s.trims n.val f }
def getShotAudit (s : State) (n : StallId) : ShotAudit := tabGet {} s.shotAudits n.val
def modShotAudit (n : StallId) (f : ShotAudit → ShotAudit) (s : State) : State := { s with shotAudits := tabMod {} s.shotAudits n.val f }
def getLane (s : State) (k : LaneId) : Lane := tabGet {} s.lanes k.val
def modLane (k : LaneId) (f : Lane → Lane) (s : State) : State := { s with lanes := tabMod {} s.lanes k.val f }
def getPort (s : State) (p : Fin 2) : EthPort := tabGet {} s.ethPorts p.val
def modPort (p : Fin 2) (f : EthPort → EthPort) (s : State) : State := { s with ethPorts := tabMod {} s.ethPorts p.val f }
def getDomain (s : State) (d : Fin 2) : Domain := tabGet {} s.domains d.val
def modDomain (d : Fin 2) (f : Domain → Domain) (s : State) : State := { s with domains := tabMod {} s.domains d.val f }
def getPulse (s : State) (k : Fin 8) : TimePulse := tabGet {} s.pulses k.val
def modPulse (k : Fin 8) (f : TimePulse → TimePulse) (s : State) : State := { s with pulses := tabMod {} s.pulses k.val f }
def getWatch (s : State) (c : CmpId) : Watch := tabGet {} s.watches (cmpKey c)
def modWatch (c : CmpId) (f : Watch → Watch) (s : State) : State := { s with watches := tabMod {} s.watches (cmpKey c) f }
def getHk (s : State) (k : Fin 8) : HkConv := tabGet {} s.hks k.val
def modHk (k : Fin 8) (f : HkConv → HkConv) (s : State) : State := { s with hks := tabMod {} s.hks k.val f }
def getFunc (s : State) (f : Func) : HostFunc := tabGet {} s.funcs f.val
def modFunc (f : Func) (g : HostFunc → HostFunc) (s : State) : State := { s with funcs := tabMod {} s.funcs f.val g }
def getIrq (s : State) (src : Nat) : IrqSource := tabGet {} s.irqs src
def modIrq (src : Nat) (g : IrqSource → IrqSource) (s : State) : State := { s with irqs := tabMod {} s.irqs src g }
def getFeed (s : State) (k : Nat) : Feed := tabGet {} s.feeds k
def modFeed (k : Nat) (g : Feed → Feed) (s : State) : State := { s with feeds := tabMod {} s.feeds k g }
def setHost (f : HostCommon → HostCommon) (s : State) : State := { s with host := f s.host }
def setClock (f : Clock → Clock) (s : State) : State := { s with clock := f s.clock }
def setHbm (f : Tab Byte → Tab Byte) (s : State) : State := { s with hbm := f s.hbm }
def setStore (f : Tab (BitVec 256) → Tab (BitVec 256)) (s : State) : State := { s with store := f s.store }
def putFlight (i : Nat) (g : Flight) (s : State) : State := { s with flights := tabSet s.flights i g }
def setStallImages (f : Tab StallImage → Tab StallImage) (s : State) : State := { s with stallImages := f s.stallImages }
def setHubImage (i : Option HubImage) (s : State) : State := { s with hubImage := i }
def setPower (f : Power → Power) (s : State) : State := { s with power := f s.power }
def setTack (f : Tack → Tack) (s : State) : State := { s with tack := f s.tack }
def setHub (f : Hub → Hub) (s : State) : State := { s with hub := f s.hub }
def setQdir (f : Qdir → Qdir) (s : State) : State := { s with qdir := f s.qdir }
def setTether (f : TetherCtl → TetherCtl) (s : State) : State := { s with tether := f s.tether }
def setTime (f : TimeCtl → TimeCtl) (s : State) : State := { s with tc := f s.tc }
def setTally (f : Tally → Tally) (s : State) : State := { s with tally := f s.tally }
def setHk (f : HkCtl → HkCtl) (s : State) : State := { s with hkCtl := f s.hkCtl }
def setPersist (f : Persist → Persist) (s : State) : State := { s with persist := f s.persist }
def setBackup (f : Backup → Backup) (s : State) : State := { s with backup := f s.backup }

/-! ## Images in force -/

/-- The image in force in a stall, or an empty one. -/
def imageOf (s : State) (n : StallId) : StallImage := tabGet {} s.stallImages n.val

/-- Whether a stall has an image in force (R118). -/
def hasImage (s : State) (n : StallId) : Bool := (tabFind n.val s.stallImages).isSome

/-- The herd image in force, or an empty one. -/
def herd (s : State) : HerdImage := s.herdImage.getD {}

/-- The hub wiring in force, or an empty one. -/
def hubWiring (s : State) : HubImage := s.hubImage.getD {}

/-- The binding of a voice (BIND, OWNERS). -/
def voiceBind (s : State) (v : VoiceId) : VoiceBind := tabGet {} (imageOf s v.stall).voices ((if v.probe then 64 else 0) + v.num.val)

/-- The binding of a channel. -/
def chanBind (s : State) (c : ChanId) : ChanBind := tabGet {} (imageOf s c.stall).chans c.num.val

/-- The binding of a line. -/
def lineBind (s : State) (l : LineId) : LineBind := tabGet {} (imageOf s l.stall).lines l.num.val

/-- What the image says of a rider. -/
def riderBind (s : State) (r : RiderId) : RiderBind := tabGet {} (imageOf s r.stall).riders r.num.val

/-- The allocation of a queue, if the image in force in its stall allocates it (R455). -/
def queueAlloc (s : State) (q : QueueId) : Option QueueAlloc := tabFind (queueIndex q) (imageOf s (queueStall q)).queues

/-- Owner and attribute of a rein channel (R130, R131): a tenant's channel carries TEN. -/
def chanAttr (s : State) (e : ReinChan) : ChanAttr :=
  let a : ChanAttr := tabGet {} (herd s).chans e.toNat
  if e.toNat < 4064 then { a with ten := a.ten || decide (a.owner.val ≠ 0 ∧ a.owner.val ≠ 15) } else { owner := 15 }

/-- The image of a cell in force. -/
def cellImage (s : State) : CellId → CellImage
  | .node n b => tabGet {} (imageOf s n).node.cells b.val
  | .hub _ b => tabGet {} (hubWiring s).cells b.val

/-! ## Codes -/

/-- Merge a code into the newest entry with the same code and source, if R697 lets it; otherwise none. -/
def mergeLog (now : Fine) (code : Code) (src : LogSource) : List LogEntry → Option (List LogEntry)
  | [] => none
  | e :: rest =>
    if e.code = code ∧ e.source = src then
      (if now - e.latest ≤ fineTenUs ∧ e.rep < 255 then some ({ e with rep := e.rep + 1, latest := now } :: rest) else none)
    else (mergeLog now code src rest).map (e :: ·)

/-- A code enters the log of one function (R696, R697): newest first, 512 entries kept. -/
def logInto (f : Func) (code : Code) (owner : Owner) (stall : Nat) (object aux : Word) (func : BitVec 8) (src : LogSource) (s : State) : State :=
  modFunc f (fun h =>
    match mergeLog s.clock.now code src h.log with
    | some l => { h with log := l }
    | none =>
      { h with
        logCount := h.logCount + 1
        log := ({ number := h.logCount + 1, code, owner, stall, rep := 0, at_ := schedOfFine s.clock.sched, latest := s.clock.now,
                  object, aux, func, source := src } :: h.log).take 512 }) s

/-- The function whose log shows the codes of an owner's objects (R696): virtual function k for owner k from 1 to 14. -/
def ownerFunc (o : Owner) : Option Func := if h : o.val < 15 ∧ o.val ≠ 0 then some ⟨o.val, h.1⟩ else none

/-- The device records a code that no host access caused (R696): stall 8 is the spine. -/
def record (code : Code) (stall : Nat) (owner : Owner) (object aux : Word) (s : State) : State :=
  let src := LogSource.device stall object
  let s := logInto 0 code owner stall object aux 0xFF src s
  match ownerFunc owner with
  | some f => logInto f code owner stall object aux 0xFF src s
  | none => s

/-- A host access is refused (R695, R696): error status of its function, the physical function's log, and its own log. -/
def refuseAt (f : Func) (bar2 : Bool) (offset : Nat) (code : Code) (owner : Owner) (stall : Nat) (object aux : Word) (s : State) : State :=
  let s := modFunc f (fun h => { h with lastCode := code, errCount := satInc h.errCount, errBar2 := bar2, errOffset := BitVec.ofNat 36 offset }) s
  let src := LogSource.host f bar2 offset
  let fn := BitVec.ofNat 8 f.val
  let s := logInto 0 code owner stall object aux fn src s
  if f.val = 0 then s else logInto f code owner stall object aux fn src s

/-! ## Interrupts -/

/-- Whether a function is enabled: the physical function always is (R688). -/
def funcEnabled (s : State) (f : Func) : Bool := f.val == 0 || (getFunc s f).enabled

/-- The function and entry to which VECTORS maps a source (R699). -/
def vectorOf (s : State) (src : Nat) : Option (Func × Nat) := ((herd s).vectors.find? fun v => v.1 == src).map (·.2)

/-- A message reaches its entry (R700): it leaves, or the entry's mask holds it with its pending bit set. -/
def deliver (src : Nat) (f : Func) (e : Nat) (s : State) : State :=
  if !funcEnabled s f then modFunc 0 (fun h => { h with unsent := satInc h.unsent }) s
  else
    let h := getFunc s f
    let m := tabGet {} h.msix e
    if m.masked || h.msixMask || !h.msixEnable then
      modIrq src (fun i => { i with parked := true })
        (modFunc f (fun h => { h with msix := tabSet h.msix e { m with pending := true } }) s)
    else
      modIrq src (fun i => { i with last := some s.clock.now, parked := false })
        (modFunc f (fun h => { h with msix := tabSet h.msix e { m with sent := m.sent + 1 } }) s)

/-- A source raises (R699, R700): nothing without a vector; under the rate cap of 10 µs otherwise. -/
def raise (src : Nat) (s : State) : State :=
  match vectorOf s src with
  | none => s
  | some (f, e) =>
    let i := getIrq s src
    if i.held then modFunc f (fun h => { h with merged := satInc h.merged }) s
    else if i.parked then s
    else
      match i.last with
      | some t => if s.clock.now - t ≤ fineTenUs then modIrq src (fun i => { i with held := true }) s else deliver src f e s
      | none => deliver src f e s

/-! ## Long operations -/

/-- A command is accepted (R701). -/
def opStart : OpStatus := { state := .busy, progress := 0, code := 0 }

/-- A long operation ends done (R701). -/
def opDone (code : Code) : OpStatus := { state := .done, progress := 1000, code }

/-- A long operation ends failed or aborted and keeps its progress (R701). -/
def opEnd (st : OpState) (code : Code) (o : OpStatus) : OpStatus := { state := st, progress := o.progress, code }

/-- A long operation whose rate the manual does not give gets on, below the progress at which its next event comes (DESIGN CHOICE, log entry 162). -/
def paced (limit k : Nat) (o : OpStatus) : OpStatus := { o with progress := max o.progress (min limit (o.progress + Config.loadPace k)) }

/-- A command is refused (R702): unchanged while busy, otherwise failed with progress 0 and the refusal's code. -/
def opRefuse (code : Code) (o : OpStatus) : OpStatus :=
  if o.state = .busy then o else { state := .failed, progress := 0, code }

/-! ## Free values -/

/-- Advance the counter of free values past the k that a command draws. -/
def drawn (k : Nat) (s : State) : State := { s with freeCtr := s.freeCtr + k }

/-- Advance the counter of free values. -/
def freshen (s : State) : State := drawn 1 s

end Sys2Proof.Machine
end

