-- ==== Sys2Proof/Machine/Access.lean ====
section
/-!
DEFINITION. Host access to BAR0 (R20, R133, R687 to R695): whose register it is, what refuses an access before the register's own rule
is asked, and how a refusal is recorded.
-/

namespace Sys2Proof.Machine

open Sys2Proof

/-- The voices that an image binds to a drive or probe slice (BIND). -/
def boundVoices (s : State) (i : SliceId) : List VoiceId :=
  (stallVoices i.stall).filter fun v =>
    v.probe == (i.kind == .probe) && i.kind != .acq && decide ((voiceBind s v).slice.toNat = i.idx.val) && hasImage s i.stall

/-- The channels that an image binds to an acquisition slice. -/
def boundChans (s : State) (n : StallId) (k : Fin 5) : List ChanId :=
  (stallChans n).filter fun c => decide ((chanBind s c).slice.toNat = k.val) && hasImage s n

/-- One owner when all of a list agree, owner 0 otherwise (R198). -/
def commonOwner : List Owner → Owner
  | [] => 0
  | o :: rest => if rest.all (· == o) then o else 0

/-- The owner of a drive or probe slice (R198). -/
def sliceOwner (s : State) (i : SliceId) : Owner := commonOwner ((boundVoices s i).map fun v => (voiceBind s v).owner)

/-- The owner of an acquisition slice (R198, R284). -/
def acqOwner (s : State) (n : StallId) (k : Fin 5) : Owner := commonOwner ((boundChans s n k).map fun c => (chanBind s c).owner)

/-- The owner of a Trot deadline entry (R102). -/
def trotOwner (s : State) (n : StallId) (k : Fin 8) : Owner := (((imageOf s n).trot[k.val]?).map (·.owner)).getD 0

/-- The owner of a cell: OWNERS gives a stall cell's, and a hub cell has that of the channel it issues on. -/
def cellOwner (s : State) (c : CellId) : Owner :=
  match c with
  | .node _ _ => (cellImage s c).owner
  | .hub _ _ => (((cellImage s c).chan).map fun e => (chanAttr s e).owner).getD 0

/-- Whether an access is of an object's owner or of owner 0 (R133). -/
def mayAct (f : Func) (o : Owner) : Bool := decide (f.owner = o) || decide (f.val = 0)

/-- The owner that a whole register is under (R20): none where it is under no owner. -/
def regOwner (s : State) : Reg → Option Owner
  | .power _ => some 0
  | .time _ => some 0
  | .pt _ _ => some 0
  | .dm _ _ => some 0
  | .tp _ _ => some 0
  | .tether .cmd => some 0
  | .tl _ .ctl => some 0
  | .tl _ .prbs => some 0
  | .hubCell false c .filter => some (cellOwner s (.hub false c))
  | .hkCtl _ => some 0
  | .spineCmp _ _ => some 0
  | .hk _ _ => some 0
  | .scan _ _ => some 0
  | .persist _ => some 0
  | .ctl n (.trot k) => some (trotOwner s n k)
  | .cmp _ _ _ => some 0
  | .drive n k .ctl => some (sliceOwner s ⟨n, .drive, k⟩)
  | .drive n k .guardCfg => some (sliceOwner s ⟨n, .drive, k⟩)
  | .probe n k .ctl => some (sliceOwner s ⟨n, .probe, k.castLE (by omega)⟩)
  | .probe n k .guardCfg => some (sliceOwner s ⟨n, .probe, k.castLE (by omega)⟩)
  | .voice _ .status => none
  | .voice v _ => some (voiceBind s v).owner
  | .seq v .post => some (voiceBind s v).owner
  | .seq v .startLo => some (voiceBind s v).owner
  | .seq v .startHi => some (voiceBind s v).owner
  | .acq n k .ctl => some (acqOwner s n k)
  | .chan c .ctl => some (chanBind s c).owner
  | .chan c .int_ => some (chanBind s c).owner
  | .chan c .demod => some (chanBind s c).owner
  | .chan c .disc => some (chanBind s c).owner
  | .chan c (.ab _) => some (chanBind s c).owner
  | .chan c (.c _) => some (chanBind s c).owner
  | .chan c (.qk _) => some (chanBind s c).owner
  | .chan c .commit => some (chanBind s c).owner
  | .chan c .token => some (chanBind s c).owner
  | .unit _ _ .opStatus => none
  | .unit _ _ .result => none
  | .unit _ _ .baseLo => none
  | .unit _ _ .baseHi => none
  | .unit _ _ .wr => none
  | .unit _ _ .countA => none
  | .unit _ _ .countB => none
  | .unit n u _ => (getUnit s ⟨n, u⟩).owner
  | .line _ .status => none
  | .line _ .count => none
  | .line l _ => some (lineBind s l).owner
  | .edge l _ => some (lineBind s l).owner
  | .cell n b .filter => some (cellOwner s (.node n b))
  | .rider h .cmd => some (riderBind s h).owner
  | .rider h .faultEn => some (riderBind s h).owner
  | .rider h .handler => some (riderBind s h).owner
  | .rider h (.l _) => some (riderBind s h).owner
  | .rider h (.tLo _) => some (riderBind s h).owner
  | .rider h (.tHi _) => some (riderBind s h).owner
  | .queue n i .push => (queueAlloc s (BitVec.ofNat 14 (n.val * 2048 + i.val))).map (·.owner)
  | .queue n i .pushEnd => (queueAlloc s (BitVec.ofNat 14 (n.val * 2048 + i.val))).map (·.owner)
  | .queue n i .pop => (queueAlloc s (BitVec.ofNat 14 (n.val * 2048 + i.val))).map (·.owner)
  | .farrier _ .limitsR => some 0
  | .farrier _ .limitsD => some 0
  | .farrier _ .windows => some 0
  | .farrier _ .timeouts => some 0
  | _ => none

/-- The owner of the object at an offset, for the log (Table 19-5). -/
def regOwnerLog (s : State) (r : Reg) : Owner :=
  match regOwner s r with
  | some o => o
  | none =>
    match r with
    | .voice v _ => (voiceBind s v).owner
    | .seq v _ => (voiceBind s v).owner
    | .chan c _ => (chanBind s c).owner
    | .line l _ => (lineBind s l).owner
    | .rider h _ => (riderBind s h).owner
    | .reinChan e => (chanAttr s (BitVec.ofNat 12 e.val)).owner
    | _ => 0

/-- An object word (Table 03-11). -/
def object (kind : Nat) (index : Nat) : Word := BitVec.ofNat 32 (kind * 0x10000000 + index % 0x10000000)

/-- Object word of a voice; Table 03-11 numbers stall objects stall × 64 + index. -/
def voiceObject (v : VoiceId) : Word := object 5 (v.stall.val * 64 + v.num.val)

/-- Object word of a readout channel. -/
def chanObject (c : ChanId) : Word := object 6 (chanKey c)

/-- Object word of a flux line. -/
def lineObject (l : LineId) : Word := object 7 (lineKey l)

/-- Object word of a rider. -/
def riderObject (r : RiderId) : Word := object 4 (r.stall.val * 64 + r.num.val)

/-- Object word of a rein channel. -/
def reinObject (e : ReinChan) : Word := object 2 e.toNat

/-- Object word of a buckle cell, by its B number. -/
def cellObject : CellId → Word
  | .node _ b => object 3 b.val
  | .hub _ b => object 3 (1000 + b.val)

/-- The object at a register, for the log (Table 19-5); 0 when none. -/
def regObject : Reg → Word
  | .voice v _ => voiceObject v
  | .seq v _ => voiceObject v
  | .chan c _ => chanObject c
  | .line l _ => lineObject l
  | .edge l _ => lineObject l
  | .cell n b _ => cellObject (.node n b)
  | .hubCell b c _ => cellObject (.hub b c)
  | .reinChan e => object 2 e.val
  | .rider h _ => riderObject h
  | .queue n i _ => object 1 (n.val * 2048 + i.val)
  | _ => 0

/-- A host access to a register is refused with a code (R695). -/
def refuseReg (f : Func) (r : Reg) (code : Code) (s : State) : State :=
  refuseAt f false (regAddr r) code (regOwnerLog s r) (((regStall r).map fun x => x.1.val).getD 8) (regObject r)
    (BitVec.ofNat 32 (regAddr r)) s

/-- An access reaches the module: the link is trained (HOST_LINK), its function is enabled (R688) and not in D3hot (R687). -/
def hostReach (s : State) (f : Func) : Bool :=
  decide (s.host.width ≠ 0) && funcEnabled s f && !(getFunc s f).d3hot

/-- A stall is in phase 5 or 6 of its own load (R150). -/
def inCommit (s : State) (n : StallId) : Bool := decide (s.tack.run = some (.loadStall n)) && decide (5 ≤ s.tack.phase)

/-- What refuses a write before the register's own rule: a load in commit (R150), which applies in place of R693; an unpowered window (R693); another
owner (R20). -/
def gateCode (s : State) (f : Func) (r : Reg) : Option Code :=
  let window : Option Code :=
    match regStall r with
    | some (n, false) =>
      if inCommit s n then some 0x1D59 else if !(getStall s n).powered then some 0x1F04 else none
    | _ => none
  match window with
  | some c => some c
  | none =>
    match regOwner s r with
    | some o => if mayAct f o then none else some 0x1F01
    | none => none

/-- A host write to a register: nothing where it cannot reach the module, a refusal where the gate refuses it, its effect otherwise. -/
def hostWrite (f : Func) (r : Reg) (eff : State → State) (s : State) : State :=
  if hostReach s f then
    match gateCode s f r with
    | some c => refuseReg f r c s
    | none => eff s
  else s

/-- A host write whose register's own rule refuses it with a code (R695), or lets it act. -/
def hostCheck (f : Func) (r : Reg) (code : State → Option Code) (eff : State → State) (s : State) : State :=
  hostWrite f r (fun s => match code s with | some c => refuseReg f r c s | none => eff s) s

/-- A host write that passes through the mutual-exclusion element of its target (R706): one that found the element held has waited in its handshake,
which the target's contend counter counts, and is never dropped. -/
def hostElement (f : Func) (r : Reg) (g : Grant) (count : State → State) (code : State → Option Code) (eff : State → State) (s : State) : State :=
  hostWrite f r (fun s =>
    let s := match g with | .held => count s | .granted => s
    match code s with | some c => refuseReg f r c s | none => eff s) s

/-- The new firmware is starting (R642). -/
def fwSwitching (s : State) : Bool := decide (s.clock.now < s.power.fwUntil)

/-- A command of a spine block: refused with 0x1D62 during a firmware switch (R642), or with the code of its own rule; a refusal stands in
its OP_STATUS too (R702). -/
def spineCommand (f : Func) (r : Reg) (setOp : (OpStatus → OpStatus) → State → State) (code : State → Option Code) (eff : State → State)
    (s : State) : State :=
  hostWrite f r (fun s =>
    match (if fwSwitching s then some 0x1D62 else code s) with
    | some c => refuseReg f r c (setOp (opRefuse c) s)
    | none => eff s) s

/-- Word k of a 64-bit value whose low word a write holds until its high word commits it (R22). -/
def holdWord (r : Reg) (val : Word) (s : State) : State := { s with held := tabSet s.held (regAddr r) val }

/-- The low word that a commit uses: the held one, or the one in force (R22). -/
def heldWord (r : Reg) (inForce : Word) (s : State) : Word := tabGet inForce s.held (regAddr r)

/-- A commit uses up the held low word. -/
def dropHeld (r : Reg) (s : State) : State := { s with held := tabDel s.held (regAddr r) }

/-- The host changes a register pair: the low word is held, the high word commits both (R22). -/
def pairWrite (lo : Reg) (isHi : Bool) (val : Word) (inForceLo : State → Word) (commit : Word → Word → State → State) (s : State) : State :=
  if isHi then commit (heldWord lo (inForceLo s) s) val (dropHeld lo s) else holdWord lo val s

end Sys2Proof.Machine
end

