-- ==== Sys2Proof/Machine/QueueOps.lean ====
section
/-!
DEFINITION. What happens inside a queue (chapter 11): issuing words, storing them, taking them, returning credits, flushing,
withdrawing and the forced reset.
-/

namespace Sys2Proof.Machine

open Sys2Proof

/-- Whether an audit holds the pushes and takes of a queue (R486). -/
def queueHeld (s : State) (q : QueueId) : Bool := decide (s.qdir.cmd = some (.auditQueue q))

/-- The object word of a queue (Table 03-11). -/
def queueObject (q : QueueId) : Word := 0x10000000#32 ||| q.zeroExtend 32

/-- The stall of a port; none for the host and the tether, which the spine serves. -/
def portStall (q : QueueId) : QPort → Option StallId
  | .rider r => some r.stall
  | .slice n _ => some n
  | .voice v => some v.stall
  | .host => some (queueStall q)
  | .tether _ => none

/-- The number of a producer port of a queue, in the order of QUEUES. -/
def prodIndex (a : QueueAlloc) (p : QPort) : Option Nat := a.prods.findIdx? fun x => x.1 == p

/-- Producer port `i` of a queue. -/
def getProd (s : State) (q : QueueId) (i : Nat) : QProd := tabGet {} (getQueue s q).prods i

/-- Change producer port `i` of a queue. -/
def modProd (q : QueueId) (i : Nat) (f : QProd → QProd) (s : State) : State :=
  modQueue q (fun x => { x with prods := tabMod {} x.prods i f }) s

/-- Whether a port is present (R139, R461): its stall has an image in force that names it as a producer into the queue.  A port of the
queue's own stall is named by QUEUES; the host and the tether have no stall image. -/
def portPresent (s : State) (q : QueueId) (p : QPort) : Bool :=
  match p with
  | .host => true
  | .tether _ => true
  | _ =>
    match portStall q p with
    | none => true
    | some n =>
      hasImage s n && (decide (n = queueStall q) || (imageOf s n).produces.contains (p, q))

/-- Credits that a port holds for a queue: 0 where the image in force does not allocate the queue or does not name the port. -/
def portCredits (s : State) (q : QueueId) (p : QPort) : Nat :=
  match (queueAlloc s q).bind fun a => prodIndex a p with
  | some i => (getProd s q i).credits
  | none => 0

/-- A port issues words, one credit each; the last carries the end marker when `eoi` is set (R459, R463). -/
def issueWords (q : QueueId) (p : QPort) (ws : List Word) (eoi : Bool) (s : State) : State :=
  match (queueAlloc s q).bind fun a => prodIndex a p with
  | none => s
  | some i =>
    let marked := ws.zipIdx.map fun x => { word := x.1, eoi := eoi && x.2 + 1 == ws.length, port := i : QWord }
    modProd q i (fun d => { d with credits := d.credits - ws.length, flight := d.flight ++ marked }) s

/-! ## Head, tail and spill pages (R473, R483, R486) -/

/-- The spill quota of a queue in pages. -/
def queueQuota (s : State) (q : QueueId) : Nat := ((queueAlloc s q).map (·.quota)).getD 0

/-- Words in a queue's head: 32 while words are spilled, since it refills from them (R473). -/
def headWords (x : Queue) : Nat := if 0 < x.spilled then 32 else min 32 x.stored.length

/-- Words in a queue's tail. -/
def tailWords (x : Queue) : Nat := x.stored.length - headWords x - x.spilled

/-- Spill pages that a queue with a quota needs: from the page of its oldest spilled word on, at most the quota, at which the emptied front of the first page
takes words again (DESIGN CHOICE, log entry 96). -/
def pagesFor (quota : Nat) (x : Queue) : Nat := if x.spilled = 0 then 0 else min quota ((x.spillAt + x.spilled + 16383) / 16384)

/-- A word is stored: where head and tail are both full, the tail first writes its words into a spill page (R473). -/
def putWord (quota : Nat) (w : QWord) (x : Queue) : Queue :=
  let k := if tailWords x < 32 then 0 else min 32 (16384 * quota - x.spilled)
  { x with spilled := x.spilled + k, stored := x.stored ++ [w] }

/-- The oldest word leaves the head, which refills from the oldest spilled word (R473). -/
def dropWord (x : Queue) : Queue :=
  { x with
    stored := x.stored.drop 1, spilled := x.spilled - 1
    spillAt := if x.spilled ≤ 1 then 0 else (x.spillAt + 1) % 16384 }

/-- An allocation takes pages from free into transit, and from there to their stall (R483); nothing is zero-filled on that way, so it takes no time
(DESIGN CHOICE, log entry 96). -/
def takePages (n : StallId) (k : Nat) (s : State) : State :=
  setQdir (fun d => { d with transit := d.transit - k, allocated := d.allocated + k, used := tabMod 0 d.used n.val (· + k) })
    (setQdir (fun d => { d with free := d.free - k, transit := d.transit + k }) s)

/-- The release of pages of a stall starts: they are in transit while they are zero-filled (R483). -/
def givePages (n : StallId) (k : Nat) (s : State) : State :=
  setQdir (fun d => { d with allocated := d.allocated - k, transit := d.transit + k, used := tabMod 0 d.used n.val (· - k) }) s

/-- A move of pages in the page book. -/
def movePages (m : PageMove) (s : State) : State :=
  match m with
  | .take n k => takePages n k s
  | .give n k => givePages n k s

/-- A move of pages is asked for; an audit of the pages holds it until its settle point (R486). -/
def askPages (m : PageMove) (s : State) : State :=
  if s.qdir.cmd = some .auditPages then setQdir (fun d => { d with heldMoves := d.heldMoves ++ [m] }) s else movePages m s

/-- Allocate pages of a stall (R483). -/
def allocPages (n : StallId) (k : Nat) (s : State) : State := askPages (.take n k) s

/-- Start the release of pages of a stall (R483). -/
def releasePages (n : StallId) (k : Nat) (s : State) : State := askPages (.give n k) s

/-- Bring the pages of a queue in line with what it has spilled: it takes a page when it needs one and returns each page it has emptied. -/
def fixPages (q : QueueId) (s : State) : State :=
  let x := getQueue s q
  let need := pagesFor (queueQuota s q) x
  if x.pages < need then modQueue q (fun x => { x with pages := need }) (allocPages (queueStall q) (need - x.pages) s)
  else if need < x.pages then
    modQueue q (fun x => { x with pages := need, releasing := x.releasing + (x.pages - need) }) (releasePages (queueStall q) (x.pages - need) s)
  else s

/-- The whole of a discarded item or word: its credits return at once to the port, or are held for it while it is absent, and the discards
count (R461, R465, R468). -/
def discardWords (q : QueueId) (a : QueueAlloc) (i k : Nat) (s : State) : State :=
  let here : Bool := match a.prods[i]? with | some (p, _) => portPresent s q p | none => true
  modQueue q (fun x => { x with discards := satAdd x.discards k })
    (modProd q i (fun d => if here then { d with credits := d.credits + k } else { d with absent := d.absent + k }) s)

/-- A word reaches the element of its queue, which the image in force allocates (R464, R465, R466, R468). -/
def storeWord (q : QueueId) (a : QueueAlloc) (i : Nat) (w : QWord) (s : State) : State :=
  let d := getProd s q i
  if d.discarding then
    modProd q i (fun d => { d with discarding := !w.eoi }) (discardWords q a i 1 s)
  else if a.itemMode then
    let item := d.staged ++ [w]
    if 65 ≤ item.length then
      record 0x3802 (queueStall q).val a.owner (queueObject q) 0
        (modProd q i (fun d => { d with staged := [], openItem := false, discarding := !w.eoi }) (discardWords q a i item.length s))
    else if w.eoi then
      fixPages q (modQueue q (fun x => item.foldl (fun x w => putWord (queueQuota s q) w x) x) (modProd q i (fun d => { d with staged := [], openItem := false }) s))
    else modProd q i (fun d => { d with staged := item, openItem := true }) s
  else
    fixPages q (modQueue q (putWord (queueQuota s q) w) (modProd q i (fun d => { d with openItem := !w.eoi }) s))

/-- The consumer takes one word: its credit starts back to the port that pushed it (R460). -/
def takeWord (q : QueueId) (s : State) : Option (QWord × State) :=
  match (getQueue s q).stored with
  | [] => none
  | w :: _ => some (w, fixPages q (modProd q w.port (fun d => { d with returning := d.returning + 1 }) (modQueue q dropWord s)))

/-- The consumer takes up to `n` words and stops after a marked one (R488). -/
def takeWords (q : QueueId) : Nat → State → List QWord × State
  | 0, s => ([], s)
  | n + 1, s =>
    match takeWord q s with
    | none => ([], s)
    | some (w, s) => if w.eoi then ([w], s) else let r := takeWords q n s; (w :: r.1, r.2)

/-- Words stored or staged in a queue, which a flush discards (R467). -/
def flushCount (x : Queue) : Nat := x.stored.length + (x.prods.map fun p => p.2.staged.length).sum

/-- Whether a flush would discard an open item (R469). -/
def hasStaged (x : Queue) : Bool := x.prods.any fun p => !p.2.staged.isEmpty

/-- One flush of a queue (R467): stored words and staged items are discarded, their credits start back, and every port with an open
item enters discarding; the spill pages return in the background. -/
def flushQueue (q : QueueId) (s : State) : State :=
  let x := getQueue s q
  let prods := x.prods.map fun p =>
    (p.1, { p.2 with
      returning := p.2.returning + (x.stored.filter fun w => w.port == p.1).length + p.2.staged.length
      staged := []
      discarding := p.2.discarding || p.2.openItem
      openItem := false })
  let s := releasePages (queueStall q) x.pages s
  modQueue q (fun x => { x with stored := [], spilled := 0, spillAt := 0, prods := prods, freeing := x.freeing + x.pages, pages := 0 }) s

/-- The queues that a stall's image in force allocates. -/
def stallQueues (s : State) (n : StallId) : List QueueId :=
  (imageOf s n).queues.map fun p => BitVec.ofNat 14 (n.val * 2048 + p.1 % 2048)

/-- The queues with a record, in any stall. -/
def allQueues (s : State) : List QueueId := s.queues.map fun p => BitVec.ofNat 14 p.1

/-- A queue ends with its stall's image (R472): it is flushed and every credit is withdrawn.  Only words that ports of other stalls have
issued remain, and they are discarded when they reach QDIR (R470). -/
def endQueue (q : QueueId) (s : State) : State :=
  let s := flushQueue q s
  let ports := ((queueAlloc s q).map (·.prods)).getD []
  modQueue q (fun x =>
    { pages := 0, freeing := x.freeing, releasing := x.releasing,
      prods := (x.prods.filter fun p =>
        match ports[p.1]? with
        | some (port, _) => portStall q port != some (queueStall q)
        | none => false).map fun p => (p.1, { flight := p.2.flight : QProd }) }) s

/-- Every queue of a stall's image ends (R472). -/
def endQueues (n : StallId) (s : State) : State := forEach (stallQueues s n) endQueue s

/-- The ports of a stall that leaves HARNESSED hold no more credits: the queue holds them for the absent ports (R461). -/
def absentPorts (n : StallId) (s : State) : State :=
  forEach (allQueues s) (fun q s =>
    match queueAlloc s q with
    | none => s
    | some a =>
      forEach a.prods.zipIdx (fun e s =>
        if portStall q e.1.1 = some n ∧ queueStall q ≠ n then
          modProd q e.2 (fun d => { d with absent := d.absent + d.credits, credits := 0 }) s
        else s) s) s

/-- Credits held for absent ports pass to the ports that are now present (R139, R461). -/
def presentPorts (s : State) : State :=
  forEach (allQueues s) (fun q s =>
    match queueAlloc s q with
    | none => s
    | some a =>
      forEach a.prods.zipIdx (fun e s =>
        if portPresent s q e.1.1 then modProd q e.2 (fun d => { d with credits := d.credits + d.absent, absent := 0 }) s else s) s) s

/-- QUEUES of a new image grants credits afresh (R138, R139, R472); what is not granted stays with the queue. -/
def grantQueues (n : StallId) (s : State) : State :=
  forEach (imageOf s n).queues (fun p s =>
    let q : QueueId := BitVec.ofNat 14 (n.val * 2048 + p.1 % 2048)
    let a := p.2
    let old := getQueue s q
    let ungranted := a.capacity - (a.prods.map (·.2)).sum
    let prods := a.prods.zipIdx.map fun e => (e.2, { absent := e.1.2 : QProd })
    let new : Queue := { freeing := old.freeing, releasing := old.releasing, ungranted, prods }
    { s with queues := tabSet s.queues q.toNat new }) s

/-- The terms of a queue's credit book (R462): held by producer, stored, in flight. -/
def bookTerms (x : Queue) : Nat × Nat × Nat :=
  ((x.prods.map fun p => p.2.credits + p.2.absent).sum + x.ungranted, x.stored.length,
    (x.prods.map fun p => p.2.flight.length + p.2.staged.length + p.2.returning).sum)

/-- A queue takes a forced reset (R479). -/
def forcedReset (q : QueueId) (s : State) : State :=
  match queueAlloc s q with
  | none => s
  | some a =>
    let lost := flushCount (getQueue s q)
    let s := flushQueue q s
    let s := forEach a.prods.zipIdx (fun e s =>
      let here := portPresent s q e.1.1
      modProd q e.2 (fun d =>
        let c := e.1.2 - d.flight.length
        { d with credits := if here then c else 0, absent := if here then 0 else c, returning := 0 }) s) s
    let s := modQueue q (fun x =>
      { x with ungranted := a.capacity - (a.prods.map (·.2)).sum, fault := true, resets := satInc x.resets, lost := x.lost + lost }) s
    let s := setQdir (fun d => { d with resets := satInc d.resets }) s
    raise ((queueStall q).val * 256 + 0x1A) (record 0x3801 (queueStall q).val a.owner (queueObject q) 0 s)

/-- The host takes words into Q_POP_DATA (R488). -/
def hostTake (q : QueueId) (n : Nat) (s : State) : State :=
  let r := takeWords q n s
  let last := r.1.getLast?
  modQueue q (fun x =>
    { x with
      popValid := true
      popTaken := BitVec.ofNat 4 r.1.length
      popEoi := (last.map (·.eoi)).getD false
      popData := r.1.zipIdx.foldl (fun t e => tabSet t e.2 e.1.word) x.popData }) r.2

end Sys2Proof.Machine
end

