-- ==== Sys2Proof/Machine/VoiceOps.lean ====
section
/-!
DEFINITION. What happens inside a voice: tuning (chapter 4), ports, posts, selections, boundaries and forks (chapter 5), the marking of
shots (R279), and the output switch of a slice (Table 04-2).
-/

namespace Sys2Proof.Machine

open Sys2Proof

/-! ## Marking shots (R279) -/

/-- A cause that invalidates a shot (Table 06-4). -/
inductive ShotCause where
  | channel
  | guard
  | seq
  | missed
  | gate
  | slice
  deriving DecidableEq, Repr

/-- Set one cause bit of a shot. -/
def setCause (c : ShotCause) (x : Shot) : Shot :=
  match c with
  | .channel => { x with channel := true }
  | .guard => { x with guard := true }
  | .seq => { x with seq := true }
  | .missed => { x with missed := true }
  | .gate => { x with gate := true }
  | .slice => { x with slice := true }

/-- Mark the shot in progress of one rider. -/
def markRider (r : RiderId) (c : ShotCause) (s : State) : State :=
  if (getRider s r).shot.active then modRider r (fun x => { x with shot := setCause c x.shot }) s else s

/-- A cause on a voice marks every shot in progress whose rider has posted to it since the shot began (R279). -/
def markVoice (v : VoiceId) (c : ShotCause) (s : State) : State :=
  forEach (stallRiders v.stall) (fun r s =>
    if (getRider s r).shot.voices.contains (voiceKey v) then markRider r c s else s) s

/-- A cause on a drive or probe slice acts on every voice bound to it (R279). -/
def markSlice (i : SliceId) (c : ShotCause) (s : State) : State := forEach (boundVoices s i) (fun v s => markVoice v c s) s

/-- Do to the shot of the rider that opened a window, while it is in progress. -/
def onShotOf (c : ChanId) (w : Window) (f : Shot → Shot) (s : State) : State :=
  match fin? 16 w.rider with
  | none => s
  | some h =>
    let r : RiderId := ⟨c.stall, h⟩
    let x := (getRider s r).shot
    if x.active ∧ x.num = w.shot then modRider r (fun y => { y with shot := f y.shot }) s else s

/-- A cause on a channel sets a bit of the affected window's record and marks the shot of the rider that opened it (R279): the record is invalid, so
the shot carries channel, and a cause with a bit of its own carries that too (Table 06-4). -/
def markWindow (c : ChanId) (f : Window → Window) (extra : Option ShotCause) (s : State) : State :=
  match (getChan s c).win with
  | some w =>
    onShotOf c w (fun x => setCause .channel (match extra with | some m => setCause m x | none => x)) (modChan c (fun x => { x with win := some (f w) }) s)
  | none => s

/-! ## Descriptors (Table 05-1) -/

def descKind (d : Desc) : Nat := (bits d 30 2).toNat
def descStop (d : Desc) : Bool := bit d 28
def descStart (d : Desc) : Nat := (bits d 0 23).toNat
def descRepeat (d : Desc) : Nat := (bits d 52 12).toNat
def descLength (d : Desc) : Nat := (bits d 32 20).toNat
def descNext (d : Desc) : BitVec 13 := bits d 96 13
def descQueue (d : Desc) : QueueId := bits d 114 14
def descFmt (d : Desc) : Bool := bit d 29
def descMkBits (d : Desc) : BitVec 4 := bits d 92 4
def descMkStart (d : Desc) : Nat := (bits d 76 12).toNat
def descMkLen (d : Desc) : Nat := (bits d 64 12).toNat

/-- Key of word w of descriptor i of a stall. -/
def descKey (n : StallId) (i w : Nat) : Nat := n.val * 32768 + i * 4 + w

/-- The descriptor at an index of a stall's table, as a port copies it (R206). -/
def descAt (s : State) (n : StallId) (i : BitVec 13) : Desc :=
  let w (k : Nat) : Word := tabGet 0 s.descs (descKey n i.toNat k)
  (w 3) ++ (w 2) ++ (w 1) ++ (w 0)

/-- Key of a library word of a stall. -/
def libraryKey (n : StallId) (w : Nat) : Nat := n.val * 6291456 + w

/-- The owner of a descriptor group (R202). -/
def groupOwner (s : State) (n : StallId) (i : BitVec 13) : Owner := tabGet 0 (imageOf s n).groups (i.toNat / 64)

/-- The owner of a library block of 64 KiB (R202). -/
def blockOwner (s : State) (n : StallId) (b : Nat) : Owner := tabGet 0 (imageOf s n).blocks b

/-- The library blocks that a PLAY's beats occupy; a word is 4 bytes. -/
def descBlocks (d : Desc) : List Nat :=
  let first := descStart d / 16384
  (List.range ((descStart d + descLength d - 1) / 16384 + 1 - first)).map (· + first)

/-- The checks of R205: the code of the first that fails. -/
def descCheck (s : State) (v : VoiceId) (i : BitVec 13) (d : Desc) : Option Code :=
  let k := descKind d
  let o := (voiceBind s v).owner
  if k = 3 then some 0x1204
  else if k = 0 ∧ 6291456 < descStart d + descLength d then some 0x1204
  else if k ≠ 2 ∧ descLength d = 0 then some 0x1204
  else if k = 1 ∧ queueStall (descQueue d) ≠ v.stall then some 0x1204
  else if o.val = 0 then none
  else if groupOwner s v.stall i ≠ o then some 0x1203
  else if k = 0 ∧ (descBlocks d).any (fun b => blockOwner s v.stall b != o) then some 0x1203
  else if k = 1 ∧ ((queueAlloc s (descQueue d)).map (·.owner)) ≠ some o then some 0x1203
  else none

/-! ## Tuning -/

/-- The pending values of a voice all take effect together (R167). -/
def applyTuning (x : Voice) : Voice :=
  { x with
    tune :=
      { ftw := x.pend.ftw.getD x.tune.ftw
        offset := x.pend.offset.getD x.tune.offset
        vz := x.pend.vz.getD x.tune.vz
        x := x.pend.x.getD x.tune.x
        z := x.pend.z.getD x.tune.z
        scale := x.pend.scale.getD x.tune.scale
        enable := x.pend.enable.getD x.tune.enable
        mask := x.pend.mask.getD x.tune.mask }
    pend := {} }

/-- phi of the tuning in force (R159). -/
def phi (x : Tuning) : BitVec 16 :=
  let a := x.offset + x.vz
  (if x.x then -a else a) + (if x.z then 0x8000 else 0)

/-- Decimated samples flagged after a change, by filter mode (Table 06-1). -/
def filterFlags (mode : BitVec 2) : Nat := match mode with | 0 => 3 | 1 => 6 | _ => 12

/-- The frame in progress. -/
def frameNow (s : State) : Nat := s.clock.sched / fineFrame

/-- A unit captures the decimated samples of a channel. -/
def capturesChan (x : CapUnit) (c : ChanId) : Bool := x.armed && x.arm.decimated && decide (x.arm.target.toNat = c.num.val)

/-- Fine steps of an averaging interval (R290): an ADC sample is 24 fine steps. -/
def interval (c : UnitCfg) : Nat := (if c.decimated then fineFrame else 24) * 2 ^ c.avg.toNat

/-- A record's stored samples, from the first of its pre region on, meet the span from `a` to `b`. -/
def recordMeets (c : UnitCfg) (r : Record) (a b : Fine) : Bool :=
  decide ((r.sample - c.pre.toNat) * interval c < b) && decide (a < (r.sample + c.post.toNat) * interval c)

/-- The instant at which a record's first stored sample starts (R320). -/
def recordFrom (c : UnitCfg) (r : Record) : Fine := (r.sample - c.pre.toNat) * interval c

/-- The earlier of a flagged instant and those already held. -/
def earliest (t : Fine) (o : Option Fine) : Option Fine := some (min t (o.getD t))

/-- The earliest instant of a record in the span from `a` to `b`, where they meet. -/
def meetsFrom (c : UnitCfg) (r : Record) (a b : Fine) : Option Fine := if recordMeets c r a b then some (max a (recordFrom c r)) else none

/-- Set a flag, at its first instant, of the record in progress whose stored samples meet the span from `a` to `b` (R292). -/
def flagRecord (a b : Fine) (f : Fine → Record → Record) (x : CapUnit) : CapUnit :=
  { x with record := x.record.map fun r => match meetsFrom x.arm r a b with | some t => f t r | none => r }

/-- Flag `k` decimated samples of a channel from a frame on, with the open window and the record in progress that contain one of them
(R250, R255, R256, R292). -/
def flagChan (c : ChanId) (fr k : Nat) (s : State) : State :=
  let s := forEach (stallUnits c.stall) (fun u s =>
    if capturesChan (getUnit s u) c then modUnit u (flagRecord (fr * fineFrame) ((fr + k) * fineFrame) fun t r => { r with settle := earliest t r.settle }) s else s) s
  let s := modChan c (fun x => { x with flagFrom := fr, flagTo := max x.flagTo (fr + k) }) s
  match (getChan s c).win with
  | some w => if fr < w.start + w.len ∧ w.start < fr + k then markWindow c (fun w => { w with settle := true }) none s else s
  | none => s

/-- Frames for which the tuning, the filter modes and the rotations of the past are kept where no decimated capture runs: the longest window and filter. -/
def keptFrames : Nat := 4200

/-- Something in force up to a frame or instant is kept while an open window, a capture or a filter may reach back to it. -/
def keepsPast (s : State) (n : StallId) (endFrame : Nat) : Bool :=
  decide (frameNow s ≤ endFrame + keptFrames) || (stallUnits n).any fun u => (getUnit s u).armed && (getUnit s u).arm.decimated

/-- The channels that the image pairs with a voice (R249). -/
def pairedChans (s : State) (v : VoiceId) : List ChanId :=
  if v.probe then (stallChans v.stall).filter fun c => decide ((chanBind s c).slice ≠ 0xF) && decide ((chanBind s c).probe = v.num) else []

/-- A segment supplies beats to a voice. -/
def supplies (q : Seq) : Bool :=
  match q.state with
  | .play => true
  | .stream => true
  | .hold => true
  | _ => false

/-- The delay d of a voice in fine steps (R176). -/
def voiceDelay (s : State) (v : VoiceId) : Nat :=
  (getSeq s v).startOff.toNat + (getVoice s v).delay.toNat + (getVoice s v).trim.toNat

/-- The beat boundary at or before the present. -/
def beatNow (s : State) : Fine := s.clock.sched / fineBeat * fineBeat

/-- The instant at which the first sample of a beat slot leaves a voice: the slot's boundary, the whole beats of a Gallop successor's synthesis and output
(R84), and the voice's delay (R180). -/
def leavesAt (s : State) (v : VoiceId) (t : Fine) : Fine := t + (getSeq s v).lead * fineBeat + voiceDelay s v

/-- A slice that Table 00-3 has: P5 to P8 and A5 to A8 do not exist, so nothing happens to them (log entry 5). -/
def sliceExists (i : SliceId) : Bool := match i.kind with | .drive => true | _ => decide (i.idx.val ≤ 4)

/-- A slice that stands as spare: D8, P4 and A4 (R39). -/
def isSpare (i : SliceId) : Bool := match i.kind with | .drive => i.idx.val == 8 | _ => i.idx.val == 4

/-- The spare of a kind. -/
def spareOf (x : StallCtl) : SliceKind → Spare
  | .drive => x.spareDrive
  | .probe => x.spareProbe
  | .acq => x.spareAcq

/-- A spare carries the slice that it names: it replaces it, or a release of it still waits for silence (R42, R43). -/
def carries (x : Spare) : Bool := decide (x.use = .replacing) || x.leaving

/-- A spare carries a slice's voices or channels (R40). -/
def carried (s : State) (i : SliceId) : Bool :=
  let sp := spareOf (getStall s i.stall) i.kind
  carries sp && decide (sp.target.toNat = i.idx.val)

/-- The spare of a slice's kind switches in for it by force (R44). -/
def forcedFor (s : State) (i : SliceId) : Bool :=
  let sp := spareOf (getStall s i.stall) i.kind
  sp.forced && decide (sp.target.toNat = i.idx.val)

/-- The fault flag of a slice of any kind. -/
def sliceFaulted (s : State) (i : SliceId) : Bool :=
  match i.kind with
  | .acq => match fin? 5 i.idx.val with | some k => (getAcq s i.stall k).fault | none => false
  | _ => (getSlice s i).fault

/-- The converter of a slice has failed and no spare stands for it (R46). -/
def sliceDead (s : State) (i : SliceId) : Bool := sliceFaulted s i && !carried s i && !forcedFor s i

/-- The slice that carries a voice's output, none while it is unbound. -/
def voiceSlice (s : State) (v : VoiceId) : Option SliceId :=
  (fin? 9 (voiceBind s v).slice.toNat).bind fun k => if (voiceBind s v).slice = 0xF then none else some ⟨v.stall, if v.probe then .probe else .drive, k⟩

/-- The slice whose lane a voice uses: the spare's during a takeover (R195). -/
def carrier (s : State) (i : SliceId) : SliceId :=
  if carried s i then { i with idx := match i.kind with | .drive => 8 | _ => 4 } else i

/-- Lanes of a slice in a stud-book copy (Table 12-5): first number and count. -/
def sliceLanes (i : SliceId) : Nat × Nat := match i.kind with | .drive => (8 * i.idx.val, 8) | _ => (72 + 16 * i.idx.val, 16)

/-- The lane that a voice uses, as a stud-book copy numbers it; none while it is unbound. -/
def voiceLane (s : State) (v : VoiceId) : Option Nat :=
  (voiceSlice s v).map fun i => (sliceLanes (carrier s i)).1 + (voiceBind s v).lane.toNat

/-- IQ trims of lanes that wait take effect (Table 12-3). -/
def takeIq (lanes : List Nat) (t : Trims) : Trims :=
  let now := t.pendIq.filter fun e => lanes.contains e.1
  { t with iq := now.foldl (fun acc e => tabSet acc e.1 e.2) t.iq, pendIq := t.pendIq.filter fun e => !lanes.contains e.1 }

/-- The IQ trims that wait for a voice's segment boundary take effect (Table 12-3). -/
def trimVoice (v : VoiceId) (s : State) : State :=
  match voiceLane s v with
  | some k => if ((getTrims s v.stall).pendIq.any fun e => e.1 == k) then modTrims v.stall (takeIq [k]) s else s
  | none => s

/-- Pending tuning of a voice takes effect; a changed ftw or phi of a probe voice flags its channels, from the sample at which the voice's output changes
(R167, R252, R256). -/
def tuneVoice (v : VoiceId) (s : State) : State :=
  let s := trimVoice v s
  let old := (getVoice s v).tune
  let s := modVoice v applyTuning s
  let new := (getVoice s v).tune
  if old.ftw = new.ftw ∧ phi old = phi new then s
  else
    let at_ := if supplies (getSeq s v) then leavesAt s v s.clock.sched else s.clock.sched
    let s := modVoice v (fun x => { x with was := (at_, old.ftw, phi old) :: x.was.filter fun e => keepsPast s v.stall (e.1 / fineFrame) }) s
    forEach (pairedChans s v) (fun c s => flagChan c (at_ / fineFrame) (filterFlags (getChan s c).filterOn) s) s

/-- A voice plays: bound, enabled, and a segment supplies the beat (R165); the voices of a slice that no spare stands for play nothing (R46). -/
def playing (s : State) (v : VoiceId) : Bool :=
  (voiceSlice s v).any (fun i => !sliceDead s i) && (getVoice s v).tune.enable && supplies (getSeq s v)

/-! ## Beats (R158, R176, R179, R183, R202, R203, R235) -/

/-- I, Q and the marker bits of an envelope word (Table 05-2): IQ14M gives four marker bits, and the two lowest bits of I and Q are 0 (R203). -/
def wordBeat (iq14m : Bool) (w : Word) : BitVec 16 × BitVec 16 × BitVec 4 :=
  if iq14m then (bits w 2 14 ++ 0#2, bits w 18 14 ++ 0#2, bits w 16 2 ++ bits w 0 2) else (bits w 0 16, bits w 16 16, 0)

/-- The bits of a segment's marker run in a beat of a repetition (Table 05-1): a length of 0xFFF runs to the repetition's end. -/
def markerRun (d : Desc) (beat : Nat) : BitVec 4 :=
  let len := descMkLen d
  if len ≠ 0 ∧ descMkStart d ≤ beat ∧ (len = 0xFFF ∨ beat < descMkStart d + len) then descMkBits d else 0

/-- The word of the beat in play: the port's copy of a PLAY's first words in the first repetition, library words otherwise (R206, R214), the next word of
a STREAM (R238); none for a HOLD and for a beat that a stream underrun plays as zero (R212, R240). -/
def segWord (s : State) (v : VoiceId) (q : Seq) : Option Word :=
  match q.state with
  | .play =>
    match (if q.rep = 0 then q.head[q.beat.toNat]? else none) with
    | some w => some w
    | none => some (tabGet 0 s.library (libraryKey v.stall (descStart q.desc + q.beat.toNat)))
  | .stream => if q.under then none else q.play.words.head?
  | _ => none

/-- The beat that a voice plays in the slot of a beat boundary, at its place after the delay (R179) and, behind a Gallop release, the synthesis and
output (R84); none while it does not play.  A Trot release with a sub-beat part shifts its segment and those after it by that part (R87). -/
def beatOf (s : State) (v : VoiceId) (at_ : Fine) : Option Beat :=
  if playing s v then
    let q := getSeq s v
    let e := match segWord s v q with | some w => wordBeat (descFmt q.desc) w | none => (0, 0, 0)
    some { at_ := leavesAt s v (at_ + q.segTime % fineBeat), i := e.1, q := e.2.1
           marks := (markerRun q.desc q.beat.toNat ||| e.2.2) &&& (getVoice s v).tune.mask, tune := (getVoice s v).tune }
  else none

/-- The beats that may reach into the beat in progress, newest first. -/
def recentBeats (s : State) (v : VoiceId) : List Beat := (beatOf s v (beatNow s)).toList ++ (getVoice s v).beats

/-- The beat of a voice in which an instant lies, none where the voice does not play. -/
def beatAt (s : State) (v : VoiceId) (t : Fine) : Option Beat :=
  (recentBeats s v).find? fun b => decide (b.at_ ≤ t) && decide (t < b.at_ + fineBeat)

/-- The four marker bits of a voice at an instant (R183): 0 while it does not play. -/
def marksAt (s : State) (v : VoiceId) (t : Fine) : BitVec 4 := ((beatAt s v t).map (·.marks)).getD 0

/-- A hold at a voice's element counts in its contend count (R170, R403, R706). -/
def countVoice (v : VoiceId) (s : State) : State := modVoice v (fun x => { x with contend := satInc x.contend }) s

/-- Set the frequency word: it becomes pending (R167). -/
def setFtw (v : VoiceId) (ftw : BitVec 48) (s : State) : State := modVoice v (fun x => { x with pend := { x.pend with ftw := some ftw } }) s

/-- Add to vz: to the pending value, or to the one in force when nothing is pending, modulo 2^16 (R169). -/
def addVz (v : VoiceId) (k : BitVec 16) (s : State) : State :=
  modVoice v (fun x => { x with pend := { x.pend with vz := some (x.pend.vz.getD x.tune.vz + k) } }) s

/-- Toggle x (R169). -/
def toggleX (v : VoiceId) (s : State) : State :=
  modVoice v (fun x => { x with pend := { x.pend with x := some (!(x.pend.x.getD x.tune.x)) } }) s

/-- Toggle z (R169). -/
def toggleZ (v : VoiceId) (s : State) : State :=
  modVoice v (fun x => { x with pend := { x.pend with z := some (!(x.pend.z.getD x.tune.z)) } }) s

/-! ## Ports and segments -/

/-- The stall of a voice takes posts: RIDING or RESTING (R244). -/
def voiceServed (s : State) (v : VoiceId) : Bool :=
  match (getStall s v.stall).life with
  | .riding => true
  | .resting => true
  | _ => false

/-- Record a code on a voice. -/
def recordVoice (code : Code) (v : VoiceId) (s : State) : State :=
  record code v.stall.val (voiceBind s v).owner (voiceObject v) 0 s

/-- Whether a segment is a STREAM. -/
def isStream (d : Desc) : Bool := descKind d == 1

/-- The segment whose `next` the chain follows: the last one in the primary port, or the one in play. -/
def chainTail (q : Seq) : Option (Desc × Bool) :=
  match q.prim.getLast? with
  | some p => some (p.desc, p.state == .ready)
  | none => if q.state = .idle then none else some (q.desc, true)

/-- The primary port starts loading the next descriptor of the chain, up to four, one at a time; a STREAM only at its head (R214). -/
def refill (s : State) (v : VoiceId) (q : Seq) : Seq :=
  match chainTail q with
  | some (d, true) =>
    if q.prim.length < 4 ∧ !descStop d ∧ !q.primEmpty then
      let i := descNext d
      if isStream (descAt s v.stall i) ∧ q.prim ≠ [] then q
      else { q with prim := q.prim ++ [{ idx := i, desc := 0, state := .loading }] }
    else q
  | _ => q

/-- The length of a segment in beats: none for a HOLD without limit (R211, R212). -/
def segBeats (d : Desc) : Option Nat :=
  if descKind d = 2 ∧ descLength d = 0 then none else some ((descRepeat d + 1) * descLength d)

/-- The state that a segment's kind gives (Table 05-6). -/
def kindState (d : Desc) : SeqState := match descKind d with | 0 => .play | 1 => .stream | _ => .hold

/-- Words taken from a voice's queue, which it must consume (R238, R460), oldest first; an audit of the queue holds the takes (R486). -/
def streamTake (v : VoiceId) (q : QueueId) : Nat → State → List Word × State
  | 0, s => ([], s)
  | n + 1, s =>
    if ((queueAlloc s q).bind (·.consumer)) = some (.voice v) ∧ !queueHeld s q then
      match takeWord q s with
      | some (w, s) => let r := streamTake v q n s; (w.word :: r.1, r.2)
      | none => ([], s)
    else ([], s)

/-- The discarded words of a voice's stream (R241, R243). -/
def countDiscard (k : Nat) (q : Seq) : Seq := { q with discarded := satAdd q.discarded k }

/-- The words taken ahead for a STREAM at the head of the primary port are discarded and counted (R243). -/
def dropAhead (q : Seq) : Seq := { countDiscard ((q.ahead.map (·.words.length)).getD 0) q with ahead := none }

/-- The stream buffer is emptied: its words are discarded and counted (R243). -/
def dropBuffer (q : Seq) : Seq := { countDiscard q.play.words.length (dropAhead q) with play := {} }

/-- Stream words still to be discarded on a queue (R241). -/
def backlogOf (q : Seq) (id : QueueId) : Nat := tabGet 0 q.backlog id.toNat

/-- Set the words still to be discarded on a queue. -/
def setBacklog (id : QueueId) (n : Nat) (q : Seq) : Seq := { q with backlog := if n = 0 then tabDel q.backlog id.toNat else tabSet q.backlog id.toNat n }

/-- Words that arrive on a queue are discarded and counted for the beats that its voice played as zero (R241). -/
def discardBacklog (v : VoiceId) (id : QueueId) (s : State) : State :=
  let r := streamTake v id (backlogOf (getSeq s v) id) s
  modSeq v (fun q => setBacklog id (backlogOf q id - r.1.length) (countDiscard r.1.length q)) r.2

/-- A stream buffer takes words of its queue until it holds `n` (R239), once no backlog of that queue is left (R241); a bank that it begins to play
is one of 512 beats. -/
def fillBuf (v : VoiceId) (n : Nat) (b : StreamBuf) (s : State) : StreamBuf × State :=
  let s := discardBacklog v b.queue s
  if backlogOf (getSeq s v) b.queue = 0 then
    let r := streamTake v b.queue (min (n - b.words.length) b.toTake) s
    let words := b.words ++ r.1
    ({ b with words, toTake := b.toTake - r.1.length, bank := if b.bank = 0 then min 512 words.length else b.bank }, r.2)
  else (b, s)

/-- Words that the buffer of the STREAM in play may hold: what its bank in play has left, and the other bank (R239). -/
def playRoom (b : StreamBuf) : Nat := (if b.bank = 0 then 512 else b.bank) + 512

/-- The buffer of the STREAM in play fills up to its two banks of 512 words. -/
def fillPlay (v : VoiceId) (s : State) : State :=
  let b := (getSeq s v).play
  let r := fillBuf v (if (getSeq s v).ahead.any (fun a => !a.words.isEmpty) then b.words.length else playRoom b) b s
  modSeq v (fun q => { q with play := r.1 }) r.2

/-- The STREAM at the head of the primary port has its first 512 words taken (R214), into a bank that a STREAM in play has no more use for (R239). -/
def fillAhead (v : VoiceId) (s : State) : State :=
  let q := getSeq s v
  match q.ahead with
  | some b =>
    if q.state = .stream ∧ (q.play.toTake ≠ 0 ∨ q.play.bank < q.play.words.length) then s
    else
      let r := fillBuf v 512 b s
      modSeq v (fun q => { q with ahead := some r.1 }) r.2
  | none => s

/-- The stream buffer of a STREAM none of whose words has been taken. -/
def freshBuf (d : Desc) : StreamBuf := { queue := descQueue d, toTake := (descRepeat d + 1) * descLength d }

/-- A stream underrun begins (R240). -/
def beginUnderrun (v : VoiceId) (s : State) : State :=
  markVoice v .seq (recordVoice 0x3205 v (modSeq v (fun q => { q with under := true, events := satInc q.events }) s))

/-- The next boundary's selection comes from the late and held ones (R224, R226). -/
def promote (q : Seq) : Seq :=
  match q.later with
  | [] => { q with sel := none, selAt := 0, committed := false }
  | x :: rest => { q with sel := some (x, true), selAt := 0, committed := false, later := rest }

/-- The repetition at whose end a BREAK acts that was granted at an instant: the first whose commit point, 8 beats before its end, is still to come (R213,
R224); none where the segment has no such repetition. -/
def breakRep (d : Desc) (start granted : Fine) : Option Nat :=
  let r := ((granted - start + fineBeat - 1) / fineBeat + 7) / max 1 (descLength d)
  if descKind d ≠ 2 ∧ r ≤ descRepeat d then some r else none

/-- A STREAM comes into play: its buffer is the one filled ahead of it, or fills now; while its queue has a backlog it underruns (R238, R241). -/
def startStream (v : VoiceId) (d : Desc) (s : State) : State :=
  let s := fillPlay v (modSeq v (fun q => { q with play := q.ahead.getD (freshBuf d), ahead := none }) s)
  if 0 < backlogOf (getSeq s v) (descQueue d) then beginUnderrun v s else s

/-- A segment starts at an instant: its descriptor is in play and pending tuning takes effect (R167).  Words of a STREAM that a BREAK has cut short are
discarded and counted like those of R243. -/
def startSegment (v : VoiceId) (p : PortSeg) (at_ : Fine) (s : State) : State :=
  let s := tuneVoice v s
  let s := modSeq v (fun q =>
    { countDiscard q.play.words.length q with
      state := kindState p.desc, cur := p.idx, desc := p.desc, head := p.head, segTime := at_, rep := 0, beat := 0, waitOn := none
      brkAt := if q.sel.any (fun x => x.1 = .break_) then breakRep p.desc at_ (max at_ q.selAt) else none
      under := false, play := {} }) s
  let s := if isStream p.desc then startStream v p.desc s else s
  modSeq v (fun q => refill s v q) s

/-- The voice goes idle (R210, R244): ports emptied, selections gone, stream buffer discarded. -/
def goIdle (v : VoiceId) (s : State) : State :=
  modSeq v (fun q =>
    { dropBuffer q with
      state := .idle, cur := 0, desc := 0, head := [], rep := 0, prim := [], primEmpty := false, alt := none, branches := [], nextBranch := 0
      sel := none, selAt := 0, committed := false, later := [], brkAt := none, waitOn := none, owed := none, under := false, startOff := 0, lead := 0 }) s

/-- The primary port that an alternate leaves behind: what its chain still names stays loaded (R210, Table 05-10). -/
def keepChain (next : BitVec 13) (prim : List PortSeg) : List PortSeg := prim.dropWhile fun p => p.idx != next

/-- The primary chain goes on from a segment: after the alternate with what its chain still names, after a BRANCH anew (R210, R220).  A STREAM at the old
head leaves the stream buffer (R243). -/
def newChain (prim : List PortSeg) (q : Seq) : Seq :=
  { (if prim.head? = q.prim.head? then q else dropAhead q) with prim, primEmpty := false }

/-- The device finds a port not READY or EMPTY at a boundary (R218, R219). -/
def portMissing (v : VoiceId) (s : State) : State := markVoice v .seq (recordVoice 0x3209 v s)

/-- The segment that a port holds. -/
def portHead (q : Seq) : WaitPort → Option PortSeg
  | .primary => q.prim.head?
  | .alternate => q.alt
  | .branch k => tabFind k q.branches

/-- A port gives up the segment that a boundary takes. -/
def leavePort (p : PortSeg) (q : Seq) : WaitPort → Seq
  | .primary => { q with prim := q.prim.drop 1 }
  | .alternate => newChain (keepChain (descNext p.desc) q.prim) { q with alt := none }
  | .branch k => newChain [] { q with branches := tabDel q.branches k }

/-- A boundary at an instant takes a port (R210, R218, R219). -/
def takePort (v : VoiceId) (w : WaitPort) (at_ : Fine) (s : State) : State :=
  match portHead (getSeq s v) w with
  | none => goIdle v (portMissing v s)
  | some p =>
    match p.state with
    | .loading =>
      portMissing v (modSeq v (fun q =>
        { countDiscard q.play.words.length q with
          state := .waiting, waitOn := some w, segTime := at_, brkAt := none, under := false, play := {}, events := satInc q.events }) s)
    | .ready => startSegment v p at_ (modSeq v (fun q => leavePort p q w) s)

/-- Set the flags of the rider whose last FORK settles here (R400). -/
def settleFork (v : VoiceId) (fk : Fork) (tookAlt late : Bool) (s : State) : State :=
  { s with riders := (tabMod {} s.riders fk.rider fun r =>
      if r.forkVoice = some (voiceKey v) then { r with flags := { r.flags with alt := tookAlt, late }, forkVoice := none } else r) }

/-- A conditional release of a rider's shot enters its latency word (R111, R112): latency in samples. -/
def countRelease (rider : Nat) (trot noAnchor hub : Bool) (samples : Nat) (s : State) : State :=
  { s with riders := (tabMod {} s.riders rider fun r =>
      if r.shot.active then
        let x := r.shot
        let longest := decide (x.releases = 0) || decide (x.maxLat < samples)
        { r with shot := { x with
            releases := x.releases + 1
            maxLat := max x.maxLat samples
            trot := if longest then trot else x.trot
            noAnchor := if longest then noAnchor else x.noAnchor
            hub := x.hub || hub } }
      else r) }

/-- The achieved latency of a release in samples (R112, R180), to the first sample of a successor that starts at an instant: from the anchor, or in
Gallop without one from the consumption of the token.  A release that names no anchor and met no token counts from the boundary (DESIGN CHOICE, log entry
149: R112 names no start for it).  A successor that leaves before its anchor, as a missed Trot fork's may, has latency 0 (DESIGN CHOICE, log entry 180:
R112 gives no negative latency). -/
def releaseLatency (s : State) (v : VoiceId) (fk : Fork) (at_ : Fine) : Nat :=
  (leavesAt s v at_ - fk.anchor.getD (match fk.gait with | .trot => at_ | .gallop => fk.consumedAt.getD at_)) / 16

/-- A fork's release enters its shot's latency word, its successor starting at an instant (R112). -/
def countFork (v : VoiceId) (fk : Fork) (at_ : Fine) (s : State) : State :=
  countRelease fk.rider (fk.gait == .trot) fk.anchor.isNone fk.hub (releaseLatency s v fk at_) s

/-- The successor of a release leaves behind its boundary: in Gallop by the whole beats of that shot's synthesis and the 8 ns of DAC and output (R84), in
Trot by nothing (R87). -/
def setLead (v : VoiceId) (gait : GaitKind) (s : State) : State :=
  match gait with
  | .trot => modSeq v (fun q => { q with lead := 0 }) s
  | .gallop => let k := (Config.synthesisBeats s.freeCtr).val; freshen (modSeq v (fun q => { q with lead := k + 12 }) s)

/-- A fork ends on a port (R229, R233, R400): its flags settle, the voice takes the port, and the release counts, at once or when the port that it
waits for is READY (R112).  The release of a fork that its rider's stop disarmed is no conditional release. -/
def endFork (v : VoiceId) (fk : Fork) (alt : Bool) (at_ : Fine) (s : State) : State :=
  let s := settleFork v fk alt (fk.late || fk.missed) s
  let w : WaitPort := if alt then .alternate else .primary
  let waits := decide (((portHead (getSeq s v) w).map (·.state)) = some .loading)
  let s := if fk.disarmed ∨ fk.missed then s else setLead v fk.gait s
  let s := if fk.disarmed ∨ waits then s else countFork v fk at_ s
  let s := takePort v w at_ (modSeq v (fun q => { q with fork := none }) s)
  if waits ∧ !fk.disarmed then modSeq v (fun q => { q with owed := some fk }) s else s

/-- Since when the port that a selection takes has been READY. -/
def portSince (q : Seq) (w : WaitPort) : Fine := ((portHead q w).map (·.readyAt)).getD 0

/-- The instant from which the selection in hand can end a HOLD: its grant, and its port READY (R227). -/
def selSince (q : Seq) : Fine :=
  max q.selAt (match q.sel with | some (.alt, _) => portSince q .alternate | some (.branch k, _) => portSince q (.branch k) | _ => 0)

/-- Whether the port that a selection takes is READY (R222). -/
def selReady (q : Seq) : Selection → Bool
  | .alt => (q.alt.map (·.state)) == some .ready
  | .branch k => ((tabFind k q.branches).map (·.state)) == some .ready
  | .stop => true
  | .break_ => true

/-- A late selection is counted and recorded once (R224). -/
def countLate (v : VoiceId) (s : State) : State := recordVoice 0x0201 v (modSeq v (fun q => { q with late := satInc q.late }) s)

/-- Of selections that wait from an earlier boundary, the first whose port is READY goes first (R224: each takes effect at the first
boundary that it meets). -/
def preferReady (q : Seq) : Seq :=
  match q.sel with
  | some (x, true) =>
    if selReady q x then q
    else
      match q.later.span fun y => !selReady q y with
      | (pre, y :: post) => { q with sel := some (y, true), later := x :: pre ++ post }
      | (_, []) => q
  | _ => q

/-- The selection of the coming boundary is judged (R222, R224): in time and READY it stays; otherwise it is late and waits.  A BREAK was judged at its
grant where it moves the boundary; one that comes late to a last repetition has no effect beyond its count. -/
def judge (v : VoiceId) (inTime : Bool) (s : State) : State :=
  let s := if inTime then modSeq v preferReady s else s
  let q := getSeq s v
  match q.sel with
  | none => modSeq v (fun q => { q with committed := true }) s
  | some (x, counted) =>
    if (inTime ∨ q.brkAt.isSome) ∧ selReady q x then modSeq v (fun q => { q with committed := true }) s
    else
      let s := modSeq v (fun q =>
        { q with sel := none, selAt := 0, committed := true, later := if x = .break_ ∧ !counted then q.later else x :: q.later }) s
      if counted then s else countLate v s

/-- The end of a segment in beats after its start, as a BREAK may have moved it. -/
def segEnd (q : Seq) : Option Nat :=
  match segBeats q.desc with
  | none => none
  | some n => some (match q.brkAt with | some r => min n ((r + 1) * descLength q.desc) | none => n)

/-- The instant of a boundary: the scheduled end of a PLAY or STREAM, or of a HOLD that runs out; otherwise the present beat boundary. -/
def boundaryAt (s : State) (q : Seq) (natural : Bool) : Fine :=
  match natural, segEnd q with
  | true, some n => q.segTime + n * fineBeat
  | _, _ => beatNow s

/-- The voice takes the committed selection, stops, or takes its default successor (R210, R222, R226). -/
def takeSuccessor (v : VoiceId) (at_ : Fine) (s : State) : State :=
  let q := getSeq s v
  match q.sel with
  | some (.stop, _) => goIdle v s
  | some (.alt, _) => takePort v .alternate at_ (modSeq v promote s)
  | some (.branch k, _) => takePort v (.branch k) at_ (modSeq v promote s)
  | _ => if descStop q.desc then goIdle v s else takePort v .primary at_ (modSeq v promote s)

/-- Idle voices with a fork still armed settle it as not taken (R399, R400). -/
def settleOpenFork (v : VoiceId) (s : State) : State :=
  match (getSeq s v).fork with
  | some fk => settleFork v fk false (decide (fk.gait = .trot)) s
  | none => s

/-- What a HOLD's end by itself does to an armed fork, and what the rider must be told. -/
inductive ForkEnd where
  | none
  | gallopHoldEnd (rider : Nat)
  deriving DecidableEq, Repr

/-- A fork takes its boundary ahead of a committed selection, which is held (R233). -/
def holdSelection (v : VoiceId) (s : State) : State :=
  match (getSeq s v).sel with
  | some (x, _) => countVoice v (modSeq v (fun q => { q with sel := none, selAt := 0, later := x :: q.later }) s)
  | none => s

/-- A Trot fork is missed (R233). -/
def missFork (v : VoiceId) (s : State) : State :=
  let s := modSeq v (fun q => { q with missed := satInc q.missed, fork := q.fork.map fun fk => { fk with missed := true, latched := true } }) s
  markVoice v .missed (recordVoice 0x3206 v s)

/-- A fork ends ahead of a selection committed for its boundary, which is held (R233). -/
def forkTakes (v : VoiceId) (fk : Fork) (alt : Bool) (at_ : Fine) (s : State) : State := endFork v fk alt at_ (modSeq v promote (holdSelection v s))

/-- A boundary of a PLAY or STREAM segment at an instant (R210, R222, R233). -/
def playBoundary (v : VoiceId) (at_ : Fine) (s : State) : State :=
  let s := if (getSeq s v).committed then s else judge v false s
  match (getSeq s v).fork with
  | some fk => if fk.missed ∨ fk.disarmed then forkTakes v fk (fk.chosen = some true && !fk.disarmed) at_ s else takeSuccessor v at_ s
  | none => takeSuccessor v at_ s

/-- A Trot fork whose HOLD ended before its latch point without a token: its rider stays FORKED until a token comes or the latch point passes (R400). -/
def spendFork (v : VoiceId) (fk : Fork) (s : State) : State :=
  if fk.chosen = none ∧ !fk.latched then modSeq v (fun q => { q with spent := q.spent ++ [{ fk with missed := true }] }) s else s

/-- A HOLD reaches the end of its last repetition (R212, R234).  A Gallop fork whose token was consumed, but whose port is still LOADING there, resolves to
the primary port like one without a token (DESIGN CHOICE, log entry 182: R231 would have the HOLD go on, R234 speaks of no token). -/
def holdEnd (v : VoiceId) (at_ : Fine) (s : State) : State × ForkEnd :=
  match (getSeq s v).fork with
  | some fk =>
    if fk.disarmed ∨ fk.timedOut ∨ fk.missed then (forkTakes v fk (fk.chosen = some true && !fk.disarmed && !fk.timedOut) at_ s, .none)
    else
      match fk.gait with
      | .gallop => (forkTakes v fk false at_ (recordVoice 0x0208 v s), .gallopHoldEnd fk.rider)
      | .trot => (spendFork v fk (forkTakes v { fk with missed := true } (fk.chosen = some true) at_ (missFork v s)), .none)
  | none => (takeSuccessor v at_ (judge v false s), .none)

/-- The port that a Gallop release takes is not LOADING, so that the release need not wait for it (R231); an EMPTY port is taken too (R219). -/
def portSettled (q : Seq) (alt : Bool) : Bool := ((portHead q (if alt then .alternate else .primary)).map (·.state)) != some .loading

/-- What an armed fork does at a beat boundary of its HOLD: a release (R229, R231), or the end of one that its rider's stop or deadline, or its latch point,
has settled; none while it waits. -/
def forkAtHold (v : VoiceId) (at_ : Fine) (s : State) : Option State :=
  let q := getSeq s v
  match q.fork with
  | some fk =>
    if fk.disarmed ∨ fk.timedOut then some (forkTakes v fk false at_ s)
    else if fk.missed then some (forkTakes v fk (fk.chosen = some true) at_ s)
    else
      match fk.gait, fk.chosen with
      | .gallop, some alt => if portSettled q alt then some (forkTakes v fk alt at_ s) else none
      | _, _ => none
  | none => none

/-- What a selection does at a beat boundary of a HOLD (R227): a STOP or BREAK, or one whose port is READY, ends it; none while it waits. -/
def selAtHold (v : VoiceId) (at_ : Fine) (s : State) : Option State :=
  let q := getSeq s v
  if (match q.sel with | some (x, _) => selReady q x | none => false) then some (takeSuccessor v at_ s) else none

/-- What ends a HOLD at a beat boundary before its length does (R212, R227, R229 to R231): a release, or a selection. -/
def holdCut (v : VoiceId) (at_ : Fine) (s : State) : Option State :=
  let s := modSeq v preferReady s
  (forkAtHold v at_ s).or (selAtHold v at_ s)

/-- A boundary of a HOLD (R212): one that ends it early, or the end of its last repetition. -/
def holdBoundary (v : VoiceId) (s : State) : State × ForkEnd :=
  let q := getSeq s v
  match holdCut v (boundaryAt s q false) s with
  | some s => (s, .none)
  | none => if (segBeats q.desc).isSome then holdEnd v (boundaryAt s q true) s else (s, .none)

/-- SEGMENT_BOUNDARY at a voice (R210). -/
def segmentEnd (v : VoiceId) (s : State) : State × ForkEnd :=
  let q := getSeq s v
  match q.state with
  | .play => (playBoundary v (boundaryAt s q true) s, .none)
  | .stream => (playBoundary v (boundaryAt s q true) s, .none)
  | .hold => holdBoundary v s
  | _ => (s, .none)

/-! ## Posts (Table 05-3) -/

/-- A post to a voice: the operation and its operands. -/
inductive Post where
  | start (desc : BitVec 13) (at_ : Word64)
  | loadAlt (desc : BitVec 13)
  | selectAlt
  | branch (desc : BitVec 13)
  | break_
  | stop
  deriving DecidableEq, Repr

/-- What refuses a post (R209, R217, R228, R244). -/
def postCode (s : State) (v : VoiceId) (p : Post) : Option Code :=
  let q := getSeq s v
  if !voiceServed s v then some 0x1204
  else
    match p with
    | .start _ t =>
      if q.state ≠ .idle ∨ q.start.isSome then some 0x1204
      else if !schedValid t ∨ schedToFine t < s.clock.sched + 8 * fineBeat then some 0x120A
      else none
    | .loadAlt d => if isStream (descAt s v.stall d) then some 0x1202 else none
    | _ => if q.state = .idle then some 0x1204 else none

/-- A boundary selection is granted (R222 to R227): for the coming boundary, or held behind another, or late past the commit point. -/
def postSelection (v : VoiceId) (x : Selection) (s : State) : State :=
  let q := getSeq s v
  if q.committed then countLate v (modSeq v (fun q => { q with later := q.later ++ [x] }) s)
  else
    match q.sel with
    | none => modSeq v (fun q => { q with sel := some (x, false), selAt := s.clock.sched }) s
    | some _ => countVoice v (modSeq v (fun q => { q with later := q.later ++ [x] }) s)

/-- The beats left in the repetition in play, by the clock. -/
def beatsLeft (s : State) (q : Seq) : Nat := (q.rep.toNat + 1) * descLength q.desc - (s.clock.sched - q.segTime) / fineBeat

/-- A BREAK is granted: a boundary selection like any other (R220, R226), which moves its boundary (R213, R224): to the end of the repetition in play,
where 8 beats of it are left, otherwise, late, to the end of the next one.  Granted past the commit point of the last repetition it only counts.  On a
voice that waits for a port it waits for its segment (log entry 150). -/
def postBreak (v : VoiceId) (s : State) : State :=
  let q := getSeq s v
  let inPlay := (decide (q.state = .play) || decide (q.state = .stream)) && decide (q.rep.toNat < descRepeat q.desc)
  if q.committed then countLate v s
  else if inPlay ∧ q.sel.isNone then
    if 8 ≤ beatsLeft s q then modSeq v (fun q => { q with brkAt := some q.rep.toNat }) (postSelection v .break_ s)
    else countLate v (modSeq v (fun q => { q with sel := some (.break_, true), selAt := s.clock.sched, brkAt := some (q.rep.toNat + 1) }) s)
  else postSelection v .break_ s

/-- A post takes effect at its grant (R220). -/
def applyPost (v : VoiceId) (p : Post) (s : State) : State :=
  match p with
  | .start d t =>
    modSeq v (fun q =>
      { q with start := some (d, schedToFine t), prim := [{ idx := d, desc := 0, state := .loading }], primEmpty := false }) s
  | .loadAlt d => modSeq v (fun q => { q with alt := some { idx := d, desc := 0, state := .loading } }) s
  | .selectAlt => postSelection v .alt s
  | .branch d =>
    postSelection v (.branch (getSeq s v).nextBranch) (modSeq v (fun q =>
      { q with branches := tabSet q.branches q.nextBranch { idx := d, desc := 0, state := .loading }, nextBranch := q.nextBranch + 1 }) s)
  | .break_ => postBreak v s
  | .stop => postSelection v .stop s

/-! ## Output switches (Table 04-2) -/

/-- At least a time has passed since an instant, or there was no such instant. -/
def quietFor (d : Fine) (from_ : Option Fine) (s : State) : Bool := from_.all fun t => decide (t + d ≤ s.clock.now)

/-- The sum of a drive or probe slice has been zero for at least 2 frames (R42, R189; log entry 153). -/
def voicesSilent (s : State) (i : SliceId) : Bool := quietFor (2 * fineFrame) (getSlice s i).loudTo s

/-- A spare makes the output or the live results of the slice that it names: it carries it, or A4 serves it during a calibration (R40, R47). -/
def standsFor (x : Spare) : Bool := carries x || x.live

/-- The slice whose registers the events of a converter act on (R40, R47, R194): those of a spare on the slice that it stands for, those of a slice that
a spare stands for on none. -/
def logical (s : State) (i : SliceId) : Option SliceId :=
  let sp := spareOf (getStall s i.stall) i.kind
  if isSpare i then (if standsFor sp then (fin? 9 sp.target.toNat).map fun k => { i with idx := k } else none)
  else if standsFor sp ∧ sp.target.toNat = i.idx.val then none
  else some i

/-- The acquisition slice on whose registers an event of a converter acts (R194, R248). -/
def logicalAcq (s : State) (n : StallId) (k : Fin 5) : Option (Fin 5) :=
  (logical s ⟨n, .acq, k.castLE (by omega)⟩).bind fun i => fin? 5 i.idx.val

/-- Do an event of a converter to the slice on whose registers it acts, where it has one (R194, R248). -/
def onAcq (n : StallId) (k : Fin 5) (f : Fin 5 → State → State) (s : State) : State :=
  match logicalAcq s n k with
  | some k => f k s
  | none => s

/-- The port starts to open, where the slice is not faulted and the stall does not run on factory trims (R190, R640).  A slice whose fault bit is 1 but
which a spare carries counts as not faulted here (DEDUCED, log entry 181: R196 opens its port at the takeover). -/
def openPort (i : SliceId) (s : State) : State :=
  let x := getSlice s i
  if x.port = .terminated ∧ x.portEn ∧ (!x.fault ∨ carried s i) ∧ !(getStall s i.stall).factoryHold ∧ !isSpare i then
    modSlice i (fun x => { x with port := .opening, portAt := s.clock.now }) s
  else s

/-- The port is terminated. -/
def closePort (i : SliceId) (s : State) : State := modSlice i (fun x => { x with port := .terminated, portAt := s.clock.now }) s

/-- Every port of a stall is terminated. -/
def closePorts (n : StallId) (s : State) : State := forEach (stallSlices n) closePort s

/-- Every voice of a stall goes idle at once, and its output falls silent (R193, R244). -/
def idleVoices (n : StallId) (s : State) : State :=
  forEach (stallVoices n) (fun v s =>
    let q := getSeq s v
    let s := if (getVoice s v).beats.isEmpty then s else modVoice v (fun x => { x with beats := [] }) s
    if q.state = .idle ∧ q.start.isNone ∧ q.alt.isNone ∧ q.prim.isEmpty ∧ q.fork.isNone then s
    else modSeq v (fun q => { q with start := none, fork := none }) (goIdle v (settleOpenFork v s))) s

end Sys2Proof.Machine
end

