-- ==== Sys2Proof/Machine/Synth.lean ====
section
/-!
DEFINITION. The synthesis of chapter 4: the carrier, the term of a voice, the sum of a slice, its DAC code, and the marker outputs of a stall.
-/

namespace Sys2Proof.Machine

open Sys2Proof

/-- The carrier phase at DAC sample n of the epoch, which depends on ftw and n alone (R160), in 2^-48 turn. -/
def carrierPhase (ftw : BitVec 48) (n : Nat) : BitVec 48 := BitVec.ofNat 48 (n * ftw.toNat)

/-- theta of sample n: the carrier and the phase phi of the tuning in force, which no delay shifts (R159, R179). -/
def theta (x : Tuning) (n : Nat) : BitVec 48 := carrierPhase x.ftw n + (phi x ++ 0#32)

/-- Beats over which the interpolating bank reaches.  The manual gives no length (DESIGN CHOICE, log entry 154). -/
def interpBeats : Nat := 32

/-- The taps of the interpolating bank at a phase, in units of 2^-16, that of the beat in play first: for a steady envelope their sum is 1 within 0.05 dB
(R181). -/
def interpCoefs (phase : Nat) : List Int :=
  let rest := (List.range (interpBeats - 1)).map fun k => Config.interpTap phase (k + 1)
  (65536 - 376 + (Config.interpGain phase).val - rest.sum) :: rest

/-- The envelope sample that a voice plays at an instant, 0 where it plays none. -/
def envAt (s : State) (v : VoiceId) (t : Int) : Int × Int :=
  match (if 0 ≤ t then beatAt s v t.toNat else none) with
  | some b => (b.i.toInt, b.q.toInt)
  | none => (0, 0)

/-- i[n] and q[n]: the beats of a voice, delayed, interpolated by 16 (R159, R181), in units of 2^-31. -/
def envSample (s : State) (v : VoiceId) (t : Fine) (b : Beat) : Int × Int :=
  (interpCoefs ((t - b.at_) % fineBeat)).zipIdx.foldl (fun acc h =>
    let e := envAt s v ((t : Int) - h.2 * fineBeat)
    (acc.1 + h.1 * e.1, acc.2 + h.1 * e.2)) (0, 0)

/-- The term of a voice at sample n (R159), in units of 2^-142, under the tuning of the segment that plays the sample (R167; DEDUCED, log entry 179);
0 in a beat that it does not play (R165), and in a state in which no voice plays (R193). -/
def voiceTerm (s : State) (v : VoiceId) (n : Nat) : Int :=
  match (if voiceServed s v then beatAt s v (n * 16) else none) with
  | some b =>
    let e := envSample s v (n * 16) b
    let cs := cosSin (theta b.tune n ++ 0#1)
    b.tune.scale.toNat * (e.1 * cs.1 - e.2 * cs.2)
  | none => 0

/-- The sum of a slice at sample n, over the voices bound to it (R171, R187), in units of 2^-157. -/
def sliceSum (s : State) (i : SliceId) (n : Nat) : Int :=
  (getSlice s i).scale.toNat * ((boundVoices s i).map fun v => voiceTerm s v n).sum

/-- round(s[n] × 8,192) (R171); a half rounds up (DESIGN CHOICE, log entry 154). -/
def sumCode (s : State) (i : SliceId) (n : Nat) : Int := (sliceSum s i n + 2 ^ 143) / 2 ^ 144

/-- The rounded sum, limited to 14 bits (R171, R172). -/
def guardedCode (s : State) (i : SliceId) (n : Nat) : Int := max (-8192) (min 8191 (sumCode s i n))

/-- The DAC code: the guarded sum, and 0 in a beat in which the slice's gate ran empty (R76). -/
def dacCode (s : State) (i : SliceId) (n : Nat) : Int :=
  let x := getSlice s i
  if x.zeroFrom ≤ n * 16 ∧ n * 16 < x.zeroTo then 0 else guardedCode s i n

/-- The sum guard sets the code of a sample to a limit (R172). -/
def clips (s : State) (i : SliceId) (n : Nat) : Bool := guardedCode s i n != sumCode s i n

/-- A stall's marker outputs may be high: it is RIDING or RESTING and does not run on factory trims (R185, R193, R640). -/
def markersLive (s : State) (n : StallId) : Bool :=
  (decide ((getStall s n).life = .riding) || decide ((getStall s n).life = .resting)) && !(getStall s n).factoryHold

/-- The level of marker output Mk of a stall at an instant of the beat in progress (R184, R185): the routed bit with its polarity; low without a route,
outside RIDING and RESTING, and while the port of the voice's slice is not OPEN. -/
def markerOut (s : State) (n : StallId) (k : Fin 4) (t : Fine) : Bool :=
  let m := tabGet {} (imageOf s n).markers k.val
  let v : VoiceId := ⟨n, m.probe, m.voice⟩
  let open_ := (voiceSlice s v).any fun i => decide ((getSlice s i).port = .open_)
  m.enable && markersLive s n && open_ && ((marksAt s v t).getLsbD m.bit.val != m.polarity)

end Sys2Proof.Machine
end

