-- ==== Sys2Proof/Machine/Demod.lean ====
section
/-!
DEFINITION. Down-conversion and the channel filter (R252 to R256): from the ADC codes of a slice to the decimated samples of a channel.
-/

namespace Sys2Proof.Machine

open Sys2Proof

/-- The ADC code x[m], of 12 bits (R252): that of the command, or a free value. -/
def adcAt (sig : Signal) (n : StallId) (k : Fin 5) (m : Int) : Int :=
  let given := if 0 ≤ m ∧ sig.codesFrom ≤ m.toNat then sig.codes[m.toNat - sig.codesFrom]? else none
  max (-2048) (min 2047 (given.getD (Config.adcCode n.val k.val m)))

/-- The frequency word and phi of a voice that were in force at an instant. -/
def tuningAt (s : State) (v : VoiceId) (t : Int) : BitVec 48 × BitVec 16 :=
  let x := getVoice s v
  match (x.was.filter fun e => decide (t < e.1)).getLast? with
  | some e => e.2
  | none => (x.tune.ftw, phi x.tune)

/-- theta of a voice at ADC sample m, which is DAC sample position 1.5 m (R252), in 2^-49 turn. -/
def thetaAdc (s : State) (v : VoiceId) (m : Int) : BitVec 49 :=
  let y := tuningAt s v (m * 24)
  BitVec.ofInt 49 (3 * m * y.1.toNat) + (y.2 ++ 0#33)

/-- u[m] = x[m] exp(-j theta), mixed with the carrier of the paired probe voice (R252), in units of 2^-96. -/
def mixed (s : State) (c : ChanId) (k : Fin 5) (sig : Signal) (m : Int) : Int × Int :=
  let cs := cosSin (thetaAdc s ⟨c.stall, true, (chanBind s c).probe⟩ m)
  let x := adcAt sig c.stall k m
  (x * cs.1, -(x * cs.2))

/-- Taps of a filter mode (Table 06-1). -/
def filterTaps (mode : BitVec 2) : Nat := match mode with | 0 => 192 | 1 => 384 | _ => 768

/-- The alignment g of a filter mode, which centres its taps on the 64 samples of the frame (R252). -/
def filterAlign (mode : BitVec 2) : Nat := 31 + filterTaps mode / 2

/-- The filter mode and the rotation of a channel in force in a frame. -/
def modeAt (s : State) (c : ChanId) (frame : Nat) : BitVec 2 × BitVec 16 :=
  let x := getChan s c
  match (x.was.filter fun e => decide (frame < e.1)).getLast? with
  | some e => e.2
  | none => (x.filterOn, x.planes.rot)

/-- The taps h of a filter mode, in units of 2^-32: their sum is 16 within 2 %, so that a sinusoid at the carrier with full-scale peaks gives 16,384
(R254). -/
def filterCoefs (mode : BitVec 2) : List Int :=
  let rest := (List.range (filterTaps mode - 1)).map fun i => Config.filterTap mode (i + 1)
  (2 ^ 36 - 1374389534 + (Config.filterGain mode).val - rest.sum) :: rest

/-- The converter that makes the live results of a channel: its slice, or A4 where it stands for that slice (R40, R47); none of an unbound channel. -/
def liveConverter (s : State) (c : ChanId) : Option (Fin 5) :=
  let sp := (getStall s c.stall).spareAcq
  if standsFor sp ∧ sp.target = (chanBind s c).slice then some 4 else fin? 5 (chanBind s c).slice.toNat

/-- y[k] of a frame from a converter's codes (R252), in units of 2^-128: the sum over the taps; 0 without a converter. -/
def filterOut (s : State) (c : ChanId) (conv : Option (Fin 5)) (sig : Signal) (frame : Nat) : Int × Int :=
  match conv with
  | none => (0, 0)
  | some k =>
    let mode := (modeAt s c frame).1
    (filterCoefs mode).zipIdx.foldl (fun acc h =>
      let u := mixed s c k sig ((64 * frame + filterAlign mode : Nat) - (h.2 : Int))
      (acc.1 + h.1 * u.1, acc.2 + h.1 * u.2)) (0, 0)

/-- A component of yr, of 16 bits (R254), from units of 2^-224. -/
def roundYr (x : Int) : Int :=
  let q := x / 2 ^ 224
  max (-32768) (min 32767 (if x % 2 ^ 224 = 0 ∨ !Config.roundsUp x then q else q + 1))

/-- yr = y exp(-j 2 pi rot / 2^16) (R252): exact at the quarter turns, elsewhere up to its rounding. -/
def rotate (rot : BitVec 16) (y : Int × Int) : Int × Int :=
  let cs := cosSin (rot ++ 0#33)
  (roundYr (y.1 * cs.1 + y.2 * cs.2), roundYr (y.2 * cs.1 - y.1 * cs.2))

/-- yr[k] of a channel in a frame (R252). -/
def yrAt (s : State) (c : ChanId) (sig : Signal) (frame : Nat) : Int × Int := rotate (modeAt s c frame).2 (filterOut s c (liveConverter s c) sig frame)

end Sys2Proof.Machine
end

