-- ==== Sys2Proof/Machine/ReinOps.lean ====
section
/-!
DEFINITION. What happens inside the rein fabric (chapter 8): who consumes a channel, how a token is issued, how a copy is dropped and
counted, and how a buckle cell evaluates, filters and issues.
-/

namespace Sys2Proof.Machine

open Sys2Proof

/-- A stall's node takes and issues tokens (R68, R69, R348): in RIDING, and in RESTING, which ends when every rider has stopped. -/
def nodeActive (s : State) (n : StallId) : Bool :=
  match (getStall s n).life with
  | .riding => true
  | .resting => true
  | _ => false

/-- Every rider of a stall has stopped. -/
def allStopped (s : State) (n : StallId) : Bool := (stallRiders n).all fun r => (getRider s r).state == .stopped

/-- The cells of a stall's node evaluate: in RIDING, and in RESTING until every rider of the stall has stopped (R348). -/
def cellsRun (s : State) (n : StallId) : Bool := nodeActive s n && !(decide ((getStall s n).life = .resting) && allStopped s n)

/-- Where a consumer sits (Table 08-4). -/
def consumerPlace : Consumer → Place
  | .taskInput r _ => .node r.stall
  | .cellInput (.node n _) _ => .node n
  | .cellInput (.hub _ _) _ => .hub
  | .capture n _ => .node n
  | .blank c => if h : c.val < 80 then .node ⟨c.val / 10, by omega⟩ else .hub
  | .egress _ => .hub
  | .tally => .hub

/-- The comparator of a number: 10 per stall, then the spine's. -/
def cmpOfIdx (c : Fin 96) : CmpId :=
  if h : c.val < 80 then .stall ⟨c.val / 10, by omega⟩ ⟨c.val % 10, by omega⟩ else .spine ⟨c.val - 80, by omega⟩

/-- The owner that R360 compares with the channel's. -/
def consumerOwner (s : State) : Consumer → Owner
  | .taskInput r _ => (riderBind s r).owner
  | .cellInput c _ => cellOwner s c
  | .capture n u => ((getUnit s ⟨n, u⟩).owner).getD 0
  | .blank _ => 0
  | .egress _ => 0
  | .tally => 15

/-- A consumer may take a copy (R360); a lane carries what its route names, whoever owns it. -/
def mayConsume (s : State) (e : ReinChan) (c : Consumer) : Bool :=
  let a := chanAttr s e
  match c with
  | .egress _ => decide (a.owner.val ≠ 15)
  | _ =>
    let o := consumerOwner s c
    decide (o = a.owner) || (decide (a.owner.val = 0) && a.ten && decide (o.val < 15)) || (decide (o.val = 0) && decide (a.owner.val ≠ 15))

/-- The inputs of a cell's image, numbered. -/
def cellInputs (i : CellImage) : List (Nat × CellInput) := i.inputs.zipIdx.map fun x => (x.2, x.1)

/-- The cells of a wiring whose inputs read a source. -/
def readersOf (cells : Tab CellImage) (src : CellSource) : List (Nat × Fin 6) :=
  cells.flatMap fun c => (cellInputs c.2).filterMap fun i =>
    if i.2.source = src then (fin? 6 i.1).map fun k => (c.1, k) else none

/-- The consumers of a channel, by the images in force (R326). -/
def consumersOf (s : State) (e : ReinChan) : List Consumer :=
  let stalls := List.finRange 8
  let riders := stalls.flatMap fun n => (stallRiders n).flatMap fun r =>
    (riderBind s r).subs.filterMap fun t => if t.2.contains e then (fin? 4 t.1).map fun k => Consumer.taskInput r k else none
  let nodeCells := stalls.flatMap fun n => (readersOf (imageOf s n).node.cells (.chan e)).filterMap fun c =>
    (fin? 256 c.1).map fun b => Consumer.cellInput (.node n b) c.2
  let units := stalls.flatMap fun n => (List.finRange 4).filterMap fun u =>
    let x := getUnit s ⟨n, u⟩
    if x.armed ∧ x.arm.trigSrc = 2 ∧ x.arm.trigObj = e then some (Consumer.capture n u) else none
  let blanks := (List.finRange 96).filterMap fun c =>
    let w := (getWatch s (cmpOfIdx c)).cfg
    if w.blankSrc = 2 ∧ w.chan = e then some (Consumer.blank c) else none
  let hubCells := (readersOf (hubWiring s).cells (.chan e)).filterMap fun c => (fin? 1024 c.1).map fun b => Consumer.cellInput (.hub false b) c.2
  let lanes := ((tabFind e.toNat (herd s).routes).map fun r => [Consumer.egress r.primary]).getD []
  let sealed := if 4064 ≤ e.toNat then [Consumer.tally] else []
  riders ++ nodeCells ++ units ++ blanks ++ hubCells ++ lanes ++ sealed

/-- Whether new tokens enter a plane. -/
def entryA (s : State) : Bool := s.hub.planeA.entry
def entryB (s : State) : Bool := s.hub.planeB.entry

/-- A copy is dropped and counted as overrun-dropped in its channel's book. -/
def bookOverrun (e : ReinChan) (k : Nat) (s : State) : State := modBook e (fun b => { b with overrun := b.overrun + k }) s

/-- Remove a copy from the fabric. -/
def dropFlight (i : Nat) (s : State) : State := { s with flights := tabDel s.flights i }

/-- A copy is dropped at the hop limit (R334): in the hub's count or a node's. -/
def loopDrop (p : Place) (e : ReinChan) (s : State) : State :=
  let s := modBook e (fun b => { b with loop := b.loop + 1 }) s
  match p with
  | .node n => record 0x3641 n.val (chanAttr s e).owner (reinObject e) 0 (modNode n (fun x => { x with loop := satInc x.loop }) s)
  | .hub => record 0x3641 8 (chanAttr s e).owner (reinObject e) 0 (setHub (fun h => { h with loop := satInc h.loop }) s)

/-- A copy finds no plane in service (R366). -/
def noRouteDrop (e : ReinChan) (s : State) : State :=
  record 0x3647 8 (chanAttr s e).owner (reinObject e) 0
    (setHub (fun h => { h with noRoute := satInc h.noRoute }) (bookOverrun e 1 s))

/-- Put a copy into the fabric. -/
def addFlight (fl : Flight) (s : State) : State :=
  { s with flights := tabSet s.flights s.nextFlight fl, nextFlight := s.nextFlight + 1 }

/-- A copy stands in the planes that take new tokens, or is dropped when none does (R362, R366). -/
def planeFlight (tok : Token) (src : Place) (port : Nat) (dst : Consumer) (s : State) : State :=
  if entryA s || entryB s then
    addFlight { tok, src, port, dst, stage := .planes, a := if entryA s then some tok else none, b := if entryB s then some tok else none } s
  else noRouteDrop tok.chan s

/-- One copy of an issued token starts its way (R328, R330). -/
def startCopy (tok : Token) (src : Place) (port : Nat) (dst : Consumer) (s : State) : State :=
  let s := modBook tok.chan (fun b => { b with issued := b.issued + 1 }) s
  match src with
  | .hub => planeFlight tok src port dst s
  | .node _ =>
    if consumerPlace dst = src then addFlight { tok, src, port, dst, stage := .local_ } s
    else addFlight { tok, src, port, dst, stage := .hubLink } s

/-- A token enters the fabric: one copy for each consumer (R328). -/
def enterFabric (tok : Token) (src : Place) (port : Nat) (s : State) : State :=
  forEach (consumersOf s tok.chan) (fun c s => startCopy tok src port c s) s

/-- Whether an audit holds a channel (R374). -/
def chanHeld (s : State) (e : ReinChan) : Bool := s.hub.audit.held && decide (s.hub.audit.chan = e)

/-- Tokens that a producer port keeps for a channel under audit. -/
def keptAt (s : State) (e : ReinChan) (src : Place) (port : Nat) : Nat :=
  ((getBook s e).kept.filter fun k => k.1 == src && k.2.1 == port).length

/-- A producer issues a token (R326, R376): a stall's only while its node is active (R69); an audit keeps up to 256 at each port, and one beyond them counts as
issued and dropped for each of its copies (R328). -/
def issueToken (src : Place) (port : Nat) (tok : Token) (s : State) : State :=
  let active := match src with | .node n => nodeActive s n | .hub => true
  if !active then s
  else if chanHeld s tok.chan then
    if keptAt s tok.chan src port < 256 then modBook tok.chan (fun b => { b with kept := b.kept ++ [(src, port, tok)] }) s
    else
      let k := (consumersOf s tok.chan).length
      let s := modBook tok.chan (fun b => { b with issued := b.issued + k, overrun := b.overrun + k }) s
      match src with
      | .node n => modNode n (fun x => { x with auditDrop := satInc x.auditDrop }) s
      | .hub => s
  else enterFabric tok src port s

/-- The spine transmitter issues an edge token on SEAL channel E4064 + k (R651). -/
def issueSeal (k : Nat) (value : BitVec 2) (s : State) : State :=
  issueToken .hub (0x340 + k) { chan := BitVec.ofNat 12 (4064 + k), kind := .edge, hop := 0, inv := false, value } s

/-- A copy is dropped because its consumer's stall does not ride (R68). -/
def notRidingDrop (n : StallId) (e : ReinChan) (s : State) : State :=
  record 0x064C n.val (chanAttr s e).owner (reinObject e) 0
    (modNode n (fun x => { x with notRiding := satInc x.notRiding }) (bookOverrun e 1 s))

/-- Waits at merges or at a consumer's element (R352, R354). -/
def countContend (p : Place) (waits : Nat) (s : State) : State :=
  match p with
  | .node n => modNode n (fun x => { x with contend := satAdd x.contend waits }) s
  | .hub => setHub (fun h => { h with contend := satAdd h.contend waits }) s

/-- A copy of the same channel that the same producer port issued earlier to the same consumer, at a stage that the test names (R329). -/
def behind (s : State) (i : Nat) (f : Flight) (p : Flight → Bool) : Bool :=
  s.flights.any fun e => decide (e.1 < i) && decide (e.2.tok.chan = f.tok.chan) && decide (e.2.src = f.src) && decide (e.2.port = f.port)
    && decide (e.2.dst = f.dst) && p e.2

/-- STn_REIN_FAULT captures the first fault (R336, R356). -/
def captureFault (n : StallId) (cause : BitVec 4) (e : Option ReinChan) (c : Option (BitVec 8)) (s : State) : State :=
  modNode n (fun x => if x.cause = 0 then { x with cause, chan := e, cell := c } else x) s

/-- Count a copy that finds a latch full, in its place's cause counter (R353). -/
def countBusy (p : Place) (s : State) : State :=
  match p with
  | .node n => modNode n (fun x => { x with busy := satInc x.busy }) s
  | .hub => s

/-! ## Buckle cells -/

/-- The tokens that joined input k of a cell holds. -/
def inputLatch (c : Cell) (k : Nat) : List Token := tabGet [] c.latches k

/-- The bit of a token that an input takes (R340). -/
def tokenBit (i : CellInput) (value : BitVec 2) (inv : Bool) : Bool :=
  match i.bit with
  | 0 => bit value 0
  | 1 => bit value 1
  | 2 => inv

/-- Replace bit k of the held bits. -/
def setHeldBit (b : BitVec 6) (k : Nat) (v : Bool) : BitVec 6 :=
  if v then b ||| BitVec.ofNat 6 (2 ^ k) else b &&& ~~~(BitVec.ofNat 6 (2 ^ k))

/-- A cell's number in a stall node. -/
def nodeCell : Consumer → Option (BitVec 8)
  | .cellInput (.node _ b) _ => some (BitVec.ofNat 8 b.val)
  | _ => none

/-- Numbers of the joined inputs of a cell. -/
def joinedInputs (i : CellImage) : List Nat := ((cellInputs i).filter fun x => x.2.joined).map (·.1)

/-- A token reaches input k of a cell: a held input takes its bit; a joined one latches it, two deep, and may start the join window
(R340, R345, R351).  The answer says whether the copy overran. -/
def enterInput (id : CellId) (k : Nat) (tok : Token) (s : State) : State × Bool :=
  let img := cellImage s id
  let c := getCell s id
  match img.inputs[k]? with
  | none => (s, false)
  | some i =>
    if i.joined then
      let l := inputLatch c k
      if 2 ≤ l.length then
        (modCell id (fun c => { c with overrun := true, overruns := satInc c.overruns }) s, true)
      else
        let others := (joinedInputs img).any fun j => j != k && (inputLatch c j).isEmpty
        let starts := l.isEmpty && others && c.join.isNone && decide (c.joinWin ≠ 0)
        (modCell id (fun c =>
          { c with latches := tabSet c.latches k (l ++ [tok]), join := if starts then some c.joinWin.toNat else c.join }) s, false)
    else (modCell id (fun c => { c with heldBits := setHeldBit c.heldBits k (tokenBit i tok.value tok.inv) }) s, false)

/-- The overrun of a joined input: the cause counter, and 0x3643 when the cell's flag goes from 0 to 1 (R353). -/
def inputOverrun (id : CellId) (was : Bool) (s : State) : State :=
  let stall := match id with | .node n _ => n.val | .hub _ _ => 8
  let s := countBusy (match id with | .node n _ => .node n | .hub _ _ => .hub) s
  if was then s else record 0x3643 stall (cellOwner s id) (cellObject id) 0 s

/-- A token reaches an input, with the counts of an overrun. -/
def feedInput (id : CellId) (k : Nat) (tok : Token) (s : State) : State × Bool :=
  let was := (getCell s id).overrun
  let r := enterInput id k tok s
  if r.2 then (inputOverrun id was r.1, true) else r

/-- The bit that input k gives an evaluation. -/
def inputBit (s : State) (id : CellId) (k : Nat) (i : CellInput) : Bool :=
  let c := getCell s id
  if i.joined then
    match inputLatch c k with
    | t :: _ => tokenBit i t.value t.inv
    | [] => false
  else
    match i.source with
    | .const v => v
    | .flipFlop b =>
      let src := match id with
        | .node n _ => (fin? 256 b).map fun x => CellId.node n x
        | .hub p _ => (fin? 1024 b).map fun x => CellId.hub p x
      match src with
      | some x => let f := getCell s x; tokenBit i f.ffValue f.ffInv
      | none => false
    | _ => bit c.heldBits k

/-- The index of the look-up table that the inputs form (R341). -/
def tableIndex (s : State) (id : CellId) : Nat :=
  ((cellInputs (cellImage s id)).map fun x => if inputBit s id x.1 x.2 then 2 ^ x.1 else 0).sum

/-- Entry i of a look-up table. -/
def tableEntry (t : BitVec 128) (i : Nat) : BitVec 2 := bits t (2 * (i % 64)) 2

/-- What a cell's filter does with a result (Table 08-3): the new cell, and the token to issue, if any. -/
def filterResult (img : CellImage) (c : Cell) (v : BitVec 2) (inv : Bool) (hop : BitVec 3) : Cell × Option (BitVec 2 × Bool × BitVec 3) :=
  let changed := decide (v ≠ c.outValue)
  match img.filterMode with
  | 0 => (c, some (v, inv, hop))
  | 1 =>
    match c.cand with
    | some (w, _, _) =>
      if v = w then (c, none)
      else
        let c := { c with absorbed := satInc c.absorbed }
        if changed then ({ c with cand := some (v, inv, hop), filterRun := true }, none) else ({ c with cand := none, filterRun := false }, none)
    | none => if changed then ({ c with cand := some (v, inv, hop), filterRun := true }, none) else (c, none)
  | 2 =>
    let h := (v :: c.history).take 3
    let vote (k : Nat) : Bool := decide (2 ≤ (h.filter fun x => bit x k).length)
    let m : BitVec 2 := (if vote 1 then 2 else 0) ||| (if vote 0 then 1 else 0)
    let c := { c with history := h }
    if m ≠ c.outValue then (c, some (m, inv, hop))
    else (if changed then { c with absorbed := satInc c.absorbed } else c, none)
  | _ =>
    if c.filterRun then
      let inForce := (c.cand.map (·.1)).getD c.outValue
      ({ c with cand := some (v, inv, hop), absorbed := if v ≠ inForce then satInc c.absorbed else c.absorbed }, none)
    else if changed then ({ c with cand := some (v, inv, hop), filterRun := true }, some (v, inv, hop))
    else (c, none)

/-- The cell inputs of a cell's own node or plane whose source is the cell in a given way. -/
def readersIn (s : State) (id : CellId) (src : Nat → CellSource) : List (CellId × Fin 6) :=
  match id with
  | .node n b => (readersOf (imageOf s n).node.cells (src b.val)).filterMap fun x => (fin? 256 x.1).map fun c => (.node n c, x.2)
  | .hub p b => (readersOf (hubWiring s).cells (src b.val)).filterMap fun x => (fin? 1024 x.1).map fun c => (.hub p c, x.2)

/-- The cells that read a cell's output over wires, in its own node or plane. -/
def wireReaders (s : State) (id : CellId) : List (CellId × Fin 6) := readersIn s id .cell

/-- A cell's issue: its last output, its wires to other cells; the token for its channel is answered (R344). -/
def cellIssue (id : CellId) (t : BitVec 2 × Bool × BitVec 3) (s : State) : State × Option Token :=
  let s := modCell id (fun c => { c with outValue := t.1, outInv := t.2.1, outHop := t.2.2 }) s
  let chan := (cellImage s id).chan
  let tok : Token := { chan := chan.getD 0, kind := .cell, hop := t.2.2, inv := t.2.1, value := t.1 }
  let s := forEach (wireReaders s id) (fun w s => (feedInput w.1 w.2.val tok s).1) s
  (s, chan.map fun _ => tok)

/-- The cells whose joined inputs read a cell's flip-flop, in its own node or plane. -/
def flipFlopReaders (s : State) (id : CellId) : List (CellId × Fin 6) :=
  (readersIn s id .flipFlop).filter fun x => (joinedInputs (cellImage s x.1)).contains x.2.val

/-- An evaluation stores its result in the flip-flop (R343): a held input reads what is stored, and a joined input receives it as a token (DEDUCED, log entry
191). -/
def storeFlipFlop (id : CellId) (v : BitVec 2) (inv : Bool) (hop : BitVec 3) (s : State) : State :=
  let tok : Token := { chan := 0, kind := .cell, hop, inv, value := v }
  forEach (flipFlopReaders s id) (fun w s => (feedInput w.1 w.2.val tok s).1)
    (modCell id (fun c => { c with ffValue := v, ffInv := inv }) s)

/-- One evaluation of a cell (R341 to R346): it consumes the oldest token of each joined input, updates its flip-flop and filters its
result; `inv` is forced by an expired join. -/
def evalCell (id : CellId) (forceInv : Bool) (s : State) : State × Option Token :=
  let img := cellImage s id
  let c := getCell s id
  let tokens := (joinedInputs img).filterMap fun k => (inputLatch c k).head?
  let v := tableEntry img.table (tableIndex s id)
  let inv := forceInv || tokens.any (·.inv)
  let hop := tokens.foldl (fun h t => if h.toNat < t.hop.toNat then t.hop else h) (0 : BitVec 3)
  let latches := c.latches.map fun l => (l.1, l.2.drop 1)
  let s := modCell id (fun _ => { c with latches, join := none }) s
  let s := if img.ffEn then storeFlipFlop id v inv hop s else s
  if bit img.emitMask v.toNat then
    let r := filterResult img (getCell s id) v inv hop
    let s := modCell id (fun _ => r.1) s
    match r.2 with
    | some t => cellIssue id t s
    | none => (s, none)
  else (s, none)

/-- Whether every joined input of a cell holds a token (R341). -/
def cellReady (s : State) (id : CellId) : Bool :=
  let img := cellImage s id
  let j := joinedInputs img
  img.used && !(getCell s id).disabled && !j.isEmpty && j.all fun k => !(inputLatch (getCell s id) k).isEmpty

/-- The token of a cell enters the fabric: a stall cell's from its node; a hub cell's as the copies of the planes that issued it. -/
def issueHubCopies (port : Nat) (a b : Option Token) (s : State) : State :=
  match a.orElse fun _ => b with
  | none => s
  | some tok =>
    if chanHeld s tok.chan then issueToken .hub port tok s
    else forEach (consumersOf s tok.chan) (fun d s =>
      let s := modBook tok.chan (fun x => { x with issued := x.issued + 1 }) s
      addFlight { tok, src := .hub, port, dst := d, stage := .planes, a, b } s) s

/-- An evaluation with its issue (R341, R362): a hub cell evaluates in each plane in service. -/
def runCell (id : CellId) (ready : State → CellId → Bool) (ev : CellId → State → State × Option Token) (s : State) : State :=
  match id with
  | .node n b =>
    if cellsRun s n && ready s id then
      let r := ev id s
      match r.2 with
      | some tok => issueToken (.node n) (0x1000 + b.val) tok r.1
      | none => r.1
    else s
  | .hub _ b =>
    let inA := decide (s.hub.planeA.state = .service) && ready s (.hub false b)
    let inB := decide (s.hub.planeB.state = .service) && ready s (.hub true b)
    let ra := if inA then ev (.hub false b) s else (s, none)
    let rb := if inB then ev (.hub true b) ra.1 else (ra.1, none)
    issueHubCopies (0x1000 + b.val) ra.2 rb.2 rb.1

/-! ## Flip-flops (R349) -/

/-- What refuses a flip-flop command on a cell. -/
def flipFlopCode (s : State) (id : CellId) : Option Code :=
  let i := cellImage s id
  if i.used ∧ i.ffEn then none else some 0x1645

/-- Set a cell's flip-flop. -/
def setFlipFlopOf (id : CellId) (value : BitVec 2) (inv : Bool) (s : State) : State :=
  modCell id (fun c => { c with ffValue := value, ffInv := inv }) s

/-- Clear every flip-flop of an owner in a stall's node. -/
def clearFlipFlopsOf (n : StallId) (o : Owner) (s : State) : State :=
  forEach (imageOf s n).node.cells (fun e s =>
    match fin? 256 e.1 with
    | some b => if e.2.ffEn ∧ e.2.owner = o then setFlipFlopOf (.node n b) 0 false s else s
    | none => s) s

end Sys2Proof.Machine
end

