-- ==== Sys2Proof/Machine/TallyOps.lean ====
section
/-!
DEFINITION. What happens inside the Tally (chapter 17): its log, the tokens and messages that it takes, and its mirror.
-/

namespace Sys2Proof.Machine

open Sys2Proof

/-- An entry of the Tally's log (R661, Table 17-4): numbered from 1, newest first, 4,096 kept. -/
def tallyLog (kind source : BitVec 8) (data : Word) (s : State) : State :=
  setTally (fun t =>
    { t with
      logCount := t.logCount + 1
      log := ({ number := t.logCount + 1, seconds := bits t.clock 16 32, kind, source, data } :: t.log).take 4096 }) s

/-- A SEAL token reaches the Tally (R651): it is logged, and nothing is counted. -/
def sealToken (tok : Token) (s : State) : State :=
  let k := tok.chan.toNat - 4064
  if k < 8 then tallyLog (if tok.value = 1 then 0x21 else 0x22) (BitVec.ofNat 8 k) 0 s
  else if k = 8 then tallyLog 0x20 8 0 s
  else if k = 9 then tallyLog 0x23 8 0 s
  else s

/-- The bit of a transmitter in TY_FEED. -/
def feedBit : FeedId → Nat
  | .stall n => n.val
  | .spine => 8
  | .inlet two => if two then 10 else 9

/-- The source of a transmitter in the log (Table 17-4). -/
def feedSource (k : FeedId) : BitVec 8 := BitVec.ofNat 8 (feedBit k)

/-- The bit of a transmitter as a mask of TY_FEED. -/
def feedMask (k : FeedId) : BitVec 11 := BitVec.ofNat 11 (2 ^ feedBit k)

/-- The Tally counts in every state but FAULT (R657). -/
def counting (t : Tally) : Bool := decide (t.state ≠ .fault)

/-- The sum of two sets of counters. -/
def addCounts (a b : Counts) : Counts :=
  { done := a.done + b.done, aborted := a.aborted + b.aborted, driveBeats := a.driveBeats + b.driveBeats, probeBeats := a.probeBeats + b.probeBeats
    chanFrames := a.chanFrames + b.chanFrames }

/-- The difference of two sets of totals. -/
def subCounts (a b : Counts) : Counts :=
  { done := a.done - b.done, aborted := a.aborted - b.aborted, driveBeats := a.driveBeats - b.driveBeats, probeBeats := a.probeBeats - b.probeBeats
    chanFrames := a.chanFrames - b.chanFrames }

/-- What totals exceed earlier ones by, for every owner that has some. -/
def gained (totals old : Tab Counts) : Tab Counts :=
  (List.range 15).foldl (fun acc o =>
    if (tabFind o totals).isSome then tabSet acc o (subCounts (tabGet {} totals o) (tabGet {} old o)) else acc) []

/-- The totals of a message enter the owners' counters (R649): what they exceed the previous intact message of the same generation by.  A new generation
starts the frames again, and all that came before it is complete. -/
def takeTotals (n : StallId) (gen : Nat) (frame : Nat) (totals : Tab Counts) (t : Tally) : Tally :=
  let same : Bool := match tabFind n.val t.last with | some (g, _) => decide (g = gen) | none => false
  let old : Tab Counts := match tabFind n.val t.last with | some (_, o) => if same then o else [] | none => []
  let more := gained totals old
  { t with
    owners := more.foldl (fun acc e => tabMod {} acc e.1 (addCounts · e.2)) t.owners
    last := tabSet t.last n.val (gen, totals), frames := tabSet t.frames n.val frame
    recent := (frame, more) :: (if same then t.recent else []) }

/-- A supply's energy register (R655): another serial number gives a new base. -/
def takeEnergy (two : Bool) (serial energy : Nat) (t : Tally) : Tally :=
  if two then
    if t.supplySerial2 = serial then { t with eIn2 := t.eIn2 + (energy - t.supplyBase2), supplyBase2 := energy }
    else { t with supplySerial2 := serial, supplyBase2 := energy }
  else
    if t.supplySerial1 = serial then { t with eIn1 := t.eIn1 + (energy - t.supplyBase1), supplyBase1 := energy }
    else { t with supplySerial1 := serial, supplyBase1 := energy }

/-- The serial number that an inlet's supply had last. -/
def supplySerial (t : Tally) (two : Bool) : Nat := if two then t.supplySerial2 else t.supplySerial1

/-- An intact message enters the Tally (R649, R650, R655). -/
def takeMessage (m : FeedIn) (s : State) : State :=
  let back := !bit s.tally.feed (feedBit m.from_)
  let s := setTally (fun t => { t with feed := t.feed ||| feedMask m.from_ }) s
  let s := if back then tallyLog 0x11 (feedSource m.from_) 0 s else s
  if counting s.tally then
    match m.from_ with
    | .stall n => let f := getFeed s n.val; setTally (takeTotals n f.gen f.sentFrame f.sent) s
    | .spine => s
    | .inlet two =>
      let s := if supplySerial s.tally two = m.serial then s else tallyLog 0x12 (feedSource m.from_) (BitVec.ofNat 32 m.serial) s
      setTally (takeEnergy two m.serial m.energy) s
  else s

/-- A stall transmitter sends its totals (R649). -/
def sendFeed (n : StallId) (s : State) : State :=
  modFeed n.val (fun f => { f with sent := f.totals, sentFrame := s.clock.sched / fineFrame }) s

/-- The frame up to which every stall's counts are complete (R664). -/
def completeFrame (t : Tally) : Nat :=
  ((List.range 8).map fun k => tabGet 0 t.frames k).foldl min (tabGet 0 t.frames 0)

/-- The owners' counters up to the frame that every stall's counts are complete to (R664): without what later messages have added. -/
def completeOwners (t : Tally) : Tab Counts :=
  (t.recent.filter fun e => completeFrame t < e.1).foldl (fun acc e =>
    e.2.foldl (fun acc c => tabMod {} acc c.1 (subCounts · c.2)) acc) t.owners

/-- A refresh of the mirror (R664): TY_SEQ is odd until it ends. -/
def refreshed (t : Tally) : Mirror :=
  { seq := t.mirror.seq + 1, state := t.state, tenantRead := t.tenantRead, clock := t.clock, frame := completeFrame t, feed := t.feed
    opens := t.opens, changes := t.changes, logLast := t.logCount, eTotal := t.eIn1 + t.eIn2, eIn1 := t.eIn1, eIn2 := t.eIn2, owners := completeOwners t
    log := t.log }

end Sys2Proof.Machine
end

