-- ==== Sys2Proof/Machine/ReadOps.lean ====
section
/-!
DEFINITION. What happens inside a readout channel (chapter 6): opening windows, integrating against the kernel, discriminating, the
decision token and the decision record.
-/

namespace Sys2Proof.Machine

open Sys2Proof

/-- Record a code on a channel. -/
def recordChan (code : Code) (c : ChanId) (s : State) : State :=
  record code c.stall.val (chanBind s c).owner (chanObject c) 0 s

/-- The Farrier holds the plane set of a channel (R272): its image gives it a number of states (R494). -/
def farrierOwns (s : State) (c : ChanId) : Bool := decide ((chanBind s c).states ≠ 0)

/-- The acquisition slice of a channel. -/
def chanSlice (s : State) (c : ChanId) : Option (Fin 5) := fin? 5 (chanBind s c).slice.toNat

/-! ## Opens -/

/-- What refuses a window open (R259). -/
def openCode (s : State) (r : RiderId) (c : ChanId) (len : Nat) : Option Code :=
  let b := chanBind s c
  let o := (riderBind s r).owner
  if len = 0 ∨ b.klimit < len ∨ b.slice = 0xF ∨ !(getChan s c).enable ∨ (o ≠ b.owner ∧ o.val ≠ 0) then some 0x1310 else none

/-- An open finds the latch full (R261). -/
def openHeld (s : State) (c : ChanId) : Bool := (getChan s c).latch.isSome

/-- An open counts as contended (R261): it meets an open window or a full latch. -/
def countOpen (c : ChanId) (s : State) : State :=
  let x := getChan s c
  if x.win.isSome ∨ x.latch.isSome then modChan c (fun x => { x with contend := satInc x.contend }) s else s

/-- An open is granted at or before the start of frame s - 1 (R260). -/
def openInTime (s : State) (start : Nat) : Bool := decide (s.clock.sched + fineFrame ≤ start * fineFrame)

/-- The frame at which an open that the channel grants now opens (R260, R261). -/
def openFrame (s : State) (c : ChanId) (start : Nat) : Nat :=
  max (if openInTime s start then start else frameNow s + 1) (((getChan s c).win.map fun w => w.start + w.len).getD 0)

/-- A granted open enters the open latch; the rider's last anchor is its anchor (R258, R260, R261). -/
def grantOpen (r : RiderId) (c : ChanId) (start len : Nat) (s : State) : State :=
  let fr := openFrame s c start
  let q : OpenReq := { start := fr, len, rider := r.num.val, shot := if (getRider s r).shot.active then (getRider s r).shot.num else 0, late := !openInTime s start || decide (start < fr) }
  modRider r (fun x =>
    { x with lastAnchor := schedOfFine ((fr + len) * fineFrame)
             shot := if x.shot.active then { x.shot with chans := chanKey c :: x.shot.chans.filter (· ≠ chanKey c) } else x.shot }) (modChan c (fun x => { x with latch := some q }) s)

/-- The opens of one rider, or of any, that wait in latches are discarded (R281, R383). -/
def discardOpens (n : StallId) (of : Nat → Bool) (s : State) : State :=
  forEach (stallChans n) (fun c s =>
    match (getChan s c).latch with
    | some q => if of q.rider then modChan c (fun x => { x with latch := none }) s else s
    | none => s) s

/-- W8 holds the input shunt of a slice closed (Table 15-2). -/
def shuntClosed (s : State) (n : StallId) (k : Fin 5) : Bool :=
  match (getWatch s (.stall n 8)).shunt with
  | some i => decide (i.toNat = k.val)
  | none => false

/-- A slice whose converter has failed and which no spare carries: its windows carry slice (Table 06-3, R283). -/
def acqBad (s : State) (n : StallId) (k : Fin 5) : Bool :=
  (getAcq s n k).fault && !carried s ⟨n, .acq, k.castLE (by omega)⟩

/-- A forced takeover of a slice found no spare: its channels produce no decisions (R46).  It does not hold while A4 switches in for it (R44). -/
def acqDead (s : State) (n : StallId) (k : Fin 5) : Bool :=
  let sp := (getStall s n).spareAcq
  acqBad s n k && !(sp.forced && decide (sp.target.toNat = k.val))

/-- The number of a window within the shot of its rider, when that shot is in progress (Table 06-3). -/
def takeIndex (c : ChanId) (q : OpenReq) (s : State) : State × Nat :=
  match fin? 16 q.rider with
  | none => (s, 0)
  | some h =>
    let r : RiderId := ⟨c.stall, h⟩
    let x := (getRider s r).shot
    if x.num = q.shot ∧ q.shot ≠ 0 then (modRider r (fun y => { y with shot := { y.shot with windows := min 0xFFFF (x.windows + 1) } }) s, x.windows)
    else (s, 0)

/-- The invalid bit of a window (Table 06-3). -/
def windowInvalid (w : Window) (cut : Bool) : Bool := w.settle || w.ovr || w.gate || w.slice || w.lateOpen || cut

/-- The filter mode and rotation in force so far join those of the past. -/
def pastMode (s : State) (c : ChanId) (frame : Nat) : List (Nat × BitVec 2 × BitVec 16) :=
  let x := getChan s c
  (frame, x.filterOn, x.planes.rot) :: x.was.filter fun e => keepsPast s c.stall e.1

/-- The latched open opens: it takes the pending sets (R258, R260 to R262). -/
def openWindow (c : ChanId) (q : OpenReq) (s : State) : State :=
  let i := takeIndex c q s
  let s := i.1
  let bad := match chanSlice s c with | some k => acqBad s c.stall k | none => false
  let shunted := match chanSlice s c with | some k => shuntClosed s c.stall k | none => false
  let s := modChan c (fun x =>
    let ints := x.pendInt.getD x.ints
    let planes := x.pendPlane.getD x.planes
    let win : Window :=
      { start := q.start, len := q.len, rider := q.rider, shot := q.shot, index := i.2, ints, planes, lateOpen := q.late,
        settle := decide (q.start < x.flagTo) && decide (x.flagFrom < q.start + q.len), ovr := shunted, slice := bad }
    { x with
      latch := none, ints, planes, pendInt := none, pendPlane := none, win := some win
      was := if planes.rot = x.planes.rot then x.was else pastMode s c q.start }) s
  let s := if (getChan s c).win.any fun w => windowInvalid w false then markWindow c id (if bad then some .slice else none) s else s
  if q.late then recordChan 0x3310 c s else s

/-! ## Integration and discrimination -/

/-- Key of a tap of a channel's kernel bank. -/
def kernelKey (c : ChanId) (bank : Bool) (t : Nat) : Nat := chanKey c * 8192 + (if bank then 4096 else 0) + t

/-- One term of the sum: w × yr with w = wi + j wq (R265). -/
def macTerm (tap : Word) (y : Int × Int) : Int × Int :=
  let wq := (bits tap 16 16 : BitVec 16).toInt
  let wi := (bits tap 0 16 : BitVec 16).toInt
  (wi * y.1 - wq * y.2, wi * y.2 + wq * y.1)

/-- yr of sample j of a window (R252): 0 in a frame that the gate dropped (R267). -/
def windowSample (s : State) (c : ChanId) (conv : Option (Fin 5)) (w : Window) (sig : Signal) (j : Nat) : Int × Int :=
  if w.dropped.contains (w.start + j) then (0, 0) else rotate w.planes.rot (filterOut s c conv sig (w.start + j))

/-- The sum of the first `k` samples of a window from a converter's codes (R265), before the shift. -/
def integrateFrom (s : State) (c : ChanId) (conv : Option (Fin 5)) (w : Window) (sig : Signal) (k : Nat) : Int × Int :=
  (List.range (min k w.len)).foldl (fun acc j =>
    let t := macTerm (tabGet 0 s.kernels (kernelKey c w.ints.bank j)) (windowSample s c conv w sig j)
    (acc.1 + t.1, acc.2 + t.2)) (0, 0)

/-- The sum of the first `k` samples of a window as its live results have it (R265). -/
def integrate (s : State) (c : ChanId) (w : Window) (sig : Signal) (k : Nat) : Int × Int := integrateFrom s c (liveConverter s c) w sig k

/-- sat32 with whether it saturated (R265). -/
def sat32 (x : Int) : BitVec 32 × Bool :=
  if x < -2147483648 then (0x80000000, true) else if 2147483647 < x then (0x7FFFFFFF, true) else (BitVec.ofInt 32 x, false)

/-- d_p of a plane (R268). -/
def planeD (p : Plane) (i q : Int) : Int := p.a.toInt * i + p.b.toInt * q - p.c.toInt * 32768

/-- The enabled planes of a set with their numbers. -/
def enabledPlanes (x : PlaneSet) : List (Nat × Plane) :=
  [(0, x.p0), (1, x.p1), (2, x.p2)].filter fun p => bit x.en p.1

/-- The side bits s_2, s_1, s_0 (R268). -/
def sideBits (x : PlaneSet) (i q : Int) : BitVec 3 :=
  (enabledPlanes x).foldl (fun b p => if 0 ≤ planeD p.2 i q then b ||| BitVec.ofNat 3 (2 ^ p.1) else b) 0

/-- The state of an outcome (R269). -/
def stateOf (x : PlaneSet) (sides : BitVec 3) : BitVec 2 := bits x.map (2 * sides.toNat) 2

/-- The quality term of a plane (R270). -/
def planeQuality (p : Plane) (i q : Int) : Nat := (planeD p i q).natAbs * p.k.toNat / 2 ^ (p.ksh.toNat + 15)

/-- The quality figure (R270). -/
def qualityOf (x : PlaneSet) (i q : Int) : BitVec 16 :=
  BitVec.ofNat 16 ((enabledPlanes x).foldl (fun m p => min m (planeQuality p.2 i q)) 0xFFFF)

/-! ## The close of a window -/

/-- What a closed window found. -/
structure Outcome where
  i : BitVec 32
  q : BitVec 32
  sat : Bool
  sides : BitVec 3
  state : BitVec 2
  quality : BitVec 16
  cut : Bool

/-- The outcome of sums, which the shift takes down (R265 to R270); a cut window has state 0 and quality 0 (Table 06-3). -/
def outcomeOf (w : Window) (acc : Int × Int) (cut : Bool) : Outcome :=
  let i := sat32 (acc.1 / 2 ^ w.ints.shift.toNat)
  let q := sat32 (acc.2 / 2 ^ w.ints.shift.toNat)
  let sides := sideBits w.planes i.1.toInt q.1.toInt
  { i := i.1, q := q.1, sat := i.2 || q.2, sides, cut
    state := if cut then 0 else stateOf w.planes sides
    quality := if cut then 0 else qualityOf w.planes i.1.toInt q.1.toInt }

/-- Whether a window emits a token (R273 to R275): never a cut one (R281), none from a slice that no spare carries (R46)
and none from a node that is not active (R69). -/
def tokenLeaves (s : State) (c : ChanId) (w : Window) (o : Outcome) : Bool :=
  let x := getChan s c
  let dead : Bool := match chanSlice s c with | some k => acqDead s c.stall k | none => false
  !dead && x.tokenEn && decide ((chanBind s c).rein ≠ 0xFFF) && (!x.masked || bit x.stateMask o.state.toNat)
    && (!windowInvalid w o.cut || x.onInvalid) && !o.cut && nodeActive s c.stall

/-- A bit at a place of a word. -/
def place (b : Bool) (k : Nat) : Nat := if b then 2 ^ k else 0

/-- The anchor of a window (R258). -/
def windowAnchor (w : Window) : Word64 := schedOfFine ((w.start + w.len) * fineFrame)

/-- The decision record (Table 06-3). -/
def decisionRecord (s : State) (c : ChanId) (w : Window) (o : Outcome) (sent : Bool) : List Word :=
  [ BitVec.ofNat 32 (c.stall.val * 2 ^ 27 + c.num.val * 2 ^ 21 + o.state.toNat * 2 ^ 16 + o.quality.toNat)
  , o.i
  , o.q
  , BitVec.ofNat 32 (place (windowInvalid w o.cut) 31 + place w.settle 30 + place w.ovr 29 + place w.gate 28 + place w.slice 27
      + place w.lateOpen 26 + place o.cut 25 + place o.sat 24 + o.sides.toNat * 2 ^ 21 + place sent 20
      + (chanBind s c).owner.val * 2 ^ 16 + w.rider % 16 * 2 ^ 12 + (w.len - 1) % 4096)
  , w.shot
  , bits (windowAnchor w) 0 32
  , bits (windowAnchor w) 32 32
  , BitVec.ofNat 32 (min w.index 0xFFFF) ]

/-- The decision record enters the result queue with 8 credits, or is dropped and counted (R277). -/
def writeDecision (c : ChanId) (w : Window) (o : Outcome) (sent : Bool) (s : State) : State :=
  match (chanBind s c).resultQ, chanSlice s c with
  | some q, some k =>
    if portCredits s q (.slice c.stall k) < 8 then
      onShotOf c w (fun x => { x with dropped := satInc x.dropped })
        (recordChan 0x3311 c (modChan c (fun x => { x with dropped := satInc x.dropped }) s))
    else issueWords q (.slice c.stall k) (decisionRecord s c w o sent) true s
  | _, _ => s

/-- A window or block counts as observed (R512): FA_RESULT.obs, and the running quality after every `every` of them. -/
def observeOne (n : StallId) (every : Nat) (s : State) : State :=
  freshen (modFarrier n (fun x =>
    let obs := satInc x.cal.obs
    { x with cal := { x.cal with obs }, now := if obs.toNat % every = 0 then Config.runningQuality s.freeCtr else x.now }) s)

/-- The I and Q of a window as the slice under calibration completes it (R501): from its own converter, which the channel's binding names. -/
def calOutcome (s : State) (c : ChanId) (w : Window) : Int × Int :=
  let o := outcomeOf w (integrateFrom s c (chanSlice s c) w {} w.len) false
  (o.i.toInt, o.q.toInt)

/-- PLANES collects a window of its target that no flag spoils, and its progress rises in proportion to min_windows (R501, R512). -/
def collectWindow (c : ChanId) (w : Window) (cut : Bool) (s : State) : State :=
  let x := getFarrier s c.stall
  if x.cal.running ∧ x.cal.phase = 2 ∧ x.cal.kind = .planes ∧ x.cal.target.toNat = 0x40 + c.num.val ∧ !windowInvalid w cut then
    modFarrier c.stall (fun x =>
      let need := max 1 x.minWindows.toNat
      { x with
        op := { x.op with progress := min 799 (100 + 700 * min need x.cal.obs.toNat / need) }
        cal := { x.cal with windows := calOutcome s c w :: x.cal.windows } }) (observeOne c.stall 1024 s)
  else s

/-- The close of a window: its token, its record, CH_LAST, its counts and codes, and the marking of its shot (R273 to R281). -/
def closeWindow (c : ChanId) (w : Window) (o : Outcome) (s : State) : State :=
  let inv := windowInvalid w o.cut
  let sent := tokenLeaves s c w o
  let s := modChan c (fun x => { x with win := none }) s
  let s := if sent then
      issueToken (.node c.stall) c.num.val { chan := (chanBind s c).rein, kind := .decision, hop := 0, inv, value := o.state } s
    else s
  let s := modChan c (fun x =>
    { x with
      windows := satInc x.windows
      invalid := if inv then satInc x.invalid else x.invalid
      last := { valid := true, invalid := inv, sat := o.sat, state := o.state, quality := o.quality } }) s
  let s := if o.sat then recordChan 0x0311 c s else s
  let s := if o.cut then recordChan 0x3312 c s else s
  let s := collectWindow c w o.cut (writeDecision c w o sent s)
  if inv then onShotOf c w (setCause .channel) s else s

/-- Mark the open windows of a slice's channels, and their shots. -/
def markWindows (n : StallId) (k : Fin 5) (f : Window → Window) (cause : Option ShotCause) (s : State) : State :=
  forEach (boundChans s n k) (fun c s => markWindow c f cause s) s

/-- A window contains a frame. -/
def containsFrame (w : Window) (frame : Nat) : Bool := decide (w.start ≤ frame) && decide (frame < w.start + w.len)

/-- Add to the totals of an owner in a stall's feed (R646, R649). -/
def feedAdd (n : StallId) (o : Owner) (c : Counts) (s : State) : State :=
  if o.val = 15 then s else modFeed n.val (fun f => { f with totals := tabMod {} f.totals o.val (addCounts c) }) s

/-- A window that is cut inside a frame was open in it, and the feed counts that frame (R263). -/
def feedCut (c : ChanId) (w : Window) (s : State) : State :=
  if s.clock.sched % fineFrame ≠ 0 ∧ containsFrame w (frameNow s) then feedAdd c.stall (chanBind s c).owner { chanFrames := 1 } s else s

/-- Every open window of a stall is cut, with the partial sums over its frames before the one in progress (R281; log entry 58). -/
def cutWindows (n : StallId) (s : State) : State :=
  let s := forEach (stallChans n) (fun c s =>
    match (getChan s c).win with
    | some w => feedCut c w (closeWindow c w (outcomeOf w (integrate s c w {} (frameNow s - w.start)) true) s)
    | none => s) s
  discardOpens n (fun _ => true) s

/-- Mark the open windows of a slice's channels that contain a frame, and their shots. -/
def markFrame (n : StallId) (k : Fin 5) (frame : Nat) (f : Window → Window) (cause : Option ShotCause) (s : State) : State :=
  forEach (boundChans s n k) (fun c s => if (getChan s c).win.any (containsFrame · frame) then markWindow c f cause s else s) s

end Sys2Proof.Machine
end

