-- ==== Sys2Proof/Machine/CaptureOps.lean ====
section
/-!
DEFINITION. What happens inside a capture unit (chapter 7): its ring, triggers, records, measurements and gaps.
-/

namespace Sys2Proof.Machine

open Sys2Proof

/-! ## Rings (R293, R482) -/

/-- Pages of 64 KiB in a mebibyte. -/
def pagesPerMib : Nat := 16

/-- First page of a stall's region: the quotas lie in stall order from page 0 (R481). -/
def regionStart (s : State) (n : StallId) : Nat := ((List.range n.val).map fun k => tabGet 0 (herd s).quotas k).sum

/-- Pages that the stall image's spill quotas add up to. -/
def spillPages (s : State) (n : StallId) : Nat := ((imageOf s n).queues.map fun q => q.2.quota).sum

/-- The trace allowance of a stall in pages (R293). -/
def tracePages (s : State) (n : StallId) : Nat := tabGet 0 (herd s).quotas n.val - spillPages s n

/-- The rings of a stall: first page and pages. -/
def rings (s : State) (n : StallId) : List (Nat × Nat) :=
  (stallUnits n).filterMap fun u => let x := getUnit s u; if x.ringBytes = 0 then none else some (x.ringPage, x.ringBytes / 65536)

/-- Pages of the trace allowance that no ring holds (Table 07-7). -/
def unheldTrace (s : State) (n : StallId) : Nat := tracePages s n - ((rings s n).map (·.2)).sum

/-- The rings of a stall on their way back: their first page in transit and the pages left (R483). -/
def ringsBack (s : State) (n : StallId) : List (Nat × Nat) := tabGet [] s.qdir.ringTransit n.val

/-- Pages that a ring can take: those that no ring holds and that are not on their way back (R483). -/
def freeTrace (s : State) (n : StallId) : Nat := unheldTrace s n - ((ringsBack s n).map (·.2)).sum

/-- The first page of the lowest free run of `k` pages of a trace area: pages in transit are not free (R482, R483). -/
def findRun (s : State) (n : StallId) (k : Nat) : Option Nat :=
  let base := regionStart s n + spillPages s n
  let top := base + tracePages s n
  let rs := rings s n ++ ringsBack s n
  let starts := base :: rs.map fun r => r.1 + r.2
  let ok := starts.filter fun p => decide (p + k ≤ top) && rs.all fun r => decide (p + k ≤ r.1) || decide (r.1 + r.2 ≤ p)
  ok.foldl (fun m p => match m with | none => some p | some q => some (min p q)) none

/-- BAR2 address of a page (R480). -/
def pageAddr (p : Nat) : Nat := 0xA400000 + p * 65536

/-- A unit's ring goes back: its pages are in transit while they are zero-filled (R483). -/
def freeRing (u : UnitId) (s : State) : State :=
  let x := getUnit s u
  if x.ringBytes = 0 then s
  else
    let k := x.ringBytes / 65536
    let lo := pageAddr x.ringPage
    let s := setHbm (fun m => m.filter fun p => p.1 < lo || lo + x.ringBytes ≤ p.1) s
    let s := setQdir (fun d => { d with ringTransit := tabMod [] d.ringTransit u.stall.val (· ++ [(x.ringPage, k)]) }) (releasePages u.stall k s)
    modUnit u (fun x =>
      { x with owner := none, ringPage := 0, ringBytes := 0, used := 0, partialValid := false, gap := none }) s

/-! ## Stored samples (R290 to R292) -/

/-- Bytes of a stored sample (Table 07-1). -/
def sampleBytes (c : UnitCfg) : Nat := if c.decimated then (if c.avg = 0 then 4 else 8) else (if c.avg = 0 then 2 else 4)

/-- Bytes of a data record of `k` stored samples (R319). -/
def recordBytes (c : UnitCfg) (k : Nat) : Nat := 64 + (k * sampleBytes c + 63) / 64 * 64

/-- Bytes of a pad that a record of `b` bytes at an offset needs (R297). -/
def padFor (ring wr b : Nat) : Nat := if wr + b ≤ ring then 0 else ring - wr

/-- Bytes that a record needs with its pad (R316), behind the gap record that goes before it (R317). -/
def needBytes (x : CapUnit) : Nat :=
  let b := recordBytes x.arm (x.arm.pre.toNat + x.arm.post.toNat)
  let g := if x.gap.isSome then 64 else 0
  g + padFor x.ringBytes ((x.wr + g) % max 1 x.ringBytes) b + b

/-- The ring has free space for a record (R308, R316). -/
def hasSpace (x : CapUnit) : Bool := decide (x.used + needBytes x ≤ x.ringBytes)

/-- The first stored sample that lies whole at or after an instant. -/
def sampleFrom (c : UnitCfg) (t : Fine) : Nat := (t + interval c - 1) / interval c

/-- Stored samples lost from an instant on, up to the first that is whole again. -/
def samplesSince (c : UnitCfg) (from_ till : Fine) : Nat := sampleFrom c till - from_ / interval c

/-! ## Writing to the ring -/

/-- The bytes of a word, lowest first. -/
def wordBytes (w : Word) : List Byte := [bits w 0 8, bits w 8 8, bits w 16 8, bits w 24 8]

/-- Word 0 of a header (Table 07-4). -/
def header0 (u : UnitId) (x : CapUnit) (kind : Nat) : Word :=
  BitVec.ofNat 32 (kind * 2 ^ 30 + u.stall.val * 2 ^ 27 + u.num.val * 2 ^ 25 + place x.arm.decimated 24 + x.arm.target.toNat * 2 ^ 18
    + ((x.owner.map (·.val)).getD 0) * 2 ^ 14 + x.arm.avg.toNat * 2 ^ 10)

/-- Bytes enter the ring at TU_WR. -/
def ringWrite (u : UnitId) (bytes : List Byte) (total : Nat) (s : State) : State :=
  let x := getUnit s u
  let s := setHbm (fun m => memWrite 0 m (pageAddr x.ringPage + x.wr) bytes) s
  modUnit u (fun x => { x with wr := (x.wr + total) % max 1 x.ringBytes, used := x.used + total }) s

/-- A 64-bit value as two words. -/
def twoWords (n : Nat) : List Word := [BitVec.ofNat 32 n, BitVec.ofNat 32 (n / 2 ^ 32)]

/-- Saturate to an unsigned 32-bit word. -/
def satU32 (n : Nat) : Word := BitVec.ofNat 32 (min n 0xFFFFFFFF)

/-- A gap ends, or a capture ends in it: its last frame, and the stored samples lost while it ran (R317). -/
def settleGap (c : UnitCfg) (till : Fine) (g : Gap) : Gap :=
  if g.store ∨ g.drain then
    { g with
      store := false, drain := false, recovered := none, until_ := 0
      last := max g.last (till / fineFrame), lostSamples := g.lostSamples + samplesSince c g.from_ till }
  else g

/-- The unwritten gap record of a unit enters its ring (R317); where the free space is less than it, it waits (DESIGN CHOICE, log entry 164). -/
def writeGap (u : UnitId) (s : State) : State :=
  let x := getUnit s u
  match if x.used + 64 ≤ x.ringBytes then x.gap else none with
  | none => s
  | some g =>
    let words : List Word :=
      [header0 u x 1, 64, satU32 x.records, BitVec.ofNat 32 (g.cause.toNat * 2 ^ 30)] ++ twoWords g.first ++ twoWords g.last
        ++ [satU32 g.lostSamples, satU32 g.lostTriggers, 0, 0, 0, 0, 0, 0]
    modUnit u (fun x => { x with gap := none }) (ringWrite u (words.flatMap wordBytes) 64 s)

/-- A pad record over the remaining bytes of the ring, where a record of `b` bytes needs one (R297). -/
def writePad (u : UnitId) (b : Nat) (s : State) : State :=
  let x := getUnit s u
  let p := padFor x.ringBytes x.wr b
  if p = 0 then s
  else ringWrite u (([header0 u x 2, satU32 p, satU32 x.records] ++ List.replicate 13 0).flatMap wordBytes) p s

/-! ## Measurements (R321 to R323) -/

/-- One step of the integer square root. -/
def isqrtGo (n : Nat) : Nat → Nat → Nat
  | 0, r => r
  | k + 1, r => isqrtGo n k (if (r + 2 ^ k) * (r + 2 ^ k) ≤ n then r + 2 ^ k else r)

/-- floor of the square root of a number below 2^128. -/
def isqrt (n : Nat) : Nat := isqrtGo n 64 0

/-- floor(√a − √b) for b ≤ a. -/
def sqrtDiff (a b : Nat) : Nat :=
  let d := isqrt a - isqrt b
  let l := a - b - d * d
  if b + d * d ≤ a ∧ 4 * d * d * b ≤ l * l then d else d - 1

/-- Sample j of a unit's source (R286, R306): an ADC code of the slice, or yr of the channel; a frame that the gate dropped gives 0 (R292). -/
def sourceSample (s : State) (u : UnitId) (sig : Signal) (j : Nat) : Int × Int :=
  let x := getUnit s u
  if x.arm.decimated then
    if x.dropped.contains j then (0, 0)
    else match fin? 64 x.arm.target.toNat with | some k => yrAt s ⟨u.stall, k⟩ sig j | none => (0, 0)
  else if x.dropped.contains (j / 64) then (0, 0)
  else match fin? 5 x.arm.target.toNat with | some k => (adcAt sig u.stall k j, 0) | none => (0, 0)

/-- Stored sample n: the exact sum of its interval (R290). -/
def storedSample (s : State) (u : UnitId) (sig : Signal) (n : Nat) : Int × Int :=
  let w := 2 ^ (getUnit s u).arm.avg.toNat
  (List.range w).foldl (fun acc i => let v := sourceSample s u sig (n * w + i); (acc.1 + v.1, acc.2 + v.2)) (0, 0)

/-- The bytes of a stored sample (Table 07-1). -/
def storedBytes (c : UnitCfg) (v : Int × Int) : List Byte :=
  let half (x : Int) : List Byte := [BitVec.ofInt 8 x, BitVec.ofInt 8 (x / 256)]
  let whole (x : Int) : List Byte := wordBytes (BitVec.ofInt 32 x)
  let part := if c.avg = 0 then half else whole
  if c.decimated then part v.1 ++ part v.2 else part v.1

/-- |v|² of a stored sample. -/
def norm2 (v : Int × Int) : Nat := v.1.natAbs * v.1.natAbs + v.2.natAbs * v.2.natAbs

/-- The component of the level trigger (R306). -/
def component (c : UnitCfg) (v : Int × Int) : Int :=
  match c.component with
  | 1 => v.2
  | 2 => (isqrt (norm2 v) : Int)
  | _ => v.1

/-- The interpolation f of a rising or falling crossing from x0 to x1 at a level (R306). -/
def crossingF (level x0 x1 : Int) : Nat :=
  if x0 < x1 then (64 * (level - x0) / (x1 - x0)).toNat else (64 * (x0 - level) / (x0 - x1)).toNat

/-- What counts crossings along a span: whether a rising and a falling one is armed, and the crossings' places in 1/64 sample. -/
structure Cross where
  up : Bool := false
  down : Bool := false
  prev : Option Int := none
  places : List Nat := []

/-- One sample of the span (R306, R322). -/
def crossStep (c : UnitCfg) (acc : Cross) (x : Int × Nat) : Cross :=
  let l := c.level.toInt
  let h : Int := c.hyst.toNat
  let v := x.1
  let wantUp := c.slope != 1
  let wantDown := c.slope != 0
  let up := match acc.prev with | some p => acc.up && wantUp && decide (p < l) && decide (l ≤ v) | none => false
  let down := match acc.prev with | some p => acc.down && wantDown && decide (l < p) && decide (v ≤ l) | none => false
  let places := if up || down then acc.places ++ [(x.2 - 1) * 64 + crossingF l ((acc.prev).getD 0) v] else acc.places
  { up := if up then false else acc.up || decide (v ≤ l - h)
    down := if down then false else acc.down || decide (l + h ≤ v)
    prev := some v, places }

/-- Saturate to a signed 32-bit word. -/
def satS32 (x : Int) : Word := (sat32 x).1

/-- The measurement words 8 to 15 and meas_short (R321 to R323), over `pre` and the record's stored samples. -/
def measure (c : UnitCfg) (pre : Nat) (vals : List (Int × Int)) : List Word × Bool :=
  let from_ : Int := pre + c.measOff.toInt
  let span := vals.zipIdx.filter fun v => decide (from_ ≤ (v.2 : Int)) && decide ((v.2 : Int) < from_ + c.measLen.toNat)
  let n := span.length
  if n = 0 then (List.replicate 8 0, true)
  else
    let mean (f : Int × Int → Int) : Word := satS32 (Int.tdiv ((span.map fun v => f v.1).sum * 256) n)
    let peak := span.foldl (fun (m : Nat × Nat) v => if m.1 < norm2 v.1 + 1 then (norm2 v.1 + 1, v.2) else m) (0, 0)
    let total := (span.map fun v => norm2 v.1).sum
    let comp := span.map fun v => component c v.1
    let hi := comp.foldl max (comp.headD 0)
    let lo := comp.foldl min (comp.headD 0)
    let norms := span.map fun v => norm2 v.1
    let amp := if c.component = 2 then
        sqrtDiff (norms.foldl max 0 * 16384) (norms.foldl min (norms.headD 0) * 16384)
      else ((hi - lo) * 128).toNat
    let cross := (span.map fun v => (component c v.1, v.2)).foldl (crossStep c) {}
    let k := cross.places.length
    let unit := if c.decimated then 64 * 2 ^ c.avg.toNat else 2 ^ c.avg.toNat
    let period := if k < 2 then 0 else (cross.places.getLastD 0 - cross.places.headD 0) * unit / (k - 1)
    ([mean (·.1), mean (·.2), satU32 (isqrt ((peak.1 - 1) * 65536)), satU32 (isqrt (total * 65536 / n)), satU32 amp, satU32 period,
      BitVec.ofNat 32 (min k 0xFFFF * 65536), BitVec.ofInt 32 ((peak.2 : Int) - pre)], decide (k < 2))

/-! ## Records -/

/-- A unit's op_status progress (R301). -/
def captureProgress (x : CapUnit) : Nat :=
  if x.arm.recCount = 0 then x.used * 1000 / max 1 x.ringBytes else x.records * 1000 / x.arm.recCount.toNat

/-- Refresh the progress of a running capture. -/
def showProgress (u : UnitId) (s : State) : State :=
  modUnit u (fun x => if x.armed then { x with op := { x.op with progress := captureProgress x } } else x) s

/-- The capture of a unit ends (R302): a gap that still runs ends with it, and an unwritten gap record is written (R317). -/
def endCapture (u : UnitId) (op : OpStatus) (s : State) : State :=
  let s := modUnit u (fun x => { x with gap := x.gap.map (settleGap x.arm s.clock.sched) }) s
  modUnit u (fun x => { x with armed := false, op, record := none, hobble := .none, waiting := [] }) (writeGap u s)

/-- The record in progress closes with `post` of its samples from the trigger sample on (R310, R319, R320): the gap record first, then a pad,
then its header and samples. -/
def closeRecord (u : UnitId) (r : Record) (post : Nat) (cut : Bool) (sig : Signal) (s : State) : State :=
  let s := writeGap u s
  let c := (getUnit s u).arm
  let k := c.pre.toNat + post
  let size := k * sampleBytes c
  let vals := (List.range k).map fun i => storedSample s u sig (r.sample - c.pre.toNat + i)
  let total := recordBytes c k
  let s := writePad u total s
  let x := getUnit s u
  let m := measure c c.pre.toNat vals
  let holds (o : Option Fine) : Bool := o.any fun t => decide (t < (r.sample + post) * interval c)
  let words : List Word :=
    [header0 u x 0, satU32 total, satU32 x.records,
      BitVec.ofNat 32 (place cut 31 + place (holds r.settle) 30 + place (holds r.ovr) 29 + place (holds r.gate) 28 + place r.slice 27 + place r.interp 26
        + place m.2 25 + place r.force 24 + c.trigSrc.toNat * 2 ^ 12 + r.trigPos % 4096)]
    ++ twoWords r.trigFrame ++ [satU32 c.pre.toNat, satU32 post] ++ m.1
  let s := ringWrite u (words.flatMap wordBytes ++ vals.flatMap (storedBytes c) ++ List.replicate (total - 64 - size) 0) total s
  showProgress u (modUnit u (fun x =>
    { x with
      records := x.records + 1, record := none, filledFrom := (r.sample + post) * interval c
      dropped := x.dropped.filter fun f => decide ((r.sample + post) * interval c ≤ f * fineFrame) }) s)

/-- The record in progress closes at its last stored sample (R302, R315). -/
def cutRecord (u : UnitId) (s : State) : State :=
  let x := getUnit s u
  match x.record with
  | none => s
  | some r =>
    let post := min (s.clock.sched / interval x.arm - r.sample) x.arm.post.toNat
    closeRecord u r post true {} s

/-- A gap begins, or joins the one not yet written (R317, R318); the storage part of a triggered capture runs to `until_` at least (R315). -/
def beginGap (u : UnitId) (drain : Bool) (at_ until_ : Fine) (s : State) : State :=
  let x := getUnit s u
  let cause : BitVec 2 := if drain then 1 else 0
  let fr := at_ / fineFrame
  let code : Code := if drain then 0x3402 else 0x3401
  match x.gap with
  | none =>
    let g : Gap := { cause, first := fr, last := fr, from_ := at_, store := !drain, drain, until_ }
    record code u.stall.val ((x.owner).getD 0) 0 0 (modUnit u (fun x => { x with gap := some g, gaps := satInc x.gaps }) s)
  | some g =>
    let g' := { g with cause := if g.cause = cause then g.cause else 2, last := max g.last fr, from_ := if g.store ∨ g.drain then g.from_ else at_,
                       store := g.store || !drain, drain := g.drain || drain, recovered := if drain then g.recovered else none,
                       until_ := max g.until_ until_ }
    let s := modUnit u (fun x => { x with gap := some g' }) s
    if g'.cause ≠ g.cause then record 0x3402 u.stall.val ((x.owner).getD 0) 0 0 s else s

/-- One part of a gap ends at an instant: the gap ends with its last part, and the pre region counts from there (R308, R315, R316). -/
def endPart (drain : Bool) (at_ : Fine) (x : CapUnit) : CapUnit :=
  match x.gap with
  | some g =>
    if if drain then g.store else g.drain then { x with gap := some (if drain then { g with drain := false } else { g with store := false, recovered := none }) }
    else { x with filledFrom := at_, gap := some (settleGap x.arm at_ g) }
  | none => x

/-- A drain gap ends when the free space first suffices (R316). -/
def endDrain (u : UnitId) (s : State) : State :=
  let x := getUnit s u
  if (x.gap.any fun g => g.drain) ∧ hasSpace x then modUnit u (endPart true s.clock.sched) s else s

/-- The storage part of a gap has ended by an instant: storage has recovered, and the cut record's last post sample has passed (R315). -/
def endStore (u : UnitId) (t : Fine) (s : State) : State :=
  match (getUnit s u).gap with
  | some g =>
    match g.recovered with
    | some r => if g.store ∧ max r g.until_ ≤ t then modUnit u (endPart false (max r g.until_)) s else s
    | none => s
  | none => s

/-- A record starts at a trigger sample (R310, R313). -/
def startRecord (u : UnitId) (r : Record) (s : State) : State :=
  let x := getUnit s u
  let c := x.arm
  let meets (a b : Fine) : Option Fine := meetsFrom c r a b
  let settle := match if c.decimated then fin? 64 c.target.toNat else none with
    | some k => let y := getChan s ⟨u.stall, k⟩; meets (y.flagFrom * fineFrame) (y.flagTo * fineFrame)
    | none => none
  modUnit u (fun x =>
    { x with
      started := true
      record := some { r with
        settle
        ovr := x.ovrAt.bind fun m => meets (m * 24) (m * 24 + 1)
        gate := x.dropped.foldl (fun o f => match meets (f * fineFrame) ((f + 1) * fineFrame) with | some t => earliest t o | none => o) none
        slice := x.sliceAt.any fun t => decide (recordFrom c r ≤ t) } }) s

/-- The continuous mode's next record starts at the stored sample after the previous one ends, once a trigger has started the first (R313, R316). -/
def nextContinuous (u : UnitId) (s : State) : State :=
  let x := getUnit s u
  let storing : Bool := match x.gap with | some g => g.store | none => false
  if x.armed ∧ x.arm.continuous ∧ x.started ∧ x.record.isNone ∧ !storing then
    let sample := sampleFrom x.arm x.filledFrom
    if hasSpace x then
      startRecord u { trigFrame := sample * interval x.arm / fineFrame, trigPos := 0, sample } s
    else beginGap u true (sample * interval x.arm) 0 s
  else s

/-! ## Triggers (R304 to R312) -/

/-- A hobble holds a trigger back: it counts it, and a hobble by events counts down (R308, R311). -/
def hobbleHit (x : CapUnit) (frame : Nat) : Option CapUnit :=
  match x.hobble with
  | .none => none
  | .frames e => if frame < e then some { x with hobbled := satInc x.hobbled } else none
  | .events k =>
    if k = 0 then none
    else some { x with hobbled := satInc x.hobbled, hobble := if k = 1 then .none else .events (k - 1) }

/-- The hobble that an accepted trigger starts (R311, R312). -/
def newHobble (c : UnitCfg) (frame : Nat) : Hobble :=
  if c.continuous ∨ c.trigSrc = 4 ∨ c.hobValue = 0 then .none
  else match c.hobMode with
    | 1 => .frames (frame + c.hobValue.toNat)
    | 2 => .events c.hobValue.toNat
    | _ => .none

/-- The instant of a trigger in fine steps. -/
def trigFine (t : Trigger) : Fine := t.frame * fineFrame + t.pos * 3 / 8

/-- The instant of a trigger in 1/4,096 frame. -/
def trigKey (t : Trigger) : Nat := t.frame * 4096 + t.pos

/-- A trigger is judged at its instant: accepted, or counted once under the first condition it fails (R308, R309). -/
def judgeTrigger (u : UnitId) (t : Trigger) (s : State) : State :=
  let s := endStore u (trigFine t) s
  let x := getUnit s u
  if !x.armed then s
  else if x.lastTrig = some (trigKey t) then modUnit u (fun x => { x with busy := satInc x.busy }) s
  else
    let s := modUnit u (fun x => { x with lastTrig := some (trigKey t) }) s
    let sample := trigFine t / interval x.arm
    match hobbleHit (getUnit s u) t.frame with
    | some y => modUnit u (fun _ => y) s
    | none =>
      let filled := if x.arm.pre = 0 then x.filledFrom / interval x.arm else sampleFrom x.arm x.filledFrom + x.arm.pre.toNat
      if sample < filled then modUnit u (fun x => { x with early := satInc x.early }) s
      else if x.record.isSome then modUnit u (fun x => { x with busy := satInc x.busy }) s
      else
        let running := x.gap.any fun g => g.store || g.drain
        if running ∨ !hasSpace x then
          let s := if running then s else beginGap u true (sample * interval x.arm) 0 s
          modUnit u (fun x => { x with gap := x.gap.map fun g => { g with lostTriggers := g.lostTriggers + 1 } }) s
        else
          let cont := x.arm.continuous
          let r : Record := { trigFrame := t.frame, trigPos := if cont then 0 else t.pos, sample, interp := t.interp && !cont, force := t.force }
          startRecord u r (modUnit u (fun x => { x with hobble := newHobble x.arm t.frame }) s)

/-- A trigger joins those that wait for their instants, in the order of these (R309). -/
def insertTrigger (t : Trigger) (l : List Trigger) : List Trigger :=
  (l.takeWhile fun y => decide (trigKey y ≤ trigKey t)) ++ t :: (l.dropWhile fun y => decide (trigKey y ≤ trigKey t))

/-- A trigger reaches a unit: it is judged at its instant, at once where that has come (R308, R309). -/
def trigger (u : UnitId) (t : Trigger) (s : State) : State :=
  if s.clock.sched < t.frame * fineFrame then modUnit u (fun x => if x.armed then { x with waiting := insertTrigger t x.waiting } else x) s
  else judgeTrigger u t s

/-- The triggers of a unit whose instants have come are judged (R309). -/
def dueTriggers (u : UnitId) (s : State) : State :=
  let due (t : Trigger) : Bool := decide (t.frame * fineFrame ≤ s.clock.sched)
  let l := (getUnit s u).waiting
  forEach (l.takeWhile due) (judgeTrigger u) (modUnit u (fun x => { x with waiting := x.waiting.dropWhile due }) s)

/-- Triggers of the units of a stall that take a source on an object. -/
def triggerUnits (n : StallId) (src : BitVec 3) (obj : Nat) (frame : Nat) (s : State) : State :=
  forEach (stallUnits n) (fun u s =>
    let x := getUnit s u
    if x.armed ∧ x.arm.trigSrc = src ∧ x.arm.trigObj.toNat = obj then trigger u { frame } s else s) s

/-- A unit is armed with a rein channel as its trigger source (R304). -/
def takesToken (s : State) (u : UnitId) (e : ReinChan) : Bool :=
  let x := getUnit s u
  x.armed && decide (x.arm.trigSrc = 2) && decide (x.arm.trigObj = e)

/-- A token reaches a unit that takes it as trigger (R304, R305). -/
def tokenTrigger (u : UnitId) (tok : Token) (s : State) : State :=
  if takesToken s u tok.chan ∧ bit (getUnit s u).arm.stateMask tok.value.toNat then trigger u { frame := frameNow s + 1 } s else s

/-- The units that capture an acquisition slice, or a channel of it. -/
def unitsOn (s : State) (n : StallId) (k : Fin 5) : List UnitId :=
  (stallUnits n).filter fun u =>
    let x := getUnit s u
    x.armed && (if x.arm.decimated then (boundChans s n k).any fun c => capturesChan x c else decide (x.arm.target.toNat = k.val))

/-- A full-scale code, a dropped frame or a forced takeover meets the records of a slice (R292, Table 07-4). -/
def markRecords (n : StallId) (k : Fin 5) (f : CapUnit → CapUnit) (s : State) : State :=
  forEach (unitsOn s n k) (fun u s => modUnit u f s) s

/-- The captures of a stall end because it leaves HARNESSED towards STABLED or OFF (R298, R302). -/
def endCaptures (n : StallId) (s : State) : State :=
  forEach (stallUnits n) (fun u s =>
    let x := getUnit s u
    let s := if x.armed then
        record 0x0402 n.val (x.owner.getD 0) 0 0
          (modUnit u (fun x => { x with armed := false, op := opEnd .aborted 0x0402 x.op, record := none, hobble := .none, waiting := [] }) s)
      else s
    freeRing u s) s

/-- The captures on a slice fail because a forced takeover found no spare (R302). -/
def failCaptures (n : StallId) (k : Fin 5) (s : State) : State :=
  forEach (unitsOn s n k) (fun u s =>
    let s := cutRecord u s
    record 0x3403 n.val (((getUnit s u).owner).getD 0) 0 0 (endCapture u (opEnd .failed 0x3403 (getUnit s u).op) s)) s

end Sys2Proof.Machine
end

