-- ==== Sys2Proof/Machine/Crc.lean ====
section
/-!
DEFINITION. CRC-32 (IEEE 802.3 polynomial) and little-endian words over runs of bytes.
-/

namespace Sys2Proof.Machine

open Sys2Proof

/-- The reflected CRC-32 over the lowest bits of a remainder. -/
def crcBits : Nat → Nat → Nat
  | 0, c => c
  | k + 1, c => if c % 2 = 1 then crcBits k (c / 2 ^^^ 0xEDB88320) else crcBits k (c / 2)

/-- The remainder after further bytes. -/
def crcBytes : Nat → List Byte → Nat
  | c, [] => c
  | c, b :: rest => crcBytes (crcBits 8 (c ^^^ b.toNat)) rest

/-- CRC-32 over a run of bytes. -/
def crc32 (l : List Byte) : BitVec 32 := ~~~(BitVec.ofNat 32 (crcBytes 0xFFFFFFFF l))

/-- CRC-4, polynomial x^4 + x + 1, over a token (Table 13-2), highest bit first.  Its start value is 0 (PRESUMED, log entry 166). -/
def crc4 (t : BitVec 20) : BitVec 4 :=
  (List.range 20).foldl (fun c k => let c2 := c <<< 1; if bit c 3 != bit t (19 - k) then c2 ^^^ 3 else c2) 0

/-- The bytes of a word, lowest first. -/
def leBytes (w : Word) : List Byte := [bits w 0 8, bits w 8 8, bits w 16 8, bits w 24 8]

/-- A little-endian number. -/
def leNat : List Byte → Nat
  | [] => 0
  | b :: rest => b.toNat + 256 * leNat rest

end Sys2Proof.Machine
end

