-- ==== Sys2Proof/Machine/FarrierOps.lean ====
section
/-!
DEFINITION. What happens inside a stall's Farrier (chapter 12): targets and the objects they affect, the fit of a plane set and its
limits, the end of a calibration, and the stud book's copies (R518, R638 to R640).
-/

namespace Sys2Proof.Machine

open Sys2Proof

/-! ## Kinds and targets (Table 12-1, FA_CMD) -/

/-- Number of a kind. -/
def kindNum : CalKind → Nat
  | .adcIl => 1
  | .dac => 2
  | .iq => 3
  | .skew => 4
  | .marker => 5
  | .planes => 6

/-- A kind that needs the acquisition spare (R496). -/
def readoutKind : CalKind → Bool
  | .adcIl => true
  | .planes => true
  | _ => false

/-- The object that FA_CMD.target names. -/
inductive CalTarget where
  | drive (k : Fin 9)
  | probe (k : Fin 5)
  | acq (k : Fin 5)
  | chan (c : Fin 64)
  | marker (m : Fin 4)
  | none
  deriving DecidableEq, Repr

/-- Decode FA_CMD.target. -/
def targetOf (t : BitVec 8) : CalTarget :=
  match fin? 9 t.toNat, fin? 5 (t.toNat - 0x10), fin? 5 (t.toNat - 0x20), fin? 64 (t.toNat - 0x40), fin? 4 (t.toNat - 0x80) with
  | some k, _, _, _, _ => .drive k
  | _, p, a, c, m =>
    if t.toNat < 0x10 then .none
    else if t.toNat < 0x20 then (match p with | some k => .probe k | none => .none)
    else if t.toNat < 0x40 then (match a with | some k => .acq k | none => .none)
    else if t.toNat < 0x80 then (match c with | some k => .chan k | none => .none)
    else match m with | some k => .marker k | none => .none

/-- A slice as a drive or probe target. -/
def targetSlice (n : StallId) : CalTarget → Option SliceId
  | .drive k => some ⟨n, .drive, k⟩
  | .probe k => some ⟨n, .probe, k.castLE (by omega)⟩
  | _ => none

/-- A kind has a target that Table 12-1 gives it, and the target exists for it. -/
def kindFits (s : State) (n : StallId) (k : CalKind) (t : BitVec 8) : Bool :=
  match k, targetOf t with
  | .adcIl, .acq _ => true
  | .dac, .drive _ => true
  | .dac, .probe _ => true
  | .iq, .drive _ => true
  | .iq, .probe _ => true
  | .skew, .drive _ => true
  | .skew, .probe _ => true
  | .marker, .marker _ => true
  | .planes, .chan c => decide ((chanBind s ⟨n, c⟩).states ≠ 0)
  | _, _ => false

/-- The acquisition slice under calibration in a readout kind. -/
def calSlice (s : State) (n : StallId) (k : CalKind) (t : BitVec 8) : Option (Fin 5) :=
  match k, targetOf t with
  | .adcIl, .acq a => some a
  | .planes, .chan c => fin? 5 (chanBind s ⟨n, c⟩).slice.toNat
  | _, _ => none

/-- The voices that use the lanes of a slice: its own, or those of the slice that it carries as spare (R195). -/
def laneVoices (s : State) (i : SliceId) : List VoiceId :=
  (stallVoices i.stall).filter fun v => (voiceSlice s v).any fun j => decide (carrier s j = i)

/-- The voices that a calibration of kinds 2 to 5 affects (Table 12-3): those of the slice, and those that a spare carries; the routed voice of a marker
output. -/
def affectedVoices (s : State) (n : StallId) (t : BitVec 8) : List VoiceId :=
  let of (i : SliceId) : List VoiceId := if isSpare i then laneVoices s i else boundVoices s i
  match targetOf t with
  | .drive k => of ⟨n, .drive, k⟩
  | .probe k => of ⟨n, .probe, k.castLE (by omega)⟩
  | .marker m => ((tabFind m.val (imageOf s n).markers).map fun r => ⟨n, r.probe, r.voice⟩).toList
  | _ => []

/-- The channels that a readout kind affects (Table 12-3): those of the slice. -/
def affectedChans (s : State) (n : StallId) (t : BitVec 8) : List ChanId :=
  match targetOf t with
  | .acq k => if k.val = 4 then [] else boundChans s n k
  | .chan c => match fin? 5 (chanBind s ⟨n, c⟩).slice.toNat with | some k => boundChans s n k | none => [⟨n, c⟩]
  | _ => []

/-- The owners of the objects that a calibration affects (Table 12-3). -/
def affectedOwners (s : State) (n : StallId) (t : BitVec 8) : List Owner :=
  ((affectedVoices s n t).map fun v => (voiceBind s v).owner) ++ (affectedChans s n t).map fun c => (chanBind s c).owner

/-- An owner may start a calibration (R515): owner 0, or the owner of every affected object. -/
def mayCalibrate (s : State) (n : StallId) (o : Owner) (t : BitVec 8) : Bool :=
  decide (o.val = 0) || (affectedOwners s n t).all (· == o)

/-- What refuses a kind on a target before the matter of what runs (R494, R496, R515). -/
def calCode (s : State) (n : StallId) (o : Owner) (k : CalKind) (t : BitVec 8) : Option Code :=
  let sp := (getStall s n).spareAcq
  if !kindFits s n k t || !bit (imageOf s n).farrier.kindEn (kindNum k - 1) || !mayCalibrate s n o t then some 0x1902
  else if readoutKind k && (!bit (imageOf s n).policy 19 || sp.bad || sp.use == .replacing || sp.use == .switching) then some 0x1903
  else none

/-! ## The fit of a plane set (R502 to R504) -/

/-- round(√(a / b)). -/
def roundSqrt (a b : Nat) : Nat := (isqrt (4 * a / b) + 1) / 2

/-- A signed number of a magnitude. -/
def signed (neg : Bool) (m : Nat) : Int := if neg then -(m : Int) else m

/-- round(32,768 × x / √D), a coefficient of the normal; 32,768 does not fit its field. -/
def normalCoef (ctr : Nat) (x : Int) (d : Nat) : BitVec 16 :=
  let m := roundSqrt (2 ^ 30 * (x.natAbs * x.natAbs)) d
  if 0 ≤ x ∧ m = 32768 then BitVec.ofInt 16 (Config.planeFree ctr 0) else BitVec.ofInt 16 (signed (decide (x < 0)) m)

/-- The largest k_sh from 0 to 31 whose k fits 16 bits (R503): k = round(512 × 2^k_sh / M) with M = σ_a + σ_b. -/
def planeShift (m : Nat) : Nat := ((List.range 32).filter fun j => (1024 * 2 ^ j + m) / (2 * m) ≤ 65535).getLastD 0

/-- The plane between two states with their standard deviations along its normal, and 256 × its separation (R502 to R504). -/
def fitPlane (ctr : Nat) (a b : Centroid) (sa sb : Nat) : Plane × Nat :=
  let dx := b.i - a.i
  let dy := b.q - a.q
  let d := (dx * dx + dy * dy).natAbs
  let m := sa + sb
  if d = 0 ∨ m = 0 then
    ({ a := BitVec.ofInt 16 (Config.planeFree ctr 1), b := BitVec.ofInt 16 (Config.planeFree ctr 2), c := BitVec.ofInt 32 (Config.planeFree ctr 3)
       ksh := BitVec.ofInt 5 (Config.planeFree ctr 4), k := BitVec.ofInt 16 (Config.planeFree ctr 5) }, (Config.planeFree ctr 6).natAbs)
  else
    let num : Int := (dx * a.i + dy * a.q) * m + (d : Int) * sa
    let c := signed (decide (num < 0)) (roundSqrt (num.natAbs * num.natAbs) (m * m * d))
    let j := planeShift m
    ({ a := normalCoef ctr dx d, b := normalCoef (ctr + 1) dy d, c := BitVec.ofInt 32 c, ksh := BitVec.ofNat 5 j
       k := BitVec.ofNat 16 ((1024 * 2 ^ j + m) / (2 * m)) }, isqrt (65536 * d) / m)

/-- Separation in Q8.8; one that its field cannot hold is a free value. -/
def sepField (ctr : Nat) (x : Nat) : BitVec 16 := if x ≤ 65535 then BitVec.ofNat 16 x else BitVec.ofInt 16 (Config.planeFree ctr 7)

/-- The squared distance of two centroids. -/
def dist2 (a b : Centroid) : Nat := ((a.i - b.i) * (a.i - b.i) + (a.q - b.q) * (a.q - b.q)).natAbs

/-- The state whose reference lies nearest to a cluster (R501). -/
def nearest (refs : List Centroid) (c : Centroid) : Nat :=
  let ds := refs.map (dist2 c)
  (ds.zipIdx.foldl (fun best x => match best with | some (d, i) => if x.1 < d then some x else some (d, i) | none => some x) none).elim 0 (·.2)

/-- The clusters in the order of the states that they are labelled with (R501); where two claim one state they keep the order given (log entry 165). -/
def labelled (refs : List Centroid) (cs : List (List (Int × Int) × Centroid)) : List (List (Int × Int) × Centroid) :=
  let byState := (List.range cs.length).filterMap fun k => cs.find? fun c => nearest refs c.2 == k
  if byState.length = cs.length then byState else cs

/-- The nearest whole number to a quotient; a half rounds up. -/
def roundDiv (x : Int) (n : Nat) : Int := (2 * x + n) / (2 * n)

/-- The centroid of the windows of a cluster (R501); a cluster without windows has none, so its place is a free value. -/
def meanOf (ctr : Nat) (ws : List (Int × Int)) : Centroid :=
  if ws = [] then { i := Config.planeFree ctr 8, q := Config.planeFree ctr 9 }
  else { i := roundDiv (ws.map (·.1)).sum ws.length, q := roundDiv (ws.map (·.2)).sum ws.length }

/-- The standard deviation of the windows of a cluster along the line through two centroids (R501), rounded; 0 where it is not determined. -/
def sigmaAlong (ws : List (Int × Int)) (c a b : Centroid) : Nat :=
  let dx := b.i - a.i
  let dy := b.q - a.q
  let sq := (ws.map fun w => let p := (w.1 - c.i) * dx + (w.2 - c.q) * dy; (p * p).natAbs).sum
  let d := (dx * dx + dy * dy).natAbs * ws.length
  if d = 0 then 0 else roundSqrt sq d

/-- The centroids of labelled clusters with their standard deviations along the normals that concern them (R501, R502). -/
def withSigmas (cs : List (List (Int × Int) × Centroid)) : List Centroid :=
  let along (x : List (Int × Int) × Centroid) (a b : Centroid) : Nat := sigmaAlong x.1 x.2 a b
  match cs with
  | [x, y] => [{ x.2 with sigma := along x x.2 y.2 }, { y.2 with sigma := along y x.2 y.2 }]
  | [x, y, z] =>
    [ { x.2 with sigma := along x x.2 y.2, sigma2 := along x x.2 z.2 }
    , { y.2 with sigma := along y x.2 y.2, sigma2 := along y y.2 z.2 }
    , { z.2 with sigma := along z y.2 z.2, sigma2 := along z x.2 z.2 } ]
  | _ => cs.map (·.2)

/-- A plane set of 2 or 3 clusters, with 256 × its smallest separation (R502, R504). -/
def fitSet (ctr : Nat) (rot : BitVec 16) (cs : List Centroid) : PlaneSet × Nat :=
  match cs with
  | [a, b] =>
    let (p, d) := fitPlane ctr a b a.sigma b.sigma
    ({ rot, en := 1, map := 0x0004, p0 := p }, d)
  | [a, b, c] =>
    let (p, d) := fitPlane ctr a b a.sigma b.sigma
    let (q, e) := fitPlane (ctr + 2) b c b.sigma2 c.sigma
    let (r, g) := fitPlane (ctr + 4) a c a.sigma2 c.sigma2
    ({ rot, en := 7, map := 0xA7C4, p0 := p, p1 := q, p2 := r }, min d (min e g))
  | _ => ({ rot }, 0)

/-! ## Alignment of rot (R505) -/

/-- The angle of a point of the first quarter, rounded to 2^-16 turn: the greatest r whose lower rounding limit it reaches. -/
def quarterAngle (x y : Int) : Nat → Nat → Nat
  | 0, r => r
  | k + 1, r =>
    let t := r + 2 ^ k
    let cs := cosSin (BitVec.ofNat 49 ((2 * t - 1) * 2 ^ 32))
    quarterAngle x y k (if t ≤ 16384 ∧ 0 ≤ y * cs.1 - x * cs.2 then t else r)

/-- The angle of a point in 2^-16 turn, rounded to nearest; 0 for the origin. -/
def angleOf (x y : Int) : BitVec 16 :=
  if 0 < x ∧ 0 ≤ y then BitVec.ofNat 16 (quarterAngle x y 15 0)
  else if x ≤ 0 ∧ 0 < y then BitVec.ofNat 16 (0x4000 + quarterAngle y (-x) 15 0)
  else if x < 0 ∧ y ≤ 0 then BitVec.ofNat 16 (0x8000 + quarterAngle (-x) (-y) 15 0)
  else if y < 0 then BitVec.ofNat 16 (0xC000 + quarterAngle (-y) x 15 0)
  else 0

/-- A centroid turned back by an angle of 2^-16 turn, rounded to whole units. -/
def turnBack (a : BitVec 16) (c : Centroid) : Centroid :=
  let cs := cosSin (a ++ 0#33)
  { c with i := (c.i * cs.1 + c.q * cs.2 + 2 ^ 95) / 2 ^ 96, q := (c.q * cs.1 - c.i * cs.2 + 2 ^ 95) / 2 ^ 96 }

/-- With align_rot, rot turns μ_1 − μ_0 onto the +I axis, and the points turn with it (R505). -/
def alignRot (align : Bool) (rot : BitVec 16) (cs : List Centroid) : BitVec 16 × List Centroid :=
  match align, cs with
  | true, a :: b :: _ => let t := angleOf (b.i - a.i) (b.q - a.q); (rot + t, cs.map (turnBack t))
  | _, _ => (rot, cs)

/-- The centroids against which clusters are labelled and their shift is judged: the accepted ones in force, or the seeds (R501, R506). -/
def refCentroids (s : State) (c : ChanId) : List Centroid :=
  match tabFind c.num.val (getTrims s c.stall).chans with
  | some e => if e.accepted ∧ !e.cents.isEmpty then e.cents else (chanBind s c).seeds
  | none => (chanBind s c).seeds

/-- What fails a PLANES fit (Table 12-2): its code. -/
def planesCode (fa : Farrier) (counts : List Nat) (cs refs : List Centroid) (sep : Nat) : Option Code :=
  if counts.sum < fa.minWindows.toNat ∨ counts.any (· < fa.minPerState.toNat) then some 0x2902
  else if sep < fa.minSep.toNat then some 0x2901
  else if (cs.zip refs).any (fun x => fa.maxShift.toNat * fa.maxShift.toNat * (x.1.sigma * x.1.sigma) < 65536 * dist2 x.1 x.2) then some 0x2904
  else none

/-- A lane trim of SKEW moves by more than 24 fine steps from an accepted one (Table 12-2, R507). -/
def skewMoves (old : Tab Trim) (vals : Tab (BitVec 32)) : Bool :=
  vals.any fun v =>
    match tabFind v.1 old with
    | some t => t.accepted && decide (24 < ((t.value.toNat : Int) - v.2.toNat).natAbs)
    | none => false

/-- What fails a calibration of kinds 1 to 5 (Table 12-2): figures are in Q8.8. -/
def trimsCode (fa : Farrier) (old : Trims) (k : CalKind) (figure : BitVec 16) (inRange : Bool) (vals : Tab (BitVec 32)) : Option Code :=
  let atLeast (x : BitVec 8) : Bool := decide (x.toNat * 256 ≤ figure.toNat)
  let atMost (x : BitVec 8) : Bool := decide (figure.toNat ≤ x.toNat * 256)
  match k with
  | .adcIl => if atLeast fa.minSpur && inRange then none else some 0x2901
  | .dac => if atLeast fa.minSpur && inRange then none else some 0x2901
  | .iq => if atLeast fa.minImage then none else some 0x2901
  | .skew => if !atMost fa.maxSkew then some 0x2901 else if skewMoves old.skew vals then some 0x2904 else none
  | .marker => if atMost fa.maxMarker then none else some 0x2901
  | .planes => some 0x2902

/-! ## What observation needs (R497, R498, R500) -/

/-- ADC samples and observation samples of one block. -/
def blockSamples : Nat := 2 ^ 20

/-- A block of an acquisition slice has a variance of 16 LSB² or more (R498). -/
def blockHasPower (n : StallId) (k : Fin 5) (b : Nat) : Bool :=
  let x (i : Nat) : Int := adcAt {} n k (b * blockSamples + i : Nat)
  let sum := (List.range blockSamples).foldl (fun a i => a + x i) 0
  let squares := (List.range blockSamples).foldl (fun a i => a + x i * x i) 0
  decide (16 * (blockSamples * blockSamples : Nat) ≤ blockSamples * squares - sum * sum)

/-- The drive or probe slice whose tap a calibration of kinds 2 to 5 observes: the target, or the slice of the voice routed to a marker output. -/
def tapSlice (s : State) (n : StallId) (k : CalKind) (t : BitVec 8) : Option SliceId :=
  match k, targetOf t with
  | .marker, .marker m =>
    (tabFind m.val (imageOf s n).markers).bind fun r =>
      let v : VoiceId := ⟨n, r.probe, r.voice⟩
      (fin? 9 (voiceBind s v).slice.toNat).map fun i => ⟨n, if r.probe then .probe else .drive, i⟩
  | .adcIl, _ => none
  | .planes, _ => none
  | _, x => targetSlice n x

/-- A natural gap of a slice (R497): its summed output has been zero for 50 frames since an instant, or no rider that posted to one of its voices in its
last shot is in a shot. -/
def naturalGap (s : State) (i : SliceId) (since : Fine) : Bool :=
  let vs := boundVoices s i
  let still := decide (since + 50 * fineFrame ≤ s.clock.now) && quietFor (50 * fineFrame) (getSlice s i).loudTo s
  let apart := (stallRiders i.stall).all fun r =>
    let x := getRider s r
    !(x.shot.active && vs.any fun v => x.shot.voices.contains (voiceKey v) || x.lastVoices.contains (voiceKey v))
  still || apart

/-- A slice has given an output other than zero since an instant. -/
def playedSince (s : State) (i : SliceId) (since : Fine) : Bool := (getSlice s i).loudTo.any fun t => decide (since < t)

/-- Kinds 2 to 5 have what they need on a working slice: live pulses and a natural gap (R497, R500); on a spare in no use the Farrier's stimulus serves
(R495). -/
def tapServed (s : State) (n : StallId) (c : Calib) : Bool :=
  match tapSlice s n c.kind c.target with
  | none => true
  | some i => match logical s i with | none => isSpare i | some j => c.gap && playedSince s j c.phaseAt

/-- The sub-converters, cores, lanes or output for which a calibration of kinds 1 to 5 produces a value (Table 12-1, R493). -/
def valueKeys (n : StallId) (k : CalKind) (t : BitVec 8) : List Nat :=
  let lanes : List Nat := match targetSlice n (targetOf t) with | some i => (List.range (sliceLanes i).2).map (· + (sliceLanes i).1) | none => []
  match k with
  | .adcIl => List.range 16
  | .dac => List.range 4
  | .iq => lanes
  | .skew => lanes
  | .marker => [0]
  | .planes => []

/-- ADC_IL has met a block with input power (R498), kinds 2 to 5 what R497 asks, and there is a value for each part of the target (R493); PLANES names a
cluster for each window collected (R501). -/
def observedEnough (s : State) (n : StallId) (c : Calib) (o : Observation) : Bool :=
  match o, c.kind with
  | .planes clusters, .planes => decide (clusters.length = c.windows.length)
  | .planes _, _ => false
  | .trims _ _ _, .planes => false
  | .trims _ _ vals, k => decide (vals.map (·.1) = valueKeys n k c.target) && (if k = .adcIl then decide (c.obs ≠ 0) else tapServed s n c)

/-- One beat of an observation in phase 2: the block that ends is counted (R498, R512), on a working acquisition slice outside HARNESSED alone (R500),
the progress of a kind whose sample count is not given gets on (log entry 162), and a natural gap is noted (R497). -/
def tickFarrier (n : StallId) (s : State) : State :=
  let c := (getFarrier s n).cal
  let block (step : Nat) : Bool := decide (s.clock.sched % (blockSamples * step) = 0) && decide (c.phaseAt + blockSamples * step ≤ s.clock.now)
  let observing (s : State) : State := freshen (modFarrier n (fun x => { x with op := paced 799 s.freeCtr x.op }) s)
  if c.running ∧ c.phase = 2 then
    match c.kind, targetOf c.target with
    | .planes, _ => s
    | .adcIl, .acq k => observing <| if (decide (k.val = 4) || decide ((getStall s n).life ≠ .harnessed)) && block 24 && blockHasPower n k (s.clock.sched / (blockSamples * 24) - 1) then observeOne n 1 s else s
    | _, _ =>
      let s := observing (if block 16 then observeOne n 1 s else s)
      match (tapSlice s n c.kind c.target).bind (logical s) with
      | some i => if naturalGap s i c.phaseAt then modFarrier n (fun x => { x with cal := { x.cal with gap := true } }) s else s
      | none => s
  else s

/-! ## Ends of a calibration -/

/-- The source of a stall's Farrier (Table 19-6). -/
def farrierSource (n : StallId) : Nat := n.val * 256 + 0x1B

/-- Key under which the end of a target's last run stands (R514). -/
def runKey (k : CalKind) (t : BitVec 8) : Nat := kindNum k * 256 + t.toNat

/-- The calibration has ended for which a requested takeover waited: its time limit runs from now (R52). -/
def wakeSpareReq (n : StallId) (s : State) : State :=
  modStall n (fun x =>
    { x with spareReq := x.spareReq.map fun r => if r.waitsFarrier then { r with waitsFarrier := false, at_ := s.clock.now } else r }) s

/-- A4 out of its Farrier use: idle, or switching for the takeover that was requested meanwhile (R52). -/
def releasedA4 (req : Option SpareReq) (x : Spare) : Spare :=
  match req with
  | some { kind := .acq, target := some t, .. } => { x with use := .switching, target := t, live := false }
  | _ => { x with use := .idle, target := 0xF, live := false }

/-- A4 leaves its Farrier use. -/
def freeA4 (n : StallId) (s : State) : State :=
  if (getStall s n).spareAcq.use = .farrier then modStall n (fun x => { x with spareAcq := releasedA4 x.spareReq x.spareAcq }) s else s

/-- A calibration ends with an operation status (R512). -/
def stopCal (n : StallId) (op : OpStatus) (s : State) : State :=
  raise (farrierSource n) (modFarrier n (fun x =>
    { x with op, cal := { x.cal with running := false, phase := 0, values := none }
             lastEnd := tabSet x.lastEnd (runKey x.cal.kind x.cal.target) s.clock.now }) (wakeSpareReq n s))

/-- A calibration that does not reach acceptance ends, with the values in force kept (R506, R513, R511, R516, R517); a slice that A4 stands for
is still to return to service. -/
def endCal (n : StallId) (st : OpState) (code : Code) (s : State) : State :=
  let s := stopCal n (opEnd st code (getFarrier s n).op) s
  let s := if st = .failed then modFarrier n (fun x => { x with rejected := satInc x.rejected }) s else s
  let s := record code n.val 0 0 0 s
  if (getStall s n).spareAcq.use = .farrier then modFarrier n (fun x => { x with cal := { x.cal with returning := true } }) s else s

/-- A calibration is aborted before phase 4 by a stall state, a takeover or a slice fault (R517).  One that waits in phase 4 goes on to its quiet boundary
or its timeout (DEDUCED, log entry 184). -/
def abortCal (n : StallId) (which : Calib → Bool) (s : State) : State :=
  let c := (getFarrier s n).cal
  if c.running ∧ c.phase < 4 ∧ which c then endCal n .aborted 0x0902 s else s

/-- The stall leaves towards STABLED or OFF (R517): A4 is free at once. -/
def leaveCal (n : StallId) (s : State) : State :=
  freeA4 n (modFarrier n (fun x => { x with cal := { x.cal with returning := false } }) (abortCal n (fun _ => true) s))

/-! ## The stud book (R518 to R521, R638 to R640) -/

/-- The stud book of a stall. -/
def getStud (s : State) (n : StallId) : Stud := tabGet {} s.persist.studs n.val

/-- Change the stud book of a stall. -/
def modStud (n : StallId) (f : Stud → Stud) (s : State) : State := setPersist (fun p => { p with studs := tabMod {} p.studs n.val f }) s

/-- The copy that a load takes (R639): true for copy B; none when both fail. -/
def studPick (x : Stud) : Option Bool :=
  match x.a.ok, x.b.ok with
  | true, true => some (decide (x.a.seq < x.b.seq))
  | true, false => some false
  | false, true => some true
  | false, false => none

/-- The contents of the copy that a load takes. -/
def studCopy (x : Stud) : Option StudCopy := (studPick x).map fun b => if b then x.b else x.a

/-- A table with the entries of another laid over it. -/
def overlaid {α : Type} (t pend : Tab α) : Tab α := pend.foldl (fun acc e => tabSet acc e.1 e.2) t

/-- The accepted trims as a copy holds them, those that wait to take effect among them, with the entries of channels that the copy already held. -/
def trimsAsCopy (t : Trims) (old : StudCopy) : StudCopy :=
  { old with slices := overlaid t.slices t.pendSlices, skew := t.skew, iq := overlaid t.iq t.pendIq, markers := overlaid t.markers t.pendMarkers
             chans := (t.chans.filter fun e => e.2.accepted).foldl (fun acc e => tabSet acc e.1 e.2) old.chans }

/-- The sequence above the higher of the copies that pass (R638, R639). -/
def nextSeq (x : Stud) : Nat := max (if x.a.ok then x.a.seq else 0) (if x.b.ok then x.b.seq else 0) + 1

/-- The copy that a record writes first (R638): true for B. -/
def writesBFirst (x : Stud) : Bool :=
  match x.a.ok, x.b.ok with
  | true, true => decide (x.b.seq < x.a.seq)
  | true, false => true
  | false, _ => false

/-- A record of the trims in force (R518, R519); `bad` names a copy whose read-back differs: the first written (some false) or the second. -/
def recordStud (n : StallId) (bad : Option Bool) (s : State) : State :=
  let x := getStud s n
  let new : StudCopy := { trimsAsCopy (getTrims s n) ((studCopy x).getD {}) with seq := nextSeq x, ok := true }
  let broken : StudCopy := { new with ok := false }
  let first := if bad = some false then broken else new
  let set (b : Bool) (c : StudCopy) (y : Stud) : Stud := if b then { y with b := c, bOk := c.ok } else { y with a := c, aOk := c.ok }
  let b1 := writesBFirst x
  modStud n (fun y =>
    let y := set b1 first y
    if bad = some false then y else set (!b1) (if bad = some true then broken else new) y) s

/-- The stud book of a stall is loaded at its POWER_UP, which may find that a copy fails its check (R639, R640). -/
def loadStud (n : StallId) (okA okB : Bool) (s : State) : State :=
  let s := modStud n (fun y => { y with a := { y.a with ok := y.a.ok && okA }, b := { y.b with ok := y.b.ok && okB } }) s
  let x := getStud s n
  let s := modStud n (fun y => { y with aOk := x.a.ok, bOk := x.b.ok, factory := (studPick x).isNone }) s
  match studCopy x with
  | some c =>
    let s := modTrims n (fun _ => { slices := c.slices, skew := c.skew, iq := c.iq, markers := c.markers }) s
    let s := modStall n (fun y => { y with factoryHold := false }) s
    if x.a.ok ∧ x.b.ok then s else record 0x0D62 n.val 0 0 0 s
  | none =>
    let s := modTrims n (fun _ => {}) s
    record 0x3D62 n.val 0 0 0 (modStall n (fun y => { y with factoryHold := true }) s)

/-! ## Trims of voices (R176, R177, R195) -/

/-- The skew trim of a lane: the accepted one, or the factory trim of the fuses (R176, R640). -/
def skewOf (s : State) (n : StallId) (skew : Tab Trim) (lane : Nat) : BitVec 8 :=
  let t := tabGet {} skew lane
  if t.accepted then bits t.value 0 8 else tabGet 0 s.persist.factoryTrim (n.val * 256 + lane)

/-- The skew trim of a voice's lane (R176). -/
def laneTrim (s : State) (v : VoiceId) : BitVec 8 :=
  match voiceLane s v with
  | some k => skewOf s v.stall (getTrims s v.stall).skew k
  | none => 0

/-- The trims of voices wait for their voices to fall silent (R178). -/
def stageTrims (vs : List VoiceId) (s : State) : State :=
  forEach vs (fun v s => modVoice v (fun x => { x with pendTrim := some (laneTrim s v) }) s) s

/-- Key of a slice's trims in a stud-book copy: A0 to A4, D0 to D8, P0 to P4 (Table 12-5). -/
def trimKey (i : SliceId) : Nat := (match i.kind with | .acq => 0 | .drive => 5 | .probe => 14) + i.idx.val

/-! ## Trims that wait (Table 12-3) -/

/-- The drive or probe slice of a trim key. -/
def trimSlice (n : StallId) (k : Nat) : Option SliceId :=
  if k < 14 then (fin? 9 (k - 5)).map (⟨n, .drive, ·⟩) else (fin? 5 (k - 14)).map fun i => ⟨n, .probe, i.castLE (by omega)⟩

/-- The output of a converter has been zero for 2 frames: that of the slice it plays, or nothing. -/
def converterSilent (s : State) (i : SliceId) : Bool := match logical s i with | some j => voicesSilent s j | none => true

/-- DAC core trims take effect at the first frame boundary at which the summed output has been zero for 2 frames. -/
def tickCores (n : StallId) (s : State) : State :=
  if s.clock.sched % fineFrame = 0 then
    forEach (getTrims s n).pendSlices (fun e s =>
      if (trimSlice n e.1).all (converterSilent s) then
        modTrims n (fun t => { t with slices := tabSet t.slices e.1 e.2, pendSlices := tabDel t.pendSlices e.1 }) s
      else s) s
  else s

/-- The voice that the image routes to a marker output has not played for 1 beat, or there is none. -/
def markerStill (s : State) (n : StallId) (m : Nat) : Bool :=
  (tabFind m (imageOf s n).markers).all fun r =>
    let v : VoiceId := ⟨n, r.probe, r.voice⟩
    !playing s v && quietFor fineBeat (getVoice s v).playedTo s

/-- A marker output's trim takes effect when its voice has not played for 1 beat. -/
def tickMarkers (n : StallId) (s : State) : State :=
  forEach (getTrims s n).pendMarkers (fun e s =>
    if markerStill s n e.1 then modTrims n (fun t => { t with markers := tabSet t.markers e.1 e.2, pendMarkers := tabDel t.pendMarkers e.1 }) s
    else s) s

/-- One beat of the trims that wait. -/
def tickTrims (n : StallId) (s : State) : State := tickMarkers n (tickCores n s)

/-! ## Channels -/

/-- The bytes of a kernel bank, tap by tap. -/
def kernelBytes (s : State) (c : ChanId) (bank : Bool) : List Byte := (memRead 0 s.kernels (kernelKey c bank 0) 4096).flatMap leBytes

/-- The CRC-32 of the kernel bank that bank_sel names in force (R521). -/
def kernelCrc (s : State) (c : ChanId) : Word := crc32 (kernelBytes s c (getChan s c).ints.bank)

/-- A plane set is staged and committed by the Farrier (R271, R510). -/
def commitPlanes (c : ChanId) (x : PlaneSet) (s : State) : State := modChan c (fun y => { y with stagedPlane := x, pendPlane := some x }) s

end Sys2Proof.Machine
end

