-- ==== Sys2Proof/Machine/FluxOps.lean ====
section
/-!
DEFINITION. What happens inside a flux line (chapter 10): goals, the curb, span changes, generators, the fast path and group faults.
-/

namespace Sys2Proof.Machine

open Sys2Proof

/-! ## The DC path -/

/-- The value of a DC code in a span (R420). -/
def codeVal (span : BitVec 2) (c : BitVec 18) : Int := if span = 3 then (c.toNat : Int) else c.toInt

/-- A line takes a goal (R424, R430): during a span switch or phase 1 only the stored goal changes, and a generator keeps the line. -/
def setGoal (g : DcPoint) (x : Line) : Line :=
  let x := { x with goal := g }
  match x.dc with
  | .steady => if g.span ≠ x.spanNow then { x with dc := .phase1 } else if g.code = x.codeNow then x else { x with dc := .ramping }
  | .ramping => if g.span ≠ x.spanNow then { x with dc := .phase1 } else x
  | .phase3 => if g.span ≠ x.spanNow then { x with dc := .phase1 } else x
  | _ => x

/-- One move of at most `step` toward a value (R423). -/
def moveTo (target : Int) (step : Nat) (x : Line) : Line :=
  let v := codeVal x.spanNow x.codeNow
  let d := target - v
  let k := max (-(step : Int)) (min (step : Int) d)
  { x with codeNow := BitVec.ofInt 18 (v + k), lastMove := some 0 }

/-- A move may come: `period` ticks after the previous one (R423). -/
def mayMove (x : Line) : Bool := match x.lastMove with | none => true | some k => decide (x.curb.period.toNat ≤ k)

/-- A ramp to the goal: a move, or steady at the tick after the last one (Table 10-10). -/
def rampTick (x : Line) : Line :=
  if x.codeNow = x.goal.code then { x with dc := .steady }
  else if mayMove x then moveTo (codeVal x.spanNow x.goal.code) x.curb.step.toNat x
  else x

/-- A triangle or sawtooth generator at a tick (Table 10-3). -/
def cycleTick (x : Line) : Line :=
  let rising := if x.genRising ∧ x.codeNow = x.genHi then false else if !x.genRising ∧ x.codeNow = x.genLo then true else x.genRising
  let x := { x with genRising := rising }
  let target := if rising then x.genHi else x.genLo
  let step := if x.genMode = 2 ∧ !rising then x.curb.step.toNat else min x.genStep.toNat x.curb.step.toNat
  if mayMove x ∧ x.codeNow ≠ target then moveTo (codeVal x.spanNow target) step x else x

/-- The noise generator at a tick (Table 10-3): a new goal every gen_hold ticks, toward which the curb moves. -/
def noiseTick (line : Nat) (x : Line) : Line :=
  let lo := codeVal x.spanNow x.genLo
  let span := (codeVal x.spanNow x.genHi - lo).toNat + 1
  let x := if x.genTicks = 0 then
      { x with
        genGoal := BitVec.ofInt 18 (lo + (Config.noise x.genSeed line x.genIndex % span : Nat))
        genIndex := x.genIndex + 1, genTicks := x.genHold.toNat - 1 }
    else { x with genTicks := x.genTicks - 1 }
  if mayMove x ∧ x.codeNow ≠ x.genGoal then moveTo (codeVal x.spanNow x.genGoal) x.curb.step.toNat x else x

/-- A generator at a tick (R434): it ramps to lo under the curb, then runs, rising first. -/
def genTick (line : Nat) (x : Line) : Line :=
  if x.genRunning ∨ x.codeNow = x.genLo then
    let x : Line := if x.genRunning then x else { x with genRunning := true, genRising := true, genIndex := 0, genTicks := 0 }
    if x.genMode = 3 then noiseTick line x else cycleTick x
  else if mayMove x then moveTo (codeVal x.spanNow x.genLo) x.curb.step.toNat x
  else x

/-- A line whose persisted values failed stays at 0 V (R445): one that a reset left off 0 V comes there first. -/
def restBad (x : Line) : Line := if x.persistBad ∧ x.dc = .steady then { x with dc := .halter } else x

/-- A generator whose mode is set takes the line over at a DC tick at which it plays (R434, Table 10-4), no span switch being in progress. -/
def startsGen (x : Line) : Bool :=
  decide (x.genMode ≠ 0) && (match x.dc with | .steady => true | .ramping => true | .phase1 => true | .phase3 => true | _ => false)

/-- A line at a DC tick (R422 to R436, Table 10-2). -/
def tickLine (plays : Bool) (line : Nat) (x : Line) : Line :=
  if !x.connected then x
  else
    let x : Line := { x with lastMove := x.lastMove.map fun k => min (k + 1) 65535 }
    let x : Line := if plays ∧ startsGen x then { x with dc := .generator, entering := none } else x
    restBad <| match x.dc with
    | .steady => x
    | .ramping => rampTick x
    | .phase1 =>
      if codeVal x.spanNow x.codeNow = 0 then { x with dc := .switching, entering := some x.goal.span }
      else if mayMove x then moveTo 0 x.curb.step.toNat x
      else x
    | .switching => x
    | .phase3 => rampTick x
    | .generator => if plays then genTick line x else x
    | .halter => x

/-- The switch to a new span is complete (Table 10-2, R430). -/
def switchDone (x : Line) : Line :=
  match x.dc, x.entering with
  | .switching, some sp =>
    let x : Line := { x with spanNow := sp, entering := none }
    if x.goal.span ≠ sp then { x with dc := .phase1 }
    else { x with dc := .phase3 }
  | _, _ => x

/-- Generators play in RIDING, and in RESTING before HALT (Table 10-4). -/
def stallPlays (s : State) (n : StallId) : Bool :=
  match (getStall s n).life with
  | .riding => true
  | .resting => (getStall s n).draining
  | _ => false

/-- Every line of the module at a DC tick: a line without a record is steady at code 0. -/
def tickLines (s : State) : State :=
  { s with lines := s.lines.map fun e =>
      let plays : Bool := match fin? 8 (e.1 / 64) with | some n => stallPlays s n | none => false
      (e.1, tickLine plays (e.1 % 64) e.2) }

/-- A line's goal becomes its safe value (R446, R443). -/
def goSafe (l : LineId) (s : State) : State := modLine l (fun x => setGoal x.safe x) s

/-- A line's goal becomes code 0 in its present span (R616). -/
def zeroLine (x : Line) : Line :=
  let dc : DcState := if x.dc = .generator ∨ x.dc = .phase1 then .ramping else x.dc
  let y : Line := { x with genMode := 0, genRunning := false, dc := dc }
  setGoal { span := x.entering.getD x.spanNow, code := 0 } y

/-- A generator stops: the curb ramps to the stored goal (R436). -/
def stopGen (x : Line) : Line :=
  let x := { x with genMode := 0, genRunning := false }
  match x.dc with
  | .generator => setGoal x.goal { x with dc := .steady }
  | _ => x

/-- A generator is set, or its mode changes (R434): it starts at a later DC tick. -/
def startGen (mode : BitVec 2) (x : Line) : Line := { x with genMode := mode, genRunning := false }

/-! ## The fast path -/

/-- Tap k of a line's edge table (R437): unity unless written. -/
def edgeTap (x : Fast) (k : Nat) : BitVec 16 := tabGet 0x8000 x.edge k

/-- Limit a fast code, with whether it clipped (R438). -/
def clipFast (v : Int) : BitVec 16 × Bool :=
  if v < -32768 then (0x8000, true) else if 32767 < v then (0x7FFF, true) else (BitVec.ofInt 16 v, false)

/-- A product of a Q1.15 factor in whole units: the rounding of one that is no whole number is not given (R437), so it is free. -/
def wholeQ15 (p : Int) : Int := if p % 32768 = 0 ∨ !Config.roundsUp p then p / 32768 else p / 32768 + 1

/-- Sample k of a change (R437): old + (new - old) e[k]; past the edge it is new. -/
def fastSample (x : Fast) (k : Nat) : BitVec 16 × Bool :=
  if k < 32 then clipFast (x.old.toInt + wholeQ15 ((x.level.toInt - x.old.toInt) * (edgeTap x k).toNat)) else (x.level, false)

/-- The output code of the fast path at an instant: a fast sample is 128 fine steps; 0 in a beat in which the gate ran empty (R76, R442). -/
def fastOutput (x : Fast) (at_ : Fine) : BitVec 16 :=
  if x.zeroFrom ≤ at_ ∧ at_ < x.zeroTo then 0
  else
    match x.changeAt with
    | some t => (fastSample x ((at_ - t) / 128)).1
    | none => x.level

/-- The voltage of one LSB of a span (Table 10-1) in units of 2^-18 V. -/
def spanUnit : BitVec 2 → Int
  | 0 => 2
  | 1 => 5
  | 2 => 10
  | _ => 5

/-- The voltage of a line's pin at an instant (R416, R418) in units of 2^-18 V: the DC path in the span in force and the fast path, whose LSB of
0.5 V / 32,768 is 4 units; 0 while the output switch is open. -/
def pinVoltage (x : Line) (y : Fast) (at_ : Fine) : Int :=
  if x.connected then codeVal x.spanNow x.codeNow * spanUnit x.spanNow + (fastOutput y at_).toInt * 4 else 0

/-- The samples of a change that lie before an instant (R437). -/
def samplesBefore (x : Fast) (until_ : Fine) : Nat := match x.changeAt with | some t => min 32 ((until_ - t + 127) / 128) | none => 0

/-- The samples of a change before an instant that clip and are not counted yet (R438). -/
def clipsBefore (x : Fast) (until_ : Fine) : Nat :=
  (((List.range (samplesBefore x until_)).drop x.counted).filter fun k => (fastSample x k).2).length

/-- Record a code on a line. -/
def recordLine (code : Code) (l : LineId) (s : State) : State :=
  record code l.stall.val (lineBind s l).owner (lineObject l) 0 s

/-- The clipped samples of the change in progress count up to an instant (R438). -/
def countClips (l : LineId) (until_ : Fine) (s : State) : State :=
  let x := getFast s l
  let clips := clipsBefore x until_
  let s := modFast l (fun x => { x with counted := max x.counted (samplesBefore x until_), clipped := satAdd x.clipped clips }) s
  if x.clipped = 0 ∧ 0 < clips then recordLine 0x3504 l s else s

/-- A change of level starts at a frame boundary, from the value reached (R437). -/
def changeLevel (l : LineId) (level : BitVec 16) (frame : Nat) (s : State) : State :=
  let at_ := frame * fineFrame
  modFast l (fun x => { x with old := fastOutput x at_, level, changeAt := some at_, counted := 0 }) (countClips l at_ s)

/-- The group's fast domain is left off by STALL_POWER (R619). -/
def fastOff (s : State) (g : GroupId) : Bool := hasImage s g.stall && !bit (imageOf s g.stall).power (21 + g.num.val)

/-- Posted levels play (R442). -/
def fastPlays (s : State) (l : LineId) : Bool :=
  stallPlays s l.stall && (getFast s l).en && !fastOff s (lineGroup l) && bit s.power.domOn (30 * l.stall.val + 21 + (lineGroup l).num.val)

/-- The first frame boundary at least 8 frames after now (R439, R440). -/
def earliestFast (s : State) : Nat := (s.clock.sched + fineFrame - 1) / fineFrame + 8

/-- A post enters in frame order; one for the same frame replaces the level (R439, R441). -/
def insertPost (p : FastPost) : List FastPost → List FastPost
  | [] => [p]
  | q :: rest => if p.frame < q.frame then p :: q :: rest else if p.frame = q.frame then p :: rest else q :: insertPost p rest

/-- A line has no room for a post: four are pending (R439). -/
def fastFull (x : Fast) : Bool := decide (4 ≤ x.posts.length)

/-- A fast level is granted for a frame, or, when late, for the first frame it can meet (R439, R440). -/
def grantFast (l : LineId) (frame : Nat) (level : BitVec 16) (s : State) : State :=
  let e := earliestFast s
  let s := modFast l (fun x => { x with posts := insertPost { frame := max frame e, level } x.posts }) s
  if frame < e then recordLine 0x0501 l (modFast l (fun x => { x with late := satInc x.late }) s) else s

/-- What refuses a fast level (R445, R448, R619); halter refuses FLUX posts, not host writes to FL_FAST_SET. -/
def fastCode (s : State) (l : LineId) (post : Bool) : Option Code :=
  let g := lineGroup l
  if (getGroup s g).faulted ∨ fastOff s g ∨ (post ∧ (getLine s l).persistBad) then some 0x1502 else none

/-- The oldest host write that waits for room is granted, where there is some: refused then as it would be now, or posted (R439, R448). -/
def grantOne (l : LineId) (s : State) : State :=
  let x := getFast s l
  match x.waiting with
  | [] => s
  | (f, v) :: rest =>
    if fastFull x then s
    else
      let s := modFast l (fun x => { x with waiting := rest }) s
      match fastCode s l false with
      | some c => refuseReg f (.line l .fastSet) c s
      | none => grantFast l (earliestFast s) v s

/-- Host writes that wait for room are granted in turn (R439). -/
def grantWaiting (l : LineId) (s : State) : State := forEach (getFast s l).waiting (fun _ s => grantOne l s) s

/-- The fast path falls to 0 at once, without the edge table, and its posts are discarded (R443, R448); host writes that waited for room are granted. -/
def fastZero (l : LineId) (s : State) : State :=
  grantWaiting l (modFast l (fun x => { x with level := 0, old := 0, changeAt := none, posts := [] }) (countClips l s.clock.sched s))

/-- The fast path discards its posts and returns to 0 through the edge table from the next frame boundary (R442). -/
def fastReturn (l : LineId) (s : State) : State :=
  let s := modFast l (fun x => { x with posts := [] }) s
  grantWaiting l (if (getFast s l).level = 0 then s else changeLevel l 0 (frameNow s + 1) s)

/-! ## Refusals and faults -/

/-- What refuses a DC write or post (R432, R445, R448). -/
def dcCode (s : State) (l : LineId) (span : BitVec 2) : Option Code :=
  let x := getLine s l
  if (getGroup s (lineGroup l)).faulted ∨ x.persistBad then some 0x1502
  else if x.genMode ≠ 0 ∧ span ≠ x.spanNow then some 0x1503
  else none

/-- The DC paths of a stall go to and hold their safe values: in OFF and STABLED (R446), and while POWER_DOWN ramps them (R55, log entry 24). -/
def restsSafe (s : State) (n : StallId) : Bool :=
  let x := getStall s n
  decide (x.life = .off) || decide (x.life = .stabled) || decide (x.cmd = some .powerDown)

/-- A DC goal is granted (R427, R446): where the goal must stay the safe value, it does. -/
def grantDc (l : LineId) (g : DcPoint) (s : State) : State := if restsSafe s l.stall then s else modLine l (setGoal g) s

/-- Count a contended post on a line (R427, R441). -/
def countLine (l : LineId) (s : State) : State := modFast l (fun x => { x with contend := satInc x.contend }) s

/-- The owner of a group, when its lines agree. -/
def groupOwn (s : State) (g : GroupId) : Owner := commonOwner ((groupLines g).map fun l => (lineBind s l).owner)

/-- The code of a group fault's cause (Table 10-5). -/
def groupFaultCode : BitVec 4 → Code
  | 1 => 0x3501
  | 2 => 0x3502
  | _ => 0x2505

/-- One line under a group fault (R448). -/
def faultLine (cause : BitVec 4) (x : Line) : Line :=
  let sp := x.entering.getD x.spanNow
  let dc : DcState := if x.dc = .generator then .steady else x.dc
  let x : Line := { x with genMode := 0, genRunning := false, dc := dc }
  if cause = 3 then
    let x := if x.dc = .switching ∨ x.dc = .phase1 then { x with dc := .ramping, entering := none } else x
    if x.safe.span ≠ x.spanNow then setGoal { span := x.spanNow, code := 0 } x else setGoal x.safe x
  else if sp = x.safe.span ∧ x.dc = .phase1 then setGoal x.safe { x with dc := .ramping }
  else setGoal x.safe x

/-- Mark the shots whose riders have posted to a line of a group (R449). -/
def markGroup (g : GroupId) (s : State) : State :=
  forEach (stallRiders g.stall) (fun r s =>
    if (groupLines g).any fun l => (getRider s r).shot.lines.contains (lineKey l) then markRider r .slice s else s) s

/-- A group fault (R447 to R449). -/
def groupFault (g : GroupId) (cause : BitVec 4) (s : State) : State :=
  let s := modGroup g (fun x => { x with cause, faulted := true }) s
  let s := forEach (groupLines g) (fun l s => fastZero l (modLine l (fun x => if x.dc = .halter then x else faultLine cause x) s)) s
  markGroup g (record (groupFaultCode cause) g.stall.val (groupOwn s g) 0 0 s)

/-- The fast outputs of a stall return to 0 as it leaves the playing condition (R442). -/
def fastStop (n : StallId) (s : State) : State := forEach (stallLines n) fastReturn s

/-- The fast outputs of a stall fall to 0 with its power (R443). -/
def fastDown (n : StallId) (s : State) : State := forEach (stallLines n) fastZero s

/-- Every line of a stall is bound for its safe value (R55, R446); generators stop. -/
def linesSafe (n : StallId) (s : State) : State := forEach (stallLines n) (fun l s => goSafe l (modLine l stopGen s)) s

/-- The sequence that counts of a copy of flux values: one that fails its check counts as lower than any that passes (R638). -/
def fluxSeq (x : FluxCopy) : Nat := if x.ok then x.seq + 1 else 0

/-- The copy of a line's persisted values that a load takes (R639): none where both fail. -/
def fluxPick (x : FluxPersist) : Option FluxCopy :=
  if !x.a.ok && !x.b.ok then none else if fluxSeq x.a < fluxSeq x.b then some x.b else some x.a

/-- A line's curb and safe value enter the persistent register file, in both copies (R445, R638). -/
def persistLine (l : LineId) (s : State) : State :=
  let x := getLine s l
  setPersist (fun p =>
    let old := tabGet {} p.flux (lineKey l)
    let new : FluxCopy := { curb := x.curb, safe := x.safe, seq := max (fluxSeq old.a) (fluxSeq old.b) }
    { p with flux := tabSet p.flux (lineKey l) { a := new, b := new } }) s

end Sys2Proof.Machine
end

