-- ==== Sys2Proof/Machine/Microword.lean ====
section
/-!
DEFINITION. The microword: its fields (Table 09-3), what makes it malformed (R391), where it may go (R392) and what it may name (R390).
-/

namespace Sys2Proof.Machine

open Sys2Proof

/-- A microword of 256 bits; word w bit b is bit 32w + b. -/
abbrev MicroWord := BitVec 256

namespace Mw

def op (w : MicroWord) : Nat := (bits w 26 6 : BitVec 6).toNat
def neg (w : MicroWord) : Bool := bit w 25
def pred (w : MicroWord) : Nat := (bits w 20 5 : BitVec 5).toNat
def wcond (w : MicroWord) : Nat := (bits w 15 5 : BitVec 5).toNat
def seq (w : MicroWord) : Nat := (bits w 12 3 : BitVec 3).toNat
def ti (w : MicroWord) : Nat := (bits w 10 2 : BitVec 2).toNat
def tn (w : MicroWord) : Nat := (bits w 8 2 : BitVec 2).toNat
def tmoExp (w : MicroWord) : Nat := (bits w 60 4 : BitVec 4).toNat
def tmoMant (w : MicroWord) : Nat := (bits w 48 12 : BitVec 12).toNat
def target (w : MicroWord) : BitVec 16 := bits w 32 16
def aux (w : MicroWord) : BitVec 16 := bits w 80 16
def tmoAddr (w : MicroWord) : BitVec 16 := bits w 64 16
def ld (w : MicroWord) : Nat := (bits w 124 4 : BitVec 4).toNat
def la (w : MicroWord) : Nat := (bits w 120 4 : BitVec 4).toNat
def lb (w : MicroWord) : Nat := (bits w 116 4 : BitVec 4).toNat
def sub (w : MicroWord) : Nat := (bits w 112 4 : BitVec 4).toNat
def immSel (w : MicroWord) : Bool := bit w 111
def objr (w : MicroWord) : Bool := bit w 110
def obj (w : MicroWord) : BitVec 14 := bits w 96 14
def arg (w : MicroWord) : BitVec 16 := bits w 144 16
def desc (w : MicroWord) : BitVec 13 := bits w 128 13
def immLo (w : MicroWord) : Word := bits w 160 32
def immHi (w : MicroWord) : Word := bits w 192 32

/-- FORK aux fields (Table 09-9). -/
def trot (w : MicroWord) : Bool := bit w 95
def anchorEn (w : MicroWord) : Bool := bit w 94
def invPrimary (w : MicroWord) : Bool := bit w 93
def dl (w : MicroWord) : Nat := (bits w 88 3 : BitVec 3).toNat
def sel (w : MicroWord) : BitVec 4 := bits w 84 4

end Mw

/-- A word that may wait (R393): a condition, a PUSH, a POP or a Gallop FORK. -/
def mayWait (w : MicroWord) : Bool :=
  decide (Mw.wcond w ≠ 0) || decide (Mw.op w = 4) || decide (Mw.op w = 5) || (decide (Mw.op w = 0x0E) && !Mw.trot w)

/-- A sub-operation that the op's table does not define (R391). -/
def subBad (op sub : Nat) : Bool :=
  match op with
  | 0x01 => decide (8 < sub)
  | 0x02 => decide (6 < sub)
  | 0x07 => decide (1 < sub)
  | 0x0F => decide (9 < sub)
  | 0x10 => decide (2 < sub)
  | 0x12 => decide (2 < sub)
  | 0x13 => decide (1 < sub)
  | _ => false

/-- A malformed microword (R391). -/
def malformed (w : MicroWord) : Bool :=
  decide (0x14 < Mw.op w) || decide (5 < Mw.seq w) || decide (21 < Mw.pred w) || decide (21 < Mw.wcond w)
    || subBad (Mw.op w) (Mw.sub w)
    || decide ((bits w 0 8 : BitVec 8) ≠ 0) || decide ((bits w 141 3 : BitVec 3) ≠ 0) || decide ((bits w 224 32 : BitVec 32) ≠ 0)
    || (decide (Mw.op w = 0x0E) && (decide ((bits w 91 2 : BitVec 2) ≠ 0) || decide ((bits w 80 4 : BitVec 4) ≠ 0)
          || (Mw.trot w && !Mw.anchorEn w) || decide (Mw.wcond w ≠ 0)))
    || (mayWait w && decide (Mw.tmoMant w = 0))
    || (decide (Mw.op w = 4) && decide (15 < Mw.la w + Mw.sub w))

/-- The owner of the paddock region that holds a word, if one does (R409). -/
def regionOwner (s : State) (n : StallId) (a : BitVec 16) : Option Owner :=
  ((imageOf s n).program.regions.find? fun r => decide (r.first ≤ a.toNat) && decide (a.toNat < r.first + r.words)).map (·.owner)

/-- An address that an owner's words may name (R392): every one for owner 0, otherwise its regions and the stable gate. -/
def addressOk (s : State) (n : StallId) (o : Owner) (a : BitVec 16) : Bool :=
  decide (o.val = 0) || decide (a.toNat < 0x100) || decide (regionOwner s n a = some o)

/-- The target and timeout address of a word, where it uses them, are permitted (R392). -/
def targetsOk (s : State) (n : StallId) (o : Owner) (w : MicroWord) : Bool :=
  ((decide (Mw.seq w ≠ 1) && decide (Mw.seq w ≠ 2)) || addressOk s n o (Mw.target w))
    && (!mayWait w || addressOk s n o (Mw.tmoAddr w))

/-- The kind of object that an op or a condition names in obj (R388). -/
inductive ObjKind where
  | none
  | voice
  | chan
  | line
  | queue
  | rein
  | cell
  | unit
  deriving DecidableEq, Repr

/-- The object of an op (Table 09-5). -/
def opObject (w : MicroWord) : ObjKind :=
  match Mw.op w with
  | 0x04 => .queue
  | 0x05 => .queue
  | 0x08 => .voice
  | 0x09 => .voice
  | 0x0A => .voice
  | 0x0B => .voice
  | 0x0C => .voice
  | 0x0D => .voice
  | 0x0E => .voice
  | 0x0F => .voice
  | 0x10 => .line
  | 0x11 => .chan
  | 0x12 => .rein
  | 0x13 => if Mw.sub w = 0 then .cell else .none
  | 0x14 => .unit
  | _ => .none

/-- The object of a condition (R389). -/
def condObject : Nat → ObjKind
  | 16 => .voice
  | 17 => .voice
  | 18 => .queue
  | 19 => .queue
  | _ => .none

/-- The voice of an object number (R388). -/
def objVoice (n : StallId) (o : BitVec 14) : VoiceId := ⟨n, bit o 6, ⟨(bits o 0 6 : BitVec 6).toNat, (bits o 0 6 : BitVec 6).isLt⟩⟩

/-- The readout channel of an object number. -/
def objChan (n : StallId) (o : BitVec 14) : ChanId := ⟨n, ⟨(bits o 0 6 : BitVec 6).toNat, (bits o 0 6 : BitVec 6).isLt⟩⟩

/-- The flux line of an object number. -/
def objLine (n : StallId) (o : BitVec 14) : LineId := ⟨n, ⟨(bits o 0 6 : BitVec 6).toNat, (bits o 0 6 : BitVec 6).isLt⟩⟩

/-- The rein channel of an object number. -/
def objRein (o : BitVec 14) : ReinChan := bits o 0 12

/-- The buckle cell of an object number. -/
def objCell (n : StallId) (o : BitVec 14) : CellId := .node n ⟨(bits o 0 8 : BitVec 8).toNat, (bits o 0 8 : BitVec 8).isLt⟩

/-- The capture unit of an object number. -/
def objUnit (n : StallId) (o : BitVec 14) : UnitId := ⟨n, ⟨(bits o 0 2 : BitVec 2).toNat, (bits o 0 2 : BitVec 2).isLt⟩⟩

/-- An object satisfies R132 for an owner: it is the owner's, or the owner is 0; a SEAL channel is never named (R397).  A capture unit
has no owner of its own, and a queue that another stall does not allocate passes (R734). -/
def objectOk (s : State) (n : StallId) (own : Owner) (k : ObjKind) (o : BitVec 14) : Bool :=
  match k with
  | .none => true
  | .voice => decide (own.val = 0) || decide ((voiceBind s (objVoice n o)).owner = own)
  | .chan => decide (own.val = 0) || decide ((chanBind s (objChan n o)).owner = own)
  | .line => decide (own.val = 0) || decide ((lineBind s (objLine n o)).owner = own)
  | .queue =>
    decide (own.val = 0) ||
      (match queueAlloc s o with | some a => decide (a.owner = own) | none => decide (queueStall o ≠ n))
  | .rein =>
    let e := objRein o
    decide (e.toNat < 4064) && (decide (own.val = 0) || decide ((chanAttr s e).owner = own))
  | .cell => decide (own.val = 0) || decide (cellOwner s (objCell n o) = own)
  | .unit => true

/-- Every object that a word names at an object number satisfies R132 for an owner. -/
def namesOk (s : State) (n : StallId) (own : Owner) (w : MicroWord) (o : BitVec 14) : Bool :=
  objectOk s n own (opObject w) o && objectOk s n own (condObject (Mw.pred w)) o && objectOk s n own (condObject (Mw.wcond w)) o

/-- A deadline entry that a FORK names is its owner's (R390, Table 02-8). -/
def deadlineOk (s : State) (n : StallId) (own : Owner) (w : MicroWord) : Bool :=
  decide (Mw.op w ≠ 0x0E) || !Mw.trot w || decide (own.val = 0)
    || decide (trotOwner s n ⟨Mw.dl w % 8, Nat.mod_lt _ (by omega)⟩ = own)

/-- What the static checks of R390 to R392 refuse in a word under an owner; stable words have no owner check. -/
def staticCode (s : State) (n : StallId) (own : Owner) (stable : Bool) (w : MicroWord) : Option Code :=
  if malformed w then some 0x1742
  else if !targetsOk s n own w then some 0x1741
  else if !stable ∧ !(Mw.objr w) ∧ !namesOk s n own w (Mw.obj w) then some 0x1D50
  else if !stable ∧ !deadlineOk s n own w then some 0x1D50
  else none

end Sys2Proof.Machine
end

