-- ==== Sys2Proof/Machine/RiderOps.lean ====
section
/-!
DEFINITION. What happens inside a rider (chapter 9): shots, stops, faults, handler entry, conditions, actions, forks and the course of a word.
-/

namespace Sys2Proof.Machine

open Sys2Proof

/-- The owner of a rider. -/
def riderOwner (s : State) (r : RiderId) : Owner := (riderBind s r).owner

/-- The rider of a key. -/
def riderOfKey (k : Nat) : Option RiderId :=
  match fin? 8 (k / 16) with
  | some n => some ⟨n, ⟨k % 16, Nat.mod_lt _ (by omega)⟩⟩
  | none => none

/-- Record a code on a rider. -/
def recordRider (code : Code) (r : RiderId) (s : State) : State :=
  record code r.stall.val (riderOwner s r) (riderObject r) 0 s

/-- Work register Lk. -/
def workReg (x : Rider) (k : Nat) : Word := tabGet 0 x.regs k

/-- Set work register Lk. -/
def setWork (k : Nat) (v : Word) (x : Rider) : Rider := { x with regs := tabSet x.regs k v }

/-- Time register Tn. -/
def timeReg (x : Rider) (n : Nat) : Word64 := tabGet 0 x.times n

/-- Set time register Tn. -/
def setTimeReg (n : Nat) (v : Word64) (x : Rider) : Rider := { x with times := tabSet x.times n v }

/-- Task input k. -/
def taskInput (x : Rider) (k : Nat) : TaskInput := tabGet {} x.inputs k

/-- Change task input k. -/
def modInput (k : Nat) (f : TaskInput → TaskInput) (x : Rider) : Rider := { x with inputs := tabMod {} x.inputs k f }

/-- A token in the layout of Table 08-2 with bit 31 set (R396). -/
def tokenWord (t : Token) : Word :=
  let kind : Nat := match t.kind with | .decision => 0 | .edge => 1 | .emission => 2 | .cell => 3
  BitVec.ofNat 32 (2 ^ 31 + t.chan.toNat * 256 + kind * 64 + t.hop.toNat * 8 + place t.inv 2 + t.value.toNat)

/-- The microword in hand. -/
def wordInHand (s : State) (r : RiderId) : MicroWord := tabGet 0 s.store (r.stall.val * 65536 + (getRider s r).pc.toNat)

/-- The object number of a word (R388): obj, or Lb under objr. -/
def objectNum (x : Rider) (w : MicroWord) : BitVec 14 := if Mw.objr w then bits (workReg x (Mw.lb w)) 0 14 else Mw.obj w

/-! ## Shots (R406, R407) -/

/-- The stall's feed to the Tally gathers a shot's end (R407). -/
def feedShot (n : StallId) (o : Owner) (aborted : Bool) (s : State) : State :=
  modFeed n.val (fun x => { x with totals := tabMod {} x.totals o.val fun c =>
    if aborted then { c with aborted := c.aborted + 1 } else { c with done := c.done + 1 } }) s

/-- The pace field of the latency word (Table 02-6): the lowest margin in units of 4 %.  Of a shot during which no margin has ever been measured it reads 15
(DESIGN CHOICE, log entry 185: R111 and Table 02-6 give no value there). -/
def pacePct (x : Shot) : Nat :=
  let m := match x.pace, (if x.hub then x.spinePace else none) with
    | some a, some b => min a b
    | some a, none => a
    | none, some b => b
    | none, none => 0xFF
  min 15 (m / 4)

/-- The latency word (Table 02-6). -/
def latencyWord (x : Shot) : Word :=
  BitVec.ofNat 32 (place (decide (x.releases ≠ 0)) 31 + place x.late 30 + place x.gate 29 + place x.trot 28 + place x.noAnchor 27
    + min x.releases 15 * 2 ^ 20 + pacePct x * 2 ^ 16 + min x.maxLat 0xFFFF)

/-- Whether a shot is invalid (Table 06-4). -/
def shotInvalid (x : Shot) : Bool := x.channel || x.guard || x.seq || x.missed || x.gate || x.slice

/-- The shot record (Table 06-4). -/
def shotRecord (r : RiderId) (o : Owner) (x : Shot) (aborted : Bool) (end_ : Word64) : List Word :=
  [ BitVec.ofNat 32 (2 ^ 30 + r.stall.val * 2 ^ 27 + r.num.val * 2 ^ 23 + o.val * 2 ^ 19 + place aborted 17 + min x.windows 0xFFFF)
  , x.num
  , BitVec.ofNat 32 (place (shotInvalid x) 31 + place x.channel 30 + place x.guard 29 + place x.seq 28 + place x.missed 27
      + place x.gate 26 + place x.slice 25 + x.dropped.toNat)
  , latencyWord x
  , bits x.start 0 32, bits x.start 32 32, bits end_ 0 32, bits end_ 32 32 ]

/-- The shot record enters the shot queue with 8 credits, or is dropped and counted (R407). -/
def writeShot (r : RiderId) (aborted : Bool) (end_ : Word64) (s : State) : State :=
  match (riderBind s r).shotQ with
  | none => s
  | some q =>
    if portCredits s q (.rider r) < 8 then
      recordRider 0x3711 r (modRider r (fun x => { x with recordsDropped := satInc x.recordsDropped }) s)
    else issueWords q (.rider r) (shotRecord r (riderOwner s r) (getRider s r).shot aborted end_) true s

/-- A drain or halt counts a shot that ends (R65), and its operation's progress rises. -/
def countDrain (n : StallId) (aborted : Bool) (s : State) : State :=
  modStall n (fun x =>
    if x.life = .resting ∧ x.drain.aborted + x.drain.finished < x.drain.atStart then
      let d := if aborted then { x.drain with aborted := x.drain.aborted + 1 } else { x.drain with finished := x.drain.finished + 1 }
      { x with drain := d, op := if x.op.state = .busy then { x.op with progress := (d.aborted + d.finished) * 1000 / d.atStart } else x.op }
    else x) s

/-- A shot ends, completed or aborted: its record, the shot book, the claims and the feed (R278, R401, R407). -/
def endShot (r : RiderId) (aborted : Bool) (end_ : Word64) (s : State) : State :=
  if (getRider s r).shot.active then
    let s := writeShot r aborted end_ s
    let s := modRider r (fun x =>
      { x with
        shot := { x.shot with active := false }
        completed := if aborted then x.completed else x.completed + 1
        aborted := if aborted then x.aborted + 1 else x.aborted
        inputs := x.inputs.map fun i => (i.1, { i.2 with claim := false }) }) s
    countDrain r.stall aborted (feedShot r.stall (riderOwner s r) aborted s)
  else s

/-- The margin that stands when a shot begins (Table 02-6): none before the first measurement. -/
def standingPace (p : Pace) : Option Nat := if p.now = 0xFF then none else some p.now.toNat

/-- A shot begins (R406). -/
def beginShot (r : RiderId) (start : Word64) (s : State) : State :=
  let pace := standingPace (getGait s r.stall).pace
  let spinePace := standingPace s.spine.pace
  modRider r (fun x =>
    { x with shot := { num := x.shot.num + 1, active := true, start, pace, spinePace }, lastVoices := x.shot.voices, started := x.started + 1 }) s

/-! ## Stops (R383) -/

/-- What stops a rider. -/
inductive StopKind where
  | halt
  | other
  deriving DecidableEq, Repr

/-- The voices on which a rider has a fork armed that no token has reached. -/
def armedVoices (s : State) (r : RiderId) : List VoiceId :=
  (stallVoices r.stall).filter fun v => match (getSeq s v).fork with
    | some fk => decide (fk.rider = riderKey r) && fk.chosen.isNone
    | none => false

/-- The forks of a rider that their HOLD has outrun (R234) end with the rider's stop. -/
def dropSpent (r : RiderId) (v : VoiceId) (s : State) : State :=
  modSeq v (fun q => { q with spent := q.spent.filter fun fk => decide (fk.rider ≠ riderKey r) }) s

/-- Voices on which a rider has a spent fork. -/
def spentVoices (s : State) (r : RiderId) : List VoiceId :=
  (stallVoices r.stall).filter fun v => (getSeq s v).spent.any fun fk => decide (fk.rider = riderKey r)

/-- A rider stops: its opens are discarded, its fork's voice goes idle on HALT and otherwise its fork is disarmed, its shot is aborted. -/
def stopRider (r : RiderId) (k : StopKind) (s : State) : State :=
  if (getRider s r).state = .stopped then modRider r (fun x => { x with release := false }) s
  else
    let s := discardOpens r.stall (fun h => h == r.num.val) s
    let s := forEach (armedVoices s r) (fun v s =>
      match k with
      | .halt => modSeq v (fun q => { q with fork := none }) (goIdle v s)
      | .other => modSeq v (fun q => { q with fork := q.fork.map fun fk => { fk with disarmed := true } }) s) s
    let s := forEach (spentVoices s r) (dropSpent r) s
    let s := endShot r true (schedOfFine (frameAtOrAfter s.clock.sched)) s
    modRider r (fun x =>
      { x with state := .stopped, stopPending := false, release := false, deadline := none, savedWait := none, inHandler := false,
               forkVoice := none }) s

/-- A stopping event reaches a rider (R383): at once while it waits, is held or is forked, otherwise at its next boundary. -/
def askStop (r : RiderId) (k : StopKind) (s : State) : State :=
  match (getRider s r).state with
  | .stopped => modRider r (fun x => { x with release := false }) s
  | .running => modRider r (fun x => { x with stopPending := true }) s
  | _ => stopRider r k s

/-! ## Faults and the handler (R404, R405) -/

/-- The interrupt source of a rider's faults (Table 19-6). -/
def riderSource (r : RiderId) : Nat := r.stall.val * 256 + 0x20 + r.num.val

/-- A fatal fault stops the rider. -/
def fatalFault (r : RiderId) (code : Code) (s : State) : State :=
  let s := modRider r (fun x => { x with fault := { x.fault with code, fatal := true } }) s
  stopRider r .other (raise (riderSource r) (recordRider code r s))

/-- A pending fault whose enable bit is set, in the order of R405, with its code; or a spur. -/
def nextFault (f : RiderFault) : Option (PendFaults × Word) :=
  let p := f.pend
  if p.late ∧ bit f.en 2 then some ({ p with late := false }, 0x3220)
  else if p.overrun ∧ bit f.en 1 then some ({ p with overrun := false }, 0x3710)
  else if p.refused ∧ bit f.en 0 then some ({ p with refused := false }, 0x3708)
  else if p.ctrig ∧ bit f.en 0 then some ({ p with ctrig := false }, 0x3709)
  else if p.spur then some ({ p with spur := false }, 0)
  else none

/-- The rider enters its handler, where it is not in it and something pends (R405); the call stack holds 8 addresses.  A word that an earlier entry left keeps
its deadline (R394). -/
def enterHandler (r : RiderId) (s : State) : State :=
  let x := getRider s r
  if x.inHandler then s
  else
    match nextFault x.fault with
    | none => s
    | some (p, l15) =>
      if 8 ≤ x.stack.length then fatalFault r 0x3706 s
      else
        modRider r (fun x =>
          setWork 15 l15 { x with
            stack := x.pc :: x.stack, inHandler := true, pc := x.fault.handler, fault := { x.fault with pend := p }
            state := .running, deadline := none
            savedWait := match x.deadline with | some d => some (x.pc, d) | none => x.savedWait.filter fun w => decide (w.1 = x.pc) }) s

/-- Faults and spurs are sampled while the rider waits (R404). -/
def sampleFaults (r : RiderId) (s : State) : State := if (getRider s r).state = .waiting then enterHandler r s else s

/-- The late fault at a rider (R94): its bit, pending where it is enabled. -/
def lateFault (r : RiderId) (s : State) : State :=
  let s := modRider r (fun x =>
    { x with
      fault := { x.fault with code := 0x3220, late := true, pend := { x.fault.pend with late := x.fault.pend.late || bit x.fault.en 2 } }
      shot := if x.shot.active then { x.shot with late := true } else x.shot }) s
  sampleFaults r (raise (riderSource r) (recordRider 0x3220 r s))

/-- A task-input overrun at a rider (R396): recorded when RH_FAULT.overrun changes from 0 to 1. -/
def overrunFault (r : RiderId) (s : State) : State :=
  let was := (getRider s r).fault.overrun
  let s := modRider r (fun x =>
    { x with fault := { x.fault with code := 0x3710, overrun := true,
                                     pend := { x.fault.pend with overrun := x.fault.pend.overrun || bit x.fault.en 1 } } }) s
  sampleFaults r (if was then s else raise (riderSource r) (recordRider 0x3710 r s))

/-- A post is refused (R404): the target's code, then 0x3708 at the rider. -/
def refusedFault (r : RiderId) (code : Option Code) (s : State) : State :=
  let s := match code with | some c => recordRider c r s | none => s
  let s := modRider r (fun x =>
    { x with
      refusedCount := satInc x.refusedCount
      fault := { x.fault with code := 0x3708, refused := true,
                              pend := { x.fault.pend with refused := x.fault.pend.refused || bit x.fault.en 0 } } }) s
  raise (riderSource r) (recordRider 0x3708 r s)

/-- A CTRIG that no unit is armed for (R404). -/
def ctrigFault (r : RiderId) (s : State) : State :=
  let s := modRider r (fun x =>
    { x with
      fault := { x.fault with code := 0x3709, refused := true,
                              pend := { x.fault.pend with ctrig := x.fault.pend.ctrig || bit x.fault.en 0 } } }) s
  raise (riderSource r) (recordRider 0x3709 r s)

/-- The kind of a stop that was asked for at a running rider. -/
def askedStop (s : State) (r : RiderId) : StopKind :=
  if (getStall s r.stall).life = .resting ∧ !(getStall s r.stall).draining then .halt else .other

/-- A rider outside a shot stops in RESTING (Table 09-2). -/
def drainStops (s : State) (r : RiderId) : Bool := decide ((getStall s r.stall).life = .resting) && !(getRider s r).shot.active

/-- A microword boundary: a stop asked for, the end of a drain, then the handler (R382, R383, R405). -/
def boundary (r : RiderId) (s : State) : State :=
  let x := getRider s r
  if x.state ≠ .running then s
  else if x.stopPending then stopRider r (askedStop s r) s
  else if drainStops s r then stopRider r .other s
  else enterHandler r s

/-- A rider has become WAITING, HELD or FORKED, and is at a boundary for a stop that was asked for (R383); WAITING, it stops in RESTING outside a shot
(Table 09-2), and its faults are sampled (R404). -/
def pause (r : RiderId) (s : State) : State :=
  let x := getRider s r
  if x.stopPending then stopRider r (askedStop s r) s
  else if x.state = .waiting ∧ drainStops s r then stopRider r .other s
  else sampleFaults r s

/-! ## Conditions (Table 09-6) -/

/-- The value of the oldest token of the word's task input. -/
def oldest (x : Rider) (w : MicroWord) : Option Token := (taskInput x (Mw.ti w)).latch.head?.map (·.1)

/-- Whether a condition holds. -/
def condHolds (s : State) (r : RiderId) (w : MicroWord) (c : Nat) : Bool :=
  let x := getRider s r
  let o := objectNum x w
  let v := objVoice r.stall o
  let value (k : BitVec 2) : Bool := (oldest x w).any fun t => t.value == k
  match c with
  | 0 => true
  | 1 => (oldest x w).isSome
  | 2 => decide (2 ≤ (taskInput x (Mw.ti w)).latch.length)
  | 3 => value 0
  | 4 => value 1
  | 5 => value 2
  | 6 => value 3
  | 7 => (oldest x w).any (·.inv)
  | 8 => decide (frameAtOrAfter (schedToFine (timeReg x (Mw.tn w))) ≤ s.clock.sched)
  | 9 => x.flags.z
  | 10 => x.flags.n != x.flags.v
  | 11 => x.flags.c
  | 12 => x.flags.tmo
  | 13 => x.flags.late
  | 14 => x.flags.alt
  | 15 => x.flags.eoi
  | 16 => decide ((getSeq s v).state = .idle)
  | 17 => (getSeq s v).alt.map (·.state) == some .ready
  | 18 => decide (Mw.sub w + 1 ≤ portCredits s o (.rider r))
  | 19 => !(getQueue s o).stored.isEmpty
  | 20 => (taskInput x (Mw.ti w)).overrun
  | 21 => decide ((getStall s r.stall).life = .resting)
  | _ => false

/-- The rider is the consumer of a queue that holds a word (R393). -/
def popReady (s : State) (r : RiderId) (q : QueueId) : Bool :=
  decide ((queueAlloc s q).bind (·.consumer) = some (.rider r)) && !(getQueue s q).stored.isEmpty

/-- A PUSH has its credits, a POP its word (R393). -/
def queueReady (s : State) (r : RiderId) (w : MicroWord) : Bool :=
  let x := getRider s r
  (decide (Mw.op w ≠ 4) || decide (Mw.sub w + 1 ≤ portCredits s (objectNum x w) (.rider r)))
    && (decide (Mw.op w ≠ 5) || popReady s r (objectNum x w))

/-- What a word waits for is met (R386, R393). -/
def waitMet (s : State) (r : RiderId) (w : MicroWord) : Bool := condHolds s r w (Mw.wcond w) && queueReady s r w

/-- pred with neg applied (R386). -/
def predHolds (s : State) (r : RiderId) (w : MicroWord) : Bool := condHolds s r w (Mw.pred w) != Mw.neg w

/-! ## Actions (Table 09-5) -/

/-- How an action ends. -/
inductive ActEnd where
  | done
  | held
  | refused (code : Option Code)
  | ctrig
  | stop
  deriving DecidableEq, Repr

/-- The second operand (Table 09-3). -/
def operandB (x : Rider) (w : MicroWord) : Word := if Mw.immSel w then Mw.immLo w else workReg x (Mw.lb w)

/-- The result and flags of an ALU word (Table 09-7). -/
def aluResult (sub : Nat) (a b : Word) (old : Word) (f : Flags) : Word × Flags :=
  let zn (v : Word) (f : Flags) : Flags := { f with z := decide (v = 0), n := bit v 31 }
  let diff := a - b
  let subFlags : Flags := { zn diff f with c := decide (a.toNat < b.toNat), v := (bit a 31 != bit b 31) && (bit diff 31 != bit a 31) }
  match sub with
  | 0 =>
    let v := a + b
    (v, { zn v f with c := decide (2 ^ 32 ≤ a.toNat + b.toNat), v := (bit a 31 == bit b 31) && (bit v 31 != bit a 31) })
  | 1 => (diff, subFlags)
  | 2 => (a &&& b, zn (a &&& b) f)
  | 3 => (a ||| b, zn (a ||| b) f)
  | 4 => (a ^^^ b, zn (a ^^^ b) f)
  | 5 => (a <<< (b.toNat % 32), zn (a <<< (b.toNat % 32)) f)
  | 6 => (a >>> (b.toNat % 32), zn (a >>> (b.toNat % 32)) f)
  | 7 => (old, subFlags)
  | _ => (b, zn b f)

/-- ALU. -/
def actAlu (w : MicroWord) (x : Rider) : Rider :=
  let res := aluResult (Mw.sub w) (workReg x (Mw.la w)) (operandB x w) (workReg x (Mw.ld w)) x.flags
  { setWork (Mw.ld w) res.1 x with flags := res.2 }

/-- TIME (Table 09-8). -/
def actTime (now : Fine) (w : MicroWord) (x : Rider) : Rider :=
  let t := timeReg x (Mw.tn w)
  match Mw.sub w with
  | 0 => setTimeReg (Mw.tn w) (schedOfFine (nextFrame now)) x
  | 1 => setTimeReg (Mw.tn w) (((bits t 11 53 : BitVec 53) + (Mw.immLo w).signExtend 53) ++ (bits t 0 11 : BitVec 11)) x
  | 2 => setTimeReg (Mw.tn w) (Mw.immHi w ++ Mw.immLo w) x
  | 3 => setTimeReg (Mw.tn w) x.lastAnchor x
  | 4 => setTimeReg (Mw.tn w) (timeReg x (Mw.la w % 4)) x
  | 5 => setTimeReg (Mw.tn w) ((bits t 11 53 : BitVec 53) ++ (bits (Mw.immLo w) 0 11 : BitVec 11)) x
  | _ => setWork (Mw.ld w) (bits t 11 32) x

/-- TAKE (Table 09-5). -/
def actTake (w : MicroWord) (x : Rider) : Rider :=
  match (taskInput x (Mw.ti w)).latch with
  | [] => setWork (Mw.ld w) 0 x
  | t :: rest => setWork (Mw.ld w) (tokenWord t.1) (modInput (Mw.ti w) (fun i => { i with latch := rest }) x)

/-- A post that finds its target granted to another party (R395, R403). -/
def heldPost (s : State) (g : Grant) : Option State := match g with | .held => some s | .granted => none

/-- PUSH (Table 09-5). -/
def actPush (r : RiderId) (w : MicroWord) (g : Grant) (s : State) : State × ActEnd :=
  let x := getRider s r
  let q := objectNum x w
  if g = .held ∨ queueHeld s q then (s, .held)
  else
    let ws := (List.range (Mw.sub w + 1)).map fun k => workReg x (Mw.la w + k)
    (issueWords q (.rider r) ws (bit (Mw.aux w) 15) s, .done)

/-- POP (Table 09-5). -/
def actPop (r : RiderId) (w : MicroWord) (g : Grant) (s : State) : State × ActEnd :=
  let q := objectNum (getRider s r) w
  if g = .held ∨ queueHeld s q then (s, .held)
  else
    match takeWord q s with
    | none => (s, .held)
    | some (qw, s) =>
      (modRider r (fun x => let y := setWork (Mw.ld w) qw.word x; { y with flags := { y.flags with eoi := qw.eoi } }) s, .done)

/-- SHOT (R406). -/
def actShot (r : RiderId) (w : MicroWord) (s : State) : State × ActEnd :=
  let x := getRider s r
  let t := timeReg x (Mw.tn w)
  if Mw.sub w = 0 then
    if x.shot.active then (s, .refused none)
    else if (getStall s r.stall).life = .resting then (s, .stop)
    else (beginShot r t s, .done)
  else if x.shot.active then (endShot r false t s, .done)
  else (s, .refused none)

/-- A voice whose slice has failed and which no spare carries (R46). -/
def voiceBad (s : State) (v : VoiceId) : Bool :=
  match fin? 9 (voiceBind s v).slice.toNat with
  | some k =>
    let i : SliceId := ⟨v.stall, if v.probe then .probe else .drive, k⟩
    (getSlice s i).fault && !carried s i
  | none => false

/-- A shot in progress remembers that its rider has posted to a voice (R279); one that uses a voice of a failed slice is marked (R46). -/
def notePost (r : RiderId) (v : VoiceId) (s : State) : State :=
  let s := modRider r (fun x =>
    if x.shot.active ∧ !x.shot.voices.contains (voiceKey v) then { x with shot := { x.shot with voices := voiceKey v :: x.shot.voices } } else x) s
  if voiceBad s v then markRider r .slice s else s

/-- A shot in progress remembers that its rider has posted to a line (R449). -/
def noteLine (r : RiderId) (l : LineId) (s : State) : State :=
  modRider r (fun x => if x.shot.active ∧ !x.shot.lines.contains (lineKey l) then
    { x with shot := { x.shot with lines := lineKey l :: x.shot.lines } } else x) s

/-- The sequencer post of a word (Table 05-3). -/
def wordPost (x : Rider) (w : MicroWord) : Post :=
  match Mw.op w with
  | 0x08 => .start (Mw.desc w) (timeReg x (Mw.tn w))
  | 0x09 => .loadAlt (Mw.desc w)
  | 0x0A => .selectAlt
  | 0x0B => .branch (Mw.desc w)
  | 0x0C => .break_
  | _ => .stop

/-- A sequencer post to a voice. -/
def actPost (r : RiderId) (w : MicroWord) (g : Grant) (s : State) : State × ActEnd :=
  let x := getRider s r
  let v := objVoice r.stall (objectNum x w)
  if g = .held then (countVoice v s, .held)
  else
    match postCode s v (wordPost x w) with
    | some c => (s, .refused (some c))
    | none => (notePost r v (applyPost v (wordPost x w) s), .done)

/-- VTUNE (Table 09-10). -/
def tunePost (x : Rider) (w : MicroWord) (v : VoiceId) (s : State) : State :=
  let imm : BitVec 16 := bits (Mw.immLo w) 0 16
  let pend (f : PendTuning → PendTuning) : State := modVoice v (fun y => { y with pend := f y.pend }) s
  match Mw.sub w with
  | 0 => setFtw v ((bits (Mw.immHi w) 0 16 : BitVec 16) ++ Mw.immLo w) s
  | 1 => pend fun p => { p with offset := some imm }
  | 2 => pend fun p => { p with vz := some imm }
  | 3 => addVz v imm s
  | 4 => addVz v (bits (workReg x (Mw.la w)) 0 16) s
  | 5 => pend fun p => { p with scale := some imm }
  | 6 => pend fun p => { p with x := some (bit (Mw.immLo w) 1), z := some (bit (Mw.immLo w) 0) }
  | 7 => toggleX v s
  | 8 => toggleZ v s
  | _ => modVoice v (fun y => { y with pendDelay := some (bits (Mw.immLo w) 0 9) }) s

/-- VTUNE at its voice: a frequency word of 2^47 or more is refused (R161). -/
def actTune (r : RiderId) (w : MicroWord) (g : Grant) (s : State) : State × ActEnd :=
  let x := getRider s r
  let v := objVoice r.stall (objectNum x w)
  if g = .held then (countVoice v s, .held)
  else if Mw.sub w = 0 ∧ bit (Mw.immHi w) 15 then (s, .refused (some (if v.probe then 0x1131 else 0x1121)))
  else (notePost r v (tunePost x w v s), .done)

/-- FLUX (Table 09-5, R427, R428, R439). -/
def actFlux (r : RiderId) (w : MicroWord) (g : Grant) (s : State) : State × ActEnd :=
  let x := getRider s r
  let l := objLine r.stall (objectNum x w)
  let imm := Mw.immLo w
  if g = .held then (countLine l s, .held)
  else if Mw.sub w = 1 then
    match fastCode s l true with
    | some c => (s, .refused (some c))
    | none =>
      let frame := (bits (timeReg x (Mw.tn w)) 11 53 : BitVec 53).toNat
      if fastFull (getFast s l) then (s, .held)
      else (noteLine r l (grantFast l frame (bits imm 0 16) s), .done)
  else
    let span : BitVec 2 := if Mw.sub w = 0 then bits imm 20 2 else (getLine s l).goal.span
    match dcCode s l span with
    | some c => (s, .refused (some c))
    | none => (noteLine r l (grantDc l { span, code := bits imm 0 18 } s), .done)

/-- OPEN (R258 to R261). -/
def actOpen (r : RiderId) (w : MicroWord) (g : Grant) (again : Bool) (s : State) : State × ActEnd :=
  let x := getRider s r
  let c := objChan r.stall (objectNum x w)
  let len := (Mw.arg w).toNat % 4096 + 1
  let contended (s : State) : State := if again then s else modChan c (fun y => { y with contend := satInc y.contend }) s
  if g = .held then (contended s, .held)
  else
    match openCode s r c len with
    | some code => (s, .refused (some code))
    | none =>
      if openHeld s c then (contended s, .held)
      else (grantOpen r c (bits (timeReg x (Mw.tn w)) 11 53 : BitVec 53).toNat len (if again then s else countOpen c s), .done)

/-- EMIT (R397): an emission, or a relay with hop raised by 1. -/
def actEmit (r : RiderId) (w : MicroWord) (s : State) : State × ActEnd :=
  let x := getRider s r
  let e := objRein (objectNum x w)
  let a : Word := if Mw.sub w = 0 then Mw.immLo w else workReg x (Mw.la w)
  let hop : BitVec 3 := if Mw.sub w = 1 then bits a 3 3 else 0
  let tok : Token := { chan := e, kind := .emission, hop := if Mw.sub w = 1 then hop + 1 else 0, inv := bit a 2, value := bits a 0 2 }
  if Mw.sub w = 1 ∧ hop = 7 then (loopDrop (.node r.stall) e (modBook e (fun b => { b with issued := b.issued + 1 }) s), .done)
  else (issueToken (.node r.stall) (0x200 + r.num.val) tok s, .done)

/-- FF (R349). -/
def actFlipFlop (r : RiderId) (w : MicroWord) (g : Grant) (s : State) : State × ActEnd :=
  if g = .held then (s, .held)
  else if Mw.sub w = 1 then (clearFlipFlopsOf r.stall (riderOwner s r) s, .done)
  else
    let id := objCell r.stall (objectNum (getRider s r) w)
    match flipFlopCode s id with
    | some c => (s, .refused (some c))
    | none => (setFlipFlopOf id (bits (Mw.immLo w) 0 2) (bit (Mw.immLo w) 2) s, .done)

/-- CTRIG (R304, R404). -/
def actCtrig (r : RiderId) (w : MicroWord) (s : State) : State × ActEnd :=
  let x := getRider s r
  let u := objUnit r.stall (objectNum x w)
  let y := getUnit s u
  if y.armed ∧ y.arm.trigSrc = 5 ∧ y.owner = some (riderOwner s r) then
    (trigger u { frame := (bits (timeReg x (Mw.tn w)) 11 53 : BitVec 53).toNat } s, .done)
  else (s, .ctrig)

/-- The action of a word other than FORK; `again` says that a held post is granted now. -/
def action (r : RiderId) (w : MicroWord) (g : Grant) (again : Bool) (s : State) : State × ActEnd :=
  match Mw.op w with
  | 0x01 => (modRider r (actAlu w) s, .done)
  | 0x02 => (modRider r (actTime s.clock.sched w) s, .done)
  | 0x03 => (modRider r (actTake w) s, .done)
  | 0x04 => actPush r w g s
  | 0x05 => actPop r w g s
  | 0x06 => (raise (0x900 + 16 * (riderOwner s r).val + (bits (Mw.immLo w) 0 4 : BitVec 4).toNat) s, .done)
  | 0x07 => actShot r w s
  | 0x08 => actPost r w g s
  | 0x09 => actPost r w g s
  | 0x0A => actPost r w g s
  | 0x0B => actPost r w g s
  | 0x0C => actPost r w g s
  | 0x0D => actPost r w g s
  | 0x0F => actTune r w g s
  | 0x10 => actFlux r w g s
  | 0x11 => actOpen r w g again s
  | 0x12 => actEmit r w s
  | 0x13 => actFlipFlop r w g s
  | 0x14 => actCtrig r w s
  | _ => (s, .done)

/-! ## The course of a word (R386, R387) -/

/-- A word is done, and with it its wait; a wait that a handler interrupted keeps its deadline until the rider returns to it (R394). -/
def endWait (x : Rider) : Rider := { x with deadline := none, savedWait := if x.inHandler then x.savedWait else none }

/-- The sequencing of a word whose pred held (Table 09-4). -/
def sequence (r : RiderId) (w : MicroWord) (s : State) : State :=
  let x := getRider s r
  let go (pc : BitVec 16) (f : Rider → Rider) : State :=
    boundary r (modRider r (fun x => { f (endWait x) with pc, state := .running }) s)
  match Mw.seq w with
  | 1 => go (Mw.target w) id
  | 2 => if 8 ≤ x.stack.length then fatalFault r 0x3706 s else go (Mw.target w) fun x => { x with stack := (x.pc + 1) :: x.stack }
  | 3 =>
    match x.stack with
    | a :: rest => go a fun x => { x with stack := rest }
    | [] => fatalFault r 0x3706 s
  | 4 =>
    match x.stack with
    | a :: rest => go a fun x => { x with stack := rest, inHandler := false }
    | [] => fatalFault r 0x3706 s
  | 5 => stopRider r .other s
  | _ => go (x.pc + 1) id

/-- A word whose pred did not hold continues at pc + 1. -/
def skipWord (r : RiderId) (s : State) : State :=
  boundary r (modRider r (fun x => { endWait x with pc := x.pc + 1, state := .running }) s)

/-- The deadline of a wait that starts now (R394), or the one that a handler interrupted. -/
def waitDeadline (s : State) (x : Rider) (w : MicroWord) : Fine :=
  let fresh := frameAtOrAfter (s.clock.sched + Mw.tmoMant w * 2 ^ Mw.tmoExp w * fineFrame)
  match x.savedWait with
  | some (pc, d) => if pc = x.pc ∧ !x.inHandler then d else fresh
  | none => fresh

/-- What an action's end does to the rider.  A hold has no timeout, but the wait of a Gallop FORK that is held counts from here (R394, R395). -/
def finish (r : RiderId) (w : MicroWord) (again : Bool) (res : State × ActEnd) : State :=
  match res.2 with
  | .done => sequence r w res.1
  | .held =>
    if again then res.1
    else
      pause r (modRider r (fun x =>
        { x with state := .held, heldCount := satInc x.heldCount, deadline := some (x.deadline.getD (waitDeadline res.1 x w)) }) res.1)
  | .refused c => sequence r w (refusedFault r c res.1)
  | .ctrig => sequence r w (ctrigFault r res.1)
  | .stop => stopRider r .other res.1

/-! ## Forks (R398 to R401) -/

/-- Whether a token takes the alternate port under a FORK (R398). -/
def takesAlt (w : MicroWord) (t : Token) : Bool := bit (Mw.sel w) t.value.toNat && !(Mw.invPrimary w && t.inv)

/-- The voice of the FORK in hand. -/
def forkVoiceOf (s : State) (r : RiderId) : VoiceId := objVoice r.stall (objectNum (getRider s r) (wordInHand s r))

/-- A FORK word completes: Ld, ALT and LATE; `settled` says that no settlement is to come. -/
def completeFork (r : RiderId) (w : MicroWord) (l : Word) (alt late settled : Bool) (s : State) : State :=
  let v := forkVoiceOf s r
  sequence r w (modRider r (fun x =>
    let y := setWork (Mw.ld w) l x
    { y with flags := { y.flags with alt, late, tmo := y.flags.tmo && Mw.trot w }, forkVoice := if settled then none else some (voiceKey v) }) s)

/-- The fork of a FORK word consumes a token (R398).  A fork that its HOLD has outrun has settled as missed already (R234, R400). -/
def consumeFork (r : RiderId) (w : MicroWord) (t : Token) (hub : Bool) (s : State) : State :=
  let v := forkVoiceOf s r
  let alt := takesAlt w t
  if (getSeq s v).spent.any (fun fk => decide (fk.rider = riderKey r)) then completeFork r w (tokenWord t) false true true (dropSpent r v s)
  else
    let choose (fk : Fork) : Fork := if fk.rider = riderKey r then { fk with chosen := some alt, consumedAt := some s.clock.sched, hub } else fk
    let s := modSeq v (fun q => { q with fork := q.fork.map choose }) s
    completeFork r w (tokenWord t) alt false false s

/-- What refuses a FORK (R228, R229, R735). -/
def forkCode (s : State) (r : RiderId) (w : MicroWord) (v : VoiceId) : Option Code :=
  let q := getSeq s v
  if !voiceServed s v ∨ q.state = .idle ∨ q.fork.isSome then some 0x1204
  else if Mw.anchorEn w ∧ !schedValid (timeReg (getRider s r) (Mw.tn w)) then some 0x120A
  else none

/-- The fork that a FORK arms (R90, R398). -/
def newFork (s : State) (r : RiderId) (w : MicroWord) : Fork :=
  let t := schedToFine (timeReg (getRider s r) (Mw.tn w))
  let dl := (trotDeadline (getGait s r.stall) (Mw.dl w)).toNat
  { rider := riderKey r, input := Mw.ti w, gait := if Mw.trot w then .trot else .gallop
    cond := (Mw.sel w).zeroExtend 8 ||| (if Mw.invPrimary w then 0x10 else 0)
    anchor := if Mw.anchorEn w then some t else none, deadline := dl, release := t + dl * fineBeat }

/-- The rider stays at the word with its deadline, which counts from when it first reached the word (R394). -/
def stay (r : RiderId) (w : MicroWord) (st : RiderState) (timed : Bool) (s : State) : State :=
  modRider r (fun x =>
    { x with
      state := st
      deadline := if timed then some (x.deadline.getD (waitDeadline s x w)) else none
      savedWait := match x.savedWait with | some (pc, d) => if pc = x.pc ∧ !x.inHandler then none else some (pc, d) | none => none }) s

/-- A FORK arms (R398): the fork consumes a token that its input already holds, or the rider is FORKED. -/
def armFork (r : RiderId) (w : MicroWord) (s : State) : State :=
  let v := forkVoiceOf s r
  match forkCode s r w v with
  | some c => finish r w false (s, .refused (some c))
  | none =>
    let s := notePost r v (modSeq v (fun q => { q with fork := some (newFork s r w) }) s)
    match (taskInput (getRider s r) (Mw.ti w)).latch with
    | t :: rest => consumeFork r w t.1 t.2 (modRider r (modInput (Mw.ti w) fun i => { i with latch := rest }) s)
    | [] => pause r (stay r w .forked (!Mw.trot w) s)

/-- A FORK word with its pred (R386). -/
def runFork (r : RiderId) (w : MicroWord) (g : Grant) (again : Bool) (s : State) : State :=
  if predHolds s r w then
    if g = .held then finish r w again (countVoice (forkVoiceOf s r) s, .held) else armFork r w s
  else skipWord r s

/-- A word that need not wait any longer (R386). -/
def runWord (r : RiderId) (w : MicroWord) (g : Grant) (again : Bool) (s : State) : State :=
  let waited := decide (Mw.wcond w ≠ 0) || decide ((getRider s r).state = .waiting)
  let s := if waited then modRider r (fun x => { x with flags := { x.flags with tmo := false } }) s else s
  if predHolds s r w then finish r w again (action r w g again s) else skipWord r s

/-- What a fetch finds (R390, R391, R410, R411): the code of the fatal fault, if any. -/
def fetchCode (s : State) (r : RiderId) (w : MicroWord) (ecc : Ecc) : Option Code :=
  let x := getRider s r
  let o := riderOwner s r
  let stable := decide (x.pc.toNat < 0x4000)
  let permitted := decide (o.val = 0) || decide (regionOwner s r.stall x.pc = some o) || (stable && (decide (x.pc.toNat < 0x100) || x.lastStable))
  if !permitted then some 0x3705
  else if ecc = .double then some 0x3704
  else if malformed w then some 0x3703
  else if (Mw.objr w ∨ stable) ∧ !namesOk s r.stall o w (objectNum x w) then some 0x3707
  else none

/-- A shot audit of a rider, or of its owner, holds the rider's SHOT words (R677). -/
def shotHeld (s : State) (r : RiderId) : Bool :=
  let a := getShotAudit s r.stall
  decide (a.op.state = .busy) && (if a.ownerScope then decide ((riderOwner s r).val = a.index.toNat) else decide (r.num.val = a.index.toNat))

/-- A rider that is RUNNING executes the word at its program counter, where it is one of the words that the command names. -/
def execWord (is : MicroWord → Bool) (r : RiderId) (u : Run) (s : State) : State :=
  let x := getRider s r
  let w := wordInHand s r
  if x.state ≠ .running ∨ (Mw.op w = 7 ∧ shotHeld s r) then s
  else
    match fetchCode s r w u.ecc with
    | some c => fatalFault r c s
    | none =>
      if is w then
        let s := if u.ecc = .single then recordRider 0x0712 r (modRider r (fun x => { x with corrected := x.corrected + 1 }) s) else s
        let s := modRider r (fun x => { x with lastStable := decide (x.pc.toNat < 0x4000) }) s
        if Mw.op w = 0x0E then runFork r w u.grant false s
        else if waitMet s r w then runWord r w u.grant false (stay r w .running false s)
        else pause r (stay r w .waiting true s)
      else s

/-- A wait ends because what it waits for is met (Table 09-2). -/
def waitTrue (r : RiderId) (u : Run) (s : State) : State :=
  let w := wordInHand s r
  if (getRider s r).state = .waiting ∧ waitMet s r w ∧ !(Mw.op w = 7 && shotHeld s r) then runWord r w u.grant false s else s

/-- A wait's deadline, or that of a Gallop fork, whose flags settle when its voice takes the primary port (R394, R399, R400). -/
def deadlineReached (r : RiderId) (s : State) : State :=
  let w := wordInHand s r
  let x := getRider s r
  let out (s : State) : State :=
    let s := recordRider 0x0701 r (modRider r (fun x =>
      { x with flags := { x.flags with tmo := true }, timeouts := satInc x.timeouts, pc := Mw.tmoAddr w, state := .running, deadline := none }) s)
    boundary r s
  match x.state with
  | .waiting => out s
  | .forked =>
    if Mw.trot w then s
    else
      let v := forkVoiceOf s r
      out (modRider r (fun x => { x with forkVoice := some (voiceKey v) })
        (modSeq v (fun q => { q with fork := q.fork.map fun fk => { fk with timedOut := true } }) s))
  | _ => s

/-- A held post is granted (R395); a PUSH or POP whose queue has lost its credits or words meanwhile waits under R393 (R472). -/
def grantHeld (r : RiderId) (s : State) : State :=
  let w := wordInHand s r
  if (getRider s r).state = .held then
    if Mw.op w = 0x0E then armFork r w s
    else if queueReady s r w then finish r w true (action r w .granted true s)
    else pause r (stay r w .waiting true s)
  else s

/-- A rider starts at a frame boundary (Table 09-2). -/
def releaseRider (r : RiderId) (s : State) : State :=
  let x := getRider s r
  if x.state = .stopped ∧ x.release then
    modRider r (fun x =>
      { x with
        state := .running, release := false, pc := (riderBind s r).entry, stack := [], flags := {}, inHandler := false
        deadline := none, savedWait := none, stopPending := false, lastStable := false, forkVoice := none
        inputs := x.inputs.map fun i => (i.1, { i.2 with latch := [], claim := false }) }) s
  else s

/-- A token reaches a task input (R396, R401): whether it overran. -/
def enterTaskInput (r : RiderId) (k : Nat) (t : Token) (hub : Bool) (s : State) : State × Bool :=
  let x := getRider s r
  let i := taskInput x k
  if i.claim then
    (modRider r (fun x => { modInput k (fun i => { i with claim := false }) x with lateDiscard := satInc x.lateDiscard }) s, false)
  else if x.state = .forked ∧ Mw.ti (wordInHand s r) = k then (consumeFork r (wordInHand s r) t hub s, false)
  else if 2 ≤ i.latch.length then (overrunFault r (modRider r (modInput k fun i => { i with overrun := true }) s), true)
  else (modRider r (modInput k fun i => { i with latch := i.latch ++ [(t, hub)] }) s, false)

/-- The FORK word of a rider that is FORKED on a voice completes without a token at the latch point or the end of a Gallop HOLD
(R399, R400). -/
def forkWithoutToken (r : RiderId) (v : VoiceId) (late settled : Bool) (s : State) : State :=
  if (getRider s r).state = .forked ∧ forkVoiceOf s r = v then completeFork r (wordInHand s r) 0 false late settled s else s

/-- A rider in a drain stops where it waits outside a shot (Table 09-2). -/
def drainRider (r : RiderId) (s : State) : State :=
  let x := getRider s r
  if x.state = .waiting ∧ !x.shot.active then stopRider r .other s
  else if x.state = .stopped then modRider r (fun x => { x with release := false }) s
  else s

end Sys2Proof.Machine
end

