-- ==== Sys2Proof/Machine/StallOps.lean ====
section
/-!
DEFINITION. What every command and fault of a stall shares (chapter 1): its states, the end of an image, a halt, a loss of power, and what a
converter fault does to a slice and its spare (R39 to R52).
-/

namespace Sys2Proof.Machine

open Sys2Proof

/-! ## States -/

/-- The source of a stall's control (Table 19-6). -/
def stallSource (n : StallId) : Nat := n.val * 256

/-- The SEAL token of a stall that reaches a state (Table 17-2): 1 for RIDING, 0 for HARNESSED, STABLED and OFF. -/
def lifeToken (n : StallId) (l : Life) (s : State) : State :=
  match l with
  | .resting => s
  | .riding => issueSeal n.val 1 s
  | _ => issueSeal n.val 0 s

/-- A stall's state changes (R54). -/
def setLife (n : StallId) (l : Life) (s : State) : State :=
  lifeToken n l (raise (stallSource n) (modStall n (fun x => { x with life := l }) s))

/-- A stall command ends (R63, R705). -/
def endStallOp (n : StallId) (op : OpStatus) (s : State) : State :=
  raise (stallSource n) (modStall n (fun x => { x with op, cmd := none }) s)

/-- What a stall clears when it next reaches STABLED (Tables 04-8, 06-8, 08-12). -/
def clearFaults (n : StallId) (s : State) : State :=
  let s := forEach (stallSlices n) (fun i s => modSlice i (fun x => { x with fault := false }) s) s
  let s := forEach stallAcqs (fun k s => modAcq n k (fun x => { x with fault := false }) s) s
  modNode n (fun x => { x with fault := false, cause := 0, chan := none, cell := none }) s

/-- A stall reaches STABLED. -/
def toStabled (n : StallId) (s : State) : State := clearFaults n (setLife n .stabled s)

/-- The spares of a stall, with what is kept of them when no image is in force. -/
def idleSpare (x : Spare) : Spare := { bad := x.bad }

/-- The comparators of a stall watch nothing without an image (R604). -/
def plainWatch (n : StallId) (s : State) : State :=
  forEach (List.finRange 10) (fun w s =>
    modWatch (.stall n w) (fun x => { x with cfg := { x.cfg with action := 0, mode := 0, enable := false, lo := 0, hi := 0x3FF }, next := none, cond := false }) s) s

/-- Entries of a table with keys from `lo` on, `n` of them, are dropped. -/
def dropKeys {α : Type} (lo n : Nat) (t : Tab α) : Tab α := t.filter fun e => decide (e.1 < lo) || decide (lo + n ≤ e.1)

/-- The base and the length of a stall's image record (Table 03-6). -/
def recordBase (n : StallId) : Nat := 0x8400000 + n.val * 0x400000

/-- A stall's image record is cleared when the stall leaves HARNESSED (R153). -/
def clearRecord (n : StallId) (s : State) : State := setHbm (dropKeys (recordBase n) 0x400000) s

/-- With the image goes every accepted plane set (R501, R522); trims that wait for silence take effect, as nothing plays any more. -/
def settledTrims (t : Trims) : Trims :=
  { t with slices := overlaid t.slices t.pendSlices, iq := overlaid t.iq t.pendIq, markers := overlaid t.markers t.pendMarkers
           chans := [], pendSlices := [], pendIq := [], pendMarkers := [] }

/-- A stall's image is discarded (R57, R472): captures end, queues are flushed and close, a calibration ends, lines go to their safe values. -/
def discardImage (n : StallId) (s : State) : State :=
  let s := leaveCal n s
  let s := idleVoices n s
  let s := endCaptures n s
  let s := endQueues n s
  let s := absentPorts n s
  let s := linesSafe n s
  let s := plainWatch n s
  let s := clearRecord n (setStallImages (fun t => tabDel t n.val) s)
  let s := modTrims n settledTrims s
  modStall n (fun x =>
    { x with imageTag := 0, spareDrive := idleSpare x.spareDrive, spareProbe := idleSpare x.spareProbe, spareAcq := idleSpare x.spareAcq
             spareReq := none, spareOp := if x.spareOp.state = .busy then opEnd .aborted 0 x.spareOp else x.spareOp }) s

/-- Registers of a flux line that do not lie in the keep domain take their reset values (R417, R618). -/
def keepLine (x : Line) : Line :=
  { goal := x.goal, curb := x.curb, safe := x.safe, spanNow := x.spanNow, codeNow := x.codeNow, dc := x.dc, entering := x.entering
    lastMove := x.lastMove, persistBad := x.persistBad, safeWritten := x.safeWritten, connected := x.connected }

/-- The Farrier's limits of a stall with no image and no power (Table 12-6): 0, as after reset. -/
def noLimits (x : Farrier) : Farrier :=
  { x with minSep := 0, maxShift := 0, minSpur := 0, minImage := 0, maxSkew := 0, maxMarker := 0, minWindows := 0, minPerState := 0
           obsTimeout := 0, actTimeout := 0 }

/-- Words held or latched for a stall's registers (R22), keyed by a function and an offset of BAR0, are dropped. -/
def dropWindow (n : StallId) (t : Tab Word) : Tab Word := t.filter fun e => decide (e.1 % 0x10000000 / 0x1000000 ≠ n.val + 1)

/-- Without power a stall loses its slices, voices, channels, units, cells, riders, fast paths, comparators and memories, with the low words held for
them (R22) and the Farrier's limits that its image gave (R21).  R71 names the image, queue contents and rider state alone; that the counters of those
blocks go too, and that CTL, the node's drop counters, the Farrier's counters, the Trot deadlines and STn_KERNEL_PAGE hold their values, is the model's choice
(DESIGN CHOICE, log entry 144).  Words that ports of other stalls have on their way to its queues stay on their way (R470, R472), as do the pages
that its queues give back (R483). -/
def forgetStall (n : StallId) (s : State) : State :=
  let k := n.val
  let s := { s with
    slices := dropKeys (k * 32) 32 s.slices, acqs := dropKeys (k * 5) 5 s.acqs, voices := dropKeys (k * 128) 128 s.voices
    seqs := dropKeys (k * 128) 128 s.seqs, chans := dropKeys (k * 64) 64 s.chans, units := dropKeys (k * 4) 4 s.units
    cells := dropKeys (k * 256) 256 s.cells, riders := dropKeys (k * 16) 16 s.riders, fasts := dropKeys (k * 64) 64 s.fasts
    groups := dropKeys (k * 8) 8 s.groups, held := dropWindow n s.held, latched := dropWindow n s.latched, watches := dropKeys (k * 10) 10 s.watches, trims := dropKeys k 1 s.trims
    library := dropKeys (k * 6291456) 6291456 s.library, descs := dropKeys (k * 32768) 32768 s.descs
    kernels := dropKeys (k * 524288) 524288 s.kernels, store := dropKeys (k * 65536) 65536 s.store }
  let s := forEach (stallLines n) (fun l s => modLine l keepLine s) s
  let s := modFarrier n noLimits s
  modNode n (fun x => { x with passes := 0 }) s

/-- A copy that a stall's node holds: one that has not left it, or one on its way to a consumer there (R337). -/
def heldByNode (n : StallId) (f : Flight) : Bool :=
  match f.stage with
  | .local_ => f.src == .node n
  | .hubLink => f.src == .node n
  | .exit => consumerPlace f.dst == .node n
  | .planes => false

/-- A node that halts drops every token it holds and counts each (R337). -/
def dropNode (n : StallId) (s : State) : State :=
  forEach (s.flights.filter fun f => heldByNode n f.2) (fun f s =>
    modNode n (fun x => { x with faultDrop := satInc x.faultDrop }) (bookOverrun f.2.tok.chan 1 (dropFlight f.1 s))) s

/-- Domains `lo` to `lo + n - 1` as bits of PWR_DOM_ON. -/
def domainMask (lo n : Nat) : BitVec 256 := BitVec.ofNat 256 ((2 ^ n - 1) * 2 ^ lo)

/-- Domains that have no power wait to be switched on one at a time, in ascending number (R619, R620). -/
def waitDomains (lo n : Nat) (now : Fine) (p : Power) : Power :=
  let more := ((List.range n).map (lo + ·)).filter fun d => !bit p.domOn d && !p.switchOn.contains d
  { p with switchOn := p.switchOn ++ more, switchFrom := if p.switchOn.isEmpty then now else p.switchFrom }

/-- Domains lose their power; none of them waits any longer. -/
def dropDomains (lo n : Nat) (now : Fine) (p : Power) : Power :=
  let rest := p.switchOn.filter fun d => decide (d < lo) || decide (lo + n ≤ d)
  { p with domOn := p.domOn &&& ~~~(domainMask lo n), switchOn := rest, switchFrom := if rest.head? = p.switchOn.head? then p.switchFrom else now }

/-- Domains go on or off (R618). -/
def setDomains (lo n : Nat) (on : Bool) (s : State) : State := setPower (if on then waitDomains lo n s.clock.now else dropDomains lo n s.clock.now) s

/-- A domain waits to be switched on. -/
def domainWaits (s : State) (lo n : Nat) : Bool := s.power.switchOn.any fun d => decide (lo ≤ d) && decide (d < lo + n)

/-- The switched domains of a stall (Table 16-1). -/
def stallDomains (n : StallId) (on : Bool) (s : State) : State := setDomains (30 * n.val + 1) 29 on s

/-- A stall's switched domains go off: outputs fall to their unpowered positions, and its DC paths ramp to their safe values (R55, R57). -/
def stallOff (n : StallId) (s : State) : State :=
  let s := closePorts n s
  let s := dropNode n s
  let s := discardImage n s
  let s := fastDown n s
  let s := stallDomains n false (forgetStall n s)
  let s := modGait n (fun x => { x with pace := { x.pace with now := 0xFF, margins := [] } }) s
  let s := if s.tack.run = some (.loadStall n) ∧ 5 ≤ s.tack.phase then setTack (fun t => { t with lostTarget := true }) s else s
  setLife n .off (modStall n (fun x =>
    { x with
      frameLocked := false, powered := false, haltPending := false, draining := false, flushing := false, drainCode := 0, faultHalt := false
      factoryHold := false }) s)

/-- Every DC path of a stall holds a value: its ramp has ended, or it is in halter. -/
def linesRest (s : State) (n : StallId) : Bool :=
  (stallLines n).all fun l => let x := getLine s l; !x.connected || decide (x.dc = .steady) || decide (x.dc = .halter)

/-- A POWER_DOWN whose DC paths hold their safe values switches the other domains off and reaches OFF (R55, Table 01-9). -/
def endPowerDown (n : StallId) (s : State) : State :=
  if (getStall s n).cmd = some .powerDown ∧ linesRest s n then endStallOp n (opDone 0) (stallOff n s) else s

/-! ## Coming up (Table 01-9, R604, R632, R633) -/

/-- Double-bit errors of the persistent register file are recorded one by one. -/
def recordDoubles : Nat → State → State
  | 0, s => s
  | k + 1, s => recordDoubles k (record 0x3D64 8 0 0 0 s)

/-- Errors that a load of records meets in the persistent register file (R637). -/
def persistErrors (corrected doubles : Nat) (s : State) : State :=
  recordDoubles doubles (setPersist (fun p => { p with corrected := satAdd p.corrected corrected, uncorrected := satAdd p.uncorrected doubles }) s)

/-- POWER_UP starts: domains on, the stud book loaded, the comparators checked; a failed check powers the stall down again. -/
def startPowerUp (n : StallId) (found : PowerUpFound) (s : State) : State :=
  let failed := (if found.studA then 0 else 1) + if found.studB then 0 else 1
  let s := loadStud n found.studA found.studB (persistErrors found.corrected (min failed found.doubles) (stallDomains n true s))
  let s := modStall n (fun x =>
    { x with
      powered := true, cmd := some .powerUp, op := opStart
      spareDrive := { bad := found.spareDrive }, spareProbe := { bad := found.spareProbe }, spareAcq := { bad := found.spareAcq } }) s
  if found.comparators = 0 then s
  else
    let bad := (List.finRange 10).filter fun w => bit found.comparators w.val
    let s := forEach bad (fun w s => modWatch (.stall n w) (fun x => { x with chkFail := true }) (record 0x3C02 n.val 0 0 0 s)) s
    endStallOp n (opEnd .failed 0x2D08 opStart) (record 0x2D08 n.val 0 0 0 (stallOff n s))

/-- Boot runs: one of its steps is in hand. -/
def booting (s : State) : Bool := match s.power.phase with | .boot _ => true | _ => false

/-- STRAPS.boot_src says flash (R628). -/
def bootsFromFlash (s : State) : Bool := decide (bits s.power.straps 0 2 = 1)

/-- The end of a bring-up; at boot it is the end of boot (Table 16-4). -/
def endBringUp (s : State) : State :=
  let s := setPower (fun p => { p with bringing := none }) s
  if booting s then
    raise 0x804 (record 0x0D60 8 0 0 0 (setPower (fun p => { p with phase := .running, cmd := none, op := opDone 0x0D60, partialValid := p.fwWriting.isSome }) s))
  else s

/-- A stall of a bring-up has its turn behind it; `up` says that it reached its boot state. -/
def stallBrought (n : StallId) (up : Bool) (s : State) : State :=
  setPower (fun p =>
    let done := p.bringTotal - p.toBring.length
    { p with
      bringing := none
      stallsUp := if up then p.stallsUp ||| BitVec.ofNat 8 (2 ^ n.val) else p.stallsUp
      op := if p.cmd = some .boot then { p.op with progress := 500 + 500 * done / p.bringTotal } else p.op }) s

/-- The bring-up goes on with the next stall: one stall at a time, in ascending number; a stall that is up already is passed by. -/
def bringNext (bring : Tab PowerUpFound) : Nat → State → State
  | 0, s => endBringUp s
  | k + 1, s =>
    match s.power.toBring with
    | [] => endBringUp s
    | n :: rest =>
      let s := setPower (fun p => { p with toBring := rest, bringing := some n }) s
      if (getStall s n).life ≠ .off then bringNext bring k (stallBrought n true s)
      else
        let s := startPowerUp n (tabGet {} bring n.val) s
        if (getStall s n).cmd.isSome then s else bringNext bring k (stallBrought n false s)

/-- The stall in hand is done with, and the next has its turn. -/
def bringOn (n : StallId) (up : Bool) (bring : Tab PowerUpFound) (s : State) : State :=
  if s.power.bringing = some n then bringNext bring 8 (stallBrought n up s) else s

/-- The stall in hand has a stall image to load from the flash (R632). -/
def flashImageDue (n : StallId) (s : State) : Bool :=
  decide (s.power.bringing = some n) && booting s && bootsFromFlash s && s.power.harnessAtBoot.contains n

/-- The load of a stall image from the flash starts at boot step 6. -/
def startFlashStall (n : StallId) (s : State) : State :=
  setTack (fun t => { t with run := some (.loadStall n), flash := true, fits := true, func := none, op := opStart, phase := 1, partialValid := true
                             sectionsDone := 0, sectionAt := 0, sectionsTotal := 0, lostTarget := false, body := none }) s

/-- A stall of a bring-up has reached STABLED: its image from the flash, where it is due, or the next stall. -/
def bringAligned (n : StallId) (bring : Tab PowerUpFound) (s : State) : State :=
  if flashImageDue n s then (if s.tack.run.isNone then startFlashStall n s else s) else bringOn n true bring s

/-! ## Halt and rest (Table 01-9) -/

/-- Riders of a stall that are in a shot. -/
def shotsNow (s : State) (n : StallId) : Nat := ((stallRiders n).filter fun r => (getRider s r).shot.active).length

/-- A stall enters RESTING: the riders in a shot are counted (Table 01-13). -/
def enterResting (n : StallId) (s : State) : State :=
  setLife n .resting (modStall n (fun x => { x with drain := { valid := true, atStart := shotsNow s n } }) s)

/-- A halt: each rider stops at its next boundary and its shot is aborted; windows are cut, voices idle, fast flux 0, ports terminated
(Table 01-8, R244, R281, R383, R442).  A drain in progress changes to a halt, without the drain's flush (Table 01-9, log entry 25). -/
def haltStall (n : StallId) (s : State) : State :=
  let s := if (getStall s n).life = .riding then enterResting n s else s
  let s := modStall n (fun x => { x with haltPending := true, draining := false, flushing := false, cmd := x.cmd.map fun _ => .halt }) s
  let s := cutWindows n s
  let s := forEach (stallRiders n) (fun r s => askStop r .halt s) s
  let s := idleVoices n s
  let s := fastStop n s
  closePorts n s

/-- A halt that a fault initiates: host commands are refused until it completes (R60). -/
def faultHaltStall (n : StallId) (s : State) : State := haltStall n (modStall n (fun x => { x with faultHalt := true }) s)

/-- A stall fatal fault (R57, R60): the stall halts where it rides or rests; the fault bit and 0x3D06 stand in every state but OFF. -/
def fatalStall (n : StallId) (s : State) : State :=
  if (getStall s n).life = .off then s
  else
    let s := raise (stallSource n) (record 0x3D06 n.val 0 0 0 (modStall n (fun x => { x with fault := true }) s))
    match (getStall s n).life with
    | .riding => faultHaltStall n s
    | .resting => faultHaltStall n s
    | _ => s

/-- A stall in RESTING reaches HARNESSED (R57, R59, R244, R282): its command ends, with 0x0D04 after a drain timeout
that aborted a shot. -/
def toHarnessed (n : StallId) (s : State) : State :=
  let x := getStall s n
  let code := x.drainCode
  let s := discardOpens n (fun _ => true) s
  let s := idleVoices n s
  let s := fastStop n s
  let s := closePorts n s
  let s := if x.flushing then forEach (stallQueues s n) flushQueue s else s
  let s := modStall n (fun x =>
    { x with
      haltPending := false, draining := false, flushing := false, drainCode := 0, faultHalt := false, drain := { x.drain with valid := false } }) s
  let s := setLife n .harnessed s
  let s := if code = 0 then s else record code n.val 0 0 0 s
  if x.op.state = .busy ∧ x.cmd.isSome then endStallOp n (opDone code) s else modStall n (fun x => { x with cmd := none }) s

/-! ## Slices and spares -/

/-- Change the spare of a kind. -/
def modSpare (n : StallId) (k : SliceKind) (f : Spare → Spare) (s : State) : State :=
  modStall n (fun x =>
    match k with
    | .drive => { x with spareDrive := f x.spareDrive }
    | .probe => { x with spareProbe := f x.spareProbe }
    | .acq => { x with spareAcq := f x.spareAcq }) s

/-- The codes of a kind (Table 01-14): of a base, by kind. -/
def spareCode (base : BitVec 16) (k : SliceKind) : Code :=
  match k with
  | .drive => base + 0x0100
  | .probe => base + 0x0110
  | .acq => base + 0x0300

/-- STn_SPARE_POLICY permits the spare of a kind to stand for slice k. -/
def permitted (s : State) (n : StallId) (k : SliceKind) (target : BitVec 4) : Bool :=
  let p := (imageOf s n).policy
  match k with
  | .drive => decide (target.toNat < 8) && bit p target.toNat
  | .probe => decide (target.toNat < 4) && bit p (8 + target.toNat)
  | .acq => decide (target.toNat < 4) && bit p (12 + target.toNat)

/-- STn_SPARE_POLICY permits a forced takeover of a kind. -/
def autoPermitted (s : State) (n : StallId) (k : SliceKind) : Bool :=
  bit (imageOf s n).policy (match k with | .drive => 16 | .probe => 17 | .acq => 18)

/-- Every shot that uses a voice or channel of a slice is marked with slice (R44, R46, R279, R283). -/
def markSliceShots (i : SliceId) (s : State) : State :=
  match i.kind with
  | .acq =>
    match fin? 5 i.idx.val with
    | some k =>
      let s := markWindows i.stall k (fun w => { w with slice := true }) (some .slice) s
      markRecords i.stall k (fun x => { x with sliceAt := some s.clock.sched, record := x.record.map fun r => { r with slice := true } }) s
    | none => s
  | _ => markSlice i .slice s

/-- The owner of a slice of any kind. -/
def anySliceOwner (s : State) (i : SliceId) : Owner :=
  match i.kind with
  | .acq => match fin? 5 i.idx.val with | some k => acqOwner s i.stall k | none => 0
  | _ => sliceOwner s i

/-- The fault flag of a slice. -/
def faultBit (i : SliceId) (s : State) : State :=
  match i.kind with
  | .acq => match fin? 5 i.idx.val with | some k => modAcq i.stall k (fun x => { x with fault := true }) s | none => s
  | _ => modSlice i (fun x => { x with fault := true }) s

/-- A faulted slice: its flag is set and its port terminated (R44). -/
def setSliceFault (i : SliceId) (s : State) : State :=
  match i.kind with
  | .acq => faultBit i s
  | _ => closePort i (faultBit i s)

/-- A converter fault of a drive or probe slice strikes a calibration of kinds 2 to 4 on it (R517). -/
def calStruck (i : SliceId) (c : Calib) : Bool := i.kind != .acq && decide (targetSlice i.stall (targetOf c.target) = some i)

/-- A forced takeover that takes A4, or a fault of A4, ends a readout calibration at once, in every phase, and keeps the old values (R45, R517). -/
def loseA4 (n : StallId) (s : State) : State :=
  let c := (getFarrier s n).cal
  if c.running ∧ readoutKind c.kind then endCal n .aborted 0x0902 s else s

/-- What a fault of a slice does to a calibration: one of A4 takes it from a readout kind, one of a target ends kinds 2 to 4. -/
def calFault (i : SliceId) (s : State) : State := if i.kind = .acq ∧ isSpare i then loseA4 i.stall s else abortCal i.stall (calStruck i) s

/-- A requested spare command gives way to a forced takeover of its kind, or to a fault of its spare; it ends failed with the code of a spare in
use (DESIGN CHOICE, log entry 145: R44 does not say what becomes of it). -/
def dropSpareReq (n : StallId) (k : SliceKind) (s : State) : State :=
  match (getStall s n).spareReq with
  | some r =>
    if r.kind = k then
      let code := spareCode 0x1002 k
      record code n.val 0 0 0 (modStall n (fun x => { x with spareReq := none, spareOp := opEnd .failed code x.spareOp }) s)
    else s
  | none => s

/-- A forced takeover begins (R44, R45). -/
def beginForced (i : SliceId) (s : State) : State :=
  let n := i.stall
  let s := if i.kind = .acq then loseA4 n s else s
  let s := modFarrier n (fun x => { x with cal := { x.cal with returning := x.cal.returning && i.kind != .acq } }) s
  let s := dropSpareReq n i.kind s
  modSpare n i.kind (fun x => { x with use := .switching, target := BitVec.ofNat 4 i.idx.val, forced := true, live := false }) s

/-- No spare stands for a faulted slice (R46). -/
def noSpare (i : SliceId) (s : State) : State :=
  let s := record (spareCode 0x3004 i.kind) i.stall.val (anySliceOwner s i) 0 0 s
  match i.kind with
  | .acq => match fin? 5 i.idx.val with | some k => failCaptures i.stall k s | none => s
  | _ => s

/-- A spare may stand for a slice by force: it is good, idle, in Farrier use, or only asked for; one whose release still waits carries its slice. -/
def spareFree (x : Spare) : Bool := !x.bad && !carries x && !x.forced

/-- The slice that a spare carries or is switching to. -/
def servedBy (s : State) (i : SliceId) : Option SliceId :=
  let sp := spareOf (getStall s i.stall) i.kind
  if isSpare i ∧ (carries sp ∨ sp.forced)
  then (fin? 9 sp.target.toNat).map fun k => { i with idx := k } else none

/-- A spare has failed: it stands for no slice from then on, a slice that the Farrier had it stand for returns at once, and a spare command of its kind
ends.  All of it is the model's choice, as is that a converter fault at run time sets the bit that Table 01-7 gives for a failed self-test (DESIGN CHOICE,
log entry 146). -/
def spareFails (n : StallId) (k : SliceKind) (s : State) : State :=
  let s := if k = .acq then modFarrier n (fun x => { x with cal := { x.cal with returning := false } }) s else s
  modSpare n k (fun x => { x with bad := true, use := .idle, target := 0xF, forced := false, leaving := false, live := false }) (dropSpareReq n k s)

/-- SLICE_CONVERTER_FAULT (R44, R46, Table 04-2): a faulted spare leaves the slice that it carries without one; a slice that its spare carries plays on
from the spare, so nothing but its fault flag changes (R40). -/
def converterFault (i : SliceId) (s : State) : State :=
  if (getStall s i.stall).life = .off ∨ !sliceExists i then s
  else
    let s := calFault i s
    match servedBy s i with
    | some t =>
      noSpare t (markSliceShots t (setSliceFault t (spareFails i.stall i.kind (setSliceFault i s))))
    | none =>
      if isSpare i then spareFails i.stall i.kind (setSliceFault i s)
      else if carried s i then faultBit i s
      else
        let s := markSliceShots i (setSliceFault i s)
        if autoPermitted s i.stall i.kind ∧ permitted s i.stall i.kind (BitVec.ofNat 4 i.idx.val) ∧ spareFree (spareOf (getStall s i.stall) i.kind)
        then beginForced i s
        else noSpare i s

end Sys2Proof.Machine
end

