-- ==== Sys2Proof/Machine/Books.lean ====
section
/-!
DEFINITION. Chapter 18: the shot audit of a rider or of an owner of a stall (R677, R678).
-/

namespace Sys2Proof.Machine

open Sys2Proof

/-- The riders that an audit concerns. -/
def auditRiders (s : State) (n : StallId) (ownerScope : Bool) (index : BitVec 4) : List RiderId :=
  (stallRiders n).filter fun r =>
    if ownerScope then decide ((riderBind s r).owner.val = index.toNat) else decide (r.num.val = index.toNat)

/-- The owner that an audit names: its rider's, or its own. -/
def auditOwner (s : State) (n : StallId) (ownerScope : Bool) (index : BitVec 4) : Owner :=
  let i : Fin 16 := ⟨index.toNat, index.isLt⟩
  if ownerScope then i else (riderBind s ⟨n, i⟩).owner

/-- A shot audit may run in HARNESSED, RIDING and RESTING (R678). -/
def auditable (s : State) (n : StallId) : Bool :=
  match (getStall s n).life with
  | .harnessed => true
  | .riding => true
  | .resting => true
  | _ => false

/-- What refuses a shot audit (R678, Table 18-5). -/
def shotAuditCode (f : Func) (n : StallId) (val : Word) (s : State) : Option Code :=
  let index : BitVec 4 := bits val 0 4
  if (getShotAudit s n).op.state = .busy ∨ !auditable s n ∨ (bit val 8 ∧ index = 15) ∨ !mayAct f (auditOwner s n (bit val 8) index)
  then some 0x1706 else none

/-- The audit starts. -/
def startShotAudit (n : StallId) (val : Word) (s : State) : State :=
  modShotAudit n (fun a => { a with op := opStart, ownerScope := bit val 8, index := bits val 0 4 }) s

def execShotAuditCmd (f : Func) (n : StallId) (val : Word) (s : State) : Res :=
  .next (hostWrite f (.ctl n .shotCmd) (fun s =>
    match shotAuditCode f n val s with
    | some c => refuseReg f (.ctl n .shotCmd) c (modShotAudit n (fun a => { a with op := opRefuse c a.op }) s)
    | none => startShotAudit n val s) s)

/-- The four terms of riders, modulo 2^32 (R669, R670): started, completed, aborted, in progress. -/
def shotTerms (s : State) (rs : List RiderId) : BitVec 32 × BitVec 32 × BitVec 32 × BitVec 5 :=
  rs.foldl (fun acc r =>
    let x := getRider s r
    (acc.1 + x.started, acc.2.1 + x.completed, acc.2.2.1 + x.aborted, acc.2.2.2 + if x.shot.active then 1 else 0)) (0, 0, 0, 0)

/-- SHOT_AUDIT_SETTLE_POINT: the terms stand, and the audit ends (R677, R678). -/
def shotSettle (n : StallId) (s : State) : State :=
  let a := getShotAudit s n
  if a.op.state = .busy then
    let t := shotTerms s (auditRiders s n a.ownerScope a.index)
    let good := decide (t.1 = t.2.1 + t.2.2.1 + t.2.2.2.zeroExtend 32)
    let s := modShotAudit n (fun a =>
      { a with started := t.1, completed := t.2.1, aborted := t.2.2.1, inProgress := t.2.2.2
               op := if good then opDone 0 else opEnd .failed 0x3712 a.op }) s
    let obj : Word := if a.ownerScope then 0 else riderObject ⟨n, ⟨a.index.toNat, a.index.isLt⟩⟩
    let s := if good then s else record 0x3712 n.val (auditOwner s n a.ownerScope a.index) obj 0 s
    raise (stallSource n) s
  else s

def execShotAuditSettlePoint (n : StallId) (s : State) : Res := .next (shotSettle n s)

end Sys2Proof.Machine
end

