-- ==== Sys2Proof/Machine/Capture.lean ====
section
/-!
DEFINITION. Chapter 7: the commands of a capture unit, its triggers, the end of a record, gaps and the read pointer.
-/

namespace Sys2Proof.Machine

open Sys2Proof

/-- The register of a unit's commands. -/
def unitReg (u : UnitId) (r : TuReg) : Reg := .unit u.stall u.num r

/-- A rein channel that a unit of an owner may name as trigger (R288): its own, or a broadcast channel. -/
def triggerChan (s : State) (o : Owner) (e : ReinChan) : Bool :=
  let a := chanAttr s e
  decide (a.owner = o) || (decide (a.owner.val = 0) && a.ten) || (decide (o.val = 0) && decide (a.owner.val ≠ 15))

/-- A channel that a unit of an owner may name (R288). -/
def namedChan (s : State) (o : Owner) (n : StallId) (k : Nat) : Bool :=
  match fin? 64 k with
  | some k => let b := chanBind s ⟨n, k⟩; decide (b.slice ≠ 0xF) && (decide (b.owner = o) || decide (o.val = 0))
  | none => false

/-- The source of a unit is bound and permitted (R288). -/
def sourceOk (s : State) (o : Owner) (n : StallId) (c : UnitCfg) : Bool :=
  if c.decimated then namedChan s o n c.target.toNat
  else match fin? 5 c.target.toNat with
    | some k => decide (k.val < 4) && (decide (acqOwner s n k = o) || decide (o.val = 0))
    | none => false

/-- The trigger object of a unit is bound and permitted (R288, Table 07-3). -/
def triggerOk (s : State) (o : Owner) (n : StallId) (c : UnitCfg) : Bool :=
  match c.trigSrc with
  | 2 => triggerChan s o c.trigObj
  | 3 => namedChan s o n c.trigObj.toNat
  | 4 => schedValid c.time
  | 6 => false
  | 7 => false
  | _ => true

/-- A field of a unit out of range (0x1405 of Table 07-2). -/
def fieldsOk (s : State) (o : Owner) (n : StallId) (c : UnitCfg) : Bool :=
  decide (c.post ≠ 0) && decide (c.ringMib ≠ 0) && decide (c.ringMib.toNat ≤ 4096) && decide (c.avg.toNat ≤ 10)
    && (!c.continuous || decide (c.pre = 0)) && decide (c.component ≠ 3) && decide (c.slope ≠ 3)
    && (c.decimated || decide (c.trigSrc ≠ 1) || decide (c.component = 0)) && sourceOk s o n c && triggerOk s o n c

/-- The life states in which a unit may be armed (0x1403). -/
def captureLife (s : State) (n : StallId) : Bool :=
  match (getStall s n).life with
  | .harnessed => true
  | .riding => true
  | .resting => true
  | _ => false

/-- What refuses an ARM (Table 07-2). -/
def armCode (f : Func) (u : UnitId) (s : State) : Option Code :=
  let x := getUnit s u
  let c := x.cfg
  if x.armed ∨ x.ringBytes ≠ 0 then some 0x1402
  else if !captureLife s u.stall then some 0x1403
  else if !fieldsOk s f.owner u.stall c then some 0x1405
  else if c.ringMib.toNat * 2 ^ 20 < recordBytes c (c.pre.toNat + c.post.toNat) + 64 then some 0x1401
  else if freeTrace s u.stall < c.ringMib.toNat * pagesPerMib then some 0x1404
  else if (findRun s u.stall (c.ringMib.toNat * pagesPerMib)).isNone then some 0x1404
  else none

/-- Fine steps of a sample of a unit's source: an ADC sample or a frame. -/
def sourceStep (c : UnitCfg) : Nat := if c.decimated then fineFrame else 24

/-- An ARM that is accepted (R293, R299 to R301). -/
def armUnit (f : Func) (u : UnitId) (s : State) : State :=
  let c := (getUnit s u).cfg
  let pages := c.ringMib.toNat * pagesPerMib
  let first := (findRun s u.stall pages).getD 0
  let s := allocPages u.stall pages s
  modUnit u (fun x =>
    { x with
      arm := c, owner := some f.owner, armed := true, op := opStart, partialValid := true, records := 0
      ringPage := first, ringBytes := pages * 65536, wr := 0, rd := 0, used := 0, early := 0, busy := 0, gaps := 0, hobbled := 0
      filledFrom := s.clock.sched, hobble := .none, record := none, gap := none, fired := false, lastTrig := none
      waiting := [], started := false, ovrAt := none, dropped := [], sliceAt := none
      upFrom := s.clock.sched / sourceStep c, downFrom := s.clock.sched / sourceStep c }) s

/-- A command of a unit is refused with its operation status set (R299, R702). -/
def refuseUnit (f : Func) (u : UnitId) (code : Code) (s : State) : State :=
  refuseReg f (unitReg u .cmd) code (modUnit u (fun x => { x with op := opRefuse code x.op }) s)

/-- ARM (R299). -/
def arm (f : Func) (u : UnitId) (s : State) : State :=
  hostWrite f (unitReg u .cmd) (fun s => match armCode f u s with | some c => refuseUnit f u c s | none => armUnit f u s) s

def execArm (f : Func) (u : UnitId) (s : State) : Res := .next (arm f u s)

/-- DISARM (R302): the record in progress closes with cut; on an idle unit nothing happens. -/
def disarmUnit (u : UnitId) (s : State) : State :=
  if (getUnit s u).armed then
    let s := cutRecord u s
    record 0x0401 u.stall.val (((getUnit s u).owner).getD 0) 0 0 (endCapture u (opEnd .aborted 0x0401 (getUnit s u).op) s)
  else s

def execDisarm (f : Func) (u : UnitId) (s : State) : Res := .next (hostWrite f (unitReg u .cmd) (disarmUnit u) s)

/-- FORCE (R304): a trigger at the first frame boundary after its grant. -/
def execForce (f : Func) (u : UnitId) (s : State) : Res :=
  .next (hostWrite f (unitReg u .cmd) (fun s => trigger u { frame := frameNow s + 1, force := true } s) s)

/-- RELEASE (R298): the ring goes back; refused on an armed unit. -/
def releaseUnit (f : Func) (u : UnitId) (s : State) : State :=
  if (getUnit s u).armed then refuseUnit f u 0x1402 s else freeRing u s

def execRelease (f : Func) (u : UnitId) (s : State) : Res := .next (hostWrite f (unitReg u .cmd) (releaseUnit f u) s)

/-- Some of the `k` samples before sample `j` meets a test. -/
def anyBefore (p : Nat → Bool) (j : Nat) : Nat → Bool
  | 0 => false
  | k + 1 => p (j - 1) || anyBefore p (j - 1) k

/-- The component of a sample of the source on which a level trigger works (R306). -/
def levelSample (s : State) (u : UnitId) (sig : Signal) (j : Nat) : Int := component (getUnit s u).arm (sourceSample s u sig j)

/-- A rising crossing lies between samples j and j + 1, and the hysteresis was met since the last one (R306). -/
def risesAt (s : State) (u : UnitId) (sig : Signal) (j : Nat) : Bool :=
  let x := getUnit s u
  let l := x.arm.level.toInt
  x.arm.slope != 1 && decide (levelSample s u sig j < l) && decide (l ≤ levelSample s u sig (j + 1))
    && anyBefore (fun i => decide (levelSample s u sig i ≤ l - x.arm.hyst.toNat)) (j + 1) (j + 1 - x.upFrom)

/-- A falling crossing, the mirror case (R306). -/
def fallsAt (s : State) (u : UnitId) (sig : Signal) (j : Nat) : Bool :=
  let x := getUnit s u
  let l := x.arm.level.toInt
  x.arm.slope != 0 && decide (l < levelSample s u sig j) && decide (levelSample s u sig (j + 1) ≤ l)
    && anyBefore (fun i => decide (l + x.arm.hyst.toNat ≤ levelSample s u sig i)) (j + 1) (j + 1 - x.downFrom)

/-- LEVEL_CROSSING (R306, R307): `j` is the number of sample j - 1 of the rule, since the epoch. -/
def levelTrigger (u : UnitId) (j : Nat) (sig : Signal) (s : State) : State :=
  let x := getUnit s u
  let up := risesAt s u sig j
  let down := fallsAt s u sig j
  if x.armed ∧ x.arm.trigSrc = 1 ∧ (up ∨ down) then
    let f := crossingF x.arm.level.toInt (levelSample s u sig j) (levelSample s u sig (j + 1))
    let pos := if x.arm.decimated then j * 4096 + f * 64 else j * 64 + f
    let s := modUnit u (fun x => { x with upFrom := if up then j + 1 else x.upFrom, downFrom := if down then j + 1 else x.downFrom }) s
    trigger u { frame := pos / 4096, pos := pos % 4096, interp := true } s
  else s

def execLevelCrossing (u : UnitId) (sample : Nat) (sig : Signal) (s : State) : Res := .next (levelTrigger u sample sig s)

/-- SCHEDULE_TIME_TRIGGER (Table 07-3): once per ARM. -/
def scheduleTrigger (u : UnitId) (s : State) : State :=
  let x := getUnit s u
  if x.armed ∧ x.arm.trigSrc = 4 ∧ !x.fired then
    trigger u { frame := (bits x.arm.time 11 53 : BitVec 53).toNat } (modUnit u (fun x => { x with fired := true }) s)
  else s

def execScheduleTimeTrigger (u : UnitId) (s : State) : Res := .next (scheduleTrigger u s)

/-- HOBBLE_END (R311): a time hobble ends. -/
def hobbleEnds (u : UnitId) (s : State) : State :=
  match (getUnit s u).hobble with
  | .frames _ => modUnit u (fun x => { x with hobble := .none }) s
  | _ => s

def execHobbleEnd (u : UnitId) (s : State) : Res := .next (hobbleEnds u s)

/-- RECORD_END (R302, R310, R313): the last post sample is stored; the capture ends with rec_count records, or goes on. -/
def recordEnds (u : UnitId) (sig : Signal) (s : State) : State :=
  let x := getUnit s u
  match x.record with
  | none => s
  | some r =>
    let s := closeRecord u r x.arm.post.toNat false sig s
    let y := getUnit s u
    if y.arm.recCount ≠ 0 ∧ y.arm.recCount.toNat ≤ y.records then endCapture u (opDone 0) s else nextContinuous u s

def execRecordEnd (u : UnitId) (sig : Signal) (s : State) : Res := .next (recordEnds u sig s)

/-- The end of the last post sample of the record in progress of a triggered capture (R315). -/
def recordTill (x : CapUnit) : Fine :=
  if x.arm.continuous then 0 else (x.record.map fun r => (r.sample + x.arm.post.toNat) * interval x.arm).getD 0

/-- STORAGE_BEHIND (R315): the record in progress closes at its last written sample, and a gap begins. -/
def storageBehind (u : UnitId) (s : State) : State :=
  let x := getUnit s u
  if x.armed then
    let s := beginGap u false s.clock.sched (recordTill x) (cutRecord u s)
    let y := getUnit s u
    if y.arm.recCount ≠ 0 ∧ y.arm.recCount.toNat ≤ y.records then endCapture u (opDone 0) s else s
  else s

def execStorageBehind (u : UnitId) (s : State) : Res := .next (storageBehind u s)

/-- STORAGE_RECOVERED (R315 to R317): the gap's storage part ends, in triggered mode not before the cut record's last post sample; a continuous
capture goes on. -/
def storageRecovered (u : UnitId) (s : State) : State :=
  let recover (g : Gap) : Gap := if g.store then { g with recovered := some (g.recovered.getD s.clock.sched) } else g
  nextContinuous u (endStore u s.clock.sched (modUnit u (fun x => { x with gap := x.gap.map recover }) s))

def execStorageRecovered (u : UnitId) (s : State) : Res := .next (storageRecovered u s)

/-- How far a TU_RD value lies after the present one, in ring order. -/
def rdAdvance (x : CapUnit) (val : Word) : Nat :=
  let d := (val.toNat + x.ringBytes - x.rd) % max 1 x.ringBytes
  if d = 0 then x.ringBytes else d

/-- TU_RD_WRITE (R296, R316, R317): it frees space, which may end a drain gap, or let a gap record enter that waited since the capture's end; out of order it is refused. -/
def rdCode (u : UnitId) (val : Word) (s : State) : Option Code :=
  let x := getUnit s u
  if val.toNat < x.ringBytes ∧ rdAdvance x val ≤ x.used then none else some 0x1406

def freeSpace (u : UnitId) (val : Word) (s : State) : State :=
  let s := modUnit u (fun x => { x with rd := val.toNat, used := x.used - rdAdvance x val }) s
  let s := if (getUnit s u).armed then s else writeGap u s
  nextContinuous u (showProgress u (endDrain u s))

def execTuRdWrite (f : Func) (u : UnitId) (val : Word) (s : State) : Res :=
  .next (hostCheck f (unitReg u .rd) (rdCode u val) (freeSpace u val) s)

end Sys2Proof.Machine
end

