-- ==== Sys2Proof/Machine/Stalls.lean ====
section
/-!
DEFINITION. Chapter 1: the commands and faults of a stall, and its spares.
-/

namespace Sys2Proof.Machine

open Sys2Proof

/-! ## Stall commands (R57 to R64) -/

/-- A load of a stall's image runs (R144). -/
def loading (s : State) (n : StallId) : Bool := decide (s.tack.run = some (.loadStall n))

/-- What refuses a stall command: a fault-initiated halt in progress, for every command (R60); a command in progress, which HALT passes (R61, R144); a
state that does not permit it (R57); a stall that boot step 6 has not reached (R632). -/
def stallCode (n : StallId) (halt permitted : Bool) (s : State) : Option Code :=
  if (getStall s n).faultHalt then some 0x1D03
  else if !halt && ((getStall s n).cmd.isSome || loading s n) then some 0x1D02
  else if !permitted || s.power.toBring.contains n then some 0x1D01
  else none

/-- A stall command: refused with OP_STATUS as R702 says, or carried out. -/
def stallCommand (f : Func) (n : StallId) (halt : Bool) (permitted : State → Bool) (eff : State → State) (s : State) : State :=
  hostWrite f (.ctl n .cmd) (fun s =>
    match stallCode n halt (permitted s) s with
    | some c => refuseReg f (.ctl n .cmd) c (modStall n (fun x => { x with op := opRefuse c x.op }) s)
    | none => eff s) s

/-- The life state of a stall. -/
def lifeOf (n : StallId) (s : State) : Life := (getStall s n).life

def execPowerUp (f : Func) (n : StallId) (found : PowerUpFound) (s : State) : Res :=
  .next (stallCommand f n false (fun s => decide (lifeOf n s = .off) && !s.power.recovery) (startPowerUp n found) s)

/-- The frames of a stall are aligned, after its domains have been switched on (R620): it reaches STABLED (Table 01-9). -/
def aligned (n : StallId) (bring : Tab PowerUpFound) (s : State) : State :=
  if (getStall s n).cmd = some .powerUp ∧ !domainWaits s (30 * n.val + 1) 29 then
    let s := toStabled n (modStall n (fun x => { x with frameLocked := true, fault := false }) s)
    bringAligned n bring (endStallOp n (opDone 0) s)
  else s

def execFrameAlignmentDone (n : StallId) (bring : Tab PowerUpFound) (s : State) : Res := .next (aligned n bring s)

/-- Alignment is not reached within 60 ms (Table 01-9). -/
def notAligned (n : StallId) (bring : Tab PowerUpFound) (s : State) : State :=
  if (getStall s n).cmd = some .powerUp then
    let op := opEnd .failed 0x2D05 (getStall s n).op
    bringOn n false bring (endStallOp n op (record 0x2D05 n.val 0 0 0 (stallOff n s)))
  else s

def execAlignmentTimeout (n : StallId) (bring : Tab PowerUpFound) (s : State) : Res := .next (notAligned n bring s)

/-- START: the riders that the image marks start at the next frame boundary; ports open (Tables 01-9, 04-2). -/
def startStall (n : StallId) (s : State) : State :=
  let s := setLife n .riding (modStall n (fun x => { x with fault := false }) s)
  let s := forEach (stallRiders n) (fun r s => if (riderBind s r).start then modRider r (fun x => { x with release := true }) s else s) s
  let s := forEach (stallSlices n) openPort s
  endStallOp n (opDone 0) s

def execStart (f : Func) (n : StallId) (s : State) : Res :=
  .next (stallCommand f n false (fun s => decide (lifeOf n s = .harnessed)) (startStall n) s)

/-- DRAIN: riders finish their shots; none starts a new one (Table 01-9, R59, R64). -/
def drainStall (n : StallId) (s : State) : State :=
  let s := enterResting n (modStall n (fun x =>
    { x with cmd := some .drain, op := opStart, draining := true, flushing := x.drainFlush, drainCode := 0 }) s)
  forEach (stallRiders n) drainRider s

def execDrain (f : Func) (n : StallId) (s : State) : Res :=
  .next (stallCommand f n false (fun s => decide (lifeOf n s = .riding)) (drainStall n) s)

/-- UNLOAD: the image is discarded (Table 01-9). -/
def unloadStall (n : StallId) (s : State) : State := endStallOp n (opDone 0) (toStabled n (discardImage n s))

def execUnload (f : Func) (n : StallId) (s : State) : Res :=
  .next (stallCommand f n false (fun s => decide (lifeOf n s = .harnessed)) (unloadStall n) s)

/-- POWER_DOWN (R55, Table 01-9): the DC paths ramp to their safe values first; the other domains go off when the last has settled. -/
def powerDownStall (n : StallId) (s : State) : State :=
  endPowerDown n (linesSafe n (modStall n (fun x => { x with cmd := some .powerDown, op := opStart }) s))

def execPowerDown (f : Func) (n : StallId) (s : State) : Res :=
  .next (stallCommand f n false (fun s => decide (lifeOf n s = .stabled) || decide (lifeOf n s = .harnessed)) (powerDownStall n) s)

/-- HALT (Table 01-9): it turns a drain in progress into a halt, whose operation goes on. -/
def haltCommand (n : StallId) (s : State) : State :=
  haltStall n (modStall n (fun x => { x with cmd := some .halt, op := if x.cmd.isSome then x.op else opStart, drainCode := 0 }) s)

def execHalt (f : Func) (n : StallId) (s : State) : Res :=
  .next (stallCommand f n true (fun s => decide (lifeOf n s = .riding) || decide (lifeOf n s = .resting)) (haltCommand n) s)

/-- STALL_FATAL_FAULT (R57): the code of its cause, then the fault. -/
def execStallFatalFault (n : StallId) (code : Code) (object : Word) (s : State) : Res :=
  .next (fatalStall n (if code = 0x3D06 ∨ lifeOf n s = .off then s else record code n.val 0 object 0 s))

/-- RIDERS_ALL_STOPPED (Table 01-9). -/
def execRidersAllStopped (n : StallId) (s : State) : Res :=
  .next (if lifeOf n s = .resting ∧ allStopped s n then toHarnessed n s else s)

/-- DRAIN_TIMEOUT (Table 01-9): riders stop at their next boundary; the stall is HARNESSED when the last has stopped. -/
def drainTimedOut (n : StallId) (s : State) : State :=
  if lifeOf n s = .resting ∧ (getStall s n).draining then
    let s := modStall n (fun x => { x with drainCode := if 0 < shotsNow s n then 0x0D04 else 0 }) s
    let s := forEach (stallRiders n) (fun r s => askStop r .other s) s
    if allStopped s n then toHarnessed n s else s
  else s

def execDrainTimeout (n : StallId) (s : State) : Res := .next (drainTimedOut n s)

/-- Loss of a stall's power domains (Table 01-9). -/
def losePower (n : StallId) (bring : Tab PowerUpFound) (s : State) : State :=
  if lifeOf n s = .off then s
  else
    let x := getStall s n
    let s := record 0x3D07 n.val 0 0 0 (modStall n (fun x => { x with fault := true }) (stallOff n s))
    let s := if x.cmd.isSome then endStallOp n (opEnd .failed 0x3D07 x.op) s else s
    if loading s n then s else bringOn n false bring s

def execStallPowerLoss (n : StallId) (domain : BitVec 8) (bring : Tab PowerUpFound) (s : State) : Res :=
  .next (losePower n bring (if lifeOf n s = .off then s else setDomains domain.toNat 1 false s))

/-! ## Spares (R39 to R53) -/

/-- What refuses a takeover (R51).  One of the very slice that the spare already replaces is refused like one of another slice (DESIGN CHOICE, log entry
147: R51 speaks of another slice). -/
def takeoverCode (n : StallId) (k : SliceKind) (target : BitVec 4) (s : State) : Option Code :=
  let x := getStall s n
  let sp := spareOf x k
  if !permitted s n k target then some (spareCode 0x1001 k)
  else if sp.bad ∨ carries sp ∨ sp.forced ∨ x.spareReq.isSome then some (spareCode 0x1002 k)
  else none

/-- What refuses a release: a forced takeover, or a spare command in progress (R51). -/
def releaseCode (n : StallId) (k : SliceKind) (s : State) : Option Code :=
  let x := getStall s n
  if (spareOf x k).forced ∨ x.spareReq.isSome then some (spareCode 0x1002 k) else none

/-- A spare command, refused as R702 says or started (R50). -/
def spareCommand (f : Func) (n : StallId) (code : State → Option Code) (eff : State → State) (s : State) : State :=
  hostWrite f (.ctl n .spareCmd) (fun s =>
    match code s with
    | some c => refuseReg f (.ctl n .spareCmd) c (modStall n (fun x => { x with spareOp := opRefuse c x.spareOp }) s)
    | none => eff s) s

/-- The end of a spare operation (R705). -/
def endSpareOp (n : StallId) (op : OpStatus) (s : State) : State :=
  raise (stallSource n) (modStall n (fun x => { x with spareReq := none, spareOp := op }) s)

/-- A requested takeover waits for silence; while the Farrier uses A4, first for the end of its calibration (R42, R52), and then for A4's release. -/
def requestTakeover (f : Func) (n : StallId) (k : SliceKind) (target : BitVec 4) (s : State) : State :=
  let cal := (getFarrier s n).cal
  let used := decide ((spareOf (getStall s n) k).use = .farrier)
  let s := modStall n (fun x =>
    { x with
      spareReq := some { kind := k, target := some target, func := f, at_ := s.clock.now, waitsFarrier := used && cal.running && readoutKind cal.kind }
      spareOp := opStart }) s
  if used then s else modSpare n k (fun x => { x with use := .switching, target }) s

def execSpareTakeover (f : Func) (n : StallId) (kind : SliceKind) (target : BitVec 4) (s : State) : Res :=
  .next (spareCommand f n (takeoverCode n kind target) (requestTakeover f n kind target) s)

/-- A requested release (R42): of a spare that replaces nothing it ends at once. -/
def requestRelease (f : Func) (n : StallId) (k : SliceKind) (s : State) : State :=
  if (spareOf (getStall s n) k).use = .replacing then
    modSpare n k (fun x => { x with use := .switching, leaving := true })
      (modStall n (fun x => { x with spareReq := some { kind := k, target := none, func := f, at_ := s.clock.now }, spareOp := opStart }) s)
  else endSpareOp n (opDone 0) s

def execSpareRelease (f : Func) (n : StallId) (kind : SliceKind) (s : State) : Res :=
  .next (spareCommand f n (releaseCode n kind) (requestRelease f n kind) s)

/-- The slice that a spare's target names. -/
def targetOfSpare (n : StallId) (k : SliceKind) (x : Spare) : Option SliceId := (fin? 9 x.target.toNat).map fun i => ⟨n, k, i⟩

/-- The trims of a drive or probe slice's voices change with their lanes (R40, R176). -/
def restage (i : SliceId) (s : State) : State := stageTrims (boundVoices s i) s

/-- The silence condition of a slice (R42): for an acquisition slice no window is open and no capture armed on it. -/
def sliceSilent (s : State) (i : SliceId) : Bool :=
  match i.kind with
  | .acq =>
    match fin? 5 i.idx.val with
    | some k =>
      !((boundChans s i.stall k).any fun c => (getChan s c).win.isSome) && !((unitsOn s i.stall k).any fun u => (getUnit s u).armed)
    | none => true
  | _ => voicesSilent s i

/-- SPARE_SWITCH (R42): the frame boundary that meets the silence condition. -/
def spareSwitch (n : StallId) (k : SliceKind) (s : State) : State :=
  match (getStall s n).spareReq with
  | some r =>
    if r.kind = k ∧ !r.waitsFarrier ∧ (spareOf (getStall s n) k).use = .switching then
      match targetOfSpare n k (spareOf (getStall s n) k) with
      | some t =>
        if sliceSilent s t then
          let taking := r.target.isSome
          let s := modSpare n k (fun x =>
            if taking then { x with use := .replacing, served := x.target } else { x with use := .idle, target := 0xF, leaving := false }) s
          endSpareOp n (opDone 0) (restage t s)
        else s
      | none => s
    else s
  | none => s

def execSpareSwitch (n : StallId) (kind : SliceKind) (s : State) : Res := .next (spareSwitch n kind s)

/-- SPARE_SILENCE_TIMEOUT (R43): the spare and the slice stay as they were.  R43 and Table 01-14 speak of a takeover; that a release without silence ends
the same way, the spare still replacing, is the model's choice (DESIGN CHOICE, log entry 148). -/
def spareTimeout (n : StallId) (k : SliceKind) (s : State) : State :=
  match (getStall s n).spareReq with
  | some r =>
    if r.kind = k ∧ !r.waitsFarrier then
      let code := spareCode 0x2003 k
      let s := modSpare n k (fun x =>
        if x.use = .farrier then x else if r.target.isSome then { x with use := .idle, target := 0xF } else { x with use := .replacing, leaving := false }) s
      endSpareOp n (opEnd .failed code (getStall s n).spareOp) (record code n.val 0 0 0 s)
    else s
  | none => s

def execSpareSilenceTimeout (n : StallId) (kind : SliceKind) (s : State) : Res := .next (spareTimeout n kind s)

def execSliceConverterFault (slice : SliceId) (s : State) : Res := .next (converterFault slice s)

/-- The outputs of a stall play on: RIDING, or RESTING without a halt (Table 01-8). -/
def playsOn (n : StallId) (s : State) : Bool := voiceServed s ⟨n, false, 0⟩ && !(getStall s n).haltPending

/-- FORCED_TAKEOVER_COMPLETE (R44, R196): the spare carries the slice, its port opens, and the shots since the fault are marked. -/
def forcedComplete (n : StallId) (k : SliceKind) (s : State) : State :=
  let sp := spareOf (getStall s n) k
  if sp.forced ∧ sp.use = .switching then
    let s := modSpare n k (fun x => { x with use := .replacing, served := x.target }) s
    match targetOfSpare n k sp with
    | some t =>
      let s := restage t (markSliceShots t s)
      if k ≠ .acq ∧ playsOn n s then openPort t s else s
    | none => s
  else s

def execForcedTakeoverComplete (n : StallId) (kind : SliceKind) (s : State) : Res := .next (forcedComplete n kind s)

/-- SWITCH_READBACK_MISMATCH (Table 04-2): found on a TERMINATED port of a slice that has one, it is treated as a converter fault of the slice. -/
def readbackMismatch (i : SliceId) (s : State) : State :=
  if i.kind = .acq ∨ !sliceExists i ∨ lifeOf i.stall s = .off ∨ (getSlice s i).port ≠ .terminated then s
  else converterFault i (record (if i.kind = .drive then 0x3125 else 0x3135) i.stall.val (sliceOwner s i) 0 0 s)

def execSwitchReadbackMismatch (slice : SliceId) (s : State) : Res := .next (readbackMismatch slice s)

end Sys2Proof.Machine
end

