-- ==== Sys2Proof/Machine/Farrier.lean ====
section
/-!
DEFINITION. Chapter 12: calibrations of a stall's Farrier from START to the stud book, and RESTORE.
-/

namespace Sys2Proof.Machine

open Sys2Proof

/-- The register of Farrier commands. -/
def faCmd (n : StallId) : Reg := .farrier n .cmd

/-- A Farrier command: refused with FA_OP_STATUS as R702 says, or carried out. -/
def farrierCommand (f : Func) (n : StallId) (code : State → Option Code) (eff : State → State) (s : State) : State :=
  hostWrite f (faCmd n) (fun s =>
    match code s with
    | some c => refuseReg f (faCmd n) c (modFarrier n (fun x => { x with op := opRefuse c x.op }) s)
    | none => eff s) s

/-! ## Start (R496, R514, R515) -/

/-- Quality of the values in force on a target at the start (FA_QUALITY.prev): of several lanes, the first. -/
def qualityNow (s : State) (n : StallId) (k : CalKind) (t : BitVec 8) : BitVec 16 :=
  let tr := getTrims s n
  match k, targetOf t with
  | .adcIl, .acq a => (tabGet {} tr.slices a.val).quality
  | .planes, .chan c => (tabGet {} tr.chans c.val).sep
  | .marker, .marker m => (tabGet {} tr.markers m.val).quality
  | k, tt =>
    match targetSlice n tt with
    | some i =>
      match k with
      | .dac => (tabGet {} tr.slices (trimKey i)).quality
      | .iq => (tabGet {} tr.iq (sliceLanes i).1).quality
      | .skew => (tabGet {} tr.skew (sliceLanes i).1).quality
      | _ => 0
    | none => 0

/-- A readout kind on A0 to A3 needs A4 to carry the slice, and ADC_IL on A4 waits while A4 still stands for a slice whose run has ended (R496). -/
def needsSpare (s : State) (n : StallId) (k : CalKind) (t : BitVec 8) : Bool :=
  match calSlice s n k t with
  | some a => decide (a.val < 4) || decide ((getStall s n).spareAcq.use = .farrier)
  | none => false

/-- A calibration starts: kinds that need no switch of the spare observe at once; ADC_IL on A4 takes A4 beside the slice served last. -/
def startCal (n : StallId) (auto : Bool) (f : Func) (k : CalKind) (t : BitVec 8) (s : State) : State :=
  let waits := needsSpare s n k t
  let s := modFarrier n (fun x =>
    { x with
      op := { opStart with progress := if waits then 0 else 100 }, prev := qualityNow s n k t, now := 0
      cal := { running := true, ran := true, auto, func := f, kind := k, target := t, phase := if waits then 1 else 2, phaseAt := s.clock.now
               returning := x.cal.returning } }) s
  if readoutKind k ∧ !waits then modSpare n .acq (fun x => { x with use := .farrier, target := x.served }) s else s

/-- What refuses a host START (R515). -/
def farrierStartCode (f : Func) (n : StallId) (k : CalKind) (t : BitVec 8) (s : State) : Option Code :=
  match calCode s n f.owner k t with
  | some c => some c
  | none =>
    let c := (getFarrier s n).cal
    if c.running ∧ (!c.auto ∨ 4 ≤ c.phase) then some 0x1901 else none

/-- A host START preempts an automatic calibration in phases 1 to 3. -/
def preempt (n : StallId) (s : State) : State :=
  if (getFarrier s n).cal.running then
    modFarrier n (fun x => { x with preempted := satInc x.preempted }) (endCal n .aborted 0x0903 s)
  else s

def execFarrierStart (f : Func) (n : StallId) (kind : CalKind) (target : BitVec 8) (s : State) : Res :=
  .next (farrierCommand f n (farrierStartCode f n kind target) (fun s => startCal n false f kind target (preempt n s)) s)

/-- The Farrier runs in HARNESSED, RIDING and RESTING (R500). -/
def farrierRuns (s : State) (n : StallId) : Bool :=
  match (getStall s n).life with
  | .harnessed => true
  | .riding => true
  | .resting => true
  | _ => false

/-- Fine steps in 1 s. -/
def fineSecond : Nat := 384000000000

/-- The targets of a kind, ascending (FA_CMD.target). -/
def kindTargets (k : CalKind) : List (BitVec 8) :=
  let span (lo n : Nat) : List (BitVec 8) := (List.range n).map fun i => BitVec.ofNat 8 (lo + i)
  match k with
  | .adcIl => span 0x20 5
  | .marker => span 0x80 4
  | .planes => span 0x40 64
  | _ => span 0 9 ++ span 0x10 5

/-- An automatic run is due (R514): its kind runs automatically, nothing refuses it, and its period has passed since the target's last run ended.  A
target that has had no run is due (DESIGN CHOICE, log entry 104: R514 counts from a last run). -/
def autoDue (s : State) (n : StallId) (k : CalKind) (t : BitVec 8) : Bool :=
  let p := (imageOf s n).farrier
  bit p.autoEn (kindNum k - 1) &&
    ((tabFind (runKey k t) (getFarrier s n).lastEnd).all fun e => decide (e + tabGet 0 p.periods (kindNum k) * fineSecond ≤ s.clock.now)) &&
    (calCode s n 0 k t).isNone

/-- The automatic run whose turn it is (R514): kinds in ascending order, and of a kind the targets in ascending order. -/
def autoNext (s : State) (n : StallId) : Option (CalKind × BitVec 8) :=
  ([CalKind.adcIl, .dac, .iq, .skew, .marker, .planes].flatMap fun k => (kindTargets k).map fun t => (k, t)).find? fun x => autoDue s n x.1 x.2

/-- AUTOMATIC_CALIBRATION_START (R514). -/
def autoStart (n : StallId) (k : CalKind) (t : BitVec 8) (s : State) : State :=
  if farrierRuns s n ∧ !(getFarrier s n).cal.running ∧ autoNext s n = some (k, t) then startCal n true 0 k t s else s

def execAutomaticCalibrationStart (n : StallId) (kind : CalKind) (target : BitVec 8) (s : State) : Res := .next (autoStart n kind target s)

/-- FARRIER_SPARE_SWITCH (R47, R496, R511): at silence, a slice returns from an ended calibration, or A4 takes over the slice under calibration. -/
def farrierSwitch (n : StallId) (s : State) : State :=
  let fa := getFarrier s n
  let sp := (getStall s n).spareAcq
  let silent (a : Fin 9) : Bool := sliceSilent s ⟨n, .acq, a⟩
  if fa.cal.returning then
    match fin? 9 sp.target.toNat with
    | some a => if silent a then freeA4 n (modFarrier n (fun x => { x with cal := { x.cal with returning := false } }) s) else s
    | none => freeA4 n (modFarrier n (fun x => { x with cal := { x.cal with returning := false } }) s)
  else if fa.cal.running ∧ fa.cal.phase = 1 ∧ sp.use = .idle ∧ !sp.bad then
    match calSlice s n fa.cal.kind fa.cal.target with
    | some a =>
      if a.val = 4 ∨ silent (a.castLE (by omega)) then
        let s := modSpare n .acq (fun x =>
          if a.val = 4 then { x with use := .farrier, target := x.served }
          else { x with use := .farrier, target := BitVec.ofNat 4 a.val, served := BitVec.ofNat 4 a.val, live := true }) s
        modFarrier n (fun x => { x with op := { x.op with progress := 100 }, cal := { x.cal with phase := 2, phaseAt := s.clock.now } }) s
      else s
    | none => s
  else s

def execFarrierSpareSwitch (n : StallId) (s : State) : Res := .next (farrierSwitch n s)

/-! ## Fit (R501 to R508) -/

/-- A calibration that has passed its limits waits for its quiet boundary (Table 12-4). -/
def toActivate (n : StallId) (v : CalValues) (quality : BitVec 16) (s : State) : State :=
  modFarrier n (fun x =>
    { x with
      now := quality, op := { x.op with progress := 900 }
      cal := { x.cal with phase := 4, phaseAt := s.clock.now, values := some v, quality } }) s

/-- The fit of phase 3 fails. -/
def fitFails (n : StallId) (code : Code) (quality : BitVec 16) (s : State) : State :=
  endCal n .failed code (modFarrier n (fun x => { x with now := quality, op := { x.op with progress := 800 }, cal := { x.cal with phase := 3 } }) s)

/-- The windows of a calibration, oldest first, in the clusters named for them, one for each state, with their centroids (R501). -/
def clustersOf (ctr : Nat) (c : Calib) (states : Nat) (clusters : List Nat) : List (List (Int × Int) × Centroid) :=
  (List.range states).map fun k =>
    let ws := ((c.windows.reverse.zip clusters).filter fun x => x.2 = k).map (·.1)
    (ws, meanOf (ctr + k) ws)

/-- OBSERVATION_COMPLETE of PLANES: clusters are labelled, centroids and deviations computed, rot is aligned, planes fitted, limits checked; the shift of
a centroid is judged before the alignment turns it, as its reference was taken at the rot in force (DEDUCED, log entry 165). -/
def fitPlanes (n : StallId) (c : ChanId) (clusters : List Nat) (s : State) : State :=
  let b := chanBind s c
  let refs := refCentroids s c
  let l := labelled refs (clustersOf s.freeCtr (getFarrier s n).cal b.states.toNat clusters)
  let found := withSigmas l
  let (rot, cents) := alignRot b.alignRot (getChan s c).planes.rot found
  let (set, sep) := fitSet s.freeCtr rot cents
  let q := sepField s.freeCtr sep
  let s' := drawn 8 s
  let fa := getFarrier s n
  if clusters.any fun k => decide (b.states.toNat ≤ k) then fitFails n 0x2902 q s'
  else
    match planesCode fa (l.map (·.1.length)) found refs sep with
    | some code => fitFails n code q s'
    | none => toActivate n (.planes set cents q) q s'

/-- OBSERVATION_COMPLETE of kinds 1 to 5. -/
def fitTrims (n : StallId) (figure : BitVec 16) (inRange : Bool) (vals : Tab (BitVec 32)) (s : State) : State :=
  let fa := getFarrier s n
  match trimsCode fa (getTrims s n) fa.cal.kind figure inRange vals with
  | some code => fitFails n code figure s
  | none => toActivate n (.trims vals) figure s

/-- OBSERVATION_COMPLETE (R506, R512). -/
def observed (n : StallId) (o : Observation) (s : State) : State :=
  let c := (getFarrier s n).cal
  if c.running ∧ c.phase = 2 ∧ observedEnough s n c o then
    match o, targetOf c.target with
    | .planes clusters, .chan k => fitPlanes n ⟨n, k⟩ clusters s
    | .planes _, _ => s
    | .trims figure inRange vals, _ => fitTrims n figure inRange vals s
  else s

def execObservationComplete (n : StallId) (obs : Observation) (s : State) : Res := .next (observed n obs s)

/-- OBSERVATION_TIMEOUT (R513). -/
def execObservationTimeout (n : StallId) (s : State) : Res :=
  .next (if (getFarrier s n).cal.running ∧ (getFarrier s n).cal.phase = 2 then endCal n .failed 0x2902 s else s)

/-! ## Activation and record (R509 to R511, R518, R519) -/

/-- New trims of lanes. -/
def setLanes (q : BitVec 16) (vals : Tab (BitVec 32)) (t : Tab Trim) : Tab Trim :=
  vals.foldl (fun acc v => tabSet acc v.1 { accepted := true, value := v.2, quality := q }) t

/-- Lanes of a slice that carry no voice. -/
def emptyLanes (s : State) (i : SliceId) : List Nat :=
  let used := (laneVoices s i).filterMap (voiceLane s)
  ((List.range (sliceLanes i).2).map (· + (sliceLanes i).1)).filter fun k => !used.contains k

/-- Accepted trims go into force, or wait for the instants of Table 12-3: DAC cores for silence, IQ lanes for their voices' segment boundaries (a lane
without a voice for nothing), SKEW for R178, a marker output for its voice. -/
def activateTrims (n : StallId) (c : Calib) (vals : Tab (BitVec 32)) (s : State) : State :=
  let whole : Trim := { accepted := true, parts := vals, quality := c.quality }
  match c.kind, targetOf c.target with
  | .adcIl, .acq a => modTrims n (fun t => { t with slices := tabSet t.slices a.val whole }) s
  | .marker, .marker m =>
    modTrims n (fun t => { t with pendMarkers := tabSet t.pendMarkers m.val { accepted := true, value := tabGet 0 vals 0, quality := c.quality } }) s
  | k, tt =>
    match targetSlice n tt with
    | some i =>
      match k with
      | .dac => modTrims n (fun t => { t with pendSlices := tabSet t.pendSlices (trimKey i) whole }) s
      | .iq => modTrims n (fun t => takeIq (emptyLanes s i) { t with pendIq := setLanes c.quality vals t.pendIq }) s
      | .skew => let s := modTrims n (fun t => { t with skew := setLanes c.quality vals t.skew }) s; stageTrims (laneVoices s i) s
      | _ => s
    | none => s

/-- The stud-book entry of a channel's accepted set (Table 12-5). -/
def chanEntry (s : State) (c : ChanId) (set : PlaneSet) (cents : List Centroid) (sep : BitVec 16) : StudChan :=
  { accepted := true, kernelCrc := kernelCrc s c, shift := (getChan s c).ints.shift, states := (chanBind s c).states, planes := set, cents, sep }

/-- An accepted plane set is committed (R510). -/
def activatePlanes (n : StallId) (k : Fin 64) (set : PlaneSet) (cents : List Centroid) (sep : BitVec 16) (s : State) : State :=
  let e := chanEntry s ⟨n, k⟩ set cents sep
  commitPlanes ⟨n, k⟩ set (modTrims n (fun t => { t with chans := tabSet t.chans k.val e }) s)

/-- Accepted values go into force. -/
def activate (n : StallId) (c : Calib) (s : State) : State :=
  match c.values with
  | some (.trims vals) => activateTrims n c vals s
  | some (.planes set cents sep) => match targetOf c.target with | .chan k => activatePlanes n k set cents sep s | _ => s
  | none => s

/-- Phase 5 (R518, R519, R640): the stud book is written, unless the stall runs on factory trims, where it goes stale. -/
def recordRun (n : StallId) (bad : Option Bool) (s : State) : State :=
  let s := modFarrier n (fun x => { x with accepted := satInc x.accepted }) s
  if (getStall s n).factoryHold then stopCal n (opDone 0) (modFarrier n (fun x => { x with studStale := true }) s)
  else
    let s := recordStud n bad s
    if bad.isNone then stopCal n (opDone 0) s
    else
      let s := modFarrier n (fun x => { x with studStale := true, rejected := satInc x.rejected, op := { x.op with progress := 950 } }) s
      record 0x2905 n.val 0 0 0 (stopCal n (opEnd .failed 0x2905 (getFarrier s n).op) s)

/-- A frame boundary is quiet (R509): the Farrier runs, and no rider of the stall is in a shot in which it has posted to, or opened a window on, an object
that the calibration affects; in HARNESSED every one is. -/
def quietFrame (s : State) (n : StallId) (t : BitVec 8) : Bool :=
  let vs := (affectedVoices s n t).map voiceKey
  let cs := (affectedChans s n t).map chanKey
  farrierRuns s n && ((stallRiders n).all fun r =>
    let x := (getRider s r).shot
    !(x.active && (x.voices.any vs.contains || x.chans.any cs.contains)))

/-- QUIET_BOUNDARY (R509, Table 12-3): a readout kind on A0 to A3 also needs silence; the slice returns and A4 is released. -/
def quietAt (n : StallId) (bad : Option Bool) (s : State) : State :=
  let c := (getFarrier s n).cal
  if c.running ∧ c.phase = 4 ∧ quietFrame s n c.target then
    let ready := match calSlice s n c.kind c.target with | some a => decide (a.val = 4) || sliceSilent s ⟨n, .acq, a.castLE (by omega)⟩ | none => true
    if ready then (let s := recordRun n bad (activate n c s); if readoutKind c.kind then freeA4 n s else s) else s
  else s

def execQuietBoundary (n : StallId) (badCopy : Option Bool) (s : State) : Res := .next (quietAt n badCopy s)

/-- ACTIVATION_TIMEOUT (R511). -/
def execActivationTimeout (n : StallId) (s : State) : Res :=
  .next (if (getFarrier s n).cal.running ∧ (getFarrier s n).cal.phase = 4 then endCal n .failed 0x2903 s else s)

/-! ## ABORT and RESTORE (R516, R521) -/

/-- What refuses an ABORT: an owner that could not have started the run; phases 4 and 5. -/
def abortCode (f : Func) (n : StallId) (s : State) : Option Code :=
  let c := (getFarrier s n).cal
  if c.running ∧ mayCalibrate s n f.owner c.target = false then some 0x1902
  else if c.running ∧ 4 ≤ c.phase then some 0x1904
  else none

def execFarrierAbort (f : Func) (n : StallId) (s : State) : Res :=
  .next (farrierCommand f n (abortCode f n)
    (fun s => if (getFarrier s n).cal.running then endCal n .aborted 0x0901 s else s) s)

/-- The stud-book entry that a RESTORE may commit (R521). -/
def restoreEntry (s : State) (n : StallId) (t : BitVec 8) : Option (Fin 64 × StudChan) :=
  match targetOf t with
  | .chan k =>
    let ch := getChan s ⟨n, k⟩
    ((studCopy (getStud s n)).bind fun c => tabFind k.val c.chans).bind fun e =>
      if e.accepted ∧ e.kernelCrc = kernelCrc s ⟨n, k⟩ ∧ e.shift = ch.ints.shift then some (k, e) else none
  | _ => none

/-- What refuses a RESTORE. -/
def restoreCode (f : Func) (n : StallId) (t : BitVec 8) (s : State) : Option Code :=
  if !kindFits s n .planes t || !mayCalibrate s n f.owner t then some 0x1902
  else if (getFarrier s n).cal.running then some 0x1901
  else if (restoreEntry s n t).isNone then some 0x1905
  else none

/-- RESTORE (R521): the entry's plane set is committed. -/
def restorePlanes (n : StallId) (t : BitVec 8) (s : State) : State :=
  match restoreEntry s n t with
  | some (k, e) =>
    let s := commitPlanes ⟨n, k⟩ e.planes (modTrims n (fun x => { x with chans := tabSet x.chans k.val e }) s)
    raise (farrierSource n) (modFarrier n (fun x => { x with op := opDone 0 }) s)
  | none => s

def execRestore (f : Func) (n : StallId) (target : BitVec 8) (s : State) : Res :=
  .next (farrierCommand f n (restoreCode f n target) (restorePlanes n target) s)

end Sys2Proof.Machine
end

