-- ==== Sys2Proof/Machine/Flux.lean ====
section
/-!
DEFINITION. Chapter 10: the commands of flux lines and groups, the DC tick and the events of the fast path.
-/

namespace Sys2Proof.Machine

open Sys2Proof

/-- The DC point of a register value in the layout of FL_DC (Table 10-8). -/
def dcPoint (val : Word) : DcPoint := { span := bits val 20 2, code := bits val 0 18 }

def execFlDcWrite (f : Func) (l : LineId) (val : Word) (grant : Grant) (s : State) : Res :=
  .next (hostElement f (.line l .dc) grant (countLine l) (fun s => dcCode s l (dcPoint val).span) (grantDc l (dcPoint val)) s)

/-- DC_TICK (R422): a POWER_DOWN whose last DC path has settled ends (R55). -/
def execDcTick (s : State) : Res := .next (forEach (List.finRange 8) endPowerDown (tickLines s))

/-- SPAN_SWITCH_END (Table 10-2). -/
def execSpanSwitchEnd (l : LineId) (s : State) : Res := .next (modLine l switchDone s)

/-- SPAN_READBACK_CHECK (R431): a readback that differs from the span commanded is a group fault of cause 3.  A fault of the DC reference, the other
source of that cause (Table 10-5), has no row of its own and comes with this one, in any state of the line (DESIGN CHOICE, log entry 183). -/
def spanReadback (l : LineId) (found : SpanCheck) (s : State) : State :=
  match found, (getLine s l).dc, (getLine s l).entering with
  | .reference, _, _ => groupFault (lineGroup l) 3 s
  | .span x, .switching, some sp => if x = sp then s else groupFault (lineGroup l) 3 s
  | _, _, _ => s

def execSpanReadbackCheck (l : LineId) (found : SpanCheck) (s : State) : Res := .next (spanReadback l found s)

/-- A line leaves halter when FL_SAFE and then FL_CURB have been written (R445); its goal drives it again. -/
def leaveHalter (l : LineId) (s : State) : State :=
  let x := getLine s l
  if x.persistBad ∧ x.safeWritten then
    let keep := restsSafe s l.stall
    modLine l (fun x =>
      let dc : DcState := if x.dc = .halter then .steady else x.dc
      let y : Line := { x with persistBad := false, safeWritten := false, dc := dc }
      setGoal (if keep then x.safe else x.goal) y) s
  else s

/-- FL_CURB_WRITE (R426): both fields from 1 on; it is persisted. -/
def writeCurb (l : LineId) (val : Word) (s : State) : State :=
  leaveHalter l (persistLine l (modLine l (fun x => { x with curb := { step := bits val 0 16, period := bits val 16 16 } }) s))

def execFlCurbWrite (f : Func) (l : LineId) (val : Word) (s : State) : Res :=
  .next (hostCheck f (.line l .curb)
    (fun _ => if bits val 0 16 = (0 : BitVec 16) ∨ bits val 16 16 = (0 : BitVec 16) then some 0x1501 else none) (writeCurb l val) s)

/-- FL_SAFE_WRITE (R444 to R446): persisted; in OFF and STABLED, and in a POWER_DOWN, the goal is the safe value. -/
def writeSafe (l : LineId) (val : Word) (s : State) : State :=
  let s := persistLine l (modLine l (fun x => { x with safe := dcPoint val, safeWritten := x.persistBad }) s)
  if restsSafe s l.stall then goSafe l s else s

def execFlSafeWrite (f : Func) (l : LineId) (val : Word) (s : State) : Res :=
  .next (hostWrite f (.line l .safe) (writeSafe l val) s)

/-- What refuses a write that leaves a generator mode set (R435, R445). -/
def genCode (s : State) (l : LineId) (mode : BitVec 2) : Option Code :=
  let x := getLine s l
  if mode = 0 then none
  else if (getGroup s (lineGroup l)).faulted ∨ x.persistBad then some 0x1502
  else if codeVal x.spanNow x.genHi < codeVal x.spanNow x.genLo ∨ x.genStep = 0 ∨ x.curb.step < x.genStep ∨ x.genHold = 0 then some 0x1501
  else none

/-- FL_CTL_WRITE (R433 to R436, R442): fast_en 0 discards the posts and returns the fast path to 0. -/
def writeFlCtl (l : LineId) (val : Word) (s : State) : State :=
  let mode : BitVec 2 := bits val 16 2
  let x := getLine s l
  let s := if mode = x.genMode then s else modLine l (fun x => if mode = 0 then stopGen x else startGen mode x) s
  let was := (getFast s l).en
  let s := modFast l (fun x => { x with en := bit val 8 }) s
  if was ∧ !bit val 8 then fastReturn l s else s

def execFlCtlWrite (f : Func) (l : LineId) (val : Word) (s : State) : Res :=
  .next (hostCheck f (.line l .ctl) (fun s => genCode s l (bits val 16 2)) (writeFlCtl l val) s)

/-- The register of a generator write. -/
def genReg : GenReg → FlReg
  | .lo => .genLo
  | .hi => .genHi
  | .cfg => .genCfg

/-- What refuses a generator write (R435, R448): a faulted group for FL_GEN_CFG, and a mode that is not 0. -/
def genWriteCode (s : State) (l : LineId) (reg : GenReg) : Option Code :=
  if reg = .cfg ∧ (getGroup s (lineGroup l)).faulted then some 0x1502
  else if (getLine s l).genMode ≠ 0 then some 0x1503
  else none

/-- The value that a generator write sets. -/
def setGen (reg : GenReg) (val : Word) (x : Line) : Line :=
  match reg with
  | .lo => { x with genLo := bits val 0 18 }
  | .hi => { x with genHi := bits val 0 18 }
  | .cfg => { x with genHold := bits val 16 16, genStep := bits val 0 16 }

def execGeneratorConfigWrite (f : Func) (l : LineId) (reg : GenReg) (val : Word) (s : State) : Res :=
  .next (hostCheck f (.line l (genReg reg)) (fun s => genWriteCode s l reg) (modLine l (setGen reg val)) s)

/-- FL_FAST_SET (R439): for the first frame boundary at least 8 frames after the grant; with four posts pending it waits in its handshake. -/
def fastSet (f : Func) (l : LineId) (val : Word) (s : State) : State :=
  grantWaiting l (modFast l (fun x => { x with waiting := x.waiting ++ [(f, bits val 0 16)] }) s)

def execFlFastSet (f : Func) (l : LineId) (val : Word) (grant : Grant) (s : State) : Res :=
  .next (hostElement f (.line l .fastSet) grant (countLine l) (fun s => fastCode s l false) (fastSet f l val) s)

/-- FAST_LEVEL_CHANGE (R437, R442): the frame boundary of the first posted level; it plays only in the playing condition. -/
def fastChange (l : LineId) (s : State) : State :=
  match (getFast s l).posts with
  | [] => s
  | p :: rest =>
    let s := modFast l (fun x => { x with posts := rest }) s
    let s := if fastPlays s l then changeLevel l p.level p.frame s else s
    grantWaiting l s

def execFastLevelChange (l : LineId) (s : State) : Res := .next (fastChange l s)

/-- EDGE_TABLE_WRITE (R453). -/
def edgeCode (s : State) (n : StallId) : Option Code :=
  match (getStall s n).life with
  | .riding => some 0x1504
  | .resting => some 0x1504
  | _ => none

def execEdgeTableWrite (f : Func) (l : LineId) (t : Fin 32) (val : Word) (s : State) : Res :=
  .next (hostCheck f (.edge l t) (fun s => edgeCode s l.stall)
    (modFast l fun x => { x with edge := tabSet x.edge t.val (bits val 0 16) }) s)

/-- FAST_DAC_FAULT: a group fault of cause 2 (R447). -/
def execFastDacFault (g : GroupId) (s : State) : Res := .next (groupFault g 2 s)

/-- A group's ramps have ended: every line of it is steady, or holds in halter (R450). -/
def rampsEnded (s : State) (g : GroupId) : Bool :=
  (groupLines g).all fun l => match (getLine s l).dc with | .steady => true | .halter => true | _ => false

/-- The cause of a group fault persists (R450): its comparator is still latched, or its converter or reference still reports a fault, as does a fast
domain whose fault bit stands. -/
def causePersists (s : State) (g : GroupId) (reports : Bool) : Bool :=
  match (getGroup s g).cause with
  | 1 => (getWatch s (.stall g.stall ⟨g.num.val, by omega⟩)).tripped
  | 2 => reports || bit s.power.domFault (30 * g.stall.val + 21 + g.num.val)
  | _ => reports

/-- CLEAR (R450): accepted from owner 0, or from the owner of every line of the group. -/
def clearCode (f : Func) (g : GroupId) (reports : Bool) (s : State) : Option Code :=
  if f.val ≠ 0 ∧ !((groupLines g).all fun l => decide ((lineBind s l).owner = f.owner)) then some 0x1F01
  else if (getGroup s g).faulted ∧ (!rampsEnded s g ∨ causePersists s g reports) then some 0x1506
  else none

def execClear (f : Func) (g : GroupId) (reports : Bool) (s : State) : Res :=
  .next (hostCheck f (.group g true) (clearCode f g reports) (modGroup g fun x => { x with faulted := false }) s)

end Sys2Proof.Machine
end

