-- ==== Sys2Proof/Machine/Voices.lean ====
section
/-!
DEFINITION. Chapter 4: host tuning of voices, the sum guard, attenuators and output switches.
-/

namespace Sys2Proof.Machine

open Sys2Proof

/-- FTW_LO_WRITE (R168): the low word is held. -/
def ftwLoWrite (f : Func) (v : VoiceId) (val : Word) (s : State) : State :=
  hostWrite f (.voice v .ftwLo) (modVoice v (fun x => { x with ftwLo := some val })) s

def execFtwLoWrite (f : Func) (v : VoiceId) (val : Word) (s : State) : Res := .next (ftwLoWrite f v val s)

/-- The code that refuses a frequency word of 2^47 or more (R161). -/
def ftwCode (v : VoiceId) (val : Word) : Option Code :=
  if bit val 15 then some (if v.probe then 0x1131 else 0x1121) else none

/-- The frequency word that a high word commits: the held low word, or the one in force (R168). -/
def commitFtw (v : VoiceId) (val : Word) (s : State) : State :=
  let x := getVoice s v
  let lo : Word := x.ftwLo.getD (bits x.tune.ftw 0 32)
  modVoice v (fun x => { x with ftwLo := none }) (setFtw v ((bits val 0 16) ++ lo) s)

def execFtwHiWrite (f : Func) (v : VoiceId) (val : Word) (grant : Grant) (s : State) : Res :=
  .next (hostElement f (.voice v .ftwHi) grant (countVoice v) (fun _ => ftwCode v val) (commitFtw v val) s)

/-- The register of a tuning write. -/
def tuneReg : TuneReg → VcReg
  | .ctl => .ctl
  | .phase => .phase
  | .frame => .frame
  | .scale => .scale

/-- The pending values that a tuning write sets (R167, R169, Table 04-12). -/
def setPending (r : TuneReg) (val : Word) (p : PendTuning) : PendTuning :=
  match r with
  | .ctl => { p with enable := some (bit val 0), mask := some (bits val 12 4) }
  | .phase => { p with vz := some (bits val 16 16), offset := some (bits val 0 16) }
  | .frame => { p with x := some (bit val 1), z := some (bit val 0) }
  | .scale => { p with scale := some (bits val 0 16) }

def execVoiceTuningWrite (f : Func) (v : VoiceId) (reg : TuneReg) (val : Word) (grant : Grant) (s : State) : Res :=
  .next (hostElement f (.voice v (tuneReg reg)) grant (countVoice v) (fun _ => none) (modVoice v fun x => { x with pend := setPending reg val x.pend }) s)

/-- TUNING_TAKES_EFFECT (R167): while the voice is not playing, pending values take effect at the next beat boundary. -/
def execTuningTakesEffect (v : VoiceId) (s : State) : Res := .next (if playing s v then s else tuneVoice v s)

/-- DELAY_WRITE (R178): the new delay waits. -/
def execDelayWrite (f : Func) (v : VoiceId) (val : Word) (grant : Grant) (s : State) : Res :=
  .next (hostElement f (.voice v .delay) grant (countVoice v) (fun _ => none) (modVoice v fun x => { x with pendDelay := some (bits val 0 9) }) s)

/-- DELAY_TAKES_EFFECT (R178): the voice has not been playing for a beat, and its user delay and trim change. -/
def delayTakes (v : VoiceId) (s : State) : State :=
  if playing s v ∨ !quietFor fineBeat (getVoice s v).playedTo s then s
  else modVoice v (fun x =>
    { x with delay := x.pendDelay.getD x.delay, pendDelay := none, trim := x.pendTrim.getD x.trim, pendTrim := none }) s

def execDelayTakesEffect (v : VoiceId) (s : State) : Res := .next (delayTakes v s)

/-- A drive or probe slice that Table 00-3 has. -/
def outSliceOk (i : SliceId) : Bool := sliceExists i && i.kind != .acq

/-- The meaning on a drive or probe slice; on one that does not exist nothing happens (log entry 5). -/
def onSlice (i : SliceId) (f : State → State) (s : State) : Res := .next (if outSliceOk i then f s else s)

/-- The number of an interrupt source of a slice's sum guard (Table 19-6). -/
def guardSource (i : SliceId) : Nat := i.stall.val * 256 + (match i.kind with | .drive => 0x02 | _ => 0x0B) + i.idx.val

/-- The register of a slice. -/
def sliceReg (i : SliceId) (r : SlReg) : Reg :=
  match i.kind with
  | .drive => .drive i.stall i.idx r
  | _ => .probe i.stall ⟨i.idx.val % 5, Nat.mod_lt _ (by omega)⟩ r

/-- A clip at an instant (R172 to R174), counted in the registers of the slice; the voices that play in its beat mark their shots. -/
def guardClip (i : SliceId) (t : Fine) (s : State) : State :=
  let x := getSlice s i
  let s := modSlice i (fun x => { x with clipped := satInc x.clipped }) s
  let s :=
    if x.guardHit then s
    else
      let s := modSlice i (fun x => { x with guardHit := true, guardTime := t }) s
      let s := record (match i.kind with | .drive => 0x3122 | _ => 0x3132) i.stall.val (sliceOwner s i) 0 0 s
      if x.guardIrq then raise (guardSource i) s else s
  if x.guardInvalid then forEach (boundVoices s i) (fun v s => if (beatAt s v t).isSome then markVoice v .guard s else s) s else s

/-- SUM_GUARD_CLIP (R171 to R174, R194): sample k of the beat in progress; a spare's clips count in the registers of the slice that it replaces. -/
def sumGuard (i : SliceId) (k : Fin 16) (s : State) : State :=
  match logical s i with
  | some j =>
    let n := beatNow s / 16 + k.val
    if clips s j n then guardClip j (n * 16) s else s
  | none => s

def execSumGuardClip (slice : SliceId) (sample : Fin 16) (s : State) : Res := onSlice slice (sumGuard slice sample) s

/-- GUARD_HIT_CLEAR (R172): the next clip is a first clip again; a spare's own register set takes no write (R194). -/
def execGuardHitClear (f : Func) (slice : SliceId) (s : State) : Res :=
  onSlice slice (hostWrite f (sliceReg slice .status) (if isSpare slice then id else modSlice slice fun x => { x with guardHit := false })) s

/-- SL_CTL_WRITE (R189, R190, R194): the spare's own registers take no write.  Every write gives a new atten that waits, one that repeats the setting in
force too (DESIGN CHOICE, log entry 186: R189 does not say). -/
def slCtl (i : SliceId) (val : Word) (s : State) : State :=
  if isSpare i then s
  else
    let s := modSlice i (fun x => { x with portEn := bit val 24, attenPend := some (bits val 16 5), scale := bits val 0 16 }) s
    if bit val 24 then (if (getStall s i.stall).life = .riding then openPort i s else s)
    else if (getSlice s i).port = .terminated then s else closePort i s

def execSlCtlWrite (f : Func) (slice : SliceId) (val : Word) (s : State) : Res :=
  onSlice slice (hostWrite f (sliceReg slice .ctl) (slCtl slice val)) s

/-- ATTEN_TAKES_EFFECT (R189): the port is TERMINATED, or the slice's sum has been zero for at least 2 frames. -/
def attenTakes (i : SliceId) (s : State) : State :=
  if (getSlice s i).port = .terminated ∨ voicesSilent s i then modSlice i (fun x => { x with atten := x.attenPend.getD x.atten, attenPend := none }) s
  else s

def execAttenTakesEffect (slice : SliceId) (s : State) : Res := onSlice slice (attenTakes slice) s

/-- PORT_OPEN_TIMER (Table 04-2): 25 frames after it entered OPENING the port is OPEN. -/
def portOpened (i : SliceId) (s : State) : State :=
  if (getSlice s i).port = .opening then modSlice i (fun x => { x with port := .open_, portAt := s.clock.now }) s else s

def execPortOpenTimer (slice : SliceId) (s : State) : Res := onSlice slice (portOpened slice) s

end Sys2Proof.Machine
end

