-- ==== Sys2Proof/Machine/Gaits.lean ====
section
/-!
DEFINITION. Chapter 2: gates that run empty or full, the latch point and the release of a Trot fork, pace monitors, Trot deadlines.
-/

namespace Sys2Proof.Machine

open Sys2Proof

/-! ## Gates (R76, R77) -/

/-- Beats played as zero (R76). -/
def countEmpty (n : StallId) (beats : Nat) (s : State) : State := modGait n (fun x => { x with dacEmpty := satAdd x.dacEmpty beats }) s

/-- The DAC of a slice plays zero for some beats from the present one on. -/
def zeroSlice (beats : Nat) (s : State) (x : Slice) : Slice :=
  { x with zeroFrom := if x.zeroTo < beatNow s then beatNow s else x.zeroFrom, zeroTo := max x.zeroTo (beatNow s + beats * fineBeat) }

/-- The fast DAC of a line plays zero for some beats from the present one on. -/
def zeroFast (beats : Nat) (s : State) (x : Fast) : Fast :=
  { x with zeroFrom := if x.zeroTo < beatNow s then beatNow s else x.zeroFrom, zeroTo := max x.zeroTo (beatNow s + beats * fineBeat) }

/-- A fast flux gate runs empty: every shot in progress whose rider has posted to a line of the group is marked. -/
def markFluxGate (g : GroupId) (s : State) : State :=
  forEach (stallRiders g.stall) (fun r s =>
    if (groupLines g).any fun l => (getRider s r).shot.lines.contains (lineKey l) then markRider r .gate s else s) s

/-- The gate of a converter runs empty: what it plays is zero, and the shots of the slice that it plays are marked (R76, R194). -/
def dacEmpty (i : SliceId) (beats : Nat) (s : State) : State :=
  let s := record 0x3120 i.stall.val (sliceOwner s ((logical s i).getD i)) 0 0 (countEmpty i.stall beats s)
  match logical s i with
  | some j => markSlice j .gate (modSlice j (zeroSlice beats s) s)
  | none => s

/-- DAC_GATE_UNDERRUN (R76): the gate of a drive or probe slice, or of a flux group. -/
def execDacGateUnderrun (gate : Gate) (beats : Nat) (s : State) : Res :=
  match gate with
  | .dac i => onSlice i (dacEmpty i beats) s
  | .flux g =>
    let s := record 0x3120 g.stall.val (groupOwn s g) 0 0 (countEmpty g.stall beats s)
    .next (markFluxGate g (forEach (groupLines g) (fun l s => modFast l (zeroFast beats s) s) s))

/-- The windows of a slice that contain a frame carry gate, and their shots are marked (R77, Table 06-3). -/
def markGateWindows (n : StallId) (k : Fin 5) (frame : Nat) (s : State) : State :=
  markFrame n k frame (fun w => { w with gate := true, dropped := frame :: w.dropped }) (some .gate) s

/-- ADC_GATE_FULL (R77): a frame is dropped; it enters sums and records as 0 (R267, R292). -/
def adcFull (n : StallId) (k : Fin 5) (frame : Nat) (s : State) : State :=
  let s := modGait n (fun x => { x with adcFull := satInc x.adcFull }) s
  let s := record 0x3320 n.val (acqOwner s n k) 0 0 s
  onAcq n k (fun k s =>
    markRecords n k (fun x =>
      flagRecord (frame * fineFrame) ((frame + 1) * fineFrame) (fun t r => { r with gate := earliest t r.gate }) { x with dropped := frame :: x.dropped })
      (markGateWindows n k frame s)) s

def execAdcGateFull (n : StallId) (slice : Fin 5) (frame : Nat) (s : State) : Res := .next (adcFull n slice frame s)

/-! ## Trot forks (R87 to R96, R232, R233, R400, R401) -/

/-- A Trot fork whose word completes without a token leaves a claim on its task input (R401). -/
def leaveClaim (k : Nat) (input : Nat) (s : State) : State :=
  match riderOfKey k with
  | some r => modRider r (modInput input fun i => { i with claim := true }) s
  | none => s

/-- The FORK word of an armed fork completes without a token: the claim stands before the word's sequencing, whose end of a shot clears it (R401). -/
def completeEmpty (fk : Fork) (v : VoiceId) (late settled : Bool) (s : State) : State :=
  match riderOfKey fk.rider with
  | some r => forkWithoutToken r v late settled (leaveClaim fk.rider fk.input s)
  | none => s

/-- A Trot fork is late (R92, R94): the default successor is chosen, the fault stands at the rider, and the flags settle. -/
def forkLate (v : VoiceId) (fk : Fork) (s : State) : State :=
  let s := modSeq v (fun q => { q with fork := some { fk with late := true, latched := true, chosen := some false } }) s
  let s := modGait v.stall (fun x => { x with late := satInc x.late }) s
  let s := match riderOfKey fk.rider with | some r => lateFault r s | none => s
  match fk.chosen with
  | none => completeEmpty fk v true true s
  | some _ => settleFork v fk false true s

/-- The alternate port of a voice is READY. -/
def altReady (q : Seq) : Bool := (q.alt.map (·.state)) == some .ready

/-- The spent fork of a voice whose latch point comes first, ahead of that of a fork armed since (R234, R400). -/
def spentDue (q : Seq) : Option Fork :=
  match q.spent with
  | [] => none
  | a :: rest =>
    let e := rest.foldl (fun x y => if y.release < x.release then y else x) a
    if q.fork.any fun fk => decide (fk.gait = .trot ∧ !fk.latched ∧ fk.release < e.release) then none else some e

/-- The latch point of a spent fork passes: its word completes, with the settlement that the fork has had (R400). -/
def endSpent (v : VoiceId) (fk : Fork) (s : State) : State :=
  completeEmpty fk v true true (modSeq v (fun q => { q with spent := q.spent.filter fun x => decide (x.rider ≠ fk.rider) }) s)

/-- TROT_LATCH_POINT: the fork is missed where its voice is in no HOLD, late where no token was consumed or the alternate it selects is
not READY, and otherwise on time. -/
def latchPoint (v : VoiceId) (s : State) : State :=
  let q := getSeq s v
  match spentDue q, q.fork with
  | some fk, _ => endSpent v fk s
  | none, some fk =>
    if fk.gait = .trot ∧ !fk.latched ∧ !fk.disarmed then
      if q.state ≠ .hold then
        let s := missFork v s
        if fk.chosen = none then completeEmpty fk v false false s else s
      else if fk.chosen = none ∨ (fk.chosen = some true ∧ !altReady q) then forkLate v fk s
      else modSeq v (fun q => { q with fork := some { fk with latched := true } }) s
    else s
  | none, none => s

def execTrotLatchPoint (v : VoiceId) (s : State) : Res := .next (latchPoint v s)

/-- TROT_RELEASE (R87, R91, R92): the successor starts at the release time, the anchor plus the deadline, with its sub-beat part; a voice that has left its HOLD since the latch point misses it. -/
def trotRelease (v : VoiceId) (s : State) : State :=
  let q := getSeq s v
  match q.fork with
  | some fk =>
    if fk.gait = .trot ∧ fk.latched ∧ !fk.missed ∧ !fk.disarmed then
      if q.state = .hold then endFork v fk (fk.chosen = some true) fk.release (modSeq v promote (holdSelection v s)) else missFork v s
    else s
  | none => s

def execTrotRelease (v : VoiceId) (s : State) : Res := .next (trotRelease v s)

/-! ## Pace (R106 to R110, R114, R115) -/

/-- The margin as now_pct and low_pct read it (R107). -/
def paceByte (margin : Int) : BitVec 8 := BitVec.ofNat 8 (min 254 margin.toNat)

/-- A margin counts as at or below a threshold (R107, R109). -/
def atOrBelow (margin : Int) (pct : BitVec 8) : Bool := decide (margin ≤ (pct.toNat : Int))

/-- The lowest of the monitors' latest margins, one of them that of the measurement (R107). -/
def lowestMargin (margins : Tab Int) (margin : Int) : Int := margins.foldl (fun x e => min x e.2) margin

/-- A measurement of monitor k enters a set of four (R106, R107). -/
def measurePace (k : Fin 4) (margin : Int) (p : Pace) : Pace :=
  let margins := tabSet p.margins k.val margin
  let lowest := lowestMargin margins margin
  let m := paceByte lowest
  { p with
    margins
    now := m
    low := if p.low = 0xFF ∨ m < p.low then m else p.low
    belowZero := p.belowZero || decide (lowest < 0)
    warn := p.warn || atOrBelow lowest p.warnPct
    crit := p.crit || atOrBelow lowest p.critPct }

/-- A lower margin during a shot (Table 02-6). -/
def lowerPace (m : Nat) (x : Option Nat) : Option Nat := some (match x with | some k => min k m | none => m)

/-- What the shots in progress gather from a measurement. -/
def shotPace (m : Nat) (spine : Bool) (x : Rider) : Rider :=
  if x.shot.active then
    { x with shot := if spine then { x.shot with spinePace := lowerPace m x.shot.spinePace } else { x.shot with pace := lowerPace m x.shot.pace } }
  else x

/-- The codes and vectors of a measurement: each bit records and raises when it sets (R109). -/
def paceCodes (was now : Pace) (stall src : Nat) (s : State) : State :=
  let s := if now.warn ∧ !was.warn then raise src (record 0x0C21 stall 0 0 0 s) else s
  if now.crit ∧ !was.crit then raise src (record 0x3C20 stall 0 0 0 s) else s

/-- The token of a pace critical event (R600). -/
def paceToken (was now : Pace) (src : Place) (e : Option ReinChan) (s : State) : State :=
  match e with
  | some e => if now.crit ∧ !was.crit then issueToken src 0x310 { chan := e, kind := .edge, hop := 0, inv := false, value := 1 } s else s
  | none => s

/-- PACE_MEASUREMENT: a stall in OFF makes none, nor does a module that is held in reset (R106). -/
def paceMeasured (p : PacePlace) (k : Fin 4) (margin : Int) (s : State) : State :=
  match p with
  | .stall n =>
    if (getStall s n).powered then
      let was := (getGait s n).pace
      let now := measurePace k margin was
      let s := modGait n (fun x => { x with pace := now }) s
      let s := forEach (stallRiders n) (fun r s => modRider r (shotPace now.now.toNat false) s) s
      paceToken was now (.node n) (imageOf s n).node.pace (paceCodes was now n.val (n.val * 256 + 1) s)
    else s
  | .spine =>
    if s.power.phase = .held then s
    else
      let was := s.spine.pace
      let now := measurePace k margin was
      let s := { s with spine := { s.spine with pace := now } }
      let s := forEach (List.finRange 8) (fun n s =>
        forEach (stallRiders n) (fun r s => modRider r (shotPace now.now.toNat true) s) s) s
      paceToken was now .hub (hubWiring s).pace (paceCodes was now 8 0x830 s)

def execPaceMeasurement (place : PacePlace) (monitor : Fin 4) (margin : Int) (s : State) : Res := .next (paceMeasured place monitor margin s)

/-- TROT_DEADLINE_WRITE (R103). -/
def execTrotDeadlineWrite (f : Func) (n : StallId) (k : Fin 8) (val : Word) (s : State) : Res :=
  .next (hostCheck f (.ctl n (.trot k)) (fun _ => if (bits val 0 12).toNat < 66 then some 0x1220 else none)
    (modGait n fun x => { x with deadlines := tabSet x.deadlines k.val (bits val 0 12) }) s)

/-- A write of 1 to pace_warn (R114). -/
def clearWarn (p : Pace) : Pace := { p with warn := false, low := p.now }

/-- The pace registers of a place. -/
def paceReg : PacePlace → Reg
  | .stall n => .ctl n .paceStatus
  | .spine => .time .paceStatus

/-- PACE_WARN_CLEAR (R114). -/
def execPaceWarnClear (f : Func) (place : PacePlace) (s : State) : Res :=
  .next (hostWrite f (paceReg place) (fun s =>
    match place with
    | .stall n => modGait n (fun x => { x with pace := clearWarn x.pace }) s
    | .spine => { s with spine := { s.spine with pace := clearWarn s.spine.pace } }) s)

end Sys2Proof.Machine
end

