-- ==== Sys2Proof/Machine/Watch.lean ====
section
/-!
DEFINITION. Chapter 15: comparators, their latches, blinkers and self-checks, and the housekeeping converters.
-/

namespace Sys2Proof.Machine

open Sys2Proof

/-! ## Places and registers -/

/-- A register of a comparator. -/
def cmpReg : CmpId → WcReg → Reg
  | .stall n w, r => .cmp n w r
  | .spine k, r => .spineCmp k r

/-- The source of a comparator (Table 19-6). -/
def cmpSource : CmpId → Nat
  | .stall n w => n.val * 256 + 0x10 + w.val
  | .spine k => 0x820 + k.val

/-- The stall number that a comparator's codes carry. -/
def cmpStall : CmpId → Nat
  | .stall n _ => n.val
  | .spine _ => 8

/-- A comparator works: its stall's core has power, or the module is out of reset. -/
def cmpPowered (s : State) : CmpId → Bool
  | .stall n _ => (getStall s n).powered
  | .spine _ => decide (s.power.phase ≠ .held)

/-- A stall is in RIDING or RESTING. -/
def active (s : State) (n : StallId) : Bool := decide (lifeOf n s = .riding) || decide (lifeOf n s = .resting)

/-- Actions that Table 15-1 permits. -/
def actionFits (c : CmpId) (a : BitVec 2) : Bool :=
  match c with
  | .stall _ w => a == 0 || a == 3 || (a == 1 && decide (w.val ≤ 7)) || (a == 2 && decide (w.val = 8))
  | .spine k => a == 0 || (a == 3 && decide (k.val ≠ 7))

/-! ## Conditions and blinkers (R591, R592, R595) -/

/-- The condition of a mode at a level (R591); `h` is the hysteresis that keeps a condition (0 to begin one, 2 to keep it). -/
def levelMeets (c : WatchCfg) (level : BitVec 10) (h : Nat) : Bool :=
  let x : Int := level.toNat
  let below : Bool := decide (x < (c.lo.toNat : Int) + h)
  let above : Bool := decide ((c.hi.toNat : Int) - h < x)
  match c.mode with
  | 0 => below || above
  | 1 => decide ((c.lo.toNat : Int) - h ≤ x) && decide (x ≤ (c.hi.toNat : Int) + h)
  | 2 => above
  | _ => below

/-- A comparator is blanked in a frame (R595). -/
def blankedNow (x : Watch) (frame : Nat) : Bool :=
  match x.cfg.blankSrc with
  | 1 =>
    let p := x.cfg.period.toNat
    decide (p ≠ 0) && decide (x.cfg.offset.toNat ≤ frame % p) && decide (frame % p < x.cfg.offset.toNat + x.cfg.length.toNat)
  | 2 => x.blankTok
  | _ => false

/-! ## The latch (R593 to R598) -/

/-- The edge token of a latch (R594 step 3). -/
def latchToken (c : CmpId) (v : Bool) (s : State) : State :=
  let tok (e : ReinChan) : Token := { chan := e, kind := .edge, hop := 0, inv := false, value := if v then 1 else 0 }
  if (getWatch s c).cfg.reinEn then
    match c with
    | .stall n w => match tabFind w.val (imageOf s n).node.comparators with | some e => issueToken (.node n) (0x300 + w.val) (tok e) s | none => s
    | .spine k => match tabFind k.val (hubWiring s).comparators with | some e => issueToken .hub (0x300 + k.val) (tok e) s | none => s
  else s

/-- The action of a comparator (Table 15-2). -/
def takeAction (c : CmpId) (which : BitVec 8) (s : State) : State :=
  match c, (getWatch s c).cfg.action with
  | .stall n w, 1 => if h : w.val < 8 then groupFault ⟨n, ⟨w.val, h⟩⟩ 1 s else s
  | .stall n _, 2 =>
    let i := bits which 0 2
    let s := modWatch c (fun x => { x with shunt := some i }) s
    match fin? 5 i.toNat with
    | some k => markWindows n k (fun w => { w with ovr := true }) none s
    | none => s
  | .stall n _, 3 => fatalStall n s
  | .spine _, 3 => forEach (List.finRange 8) (fun n s => if active s n then fatalStall n s else s) s
  | _, _ => s

/-- The PCI Express link is in a low-power state: every function that is enabled is in D3hot. -/
def linkSleeps (s : State) : Bool := (List.finRange 15).all fun f => !funcEnabled s f || (getFunc s f).d3hot

/-- The latch sets (R594). -/
def setLatch (c : CmpId) (which : BitVec 8) (s : State) : State :=
  let s := modWatch c (fun x => { x with tripped := true, cap := s.clock.sched / fineFrame * fineFrame, which }) s
  let s := latchToken c true (takeAction c which s)
  let w := (getWatch s c).cfg
  let s := if w.irqEn then raise (cmpSource c) s else s
  let s := if w.wakeEn ∧ linkSleeps s then setHost (fun h => { h with wake := true }) (modWatch c (fun x => { x with wake := true }) s) else s
  record 0x3C01 (cmpStall c) 0 0 0 s

/-- W8 watches the XA inputs. -/
def watchesInput : CmpId → Bool
  | .stall _ w => decide (w.val = 8)
  | .spine _ => false

/-- The dwell of a comparator has run within the beat in progress (R592). -/
def dwelt (s : State) (x : Watch) : Bool := decide (x.since + x.cfg.dwell.toNat * fineFrame < s.clock.now + fineBeat)

/-- COMPARATOR_TRIP (R592 to R595): the condition of an enabled comparator is qualified at a level. -/
def trip (c : CmpId) (level : BitVec 10) (which : BitVec 8) (s : State) : State :=
  let x := getWatch s c
  if cmpPowered s c ∧ x.cfg.enable ∧ !x.chkBusy ∧ dwelt s x ∧ levelMeets x.cfg level 0 then
    let s := modWatch c (fun x => { x with cond := true, level }) s
    if blankedNow x (frameNow s) then modWatch c (fun x => { x with blanked := satInc x.blanked }) s
    else
      let s := modWatch c (fun x => { x with trips := satInc x.trips }) s
      if x.tripped then s else setLatch c (if watchesInput c then which else 0) s
  else s

def execComparatorTrip (cmp : CmpId) (level : BitVec 10) (which : BitVec 8) (s : State) : Res := .next (trip cmp level which s)

/-- The condition still stands at a level (R591). -/
def stillMet (x : Watch) (level : BitVec 10) : Bool := x.cond && x.cfg.enable && levelMeets x.cfg level 2

/-- A look at the source: a condition that no longer stands is broken, and its dwell begins again (R592). -/
def lookAt (met : Bool) (level : BitVec 10) (now : Fine) (x : Watch) : Watch := { x with cond := met, level, since := if met then x.since else now }

/-- The latch clears: the shunt opens, a token with value 0 leaves (R596, Table 15-2). -/
def clearLatch (c : CmpId) (s : State) : State :=
  if (getWatch s c).tripped then latchToken c false (modWatch c (fun x => { x with tripped := false, shunt := none, wake := false }) s) else s

/-- LATCH_CLEAR (R596). -/
def latchClear (f : Func) (c : CmpId) (level : BitVec 10) (s : State) : State :=
  hostWrite f (cmpReg c .status) (fun s =>
    let x := getWatch s c
    let met := if x.chkBusy then x.cond else stillMet x level
    let s := if x.chkBusy then s else modWatch c (lookAt met level s.clock.now) s
    if met && !blankedNow x (frameNow s) then refuseReg f (cmpReg c .status) 0x1C01 s else clearLatch c s) s

def execLatchClear (f : Func) (cmp : CmpId) (level : BitVec 10) (s : State) : Res := .next (latchClear f cmp level s)

/-- A frame boundary whose number is a multiple of clr_period (R597). -/
def clearDue (s : State) (x : Watch) : Bool :=
  s.clock.running && decide (s.clock.sched % fineFrame = 0) && decide (x.cfg.clrPeriod ≠ 0) && decide (frameNow s % x.cfg.clrPeriod.toNat = 0)

/-- PERIOD_CLEAR (R597). -/
def periodClear (c : CmpId) (level : BitVec 10) (s : State) : State :=
  let x := getWatch s c
  if cmpPowered s c ∧ x.cfg.clrMode ∧ clearDue s x then
    let met := if x.chkBusy then x.cond else stillMet x level
    let s := if x.chkBusy then s else modWatch c (lookAt met level s.clock.now) s
    if met then s else clearLatch c s
  else s

def execPeriodClear (cmp : CmpId) (level : BitVec 10) (s : State) : Res := .next (periodClear cmp level s)

/-! ## Self-checks (R601 to R603) -/

/-- What refuses a CHECK (R602). -/
def checkCode (c : CmpId) (s : State) : Option Code :=
  let x := getWatch s c
  let rides : Bool :=
    match c with
    | .stall n _ => x.cfg.action != 0 && active s n
    | .spine _ => x.cfg.action == 3 && (List.finRange 8).any (active s)
  if x.chkBusy || rides then some 0x1C03 else none

/-- A CHECK starts. -/
def startCheck (f : Func) (c : CmpId) (levels : Bool) (s : State) : State :=
  hostCheck f (cmpReg c .cmd) (fun s => if cmpPowered s c then checkCode c s else some 0x1F04)
    (modWatch c fun x => { x with chkBusy := true, chkLevels := levels }) s

def execCheckSwap (f : Func) (cmp : CmpId) (s : State) : Res := .next (startCheck f cmp false s)

def execCheckLevels (f : Func) (cmp : CmpId) (s : State) : Res := .next (startCheck f cmp true s)

/-- SELF_CHECK_END (R603): a check that fails sets the latch and takes the action. -/
def checkEnd (c : CmpId) (pass : Bool) (s : State) : State :=
  if (getWatch s c).chkBusy then
    let s := modWatch c (fun x => { x with chkBusy := false, since := s.clock.now }) s
    if pass then s
    else
      let was := (getWatch s c).tripped
      let s := record 0x3C02 (cmpStall c) 0 0 0 (modWatch c (fun x => { x with chkFail := true }) s)
      if was then takeAction c (getWatch s c).which s else setLatch c 0 s
  else s

def execSelfCheckEnd (cmp : CmpId) (pass : Bool) (s : State) : Res := .next (checkEnd cmp pass s)

/-! ## Configuration (R599) -/

/-- The register of a configuration write. -/
def watchReg : WatchReg → WcReg
  | .ctl => .ctl
  | .ref => .ref
  | .blank => .blank
  | .blankTime => .blankTime
  | .latch => .latch

/-- What refuses a configuration write (R599). -/
def watchCode (c : CmpId) (r : WatchReg) (val : Word) : Option Code :=
  match r with
  | .ref => if (bits val 16 10).toNat < (bits val 0 10).toNat then some 0x1C02 else none
  | .ctl => if actionFits c (bits val 16 2) then none else some 0x1C02
  | _ => none

/-- A configuration with one register written (Table 15-5). -/
def setWatchCfg (r : WatchReg) (val : Word) (c : WatchCfg) : WatchCfg :=
  match r with
  | .ctl =>
    { c with action := bits val 16 2, mode := bits val 12 2, enable := bit val 11, irqEn := bit val 10, reinEn := bit val 9, wakeEn := bit val 8
             dwell := bits val 0 8 }
  | .ref => { c with hi := bits val 16 10, lo := bits val 0 10 }
  | .blank => { c with blankSrc := bits val 30 2, chan := bits val 16 12, period := bits val 0 16 }
  | .blankTime => { c with offset := bits val 16 16, length := bits val 0 16 }
  | .latch => { c with clrMode := bit val 16, clrPeriod := bits val 0 16 }

/-- The configuration that the registers of a comparator read: the one written last. -/
def writtenWatch (x : Watch) : WatchCfg := x.next.getD x.cfg

/-- A configuration takes effect (R599): a change of reference or mode restarts the dwell; a new blanking channel has brought no token yet. -/
def takeWatch (d : WatchCfg) (now : Fine) (x : Watch) : Watch :=
  let c := x.cfg
  let same := decide (c.mode = d.mode) && decide (c.hi = d.hi) && decide (c.lo = d.lo)
  { x with
    cfg := d, next := none, cond := x.cond && same && d.enable, since := if same && (c.enable || !d.enable) then x.since else now
    blankTok := x.blankTok && decide (c.blankSrc = d.blankSrc) && decide (c.chan = d.chan) }

/-- A configuration write takes effect at once: an INIT value of an image. -/
def setWatch (r : WatchReg) (val : Word) (now : Fine) (x : Watch) : Watch := takeWatch (setWatchCfg r val (writtenWatch x)) now x

/-- A configuration write waits for the next frame boundary (R599); without a running epoch there is none, and it takes effect at once. -/
def stageWatch (r : WatchReg) (val : Word) (s : State) (x : Watch) : Watch :=
  if s.clock.running then { x with next := some (setWatchCfg r val (writtenWatch x)) } else setWatch r val s.clock.now x

def execComparatorConfigWrite (f : Func) (cmp : CmpId) (reg : WatchReg) (val : Word) (s : State) : Res :=
  .next (hostCheck f (cmpReg cmp (watchReg reg)) (fun _ => watchCode cmp reg val) (fun s => modWatch cmp (stageWatch reg val s) s) s)

/-! ## Housekeeping (R605 to R611) -/

/-- An input that converter k serves (Table 15-3). -/
def hkServes (k : Fin 8) (i : BitVec 10) : Bool :=
  let n := i.toNat
  let within (lo w : Nat) : Bool := decide (lo ≤ n) && decide (n < lo + w)
  within (64 * k.val) 64 || within (512 + 8 * k.val) 8 || within (576 + 4 * k.val) 4 || within (608 + 4 * k.val) 4

/-- The gain that counts for an input: flux inputs alone have one (R606). -/
def hkGain (e : ScanEntry) : BitVec 2 := if e.input.toNat < 512 then e.gain else 0

/-- A mode that runs the list. -/
def hkRuns (mode : BitVec 2) : Bool := mode == 1 || mode == 2

/-- A list starts: its first entry starts at once. -/
def hkBegin (now : Fine) (x : HkConv) : HkConv := { x with running := true, at_ := 0, extra := 0, primed := false, restart := false, due := now }

/-- START (R607, R610). -/
def hkStart (f : Func) (k : Fin 8) (s : State) : State :=
  hostCheck f (.hk k .cmd) (fun s => if s.hkCtl.refReady then none else some 0x1C10)
    (modHk k fun x =>
      if !hkRuns x.mode then x
      else if x.running then { x with restart := true }
      else hkBegin s.clock.now x) s

def execHkStart (f : Func) (k : Fin 8) (s : State) : Res := .next (hkStart f k s)

def execHkStop (f : Func) (k : Fin 8) (s : State) : Res :=
  .next (hostWrite f (.hk k .cmd) (modHk k fun x => { x with running := false, restart := false, extra := 0, primed := false }) s)

/-- The extra conversions before an entry's result (R608). -/
def extrasFor (x : HkConv) (e : ScanEntry) : Nat :=
  match x.lastInput with
  | none => 1
  | some (i, g) => if g ≠ hkGain e then 2 else if i ≠ e.input then 1 else 0

/-- The input of a stall that is off reads 0, flux inputs apart (R606). -/
def hkCode (s : State) (k : Fin 8) (i : BitVec 10) (code : BitVec 12) : BitVec 12 :=
  if 512 ≤ i.toNat ∧ i.toNat < 608 ∧ (getStall s k).life = .off then 0 else code

/-- The code of a flux voltage in units of 2^-18 V at a gain (Table 15-3): an LSB of 10 V / 4,096 / gain is 640 / gain units. -/
def fluxCode (v : Int) (gain : BitVec 2) : Int := max (-2048) (min 2047 ((v * 2 ^ gain.toNat + 320) / 640))

/-- A line's pin stands still: its DC path has settled (R422) and its fast path is past its edge. -/
def pinStill (s : State) (l : LineId) : Bool :=
  let x := getLine s l
  let y := getFast s l
  (match x.dc with | .steady => true | .halter => true | _ => false) && x.lastMove.all (fun k => decide (20 ≤ k))
    && y.changeAt.all (fun t => decide (t + 4096 ≤ s.clock.sched))

/-- The result of a conversion (R606): a code converted from a flux pin that stands still lies within 3 codes of its voltage's. -/
def hkResult (s : State) (k : Fin 8) (e : ScanEntry) (code : BitVec 12) : BitVec 12 :=
  let l : LineId := ⟨k, ⟨e.input.toNat % 64, Nat.mod_lt _ (by decide)⟩⟩
  if e.input.toNat < 512 then
    if pinStill s l then
      let v := fluxCode (pinVoltage (getLine s l) (getFast s l) s.clock.sched) (hkGain e)
      BitVec.ofInt 12 (max (-2048) (max (v - 3) (min 2047 (min (v + 3) code.toInt))))
    else code
  else hkCode s k e.input code

/-- One microsecond in fine steps: 250 frames. -/
def fineMicro : Nat := 250 * fineFrame

/-- The next entry of a list that runs starts interval µs after this one, or back to back; a single pass ends (R607). -/
def hkNext (now : Fine) (x : HkConv) : HkConv :=
  let x := { x with primed := false, extra := 0, due := max now (x.due + x.interval.toNat * fineMicro) }
  if x.at_ < x.length.toNat then { x with at_ := x.at_ + 1 }
  else if x.mode = 2 then { x with at_ := 0 }
  else { x with at_ := 0, running := false }

/-- A conversion ends (R607 to R609): an extra one, or an entry's result.  Before its entry's start no conversion runs. -/
def conversion (k : Fin 8) (code : BitVec 12) (s : State) : State :=
  let x := getHk s k
  if x.running ∧ x.due ≤ s.clock.now then
    let e := tabGet {} x.entries x.at_
    let left := if x.primed then x.extra else extrasFor x e
    let settle := decide (0 < left)
    let carried := decide (s.hkCtl.spareUse ≠ 0) && decide (s.hkCtl.spareTgt.toNat = k.val)
    let was := x.valid
    let s := modHk k (fun x =>
      let y := { x with
        valid := true, overrun := x.overrun || was, overruns := if was then satInc x.overruns else x.overruns, settle, spare := carried
        settles := if settle then satInc x.settles else x.settles, gain := hkGain e, input := e.input, code := hkResult s k e code
        lastInput := some (e.input, hkGain e) }
      let y := if settle then { y with primed := true, extra := left - 1 } else hkNext s.clock.now y
      if x.restart then hkBegin s.clock.now y else y) s
    if was then record 0x3C11 8 0 0 0 s else s
  else s

def execConversionDone (k : Fin 8) (code : BitVec 12) (s : State) : Res := .next (conversion k code s)

/-- A read of HK_DATA clears valid and overrun (R609). -/
def takeHkData (f : Func) (k : Fin 8) (s : State) : State :=
  if hostReach s f then modHk k (fun x => { x with valid := false, overrun := false }) s else s

def execHkDataRead (f : Func) (k : Fin 8) (s : State) : Res := .next (takeHkData f k s)

/-- A write to HK_CTL (R610): without the reference buffer every converter stops. -/
def setHkCtl (val : Word) (s : State) : State :=
  let s := setHk (fun h => { h with bgCal := bit val 1, refEn := bit val 0, refReady := h.refReady && bit val 0 }) s
  if bit val 0 then s
  else forEach (List.finRange 8) (fun k s => modHk k (fun x => { x with running := false, restart := false, extra := 0, primed := false }) s) s

def execHkCtlWrite (f : Func) (val : Word) (s : State) : Res := .next (hostWrite f (.hkCtl false) (setHkCtl val) s)

def execReferenceReady (s : State) : Res := .next (setHk (fun h => if h.refEn then { h with refReady := true } else h) s)

/-- A write to a scan entry (R607). -/
def execScanEntryWrite (f : Func) (k : Fin 8) (entry : Fin 16) (val : Word) (s : State) : Res :=
  .next (hostCheck f (.scan k entry) (fun _ => if hkServes k (bits val 0 10) then none else some 0x1C11)
    (modHk k fun x =>
      { x with entries := tabSet x.entries entry.val { gain := bits val 16 2, input := bits val 0 10 } }) s)

/-- HK8 takes the place of the next converter (R611). -/
def execBackgroundCalibrationTurn (s : State) : Res :=
  .next (setHk (fun h =>
    if h.bgCal ∧ h.spareUse = 0 then { h with spareUse := 1, spareTgt := BitVec.ofNat 4 h.nextTurn.val, nextTurn := h.nextTurn + 1 } else h) s)

/-- A turn ends (R611): the trims are updated; an error of more than 16 codes marks the converter failed, and HK8 replaces it. -/
def turnEnd (offsetErr gainErr : Int) (s : State) : State :=
  if s.hkCtl.spareUse = 1 then
    match fin? 8 s.hkCtl.spareTgt.toNat with
    | some k =>
      let s := modHk k (fun x => { x with offsetTrim := offsetErr, gainTrim := gainErr }) s
      if 16 < offsetErr.natAbs ∨ 16 < gainErr.natAbs then
        record 0x3C12 8 0 0 0 (setHk (fun h => { h with spareUse := 2 }) (modHk k (fun x => { x with failed := true }) s))
      else setHk (fun h => { h with spareUse := 0, spareTgt := 0xF }) s
    | none => s
  else s

def execBackgroundCalibrationTurnEnd (offsetErr gainErr : Int) (s : State) : Res := .next (turnEnd offsetErr gainErr s)

end Sys2Proof.Machine
end

