-- ==== Sys2Proof/Machine/Fields.lean ====
section
/-!
DEFINITION. The plain fields of the registers: those that a host write sets (RW, RWL) or clears (W1C) and that start nothing (R19), block by block.
The commands of other chapters give the fields that do more.
-/

namespace Sys2Proof.Machine

open Sys2Proof

/-! ## The stall window -/

/-- STn_PACE_STATUS and its spine twin (Table 02-9, R114). -/
def clearPace (val : Word) (p : Pace) : Pace :=
  let p := { p with belowZero := w1c p.belowZero (bit val 18), crit := w1c p.crit (bit val 17) }
  if bit val 16 then { p with warn := false, low := p.now } else p

/-- The CTL block (Tables 01-12, 02-7, 05-8). -/
def ctlField (n : StallId) (r : CtlReg) (val : Word) : State → State :=
  match r with
  | .drainCfg => modStall n fun x => { x with drainFlush := bit val 16, drainTimeout := bits val 0 16 }
  | .paceStatus => modGait n fun x => { x with pace := clearPace val x.pace }
  | .paceThresh => modGait n fun x => { x with pace := { x.pace with warnPct := bits val 8 8, critPct := bits val 0 8 } }
  | .lateCount => modGait n fun x => { x with late := clearBits x.late val }
  | .gateUnderrun => modGait n fun x => { x with adcFull := clearBits x.adcFull (bits val 16 16), dacEmpty := clearBits x.dacEmpty (bits val 0 16) }
  | .envPage => modStall n fun x => { x with envPage := bits val 0 2 }
  | _ => id

/-- A spare's own set takes no write (R194).  A drive or probe slice (Tables 04-8 to 04-10). -/
def sliceField (i : SliceId) (r : SlReg) (val : Word) : State → State :=
  if isSpare i then id
  else match r with
  | .status => modSlice i fun x => { x with guardHit := w1c x.guardHit (bit val 22) }
  | .guardCfg => modSlice i fun x => { x with guardIrq := bit val 1, guardInvalid := bit val 0 }
  | .guardCount => modSlice i fun x => { x with clipped := clearBits x.clipped val }
  | _ => id

/-- A voice's counter (Table 04-12). -/
def voiceField (v : VoiceId) (r : VcReg) (val : Word) : State → State :=
  match r with
  | .status => modVoice v fun x => { x with contend := clearBits x.contend (bits val 0 16) }
  | _ => id

/-- A voice's sequencer (Table 05-7): the start time is a pair (R22). -/
def seqField (v : VoiceId) (r : VsReg) (val : Word) : State → State :=
  let start (hi : Bool) : State → State := fun s =>
    pairWrite (.seq v .startLo) hi val (fun s => bits (getSeq s v).startReg 0 32) (fun lo hi s => modSeq v (fun q => { q with startReg := hi ++ lo }) s) s
  match r with
  | .late => modSeq v fun q => { q with missed := clearBits q.missed (bits val 16 16), late := clearBits q.late (bits val 0 16) }
  | .underrun => modSeq v fun q => { q with events := clearBits q.events (bits val 16 16), zeroBeats := clearBits q.zeroBeats (bits val 0 16) }
  | .discard => modSeq v fun q => { q with discarded := clearBits q.discarded val }
  | .startLo => start false
  | .startHi => start true
  | _ => id

/-- An acquisition slice (Table 06-8). -/
def acqField (n : StallId) (k : Fin 5) (r : AsReg) (val : Word) : State → State :=
  if k.val = 4 then id
  else match r with
  | .status => modAcq n k fun x => { x with ovrHit := w1c x.ovrHit (bit val 24) }
  | .ovrCount => modAcq n k fun x => { x with ovr := clearBits x.ovr val }
  | _ => id

/-- A readout channel (Table 06-9). -/
def chanField (c : ChanId) (r : ChReg) (val : Word) : State → State :=
  match r with
  | .token => modChan c fun x => { x with onInvalid := bit val 23, masked := bit val 22, stateMask := bits val 16 4, tokenEn := bit val 15 }
  | .windows => modChan c fun x => { x with windows := clearBits x.windows val }
  | .invalid => modChan c fun x => { x with invalid := clearBits x.invalid val }
  | .drop => modChan c fun x => { x with dropped := clearBits x.dropped (bits val 16 16), contend := clearBits x.contend (bits val 0 16) }
  | _ => id

/-- The written fields of a capture unit (Table 07-6). -/
def unitCfg (r : TuReg) (val : Word) (c : UnitCfg) : UnitCfg :=
  match r with
  | .src => { c with decimated := bit val 24, target := bits val 16 6, trigSrc := bits val 12 3, trigObj := bits val 0 12 }
  | .trig => { c with level := bits val 16 16, hyst := bits val 8 8, stateMask := bits val 4 4, component := bits val 2 2, slope := bits val 0 2 }
  | .hobble => { c with hobMode := bits val 24 2, hobValue := bits val 0 24 }
  | .pre => { c with pre := bits val 0 20 }
  | .post => { c with post := val }
  | .mode => { c with recCount := bits val 16 16, continuous := bit val 8, avg := bits val 0 4 }
  | .measOff => { c with measOff := val }
  | .measLen => { c with measLen := bits val 0 20 }
  | .ring => { c with ringMib := bits val 0 13 }
  | _ => c

/-- A capture unit: its written fields, its trigger time as a pair (R22), and its counters. -/
def unitField (u : UnitId) (r : TuReg) (val : Word) : State → State :=
  let time (hi : Bool) : State → State := fun s =>
    pairWrite (.unit u.stall u.num .timeLo) hi val (fun s => bits (getUnit s u).cfg.time 0 32)
      (fun lo hi s => modUnit u (fun x => { x with cfg := { x.cfg with time := hi ++ lo } }) s) s
  match r with
  | .timeLo => time false
  | .timeHi => time true
  | .countA => modUnit u fun x => { x with early := clearBits x.early (bits val 16 16), busy := clearBits x.busy (bits val 0 16) }
  | .countB => modUnit u fun x => { x with gaps := clearBits x.gaps (bits val 16 16), hobbled := clearBits x.hobbled (bits val 0 16) }
  | _ => modUnit u fun x => { x with cfg := unitCfg r val x.cfg }

/-- STn_KERNEL_PAGE (Table 06-10). -/
def kernelPageField (n : StallId) (val : Word) : State → State :=
  modStall n fun x => { x with kernelBank := bit val 8, kernelChan := ⟨(bits val 0 6 : BitVec 6).toNat, (bits val 0 6 : BitVec 6).isLt⟩ }

/-- A flux line (Table 10-8). -/
def lineField (l : LineId) (r : FlReg) (val : Word) : State → State :=
  match r with
  | .fast => modLine l fun x => { x with genSeed := bits val 16 16 }
  | .count => modFast l fun x =>
      { x with late := clearBits x.late (bits val 24 8), contend := clearBits x.contend (bits val 16 8), clipped := clearBits x.clipped (bits val 0 16) }
  | _ => id

/-- A stall's rein node (Table 08-12). -/
def nodeField (n : StallId) (r : NodeReg) (val : Word) : State → State :=
  match r with
  | .dropA => modNode n fun x => { x with busy := clearBits x.busy (bits val 16 16), notRiding := clearBits x.notRiding (bits val 0 16) }
  | .dropB => modNode n fun x =>
      { x with ownerDrop := clearBits x.ownerDrop (bits val 24 8), faultDrop := clearBits x.faultDrop (bits val 16 8)
               loop := clearBits x.loop (bits val 0 16) }
  | .misc => modNode n fun x => { x with contend := clearBits x.contend (bits val 16 16), auditDrop := clearBits x.auditDrop (bits val 0 16) }
  | .scrub => modNode n fun x => { x with corrected := clearBits x.corrected (bits val 16 16) }
  | _ => id

/-- A buckle cell (Table 08-11). -/
def cellField (c : CellId) (r : BkReg) (val : Word) : State → State :=
  match r with
  | .state => modCell c fun x => { x with overrun := w1c x.overrun (bit val 16) }
  | .count => modCell c fun x =>
      { x with absorbed := clearBits x.absorbed (bits val 16 16), overruns := clearBits x.overruns (bits val 8 8)
               expired := clearBits x.expired (bits val 0 8) }
  | _ => id

/-- The overrun flags of a rider's task inputs (RH_TI_STATUS). -/
def clearInputs (val : Word) (x : Rider) : Rider :=
  (List.range 4).foldl (fun x k => if bit val (8 * k + 7) then modInput k (fun t => { t with overrun := false }) x else x) x

/-- A rider (Table 09-13). -/
def riderField (h : RiderId) (r : RhReg) (val : Word) : State → State :=
  match r with
  | .fault => modRider h fun x =>
      { x with fault := { x.fault with fatal := w1c x.fault.fatal (bit val 3), late := w1c x.fault.late (bit val 2)
                                       overrun := w1c x.fault.overrun (bit val 1), refused := w1c x.fault.refused (bit val 0) } }
  | .faultEn => modRider h fun x => { x with fault := { x.fault with en := bits val 0 3 } }
  | .tiStatus => modRider h (clearInputs val)
  | .count => modRider h fun x => { x with timeouts := clearBits x.timeouts (bits val 16 16), heldCount := clearBits x.heldCount (bits val 0 16) }
  | .drop => modRider h fun x =>
      { x with lateDiscard := clearBits x.lateDiscard (bits val 24 8), recordsDropped := clearBits x.recordsDropped (bits val 16 8)
               refusedCount := clearBits x.refusedCount (bits val 0 16) }
  | _ => id

/-- A queue (Table 11-3). -/
def queueField (q : QueueId) (r : QReg) (val : Word) : State → State :=
  match r with
  | .status => modQueue q fun x =>
      { x with fault := w1c x.fault (bit val 31), resets := clearBits x.resets (bits val 8 8), discards := clearBits x.discards (bits val 0 8) }
  | _ => id

/-- A stall's Farrier (Table 12-6). -/
def farrierField (n : StallId) (r : FaReg) (val : Word) : State → State :=
  match r with
  | .status => modFarrier n fun x => { x with studStale := w1c x.studStale (bit val 31) }
  | .count => modFarrier n fun x =>
      { x with accepted := clearBits x.accepted (bits val 16 16), rejected := clearBits x.rejected (bits val 8 8)
               preempted := clearBits x.preempted (bits val 0 8) }
  | .limitsR => modFarrier n fun x => { x with minSep := bits val 16 16, maxShift := bits val 0 16 }
  | .limitsD => modFarrier n fun x =>
      { x with minSpur := bits val 24 8, minImage := bits val 16 8, maxSkew := bits val 8 8, maxMarker := bits val 0 8 }
  | .windows => modFarrier n fun x => { x with minWindows := bits val 16 16, minPerState := bits val 0 16 }
  | .timeouts => modFarrier n fun x => { x with obsTimeout := bits val 16 16, actTimeout := bits val 0 16 }
  | _ => id

/-! ## The spine -/

/-- A comparator's counters (Table 15-5); its check flag clears here, its latch by LATCH_CLEAR. -/
def cmpField (c : CmpId) (r : WcReg) (val : Word) : State → State :=
  match r with
  | .status => modWatch c fun x => { x with chkFail := w1c x.chkFail (bit val 28) }
  | .count => modWatch c fun x => { x with trips := clearBits x.trips (bits val 16 16), blanked := clearBits x.blanked (bits val 0 16) }
  | _ => id

/-- A converter's mode, length and interval (Table 15-5): modes 0 and 3 stop a list that runs (DEDUCED, log entry 201). -/
def setHkCfg (val : Word) (x : HkConv) : HkConv :=
  let mode : BitVec 2 := bits val 30 2
  let x := { x with mode, length := bits val 24 4, interval := bits val 0 20 }
  if mode = 1 ∨ mode = 2 then x else { x with running := false, restart := false, extra := 0, primed := false }

/-- A housekeeping converter (Table 15-5). -/
def hkField (k : Fin 8) (r : HkReg) (val : Word) : State → State :=
  match r with
  | .cfg => modHk k (setHkCfg val)
  | .count => modHk k fun x => { x with overruns := clearBits x.overruns (bits val 16 16), settles := clearBits x.settles (bits val 0 16) }
  | _ => id

/-- QDIR (Table 11-5). -/
def qdirField (r : QdirReg) (val : Word) : State → State :=
  match r with
  | .drop => setQdir fun d => { d with noQueue := clearBits d.noQueue (bits val 16 16), resets := clearBits d.resets (bits val 0 16) }
  | .ecc => setQdir fun d => { d with corrected := clearBits d.corrected (bits val 16 16), uncorrected := clearBits d.uncorrected (bits val 0 16) }
  | _ => id

/-- The hub (Table 08-13). -/
def hubField (r : HubReg) (val : Word) : State → State :=
  match r with
  | .drop => setHub fun h => { h with noRoute := clearBits h.noRoute (bits val 16 16), mismatch := clearBits h.mismatch (bits val 0 16) }
  | .loop => setHub fun h => { h with contend := clearBits h.contend (bits val 16 16), loop := clearBits h.loop (bits val 0 16) }
  | _ => id

/-- PL_ERR of a plane (Table 08-13). -/
def planeField (b : Bool) (val : Word) : State → State :=
  let f (p : HubPlane) : HubPlane := { p with corrected := clearBits p.corrected (bits val 16 16), missing := clearBits p.missing (bits val 0 16) }
  setHub fun h => if b then { h with planeB := f h.planeB } else { h with planeA := f h.planeA }

/-- TETHER and its lanes (Table 13-7). -/
def tetherField (r : TetherReg) (val : Word) : State → State :=
  match r with
  | .drop => setTether fun t => { t with noLane := clearBits t.noLane (bits val 16 16), busy := clearBits t.busy (bits val 0 16) }
  | _ => id

def tlField (k : LaneId) (r : TlReg) (val : Word) : State → State :=
  match r with
  | .status => modLane k fun x => { x with overErr := w1c x.overErr (bit val 14), overrun := w1c x.overrun (bit val 13) }
  | .err => modLane k fun x => { x with codeErr := clearBits x.codeErr (bits val 16 16), lost := clearBits x.lost (bits val 0 16) }
  | .count => modLane k fun x => { x with trainings := clearBits x.trainings (bits val 16 16), diverted := clearBits x.diverted (bits val 0 16) }
  | .prbsErr => modLane k fun x => { x with prbs := { x.prbs with errors := clearBits x.prbs.errors val } }
  | .prbsBits => modLane k fun x => { x with prbs := { x.prbs with bits := clearBits x.prbs.bits val } }
  | _ => id

/-- TIME (Table 14-5, R115). -/
def timeField (r : TimeReg) (val : Word) : State → State :=
  match r with
  | .status => setTime fun t => { t with slewSat := w1c t.slewSat (bit val 30), stepped := w1c t.stepped (bit val 29) }
  | .paceStatus => fun s => { s with spine := { s.spine with pace := clearPace val s.spine.pace } }
  | .paceThresh => fun s => { s with spine := { s.spine with pace := { s.spine.pace with warnPct := bits val 8 8, critPct := bits val 0 8 } } }
  | _ => id

def ptField (p : Fin 2) (r : PtReg) (val : Word) : State → State :=
  match r with
  | .count => modPort p fun x => { x with ptpRx := clearBits x.ptpRx (bits val 16 16), dropped := clearBits x.dropped (bits val 0 16) }
  | _ => id

def dmField (d : Fin 2) (r : DmReg) (val : Word) : State → State :=
  match r with
  | .count => modDomain d fun x => { x with outliers := clearBits x.outliers (bits val 16 16), count := clearBits x.count (bits val 0 16) }
  | _ => id

/-- A time-pulse output: its start and period are pairs (R22). -/
def tpField (k : Fin 8) (r : TpReg) (val : Word) : State → State :=
  let start (hi : Bool) : State → State := fun s =>
    pairWrite (.tp k .startLo) hi val (fun s => bits (getPulse s k).start 0 32) (fun lo hi s => modPulse k (fun x => { x with start := hi ++ lo }) s) s
  let period (hi : Bool) : State → State := fun s =>
    pairWrite (.tp k .periodLo) hi val (fun s => bits (getPulse s k).period 0 32) (fun lo hi s => modPulse k (fun x => { x with period := hi ++ lo }) s) s
  match r with
  | .ctl => modPulse k fun x => { x with mode := bits val 4 2, polarity := bit val 3 }
  | .status => modPulse k fun x => { x with missed := clearBits x.missed (bits val 16 8), pulses := clearBits x.pulses (bits val 0 16) }
  | .startLo => start false
  | .startHi => start true
  | .periodLo => period false
  | .periodHi => period true
  | .width => modPulse k fun x => { x with width := bits val 0 24 }

/-- A word of a wide bit field with its W1C bits cleared. -/
def clearWord (x : BitVec 256) (i : Fin 8) (val : Word) : BitVec 256 := x &&& ~~~((val.zeroExtend 256) <<< (32 * i.val))

/-- POWER (Table 16-8). -/
def powerField (r : PowerReg) (val : Word) : State → State :=
  match r with
  | .cause => setBackup fun b =>
      { b with powerFail := w1c b.powerFail (bit val 30), fluxStepped := w1c b.fluxStepped (bit val 29)
               linesStepped := clearBits b.linesStepped (bits val 16 8) }
  | .rtcLo => holdWord (.power .rtcLo) val
  | .persistStatus => setPersist fun p =>
      { p with corrected := clearBits p.corrected (bits val 16 16), uncorrected := clearBits p.uncorrected (bits val 8 8)
               keyRebuilt := w1c p.keyRebuilt (bit val 7) }
  | .domFault i => setPower fun p => { p with domFault := clearWord p.domFault i val }
  | _ => id

/-- TACK (Table 03-8). -/
def tackField (r : TackReg) (val : Word) : State → State :=
  match r with
  | .slotLen k => setTack fun t => if k.val = 0 then { t with slot0Len := val } else { t with slot1Len := val }
  | _ => id

/-- The HOST block of a function (Table 19-4). -/
def hostField (f : Func) (r : HostReg) (val : Word) : State → State :=
  match r with
  | .link => setHost fun h => { h with downs := clearBits h.downs (bits val 0 16) }
  | .errStatus => modFunc f fun h => { h with errCount := clearBits h.errCount (bits val 0 16) }
  | .irqStatus => modFunc f fun h => { h with merged := clearBits h.merged (bits val 16 16), unsent := clearBits h.unsent (bits val 0 16) }
  | _ => id

/-- The little-endian bytes of a word of the persistent window; only the user area takes writes (Table 16-6). -/
def persistField (w : Fin 1048576) (val : Word) : State → State :=
  if 0xC0000 ≤ w.val then setPersist fun p => { p with user := memWrite 0 p.user ((w.val - 0xC0000) * 4) (wordBytes val) } else id

/-- What a host write does to the plain fields of a register; the gate of R20 and R693 has let it pass. -/
def plainField (f : Func) (r : Reg) (val : Word) : State → State :=
  match r with
  | .host r => hostField f r val
  | .power r => powerField r val
  | .tack r => tackField r val
  | .time r => timeField r val
  | .pt p r => ptField p r val
  | .dm d r => dmField d r val
  | .tp k r => tpField k r val
  | .tether r => tetherField r val
  | .tl k r => tlField k r val
  | .hub r => hubField r val
  | .plane b true => planeField b val
  | .hubCell false b r => cellField (.hub false b) r val
  | .spineCmp i r => cmpField (.spine i) r val
  | .hk k r => hkField k r val
  | .qdir r => qdirField r val
  | .persist w => persistField w val
  | .ctl n r => ctlField n r val
  | .cmp n w r => cmpField (.stall n w) r val
  | .drive n k r => sliceField ⟨n, .drive, k⟩ r val
  | .probe n k r => sliceField ⟨n, .probe, k.castLE (by omega)⟩ r val
  | .voice v r => voiceField v r val
  | .seq v r => seqField v r val
  | .acq n k r => acqField n k r val
  | .chan c r => chanField c r val
  | .unit n u r => unitField ⟨n, u⟩ r val
  | .kernelPage n => kernelPageField n val
  | .line l r => lineField l r val
  | .node n r => nodeField n r val
  | .cell n b r => cellField (.node n b) r val
  | .rider h r => riderField h r val
  | .queue n i r => queueField (BitVec.ofNat 14 (n.val * 2048 + i.val)) r val
  | .farrier n r => farrierField n r val
  | _ => id

end Sys2Proof.Machine
end

