-- ==== Sys2Proof/Machine/Ecdsa.lean ====
section
/-!
DEFINITION. ECDSA over the curve P-384 with a 384-bit digest (FIPS 186-5), the signature of an image and of its STABLE section (R124, R125).
A point is given in Jacobian coordinates: x is X / Z^2 and y is Y / Z^3 modulo the field's prime, and Z is 0 at infinity.
-/

namespace Sys2Proof.Machine

open Sys2Proof

/-- The prime of the field. -/
def p384 : Int := 2 ^ 384 - 2 ^ 128 - 2 ^ 96 + 2 ^ 32 - 1

/-- The order of the base point. -/
def p384Order : Nat := 0xFFFFFFFFFFFFFFFFFFFFFFFFFFFFFFFFFFFFFFFFFFFFFFFFC7634D81F4372DDF581A0DB248B0A77AECEC196ACCC52973

/-- The curve is y^2 = x^3 - 3 x + b. -/
def p384B : Int := 0xB3312FA7E23EE7E4988E056BE3F82D19181D9C6EFE8141120314088F5013875AC656398D8A2ED19D2A85C8EDD3EC2AEF

/-- A point. -/
structure EcPoint where
  x : Int
  y : Int
  z : Int
  deriving DecidableEq, Repr

/-- The base point. -/
def p384Base : EcPoint :=
  { x := 0xAA87CA22BE8B05378EB1C71EF320AD746E1D3B628BA79B9859F741E082542A385502F25DBF55296C3A545E3872760AB7
    y := 0x3617DE4A96262C6F5D9E98BF9292DC29F8F41DBD289A147CE9DA3113B5F0B8C00A60B1CE1D7E819D7A431D7C90EA0E5F
    z := 1 }

/-- The point at infinity. -/
def ecZero : EcPoint := { x := 1, y := 1, z := 0 }

/-- Twice a point. -/
def ecDouble (a : EcPoint) : EcPoint :=
  let delta := a.z * a.z % p384
  let gamma := a.y * a.y % p384
  let beta := a.x * gamma % p384
  let alpha := 3 * (a.x - delta) * (a.x + delta) % p384
  let x := (alpha * alpha - 8 * beta) % p384
  { x, y := (alpha * (4 * beta - x) - 8 * gamma * gamma) % p384, z := 2 * a.y * a.z % p384 }

/-- The sum of two points. -/
def ecAdd (a b : EcPoint) : EcPoint :=
  if a.z = 0 then b
  else if b.z = 0 then a
  else
    let za := a.z * a.z % p384
    let zb := b.z * b.z % p384
    let u := a.x * zb % p384
    let v := a.y * b.z * zb % p384
    let h := (b.x * za - u) % p384
    let r := (b.y * a.z * za - v) % p384
    if h = 0 then (if r = 0 then ecDouble a else ecZero)
    else
      let hh := h * h % p384
      let hhh := h * hh % p384
      let x := (r * r - hhh - 2 * u * hh) % p384
      { x, y := (r * (u * hh - x) - v * hhh) % p384, z := h * a.z * b.z % p384 }

/-- k times a point plus m times another, over the lowest bits of k and m, highest of them first. -/
def ecCombine (a b : EcPoint) (k m : Nat) : Nat → EcPoint
  | 0 => ecZero
  | i + 1 =>
    let hi := ecDouble (ecCombine a b (k / 2) (m / 2) i)
    let s := if k % 2 = 1 then ecAdd hi a else hi
    if m % 2 = 1 then ecAdd s b else s

/-- A power modulo the order, of an exponent below 2 to the given number of bits. -/
def orderPow (x e : Nat) : Nat → Nat
  | 0 => 1
  | i + 1 =>
    let h := orderPow x (e / 2) i
    if e % 2 = 1 then h * h % p384Order * x % p384Order else h * h % p384Order

/-- A point with affine coordinates lies on the curve. -/
def onCurve (x y : Nat) : Bool :=
  decide ((x : Int) < p384) && decide ((y : Int) < p384) && decide (((y : Int) * y - (x : Int) * x * x + 3 * x - p384B) % p384 = 0)

/-- The signature (r, s) of a digest holds under a public key. -/
def ecdsaHolds (qx qy digest r s : Nat) : Bool :=
  let inRange (v : Nat) : Bool := decide (0 < v) && decide (v < p384Order)
  let w := orderPow s (p384Order - 2) 384
  let sum := ecCombine p384Base { x := qx, y := qy, z := 1 } (digest * w % p384Order) (r * w % p384Order) 384
  let isX (v : Nat) : Bool := decide ((v : Int) < p384) && decide (((v : Int) * sum.z * sum.z - sum.x) % p384 = 0)
  onCurve qx qy && inRange r && inRange s && decide (sum.z ≠ 0) && (isX r || isX (r + p384Order))

/-- A number from its bytes, the highest first, as FIPS 186-5 writes points and signatures (PRESUMED, log entry 158). -/
def beNat (l : List Byte) : Nat := l.foldl (fun n b => n * 256 + b.toNat) 0

/-- The bytes of a signature, r and then s, hold over the bytes of a digest under the bytes of an uncompressed point. -/
def signatureHolds (key digest signature : List Byte) : Bool :=
  decide (key.head? = some 4) &&
    ecdsaHolds (beNat ((key.drop 1).take 48)) (beNat ((key.drop 49).take 48)) (beNat digest) (beNat (signature.take 48)) (beNat ((signature.drop 48).take 48))

end Sys2Proof.Machine
end

