-- ==== Sys2Proof/Machine/Riders.lean ====
section
/-!
DEFINITION. Chapter 9: the microwords, and the commands and events of a rider.
-/

namespace Sys2Proof.Machine

open Sys2Proof

/-- The words of an op. -/
def isOp (op : Nat) (w : MicroWord) : Bool := decide (Mw.op w = op)

/-- The words of an op with a sub-operation. -/
def isSub (op sub : Nat) (w : MicroWord) : Bool := decide (Mw.op w = op) && decide (Mw.sub w = sub)

def execNop (r : RiderId) (u : Run) (s : State) : Res := .next (execWord (isOp 0x00) r u s)

def execAlu (r : RiderId) (u : Run) (s : State) : Res := .next (execWord (isOp 0x01) r u s)

def execTime (r : RiderId) (u : Run) (s : State) : Res := .next (execWord (isOp 0x02) r u s)

def execTake (r : RiderId) (u : Run) (s : State) : Res := .next (execWord (isOp 0x03) r u s)

def execPush (r : RiderId) (u : Run) (s : State) : Res := .next (execWord (isOp 0x04) r u s)

def execPop (r : RiderId) (u : Run) (s : State) : Res := .next (execWord (isOp 0x05) r u s)

def execIrq (r : RiderId) (u : Run) (s : State) : Res := .next (execWord (isOp 0x06) r u s)

def execShotBegin (r : RiderId) (u : Run) (s : State) : Res := .next (execWord (isSub 0x07 0) r u s)

def execShotEnd (r : RiderId) (u : Run) (s : State) : Res := .next (execWord (isSub 0x07 1) r u s)

def execVstart (r : RiderId) (u : Run) (s : State) : Res := .next (execWord (isOp 0x08) r u s)

def execVloadalt (r : RiderId) (u : Run) (s : State) : Res := .next (execWord (isOp 0x09) r u s)

def execVselalt (r : RiderId) (u : Run) (s : State) : Res := .next (execWord (isOp 0x0A) r u s)

def execVbranch (r : RiderId) (u : Run) (s : State) : Res := .next (execWord (isOp 0x0B) r u s)

def execVbreak (r : RiderId) (u : Run) (s : State) : Res := .next (execWord (isOp 0x0C) r u s)

def execVstop (r : RiderId) (u : Run) (s : State) : Res := .next (execWord (isOp 0x0D) r u s)

def execFork (r : RiderId) (u : Run) (s : State) : Res := .next (execWord (isOp 0x0E) r u s)

def execVtune (r : RiderId) (u : Run) (s : State) : Res := .next (execWord (isOp 0x0F) r u s)

def execFluxDcGoal (r : RiderId) (u : Run) (s : State) : Res := .next (execWord (isSub 0x10 0) r u s)

def execFluxFastCode (r : RiderId) (u : Run) (s : State) : Res := .next (execWord (isSub 0x10 1) r u s)

def execFluxDcCode (r : RiderId) (u : Run) (s : State) : Res := .next (execWord (isSub 0x10 2) r u s)

def execOpen (r : RiderId) (u : Run) (s : State) : Res := .next (execWord (isOp 0x11) r u s)

/-- EMIT with sub 0 or 2; sub 1 is EMIT_RELAY. -/
def execEmit (r : RiderId) (u : Run) (s : State) : Res := .next (execWord (fun w => isSub 0x12 0 w || isSub 0x12 2 w) r u s)

def execEmitRelay (r : RiderId) (u : Run) (s : State) : Res := .next (execWord (isSub 0x12 1) r u s)

def execFfSet (r : RiderId) (u : Run) (s : State) : Res := .next (execWord (isSub 0x13 0) r u s)

def execFfClear (r : RiderId) (u : Run) (s : State) : Res := .next (execWord (isSub 0x13 1) r u s)

def execCtrig (r : RiderId) (u : Run) (s : State) : Res := .next (execWord (isOp 0x14) r u s)

def execWaitConditionTrue (r : RiderId) (u : Run) (s : State) : Res := .next (waitTrue r u s)

def execWaitDeadline (r : RiderId) (s : State) : Res := .next (deadlineReached r s)

def execPostGranted (r : RiderId) (s : State) : Res := .next (grantHeld r s)

def execRiderRelease (r : RiderId) (s : State) : Res := .next (releaseRider r s)

/-- What refuses RH_CMD START (Table 09-13). -/
def startCode (s : State) (r : RiderId) : Option Code :=
  if (getStall s r.stall).life = .riding ∧ (getRider s r).state = .stopped then none else some 0x1704

def execRiderStart (f : Func) (r : RiderId) (s : State) : Res :=
  .next (hostCheck f (.rider r .cmd) (fun s => startCode s r) (modRider r fun x => { x with release := true }) s)

def execRiderStop (f : Func) (r : RiderId) (s : State) : Res := .next (hostWrite f (.rider r .cmd) (askStop r .other) s)

/-- SPUR (R404, R405): pending until the rider's next boundary, or taken at once while it waits. -/
def spurRider (r : RiderId) (s : State) : State :=
  sampleFaults r (modRider r (fun x => { x with fault := { x.fault with pend := { x.fault.pend with spur := true } } }) s)

def execSpur (f : Func) (r : RiderId) (s : State) : Res := .next (hostWrite f (.rider r .cmd) (spurRider r) s)

/-- The microword that a write to word 7 commits (R412): held words, and the words in force where none is held. -/
def commitWord (s : State) (n : StallId) (a : Nat) (last : Word) : MicroWord :=
  let old : MicroWord := tabGet 0 s.store (n.val * 65536 + a)
  let w (k : Nat) : Word := tabGet (bits old (32 * k) 32) s.held (regAddr (.store n ⟨(a * 8 + k) % 524288, Nat.mod_lt _ (by omega)⟩))
  last ++ w 6 ++ w 5 ++ w 4 ++ w 3 ++ w 2 ++ w 1 ++ w 0

/-- What discards a commit (R413). -/
def storeCode (f : Func) (s : State) (n : StallId) (a : Nat) (w : MicroWord) : Option Code :=
  let addr : BitVec 16 := BitVec.ofNat 16 a
  let stable := decide (a < 0x4000)
  let own := regionOwner s n addr
  let region := if stable then 0 else own.getD 0
  let foreign := stable || decide (own ≠ some f.owner)
  let running := (stallRiders n).any fun r => decide (riderOwner s r = region) && decide ((getRider s r).state ≠ .stopped)
  if f.val ≠ 0 ∧ foreign then some 0x1702
  else if (getStall s n).life ≠ .harnessed ∧ running then some 0x1701
  else staticCode s n region stable w

/-- The held words of a microword are used up. -/
def dropWords (n : StallId) (a : Nat) (s : State) : State :=
  forEach (List.range 7) (fun k s => dropHeld (.store n ⟨(a * 8 + k) % 524288, Nat.mod_lt _ (by omega)⟩) s) s

/-- CONTROL_STORE_WRITE (R412, R413): words 0 to 6 are held, word 7 commits. -/
def storeWrite (f : Func) (n : StallId) (w : Fin 524288) (val : Word) (s : State) : State :=
  let a := w.val / 8
  if w.val % 8 = 7 then
    let mw := commitWord s n a val
    let t := dropWords n a s
    match storeCode f s n a mw with
    | some c => refuseReg f (.store n w) c t
    | none => setStore (fun m => memSet 0 m (n.val * 65536 + a) mw) t
  else holdWord (.store n w) val s

def execControlStoreWrite (f : Func) (n : StallId) (w : Fin 524288) (val : Word) (s : State) : Res :=
  .next (hostWrite f (.store n w) (storeWrite f n w val) s)

/-- The register of a rider register write. -/
def riderReg : RiderReg → RhReg
  | .l k => .l k
  | .tLo n => .tLo n
  | .tHi n => .tHi n

/-- A write to a work or time register takes effect while the rider is STOPPED; a time register's low word is held (R22, R414). -/
def setRiderReg (r : RiderId) (reg : RiderReg) (val : Word) (s : State) : State :=
  match reg with
  | .l k => modRider r (setWork k.val val) s
  | .tLo n => holdWord (.rider r (.tLo n)) val s
  | .tHi n =>
    let lo := heldWord (.rider r (.tLo n)) (bits (timeReg (getRider s r) n.val) 0 32) s
    dropHeld (.rider r (.tLo n)) (modRider r (setTimeReg n.val (val ++ lo)) s)

def execRiderRegisterWrite (f : Func) (r : RiderId) (reg : RiderReg) (val : Word) (s : State) : Res :=
  .next (hostCheck f (.rider r (riderReg reg)) (fun s => if (getRider s r).state = .stopped then none else some 0x1703)
    (setRiderReg r reg val) s)

def execRhHandlerWrite (f : Func) (r : RiderId) (val : Word) (s : State) : Res :=
  .next (hostCheck f (.rider r .handler)
    (fun s => if addressOk s r.stall (riderOwner s r) (bits val 0 16) then none else some 0x1705)
    (modRider r fun x => { x with fault := { x.fault with handler := bits val 0 16 } }) s)

end Sys2Proof.Machine
end

