-- ==== Sys2Proof/Machine/Sha.lean ====
section
/-!
DEFINITION. SHA-384 (FIPS 180-4), the digest of images, keys and sections (R124 to R127, R153).
-/

namespace Sys2Proof.Machine

open Sys2Proof

namespace Sha

/-- Round constants 0 to 19. -/
def consts0 : List Nat :=
  [ 0x428A2F98D728AE22, 0x7137449123EF65CD, 0xB5C0FBCFEC4D3B2F, 0xE9B5DBA58189DBBC
  , 0x3956C25BF348B538, 0x59F111F1B605D019, 0x923F82A4AF194F9B, 0xAB1C5ED5DA6D8118
  , 0xD807AA98A3030242, 0x12835B0145706FBE, 0x243185BE4EE4B28C, 0x550C7DC3D5FFB4E2
  , 0x72BE5D74F27B896F, 0x80DEB1FE3B1696B1, 0x9BDC06A725C71235, 0xC19BF174CF692694
  , 0xE49B69C19EF14AD2, 0xEFBE4786384F25E3, 0x0FC19DC68B8CD5B5, 0x240CA1CC77AC9C65 ]

/-- Round constants 20 to 39. -/
def consts1 : List Nat :=
  [ 0x2DE92C6F592B0275, 0x4A7484AA6EA6E483, 0x5CB0A9DCBD41FBD4, 0x76F988DA831153B5
  , 0x983E5152EE66DFAB, 0xA831C66D2DB43210, 0xB00327C898FB213F, 0xBF597FC7BEEF0EE4
  , 0xC6E00BF33DA88FC2, 0xD5A79147930AA725, 0x06CA6351E003826F, 0x142929670A0E6E70
  , 0x27B70A8546D22FFC, 0x2E1B21385C26C926, 0x4D2C6DFC5AC42AED, 0x53380D139D95B3DF
  , 0x650A73548BAF63DE, 0x766A0ABB3C77B2A8, 0x81C2C92E47EDAEE6, 0x92722C851482353B ]

/-- Round constants 40 to 59. -/
def consts2 : List Nat :=
  [ 0xA2BFE8A14CF10364, 0xA81A664BBC423001, 0xC24B8B70D0F89791, 0xC76C51A30654BE30
  , 0xD192E819D6EF5218, 0xD69906245565A910, 0xF40E35855771202A, 0x106AA07032BBD1B8
  , 0x19A4C116B8D2D0C8, 0x1E376C085141AB53, 0x2748774CDF8EEB99, 0x34B0BCB5E19B48A8
  , 0x391C0CB3C5C95A63, 0x4ED8AA4AE3418ACB, 0x5B9CCA4F7763E373, 0x682E6FF3D6B2B8A3
  , 0x748F82EE5DEFB2FC, 0x78A5636F43172F60, 0x84C87814A1F0AB72, 0x8CC702081A6439EC ]

/-- Round constants 60 to 79. -/
def consts3 : List Nat :=
  [ 0x90BEFFFA23631E28, 0xA4506CEBDE82BDE9, 0xBEF9A3F7B2C67915, 0xC67178F2E372532B
  , 0xCA273ECEEA26619C, 0xD186B8C721C0C207, 0xEADA7DD6CDE0EB1E, 0xF57D4F7FEE6ED178
  , 0x06F067AA72176FBA, 0x0A637DC5A2C898A6, 0x113F9804BEF90DAE, 0x1B710B35131C471B
  , 0x28DB77F523047D84, 0x32CAAB7B40C72493, 0x3C9EBE0A15C9BEBC, 0x431D67C49C100D4C
  , 0x4CC5D4BECB3E42B6, 0x597F299CFC657E2A, 0x5FCB6FAB3AD6FAEC, 0x6C44198C4A475817 ]

/-- The 80 round constants. -/
def consts : List Nat := consts0 ++ consts1 ++ consts2 ++ consts3

/-- The eight working words. -/
structure Work where
  a : Nat
  b : Nat
  c : Nat
  d : Nat
  e : Nat
  f : Nat
  g : Nat
  h : Nat
  deriving DecidableEq, Repr

/-- The initial hash value of SHA-384. -/
def start : Work :=
  { a := 0xCBBB9D5DC1059ED8, b := 0x629A292A367CD507, c := 0x9159015A3070DD17, d := 0x152FECD8F70E5939
    e := 0x67332667FFC00B31, f := 0x8EB44A8768581511, g := 0xDB0C2E0D64F98FA7, h := 0x47B5481DBEFA4FA4 }

/-- A word turned right by n places.  Words are numbers below 2 ^ 64 here. -/
def rotr (n x : Nat) : Nat := x >>> n ||| (x % 2 ^ n) <<< (64 - n)

/-- The functions of the compression. -/
def bigA (x : Nat) : Nat := rotr 28 x ^^^ rotr 34 x ^^^ rotr 39 x
def bigE (x : Nat) : Nat := rotr 14 x ^^^ rotr 18 x ^^^ rotr 41 x
def smallA (x : Nat) : Nat := rotr 1 x ^^^ rotr 8 x ^^^ x >>> 7
def smallB (x : Nat) : Nat := rotr 19 x ^^^ rotr 61 x ^^^ x >>> 6

/-- The message schedule: `k` further words after the 16 of a block, the newest first. -/
def schedule : Nat → List Nat → List Nat
  | 0, l => l
  | k + 1, l =>
    let w (i : Nat) : Nat := l.getD (i - 1) 0
    schedule k ((smallB (w 2) + w 7 + smallA (w 15) + w 16) % 2 ^ 64 :: l)

/-- One round, with its constant and its word of the schedule. -/
def round (v : Work) (kw : Nat × Nat) : Work :=
  let t1 := v.h + bigE v.e + ((v.e &&& v.f) ^^^ ((2 ^ 64 - 1 - v.e) &&& v.g)) + kw.1 + kw.2
  let t2 := bigA v.a + ((v.a &&& v.b) ^^^ (v.a &&& v.c) ^^^ (v.b &&& v.c))
  { a := (t1 + t2) % 2 ^ 64, b := v.a, c := v.b, d := v.c, e := (v.d + t1) % 2 ^ 64, f := v.e, g := v.f, h := v.g }

/-- A block of 16 words enters the hash value. -/
def compress (v : Work) (block : List Nat) : Work :=
  let w := (consts.zip (schedule 64 block.reverse).reverse).foldl round v
  let add (x y : Nat) : Nat := (x + y) % 2 ^ 64
  { a := add v.a w.a, b := add v.b w.b, c := add v.c w.c, d := add v.d w.d, e := add v.e w.e, f := add v.f w.f, g := add v.g w.g, h := add v.h w.h }

/-- Big-endian words of 64 bits. -/
def words : Nat → List Byte → List Nat
  | 0, _ => []
  | k + 1, l => (l.take 8).foldl (fun acc b => acc * 256 + b.toNat) 0 :: words k (l.drop 8)

/-- The padding of a message of `n` bytes. -/
def padding (n : Nat) : List Byte :=
  let zeros := (239 - n % 128) % 128
  0x80 :: (List.replicate zeros 0 ++ (List.range 16).map fun i => BitVec.ofNat 8 (8 * n / 256 ^ (15 - i)))

/-- The blocks of a padded message. -/
def blocks : Nat → List Nat → Work → Work
  | 0, _, v => v
  | k + 1, ws, v => blocks k (ws.drop 16) (compress v (ws.take 16))

/-- The 48 bytes of the digest, in order. -/
def bytes (l : List Byte) : List Byte :=
  let m := l ++ padding l.length
  let v := blocks (m.length / 128) (words (m.length / 8) m) start
  [v.a, v.b, v.c, v.d, v.e, v.f].flatMap fun w => (List.range 8).map fun i => BitVec.ofNat 8 (w / 256 ^ (7 - i))

end Sha

/-- The SHA-384 digest of a run of bytes, its first byte lowest. -/
def sha384 (l : List Byte) : BitVec 384 := BitVec.ofNat 384 (leNat (Sha.bytes l))

end Sys2Proof.Machine
end

