-- ==== Sys2Proof/Machine/ImageOps.lean ====
section
/-!
DEFINITION. The checks of the tack image loader, phases 1 to 4 of Table 03-7 (R120 to R143, R390 to R392, R474, R481, R619, R699, R724, R734).
-/

namespace Sys2Proof.Machine

open Sys2Proof

/-! ## Bytes of an image (Tables 03-1 and 03-2) -/

/-- The first byte of the image that the loader reads: a staging slot, or a place in the boot flash. -/
def imageBase (s : State) : Nat :=
  if s.tack.flash then (match s.tack.run with | some (.loadStall n) => (n.val + 1) * 0x4000000 | _ => 0)
  else s.tack.slot.val * 0x4000000

/-- A run of bytes of the image. -/
def imageBytes (s : State) (off n : Nat) : List Byte :=
  memRead 0 (if s.tack.flash then s.persist.flash else s.hbm) (imageBase s + off) n

/-- A little-endian field of the image. -/
def imageField (s : State) (off n : Nat) : Nat := leNat (imageBytes s off n)

/-- The header (Table 03-1). -/
def readHeader (s : State) : Header :=
  { magic := BitVec.ofNat 32 (imageField s 0x00 4), format := BitVec.ofNat 16 (imageField s 0x04 2), kind := BitVec.ofNat 8 (imageField s 0x06 1)
    target := BitVec.ofNat 8 (imageField s 0x07 1), tag := BitVec.ofNat 16 (imageField s 0x08 2)
    secVersion := BitVec.ofNat 16 (imageField s 0x0A 2), length := BitVec.ofNat 32 (imageField s 0x0C 4)
    sections := BitVec.ofNat 16 (imageField s 0x10 2), flags := BitVec.ofNat 16 (imageField s 0x12 2)
    herdTag := BitVec.ofNat 16 (imageField s 0x14 2), herdDigest8 := BitVec.ofNat 64 (imageField s 0x18 8)
    keySlot := BitVec.ofNat 8 (imageField s 0x20 1), ibvex := BitVec.ofNat 32 (imageField s 0x24 4) }

/-- Directory entry i (Table 03-2). -/
def readEntry (s : State) (i : Nat) : DirEntry :=
  let o := 128 + 16 * i
  { type := BitVec.ofNat 8 (imageField s o 1), attr := BitVec.ofNat 8 (imageField s (o + 1) 1), offset := BitVec.ofNat 32 (imageField s (o + 4) 4)
    size := BitVec.ofNat 32 (imageField s (o + 8) 4), crc := BitVec.ofNat 32 (imageField s (o + 12) 4) }

/-- The directory. -/
def readDir (s : State) (h : Header) : List DirEntry := (List.range h.sections.toNat).map (readEntry s)

/-- The length of the staged image, as its TACK_SLOTn_LEN stood when the command was accepted (log entry 159); an image in the flash has the length of
its header. -/
def imageLength (s : State) (h : Header) : Nat := if s.tack.flash then h.length.toNat else s.tack.len.toNat

/-! ## Phase 1 (R136) -/

/-- A flaw where a condition holds. -/
def flawIf (b : Bool) (f : Flaw) : Option Flaw := if b then some f else none

/-- The first flaw of a list of checks. -/
def firstFlaw (l : List (Option Flaw)) : Option Flaw := l.findSome? id

/-- The limit of R141 in bytes: for a CHECK, that of the header's kind. -/
def lengthLimit (op : TackOp) (h : Header) : Nat :=
  match op with
  | .loadStall _ => 0x4000000
  | .check _ => if h.kind = 2 then 0x4000000 else 0x2000000
  | _ => 0x2000000

/-- Kind and target match the command. -/
def kindMatches (op : TackOp) (h : Header) : Bool :=
  let stall (n : StallId) : Bool := decide (h.kind = 2) && decide (h.target.toNat = n.val)
  let whole (k : BitVec 8) : Bool := decide (h.kind = k) && decide (h.target = 0xFF)
  match op with
  | .loadStall n => stall n
  | .loadHerd => whole 1
  | .loadHub => whole 3
  | .check n => stall n || whole 1 || whole 3

/-- The target's state permits the load (R143), which the loader asks at the start and again at the start of commit. -/
def stateFits (op : TackOp) (s : State) : Bool :=
  match op with
  | .loadStall n => decide (lifeOf n s = .stabled) || decide (lifeOf n s = .harnessed)
  | .loadHerd => (List.finRange 8).all fun n => decide (lifeOf n s = .off) || decide (lifeOf n s = .stabled)
  | _ => true

/-- The herd reference matches the herd image in force (R119). -/
def herdMatches (s : State) (h : Header) : Bool :=
  decide (h.kind = 1) ||
    (s.herdImage.isSome && decide (h.herdTag = s.tack.herdTag) && decide (h.herdDigest8 = bits s.tack.herdDigest 0 64))

/-- The security floor of an image's kind (R129). -/
def floorFor (s : State) (h : Header) : BitVec 16 := if h.kind = 2 then s.persist.keys.floorStall else s.persist.keys.floorHerd

/-- The first directory entry that extends beyond the image. -/
def beyond (d : List DirEntry) (len : Nat) : Option Nat := d.findIdx? fun e => decide (len < e.offset.toNat + e.size.toNat)

/-- Phase 1. -/
def headerFlaw (s : State) (op : TackOp) (h : Header) (d : List DirEntry) : Option Flaw :=
  let len := imageLength s h
  let f (code : Code) (at_ : Nat) : Flaw := { phase := 1, code, section_ := at_ }
  firstFlaw
    [ flawIf (len == 0 || decide (lengthLimit op h < len)) (f 0x1D41 0)
    , flawIf (h.magic != 0x4B434154 || h.format != 1 || h.sections == 0 || decide (64 < h.sections.toNat)
        || decide (len < 128 + 16 * h.sections.toNat)) (f 0x1D42 0)
    , (beyond d len).map (f 0x1D42)
    , flawIf (h.length.toNat != len) (f 0x1D41 0)
    , flawIf (!kindMatches op h) (f 0x1D43 0)
    , flawIf (h.tag == 0) (f 0x1D49 0)
    , flawIf (!s.tack.fits) (f 0x1D44 0)
    , flawIf (!herdMatches s h) (f 0x1D4A 0)
    , flawIf (decide (h.secVersion < floorFor s h)) (f 0x1D4C 0) ]

/-! ## Phase 2 (R124 to R127) -/

/-- Key slot k of a key store. -/
def keySlot (k : KeyStore) (i : Nat) : KeySlot :=
  match i with | 0 => k.slot0 | 1 => k.slot1 | 2 => k.slot2 | 3 => k.slot3 | _ => .empty

/-- The image digest: SHA-384 over every byte before the signature block. -/
def imageDigest (s : State) (h : Header) : BitVec 384 := sha384 (imageBytes s 0 (h.length.toNat - 256))

/-- The digest of the public key in the signature block. -/
def signerDigest (s : State) (h : Header) : BitVec 384 := sha384 (imageBytes s (h.length.toNat - 256) 97)

/-- The index of a section in the directory, or 0. -/
def sectionIndex (d : List DirEntry) (type : BitVec 8) : Nat := (d.findIdx? fun e => e.type == type).getD 0

/-- The bytes of a digest, first byte lowest. -/
def digestBytes (d : BitVec 384) : List Byte := (List.range 48).map fun k => bits d (8 * k) 8

/-- The signature of the signature block holds over the image digest (R124). -/
def signatureOk (s : State) (h : Header) : Bool :=
  signatureHolds (imageBytes s (h.length.toNat - 256) 97) (digestBytes (imageDigest s h)) (imageBytes s (h.length.toNat - 159) 96)

/-- Gorbor's signature, the last 96 bytes of a STABLE section, holds over the rest of it (R125). -/
def stableOk (s : State) (e : DirEntry) : Bool :=
  let n := e.size.toNat - 96
  let sig := imageBytes s (e.offset.toNat + n) 96
  decide (96 ≤ e.size.toNat) &&
    ecdsaHolds s.persist.romKeyX.toNat s.persist.romKeyY.toNat
      (beNat (digestBytes (sha384 (imageBytes s e.offset.toNat n)))) (beNat (sig.take 48)) (beNat (sig.drop 48))

/-- Phase 2: the image's signature, then those of its STABLE sections. -/
def signatureFlaw (s : State) (h : Header) (d : List DirEntry) : Option Flaw :=
  firstFlaw
    [ flawIf (keySlot s.persist.keys h.keySlot.toNat != .enrolled (signerDigest s h) || !signatureOk s h)
        { phase := 2, code := 0x1D45, object := object 9 h.keySlot.toNat }
    , flawIf (h.kind == 2 && d.any fun e => e.type == 0x22 && !stableOk s e) { phase := 2, code := 0x1D46, section_ := sectionIndex d 0x22 } ]

/-! ## Phase 3 (R121, R122) -/

/-- Table 03-3: whether a section of a type is required (true) or optional (false) in an image of a kind; none where it is forbidden. -/
def presence (kind : BitVec 8) (type : Nat) : Option Bool :=
  let req : List Nat := match kind with
    | 1 => [0x01, 0x10, 0x11, 0x12, 0x13, 0x14, 0x15]
    | 2 => [0x01, 0x20, 0x21, 0x22, 0x24, 0x25, 0x26, 0x27, 0x28, 0x29, 0x2A]
    | _ => [0x01, 0x10]
  let opt : List Nat := match kind with
    | 1 => [0x16, 0x17]
    | 2 => [0x23, 0x2B, 0x2C]
    | _ => []
  if req.contains type then some true else if opt.contains type then some false else none

/-- Entry i breaks a rule of the directory: its type, a second section of it, its offset, its place. -/
def entryBad (h : Header) (d : List DirEntry) (i : Nat) (e : DirEntry) : Bool :=
  let before := d.take i
  let from_ := match before.getLast? with | some p => p.offset.toNat + p.size.toNat | none => 128 + 16 * d.length
  let last := match before.getLast? with | some p => p.offset.toNat + 1 | none => 0
  (presence h.kind e.type.toNat).isNone || before.any (fun p => p.type == e.type) || decide (e.offset.toNat % 64 ≠ 0)
    || decide (e.offset.toNat < from_) || decide (e.offset.toNat < last) || decide (h.length.toNat < e.offset.toNat + e.size.toNat + 256)

/-- The lowest required type that the directory does not list. -/
def missingType (h : Header) (d : List DirEntry) : Option Nat :=
  (List.range 0x30).find? fun t => decide (presence h.kind t = some true) && !d.any fun e => decide (e.type.toNat = t)

/-- A 32-byte block of the slot holds a double-bit error (R485). -/
def sectionBad (s : State) (e : DirEntry) : Bool :=
  !s.tack.flash && s.tack.badBlocks.any fun b =>
    decide (imageBase s + e.offset.toNat < b * 32 + 32) && decide (b * 32 < imageBase s + e.offset.toNat + e.size.toNat)

/-- A section's CRC-32 fails. -/
def crcBad (s : State) (e : DirEntry) : Bool := sectionBad s e || crc32 (imageBytes s e.offset.toNat e.size.toNat) != e.crc

/-- Phase 3: R121's rules before R122's missing section, both 0x1D48 (log entry 160), then CRC-32. -/
def directoryFlaw (s : State) (h : Header) (d : List DirEntry) : Option Flaw :=
  firstFlaw
    [ (d.zipIdx.find? fun e => entryBad h d e.2 e.1).map fun e => { phase := 3, code := 0x1D48, section_ := e.2 }
    , (missingType h d).map fun t => { phase := 3, code := 0x1D48, section_ := d.length, aux := some t }
    , (d.zipIdx.find? fun e => crcBad s e.1).map fun e => { phase := 3, code := 0x1D47, section_ := e.2 } ]

/-! ## Phase 4: what every section shares -/

/-- Object words of a stall's voice, channel, line and rider (Table 03-11). -/
def stallObject (kind : Nat) (n : StallId) (i : Nat) : Word := object kind (n.val * 64 + i)

/-- The first object of a table, in ascending index, that has a flaw (R140): one that the section binds twice has one of its own (0x1D4D). -/
def firstIn {α : Type} (t : Tab α) (obj : Nat → Word) (f : Nat → α → List (Option Flaw)) : Option Flaw :=
  match t with
  | [] => none
  | e :: rest =>
    ((flawIf (rest.head?.any fun u => u.1 == e.1) { code := 0x1D4D, object := obj e.1 }).or (firstFlaw (f e.1 e.2))).or (firstIn rest obj f)

/-- Of two flaws, that of the object with the lower index (R140). -/
def earlier : Option Flaw → Option Flaw → Option Flaw
  | some a, some b => some (if b.object < a.object then b else a)
  | a, b => a.or b

/-- An index that its table does not have (0x1D4D). -/
def outside (n : Nat) (obj : Nat → Word) (k : Nat) : Option Flaw := flawIf (decide (n ≤ k)) { code := 0x1D4D, object := obj k }

/-- An object that no kind of Table 03-11 names. -/
def noObject (_ : Nat) : Word := 0

/-- The numbers of a list do not fall. -/
def rises : List Nat → Bool
  | a :: b :: rest => decide (a ≤ b) && rises (b :: rest)
  | _ => true

/-- What the sections of a stall image say comes in ascending index, object by object (R140). -/
def stallOrdered (i : StallImage) : Bool :=
  [ i.voices.map (·.1), i.chans.map (·.1), i.lines.map (·.1), i.riders.map (·.1), i.markers.map (·.1), i.queues.map (·.1), i.blocks.map (·.1)
  , i.groups.map (·.1), i.library.map (·.1), i.descs.map (·.1), i.watch.map (·.1), i.program.regions.map (·.first), i.program.paddock.map (·.1)
  , i.program.stable.map (·.1), i.node.cells.map (·.1), i.node.comparators.map (·.1), i.node.uses.map (·.1.toNat)
  , i.node.markers.map fun m => (if m.probe then 256 else 0) + m.voice.val * 4 + m.bit.val ].all rises

/-- The same of the sections of a herd image. -/
def herdOrdered (i : HerdImage) : Bool :=
  [ i.chans.map (·.1), i.lanes.map (·.1), i.routes.map (·.1), i.queueRoutes.map (·.1), i.quotas.map (·.1), i.vectors.map (·.1), i.watch.map (·.1)
  , i.hub.cells.map (·.1), i.hub.comparators.map (·.1), i.hub.pulses.map (·.1) ].all rises

/-- What an image says comes in ascending index: the loader takes it so. -/
def bodyOrdered : ImageBody → Bool
  | .herd i => herdOrdered i
  | .stall i => stallOrdered i
  | .hub i => [i.cells.map (·.1), i.comparators.map (·.1), i.pulses.map (·.1)].all rises

/-- An attribute that OWNERS or CHANNELS gives does not follow from the owner (R130). -/
def attrBad (o : Owner) (a : Option SecAttr) : Bool :=
  a.any fun a => decide (a ≠ (if o.val = 0 then SecAttr.sys else if o.val = 15 then .seal else .ten))

/-- The object of an owner has it from 0 to 14, with the attribute that follows (R132). -/
def ownerBad (o : Owner) (a : Option SecAttr) : Bool := decide (o.val = 15) || attrBad o a

/-- A producer of an owner may produce into a channel (R132): it is of owner 0, or of the channel's owner. -/
def mayProduce (c : State) (o : Owner) (e : ReinChan) : Bool := decide (o.val = 0) || decide ((chanAttr c e).owner = o)

/-- A consumer of an owner may consume from a channel (R132). -/
def mayRead (c : State) (o : Owner) (e : ReinChan) : Bool :=
  mayProduce c o e || (decide ((chanAttr c e).owner.val = 0) && (chanAttr c e).ten)

/-- A SEAL channel named (R131), then an owner that may not use it. -/
def chanFlaws (e : ReinChan) (ok : Bool) (obj : Word) : List (Option Flaw) :=
  [ flawIf (decide (4064 ≤ e.toNat)) { code := 0x1642, object := object 2 e.toNat }, flawIf (!ok) { code := 0x1D50, object := obj } ]

/-- The owner of a queue's port, where an image in force or under check gives it one (R132, R734). -/
def portOwner (c : State) : QPort → Option Owner
  | .rider r => if hasImage c r.stall then some (riderBind c r).owner else none
  | .slice n k => if hasImage c n then some (acqOwner c n k) else none
  | .voice v => if hasImage c v.stall then some (voiceBind c v).owner else none
  | .host => none
  | .tether _ => none

/-- A port may use a queue of an owner: it has the owner, or owner 0. -/
def portFits (c : State) (p : QPort) (o : Owner) : Bool :=
  match portOwner c p with | some x => decide (x.val = 0) || decide (x = o) | none => true

/-- A port may use a queue, as far as an image allocates it (R734). -/
def refFits (c : State) (p : QPort) (q : QueueId) : Bool :=
  match queueAlloc c q with | some a => portFits c p a.owner | none => true

/-- The queues of other stalls' objects that an image names, with the port that names each: producers, result queues, shot queues. -/
def imageRefs (n : StallId) (i : StallImage) : List (QPort × QueueId) :=
  let results := i.chans.filterMap fun e => e.2.resultQ.bind fun q => (fin? 5 e.2.slice.toNat).map fun k => (QPort.slice n k, q)
  let shots := i.riders.filterMap fun e => e.2.shotQ.bind fun q => (fin? 16 e.1).map fun h => (QPort.rider ⟨n, h⟩, q)
  i.produces ++ results ++ shots

/-- A domain of the stall that STALL_POWER leaves off (R619). -/
def leftOff (i : StallImage) (k : Nat) : Bool := !bit i.power k

/-! ## The loop check (R137) -/

/-- The number of a cell in the loop check: 256 for each stall, then the hub. -/
def loopNode (c : State) : List (Nat × Nat × CellImage) :=
  ((List.finRange 8).flatMap fun n => (imageOf c n).node.cells.map fun e => (n.val * 256 + e.1, n.val * 256, e.2))
    ++ (hubWiring c).cells.map fun e => (2048 + e.1, 2048, e.2)

/-- A source of a cell's input is another cell: by its output or its flip-flop in the same node or plane, or over the channel it issues on, within that
node or within the hub; a connection between a node and the hub closes no cycle that R137 refuses (R358, log entry 157). -/
def readsCell (ff : Bool) (u v : Nat × Nat × CellImage) : CellSource → Bool
  | .cell b => decide (v.2.1 + b = u.1) && decide (u.2.1 = v.2.1)
  | .flipFlop b => ff && decide (v.2.1 + b = u.1) && decide (u.2.1 = v.2.1)
  | .chan e => u.2.2.chan == some e && decide (u.2.1 = v.2.1)
  | .const _ => false

/-- A cell feeds another; `ff` says that its flip-flop counts too. -/
def feeds (ff : Bool) (u v : Nat × Nat × CellImage) : Bool := v.2.2.inputs.any fun i => readsCell ff u v i.source

/-- Drop, again and again, cells that no cell left feeds or that feed no cell left. -/
def peel (edges : List (Nat × Nat)) : Nat → List Nat → List Nat
  | 0, l => l
  | k + 1, l =>
    peel edges k (l.filter fun x =>
      (edges.any fun e => e.2 == x && l.contains e.1) && (edges.any fun e => e.1 == x && l.contains e.2))

/-- The connections between the used cells of a list. -/
def cellEdges (ff : Bool) (cells : List (Nat × Nat × CellImage)) : List (Nat × Nat) :=
  cells.flatMap fun u => cells.filterMap fun v => if feeds ff u v then some (u.1, v.1) else none

/-- The cells that a list of cells reaches in at most k connections more. -/
def reach (edges : List (Nat × Nat)) : Nat → List Nat → List Nat
  | 0, l => l
  | k + 1, l => let more := ((edges.filter fun e => l.contains e.1).map (·.2)).eraseDups.filter fun x => !l.contains x; reach edges k (l ++ more)

/-- A cell lies on a cycle of connections. -/
def onCycle (edges : List (Nat × Nat)) (k x : Nat) : Bool := (reach edges k ((edges.filter fun e => e.1 == x).map (·.2))).contains x

/-- Cells on a cycle without a token flip-flop (R137). -/
def plainLoops (cells : List (Nat × Nat × CellImage)) : List Nat :=
  let plain := cells.filter fun x => !x.2.2.ffEn
  let edges := cellEdges false plain
  (peel edges plain.length (plain.map (·.1))).filter (onCycle edges plain.length)

/-- Cells whose joined input reads a cell with a flip-flop that they feed, within one cycle (R357): its flip-flop, or its output. -/
def joinedLoops (cells : List (Nat × Nat × CellImage)) : List Nat :=
  let edges := cellEdges true cells
  (cells.filter fun v =>
    let after := v.1 :: reach edges cells.length ((edges.filter fun e => e.1 == v.1).map (·.2))
    v.2.2.inputs.any fun i => i.joined && cells.any fun u => u.2.2.ffEn && readsCell true u v i.source && after.contains u.1).map (·.1)

/-- The cells that make the loader refuse a wiring with 0x1640 (R137, R357). -/
def loopCells (c : State) : List Nat :=
  let cells := (loopNode c).filter fun x => x.2.2.used
  plainLoops cells ++ joinedLoops cells

/-- The first cell of the image under check on a cycle: its B number. -/
def loopFlaw (c : State) (base size : Nat) : Option Flaw :=
  let l := loopCells c
  ((l.find? fun x => decide (base ≤ x) && decide (x < base + size)).or l.head?).map fun x =>
    let b := if x < 2048 then x % 256 else 1000 + (x - 2048)
    { code := 0x1640, object := object 3 b, aux := some b }

/-! ## Phase 4: sections of a stall image -/

/-- Two voices, or two channels, of one slice in one lane. -/
def laneTaken {α : Type} (t : Tab α) (place : Nat → α → Nat × Nat) (k : Nat) (a : α) : Bool :=
  t.any fun e => decide (e.1 < k) && place e.1 e.2 == place k a

/-- BIND. -/
def bindFlaw (c : State) (n : StallId) (i : StallImage) : Option Flaw :=
  let voicePlace (k : Nat) (v : VoiceBind) : Nat × Nat := ((k / 64) * 16 + v.slice.toNat, v.lane.toNat)
  let chanPlace (_ : Nat) (v : ChanBind) : Nat × Nat := (v.slice.toNat, v.lane.toNat)
  firstFlaw
    [ firstIn i.voices (fun k => stallObject 5 n (k % 64)) fun k v =>
        let o := stallObject 5 n (k % 64)
        let probe := decide (64 ≤ k)
        let slices := if probe then 4 else 8
        let per := if probe then 16 else 8
        [ flawIf (decide (128 ≤ k)) { code := 0x1D4D, object := o }
        , if v.slice = 0xF then none
          else firstFlaw
            [ flawIf (decide (slices ≤ v.slice.toNat) || decide (per ≤ v.lane.toNat) || laneTaken i.voices voicePlace k v) { code := 0x1D4D, object := o }
            , flawIf (leftOff i ((if probe then 11 else 2) + v.slice.toNat)) { code := 0x1D63, object := o } ] ]
    , firstIn i.chans (fun k => stallObject 6 n (k % 64)) fun k v =>
        let o := stallObject 6 n (k % 64)
        [ flawIf (decide (64 ≤ k)) { code := 0x1D4D, object := o }
        , if v.slice = 0xF then none
          else firstFlaw
            ([ flawIf (decide (4 ≤ v.slice.toNat) || laneTaken i.chans chanPlace k v || decide (v.klimit = 0) || decide (4096 < v.klimit))
                { code := 0x1D4D, object := o }
            , flawIf (leftOff i (16 + v.slice.toNat)) { code := 0x1D63, object := o } ]
            ++ if v.rein = 0xFFF then [] else chanFlaws v.rein (mayProduce c v.owner v.rein) o) ]
    , firstIn i.lines (fun k => stallObject 7 n (k % 64)) fun k _ => [ flawIf (decide (64 ≤ k)) { code := 0x1D4D, object := stallObject 7 n (k % 64) } ]
    , firstIn i.markers noObject fun k _ => [ outside 4 noObject k ] ]

/-- The first domain of a kind's slices. -/
def kindDomain : SliceKind → Nat
  | .drive => 2
  | .probe => 11
  | .acq => 16

/-- SPARE: a permit of a slice without power (R619), a standing takeover out of range or a second one of a spare. -/
def spareFlaw (i : StallImage) : Option Flaw :=
  let permits : List (Nat × Nat) := (List.range 8).map (fun k => (k, 2 + k)) ++ (List.range 4).map (fun k => (8 + k, 11 + k))
    ++ (List.range 4).map fun k => (12 + k, 16 + k)
  firstFlaw
    [ flawIf (permits.any fun p => bit i.policy p.1 && leftOff i p.2) { code := 0x1D63 }
    , flawIf (i.standing.any fun t => decide ((if t.1 = .drive then 8 else 4) ≤ t.2.toNat)) { code := 0x1D4D }
    , flawIf (i.standing.any fun t => decide (1 < (i.standing.filter fun u => u.1 == t.1).length)) { code := 0x1D4D }
    , flawIf (i.standing.any fun t => leftOff i (kindDomain t.1 + t.2.toNat)) { code := 0x1D63 } ]

/-- STABLE (R390): its words are checked for R391 and R392 only. -/
def stableFlaw (c : State) (n : StallId) (i : StallImage) : Option Flaw :=
  firstIn i.program.stable (object 8) fun a w =>
    [ flawIf (decide (0x4000 ≤ a)) { code := 0x1D4D, object := object 8 a }
    , (staticCode c n 0 true w).map fun code => { code, object := object 8 a } ]

/-- A paddock word names a SEAL channel (R131). -/
def namesSeal (w : MicroWord) : Bool := decide (Mw.op w = 0x12) && !Mw.objr w && decide (4064 ≤ (objRein (Mw.obj w)).toNat)

/-- A region of the paddock: words below 0x4000, then its place, size, owner and attribute, and a region that meets it. -/
def regionFlaw (rs : List Region) (r : Region) : Option Flaw :=
  let o := object 8 r.first
  let meets (q : Region) : Bool := decide (q.first < r.first + r.words) && decide (r.first < q.first + q.words)
  firstFlaw
    [ flawIf (decide (r.first < 0x4000) && decide (r.words ≠ 0)) { code := 0x1740, object := o }
    , flawIf (decide (r.words = 0) || decide (0x10000 < r.first + r.words) || decide (r.first % 1024 ≠ 0) || decide (r.words % 1024 ≠ 0)
        || ownerBad r.owner r.attr || decide (1 < (rs.filter meets).length)) { code := 0x1D50, object := o } ]

/-- PADDOCK (R132, R390): regions and words by address, a region before a word at its first address. -/
def paddockFlaw (c : State) (n : StallId) (i : StallImage) : Option Flaw :=
  let rs := i.program.regions
  earlier (rs.findSome? (regionFlaw rs)) <|
    firstIn i.program.paddock (object 8) fun a w =>
      let o := object 8 a
      [ flawIf (decide (a < 0x4000)) { code := 0x1740, object := o }
      , flawIf (decide (0xFFFF < a)) { code := 0x1D4D, object := o }
      , match regionOwner c n (BitVec.ofNat 16 a) with
        | none => some { code := 0x1D50, object := o }
        | some own =>
          if namesSeal w then some { code := 0x1642, object := o } else (staticCode c n own false w).map fun code => { code, object := o } ]

/-- An input reads a cell that its node or plane, of `size` cells, does not have. -/
def sourceOutside (size : Nat) (i : CellInput) : Bool :=
  match i.source with | .cell b => decide (size ≤ b) | .flipFlop b => decide (size ≤ b) | _ => false

/-- A cell's wiring: its inputs, the cells they read, its owner, the channels it reads and issues on. -/
def cellFlaws (c : State) (own : Owner) (size b : Nat) (x : CellImage) : List (Option Flaw) :=
  let o := object 3 b
  [ flawIf (decide (6 < x.inputs.length) || x.inputs.any (sourceOutside size)) { code := 0x1D4D, object := o }, flawIf (decide (own.val = 15)) { code := 0x1D50, object := o } ]
    ++ (match x.chan with | some e => chanFlaws e (mayProduce c own e) o | none => [])
    ++ x.inputs.flatMap fun i => match i.source with | .chan e => chanFlaws e (mayRead c own e) o | _ => []

/-- NODE (R131, R132, R137). -/
def nodeFlaw (c : State) (n : StallId) (i : StallImage) : Option Flaw :=
  let w := i.node
  firstFlaw
    [ firstIn w.cells (object 3) fun b x => outside 256 (object 3) b :: cellFlaws c x.owner 256 b x
    , w.markers.findSome? fun m =>
        let v : VoiceId := ⟨n, m.probe, m.voice⟩
        firstFlaw (chanFlaws m.chan (mayProduce c (voiceBind c v).owner m.chan) (reinObject m.chan))
    , firstIn w.comparators noObject fun k e => outside 10 noObject k :: chanFlaws e true (reinObject e)
    , (w.pace.toList.findSome? fun e => firstFlaw (chanFlaws e true (reinObject e)))
    , loopFlaw c (n.val * 256) 256 ]

/-- USES (R131, R132). -/
def usesFlaw (c : State) (i : StallImage) : Option Flaw :=
  i.node.uses.findSome? fun u => firstFlaw (chanFlaws u.1 (decide ((chanAttr c u.1).owner = u.2.1)) (reinObject u.1))

/-- QUEUES (R132, R138, R455, R456, R474, R475, R481, R734). -/
def queuesFlaw (c : State) (n : StallId) (i : StallImage) : Option Flaw :=
  let others := (List.finRange 8).flatMap fun m => if m = n then [] else imageRefs m (imageOf c m)
  let spill := (i.queues.map fun q => q.2.quota).sum
  let quota := tabGet 0 (herd c).quotas n.val
  firstFlaw
    [ earlier ((i.produces.find? fun r => !refFits c r.1 r.2).map fun r => { code := 0x1D50, object := queueObject r.2 }) <|
        firstIn i.queues (fun k => queueObject (BitVec.ofNat 14 (n.val * 2048 + k % 2048))) fun k a =>
        let q : QueueId := BitVec.ofNat 14 (n.val * 2048 + k % 2048)
        let o := queueObject q
        let granted := (a.prods.map (·.2)).sum
        [ flawIf (decide (2048 ≤ k) || decide (a.capacity % 64 ≠ 0) || decide (a.capacity < 64) || decide (16777216 < a.capacity)
            || a.prods.isEmpty || decide (16 < a.prods.length) || a.consumer.isNone) { code := 0x1D4D, object := o }
        , flawIf (ownerBad a.owner a.attr || !((a.prods.map (·.1) ++ a.consumer.toList).all fun p => portFits c p a.owner)
            || others.any fun r => decide (r.2 = q) && !portFits c r.1 a.owner) { code := 0x1D50, object := o }
        , flawIf (decide (a.capacity < granted)) { code := 0x1840, object := o, aux := some (granted - a.capacity) }
        , flawIf (decide (64 + 16384 * a.quota < a.capacity)) { code := 0x1842, object := o } ]
    , flawIf (decide (quota < spill)) { code := 0x1841, aux := some (spill - quota) } ]

/-- The owner of a source that a stall image decides (R699): a sum guard's slice or a rider. -/
def stallSourceOwner (c : State) (n : StallId) (lo : Nat) : Option (Owner × Word) :=
  if 0x20 ≤ lo ∧ lo < 0x30 then
    (fin? 16 (lo - 0x20)).map fun h => ((riderBind c ⟨n, h⟩).owner, riderObject ⟨n, h⟩)
  else if 0x02 ≤ lo ∧ lo < 0x0B then (fin? 9 (lo - 0x02)).map fun k => (sliceOwner c ⟨n, .drive, k⟩, 0)
  else if 0x0B ≤ lo ∧ lo < 0x10 then (fin? 9 (lo - 0x0B)).map fun k => (sliceOwner c ⟨n, .probe, k⟩, 0)
  else none

/-- A qubit position that an object of another owner serves (R132). -/
def positionTaken (i : StallImage) (p : Option (Fin 64)) (o : Owner) : Bool :=
  match p with
  | none => false
  | some p =>
    (i.voices.any fun e => e.2.pos == some p && e.2.owner != o) || (i.chans.any fun e => e.2.pos == some p && e.2.owner != o)
      || i.lines.any fun e => e.2.pos == some p && e.2.owner != o

/-- OWNERS (R132, R381, R392, R699, R734). -/
def ownersFlaw (c : State) (n : StallId) (i : StallImage) : Option Flaw :=
  let owned (kind k : Nat) (o : Owner) (a : Option SecAttr) (p : Option (Fin 64)) : List (Option Flaw) :=
    [ flawIf (ownerBad o a || positionTaken i p o) { code := 0x1D50, object := stallObject kind n (k % 64) } ]
  firstFlaw
    [ firstIn i.voices noObject fun k v => owned 5 k v.owner v.attr v.pos
    , firstIn i.chans noObject fun k v =>
        owned 6 k v.owner v.attr v.pos ++
          [ flawIf (match v.resultQ, fin? 5 v.slice.toNat with | some q, some a => !refFits c (.slice n a) q | _, _ => false)
              { code := 0x1D50, object := stallObject 6 n (k % 64) } ]
    , firstIn i.lines noObject fun k v => owned 7 k v.owner v.attr v.pos
    , firstIn i.riders (fun k => stallObject 4 n (k % 64)) fun k r =>
        let o := stallObject 4 n (k % 64)
        [ flawIf (decide (16 ≤ k) || r.subs.any fun t => decide (4 ≤ t.1) || t.2.isEmpty || decide (8 < t.2.length)) { code := 0x1D4D, object := o }
        , flawIf (ownerBad r.owner r.attr) { code := 0x1D50, object := o }
        , flawIf (!addressOk c n r.owner r.entry) { code := 0x1741, object := o }
        , flawIf (match r.shotQ, fin? 16 k with | some q, some h => !refFits c (.rider ⟨n, h⟩) q | _, _ => false) { code := 0x1D50, object := o }
        , (r.subs.flatMap (·.2)).findSome? fun e => firstFlaw (chanFlaws e (mayRead c r.owner e) o) ]
    , firstIn i.blocks noObject fun k o => [ flawIf (decide (384 ≤ k)) { code := 0x1D4D }, flawIf (decide (o.val = 15)) { code := 0x1D50 } ]
    , firstIn i.groups noObject fun k o => [ flawIf (decide (128 ≤ k)) { code := 0x1D4D }, flawIf (decide (o.val = 15)) { code := 0x1D50 } ]
    , (herd c).vectors.findSome? fun v =>
        if v.1 / 256 = n.val then
          match stallSourceOwner c n (v.1 % 256) with
          | some (o, obj) => flawIf (decide (o ≠ v.2.1.owner)) { code := 0x1D50, object := obj }
          | none => none
        else none ]

/-- TROT (R102, R103). -/
def trotFlaw (i : StallImage) : Option Flaw :=
  firstFlaw
    [ flawIf (decide (8 < i.trot.length) || i.trot.any fun t => decide (t.deadline < 66) || decide (4095 < t.deadline)) { code := 0x1D4D }
    , flawIf (i.trot.any fun t => ownerBad t.owner t.attr) { code := 0x1D50 } ]

/-- ENVELOPE (R201, R202): the library has 6,291,456 words, the descriptor table 32,768. -/
def envelopeFlaw (i : StallImage) : Option Flaw :=
  flawIf (i.library.any (fun e => decide (6291456 ≤ e.1)) || i.descs.any fun e => decide (32768 ≤ e.1)) { code := 0x1D4D }

/-- A comparator beyond the `size` that there are, or one that is given a SEAL channel as its blanking source (R131). -/
def blankFlaw (size : Nat) (t : Tab WatchCfg) : Option Flaw :=
  firstIn t noObject fun k w => [ outside size noObject k, flawIf (decide (w.blankSrc = 2 ∧ 4064 ≤ w.chan.toNat)) { code := 0x1642, object := object 2 w.chan.toNat } ]

/-- INIT: an offset of the stall window that names no register, a deadline out of range, a handler that is not permitted, and a value that a host write
would see refused: a frequency word of 2^47 or more (R161), filter mode 3 (R253), a shift above 16 (R265) (log entry 156). -/
def initFlaw (c : State) (n : StallId) (i : StallImage) : Option Flaw :=
  (blankFlaw 10 i.watch).or <| i.init.findSome? fun e =>
    match decodeStall n e.1 with
    | none => some { code := 0x1D4D }
    | some (.ctl _ (.trot _)) => flawIf (decide ((bits e.2 0 12 : BitVec 12).toNat < 66)) { code := 0x1D4D }
    | some (.cmp _ _ .blank) =>
      let ch : ReinChan := bits e.2 16 12
      flawIf (decide ((bits e.2 30 2 : BitVec 2) = 2 ∧ 4064 ≤ ch.toNat)) { code := 0x1642, object := object 2 ch.toNat }
    | some (.unit _ _ .src) =>
      let ch : ReinChan := bits e.2 0 12
      flawIf (decide ((bits e.2 12 3 : BitVec 3) = 2 ∧ 4064 ≤ ch.toNat)) { code := 0x1642, object := object 2 ch.toNat }
    | some (.voice v .ftwHi) => flawIf (bit e.2 15) { code := 0x1D4D, object := voiceObject v }
    | some (.chan k .ctl) => flawIf (decide ((bits e.2 8 2 : BitVec 2) = 3)) { code := 0x1D4D, object := chanObject k }
    | some (.chan k .int_) => flawIf (decide (16 < (bits e.2 0 5 : BitVec 5).toNat)) { code := 0x1D4D, object := chanObject k }
    | some (.rider h .handler) => flawIf (!addressOk c n (riderOwner c h) (bits e.2 0 16)) { code := 0x1741, object := riderObject h }
    | some _ => none

/-- One section of a stall image. -/
def stallFlaw (c : State) (n : StallId) (i : StallImage) (type : BitVec 8) : Option Flaw :=
  let range := match i.outOfRange with | some (t, obj) => flawIf (t == type) { code := 0x1D4D, object := obj } | none => none
  range.or (match type.toNat with
    | 0x20 => bindFlaw c n i
    | 0x21 => spareFlaw i
    | 0x22 => stableFlaw c n i
    | 0x23 => paddockFlaw c n i
    | 0x24 => nodeFlaw c n i
    | 0x25 => usesFlaw c i
    | 0x26 => queuesFlaw c n i
    | 0x27 => ownersFlaw c n i
    | 0x2A => trotFlaw i
    | 0x2B => envelopeFlaw i
    | 0x2C => initFlaw c n i
    | _ => none)

/-! ## Phase 4: sections of a herd image -/

/-- HUB (R131, R132, R137): a hub cell has the owner of the channel that it issues on. -/
def hubFlaw (c : State) (i : HubImage) : Option Flaw :=
  firstFlaw
    [ firstIn i.cells (fun b => object 3 (1000 + b)) fun b x =>
        outside 1024 (fun b => object 3 (1000 + b)) b :: cellFlaws c ((x.chan.map fun e => (chanAttr c e).owner).getD 0) 1024 (1000 + b) x
    , firstIn i.comparators noObject fun k e => outside 16 noObject k :: chanFlaws e true (reinObject e)
    , firstIn i.pulses noObject fun k e => outside 8 noObject k :: chanFlaws e true (reinObject e)
    , i.pace.toList.findSome? fun e => firstFlaw (chanFlaws e true (reinObject e))
    , loopFlaw c 2048 1024 ]

/-- The owner that Table 19-6 fixes for a source: none where the table does not list it, some none where a stall image decides. -/
def vectorOwner (src : Nat) : Option (Option Owner) :=
  let lo := src % 256
  if src < 0x800 then
    if lo < 2 ∨ (0x10 ≤ lo ∧ lo < 0x1C) then some (some 0)
    else if lo < 0x10 ∨ (0x20 ≤ lo ∧ lo < 0x30) then some none
    else none
  else if src < 0x807 ∨ (0x810 ≤ src ∧ src ≤ 0x830) then some (some 0)
  else if 0x900 ≤ src ∧ src < 0x9F0 then (fin? 16 ((src - 0x900) / 16)).map some
  else none

/-- VECTORS (R699). -/
def vectorsFlaw (i : HerdImage) : Option Flaw :=
  let entries := (i.vectors.map fun v => (v.2.1.val, v.2.2)).eraseDups
  firstFlaw
    [ i.vectors.zipIdx.findSome? fun v =>
        let src := v.1.1
        firstFlaw
          [ flawIf ((vectorOwner src).isNone || decide (2048 ≤ v.1.2.2) || (i.vectors.take v.2).any fun w => decide (w.1 = src)) { code := 0x1D4D }
          , flawIf (match vectorOwner src with | some (some o) => decide (o ≠ v.1.2.1.owner) | _ => false) { code := 0x1D50 } ]
    , flawIf (decide (2048 < entries.length)) { code := 0x1D4D } ]

/-- A key store with slot k changed. -/
def setKeySlot (k : Fin 4) (x : KeySlot) (s : KeyStore) : KeyStore :=
  match k with | 0 => { s with slot0 := x } | 1 => { s with slot1 := x } | 2 => { s with slot2 := x } | 3 => { s with slot3 := x }

/-- An enrolled slot. -/
def enrolled : KeySlot → Bool
  | .enrolled _ => true
  | _ => false

/-- One entry of KEYS on the states that the entries before it leave (R128): none where its condition fails. -/
def keyStep (signer : Nat) (o : KeyOp) (k : KeyStore) : Option KeyStore :=
  match o with
  | .enrol i d => if keySlot k i.val = .empty then some (setKeySlot i (.enrolled d) k) else none
  | .revoke i => if enrolled (keySlot k i.val) ∧ i.val ≠ signer then some (setKeySlot i .revoked k) else none

/-- The slot that an entry names. -/
def keyTarget : KeyOp → Nat
  | .enrol i _ => i.val
  | .revoke i => i.val

/-- KEYS as a whole (R128): the new store, or the slot of the entry that fails. -/
def keysAll (signer : Nat) : List KeyOp → KeyStore → Except Nat KeyStore
  | [], k => .ok k
  | o :: rest, k => match keyStep signer o k with | some k => keysAll signer rest k | none => .error (keyTarget o)

/-- At least one slot is enrolled. -/
def someEnrolled (k : KeyStore) : Bool := enrolled k.slot0 || enrolled k.slot1 || enrolled k.slot2 || enrolled k.slot3

/-- KEYS. -/
def keysFlaw (s : State) (h : Header) (i : HerdImage) : Option Flaw :=
  match keysAll h.keySlot.toNat i.keys s.persist.keys with
  | .ok k => flawIf (!someEnrolled k) { code := 0x1D4E }
  | .error k => some { code := 0x1D4E, object := object 9 k }

/-- CHANNELS (R130, R131). -/
def channelsFlaw (i : HerdImage) : Option Flaw :=
  firstFlaw
    [ firstIn i.chans (object 2) fun e a =>
        [ flawIf (decide (4064 ≤ e)) { code := 0x1642, object := object 2 e }
        , flawIf (decide (a.owner.val = 15) || decide (a.owner.val ≠ 0 ∧ !a.ten)) { code := 0x1D50, object := object 2 e } ] ]

/-- One section of a herd image. -/
def herdFlaw (s c : State) (h : Header) (i : HerdImage) (type : BitVec 8) : Option Flaw :=
  let range := match i.outOfRange with | some (t, obj) => flawIf (t == type) { code := 0x1D4D, object := obj } | none => none
  range.or (match type.toNat with
    | 0x10 => (hubFlaw c i.hub).or (blankFlaw 16 i.watch)
    | 0x11 => channelsFlaw i
    | 0x12 =>
      firstFlaw
        [ firstIn i.routes (object 2) fun e _ => [ outside 4096 (object 2) e, flawIf (decide (4064 ≤ e)) { code := 0x1642, object := object 2 e } ]
        , firstIn i.queueRoutes (fun q => queueObject (BitVec.ofNat 14 q)) fun q _ => [ outside 16384 (fun q => queueObject (BitVec.ofNat 14 q)) q ]
        , firstIn i.lanes noObject fun k _ => [ outside 16 noObject k ] ]
    | 0x13 => (firstIn i.quotas noObject fun k _ => [ outside 8 noObject k ]).or (flawIf (decide (1045952 < (i.quotas.map (·.2)).sum)) { code := 0x1843 })
    | 0x15 => vectorsFlaw i
    | 0x16 => keysFlaw s h i
    | 0x17 => flawIf (i.triggers.any fun t => i.triggers.any fun u => t.1 == u.1 && t.2 != u.2) { code := 0x1D4D }
    | _ => none)

/-- The state as it would stand with an image in force: what phase 4 looks objects up in. -/
def candidate (n : StallId) (b : ImageBody) (s : State) : State :=
  match b with
  | .herd i => { s with herdImage := some i, hubImage := some i.hub }
  | .hub i => setHubImage (some i) s
  | .stall i => setStallImages (fun t => tabSet t n.val i) s

/-- The stall of an operation; 0 where it has none. -/
def opStall : TackOp → StallId
  | .loadStall n => n
  | .check n => n
  | _ => 0

/-- What the sections say is of the kind that the header names. -/
def bodyFits (h : Header) : ImageBody → Bool
  | .herd _ => decide (h.kind = 1)
  | .stall _ => decide (h.kind = 2)
  | .hub _ => decide (h.kind = 3)

/-- Phase 4: sections in directory order (R140). -/
def sectionsFlaw (s : State) (n : StallId) (h : Header) (d : List DirEntry) (b : ImageBody) : Option Flaw :=
  let c := candidate n b s
  d.zipIdx.findSome? fun e =>
    let f := match b with
      | .herd i => herdFlaw s c h i e.1.type
      | .stall i => stallFlaw c n i e.1.type
      | .hub i => if e.1.type = 0x10 then hubFlaw c i else none
    f.map fun f => { f with phase := 4, section_ := e.2 }

/-- The first check that fails, in the order of R136. -/
def imageFlaw (s : State) (op : TackOp) (c : ImageChecks) : Option Flaw :=
  let h := readHeader s
  let d := readDir s h
  match headerFlaw s op h d with
  | some f => some f
  | none => (signatureFlaw s h d).or ((directoryFlaw s h d).or (sectionsFlaw s (opStall op) h d c.body))

end Sys2Proof.Machine
end

