-- ==== Sys2Proof/Machine/Read.lean ====
section
/-!
DEFINITION. Chapter 6: acquisition slices, channel filters, staged sets, kernels and windows.
-/

namespace Sys2Proof.Machine

open Sys2Proof

/-- AS_CTL_WRITE (R250): a new range waits; the spare's own register takes no write. -/
def execAsCtlWrite (f : Func) (n : StallId) (k : Fin 5) (val : Word) (s : State) : Res :=
  .next (hostWrite f (.acq n k .ctl) (fun s => if k.val = 4 then s else modAcq n k (fun x => { x with range := bits val 16 2 }) s) s)

/-- RANGE_TAKES_EFFECT (R250): no window open, no capture armed; 8 samples of every channel of the slice are flagged. -/
def rangeTakes (n : StallId) (k : Fin 5) (s : State) : State :=
  let x := getAcq s n k
  let free := (boundChans s n k).all (fun c => (getChan s c).win.isNone) && (unitsOn s n k).isEmpty
  if x.range ≠ x.inForce ∧ free then
    forEach (boundChans s n k) (fun c s => flagChan c (frameNow s) 8 s) (modAcq n k (fun x => { x with inForce := x.range }) s)
  else s

def execRangeTakesEffect (n : StallId) (k : Fin 5) (s : State) : Res := .next (onAcq n k (rangeTakes n) s)

/-- ADC_FULL_SCALE_CODE (R251) at an ADC sample of the epoch: counted; windows that contain its frame carry ovr, with 0x3313 for the first such sample
of a window. -/
def fullScale (n : StallId) (k : Fin 5) (sample : Nat) (s : State) : State :=
  let s := modAcq n k (fun x => { x with ovr := satInc x.ovr, ovrHit := true }) s
  let t := sample * 24
  let s := markRecords n k (fun x =>
    flagRecord t (t + 1) (fun t r => { r with ovr := earliest t r.ovr }) { x with ovrAt := some (max sample (x.ovrAt.getD 0)) }) s
  forEach (boundChans s n k) (fun c s =>
    if (getChan s c).win.any fun w => containsFrame w (sample / 64) && !w.full then
      recordChan 0x3313 c (markWindow c (fun w => { w with ovr := true, full := true }) none s)
    else s) s

def execAdcFullScaleCode (n : StallId) (k : Fin 5) (sample : Nat) (s : State) : Res := .next (onAcq n k (fun k => fullScale n k sample) s)

/-- CH_CTL_WRITE (R253, R255): filter mode 3 is refused. -/
def execChCtlWrite (f : Func) (c : ChanId) (val : Word) (s : State) : Res :=
  .next (hostCheck f (.chan c .ctl) (fun _ => if bits val 8 2 = (3 : BitVec 2) then some 0x1311 else none)
    (modChan c fun x => { x with filter := bits val 8 2, enable := bit val 0 }) s)

/-- FILTER_TAKES_EFFECT (R255). -/
def filterTakes (c : ChanId) (s : State) : State :=
  let x := getChan s c
  if x.filter ≠ x.filterOn ∧ x.win.isNone then flagChan c (frameNow s) (filterFlags x.filter) (modChan c (fun x => { x with filterOn := x.filter, was := pastMode s c (frameNow s) }) s) else s

def execFilterTakesEffect (c : ChanId) (s : State) : Res := .next (filterTakes c s)

/-- Change plane p of a set. -/
def setPlane (p : Fin 3) (f : Plane → Plane) (x : PlaneSet) : PlaneSet :=
  match p with
  | 0 => { x with p0 := f x.p0 }
  | 1 => { x with p1 := f x.p1 }
  | 2 => { x with p2 := f x.p2 }

/-- What a write to a staged register stages (R271, Table 06-9). -/
def stageWrite (reg : StagedReg) (val : Word) (x : Channel) : Channel :=
  match reg with
  | .int_ => { x with stagedInt := { bank := bit val 8, shift := bits val 0 5 } }
  | .demod => { x with stagedPlane := { x.stagedPlane with rot := bits val 0 16 } }
  | .disc => { x with stagedPlane := { x.stagedPlane with en := bits val 16 3, map := bits val 0 16 } }
  | .ab p => { x with stagedPlane := setPlane p (fun y => { y with a := bits val 16 16, b := bits val 0 16 }) x.stagedPlane }
  | .c p => { x with stagedPlane := setPlane p (fun y => { y with c := val }) x.stagedPlane }
  | .qk p => { x with stagedPlane := setPlane p (fun y => { y with ksh := bits val 16 5, k := bits val 0 16 }) x.stagedPlane }

/-- The register of a staged write. -/
def stagedReg : StagedReg → ChReg
  | .int_ => .int_
  | .demod => .demod
  | .disc => .disc
  | .ab p => .ab p
  | .c p => .c p
  | .qk p => .qk p

/-- What refuses a staged write (R265, R272). -/
def stagedCode (s : State) (c : ChanId) (reg : StagedReg) (val : Word) : Option Code :=
  match reg with
  | .int_ => if 16 < (bits val 0 5 : BitVec 5).toNat then some 0x1311 else none
  | _ => if farrierOwns s c then some 0x1313 else none

def execStagedSetWrite (f : Func) (c : ChanId) (reg : StagedReg) (val : Word) (s : State) : Res :=
  .next (hostCheck f (.chan c (stagedReg reg)) (fun s => stagedCode s c reg val) (modChan c (stageWrite reg val)) s)

/-- CH_COMMIT (R271, R272): the staged set becomes pending; under farrier_owns only the fields of CH_INT. -/
def commitSet (c : ChanId) (s : State) : State :=
  if farrierOwns s c then modChan c (fun x => { x with pendInt := some x.stagedInt }) s
  else modChan c (fun x => { x with pendInt := some x.stagedInt, pendPlane := some x.stagedPlane }) s

def execChCommit (f : Func) (c : ChanId) (s : State) : Res := .next (hostWrite f (.chan c .commit) (commitSet c) s)

/-- A kernel bank in use by an open window, or named by bank_sel in force or pending (R266). -/
def bankTaken (x : Channel) (bank : Bool) : Bool :=
  x.win.any (fun w => w.ints.bank == bank) || x.ints.bank == bank || x.pendInt.any (fun i => i.bank == bank)

/-- KERNEL_WINDOW_WRITE (R264, R266): a tap of the channel and bank that STn_KERNEL_PAGE names, for the channel's owner. -/
def kernelCode (s : State) (f : Func) (c : ChanId) (bank : Bool) : Option Code :=
  if !mayAct f (chanBind s c).owner then some 0x1F01 else if bankTaken (getChan s c) bank then some 0x1312 else none

def execKernelWindowWrite (f : Func) (n : StallId) (t : Fin 4096) (val : Word) (s : State) : Res :=
  let page (s : State) : ChanId := ⟨n, (getStall s n).kernelChan⟩
  .next (hostCheck f (.kernelTap n t) (fun s => kernelCode s f (page s) (getStall s n).kernelBank)
    (fun s => { s with kernels := memSet 0 s.kernels (kernelKey (page s) (getStall s n).kernelBank t.val) val }) s)

/-- WINDOW_START (R258 to R262): the latched open opens, once the window ahead of it has closed. -/
def windowStarts (c : ChanId) (s : State) : State :=
  let x := getChan s c
  match x.win, x.latch with
  | none, some q => if nodeActive s c.stall then triggerUnits c.stall 3 c.num.val q.start (openWindow c q s) else s
  | _, _ => s

def execWindowStart (c : ChanId) (s : State) : Res := .next (windowStarts c s)

/-- WINDOW_DECISION (R252, R265 to R277). -/
def windowDecides (c : ChanId) (sig : Signal) (s : State) : State :=
  match (getChan s c).win with
  | some w => closeWindow c w (outcomeOf w (integrate s c w sig w.len) false) s
  | none => s

def execWindowDecision (c : ChanId) (sig : Signal) (s : State) : Res := .next (windowDecides c sig s)

end Sys2Proof.Machine
end

