-- ==== Sys2Proof/Machine/Line.lean ====
section
/-!
DEFINITION. The line of a tether lane (R527 to R529, R550 to R552): symbols and their 8b/10b code groups, the units of Table 13-1, and the pattern generator.
-/

namespace Sys2Proof.Machine

open Sys2Proof

/-! ## The 8b/10b code (R527)

The code is that of IEEE 802.3 Clause 36, which R527 names and does not repeat (PRESUMED, log entry 166). -/

/-- The six-bit groups abcdei of 0 to 31 at negative running disparity. -/
def sixGroups : List (BitVec 6) :=
  [0b100111, 0b011101, 0b101101, 0b110001, 0b110101, 0b101001, 0b011001, 0b111000, 0b111001, 0b100101, 0b010101, 0b110100, 0b001101, 0b101100,
    0b011100, 0b010111]
  ++ [0b011011, 0b100011, 0b010011, 0b110010, 0b001011, 0b101010, 0b011010, 0b111010, 0b110011, 0b100110, 0b010110, 0b110110, 0b001110, 0b101110,
    0b011110, 0b101011]

/-- The four-bit groups fghj of 0 to 7 at negative running disparity. -/
def fourGroups : List (BitVec 4) := [0b1011, 0b1001, 0b0101, 0b1100, 0b1101, 0b1010, 0b0110, 0b1110]

/-- The ones of the lowest `n` bits of a group. -/
def onesOf {w : Nat} (n : Nat) (b : BitVec w) : Nat := ((List.range n).filter fun k => bit b k).length

/-- The six-bit group of a number at a running disparity: an unbalanced group, and that of 7, is inverted at the positive one. -/
def sixGroup (x : Nat) (positive : Bool) : BitVec 6 :=
  let g := sixGroups.getD x 0
  if positive ∧ (onesOf 6 g ≠ 3 ∨ x = 7) then ~~~g else g

/-- The four-bit group of y behind that of x: the other form of 7 keeps the runs short. -/
def fourGroup (x y : Nat) (positive : Bool) : BitVec 4 :=
  if y = 7 ∧ (if positive then [11, 13, 14] else [17, 18, 20]).contains x then (if positive then 0b1000 else 0b0111)
  else
    let g := fourGroups.getD y 0
    if positive ∧ (onesOf 4 g ≠ 2 ∨ y = 3) then ~~~g else g

/-- The code group of a special symbol at negative running disparity (Table 13-1). -/
def specialGroup (octet : Byte) : BitVec 10 :=
  match octet with
  | 0xBC => 0b0011111010
  | 0x1C => 0b0011110100
  | 0xDC => 0b0011110110
  | 0x9C => 0b0011110010
  | 0x3C => 0b0011111001
  | 0xFB => 0b1101101000
  | 0xFD => 0b1011101000
  | _ => 0b0111101000

/-- The code group of a symbol at a running disparity, and the running disparity behind it. -/
def encodeSym (y : LineSym) (positive : Bool) : BitVec 10 × Bool :=
  let g : BitVec 10 :=
    if y.special then let g := specialGroup y.octet; if positive then ~~~g else g
    else
      let x := y.octet.toNat % 32
      let six := sixGroup x positive
      six ++ fourGroup x (y.octet.toNat / 32) (positive != decide (onesOf 6 six ≠ 3))
  (g, positive != decide (onesOf 10 g ≠ 5))

/-! ## Units (Tables 13-1 and 13-2) -/

/-- A special symbol. -/
def special (octet : Byte) : LineSym := { octet, special := true }

/-- Data symbols. -/
def dataSyms (l : List Byte) : List LineSym := l.map fun b => { octet := b }

/-- K28.5: idle. -/
def idleUnit : List LineSym := [special 0xBC]

/-- K28.0: the training pattern of 16 symbols. -/
def trainUnit : List LineSym := special 0x1C :: dataSyms ((List.range 15).map Config.trainOctet)

/-- K28.4: an acknowledge of events with the count of intact ones modulo 256. -/
def ackUnit (count : BitVec 8) : List LineSym := [special 0x9C, { octet := count }]

/-- The acknowledge of a packet (R536): Table 13-1 names no symbol of its own for it, so it takes the form of an acknowledge (DESIGN CHOICE, log entry 192). -/
def packAckUnit (key seq : Nat) : List LineSym := [special 0x9C, { octet := Config.packetAck (key * 65536 + seq % 65536) }]

/-- The eight octets of a stamp, the highest first. -/
def stampBytes (t : Int) : List Byte := (List.range 8).map fun k => BitVec.ofInt 8 (t / 2 ^ (8 * (7 - k)))

/-- K28.1: a request of 12 symbols or a reply of 20, with its stamps and its CRC-16 (their coding: DESIGN CHOICE, log entry 192). -/
def markUnit (m : MarkOut) : List LineSym :=
  let body : List Byte := match m with
    | .request t1 => 0 :: stampBytes t1
    | .reply t2 t3 => 1 :: (stampBytes t2 ++ stampBytes t3)
  let crc := Config.markCrc body
  special 0x3C :: dataSyms (body ++ [bits crc 8 8, bits crc 0 8])

/-- The words of a packet: queue words, or one word for each credit returned (DESIGN CHOICE, log entry 192). -/
def packetBody (p : Packet) : List Word :=
  if p.words.isEmpty then List.replicate p.credits (Config.creditWord p.queue.toNat) else p.words.map (·.word)

/-- K27.7 to K29.7: a packet of queue words or credit returns with its CRC-32 over the octets ahead of it (R536). -/
def packetUnit (p : Packet) : List LineSym :=
  let body := Config.packetHead (p.queue.toNat * 2 + (if p.words.isEmpty then 1 else 0)) p.seq (p.words.map (·.eoi)) ++ (packetBody p).flatMap leBytes
  special 0xFB :: dataSyms (body ++ leBytes (crc32 body)) ++ [special 0xFD]

/-! ## The pattern generator (R550, R552) -/

/-- The two stages whose sum a polynomial feeds back (R550). -/
def prbsStages (poly : BitVec 2) : Nat × Nat := match poly with | 0 => (7, 6) | 1 => (15, 14) | 2 => (23, 18) | 3 => (31, 28)

/-- The register with which a generator starts: a free value, but for all zeros, which gives no pattern. -/
def prbsStart (poly : BitVec 2) (ctr : Nat) : BitVec 31 :=
  let v := Config.prbsSeed ctr
  if v.toNat % 2 ^ (prbsStages poly).1 = 0 then 1 else v

/-- The next bit of the pattern, with the inversion of inj_rate or inject_one (R552). -/
def prbsBit (p : Prbs) : Bool × Prbs :=
  let t := prbsStages p.poly
  let b := bit p.shift (t.1 - 1) != bit p.shift (t.2 - 1)
  let rate := decide (p.injRate ≠ 0) && decide ((p.sent + 1) % 2 ^ (p.injRate.toNat + 9) = 0)
  (b != (rate || p.injectNext), { p with shift := (p.shift <<< 1) ||| (if b then 1 else 0), sent := p.sent + 1, injectNext := false })

/-- The next bits of the pattern, the first highest. -/
def prbsBits : Nat → Prbs → Nat → Nat × Prbs
  | 0, p, g => (g, p)
  | k + 1, p, g => let r := prbsBit p; prbsBits k r.2 (g * 2 + (if r.1 then 1 else 0))

/-- Ten bits of the pattern, sent without 8b/10b coding (R550). -/
def prbsGroup (p : Prbs) : BitVec 10 × Prbs := let r := prbsBits 10 p 0; (BitVec.ofNat 10 r.1, r.2)

end Sys2Proof.Machine
end

