-- ==== Sys2Proof/Machine/TimeOps.lean ====
section
/-!
DEFINITION. The time subsystem's arithmetic and servo (chapter 14): 1588 times, medians, the choice of what the epoch follows, pulses that a step skips.
-/

namespace Sys2Proof.Machine

open Sys2Proof

/-! ## 1588 time (R557, R558) -/

/-- A 1588 time in units of 2^-16 ns. -/
def taiUnits (t : Tai) : Nat := (t.sec.toNat * 1000000000 + t.ns.toNat) * 65536 + t.sub.toNat

/-- The 1588 time of a number of units of 2^-16 ns. -/
def taiOf (u : Nat) : Tai :=
  { sec := BitVec.ofNat 48 (u / 65536 / 1000000000), ns := BitVec.ofNat 32 (u / 65536 % 1000000000), sub := BitVec.ofNat 16 (u % 65536) }

/-- Fine steps as units of 2^-16 ns, whole units below: a frame of 1,536 fine steps is 4 ns. -/
def fineUnits (t : Fine) : Nat := t * 512 / 3

/-- EPOCH_TAI as it reads: 0 until the host has written it or an ALIGN has completed (R557). -/
def epochTime (s : State) : Tai := if s.tc.epochValid then s.tc.tai else {}

/-- The 1588 time of an instant of the schedule (R557). -/
def taiAt (s : State) (t : Fine) : Nat := taiUnits (epochTime s) + fineUnits t

/-- A stall rides: RIDING or RESTING (R560, R565). -/
def someRides (s : State) : Bool :=
  (List.finRange 8).any fun n => match (getStall s n).life with | .riding => true | .resting => true | _ => false

/-! ## Medians (R573) -/

/-- Insert into a rising list. -/
def insertInt (x : Int) : List Int → List Int
  | [] => [x]
  | y :: rest => if x ≤ y then x :: y :: rest else y :: insertInt x rest

/-- The median: the middle of an odd number of values, the mean of the two middle ones of an even number, rounded down. -/
def median (l : List Int) : Int :=
  let m := l.foldr insertInt []
  (m.getD ((m.length - 1) / 2) 0 + m.getD (m.length / 2) 0) / 2

/-- Nanoseconds in units of 1/16 ns. -/
def ns16 (n : Nat) : Nat := n * 16

/-! ## What the epoch follows (R561 to R564, R578) -/

/-- A lane is HITCHED. -/
def laneUp (s : State) (k : BitVec 4) : Bool := decide ((getLane s ⟨k.toNat, k.isLt⟩).state = .hitched)

/-- The lane that a follower steers by (R564). -/
def followLane (s : State) : Option (BitVec 4) :=
  let c := s.persist.time
  if laneUp s c.followLane then some c.followLane
  else if c.altValid ∧ laneUp s c.followAlt then some c.followAlt
  else none

/-- A domain is LOCKED. -/
def locked (s : State) (d : Fin 2) : Bool := decide ((getDomain s d).state = .locked)

/-- The domain that a lead follows. -/
def followed (s : State) : Option (Fin 2) :=
  match s.tc.servo with
  | .primary => some 0
  | .secondary => some 1
  | _ => none

/-- The servo follows a domain: its target is that domain's time. -/
def follow (d : Fin 2) (s : State) : State :=
  setTime (fun t => { t with servo := if d = 0 then .primary else .secondary, error := (getDomain s d).offset }) s

/-- A switch (R579): the epoch error is DM_INTER towards the secondary, and its negative towards the primary. -/
def switchTo (d : Fin 2) (s : State) : State :=
  record 0x0B02 8 0 0 0 (setTime (fun t => { t with error := if d = 1 then t.inter else -t.inter }) (follow d s))

/-- The mean of numbers, rounded down. -/
def meanSteps (l : List Int) : Int := l.sum / (max 1 l.length : Nat)

/-- The mean frequency of the last 100 s of steering (R580): of the seconds that have ended, or of the beats of the first. -/
def meanSteering (t : TimeCtl) : Int := if t.oscMeans.isEmpty then t.oscSum / (max 1 t.oscBeats : Nat) else meanSteps t.oscMeans

/-- A lead enters HOLDOVER (R578, R580): the disciplined oscillator keeps its mean frequency, and any other reference is left as it is. -/
def enterHoldover (s : State) : State :=
  record 0x3B04 8 0 0 0 (setTime (fun t => { t with servo := .holdover, osc := if t.refSrc = 2 then meanSteering t else t.osc }) s)

/-- The rules of R578; `reached` is the domain that has just reached LOCKED. -/
def leadRules (reached : Option (Fin 2)) (s : State) : State :=
  let c := s.persist.time
  match followed s with
  | some d =>
    let o : Fin 2 := if d = 0 then 1 else 0
    if locked s d then (if d = 1 ∧ c.revert ∧ reached = some 0 then switchTo 0 s else s)
    else if locked s o then (if c.autoSwitch then switchTo o s else s)
    else enterHoldover s
  | none =>
    if locked s 0 then follow 0 s
    else if locked s 1 then follow 1 s
    else if s.tc.servo = .holdover then s
    else enterHoldover s

/-- A follower steers by the offset of its lane, or holds (R564). -/
def followRules (s : State) : State :=
  match followLane s with
  | some k => setTime (fun t => { t with servo := .follow, error := -((getLane s ⟨k.toNat, k.isLt⟩).time.offset.toInt) }) s
  | none => setTime (fun t => { t with servo := .followHold }) s

/-- A follower looks at its lanes again (R564). -/
def steerFollower (s : State) : State := if s.persist.time.role = 2 then followRules s else s

/-- The servo's choice, evaluated at samples, time marks, lane changes and commands (R561, R578); `reached` is the domain that has just reached LOCKED. -/
def evalReached (reached : Option (Fin 2)) (s : State) : State :=
  if s.persist.time.role = 1 then leadRules reached s
  else if s.persist.time.role = 2 then followRules s
  else if s.tc.servo = .free then s
  else setTime (fun t => { t with servo := .free }) s

/-- The servo's choice where no domain has just reached LOCKED. -/
def evalServo (s : State) : State := evalReached none s

/-! ## Pulses that a forward step skips (R566, R585) -/

/-- Rising edges of an output after `from_` and up to `till`. -/
def edgesIn (s : State) (a : TpArm) (from_ till : Fine) : Nat :=
  match a.mode with
  | 1 => if from_ < a.start ∧ a.start ≤ till then 1 else 0
  | 2 =>
    let upTo (t : Fine) : Nat := if t < a.start then 0 else (t - a.start) / (a.period * 16) + 1
    upTo till - upTo from_
  | 3 => taiAt s till / 65536000000000 - taiAt s from_ / 65536000000000
  | _ => 0

/-- Skipped pulses are recorded one by one. -/
def recordSkips : Nat → State → State
  | 0, s => s
  | k + 1, s => recordSkips k (record 0x3B06 8 0 0 0 s)

/-- The armed outputs after a forward step: skipped pulses count as missed; a once pulse that was skipped is over. -/
def skipPulses (from_ till : Fine) (s : State) : State :=
  forEach (List.finRange 8) (fun k s =>
    match (getPulse s k).armed with
    | some a =>
      let n := edgesIn s a from_ till
      if n = 0 then s
      else
        modPulse k (fun x => { x with missed := satAdd x.missed n, armed := if a.mode = 1 then none else x.armed }) (recordSkips n s)
    | none => s) s

end Sys2Proof.Machine
end

