-- ==== Sys2Proof/Machine/TetherOps.lean ====
section
/-!
DEFINITION. What the tether lanes do with tokens and queue words (chapter 13): egress, diversion, the order on the line, packets of queue
words and credits; and how a token enters the hub.
-/

namespace Sys2Proof.Machine

open Sys2Proof

/-! ## Into the hub (R333, R334, R362, R366, R367) -/

/-- A settle point is being made: new entries are held at the node and tether links (R367), where a plane would take them (R366).  A hub update makes its
settle point once its first plane is written (R152); a filter written to a hub cell waits for one too (R370). -/
def hubHolds (s : State) : Bool :=
  (entryA s || entryB s) && ((s.hub.pend.any fun a => decide (a ≠ .switchEntry) || decide (774 ≤ s.tack.op.progress)) ||
    s.cells.any fun c => c.2.pendFilter.isSome)

/-- A token enters the hub at an ingress of its own (host injection, tether lane): its hop rises by 1; a token at hop 7 counts as issued
and is loop-dropped; while a settle point is made, its copies wait at the link. -/
def hubIngress (port : Nat) (tok : Token) (s : State) : State :=
  if tok.hop = 7 then loopDrop .hub tok.chan (modBook tok.chan (fun b => { b with issued := b.issued + 1 }) s)
  else if hubHolds s && !chanHeld s tok.chan then
    forEach (consumersOf s tok.chan) (fun d s =>
      addFlight { tok, src := .hub, port, dst := d, stage := .hubLink } (modBook tok.chan (fun b => { b with issued := b.issued + 1 }) s)) s
  else issueToken .hub port { tok with hop := tok.hop + 1 } s

/-! ## Events on the line (R528, R533, R534) -/

/-- The 20 bits of a token (Table 08-2). -/
def tokenBits (t : Token) : BitVec 20 :=
  let kind : BitVec 2 := match t.kind with | .decision => 0 | .edge => 1 | .emission => 2 | .cell => 3
  BitVec.ofNat 20 (t.chan.toNat * 256 + kind.toNat * 64 + t.hop.toNat * 8 + (if t.inv then 4 else 0) + t.value.toNat)

/-- The four symbols of an event (Tables 13-1, 13-2): K28.6, then three data octets, the last with the CRC-4, which an INJECT corrupts (R552). -/
def eventSymbols (e : Egress) : List LineSym :=
  let t := tokenBits e.tok
  let crc := if e.bad then ~~~(crc4 t) else crc4 t
  special 0xDC :: dataSyms [bits t 12 8, bits t 4 8, (bits t 0 4 : BitVec 4) ++ crc]

/-- Change a lane's transmitter. -/
def modTx (k : LaneId) (f : Transmit → Transmit) (s : State) : State := modLane k (fun x => { x with tx := f x.tx }) s

/-- The copies of a channel in egress latches. -/
def egressCopies (s : State) (e : ReinChan) : Nat :=
  ((List.finRange 16).map fun k => ((getLane s k).egress.filter fun c => c.chan == e).length).sum

/-- The oldest copy of a lane's egress latch leaves as an event, where none is in progress (R528); one of a channel that an audit holds stays (R374). -/
def sendEvent (k : LaneId) (s : State) : State :=
  let x := getLane s k
  match if x.state = .hitched ∧ x.tx.event = [] then x.egress.filter fun e => !chanHeld s e.chan else [] with
  | [] => s
  | e :: _ =>
    let e' : Egress := { e with bad := x.corruptNext }
    modLane k (fun x =>
      { x with egress := x.egress.erase e, unacked := x.unacked ++ [e'], corruptNext := false, tx := { x.tx with event := eventSymbols e' } }) s

/-! ## Egress (R530 to R532, R542 to R545) -/

/-- Whether a lane is HITCHED. -/
def hitched (s : State) (k : LaneId) : Bool := decide ((getLane s k).state = .hitched)

/-- A lane holds a copy of a route in its egress latch or unacknowledged. -/
def holdsRoute (s : State) (k : LaneId) (e : ReinChan) : Bool :=
  ((getLane s k).egress.any fun c => c.chan == e) || ((getLane s k).unacked.any fun c => c.chan == e)

/-- The lane that a copy of a route takes, with whether it is diverted: the alternate while it still holds copies of the route (R545). -/
def laneFor (s : State) (r : Route) (e : ReinChan) : Option (LaneId × Bool) :=
  let alt := r.alternate.filter (hitched s)
  if hitched s r.primary then
    match alt with
    | some a => if holdsRoute s a e then some (a, true) else some (r.primary, false)
    | none => some (r.primary, false)
  else alt.map fun a => (a, true)

/-- A copy is dropped at egress because no lane of its route is HITCHED (R542). -/
def noLaneDrop (e : ReinChan) (s : State) : State :=
  let was := s.tether.noLane
  let s := setTether (fun t => { t with noLane := satInc t.noLane }) (bookOverrun e 1 s)
  if was = 0 then record 0x3A03 8 (chanAttr s e).owner (reinObject e) 0 s else s

/-- A copy finds the egress latch of a lane full (R531). -/
def egressBusy (k : LaneId) (e : ReinChan) (s : State) : State :=
  let was := (getLane s k).overrun
  let s := setTether (fun t => { t with busy := satInc t.busy }) (bookOverrun e 1 s)
  let s := modLane k (fun x => { x with overrun := true }) s
  if was then s else record 0x3643 8 (chanAttr s e).owner (reinObject e) 0 s

/-- A copy takes its lane; the answer says whether a latch took it. -/
def toEgress (c : Egress) (s : State) : State × Bool :=
  match tabFind c.chan.toNat (herd s).routes with
  | none => (noLaneDrop c.chan s, false)
  | some r =>
    match laneFor s r c.chan with
    | none => (noLaneDrop c.chan s, false)
    | some (k, diverted) =>
      if 16 ≤ (getLane s k).egress.length then (egressBusy k c.chan s, false)
      else
        let s := if diverted then modLane r.primary (fun x => { x with diverted := satInc x.diverted }) s else s
        (modLane k (fun x => { x with egress := x.egress ++ [c] }) s, true)

/-- A copy reaches tether egress (R530, R532): its hop rises by 1; the channel becomes the partner's; it counts as consumed in a latch. -/
def egressEntry (tok : Token) (s : State) : State :=
  if tok.hop = 7 then loopDrop .hub tok.chan s
  else
    let partner : ReinChan := ((tabFind tok.chan.toNat (herd s).routes).map fun r => bits r.partner 0 12).getD tok.chan
    let r := toEgress { chan := tok.chan, tok := { tok with hop := tok.hop + 1, chan := partner } } s
    if r.2 then modBook tok.chan (fun b => { b with consumed := b.consumed + 1 }) r.1 else r.1

/-- A copy that a lane hands on and that is then dropped counts as overrun-dropped instead of consumed. -/
def handOn (c : Egress) (s : State) : State :=
  let r := toEgress c s
  if r.2 then r.1 else modBook c.chan (fun b => { b with consumed := b.consumed - 1 }) r.1

/-! ## Packets (R535 to R537) -/

/-- Key of a queue's packets of one kind. -/
def packetKey (q : QueueId) (credits : Bool) : Nat := q.toNat * 2 + (if credits then 1 else 0)

/-- Number the next packet of a queue and kind. -/
def takeSeq (k : Nat) (t : TetherCtl) : Nat × TetherCtl := (tabGet 0 t.nextSeq k, { t with nextSeq := tabSet t.nextSeq k (tabGet 0 t.nextSeq k + 1) })

/-- The lane that carries the packets of a queue's route: primary, else alternate, where HITCHED (R537). -/
def queueLane (s : State) (q : QueueId) : Option LaneId :=
  (tabFind q.toNat (herd s).queueRoutes).bind fun r =>
    if hitched s r.primary then some r.primary else r.alternate.filter (hitched s)

/-- The ingress ports of a queue, with their lanes. -/
def ingressPorts (s : State) (q : QueueId) : List (Nat × LaneId) :=
  match queueAlloc s q with
  | some a => a.prods.zipIdx.filterMap fun p => match p.1.1 with | .tether l => some (p.2, l) | _ => none
  | none => []

/-- The ingress port of a queue, with its lane: the first. -/
def ingressPort (s : State) (q : QueueId) : Option (Nat × LaneId) := (ingressPorts s q).head?

/-- The ingress port of a queue for words that come over a lane: that lane's, or the first where the words come over a lane that has none (R537). -/
def portOfLane (s : State) (q : QueueId) (k : LaneId) : Option Nat :=
  (((ingressPorts s q).find? fun p => p.2 == k).orElse fun _ => ingressPort s q).map (·.1)

/-- The lane of the credit returns of a queue: that of its latest words, else its ingress port's (R537). -/
def creditLane (s : State) (q : QueueId) (port : LaneId) : Option LaneId :=
  let l : LaneId := (((tabFind q.toNat s.tether.via).bind (fin? 16)).getD port)
  if hitched s l then some l else if hitched s port then some port else none

/-- An egress takes words from its local queue against remote credits, one for each word taken, up to 64 in a packet (R535, R536); an audit of the queue
holds the take (R486). -/
def sendWords (q : QueueId) (s : State) : State :=
  match queueAlloc s q, queueLane s q with
  | some a, some lane =>
    let n := min 64 (min (tabGet 0 s.tether.remote q.toNat) (getQueue s q).stored.length)
    let takes : Bool := match a.consumer with | some (.tether _) => true | _ => false
    if takes ∧ 0 < n ∧ !queueHeld s q then
      let r := takeWords q n s
      setTether (fun t =>
        let x := takeSeq (packetKey q false) t
        { x.2 with packets := x.2.packets ++ [{ seq := x.1, queue := q, words := r.1, lane := some lane }]
                   remote := tabSet x.2.remote q.toNat (tabGet 0 x.2.remote q.toNat - r.1.length) }) r.2
    else s
  | _, _ => s

/-- Credits that the ingress ports hold and the partner has not been told of go out, up to 64 in a packet (R536). -/
def sendCredits (q : QueueId) (s : State) : State :=
  match ingressPort s q with
  | some (_, port) =>
    let held := ((ingressPorts s q).map fun p => (getProd s q p.1).credits).sum
    let told := min held (tabGet 0 s.tether.told q.toNat)
    match creditLane s q port with
    | some lane =>
      if told < held then
        let n := min 64 (held - told)
        setTether (fun t =>
          let x := takeSeq (packetKey q true) t
          { x.2 with packets := x.2.packets ++ [{ seq := x.1, queue := q, words := [], credits := n, lane := some lane }]
                     told := tabSet x.2.told q.toNat (told + n) }) s
      else s
    | none => s
  | none => s

/-! ## The line (R527 to R529, R541) -/

/-- A symbol boundary falls into the beat in progress: five symbols of 0.8 ns last a frame. -/
def symbolNow (s : State) : Bool := decide (s.clock.now * 5 / 1536 < (s.clock.now + fineBeat) * 5 / 1536)

/-- The oldest packet of a lane and kind that waits to leave: a packet that is sent again goes ahead of newer ones (R536). -/
def duePacket (s : State) (k : LaneId) (credits : Bool) : Option Packet :=
  s.tether.packets.find? fun p => p.due && p.lane == some k && p.words.isEmpty == credits

/-- A packet starts to leave. -/
def startPacket (k : LaneId) (p : Packet) (s : State) : State :=
  modTx k (fun t => { t with unit := packetUnit p })
    (setTether (fun t => { t with packets := t.packets.map fun x => if x = p then { p with due := false, sends := p.sends + 1 } else x }) s)

/-- The oldest time mark that waits starts to leave. -/
def startMark (k : LaneId) (s : State) : State :=
  modTx k (fun t => match t.marks with | m :: rest => { t with marks := rest, unit := markUnit m } | [] => { t with unit := idleUnit }) s

/-- The next unit of a HITCHED lane (R529): acknowledge, time mark, credit-return packet, queue packet, idle. -/
def hitchedUnit (k : LaneId) (s : State) : State :=
  let x := getLane s k
  if x.tx.ackDue then modTx k (fun t => { t with ackDue := false, unit := ackUnit x.intactIn }) s
  else
    match x.tx.packAcks with
    | a :: rest => modTx k (fun t => { t with packAcks := rest, unit := packAckUnit (packetKey a.1 a.2.1) a.2.2 }) s
    | [] =>
      if x.tx.marks ≠ [] then startMark k s
      else
        match (duePacket s k true).orElse fun _ => duePacket s k false with
        | some p => startPacket k p s
        | none => modTx k (fun t => { t with unit := idleUnit }) s

/-- A unit starts where none is in progress: while a lane trains, the training pattern, and in phase 5 time marks (R539, R547). -/
def startUnit (k : LaneId) (s : State) : State :=
  let x := getLane s k
  if x.tx.unit ≠ [] then s
  else
    match x.state with
    | .hitched => hitchedUnit k s
    | .training => if x.phase = 5 then startMark k s else modTx k (fun t => { t with unit := trainUnit }) s
    | .unhitched => modTx k (fun t => { t with unit := idleUnit }) s

/-- The next symbol leaves: of the event in progress, else of the unit in progress (R528). -/
def sendSymbol (k : LaneId) (s : State) : State :=
  let out (y : LineSym) (t : Transmit) : Transmit := let r := encodeSym y t.positive; { t with positive := r.2, line := some r.1 }
  modTx k (fun t =>
    match t.event, t.unit with
    | y :: rest, _ => out y { t with event := rest }
    | [], y :: rest => out y { t with unit := rest }
    | [], [] => t) s

/-- No herd image is in force, or phase 5 or 6 of a LOAD_HERD runs: no lane trains (R541). -/
def lanesHeld (s : State) : Bool := s.herdImage.isNone || (decide (s.tack.run = some .loadHerd) && decide (5 ≤ s.tack.phase))

/-- What a lane's transmitter does at a symbol boundary (R528, R529, R541, R550): symbols while it is enabled, else the pattern, else electrical idle. -/
def tickLane (k : LaneId) (s : State) : State :=
  let x := getLane s k
  if !symbolNow s then s
  else if x.enable && !lanesHeld s then sendSymbol k (startUnit k (sendEvent k s))
  else if x.prbs.genEn then modLane k (fun x => let r := prbsGroup x.prbs; { x with prbs := r.2, tx := { ({} : Transmit) with line := some r.1 } }) s
  else if x.tx = {} then s
  else modTx k (fun _ => {}) s

/-- A schedule time in 1/16 ns, so many fine steps into the beat in progress. -/
def stampNow (s : State) (at_ : Nat) : Int := (s.clock.sched + at_) / 24

/-- A lane sends a request, with its stamp (R547). -/
def sendRequest (k : LaneId) (s : State) : State :=
  let t1 := stampNow s 0
  modLane k (fun x => { x with time := { x.time with sent := some t1 }, tx := { x.tx with marks := x.tx.marks ++ [.request t1] } }) s

/-- What the lanes take in a beat: packets of words and credits. -/
def tetherWork (s : State) : State :=
  let s := forEach (allQueues s) sendCredits s
  forEach ((herd s).queueRoutes.map fun r => BitVec.ofNat 14 r.1) sendWords s

/-- In phase 5 of its training a lane asks for a round trip every 2 µs (Table 13-4, R547). -/
def tickTrips (k : LaneId) (s : State) : State :=
  let x := getLane s k
  if x.state = .training ∧ x.phase = 5 ∧ s.clock.sched % (500 * fineFrame) = 0 then sendRequest k s else s

/-- Packets without a lane find one again (R537). -/
def replacePackets (s : State) : State :=
  let pick (p : Packet) : Option LaneId :=
    if p.words.isEmpty then (ingressPort s p.queue).bind fun x => creditLane s p.queue x.2 else queueLane s p.queue
  setTether (fun t =>
    { t with packets := t.packets.map fun p =>
        match p.lane with
        | some _ => p
        | none => match pick p with | some l => { p with lane := some l, due := true } | none => p }) s

/-- A lane leaves HITCHED: its unacknowledged events are lost, the copies in its latch move or are dropped, its packets move (R533, R537,
R543). -/
def laneLeaves (k : LaneId) (s : State) : State :=
  let x := getLane s k
  let s := modLane k (fun y => { y with egress := [], unacked := [], lost := satAdd y.lost y.unacked.length, tx := {} }) s
  let s := forEach x.egress handOn s
  replacePackets (setTether (fun t => { t with packets := t.packets.map fun p => if p.lane = some k then { p with lane := none } else p }) s)

/-! ## Lane states (Table 13-3) -/

/-- The source of a lane (Table 19-6). -/
def laneSource (k : LaneId) : Nat := 0x810 + k.val

/-- The end of a RETRAIN (R554, R705). -/
def endRetrain (op : OpStatus) (s : State) : State :=
  raise 0x802 (setTether (fun t => { t with op, retrain := none, partialValid := false, phase := 0 }) s)

/-- A lane goes to UNHITCHED with a cause and, where it has one, a code; `retry` says that its backoff step rises. -/
def unhitch (k : LaneId) (cause : BitVec 4) (code : Option Code) (retry : Bool) (s : State) : State :=
  let was := (getLane s k).state
  let s := modLane k (fun x =>
    { x with state := .unhitched, phase := 0, cause, backoff := if retry then min 6 (x.backoff + 1) else x.backoff }) s
  let s := if was = .hitched then steerFollower (laneLeaves k s) else s
  let s := match code with | some c => record c 8 0 0 0 s | none => s
  let s := raise (laneSource k) s
  if s.tether.retrain = some k then
    endRetrain (match code with | some c => opEnd .failed c s.tether.op | none => opEnd .aborted 0 s.tether.op) s
  else s

/-- A lane enters TRAINING, with the equaliser fields as they then stand (R540). -/
def train (k : LaneId) (s : State) : State :=
  raise (laneSource k) (modLane k (fun x =>
    { x with
      state := .training, phase := 1, trainings := satInc x.trainings, trainAuto := x.eqAuto, trainSet := x.eqSet, tx := {}
      time := { x.time with trips := 0, sum := 0, largest := 0, sent := none } }) s)

/-- During a RETRAIN the operation follows the phases (Table 13-4). -/
def showRetrain (k : LaneId) (s : State) : State :=
  if s.tether.retrain = some k then
    let x := getLane s k
    let p := match x.phase with | 2 => 100 | 3 => 200 | 4 => 600 | 5 => 700 + 300 * min x.time.trips 1024 / 1024 | _ => 0
    setTether (fun t => { t with phase := x.phase, measured := BitVec.ofNat 11 (min x.time.trips 1024), op := { t.op with progress := min p 999 } }) s
  else s

end Sys2Proof.Machine
end

