-- ==== Sys2Proof/Machine/Rein.lean ====
section
/-!
DEFINITION. Chapter 8: tokens on their way, hub planes, faults and scrubs of the fabric, host access to cells, audits of a token book.
-/

namespace Sys2Proof.Machine

open Sys2Proof

/-! ## Producers -/

/-- Replace bit k of a marker nibble. -/
def setMark (b : BitVec 4) (k : Nat) (v : Bool) : BitVec 4 :=
  if v then b ||| BitVec.ofNat 4 (2 ^ k) else b &&& ~~~(BitVec.ofNat 4 (2 ^ k))

/-- The marker bits of beat `i` of a segment (R203, R235), with the words of a STREAM as they stand in its buffer. -/
def descMarks (s : State) (v : VoiceId) (d : Desc) (i : Nat) (streamed : Option Word) : BitVec 4 :=
  let k := i % max 1 (descLength d)
  let word : Option Word :=
    match kindState d with
    | .play => some (tabGet 0 s.library (libraryKey v.stall (descStart d + k)))
    | .stream => streamed
    | _ => none
  (markerRun d k ||| (word.map fun w => (wordBeat (descFmt d) w).2.2).getD 0) &&& (getVoice s v).tune.mask

/-- The marker bits of the slot `j` beats ahead: in the segment in play, or in the one that the primary port has READY behind it. -/
def marksAhead (s : State) (v : VoiceId) (j : Nat) : BitVec 4 :=
  let q := getSeq s v
  let i := q.rep.toNat * descLength q.desc + q.beat.toNat + j
  if playing s v then
    match segBeats q.desc with
    | none => descMarks s v q.desc (min i 0xFFFFF) none
    | some n =>
      if i < n then descMarks s v q.desc i q.play.words[j]?
      else
        match q.prim with
        | p :: _ => if p.state = .ready then descMarks s v p.desc (i - n) ((q.ahead.getD {}).words[i - n]?) else 0
        | [] => 0
  else 0

/-- The marker bits of a voice whose beat reaches the front port at an instant to come. -/
def marksPort (s : State) (v : VoiceId) (t : Fine) : BitVec 4 :=
  let first := leavesAt s v (beatNow s + (getSeq s v).segTime % fineBeat)
  if t < first + fineBeat then marksAt s v t else marksAhead s v ((t - first) / fineBeat)

/-- A marker bit of a voice has a level in a beat that leaves the DAC gate now, 8 ns before it reaches the front port (R237), or that reaches it now. -/
def marksReach (s : State) (v : VoiceId) (b : Fin 4) (level : Bool) : Bool :=
  (List.range fineBeat).any fun k =>
    bit (marksPort s v (beatNow s + 12 * fineBeat + k)) b.val == level || bit (marksAt s v (beatNow s + k)) b.val == level

/-- MARKER_EDGE (R186, R237, Table 08-1): a marker bit changes to a level that its beat gives it (log entry 155); the ports that the image wires to it
issue. -/
def markerEdge (v : VoiceId) (b : Fin 4) (level : Bool) (s : State) : State :=
  if bit (getVoice s v).marks b.val = level ∨ !marksReach s v b level then s
  else
    let s := modVoice v (fun x => { x with marks := setMark x.marks b.val level }) s
    forEach (imageOf s v.stall).node.markers.zipIdx (fun m s =>
      if m.1.probe = v.probe ∧ m.1.voice = v.num ∧ m.1.bit = b then
        issueToken (.node v.stall) (0x100 + m.2) { chan := m.1.chan, kind := .edge, hop := 0, inv := false, value := if level then 1 else 0 } s
      else s) s

def execMarkerEdge (v : VoiceId) (bit : Fin 4) (level : Bool) (s : State) : Res := .next (markerEdge v bit level s)

/-! ## The hub (R362 to R368) -/

/-- The record of a plane. -/
def planeOf (s : State) (b : Bool) : HubPlane := if b then s.hub.planeB else s.hub.planeA

/-- Change a plane. -/
def modPlane (b : Bool) (f : HubPlane → HubPlane) (s : State) : State :=
  setHub (fun h => if b then { h with planeB := f h.planeB } else { h with planeA := f h.planeA }) s

/-- A plane is in SERVICE. -/
def inService (s : State) (b : Bool) : Bool := decide ((planeOf s b).state = .service)

/-- HUB_ENTRY: a copy at a hub link enters the planes (R333, R334, R362, R366), in the order of its producer (R329); holds of a settle point or an audit
keep it there.  It tells the waits at merges in its source node and in the hub (R354). -/
def hubEntry (i nodeWaits hubWaits : Nat) (s : State) : State :=
  match tabFind i s.flights with
  | some f =>
    if f.stage ≠ .hubLink ∨ hubHolds s ∨ chanHeld s f.tok.chan ∨ behind s i f (fun g => g.stage == .hubLink) then s
    else
    let s := countContend .hub hubWaits (countContend f.src nodeWaits s)
    if !entryA s && !entryB s then noRouteDrop f.tok.chan (dropFlight i s)
    else if f.tok.hop = 7 then loopDrop .hub f.tok.chan (dropFlight i s)
    else
      let t : Token := { f.tok with hop := f.tok.hop + 1 }
      let g : Flight := { f with tok := t, stage := .planes, a := if entryA s then some t else none, b := if entryB s then some t else none }
      putFlight i g s
  | none => s

def execHubEntry (copy nodeWaits hubWaits : Nat) (s : State) : Res := .next (hubEntry copy nodeWaits hubWaits s)

/-- A copy leaves the hub towards its consumer. -/
def leaveHub (i : Nat) (f : Flight) (t : Token) (s : State) : State :=
  putFlight i { f with tok := t, stage := .exit, a := none, b := none, gotA := false, gotB := false } s

/-- The copy of a plane, or of the other. -/
def planeCopy (f : Flight) (b : Bool) : Option Token := if b then f.b else f.a

/-- Both copies of a token differ (R365). -/
def mismatchDrop (i : Nat) (f : Flight) (s : State) : State :=
  let s := setHub (fun h => { h with mismatch := satInc h.mismatch, scrubRoute := true }) (bookOverrun f.tok.chan 1 (dropFlight i s))
  record 0x3645 8 (chanAttr s f.tok.chan).owner (reinObject f.tok.chan) 0 s

/-- A consumer inside the hub, which takes its copies in the planes. -/
def insideHub (d : Consumer) : Bool := match d with | .egress _ => false | _ => consumerPlace d == .hub

/-- A copy still stands in a plane, ahead of its compare unit. -/
def inPlane (b : Bool) (f : Flight) : Bool := f.stage == .planes && (planeCopy f b).isSome && !(if b then f.gotB else f.gotA)

/-- COMPARE_UNIT_COPY (R363, R365, R366): with both planes in service the unit waits for both copies and compares them; the copies of a plane come in
the order of their producer (R329), with their waits at merges in the plane (R354). -/
def compareCopy (i : Nat) (b : Bool) (waits : Nat) (s : State) : State :=
  match tabFind i s.flights with
  | some f =>
    if f.stage ≠ .planes ∨ insideHub f.dst ∨ chanHeld s f.tok.chan ∨ behind s i f (inPlane b) then s
    else
      match planeCopy f b with
      | none => s
      | some t =>
        let s := countContend .hub waits s
        if !inService s (!b) then leaveHub i f t s
        else if (if b then f.gotA else f.gotB) then
          if planeCopy f (!b) = some t then leaveHub i f t s else mismatchDrop i f s
        else
          let g : Flight := if b then { f with gotB := true, at_ := s.clock.now } else { f with gotA := true, at_ := s.clock.now }
          putFlight i g s
  | none => s

def execCompareUnitCopy (copy : Nat) (planeB : Bool) (waits : Nat) (s : State) : Res := .next (compareCopy copy planeB waits s)

/-- A plane's copies are gone: each token travels in the other plane alone, or not at all (R366, R368). -/
def losePlaneCopies (b : Bool) (s : State) : State :=
  forEach s.flights (fun e s =>
    let f := e.2
    if f.stage = .planes then
      match planeCopy f (!b) with
      | some t =>
        if (if b then f.gotA else f.gotB) then leaveHub e.1 f t s
        else
          let g : Flight := if b then { f with b := none, gotB := false } else { f with a := none, gotA := false }
          putFlight e.1 g s
      | none => noRouteDrop f.tok.chan (dropFlight e.1 s)
    else s) s

/-- A plane goes OUT for a fault (R368, R364, R338). -/
def planeFails (b : Bool) (cause : BitVec 4) (s : State) : State :=
  if inService s b then
    let s := modPlane b (fun p => { p with state := .out, cause, entry := false }) s
    record 0x3646 8 0 0 0 (losePlaneCopies b s)
  else s

/-- MISSING_COPY_TIMEOUT (R364): the first copy is delivered, the silent plane goes OUT. -/
def missingCopy (i : Nat) (s : State) : State :=
  match tabFind i s.flights with
  | some f =>
    if f.stage = .planes ∧ f.gotA ≠ f.gotB ∧ inService s true ∧ inService s false then
      let silent := f.gotA
      let s := modPlane silent (fun p => { p with missing := satInc p.missing }) s
      planeFails silent 6 (match planeCopy f f.gotB with | some t => leaveHub i f t s | none => s)
    else s
  | none => s

def execMissingCopyTimeout (copy : Nat) (s : State) : Res := .next (missingCopy copy s)

/-! ## Delivery (R68, R351 to R356) -/

/-- A copy may not enter its consumer's stall any more: its stall does not ride, or in RESTING its rider has stopped, or for a cell all riders (R68, R348).
A capture unit that is armed on the channel consumes its tokens in HARNESSED too, where it keeps running (R303, R305; DEDUCED, log entry 190). -/
def notRiding (s : State) (e : ReinChan) (d : Consumer) : Option StallId :=
  match consumerPlace d with
  | .hub => none
  | .node n =>
    let runs : Bool := match d with | .capture k u => takesToken s ⟨k, u⟩ e | _ => false
    if !nodeActive s n ∧ !runs then some n
    else
      match d with
      | .taskInput r _ => if (getStall s n).life = .resting ∧ (getRider s r).state = .stopped then some n else none
      | .cellInput _ _ => if cellsRun s n then none else some n
      | _ => none

/-- A copy fails the owner check at a consumer (R356): at a cell's input the capture names the cell (R336). -/
def ownerDropAt (d : Consumer) (e : ReinChan) (s : State) : State :=
  let s := bookOverrun e 1 s
  match consumerPlace d with
  | .node n =>
    record 0x3644 n.val (chanAttr s e).owner (reinObject e) 0
      (captureFault n 4 (some e) (nodeCell d) (modNode n (fun x => { x with ownerDrop := satInc x.ownerDrop }) s))
  | .hub => record 0x3644 8 (chanAttr s e).owner (reinObject e) 0 s

/-- A copy counts as consumed (R355), or as dropped at a full latch (R353). -/
def bookEntry (e : ReinChan) (overran : Bool) (s : State) : State :=
  if overran then bookOverrun e 1 s else modBook e (fun b => { b with consumed := b.consumed + 1 }) s

/-- A copy reaches a rider's task input (R353, R396). -/
def toTaskInput (r : RiderId) (k : Fin 4) (f : Flight) (s : State) : State :=
  let was := (taskInput (getRider s r) k.val).overrun
  let x := enterTaskInput r k.val f.tok (decide (f.stage = .exit)) s
  if x.2 then
    let s := countBusy (.node r.stall) (bookEntry f.tok.chan true x.1)
    if was then s else record 0x3643 r.stall.val (riderBind s r).owner (riderObject r) 0 s
  else bookEntry f.tok.chan false x.1

/-- A copy reaches a cell input: in the hub, each plane's cell takes that plane's copy (R362). -/
def toCell (id : CellId) (k : Fin 6) (f : Flight) (s : State) : State :=
  match id with
  | .node _ _ => let r := feedInput id k.val f.tok s; bookEntry f.tok.chan r.2 r.1
  | .hub _ b =>
    let ra := match f.a with | some t => feedInput (.hub false b) k.val t s | none => (s, false)
    let rb := match f.b with | some t => feedInput (.hub true b) k.val t ra.1 | none => (ra.1, false)
    bookEntry f.tok.chan (ra.2 || rb.2) rb.1

/-- A copy enters its consumer. -/
def enterConsumer (f : Flight) (s : State) : State :=
  match f.dst with
  | .taskInput r k => toTaskInput r k f s
  | .cellInput id k => toCell id k f s
  | .capture n u => tokenTrigger ⟨n, u⟩ f.tok (bookEntry f.tok.chan false s)
  | .blank c => modWatch (cmpOfIdx c) (fun x => { x with blankTok := bit f.tok.value 0 }) (bookEntry f.tok.chan false s)
  | .egress _ => egressEntry f.tok s
  | .tally => sealToken f.tok (bookEntry f.tok.chan false s)

/-- A copy has reached its consumer: over its local route, out of the hub, or at a hub cell. -/
def atConsumer (f : Flight) : Bool :=
  match f.stage, f.dst with
  | .local_, _ => true
  | .exit, _ => true
  | .planes, d => insideHub d
  | _, _ => false

/-- CONSUMER_DELIVERY: the stall rides, the owner matches, the latch has room.  Tokens of one producer come in its order (R329); the command tells the waits
at merges on the way into the consumer's place, and at its element (R352, R354). -/
def deliverCopy (i waits : Nat) (s : State) : State :=
  match tabFind i s.flights with
  | some f =>
    if !atConsumer f ∨ chanHeld s f.tok.chan ∨ behind s i f (fun _ => true) then s
    else
      let s := countContend (consumerPlace f.dst) waits s
      let s := dropFlight i s
      match notRiding s f.tok.chan f.dst with
      | some n => notRidingDrop n f.tok.chan s
      | none =>
        if mayConsume s f.tok.chan f.dst then enterConsumer f s else ownerDropAt f.dst f.tok.chan s
  | none => s

def execConsumerDelivery (copy waits : Nat) (s : State) : Res := .next (deliverCopy copy waits s)

/-! ## Cells (R341 to R347) -/

def execCellEvaluation (cell : CellId) (s : State) : Res := .next (runCell cell cellReady (fun id s => evalCell id false s) s)

/-- A join window runs, and the cell cannot evaluate (R345). -/
def joinRuns (s : State) (id : CellId) : Bool :=
  (cellImage s id).used && !(getCell s id).disabled && (getCell s id).join.isSome && !cellReady s id

/-- An expired join (R345): every token held is consumed; with expire_inv the cell evaluates once on the oldest of them, inv set. -/
def expireJoin (id : CellId) (s : State) : State × Option Token :=
  let stall := match id with | .node n _ => n.val | .hub _ _ => 8
  let s := modCell id (fun c => { c with expired := satInc c.expired }) s
  let s := record 0x064A stall (cellOwner s id) (cellObject id) 0 s
  let r := if (cellImage s id).expireInv then evalCell id true s else (s, none)
  (modCell id (fun c => { c with latches := [], join := none }) r.1, r.2)

def execJoinWindowExpiry (cell : CellId) (s : State) : Res := .next (runCell cell joinRuns expireJoin s)

/-- A filter interval runs; a double-bit error has disabled no cell that issues (R338). -/
def filterRuns (s : State) (id : CellId) : Bool := (cellImage s id).used && !(getCell s id).disabled && (getCell s id).filterRun

/-- A filter interval ends (Table 08-3): the value held, or the value in force, issues when it differs from the last issued. -/
def endFilter (id : CellId) (s : State) : State × Option Token :=
  let c := getCell s id
  let s := modCell id (fun c => { c with cand := none, filterRun := false }) s
  match c.cand with
  | some t => if t.1 ≠ c.outValue then cellIssue id t s else (s, none)
  | none => (s, none)

def execFilterWidthExpiry (cell : CellId) (s : State) : Res := .next (runCell cell filterRuns endFilter s)

/-! ## Faults and scrubs (R336 to R338) -/

/-- A node fault: the first fault is captured, the node drops its tokens, the stall halts. -/
def nodeFault (n : StallId) (cause : BitVec 4) (code : Code) (e : Option ReinChan) (c : Option (BitVec 8)) (s : State) : State :=
  let s := captureFault n cause e c (modNode n (fun x => { x with fault := true }) s)
  fatalStall n (dropNode n (record code n.val 0 0 0 s))

/-- FABRIC_FAULT (R336, R368). -/
def fabricFault (p : FabricPlace) (cause : BitVec 4) (e : Option ReinChan) (c : Option (Fin 1024)) (s : State) : State :=
  match p with
  | .node n => if (getStall s n).life = .off then s else nodeFault n cause 0x3640 e (c.map fun x => BitVec.ofNat 8 x.val) s
  | .plane b => planeFails b cause s

def execFabricFault (place : FabricPlace) (cause : BitVec 4) (chan : Option ReinChan) (cell : Option (Fin 1024)) (s : State) : Res :=
  .next (fabricFault place cause chan cell s)

/-- Corrected errors of a scrub are recorded one by one. -/
def recordSingles (stall : Nat) : Nat → State → State
  | 0, s => s
  | k + 1, s => recordSingles stall k (record 0x0642 stall 0 0 0 s)

/-- SCRUB_PASS (R338, R365). -/
def scrubPass (p : FabricPlace) (singles : Nat) (double : Option (Fin 1024)) (s : State) : State :=
  match p with
  | .node n =>
    if (getStall s n).life = .off then s
    else
      let s := modNode n (fun x => { x with corrected := satAdd x.corrected singles, passes := x.passes + 1 }) (recordSingles n.val singles s)
      match double.bind fun c => fin? 256 c.val with
      | some c => nodeFault n 3 0x3642 none (some (BitVec.ofNat 8 c.val)) (modCell (.node n c) (fun x => { x with disabled := true }) s)
      | none => s
  | .plane b =>
    if inService s b then
      let s := modPlane b (fun x => { x with corrected := satAdd x.corrected singles }) (recordSingles 8 singles s)
      let s := setHub (fun h => { h with scrubRoute := false }) s
      if double.isSome then planeFails b 3 s else s
    else s

def execScrubPass (place : FabricPlace) (singles : Nat) (double : Option (Fin 1024)) (s : State) : Res := .next (scrubPass place singles double s)

/-! ## Host access to cells (R347, R349, R370) -/

/-- What refuses a flip-flop command: another owner's cell, or none there (R133, R349). -/
def ffCmdCode (f : Func) (id : CellId) (s : State) : Option Code :=
  match flipFlopCode s id with
  | some c => some c
  | none => if mayAct f (cellOwner s id) then none else some 0x1F01

def execSetFlipFlop (f : Func) (n : StallId) (cell : Fin 256) (value : BitVec 2) (inv : Bool) (s : State) : Res :=
  .next (hostCheck f (.node n .ffCmd) (ffCmdCode f (.node n cell)) (setFlipFlopOf (.node n cell) value inv) s)

def execClearFlipFlops (f : Func) (n : StallId) (s : State) : Res :=
  .next (hostWrite f (.node n .ffCmd) (clearFlipFlopsOf n f.owner) s)

/-- BK_FILTER_WRITE (R347, R370). -/
def bkFilterWrite (f : Func) (id : CellId) (val : Word) (s : State) : State :=
  match id with
  | .node n b => hostWrite f (.cell n b .filter) (modCell id fun c => { c with joinWin := bits val 8 8, width := bits val 0 8 }) s
  | .hub false b => hostWrite f (.hubCell false b .filter) (modCell id fun c => { c with pendFilter := some (bits val 8 8, bits val 0 8) }) s
  | .hub true _ => s

def execBkFilterWrite (f : Func) (cell : CellId) (val : Word) (s : State) : Res := .next (bkFilterWrite f cell val s)

/-- What refuses an injection (R361). -/
def injectCode (f : Func) (e : ReinChan) (s : State) : Option Code :=
  if 4064 ≤ e.toNat ∨ mayAct f (chanAttr s e).owner = false then some 0x1643 else none

/-- REIN_INJECT (R361): one emission at the hub, hop 1; a host access that loses at the merge waits (R706). -/
def reinInject (f : Func) (e : ReinChan) (value : BitVec 2) (inv : Bool) (g : Grant) (s : State) : State :=
  hostCheck f (.hub .inject) (injectCode f e)
    (fun s =>
      let s := match g with | .held => countContend .hub 1 s | .granted => s
      hubIngress 0x320 { chan := e, kind := .emission, hop := 0, inv, value } s) s

def execReinInject (f : Func) (chan : ReinChan) (value : BitVec 2) (inv : Bool) (grant : Grant) (s : State) : Res :=
  .next (reinInject f chan value inv grant s)

/-! ## Hub commands and settle points (R367 to R370) -/

/-- The end of a hub operation (R705). -/
def endHubOp (op : OpStatus) (s : State) : State := raise 0x805 (setHub (fun h => { h with op, partialValid := false }) s)

/-- Change the operation status of the hub. -/
def hubOp (g : OpStatus → OpStatus) (s : State) : State := setHub (fun h => { h with op := g h.op }) s

/-- A LOAD_HUB runs. -/
def hubLoading (s : State) : Bool := decide (s.tack.run = some .loadHub)

/-- What refuses TAKE_OUT (Table 08-5, R369). -/
def takeOutCode (b : Bool) (s : State) : Option Code :=
  if hubLoading s then some 0x1644 else if inService s b && !inService s (!b) then some 0x1641 else none

/-- TAKE_OUT: at the next settle point (Table 08-5); a plane that is not in SERVICE has nothing to leave. -/
def startTakeOut (b : Bool) (s : State) : State :=
  if inService s b then setHub (fun h => { h with op := opStart, pend := h.pend ++ [.takeOut b] }) s else endHubOp (opDone 0) s

def execTakeOut (f : Func) (planeB : Bool) (s : State) : Res :=
  .next (spineCommand f (.hub .cmd) hubOp (takeOutCode planeB) (startTakeOut planeB) s)

/-- What a write of a cell leaves of it: its counters, its tuned filter where `keep` is set, and the image's flip-flop value (R349). -/
def writtenCell (keep : Bool) (img : CellImage) (x : Cell) : Cell :=
  { joinWin := if keep then x.joinWin else 0, width := if keep then x.width else 1, pendFilter := if keep then x.pendFilter else none
    overrun := x.overrun, absorbed := x.absorbed, overruns := x.overruns, expired := x.expired, ffValue := img.ffValue, ffInv := img.ffInv }

/-- Every cell of a table with keys from `lo` on, `n` of them, is written from a wiring. -/
def writeCells (lo n : Nat) (keep : Bool) (wiring : Tab CellImage) (t : Tab Cell) : Tab Cell :=
  let t := t.map fun e => if lo ≤ e.1 ∧ e.1 < lo + n then (e.1, writtenCell keep {} e.2) else e
  wiring.foldl (fun t e => if e.1 < n then tabMod {} t (lo + e.1) (writtenCell keep e.2) else t) t

/-- A plane is written from the hub wiring in force (R368, R349). -/
def writePlane (b : Bool) (keep : Bool) (s : State) : State :=
  { s with cells := writeCells (2048 + if b then 1024 else 0) 1024 keep (hubWiring s).cells s.cells }

/-- RETURN: an OUT plane is written and read back (Table 08-5). -/
def startReturn (b : Bool) (s : State) : State :=
  if (planeOf s b).state = .out then
    writePlane b true (modPlane b (fun p => { p with state := .rejoin })
      (setHub (fun h => { h with op := opStart, partialValid := true, cellsDone := 0 }) s))
  else endHubOp (opDone 0) s

def execReturn (f : Func) (planeB : Bool) (s : State) : Res :=
  .next (spineCommand f (.hub .cmd) hubOp (fun s => if hubLoading s then some 0x1644 else none) (startReturn planeB) s)

/-- A plane is being returned and its read-back is not settled. -/
def rejoining (s : State) (b : Bool) : Bool := decide ((planeOf s b).state = .rejoin) && !s.hub.pend.contains (.rejoin b)

/-- The read-back of a returning plane ends (Table 08-5). -/
def readBack (good : Bool) (s : State) : State :=
  if rejoining s false || rejoining s true then
    let b := !rejoining s false
    if good then
      setHub (fun h => { h with cellsDone := 1024, op := { h.op with progress := 999 }, pend := h.pend ++ [.rejoin b] }) s
    else
      let s := modPlane b (fun p => { p with state := .out, cause := 5, entry := false }) s
      endHubOp (opEnd .failed 0x2648 s.hub.op) (record 0x2648 8 0 0 0 s)
  else s

def execRejoinReadbackDone (good : Bool) (s : State) : Res := .next (readBack good s)

/-- A plane takes the flip-flops of the other, which is in service. -/
def copyFlipFlops (b : Bool) (s : State) : State :=
  if inService s (!b) then
    forEach (hubWiring s).cells (fun e s =>
      match fin? 1024 e.1 with
      | some c => let o := getCell s (.hub (!b) c); modCell (.hub b c) (fun x => { x with ffValue := o.ffValue, ffInv := o.ffInv }) s
      | none => s) s
  else s

/-- A plane enters SERVICE and takes new tokens. -/
def servePlane (b : Bool) (s : State) : State := modPlane b (fun p => { p with state := .service, entry := true }) s

/-- What waits for the settle point takes effect (Table 08-5, R152). -/
def settleAction (a : HubAction) (s : State) : State :=
  match a with
  | .takeOut b =>
    if inService s b && inService s (!b) then
      endHubOp (opDone 0) (modPlane b (fun p => { p with state := .out, cause := 4, entry := false }) s)
    else endHubOp (opEnd .failed 0x1641 s.hub.op) (record 0x1641 8 0 0 0 s)
  | .rejoin b => endHubOp (opDone 0x0649) (record 0x0649 8 0 0 0 (servePlane b (copyFlipFlops b s)))
  | .switchEntry =>
    match s.tack.body with
    | some (.hub i) =>
      let first := !s.tack.planeAFirst
      let s := writePlane first false (setHubImage (some i) s)
      let s := modPlane (!first) (fun p => { p with entry := false, state := .writing }) (servePlane first s)
      setTack (fun t => { t with op := { t.op with progress := 775 } }) s
    | _ => s

/-- Pending filters of hub cells take effect in both planes (R370). -/
def settleFilters (s : State) : State :=
  forEach (List.finRange 1024) (fun c s =>
    match (getCell s (.hub false c)).pendFilter with
    | some (j, w) =>
      let put (x : Cell) : Cell := { x with joinWin := j, width := w, pendFilter := none }
      modCell (.hub true c) put (modCell (.hub false c) put s)
    | none => s) s

/-- HUB_SETTLE_POINT (R367): no token in a plane or a compare unit. -/
def hubSettle (s : State) : State :=
  if s.flights.any fun f => f.2.stage == .planes then s
  else
    let acts := s.hub.pend
    settleFilters (forEach acts settleAction (setHub (fun h => { h with pend := [] }) s))

def execHubSettlePoint (s : State) : Res := .next (hubSettle s)

/-! ## Audits (R374 to R376) -/

/-- What refuses an audit (R375, R680). -/
def reinAuditCode (s : State) : Option Code :=
  if s.hub.audit.op.state = .busy then some 0x1646
  else if hubLoading s ∧ 5 ≤ s.tack.phase then some 0x1644
  else none

def execReinAuditCmd (f : Func) (chan : ReinChan) (s : State) : Res :=
  .next (spineCommand f (.hub .auditCmd) (fun g => setHub fun h => { h with audit := { h.audit with op := g h.audit.op } }) reinAuditCode
    (setHub fun h => { h with audit := { h.audit with op := opStart, chan, held := true } }) s)

/-- The tokens that producer ports kept enter the fabric when the hold ends (R376). -/
def releaseKept (e : ReinChan) (s : State) : State :=
  let kept := (getBook s e).kept
  forEach kept (fun k s => enterFabric k.2.2 k.1 k.2.1 s) (modBook e (fun b => { b with kept := [] }) s)

/-- CHANNEL_AUDIT_SETTLE_POINT (R374, R375): copies in egress latches, which the book has as consumed (R530), show as in flight (DEDUCED, log
entry 72). -/
def auditSettle (s : State) : State :=
  let a := s.hub.audit
  if a.held then
    let k := egressCopies s a.chan
    let book := getBook s a.chan
    let b := { book with consumed := book.consumed - k }
    let n := (s.flights.filter fun f => f.2.tok.chan == a.chan).length + k
    let good := decide (b.issued = b.consumed + b.overrun + b.loop + n)
    let s := setHub (fun h =>
      { h with audit :=
        { op := if good then opDone 0 else opEnd .failed 0x364B h.audit.op, chan := h.audit.chan, held := false
          issued := BitVec.ofNat 64 b.issued, consumed := BitVec.ofNat 64 b.consumed, overrun := BitVec.ofNat 64 b.overrun
          loop := BitVec.ofNat 64 b.loop, inFlight := BitVec.ofNat 32 n } }) s
    let s := if good then s else record 0x364B 8 (chanAttr s a.chan).owner (reinObject a.chan) 0 s
    raise 0x805 (releaseKept a.chan s)
  else s

def execChannelAuditSettlePoint (s : State) : Res := .next (auditSettle s)

end Sys2Proof.Machine
end

