-- ==== Sys2Proof/Machine/InstallOps.lean ====
section
/-!
DEFINITION. What phases 5 and 6 of a stall load put in force (R134, R135, R139, R148, R153, R207, R264, R349, R381, R437, R446, R494, R604, R619, R669).
-/

namespace Sys2Proof.Machine

open Sys2Proof

/-! ## Tunable fields at their reset values (R135) -/

/-- A slice: its tuned fields reset; its port, flags and counters stay. -/
def plainSlice (x : Slice) : Slice :=
  { port := x.port, portAt := x.portAt, fault := x.fault, guardHit := x.guardHit, clipped := x.clipped, guardTime := x.guardTime }

/-- An acquisition slice. -/
def plainAcq (x : AcqSlice) : AcqSlice := { fault := x.fault, ovrHit := x.ovrHit, ovr := x.ovr }

/-- A voice: idle, at its reset tuning. -/
def plainVoice (x : Voice) : Voice := { contend := x.contend, marks := x.marks, beats := x.beats, playedTo := x.playedTo }

/-- A voice's sequencer: idle. -/
def plainSeq (x : Seq) : Seq :=
  { late := x.late, missed := x.missed, events := x.events, zeroBeats := x.zeroBeats, discarded := x.discarded }

/-- A readout channel. -/
def plainChan (x : Channel) : Channel :=
  { windows := x.windows, invalid := x.invalid, dropped := x.dropped, contend := x.contend }

/-- A rider: stopped at its entry, its shot book empty (R388, R406, R669). -/
def plainRider (entry : BitVec 16) (x : Rider) : Rider :=
  let f : RiderFault := { code := x.fault.code, fatal := x.fault.fatal, late := x.fault.late, overrun := x.fault.overrun, refused := x.fault.refused }
  { pc := entry, fault := f, timeouts := x.timeouts, heldCount := x.heldCount, lateDiscard := x.lateDiscard, recordsDropped := x.recordsDropped
    refusedCount := x.refusedCount }

/-- A fast path: off, at level 0, with the plain step of R437. -/
def plainFast (x : Fast) : Fast := { late := x.late, contend := x.contend, clipped := x.clipped }

/-- The records of a table with keys from `lo` on, `n` of them, are changed. -/
def mapKeys {α : Type} (lo n : Nat) (f : Nat → α → α) (t : Tab α) : Tab α :=
  t.map fun e => if lo ≤ e.1 ∧ e.1 < lo + n then (e.1, f (e.1 - lo) e.2) else e

/-- Every tunable field of a stall takes its reset value, and what starts empty after a load is empty. -/
def resetTunables (n : StallId) (s : State) : State :=
  let k := n.val
  let s := { s with
    slices := mapKeys (k * 32) 32 (fun _ => plainSlice) s.slices, acqs := mapKeys (k * 5) 5 (fun _ => plainAcq) s.acqs
    voices := mapKeys (k * 128) 128 (fun _ => plainVoice) s.voices, seqs := mapKeys (k * 128) 128 (fun _ => plainSeq) s.seqs
    chans := mapKeys (k * 64) 64 (fun _ => plainChan) s.chans, units := mapKeys (k * 4) 4 (fun _ x => { x with cfg := {} }) s.units
    fasts := mapKeys (k * 64) 64 (fun _ => plainFast) s.fasts }
  let s := forEach (stallRiders n) (fun r s => modRider r (plainRider (riderBind s r).entry) s) s
  let s := forEach (stallLines n) (fun l s => goSafe l (modLine l (fun x => keepLine (stopGen x)) s)) s
  let s := modGait n (fun g => { g with deadlines := [], pace := { g.pace with warnPct := 0x0A, critPct := 0x03 } }) s
  modStall n (fun x => { x with drainFlush := false, drainTimeout := 0x0064, envPage := 0, kernelBank := false, kernelChan := 0 }) s

/-! ## INIT -/

/-- A word of a 64-bit value. -/
def setHalf (hi : Bool) (val : Word) (x : Word64) : Word64 := if hi then val ++ bits x 0 32 else bits x 32 32 ++ val

/-- INIT of a voice: the value is in force at once. -/
def initVoice (v : VoiceId) (r : VcReg) (val : Word) : State → State :=
  let tune (t : TuneReg) : State → State := modVoice v fun x => applyTuning { x with pend := setPending t val x.pend }
  match r with
  | .ctl => tune .ctl
  | .phase => tune .phase
  | .frame => tune .frame
  | .scale => tune .scale
  | .ftwLo => modVoice v fun x => { x with tune := { x.tune with ftw := bits x.tune.ftw 32 16 ++ val } }
  | .ftwHi => modVoice v fun x => { x with tune := { x.tune with ftw := (bits val 0 16 : BitVec 16) ++ (bits x.tune.ftw 0 32 : BitVec 32) } }
  | .delay => modVoice v fun x => { x with delay := bits val 0 9 }
  | .status => id

/-- A channel's staged set is in force. -/
def commitInit (x : Channel) : Channel := { x with ints := x.stagedInt, planes := x.stagedPlane }

/-- INIT of a readout channel. -/
def initChan (c : ChanId) (r : ChReg) (val : Word) : State → State :=
  let stage (t : StagedReg) : State → State := modChan c fun x => commitInit (stageWrite t val x)
  match r with
  | .ctl => modChan c fun x => { x with filter := bits val 8 2, filterOn := bits val 8 2, enable := bit val 0 }
  | .int_ => stage .int_
  | .demod => stage .demod
  | .disc => stage .disc
  | .ab p => stage (.ab p)
  | .c p => stage (.c p)
  | .qk p => stage (.qk p)
  | .token => chanField c .token val
  | _ => id

/-- INIT of a capture unit. -/
def initUnit (u : UnitId) (r : TuReg) (val : Word) : State → State :=
  modUnit u fun x =>
    match r with
    | .timeLo => { x with cfg := { x.cfg with time := setHalf false val x.cfg.time } }
    | .timeHi => { x with cfg := { x.cfg with time := setHalf true val x.cfg.time } }
    | _ => { x with cfg := unitCfg r val x.cfg }

/-- INIT of a flux line but for FL_CTL: the goal of R446, the generator, the seed. -/
def initLine (l : LineId) (r : FlReg) (val : Word) : State → State :=
  match r with
  | .dc => modLine l (setGoal (dcPoint val))
  | .genLo => modLine l (setGen .lo val)
  | .genHi => modLine l (setGen .hi val)
  | .genCfg => modLine l (setGen .cfg val)
  | .fast => lineField l .fast val
  | _ => id

/-- INIT of a rider. -/
def initRider (h : RiderId) (r : RhReg) (val : Word) : State → State :=
  match r with
  | .faultEn => riderField h .faultEn val
  | .handler => modRider h fun x => { x with fault := { x.fault with handler := bits val 0 16 } }
  | .l k => modRider h (setWork k.val val)
  | .tLo k => modRider h fun x => setTimeReg k.val (setHalf false val (timeReg x k.val)) x
  | .tHi k => modRider h fun x => setTimeReg k.val (setHalf true val (timeReg x k.val)) x
  | _ => id

/-- The comparator register of an offset. -/
def watchOf : WcReg → Option WatchReg
  | .ctl => some .ctl
  | .ref => some .ref
  | .blank => some .blank
  | .blankTime => some .blankTime
  | .latch => some .latch
  | _ => none

/-- INIT of a slice. -/
def initSlice (i : SliceId) (r : SlReg) (val : Word) : State → State :=
  match r with
  | .ctl => if isSpare i then id else modSlice i fun x => { x with portEn := bit val 24, atten := bits val 16 5, scale := bits val 0 16 }
  | .guardCfg => sliceField i .guardCfg val
  | _ => id

/-- INIT of a CTL register. -/
def initCtl (n : StallId) (r : CtlReg) (val : Word) : State → State :=
  match r with
  | .trot k => modGait n fun g => { g with deadlines := tabSet g.deadlines k.val (bits val 0 12) }
  | .drainCfg => ctlField n .drainCfg val
  | .paceThresh => ctlField n .paceThresh val
  | .envPage => ctlField n .envPage val
  | _ => id

/-- INIT of a Farrier limit. -/
def initFarrier (n : StallId) (r : FaReg) (val : Word) : State → State :=
  match r with
  | .limitsR => farrierField n .limitsR val
  | .limitsD => farrierField n .limitsD val
  | .windows => farrierField n .windows val
  | .timeouts => farrierField n .timeouts val
  | _ => id

/-- One entry of INIT, but for FL_CTL.  Kernel banks and edge tables hold what R264 and R437 give them after a load. -/
def initReg (r : Reg) (val : Word) : State → State :=
  match r with
  | .ctl n r => initCtl n r val
  | .cmp n w r => match watchOf r with | some r => fun s => modWatch (.stall n w) (setWatch r val s.clock.now) s | none => id
  | .drive n k r => initSlice ⟨n, .drive, k⟩ r val
  | .probe n k r => initSlice ⟨n, .probe, k.castLE (by omega)⟩ r val
  | .voice v r => initVoice v r val
  | .seq v .startLo => modSeq v fun q => { q with startReg := setHalf false val q.startReg }
  | .seq v .startHi => modSeq v fun q => { q with startReg := setHalf true val q.startReg }
  | .acq n k .ctl => modAcq n k fun x => { x with range := bits val 16 2, inForce := bits val 16 2 }
  | .chan c r => initChan c r val
  | .unit n u r => initUnit ⟨n, u⟩ r val
  | .kernelPage n => kernelPageField n val
  | .line l r => initLine l r val
  | .cell n b .filter => modCell (.node n b) fun c => { c with joinWin := bits val 8 8, width := bits val 0 8 }
  | .rider h r => initRider h r val
  | .farrier n r => initFarrier n r val
  | _ => id

/-- The FL_CTL entries of INIT come last: a generator starts with its limits set. -/
def initFlCtl (r : Reg) (val : Word) : State → State :=
  match r with
  | .line l .ctl => fun s =>
    let mode : BitVec 2 := bits val 16 2
    modFast l (fun x => { x with en := bit val 8 }) (if mode = 0 ∨ (getLine s l).persistBad then s else modLine l (startGen mode) s)
  | _ => id

/-- The INIT section of a stall image. -/
def applyInit (n : StallId) (i : StallImage) (s : State) : State :=
  let each (f : Reg → Word → State → State) (s : State) : State :=
    forEach i.init (fun e s => match decodeStall n e.1 with | some r => f r e.2 s | none => s) s
  each initFlCtl (each initReg s)

/-! ## Phase 5: structure -/

/-- Words of a table enter a memory from a base on. -/
def fillFrom {α : Type} [DecidableEq α] (d : α) (base : Nat) (words : Tab α) (t : Tab α) : Tab α :=
  words.foldl (fun t e => memSet d t (base + e.1) e.2) t

/-- Control store, library, descriptors and kernels (R207, R264, R408). -/
def fillMemories (n : StallId) (i : StallImage) (s : State) : State :=
  let k := n.val
  { s with
    store := fillFrom 0 (k * 65536) i.program.paddock (fillFrom 0 (k * 65536) i.program.stable (dropKeys (k * 65536) 65536 s.store))
    library := fillFrom 0 (k * 6291456) i.library (dropKeys (k * 6291456) 6291456 s.library)
    descs := fillFrom 0 (k * 32768) i.descs (dropKeys (k * 32768) 32768 s.descs)
    kernels := dropKeys (k * 524288) 524288 s.kernels }

/-- The buckle cells of a node hold the image's wiring (R349). -/
def fillCells (n : StallId) (i : StallImage) (s : State) : State :=
  { s with cells := writeCells (n.val * 256) 256 false i.node.cells s.cells }

/-- The limits of the Farrier (R494). -/
def fillFarrier (n : StallId) (p : FarrierPolicy) (s : State) : State :=
  modFarrier n (fun x =>
    { x with minSep := p.minSep, maxShift := p.maxShift, minSpur := p.minSpur, minImage := p.minImage, maxSkew := p.maxSkew, maxMarker := p.maxMarker
             minWindows := p.minWindows, minPerState := p.minPerState, obsTimeout := p.obsTimeout, actTimeout := p.actTimeout }) s

/-- The comparators take the image's values (R604). -/
def fillWatch (n : StallId) (i : StallImage) (s : State) : State :=
  forEach (List.finRange 10) (fun w s =>
    modWatch (.stall n w) (fun x => { x with cfg := tabGet {} i.watch w.val, next := none, cond := false, blankTok := false }) s) s

/-- The Trot deadline entries (R102). -/
def fillTrot (n : StallId) (i : StallImage) (s : State) : State :=
  modGait n (fun g => { g with deadlines := i.trot.zipIdx.foldl (fun t e => tabSet t e.2 (BitVec.ofNat 12 e.1.deadline)) g.deadlines }) s

/-- Phase 5: structure of a stall, with its queues and the credits they grant (R134, R138, R139, R461). -/
def fillStall (n : StallId) (i : StallImage) (s : State) : State :=
  let s := fillCells n i (fillMemories n i (setStallImages (fun t => tabSet t n.val i) s))
  presentPorts (grantQueues n s)

/-! ## Phase 6 -/

/-- A standing takeover can be applied (R148): its spare is good and free, and its permit bit is set. -/
def standingOk (s : State) (n : StallId) (t : SliceKind × BitVec 4) : Bool :=
  let x := spareOf (getStall s n) t.1
  !x.bad && decide (x.use = .idle) && permitted s n t.1 t.2

/-- One standing takeover; the answer says whether it was applied. -/
def standing (n : StallId) (t : SliceKind × BitVec 4) (s : State) : State × Bool :=
  if standingOk s n t then (modSpare n t.1 (fun x => { x with use := .replacing, target := t.2, served := t.2 }) s, true) else (s, false)

/-- The standing takeovers of an image; the answer says whether each was applied. -/
def standings (n : StallId) : List (SliceKind × BitVec 4) → State → State × Bool
  | [], s => (s, true)
  | t :: rest, s => let r := standing n t s; let q := standings n rest r.1; (q.1, r.2 && q.2)

/-- STALL_POWER (R619): slice and fast flux domains as the image has them; D8, P4, A4, the core and domain 30n + 29 stay on. -/
def stallPower (n : StallId) (i : StallImage) (s : State) : State :=
  let may (k : Nat) : Bool := decide (2 ≤ k) && decide (k ≤ 28) && !(k == 10 || k == 15 || k == 20)
  forEach ((List.range 29).map (· + 1)) (fun k s => setDomains (30 * n.val + k) 1 (!(may k && leftOff i k)) s) s

/-- The trims of every voice follow its lane (R176). -/
def fillTrims (n : StallId) (s : State) : State :=
  forEach (stallVoices n) (fun v s => let t := laneTrim s v; modVoice v (fun x => { x with trim := t }) s) s

/-- Phase 6, but for the record and the floor; the answer is false where a standing takeover was not applied. -/
def applyStall (n : StallId) (i : StallImage) (s : State) : State × Bool :=
  let r := standings n i.standing s
  let s := resetTunables n r.1
  let s := fillTrims n (fillTrot n i (fillWatch n i (fillFarrier n i.farrier s)))
  (stallPower n i (applyInit n i s), r.2)

/-! ## Image records (R153) -/

/-- Table 03-3: a section that an image record holds byte for byte. -/
def readable (type : BitVec 8) : Bool := !([0x10, 0x22, 0x23, 0x24, 0x2B].contains type.toNat)

/-- What an image record holds of a section. -/
def recordSection (s : State) (e : DirEntry) : List Byte :=
  let b := imageBytes s e.offset.toNat e.size.toNat
  if readable e.type then b else digestBytes (sha384 b)

/-- The bytes of an image record: header, directory, and its sections in directory order. -/
def recordContents (s : State) : List Byte :=
  let h := s.tack.header
  imageBytes s 0 (128 + 16 * h.sections.toNat) ++ (readDir s h).flatMap (recordSection s)

/-- The image record at a base is replaced; one longer than its 4 MiB of Table 03-6 is cut there (DESIGN CHOICE, log entry 161). -/
def writeRecord (base : Nat) (s : State) : State :=
  let b := (recordContents s).take 0x400000
  setHbm (fun m => memWrite 0 (dropKeys base 0x400000 m) base b) s

/-- The base of the herd's image record (Table 03-6). -/
def herdRecord : Nat := 0x8000000

/-- The sequence that counts of a copy of the key store: one that fails its check counts as lower than any that passes (R638). -/
def keySeq (x : KeyCopy) : Nat := if x.ok then x.seq + 1 else 0

/-- The copy of the key store that a load takes (R639): none where both fail. -/
def keyPick (p : Persist) : Option KeyCopy :=
  if !p.keyA.ok && !p.keyB.ok then none else if keySeq p.keyA < keySeq p.keyB then some p.keyB else some p.keyA

/-- A key store takes force and enters both copies, with a sequence one above the higher of theirs (R638). -/
def storeKeys (k : KeyStore) (p : Persist) : Persist :=
  let new : KeyCopy := { keys := k, seq := max (keySeq p.keyA) (keySeq p.keyB) }
  { p with keys := k, keyA := new, keyB := new }

/-- A floor rises where the header's flags say so, with its mirror; it never falls (R129, R641). -/
def raiseFloor (s : State) : State :=
  let h := s.tack.header
  if bit h.flags 0 then
    let up (x : BitVec 16) : BitVec 16 := if x < h.secVersion then h.secVersion else x
    if h.kind = 2 then
      setBackup (fun b => { b with floorStall := up b.floorStall })
        (setPersist (fun p => storeKeys { p.keys with floorStall := up p.keys.floorStall } p) s)
    else
      setBackup (fun b => { b with floorHerd := up b.floorHerd })
        (setPersist (fun p => storeKeys { p.keys with floorHerd := up p.keys.floorHerd } p) s)
  else s

end Sys2Proof.Machine
end

