-- ==== Sys2Proof/Machine/Images.lean ====
section
/-!
DEFINITION. Chapter 3: the commands of the tack image loader, the end of its checks and the end of a load.
-/

namespace Sys2Proof.Machine

open Sys2Proof

/-! ## TACK_CMD (Table 03-9) -/

/-- Change the operation status of the loader. -/
def tackOp (g : OpStatus → OpStatus) (s : State) : State := setTack (fun t => { t with op := g t.op }) s

/-- What refuses a load or check at its acceptance (R136, R144). -/
def loadCode (s : State) : Option Code := if s.tack.run.isSome then some 0x1D40 else none

/-- TACK_SLOTn_LEN of a slot. -/
def slotLen (s : State) (slot : SlotId) : Word := if slot.val = 0 then s.tack.slot0Len else s.tack.slot1Len

/-- A load or check is accepted (R144, R145, R156): the slot's length and the state of its target count as they stand (R136, R143); in recovery the
module loads no image (R630).  It sets TACK_FAULT_OBJ and TACK_FAULT_AUX to 0, and an accepted ABORT leaves them (DESIGN CHOICE, log entry 189: R156 says
only how long they keep their values). -/
def startLoad (f : Func) (op : TackOp) (slot : SlotId) (s : State) : State :=
  let isCheck : Bool := match op with | .check _ => true | _ => false
  if s.power.recovery && !isCheck then s
  else
    setTack (fun t =>
      { t with run := some op, slot, flash := false, len := slotLen s slot, fits := stateFits op s, func := some f, op := opStart, partialValid := true, phase := 1, sectionsDone := 0, sectionAt := 0
               sectionsTotal := 0, faultObj := 0, faultAux := 0, lostTarget := false, body := none }) s

/-- A load or check command. -/
def loadCommand (f : Func) (op : TackOp) (slot : SlotId) (s : State) : State :=
  spineCommand f (.tack .cmd) tackOp loadCode (startLoad f op slot) s

def execLoadStall (f : Func) (n : StallId) (slot : SlotId) (s : State) : Res := .next (loadCommand f (.loadStall n) slot s)

def execLoadHerd (f : Func) (slot : SlotId) (s : State) : Res := .next (loadCommand f .loadHerd slot s)

def execLoadHub (f : Func) (slot : SlotId) (s : State) : Res := .next (loadCommand f .loadHub slot s)

def execCheck (f : Func) (n : StallId) (slot : SlotId) (s : State) : Res := .next (loadCommand f (.check n) slot s)

/-! ## The end of an operation -/

/-- A load or check ends (R701, R705). -/
def endTack (op : OpStatus) (s : State) : State :=
  raise 0x800 (setTack (fun t => { t with run := none, op, partialValid := false, phase := 0, body := none, lostTarget := false }) s)

/-- The stalls that a bring-up has before it (R632, R633). -/
def bringList (i : HerdImage) : List StallId := (List.finRange 8).filter fun n => bit i.stabled n.val || bit i.harnessed n.val

/-- The bring-up of the stalls that HERD_POWER names starts. -/
def startBringUp (bring : Tab PowerUpFound) (s : State) : State :=
  let l := bringList (herd s)
  let harness := if booting s && bootsFromFlash s then (List.finRange 8).filter fun n => bit (herd s).harnessed n.val else []
  bringNext bring 9 (setPower (fun p => { p with toBring := l, harnessAtBoot := harness, bringing := none, bringTotal := l.length }) s)

/-- Boot step 6 (R632): nothing is brought up without a herd image in force. -/
def bootStep6 (bring : Tab PowerUpFound) (s : State) : State :=
  let s := setPower (fun p => { p with phase := .boot 6, op := { p.op with progress := 500 } }) s
  if s.herdImage.isSome then startBringUp bring s else endBringUp s

/-- The load of the herd image from the flash starts (R631). -/
def startFlashHerd (s : State) : State :=
  setTack (fun t => { t with run := some .loadHerd, flash := true, fits := stateFits .loadHerd s, func := none, op := opStart, phase := 1, partialValid := true
                             sectionsDone := 0, sectionAt := 0, sectionsTotal := 0, lostTarget := false, body := none }) s

/-- What follows a load from the flash: the bring-up goes on (R631, R632).  After another load, a flash image that had to wait has its
turn. -/
def afterTack (flash : Bool) (run : Option TackOp) (up : Bool) (bring : Tab PowerUpFound) (s : State) : State :=
  if flash then
    match run with
    | some (.loadStall n) => bringOn n up bring s
    | _ => if up then s else bootStep6 bring s
  else if s.power.phase = .boot 5 then startFlashHerd s
  else
    match s.power.bringing with
    | some n =>
      if (getStall s n).cmd.isSome then s
      else if lifeOf n s = .stabled then bringAligned n bring s
      else bringOn n false bring s
    | none => s

/-- The end of an operation that fails or is aborted, with its code (R157). -/
def failTack (st : OpState) (code : Code) (object aux : Word) (bring : Tab PowerUpFound) (s : State) : State :=
  let t := s.tack
  afterTack t.flash t.run false bring (endTack (opEnd st code t.op) (record code 8 0 object aux s))

/-- What refuses an ABORT (R149). -/
def abortLoadCode (s : State) : Option Code := if s.tack.run.isSome ∧ 5 ≤ s.tack.phase then some 0x1D56 else none

/-- ABORT in phases 1 to 4; with nothing running it ends nothing. -/
def abortLoad (bring : Tab PowerUpFound) (s : State) : State :=
  if s.tack.run.isSome then failTack .aborted 0x0D55 0 0 bring s else s

def execAbort (f : Func) (bring : Tab PowerUpFound) (s : State) : Res :=
  .next (spineCommand f (.tack .cmd) tackOp abortLoadCode (abortLoad bring) s)

/-! ## TACK_CHECKS_END -/

/-- First progress and width of a phase (Table 03-7). -/
def phaseSpan (p : Nat) : Nat × Nat :=
  match p with
  | 2 => (50, 100)
  | 3 => (150, 200)
  | 4 => (350, 250)
  | _ => (0, 50)

/-- The progress at which a check fails: the sections of its phase that are done, in proportion (R145). -/
def flawProgress (h : Header) (f : Flaw) : Nat :=
  let p := phaseSpan f.phase
  if f.phase < 3 then p.1 else p.1 + min (p.2 - 1) (p.2 * f.section_ / max 1 h.sections.toNat)

/-- A refusal in phases 1 to 4 leaves the module as it was (R136, R140); a flash image that is refused records 0x2D60 too (R631, R632). -/
def refuseImage (f : Flaw) (bring : Tab PowerUpFound) (s : State) : State :=
  let h := readHeader s
  let aux := BitVec.ofNat 32 (f.aux.getD f.section_)
  let s := setTack (fun t =>
    { t with faultObj := f.object, faultAux := aux, sectionAt := BitVec.ofNat 8 f.section_
             sectionsDone := if f.phase < 3 then 0 else BitVec.ofNat 8 f.section_
             sectionsTotal := if f.phase = 1 then 0 else BitVec.ofNat 8 h.sections.toNat
             op := { t.op with progress := max t.op.progress (flawProgress h f) } }) s
  let s := if s.tack.flash then record 0x2D60 8 0 0 0 s else s
  failTack .failed f.code f.object aux bring s

/-- The lanes during phases 5 and 6 of a LOAD_HERD (R541). -/
def idleLanes (s : State) : State :=
  forEach (List.finRange 16) (fun k s =>
    let s := if (getLane s k).state = .unhitched then modLane k (fun x => { x with cause := 6 }) s else unhitch k 6 none false s
    modLane k (fun x => { x with enable := false }) s) s

/-- The plane that a hub update writes first (R152, R369): A, unless B alone is out. -/
def aFirst (s : State) : Bool := !(inService s false && decide ((planeOf s true).state = .out))

/-- A hub update reaches its first plane (R152, R369). -/
def enterHub (s : State) : State :=
  let a := aFirst s
  let first := !a
  let served := inService s first
  let s := setTack (fun t => { t with planeAFirst := a }) s
  let s := modPlane first (fun p => { p with state := .writing, entry := false }) s
  let s := if served then losePlaneCopies first s else s
  setHub (fun h => { h with pend := h.pend ++ [.switchEntry] }) s

/-- Phase 5 begins (R57, R145, R472). -/
def enterCommit (op : TackOp) (b : ImageBody) (s : State) : State :=
  let h := readHeader s
  let total := BitVec.ofNat 8 h.sections.toNat
  let s := setTack (fun t =>
    { t with phase := 5, op := { t.op with progress := 600 }, sectionsDone := total, sectionsTotal := total, sectionAt := 0, header := h, body := some b
             digest := imageDigest s h }) s
  match op with
  | .loadStall n => if lifeOf n s = .harnessed then toStabled n (discardImage n s) else s
  | .loadHerd => idleLanes s
  | .loadHub => enterHub s
  | .check _ => s

/-- A hub operation runs, for which a load of the hub's wiring waits (R369). -/
def hubBusy (s : State) : Bool := decide (s.hub.op.state = .busy) || decide ((planeOf s false).state = .rejoin) || decide ((planeOf s true).state = .rejoin)

/-- A load that writes the hub planes. -/
def writesHub : TackOp → Bool
  | .loadHub => true
  | .loadHerd => true
  | _ => false

/-- What the state of the target refuses at the start of commit (R143). -/
def commitFlaw (op : TackOp) (s : State) : Option Flaw := if stateFits op s then none else some { phase := 4, code := 0x1D44 }

/-- A CHECK that passes ends (R146).  All sections of the image are through, as after a load (DESIGN CHOICE, log entry 188: R155 does not say what TACK_RESULT
reads then). -/
def checkPassed (bring : Tab PowerUpFound) (s : State) : State :=
  let total := BitVec.ofNat 8 (readHeader s).sections.toNat
  afterTack false none true bring (endTack (opDone 0) (setTack (fun t => { t with sectionsDone := total, sectionsTotal := total, sectionAt := 0 }) s))

/-- Phases 1 to 4 have ended. -/
def checksEnd (op : TackOp) (c : ImageChecks) (bring : Tab PowerUpFound) (s : State) : State :=
  match imageFlaw s op c with
  | some f => refuseImage f bring s
  | none =>
    match op with
    | .check _ => checkPassed bring s
    | _ =>
      match commitFlaw op s with
      | some f => refuseImage f bring s
      | none => if writesHub op && hubBusy s then s else enterCommit op c.body s

/-- The sections that the operand gives are those of the image's kind, in ascending index, or phase 1 refuses the image; no other end of the checks can
come. -/
def checksFit (s : State) (op : TackOp) (c : ImageChecks) : Bool :=
  let h := readHeader s
  (headerFlaw s op h (readDir s h)).isSome || (bodyFits h c.body && bodyOrdered c.body)

def execTackChecksEnd (checks : ImageChecks) (bring : Tab PowerUpFound) (s : State) : Res :=
  match s.tack.run with
  | none => .next s
  | some op =>
    if 5 ≤ s.tack.phase then .next s
    else if checksFit s op checks then .next (checksEnd op checks bring s)
    else .next s

/-! ## LOAD_END -/

/-- A stall load completes (R145, R148): the stall is HARNESSED with its image in force. -/
def completeStall (n : StallId) (i : StallImage) (bring : Tab PowerUpFound) (s : State) : State :=
  let t := s.tack
  let r := applyStall n i (fillStall n i s)
  let s := raiseFloor (writeRecord (recordBase n) r.1)
  let s := setLife n .harnessed (modStall n (fun x => { x with imageTag := t.header.tag }) s)
  let code : Code := if r.2 then 0 else 0x0D53
  let s := if r.2 then s else record code 8 0 0 0 s
  afterTack t.flash t.run true bring (endTack (opDone code) s)

/-- The bring-up after a herd image has completed its load (R632, R633): boot's own load goes on with step 6; while boot runs, a host's load leaves the
bring-up to boot. -/
def bringAfterHerd (flash : Bool) (bring : Tab PowerUpFound) (s : State) : State :=
  if flash then bootStep6 bring s
  else if s.power.phase = .boot 5 then startFlashHerd s
  else if booting s then s
  else startBringUp bring s

/-- The lanes and cages of a herd image (R525, R541, Table 16-1). -/
def fillLanes (i : HerdImage) (s : State) : State :=
  let s := forEach (List.finRange 4) (fun k s => setDomains (250 + k.val) 1 (bit i.cages k.val) s) s
  forEach (List.finRange 16) (fun k s =>
    let c := tabGet {} i.lanes k.val
    let s := modLane k (fun x => { x with enable := c.enable, eqAuto := c.eqAuto, eqSet := c.eqSet, backoff := 0, prbs := { errors := x.prbs.errors, bits := x.prbs.bits } }) s
    if c.enable then train k s else if (getLane s k).state ≠ .unhitched then unhitch k 6 none false s else s) s

/-- The spine comparators of a herd image. -/
def fillSpineWatch (i : HerdImage) (s : State) : State :=
  forEach (List.finRange 16) (fun k s =>
    modWatch (.spine k) (fun x => { x with cfg := tabGet {} i.watch k.val, next := none, cond := false, blankTok := false }) s) s

/-- KEYS take effect as a whole (R128). -/
def applyKeys (h : Header) (i : HerdImage) (s : State) : State :=
  match keysAll h.keySlot.toNat i.keys s.persist.keys with
  | .ok k => setPersist (storeKeys k) s
  | .error _ => s

/-- Copies that entered the first plane alone leave the compare units as its copies (R152). -/
def joinPlane (b : Bool) (s : State) : State :=
  { s with flights := s.flights.map fun e =>
      let f := e.2
      if f.stage = .planes ∧ (planeCopy f b).isNone then
        (e.1, if b then { f with b := f.a, gotB := true } else { f with a := f.b, gotA := true })
      else e }

/-- A time-pulse output with its registers at their reset values; what it has armed runs on. -/
def plainPulse (x : TimePulse) : TimePulse :=
  { x with mode := 0, polarity := false, start := 0, period := 0, width := ({} : TimePulse).width }

/-- Every tunable field of the spine's blocks takes its reset value (R135), but for those of lanes, comparators and hub cells, which the image gives. -/
def resetSpine (s : State) : State :=
  let s := { s with spine := { s.spine with pace := { s.spine.pace with warnPct := 0x0A, critPct := 0x03 } } }
  let s := forEach (List.finRange 8) (fun k s => modPulse k plainPulse s) s
  let s := forEach (List.finRange 8) (fun k s => modHk k (fun x => { x with mode := 0, length := 0, interval := 0, entries := [] }) s) s
  setHk (fun h => { h with bgCal := true, refEn := true }) s

/-- A herd image is in force (R118, R135, R151, Table 08-5). -/
def completeHerd (i : HerdImage) (bring : Tab PowerUpFound) (s : State) : State :=
  let t := s.tack
  let s := { s with herdImage := some i, hubImage := some i.hub }
  let s := setTack (fun t => { t with herdTag := t.header.tag, herdDigest := t.digest }) s
  let s := joinPlane true (joinPlane false (servePlane true (servePlane false (writePlane true false (writePlane false false s)))))
  let s := fillSpineWatch i (fillLanes i (resetSpine s))
  let s := raiseFloor (applyKeys t.header i s)
  let s := issueSeal 8 1 (writeRecord herdRecord s)
  bringAfterHerd t.flash bring (endTack (opDone 0) s)

/-- A hub update completes: the second plane matches the first (R152). -/
def completeHub (bring : Tab PowerUpFound) (s : State) : State :=
  let second := s.tack.planeAFirst
  let s := joinPlane second (servePlane second (copyFlipFlops second (writePlane second false s)))
  let s := raiseFloor (writeRecord herdRecord s)
  afterTack false none true bring (endTack (opDone 0) (issueSeal 8 1 s))

/-- A hub update fails (R147, R152): before the switch the first plane stays out and the other carries alone with the old wiring; after
it the second plane stays out. -/
def failHub (bring : Tab PowerUpFound) (s : State) : State :=
  let before := s.hub.pend.contains .switchEntry
  let bad := if before then !s.tack.planeAFirst else s.tack.planeAFirst
  let s := modPlane bad (fun p => { p with state := .out, cause := 5, entry := false }) s
  let s := setHub (fun h => { h with pend := h.pend.filter (· != .switchEntry) }) s
  failTack .failed (if before then 0x2D58 else 0x2D54) 0 0 bring s

/-- The lanes return to the herd image that stays in force. -/
def failHerd (bring : Tab PowerUpFound) (s : State) : State := failTack .failed 0x2D54 0 0 bring (fillLanes (herd s) s)

/-- Phases 5 and 6 have ended. -/
def loadEnd (r : CommitResult) (bring : Tab PowerUpFound) (s : State) : State :=
  if s.tack.phase < 5 then s
  else
    match s.tack.run, s.tack.body with
    | some (.loadStall n), some (.stall i) =>
      if s.tack.lostTarget then failTack .failed 0x2D57 0 0 bring s
      else match r with | .good => completeStall n i bring s | .bad => failTack .failed 0x2D54 0 0 bring s
    | some .loadHerd, some (.herd i) => match r with | .good => completeHerd i bring s | .bad => failHerd bring s
    | some .loadHub, some (.hub _) =>
      match r with
      | .good => if s.hub.pend.contains .switchEntry then s else completeHub bring s
      | .bad => failHub bring s
    | _, _ => s

def execLoadEnd (result : CommitResult) (bring : Tab PowerUpFound) (s : State) : Res := .next (loadEnd result bring s)

/-! ## Staging slots (R141, R142) -/

/-- The staging slot of an address (Table 03-6). -/
def slotOf (a : Nat) : Option SlotId := if a < 0x4000000 then some 0 else if a < 0x8000000 then some 1 else none

/-- A load or check reads the slot: phases 1 to 6 of an operation from it. -/
def slotRead (s : State) (k : SlotId) : Bool := s.tack.run.isSome && !s.tack.flash && decide (s.tack.slot = k)

/-- Bytes enter the HBM; the blocks written whole carry no error any more. -/
def hbmWrite (a : Nat) (bytes : List Byte) (s : State) : State :=
  let s := setHbm (fun m => memWrite 0 m a bytes) s
  setTack (fun t => { t with badBlocks := t.badBlocks.filter fun b => !(decide (a ≤ b * 32) && decide (b * 32 + 32 ≤ a + bytes.length)) }) s

/-- A host write to a staging slot. -/
def slotWrite (f : Func) (k : SlotId) (a : Nat) (bytes : List Byte) (s : State) : State :=
  if !hostReach s f then s
  else if slotRead s k then refuseAt f true a 0x1D5A 0 8 0 (BitVec.ofNat 32 a) s
  else hbmWrite a bytes s

/-- A write that meets a staging slot: the bytes in each slot as that slot takes them, those beyond as `rest` takes them. -/
def stageBytes (f : Func) (a : Nat) (bytes : List Byte) (rest : Nat → List Byte → State → State) (s : State) : State :=
  let part (k : SlotId) (a : Nat) (l : List Byte) (s : State) : State := if l.isEmpty then s else slotWrite f k a l s
  let n0 := 0x4000000 - a
  let n1 := 0x8000000 - max a 0x4000000
  let l := bytes.drop n0
  let s := part 1 (max a 0x4000000) (l.take n1) (part 0 a (bytes.take n0) s)
  if l.length ≤ n1 then s else rest (max a 0x8000000) (l.drop n1) s

def execStagingSlotWrite (f : Func) (addr : BitVec 36) (bytes : List Byte) (s : State) : Res :=
  .next (stageBytes f addr.toNat bytes (fun _ _ s => s) s)

end Sys2Proof.Machine
end

