-- ==== Sys2Proof/Machine/PowerOps.lean ====
section
/-!
DEFINITION. What power, resets and boot share (chapter 16): what a module reset leaves, the host-only reset, the checks of boot step 2, the connection of the
flux lines, and what a power domain's fault does.
-/

namespace Sys2Proof.Machine

open Sys2Proof

/-! ## What a reset leaves (R622, R635, R636) -/

/-- STRAPS.clock_mode of a sampled switch bank (Table 16-3). -/
def strapClock (straps : BitVec 8) : BitVec 2 := bits straps 2 2

/-- The causes of a module reset (RESET_CAUSE.last_cause). -/
inductive ResetCause where
  | powerOn
  | brownOut
  | perst
  | moduleReset
  | watchdog
  deriving DecidableEq, Repr

/-- The number of a cause. -/
def causeNum : ResetCause → BitVec 4
  | .powerOn => 1
  | .brownOut => 2
  | .perst => 3
  | .moduleReset => 4
  | .watchdog => 5

/-- A flux line through a module reset that finds the bus in range: its DC state and persisted values stay, and its goal is its safe value. -/
def heldLine (x : Line) : Line :=
  let y : Line := { keepLine (if x.dc = .halter then x else stopGen x) with persistBad := false, safeWritten := false }
  setGoal x.safe y

/-- A flux line whose output switch has opened: the pin is at 0 V (R418). -/
def openedLine (x : Line) : Line := { curb := x.curb, safe := x.safe, goal := x.safe, spanNow := x.safe.span }

/-- A flux line whose output switch opens while the module runs (R621): its DC path stops where the pin is at 0 V. -/
def openSwitch (x : Line) : Line :=
  { x with connected := false, codeNow := 0, dc := if x.persistBad then .halter else .steady, entering := none, lastMove := none
           genMode := 0, genRunning := false }

/-- The backup domain at a module reset (R626, R627). -/
def backupAt (cause : ResetCause) (valid : Bool) (b : Backup) : Backup :=
  if cause = .powerOn ∧ !valid then {}
  else { b with lost := b.lost && decide (cause ≠ .powerOn), lastCause := causeNum cause, resetCount := satInc b.resetCount }

/-- The always-on domains: keep domains, HOST, spine processor, persistent registers, WATCH, Tally and backup (Table 16-1). -/
def alwaysOn : BitVec 256 :=
  domainMask 240 4 ||| domainMask 254 2 ||| (List.range 8).foldl (fun acc n => acc ||| domainMask (30 * n) 1) 0

/-- The domains that stay on from boot step 1 until power-off (Table 16-1). -/
def bootDomains : BitVec 256 := domainMask 244 6

/-- The persistent register file through a reset: its status register is no part of what it keeps. -/
def keptPersist (p : Persist) : Persist := { p with corrected := 0, uncorrected := 0, keyRebuilt := false }

/-- The module with every register at its Reset column value, but for what a reset keeps: the queue of commands, the memories that outlive it, the Tally, the
feeds, the DC state of the flux lines as `line` leaves it, and the free values drawn. -/
def plainModule (line : Line → Line) (s : State) : State :=
  { State.reset with
    pending := s.pending, persist := keptPersist s.persist, backup := s.backup, tally := s.tally, feeds := s.feeds, freeCtr := s.freeCtr
    lines := s.lines.map fun e => (e.1, line e.2) }

/-- A module reset (Table 16-2), up to the start of boot. -/
def resetModule (cause : ResetCause) (w : ResetWorld) (s : State) : State :=
  let on : BitVec 256 := if cause = .powerOn then alwaysOn else alwaysOn ||| (s.power.domOn &&& bootDomains)
  let t := plainModule (if cause = .powerOn then openedLine else heldLine) s
  let t := { t with
    backup := backupAt cause w.backupValid s.backup
    power := { straps := w.straps, ga := w.ga, domOn := on, fanTray := s.power.fanTray }
    tc := { refSrc := if strapClock w.straps = 3 then 0 else strapClock w.straps } }
  if cause = .powerOn ∧ !w.backupValid then record 0x3D63 8 0 0 0 t else t

/-- A stall's feed transmitter starts again from 0 with a new generation (R652). -/
def restartFeed (x : Feed) : Feed := { gen := x.gen + 1 }

/-- Every feed transmitter of a stall starts again. -/
def restartFeeds (s : State) : State := forEach (List.finRange 8) (fun n s => modFeed n.val restartFeed s) s

/-! ## The reset of HOST alone (R624, R698) -/

/-- A function after a reset of HOST alone: its configuration, MSI-X table and error status are cleared; its log and counters stay. -/
def hostOnlyFunc (h : HostFunc) : HostFunc :=
  { log := h.log, logCount := h.logCount, merged := h.merged, unsent := h.unsent }

/-- A reset of the HOST block alone; a link that was trained is lost. -/
def resetHost (s : State) : State :=
  let trained := decide (s.host.width ≠ 0)
  let s := { s with
    funcs := s.funcs.map fun e => (e.1, hostOnlyFunc e.2)
    irqs := s.irqs.map fun e => (e.1, { e.2 with parked := false })
    host := { s.host with width := 0, speed := 0, downs := if trained then satInc s.host.downs else s.host.downs } }
  if trained then record 0x3F01 8 0 0 0 s else s

/-! ## Boot (Table 16-4) -/

/-- STRAPS.clock_mode (Table 16-3). -/
def clockMode (s : State) : BitVec 2 := strapClock s.power.straps

/-- Boot step 2 checks the firmware banks (R630). -/
def checkBanks (found : BootFound) (s : State) : State :=
  let ok (b : Bool) : Bool := if b then found.bank1 else found.bank0
  let bank := s.persist.fwBank
  if bits s.power.straps 0 2 = (3 : BitVec 2) then setPower (fun p => { p with recovery := true }) s
  else if ok bank then s
  else if ok (!bank) then record 0x3D65 8 0 0 0 (setPersist (fun p => { p with fwBank := !bank }) s)
  else setPower (fun p => { p with recovery := true }) s

/-- The key store as R641 rebuilds it. -/
def rebuiltKeys (p : Persist) (b : Backup) : KeyStore :=
  { slot0 := .enrolled p.fuseKey, slot1 := .revoked, slot2 := .revoked, slot3 := .revoked
    floorHerd := if b.lost then 0 else b.floorHerd, floorStall := if b.lost then 0 else b.floorStall }

/-- Boot step 2 loads the key store (R639, R641); the mirrors of the floors follow it. -/
def checkKeys (found : BootFound) (s : State) : State :=
  let s := setPersist (fun p => { p with keyA := { p.keyA with ok := p.keyA.ok && found.keyA }, keyB := { p.keyB with ok := p.keyB.ok && found.keyB } }) s
  let s :=
    match keyPick s.persist with
    | none => record 0x3D66 8 0 0 0 (setPersist (fun p => { storeKeys (rebuiltKeys s.persist s.backup) p with keyRebuilt := true }) s)
    | some c =>
      let s := setPersist (fun p => { p with keys := c.keys }) s
      if s.persist.keyA.ok && s.persist.keyB.ok then s else record 0x0D62 8 0 0 0 s
  setBackup (fun b => { b with floorHerd := s.persist.keys.floorHerd, floorStall := s.persist.keys.floorStall }) s

/-- A line takes the persisted values of the copy that a load takes, or the factory values where both copies have failed (R445). -/
def takeFlux (x : Option FluxCopy) (y : Line) : Line :=
  match x with
  | none =>
    let z : Line := { y with curb := {}, safe := {}, goal := {}, persistBad := true }
    if y.connected then restBad (setGoal {} z) else { z with spanNow := 0, codeNow := 0, dc := .halter }
  | some x =>
    let dc : DcState := if y.dc = .halter then .steady else y.dc
    setGoal x.safe { y with curb := x.curb, safe := x.safe, dc := dc }

/-- Boot step 2 loads the flux values of a line, a copy of which may be found to fail (R639, R445). -/
def checkFlux (l : LineId) (failA failB : Bool) (s : State) : State :=
  let old := tabGet {} s.persist.flux (lineKey l)
  let x : FluxPersist := { a := { old.a with ok := old.a.ok && !failA }, b := { old.b with ok := old.b.ok && !failB } }
  let s := modLine l (takeFlux (fluxPick x)) (setPersist (fun p => { p with flux := tabSet p.flux (lineKey l) x }) s)
  match x.a.ok, x.b.ok with
  | true, true => s
  | false, false => recordLine 0x3503 l s
  | _, _ => recordLine 0x0D62 l s

/-- The line of a key. -/
def lineOfKey (k : Nat) : Option LineId :=
  match fin? 8 (k / 64), fin? 64 (k % 64) with
  | some n, some i => some ⟨n, i⟩
  | _, _ => none

/-- The flux values of every line that has persisted ones or a copy that fails; the others hold the factory values. -/
def checkAllFlux (found : BootFound) (s : State) : State :=
  let known := s.persist.flux.filterMap fun e => lineOfKey e.1
  let more := (found.fluxA ++ found.fluxB.filter fun l => !found.fluxA.contains l).filter fun l => !known.contains l
  forEach (known ++ more) (fun l s => checkFlux l (found.fluxA.contains l) (found.fluxB.contains l) s) s

/-- The 1588 domains that are enabled listen (Table 14-3). -/
def listenDomains (s : State) : State :=
  forEach [(0 : Fin 2), 1] (fun d s =>
    if (tabGet ({} : DomainCfg) s.persist.domains d.val).enable then modDomain d (fun x => { x with state := .listening }) s else s) s

/-- Boot steps 1 and 2: boot stands at step 3 afterwards. -/
def bootToStep3 (found : BootFound) (s : State) : State :=
  let s := setPower (fun p => { p with domOn := p.domOn ||| bootDomains }) s
  let failed := (if found.keyA then 0 else 1) + (if found.keyB then 0 else 1) + found.fluxA.length + found.fluxB.length
  let s := persistErrors found.corrected (min failed found.doubles) (checkBanks found s)
  let s := listenDomains (checkAllFlux found (checkKeys found s))
  setPower (fun p => { p with phase := .boot 3, cmd := some .boot, op := { state := .busy, progress := 150 }, partialValid := true, stallsUp := 0 }) s

/-- Steps 1 and 2 of R444 on a line whose output switch is open. -/
def connectLine (x : Line) : Line :=
  if x.connected then x
  else
    let y : Line := { x with connected := true, spanNow := x.safe.span, codeNow := 0, lastMove := none, entering := none }
    if x.persistBad then restBad { y with dc := .steady } else setGoal x.safe { y with dc := .steady }

/-- Every flux line of the module. -/
def allLines : List LineId := (List.finRange 8).flatMap stallLines

/-- Boot steps 3 to 5 once the reference has locked (R629, R556, R631). -/
def bootFromStep3 (src : BitVec 2) (bring : Tab PowerUpFound) (s : State) : State :=
  let mode := clockMode s
  let refSrc : BitVec 2 := if mode ≠ 3 then mode else if src = 0 then 0 else 2
  let s := setTime (fun t => { t with refSrc }) (setClock (fun c => { c with sched := 0, running := true }) s)
  let s := forEach allLines (fun l s => modLine l connectLine s) s
  if bootsFromFlash s && !s.power.recovery then
    let s := setPower (fun p => { p with phase := .boot 5, op := { p.op with progress := 350 } }) s
    if s.tack.run.isNone then startFlashHerd s else s
  else bootStep6 bring s

/-! ## Supplies and domains -/

/-- Change one of the two supplies. -/
def modSupply (second : Bool) (f : Supply → Supply) (s : State) : State :=
  setPower (fun p => if second then { p with supply2 := f p.supply2 } else { p with supply1 := f p.supply1 }) s

/-- Every stall takes a stall fatal fault (R57). -/
def fatalAll (s : State) : State := forEach (List.finRange 8) fatalStall s

/-- A connected line stands more than 1 LSB off 0 V (R616). -/
def offZero (x : Line) : Bool := x.connected && decide (1 < (codeVal x.spanNow x.codeNow).natAbs)

/-- The final totals of every stall reach the Tally at a power-fail shutdown (R652). -/
def finalFeeds (s : State) : State :=
  tallyLog 0x13 0xFF 0 (forEach (List.finRange 8) (fun n s => takeMessage { from_ := .stall n } (sendFeed n s)) s)

/-- A slice of a stall by the number of its domain in the stall, 2 to 20 (Table 16-1). -/
def domainSlice (n : StallId) (k : Nat) : Option SliceId :=
  if k ≤ 10 then (fin? 9 (k - 2)).map (⟨n, .drive, ·⟩)
  else if k ≤ 15 then (fin? 9 (k - 11)).map (⟨n, .probe, ·⟩)
  else (fin? 9 (k - 16)).map (⟨n, .acq, ·⟩)

/-- What a fault of domain k of a stall does (R621). -/
def stallDomainFault (n : StallId) (k : Nat) (bring : Tab PowerUpFound) (s : State) : State :=
  if k = 0 then forEach (stallLines n) (fun l s => modLine l openSwitch s) s
  else if k = 1 then losePower n bring s
  else if k ≤ 20 then (match domainSlice n k with | some i => converterFault i s | none => s)
  else match fin? 8 (k - 21) with | some g => groupFault ⟨n, g⟩ 2 s | none => s

/-- A domain that has power faults, or one that is to be switched on fails to come up (R621). -/
def domainFault (d : Nat) (bring : Tab PowerUpFound) (s : State) : State :=
  if bit s.power.domOn d || s.power.switchOn.contains d then
    let stall := if d < 240 then d / 30 else 8
    let s := record 0x3D67 stall 0 0 0
      (setPower (fun p => { dropDomains d 1 s.clock.now p with domFault := p.domFault ||| domainMask d 1 }) s)
    match fin? 8 (d / 30) with
    | some n => stallDomainFault n (d % 30) bring s
    | none => if 244 ≤ d ∧ d < 250 then fatalAll s else s
  else s

end Sys2Proof.Machine
end

