-- ==== Sys2Proof/Machine/Time.lean ====
section
/-!
DEFINITION. Chapter 14: ALIGN, the epoch's 1588 time, ports and domains, time-pulse outputs.
-/

namespace Sys2Proof.Machine

open Sys2Proof

/-! ## Commands (Table 14-5) -/

/-- Change the operation status of TIME. -/
def timeOp (g : OpStatus → OpStatus) (s : State) : State := setTime (fun t => { t with op := g t.op }) s

/-- The end of a TIME operation (R705). -/
def endTimeOp (op : OpStatus) (s : State) : State := raise 0x803 (setTime (fun t => { t with op, align := false }) s)

/-- ALIGN (R565). -/
def execAlign (f : Func) (s : State) : Res :=
  .next (spineCommand f (.time .cmd) timeOp
    (fun s => if s.tc.align then some 0x1B02 else if someRides s then some 0x1B01 else none)
    (fun s => evalServo (setTime (fun t => { t with op := opStart, align := true, alignStepped := false }) s)) s)

/-- ALIGN has a target (R565): a LOCKED domain for a lead, a HITCHED follow lane for a follower. -/
def alignTarget (s : State) : Bool :=
  if s.persist.time.role = 1 then locked s 0 || locked s 1 else if s.persist.time.role = 2 then (followLane s).isSome else false

/-- The capture units whose trigger of trig_src 4 a forward step skips trigger at the first frame boundary after it (R566). -/
def skipTriggers (from_ till : Fine) (s : State) : State :=
  forEach ((List.finRange 8).flatMap stallUnits) (fun u s =>
    let x := getUnit s u
    let at_ := (bits x.arm.time 11 53 : BitVec 53).toNat * fineFrame
    if x.armed ∧ x.arm.trigSrc = 4 ∧ !x.fired ∧ from_ < at_ ∧ at_ ≤ till then
      trigger u { frame := till / fineFrame + 1 } (modUnit u (fun x => { x with fired := true }) s)
    else s) s

/-- The step of an ALIGN (R565, R566): the frame counter moves by whole units of 20 ns, that is 5 frames; the remainder is slewed.  EPOCH_TAI shows once the ALIGN
has completed (R557). -/
def alignStep (tai : Tai) (error : Int) (s : State) : State :=
  if s.tc.align ∧ !s.tc.alignStepped ∧ alignTarget s ∧ !someRides s then
    let units := error.tdiv 320
    let old := s.clock.sched
    let new := ((old : Int) - units * (5 * fineFrame : Nat)).toNat
    let s := setTime (fun t =>
      { t with tai, stepped := true, alignStepped := true, error := error - units * 320, op := { t.op with progress := 500 } }) s
    issueSeal 9 1 (skipTriggers old new (skipPulses old new (setClock (fun c => { c with sched := new }) s)))
  else s

def execAlignStep (tai : Tai) (error : Int) (s : State) : Res := .next (alignStep tai error s)

/-- ALIGN ends when the error is below lock_thresh (R565), and EPOCH_TAI is valid (R557). -/
def execAlignComplete (error : Int) (s : State) : Res :=
  .next (if s.tc.align ∧ s.tc.alignStepped ∧ error.natAbs < ns16 s.persist.time.lockThresh.toNat then
      record 0x0B03 8 0 0 0 (endTimeOp (opDone 0x0B03) (setTime (fun t => { t with error, epochValid := true }) s))
    else s)

/-- No target within 60 s (R565): an ALIGN that has its target goes on. -/
def execAlignTimeout (s : State) : Res :=
  .next (if s.tc.align ∧ !s.tc.alignStepped ∧ !alignTarget s then record 0x2B01 8 0 0 0 (endTimeOp (opEnd .failed 0x2B01 s.tc.op) s) else s)

/-- SWITCH (R579). -/
def timeSwitch (d : Fin 2) (s : State) : State :=
  let s := setTime (fun t => { t with op := opStart }) s
  if s.persist.time.role = 1 ∧ followed s ≠ some d then endTimeOp (opDone 0x0B02) (switchTo d s)
  else endTimeOp (opDone 0) (evalServo s)

def execSwitch (f : Func) (d : Fin 2) (s : State) : Res :=
  .next (spineCommand f (.time .cmd) timeOp
    (fun s => if s.tc.align then some 0x1B02 else if locked s d then none else some 0x1B04) (timeSwitch d) s)

/-- A domain's medians are cleared. -/
def clearMedians (x : Domain) : Domain := { x with samples := [], recent := [], outRun := [], offset := 0, path := 0 }

/-- ACCEPT (Table 14-3). -/
def timeAccept (d : Fin 2) (s : State) : State :=
  let s := modDomain d (fun x => if x.state = .degraded then { clearMedians x with state := .listening } else x) s
  endTimeOp (opDone 0) (evalServo (setTime (fun t => { t with op := opStart }) s))

def execAccept (f : Func) (d : Fin 2) (s : State) : Res :=
  .next (spineCommand f (.time .cmd) timeOp (fun s => if s.tc.align then some 0x1B02 else none) (timeAccept d) s)

/-! ## EPOCH_TAI and TIME_NOW (R557 to R560) -/

/-- A write to EPOCH_TAI: words 0 and 1 are held, word 2 commits all three (R558). -/
def epochTai (w : Fin 3) (val : Word) (s : State) : State :=
  match w with
  | 0 => holdWord (.time (.tai 0)) val s
  | 1 => holdWord (.time (.tai 1)) val s
  | 2 =>
    let w0 := heldWord (.time (.tai 0)) (bits (epochTime s).sec 0 16 ++ (epochTime s).sub) s
    let w1 := heldWord (.time (.tai 1)) (bits (epochTime s).sec 16 32) s
    setTime (fun t => { t with tai := { sec := w1 ++ bits w0 16 16, ns := val, sub := bits w0 0 16 }, epochValid := true })
      (dropHeld (.time (.tai 0)) (dropHeld (.time (.tai 1)) s))

def execEpochTaiWrite (f : Func) (word : Fin 3) (val : Word) (s : State) : Res :=
  .next (hostCheck f (.time (.tai word)) (fun s => if someRides s then some 0x1B01 else none) (epochTai word val) s)

/-- A read of TIME_NOW0 latches both times of one instant (R559). -/
def latchNow (f : Func) (s : State) : State :=
  if hostReach s f then setTime (fun t => { t with nowTai := taiOf (taiAt s s.clock.sched), nowSched := schedOfFine s.clock.sched }) s
  else s

def execTimeNowRead (f : Func) (s : State) : Res := .next (latchNow f s)

/-! ## Ports (R567 to R571) -/

/-- The persisted fields of a port and of a domain. -/
def portCfg (s : State) (p : Fin 2) : PortCfg := tabGet {} s.persist.ports p.val
def domainCfg (s : State) (d : Fin 2) : DomainCfg := tabGet {} s.persist.domains d.val

/-- What a transmit stamp, or a receive stamp, is corrected by, in 1/16 ns (R569, R570). -/
def txCorr (c : PortCfg) : Int := (c.txLat.toNat : Int) + if c.dereri then 3400 else 0
def rxCorr (c : PortCfg) : Int := -(c.rxLat.toNat : Int) - if c.dereri then 3000 else 0

/-- One-step transmission is in force (R570, R571). -/
def oneStepNow (c : PortCfg) : Bool := c.oneStep && !c.dereri

/-- Offset and path of a sample with its stamps corrected (R569, R570). -/
def corrected (c : PortCfg) (offset path : Int) : Int × Int :=
  (offset + (rxCorr c + txCorr c) / 2 - c.asym.toInt, path + (rxCorr c - txCorr c) / 2)

/-- A sample enters a domain's medians (R573). -/
def acceptSample (x : Domain) (v : Int × Int) : Domain :=
  let l := (v :: x.samples).take 16
  { x with samples := l, offset := median (l.map (·.1)), path := median (l.map (·.2)) }

/-- A sample is an outlier (R574). -/
def isOutlier (c : TimeCfg) (x : Domain) (v : Int × Int) : Bool :=
  !x.samples.isEmpty && decide (ns16 c.offStep.toNat < (v.1 - x.offset).natAbs)

/-- 16 consecutive samples within lock_thresh of their median (Table 14-3). -/
def steady (c : TimeCfg) (x : Domain) : Bool :=
  let m := median (x.recent.map (·.1))
  decide (x.recent.length = 16) && x.recent.all fun v => decide ((v.1 - m).natAbs ≤ ns16 c.lockThresh.toNat)

/-- The degraded domain agrees with the held DM_INTER, or the other is not LOCKED (Table 14-3). -/
def agrees (s : State) (d : Fin 2) (x : Domain) : Bool :=
  let o : Fin 2 := if d = 0 then 1 else 0
  let mine := median (x.recent.map (·.1))
  let other := (getDomain s o).offset
  let inter := if d = 0 then other - mine else mine - other
  !locked s o || decide ((inter - s.tc.inter).natAbs ≤ ns16 s.persist.time.offStep.toNat)

/-- A domain reaches LOCKED: its 16 consecutive samples are the accepted ones. -/
def lockDomain (d : Fin 2) (s : State) : State :=
  record 0x0B01 8 0 0 0 (modDomain d (fun x =>
    { x with state := .locked, cause := 0, outRun := [], samples := x.recent, offset := median (x.recent.map (·.1)), path := median (x.recent.map (·.2)) }) s)

/-- DM_INTER while both domains are LOCKED (R576). -/
def updateInter (s : State) : State :=
  if locked s 0 ∧ locked s 1 then setTime (fun t => { t with inter := (getDomain s 1).offset - (getDomain s 0).offset }) s else s

/-- A LOCKED domain after a run of outliers (R575). -/
def degrade (d : Fin 2) (s : State) : State :=
  let x := getDomain s d
  if s.persist.time.persist.toNat + 1 ≤ x.outRun.length then
    let reroute := x.outRun.all id
    let s := modDomain d (fun x => { x with state := .degraded, cause := if reroute then 1 else 2, outRun := [], recent := [] }) s
    record (if reroute then 0x3B01 else 0x3B02) 8 0 0 0 s
  else s

/-- A sample of a domain that is tracked (R573 to R578). -/
def domainSample (d : Fin 2) (v : Int × Int) (s : State) : State :=
  let c := s.persist.time
  let x := getDomain s d
  let out := isOutlier c x v
  let differs := decide (ns16 c.pathStep.toNat < (v.2 - x.path).natAbs)
  let s := modDomain d (fun x =>
    let x := { x with count := satInc x.count, recent := (v :: x.recent).take 16 }
    if out then { x with outliers := satInc x.outliers, outRun := x.outRun ++ [differs] } else { acceptSample x v with outRun := [] }) s
  let x := getDomain s d
  let locks := match x.state with
    | .listening => steady c x
    | .degraded => steady c x && agrees s d x
    | _ => false
  let s := if locks then lockDomain d s else if x.state = .locked then degrade d s else s
  let s := updateInter s
  let s := if followed s = some d ∧ !out ∧ locked s d then setTime (fun t => { t with error := (getDomain s d).offset }) s else s
  evalReached (if locks then some d else none) s

/-- A domain is tracked on its port, in the messages of its domain number (R572). -/
def tracked (s : State) (p d : Fin 2) (number : BitVec 8) : Bool :=
  let c := domainCfg s d
  c.enable && decide (c.port = decide (p = 1)) && decide (c.number = number)

/-- A port runs PTP: enabled, its link up. -/
def portRuns (s : State) (p : Fin 2) : Bool := (portCfg s p).enable && (getPort s p).link

/-- What the default best master algorithm of IEEE 1588 compares, the first difference first (R567; the order is the standard's: PRESUMED, log entry 194). -/
def announceKey (a : AnnounceData) : List Nat :=
  [a.priority1.toNat, a.gmClass.toNat, a.accuracy.toNat, a.variance.toNat, a.priority2.toNat, a.gmId.toNat, a.steps.toNat, a.sender.toNat]

/-- A list of numbers comes before another in dictionary order. -/
def keyBefore : List Nat → List Nat → Bool
  | x :: xs, y :: ys => decide (x < y) || (decide (x = y) && keyBefore xs ys)
  | _, _ => false

/-- The best of the Announces heard. -/
def bestMaster (l : List AnnounceData) : Option AnnounceData :=
  l.foldl (fun best a => match best with | none => some a | some b => if keyBefore (announceKey a) (announceKey b) then some a else some b) none

/-- An Announce of a domain (R567, Table 14-3): the best time transmitter is selected; a LOST domain listens again. -/
def announceIn (d : Fin 2) (a : AnnounceData) (s : State) : State :=
  modDomain d (fun x =>
    let masters := a :: x.masters.filter fun b => decide (b.sender ≠ a.sender)
    let best := (bestMaster masters).getD a
    let x := { x with masters, gmClass := best.gmClass, gmId := best.gmId }
    if x.state = .lost then { clearMedians x with state := .listening } else x) s

/-- A domain takes the samples of a sender: the selected time transmitter, once it is not DISABLED or LOST. -/
def takesSample (x : Domain) (sender : BitVec 64) : Bool :=
  (match x.state with | .disabled => false | .lost => false | _ => true) && ((bestMaster x.masters).map (·.sender)) == some sender

/-- The answer to a Pdelay_Req (R571): one Pdelay_Resp with the turnaround in its correctionField, or a Pdelay_Resp with the arrival's stamp and its Follow_Up with
the departure's. -/
def pdelayAnswer (c : PortCfg) (rx tx : Int) : List PtpSent :=
  let rx := rx + rxCorr c
  let tx := tx + txCorr c
  if oneStepNow c then [{ kind := 3, stamp := tx, inFrame := true, correction := tx - rx, checksumZero := decide (c.transport = 1) }]
  else [{ kind := 3, stamp := rx }, { kind := 4, stamp := tx }]

/-- A message that the module supports (R567, Table 14-2): of the port's transport, to a multicast address, at an accepted interval. -/
def supported (c : PortCfg) (m : PtpFrame) : Bool :=
  decide (m.transport = c.transport) && m.multicast && (match m.msg with
    | .announce _ i => decide (-3 ≤ i) && decide (i ≤ 3)
    | .sample _ _ _ i => decide (-7 ≤ i) && decide (i ≤ 1)
    | .pdelayReq _ _ => c.p2p
    | .ignored => false)

/-- PTP_MESSAGE_RECEIVED (R567 to R578). -/
def ptpIn (p : Fin 2) (m : PtpFrame) (s : State) : State :=
  if portRuns s p then
    let s := modPort p (fun x => { x with ptpRx := satInc x.ptpRx }) s
    let c := portCfg s p
    if supported c m then
      match m.msg with
      | .announce a _ => forEach [0, 1] (fun d s => if tracked s p d m.number then announceIn d a s else s) s
      | .sample sender offset path _ =>
        forEach [0, 1] (fun d s =>
          if tracked s p d m.number && takesSample (getDomain s d) sender then domainSample d (corrected c offset path) s else s) s
      | .pdelayReq rx tx => modPort p (fun x => { x with sent := pdelayAnswer c rx tx }) s
      | .ignored => s
    else s
  else s

def execPtpMessageReceived (port : Fin 2) (msg : PtpFrame) (s : State) : Res := .next (ptpIn port msg s)

/-- A frame that is not PTP (R568): ARP for the port's address and echo requests to it are answered, everything else is dropped. -/
def otherFrame (p : Fin 2) (x : FrameIn) (s : State) : State :=
  let a := (portCfg s p).ipv4
  let mine := match x with | .arp b => a == b && a != 0 | .echo b => a == b && a != 0 | .other => false
  if portRuns s p then
    modPort p (fun y => if mine then { y with answered := y.answered + 1 } else { y with dropped := satInc y.dropped }) s
  else s

def execNonPtpFrame (port : Fin 2) (frame : FrameIn) (s : State) : Res := .next (otherFrame port frame s)

/-- DELAY_REQ_SEND (R567, R571): a Delay_Req, or on a P2P port a Pdelay_Req. -/
def delayReq (p : Fin 2) (stamp : Int) (s : State) : State :=
  if portRuns s p then
    let c := portCfg s p
    let inFrame := oneStepNow c && !c.p2p
    let m : PtpSent := { kind := if c.p2p then 2 else 1, stamp := stamp + txCorr c, inFrame, checksumZero := inFrame && decide (c.transport = 1) }
    modPort p (fun x => { x with sent := [m] }) s
  else s

def execDelayReqSend (p : Fin 2) (stamp : Int) (s : State) : Res := .next (delayReq p stamp s)

/-- The 25GBASE-R link of a port comes up or goes down (PT_STATUS). -/
def execPtLinkChange (p : Fin 2) (up : Bool) (s : State) : Res := .next (modPort p (fun x => { x with link := up }) s)

/-! ## Domains (Table 14-3) -/

/-- No Announce for the domain's timeout. -/
def announceLost (d : Fin 2) (s : State) : State :=
  match (getDomain s d).state with
  | .disabled => s
  | .lost => s
  | _ => evalServo (record 0x3B03 8 0 0 0 (modDomain d (fun x => { x with state := .lost, cause := 3, masters := [], recent := [], outRun := [] }) s))

def execAnnounceTimeout (d : Fin 2) (s : State) : Res := .next (announceLost d s)

/-- A write to DM_CTL (RWP, Table 14-5): enable starts and ends the tracking of the domain. -/
def dmCtl (d : Fin 2) (val : Word) (s : State) : State :=
  let was := (domainCfg s d).enable
  let c : DomainCfg := { enable := bit val 31, port := bit val 30, number := bits val 16 8, annTimeout := bits val 8 4 }
  let s := setPersist (fun p => { p with domains := tabSet p.domains d.val c }) s
  let s :=
    if c.enable && !was then modDomain d (fun x => { clearMedians x with state := .listening, cause := 0 }) s
    else if was && !c.enable then modDomain d (fun x => { x with state := .disabled, masters := [], recent := [], outRun := [] }) s
    else s
  evalServo s

def execDmCtlWrite (f : Func) (d : Fin 2) (val : Word) (s : State) : Res := .next (hostWrite f (.dm d .ctl) (dmCtl d val) s)

/-- SLEW_SATURATION (R563): the servo asks for more than slew_max for more than 1 s. -/
def execSlewSaturation (s : State) : Res :=
  .next (if s.persist.time.role = 1 then record 0x3B05 8 0 0 0 (setTime (fun t => { t with slewSat := true }) s) else s)

/-! ## Time-pulse outputs (R582 to R586) -/

/-- What refuses an ARM (R583). -/
def pulseArmCode (k : Fin 8) (s : State) : Option Code :=
  let x := getPulse s k
  let timed := decide (x.mode = 1) || decide (x.mode = 2)
  if timed && (!schedValid x.start || decide (schedToFine x.start < s.clock.sched + 8 * fineFrame)) then some 0x1B03
  else if x.width = 0 then some 0x1B03
  else if x.mode = 2 ∧ (x.period.toNat ≤ x.width.toNat ∨ x.period.toNat < 96) then some 0x1B03
  else if x.mode = 3 ∧ !s.tc.epochValid then some 0x1B03
  else none

/-- ARM copies the output's registers; while a pulse is in progress it waits for its end (R583, R584). -/
def armPulse (k : Fin 8) (s : State) : State :=
  modPulse k (fun x =>
    let a : TpArm := { mode := x.mode, start := schedToFine x.start / 16 * 16, period := x.period.toNat, width := x.width.toNat }
    if x.level then { x with nextArm := some a, disarmPend := false } else { x with armed := some a }) s

def execTpArm (f : Func) (k : Fin 8) (s : State) : Res := .next (hostCheck f (.tp k .ctl) (pulseArmCode k) (armPulse k) s)

/-- DISARM takes effect after the pulse in progress (R584). -/
def disarmPulse (k : Fin 8) (s : State) : State :=
  modPulse k (fun x => if x.level then { x with disarmPend := true, nextArm := none } else { x with armed := none }) s

def execTpDisarm (f : Func) (k : Fin 8) (s : State) : Res := .next (hostWrite f (.tp k .ctl) (disarmPulse k) s)

/-- The edge token of an output (R586, R332): the new level at the pin. -/
def pulseToken (k : Fin 8) (high : Bool) (s : State) : State :=
  match tabFind k.val (hubWiring s).pulses with
  | some e => issueToken .hub (0x330 + k.val) { chan := e, kind := .edge, hop := 0, inv := false, value := if high then 1 else 0 } s
  | none => s

/-- The rising edge of an armed output in the beat in progress, on the DAC sample at or before its instant, in the module's own time (R582). -/
def pulseDue (s : State) (a : TpArm) : Option Fine :=
  if s.clock.running then
    ((List.range 16).find? fun k => edgesIn s a (s.clock.sched + k * 16 - 1) (s.clock.sched + k * 16 + 15) != 0).map fun k => s.clock.now + k * 16
  else none

/-- A pulse begins. -/
def risePulse (at_ : Fine) (a : TpArm) (x : TimePulse) : TimePulse :=
  { x with level := true, rose := some at_, endsAt := at_ + a.width * 16, pulses := satInc x.pulses }

/-- TIME_PULSE_EDGE (R582, R584, R586): the edge that the beat in progress brings.  A pulse begins at its instant and lasts its width; a once pulse disarms
itself at its end. -/
def pulseEdge (k : Fin 8) (rising : Bool) (s : State) : State :=
  let x := getPulse s k
  if rising then
    match x.armed with
    | some a =>
      match pulseDue s a with
      | some at_ =>
        if !x.level ∧ x.rose ≠ some at_ then pulseToken k (!x.polarity) (modPulse k (risePulse at_ a) s) else s
      | none => s
    | none => s
  else if x.level ∧ x.endsAt < s.clock.now + fineBeat then
    let once := match x.armed with | some a => decide (a.mode = 1) | none => false
    let s := modPulse k (fun x =>
      { x with
        level := false, disarmPend := false, nextArm := none
        armed := if x.nextArm.isSome then x.nextArm else if x.disarmPend || once then none else x.armed }) s
    pulseToken k x.polarity s
  else s

def execTimePulseEdge (k : Fin 8) (rising : Bool) (s : State) : Res := .next (pulseEdge k rising s)

/-- The level at pin XQk (R586). -/
def pinLevel (s : State) (k : Fin 8) : Bool := (getPulse s k).level != (getPulse s k).polarity

/-- The level at a backplane trigger line, PXI_STAR being line 8, or none where it is released (R724). -/
def triggerLine (s : State) (l : Fin 9) : Option Bool := ((herd s).triggers.find? fun t => t.1 == l).map fun t => pinLevel s t.2

end Sys2Proof.Machine
end

