-- ==== Sys2Proof/Machine/Power.lean ====
section
/-!
DEFINITION. Chapter 16: supplies, resets, boot, power domains, the commands of PWR_CMD, persistent registers, the real-time clock; and the fan tray (R684).
-/

namespace Sys2Proof.Machine

open Sys2Proof

/-! ## Supplies (R615 to R617) -/

def execSupplyFailure (second removed : Bool) (s : State) : Res :=
  .next (record 0x3D60 8 0 0 0
    (modSupply second (fun x => if removed then {} else { x with dcOk := false, inService := false }) s))

def execSupplyInService (second : Bool) (s : State) : Res :=
  .next (record 0x0D61 8 0 0 0
    (modSupply second (fun x => { x with present := true, acOk := true, dcOk := true, inService := true }) s))

/-- The power-fail shutdown starts (R616 steps 1 and 2). -/
def shutDown (s : State) : State :=
  let s := setPower (fun p =>
    { p with shutdown := true, supply1 := { p.supply1 with acOk := false }, supply2 := { p.supply2 with acOk := false } }) s
  let s := fatalAll (record 0x3D61 8 0 0 0 s)
  { s with lines := s.lines.map fun e => (e.1, zeroLine e.2) }

def execSupplyAcFailure (s : State) : Res := .next (if s.power.shutdown || s.power.busLow then s else shutDown s)

/-- The backup domain as the bus falls below 10.2 V (R616 step 3); `n` lines stood off 0 V. -/
def backupStepped (n : Nat) (b : Backup) : Backup :=
  { b with powerFail := true, fluxStepped := b.fluxStepped || decide (0 < n), linesStepped := satAdd b.linesStepped n }

/-- The bus falls below 10.2 V: every output switch opens, and the module holds in reset until a power-on (R616, R617). -/
def busFalls (s : State) : State :=
  let n := (s.lines.filter fun e => offZero e.2).length
  let s := if s.power.shutdown then setBackup (backupStepped n) (finalFeeds s) else setBackup (fun b => { b with powerFail := false }) s
  { plainModule openedLine s with
    power := { straps := s.power.straps, ga := s.power.ga, domOn := domainMask 254 2, busLow := true, fanTray := s.power.fanTray } }

def execBusBelow10V2 (s : State) : Res := .next (if s.power.busLow then s else busFalls s)

/-! ## Resets (Table 16-2) -/

def execPowerOnReset (world : ResetWorld) (s : State) : Res := .next (restartFeeds (resetModule .powerOn world s))

/-- A reset that needs the 12 V bus in range. -/
def inRange (s : State) (eff : State → State) : State := if s.power.busLow then s else eff s

/-- A brown-out reset; during a power-fail shutdown it is the one that AC's return brings (R617). -/
def execBrownOutReset (world : ResetWorld) (s : State) : Res := .next (inRange s (resetModule .brownOut world))

/-- 5 µs in fine steps, below which the filter ignores an assertion, and 20 µs, from which it accepts every one (R623). -/
def perstIgnored : Fine := 1920000
def perstTaken : Fine := 7680000

/-- An accepted PERST# (R622, R623). -/
def perstAccepted (world : ResetWorld) (s : State) : State := if s.persist.perstScope then resetHost s else resetModule .perst world s

/-- PERST# (R623): an assertion between 5 µs and 20 µs is resolved once, either way. -/
def execPerst (width : Fine) (world : ResetWorld) (s : State) : Res :=
  .next (if width < perstIgnored then s
    else inRange s fun s =>
      if perstTaken ≤ width then perstAccepted world s
      else if Config.perstAccepts s.freeCtr then perstAccepted world (freshen s)
      else freshen s)

def execHotReset (s : State) : Res := .next (inRange s resetHost)

def execLinkTrained (width speed : BitVec 4) (s : State) : Res :=
  .next (inRange s fun s => setHost (fun h => { h with width, speed }) s)

def execWatchdog (world : ResetWorld) (s : State) : Res := .next (inRange s (resetModule .watchdog world))

/-! ## Boot (Table 16-4) -/

def execBootStart (found : BootFound) (s : State) : Res :=
  .next (inRange s fun s => if s.power.phase = .held then bootToStep3 found s else s)

def execReferenceLocked (src : BitVec 2) (bring : Tab PowerUpFound) (s : State) : Res :=
  .next (if s.power.phase = .boot 3 then bootFromStep3 src bring s else s)

def execReferenceLockTimeout (s : State) : Res :=
  .next (if s.power.phase = .boot 3 ∧ clockMode s ≠ 3 then record 0x2D61 8 0 0 0 s else s)

def execPowerDomainFault (domain : BitVec 8) (bring : Tab PowerUpFound) (s : State) : Res :=
  .next (domainFault domain.toNat bring s)

/-! ## PWR_CMD (Table 16-8) -/

/-- Change the operation status of POWER. -/
def powerOp (g : OpStatus → OpStatus) (s : State) : State := setPower (fun p => { p with op := g p.op }) s

/-- What refuses a power command: its key; while boot runs and in recovery, every command but FW_WRITE (R630, R634). -/
def powerCode (key : BitVec 16) (fwWrite : Bool) (s : State) : Option Code :=
  if key ≠ 0x5A17 then some 0x1D60
  else if !fwWrite && (decide (s.power.phase ≠ .running) || s.power.recovery) then some 0x1D60
  else none

/-- A power command. -/
def powerCommand (f : Func) (code : State → Option Code) (eff : State → State) (s : State) : State :=
  spineCommand f (.power .cmd) powerOp code eff s

def execModuleReset (f : Func) (key : BitVec 16) (world : ResetWorld) (s : State) : Res :=
  .next (powerCommand f (powerCode key false) (resetModule .moduleReset world) s)

/-- The trims in force enter both copies with sequence 1, and the hold ends (R640). -/
def takeFactory (n : StallId) (s : State) : State :=
  if lifeOf n s = .off then s
  else
    let x := getStud s n
    let c : StudCopy := { trimsAsCopy (getTrims s n) ((studCopy x).getD {}) with seq := 1, ok := true }
    let s := modStud n (fun _ => { a := c, b := c }) s
    let s := modStall n (fun y => { y with factoryHold := false }) s
    let s := modFarrier n (fun y => { y with studStale := false }) s
    if playsOn n s then forEach (stallSlices n) openPort s else s

/-- ACCEPT_FACTORY ends as it is carried out; a firmware operation in progress keeps PWR_OP_STATUS. -/
def acceptFactory (n : StallId) (s : State) : State :=
  let s := takeFactory n s
  if s.power.cmd.isSome then s else raise 0x804 (powerOp (fun _ => opDone 0) s)

def execAcceptFactory (f : Func) (key : BitVec 16) (n : StallId) (s : State) : Res :=
  .next (powerCommand f (powerCode key false) (acceptFactory n) s)

/-- A firmware operation is in progress. -/
def fwBusy (s : State) : Bool := s.power.fwWriting.isSome || decide (s.power.cmd = some .fwSwitch)

/-- What refuses FW_WRITE (R642): another firmware operation, the signature, the version. -/
def fwWriteCode (key : BitVec 16) (sigOk : Bool) (version : Word) (s : State) : Option Code :=
  match powerCode key true s with
  | some c => some c
  | none =>
    if fwBusy s then some 0x1D60
    else if !sigOk || decide (version < s.persist.fwFloor) then some 0x1D61
    else none

/-- FW_WRITE starts; during boot PWR_OP_STATUS stays boot's. -/
def startFwWrite (version : Word) (s : State) : State :=
  setPower (fun p =>
    let p := { p with fwWriting := some version, fwOk := false, partialValid := true }
    if p.cmd = some .boot then p else { p with cmd := some .fwWrite, op := opStart }) s

def execFwWrite (f : Func) (key : BitVec 16) (_slot : SlotId) (sigOk : Bool) (version : Word) (s : State) : Res :=
  .next (powerCommand f (fwWriteCode key sigOk version) (startFwWrite version) s)

/-- The version of the bank written. -/
def writtenBank (version : Word) (p : Persist) : Persist :=
  if p.fwBank then { p with fwVersion0 := version } else { p with fwVersion1 := version }

/-- FW_WRITE_DONE (R642): the bank is eligible for FW_SWITCH when its read-back is good. -/
def fwWritten (version : Word) (good : Bool) (s : State) : State :=
  let code : Code := if good then 0 else Config.writeFailCode s.freeCtr
  let s := if good then setPersist (writtenBank version) s else freshen s
  let s := setPower (fun p =>
    let p := { p with fwWriting := none, fwOk := good }
    if p.cmd = some .boot then p
    else { p with cmd := none, partialValid := false, op := if good then opDone 0 else opEnd .failed code p.op }) s
  raise 0x804 s

def execFwWriteDone (good : Bool) (s : State) : Res :=
  .next (match s.power.fwWriting with | some v => fwWritten v good s | none => s)

/-- What refuses FW_SWITCH (R642). -/
def fwSwitchCode (key : BitVec 16) (s : State) : Option Code :=
  match powerCode key false s with
  | some c => some c
  | none => if fwBusy s then some 0x1D60 else if s.power.fwOk then none else some 0x1D61

def execFwSwitch (f : Func) (key : BitVec 16) (s : State) : Res :=
  .next (powerCommand f (fwSwitchCode key) (setPower fun p => { p with cmd := some .fwSwitch, op := opStart }) s)

/-- No TACK, QDIR, TETHER, TIME or hub command runs, and no Farrier is in phase 5 (R642). -/
def spineSettled (s : State) : Bool :=
  s.tack.run.isNone && s.qdir.cmd.isNone && decide (s.tether.op.state ≠ .busy) && decide (s.tc.op.state ≠ .busy) &&
    decide (s.hub.op.state ≠ .busy) && decide (s.hub.audit.op.state ≠ .busy) &&
    (List.finRange 8).all fun n => !((getFarrier s n).cal.running && decide ((getFarrier s n).cal.phase = 5))

/-- 20 ms in fine steps. -/
def fwSwitchTime : Fine := 20 * fineMs

/-- The new firmware starts (R642). -/
def switchFirmware (s : State) : State :=
  let s := setPersist (fun p => { p with fwBank := !p.fwBank }) s
  let s := setPower (fun p => { p with cmd := none, op := opDone 0x0D63, fwOk := false, fwUntil := s.clock.now + fwSwitchTime }) s
  raise 0x804 (record 0x0D63 8 0 0 0 s)

def execSpineSettlePoint (s : State) : Res :=
  .next (if s.power.cmd = some .fwSwitch ∧ spineSettled s then switchFirmware s else s)

/-! ## Persistent registers and the real-time clock (R627, R637, R638) -/

/-- The register of a persisted field. -/
def rwpReg : RwpReg → Reg
  | .timeCtl => .time .ctl
  | .timeServo => .time .servo
  | .timeDetect => .time .detect
  | .ptCtl p => .pt p .ctl
  | .ptTxLat p => .pt p .txLat
  | .ptRxLat p => .pt p .rxLat
  | .ptAsym p => .pt p .asym
  | .ptIpv4 p => .pt p .ipv4
  | .pwrCfg => .power .cfg

/-- Change the persisted fields of a port. -/
def modPortCfg (p : Fin 2) (f : PortCfg → PortCfg) (x : Persist) : Persist := { x with ports := tabMod {} x.ports p.val f }

/-- The persisted fields that a write changes (Tables 14-5, 16-8). -/
def rwpField (r : RwpReg) (val : Word) (x : Persist) : Persist :=
  match r with
  | .timeCtl =>
    { x with time :=
      { x.time with altValid := bit val 25, followAlt := bits val 21 4, followLane := bits val 17 4, revert := bit val 8
                    autoSwitch := bit val 7, role := bits val 0 2 } }
  | .timeServo => { x with time := { x.time with slewMax := bits val 16 16, lockThresh := bits val 0 16 } }
  | .timeDetect => { x with time := { x.time with offStep := bits val 16 16, pathStep := bits val 4 12, persist := bits val 0 4 } }
  | .ptCtl p => modPortCfg p (fun c =>
      { c with enable := bit val 31, dereri := bit val 30, transport := bits val 28 2, p2p := bit val 27, oneStep := bit val 26 }) x
  | .ptTxLat p => modPortCfg p (fun c => { c with txLat := bits val 0 16 }) x
  | .ptRxLat p => modPortCfg p (fun c => { c with rxLat := bits val 0 16 }) x
  | .ptAsym p => modPortCfg p (fun c => { c with asym := val }) x
  | .ptIpv4 p => modPortCfg p (fun c => { c with ipv4 := val }) x
  | .pwrCfg => { x with perstScope := bit val 8 }

/-- What refuses a persisted write: a transport that PT_CTL does not have (Table 14-5). -/
def rwpCode (r : RwpReg) (val : Word) : Option Code :=
  match r with
  | .ptCtl _ => if bit val 29 then some 0x1B02 else none
  | _ => none

/-- A persisted write, in both copies of its record (R638); the servo looks at a new TIME_CTL. -/
def rwpWrite (r : RwpReg) (val : Word) (s : State) : State :=
  let s := setPersist (fun x => { rwpField r val x with rwpSeq := x.rwpSeq + 1 }) s
  if r = .timeCtl then evalServo s else s

def execRwpWrite (f : Func) (reg : RwpReg) (val : Word) (s : State) : Res :=
  .next (hostCheck f (rwpReg reg) (fun _ => rwpCode reg val) (rwpWrite reg val) s)

/-- RTC_HI commits the clock (R22, R627). -/
def rtcHi (val : Word) (s : State) : State :=
  let lo := heldWord (.power .rtcLo) (bits s.backup.rtc 0 32) s
  setBackup (fun b => { b with rtc := val ++ lo, rtcValid := true }) (dropHeld (.power .rtcLo) s)

def execRtcHiWrite (f : Func) (val : Word) (s : State) : Res := .next (hostWrite f (.power .rtcHi) (rtcHi val) s)

/-! ## The fan tray (R684) -/

/-- The module is a QM-512-AF, which alone has a fan tray (R7, R684). -/
def hasTray (s : State) : Bool := decide (s.persist.cooling = 1)

def execFanTrayRemoved (s : State) : Res :=
  .next (if hasTray s ∧ s.power.fanTray then record 0x3D68 8 0 0 0 (setPower (fun p => { p with fanTray := false }) s) else s)

def execFanTrayFitted (s : State) : Res :=
  .next (if hasTray s ∧ !s.power.fanTray then record 0x0D64 8 0 0 0 (setPower (fun p => { p with fanTray := true }) s) else s)

/-! ## Outputs of the module (Table 16-5, R720) -/

/-- The XC output in MHz: off until boot step 3 ends, then as xc_out_10 selects. -/
def xcOutput (s : State) : Option Nat := if s.clock.running then some (if bit s.power.straps 5 then 10 else 100) else none

/-- The transmitter of an XE port is on. -/
def xeTransmits (s : State) (p : Fin 2) : Bool := decide (s.power.phase ≠ .held) && (portCfg s p).enable

end Sys2Proof.Machine
end

