-- ==== Sys2Proof/Machine/Queues.lean ====
section
/-!
DEFINITION. Chapter 11: the commands on queues, QDIR and the pages of the HBM.
-/

namespace Sys2Proof.Machine

open Sys2Proof

/-- The register of a queue. -/
def queueReg (q : QueueId) (r : QReg) : Reg := .queue (queueStall q) ⟨queueIndex q, (bits q 0 11).isLt⟩ r

/-- The host port of a queue, if it is a producer. -/
def hostProd (s : State) (q : QueueId) : Option (QueueAlloc × Nat) :=
  (queueAlloc s q).bind fun a => (prodIndex a .host).map fun i => (a, i)

/-- The first word that a port has issued reaches the element (R464 to R470). -/
def grantWord (q : QueueId) (i : Nat) (s : State) : State :=
  match (getProd s q i).flight with
  | [] => s
  | w :: rest =>
    let s := modProd q i (fun d => { d with flight := rest }) s
    match queueAlloc s q with
    | some a => storeWord q a i w s
    | none =>
      record 0x3804 8 0 (queueObject q) 0 (setQdir (fun d => { d with noQueue := satInc d.noQueue }) s)

/-- QUEUE_WORD_GRANT (R457).  An audit of the queue holds it, and an audit of the pages holds one that needs a page more (R486). -/
def queueWordGrant (q : QueueId) (i : Nat) (s : State) : State :=
  if queueHeld s q then s
  else
    let t := grantWord q i s
    if s.qdir.cmd = some .auditPages ∧ (getQueue s q).pages < (getQueue t q).pages then s else t

def execQueueWordGrant (q : QueueId) (port : Nat) (s : State) : Res := .next (queueWordGrant q port s)

/-- CREDIT_RETURN_ARRIVES (R460, R461): one returned credit reaches its port, or the queue keeps it for an absent port. -/
def creditReturn (q : QueueId) (i : Nat) (s : State) : State :=
  if (getProd s q i).returning = 0 then s
  else
    match (queueAlloc s q).bind fun a => a.prods[i]? with
    | some (p, _) =>
      if portPresent s q p then modProd q i (fun d => { d with returning := d.returning - 1, credits := d.credits + 1 }) s
      else modProd q i (fun d => { d with returning := d.returning - 1, absent := d.absent + 1 }) s
    | none => s

def execCreditReturnArrives (q : QueueId) (port : Nat) (s : State) : Res := .next (creditReturn q port s)

/-- What refuses a host push (R488): 0x1804 where the host is no producer, 0x1803 where it holds no credit. -/
def pushCode (q : QueueId) (s : State) : Option Code :=
  match hostProd s q with
  | none => some 0x1804
  | some (_, i) => if (getProd s q i).credits = 0 then some 0x1803 else none

/-- A host push (R488). -/
def hostPush (f : Func) (q : QueueId) (r : QReg) (eoi : Bool) (val : Word) (s : State) : State :=
  hostCheck f (queueReg q r) (pushCode q) (issueWords q .host [val] eoi) s

def execQPush (f : Func) (q : QueueId) (val : Word) (s : State) : Res := .next (hostPush f q .push false val s)

def execQPushEnd (f : Func) (q : QueueId) (val : Word) (s : State) : Res := .next (hostPush f q .pushEnd true val s)

/-- What refuses a host pop (R488). -/
def popCode (q : QueueId) (n : Nat) (s : State) : Option Code :=
  match queueAlloc s q with
  | none => some 0x1804
  | some a => if a.consumer = some .host ∧ 1 ≤ n ∧ n ≤ 8 then none else some 0x1804

/-- A host pop (R488); an audit of the queue holds it until its settle point (R486). -/
def hostPop (f : Func) (q : QueueId) (n : Nat) (s : State) : State :=
  hostCheck f (queueReg q .pop) (popCode q n)
    (fun s => if queueHeld s q then modQueue q (fun x => { x with heldPops := x.heldPops ++ [n] }) s else hostTake q n s) s

def execQPop (f : Func) (q : QueueId) (words : Fin 16) (s : State) : Res := .next (hostPop f q words.val s)

/-- The code of a QDIR command's end (R491, R696): of a command on a queue with the queue's stall and owner and the queue as its object. -/
def recordQdir (code : Code) (q : Option QueueId) (s : State) : State :=
  match q with
  | some q => record code (queueStall q).val (((queueAlloc s q).map (·.owner)).getD 0) (queueObject q) 0 s
  | none => record code 8 0 0 0 s

/-- The end of a QDIR command (R491, R705): its operation status, its code, no command in progress, source 0x801. -/
def qdirEnd (op : OpStatus) (q : Option QueueId) (s : State) : State :=
  let s := if op.code = 0 then s else recordQdir op.code q s
  raise 0x801 (setQdir (fun d => { d with cmd := none, op, partialValid := false }) s)

/-- A QDIR command is refused (R487, R702). -/
def qdirRefuse (f : Func) (code : Code) (s : State) : State :=
  refuseReg f (.qdir .cmd) code (setQdir (fun d => { d with op := opRefuse code d.op }) s)

/-- A QDIR command on a queue or on the whole module (R487): its owner, then a command in progress, then the queue's allocation. -/
def qdirCommand (f : Func) (q : Option QueueId) (eff : State → State) (s : State) : State :=
  hostWrite f (.qdir .cmd) (fun s =>
    let owner : Owner := ((q.bind (queueAlloc s)).map (·.owner)).getD 0
    let known : Bool := match q with | some q => (queueAlloc s q).isSome | none => true
    if known ∧ mayAct f owner = false then refuseReg f (.qdir .cmd) 0x1F01 s
    else if fwSwitching s then qdirRefuse f 0x1D62 s
    else if s.qdir.cmd ≠ none then qdirRefuse f 0x1802 s
    else if known then eff s
    else qdirRefuse f 0x1801 s) s

/-- FLUSH (R467, R469): the flush is one grant; the command ends when the last of its pages has returned. -/
def startFlush (q : QueueId) (s : State) : State :=
  let x := getQueue s q
  let words := flushCount x
  let opened := hasStaged x
  let held := x.pages
  let s := flushQueue q s
  let s := setQdir (fun d =>
    { d with cmd := some (.flush q), op := opStart, partialValid := true, result := BitVec.ofNat 31 words,
             flushPages := held, openDropped := opened }) s
  if held = 0 then qdirEnd (opDone (if opened then 0x0801 else 0)) (some q) s else s

def execFlush (f : Func) (q : QueueId) (s : State) : Res := .next (qdirCommand f (some q) (startFlush q) s)

/-- An audit starts (R486): from now to its settle point it holds what changes the book. -/
def startAudit (c : QdirCmd) (s : State) : State := setQdir (fun d => { d with cmd := some c, op := opStart }) s

/-- AUDIT_QUEUE is refused while the queue's stall is in phase 5 or 6 of a load (R680). -/
def auditQueue (f : Func) (q : QueueId) (s : State) : State :=
  qdirCommand f (some q) (fun s => if inCommit s (queueStall q) then qdirRefuse f 0x1801 s else startAudit (.auditQueue q) s) s

def execAuditQueue (f : Func) (q : QueueId) (s : State) : Res := .next (auditQueue f q s)

def execAuditPages (f : Func) (s : State) : Res := .next (qdirCommand f none (startAudit .auditPages) s)

/-- SCRUB (R485) starts a full pass; HBM_SCRUB_DONE ends it. -/
def startScrub (s : State) : State :=
  setQdir (fun d => { d with cmd := some .scrub, op := opStart, partialValid := true, result := 0 }) s

def execScrub (f : Func) (s : State) : Res := .next (qdirCommand f none startScrub s)

/-- The four values of an audit (R486). -/
def setAudit (a b c d : Nat) (s : State) : State :=
  setQdir (fun x => { x with audit0 := BitVec.ofNat 32 a, audit1 := BitVec.ofNat 32 b, audit2 := BitVec.ofNat 32 c, audit3 := BitVec.ofNat 32 d }) s

/-- The outcome of an audit: 0x3805 where the terms do not add up to the total (R486). -/
def auditEnd (sum total : Nat) (q : Option QueueId) (s : State) : State :=
  qdirEnd (if sum = total then opDone 0 else opEnd .failed 0x3805 s.qdir.op) q s

/-- BOOK_AUDIT_SETTLE_POINT (R486): the terms are read, the audit ends, and the takes, allocations and releases it held go on. -/
def bookAudit (s : State) : State :=
  match s.qdir.cmd with
  | some (.auditQueue q) =>
    let t := bookTerms (getQueue s q)
    let cap := ((queueAlloc s q).map (·.capacity)).getD 0
    let s := auditEnd (t.1 + t.2.1 + t.2.2) cap (some q) (setAudit t.1 t.2.1 t.2.2 cap s)
    let pops := (getQueue s q).heldPops
    forEach pops (fun n s => hostTake q n s) (modQueue q (fun x => { x with heldPops := [] }) s)
  | some .auditPages =>
    let d := s.qdir
    let s := auditEnd (d.free + d.allocated + d.transit) 1045952 none (setAudit d.free d.allocated d.transit 1045952 s)
    forEach d.heldMoves movePages (setQdir (fun d => { d with heldMoves := [] }) s)
  | _ => s

def execBookAuditSettlePoint (s : State) : Res := .next (bookAudit s)

/-- One page is zero-filled and becomes free (R483). -/
def pageFreed (s : State) : State := setQdir (fun d => { d with transit := d.transit - 1, free := d.free + 1 }) s

/-- The progress of a flush, and its end with the last page (R469). -/
def flushProgress (q : QueueId) (s : State) : State :=
  if s.qdir.cmd = some (.flush q) then
    let left := (getQueue s q).freeing
    if left = 0 then qdirEnd (opDone (if s.qdir.openDropped then 0x0801 else 0)) (some q) s
    else setQdir (fun d => { d with op := { d.op with progress := (d.flushPages - left) * 1000 / d.flushPages } }) s
  else s

/-- PAGE_RELEASE_DONE (R469, R483); an audit of the pages holds it (R486). -/
def pageRelease (p : PageFrom) (s : State) : State :=
  if s.qdir.cmd = some .auditPages then s
  else
    match p with
    | .queue q =>
      let x := getQueue s q
      if 0 < x.releasing then pageFreed (modQueue q (fun x => { x with releasing := x.releasing - 1 }) s)
      else if 0 < x.freeing then flushProgress q (pageFreed (modQueue q (fun x => { x with freeing := x.freeing - 1 }) s))
      else s
    | .ring n =>
      match tabGet [] s.qdir.ringTransit n.val with
      | (p, k) :: l =>
        pageFreed (setQdir (fun d => { d with ringTransit := tabSet d.ringTransit n.val (if k ≤ 1 then l else (p + 1, k - 1) :: l) }) s)
      | [] => s

def execPageReleaseDone (p : PageFrom) (s : State) : Res := .next (pageRelease p s)

/-- POINTER_CHECK_PASS (R478, R479). -/
def execPointerCheckPass (q : QueueId) (differs : Bool) (s : State) : Res := .next (if differs then forcedReset q s else s)

/-- The 32-byte block of a BAR2 address, which the HBM's code covers (R485). -/
def hbmBlock (a : BitVec 36) : Nat := a.toNat / 32

/-- Where a double-bit error lies decides what it does (R485): a staging slot's block stays bad until it is written, a queue's spill page
resets the queue, and elsewhere (a ring) the 32 bytes read as 0. -/
def hbmDouble (a : BitVec 36) (q : Option QueueId) (s : State) : State :=
  let s := record 0x3803 8 0 0 0 (setQdir (fun d => { d with uncorrected := satInc d.uncorrected }) s)
  match q with
  | some q => forcedReset q s
  | none =>
    if a.toNat < 0x8000000 then setTack (fun t => { t with badBlocks := hbmBlock a :: t.badBlocks }) s
    else setHbm (fun m => memWrite 0 m (hbmBlock a * 32) (List.replicate 32 0)) s

/-- The errors of a pass over the HBM (R485): each single-bit error is counted and recorded. -/
def hbmErrors (e : HbmErrors) (s : State) : State :=
  let s := forEach (List.range e.singles)
    (fun _ s => record 0x0802 8 0 0 0 (setQdir (fun d => { d with corrected := satInc d.corrected }) s)) s
  match e.double with
  | some (a, q) => hbmDouble a q s
  | none => s

def execBackgroundScrub (err : HbmErrors) (s : State) : Res := .next (hbmErrors err s)

/-- HBM_SCRUB_DONE (R485): the full pass that SCRUB started has read the last page. -/
def hbmScrubDone (err : HbmErrors) (s : State) : State :=
  let s := hbmErrors err s
  if s.qdir.cmd = some .scrub then qdirEnd (opDone 0) none (setQdir (fun d => { d with result := 1045952 }) s) else s

def execHbmScrubDone (err : HbmErrors) (s : State) : Res := .next (hbmScrubDone err s)

end Sys2Proof.Machine
end

