-- ==== Sys2Proof/Machine/Sequencer.lean ====
section
/-!
DEFINITION. Chapter 5: the host's posts to a voice, and what happens at the instants of a play: its start, port loads, commit points,
boundaries and stream underruns; and writes through the page window.
-/

namespace Sys2Proof.Machine

open Sys2Proof

/-- A post by the host (R220, R246). -/
def hostPost (f : Func) (v : VoiceId) (g : Grant) (p : State → Post) (s : State) : State :=
  hostElement f (.seq v .post) g (countVoice v) (fun s => postCode s v (p s)) (fun s => applyPost v (p s) s) s

/-- The descriptor field of VS_POST (Table 05-6). -/
def postDesc (val : Word) : BitVec 13 := bits val 0 13

def execVoiceStart (f : Func) (v : VoiceId) (desc : Word) (grant : Grant) (s : State) : Res :=
  .next (hostPost f v grant (fun s => .start (postDesc desc) (getSeq s v).startReg) s)

def execLoadAlt (f : Func) (v : VoiceId) (desc : Word) (grant : Grant) (s : State) : Res :=
  .next (hostPost f v grant (fun _ => .loadAlt (postDesc desc)) s)

def execSelectAlt (f : Func) (v : VoiceId) (grant : Grant) (s : State) : Res := .next (hostPost f v grant (fun _ => .selectAlt) s)

def execBranch (f : Func) (v : VoiceId) (desc : Word) (grant : Grant) (s : State) : Res :=
  .next (hostPost f v grant (fun _ => .branch (postDesc desc)) s)

def execBreak (f : Func) (v : VoiceId) (grant : Grant) (s : State) : Res := .next (hostPost f v grant (fun _ => .break_) s)

def execStop (f : Func) (v : VoiceId) (grant : Grant) (s : State) : Res := .next (hostPost f v grant (fun _ => .stop) s)

/-- PLAY_START (R208): the accepted START's time has come; its sample and fine fields give the start offset of the play. -/
def playStart (v : VoiceId) (s : State) : State :=
  match (getSeq s v).start with
  | some (_, t) =>
    if (getSeq s v).state = .idle then
      takePort v .primary (t / fineBeat * fineBeat)
        (modSeq v (fun q => { q with start := none, startOff := BitVec.ofNat 8 (t % fineBeat) }) s)
    else s
  | none => s

def execPlayStart (v : VoiceId) (s : State) : Res := .next (playStart v s)

/-- A boundary's end for the rider of a Gallop fork whose HOLD ended by itself: its word completes (R399). -/
def tellRider (v : VoiceId) (r : State × ForkEnd) : State :=
  match r.2 with
  | .none => r.1
  | .gallopHoldEnd k =>
    match riderOfKey k with
    | some h => forkWithoutToken h v false true r.1
    | none => r.1

/-- A segment of `n` beats stands at beat `e` after its scheduled start. -/
def placeAt (e : Nat) (q : Seq) : Seq :=
  { q with rep := BitVec.ofNat 12 (e / descLength q.desc), beat := BitVec.ofNat 20 (e % descLength q.desc) }

/-- The first beat boundary after an instant, on the grid of the segment in play and behind its first beat (R227). -/
def boundaryAfter (q : Seq) (t : Fine) : Fine := q.segTime + ((t - q.segTime) / fineBeat + 1) * fineBeat

/-- The instant from which an armed fork can end a HOLD: one whose release is settled, from the consumption of its token and its port READY (R229 to
R231); none while it waits. -/
def forkSince (q : Seq) : Option Fine :=
  match q.fork with
  | some fk =>
    if fk.disarmed ∨ fk.timedOut ∨ fk.missed then some q.segTime
    else
      match fk.gait, fk.chosen with
      | .gallop, some alt =>
        if portSettled q alt then some (max (fk.consumedAt.getD 0) (portSince q (if alt then .alternate else .primary))) else none
      | _, _ => none
  | none => none

/-- What has ended a HOLD before `end_` by its schedule, when the voice starts it late (R218): the earlier of a release and a selection. -/
def pastCut (v : VoiceId) (end_ : Fine) (s : State) : Option State :=
  let s := modSeq v preferReady s
  let q := getSeq s v
  let a := ((forkSince q).map (boundaryAfter q)).getD end_
  let b := if q.sel.any fun x => selReady q x.1 then boundaryAfter q (selSince q) else end_
  if q.state = .hold ∧ min a b ≤ s.clock.sched ∧ min a b < end_ then (if a ≤ b then forkAtHold v a s else selAtHold v b s) else none

/-- The words of the first `e` beats of a STREAM that starts late are skipped with their beats (R218): those in its buffer are discarded, the others as
they arrive (log entry 53). -/
def skipWords (v : VoiceId) (e : Nat) (s : State) : State :=
  let q := getSeq s v
  if q.state = .stream ∧ 0 < e then
    let k := min e q.play.words.length
    let id := q.play.queue
    let rest := q.play.words.drop k
    fillPlay v (modSeq v (fun q =>
      setBacklog id (backlogOf q id + (e - k))
        { countDiscard k q with
          play := { q.play with words := rest, toTake := q.play.toTake - (e - k), bank := if k < q.play.bank then q.play.bank - k else min 512 rest.length } }) s)
  else s

/-- A segment that started late stands at the beat that the schedule has reached (R218); one whose scheduled end is past plays no beat, and its
boundary, and an earlier one that cuts a HOLD, is taken where the schedule has it, as at any boundary. -/
def catchUp (v : VoiceId) : Nat → State → State
  | 0, s => s
  | k + 1, s =>
    let q := getSeq s v
    if supplies q then
      let e := (s.clock.sched - q.segTime) / fineBeat
      match segEnd q with
      | none => modSeq v (fun q => { q with segTime := beatNow s }) s
      | some n =>
        let end_ := q.segTime + n * fineBeat
        match pastCut v end_ s with
        | some s => catchUp v k s
        | none =>
          let s := skipWords v (min e n) s
          if e < n then modSeq v (placeAt e) s
          else catchUp v k (if q.state = .hold then tellRider v (holdEnd v end_ s) else playBoundary v end_ s)
    else s

/-- A BREAK that was granted while the voice waited was late where less than 8 beats of the repetition at its grant were left (R224): past the last
repetition's commit point it only counts. -/
def judgeBreak (v : VoiceId) (s : State) : State :=
  let q := getSeq s v
  if (q.state = .play ∨ q.state = .stream) ∧ q.sel = some (.break_, false) then
    match q.brkAt with
    | none => countLate v (modSeq v (fun q => { q with sel := none, selAt := 0 }) s)
    | some r =>
      if r = (q.selAt - q.segTime) / fineBeat / max 1 (descLength q.desc) then s
      else countLate v (modSeq v (fun q => { q with sel := some (.break_, true) }) s)
  else s

/-- A port has become READY: the voice that waits for it starts the segment (R218); a release that waited for the port counts to the first sample that
its successor plays (R112). -/
def portReady (v : VoiceId) (w : WaitPort) (s : State) : State :=
  let q := getSeq s v
  if q.state = .waiting ∧ q.waitOn = some w then
    let s := judgeBreak v (catchUp v 8 (takePort v w q.segTime (modSeq v (fun q => { q with owed := none }) s)))
    match q.owed with | some fk => countFork v fk (max (beatNow s + q.segTime % fineBeat) q.segTime) s | none => s
  else s

/-- A port has become EMPTY: the voice that waits for it goes idle (R205, R219); a release that waited for it has no successor and counts to its boundary
(DESIGN CHOICE, log entry 151). -/
def portEmpty (v : VoiceId) (w : WaitPort) (s : State) : State :=
  let q := getSeq s v
  if q.state = .waiting ∧ q.waitOn = some w then
    goIdle v (match q.owed with | some fk => countFork v fk q.segTime s | none => s)
  else s

/-- A port's copy of a descriptor, with the first 128 words of a PLAY (R206, R214). -/
def loaded (s : State) (n : StallId) (d : Desc) (p : PortSeg) : PortSeg :=
  { p with desc := d, state := .ready, readyAt := s.clock.sched, head := if descKind d = 0 then memRead 0 s.library (libraryKey n (descStart d)) (min 128 (descLength d)) else [] }

/-- The entry of the primary port that loads, which is its last (R214). -/
def loadingPrim (q : Seq) : Option PortSeg :=
  match q.prim.getLast? with
  | some p => if p.state = .loading then some p else none
  | none => none

/-- A load ends at the primary port (R205, R214, R215). -/
def primLoaded (v : VoiceId) (s : State) : State :=
  match loadingPrim (getSeq s v) with
  | none => s
  | some p =>
    let d := descAt s v.stall p.idx
    match descCheck s v p.idx d with
    | some c =>
      let s := recordVoice c v (modSeq v (fun q => { q with prim := q.prim.dropLast, primEmpty := true }) s)
      if (getSeq s v).prim.isEmpty then portEmpty v .primary s else s
    | none =>
      let ahead := (getSeq s v).prim.dropLast
      if isStream d ∧ ahead ≠ [] then modSeq v (fun q => { q with prim := ahead }) s
      else
        let s := modSeq v (fun q => { q with prim := ahead ++ [loaded s v.stall d p] }) s
        let s := if isStream d then fillAhead v (modSeq v (fun q => { q with ahead := some (freshBuf d) }) s) else s
        portReady v .primary (modSeq v (fun q => refill s v q) s)

/-- What refuses a descriptor at the alternate port (R205, R217): it takes no STREAM. -/
def altCheck (s : State) (v : VoiceId) (i : BitVec 13) (d : Desc) : Option Code :=
  (descCheck s v i d).or (if isStream d then some 0x1202 else none)

/-- A load ends at the alternate port (R205, R217). -/
def altLoaded (v : VoiceId) (s : State) : State :=
  match (getSeq s v).alt with
  | some p =>
    if p.state = .loading then
      let d := descAt s v.stall p.idx
      match altCheck s v p.idx d with
      | some c => portEmpty v .alternate (recordVoice c v (modSeq v (fun q => { q with alt := none }) s))
      | none => portReady v .alternate (modSeq v (fun q => { q with alt := some (loaded s v.stall d p) }) s)
    else s
  | none => s

/-- A load ends at the port of the oldest BRANCH that loads (R205, R220). -/
def branchLoaded (v : VoiceId) (s : State) : State :=
  match (getSeq s v).branches.find? fun e => decide (e.2.state = .loading) with
  | some (k, p) =>
    let d := descAt s v.stall p.idx
    match descCheck s v p.idx d with
    | some c => portEmpty v (.branch k) (recordVoice c v (modSeq v (fun q => { q with branches := tabDel q.branches k }) s))
    | none => portReady v (.branch k) (modSeq v (fun q => { q with branches := tabSet q.branches k (loaded s v.stall d p) }) s)
  | none => s

def execDescriptorLoadDone (v : VoiceId) (side : PortSide) (s : State) : Res :=
  .next (match side with | .primary => primLoaded v s | .alternate => altLoaded v s | .branch => branchLoaded v s)

/-- COMMIT_POINT (R222): 8 beats before the boundary of a PLAY or STREAM, or of a segment whose port the voice waits for. -/
def commitPoint (v : VoiceId) (s : State) : State :=
  let q := getSeq s v
  if (q.state = .play ∨ q.state = .stream ∨ q.state = .waiting) ∧ !q.committed then judge v true s else s

def execCommitPoint (v : VoiceId) (s : State) : Res := .next (commitPoint v s)

/-- REPETITION_BOUNDARY (R211, R212): the next repetition starts, unless this one is the last; its first beat is that of a segment under R167. -/
def repetition (v : VoiceId) (s : State) : State :=
  let q := getSeq s v
  let more := decide (q.rep.toNat < descRepeat q.desc) && (segBeats q.desc).isSome && decide (q.brkAt ≠ some q.rep.toNat)
  if supplies q && more then tuneVoice v (modSeq v (fun q => { q with rep := q.rep + 1, beat := 0 }) s) else s

def execRepetitionBoundary (v : VoiceId) (s : State) : Res := .next (repetition v s)

/-- SEGMENT_BOUNDARY (R210, R212): the voice takes its successor; a Gallop fork's word completes where its HOLD ended by itself (R399). -/
def boundaryAtVoice (v : VoiceId) (s : State) : State := tellRider v (segmentEnd v s)

def execSegmentBoundary (v : VoiceId) (s : State) : Res := .next (boundaryAtVoice v s)

/-- STREAM_UNDERRUN (R240): the word of a beat is missing from the stream buffer when the beat enters synthesis. -/
def streamUnder (v : VoiceId) (s : State) : State :=
  let q := getSeq s v
  if q.state = .stream ∧ !q.under ∧ q.play.words = [] then beginUnderrun v s else s

def execStreamUnderrun (v : VoiceId) (s : State) : Res := .next (streamUnder v s)

/-- STREAM_RESUME (R241): words arrive again on the queues of a voice; as many as beats played as zero are discarded, of every queue with a backlog, and
only then does the STREAM in play go on with its own words. -/
def streamBack (v : VoiceId) (s : State) : State :=
  let s := forEach (getSeq s v).backlog (fun e s => discardBacklog v (BitVec.ofNat 14 e.1) s) s
  let s := if (getSeq s v).state = .stream then fillPlay v s else s
  let s := fillAhead v s
  modSeq v (fun q => if q.under ∧ q.play.words ≠ [] then { q with under := false } else q) s

def execStreamResume (v : VoiceId) (s : State) : Res := .next (streamBack v s)

/-- What a word of the page window is (R204): a library word, a descriptor word, or none. -/
inductive EnvPlace where
  | library (word : Nat)
  | desc (word : Nat)
  | none
  deriving DecidableEq, Repr

/-- The place of window word w under a page (R204). -/
def envPlace (page : BitVec 2) (w : Nat) : EnvPlace :=
  if page.toNat < 3 then .library (page.toNat * 2097152 + w) else if w < 32768 then .desc w else .none

/-- The owner of the block or group in which a place of the page window lies (R202). -/
def envOwner (s : State) (n : StallId) : EnvPlace → Option Owner
  | .library w => some (blockOwner s n (w / 16384))
  | .desc w => some (tabGet 0 (imageOf s n).groups (w / 256))
  | .none => none

/-- The write itself. -/
def envWrite (n : StallId) (p : EnvPlace) (val : Word) (s : State) : State :=
  match p with
  | .library w => { s with library := memSet 0 s.library (libraryKey n w) val }
  | .desc w => { s with descs := memSet 0 s.descs (n.val * 32768 + w) val }
  | .none => s

/-- ENVELOPE_WINDOW_WRITE (R204, R205): a library word or a descriptor word, by its owner. -/
def execEnvelopeWindowWrite (f : Func) (n : StallId) (w : Fin 2097152) (val : Word) (s : State) : Res :=
  let at_ (s : State) : EnvPlace := envPlace (getStall s n).envPage w.val
  .next (hostCheck f (.env n w)
    (fun s => match envOwner s n (at_ s) with | some o => if mayAct f o then none else some 0x1F01 | none => none)
    (fun s => envWrite n (at_ s) val s) s)

end Sys2Proof.Machine
end

