-- ==== Sys2Proof/Machine/Tally.lean ====
section
/-!
DEFINITION. Chapter 17: feeds, the seal switch and the seal port, the Tally's checks and its mirror.
-/

namespace Sys2Proof.Machine

open Sys2Proof

/-! ## Feeds (R648 to R650) -/

def execFeedSend (id : FeedId) (s : State) : Res :=
  .next (match id with | .stall n => sendFeed n s | _ => s)

def execFeedMessage (msg : FeedIn) (s : State) : Res := .next (if msg.intact then takeMessage msg s else s)

/-- No intact message for 1 ms (R650). -/
def feedLost (k : FeedId) (s : State) : State :=
  if bit s.tally.feed (feedBit k) then tallyLog 0x10 (feedSource k) 0 (setTally (fun t => { t with feed := t.feed &&& ~~~(feedMask k) }) s) else s

def execFeedTimeout (id : FeedId) (s : State) : Res := .next (feedLost id s)

/-! ## The seal (Table 17-3) -/

/-- The Tally enters a state. -/
def setSeal (x : SealState) (s : State) : State := setTally (fun t => { t with state := x }) s

/-- The seal switch is set to open. -/
def sealOpen (s : State) : State :=
  match s.tally.state with
  | .closed => tallyLog 0x01 0xFF 0 (setTally (fun t => { t with state := .opened, opens := satInc t.opens }) s)
  | .unbound => tallyLog 0x01 0xFF 0 (setTally (fun t => { t with state := .opened, opens := satInc t.opens }) s)
  | _ => s

def execSealOpened (s : State) : Res := .next (sealOpen s)

/-- The module serial number that is bound, with what the seal port has written last. -/
def boundSerial (t : Tally) : Nat := t.conf.foldl (fun acc c => match c with | .serial n => n | _ => acc) t.serial

/-- The seal switch is set to closed. -/
def sealClose (s : State) : State :=
  if s.tally.state = .opened then
    (if boundSerial s.tally = s.tally.carrier then tallyLog 0x02 0xFF 0 (setSeal .closed s) else tallyLog 0x05 0xFF 0 (setSeal .unbound s))
  else s

def execSealClosed (s : State) : Res := .next (sealClose s)

/-- A configuration item written through the seal port (R658): it takes effect at the next mirror refresh. -/
def sealWrite (item : SealItem) (s : State) : State :=
  if s.tally.state = .opened then
    freshen (tallyLog 0x03 0xFF (Config.sealItem s.freeCtr)
      (setTally (fun t => { t with conf := t.conf ++ [item], changes := satInc t.changes }) s))
  else s

def execSealPortConfiguration (item : SealItem) (s : State) : Res := .next (sealWrite item s)

/-! ## Checks (R656, R657) -/

/-- The Tally falls into FAULT; the log takes entries while the memory permits it. -/
def tallyFault (memoryOk : Bool) (s : State) : State :=
  let s := setSeal .fault s
  if memoryOk then tallyLog 0x30 0xFF 0 s else s

/-- The firmware's check value differs (R656). -/
def badFirmware (check : BitVec 32) (memoryOk : Bool) (s : State) : State :=
  tallyFault memoryOk (if memoryOk then tallyLog 0x04 0xFF check s else s)

/-- Power-on of the Tally (Table 17-3, R660). -/
def tallyStarts (carrier : Nat) (check : BitVec 32) (memoryOk : Bool) (s : State) : State :=
  let s := setTally (fun t => { t with carrier }) s
  let s := if memoryOk then tallyLog 0x14 0xFF 0 s else s
  if s.tally.state = .fault then s
  else if check ≠ s.tally.fwCheck then badFirmware check memoryOk s
  else if !memoryOk then tallyFault false s
  else if s.tally.serial ≠ carrier then tallyLog 0x05 0xFF 0 (setSeal .unbound s)
  else s

def execTallyPowerOn (carrier : Nat) (check : BitVec 32) (memoryOk : Bool) (s : State) : Res := .next (tallyStarts carrier check memoryOk s)

def execFirmwareCheck (check : BitVec 32) (s : State) : Res :=
  .next (if s.tally.state = .fault ∨ check = s.tally.fwCheck then s else badFirmware check true s)

/-! ## The mirror (R663 to R665) -/

/-- A configuration item takes effect. -/
def applySeal (c : SealItem) (t : Tally) : Tally :=
  match c with
  | .clock x => { t with clock := x, clockSub := 0 }
  | .serial n => { t with serial := n }
  | .meter two k => if two then { t with const2 := k } else { t with const1 := k }
  | .tenantRead on => { t with tenantRead := on }

/-- The configuration that waits takes effect. -/
def applyConf (t : Tally) : Tally := { t.conf.foldl (fun t c => applySeal c t) t with conf := [] }

/-- 50 µs in beats, the longest that a refresh takes (R664). -/
def refreshLimit : Nat := 75000

/-- The mirror is rewritten; what reaches the Tally from now on enters the next refresh (R662). -/
def refreshMirror (s : State) : State :=
  let n := max 1 (min refreshLimit (Config.refreshPace s.freeCtr))
  let s := setTally (fun t =>
    let t := applyConf t
    { t with mirror := refreshed t, refreshLeft := n, recent := t.recent.filter fun e => completeFrame t < e.1 }) s
  freshen (setHost (fun h => { h with mirrorStale := false }) s)

/-- MIRROR_REFRESH: refreshes follow one another, one at a time (R662). -/
def execMirrorRefresh (s : State) : Res := .next (if s.tally.refreshLeft = 0 then refreshMirror s else s)

/-- One beat of a refresh: TY_SEQ is even again at its end (R664). -/
def tickRefresh (s : State) : State :=
  match s.tally.refreshLeft with
  | 0 => s
  | k + 1 => setTally (fun t => { t with refreshLeft := k, mirror := if k = 0 then { t.mirror with seq := t.mirror.seq + 1 } else t.mirror }) s

/-- TY_SEQ has not changed for 1 s (R665). -/
def mirrorOld (s : State) : State :=
  if s.host.mirrorStale then s
  else raise 0x806 (record 0x3E01 8 0 0 0 (setHost (fun h => { h with mirrorStale := true }) s))

def execMirrorStale (s : State) : Res := .next (mirrorOld s)

def execTallyMirrorWrite (f : Func) (w : Fin 17408) (s : State) : Res :=
  .next (if hostReach s f then refuseReg f (.tally w) 0x1E01 s else s)

end Sys2Proof.Machine
end

