-- ==== Sys2Proof/Machine/Tether.lean ====
section
/-!
DEFINITION. Chapter 13: training, events, packets and time marks of the tether lanes, and the pattern generator.
-/

namespace Sys2Proof.Machine

open Sys2Proof

/-! ## Commands (Table 13-7) -/

/-- Change the operation status of TETHER. -/
def tetherOp (g : OpStatus → OpStatus) (s : State) : State := setTether (fun t => { t with op := g t.op }) s

/-- What refuses RETRAIN: another one in progress, a lane that is disabled or trains; where no lane may train (R541), it is as if disabled (DEDUCED, log entry
193). -/
def retrainCode (k : LaneId) (s : State) : Option Code :=
  if s.tether.retrain.isSome then some 0x1A02
  else if !(getLane s k).enable ∨ (getLane s k).state = .training ∨ lanesHeld s then some 0x1A01
  else none

/-- RETRAIN (Table 13-3, R554). -/
def startRetrain (k : LaneId) (s : State) : State :=
  let was := (getLane s k).state
  let s := modLane k (fun x => if was = .hitched then { x with cause := 7 } else { x with backoff := 0 }) s
  let s := train k s
  let s := if was = .hitched then steerFollower (laneLeaves k s) else s
  setTether (fun t => { t with op := opStart, retrain := some k, partialValid := true, phase := 1, measured := 0 }) s

def execRetrain (f : Func) (lane : LaneId) (s : State) : Res :=
  .next (spineCommand f (.tether .cmd) tetherOp (retrainCode lane) (startRetrain lane) s)

/-- INJECT (R552): the next event sent on the lane carries a wrong CRC-4. -/
def execInject (f : Func) (lane : LaneId) (s : State) : Res :=
  .next (spineCommand f (.tether .cmd) tetherOp (fun s => if hitched s lane then none else some 0x1A03)
    (modLane lane fun x => { x with corruptNext := true }) s)

/-- A write to TL_CTL (R538, R540, R550); before a herd image is in force no lane trains (R541). -/
def tlCtl (k : LaneId) (val : Word) (s : State) : State :=
  let was := (getLane s k).enable
  let on := bit val 31
  let s := modLane k (fun x => { x with enable := on, eqAuto := bit val 30, eqSet := bits val 24 4 }) s
  if on && !was then
    let s := modLane k (fun x => { x with backoff := 0, prbs := { x.prbs with genEn := false, chkEn := false, locked := false } }) s
    if lanesHeld s then s else train k s
  else if was && !on && decide ((getLane s k).state ≠ .unhitched) then unhitch k 6 none false s
  else s

def execTlCtlWrite (f : Func) (lane : LaneId) (val : Word) (s : State) : Res := .next (hostWrite f (.tl lane .ctl) (tlCtl lane val) s)

/-! ## Training (Tables 13-3, 13-4) -/

/-- The wait in UNHITCHED ends, or the partner's training pattern comes (R538). -/
def backoffEnd (k : LaneId) (s : State) : State :=
  if (getLane s k).state = .unhitched ∧ (getLane s k).enable ∧ !lanesHeld s then train k s else s

def execTrainingPatternReceived (lane : LaneId) (s : State) : Res :=
  .next (backoffEnd lane s)

/-- A sum of round trips, each twice a latency, as their mean, to the nearest 1/16 ns (R548). -/
def meanLatency (sum : Int) (trips : Nat) : Nat := ((sum + trips) / (2 * trips)).toNat

/-- A latency field: 16 bits, saturating. -/
def latField (n : Nat) : BitVec 16 := BitVec.ofNat 16 (min n 65535)

/-- Phase 5 ends: the lane is HITCHED (Table 13-3, R548). -/
def hitch (k : LaneId) (s : State) : State :=
  let s := modLane k (fun x =>
    { x with
      state := .hitched, phase := 0, backoff := 0, ackCount := 0, intactIn := 0
      time := { x.time with mean := latField (meanLatency x.time.sum x.time.trips), worst := latField (x.time.largest + 224), maxRun := 0, sent := none } }) s
  let s := raise (laneSource k) (record 0x0A01 8 0 0 0 s)
  let s := steerFollower (replacePackets s)
  if s.tether.retrain = some k then endRetrain (opDone 0x0A01) s else s

/-- The lane of a HERD image, or an empty one. -/
def laneCfg (s : State) (k : LaneId) : LaneCfg := tabGet {} (herd s).lanes k.val

/-- The peaking with the widest eye, of equal widths the lower (R540). -/
def widestEye (eyes : Tab (BitVec 8)) : Nat :=
  (List.range 16).foldl (fun best k => if tabGet 0 eyes best < tabGet 0 eyes k then k else best) 0

/-- Phase 3 sets the equaliser (R540). -/
def equalise (eyes : Tab (BitVec 8)) (x : Lane) : Lane :=
  let k := if x.trainAuto then widestEye eyes else x.trainSet.toNat
  { x with eqNow := BitVec.ofNat 4 k, eye := tabGet 0 eyes k }

/-- TRAINING_PHASE_END (R539, R540): phase 1 compares the references, phase 3 sets the equaliser, phase 4 compares the partner, phase 5
needs its 1,024 round trips. -/
def phaseEnd (k : LaneId) (found : PhaseFound) (s : State) : State :=
  let x := getLane s k
  let next (s : State) : State := showRetrain k (modLane k (fun y => { y with phase := x.phase + 1 }) s)
  if x.state = .training then
    match x.phase with
    | 1 => if 200 < found.ppm then unhitch k 3 (some 0x2A03) true s else next s
    | 2 => next s
    | 3 => next (modLane k (equalise found.eyes) s)
    | 4 =>
      let s := modLane k (fun y => { y with seenId := found.partnerId, seenLane := found.partnerLane }) s
      let c := laneCfg s k
      if found.partnerId ≠ c.partnerId ∨ found.partnerLane ≠ c.partnerLane then unhitch k 2 (some 0x2A02) true s else next s
    | _ => if 1024 ≤ x.time.trips then hitch k s else s
  else s

def execTrainingPhaseEnd (lane : LaneId) (found : PhaseFound) (s : State) : Res := .next (phaseEnd lane found s)

def execTrainingTimeout (lane : LaneId) (s : State) : Res :=
  .next (if (getLane s lane).state = .training then unhitch lane 1 (some 0x2A01) true s else s)

def execBackoffWaitEnd (lane : LaneId) (s : State) : Res := .next (backoffEnd lane s)

def execLossOfSignal (lane : LaneId) (s : State) : Res := .next (if hitched s lane then unhitch lane 4 (some 0x3A01) false s else s)

def execErrorRateLimit (lane : LaneId) (s : State) : Res := .next (if hitched s lane then unhitch lane 5 (some 0x3A02) false s else s)

/-! ## Events (R530 to R533) -/

/-- EVENT_RECEIVED (R533): an intact event enters the hub and counts in the acknowledge that it makes due; a broken one is discarded and counted, and the
acknowledge shows its loss. -/
def eventIn (k : LaneId) (tok : Token) (intact : Bool) (s : State) : State :=
  if hitched s k then
    let s := modTx k (fun t => { t with ackDue := true }) s
    if intact then hubIngress (0x400 + k.val) tok (modLane k (fun x => { x with intactIn := x.intactIn + 1 }) s)
    else modLane k (fun x => { x with codeErr := satInc x.codeErr }) s
  else s

def execEventReceived (lane : LaneId) (tok : Token) (intact : Bool) (s : State) : Res := .next (eventIn lane tok intact s)

/-- An acknowledge of events (R533): those it answers and does not report intact are lost. -/
def ackEvents (k : LaneId) (count : BitVec 8) (answers : Nat) (s : State) : State :=
  let x := getLane s k
  let done := x.unacked.take answers
  let intact := (count - x.ackCount).toNat
  let lost := max (done.length - intact) (done.filter fun e => e.bad).length
  let s := modLane k (fun y => { y with unacked := y.unacked.drop answers, ackCount := count, lost := satAdd y.lost lost }) s
  if lost = 0 then s else record 0x3A04 8 0 0 0 s

/-- An acknowledge of a packet releases it (R536). -/
def ackPacket (k : LaneId) (q : QueueId) (credits : Bool) (seq : Nat) (s : State) : State :=
  setTether (fun t =>
    { t with packets := t.packets.filter fun p => !(p.lane == some k && p.queue == q && p.words.isEmpty == credits && p.seq == seq) }) s

def execEventAcknowledge (lane : LaneId) (ack : AckIn) (s : State) : Res :=
  .next (if hitched s lane then
      match ack with
      | .events count answers => ackEvents lane count answers s
      | .packet q credits seq => ackPacket lane q credits seq s
    else s)

/-! ## Packets (R535 to R537) -/

/-- A word that the ingress port of its lane pushes with the matching credit (R535); without a queue there it is discarded (R470, R537). -/
def pushIngress (k : LaneId) (q : QueueId) (w : Word × Bool) (s : State) : State :=
  match portOfLane s q k with
  | some i =>
    let s := setTether (fun t => { t with told := tabSet t.told q.toNat (tabGet 0 t.told q.toNat - 1) }) s
    modProd q i (fun d => { d with credits := d.credits - 1, flight := d.flight ++ [{ word := w.1, eoi := w.2, port := i }] }) s
  | none => record 0x3804 8 0 (queueObject q) 0 (setQdir (fun d => { d with noQueue := satInc d.noQueue }) s)

/-- Words of a queue come over a lane: credit returns that are not acknowledged follow them (R537). -/
def followWords (k : LaneId) (q : QueueId) (s : State) : State :=
  setTether (fun t =>
    { t with
      via := tabSet t.via q.toNat k.val
      packets := t.packets.map fun p => if p.queue = q ∧ p.words.isEmpty ∧ p.lane ≠ some k then { p with lane := some k, due := true } else p }) s

/-- PACKET_RECEIVED (R536): an intact packet is taken once, in its order; words are pushed, or remote credits arrive.  One that is taken, or was taken before, is
acknowledged; one ahead of its order is not, since its sender must keep it (DEDUCED, log entry 192). -/
def packetIn (k : LaneId) (p : PacketIn) (intact : Bool) (s : State) : State :=
  if !hitched s k then s
  else if !intact then modLane k (fun x => { x with codeErr := satInc x.codeErr }) s
  else
    let key := packetKey p.queue p.words.isEmpty
    let taken := decide (p.seq ≤ tabGet 0 s.tether.received key)
    let s := if taken then modTx k (fun t => { t with packAcks := t.packAcks ++ [(p.queue, p.words.isEmpty, p.seq)] }) s else s
    if p.seq = tabGet 0 s.tether.received key then
      let s := setTether (fun t => { t with received := tabSet t.received key (p.seq + 1) }) s
      if p.words.isEmpty then
        setTether (fun t => { t with remote := tabSet t.remote p.queue.toNat (tabGet 0 t.remote p.queue.toNat + p.credits) }) s
      else forEach p.words (pushIngress k p.queue) (followWords k p.queue s)
    else s

def execPacketReceived (lane : LaneId) (pkt : PacketIn) (intact : Bool) (s : State) : Res := .next (packetIn lane pkt intact s)

/-- PACKET_RETRANSMISSION (R536): the packet leaves again, ahead of newer ones. -/
def resend (k : LaneId) (q : QueueId) (credits : Bool) (seq : Nat) (s : State) : State :=
  setTether (fun t =>
    { t with packets := t.packets.map fun p =>
        if p.lane = some k ∧ p.queue = q ∧ p.words.isEmpty = credits ∧ p.seq = seq then { p with due := true } else p }) s

def execPacketRetransmission (lane : LaneId) (queue : QueueId) (credits : Bool) (seq : Nat) (s : State) : Res :=
  .next (if hitched s lane then resend lane queue credits seq s else s)

/-! ## Time marks (R547 to R549) -/

/-- A round trip in phase 5. -/
def trainTrip (k : LaneId) (twice offset : Int) (s : State) : State :=
  showRetrain k (modLane k (fun x =>
    { x with time := { x.time with trips := x.time.trips + 1, sum := x.time.sum + twice, largest := max x.time.largest (twice / 2).toNat,
                                   offset := BitVec.ofInt 32 offset } }) s)

/-- A round trip while HITCHED (R549). -/
def runTrip (k : LaneId) (twice offset : Int) (s : State) : State :=
  let lat := (twice / 2).toNat
  let above := decide ((getLane s k).time.worst.toNat < lat)
  let s := modLane k (fun x =>
    { x with overErr := x.overErr || above
             time := { x.time with last := latField lat, maxRun := latField (max x.time.maxRun.toNat lat), offset := BitVec.ofInt 32 offset } }) s
  steerFollower (if above then raise (laneSource k) (record 0x3A05 8 0 0 0 s) else s)

/-- A lane exchanges time marks: in phase 5 of its training and while HITCHED. -/
def marksOn (x : Lane) : Bool := decide (x.state = .hitched) || (decide (x.state = .training) && decide (x.phase = 5))

/-- TIME_MARK_RECEIVED (R547): a request is answered with its stamp and that of the reply, which enters egress at once (DEDUCED, log entry 192); a reply completes
the round trip of the request that is out. -/
def timeMark (k : LaneId) (m : TimeMark) (s : State) : State :=
  let x := getLane s k
  if !marksOn x then s
  else
    match m with
    | .request at_ => let t := stampNow s at_.val; modTx k (fun y => { y with marks := y.marks ++ [.reply t t] }) s
    | .reply t2 t3 at_ =>
      match x.time.sent with
      | some t1 =>
        let t4 := stampNow s at_.val
        let twice := (t4 - t1) - (t3 - t2)
        let offset := ((t2 - t1) - (t4 - t3)) / 2
        let s := modLane k (fun x => { x with time := { x.time with sent := none } }) s
        if x.state = .training then trainTrip k twice offset s else runTrip k twice offset s
      | none => s

def execTimeMarkReceived (lane : LaneId) (mark : TimeMark) (s : State) : Res := .next (timeMark lane mark s)

/-- TIME_MARK_TIMER (R549): a HITCHED lane sends a time mark. -/
def execTimeMarkTimer (lane : LaneId) (s : State) : Res :=
  .next (if hitched s lane then sendRequest lane s else s)

/-! ## Patterns (R550 to R552) -/

/-- What refuses a write to TL_PRBS (R550). -/
def prbsCode (k : LaneId) (val : Word) (s : State) : Option Code :=
  if (getLane s k).enable ∧ (bit val 31 ∨ bit val 30) then some 0x1A01 else none

/-- A write to TL_PRBS; the generator starts with gen_en. -/
def setPrbs (k : LaneId) (val : Word) (s : State) : State :=
  let starts := bit val 31 && !(getLane s k).prbs.genEn
  let seed := prbsStart (bits val 28 2) s.freeCtr
  (if starts then freshen else id) (modLane k (fun x =>
    { x with prbs :=
      { x.prbs with
        genEn := bit val 31, chkEn := bit val 30, poly := bits val 28 2, injRate := bits val 20 4
        injectNext := x.prbs.injectNext || bit val 19, locked := x.prbs.locked && bit val 30
        shift := if starts then seed else x.prbs.shift, sent := if starts then 0 else x.prbs.sent } }) s)

def execTlPrbsWrite (f : Func) (lane : LaneId) (val : Word) (s : State) : Res :=
  .next (hostCheck f (.tl lane .prbs) (prbsCode lane val) (setPrbs lane val) s)

/-- CHECKER_LOCKED (R551): 128 correct bits in a row. -/
def execCheckerLocked (lane : LaneId) (s : State) : Res :=
  .next (modLane lane (fun x => if x.prbs.chkEn then { x with prbs := { x.prbs with locked := true } } else x) s)

/-- CHECKER_LOCK_LOST (R551): the checker counts no more. -/
def execCheckerLockLost (lane : LaneId) (s : State) : Res :=
  .next (modLane lane (fun x => { x with prbs := { x.prbs with locked := false } }) s)

end Sys2Proof.Machine
end

