-- ==== Sys2Proof/Machine/HostOps.lean ====
section
/-!
DEFINITION. What a host write to a register of BAR0 does (R19, R20, chapter 19), register by register: the command of the register's own
row where it has one, its plain fields otherwise.
-/

namespace Sys2Proof.Machine

open Sys2Proof

/-- Two parts of one write, in order. -/
def andThen (a : Res) (k : State → Res) : Res :=
  match a with
  | .next s => k s
  | r => r

/-- A write to the plain fields of a register (R19). -/
def plainWrite (f : Func) (r : Reg) (val : Word) (s : State) : Res := .next (hostWrite f r (plainField f r val) s)

/-- A write that starts nothing. -/
def noAction (f : Func) (r : Reg) (s : State) : Res := .next (hostWrite f r id s)

/-- A command value that a spine block does not know. -/
def unknownSpine (f : Func) (r : Reg) (setOp : (OpStatus → OpStatus) → State → State) (code : Code) (s : State) : Res :=
  .next (spineCommand f r setOp (fun _ => some code) id s)

/-- A command value that a register without OP_STATUS does not know. -/
def unknownValue (f : Func) (r : Reg) (code : Code) (s : State) : Res := .next (hostCheck f r (fun _ => some code) id s)

/-! ## CTL -/

/-- STn_CMD (Table 01-11). -/
def stallCmdWrite (f : Func) (n : StallId) (val : Word) (env : WriteEnv) (s : State) : Res :=
  match (bits val 0 8 : BitVec 8).toNat with
  | 1 => execPowerUp f n env.found s
  | 2 => execStart f n s
  | 3 => execDrain f n s
  | 4 => execUnload f n s
  | 5 => execPowerDown f n s
  | 6 => execHalt f n s
  | _ => .next (stallCommand f n false (fun _ => false) id s)

/-- The slice kind of STn_SPARE_CMD (Table 01-6). -/
def spareKind (k : BitVec 2) : Option SliceKind :=
  match k.toNat with
  | 0 => some .drive
  | 1 => some .probe
  | 2 => some .acq
  | _ => none

/-- STn_SPARE_CMD (Table 01-6). -/
def spareCmdWrite (f : Func) (n : StallId) (val : Word) (s : State) : Res :=
  match spareKind (bits val 8 2) with
  | some k => if bits val 0 4 = (0xF : BitVec 4) then execSpareRelease f n k s else execSpareTakeover f n k (bits val 0 4) s
  | none => noAction f (.ctl n .spareCmd) s

/-- A register of CTL. -/
def ctlWrite (f : Func) (n : StallId) (r : CtlReg) (val : Word) (env : WriteEnv) (s : State) : Res :=
  match r with
  | .cmd => stallCmdWrite f n val env s
  | .spareCmd => spareCmdWrite f n val s
  | .trot k => execTrotDeadlineWrite f n k val s
  | .shotCmd => execShotAuditCmd f n val s
  | r => plainWrite f (.ctl n r) val s

/-- A register of a comparator (Table 15-5). -/
def cmpWrite (f : Func) (c : CmpId) (r : WcReg) (val : Word) (env : WriteEnv) (s : State) : Res :=
  match r with
  | .cmd =>
    (match (bits val 0 2 : BitVec 2).toNat with
     | 1 => execCheckSwap f c s
     | 2 => execCheckLevels f c s
     | _ => noAction f (cmpReg c .cmd) s)
  | .status =>
    if gateCode s f (cmpReg c .status) = none ∧ bit val 31 then
      andThen (execLatchClear f c env.level s) (plainWrite f (cmpReg c .status) val)
    else plainWrite f (cmpReg c .status) val s
  | r =>
    match watchOf r with
    | some w => execComparatorConfigWrite f c w val s
    | none => plainWrite f (cmpReg c r) val s

/-! ## Drive, probe, read, acquisition -/

/-- A register of a drive or probe slice. -/
def sliceWrite (f : Func) (i : SliceId) (reg : Reg) (r : SlReg) (val : Word) (s : State) : Res :=
  match r with
  | .ctl => execSlCtlWrite f i val s
  | _ => plainWrite f reg val s

/-- A register of a voice. -/
def voiceWrite (f : Func) (v : VoiceId) (r : VcReg) (val : Word) (grant : Grant) (s : State) : Res :=
  match r with
  | .ctl => execVoiceTuningWrite f v .ctl val grant s
  | .phase => execVoiceTuningWrite f v .phase val grant s
  | .frame => execVoiceTuningWrite f v .frame val grant s
  | .scale => execVoiceTuningWrite f v .scale val grant s
  | .ftwLo => execFtwLoWrite f v val s
  | .ftwHi => execFtwHiWrite f v val grant s
  | .delay => execDelayWrite f v val grant s
  | .status => plainWrite f (.voice v .status) val s

/-- VS_POST (Table 05-6). -/
def postWrite (f : Func) (v : VoiceId) (val : Word) (grant : Grant) (s : State) : Res :=
  match (bits val 29 3 : BitVec 3).toNat with
  | 0 => noAction f (.seq v .post) s
  | 1 => execVoiceStart f v val grant s
  | 2 => execLoadAlt f v val grant s
  | 3 => execSelectAlt f v grant s
  | 4 => execBranch f v val grant s
  | 5 => execBreak f v grant s
  | 6 => execStop f v grant s
  | _ => unknownValue f (.seq v .post) 0x1204 s

/-- A register of a sequencer. -/
def seqWrite (f : Func) (v : VoiceId) (r : VsReg) (val : Word) (grant : Grant) (s : State) : Res :=
  match r with
  | .post => postWrite f v val grant s
  | r => plainWrite f (.seq v r) val s

/-- A register of a readout channel. -/
def chanWrite (f : Func) (c : ChanId) (r : ChReg) (val : Word) (s : State) : Res :=
  match r with
  | .ctl => execChCtlWrite f c val s
  | .int_ => execStagedSetWrite f c .int_ val s
  | .demod => execStagedSetWrite f c .demod val s
  | .disc => execStagedSetWrite f c .disc val s
  | .ab p => execStagedSetWrite f c (.ab p) val s
  | .c p => execStagedSetWrite f c (.c p) val s
  | .qk p => execStagedSetWrite f c (.qk p) val s
  | .commit => if bit val 0 then execChCommit f c s else noAction f (.chan c .commit) s
  | r => plainWrite f (.chan c r) val s

/-- A register of a capture unit (Table 07-7). -/
def unitWrite (f : Func) (u : UnitId) (r : TuReg) (val : Word) (s : State) : Res :=
  match r with
  | .cmd =>
    (match (bits val 0 3 : BitVec 3).toNat with
     | 1 => execArm f u s
     | 2 => execDisarm f u s
     | 3 => execForce f u s
     | 4 => execRelease f u s
     | _ => noAction f (.unit u.stall u.num .cmd) s)
  | .rd => execTuRdWrite f u val s
  | r => plainWrite f (.unit u.stall u.num r) val s

/-! ## Flux, rein, riders, queues, Farrier -/

/-- A register of a flux line. -/
def lineWrite (f : Func) (l : LineId) (r : FlReg) (val : Word) (grant : Grant) (s : State) : Res :=
  match r with
  | .ctl => execFlCtlWrite f l val s
  | .dc => execFlDcWrite f l val grant s
  | .curb => execFlCurbWrite f l val s
  | .safe => execFlSafeWrite f l val s
  | .genLo => execGeneratorConfigWrite f l .lo val s
  | .genHi => execGeneratorConfigWrite f l .hi val s
  | .genCfg => execGeneratorConfigWrite f l .cfg val s
  | .fastSet => execFlFastSet f l val grant s
  | r => plainWrite f (.line l r) val s

/-- FG_CMD (Table 10-8). -/
def groupWrite (f : Func) (g : GroupId) (cmd : Bool) (val : Word) (reports : Bool) (s : State) : Res :=
  if cmd && decide (bits val 0 8 = (1 : BitVec 8)) then execClear f g reports s else noAction f (.group g cmd) s

/-- A register of a rein node; STn_REIN_FF_CMD (Table 08-12). -/
def nodeWrite (f : Func) (n : StallId) (r : NodeReg) (val : Word) (s : State) : Res :=
  match r with
  | .ffCmd =>
    (match (bits val 30 2 : BitVec 2).toNat with
     | 1 => execSetFlipFlop f n ⟨(bits val 0 8 : BitVec 8).toNat, (bits val 0 8 : BitVec 8).isLt⟩ (bits val 16 2) (bit val 18) s
     | 2 => execClearFlipFlops f n s
     | _ => noAction f (.node n .ffCmd) s)
  | r => plainWrite f (.node n r) val s

/-- A register of a buckle cell. -/
def cellWrite (f : Func) (c : CellId) (reg : Reg) (r : BkReg) (val : Word) (s : State) : Res :=
  match r with
  | .filter => execBkFilterWrite f c val s
  | _ => plainWrite f reg val s

/-- RH_CMD (Table 09-13). -/
def riderCmdWrite (f : Func) (h : RiderId) (val : Word) (s : State) : Res :=
  match (bits val 0 8 : BitVec 8).toNat with
  | 1 => execRiderStart f h s
  | 2 => execRiderStop f h s
  | 3 => execSpur f h s
  | _ => unknownValue f (.rider h .cmd) 0x1704 s

/-- A register of a rider. -/
def riderWrite (f : Func) (h : RiderId) (r : RhReg) (val : Word) (s : State) : Res :=
  match r with
  | .cmd => riderCmdWrite f h val s
  | .handler => execRhHandlerWrite f h val s
  | .l k => execRiderRegisterWrite f h (.l k) val s
  | .tLo k => execRiderRegisterWrite f h (.tLo k) val s
  | .tHi k => execRiderRegisterWrite f h (.tHi k) val s
  | r => plainWrite f (.rider h r) val s

/-- A register of a queue. -/
def queueWrite (f : Func) (n : StallId) (i : Fin 2048) (r : QReg) (val : Word) (s : State) : Res :=
  let q : QueueId := BitVec.ofNat 14 (n.val * 2048 + i.val)
  match r with
  | .push => execQPush f q val s
  | .pushEnd => execQPushEnd f q val s
  | .pop => execQPop f q ⟨(bits val 0 4 : BitVec 4).toNat, (bits val 0 4 : BitVec 4).isLt⟩ s
  | r => plainWrite f (.queue n i r) val s

/-- The calibration kind of FA_CMD (Table 12-1). -/
def kindOf (k : BitVec 3) : Option CalKind :=
  match k.toNat with
  | 1 => some .adcIl
  | 2 => some .dac
  | 3 => some .iq
  | 4 => some .skew
  | 5 => some .marker
  | 6 => some .planes
  | _ => none

/-- FA_CMD (Table 12-6). -/
def farrierCmdWrite (f : Func) (n : StallId) (val : Word) (s : State) : Res :=
  let bad : Res := .next (farrierCommand f n (fun _ => some 0x1902) id s)
  match (bits val 16 4 : BitVec 4).toNat with
  | 1 => (match kindOf (bits val 8 3) with | some k => execFarrierStart f n k (bits val 0 8) s | none => bad)
  | 2 => execFarrierAbort f n s
  | 3 => execRestore f n (bits val 0 8) s
  | _ => bad

/-- A register of a stall's Farrier. -/
def farrierWrite (f : Func) (n : StallId) (r : FaReg) (val : Word) (s : State) : Res :=
  match r with
  | .cmd => farrierCmdWrite f n val s
  | r => plainWrite f (.farrier n r) val s

/-! ## The spine -/

/-- PWR_CMD (Table 16-8). -/
def powerCmdWrite (f : Func) (val : Word) (env : WriteEnv) (s : State) : Res :=
  let key : BitVec 16 := bits val 16 16
  match (bits val 0 8 : BitVec 8).toNat with
  | 1 => execModuleReset f key env.world s
  | 2 => execAcceptFactory f key ⟨(bits val 8 3 : BitVec 3).toNat, (bits val 8 3 : BitVec 3).isLt⟩ s
  | 3 => execFwWrite f key ⟨(bits val 8 1 : BitVec 1).toNat, (bits val 8 1 : BitVec 1).isLt⟩ env.sigOk env.version s
  | 4 => execFwSwitch f key s
  | _ => unknownSpine f (.power .cmd) powerOp 0x1D60 s

/-- A register of POWER. -/
def powerWrite (f : Func) (r : PowerReg) (val : Word) (env : WriteEnv) (s : State) : Res :=
  match r with
  | .cmd => powerCmdWrite f val env s
  | .cfg => execRwpWrite f .pwrCfg val s
  | .rtcHi => execRtcHiWrite f val s
  | r => plainWrite f (.power r) val s

/-- TACK_CMD (Table 03-9). -/
def tackCmdWrite (f : Func) (val : Word) (env : WriteEnv) (s : State) : Res :=
  let n : StallId := ⟨(bits val 16 3 : BitVec 3).toNat, (bits val 16 3 : BitVec 3).isLt⟩
  let slot : SlotId := ⟨(bits val 8 1 : BitVec 1).toNat, (bits val 8 1 : BitVec 1).isLt⟩
  match (bits val 0 8 : BitVec 8).toNat with
  | 1 => execLoadStall f n slot s
  | 2 => execLoadHerd f slot s
  | 3 => execLoadHub f slot s
  | 4 => execCheck f n slot s
  | 15 => execAbort f env.bring s
  | _ => unknownSpine f (.tack .cmd) tackOp 0x1D43 s

/-- A register of TACK. -/
def tackWrite (f : Func) (r : TackReg) (val : Word) (env : WriteEnv) (s : State) : Res :=
  match r with
  | .cmd => tackCmdWrite f val env s
  | r => plainWrite f (.tack r) val s

/-- TIME_CMD (Table 14-5). -/
def timeCmdWrite (f : Func) (val : Word) (s : State) : Res :=
  let d : Fin 2 := ⟨(bits val 8 1 : BitVec 1).toNat, (bits val 8 1 : BitVec 1).isLt⟩
  match (bits val 0 8 : BitVec 8).toNat with
  | 1 => execAlign f s
  | 2 => execSwitch f d s
  | 3 => execAccept f d s
  | _ => unknownSpine f (.time .cmd) timeOp 0x1B02 s

/-- A register of TIME that stands once. -/
def timeWrite (f : Func) (r : TimeReg) (val : Word) (s : State) : Res :=
  match r with
  | .cmd => timeCmdWrite f val s
  | .ctl => execRwpWrite f .timeCtl val s
  | .servo => execRwpWrite f .timeServo val s
  | .detect => execRwpWrite f .timeDetect val s
  | .tai i => execEpochTaiWrite f i val s
  | r => plainWrite f (.time r) val s

/-- A register of an XE port. -/
def ptWrite (f : Func) (p : Fin 2) (r : PtReg) (val : Word) (s : State) : Res :=
  match r with
  | .ctl => execRwpWrite f (.ptCtl p) val s
  | .txLat => execRwpWrite f (.ptTxLat p) val s
  | .rxLat => execRwpWrite f (.ptRxLat p) val s
  | .asym => execRwpWrite f (.ptAsym p) val s
  | .ipv4 => execRwpWrite f (.ptIpv4 p) val s
  | r => plainWrite f (.pt p r) val s

/-- A register of a 1588 domain. -/
def dmWrite (f : Func) (d : Fin 2) (r : DmReg) (val : Word) (s : State) : Res :=
  match r with
  | .ctl => execDmCtlWrite f d val s
  | r => plainWrite f (.dm d r) val s

/-- A register of a time-pulse output; the command of TP_CTL acts on the fields written with it. -/
def tpWrite (f : Func) (k : Fin 8) (r : TpReg) (val : Word) (s : State) : Res :=
  match r with
  | .ctl =>
    andThen (plainWrite f (.tp k .ctl) val s) fun t =>
      if gateCode s f (.tp k .ctl) = none then
        (match (bits val 6 2 : BitVec 2).toNat with
         | 1 => execTpArm f k t
         | 2 => execTpDisarm f k t
         | _ => .next t)
      else .next t
  | r => plainWrite f (.tp k r) val s

/-- TT_CMD (Table 13-7). -/
def tetherCmdWrite (f : Func) (val : Word) (s : State) : Res :=
  let k : LaneId := ⟨(bits val 8 4 : BitVec 4).toNat, (bits val 8 4 : BitVec 4).isLt⟩
  match (bits val 0 8 : BitVec 8).toNat with
  | 1 => execRetrain f k s
  | 2 => execInject f k s
  | _ => unknownSpine f (.tether .cmd) tetherOp 0x1A02 s

/-- A register of TETHER that stands once. -/
def tetherWrite (f : Func) (r : TetherReg) (val : Word) (s : State) : Res :=
  match r with
  | .cmd => tetherCmdWrite f val s
  | r => plainWrite f (.tether r) val s

/-- A register of a lane. -/
def tlWrite (f : Func) (k : LaneId) (r : TlReg) (val : Word) (s : State) : Res :=
  match r with
  | .ctl => execTlCtlWrite f k val s
  | .prbs => execTlPrbsWrite f k val s
  | r => plainWrite f (.tl k r) val s

/-- REIN_HUB_CMD (Table 08-13). -/
def hubCmdWrite (f : Func) (val : Word) (s : State) : Res :=
  match (bits val 0 8 : BitVec 8).toNat with
  | 1 => execTakeOut f (bit val 8) s
  | 2 => execReturn f (bit val 8) s
  | _ => unknownSpine f (.hub .cmd) hubOp 0x1644 s

/-- A register of HUBA that stands once. -/
def hubWrite (f : Func) (r : HubReg) (val : Word) (env : WriteEnv) (s : State) : Res :=
  match r with
  | .cmd => hubCmdWrite f val s
  | .inject => execReinInject f (bits val 0 12) (bits val 16 2) (bit val 18) env.grant s
  | .auditCmd => execReinAuditCmd f (bits val 0 12) s
  | r => plainWrite f (.hub r) val s

/-- A register of a housekeeping converter (Table 15-5). -/
def hkWrite (f : Func) (k : Fin 8) (r : HkReg) (val : Word) (s : State) : Res :=
  match r with
  | .cmd =>
    (match (bits val 0 2 : BitVec 2).toNat with
     | 1 => execHkStart f k s
     | 2 => execHkStop f k s
     | _ => noAction f (.hk k .cmd) s)
  | r => plainWrite f (.hk k r) val s

/-- QDIR_CMD (Table 11-5). -/
def qdirCmdWrite (f : Func) (val : Word) (s : State) : Res :=
  match (bits val 0 8 : BitVec 8).toNat with
  | 1 => execFlush f (bits val 16 14) s
  | 2 => execAuditQueue f (bits val 16 14) s
  | 3 => execAuditPages f s
  | 4 => execScrub f s
  | _ => .next (hostWrite f (.qdir .cmd) (fun s => qdirRefuse f (if fwSwitching s then 0x1D62 else if s.qdir.cmd ≠ none then 0x1802 else 0x1801) s) s)

/-- A register of QDIR. -/
def qdirWrite (f : Func) (r : QdirReg) (val : Word) (s : State) : Res :=
  match r with
  | .cmd => qdirCmdWrite f val s
  | r => plainWrite f (.qdir r) val s

/-! ## The MSI-X table (R699, R700) -/

/-- The sources mapped to an entry whose message waits behind its mask. -/
def parkedAt (s : State) (f : Func) (e : Nat) : List Nat :=
  ((herd s).vectors.filter fun v => v.2.1 == f && v.2.2 == e && (getIrq s v.1).parked).map (·.1)

/-- A source's message leaves now, or under the cap 10 µs after its last one (R700). -/
def sendCapped (src : Nat) (f : Func) (e : Nat) (s : State) : State :=
  match (getIrq s src).last with
  | some t => if s.clock.now - t ≤ fineTenUs then modIrq src (fun i => { i with held := true }) s else deliver src f e s
  | none => deliver src f e s

/-- An entry that lets messages pass again sends its pending one (R700). -/
def releaseEntry (f : Func) (e : Nat) (s : State) : State :=
  let h := getFunc s f
  let m := tabGet {} h.msix e
  if m.pending && !m.masked && !h.msixMask && h.msixEnable then
    let srcs := parkedAt s f e
    let s := modFunc f (fun h => { h with msix := tabMod {} h.msix e fun m => { m with pending := false } }) s
    let s := forEach srcs (fun src s => modIrq src (fun i => { i with parked := false }) s) s
    match srcs with
    | src :: _ => sendCapped src f e s
    | [] => modFunc f (fun h => { h with msix := tabMod {} h.msix e fun m => { m with sent := m.sent + 1 } }) s
  else s

/-- A word of an entry: address low and high, data, and the mask bit. -/
def setEntryWord (w : Fin 4) (val : Word) (m : MsixEntry) : MsixEntry :=
  match w with
  | 0 => { m with addrLo := val }
  | 1 => { m with addrHi := val }
  | 2 => { m with data := val }
  | 3 => { m with masked := bit val 0 }

/-- A write to the MSI-X table. -/
def entryWrite (f : Func) (e : Fin 2048) (w : Fin 4) (val : Word) (s : State) : State :=
  releaseEntry f e.val (modFunc f (fun h => { h with msix := tabMod {} h.msix e.val (setEntryWord w val) }) s)

/-- A held message leaves (R700); it is not sent when its function has been disabled. -/
def capRelease (src : Nat) (s : State) : State :=
  if (getIrq s src).held then
    let s := modIrq src (fun i => { i with held := false }) s
    match vectorOf s src with
    | some (f, e) => deliver src f e s
    | none => s
  else s

/-! ## BAR0 (R690 to R693) -/

/-- The stall of a BAR0 offset; 8 for the spine. -/
def offsetStall (a : Nat) : Nat := if 0x1000000 ≤ a ∧ a < 0x9000000 then (a - 0x1000000) / 0x1000000 else 8

/-- A write to the persistent registers: the stud book takes none from the host, of any owner (R520). -/
def persistWrite (f : Func) (w : Fin 1048576) (val : Word) (s : State) : Res :=
  if 0x200000 ≤ w.val * 4 ∧ w.val * 4 < 0x280000 then unknownValue f (.persist w) 0x1F01 s else plainWrite f (.persist w) val s

/-- A write to a register. -/
def regWrite (f : Func) (r : Reg) (val : Word) (env : WriteEnv) (s : State) : Res :=
  match r with
  | .msix e w => .next (hostWrite f (.msix e w) (entryWrite f e w val) s)
  | .power r => powerWrite f r val env s
  | .tack r => tackWrite f r val env s
  | .time r => timeWrite f r val s
  | .pt p r => ptWrite f p r val s
  | .dm d r => dmWrite f d r val s
  | .tp k r => tpWrite f k r val s
  | .tether r => tetherWrite f r val s
  | .tl k r => tlWrite f k r val s
  | .hub r => hubWrite f r val env s
  | .hubCell b c r => cellWrite f (.hub b c) (.hubCell b c r) r val s
  | .hkCtl false => execHkCtlWrite f val s
  | .spineCmp i r => cmpWrite f (.spine i) r val env s
  | .hk k r => hkWrite f k r val s
  | .scan k i => execScanEntryWrite f k i val s
  | .qdir r => qdirWrite f r val s
  | .ctl n r => ctlWrite f n r val env s
  | .cmp n w r => cmpWrite f (.stall n w) r val env s
  | .drive n k r => sliceWrite f ⟨n, .drive, k⟩ (.drive n k r) r val s
  | .probe n k r => sliceWrite f ⟨n, .probe, k.castLE (by omega)⟩ (.probe n k r) r val s
  | .voice v r => voiceWrite f v r val env.grant s
  | .seq v r => seqWrite f v r val env.grant s
  | .acq n k .ctl => execAsCtlWrite f n k val s
  | .chan c r => chanWrite f c r val s
  | .unit n u r => unitWrite f ⟨n, u⟩ r val s
  | .kernelTap n t => execKernelWindowWrite f n t val s
  | .group g c => groupWrite f g c val env.reports s
  | .line l r => lineWrite f l r val env.grant s
  | .edge l t => execEdgeTableWrite f l t val s
  | .node n r => nodeWrite f n r val s
  | .cell n b r => cellWrite f (.node n b) (.cell n b r) r val s
  | .rider h r => riderWrite f h r val s
  | .queue n i r => queueWrite f n i r val s
  | .farrier n r => farrierWrite f n r val s
  | .store n w => execControlStoreWrite f n w val s
  | .env n w => execEnvelopeWindowWrite f n w val s
  | .tally w => execTallyMirrorWrite f w s
  | .persist w => persistWrite f w val s
  | r => plainWrite f r val s

/-- A 32-bit write at a BAR0 offset; an unassigned one is refused (R692). -/
def wordWriteAt (f : Func) (a : Nat) (val : Word) (env : WriteEnv) (s : State) : Res :=
  if hostReach s f then
    match decodeReg a with
    | some r => regWrite f r val env s
    | none => .next (refuseAt f false a 0x1F03 0 (offsetStall a) 0 (BitVec.ofNat 32 a) s)
  else .next s

/-- An access of a size or alignment that BAR0 does not take (R690). -/
def refuseSize (f : Func) (a : Nat) (s : State) : State :=
  if hostReach s f then
    match decodeReg a with
    | some r => refuseReg f r 0x1F02 s
    | none => refuseAt f false a 0x1F02 0 (offsetStall a) 0 (BitVec.ofNat 32 a) s
  else s

/-- A BAR0 write (R690): one 32-bit write, or two, the lower address first. -/
def barWrite (f : Func) (size : AccessSize) (a : Nat) (val : Word64) (env : WriteEnv) (s : State) : Res :=
  match size with
  | .b4 => if a % 4 = 0 then wordWriteAt f a (bits val 0 32) env s else .next (refuseSize f a s)
  | .b8 =>
    if a % 8 = 0 then andThen (wordWriteAt f a (bits val 0 32) env s) (wordWriteAt f (a + 4) (bits val 32 32) env)
    else .next (refuseSize f a s)
  | _ => .next (refuseSize f a s)

end Sys2Proof.Machine
end

