-- ==== Sys2Proof/Machine/HostRows.lean ====
section
/-!
DEFINITION. Chapter 19: register writes, the MSI-X table, configuration requests and BAR2 writes outside the staging slots.
-/

namespace Sys2Proof.Machine

open Sys2Proof

def execHostRegisterWrite (f : Func) (size : AccessSize) (addr : BitVec 28) (val : Word64) (env : WriteEnv) (s : State) : Res :=
  barWrite f size addr.toNat val env s

def execMsixTableWrite (f : Func) (entry : Fin 2048) (word : Fin 4) (val : Word) (s : State) : Res :=
  .next (hostWrite f (.msix entry word) (entryWrite f entry word val) s)

def execMsixCapRelease (source : Nat) (s : State) : Res := .next (capRelease source s)

/-! ## Configuration requests (R625, R687, R688) -/

/-- The module answers configuration requests: boot step 2 has ended, and the link is trained. -/
def answersConfig (s : State) : Bool :=
  decide (s.host.width ≠ 0) && (match s.power.phase with | .running => true | .boot k => decide (3 ≤ k) | .held => false)

/-- SR-IOV enables the first virtual functions. -/
def enableVfs (count : Nat) (s : State) : State :=
  forEach (List.finRange 15) (fun f s =>
    if f.val = 0 then s
    else
      let on := decide (f.val ≤ count)
      if (getFunc s f).enabled = on then s else modFunc f (fun h => { h with enabled := on }) s) s

/-- Every entry of a function that lets messages pass sends what waits behind it. -/
def releaseEntries (f : Func) (s : State) : State :=
  forEach ((getFunc s f).msix.map (·.1)) (fun e s => releaseEntry f e s) s

/-- What a configuration request changes. -/
def configure (r : ConfigReq) (s : State) : State :=
  match r with
  | .enableVfs count => enableVfs count.val s
  | .power f d3hot => if funcEnabled s f then modFunc f (fun h => { h with d3hot }) s else s
  | .msix f enable mask =>
    if funcEnabled s f then releaseEntries f (modFunc f (fun h => { h with msixEnable := enable, msixMask := mask }) s) else s
  | .bars f b0 b2 => if funcEnabled s f then modFunc f (fun h => { h with bar0 := b0, bar2 := b2 }) s else s
  | .memory f enable => if funcEnabled s f then modFunc f (fun h => { h with memEnable := enable }) s else s
  | .other => s

def execConfigurationRequest (req : ConfigReq) (s : State) : Res := .next (if answersConfig s then configure req s else s)

/-! ## BAR2 (R142, R294, R484, Table 03-6) -/

/-- The capture unit whose ring holds an address. -/
def ringAt (s : State) (a : Nat) : Option UnitId :=
  ((List.finRange 8).flatMap stallUnits).find? fun u =>
    let x := getUnit s u
    decide (0 < x.ringBytes) && decide (pageAddr x.ringPage ≤ a) && decide (a < pageAddr x.ringPage + x.ringBytes)

/-- A write outside the staging slots is discarded: recorded as R20 sets out for a ring of another owner, not at all for one of the writer's own,
as 0x1805 elsewhere. -/
def discardWrite (f : Func) (a : Nat) (s : State) : State :=
  match ringAt s a with
  | some u =>
    let o := ((getUnit s u).owner).getD 0
    if mayAct f o then s else refuseAt f true a 0x1F01 o u.stall.val 0 (BitVec.ofNat 32 a) s
  | none => refuseAt f true a 0x1805 0 8 0 (BitVec.ofNat 32 a) s

def execHbmHostWrite (f : Func) (addr : BitVec 36) (bytes : List Byte) (s : State) : Res :=
  .next (if hostReach s f then stageBytes f addr.toNat bytes (fun a _ s => discardWrite f a s) s else s)

/-- A byte of BAR2 as a function reads it: a staging slot, which reads as 0 while a load or check reads it (R142); the image records; a ring to its
owner and owner 0 (R294); 0 elsewhere (R484). -/
def hbmByte (f : Func) (s : State) (a : Nat) : Byte :=
  match slotOf a with
  | some k => if slotRead s k then 0 else tabGet 0 s.hbm a
  | none =>
    if a < 0xA400000 then tabGet 0 s.hbm a
    else
      match ringAt s a with
      | some u => if mayAct f (((getUnit s u).owner).getD 0) then tabGet 0 s.hbm a else 0
      | none => 0

/-- A read of BAR2 of any size (R690): nothing where it does not reach the module. -/
def hbmRead (f : Func) (a n : Nat) (s : State) : Option (List Byte) :=
  if hostReach s f then some ((List.range n).map fun k => hbmByte f s (a + k)) else none

end Sys2Proof.Machine
end

