-- ==== Sys2Proof/Machine/Dispatch.lean ====
section
/-!
DEFINITION. One arm for each command: its meaning, or its rejection by name.
-/

namespace Sys2Proof.Machine

open Sys2Proof

/-- The effect of a command on everything but the queue of waiting commands. -/
def exec (i : Instr) (s : State) : Host.Outcome State Fault Refusal :=
  match i with
  | .powerUp f n found => Sys2Proof.Machine.execPowerUp f n found s
  | .frameAlignmentDone n bring => Sys2Proof.Machine.execFrameAlignmentDone n bring s
  | .alignmentTimeout n bring => Sys2Proof.Machine.execAlignmentTimeout n bring s
  | .start f n => Sys2Proof.Machine.execStart f n s
  | .drain f n => Sys2Proof.Machine.execDrain f n s
  | .unload f n => Sys2Proof.Machine.execUnload f n s
  | .powerDown f n => Sys2Proof.Machine.execPowerDown f n s
  | .halt f n => Sys2Proof.Machine.execHalt f n s
  | .stallFatalFault n code object => Sys2Proof.Machine.execStallFatalFault n code object s
  | .ridersAllStopped n => Sys2Proof.Machine.execRidersAllStopped n s
  | .drainTimeout n => Sys2Proof.Machine.execDrainTimeout n s
  | .stallPowerLoss n domain bring => Sys2Proof.Machine.execStallPowerLoss n domain bring s
  | .spareTakeover f n kind target => Sys2Proof.Machine.execSpareTakeover f n kind target s
  | .spareRelease f n kind => Sys2Proof.Machine.execSpareRelease f n kind s
  | .spareSwitch n kind => Sys2Proof.Machine.execSpareSwitch n kind s
  | .spareSilenceTimeout n kind => Sys2Proof.Machine.execSpareSilenceTimeout n kind s
  | .sliceConverterFault slice => Sys2Proof.Machine.execSliceConverterFault slice s
  | .forcedTakeoverComplete n kind => Sys2Proof.Machine.execForcedTakeoverComplete n kind s
  | .dacGateUnderrun gate beats => Sys2Proof.Machine.execDacGateUnderrun gate beats s
  | .adcGateFull n slice frame => Sys2Proof.Machine.execAdcGateFull n slice frame s
  | .trotLatchPoint v => Sys2Proof.Machine.execTrotLatchPoint v s
  | .trotRelease v => Sys2Proof.Machine.execTrotRelease v s
  | .paceMeasurement place monitor margin => Sys2Proof.Machine.execPaceMeasurement place monitor margin s
  | .trotDeadlineWrite f n k val => Sys2Proof.Machine.execTrotDeadlineWrite f n k val s
  | .paceWarnClear f place => Sys2Proof.Machine.execPaceWarnClear f place s
  | .loadStall f n slot => Sys2Proof.Machine.execLoadStall f n slot s
  | .loadHerd f slot => Sys2Proof.Machine.execLoadHerd f slot s
  | .loadHub f slot => Sys2Proof.Machine.execLoadHub f slot s
  | .check f n slot => Sys2Proof.Machine.execCheck f n slot s
  | .abort f bring => Sys2Proof.Machine.execAbort f bring s
  | .tackChecksEnd checks bring => Sys2Proof.Machine.execTackChecksEnd checks bring s
  | .loadEnd result bring => Sys2Proof.Machine.execLoadEnd result bring s
  | .stagingSlotWrite f addr bytes => Sys2Proof.Machine.execStagingSlotWrite f addr bytes s
  | .ftwLoWrite f v val => Sys2Proof.Machine.execFtwLoWrite f v val s
  | .ftwHiWrite f v val grant => Sys2Proof.Machine.execFtwHiWrite f v val grant s
  | .voiceTuningWrite f v reg val grant => Sys2Proof.Machine.execVoiceTuningWrite f v reg val grant s
  | .delayWrite f v val grant => Sys2Proof.Machine.execDelayWrite f v val grant s
  | .delayTakesEffect v => Sys2Proof.Machine.execDelayTakesEffect v s
  | .sumGuardClip slice sample => Sys2Proof.Machine.execSumGuardClip slice sample s
  | .guardHitClear f slice => Sys2Proof.Machine.execGuardHitClear f slice s
  | .slCtlWrite f slice val => Sys2Proof.Machine.execSlCtlWrite f slice val s
  | .attenTakesEffect slice => Sys2Proof.Machine.execAttenTakesEffect slice s
  | .portOpenTimer slice => Sys2Proof.Machine.execPortOpenTimer slice s
  | .switchReadbackMismatch slice => Sys2Proof.Machine.execSwitchReadbackMismatch slice s
  | .voiceStart f v desc grant => Sys2Proof.Machine.execVoiceStart f v desc grant s
  | .loadAlt f v desc grant => Sys2Proof.Machine.execLoadAlt f v desc grant s
  | .selectAlt f v grant => Sys2Proof.Machine.execSelectAlt f v grant s
  | .branch f v desc grant => Sys2Proof.Machine.execBranch f v desc grant s
  | .break_ f v grant => Sys2Proof.Machine.execBreak f v grant s
  | .stop f v grant => Sys2Proof.Machine.execStop f v grant s
  | .playStart v => Sys2Proof.Machine.execPlayStart v s
  | .descriptorLoadDone v side => Sys2Proof.Machine.execDescriptorLoadDone v side s
  | .commitPoint v => Sys2Proof.Machine.execCommitPoint v s
  | .repetitionBoundary v => Sys2Proof.Machine.execRepetitionBoundary v s
  | .segmentBoundary v => Sys2Proof.Machine.execSegmentBoundary v s
  | .streamUnderrun v => Sys2Proof.Machine.execStreamUnderrun v s
  | .streamResume v => Sys2Proof.Machine.execStreamResume v s
  | .envelopeWindowWrite f n w val => Sys2Proof.Machine.execEnvelopeWindowWrite f n w val s
  | .asCtlWrite f n k val => Sys2Proof.Machine.execAsCtlWrite f n k val s
  | .rangeTakesEffect n k => Sys2Proof.Machine.execRangeTakesEffect n k s
  | .adcFullScaleCode n k sample => Sys2Proof.Machine.execAdcFullScaleCode n k sample s
  | .chCtlWrite f c val => Sys2Proof.Machine.execChCtlWrite f c val s
  | .filterTakesEffect c => Sys2Proof.Machine.execFilterTakesEffect c s
  | .stagedSetWrite f c reg val => Sys2Proof.Machine.execStagedSetWrite f c reg val s
  | .chCommit f c => Sys2Proof.Machine.execChCommit f c s
  | .kernelWindowWrite f n t val => Sys2Proof.Machine.execKernelWindowWrite f n t val s
  | .windowStart c => Sys2Proof.Machine.execWindowStart c s
  | .windowDecision c sig => Sys2Proof.Machine.execWindowDecision c sig s
  | .arm f u => Sys2Proof.Machine.execArm f u s
  | .disarm f u => Sys2Proof.Machine.execDisarm f u s
  | .force f u => Sys2Proof.Machine.execForce f u s
  | .release f u => Sys2Proof.Machine.execRelease f u s
  | .levelCrossing u sample sig => Sys2Proof.Machine.execLevelCrossing u sample sig s
  | .scheduleTimeTrigger u => Sys2Proof.Machine.execScheduleTimeTrigger u s
  | .hobbleEnd u => Sys2Proof.Machine.execHobbleEnd u s
  | .recordEnd u sig => Sys2Proof.Machine.execRecordEnd u sig s
  | .storageBehind u => Sys2Proof.Machine.execStorageBehind u s
  | .tuRdWrite f u val => Sys2Proof.Machine.execTuRdWrite f u val s
  | .markerEdge v bit level => Sys2Proof.Machine.execMarkerEdge v bit level s
  | .hubEntry copy nodeWaits hubWaits => Sys2Proof.Machine.execHubEntry copy nodeWaits hubWaits s
  | .compareUnitCopy copy planeB waits => Sys2Proof.Machine.execCompareUnitCopy copy planeB waits s
  | .missingCopyTimeout copy => Sys2Proof.Machine.execMissingCopyTimeout copy s
  | .consumerDelivery copy waits => Sys2Proof.Machine.execConsumerDelivery copy waits s
  | .cellEvaluation cell => Sys2Proof.Machine.execCellEvaluation cell s
  | .joinWindowExpiry cell => Sys2Proof.Machine.execJoinWindowExpiry cell s
  | .filterWidthExpiry cell => Sys2Proof.Machine.execFilterWidthExpiry cell s
  | .fabricFault place cause chan cell => Sys2Proof.Machine.execFabricFault place cause chan cell s
  | .scrubPass place singles double => Sys2Proof.Machine.execScrubPass place singles double s
  | .setFlipFlop f n cell value inv => Sys2Proof.Machine.execSetFlipFlop f n cell value inv s
  | .clearFlipFlops f n => Sys2Proof.Machine.execClearFlipFlops f n s
  | .bkFilterWrite f cell val => Sys2Proof.Machine.execBkFilterWrite f cell val s
  | .reinInject f chan value inv grant => Sys2Proof.Machine.execReinInject f chan value inv grant s
  | .takeOut f planeB => Sys2Proof.Machine.execTakeOut f planeB s
  | .return_ f planeB => Sys2Proof.Machine.execReturn f planeB s
  | .rejoinReadbackDone good => Sys2Proof.Machine.execRejoinReadbackDone good s
  | .hubSettlePoint => Sys2Proof.Machine.execHubSettlePoint s
  | .reinAuditCmd f chan => Sys2Proof.Machine.execReinAuditCmd f chan s
  | .channelAuditSettlePoint => Sys2Proof.Machine.execChannelAuditSettlePoint s
  | .nop r u => Sys2Proof.Machine.execNop r u s
  | .alu r u => Sys2Proof.Machine.execAlu r u s
  | .time r u => Sys2Proof.Machine.execTime r u s
  | .take r u => Sys2Proof.Machine.execTake r u s
  | .push r u => Sys2Proof.Machine.execPush r u s
  | .pop r u => Sys2Proof.Machine.execPop r u s
  | .irq r u => Sys2Proof.Machine.execIrq r u s
  | .shotBegin r u => Sys2Proof.Machine.execShotBegin r u s
  | .shotEnd r u => Sys2Proof.Machine.execShotEnd r u s
  | .vstart r u => Sys2Proof.Machine.execVstart r u s
  | .vloadalt r u => Sys2Proof.Machine.execVloadalt r u s
  | .vselalt r u => Sys2Proof.Machine.execVselalt r u s
  | .vbranch r u => Sys2Proof.Machine.execVbranch r u s
  | .vbreak r u => Sys2Proof.Machine.execVbreak r u s
  | .vstop r u => Sys2Proof.Machine.execVstop r u s
  | .fork r u => Sys2Proof.Machine.execFork r u s
  | .vtune r u => Sys2Proof.Machine.execVtune r u s
  | .fluxDcGoal r u => Sys2Proof.Machine.execFluxDcGoal r u s
  | .fluxFastCode r u => Sys2Proof.Machine.execFluxFastCode r u s
  | .fluxDcCode r u => Sys2Proof.Machine.execFluxDcCode r u s
  | .open_ r u => Sys2Proof.Machine.execOpen r u s
  | .emit r u => Sys2Proof.Machine.execEmit r u s
  | .emitRelay r u => Sys2Proof.Machine.execEmitRelay r u s
  | .ffSet r u => Sys2Proof.Machine.execFfSet r u s
  | .ffClear r u => Sys2Proof.Machine.execFfClear r u s
  | .ctrig r u => Sys2Proof.Machine.execCtrig r u s
  | .waitConditionTrue r u => Sys2Proof.Machine.execWaitConditionTrue r u s
  | .waitDeadline r => Sys2Proof.Machine.execWaitDeadline r s
  | .postGranted r => Sys2Proof.Machine.execPostGranted r s
  | .riderRelease r => Sys2Proof.Machine.execRiderRelease r s
  | .riderStart f r => Sys2Proof.Machine.execRiderStart f r s
  | .riderStop f r => Sys2Proof.Machine.execRiderStop f r s
  | .spur f r => Sys2Proof.Machine.execSpur f r s
  | .controlStoreWrite f n w val => Sys2Proof.Machine.execControlStoreWrite f n w val s
  | .riderRegisterWrite f r reg val => Sys2Proof.Machine.execRiderRegisterWrite f r reg val s
  | .rhHandlerWrite f r val => Sys2Proof.Machine.execRhHandlerWrite f r val s
  | .flDcWrite f l val grant => Sys2Proof.Machine.execFlDcWrite f l val grant s
  | .dcTick => Sys2Proof.Machine.execDcTick s
  | .spanSwitchEnd l => Sys2Proof.Machine.execSpanSwitchEnd l s
  | .spanReadbackCheck l found => Sys2Proof.Machine.execSpanReadbackCheck l found s
  | .flCurbWrite f l val => Sys2Proof.Machine.execFlCurbWrite f l val s
  | .flSafeWrite f l val => Sys2Proof.Machine.execFlSafeWrite f l val s
  | .flCtlWrite f l val => Sys2Proof.Machine.execFlCtlWrite f l val s
  | .generatorConfigWrite f l reg val => Sys2Proof.Machine.execGeneratorConfigWrite f l reg val s
  | .flFastSet f l val grant => Sys2Proof.Machine.execFlFastSet f l val grant s
  | .fastLevelChange l => Sys2Proof.Machine.execFastLevelChange l s
  | .edgeTableWrite f l t val => Sys2Proof.Machine.execEdgeTableWrite f l t val s
  | .fastDacFault g => Sys2Proof.Machine.execFastDacFault g s
  | .clear f g reports => Sys2Proof.Machine.execClear f g reports s
  | .queueWordGrant q port => Sys2Proof.Machine.execQueueWordGrant q port s
  | .creditReturnArrives q port => Sys2Proof.Machine.execCreditReturnArrives q port s
  | .qPush f q val => Sys2Proof.Machine.execQPush f q val s
  | .qPushEnd f q val => Sys2Proof.Machine.execQPushEnd f q val s
  | .qPop f q words => Sys2Proof.Machine.execQPop f q words s
  | .flush f q => Sys2Proof.Machine.execFlush f q s
  | .auditQueue f q => Sys2Proof.Machine.execAuditQueue f q s
  | .auditPages f => Sys2Proof.Machine.execAuditPages f s
  | .scrub f => Sys2Proof.Machine.execScrub f s
  | .bookAuditSettlePoint => Sys2Proof.Machine.execBookAuditSettlePoint s
  | .pageReleaseDone from_ => Sys2Proof.Machine.execPageReleaseDone from_ s
  | .pointerCheckPass q differs => Sys2Proof.Machine.execPointerCheckPass q differs s
  | .backgroundScrub err => Sys2Proof.Machine.execBackgroundScrub err s
  | .farrierStart f n kind target => Sys2Proof.Machine.execFarrierStart f n kind target s
  | .farrierAbort f n => Sys2Proof.Machine.execFarrierAbort f n s
  | .restore f n target => Sys2Proof.Machine.execRestore f n target s
  | .automaticCalibrationStart n kind target => Sys2Proof.Machine.execAutomaticCalibrationStart n kind target s
  | .observationComplete n obs => Sys2Proof.Machine.execObservationComplete n obs s
  | .observationTimeout n => Sys2Proof.Machine.execObservationTimeout n s
  | .quietBoundary n badCopy => Sys2Proof.Machine.execQuietBoundary n badCopy s
  | .activationTimeout n => Sys2Proof.Machine.execActivationTimeout n s
  | .retrain f lane => Sys2Proof.Machine.execRetrain f lane s
  | .inject f lane => Sys2Proof.Machine.execInject f lane s
  | .tlCtlWrite f lane val => Sys2Proof.Machine.execTlCtlWrite f lane val s
  | .trainingPatternReceived lane => Sys2Proof.Machine.execTrainingPatternReceived lane s
  | .trainingPhaseEnd lane found => Sys2Proof.Machine.execTrainingPhaseEnd lane found s
  | .trainingTimeout lane => Sys2Proof.Machine.execTrainingTimeout lane s
  | .backoffWaitEnd lane => Sys2Proof.Machine.execBackoffWaitEnd lane s
  | .lossOfSignal lane => Sys2Proof.Machine.execLossOfSignal lane s
  | .errorRateLimit lane => Sys2Proof.Machine.execErrorRateLimit lane s
  | .eventReceived lane tok intact => Sys2Proof.Machine.execEventReceived lane tok intact s
  | .eventAcknowledge lane ack => Sys2Proof.Machine.execEventAcknowledge lane ack s
  | .packetReceived lane pkt intact => Sys2Proof.Machine.execPacketReceived lane pkt intact s
  | .packetRetransmission lane queue credits seq => Sys2Proof.Machine.execPacketRetransmission lane queue credits seq s
  | .timeMarkReceived lane mark => Sys2Proof.Machine.execTimeMarkReceived lane mark s
  | .timeMarkTimer lane => Sys2Proof.Machine.execTimeMarkTimer lane s
  | .tlPrbsWrite f lane val => Sys2Proof.Machine.execTlPrbsWrite f lane val s
  | .align f => Sys2Proof.Machine.execAlign f s
  | .alignStep tai error => Sys2Proof.Machine.execAlignStep tai error s
  | .alignComplete error => Sys2Proof.Machine.execAlignComplete error s
  | .alignTimeout => Sys2Proof.Machine.execAlignTimeout s
  | .switch f d => Sys2Proof.Machine.execSwitch f d s
  | .accept f d => Sys2Proof.Machine.execAccept f d s
  | .epochTaiWrite f word val => Sys2Proof.Machine.execEpochTaiWrite f word val s
  | .timeNowRead f => Sys2Proof.Machine.execTimeNowRead f s
  | .ptpMessageReceived port msg => Sys2Proof.Machine.execPtpMessageReceived port msg s
  | .nonPtpFrame port frame => Sys2Proof.Machine.execNonPtpFrame port frame s
  | .announceTimeout d => Sys2Proof.Machine.execAnnounceTimeout d s
  | .dmCtlWrite f d val => Sys2Proof.Machine.execDmCtlWrite f d val s
  | .slewSaturation => Sys2Proof.Machine.execSlewSaturation s
  | .tpArm f k => Sys2Proof.Machine.execTpArm f k s
  | .tpDisarm f k => Sys2Proof.Machine.execTpDisarm f k s
  | .timePulseEdge k rising => Sys2Proof.Machine.execTimePulseEdge k rising s
  | .comparatorTrip cmp level which => Sys2Proof.Machine.execComparatorTrip cmp level which s
  | .latchClear f cmp level => Sys2Proof.Machine.execLatchClear f cmp level s
  | .periodClear cmp level => Sys2Proof.Machine.execPeriodClear cmp level s
  | .checkSwap f cmp => Sys2Proof.Machine.execCheckSwap f cmp s
  | .checkLevels f cmp => Sys2Proof.Machine.execCheckLevels f cmp s
  | .selfCheckEnd cmp pass => Sys2Proof.Machine.execSelfCheckEnd cmp pass s
  | .comparatorConfigWrite f cmp reg val => Sys2Proof.Machine.execComparatorConfigWrite f cmp reg val s
  | .hkStart f k => Sys2Proof.Machine.execHkStart f k s
  | .hkStop f k => Sys2Proof.Machine.execHkStop f k s
  | .conversionDone k code => Sys2Proof.Machine.execConversionDone k code s
  | .hkDataRead f k => Sys2Proof.Machine.execHkDataRead f k s
  | .hkCtlWrite f val => Sys2Proof.Machine.execHkCtlWrite f val s
  | .referenceReady => Sys2Proof.Machine.execReferenceReady s
  | .scanEntryWrite f k entry val => Sys2Proof.Machine.execScanEntryWrite f k entry val s
  | .backgroundCalibrationTurn => Sys2Proof.Machine.execBackgroundCalibrationTurn s
  | .backgroundCalibrationTurnEnd offsetErr gainErr => Sys2Proof.Machine.execBackgroundCalibrationTurnEnd offsetErr gainErr s
  | .supplyFailure second removed => Sys2Proof.Machine.execSupplyFailure second removed s
  | .supplyInService second => Sys2Proof.Machine.execSupplyInService second s
  | .supplyAcFailure => Sys2Proof.Machine.execSupplyAcFailure s
  | .busBelow10V2 => Sys2Proof.Machine.execBusBelow10V2 s
  | .powerOnReset world => Sys2Proof.Machine.execPowerOnReset world s
  | .brownOutReset world => Sys2Proof.Machine.execBrownOutReset world s
  | .perst width world => Sys2Proof.Machine.execPerst width world s
  | .hotReset => Sys2Proof.Machine.execHotReset s
  | .linkTrained width speed => Sys2Proof.Machine.execLinkTrained width speed s
  | .watchdog world => Sys2Proof.Machine.execWatchdog world s
  | .bootStart found => Sys2Proof.Machine.execBootStart found s
  | .referenceLocked src bring => Sys2Proof.Machine.execReferenceLocked src bring s
  | .referenceLockTimeout => Sys2Proof.Machine.execReferenceLockTimeout s
  | .powerDomainFault domain bring => Sys2Proof.Machine.execPowerDomainFault domain bring s
  | .moduleReset f key world => Sys2Proof.Machine.execModuleReset f key world s
  | .acceptFactory f key n => Sys2Proof.Machine.execAcceptFactory f key n s
  | .fwWrite f key slot sigOk version => Sys2Proof.Machine.execFwWrite f key slot sigOk version s
  | .fwSwitch f key => Sys2Proof.Machine.execFwSwitch f key s
  | .spineSettlePoint => Sys2Proof.Machine.execSpineSettlePoint s
  | .rwpWrite f reg val => Sys2Proof.Machine.execRwpWrite f reg val s
  | .rtcHiWrite f val => Sys2Proof.Machine.execRtcHiWrite f val s
  | .feedSend id => Sys2Proof.Machine.execFeedSend id s
  | .feedMessage msg => Sys2Proof.Machine.execFeedMessage msg s
  | .feedTimeout id => Sys2Proof.Machine.execFeedTimeout id s
  | .sealOpened => Sys2Proof.Machine.execSealOpened s
  | .sealClosed => Sys2Proof.Machine.execSealClosed s
  | .sealPortConfiguration item => Sys2Proof.Machine.execSealPortConfiguration item s
  | .tallyPowerOn carrier check memoryOk => Sys2Proof.Machine.execTallyPowerOn carrier check memoryOk s
  | .firmwareCheck check => Sys2Proof.Machine.execFirmwareCheck check s
  | .mirrorRefresh => Sys2Proof.Machine.execMirrorRefresh s
  | .mirrorStale => Sys2Proof.Machine.execMirrorStale s
  | .tallyMirrorWrite f w => Sys2Proof.Machine.execTallyMirrorWrite f w s
  | .shotAuditCmd f n val => Sys2Proof.Machine.execShotAuditCmd f n val s
  | .shotAuditSettlePoint n => Sys2Proof.Machine.execShotAuditSettlePoint n s
  | .fanTrayRemoved => Sys2Proof.Machine.execFanTrayRemoved s
  | .fanTrayFitted => Sys2Proof.Machine.execFanTrayFitted s
  | .msixCapRelease source => Sys2Proof.Machine.execMsixCapRelease source s
  | .msixTableWrite f entry word val => Sys2Proof.Machine.execMsixTableWrite f entry word val s
  | .hostRegisterWrite f size addr val env => Sys2Proof.Machine.execHostRegisterWrite f size addr val env s
  | .farrierSpareSwitch n => Sys2Proof.Machine.execFarrierSpareSwitch n s
  | .tuningTakesEffect v => Sys2Proof.Machine.execTuningTakesEffect v s
  | .storageRecovered u => Sys2Proof.Machine.execStorageRecovered u s
  | .checkerLocked lane => Sys2Proof.Machine.execCheckerLocked lane s
  | .checkerLockLost lane => Sys2Proof.Machine.execCheckerLockLost lane s
  | .fwWriteDone good => Sys2Proof.Machine.execFwWriteDone good s
  | .hbmScrubDone err => Sys2Proof.Machine.execHbmScrubDone err s
  | .configurationRequest req => Sys2Proof.Machine.execConfigurationRequest req s
  | .hbmHostWrite f addr bytes => Sys2Proof.Machine.execHbmHostWrite f addr bytes s
  | .delayReqSend p stamp => Sys2Proof.Machine.execDelayReqSend p stamp s
  | .ptLinkChange p up => Sys2Proof.Machine.execPtLinkChange p up s

end Sys2Proof.Machine
end

