-- ==== Sys2Proof/Machine/Tick.lean ====
section
/-!
DEFINITION. What passes with time alone: one beat (Table 02-1).  A step on an empty queue of commands is one such beat.
-/

namespace Sys2Proof.Machine

open Sys2Proof

/-! ## Clocks -/

/-- Fine steps in 1/65,536 s: the unit in which RTC_LO and TY_CLOCK_LO count (Tables 16-8, 17-6). -/
def fineFrac : Nat := 5859375

/-- A clock of 1/65,536 s after one beat. -/
def tickClock (c : BitVec 64) (sub : Nat) : BitVec 64 × Nat :=
  if fineFrac ≤ sub + fineBeat then (c + 1, sub + fineBeat - fineFrac) else (c, sub + fineBeat)

/-- The real-time clock runs once it is written (R627), the Tally clock always (R659). -/
def tickWallClocks (s : State) : State :=
  let s := setBackup (fun b =>
    if b.rtcValid then { b with rtc := (tickClock b.rtc b.rtcSub).1, rtcSub := (tickClock b.rtc b.rtcSub).2 } else b) s
  setTally (fun t => { t with clock := (tickClock t.clock t.clockSub).1, clockSub := (tickClock t.clock t.clockSub).2 }) s

/-- The module's time advances one beat; schedule time runs while an epoch does (R63, R64). -/
def tickTime (s : State) : State :=
  { s with clock := { s.clock with now := s.clock.now + fineBeat, sched := if s.clock.running then s.clock.sched + fineBeat else s.clock.sched } }

/-! ## Voices (R165, R212, R238 to R241) -/

/-- The voice of a key. -/
def voiceOfKey (k : Nat) : Option VoiceId :=
  match fin? 8 (k / 128), fin? 64 (k % 64) with
  | some n, some i => some ⟨n, decide (64 ≤ k % 128), i⟩
  | _, _ => none

/-- The place in the repetition after one beat.  In a HOLD without limit it stays at the greatest value that VS_POS shows (DESIGN CHOICE, log entry 152),
so that its marker run does not start again (R212). -/
def nextBeat (q : Seq) : BitVec 20 :=
  if descLength q.desc = 0 then satInc q.beat else if q.beat.toNat + 1 < descLength q.desc then q.beat + 1 else q.beat

/-- One beat of a stream (R238, R240, R241): it takes its word from the bank in play, and the other bank follows; one without its word plays as zero, and
that word is to be discarded. -/
def streamBeat (q : Seq) : Seq :=
  match q.play.words with
  | _ :: rest => { q with play := { q.play with words := rest, bank := if 1 < q.play.bank then q.play.bank - 1 else min 512 rest.length } }
  | [] =>
    let id := q.play.queue
    setBacklog id (backlogOf q id + 1) { q with zeroBeats := satAdd q.zeroBeats 1, play := { q.play with toTake := q.play.toTake - 1 } }

/-- A bank of the stream buffer that has been played out is filled again (R239), and that of a STREAM ahead. -/
def refillStream (v : VoiceId) (s : State) : State :=
  let q := getSeq s v
  fillAhead v (if q.state = .stream ∧ !q.under ∧ q.play.words.length ≤ q.play.bank then fillPlay v s else s)

/-- A stream whose buffer runs empty underruns with the beat that misses its word (R240). -/
def missWord (v : VoiceId) (s : State) : State :=
  let q := getSeq s v
  if q.state = .stream ∧ !q.under ∧ q.play.words = [] then beginUnderrun v s else s

/-- Beats that are kept: those that a voice's delay, the synthesis and output of a Gallop successor, and the interpolating bank may still need. -/
def keptBeats : Nat := 96

/-- The beat of a voice joins those that its delay may still hold back (R176), and the feed counts it (R166). -/
def playBeat (v : VoiceId) (s : State) : State :=
  match beatOf s v (beatNow s - fineBeat) with
  | some b =>
    let s := feedAdd v.stall (voiceBind s v).owner (if v.probe then { probeBeats := 1 } else { driveBeats := 1 }) s
    modVoice v (fun x =>
      { x with
        beats := (b :: x.beats).take keptBeats, playedTo := some s.clock.now }) s
  | none => s

/-- One beat of a voice: it plays the beat of its segment, or waits for a port with zero beats (R218). -/
def tickVoice (v : VoiceId) (s : State) : State :=
  let q := getSeq s v
  if q.state = .waiting then modSeq v (fun q => { q with zeroBeats := satAdd q.zeroBeats 1 }) s
  else if supplies q then
    let s := playBeat v (missWord v s)
    let s := modSeq v (fun q => let q := { q with beat := nextBeat q }; if q.state = .stream then streamBeat q else q) s
    refillStream v s
  else s

/-- One beat of every voice that supplies beats. -/
def tickVoices (s : State) : State :=
  forEach s.seqs (fun e s => match voiceOfKey e.1 with | some v => tickVoice v s | none => s) s

/-- A drive or probe slice gave an output other than zero in the beat that ends (R42). -/
def sliceLoud (s : State) (i : SliceId) : Bool :=
  (boundVoices s i).any (fun v => (recentBeats s v).any fun b => decide (b.i ≠ 0 ∨ b.q ≠ 0)) &&
    (List.range 16).any fun k => decide (dacCode s i ((s.clock.sched - fineBeat) / 16 + k) ≠ 0)

/-- The slices of a stall that gave an output in the beat that ends. -/
def tickSlices (n : StallId) (s : State) : State :=
  forEach (stallSlices n) (fun i s => if sliceLoud s i then modSlice i (fun x => { x with loudTo := some s.clock.now }) s else s) s

/-! ## Windows (R645) -/

/-- The channel of a key. -/
def chanOfKey (k : Nat) : Option ChanId :=
  match fin? 8 (k / 64), fin? 64 (k % 64) with
  | some n, some i => some ⟨n, i⟩
  | _, _ => none

/-- A window is open in a frame. -/
def openIn (frame : Nat) (x : Channel) : Bool := x.win.any (containsFrame · frame)

/-- A frame ends: the channels with an open window count it. -/
def countFrames (s : State) : State :=
  if s.clock.sched % fineFrame = 0 ∧ 0 < s.clock.sched then
    let frame := s.clock.sched / fineFrame - 1
    forEach s.chans (fun e s =>
      match chanOfKey e.1 with
      | some c => if openIn frame e.2 then feedAdd c.stall (chanBind s c).owner { chanFrames := 1 } s else s
      | none => s) s
  else s

/-! ## Capture units (R309, R315) -/

/-- The unit of a key. -/
def unitOfKey (k : Nat) : Option UnitId :=
  match fin? 8 (k / 4), fin? 4 (k % 4) with
  | some n, some i => some ⟨n, i⟩
  | _, _ => none

/-- The triggers whose instants the clock has reached are judged, and a storage gap ends whose cut record has run out (R309, R315). -/
def tickUnits (s : State) : State :=
  forEach s.units (fun e s => match unitOfKey e.1 with | some u => endStore u s.clock.sched (dueTriggers u s) | none => s) s

/-! ## The fast paths (R438) -/

/-- The clipped samples of the beat that ends count on every line. -/
def tickFast (s : State) : State :=
  forEach s.fasts (fun e s => match lineOfKey e.1 with | some l => countClips l s.clock.sched s | none => s) s

/-! ## The scrub (R485) and the loader (R145) -/

/-- A SCRUB gets on; the manual gives no rate (log entry 162). -/
def scrubWork (s : State) : State :=
  if s.qdir.cmd = some .scrub then
    let n := min 1045951 (s.qdir.result.toNat + Config.scrubPace s.freeCtr)
    freshen (setQdir (fun d => { d with result := BitVec.ofNat 31 n, op := { d.op with progress := n * 1000 / 1045952 } }) s)
  else s

/-- The greatest progress that the checks show before they end: where the image's bytes fail one, or the start of phase 4, whose sections TACK_CHECKS_END
tells (log entry 162). -/
def checksLimit (s : State) : Nat :=
  let h := readHeader s
  let d := readDir s h
  match s.tack.run with
  | some op =>
    match (headerFlaw s op h d).or ((signatureFlaw s h d).or (directoryFlaw s h d)) with
    | some f => if f.phase < 3 then (phaseSpan f.phase).1 + (phaseSpan f.phase).2 - 1 else flawProgress h f
    | none => 350
  | none => 0

/-- The greatest progress that a load shows before its next command: that of its checks, the switch of a hub update, or the end of phase 6. -/
def tackLimit (s : State) : Nat :=
  if s.tack.phase < 5 then checksLimit s else if s.hub.pend.contains .switchEntry then 774 else 999

/-- A load or check gets on; the manual gives no rate (log entry 162). -/
def tackWork (s : State) : State :=
  if s.tack.run.isSome then
    let limit := tackLimit s
    freshen (setTack (fun t => { t with op := paced limit s.freeCtr t.op }) s)
  else s

/-- A plane that is written and read back gets on by cells (R368, log entry 162); its last cell comes with REJOIN_READBACK_DONE. -/
def rejoinWork (s : State) : State :=
  if rejoining s false || rejoining s true then
    let n := min 1023 (s.hub.cellsDone.toNat + Config.loadPace s.freeCtr)
    freshen (setHub (fun h => { h with cellsDone := BitVec.ofNat 11 n, op := { h.op with progress := n * 1000 / 1024 } }) s)
  else s

/-- A RETRAIN gets on within phases 1 to 4 (Table 13-4, log entry 162); in phase 5 its progress follows the round trips. -/
def trainWork (s : State) : State :=
  if s.tether.retrain.isSome ∧ s.tether.phase < 5 then
    let limit := match s.tether.phase with | 1 => 99 | 2 => 199 | 3 => 599 | _ => 699
    freshen (setTether (fun t => { t with op := paced limit s.freeCtr t.op }) s)
  else s

/-- Boot gets on within steps 3 to 5 (Table 16-4, log entry 162). -/
def bootWork (s : State) : State :=
  if s.power.cmd = some .boot then
    match s.power.phase with
    | .boot 3 => freshen (setPower (fun p => { p with op := paced 349 s.freeCtr p.op }) s)
    | .boot 5 => freshen (setPower (fun p => { p with op := paced 499 s.freeCtr p.op }) s)
    | _ => s
  else s

/-! ## Comparators (R599) and the servo (R562) -/

/-- Configurations written take effect at the frame boundary. -/
def tickWatches (s : State) : State :=
  if s.clock.sched % fineFrame = 0 then
    { s with watches := s.watches.map fun e => (e.1, match e.2.next with | some d => takeWatch d s.clock.now e.2 | none => e.2) }
  else s

/-- The steering of the disciplined oscillator that takes an error off at slew_max, within ±10 ppm, in 10^-12 (R563): 1 ns/s is 1,000 of them. -/
def oscSteering (slewMax : BitVec 16) (error : Int) : Int := max (-10000000) (min 10000000 (-(error.sign * (slewMax.toNat * 1000 : Nat))))

/-- One beat of a steering, which enters its mean over a second, 1.5 × 10^9 beats (R580). -/
def steerOsc (f : Int) (t : TimeCtl) : TimeCtl :=
  let t := { t with osc := f, oscSum := t.oscSum + f, oscBeats := t.oscBeats + 1 }
  if t.oscBeats < 1500000000 then t
  else { t with oscSum := 0, oscBeats := 0, oscMeans := (t.oscSum / 1500000000 :: t.oscMeans).take 100 }

/-- A lead steers the disciplined oscillator where that is its reference (R561, R563); elsewhere it slews.  While new firmware starts it holds its
frequency (R642). -/
def tickOsc (s : State) : State :=
  if s.tc.refSrc = 2 ∧ (followed s).isSome ∧ !fwSwitching s then setTime (steerOsc (oscSteering s.persist.time.slewMax s.tc.error)) s else s

/-- One beat of a slew, or of the oscillator's steering: slew_max ns in a second of epoch time off the error against the target (R562, R563, R579, log entry
170). -/
def tickServo (s : State) : State :=
  let s := tickOsc s
  let steers := match s.tc.servo with | .primary => true | .secondary => true | .follow => true | _ => false
  if steers && decide (s.tc.error ≠ 0) then
    let n := s.tc.slewSub + s.persist.time.slewMax.toNat * 32
    if n < 3000000000 then setTime (fun t => { t with slewSub := n }) s
    else setTime (fun t => { t with slewSub := n - 3000000000, error := t.error - t.error.sign }) s
  else s

/-! ## Supply telemetry (Table 16-8) -/

/-- 200 µs in fine steps, the longest that a domain's switch-on takes (R620). -/
def switchLimit : Fine := 76800000

/-- The domain in hand has power once its switch-on has run, and the next one's starts (R620). -/
def tickDomains (s : State) : State :=
  match s.power.switchOn with
  | [] => s
  | d :: rest =>
    if s.power.switchFrom + min switchLimit (Config.switchPace s.freeCtr) ≤ s.clock.now then
      freshen (setPower (fun p => { p with domOn := p.domOn ||| domainMask d 1, switchOn := rest, switchFrom := s.clock.now }) s)
    else s

/-- One beat of the telemetry of the supplies that are fitted. -/
def tickSupplies (s : State) : State :=
  let k := s.freeCtr
  if s.power.supply1.present || s.power.supply2.present then
    freshen (setPower (fun p =>
      { p with
        inputW := Config.inputPower k
        supply1 := { p.supply1 with warn := p.supply1.present && Config.supplyWarn k false }
        supply2 := { p.supply2 with warn := p.supply2.present && Config.supplyWarn k true } }) s)
  else s

/-! ## Pattern checkers (R551, R552) -/

/-- One beat of a lane's checker: 25/3 bits are checked while it is locked. -/
def tickPrbs (k : LaneId) (s : State) : State :=
  let p := (getLane s k).prbs
  if p.locked ∧ p.chkEn then
    let n := p.thirds + 25
    freshen (modLane k (fun x =>
      { x with prbs :=
        { x.prbs with
          errors := satAdd x.prbs.errors (Config.lineErrors s.freeCtr).val
          bits := satAdd x.prbs.bits (n / (3 * 2 ^ 20)), thirds := n % (3 * 2 ^ 20) } }) s)
  else s

/-- One beat of the module. -/
def tick (s : State) : State :=
  let s := forEach (List.finRange 16) tickLane (forEach (List.finRange 16) tickPrbs (tickRefresh (tickSupplies (tickDomains (bootWork (trainWork (rejoinWork (scrubWork (tackWork (tickWallClocks (tickTime s)))))))))))
  if s.clock.running then forEach (List.finRange 16) tickTrips (tetherWork (tickWatches (tickServo (forEach (List.finRange 8) tickTrims (forEach (List.finRange 8) tickFarrier (tickUnits (tickFast (countFrames (forEach (List.finRange 8) tickSlices (tickVoices s)))))))))) else s

end Sys2Proof.Machine
end

