-- ==== Sys2Proof/Frame.lean ====
section
/-!
DEFINITION. What a command may change, in the terms that statements use: the parts of the state, and the relation that everything outside
some parts is as it was.
-/

namespace Sys2Proof.Machine

open Sys2Proof

/-- The parts of the state: one for each field. -/
inductive Part where
  | pending
  | clock
  | host
  | funcs
  | irqs
  | power
  | backup
  | persist
  | tack
  | spine
  | herdImage
  | hubImage
  | stallImages
  | stalls
  | gaits
  | slices
  | acqs
  | voices
  | seqs
  | chans
  | units
  | nodes
  | cells
  | books
  | flights
  | nextFlight
  | hub
  | riders
  | lines
  | fasts
  | groups
  | queues
  | qdir
  | farriers
  | trims
  | shotAudits
  | lanes
  | tether
  | tc
  | ethPorts
  | domains
  | pulses
  | watches
  | hks
  | hkCtl
  | feeds
  | tally
  | hbm
  | library
  | descs
  | kernels
  | store
  | held
  | latched
  | freeCtr
  deriving DecidableEq, Repr

/-- Two states agree in one part. -/
def Part.same (s t : State) : Part → Prop
  | .pending => t.pending = s.pending
  | .clock => t.clock = s.clock
  | .host => t.host = s.host
  | .funcs => t.funcs = s.funcs
  | .irqs => t.irqs = s.irqs
  | .power => t.power = s.power
  | .backup => t.backup = s.backup
  | .persist => t.persist = s.persist
  | .tack => t.tack = s.tack
  | .spine => t.spine = s.spine
  | .herdImage => t.herdImage = s.herdImage
  | .hubImage => t.hubImage = s.hubImage
  | .stallImages => t.stallImages = s.stallImages
  | .stalls => t.stalls = s.stalls
  | .gaits => t.gaits = s.gaits
  | .slices => t.slices = s.slices
  | .acqs => t.acqs = s.acqs
  | .voices => t.voices = s.voices
  | .seqs => t.seqs = s.seqs
  | .chans => t.chans = s.chans
  | .units => t.units = s.units
  | .nodes => t.nodes = s.nodes
  | .cells => t.cells = s.cells
  | .books => t.books = s.books
  | .flights => t.flights = s.flights
  | .nextFlight => t.nextFlight = s.nextFlight
  | .hub => t.hub = s.hub
  | .riders => t.riders = s.riders
  | .lines => t.lines = s.lines
  | .fasts => t.fasts = s.fasts
  | .groups => t.groups = s.groups
  | .queues => t.queues = s.queues
  | .qdir => t.qdir = s.qdir
  | .farriers => t.farriers = s.farriers
  | .trims => t.trims = s.trims
  | .shotAudits => t.shotAudits = s.shotAudits
  | .lanes => t.lanes = s.lanes
  | .tether => t.tether = s.tether
  | .tc => t.tc = s.tc
  | .ethPorts => t.ethPorts = s.ethPorts
  | .domains => t.domains = s.domains
  | .pulses => t.pulses = s.pulses
  | .watches => t.watches = s.watches
  | .hks => t.hks = s.hks
  | .hkCtl => t.hkCtl = s.hkCtl
  | .feeds => t.feeds = s.feeds
  | .tally => t.tally = s.tally
  | .hbm => t.hbm = s.hbm
  | .library => t.library = s.library
  | .descs => t.descs = s.descs
  | .kernels => t.kernels = s.kernels
  | .store => t.store = s.store
  | .held => t.held = s.held
  | .latched => t.latched = s.latched
  | .freeCtr => t.freeCtr = s.freeCtr

/-- Between `s` and `t` nothing changes outside the parts `P`. -/
structure Changes (P : List Part) (s t : State) : Prop where
  same : ∀ p, P.contains p = false → p.same s t

/-- A host access to a register is admitted: it reaches the module, and no check before the register's own rule refuses it (R20, R687 to
R695). -/
def admits (s : State) (f : Func) (r : Reg) : Bool := hostReach s f && (gateCode s f r).isNone

/-- The same for a command of a spine block, which a firmware switch refuses too (R642). -/
def admitsSpine (s : State) (f : Func) (r : Reg) : Bool := admits s f r && !fwSwitching s

/-- The log of a function holds a code (R696). -/
def noted (t : State) (f : Func) (code : Code) : Bool := (getFunc t f).log.any fun e => e.code = code

end Sys2Proof.Machine
end

