-- ==== Sys2Proof/Machine/ReadStall.lean ====
section
/-!
DEFINITION. What a host read of a register of a stall window returns: the layout of each register over the state.  Where a value is wider
than a register, this is the value at the instant of the read (R22).
-/

namespace Sys2Proof.Machine

open Sys2Proof

/-- A field of a register at its lowest bit. -/
def fld {w : Nat} (x : BitVec w) (lo : Nat) : Word := x.setWidth 32 <<< lo

/-- A number as a field of `w` bits. -/
def fldN (w n lo : Nat) : Word := fld (BitVec.ofNat w n) lo

/-- A one-bit field. -/
def fldB (b : Bool) (lo : Nat) : Word := fld (flag b) lo

/-- A register from its fields; bits that no field holds are reserved and read 0 (R18). -/
def fields (l : List Word) : Word := l.foldl (· ||| ·) 0

/-- The low or the high word of a 64-bit value. -/
def half (hi : Bool) (x : Word64) : Word := if hi then bits x 32 32 else bits x 0 32

/-- OP_STATUS (Table 19-7). -/
def readOp (o : OpStatus) : Word :=
  let st : Nat := match o.state with | .idle => 0 | .busy => 1 | .done => 2 | .failed => 3 | .aborted => 4
  fields [fldN 4 st 28, fldN 12 o.progress 16, fld o.code 0]

/-- An owner field. -/
def fldO (o : Owner) (lo : Nat) : Word := fldN 4 o.val lo

/-! ## CTL (Tables 01-5 to 01-13, 02-8 to 02-12, 05-8, 18-5) -/

/-- A pace monitor's status (Table 02-9) and thresholds (Table 02-10). -/
def readPace (p : Pace) : Word := fields [fldB p.belowZero 18, fldB p.crit 17, fldB p.warn 16, fld p.low 8, fld p.now 0]
def readPaceThresh (p : Pace) : Word := fields [fld p.warnPct 8, fld p.critPct 0]

/-- The state field of STn_STATE (Table 01-10). -/
def lifeNum : Life → Nat
  | .off => 0 | .stabled => 1 | .harnessed => 2 | .riding => 3 | .resting => 4

/-- The use field of a spare (Table 01-7). -/
def spareUseNum : SpareUse → Nat
  | .idle => 0 | .replacing => 1 | .farrier => 2 | .switching => 3

/-- STn_SPARE_STATUS (Table 01-7). -/
def readSpares (x : StallCtl) : Word :=
  let sp (p : Spare) (lo : Nat) : Word := fields [fldN 2 (spareUseNum p.use) (lo + 4), fld p.target lo]
  fields [sp x.spareAcq 24, sp x.spareProbe 16, sp x.spareDrive 8, fldB x.spareAcq.bad 2, fldB x.spareProbe.bad 1, fldB x.spareDrive.bad 0]

/-- cmd_busy (R62, R144): a stall command, a load of the stall, or a fault-initiated halt is in progress. -/
def cmdBusy (s : State) (n : StallId) : Bool := (getStall s n).cmd.isSome || (getStall s n).faultHalt || loading s n

/-- The CTL block. -/
def readCtl (s : State) (n : StallId) (r : CtlReg) : Word :=
  let x := getStall s n
  let g := getGait s n
  let a := getShotAudit s n
  match r with
  | .state =>
    fields [fld x.imageTag 16, fldB x.fault 11, fldB x.frameLocked 10, fldB x.haltPending 9, fldB (cmdBusy s n) 8, fldN 3 (lifeNum x.life) 0]
  | .cmd => 0
  | .drainCfg => fields [fldB x.drainFlush 16, fld x.drainTimeout 0]
  | .opStatus => readOp x.op
  | .drainResult =>
    fields [fldB x.drain.valid 31, fldN 5 x.drain.atStart 16, fldN 5 x.drain.aborted 8, fldN 5 x.drain.finished 0]
  | .sparePolicy => fld (imageOf s n).policy 0
  | .spareCmd => 0
  | .spareStatus => readSpares x
  | .spareOp => readOp x.spareOp
  | .trot k => fields [fldO (trotOwner s n k) 24, fld (trotDeadline g k.val) 0]
  | .paceStatus => readPace g.pace
  | .paceThresh => readPaceThresh g.pace
  | .lateCount => g.late
  | .gateUnderrun => fields [fld g.adcFull 16, fld g.dacEmpty 0]
  | .envPage => fld x.envPage 0
  | .shotCmd => 0
  | .shotOp => readOp a.op
  | .shotStarted => a.started
  | .shotCompleted => a.completed
  | .shotAborted => a.aborted
  | .shotProgress => fld a.inProgress 0

/-- A comparator (Table 15-5). -/
def readCmp (s : State) (c : CmpId) (r : WcReg) : Word :=
  let x := getWatch s c
  let g := x.next.getD x.cfg
  let source : Nat := match c with | .stall _ w => w.val | .spine k => 16 + k.val
  match r with
  | .ctl =>
    fields [fldN 8 source 20, fld g.action 16, fld g.mode 12, fldB g.enable 11, fldB g.irqEn 10, fldB g.reinEn 9, fldB g.wakeEn 8, fld g.dwell 0]
  | .ref => fields [fld g.hi 16, fld g.lo 0]
  | .blank => fields [fld g.blankSrc 30, fld g.chan 16, fld g.period 0]
  | .blankTime => fields [fld g.offset 16, fld g.length 0]
  | .latch => fields [fldB g.clrMode 16, fld g.clrPeriod 0]
  | .status =>
    fields [fldB x.tripped 31, fldB x.cond 30, fldB (blankedNow x (frameNow s)) 29, fldB x.chkFail 28, fldB x.chkBusy 27, fld x.which 16,
      fld x.level 0]
  | .cmd => 0
  | .capLo => half false (schedOfFine x.cap)
  | .capHi => half true (schedOfFine x.cap)
  | .count => fields [fld x.trips 16, fld x.blanked 0]

/-! ## DRIVE and PROBE (Tables 04-7 to 04-13, 05-6, 05-7) -/

/-- The slice whose registers a spare's set mirrors (R194): the one that it carries. -/
def mirrorOf (s : State) (i : SliceId) : SliceId :=
  let sp := spareOf (getStall s i.stall) i.kind
  if isSpare i ∧ carries sp then ((fin? 9 sp.target.toNat).map fun k => { i with idx := k }).getD i else i

/-- A word of SL_LANESk or AS_LANESk (Table 04-11): lanes 4k to 4k + 3, each with the number it carries. -/
def readLanes (num : Nat → Option Nat) (k : Fin 4) : Word :=
  fields ((List.range 4).map fun j => match num (4 * k.val + j) with | some v => fields [fldB true (8 * j + 7), fldN 6 v (8 * j)] | none => 0)

/-- The voice in a lane of a slice (BIND). -/
def voiceInLane (s : State) (i : SliceId) (lane : Nat) : Option Nat :=
  ((boundVoices s i).find? fun v => decide ((voiceBind s v).lane.toNat = lane)).map (·.num.val)

/-- A drive or probe slice.  SL_CTL.atten reads the setting in force, while a new one waits too (DESIGN CHOICE, log entry 186: R189 and R198 do not say
which). -/
def readSlice (s : State) (j : SliceId) (r : SlReg) : Word :=
  let i := mirrorOf s j
  let x := getSlice s i
  match r with
  | .ctl => fields [fldO (sliceOwner s i) 28, fldB x.portEn 24, fld x.atten 16, fld x.scale 0]
  | .status =>
    let port : Nat := match x.port with | .terminated => 0 | .opening => 1 | .open_ => 2
    fields [fldN 2 port 26, fldB x.attenPend.isSome 25, fldB (carried s i) 24, fldB x.fault 23, fldB x.guardHit 22,
      fldN 5 (boundVoices s i).length 16]
  | .guardCfg => fields [fldB x.guardIrq 1, fldB x.guardInvalid 0]
  | .guardCount => x.clipped
  | .guardLo => half false (schedOfFine x.guardTime)
  | .guardHi => half true (schedOfFine x.guardTime)
  | .lanes k => readLanes (voiceInLane s i) k

/-- A voice (R199): the values in force, never pending ones. -/
def readVoice (s : State) (v : VoiceId) (r : VcReg) : Word :=
  let x := getVoice s v
  let b := voiceBind s v
  match r with
  | .ctl => fields [fldO b.owner 28, fld b.slice 24, fld b.lane 20, fld x.tune.mask 12, fldB x.tune.enable 0]
  | .status =>
    fields [fldB (playing s v) 31, fldB (decide (x.pend ≠ {})) 30, fldB (x.pendDelay.isSome || x.pendTrim.isSome) 29, fld x.contend 0]
  | .ftwLo => bits x.tune.ftw 0 32
  | .ftwHi => fld (bits x.tune.ftw 32 16) 0
  | .phase => fields [fld x.tune.vz 16, fld x.tune.offset 0]
  | .frame => fields [fldB x.tune.x 1, fldB x.tune.z 0]
  | .scale => fld x.tune.scale 0
  | .delay => fields [fld x.trim 16, fld x.delay 0]

/-- The state field of VS_STATUS (Table 05-6). -/
def seqNum (q : Seq) : Nat :=
  match q.state with
  | .idle => 0 | .play => 1 | .stream => 2 | .hold => (if q.fork.isSome then 4 else 3) | .waiting => 5

/-- late_pending: a late selection waits for its boundary (R224, R226). -/
def lateWaits (q : Seq) : Bool := !q.later.isEmpty || (!q.committed && q.sel.any (·.2))

/-- A sequencer. -/
def readSeq (s : State) (v : VoiceId) (r : VsReg) : Word :=
  let q := getSeq s v
  let ready := q.prim.filter fun p => p.state == .ready
  match r with
  | .post => 0
  | .status =>
    fields [fldN 3 (seqNum q) 29, fldB (q.alt.any fun p => p.state == .ready) 28, fldB (q.alt.any fun p => p.state == .loading) 27,
      fldN 3 ready.length 24, fldB (q.committed && q.sel.isSome) 23, fldB (lateWaits q) 22, fldB (!q.backlog.isEmpty) 21,
      if q.state = .idle then 0 else fld q.cur 0]
  | .ports =>
    fields [fldB q.alt.isSome 31, fld ((q.alt.map (·.idx)).getD 0) 16, fldB (!q.prim.isEmpty) 15, fld ((q.prim.head?.map (·.idx)).getD 0) 0]
  | .pos => fields [fld q.rep 20, fld q.beat 0]
  | .late => fields [fld q.missed 16, fld q.late 0]
  | .underrun => fields [fld q.events 16, fld q.zeroBeats 0]
  | .discard => q.discarded
  | .startLo => half false q.startReg
  | .startHi => half true q.startReg
  | .segLo => half false (schedOfFine q.segTime)
  | .segHi => half true (schedOfFine q.segTime)

/-- STn_MARKER_ROUTEk (Table 04-13).  Its owner reads 0 where enable is 0 (DESIGN CHOICE, log entry 187: R199 names the owner of a routed voice alone). -/
def readMarker (s : State) (n : StallId) (k : Fin 4) : Word :=
  let m := tabGet {} (imageOf s n).markers k.val
  fields [if m.enable then fldO (voiceBind s ⟨n, m.probe, m.voice⟩).owner 28 else 0, fldB m.polarity 17, fldB m.enable 16, fldB m.probe 15,
    fldN 6 m.voice.val 8, fldN 2 m.bit.val 0]

/-! ## ACQ (Tables 06-8 to 06-10, 07-6, 07-7) -/

/-- The channel in a lane of an acquisition slice. -/
def chanInLane (s : State) (n : StallId) (k : Fin 5) (lane : Nat) : Option Nat :=
  ((boundChans s n k).find? fun c => decide ((chanBind s c).lane.toNat = lane)).map (·.num.val)

/-- The acquisition slice whose registers A4's set mirrors (R194, R248). -/
def mirrorAcq (s : State) (n : StallId) (k : Fin 5) : Fin 5 := (fin? 5 (mirrorOf s ⟨n, .acq, k.castLE (by omega)⟩).idx.val).getD k

/-- An acquisition slice. -/
def readAcq (s : State) (n : StallId) (j : Fin 5) (r : AsReg) : Word :=
  let k := mirrorAcq s n j
  let x := getAcq s n k
  match r with
  | .ctl => fields [fldO (acqOwner s n k) 28, fld x.range 16]
  | .status =>
    let replaced := carried s ⟨n, .acq, k.castLE (by omega)⟩
    fields [fldB (decide (x.range ≠ x.inForce)) 27, fldB replaced 26, fldB x.fault 25, fldB x.ovrHit 24, fldN 5 (boundChans s n k).length 16]
  | .ovrCount => x.ovr
  | .lanes i => readLanes (chanInLane s n k) i

/-- A plane of the staged set, as CH_PLANEp_AB, _C and _QK read. -/
def stagedPlaneOf (x : PlaneSet) (p : Fin 3) : Plane := match p with | 0 => x.p0 | 1 => x.p1 | 2 => x.p2

/-- A readout channel.  CH_INT to CH_PLANEp_QK read the staged set (R271). -/
def readChan (s : State) (c : ChanId) (r : ChReg) : Word :=
  let x := getChan s c
  let b := chanBind s c
  let set := x.stagedPlane
  match r with
  | .ctl => fields [fldO b.owner 28, fld b.slice 24, fld b.lane 20, fldN 6 b.probe.val 14, fld x.filter 8, fldB x.enable 0]
  | .status =>
    fields [fldB x.win.isSome 31, fldB x.latch.isSome 30, fldB (decide (x.filter ≠ x.filterOn)) 29, fldB (x.pendInt.isSome || x.pendPlane.isSome) 28,
      fldB (farrierOwns s c) 27, fldB (x.win.any fun w => w.ints.bank) 26, fldN 4 (min 15 (x.flagTo - frameNow s)) 16]
  | .int_ => fields [fldN 13 b.klimit 16, fldB x.stagedInt.bank 8, fld x.stagedInt.shift 0]
  | .demod => fld set.rot 0
  | .disc => fields [fld set.en 16, fld set.map 0]
  | .ab p => fields [fld (stagedPlaneOf set p).a 16, fld (stagedPlaneOf set p).b 0]
  | .c p => (stagedPlaneOf set p).c
  | .qk p => fields [fld (stagedPlaneOf set p).ksh 16, fld (stagedPlaneOf set p).k 0]
  | .commit => 0
  | .token => fields [fldB x.onInvalid 23, fldB x.masked 22, fld x.stateMask 16, fldB x.tokenEn 15, fld b.rein 0]
  | .resultQ => fields [fldB b.resultQ.isSome 31, fld (b.resultQ.getD 0) 0]
  | .last => fields [fldB x.last.valid 31, fldB x.last.invalid 30, fldB x.last.sat 29, fld x.last.state 16, fld x.last.quality 0]
  | .windows => x.windows
  | .invalid => x.invalid
  | .drop => fields [fld x.dropped 16, fld x.contend 0]

/-- A capture unit. -/
def readUnit (s : State) (u : UnitId) (r : TuReg) : Word :=
  let x := getUnit s u
  let c := x.cfg
  let base : Word64 := if x.ringBytes = 0 then 0 else BitVec.ofNat 64 (pageAddr x.ringPage)
  match r with
  | .src =>
    fields [fldO (x.owner.getD 0) 28, fldB x.owner.isSome 27, fldB c.decimated 24, fld c.target 16, fld c.trigSrc 12, fld c.trigObj 0]
  | .trig => fields [fld c.level 16, fld c.hyst 8, fld c.stateMask 4, fld c.component 2, fld c.slope 0]
  | .hobble => fields [fld c.hobMode 24, fld c.hobValue 0]
  | .pre => fld c.pre 0
  | .post => c.post
  | .mode => fields [fld c.recCount 16, fldB c.continuous 8, fld c.avg 0]
  | .measOff => c.measOff
  | .measLen => fld c.measLen 0
  | .ring => fld c.ringMib 0
  | .timeLo => half false c.time
  | .timeHi => half true c.time
  | .cmd => 0
  | .opStatus => readOp { x.op with progress := if x.op.state = .busy then captureProgress x else x.op.progress }
  | .result => fields [fldB x.partialValid 31, fldN 31 x.records 0]
  | .baseLo => half false base
  | .baseHi => half true base
  | .wr => BitVec.ofNat 32 x.wr
  | .rd => BitVec.ofNat 32 x.rd
  | .countA => fields [fld x.early 16, fld x.busy 0]
  | .countB => fields [fld x.gaps 16, fld x.hobbled 0]

/-- STn_TRACE_ALLOW (Table 07-7), in MiB. -/
def readAllow (s : State) (n : StallId) : Word :=
  fields [fldN 16 (min 0xFFFF (tracePages s n / pagesPerMib)) 16, fldN 16 (min 0xFFFF (unheldTrace s n / pagesPerMib)) 0]

/-- A tap of the kernel window (R264), to the channel's owner and owner 0 (R154). -/
def readTap (f : Func) (s : State) (n : StallId) (t : Fin 4096) : Word :=
  let c : ChanId := ⟨n, (getStall s n).kernelChan⟩
  if mayAct f (chanBind s c).owner then tabGet 0 s.kernels (kernelKey c (getStall s n).kernelBank t.val) else 0

/-! ## FLUX (Table 10-8) -/

/-- FG_STATUS. -/
def readGroup (s : State) (g : GroupId) : Word :=
  let x := getGroup s g
  fields [fld x.cause 4, fldB (fastOff s g) 1, fldB x.faulted 0]

/-- The dc_state field. -/
def dcNum : DcState → Nat
  | .steady => 0 | .ramping => 1 | .phase1 => 2 | .switching => 3 | .phase3 => 4 | .generator => 5 | .halter => 6

/-- A flux line. -/
def readLine (s : State) (l : LineId) (r : FlReg) : Word :=
  let x := getLine s l
  let y := getFast s l
  let point (p : DcPoint) : Word := fields [fld p.span 20, fld p.code 0]
  match r with
  | .ctl => fields [fldO (lineBind s l).owner 28, fld x.genMode 16, fldB y.en 8]
  | .dc => point x.goal
  | .curb => fields [fld x.curb.period 16, fld x.curb.step 0]
  | .safe => point x.safe
  | .status =>
    fields [fldN 3 (dcNum x.dc) 29, fldB x.persistBad 28, fldN 3 y.posts.length 24, fld x.spanNow 20, fld x.codeNow 0]
  | .genLo => fld x.genLo 0
  | .genHi => fld x.genHi 0
  | .genCfg => fields [fld x.genHold 16, fld x.genStep 0]
  | .fast => fields [fld x.genSeed 16, fld y.level 0]
  | .fastSet => 0
  | .count => fields [fld y.late 24, fld y.contend 16, fld y.clipped 0]

/-! ## REIN (Tables 08-11, 08-12) -/

/-- A buckle cell. -/
def readCell (s : State) (id : CellId) (r : BkReg) : Word :=
  let i := cellImage s id
  let x := getCell s id
  match r with
  | .cfg =>
    fields [fldB i.used 31, fldB i.ffEn 30, fld i.filterMode 28, fldO (cellOwner s id) 24, fldB i.expireInv 23,
      fldN 3 (joinedInputs i).length 20, fld i.emitMask 16, fldB i.chan.isSome 15, fld (i.chan.getD 0) 0]
  | .filter => fields [fld x.joinWin 8, fld x.width 0]
  | .state =>
    let holding := (joinedInputs i).map fun k => if (inputLatch x k).isEmpty then 0 else fldB true (8 + k)
    fields (holding ++ [fldB x.overrun 16, fldB x.ffInv 6, fld x.ffValue 4, fldB x.outInv 2, fld x.outValue 0])
  | .count => fields [fld x.absorbed 16, fld x.overruns 8, fld x.expired 0]

/-- A stall's node. -/
def readNode (s : State) (n : StallId) (r : NodeReg) : Word :=
  let x := getNode s n
  let cells := (imageOf s n).node.cells
  match r with
  | .status =>
    fields [fldN 9 (cells.filter fun c => c.2.used).length 16, fldB ((List.finRange 256).any fun b => (getCell s (.node n b)).overrun) 9,
      fldB x.fault 8, fld (imageOf s n).node.depth 0]
  | .fault =>
    fields [fld x.cause 28, fldB x.chan.isSome 27, fld (x.chan.getD 0) 12, fldB x.cell.isSome 8, fld (x.cell.getD 0) 0]
  | .dropA => fields [fld x.busy 16, fld x.notRiding 0]
  | .dropB => fields [fld x.ownerDrop 24, fld x.faultDrop 16, fld x.loop 0]
  | .misc => fields [fld x.contend 16, fld x.auditDrop 0]
  | .scrub => fields [fld x.corrected 16, fld x.passes 0]
  | .ffCmd => 0

/-! ## RIDERS (Table 09-13) -/

/-- The flags, Z down to EOI, as bits 7 to 0. -/
def flagsByte (x : Flags) : BitVec 8 :=
  flag x.z ++ flag x.n ++ flag x.c ++ flag x.v ++ flag x.tmo ++ flag x.late ++ flag x.alt ++ flag x.eoi

/-- The state field of RH_STATUS. -/
def riderNum : RiderState → Nat
  | .stopped => 0 | .running => 1 | .waiting => 2 | .held => 3 | .forked => 4

/-- A rider. -/
def readRider (s : State) (h : RiderId) (r : RhReg) : Word :=
  let x := getRider s h
  let b := riderBind s h
  match r with
  | .cfg => fields [fldO b.owner 28, fldB b.start 27, fld b.entry 0]
  | .cmd => 0
  | .status =>
    fields [fldN 3 (riderNum x.state) 29, fldB x.shot.active 28, fldB x.inHandler 27, fldB x.fault.pend.spur 26, fld (flagsByte x.flags) 16,
      fld x.pc 0]
  | .fault =>
    fields [fld x.fault.code 16, fldB x.fault.fatal 3, fldB x.fault.late 2, fldB x.fault.overrun 1, fldB x.fault.refused 0]
  | .faultEn => fld x.fault.en 0
  | .handler => fld x.fault.handler 0
  | .tiStatus =>
    fields ((List.range 4).map fun k =>
      let t := taskInput x k
      fields [fldB t.overrun (8 * k + 7), fldB t.claim (8 * k + 6), fldN 4 (tabGet [] b.subs k).length (8 * k + 2), fldN 2 t.latch.length (8 * k)])
  | .shotQ => fields [fldB b.shotQ.isSome 31, fld (b.shotQ.getD 0) 0]
  | .shot => x.shot.num
  | .started => x.started
  | .completed => x.completed
  | .aborted => x.aborted
  | .count => fields [fld x.timeouts 16, fld x.heldCount 0]
  | .drop => fields [fld x.lateDiscard 24, fld x.recordsDropped 16, fld x.refusedCount 0]
  | .l k => workReg x k.val
  | .tLo k => half false (tabGet 0 x.times k.val)
  | .tHi k => half true (tabGet 0 x.times k.val)

/-- STn_RIDER_SUMMARY. -/
def readSummary (s : State) (n : StallId) : Word :=
  fields ((List.finRange 16).map fun h =>
    let x := getRider s ⟨n, h⟩
    fields [fldB (decide (x.state ≠ .stopped)) (16 + h.val), fldB x.fault.fatal h.val])

/-- A word of the control store (R412), to the owner of its region and owner 0; a stable word reads as 0 (R154). -/
def readStore (f : Func) (s : State) (n : StallId) (w : Fin 524288) : Word :=
  let a := w.val / 8
  if a < 0x4000 then 0
  else if mayAct f ((regionOwner s n (BitVec.ofNat 16 a)).getD 0) then bits (tabGet 0 s.store (n.val * 65536 + a)) (32 * (w.val % 8)) 32
  else 0

/-- A word of the page window (R204), to the owner of its block or group and owner 0 (R154, R205). -/
def readEnv (f : Func) (s : State) (n : StallId) (w : Fin 2097152) : Word :=
  let p := envPlace (getStall s n).envPage w.val
  if (envOwner s n p).all (mayAct f) then
    match p with
    | .library k => tabGet 0 s.library (libraryKey n k)
    | .desc k => tabGet 0 s.descs (n.val * 32768 + k)
    | .none => 0
  else 0

/-! ## QUEUES (Table 11-3) and FARRIER (Table 12-6) -/

/-- The consumer field of Q_CFG. -/
def consumerNum : Option QPort → Nat
  | none => 0
  | some (.rider _) => 1
  | some (.voice _) => 2
  | some .host => 3
  | some (.tether _) => 4
  | some (.slice _ _) => 0

/-- A queue; the registers of one that no image allocates read 0 (R455). -/
def readQueue (s : State) (q : QueueId) (r : QReg) : Word :=
  let a := queueAlloc s q
  let x := if a.isSome then getQueue s q else {}
  let host := (a.bind fun a => prodIndex a .host).map fun i => getProd s q i
  match r with
  | .cfg =>
    match a with
    | none => 0
    | some a =>
      fields [fldO a.owner 28, fldB true 27, fldB a.itemMode 26, fldB (prodIndex a .host).isSome 25, fldN 3 (consumerNum a.consumer) 22,
        fldN 19 (a.capacity / 64) 0]
  | .count => fldN 25 x.stored.length 0
  | .status =>
    fields [fldB x.fault 31, fldB (x.prods.any fun p => p.2.discarding) 30, fldB (host.any (·.openItem)) 29, fldB (decide (x.freeing ≠ 0)) 28,
      fldN 11 x.pages 16, fld x.resets 8, fld x.discards 0]
  | .hostCredit => fldN 25 ((host.map (·.credits)).getD 0) 0
  | .push => 0
  | .pushEnd => 0
  | .pop => 0
  | .popStatus => fields [fldB x.popValid 31, fld x.popTaken 24, fldB x.popEoi 23]
  | .data k => tabGet 0 x.popData k.val

/-- A stall's Farrier. -/
def readFarrier (s : State) (n : StallId) (r : FaReg) : Word :=
  let x := getFarrier s n
  let p := (imageOf s n).farrier
  match r with
  | .cmd => 0
  | .opStatus => readOp x.op
  | .result =>
    fields [fldB (x.cal.running && decide (2 ≤ x.cal.phase)) 31, fldN 3 (if x.cal.running then x.cal.phase else 0) 28, fldB x.cal.auto 27,
      if x.cal.ran then fldN 3 (kindNum x.cal.kind) 24 else 0, fld x.cal.target 16, fld x.cal.obs 0]
  | .quality => fields [fld x.now 16, fld x.prev 0]
  | .status => fields [fldB x.studStale 31, fldB (getStud s n).factory 30]
  | .count => fields [fld x.accepted 16, fld x.rejected 8, fld x.preempted 0]
  | .policy => fields [fld p.autoEn 16, fld p.kindEn 0]
  | .limitsR => fields [fld x.minSep 16, fld x.maxShift 0]
  | .limitsD => fields [fld x.minSpur 24, fld x.minImage 16, fld x.maxSkew 8, fld x.maxMarker 0]
  | .windows => fields [fld x.minWindows 16, fld x.minPerState 0]
  | .timeouts => fields [fld x.obsTimeout 16, fld x.actTimeout 0]
  | .period k => BitVec.ofNat 32 (tabGet 0 p.periods k.val)
  | .chan c =>
    let e := tabGet {} (getTrims s n).chans c.val
    fields [fldB e.accepted 31, fld (chanBind s ⟨n, c⟩).states 16, fld e.sep 0]

end Sys2Proof.Machine
end

