-- ==== Sys2Proof/Machine/ReadSpine.lean ====
section
/-!
DEFINITION. What a host read of a spine register returns, and a host read of BAR0 as a whole: which function sees what, and what a read that
reaches no register records (R690 to R693).
-/

namespace Sys2Proof.Machine

open Sys2Proof

/-- Three words of a 1588 stamp (R558). -/
def readTai (t : Tai) (w : Nat) : Word :=
  match w with
  | 0 => fields [fld (bits t.sec 0 16) 16, fld t.sub 0]
  | 1 => bits t.sec 16 32
  | _ => t.ns

/-- A number as a signed field that saturates. -/
def satField (w : Nat) (x : Int) : BitVec w :=
  BitVec.ofInt w (max (-(2 ^ (w - 1) : Nat) : Int) (min ((2 ^ (w - 1) : Nat) - 1 : Int) x))

/-- A word of a wide bit field. -/
def wordOf (x : BitVec 256) (i : Fin 8) : Word := bits x (32 * i.val) 32

/-! ## HOST (Tables 00-2, 19-4, 19-5, 20-7) -/

/-- HOST_SLOT (Table 20-7): a trigger line that no module drives is pulled high. -/
def readSlot (s : State) : Word :=
  let driven (l : Fin 9) : Word := fldB (triggerLine s l).isSome (if l.val = 8 then 9 else 24 + l.val)
  let level (l : Fin 9) : Word := fldB ((triggerLine s l).getD true) (if l.val = 8 then 8 else 16 + l.val)
  fields ((List.finRange 9).map driven ++ (List.finRange 9).map level ++ [fld s.power.ga 0])

/-- The HOST block as function f sees it (R694). -/
def readHost (f : Func) (s : State) (r : HostReg) : Word :=
  let h := getFunc s f
  match r with
  | .moduleId => fields [0x05120000, fld s.persist.hwIssue 8, fld s.persist.cooling 4]
  | .link => fields [fld s.host.width 24, fld s.host.speed 20, fld s.host.downs 0]
  | .func => fldO f.owner 0
  | .slot => readSlot s
  | .errStatus => fields [fld h.lastCode 16, fld h.errCount 0]
  | .errLo => bits h.errOffset 0 32
  | .errHi => fields [fldB h.errBar2 31, fld (bits h.errOffset 32 4) 0]
  | .logLast => BitVec.ofNat 32 h.logCount
  | .irqStatus => fields [fld h.merged 16, fld h.unsent 0]

/-- A word of a log entry (Table 19-5). -/
def logWord (e : LogEntry) (w : Fin 8) : Word :=
  match w with
  | 0 => BitVec.ofNat 32 e.number
  | 1 => fields [fld e.code 16, fldO e.owner 12, fldN 4 e.stall 8, fldN 8 e.rep 0]
  | 2 => half false e.at_
  | 3 => half true e.at_
  | 4 => e.object
  | 5 => e.aux
  | 6 => fld e.func 0
  | 7 => 0

/-- A word of a log slot: entry m lies in slot (m − 1) mod 512 (R696). -/
def readLog (f : Func) (s : State) (k : Fin 512) (w : Fin 8) : Word :=
  (((getFunc s f).log.find? fun e => decide ((e.number - 1) % 512 = k.val)).map fun e => logWord e w).getD 0

/-- A word of the MSI-X table. -/
def readMsix (f : Func) (s : State) (e : Fin 2048) (w : Fin 4) : Word :=
  let m := tabGet {} (getFunc s f).msix e.val
  match w with
  | 0 => m.addrLo
  | 1 => m.addrHi
  | 2 => m.data
  | 3 => fldB m.masked 0

/-- A word of the pending bit array. -/
def readPba (f : Func) (s : State) (w : Fin 64) : Word :=
  fields ((List.range 32).map fun b => fldB (tabGet {} (getFunc s f).msix (32 * w.val + b)).pending b)

/-! ## POWER, TACK (Tables 16-8, 03-8 to 03-11) -/

/-- POWER. -/
def readPower (s : State) (r : PowerReg) : Word :=
  let p := s.power
  let b := s.backup
  let e := s.persist
  match r with
  | .supply =>
    let sup (x : Supply) (k : Nat) : Word :=
      fields [fldB x.present (8 * k + 7), fldB x.acOk (8 * k + 6), fldB x.dcOk (8 * k + 5), fldB x.warn (8 * k + 4), fldB x.inService (8 * k + 3)]
    fields [fld p.inputW 20, sup p.supply1 0, sup p.supply2 1]
  | .cmd => 0
  | .opStatus => readOp p.op
  | .result =>
    fields [fldB p.partialValid 31, fldN 3 (match p.phase with | .boot k => k | _ => 0) 28, fld p.stallsUp 8]
  | .cause =>
    fields [fldB b.lost 31, fldB b.powerFail 30, fldB b.fluxStepped 29, fld b.linesStepped 16, fld b.lastCause 0]
  | .count => b.resetCount
  | .straps => fld p.straps 0
  | .cfg => fields [fldB e.perstScope 8, fldB e.fwBank 4, fldB b.rtcValid 0]
  | .rtcLo => half false b.rtc
  | .rtcHi => half true b.rtc
  | .persistStatus => fields [fld e.corrected 16, fld e.uncorrected 8, fldB e.keyRebuilt 7]
  | .domOn i => wordOf p.domOn i
  | .domFault i => wordOf p.domFault i

/-- TACK_KEY_STATUS's two bits of a slot. -/
def keyNum : KeySlot → Nat
  | .empty => 0 | .enrolled _ => 1 | .revoked => 2

/-- The phase that a progress lies in (Table 03-7). -/
def phaseOf (p : Nat) : Nat := if p < 50 then 1 else if p < 150 then 2 else if p < 350 then 3 else if p < 600 then 4 else if p < 950 then 5 else 6

/-- TACK_RESULT (Table 03-10): while an operation runs, phase, the sections of the image and those through the phase follow its progress (R145, log
entry 162). -/
def readTackResult (s : State) : Word :=
  let t := s.tack
  if t.run.isNone then fields [fld t.sectionsDone 16, fld t.sectionAt 8, fld t.sectionsTotal 0]
  else
    let p := t.op.progress
    let total := if p < 50 then 0 else (readHeader s).sections.toNat
    let through := match phaseOf p with | 3 => total * (p - 150) / 200 | 4 => total * (p - 350) / 250 | 5 => total | 6 => total | _ => 0
    fields [fldB t.partialValid 31, fldN 3 (phaseOf p) 28, fldN 8 through 16, if phaseOf p < 5 then fldN 8 (min through (total - 1)) 8 else 0, fldN 8 total 0]

/-- TACK. -/
def readTack (s : State) (r : TackReg) : Word :=
  let t := s.tack
  let k := s.persist.keys
  match r with
  | .cmd => 0
  | .opStatus => readOp t.op
  | .result => readTackResult s
  | .faultObj => t.faultObj
  | .faultAux => t.faultAux
  | .slotLen i => if i.val = 0 then t.slot0Len else t.slot1Len
  | .herdTag => fld t.herdTag 0
  | .keyStatus => fields [fldN 2 (keyNum k.slot0) 0, fldN 2 (keyNum k.slot1) 2, fldN 2 (keyNum k.slot2) 4, fldN 2 (keyNum k.slot3) 6]
  | .floors => fields [fld k.floorHerd 16, fld k.floorStall 0]
  | .digest i => bits t.herdDigest (32 * i.val) 32

/-! ## TIME (Table 14-5) -/

/-- The servo field of TIME_STATUS. -/
def servoNum : Servo → Nat
  | .free => 0 | .primary => 1 | .secondary => 2 | .holdover => 3 | .follow => 4 | .followHold => 5

/-- TIME. -/
def readTime (s : State) (r : TimeReg) : Word :=
  let t := s.tc
  let c := s.persist.time
  match r with
  | .ctl =>
    fields [fldB c.altValid 25, fld c.followAlt 21, fld c.followLane 17, fldB c.revert 8, fldB c.autoSwitch 7, fld c.role 0]
  | .status =>
    fields [fldB t.epochValid 31, fldB t.slewSat 30, fldB t.stepped 29, fld t.refSrc 24, fldN 3 (servoNum t.servo) 0]
  | .cmd => 0
  | .opStatus => readOp t.op
  | .result => fields [fldB t.align 31, fld (satField 24 t.error) 0]
  | .servo => fields [fld c.slewMax 16, fld c.lockThresh 0]
  | .detect => fields [fld c.offStep 16, fld c.pathStep 4, fld c.persist 0]
  | .tai i => readTai (epochTime s) i.val
  | .now i => if i.val < 3 then readTai t.nowTai i.val else half (decide (i.val = 4)) t.nowSched
  | .paceStatus => readPace s.spine.pace
  | .paceThresh => readPaceThresh s.spine.pace

/-- An XE port. -/
def readPt (s : State) (p : Fin 2) (r : PtReg) : Word :=
  let c := portCfg s p
  let x := getPort s p
  match r with
  | .ctl => fields [fldB c.enable 31, fldB c.dereri 30, fld c.transport 28, fldB c.p2p 27, fldB c.oneStep 26]
  | .status => fields [fldB x.link 31, fldB (oneStepNow c) 30]
  | .txLat => fld c.txLat 0
  | .rxLat => fld c.rxLat 0
  | .asym => c.asym
  | .ipv4 => c.ipv4
  | .macLo => bits c.mac 0 32
  | .macHi => fld (bits c.mac 32 16) 0
  | .count => fields [fld x.ptpRx 16, fld x.dropped 0]

/-- The state field of DM_STATUS. -/
def domainNum : DomainState → Nat
  | .disabled => 0 | .listening => 1 | .locked => 2 | .degraded => 3 | .lost => 4

/-- A 1588 domain. -/
def readDm (s : State) (d : Fin 2) (r : DmReg) : Word :=
  let c := domainCfg s d
  let x := getDomain s d
  match r with
  | .ctl => fields [fldB c.enable 31, fldB c.port 30, fld c.number 16, fld c.annTimeout 8]
  | .status => fields [fldN 3 (domainNum x.state) 29, fld x.cause 26, fldB (decide (followed s = some d)) 25, fld x.gmClass 8]
  | .offset => satField 32 x.offset
  | .path => satField 32 x.path
  | .inter => satField 32 s.tc.inter
  | .gmLo => bits x.gmId 0 32
  | .gmHi => bits x.gmId 32 32
  | .count => fields [fld x.outliers 16, fld x.count 0]

/-- A time-pulse output. -/
def readTp (s : State) (k : Fin 8) (r : TpReg) : Word :=
  let x := getPulse s k
  match r with
  | .ctl => fields [fld x.mode 4, fldB x.polarity 3]
  | .status => fields [fldB x.armed.isSome 31, fldB x.level 30, fld x.missed 16, fld x.pulses 0]
  | .startLo => half false x.start
  | .startHi => half true x.start
  | .periodLo => half false x.period
  | .periodHi => half true x.period
  | .width => fld x.width 0

/-! ## TETHER (Table 13-7) -/

/-- TETHER. -/
def readTether (s : State) (r : TetherReg) : Word :=
  let t := s.tether
  match r with
  | .module => fields ((List.finRange 16).map (fun k => fldB (hitched s k) (16 + k.val)) ++ [fld (herd s).moduleId 0])
  | .cmd => 0
  | .opStatus => readOp t.op
  | .result => fields [fldB t.partialValid 31, fldN 3 t.phase 28, fld t.measured 0]
  | .drop => fields [fld t.noLane 16, fld t.busy 0]

/-- A route of a lane, of a channel or of a queue, runs on its alternate (TL_STATUS.diverted). -/
def laneDiverted (s : State) (k : LaneId) : Bool :=
  (((herd s).routes).any fun r => decide (r.2.primary = k) &&
    (match laneFor s r.2 (BitVec.ofNat 12 r.1) with | some (_, d) => d | none => false)) ||
  (((herd s).queueRoutes).any fun r => decide (r.2.primary = k) && (match queueLane s (BitVec.ofNat 14 r.1) with | some l => decide (l ≠ k) | none => false))

/-- The state field of TL_STATUS. -/
def laneNum : LaneState → Nat
  | .unhitched => 0 | .training => 1 | .hitched => 2

/-- A lane. -/
def readTl (s : State) (k : LaneId) (r : TlReg) : Word :=
  let x := getLane s k
  let c := tabGet {} (herd s).lanes k.val
  match r with
  | .ctl => fields [fldB x.enable 31, fldB x.eqAuto 30, fld x.eqSet 24, fld c.partnerLane 16]
  | .status =>
    fields [fldN 2 (laneNum x.state) 30, fldN 3 (if x.state = .training then x.phase else 0) 27, fldN 3 x.backoff 24, fld x.eqNow 20,
      fld x.cause 16, fldB (laneDiverted s k) 15, fldB x.overErr 14, fldB x.overrun 13, fld x.seenLane 8, fld x.eye 0]
  | .partner => fields [fld c.partnerId 16, fld x.seenId 0]
  | .lat => fields [fld x.time.worst 16, fld x.time.mean 0]
  | .latNow => fields [fld x.time.maxRun 16, fld x.time.last 0]
  | .offset => x.time.offset
  | .err => fields [fld x.codeErr 16, fld x.lost 0]
  | .count => fields [fld x.trainings 16, fld x.diverted 0]
  | .prbs =>
    fields [fldB x.prbs.genEn 31, fldB x.prbs.chkEn 30, fld x.prbs.poly 28, fldB x.prbs.locked 27, fld x.prbs.injRate 20]
  | .prbsErr => x.prbs.errors
  | .prbsBits => x.prbs.bits

/-! ## HUBA and HUBB (Table 08-13) -/

/-- REIN_HUB_MODE.mode. -/
def hubMode (s : State) : Nat :=
  match inService s false, inService s true with
  | true, true => 0 | true, false => 1 | false, true => 2 | false, false => 3

/-- The registers of HUBA alone. -/
def readHub (s : State) (r : HubReg) : Word :=
  let h := s.hub
  match r with
  | .cmd => 0
  | .opStatus => readOp h.op
  | .result => fields [fldB h.partialValid 31, fld h.cellsDone 0]
  | .mode => fields [fldB (decide (hubMode s = 0)) 2, fldN 2 (hubMode s) 0]
  | .drop => fields [fld h.noRoute 16, fld h.mismatch 0]
  | .loop => fields [fld h.contend 16, fld h.loop 0]
  | .inject => 0
  | .auditCmd => 0
  | .auditOp => readOp h.audit.op
  | .issued hi => half hi h.audit.issued
  | .consumed hi => half hi h.audit.consumed
  | .overrun hi => half hi h.audit.overrun
  | .auditLoop hi => half hi h.audit.loop
  | .inFlight => h.audit.inFlight

/-- PL_STATUS and PL_ERR of a plane. -/
def readPlane (s : State) (b err : Bool) : Word :=
  let p := planeOf s b
  let st : Nat := match p.state with | .service => 0 | .out => 1 | .rejoin => 2 | .writing => 3
  if err then fields [fld p.corrected 16, fld p.missing 0] else fields [fldB p.entry 9, fld p.cause 4, fldN 2 st 0]

/-- The places at which the images in force let a channel be produced (USES, NODE, HUB). -/
def producedAt (s : State) (e : ReinChan) : List Place :=
  let node (n : StallId) : Bool :=
    let i := imageOf s n
    (i.node.uses.any fun u => decide (u.1 = e) && u.2.2) || (i.chans.any fun c => decide (c.2.rein = e)) || (i.node.markers.any fun m => decide (m.chan = e)) ||
      (i.node.cells.any fun c => decide (c.2.chan = some e)) || (i.node.comparators.any fun c => decide (c.2 = e)) || decide (i.node.pace = some e)
  let h := hubWiring s
  let hub := (h.cells.any fun c => decide (c.2.chan = some e)) || (h.comparators.any fun c => decide (c.2 = e)) ||
    (h.pulses.any fun c => decide (c.2 = e)) || decide (h.pace = some e)
  ((List.finRange 8).filter node).map .node ++ (if hub then [.hub] else [])

/-- Some route of a channel crosses the hub: a producer and a consumer lie in different places, or one of them in the hub. -/
def crossesHub (s : State) (e : ReinChan) : Bool :=
  let from_ := producedAt s e
  let to_ := (consumersOf s e).map consumerPlace
  from_.any fun a => to_.any fun b => decide (a ≠ b) || decide (a = .hub)

/-- Some image in force consumes a channel: a capture unit's trigger and a comparator's blanking are the host's choice, no image's. -/
def imageConsumes (s : State) (e : ReinChan) : Bool :=
  (consumersOf s e).any fun c => match c with | .capture _ _ => false | .blank _ => false | _ => true

/-- REIN_CHANe (Table 08-13). -/
def readReinChan (s : State) (k : Fin 4096) : Word :=
  let e : ReinChan := BitVec.ofNat 12 k.val
  if 4064 ≤ k.val then 0xF9000000
  else
    let a := chanAttr s e
    fields [fldO a.owner 28, fldB a.ten 26, fldB (a.ten && decide (a.owner = 0)) 25,
      fldB (!(producedAt s e).isEmpty || imageConsumes s e) 24, fldB (crossesHub s e) 23,
      fldB (tabFind k.val (herd s).routes).isSome 22]

/-! ## WATCH, FARRIER, QDIR (Tables 15-5, 12-7, 11-5) -/

/-- A housekeeping converter. -/
def readHk (s : State) (k : Fin 8) (r : HkReg) : Word :=
  let x := getHk s k
  match r with
  | .cfg => fields [fld x.mode 30, fld x.length 24, fld x.interval 0]
  | .data =>
    fields [fldB x.valid 31, fldB x.overrun 30, fldB x.settle 29, fldB x.spare 28, fld x.gain 26, fld x.input 16, fld x.code 0]
  | .cmd => 0
  | .count => fields [fld x.overruns 16, fld x.settles 0]

/-- A scan entry. -/
def readScan (s : State) (k : Fin 8) (i : Fin 16) : Word :=
  let e := tabGet {} (getHk s k).entries i.val
  fields [fld e.gain 16, fld e.input 0]

/-- HK_CTL and HK_STATUS. -/
def readHkCtl (s : State) (status : Bool) : Word :=
  let h := s.hkCtl
  if status then
    fields ([fldB h.refReady 31, fld h.spareTgt 24, fld h.spareUse 22] ++ (List.finRange 8).map fun k => fldB (getHk s k).failed (8 + k.val))
  else fields [fldB h.bgCal 1, fldB h.refEn 0]

/-- SF_STUD (Table 12-7). -/
def readStud (s : State) : Word :=
  fields ((List.finRange 8).map fun n =>
    let x := getStud s n
    fields [fldB (getFarrier s n).studStale (4 * n.val + 3), fldB x.factory (4 * n.val + 2), fldB x.bOk (4 * n.val + 1), fldB x.aOk (4 * n.val)])

/-- QDIR. -/
def readQdir (s : State) (r : QdirReg) : Word :=
  let d := s.qdir
  match r with
  | .cmd => 0
  | .opStatus => readOp d.op
  | .result => fields [fldB d.partialValid 31, fld d.result 0]
  | .audit i => match i with | 0 => d.audit0 | 1 => d.audit1 | 2 => d.audit2 | 3 => d.audit3
  | .pageTotal => 1045952
  | .pageFree => BitVec.ofNat 32 d.free
  | .quota n => BitVec.ofNat 32 (tabGet 0 (herd s).quotas n.val)
  | .used n => BitVec.ofNat 32 (tabGet 0 d.used n.val)
  | .drop => fields [fld d.noQueue 16, fld d.resets 0]
  | .ecc => fields [fld d.corrected 16, fld d.uncorrected 0]

/-! ## PERSIST and the Tally mirror (Tables 16-6, 12-5, 17-5) -/

/-- A word of a stud-book copy before its CRC (Table 12-5): its head, lanes and markers; a word whose place inside its record the spec does not give is
free. -/
def studBody (s : State) (n : StallId) (x : StudCopy) (w : Nat) : Word :=
  let first (t : Trim) : Word := fields [fldB t.accepted 31, fld t.quality 0]
  if w = 0 then 0x44555453
  else if w = 1 then fldN 8 n.val 0
  else if w = 2 then BitVec.ofNat 32 x.seq
  else if w = 3 then 0x8000
  else if 0x40 ≤ w ∧ w < 0x180 ∧ w % 0x40 = 0 then first (tabGet {} x.slices ((w - 0x40) / 0x40))
  else if 0x180 ≤ w ∧ w < 0x340 ∧ (w - 0x180) % 0x20 = 0 then first (tabGet {} x.slices (5 + (w - 0x180) / 0x20))
  else if 0x340 ≤ w ∧ w < 0x5A0 then
    let i := (w - 0x340) / 4
    let k := tabGet {} x.skew i
    let q := tabGet {} x.iq i
    match (w - 0x340) % 4 with
    | 0 => fields [fldB k.accepted 31, fld (skewOf s n x.skew i) 0]
    | 1 => q.value
    | 2 => fld k.quality 0
    | _ => fld q.quality 0
  else if 0x5A0 ≤ w ∧ w < 0x5B0 ∧ (w - 0x5A0) % 4 < 2 then
    let m := tabGet {} x.markers ((w - 0x5A0) / 4)
    if (w - 0x5A0) % 4 = 0 then fields [fldB m.accepted 31, fld (bits m.value 0 8) 0] else fld m.quality 0
  else Config.persistWord x.seq (n.val * 8192 + w)

/-- A word of a stud-book copy (Table 12-5): it ends with the CRC-32 over every byte before it (R518); in a copy whose check fails that word is free. -/
def studWord (s : State) (n : StallId) (x : StudCopy) (w : Nat) : Word :=
  if w = 0x1FFF ∧ x.ok then crc32 ((List.range 0x1FFF).flatMap fun k => leBytes (studBody s n x k)) else studBody s n x w

/-- A word of the PERSIST window (Table 16-6): the user area and the stud book to owner 0, the records that have no layout here free. -/
def readPersist (f : Func) (s : State) (w : Fin 1048576) : Word :=
  let a := w.val * 4
  if 0x300000 ≤ a then
    let b (k : Nat) : Byte := tabGet 0 s.persist.user (a - 0x300000 + k)
    (if f.val = 0 then b 3 ++ b 2 ++ b 1 ++ b 0 else 0)
  else if 0x200000 ≤ a ∧ a < 0x280000 then
    (if f.val = 0 then
      match fin? 8 ((a - 0x200000) / 0x10000) with
      | some n => let x := getStud s n; studWord s n (if a % 0x10000 < 0x8000 then x.a else x.b) (a % 0x8000 / 4)
      | none => 0
    else 0)
  else if a < 0x20000 ∨ (0x100000 ≤ a ∧ a < 0x108000) then Config.persistWord s.freeCtr w.val
  else 0

/-- A counter of an owner's block (Table 17-5). -/
def countsOf (c : Counts) (k : Nat) : Nat :=
  match k with
  | 0 => c.done
  | 1 => c.aborted
  | 2 => c.driveBeats
  | 3 => c.probeBeats
  | 4 => c.chanFrames
  | _ => 0

/-- The state field of TY_STATE. -/
def sealNum : SealState → Nat
  | .closed => 0 | .opened => 1 | .unbound => 2 | .fault => 3

/-- A header word of the mirror (Table 17-6), below 0x0100. -/
def mirrorHead (t : Tally) (w : Nat) : Word :=
  let m := t.mirror
  let e (x : Nat) (hi : Bool) : Word := half hi (BitVec.ofNat 64 x)
  match w with
  | 0 => fields [fld t.fwId 16, fld t.hwIssue 0]
  | 1 => t.fwCheck
  | 2 => fields [fldN 2 (sealNum m.state) 30, fldB m.tenantRead 0]
  | 3 => m.seq
  | 4 => half false m.clock
  | 5 => half true m.clock
  | 6 => e m.frame false
  | 7 => e m.frame true
  | 8 => fld m.feed 0
  | 9 => fields [fld m.opens 16, fld m.changes 0]
  | 10 => BitVec.ofNat 32 m.logLast
  | 12 => e m.eTotal false
  | 13 => e m.eTotal true
  | 14 => e m.eIn1 false
  | 15 => e m.eIn1 true
  | 16 => e m.eIn2 false
  | 17 => e m.eIn2 true
  | _ => 0

/-- A word of a Tally log entry (Table 17-4). -/
def tallyWord (e : TallyEntry) (w : Nat) : Word :=
  match w with
  | 0 => BitVec.ofNat 32 e.number
  | 1 => e.seconds
  | 2 => fields [fld e.kind 24, fld e.source 16]
  | _ => e.data

/-- A word of the Tally mirror (R663). -/
def readTally (f : Func) (s : State) (w : Fin 17408) : Word :=
  let t := s.tally
  let m := t.mirror
  if w.val < 0x40 then (if f.val = 0 ∨ m.tenantRead then mirrorHead t w.val else 0)
  else if w.val < 0x130 then
    let o := (w.val - 0x40) / 16
    let k := (w.val - 0x40) % 16
    if f.val = 0 ∨ (m.tenantRead ∧ f.val = o) then half (decide (k % 2 = 1)) (BitVec.ofNat 64 (countsOf (tabGet {} m.owners o) (k / 2))) else 0
  else if w.val < 0x400 then 0
  else if f.val = 0 then
    ((m.log.find? fun e => decide (e.number % 4096 = (w.val - 0x400) / 4)).map fun e => tallyWord e ((w.val - 0x400) % 4)).getD 0
  else 0

/-! ## A read of BAR0 -/

/-- What a register holds, as a function that may read it sees it. -/
def readReg (f : Func) (r : Reg) (s : State) : Word :=
  match r with
  | .host r => readHost f s r
  | .log k w => readLog f s k w
  | .pba w => readPba f s w
  | .msix e w => readMsix f s e w
  | .power r => readPower s r
  | .tack r => readTack s r
  | .time r => readTime s r
  | .pt p r => readPt s p r
  | .dm d r => readDm s d r
  | .tp k r => readTp s k r
  | .tether r => readTether s r
  | .tl k r => readTl s k r
  | .hub r => readHub s r
  | .plane b err => readPlane s b err
  | .hubCell b c r => readCell s (.hub b c) r
  | .reinChan e => readReinChan s e
  | .hkCtl st => readHkCtl s st
  | .spineCmp k r => readCmp s (.spine k) r
  | .hk k r => readHk s k r
  | .scan k i => readScan s k i
  | .sfStud => readStud s
  | .qdir r => readQdir s r
  | .persist w => readPersist f s w
  | .ctl n r => readCtl s n r
  | .cmp n w r => readCmp s (.stall n w) r
  | .drive n k r => readSlice s ⟨n, .drive, k⟩ r
  | .probe n k r => readSlice s ⟨n, .probe, k.castLE (by omega)⟩ r
  | .voice v r => readVoice s v r
  | .seq v r => readSeq s v r
  | .markerRoute n probe k => if probe then 0 else readMarker s n k
  | .acq n k r => readAcq s n k r
  | .chan c r => readChan s c r
  | .unit n u r => readUnit s ⟨n, u⟩ r
  | .traceAllow n => readAllow s n
  | .kernelPage n => fields [fldB (getStall s n).kernelBank 8, fldN 6 (getStall s n).kernelChan.val 0]
  | .kernelTap n t => readTap f s n t
  | .group g cmd => if cmd then 0 else readGroup s g
  | .line l r => readLine s l r
  | .edge l t => fld (edgeTap (getFast s l) t.val) 0
  | .node n r => readNode s n r
  | .cell n b r => readCell s (.node n b) r
  | .rider h r => readRider s h r
  | .riderSummary n => readSummary s n
  | .queue n i r => readQueue s (BitVec.ofNat 14 (n.val * 2048 + i.val)) r
  | .farrier n r => readFarrier s n r
  | .store n w => readStore f s n w
  | .env n w => readEnv f s n w
  | .tally w => readTally f s w

/-- A stall's window outside CTL has no power, and no load of the stall is in commit (R693). -/
def windowDark (s : State) (r : Reg) : Bool :=
  match regStall r with
  | some (n, false) => !(getStall s n).powered && !inCommit s n
  | _ => false

/-- The upper words of a value wider than 32 bits, which a read of its lowest word latches (R22); none for any other register. -/
def wideUpper : Reg → List Reg
  | .host .errLo => [.host .errHi]
  | .log k 2 => [.log k 3]
  | .power .rtcLo => [.power .rtcHi]
  | .tack (.digest 0) => (List.finRange 11).map fun i => .tack (.digest i.succ)
  | .time (.tai 0) => [.time (.tai 1), .time (.tai 2)]
  | .pt p .macLo => [.pt p .macHi]
  | .dm d .gmLo => [.dm d .gmHi]
  | .tp k .startLo => [.tp k .startHi]
  | .tp k .periodLo => [.tp k .periodHi]
  | .hub (.issued false) => [.hub (.issued true)]
  | .hub (.consumed false) => [.hub (.consumed true)]
  | .hub (.overrun false) => [.hub (.overrun true)]
  | .hub (.auditLoop false) => [.hub (.auditLoop true)]
  | .cmp n w .capLo => [.cmp n w .capHi]
  | .spineCmp k .capLo => [.spineCmp k .capHi]
  | .drive n k .guardLo => [.drive n k .guardHi]
  | .probe n k .guardLo => [.probe n k .guardHi]
  | .voice v .ftwLo => [.voice v .ftwHi]
  | .seq v .startLo => [.seq v .startHi]
  | .seq v .segLo => [.seq v .segHi]
  | .unit n u .timeLo => [.unit n u .timeHi]
  | .unit n u .baseLo => [.unit n u .baseHi]
  | .rider h (.tLo k) => [.rider h (.tHi k)]
  | .store n w => if w.val % 8 = 0 then (List.range 7).map fun k => .store n (w + Fin.ofNat _ (k + 1)) else []
  | .tally w => if tallyWide w.val then [.tally (w + 1)] else []
  | _ => []
where
  /-- A word of the mirror that begins a 64-bit value (Tables 17-5, 17-6). -/
  tallyWide (w : Nat) : Bool := [4, 6, 12, 14, 16].contains w || (decide (0x40 ≤ w) && decide (w < 0x130) && decide (w % 2 = 0))

/-- The place of a latched word: each function latches its own (DESIGN CHOICE, log entry 163). -/
def latchKey (f : Func) (r : Reg) : Nat := f.val * 0x10000000 + regAddr r

/-- What a register reads: the word that an earlier read of its lowest word latched, or its value (R22). -/
def latchedWord (f : Func) (r : Reg) (s : State) : Word := tabGet (readReg f r s) s.latched (latchKey f r)

/-- What a read changes besides: HK_DATA and TIME_NOW0 as their own commands say (R559, R609), and the latch of the upper words (R22). -/
def readEffect (f : Func) (r : Reg) (s : State) : State :=
  match r with
  | .time (.now 0) => latchNow f s
  | .hk k .data => takeHkData f k s
  | _ => { s with latched := (wideUpper r).foldl (fun t u => tabSet t (latchKey f u) (readReg f u s)) s.latched }

/-- A 32-bit read at a BAR0 offset (R692, R693): its value, and what a read that reaches nothing records.  A read of TIME_NOW0 shows what it latches. -/
def wordReadAt (f : Func) (a : Nat) (s : State) : Word × State :=
  match decodeReg a with
  | none => (0, refuseAt f false a 0x1F03 0 (offsetStall a) 0 (BitVec.ofNat 32 a) s)
  | some r =>
    if windowDark s r then (0, refuseReg f r 0x1F04 s)
    else
      let t := readEffect f r s
      (if r = .time (.now 0) then readReg f r t else latchedWord f r s, t)

/-- A read of BAR0 (R690): one aligned 32-bit read, or a 64-bit one as two, the lower address first; every other is refused.  A read that does not reach
the module has no answer. -/
def barRead (f : Func) (size : AccessSize) (a : Nat) (s : State) : Option Word64 × State :=
  if hostReach s f then
    match size with
    | .b4 => if a % 4 = 0 then let r := wordReadAt f a s; (some (r.1.zeroExtend 64), r.2) else (some 0, refuseSize f a s)
    | .b8 =>
      if a % 8 = 0 then
        let lo := wordReadAt f a s
        let hi := wordReadAt f (a + 4) lo.2
        (some (hi.1 ++ lo.1), hi.2)
      else (some 0, refuseSize f a s)
    | _ => (some 0, refuseSize f a s)
  else (none, s)

end Sys2Proof.Machine
end

