-- ==== Sys2Proof/WellFormed.lean ====
section
/-!
DEFINITION. Which commands are well formed: their operands name objects that Table 00-3 has, bytes that lie in the staging slots or in BAR2, and a link that
PCI Express can train.  The types of the operands give the other ranges.
-/

namespace Sys2Proof

/-- A slice of Table 00-3: D0 to D8, P0 to P4, A0 to A4. -/
def SliceId.wf (i : SliceId) : Bool :=
  match i.kind with
  | .drive => true
  | _ => decide (i.idx.val < 5)

/-- A gate of an existing slice or group. -/
def Gate.wf : Gate → Bool
  | .dac i => i.wf && decide (i.kind ≠ .acq)
  | .flux _ => true

/-- Bytes that lie in the staging slots (Table 03-6). -/
def inSlots (a n : Nat) : Bool := decide (a + n ≤ 0x8000000)

/-- Bytes that lie in BAR2 (Table 19-1). -/
def inBar2 (a n : Nat) : Bool := decide (a + n ≤ 0x1000000000)

/-- A width and a speed that a link trains to (Table 19-4). -/
def linkWf (width speed : BitVec 4) : Bool :=
  (width == 1 || width == 2 || width == 4 || width == 8) && decide (1 ≤ speed.toNat) && decide (speed.toNat ≤ 5)

/-- A command whose operands name existing objects. -/
def Instr.wf : Instr → Bool
  | .sliceConverterFault i => i.wf
  | .sumGuardClip i _ => i.wf && decide (i.kind ≠ .acq)
  | .guardHitClear _ i => i.wf && decide (i.kind ≠ .acq)
  | .slCtlWrite _ i _ => i.wf && decide (i.kind ≠ .acq)
  | .attenTakesEffect i => i.wf && decide (i.kind ≠ .acq)
  | .portOpenTimer i => i.wf && decide (i.kind ≠ .acq)
  | .switchReadbackMismatch i => i.wf && decide (i.kind ≠ .acq)
  | .dacGateUnderrun g _ => g.wf
  | .stagingSlotWrite _ a b => inSlots a.toNat b.length
  | .hbmHostWrite _ a b => inBar2 a.toNat b.length
  | .linkTrained w s => linkWf w s
  | _ => true

end Sys2Proof
end

