-- ==== Sys2Proof/Safety.lean ====
section
/-!
DEFINITION. What counts as a safe step and a safe run: every command that the queue holds is carried out.
-/

namespace Sys2Proof

open Machine

/-- A step that answers a next state. -/
def Safe (s : State) : Prop := ∃ t, step s = .next t

/-- The states of a run of k steps that answers a next state each time. -/
def runs : Nat → State → State → Prop
  | 0, s, t => s = t
  | k + 1, s, t => ∃ u, step s = .next u ∧ runs k u t

/-- Every command that waits is well formed. -/
def queueWf (s : State) : Prop := ∀ c ∈ s.pending, c.wf = true

end Sys2Proof
end

