-- ==== Sys2Proof/Terms.lean ====
section
/-!
DEFINITION. Conditions on operands and state that several statements share.
-/

namespace Sys2Proof.Machine

open Sys2Proof

/-- The first stored sample that may be a trigger sample: the pre region behind it is stored (R308). -/
def preFull (x : CapUnit) : Nat := if x.arm.pre = 0 then x.filledFrom / interval x.arm else sampleFrom x.arm x.filledFrom + x.arm.pre.toNat

/-- A capture unit takes a trigger (R308, R309): it is armed and free, no hobble or gap runs, its pre region has filled, and its ring has space. -/
def takesTrigger (x : CapUnit) (t : Trigger) : Bool :=
  x.armed && decide (x.lastTrig ≠ some (trigKey t)) && decide (x.hobble = .none) && x.record.isNone && x.gap.isNone && hasSpace x
    && decide (preFull x ≤ trigFine t / interval x.arm)

/-! ## Riders -/

/-- What a word that need not wait leaves of its rider (R386, R394, R410): no deadline stands, but for that of a wait which the handler interrupted, and TMO
is clear after a word with a wait condition. -/
def begun (w : MicroWord) (x : Rider) : Rider :=
  { x with
    lastStable := decide (x.pc.toNat < 0x4000), deadline := none
    savedWait := if x.inHandler then x.savedWait else none
    flags := if Mw.wcond w ≠ 0 then { x.flags with tmo := false } else x.flags }

/-- Nothing meets a rider at the boundary after a word that is no SHOT word: no stop, no end of a drain, no pending fault or spur (R382, R383, R405). -/
def boundaryQuiet (s : State) (r : RiderId) : Bool :=
  let x := getRider s r
  let life := (getStall s r.stall).life
  !x.stopPending && (decide (life = .riding) || (decide (life = .resting) && x.shot.active)) && (x.inHandler || (nextFault x.fault).isNone)

/-- A rider is RUNNING at a word that nothing keeps from acting at once: its fetch passes (R390, R391, R410, R411), what it waits for is met, its pred
holds, and no other party holds its target. -/
def wordRuns (s : State) (r : RiderId) (w : MicroWord) (u : Run) : Bool :=
  decide ((getRider s r).state = .running) && decide (wordInHand s r = w) && decide (u = {}) && (fetchCode s r w .clean).isNone
    && waitMet s r w && predHolds (modRider r (begun w) s) r w && boundaryQuiet s r
    && (decide (Mw.op w ≠ 7) || (!shotHeld s r && decide ((getStall s r.stall).life = .riding)))

/-- A word has acted and its rider goes on at the next word: of the rider itself only what its shot gathers and its last anchor may differ further,
and no other rider changes. -/
def goesOn (s t : State) (r : RiderId) (w : MicroWord) : Prop :=
  getRider t r = { begun w (getRider s r) with
    pc := (getRider s r).pc + 1, shot := (getRider t r).shot, lastAnchor := (getRider t r).lastAnchor } ∧
  ∀ q, q ≠ r → getRider t q = getRider s q

/-! ## Resets -/

/-- What a module reset that finds the 12 V bus in range leaves (R622, R635, R636, Table 16-2): every part at its reset value but for those that a
reset keeps; the DC state of the flux lines goes on, with the safe value as goal. -/
def moduleResetTo (cause : ResetCause) (w : ResetWorld) (s t : State) : Prop :=
  t.power = { straps := w.straps, ga := w.ga, domOn := alwaysOn ||| (s.power.domOn &&& bootDomains), fanTray := s.power.fanTray } ∧
  t.backup = { s.backup with lastCause := causeNum cause, resetCount := satInc s.backup.resetCount } ∧
  t.persist = keptPersist s.persist ∧ t.tally = s.tally ∧ t.feeds = s.feeds ∧ t.pending = s.pending ∧ t.freeCtr = s.freeCtr ∧
  (∀ l, (getLine t l).curb = (getLine s l).curb ∧ (getLine t l).safe = (getLine s l).safe ∧ (getLine t l).goal = (getLine s l).safe ∧
    (getLine t l).spanNow = (getLine s l).spanNow ∧ (getLine t l).codeNow = (getLine s l).codeNow ∧
    (getLine t l).connected = (getLine s l).connected) ∧
  Changes [.pending, .power, .backup, .persist, .lines, .tc, .feeds, .tally, .freeCtr] State.reset t

/-! ## Memories and operands -/

/-- Every memory of the module is in its canonical form. -/
def memoriesCanonical (s : State) : Bool :=
  memWf 0 s.hbm && memWf 0 s.library && memWf 0 s.descs && memWf 0 s.kernels && memWf 0 s.store && memWf 0 s.persist.user

/-- A host register write that writes a register's low 8 bits as a given value: alone, or as a half of a 64-bit write (R690). -/
def writesByte (c : Instr) (r : Reg) (b : BitVec 8) : Prop :=
  ∃ f size addr val env, c = .hostRegisterWrite f size addr val env ∧
    (((size = .b4 ∨ size = .b8) ∧ regAddr r = addr.toNat ∧ bits val 0 8 = b) ∨ (size = .b8 ∧ regAddr r = addr.toNat + 4 ∧ bits val 32 8 = b))

end Sys2Proof.Machine
end

