-- ==== Sys2Proof/Certificates/Slice0/Obligations.lean ====
section
/-!
DEFINITION. The statements for the provers.  A statement about a command has clauses: under conditions on its operands and the state alone, the command
answers a next state, which holds the values that the spec's rules give and differs from the state before in no part but those named.
-/

open Sys2Proof Sys2Proof.Machine

/-- A step takes the command at the front of the queue and carries it out on the rest of the state with the queue's rest. -/
def Obligations.StepRunsTheFrontCommand : Prop :=
  ∀ (s : State) (c : Instr) (rest : List Instr), s.pending = c :: rest → step s = exec c { s with pending := rest }

/-- On an empty queue a step lets one beat of 4 ns pass (the model's choice, log entry 2): the module's time and, while an epoch runs, schedule time
rise by one beat of 256 fine steps.  Where no epoch runs, only the wall clocks, the work in progress (a load, a scrub, a plane, a lane, boot), the
domains that wait to be switched on, the
supply telemetry, the refresh of the Tally's mirror, the lines and their pattern checkers go on; where none of these is in progress, the clocks alone. -/
def Obligations.AnEmptyQueueLetsABeatPass : Prop :=
  ∀ s : State, s.pending = [] →
    ∃ t, step s = .next t ∧ t.pending = [] ∧ t.clock.now = s.clock.now + 256 ∧
      t.clock.sched = (if s.clock.running then s.clock.sched + 256 else s.clock.sched) ∧ t.clock.running = s.clock.running ∧
      (s.clock.running = false →
        Changes [.clock, .power, .backup, .tack, .hub, .qdir, .lanes, .tether, .tally, .freeCtr] s t ∧
        (s.tack.run = none → s.qdir.cmd ≠ some .scrub → rejoining s false = false → rejoining s true = false → s.tether.retrain = none →
          s.power.cmd ≠ some .boot → s.power.supply1.present = false → s.power.supply2.present = false →
          s.power.switchOn = [] →
          (∀ k, (getLane s k).enable = false ∧ (getLane s k).tx = {} ∧ (getLane s k).prbs.locked = false ∧ (getLane s k).prbs.genEn = false) → Changes [.clock, .backup, .tally] s t)) ∧
      Changes [.clock, .funcs, .power, .backup, .tack, .slices, .voices, .seqs, .units, .hub, .riders, .fasts, .queues, .qdir, .farriers, .trims, .lanes, .tether, .tc, .watches, .feeds, .tally, .freeCtr] s t

/-- No command touches the queue of those that wait: a step consumes the one command at its front, and no command puts one in. -/
def Obligations.CommandsLeaveTheQueueAlone : Prop :=
  ∀ (c : Instr) (s t : State), exec c s = .next t → t.pending = s.pending

/-- Every command is carried out, in every state: no operand and no state makes one fault or be refused. -/
def Obligations.EveryCommandAnswersANextState : Prop :=
  ∀ (c : Instr) (s : State), ∃ t, exec c s = .next t

/-- A command whose operand names a slice that Table 00-3 does not have (P5 to P8, A5 to A8), or an acquisition slice where the command is one of a drive
or probe slice, finds nothing to act on, and nothing changes; nor does it where sections come that are not those of the image under check. -/
def Obligations.OperandsOfNoObjectChangeNothing : Prop :=
  ∀ s : State,
    (∀ i : SliceId, i.wf = false → exec (.sliceConverterFault i) s = .next s) ∧
    (∀ i : SliceId, (i.wf && decide (i.kind ≠ .acq)) = false →
      (∀ k, exec (.sumGuardClip i k) s = .next s) ∧ exec (.attenTakesEffect i) s = .next s ∧
      exec (.portOpenTimer i) s = .next s ∧ exec (.switchReadbackMismatch i) s = .next s ∧
      (∀ beats, exec (.dacGateUnderrun (.dac i) beats) s = .next s) ∧
      (∀ f val, exec (.slCtlWrite f i val) s = .next s) ∧ (∀ f, exec (.guardHitClear f i) s = .next s)) ∧
    (∀ c bring op, s.tack.run = some op → checksFit s op c = false → exec (.tackChecksEnd c bring) s = .next s)

/-- What a step keeps of every memory: the HBM, the envelope library, the descriptors, the kernels, the control stores and the user words of the
persistent register file stay in canonical form (addresses strictly rising, no cell at the value that an unlisted one reads as). -/
def Obligations.MemoriesStayCanonical : Prop :=
  ∀ s t : State, memoriesCanonical s = true → step s = .next t → memoriesCanonical t = true

/-- What reset leaves (R56, R604, R610, R645, Tables 08-12, 14-3, 15-5): every stall OFF without an image, no load, the fabric empty, comparators that
watch nothing, the housekeeping reference enabled and not ready, no time domain in use, every memory in canonical form.  Which values the spec
states and which the model names is in the log. -/
def Obligations.ResetLeavesAnEmptyModule : Prop :=
  State.reset.pending = [] ∧ memoriesCanonical State.reset = true ∧
  (∀ n, lifeOf n State.reset = .off ∧ (getStall State.reset n).powered = false ∧ hasImage State.reset n = false) ∧
  State.reset.herdImage = none ∧ State.reset.hubImage = none ∧ State.reset.tack.run = none ∧ State.reset.flights = [] ∧
  (∀ v, (getSeq State.reset v).state = .idle) ∧ (∀ r, (getRider State.reset r).shot.active = false) ∧
  (∀ c, (getWatch State.reset c).cfg.action = 0 ∧ (getWatch State.reset c).cfg.mode = 0 ∧ (getWatch State.reset c).cfg.enable = false ∧
    (getWatch State.reset c).cfg.lo = 0 ∧ (getWatch State.reset c).cfg.hi = 0x3FF ∧ (getWatch State.reset c).tripped = false) ∧
  State.reset.hkCtl.refEn = true ∧ State.reset.hkCtl.refReady = false ∧ State.reset.clock.running = false ∧
  (∀ f e, (tabGet {} (getFunc State.reset f).msix e).masked = true) ∧ (∀ f, (getFunc State.reset f).log = [])

/-- The address map of BAR0 (Tables 19-1, 19-2 and the map table of each block): every register decodes from its own offset, and every offset that
decodes is the offset of the register it gives, so no two registers share one. -/
def Obligations.OffsetsNameOneRegisterEach : Prop :=
  (∀ r : Reg, decodeReg (regAddr r) = some r) ∧ (∀ (a : Nat) (r : Reg), decodeReg a = some r → regAddr r = a)

/-- R692: an access to an offset of BAR0 that the map leaves unassigned: a read returns 0, a write is discarded, and 0x1F03 is recorded. -/
def Obligations.UnassignedOffsetsAnswerNothing : Prop :=
  ∀ (s : State) (f : Func) (addr : BitVec 28), hostReach s f = true → addr.toNat % 4 = 0 → (∀ r, regAddr r ≠ addr.toNat) →
    (∀ val env, ∃ t, exec (.hostRegisterWrite f .b4 addr val env) s = .next t ∧ (getFunc t f).lastCode = 0x1F03 ∧
      (getFunc t f).errCount = satInc (getFunc s f).errCount ∧ (getFunc t f).errOffset = BitVec.ofNat 36 addr.toNat ∧
      noted t 0 0x1F03 = true ∧ noted t f 0x1F03 = true ∧ Changes [.funcs] s t) ∧
    (∃ t, wordReadAt f addr.toNat s = (0, t) ∧ (getFunc t f).lastCode = 0x1F03 ∧ (getFunc t f).errCount = satInc (getFunc s f).errCount ∧
      (getFunc t f).errOffset = BitVec.ofNat 36 addr.toNat ∧ noted t 0 0x1F03 = true ∧ noted t f 0x1F03 = true ∧ Changes [.funcs] s t)

/-- R133: a host write whose owner is neither that of the object that a register's RWL fields tune nor owner 0 has no effect on any field of the
register, and is recorded with 0x1F01 in the error status of its function (R20, R695). -/
def Obligations.ForeignOwnersChangeNothing : Prop :=
  ∀ (s : State) (f : Func) (r : Reg) (o : Owner) (addr : BitVec 28) (val : Word64) (env : WriteEnv),
    regAddr r = addr.toNat → hostReach s f = true → regOwner s r = some o → f.owner ≠ o → f.owner ≠ 0 →
    (∀ n, regStall r = some (n, false) → (getStall s n).powered = true ∧ inCommit s n = false) →
    ∃ t, exec (.hostRegisterWrite f .b4 addr val env) s = .next t ∧ (getFunc t f).lastCode = 0x1F01 ∧
      (getFunc t f).errOffset = BitVec.ofNat 36 addr.toNat ∧ (getFunc t f).errCount = satInc (getFunc s f).errCount ∧
      noted t 0 0x1F01 = true ∧ noted t f 0x1F01 = true ∧ Changes [.funcs] s t

/-- R150, R693: the CTL block of a stall answers in every stall state; outside it, a write to the window of a stall whose core has no power is
discarded with 0x1F04 and a read returns 0 with the same code, and during phase 5 or 6 of the stall's own load a write is discarded with 0x1D59. -/
def Obligations.DarkAndBusyWindowsDiscardWrites : Prop :=
  ∀ (s : State) (f : Func) (r : Reg) (n : StallId) (addr : BitVec 28), regAddr r = addr.toNat → hostReach s f = true →
    (regStall r = some (n, true) → gateCode s f r ≠ some 0x1F04 ∧ gateCode s f r ≠ some 0x1D59 ∧
      wordReadAt f addr.toNat s = (latchedWord f r s, readEffect f r s)) ∧
    (regStall r = some (n, false) → inCommit s n = true →
      (∀ val env, ∃ t, exec (.hostRegisterWrite f .b4 addr val env) s = .next t ∧ (getFunc t f).lastCode = 0x1D59 ∧
        noted t 0 0x1D59 = true ∧ Changes [.funcs] s t) ∧
      wordReadAt f addr.toNat s = (latchedWord f r s, readEffect f r s)) ∧
    (regStall r = some (n, false) → inCommit s n = false → (getStall s n).powered = false →
      (∀ val env, ∃ t, exec (.hostRegisterWrite f .b4 addr val env) s = .next t ∧ (getFunc t f).lastCode = 0x1F04 ∧
        noted t 0 0x1F04 = true ∧ Changes [.funcs] s t) ∧
      (∃ t, wordReadAt f addr.toNat s = (0, t) ∧ (getFunc t f).lastCode = 0x1F04 ∧ noted t 0 0x1F04 = true ∧ Changes [.funcs] s t))

/-- R609: a converter has one data register; a conversion replaces its content and sets valid; while valid was still 1 it also sets overrun, adds 1
to overruns and records 0x3C11; a read of HK_DATA clears valid and overrun and keeps the rest. -/
def Obligations.EachConverterHasOneDataRegister : Prop :=
  (∀ (s : State) (k : Fin 8) (code : BitVec 12) (e : ScanEntry), (getHk s k).running = true → (getHk s k).due ≤ s.clock.now →
    tabGet {} (getHk s k).entries (getHk s k).at_ = e →
    ∃ t, exec (.conversionDone k code) s = .next t ∧ (getHk t k).valid = true ∧ (getHk t k).input = e.input ∧
      (getHk t k).gain = hkGain e ∧ (getHk t k).code = hkResult s k e code ∧
      ((getHk s k).valid = true →
        (getHk t k).overrun = true ∧ (getHk t k).overruns = satInc (getHk s k).overruns ∧ noted t 0 0x3C11 = true) ∧
      ((getHk s k).valid = false →
        (getHk t k).overrun = (getHk s k).overrun ∧ (getHk t k).overruns = (getHk s k).overruns ∧ Changes [.hks] s t) ∧
      (∀ j, j ≠ k → getHk t j = getHk s j) ∧ Changes [.funcs, .hks] s t) ∧
  (∀ (s : State) (f : Func) (k : Fin 8), hostReach s f = true →
    ∃ t, exec (.hkDataRead f k) s = .next t ∧ getHk t k = { getHk s k with valid := false, overrun := false } ∧
      (∀ j, j ≠ k → getHk t j = getHk s j) ∧ Changes [.hks] s t)

/-- R56: no stall enters RIDING without a START command, given by itself or by the write of its value to STn_CMD. -/
def Obligations.OnlyStartMakesAStallRide : Prop :=
  ∀ (c : Instr) (s t : State) (n : StallId), exec c s = .next t → lifeOf n s ≠ .riding → lifeOf n t = .riding →
    (∃ f, c = .start f n) ∨ writesByte c (.ctl n .cmd) 2

/-- R57, R60, R702: a stall command that the stall's state does not permit is refused with 0x1D01, and every stall command with 0x1D03 while a halt that
a fatal fault began is in progress; the refusal stands in STn_OP_STATUS and the log, and the stall's state does not change. -/
def Obligations.RefusedStallCommandsLeaveTheStall : Prop :=
  ∀ (s : State) (f : Func) (n : StallId) (found : PowerUpFound), admits s f (.ctl n .cmd) = true →
    (∀ c ∈ [Instr.powerUp f n found, .start f n, .drain f n, .unload f n, .powerDown f n, .halt f n], (getStall s n).faultHalt = true →
      ∃ t, exec c s = .next t ∧ (getFunc t f).lastCode = 0x1D03 ∧ noted t 0 0x1D03 = true ∧
        getStall t n = { getStall s n with op := opRefuse 0x1D03 (getStall s n).op } ∧
        (∀ m, m ≠ n → getStall t m = getStall s m) ∧ Changes [.funcs, .stalls] s t) ∧
    ((getStall s n).faultHalt = false → (getStall s n).cmd.isSome = false → loading s n = false →
    ∀ c, (c = .powerUp f n found ∧ lifeOf n s ≠ .off) ∨ (c = .start f n ∧ lifeOf n s ≠ .harnessed) ∨
        (c = .drain f n ∧ lifeOf n s ≠ .riding) ∨ (c = .unload f n ∧ lifeOf n s ≠ .harnessed) ∨
        (c = .powerDown f n ∧ lifeOf n s ≠ .stabled ∧ lifeOf n s ≠ .harnessed) ∨
        (c = .halt f n ∧ lifeOf n s ≠ .riding ∧ lifeOf n s ≠ .resting) →
      ∃ t, exec c s = .next t ∧ (getFunc t f).lastCode = 0x1D01 ∧ noted t 0 0x1D01 = true ∧
        getStall t n = { getStall s n with op := opRefuse 0x1D01 (getStall s n).op } ∧
        (∀ m, m ≠ n → getStall t m = getStall s m) ∧ Changes [.funcs, .stalls] s t)

/-- R61: while a command of a stall is in progress, every further command of the stall is refused with 0x1D02, except HALT, which a stall in RIDING or
RESTING carries out (R60's halt, which a fatal fault began, apart). -/
def Obligations.OneStallCommandAtATime : Prop :=
  ∀ (s : State) (f : Func) (n : StallId) (found : PowerUpFound), admits s f (.ctl n .cmd) = true → (getStall s n).cmd.isSome = true →
    (getStall s n).faultHalt = false →
    (∀ c ∈ [Instr.powerUp f n found, .start f n, .drain f n, .unload f n, .powerDown f n],
      ∃ t, exec c s = .next t ∧ (getFunc t f).lastCode = 0x1D02 ∧ noted t 0 0x1D02 = true ∧
        getStall t n = { getStall s n with op := opRefuse 0x1D02 (getStall s n).op } ∧
        (∀ m, m ≠ n → getStall t m = getStall s m) ∧ Changes [.funcs, .stalls] s t) ∧
    (lifeOf n s = .riding ∨ lifeOf n s = .resting → s.power.toBring.contains n = false →
      ∃ t, exec (.halt f n) s = .next t ∧ lifeOf n t = .resting ∧ (getStall t n).cmd = some .halt ∧ (getStall t n).haltPending = true ∧
        (∀ m, m ≠ n → getStall t m = getStall s m))

/-- The stall commands that end at once, or start an operation (R57, Table 01-9): POWER_UP, START, UNLOAD
and POWER_DOWN, which waits for the DC paths that still ramp (R55). -/
def Obligations.StallCommandsTakeEffect : Prop :=
  ∀ (s : State) (f : Func) (n : StallId), admits s f (.ctl n .cmd) = true → stallCode n false true s = none →
    (∀ found : PowerUpFound, lifeOf n s = .off → s.power.recovery = false → found.comparators = 0 →
      ∃ t, exec (.powerUp f n found) s = .next t ∧ (getStall t n).life = .off ∧ (getStall t n).cmd = some .powerUp ∧
        (getStall t n).op = opStart ∧ (getStall t n).powered = true ∧
        t.power = waitDomains (30 * n.val + 1) 29 s.clock.now s.power ∧ t.power.domOn = s.power.domOn ∧
        (∀ d, 30 * n.val < d → d < 30 * n.val + 30 → bit s.power.domOn d = false → t.power.switchOn.contains d = true) ∧
        (∀ m, m ≠ n → getStall t m = getStall s m) ∧ Changes [.funcs, .power, .persist, .stalls, .trims] s t) ∧
    (lifeOf n s = .harnessed →
      ∃ t, exec (.start f n) s = .next t ∧ (getStall t n).life = .riding ∧ (getStall t n).cmd = none ∧ (getStall t n).op = opDone 0 ∧
        (getStall t n).fault = false ∧
        (∀ r : RiderId, getRider t r =
          if r.stall = n ∧ (riderBind s r).start = true then { getRider s r with release := true } else getRider s r) ∧
        (∀ m, m ≠ n → getStall t m = getStall s m) ∧ Changes [.funcs, .irqs, .stalls, .slices, .nodes, .books, .flights, .nextFlight, .hub, .riders] s t) ∧
    (lifeOf n s = .harnessed →
      ∃ t, exec (.unload f n) s = .next t ∧ (getStall t n).life = .stabled ∧ (getStall t n).cmd = none ∧ (getStall t n).op = opDone 0 ∧
        (getStall t n).imageTag = 0 ∧ hasImage t n = false ∧ (∀ m, m ≠ n → imageOf t m = imageOf s m) ∧
        (∀ m, m ≠ n → getStall t m = getStall s m) ∧ Changes [.funcs, .irqs, .stallImages, .stalls, .slices, .acqs, .voices, .seqs, .units, .nodes, .books, .flights, .nextFlight, .hub, .riders, .lines, .queues, .qdir, .farriers, .trims, .watches, .hbm] s t) ∧
    (lifeOf n s = .stabled ∨ lifeOf n s = .harnessed → linesRest (linesSafe n s) n = true →
      ∃ t, exec (.powerDown f n) s = .next t ∧ (getStall t n).life = .off ∧ (getStall t n).cmd = none ∧ (getStall t n).op = opDone 0 ∧
        (getStall t n).powered = false ∧ hasImage t n = false ∧ t.power.domOn = s.power.domOn &&& ~~~(domainMask (30 * n.val + 1) 29) ∧
        (∀ m, m ≠ n → getStall t m = getStall s m) ∧ Changes [.funcs, .irqs, .power, .tack, .stallImages, .stalls, .gaits, .slices, .acqs, .voices, .seqs, .chans, .units, .nodes, .cells, .books, .flights, .nextFlight, .hub, .riders, .lines, .fasts, .groups, .queues, .qdir, .farriers, .trims, .watches, .hbm, .library, .descs, .kernels, .store, .held, .latched] s t) ∧
    (lifeOf n s = .stabled ∨ lifeOf n s = .harnessed → linesRest (linesSafe n s) n = false →
      ∃ t, exec (.powerDown f n) s = .next t ∧ getStall t n = { getStall s n with cmd := some .powerDown, op := opStart } ∧
        (∀ l : LineId, getLine t l = getLine (linesSafe n s) l) ∧
        (∀ m, m ≠ n → getStall t m = getStall s m) ∧ Changes [.stalls, .lines] s t)

/-- Rest and halt (R54, R57, Table 01-9): DRAIN, HALT, a stall fatal fault, the stop of the last rider, and the drain timeout. -/
def Obligations.StallRestsAndHalts : Prop :=
  (∀ (s : State) (f : Func) (n : StallId), admits s f (.ctl n .cmd) = true → stallCode n false true s = none → lifeOf n s = .riding →
    ∃ t, exec (.drain f n) s = .next t ∧ (getStall t n).life = .resting ∧ (getStall t n).cmd = some .drain ∧
      (getStall t n).op.state = .busy ∧ (getStall t n).draining = true ∧ (getStall t n).drain.valid = true ∧
      (getStall t n).drain.atStart = shotsNow s n ∧ (∀ m, m ≠ n → getStall t m = getStall s m) ∧ Changes [.funcs, .irqs, .stalls, .seqs, .chans, .nodes, .books, .flights, .nextFlight, .hub, .riders, .queues, .feeds] s t) ∧
  (∀ (s : State) (f : Func) (n : StallId), admits s f (.ctl n .cmd) = true → stallCode n true true s = none →
    lifeOf n s = .riding ∨ lifeOf n s = .resting →
    ∃ t, exec (.halt f n) s = .next t ∧ (getStall t n).life = .resting ∧ (getStall t n).cmd = some .halt ∧
      (getStall t n).haltPending = true ∧ (getStall t n).draining = false ∧ (∀ m, m ≠ n → getStall t m = getStall s m) ∧
      Changes [.funcs, .irqs, .stalls, .slices, .voices, .seqs, .chans, .nodes, .books, .flights, .nextFlight, .hub, .riders, .fasts, .queues, .farriers, .feeds, .freeCtr] s t) ∧
  (∀ (s : State) (n : StallId) (code : Code) (object : Word), lifeOf n s ≠ .off →
    ∃ t, exec (.stallFatalFault n code object) s = .next t ∧ (getStall t n).fault = true ∧
      (getStall t n).life = (if lifeOf n s = .riding then .resting else lifeOf n s) ∧
      (lifeOf n s = .riding ∨ lifeOf n s = .resting → (getStall t n).haltPending = true) ∧
      (∀ m, m ≠ n → getStall t m = getStall s m) ∧ Changes [.funcs, .irqs, .stalls, .slices, .voices, .seqs, .chans, .nodes, .books, .flights, .nextFlight, .hub, .riders, .fasts, .queues, .farriers, .feeds, .freeCtr] s t) ∧
  (∀ (s : State) (n : StallId), lifeOf n s = .resting → allStopped s n = true →
    ∃ t, exec (.ridersAllStopped n) s = .next t ∧ (getStall t n).life = .harnessed ∧ (getStall t n).cmd = none ∧
      (getStall t n).haltPending = false ∧ (getStall t n).draining = false ∧ (getStall t n).drain.valid = false ∧
      ((getStall s n).op.state = .busy → (getStall s n).cmd.isSome = true → (getStall t n).op = opDone (getStall s n).drainCode) ∧
      (∀ m, m ≠ n → getStall t m = getStall s m) ∧ Changes [.funcs, .irqs, .stalls, .slices, .voices, .seqs, .chans, .nodes, .books, .flights, .nextFlight, .hub, .riders, .fasts, .queues, .qdir] s t) ∧
  (∀ (s : State) (n : StallId), lifeOf n s = .resting → (getStall s n).draining = true →
    ∃ t, exec (.drainTimeout n) s = .next t ∧
      ((∀ r : RiderId, r.stall = n → (getRider s r).state = .stopped) → (getStall t n).life = .harnessed ∧ (getStall t n).cmd = none) ∧
      ((∃ r : RiderId, r.stall = n ∧ (getRider s r).state = .running) → (getStall t n).life = .resting) ∧
      (∀ m, m ≠ n → getStall t m = getStall s m) ∧ Changes [.funcs, .irqs, .stalls, .slices, .voices, .seqs, .chans, .nodes, .books, .flights, .nextFlight, .hub, .riders, .fasts, .queues, .qdir, .feeds] s t)

/-- The end of a POWER_UP and a loss of power (R57, Table 01-9): FRAME_ALIGNMENT_DONE, ALIGNMENT_TIMEOUT and STALL_POWER_LOSS, of a stall
that no bring-up has in hand. -/
def Obligations.StallPowerUpEnds : Prop :=
  ∀ (s : State) (n : StallId) (bring : Tab PowerUpFound), s.power.bringing ≠ some n →
    ((getStall s n).cmd = some .powerUp → domainWaits s (30 * n.val + 1) 29 = false →
      ∃ t, exec (.frameAlignmentDone n bring) s = .next t ∧ (getStall t n).life = .stabled ∧ (getStall t n).frameLocked = true ∧
        (getStall t n).fault = false ∧ (getStall t n).cmd = none ∧ (getStall t n).op = opDone 0 ∧
        (∀ m, m ≠ n → getStall t m = getStall s m) ∧ Changes [.funcs, .irqs, .stalls, .slices, .acqs, .nodes, .books, .flights, .nextFlight, .hub] s t) ∧
    ((getStall s n).cmd = some .powerUp →
      ∃ t, exec (.alignmentTimeout n bring) s = .next t ∧ (getStall t n).life = .off ∧ (getStall t n).powered = false ∧
        (getStall t n).cmd = none ∧ (getStall t n).op = { (getStall s n).op with state := .failed, code := 0x2D05 } ∧
        (∀ m, m ≠ n → getStall t m = getStall s m) ∧ Changes [.funcs, .irqs, .power, .tack, .stallImages, .stalls, .gaits, .slices, .acqs, .voices, .seqs, .chans, .units, .nodes, .cells, .books, .flights, .nextFlight, .hub, .riders, .lines, .fasts, .groups, .queues, .qdir, .farriers, .trims, .watches, .hbm, .library, .descs, .kernels, .store, .held, .latched] s t) ∧
    (∀ domain : BitVec 8, lifeOf n s ≠ .off →
      ∃ t, exec (.stallPowerLoss n domain bring) s = .next t ∧ (getStall t n).life = .off ∧ (getStall t n).fault = true ∧
        (getStall t n).powered = false ∧ ((getStall s n).cmd.isSome = true → (getStall t n).cmd = none) ∧
        (∀ m, m ≠ n → getStall t m = getStall s m) ∧ Changes [.funcs, .irqs, .power, .tack, .stallImages, .stalls, .gaits, .slices, .acqs, .voices, .seqs, .chans, .units, .nodes, .cells, .books, .flights, .nextFlight, .hub, .riders, .lines, .fasts, .groups, .queues, .qdir, .farriers, .trims, .watches, .hbm, .library, .descs, .kernels, .store, .held, .latched] s t)

/-- The spares (R39 to R53): SPARE_TAKEOVER, SPARE_RELEASE, SPARE_SWITCH, SPARE_SILENCE_TIMEOUT, SLICE_CONVERTER_FAULT of a drive slice whose
spare may stand for it by force or carries it already, and FORCED_TAKEOVER_COMPLETE. -/
def Obligations.SparesStandForSlices : Prop :=
  (∀ (s : State) (f : Func) (n : StallId) (k : SliceKind) (target : BitVec 4), admits s f (.ctl n .spareCmd) = true →
    takeoverCode n k target s = none → (spareOf (getStall s n) k).use ≠ .farrier →
    ∃ t, exec (.spareTakeover f n k target) s = .next t ∧ (spareOf (getStall t n) k).use = .switching ∧
      (spareOf (getStall t n) k).target = target ∧ (getStall t n).spareOp = opStart ∧
      (getStall t n).spareReq = some { kind := k, target := some target, func := f, at_ := s.clock.now } ∧
      (∀ m, m ≠ n → getStall t m = getStall s m) ∧ Changes [.stalls] s t) ∧
  (∀ (s : State) (f : Func) (n : StallId) (k : SliceKind), admits s f (.ctl n .spareCmd) = true → releaseCode n k s = none →
    ∃ t, exec (.spareRelease f n k) s = .next t ∧
      ((spareOf (getStall s n) k).use = .replacing → (spareOf (getStall t n) k).use = .switching ∧ (getStall t n).spareOp = opStart ∧
        (getStall t n).spareReq = some { kind := k, target := none, func := f, at_ := s.clock.now }) ∧
      ((spareOf (getStall s n) k).use ≠ .replacing → (getStall t n).spareOp = opDone 0) ∧
      (∀ m, m ≠ n → getStall t m = getStall s m) ∧ Changes [.funcs, .irqs, .stalls] s t) ∧
  (∀ (s : State) (n : StallId) (k : SliceKind) (r : SpareReq) (i : SliceId), (getStall s n).spareReq = some r → r.kind = k →
    r.waitsFarrier = false → (spareOf (getStall s n) k).use = .switching → targetOfSpare n k (spareOf (getStall s n) k) = some i → sliceSilent s i = true →
    ∃ t, exec (.spareSwitch n k) s = .next t ∧
      (r.target.isSome = true → (spareOf (getStall t n) k).use = .replacing) ∧
      (r.target = none → (spareOf (getStall t n) k).use = .idle ∧ (spareOf (getStall t n) k).target = 0xF) ∧
      (getStall t n).spareReq = none ∧ (getStall t n).spareOp = opDone 0 ∧
      (∀ m, m ≠ n → getStall t m = getStall s m) ∧ Changes [.funcs, .irqs, .stalls, .voices] s t) ∧
  (∀ (s : State) (n : StallId) (k : SliceKind) (r : SpareReq), (getStall s n).spareReq = some r → r.kind = k → r.waitsFarrier = false →
    ∃ t, exec (.spareSilenceTimeout n k) s = .next t ∧
      ((spareOf (getStall s n) k).use = .farrier → spareOf (getStall t n) k = spareOf (getStall s n) k) ∧
      ((spareOf (getStall s n) k).use ≠ .farrier → r.target.isSome = true →
        (spareOf (getStall t n) k).use = .idle ∧ (spareOf (getStall t n) k).target = 0xF) ∧
      ((spareOf (getStall s n) k).use ≠ .farrier → r.target = none → (spareOf (getStall t n) k).use = .replacing) ∧
      (getStall t n).spareReq = none ∧ (getStall t n).spareOp.state = .failed ∧ (getStall t n).spareOp.code = spareCode 0x2003 k ∧
      (∀ m, m ≠ n → getStall t m = getStall s m) ∧ Changes [.funcs, .irqs, .stalls] s t) ∧
  (∀ (s : State) (i : SliceId), i.kind = .drive → i.idx.val < 8 → lifeOf i.stall s ≠ .off → carried s i = false →
    autoPermitted s i.stall .drive = true → permitted s i.stall .drive (BitVec.ofNat 4 i.idx.val) = true →
    spareFree (getStall s i.stall).spareDrive = true →
    ∃ t, exec (.sliceConverterFault i) s = .next t ∧ (getSlice t i).fault = true ∧ (getSlice t i).port = .terminated ∧
      (getStall t i.stall).spareDrive.use = .switching ∧ (getStall t i.stall).spareDrive.forced = true ∧
      (getStall t i.stall).spareDrive.target = BitVec.ofNat 4 i.idx.val ∧
      (∀ m, m ≠ i.stall → getStall t m = getStall s m) ∧ Changes [.funcs, .irqs, .stalls, .slices, .acqs, .chans, .units, .riders, .farriers, .hbm] s t) ∧
  (∀ (s : State) (i : SliceId), i.kind = .drive → i.idx.val < 8 → lifeOf i.stall s ≠ .off → carried s i = true →
    ∃ t, exec (.sliceConverterFault i) s = .next t ∧ getSlice t i = { getSlice s i with fault := true } ∧
      (∀ j, j ≠ i → getSlice t j = getSlice s j) ∧ (∀ v, getVoice t v = getVoice s v) ∧
      (∀ m, m ≠ i.stall → getStall t m = getStall s m) ∧ Changes [.funcs, .irqs, .stalls, .slices, .acqs, .chans, .units, .riders, .farriers, .hbm] s t) ∧
  (∀ (s : State) (n : StallId) (k : SliceKind), (spareOf (getStall s n) k).forced = true → (spareOf (getStall s n) k).use = .switching →
    ∃ t, exec (.forcedTakeoverComplete n k) s = .next t ∧ (spareOf (getStall t n) k).use = .replacing ∧
      (spareOf (getStall t n) k).served = (spareOf (getStall s n) k).target ∧
      (∀ m, m ≠ n → getStall t m = getStall s m) ∧ Changes [.stalls, .slices, .voices, .chans, .units, .riders] s t)

/-- Gates and pace monitors (R76, R77, R103, R106 to R109, R114): what an empty gate plays as zero and counts, what a full one counts, what a measurement leaves in the monitors,
what TROT_DEADLINE_WRITE and PACE_WARN_CLEAR change. -/
def Obligations.GatesAndPaceMonitorsCount : Prop :=
  (∀ (s : State) (i : SliceId) (beats : Nat), i.wf = true → i.kind ≠ .acq →
    ∃ t, exec (.dacGateUnderrun (.dac i) beats) s = .next t ∧
      getGait t i.stall = { getGait s i.stall with dacEmpty := satAdd (getGait s i.stall).dacEmpty beats } ∧
      (∀ j, logical s i = some j → getSlice t j = zeroSlice beats s (getSlice s j)) ∧ (∀ j, logical s i ≠ some j → getSlice t j = getSlice s j) ∧
      (∀ m, m ≠ i.stall → getGait t m = getGait s m) ∧ noted t 0 0x3120 = true ∧ Changes [.funcs, .gaits, .slices, .riders] s t) ∧
  (∀ (s : State) (g : GroupId) (beats : Nat),
    ∃ t, exec (.dacGateUnderrun (.flux g) beats) s = .next t ∧
      getGait t g.stall = { getGait s g.stall with dacEmpty := satAdd (getGait s g.stall).dacEmpty beats } ∧
      (∀ l, l ∈ groupLines g → getFast t l = zeroFast beats s (getFast s l)) ∧ (∀ l, l ∉ groupLines g → getFast t l = getFast s l) ∧
      (∀ m, m ≠ g.stall → getGait t m = getGait s m) ∧ noted t 0 0x3120 = true ∧ Changes [.funcs, .gaits, .fasts, .riders] s t) ∧
  (∀ (s : State) (n : StallId) (k : Fin 5) (frame : Nat),
    ∃ t, exec (.adcGateFull n k frame) s = .next t ∧
      getGait t n = { getGait s n with adcFull := satInc (getGait s n).adcFull } ∧
      (∀ m, m ≠ n → getGait t m = getGait s m) ∧ noted t 0 0x3320 = true ∧ Changes [.funcs, .gaits, .chans, .units, .riders] s t) ∧
  (∀ (s : State) (n : StallId) (k : Fin 4) (margin lowest : Int), (getStall s n).powered = true →
    lowest = lowestMargin (tabSet (getGait s n).pace.margins k.val margin) margin →
    ∃ t, exec (.paceMeasurement (.stall n) k margin) s = .next t ∧ lowest ≤ margin ∧
      (getGait t n).pace.margins = tabSet (getGait s n).pace.margins k.val margin ∧
      (getGait t n).pace.now = BitVec.ofNat 8 (min 254 lowest.toNat) ∧
      ((getGait t n).pace.warn = ((getGait s n).pace.warn || decide (lowest ≤ ((getGait s n).pace.warnPct.toNat : Int)))) ∧
      ((getGait t n).pace.crit = ((getGait s n).pace.crit || decide (lowest ≤ ((getGait s n).pace.critPct.toNat : Int)))) ∧
      ((getGait t n).pace.belowZero = ((getGait s n).pace.belowZero || decide (lowest < 0))) ∧
      (∀ m, m ≠ n → getGait t m = getGait s m) ∧ t.spine = s.spine) ∧
  (∀ (s : State) (n : StallId) (k : Fin 4) (margin : Int), (getStall s n).powered = false → exec (.paceMeasurement (.stall n) k margin) s = .next s) ∧
  (∀ (s : State) (k : Fin 4) (margin lowest : Int), s.power.phase ≠ .held →
    lowest = lowestMargin (tabSet s.spine.pace.margins k.val margin) margin →
    ∃ t, exec (.paceMeasurement .spine k margin) s = .next t ∧ t.spine.pace.now = BitVec.ofNat 8 (min 254 lowest.toNat) ∧
      t.spine.pace.margins = tabSet s.spine.pace.margins k.val margin ∧
      (t.spine.pace.crit = (s.spine.pace.crit || decide (lowest ≤ (s.spine.pace.critPct.toNat : Int)))) ∧ t.gaits = s.gaits) ∧
  (∀ (s : State) (f : Func) (n : StallId) (k : Fin 8) (val : Word), admits s f (.ctl n (.trot k)) = true → 66 ≤ (bits val 0 12).toNat →
    ∃ t, exec (.trotDeadlineWrite f n k val) s = .next t ∧
      (getGait t n).deadlines = tabSet (getGait s n).deadlines k.val (bits val 0 12) ∧
      (∀ m, m ≠ n → getGait t m = getGait s m) ∧ Changes [.gaits] s t) ∧
  (∀ (s : State) (f : Func) (n : StallId), admits s f (.ctl n .paceStatus) = true →
    ∃ t, exec (.paceWarnClear f (.stall n)) s = .next t ∧
      (getGait t n).pace = { (getGait s n).pace with warn := false, low := (getGait s n).pace.now } ∧
      (∀ m, m ≠ n → getGait t m = getGait s m) ∧ Changes [.gaits] s t) ∧
  (∀ (s : State) (f : Func), admitsSpine s f (.time .paceStatus) = true →
    ∃ t, exec (.paceWarnClear f .spine) s = .next t ∧ t.spine.pace = { s.spine.pace with warn := false, low := s.spine.pace.now } ∧
      Changes [.spine] s t)

/-- A Trot fork at its latch point and its release (R87, R91 to R94, R232, R233): it latches where its voice holds and the selected successor is
READY, it is late without a token, its release starts the alternate at the anchor plus the
deadline, and a voice that has left its HOLD misses it. -/
def Obligations.TrotForksKeepTheirTime : Prop :=
  (∀ (s : State) (v : VoiceId) (fk : Fork), (getSeq s v).fork = some fk → fk.gait = .trot → fk.latched = false → fk.disarmed = false →
    (getSeq s v).spent = [] →
    ((getSeq s v).state = .hold → fk.chosen = some false ∨ (fk.chosen = some true ∧ altReady (getSeq s v) = true) →
      ∃ t, exec (.trotLatchPoint v) s = .next t ∧ getSeq t v = { getSeq s v with fork := some { fk with latched := true } } ∧
        (∀ w, w ≠ v → getSeq t w = getSeq s w) ∧ Changes [.seqs] s t) ∧
    ((getSeq s v).state = .hold → fk.chosen = none ∨ (fk.chosen = some true ∧ altReady (getSeq s v) = false) →
      ∃ t, exec (.trotLatchPoint v) s = .next t ∧ (getGait t v.stall).late = satInc (getGait s v.stall).late ∧
        (fk.chosen ≠ none → (getSeq t v).fork = some { fk with late := true, latched := true, chosen := some false }) ∧
        Changes [.funcs, .irqs, .stalls, .gaits, .seqs, .chans, .riders, .queues, .feeds] s t) ∧
    ((getSeq s v).state ≠ .hold →
      ∃ t, exec (.trotLatchPoint v) s = .next t ∧ (getSeq t v).missed = satInc (getSeq s v).missed ∧ noted t 0 0x3206 = true ∧
        (fk.chosen ≠ none → (getSeq t v).fork = some { fk with missed := true, latched := true }) ∧ Changes [.funcs, .irqs, .stalls, .gaits, .seqs, .chans, .riders, .queues, .feeds] s t)) ∧
  (∀ (s : State) (v : VoiceId) (fk : Fork), (getSeq s v).fork = some fk → fk.gait = .trot → fk.latched = true → fk.missed = false →
    fk.disarmed = false →
    ((getSeq s v).state ≠ .hold →
      ∃ t, exec (.trotRelease v) s = .next t ∧
        getSeq t v = { getSeq s v with missed := satInc (getSeq s v).missed, fork := some { fk with missed := true, latched := true } } ∧
        noted t 0 0x3206 = true ∧ Changes [.funcs, .seqs, .riders] s t) ∧
    (∀ p : PortSeg, (getSeq s v).state = .hold → fk.chosen = some true → (getSeq s v).alt = some p → p.state = .ready → descKind p.desc = 0 →
      ∃ t, exec (.trotRelease v) s = .next t ∧ (getSeq t v).fork = none ∧ (getSeq t v).state = .play ∧ (getSeq t v).cur = p.idx ∧
        (getSeq t v).desc = p.desc ∧ (getSeq t v).segTime = fk.release ∧ Changes [.funcs, .voices, .seqs, .chans, .units, .riders, .queues, .qdir, .trims, .freeCtr] s t))

/-- The latch point and the release of a Trot fork (R87, R91, R92, R231, R232).  A fork that is on time at its latch point (its voice holds, a token was
consumed, the port that it selects is there) latches, and nothing else changes.  At its release the successor starts at the release time, with the port
that the token chose, the alternate or the primary; where that port is still LOADING the voice waits for it, and the release is owed. -/
def Obligations.TrotForksLatchAndTheirSuccessorsStart : Prop :=
  (∀ (s : State) (v : VoiceId) (fk : Fork), (getSeq s v).fork = some fk → fk.gait = .trot → fk.latched = false → fk.disarmed = false →
    (getSeq s v).spent = [] → (getSeq s v).state = .hold → fk.chosen = some false ∨ (fk.chosen = some true ∧ altReady (getSeq s v) = true) →
    ∃ t, exec (.trotLatchPoint v) s = .next t ∧ (getSeq t v).fork = some { fk with latched := true } ∧
      getSeq t v = { getSeq s v with fork := some { fk with latched := true } } ∧ (∀ w, w ≠ v → getSeq t w = getSeq s w) ∧ Changes [.seqs] s t) ∧
  (∀ (s : State) (v : VoiceId) (fk : Fork) (w : WaitPort) (p : PortSeg), (getSeq s v).fork = some fk → fk.gait = .trot → fk.latched = true →
    fk.missed = false → fk.disarmed = false → (getSeq s v).state = .hold → w = (if fk.chosen = some true then .alternate else .primary) →
    portHead (getSeq s v) w = some p →
    ∃ t, exec (.trotRelease v) s = .next t ∧ (getSeq t v).fork = none ∧ (getSeq t v).segTime = fk.release ∧
      (p.state = .ready → (getSeq t v).cur = p.idx ∧ (getSeq t v).desc = p.desc ∧ (getSeq t v).state = kindState p.desc ∧ (getSeq t v).waitOn = none) ∧
      (p.state = .loading → (getSeq t v).state = .waiting ∧ (getSeq t v).waitOn = some w ∧ (getSeq t v).owed = some fk) ∧
      (∀ x, x ≠ v → getSeq t x = getSeq s x) ∧ Changes [.funcs, .voices, .seqs, .chans, .units, .riders, .queues, .qdir, .trims, .freeCtr] s t)

/-- Loads and checks of an image begin, fail or are ended by ABORT (R136, R144, R145, R149, R156, R157, R701): LOAD_STALL, LOAD_HERD, LOAD_HUB,
CHECK, ABORT and TACK_CHECKS_END, where no image comes from the flash and no bring-up is under way. -/
def Obligations.ImageLoadsBeginAndStop : Prop :=
  (∀ (s : State) (f : Func) (slot : SlotId) (c : Instr) (op : TackOp), admitsSpine s f (.tack .cmd) = true → s.tack.run = none →
    s.power.recovery = false ∨ (∃ n, op = .check n) →
    (c = .loadHerd f slot ∧ op = .loadHerd) ∨ (c = .loadHub f slot ∧ op = .loadHub) ∨ (∃ n, c = .loadStall f n slot ∧ op = .loadStall n) ∨
      (∃ n, c = .check f n slot ∧ op = .check n) →
    ∃ t, exec c s = .next t ∧ t.tack.run = some op ∧ t.tack.slot = slot ∧ t.tack.len = slotLen s slot ∧ t.tack.fits = stateFits op s ∧ t.tack.phase = 1 ∧ t.tack.op = opStart ∧
      t.tack.partialValid = true ∧ t.tack.herdTag = s.tack.herdTag ∧ Changes [.tack] s t) ∧
  (∀ (s : State) (f : Func) (bring : Tab PowerUpFound), admitsSpine s f (.tack .cmd) = true →
    (s.tack.run = none → ∃ t, exec (.abort f bring) s = .next t ∧ t = s) ∧
    (s.tack.run.isSome = true → s.tack.phase < 5 → s.tack.flash = false → s.power.phase ≠ .boot 5 → s.power.bringing = none →
      ∃ t, exec (.abort f bring) s = .next t ∧ t.tack.run = none ∧
        t.tack.op = { state := .aborted, progress := s.tack.op.progress, code := 0x0D55 } ∧ t.tack.partialValid = false ∧
        noted t 0 0x0D55 = true ∧ Changes [.funcs, .irqs, .tack] s t) ∧
    (s.tack.run.isSome = true → 5 ≤ s.tack.phase →
      ∃ t, exec (.abort f bring) s = .next t ∧ t.tack.run = s.tack.run ∧ t.tack.phase = s.tack.phase ∧ (getFunc t f).lastCode = 0x1D56 ∧
        Changes [.funcs, .tack] s t)) ∧
  (∀ (s : State) (op : TackOp) (c : ImageChecks) (bring : Tab PowerUpFound), s.tack.run = some op → s.tack.phase < 5 → s.tack.flash = false →
    s.power.phase ≠ .boot 5 → s.power.bringing = none → checksFit s op c = true →
    (∀ fl, imageFlaw s op c = some fl →
      ∃ t, exec (.tackChecksEnd c bring) s = .next t ∧ t.tack.run = none ∧ t.tack.op.state = .failed ∧ t.tack.op.code = fl.code ∧
        t.tack.faultObj = fl.object ∧ noted t 0 fl.code = true ∧ Changes [.funcs, .irqs, .tack] s t) ∧
    (∀ n, imageFlaw s op c = none → op = .check n →
      ∃ t, exec (.tackChecksEnd c bring) s = .next t ∧ t.tack.run = none ∧ t.tack.op = opDone 0 ∧ Changes [.funcs, .irqs, .tack] s t) ∧
    (∀ n, imageFlaw s op c = none → op = .loadStall n → lifeOf n s ≠ .stabled → lifeOf n s ≠ .harnessed →
      ∃ t, exec (.tackChecksEnd c bring) s = .next t ∧ t.tack.run = none ∧ t.tack.op.state = .failed ∧ t.tack.op.code = 0x1D44 ∧
        noted t 0 0x1D44 = true ∧ Changes [.funcs, .irqs, .tack] s t) ∧
    (∀ n, imageFlaw s op c = none → op = .loadStall n → lifeOf n s = .stabled →
      ∃ t, exec (.tackChecksEnd c bring) s = .next t ∧ t.tack.run = some op ∧ t.tack.phase = 5 ∧ t.tack.op.progress = 600 ∧
        t.tack.body = some c.body ∧ t.tack.header = readHeader s ∧ Changes [.tack] s t) ∧
    (∀ n, imageFlaw s op c = none → op = .loadStall n → lifeOf n s = .harnessed →
      ∃ t, exec (.tackChecksEnd c bring) s = .next t ∧ t.tack.phase = 5 ∧ (getStall t n).life = .stabled ∧ (getStall t n).imageTag = 0 ∧
        hasImage t n = false ∧ (∀ m, m ≠ n → getStall t m = getStall s m)))

/-- Phases 5 and 6 end, and bytes enter a staging slot (R118, R141, R145, R147, R148, R151): LOAD_END and STAGING_SLOT_WRITE. -/
def Obligations.ImageLoadsComplete : Prop :=
  (∀ (s : State) (n : StallId) (i : StallImage) (bring : Tab PowerUpFound), s.tack.run = some (.loadStall n) → s.tack.body = some (.stall i) →
    5 ≤ s.tack.phase → s.tack.flash = false → s.power.phase ≠ .boot 5 → s.power.bringing = none →
    (s.tack.lostTarget = false →
      ∃ t, exec (.loadEnd .good bring) s = .next t ∧ t.tack.run = none ∧ t.tack.phase = 0 ∧ t.tack.op.state = .done ∧
        (getStall t n).life = .harnessed ∧ (getStall t n).imageTag = s.tack.header.tag ∧ imageOf t n = i ∧ hasImage t n = true ∧
        (∀ m, m ≠ n → imageOf t m = imageOf s m ∧ getStall t m = getStall s m) ∧ t.herdImage = s.herdImage ∧ t.hubImage = s.hubImage) ∧
    (s.tack.lostTarget = false →
      ∃ t, exec (.loadEnd .bad bring) s = .next t ∧ t.tack.run = none ∧ t.tack.op.state = .failed ∧ t.tack.op.code = 0x2D54 ∧
        noted t 0 0x2D54 = true ∧ Changes [.funcs, .irqs, .tack] s t) ∧
    (∀ r, s.tack.lostTarget = true →
      ∃ t, exec (.loadEnd r bring) s = .next t ∧ t.tack.run = none ∧ t.tack.op.state = .failed ∧ t.tack.op.code = 0x2D57 ∧
        noted t 0 0x2D57 = true ∧ Changes [.funcs, .irqs, .tack] s t)) ∧
  (∀ (s : State) (i : HerdImage) (bring : Tab PowerUpFound), s.tack.run = some .loadHerd → s.tack.body = some (.herd i) → 5 ≤ s.tack.phase →
    ∃ t, exec (.loadEnd .good bring) s = .next t ∧ t.herdImage = some i ∧ t.hubImage = some i.hub ∧ t.tack.herdTag = s.tack.header.tag ∧
      t.tack.herdDigest = s.tack.digest ∧ Changes [.funcs, .irqs, .power, .backup, .persist, .tack, .spine, .herdImage, .hubImage, .stallImages, .stalls, .gaits, .slices, .acqs, .voices, .seqs, .chans, .units, .nodes, .cells, .books, .flights, .nextFlight, .hub, .riders, .lines, .fasts, .groups, .queues, .qdir, .farriers, .trims, .lanes, .tether, .tc, .pulses, .watches, .hks, .hkCtl, .hbm, .library, .descs, .kernels, .store, .held, .latched] s t) ∧
  (∀ (s : State) (f : Func) (addr : BitVec 36) (bytes : List Byte) (k : SlotId), slotOf addr.toNat = some k →
    addr.toNat + bytes.length ≤ (k.val + 1) * 0x4000000 → bytes ≠ [] →
    hostReach s f = true →
    (slotRead s k = false →
      ∃ t, exec (.stagingSlotWrite f addr bytes) s = .next t ∧ t.hbm = memWrite 0 s.hbm addr.toNat bytes ∧
        (∀ j, j < bytes.length → tabGet 0 t.hbm (addr.toNat + j) = bytes.getD j 0) ∧
        (∀ a, a < addr.toNat ∨ addr.toNat + bytes.length ≤ a → tabGet 0 t.hbm a = tabGet 0 s.hbm a) ∧ Changes [.tack, .hbm] s t) ∧
    (slotRead s k = true →
      ∃ t, exec (.stagingSlotWrite f addr bytes) s = .next t ∧ (getFunc t f).lastCode = 0x1D5A ∧ noted t 0 0x1D5A = true ∧
        Changes [.funcs] s t))

/-- Tuning of a voice (R161, R167 to R169, R178): what a write makes pending, and what takes effect when the voice is not playing; a write that found
the element of the voice held (R706) counts in contend. -/
def Obligations.VoiceTuningIsPendingUntilItTakesEffect : Prop :=
  (∀ (s : State) (f : Func) (v : VoiceId) (val : Word), admits s f (.voice v .ftwLo) = true →
    ∃ t, exec (.ftwLoWrite f v val) s = .next t ∧ getVoice t v = { getVoice s v with ftwLo := some val } ∧
      (∀ w, w ≠ v → getVoice t w = getVoice s w) ∧ Changes [.voices] s t) ∧
  (∀ (s : State) (f : Func) (v : VoiceId) (val : Word) (g : Grant), admits s f (.voice v .ftwHi) = true → bit val 15 = false →
    ∃ t, exec (.ftwHiWrite f v val g) s = .next t ∧ (getVoice t v).contend = (if g = .held then satInc (getVoice s v).contend else (getVoice s v).contend) ∧ (getVoice t v).tune = (getVoice s v).tune ∧ (getVoice t v).ftwLo = none ∧
      (getVoice t v).pend = { (getVoice s v).pend with
        ftw := some (bits val 0 16 ++ ((getVoice s v).ftwLo.getD (bits (getVoice s v).tune.ftw 0 32))) } ∧
      (∀ w, w ≠ v → getVoice t w = getVoice s w) ∧ Changes [.voices] s t) ∧
  (∀ (s : State) (f : Func) (v : VoiceId) (val : Word) (g : Grant), admits s f (.voice v .ftwHi) = true → bit val 15 = true →
    ∃ t, exec (.ftwHiWrite f v val g) s = .next t ∧
      t = refuseReg f (.voice v .ftwHi) (if v.probe then 0x1131 else 0x1121) (if g = .held then countVoice v s else s) ∧
      (getFunc t f).lastCode = (if v.probe then 0x1131 else 0x1121) ∧ Changes [.funcs, .voices] s t) ∧
  (∀ (s : State) (f : Func) (v : VoiceId) (reg : TuneReg) (val : Word) (g : Grant), admits s f (.voice v (tuneReg reg)) = true →
    ∃ t, exec (.voiceTuningWrite f v reg val g) s = .next t ∧
      getVoice t v = { getVoice s v with
        pend := setPending reg val (getVoice s v).pend, contend := if g = .held then satInc (getVoice s v).contend else (getVoice s v).contend } ∧
      (∀ w, w ≠ v → getVoice t w = getVoice s w) ∧ Changes [.voices] s t) ∧
  (∀ (s : State) (v : VoiceId), playing s v = false →
    ∃ t, exec (.tuningTakesEffect v) s = .next t ∧ (getVoice t v).pend = {} ∧
      getVoice t v = { applyTuning (getVoice s v) with was := (getVoice t v).was } ∧
      (∀ w, w ≠ v → getVoice t w = getVoice s w) ∧ Changes [.voices, .chans, .units, .riders, .trims] s t) ∧
  (∀ (s : State) (f : Func) (v : VoiceId) (val : Word) (g : Grant), admits s f (.voice v .delay) = true →
    ∃ t, exec (.delayWrite f v val g) s = .next t ∧ getVoice t v = { getVoice s v with
        pendDelay := some (bits val 0 9), contend := if g = .held then satInc (getVoice s v).contend else (getVoice s v).contend } ∧
      (∀ w, w ≠ v → getVoice t w = getVoice s w) ∧ Changes [.voices] s t) ∧
  (∀ (s : State) (v : VoiceId), playing s v = false → quietFor fineBeat (getVoice s v).playedTo s = true →
    ∃ t, exec (.delayTakesEffect v) s = .next t ∧
      getVoice t v = { getVoice s v with
        delay := (getVoice s v).pendDelay.getD (getVoice s v).delay, pendDelay := none
        trim := (getVoice s v).pendTrim.getD (getVoice s v).trim, pendTrim := none } ∧
      (∀ w, w ≠ v → getVoice t w = getVoice s w) ∧ Changes [.voices] s t)

/-- The output path of a drive or probe slice (R172 to R174, R189 to R194, Table 04-2): the sum guard, SL_CTL, the attenuator, the output switch. -/
def Obligations.SliceOutputsFollowTheirRules : Prop :=
  (∀ (s : State) (i j : SliceId) (k : Fin 16) (n : Nat), i.wf = true → i.kind ≠ .acq → logical s i = some j →
    n = beatNow s / 16 + k.val →
    (clips s j n = true →
      ∃ t, exec (.sumGuardClip i k) s = .next t ∧ (getSlice t j).clipped = satInc (getSlice s j).clipped ∧
        (getSlice t j).guardHit = true ∧
        (getSlice t j).guardTime = (if (getSlice s j).guardHit then (getSlice s j).guardTime else n * 16) ∧
        (getSlice t j).port = (getSlice s j).port ∧ (∀ x, sliceKey x ≠ sliceKey j → getSlice t x = getSlice s x) ∧
        Changes [.funcs, .irqs, .slices, .riders] s t) ∧
    (clips s j n = false → exec (.sumGuardClip i k) s = .next s)) ∧
  (∀ (s : State) (f : Func) (i : SliceId), i.wf = true → i.kind ≠ .acq → isSpare i = false → admits s f (sliceReg i .status) = true →
    ∃ t, exec (.guardHitClear f i) s = .next t ∧ getSlice t i = { getSlice s i with guardHit := false } ∧ Changes [.slices] s t) ∧
  (∀ (s : State) (f : Func) (i : SliceId), i.wf = true → i.kind ≠ .acq → isSpare i = true → admits s f (sliceReg i .status) = true →
    ∀ val, exec (.guardHitClear f i) s = .next s ∧ (admits s f (sliceReg i .ctl) = true → exec (.slCtlWrite f i val) s = .next s)) ∧
  (∀ (s : State) (f : Func) (i : SliceId) (val : Word), i.wf = true → i.kind ≠ .acq → isSpare i = false →
    admits s f (sliceReg i .ctl) = true →
    ∃ t, exec (.slCtlWrite f i val) s = .next t ∧ (getSlice t i).portEn = bit val 24 ∧ (getSlice t i).attenPend = some (bits val 16 5) ∧
      (getSlice t i).scale = bits val 0 16 ∧ (getSlice t i).atten = (getSlice s i).atten ∧
      (bit val 24 = false → (getSlice t i).port = .terminated) ∧
      (bit val 24 = true → lifeOf i.stall s = .riding → (getSlice s i).port = .terminated → (getSlice s i).fault = false →
        (getStall s i.stall).factoryHold = false → (getSlice t i).port = .opening) ∧
      (bit val 24 = true → lifeOf i.stall s ≠ .riding → (getSlice t i).port = (getSlice s i).port) ∧ Changes [.slices] s t) ∧
  (∀ (s : State) (i : SliceId), i.wf = true → i.kind ≠ .acq → (getSlice s i).port = .terminated ∨ voicesSilent s i = true →
    ∃ t, exec (.attenTakesEffect i) s = .next t ∧
      getSlice t i = { getSlice s i with atten := (getSlice s i).attenPend.getD (getSlice s i).atten, attenPend := none } ∧
      Changes [.slices] s t) ∧
  (∀ (s : State) (i : SliceId), i.wf = true → i.kind ≠ .acq → (getSlice s i).port = .opening →
    ∃ t, exec (.portOpenTimer i) s = .next t ∧ getSlice t i = { getSlice s i with port := .open_, portAt := s.clock.now } ∧
      Changes [.slices] s t) ∧
  (∀ (s : State) (i : SliceId), i.wf = true → i.kind ≠ .acq → lifeOf i.stall s ≠ .off → (getSlice s i).port = .terminated →
    ∃ t, exec (.switchReadbackMismatch i) s = .next t ∧ (getSlice t i).port = .terminated ∧ (getSlice t i).fault = true ∧
      Changes [.funcs, .irqs, .stalls, .slices, .acqs, .chans, .units, .riders, .farriers, .hbm] s t)

/-- The host's posts to a voice (R208, R217, R220 to R227): each one that postCode does not refuse changes its ports and
selections alone, and one that it refuses changes nothing but the record of the refusal.  One that found the voice's element held (R706) has counted in its
contend. -/
def Obligations.PostsReachTheSequencer : Prop :=
  ∀ (s : State) (f : Func) (v : VoiceId) (desc : Word) (g : Grant) (u : State), u = (if g = .held then countVoice v s else s) → admits s f (.seq v .post) = true →
    (postCode s v (.start (postDesc desc) (getSeq s v).startReg) = none →
      ∃ t, exec (.voiceStart f v desc g) s = .next t ∧
        getSeq t v = { getSeq s v with
          start := some (postDesc desc, schedToFine (getSeq s v).startReg)
          prim := [{ idx := postDesc desc, desc := 0, state := .loading }], primEmpty := false } ∧
        (∀ w, w ≠ v → getSeq t w = getSeq s w) ∧ Changes [.seqs] u t) ∧
    (postCode s v (.loadAlt (postDesc desc)) = none →
      ∃ t, exec (.loadAlt f v desc g) s = .next t ∧
        getSeq t v = { getSeq s v with alt := some { idx := postDesc desc, desc := 0, state := .loading } } ∧
        (∀ w, w ≠ v → getSeq t w = getSeq s w) ∧ Changes [.seqs] u t) ∧
    (postCode s v .selectAlt = none → (getSeq s v).committed = false → (getSeq s v).sel = none →
      ∃ t, exec (.selectAlt f v g) s = .next t ∧ getSeq t v = { getSeq s v with sel := some (.alt, false), selAt := s.clock.sched } ∧
        (∀ w, w ≠ v → getSeq t w = getSeq s w) ∧ Changes [.seqs] u t) ∧
    (postCode s v .selectAlt = none → (getSeq s v).committed = true →
      ∃ t, exec (.selectAlt f v g) s = .next t ∧
        getSeq t v = { getSeq s v with later := (getSeq s v).later ++ [.alt], late := satInc (getSeq s v).late } ∧
        noted t 0 0x0201 = true ∧ (∀ w, w ≠ v → getSeq t w = getSeq s w) ∧ Changes [.funcs, .seqs] u t) ∧
    (postCode s v (.branch (postDesc desc)) = none → (getSeq s v).committed = false → (getSeq s v).sel = none →
      ∃ t, exec (.branch f v desc g) s = .next t ∧
        getSeq t v = { getSeq s v with
          sel := some (.branch (getSeq s v).nextBranch, false), selAt := s.clock.sched, nextBranch := (getSeq s v).nextBranch + 1
          branches := tabSet (getSeq s v).branches (getSeq s v).nextBranch { idx := postDesc desc, desc := 0, state := .loading } } ∧
        (∀ w, w ≠ v → getSeq t w = getSeq s w) ∧ Changes [.seqs] u t) ∧
    (postCode s v .break_ = none → (getSeq s v).state = .hold → (getSeq s v).committed = false → (getSeq s v).sel = none →
      ∃ t, exec (.break_ f v g) s = .next t ∧ getSeq t v = { getSeq s v with sel := some (.break_, false), selAt := s.clock.sched } ∧
        (∀ w, w ≠ v → getSeq t w = getSeq s w) ∧ Changes [.seqs] u t) ∧
    (postCode s v .stop = none → (getSeq s v).committed = false → (getSeq s v).sel = none →
      ∃ t, exec (.stop f v g) s = .next t ∧ getSeq t v = { getSeq s v with sel := some (.stop, false), selAt := s.clock.sched } ∧
        (∀ w, w ≠ v → getSeq t w = getSeq s w) ∧ Changes [.seqs] u t) ∧
    (postCode s v .stop = none → (getSeq s v).committed = false → (getSeq s v).sel.isSome = true →
      ∃ t, exec (.stop f v g) s = .next t ∧ getSeq t v = { getSeq s v with later := (getSeq s v).later ++ [.stop] } ∧
        (getVoice t v).contend = satInc (getVoice u v).contend ∧ Changes [.seqs, .voices] u t) ∧
    (∀ (c : Instr) (p : Post), (c = .voiceStart f v desc g ∧ p = .start (postDesc desc) (getSeq s v).startReg) ∨
        (c = .loadAlt f v desc g ∧ p = .loadAlt (postDesc desc)) ∨ (c = .selectAlt f v g ∧ p = .selectAlt) ∨
        (c = .branch f v desc g ∧ p = .branch (postDesc desc)) ∨ (c = .break_ f v g ∧ p = .break_) ∨ (c = .stop f v g ∧ p = .stop) →
      ∀ code, postCode s v p = some code →
        ∃ t, exec c s = .next t ∧ (getFunc t f).lastCode = code ∧ noted t 0 code = true ∧ Changes [.funcs] u t)

/-- The instants of a play (R205, R208 to R215, R222): PLAY_START, DESCRIPTOR_LOAD_DONE, COMMIT_POINT, REPETITION_BOUNDARY and
SEGMENT_BOUNDARY, for PLAY segments. -/
def Obligations.PlaysStartRepeatAndEnd : Prop :=
  (∀ (s : State) (v : VoiceId) (d : BitVec 13) (t0 : Fine) (p : PortSeg) (rest : List PortSeg), (getSeq s v).start = some (d, t0) →
    (getSeq s v).state = .idle → (getSeq s v).prim = p :: rest → p.state = .ready → descKind p.desc = 0 →
    ∃ t, exec (.playStart v) s = .next t ∧ (getSeq t v).state = .play ∧ (getSeq t v).cur = p.idx ∧ (getSeq t v).desc = p.desc ∧
      (getSeq t v).segTime = t0 / fineBeat * fineBeat ∧ (getSeq t v).startOff = BitVec.ofNat 8 (t0 % fineBeat) ∧
      (getSeq t v).start = none ∧ (getVoice t v).pend = {} ∧ Changes [.voices, .seqs, .chans, .units, .riders, .trims] s t) ∧
  (∀ (s : State) (v : VoiceId) (p : PortSeg), (getSeq s v).alt = some p → p.state = .loading → (getSeq s v).state ≠ .waiting →
    (altCheck s v p.idx (descAt s v.stall p.idx) = none →
      ∃ t, exec (.descriptorLoadDone v .alternate) s = .next t ∧
        getSeq t v = { getSeq s v with alt := some (loaded s v.stall (descAt s v.stall p.idx) p) } ∧
        (∀ w, w ≠ v → getSeq t w = getSeq s w) ∧ Changes [.seqs] s t) ∧
    (∀ c, altCheck s v p.idx (descAt s v.stall p.idx) = some c →
      ∃ t, exec (.descriptorLoadDone v .alternate) s = .next t ∧ getSeq t v = { getSeq s v with alt := none } ∧ noted t 0 c = true ∧
        (∀ w, w ≠ v → getSeq t w = getSeq s w) ∧ Changes [.funcs, .seqs] s t)) ∧
  (∀ (s : State) (v : VoiceId), (getSeq s v).state = .play → (getSeq s v).committed = false → (getSeq s v).sel = none →
    ∃ t, exec (.commitPoint v) s = .next t ∧ getSeq t v = { getSeq s v with committed := true } ∧
      (∀ w, w ≠ v → getSeq t w = getSeq s w) ∧ Changes [.seqs] s t) ∧
  (∀ (s : State) (v : VoiceId), (getSeq s v).state = .play → (getSeq s v).rep.toNat < descRepeat (getSeq s v).desc →
    descKind (getSeq s v).desc = 0 → (getSeq s v).brkAt = none →
    ∃ t, exec (.repetitionBoundary v) s = .next t ∧ getSeq t v = { getSeq s v with rep := (getSeq s v).rep + 1, beat := 0 } ∧
      (getVoice t v).pend = {} ∧ (∀ w, w ≠ v → getSeq t w = getSeq s w) ∧ Changes [.voices, .seqs, .chans, .units, .riders, .trims] s t) ∧
  (∀ (s : State) (v : VoiceId), (getSeq s v).state = .play → (getSeq s v).committed = true → (getSeq s v).fork = none →
    (getSeq s v).sel = none →
    (descStop (getSeq s v).desc = true →
      ∃ t, exec (.segmentBoundary v) s = .next t ∧ (getSeq t v).state = .idle ∧ (getSeq t v).prim = [] ∧ (getSeq t v).alt = none ∧
        Changes [.seqs] s t) ∧
    (∀ (p : PortSeg) (rest : List PortSeg) (n : Nat), descStop (getSeq s v).desc = false → (getSeq s v).prim = p :: rest → p.state = .ready →
      descKind p.desc = 0 → segEnd (getSeq s v) = some n →
      ∃ t, exec (.segmentBoundary v) s = .next t ∧ (getSeq t v).state = .play ∧ (getSeq t v).cur = p.idx ∧ (getSeq t v).desc = p.desc ∧
        (getSeq t v).segTime = (getSeq s v).segTime + n * fineBeat ∧ (getSeq t v).rep = 0 ∧ Changes [.voices, .seqs, .chans, .units, .riders, .trims] s t))

/-- Streams and the page window (R204, R205, R240, R241): an underrun marks the voice, a resume that finds a word and no backlog, on a queue that no
audit holds, ends it, and a window write reaches one library word or one descriptor word. -/
def Obligations.StreamsAndThePageWindow : Prop :=
  (∀ (s : State) (v : VoiceId), (getSeq s v).state = .stream → (getSeq s v).under = false → (getSeq s v).play.words = [] →
    ∃ t, exec (.streamUnderrun v) s = .next t ∧ getSeq t v = { getSeq s v with under := true, events := satInc (getSeq s v).events } ∧
      noted t 0 0x3205 = true ∧ (∀ w, w ≠ v → getSeq t w = getSeq s w) ∧ Changes [.funcs, .seqs, .riders] s t) ∧
  (∀ (s u : State) (v : VoiceId) (w : QWord), (getSeq s v).state = .stream → (getSeq s v).under = true → (getSeq s v).backlog = [] →
    (getSeq s v).ahead = none → (getSeq s v).play.words = [] → 0 < (getSeq s v).play.toTake →
    (queueAlloc s (getSeq s v).play.queue).bind (·.consumer) = some (.voice v) → queueHeld s (getSeq s v).play.queue = false →
    takeWord (getSeq s v).play.queue s = some (w, u) →
    ∃ t, exec (.streamResume v) s = .next t ∧ (getSeq t v).under = false ∧ (getSeq t v).play.words.head? = some w.word ∧
      Changes [.seqs, .queues, .qdir] s t) ∧
  (∀ (s : State) (f : Func) (n : StallId) (w : Fin 2097152) (val : Word), admits s f (.env n w) = true →
    (∀ k, envPlace (getStall s n).envPage w.val = .library k → mayAct f (blockOwner s n (k / 16384)) = true →
      ∃ t, exec (.envelopeWindowWrite f n w val) s = .next t ∧ tabGet 0 t.library (libraryKey n k) = val ∧
        (∀ j, j ≠ libraryKey n k → tabGet 0 t.library j = tabGet 0 s.library j) ∧ Changes [.library] s t) ∧
    (∀ k, envPlace (getStall s n).envPage w.val = .desc k → mayAct f (tabGet 0 (imageOf s n).groups (k / 256)) = true →
      ∃ t, exec (.envelopeWindowWrite f n w val) s = .next t ∧ tabGet 0 t.descs (n.val * 32768 + k) = val ∧
        (∀ j, j ≠ n.val * 32768 + k → tabGet 0 t.descs j = tabGet 0 s.descs j) ∧ Changes [.descs] s t))

/-- The settings of the readout (R250, R253, R255, R264 to R266, R271, R272): what AS_CTL_WRITE, RANGE_TAKES_EFFECT, CH_CTL_WRITE,
FILTER_TAKES_EFFECT, STAGED_SET_WRITE, CH_COMMIT and KERNEL_WINDOW_WRITE change. -/
def Obligations.ReadoutSettingsWaitForTheirInstant : Prop :=
  (∀ (s : State) (f : Func) (n : StallId) (k : Fin 5) (val : Word), k.val ≠ 4 → admits s f (.acq n k .ctl) = true →
    ∃ t, exec (.asCtlWrite f n k val) s = .next t ∧ getAcq t n k = { getAcq s n k with range := bits val 16 2 } ∧
      (∀ m j, (m, j) ≠ (n, k) → getAcq t m j = getAcq s m j) ∧ Changes [.acqs] s t) ∧
  (∀ (s : State) (f : Func) (n : StallId) (val : Word), admits s f (.acq n 4 .ctl) = true → exec (.asCtlWrite f n 4 val) s = .next s) ∧
  (∀ (s : State) (n : StallId) (k j : Fin 5), logicalAcq s n k = some j → (getAcq s n j).range ≠ (getAcq s n j).inForce →
    (∀ c ∈ boundChans s n j, (getChan s c).win = none) → unitsOn s n j = [] →
    ∃ t, exec (.rangeTakesEffect n k) s = .next t ∧ getAcq t n j = { getAcq s n j with inForce := (getAcq s n j).range } ∧
      (∀ c, (getChan t c).enable = (getChan s c).enable ∧ (getChan t c).planes = (getChan s c).planes) ∧ Changes [.acqs, .chans, .units, .riders] s t) ∧
  (∀ (s : State) (f : Func) (c : ChanId) (val : Word), admits s f (.chan c .ctl) = true →
    (bits val 8 2 ≠ (3 : BitVec 2) →
      ∃ t, exec (.chCtlWrite f c val) s = .next t ∧ getChan t c = { getChan s c with filter := bits val 8 2, enable := bit val 0 } ∧
        (∀ d, d ≠ c → getChan t d = getChan s d) ∧ Changes [.chans] s t) ∧
    (bits val 8 2 = (3 : BitVec 2) →
      ∃ t, exec (.chCtlWrite f c val) s = .next t ∧ (getFunc t f).lastCode = 0x1311 ∧ noted t 0 0x1311 = true ∧ Changes [.funcs] s t)) ∧
  (∀ (s : State) (c : ChanId), (getChan s c).filter ≠ (getChan s c).filterOn → (getChan s c).win = none →
    ∃ t, exec (.filterTakesEffect c) s = .next t ∧ (getChan t c).filterOn = (getChan s c).filter ∧
      (getChan t c).planes = (getChan s c).planes ∧ (∀ d, d ≠ c → getChan t d = getChan s d) ∧ Changes [.chans, .units, .riders] s t) ∧
  (∀ (s : State) (f : Func) (c : ChanId) (reg : StagedReg) (val : Word), admits s f (.chan c (stagedReg reg)) = true →
    stagedCode s c reg val = none →
    ∃ t, exec (.stagedSetWrite f c reg val) s = .next t ∧ getChan t c = stageWrite reg val (getChan s c) ∧
      (getChan t c).ints = (getChan s c).ints ∧ (getChan t c).planes = (getChan s c).planes ∧
      (∀ d, d ≠ c → getChan t d = getChan s d) ∧ Changes [.chans] s t) ∧
  (∀ (s : State) (f : Func) (c : ChanId), admits s f (.chan c .commit) = true →
    ∃ t, exec (.chCommit f c) s = .next t ∧ (getChan t c).pendInt = some (getChan s c).stagedInt ∧
      (getChan t c).pendPlane = (if farrierOwns s c then (getChan s c).pendPlane else some (getChan s c).stagedPlane) ∧
      (getChan t c).ints = (getChan s c).ints ∧ (getChan t c).planes = (getChan s c).planes ∧
      (∀ d, d ≠ c → getChan t d = getChan s d) ∧ Changes [.chans] s t) ∧
  (∀ (s : State) (f : Func) (n : StallId) (k : Fin 4096) (val : Word), admits s f (.kernelTap n k) = true →
    kernelCode s f ⟨n, (getStall s n).kernelChan⟩ (getStall s n).kernelBank = none →
    ∃ t, exec (.kernelWindowWrite f n k val) s = .next t ∧
      tabGet 0 t.kernels (kernelKey ⟨n, (getStall s n).kernelChan⟩ (getStall s n).kernelBank k.val) = val ∧
      (∀ j, j ≠ kernelKey ⟨n, (getStall s n).kernelChan⟩ (getStall s n).kernelBank k.val → tabGet 0 t.kernels j = tabGet 0 s.kernels j) ∧
      Changes [.kernels] s t)

/-- Windows (R251, R258 to R277): WINDOW_START takes the pending sets, ADC_FULL_SCALE_CODE marks the windows open, and WINDOW_DECISION closes its
window with the state, the quality and the saturation that R265 to R270 give its samples. -/
def Obligations.WindowsOpenAndDecide : Prop :=
  (∀ (s : State) (c : ChanId) (q : OpenReq), (getChan s c).win = none → (getChan s c).latch = some q → nodeActive s c.stall = true →
    ∃ t, exec (.windowStart c) s = .next t ∧ (getChan t c).latch = none ∧ (getChan t c).pendInt = none ∧ (getChan t c).pendPlane = none ∧
      (getChan t c).ints = (getChan s c).pendInt.getD (getChan s c).ints ∧
      (getChan t c).planes = (getChan s c).pendPlane.getD (getChan s c).planes ∧
      (∃ w, (getChan t c).win = some w ∧ w.start = q.start ∧ w.len = q.len ∧ w.rider = q.rider ∧ w.shot = q.shot ∧ w.lateOpen = q.late ∧
        w.ints = (getChan t c).ints ∧ w.planes = (getChan t c).planes) ∧
      (q.late = true → (∀ u : UnitId, u.stall = c.stall → (getUnit s u).armed = false) → noted t 0 0x3310 = true) ∧ Changes [.funcs, .chans, .units, .riders] s t) ∧
  (∀ (s : State) (n : StallId) (k j : Fin 5) (sample : Nat), logicalAcq s n k = some j →
    ∃ t, exec (.adcFullScaleCode n k sample) s = .next t ∧
      getAcq t n j = { getAcq s n j with ovr := satInc (getAcq s n j).ovr, ovrHit := true } ∧
      (∀ c ∈ boundChans s n j, ∀ w, (getChan s c).win = some w →
        (containsFrame w (sample / 64) = true → w.full = false → (getChan t c).win = some { w with ovr := true, full := true }) ∧
        (containsFrame w (sample / 64) = false ∨ w.full = true → (getChan t c).win = some w)) ∧ Changes [.funcs, .acqs, .chans, .units, .riders] s t) ∧
  (∀ (s : State) (c : ChanId) (sig : Signal) (w : Window), (getChan s c).win = some w →
    ∃ t, exec (.windowDecision c sig) s = .next t ∧ (getChan t c).win = none ∧ (getChan t c).latch = (getChan s c).latch ∧
      (getChan t c).windows = satInc (getChan s c).windows ∧ (getChan t c).last.valid = true ∧
      (getChan t c).last.invalid = windowInvalid w false ∧
      (getChan t c).invalid = (if windowInvalid w false then satInc (getChan s c).invalid else (getChan s c).invalid) ∧
      (∀ re im, integrate s c w sig w.len = (re, im) →
        (getChan t c).last.state = stateOf w.planes (sideBits w.planes (sat32 (re / 2 ^ w.ints.shift.toNat)).1.toInt
          (sat32 (im / 2 ^ w.ints.shift.toNat)).1.toInt) ∧
        (getChan t c).last.quality = qualityOf w.planes (sat32 (re / 2 ^ w.ints.shift.toNat)).1.toInt
          (sat32 (im / 2 ^ w.ints.shift.toNat)).1.toInt ∧
        ((getChan t c).last.sat = ((sat32 (re / 2 ^ w.ints.shift.toNat)).2 || (sat32 (im / 2 ^ w.ints.shift.toNat)).2))) ∧
      (∀ d, d ≠ c → getChan t d = getChan s d) ∧ Changes [.funcs, .chans, .nodes, .books, .flights, .nextFlight, .hub, .riders, .queues, .farriers, .freeCtr] s t)

/-- A capture unit from ARM to RELEASE (R293, R296, R298 to R302, R310, R313, R316): ARM, DISARM, RELEASE, RECORD_END and TU_RD_WRITE. -/
def Obligations.CapturesAreArmedAndEnd : Prop :=
  (∀ (s : State) (f : Func) (u : UnitId), admits s f (unitReg u .cmd) = true →
    (armCode f u s = none →
      ∃ t, exec (.arm f u) s = .next t ∧ (getUnit t u).armed = true ∧ (getUnit t u).arm = (getUnit s u).cfg ∧
        (getUnit t u).owner = some f.owner ∧ (getUnit t u).op = opStart ∧ (getUnit t u).records = 0 ∧
        (getUnit t u).ringBytes = (getUnit s u).cfg.ringMib.toNat * 1048576 ∧ (getUnit t u).wr = 0 ∧ (getUnit t u).rd = 0 ∧
        (getUnit t u).used = 0 ∧ (∀ w, w ≠ u → getUnit t w = getUnit s w) ∧ Changes [.units, .qdir] s t) ∧
    (∀ c, armCode f u s = some c →
      ∃ t, exec (.arm f u) s = .next t ∧ getUnit t u = { getUnit s u with op := opRefuse c (getUnit s u).op } ∧
        (getFunc t f).lastCode = c ∧ noted t 0 c = true ∧ (∀ w, w ≠ u → getUnit t w = getUnit s w) ∧ Changes [.funcs, .units] s t) ∧
    ((getUnit s u).armed = false → exec (.disarm f u) s = .next s) ∧
    ((getUnit s u).armed = true →
      ∃ t, exec (.disarm f u) s = .next t ∧ (getUnit t u).armed = false ∧ (getUnit t u).op.state = .aborted ∧
        (getUnit t u).op.code = 0x0401 ∧ noted t 0 0x0401 = true ∧ (getUnit t u).record = none ∧
        ((getUnit s u).gap = none ∨ (getUnit s u).used + 64 ≤ (getUnit s u).ringBytes → (getUnit t u).gap = none) ∧
        (getUnit t u).records = (getUnit s u).records + (if (getUnit s u).record.isSome then 1 else 0) ∧
        (getUnit t u).ringBytes = (getUnit s u).ringBytes ∧ (∀ w, w ≠ u → getUnit t w = getUnit s w) ∧ Changes [.funcs, .units, .hbm] s t) ∧
    ((getUnit s u).armed = false → (getUnit s u).ringBytes ≠ 0 →
      ∃ t, exec (.release f u) s = .next t ∧ (getUnit t u).ringBytes = 0 ∧ (getUnit t u).owner = none ∧
        (∀ a, pageAddr (getUnit s u).ringPage ≤ a → a < pageAddr (getUnit s u).ringPage + (getUnit s u).ringBytes → tabGet 0 t.hbm a = 0) ∧
        (∀ a, a < pageAddr (getUnit s u).ringPage ∨ pageAddr (getUnit s u).ringPage + (getUnit s u).ringBytes ≤ a →
          tabGet 0 t.hbm a = tabGet 0 s.hbm a) ∧
        (∀ w, w ≠ u → getUnit t w = getUnit s w) ∧ Changes [.units, .qdir, .hbm] s t)) ∧
  (∀ (s : State) (u : UnitId) (sig : Signal) (r : Record), (getUnit s u).record = some r →
    ∃ t, exec (.recordEnd u sig) s = .next t ∧ (getUnit t u).records = (getUnit s u).records + 1 ∧
      ((getUnit s u).arm.recCount ≠ 0 → (getUnit s u).arm.recCount.toNat ≤ (getUnit s u).records + 1 →
        (getUnit t u).armed = false ∧ (getUnit t u).op = opDone 0 ∧ (getUnit t u).record = none) ∧
      ((getUnit s u).arm.recCount = 0 → (getUnit t u).armed = (getUnit s u).armed) ∧
      (∀ w, w ≠ u → getUnit t w = getUnit s w) ∧ Changes [.funcs, .units, .hbm] s t) ∧
  (∀ (s : State) (f : Func) (u : UnitId) (val : Word), admits s f (unitReg u .rd) = true → rdCode u val s = none →
    (getUnit s u).armed = true ∨ (getUnit s u).gap = none →
    ∃ t, exec (.tuRdWrite f u val) s = .next t ∧ (getUnit t u).rd = val.toNat ∧
      (getUnit t u).used = (getUnit s u).used - rdAdvance (getUnit s u) val ∧ (getUnit t u).wr = (getUnit s u).wr ∧
      (∀ w, w ≠ u → getUnit t w = getUnit s w) ∧ Changes [.funcs, .units, .hbm] s t)

/-- Triggers, hobbles and gaps of a capture unit (R304 to R318): FORCE, LEVEL_CROSSING, SCHEDULE_TIME_TRIGGER, HOBBLE_END, STORAGE_BEHIND and
STORAGE_RECOVERED. -/
def Obligations.TriggersAndGapsOfACapture : Prop :=
  (∀ (s : State) (f : Func) (u : UnitId) (tr : Trigger), admits s f (unitReg u .cmd) = true → tr = { frame := frameNow s + 1, force := true } →
    ((getUnit s u).armed = true →
      ∃ t, exec (.force f u) s = .next t ∧ getUnit t u = { getUnit s u with waiting := insertTrigger tr (getUnit s u).waiting } ∧
        (∀ w, w ≠ u → getUnit t w = getUnit s w) ∧ Changes [.units] s t) ∧
    ((getUnit s u).armed = false → ∃ t, exec (.force f u) s = .next t ∧ ∀ w, getUnit t w = getUnit s w)) ∧
  (∀ (s : State) (u : UnitId) (tr : Trigger), (getUnit s u).waiting = [tr] → tr.frame * fineFrame ≤ s.clock.sched →
    takesTrigger (getUnit s u) tr = true → (getUnit s u).arm.continuous = false →
    ∃ r, (getUnit (dueTriggers u s) u).record = some r ∧ r.trigFrame = tr.frame ∧ r.trigPos = tr.pos ∧ r.force = tr.force ∧
      (getUnit (dueTriggers u s) u).waiting = [] ∧ (∀ w, w ≠ u → getUnit (dueTriggers u s) w = getUnit s w)) ∧
  (∀ (s : State) (u : UnitId) (sample pos : Nat) (sig : Signal) (tr : Trigger), (getUnit s u).armed = true → (getUnit s u).arm.trigSrc = 1 →
    (getUnit s u).arm.continuous = false → risesAt s u sig sample = true ∨ fallsAt s u sig sample = true →
    pos = (if (getUnit s u).arm.decimated then
        sample * 4096 + crossingF (getUnit s u).arm.level.toInt (levelSample s u sig sample) (levelSample s u sig (sample + 1)) * 64
      else sample * 64 + crossingF (getUnit s u).arm.level.toInt (levelSample s u sig sample) (levelSample s u sig (sample + 1))) →
    tr = { frame := pos / 4096, pos := pos % 4096, interp := true } → tr.frame * fineFrame ≤ s.clock.sched →
    (takesTrigger (getUnit s u) tr = true →
      ∃ t r, exec (.levelCrossing u sample sig) s = .next t ∧ (getUnit t u).record = some r ∧ r.trigFrame = pos / 4096 ∧
        r.trigPos = pos % 4096 ∧ r.interp = true ∧ r.force = false ∧ (∀ w, w ≠ u → getUnit t w = getUnit s w) ∧ Changes [.units] s t) ∧
    (∀ r, (getUnit s u).record = some r → (getUnit s u).gap = none → (getUnit s u).hobble = .none →
      (getUnit s u).lastTrig ≠ some (trigKey tr) →
      preFull (getUnit s u) ≤ trigFine tr / interval (getUnit s u).arm →
      ∃ t, exec (.levelCrossing u sample sig) s = .next t ∧ (getUnit t u).busy = satInc (getUnit s u).busy ∧ (getUnit t u).record = some r ∧
        (∀ w, w ≠ u → getUnit t w = getUnit s w) ∧ Changes [.units] s t)) ∧
  (∀ (s : State) (u : UnitId) (tr : Trigger), (getUnit s u).arm.trigSrc = 4 → (getUnit s u).fired = false →
    tr = { frame := (bits (getUnit s u).arm.time 11 53 : BitVec 53).toNat } → tr.frame * fineFrame ≤ s.clock.sched →
    takesTrigger (getUnit s u) tr = true →
    ∃ t r, exec (.scheduleTimeTrigger u) s = .next t ∧ (getUnit t u).record = some r ∧ r.trigFrame = tr.frame ∧ (getUnit t u).fired = true ∧
      (∀ w, w ≠ u → getUnit t w = getUnit s w) ∧ Changes [.units] s t) ∧
  (∀ (s : State) (u : UnitId) (e : Nat), (getUnit s u).hobble = .frames e →
    ∃ t, exec (.hobbleEnd u) s = .next t ∧ getUnit t u = { getUnit s u with hobble := .none } ∧
      (∀ w, w ≠ u → getUnit t w = getUnit s w) ∧ Changes [.units] s t) ∧
  (∀ (s : State) (u : UnitId), (getUnit s u).armed = true → (getUnit s u).record = none → (getUnit s u).gap = none →
    (getUnit s u).arm.recCount = 0 ∨ (getUnit s u).records < (getUnit s u).arm.recCount.toNat →
    ∃ t g, exec (.storageBehind u) s = .next t ∧ (getUnit t u).gap = some g ∧ g.cause = 0 ∧ g.first = frameNow s ∧ g.store = true ∧
      (getUnit t u).gaps = satInc (getUnit s u).gaps ∧ noted t 0 0x3401 = true ∧ (∀ w, w ≠ u → getUnit t w = getUnit s w) ∧
      Changes [.funcs, .units] s t) ∧
  (∀ (s : State) (u : UnitId) (g : Gap), (getUnit s u).gap = some g → g.store = true → g.drain = false → g.recovered = none →
    (getUnit s u).arm.continuous = false →
    (g.until_ ≤ s.clock.sched →
      ∃ t, exec (.storageRecovered u) s = .next t ∧
        (getUnit t u).gap = some { g with
          store := false, until_ := 0, last := max g.last (s.clock.sched / fineFrame)
          lostSamples := g.lostSamples + samplesSince (getUnit s u).arm g.from_ s.clock.sched } ∧
        (getUnit t u).filledFrom = s.clock.sched ∧ (∀ w, w ≠ u → getUnit t w = getUnit s w) ∧ Changes [.units] s t) ∧
    (s.clock.sched < g.until_ →
      ∃ t, exec (.storageRecovered u) s = .next t ∧ (getUnit t u).gap = some { g with recovered := some s.clock.sched } ∧
        (∀ w, w ≠ u → getUnit t w = getUnit s w) ∧ Changes [.units] s t))

/-- Tokens on their way (R326 to R334, R351 to R368, Table 08-1): MARKER_EDGE, HUB_ENTRY, COMPARE_UNIT_COPY, MISSING_COPY_TIMEOUT,
CONSUMER_DELIVERY and REIN_INJECT. -/
def Obligations.TokensTravelThroughTheFabric : Prop :=
  (∀ (s : State) (v : VoiceId) (b : Fin 4) (level : Bool), bit (getVoice s v).marks b.val ≠ level → marksReach s v b level = true →
    ∃ t, exec (.markerEdge v b level) s = .next t ∧ getVoice t v = { getVoice s v with marks := setMark (getVoice s v).marks b.val level } ∧
      bit (getVoice t v).marks b.val = level ∧ (∀ w, w ≠ v → getVoice t w = getVoice s w) ∧ Changes [.funcs, .voices, .nodes, .books, .flights, .nextFlight, .hub] s t) ∧
  (∀ (s : State) (i : Nat) (f : Flight), tabFind i s.flights = some f → chanHeld s f.tok.chan = false →
    (∀ n a b, f.stage = .hubLink → f.src = .node n → hubHolds s = false → behind s i f (fun g => g.stage == .hubLink) = false →
      (entryA s || entryB s → f.tok.hop ≠ 7 →
        ∃ t, exec (.hubEntry i a b) s = .next t ∧
          tabFind i t.flights = some { f with
            tok := { f.tok with hop := f.tok.hop + 1 }, stage := .planes
            a := if entryA s then some { f.tok with hop := f.tok.hop + 1 } else none
            b := if entryB s then some { f.tok with hop := f.tok.hop + 1 } else none } ∧
          (∀ j, j ≠ i → tabFind j t.flights = tabFind j s.flights) ∧ t.hub = { s.hub with contend := satAdd s.hub.contend b } ∧
          getNode t n = { getNode s n with contend := satAdd (getNode s n).contend a } ∧ (∀ m, m ≠ n → getNode t m = getNode s m) ∧
          Changes [.nodes, .flights, .hub] s t) ∧
      (entryA s || entryB s → f.tok.hop = 7 →
        ∃ t, exec (.hubEntry i a b) s = .next t ∧ tabFind i t.flights = none ∧ t.hub.loop = satInc s.hub.loop ∧
          (getBook t f.tok.chan).loop = (getBook s f.tok.chan).loop + 1 ∧ noted t 0 0x3641 = true ∧
          (∀ j, j ≠ i → tabFind j t.flights = tabFind j s.flights) ∧ Changes [.funcs, .nodes, .books, .flights, .hub] s t) ∧
      (entryA s = false → entryB s = false →
        ∃ t, exec (.hubEntry i a b) s = .next t ∧ tabFind i t.flights = none ∧ t.hub.noRoute = satInc s.hub.noRoute ∧
          (getBook t f.tok.chan).overrun = (getBook s f.tok.chan).overrun + 1 ∧ noted t 0 0x3647 = true ∧
          Changes [.funcs, .nodes, .books, .flights, .hub] s t)) ∧
    (∀ b k w, f.stage = .planes → insideHub f.dst = false → planeCopy f b = some k → behind s i f (inPlane b) = false →
      (inService s (!b) = false ∨ ((if b then f.gotA else f.gotB) = true ∧ planeCopy f (!b) = some k) →
        ∃ t, exec (.compareUnitCopy i b w) s = .next t ∧
          tabFind i t.flights = some { f with tok := k, stage := .exit, a := none, b := none, gotA := false, gotB := false } ∧
          (∀ j, j ≠ i → tabFind j t.flights = tabFind j s.flights) ∧ t.hub = { s.hub with contend := satAdd s.hub.contend w } ∧
          Changes [.flights, .hub] s t) ∧
      (inService s (!b) = true → (if b then f.gotA else f.gotB) = false →
        ∃ t g, exec (.compareUnitCopy i b w) s = .next t ∧ tabFind i t.flights = some g ∧ g.stage = .planes ∧
          (if b then g.gotB else g.gotA) = true ∧ g.a = f.a ∧ g.b = f.b ∧ Changes [.flights, .hub] s t) ∧
      (inService s (!b) = true → (if b then f.gotA else f.gotB) = true → planeCopy f (!b) ≠ some k →
        ∃ t, exec (.compareUnitCopy i b w) s = .next t ∧ tabFind i t.flights = none ∧ t.hub.mismatch = satInc s.hub.mismatch ∧
          (getBook t f.tok.chan).overrun = (getBook s f.tok.chan).overrun + 1 ∧ noted t 0 0x3645 = true ∧
          Changes [.funcs, .books, .flights, .hub] s t)) ∧
    (∀ k, f.stage = .planes → f.gotA ≠ f.gotB → inService s true = true → inService s false = true → planeCopy f f.gotB = some k →
      ∃ t, exec (.missingCopyTimeout i) s = .next t ∧ (planeOf t f.gotA).state = .out ∧ (planeOf t f.gotA).cause = 6 ∧
        (planeOf t f.gotA).missing = satInc (planeOf s f.gotA).missing ∧ planeOf t f.gotB = planeOf s f.gotB ∧
        tabFind i t.flights = some { f with tok := k, stage := .exit, a := none, b := none, gotA := false, gotB := false } ∧
        noted t 0 0x3646 = true ∧ Changes [.funcs, .books, .flights, .hub] s t) ∧
    (∀ w, atConsumer f = true → behind s i f (fun _ => true) = false →
      (∀ c : Fin 96, f.dst = .blank c → notRiding s f.tok.chan f.dst = none → mayConsume s f.tok.chan f.dst = true →
        ∃ t, exec (.consumerDelivery i w) s = .next t ∧ tabFind i t.flights = none ∧
          getWatch t (cmpOfIdx c) = { getWatch s (cmpOfIdx c) with blankTok := bit f.tok.value 0 } ∧
          (getBook t f.tok.chan).consumed = (getBook s f.tok.chan).consumed + 1 ∧ Changes [.nodes, .books, .flights, .hub, .watches] s t) ∧
      (∀ n, notRiding s f.tok.chan f.dst = some n →
        ∃ t, exec (.consumerDelivery i w) s = .next t ∧ tabFind i t.flights = none ∧
          (getNode t n).notRiding = satInc (getNode s n).notRiding ∧ (getBook t f.tok.chan).overrun = (getBook s f.tok.chan).overrun + 1 ∧
          noted t 0 0x064C = true ∧ Changes [.funcs, .nodes, .books, .flights, .hub] s t) ∧
      (notRiding s f.tok.chan f.dst = none → mayConsume s f.tok.chan f.dst = false →
        ∃ t, exec (.consumerDelivery i w) s = .next t ∧ tabFind i t.flights = none ∧
          (getBook t f.tok.chan).overrun = (getBook s f.tok.chan).overrun + 1 ∧ noted t 0 0x3644 = true ∧
          Changes [.funcs, .nodes, .books, .flights, .hub] s t))) ∧
  (∀ (s : State) (f : Func) (e : ReinChan) (value : BitVec 2) (inv : Bool) (g : Grant), admits s f (.hub .inject) = true → injectCode f e s = none →
    chanHeld s e = false →
    ∃ t, exec (.reinInject f e value inv g) s = .next t ∧
      (getBook t e).issued = (getBook s e).issued + (consumersOf s e).length ∧ (∀ j, j ≠ e → getBook t j = getBook s j) ∧
      t.hub.contend = (if g = .held then satAdd s.hub.contend 1 else s.hub.contend) ∧ Changes [.funcs, .books, .flights, .nextFlight, .hub] s t)

/-- Buckle cells (R340 to R349, R370): CELL_EVALUATION, JOIN_WINDOW_EXPIRY and FILTER_WIDTH_EXPIRY of a node's cell; SET_FLIP_FLOP,
CLEAR_FLIP_FLOPS and BK_FILTER_WRITE. -/
def Obligations.CellsEvaluateAndHoldTheirBits : Prop :=
  (∀ (s : State) (n : StallId) (b : Fin 256) (v : BitVec 2), cellsRun s n = true →
    v = tableEntry (cellImage s (.node n b)).table (tableIndex s (.node n b)) →
    (cellReady s (.node n b) = true →
      ∃ t, exec (.cellEvaluation (.node n b)) s = .next t ∧
        ((cellImage s (.node n b)).ffEn = true → (getCell t (.node n b)).ffValue = v) ∧
        ((cellImage s (.node n b)).ffEn = false → (getCell t (.node n b)).ffValue = (getCell s (.node n b)).ffValue) ∧
        (bit (cellImage s (.node n b)).emitMask v.toNat = false → (cellImage s (.node n b)).ffEn = false ∨ flipFlopReaders s (.node n b) = [] →
          (getCell t (.node n b)).latches = (getCell s (.node n b)).latches.map (fun l => (l.1, l.2.drop 1)) ∧
          (getCell t (.node n b)).join = none ∧ (getCell t (.node n b)).outValue = (getCell s (.node n b)).outValue ∧
          (∀ d, d ≠ .node n b → getCell t d = getCell s d) ∧ Changes [.cells] s t) ∧
        (bit (cellImage s (.node n b)).emitMask v.toNat = true → (cellImage s (.node n b)).filterMode = 0 →
          (getCell t (.node n b)).outValue = v) ∧
        Changes [.funcs, .nodes, .cells, .books, .flights, .nextFlight, .hub] s t) ∧
    (joinRuns s (.node n b) = true →
      ∃ t, exec (.joinWindowExpiry (.node n b)) s = .next t ∧ (getCell t (.node n b)).latches = [] ∧ (getCell t (.node n b)).join = none ∧
        (getCell t (.node n b)).expired = satInc (getCell s (.node n b)).expired ∧ noted t 0 0x064A = true ∧
        ((cellImage s (.node n b)).expireInv = false → Changes [.funcs, .cells] s t) ∧ Changes [.funcs, .nodes, .cells, .books, .flights, .nextFlight, .hub] s t) ∧
    (filterRuns s (.node n b) = true →
      ∃ t, exec (.filterWidthExpiry (.node n b)) s = .next t ∧ (getCell t (.node n b)).cand = none ∧
        (getCell t (.node n b)).filterRun = false ∧
        ((getCell s (.node n b)).cand = none → (getCell t (.node n b)).outValue = (getCell s (.node n b)).outValue ∧ Changes [.cells] s t) ∧
        (∀ w i h, (getCell s (.node n b)).cand = some (w, i, h) → w ≠ (getCell s (.node n b)).outValue →
          (getCell t (.node n b)).outValue = w) ∧
        Changes [.funcs, .nodes, .cells, .books, .flights, .nextFlight, .hub] s t)) ∧
  (∀ (s : State) (f : Func) (n : StallId) (b : Fin 256) (value : BitVec 2) (inv : Bool), admits s f (.node n .ffCmd) = true →
    ffCmdCode f (.node n b) s = none →
    ∃ t, exec (.setFlipFlop f n b value inv) s = .next t ∧
      getCell t (.node n b) = { getCell s (.node n b) with ffValue := value, ffInv := inv } ∧
      (∀ d, d ≠ .node n b → getCell t d = getCell s d) ∧ Changes [.cells] s t) ∧
  (∀ (s : State) (f : Func) (n : StallId), admits s f (.node n .ffCmd) = true →
    ∃ t, exec (.clearFlipFlops f n) s = .next t ∧
      (∀ (b : Fin 256) (i : CellImage), (b.val, i) ∈ (imageOf s n).node.cells → i.ffEn = true → i.owner = f.owner →
        (getCell t (.node n b)).ffValue = 0 ∧ (getCell t (.node n b)).ffInv = false) ∧
      (∀ d, (∀ (b : Fin 256) (i : CellImage), (b.val, i) ∈ (imageOf s n).node.cells → i.ffEn = true → i.owner = f.owner → d ≠ .node n b) →
        getCell t d = getCell s d) ∧ Changes [.cells] s t) ∧
  (∀ (s : State) (f : Func) (n : StallId) (b : Fin 256) (val : Word), admits s f (.cell n b .filter) = true →
    ∃ t, exec (.bkFilterWrite f (.node n b) val) s = .next t ∧
      getCell t (.node n b) = { getCell s (.node n b) with joinWin := bits val 8 8, width := bits val 0 8 } ∧
      (∀ d, d ≠ .node n b → getCell t d = getCell s d) ∧ Changes [.cells] s t) ∧
  (∀ (s : State) (f : Func) (b : Fin 1024) (val : Word), admits s f (.hubCell false b .filter) = true →
    ∃ t, exec (.bkFilterWrite f (.hub false b) val) s = .next t ∧
      getCell t (.hub false b) = { getCell s (.hub false b) with pendFilter := some (bits val 8 8, bits val 0 8) } ∧
      (∀ d, d ≠ .hub false b → getCell t d = getCell s d) ∧ Changes [.cells] s t)

/-- The hub planes and the audit of a token book (R337, R338, R367 to R369, R374 to R376, Table 08-5): FABRIC_FAULT, SCRUB_PASS, TAKE_OUT, RETURN,
REJOIN_READBACK_DONE, HUB_SETTLE_POINT, REIN_AUDIT_CMD and CHANNEL_AUDIT_SETTLE_POINT. -/
def Obligations.PlanesLeaveRejoinAndBooksBalance : Prop :=
  (∀ (s : State) (b : Bool) (cause : BitVec 4) (e : Option ReinChan) (c : Option (Fin 1024)), inService s b = true →
    ∃ t, exec (.fabricFault (.plane b) cause e c) s = .next t ∧
      planeOf t b = { planeOf s b with state := .out, cause := cause, entry := false } ∧ planeOf t (!b) = planeOf s (!b) ∧
      noted t 0 0x3646 = true ∧ Changes [.funcs, .books, .flights, .hub] s t) ∧
  (∀ (s : State) (n : StallId) (cause : BitVec 4) (e : Option ReinChan) (c : Option (Fin 1024)), lifeOf n s ≠ .off →
    ∃ t, exec (.fabricFault (.node n) cause e c) s = .next t ∧ (getNode t n).fault = true ∧
      ((getNode s n).cause = 0 → (getNode t n).cause = cause ∧ (getNode t n).chan = e) ∧
      ((getNode s n).cause ≠ 0 → (getNode t n).cause = (getNode s n).cause) ∧
      (getStall t n).fault = true ∧ (getStall t n).life = (if lifeOf n s = .riding then .resting else lifeOf n s) ∧
      Changes [.funcs, .irqs, .stalls, .slices, .voices, .seqs, .chans, .nodes, .books, .flights, .nextFlight, .hub, .riders, .fasts, .queues, .farriers, .feeds, .freeCtr] s t) ∧
  (∀ (s : State) (singles : Nat),
    (∀ b, inService s b = true →
      ∃ t, exec (.scrubPass (.plane b) singles none) s = .next t ∧
        planeOf t b = { planeOf s b with corrected := satAdd (planeOf s b).corrected singles } ∧ planeOf t (!b) = planeOf s (!b) ∧
        Changes [.funcs, .hub] s t) ∧
    (∀ n, lifeOf n s ≠ .off →
      ∃ t, exec (.scrubPass (.node n) singles none) s = .next t ∧
        getNode t n = { getNode s n with corrected := satAdd (getNode s n).corrected singles, passes := (getNode s n).passes + 1 } ∧
        (∀ m, m ≠ n → getNode t m = getNode s m) ∧ Changes [.funcs, .nodes] s t)) ∧
  (∀ (s : State) (f : Func) (b : Bool), admitsSpine s f (.hub .cmd) = true →
    (takeOutCode b s = none → inService s b = true →
      ∃ t, exec (.takeOut f b) s = .next t ∧ t.hub = { s.hub with op := opStart, pend := s.hub.pend ++ [.takeOut b] } ∧ Changes [.hub] s t) ∧
    (hubLoading s = false → (planeOf s b).state = .out →
      ∃ t, exec (.return_ f b) s = .next t ∧ (planeOf t b).state = .rejoin ∧ planeOf t (!b) = planeOf s (!b) ∧ t.hub.op = opStart ∧
        Changes [.cells, .hub] s t)) ∧
  (∀ (s : State) (b : Bool), rejoining s b = true → rejoining s (!b) = false →
    (∃ t, exec (.rejoinReadbackDone true) s = .next t ∧ t.hub.pend = s.hub.pend ++ [.rejoin b] ∧ (planeOf t b).state = .rejoin ∧
      Changes [.hub] s t) ∧
    (∃ t, exec (.rejoinReadbackDone false) s = .next t ∧ (planeOf t b).state = .out ∧ (planeOf t b).cause = 5 ∧ t.hub.op.state = .failed ∧
      t.hub.op.code = 0x2648 ∧ noted t 0 0x2648 = true ∧ Changes [.funcs, .irqs, .hub] s t)) ∧
  (∀ (s : State) (b : Bool), s.flights.all (fun f => f.2.stage != .planes) = true →
    (s.hub.pend = [.takeOut b] → inService s b = true → inService s (!b) = true →
      ∃ t, exec .hubSettlePoint s = .next t ∧ (planeOf t b).state = .out ∧ (planeOf t b).cause = 4 ∧ planeOf t (!b) = planeOf s (!b) ∧
        t.hub.pend = [] ∧ t.hub.op = opDone 0 ∧ Changes [.funcs, .irqs, .cells, .hub] s t) ∧
    (s.hub.pend = [.rejoin b] →
      ∃ t, exec .hubSettlePoint s = .next t ∧ (planeOf t b).state = .service ∧ (planeOf t b).entry = true ∧
        planeOf t (!b) = planeOf s (!b) ∧ t.hub.pend = [] ∧ t.hub.op = opDone 0x0649 ∧ noted t 0 0x0649 = true ∧
        Changes [.funcs, .irqs, .cells, .hub] s t) ∧
    (s.hub.pend = [] → ∀ (c : Fin 1024) (j w : BitVec 8), (getCell s (.hub false c)).pendFilter = some (j, w) →
      ∃ t, exec .hubSettlePoint s = .next t ∧ (getCell t (.hub false c)).joinWin = j ∧ (getCell t (.hub false c)).width = w ∧
        (getCell t (.hub true c)).joinWin = j ∧ (getCell t (.hub true c)).width = w ∧ (getCell t (.hub false c)).pendFilter = none ∧
        Changes [.cells, .hub] s t)) ∧
  (∀ (s : State) (f : Func) (e : ReinChan), admitsSpine s f (.hub .auditCmd) = true → reinAuditCode s = none →
    ∃ t, exec (.reinAuditCmd f e) s = .next t ∧ t.hub = { s.hub with audit := { s.hub.audit with op := opStart, chan := e, held := true } } ∧
      Changes [.hub] s t) ∧
  (∀ (s : State) (b : Book) (n : Nat), s.hub.audit.held = true →
    b = { getBook s s.hub.audit.chan with consumed := (getBook s s.hub.audit.chan).consumed - egressCopies s s.hub.audit.chan } →
    n = (s.flights.filter fun f => f.2.tok.chan == s.hub.audit.chan).length + egressCopies s s.hub.audit.chan →
    ∃ t, exec .channelAuditSettlePoint s = .next t ∧ t.hub.audit.held = false ∧ t.hub.audit.chan = s.hub.audit.chan ∧
      t.hub.audit.issued = BitVec.ofNat 64 b.issued ∧ t.hub.audit.consumed = BitVec.ofNat 64 b.consumed ∧
      t.hub.audit.overrun = BitVec.ofNat 64 b.overrun ∧ t.hub.audit.loop = BitVec.ofNat 64 b.loop ∧
      t.hub.audit.inFlight = BitVec.ofNat 32 n ∧ (b.issued = b.consumed + b.overrun + b.loop + n → t.hub.audit.op = opDone 0) ∧
      (b.issued ≠ b.consumed + b.overrun + b.loop + n → t.hub.audit.op.state = .failed ∧ t.hub.audit.op.code = 0x364B ∧
        noted t 0 0x364B = true) ∧
      Changes [.funcs, .irqs, .books, .flights, .nextFlight, .hub] s t)

/-- Words that act on their rider alone (R381, R386, R402, Tables 09-4, 09-7, 09-8): NOP with each sequencing, ALU, TIME, TAKE and IRQ. -/
def Obligations.RiderWordsComputeAndSequence : Prop :=
  ∀ (s : State) (r : RiderId) (w : MicroWord) (u : Run), wordRuns s r w u = true →
    (Mw.op w = 0 → Mw.seq w = 0 →
      ∃ t, exec (.nop r u) s = .next t ∧ getRider t r = { begun w (getRider s r) with pc := (getRider s r).pc + 1 } ∧
        (∀ q, q ≠ r → getRider t q = getRider s q) ∧ Changes [.riders] s t) ∧
    (Mw.op w = 0 → Mw.seq w = 1 →
      ∃ t, exec (.nop r u) s = .next t ∧ getRider t r = { begun w (getRider s r) with pc := Mw.target w } ∧
        (∀ q, q ≠ r → getRider t q = getRider s q) ∧ Changes [.riders] s t) ∧
    (Mw.op w = 0 → Mw.seq w = 2 → (getRider s r).stack.length < 8 →
      ∃ t, exec (.nop r u) s = .next t ∧
        getRider t r = { begun w (getRider s r) with pc := Mw.target w, stack := ((getRider s r).pc + 1) :: (getRider s r).stack } ∧
        (∀ q, q ≠ r → getRider t q = getRider s q) ∧ Changes [.riders] s t) ∧
    (∀ a rest, Mw.op w = 0 → Mw.seq w = 3 → (getRider s r).stack = a :: rest →
      ∃ t, exec (.nop r u) s = .next t ∧ getRider t r = { begun w (getRider s r) with pc := a, stack := rest } ∧
        (∀ q, q ≠ r → getRider t q = getRider s q) ∧ Changes [.riders] s t) ∧
    (∀ a rest, Mw.op w = 0 → Mw.seq w = 4 → (getRider s r).stack = a :: rest → nextFault (getRider s r).fault = none →
      ∃ t, exec (.nop r u) s = .next t ∧ getRider t r = { begun w (getRider s r) with pc := a, stack := rest, inHandler := false } ∧
        (∀ q, q ≠ r → getRider t q = getRider s q) ∧ Changes [.riders] s t) ∧
    (Mw.op w = 0 → Mw.seq w = 5 →
      ∃ t, exec (.nop r u) s = .next t ∧ (getRider t r).state = .stopped ∧ (getRider t r).shot.active = false ∧
        (getRider t r).aborted = (getRider s r).aborted + (if (getRider s r).shot.active then 1 else 0) ∧
        (getRider t r).regs = (getRider s r).regs ∧ Changes [.funcs, .stalls, .seqs, .chans, .riders, .queues, .feeds] s t) ∧
    (Mw.op w = 1 → Mw.seq w = 0 →
      ∃ t, exec (.alu r u) s = .next t ∧ getRider t r = { actAlu w (begun w (getRider s r)) with pc := (getRider s r).pc + 1 } ∧
        (Mw.sub w = 0 → workReg (getRider t r) (Mw.ld w) = workReg (getRider s r) (Mw.la w) + operandB (getRider s r) w ∧
          (getRider t r).flags.c = decide (2 ^ 32 ≤ (workReg (getRider s r) (Mw.la w)).toNat + (operandB (getRider s r) w).toNat)) ∧
        (Mw.sub w = 7 → (getRider t r).flags.z = decide (workReg (getRider s r) (Mw.la w) - operandB (getRider s r) w = 0) ∧
          workReg (getRider t r) (Mw.ld w) = workReg (getRider s r) (Mw.ld w)) ∧
        (∀ q, q ≠ r → getRider t q = getRider s q) ∧ Changes [.riders] s t) ∧
    (Mw.op w = 2 → Mw.seq w = 0 →
      ∃ t, exec (.time r u) s = .next t ∧
        getRider t r = { actTime s.clock.sched w (begun w (getRider s r)) with pc := (getRider s r).pc + 1 } ∧
        (Mw.sub w = 0 → timeReg (getRider t r) (Mw.tn w) = schedOfFine (nextFrame s.clock.sched)) ∧
        (Mw.sub w = 2 → timeReg (getRider t r) (Mw.tn w) = Mw.immHi w ++ Mw.immLo w) ∧
        (∀ q, q ≠ r → getRider t q = getRider s q) ∧ Changes [.riders] s t) ∧
    (Mw.op w = 3 → Mw.seq w = 0 →
      ∃ t, exec (.take r u) s = .next t ∧ getRider t r = { actTake w (begun w (getRider s r)) with pc := (getRider s r).pc + 1 } ∧
        ((taskInput (getRider s r) (Mw.ti w)).latch = [] → workReg (getRider t r) (Mw.ld w) = 0) ∧
        (∀ k hub rest, (taskInput (getRider s r) (Mw.ti w)).latch = (k, hub) :: rest →
          workReg (getRider t r) (Mw.ld w) = tokenWord k ∧ (taskInput (getRider t r) (Mw.ti w)).latch = rest) ∧
        (∀ q, q ≠ r → getRider t q = getRider s q) ∧ Changes [.riders] s t) ∧
    (Mw.op w = 6 → Mw.seq w = 0 →
      ∃ t, exec (.irq r u) s = .next t ∧ getRider t r = { begun w (getRider s r) with pc := (getRider s r).pc + 1 } ∧
        t.irqs = (raise (0x900 + 16 * (riderOwner s r).val + (bits (Mw.immLo w) 0 4 : BitVec 4).toNat) s).irqs ∧
        t.funcs = (raise (0x900 + 16 * (riderOwner s r).val + (bits (Mw.immLo w) 0 4 : BitVec 4).toNat) s).funcs ∧
        (∀ q, q ≠ r → getRider t q = getRider s q) ∧ Changes [.funcs, .irqs, .riders] s t)

/-- Words that reach queues, shots, channels, the fabric, cells and capture units (R258 to R261, R304, R349, R397, R406, R407, R459, R460):
PUSH, POP, SHOT_BEGIN, SHOT_END, OPEN, EMIT, EMIT_RELAY, FF_SET, FF_CLEAR and CTRIG. -/
def Obligations.RiderWordsReachOtherUnits : Prop :=
  ∀ (s : State) (r : RiderId) (w : MicroWord) (u : Run), wordRuns s r w u = true → Mw.seq w = 0 →
    (∀ (q : QueueId) (a : QueueAlloc) (i : Nat), q = objectNum (getRider s r) w → queueHeld s q = false →
      (Mw.op w = 4 → queueAlloc s q = some a → prodIndex a (.rider r) = some i →
        ∃ t, exec (.push r u) s = .next t ∧
          getProd t q i = { getProd s q i with
            credits := (getProd s q i).credits - (Mw.sub w + 1)
            flight := (getProd s q i).flight ++ (List.range (Mw.sub w + 1)).map fun k =>
              { word := workReg (getRider s r) (Mw.la w + k), eoi := bit (Mw.aux w) 15 && decide (k = Mw.sub w), port := i } } ∧
          goesOn s t r w ∧ (∀ p, p ≠ q → getQueue t p = getQueue s p) ∧ Changes [.riders, .queues] s t) ∧
      (∀ qw rest, Mw.op w = 5 → (getQueue s q).stored = qw :: rest →
        ∃ t, exec (.pop r u) s = .next t ∧ workReg (getRider t r) (Mw.ld w) = qw.word ∧ (getRider t r).flags.eoi = qw.eoi ∧
          (getRider t r).pc = (getRider s r).pc + 1 ∧ (getQueue t q).stored = rest ∧
          (getProd t q qw.port).returning = (getProd s q qw.port).returning + 1 ∧ (∀ p, p ≠ q → getQueue t p = getQueue s p) ∧
          (∀ p, p ≠ r → getRider t p = getRider s p) ∧ Changes [.riders, .queues, .qdir] s t)) ∧
    (Mw.op w = 7 → Mw.sub w = 0 → (getRider s r).shot.active = false →
      ∃ t, exec (.shotBegin r u) s = .next t ∧
        getRider t r = { begun w (getRider s r) with
          pc := (getRider s r).pc + 1, started := (getRider s r).started + 1,
          shot := { num := (getRider s r).shot.num + 1, active := true, start := timeReg (getRider s r) (Mw.tn w)
                    pace := standingPace (getGait s r.stall).pace, spinePace := standingPace s.spine.pace }
          lastVoices := (getRider s r).shot.voices } ∧
        (∀ q, q ≠ r → getRider t q = getRider s q) ∧ Changes [.riders] s t) ∧
    (Mw.op w = 7 → Mw.sub w = 1 → (getRider s r).shot.active = true →
      ∃ t, exec (.shotEnd r u) s = .next t ∧ (getRider t r).shot.active = false ∧ (getRider t r).completed = (getRider s r).completed + 1 ∧
        (getRider t r).aborted = (getRider s r).aborted ∧ (getRider t r).pc = (getRider s r).pc + 1 ∧
        (tabGet {} (getFeed t r.stall.val).totals (riderOwner s r).val).done =
          (tabGet {} (getFeed s r.stall.val).totals (riderOwner s r).val).done + 1 ∧
        (∀ q, q ≠ r → getRider t q = getRider s q) ∧ Changes [.funcs, .stalls, .riders, .queues, .feeds] s t) ∧
    (∀ (c : ChanId) (len fr : Nat), Mw.op w = 0x11 → c = objChan r.stall (objectNum (getRider s r) w) → len = (Mw.arg w).toNat % 4096 + 1 →
      openCode s r c len = none → (getChan s c).latch = none →
      fr = openFrame s c (bits (timeReg (getRider s r) (Mw.tn w)) 11 53 : BitVec 53).toNat →
      ∃ t q, exec (.open_ r u) s = .next t ∧ (getChan t c).latch = some q ∧ q.start = fr ∧ q.len = len ∧ q.rider = r.num.val ∧
        (getRider t r).lastAnchor = schedOfFine ((fr + len) * fineFrame) ∧
        (getChan t c).contend = (if (getChan s c).win.isSome then satInc (getChan s c).contend else (getChan s c).contend) ∧
        goesOn s t r w ∧ (∀ d, d ≠ c → getChan t d = getChan s d) ∧ Changes [.chans, .riders] s t) ∧
    (∀ (e : ReinChan) (a : Word) (tok : Token), e = objRein (objectNum (getRider s r) w) → chanHeld s e = false → Mw.op w = 0x12 →
      a = (if Mw.sub w = 0 then Mw.immLo w else workReg (getRider s r) (Mw.la w)) →
      (Mw.sub w = 0 ∨ Mw.sub w = 2 → tok = { chan := e, kind := .emission, hop := 0, inv := bit a 2, value := bits a 0 2 } →
        ∃ t, exec (.emit r u) s = .next t ∧ (getBook t e).issued = (getBook s e).issued + (consumersOf s e).length ∧
          (∀ d ∈ consumersOf s e, ∃ i, tabFind i t.flights = some {
            tok, src := .node r.stall, port := 0x200 + r.num.val, dst := d, stage := if consumerPlace d = .node r.stall then .local_ else .hubLink }) ∧
          goesOn s t r w ∧ Changes [.books, .flights, .nextFlight, .riders] s t) ∧
      (Mw.sub w = 1 → bits a 3 3 ≠ (7 : BitVec 3) →
        tok = { chan := e, kind := .emission, hop := bits a 3 3 + 1, inv := bit a 2, value := bits a 0 2 } →
        ∃ t, exec (.emitRelay r u) s = .next t ∧ (getBook t e).issued = (getBook s e).issued + (consumersOf s e).length ∧
          (∀ d ∈ consumersOf s e, ∃ i, tabFind i t.flights = some {
            tok, src := .node r.stall, port := 0x200 + r.num.val, dst := d, stage := if consumerPlace d = .node r.stall then .local_ else .hubLink }) ∧
          goesOn s t r w ∧ Changes [.books, .flights, .nextFlight, .riders] s t) ∧
      (Mw.sub w = 1 → bits a 3 3 = (7 : BitVec 3) →
        ∃ t, exec (.emitRelay r u) s = .next t ∧ (getBook t e).issued = (getBook s e).issued + 1 ∧ (getBook t e).loop = (getBook s e).loop + 1 ∧
          noted t 0 0x3641 = true ∧ goesOn s t r w ∧ Changes [.funcs, .nodes, .books, .riders] s t)) ∧
    (∀ c : CellId, Mw.op w = 0x13 → Mw.sub w = 0 → c = objCell r.stall (objectNum (getRider s r) w) → flipFlopCode s c = none →
      ∃ t, exec (.ffSet r u) s = .next t ∧
        getCell t c = { getCell s c with ffValue := bits (Mw.immLo w) 0 2, ffInv := bit (Mw.immLo w) 2 } ∧ goesOn s t r w ∧
        (∀ d, d ≠ c → getCell t d = getCell s d) ∧ Changes [.cells, .riders] s t) ∧
    (Mw.op w = 0x13 → Mw.sub w = 1 →
      ∃ t, exec (.ffClear r u) s = .next t ∧
        (∀ (b : Fin 256) (i : CellImage), (b.val, i) ∈ (imageOf s r.stall).node.cells → i.ffEn = true → i.owner = riderOwner s r →
          (getCell t (.node r.stall b)).ffValue = 0 ∧ (getCell t (.node r.stall b)).ffInv = false) ∧
        goesOn s t r w ∧ Changes [.cells, .riders] s t) ∧
    (∀ (k : UnitId) (fr : Nat), Mw.op w = 0x14 → k = objUnit r.stall (objectNum (getRider s r) w) → (getUnit s k).arm.trigSrc = 5 →
      (getUnit s k).owner = some (riderOwner s r) → (getUnit s k).armed = true →
      fr = (bits (timeReg (getRider s r) (Mw.tn w)) 11 53 : BitVec 53).toNat →
      (s.clock.sched < fr * fineFrame →
        ∃ t, exec (.ctrig r u) s = .next t ∧
          getUnit t k = { getUnit s k with waiting := insertTrigger { frame := fr } (getUnit s k).waiting } ∧ goesOn s t r w ∧
          (∀ j, j ≠ k → getUnit t j = getUnit s j) ∧ Changes [.units, .riders] s t) ∧
      (fr * fineFrame ≤ s.clock.sched → takesTrigger (getUnit s k) { frame := fr } = true →
        ∃ t p, exec (.ctrig r u) s = .next t ∧ (getUnit t k).record = some p ∧ p.trigFrame = fr ∧ goesOn s t r w ∧
          (∀ j, j ≠ k → getUnit t j = getUnit s j) ∧ Changes [.funcs, .units, .riders] s t))

/-- Posts of a rider to voices and flux lines (R161, R208, R220 to R229, R398, R427, R439): VSTART, VLOADALT, VSELALT, VBRANCH, VBREAK, VSTOP, FORK,
VTUNE, FLUX_DC_GOAL, FLUX_FAST_CODE and FLUX_DC_CODE. -/
def Obligations.RiderPostsReachVoicesAndLines : Prop :=
  ∀ (s : State) (r : RiderId) (w : MicroWord) (u : Run), wordRuns s r w u = true → Mw.seq w = 0 →
    (∀ v : VoiceId, v = objVoice r.stall (objectNum (getRider s r) w) →
      (Mw.op w = 8 → postCode s v (.start (Mw.desc w) (timeReg (getRider s r) (Mw.tn w))) = none →
        ∃ t, exec (.vstart r u) s = .next t ∧
          getSeq t v = { getSeq s v with
            start := some (Mw.desc w, schedToFine (timeReg (getRider s r) (Mw.tn w)))
            prim := [{ idx := Mw.desc w, desc := 0, state := .loading }], primEmpty := false } ∧
          goesOn s t r w ∧ (∀ x, x ≠ v → getSeq t x = getSeq s x) ∧ Changes [.seqs, .riders] s t) ∧
      (Mw.op w = 9 → postCode s v (.loadAlt (Mw.desc w)) = none →
        ∃ t, exec (.vloadalt r u) s = .next t ∧
          getSeq t v = { getSeq s v with alt := some { idx := Mw.desc w, desc := 0, state := .loading } } ∧
          goesOn s t r w ∧ (∀ x, x ≠ v → getSeq t x = getSeq s x) ∧ Changes [.seqs, .riders] s t) ∧
      (postCode s v .stop = none → (getSeq s v).committed = false → (getSeq s v).sel = none →
        (Mw.op w = 0x0A →
          ∃ t, exec (.vselalt r u) s = .next t ∧ getSeq t v = { getSeq s v with sel := some (.alt, false), selAt := s.clock.sched } ∧
            goesOn s t r w ∧ (∀ x, x ≠ v → getSeq t x = getSeq s x) ∧ Changes [.seqs, .riders] s t) ∧
        (Mw.op w = 0x0B →
          ∃ t, exec (.vbranch r u) s = .next t ∧
            getSeq t v = { getSeq s v with
              sel := some (.branch (getSeq s v).nextBranch, false), selAt := s.clock.sched
              branches := tabSet (getSeq s v).branches (getSeq s v).nextBranch { idx := Mw.desc w, desc := 0, state := .loading }
              nextBranch := (getSeq s v).nextBranch + 1 } ∧
            goesOn s t r w ∧ (∀ x, x ≠ v → getSeq t x = getSeq s x) ∧ Changes [.seqs, .riders] s t) ∧
        (Mw.op w = 0x0D →
          ∃ t, exec (.vstop r u) s = .next t ∧ getSeq t v = { getSeq s v with sel := some (.stop, false), selAt := s.clock.sched } ∧
            goesOn s t r w ∧ (∀ x, x ≠ v → getSeq t x = getSeq s x) ∧ Changes [.seqs, .riders] s t)) ∧
      (Mw.op w = 0x0C → postCode s v .break_ = none → (getSeq s v).state = .hold → (getSeq s v).committed = false → (getSeq s v).sel = none →
        ∃ t, exec (.vbreak r u) s = .next t ∧ getSeq t v = { getSeq s v with sel := some (.break_, false), selAt := s.clock.sched } ∧
          goesOn s t r w ∧ (∀ x, x ≠ v → getSeq t x = getSeq s x) ∧ Changes [.seqs, .riders] s t) ∧
      (Mw.op w = 0x0F → (Mw.sub w ≠ 0 ∨ bit (Mw.immHi w) 15 = false) →
        ∃ t, exec (.vtune r u) s = .next t ∧ (getVoice t v).tune = (getVoice s v).tune ∧
          (Mw.sub w = 0 → (getVoice t v).pend = { (getVoice s v).pend with ftw := some (bits (Mw.immHi w) 0 16 ++ Mw.immLo w) }) ∧
          (Mw.sub w = 1 → (getVoice t v).pend = { (getVoice s v).pend with offset := some (bits (Mw.immLo w) 0 16) }) ∧
          (Mw.sub w = 3 → (getVoice t v).pend.vz =
            some ((getVoice s v).pend.vz.getD (getVoice s v).tune.vz + bits (Mw.immLo w) 0 16)) ∧
          (Mw.sub w = 5 → (getVoice t v).pend = { (getVoice s v).pend with scale := some (bits (Mw.immLo w) 0 16) }) ∧
          (Mw.sub w = 9 → (getVoice t v).pendDelay = some (bits (Mw.immLo w) 0 9)) ∧
          goesOn s t r w ∧ (∀ x, x ≠ v → getVoice t x = getVoice s x) ∧ Changes [.voices, .riders] s t) ∧
      (Mw.op w = 0x0E → forkCode s r w v = none →
        ((taskInput (getRider s r) (Mw.ti w)).latch = [] →
          ∃ t, exec (.fork r u) s = .next t ∧ getSeq t v = { getSeq s v with fork := some (newFork s r w) } ∧
            (getRider t r).state = .forked ∧ (getRider t r).pc = (getRider s r).pc ∧
            (getRider t r).deadline = (if Mw.trot w then none else some ((getRider s r).deadline.getD (waitDeadline s (getRider s r) w))) ∧
            (getRider t r).regs = (getRider s r).regs ∧ (∀ x, x ≠ v → getSeq t x = getSeq s x) ∧ Changes [.seqs, .riders] s t) ∧
        (∀ k hub rest, (taskInput (getRider s r) (Mw.ti w)).latch = (k, hub) :: rest → (getSeq s v).spent = [] →
          ∃ t, exec (.fork r u) s = .next t ∧
            getSeq t v = { getSeq s v with
              fork := some { newFork s r w with chosen := some (takesAlt w k), consumedAt := some s.clock.sched, hub := hub } } ∧
            (getRider t r).state = .running ∧ (getRider t r).pc = (getRider s r).pc + 1 ∧ workReg (getRider t r) (Mw.ld w) = tokenWord k ∧
            (getRider t r).flags.alt = takesAlt w k ∧ (getRider t r).flags.late = false ∧
            (taskInput (getRider t r) (Mw.ti w)).latch = rest ∧ (∀ x, x ≠ v → getSeq t x = getSeq s x) ∧ Changes [.seqs, .riders] s t))) ∧
    (∀ l : LineId, l = objLine r.stall (objectNum (getRider s r) w) → Mw.op w = 0x10 → restsSafe s r.stall = false →
      (Mw.sub w = 0 → dcCode s l (bits (Mw.immLo w) 20 2) = none →
        ∃ t, exec (.fluxDcGoal r u) s = .next t ∧
          getLine t l = setGoal { span := bits (Mw.immLo w) 20 2, code := bits (Mw.immLo w) 0 18 } (getLine s l) ∧
          (getLine t l).goal = { span := bits (Mw.immLo w) 20 2, code := bits (Mw.immLo w) 0 18 } ∧
          goesOn s t r w ∧ (∀ x, x ≠ l → getLine t x = getLine s x) ∧ Changes [.riders, .lines] s t) ∧
      (Mw.sub w = 2 → dcCode s l (getLine s l).goal.span = none →
        ∃ t, exec (.fluxDcCode r u) s = .next t ∧
          (getLine t l).goal = { span := (getLine s l).goal.span, code := bits (Mw.immLo w) 0 18 } ∧
          goesOn s t r w ∧ (∀ x, x ≠ l → getLine t x = getLine s x) ∧ Changes [.riders, .lines] s t) ∧
      (∀ fr, Mw.sub w = 1 → fastCode s l true = none → fr = (bits (timeReg (getRider s r) (Mw.tn w)) 11 53 : BitVec 53).toNat →
        fastFull (getFast s l) = false →
        ∃ t, exec (.fluxFastCode r u) s = .next t ∧
          (getFast t l).posts = insertPost { frame := max fr (earliestFast s), level := bits (Mw.immLo w) 0 16 } (getFast s l).posts ∧
          (getFast t l).late = (if fr < earliestFast s then satInc (getFast s l).late else (getFast s l).late) ∧
          (fr < earliestFast s → noted t 0 0x0501 = true) ∧ goesOn s t r w ∧ (∀ x, x ≠ l → getFast t x = getFast s x) ∧
          Changes [.funcs, .riders, .fasts] s t))

/-- Waits, starts and stops of a rider, and the host's writes to it (R383, R393 to R395, R404, R405, R412 to R414, Tables 09-2, 09-13):
WAIT_CONDITION_TRUE, WAIT_DEADLINE, POST_GRANTED, RIDER_RELEASE, RIDER_START, RIDER_STOP, SPUR, CONTROL_STORE_WRITE, RIDER_REGISTER_WRITE and
RH_HANDLER_WRITE. -/
def Obligations.RidersWaitStartAndStop : Prop :=
  (∀ (s : State) (r : RiderId) (w : MicroWord), w = wordInHand s r →
    ((getRider s r).state = .waiting → waitMet s r w = true → boundaryQuiet s r = true → Mw.op w = 0 → Mw.seq w = 0 →
      predHolds (modRider r (fun x => { x with flags := { x.flags with tmo := false } }) s) r w = true →
      ∃ t, exec (.waitConditionTrue r {}) s = .next t ∧
        getRider t r = { getRider s r with
          pc := (getRider s r).pc + 1, state := .running, deadline := none, flags := { (getRider s r).flags with tmo := false }
          savedWait := if (getRider s r).inHandler then (getRider s r).savedWait else none } ∧
        (∀ q, q ≠ r → getRider t q = getRider s q) ∧ Changes [.riders] s t) ∧
    ((getRider s r).state = .waiting → boundaryQuiet s r = true →
      ∃ t, exec (.waitDeadline r) s = .next t ∧
        getRider t r = { getRider s r with
          pc := Mw.tmoAddr w, state := .running, deadline := none, timeouts := satInc (getRider s r).timeouts
          flags := { (getRider s r).flags with tmo := true } } ∧
        noted t 0 0x0701 = true ∧ (∀ q, q ≠ r → getRider t q = getRider s q) ∧ Changes [.funcs, .riders] s t) ∧
    ((getRider s r).state = .held → boundaryQuiet s r = true → Mw.op w = 0x0F → Mw.sub w = 1 → Mw.seq w = 0 →
      ∃ t, exec (.postGranted r) s = .next t ∧ (getRider t r).state = .running ∧ (getRider t r).pc = (getRider s r).pc + 1 ∧
        (getVoice t (objVoice r.stall (objectNum (getRider s r) w))).pend.offset = some (bits (Mw.immLo w) 0 16) ∧
        (∀ q, q ≠ r → getRider t q = getRider s q) ∧ Changes [.voices, .riders] s t) ∧
    ((getRider s r).state = .stopped → (getRider s r).release = true →
      ∃ t, exec (.riderRelease r) s = .next t ∧ (getRider t r).state = .running ∧ (getRider t r).pc = (riderBind s r).entry ∧
        (getRider t r).stack = [] ∧ (getRider t r).flags = {} ∧ (getRider t r).inHandler = false ∧ (getRider t r).release = false ∧
        (getRider t r).regs = (getRider s r).regs ∧ (getRider t r).times = (getRider s r).times ∧
        (∀ q, q ≠ r → getRider t q = getRider s q) ∧ Changes [.riders] s t)) ∧
  (∀ (s : State) (f : Func) (r : RiderId), admits s f (.rider r .cmd) = true →
    (startCode s r = none →
      ∃ t, exec (.riderStart f r) s = .next t ∧ getRider t r = { getRider s r with release := true } ∧
        (∀ q, q ≠ r → getRider t q = getRider s q) ∧ Changes [.riders] s t) ∧
    (∀ c, startCode s r = some c →
      ∃ t, exec (.riderStart f r) s = .next t ∧ c = 0x1704 ∧ (getFunc t f).lastCode = c ∧ noted t 0 c = true ∧ Changes [.funcs] s t) ∧
    ((getRider s r).state = .running →
      ∃ t, exec (.riderStop f r) s = .next t ∧ getRider t r = { getRider s r with stopPending := true } ∧
        (∀ q, q ≠ r → getRider t q = getRider s q) ∧ Changes [.riders] s t) ∧
    ((getRider s r).state = .waiting ∨ (getRider s r).state = .held ∨ (getRider s r).state = .forked →
      ∃ t, exec (.riderStop f r) s = .next t ∧ (getRider t r).state = .stopped ∧ (getRider t r).shot.active = false ∧
        (getRider t r).aborted = (getRider s r).aborted + (if (getRider s r).shot.active then 1 else 0) ∧
        (∀ q, q ≠ r → getRider t q = getRider s q) ∧ Changes [.funcs, .stalls, .seqs, .chans, .riders, .queues, .feeds] s t) ∧
    ((getRider s r).state ≠ .waiting →
      ∃ t, exec (.spur f r) s = .next t ∧
        getRider t r = { getRider s r with
          fault := { (getRider s r).fault with pend := { (getRider s r).fault.pend with spur := true } } } ∧
        (∀ q, q ≠ r → getRider t q = getRider s q) ∧ Changes [.riders] s t) ∧
    ((getRider s r).state = .waiting → (getRider s r).inHandler = false → nextFault (getRider s r).fault = none →
      (getRider s r).stack.length < 8 →
      ∃ t, exec (.spur f r) s = .next t ∧ (getRider t r).inHandler = true ∧ (getRider t r).pc = (getRider s r).fault.handler ∧
        (getRider t r).stack = (getRider s r).pc :: (getRider s r).stack ∧ workReg (getRider t r) 15 = 0 ∧ (getRider t r).state = .running ∧
        (∀ q, q ≠ r → getRider t q = getRider s q) ∧ Changes [.riders] s t)) ∧
  (∀ (s : State) (f : Func) (n : StallId) (k : Fin 524288) (val : Word), admits s f (.store n k) = true →
    (k.val % 8 ≠ 7 → ∃ t, exec (.controlStoreWrite f n k val) s = .next t ∧ tabGet 0 t.held (regAddr (.store n k)) = val ∧ Changes [.held] s t) ∧
    (k.val % 8 = 7 → storeCode f s n (k.val / 8) (commitWord s n (k.val / 8) val) = none →
      ∃ t, exec (.controlStoreWrite f n k val) s = .next t ∧
        tabGet 0 t.store (n.val * 65536 + k.val / 8) = commitWord s n (k.val / 8) val ∧
        (∀ a, a ≠ n.val * 65536 + k.val / 8 → tabGet 0 t.store a = tabGet 0 s.store a) ∧ Changes [.store, .held] s t)) ∧
  (∀ (s : State) (f : Func) (r : RiderId) (reg : RiderReg) (val : Word), admits s f (.rider r (riderReg reg)) = true →
    ((getRider s r).state = .stopped →
      ∃ t, exec (.riderRegisterWrite f r reg val) s = .next t ∧
        (∀ k, reg = .l k → workReg (getRider t r) k.val = val ∧ t.held = s.held) ∧
        (∀ k, reg = .tLo k → tabGet 0 t.held (regAddr (.rider r (.tLo k))) = val ∧ getRider t r = getRider s r) ∧
        (∀ k, reg = .tHi k → timeReg (getRider t r) k.val =
          val ++ heldWord (.rider r (.tLo k)) (bits (timeReg (getRider s r) k.val) 0 32) s) ∧
        (getRider t r).pc = (getRider s r).pc ∧ (∀ q, q ≠ r → getRider t q = getRider s q) ∧ Changes [.riders, .held] s t) ∧
    ((getRider s r).state ≠ .stopped →
      ∃ t, exec (.riderRegisterWrite f r reg val) s = .next t ∧ (getFunc t f).lastCode = 0x1703 ∧ noted t 0 0x1703 = true ∧
        Changes [.funcs] s t)) ∧
  (∀ (s : State) (f : Func) (r : RiderId) (val : Word), admits s f (.rider r .handler) = true →
    addressOk s r.stall (riderOwner s r) (bits val 0 16) = true →
    ∃ t, exec (.rhHandlerWrite f r val) s = .next t ∧
      getRider t r = { getRider s r with fault := { (getRider s r).fault with handler := bits val 0 16 } } ∧
      (∀ q, q ≠ r → getRider t q = getRider s q) ∧ Changes [.riders] s t)

/-- The DC path and the fast path of flux lines (R422 to R446, R453, Tables 10-2, 10-8): FL_DC_WRITE, DC_TICK, SPAN_SWITCH_END, FL_CURB_WRITE,
FL_SAFE_WRITE, FL_CTL_WRITE, GENERATOR_CONFIG_WRITE, FL_FAST_SET, FAST_LEVEL_CHANGE and EDGE_TABLE_WRITE; a write that found the element of its line held
(R706) counts in contend. -/
def Obligations.FluxLinesFollowTheirRegisters : Prop :=
  (∀ (s : State) (f : Func) (l : LineId) (val : Word) (g : Grant) (u : State), u = (if g = .held then countLine l s else s) →
    (admits s f (.line l .dc) = true → dcCode s l (bits val 20 2) = none →
      ∃ t, exec (.flDcWrite f l val g) s = .next t ∧
        (restsSafe s l.stall = true → t = u) ∧
        (restsSafe s l.stall = false →
          getLine t l = setGoal { span := bits val 20 2, code := bits val 0 18 } (getLine s l) ∧
          (getLine t l).goal = { span := bits val 20 2, code := bits val 0 18 } ∧ (getLine t l).codeNow = (getLine s l).codeNow) ∧
        (∀ m, m ≠ l → getLine t m = getLine s m) ∧ Changes [.lines] u t) ∧
    (admits s f (.line l .curb) = true → bits val 0 16 ≠ (0 : BitVec 16) → bits val 16 16 ≠ (0 : BitVec 16) → (getLine s l).persistBad = false →
      ∃ t, exec (.flCurbWrite f l val) s = .next t ∧
        getLine t l = { getLine s l with curb := { step := bits val 0 16, period := bits val 16 16 } } ∧
        (tabGet {} t.persist.flux (lineKey l)).a.curb = { step := bits val 0 16, period := bits val 16 16 } ∧
        (tabGet {} t.persist.flux (lineKey l)).b = (tabGet {} t.persist.flux (lineKey l)).a ∧
        fluxSeq (tabGet {} t.persist.flux (lineKey l)).a =
          max (fluxSeq (tabGet {} s.persist.flux (lineKey l)).a) (fluxSeq (tabGet {} s.persist.flux (lineKey l)).b) + 1 ∧
        (∀ m, m ≠ l → getLine t m = getLine s m) ∧ Changes [.persist, .lines] s t) ∧
    (admits s f (.line l .safe) = true →
      ∃ t, exec (.flSafeWrite f l val) s = .next t ∧ (getLine t l).safe = { span := bits val 20 2, code := bits val 0 18 } ∧
        (getLine t l).safeWritten = (getLine s l).persistBad ∧
        (tabGet {} t.persist.flux (lineKey l)).a.safe = { span := bits val 20 2, code := bits val 0 18 } ∧
        (tabGet {} t.persist.flux (lineKey l)).b = (tabGet {} t.persist.flux (lineKey l)).a ∧
        (getLine t l).goal = (if restsSafe s l.stall then { span := bits val 20 2, code := bits val 0 18 }
          else (getLine s l).goal) ∧
        (∀ m, m ≠ l → getLine t m = getLine s m) ∧ Changes [.persist, .lines] s t) ∧
    (admits s f (.line l .ctl) = true → genCode s l (bits val 16 2) = none →
      ∃ t, exec (.flCtlWrite f l val) s = .next t ∧ (getFast t l).en = bit val 8 ∧ (getLine t l).genMode = bits val 16 2 ∧
        (bits val 16 2 ≠ (0 : BitVec 2) → bits val 16 2 ≠ (getLine s l).genMode → (getLine t l).dc = (getLine s l).dc ∧ (getLine t l).genRunning = false) ∧
        (bits val 16 2 = (getLine s l).genMode → getLine t l = getLine s l) ∧
        (bit val 8 = false → (getFast s l).en = true → (getFast t l).level = 0 ∧ ((getFast s l).waiting = [] → (getFast t l).posts = [])) ∧
        (∀ m, m ≠ l → getLine t m = getLine s m ∧ getFast t m = getFast s m) ∧ Changes [.funcs, .lines, .fasts] s t) ∧
    (∀ reg, admits s f (.line l (genReg reg)) = true → genWriteCode s l reg = none →
      ∃ t, exec (.generatorConfigWrite f l reg val) s = .next t ∧ getLine t l = setGen reg val (getLine s l) ∧
        (∀ m, m ≠ l → getLine t m = getLine s m) ∧ Changes [.lines] s t) ∧
    (admits s f (.line l .fastSet) = true → fastCode s l false = none → (getFast s l).waiting = [] →
      ∃ t, exec (.flFastSet f l val g) s = .next t ∧
        (fastFull (getFast s l) = false →
          getFast t l = { getFast u l with posts := insertPost { frame := earliestFast s, level := bits val 0 16 } (getFast s l).posts }) ∧
        (fastFull (getFast s l) = true → getFast t l = { getFast u l with waiting := [(f, bits val 0 16)] }) ∧
        (∀ m, m ≠ l → getFast t m = getFast s m) ∧ Changes [.fasts] s t) ∧
    (∀ k : Fin 32, admits s f (.edge l k) = true → edgeCode s l.stall = none →
      ∃ t, exec (.edgeTableWrite f l k val) s = .next t ∧ edgeTap (getFast t l) k.val = bits val 0 16 ∧
        (∀ j, j ≠ k.val → edgeTap (getFast t l) j = edgeTap (getFast s l) j) ∧ (∀ m, m ≠ l → getFast t m = getFast s m) ∧
        Changes [.fasts] s t)) ∧
  (∀ s : State,
    ∃ t, exec .dcTick s = .next t ∧
      (∀ l, (getStall s l.stall).cmd ≠ some .powerDown → getLine t l = tickLine (stallPlays s l.stall) l.num.val (getLine s l)) ∧
      (∀ n, (getStall s n).cmd = some .powerDown → linesRest (tickLines s) n = true →
        (getStall t n).life = .off ∧ (getStall t n).cmd = none ∧ (getStall t n).op = opDone 0 ∧ (getStall t n).powered = false) ∧
      (∀ n, ((getStall s n).cmd ≠ some .powerDown ∨ linesRest (tickLines s) n = false) → getStall t n = getStall s n) ∧
      ((∀ n, (getStall s n).cmd ≠ some .powerDown ∨ linesRest (tickLines s) n = false) → Changes [.lines] s t)) ∧
  (∀ (s : State) (l : LineId) (sp : BitVec 2), (getLine s l).dc = .switching → (getLine s l).entering = some sp →
    ∃ t, exec (.spanSwitchEnd l) s = .next t ∧ (getLine t l).spanNow = sp ∧ (getLine t l).entering = none ∧
      (getLine t l).dc = (if (getLine s l).goal.span ≠ sp then .phase1 else .phase3) ∧
      (getLine t l).codeNow = (getLine s l).codeNow ∧ (∀ m, m ≠ l → getLine t m = getLine s m) ∧ Changes [.lines] s t) ∧
  (∀ (s : State) (l : LineId) (p : FastPost) (rest : List FastPost), (getFast s l).posts = p :: rest → (getFast s l).waiting = [] →
    ∃ t, exec (.fastLevelChange l) s = .next t ∧ (getFast t l).posts = rest ∧
      (fastPlays s l = true → (getFast t l).level = p.level ∧ (getFast t l).changeAt = some (p.frame * fineFrame) ∧
        (getFast t l).old = fastOutput (getFast s l) (p.frame * fineFrame)) ∧
      (fastPlays s l = false → (getFast t l).level = (getFast s l).level) ∧
      (∀ m, m ≠ l → getFast t m = getFast s m) ∧ Changes [.funcs, .fasts] s t)

/-- Faults of a flux group (R431, R447 to R450, Table 10-5): SPAN_READBACK_CHECK, which brings a fault of the DC reference too (the model's
choice, log entry 183), FAST_DAC_FAULT and CLEAR. -/
def Obligations.GroupFaultsZeroTheFastPath : Prop :=
  (∀ (s : State) (g : GroupId),
    ∃ t, exec (.fastDacFault g) s = .next t ∧ (getGroup t g).cause = 2 ∧ (getGroup t g).faulted = true ∧ noted t 0 0x3502 = true ∧
      (∀ l ∈ groupLines g, (getFast t l).level = 0 ∧ (getFast t l).posts = [] ∧
        ((getLine s l).dc = .halter → getLine t l = getLine s l) ∧
        ((getLine s l).dc ≠ .halter → (getLine t l).genMode = 0 ∧ (getLine t l).goal = (getLine s l).safe)) ∧
      (∀ l, l ∉ groupLines g → getLine t l = getLine s l ∧ getFast t l = getFast s l) ∧
      (∀ h, h ≠ g → getGroup t h = getGroup s h) ∧ Changes [.funcs, .riders, .lines, .fasts, .groups] s t) ∧
  (∀ (s : State) (l : LineId),
    ∃ t, exec (.spanReadbackCheck l .reference) s = .next t ∧ (getGroup t (lineGroup l)).cause = 3 ∧ (getGroup t (lineGroup l)).faulted = true ∧
      noted t 0 0x2505 = true ∧ (getLine t l).spanNow = (getLine s l).spanNow ∧
      (∀ m ∈ groupLines (lineGroup l), (getFast t m).level = 0 ∧ (getFast t m).posts = []) ∧ Changes [.funcs, .riders, .lines, .fasts, .groups] s t) ∧
  (∀ (s : State) (l : LineId) (sp span : BitVec 2), (getLine s l).dc = .switching → (getLine s l).entering = some sp →
    (span = sp → ∃ t, exec (.spanReadbackCheck l (.span span)) s = .next t ∧ t = s) ∧
    (span ≠ sp →
      ∃ t, exec (.spanReadbackCheck l (.span span)) s = .next t ∧ (getGroup t (lineGroup l)).cause = 3 ∧ (getGroup t (lineGroup l)).faulted = true ∧
        noted t 0 0x2505 = true ∧ (getLine t l).entering = none ∧ (getLine t l).spanNow = (getLine s l).spanNow ∧
        (∀ m ∈ groupLines (lineGroup l), (getFast t m).level = 0 ∧ (getFast t m).posts = []) ∧
        Changes [.funcs, .riders, .lines, .fasts, .groups] s t)) ∧
  (∀ (s : State) (f : Func) (g : GroupId) (reports : Bool), admits s f (.group g true) = true → clearCode f g reports s = none →
    ∃ t, exec (.clear f g reports) s = .next t ∧ getGroup t g = { getGroup s g with faulted := false } ∧
      (∀ h, h ≠ g → getGroup t h = getGroup s h) ∧ Changes [.groups] s t)

/-- The curb bounds every move of a line (R422, R423): at a DC tick no line's code moves by more than the step of its curb in the units of its span,
its span does not change, and a line that is not connected does not move. -/
def Obligations.TheCurbBoundsEveryMove : Prop :=
  ∀ s t : State, exec .dcTick s = .next t →
    ∀ l : LineId, (getLine t l).spanNow = (getLine s l).spanNow ∧ (getLine t l).curb = (getLine s l).curb ∧
      (codeVal (getLine s l).spanNow (getLine t l).codeNow - codeVal (getLine s l).spanNow (getLine s l).codeNow).natAbs ≤
        (getLine s l).curb.step.toNat ∧
      ((getLine s l).connected = false → (getLine t l).codeNow = (getLine s l).codeNow ∧
        ((getStall s l.stall).cmd ≠ some .powerDown → getLine t l = getLine s l))

/-- Words and credits of a queue (R455 to R470, R478, R479, R488): QUEUE_WORD_GRANT, CREDIT_RETURN_ARRIVES, Q_PUSH, Q_PUSH_END, Q_POP and
POINTER_CHECK_PASS. -/
def Obligations.QueuesMoveWordsAndCredits : Prop :=
  (∀ (s : State) (q : QueueId) (i : Nat) (w : QWord) (rest : List QWord), queueHeld s q = false → (getProd s q i).flight = w :: rest →
    (queueAlloc s q = none →
      ∃ t, exec (.queueWordGrant q i) s = .next t ∧ (getProd t q i).flight = rest ∧ (getQueue t q).stored = (getQueue s q).stored ∧
        t.qdir.noQueue = satInc s.qdir.noQueue ∧ noted t 0 0x3804 = true ∧ (∀ p, p ≠ q → getQueue t p = getQueue s p) ∧
        Changes [.funcs, .queues, .qdir] s t) ∧
    (∀ a, queueAlloc s q = some a → (getProd s q i).discarding = false → s.qdir.cmd ≠ some .auditPages →
      (a.itemMode = false →
        ∃ t, exec (.queueWordGrant q i) s = .next t ∧ (getProd t q i).flight = rest ∧
          (getQueue t q).stored = (getQueue s q).stored ++ [w] ∧ (getProd t q i).credits = (getProd s q i).credits ∧
          (∀ p, p ≠ q → getQueue t p = getQueue s p) ∧ Changes [.queues, .qdir] s t) ∧
      (a.itemMode = true → w.eoi = false → (getProd s q i).staged.length < 64 →
        ∃ t, exec (.queueWordGrant q i) s = .next t ∧ (getProd t q i).flight = rest ∧
          (getProd t q i).staged = (getProd s q i).staged ++ [w] ∧ (getQueue t q).stored = (getQueue s q).stored ∧
          (∀ p, p ≠ q → getQueue t p = getQueue s p) ∧ Changes [.queues] s t) ∧
      (a.itemMode = true → w.eoi = true → (getProd s q i).staged.length < 64 →
        ∃ t, exec (.queueWordGrant q i) s = .next t ∧ (getProd t q i).flight = rest ∧ (getProd t q i).staged = [] ∧
          (getQueue t q).stored = (getQueue s q).stored ++ (getProd s q i).staged ++ [w] ∧
          (∀ p, p ≠ q → getQueue t p = getQueue s p) ∧ Changes [.queues, .qdir] s t) ∧
      (∀ p c, a.itemMode = true → 64 ≤ (getProd s q i).staged.length → a.prods[i]? = some (p, c) →
        ∃ t, exec (.queueWordGrant q i) s = .next t ∧ (getProd t q i).staged = [] ∧ (getQueue t q).stored = (getQueue s q).stored ∧
          (portPresent s q p = true → (getProd t q i).credits = (getProd s q i).credits + (getProd s q i).staged.length + 1) ∧
          (portPresent s q p = false → (getProd t q i).absent = (getProd s q i).absent + (getProd s q i).staged.length + 1) ∧
          (getQueue t q).discards = satAdd (getQueue s q).discards ((getProd s q i).staged.length + 1) ∧
          (getProd t q i).discarding = !w.eoi ∧ noted t 0 0x3802 = true ∧ Changes [.funcs, .queues] s t))) ∧
  (∀ (s : State) (q : QueueId) (i : Nat) (a : QueueAlloc) (p : QPort) (c : Nat), (getProd s q i).returning ≠ 0 → queueAlloc s q = some a →
    a.prods[i]? = some (p, c) →
    (portPresent s q p = true →
      ∃ t, exec (.creditReturnArrives q i) s = .next t ∧
        getProd t q i = { getProd s q i with returning := (getProd s q i).returning - 1, credits := (getProd s q i).credits + 1 } ∧
        (getQueue t q).stored = (getQueue s q).stored ∧ (∀ p, p ≠ q → getQueue t p = getQueue s p) ∧ Changes [.queues] s t) ∧
    (portPresent s q p = false →
      ∃ t, exec (.creditReturnArrives q i) s = .next t ∧
        getProd t q i = { getProd s q i with returning := (getProd s q i).returning - 1, absent := (getProd s q i).absent + 1 } ∧
        (∀ p, p ≠ q → getQueue t p = getQueue s p) ∧ Changes [.queues] s t)) ∧
  (∀ (s : State) (f : Func) (q : QueueId) (val : Word),
    (∀ a i, admits s f (queueReg q .push) = true → hostProd s q = some (a, i) → (getProd s q i).credits ≠ 0 →
      ∃ t, exec (.qPush f q val) s = .next t ∧
        getProd t q i = { getProd s q i with
          credits := (getProd s q i).credits - 1, flight := (getProd s q i).flight ++ [{ word := val, eoi := false, port := i }] } ∧
        (∀ p, p ≠ q → getQueue t p = getQueue s p) ∧ Changes [.queues] s t) ∧
    (∀ a i, admits s f (queueReg q .pushEnd) = true → hostProd s q = some (a, i) → (getProd s q i).credits ≠ 0 →
      ∃ t, exec (.qPushEnd f q val) s = .next t ∧
        getProd t q i = { getProd s q i with
          credits := (getProd s q i).credits - 1, flight := (getProd s q i).flight ++ [{ word := val, eoi := true, port := i }] } ∧
        (∀ p, p ≠ q → getQueue t p = getQueue s p) ∧ Changes [.queues] s t) ∧
    (∀ a i, admits s f (queueReg q .push) = true → hostProd s q = some (a, i) → (getProd s q i).credits = 0 →
      ∃ t, exec (.qPush f q val) s = .next t ∧ (getFunc t f).lastCode = 0x1803 ∧ noted t 0 0x1803 = true ∧ Changes [.funcs] s t) ∧
    (∀ (n : Fin 16) (w : QWord) (rest : List QWord), admits s f (queueReg q .pop) = true → popCode q n.val s = none →
      (getQueue s q).stored = w :: rest →
      (n.val = 1 → queueHeld s q = false →
        ∃ t, exec (.qPop f q n) s = .next t ∧ (getQueue t q).stored = rest ∧ (getQueue t q).popValid = true ∧ (getQueue t q).popTaken = 1 ∧
          (getQueue t q).popEoi = w.eoi ∧ tabGet 0 (getQueue t q).popData 0 = w.word ∧
          (getProd t q w.port).returning = (getProd s q w.port).returning + 1 ∧
          (∀ p, p ≠ q → getQueue t p = getQueue s p) ∧ Changes [.queues, .qdir] s t) ∧
      (queueHeld s q = true →
        ∃ t, exec (.qPop f q n) s = .next t ∧ getQueue t q = { getQueue s q with heldPops := (getQueue s q).heldPops ++ [n.val] } ∧
          (∀ p, p ≠ q → getQueue t p = getQueue s p) ∧ Changes [.queues] s t))) ∧
  (∀ (s : State) (q : QueueId) (a : QueueAlloc), queueAlloc s q = some a →
    ∃ t, exec (.pointerCheckPass q true) s = .next t ∧ (getQueue t q).stored = [] ∧ (getQueue t q).fault = true ∧
      (getQueue t q).resets = satInc (getQueue s q).resets ∧ t.qdir.resets = satInc s.qdir.resets ∧ noted t 0 0x3801 = true ∧
      (∀ p, p ≠ q → getQueue t p = getQueue s p) ∧ Changes [.funcs, .irqs, .queues, .qdir] s t) ∧
  (∀ (s : State) (q : QueueId), ∃ t, exec (.pointerCheckPass q false) s = .next t ∧ t = s)

/-- The commands of QDIR and the pages of the HBM (R467, R469, R483 to R487): FLUSH, AUDIT_QUEUE, AUDIT_PAGES, SCRUB, BOOK_AUDIT_SETTLE_POINT,
PAGE_RELEASE_DONE, BACKGROUND_SCRUB, HBM_SCRUB_DONE and HBM_HOST_WRITE. -/
def Obligations.QdirFlushesAuditsAndScrubs : Prop :=
  (∀ (s : State) (f : Func), admits s f (.qdir .cmd) = true → fwSwitching s = false → s.qdir.cmd = none →
    (∀ (q : QueueId) (a : QueueAlloc), queueAlloc s q = some a → mayAct f a.owner = true →
      ((getQueue s q).pages = 0 →
        ∃ t, exec (.flush f q) s = .next t ∧ (getQueue t q).stored = [] ∧ t.qdir.cmd = none ∧ t.qdir.op.state = .done ∧
          t.qdir.result = BitVec.ofNat 31 (flushCount (getQueue s q)) ∧ (∀ p, p ≠ q → getQueue t p = getQueue s p) ∧
          Changes [.funcs, .irqs, .queues, .qdir] s t) ∧
      ((getQueue s q).pages ≠ 0 →
        ∃ t, exec (.flush f q) s = .next t ∧ (getQueue t q).stored = [] ∧ t.qdir.cmd = some (.flush q) ∧ t.qdir.op = opStart ∧
          (getQueue t q).pages = 0 ∧ (getQueue t q).freeing = (getQueue s q).freeing + (getQueue s q).pages ∧
          (∀ p, p ≠ q → getQueue t p = getQueue s p) ∧ Changes [.queues, .qdir] s t) ∧
      (inCommit s (queueStall q) = false →
        ∃ t, exec (.auditQueue f q) s = .next t ∧ t.qdir = { s.qdir with cmd := some (.auditQueue q), op := opStart } ∧
          Changes [.qdir] s t)) ∧
    (f.val = 0 →
      (∃ t, exec (.auditPages f) s = .next t ∧ t.qdir = { s.qdir with cmd := some .auditPages, op := opStart } ∧ Changes [.qdir] s t) ∧
      (∃ t, exec (.scrub f) s = .next t ∧ t.qdir = { s.qdir with cmd := some .scrub, op := opStart, partialValid := true, result := 0 } ∧
        Changes [.qdir] s t))) ∧
  (∀ s : State, s.qdir.cmd = some .auditPages →
    ∃ t, exec .bookAuditSettlePoint s = .next t ∧ t.qdir.cmd = none ∧ t.qdir.audit0 = BitVec.ofNat 32 s.qdir.free ∧
      t.qdir.audit1 = BitVec.ofNat 32 s.qdir.allocated ∧ t.qdir.audit2 = BitVec.ofNat 32 s.qdir.transit ∧ t.qdir.audit3 = 1045952 ∧
      (s.qdir.free + s.qdir.allocated + s.qdir.transit = 1045952 → t.qdir.op = opDone 0) ∧
      (s.qdir.free + s.qdir.allocated + s.qdir.transit ≠ 1045952 → t.qdir.op.state = .failed ∧ t.qdir.op.code = 0x3805 ∧
        noted t 0 0x3805 = true) ∧
      Changes [.funcs, .irqs, .queues, .qdir] s t) ∧
  (∀ (s : State) (q : QueueId) (a : QueueAlloc), s.qdir.cmd = some (.auditQueue q) → queueAlloc s q = some a → (getQueue s q).heldPops = [] →
    ∃ t, exec .bookAuditSettlePoint s = .next t ∧ t.qdir.cmd = none ∧
      ((bookTerms (getQueue s q)).1 + (bookTerms (getQueue s q)).2.1 + (bookTerms (getQueue s q)).2.2 = a.capacity → t.qdir.op = opDone 0) ∧
      ((bookTerms (getQueue s q)).1 + (bookTerms (getQueue s q)).2.1 + (bookTerms (getQueue s q)).2.2 ≠ a.capacity →
        t.qdir.op.state = .failed ∧ t.qdir.op.code = 0x3805 ∧ noted t 0 0x3805 = true) ∧
      t.qdir.audit3 = BitVec.ofNat 32 a.capacity ∧ (getQueue t q).stored = (getQueue s q).stored ∧
      Changes [.funcs, .irqs, .queues, .qdir] s t) ∧
  (∀ (s : State), s.qdir.cmd ≠ some .auditPages →
    (∀ q : QueueId, 0 < (getQueue s q).releasing →
      ∃ t, exec (.pageReleaseDone (.queue q)) s = .next t ∧
        getQueue t q = { getQueue s q with releasing := (getQueue s q).releasing - 1 } ∧
        t.qdir = { s.qdir with transit := s.qdir.transit - 1, free := s.qdir.free + 1 } ∧ Changes [.queues, .qdir] s t) ∧
    (∀ (n : StallId) (p k : Nat) (more : List (Nat × Nat)), tabGet [] s.qdir.ringTransit n.val = (p, k) :: more →
      ∃ t, exec (.pageReleaseDone (.ring n)) s = .next t ∧
        tabGet [] t.qdir.ringTransit n.val = (if k ≤ 1 then more else (p + 1, k - 1) :: more) ∧
        t.qdir.transit = s.qdir.transit - 1 ∧ t.qdir.free = s.qdir.free + 1 ∧ Changes [.qdir] s t) ∧
    (∀ q : QueueId, (getQueue s q).releasing = 0 → (getQueue s q).freeing = 1 → s.qdir.cmd = some (.flush q) →
      ∃ t, exec (.pageReleaseDone (.queue q)) s = .next t ∧ (getQueue t q).freeing = 0 ∧ t.qdir.cmd = none ∧
        t.qdir.op = opDone (if s.qdir.openDropped then 0x0801 else 0) ∧ Changes [.funcs, .irqs, .queues, .qdir] s t)) ∧
  (∀ (s : State) (k : Nat),
    (∃ t, exec (.backgroundScrub { singles := k, double := none }) s = .next t ∧ t.qdir.corrected = satAdd s.qdir.corrected k ∧
      (0 < k → noted t 0 0x0802 = true) ∧ Changes [.funcs, .qdir] s t) ∧
    (∀ a : BitVec 36, 0x8000000 ≤ a.toNat →
      ∃ t, exec (.backgroundScrub { singles := 0, double := some (a, none) }) s = .next t ∧
        t.qdir.uncorrected = satInc s.qdir.uncorrected ∧ noted t 0 0x3803 = true ∧
        (∀ j, j < 32 → tabGet 0 t.hbm (a.toNat / 32 * 32 + j) = 0) ∧
        (∀ b, b < a.toNat / 32 * 32 ∨ a.toNat / 32 * 32 + 32 ≤ b → tabGet 0 t.hbm b = tabGet 0 s.hbm b) ∧
        Changes [.funcs, .qdir, .hbm] s t) ∧
    (s.qdir.cmd = some .scrub →
      ∃ t, exec (.hbmScrubDone { singles := k, double := none }) s = .next t ∧ t.qdir.cmd = none ∧ t.qdir.op = opDone 0 ∧
        t.qdir.result = 1045952 ∧ t.qdir.corrected = satAdd s.qdir.corrected k ∧ Changes [.funcs, .irqs, .qdir] s t)) ∧
  (∀ (s : State) (f : Func) (addr : BitVec 36) (bytes : List Byte), hostReach s f = true → bytes ≠ [] →
    (∀ k, slotOf addr.toNat = some k → addr.toNat + bytes.length ≤ (k.val + 1) * 0x4000000 → slotRead s k = false →
      ∃ t, exec (.hbmHostWrite f addr bytes) s = .next t ∧ (∀ j, j < bytes.length → tabGet 0 t.hbm (addr.toNat + j) = bytes.getD j 0) ∧
        (∀ a, a < addr.toNat ∨ addr.toNat + bytes.length ≤ a → tabGet 0 t.hbm a = tabGet 0 s.hbm a) ∧ Changes [.tack, .hbm] s t) ∧
    (0x8000000 ≤ addr.toNat → ringAt s addr.toNat = none →
      ∃ t, exec (.hbmHostWrite f addr bytes) s = .next t ∧ (getFunc t f).lastCode = 0x1805 ∧ noted t 0 0x1805 = true ∧ Changes [.funcs] s t))

/-- A calibration begins, observes and ends without acceptance (R496, R505 to R516, Tables 12-2, 12-4): FARRIER_START, AUTOMATIC_CALIBRATION_START,
OBSERVATION_COMPLETE of kinds 1 to 5, OBSERVATION_TIMEOUT, ACTIVATION_TIMEOUT and FARRIER_ABORT.  A takeover that waits for the run goes on with its end
(R52). -/
def Obligations.CalibrationsBeginObserveAndEnd : Prop :=
  (∀ (s : State) (f : Func) (n : StallId) (k : CalKind) (target : BitVec 8), admits s f (faCmd n) = true →
    (farrierStartCode f n k target s = none → (getFarrier s n).cal.running = false →
      ∃ t, exec (.farrierStart f n k target) s = .next t ∧ (getFarrier t n).cal.running = true ∧ (getFarrier t n).cal.kind = k ∧
        (getFarrier t n).cal.target = target ∧ (getFarrier t n).cal.auto = false ∧
        (getFarrier t n).cal.phase = (if needsSpare s n k target then 1 else 2) ∧ (getFarrier t n).op.state = .busy ∧
        (∀ m, m ≠ n → getFarrier t m = getFarrier s m) ∧ Changes [.stalls, .farriers] s t) ∧
    (∀ c, farrierStartCode f n k target s = some c →
      ∃ t, exec (.farrierStart f n k target) s = .next t ∧ (getFarrier t n).cal = (getFarrier s n).cal ∧ (getFunc t f).lastCode = c ∧
        noted t 0 c = true ∧ Changes [.funcs, .farriers] s t)) ∧
  (∀ (s : State) (n : StallId) (k : CalKind) (target : BitVec 8), farrierRuns s n = true → (getFarrier s n).cal.running = false →
    autoNext s n = some (k, target) →
    ∃ t, exec (.automaticCalibrationStart n k target) s = .next t ∧ (getFarrier t n).cal.running = true ∧ (getFarrier t n).cal.auto = true ∧
      (getFarrier t n).cal.kind = k ∧ (getFarrier t n).cal.phase = (if needsSpare s n k target then 1 else 2) ∧
      (∀ m, m ≠ n → getFarrier t m = getFarrier s m) ∧ Changes [.stalls, .farriers] s t) ∧
  (∀ (s : State) (n : StallId), (getFarrier s n).cal.running = true →
    (∀ (figure : BitVec 16) (inRange : Bool) (vals : Tab (BitVec 32)), (getFarrier s n).cal.phase = 2 → (getFarrier s n).cal.kind ≠ .planes →
      observedEnough s n (getFarrier s n).cal (.trims figure inRange vals) = true →
      (trimsCode (getFarrier s n) (getTrims s n) (getFarrier s n).cal.kind figure inRange vals = none →
        ∃ t, exec (.observationComplete n (.trims figure inRange vals)) s = .next t ∧ (getFarrier t n).cal.phase = 4 ∧
          (getFarrier t n).cal.values = some (.trims vals) ∧ (getFarrier t n).now = figure ∧ (getFarrier t n).op.progress = 900 ∧
          getTrims t n = getTrims s n ∧ Changes [.farriers] s t) ∧
      (∀ c, trimsCode (getFarrier s n) (getTrims s n) (getFarrier s n).cal.kind figure inRange vals = some c →
        ∃ t, exec (.observationComplete n (.trims figure inRange vals)) s = .next t ∧ (getFarrier t n).cal.running = false ∧
          (getFarrier t n).op.state = .failed ∧ (getFarrier t n).op.code = c ∧ (getFarrier t n).rejected = satInc (getFarrier s n).rejected ∧
          noted t 0 c = true ∧ getTrims t n = getTrims s n ∧ t.stalls = (wakeSpareReq n s).stalls ∧ Changes [.funcs, .irqs, .stalls, .farriers] s t)) ∧
    ((getFarrier s n).cal.phase = 2 →
      ∃ t, exec (.observationTimeout n) s = .next t ∧ (getFarrier t n).cal.running = false ∧ (getFarrier t n).op.state = .failed ∧
        (getFarrier t n).op.code = 0x2902 ∧ noted t 0 0x2902 = true ∧ t.stalls = (wakeSpareReq n s).stalls ∧ Changes [.funcs, .irqs, .stalls, .farriers] s t) ∧
    ((getFarrier s n).cal.phase = 4 →
      ∃ t, exec (.activationTimeout n) s = .next t ∧ (getFarrier t n).cal.running = false ∧ (getFarrier t n).op.state = .failed ∧
        (getFarrier t n).op.code = 0x2903 ∧ noted t 0 0x2903 = true ∧ t.stalls = (wakeSpareReq n s).stalls ∧ Changes [.funcs, .irqs, .stalls, .farriers] s t)) ∧
  (∀ (s : State) (f : Func) (n : StallId), admits s f (faCmd n) = true → abortCode f n s = none →
    ((getFarrier s n).cal.running = false → ∃ t, exec (.farrierAbort f n) s = .next t ∧ t = s) ∧
    ((getFarrier s n).cal.running = true →
      ∃ t, exec (.farrierAbort f n) s = .next t ∧ (getFarrier t n).cal.running = false ∧ (getFarrier t n).op.state = .aborted ∧
        (getFarrier t n).op.code = 0x0901 ∧ (getFarrier t n).rejected = (getFarrier s n).rejected ∧ noted t 0 0x0901 = true ∧
        getTrims t n = getTrims s n ∧ t.stalls = (wakeSpareReq n s).stalls ∧ Changes [.funcs, .irqs, .stalls, .farriers] s t))

/-- A calibration takes the spare, goes into force and is recorded; a set is restored (R496, R509 to R511, R518 to R521, R638): FARRIER_SPARE_SWITCH,
QUIET_BOUNDARY of kinds 2 to 5 and RESTORE.  A marker's trim waits until its voice has not played for a beat (Table 12-3). -/
def Obligations.CalibrationsGoIntoForce : Prop :=
  (∀ (s : State) (n : StallId) (a : Fin 5), (getFarrier s n).cal.running = true → (getFarrier s n).cal.phase = 1 →
    (getFarrier s n).cal.returning = false → (getStall s n).spareAcq.use = .idle → (getStall s n).spareAcq.bad = false →
    calSlice s n (getFarrier s n).cal.kind (getFarrier s n).cal.target = some a → a.val = 4 ∨ sliceSilent s ⟨n, .acq, a.castLE (Nat.le_add_right 5 4)⟩ = true →
    ∃ t, exec (.farrierSpareSwitch n) s = .next t ∧ (getStall t n).spareAcq.use = .farrier ∧
      (getStall t n).spareAcq.target = (if a.val = 4 then (getStall s n).spareAcq.served else BitVec.ofNat 4 a.val) ∧ (getFarrier t n).cal.phase = 2 ∧ (getFarrier t n).op.progress = 100 ∧
      (∀ m, m ≠ n → getStall t m = getStall s m ∧ getFarrier t m = getFarrier s m) ∧ Changes [.stalls, .farriers] s t) ∧
  (∀ (s : State) (n : StallId) (vals : Tab (BitVec 32)) (bad : Option Bool), (getFarrier s n).cal.running = true → (getFarrier s n).cal.phase = 4 →
    (getFarrier s n).cal.values = some (.trims vals) → readoutKind (getFarrier s n).cal.kind = false →
    quietFrame s n (getFarrier s n).cal.target = true →
    ∃ t, exec (.quietBoundary n bad) s = .next t ∧ (getFarrier t n).cal.running = false ∧
      (getFarrier t n).accepted = satInc (getFarrier s n).accepted ∧
      ((getStall s n).factoryHold = false → bad = none →
        (getFarrier t n).op = opDone 0 ∧ (getStud t n).a.seq = nextSeq (getStud s n) ∧ (getStud t n).b.seq = nextSeq (getStud s n) ∧
        (getStud t n).a.ok = true ∧ (getStud t n).b.ok = true ∧ (getStud t n).a.skew = (getTrims t n).skew) ∧
      ((getStall s n).factoryHold = false → bad.isSome = true →
        (getFarrier t n).op.state = .failed ∧ (getFarrier t n).op.code = 0x2905 ∧ (getFarrier t n).studStale = true ∧ noted t 0 0x2905 = true) ∧
      ((getStall s n).factoryHold = true →
        (getFarrier t n).op = opDone 0 ∧ (getFarrier t n).studStale = true ∧ getStud t n = getStud s n) ∧
      (∀ m : Fin 4, (getFarrier s n).cal.kind = .marker → targetOf (getFarrier s n).cal.target = .marker m →
        tabGet {} (getTrims t n).pendMarkers m.val = { accepted := true, value := tabGet 0 vals 0, quality := (getFarrier s n).cal.quality }) ∧
      (∀ m, m ≠ n → getFarrier t m = getFarrier s m ∧ getTrims t m = getTrims s m) ∧ Changes [.funcs, .irqs, .persist, .stalls, .voices, .chans, .farriers, .trims] s t) ∧
  (∀ (s : State) (f : Func) (n : StallId) (target : BitVec 8), admits s f (faCmd n) = true → restoreCode f n target s = none →
    ∃ t k e, exec (.restore f n target) s = .next t ∧ restoreEntry s n target = some (k, e) ∧ (getChan t ⟨n, k⟩).pendPlane = some e.planes ∧
      (getChan t ⟨n, k⟩).stagedPlane = e.planes ∧ (getChan t ⟨n, k⟩).planes = (getChan s ⟨n, k⟩).planes ∧
      tabFind k.val (getTrims t n).chans = some e ∧ (getFarrier t n).op = opDone 0 ∧
      (∀ c, c ≠ ⟨n, k⟩ → getChan t c = getChan s c) ∧ Changes [.funcs, .irqs, .chans, .farriers, .trims] s t)

/-- The life of a tether lane (R538 to R543, R547 to R549, R554, Tables 13-3, 13-4): RETRAIN, INJECT, TL_CTL_WRITE, TRAINING_PATTERN_RECEIVED,
TRAINING_PHASE_END, TRAINING_TIMEOUT, BACKOFF_WAIT_END, LOSS_OF_SIGNAL, ERROR_RATE_LIMIT, TIME_MARK_RECEIVED and TIME_MARK_TIMER. -/
def Obligations.LanesTrainHitchAndFall : Prop :=
  (∀ (s : State) (f : Func) (k : LaneId), admitsSpine s f (.tether .cmd) = true →
    (retrainCode k s = none →
      ∃ t, exec (.retrain f k) s = .next t ∧ (getLane t k).state = .training ∧ (getLane t k).phase = 1 ∧
        (getLane t k).trainings = satInc (getLane s k).trainings ∧ t.tether.op = opStart ∧ t.tether.retrain = some k ∧
        ((getLane s k).state = .hitched → (getLane t k).cause = 7 ∧ (getLane t k).egress = [] ∧ (getLane t k).unacked = []) ∧
        Changes [.funcs, .irqs, .books, .lanes, .tether, .tc] s t) ∧
    ((getLane s k).state = .hitched →
      ∃ t, exec (.inject f k) s = .next t ∧ getLane t k = { getLane s k with corruptNext := true } ∧
        (∀ j, j ≠ k → getLane t j = getLane s j) ∧ Changes [.lanes] s t)) ∧
  (∀ (s : State) (f : Func) (k : LaneId) (val : Word), admits s f (.tl k .ctl) = true →
    (bit val 31 = true → (getLane s k).enable = false → lanesHeld s = true →
      ∃ t, exec (.tlCtlWrite f k val) s = .next t ∧ (getLane t k).enable = true ∧ (getLane t k).state = (getLane s k).state ∧
        (getLane t k).trainings = (getLane s k).trainings ∧ (∀ j, j ≠ k → getLane t j = getLane s j) ∧ Changes [.lanes] s t) ∧
    (bit val 31 = true → (getLane s k).enable = false → lanesHeld s = false →
      ∃ t, exec (.tlCtlWrite f k val) s = .next t ∧ (getLane t k).enable = true ∧ (getLane t k).state = .training ∧ (getLane t k).phase = 1 ∧
        (getLane t k).backoff = 0 ∧ (getLane t k).eqAuto = bit val 30 ∧ (getLane t k).eqSet = bits val 24 4 ∧
        (getLane t k).prbs.genEn = false ∧ (∀ j, j ≠ k → getLane t j = getLane s j) ∧ Changes [.funcs, .irqs, .lanes] s t) ∧
    (bit val 31 = false → (getLane s k).enable = true → (getLane s k).state ≠ .unhitched →
      ∃ t, exec (.tlCtlWrite f k val) s = .next t ∧ (getLane t k).enable = false ∧ (getLane t k).state = .unhitched ∧ (getLane t k).cause = 6 ∧
        Changes [.funcs, .irqs, .books, .lanes, .tether, .tc] s t) ∧
    (bit val 31 = (getLane s k).enable →
      ∃ t, exec (.tlCtlWrite f k val) s = .next t ∧ getLane t k = { getLane s k with eqAuto := bit val 30, eqSet := bits val 24 4 } ∧
        (∀ j, j ≠ k → getLane t j = getLane s j) ∧ Changes [.lanes] s t)) ∧
  (∀ (s : State) (k : LaneId), (getLane s k).state = .unhitched → (getLane s k).enable = true → lanesHeld s = false →
    (∃ t, exec (.trainingPatternReceived k) s = .next t ∧ (getLane t k).state = .training ∧ (getLane t k).phase = 1 ∧
      (∀ j, j ≠ k → getLane t j = getLane s j) ∧ Changes [.funcs, .irqs, .lanes] s t) ∧
    (∃ t, exec (.backoffWaitEnd k) s = .next t ∧ (getLane t k).state = .training ∧ (getLane t k).phase = 1 ∧
      (∀ j, j ≠ k → getLane t j = getLane s j) ∧ Changes [.funcs, .irqs, .lanes] s t)) ∧
  (∀ (s : State) (k : LaneId) (found : PhaseFound), (getLane s k).state = .training →
    ((getLane s k).phase = 1 → found.ppm ≤ 200 →
      ∃ t, exec (.trainingPhaseEnd k found) s = .next t ∧ getLane t k = { getLane s k with phase := 2 } ∧
        (∀ j, j ≠ k → getLane t j = getLane s j) ∧ Changes [.lanes, .tether] s t) ∧
    ((getLane s k).phase = 1 → 200 < found.ppm →
      ∃ t, exec (.trainingPhaseEnd k found) s = .next t ∧ (getLane t k).state = .unhitched ∧ (getLane t k).cause = 3 ∧
        (getLane t k).backoff = min 6 ((getLane s k).backoff + 1) ∧ noted t 0 0x2A03 = true ∧
        Changes [.funcs, .irqs, .lanes, .tether] s t) ∧
    ((getLane s k).phase = 3 →
      ∃ t, exec (.trainingPhaseEnd k found) s = .next t ∧ (getLane t k).phase = 4 ∧
        ((getLane s k).trainAuto = false →
          (getLane t k).eqNow = (getLane s k).trainSet ∧ (getLane t k).eye = tabGet 0 found.eyes (getLane s k).trainSet.toNat) ∧
        ((getLane s k).trainAuto = true → (getLane t k).eye = tabGet 0 found.eyes (getLane t k).eqNow.toNat ∧
          (∀ j, j < 16 → tabGet 0 found.eyes j ≤ (getLane t k).eye ∧ (tabGet 0 found.eyes j = (getLane t k).eye → (getLane t k).eqNow.toNat ≤ j))) ∧
        (∀ j, j ≠ k → getLane t j = getLane s j) ∧ Changes [.lanes, .tether] s t) ∧
    ((getLane s k).phase = 4 → found.partnerId ≠ (laneCfg s k).partnerId ∨ found.partnerLane ≠ (laneCfg s k).partnerLane →
      ∃ t, exec (.trainingPhaseEnd k found) s = .next t ∧ (getLane t k).state = .unhitched ∧ (getLane t k).cause = 2 ∧
        (getLane t k).seenId = found.partnerId ∧ noted t 0 0x2A02 = true ∧ Changes [.funcs, .irqs, .lanes, .tether] s t) ∧
    ((getLane s k).phase = 4 → found.partnerId = (laneCfg s k).partnerId → found.partnerLane = (laneCfg s k).partnerLane →
      ∃ t, exec (.trainingPhaseEnd k found) s = .next t ∧ (getLane t k).state = .training ∧ (getLane t k).phase = 5 ∧
        (∀ j, j ≠ k → getLane t j = getLane s j) ∧ Changes [.lanes, .tether] s t) ∧
    ((getLane s k).phase = 5 → 1024 ≤ (getLane s k).time.trips →
      ∃ t, exec (.trainingPhaseEnd k found) s = .next t ∧ (getLane t k).state = .hitched ∧ (getLane t k).backoff = 0 ∧
        (getLane t k).time.mean = latField (meanLatency (getLane s k).time.sum (getLane s k).time.trips) ∧ noted t 0 0x0A01 = true ∧
        (∀ j, j ≠ k → getLane t j = getLane s j) ∧ Changes [.funcs, .irqs, .lanes, .tether, .tc] s t) ∧
    (∃ t, exec (.trainingTimeout k) s = .next t ∧ (getLane t k).state = .unhitched ∧ (getLane t k).cause = 1 ∧
      (getLane t k).backoff = min 6 ((getLane s k).backoff + 1) ∧ noted t 0 0x2A01 = true ∧ Changes [.funcs, .irqs, .lanes, .tether] s t)) ∧
  (∀ (s : State) (k : LaneId), (getLane s k).state = .hitched →
    (∃ t, exec (.lossOfSignal k) s = .next t ∧ (getLane t k).state = .unhitched ∧ (getLane t k).cause = 4 ∧ (getLane t k).unacked = [] ∧
      (getLane t k).egress = [] ∧ (getLane t k).lost = satAdd (getLane s k).lost (getLane s k).unacked.length ∧ noted t 0 0x3A01 = true ∧
      Changes [.funcs, .irqs, .books, .lanes, .tether, .tc] s t) ∧
    (∃ t, exec (.errorRateLimit k) s = .next t ∧ (getLane t k).state = .unhitched ∧ (getLane t k).cause = 5 ∧ (getLane t k).unacked = [] ∧
      noted t 0 0x3A02 = true ∧ Changes [.funcs, .irqs, .books, .lanes, .tether, .tc] s t) ∧
    (∃ t, exec (.timeMarkTimer k) s = .next t ∧
      getLane t k = { getLane s k with
        time := { (getLane s k).time with sent := some (stampNow s 0) }
        tx := { (getLane s k).tx with marks := (getLane s k).tx.marks ++ [.request (stampNow s 0)] } } ∧
      (∀ j, j ≠ k → getLane t j = getLane s j) ∧ Changes [.lanes] s t)) ∧
  (∀ (s : State) (k : LaneId) (at_ : Fin 256), marksOn (getLane s k) = true →
    ∃ t, exec (.timeMarkReceived k (.request at_)) s = .next t ∧
      getLane t k = { getLane s k with
        tx := { (getLane s k).tx with marks := (getLane s k).tx.marks ++ [.reply (stampNow s at_.val) (stampNow s at_.val)] } } ∧
      (∀ j, j ≠ k → getLane t j = getLane s j) ∧ Changes [.lanes] s t) ∧
  (∀ (s : State) (k : LaneId) (t1 t2 t3 t4 : Int) (at_ : Fin 256), (getLane s k).time.sent = some t1 → t4 = stampNow s at_.val →
    ((getLane s k).state = .training → (getLane s k).phase = 5 →
      ∃ t, exec (.timeMarkReceived k (.reply t2 t3 at_)) s = .next t ∧ (getLane t k).time.trips = (getLane s k).time.trips + 1 ∧
        (getLane t k).time.sum = (getLane s k).time.sum + ((t4 - t1) - (t3 - t2)) ∧ (getLane t k).state = .training ∧
        (∀ j, j ≠ k → getLane t j = getLane s j) ∧ Changes [.lanes, .tether] s t) ∧
    ((getLane s k).state = .hitched →
      ∃ t, exec (.timeMarkReceived k (.reply t2 t3 at_)) s = .next t ∧
        (getLane t k).time.last = latField ((((t4 - t1) - (t3 - t2)) / 2).toNat) ∧
        ((getLane s k).time.worst.toNat < (((t4 - t1) - (t3 - t2)) / 2).toNat → (getLane t k).overErr = true ∧ noted t 0 0x3A05 = true) ∧
        (∀ j, j ≠ k → getLane t j = getLane s j) ∧ Changes [.funcs, .irqs, .lanes, .tc] s t))

/-- Events, packets and patterns of a tether lane (R530 to R537, R550 to R552): EVENT_RECEIVED, EVENT_ACKNOWLEDGE, PACKET_RECEIVED,
PACKET_RETRANSMISSION, TL_PRBS_WRITE, CHECKER_LOCKED and CHECKER_LOCK_LOST. -/
def Obligations.LanesCarryEventsAndPackets : Prop :=
  (∀ (s : State) (k : LaneId), (getLane s k).state = .hitched →
    (∀ tok : Token, ∃ t, exec (.eventReceived k tok false) s = .next t ∧
      getLane t k = { getLane s k with codeErr := satInc (getLane s k).codeErr, tx := { (getLane s k).tx with ackDue := true } } ∧
      (∀ j, j ≠ k → getLane t j = getLane s j) ∧ Changes [.lanes] s t) ∧
    (∀ tok : Token, tok.hop ≠ 7 → chanHeld s tok.chan = false →
      ∃ t, exec (.eventReceived k tok true) s = .next t ∧
        (getBook t tok.chan).issued = (getBook s tok.chan).issued + (consumersOf s tok.chan).length ∧
        getLane t k = { getLane s k with intactIn := (getLane s k).intactIn + 1, tx := { (getLane s k).tx with ackDue := true } } ∧ (∀ j, j ≠ k → getLane t j = getLane s j) ∧
        (∀ e, e ≠ tok.chan → getBook t e = getBook s e) ∧ Changes [.funcs, .books, .flights, .nextFlight, .hub, .lanes] s t) ∧
    (∀ tok : Token, tok.hop = 7 →
      ∃ t, exec (.eventReceived k tok true) s = .next t ∧ (getBook t tok.chan).issued = (getBook s tok.chan).issued + 1 ∧
        (getBook t tok.chan).loop = (getBook s tok.chan).loop + 1 ∧ t.hub.loop = satInc s.hub.loop ∧ noted t 0 0x3641 = true ∧
        getLane t k = { getLane s k with intactIn := (getLane s k).intactIn + 1, tx := { (getLane s k).tx with ackDue := true } } ∧ (∀ j, j ≠ k → getLane t j = getLane s j) ∧
        Changes [.funcs, .books, .hub, .lanes] s t) ∧
    (∀ (count : BitVec 8) (answers lost : Nat),
      lost = max (((getLane s k).unacked.take answers).length - (count - (getLane s k).ackCount).toNat)
        (((getLane s k).unacked.take answers).filter fun e => e.bad).length →
      ∃ t, exec (.eventAcknowledge k (.events count answers)) s = .next t ∧
        getLane t k = { getLane s k with
          unacked := (getLane s k).unacked.drop answers, ackCount := count, lost := satAdd (getLane s k).lost lost } ∧
        (0 < lost → noted t 0 0x3A04 = true) ∧ (∀ j, j ≠ k → getLane t j = getLane s j) ∧ Changes [.funcs, .lanes] s t) ∧
    (∀ (q : QueueId) (credits : Bool) (n : Nat),
      ∃ t, exec (.eventAcknowledge k (.packet q credits n)) s = .next t ∧
        (∀ p, p ∈ t.tether.packets ↔ p ∈ s.tether.packets ∧ ¬(p.lane = some k ∧ p.queue = q ∧ p.words.isEmpty = credits ∧ p.seq = n)) ∧
        Changes [.tether] s t) ∧
    (∀ (q : QueueId) (credits : Bool) (n : Nat),
      ∃ t, exec (.packetRetransmission k q credits n) s = .next t ∧
        t.tether.packets = s.tether.packets.map (fun p =>
          if p.lane = some k ∧ p.queue = q ∧ p.words.isEmpty = credits ∧ p.seq = n then { p with due := true } else p) ∧
        Changes [.tether] s t) ∧
    (∀ p : PacketIn,
      (∃ t, exec (.packetReceived k p false) s = .next t ∧ getLane t k = { getLane s k with codeErr := satInc (getLane s k).codeErr } ∧
        (∀ j, j ≠ k → getLane t j = getLane s j) ∧ Changes [.lanes] s t) ∧
      (tabGet 0 s.tether.received (packetKey p.queue p.words.isEmpty) < p.seq →
        ∃ t, exec (.packetReceived k p true) s = .next t ∧ t = s) ∧
      (p.seq ≤ tabGet 0 s.tether.received (packetKey p.queue p.words.isEmpty) →
        ∃ t, exec (.packetReceived k p true) s = .next t ∧
          getLane t k = { getLane s k with
            tx := { (getLane s k).tx with packAcks := (getLane s k).tx.packAcks ++ [(p.queue, p.words.isEmpty, p.seq)] } } ∧
          (∀ j, j ≠ k → getLane t j = getLane s j) ∧
          (p.seq < tabGet 0 s.tether.received (packetKey p.queue p.words.isEmpty) → Changes [.lanes] s t)) ∧
      (p.seq = tabGet 0 s.tether.received (packetKey p.queue true) → p.words = [] →
        ∃ t, exec (.packetReceived k p true) s = .next t ∧
          tabGet 0 t.tether.received (packetKey p.queue true) = p.seq + 1 ∧
          tabGet 0 t.tether.remote p.queue.toNat = tabGet 0 s.tether.remote p.queue.toNat + p.credits ∧ Changes [.lanes, .tether] s t) ∧
      (∀ w i, p.seq = tabGet 0 s.tether.received (packetKey p.queue false) → p.words = [w] → portOfLane s p.queue k = some i →
        ∃ t, exec (.packetReceived k p true) s = .next t ∧
          getProd t p.queue i = { getProd s p.queue i with
            credits := (getProd s p.queue i).credits - 1
            flight := (getProd s p.queue i).flight ++ [{ word := w.1, eoi := w.2, port := i }] } ∧
          tabGet 0 t.tether.received (packetKey p.queue false) = p.seq + 1 ∧ Changes [.queues, .lanes, .tether] s t))) ∧
  (∀ (s : State) (f : Func) (k : LaneId) (val : Word), admits s f (.tl k .prbs) = true → prbsCode k val s = none →
    ∃ t, exec (.tlPrbsWrite f k val) s = .next t ∧ (getLane t k).prbs.genEn = bit val 31 ∧ (getLane t k).prbs.chkEn = bit val 30 ∧
      (getLane t k).prbs.poly = bits val 28 2 ∧ (getLane t k).prbs.injRate = bits val 20 4 ∧
      (getLane t k).prbs.injectNext = ((getLane s k).prbs.injectNext || bit val 19) ∧
      (getLane t k).prbs.locked = ((getLane s k).prbs.locked && bit val 30) ∧ (getLane t k).state = (getLane s k).state ∧
      (∀ j, j ≠ k → getLane t j = getLane s j) ∧ Changes [.lanes, .freeCtr] s t) ∧
  (∀ (s : State) (k : LaneId),
    ((getLane s k).prbs.chkEn = true →
      ∃ t, exec (.checkerLocked k) s = .next t ∧ getLane t k = { getLane s k with prbs := { (getLane s k).prbs with locked := true } } ∧
        (∀ j, j ≠ k → getLane t j = getLane s j) ∧ Changes [.lanes] s t) ∧
    (∃ t, exec (.checkerLockLost k) s = .next t ∧ getLane t k = { getLane s k with prbs := { (getLane s k).prbs with locked := false } } ∧
      (∀ j, j ≠ k → getLane t j = getLane s j) ∧ Changes [.lanes] s t))

/-- The epoch and the servo (R557 to R566, R578, R579, Table 14-5): ALIGN, ALIGN_STEP, ALIGN_COMPLETE, ALIGN_TIMEOUT, SWITCH, ACCEPT, EPOCH_TAI_WRITE,
TIME_NOW_READ and SLEW_SATURATION. -/
def Obligations.TheEpochIsAlignedAndSwitched : Prop :=
  (∀ (s : State) (f : Func), admitsSpine s f (.time .cmd) = true → s.tc.align = false →
    (someRides s = false →
      ∃ t, exec (.align f) s = .next t ∧ t.tc.align = true ∧ t.tc.alignStepped = false ∧ t.tc.op = opStart ∧ t.tc.tai = s.tc.tai ∧
        Changes [.funcs, .tc] s t) ∧
    (someRides s = true →
      ∃ t, exec (.align f) s = .next t ∧ t.tc = { s.tc with op := opRefuse 0x1B01 s.tc.op } ∧ (getFunc t f).lastCode = 0x1B01 ∧
        noted t 0 0x1B01 = true ∧ Changes [.funcs, .tc] s t) ∧
    (∀ d : Fin 2, locked s d = true →
      (s.persist.time.role = 1 → followed s ≠ some d →
        ∃ t, exec (.switch f d) s = .next t ∧ followed t = some d ∧ t.tc.error = (if d = 1 then s.tc.inter else -s.tc.inter) ∧ t.tc.op = opDone 0x0B02 ∧
          noted t 0 0x0B02 = true ∧ Changes [.funcs, .irqs, .tc] s t) ∧
      (s.persist.time.role ≠ 1 → ∃ t, exec (.switch f d) s = .next t ∧ t.tc.op = opDone 0 ∧ Changes [.funcs, .irqs, .tc] s t)) ∧
    (∀ d : Fin 2, locked s d = false →
      ∃ t, exec (.switch f d) s = .next t ∧ (getFunc t f).lastCode = 0x1B04 ∧ t.tc.servo = s.tc.servo ∧ Changes [.funcs, .tc] s t) ∧
    (∀ d : Fin 2,
      ∃ t, exec (.accept f d) s = .next t ∧ t.tc.op = opDone 0 ∧
        ((getDomain s d).state = .degraded → (getDomain t d).state = .listening ∧ (getDomain t d).samples = []) ∧
        ((getDomain s d).state ≠ .degraded → getDomain t d = getDomain s d) ∧
        (∀ e, e ≠ d → getDomain t e = getDomain s e) ∧ Changes [.funcs, .irqs, .tc, .domains] s t)) ∧
  (∀ (s : State) (tai : Tai) (error : Int), s.tc.align = true →
    (s.tc.alignStepped = false → alignTarget s = true → someRides s = false →
      ∃ t, exec (.alignStep tai error) s = .next t ∧ t.tc.tai = tai ∧ t.tc.epochValid = s.tc.epochValid ∧ t.tc.alignStepped = true ∧
        t.tc.error = error - error.tdiv 320 * 320 ∧ t.clock.sched = ((s.clock.sched : Int) - error.tdiv 320 * 7680).toNat ∧
        t.clock.now = s.clock.now ∧ Changes [.clock, .funcs, .units, .nodes, .books, .flights, .nextFlight, .hub, .tc, .pulses] s t) ∧
    (s.tc.alignStepped = true → error.natAbs < s.persist.time.lockThresh.toNat * 16 →
      ∃ t, exec (.alignComplete error) s = .next t ∧ t.tc.align = false ∧ t.tc.op = opDone 0x0B03 ∧ t.tc.error = error ∧ t.tc.epochValid = true ∧
        noted t 0 0x0B03 = true ∧ Changes [.funcs, .irqs, .tc] s t) ∧
    (s.tc.alignStepped = false → alignTarget s = true → exec .alignTimeout s = .next s) ∧
    (s.tc.alignStepped = false → alignTarget s = false →
      ∃ t, exec .alignTimeout s = .next t ∧ t.tc.align = false ∧ t.tc.op.state = .failed ∧ t.tc.op.code = 0x2B01 ∧
        noted t 0 0x2B01 = true ∧ Changes [.funcs, .irqs, .tc] s t)) ∧
  (∀ (s : State) (f : Func) (val : Word),
    (admits s f (.time (.tai 0)) = true → someRides s = false →
      ∃ t, exec (.epochTaiWrite f 0 val) s = .next t ∧ tabGet 0 t.held (regAddr (.time (.tai 0))) = val ∧ Changes [.held] s t) ∧
    (admits s f (.time (.tai 2)) = true → someRides s = false →
      ∃ t, exec (.epochTaiWrite f 2 val) s = .next t ∧ t.tc.epochValid = true ∧ t.tc.tai.ns = val ∧
        t.tc.tai.sub = bits (heldWord (.time (.tai 0)) (bits (epochTime s).sec 0 16 ++ (epochTime s).sub) s) 0 16 ∧
        t.tc.tai.sec = heldWord (.time (.tai 1)) (bits (epochTime s).sec 16 32) s ++
          (bits (heldWord (.time (.tai 0)) (bits (epochTime s).sec 0 16 ++ (epochTime s).sub) s) 16 16 : BitVec 16) ∧
        Changes [.tc, .held] s t) ∧
    (hostReach s f = true →
      ∃ t, exec (.timeNowRead f) s = .next t ∧ t.tc.nowSched = schedOfFine s.clock.sched ∧ t.tc.nowTai = taiOf (taiAt s s.clock.sched) ∧
        t.tc.tai = s.tc.tai ∧ Changes [.tc] s t)) ∧
  (∀ s : State, s.persist.time.role = 1 →
    ∃ t, exec .slewSaturation s = .next t ∧ t.tc = { s.tc with slewSat := true } ∧ noted t 0 0x3B05 = true ∧ Changes [.funcs, .tc] s t)

/-- Ports, domains and time pulses (R567 to R586, Tables 14-3, 14-5): PTP_MESSAGE_RECEIVED, NON_PTP_FRAME, DELAY_REQ_SEND, PT_LINK_CHANGE,
ANNOUNCE_TIMEOUT, DM_CTL_WRITE, TP_ARM, TP_DISARM and TIME_PULSE_EDGE. -/
def Obligations.DomainsAreTrackedAndPulsesFire : Prop :=
  (∀ (s : State) (p : Fin 2), portRuns s p = true →
    (∀ (m : PtpFrame) (a : AnnounceData) (i : Int), m.msg = .announce a i → supported (portCfg s p) m = true →
      ∃ t, exec (.ptpMessageReceived p m) s = .next t ∧ (getPort t p).ptpRx = satInc (getPort s p).ptpRx ∧
        (∀ d : Fin 2, tracked s p d m.number = true →
          (getDomain t d).masters = a :: (getDomain s d).masters.filter (fun b => decide (b.sender ≠ a.sender)) ∧
          (getDomain t d).gmClass = ((bestMaster (getDomain t d).masters).getD a).gmClass ∧
          (getDomain t d).gmId = ((bestMaster (getDomain t d).masters).getD a).gmId ∧
          (getDomain t d).state = (if (getDomain s d).state = .lost then .listening else (getDomain s d).state)) ∧
        (∀ d : Fin 2, tracked s p d m.number = false → getDomain t d = getDomain s d) ∧ Changes [.ethPorts, .domains] s t) ∧
    (∀ (m : PtpFrame) (d : Fin 2) (sender : BitVec 64) (offset path i : Int), m.msg = .sample sender offset path i →
      supported (portCfg s p) m = true → tracked s p d m.number = true → (∀ e, e ≠ d → tracked s p e m.number = false) →
      takesSample (getDomain s d) sender = true → (getDomain s d).state = .locked →
      (getDomain s d).samples = [] ∨
        ((corrected (portCfg s p) offset path).1 - (getDomain s d).offset).natAbs ≤ s.persist.time.offStep.toNat * 16 →
      ∃ t, exec (.ptpMessageReceived p m) s = .next t ∧ (getDomain t d).state = .locked ∧
        (getDomain t d).samples = (corrected (portCfg s p) offset path :: (getDomain s d).samples).take 16 ∧
        (getDomain t d).offset = median ((getDomain t d).samples.map (·.1)) ∧ (getDomain t d).outliers = (getDomain s d).outliers ∧
        (∀ e, e ≠ d → getDomain t e = getDomain s e) ∧ Changes [.funcs, .tc, .ethPorts, .domains] s t) ∧
    (∀ (m : PtpFrame) (rx tx : Int), m.msg = .pdelayReq rx tx → supported (portCfg s p) m = true →
      ∃ t, exec (.ptpMessageReceived p m) s = .next t ∧
        getPort t p = { getPort s p with ptpRx := satInc (getPort s p).ptpRx, sent := pdelayAnswer (portCfg s p) rx tx } ∧
        (∀ q, q ≠ p → getPort t q = getPort s q) ∧ Changes [.ethPorts] s t) ∧
    (∀ m : PtpFrame, supported (portCfg s p) m = false →
      ∃ t, exec (.ptpMessageReceived p m) s = .next t ∧ getPort t p = { getPort s p with ptpRx := satInc (getPort s p).ptpRx } ∧
        (∀ q, q ≠ p → getPort t q = getPort s q) ∧ Changes [.ethPorts] s t) ∧
    (∀ a : BitVec 32, a = (portCfg s p).ipv4 → a ≠ 0 →
      ∃ t, exec (.nonPtpFrame p (.arp a)) s = .next t ∧ getPort t p = { getPort s p with answered := (getPort s p).answered + 1 } ∧
        (∀ q, q ≠ p → getPort t q = getPort s q) ∧ Changes [.ethPorts] s t) ∧
    (∃ t, exec (.nonPtpFrame p .other) s = .next t ∧ getPort t p = { getPort s p with dropped := satInc (getPort s p).dropped } ∧
      (∀ q, q ≠ p → getPort t q = getPort s q) ∧ Changes [.ethPorts] s t) ∧
    (∀ stamp : Int,
      ∃ t m, exec (.delayReqSend p stamp) s = .next t ∧ (getPort t p).sent = [m] ∧ m.inFrame = (oneStepNow (portCfg s p) && !(portCfg s p).p2p) ∧ m.stamp = stamp + txCorr (portCfg s p) ∧
        m.kind = (if (portCfg s p).p2p then 2 else 1) ∧ (∀ q, q ≠ p → getPort t q = getPort s q) ∧ Changes [.ethPorts] s t)) ∧
  (∀ (s : State) (p : Fin 2) (up : Bool),
    ∃ t, exec (.ptLinkChange p up) s = .next t ∧ getPort t p = { getPort s p with link := up } ∧
      (∀ q, q ≠ p → getPort t q = getPort s q) ∧ Changes [.ethPorts] s t) ∧
  (∀ (s : State) (d : Fin 2), (getDomain s d).state ≠ .disabled → (getDomain s d).state ≠ .lost →
    ∃ t, exec (.announceTimeout d) s = .next t ∧ (getDomain t d).state = .lost ∧ (getDomain t d).cause = 3 ∧ (s.persist.time.role ≠ 1 → noted t 0 0x3B03 = true) ∧
      (∀ e, e ≠ d → getDomain t e = getDomain s e) ∧ Changes [.funcs, .tc, .domains] s t) ∧
  (∀ (s : State) (f : Func) (d : Fin 2) (val : Word), admits s f (.dm d .ctl) = true →
    ∃ t, exec (.dmCtlWrite f d val) s = .next t ∧ (domainCfg t d).enable = bit val 31 ∧ (domainCfg t d).port = bit val 30 ∧
      (domainCfg t d).number = bits val 16 8 ∧ (domainCfg t d).annTimeout = bits val 8 4 ∧
      (bit val 31 = true → (domainCfg s d).enable = false → (getDomain t d).state = .listening) ∧
      (bit val 31 = false → (domainCfg s d).enable = true → (getDomain t d).state = .disabled) ∧
      (bit val 31 = (domainCfg s d).enable → getDomain t d = getDomain s d) ∧
      (∀ e, e ≠ d → getDomain t e = getDomain s e ∧ domainCfg t e = domainCfg s e) ∧ Changes [.funcs, .persist, .tc, .domains] s t) ∧
  (∀ (s : State) (f : Func) (k : Fin 8), admits s f (.tp k .ctl) = true →
    (pulseArmCode k s = none → (getPulse s k).level = false →
      ∃ t a, exec (.tpArm f k) s = .next t ∧ getPulse t k = { getPulse s k with armed := some a } ∧ a.mode = (getPulse s k).mode ∧
        a.start = schedToFine (getPulse s k).start / 16 * 16 ∧ a.width = (getPulse s k).width.toNat ∧
        (∀ j, j ≠ k → getPulse t j = getPulse s j) ∧ Changes [.pulses] s t) ∧
    (pulseArmCode k s = some 0x1B03 →
      ∃ t, exec (.tpArm f k) s = .next t ∧ (getFunc t f).lastCode = 0x1B03 ∧ noted t 0 0x1B03 = true ∧ Changes [.funcs] s t) ∧
    ((getPulse s k).level = false →
      ∃ t, exec (.tpDisarm f k) s = .next t ∧ getPulse t k = { getPulse s k with armed := none } ∧
        (∀ j, j ≠ k → getPulse t j = getPulse s j) ∧ Changes [.pulses] s t) ∧
    ((getPulse s k).level = true →
      ∃ t, exec (.tpDisarm f k) s = .next t ∧ getPulse t k = { getPulse s k with disarmPend := true, nextArm := none } ∧
        (∀ j, j ≠ k → getPulse t j = getPulse s j) ∧ Changes [.pulses] s t)) ∧
  (∀ (s : State) (k : Fin 8) (a : TpArm), (getPulse s k).armed = some a → a.mode ≠ 0 →
    (pulseDue s a = none → exec (.timePulseEdge k true) s = .next s) ∧
    (∀ at_, (getPulse s k).level = false → pulseDue s a = some at_ → (getPulse s k).rose ≠ some at_ →
      ∃ t, exec (.timePulseEdge k true) s = .next t ∧
        getPulse t k = { getPulse s k with
          level := true, rose := some at_, endsAt := at_ + a.width * 16, pulses := satInc (getPulse s k).pulses } ∧
        (∀ j, j ≠ k → getPulse t j = getPulse s j) ∧ Changes [.funcs, .nodes, .books, .flights, .nextFlight, .hub, .pulses] s t) ∧
    ((getPulse s k).level = true → a.mode = 1 → (getPulse s k).nextArm = none → (getPulse s k).endsAt < s.clock.now + 256 →
      ∃ t, exec (.timePulseEdge k false) s = .next t ∧ (getPulse t k).level = false ∧ (getPulse t k).armed = none ∧
        (∀ j, j ≠ k → getPulse t j = getPulse s j) ∧ Changes [.funcs, .nodes, .books, .flights, .nextFlight, .hub, .pulses] s t))

/-- Comparators (R591 to R603, R20, Tables 15-1, 15-2): COMPARATOR_TRIP, LATCH_CLEAR, PERIOD_CLEAR, CHECK_SWAP, CHECK_LEVELS, SELF_CHECK_END and
COMPARATOR_CONFIG_WRITE. -/
def Obligations.ComparatorsLatchClearAndCheck : Prop :=
  (∀ (s : State) (c : CmpId) (level : BitVec 10) (which : BitVec 8),
    cmpPowered s c = true → (getWatch s c).cfg.enable = true → (getWatch s c).chkBusy = false → dwelt s (getWatch s c) = true →
    levelMeets (getWatch s c).cfg level 0 = true →
    (blankedNow (getWatch s c) (frameNow s) = true →
      ∃ t, exec (.comparatorTrip c level which) s = .next t ∧
        getWatch t c = { getWatch s c with cond := true, level, blanked := satInc (getWatch s c).blanked } ∧
        (∀ d, d ≠ c → getWatch t d = getWatch s d) ∧ Changes [.watches] s t) ∧
    (blankedNow (getWatch s c) (frameNow s) = false → (getWatch s c).tripped = true →
      ∃ t, exec (.comparatorTrip c level which) s = .next t ∧
        getWatch t c = { getWatch s c with cond := true, level, trips := satInc (getWatch s c).trips } ∧
        (∀ d, d ≠ c → getWatch t d = getWatch s d) ∧ Changes [.watches] s t) ∧
    (blankedNow (getWatch s c) (frameNow s) = false → (getWatch s c).tripped = false →
      ∃ t, exec (.comparatorTrip c level which) s = .next t ∧
        (getWatch t c).tripped = true ∧ (getWatch t c).level = level ∧ (getWatch t c).trips = satInc (getWatch s c).trips ∧
        (getWatch t c).which = (if watchesInput c then which else 0) ∧ (getWatch t c).cap = s.clock.sched / fineFrame * fineFrame ∧
        (getWatch t c).cfg = (getWatch s c).cfg ∧ noted t 0 0x3C01 = true ∧
        (watchesInput c = true → (getWatch s c).cfg.action = 2 → (getWatch t c).shunt = some (bits which 0 2)) ∧
        (∀ d, d ≠ c → getWatch t d = getWatch s d) ∧ Changes [.host, .funcs, .irqs, .stalls, .slices, .voices, .seqs, .chans, .nodes, .books, .flights, .nextFlight, .hub, .riders, .lines, .fasts, .groups, .queues, .farriers, .watches, .feeds, .freeCtr] s t)) ∧
  (∀ (s : State) (f : Func) (c : CmpId) (level : BitVec 10), admits s f (cmpReg c .status) = true → (getWatch s c).chkBusy = false →
    (stillMet (getWatch s c) level = true → blankedNow (getWatch s c) (frameNow s) = false →
      ∃ t, exec (.latchClear f c level) s = .next t ∧ getWatch t c = lookAt true level s.clock.now (getWatch s c) ∧ (getFunc t f).lastCode = 0x1C01 ∧
        noted t 0 0x1C01 = true ∧ (∀ d, d ≠ c → getWatch t d = getWatch s d) ∧ Changes [.funcs, .watches] s t) ∧
    (stillMet (getWatch s c) level = false ∨ blankedNow (getWatch s c) (frameNow s) = true →
      ∃ t, exec (.latchClear f c level) s = .next t ∧ (getWatch t c).tripped = false ∧ (getWatch t c).cap = (getWatch s c).cap ∧
        (getWatch t c).trips = (getWatch s c).trips ∧ (getWatch t c).cfg = (getWatch s c).cfg ∧
        ((getWatch s c).tripped = true → (getWatch t c).shunt = none) ∧
        ((getWatch s c).tripped = false ∨ (getWatch s c).cfg.reinEn = false → Changes [.watches] s t) ∧
        (∀ d, d ≠ c → getWatch t d = getWatch s d) ∧ Changes [.funcs, .nodes, .books, .flights, .nextFlight, .hub, .watches] s t)) ∧
  (∀ (s : State) (c : CmpId) (level : BitVec 10), cmpPowered s c = true → (getWatch s c).cfg.clrMode = true →
    clearDue s (getWatch s c) = true → (getWatch s c).chkBusy = false →
    (stillMet (getWatch s c) level = true →
      ∃ t, exec (.periodClear c level) s = .next t ∧ getWatch t c = lookAt true level s.clock.now (getWatch s c) ∧
        (∀ d, d ≠ c → getWatch t d = getWatch s d) ∧ Changes [.watches] s t) ∧
    (stillMet (getWatch s c) level = false →
      ∃ t, exec (.periodClear c level) s = .next t ∧ (getWatch t c).tripped = false ∧ (getWatch t c).cap = (getWatch s c).cap ∧
        (∀ d, d ≠ c → getWatch t d = getWatch s d) ∧ Changes [.funcs, .nodes, .books, .flights, .nextFlight, .hub, .watches] s t)) ∧
  (∀ (s : State) (f : Func) (c : CmpId), admits s f (cmpReg c .cmd) = true → cmpPowered s c = true →
    (checkCode c s = none →
      (∃ t, exec (.checkSwap f c) s = .next t ∧ getWatch t c = { getWatch s c with chkBusy := true, chkLevels := false } ∧
        (∀ d, d ≠ c → getWatch t d = getWatch s d) ∧ Changes [.watches] s t) ∧
      (∃ t, exec (.checkLevels f c) s = .next t ∧ getWatch t c = { getWatch s c with chkBusy := true, chkLevels := true } ∧
        (∀ d, d ≠ c → getWatch t d = getWatch s d) ∧ Changes [.watches] s t)) ∧
    ((getWatch s c).chkBusy = true →
      (∃ t, exec (.checkSwap f c) s = .next t ∧ (getFunc t f).lastCode = 0x1C03 ∧ noted t 0 0x1C03 = true ∧ Changes [.funcs] s t) ∧
      (∃ t, exec (.checkLevels f c) s = .next t ∧ (getFunc t f).lastCode = 0x1C03 ∧ noted t 0 0x1C03 = true ∧ Changes [.funcs] s t))) ∧
  (∀ (s : State) (c : CmpId), (getWatch s c).chkBusy = true →
    (∃ t, exec (.selfCheckEnd c true) s = .next t ∧ getWatch t c = { getWatch s c with chkBusy := false, since := s.clock.now } ∧
      (∀ d, d ≠ c → getWatch t d = getWatch s d) ∧ Changes [.watches] s t) ∧
    (∃ t, exec (.selfCheckEnd c false) s = .next t ∧ (getWatch t c).chkBusy = false ∧ (getWatch t c).chkFail = true ∧
      (getWatch t c).tripped = true ∧
      ((getWatch s c).tripped = true → (getWatch s c).cfg.action = 0 → noted t 0 0x3C02 = true) ∧ (∀ d, d ≠ c → getWatch t d = getWatch s d) ∧ Changes [.host, .funcs, .irqs, .stalls, .slices, .voices, .seqs, .chans, .nodes, .books, .flights, .nextFlight, .hub, .riders, .lines, .fasts, .groups, .queues, .farriers, .watches, .feeds, .freeCtr] s t)) ∧
  (∀ (s : State) (f : Func) (c : CmpId) (reg : WatchReg) (val : Word), admits s f (cmpReg c (watchReg reg)) = true →
    (watchCode c reg val = none →
      ∃ t, exec (.comparatorConfigWrite f c reg val) s = .next t ∧
        (s.clock.running = true → (getWatch t c).cfg = (getWatch s c).cfg) ∧
        (s.clock.running = false → (getWatch t c).cfg = writtenWatch (getWatch t c)) ∧
        (reg = .ref → writtenWatch (getWatch t c) = { writtenWatch (getWatch s c) with hi := bits val 16 10, lo := bits val 0 10 }) ∧
        (reg = .latch → writtenWatch (getWatch t c) = { writtenWatch (getWatch s c) with clrMode := bit val 16, clrPeriod := bits val 0 16 }) ∧
        (reg = .ctl → (writtenWatch (getWatch t c)).action = bits val 16 2 ∧ (writtenWatch (getWatch t c)).mode = bits val 12 2 ∧
          (writtenWatch (getWatch t c)).enable = bit val 11 ∧ (writtenWatch (getWatch t c)).dwell = bits val 0 8) ∧
        (reg = .blank → (writtenWatch (getWatch t c)).blankSrc = bits val 30 2 ∧ (writtenWatch (getWatch t c)).chan = bits val 16 12) ∧
        (getWatch t c).tripped = (getWatch s c).tripped ∧ (∀ d, d ≠ c → getWatch t d = getWatch s d) ∧ Changes [.watches] s t) ∧
    (∀ code, watchCode c reg val = some code →
      ∃ t, exec (.comparatorConfigWrite f c reg val) s = .next t ∧ code = 0x1C02 ∧ (getFunc t f).lastCode = code ∧ noted t 0 code = true ∧
        Changes [.funcs] s t))

/-- The housekeeping converters (R605 to R611, Table 15-3): HK_START, HK_STOP, CONVERSION_DONE, HK_DATA_READ, HK_CTL_WRITE, REFERENCE_READY,
SCAN_ENTRY_WRITE, BACKGROUND_CALIBRATION_TURN and BACKGROUND_CALIBRATION_TURN_END. -/
def Obligations.ConvertersRunTheirLists : Prop :=
  (∀ (s : State) (f : Func) (k : Fin 8), admits s f (.hk k .cmd) = true →
    (s.hkCtl.refReady = true → hkRuns (getHk s k).mode = true →
      ∃ t, exec (.hkStart f k) s = .next t ∧
        getHk t k = (if (getHk s k).running then { getHk s k with restart := true }
          else hkBegin s.clock.now (getHk s k)) ∧
        (∀ j, j ≠ k → getHk t j = getHk s j) ∧ Changes [.hks] s t) ∧
    (s.hkCtl.refReady = false →
      ∃ t, exec (.hkStart f k) s = .next t ∧ (getFunc t f).lastCode = 0x1C10 ∧ noted t 0 0x1C10 = true ∧ Changes [.funcs] s t) ∧
    (∃ t, exec (.hkStop f k) s = .next t ∧ getHk t k = { getHk s k with running := false, restart := false, extra := 0, primed := false } ∧
      (∀ j, j ≠ k → getHk t j = getHk s j) ∧ Changes [.hks] s t)) ∧
  (∀ (s : State) (k : Fin 8) (code : BitVec 12) (e : ScanEntry), (getHk s k).running = true → (getHk s k).restart = false → (getHk s k).due ≤ s.clock.now →
    tabGet {} (getHk s k).entries (getHk s k).at_ = e →
    ∃ t, exec (.conversionDone k code) s = .next t ∧ (getHk t k).valid = true ∧ (getHk t k).input = e.input ∧ (getHk t k).gain = hkGain e ∧
      (getHk t k).code = hkResult s k e code ∧ (getHk t k).lastInput = some (e.input, hkGain e) ∧
      (getHk t k).overrun = ((getHk s k).overrun || (getHk s k).valid) ∧
      (getHk t k).overruns = (if (getHk s k).valid then satInc (getHk s k).overruns else (getHk s k).overruns) ∧
      ((getHk s k).valid = true → noted t 0 0x3C11 = true) ∧
      ((getHk s k).primed = false → (getHk s k).lastInput = some (e.input, hkGain e) → (getHk t k).settle = false) ∧
      ((getHk s k).primed = false → (∀ g, (getHk s k).lastInput ≠ some (e.input, g)) →
        (getHk t k).settle = true ∧ (getHk t k).settles = satInc (getHk s k).settles ∧ (getHk t k).at_ = (getHk s k).at_) ∧
      ((getHk t k).settle = false → (getHk t k).due = max s.clock.now ((getHk s k).due + (getHk s k).interval.toNat * fineMicro)) ∧
      ((getHk t k).settle = true → (getHk t k).due = (getHk s k).due) ∧
      ((getHk t k).settle = false → (getHk s k).at_ < (getHk s k).length.toNat → (getHk t k).at_ = (getHk s k).at_ + 1) ∧
      ((getHk t k).settle = false → ¬ (getHk s k).at_ < (getHk s k).length.toNat →
        (getHk t k).at_ = 0 ∧ (getHk t k).running = decide ((getHk s k).mode = 2)) ∧
      (∀ j, j ≠ k → getHk t j = getHk s j) ∧ Changes [.funcs, .hks] s t) ∧
  (∀ (s : State) (f : Func) (k : Fin 8), hostReach s f = true →
    ∃ t, exec (.hkDataRead f k) s = .next t ∧ getHk t k = { getHk s k with valid := false, overrun := false } ∧
      (∀ j, j ≠ k → getHk t j = getHk s j) ∧ Changes [.hks] s t) ∧
  (∀ (s : State) (f : Func) (val : Word), admits s f (.hkCtl false) = true →
    ∃ t, exec (.hkCtlWrite f val) s = .next t ∧
      t.hkCtl = { s.hkCtl with bgCal := bit val 1, refEn := bit val 0, refReady := s.hkCtl.refReady && bit val 0 } ∧
      (∀ k, getHk t k = (if bit val 0 then getHk s k
        else { getHk s k with running := false, restart := false, extra := 0, primed := false })) ∧ Changes [.hks, .hkCtl] s t) ∧
  (∀ s : State, s.hkCtl.refEn = true →
    ∃ t, exec .referenceReady s = .next t ∧ t.hkCtl = { s.hkCtl with refReady := true } ∧ Changes [.hkCtl] s t) ∧
  (∀ (s : State) (f : Func) (k : Fin 8) (n : Fin 16) (val : Word), admits s f (.scan k n) = true →
    (hkServes k (bits val 0 10) = true →
      ∃ t, exec (.scanEntryWrite f k n val) s = .next t ∧ (tabGet {} (getHk t k).entries n.val).input = bits val 0 10 ∧
        (tabGet {} (getHk t k).entries n.val).gain = bits val 16 2 ∧
        (∀ m : Nat, m ≠ n.val → tabGet {} (getHk t k).entries m = tabGet {} (getHk s k).entries m) ∧
        { getHk t k with entries := (getHk s k).entries } = getHk s k ∧ (∀ j, j ≠ k → getHk t j = getHk s j) ∧ Changes [.hks] s t) ∧
    (hkServes k (bits val 0 10) = false →
      ∃ t, exec (.scanEntryWrite f k n val) s = .next t ∧ (getFunc t f).lastCode = 0x1C11 ∧ noted t 0 0x1C11 = true ∧ Changes [.funcs] s t)) ∧
  (∀ s : State, s.hkCtl.bgCal = true → s.hkCtl.spareUse = 0 →
    ∃ t, exec .backgroundCalibrationTurn s = .next t ∧ t.hkCtl = { s.hkCtl with
        spareUse := 1, spareTgt := BitVec.ofNat 4 s.hkCtl.nextTurn.val, nextTurn := s.hkCtl.nextTurn + 1 } ∧ Changes [.hkCtl] s t) ∧
  (∀ (s : State) (k : Fin 8) (a b : Int), s.hkCtl.spareUse = 1 → s.hkCtl.spareTgt = BitVec.ofNat 4 k.val →
    (a.natAbs ≤ 16 → b.natAbs ≤ 16 →
      ∃ t, exec (.backgroundCalibrationTurnEnd a b) s = .next t ∧ getHk t k = { getHk s k with offsetTrim := a, gainTrim := b } ∧
        t.hkCtl = { s.hkCtl with spareUse := 0, spareTgt := 0xF } ∧ (∀ j, j ≠ k → getHk t j = getHk s j) ∧ Changes [.hks, .hkCtl] s t) ∧
    (16 < a.natAbs ∨ 16 < b.natAbs →
      ∃ t, exec (.backgroundCalibrationTurnEnd a b) s = .next t ∧ (getHk t k).failed = true ∧ t.hkCtl = { s.hkCtl with spareUse := 2 } ∧
        noted t 0 0x3C12 = true ∧ (∀ j, j ≠ k → getHk t j = getHk s j) ∧ Changes [.funcs, .hks, .hkCtl] s t))

/-- Supplies and resets (R615 to R624, R635, R636, R652, Tables 16-1, 16-2): SUPPLY_FAILURE, SUPPLY_IN_SERVICE, SUPPLY_AC_FAILURE, BUS_BELOW_10V2,
POWER_ON_RESET, BROWN_OUT_RESET, PERST, HOT_RESET, LINK_TRAINED, WATCHDOG and MODULE_RESET.  Which parts a reset leaves at a value that the
spec does not state is the log's. -/
def Obligations.ResetsKeepWhatOutlivesThem : Prop :=
  (∀ (s : State) (second removed : Bool),
    ∃ t, exec (.supplyFailure second removed) s = .next t ∧ noted t 0 0x3D60 = true ∧
      (let old := if second then s.power.supply2 else s.power.supply1
       (if second then t.power.supply2 else t.power.supply1) = if removed then {} else { old with dcOk := false, inService := false }) ∧
      (if second then t.power.supply1 = s.power.supply1 else t.power.supply2 = s.power.supply2) ∧ Changes [.funcs, .power] s t) ∧
  (∀ (s : State) (second : Bool),
    ∃ t, exec (.supplyInService second) s = .next t ∧ noted t 0 0x0D61 = true ∧
      (if second then t.power.supply2.inService else t.power.supply1.inService) = true ∧
      (if second then t.power.supply1 = s.power.supply1 else t.power.supply2 = s.power.supply2) ∧ Changes [.funcs, .power] s t) ∧
  (∀ s : State, s.power.shutdown = false → s.power.busLow = false →
    ∃ t, exec .supplyAcFailure s = .next t ∧ t.power = { s.power with
        shutdown := true, supply1 := { s.power.supply1 with acOk := false }, supply2 := { s.power.supply2 with acOk := false } } ∧
      (∀ n, lifeOf n s = .riding → lifeOf n t = .resting) ∧
      (∀ l, (getLine t l).goal.code = 0 ∧ (getLine t l).genMode = 0 ∧ (getLine t l).codeNow = (getLine s l).codeNow ∧
        (getLine t l).curb = (getLine s l).curb ∧ (getLine t l).safe = (getLine s l).safe) ∧ Changes [.funcs, .irqs, .power, .stalls, .slices, .voices, .seqs, .chans, .nodes, .books, .flights, .nextFlight, .hub, .riders, .lines, .fasts, .queues, .farriers, .feeds, .freeCtr] s t) ∧
  (∀ s : State, s.power.busLow = false →
    ∃ t, exec .busBelow10V2 s = .next t ∧ t.power.busLow = true ∧ t.power.phase = .held ∧ t.power.domOn = domainMask 254 2 ∧
      (∀ l, (getLine t l).connected = false ∧ (getLine t l).codeNow = 0 ∧ (getLine t l).curb = (getLine s l).curb ∧
        (getLine t l).safe = (getLine s l).safe) ∧
      t.backup.powerFail = s.power.shutdown ∧
      (s.power.shutdown = true → t.backup.fluxStepped = (s.backup.fluxStepped || s.lines.any fun e => offZero e.2)) ∧
      (s.power.shutdown = false → t.backup.fluxStepped = s.backup.fluxStepped) ∧
      t.persist = keptPersist s.persist ∧ t.pending = s.pending ∧
      Changes [.pending, .power, .backup, .persist, .lines, .feeds, .tally, .freeCtr] State.reset t) ∧
  (∀ (s : State) (w : ResetWorld),
    ∃ t, exec (.powerOnReset w) s = .next t ∧
      t.power = { straps := w.straps, ga := w.ga, domOn := alwaysOn, fanTray := s.power.fanTray } ∧
      (w.backupValid = false → t.backup = {} ∧ noted t 0 0x3D63 = true) ∧
      (w.backupValid = true → t.backup = { s.backup with lost := false, lastCause := 1, resetCount := satInc s.backup.resetCount }) ∧
      (∀ l, (getLine t l).connected = false ∧ (getLine t l).codeNow = 0 ∧ (getLine t l).curb = (getLine s l).curb ∧
        (getLine t l).safe = (getLine s l).safe) ∧
      (∀ n : StallId, getFeed t n.val = { gen := (getFeed s n.val).gen + 1 }) ∧ t.tally = s.tally ∧ t.persist = keptPersist s.persist ∧
      t.pending = s.pending ∧
      Changes [.pending, .funcs, .power, .backup, .persist, .lines, .tc, .feeds, .tally, .freeCtr] State.reset t) ∧
  (∀ (s : State) (w : ResetWorld), s.power.busLow = false →
    (∃ t, exec (.brownOutReset w) s = .next t ∧ moduleResetTo .brownOut w s t) ∧
    (∃ t, exec (.watchdog w) s = .next t ∧ moduleResetTo .watchdog w s t) ∧
    (∀ width, perstIgnored ≤ width → width < perstTaken →
      exec (.perst width w) s = if Config.perstAccepts s.freeCtr then exec (.perst perstTaken w) (freshen s) else .next (freshen s)) ∧
    (∀ width, perstTaken ≤ width →
      (s.persist.perstScope = false → ∃ t, exec (.perst width w) s = .next t ∧ moduleResetTo .perst w s t) ∧
      (s.persist.perstScope = true → exec (.perst width w) s = exec .hotReset s)) ∧
    (∃ t, exec .hotReset s = .next t ∧ t.host.width = 0 ∧ t.host.speed = 0 ∧ (s.host.width ≠ 0 → t.host.downs = satInc s.host.downs) ∧
      (∀ f, (getFunc t f).msix = [] ∧ (getFunc t f).enabled = false ∧ (getFunc t f).lastCode = 0 ∧ (getFunc t f).d3hot = false) ∧
      Changes [.host, .funcs, .irqs] s t) ∧
    (∀ width speed, ∃ t, exec (.linkTrained width speed) s = .next t ∧ t.host = { s.host with width := width, speed := speed } ∧
      Changes [.host] s t)) ∧
  (∀ (s : State) (w : ResetWorld) (width : Fine), width < perstIgnored → ∃ t, exec (.perst width w) s = .next t ∧ t = s) ∧
  (∀ (s : State) (f : Func) (key : BitVec 16) (w : ResetWorld), admitsSpine s f (.power .cmd) = true →
    (powerCode key false s = none → ∃ t, exec (.moduleReset f key w) s = .next t ∧ moduleResetTo .moduleReset w s t) ∧
    (key ≠ 0x5A17 →
      ∃ t, exec (.moduleReset f key w) s = .next t ∧ (getFunc t f).lastCode = 0x1D60 ∧ noted t 0 0x1D60 = true ∧
        t.power = { s.power with op := opRefuse 0x1D60 s.power.op } ∧ Changes [.funcs, .power] s t))

/-- Boot and power domains (R621, R628 to R634, R684, Table 16-4): BOOT_START, REFERENCE_LOCKED, REFERENCE_LOCK_TIMEOUT, POWER_DOMAIN_FAULT,
FAN_TRAY_REMOVED and FAN_TRAY_FITTED. -/
def Obligations.BootRunsItsSteps : Prop :=
  (∀ (s : State) (found : BootFound), s.power.busLow = false →
    (s.power.phase = .held →
      ∃ t, exec (.bootStart found) s = .next t ∧ t.power.phase = .boot 3 ∧ t.power.cmd = some .boot ∧ t.power.op.state = .busy ∧
        t.power.domOn = s.power.domOn ||| bootDomains ∧ t.power.stallsUp = 0 ∧
        (found.bank0 = true → found.bank1 = true → bits s.power.straps 0 2 ≠ (3 : BitVec 2) →
          t.persist.fwBank = s.persist.fwBank ∧ t.power.recovery = s.power.recovery) ∧
        (found.bank0 = false → found.bank1 = false → t.power.recovery = true) ∧
        t.backup.floorHerd = t.persist.keys.floorHerd ∧ t.backup.floorStall = t.persist.keys.floorStall ∧
        Changes [.funcs, .power, .backup, .persist, .lines, .domains] s t) ∧
    (s.power.phase ≠ .held → ∃ t, exec (.bootStart found) s = .next t ∧ t = s)) ∧
  (∀ (s : State) (src : BitVec 2) (bring : Tab PowerUpFound), s.power.phase = .boot 3 →
    (bootsFromFlash s = false → s.herdImage = none →
      ∃ t, exec (.referenceLocked src bring) s = .next t ∧ t.power.phase = .running ∧ t.power.cmd = none ∧ t.power.op = opDone 0x0D60 ∧
        t.clock.sched = 0 ∧ t.clock.running = true ∧ (∀ l, (getLine t l).connected = true) ∧ noted t 0 0x0D60 = true ∧
        Changes [.clock, .funcs, .irqs, .power, .lines, .tc] s t) ∧
    (bootsFromFlash s = true → s.power.recovery = false → s.tack.run = none →
      ∃ t, exec (.referenceLocked src bring) s = .next t ∧ t.power.phase = .boot 5 ∧ t.tack.run = some .loadHerd ∧ t.tack.flash = true ∧
        t.tack.phase = 1 ∧ t.clock.running = true ∧ Changes [.clock, .power, .tack, .lines, .tc] s t)) ∧
  (∀ s : State, s.power.phase = .boot 3 → clockMode s ≠ 3 →
    ∃ t, exec .referenceLockTimeout s = .next t ∧ noted t 0 0x2D61 = true ∧ Changes [.funcs] s t) ∧
  (∀ (s : State) (d : BitVec 8) (bring : Tab PowerUpFound), (bit s.power.domOn d.toNat || s.power.switchOn.contains d.toNat) = true →
    (240 ≤ d.toNat →
      ∃ t, exec (.powerDomainFault d bring) s = .next t ∧ t.power = { dropDomains d.toNat 1 s.clock.now s.power with
          domFault := s.power.domFault ||| domainMask d.toNat 1 } ∧ bit t.power.domOn d.toNat = false ∧
        t.power.switchOn.contains d.toNat = false ∧
        (¬ (244 ≤ d.toNat ∧ d.toNat < 250) → noted t 0 0x3D67 = true ∧ Changes [.funcs, .power] s t) ∧
        (244 ≤ d.toNat → d.toNat < 250 → ∀ n, lifeOf n s = .riding → lifeOf n t = .resting)) ∧
    (∀ n : StallId, d.toNat = 30 * n.val →
      ∃ t, exec (.powerDomainFault d bring) s = .next t ∧
        (∀ l, l.stall = n → (getLine t l).connected = false ∧ (getLine t l).codeNow = 0 ∧ (getLine t l).genMode = 0) ∧
        (∀ l, l.stall ≠ n → getLine t l = getLine s l) ∧ noted t 0 0x3D67 = true ∧ Changes [.funcs, .power, .lines] s t) ∧
    (∀ g : GroupId, d.toNat = 30 * g.stall.val + 21 + g.num.val →
      ∃ t, exec (.powerDomainFault d bring) s = .next t ∧ (getGroup t g).faulted = true ∧ (getGroup t g).cause = 2 ∧
        (∀ h, h ≠ g → getGroup t h = getGroup s h) ∧ Changes [.funcs, .power, .riders, .lines, .fasts, .groups] s t)) ∧
  (∀ (s : State) (d : BitVec 8) (bring : Tab PowerUpFound), (bit s.power.domOn d.toNat || s.power.switchOn.contains d.toNat) = false →
    ∃ t, exec (.powerDomainFault d bring) s = .next t ∧ t = s) ∧
  (∀ s : State,
    (hasTray s = true →
      (s.power.fanTray = true →
        ∃ t, exec .fanTrayRemoved s = .next t ∧ t.power = { s.power with fanTray := false } ∧ noted t 0 0x3D68 = true ∧
          Changes [.funcs, .power] s t) ∧
      (s.power.fanTray = false →
        ∃ t, exec .fanTrayFitted s = .next t ∧ t.power = { s.power with fanTray := true } ∧ noted t 0 0x0D64 = true ∧
          Changes [.funcs, .power] s t)) ∧
    (hasTray s = false → (∃ t, exec .fanTrayRemoved s = .next t ∧ t = s) ∧ (∃ t, exec .fanTrayFitted s = .next t ∧ t = s)))

/-- Firmware, persistent registers and the real-time clock (R22, R627, R637 to R642, Table 16-8): ACCEPT_FACTORY, FW_WRITE, FW_WRITE_DONE, FW_SWITCH,
SPINE_SETTLE_POINT, RWP_WRITE and RTC_HI_WRITE. -/
def Obligations.PersistentRegistersAndFirmware : Prop :=
  (∀ (s : State) (f : Func) (key : BitVec 16), admitsSpine s f (.power .cmd) = true →
    (key ≠ 0x5A17 → ∀ c : Instr, (∃ n, c = .acceptFactory f key n) ∨ (∃ k ok v, c = .fwWrite f key k ok v) ∨ c = .fwSwitch f key →
      ∃ t, exec c s = .next t ∧ (getFunc t f).lastCode = 0x1D60 ∧ noted t 0 0x1D60 = true ∧
        t.power = { s.power with op := opRefuse 0x1D60 s.power.op } ∧ Changes [.funcs, .power] s t) ∧
    (∀ n, powerCode key false s = none → lifeOf n s ≠ .off → lifeOf n s ≠ .riding → s.power.cmd = none →
      ∃ t, exec (.acceptFactory f key n) s = .next t ∧ (getStud t n).a.seq = 1 ∧ (getStud t n).a.ok = true ∧ (getStud t n).b = (getStud t n).a ∧
        getStall t n = { getStall s n with factoryHold := false } ∧ t.power = { s.power with op := opDone 0 } ∧
        (∀ m, m ≠ n → getStud t m = getStud s m ∧ getStall t m = getStall s m) ∧
        Changes [.funcs, .irqs, .power, .persist, .stalls, .farriers] s t) ∧
    (∀ slot sigOk v, fwWriteCode key sigOk v s = none → s.power.cmd ≠ some .boot →
      ∃ t, exec (.fwWrite f key slot sigOk v) s = .next t ∧ t.power = { s.power with
          fwWriting := some v, fwOk := false, partialValid := true, cmd := some .fwWrite, op := opStart } ∧ Changes [.power] s t) ∧
    (∀ slot v, key = 0x5A17 → fwBusy s = false →
      ∃ t, exec (.fwWrite f key slot false v) s = .next t ∧ (getFunc t f).lastCode = 0x1D61 ∧ noted t 0 0x1D61 = true ∧
        Changes [.funcs, .power] s t) ∧
    (fwSwitchCode key s = none →
      ∃ t, exec (.fwSwitch f key) s = .next t ∧ t.power = { s.power with cmd := some .fwSwitch, op := opStart } ∧ Changes [.power] s t)) ∧
  (∀ (s : State) (v : BitVec 32), s.power.fwWriting = some v → s.power.cmd ≠ some .boot →
    (∃ t, exec (.fwWriteDone true) s = .next t ∧ t.power = { s.power with
        fwWriting := none, fwOk := true, cmd := none, partialValid := false, op := opDone 0 } ∧
      (if s.persist.fwBank then t.persist.fwVersion0 else t.persist.fwVersion1) = v ∧ t.persist.fwBank = s.persist.fwBank ∧
      Changes [.funcs, .irqs, .power, .persist] s t) ∧
    (∃ t, exec (.fwWriteDone false) s = .next t ∧ t.power.fwWriting = none ∧ t.power.fwOk = false ∧ t.power.op.state = .failed ∧
      Changes [.funcs, .irqs, .power, .freeCtr] s t)) ∧
  (∀ s : State, s.power.cmd = some .fwSwitch → spineSettled s = true →
    ∃ t, exec .spineSettlePoint s = .next t ∧ t.persist = { s.persist with fwBank := !s.persist.fwBank } ∧ t.power = { s.power with
        cmd := none, op := opDone 0x0D63, fwOk := false, fwUntil := s.clock.now + 20 * fineMs } ∧ noted t 0 0x0D63 = true ∧
      Changes [.funcs, .irqs, .power, .persist] s t) ∧
  (∀ (s : State) (f : Func) (reg : RwpReg) (val : Word), admits s f (rwpReg reg) = true →
    (rwpCode reg val = none →
      ∃ t, exec (.rwpWrite f reg val) s = .next t ∧ t.persist.rwpSeq = s.persist.rwpSeq + 1 ∧
        (reg = .timeCtl → t.persist.time.role = bits val 0 2 ∧ t.persist.time.autoSwitch = bit val 7 ∧ t.persist.time.revert = bit val 8 ∧
          t.persist.time.followLane = bits val 17 4) ∧
        (reg = .timeServo → t.persist.time = { s.persist.time with slewMax := bits val 16 16, lockThresh := bits val 0 16 }) ∧
        (reg = .timeDetect →
          t.persist.time = { s.persist.time with offStep := bits val 16 16, pathStep := bits val 4 12, persist := bits val 0 4 }) ∧
        (reg = .pwrCfg → t.persist = { s.persist with perstScope := bit val 8, rwpSeq := s.persist.rwpSeq + 1 }) ∧
        (∀ p, reg = .ptIpv4 p → portCfg t p = { portCfg s p with ipv4 := val }) ∧
        (∀ p, reg = .ptTxLat p → portCfg t p = { portCfg s p with txLat := bits val 0 16 }) ∧
        (∀ p, reg = .ptAsym p → portCfg t p = { portCfg s p with asym := val }) ∧
        (reg ≠ .timeCtl → Changes [.persist] s t) ∧ Changes [.funcs, .persist, .tc] s t) ∧
    (∀ p, reg = .ptCtl p → bit val 29 = true →
      ∃ t, exec (.rwpWrite f reg val) s = .next t ∧ (getFunc t f).lastCode = 0x1B02 ∧ noted t 0 0x1B02 = true ∧ Changes [.funcs] s t)) ∧
  (∀ (s : State) (f : Func) (val : Word), admits s f (.power .rtcHi) = true →
    ∃ t, exec (.rtcHiWrite f val) s = .next t ∧
      t.backup = { s.backup with rtc := val ++ heldWord (.power .rtcLo) (bits s.backup.rtc 0 32) s, rtcValid := true } ∧
      Changes [.backup, .held] s t)

/-- The Tally (R649, R650, R655 to R658, R663 to R665, Table 17-3): FEED_SEND, FEED_MESSAGE, FEED_TIMEOUT, SEAL_OPENED, SEAL_CLOSED,
SEAL_PORT_CONFIGURATION, TALLY_POWER_ON, FIRMWARE_CHECK, MIRROR_REFRESH, MIRROR_STALE and TALLY_MIRROR_WRITE. -/
def Obligations.TheTallyCountsAndSeals : Prop :=
  (∀ (s : State) (n : StallId),
    ∃ t, exec (.feedSend (.stall n)) s = .next t ∧
      getFeed t n.val = { getFeed s n.val with sent := (getFeed s n.val).totals, sentFrame := s.clock.sched / fineFrame } ∧
      (∀ m : Nat, m ≠ n.val → getFeed t m = getFeed s m) ∧ Changes [.feeds] s t) ∧
  (∀ (s : State) (m : FeedIn), m.intact = true →
    (∀ n old, m.from_ = .stall n → s.tally.state ≠ .fault →
      (∀ g o, tabFind n.val s.tally.last = some (g, o) → old = if g = (getFeed s n.val).gen then o else []) →
      (tabFind n.val s.tally.last = none → old = []) →
      ∃ t, exec (.feedMessage m) s = .next t ∧ bit t.tally.feed n.val = true ∧
        (∀ o : Nat, o < 15 → (tabFind o (getFeed s n.val).sent).isSome = true →
          tabGet {} t.tally.owners o =
            addCounts (tabGet {} s.tally.owners o) (subCounts (tabGet {} (getFeed s n.val).sent o) (tabGet {} old o))) ∧
        (∀ o : Nat, tabFind o (getFeed s n.val).sent = none → tabGet {} t.tally.owners o = tabGet {} s.tally.owners o) ∧
        tabFind n.val t.tally.last = some ((getFeed s n.val).gen, (getFeed s n.val).sent) ∧
        tabGet 0 t.tally.frames n.val = (getFeed s n.val).sentFrame ∧ Changes [.tally] s t) ∧
    (∀ two, m.from_ = .inlet two → s.tally.state ≠ .fault → supplySerial s.tally two ≠ m.serial →
      ∃ t, exec (.feedMessage m) s = .next t ∧ supplySerial t.tally two = m.serial ∧ t.tally.eIn1 = s.tally.eIn1 ∧
        t.tally.eIn2 = s.tally.eIn2 ∧ (t.tally.log.head?).any (fun e => e.kind = 0x12) = true ∧ Changes [.tally] s t) ∧
    (∀ two, m.from_ = .inlet two → s.tally.state ≠ .fault → supplySerial s.tally two = m.serial →
      ∃ t, exec (.feedMessage m) s = .next t ∧ supplySerial t.tally two = m.serial ∧
        (if two then t.tally.eIn2 = s.tally.eIn2 + (m.energy - s.tally.supplyBase2) ∧ t.tally.eIn1 = s.tally.eIn1
          else t.tally.eIn1 = s.tally.eIn1 + (m.energy - s.tally.supplyBase1) ∧ t.tally.eIn2 = s.tally.eIn2) ∧
        t.tally.owners = s.tally.owners ∧ Changes [.tally] s t)) ∧
  (∀ (s : State) (m : FeedIn), m.intact = false → ∃ t, exec (.feedMessage m) s = .next t ∧ t = s) ∧
  (∀ (s : State) (k : FeedId), bit s.tally.feed (feedBit k) = true →
    ∃ t, exec (.feedTimeout k) s = .next t ∧ t.tally.feed = s.tally.feed &&& ~~~(feedMask k) ∧
      (t.tally.log.head?).any (fun e => e.kind = 0x10 && e.source = feedSource k) = true ∧ t.tally.owners = s.tally.owners ∧
      Changes [.tally] s t) ∧
  (∀ s : State, s.tally.state = .closed ∨ s.tally.state = .unbound →
    ∃ t, exec .sealOpened s = .next t ∧ t.tally.state = .opened ∧ t.tally.opens = satInc s.tally.opens ∧
      (t.tally.log.head?).any (fun e => e.kind = 0x01) = true ∧ Changes [.tally] s t) ∧
  (∀ s : State, s.tally.state = .opened →
    (∃ t, exec .sealClosed s = .next t ∧ t.tally.state = (if boundSerial s.tally = s.tally.carrier then .closed else .unbound) ∧
      t.tally.opens = s.tally.opens ∧ t.tally.owners = s.tally.owners ∧ Changes [.tally] s t) ∧
    (∀ item, ∃ t, exec (.sealPortConfiguration item) s = .next t ∧ t.tally.conf = s.tally.conf ++ [item] ∧
      t.tally.changes = satInc s.tally.changes ∧ t.tally.state = .opened ∧ t.tally.serial = s.tally.serial ∧
      (t.tally.log.head?).any (fun e => e.kind = 0x03) = true ∧ Changes [.tally, .freeCtr] s t)) ∧
  (∀ (s : State) (item : SealItem), s.tally.state ≠ .opened → ∃ t, exec (.sealPortConfiguration item) s = .next t ∧ t = s) ∧
  (∀ (s : State) (carrier : Nat) (check : BitVec 32), s.tally.state ≠ .fault →
    (check = s.tally.fwCheck →
      ∃ t, exec (.tallyPowerOn carrier check true) s = .next t ∧ t.tally.carrier = carrier ∧
        t.tally.state = (if s.tally.serial = carrier then s.tally.state else .unbound) ∧ t.tally.owners = s.tally.owners ∧
        Changes [.tally] s t) ∧
    (check ≠ s.tally.fwCheck → ∀ memoryOk,
      ∃ t, exec (.tallyPowerOn carrier check memoryOk) s = .next t ∧ t.tally.state = .fault ∧ Changes [.tally] s t) ∧
    (∃ t, exec (.firmwareCheck check) s = .next t ∧ t.tally.state = (if check = s.tally.fwCheck then s.tally.state else .fault) ∧
      t.tally.owners = s.tally.owners ∧ Changes [.tally] s t)) ∧
  (∀ s : State, s.tally.refreshLeft ≠ 0 → ∃ t, exec .mirrorRefresh s = .next t ∧ t = s) ∧
  (∀ s : State, s.tally.refreshLeft = 0 →
    ∃ t, exec .mirrorRefresh s = .next t ∧ t.tally.mirror.seq = s.tally.mirror.seq + 1 ∧ 1 ≤ t.tally.refreshLeft ∧
      t.tally.refreshLeft ≤ refreshLimit ∧
      (∀ u, u.tally = t.tally → t.tally.refreshLeft = 1 → (tickRefresh u).tally.mirror.seq = s.tally.mirror.seq + 2) ∧ t.tally.conf = [] ∧
      t.tally.mirror.state = s.tally.state ∧ t.tally.mirror.owners = completeOwners s.tally ∧ t.tally.mirror.eIn1 = s.tally.eIn1 ∧
      t.tally.mirror.eIn2 = s.tally.eIn2 ∧ t.tally.mirror.eTotal = s.tally.eIn1 + s.tally.eIn2 ∧ t.tally.mirror.log = s.tally.log ∧
      t.tally.serial = boundSerial s.tally ∧ t.host = { s.host with mirrorStale := false } ∧ Changes [.host, .tally, .freeCtr] s t) ∧
  (∀ s : State, s.host.mirrorStale = false →
    ∃ t, exec .mirrorStale s = .next t ∧ t.host = { s.host with mirrorStale := true } ∧ noted t 0 0x3E01 = true ∧
      Changes [.host, .funcs, .irqs] s t) ∧
  (∀ (s : State) (f : Func) (w : Fin 17408), hostReach s f = true →
    ∃ t, exec (.tallyMirrorWrite f w) s = .next t ∧ (getFunc t f).lastCode = 0x1E01 ∧ noted t f 0x1E01 = true ∧ noted t 0 0x1E01 = true ∧
      Changes [.funcs] s t)

/-- R650: a transmitter without an intact message for 1 ms loses its bit in TY_FEED, with an entry in the Tally's log; its next intact message sets the
bit, adds the difference and is logged, and what was counted in between enters with it. -/
def Obligations.SilentFeedsAreLoggedAndCaughtUp : Prop :=
  (∀ (s : State) (k : FeedId), bit s.tally.feed (feedBit k) = true →
    ∃ t, exec (.feedTimeout k) s = .next t ∧ bit t.tally.feed (feedBit k) = false ∧
      (∀ j, j ≠ feedBit k → bit t.tally.feed j = bit s.tally.feed j) ∧ t.tally.logCount = s.tally.logCount + 1 ∧
      (t.tally.log.head?).any (fun e => e.kind = 0x10 && e.source = feedSource k) = true ∧ t.tally.owners = s.tally.owners ∧
      t.tally.last = s.tally.last ∧ Changes [.tally] s t) ∧
  (∀ (s : State) (n : StallId) (m : FeedIn) (g : Nat) (old : Tab Counts), m.intact = true → m.from_ = .stall n →
    bit s.tally.feed n.val = false → s.tally.state ≠ .fault → tabFind n.val s.tally.last = some (g, old) → g = (getFeed s n.val).gen →
    ∃ t, exec (.feedMessage m) s = .next t ∧ bit t.tally.feed n.val = true ∧ t.tally.logCount = s.tally.logCount + 1 ∧
      (t.tally.log.head?).any (fun e => e.kind = 0x11 && e.source = feedSource (.stall n)) = true ∧
      (∀ o : Nat, o < 15 → (tabFind o (getFeed s n.val).sent).isSome = true →
        tabGet {} t.tally.owners o =
          addCounts (tabGet {} s.tally.owners o) (subCounts (tabGet {} (getFeed s n.val).sent o) (tabGet {} old o))) ∧
      tabFind n.val t.tally.last = some (g, (getFeed s n.val).sent) ∧ Changes [.tally] s t)

/-- Shot audits (R669, R670, R677, R678, Table 18-5): SHOT_AUDIT_CMD and SHOT_AUDIT_SETTLE_POINT. -/
def Obligations.ShotAuditsBalanceTheirBooks : Prop :=
  (∀ (s : State) (f : Func) (n : StallId) (val : Word), admits s f (.ctl n .shotCmd) = true →
    (shotAuditCode f n val s = none →
      ∃ t, exec (.shotAuditCmd f n val) s = .next t ∧
        getShotAudit t n = { getShotAudit s n with op := opStart, ownerScope := bit val 8, index := bits val 0 4 } ∧
        (∀ m, m ≠ n → getShotAudit t m = getShotAudit s m) ∧ Changes [.shotAudits] s t) ∧
    ((getShotAudit s n).op.state = .busy →
      ∃ t, exec (.shotAuditCmd f n val) s = .next t ∧ (getFunc t f).lastCode = 0x1706 ∧ noted t 0 0x1706 = true ∧
        getShotAudit t n = { getShotAudit s n with op := opRefuse 0x1706 (getShotAudit s n).op } ∧
        (∀ m, m ≠ n → getShotAudit t m = getShotAudit s m) ∧ Changes [.funcs, .shotAudits] s t)) ∧
  (∀ (s : State) (n : StallId), (getShotAudit s n).op.state = .busy →
    ((getShotAudit s n).ownerScope = false → ∀ r : RiderId, r.stall = n → r.num.val = (getShotAudit s n).index.toNat →
      ∃ t, exec (.shotAuditSettlePoint n) s = .next t ∧ (getShotAudit t n).started = (getRider s r).started ∧
        (getShotAudit t n).completed = (getRider s r).completed ∧ (getShotAudit t n).aborted = (getRider s r).aborted ∧
        (getShotAudit t n).inProgress = (if (getRider s r).shot.active then 1 else 0) ∧ Changes [.funcs, .irqs, .shotAudits] s t) ∧
    (∃ t, exec (.shotAuditSettlePoint n) s = .next t ∧ (getShotAudit t n).ownerScope = (getShotAudit s n).ownerScope ∧
      ((getShotAudit t n).started =
          (getShotAudit t n).completed + (getShotAudit t n).aborted + (getShotAudit t n).inProgress.zeroExtend 32 →
        (getShotAudit t n).op = opDone 0) ∧
      ((getShotAudit t n).started ≠
          (getShotAudit t n).completed + (getShotAudit t n).aborted + (getShotAudit t n).inProgress.zeroExtend 32 →
        (getShotAudit t n).op.state = .failed ∧ (getShotAudit t n).op.code = 0x3712 ∧ noted t 0 0x3712 = true) ∧
      (∀ m, m ≠ n → getShotAudit t m = getShotAudit s m) ∧ Changes [.funcs, .irqs, .shotAudits] s t))

/-- The host interface (R22, R687 to R692, R699, R700): HOST_REGISTER_WRITE, MSIX_TABLE_WRITE, MSIX_CAP_RELEASE and CONFIGURATION_REQUEST. -/
def Obligations.TheHostInterfaceServesItsFunctions : Prop :=
  (∀ (s : State) (f : Func) (addr : BitVec 28) (val : Word64) (env : WriteEnv), hostReach s f = true →
    ((addr.toNat % 4 = 0 → decodeReg addr.toNat = none →
      ∃ t, exec (.hostRegisterWrite f .b4 addr val env) s = .next t ∧ (getFunc t f).lastCode = 0x1F03 ∧
        (getFunc t f).errOffset = BitVec.ofNat 36 addr.toNat ∧ noted t 0 0x1F03 = true ∧ noted t f 0x1F03 = true ∧ Changes [.funcs] s t) ∧
    (∀ size, (size = .b4 ∧ addr.toNat % 4 ≠ 0) ∨ (size = .b8 ∧ addr.toNat % 8 ≠ 0) ∨ (size ≠ .b4 ∧ size ≠ .b8) →
      ∃ t, exec (.hostRegisterWrite f size addr val env) s = .next t ∧ (getFunc t f).lastCode = 0x1F02 ∧ noted t 0 0x1F02 = true ∧
        noted t f 0x1F02 = true ∧ Changes [.funcs] s t) ∧
    (addr.toNat % 4 = 0 → decodeReg addr.toNat = some (.hkCtl false) → admits s f (.hkCtl false) = true →
      ∃ t, exec (.hostRegisterWrite f .b4 addr val env) s = .next t ∧ t.hkCtl.bgCal = bit val 1 ∧ t.hkCtl.refEn = bit val 0 ∧
        t.hkCtl.refReady = (s.hkCtl.refReady && bit val 0) ∧ Changes [.hks, .hkCtl] s t) ∧
    (addr.toNat % 8 = 0 → decodeReg addr.toNat = some (.power .rtcLo) → decodeReg (addr.toNat + 4) = some (.power .rtcHi) →
      admits s f (.power .rtcLo) = true → admits s f (.power .rtcHi) = true →
      ∃ t, exec (.hostRegisterWrite f .b8 addr val env) s = .next t ∧ t.backup = { s.backup with rtc := val, rtcValid := true } ∧
        Changes [.backup, .held] s t))) ∧
  (∀ (s : State) (f : Func) (e : Fin 2048) (w : Fin 4) (val : Word), admits s f (.msix e w) = true →
    (tabGet {} (getFunc s f).msix e.val).pending = false →
      ∃ t, exec (.msixTableWrite f e w val) s = .next t ∧
        tabGet {} (getFunc t f).msix e.val = setEntryWord w val (tabGet {} (getFunc s f).msix e.val) ∧
        (∀ d : Nat, d ≠ e.val → tabGet {} (getFunc t f).msix d = tabGet {} (getFunc s f).msix d) ∧
        (∀ g, g ≠ f → getFunc t g = getFunc s g) ∧ Changes [.funcs] s t) ∧
  (∀ (s : State) (src : Nat), (getIrq s src).held = true →
    (vectorOf s src = none →
      ∃ t, exec (.msixCapRelease src) s = .next t ∧ getIrq t src = { getIrq s src with held := false } ∧
        (∀ k, k ≠ src → getIrq t k = getIrq s k) ∧ Changes [.irqs] s t) ∧
    (∀ f e, vectorOf s src = some (f, e) → funcEnabled s f = true →
      (tabGet {} (getFunc s f).msix e).masked = false → (getFunc s f).msixMask = false → (getFunc s f).msixEnable = true →
      ∃ t, exec (.msixCapRelease src) s = .next t ∧ getIrq t src = { last := some s.clock.now, held := false, parked := false } ∧
        (tabGet {} (getFunc t f).msix e).sent = (tabGet {} (getFunc s f).msix e).sent + 1 ∧
        (∀ g, g ≠ f → getFunc t g = getFunc s g) ∧ Changes [.funcs, .irqs] s t) ∧
    (∀ f e, vectorOf s src = some (f, e) → funcEnabled s f = true →
      (tabGet {} (getFunc s f).msix e).masked = true ∨ (getFunc s f).msixMask = true ∨ (getFunc s f).msixEnable = false →
      ∃ t, exec (.msixCapRelease src) s = .next t ∧ (getIrq t src).parked = true ∧ (getIrq t src).held = false ∧
        (tabGet {} (getFunc t f).msix e).pending = true ∧ (∀ g, g ≠ f → getFunc t g = getFunc s g) ∧ Changes [.funcs, .irqs] s t)) ∧
  (∀ s : State, answersConfig s = true →
    (∀ count, ∃ t, exec (.configurationRequest (.enableVfs count)) s = .next t ∧
      (∀ f : Func, f.val ≠ 0 → (getFunc t f).enabled = decide (f.val ≤ count.val)) ∧ getFunc t 0 = getFunc s 0 ∧ Changes [.funcs] s t) ∧
    (∀ f, funcEnabled s f = true →
      (∀ d, ∃ t, exec (.configurationRequest (.power f d)) s = .next t ∧ getFunc t f = { getFunc s f with d3hot := d } ∧
        (∀ g, g ≠ f → getFunc t g = getFunc s g) ∧ Changes [.funcs] s t) ∧
      (∀ b0 b2, ∃ t, exec (.configurationRequest (.bars f b0 b2)) s = .next t ∧ getFunc t f = { getFunc s f with bar0 := b0, bar2 := b2 } ∧
        (∀ g, g ≠ f → getFunc t g = getFunc s g) ∧ Changes [.funcs] s t) ∧
      (∀ on mask, (∀ e : Nat, (tabGet {} (getFunc s f).msix e).pending = false) →
        ∃ t, exec (.configurationRequest (.msix f on mask)) s = .next t ∧
          getFunc t f = { getFunc s f with msixEnable := on, msixMask := mask } ∧
          (∀ g, g ≠ f → getFunc t g = getFunc s g) ∧ Changes [.funcs] s t)))
end

