-- ==== Sys2Proof/Laws/Changes.lean ====
section
/-!
SUPPORT. What the relation Changes allows: it is a preorder, it grows with the parts, a write of one field changes that part, and
it says field by field what is unchanged.
-/

namespace Sys2Proof.Machine

open Sys2Proof

/-- Every part of the first list is in the second. -/
def Part.sub (Q P : List Part) : Bool := Q.all fun p => P.contains p

theorem Part.sub_trans {Q P R : List Part} (h : Part.sub Q P = true) (k : Part.sub P R = true) : Part.sub Q R = true := by
  simp only [Part.sub, List.all_eq_true, List.contains_iff_mem] at *
  exact fun p hp => k p (h p hp)

theorem Part.sub_refl (P : List Part) : Part.sub P P = true := by
  simp [Part.sub]

theorem Part.mem {Q P : List Part} {p : Part} (h : Part.sub Q P = true) (k : Q.contains p = true) : P.contains p = true := by
  simp only [Part.sub, List.all_eq_true, List.contains_iff_mem] at *
  exact h p k

theorem Changes.refl (P : List Part) (s : State) : Changes P s s :=
  ⟨fun p _ => by cases p <;> rfl⟩

theorem Changes.trans {P : List Part} {s t u : State} (h : Changes P s t) (k : Changes P t u) : Changes P s u := by
  refine ⟨fun p hp => ?_⟩
  have a := h.same p hp
  have b := k.same p hp
  cases p <;> exact Eq.trans b a

theorem Changes.mono {Q P : List Part} {s t : State} (hp : Part.sub Q P = true) (h : Changes Q s t) : Changes P s t := by
  refine ⟨fun p hn => h.same p ?_⟩
  cases hq : Q.contains p
  · rfl
  · simp only [Part.sub, List.all_eq_true, List.contains_iff_mem] at *
    rw [List.contains_iff_mem.mpr (hp p hq)] at hn
    exact hn

theorem Changes.ite {P : List Part} {s a b : State} {c : Prop} [Decidable c] (ha : c → Changes P s a) (hb : ¬c → Changes P s b) :
    Changes P s (if c then a else b) := by
  split
  · exact ha ‹_›
  · exact hb ‹_›

theorem forEach_changes {P : List Part} {s₀ : State} {α : Type} (l : List α) (f : α → State → State) (s : State)
    (hf : ∀ a s, Changes P s₀ s → Changes P s₀ (f a s)) (h : Changes P s₀ s) : Changes P s₀ (forEach l f s) := by
  unfold forEach
  induction l generalizing s with
  | nil => exact h
  | cons a l ih => exact ih _ (hf a s h)

theorem Changes.fst {P : List Part} {s a : State} {β : Type} {b : β} {p : State × β} (h : p = (a, b)) (k : Changes P s p.1) : Changes P s a := by
  cases h
  exact k

theorem Changes.fst_ite {P : List Part} {s : State} {β : Type} {a b : State × β} {c : Prop} [Decidable c] (ha : c → Changes P s a.1)
    (hb : ¬c → Changes P s b.1) : Changes P s (if c then a else b).1 := by
  split
  · exact ha ‹_›
  · exact hb ‹_›

theorem Changes.of_id {P : List Part} {s t : State} (h : Changes P s t) : Changes P s (id t) := h

/-! ## A write of one field -/

theorem Changes.set_pending {P : List Part} {s t : State} (v) (hp : P.contains .pending = true) (h : Changes P s t) : Changes P s { t with pending := v } := by
  refine ⟨fun p hn => ?_⟩
  have a := h.same p hn
  cases p <;> first | exact a | (rw [hp] at hn; cases hn)

theorem Changes.set_clock {P : List Part} {s t : State} (v) (hp : P.contains .clock = true) (h : Changes P s t) : Changes P s { t with clock := v } := by
  refine ⟨fun p hn => ?_⟩
  have a := h.same p hn
  cases p <;> first | exact a | (rw [hp] at hn; cases hn)

theorem Changes.set_host {P : List Part} {s t : State} (v) (hp : P.contains .host = true) (h : Changes P s t) : Changes P s { t with host := v } := by
  refine ⟨fun p hn => ?_⟩
  have a := h.same p hn
  cases p <;> first | exact a | (rw [hp] at hn; cases hn)

theorem Changes.set_funcs {P : List Part} {s t : State} (v) (hp : P.contains .funcs = true) (h : Changes P s t) : Changes P s { t with funcs := v } := by
  refine ⟨fun p hn => ?_⟩
  have a := h.same p hn
  cases p <;> first | exact a | (rw [hp] at hn; cases hn)

theorem Changes.set_irqs {P : List Part} {s t : State} (v) (hp : P.contains .irqs = true) (h : Changes P s t) : Changes P s { t with irqs := v } := by
  refine ⟨fun p hn => ?_⟩
  have a := h.same p hn
  cases p <;> first | exact a | (rw [hp] at hn; cases hn)

theorem Changes.set_power {P : List Part} {s t : State} (v) (hp : P.contains .power = true) (h : Changes P s t) : Changes P s { t with power := v } := by
  refine ⟨fun p hn => ?_⟩
  have a := h.same p hn
  cases p <;> first | exact a | (rw [hp] at hn; cases hn)

theorem Changes.set_backup {P : List Part} {s t : State} (v) (hp : P.contains .backup = true) (h : Changes P s t) : Changes P s { t with backup := v } := by
  refine ⟨fun p hn => ?_⟩
  have a := h.same p hn
  cases p <;> first | exact a | (rw [hp] at hn; cases hn)

theorem Changes.set_persist {P : List Part} {s t : State} (v) (hp : P.contains .persist = true) (h : Changes P s t) : Changes P s { t with persist := v } := by
  refine ⟨fun p hn => ?_⟩
  have a := h.same p hn
  cases p <;> first | exact a | (rw [hp] at hn; cases hn)

theorem Changes.set_tack {P : List Part} {s t : State} (v) (hp : P.contains .tack = true) (h : Changes P s t) : Changes P s { t with tack := v } := by
  refine ⟨fun p hn => ?_⟩
  have a := h.same p hn
  cases p <;> first | exact a | (rw [hp] at hn; cases hn)

theorem Changes.set_spine {P : List Part} {s t : State} (v) (hp : P.contains .spine = true) (h : Changes P s t) : Changes P s { t with spine := v } := by
  refine ⟨fun p hn => ?_⟩
  have a := h.same p hn
  cases p <;> first | exact a | (rw [hp] at hn; cases hn)

theorem Changes.set_herdImage {P : List Part} {s t : State} (v) (hp : P.contains .herdImage = true) (h : Changes P s t) : Changes P s { t with herdImage := v } := by
  refine ⟨fun p hn => ?_⟩
  have a := h.same p hn
  cases p <;> first | exact a | (rw [hp] at hn; cases hn)

theorem Changes.set_hubImage {P : List Part} {s t : State} (v) (hp : P.contains .hubImage = true) (h : Changes P s t) : Changes P s { t with hubImage := v } := by
  refine ⟨fun p hn => ?_⟩
  have a := h.same p hn
  cases p <;> first | exact a | (rw [hp] at hn; cases hn)

theorem Changes.set_stallImages {P : List Part} {s t : State} (v) (hp : P.contains .stallImages = true) (h : Changes P s t) : Changes P s { t with stallImages := v } := by
  refine ⟨fun p hn => ?_⟩
  have a := h.same p hn
  cases p <;> first | exact a | (rw [hp] at hn; cases hn)

theorem Changes.set_stalls {P : List Part} {s t : State} (v) (hp : P.contains .stalls = true) (h : Changes P s t) : Changes P s { t with stalls := v } := by
  refine ⟨fun p hn => ?_⟩
  have a := h.same p hn
  cases p <;> first | exact a | (rw [hp] at hn; cases hn)

theorem Changes.set_gaits {P : List Part} {s t : State} (v) (hp : P.contains .gaits = true) (h : Changes P s t) : Changes P s { t with gaits := v } := by
  refine ⟨fun p hn => ?_⟩
  have a := h.same p hn
  cases p <;> first | exact a | (rw [hp] at hn; cases hn)

theorem Changes.set_slices {P : List Part} {s t : State} (v) (hp : P.contains .slices = true) (h : Changes P s t) : Changes P s { t with slices := v } := by
  refine ⟨fun p hn => ?_⟩
  have a := h.same p hn
  cases p <;> first | exact a | (rw [hp] at hn; cases hn)

theorem Changes.set_acqs {P : List Part} {s t : State} (v) (hp : P.contains .acqs = true) (h : Changes P s t) : Changes P s { t with acqs := v } := by
  refine ⟨fun p hn => ?_⟩
  have a := h.same p hn
  cases p <;> first | exact a | (rw [hp] at hn; cases hn)

theorem Changes.set_voices {P : List Part} {s t : State} (v) (hp : P.contains .voices = true) (h : Changes P s t) : Changes P s { t with voices := v } := by
  refine ⟨fun p hn => ?_⟩
  have a := h.same p hn
  cases p <;> first | exact a | (rw [hp] at hn; cases hn)

theorem Changes.set_seqs {P : List Part} {s t : State} (v) (hp : P.contains .seqs = true) (h : Changes P s t) : Changes P s { t with seqs := v } := by
  refine ⟨fun p hn => ?_⟩
  have a := h.same p hn
  cases p <;> first | exact a | (rw [hp] at hn; cases hn)

theorem Changes.set_chans {P : List Part} {s t : State} (v) (hp : P.contains .chans = true) (h : Changes P s t) : Changes P s { t with chans := v } := by
  refine ⟨fun p hn => ?_⟩
  have a := h.same p hn
  cases p <;> first | exact a | (rw [hp] at hn; cases hn)

theorem Changes.set_units {P : List Part} {s t : State} (v) (hp : P.contains .units = true) (h : Changes P s t) : Changes P s { t with units := v } := by
  refine ⟨fun p hn => ?_⟩
  have a := h.same p hn
  cases p <;> first | exact a | (rw [hp] at hn; cases hn)

theorem Changes.set_nodes {P : List Part} {s t : State} (v) (hp : P.contains .nodes = true) (h : Changes P s t) : Changes P s { t with nodes := v } := by
  refine ⟨fun p hn => ?_⟩
  have a := h.same p hn
  cases p <;> first | exact a | (rw [hp] at hn; cases hn)

theorem Changes.set_cells {P : List Part} {s t : State} (v) (hp : P.contains .cells = true) (h : Changes P s t) : Changes P s { t with cells := v } := by
  refine ⟨fun p hn => ?_⟩
  have a := h.same p hn
  cases p <;> first | exact a | (rw [hp] at hn; cases hn)

theorem Changes.set_books {P : List Part} {s t : State} (v) (hp : P.contains .books = true) (h : Changes P s t) : Changes P s { t with books := v } := by
  refine ⟨fun p hn => ?_⟩
  have a := h.same p hn
  cases p <;> first | exact a | (rw [hp] at hn; cases hn)

theorem Changes.set_flights {P : List Part} {s t : State} (v) (hp : P.contains .flights = true) (h : Changes P s t) : Changes P s { t with flights := v } := by
  refine ⟨fun p hn => ?_⟩
  have a := h.same p hn
  cases p <;> first | exact a | (rw [hp] at hn; cases hn)

theorem Changes.set_nextFlight {P : List Part} {s t : State} (v) (hp : P.contains .nextFlight = true) (h : Changes P s t) : Changes P s { t with nextFlight := v } := by
  refine ⟨fun p hn => ?_⟩
  have a := h.same p hn
  cases p <;> first | exact a | (rw [hp] at hn; cases hn)

theorem Changes.set_hub {P : List Part} {s t : State} (v) (hp : P.contains .hub = true) (h : Changes P s t) : Changes P s { t with hub := v } := by
  refine ⟨fun p hn => ?_⟩
  have a := h.same p hn
  cases p <;> first | exact a | (rw [hp] at hn; cases hn)

theorem Changes.set_riders {P : List Part} {s t : State} (v) (hp : P.contains .riders = true) (h : Changes P s t) : Changes P s { t with riders := v } := by
  refine ⟨fun p hn => ?_⟩
  have a := h.same p hn
  cases p <;> first | exact a | (rw [hp] at hn; cases hn)

theorem Changes.set_lines {P : List Part} {s t : State} (v) (hp : P.contains .lines = true) (h : Changes P s t) : Changes P s { t with lines := v } := by
  refine ⟨fun p hn => ?_⟩
  have a := h.same p hn
  cases p <;> first | exact a | (rw [hp] at hn; cases hn)

theorem Changes.set_fasts {P : List Part} {s t : State} (v) (hp : P.contains .fasts = true) (h : Changes P s t) : Changes P s { t with fasts := v } := by
  refine ⟨fun p hn => ?_⟩
  have a := h.same p hn
  cases p <;> first | exact a | (rw [hp] at hn; cases hn)

theorem Changes.set_groups {P : List Part} {s t : State} (v) (hp : P.contains .groups = true) (h : Changes P s t) : Changes P s { t with groups := v } := by
  refine ⟨fun p hn => ?_⟩
  have a := h.same p hn
  cases p <;> first | exact a | (rw [hp] at hn; cases hn)

theorem Changes.set_queues {P : List Part} {s t : State} (v) (hp : P.contains .queues = true) (h : Changes P s t) : Changes P s { t with queues := v } := by
  refine ⟨fun p hn => ?_⟩
  have a := h.same p hn
  cases p <;> first | exact a | (rw [hp] at hn; cases hn)

theorem Changes.set_qdir {P : List Part} {s t : State} (v) (hp : P.contains .qdir = true) (h : Changes P s t) : Changes P s { t with qdir := v } := by
  refine ⟨fun p hn => ?_⟩
  have a := h.same p hn
  cases p <;> first | exact a | (rw [hp] at hn; cases hn)

theorem Changes.set_farriers {P : List Part} {s t : State} (v) (hp : P.contains .farriers = true) (h : Changes P s t) : Changes P s { t with farriers := v } := by
  refine ⟨fun p hn => ?_⟩
  have a := h.same p hn
  cases p <;> first | exact a | (rw [hp] at hn; cases hn)

theorem Changes.set_trims {P : List Part} {s t : State} (v) (hp : P.contains .trims = true) (h : Changes P s t) : Changes P s { t with trims := v } := by
  refine ⟨fun p hn => ?_⟩
  have a := h.same p hn
  cases p <;> first | exact a | (rw [hp] at hn; cases hn)

theorem Changes.set_shotAudits {P : List Part} {s t : State} (v) (hp : P.contains .shotAudits = true) (h : Changes P s t) : Changes P s { t with shotAudits := v } := by
  refine ⟨fun p hn => ?_⟩
  have a := h.same p hn
  cases p <;> first | exact a | (rw [hp] at hn; cases hn)

theorem Changes.set_lanes {P : List Part} {s t : State} (v) (hp : P.contains .lanes = true) (h : Changes P s t) : Changes P s { t with lanes := v } := by
  refine ⟨fun p hn => ?_⟩
  have a := h.same p hn
  cases p <;> first | exact a | (rw [hp] at hn; cases hn)

theorem Changes.set_tether {P : List Part} {s t : State} (v) (hp : P.contains .tether = true) (h : Changes P s t) : Changes P s { t with tether := v } := by
  refine ⟨fun p hn => ?_⟩
  have a := h.same p hn
  cases p <;> first | exact a | (rw [hp] at hn; cases hn)

theorem Changes.set_tc {P : List Part} {s t : State} (v) (hp : P.contains .tc = true) (h : Changes P s t) : Changes P s { t with tc := v } := by
  refine ⟨fun p hn => ?_⟩
  have a := h.same p hn
  cases p <;> first | exact a | (rw [hp] at hn; cases hn)

theorem Changes.set_ethPorts {P : List Part} {s t : State} (v) (hp : P.contains .ethPorts = true) (h : Changes P s t) : Changes P s { t with ethPorts := v } := by
  refine ⟨fun p hn => ?_⟩
  have a := h.same p hn
  cases p <;> first | exact a | (rw [hp] at hn; cases hn)

theorem Changes.set_domains {P : List Part} {s t : State} (v) (hp : P.contains .domains = true) (h : Changes P s t) : Changes P s { t with domains := v } := by
  refine ⟨fun p hn => ?_⟩
  have a := h.same p hn
  cases p <;> first | exact a | (rw [hp] at hn; cases hn)

theorem Changes.set_pulses {P : List Part} {s t : State} (v) (hp : P.contains .pulses = true) (h : Changes P s t) : Changes P s { t with pulses := v } := by
  refine ⟨fun p hn => ?_⟩
  have a := h.same p hn
  cases p <;> first | exact a | (rw [hp] at hn; cases hn)

theorem Changes.set_watches {P : List Part} {s t : State} (v) (hp : P.contains .watches = true) (h : Changes P s t) : Changes P s { t with watches := v } := by
  refine ⟨fun p hn => ?_⟩
  have a := h.same p hn
  cases p <;> first | exact a | (rw [hp] at hn; cases hn)

theorem Changes.set_hks {P : List Part} {s t : State} (v) (hp : P.contains .hks = true) (h : Changes P s t) : Changes P s { t with hks := v } := by
  refine ⟨fun p hn => ?_⟩
  have a := h.same p hn
  cases p <;> first | exact a | (rw [hp] at hn; cases hn)

theorem Changes.set_hkCtl {P : List Part} {s t : State} (v) (hp : P.contains .hkCtl = true) (h : Changes P s t) : Changes P s { t with hkCtl := v } := by
  refine ⟨fun p hn => ?_⟩
  have a := h.same p hn
  cases p <;> first | exact a | (rw [hp] at hn; cases hn)

theorem Changes.set_feeds {P : List Part} {s t : State} (v) (hp : P.contains .feeds = true) (h : Changes P s t) : Changes P s { t with feeds := v } := by
  refine ⟨fun p hn => ?_⟩
  have a := h.same p hn
  cases p <;> first | exact a | (rw [hp] at hn; cases hn)

theorem Changes.set_tally {P : List Part} {s t : State} (v) (hp : P.contains .tally = true) (h : Changes P s t) : Changes P s { t with tally := v } := by
  refine ⟨fun p hn => ?_⟩
  have a := h.same p hn
  cases p <;> first | exact a | (rw [hp] at hn; cases hn)

theorem Changes.set_hbm {P : List Part} {s t : State} (v) (hp : P.contains .hbm = true) (h : Changes P s t) : Changes P s { t with hbm := v } := by
  refine ⟨fun p hn => ?_⟩
  have a := h.same p hn
  cases p <;> first | exact a | (rw [hp] at hn; cases hn)

theorem Changes.set_library {P : List Part} {s t : State} (v) (hp : P.contains .library = true) (h : Changes P s t) : Changes P s { t with library := v } := by
  refine ⟨fun p hn => ?_⟩
  have a := h.same p hn
  cases p <;> first | exact a | (rw [hp] at hn; cases hn)

theorem Changes.set_descs {P : List Part} {s t : State} (v) (hp : P.contains .descs = true) (h : Changes P s t) : Changes P s { t with descs := v } := by
  refine ⟨fun p hn => ?_⟩
  have a := h.same p hn
  cases p <;> first | exact a | (rw [hp] at hn; cases hn)

theorem Changes.set_kernels {P : List Part} {s t : State} (v) (hp : P.contains .kernels = true) (h : Changes P s t) : Changes P s { t with kernels := v } := by
  refine ⟨fun p hn => ?_⟩
  have a := h.same p hn
  cases p <;> first | exact a | (rw [hp] at hn; cases hn)

theorem Changes.set_store {P : List Part} {s t : State} (v) (hp : P.contains .store = true) (h : Changes P s t) : Changes P s { t with store := v } := by
  refine ⟨fun p hn => ?_⟩
  have a := h.same p hn
  cases p <;> first | exact a | (rw [hp] at hn; cases hn)

theorem Changes.set_held {P : List Part} {s t : State} (v) (hp : P.contains .held = true) (h : Changes P s t) : Changes P s { t with held := v } := by
  refine ⟨fun p hn => ?_⟩
  have a := h.same p hn
  cases p <;> first | exact a | (rw [hp] at hn; cases hn)

theorem Changes.set_latched {P : List Part} {s t : State} (v) (hp : P.contains .latched = true) (h : Changes P s t) : Changes P s { t with latched := v } := by
  refine ⟨fun p hn => ?_⟩
  have a := h.same p hn
  cases p <;> first | exact a | (rw [hp] at hn; cases hn)

theorem Changes.set_freeCtr {P : List Part} {s t : State} (v) (hp : P.contains .freeCtr = true) (h : Changes P s t) : Changes P s { t with freeCtr := v } := by
  refine ⟨fun p hn => ?_⟩
  have a := h.same p hn
  cases p <;> first | exact a | (rw [hp] at hn; cases hn)

/-! ## What is unchanged, field by field -/

theorem Changes.pending {P : List Part} {s t : State} (h : Changes P s t) (hp : P.contains .pending = false := by decide) : t.pending = s.pending := h.same .pending hp
theorem Changes.clock {P : List Part} {s t : State} (h : Changes P s t) (hp : P.contains .clock = false := by decide) : t.clock = s.clock := h.same .clock hp
theorem Changes.host {P : List Part} {s t : State} (h : Changes P s t) (hp : P.contains .host = false := by decide) : t.host = s.host := h.same .host hp
theorem Changes.funcs {P : List Part} {s t : State} (h : Changes P s t) (hp : P.contains .funcs = false := by decide) : t.funcs = s.funcs := h.same .funcs hp
theorem Changes.irqs {P : List Part} {s t : State} (h : Changes P s t) (hp : P.contains .irqs = false := by decide) : t.irqs = s.irqs := h.same .irqs hp
theorem Changes.power {P : List Part} {s t : State} (h : Changes P s t) (hp : P.contains .power = false := by decide) : t.power = s.power := h.same .power hp
theorem Changes.backup {P : List Part} {s t : State} (h : Changes P s t) (hp : P.contains .backup = false := by decide) : t.backup = s.backup := h.same .backup hp
theorem Changes.persist {P : List Part} {s t : State} (h : Changes P s t) (hp : P.contains .persist = false := by decide) : t.persist = s.persist := h.same .persist hp
theorem Changes.tack {P : List Part} {s t : State} (h : Changes P s t) (hp : P.contains .tack = false := by decide) : t.tack = s.tack := h.same .tack hp
theorem Changes.spine {P : List Part} {s t : State} (h : Changes P s t) (hp : P.contains .spine = false := by decide) : t.spine = s.spine := h.same .spine hp
theorem Changes.herdImage {P : List Part} {s t : State} (h : Changes P s t) (hp : P.contains .herdImage = false := by decide) : t.herdImage = s.herdImage := h.same .herdImage hp
theorem Changes.hubImage {P : List Part} {s t : State} (h : Changes P s t) (hp : P.contains .hubImage = false := by decide) : t.hubImage = s.hubImage := h.same .hubImage hp
theorem Changes.stallImages {P : List Part} {s t : State} (h : Changes P s t) (hp : P.contains .stallImages = false := by decide) : t.stallImages = s.stallImages := h.same .stallImages hp
theorem Changes.stalls {P : List Part} {s t : State} (h : Changes P s t) (hp : P.contains .stalls = false := by decide) : t.stalls = s.stalls := h.same .stalls hp
theorem Changes.gaits {P : List Part} {s t : State} (h : Changes P s t) (hp : P.contains .gaits = false := by decide) : t.gaits = s.gaits := h.same .gaits hp
theorem Changes.slices {P : List Part} {s t : State} (h : Changes P s t) (hp : P.contains .slices = false := by decide) : t.slices = s.slices := h.same .slices hp
theorem Changes.acqs {P : List Part} {s t : State} (h : Changes P s t) (hp : P.contains .acqs = false := by decide) : t.acqs = s.acqs := h.same .acqs hp
theorem Changes.voices {P : List Part} {s t : State} (h : Changes P s t) (hp : P.contains .voices = false := by decide) : t.voices = s.voices := h.same .voices hp
theorem Changes.seqs {P : List Part} {s t : State} (h : Changes P s t) (hp : P.contains .seqs = false := by decide) : t.seqs = s.seqs := h.same .seqs hp
theorem Changes.chans {P : List Part} {s t : State} (h : Changes P s t) (hp : P.contains .chans = false := by decide) : t.chans = s.chans := h.same .chans hp
theorem Changes.units {P : List Part} {s t : State} (h : Changes P s t) (hp : P.contains .units = false := by decide) : t.units = s.units := h.same .units hp
theorem Changes.nodes {P : List Part} {s t : State} (h : Changes P s t) (hp : P.contains .nodes = false := by decide) : t.nodes = s.nodes := h.same .nodes hp
theorem Changes.cells {P : List Part} {s t : State} (h : Changes P s t) (hp : P.contains .cells = false := by decide) : t.cells = s.cells := h.same .cells hp
theorem Changes.books {P : List Part} {s t : State} (h : Changes P s t) (hp : P.contains .books = false := by decide) : t.books = s.books := h.same .books hp
theorem Changes.flights {P : List Part} {s t : State} (h : Changes P s t) (hp : P.contains .flights = false := by decide) : t.flights = s.flights := h.same .flights hp
theorem Changes.nextFlight {P : List Part} {s t : State} (h : Changes P s t) (hp : P.contains .nextFlight = false := by decide) : t.nextFlight = s.nextFlight := h.same .nextFlight hp
theorem Changes.hub {P : List Part} {s t : State} (h : Changes P s t) (hp : P.contains .hub = false := by decide) : t.hub = s.hub := h.same .hub hp
theorem Changes.riders {P : List Part} {s t : State} (h : Changes P s t) (hp : P.contains .riders = false := by decide) : t.riders = s.riders := h.same .riders hp
theorem Changes.lines {P : List Part} {s t : State} (h : Changes P s t) (hp : P.contains .lines = false := by decide) : t.lines = s.lines := h.same .lines hp
theorem Changes.fasts {P : List Part} {s t : State} (h : Changes P s t) (hp : P.contains .fasts = false := by decide) : t.fasts = s.fasts := h.same .fasts hp
theorem Changes.groups {P : List Part} {s t : State} (h : Changes P s t) (hp : P.contains .groups = false := by decide) : t.groups = s.groups := h.same .groups hp
theorem Changes.queues {P : List Part} {s t : State} (h : Changes P s t) (hp : P.contains .queues = false := by decide) : t.queues = s.queues := h.same .queues hp
theorem Changes.qdir {P : List Part} {s t : State} (h : Changes P s t) (hp : P.contains .qdir = false := by decide) : t.qdir = s.qdir := h.same .qdir hp
theorem Changes.farriers {P : List Part} {s t : State} (h : Changes P s t) (hp : P.contains .farriers = false := by decide) : t.farriers = s.farriers := h.same .farriers hp
theorem Changes.trims {P : List Part} {s t : State} (h : Changes P s t) (hp : P.contains .trims = false := by decide) : t.trims = s.trims := h.same .trims hp
theorem Changes.shotAudits {P : List Part} {s t : State} (h : Changes P s t) (hp : P.contains .shotAudits = false := by decide) : t.shotAudits = s.shotAudits := h.same .shotAudits hp
theorem Changes.lanes {P : List Part} {s t : State} (h : Changes P s t) (hp : P.contains .lanes = false := by decide) : t.lanes = s.lanes := h.same .lanes hp
theorem Changes.tether {P : List Part} {s t : State} (h : Changes P s t) (hp : P.contains .tether = false := by decide) : t.tether = s.tether := h.same .tether hp
theorem Changes.tc {P : List Part} {s t : State} (h : Changes P s t) (hp : P.contains .tc = false := by decide) : t.tc = s.tc := h.same .tc hp
theorem Changes.ethPorts {P : List Part} {s t : State} (h : Changes P s t) (hp : P.contains .ethPorts = false := by decide) : t.ethPorts = s.ethPorts := h.same .ethPorts hp
theorem Changes.domains {P : List Part} {s t : State} (h : Changes P s t) (hp : P.contains .domains = false := by decide) : t.domains = s.domains := h.same .domains hp
theorem Changes.pulses {P : List Part} {s t : State} (h : Changes P s t) (hp : P.contains .pulses = false := by decide) : t.pulses = s.pulses := h.same .pulses hp
theorem Changes.watches {P : List Part} {s t : State} (h : Changes P s t) (hp : P.contains .watches = false := by decide) : t.watches = s.watches := h.same .watches hp
theorem Changes.hks {P : List Part} {s t : State} (h : Changes P s t) (hp : P.contains .hks = false := by decide) : t.hks = s.hks := h.same .hks hp
theorem Changes.hkCtl {P : List Part} {s t : State} (h : Changes P s t) (hp : P.contains .hkCtl = false := by decide) : t.hkCtl = s.hkCtl := h.same .hkCtl hp
theorem Changes.feeds {P : List Part} {s t : State} (h : Changes P s t) (hp : P.contains .feeds = false := by decide) : t.feeds = s.feeds := h.same .feeds hp
theorem Changes.tally {P : List Part} {s t : State} (h : Changes P s t) (hp : P.contains .tally = false := by decide) : t.tally = s.tally := h.same .tally hp
theorem Changes.hbm {P : List Part} {s t : State} (h : Changes P s t) (hp : P.contains .hbm = false := by decide) : t.hbm = s.hbm := h.same .hbm hp
theorem Changes.library {P : List Part} {s t : State} (h : Changes P s t) (hp : P.contains .library = false := by decide) : t.library = s.library := h.same .library hp
theorem Changes.descs {P : List Part} {s t : State} (h : Changes P s t) (hp : P.contains .descs = false := by decide) : t.descs = s.descs := h.same .descs hp
theorem Changes.kernels {P : List Part} {s t : State} (h : Changes P s t) (hp : P.contains .kernels = false := by decide) : t.kernels = s.kernels := h.same .kernels hp
theorem Changes.store {P : List Part} {s t : State} (h : Changes P s t) (hp : P.contains .store = false := by decide) : t.store = s.store := h.same .store hp
theorem Changes.held {P : List Part} {s t : State} (h : Changes P s t) (hp : P.contains .held = false := by decide) : t.held = s.held := h.same .held hp
theorem Changes.latched {P : List Part} {s t : State} (h : Changes P s t) (hp : P.contains .latched = false := by decide) : t.latched = s.latched := h.same .latched hp
theorem Changes.freeCtr {P : List Part} {s t : State} (h : Changes P s t) (hp : P.contains .freeCtr = false := by decide) : t.freeCtr = s.freeCtr := h.same .freeCtr hp

/-! ## Outcomes -/

/-- Every next state of an outcome changes nothing outside the parts `P`. -/
structure ResChanges (P : List Part) (s : State) (r : Res) : Prop where
  all : ∀ t, r = .next t → Changes P s t

theorem ResChanges.next {P : List Part} {s t : State} (h : Changes P s t) : ResChanges P s (.next t) :=
  ⟨fun _ hu => by cases hu; exact h⟩

theorem ResChanges.fault {P : List Part} {s : State} (x : Fault) : ResChanges P s (.fault x) :=
  ⟨fun _ hu => by cases hu⟩

theorem ResChanges.refused {P : List Part} {s : State} (x : Refusal) : ResChanges P s (.refused x) :=
  ⟨fun _ hu => by cases hu⟩

theorem ResChanges.ite {P : List Part} {s : State} {a b : Res} {c : Prop} [Decidable c] (ha : c → ResChanges P s a) (hb : ¬c → ResChanges P s b) :
    ResChanges P s (if c then a else b) := by
  split
  · exact ha ‹_›
  · exact hb ‹_›

theorem ResChanges.mono {Q P : List Part} {s : State} {r : Res} (hp : Part.sub Q P = true) (h : ResChanges Q s r) : ResChanges P s r :=
  ⟨fun t ht => (h.all t ht).mono hp⟩

end Sys2Proof.Machine
end

