-- ==== Sys2Proof/Laws/ChangesOps.lean ====
section
/-!
SUPPORT. What each operation of Machine/Ops.lean may change.
-/

set_option linter.unusedTactic false
set_option linter.unreachableTactic false
set_option linter.style.longLine false
set_option linter.unusedVariables false
set_option maxRecDepth 8000

namespace Sys2Proof.Machine

open Sys2Proof

theorem modFunc_changes {P : List Part} {s₀ : State} (f : Func) (g : HostFunc → HostFunc) (s : State) (hp : Part.sub [.funcs] P = true)  (hc : Changes P s₀ s) : Changes P s₀ (modFunc f g s) := by
  unfold modFunc
  try dsimp only
  repeat' first
    | with_reducible assumption
    | with_reducible exact Changes.refl _ _
    | with_reducible apply Changes.ite
    | with_reducible apply Changes.set_funcs
    | exact Part.sub_trans (by decide) hp
    | exact Part.mem hp (by decide)
    | (intro _; try dsimp only)
    | split

theorem logInto_changes {P : List Part} {s₀ : State} (f : Func) (code : Code) (owner : Owner) (stall : Nat) (object : Word) (aux : Word) (func : BitVec 8) (src : LogSource) (s : State) (hp : Part.sub [.funcs] P = true)  (hc : Changes P s₀ s) : Changes P s₀ (logInto f code owner stall object aux func src s) := by
  unfold logInto
  try dsimp only
  repeat' first
    | with_reducible assumption
    | with_reducible exact Changes.refl _ _
    | with_reducible apply Changes.ite
    | with_reducible apply modFunc_changes
    | exact Part.sub_trans (by decide) hp
    | exact Part.mem hp (by decide)
    | (intro _; try dsimp only)
    | split

theorem refuseAt_changes {P : List Part} {s₀ : State} (f : Func) (bar2 : Bool) (offset : Nat) (code : Code) (owner : Owner) (stall : Nat) (object : Word) (aux : Word) (s : State) (hp : Part.sub [.funcs] P = true)  (hc : Changes P s₀ s) : Changes P s₀ (refuseAt f bar2 offset code owner stall object aux s) := by
  unfold refuseAt
  try dsimp only
  repeat' first
    | with_reducible assumption
    | with_reducible exact Changes.refl _ _
    | with_reducible apply Changes.ite
    | with_reducible apply logInto_changes
    | with_reducible apply modFunc_changes
    | exact Part.sub_trans (by decide) hp
    | exact Part.mem hp (by decide)
    | (intro _; try dsimp only)
    | split

theorem modShotAudit_changes {P : List Part} {s₀ : State} (n : StallId) (f : ShotAudit → ShotAudit) (s : State) (hp : Part.sub [.shotAudits] P = true)  (hc : Changes P s₀ s) : Changes P s₀ (modShotAudit n f s) := by
  unfold modShotAudit
  try dsimp only
  repeat' first
    | with_reducible assumption
    | with_reducible exact Changes.refl _ _
    | with_reducible apply Changes.ite
    | with_reducible apply Changes.set_shotAudits
    | exact Part.sub_trans (by decide) hp
    | exact Part.mem hp (by decide)
    | (intro _; try dsimp only)
    | split

theorem modIrq_changes {P : List Part} {s₀ : State} (src : Nat) (g : IrqSource → IrqSource) (s : State) (hp : Part.sub [.irqs] P = true)  (hc : Changes P s₀ s) : Changes P s₀ (modIrq src g s) := by
  unfold modIrq
  try dsimp only
  repeat' first
    | with_reducible assumption
    | with_reducible exact Changes.refl _ _
    | with_reducible apply Changes.ite
    | with_reducible apply Changes.set_irqs
    | exact Part.sub_trans (by decide) hp
    | exact Part.mem hp (by decide)
    | (intro _; try dsimp only)
    | split

theorem deliver_changes {P : List Part} {s₀ : State} (src : Nat) (f : Func) (e : Nat) (s : State) (hp : Part.sub [.funcs, .irqs] P = true)  (hc : Changes P s₀ s) : Changes P s₀ (deliver src f e s) := by
  unfold deliver
  try dsimp only
  repeat' first
    | with_reducible assumption
    | with_reducible exact Changes.refl _ _
    | with_reducible apply Changes.ite
    | with_reducible apply modFunc_changes
    | with_reducible apply modIrq_changes
    | exact Part.sub_trans (by decide) hp
    | exact Part.mem hp (by decide)
    | (intro _; try dsimp only)
    | split

theorem raise_changes {P : List Part} {s₀ : State} (src : Nat) (s : State) (hp : Part.sub [.funcs, .irqs] P = true)  (hc : Changes P s₀ s) : Changes P s₀ (raise src s) := by
  unfold raise
  try dsimp only
  repeat' first
    | with_reducible assumption
    | with_reducible exact Changes.refl _ _
    | with_reducible apply Changes.ite
    | with_reducible apply deliver_changes
    | with_reducible apply modFunc_changes
    | with_reducible apply modIrq_changes
    | exact Part.sub_trans (by decide) hp
    | exact Part.mem hp (by decide)
    | (intro _; try dsimp only)
    | split

theorem record_changes {P : List Part} {s₀ : State} (code : Code) (stall : Nat) (owner : Owner) (object : Word) (aux : Word) (s : State) (hp : Part.sub [.funcs] P = true)  (hc : Changes P s₀ s) : Changes P s₀ (record code stall owner object aux s) := by
  unfold record
  try dsimp only
  repeat' first
    | with_reducible assumption
    | with_reducible exact Changes.refl _ _
    | with_reducible apply Changes.ite
    | with_reducible apply logInto_changes
    | exact Part.sub_trans (by decide) hp
    | exact Part.mem hp (by decide)
    | (intro _; try dsimp only)
    | split

theorem modUnit_changes {P : List Part} {s₀ : State} (u : UnitId) (f : CapUnit → CapUnit) (s : State) (hp : Part.sub [.units] P = true)  (hc : Changes P s₀ s) : Changes P s₀ (modUnit u f s) := by
  unfold modUnit
  try dsimp only
  repeat' first
    | with_reducible assumption
    | with_reducible exact Changes.refl _ _
    | with_reducible apply Changes.ite
    | with_reducible apply Changes.set_units
    | exact Part.sub_trans (by decide) hp
    | exact Part.mem hp (by decide)
    | (intro _; try dsimp only)
    | split

theorem setQdir_changes {P : List Part} {s₀ : State} (f : Qdir → Qdir) (s : State) (hp : Part.sub [.qdir] P = true)  (hc : Changes P s₀ s) : Changes P s₀ (setQdir f s) := by
  unfold setQdir
  try dsimp only
  repeat' first
    | with_reducible assumption
    | with_reducible exact Changes.refl _ _
    | with_reducible apply Changes.ite
    | with_reducible apply Changes.set_qdir
    | exact Part.sub_trans (by decide) hp
    | exact Part.mem hp (by decide)
    | (intro _; try dsimp only)
    | split

theorem setHbm_changes {P : List Part} {s₀ : State} (f : Tab Byte → Tab Byte) (s : State) (hp : Part.sub [.hbm] P = true)  (hc : Changes P s₀ s) : Changes P s₀ (setHbm f s) := by
  unfold setHbm
  try dsimp only
  repeat' first
    | with_reducible assumption
    | with_reducible exact Changes.refl _ _
    | with_reducible apply Changes.ite
    | with_reducible apply Changes.set_hbm
    | exact Part.sub_trans (by decide) hp
    | exact Part.mem hp (by decide)
    | (intro _; try dsimp only)
    | split

theorem modPort_changes {P : List Part} {s₀ : State} (p : Fin 2) (f : EthPort → EthPort) (s : State) (hp : Part.sub [.ethPorts] P = true)  (hc : Changes P s₀ s) : Changes P s₀ (modPort p f s) := by
  unfold modPort
  try dsimp only
  repeat' first
    | with_reducible assumption
    | with_reducible exact Changes.refl _ _
    | with_reducible apply Changes.ite
    | with_reducible apply Changes.set_ethPorts
    | exact Part.sub_trans (by decide) hp
    | exact Part.mem hp (by decide)
    | (intro _; try dsimp only)
    | split

theorem setTack_changes {P : List Part} {s₀ : State} (f : Tack → Tack) (s : State) (hp : Part.sub [.tack] P = true)  (hc : Changes P s₀ s) : Changes P s₀ (setTack f s) := by
  unfold setTack
  try dsimp only
  repeat' first
    | with_reducible assumption
    | with_reducible exact Changes.refl _ _
    | with_reducible apply Changes.ite
    | with_reducible apply Changes.set_tack
    | exact Part.sub_trans (by decide) hp
    | exact Part.mem hp (by decide)
    | (intro _; try dsimp only)
    | split

theorem modQueue_changes {P : List Part} {s₀ : State} (q : QueueId) (f : Queue → Queue) (s : State) (hp : Part.sub [.queues] P = true)  (hc : Changes P s₀ s) : Changes P s₀ (modQueue q f s) := by
  unfold modQueue
  try dsimp only
  repeat' first
    | with_reducible assumption
    | with_reducible exact Changes.refl _ _
    | with_reducible apply Changes.ite
    | with_reducible apply Changes.set_queues
    | exact Part.sub_trans (by decide) hp
    | exact Part.mem hp (by decide)
    | (intro _; try dsimp only)
    | split

theorem setPower_changes {P : List Part} {s₀ : State} (f : Power → Power) (s : State) (hp : Part.sub [.power] P = true)  (hc : Changes P s₀ s) : Changes P s₀ (setPower f s) := by
  unfold setPower
  try dsimp only
  repeat' first
    | with_reducible assumption
    | with_reducible exact Changes.refl _ _
    | with_reducible apply Changes.ite
    | with_reducible apply Changes.set_power
    | exact Part.sub_trans (by decide) hp
    | exact Part.mem hp (by decide)
    | (intro _; try dsimp only)
    | split

theorem drawn_changes {P : List Part} {s₀ : State} (k : Nat) (s : State) (hp : Part.sub [.freeCtr] P = true)  (hc : Changes P s₀ s) : Changes P s₀ (drawn k s) := by
  unfold drawn
  try dsimp only
  repeat' first
    | with_reducible assumption
    | with_reducible exact Changes.refl _ _
    | with_reducible apply Changes.ite
    | with_reducible apply Changes.set_freeCtr
    | exact Part.sub_trans (by decide) hp
    | exact Part.mem hp (by decide)
    | (intro _; try dsimp only)
    | split

theorem freshen_changes {P : List Part} {s₀ : State} (s : State) (hp : Part.sub [.freeCtr] P = true)  (hc : Changes P s₀ s) : Changes P s₀ (freshen s) := by
  unfold freshen
  try dsimp only
  repeat' first
    | with_reducible assumption
    | with_reducible exact Changes.refl _ _
    | with_reducible apply Changes.ite
    | with_reducible apply drawn_changes
    | exact Part.sub_trans (by decide) hp
    | exact Part.mem hp (by decide)
    | (intro _; try dsimp only)
    | split

theorem setPersist_changes {P : List Part} {s₀ : State} (f : Persist → Persist) (s : State) (hp : Part.sub [.persist] P = true)  (hc : Changes P s₀ s) : Changes P s₀ (setPersist f s) := by
  unfold setPersist
  try dsimp only
  repeat' first
    | with_reducible assumption
    | with_reducible exact Changes.refl _ _
    | with_reducible apply Changes.ite
    | with_reducible apply Changes.set_persist
    | exact Part.sub_trans (by decide) hp
    | exact Part.mem hp (by decide)
    | (intro _; try dsimp only)
    | split

theorem modLane_changes {P : List Part} {s₀ : State} (k : LaneId) (f : Lane → Lane) (s : State) (hp : Part.sub [.lanes] P = true)  (hc : Changes P s₀ s) : Changes P s₀ (modLane k f s) := by
  unfold modLane
  try dsimp only
  repeat' first
    | with_reducible assumption
    | with_reducible exact Changes.refl _ _
    | with_reducible apply Changes.ite
    | with_reducible apply Changes.set_lanes
    | exact Part.sub_trans (by decide) hp
    | exact Part.mem hp (by decide)
    | (intro _; try dsimp only)
    | split

theorem modChan_changes {P : List Part} {s₀ : State} (c : ChanId) (f : Channel → Channel) (s : State) (hp : Part.sub [.chans] P = true)  (hc : Changes P s₀ s) : Changes P s₀ (modChan c f s) := by
  unfold modChan
  try dsimp only
  repeat' first
    | with_reducible assumption
    | with_reducible exact Changes.refl _ _
    | with_reducible apply Changes.ite
    | with_reducible apply Changes.set_chans
    | exact Part.sub_trans (by decide) hp
    | exact Part.mem hp (by decide)
    | (intro _; try dsimp only)
    | split

theorem modRider_changes {P : List Part} {s₀ : State} (r : RiderId) (f : Rider → Rider) (s : State) (hp : Part.sub [.riders] P = true)  (hc : Changes P s₀ s) : Changes P s₀ (modRider r f s) := by
  unfold modRider
  try dsimp only
  repeat' first
    | with_reducible assumption
    | with_reducible exact Changes.refl _ _
    | with_reducible apply Changes.ite
    | with_reducible apply Changes.set_riders
    | exact Part.sub_trans (by decide) hp
    | exact Part.mem hp (by decide)
    | (intro _; try dsimp only)
    | split

theorem modVoice_changes {P : List Part} {s₀ : State} (v : VoiceId) (f : Voice → Voice) (s : State) (hp : Part.sub [.voices] P = true)  (hc : Changes P s₀ s) : Changes P s₀ (modVoice v f s) := by
  unfold modVoice
  try dsimp only
  repeat' first
    | with_reducible assumption
    | with_reducible exact Changes.refl _ _
    | with_reducible apply Changes.ite
    | with_reducible apply Changes.set_voices
    | exact Part.sub_trans (by decide) hp
    | exact Part.mem hp (by decide)
    | (intro _; try dsimp only)
    | split

theorem modTrims_changes {P : List Part} {s₀ : State} (n : StallId) (f : Trims → Trims) (s : State) (hp : Part.sub [.trims] P = true)  (hc : Changes P s₀ s) : Changes P s₀ (modTrims n f s) := by
  unfold modTrims
  try dsimp only
  repeat' first
    | with_reducible assumption
    | with_reducible exact Changes.refl _ _
    | with_reducible apply Changes.ite
    | with_reducible apply Changes.set_trims
    | exact Part.sub_trans (by decide) hp
    | exact Part.mem hp (by decide)
    | (intro _; try dsimp only)
    | split

theorem modStall_changes {P : List Part} {s₀ : State} (n : StallId) (f : StallCtl → StallCtl) (s : State) (hp : Part.sub [.stalls] P = true)  (hc : Changes P s₀ s) : Changes P s₀ (modStall n f s) := by
  unfold modStall
  try dsimp only
  repeat' first
    | with_reducible assumption
    | with_reducible exact Changes.refl _ _
    | with_reducible apply Changes.ite
    | with_reducible apply Changes.set_stalls
    | exact Part.sub_trans (by decide) hp
    | exact Part.mem hp (by decide)
    | (intro _; try dsimp only)
    | split

theorem modFarrier_changes {P : List Part} {s₀ : State} (n : StallId) (f : Farrier → Farrier) (s : State) (hp : Part.sub [.farriers] P = true)  (hc : Changes P s₀ s) : Changes P s₀ (modFarrier n f s) := by
  unfold modFarrier
  try dsimp only
  repeat' first
    | with_reducible assumption
    | with_reducible exact Changes.refl _ _
    | with_reducible apply Changes.ite
    | with_reducible apply Changes.set_farriers
    | exact Part.sub_trans (by decide) hp
    | exact Part.mem hp (by decide)
    | (intro _; try dsimp only)
    | split

theorem modNode_changes {P : List Part} {s₀ : State} (n : StallId) (f : Node → Node) (s : State) (hp : Part.sub [.nodes] P = true)  (hc : Changes P s₀ s) : Changes P s₀ (modNode n f s) := by
  unfold modNode
  try dsimp only
  repeat' first
    | with_reducible assumption
    | with_reducible exact Changes.refl _ _
    | with_reducible apply Changes.ite
    | with_reducible apply Changes.set_nodes
    | exact Part.sub_trans (by decide) hp
    | exact Part.mem hp (by decide)
    | (intro _; try dsimp only)
    | split

theorem modFast_changes {P : List Part} {s₀ : State} (l : LineId) (f : Fast → Fast) (s : State) (hp : Part.sub [.fasts] P = true)  (hc : Changes P s₀ s) : Changes P s₀ (modFast l f s) := by
  unfold modFast
  try dsimp only
  repeat' first
    | with_reducible assumption
    | with_reducible exact Changes.refl _ _
    | with_reducible apply Changes.ite
    | with_reducible apply Changes.set_fasts
    | exact Part.sub_trans (by decide) hp
    | exact Part.mem hp (by decide)
    | (intro _; try dsimp only)
    | split

theorem modLine_changes {P : List Part} {s₀ : State} (l : LineId) (f : Line → Line) (s : State) (hp : Part.sub [.lines] P = true)  (hc : Changes P s₀ s) : Changes P s₀ (modLine l f s) := by
  unfold modLine
  try dsimp only
  repeat' first
    | with_reducible assumption
    | with_reducible exact Changes.refl _ _
    | with_reducible apply Changes.ite
    | with_reducible apply Changes.set_lines
    | exact Part.sub_trans (by decide) hp
    | exact Part.mem hp (by decide)
    | (intro _; try dsimp only)
    | split

theorem modAcq_changes {P : List Part} {s₀ : State} (n : StallId) (k : Fin 5) (f : AcqSlice → AcqSlice) (s : State) (hp : Part.sub [.acqs] P = true)  (hc : Changes P s₀ s) : Changes P s₀ (modAcq n k f s) := by
  unfold modAcq
  try dsimp only
  repeat' first
    | with_reducible assumption
    | with_reducible exact Changes.refl _ _
    | with_reducible apply Changes.ite
    | with_reducible apply Changes.set_acqs
    | exact Part.sub_trans (by decide) hp
    | exact Part.mem hp (by decide)
    | (intro _; try dsimp only)
    | split

theorem modSeq_changes {P : List Part} {s₀ : State} (v : VoiceId) (f : Seq → Seq) (s : State) (hp : Part.sub [.seqs] P = true)  (hc : Changes P s₀ s) : Changes P s₀ (modSeq v f s) := by
  unfold modSeq
  try dsimp only
  repeat' first
    | with_reducible assumption
    | with_reducible exact Changes.refl _ _
    | with_reducible apply Changes.ite
    | with_reducible apply Changes.set_seqs
    | exact Part.sub_trans (by decide) hp
    | exact Part.mem hp (by decide)
    | (intro _; try dsimp only)
    | split

theorem modSlice_changes {P : List Part} {s₀ : State} (i : SliceId) (f : Slice → Slice) (s : State) (hp : Part.sub [.slices] P = true)  (hc : Changes P s₀ s) : Changes P s₀ (modSlice i f s) := by
  unfold modSlice
  try dsimp only
  repeat' first
    | with_reducible assumption
    | with_reducible exact Changes.refl _ _
    | with_reducible apply Changes.ite
    | with_reducible apply Changes.set_slices
    | exact Part.sub_trans (by decide) hp
    | exact Part.mem hp (by decide)
    | (intro _; try dsimp only)
    | split

theorem modGait_changes {P : List Part} {s₀ : State} (n : StallId) (f : Gait → Gait) (s : State) (hp : Part.sub [.gaits] P = true)  (hc : Changes P s₀ s) : Changes P s₀ (modGait n f s) := by
  unfold modGait
  try dsimp only
  repeat' first
    | with_reducible assumption
    | with_reducible exact Changes.refl _ _
    | with_reducible apply Changes.ite
    | with_reducible apply Changes.set_gaits
    | exact Part.sub_trans (by decide) hp
    | exact Part.mem hp (by decide)
    | (intro _; try dsimp only)
    | split

theorem modHk_changes {P : List Part} {s₀ : State} (k : Fin 8) (f : HkConv → HkConv) (s : State) (hp : Part.sub [.hks] P = true)  (hc : Changes P s₀ s) : Changes P s₀ (modHk k f s) := by
  unfold modHk
  try dsimp only
  repeat' first
    | with_reducible assumption
    | with_reducible exact Changes.refl _ _
    | with_reducible apply Changes.ite
    | with_reducible apply Changes.set_hks
    | exact Part.sub_trans (by decide) hp
    | exact Part.mem hp (by decide)
    | (intro _; try dsimp only)
    | split

theorem modWatch_changes {P : List Part} {s₀ : State} (c : CmpId) (f : Watch → Watch) (s : State) (hp : Part.sub [.watches] P = true)  (hc : Changes P s₀ s) : Changes P s₀ (modWatch c f s) := by
  unfold modWatch
  try dsimp only
  repeat' first
    | with_reducible assumption
    | with_reducible exact Changes.refl _ _
    | with_reducible apply Changes.ite
    | with_reducible apply Changes.set_watches
    | exact Part.sub_trans (by decide) hp
    | exact Part.mem hp (by decide)
    | (intro _; try dsimp only)
    | split

theorem modCell_changes {P : List Part} {s₀ : State} (c : CellId) (f : Cell → Cell) (s : State) (hp : Part.sub [.cells] P = true)  (hc : Changes P s₀ s) : Changes P s₀ (modCell c f s) := by
  unfold modCell
  try dsimp only
  repeat' first
    | with_reducible assumption
    | with_reducible exact Changes.refl _ _
    | with_reducible apply Changes.ite
    | with_reducible apply Changes.set_cells
    | exact Part.sub_trans (by decide) hp
    | exact Part.mem hp (by decide)
    | (intro _; try dsimp only)
    | split

theorem setHub_changes {P : List Part} {s₀ : State} (f : Hub → Hub) (s : State) (hp : Part.sub [.hub] P = true)  (hc : Changes P s₀ s) : Changes P s₀ (setHub f s) := by
  unfold setHub
  try dsimp only
  repeat' first
    | with_reducible assumption
    | with_reducible exact Changes.refl _ _
    | with_reducible apply Changes.ite
    | with_reducible apply Changes.set_hub
    | exact Part.sub_trans (by decide) hp
    | exact Part.mem hp (by decide)
    | (intro _; try dsimp only)
    | split

theorem setTether_changes {P : List Part} {s₀ : State} (f : TetherCtl → TetherCtl) (s : State) (hp : Part.sub [.tether] P = true)  (hc : Changes P s₀ s) : Changes P s₀ (setTether f s) := by
  unfold setTether
  try dsimp only
  repeat' first
    | with_reducible assumption
    | with_reducible exact Changes.refl _ _
    | with_reducible apply Changes.ite
    | with_reducible apply Changes.set_tether
    | exact Part.sub_trans (by decide) hp
    | exact Part.mem hp (by decide)
    | (intro _; try dsimp only)
    | split

theorem modPulse_changes {P : List Part} {s₀ : State} (k : Fin 8) (f : TimePulse → TimePulse) (s : State) (hp : Part.sub [.pulses] P = true)  (hc : Changes P s₀ s) : Changes P s₀ (modPulse k f s) := by
  unfold modPulse
  try dsimp only
  repeat' first
    | with_reducible assumption
    | with_reducible exact Changes.refl _ _
    | with_reducible apply Changes.ite
    | with_reducible apply Changes.set_pulses
    | exact Part.sub_trans (by decide) hp
    | exact Part.mem hp (by decide)
    | (intro _; try dsimp only)
    | split

theorem modDomain_changes {P : List Part} {s₀ : State} (d : Fin 2) (f : Domain → Domain) (s : State) (hp : Part.sub [.domains] P = true)  (hc : Changes P s₀ s) : Changes P s₀ (modDomain d f s) := by
  unfold modDomain
  try dsimp only
  repeat' first
    | with_reducible assumption
    | with_reducible exact Changes.refl _ _
    | with_reducible apply Changes.ite
    | with_reducible apply Changes.set_domains
    | exact Part.sub_trans (by decide) hp
    | exact Part.mem hp (by decide)
    | (intro _; try dsimp only)
    | split

theorem setTime_changes {P : List Part} {s₀ : State} (f : TimeCtl → TimeCtl) (s : State) (hp : Part.sub [.tc] P = true)  (hc : Changes P s₀ s) : Changes P s₀ (setTime f s) := by
  unfold setTime
  try dsimp only
  repeat' first
    | with_reducible assumption
    | with_reducible exact Changes.refl _ _
    | with_reducible apply Changes.ite
    | with_reducible apply Changes.set_tc
    | exact Part.sub_trans (by decide) hp
    | exact Part.mem hp (by decide)
    | (intro _; try dsimp only)
    | split

theorem setBackup_changes {P : List Part} {s₀ : State} (f : Backup → Backup) (s : State) (hp : Part.sub [.backup] P = true)  (hc : Changes P s₀ s) : Changes P s₀ (setBackup f s) := by
  unfold setBackup
  try dsimp only
  repeat' first
    | with_reducible assumption
    | with_reducible exact Changes.refl _ _
    | with_reducible apply Changes.ite
    | with_reducible apply Changes.set_backup
    | exact Part.sub_trans (by decide) hp
    | exact Part.mem hp (by decide)
    | (intro _; try dsimp only)
    | split

theorem setHost_changes {P : List Part} {s₀ : State} (f : HostCommon → HostCommon) (s : State) (hp : Part.sub [.host] P = true)  (hc : Changes P s₀ s) : Changes P s₀ (setHost f s) := by
  unfold setHost
  try dsimp only
  repeat' first
    | with_reducible assumption
    | with_reducible exact Changes.refl _ _
    | with_reducible apply Changes.ite
    | with_reducible apply Changes.set_host
    | exact Part.sub_trans (by decide) hp
    | exact Part.mem hp (by decide)
    | (intro _; try dsimp only)
    | split

theorem setStore_changes {P : List Part} {s₀ : State} (f : Tab (BitVec 256) → Tab (BitVec 256)) (s : State) (hp : Part.sub [.store] P = true)  (hc : Changes P s₀ s) : Changes P s₀ (setStore f s) := by
  unfold setStore
  try dsimp only
  repeat' first
    | with_reducible assumption
    | with_reducible exact Changes.refl _ _
    | with_reducible apply Changes.ite
    | with_reducible apply Changes.set_store
    | exact Part.sub_trans (by decide) hp
    | exact Part.mem hp (by decide)
    | (intro _; try dsimp only)
    | split

theorem modFeed_changes {P : List Part} {s₀ : State} (k : Nat) (g : Feed → Feed) (s : State) (hp : Part.sub [.feeds] P = true)  (hc : Changes P s₀ s) : Changes P s₀ (modFeed k g s) := by
  unfold modFeed
  try dsimp only
  repeat' first
    | with_reducible assumption
    | with_reducible exact Changes.refl _ _
    | with_reducible apply Changes.ite
    | with_reducible apply Changes.set_feeds
    | exact Part.sub_trans (by decide) hp
    | exact Part.mem hp (by decide)
    | (intro _; try dsimp only)
    | split

theorem modGroup_changes {P : List Part} {s₀ : State} (g : GroupId) (f : Group → Group) (s : State) (hp : Part.sub [.groups] P = true)  (hc : Changes P s₀ s) : Changes P s₀ (modGroup g f s) := by
  unfold modGroup
  try dsimp only
  repeat' first
    | with_reducible assumption
    | with_reducible exact Changes.refl _ _
    | with_reducible apply Changes.ite
    | with_reducible apply Changes.set_groups
    | exact Part.sub_trans (by decide) hp
    | exact Part.mem hp (by decide)
    | (intro _; try dsimp only)
    | split

theorem modBook_changes {P : List Part} {s₀ : State} (e : ReinChan) (f : Book → Book) (s : State) (hp : Part.sub [.books] P = true)  (hc : Changes P s₀ s) : Changes P s₀ (modBook e f s) := by
  unfold modBook
  try dsimp only
  repeat' first
    | with_reducible assumption
    | with_reducible exact Changes.refl _ _
    | with_reducible apply Changes.ite
    | with_reducible apply Changes.set_books
    | exact Part.sub_trans (by decide) hp
    | exact Part.mem hp (by decide)
    | (intro _; try dsimp only)
    | split

theorem setStallImages_changes {P : List Part} {s₀ : State} (f : Tab StallImage → Tab StallImage) (s : State) (hp : Part.sub [.stallImages] P = true)  (hc : Changes P s₀ s) : Changes P s₀ (setStallImages f s) := by
  unfold setStallImages
  try dsimp only
  repeat' first
    | with_reducible assumption
    | with_reducible exact Changes.refl _ _
    | with_reducible apply Changes.ite
    | with_reducible apply Changes.set_stallImages
    | exact Part.sub_trans (by decide) hp
    | exact Part.mem hp (by decide)
    | (intro _; try dsimp only)
    | split

theorem setHk_changes {P : List Part} {s₀ : State} (f : HkCtl → HkCtl) (s : State) (hp : Part.sub [.hkCtl] P = true)  (hc : Changes P s₀ s) : Changes P s₀ (setHk f s) := by
  unfold setHk
  try dsimp only
  repeat' first
    | with_reducible assumption
    | with_reducible exact Changes.refl _ _
    | with_reducible apply Changes.ite
    | with_reducible apply Changes.set_hkCtl
    | exact Part.sub_trans (by decide) hp
    | exact Part.mem hp (by decide)
    | (intro _; try dsimp only)
    | split

theorem setTally_changes {P : List Part} {s₀ : State} (f : Tally → Tally) (s : State) (hp : Part.sub [.tally] P = true)  (hc : Changes P s₀ s) : Changes P s₀ (setTally f s) := by
  unfold setTally
  try dsimp only
  repeat' first
    | with_reducible assumption
    | with_reducible exact Changes.refl _ _
    | with_reducible apply Changes.ite
    | with_reducible apply Changes.set_tally
    | exact Part.sub_trans (by decide) hp
    | exact Part.mem hp (by decide)
    | (intro _; try dsimp only)
    | split

theorem setClock_changes {P : List Part} {s₀ : State} (f : Clock → Clock) (s : State) (hp : Part.sub [.clock] P = true)  (hc : Changes P s₀ s) : Changes P s₀ (setClock f s) := by
  unfold setClock
  try dsimp only
  repeat' first
    | with_reducible assumption
    | with_reducible exact Changes.refl _ _
    | with_reducible apply Changes.ite
    | with_reducible apply Changes.set_clock
    | exact Part.sub_trans (by decide) hp
    | exact Part.mem hp (by decide)
    | (intro _; try dsimp only)
    | split

theorem setHubImage_changes {P : List Part} {s₀ : State} (i : Option HubImage) (s : State) (hp : Part.sub [.hubImage] P = true)  (hc : Changes P s₀ s) : Changes P s₀ (setHubImage i s) := by
  unfold setHubImage
  try dsimp only
  repeat' first
    | with_reducible assumption
    | with_reducible exact Changes.refl _ _
    | with_reducible apply Changes.ite
    | with_reducible apply Changes.set_hubImage
    | exact Part.sub_trans (by decide) hp
    | exact Part.mem hp (by decide)
    | (intro _; try dsimp only)
    | split

theorem putFlight_changes {P : List Part} {s₀ : State} (i : Nat) (g : Flight) (s : State) (hp : Part.sub [.flights] P = true)  (hc : Changes P s₀ s) : Changes P s₀ (putFlight i g s) := by
  unfold putFlight
  try dsimp only
  repeat' first
    | with_reducible assumption
    | with_reducible exact Changes.refl _ _
    | with_reducible apply Changes.ite
    | with_reducible apply Changes.set_flights
    | exact Part.sub_trans (by decide) hp
    | exact Part.mem hp (by decide)
    | (intro _; try dsimp only)
    | split

end Sys2Proof.Machine
end

