-- ==== Sys2Proof/Laws/ChangesAccess.lean ====
section
/-!
SUPPORT. What each operation of Machine/Access.lean may change.
-/

set_option linter.unusedTactic false
set_option linter.unreachableTactic false
set_option linter.style.longLine false
set_option linter.unusedVariables false
set_option maxRecDepth 8000

namespace Sys2Proof.Machine

open Sys2Proof

theorem dropHeld_changes {P : List Part} {s₀ : State} (r : Reg) (s : State) (hp : Part.sub [.held] P = true)  (hc : Changes P s₀ s) : Changes P s₀ (dropHeld r s) := by
  unfold dropHeld
  try dsimp only
  repeat' first
    | with_reducible assumption
    | with_reducible exact Changes.refl _ _
    | with_reducible apply Changes.ite
    | with_reducible apply Changes.set_held
    | exact Part.sub_trans (by decide) hp
    | exact Part.mem hp (by decide)
    | (intro _; try dsimp only)
    | split

theorem holdWord_changes {P : List Part} {s₀ : State} (r : Reg) (val : Word) (s : State) (hp : Part.sub [.held] P = true)  (hc : Changes P s₀ s) : Changes P s₀ (holdWord r val s) := by
  unfold holdWord
  try dsimp only
  repeat' first
    | with_reducible assumption
    | with_reducible exact Changes.refl _ _
    | with_reducible apply Changes.ite
    | with_reducible apply Changes.set_held
    | exact Part.sub_trans (by decide) hp
    | exact Part.mem hp (by decide)
    | (intro _; try dsimp only)
    | split

theorem refuseReg_changes {P : List Part} {s₀ : State} (f : Func) (r : Reg) (code : Code) (s : State) (hp : Part.sub [.funcs] P = true)  (hc : Changes P s₀ s) : Changes P s₀ (refuseReg f r code s) := by
  unfold refuseReg
  try dsimp only
  repeat' first
    | with_reducible assumption
    | with_reducible exact Changes.refl _ _
    | with_reducible apply Changes.ite
    | with_reducible apply refuseAt_changes
    | exact Part.sub_trans (by decide) hp
    | exact Part.mem hp (by decide)
    | (intro _; try dsimp only)
    | split

theorem hostWrite_changes {P : List Part} {s₀ : State} (f : Func) (r : Reg) (eff : State → State) (s : State) (hp : Part.sub [.funcs] P = true) (heff : ∀ y0, Changes P s₀ y0 → Changes P s₀ (eff y0)) (hc : Changes P s₀ s) : Changes P s₀ (hostWrite f r eff s) := by
  unfold hostWrite
  try dsimp only
  repeat' first
    | with_reducible assumption
    | with_reducible exact Changes.refl _ _
    | with_reducible apply Changes.ite
    | with_reducible apply refuseReg_changes
    | with_reducible apply heff
    | exact Part.sub_trans (by decide) hp
    | exact Part.mem hp (by decide)
    | (intro _; try dsimp only)
    | split

theorem hostCheck_changes {P : List Part} {s₀ : State} (f : Func) (r : Reg) (code : State → Option Code) (eff : State → State) (s : State) (hp : Part.sub [.funcs] P = true) (heff : ∀ y0, Changes P s₀ y0 → Changes P s₀ (eff y0)) (hc : Changes P s₀ s) : Changes P s₀ (hostCheck f r code eff s) := by
  unfold hostCheck
  try dsimp only
  repeat' first
    | with_reducible assumption
    | with_reducible exact Changes.refl _ _
    | with_reducible apply Changes.ite
    | with_reducible apply hostWrite_changes
    | with_reducible apply refuseReg_changes
    | with_reducible apply heff
    | exact Part.sub_trans (by decide) hp
    | exact Part.mem hp (by decide)
    | (intro _; try dsimp only)
    | split

theorem hostElement_changes {P : List Part} {s₀ : State} (f : Func) (r : Reg) (g : Grant) (count : State → State) (code : State → Option Code) (eff : State → State) (s : State) (hp : Part.sub [.funcs] P = true) (hcount : ∀ y0, Changes P s₀ y0 → Changes P s₀ (count y0)) (heff : ∀ y0, Changes P s₀ y0 → Changes P s₀ (eff y0)) (hc : Changes P s₀ s) : Changes P s₀ (hostElement f r g count code eff s) := by
  unfold hostElement
  try dsimp only
  repeat' first
    | with_reducible assumption
    | with_reducible exact Changes.refl _ _
    | with_reducible apply Changes.ite
    | with_reducible apply hostWrite_changes
    | with_reducible apply refuseReg_changes
    | with_reducible apply hcount
    | with_reducible apply heff
    | exact Part.sub_trans (by decide) hp
    | exact Part.mem hp (by decide)
    | (intro _; try dsimp only)
    | split

theorem pairWrite_changes {P : List Part} {s₀ : State} (lo : Reg) (isHi : Bool) (val : Word) (inForceLo : State → Word) (commit : Word → Word → State → State) (s : State) (hp : Part.sub [.held] P = true) (hcommit : ∀ y0 y1 y2, Changes P s₀ y2 → Changes P s₀ (commit y0 y1 y2)) (hc : Changes P s₀ s) : Changes P s₀ (pairWrite lo isHi val inForceLo commit s) := by
  unfold pairWrite
  try dsimp only
  repeat' first
    | with_reducible assumption
    | with_reducible exact Changes.refl _ _
    | with_reducible apply Changes.ite
    | with_reducible apply dropHeld_changes
    | with_reducible apply holdWord_changes
    | with_reducible apply hcommit
    | exact Part.sub_trans (by decide) hp
    | exact Part.mem hp (by decide)
    | (intro _; try dsimp only)
    | split

theorem spineCommand_changes {P : List Part} {s₀ : State} (f : Func) (r : Reg) (setOp : (OpStatus → OpStatus) → State → State) (code : State → Option Code) (eff : State → State) (s : State) (hp : Part.sub [.funcs] P = true) (hsetOp : ∀ y0 y1, Changes P s₀ y1 → Changes P s₀ (setOp y0 y1)) (heff : ∀ y0, Changes P s₀ y0 → Changes P s₀ (eff y0)) (hc : Changes P s₀ s) : Changes P s₀ (spineCommand f r setOp code eff s) := by
  unfold spineCommand
  try dsimp only
  repeat' first
    | with_reducible assumption
    | with_reducible exact Changes.refl _ _
    | with_reducible apply Changes.ite
    | with_reducible apply hostWrite_changes
    | with_reducible apply refuseReg_changes
    | with_reducible apply hsetOp
    | with_reducible apply heff
    | exact Part.sub_trans (by decide) hp
    | exact Part.mem hp (by decide)
    | (intro _; try dsimp only)
    | split

end Sys2Proof.Machine
end

