-- ==== Sys2Proof/Laws/Tab.lean ====
section
/-!
SUPPORT. Laws of the sparse tables: a read after a write to the same key gives what was written, a write leaves every other key alone, and
the canonical form is kept. Keys of objects are injective.
-/

namespace Sys2Proof.Machine

open Sys2Proof

theorem tabFind_tabSet {α : Type} (t : Tab α) (k : Nat) (a : α) : tabFind k (tabSet t k a) = some a := by
  induction t with
  | nil => simp [tabSet, tabFind]
  | cons e t ih =>
    obtain ⟨i, b⟩ := e
    unfold tabSet
    split
    · simp [tabFind]
    · split
      · simp [tabFind]
      · have : i ≠ k := fun h => ‹¬k = i› h.symm
        simp [tabFind, this, ih]

theorem tabFind_tabSet_ne {α : Type} (t : Tab α) {k j : Nat} (a : α) (h : k ≠ j) : tabFind j (tabSet t k a) = tabFind j t := by
  induction t with
  | nil => simp [tabSet, tabFind, h]
  | cons e t ih =>
    obtain ⟨i, b⟩ := e
    unfold tabSet
    split
    · simp [tabFind, h]
    · split
      · subst_vars
        simp [tabFind, h]
      · simp [tabFind, ih]

theorem tabFind_tabDel {α : Type} (t : Tab α) (k : Nat) : tabFind k (tabDel t k) = none := by
  unfold tabDel
  induction t with
  | nil => rfl
  | cons e t ih =>
    obtain ⟨i, b⟩ := e
    by_cases h : i = k <;> simp_all [tabFind]

theorem tabFind_tabDel_ne {α : Type} (t : Tab α) {k j : Nat} (h : k ≠ j) : tabFind j (tabDel t k) = tabFind j t := by
  unfold tabDel
  induction t with
  | nil => rfl
  | cons e t ih =>
    obtain ⟨i, b⟩ := e
    by_cases hi : i = k
    · subst hi
      simp_all [tabFind]
    · simp_all [tabFind]

@[simp] theorem tabGet_nil {α : Type} (d : α) (k : Nat) : tabGet d [] k = d := rfl

@[simp] theorem tabGet_tabSet {α : Type} (d : α) (t : Tab α) (k : Nat) (a : α) : tabGet d (tabSet t k a) k = a := by
  simp [tabGet, tabFind_tabSet]

theorem tabGet_tabSet_ne {α : Type} {d : α} {t : Tab α} {k j : Nat} {a : α} (h : k ≠ j) : tabGet d (tabSet t k a) j = tabGet d t j := by
  simp [tabGet, tabFind_tabSet_ne _ _ h]

@[simp] theorem tabGet_tabMod {α : Type} (d : α) (t : Tab α) (k : Nat) (f : α → α) : tabGet d (tabMod d t k f) k = f (tabGet d t k) := by
  simp [tabMod]

theorem tabGet_tabMod_ne {α : Type} {d : α} {t : Tab α} {k j : Nat} {f : α → α} (h : k ≠ j) : tabGet d (tabMod d t k f) j = tabGet d t j := by
  simp [tabMod, tabGet_tabSet_ne h]

/-- A write to a memory reads back. -/
@[simp] theorem tabGet_memSet {α : Type} [DecidableEq α] (d : α) (t : Tab α) (k : Nat) (a : α) : tabGet d (memSet d t k a) k = a := by
  unfold memSet
  split
  · subst_vars
    simp [tabGet, tabFind_tabDel]
  · simp

/-- A write to a memory leaves every other cell alone. -/
theorem tabGet_memSet_ne {α : Type} [DecidableEq α] {d : α} {t : Tab α} {k j : Nat} {a : α} (h : k ≠ j) :
    tabGet d (memSet d t k a) j = tabGet d t j := by
  unfold memSet
  split
  · simp [tabGet, tabFind_tabDel_ne _ h]
  · simp [tabGet_tabSet_ne h]

/-- Cells below and above a run of writes keep what they hold. -/
theorem tabGet_memWrite_ne {α : Type} [DecidableEq α] {d : α} (l : List α) (t : Tab α) {k j : Nat} (h : j < k ∨ k + l.length ≤ j) :
    tabGet d (memWrite d t k l) j = tabGet d t j := by
  induction l generalizing t k with
  | nil => rfl
  | cons a l ih =>
    unfold memWrite
    simp only [List.length_cons] at h
    rw [ih _ (by omega), tabGet_memSet_ne (by omega)]

/-! ## The canonical form -/

/-- Keys strictly rising, as a chain. -/
theorem tabSorted_iff {α : Type} (t : Tab α) : tabSorted t = true ↔ t.Pairwise fun a b => a.1 < b.1 := by
  induction t with
  | nil => simp [tabSorted]
  | cons e t ih =>
    cases t with
    | nil => simp [tabSorted]
    | cons f t =>
      obtain ⟨i, a⟩ := e
      obtain ⟨j, b⟩ := f
      simp only [tabSorted, Bool.and_eq_true, decide_eq_true_eq, ih]
      constructor
      · rintro ⟨h, k⟩
        refine List.pairwise_cons.mpr ⟨?_, k⟩
        intro x hx
        rcases List.mem_cons.mp hx with rfl | hx
        · exact h
        · exact Nat.lt_trans h ((List.pairwise_cons.mp k).1 x hx)
      · intro h
        exact ⟨(List.pairwise_cons.mp h).1 _ List.mem_cons_self, (List.pairwise_cons.mp h).2⟩

theorem mem_tabSet {α : Type} (t : Tab α) (k : Nat) (a : α) (p : Nat × α) (h : p ∈ tabSet t k a) : p = (k, a) ∨ p ∈ t := by
  induction t with
  | nil => simpa [tabSet] using h
  | cons e t ih =>
    obtain ⟨i, b⟩ := e
    unfold tabSet at h
    split at h
    · simpa using h
    · split at h
      · rcases List.mem_cons.mp h with rfl | h
        · exact .inl rfl
        · exact .inr (List.mem_cons_of_mem _ h)
      · rcases List.mem_cons.mp h with rfl | h
        · exact .inr List.mem_cons_self
        · exact (ih h).imp id (List.mem_cons_of_mem _)

theorem tabSet_sorted {α : Type} (t : Tab α) (k : Nat) (a : α) (h : tabSorted t = true) : tabSorted (tabSet t k a) = true := by
  rw [tabSorted_iff] at *
  induction t with
  | nil => simp [tabSet]
  | cons e t ih =>
    obtain ⟨i, b⟩ := e
    have ⟨h1, h2⟩ := List.pairwise_cons.mp h
    unfold tabSet
    split
    · refine List.pairwise_cons.mpr ⟨?_, h⟩
      intro x hx
      rcases List.mem_cons.mp hx with rfl | hx
      · assumption
      · exact Nat.lt_trans ‹k < i› (h1 x hx)
    · split
      · subst_vars
        exact List.pairwise_cons.mpr ⟨h1, h2⟩
      · refine List.pairwise_cons.mpr ⟨?_, ih h2⟩
        intro x hx
        rcases mem_tabSet t k a x hx with rfl | hx
        · show i < k
          omega
        · exact h1 x hx

theorem tabDel_sorted {α : Type} (t : Tab α) (k : Nat) (h : tabSorted t = true) : tabSorted (tabDel t k) = true := by
  rw [tabSorted_iff] at *
  exact h.filter _

/-- One write keeps the canonical form of a memory. -/
theorem memSet_wf {α : Type} [DecidableEq α] (d : α) (t : Tab α) (k : Nat) (a : α) (h : memWf d t = true) : memWf d (memSet d t k a) = true := by
  simp only [memWf, Bool.and_eq_true, List.all_eq_true, decide_eq_true_eq] at *
  unfold memSet
  split
  · exact ⟨tabDel_sorted _ _ h.1, fun p hp => h.2 p (List.mem_of_mem_filter hp)⟩
  · refine ⟨tabSet_sorted _ _ _ h.1, fun p hp => ?_⟩
    rcases mem_tabSet _ _ _ _ hp with rfl | hp
    · assumption
    · exact h.2 p hp

/-- A run of writes keeps the canonical form of a memory. -/
theorem memWrite_wf {α : Type} [DecidableEq α] (d : α) (l : List α) (t : Tab α) (k : Nat) (h : memWf d t = true) : memWf d (memWrite d t k l) = true := by
  induction l generalizing t k with
  | nil => exact h
  | cons a l ih => exact ih _ _ (memSet_wf d t k a h)

/-- Leaving cells out keeps the canonical form of a memory. -/
theorem filter_wf {α : Type} [DecidableEq α] (d : α) (t : Tab α) (f : Nat × α → Bool) (h : memWf d t = true) : memWf d (t.filter f) = true := by
  simp only [memWf, Bool.and_eq_true, List.all_eq_true, decide_eq_true_eq, tabSorted_iff] at *
  exact ⟨h.1.filter _, fun p hp => h.2 p (List.mem_of_mem_filter hp)⟩

/-! ## Keys -/

theorem voiceKey_inj {v w : VoiceId} (h : voiceKey v = voiceKey w) : v = w := by
  obtain ⟨⟨n, hn⟩, p, ⟨i, hi⟩⟩ := v
  obtain ⟨⟨m, hm⟩, q, ⟨j, hj⟩⟩ := w
  cases p <;> cases q <;> simp [voiceKey] at h ⊢ <;> omega

theorem chanKey_inj {v w : ChanId} (h : chanKey v = chanKey w) : v = w := by
  obtain ⟨⟨n, hn⟩, ⟨i, hi⟩⟩ := v
  obtain ⟨⟨m, hm⟩, ⟨j, hj⟩⟩ := w
  simp [chanKey] at h ⊢
  omega

theorem lineKey_inj {v w : LineId} (h : lineKey v = lineKey w) : v = w := by
  obtain ⟨⟨n, hn⟩, ⟨i, hi⟩⟩ := v
  obtain ⟨⟨m, hm⟩, ⟨j, hj⟩⟩ := w
  simp [lineKey] at h ⊢
  omega

theorem groupKey_inj {v w : GroupId} (h : groupKey v = groupKey w) : v = w := by
  obtain ⟨⟨n, hn⟩, ⟨i, hi⟩⟩ := v
  obtain ⟨⟨m, hm⟩, ⟨j, hj⟩⟩ := w
  simp [groupKey] at h ⊢
  omega

theorem riderKey_inj {v w : RiderId} (h : riderKey v = riderKey w) : v = w := by
  obtain ⟨⟨n, hn⟩, ⟨i, hi⟩⟩ := v
  obtain ⟨⟨m, hm⟩, ⟨j, hj⟩⟩ := w
  simp [riderKey] at h ⊢
  omega

theorem unitKey_inj {v w : UnitId} (h : unitKey v = unitKey w) : v = w := by
  obtain ⟨⟨n, hn⟩, ⟨i, hi⟩⟩ := v
  obtain ⟨⟨m, hm⟩, ⟨j, hj⟩⟩ := w
  simp [unitKey] at h ⊢
  omega

theorem acqKey_inj {n m : StallId} {k l : Fin 5} (h : acqKey n k = acqKey m l) : n = m ∧ k = l := by
  simp only [acqKey, Fin.ext_iff] at *
  omega

theorem cmpKey_inj {c d : CmpId} (h : cmpKey c = cmpKey d) : c = d := by
  cases c <;> cases d <;> simp [cmpKey, Fin.ext_iff] at h ⊢ <;> omega

theorem cellKey_inj {c d : CellId} (h : cellKey c = cellKey d) : c = d := by
  cases c with
  | node n b =>
    cases d with
    | node m e => simp [cellKey, Fin.ext_iff] at h ⊢; omega
    | hub q e => simp [cellKey] at h; omega
  | hub p b =>
    cases d with
    | node m e => simp [cellKey] at h; omega
    | hub q e => cases p <;> cases q <;> simp [cellKey, Fin.ext_iff] at h ⊢ <;> omega

end Sys2Proof.Machine
end

