-- ==== Sys2Proof/Laws/State.lean ====
section
/-!
SUPPORT. What reads as what after an update of the state: one lemma for each update, with every field that it leaves alone, and the read of
the object that it changes.
-/

namespace Sys2Proof.Machine

open Sys2Proof

@[simp] theorem modStall_keeps (n : StallId) (f : StallCtl → StallCtl) (s : State) :
    (modStall n f s).pending = s.pending ∧ (modStall n f s).clock = s.clock ∧ (modStall n f s).host = s.host ∧ (modStall n f s).funcs = s.funcs ∧ (modStall n f s).irqs = s.irqs ∧ (modStall n f s).power = s.power ∧ (modStall n f s).backup = s.backup ∧ (modStall n f s).persist = s.persist ∧ (modStall n f s).tack = s.tack ∧ (modStall n f s).spine = s.spine ∧ (modStall n f s).herdImage = s.herdImage ∧ (modStall n f s).hubImage = s.hubImage ∧ (modStall n f s).stallImages = s.stallImages ∧ (modStall n f s).gaits = s.gaits ∧ (modStall n f s).slices = s.slices ∧ (modStall n f s).acqs = s.acqs ∧ (modStall n f s).voices = s.voices ∧ (modStall n f s).seqs = s.seqs ∧ (modStall n f s).chans = s.chans ∧ (modStall n f s).units = s.units ∧ (modStall n f s).nodes = s.nodes ∧ (modStall n f s).cells = s.cells ∧ (modStall n f s).books = s.books ∧ (modStall n f s).flights = s.flights ∧ (modStall n f s).nextFlight = s.nextFlight ∧ (modStall n f s).hub = s.hub ∧ (modStall n f s).riders = s.riders ∧ (modStall n f s).lines = s.lines ∧ (modStall n f s).fasts = s.fasts ∧ (modStall n f s).groups = s.groups ∧ (modStall n f s).queues = s.queues ∧ (modStall n f s).qdir = s.qdir ∧ (modStall n f s).farriers = s.farriers ∧ (modStall n f s).trims = s.trims ∧ (modStall n f s).shotAudits = s.shotAudits ∧ (modStall n f s).lanes = s.lanes ∧ (modStall n f s).tether = s.tether ∧ (modStall n f s).tc = s.tc ∧ (modStall n f s).ethPorts = s.ethPorts ∧ (modStall n f s).domains = s.domains ∧ (modStall n f s).pulses = s.pulses ∧ (modStall n f s).watches = s.watches ∧ (modStall n f s).hks = s.hks ∧ (modStall n f s).hkCtl = s.hkCtl ∧ (modStall n f s).feeds = s.feeds ∧ (modStall n f s).tally = s.tally ∧ (modStall n f s).hbm = s.hbm ∧ (modStall n f s).library = s.library ∧ (modStall n f s).descs = s.descs ∧ (modStall n f s).kernels = s.kernels ∧ (modStall n f s).store = s.store ∧ (modStall n f s).held = s.held ∧ (modStall n f s).latched = s.latched ∧ (modStall n f s).freeCtr = s.freeCtr :=
  ⟨rfl, rfl, rfl, rfl, rfl, rfl, rfl, rfl, rfl, rfl, rfl, rfl, rfl, rfl, rfl, rfl, rfl, rfl, rfl, rfl, rfl, rfl, rfl, rfl, rfl, rfl, rfl, rfl, rfl, rfl, rfl, rfl, rfl, rfl, rfl, rfl, rfl, rfl, rfl, rfl, rfl, rfl, rfl, rfl, rfl, rfl, rfl, rfl, rfl, rfl, rfl, rfl, rfl, rfl⟩

@[simp] theorem modGait_keeps (n : StallId) (f : Gait → Gait) (s : State) :
    (modGait n f s).pending = s.pending ∧ (modGait n f s).clock = s.clock ∧ (modGait n f s).host = s.host ∧ (modGait n f s).funcs = s.funcs ∧ (modGait n f s).irqs = s.irqs ∧ (modGait n f s).power = s.power ∧ (modGait n f s).backup = s.backup ∧ (modGait n f s).persist = s.persist ∧ (modGait n f s).tack = s.tack ∧ (modGait n f s).spine = s.spine ∧ (modGait n f s).herdImage = s.herdImage ∧ (modGait n f s).hubImage = s.hubImage ∧ (modGait n f s).stallImages = s.stallImages ∧ (modGait n f s).stalls = s.stalls ∧ (modGait n f s).slices = s.slices ∧ (modGait n f s).acqs = s.acqs ∧ (modGait n f s).voices = s.voices ∧ (modGait n f s).seqs = s.seqs ∧ (modGait n f s).chans = s.chans ∧ (modGait n f s).units = s.units ∧ (modGait n f s).nodes = s.nodes ∧ (modGait n f s).cells = s.cells ∧ (modGait n f s).books = s.books ∧ (modGait n f s).flights = s.flights ∧ (modGait n f s).nextFlight = s.nextFlight ∧ (modGait n f s).hub = s.hub ∧ (modGait n f s).riders = s.riders ∧ (modGait n f s).lines = s.lines ∧ (modGait n f s).fasts = s.fasts ∧ (modGait n f s).groups = s.groups ∧ (modGait n f s).queues = s.queues ∧ (modGait n f s).qdir = s.qdir ∧ (modGait n f s).farriers = s.farriers ∧ (modGait n f s).trims = s.trims ∧ (modGait n f s).shotAudits = s.shotAudits ∧ (modGait n f s).lanes = s.lanes ∧ (modGait n f s).tether = s.tether ∧ (modGait n f s).tc = s.tc ∧ (modGait n f s).ethPorts = s.ethPorts ∧ (modGait n f s).domains = s.domains ∧ (modGait n f s).pulses = s.pulses ∧ (modGait n f s).watches = s.watches ∧ (modGait n f s).hks = s.hks ∧ (modGait n f s).hkCtl = s.hkCtl ∧ (modGait n f s).feeds = s.feeds ∧ (modGait n f s).tally = s.tally ∧ (modGait n f s).hbm = s.hbm ∧ (modGait n f s).library = s.library ∧ (modGait n f s).descs = s.descs ∧ (modGait n f s).kernels = s.kernels ∧ (modGait n f s).store = s.store ∧ (modGait n f s).held = s.held ∧ (modGait n f s).latched = s.latched ∧ (modGait n f s).freeCtr = s.freeCtr :=
  ⟨rfl, rfl, rfl, rfl, rfl, rfl, rfl, rfl, rfl, rfl, rfl, rfl, rfl, rfl, rfl, rfl, rfl, rfl, rfl, rfl, rfl, rfl, rfl, rfl, rfl, rfl, rfl, rfl, rfl, rfl, rfl, rfl, rfl, rfl, rfl, rfl, rfl, rfl, rfl, rfl, rfl, rfl, rfl, rfl, rfl, rfl, rfl, rfl, rfl, rfl, rfl, rfl, rfl, rfl⟩

@[simp] theorem modSlice_keeps (i : SliceId) (f : Slice → Slice) (s : State) :
    (modSlice i f s).pending = s.pending ∧ (modSlice i f s).clock = s.clock ∧ (modSlice i f s).host = s.host ∧ (modSlice i f s).funcs = s.funcs ∧ (modSlice i f s).irqs = s.irqs ∧ (modSlice i f s).power = s.power ∧ (modSlice i f s).backup = s.backup ∧ (modSlice i f s).persist = s.persist ∧ (modSlice i f s).tack = s.tack ∧ (modSlice i f s).spine = s.spine ∧ (modSlice i f s).herdImage = s.herdImage ∧ (modSlice i f s).hubImage = s.hubImage ∧ (modSlice i f s).stallImages = s.stallImages ∧ (modSlice i f s).stalls = s.stalls ∧ (modSlice i f s).gaits = s.gaits ∧ (modSlice i f s).acqs = s.acqs ∧ (modSlice i f s).voices = s.voices ∧ (modSlice i f s).seqs = s.seqs ∧ (modSlice i f s).chans = s.chans ∧ (modSlice i f s).units = s.units ∧ (modSlice i f s).nodes = s.nodes ∧ (modSlice i f s).cells = s.cells ∧ (modSlice i f s).books = s.books ∧ (modSlice i f s).flights = s.flights ∧ (modSlice i f s).nextFlight = s.nextFlight ∧ (modSlice i f s).hub = s.hub ∧ (modSlice i f s).riders = s.riders ∧ (modSlice i f s).lines = s.lines ∧ (modSlice i f s).fasts = s.fasts ∧ (modSlice i f s).groups = s.groups ∧ (modSlice i f s).queues = s.queues ∧ (modSlice i f s).qdir = s.qdir ∧ (modSlice i f s).farriers = s.farriers ∧ (modSlice i f s).trims = s.trims ∧ (modSlice i f s).shotAudits = s.shotAudits ∧ (modSlice i f s).lanes = s.lanes ∧ (modSlice i f s).tether = s.tether ∧ (modSlice i f s).tc = s.tc ∧ (modSlice i f s).ethPorts = s.ethPorts ∧ (modSlice i f s).domains = s.domains ∧ (modSlice i f s).pulses = s.pulses ∧ (modSlice i f s).watches = s.watches ∧ (modSlice i f s).hks = s.hks ∧ (modSlice i f s).hkCtl = s.hkCtl ∧ (modSlice i f s).feeds = s.feeds ∧ (modSlice i f s).tally = s.tally ∧ (modSlice i f s).hbm = s.hbm ∧ (modSlice i f s).library = s.library ∧ (modSlice i f s).descs = s.descs ∧ (modSlice i f s).kernels = s.kernels ∧ (modSlice i f s).store = s.store ∧ (modSlice i f s).held = s.held ∧ (modSlice i f s).latched = s.latched ∧ (modSlice i f s).freeCtr = s.freeCtr :=
  ⟨rfl, rfl, rfl, rfl, rfl, rfl, rfl, rfl, rfl, rfl, rfl, rfl, rfl, rfl, rfl, rfl, rfl, rfl, rfl, rfl, rfl, rfl, rfl, rfl, rfl, rfl, rfl, rfl, rfl, rfl, rfl, rfl, rfl, rfl, rfl, rfl, rfl, rfl, rfl, rfl, rfl, rfl, rfl, rfl, rfl, rfl, rfl, rfl, rfl, rfl, rfl, rfl, rfl, rfl⟩

@[simp] theorem modAcq_keeps (n : StallId) (k : Fin 5) (f : AcqSlice → AcqSlice) (s : State) :
    (modAcq n k f s).pending = s.pending ∧ (modAcq n k f s).clock = s.clock ∧ (modAcq n k f s).host = s.host ∧ (modAcq n k f s).funcs = s.funcs ∧ (modAcq n k f s).irqs = s.irqs ∧ (modAcq n k f s).power = s.power ∧ (modAcq n k f s).backup = s.backup ∧ (modAcq n k f s).persist = s.persist ∧ (modAcq n k f s).tack = s.tack ∧ (modAcq n k f s).spine = s.spine ∧ (modAcq n k f s).herdImage = s.herdImage ∧ (modAcq n k f s).hubImage = s.hubImage ∧ (modAcq n k f s).stallImages = s.stallImages ∧ (modAcq n k f s).stalls = s.stalls ∧ (modAcq n k f s).gaits = s.gaits ∧ (modAcq n k f s).slices = s.slices ∧ (modAcq n k f s).voices = s.voices ∧ (modAcq n k f s).seqs = s.seqs ∧ (modAcq n k f s).chans = s.chans ∧ (modAcq n k f s).units = s.units ∧ (modAcq n k f s).nodes = s.nodes ∧ (modAcq n k f s).cells = s.cells ∧ (modAcq n k f s).books = s.books ∧ (modAcq n k f s).flights = s.flights ∧ (modAcq n k f s).nextFlight = s.nextFlight ∧ (modAcq n k f s).hub = s.hub ∧ (modAcq n k f s).riders = s.riders ∧ (modAcq n k f s).lines = s.lines ∧ (modAcq n k f s).fasts = s.fasts ∧ (modAcq n k f s).groups = s.groups ∧ (modAcq n k f s).queues = s.queues ∧ (modAcq n k f s).qdir = s.qdir ∧ (modAcq n k f s).farriers = s.farriers ∧ (modAcq n k f s).trims = s.trims ∧ (modAcq n k f s).shotAudits = s.shotAudits ∧ (modAcq n k f s).lanes = s.lanes ∧ (modAcq n k f s).tether = s.tether ∧ (modAcq n k f s).tc = s.tc ∧ (modAcq n k f s).ethPorts = s.ethPorts ∧ (modAcq n k f s).domains = s.domains ∧ (modAcq n k f s).pulses = s.pulses ∧ (modAcq n k f s).watches = s.watches ∧ (modAcq n k f s).hks = s.hks ∧ (modAcq n k f s).hkCtl = s.hkCtl ∧ (modAcq n k f s).feeds = s.feeds ∧ (modAcq n k f s).tally = s.tally ∧ (modAcq n k f s).hbm = s.hbm ∧ (modAcq n k f s).library = s.library ∧ (modAcq n k f s).descs = s.descs ∧ (modAcq n k f s).kernels = s.kernels ∧ (modAcq n k f s).store = s.store ∧ (modAcq n k f s).held = s.held ∧ (modAcq n k f s).latched = s.latched ∧ (modAcq n k f s).freeCtr = s.freeCtr :=
  ⟨rfl, rfl, rfl, rfl, rfl, rfl, rfl, rfl, rfl, rfl, rfl, rfl, rfl, rfl, rfl, rfl, rfl, rfl, rfl, rfl, rfl, rfl, rfl, rfl, rfl, rfl, rfl, rfl, rfl, rfl, rfl, rfl, rfl, rfl, rfl, rfl, rfl, rfl, rfl, rfl, rfl, rfl, rfl, rfl, rfl, rfl, rfl, rfl, rfl, rfl, rfl, rfl, rfl, rfl⟩

@[simp] theorem modVoice_keeps (v : VoiceId) (f : Voice → Voice) (s : State) :
    (modVoice v f s).pending = s.pending ∧ (modVoice v f s).clock = s.clock ∧ (modVoice v f s).host = s.host ∧ (modVoice v f s).funcs = s.funcs ∧ (modVoice v f s).irqs = s.irqs ∧ (modVoice v f s).power = s.power ∧ (modVoice v f s).backup = s.backup ∧ (modVoice v f s).persist = s.persist ∧ (modVoice v f s).tack = s.tack ∧ (modVoice v f s).spine = s.spine ∧ (modVoice v f s).herdImage = s.herdImage ∧ (modVoice v f s).hubImage = s.hubImage ∧ (modVoice v f s).stallImages = s.stallImages ∧ (modVoice v f s).stalls = s.stalls ∧ (modVoice v f s).gaits = s.gaits ∧ (modVoice v f s).slices = s.slices ∧ (modVoice v f s).acqs = s.acqs ∧ (modVoice v f s).seqs = s.seqs ∧ (modVoice v f s).chans = s.chans ∧ (modVoice v f s).units = s.units ∧ (modVoice v f s).nodes = s.nodes ∧ (modVoice v f s).cells = s.cells ∧ (modVoice v f s).books = s.books ∧ (modVoice v f s).flights = s.flights ∧ (modVoice v f s).nextFlight = s.nextFlight ∧ (modVoice v f s).hub = s.hub ∧ (modVoice v f s).riders = s.riders ∧ (modVoice v f s).lines = s.lines ∧ (modVoice v f s).fasts = s.fasts ∧ (modVoice v f s).groups = s.groups ∧ (modVoice v f s).queues = s.queues ∧ (modVoice v f s).qdir = s.qdir ∧ (modVoice v f s).farriers = s.farriers ∧ (modVoice v f s).trims = s.trims ∧ (modVoice v f s).shotAudits = s.shotAudits ∧ (modVoice v f s).lanes = s.lanes ∧ (modVoice v f s).tether = s.tether ∧ (modVoice v f s).tc = s.tc ∧ (modVoice v f s).ethPorts = s.ethPorts ∧ (modVoice v f s).domains = s.domains ∧ (modVoice v f s).pulses = s.pulses ∧ (modVoice v f s).watches = s.watches ∧ (modVoice v f s).hks = s.hks ∧ (modVoice v f s).hkCtl = s.hkCtl ∧ (modVoice v f s).feeds = s.feeds ∧ (modVoice v f s).tally = s.tally ∧ (modVoice v f s).hbm = s.hbm ∧ (modVoice v f s).library = s.library ∧ (modVoice v f s).descs = s.descs ∧ (modVoice v f s).kernels = s.kernels ∧ (modVoice v f s).store = s.store ∧ (modVoice v f s).held = s.held ∧ (modVoice v f s).latched = s.latched ∧ (modVoice v f s).freeCtr = s.freeCtr :=
  ⟨rfl, rfl, rfl, rfl, rfl, rfl, rfl, rfl, rfl, rfl, rfl, rfl, rfl, rfl, rfl, rfl, rfl, rfl, rfl, rfl, rfl, rfl, rfl, rfl, rfl, rfl, rfl, rfl, rfl, rfl, rfl, rfl, rfl, rfl, rfl, rfl, rfl, rfl, rfl, rfl, rfl, rfl, rfl, rfl, rfl, rfl, rfl, rfl, rfl, rfl, rfl, rfl, rfl, rfl⟩

@[simp] theorem modSeq_keeps (v : VoiceId) (f : Seq → Seq) (s : State) :
    (modSeq v f s).pending = s.pending ∧ (modSeq v f s).clock = s.clock ∧ (modSeq v f s).host = s.host ∧ (modSeq v f s).funcs = s.funcs ∧ (modSeq v f s).irqs = s.irqs ∧ (modSeq v f s).power = s.power ∧ (modSeq v f s).backup = s.backup ∧ (modSeq v f s).persist = s.persist ∧ (modSeq v f s).tack = s.tack ∧ (modSeq v f s).spine = s.spine ∧ (modSeq v f s).herdImage = s.herdImage ∧ (modSeq v f s).hubImage = s.hubImage ∧ (modSeq v f s).stallImages = s.stallImages ∧ (modSeq v f s).stalls = s.stalls ∧ (modSeq v f s).gaits = s.gaits ∧ (modSeq v f s).slices = s.slices ∧ (modSeq v f s).acqs = s.acqs ∧ (modSeq v f s).voices = s.voices ∧ (modSeq v f s).chans = s.chans ∧ (modSeq v f s).units = s.units ∧ (modSeq v f s).nodes = s.nodes ∧ (modSeq v f s).cells = s.cells ∧ (modSeq v f s).books = s.books ∧ (modSeq v f s).flights = s.flights ∧ (modSeq v f s).nextFlight = s.nextFlight ∧ (modSeq v f s).hub = s.hub ∧ (modSeq v f s).riders = s.riders ∧ (modSeq v f s).lines = s.lines ∧ (modSeq v f s).fasts = s.fasts ∧ (modSeq v f s).groups = s.groups ∧ (modSeq v f s).queues = s.queues ∧ (modSeq v f s).qdir = s.qdir ∧ (modSeq v f s).farriers = s.farriers ∧ (modSeq v f s).trims = s.trims ∧ (modSeq v f s).shotAudits = s.shotAudits ∧ (modSeq v f s).lanes = s.lanes ∧ (modSeq v f s).tether = s.tether ∧ (modSeq v f s).tc = s.tc ∧ (modSeq v f s).ethPorts = s.ethPorts ∧ (modSeq v f s).domains = s.domains ∧ (modSeq v f s).pulses = s.pulses ∧ (modSeq v f s).watches = s.watches ∧ (modSeq v f s).hks = s.hks ∧ (modSeq v f s).hkCtl = s.hkCtl ∧ (modSeq v f s).feeds = s.feeds ∧ (modSeq v f s).tally = s.tally ∧ (modSeq v f s).hbm = s.hbm ∧ (modSeq v f s).library = s.library ∧ (modSeq v f s).descs = s.descs ∧ (modSeq v f s).kernels = s.kernels ∧ (modSeq v f s).store = s.store ∧ (modSeq v f s).held = s.held ∧ (modSeq v f s).latched = s.latched ∧ (modSeq v f s).freeCtr = s.freeCtr :=
  ⟨rfl, rfl, rfl, rfl, rfl, rfl, rfl, rfl, rfl, rfl, rfl, rfl, rfl, rfl, rfl, rfl, rfl, rfl, rfl, rfl, rfl, rfl, rfl, rfl, rfl, rfl, rfl, rfl, rfl, rfl, rfl, rfl, rfl, rfl, rfl, rfl, rfl, rfl, rfl, rfl, rfl, rfl, rfl, rfl, rfl, rfl, rfl, rfl, rfl, rfl, rfl, rfl, rfl, rfl⟩

@[simp] theorem modChan_keeps (c : ChanId) (f : Channel → Channel) (s : State) :
    (modChan c f s).pending = s.pending ∧ (modChan c f s).clock = s.clock ∧ (modChan c f s).host = s.host ∧ (modChan c f s).funcs = s.funcs ∧ (modChan c f s).irqs = s.irqs ∧ (modChan c f s).power = s.power ∧ (modChan c f s).backup = s.backup ∧ (modChan c f s).persist = s.persist ∧ (modChan c f s).tack = s.tack ∧ (modChan c f s).spine = s.spine ∧ (modChan c f s).herdImage = s.herdImage ∧ (modChan c f s).hubImage = s.hubImage ∧ (modChan c f s).stallImages = s.stallImages ∧ (modChan c f s).stalls = s.stalls ∧ (modChan c f s).gaits = s.gaits ∧ (modChan c f s).slices = s.slices ∧ (modChan c f s).acqs = s.acqs ∧ (modChan c f s).voices = s.voices ∧ (modChan c f s).seqs = s.seqs ∧ (modChan c f s).units = s.units ∧ (modChan c f s).nodes = s.nodes ∧ (modChan c f s).cells = s.cells ∧ (modChan c f s).books = s.books ∧ (modChan c f s).flights = s.flights ∧ (modChan c f s).nextFlight = s.nextFlight ∧ (modChan c f s).hub = s.hub ∧ (modChan c f s).riders = s.riders ∧ (modChan c f s).lines = s.lines ∧ (modChan c f s).fasts = s.fasts ∧ (modChan c f s).groups = s.groups ∧ (modChan c f s).queues = s.queues ∧ (modChan c f s).qdir = s.qdir ∧ (modChan c f s).farriers = s.farriers ∧ (modChan c f s).trims = s.trims ∧ (modChan c f s).shotAudits = s.shotAudits ∧ (modChan c f s).lanes = s.lanes ∧ (modChan c f s).tether = s.tether ∧ (modChan c f s).tc = s.tc ∧ (modChan c f s).ethPorts = s.ethPorts ∧ (modChan c f s).domains = s.domains ∧ (modChan c f s).pulses = s.pulses ∧ (modChan c f s).watches = s.watches ∧ (modChan c f s).hks = s.hks ∧ (modChan c f s).hkCtl = s.hkCtl ∧ (modChan c f s).feeds = s.feeds ∧ (modChan c f s).tally = s.tally ∧ (modChan c f s).hbm = s.hbm ∧ (modChan c f s).library = s.library ∧ (modChan c f s).descs = s.descs ∧ (modChan c f s).kernels = s.kernels ∧ (modChan c f s).store = s.store ∧ (modChan c f s).held = s.held ∧ (modChan c f s).latched = s.latched ∧ (modChan c f s).freeCtr = s.freeCtr :=
  ⟨rfl, rfl, rfl, rfl, rfl, rfl, rfl, rfl, rfl, rfl, rfl, rfl, rfl, rfl, rfl, rfl, rfl, rfl, rfl, rfl, rfl, rfl, rfl, rfl, rfl, rfl, rfl, rfl, rfl, rfl, rfl, rfl, rfl, rfl, rfl, rfl, rfl, rfl, rfl, rfl, rfl, rfl, rfl, rfl, rfl, rfl, rfl, rfl, rfl, rfl, rfl, rfl, rfl, rfl⟩

@[simp] theorem modUnit_keeps (u : UnitId) (f : CapUnit → CapUnit) (s : State) :
    (modUnit u f s).pending = s.pending ∧ (modUnit u f s).clock = s.clock ∧ (modUnit u f s).host = s.host ∧ (modUnit u f s).funcs = s.funcs ∧ (modUnit u f s).irqs = s.irqs ∧ (modUnit u f s).power = s.power ∧ (modUnit u f s).backup = s.backup ∧ (modUnit u f s).persist = s.persist ∧ (modUnit u f s).tack = s.tack ∧ (modUnit u f s).spine = s.spine ∧ (modUnit u f s).herdImage = s.herdImage ∧ (modUnit u f s).hubImage = s.hubImage ∧ (modUnit u f s).stallImages = s.stallImages ∧ (modUnit u f s).stalls = s.stalls ∧ (modUnit u f s).gaits = s.gaits ∧ (modUnit u f s).slices = s.slices ∧ (modUnit u f s).acqs = s.acqs ∧ (modUnit u f s).voices = s.voices ∧ (modUnit u f s).seqs = s.seqs ∧ (modUnit u f s).chans = s.chans ∧ (modUnit u f s).nodes = s.nodes ∧ (modUnit u f s).cells = s.cells ∧ (modUnit u f s).books = s.books ∧ (modUnit u f s).flights = s.flights ∧ (modUnit u f s).nextFlight = s.nextFlight ∧ (modUnit u f s).hub = s.hub ∧ (modUnit u f s).riders = s.riders ∧ (modUnit u f s).lines = s.lines ∧ (modUnit u f s).fasts = s.fasts ∧ (modUnit u f s).groups = s.groups ∧ (modUnit u f s).queues = s.queues ∧ (modUnit u f s).qdir = s.qdir ∧ (modUnit u f s).farriers = s.farriers ∧ (modUnit u f s).trims = s.trims ∧ (modUnit u f s).shotAudits = s.shotAudits ∧ (modUnit u f s).lanes = s.lanes ∧ (modUnit u f s).tether = s.tether ∧ (modUnit u f s).tc = s.tc ∧ (modUnit u f s).ethPorts = s.ethPorts ∧ (modUnit u f s).domains = s.domains ∧ (modUnit u f s).pulses = s.pulses ∧ (modUnit u f s).watches = s.watches ∧ (modUnit u f s).hks = s.hks ∧ (modUnit u f s).hkCtl = s.hkCtl ∧ (modUnit u f s).feeds = s.feeds ∧ (modUnit u f s).tally = s.tally ∧ (modUnit u f s).hbm = s.hbm ∧ (modUnit u f s).library = s.library ∧ (modUnit u f s).descs = s.descs ∧ (modUnit u f s).kernels = s.kernels ∧ (modUnit u f s).store = s.store ∧ (modUnit u f s).held = s.held ∧ (modUnit u f s).latched = s.latched ∧ (modUnit u f s).freeCtr = s.freeCtr :=
  ⟨rfl, rfl, rfl, rfl, rfl, rfl, rfl, rfl, rfl, rfl, rfl, rfl, rfl, rfl, rfl, rfl, rfl, rfl, rfl, rfl, rfl, rfl, rfl, rfl, rfl, rfl, rfl, rfl, rfl, rfl, rfl, rfl, rfl, rfl, rfl, rfl, rfl, rfl, rfl, rfl, rfl, rfl, rfl, rfl, rfl, rfl, rfl, rfl, rfl, rfl, rfl, rfl, rfl, rfl⟩

@[simp] theorem modNode_keeps (n : StallId) (f : Node → Node) (s : State) :
    (modNode n f s).pending = s.pending ∧ (modNode n f s).clock = s.clock ∧ (modNode n f s).host = s.host ∧ (modNode n f s).funcs = s.funcs ∧ (modNode n f s).irqs = s.irqs ∧ (modNode n f s).power = s.power ∧ (modNode n f s).backup = s.backup ∧ (modNode n f s).persist = s.persist ∧ (modNode n f s).tack = s.tack ∧ (modNode n f s).spine = s.spine ∧ (modNode n f s).herdImage = s.herdImage ∧ (modNode n f s).hubImage = s.hubImage ∧ (modNode n f s).stallImages = s.stallImages ∧ (modNode n f s).stalls = s.stalls ∧ (modNode n f s).gaits = s.gaits ∧ (modNode n f s).slices = s.slices ∧ (modNode n f s).acqs = s.acqs ∧ (modNode n f s).voices = s.voices ∧ (modNode n f s).seqs = s.seqs ∧ (modNode n f s).chans = s.chans ∧ (modNode n f s).units = s.units ∧ (modNode n f s).cells = s.cells ∧ (modNode n f s).books = s.books ∧ (modNode n f s).flights = s.flights ∧ (modNode n f s).nextFlight = s.nextFlight ∧ (modNode n f s).hub = s.hub ∧ (modNode n f s).riders = s.riders ∧ (modNode n f s).lines = s.lines ∧ (modNode n f s).fasts = s.fasts ∧ (modNode n f s).groups = s.groups ∧ (modNode n f s).queues = s.queues ∧ (modNode n f s).qdir = s.qdir ∧ (modNode n f s).farriers = s.farriers ∧ (modNode n f s).trims = s.trims ∧ (modNode n f s).shotAudits = s.shotAudits ∧ (modNode n f s).lanes = s.lanes ∧ (modNode n f s).tether = s.tether ∧ (modNode n f s).tc = s.tc ∧ (modNode n f s).ethPorts = s.ethPorts ∧ (modNode n f s).domains = s.domains ∧ (modNode n f s).pulses = s.pulses ∧ (modNode n f s).watches = s.watches ∧ (modNode n f s).hks = s.hks ∧ (modNode n f s).hkCtl = s.hkCtl ∧ (modNode n f s).feeds = s.feeds ∧ (modNode n f s).tally = s.tally ∧ (modNode n f s).hbm = s.hbm ∧ (modNode n f s).library = s.library ∧ (modNode n f s).descs = s.descs ∧ (modNode n f s).kernels = s.kernels ∧ (modNode n f s).store = s.store ∧ (modNode n f s).held = s.held ∧ (modNode n f s).latched = s.latched ∧ (modNode n f s).freeCtr = s.freeCtr :=
  ⟨rfl, rfl, rfl, rfl, rfl, rfl, rfl, rfl, rfl, rfl, rfl, rfl, rfl, rfl, rfl, rfl, rfl, rfl, rfl, rfl, rfl, rfl, rfl, rfl, rfl, rfl, rfl, rfl, rfl, rfl, rfl, rfl, rfl, rfl, rfl, rfl, rfl, rfl, rfl, rfl, rfl, rfl, rfl, rfl, rfl, rfl, rfl, rfl, rfl, rfl, rfl, rfl, rfl, rfl⟩

@[simp] theorem modCell_keeps (c : CellId) (f : Cell → Cell) (s : State) :
    (modCell c f s).pending = s.pending ∧ (modCell c f s).clock = s.clock ∧ (modCell c f s).host = s.host ∧ (modCell c f s).funcs = s.funcs ∧ (modCell c f s).irqs = s.irqs ∧ (modCell c f s).power = s.power ∧ (modCell c f s).backup = s.backup ∧ (modCell c f s).persist = s.persist ∧ (modCell c f s).tack = s.tack ∧ (modCell c f s).spine = s.spine ∧ (modCell c f s).herdImage = s.herdImage ∧ (modCell c f s).hubImage = s.hubImage ∧ (modCell c f s).stallImages = s.stallImages ∧ (modCell c f s).stalls = s.stalls ∧ (modCell c f s).gaits = s.gaits ∧ (modCell c f s).slices = s.slices ∧ (modCell c f s).acqs = s.acqs ∧ (modCell c f s).voices = s.voices ∧ (modCell c f s).seqs = s.seqs ∧ (modCell c f s).chans = s.chans ∧ (modCell c f s).units = s.units ∧ (modCell c f s).nodes = s.nodes ∧ (modCell c f s).books = s.books ∧ (modCell c f s).flights = s.flights ∧ (modCell c f s).nextFlight = s.nextFlight ∧ (modCell c f s).hub = s.hub ∧ (modCell c f s).riders = s.riders ∧ (modCell c f s).lines = s.lines ∧ (modCell c f s).fasts = s.fasts ∧ (modCell c f s).groups = s.groups ∧ (modCell c f s).queues = s.queues ∧ (modCell c f s).qdir = s.qdir ∧ (modCell c f s).farriers = s.farriers ∧ (modCell c f s).trims = s.trims ∧ (modCell c f s).shotAudits = s.shotAudits ∧ (modCell c f s).lanes = s.lanes ∧ (modCell c f s).tether = s.tether ∧ (modCell c f s).tc = s.tc ∧ (modCell c f s).ethPorts = s.ethPorts ∧ (modCell c f s).domains = s.domains ∧ (modCell c f s).pulses = s.pulses ∧ (modCell c f s).watches = s.watches ∧ (modCell c f s).hks = s.hks ∧ (modCell c f s).hkCtl = s.hkCtl ∧ (modCell c f s).feeds = s.feeds ∧ (modCell c f s).tally = s.tally ∧ (modCell c f s).hbm = s.hbm ∧ (modCell c f s).library = s.library ∧ (modCell c f s).descs = s.descs ∧ (modCell c f s).kernels = s.kernels ∧ (modCell c f s).store = s.store ∧ (modCell c f s).held = s.held ∧ (modCell c f s).latched = s.latched ∧ (modCell c f s).freeCtr = s.freeCtr :=
  ⟨rfl, rfl, rfl, rfl, rfl, rfl, rfl, rfl, rfl, rfl, rfl, rfl, rfl, rfl, rfl, rfl, rfl, rfl, rfl, rfl, rfl, rfl, rfl, rfl, rfl, rfl, rfl, rfl, rfl, rfl, rfl, rfl, rfl, rfl, rfl, rfl, rfl, rfl, rfl, rfl, rfl, rfl, rfl, rfl, rfl, rfl, rfl, rfl, rfl, rfl, rfl, rfl, rfl, rfl⟩

@[simp] theorem modBook_keeps (e : ReinChan) (f : Book → Book) (s : State) :
    (modBook e f s).pending = s.pending ∧ (modBook e f s).clock = s.clock ∧ (modBook e f s).host = s.host ∧ (modBook e f s).funcs = s.funcs ∧ (modBook e f s).irqs = s.irqs ∧ (modBook e f s).power = s.power ∧ (modBook e f s).backup = s.backup ∧ (modBook e f s).persist = s.persist ∧ (modBook e f s).tack = s.tack ∧ (modBook e f s).spine = s.spine ∧ (modBook e f s).herdImage = s.herdImage ∧ (modBook e f s).hubImage = s.hubImage ∧ (modBook e f s).stallImages = s.stallImages ∧ (modBook e f s).stalls = s.stalls ∧ (modBook e f s).gaits = s.gaits ∧ (modBook e f s).slices = s.slices ∧ (modBook e f s).acqs = s.acqs ∧ (modBook e f s).voices = s.voices ∧ (modBook e f s).seqs = s.seqs ∧ (modBook e f s).chans = s.chans ∧ (modBook e f s).units = s.units ∧ (modBook e f s).nodes = s.nodes ∧ (modBook e f s).cells = s.cells ∧ (modBook e f s).flights = s.flights ∧ (modBook e f s).nextFlight = s.nextFlight ∧ (modBook e f s).hub = s.hub ∧ (modBook e f s).riders = s.riders ∧ (modBook e f s).lines = s.lines ∧ (modBook e f s).fasts = s.fasts ∧ (modBook e f s).groups = s.groups ∧ (modBook e f s).queues = s.queues ∧ (modBook e f s).qdir = s.qdir ∧ (modBook e f s).farriers = s.farriers ∧ (modBook e f s).trims = s.trims ∧ (modBook e f s).shotAudits = s.shotAudits ∧ (modBook e f s).lanes = s.lanes ∧ (modBook e f s).tether = s.tether ∧ (modBook e f s).tc = s.tc ∧ (modBook e f s).ethPorts = s.ethPorts ∧ (modBook e f s).domains = s.domains ∧ (modBook e f s).pulses = s.pulses ∧ (modBook e f s).watches = s.watches ∧ (modBook e f s).hks = s.hks ∧ (modBook e f s).hkCtl = s.hkCtl ∧ (modBook e f s).feeds = s.feeds ∧ (modBook e f s).tally = s.tally ∧ (modBook e f s).hbm = s.hbm ∧ (modBook e f s).library = s.library ∧ (modBook e f s).descs = s.descs ∧ (modBook e f s).kernels = s.kernels ∧ (modBook e f s).store = s.store ∧ (modBook e f s).held = s.held ∧ (modBook e f s).latched = s.latched ∧ (modBook e f s).freeCtr = s.freeCtr :=
  ⟨rfl, rfl, rfl, rfl, rfl, rfl, rfl, rfl, rfl, rfl, rfl, rfl, rfl, rfl, rfl, rfl, rfl, rfl, rfl, rfl, rfl, rfl, rfl, rfl, rfl, rfl, rfl, rfl, rfl, rfl, rfl, rfl, rfl, rfl, rfl, rfl, rfl, rfl, rfl, rfl, rfl, rfl, rfl, rfl, rfl, rfl, rfl, rfl, rfl, rfl, rfl, rfl, rfl, rfl⟩

@[simp] theorem modRider_keeps (r : RiderId) (f : Rider → Rider) (s : State) :
    (modRider r f s).pending = s.pending ∧ (modRider r f s).clock = s.clock ∧ (modRider r f s).host = s.host ∧ (modRider r f s).funcs = s.funcs ∧ (modRider r f s).irqs = s.irqs ∧ (modRider r f s).power = s.power ∧ (modRider r f s).backup = s.backup ∧ (modRider r f s).persist = s.persist ∧ (modRider r f s).tack = s.tack ∧ (modRider r f s).spine = s.spine ∧ (modRider r f s).herdImage = s.herdImage ∧ (modRider r f s).hubImage = s.hubImage ∧ (modRider r f s).stallImages = s.stallImages ∧ (modRider r f s).stalls = s.stalls ∧ (modRider r f s).gaits = s.gaits ∧ (modRider r f s).slices = s.slices ∧ (modRider r f s).acqs = s.acqs ∧ (modRider r f s).voices = s.voices ∧ (modRider r f s).seqs = s.seqs ∧ (modRider r f s).chans = s.chans ∧ (modRider r f s).units = s.units ∧ (modRider r f s).nodes = s.nodes ∧ (modRider r f s).cells = s.cells ∧ (modRider r f s).books = s.books ∧ (modRider r f s).flights = s.flights ∧ (modRider r f s).nextFlight = s.nextFlight ∧ (modRider r f s).hub = s.hub ∧ (modRider r f s).lines = s.lines ∧ (modRider r f s).fasts = s.fasts ∧ (modRider r f s).groups = s.groups ∧ (modRider r f s).queues = s.queues ∧ (modRider r f s).qdir = s.qdir ∧ (modRider r f s).farriers = s.farriers ∧ (modRider r f s).trims = s.trims ∧ (modRider r f s).shotAudits = s.shotAudits ∧ (modRider r f s).lanes = s.lanes ∧ (modRider r f s).tether = s.tether ∧ (modRider r f s).tc = s.tc ∧ (modRider r f s).ethPorts = s.ethPorts ∧ (modRider r f s).domains = s.domains ∧ (modRider r f s).pulses = s.pulses ∧ (modRider r f s).watches = s.watches ∧ (modRider r f s).hks = s.hks ∧ (modRider r f s).hkCtl = s.hkCtl ∧ (modRider r f s).feeds = s.feeds ∧ (modRider r f s).tally = s.tally ∧ (modRider r f s).hbm = s.hbm ∧ (modRider r f s).library = s.library ∧ (modRider r f s).descs = s.descs ∧ (modRider r f s).kernels = s.kernels ∧ (modRider r f s).store = s.store ∧ (modRider r f s).held = s.held ∧ (modRider r f s).latched = s.latched ∧ (modRider r f s).freeCtr = s.freeCtr :=
  ⟨rfl, rfl, rfl, rfl, rfl, rfl, rfl, rfl, rfl, rfl, rfl, rfl, rfl, rfl, rfl, rfl, rfl, rfl, rfl, rfl, rfl, rfl, rfl, rfl, rfl, rfl, rfl, rfl, rfl, rfl, rfl, rfl, rfl, rfl, rfl, rfl, rfl, rfl, rfl, rfl, rfl, rfl, rfl, rfl, rfl, rfl, rfl, rfl, rfl, rfl, rfl, rfl, rfl, rfl⟩

@[simp] theorem modLine_keeps (l : LineId) (f : Line → Line) (s : State) :
    (modLine l f s).pending = s.pending ∧ (modLine l f s).clock = s.clock ∧ (modLine l f s).host = s.host ∧ (modLine l f s).funcs = s.funcs ∧ (modLine l f s).irqs = s.irqs ∧ (modLine l f s).power = s.power ∧ (modLine l f s).backup = s.backup ∧ (modLine l f s).persist = s.persist ∧ (modLine l f s).tack = s.tack ∧ (modLine l f s).spine = s.spine ∧ (modLine l f s).herdImage = s.herdImage ∧ (modLine l f s).hubImage = s.hubImage ∧ (modLine l f s).stallImages = s.stallImages ∧ (modLine l f s).stalls = s.stalls ∧ (modLine l f s).gaits = s.gaits ∧ (modLine l f s).slices = s.slices ∧ (modLine l f s).acqs = s.acqs ∧ (modLine l f s).voices = s.voices ∧ (modLine l f s).seqs = s.seqs ∧ (modLine l f s).chans = s.chans ∧ (modLine l f s).units = s.units ∧ (modLine l f s).nodes = s.nodes ∧ (modLine l f s).cells = s.cells ∧ (modLine l f s).books = s.books ∧ (modLine l f s).flights = s.flights ∧ (modLine l f s).nextFlight = s.nextFlight ∧ (modLine l f s).hub = s.hub ∧ (modLine l f s).riders = s.riders ∧ (modLine l f s).fasts = s.fasts ∧ (modLine l f s).groups = s.groups ∧ (modLine l f s).queues = s.queues ∧ (modLine l f s).qdir = s.qdir ∧ (modLine l f s).farriers = s.farriers ∧ (modLine l f s).trims = s.trims ∧ (modLine l f s).shotAudits = s.shotAudits ∧ (modLine l f s).lanes = s.lanes ∧ (modLine l f s).tether = s.tether ∧ (modLine l f s).tc = s.tc ∧ (modLine l f s).ethPorts = s.ethPorts ∧ (modLine l f s).domains = s.domains ∧ (modLine l f s).pulses = s.pulses ∧ (modLine l f s).watches = s.watches ∧ (modLine l f s).hks = s.hks ∧ (modLine l f s).hkCtl = s.hkCtl ∧ (modLine l f s).feeds = s.feeds ∧ (modLine l f s).tally = s.tally ∧ (modLine l f s).hbm = s.hbm ∧ (modLine l f s).library = s.library ∧ (modLine l f s).descs = s.descs ∧ (modLine l f s).kernels = s.kernels ∧ (modLine l f s).store = s.store ∧ (modLine l f s).held = s.held ∧ (modLine l f s).latched = s.latched ∧ (modLine l f s).freeCtr = s.freeCtr :=
  ⟨rfl, rfl, rfl, rfl, rfl, rfl, rfl, rfl, rfl, rfl, rfl, rfl, rfl, rfl, rfl, rfl, rfl, rfl, rfl, rfl, rfl, rfl, rfl, rfl, rfl, rfl, rfl, rfl, rfl, rfl, rfl, rfl, rfl, rfl, rfl, rfl, rfl, rfl, rfl, rfl, rfl, rfl, rfl, rfl, rfl, rfl, rfl, rfl, rfl, rfl, rfl, rfl, rfl, rfl⟩

@[simp] theorem modFast_keeps (l : LineId) (f : Fast → Fast) (s : State) :
    (modFast l f s).pending = s.pending ∧ (modFast l f s).clock = s.clock ∧ (modFast l f s).host = s.host ∧ (modFast l f s).funcs = s.funcs ∧ (modFast l f s).irqs = s.irqs ∧ (modFast l f s).power = s.power ∧ (modFast l f s).backup = s.backup ∧ (modFast l f s).persist = s.persist ∧ (modFast l f s).tack = s.tack ∧ (modFast l f s).spine = s.spine ∧ (modFast l f s).herdImage = s.herdImage ∧ (modFast l f s).hubImage = s.hubImage ∧ (modFast l f s).stallImages = s.stallImages ∧ (modFast l f s).stalls = s.stalls ∧ (modFast l f s).gaits = s.gaits ∧ (modFast l f s).slices = s.slices ∧ (modFast l f s).acqs = s.acqs ∧ (modFast l f s).voices = s.voices ∧ (modFast l f s).seqs = s.seqs ∧ (modFast l f s).chans = s.chans ∧ (modFast l f s).units = s.units ∧ (modFast l f s).nodes = s.nodes ∧ (modFast l f s).cells = s.cells ∧ (modFast l f s).books = s.books ∧ (modFast l f s).flights = s.flights ∧ (modFast l f s).nextFlight = s.nextFlight ∧ (modFast l f s).hub = s.hub ∧ (modFast l f s).riders = s.riders ∧ (modFast l f s).lines = s.lines ∧ (modFast l f s).groups = s.groups ∧ (modFast l f s).queues = s.queues ∧ (modFast l f s).qdir = s.qdir ∧ (modFast l f s).farriers = s.farriers ∧ (modFast l f s).trims = s.trims ∧ (modFast l f s).shotAudits = s.shotAudits ∧ (modFast l f s).lanes = s.lanes ∧ (modFast l f s).tether = s.tether ∧ (modFast l f s).tc = s.tc ∧ (modFast l f s).ethPorts = s.ethPorts ∧ (modFast l f s).domains = s.domains ∧ (modFast l f s).pulses = s.pulses ∧ (modFast l f s).watches = s.watches ∧ (modFast l f s).hks = s.hks ∧ (modFast l f s).hkCtl = s.hkCtl ∧ (modFast l f s).feeds = s.feeds ∧ (modFast l f s).tally = s.tally ∧ (modFast l f s).hbm = s.hbm ∧ (modFast l f s).library = s.library ∧ (modFast l f s).descs = s.descs ∧ (modFast l f s).kernels = s.kernels ∧ (modFast l f s).store = s.store ∧ (modFast l f s).held = s.held ∧ (modFast l f s).latched = s.latched ∧ (modFast l f s).freeCtr = s.freeCtr :=
  ⟨rfl, rfl, rfl, rfl, rfl, rfl, rfl, rfl, rfl, rfl, rfl, rfl, rfl, rfl, rfl, rfl, rfl, rfl, rfl, rfl, rfl, rfl, rfl, rfl, rfl, rfl, rfl, rfl, rfl, rfl, rfl, rfl, rfl, rfl, rfl, rfl, rfl, rfl, rfl, rfl, rfl, rfl, rfl, rfl, rfl, rfl, rfl, rfl, rfl, rfl, rfl, rfl, rfl, rfl⟩

@[simp] theorem modGroup_keeps (g : GroupId) (f : Group → Group) (s : State) :
    (modGroup g f s).pending = s.pending ∧ (modGroup g f s).clock = s.clock ∧ (modGroup g f s).host = s.host ∧ (modGroup g f s).funcs = s.funcs ∧ (modGroup g f s).irqs = s.irqs ∧ (modGroup g f s).power = s.power ∧ (modGroup g f s).backup = s.backup ∧ (modGroup g f s).persist = s.persist ∧ (modGroup g f s).tack = s.tack ∧ (modGroup g f s).spine = s.spine ∧ (modGroup g f s).herdImage = s.herdImage ∧ (modGroup g f s).hubImage = s.hubImage ∧ (modGroup g f s).stallImages = s.stallImages ∧ (modGroup g f s).stalls = s.stalls ∧ (modGroup g f s).gaits = s.gaits ∧ (modGroup g f s).slices = s.slices ∧ (modGroup g f s).acqs = s.acqs ∧ (modGroup g f s).voices = s.voices ∧ (modGroup g f s).seqs = s.seqs ∧ (modGroup g f s).chans = s.chans ∧ (modGroup g f s).units = s.units ∧ (modGroup g f s).nodes = s.nodes ∧ (modGroup g f s).cells = s.cells ∧ (modGroup g f s).books = s.books ∧ (modGroup g f s).flights = s.flights ∧ (modGroup g f s).nextFlight = s.nextFlight ∧ (modGroup g f s).hub = s.hub ∧ (modGroup g f s).riders = s.riders ∧ (modGroup g f s).lines = s.lines ∧ (modGroup g f s).fasts = s.fasts ∧ (modGroup g f s).queues = s.queues ∧ (modGroup g f s).qdir = s.qdir ∧ (modGroup g f s).farriers = s.farriers ∧ (modGroup g f s).trims = s.trims ∧ (modGroup g f s).shotAudits = s.shotAudits ∧ (modGroup g f s).lanes = s.lanes ∧ (modGroup g f s).tether = s.tether ∧ (modGroup g f s).tc = s.tc ∧ (modGroup g f s).ethPorts = s.ethPorts ∧ (modGroup g f s).domains = s.domains ∧ (modGroup g f s).pulses = s.pulses ∧ (modGroup g f s).watches = s.watches ∧ (modGroup g f s).hks = s.hks ∧ (modGroup g f s).hkCtl = s.hkCtl ∧ (modGroup g f s).feeds = s.feeds ∧ (modGroup g f s).tally = s.tally ∧ (modGroup g f s).hbm = s.hbm ∧ (modGroup g f s).library = s.library ∧ (modGroup g f s).descs = s.descs ∧ (modGroup g f s).kernels = s.kernels ∧ (modGroup g f s).store = s.store ∧ (modGroup g f s).held = s.held ∧ (modGroup g f s).latched = s.latched ∧ (modGroup g f s).freeCtr = s.freeCtr :=
  ⟨rfl, rfl, rfl, rfl, rfl, rfl, rfl, rfl, rfl, rfl, rfl, rfl, rfl, rfl, rfl, rfl, rfl, rfl, rfl, rfl, rfl, rfl, rfl, rfl, rfl, rfl, rfl, rfl, rfl, rfl, rfl, rfl, rfl, rfl, rfl, rfl, rfl, rfl, rfl, rfl, rfl, rfl, rfl, rfl, rfl, rfl, rfl, rfl, rfl, rfl, rfl, rfl, rfl, rfl⟩

@[simp] theorem modQueue_keeps (q : QueueId) (f : Queue → Queue) (s : State) :
    (modQueue q f s).pending = s.pending ∧ (modQueue q f s).clock = s.clock ∧ (modQueue q f s).host = s.host ∧ (modQueue q f s).funcs = s.funcs ∧ (modQueue q f s).irqs = s.irqs ∧ (modQueue q f s).power = s.power ∧ (modQueue q f s).backup = s.backup ∧ (modQueue q f s).persist = s.persist ∧ (modQueue q f s).tack = s.tack ∧ (modQueue q f s).spine = s.spine ∧ (modQueue q f s).herdImage = s.herdImage ∧ (modQueue q f s).hubImage = s.hubImage ∧ (modQueue q f s).stallImages = s.stallImages ∧ (modQueue q f s).stalls = s.stalls ∧ (modQueue q f s).gaits = s.gaits ∧ (modQueue q f s).slices = s.slices ∧ (modQueue q f s).acqs = s.acqs ∧ (modQueue q f s).voices = s.voices ∧ (modQueue q f s).seqs = s.seqs ∧ (modQueue q f s).chans = s.chans ∧ (modQueue q f s).units = s.units ∧ (modQueue q f s).nodes = s.nodes ∧ (modQueue q f s).cells = s.cells ∧ (modQueue q f s).books = s.books ∧ (modQueue q f s).flights = s.flights ∧ (modQueue q f s).nextFlight = s.nextFlight ∧ (modQueue q f s).hub = s.hub ∧ (modQueue q f s).riders = s.riders ∧ (modQueue q f s).lines = s.lines ∧ (modQueue q f s).fasts = s.fasts ∧ (modQueue q f s).groups = s.groups ∧ (modQueue q f s).qdir = s.qdir ∧ (modQueue q f s).farriers = s.farriers ∧ (modQueue q f s).trims = s.trims ∧ (modQueue q f s).shotAudits = s.shotAudits ∧ (modQueue q f s).lanes = s.lanes ∧ (modQueue q f s).tether = s.tether ∧ (modQueue q f s).tc = s.tc ∧ (modQueue q f s).ethPorts = s.ethPorts ∧ (modQueue q f s).domains = s.domains ∧ (modQueue q f s).pulses = s.pulses ∧ (modQueue q f s).watches = s.watches ∧ (modQueue q f s).hks = s.hks ∧ (modQueue q f s).hkCtl = s.hkCtl ∧ (modQueue q f s).feeds = s.feeds ∧ (modQueue q f s).tally = s.tally ∧ (modQueue q f s).hbm = s.hbm ∧ (modQueue q f s).library = s.library ∧ (modQueue q f s).descs = s.descs ∧ (modQueue q f s).kernels = s.kernels ∧ (modQueue q f s).store = s.store ∧ (modQueue q f s).held = s.held ∧ (modQueue q f s).latched = s.latched ∧ (modQueue q f s).freeCtr = s.freeCtr :=
  ⟨rfl, rfl, rfl, rfl, rfl, rfl, rfl, rfl, rfl, rfl, rfl, rfl, rfl, rfl, rfl, rfl, rfl, rfl, rfl, rfl, rfl, rfl, rfl, rfl, rfl, rfl, rfl, rfl, rfl, rfl, rfl, rfl, rfl, rfl, rfl, rfl, rfl, rfl, rfl, rfl, rfl, rfl, rfl, rfl, rfl, rfl, rfl, rfl, rfl, rfl, rfl, rfl, rfl, rfl⟩

@[simp] theorem modFarrier_keeps (n : StallId) (f : Farrier → Farrier) (s : State) :
    (modFarrier n f s).pending = s.pending ∧ (modFarrier n f s).clock = s.clock ∧ (modFarrier n f s).host = s.host ∧ (modFarrier n f s).funcs = s.funcs ∧ (modFarrier n f s).irqs = s.irqs ∧ (modFarrier n f s).power = s.power ∧ (modFarrier n f s).backup = s.backup ∧ (modFarrier n f s).persist = s.persist ∧ (modFarrier n f s).tack = s.tack ∧ (modFarrier n f s).spine = s.spine ∧ (modFarrier n f s).herdImage = s.herdImage ∧ (modFarrier n f s).hubImage = s.hubImage ∧ (modFarrier n f s).stallImages = s.stallImages ∧ (modFarrier n f s).stalls = s.stalls ∧ (modFarrier n f s).gaits = s.gaits ∧ (modFarrier n f s).slices = s.slices ∧ (modFarrier n f s).acqs = s.acqs ∧ (modFarrier n f s).voices = s.voices ∧ (modFarrier n f s).seqs = s.seqs ∧ (modFarrier n f s).chans = s.chans ∧ (modFarrier n f s).units = s.units ∧ (modFarrier n f s).nodes = s.nodes ∧ (modFarrier n f s).cells = s.cells ∧ (modFarrier n f s).books = s.books ∧ (modFarrier n f s).flights = s.flights ∧ (modFarrier n f s).nextFlight = s.nextFlight ∧ (modFarrier n f s).hub = s.hub ∧ (modFarrier n f s).riders = s.riders ∧ (modFarrier n f s).lines = s.lines ∧ (modFarrier n f s).fasts = s.fasts ∧ (modFarrier n f s).groups = s.groups ∧ (modFarrier n f s).queues = s.queues ∧ (modFarrier n f s).qdir = s.qdir ∧ (modFarrier n f s).trims = s.trims ∧ (modFarrier n f s).shotAudits = s.shotAudits ∧ (modFarrier n f s).lanes = s.lanes ∧ (modFarrier n f s).tether = s.tether ∧ (modFarrier n f s).tc = s.tc ∧ (modFarrier n f s).ethPorts = s.ethPorts ∧ (modFarrier n f s).domains = s.domains ∧ (modFarrier n f s).pulses = s.pulses ∧ (modFarrier n f s).watches = s.watches ∧ (modFarrier n f s).hks = s.hks ∧ (modFarrier n f s).hkCtl = s.hkCtl ∧ (modFarrier n f s).feeds = s.feeds ∧ (modFarrier n f s).tally = s.tally ∧ (modFarrier n f s).hbm = s.hbm ∧ (modFarrier n f s).library = s.library ∧ (modFarrier n f s).descs = s.descs ∧ (modFarrier n f s).kernels = s.kernels ∧ (modFarrier n f s).store = s.store ∧ (modFarrier n f s).held = s.held ∧ (modFarrier n f s).latched = s.latched ∧ (modFarrier n f s).freeCtr = s.freeCtr :=
  ⟨rfl, rfl, rfl, rfl, rfl, rfl, rfl, rfl, rfl, rfl, rfl, rfl, rfl, rfl, rfl, rfl, rfl, rfl, rfl, rfl, rfl, rfl, rfl, rfl, rfl, rfl, rfl, rfl, rfl, rfl, rfl, rfl, rfl, rfl, rfl, rfl, rfl, rfl, rfl, rfl, rfl, rfl, rfl, rfl, rfl, rfl, rfl, rfl, rfl, rfl, rfl, rfl, rfl, rfl⟩

@[simp] theorem modTrims_keeps (n : StallId) (f : Trims → Trims) (s : State) :
    (modTrims n f s).pending = s.pending ∧ (modTrims n f s).clock = s.clock ∧ (modTrims n f s).host = s.host ∧ (modTrims n f s).funcs = s.funcs ∧ (modTrims n f s).irqs = s.irqs ∧ (modTrims n f s).power = s.power ∧ (modTrims n f s).backup = s.backup ∧ (modTrims n f s).persist = s.persist ∧ (modTrims n f s).tack = s.tack ∧ (modTrims n f s).spine = s.spine ∧ (modTrims n f s).herdImage = s.herdImage ∧ (modTrims n f s).hubImage = s.hubImage ∧ (modTrims n f s).stallImages = s.stallImages ∧ (modTrims n f s).stalls = s.stalls ∧ (modTrims n f s).gaits = s.gaits ∧ (modTrims n f s).slices = s.slices ∧ (modTrims n f s).acqs = s.acqs ∧ (modTrims n f s).voices = s.voices ∧ (modTrims n f s).seqs = s.seqs ∧ (modTrims n f s).chans = s.chans ∧ (modTrims n f s).units = s.units ∧ (modTrims n f s).nodes = s.nodes ∧ (modTrims n f s).cells = s.cells ∧ (modTrims n f s).books = s.books ∧ (modTrims n f s).flights = s.flights ∧ (modTrims n f s).nextFlight = s.nextFlight ∧ (modTrims n f s).hub = s.hub ∧ (modTrims n f s).riders = s.riders ∧ (modTrims n f s).lines = s.lines ∧ (modTrims n f s).fasts = s.fasts ∧ (modTrims n f s).groups = s.groups ∧ (modTrims n f s).queues = s.queues ∧ (modTrims n f s).qdir = s.qdir ∧ (modTrims n f s).farriers = s.farriers ∧ (modTrims n f s).shotAudits = s.shotAudits ∧ (modTrims n f s).lanes = s.lanes ∧ (modTrims n f s).tether = s.tether ∧ (modTrims n f s).tc = s.tc ∧ (modTrims n f s).ethPorts = s.ethPorts ∧ (modTrims n f s).domains = s.domains ∧ (modTrims n f s).pulses = s.pulses ∧ (modTrims n f s).watches = s.watches ∧ (modTrims n f s).hks = s.hks ∧ (modTrims n f s).hkCtl = s.hkCtl ∧ (modTrims n f s).feeds = s.feeds ∧ (modTrims n f s).tally = s.tally ∧ (modTrims n f s).hbm = s.hbm ∧ (modTrims n f s).library = s.library ∧ (modTrims n f s).descs = s.descs ∧ (modTrims n f s).kernels = s.kernels ∧ (modTrims n f s).store = s.store ∧ (modTrims n f s).held = s.held ∧ (modTrims n f s).latched = s.latched ∧ (modTrims n f s).freeCtr = s.freeCtr :=
  ⟨rfl, rfl, rfl, rfl, rfl, rfl, rfl, rfl, rfl, rfl, rfl, rfl, rfl, rfl, rfl, rfl, rfl, rfl, rfl, rfl, rfl, rfl, rfl, rfl, rfl, rfl, rfl, rfl, rfl, rfl, rfl, rfl, rfl, rfl, rfl, rfl, rfl, rfl, rfl, rfl, rfl, rfl, rfl, rfl, rfl, rfl, rfl, rfl, rfl, rfl, rfl, rfl, rfl, rfl⟩

@[simp] theorem modShotAudit_keeps (n : StallId) (f : ShotAudit → ShotAudit) (s : State) :
    (modShotAudit n f s).pending = s.pending ∧ (modShotAudit n f s).clock = s.clock ∧ (modShotAudit n f s).host = s.host ∧ (modShotAudit n f s).funcs = s.funcs ∧ (modShotAudit n f s).irqs = s.irqs ∧ (modShotAudit n f s).power = s.power ∧ (modShotAudit n f s).backup = s.backup ∧ (modShotAudit n f s).persist = s.persist ∧ (modShotAudit n f s).tack = s.tack ∧ (modShotAudit n f s).spine = s.spine ∧ (modShotAudit n f s).herdImage = s.herdImage ∧ (modShotAudit n f s).hubImage = s.hubImage ∧ (modShotAudit n f s).stallImages = s.stallImages ∧ (modShotAudit n f s).stalls = s.stalls ∧ (modShotAudit n f s).gaits = s.gaits ∧ (modShotAudit n f s).slices = s.slices ∧ (modShotAudit n f s).acqs = s.acqs ∧ (modShotAudit n f s).voices = s.voices ∧ (modShotAudit n f s).seqs = s.seqs ∧ (modShotAudit n f s).chans = s.chans ∧ (modShotAudit n f s).units = s.units ∧ (modShotAudit n f s).nodes = s.nodes ∧ (modShotAudit n f s).cells = s.cells ∧ (modShotAudit n f s).books = s.books ∧ (modShotAudit n f s).flights = s.flights ∧ (modShotAudit n f s).nextFlight = s.nextFlight ∧ (modShotAudit n f s).hub = s.hub ∧ (modShotAudit n f s).riders = s.riders ∧ (modShotAudit n f s).lines = s.lines ∧ (modShotAudit n f s).fasts = s.fasts ∧ (modShotAudit n f s).groups = s.groups ∧ (modShotAudit n f s).queues = s.queues ∧ (modShotAudit n f s).qdir = s.qdir ∧ (modShotAudit n f s).farriers = s.farriers ∧ (modShotAudit n f s).trims = s.trims ∧ (modShotAudit n f s).lanes = s.lanes ∧ (modShotAudit n f s).tether = s.tether ∧ (modShotAudit n f s).tc = s.tc ∧ (modShotAudit n f s).ethPorts = s.ethPorts ∧ (modShotAudit n f s).domains = s.domains ∧ (modShotAudit n f s).pulses = s.pulses ∧ (modShotAudit n f s).watches = s.watches ∧ (modShotAudit n f s).hks = s.hks ∧ (modShotAudit n f s).hkCtl = s.hkCtl ∧ (modShotAudit n f s).feeds = s.feeds ∧ (modShotAudit n f s).tally = s.tally ∧ (modShotAudit n f s).hbm = s.hbm ∧ (modShotAudit n f s).library = s.library ∧ (modShotAudit n f s).descs = s.descs ∧ (modShotAudit n f s).kernels = s.kernels ∧ (modShotAudit n f s).store = s.store ∧ (modShotAudit n f s).held = s.held ∧ (modShotAudit n f s).latched = s.latched ∧ (modShotAudit n f s).freeCtr = s.freeCtr :=
  ⟨rfl, rfl, rfl, rfl, rfl, rfl, rfl, rfl, rfl, rfl, rfl, rfl, rfl, rfl, rfl, rfl, rfl, rfl, rfl, rfl, rfl, rfl, rfl, rfl, rfl, rfl, rfl, rfl, rfl, rfl, rfl, rfl, rfl, rfl, rfl, rfl, rfl, rfl, rfl, rfl, rfl, rfl, rfl, rfl, rfl, rfl, rfl, rfl, rfl, rfl, rfl, rfl, rfl, rfl⟩

@[simp] theorem modLane_keeps (k : LaneId) (f : Lane → Lane) (s : State) :
    (modLane k f s).pending = s.pending ∧ (modLane k f s).clock = s.clock ∧ (modLane k f s).host = s.host ∧ (modLane k f s).funcs = s.funcs ∧ (modLane k f s).irqs = s.irqs ∧ (modLane k f s).power = s.power ∧ (modLane k f s).backup = s.backup ∧ (modLane k f s).persist = s.persist ∧ (modLane k f s).tack = s.tack ∧ (modLane k f s).spine = s.spine ∧ (modLane k f s).herdImage = s.herdImage ∧ (modLane k f s).hubImage = s.hubImage ∧ (modLane k f s).stallImages = s.stallImages ∧ (modLane k f s).stalls = s.stalls ∧ (modLane k f s).gaits = s.gaits ∧ (modLane k f s).slices = s.slices ∧ (modLane k f s).acqs = s.acqs ∧ (modLane k f s).voices = s.voices ∧ (modLane k f s).seqs = s.seqs ∧ (modLane k f s).chans = s.chans ∧ (modLane k f s).units = s.units ∧ (modLane k f s).nodes = s.nodes ∧ (modLane k f s).cells = s.cells ∧ (modLane k f s).books = s.books ∧ (modLane k f s).flights = s.flights ∧ (modLane k f s).nextFlight = s.nextFlight ∧ (modLane k f s).hub = s.hub ∧ (modLane k f s).riders = s.riders ∧ (modLane k f s).lines = s.lines ∧ (modLane k f s).fasts = s.fasts ∧ (modLane k f s).groups = s.groups ∧ (modLane k f s).queues = s.queues ∧ (modLane k f s).qdir = s.qdir ∧ (modLane k f s).farriers = s.farriers ∧ (modLane k f s).trims = s.trims ∧ (modLane k f s).shotAudits = s.shotAudits ∧ (modLane k f s).tether = s.tether ∧ (modLane k f s).tc = s.tc ∧ (modLane k f s).ethPorts = s.ethPorts ∧ (modLane k f s).domains = s.domains ∧ (modLane k f s).pulses = s.pulses ∧ (modLane k f s).watches = s.watches ∧ (modLane k f s).hks = s.hks ∧ (modLane k f s).hkCtl = s.hkCtl ∧ (modLane k f s).feeds = s.feeds ∧ (modLane k f s).tally = s.tally ∧ (modLane k f s).hbm = s.hbm ∧ (modLane k f s).library = s.library ∧ (modLane k f s).descs = s.descs ∧ (modLane k f s).kernels = s.kernels ∧ (modLane k f s).store = s.store ∧ (modLane k f s).held = s.held ∧ (modLane k f s).latched = s.latched ∧ (modLane k f s).freeCtr = s.freeCtr :=
  ⟨rfl, rfl, rfl, rfl, rfl, rfl, rfl, rfl, rfl, rfl, rfl, rfl, rfl, rfl, rfl, rfl, rfl, rfl, rfl, rfl, rfl, rfl, rfl, rfl, rfl, rfl, rfl, rfl, rfl, rfl, rfl, rfl, rfl, rfl, rfl, rfl, rfl, rfl, rfl, rfl, rfl, rfl, rfl, rfl, rfl, rfl, rfl, rfl, rfl, rfl, rfl, rfl, rfl, rfl⟩

@[simp] theorem modPort_keeps (p : Fin 2) (f : EthPort → EthPort) (s : State) :
    (modPort p f s).pending = s.pending ∧ (modPort p f s).clock = s.clock ∧ (modPort p f s).host = s.host ∧ (modPort p f s).funcs = s.funcs ∧ (modPort p f s).irqs = s.irqs ∧ (modPort p f s).power = s.power ∧ (modPort p f s).backup = s.backup ∧ (modPort p f s).persist = s.persist ∧ (modPort p f s).tack = s.tack ∧ (modPort p f s).spine = s.spine ∧ (modPort p f s).herdImage = s.herdImage ∧ (modPort p f s).hubImage = s.hubImage ∧ (modPort p f s).stallImages = s.stallImages ∧ (modPort p f s).stalls = s.stalls ∧ (modPort p f s).gaits = s.gaits ∧ (modPort p f s).slices = s.slices ∧ (modPort p f s).acqs = s.acqs ∧ (modPort p f s).voices = s.voices ∧ (modPort p f s).seqs = s.seqs ∧ (modPort p f s).chans = s.chans ∧ (modPort p f s).units = s.units ∧ (modPort p f s).nodes = s.nodes ∧ (modPort p f s).cells = s.cells ∧ (modPort p f s).books = s.books ∧ (modPort p f s).flights = s.flights ∧ (modPort p f s).nextFlight = s.nextFlight ∧ (modPort p f s).hub = s.hub ∧ (modPort p f s).riders = s.riders ∧ (modPort p f s).lines = s.lines ∧ (modPort p f s).fasts = s.fasts ∧ (modPort p f s).groups = s.groups ∧ (modPort p f s).queues = s.queues ∧ (modPort p f s).qdir = s.qdir ∧ (modPort p f s).farriers = s.farriers ∧ (modPort p f s).trims = s.trims ∧ (modPort p f s).shotAudits = s.shotAudits ∧ (modPort p f s).lanes = s.lanes ∧ (modPort p f s).tether = s.tether ∧ (modPort p f s).tc = s.tc ∧ (modPort p f s).domains = s.domains ∧ (modPort p f s).pulses = s.pulses ∧ (modPort p f s).watches = s.watches ∧ (modPort p f s).hks = s.hks ∧ (modPort p f s).hkCtl = s.hkCtl ∧ (modPort p f s).feeds = s.feeds ∧ (modPort p f s).tally = s.tally ∧ (modPort p f s).hbm = s.hbm ∧ (modPort p f s).library = s.library ∧ (modPort p f s).descs = s.descs ∧ (modPort p f s).kernels = s.kernels ∧ (modPort p f s).store = s.store ∧ (modPort p f s).held = s.held ∧ (modPort p f s).latched = s.latched ∧ (modPort p f s).freeCtr = s.freeCtr :=
  ⟨rfl, rfl, rfl, rfl, rfl, rfl, rfl, rfl, rfl, rfl, rfl, rfl, rfl, rfl, rfl, rfl, rfl, rfl, rfl, rfl, rfl, rfl, rfl, rfl, rfl, rfl, rfl, rfl, rfl, rfl, rfl, rfl, rfl, rfl, rfl, rfl, rfl, rfl, rfl, rfl, rfl, rfl, rfl, rfl, rfl, rfl, rfl, rfl, rfl, rfl, rfl, rfl, rfl, rfl⟩

@[simp] theorem modDomain_keeps (d : Fin 2) (f : Domain → Domain) (s : State) :
    (modDomain d f s).pending = s.pending ∧ (modDomain d f s).clock = s.clock ∧ (modDomain d f s).host = s.host ∧ (modDomain d f s).funcs = s.funcs ∧ (modDomain d f s).irqs = s.irqs ∧ (modDomain d f s).power = s.power ∧ (modDomain d f s).backup = s.backup ∧ (modDomain d f s).persist = s.persist ∧ (modDomain d f s).tack = s.tack ∧ (modDomain d f s).spine = s.spine ∧ (modDomain d f s).herdImage = s.herdImage ∧ (modDomain d f s).hubImage = s.hubImage ∧ (modDomain d f s).stallImages = s.stallImages ∧ (modDomain d f s).stalls = s.stalls ∧ (modDomain d f s).gaits = s.gaits ∧ (modDomain d f s).slices = s.slices ∧ (modDomain d f s).acqs = s.acqs ∧ (modDomain d f s).voices = s.voices ∧ (modDomain d f s).seqs = s.seqs ∧ (modDomain d f s).chans = s.chans ∧ (modDomain d f s).units = s.units ∧ (modDomain d f s).nodes = s.nodes ∧ (modDomain d f s).cells = s.cells ∧ (modDomain d f s).books = s.books ∧ (modDomain d f s).flights = s.flights ∧ (modDomain d f s).nextFlight = s.nextFlight ∧ (modDomain d f s).hub = s.hub ∧ (modDomain d f s).riders = s.riders ∧ (modDomain d f s).lines = s.lines ∧ (modDomain d f s).fasts = s.fasts ∧ (modDomain d f s).groups = s.groups ∧ (modDomain d f s).queues = s.queues ∧ (modDomain d f s).qdir = s.qdir ∧ (modDomain d f s).farriers = s.farriers ∧ (modDomain d f s).trims = s.trims ∧ (modDomain d f s).shotAudits = s.shotAudits ∧ (modDomain d f s).lanes = s.lanes ∧ (modDomain d f s).tether = s.tether ∧ (modDomain d f s).tc = s.tc ∧ (modDomain d f s).ethPorts = s.ethPorts ∧ (modDomain d f s).pulses = s.pulses ∧ (modDomain d f s).watches = s.watches ∧ (modDomain d f s).hks = s.hks ∧ (modDomain d f s).hkCtl = s.hkCtl ∧ (modDomain d f s).feeds = s.feeds ∧ (modDomain d f s).tally = s.tally ∧ (modDomain d f s).hbm = s.hbm ∧ (modDomain d f s).library = s.library ∧ (modDomain d f s).descs = s.descs ∧ (modDomain d f s).kernels = s.kernels ∧ (modDomain d f s).store = s.store ∧ (modDomain d f s).held = s.held ∧ (modDomain d f s).latched = s.latched ∧ (modDomain d f s).freeCtr = s.freeCtr :=
  ⟨rfl, rfl, rfl, rfl, rfl, rfl, rfl, rfl, rfl, rfl, rfl, rfl, rfl, rfl, rfl, rfl, rfl, rfl, rfl, rfl, rfl, rfl, rfl, rfl, rfl, rfl, rfl, rfl, rfl, rfl, rfl, rfl, rfl, rfl, rfl, rfl, rfl, rfl, rfl, rfl, rfl, rfl, rfl, rfl, rfl, rfl, rfl, rfl, rfl, rfl, rfl, rfl, rfl, rfl⟩

@[simp] theorem modPulse_keeps (k : Fin 8) (f : TimePulse → TimePulse) (s : State) :
    (modPulse k f s).pending = s.pending ∧ (modPulse k f s).clock = s.clock ∧ (modPulse k f s).host = s.host ∧ (modPulse k f s).funcs = s.funcs ∧ (modPulse k f s).irqs = s.irqs ∧ (modPulse k f s).power = s.power ∧ (modPulse k f s).backup = s.backup ∧ (modPulse k f s).persist = s.persist ∧ (modPulse k f s).tack = s.tack ∧ (modPulse k f s).spine = s.spine ∧ (modPulse k f s).herdImage = s.herdImage ∧ (modPulse k f s).hubImage = s.hubImage ∧ (modPulse k f s).stallImages = s.stallImages ∧ (modPulse k f s).stalls = s.stalls ∧ (modPulse k f s).gaits = s.gaits ∧ (modPulse k f s).slices = s.slices ∧ (modPulse k f s).acqs = s.acqs ∧ (modPulse k f s).voices = s.voices ∧ (modPulse k f s).seqs = s.seqs ∧ (modPulse k f s).chans = s.chans ∧ (modPulse k f s).units = s.units ∧ (modPulse k f s).nodes = s.nodes ∧ (modPulse k f s).cells = s.cells ∧ (modPulse k f s).books = s.books ∧ (modPulse k f s).flights = s.flights ∧ (modPulse k f s).nextFlight = s.nextFlight ∧ (modPulse k f s).hub = s.hub ∧ (modPulse k f s).riders = s.riders ∧ (modPulse k f s).lines = s.lines ∧ (modPulse k f s).fasts = s.fasts ∧ (modPulse k f s).groups = s.groups ∧ (modPulse k f s).queues = s.queues ∧ (modPulse k f s).qdir = s.qdir ∧ (modPulse k f s).farriers = s.farriers ∧ (modPulse k f s).trims = s.trims ∧ (modPulse k f s).shotAudits = s.shotAudits ∧ (modPulse k f s).lanes = s.lanes ∧ (modPulse k f s).tether = s.tether ∧ (modPulse k f s).tc = s.tc ∧ (modPulse k f s).ethPorts = s.ethPorts ∧ (modPulse k f s).domains = s.domains ∧ (modPulse k f s).watches = s.watches ∧ (modPulse k f s).hks = s.hks ∧ (modPulse k f s).hkCtl = s.hkCtl ∧ (modPulse k f s).feeds = s.feeds ∧ (modPulse k f s).tally = s.tally ∧ (modPulse k f s).hbm = s.hbm ∧ (modPulse k f s).library = s.library ∧ (modPulse k f s).descs = s.descs ∧ (modPulse k f s).kernels = s.kernels ∧ (modPulse k f s).store = s.store ∧ (modPulse k f s).held = s.held ∧ (modPulse k f s).latched = s.latched ∧ (modPulse k f s).freeCtr = s.freeCtr :=
  ⟨rfl, rfl, rfl, rfl, rfl, rfl, rfl, rfl, rfl, rfl, rfl, rfl, rfl, rfl, rfl, rfl, rfl, rfl, rfl, rfl, rfl, rfl, rfl, rfl, rfl, rfl, rfl, rfl, rfl, rfl, rfl, rfl, rfl, rfl, rfl, rfl, rfl, rfl, rfl, rfl, rfl, rfl, rfl, rfl, rfl, rfl, rfl, rfl, rfl, rfl, rfl, rfl, rfl, rfl⟩

@[simp] theorem modWatch_keeps (c : CmpId) (f : Watch → Watch) (s : State) :
    (modWatch c f s).pending = s.pending ∧ (modWatch c f s).clock = s.clock ∧ (modWatch c f s).host = s.host ∧ (modWatch c f s).funcs = s.funcs ∧ (modWatch c f s).irqs = s.irqs ∧ (modWatch c f s).power = s.power ∧ (modWatch c f s).backup = s.backup ∧ (modWatch c f s).persist = s.persist ∧ (modWatch c f s).tack = s.tack ∧ (modWatch c f s).spine = s.spine ∧ (modWatch c f s).herdImage = s.herdImage ∧ (modWatch c f s).hubImage = s.hubImage ∧ (modWatch c f s).stallImages = s.stallImages ∧ (modWatch c f s).stalls = s.stalls ∧ (modWatch c f s).gaits = s.gaits ∧ (modWatch c f s).slices = s.slices ∧ (modWatch c f s).acqs = s.acqs ∧ (modWatch c f s).voices = s.voices ∧ (modWatch c f s).seqs = s.seqs ∧ (modWatch c f s).chans = s.chans ∧ (modWatch c f s).units = s.units ∧ (modWatch c f s).nodes = s.nodes ∧ (modWatch c f s).cells = s.cells ∧ (modWatch c f s).books = s.books ∧ (modWatch c f s).flights = s.flights ∧ (modWatch c f s).nextFlight = s.nextFlight ∧ (modWatch c f s).hub = s.hub ∧ (modWatch c f s).riders = s.riders ∧ (modWatch c f s).lines = s.lines ∧ (modWatch c f s).fasts = s.fasts ∧ (modWatch c f s).groups = s.groups ∧ (modWatch c f s).queues = s.queues ∧ (modWatch c f s).qdir = s.qdir ∧ (modWatch c f s).farriers = s.farriers ∧ (modWatch c f s).trims = s.trims ∧ (modWatch c f s).shotAudits = s.shotAudits ∧ (modWatch c f s).lanes = s.lanes ∧ (modWatch c f s).tether = s.tether ∧ (modWatch c f s).tc = s.tc ∧ (modWatch c f s).ethPorts = s.ethPorts ∧ (modWatch c f s).domains = s.domains ∧ (modWatch c f s).pulses = s.pulses ∧ (modWatch c f s).hks = s.hks ∧ (modWatch c f s).hkCtl = s.hkCtl ∧ (modWatch c f s).feeds = s.feeds ∧ (modWatch c f s).tally = s.tally ∧ (modWatch c f s).hbm = s.hbm ∧ (modWatch c f s).library = s.library ∧ (modWatch c f s).descs = s.descs ∧ (modWatch c f s).kernels = s.kernels ∧ (modWatch c f s).store = s.store ∧ (modWatch c f s).held = s.held ∧ (modWatch c f s).latched = s.latched ∧ (modWatch c f s).freeCtr = s.freeCtr :=
  ⟨rfl, rfl, rfl, rfl, rfl, rfl, rfl, rfl, rfl, rfl, rfl, rfl, rfl, rfl, rfl, rfl, rfl, rfl, rfl, rfl, rfl, rfl, rfl, rfl, rfl, rfl, rfl, rfl, rfl, rfl, rfl, rfl, rfl, rfl, rfl, rfl, rfl, rfl, rfl, rfl, rfl, rfl, rfl, rfl, rfl, rfl, rfl, rfl, rfl, rfl, rfl, rfl, rfl, rfl⟩

@[simp] theorem modHk_keeps (k : Fin 8) (f : HkConv → HkConv) (s : State) :
    (modHk k f s).pending = s.pending ∧ (modHk k f s).clock = s.clock ∧ (modHk k f s).host = s.host ∧ (modHk k f s).funcs = s.funcs ∧ (modHk k f s).irqs = s.irqs ∧ (modHk k f s).power = s.power ∧ (modHk k f s).backup = s.backup ∧ (modHk k f s).persist = s.persist ∧ (modHk k f s).tack = s.tack ∧ (modHk k f s).spine = s.spine ∧ (modHk k f s).herdImage = s.herdImage ∧ (modHk k f s).hubImage = s.hubImage ∧ (modHk k f s).stallImages = s.stallImages ∧ (modHk k f s).stalls = s.stalls ∧ (modHk k f s).gaits = s.gaits ∧ (modHk k f s).slices = s.slices ∧ (modHk k f s).acqs = s.acqs ∧ (modHk k f s).voices = s.voices ∧ (modHk k f s).seqs = s.seqs ∧ (modHk k f s).chans = s.chans ∧ (modHk k f s).units = s.units ∧ (modHk k f s).nodes = s.nodes ∧ (modHk k f s).cells = s.cells ∧ (modHk k f s).books = s.books ∧ (modHk k f s).flights = s.flights ∧ (modHk k f s).nextFlight = s.nextFlight ∧ (modHk k f s).hub = s.hub ∧ (modHk k f s).riders = s.riders ∧ (modHk k f s).lines = s.lines ∧ (modHk k f s).fasts = s.fasts ∧ (modHk k f s).groups = s.groups ∧ (modHk k f s).queues = s.queues ∧ (modHk k f s).qdir = s.qdir ∧ (modHk k f s).farriers = s.farriers ∧ (modHk k f s).trims = s.trims ∧ (modHk k f s).shotAudits = s.shotAudits ∧ (modHk k f s).lanes = s.lanes ∧ (modHk k f s).tether = s.tether ∧ (modHk k f s).tc = s.tc ∧ (modHk k f s).ethPorts = s.ethPorts ∧ (modHk k f s).domains = s.domains ∧ (modHk k f s).pulses = s.pulses ∧ (modHk k f s).watches = s.watches ∧ (modHk k f s).hkCtl = s.hkCtl ∧ (modHk k f s).feeds = s.feeds ∧ (modHk k f s).tally = s.tally ∧ (modHk k f s).hbm = s.hbm ∧ (modHk k f s).library = s.library ∧ (modHk k f s).descs = s.descs ∧ (modHk k f s).kernels = s.kernels ∧ (modHk k f s).store = s.store ∧ (modHk k f s).held = s.held ∧ (modHk k f s).latched = s.latched ∧ (modHk k f s).freeCtr = s.freeCtr :=
  ⟨rfl, rfl, rfl, rfl, rfl, rfl, rfl, rfl, rfl, rfl, rfl, rfl, rfl, rfl, rfl, rfl, rfl, rfl, rfl, rfl, rfl, rfl, rfl, rfl, rfl, rfl, rfl, rfl, rfl, rfl, rfl, rfl, rfl, rfl, rfl, rfl, rfl, rfl, rfl, rfl, rfl, rfl, rfl, rfl, rfl, rfl, rfl, rfl, rfl, rfl, rfl, rfl, rfl, rfl⟩

@[simp] theorem modFunc_keeps (f : Func) (g : HostFunc → HostFunc) (s : State) :
    (modFunc f g s).pending = s.pending ∧ (modFunc f g s).clock = s.clock ∧ (modFunc f g s).host = s.host ∧ (modFunc f g s).irqs = s.irqs ∧ (modFunc f g s).power = s.power ∧ (modFunc f g s).backup = s.backup ∧ (modFunc f g s).persist = s.persist ∧ (modFunc f g s).tack = s.tack ∧ (modFunc f g s).spine = s.spine ∧ (modFunc f g s).herdImage = s.herdImage ∧ (modFunc f g s).hubImage = s.hubImage ∧ (modFunc f g s).stallImages = s.stallImages ∧ (modFunc f g s).stalls = s.stalls ∧ (modFunc f g s).gaits = s.gaits ∧ (modFunc f g s).slices = s.slices ∧ (modFunc f g s).acqs = s.acqs ∧ (modFunc f g s).voices = s.voices ∧ (modFunc f g s).seqs = s.seqs ∧ (modFunc f g s).chans = s.chans ∧ (modFunc f g s).units = s.units ∧ (modFunc f g s).nodes = s.nodes ∧ (modFunc f g s).cells = s.cells ∧ (modFunc f g s).books = s.books ∧ (modFunc f g s).flights = s.flights ∧ (modFunc f g s).nextFlight = s.nextFlight ∧ (modFunc f g s).hub = s.hub ∧ (modFunc f g s).riders = s.riders ∧ (modFunc f g s).lines = s.lines ∧ (modFunc f g s).fasts = s.fasts ∧ (modFunc f g s).groups = s.groups ∧ (modFunc f g s).queues = s.queues ∧ (modFunc f g s).qdir = s.qdir ∧ (modFunc f g s).farriers = s.farriers ∧ (modFunc f g s).trims = s.trims ∧ (modFunc f g s).shotAudits = s.shotAudits ∧ (modFunc f g s).lanes = s.lanes ∧ (modFunc f g s).tether = s.tether ∧ (modFunc f g s).tc = s.tc ∧ (modFunc f g s).ethPorts = s.ethPorts ∧ (modFunc f g s).domains = s.domains ∧ (modFunc f g s).pulses = s.pulses ∧ (modFunc f g s).watches = s.watches ∧ (modFunc f g s).hks = s.hks ∧ (modFunc f g s).hkCtl = s.hkCtl ∧ (modFunc f g s).feeds = s.feeds ∧ (modFunc f g s).tally = s.tally ∧ (modFunc f g s).hbm = s.hbm ∧ (modFunc f g s).library = s.library ∧ (modFunc f g s).descs = s.descs ∧ (modFunc f g s).kernels = s.kernels ∧ (modFunc f g s).store = s.store ∧ (modFunc f g s).held = s.held ∧ (modFunc f g s).latched = s.latched ∧ (modFunc f g s).freeCtr = s.freeCtr :=
  ⟨rfl, rfl, rfl, rfl, rfl, rfl, rfl, rfl, rfl, rfl, rfl, rfl, rfl, rfl, rfl, rfl, rfl, rfl, rfl, rfl, rfl, rfl, rfl, rfl, rfl, rfl, rfl, rfl, rfl, rfl, rfl, rfl, rfl, rfl, rfl, rfl, rfl, rfl, rfl, rfl, rfl, rfl, rfl, rfl, rfl, rfl, rfl, rfl, rfl, rfl, rfl, rfl, rfl, rfl⟩

@[simp] theorem modIrq_keeps (src : Nat) (g : IrqSource → IrqSource) (s : State) :
    (modIrq src g s).pending = s.pending ∧ (modIrq src g s).clock = s.clock ∧ (modIrq src g s).host = s.host ∧ (modIrq src g s).funcs = s.funcs ∧ (modIrq src g s).power = s.power ∧ (modIrq src g s).backup = s.backup ∧ (modIrq src g s).persist = s.persist ∧ (modIrq src g s).tack = s.tack ∧ (modIrq src g s).spine = s.spine ∧ (modIrq src g s).herdImage = s.herdImage ∧ (modIrq src g s).hubImage = s.hubImage ∧ (modIrq src g s).stallImages = s.stallImages ∧ (modIrq src g s).stalls = s.stalls ∧ (modIrq src g s).gaits = s.gaits ∧ (modIrq src g s).slices = s.slices ∧ (modIrq src g s).acqs = s.acqs ∧ (modIrq src g s).voices = s.voices ∧ (modIrq src g s).seqs = s.seqs ∧ (modIrq src g s).chans = s.chans ∧ (modIrq src g s).units = s.units ∧ (modIrq src g s).nodes = s.nodes ∧ (modIrq src g s).cells = s.cells ∧ (modIrq src g s).books = s.books ∧ (modIrq src g s).flights = s.flights ∧ (modIrq src g s).nextFlight = s.nextFlight ∧ (modIrq src g s).hub = s.hub ∧ (modIrq src g s).riders = s.riders ∧ (modIrq src g s).lines = s.lines ∧ (modIrq src g s).fasts = s.fasts ∧ (modIrq src g s).groups = s.groups ∧ (modIrq src g s).queues = s.queues ∧ (modIrq src g s).qdir = s.qdir ∧ (modIrq src g s).farriers = s.farriers ∧ (modIrq src g s).trims = s.trims ∧ (modIrq src g s).shotAudits = s.shotAudits ∧ (modIrq src g s).lanes = s.lanes ∧ (modIrq src g s).tether = s.tether ∧ (modIrq src g s).tc = s.tc ∧ (modIrq src g s).ethPorts = s.ethPorts ∧ (modIrq src g s).domains = s.domains ∧ (modIrq src g s).pulses = s.pulses ∧ (modIrq src g s).watches = s.watches ∧ (modIrq src g s).hks = s.hks ∧ (modIrq src g s).hkCtl = s.hkCtl ∧ (modIrq src g s).feeds = s.feeds ∧ (modIrq src g s).tally = s.tally ∧ (modIrq src g s).hbm = s.hbm ∧ (modIrq src g s).library = s.library ∧ (modIrq src g s).descs = s.descs ∧ (modIrq src g s).kernels = s.kernels ∧ (modIrq src g s).store = s.store ∧ (modIrq src g s).held = s.held ∧ (modIrq src g s).latched = s.latched ∧ (modIrq src g s).freeCtr = s.freeCtr :=
  ⟨rfl, rfl, rfl, rfl, rfl, rfl, rfl, rfl, rfl, rfl, rfl, rfl, rfl, rfl, rfl, rfl, rfl, rfl, rfl, rfl, rfl, rfl, rfl, rfl, rfl, rfl, rfl, rfl, rfl, rfl, rfl, rfl, rfl, rfl, rfl, rfl, rfl, rfl, rfl, rfl, rfl, rfl, rfl, rfl, rfl, rfl, rfl, rfl, rfl, rfl, rfl, rfl, rfl, rfl⟩

@[simp] theorem modFeed_keeps (k : Nat) (g : Feed → Feed) (s : State) :
    (modFeed k g s).pending = s.pending ∧ (modFeed k g s).clock = s.clock ∧ (modFeed k g s).host = s.host ∧ (modFeed k g s).funcs = s.funcs ∧ (modFeed k g s).irqs = s.irqs ∧ (modFeed k g s).power = s.power ∧ (modFeed k g s).backup = s.backup ∧ (modFeed k g s).persist = s.persist ∧ (modFeed k g s).tack = s.tack ∧ (modFeed k g s).spine = s.spine ∧ (modFeed k g s).herdImage = s.herdImage ∧ (modFeed k g s).hubImage = s.hubImage ∧ (modFeed k g s).stallImages = s.stallImages ∧ (modFeed k g s).stalls = s.stalls ∧ (modFeed k g s).gaits = s.gaits ∧ (modFeed k g s).slices = s.slices ∧ (modFeed k g s).acqs = s.acqs ∧ (modFeed k g s).voices = s.voices ∧ (modFeed k g s).seqs = s.seqs ∧ (modFeed k g s).chans = s.chans ∧ (modFeed k g s).units = s.units ∧ (modFeed k g s).nodes = s.nodes ∧ (modFeed k g s).cells = s.cells ∧ (modFeed k g s).books = s.books ∧ (modFeed k g s).flights = s.flights ∧ (modFeed k g s).nextFlight = s.nextFlight ∧ (modFeed k g s).hub = s.hub ∧ (modFeed k g s).riders = s.riders ∧ (modFeed k g s).lines = s.lines ∧ (modFeed k g s).fasts = s.fasts ∧ (modFeed k g s).groups = s.groups ∧ (modFeed k g s).queues = s.queues ∧ (modFeed k g s).qdir = s.qdir ∧ (modFeed k g s).farriers = s.farriers ∧ (modFeed k g s).trims = s.trims ∧ (modFeed k g s).shotAudits = s.shotAudits ∧ (modFeed k g s).lanes = s.lanes ∧ (modFeed k g s).tether = s.tether ∧ (modFeed k g s).tc = s.tc ∧ (modFeed k g s).ethPorts = s.ethPorts ∧ (modFeed k g s).domains = s.domains ∧ (modFeed k g s).pulses = s.pulses ∧ (modFeed k g s).watches = s.watches ∧ (modFeed k g s).hks = s.hks ∧ (modFeed k g s).hkCtl = s.hkCtl ∧ (modFeed k g s).tally = s.tally ∧ (modFeed k g s).hbm = s.hbm ∧ (modFeed k g s).library = s.library ∧ (modFeed k g s).descs = s.descs ∧ (modFeed k g s).kernels = s.kernels ∧ (modFeed k g s).store = s.store ∧ (modFeed k g s).held = s.held ∧ (modFeed k g s).latched = s.latched ∧ (modFeed k g s).freeCtr = s.freeCtr :=
  ⟨rfl, rfl, rfl, rfl, rfl, rfl, rfl, rfl, rfl, rfl, rfl, rfl, rfl, rfl, rfl, rfl, rfl, rfl, rfl, rfl, rfl, rfl, rfl, rfl, rfl, rfl, rfl, rfl, rfl, rfl, rfl, rfl, rfl, rfl, rfl, rfl, rfl, rfl, rfl, rfl, rfl, rfl, rfl, rfl, rfl, rfl, rfl, rfl, rfl, rfl, rfl, rfl, rfl, rfl⟩

@[simp] theorem setHost_keeps (f : HostCommon → HostCommon) (s : State) :
    (setHost f s).pending = s.pending ∧ (setHost f s).clock = s.clock ∧ (setHost f s).funcs = s.funcs ∧ (setHost f s).irqs = s.irqs ∧ (setHost f s).power = s.power ∧ (setHost f s).backup = s.backup ∧ (setHost f s).persist = s.persist ∧ (setHost f s).tack = s.tack ∧ (setHost f s).spine = s.spine ∧ (setHost f s).herdImage = s.herdImage ∧ (setHost f s).hubImage = s.hubImage ∧ (setHost f s).stallImages = s.stallImages ∧ (setHost f s).stalls = s.stalls ∧ (setHost f s).gaits = s.gaits ∧ (setHost f s).slices = s.slices ∧ (setHost f s).acqs = s.acqs ∧ (setHost f s).voices = s.voices ∧ (setHost f s).seqs = s.seqs ∧ (setHost f s).chans = s.chans ∧ (setHost f s).units = s.units ∧ (setHost f s).nodes = s.nodes ∧ (setHost f s).cells = s.cells ∧ (setHost f s).books = s.books ∧ (setHost f s).flights = s.flights ∧ (setHost f s).nextFlight = s.nextFlight ∧ (setHost f s).hub = s.hub ∧ (setHost f s).riders = s.riders ∧ (setHost f s).lines = s.lines ∧ (setHost f s).fasts = s.fasts ∧ (setHost f s).groups = s.groups ∧ (setHost f s).queues = s.queues ∧ (setHost f s).qdir = s.qdir ∧ (setHost f s).farriers = s.farriers ∧ (setHost f s).trims = s.trims ∧ (setHost f s).shotAudits = s.shotAudits ∧ (setHost f s).lanes = s.lanes ∧ (setHost f s).tether = s.tether ∧ (setHost f s).tc = s.tc ∧ (setHost f s).ethPorts = s.ethPorts ∧ (setHost f s).domains = s.domains ∧ (setHost f s).pulses = s.pulses ∧ (setHost f s).watches = s.watches ∧ (setHost f s).hks = s.hks ∧ (setHost f s).hkCtl = s.hkCtl ∧ (setHost f s).feeds = s.feeds ∧ (setHost f s).tally = s.tally ∧ (setHost f s).hbm = s.hbm ∧ (setHost f s).library = s.library ∧ (setHost f s).descs = s.descs ∧ (setHost f s).kernels = s.kernels ∧ (setHost f s).store = s.store ∧ (setHost f s).held = s.held ∧ (setHost f s).latched = s.latched ∧ (setHost f s).freeCtr = s.freeCtr :=
  ⟨rfl, rfl, rfl, rfl, rfl, rfl, rfl, rfl, rfl, rfl, rfl, rfl, rfl, rfl, rfl, rfl, rfl, rfl, rfl, rfl, rfl, rfl, rfl, rfl, rfl, rfl, rfl, rfl, rfl, rfl, rfl, rfl, rfl, rfl, rfl, rfl, rfl, rfl, rfl, rfl, rfl, rfl, rfl, rfl, rfl, rfl, rfl, rfl, rfl, rfl, rfl, rfl, rfl, rfl⟩

@[simp] theorem setHost_host (f : HostCommon → HostCommon) (s : State) : (setHost f s).host = f s.host := rfl

@[simp] theorem setClock_keeps (f : Clock → Clock) (s : State) :
    (setClock f s).pending = s.pending ∧ (setClock f s).host = s.host ∧ (setClock f s).funcs = s.funcs ∧ (setClock f s).irqs = s.irqs ∧ (setClock f s).power = s.power ∧ (setClock f s).backup = s.backup ∧ (setClock f s).persist = s.persist ∧ (setClock f s).tack = s.tack ∧ (setClock f s).spine = s.spine ∧ (setClock f s).herdImage = s.herdImage ∧ (setClock f s).hubImage = s.hubImage ∧ (setClock f s).stallImages = s.stallImages ∧ (setClock f s).stalls = s.stalls ∧ (setClock f s).gaits = s.gaits ∧ (setClock f s).slices = s.slices ∧ (setClock f s).acqs = s.acqs ∧ (setClock f s).voices = s.voices ∧ (setClock f s).seqs = s.seqs ∧ (setClock f s).chans = s.chans ∧ (setClock f s).units = s.units ∧ (setClock f s).nodes = s.nodes ∧ (setClock f s).cells = s.cells ∧ (setClock f s).books = s.books ∧ (setClock f s).flights = s.flights ∧ (setClock f s).nextFlight = s.nextFlight ∧ (setClock f s).hub = s.hub ∧ (setClock f s).riders = s.riders ∧ (setClock f s).lines = s.lines ∧ (setClock f s).fasts = s.fasts ∧ (setClock f s).groups = s.groups ∧ (setClock f s).queues = s.queues ∧ (setClock f s).qdir = s.qdir ∧ (setClock f s).farriers = s.farriers ∧ (setClock f s).trims = s.trims ∧ (setClock f s).shotAudits = s.shotAudits ∧ (setClock f s).lanes = s.lanes ∧ (setClock f s).tether = s.tether ∧ (setClock f s).tc = s.tc ∧ (setClock f s).ethPorts = s.ethPorts ∧ (setClock f s).domains = s.domains ∧ (setClock f s).pulses = s.pulses ∧ (setClock f s).watches = s.watches ∧ (setClock f s).hks = s.hks ∧ (setClock f s).hkCtl = s.hkCtl ∧ (setClock f s).feeds = s.feeds ∧ (setClock f s).tally = s.tally ∧ (setClock f s).hbm = s.hbm ∧ (setClock f s).library = s.library ∧ (setClock f s).descs = s.descs ∧ (setClock f s).kernels = s.kernels ∧ (setClock f s).store = s.store ∧ (setClock f s).held = s.held ∧ (setClock f s).latched = s.latched ∧ (setClock f s).freeCtr = s.freeCtr :=
  ⟨rfl, rfl, rfl, rfl, rfl, rfl, rfl, rfl, rfl, rfl, rfl, rfl, rfl, rfl, rfl, rfl, rfl, rfl, rfl, rfl, rfl, rfl, rfl, rfl, rfl, rfl, rfl, rfl, rfl, rfl, rfl, rfl, rfl, rfl, rfl, rfl, rfl, rfl, rfl, rfl, rfl, rfl, rfl, rfl, rfl, rfl, rfl, rfl, rfl, rfl, rfl, rfl, rfl, rfl⟩

@[simp] theorem setClock_clock (f : Clock → Clock) (s : State) : (setClock f s).clock = f s.clock := rfl

@[simp] theorem setHbm_keeps (f : Tab Byte → Tab Byte) (s : State) :
    (setHbm f s).pending = s.pending ∧ (setHbm f s).clock = s.clock ∧ (setHbm f s).host = s.host ∧ (setHbm f s).funcs = s.funcs ∧ (setHbm f s).irqs = s.irqs ∧ (setHbm f s).power = s.power ∧ (setHbm f s).backup = s.backup ∧ (setHbm f s).persist = s.persist ∧ (setHbm f s).tack = s.tack ∧ (setHbm f s).spine = s.spine ∧ (setHbm f s).herdImage = s.herdImage ∧ (setHbm f s).hubImage = s.hubImage ∧ (setHbm f s).stallImages = s.stallImages ∧ (setHbm f s).stalls = s.stalls ∧ (setHbm f s).gaits = s.gaits ∧ (setHbm f s).slices = s.slices ∧ (setHbm f s).acqs = s.acqs ∧ (setHbm f s).voices = s.voices ∧ (setHbm f s).seqs = s.seqs ∧ (setHbm f s).chans = s.chans ∧ (setHbm f s).units = s.units ∧ (setHbm f s).nodes = s.nodes ∧ (setHbm f s).cells = s.cells ∧ (setHbm f s).books = s.books ∧ (setHbm f s).flights = s.flights ∧ (setHbm f s).nextFlight = s.nextFlight ∧ (setHbm f s).hub = s.hub ∧ (setHbm f s).riders = s.riders ∧ (setHbm f s).lines = s.lines ∧ (setHbm f s).fasts = s.fasts ∧ (setHbm f s).groups = s.groups ∧ (setHbm f s).queues = s.queues ∧ (setHbm f s).qdir = s.qdir ∧ (setHbm f s).farriers = s.farriers ∧ (setHbm f s).trims = s.trims ∧ (setHbm f s).shotAudits = s.shotAudits ∧ (setHbm f s).lanes = s.lanes ∧ (setHbm f s).tether = s.tether ∧ (setHbm f s).tc = s.tc ∧ (setHbm f s).ethPorts = s.ethPorts ∧ (setHbm f s).domains = s.domains ∧ (setHbm f s).pulses = s.pulses ∧ (setHbm f s).watches = s.watches ∧ (setHbm f s).hks = s.hks ∧ (setHbm f s).hkCtl = s.hkCtl ∧ (setHbm f s).feeds = s.feeds ∧ (setHbm f s).tally = s.tally ∧ (setHbm f s).library = s.library ∧ (setHbm f s).descs = s.descs ∧ (setHbm f s).kernels = s.kernels ∧ (setHbm f s).store = s.store ∧ (setHbm f s).held = s.held ∧ (setHbm f s).latched = s.latched ∧ (setHbm f s).freeCtr = s.freeCtr :=
  ⟨rfl, rfl, rfl, rfl, rfl, rfl, rfl, rfl, rfl, rfl, rfl, rfl, rfl, rfl, rfl, rfl, rfl, rfl, rfl, rfl, rfl, rfl, rfl, rfl, rfl, rfl, rfl, rfl, rfl, rfl, rfl, rfl, rfl, rfl, rfl, rfl, rfl, rfl, rfl, rfl, rfl, rfl, rfl, rfl, rfl, rfl, rfl, rfl, rfl, rfl, rfl, rfl, rfl, rfl⟩

@[simp] theorem setHbm_hbm (f : Tab Byte → Tab Byte) (s : State) : (setHbm f s).hbm = f s.hbm := rfl

@[simp] theorem putFlight_keeps (i : Nat) (g : Flight) (s : State) :
    (putFlight i g s).pending = s.pending ∧ (putFlight i g s).clock = s.clock ∧ (putFlight i g s).host = s.host ∧ (putFlight i g s).funcs = s.funcs ∧ (putFlight i g s).irqs = s.irqs ∧ (putFlight i g s).power = s.power ∧ (putFlight i g s).backup = s.backup ∧ (putFlight i g s).persist = s.persist ∧ (putFlight i g s).tack = s.tack ∧ (putFlight i g s).spine = s.spine ∧ (putFlight i g s).herdImage = s.herdImage ∧ (putFlight i g s).hubImage = s.hubImage ∧ (putFlight i g s).stallImages = s.stallImages ∧ (putFlight i g s).stalls = s.stalls ∧ (putFlight i g s).gaits = s.gaits ∧ (putFlight i g s).slices = s.slices ∧ (putFlight i g s).acqs = s.acqs ∧ (putFlight i g s).voices = s.voices ∧ (putFlight i g s).seqs = s.seqs ∧ (putFlight i g s).chans = s.chans ∧ (putFlight i g s).units = s.units ∧ (putFlight i g s).nodes = s.nodes ∧ (putFlight i g s).cells = s.cells ∧ (putFlight i g s).books = s.books ∧ (putFlight i g s).nextFlight = s.nextFlight ∧ (putFlight i g s).hub = s.hub ∧ (putFlight i g s).riders = s.riders ∧ (putFlight i g s).lines = s.lines ∧ (putFlight i g s).fasts = s.fasts ∧ (putFlight i g s).groups = s.groups ∧ (putFlight i g s).queues = s.queues ∧ (putFlight i g s).qdir = s.qdir ∧ (putFlight i g s).farriers = s.farriers ∧ (putFlight i g s).trims = s.trims ∧ (putFlight i g s).shotAudits = s.shotAudits ∧ (putFlight i g s).lanes = s.lanes ∧ (putFlight i g s).tether = s.tether ∧ (putFlight i g s).tc = s.tc ∧ (putFlight i g s).ethPorts = s.ethPorts ∧ (putFlight i g s).domains = s.domains ∧ (putFlight i g s).pulses = s.pulses ∧ (putFlight i g s).watches = s.watches ∧ (putFlight i g s).hks = s.hks ∧ (putFlight i g s).hkCtl = s.hkCtl ∧ (putFlight i g s).feeds = s.feeds ∧ (putFlight i g s).tally = s.tally ∧ (putFlight i g s).hbm = s.hbm ∧ (putFlight i g s).library = s.library ∧ (putFlight i g s).descs = s.descs ∧ (putFlight i g s).kernels = s.kernels ∧ (putFlight i g s).store = s.store ∧ (putFlight i g s).held = s.held ∧ (putFlight i g s).latched = s.latched ∧ (putFlight i g s).freeCtr = s.freeCtr :=
  ⟨rfl, rfl, rfl, rfl, rfl, rfl, rfl, rfl, rfl, rfl, rfl, rfl, rfl, rfl, rfl, rfl, rfl, rfl, rfl, rfl, rfl, rfl, rfl, rfl, rfl, rfl, rfl, rfl, rfl, rfl, rfl, rfl, rfl, rfl, rfl, rfl, rfl, rfl, rfl, rfl, rfl, rfl, rfl, rfl, rfl, rfl, rfl, rfl, rfl, rfl, rfl, rfl, rfl, rfl⟩

@[simp] theorem putFlight_flights (i : Nat) (g : Flight) (s : State) : (putFlight i g s).flights = tabSet s.flights i g := rfl

@[simp] theorem setStallImages_keeps (f : Tab StallImage → Tab StallImage) (s : State) :
    (setStallImages f s).pending = s.pending ∧ (setStallImages f s).clock = s.clock ∧ (setStallImages f s).host = s.host ∧ (setStallImages f s).funcs = s.funcs ∧ (setStallImages f s).irqs = s.irqs ∧ (setStallImages f s).power = s.power ∧ (setStallImages f s).backup = s.backup ∧ (setStallImages f s).persist = s.persist ∧ (setStallImages f s).tack = s.tack ∧ (setStallImages f s).spine = s.spine ∧ (setStallImages f s).herdImage = s.herdImage ∧ (setStallImages f s).hubImage = s.hubImage ∧ (setStallImages f s).stalls = s.stalls ∧ (setStallImages f s).gaits = s.gaits ∧ (setStallImages f s).slices = s.slices ∧ (setStallImages f s).acqs = s.acqs ∧ (setStallImages f s).voices = s.voices ∧ (setStallImages f s).seqs = s.seqs ∧ (setStallImages f s).chans = s.chans ∧ (setStallImages f s).units = s.units ∧ (setStallImages f s).nodes = s.nodes ∧ (setStallImages f s).cells = s.cells ∧ (setStallImages f s).books = s.books ∧ (setStallImages f s).flights = s.flights ∧ (setStallImages f s).nextFlight = s.nextFlight ∧ (setStallImages f s).hub = s.hub ∧ (setStallImages f s).riders = s.riders ∧ (setStallImages f s).lines = s.lines ∧ (setStallImages f s).fasts = s.fasts ∧ (setStallImages f s).groups = s.groups ∧ (setStallImages f s).queues = s.queues ∧ (setStallImages f s).qdir = s.qdir ∧ (setStallImages f s).farriers = s.farriers ∧ (setStallImages f s).trims = s.trims ∧ (setStallImages f s).shotAudits = s.shotAudits ∧ (setStallImages f s).lanes = s.lanes ∧ (setStallImages f s).tether = s.tether ∧ (setStallImages f s).tc = s.tc ∧ (setStallImages f s).ethPorts = s.ethPorts ∧ (setStallImages f s).domains = s.domains ∧ (setStallImages f s).pulses = s.pulses ∧ (setStallImages f s).watches = s.watches ∧ (setStallImages f s).hks = s.hks ∧ (setStallImages f s).hkCtl = s.hkCtl ∧ (setStallImages f s).feeds = s.feeds ∧ (setStallImages f s).tally = s.tally ∧ (setStallImages f s).hbm = s.hbm ∧ (setStallImages f s).library = s.library ∧ (setStallImages f s).descs = s.descs ∧ (setStallImages f s).kernels = s.kernels ∧ (setStallImages f s).store = s.store ∧ (setStallImages f s).held = s.held ∧ (setStallImages f s).latched = s.latched ∧ (setStallImages f s).freeCtr = s.freeCtr :=
  ⟨rfl, rfl, rfl, rfl, rfl, rfl, rfl, rfl, rfl, rfl, rfl, rfl, rfl, rfl, rfl, rfl, rfl, rfl, rfl, rfl, rfl, rfl, rfl, rfl, rfl, rfl, rfl, rfl, rfl, rfl, rfl, rfl, rfl, rfl, rfl, rfl, rfl, rfl, rfl, rfl, rfl, rfl, rfl, rfl, rfl, rfl, rfl, rfl, rfl, rfl, rfl, rfl, rfl, rfl⟩

@[simp] theorem setStallImages_stallImages (f : Tab StallImage → Tab StallImage) (s : State) : (setStallImages f s).stallImages = f s.stallImages := rfl

@[simp] theorem setHubImage_keeps (i : Option HubImage) (s : State) :
    (setHubImage i s).pending = s.pending ∧ (setHubImage i s).clock = s.clock ∧ (setHubImage i s).host = s.host ∧ (setHubImage i s).funcs = s.funcs ∧ (setHubImage i s).irqs = s.irqs ∧ (setHubImage i s).power = s.power ∧ (setHubImage i s).backup = s.backup ∧ (setHubImage i s).persist = s.persist ∧ (setHubImage i s).tack = s.tack ∧ (setHubImage i s).spine = s.spine ∧ (setHubImage i s).herdImage = s.herdImage ∧ (setHubImage i s).stallImages = s.stallImages ∧ (setHubImage i s).stalls = s.stalls ∧ (setHubImage i s).gaits = s.gaits ∧ (setHubImage i s).slices = s.slices ∧ (setHubImage i s).acqs = s.acqs ∧ (setHubImage i s).voices = s.voices ∧ (setHubImage i s).seqs = s.seqs ∧ (setHubImage i s).chans = s.chans ∧ (setHubImage i s).units = s.units ∧ (setHubImage i s).nodes = s.nodes ∧ (setHubImage i s).cells = s.cells ∧ (setHubImage i s).books = s.books ∧ (setHubImage i s).flights = s.flights ∧ (setHubImage i s).nextFlight = s.nextFlight ∧ (setHubImage i s).hub = s.hub ∧ (setHubImage i s).riders = s.riders ∧ (setHubImage i s).lines = s.lines ∧ (setHubImage i s).fasts = s.fasts ∧ (setHubImage i s).groups = s.groups ∧ (setHubImage i s).queues = s.queues ∧ (setHubImage i s).qdir = s.qdir ∧ (setHubImage i s).farriers = s.farriers ∧ (setHubImage i s).trims = s.trims ∧ (setHubImage i s).shotAudits = s.shotAudits ∧ (setHubImage i s).lanes = s.lanes ∧ (setHubImage i s).tether = s.tether ∧ (setHubImage i s).tc = s.tc ∧ (setHubImage i s).ethPorts = s.ethPorts ∧ (setHubImage i s).domains = s.domains ∧ (setHubImage i s).pulses = s.pulses ∧ (setHubImage i s).watches = s.watches ∧ (setHubImage i s).hks = s.hks ∧ (setHubImage i s).hkCtl = s.hkCtl ∧ (setHubImage i s).feeds = s.feeds ∧ (setHubImage i s).tally = s.tally ∧ (setHubImage i s).hbm = s.hbm ∧ (setHubImage i s).library = s.library ∧ (setHubImage i s).descs = s.descs ∧ (setHubImage i s).kernels = s.kernels ∧ (setHubImage i s).store = s.store ∧ (setHubImage i s).held = s.held ∧ (setHubImage i s).latched = s.latched ∧ (setHubImage i s).freeCtr = s.freeCtr :=
  ⟨rfl, rfl, rfl, rfl, rfl, rfl, rfl, rfl, rfl, rfl, rfl, rfl, rfl, rfl, rfl, rfl, rfl, rfl, rfl, rfl, rfl, rfl, rfl, rfl, rfl, rfl, rfl, rfl, rfl, rfl, rfl, rfl, rfl, rfl, rfl, rfl, rfl, rfl, rfl, rfl, rfl, rfl, rfl, rfl, rfl, rfl, rfl, rfl, rfl, rfl, rfl, rfl, rfl, rfl⟩

@[simp] theorem setHubImage_hubImage (i : Option HubImage) (s : State) : (setHubImage i s).hubImage = i := rfl

@[simp] theorem setPower_keeps (f : Power → Power) (s : State) :
    (setPower f s).pending = s.pending ∧ (setPower f s).clock = s.clock ∧ (setPower f s).host = s.host ∧ (setPower f s).funcs = s.funcs ∧ (setPower f s).irqs = s.irqs ∧ (setPower f s).backup = s.backup ∧ (setPower f s).persist = s.persist ∧ (setPower f s).tack = s.tack ∧ (setPower f s).spine = s.spine ∧ (setPower f s).herdImage = s.herdImage ∧ (setPower f s).hubImage = s.hubImage ∧ (setPower f s).stallImages = s.stallImages ∧ (setPower f s).stalls = s.stalls ∧ (setPower f s).gaits = s.gaits ∧ (setPower f s).slices = s.slices ∧ (setPower f s).acqs = s.acqs ∧ (setPower f s).voices = s.voices ∧ (setPower f s).seqs = s.seqs ∧ (setPower f s).chans = s.chans ∧ (setPower f s).units = s.units ∧ (setPower f s).nodes = s.nodes ∧ (setPower f s).cells = s.cells ∧ (setPower f s).books = s.books ∧ (setPower f s).flights = s.flights ∧ (setPower f s).nextFlight = s.nextFlight ∧ (setPower f s).hub = s.hub ∧ (setPower f s).riders = s.riders ∧ (setPower f s).lines = s.lines ∧ (setPower f s).fasts = s.fasts ∧ (setPower f s).groups = s.groups ∧ (setPower f s).queues = s.queues ∧ (setPower f s).qdir = s.qdir ∧ (setPower f s).farriers = s.farriers ∧ (setPower f s).trims = s.trims ∧ (setPower f s).shotAudits = s.shotAudits ∧ (setPower f s).lanes = s.lanes ∧ (setPower f s).tether = s.tether ∧ (setPower f s).tc = s.tc ∧ (setPower f s).ethPorts = s.ethPorts ∧ (setPower f s).domains = s.domains ∧ (setPower f s).pulses = s.pulses ∧ (setPower f s).watches = s.watches ∧ (setPower f s).hks = s.hks ∧ (setPower f s).hkCtl = s.hkCtl ∧ (setPower f s).feeds = s.feeds ∧ (setPower f s).tally = s.tally ∧ (setPower f s).hbm = s.hbm ∧ (setPower f s).library = s.library ∧ (setPower f s).descs = s.descs ∧ (setPower f s).kernels = s.kernels ∧ (setPower f s).store = s.store ∧ (setPower f s).held = s.held ∧ (setPower f s).latched = s.latched ∧ (setPower f s).freeCtr = s.freeCtr :=
  ⟨rfl, rfl, rfl, rfl, rfl, rfl, rfl, rfl, rfl, rfl, rfl, rfl, rfl, rfl, rfl, rfl, rfl, rfl, rfl, rfl, rfl, rfl, rfl, rfl, rfl, rfl, rfl, rfl, rfl, rfl, rfl, rfl, rfl, rfl, rfl, rfl, rfl, rfl, rfl, rfl, rfl, rfl, rfl, rfl, rfl, rfl, rfl, rfl, rfl, rfl, rfl, rfl, rfl, rfl⟩

@[simp] theorem setPower_power (f : Power → Power) (s : State) : (setPower f s).power = f s.power := rfl

@[simp] theorem setTack_keeps (f : Tack → Tack) (s : State) :
    (setTack f s).pending = s.pending ∧ (setTack f s).clock = s.clock ∧ (setTack f s).host = s.host ∧ (setTack f s).funcs = s.funcs ∧ (setTack f s).irqs = s.irqs ∧ (setTack f s).power = s.power ∧ (setTack f s).backup = s.backup ∧ (setTack f s).persist = s.persist ∧ (setTack f s).spine = s.spine ∧ (setTack f s).herdImage = s.herdImage ∧ (setTack f s).hubImage = s.hubImage ∧ (setTack f s).stallImages = s.stallImages ∧ (setTack f s).stalls = s.stalls ∧ (setTack f s).gaits = s.gaits ∧ (setTack f s).slices = s.slices ∧ (setTack f s).acqs = s.acqs ∧ (setTack f s).voices = s.voices ∧ (setTack f s).seqs = s.seqs ∧ (setTack f s).chans = s.chans ∧ (setTack f s).units = s.units ∧ (setTack f s).nodes = s.nodes ∧ (setTack f s).cells = s.cells ∧ (setTack f s).books = s.books ∧ (setTack f s).flights = s.flights ∧ (setTack f s).nextFlight = s.nextFlight ∧ (setTack f s).hub = s.hub ∧ (setTack f s).riders = s.riders ∧ (setTack f s).lines = s.lines ∧ (setTack f s).fasts = s.fasts ∧ (setTack f s).groups = s.groups ∧ (setTack f s).queues = s.queues ∧ (setTack f s).qdir = s.qdir ∧ (setTack f s).farriers = s.farriers ∧ (setTack f s).trims = s.trims ∧ (setTack f s).shotAudits = s.shotAudits ∧ (setTack f s).lanes = s.lanes ∧ (setTack f s).tether = s.tether ∧ (setTack f s).tc = s.tc ∧ (setTack f s).ethPorts = s.ethPorts ∧ (setTack f s).domains = s.domains ∧ (setTack f s).pulses = s.pulses ∧ (setTack f s).watches = s.watches ∧ (setTack f s).hks = s.hks ∧ (setTack f s).hkCtl = s.hkCtl ∧ (setTack f s).feeds = s.feeds ∧ (setTack f s).tally = s.tally ∧ (setTack f s).hbm = s.hbm ∧ (setTack f s).library = s.library ∧ (setTack f s).descs = s.descs ∧ (setTack f s).kernels = s.kernels ∧ (setTack f s).store = s.store ∧ (setTack f s).held = s.held ∧ (setTack f s).latched = s.latched ∧ (setTack f s).freeCtr = s.freeCtr :=
  ⟨rfl, rfl, rfl, rfl, rfl, rfl, rfl, rfl, rfl, rfl, rfl, rfl, rfl, rfl, rfl, rfl, rfl, rfl, rfl, rfl, rfl, rfl, rfl, rfl, rfl, rfl, rfl, rfl, rfl, rfl, rfl, rfl, rfl, rfl, rfl, rfl, rfl, rfl, rfl, rfl, rfl, rfl, rfl, rfl, rfl, rfl, rfl, rfl, rfl, rfl, rfl, rfl, rfl, rfl⟩

@[simp] theorem setTack_tack (f : Tack → Tack) (s : State) : (setTack f s).tack = f s.tack := rfl

@[simp] theorem setHub_keeps (f : Hub → Hub) (s : State) :
    (setHub f s).pending = s.pending ∧ (setHub f s).clock = s.clock ∧ (setHub f s).host = s.host ∧ (setHub f s).funcs = s.funcs ∧ (setHub f s).irqs = s.irqs ∧ (setHub f s).power = s.power ∧ (setHub f s).backup = s.backup ∧ (setHub f s).persist = s.persist ∧ (setHub f s).tack = s.tack ∧ (setHub f s).spine = s.spine ∧ (setHub f s).herdImage = s.herdImage ∧ (setHub f s).hubImage = s.hubImage ∧ (setHub f s).stallImages = s.stallImages ∧ (setHub f s).stalls = s.stalls ∧ (setHub f s).gaits = s.gaits ∧ (setHub f s).slices = s.slices ∧ (setHub f s).acqs = s.acqs ∧ (setHub f s).voices = s.voices ∧ (setHub f s).seqs = s.seqs ∧ (setHub f s).chans = s.chans ∧ (setHub f s).units = s.units ∧ (setHub f s).nodes = s.nodes ∧ (setHub f s).cells = s.cells ∧ (setHub f s).books = s.books ∧ (setHub f s).flights = s.flights ∧ (setHub f s).nextFlight = s.nextFlight ∧ (setHub f s).riders = s.riders ∧ (setHub f s).lines = s.lines ∧ (setHub f s).fasts = s.fasts ∧ (setHub f s).groups = s.groups ∧ (setHub f s).queues = s.queues ∧ (setHub f s).qdir = s.qdir ∧ (setHub f s).farriers = s.farriers ∧ (setHub f s).trims = s.trims ∧ (setHub f s).shotAudits = s.shotAudits ∧ (setHub f s).lanes = s.lanes ∧ (setHub f s).tether = s.tether ∧ (setHub f s).tc = s.tc ∧ (setHub f s).ethPorts = s.ethPorts ∧ (setHub f s).domains = s.domains ∧ (setHub f s).pulses = s.pulses ∧ (setHub f s).watches = s.watches ∧ (setHub f s).hks = s.hks ∧ (setHub f s).hkCtl = s.hkCtl ∧ (setHub f s).feeds = s.feeds ∧ (setHub f s).tally = s.tally ∧ (setHub f s).hbm = s.hbm ∧ (setHub f s).library = s.library ∧ (setHub f s).descs = s.descs ∧ (setHub f s).kernels = s.kernels ∧ (setHub f s).store = s.store ∧ (setHub f s).held = s.held ∧ (setHub f s).latched = s.latched ∧ (setHub f s).freeCtr = s.freeCtr :=
  ⟨rfl, rfl, rfl, rfl, rfl, rfl, rfl, rfl, rfl, rfl, rfl, rfl, rfl, rfl, rfl, rfl, rfl, rfl, rfl, rfl, rfl, rfl, rfl, rfl, rfl, rfl, rfl, rfl, rfl, rfl, rfl, rfl, rfl, rfl, rfl, rfl, rfl, rfl, rfl, rfl, rfl, rfl, rfl, rfl, rfl, rfl, rfl, rfl, rfl, rfl, rfl, rfl, rfl, rfl⟩

@[simp] theorem setHub_hub (f : Hub → Hub) (s : State) : (setHub f s).hub = f s.hub := rfl

@[simp] theorem setQdir_keeps (f : Qdir → Qdir) (s : State) :
    (setQdir f s).pending = s.pending ∧ (setQdir f s).clock = s.clock ∧ (setQdir f s).host = s.host ∧ (setQdir f s).funcs = s.funcs ∧ (setQdir f s).irqs = s.irqs ∧ (setQdir f s).power = s.power ∧ (setQdir f s).backup = s.backup ∧ (setQdir f s).persist = s.persist ∧ (setQdir f s).tack = s.tack ∧ (setQdir f s).spine = s.spine ∧ (setQdir f s).herdImage = s.herdImage ∧ (setQdir f s).hubImage = s.hubImage ∧ (setQdir f s).stallImages = s.stallImages ∧ (setQdir f s).stalls = s.stalls ∧ (setQdir f s).gaits = s.gaits ∧ (setQdir f s).slices = s.slices ∧ (setQdir f s).acqs = s.acqs ∧ (setQdir f s).voices = s.voices ∧ (setQdir f s).seqs = s.seqs ∧ (setQdir f s).chans = s.chans ∧ (setQdir f s).units = s.units ∧ (setQdir f s).nodes = s.nodes ∧ (setQdir f s).cells = s.cells ∧ (setQdir f s).books = s.books ∧ (setQdir f s).flights = s.flights ∧ (setQdir f s).nextFlight = s.nextFlight ∧ (setQdir f s).hub = s.hub ∧ (setQdir f s).riders = s.riders ∧ (setQdir f s).lines = s.lines ∧ (setQdir f s).fasts = s.fasts ∧ (setQdir f s).groups = s.groups ∧ (setQdir f s).queues = s.queues ∧ (setQdir f s).farriers = s.farriers ∧ (setQdir f s).trims = s.trims ∧ (setQdir f s).shotAudits = s.shotAudits ∧ (setQdir f s).lanes = s.lanes ∧ (setQdir f s).tether = s.tether ∧ (setQdir f s).tc = s.tc ∧ (setQdir f s).ethPorts = s.ethPorts ∧ (setQdir f s).domains = s.domains ∧ (setQdir f s).pulses = s.pulses ∧ (setQdir f s).watches = s.watches ∧ (setQdir f s).hks = s.hks ∧ (setQdir f s).hkCtl = s.hkCtl ∧ (setQdir f s).feeds = s.feeds ∧ (setQdir f s).tally = s.tally ∧ (setQdir f s).hbm = s.hbm ∧ (setQdir f s).library = s.library ∧ (setQdir f s).descs = s.descs ∧ (setQdir f s).kernels = s.kernels ∧ (setQdir f s).store = s.store ∧ (setQdir f s).held = s.held ∧ (setQdir f s).latched = s.latched ∧ (setQdir f s).freeCtr = s.freeCtr :=
  ⟨rfl, rfl, rfl, rfl, rfl, rfl, rfl, rfl, rfl, rfl, rfl, rfl, rfl, rfl, rfl, rfl, rfl, rfl, rfl, rfl, rfl, rfl, rfl, rfl, rfl, rfl, rfl, rfl, rfl, rfl, rfl, rfl, rfl, rfl, rfl, rfl, rfl, rfl, rfl, rfl, rfl, rfl, rfl, rfl, rfl, rfl, rfl, rfl, rfl, rfl, rfl, rfl, rfl, rfl⟩

@[simp] theorem setQdir_qdir (f : Qdir → Qdir) (s : State) : (setQdir f s).qdir = f s.qdir := rfl

@[simp] theorem setTether_keeps (f : TetherCtl → TetherCtl) (s : State) :
    (setTether f s).pending = s.pending ∧ (setTether f s).clock = s.clock ∧ (setTether f s).host = s.host ∧ (setTether f s).funcs = s.funcs ∧ (setTether f s).irqs = s.irqs ∧ (setTether f s).power = s.power ∧ (setTether f s).backup = s.backup ∧ (setTether f s).persist = s.persist ∧ (setTether f s).tack = s.tack ∧ (setTether f s).spine = s.spine ∧ (setTether f s).herdImage = s.herdImage ∧ (setTether f s).hubImage = s.hubImage ∧ (setTether f s).stallImages = s.stallImages ∧ (setTether f s).stalls = s.stalls ∧ (setTether f s).gaits = s.gaits ∧ (setTether f s).slices = s.slices ∧ (setTether f s).acqs = s.acqs ∧ (setTether f s).voices = s.voices ∧ (setTether f s).seqs = s.seqs ∧ (setTether f s).chans = s.chans ∧ (setTether f s).units = s.units ∧ (setTether f s).nodes = s.nodes ∧ (setTether f s).cells = s.cells ∧ (setTether f s).books = s.books ∧ (setTether f s).flights = s.flights ∧ (setTether f s).nextFlight = s.nextFlight ∧ (setTether f s).hub = s.hub ∧ (setTether f s).riders = s.riders ∧ (setTether f s).lines = s.lines ∧ (setTether f s).fasts = s.fasts ∧ (setTether f s).groups = s.groups ∧ (setTether f s).queues = s.queues ∧ (setTether f s).qdir = s.qdir ∧ (setTether f s).farriers = s.farriers ∧ (setTether f s).trims = s.trims ∧ (setTether f s).shotAudits = s.shotAudits ∧ (setTether f s).lanes = s.lanes ∧ (setTether f s).tc = s.tc ∧ (setTether f s).ethPorts = s.ethPorts ∧ (setTether f s).domains = s.domains ∧ (setTether f s).pulses = s.pulses ∧ (setTether f s).watches = s.watches ∧ (setTether f s).hks = s.hks ∧ (setTether f s).hkCtl = s.hkCtl ∧ (setTether f s).feeds = s.feeds ∧ (setTether f s).tally = s.tally ∧ (setTether f s).hbm = s.hbm ∧ (setTether f s).library = s.library ∧ (setTether f s).descs = s.descs ∧ (setTether f s).kernels = s.kernels ∧ (setTether f s).store = s.store ∧ (setTether f s).held = s.held ∧ (setTether f s).latched = s.latched ∧ (setTether f s).freeCtr = s.freeCtr :=
  ⟨rfl, rfl, rfl, rfl, rfl, rfl, rfl, rfl, rfl, rfl, rfl, rfl, rfl, rfl, rfl, rfl, rfl, rfl, rfl, rfl, rfl, rfl, rfl, rfl, rfl, rfl, rfl, rfl, rfl, rfl, rfl, rfl, rfl, rfl, rfl, rfl, rfl, rfl, rfl, rfl, rfl, rfl, rfl, rfl, rfl, rfl, rfl, rfl, rfl, rfl, rfl, rfl, rfl, rfl⟩

@[simp] theorem setTether_tether (f : TetherCtl → TetherCtl) (s : State) : (setTether f s).tether = f s.tether := rfl

@[simp] theorem setTime_keeps (f : TimeCtl → TimeCtl) (s : State) :
    (setTime f s).pending = s.pending ∧ (setTime f s).clock = s.clock ∧ (setTime f s).host = s.host ∧ (setTime f s).funcs = s.funcs ∧ (setTime f s).irqs = s.irqs ∧ (setTime f s).power = s.power ∧ (setTime f s).backup = s.backup ∧ (setTime f s).persist = s.persist ∧ (setTime f s).tack = s.tack ∧ (setTime f s).spine = s.spine ∧ (setTime f s).herdImage = s.herdImage ∧ (setTime f s).hubImage = s.hubImage ∧ (setTime f s).stallImages = s.stallImages ∧ (setTime f s).stalls = s.stalls ∧ (setTime f s).gaits = s.gaits ∧ (setTime f s).slices = s.slices ∧ (setTime f s).acqs = s.acqs ∧ (setTime f s).voices = s.voices ∧ (setTime f s).seqs = s.seqs ∧ (setTime f s).chans = s.chans ∧ (setTime f s).units = s.units ∧ (setTime f s).nodes = s.nodes ∧ (setTime f s).cells = s.cells ∧ (setTime f s).books = s.books ∧ (setTime f s).flights = s.flights ∧ (setTime f s).nextFlight = s.nextFlight ∧ (setTime f s).hub = s.hub ∧ (setTime f s).riders = s.riders ∧ (setTime f s).lines = s.lines ∧ (setTime f s).fasts = s.fasts ∧ (setTime f s).groups = s.groups ∧ (setTime f s).queues = s.queues ∧ (setTime f s).qdir = s.qdir ∧ (setTime f s).farriers = s.farriers ∧ (setTime f s).trims = s.trims ∧ (setTime f s).shotAudits = s.shotAudits ∧ (setTime f s).lanes = s.lanes ∧ (setTime f s).tether = s.tether ∧ (setTime f s).ethPorts = s.ethPorts ∧ (setTime f s).domains = s.domains ∧ (setTime f s).pulses = s.pulses ∧ (setTime f s).watches = s.watches ∧ (setTime f s).hks = s.hks ∧ (setTime f s).hkCtl = s.hkCtl ∧ (setTime f s).feeds = s.feeds ∧ (setTime f s).tally = s.tally ∧ (setTime f s).hbm = s.hbm ∧ (setTime f s).library = s.library ∧ (setTime f s).descs = s.descs ∧ (setTime f s).kernels = s.kernels ∧ (setTime f s).store = s.store ∧ (setTime f s).held = s.held ∧ (setTime f s).latched = s.latched ∧ (setTime f s).freeCtr = s.freeCtr :=
  ⟨rfl, rfl, rfl, rfl, rfl, rfl, rfl, rfl, rfl, rfl, rfl, rfl, rfl, rfl, rfl, rfl, rfl, rfl, rfl, rfl, rfl, rfl, rfl, rfl, rfl, rfl, rfl, rfl, rfl, rfl, rfl, rfl, rfl, rfl, rfl, rfl, rfl, rfl, rfl, rfl, rfl, rfl, rfl, rfl, rfl, rfl, rfl, rfl, rfl, rfl, rfl, rfl, rfl, rfl⟩

@[simp] theorem setTime_tc (f : TimeCtl → TimeCtl) (s : State) : (setTime f s).tc = f s.tc := rfl

@[simp] theorem setTally_keeps (f : Tally → Tally) (s : State) :
    (setTally f s).pending = s.pending ∧ (setTally f s).clock = s.clock ∧ (setTally f s).host = s.host ∧ (setTally f s).funcs = s.funcs ∧ (setTally f s).irqs = s.irqs ∧ (setTally f s).power = s.power ∧ (setTally f s).backup = s.backup ∧ (setTally f s).persist = s.persist ∧ (setTally f s).tack = s.tack ∧ (setTally f s).spine = s.spine ∧ (setTally f s).herdImage = s.herdImage ∧ (setTally f s).hubImage = s.hubImage ∧ (setTally f s).stallImages = s.stallImages ∧ (setTally f s).stalls = s.stalls ∧ (setTally f s).gaits = s.gaits ∧ (setTally f s).slices = s.slices ∧ (setTally f s).acqs = s.acqs ∧ (setTally f s).voices = s.voices ∧ (setTally f s).seqs = s.seqs ∧ (setTally f s).chans = s.chans ∧ (setTally f s).units = s.units ∧ (setTally f s).nodes = s.nodes ∧ (setTally f s).cells = s.cells ∧ (setTally f s).books = s.books ∧ (setTally f s).flights = s.flights ∧ (setTally f s).nextFlight = s.nextFlight ∧ (setTally f s).hub = s.hub ∧ (setTally f s).riders = s.riders ∧ (setTally f s).lines = s.lines ∧ (setTally f s).fasts = s.fasts ∧ (setTally f s).groups = s.groups ∧ (setTally f s).queues = s.queues ∧ (setTally f s).qdir = s.qdir ∧ (setTally f s).farriers = s.farriers ∧ (setTally f s).trims = s.trims ∧ (setTally f s).shotAudits = s.shotAudits ∧ (setTally f s).lanes = s.lanes ∧ (setTally f s).tether = s.tether ∧ (setTally f s).tc = s.tc ∧ (setTally f s).ethPorts = s.ethPorts ∧ (setTally f s).domains = s.domains ∧ (setTally f s).pulses = s.pulses ∧ (setTally f s).watches = s.watches ∧ (setTally f s).hks = s.hks ∧ (setTally f s).hkCtl = s.hkCtl ∧ (setTally f s).feeds = s.feeds ∧ (setTally f s).hbm = s.hbm ∧ (setTally f s).library = s.library ∧ (setTally f s).descs = s.descs ∧ (setTally f s).kernels = s.kernels ∧ (setTally f s).store = s.store ∧ (setTally f s).held = s.held ∧ (setTally f s).latched = s.latched ∧ (setTally f s).freeCtr = s.freeCtr :=
  ⟨rfl, rfl, rfl, rfl, rfl, rfl, rfl, rfl, rfl, rfl, rfl, rfl, rfl, rfl, rfl, rfl, rfl, rfl, rfl, rfl, rfl, rfl, rfl, rfl, rfl, rfl, rfl, rfl, rfl, rfl, rfl, rfl, rfl, rfl, rfl, rfl, rfl, rfl, rfl, rfl, rfl, rfl, rfl, rfl, rfl, rfl, rfl, rfl, rfl, rfl, rfl, rfl, rfl, rfl⟩

@[simp] theorem setTally_tally (f : Tally → Tally) (s : State) : (setTally f s).tally = f s.tally := rfl

@[simp] theorem setHk_keeps (f : HkCtl → HkCtl) (s : State) :
    (setHk f s).pending = s.pending ∧ (setHk f s).clock = s.clock ∧ (setHk f s).host = s.host ∧ (setHk f s).funcs = s.funcs ∧ (setHk f s).irqs = s.irqs ∧ (setHk f s).power = s.power ∧ (setHk f s).backup = s.backup ∧ (setHk f s).persist = s.persist ∧ (setHk f s).tack = s.tack ∧ (setHk f s).spine = s.spine ∧ (setHk f s).herdImage = s.herdImage ∧ (setHk f s).hubImage = s.hubImage ∧ (setHk f s).stallImages = s.stallImages ∧ (setHk f s).stalls = s.stalls ∧ (setHk f s).gaits = s.gaits ∧ (setHk f s).slices = s.slices ∧ (setHk f s).acqs = s.acqs ∧ (setHk f s).voices = s.voices ∧ (setHk f s).seqs = s.seqs ∧ (setHk f s).chans = s.chans ∧ (setHk f s).units = s.units ∧ (setHk f s).nodes = s.nodes ∧ (setHk f s).cells = s.cells ∧ (setHk f s).books = s.books ∧ (setHk f s).flights = s.flights ∧ (setHk f s).nextFlight = s.nextFlight ∧ (setHk f s).hub = s.hub ∧ (setHk f s).riders = s.riders ∧ (setHk f s).lines = s.lines ∧ (setHk f s).fasts = s.fasts ∧ (setHk f s).groups = s.groups ∧ (setHk f s).queues = s.queues ∧ (setHk f s).qdir = s.qdir ∧ (setHk f s).farriers = s.farriers ∧ (setHk f s).trims = s.trims ∧ (setHk f s).shotAudits = s.shotAudits ∧ (setHk f s).lanes = s.lanes ∧ (setHk f s).tether = s.tether ∧ (setHk f s).tc = s.tc ∧ (setHk f s).ethPorts = s.ethPorts ∧ (setHk f s).domains = s.domains ∧ (setHk f s).pulses = s.pulses ∧ (setHk f s).watches = s.watches ∧ (setHk f s).hks = s.hks ∧ (setHk f s).feeds = s.feeds ∧ (setHk f s).tally = s.tally ∧ (setHk f s).hbm = s.hbm ∧ (setHk f s).library = s.library ∧ (setHk f s).descs = s.descs ∧ (setHk f s).kernels = s.kernels ∧ (setHk f s).store = s.store ∧ (setHk f s).held = s.held ∧ (setHk f s).latched = s.latched ∧ (setHk f s).freeCtr = s.freeCtr :=
  ⟨rfl, rfl, rfl, rfl, rfl, rfl, rfl, rfl, rfl, rfl, rfl, rfl, rfl, rfl, rfl, rfl, rfl, rfl, rfl, rfl, rfl, rfl, rfl, rfl, rfl, rfl, rfl, rfl, rfl, rfl, rfl, rfl, rfl, rfl, rfl, rfl, rfl, rfl, rfl, rfl, rfl, rfl, rfl, rfl, rfl, rfl, rfl, rfl, rfl, rfl, rfl, rfl, rfl, rfl⟩

@[simp] theorem setHk_hkCtl (f : HkCtl → HkCtl) (s : State) : (setHk f s).hkCtl = f s.hkCtl := rfl

@[simp] theorem setPersist_keeps (f : Persist → Persist) (s : State) :
    (setPersist f s).pending = s.pending ∧ (setPersist f s).clock = s.clock ∧ (setPersist f s).host = s.host ∧ (setPersist f s).funcs = s.funcs ∧ (setPersist f s).irqs = s.irqs ∧ (setPersist f s).power = s.power ∧ (setPersist f s).backup = s.backup ∧ (setPersist f s).tack = s.tack ∧ (setPersist f s).spine = s.spine ∧ (setPersist f s).herdImage = s.herdImage ∧ (setPersist f s).hubImage = s.hubImage ∧ (setPersist f s).stallImages = s.stallImages ∧ (setPersist f s).stalls = s.stalls ∧ (setPersist f s).gaits = s.gaits ∧ (setPersist f s).slices = s.slices ∧ (setPersist f s).acqs = s.acqs ∧ (setPersist f s).voices = s.voices ∧ (setPersist f s).seqs = s.seqs ∧ (setPersist f s).chans = s.chans ∧ (setPersist f s).units = s.units ∧ (setPersist f s).nodes = s.nodes ∧ (setPersist f s).cells = s.cells ∧ (setPersist f s).books = s.books ∧ (setPersist f s).flights = s.flights ∧ (setPersist f s).nextFlight = s.nextFlight ∧ (setPersist f s).hub = s.hub ∧ (setPersist f s).riders = s.riders ∧ (setPersist f s).lines = s.lines ∧ (setPersist f s).fasts = s.fasts ∧ (setPersist f s).groups = s.groups ∧ (setPersist f s).queues = s.queues ∧ (setPersist f s).qdir = s.qdir ∧ (setPersist f s).farriers = s.farriers ∧ (setPersist f s).trims = s.trims ∧ (setPersist f s).shotAudits = s.shotAudits ∧ (setPersist f s).lanes = s.lanes ∧ (setPersist f s).tether = s.tether ∧ (setPersist f s).tc = s.tc ∧ (setPersist f s).ethPorts = s.ethPorts ∧ (setPersist f s).domains = s.domains ∧ (setPersist f s).pulses = s.pulses ∧ (setPersist f s).watches = s.watches ∧ (setPersist f s).hks = s.hks ∧ (setPersist f s).hkCtl = s.hkCtl ∧ (setPersist f s).feeds = s.feeds ∧ (setPersist f s).tally = s.tally ∧ (setPersist f s).hbm = s.hbm ∧ (setPersist f s).library = s.library ∧ (setPersist f s).descs = s.descs ∧ (setPersist f s).kernels = s.kernels ∧ (setPersist f s).store = s.store ∧ (setPersist f s).held = s.held ∧ (setPersist f s).latched = s.latched ∧ (setPersist f s).freeCtr = s.freeCtr :=
  ⟨rfl, rfl, rfl, rfl, rfl, rfl, rfl, rfl, rfl, rfl, rfl, rfl, rfl, rfl, rfl, rfl, rfl, rfl, rfl, rfl, rfl, rfl, rfl, rfl, rfl, rfl, rfl, rfl, rfl, rfl, rfl, rfl, rfl, rfl, rfl, rfl, rfl, rfl, rfl, rfl, rfl, rfl, rfl, rfl, rfl, rfl, rfl, rfl, rfl, rfl, rfl, rfl, rfl, rfl⟩

@[simp] theorem setPersist_persist (f : Persist → Persist) (s : State) : (setPersist f s).persist = f s.persist := rfl

@[simp] theorem setBackup_keeps (f : Backup → Backup) (s : State) :
    (setBackup f s).pending = s.pending ∧ (setBackup f s).clock = s.clock ∧ (setBackup f s).host = s.host ∧ (setBackup f s).funcs = s.funcs ∧ (setBackup f s).irqs = s.irqs ∧ (setBackup f s).power = s.power ∧ (setBackup f s).persist = s.persist ∧ (setBackup f s).tack = s.tack ∧ (setBackup f s).spine = s.spine ∧ (setBackup f s).herdImage = s.herdImage ∧ (setBackup f s).hubImage = s.hubImage ∧ (setBackup f s).stallImages = s.stallImages ∧ (setBackup f s).stalls = s.stalls ∧ (setBackup f s).gaits = s.gaits ∧ (setBackup f s).slices = s.slices ∧ (setBackup f s).acqs = s.acqs ∧ (setBackup f s).voices = s.voices ∧ (setBackup f s).seqs = s.seqs ∧ (setBackup f s).chans = s.chans ∧ (setBackup f s).units = s.units ∧ (setBackup f s).nodes = s.nodes ∧ (setBackup f s).cells = s.cells ∧ (setBackup f s).books = s.books ∧ (setBackup f s).flights = s.flights ∧ (setBackup f s).nextFlight = s.nextFlight ∧ (setBackup f s).hub = s.hub ∧ (setBackup f s).riders = s.riders ∧ (setBackup f s).lines = s.lines ∧ (setBackup f s).fasts = s.fasts ∧ (setBackup f s).groups = s.groups ∧ (setBackup f s).queues = s.queues ∧ (setBackup f s).qdir = s.qdir ∧ (setBackup f s).farriers = s.farriers ∧ (setBackup f s).trims = s.trims ∧ (setBackup f s).shotAudits = s.shotAudits ∧ (setBackup f s).lanes = s.lanes ∧ (setBackup f s).tether = s.tether ∧ (setBackup f s).tc = s.tc ∧ (setBackup f s).ethPorts = s.ethPorts ∧ (setBackup f s).domains = s.domains ∧ (setBackup f s).pulses = s.pulses ∧ (setBackup f s).watches = s.watches ∧ (setBackup f s).hks = s.hks ∧ (setBackup f s).hkCtl = s.hkCtl ∧ (setBackup f s).feeds = s.feeds ∧ (setBackup f s).tally = s.tally ∧ (setBackup f s).hbm = s.hbm ∧ (setBackup f s).library = s.library ∧ (setBackup f s).descs = s.descs ∧ (setBackup f s).kernels = s.kernels ∧ (setBackup f s).store = s.store ∧ (setBackup f s).held = s.held ∧ (setBackup f s).latched = s.latched ∧ (setBackup f s).freeCtr = s.freeCtr :=
  ⟨rfl, rfl, rfl, rfl, rfl, rfl, rfl, rfl, rfl, rfl, rfl, rfl, rfl, rfl, rfl, rfl, rfl, rfl, rfl, rfl, rfl, rfl, rfl, rfl, rfl, rfl, rfl, rfl, rfl, rfl, rfl, rfl, rfl, rfl, rfl, rfl, rfl, rfl, rfl, rfl, rfl, rfl, rfl, rfl, rfl, rfl, rfl, rfl, rfl, rfl, rfl, rfl, rfl, rfl⟩

@[simp] theorem setBackup_backup (f : Backup → Backup) (s : State) : (setBackup f s).backup = f s.backup := rfl

@[simp] theorem drawn_keeps (k : Nat) (s : State) :
    (drawn k s).pending = s.pending ∧ (drawn k s).clock = s.clock ∧ (drawn k s).host = s.host ∧ (drawn k s).funcs = s.funcs ∧ (drawn k s).irqs = s.irqs ∧ (drawn k s).power = s.power ∧ (drawn k s).backup = s.backup ∧ (drawn k s).persist = s.persist ∧ (drawn k s).tack = s.tack ∧ (drawn k s).spine = s.spine ∧ (drawn k s).herdImage = s.herdImage ∧ (drawn k s).hubImage = s.hubImage ∧ (drawn k s).stallImages = s.stallImages ∧ (drawn k s).stalls = s.stalls ∧ (drawn k s).gaits = s.gaits ∧ (drawn k s).slices = s.slices ∧ (drawn k s).acqs = s.acqs ∧ (drawn k s).voices = s.voices ∧ (drawn k s).seqs = s.seqs ∧ (drawn k s).chans = s.chans ∧ (drawn k s).units = s.units ∧ (drawn k s).nodes = s.nodes ∧ (drawn k s).cells = s.cells ∧ (drawn k s).books = s.books ∧ (drawn k s).flights = s.flights ∧ (drawn k s).nextFlight = s.nextFlight ∧ (drawn k s).hub = s.hub ∧ (drawn k s).riders = s.riders ∧ (drawn k s).lines = s.lines ∧ (drawn k s).fasts = s.fasts ∧ (drawn k s).groups = s.groups ∧ (drawn k s).queues = s.queues ∧ (drawn k s).qdir = s.qdir ∧ (drawn k s).farriers = s.farriers ∧ (drawn k s).trims = s.trims ∧ (drawn k s).shotAudits = s.shotAudits ∧ (drawn k s).lanes = s.lanes ∧ (drawn k s).tether = s.tether ∧ (drawn k s).tc = s.tc ∧ (drawn k s).ethPorts = s.ethPorts ∧ (drawn k s).domains = s.domains ∧ (drawn k s).pulses = s.pulses ∧ (drawn k s).watches = s.watches ∧ (drawn k s).hks = s.hks ∧ (drawn k s).hkCtl = s.hkCtl ∧ (drawn k s).feeds = s.feeds ∧ (drawn k s).tally = s.tally ∧ (drawn k s).hbm = s.hbm ∧ (drawn k s).library = s.library ∧ (drawn k s).descs = s.descs ∧ (drawn k s).kernels = s.kernels ∧ (drawn k s).store = s.store ∧ (drawn k s).held = s.held ∧ (drawn k s).latched = s.latched :=
  ⟨rfl, rfl, rfl, rfl, rfl, rfl, rfl, rfl, rfl, rfl, rfl, rfl, rfl, rfl, rfl, rfl, rfl, rfl, rfl, rfl, rfl, rfl, rfl, rfl, rfl, rfl, rfl, rfl, rfl, rfl, rfl, rfl, rfl, rfl, rfl, rfl, rfl, rfl, rfl, rfl, rfl, rfl, rfl, rfl, rfl, rfl, rfl, rfl, rfl, rfl, rfl, rfl, rfl, rfl⟩

@[simp] theorem drawn_freeCtr (k : Nat) (s : State) : (drawn k s).freeCtr = s.freeCtr + k := rfl

/-! ## Reads after updates -/

@[simp] theorem getStall_modStall (n : StallId) (f : StallCtl → StallCtl) (s : State) : getStall (modStall n f s) n = f (getStall s n) := by
  simp [getStall, modStall]

theorem getStall_modStall_ne (n : StallId) (f : StallCtl → StallCtl) (n' : StallId) (s : State) (h : n.val ≠ n'.val) : getStall (modStall n f s) n' = getStall s n' := by
  simp [getStall, modStall, tabGet_tabMod_ne h]

@[simp] theorem getGait_modGait (n : StallId) (f : Gait → Gait) (s : State) : getGait (modGait n f s) n = f (getGait s n) := by
  simp [getGait, modGait]

theorem getGait_modGait_ne (n : StallId) (f : Gait → Gait) (n' : StallId) (s : State) (h : n.val ≠ n'.val) : getGait (modGait n f s) n' = getGait s n' := by
  simp [getGait, modGait, tabGet_tabMod_ne h]

@[simp] theorem getSlice_modSlice (i : SliceId) (f : Slice → Slice) (s : State) : getSlice (modSlice i f s) i = f (getSlice s i) := by
  simp [getSlice, modSlice]

theorem getSlice_modSlice_ne (i : SliceId) (f : Slice → Slice) (i' : SliceId) (s : State) (h : (sliceKey i) ≠ (sliceKey i')) : getSlice (modSlice i f s) i' = getSlice s i' := by
  simp [getSlice, modSlice, tabGet_tabMod_ne h]

@[simp] theorem getAcq_modAcq (n : StallId) (k : Fin 5) (f : AcqSlice → AcqSlice) (s : State) : getAcq (modAcq n k f s) n k = f (getAcq s n k) := by
  simp [getAcq, modAcq]

theorem getAcq_modAcq_ne (n : StallId) (k : Fin 5) (f : AcqSlice → AcqSlice) (n' : StallId) (k' : Fin 5) (s : State) (h : (acqKey n k) ≠ (acqKey n' k')) : getAcq (modAcq n k f s) n' k' = getAcq s n' k' := by
  simp [getAcq, modAcq, tabGet_tabMod_ne h]

@[simp] theorem getVoice_modVoice (v : VoiceId) (f : Voice → Voice) (s : State) : getVoice (modVoice v f s) v = f (getVoice s v) := by
  simp [getVoice, modVoice]

theorem getVoice_modVoice_ne (v : VoiceId) (f : Voice → Voice) (v' : VoiceId) (s : State) (h : (voiceKey v) ≠ (voiceKey v')) : getVoice (modVoice v f s) v' = getVoice s v' := by
  simp [getVoice, modVoice, tabGet_tabMod_ne h]

@[simp] theorem getSeq_modSeq (v : VoiceId) (f : Seq → Seq) (s : State) : getSeq (modSeq v f s) v = f (getSeq s v) := by
  simp [getSeq, modSeq]

theorem getSeq_modSeq_ne (v : VoiceId) (f : Seq → Seq) (v' : VoiceId) (s : State) (h : (voiceKey v) ≠ (voiceKey v')) : getSeq (modSeq v f s) v' = getSeq s v' := by
  simp [getSeq, modSeq, tabGet_tabMod_ne h]

@[simp] theorem getChan_modChan (c : ChanId) (f : Channel → Channel) (s : State) : getChan (modChan c f s) c = f (getChan s c) := by
  simp [getChan, modChan]

theorem getChan_modChan_ne (c : ChanId) (f : Channel → Channel) (c' : ChanId) (s : State) (h : (chanKey c) ≠ (chanKey c')) : getChan (modChan c f s) c' = getChan s c' := by
  simp [getChan, modChan, tabGet_tabMod_ne h]

@[simp] theorem getUnit_modUnit (u : UnitId) (f : CapUnit → CapUnit) (s : State) : getUnit (modUnit u f s) u = f (getUnit s u) := by
  simp [getUnit, modUnit]

theorem getUnit_modUnit_ne (u : UnitId) (f : CapUnit → CapUnit) (u' : UnitId) (s : State) (h : (unitKey u) ≠ (unitKey u')) : getUnit (modUnit u f s) u' = getUnit s u' := by
  simp [getUnit, modUnit, tabGet_tabMod_ne h]

@[simp] theorem getNode_modNode (n : StallId) (f : Node → Node) (s : State) : getNode (modNode n f s) n = f (getNode s n) := by
  simp [getNode, modNode]

theorem getNode_modNode_ne (n : StallId) (f : Node → Node) (n' : StallId) (s : State) (h : n.val ≠ n'.val) : getNode (modNode n f s) n' = getNode s n' := by
  simp [getNode, modNode, tabGet_tabMod_ne h]

@[simp] theorem getCell_modCell (c : CellId) (f : Cell → Cell) (s : State) : getCell (modCell c f s) c = f (getCell s c) := by
  simp [getCell, modCell]

theorem getCell_modCell_ne (c : CellId) (f : Cell → Cell) (c' : CellId) (s : State) (h : (cellKey c) ≠ (cellKey c')) : getCell (modCell c f s) c' = getCell s c' := by
  simp [getCell, modCell, tabGet_tabMod_ne h]

@[simp] theorem getBook_modBook (e : ReinChan) (f : Book → Book) (s : State) : getBook (modBook e f s) e = f (getBook s e) := by
  simp [getBook, modBook]

theorem getBook_modBook_ne (e : ReinChan) (f : Book → Book) (e' : ReinChan) (s : State) (h : e.toNat ≠ e'.toNat) : getBook (modBook e f s) e' = getBook s e' := by
  simp [getBook, modBook, tabGet_tabMod_ne h]

@[simp] theorem getRider_modRider (r : RiderId) (f : Rider → Rider) (s : State) : getRider (modRider r f s) r = f (getRider s r) := by
  simp [getRider, modRider]

theorem getRider_modRider_ne (r : RiderId) (f : Rider → Rider) (r' : RiderId) (s : State) (h : (riderKey r) ≠ (riderKey r')) : getRider (modRider r f s) r' = getRider s r' := by
  simp [getRider, modRider, tabGet_tabMod_ne h]

@[simp] theorem getLine_modLine (l : LineId) (f : Line → Line) (s : State) : getLine (modLine l f s) l = f (getLine s l) := by
  simp [getLine, modLine]

theorem getLine_modLine_ne (l : LineId) (f : Line → Line) (l' : LineId) (s : State) (h : (lineKey l) ≠ (lineKey l')) : getLine (modLine l f s) l' = getLine s l' := by
  simp [getLine, modLine, tabGet_tabMod_ne h]

@[simp] theorem getFast_modFast (l : LineId) (f : Fast → Fast) (s : State) : getFast (modFast l f s) l = f (getFast s l) := by
  simp [getFast, modFast]

theorem getFast_modFast_ne (l : LineId) (f : Fast → Fast) (l' : LineId) (s : State) (h : (lineKey l) ≠ (lineKey l')) : getFast (modFast l f s) l' = getFast s l' := by
  simp [getFast, modFast, tabGet_tabMod_ne h]

@[simp] theorem getGroup_modGroup (g : GroupId) (f : Group → Group) (s : State) : getGroup (modGroup g f s) g = f (getGroup s g) := by
  simp [getGroup, modGroup]

theorem getGroup_modGroup_ne (g : GroupId) (f : Group → Group) (g' : GroupId) (s : State) (h : (groupKey g) ≠ (groupKey g')) : getGroup (modGroup g f s) g' = getGroup s g' := by
  simp [getGroup, modGroup, tabGet_tabMod_ne h]

@[simp] theorem getQueue_modQueue (q : QueueId) (f : Queue → Queue) (s : State) : getQueue (modQueue q f s) q = f (getQueue s q) := by
  simp [getQueue, modQueue]

theorem getQueue_modQueue_ne (q : QueueId) (f : Queue → Queue) (q' : QueueId) (s : State) (h : q.toNat ≠ q'.toNat) : getQueue (modQueue q f s) q' = getQueue s q' := by
  simp [getQueue, modQueue, tabGet_tabMod_ne h]

@[simp] theorem getFarrier_modFarrier (n : StallId) (f : Farrier → Farrier) (s : State) : getFarrier (modFarrier n f s) n = f (getFarrier s n) := by
  simp [getFarrier, modFarrier]

theorem getFarrier_modFarrier_ne (n : StallId) (f : Farrier → Farrier) (n' : StallId) (s : State) (h : n.val ≠ n'.val) : getFarrier (modFarrier n f s) n' = getFarrier s n' := by
  simp [getFarrier, modFarrier, tabGet_tabMod_ne h]

@[simp] theorem getTrims_modTrims (n : StallId) (f : Trims → Trims) (s : State) : getTrims (modTrims n f s) n = f (getTrims s n) := by
  simp [getTrims, modTrims]

theorem getTrims_modTrims_ne (n : StallId) (f : Trims → Trims) (n' : StallId) (s : State) (h : n.val ≠ n'.val) : getTrims (modTrims n f s) n' = getTrims s n' := by
  simp [getTrims, modTrims, tabGet_tabMod_ne h]

@[simp] theorem getShotAudit_modShotAudit (n : StallId) (f : ShotAudit → ShotAudit) (s : State) : getShotAudit (modShotAudit n f s) n = f (getShotAudit s n) := by
  simp [getShotAudit, modShotAudit]

theorem getShotAudit_modShotAudit_ne (n : StallId) (f : ShotAudit → ShotAudit) (n' : StallId) (s : State) (h : n.val ≠ n'.val) : getShotAudit (modShotAudit n f s) n' = getShotAudit s n' := by
  simp [getShotAudit, modShotAudit, tabGet_tabMod_ne h]

@[simp] theorem getLane_modLane (k : LaneId) (f : Lane → Lane) (s : State) : getLane (modLane k f s) k = f (getLane s k) := by
  simp [getLane, modLane]

theorem getLane_modLane_ne (k : LaneId) (f : Lane → Lane) (k' : LaneId) (s : State) (h : k.val ≠ k'.val) : getLane (modLane k f s) k' = getLane s k' := by
  simp [getLane, modLane, tabGet_tabMod_ne h]

@[simp] theorem getPort_modPort (p : Fin 2) (f : EthPort → EthPort) (s : State) : getPort (modPort p f s) p = f (getPort s p) := by
  simp [getPort, modPort]

theorem getPort_modPort_ne (p : Fin 2) (f : EthPort → EthPort) (p' : Fin 2) (s : State) (h : p.val ≠ p'.val) : getPort (modPort p f s) p' = getPort s p' := by
  simp [getPort, modPort, tabGet_tabMod_ne h]

@[simp] theorem getDomain_modDomain (d : Fin 2) (f : Domain → Domain) (s : State) : getDomain (modDomain d f s) d = f (getDomain s d) := by
  simp [getDomain, modDomain]

theorem getDomain_modDomain_ne (d : Fin 2) (f : Domain → Domain) (d' : Fin 2) (s : State) (h : d.val ≠ d'.val) : getDomain (modDomain d f s) d' = getDomain s d' := by
  simp [getDomain, modDomain, tabGet_tabMod_ne h]

@[simp] theorem getPulse_modPulse (k : Fin 8) (f : TimePulse → TimePulse) (s : State) : getPulse (modPulse k f s) k = f (getPulse s k) := by
  simp [getPulse, modPulse]

theorem getPulse_modPulse_ne (k : Fin 8) (f : TimePulse → TimePulse) (k' : Fin 8) (s : State) (h : k.val ≠ k'.val) : getPulse (modPulse k f s) k' = getPulse s k' := by
  simp [getPulse, modPulse, tabGet_tabMod_ne h]

@[simp] theorem getWatch_modWatch (c : CmpId) (f : Watch → Watch) (s : State) : getWatch (modWatch c f s) c = f (getWatch s c) := by
  simp [getWatch, modWatch]

theorem getWatch_modWatch_ne (c : CmpId) (f : Watch → Watch) (c' : CmpId) (s : State) (h : (cmpKey c) ≠ (cmpKey c')) : getWatch (modWatch c f s) c' = getWatch s c' := by
  simp [getWatch, modWatch, tabGet_tabMod_ne h]

@[simp] theorem getHk_modHk (k : Fin 8) (f : HkConv → HkConv) (s : State) : getHk (modHk k f s) k = f (getHk s k) := by
  simp [getHk, modHk]

theorem getHk_modHk_ne (k : Fin 8) (f : HkConv → HkConv) (k' : Fin 8) (s : State) (h : k.val ≠ k'.val) : getHk (modHk k f s) k' = getHk s k' := by
  simp [getHk, modHk, tabGet_tabMod_ne h]

@[simp] theorem getFunc_modFunc (f : Func) (g : HostFunc → HostFunc) (s : State) : getFunc (modFunc f g s) f = g (getFunc s f) := by
  simp [getFunc, modFunc]

theorem getFunc_modFunc_ne (f : Func) (g : HostFunc → HostFunc) (f' : Func) (s : State) (h : f.val ≠ f'.val) : getFunc (modFunc f g s) f' = getFunc s f' := by
  simp [getFunc, modFunc, tabGet_tabMod_ne h]

@[simp] theorem getIrq_modIrq (src : Nat) (g : IrqSource → IrqSource) (s : State) : getIrq (modIrq src g s) src = g (getIrq s src) := by
  simp [getIrq, modIrq]

theorem getIrq_modIrq_ne (src : Nat) (g : IrqSource → IrqSource) (src' : Nat) (s : State) (h : src ≠ src') : getIrq (modIrq src g s) src' = getIrq s src' := by
  simp [getIrq, modIrq, tabGet_tabMod_ne h]

@[simp] theorem getFeed_modFeed (k : Nat) (g : Feed → Feed) (s : State) : getFeed (modFeed k g s) k = g (getFeed s k) := by
  simp [getFeed, modFeed]

theorem getFeed_modFeed_ne (k : Nat) (g : Feed → Feed) (k' : Nat) (s : State) (h : k ≠ k') : getFeed (modFeed k g s) k' = getFeed s k' := by
  simp [getFeed, modFeed, tabGet_tabMod_ne h]

/-! ## Operations that change logs and interrupts alone -/

@[simp] theorem record_keeps (code : Code) (stall : Nat) (owner : Owner) (object : Word) (aux : Word) (s : State) :
    (record code stall owner object aux s).pending = s.pending ∧ (record code stall owner object aux s).clock = s.clock ∧ (record code stall owner object aux s).host = s.host ∧ (record code stall owner object aux s).irqs = s.irqs ∧ (record code stall owner object aux s).power = s.power ∧ (record code stall owner object aux s).backup = s.backup ∧ (record code stall owner object aux s).persist = s.persist ∧ (record code stall owner object aux s).tack = s.tack ∧ (record code stall owner object aux s).spine = s.spine ∧ (record code stall owner object aux s).herdImage = s.herdImage ∧ (record code stall owner object aux s).hubImage = s.hubImage ∧ (record code stall owner object aux s).stallImages = s.stallImages ∧ (record code stall owner object aux s).stalls = s.stalls ∧ (record code stall owner object aux s).gaits = s.gaits ∧ (record code stall owner object aux s).slices = s.slices ∧ (record code stall owner object aux s).acqs = s.acqs ∧ (record code stall owner object aux s).voices = s.voices ∧ (record code stall owner object aux s).seqs = s.seqs ∧ (record code stall owner object aux s).chans = s.chans ∧ (record code stall owner object aux s).units = s.units ∧ (record code stall owner object aux s).nodes = s.nodes ∧ (record code stall owner object aux s).cells = s.cells ∧ (record code stall owner object aux s).books = s.books ∧ (record code stall owner object aux s).flights = s.flights ∧ (record code stall owner object aux s).nextFlight = s.nextFlight ∧ (record code stall owner object aux s).hub = s.hub ∧ (record code stall owner object aux s).riders = s.riders ∧ (record code stall owner object aux s).lines = s.lines ∧ (record code stall owner object aux s).fasts = s.fasts ∧ (record code stall owner object aux s).groups = s.groups ∧ (record code stall owner object aux s).queues = s.queues ∧ (record code stall owner object aux s).qdir = s.qdir ∧ (record code stall owner object aux s).farriers = s.farriers ∧ (record code stall owner object aux s).trims = s.trims ∧ (record code stall owner object aux s).shotAudits = s.shotAudits ∧ (record code stall owner object aux s).lanes = s.lanes ∧ (record code stall owner object aux s).tether = s.tether ∧ (record code stall owner object aux s).tc = s.tc ∧ (record code stall owner object aux s).ethPorts = s.ethPorts ∧ (record code stall owner object aux s).domains = s.domains ∧ (record code stall owner object aux s).pulses = s.pulses ∧ (record code stall owner object aux s).watches = s.watches ∧ (record code stall owner object aux s).hks = s.hks ∧ (record code stall owner object aux s).hkCtl = s.hkCtl ∧ (record code stall owner object aux s).feeds = s.feeds ∧ (record code stall owner object aux s).tally = s.tally ∧ (record code stall owner object aux s).hbm = s.hbm ∧ (record code stall owner object aux s).library = s.library ∧ (record code stall owner object aux s).descs = s.descs ∧ (record code stall owner object aux s).kernels = s.kernels ∧ (record code stall owner object aux s).store = s.store ∧ (record code stall owner object aux s).held = s.held ∧ (record code stall owner object aux s).latched = s.latched ∧ (record code stall owner object aux s).freeCtr = s.freeCtr :=
  have h := record_changes (P := [.funcs]) code stall owner object aux s (by decide) (Changes.refl _ s)
  ⟨h.pending, h.clock, h.host, h.irqs, h.power, h.backup, h.persist, h.tack, h.spine, h.herdImage, h.hubImage, h.stallImages, h.stalls, h.gaits, h.slices, h.acqs, h.voices, h.seqs, h.chans, h.units, h.nodes, h.cells, h.books, h.flights, h.nextFlight, h.hub, h.riders, h.lines, h.fasts, h.groups, h.queues, h.qdir, h.farriers, h.trims, h.shotAudits, h.lanes, h.tether, h.tc, h.ethPorts, h.domains, h.pulses, h.watches, h.hks, h.hkCtl, h.feeds, h.tally, h.hbm, h.library, h.descs, h.kernels, h.store, h.held, h.latched, h.freeCtr⟩

@[simp] theorem refuseAt_keeps (f : Func) (bar2 : Bool) (offset : Nat) (code : Code) (owner : Owner) (stall : Nat) (object : Word) (aux : Word) (s : State) :
    (refuseAt f bar2 offset code owner stall object aux s).pending = s.pending ∧ (refuseAt f bar2 offset code owner stall object aux s).clock = s.clock ∧ (refuseAt f bar2 offset code owner stall object aux s).host = s.host ∧ (refuseAt f bar2 offset code owner stall object aux s).irqs = s.irqs ∧ (refuseAt f bar2 offset code owner stall object aux s).power = s.power ∧ (refuseAt f bar2 offset code owner stall object aux s).backup = s.backup ∧ (refuseAt f bar2 offset code owner stall object aux s).persist = s.persist ∧ (refuseAt f bar2 offset code owner stall object aux s).tack = s.tack ∧ (refuseAt f bar2 offset code owner stall object aux s).spine = s.spine ∧ (refuseAt f bar2 offset code owner stall object aux s).herdImage = s.herdImage ∧ (refuseAt f bar2 offset code owner stall object aux s).hubImage = s.hubImage ∧ (refuseAt f bar2 offset code owner stall object aux s).stallImages = s.stallImages ∧ (refuseAt f bar2 offset code owner stall object aux s).stalls = s.stalls ∧ (refuseAt f bar2 offset code owner stall object aux s).gaits = s.gaits ∧ (refuseAt f bar2 offset code owner stall object aux s).slices = s.slices ∧ (refuseAt f bar2 offset code owner stall object aux s).acqs = s.acqs ∧ (refuseAt f bar2 offset code owner stall object aux s).voices = s.voices ∧ (refuseAt f bar2 offset code owner stall object aux s).seqs = s.seqs ∧ (refuseAt f bar2 offset code owner stall object aux s).chans = s.chans ∧ (refuseAt f bar2 offset code owner stall object aux s).units = s.units ∧ (refuseAt f bar2 offset code owner stall object aux s).nodes = s.nodes ∧ (refuseAt f bar2 offset code owner stall object aux s).cells = s.cells ∧ (refuseAt f bar2 offset code owner stall object aux s).books = s.books ∧ (refuseAt f bar2 offset code owner stall object aux s).flights = s.flights ∧ (refuseAt f bar2 offset code owner stall object aux s).nextFlight = s.nextFlight ∧ (refuseAt f bar2 offset code owner stall object aux s).hub = s.hub ∧ (refuseAt f bar2 offset code owner stall object aux s).riders = s.riders ∧ (refuseAt f bar2 offset code owner stall object aux s).lines = s.lines ∧ (refuseAt f bar2 offset code owner stall object aux s).fasts = s.fasts ∧ (refuseAt f bar2 offset code owner stall object aux s).groups = s.groups ∧ (refuseAt f bar2 offset code owner stall object aux s).queues = s.queues ∧ (refuseAt f bar2 offset code owner stall object aux s).qdir = s.qdir ∧ (refuseAt f bar2 offset code owner stall object aux s).farriers = s.farriers ∧ (refuseAt f bar2 offset code owner stall object aux s).trims = s.trims ∧ (refuseAt f bar2 offset code owner stall object aux s).shotAudits = s.shotAudits ∧ (refuseAt f bar2 offset code owner stall object aux s).lanes = s.lanes ∧ (refuseAt f bar2 offset code owner stall object aux s).tether = s.tether ∧ (refuseAt f bar2 offset code owner stall object aux s).tc = s.tc ∧ (refuseAt f bar2 offset code owner stall object aux s).ethPorts = s.ethPorts ∧ (refuseAt f bar2 offset code owner stall object aux s).domains = s.domains ∧ (refuseAt f bar2 offset code owner stall object aux s).pulses = s.pulses ∧ (refuseAt f bar2 offset code owner stall object aux s).watches = s.watches ∧ (refuseAt f bar2 offset code owner stall object aux s).hks = s.hks ∧ (refuseAt f bar2 offset code owner stall object aux s).hkCtl = s.hkCtl ∧ (refuseAt f bar2 offset code owner stall object aux s).feeds = s.feeds ∧ (refuseAt f bar2 offset code owner stall object aux s).tally = s.tally ∧ (refuseAt f bar2 offset code owner stall object aux s).hbm = s.hbm ∧ (refuseAt f bar2 offset code owner stall object aux s).library = s.library ∧ (refuseAt f bar2 offset code owner stall object aux s).descs = s.descs ∧ (refuseAt f bar2 offset code owner stall object aux s).kernels = s.kernels ∧ (refuseAt f bar2 offset code owner stall object aux s).store = s.store ∧ (refuseAt f bar2 offset code owner stall object aux s).held = s.held ∧ (refuseAt f bar2 offset code owner stall object aux s).latched = s.latched ∧ (refuseAt f bar2 offset code owner stall object aux s).freeCtr = s.freeCtr :=
  have h := refuseAt_changes (P := [.funcs]) f bar2 offset code owner stall object aux s (by decide) (Changes.refl _ s)
  ⟨h.pending, h.clock, h.host, h.irqs, h.power, h.backup, h.persist, h.tack, h.spine, h.herdImage, h.hubImage, h.stallImages, h.stalls, h.gaits, h.slices, h.acqs, h.voices, h.seqs, h.chans, h.units, h.nodes, h.cells, h.books, h.flights, h.nextFlight, h.hub, h.riders, h.lines, h.fasts, h.groups, h.queues, h.qdir, h.farriers, h.trims, h.shotAudits, h.lanes, h.tether, h.tc, h.ethPorts, h.domains, h.pulses, h.watches, h.hks, h.hkCtl, h.feeds, h.tally, h.hbm, h.library, h.descs, h.kernels, h.store, h.held, h.latched, h.freeCtr⟩

@[simp] theorem refuseReg_keeps (f : Func) (r : Reg) (code : Code) (s : State) :
    (refuseReg f r code s).pending = s.pending ∧ (refuseReg f r code s).clock = s.clock ∧ (refuseReg f r code s).host = s.host ∧ (refuseReg f r code s).irqs = s.irqs ∧ (refuseReg f r code s).power = s.power ∧ (refuseReg f r code s).backup = s.backup ∧ (refuseReg f r code s).persist = s.persist ∧ (refuseReg f r code s).tack = s.tack ∧ (refuseReg f r code s).spine = s.spine ∧ (refuseReg f r code s).herdImage = s.herdImage ∧ (refuseReg f r code s).hubImage = s.hubImage ∧ (refuseReg f r code s).stallImages = s.stallImages ∧ (refuseReg f r code s).stalls = s.stalls ∧ (refuseReg f r code s).gaits = s.gaits ∧ (refuseReg f r code s).slices = s.slices ∧ (refuseReg f r code s).acqs = s.acqs ∧ (refuseReg f r code s).voices = s.voices ∧ (refuseReg f r code s).seqs = s.seqs ∧ (refuseReg f r code s).chans = s.chans ∧ (refuseReg f r code s).units = s.units ∧ (refuseReg f r code s).nodes = s.nodes ∧ (refuseReg f r code s).cells = s.cells ∧ (refuseReg f r code s).books = s.books ∧ (refuseReg f r code s).flights = s.flights ∧ (refuseReg f r code s).nextFlight = s.nextFlight ∧ (refuseReg f r code s).hub = s.hub ∧ (refuseReg f r code s).riders = s.riders ∧ (refuseReg f r code s).lines = s.lines ∧ (refuseReg f r code s).fasts = s.fasts ∧ (refuseReg f r code s).groups = s.groups ∧ (refuseReg f r code s).queues = s.queues ∧ (refuseReg f r code s).qdir = s.qdir ∧ (refuseReg f r code s).farriers = s.farriers ∧ (refuseReg f r code s).trims = s.trims ∧ (refuseReg f r code s).shotAudits = s.shotAudits ∧ (refuseReg f r code s).lanes = s.lanes ∧ (refuseReg f r code s).tether = s.tether ∧ (refuseReg f r code s).tc = s.tc ∧ (refuseReg f r code s).ethPorts = s.ethPorts ∧ (refuseReg f r code s).domains = s.domains ∧ (refuseReg f r code s).pulses = s.pulses ∧ (refuseReg f r code s).watches = s.watches ∧ (refuseReg f r code s).hks = s.hks ∧ (refuseReg f r code s).hkCtl = s.hkCtl ∧ (refuseReg f r code s).feeds = s.feeds ∧ (refuseReg f r code s).tally = s.tally ∧ (refuseReg f r code s).hbm = s.hbm ∧ (refuseReg f r code s).library = s.library ∧ (refuseReg f r code s).descs = s.descs ∧ (refuseReg f r code s).kernels = s.kernels ∧ (refuseReg f r code s).store = s.store ∧ (refuseReg f r code s).held = s.held ∧ (refuseReg f r code s).latched = s.latched ∧ (refuseReg f r code s).freeCtr = s.freeCtr :=
  have h := refuseReg_changes (P := [.funcs]) f r code s (by decide) (Changes.refl _ s)
  ⟨h.pending, h.clock, h.host, h.irqs, h.power, h.backup, h.persist, h.tack, h.spine, h.herdImage, h.hubImage, h.stallImages, h.stalls, h.gaits, h.slices, h.acqs, h.voices, h.seqs, h.chans, h.units, h.nodes, h.cells, h.books, h.flights, h.nextFlight, h.hub, h.riders, h.lines, h.fasts, h.groups, h.queues, h.qdir, h.farriers, h.trims, h.shotAudits, h.lanes, h.tether, h.tc, h.ethPorts, h.domains, h.pulses, h.watches, h.hks, h.hkCtl, h.feeds, h.tally, h.hbm, h.library, h.descs, h.kernels, h.store, h.held, h.latched, h.freeCtr⟩

@[simp] theorem logInto_keeps (f : Func) (code : Code) (owner : Owner) (stall : Nat) (object : Word) (aux : Word) (func : BitVec 8) (src : LogSource) (s : State) :
    (logInto f code owner stall object aux func src s).pending = s.pending ∧ (logInto f code owner stall object aux func src s).clock = s.clock ∧ (logInto f code owner stall object aux func src s).host = s.host ∧ (logInto f code owner stall object aux func src s).irqs = s.irqs ∧ (logInto f code owner stall object aux func src s).power = s.power ∧ (logInto f code owner stall object aux func src s).backup = s.backup ∧ (logInto f code owner stall object aux func src s).persist = s.persist ∧ (logInto f code owner stall object aux func src s).tack = s.tack ∧ (logInto f code owner stall object aux func src s).spine = s.spine ∧ (logInto f code owner stall object aux func src s).herdImage = s.herdImage ∧ (logInto f code owner stall object aux func src s).hubImage = s.hubImage ∧ (logInto f code owner stall object aux func src s).stallImages = s.stallImages ∧ (logInto f code owner stall object aux func src s).stalls = s.stalls ∧ (logInto f code owner stall object aux func src s).gaits = s.gaits ∧ (logInto f code owner stall object aux func src s).slices = s.slices ∧ (logInto f code owner stall object aux func src s).acqs = s.acqs ∧ (logInto f code owner stall object aux func src s).voices = s.voices ∧ (logInto f code owner stall object aux func src s).seqs = s.seqs ∧ (logInto f code owner stall object aux func src s).chans = s.chans ∧ (logInto f code owner stall object aux func src s).units = s.units ∧ (logInto f code owner stall object aux func src s).nodes = s.nodes ∧ (logInto f code owner stall object aux func src s).cells = s.cells ∧ (logInto f code owner stall object aux func src s).books = s.books ∧ (logInto f code owner stall object aux func src s).flights = s.flights ∧ (logInto f code owner stall object aux func src s).nextFlight = s.nextFlight ∧ (logInto f code owner stall object aux func src s).hub = s.hub ∧ (logInto f code owner stall object aux func src s).riders = s.riders ∧ (logInto f code owner stall object aux func src s).lines = s.lines ∧ (logInto f code owner stall object aux func src s).fasts = s.fasts ∧ (logInto f code owner stall object aux func src s).groups = s.groups ∧ (logInto f code owner stall object aux func src s).queues = s.queues ∧ (logInto f code owner stall object aux func src s).qdir = s.qdir ∧ (logInto f code owner stall object aux func src s).farriers = s.farriers ∧ (logInto f code owner stall object aux func src s).trims = s.trims ∧ (logInto f code owner stall object aux func src s).shotAudits = s.shotAudits ∧ (logInto f code owner stall object aux func src s).lanes = s.lanes ∧ (logInto f code owner stall object aux func src s).tether = s.tether ∧ (logInto f code owner stall object aux func src s).tc = s.tc ∧ (logInto f code owner stall object aux func src s).ethPorts = s.ethPorts ∧ (logInto f code owner stall object aux func src s).domains = s.domains ∧ (logInto f code owner stall object aux func src s).pulses = s.pulses ∧ (logInto f code owner stall object aux func src s).watches = s.watches ∧ (logInto f code owner stall object aux func src s).hks = s.hks ∧ (logInto f code owner stall object aux func src s).hkCtl = s.hkCtl ∧ (logInto f code owner stall object aux func src s).feeds = s.feeds ∧ (logInto f code owner stall object aux func src s).tally = s.tally ∧ (logInto f code owner stall object aux func src s).hbm = s.hbm ∧ (logInto f code owner stall object aux func src s).library = s.library ∧ (logInto f code owner stall object aux func src s).descs = s.descs ∧ (logInto f code owner stall object aux func src s).kernels = s.kernels ∧ (logInto f code owner stall object aux func src s).store = s.store ∧ (logInto f code owner stall object aux func src s).held = s.held ∧ (logInto f code owner stall object aux func src s).latched = s.latched ∧ (logInto f code owner stall object aux func src s).freeCtr = s.freeCtr :=
  have h := logInto_changes (P := [.funcs]) f code owner stall object aux func src s (by decide) (Changes.refl _ s)
  ⟨h.pending, h.clock, h.host, h.irqs, h.power, h.backup, h.persist, h.tack, h.spine, h.herdImage, h.hubImage, h.stallImages, h.stalls, h.gaits, h.slices, h.acqs, h.voices, h.seqs, h.chans, h.units, h.nodes, h.cells, h.books, h.flights, h.nextFlight, h.hub, h.riders, h.lines, h.fasts, h.groups, h.queues, h.qdir, h.farriers, h.trims, h.shotAudits, h.lanes, h.tether, h.tc, h.ethPorts, h.domains, h.pulses, h.watches, h.hks, h.hkCtl, h.feeds, h.tally, h.hbm, h.library, h.descs, h.kernels, h.store, h.held, h.latched, h.freeCtr⟩

@[simp] theorem raise_keeps (src : Nat) (s : State) :
    (raise src s).pending = s.pending ∧ (raise src s).clock = s.clock ∧ (raise src s).host = s.host ∧ (raise src s).power = s.power ∧ (raise src s).backup = s.backup ∧ (raise src s).persist = s.persist ∧ (raise src s).tack = s.tack ∧ (raise src s).spine = s.spine ∧ (raise src s).herdImage = s.herdImage ∧ (raise src s).hubImage = s.hubImage ∧ (raise src s).stallImages = s.stallImages ∧ (raise src s).stalls = s.stalls ∧ (raise src s).gaits = s.gaits ∧ (raise src s).slices = s.slices ∧ (raise src s).acqs = s.acqs ∧ (raise src s).voices = s.voices ∧ (raise src s).seqs = s.seqs ∧ (raise src s).chans = s.chans ∧ (raise src s).units = s.units ∧ (raise src s).nodes = s.nodes ∧ (raise src s).cells = s.cells ∧ (raise src s).books = s.books ∧ (raise src s).flights = s.flights ∧ (raise src s).nextFlight = s.nextFlight ∧ (raise src s).hub = s.hub ∧ (raise src s).riders = s.riders ∧ (raise src s).lines = s.lines ∧ (raise src s).fasts = s.fasts ∧ (raise src s).groups = s.groups ∧ (raise src s).queues = s.queues ∧ (raise src s).qdir = s.qdir ∧ (raise src s).farriers = s.farriers ∧ (raise src s).trims = s.trims ∧ (raise src s).shotAudits = s.shotAudits ∧ (raise src s).lanes = s.lanes ∧ (raise src s).tether = s.tether ∧ (raise src s).tc = s.tc ∧ (raise src s).ethPorts = s.ethPorts ∧ (raise src s).domains = s.domains ∧ (raise src s).pulses = s.pulses ∧ (raise src s).watches = s.watches ∧ (raise src s).hks = s.hks ∧ (raise src s).hkCtl = s.hkCtl ∧ (raise src s).feeds = s.feeds ∧ (raise src s).tally = s.tally ∧ (raise src s).hbm = s.hbm ∧ (raise src s).library = s.library ∧ (raise src s).descs = s.descs ∧ (raise src s).kernels = s.kernels ∧ (raise src s).store = s.store ∧ (raise src s).held = s.held ∧ (raise src s).latched = s.latched ∧ (raise src s).freeCtr = s.freeCtr :=
  have h := raise_changes (P := [.funcs, .irqs]) src s (by decide) (Changes.refl _ s)
  ⟨h.pending, h.clock, h.host, h.power, h.backup, h.persist, h.tack, h.spine, h.herdImage, h.hubImage, h.stallImages, h.stalls, h.gaits, h.slices, h.acqs, h.voices, h.seqs, h.chans, h.units, h.nodes, h.cells, h.books, h.flights, h.nextFlight, h.hub, h.riders, h.lines, h.fasts, h.groups, h.queues, h.qdir, h.farriers, h.trims, h.shotAudits, h.lanes, h.tether, h.tc, h.ethPorts, h.domains, h.pulses, h.watches, h.hks, h.hkCtl, h.feeds, h.tally, h.hbm, h.library, h.descs, h.kernels, h.store, h.held, h.latched, h.freeCtr⟩

@[simp] theorem deliver_keeps (src : Nat) (f : Func) (e : Nat) (s : State) :
    (deliver src f e s).pending = s.pending ∧ (deliver src f e s).clock = s.clock ∧ (deliver src f e s).host = s.host ∧ (deliver src f e s).power = s.power ∧ (deliver src f e s).backup = s.backup ∧ (deliver src f e s).persist = s.persist ∧ (deliver src f e s).tack = s.tack ∧ (deliver src f e s).spine = s.spine ∧ (deliver src f e s).herdImage = s.herdImage ∧ (deliver src f e s).hubImage = s.hubImage ∧ (deliver src f e s).stallImages = s.stallImages ∧ (deliver src f e s).stalls = s.stalls ∧ (deliver src f e s).gaits = s.gaits ∧ (deliver src f e s).slices = s.slices ∧ (deliver src f e s).acqs = s.acqs ∧ (deliver src f e s).voices = s.voices ∧ (deliver src f e s).seqs = s.seqs ∧ (deliver src f e s).chans = s.chans ∧ (deliver src f e s).units = s.units ∧ (deliver src f e s).nodes = s.nodes ∧ (deliver src f e s).cells = s.cells ∧ (deliver src f e s).books = s.books ∧ (deliver src f e s).flights = s.flights ∧ (deliver src f e s).nextFlight = s.nextFlight ∧ (deliver src f e s).hub = s.hub ∧ (deliver src f e s).riders = s.riders ∧ (deliver src f e s).lines = s.lines ∧ (deliver src f e s).fasts = s.fasts ∧ (deliver src f e s).groups = s.groups ∧ (deliver src f e s).queues = s.queues ∧ (deliver src f e s).qdir = s.qdir ∧ (deliver src f e s).farriers = s.farriers ∧ (deliver src f e s).trims = s.trims ∧ (deliver src f e s).shotAudits = s.shotAudits ∧ (deliver src f e s).lanes = s.lanes ∧ (deliver src f e s).tether = s.tether ∧ (deliver src f e s).tc = s.tc ∧ (deliver src f e s).ethPorts = s.ethPorts ∧ (deliver src f e s).domains = s.domains ∧ (deliver src f e s).pulses = s.pulses ∧ (deliver src f e s).watches = s.watches ∧ (deliver src f e s).hks = s.hks ∧ (deliver src f e s).hkCtl = s.hkCtl ∧ (deliver src f e s).feeds = s.feeds ∧ (deliver src f e s).tally = s.tally ∧ (deliver src f e s).hbm = s.hbm ∧ (deliver src f e s).library = s.library ∧ (deliver src f e s).descs = s.descs ∧ (deliver src f e s).kernels = s.kernels ∧ (deliver src f e s).store = s.store ∧ (deliver src f e s).held = s.held ∧ (deliver src f e s).latched = s.latched ∧ (deliver src f e s).freeCtr = s.freeCtr :=
  have h := deliver_changes (P := [.funcs, .irqs]) src f e s (by decide) (Changes.refl _ s)
  ⟨h.pending, h.clock, h.host, h.power, h.backup, h.persist, h.tack, h.spine, h.herdImage, h.hubImage, h.stallImages, h.stalls, h.gaits, h.slices, h.acqs, h.voices, h.seqs, h.chans, h.units, h.nodes, h.cells, h.books, h.flights, h.nextFlight, h.hub, h.riders, h.lines, h.fasts, h.groups, h.queues, h.qdir, h.farriers, h.trims, h.shotAudits, h.lanes, h.tether, h.tc, h.ethPorts, h.domains, h.pulses, h.watches, h.hks, h.hkCtl, h.feeds, h.tally, h.hbm, h.library, h.descs, h.kernels, h.store, h.held, h.latched, h.freeCtr⟩

@[simp] theorem holdWord_keeps (r : Reg) (val : Word) (s : State) :
    (holdWord r val s).pending = s.pending ∧ (holdWord r val s).clock = s.clock ∧ (holdWord r val s).host = s.host ∧ (holdWord r val s).funcs = s.funcs ∧ (holdWord r val s).irqs = s.irqs ∧ (holdWord r val s).power = s.power ∧ (holdWord r val s).backup = s.backup ∧ (holdWord r val s).persist = s.persist ∧ (holdWord r val s).tack = s.tack ∧ (holdWord r val s).spine = s.spine ∧ (holdWord r val s).herdImage = s.herdImage ∧ (holdWord r val s).hubImage = s.hubImage ∧ (holdWord r val s).stallImages = s.stallImages ∧ (holdWord r val s).stalls = s.stalls ∧ (holdWord r val s).gaits = s.gaits ∧ (holdWord r val s).slices = s.slices ∧ (holdWord r val s).acqs = s.acqs ∧ (holdWord r val s).voices = s.voices ∧ (holdWord r val s).seqs = s.seqs ∧ (holdWord r val s).chans = s.chans ∧ (holdWord r val s).units = s.units ∧ (holdWord r val s).nodes = s.nodes ∧ (holdWord r val s).cells = s.cells ∧ (holdWord r val s).books = s.books ∧ (holdWord r val s).flights = s.flights ∧ (holdWord r val s).nextFlight = s.nextFlight ∧ (holdWord r val s).hub = s.hub ∧ (holdWord r val s).riders = s.riders ∧ (holdWord r val s).lines = s.lines ∧ (holdWord r val s).fasts = s.fasts ∧ (holdWord r val s).groups = s.groups ∧ (holdWord r val s).queues = s.queues ∧ (holdWord r val s).qdir = s.qdir ∧ (holdWord r val s).farriers = s.farriers ∧ (holdWord r val s).trims = s.trims ∧ (holdWord r val s).shotAudits = s.shotAudits ∧ (holdWord r val s).lanes = s.lanes ∧ (holdWord r val s).tether = s.tether ∧ (holdWord r val s).tc = s.tc ∧ (holdWord r val s).ethPorts = s.ethPorts ∧ (holdWord r val s).domains = s.domains ∧ (holdWord r val s).pulses = s.pulses ∧ (holdWord r val s).watches = s.watches ∧ (holdWord r val s).hks = s.hks ∧ (holdWord r val s).hkCtl = s.hkCtl ∧ (holdWord r val s).feeds = s.feeds ∧ (holdWord r val s).tally = s.tally ∧ (holdWord r val s).hbm = s.hbm ∧ (holdWord r val s).library = s.library ∧ (holdWord r val s).descs = s.descs ∧ (holdWord r val s).kernels = s.kernels ∧ (holdWord r val s).store = s.store ∧ (holdWord r val s).latched = s.latched ∧ (holdWord r val s).freeCtr = s.freeCtr :=
  have h := holdWord_changes (P := [.held]) r val s (by decide) (Changes.refl _ s)
  ⟨h.pending, h.clock, h.host, h.funcs, h.irqs, h.power, h.backup, h.persist, h.tack, h.spine, h.herdImage, h.hubImage, h.stallImages, h.stalls, h.gaits, h.slices, h.acqs, h.voices, h.seqs, h.chans, h.units, h.nodes, h.cells, h.books, h.flights, h.nextFlight, h.hub, h.riders, h.lines, h.fasts, h.groups, h.queues, h.qdir, h.farriers, h.trims, h.shotAudits, h.lanes, h.tether, h.tc, h.ethPorts, h.domains, h.pulses, h.watches, h.hks, h.hkCtl, h.feeds, h.tally, h.hbm, h.library, h.descs, h.kernels, h.store, h.latched, h.freeCtr⟩

@[simp] theorem dropHeld_keeps (r : Reg) (s : State) :
    (dropHeld r s).pending = s.pending ∧ (dropHeld r s).clock = s.clock ∧ (dropHeld r s).host = s.host ∧ (dropHeld r s).funcs = s.funcs ∧ (dropHeld r s).irqs = s.irqs ∧ (dropHeld r s).power = s.power ∧ (dropHeld r s).backup = s.backup ∧ (dropHeld r s).persist = s.persist ∧ (dropHeld r s).tack = s.tack ∧ (dropHeld r s).spine = s.spine ∧ (dropHeld r s).herdImage = s.herdImage ∧ (dropHeld r s).hubImage = s.hubImage ∧ (dropHeld r s).stallImages = s.stallImages ∧ (dropHeld r s).stalls = s.stalls ∧ (dropHeld r s).gaits = s.gaits ∧ (dropHeld r s).slices = s.slices ∧ (dropHeld r s).acqs = s.acqs ∧ (dropHeld r s).voices = s.voices ∧ (dropHeld r s).seqs = s.seqs ∧ (dropHeld r s).chans = s.chans ∧ (dropHeld r s).units = s.units ∧ (dropHeld r s).nodes = s.nodes ∧ (dropHeld r s).cells = s.cells ∧ (dropHeld r s).books = s.books ∧ (dropHeld r s).flights = s.flights ∧ (dropHeld r s).nextFlight = s.nextFlight ∧ (dropHeld r s).hub = s.hub ∧ (dropHeld r s).riders = s.riders ∧ (dropHeld r s).lines = s.lines ∧ (dropHeld r s).fasts = s.fasts ∧ (dropHeld r s).groups = s.groups ∧ (dropHeld r s).queues = s.queues ∧ (dropHeld r s).qdir = s.qdir ∧ (dropHeld r s).farriers = s.farriers ∧ (dropHeld r s).trims = s.trims ∧ (dropHeld r s).shotAudits = s.shotAudits ∧ (dropHeld r s).lanes = s.lanes ∧ (dropHeld r s).tether = s.tether ∧ (dropHeld r s).tc = s.tc ∧ (dropHeld r s).ethPorts = s.ethPorts ∧ (dropHeld r s).domains = s.domains ∧ (dropHeld r s).pulses = s.pulses ∧ (dropHeld r s).watches = s.watches ∧ (dropHeld r s).hks = s.hks ∧ (dropHeld r s).hkCtl = s.hkCtl ∧ (dropHeld r s).feeds = s.feeds ∧ (dropHeld r s).tally = s.tally ∧ (dropHeld r s).hbm = s.hbm ∧ (dropHeld r s).library = s.library ∧ (dropHeld r s).descs = s.descs ∧ (dropHeld r s).kernels = s.kernels ∧ (dropHeld r s).store = s.store ∧ (dropHeld r s).latched = s.latched ∧ (dropHeld r s).freeCtr = s.freeCtr :=
  have h := dropHeld_changes (P := [.held]) r s (by decide) (Changes.refl _ s)
  ⟨h.pending, h.clock, h.host, h.funcs, h.irqs, h.power, h.backup, h.persist, h.tack, h.spine, h.herdImage, h.hubImage, h.stallImages, h.stalls, h.gaits, h.slices, h.acqs, h.voices, h.seqs, h.chans, h.units, h.nodes, h.cells, h.books, h.flights, h.nextFlight, h.hub, h.riders, h.lines, h.fasts, h.groups, h.queues, h.qdir, h.farriers, h.trims, h.shotAudits, h.lanes, h.tether, h.tc, h.ethPorts, h.domains, h.pulses, h.watches, h.hks, h.hkCtl, h.feeds, h.tally, h.hbm, h.library, h.descs, h.kernels, h.store, h.latched, h.freeCtr⟩

end Sys2Proof.Machine
end

