-- ==== Sys2Proof/Laws/Access.lean ====
section
/-!
SUPPORT. What a host access does in each of its cases: it does not reach the module, the gate refuses it, its register's own rule refuses it,
or it has its effect.
-/

namespace Sys2Proof.Machine

open Sys2Proof

theorem admits_iff (s : State) (f : Func) (r : Reg) : admits s f r = true ↔ hostReach s f = true ∧ gateCode s f r = none := by
  simp [admits]

theorem admitsSpine_iff (s : State) (f : Func) (r : Reg) : admitsSpine s f r = true ↔ admits s f r = true ∧ fwSwitching s = false := by
  simp [admitsSpine]

/-- An admitted write has its effect. -/
theorem hostWrite_of_admits {s : State} {f : Func} {r : Reg} (h : admits s f r = true) (eff : State → State) : hostWrite f r eff s = eff s := by
  obtain ⟨h1, h2⟩ := (admits_iff s f r).mp h
  simp [hostWrite, h1, h2]

/-- A write that does not reach the module changes nothing. -/
theorem hostWrite_of_not_reach {s : State} {f : Func} (h : hostReach s f = false) (r : Reg) (eff : State → State) : hostWrite f r eff s = s := by
  simp [hostWrite, h]

/-- A write that the gate refuses is recorded and has no other effect. -/
theorem hostWrite_of_gate {s : State} {f : Func} {r : Reg} {c : Code} (h : hostReach s f = true) (k : gateCode s f r = some c)
    (eff : State → State) : hostWrite f r eff s = refuseReg f r c s := by
  simp [hostWrite, h, k]

theorem hostCheck_of_admits {s : State} {f : Func} {r : Reg} (h : admits s f r = true) {code : State → Option Code} (k : code s = none)
    (eff : State → State) : hostCheck f r code eff s = eff s := by
  simp [hostCheck, hostWrite_of_admits h, k]

theorem hostCheck_of_code {s : State} {f : Func} {r : Reg} (h : admits s f r = true) {code : State → Option Code} {c : Code} (k : code s = some c)
    (eff : State → State) : hostCheck f r code eff s = refuseReg f r c s := by
  simp [hostCheck, hostWrite_of_admits h, k]

theorem spineCommand_of_admits {s : State} {f : Func} {r : Reg} (h : admitsSpine s f r = true) (setOp : (OpStatus → OpStatus) → State → State)
    {code : State → Option Code} (k : code s = none) (eff : State → State) : spineCommand f r setOp code eff s = eff s := by
  obtain ⟨h1, h2⟩ := (admitsSpine_iff s f r).mp h
  simp [spineCommand, hostWrite_of_admits h1, h2, k]

theorem spineCommand_of_code {s : State} {f : Func} {r : Reg} (h : admitsSpine s f r = true) (setOp : (OpStatus → OpStatus) → State → State)
    {code : State → Option Code} {c : Code} (k : code s = some c) (eff : State → State) :
    spineCommand f r setOp code eff s = refuseReg f r c (setOp (opRefuse c) s) := by
  obtain ⟨h1, h2⟩ := (admitsSpine_iff s f r).mp h
  simp [spineCommand, hostWrite_of_admits h1, h2, k]

end Sys2Proof.Machine
end

