-- ==== Sys2Proof/Laws/ChangesBooks.lean ====
section
/-!
SUPPORT. What each operation of Machine/Books.lean may change.
-/

set_option linter.unusedTactic false
set_option linter.unreachableTactic false
set_option linter.style.longLine false
set_option linter.unusedVariables false
set_option maxRecDepth 8000

namespace Sys2Proof.Machine

open Sys2Proof

theorem startShotAudit_changes {P : List Part} {s₀ : State} (n : StallId) (val : Word) (s : State) (hp : Part.sub [.shotAudits] P = true)  (hc : Changes P s₀ s) : Changes P s₀ (startShotAudit n val s) := by
  unfold startShotAudit
  try dsimp only
  repeat' first
    | with_reducible assumption
    | with_reducible exact Changes.refl _ _
    | with_reducible apply Changes.ite
    | with_reducible apply modShotAudit_changes
    | exact Part.sub_trans (by decide) hp
    | exact Part.mem hp (by decide)
    | (intro _; try dsimp only)
    | split

theorem execShotAuditCmd_changes {P : List Part} {s₀ : State} (f : Func) (n : StallId) (val : Word) (s : State) (hp : Part.sub [.funcs, .shotAudits] P = true)  (hc : Changes P s₀ s) : ResChanges P s₀ (execShotAuditCmd f n val s) := by
  unfold execShotAuditCmd
  try dsimp only
  repeat' first
    | with_reducible assumption
    | with_reducible exact Changes.refl _ _
    | with_reducible apply Changes.ite
    | with_reducible apply ResChanges.next
    | with_reducible exact ResChanges.fault _
    | with_reducible exact ResChanges.refused _
    | with_reducible apply ResChanges.ite
    | with_reducible apply hostWrite_changes
    | with_reducible apply modShotAudit_changes
    | with_reducible apply refuseReg_changes
    | with_reducible apply startShotAudit_changes
    | exact Part.sub_trans (by decide) hp
    | exact Part.mem hp (by decide)
    | (intro _; try dsimp only)
    | split

theorem shotSettle_changes {P : List Part} {s₀ : State} (n : StallId) (s : State) (hp : Part.sub [.funcs, .irqs, .shotAudits] P = true)  (hc : Changes P s₀ s) : Changes P s₀ (shotSettle n s) := by
  unfold shotSettle
  try dsimp only
  repeat' first
    | with_reducible assumption
    | with_reducible exact Changes.refl _ _
    | with_reducible apply Changes.ite
    | with_reducible apply modShotAudit_changes
    | with_reducible apply raise_changes
    | with_reducible apply record_changes
    | exact Part.sub_trans (by decide) hp
    | exact Part.mem hp (by decide)
    | (intro _; try dsimp only)
    | split

theorem execShotAuditSettlePoint_changes {P : List Part} {s₀ : State} (n : StallId) (s : State) (hp : Part.sub [.funcs, .irqs, .shotAudits] P = true)  (hc : Changes P s₀ s) : ResChanges P s₀ (execShotAuditSettlePoint n s) := by
  unfold execShotAuditSettlePoint
  try dsimp only
  repeat' first
    | with_reducible assumption
    | with_reducible exact Changes.refl _ _
    | with_reducible apply Changes.ite
    | with_reducible apply ResChanges.next
    | with_reducible exact ResChanges.fault _
    | with_reducible exact ResChanges.refused _
    | with_reducible apply ResChanges.ite
    | with_reducible apply shotSettle_changes
    | exact Part.sub_trans (by decide) hp
    | exact Part.mem hp (by decide)
    | (intro _; try dsimp only)
    | split

end Sys2Proof.Machine
end

