-- ==== Sys2Proof/Laws/ChangesQueueOps.lean ====
section
/-!
SUPPORT. What each operation of Machine/QueueOps.lean may change.
-/

set_option linter.unusedTactic false
set_option linter.unreachableTactic false
set_option linter.style.longLine false
set_option linter.unusedVariables false
set_option maxRecDepth 8000

namespace Sys2Proof.Machine

open Sys2Proof

theorem givePages_changes {P : List Part} {s₀ : State} (n : StallId) (k : Nat) (s : State) (hp : Part.sub [.qdir] P = true)  (hc : Changes P s₀ s) : Changes P s₀ (givePages n k s) := by
  unfold givePages
  try dsimp only
  repeat' first
    | with_reducible assumption
    | with_reducible exact Changes.refl _ _
    | with_reducible apply Changes.ite
    | with_reducible apply setQdir_changes
    | exact Part.sub_trans (by decide) hp
    | exact Part.mem hp (by decide)
    | (intro _; try dsimp only)
    | split

theorem takePages_changes {P : List Part} {s₀ : State} (n : StallId) (k : Nat) (s : State) (hp : Part.sub [.qdir] P = true)  (hc : Changes P s₀ s) : Changes P s₀ (takePages n k s) := by
  unfold takePages
  try dsimp only
  repeat' first
    | with_reducible assumption
    | with_reducible exact Changes.refl _ _
    | with_reducible apply Changes.ite
    | with_reducible apply setQdir_changes
    | exact Part.sub_trans (by decide) hp
    | exact Part.mem hp (by decide)
    | (intro _; try dsimp only)
    | split

theorem movePages_changes {P : List Part} {s₀ : State} (m : PageMove) (s : State) (hp : Part.sub [.qdir] P = true)  (hc : Changes P s₀ s) : Changes P s₀ (movePages m s) := by
  unfold movePages
  try dsimp only
  repeat' first
    | with_reducible assumption
    | with_reducible exact Changes.refl _ _
    | with_reducible apply Changes.ite
    | with_reducible apply givePages_changes
    | with_reducible apply takePages_changes
    | exact Part.sub_trans (by decide) hp
    | exact Part.mem hp (by decide)
    | (intro _; try dsimp only)
    | split

theorem askPages_changes {P : List Part} {s₀ : State} (m : PageMove) (s : State) (hp : Part.sub [.qdir] P = true)  (hc : Changes P s₀ s) : Changes P s₀ (askPages m s) := by
  unfold askPages
  try dsimp only
  repeat' first
    | with_reducible assumption
    | with_reducible exact Changes.refl _ _
    | with_reducible apply Changes.ite
    | with_reducible apply movePages_changes
    | with_reducible apply setQdir_changes
    | exact Part.sub_trans (by decide) hp
    | exact Part.mem hp (by decide)
    | (intro _; try dsimp only)
    | split

theorem allocPages_changes {P : List Part} {s₀ : State} (n : StallId) (k : Nat) (s : State) (hp : Part.sub [.qdir] P = true)  (hc : Changes P s₀ s) : Changes P s₀ (allocPages n k s) := by
  unfold allocPages
  try dsimp only
  repeat' first
    | with_reducible assumption
    | with_reducible exact Changes.refl _ _
    | with_reducible apply Changes.ite
    | with_reducible apply askPages_changes
    | exact Part.sub_trans (by decide) hp
    | exact Part.mem hp (by decide)
    | (intro _; try dsimp only)
    | split

theorem releasePages_changes {P : List Part} {s₀ : State} (n : StallId) (k : Nat) (s : State) (hp : Part.sub [.qdir] P = true)  (hc : Changes P s₀ s) : Changes P s₀ (releasePages n k s) := by
  unfold releasePages
  try dsimp only
  repeat' first
    | with_reducible assumption
    | with_reducible exact Changes.refl _ _
    | with_reducible apply Changes.ite
    | with_reducible apply askPages_changes
    | exact Part.sub_trans (by decide) hp
    | exact Part.mem hp (by decide)
    | (intro _; try dsimp only)
    | split

theorem modProd_changes {P : List Part} {s₀ : State} (q : QueueId) (i : Nat) (f : QProd → QProd) (s : State) (hp : Part.sub [.queues] P = true)  (hc : Changes P s₀ s) : Changes P s₀ (modProd q i f s) := by
  unfold modProd
  try dsimp only
  repeat' first
    | with_reducible assumption
    | with_reducible exact Changes.refl _ _
    | with_reducible apply Changes.ite
    | with_reducible apply modQueue_changes
    | exact Part.sub_trans (by decide) hp
    | exact Part.mem hp (by decide)
    | (intro _; try dsimp only)
    | split

theorem flushQueue_changes {P : List Part} {s₀ : State} (q : QueueId) (s : State) (hp : Part.sub [.queues, .qdir] P = true)  (hc : Changes P s₀ s) : Changes P s₀ (flushQueue q s) := by
  unfold flushQueue
  try dsimp only
  repeat' first
    | with_reducible assumption
    | with_reducible exact Changes.refl _ _
    | with_reducible apply Changes.ite
    | with_reducible apply modQueue_changes
    | with_reducible apply releasePages_changes
    | exact Part.sub_trans (by decide) hp
    | exact Part.mem hp (by decide)
    | (intro _; try dsimp only)
    | split

theorem forcedReset_changes {P : List Part} {s₀ : State} (q : QueueId) (s : State) (hp : Part.sub [.funcs, .irqs, .queues, .qdir] P = true)  (hc : Changes P s₀ s) : Changes P s₀ (forcedReset q s) := by
  unfold forcedReset
  try dsimp only
  repeat' first
    | with_reducible assumption
    | with_reducible exact Changes.refl _ _
    | with_reducible apply Changes.ite
    | with_reducible apply flushQueue_changes
    | with_reducible apply forEach_changes
    | with_reducible apply modProd_changes
    | with_reducible apply modQueue_changes
    | with_reducible apply raise_changes
    | with_reducible apply record_changes
    | with_reducible apply setQdir_changes
    | exact Part.sub_trans (by decide) hp
    | exact Part.mem hp (by decide)
    | (intro _; try dsimp only)
    | split

theorem fixPages_changes {P : List Part} {s₀ : State} (q : QueueId) (s : State) (hp : Part.sub [.queues, .qdir] P = true)  (hc : Changes P s₀ s) : Changes P s₀ (fixPages q s) := by
  unfold fixPages
  try dsimp only
  repeat' first
    | with_reducible assumption
    | with_reducible exact Changes.refl _ _
    | with_reducible apply Changes.ite
    | with_reducible apply allocPages_changes
    | with_reducible apply modQueue_changes
    | with_reducible apply releasePages_changes
    | exact Part.sub_trans (by decide) hp
    | exact Part.mem hp (by decide)
    | (intro _; try dsimp only)
    | split

theorem takeWord_some {P : List Part} {s₀ s t : State} {q : QueueId} {w : QWord} (h : takeWord q s = some (w, t))
    (hp : Part.sub [.queues, .qdir] P = true) (hc : Changes P s₀ s) : Changes P s₀ t := by
  unfold takeWord at h
  split at h
  · cases h
  · cases h
    exact fixPages_changes _ _ (Part.sub_trans (by decide) hp) (modProd_changes _ _ _ _ (Part.sub_trans (by decide) hp)
      (modQueue_changes _ _ _ (Part.sub_trans (by decide) hp) hc))

theorem takeWords_changes {P : List Part} {s₀ : State} (q : QueueId) (n : Nat) (s : State) (hp : Part.sub [.queues, .qdir] P = true)
    (hc : Changes P s₀ s) : Changes P s₀ (takeWords q n s).2 := by
  induction n generalizing s with
  | zero => exact hc
  | succ n ih =>
    unfold takeWords
    split
    · exact hc
    · rename_i h
      split
      · exact takeWord_some h hp hc
      · exact ih _ (takeWord_some h hp hc)

theorem hostTake_changes {P : List Part} {s₀ : State} (q : QueueId) (n : Nat) (s : State) (hp : Part.sub [.queues, .qdir] P = true)  (hc : Changes P s₀ s) : Changes P s₀ (hostTake q n s) := by
  unfold hostTake
  try dsimp only
  repeat' first
    | with_reducible assumption
    | with_reducible exact Changes.refl _ _
    | with_reducible apply Changes.ite
    | with_reducible apply fixPages_changes
    | with_reducible apply modProd_changes
    | with_reducible apply modQueue_changes
    | with_reducible apply takeWords_changes
    | exact Part.sub_trans (by decide) hp
    | exact Part.mem hp (by decide)
    | (intro _; try dsimp only)
    | split

theorem issueWords_changes {P : List Part} {s₀ : State} (q : QueueId) (p : QPort) (ws : List Word) (eoi : Bool) (s : State) (hp : Part.sub [.queues] P = true)  (hc : Changes P s₀ s) : Changes P s₀ (issueWords q p ws eoi s) := by
  unfold issueWords
  try dsimp only
  repeat' first
    | with_reducible assumption
    | with_reducible exact Changes.refl _ _
    | with_reducible apply Changes.ite
    | with_reducible apply modProd_changes
    | exact Part.sub_trans (by decide) hp
    | exact Part.mem hp (by decide)
    | (intro _; try dsimp only)
    | split

theorem absentPorts_changes {P : List Part} {s₀ : State} (n : StallId) (s : State) (hp : Part.sub [.queues] P = true)  (hc : Changes P s₀ s) : Changes P s₀ (absentPorts n s) := by
  unfold absentPorts
  try dsimp only
  repeat' first
    | with_reducible assumption
    | with_reducible exact Changes.refl _ _
    | with_reducible apply Changes.ite
    | with_reducible apply forEach_changes
    | with_reducible apply modProd_changes
    | exact Part.sub_trans (by decide) hp
    | exact Part.mem hp (by decide)
    | (intro _; try dsimp only)
    | split

theorem endQueue_changes {P : List Part} {s₀ : State} (q : QueueId) (s : State) (hp : Part.sub [.queues, .qdir] P = true)  (hc : Changes P s₀ s) : Changes P s₀ (endQueue q s) := by
  unfold endQueue
  try dsimp only
  repeat' first
    | with_reducible assumption
    | with_reducible exact Changes.refl _ _
    | with_reducible apply Changes.ite
    | with_reducible apply flushQueue_changes
    | with_reducible apply modQueue_changes
    | exact Part.sub_trans (by decide) hp
    | exact Part.mem hp (by decide)
    | (intro _; try dsimp only)
    | split

theorem endQueues_changes {P : List Part} {s₀ : State} (n : StallId) (s : State) (hp : Part.sub [.queues, .qdir] P = true)  (hc : Changes P s₀ s) : Changes P s₀ (endQueues n s) := by
  unfold endQueues
  try dsimp only
  repeat' first
    | with_reducible assumption
    | with_reducible exact Changes.refl _ _
    | with_reducible apply Changes.ite
    | with_reducible apply endQueue_changes
    | with_reducible apply forEach_changes
    | exact Part.sub_trans (by decide) hp
    | exact Part.mem hp (by decide)
    | (intro _; try dsimp only)
    | split

theorem discardWords_changes {P : List Part} {s₀ : State} (q : QueueId) (a : QueueAlloc) (i : Nat) (k : Nat) (s : State) (hp : Part.sub [.queues] P = true)  (hc : Changes P s₀ s) : Changes P s₀ (discardWords q a i k s) := by
  unfold discardWords
  try dsimp only
  repeat' first
    | with_reducible assumption
    | with_reducible exact Changes.refl _ _
    | with_reducible apply Changes.ite
    | with_reducible apply modProd_changes
    | with_reducible apply modQueue_changes
    | exact Part.sub_trans (by decide) hp
    | exact Part.mem hp (by decide)
    | (intro _; try dsimp only)
    | split

theorem storeWord_changes {P : List Part} {s₀ : State} (q : QueueId) (a : QueueAlloc) (i : Nat) (w : QWord) (s : State) (hp : Part.sub [.funcs, .queues, .qdir] P = true)  (hc : Changes P s₀ s) : Changes P s₀ (storeWord q a i w s) := by
  unfold storeWord
  try dsimp only
  repeat' first
    | with_reducible assumption
    | with_reducible exact Changes.refl _ _
    | with_reducible apply Changes.ite
    | with_reducible apply discardWords_changes
    | with_reducible apply fixPages_changes
    | with_reducible apply modProd_changes
    | with_reducible apply modQueue_changes
    | with_reducible apply record_changes
    | exact Part.sub_trans (by decide) hp
    | exact Part.mem hp (by decide)
    | (intro _; try dsimp only)
    | split

theorem grantQueues_changes {P : List Part} {s₀ : State} (n : StallId) (s : State) (hp : Part.sub [.queues] P = true)  (hc : Changes P s₀ s) : Changes P s₀ (grantQueues n s) := by
  unfold grantQueues
  try dsimp only
  repeat' first
    | with_reducible assumption
    | with_reducible exact Changes.refl _ _
    | with_reducible apply Changes.ite
    | with_reducible apply forEach_changes
    | with_reducible apply Changes.set_queues
    | exact Part.sub_trans (by decide) hp
    | exact Part.mem hp (by decide)
    | (intro _; try dsimp only)
    | split

theorem presentPorts_changes {P : List Part} {s₀ : State} (s : State) (hp : Part.sub [.queues] P = true)  (hc : Changes P s₀ s) : Changes P s₀ (presentPorts s) := by
  unfold presentPorts
  try dsimp only
  repeat' first
    | with_reducible assumption
    | with_reducible exact Changes.refl _ _
    | with_reducible apply Changes.ite
    | with_reducible apply forEach_changes
    | with_reducible apply modProd_changes
    | exact Part.sub_trans (by decide) hp
    | exact Part.mem hp (by decide)
    | (intro _; try dsimp only)
    | split

end Sys2Proof.Machine
end

