-- ==== Sys2Proof/Laws/ChangesCaptureOps.lean ====
section
/-!
SUPPORT. What each operation of Machine/CaptureOps.lean may change.
-/

set_option linter.unusedTactic false
set_option linter.unreachableTactic false
set_option linter.style.longLine false
set_option linter.unusedVariables false
set_option maxRecDepth 8000

namespace Sys2Proof.Machine

open Sys2Proof

theorem ringWrite_changes {P : List Part} {s₀ : State} (u : UnitId) (bytes : List Byte) (total : Nat) (s : State) (hp : Part.sub [.units, .hbm] P = true)  (hc : Changes P s₀ s) : Changes P s₀ (ringWrite u bytes total s) := by
  unfold ringWrite
  try dsimp only
  repeat' first
    | with_reducible assumption
    | with_reducible exact Changes.refl _ _
    | with_reducible apply Changes.ite
    | with_reducible apply modUnit_changes
    | with_reducible apply setHbm_changes
    | exact Part.sub_trans (by decide) hp
    | exact Part.mem hp (by decide)
    | (intro _; try dsimp only)
    | split

theorem writeGap_changes {P : List Part} {s₀ : State} (u : UnitId) (s : State) (hp : Part.sub [.units, .hbm] P = true)  (hc : Changes P s₀ s) : Changes P s₀ (writeGap u s) := by
  unfold writeGap
  try dsimp only
  repeat' first
    | with_reducible assumption
    | with_reducible exact Changes.refl _ _
    | with_reducible apply Changes.ite
    | with_reducible apply modUnit_changes
    | with_reducible apply ringWrite_changes
    | exact Part.sub_trans (by decide) hp
    | exact Part.mem hp (by decide)
    | (intro _; try dsimp only)
    | split

theorem endCapture_changes {P : List Part} {s₀ : State} (u : UnitId) (op : OpStatus) (s : State) (hp : Part.sub [.units, .hbm] P = true)  (hc : Changes P s₀ s) : Changes P s₀ (endCapture u op s) := by
  unfold endCapture
  try dsimp only
  repeat' first
    | with_reducible assumption
    | with_reducible exact Changes.refl _ _
    | with_reducible apply Changes.ite
    | with_reducible apply modUnit_changes
    | with_reducible apply writeGap_changes
    | exact Part.sub_trans (by decide) hp
    | exact Part.mem hp (by decide)
    | (intro _; try dsimp only)
    | split

theorem showProgress_changes {P : List Part} {s₀ : State} (u : UnitId) (s : State) (hp : Part.sub [.units] P = true)  (hc : Changes P s₀ s) : Changes P s₀ (showProgress u s) := by
  unfold showProgress
  try dsimp only
  repeat' first
    | with_reducible assumption
    | with_reducible exact Changes.refl _ _
    | with_reducible apply Changes.ite
    | with_reducible apply modUnit_changes
    | exact Part.sub_trans (by decide) hp
    | exact Part.mem hp (by decide)
    | (intro _; try dsimp only)
    | split

theorem writePad_changes {P : List Part} {s₀ : State} (u : UnitId) (b : Nat) (s : State) (hp : Part.sub [.units, .hbm] P = true)  (hc : Changes P s₀ s) : Changes P s₀ (writePad u b s) := by
  unfold writePad
  try dsimp only
  repeat' first
    | with_reducible assumption
    | with_reducible exact Changes.refl _ _
    | with_reducible apply Changes.ite
    | with_reducible apply ringWrite_changes
    | exact Part.sub_trans (by decide) hp
    | exact Part.mem hp (by decide)
    | (intro _; try dsimp only)
    | split

theorem closeRecord_changes {P : List Part} {s₀ : State} (u : UnitId) (r : Record) (post : Nat) (cut : Bool) (sig : Signal) (s : State) (hp : Part.sub [.units, .hbm] P = true)  (hc : Changes P s₀ s) : Changes P s₀ (closeRecord u r post cut sig s) := by
  unfold closeRecord
  try dsimp only
  repeat' first
    | with_reducible assumption
    | with_reducible exact Changes.refl _ _
    | with_reducible apply Changes.ite
    | with_reducible apply modUnit_changes
    | with_reducible apply ringWrite_changes
    | with_reducible apply showProgress_changes
    | with_reducible apply writeGap_changes
    | with_reducible apply writePad_changes
    | exact Part.sub_trans (by decide) hp
    | exact Part.mem hp (by decide)
    | (intro _; try dsimp only)
    | split

theorem cutRecord_changes {P : List Part} {s₀ : State} (u : UnitId) (s : State) (hp : Part.sub [.units, .hbm] P = true)  (hc : Changes P s₀ s) : Changes P s₀ (cutRecord u s) := by
  unfold cutRecord
  try dsimp only
  repeat' first
    | with_reducible assumption
    | with_reducible exact Changes.refl _ _
    | with_reducible apply Changes.ite
    | with_reducible apply closeRecord_changes
    | exact Part.sub_trans (by decide) hp
    | exact Part.mem hp (by decide)
    | (intro _; try dsimp only)
    | split

theorem startRecord_changes {P : List Part} {s₀ : State} (u : UnitId) (r : Record) (s : State) (hp : Part.sub [.units] P = true)  (hc : Changes P s₀ s) : Changes P s₀ (startRecord u r s) := by
  unfold startRecord
  try dsimp only
  repeat' first
    | with_reducible assumption
    | with_reducible exact Changes.refl _ _
    | with_reducible apply Changes.ite
    | with_reducible apply modUnit_changes
    | exact Part.sub_trans (by decide) hp
    | exact Part.mem hp (by decide)
    | (intro _; try dsimp only)
    | split

theorem beginGap_changes {P : List Part} {s₀ : State} (u : UnitId) (drain : Bool) (at_ : Fine) (until_ : Fine) (s : State) (hp : Part.sub [.funcs, .units] P = true)  (hc : Changes P s₀ s) : Changes P s₀ (beginGap u drain at_ until_ s) := by
  unfold beginGap
  try dsimp only
  repeat' first
    | with_reducible assumption
    | with_reducible exact Changes.refl _ _
    | with_reducible apply Changes.ite
    | with_reducible apply modUnit_changes
    | with_reducible apply record_changes
    | exact Part.sub_trans (by decide) hp
    | exact Part.mem hp (by decide)
    | (intro _; try dsimp only)
    | split

theorem endStore_changes {P : List Part} {s₀ : State} (u : UnitId) (t : Fine) (s : State) (hp : Part.sub [.units] P = true)  (hc : Changes P s₀ s) : Changes P s₀ (endStore u t s) := by
  unfold endStore
  try dsimp only
  repeat' first
    | with_reducible assumption
    | with_reducible exact Changes.refl _ _
    | with_reducible apply Changes.ite
    | with_reducible apply modUnit_changes
    | exact Part.sub_trans (by decide) hp
    | exact Part.mem hp (by decide)
    | (intro _; try dsimp only)
    | split

theorem judgeTrigger_changes {P : List Part} {s₀ : State} (u : UnitId) (t : Trigger) (s : State) (hp : Part.sub [.funcs, .units] P = true)  (hc : Changes P s₀ s) : Changes P s₀ (judgeTrigger u t s) := by
  unfold judgeTrigger
  try dsimp only
  repeat' first
    | with_reducible assumption
    | with_reducible exact Changes.refl _ _
    | with_reducible apply Changes.ite
    | with_reducible apply beginGap_changes
    | with_reducible apply endStore_changes
    | with_reducible apply modUnit_changes
    | with_reducible apply startRecord_changes
    | exact Part.sub_trans (by decide) hp
    | exact Part.mem hp (by decide)
    | (intro _; try dsimp only)
    | split

theorem trigger_changes {P : List Part} {s₀ : State} (u : UnitId) (t : Trigger) (s : State) (hp : Part.sub [.funcs, .units] P = true)  (hc : Changes P s₀ s) : Changes P s₀ (trigger u t s) := by
  unfold trigger
  try dsimp only
  repeat' first
    | with_reducible assumption
    | with_reducible exact Changes.refl _ _
    | with_reducible apply Changes.ite
    | with_reducible apply judgeTrigger_changes
    | with_reducible apply modUnit_changes
    | exact Part.sub_trans (by decide) hp
    | exact Part.mem hp (by decide)
    | (intro _; try dsimp only)
    | split

theorem nextContinuous_changes {P : List Part} {s₀ : State} (u : UnitId) (s : State) (hp : Part.sub [.funcs, .units] P = true)  (hc : Changes P s₀ s) : Changes P s₀ (nextContinuous u s) := by
  unfold nextContinuous
  try dsimp only
  repeat' first
    | with_reducible assumption
    | with_reducible exact Changes.refl _ _
    | with_reducible apply Changes.ite
    | with_reducible apply beginGap_changes
    | with_reducible apply startRecord_changes
    | exact Part.sub_trans (by decide) hp
    | exact Part.mem hp (by decide)
    | (intro _; try dsimp only)
    | split

theorem freeRing_changes {P : List Part} {s₀ : State} (u : UnitId) (s : State) (hp : Part.sub [.units, .qdir, .hbm] P = true)  (hc : Changes P s₀ s) : Changes P s₀ (freeRing u s) := by
  unfold freeRing
  try dsimp only
  repeat' first
    | with_reducible assumption
    | with_reducible exact Changes.refl _ _
    | with_reducible apply Changes.ite
    | with_reducible apply modUnit_changes
    | with_reducible apply releasePages_changes
    | with_reducible apply setHbm_changes
    | with_reducible apply setQdir_changes
    | exact Part.sub_trans (by decide) hp
    | exact Part.mem hp (by decide)
    | (intro _; try dsimp only)
    | split

theorem endDrain_changes {P : List Part} {s₀ : State} (u : UnitId) (s : State) (hp : Part.sub [.units] P = true)  (hc : Changes P s₀ s) : Changes P s₀ (endDrain u s) := by
  unfold endDrain
  try dsimp only
  repeat' first
    | with_reducible assumption
    | with_reducible exact Changes.refl _ _
    | with_reducible apply Changes.ite
    | with_reducible apply modUnit_changes
    | exact Part.sub_trans (by decide) hp
    | exact Part.mem hp (by decide)
    | (intro _; try dsimp only)
    | split

theorem dueTriggers_changes {P : List Part} {s₀ : State} (u : UnitId) (s : State) (hp : Part.sub [.funcs, .units] P = true)  (hc : Changes P s₀ s) : Changes P s₀ (dueTriggers u s) := by
  unfold dueTriggers
  try dsimp only
  repeat' first
    | with_reducible assumption
    | with_reducible exact Changes.refl _ _
    | with_reducible apply Changes.ite
    | with_reducible apply forEach_changes
    | with_reducible apply judgeTrigger_changes
    | with_reducible apply modUnit_changes
    | exact Part.sub_trans (by decide) hp
    | exact Part.mem hp (by decide)
    | (intro _; try dsimp only)
    | split

theorem endCaptures_changes {P : List Part} {s₀ : State} (n : StallId) (s : State) (hp : Part.sub [.funcs, .units, .qdir, .hbm] P = true)  (hc : Changes P s₀ s) : Changes P s₀ (endCaptures n s) := by
  unfold endCaptures
  try dsimp only
  repeat' first
    | with_reducible assumption
    | with_reducible exact Changes.refl _ _
    | with_reducible apply Changes.ite
    | with_reducible apply forEach_changes
    | with_reducible apply freeRing_changes
    | with_reducible apply modUnit_changes
    | with_reducible apply record_changes
    | exact Part.sub_trans (by decide) hp
    | exact Part.mem hp (by decide)
    | (intro _; try dsimp only)
    | split

theorem failCaptures_changes {P : List Part} {s₀ : State} (n : StallId) (k : Fin 5) (s : State) (hp : Part.sub [.funcs, .units, .hbm] P = true)  (hc : Changes P s₀ s) : Changes P s₀ (failCaptures n k s) := by
  unfold failCaptures
  try dsimp only
  repeat' first
    | with_reducible assumption
    | with_reducible exact Changes.refl _ _
    | with_reducible apply Changes.ite
    | with_reducible apply cutRecord_changes
    | with_reducible apply endCapture_changes
    | with_reducible apply forEach_changes
    | with_reducible apply record_changes
    | exact Part.sub_trans (by decide) hp
    | exact Part.mem hp (by decide)
    | (intro _; try dsimp only)
    | split

theorem markRecords_changes {P : List Part} {s₀ : State} (n : StallId) (k : Fin 5) (f : CapUnit → CapUnit) (s : State) (hp : Part.sub [.units] P = true)  (hc : Changes P s₀ s) : Changes P s₀ (markRecords n k f s) := by
  unfold markRecords
  try dsimp only
  repeat' first
    | with_reducible assumption
    | with_reducible exact Changes.refl _ _
    | with_reducible apply Changes.ite
    | with_reducible apply forEach_changes
    | with_reducible apply modUnit_changes
    | exact Part.sub_trans (by decide) hp
    | exact Part.mem hp (by decide)
    | (intro _; try dsimp only)
    | split

theorem tokenTrigger_changes {P : List Part} {s₀ : State} (u : UnitId) (tok : Token) (s : State) (hp : Part.sub [.funcs, .units] P = true)  (hc : Changes P s₀ s) : Changes P s₀ (tokenTrigger u tok s) := by
  unfold tokenTrigger
  try dsimp only
  repeat' first
    | with_reducible assumption
    | with_reducible exact Changes.refl _ _
    | with_reducible apply Changes.ite
    | with_reducible apply trigger_changes
    | exact Part.sub_trans (by decide) hp
    | exact Part.mem hp (by decide)
    | (intro _; try dsimp only)
    | split

theorem triggerUnits_changes {P : List Part} {s₀ : State} (n : StallId) (src : BitVec 3) (obj : Nat) (frame : Nat) (s : State) (hp : Part.sub [.funcs, .units] P = true)  (hc : Changes P s₀ s) : Changes P s₀ (triggerUnits n src obj frame s) := by
  unfold triggerUnits
  try dsimp only
  repeat' first
    | with_reducible assumption
    | with_reducible exact Changes.refl _ _
    | with_reducible apply Changes.ite
    | with_reducible apply forEach_changes
    | with_reducible apply trigger_changes
    | exact Part.sub_trans (by decide) hp
    | exact Part.mem hp (by decide)
    | (intro _; try dsimp only)
    | split

end Sys2Proof.Machine
end

