-- ==== Sys2Proof/Laws/ChangesCapture.lean ====
section
/-!
SUPPORT. What each operation of Machine/Capture.lean may change.
-/

set_option linter.unusedTactic false
set_option linter.unreachableTactic false
set_option linter.style.longLine false
set_option linter.unusedVariables false
set_option maxRecDepth 8000

namespace Sys2Proof.Machine

open Sys2Proof

theorem armUnit_changes {P : List Part} {s₀ : State} (f : Func) (u : UnitId) (s : State) (hp : Part.sub [.units, .qdir] P = true)  (hc : Changes P s₀ s) : Changes P s₀ (armUnit f u s) := by
  unfold armUnit
  try dsimp only
  repeat' first
    | with_reducible assumption
    | with_reducible exact Changes.refl _ _
    | with_reducible apply Changes.ite
    | with_reducible apply allocPages_changes
    | with_reducible apply modUnit_changes
    | exact Part.sub_trans (by decide) hp
    | exact Part.mem hp (by decide)
    | (intro _; try dsimp only)
    | split

theorem refuseUnit_changes {P : List Part} {s₀ : State} (f : Func) (u : UnitId) (code : Code) (s : State) (hp : Part.sub [.funcs, .units] P = true)  (hc : Changes P s₀ s) : Changes P s₀ (refuseUnit f u code s) := by
  unfold refuseUnit
  try dsimp only
  repeat' first
    | with_reducible assumption
    | with_reducible exact Changes.refl _ _
    | with_reducible apply Changes.ite
    | with_reducible apply modUnit_changes
    | with_reducible apply refuseReg_changes
    | exact Part.sub_trans (by decide) hp
    | exact Part.mem hp (by decide)
    | (intro _; try dsimp only)
    | split

theorem arm_changes {P : List Part} {s₀ : State} (f : Func) (u : UnitId) (s : State) (hp : Part.sub [.funcs, .units, .qdir] P = true)  (hc : Changes P s₀ s) : Changes P s₀ (arm f u s) := by
  unfold arm
  try dsimp only
  repeat' first
    | with_reducible assumption
    | with_reducible exact Changes.refl _ _
    | with_reducible apply Changes.ite
    | with_reducible apply armUnit_changes
    | with_reducible apply hostWrite_changes
    | with_reducible apply refuseUnit_changes
    | exact Part.sub_trans (by decide) hp
    | exact Part.mem hp (by decide)
    | (intro _; try dsimp only)
    | split

theorem disarmUnit_changes {P : List Part} {s₀ : State} (u : UnitId) (s : State) (hp : Part.sub [.funcs, .units, .hbm] P = true)  (hc : Changes P s₀ s) : Changes P s₀ (disarmUnit u s) := by
  unfold disarmUnit
  try dsimp only
  repeat' first
    | with_reducible assumption
    | with_reducible exact Changes.refl _ _
    | with_reducible apply Changes.ite
    | with_reducible apply cutRecord_changes
    | with_reducible apply endCapture_changes
    | with_reducible apply record_changes
    | exact Part.sub_trans (by decide) hp
    | exact Part.mem hp (by decide)
    | (intro _; try dsimp only)
    | split

theorem execArm_changes {P : List Part} {s₀ : State} (f : Func) (u : UnitId) (s : State) (hp : Part.sub [.funcs, .units, .qdir] P = true)  (hc : Changes P s₀ s) : ResChanges P s₀ (execArm f u s) := by
  unfold execArm
  try dsimp only
  repeat' first
    | with_reducible assumption
    | with_reducible exact Changes.refl _ _
    | with_reducible apply Changes.ite
    | with_reducible apply ResChanges.next
    | with_reducible exact ResChanges.fault _
    | with_reducible exact ResChanges.refused _
    | with_reducible apply ResChanges.ite
    | with_reducible apply arm_changes
    | exact Part.sub_trans (by decide) hp
    | exact Part.mem hp (by decide)
    | (intro _; try dsimp only)
    | split

theorem execDisarm_changes {P : List Part} {s₀ : State} (f : Func) (u : UnitId) (s : State) (hp : Part.sub [.funcs, .units, .hbm] P = true)  (hc : Changes P s₀ s) : ResChanges P s₀ (execDisarm f u s) := by
  unfold execDisarm
  try dsimp only
  repeat' first
    | with_reducible assumption
    | with_reducible exact Changes.refl _ _
    | with_reducible apply Changes.ite
    | with_reducible apply ResChanges.next
    | with_reducible exact ResChanges.fault _
    | with_reducible exact ResChanges.refused _
    | with_reducible apply ResChanges.ite
    | with_reducible apply disarmUnit_changes
    | with_reducible apply hostWrite_changes
    | exact Part.sub_trans (by decide) hp
    | exact Part.mem hp (by decide)
    | (intro _; try dsimp only)
    | split

theorem execForce_changes {P : List Part} {s₀ : State} (f : Func) (u : UnitId) (s : State) (hp : Part.sub [.funcs, .units] P = true)  (hc : Changes P s₀ s) : ResChanges P s₀ (execForce f u s) := by
  unfold execForce
  try dsimp only
  repeat' first
    | with_reducible assumption
    | with_reducible exact Changes.refl _ _
    | with_reducible apply Changes.ite
    | with_reducible apply ResChanges.next
    | with_reducible exact ResChanges.fault _
    | with_reducible exact ResChanges.refused _
    | with_reducible apply ResChanges.ite
    | with_reducible apply hostWrite_changes
    | with_reducible apply trigger_changes
    | exact Part.sub_trans (by decide) hp
    | exact Part.mem hp (by decide)
    | (intro _; try dsimp only)
    | split

theorem hobbleEnds_changes {P : List Part} {s₀ : State} (u : UnitId) (s : State) (hp : Part.sub [.units] P = true)  (hc : Changes P s₀ s) : Changes P s₀ (hobbleEnds u s) := by
  unfold hobbleEnds
  try dsimp only
  repeat' first
    | with_reducible assumption
    | with_reducible exact Changes.refl _ _
    | with_reducible apply Changes.ite
    | with_reducible apply modUnit_changes
    | exact Part.sub_trans (by decide) hp
    | exact Part.mem hp (by decide)
    | (intro _; try dsimp only)
    | split

theorem execHobbleEnd_changes {P : List Part} {s₀ : State} (u : UnitId) (s : State) (hp : Part.sub [.units] P = true)  (hc : Changes P s₀ s) : ResChanges P s₀ (execHobbleEnd u s) := by
  unfold execHobbleEnd
  try dsimp only
  repeat' first
    | with_reducible assumption
    | with_reducible exact Changes.refl _ _
    | with_reducible apply Changes.ite
    | with_reducible apply ResChanges.next
    | with_reducible exact ResChanges.fault _
    | with_reducible exact ResChanges.refused _
    | with_reducible apply ResChanges.ite
    | with_reducible apply hobbleEnds_changes
    | exact Part.sub_trans (by decide) hp
    | exact Part.mem hp (by decide)
    | (intro _; try dsimp only)
    | split

theorem levelTrigger_changes {P : List Part} {s₀ : State} (u : UnitId) (j : Nat) (sig : Signal) (s : State) (hp : Part.sub [.funcs, .units] P = true)  (hc : Changes P s₀ s) : Changes P s₀ (levelTrigger u j sig s) := by
  unfold levelTrigger
  try dsimp only
  repeat' first
    | with_reducible assumption
    | with_reducible exact Changes.refl _ _
    | with_reducible apply Changes.ite
    | with_reducible apply modUnit_changes
    | with_reducible apply trigger_changes
    | exact Part.sub_trans (by decide) hp
    | exact Part.mem hp (by decide)
    | (intro _; try dsimp only)
    | split

theorem execLevelCrossing_changes {P : List Part} {s₀ : State} (u : UnitId) (sample : Nat) (sig : Signal) (s : State) (hp : Part.sub [.funcs, .units] P = true)  (hc : Changes P s₀ s) : ResChanges P s₀ (execLevelCrossing u sample sig s) := by
  unfold execLevelCrossing
  try dsimp only
  repeat' first
    | with_reducible assumption
    | with_reducible exact Changes.refl _ _
    | with_reducible apply Changes.ite
    | with_reducible apply ResChanges.next
    | with_reducible exact ResChanges.fault _
    | with_reducible exact ResChanges.refused _
    | with_reducible apply ResChanges.ite
    | with_reducible apply levelTrigger_changes
    | exact Part.sub_trans (by decide) hp
    | exact Part.mem hp (by decide)
    | (intro _; try dsimp only)
    | split

theorem recordEnds_changes {P : List Part} {s₀ : State} (u : UnitId) (sig : Signal) (s : State) (hp : Part.sub [.funcs, .units, .hbm] P = true)  (hc : Changes P s₀ s) : Changes P s₀ (recordEnds u sig s) := by
  unfold recordEnds
  try dsimp only
  repeat' first
    | with_reducible assumption
    | with_reducible exact Changes.refl _ _
    | with_reducible apply Changes.ite
    | with_reducible apply closeRecord_changes
    | with_reducible apply endCapture_changes
    | with_reducible apply nextContinuous_changes
    | exact Part.sub_trans (by decide) hp
    | exact Part.mem hp (by decide)
    | (intro _; try dsimp only)
    | split

theorem execRecordEnd_changes {P : List Part} {s₀ : State} (u : UnitId) (sig : Signal) (s : State) (hp : Part.sub [.funcs, .units, .hbm] P = true)  (hc : Changes P s₀ s) : ResChanges P s₀ (execRecordEnd u sig s) := by
  unfold execRecordEnd
  try dsimp only
  repeat' first
    | with_reducible assumption
    | with_reducible exact Changes.refl _ _
    | with_reducible apply Changes.ite
    | with_reducible apply ResChanges.next
    | with_reducible exact ResChanges.fault _
    | with_reducible exact ResChanges.refused _
    | with_reducible apply ResChanges.ite
    | with_reducible apply recordEnds_changes
    | exact Part.sub_trans (by decide) hp
    | exact Part.mem hp (by decide)
    | (intro _; try dsimp only)
    | split

theorem releaseUnit_changes {P : List Part} {s₀ : State} (f : Func) (u : UnitId) (s : State) (hp : Part.sub [.funcs, .units, .qdir, .hbm] P = true)  (hc : Changes P s₀ s) : Changes P s₀ (releaseUnit f u s) := by
  unfold releaseUnit
  try dsimp only
  repeat' first
    | with_reducible assumption
    | with_reducible exact Changes.refl _ _
    | with_reducible apply Changes.ite
    | with_reducible apply freeRing_changes
    | with_reducible apply refuseUnit_changes
    | exact Part.sub_trans (by decide) hp
    | exact Part.mem hp (by decide)
    | (intro _; try dsimp only)
    | split

theorem execRelease_changes {P : List Part} {s₀ : State} (f : Func) (u : UnitId) (s : State) (hp : Part.sub [.funcs, .units, .qdir, .hbm] P = true)  (hc : Changes P s₀ s) : ResChanges P s₀ (execRelease f u s) := by
  unfold execRelease
  try dsimp only
  repeat' first
    | with_reducible assumption
    | with_reducible exact Changes.refl _ _
    | with_reducible apply Changes.ite
    | with_reducible apply ResChanges.next
    | with_reducible exact ResChanges.fault _
    | with_reducible exact ResChanges.refused _
    | with_reducible apply ResChanges.ite
    | with_reducible apply hostWrite_changes
    | with_reducible apply releaseUnit_changes
    | exact Part.sub_trans (by decide) hp
    | exact Part.mem hp (by decide)
    | (intro _; try dsimp only)
    | split

theorem scheduleTrigger_changes {P : List Part} {s₀ : State} (u : UnitId) (s : State) (hp : Part.sub [.funcs, .units] P = true)  (hc : Changes P s₀ s) : Changes P s₀ (scheduleTrigger u s) := by
  unfold scheduleTrigger
  try dsimp only
  repeat' first
    | with_reducible assumption
    | with_reducible exact Changes.refl _ _
    | with_reducible apply Changes.ite
    | with_reducible apply modUnit_changes
    | with_reducible apply trigger_changes
    | exact Part.sub_trans (by decide) hp
    | exact Part.mem hp (by decide)
    | (intro _; try dsimp only)
    | split

theorem execScheduleTimeTrigger_changes {P : List Part} {s₀ : State} (u : UnitId) (s : State) (hp : Part.sub [.funcs, .units] P = true)  (hc : Changes P s₀ s) : ResChanges P s₀ (execScheduleTimeTrigger u s) := by
  unfold execScheduleTimeTrigger
  try dsimp only
  repeat' first
    | with_reducible assumption
    | with_reducible exact Changes.refl _ _
    | with_reducible apply Changes.ite
    | with_reducible apply ResChanges.next
    | with_reducible exact ResChanges.fault _
    | with_reducible exact ResChanges.refused _
    | with_reducible apply ResChanges.ite
    | with_reducible apply scheduleTrigger_changes
    | exact Part.sub_trans (by decide) hp
    | exact Part.mem hp (by decide)
    | (intro _; try dsimp only)
    | split

theorem storageBehind_changes {P : List Part} {s₀ : State} (u : UnitId) (s : State) (hp : Part.sub [.funcs, .units, .hbm] P = true)  (hc : Changes P s₀ s) : Changes P s₀ (storageBehind u s) := by
  unfold storageBehind
  try dsimp only
  repeat' first
    | with_reducible assumption
    | with_reducible exact Changes.refl _ _
    | with_reducible apply Changes.ite
    | with_reducible apply beginGap_changes
    | with_reducible apply cutRecord_changes
    | with_reducible apply endCapture_changes
    | exact Part.sub_trans (by decide) hp
    | exact Part.mem hp (by decide)
    | (intro _; try dsimp only)
    | split

theorem execStorageBehind_changes {P : List Part} {s₀ : State} (u : UnitId) (s : State) (hp : Part.sub [.funcs, .units, .hbm] P = true)  (hc : Changes P s₀ s) : ResChanges P s₀ (execStorageBehind u s) := by
  unfold execStorageBehind
  try dsimp only
  repeat' first
    | with_reducible assumption
    | with_reducible exact Changes.refl _ _
    | with_reducible apply Changes.ite
    | with_reducible apply ResChanges.next
    | with_reducible exact ResChanges.fault _
    | with_reducible exact ResChanges.refused _
    | with_reducible apply ResChanges.ite
    | with_reducible apply storageBehind_changes
    | exact Part.sub_trans (by decide) hp
    | exact Part.mem hp (by decide)
    | (intro _; try dsimp only)
    | split

theorem storageRecovered_changes {P : List Part} {s₀ : State} (u : UnitId) (s : State) (hp : Part.sub [.funcs, .units] P = true)  (hc : Changes P s₀ s) : Changes P s₀ (storageRecovered u s) := by
  unfold storageRecovered
  try dsimp only
  repeat' first
    | with_reducible assumption
    | with_reducible exact Changes.refl _ _
    | with_reducible apply Changes.ite
    | with_reducible apply endStore_changes
    | with_reducible apply modUnit_changes
    | with_reducible apply nextContinuous_changes
    | exact Part.sub_trans (by decide) hp
    | exact Part.mem hp (by decide)
    | (intro _; try dsimp only)
    | split

theorem execStorageRecovered_changes {P : List Part} {s₀ : State} (u : UnitId) (s : State) (hp : Part.sub [.funcs, .units] P = true)  (hc : Changes P s₀ s) : ResChanges P s₀ (execStorageRecovered u s) := by
  unfold execStorageRecovered
  try dsimp only
  repeat' first
    | with_reducible assumption
    | with_reducible exact Changes.refl _ _
    | with_reducible apply Changes.ite
    | with_reducible apply ResChanges.next
    | with_reducible exact ResChanges.fault _
    | with_reducible exact ResChanges.refused _
    | with_reducible apply ResChanges.ite
    | with_reducible apply storageRecovered_changes
    | exact Part.sub_trans (by decide) hp
    | exact Part.mem hp (by decide)
    | (intro _; try dsimp only)
    | split

theorem freeSpace_changes {P : List Part} {s₀ : State} (u : UnitId) (val : Word) (s : State) (hp : Part.sub [.funcs, .units, .hbm] P = true)  (hc : Changes P s₀ s) : Changes P s₀ (freeSpace u val s) := by
  unfold freeSpace
  try dsimp only
  repeat' first
    | with_reducible assumption
    | with_reducible exact Changes.refl _ _
    | with_reducible apply Changes.ite
    | with_reducible apply endDrain_changes
    | with_reducible apply modUnit_changes
    | with_reducible apply nextContinuous_changes
    | with_reducible apply showProgress_changes
    | with_reducible apply writeGap_changes
    | exact Part.sub_trans (by decide) hp
    | exact Part.mem hp (by decide)
    | (intro _; try dsimp only)
    | split

theorem execTuRdWrite_changes {P : List Part} {s₀ : State} (f : Func) (u : UnitId) (val : Word) (s : State) (hp : Part.sub [.funcs, .units, .hbm] P = true)  (hc : Changes P s₀ s) : ResChanges P s₀ (execTuRdWrite f u val s) := by
  unfold execTuRdWrite
  try dsimp only
  repeat' first
    | with_reducible assumption
    | with_reducible exact Changes.refl _ _
    | with_reducible apply Changes.ite
    | with_reducible apply ResChanges.next
    | with_reducible exact ResChanges.fault _
    | with_reducible exact ResChanges.refused _
    | with_reducible apply ResChanges.ite
    | with_reducible apply freeSpace_changes
    | with_reducible apply hostCheck_changes
    | exact Part.sub_trans (by decide) hp
    | exact Part.mem hp (by decide)
    | (intro _; try dsimp only)
    | split

end Sys2Proof.Machine
end

