-- ==== Sys2Proof/Laws/ChangesReinOps.lean ====
section
/-!
SUPPORT. What each operation of Machine/ReinOps.lean may change.
-/

set_option linter.unusedTactic false
set_option linter.unreachableTactic false
set_option linter.style.longLine false
set_option linter.unusedVariables false
set_option maxRecDepth 8000

namespace Sys2Proof.Machine

open Sys2Proof

theorem setFlipFlopOf_changes {P : List Part} {s₀ : State} (id : CellId) (value : BitVec 2) (inv : Bool) (s : State) (hp : Part.sub [.cells] P = true)  (hc : Changes P s₀ s) : Changes P s₀ (setFlipFlopOf id value inv s) := by
  unfold setFlipFlopOf
  try dsimp only
  repeat' first
    | with_reducible assumption
    | with_reducible exact Changes.refl _ _
    | with_reducible apply Changes.ite
    | with_reducible apply modCell_changes
    | exact Part.sub_trans (by decide) hp
    | exact Part.mem hp (by decide)
    | (intro _; try dsimp only)
    | split

theorem clearFlipFlopsOf_changes {P : List Part} {s₀ : State} (n : StallId) (o : Owner) (s : State) (hp : Part.sub [.cells] P = true)  (hc : Changes P s₀ s) : Changes P s₀ (clearFlipFlopsOf n o s) := by
  unfold clearFlipFlopsOf
  try dsimp only
  repeat' first
    | with_reducible assumption
    | with_reducible exact Changes.refl _ _
    | with_reducible apply Changes.ite
    | with_reducible apply forEach_changes
    | with_reducible apply setFlipFlopOf_changes
    | exact Part.sub_trans (by decide) hp
    | exact Part.mem hp (by decide)
    | (intro _; try dsimp only)
    | split

theorem addFlight_changes {P : List Part} {s₀ : State} (fl : Flight) (s : State) (hp : Part.sub [.flights, .nextFlight] P = true)  (hc : Changes P s₀ s) : Changes P s₀ (addFlight fl s) := by
  unfold addFlight
  try dsimp only
  repeat' first
    | with_reducible assumption
    | with_reducible exact Changes.refl _ _
    | with_reducible apply Changes.ite
    | (refine Changes.trans hc ⟨fun p hn => ?_⟩; cases p <;> first | rfl | (rw [Part.mem hp (by decide)] at hn; cases hn))
    | exact Part.sub_trans (by decide) hp
    | exact Part.mem hp (by decide)
    | (intro _; try dsimp only)
    | split

theorem bookOverrun_changes {P : List Part} {s₀ : State} (e : ReinChan) (k : Nat) (s : State) (hp : Part.sub [.books] P = true)  (hc : Changes P s₀ s) : Changes P s₀ (bookOverrun e k s) := by
  unfold bookOverrun
  try dsimp only
  repeat' first
    | with_reducible assumption
    | with_reducible exact Changes.refl _ _
    | with_reducible apply Changes.ite
    | with_reducible apply modBook_changes
    | exact Part.sub_trans (by decide) hp
    | exact Part.mem hp (by decide)
    | (intro _; try dsimp only)
    | split

theorem noRouteDrop_changes {P : List Part} {s₀ : State} (e : ReinChan) (s : State) (hp : Part.sub [.funcs, .books, .hub] P = true)  (hc : Changes P s₀ s) : Changes P s₀ (noRouteDrop e s) := by
  unfold noRouteDrop
  try dsimp only
  repeat' first
    | with_reducible assumption
    | with_reducible exact Changes.refl _ _
    | with_reducible apply Changes.ite
    | with_reducible apply bookOverrun_changes
    | with_reducible apply record_changes
    | with_reducible apply setHub_changes
    | exact Part.sub_trans (by decide) hp
    | exact Part.mem hp (by decide)
    | (intro _; try dsimp only)
    | split

theorem planeFlight_changes {P : List Part} {s₀ : State} (tok : Token) (src : Place) (port : Nat) (dst : Consumer) (s : State) (hp : Part.sub [.funcs, .books, .flights, .nextFlight, .hub] P = true)  (hc : Changes P s₀ s) : Changes P s₀ (planeFlight tok src port dst s) := by
  unfold planeFlight
  try dsimp only
  repeat' first
    | with_reducible assumption
    | with_reducible exact Changes.refl _ _
    | with_reducible apply Changes.ite
    | with_reducible apply addFlight_changes
    | with_reducible apply noRouteDrop_changes
    | exact Part.sub_trans (by decide) hp
    | exact Part.mem hp (by decide)
    | (intro _; try dsimp only)
    | split

theorem startCopy_changes {P : List Part} {s₀ : State} (tok : Token) (src : Place) (port : Nat) (dst : Consumer) (s : State) (hp : Part.sub [.funcs, .books, .flights, .nextFlight, .hub] P = true)  (hc : Changes P s₀ s) : Changes P s₀ (startCopy tok src port dst s) := by
  unfold startCopy
  try dsimp only
  repeat' first
    | with_reducible assumption
    | with_reducible exact Changes.refl _ _
    | with_reducible apply Changes.ite
    | with_reducible apply addFlight_changes
    | with_reducible apply modBook_changes
    | with_reducible apply planeFlight_changes
    | exact Part.sub_trans (by decide) hp
    | exact Part.mem hp (by decide)
    | (intro _; try dsimp only)
    | split

theorem enterFabric_changes {P : List Part} {s₀ : State} (tok : Token) (src : Place) (port : Nat) (s : State) (hp : Part.sub [.funcs, .books, .flights, .nextFlight, .hub] P = true)  (hc : Changes P s₀ s) : Changes P s₀ (enterFabric tok src port s) := by
  unfold enterFabric
  try dsimp only
  repeat' first
    | with_reducible assumption
    | with_reducible exact Changes.refl _ _
    | with_reducible apply Changes.ite
    | with_reducible apply forEach_changes
    | with_reducible apply startCopy_changes
    | exact Part.sub_trans (by decide) hp
    | exact Part.mem hp (by decide)
    | (intro _; try dsimp only)
    | split

theorem issueToken_changes {P : List Part} {s₀ : State} (src : Place) (port : Nat) (tok : Token) (s : State) (hp : Part.sub [.funcs, .nodes, .books, .flights, .nextFlight, .hub] P = true)  (hc : Changes P s₀ s) : Changes P s₀ (issueToken src port tok s) := by
  unfold issueToken
  try dsimp only
  repeat' first
    | with_reducible assumption
    | with_reducible exact Changes.refl _ _
    | with_reducible apply Changes.ite
    | with_reducible apply enterFabric_changes
    | with_reducible apply modBook_changes
    | with_reducible apply modNode_changes
    | exact Part.sub_trans (by decide) hp
    | exact Part.mem hp (by decide)
    | (intro _; try dsimp only)
    | split

theorem issueSeal_changes {P : List Part} {s₀ : State} (k : Nat) (value : BitVec 2) (s : State) (hp : Part.sub [.funcs, .nodes, .books, .flights, .nextFlight, .hub] P = true)  (hc : Changes P s₀ s) : Changes P s₀ (issueSeal k value s) := by
  unfold issueSeal
  try dsimp only
  repeat' first
    | with_reducible assumption
    | with_reducible exact Changes.refl _ _
    | with_reducible apply Changes.ite
    | with_reducible apply issueToken_changes
    | exact Part.sub_trans (by decide) hp
    | exact Part.mem hp (by decide)
    | (intro _; try dsimp only)
    | split

theorem dropFlight_changes {P : List Part} {s₀ : State} (i : Nat) (s : State) (hp : Part.sub [.flights] P = true)  (hc : Changes P s₀ s) : Changes P s₀ (dropFlight i s) := by
  unfold dropFlight
  try dsimp only
  repeat' first
    | with_reducible assumption
    | with_reducible exact Changes.refl _ _
    | with_reducible apply Changes.ite
    | with_reducible apply Changes.set_flights
    | exact Part.sub_trans (by decide) hp
    | exact Part.mem hp (by decide)
    | (intro _; try dsimp only)
    | split

theorem loopDrop_changes {P : List Part} {s₀ : State} (p : Place) (e : ReinChan) (s : State) (hp : Part.sub [.funcs, .nodes, .books, .hub] P = true)  (hc : Changes P s₀ s) : Changes P s₀ (loopDrop p e s) := by
  unfold loopDrop
  try dsimp only
  repeat' first
    | with_reducible assumption
    | with_reducible exact Changes.refl _ _
    | with_reducible apply Changes.ite
    | with_reducible apply modBook_changes
    | with_reducible apply modNode_changes
    | with_reducible apply record_changes
    | with_reducible apply setHub_changes
    | exact Part.sub_trans (by decide) hp
    | exact Part.mem hp (by decide)
    | (intro _; try dsimp only)
    | split

theorem countContend_changes {P : List Part} {s₀ : State} (p : Place) (waits : Nat) (s : State) (hp : Part.sub [.nodes, .hub] P = true)  (hc : Changes P s₀ s) : Changes P s₀ (countContend p waits s) := by
  unfold countContend
  try dsimp only
  repeat' first
    | with_reducible assumption
    | with_reducible exact Changes.refl _ _
    | with_reducible apply Changes.ite
    | with_reducible apply modNode_changes
    | with_reducible apply setHub_changes
    | exact Part.sub_trans (by decide) hp
    | exact Part.mem hp (by decide)
    | (intro _; try dsimp only)
    | split

theorem captureFault_changes {P : List Part} {s₀ : State} (n : StallId) (cause : BitVec 4) (e : Option ReinChan) (c : Option (BitVec 8)) (s : State) (hp : Part.sub [.nodes] P = true)  (hc : Changes P s₀ s) : Changes P s₀ (captureFault n cause e c s) := by
  unfold captureFault
  try dsimp only
  repeat' first
    | with_reducible assumption
    | with_reducible exact Changes.refl _ _
    | with_reducible apply Changes.ite
    | with_reducible apply modNode_changes
    | exact Part.sub_trans (by decide) hp
    | exact Part.mem hp (by decide)
    | (intro _; try dsimp only)
    | split

theorem countBusy_changes {P : List Part} {s₀ : State} (p : Place) (s : State) (hp : Part.sub [.nodes] P = true)  (hc : Changes P s₀ s) : Changes P s₀ (countBusy p s) := by
  unfold countBusy
  try dsimp only
  repeat' first
    | with_reducible assumption
    | with_reducible exact Changes.refl _ _
    | with_reducible apply Changes.ite
    | with_reducible apply modNode_changes
    | exact Part.sub_trans (by decide) hp
    | exact Part.mem hp (by decide)
    | (intro _; try dsimp only)
    | split

theorem inputOverrun_changes {P : List Part} {s₀ : State} (id : CellId) (was : Bool) (s : State) (hp : Part.sub [.funcs, .nodes] P = true)  (hc : Changes P s₀ s) : Changes P s₀ (inputOverrun id was s) := by
  unfold inputOverrun
  try dsimp only
  repeat' first
    | with_reducible assumption
    | with_reducible exact Changes.refl _ _
    | with_reducible apply Changes.ite
    | with_reducible apply countBusy_changes
    | with_reducible apply record_changes
    | exact Part.sub_trans (by decide) hp
    | exact Part.mem hp (by decide)
    | (intro _; try dsimp only)
    | split

theorem enterInput_changes {P : List Part} {s₀ : State} (id : CellId) (k : Nat) (tok : Token) (s : State) (hp : Part.sub [.cells] P = true)  (hc : Changes P s₀ s) : Changes P s₀ (enterInput id k tok s).1 := by
  unfold enterInput
  try dsimp only
  repeat' first
    | with_reducible assumption
    | with_reducible exact Changes.refl _ _
    | with_reducible apply Changes.ite
    | with_reducible apply modCell_changes
    | with_reducible apply Changes.fst_ite
    | refine Changes.fst ‹_ = (_, _)› ?_
    | dsimp only
    | exact Part.sub_trans (by decide) hp
    | exact Part.mem hp (by decide)
    | (intro _; try dsimp only)
    | split

theorem feedInput_changes {P : List Part} {s₀ : State} (id : CellId) (k : Nat) (tok : Token) (s : State) (hp : Part.sub [.funcs, .nodes, .cells] P = true)  (hc : Changes P s₀ s) : Changes P s₀ (feedInput id k tok s).1 := by
  unfold feedInput
  try dsimp only
  repeat' first
    | with_reducible assumption
    | with_reducible exact Changes.refl _ _
    | with_reducible apply Changes.ite
    | with_reducible apply enterInput_changes
    | with_reducible apply inputOverrun_changes
    | with_reducible apply Changes.fst_ite
    | refine Changes.fst ‹_ = (_, _)› ?_
    | dsimp only
    | exact Part.sub_trans (by decide) hp
    | exact Part.mem hp (by decide)
    | (intro _; try dsimp only)
    | split

theorem cellIssue_changes {P : List Part} {s₀ : State} (id : CellId) (t : BitVec 2 × Bool × BitVec 3) (s : State) (hp : Part.sub [.funcs, .nodes, .cells] P = true)  (hc : Changes P s₀ s) : Changes P s₀ (cellIssue id t s).1 := by
  unfold cellIssue
  try dsimp only
  repeat' first
    | with_reducible assumption
    | with_reducible exact Changes.refl _ _
    | with_reducible apply Changes.ite
    | with_reducible apply feedInput_changes
    | with_reducible apply forEach_changes
    | with_reducible apply modCell_changes
    | with_reducible apply Changes.fst_ite
    | refine Changes.fst ‹_ = (_, _)› ?_
    | dsimp only
    | exact Part.sub_trans (by decide) hp
    | exact Part.mem hp (by decide)
    | (intro _; try dsimp only)
    | split

theorem issueHubCopies_changes {P : List Part} {s₀ : State} (port : Nat) (a : Option Token) (b : Option Token) (s : State) (hp : Part.sub [.funcs, .nodes, .books, .flights, .nextFlight, .hub] P = true)  (hc : Changes P s₀ s) : Changes P s₀ (issueHubCopies port a b s) := by
  unfold issueHubCopies
  try dsimp only
  repeat' first
    | with_reducible assumption
    | with_reducible exact Changes.refl _ _
    | with_reducible apply Changes.ite
    | with_reducible apply addFlight_changes
    | with_reducible apply forEach_changes
    | with_reducible apply issueToken_changes
    | with_reducible apply modBook_changes
    | exact Part.sub_trans (by decide) hp
    | exact Part.mem hp (by decide)
    | (intro _; try dsimp only)
    | split

theorem runCell_changes {P : List Part} {s₀ : State} (id : CellId) (ready : State → CellId → Bool) (ev : CellId → State → State × Option Token) (s : State)
    (hp : Part.sub [.funcs, .nodes, .books, .flights, .nextFlight, .hub] P = true) (hev : ∀ i s, Changes P s₀ s → Changes P s₀ (ev i s).1)
    (hc : Changes P s₀ s) : Changes P s₀ (runCell id ready ev s) := by
  unfold runCell
  split
  · split
    · dsimp only
      split
      · exact issueToken_changes _ _ _ _ (Part.sub_trans (by decide) hp) (hev _ _ hc)
      · exact hev _ _ hc
    · exact hc
  · dsimp only
    refine issueHubCopies_changes _ _ _ _ (Part.sub_trans (by decide) hp) (Changes.fst_ite (fun _ => hev _ _ ?_) fun _ => ?_)
    · exact Changes.fst_ite (fun _ => hev _ _ hc) fun _ => hc
    · exact Changes.fst_ite (fun _ => hev _ _ hc) fun _ => hc

theorem storeFlipFlop_changes {P : List Part} {s₀ : State} (id : CellId) (v : BitVec 2) (inv : Bool) (hop : BitVec 3) (s : State) (hp : Part.sub [.funcs, .nodes, .cells] P = true)  (hc : Changes P s₀ s) : Changes P s₀ (storeFlipFlop id v inv hop s) := by
  unfold storeFlipFlop
  try dsimp only
  repeat' first
    | with_reducible assumption
    | with_reducible exact Changes.refl _ _
    | with_reducible apply Changes.ite
    | with_reducible apply feedInput_changes
    | with_reducible apply forEach_changes
    | with_reducible apply modCell_changes
    | with_reducible apply Changes.fst_ite
    | refine Changes.fst ‹_ = (_, _)› ?_
    | dsimp only
    | exact Part.sub_trans (by decide) hp
    | exact Part.mem hp (by decide)
    | (intro _; try dsimp only)
    | split

theorem evalCell_changes {P : List Part} {s₀ : State} (id : CellId) (forceInv : Bool) (s : State) (hp : Part.sub [.funcs, .nodes, .cells] P = true)  (hc : Changes P s₀ s) : Changes P s₀ (evalCell id forceInv s).1 := by
  unfold evalCell
  try dsimp only
  repeat' first
    | with_reducible assumption
    | with_reducible exact Changes.refl _ _
    | with_reducible apply Changes.ite
    | with_reducible apply cellIssue_changes
    | with_reducible apply modCell_changes
    | with_reducible apply storeFlipFlop_changes
    | with_reducible apply Changes.fst_ite
    | refine Changes.fst ‹_ = (_, _)› ?_
    | dsimp only
    | exact Part.sub_trans (by decide) hp
    | exact Part.mem hp (by decide)
    | (intro _; try dsimp only)
    | split

theorem notRidingDrop_changes {P : List Part} {s₀ : State} (n : StallId) (e : ReinChan) (s : State) (hp : Part.sub [.funcs, .nodes, .books] P = true)  (hc : Changes P s₀ s) : Changes P s₀ (notRidingDrop n e s) := by
  unfold notRidingDrop
  try dsimp only
  repeat' first
    | with_reducible assumption
    | with_reducible exact Changes.refl _ _
    | with_reducible apply Changes.ite
    | with_reducible apply bookOverrun_changes
    | with_reducible apply modNode_changes
    | with_reducible apply record_changes
    | exact Part.sub_trans (by decide) hp
    | exact Part.mem hp (by decide)
    | (intro _; try dsimp only)
    | split

end Sys2Proof.Machine
end

