-- ==== Sys2Proof/Laws/ChangesVoiceOps.lean ====
section
/-!
SUPPORT. What each operation of Machine/VoiceOps.lean may change.
-/

set_option linter.unusedTactic false
set_option linter.unreachableTactic false
set_option linter.style.longLine false
set_option linter.unusedVariables false
set_option maxRecDepth 8000

namespace Sys2Proof.Machine

open Sys2Proof

theorem onShotOf_changes {P : List Part} {s₀ : State} (c : ChanId) (w : Window) (f : Shot → Shot) (s : State) (hp : Part.sub [.riders] P = true)  (hc : Changes P s₀ s) : Changes P s₀ (onShotOf c w f s) := by
  unfold onShotOf
  try dsimp only
  repeat' first
    | with_reducible assumption
    | with_reducible exact Changes.refl _ _
    | with_reducible apply Changes.ite
    | with_reducible apply modRider_changes
    | exact Part.sub_trans (by decide) hp
    | exact Part.mem hp (by decide)
    | (intro _; try dsimp only)
    | split

theorem markWindow_changes {P : List Part} {s₀ : State} (c : ChanId) (f : Window → Window) (extra : Option ShotCause) (s : State) (hp : Part.sub [.chans, .riders] P = true)  (hc : Changes P s₀ s) : Changes P s₀ (markWindow c f extra s) := by
  unfold markWindow
  try dsimp only
  repeat' first
    | with_reducible assumption
    | with_reducible exact Changes.refl _ _
    | with_reducible apply Changes.ite
    | with_reducible apply modChan_changes
    | with_reducible apply onShotOf_changes
    | exact Part.sub_trans (by decide) hp
    | exact Part.mem hp (by decide)
    | (intro _; try dsimp only)
    | split

theorem flagChan_changes {P : List Part} {s₀ : State} (c : ChanId) (fr : Nat) (k : Nat) (s : State) (hp : Part.sub [.chans, .units, .riders] P = true)  (hc : Changes P s₀ s) : Changes P s₀ (flagChan c fr k s) := by
  unfold flagChan
  try dsimp only
  repeat' first
    | with_reducible assumption
    | with_reducible exact Changes.refl _ _
    | with_reducible apply Changes.ite
    | with_reducible apply forEach_changes
    | with_reducible apply markWindow_changes
    | with_reducible apply modChan_changes
    | with_reducible apply modUnit_changes
    | exact Part.sub_trans (by decide) hp
    | exact Part.mem hp (by decide)
    | (intro _; try dsimp only)
    | split

theorem trimVoice_changes {P : List Part} {s₀ : State} (v : VoiceId) (s : State) (hp : Part.sub [.trims] P = true)  (hc : Changes P s₀ s) : Changes P s₀ (trimVoice v s) := by
  unfold trimVoice
  try dsimp only
  repeat' first
    | with_reducible assumption
    | with_reducible exact Changes.refl _ _
    | with_reducible apply Changes.ite
    | with_reducible apply modTrims_changes
    | exact Part.sub_trans (by decide) hp
    | exact Part.mem hp (by decide)
    | (intro _; try dsimp only)
    | split

theorem tuneVoice_changes {P : List Part} {s₀ : State} (v : VoiceId) (s : State) (hp : Part.sub [.voices, .chans, .units, .riders, .trims] P = true)  (hc : Changes P s₀ s) : Changes P s₀ (tuneVoice v s) := by
  unfold tuneVoice
  try dsimp only
  repeat' first
    | with_reducible assumption
    | with_reducible exact Changes.refl _ _
    | with_reducible apply Changes.ite
    | with_reducible apply flagChan_changes
    | with_reducible apply forEach_changes
    | with_reducible apply modVoice_changes
    | with_reducible apply trimVoice_changes
    | exact Part.sub_trans (by decide) hp
    | exact Part.mem hp (by decide)
    | (intro _; try dsimp only)
    | split

theorem goIdle_changes {P : List Part} {s₀ : State} (v : VoiceId) (s : State) (hp : Part.sub [.seqs] P = true)  (hc : Changes P s₀ s) : Changes P s₀ (goIdle v s) := by
  unfold goIdle
  try dsimp only
  repeat' first
    | with_reducible assumption
    | with_reducible exact Changes.refl _ _
    | with_reducible apply Changes.ite
    | with_reducible apply modSeq_changes
    | exact Part.sub_trans (by decide) hp
    | exact Part.mem hp (by decide)
    | (intro _; try dsimp only)
    | split

theorem countVoice_changes {P : List Part} {s₀ : State} (v : VoiceId) (s : State) (hp : Part.sub [.voices] P = true)  (hc : Changes P s₀ s) : Changes P s₀ (countVoice v s) := by
  unfold countVoice
  try dsimp only
  repeat' first
    | with_reducible assumption
    | with_reducible exact Changes.refl _ _
    | with_reducible apply Changes.ite
    | with_reducible apply modVoice_changes
    | exact Part.sub_trans (by decide) hp
    | exact Part.mem hp (by decide)
    | (intro _; try dsimp only)
    | split

theorem recordVoice_changes {P : List Part} {s₀ : State} (code : Code) (v : VoiceId) (s : State) (hp : Part.sub [.funcs] P = true)  (hc : Changes P s₀ s) : Changes P s₀ (recordVoice code v s) := by
  unfold recordVoice
  try dsimp only
  repeat' first
    | with_reducible assumption
    | with_reducible exact Changes.refl _ _
    | with_reducible apply Changes.ite
    | with_reducible apply record_changes
    | exact Part.sub_trans (by decide) hp
    | exact Part.mem hp (by decide)
    | (intro _; try dsimp only)
    | split

theorem countLate_changes {P : List Part} {s₀ : State} (v : VoiceId) (s : State) (hp : Part.sub [.funcs, .seqs] P = true)  (hc : Changes P s₀ s) : Changes P s₀ (countLate v s) := by
  unfold countLate
  try dsimp only
  repeat' first
    | with_reducible assumption
    | with_reducible exact Changes.refl _ _
    | with_reducible apply Changes.ite
    | with_reducible apply modSeq_changes
    | with_reducible apply recordVoice_changes
    | exact Part.sub_trans (by decide) hp
    | exact Part.mem hp (by decide)
    | (intro _; try dsimp only)
    | split

theorem postSelection_changes {P : List Part} {s₀ : State} (v : VoiceId) (x : Selection) (s : State) (hp : Part.sub [.funcs, .voices, .seqs] P = true)  (hc : Changes P s₀ s) : Changes P s₀ (postSelection v x s) := by
  unfold postSelection
  try dsimp only
  repeat' first
    | with_reducible assumption
    | with_reducible exact Changes.refl _ _
    | with_reducible apply Changes.ite
    | with_reducible apply countLate_changes
    | with_reducible apply countVoice_changes
    | with_reducible apply modSeq_changes
    | exact Part.sub_trans (by decide) hp
    | exact Part.mem hp (by decide)
    | (intro _; try dsimp only)
    | split

theorem postBreak_changes {P : List Part} {s₀ : State} (v : VoiceId) (s : State) (hp : Part.sub [.funcs, .voices, .seqs] P = true)  (hc : Changes P s₀ s) : Changes P s₀ (postBreak v s) := by
  unfold postBreak
  try dsimp only
  repeat' first
    | with_reducible assumption
    | with_reducible exact Changes.refl _ _
    | with_reducible apply Changes.ite
    | with_reducible apply countLate_changes
    | with_reducible apply modSeq_changes
    | with_reducible apply postSelection_changes
    | exact Part.sub_trans (by decide) hp
    | exact Part.mem hp (by decide)
    | (intro _; try dsimp only)
    | split

theorem applyPost_changes {P : List Part} {s₀ : State} (v : VoiceId) (p : Post) (s : State) (hp : Part.sub [.funcs, .voices, .seqs] P = true)  (hc : Changes P s₀ s) : Changes P s₀ (applyPost v p s) := by
  unfold applyPost
  try dsimp only
  repeat' first
    | with_reducible assumption
    | with_reducible exact Changes.refl _ _
    | with_reducible apply Changes.ite
    | with_reducible apply modSeq_changes
    | with_reducible apply postBreak_changes
    | with_reducible apply postSelection_changes
    | exact Part.sub_trans (by decide) hp
    | exact Part.mem hp (by decide)
    | (intro _; try dsimp only)
    | split

theorem setFtw_changes {P : List Part} {s₀ : State} (v : VoiceId) (ftw : BitVec 48) (s : State) (hp : Part.sub [.voices] P = true)  (hc : Changes P s₀ s) : Changes P s₀ (setFtw v ftw s) := by
  unfold setFtw
  try dsimp only
  repeat' first
    | with_reducible assumption
    | with_reducible exact Changes.refl _ _
    | with_reducible apply Changes.ite
    | with_reducible apply modVoice_changes
    | exact Part.sub_trans (by decide) hp
    | exact Part.mem hp (by decide)
    | (intro _; try dsimp only)
    | split

theorem closePort_changes {P : List Part} {s₀ : State} (i : SliceId) (s : State) (hp : Part.sub [.slices] P = true)  (hc : Changes P s₀ s) : Changes P s₀ (closePort i s) := by
  unfold closePort
  try dsimp only
  repeat' first
    | with_reducible assumption
    | with_reducible exact Changes.refl _ _
    | with_reducible apply Changes.ite
    | with_reducible apply modSlice_changes
    | exact Part.sub_trans (by decide) hp
    | exact Part.mem hp (by decide)
    | (intro _; try dsimp only)
    | split

theorem openPort_changes {P : List Part} {s₀ : State} (i : SliceId) (s : State) (hp : Part.sub [.slices] P = true)  (hc : Changes P s₀ s) : Changes P s₀ (openPort i s) := by
  unfold openPort
  try dsimp only
  repeat' first
    | with_reducible assumption
    | with_reducible exact Changes.refl _ _
    | with_reducible apply Changes.ite
    | with_reducible apply modSlice_changes
    | exact Part.sub_trans (by decide) hp
    | exact Part.mem hp (by decide)
    | (intro _; try dsimp only)
    | split

theorem closePorts_changes {P : List Part} {s₀ : State} (n : StallId) (s : State) (hp : Part.sub [.slices] P = true)  (hc : Changes P s₀ s) : Changes P s₀ (closePorts n s) := by
  unfold closePorts
  try dsimp only
  repeat' first
    | with_reducible assumption
    | with_reducible exact Changes.refl _ _
    | with_reducible apply Changes.ite
    | with_reducible apply closePort_changes
    | with_reducible apply forEach_changes
    | exact Part.sub_trans (by decide) hp
    | exact Part.mem hp (by decide)
    | (intro _; try dsimp only)
    | split

theorem settleFork_changes {P : List Part} {s₀ : State} (v : VoiceId) (fk : Fork) (tookAlt : Bool) (late : Bool) (s : State) (hp : Part.sub [.riders] P = true)  (hc : Changes P s₀ s) : Changes P s₀ (settleFork v fk tookAlt late s) := by
  unfold settleFork
  try dsimp only
  repeat' first
    | with_reducible assumption
    | with_reducible exact Changes.refl _ _
    | with_reducible apply Changes.ite
    | with_reducible apply Changes.set_riders
    | exact Part.sub_trans (by decide) hp
    | exact Part.mem hp (by decide)
    | (intro _; try dsimp only)
    | split

theorem settleOpenFork_changes {P : List Part} {s₀ : State} (v : VoiceId) (s : State) (hp : Part.sub [.riders] P = true)  (hc : Changes P s₀ s) : Changes P s₀ (settleOpenFork v s) := by
  unfold settleOpenFork
  try dsimp only
  repeat' first
    | with_reducible assumption
    | with_reducible exact Changes.refl _ _
    | with_reducible apply Changes.ite
    | with_reducible apply settleFork_changes
    | exact Part.sub_trans (by decide) hp
    | exact Part.mem hp (by decide)
    | (intro _; try dsimp only)
    | split

theorem idleVoices_changes {P : List Part} {s₀ : State} (n : StallId) (s : State) (hp : Part.sub [.voices, .seqs, .riders] P = true)  (hc : Changes P s₀ s) : Changes P s₀ (idleVoices n s) := by
  unfold idleVoices
  try dsimp only
  repeat' first
    | with_reducible assumption
    | with_reducible exact Changes.refl _ _
    | with_reducible apply Changes.ite
    | with_reducible apply forEach_changes
    | with_reducible apply goIdle_changes
    | with_reducible apply modSeq_changes
    | with_reducible apply modVoice_changes
    | with_reducible apply settleOpenFork_changes
    | exact Part.sub_trans (by decide) hp
    | exact Part.mem hp (by decide)
    | (intro _; try dsimp only)
    | split

theorem markRider_changes {P : List Part} {s₀ : State} (r : RiderId) (c : ShotCause) (s : State) (hp : Part.sub [.riders] P = true)  (hc : Changes P s₀ s) : Changes P s₀ (markRider r c s) := by
  unfold markRider
  try dsimp only
  repeat' first
    | with_reducible assumption
    | with_reducible exact Changes.refl _ _
    | with_reducible apply Changes.ite
    | with_reducible apply modRider_changes
    | exact Part.sub_trans (by decide) hp
    | exact Part.mem hp (by decide)
    | (intro _; try dsimp only)
    | split

theorem markVoice_changes {P : List Part} {s₀ : State} (v : VoiceId) (c : ShotCause) (s : State) (hp : Part.sub [.riders] P = true)  (hc : Changes P s₀ s) : Changes P s₀ (markVoice v c s) := by
  unfold markVoice
  try dsimp only
  repeat' first
    | with_reducible assumption
    | with_reducible exact Changes.refl _ _
    | with_reducible apply Changes.ite
    | with_reducible apply forEach_changes
    | with_reducible apply markRider_changes
    | exact Part.sub_trans (by decide) hp
    | exact Part.mem hp (by decide)
    | (intro _; try dsimp only)
    | split

theorem markSlice_changes {P : List Part} {s₀ : State} (i : SliceId) (c : ShotCause) (s : State) (hp : Part.sub [.riders] P = true)  (hc : Changes P s₀ s) : Changes P s₀ (markSlice i c s) := by
  unfold markSlice
  try dsimp only
  repeat' first
    | with_reducible assumption
    | with_reducible exact Changes.refl _ _
    | with_reducible apply Changes.ite
    | with_reducible apply forEach_changes
    | with_reducible apply markVoice_changes
    | exact Part.sub_trans (by decide) hp
    | exact Part.mem hp (by decide)
    | (intro _; try dsimp only)
    | split

theorem toggleZ_changes {P : List Part} {s₀ : State} (v : VoiceId) (s : State) (hp : Part.sub [.voices] P = true)  (hc : Changes P s₀ s) : Changes P s₀ (toggleZ v s) := by
  unfold toggleZ
  try dsimp only
  repeat' first
    | with_reducible assumption
    | with_reducible exact Changes.refl _ _
    | with_reducible apply Changes.ite
    | with_reducible apply modVoice_changes
    | exact Part.sub_trans (by decide) hp
    | exact Part.mem hp (by decide)
    | (intro _; try dsimp only)
    | split

theorem toggleX_changes {P : List Part} {s₀ : State} (v : VoiceId) (s : State) (hp : Part.sub [.voices] P = true)  (hc : Changes P s₀ s) : Changes P s₀ (toggleX v s) := by
  unfold toggleX
  try dsimp only
  repeat' first
    | with_reducible assumption
    | with_reducible exact Changes.refl _ _
    | with_reducible apply Changes.ite
    | with_reducible apply modVoice_changes
    | exact Part.sub_trans (by decide) hp
    | exact Part.mem hp (by decide)
    | (intro _; try dsimp only)
    | split

theorem addVz_changes {P : List Part} {s₀ : State} (v : VoiceId) (k : BitVec 16) (s : State) (hp : Part.sub [.voices] P = true)  (hc : Changes P s₀ s) : Changes P s₀ (addVz v k s) := by
  unfold addVz
  try dsimp only
  repeat' first
    | with_reducible assumption
    | with_reducible exact Changes.refl _ _
    | with_reducible apply Changes.ite
    | with_reducible apply modVoice_changes
    | exact Part.sub_trans (by decide) hp
    | exact Part.mem hp (by decide)
    | (intro _; try dsimp only)
    | split

theorem onAcq_changes {P : List Part} {s₀ : State} (n : StallId) (k : Fin 5) (f : Fin 5 → State → State) (s : State) (hp : Part.sub [] P = true) (hf : ∀ y0 y1, Changes P s₀ y1 → Changes P s₀ (f y0 y1)) (hc : Changes P s₀ s) : Changes P s₀ (onAcq n k f s) := by
  unfold onAcq
  try dsimp only
  repeat' first
    | with_reducible assumption
    | with_reducible exact Changes.refl _ _
    | with_reducible apply Changes.ite
    | with_reducible apply hf
    | exact Part.sub_trans (by decide) hp
    | exact Part.mem hp (by decide)
    | (intro _; try dsimp only)
    | split

theorem streamTake_changes {P : List Part} {s₀ : State} (v : VoiceId) (q : QueueId) (n : Nat) (s : State)
    (hp : Part.sub [.queues, .qdir] P = true) (hc : Changes P s₀ s) : Changes P s₀ (streamTake v q n s).2 := by
  induction n generalizing s with
  | zero => exact hc
  | succ n ih =>
    unfold streamTake
    split
    · split
      · exact ih _ (takeWord_some ‹_› (Part.sub_trans (by decide) hp) hc)
      · exact hc
    · exact hc

theorem discardBacklog_changes {P : List Part} {s₀ : State} (v : VoiceId) (id : QueueId) (s : State) (hp : Part.sub [.seqs, .queues, .qdir] P = true)  (hc : Changes P s₀ s) : Changes P s₀ (discardBacklog v id s) := by
  unfold discardBacklog
  try dsimp only
  repeat' first
    | with_reducible assumption
    | with_reducible exact Changes.refl _ _
    | with_reducible apply Changes.ite
    | with_reducible apply fixPages_changes
    | with_reducible apply modProd_changes
    | with_reducible apply modQueue_changes
    | with_reducible apply modSeq_changes
    | with_reducible apply streamTake_changes
    | exact Part.sub_trans (by decide) hp
    | exact Part.mem hp (by decide)
    | (intro _; try dsimp only)
    | split

theorem fillBuf_changes {P : List Part} {s₀ : State} (v : VoiceId) (n : Nat) (b : StreamBuf) (s : State)
    (hp : Part.sub [.seqs, .queues, .qdir] P = true) (hc : Changes P s₀ s) : Changes P s₀ (fillBuf v n b s).2 := by
  unfold fillBuf
  dsimp only
  have h := discardBacklog_changes v b.queue s (Part.sub_trans (by decide) hp) hc
  split
  · exact streamTake_changes _ _ _ _ (Part.sub_trans (by decide) hp) h
  · exact h

theorem fillAhead_changes {P : List Part} {s₀ : State} (v : VoiceId) (s : State) (hp : Part.sub [.seqs, .queues, .qdir] P = true)  (hc : Changes P s₀ s) : Changes P s₀ (fillAhead v s) := by
  unfold fillAhead
  try dsimp only
  repeat' first
    | with_reducible assumption
    | with_reducible exact Changes.refl _ _
    | with_reducible apply Changes.ite
    | with_reducible apply discardBacklog_changes
    | with_reducible apply fixPages_changes
    | with_reducible apply modProd_changes
    | with_reducible apply modQueue_changes
    | with_reducible apply modSeq_changes
    | with_reducible apply fillBuf_changes
    | exact Part.sub_trans (by decide) hp
    | exact Part.mem hp (by decide)
    | (intro _; try dsimp only)
    | split

theorem fillPlay_changes {P : List Part} {s₀ : State} (v : VoiceId) (s : State) (hp : Part.sub [.seqs, .queues, .qdir] P = true)  (hc : Changes P s₀ s) : Changes P s₀ (fillPlay v s) := by
  unfold fillPlay
  try dsimp only
  repeat' first
    | with_reducible assumption
    | with_reducible exact Changes.refl _ _
    | with_reducible apply Changes.ite
    | with_reducible apply discardBacklog_changes
    | with_reducible apply fixPages_changes
    | with_reducible apply modProd_changes
    | with_reducible apply modQueue_changes
    | with_reducible apply modSeq_changes
    | with_reducible apply fillBuf_changes
    | exact Part.sub_trans (by decide) hp
    | exact Part.mem hp (by decide)
    | (intro _; try dsimp only)
    | split

theorem beginUnderrun_changes {P : List Part} {s₀ : State} (v : VoiceId) (s : State) (hp : Part.sub [.funcs, .seqs, .riders] P = true)  (hc : Changes P s₀ s) : Changes P s₀ (beginUnderrun v s) := by
  unfold beginUnderrun
  try dsimp only
  repeat' first
    | with_reducible assumption
    | with_reducible exact Changes.refl _ _
    | with_reducible apply Changes.ite
    | with_reducible apply markVoice_changes
    | with_reducible apply modSeq_changes
    | with_reducible apply recordVoice_changes
    | exact Part.sub_trans (by decide) hp
    | exact Part.mem hp (by decide)
    | (intro _; try dsimp only)
    | split

theorem judge_changes {P : List Part} {s₀ : State} (v : VoiceId) (inTime : Bool) (s : State) (hp : Part.sub [.funcs, .seqs] P = true)  (hc : Changes P s₀ s) : Changes P s₀ (judge v inTime s) := by
  unfold judge
  try dsimp only
  repeat' first
    | with_reducible assumption
    | with_reducible exact Changes.refl _ _
    | with_reducible apply Changes.ite
    | with_reducible apply countLate_changes
    | with_reducible apply modSeq_changes
    | exact Part.sub_trans (by decide) hp
    | exact Part.mem hp (by decide)
    | (intro _; try dsimp only)
    | split

theorem startStream_changes {P : List Part} {s₀ : State} (v : VoiceId) (d : Desc) (s : State) (hp : Part.sub [.funcs, .seqs, .riders, .queues, .qdir] P = true)  (hc : Changes P s₀ s) : Changes P s₀ (startStream v d s) := by
  unfold startStream
  try dsimp only
  repeat' first
    | with_reducible assumption
    | with_reducible exact Changes.refl _ _
    | with_reducible apply Changes.ite
    | with_reducible apply beginUnderrun_changes
    | with_reducible apply fillPlay_changes
    | with_reducible apply modSeq_changes
    | exact Part.sub_trans (by decide) hp
    | exact Part.mem hp (by decide)
    | (intro _; try dsimp only)
    | split

theorem startSegment_changes {P : List Part} {s₀ : State} (v : VoiceId) (p : PortSeg) (at_ : Fine) (s : State) (hp : Part.sub [.funcs, .voices, .seqs, .chans, .units, .riders, .queues, .qdir, .trims] P = true)  (hc : Changes P s₀ s) : Changes P s₀ (startSegment v p at_ s) := by
  unfold startSegment
  try dsimp only
  repeat' first
    | with_reducible assumption
    | with_reducible exact Changes.refl _ _
    | with_reducible apply Changes.ite
    | with_reducible apply modSeq_changes
    | with_reducible apply startStream_changes
    | with_reducible apply tuneVoice_changes
    | exact Part.sub_trans (by decide) hp
    | exact Part.mem hp (by decide)
    | (intro _; try dsimp only)
    | split

theorem portMissing_changes {P : List Part} {s₀ : State} (v : VoiceId) (s : State) (hp : Part.sub [.funcs, .riders] P = true)  (hc : Changes P s₀ s) : Changes P s₀ (portMissing v s) := by
  unfold portMissing
  try dsimp only
  repeat' first
    | with_reducible assumption
    | with_reducible exact Changes.refl _ _
    | with_reducible apply Changes.ite
    | with_reducible apply markVoice_changes
    | with_reducible apply recordVoice_changes
    | exact Part.sub_trans (by decide) hp
    | exact Part.mem hp (by decide)
    | (intro _; try dsimp only)
    | split

theorem takePort_changes {P : List Part} {s₀ : State} (v : VoiceId) (w : WaitPort) (at_ : Fine) (s : State) (hp : Part.sub [.funcs, .voices, .seqs, .chans, .units, .riders, .queues, .qdir, .trims] P = true)  (hc : Changes P s₀ s) : Changes P s₀ (takePort v w at_ s) := by
  unfold takePort
  try dsimp only
  repeat' first
    | with_reducible assumption
    | with_reducible exact Changes.refl _ _
    | with_reducible apply Changes.ite
    | with_reducible apply goIdle_changes
    | with_reducible apply modSeq_changes
    | with_reducible apply portMissing_changes
    | with_reducible apply startSegment_changes
    | exact Part.sub_trans (by decide) hp
    | exact Part.mem hp (by decide)
    | (intro _; try dsimp only)
    | split

theorem takeSuccessor_changes {P : List Part} {s₀ : State} (v : VoiceId) (at_ : Fine) (s : State) (hp : Part.sub [.funcs, .voices, .seqs, .chans, .units, .riders, .queues, .qdir, .trims] P = true)  (hc : Changes P s₀ s) : Changes P s₀ (takeSuccessor v at_ s) := by
  unfold takeSuccessor
  try dsimp only
  repeat' first
    | with_reducible assumption
    | with_reducible exact Changes.refl _ _
    | with_reducible apply Changes.ite
    | with_reducible apply goIdle_changes
    | with_reducible apply modSeq_changes
    | with_reducible apply takePort_changes
    | exact Part.sub_trans (by decide) hp
    | exact Part.mem hp (by decide)
    | (intro _; try dsimp only)
    | split

theorem missFork_changes {P : List Part} {s₀ : State} (v : VoiceId) (s : State) (hp : Part.sub [.funcs, .seqs, .riders] P = true)  (hc : Changes P s₀ s) : Changes P s₀ (missFork v s) := by
  unfold missFork
  try dsimp only
  repeat' first
    | with_reducible assumption
    | with_reducible exact Changes.refl _ _
    | with_reducible apply Changes.ite
    | with_reducible apply markVoice_changes
    | with_reducible apply modSeq_changes
    | with_reducible apply recordVoice_changes
    | exact Part.sub_trans (by decide) hp
    | exact Part.mem hp (by decide)
    | (intro _; try dsimp only)
    | split

theorem spendFork_changes {P : List Part} {s₀ : State} (v : VoiceId) (fk : Fork) (s : State) (hp : Part.sub [.seqs] P = true)  (hc : Changes P s₀ s) : Changes P s₀ (spendFork v fk s) := by
  unfold spendFork
  try dsimp only
  repeat' first
    | with_reducible assumption
    | with_reducible exact Changes.refl _ _
    | with_reducible apply Changes.ite
    | with_reducible apply modSeq_changes
    | exact Part.sub_trans (by decide) hp
    | exact Part.mem hp (by decide)
    | (intro _; try dsimp only)
    | split

theorem holdSelection_changes {P : List Part} {s₀ : State} (v : VoiceId) (s : State) (hp : Part.sub [.voices, .seqs] P = true)  (hc : Changes P s₀ s) : Changes P s₀ (holdSelection v s) := by
  unfold holdSelection
  try dsimp only
  repeat' first
    | with_reducible assumption
    | with_reducible exact Changes.refl _ _
    | with_reducible apply Changes.ite
    | with_reducible apply countVoice_changes
    | with_reducible apply modSeq_changes
    | exact Part.sub_trans (by decide) hp
    | exact Part.mem hp (by decide)
    | (intro _; try dsimp only)
    | split

theorem countRelease_changes {P : List Part} {s₀ : State} (rider : Nat) (trot : Bool) (noAnchor : Bool) (hub : Bool) (samples : Nat) (s : State) (hp : Part.sub [.riders] P = true)  (hc : Changes P s₀ s) : Changes P s₀ (countRelease rider trot noAnchor hub samples s) := by
  unfold countRelease
  try dsimp only
  repeat' first
    | with_reducible assumption
    | with_reducible exact Changes.refl _ _
    | with_reducible apply Changes.ite
    | with_reducible apply Changes.set_riders
    | exact Part.sub_trans (by decide) hp
    | exact Part.mem hp (by decide)
    | (intro _; try dsimp only)
    | split

theorem countFork_changes {P : List Part} {s₀ : State} (v : VoiceId) (fk : Fork) (at_ : Fine) (s : State) (hp : Part.sub [.riders] P = true)  (hc : Changes P s₀ s) : Changes P s₀ (countFork v fk at_ s) := by
  unfold countFork
  try dsimp only
  repeat' first
    | with_reducible assumption
    | with_reducible exact Changes.refl _ _
    | with_reducible apply Changes.ite
    | with_reducible apply countRelease_changes
    | exact Part.sub_trans (by decide) hp
    | exact Part.mem hp (by decide)
    | (intro _; try dsimp only)
    | split

theorem setLead_changes {P : List Part} {s₀ : State} (v : VoiceId) (gait : GaitKind) (s : State) (hp : Part.sub [.seqs, .freeCtr] P = true)  (hc : Changes P s₀ s) : Changes P s₀ (setLead v gait s) := by
  unfold setLead
  try dsimp only
  repeat' first
    | with_reducible assumption
    | with_reducible exact Changes.refl _ _
    | with_reducible apply Changes.ite
    | with_reducible apply freshen_changes
    | with_reducible apply modSeq_changes
    | exact Part.sub_trans (by decide) hp
    | exact Part.mem hp (by decide)
    | (intro _; try dsimp only)
    | split

theorem endFork_changes {P : List Part} {s₀ : State} (v : VoiceId) (fk : Fork) (alt : Bool) (at_ : Fine) (s : State) (hp : Part.sub [.funcs, .voices, .seqs, .chans, .units, .riders, .queues, .qdir, .trims, .freeCtr] P = true)  (hc : Changes P s₀ s) : Changes P s₀ (endFork v fk alt at_ s) := by
  unfold endFork
  try dsimp only
  repeat' first
    | with_reducible assumption
    | with_reducible exact Changes.refl _ _
    | with_reducible apply Changes.ite
    | with_reducible apply countFork_changes
    | with_reducible apply modSeq_changes
    | with_reducible apply setLead_changes
    | with_reducible apply settleFork_changes
    | with_reducible apply takePort_changes
    | exact Part.sub_trans (by decide) hp
    | exact Part.mem hp (by decide)
    | (intro _; try dsimp only)
    | split

theorem forkTakes_changes {P : List Part} {s₀ : State} (v : VoiceId) (fk : Fork) (alt : Bool) (at_ : Fine) (s : State) (hp : Part.sub [.funcs, .voices, .seqs, .chans, .units, .riders, .queues, .qdir, .trims, .freeCtr] P = true)  (hc : Changes P s₀ s) : Changes P s₀ (forkTakes v fk alt at_ s) := by
  unfold forkTakes
  try dsimp only
  repeat' first
    | with_reducible assumption
    | with_reducible exact Changes.refl _ _
    | with_reducible apply Changes.ite
    | with_reducible apply endFork_changes
    | with_reducible apply holdSelection_changes
    | with_reducible apply modSeq_changes
    | exact Part.sub_trans (by decide) hp
    | exact Part.mem hp (by decide)
    | (intro _; try dsimp only)
    | split

theorem holdEnd_changes {P : List Part} {s₀ : State} (v : VoiceId) (at_ : Fine) (s : State) (hp : Part.sub [.funcs, .voices, .seqs, .chans, .units, .riders, .queues, .qdir, .trims, .freeCtr] P = true)  (hc : Changes P s₀ s) : Changes P s₀ (holdEnd v at_ s).1 := by
  unfold holdEnd
  try dsimp only
  repeat' first
    | with_reducible assumption
    | with_reducible exact Changes.refl _ _
    | with_reducible apply Changes.ite
    | with_reducible apply forkTakes_changes
    | with_reducible apply judge_changes
    | with_reducible apply missFork_changes
    | with_reducible apply recordVoice_changes
    | with_reducible apply spendFork_changes
    | with_reducible apply takeSuccessor_changes
    | with_reducible apply Changes.fst_ite
    | refine Changes.fst ‹_ = (_, _)› ?_
    | dsimp only
    | exact Part.sub_trans (by decide) hp
    | exact Part.mem hp (by decide)
    | (intro _; try dsimp only)
    | split

theorem selAtHold_changes {P : List Part} {s₀ t : State} (v : VoiceId) (at_ : Fine) (s : State) (ho : (selAtHold v at_ s) = some t) (hp : Part.sub [.funcs, .voices, .seqs, .chans, .units, .riders, .queues, .qdir, .trims] P = true) (hc : Changes P s₀ s) : Changes P s₀ t := by
  unfold selAtHold at ho
  dsimp only at ho
  repeat' split at ho
  all_goals first
    | (cases ho; done)
    | (injection ho with ho; subst ho; exact takeSuccessor_changes _ _ _ (Part.sub_trans (by decide) hp) hc)

theorem forkAtHold_changes {P : List Part} {s₀ t : State} (v : VoiceId) (at_ : Fine) (s : State) (ho : (forkAtHold v at_ s) = some t) (hp : Part.sub [.funcs, .voices, .seqs, .chans, .units, .riders, .queues, .qdir, .trims, .freeCtr] P = true) (hc : Changes P s₀ s) : Changes P s₀ t := by
  unfold forkAtHold at ho
  dsimp only at ho
  repeat' split at ho
  all_goals first
    | (cases ho; done)
    | (injection ho with ho; subst ho; exact forkTakes_changes _ _ _ _ _ (Part.sub_trans (by decide) hp) hc)

theorem holdCut_changes {P : List Part} {s₀ t : State} (v : VoiceId) (at_ : Fine) (s : State) (ho : (holdCut v at_ s) = some t) (hp : Part.sub [.funcs, .voices, .seqs, .chans, .units, .riders, .queues, .qdir, .trims, .freeCtr] P = true) (hc : Changes P s₀ s) : Changes P s₀ t := by
  unfold holdCut at ho
  dsimp only at ho
  have h1 := modSeq_changes v preferReady s (Part.sub_trans (by decide) hp) hc
  rcases Option.or_eq_some_iff.mp ho with h | ⟨_, h⟩
  · exact forkAtHold_changes _ _ _ h (Part.sub_trans (by decide) hp) h1
  · exact selAtHold_changes _ _ _ h (Part.sub_trans (by decide) hp) h1

theorem holdBoundary_changes {P : List Part} {s₀ : State} (v : VoiceId) (s : State) (hp : Part.sub [.funcs, .voices, .seqs, .chans, .units, .riders, .queues, .qdir, .trims, .freeCtr] P = true)  (hc : Changes P s₀ s) : Changes P s₀ (holdBoundary v s).1 := by
  unfold holdBoundary
  try dsimp only
  repeat' first
    | with_reducible assumption
    | with_reducible exact Changes.refl _ _
    | with_reducible apply Changes.ite
    | refine holdCut_changes _ _ _ ‹_› (Part.sub_trans (by decide) hp) ?_
    | with_reducible apply holdEnd_changes
    | with_reducible apply Changes.fst_ite
    | refine Changes.fst ‹_ = (_, _)› ?_
    | dsimp only
    | exact Part.sub_trans (by decide) hp
    | exact Part.mem hp (by decide)
    | (intro _; try dsimp only)
    | split

theorem playBoundary_changes {P : List Part} {s₀ : State} (v : VoiceId) (at_ : Fine) (s : State) (hp : Part.sub [.funcs, .voices, .seqs, .chans, .units, .riders, .queues, .qdir, .trims, .freeCtr] P = true)  (hc : Changes P s₀ s) : Changes P s₀ (playBoundary v at_ s) := by
  unfold playBoundary
  try dsimp only
  repeat' first
    | with_reducible assumption
    | with_reducible exact Changes.refl _ _
    | with_reducible apply Changes.ite
    | with_reducible apply forkTakes_changes
    | with_reducible apply judge_changes
    | with_reducible apply takeSuccessor_changes
    | exact Part.sub_trans (by decide) hp
    | exact Part.mem hp (by decide)
    | (intro _; try dsimp only)
    | split

theorem segmentEnd_changes {P : List Part} {s₀ : State} (v : VoiceId) (s : State) (hp : Part.sub [.funcs, .voices, .seqs, .chans, .units, .riders, .queues, .qdir, .trims, .freeCtr] P = true)  (hc : Changes P s₀ s) : Changes P s₀ (segmentEnd v s).1 := by
  unfold segmentEnd
  try dsimp only
  repeat' first
    | with_reducible assumption
    | with_reducible exact Changes.refl _ _
    | with_reducible apply Changes.ite
    | with_reducible apply holdBoundary_changes
    | with_reducible apply playBoundary_changes
    | with_reducible apply Changes.fst_ite
    | refine Changes.fst ‹_ = (_, _)› ?_
    | dsimp only
    | exact Part.sub_trans (by decide) hp
    | exact Part.mem hp (by decide)
    | (intro _; try dsimp only)
    | split

end Sys2Proof.Machine
end

