-- ==== Sys2Proof/Laws/ChangesReadOps.lean ====
section
/-!
SUPPORT. What each operation of Machine/ReadOps.lean may change.
-/

set_option linter.unusedTactic false
set_option linter.unreachableTactic false
set_option linter.style.longLine false
set_option linter.unusedVariables false
set_option maxRecDepth 8000

namespace Sys2Proof.Machine

open Sys2Proof

theorem discardOpens_changes {P : List Part} {s₀ : State} (n : StallId) (of : Nat → Bool) (s : State) (hp : Part.sub [.chans] P = true)  (hc : Changes P s₀ s) : Changes P s₀ (discardOpens n of s) := by
  unfold discardOpens
  try dsimp only
  repeat' first
    | with_reducible assumption
    | with_reducible exact Changes.refl _ _
    | with_reducible apply Changes.ite
    | with_reducible apply forEach_changes
    | with_reducible apply modChan_changes
    | exact Part.sub_trans (by decide) hp
    | exact Part.mem hp (by decide)
    | (intro _; try dsimp only)
    | split

theorem recordChan_changes {P : List Part} {s₀ : State} (code : Code) (c : ChanId) (s : State) (hp : Part.sub [.funcs] P = true)  (hc : Changes P s₀ s) : Changes P s₀ (recordChan code c s) := by
  unfold recordChan
  try dsimp only
  repeat' first
    | with_reducible assumption
    | with_reducible exact Changes.refl _ _
    | with_reducible apply Changes.ite
    | with_reducible apply record_changes
    | exact Part.sub_trans (by decide) hp
    | exact Part.mem hp (by decide)
    | (intro _; try dsimp only)
    | split

theorem writeDecision_changes {P : List Part} {s₀ : State} (c : ChanId) (w : Window) (o : Outcome) (sent : Bool) (s : State) (hp : Part.sub [.funcs, .chans, .riders, .queues] P = true)  (hc : Changes P s₀ s) : Changes P s₀ (writeDecision c w o sent s) := by
  unfold writeDecision
  try dsimp only
  repeat' first
    | with_reducible assumption
    | with_reducible exact Changes.refl _ _
    | with_reducible apply Changes.ite
    | with_reducible apply issueWords_changes
    | with_reducible apply modChan_changes
    | with_reducible apply onShotOf_changes
    | with_reducible apply recordChan_changes
    | exact Part.sub_trans (by decide) hp
    | exact Part.mem hp (by decide)
    | (intro _; try dsimp only)
    | split

theorem observeOne_changes {P : List Part} {s₀ : State} (n : StallId) (every : Nat) (s : State) (hp : Part.sub [.farriers, .freeCtr] P = true)  (hc : Changes P s₀ s) : Changes P s₀ (observeOne n every s) := by
  unfold observeOne
  try dsimp only
  repeat' first
    | with_reducible assumption
    | with_reducible exact Changes.refl _ _
    | with_reducible apply Changes.ite
    | with_reducible apply freshen_changes
    | with_reducible apply modFarrier_changes
    | exact Part.sub_trans (by decide) hp
    | exact Part.mem hp (by decide)
    | (intro _; try dsimp only)
    | split

theorem collectWindow_changes {P : List Part} {s₀ : State} (c : ChanId) (w : Window) (cut : Bool) (s : State) (hp : Part.sub [.farriers, .freeCtr] P = true)  (hc : Changes P s₀ s) : Changes P s₀ (collectWindow c w cut s) := by
  unfold collectWindow
  try dsimp only
  repeat' first
    | with_reducible assumption
    | with_reducible exact Changes.refl _ _
    | with_reducible apply Changes.ite
    | with_reducible apply modFarrier_changes
    | with_reducible apply observeOne_changes
    | exact Part.sub_trans (by decide) hp
    | exact Part.mem hp (by decide)
    | (intro _; try dsimp only)
    | split

theorem closeWindow_changes {P : List Part} {s₀ : State} (c : ChanId) (w : Window) (o : Outcome) (s : State) (hp : Part.sub [.funcs, .chans, .nodes, .books, .flights, .nextFlight, .hub, .riders, .queues, .farriers, .freeCtr] P = true)  (hc : Changes P s₀ s) : Changes P s₀ (closeWindow c w o s) := by
  unfold closeWindow
  try dsimp only
  repeat' first
    | with_reducible assumption
    | with_reducible exact Changes.refl _ _
    | with_reducible apply Changes.ite
    | with_reducible apply collectWindow_changes
    | with_reducible apply issueToken_changes
    | with_reducible apply modChan_changes
    | with_reducible apply onShotOf_changes
    | with_reducible apply recordChan_changes
    | with_reducible apply writeDecision_changes
    | exact Part.sub_trans (by decide) hp
    | exact Part.mem hp (by decide)
    | (intro _; try dsimp only)
    | split

theorem feedAdd_changes {P : List Part} {s₀ : State} (n : StallId) (o : Owner) (c : Counts) (s : State) (hp : Part.sub [.feeds] P = true)  (hc : Changes P s₀ s) : Changes P s₀ (feedAdd n o c s) := by
  unfold feedAdd
  try dsimp only
  repeat' first
    | with_reducible assumption
    | with_reducible exact Changes.refl _ _
    | with_reducible apply Changes.ite
    | with_reducible apply modFeed_changes
    | exact Part.sub_trans (by decide) hp
    | exact Part.mem hp (by decide)
    | (intro _; try dsimp only)
    | split

theorem feedCut_changes {P : List Part} {s₀ : State} (c : ChanId) (w : Window) (s : State) (hp : Part.sub [.feeds] P = true)  (hc : Changes P s₀ s) : Changes P s₀ (feedCut c w s) := by
  unfold feedCut
  try dsimp only
  repeat' first
    | with_reducible assumption
    | with_reducible exact Changes.refl _ _
    | with_reducible apply Changes.ite
    | with_reducible apply feedAdd_changes
    | exact Part.sub_trans (by decide) hp
    | exact Part.mem hp (by decide)
    | (intro _; try dsimp only)
    | split

theorem cutWindows_changes {P : List Part} {s₀ : State} (n : StallId) (s : State) (hp : Part.sub [.funcs, .chans, .nodes, .books, .flights, .nextFlight, .hub, .riders, .queues, .farriers, .feeds, .freeCtr] P = true)  (hc : Changes P s₀ s) : Changes P s₀ (cutWindows n s) := by
  unfold cutWindows
  try dsimp only
  repeat' first
    | with_reducible assumption
    | with_reducible exact Changes.refl _ _
    | with_reducible apply Changes.ite
    | with_reducible apply closeWindow_changes
    | with_reducible apply discardOpens_changes
    | with_reducible apply feedCut_changes
    | with_reducible apply forEach_changes
    | exact Part.sub_trans (by decide) hp
    | exact Part.mem hp (by decide)
    | (intro _; try dsimp only)
    | split

theorem markWindows_changes {P : List Part} {s₀ : State} (n : StallId) (k : Fin 5) (f : Window → Window) (cause : Option ShotCause) (s : State) (hp : Part.sub [.chans, .riders] P = true)  (hc : Changes P s₀ s) : Changes P s₀ (markWindows n k f cause s) := by
  unfold markWindows
  try dsimp only
  repeat' first
    | with_reducible assumption
    | with_reducible exact Changes.refl _ _
    | with_reducible apply Changes.ite
    | with_reducible apply forEach_changes
    | with_reducible apply markWindow_changes
    | exact Part.sub_trans (by decide) hp
    | exact Part.mem hp (by decide)
    | (intro _; try dsimp only)
    | split

theorem countOpen_changes {P : List Part} {s₀ : State} (c : ChanId) (s : State) (hp : Part.sub [.chans] P = true)  (hc : Changes P s₀ s) : Changes P s₀ (countOpen c s) := by
  unfold countOpen
  try dsimp only
  repeat' first
    | with_reducible assumption
    | with_reducible exact Changes.refl _ _
    | with_reducible apply Changes.ite
    | with_reducible apply modChan_changes
    | exact Part.sub_trans (by decide) hp
    | exact Part.mem hp (by decide)
    | (intro _; try dsimp only)
    | split

theorem grantOpen_changes {P : List Part} {s₀ : State} (r : RiderId) (c : ChanId) (start : Nat) (len : Nat) (s : State) (hp : Part.sub [.chans, .riders] P = true)  (hc : Changes P s₀ s) : Changes P s₀ (grantOpen r c start len s) := by
  unfold grantOpen
  try dsimp only
  repeat' first
    | with_reducible assumption
    | with_reducible exact Changes.refl _ _
    | with_reducible apply Changes.ite
    | with_reducible apply modChan_changes
    | with_reducible apply modRider_changes
    | exact Part.sub_trans (by decide) hp
    | exact Part.mem hp (by decide)
    | (intro _; try dsimp only)
    | split

theorem takeIndex_changes {P : List Part} {s₀ : State} (c : ChanId) (q : OpenReq) (s : State) (hp : Part.sub [.riders] P = true)  (hc : Changes P s₀ s) : Changes P s₀ (takeIndex c q s).1 := by
  unfold takeIndex
  try dsimp only
  repeat' first
    | with_reducible assumption
    | with_reducible exact Changes.refl _ _
    | with_reducible apply Changes.ite
    | with_reducible apply modRider_changes
    | with_reducible apply Changes.fst_ite
    | refine Changes.fst ‹_ = (_, _)› ?_
    | dsimp only
    | exact Part.sub_trans (by decide) hp
    | exact Part.mem hp (by decide)
    | (intro _; try dsimp only)
    | split

theorem openWindow_changes {P : List Part} {s₀ : State} (c : ChanId) (q : OpenReq) (s : State) (hp : Part.sub [.funcs, .chans, .riders] P = true)  (hc : Changes P s₀ s) : Changes P s₀ (openWindow c q s) := by
  unfold openWindow
  try dsimp only
  repeat' first
    | with_reducible assumption
    | with_reducible exact Changes.refl _ _
    | with_reducible apply Changes.ite
    | with_reducible apply markWindow_changes
    | with_reducible apply modChan_changes
    | with_reducible apply recordChan_changes
    | with_reducible apply takeIndex_changes
    | with_reducible apply Changes.fst_ite
    | refine Changes.fst ‹_ = (_, _)› ?_
    | dsimp only
    | dsimp only [id]
    | exact Part.sub_trans (by decide) hp
    | exact Part.mem hp (by decide)
    | (intro _; try dsimp only)
    | split

theorem markFrame_changes {P : List Part} {s₀ : State} (n : StallId) (k : Fin 5) (frame : Nat) (f : Window → Window) (cause : Option ShotCause) (s : State) (hp : Part.sub [.chans, .riders] P = true)  (hc : Changes P s₀ s) : Changes P s₀ (markFrame n k frame f cause s) := by
  unfold markFrame
  try dsimp only
  repeat' first
    | with_reducible assumption
    | with_reducible exact Changes.refl _ _
    | with_reducible apply Changes.ite
    | with_reducible apply forEach_changes
    | with_reducible apply markWindow_changes
    | exact Part.sub_trans (by decide) hp
    | exact Part.mem hp (by decide)
    | (intro _; try dsimp only)
    | split

end Sys2Proof.Machine
end

