-- ==== Sys2Proof/Laws/ChangesFarrierOps.lean ====
section
/-!
SUPPORT. What each operation of Machine/FarrierOps.lean may change.
-/

set_option linter.unusedTactic false
set_option linter.unreachableTactic false
set_option linter.style.longLine false
set_option linter.unusedVariables false
set_option maxRecDepth 8000

namespace Sys2Proof.Machine

open Sys2Proof

theorem freeA4_changes {P : List Part} {s₀ : State} (n : StallId) (s : State) (hp : Part.sub [.stalls] P = true)  (hc : Changes P s₀ s) : Changes P s₀ (freeA4 n s) := by
  unfold freeA4
  try dsimp only
  repeat' first
    | with_reducible assumption
    | with_reducible exact Changes.refl _ _
    | with_reducible apply Changes.ite
    | with_reducible apply modStall_changes
    | exact Part.sub_trans (by decide) hp
    | exact Part.mem hp (by decide)
    | (intro _; try dsimp only)
    | split

theorem commitPlanes_changes {P : List Part} {s₀ : State} (c : ChanId) (x : PlaneSet) (s : State) (hp : Part.sub [.chans] P = true)  (hc : Changes P s₀ s) : Changes P s₀ (commitPlanes c x s) := by
  unfold commitPlanes
  try dsimp only
  repeat' first
    | with_reducible assumption
    | with_reducible exact Changes.refl _ _
    | with_reducible apply Changes.ite
    | with_reducible apply modChan_changes
    | exact Part.sub_trans (by decide) hp
    | exact Part.mem hp (by decide)
    | (intro _; try dsimp only)
    | split

theorem wakeSpareReq_changes {P : List Part} {s₀ : State} (n : StallId) (s : State) (hp : Part.sub [.stalls] P = true)  (hc : Changes P s₀ s) : Changes P s₀ (wakeSpareReq n s) := by
  unfold wakeSpareReq
  try dsimp only
  repeat' first
    | with_reducible assumption
    | with_reducible exact Changes.refl _ _
    | with_reducible apply Changes.ite
    | with_reducible apply modStall_changes
    | exact Part.sub_trans (by decide) hp
    | exact Part.mem hp (by decide)
    | (intro _; try dsimp only)
    | split

theorem stopCal_changes {P : List Part} {s₀ : State} (n : StallId) (op : OpStatus) (s : State) (hp : Part.sub [.funcs, .irqs, .stalls, .farriers] P = true)  (hc : Changes P s₀ s) : Changes P s₀ (stopCal n op s) := by
  unfold stopCal
  try dsimp only
  repeat' first
    | with_reducible assumption
    | with_reducible exact Changes.refl _ _
    | with_reducible apply Changes.ite
    | with_reducible apply modFarrier_changes
    | with_reducible apply raise_changes
    | with_reducible apply wakeSpareReq_changes
    | exact Part.sub_trans (by decide) hp
    | exact Part.mem hp (by decide)
    | (intro _; try dsimp only)
    | split

theorem endCal_changes {P : List Part} {s₀ : State} (n : StallId) (st : OpState) (code : Code) (s : State) (hp : Part.sub [.funcs, .irqs, .stalls, .farriers] P = true)  (hc : Changes P s₀ s) : Changes P s₀ (endCal n st code s) := by
  unfold endCal
  try dsimp only
  repeat' first
    | with_reducible assumption
    | with_reducible exact Changes.refl _ _
    | with_reducible apply Changes.ite
    | with_reducible apply modFarrier_changes
    | with_reducible apply record_changes
    | with_reducible apply stopCal_changes
    | exact Part.sub_trans (by decide) hp
    | exact Part.mem hp (by decide)
    | (intro _; try dsimp only)
    | split

theorem abortCal_changes {P : List Part} {s₀ : State} (n : StallId) (which : Calib → Bool) (s : State) (hp : Part.sub [.funcs, .irqs, .stalls, .farriers] P = true)  (hc : Changes P s₀ s) : Changes P s₀ (abortCal n which s) := by
  unfold abortCal
  try dsimp only
  repeat' first
    | with_reducible assumption
    | with_reducible exact Changes.refl _ _
    | with_reducible apply Changes.ite
    | with_reducible apply endCal_changes
    | exact Part.sub_trans (by decide) hp
    | exact Part.mem hp (by decide)
    | (intro _; try dsimp only)
    | split

theorem leaveCal_changes {P : List Part} {s₀ : State} (n : StallId) (s : State) (hp : Part.sub [.funcs, .irqs, .stalls, .farriers] P = true)  (hc : Changes P s₀ s) : Changes P s₀ (leaveCal n s) := by
  unfold leaveCal
  try dsimp only
  repeat' first
    | with_reducible assumption
    | with_reducible exact Changes.refl _ _
    | with_reducible apply Changes.ite
    | with_reducible apply abortCal_changes
    | with_reducible apply freeA4_changes
    | with_reducible apply modFarrier_changes
    | exact Part.sub_trans (by decide) hp
    | exact Part.mem hp (by decide)
    | (intro _; try dsimp only)
    | split

theorem modStud_changes {P : List Part} {s₀ : State} (n : StallId) (f : Stud → Stud) (s : State) (hp : Part.sub [.persist] P = true)  (hc : Changes P s₀ s) : Changes P s₀ (modStud n f s) := by
  unfold modStud
  try dsimp only
  repeat' first
    | with_reducible assumption
    | with_reducible exact Changes.refl _ _
    | with_reducible apply Changes.ite
    | with_reducible apply setPersist_changes
    | exact Part.sub_trans (by decide) hp
    | exact Part.mem hp (by decide)
    | (intro _; try dsimp only)
    | split

theorem loadStud_changes {P : List Part} {s₀ : State} (n : StallId) (okA : Bool) (okB : Bool) (s : State) (hp : Part.sub [.funcs, .persist, .stalls, .trims] P = true)  (hc : Changes P s₀ s) : Changes P s₀ (loadStud n okA okB s) := by
  unfold loadStud
  try dsimp only
  repeat' first
    | with_reducible assumption
    | with_reducible exact Changes.refl _ _
    | with_reducible apply Changes.ite
    | with_reducible apply modStall_changes
    | with_reducible apply modStud_changes
    | with_reducible apply modTrims_changes
    | with_reducible apply record_changes
    | exact Part.sub_trans (by decide) hp
    | exact Part.mem hp (by decide)
    | (intro _; try dsimp only)
    | split

theorem stageTrims_changes {P : List Part} {s₀ : State} (vs : List VoiceId) (s : State) (hp : Part.sub [.voices] P = true)  (hc : Changes P s₀ s) : Changes P s₀ (stageTrims vs s) := by
  unfold stageTrims
  try dsimp only
  repeat' first
    | with_reducible assumption
    | with_reducible exact Changes.refl _ _
    | with_reducible apply Changes.ite
    | with_reducible apply forEach_changes
    | with_reducible apply modVoice_changes
    | exact Part.sub_trans (by decide) hp
    | exact Part.mem hp (by decide)
    | (intro _; try dsimp only)
    | split

theorem recordStud_changes {P : List Part} {s₀ : State} (n : StallId) (bad : Option Bool) (s : State) (hp : Part.sub [.persist] P = true)  (hc : Changes P s₀ s) : Changes P s₀ (recordStud n bad s) := by
  unfold recordStud
  try dsimp only
  repeat' first
    | with_reducible assumption
    | with_reducible exact Changes.refl _ _
    | with_reducible apply Changes.ite
    | with_reducible apply modStud_changes
    | exact Part.sub_trans (by decide) hp
    | exact Part.mem hp (by decide)
    | (intro _; try dsimp only)
    | split

theorem tickCores_changes {P : List Part} {s₀ : State} (n : StallId) (s : State) (hp : Part.sub [.trims] P = true)  (hc : Changes P s₀ s) : Changes P s₀ (tickCores n s) := by
  unfold tickCores
  try dsimp only
  repeat' first
    | with_reducible assumption
    | with_reducible exact Changes.refl _ _
    | with_reducible apply Changes.ite
    | with_reducible apply forEach_changes
    | with_reducible apply modTrims_changes
    | exact Part.sub_trans (by decide) hp
    | exact Part.mem hp (by decide)
    | (intro _; try dsimp only)
    | split

theorem tickFarrier_changes {P : List Part} {s₀ : State} (n : StallId) (s : State) (hp : Part.sub [.farriers, .freeCtr] P = true)  (hc : Changes P s₀ s) : Changes P s₀ (tickFarrier n s) := by
  unfold tickFarrier
  try dsimp only
  repeat' first
    | with_reducible assumption
    | with_reducible exact Changes.refl _ _
    | with_reducible apply Changes.ite
    | with_reducible apply freshen_changes
    | with_reducible apply modFarrier_changes
    | with_reducible apply observeOne_changes
    | exact Part.sub_trans (by decide) hp
    | exact Part.mem hp (by decide)
    | (intro _; try dsimp only)
    | split

theorem tickMarkers_changes {P : List Part} {s₀ : State} (n : StallId) (s : State) (hp : Part.sub [.trims] P = true)  (hc : Changes P s₀ s) : Changes P s₀ (tickMarkers n s) := by
  unfold tickMarkers
  try dsimp only
  repeat' first
    | with_reducible assumption
    | with_reducible exact Changes.refl _ _
    | with_reducible apply Changes.ite
    | with_reducible apply forEach_changes
    | with_reducible apply modTrims_changes
    | exact Part.sub_trans (by decide) hp
    | exact Part.mem hp (by decide)
    | (intro _; try dsimp only)
    | split

theorem tickTrims_changes {P : List Part} {s₀ : State} (n : StallId) (s : State) (hp : Part.sub [.trims] P = true)  (hc : Changes P s₀ s) : Changes P s₀ (tickTrims n s) := by
  unfold tickTrims
  try dsimp only
  repeat' first
    | with_reducible assumption
    | with_reducible exact Changes.refl _ _
    | with_reducible apply Changes.ite
    | with_reducible apply tickCores_changes
    | with_reducible apply tickMarkers_changes
    | exact Part.sub_trans (by decide) hp
    | exact Part.mem hp (by decide)
    | (intro _; try dsimp only)
    | split

end Sys2Proof.Machine
end

