-- ==== Sys2Proof/Laws/ChangesFluxOps.lean ====
section
/-!
SUPPORT. What each operation of Machine/FluxOps.lean may change.
-/

set_option linter.unusedTactic false
set_option linter.unreachableTactic false
set_option linter.style.longLine false
set_option linter.unusedVariables false
set_option maxRecDepth 8000

namespace Sys2Proof.Machine

open Sys2Proof

theorem recordLine_changes {P : List Part} {s₀ : State} (code : Code) (l : LineId) (s : State) (hp : Part.sub [.funcs] P = true)  (hc : Changes P s₀ s) : Changes P s₀ (recordLine code l s) := by
  unfold recordLine
  try dsimp only
  repeat' first
    | with_reducible assumption
    | with_reducible exact Changes.refl _ _
    | with_reducible apply Changes.ite
    | with_reducible apply record_changes
    | exact Part.sub_trans (by decide) hp
    | exact Part.mem hp (by decide)
    | (intro _; try dsimp only)
    | split

theorem grantFast_changes {P : List Part} {s₀ : State} (l : LineId) (frame : Nat) (level : BitVec 16) (s : State) (hp : Part.sub [.funcs, .fasts] P = true)  (hc : Changes P s₀ s) : Changes P s₀ (grantFast l frame level s) := by
  unfold grantFast
  try dsimp only
  repeat' first
    | with_reducible assumption
    | with_reducible exact Changes.refl _ _
    | with_reducible apply Changes.ite
    | with_reducible apply modFast_changes
    | with_reducible apply recordLine_changes
    | exact Part.sub_trans (by decide) hp
    | exact Part.mem hp (by decide)
    | (intro _; try dsimp only)
    | split

theorem grantOne_changes {P : List Part} {s₀ : State} (l : LineId) (s : State) (hp : Part.sub [.funcs, .fasts] P = true)  (hc : Changes P s₀ s) : Changes P s₀ (grantOne l s) := by
  unfold grantOne
  try dsimp only
  repeat' first
    | with_reducible assumption
    | with_reducible exact Changes.refl _ _
    | with_reducible apply Changes.ite
    | with_reducible apply grantFast_changes
    | with_reducible apply modFast_changes
    | with_reducible apply refuseReg_changes
    | exact Part.sub_trans (by decide) hp
    | exact Part.mem hp (by decide)
    | (intro _; try dsimp only)
    | split

theorem grantWaiting_changes {P : List Part} {s₀ : State} (l : LineId) (s : State) (hp : Part.sub [.funcs, .fasts] P = true)  (hc : Changes P s₀ s) : Changes P s₀ (grantWaiting l s) := by
  unfold grantWaiting
  try dsimp only
  repeat' first
    | with_reducible assumption
    | with_reducible exact Changes.refl _ _
    | with_reducible apply Changes.ite
    | with_reducible apply forEach_changes
    | with_reducible apply grantOne_changes
    | exact Part.sub_trans (by decide) hp
    | exact Part.mem hp (by decide)
    | (intro _; try dsimp only)
    | split

theorem countLine_changes {P : List Part} {s₀ : State} (l : LineId) (s : State) (hp : Part.sub [.fasts] P = true)  (hc : Changes P s₀ s) : Changes P s₀ (countLine l s) := by
  unfold countLine
  try dsimp only
  repeat' first
    | with_reducible assumption
    | with_reducible exact Changes.refl _ _
    | with_reducible apply Changes.ite
    | with_reducible apply modFast_changes
    | exact Part.sub_trans (by decide) hp
    | exact Part.mem hp (by decide)
    | (intro _; try dsimp only)
    | split

theorem goSafe_changes {P : List Part} {s₀ : State} (l : LineId) (s : State) (hp : Part.sub [.lines] P = true)  (hc : Changes P s₀ s) : Changes P s₀ (goSafe l s) := by
  unfold goSafe
  try dsimp only
  repeat' first
    | with_reducible assumption
    | with_reducible exact Changes.refl _ _
    | with_reducible apply Changes.ite
    | with_reducible apply modLine_changes
    | exact Part.sub_trans (by decide) hp
    | exact Part.mem hp (by decide)
    | (intro _; try dsimp only)
    | split

theorem persistLine_changes {P : List Part} {s₀ : State} (l : LineId) (s : State) (hp : Part.sub [.persist] P = true)  (hc : Changes P s₀ s) : Changes P s₀ (persistLine l s) := by
  unfold persistLine
  try dsimp only
  repeat' first
    | with_reducible assumption
    | with_reducible exact Changes.refl _ _
    | with_reducible apply Changes.ite
    | with_reducible apply setPersist_changes
    | exact Part.sub_trans (by decide) hp
    | exact Part.mem hp (by decide)
    | (intro _; try dsimp only)
    | split

theorem grantDc_changes {P : List Part} {s₀ : State} (l : LineId) (g : DcPoint) (s : State) (hp : Part.sub [.lines] P = true)  (hc : Changes P s₀ s) : Changes P s₀ (grantDc l g s) := by
  unfold grantDc
  try dsimp only
  repeat' first
    | with_reducible assumption
    | with_reducible exact Changes.refl _ _
    | with_reducible apply Changes.ite
    | with_reducible apply modLine_changes
    | exact Part.sub_trans (by decide) hp
    | exact Part.mem hp (by decide)
    | (intro _; try dsimp only)
    | split

theorem countClips_changes {P : List Part} {s₀ : State} (l : LineId) (until_ : Fine) (s : State) (hp : Part.sub [.funcs, .fasts] P = true)  (hc : Changes P s₀ s) : Changes P s₀ (countClips l until_ s) := by
  unfold countClips
  try dsimp only
  repeat' first
    | with_reducible assumption
    | with_reducible exact Changes.refl _ _
    | with_reducible apply Changes.ite
    | with_reducible apply modFast_changes
    | with_reducible apply recordLine_changes
    | exact Part.sub_trans (by decide) hp
    | exact Part.mem hp (by decide)
    | (intro _; try dsimp only)
    | split

theorem changeLevel_changes {P : List Part} {s₀ : State} (l : LineId) (level : BitVec 16) (frame : Nat) (s : State) (hp : Part.sub [.funcs, .fasts] P = true)  (hc : Changes P s₀ s) : Changes P s₀ (changeLevel l level frame s) := by
  unfold changeLevel
  try dsimp only
  repeat' first
    | with_reducible assumption
    | with_reducible exact Changes.refl _ _
    | with_reducible apply Changes.ite
    | with_reducible apply countClips_changes
    | with_reducible apply modFast_changes
    | exact Part.sub_trans (by decide) hp
    | exact Part.mem hp (by decide)
    | (intro _; try dsimp only)
    | split

theorem fastReturn_changes {P : List Part} {s₀ : State} (l : LineId) (s : State) (hp : Part.sub [.funcs, .fasts] P = true)  (hc : Changes P s₀ s) : Changes P s₀ (fastReturn l s) := by
  unfold fastReturn
  try dsimp only
  repeat' first
    | with_reducible assumption
    | with_reducible exact Changes.refl _ _
    | with_reducible apply Changes.ite
    | with_reducible apply changeLevel_changes
    | with_reducible apply grantWaiting_changes
    | with_reducible apply modFast_changes
    | exact Part.sub_trans (by decide) hp
    | exact Part.mem hp (by decide)
    | (intro _; try dsimp only)
    | split

theorem fastStop_changes {P : List Part} {s₀ : State} (n : StallId) (s : State) (hp : Part.sub [.funcs, .fasts] P = true)  (hc : Changes P s₀ s) : Changes P s₀ (fastStop n s) := by
  unfold fastStop
  try dsimp only
  repeat' first
    | with_reducible assumption
    | with_reducible exact Changes.refl _ _
    | with_reducible apply Changes.ite
    | with_reducible apply fastReturn_changes
    | with_reducible apply forEach_changes
    | exact Part.sub_trans (by decide) hp
    | exact Part.mem hp (by decide)
    | (intro _; try dsimp only)
    | split

theorem linesSafe_changes {P : List Part} {s₀ : State} (n : StallId) (s : State) (hp : Part.sub [.lines] P = true)  (hc : Changes P s₀ s) : Changes P s₀ (linesSafe n s) := by
  unfold linesSafe
  try dsimp only
  repeat' first
    | with_reducible assumption
    | with_reducible exact Changes.refl _ _
    | with_reducible apply Changes.ite
    | with_reducible apply forEach_changes
    | with_reducible apply goSafe_changes
    | with_reducible apply modLine_changes
    | exact Part.sub_trans (by decide) hp
    | exact Part.mem hp (by decide)
    | (intro _; try dsimp only)
    | split

theorem fastZero_changes {P : List Part} {s₀ : State} (l : LineId) (s : State) (hp : Part.sub [.funcs, .fasts] P = true)  (hc : Changes P s₀ s) : Changes P s₀ (fastZero l s) := by
  unfold fastZero
  try dsimp only
  repeat' first
    | with_reducible assumption
    | with_reducible exact Changes.refl _ _
    | with_reducible apply Changes.ite
    | with_reducible apply countClips_changes
    | with_reducible apply grantWaiting_changes
    | with_reducible apply modFast_changes
    | exact Part.sub_trans (by decide) hp
    | exact Part.mem hp (by decide)
    | (intro _; try dsimp only)
    | split

theorem fastDown_changes {P : List Part} {s₀ : State} (n : StallId) (s : State) (hp : Part.sub [.funcs, .fasts] P = true)  (hc : Changes P s₀ s) : Changes P s₀ (fastDown n s) := by
  unfold fastDown
  try dsimp only
  repeat' first
    | with_reducible assumption
    | with_reducible exact Changes.refl _ _
    | with_reducible apply Changes.ite
    | with_reducible apply fastZero_changes
    | with_reducible apply forEach_changes
    | exact Part.sub_trans (by decide) hp
    | exact Part.mem hp (by decide)
    | (intro _; try dsimp only)
    | split

theorem markGroup_changes {P : List Part} {s₀ : State} (g : GroupId) (s : State) (hp : Part.sub [.riders] P = true)  (hc : Changes P s₀ s) : Changes P s₀ (markGroup g s) := by
  unfold markGroup
  try dsimp only
  repeat' first
    | with_reducible assumption
    | with_reducible exact Changes.refl _ _
    | with_reducible apply Changes.ite
    | with_reducible apply forEach_changes
    | with_reducible apply markRider_changes
    | exact Part.sub_trans (by decide) hp
    | exact Part.mem hp (by decide)
    | (intro _; try dsimp only)
    | split

theorem groupFault_changes {P : List Part} {s₀ : State} (g : GroupId) (cause : BitVec 4) (s : State) (hp : Part.sub [.funcs, .riders, .lines, .fasts, .groups] P = true)  (hc : Changes P s₀ s) : Changes P s₀ (groupFault g cause s) := by
  unfold groupFault
  try dsimp only
  repeat' first
    | with_reducible assumption
    | with_reducible exact Changes.refl _ _
    | with_reducible apply Changes.ite
    | with_reducible apply fastZero_changes
    | with_reducible apply forEach_changes
    | with_reducible apply markGroup_changes
    | with_reducible apply modGroup_changes
    | with_reducible apply modLine_changes
    | with_reducible apply record_changes
    | exact Part.sub_trans (by decide) hp
    | exact Part.mem hp (by decide)
    | (intro _; try dsimp only)
    | split

theorem tickLines_changes {P : List Part} {s₀ : State} (s : State) (hp : Part.sub [.lines] P = true)  (hc : Changes P s₀ s) : Changes P s₀ (tickLines s) := by
  unfold tickLines
  try dsimp only
  repeat' first
    | with_reducible assumption
    | with_reducible exact Changes.refl _ _
    | with_reducible apply Changes.ite
    | with_reducible apply Changes.set_lines
    | exact Part.sub_trans (by decide) hp
    | exact Part.mem hp (by decide)
    | (intro _; try dsimp only)
    | split

end Sys2Proof.Machine
end

