-- ==== Sys2Proof/Laws/ChangesRiderOps.lean ====
section
/-!
SUPPORT. What each operation of Machine/RiderOps.lean may change.
-/

set_option linter.unusedTactic false
set_option linter.unreachableTactic false
set_option linter.style.longLine false
set_option linter.unusedVariables false
set_option maxRecDepth 8000

namespace Sys2Proof.Machine

open Sys2Proof

theorem recordRider_changes {P : List Part} {s₀ : State} (code : Code) (r : RiderId) (s : State) (hp : Part.sub [.funcs] P = true)  (hc : Changes P s₀ s) : Changes P s₀ (recordRider code r s) := by
  unfold recordRider
  try dsimp only
  repeat' first
    | with_reducible assumption
    | with_reducible exact Changes.refl _ _
    | with_reducible apply Changes.ite
    | with_reducible apply record_changes
    | exact Part.sub_trans (by decide) hp
    | exact Part.mem hp (by decide)
    | (intro _; try dsimp only)
    | split

theorem feedShot_changes {P : List Part} {s₀ : State} (n : StallId) (o : Owner) (aborted : Bool) (s : State) (hp : Part.sub [.feeds] P = true)  (hc : Changes P s₀ s) : Changes P s₀ (feedShot n o aborted s) := by
  unfold feedShot
  try dsimp only
  repeat' first
    | with_reducible assumption
    | with_reducible exact Changes.refl _ _
    | with_reducible apply Changes.ite
    | with_reducible apply modFeed_changes
    | exact Part.sub_trans (by decide) hp
    | exact Part.mem hp (by decide)
    | (intro _; try dsimp only)
    | split

theorem countDrain_changes {P : List Part} {s₀ : State} (n : StallId) (aborted : Bool) (s : State) (hp : Part.sub [.stalls] P = true)  (hc : Changes P s₀ s) : Changes P s₀ (countDrain n aborted s) := by
  unfold countDrain
  try dsimp only
  repeat' first
    | with_reducible assumption
    | with_reducible exact Changes.refl _ _
    | with_reducible apply Changes.ite
    | with_reducible apply modStall_changes
    | exact Part.sub_trans (by decide) hp
    | exact Part.mem hp (by decide)
    | (intro _; try dsimp only)
    | split

theorem writeShot_changes {P : List Part} {s₀ : State} (r : RiderId) (aborted : Bool) (end_ : Word64) (s : State) (hp : Part.sub [.funcs, .riders, .queues] P = true)  (hc : Changes P s₀ s) : Changes P s₀ (writeShot r aborted end_ s) := by
  unfold writeShot
  try dsimp only
  repeat' first
    | with_reducible assumption
    | with_reducible exact Changes.refl _ _
    | with_reducible apply Changes.ite
    | with_reducible apply issueWords_changes
    | with_reducible apply modRider_changes
    | with_reducible apply recordRider_changes
    | exact Part.sub_trans (by decide) hp
    | exact Part.mem hp (by decide)
    | (intro _; try dsimp only)
    | split

theorem endShot_changes {P : List Part} {s₀ : State} (r : RiderId) (aborted : Bool) (end_ : Word64) (s : State) (hp : Part.sub [.funcs, .stalls, .riders, .queues, .feeds] P = true)  (hc : Changes P s₀ s) : Changes P s₀ (endShot r aborted end_ s) := by
  unfold endShot
  try dsimp only
  repeat' first
    | with_reducible assumption
    | with_reducible exact Changes.refl _ _
    | with_reducible apply Changes.ite
    | with_reducible apply countDrain_changes
    | with_reducible apply feedShot_changes
    | with_reducible apply modRider_changes
    | with_reducible apply writeShot_changes
    | exact Part.sub_trans (by decide) hp
    | exact Part.mem hp (by decide)
    | (intro _; try dsimp only)
    | split

theorem dropSpent_changes {P : List Part} {s₀ : State} (r : RiderId) (v : VoiceId) (s : State) (hp : Part.sub [.seqs] P = true)  (hc : Changes P s₀ s) : Changes P s₀ (dropSpent r v s) := by
  unfold dropSpent
  try dsimp only
  repeat' first
    | with_reducible assumption
    | with_reducible exact Changes.refl _ _
    | with_reducible apply Changes.ite
    | with_reducible apply modSeq_changes
    | exact Part.sub_trans (by decide) hp
    | exact Part.mem hp (by decide)
    | (intro _; try dsimp only)
    | split

theorem stopRider_changes {P : List Part} {s₀ : State} (r : RiderId) (k : StopKind) (s : State) (hp : Part.sub [.funcs, .stalls, .seqs, .chans, .riders, .queues, .feeds] P = true)  (hc : Changes P s₀ s) : Changes P s₀ (stopRider r k s) := by
  unfold stopRider
  try dsimp only
  repeat' first
    | with_reducible assumption
    | with_reducible exact Changes.refl _ _
    | with_reducible apply Changes.ite
    | with_reducible apply discardOpens_changes
    | with_reducible apply dropSpent_changes
    | with_reducible apply endShot_changes
    | with_reducible apply forEach_changes
    | with_reducible apply goIdle_changes
    | with_reducible apply modRider_changes
    | with_reducible apply modSeq_changes
    | exact Part.sub_trans (by decide) hp
    | exact Part.mem hp (by decide)
    | (intro _; try dsimp only)
    | split

theorem fatalFault_changes {P : List Part} {s₀ : State} (r : RiderId) (code : Code) (s : State) (hp : Part.sub [.funcs, .irqs, .stalls, .seqs, .chans, .riders, .queues, .feeds] P = true)  (hc : Changes P s₀ s) : Changes P s₀ (fatalFault r code s) := by
  unfold fatalFault
  try dsimp only
  repeat' first
    | with_reducible assumption
    | with_reducible exact Changes.refl _ _
    | with_reducible apply Changes.ite
    | with_reducible apply modRider_changes
    | with_reducible apply raise_changes
    | with_reducible apply recordRider_changes
    | with_reducible apply stopRider_changes
    | exact Part.sub_trans (by decide) hp
    | exact Part.mem hp (by decide)
    | (intro _; try dsimp only)
    | split

theorem enterHandler_changes {P : List Part} {s₀ : State} (r : RiderId) (s : State) (hp : Part.sub [.funcs, .irqs, .stalls, .seqs, .chans, .riders, .queues, .feeds] P = true)  (hc : Changes P s₀ s) : Changes P s₀ (enterHandler r s) := by
  unfold enterHandler
  try dsimp only
  repeat' first
    | with_reducible assumption
    | with_reducible exact Changes.refl _ _
    | with_reducible apply Changes.ite
    | with_reducible apply fatalFault_changes
    | with_reducible apply modRider_changes
    | exact Part.sub_trans (by decide) hp
    | exact Part.mem hp (by decide)
    | (intro _; try dsimp only)
    | split

theorem sampleFaults_changes {P : List Part} {s₀ : State} (r : RiderId) (s : State) (hp : Part.sub [.funcs, .irqs, .stalls, .seqs, .chans, .riders, .queues, .feeds] P = true)  (hc : Changes P s₀ s) : Changes P s₀ (sampleFaults r s) := by
  unfold sampleFaults
  try dsimp only
  repeat' first
    | with_reducible assumption
    | with_reducible exact Changes.refl _ _
    | with_reducible apply Changes.ite
    | with_reducible apply enterHandler_changes
    | exact Part.sub_trans (by decide) hp
    | exact Part.mem hp (by decide)
    | (intro _; try dsimp only)
    | split

theorem askStop_changes {P : List Part} {s₀ : State} (r : RiderId) (k : StopKind) (s : State) (hp : Part.sub [.funcs, .stalls, .seqs, .chans, .riders, .queues, .feeds] P = true)  (hc : Changes P s₀ s) : Changes P s₀ (askStop r k s) := by
  unfold askStop
  try dsimp only
  repeat' first
    | with_reducible assumption
    | with_reducible exact Changes.refl _ _
    | with_reducible apply Changes.ite
    | with_reducible apply modRider_changes
    | with_reducible apply stopRider_changes
    | exact Part.sub_trans (by decide) hp
    | exact Part.mem hp (by decide)
    | (intro _; try dsimp only)
    | split

theorem drainRider_changes {P : List Part} {s₀ : State} (r : RiderId) (s : State) (hp : Part.sub [.funcs, .stalls, .seqs, .chans, .riders, .queues, .feeds] P = true)  (hc : Changes P s₀ s) : Changes P s₀ (drainRider r s) := by
  unfold drainRider
  try dsimp only
  repeat' first
    | with_reducible assumption
    | with_reducible exact Changes.refl _ _
    | with_reducible apply Changes.ite
    | with_reducible apply modRider_changes
    | with_reducible apply stopRider_changes
    | exact Part.sub_trans (by decide) hp
    | exact Part.mem hp (by decide)
    | (intro _; try dsimp only)
    | split

theorem releaseRider_changes {P : List Part} {s₀ : State} (r : RiderId) (s : State) (hp : Part.sub [.riders] P = true)  (hc : Changes P s₀ s) : Changes P s₀ (releaseRider r s) := by
  unfold releaseRider
  try dsimp only
  repeat' first
    | with_reducible assumption
    | with_reducible exact Changes.refl _ _
    | with_reducible apply Changes.ite
    | with_reducible apply modRider_changes
    | exact Part.sub_trans (by decide) hp
    | exact Part.mem hp (by decide)
    | (intro _; try dsimp only)
    | split

theorem stay_changes {P : List Part} {s₀ : State} (r : RiderId) (w : MicroWord) (st : RiderState) (timed : Bool) (s : State) (hp : Part.sub [.riders] P = true)  (hc : Changes P s₀ s) : Changes P s₀ (stay r w st timed s) := by
  unfold stay
  try dsimp only
  repeat' first
    | with_reducible assumption
    | with_reducible exact Changes.refl _ _
    | with_reducible apply Changes.ite
    | with_reducible apply modRider_changes
    | exact Part.sub_trans (by decide) hp
    | exact Part.mem hp (by decide)
    | (intro _; try dsimp only)
    | split

theorem pause_changes {P : List Part} {s₀ : State} (r : RiderId) (s : State) (hp : Part.sub [.funcs, .irqs, .stalls, .seqs, .chans, .riders, .queues, .feeds] P = true)  (hc : Changes P s₀ s) : Changes P s₀ (pause r s) := by
  unfold pause
  try dsimp only
  repeat' first
    | with_reducible assumption
    | with_reducible exact Changes.refl _ _
    | with_reducible apply Changes.ite
    | with_reducible apply sampleFaults_changes
    | with_reducible apply stopRider_changes
    | exact Part.sub_trans (by decide) hp
    | exact Part.mem hp (by decide)
    | (intro _; try dsimp only)
    | split

theorem actCtrig_changes {P : List Part} {s₀ : State} (r : RiderId) (w : MicroWord) (s : State) (hp : Part.sub [.funcs, .units] P = true)  (hc : Changes P s₀ s) : Changes P s₀ (actCtrig r w s).1 := by
  unfold actCtrig
  try dsimp only
  repeat' first
    | with_reducible assumption
    | with_reducible exact Changes.refl _ _
    | with_reducible apply Changes.ite
    | with_reducible apply trigger_changes
    | with_reducible apply Changes.fst_ite
    | refine Changes.fst ‹_ = (_, _)› ?_
    | dsimp only
    | exact Part.sub_trans (by decide) hp
    | exact Part.mem hp (by decide)
    | (intro _; try dsimp only)
    | split

theorem actFlipFlop_changes {P : List Part} {s₀ : State} (r : RiderId) (w : MicroWord) (g : Grant) (s : State) (hp : Part.sub [.cells] P = true)  (hc : Changes P s₀ s) : Changes P s₀ (actFlipFlop r w g s).1 := by
  unfold actFlipFlop
  try dsimp only
  repeat' first
    | with_reducible assumption
    | with_reducible exact Changes.refl _ _
    | with_reducible apply Changes.ite
    | with_reducible apply clearFlipFlopsOf_changes
    | with_reducible apply setFlipFlopOf_changes
    | with_reducible apply Changes.fst_ite
    | refine Changes.fst ‹_ = (_, _)› ?_
    | dsimp only
    | exact Part.sub_trans (by decide) hp
    | exact Part.mem hp (by decide)
    | (intro _; try dsimp only)
    | split

theorem actEmit_changes {P : List Part} {s₀ : State} (r : RiderId) (w : MicroWord) (s : State) (hp : Part.sub [.funcs, .nodes, .books, .flights, .nextFlight, .hub] P = true)  (hc : Changes P s₀ s) : Changes P s₀ (actEmit r w s).1 := by
  unfold actEmit
  try dsimp only
  repeat' first
    | with_reducible assumption
    | with_reducible exact Changes.refl _ _
    | with_reducible apply Changes.ite
    | with_reducible apply issueToken_changes
    | with_reducible apply loopDrop_changes
    | with_reducible apply modBook_changes
    | with_reducible apply Changes.fst_ite
    | refine Changes.fst ‹_ = (_, _)› ?_
    | dsimp only
    | exact Part.sub_trans (by decide) hp
    | exact Part.mem hp (by decide)
    | (intro _; try dsimp only)
    | split

theorem actOpen_changes {P : List Part} {s₀ : State} (r : RiderId) (w : MicroWord) (g : Grant) (again : Bool) (s : State) (hp : Part.sub [.chans, .riders] P = true)  (hc : Changes P s₀ s) : Changes P s₀ (actOpen r w g again s).1 := by
  unfold actOpen
  try dsimp only
  repeat' first
    | with_reducible assumption
    | with_reducible exact Changes.refl _ _
    | with_reducible apply Changes.ite
    | with_reducible apply countOpen_changes
    | with_reducible apply grantOpen_changes
    | with_reducible apply modChan_changes
    | with_reducible apply Changes.fst_ite
    | refine Changes.fst ‹_ = (_, _)› ?_
    | dsimp only
    | exact Part.sub_trans (by decide) hp
    | exact Part.mem hp (by decide)
    | (intro _; try dsimp only)
    | split

theorem noteLine_changes {P : List Part} {s₀ : State} (r : RiderId) (l : LineId) (s : State) (hp : Part.sub [.riders] P = true)  (hc : Changes P s₀ s) : Changes P s₀ (noteLine r l s) := by
  unfold noteLine
  try dsimp only
  repeat' first
    | with_reducible assumption
    | with_reducible exact Changes.refl _ _
    | with_reducible apply Changes.ite
    | with_reducible apply modRider_changes
    | exact Part.sub_trans (by decide) hp
    | exact Part.mem hp (by decide)
    | (intro _; try dsimp only)
    | split

theorem actFlux_changes {P : List Part} {s₀ : State} (r : RiderId) (w : MicroWord) (g : Grant) (s : State) (hp : Part.sub [.funcs, .riders, .lines, .fasts] P = true)  (hc : Changes P s₀ s) : Changes P s₀ (actFlux r w g s).1 := by
  unfold actFlux
  try dsimp only
  repeat' first
    | with_reducible assumption
    | with_reducible exact Changes.refl _ _
    | with_reducible apply Changes.ite
    | with_reducible apply countLine_changes
    | with_reducible apply grantDc_changes
    | with_reducible apply grantFast_changes
    | with_reducible apply noteLine_changes
    | with_reducible apply Changes.fst_ite
    | refine Changes.fst ‹_ = (_, _)› ?_
    | dsimp only
    | exact Part.sub_trans (by decide) hp
    | exact Part.mem hp (by decide)
    | (intro _; try dsimp only)
    | split

theorem tunePost_changes {P : List Part} {s₀ : State} (x : Rider) (w : MicroWord) (v : VoiceId) (s : State) (hp : Part.sub [.voices] P = true)  (hc : Changes P s₀ s) : Changes P s₀ (tunePost x w v s) := by
  unfold tunePost
  try dsimp only
  repeat' first
    | with_reducible assumption
    | with_reducible exact Changes.refl _ _
    | with_reducible apply Changes.ite
    | with_reducible apply addVz_changes
    | with_reducible apply modVoice_changes
    | with_reducible apply setFtw_changes
    | with_reducible apply toggleX_changes
    | with_reducible apply toggleZ_changes
    | exact Part.sub_trans (by decide) hp
    | exact Part.mem hp (by decide)
    | (intro _; try dsimp only)
    | split

theorem notePost_changes {P : List Part} {s₀ : State} (r : RiderId) (v : VoiceId) (s : State) (hp : Part.sub [.riders] P = true)  (hc : Changes P s₀ s) : Changes P s₀ (notePost r v s) := by
  unfold notePost
  try dsimp only
  repeat' first
    | with_reducible assumption
    | with_reducible exact Changes.refl _ _
    | with_reducible apply Changes.ite
    | with_reducible apply markRider_changes
    | with_reducible apply modRider_changes
    | exact Part.sub_trans (by decide) hp
    | exact Part.mem hp (by decide)
    | (intro _; try dsimp only)
    | split

theorem actTune_changes {P : List Part} {s₀ : State} (r : RiderId) (w : MicroWord) (g : Grant) (s : State) (hp : Part.sub [.voices, .riders] P = true)  (hc : Changes P s₀ s) : Changes P s₀ (actTune r w g s).1 := by
  unfold actTune
  try dsimp only
  repeat' first
    | with_reducible assumption
    | with_reducible exact Changes.refl _ _
    | with_reducible apply Changes.ite
    | with_reducible apply countVoice_changes
    | with_reducible apply notePost_changes
    | with_reducible apply tunePost_changes
    | with_reducible apply Changes.fst_ite
    | refine Changes.fst ‹_ = (_, _)› ?_
    | dsimp only
    | exact Part.sub_trans (by decide) hp
    | exact Part.mem hp (by decide)
    | (intro _; try dsimp only)
    | split

theorem actPost_changes {P : List Part} {s₀ : State} (r : RiderId) (w : MicroWord) (g : Grant) (s : State) (hp : Part.sub [.funcs, .voices, .seqs, .riders] P = true)  (hc : Changes P s₀ s) : Changes P s₀ (actPost r w g s).1 := by
  unfold actPost
  try dsimp only
  repeat' first
    | with_reducible assumption
    | with_reducible exact Changes.refl _ _
    | with_reducible apply Changes.ite
    | with_reducible apply applyPost_changes
    | with_reducible apply countVoice_changes
    | with_reducible apply notePost_changes
    | with_reducible apply Changes.fst_ite
    | refine Changes.fst ‹_ = (_, _)› ?_
    | dsimp only
    | exact Part.sub_trans (by decide) hp
    | exact Part.mem hp (by decide)
    | (intro _; try dsimp only)
    | split

theorem beginShot_changes {P : List Part} {s₀ : State} (r : RiderId) (start : Word64) (s : State) (hp : Part.sub [.riders] P = true)  (hc : Changes P s₀ s) : Changes P s₀ (beginShot r start s) := by
  unfold beginShot
  try dsimp only
  repeat' first
    | with_reducible assumption
    | with_reducible exact Changes.refl _ _
    | with_reducible apply Changes.ite
    | with_reducible apply modRider_changes
    | exact Part.sub_trans (by decide) hp
    | exact Part.mem hp (by decide)
    | (intro _; try dsimp only)
    | split

theorem actShot_changes {P : List Part} {s₀ : State} (r : RiderId) (w : MicroWord) (s : State) (hp : Part.sub [.funcs, .stalls, .riders, .queues, .feeds] P = true)  (hc : Changes P s₀ s) : Changes P s₀ (actShot r w s).1 := by
  unfold actShot
  try dsimp only
  repeat' first
    | with_reducible assumption
    | with_reducible exact Changes.refl _ _
    | with_reducible apply Changes.ite
    | with_reducible apply beginShot_changes
    | with_reducible apply endShot_changes
    | with_reducible apply Changes.fst_ite
    | refine Changes.fst ‹_ = (_, _)› ?_
    | dsimp only
    | exact Part.sub_trans (by decide) hp
    | exact Part.mem hp (by decide)
    | (intro _; try dsimp only)
    | split

theorem actPop_changes {P : List Part} {s₀ : State} (r : RiderId) (w : MicroWord) (g : Grant) (s : State) (hp : Part.sub [.riders, .queues, .qdir] P = true)  (hc : Changes P s₀ s) : Changes P s₀ (actPop r w g s).1 := by
  unfold actPop
  try dsimp only
  repeat' first
    | with_reducible assumption
    | with_reducible exact Changes.refl _ _
    | with_reducible apply Changes.ite
    | with_reducible apply fixPages_changes
    | with_reducible apply modProd_changes
    | with_reducible apply modQueue_changes
    | with_reducible apply modRider_changes
    | with_reducible apply Changes.fst_ite
    | refine Changes.fst ‹_ = (_, _)› ?_
    | dsimp only
    | (refine takeWord_some ‹_ = some (_, _)› ?_ ?_)
    | exact Part.sub_trans (by decide) hp
    | exact Part.mem hp (by decide)
    | (intro _; try dsimp only)
    | split

theorem actPush_changes {P : List Part} {s₀ : State} (r : RiderId) (w : MicroWord) (g : Grant) (s : State) (hp : Part.sub [.queues] P = true)  (hc : Changes P s₀ s) : Changes P s₀ (actPush r w g s).1 := by
  unfold actPush
  try dsimp only
  repeat' first
    | with_reducible assumption
    | with_reducible exact Changes.refl _ _
    | with_reducible apply Changes.ite
    | with_reducible apply issueWords_changes
    | with_reducible apply Changes.fst_ite
    | refine Changes.fst ‹_ = (_, _)› ?_
    | dsimp only
    | exact Part.sub_trans (by decide) hp
    | exact Part.mem hp (by decide)
    | (intro _; try dsimp only)
    | split

theorem action_changes {P : List Part} {s₀ : State} (r : RiderId) (w : MicroWord) (g : Grant) (again : Bool) (s : State) (hp : Part.sub [.funcs, .irqs, .stalls, .voices, .seqs, .chans, .units, .nodes, .cells, .books, .flights, .nextFlight, .hub, .riders, .lines, .fasts, .queues, .qdir, .feeds] P = true)  (hc : Changes P s₀ s) : Changes P s₀ (action r w g again s).1 := by
  unfold action
  try dsimp only
  repeat' first
    | with_reducible assumption
    | with_reducible exact Changes.refl _ _
    | with_reducible apply Changes.ite
    | with_reducible apply actCtrig_changes
    | with_reducible apply actEmit_changes
    | with_reducible apply actFlipFlop_changes
    | with_reducible apply actFlux_changes
    | with_reducible apply actOpen_changes
    | with_reducible apply actPop_changes
    | with_reducible apply actPost_changes
    | with_reducible apply actPush_changes
    | with_reducible apply actShot_changes
    | with_reducible apply actTune_changes
    | with_reducible apply modRider_changes
    | with_reducible apply raise_changes
    | with_reducible apply Changes.fst_ite
    | refine Changes.fst ‹_ = (_, _)› ?_
    | dsimp only
    | exact Part.sub_trans (by decide) hp
    | exact Part.mem hp (by decide)
    | (intro _; try dsimp only)
    | split

theorem ctrigFault_changes {P : List Part} {s₀ : State} (r : RiderId) (s : State) (hp : Part.sub [.funcs, .irqs, .riders] P = true)  (hc : Changes P s₀ s) : Changes P s₀ (ctrigFault r s) := by
  unfold ctrigFault
  try dsimp only
  repeat' first
    | with_reducible assumption
    | with_reducible exact Changes.refl _ _
    | with_reducible apply Changes.ite
    | with_reducible apply modRider_changes
    | with_reducible apply raise_changes
    | with_reducible apply recordRider_changes
    | exact Part.sub_trans (by decide) hp
    | exact Part.mem hp (by decide)
    | (intro _; try dsimp only)
    | split

theorem refusedFault_changes {P : List Part} {s₀ : State} (r : RiderId) (code : Option Code) (s : State) (hp : Part.sub [.funcs, .irqs, .riders] P = true)  (hc : Changes P s₀ s) : Changes P s₀ (refusedFault r code s) := by
  unfold refusedFault
  try dsimp only
  repeat' first
    | with_reducible assumption
    | with_reducible exact Changes.refl _ _
    | with_reducible apply Changes.ite
    | with_reducible apply modRider_changes
    | with_reducible apply raise_changes
    | with_reducible apply recordRider_changes
    | exact Part.sub_trans (by decide) hp
    | exact Part.mem hp (by decide)
    | (intro _; try dsimp only)
    | split

theorem boundary_changes {P : List Part} {s₀ : State} (r : RiderId) (s : State) (hp : Part.sub [.funcs, .irqs, .stalls, .seqs, .chans, .riders, .queues, .feeds] P = true)  (hc : Changes P s₀ s) : Changes P s₀ (boundary r s) := by
  unfold boundary
  try dsimp only
  repeat' first
    | with_reducible assumption
    | with_reducible exact Changes.refl _ _
    | with_reducible apply Changes.ite
    | with_reducible apply enterHandler_changes
    | with_reducible apply stopRider_changes
    | exact Part.sub_trans (by decide) hp
    | exact Part.mem hp (by decide)
    | (intro _; try dsimp only)
    | split

theorem sequence_changes {P : List Part} {s₀ : State} (r : RiderId) (w : MicroWord) (s : State) (hp : Part.sub [.funcs, .irqs, .stalls, .seqs, .chans, .riders, .queues, .feeds] P = true)  (hc : Changes P s₀ s) : Changes P s₀ (sequence r w s) := by
  unfold sequence
  try dsimp only
  repeat' first
    | with_reducible assumption
    | with_reducible exact Changes.refl _ _
    | with_reducible apply Changes.ite
    | with_reducible apply boundary_changes
    | with_reducible apply fatalFault_changes
    | with_reducible apply modRider_changes
    | with_reducible apply stopRider_changes
    | dsimp only [id]
    | exact Part.sub_trans (by decide) hp
    | exact Part.mem hp (by decide)
    | (intro _; try dsimp only)
    | split

theorem finish_changes {P : List Part} {s₀ : State} (r : RiderId) (w : MicroWord) (again : Bool) (res : State × ActEnd) (hp : Part.sub [.funcs, .irqs, .stalls, .seqs, .chans, .riders, .queues, .feeds] P = true)  (hc : Changes P s₀ res.1) : Changes P s₀ (finish r w again res) := by
  unfold finish
  try dsimp only
  repeat' first
    | with_reducible assumption
    | with_reducible exact Changes.refl _ _
    | with_reducible apply Changes.ite
    | with_reducible apply ctrigFault_changes
    | with_reducible apply modRider_changes
    | with_reducible apply pause_changes
    | with_reducible apply refusedFault_changes
    | with_reducible apply sequence_changes
    | with_reducible apply stopRider_changes
    | exact Part.sub_trans (by decide) hp
    | exact Part.mem hp (by decide)
    | (intro _; try dsimp only)
    | split

theorem completeFork_changes {P : List Part} {s₀ : State} (r : RiderId) (w : MicroWord) (l : Word) (alt : Bool) (late : Bool) (settled : Bool) (s : State) (hp : Part.sub [.funcs, .irqs, .stalls, .seqs, .chans, .riders, .queues, .feeds] P = true)  (hc : Changes P s₀ s) : Changes P s₀ (completeFork r w l alt late settled s) := by
  unfold completeFork
  try dsimp only
  repeat' first
    | with_reducible assumption
    | with_reducible exact Changes.refl _ _
    | with_reducible apply Changes.ite
    | with_reducible apply modRider_changes
    | with_reducible apply sequence_changes
    | exact Part.sub_trans (by decide) hp
    | exact Part.mem hp (by decide)
    | (intro _; try dsimp only)
    | split

theorem consumeFork_changes {P : List Part} {s₀ : State} (r : RiderId) (w : MicroWord) (t : Token) (hub : Bool) (s : State) (hp : Part.sub [.funcs, .irqs, .stalls, .seqs, .chans, .riders, .queues, .feeds] P = true)  (hc : Changes P s₀ s) : Changes P s₀ (consumeFork r w t hub s) := by
  unfold consumeFork
  try dsimp only
  repeat' first
    | with_reducible assumption
    | with_reducible exact Changes.refl _ _
    | with_reducible apply Changes.ite
    | with_reducible apply completeFork_changes
    | with_reducible apply dropSpent_changes
    | with_reducible apply modSeq_changes
    | exact Part.sub_trans (by decide) hp
    | exact Part.mem hp (by decide)
    | (intro _; try dsimp only)
    | split

theorem armFork_changes {P : List Part} {s₀ : State} (r : RiderId) (w : MicroWord) (s : State) (hp : Part.sub [.funcs, .irqs, .stalls, .seqs, .chans, .riders, .queues, .feeds] P = true)  (hc : Changes P s₀ s) : Changes P s₀ (armFork r w s) := by
  unfold armFork
  try dsimp only
  repeat' first
    | with_reducible assumption
    | with_reducible exact Changes.refl _ _
    | with_reducible apply Changes.ite
    | with_reducible apply consumeFork_changes
    | with_reducible apply finish_changes
    | with_reducible apply modRider_changes
    | with_reducible apply modSeq_changes
    | with_reducible apply notePost_changes
    | with_reducible apply pause_changes
    | with_reducible apply stay_changes
    | exact Part.sub_trans (by decide) hp
    | exact Part.mem hp (by decide)
    | (intro _; try dsimp only)
    | split

theorem grantHeld_changes {P : List Part} {s₀ : State} (r : RiderId) (s : State) (hp : Part.sub [.funcs, .irqs, .stalls, .voices, .seqs, .chans, .units, .nodes, .cells, .books, .flights, .nextFlight, .hub, .riders, .lines, .fasts, .queues, .qdir, .feeds] P = true)  (hc : Changes P s₀ s) : Changes P s₀ (grantHeld r s) := by
  unfold grantHeld
  try dsimp only
  repeat' first
    | with_reducible assumption
    | with_reducible exact Changes.refl _ _
    | with_reducible apply Changes.ite
    | with_reducible apply action_changes
    | with_reducible apply armFork_changes
    | with_reducible apply finish_changes
    | with_reducible apply pause_changes
    | with_reducible apply stay_changes
    | with_reducible apply Changes.fst_ite
    | refine Changes.fst ‹_ = (_, _)› ?_
    | dsimp only
    | exact Part.sub_trans (by decide) hp
    | exact Part.mem hp (by decide)
    | (intro _; try dsimp only)
    | split

theorem deadlineReached_changes {P : List Part} {s₀ : State} (r : RiderId) (s : State) (hp : Part.sub [.funcs, .irqs, .stalls, .seqs, .chans, .riders, .queues, .feeds] P = true)  (hc : Changes P s₀ s) : Changes P s₀ (deadlineReached r s) := by
  unfold deadlineReached
  try dsimp only
  repeat' first
    | with_reducible assumption
    | with_reducible exact Changes.refl _ _
    | with_reducible apply Changes.ite
    | with_reducible apply boundary_changes
    | with_reducible apply modRider_changes
    | with_reducible apply modSeq_changes
    | with_reducible apply recordRider_changes
    | exact Part.sub_trans (by decide) hp
    | exact Part.mem hp (by decide)
    | (intro _; try dsimp only)
    | split

theorem skipWord_changes {P : List Part} {s₀ : State} (r : RiderId) (s : State) (hp : Part.sub [.funcs, .irqs, .stalls, .seqs, .chans, .riders, .queues, .feeds] P = true)  (hc : Changes P s₀ s) : Changes P s₀ (skipWord r s) := by
  unfold skipWord
  try dsimp only
  repeat' first
    | with_reducible assumption
    | with_reducible exact Changes.refl _ _
    | with_reducible apply Changes.ite
    | with_reducible apply boundary_changes
    | with_reducible apply modRider_changes
    | exact Part.sub_trans (by decide) hp
    | exact Part.mem hp (by decide)
    | (intro _; try dsimp only)
    | split

theorem runWord_changes {P : List Part} {s₀ : State} (r : RiderId) (w : MicroWord) (g : Grant) (again : Bool) (s : State) (hp : Part.sub [.funcs, .irqs, .stalls, .voices, .seqs, .chans, .units, .nodes, .cells, .books, .flights, .nextFlight, .hub, .riders, .lines, .fasts, .queues, .qdir, .feeds] P = true)  (hc : Changes P s₀ s) : Changes P s₀ (runWord r w g again s) := by
  unfold runWord
  try dsimp only
  repeat' first
    | with_reducible assumption
    | with_reducible exact Changes.refl _ _
    | with_reducible apply Changes.ite
    | with_reducible apply action_changes
    | with_reducible apply finish_changes
    | with_reducible apply modRider_changes
    | with_reducible apply skipWord_changes
    | with_reducible apply Changes.fst_ite
    | refine Changes.fst ‹_ = (_, _)› ?_
    | dsimp only
    | exact Part.sub_trans (by decide) hp
    | exact Part.mem hp (by decide)
    | (intro _; try dsimp only)
    | split

theorem waitTrue_changes {P : List Part} {s₀ : State} (r : RiderId) (u : Run) (s : State) (hp : Part.sub [.funcs, .irqs, .stalls, .voices, .seqs, .chans, .units, .nodes, .cells, .books, .flights, .nextFlight, .hub, .riders, .lines, .fasts, .queues, .qdir, .feeds] P = true)  (hc : Changes P s₀ s) : Changes P s₀ (waitTrue r u s) := by
  unfold waitTrue
  try dsimp only
  repeat' first
    | with_reducible assumption
    | with_reducible exact Changes.refl _ _
    | with_reducible apply Changes.ite
    | with_reducible apply runWord_changes
    | exact Part.sub_trans (by decide) hp
    | exact Part.mem hp (by decide)
    | (intro _; try dsimp only)
    | split

theorem runFork_changes {P : List Part} {s₀ : State} (r : RiderId) (w : MicroWord) (g : Grant) (again : Bool) (s : State) (hp : Part.sub [.funcs, .irqs, .stalls, .voices, .seqs, .chans, .riders, .queues, .feeds] P = true)  (hc : Changes P s₀ s) : Changes P s₀ (runFork r w g again s) := by
  unfold runFork
  try dsimp only
  repeat' first
    | with_reducible assumption
    | with_reducible exact Changes.refl _ _
    | with_reducible apply Changes.ite
    | with_reducible apply armFork_changes
    | with_reducible apply countVoice_changes
    | with_reducible apply finish_changes
    | with_reducible apply skipWord_changes
    | exact Part.sub_trans (by decide) hp
    | exact Part.mem hp (by decide)
    | (intro _; try dsimp only)
    | split

theorem execWord_changes {P : List Part} {s₀ : State} (is : MicroWord → Bool) (r : RiderId) (u : Run) (s : State) (hp : Part.sub [.funcs, .irqs, .stalls, .voices, .seqs, .chans, .units, .nodes, .cells, .books, .flights, .nextFlight, .hub, .riders, .lines, .fasts, .queues, .qdir, .feeds] P = true)  (hc : Changes P s₀ s) : Changes P s₀ (execWord is r u s) := by
  unfold execWord
  try dsimp only
  repeat' first
    | with_reducible assumption
    | with_reducible exact Changes.refl _ _
    | with_reducible apply Changes.ite
    | with_reducible apply fatalFault_changes
    | with_reducible apply modRider_changes
    | with_reducible apply pause_changes
    | with_reducible apply recordRider_changes
    | with_reducible apply runFork_changes
    | with_reducible apply runWord_changes
    | with_reducible apply stay_changes
    | exact Part.sub_trans (by decide) hp
    | exact Part.mem hp (by decide)
    | (intro _; try dsimp only)
    | split

theorem overrunFault_changes {P : List Part} {s₀ : State} (r : RiderId) (s : State) (hp : Part.sub [.funcs, .irqs, .stalls, .seqs, .chans, .riders, .queues, .feeds] P = true)  (hc : Changes P s₀ s) : Changes P s₀ (overrunFault r s) := by
  unfold overrunFault
  try dsimp only
  repeat' first
    | with_reducible assumption
    | with_reducible exact Changes.refl _ _
    | with_reducible apply Changes.ite
    | with_reducible apply modRider_changes
    | with_reducible apply raise_changes
    | with_reducible apply recordRider_changes
    | with_reducible apply sampleFaults_changes
    | exact Part.sub_trans (by decide) hp
    | exact Part.mem hp (by decide)
    | (intro _; try dsimp only)
    | split

theorem enterTaskInput_changes {P : List Part} {s₀ : State} (r : RiderId) (k : Nat) (t : Token) (hub : Bool) (s : State) (hp : Part.sub [.funcs, .irqs, .stalls, .seqs, .chans, .riders, .queues, .feeds] P = true)  (hc : Changes P s₀ s) : Changes P s₀ (enterTaskInput r k t hub s).1 := by
  unfold enterTaskInput
  try dsimp only
  repeat' first
    | with_reducible assumption
    | with_reducible exact Changes.refl _ _
    | with_reducible apply Changes.ite
    | with_reducible apply consumeFork_changes
    | with_reducible apply modRider_changes
    | with_reducible apply overrunFault_changes
    | with_reducible apply Changes.fst_ite
    | refine Changes.fst ‹_ = (_, _)› ?_
    | dsimp only
    | exact Part.sub_trans (by decide) hp
    | exact Part.mem hp (by decide)
    | (intro _; try dsimp only)
    | split

theorem forkWithoutToken_changes {P : List Part} {s₀ : State} (r : RiderId) (v : VoiceId) (late : Bool) (settled : Bool) (s : State) (hp : Part.sub [.funcs, .irqs, .stalls, .seqs, .chans, .riders, .queues, .feeds] P = true)  (hc : Changes P s₀ s) : Changes P s₀ (forkWithoutToken r v late settled s) := by
  unfold forkWithoutToken
  try dsimp only
  repeat' first
    | with_reducible assumption
    | with_reducible exact Changes.refl _ _
    | with_reducible apply Changes.ite
    | with_reducible apply completeFork_changes
    | exact Part.sub_trans (by decide) hp
    | exact Part.mem hp (by decide)
    | (intro _; try dsimp only)
    | split

theorem lateFault_changes {P : List Part} {s₀ : State} (r : RiderId) (s : State) (hp : Part.sub [.funcs, .irqs, .stalls, .seqs, .chans, .riders, .queues, .feeds] P = true)  (hc : Changes P s₀ s) : Changes P s₀ (lateFault r s) := by
  unfold lateFault
  try dsimp only
  repeat' first
    | with_reducible assumption
    | with_reducible exact Changes.refl _ _
    | with_reducible apply Changes.ite
    | with_reducible apply modRider_changes
    | with_reducible apply raise_changes
    | with_reducible apply recordRider_changes
    | with_reducible apply sampleFaults_changes
    | exact Part.sub_trans (by decide) hp
    | exact Part.mem hp (by decide)
    | (intro _; try dsimp only)
    | split

end Sys2Proof.Machine
end

