-- ==== Sys2Proof/Laws/ChangesStallOps.lean ====
section
/-!
SUPPORT. What each operation of Machine/StallOps.lean may change.
-/

set_option linter.unusedTactic false
set_option linter.unreachableTactic false
set_option linter.style.longLine false
set_option linter.unusedVariables false
set_option maxRecDepth 8000

namespace Sys2Proof.Machine

open Sys2Proof

theorem modSpare_changes {P : List Part} {s₀ : State} (n : StallId) (k : SliceKind) (f : Spare → Spare) (s : State) (hp : Part.sub [.stalls] P = true)  (hc : Changes P s₀ s) : Changes P s₀ (modSpare n k f s) := by
  unfold modSpare
  try dsimp only
  repeat' first
    | with_reducible assumption
    | with_reducible exact Changes.refl _ _
    | with_reducible apply Changes.ite
    | with_reducible apply modStall_changes
    | exact Part.sub_trans (by decide) hp
    | exact Part.mem hp (by decide)
    | (intro _; try dsimp only)
    | split

theorem lifeToken_changes {P : List Part} {s₀ : State} (n : StallId) (l : Life) (s : State) (hp : Part.sub [.funcs, .nodes, .books, .flights, .nextFlight, .hub] P = true)  (hc : Changes P s₀ s) : Changes P s₀ (lifeToken n l s) := by
  unfold lifeToken
  try dsimp only
  repeat' first
    | with_reducible assumption
    | with_reducible exact Changes.refl _ _
    | with_reducible apply Changes.ite
    | with_reducible apply issueSeal_changes
    | exact Part.sub_trans (by decide) hp
    | exact Part.mem hp (by decide)
    | (intro _; try dsimp only)
    | split

theorem setLife_changes {P : List Part} {s₀ : State} (n : StallId) (l : Life) (s : State) (hp : Part.sub [.funcs, .irqs, .stalls, .nodes, .books, .flights, .nextFlight, .hub] P = true)  (hc : Changes P s₀ s) : Changes P s₀ (setLife n l s) := by
  unfold setLife
  try dsimp only
  repeat' first
    | with_reducible assumption
    | with_reducible exact Changes.refl _ _
    | with_reducible apply Changes.ite
    | with_reducible apply lifeToken_changes
    | with_reducible apply modStall_changes
    | with_reducible apply raise_changes
    | exact Part.sub_trans (by decide) hp
    | exact Part.mem hp (by decide)
    | (intro _; try dsimp only)
    | split

theorem enterResting_changes {P : List Part} {s₀ : State} (n : StallId) (s : State) (hp : Part.sub [.funcs, .irqs, .stalls, .nodes, .books, .flights, .nextFlight, .hub] P = true)  (hc : Changes P s₀ s) : Changes P s₀ (enterResting n s) := by
  unfold enterResting
  try dsimp only
  repeat' first
    | with_reducible assumption
    | with_reducible exact Changes.refl _ _
    | with_reducible apply Changes.ite
    | with_reducible apply modStall_changes
    | with_reducible apply setLife_changes
    | exact Part.sub_trans (by decide) hp
    | exact Part.mem hp (by decide)
    | (intro _; try dsimp only)
    | split

theorem haltStall_changes {P : List Part} {s₀ : State} (n : StallId) (s : State) (hp : Part.sub [.funcs, .irqs, .stalls, .slices, .voices, .seqs, .chans, .nodes, .books, .flights, .nextFlight, .hub, .riders, .fasts, .queues, .farriers, .feeds, .freeCtr] P = true)  (hc : Changes P s₀ s) : Changes P s₀ (haltStall n s) := by
  unfold haltStall
  try dsimp only
  repeat' first
    | with_reducible assumption
    | with_reducible exact Changes.refl _ _
    | with_reducible apply Changes.ite
    | with_reducible apply askStop_changes
    | with_reducible apply closePorts_changes
    | with_reducible apply cutWindows_changes
    | with_reducible apply enterResting_changes
    | with_reducible apply fastStop_changes
    | with_reducible apply forEach_changes
    | with_reducible apply idleVoices_changes
    | with_reducible apply modStall_changes
    | exact Part.sub_trans (by decide) hp
    | exact Part.mem hp (by decide)
    | (intro _; try dsimp only)
    | split

theorem forgetStall_changes {P : List Part} {s₀ : State} (n : StallId) (s : State) (hp : Part.sub [.slices, .acqs, .voices, .seqs, .chans, .units, .nodes, .cells, .riders, .lines, .fasts, .groups, .farriers, .trims, .watches, .library, .descs, .kernels, .store, .held, .latched] P = true)  (hc : Changes P s₀ s) : Changes P s₀ (forgetStall n s) := by
  unfold forgetStall
  try dsimp only
  repeat' first
    | with_reducible assumption
    | with_reducible exact Changes.refl _ _
    | with_reducible apply Changes.ite
    | with_reducible apply forEach_changes
    | with_reducible apply modFarrier_changes
    | with_reducible apply modLine_changes
    | with_reducible apply modNode_changes
    | (refine Changes.trans hc ⟨fun p hn => ?_⟩; cases p <;> first | rfl | (rw [Part.mem hp (by decide)] at hn; cases hn))
    | exact Part.sub_trans (by decide) hp
    | exact Part.mem hp (by decide)
    | (intro _; try dsimp only)
    | split

theorem setDomains_changes {P : List Part} {s₀ : State} (lo : Nat) (n : Nat) (on : Bool) (s : State) (hp : Part.sub [.power] P = true)  (hc : Changes P s₀ s) : Changes P s₀ (setDomains lo n on s) := by
  unfold setDomains
  try dsimp only
  repeat' first
    | with_reducible assumption
    | with_reducible exact Changes.refl _ _
    | with_reducible apply Changes.ite
    | with_reducible apply setPower_changes
    | exact Part.sub_trans (by decide) hp
    | exact Part.mem hp (by decide)
    | (intro _; try dsimp only)
    | split

theorem stallDomains_changes {P : List Part} {s₀ : State} (n : StallId) (on : Bool) (s : State) (hp : Part.sub [.power] P = true)  (hc : Changes P s₀ s) : Changes P s₀ (stallDomains n on s) := by
  unfold stallDomains
  try dsimp only
  repeat' first
    | with_reducible assumption
    | with_reducible exact Changes.refl _ _
    | with_reducible apply Changes.ite
    | with_reducible apply setDomains_changes
    | exact Part.sub_trans (by decide) hp
    | exact Part.mem hp (by decide)
    | (intro _; try dsimp only)
    | split

theorem clearRecord_changes {P : List Part} {s₀ : State} (n : StallId) (s : State) (hp : Part.sub [.hbm] P = true)  (hc : Changes P s₀ s) : Changes P s₀ (clearRecord n s) := by
  unfold clearRecord
  try dsimp only
  repeat' first
    | with_reducible assumption
    | with_reducible exact Changes.refl _ _
    | with_reducible apply Changes.ite
    | with_reducible apply setHbm_changes
    | exact Part.sub_trans (by decide) hp
    | exact Part.mem hp (by decide)
    | (intro _; try dsimp only)
    | split

theorem plainWatch_changes {P : List Part} {s₀ : State} (n : StallId) (s : State) (hp : Part.sub [.watches] P = true)  (hc : Changes P s₀ s) : Changes P s₀ (plainWatch n s) := by
  unfold plainWatch
  try dsimp only
  repeat' first
    | with_reducible assumption
    | with_reducible exact Changes.refl _ _
    | with_reducible apply Changes.ite
    | with_reducible apply forEach_changes
    | with_reducible apply modWatch_changes
    | exact Part.sub_trans (by decide) hp
    | exact Part.mem hp (by decide)
    | (intro _; try dsimp only)
    | split

theorem discardImage_changes {P : List Part} {s₀ : State} (n : StallId) (s : State) (hp : Part.sub [.funcs, .irqs, .stallImages, .stalls, .voices, .seqs, .units, .riders, .lines, .queues, .qdir, .farriers, .trims, .watches, .hbm] P = true)  (hc : Changes P s₀ s) : Changes P s₀ (discardImage n s) := by
  unfold discardImage
  try dsimp only
  repeat' first
    | with_reducible assumption
    | with_reducible exact Changes.refl _ _
    | with_reducible apply Changes.ite
    | with_reducible apply absentPorts_changes
    | with_reducible apply clearRecord_changes
    | with_reducible apply endCaptures_changes
    | with_reducible apply endQueues_changes
    | with_reducible apply idleVoices_changes
    | with_reducible apply leaveCal_changes
    | with_reducible apply linesSafe_changes
    | with_reducible apply modStall_changes
    | with_reducible apply modTrims_changes
    | with_reducible apply plainWatch_changes
    | with_reducible apply setStallImages_changes
    | exact Part.sub_trans (by decide) hp
    | exact Part.mem hp (by decide)
    | (intro _; try dsimp only)
    | split

theorem dropNode_changes {P : List Part} {s₀ : State} (n : StallId) (s : State) (hp : Part.sub [.nodes, .books, .flights] P = true)  (hc : Changes P s₀ s) : Changes P s₀ (dropNode n s) := by
  unfold dropNode
  try dsimp only
  repeat' first
    | with_reducible assumption
    | with_reducible exact Changes.refl _ _
    | with_reducible apply Changes.ite
    | with_reducible apply bookOverrun_changes
    | with_reducible apply dropFlight_changes
    | with_reducible apply forEach_changes
    | with_reducible apply modNode_changes
    | exact Part.sub_trans (by decide) hp
    | exact Part.mem hp (by decide)
    | (intro _; try dsimp only)
    | split

theorem stallOff_changes {P : List Part} {s₀ : State} (n : StallId) (s : State) (hp : Part.sub [.funcs, .irqs, .power, .tack, .stallImages, .stalls, .gaits, .slices, .acqs, .voices, .seqs, .chans, .units, .nodes, .cells, .books, .flights, .nextFlight, .hub, .riders, .lines, .fasts, .groups, .queues, .qdir, .farriers, .trims, .watches, .hbm, .library, .descs, .kernels, .store, .held, .latched] P = true)  (hc : Changes P s₀ s) : Changes P s₀ (stallOff n s) := by
  unfold stallOff
  try dsimp only
  repeat' first
    | with_reducible assumption
    | with_reducible exact Changes.refl _ _
    | with_reducible apply Changes.ite
    | with_reducible apply closePorts_changes
    | with_reducible apply discardImage_changes
    | with_reducible apply dropNode_changes
    | with_reducible apply fastDown_changes
    | with_reducible apply forgetStall_changes
    | with_reducible apply modGait_changes
    | with_reducible apply modStall_changes
    | with_reducible apply setLife_changes
    | with_reducible apply setTack_changes
    | with_reducible apply stallDomains_changes
    | exact Part.sub_trans (by decide) hp
    | exact Part.mem hp (by decide)
    | (intro _; try dsimp only)
    | split

theorem endStallOp_changes {P : List Part} {s₀ : State} (n : StallId) (op : OpStatus) (s : State) (hp : Part.sub [.funcs, .irqs, .stalls] P = true)  (hc : Changes P s₀ s) : Changes P s₀ (endStallOp n op s) := by
  unfold endStallOp
  try dsimp only
  repeat' first
    | with_reducible assumption
    | with_reducible exact Changes.refl _ _
    | with_reducible apply Changes.ite
    | with_reducible apply modStall_changes
    | with_reducible apply raise_changes
    | exact Part.sub_trans (by decide) hp
    | exact Part.mem hp (by decide)
    | (intro _; try dsimp only)
    | split

theorem endPowerDown_changes {P : List Part} {s₀ : State} (n : StallId) (s : State) (hp : Part.sub [.funcs, .irqs, .power, .tack, .stallImages, .stalls, .gaits, .slices, .acqs, .voices, .seqs, .chans, .units, .nodes, .cells, .books, .flights, .nextFlight, .hub, .riders, .lines, .fasts, .groups, .queues, .qdir, .farriers, .trims, .watches, .hbm, .library, .descs, .kernels, .store, .held, .latched] P = true)  (hc : Changes P s₀ s) : Changes P s₀ (endPowerDown n s) := by
  unfold endPowerDown
  try dsimp only
  repeat' first
    | with_reducible assumption
    | with_reducible exact Changes.refl _ _
    | with_reducible apply Changes.ite
    | with_reducible apply endStallOp_changes
    | with_reducible apply stallOff_changes
    | exact Part.sub_trans (by decide) hp
    | exact Part.mem hp (by decide)
    | (intro _; try dsimp only)
    | split

theorem clearFaults_changes {P : List Part} {s₀ : State} (n : StallId) (s : State) (hp : Part.sub [.slices, .acqs, .nodes] P = true)  (hc : Changes P s₀ s) : Changes P s₀ (clearFaults n s) := by
  unfold clearFaults
  try dsimp only
  repeat' first
    | with_reducible assumption
    | with_reducible exact Changes.refl _ _
    | with_reducible apply Changes.ite
    | with_reducible apply forEach_changes
    | with_reducible apply modAcq_changes
    | with_reducible apply modNode_changes
    | with_reducible apply modSlice_changes
    | exact Part.sub_trans (by decide) hp
    | exact Part.mem hp (by decide)
    | (intro _; try dsimp only)
    | split

theorem toStabled_changes {P : List Part} {s₀ : State} (n : StallId) (s : State) (hp : Part.sub [.funcs, .irqs, .stalls, .slices, .acqs, .nodes, .books, .flights, .nextFlight, .hub] P = true)  (hc : Changes P s₀ s) : Changes P s₀ (toStabled n s) := by
  unfold toStabled
  try dsimp only
  repeat' first
    | with_reducible assumption
    | with_reducible exact Changes.refl _ _
    | with_reducible apply Changes.ite
    | with_reducible apply clearFaults_changes
    | with_reducible apply setLife_changes
    | exact Part.sub_trans (by decide) hp
    | exact Part.mem hp (by decide)
    | (intro _; try dsimp only)
    | split

theorem recordDoubles_changes {P : List Part} {s₀ : State} (x0 : Nat) (x1 : State) (hp : Part.sub [.funcs] P = true)  (hc : Changes P s₀ x1) : Changes P s₀ (recordDoubles x0 x1) := by
  induction x0 generalizing x1 with
  | zero => exact hc
  | succ k ih => exact ih _ (record_changes _ _ _ _ _ _ (Part.sub_trans (by decide) hp) hc)

theorem persistErrors_changes {P : List Part} {s₀ : State} (corrected : Nat) (doubles : Nat) (s : State) (hp : Part.sub [.funcs, .persist] P = true)  (hc : Changes P s₀ s) : Changes P s₀ (persistErrors corrected doubles s) := by
  unfold persistErrors
  try dsimp only
  repeat' first
    | with_reducible assumption
    | with_reducible exact Changes.refl _ _
    | with_reducible apply Changes.ite
    | with_reducible apply recordDoubles_changes
    | with_reducible apply setPersist_changes
    | exact Part.sub_trans (by decide) hp
    | exact Part.mem hp (by decide)
    | (intro _; try dsimp only)
    | split

theorem startPowerUp_changes {P : List Part} {s₀ : State} (n : StallId) (found : PowerUpFound) (s : State) (hp : Part.sub [.funcs, .irqs, .power, .persist, .tack, .stallImages, .stalls, .gaits, .slices, .acqs, .voices, .seqs, .chans, .units, .nodes, .cells, .books, .flights, .nextFlight, .hub, .riders, .lines, .fasts, .groups, .queues, .qdir, .farriers, .trims, .watches, .hbm, .library, .descs, .kernels, .store, .held, .latched] P = true)  (hc : Changes P s₀ s) : Changes P s₀ (startPowerUp n found s) := by
  unfold startPowerUp
  try dsimp only
  repeat' first
    | with_reducible assumption
    | with_reducible exact Changes.refl _ _
    | with_reducible apply Changes.ite
    | with_reducible apply endStallOp_changes
    | with_reducible apply forEach_changes
    | with_reducible apply loadStud_changes
    | with_reducible apply modStall_changes
    | with_reducible apply modWatch_changes
    | with_reducible apply persistErrors_changes
    | with_reducible apply record_changes
    | with_reducible apply stallDomains_changes
    | with_reducible apply stallOff_changes
    | exact Part.sub_trans (by decide) hp
    | exact Part.mem hp (by decide)
    | (intro _; try dsimp only)
    | split

theorem stallBrought_changes {P : List Part} {s₀ : State} (n : StallId) (up : Bool) (s : State) (hp : Part.sub [.power] P = true)  (hc : Changes P s₀ s) : Changes P s₀ (stallBrought n up s) := by
  unfold stallBrought
  try dsimp only
  repeat' first
    | with_reducible assumption
    | with_reducible exact Changes.refl _ _
    | with_reducible apply Changes.ite
    | with_reducible apply setPower_changes
    | exact Part.sub_trans (by decide) hp
    | exact Part.mem hp (by decide)
    | (intro _; try dsimp only)
    | split

theorem endBringUp_changes {P : List Part} {s₀ : State} (s : State) (hp : Part.sub [.funcs, .irqs, .power] P = true)  (hc : Changes P s₀ s) : Changes P s₀ (endBringUp s) := by
  unfold endBringUp
  try dsimp only
  repeat' first
    | with_reducible assumption
    | with_reducible exact Changes.refl _ _
    | with_reducible apply Changes.ite
    | with_reducible apply raise_changes
    | with_reducible apply record_changes
    | with_reducible apply setPower_changes
    | exact Part.sub_trans (by decide) hp
    | exact Part.mem hp (by decide)
    | (intro _; try dsimp only)
    | split

theorem bringNext_changes {P : List Part} {s₀ : State} (bring : Tab PowerUpFound) (x1 : Nat) (x2 : State) (hp : Part.sub [.funcs, .irqs, .power, .persist, .tack, .stallImages, .stalls, .gaits, .slices, .acqs, .voices, .seqs, .chans, .units, .nodes, .cells, .books, .flights, .nextFlight, .hub, .riders, .lines, .fasts, .groups, .queues, .qdir, .farriers, .trims, .watches, .hbm, .library, .descs, .kernels, .store, .held, .latched] P = true)  (hc : Changes P s₀ x2) : Changes P s₀ (bringNext bring x1 x2) := by
  induction x1 generalizing x2 with
  | zero => exact endBringUp_changes _ (Part.sub_trans (by decide) hp) hc
  | succ n ih =>
    unfold bringNext
    split
    · exact endBringUp_changes _ (Part.sub_trans (by decide) hp) hc
    · rename_i a rest _
      have hk := setPower_changes (fun p => { p with toBring := rest, bringing := some a }) x2 (Part.sub_trans (by decide) hp) hc
      dsimp only
      split
      · exact ih _ (stallBrought_changes _ _ _ (Part.sub_trans (by decide) hp) hk)
      · have hk2 := startPowerUp_changes a (tabGet {} bring a.val) _ (Part.sub_trans (by decide) hp) hk
        split
        · exact hk2
        · exact ih _ (stallBrought_changes _ _ _ (Part.sub_trans (by decide) hp) hk2)

theorem bringOn_changes {P : List Part} {s₀ : State} (n : StallId) (up : Bool) (bring : Tab PowerUpFound) (s : State) (hp : Part.sub [.funcs, .irqs, .power, .persist, .tack, .stallImages, .stalls, .gaits, .slices, .acqs, .voices, .seqs, .chans, .units, .nodes, .cells, .books, .flights, .nextFlight, .hub, .riders, .lines, .fasts, .groups, .queues, .qdir, .farriers, .trims, .watches, .hbm, .library, .descs, .kernels, .store, .held, .latched] P = true)  (hc : Changes P s₀ s) : Changes P s₀ (bringOn n up bring s) := by
  unfold bringOn
  try dsimp only
  repeat' first
    | with_reducible assumption
    | with_reducible exact Changes.refl _ _
    | with_reducible apply Changes.ite
    | with_reducible apply bringNext_changes
    | with_reducible apply stallBrought_changes
    | exact Part.sub_trans (by decide) hp
    | exact Part.mem hp (by decide)
    | (intro _; try dsimp only)
    | split

theorem startFlashStall_changes {P : List Part} {s₀ : State} (n : StallId) (s : State) (hp : Part.sub [.tack] P = true)  (hc : Changes P s₀ s) : Changes P s₀ (startFlashStall n s) := by
  unfold startFlashStall
  try dsimp only
  repeat' first
    | with_reducible assumption
    | with_reducible exact Changes.refl _ _
    | with_reducible apply Changes.ite
    | with_reducible apply setTack_changes
    | exact Part.sub_trans (by decide) hp
    | exact Part.mem hp (by decide)
    | (intro _; try dsimp only)
    | split

theorem bringAligned_changes {P : List Part} {s₀ : State} (n : StallId) (bring : Tab PowerUpFound) (s : State) (hp : Part.sub [.funcs, .irqs, .power, .persist, .tack, .stallImages, .stalls, .gaits, .slices, .acqs, .voices, .seqs, .chans, .units, .nodes, .cells, .books, .flights, .nextFlight, .hub, .riders, .lines, .fasts, .groups, .queues, .qdir, .farriers, .trims, .watches, .hbm, .library, .descs, .kernels, .store, .held, .latched] P = true)  (hc : Changes P s₀ s) : Changes P s₀ (bringAligned n bring s) := by
  unfold bringAligned
  try dsimp only
  repeat' first
    | with_reducible assumption
    | with_reducible exact Changes.refl _ _
    | with_reducible apply Changes.ite
    | with_reducible apply bringOn_changes
    | with_reducible apply startFlashStall_changes
    | exact Part.sub_trans (by decide) hp
    | exact Part.mem hp (by decide)
    | (intro _; try dsimp only)
    | split

theorem faultHaltStall_changes {P : List Part} {s₀ : State} (n : StallId) (s : State) (hp : Part.sub [.funcs, .irqs, .stalls, .slices, .voices, .seqs, .chans, .nodes, .books, .flights, .nextFlight, .hub, .riders, .fasts, .queues, .farriers, .feeds, .freeCtr] P = true)  (hc : Changes P s₀ s) : Changes P s₀ (faultHaltStall n s) := by
  unfold faultHaltStall
  try dsimp only
  repeat' first
    | with_reducible assumption
    | with_reducible exact Changes.refl _ _
    | with_reducible apply Changes.ite
    | with_reducible apply haltStall_changes
    | with_reducible apply modStall_changes
    | exact Part.sub_trans (by decide) hp
    | exact Part.mem hp (by decide)
    | (intro _; try dsimp only)
    | split

theorem fatalStall_changes {P : List Part} {s₀ : State} (n : StallId) (s : State) (hp : Part.sub [.funcs, .irqs, .stalls, .slices, .voices, .seqs, .chans, .nodes, .books, .flights, .nextFlight, .hub, .riders, .fasts, .queues, .farriers, .feeds, .freeCtr] P = true)  (hc : Changes P s₀ s) : Changes P s₀ (fatalStall n s) := by
  unfold fatalStall
  try dsimp only
  repeat' first
    | with_reducible assumption
    | with_reducible exact Changes.refl _ _
    | with_reducible apply Changes.ite
    | with_reducible apply faultHaltStall_changes
    | with_reducible apply modStall_changes
    | with_reducible apply raise_changes
    | with_reducible apply record_changes
    | exact Part.sub_trans (by decide) hp
    | exact Part.mem hp (by decide)
    | (intro _; try dsimp only)
    | split

theorem dropSpareReq_changes {P : List Part} {s₀ : State} (n : StallId) (k : SliceKind) (s : State) (hp : Part.sub [.funcs, .stalls] P = true)  (hc : Changes P s₀ s) : Changes P s₀ (dropSpareReq n k s) := by
  unfold dropSpareReq
  try dsimp only
  repeat' first
    | with_reducible assumption
    | with_reducible exact Changes.refl _ _
    | with_reducible apply Changes.ite
    | with_reducible apply modStall_changes
    | with_reducible apply record_changes
    | exact Part.sub_trans (by decide) hp
    | exact Part.mem hp (by decide)
    | (intro _; try dsimp only)
    | split

theorem loseA4_changes {P : List Part} {s₀ : State} (n : StallId) (s : State) (hp : Part.sub [.funcs, .irqs, .stalls, .farriers] P = true)  (hc : Changes P s₀ s) : Changes P s₀ (loseA4 n s) := by
  unfold loseA4
  try dsimp only
  repeat' first
    | with_reducible assumption
    | with_reducible exact Changes.refl _ _
    | with_reducible apply Changes.ite
    | with_reducible apply endCal_changes
    | exact Part.sub_trans (by decide) hp
    | exact Part.mem hp (by decide)
    | (intro _; try dsimp only)
    | split

theorem beginForced_changes {P : List Part} {s₀ : State} (i : SliceId) (s : State) (hp : Part.sub [.funcs, .irqs, .stalls, .farriers] P = true)  (hc : Changes P s₀ s) : Changes P s₀ (beginForced i s) := by
  unfold beginForced
  try dsimp only
  repeat' first
    | with_reducible assumption
    | with_reducible exact Changes.refl _ _
    | with_reducible apply Changes.ite
    | with_reducible apply dropSpareReq_changes
    | with_reducible apply loseA4_changes
    | with_reducible apply modFarrier_changes
    | with_reducible apply modSpare_changes
    | exact Part.sub_trans (by decide) hp
    | exact Part.mem hp (by decide)
    | (intro _; try dsimp only)
    | split

theorem faultBit_changes {P : List Part} {s₀ : State} (i : SliceId) (s : State) (hp : Part.sub [.slices, .acqs] P = true)  (hc : Changes P s₀ s) : Changes P s₀ (faultBit i s) := by
  unfold faultBit
  try dsimp only
  repeat' first
    | with_reducible assumption
    | with_reducible exact Changes.refl _ _
    | with_reducible apply Changes.ite
    | with_reducible apply modAcq_changes
    | with_reducible apply modSlice_changes
    | exact Part.sub_trans (by decide) hp
    | exact Part.mem hp (by decide)
    | (intro _; try dsimp only)
    | split

theorem spareFails_changes {P : List Part} {s₀ : State} (n : StallId) (k : SliceKind) (s : State) (hp : Part.sub [.funcs, .stalls, .farriers] P = true)  (hc : Changes P s₀ s) : Changes P s₀ (spareFails n k s) := by
  unfold spareFails
  try dsimp only
  repeat' first
    | with_reducible assumption
    | with_reducible exact Changes.refl _ _
    | with_reducible apply Changes.ite
    | with_reducible apply dropSpareReq_changes
    | with_reducible apply modFarrier_changes
    | with_reducible apply modSpare_changes
    | exact Part.sub_trans (by decide) hp
    | exact Part.mem hp (by decide)
    | (intro _; try dsimp only)
    | split

theorem setSliceFault_changes {P : List Part} {s₀ : State} (i : SliceId) (s : State) (hp : Part.sub [.slices, .acqs] P = true)  (hc : Changes P s₀ s) : Changes P s₀ (setSliceFault i s) := by
  unfold setSliceFault
  try dsimp only
  repeat' first
    | with_reducible assumption
    | with_reducible exact Changes.refl _ _
    | with_reducible apply Changes.ite
    | with_reducible apply closePort_changes
    | with_reducible apply faultBit_changes
    | exact Part.sub_trans (by decide) hp
    | exact Part.mem hp (by decide)
    | (intro _; try dsimp only)
    | split

theorem markSliceShots_changes {P : List Part} {s₀ : State} (i : SliceId) (s : State) (hp : Part.sub [.chans, .units, .riders] P = true)  (hc : Changes P s₀ s) : Changes P s₀ (markSliceShots i s) := by
  unfold markSliceShots
  try dsimp only
  repeat' first
    | with_reducible assumption
    | with_reducible exact Changes.refl _ _
    | with_reducible apply Changes.ite
    | with_reducible apply markRecords_changes
    | with_reducible apply markSlice_changes
    | with_reducible apply markWindows_changes
    | exact Part.sub_trans (by decide) hp
    | exact Part.mem hp (by decide)
    | (intro _; try dsimp only)
    | split

theorem noSpare_changes {P : List Part} {s₀ : State} (i : SliceId) (s : State) (hp : Part.sub [.funcs, .units, .hbm] P = true)  (hc : Changes P s₀ s) : Changes P s₀ (noSpare i s) := by
  unfold noSpare
  try dsimp only
  repeat' first
    | with_reducible assumption
    | with_reducible exact Changes.refl _ _
    | with_reducible apply Changes.ite
    | with_reducible apply failCaptures_changes
    | with_reducible apply record_changes
    | exact Part.sub_trans (by decide) hp
    | exact Part.mem hp (by decide)
    | (intro _; try dsimp only)
    | split

theorem calFault_changes {P : List Part} {s₀ : State} (i : SliceId) (s : State) (hp : Part.sub [.funcs, .irqs, .stalls, .farriers] P = true)  (hc : Changes P s₀ s) : Changes P s₀ (calFault i s) := by
  unfold calFault
  try dsimp only
  repeat' first
    | with_reducible assumption
    | with_reducible exact Changes.refl _ _
    | with_reducible apply Changes.ite
    | with_reducible apply abortCal_changes
    | with_reducible apply loseA4_changes
    | exact Part.sub_trans (by decide) hp
    | exact Part.mem hp (by decide)
    | (intro _; try dsimp only)
    | split

theorem converterFault_changes {P : List Part} {s₀ : State} (i : SliceId) (s : State) (hp : Part.sub [.funcs, .irqs, .stalls, .slices, .acqs, .chans, .units, .riders, .farriers, .hbm] P = true)  (hc : Changes P s₀ s) : Changes P s₀ (converterFault i s) := by
  unfold converterFault
  try dsimp only
  repeat' first
    | with_reducible assumption
    | with_reducible exact Changes.refl _ _
    | with_reducible apply Changes.ite
    | with_reducible apply beginForced_changes
    | with_reducible apply calFault_changes
    | with_reducible apply faultBit_changes
    | with_reducible apply markSliceShots_changes
    | with_reducible apply noSpare_changes
    | with_reducible apply setSliceFault_changes
    | with_reducible apply spareFails_changes
    | exact Part.sub_trans (by decide) hp
    | exact Part.mem hp (by decide)
    | (intro _; try dsimp only)
    | split

theorem toHarnessed_changes {P : List Part} {s₀ : State} (n : StallId) (s : State) (hp : Part.sub [.funcs, .irqs, .stalls, .slices, .voices, .seqs, .chans, .nodes, .books, .flights, .nextFlight, .hub, .riders, .fasts, .queues, .qdir] P = true)  (hc : Changes P s₀ s) : Changes P s₀ (toHarnessed n s) := by
  unfold toHarnessed
  try dsimp only
  repeat' first
    | with_reducible assumption
    | with_reducible exact Changes.refl _ _
    | with_reducible apply Changes.ite
    | with_reducible apply closePorts_changes
    | with_reducible apply discardOpens_changes
    | with_reducible apply endStallOp_changes
    | with_reducible apply fastStop_changes
    | with_reducible apply flushQueue_changes
    | with_reducible apply forEach_changes
    | with_reducible apply idleVoices_changes
    | with_reducible apply modStall_changes
    | with_reducible apply record_changes
    | with_reducible apply setLife_changes
    | exact Part.sub_trans (by decide) hp
    | exact Part.mem hp (by decide)
    | (intro _; try dsimp only)
    | split

end Sys2Proof.Machine
end

