-- ==== Sys2Proof/Laws/ChangesFarrier.lean ====
section
/-!
SUPPORT. What each operation of Machine/Farrier.lean may change.
-/

set_option linter.unusedTactic false
set_option linter.unreachableTactic false
set_option linter.style.longLine false
set_option linter.unusedVariables false
set_option maxRecDepth 8000

namespace Sys2Proof.Machine

open Sys2Proof

theorem farrierSwitch_changes {P : List Part} {s₀ : State} (n : StallId) (s : State) (hp : Part.sub [.stalls, .farriers] P = true)  (hc : Changes P s₀ s) : Changes P s₀ (farrierSwitch n s) := by
  unfold farrierSwitch
  try dsimp only
  repeat' first
    | with_reducible assumption
    | with_reducible exact Changes.refl _ _
    | with_reducible apply Changes.ite
    | with_reducible apply freeA4_changes
    | with_reducible apply modFarrier_changes
    | with_reducible apply modSpare_changes
    | exact Part.sub_trans (by decide) hp
    | exact Part.mem hp (by decide)
    | (intro _; try dsimp only)
    | split

theorem execFarrierSpareSwitch_changes {P : List Part} {s₀ : State} (n : StallId) (s : State) (hp : Part.sub [.stalls, .farriers] P = true)  (hc : Changes P s₀ s) : ResChanges P s₀ (execFarrierSpareSwitch n s) := by
  unfold execFarrierSpareSwitch
  try dsimp only
  repeat' first
    | with_reducible assumption
    | with_reducible exact Changes.refl _ _
    | with_reducible apply Changes.ite
    | with_reducible apply ResChanges.next
    | with_reducible exact ResChanges.fault _
    | with_reducible exact ResChanges.refused _
    | with_reducible apply ResChanges.ite
    | with_reducible apply farrierSwitch_changes
    | exact Part.sub_trans (by decide) hp
    | exact Part.mem hp (by decide)
    | (intro _; try dsimp only)
    | split

theorem restorePlanes_changes {P : List Part} {s₀ : State} (n : StallId) (t : BitVec 8) (s : State) (hp : Part.sub [.funcs, .irqs, .chans, .farriers, .trims] P = true)  (hc : Changes P s₀ s) : Changes P s₀ (restorePlanes n t s) := by
  unfold restorePlanes
  try dsimp only
  repeat' first
    | with_reducible assumption
    | with_reducible exact Changes.refl _ _
    | with_reducible apply Changes.ite
    | with_reducible apply commitPlanes_changes
    | with_reducible apply modFarrier_changes
    | with_reducible apply modTrims_changes
    | with_reducible apply raise_changes
    | exact Part.sub_trans (by decide) hp
    | exact Part.mem hp (by decide)
    | (intro _; try dsimp only)
    | split

theorem farrierCommand_changes {P : List Part} {s₀ : State} (f : Func) (n : StallId) (code : State → Option Code) (eff : State → State) (s : State) (hp : Part.sub [.funcs, .farriers] P = true) (heff : ∀ y0, Changes P s₀ y0 → Changes P s₀ (eff y0)) (hc : Changes P s₀ s) : Changes P s₀ (farrierCommand f n code eff s) := by
  unfold farrierCommand
  try dsimp only
  repeat' first
    | with_reducible assumption
    | with_reducible exact Changes.refl _ _
    | with_reducible apply Changes.ite
    | with_reducible apply hostWrite_changes
    | with_reducible apply modFarrier_changes
    | with_reducible apply refuseReg_changes
    | with_reducible apply heff
    | exact Part.sub_trans (by decide) hp
    | exact Part.mem hp (by decide)
    | (intro _; try dsimp only)
    | split

theorem execRestore_changes {P : List Part} {s₀ : State} (f : Func) (n : StallId) (target : BitVec 8) (s : State) (hp : Part.sub [.funcs, .irqs, .chans, .farriers, .trims] P = true)  (hc : Changes P s₀ s) : ResChanges P s₀ (execRestore f n target s) := by
  unfold execRestore
  try dsimp only
  repeat' first
    | with_reducible assumption
    | with_reducible exact Changes.refl _ _
    | with_reducible apply Changes.ite
    | with_reducible apply ResChanges.next
    | with_reducible exact ResChanges.fault _
    | with_reducible exact ResChanges.refused _
    | with_reducible apply ResChanges.ite
    | with_reducible apply farrierCommand_changes
    | with_reducible apply restorePlanes_changes
    | exact Part.sub_trans (by decide) hp
    | exact Part.mem hp (by decide)
    | (intro _; try dsimp only)
    | split

theorem execFarrierAbort_changes {P : List Part} {s₀ : State} (f : Func) (n : StallId) (s : State) (hp : Part.sub [.funcs, .irqs, .stalls, .farriers] P = true)  (hc : Changes P s₀ s) : ResChanges P s₀ (execFarrierAbort f n s) := by
  unfold execFarrierAbort
  try dsimp only
  repeat' first
    | with_reducible assumption
    | with_reducible exact Changes.refl _ _
    | with_reducible apply Changes.ite
    | with_reducible apply ResChanges.next
    | with_reducible exact ResChanges.fault _
    | with_reducible exact ResChanges.refused _
    | with_reducible apply ResChanges.ite
    | with_reducible apply endCal_changes
    | with_reducible apply farrierCommand_changes
    | exact Part.sub_trans (by decide) hp
    | exact Part.mem hp (by decide)
    | (intro _; try dsimp only)
    | split

theorem preempt_changes {P : List Part} {s₀ : State} (n : StallId) (s : State) (hp : Part.sub [.funcs, .irqs, .stalls, .farriers] P = true)  (hc : Changes P s₀ s) : Changes P s₀ (preempt n s) := by
  unfold preempt
  try dsimp only
  repeat' first
    | with_reducible assumption
    | with_reducible exact Changes.refl _ _
    | with_reducible apply Changes.ite
    | with_reducible apply endCal_changes
    | with_reducible apply modFarrier_changes
    | exact Part.sub_trans (by decide) hp
    | exact Part.mem hp (by decide)
    | (intro _; try dsimp only)
    | split

theorem startCal_changes {P : List Part} {s₀ : State} (n : StallId) (auto : Bool) (f : Func) (k : CalKind) (t : BitVec 8) (s : State) (hp : Part.sub [.stalls, .farriers] P = true)  (hc : Changes P s₀ s) : Changes P s₀ (startCal n auto f k t s) := by
  unfold startCal
  try dsimp only
  repeat' first
    | with_reducible assumption
    | with_reducible exact Changes.refl _ _
    | with_reducible apply Changes.ite
    | with_reducible apply modFarrier_changes
    | with_reducible apply modSpare_changes
    | exact Part.sub_trans (by decide) hp
    | exact Part.mem hp (by decide)
    | (intro _; try dsimp only)
    | split

theorem execFarrierStart_changes {P : List Part} {s₀ : State} (f : Func) (n : StallId) (kind : CalKind) (target : BitVec 8) (s : State) (hp : Part.sub [.funcs, .irqs, .stalls, .farriers] P = true)  (hc : Changes P s₀ s) : ResChanges P s₀ (execFarrierStart f n kind target s) := by
  unfold execFarrierStart
  try dsimp only
  repeat' first
    | with_reducible assumption
    | with_reducible exact Changes.refl _ _
    | with_reducible apply Changes.ite
    | with_reducible apply ResChanges.next
    | with_reducible exact ResChanges.fault _
    | with_reducible exact ResChanges.refused _
    | with_reducible apply ResChanges.ite
    | with_reducible apply farrierCommand_changes
    | with_reducible apply preempt_changes
    | with_reducible apply startCal_changes
    | exact Part.sub_trans (by decide) hp
    | exact Part.mem hp (by decide)
    | (intro _; try dsimp only)
    | split

theorem execActivationTimeout_changes {P : List Part} {s₀ : State} (n : StallId) (s : State) (hp : Part.sub [.funcs, .irqs, .stalls, .farriers] P = true)  (hc : Changes P s₀ s) : ResChanges P s₀ (execActivationTimeout n s) := by
  unfold execActivationTimeout
  try dsimp only
  repeat' first
    | with_reducible assumption
    | with_reducible exact Changes.refl _ _
    | with_reducible apply Changes.ite
    | with_reducible apply ResChanges.next
    | with_reducible exact ResChanges.fault _
    | with_reducible exact ResChanges.refused _
    | with_reducible apply ResChanges.ite
    | with_reducible apply endCal_changes
    | exact Part.sub_trans (by decide) hp
    | exact Part.mem hp (by decide)
    | (intro _; try dsimp only)
    | split

theorem activatePlanes_changes {P : List Part} {s₀ : State} (n : StallId) (k : Fin 64) (set : PlaneSet) (cents : List Centroid) (sep : BitVec 16) (s : State) (hp : Part.sub [.chans, .trims] P = true)  (hc : Changes P s₀ s) : Changes P s₀ (activatePlanes n k set cents sep s) := by
  unfold activatePlanes
  try dsimp only
  repeat' first
    | with_reducible assumption
    | with_reducible exact Changes.refl _ _
    | with_reducible apply Changes.ite
    | with_reducible apply commitPlanes_changes
    | with_reducible apply modTrims_changes
    | exact Part.sub_trans (by decide) hp
    | exact Part.mem hp (by decide)
    | (intro _; try dsimp only)
    | split

theorem activateTrims_changes {P : List Part} {s₀ : State} (n : StallId) (c : Calib) (vals : Tab (BitVec 32)) (s : State) (hp : Part.sub [.voices, .trims] P = true)  (hc : Changes P s₀ s) : Changes P s₀ (activateTrims n c vals s) := by
  unfold activateTrims
  try dsimp only
  repeat' first
    | with_reducible assumption
    | with_reducible exact Changes.refl _ _
    | with_reducible apply Changes.ite
    | with_reducible apply modTrims_changes
    | with_reducible apply stageTrims_changes
    | exact Part.sub_trans (by decide) hp
    | exact Part.mem hp (by decide)
    | (intro _; try dsimp only)
    | split

theorem activate_changes {P : List Part} {s₀ : State} (n : StallId) (c : Calib) (s : State) (hp : Part.sub [.voices, .chans, .trims] P = true)  (hc : Changes P s₀ s) : Changes P s₀ (activate n c s) := by
  unfold activate
  try dsimp only
  repeat' first
    | with_reducible assumption
    | with_reducible exact Changes.refl _ _
    | with_reducible apply Changes.ite
    | with_reducible apply activatePlanes_changes
    | with_reducible apply activateTrims_changes
    | exact Part.sub_trans (by decide) hp
    | exact Part.mem hp (by decide)
    | (intro _; try dsimp only)
    | split

theorem recordRun_changes {P : List Part} {s₀ : State} (n : StallId) (bad : Option Bool) (s : State) (hp : Part.sub [.funcs, .irqs, .persist, .stalls, .farriers] P = true)  (hc : Changes P s₀ s) : Changes P s₀ (recordRun n bad s) := by
  unfold recordRun
  try dsimp only
  repeat' first
    | with_reducible assumption
    | with_reducible exact Changes.refl _ _
    | with_reducible apply Changes.ite
    | with_reducible apply modFarrier_changes
    | with_reducible apply record_changes
    | with_reducible apply recordStud_changes
    | with_reducible apply stopCal_changes
    | exact Part.sub_trans (by decide) hp
    | exact Part.mem hp (by decide)
    | (intro _; try dsimp only)
    | split

theorem quietAt_changes {P : List Part} {s₀ : State} (n : StallId) (bad : Option Bool) (s : State) (hp : Part.sub [.funcs, .irqs, .persist, .stalls, .voices, .chans, .farriers, .trims] P = true)  (hc : Changes P s₀ s) : Changes P s₀ (quietAt n bad s) := by
  unfold quietAt
  try dsimp only
  repeat' first
    | with_reducible assumption
    | with_reducible exact Changes.refl _ _
    | with_reducible apply Changes.ite
    | with_reducible apply activate_changes
    | with_reducible apply freeA4_changes
    | with_reducible apply recordRun_changes
    | exact Part.sub_trans (by decide) hp
    | exact Part.mem hp (by decide)
    | (intro _; try dsimp only)
    | split

theorem execQuietBoundary_changes {P : List Part} {s₀ : State} (n : StallId) (badCopy : Option Bool) (s : State) (hp : Part.sub [.funcs, .irqs, .persist, .stalls, .voices, .chans, .farriers, .trims] P = true)  (hc : Changes P s₀ s) : ResChanges P s₀ (execQuietBoundary n badCopy s) := by
  unfold execQuietBoundary
  try dsimp only
  repeat' first
    | with_reducible assumption
    | with_reducible exact Changes.refl _ _
    | with_reducible apply Changes.ite
    | with_reducible apply ResChanges.next
    | with_reducible exact ResChanges.fault _
    | with_reducible exact ResChanges.refused _
    | with_reducible apply ResChanges.ite
    | with_reducible apply quietAt_changes
    | exact Part.sub_trans (by decide) hp
    | exact Part.mem hp (by decide)
    | (intro _; try dsimp only)
    | split

theorem execObservationTimeout_changes {P : List Part} {s₀ : State} (n : StallId) (s : State) (hp : Part.sub [.funcs, .irqs, .stalls, .farriers] P = true)  (hc : Changes P s₀ s) : ResChanges P s₀ (execObservationTimeout n s) := by
  unfold execObservationTimeout
  try dsimp only
  repeat' first
    | with_reducible assumption
    | with_reducible exact Changes.refl _ _
    | with_reducible apply Changes.ite
    | with_reducible apply ResChanges.next
    | with_reducible exact ResChanges.fault _
    | with_reducible exact ResChanges.refused _
    | with_reducible apply ResChanges.ite
    | with_reducible apply endCal_changes
    | exact Part.sub_trans (by decide) hp
    | exact Part.mem hp (by decide)
    | (intro _; try dsimp only)
    | split

theorem toActivate_changes {P : List Part} {s₀ : State} (n : StallId) (v : CalValues) (quality : BitVec 16) (s : State) (hp : Part.sub [.farriers] P = true)  (hc : Changes P s₀ s) : Changes P s₀ (toActivate n v quality s) := by
  unfold toActivate
  try dsimp only
  repeat' first
    | with_reducible assumption
    | with_reducible exact Changes.refl _ _
    | with_reducible apply Changes.ite
    | with_reducible apply modFarrier_changes
    | exact Part.sub_trans (by decide) hp
    | exact Part.mem hp (by decide)
    | (intro _; try dsimp only)
    | split

theorem fitFails_changes {P : List Part} {s₀ : State} (n : StallId) (code : Code) (quality : BitVec 16) (s : State) (hp : Part.sub [.funcs, .irqs, .stalls, .farriers] P = true)  (hc : Changes P s₀ s) : Changes P s₀ (fitFails n code quality s) := by
  unfold fitFails
  try dsimp only
  repeat' first
    | with_reducible assumption
    | with_reducible exact Changes.refl _ _
    | with_reducible apply Changes.ite
    | with_reducible apply endCal_changes
    | with_reducible apply modFarrier_changes
    | exact Part.sub_trans (by decide) hp
    | exact Part.mem hp (by decide)
    | (intro _; try dsimp only)
    | split

theorem fitTrims_changes {P : List Part} {s₀ : State} (n : StallId) (figure : BitVec 16) (inRange : Bool) (vals : Tab (BitVec 32)) (s : State) (hp : Part.sub [.funcs, .irqs, .stalls, .farriers] P = true)  (hc : Changes P s₀ s) : Changes P s₀ (fitTrims n figure inRange vals s) := by
  unfold fitTrims
  try dsimp only
  repeat' first
    | with_reducible assumption
    | with_reducible exact Changes.refl _ _
    | with_reducible apply Changes.ite
    | with_reducible apply fitFails_changes
    | with_reducible apply toActivate_changes
    | exact Part.sub_trans (by decide) hp
    | exact Part.mem hp (by decide)
    | (intro _; try dsimp only)
    | split

theorem fitPlanes_changes {P : List Part} {s₀ : State} (n : StallId) (c : ChanId) (clusters : List Nat) (s : State) (hp : Part.sub [.funcs, .irqs, .stalls, .farriers, .freeCtr] P = true)  (hc : Changes P s₀ s) : Changes P s₀ (fitPlanes n c clusters s) := by
  unfold fitPlanes
  try dsimp only
  repeat' first
    | with_reducible assumption
    | with_reducible exact Changes.refl _ _
    | with_reducible apply Changes.ite
    | with_reducible apply drawn_changes
    | with_reducible apply fitFails_changes
    | with_reducible apply toActivate_changes
    | exact Part.sub_trans (by decide) hp
    | exact Part.mem hp (by decide)
    | (intro _; try dsimp only)
    | split

theorem observed_changes {P : List Part} {s₀ : State} (n : StallId) (o : Observation) (s : State) (hp : Part.sub [.funcs, .irqs, .stalls, .farriers, .freeCtr] P = true)  (hc : Changes P s₀ s) : Changes P s₀ (observed n o s) := by
  unfold observed
  try dsimp only
  repeat' first
    | with_reducible assumption
    | with_reducible exact Changes.refl _ _
    | with_reducible apply Changes.ite
    | with_reducible apply fitPlanes_changes
    | with_reducible apply fitTrims_changes
    | exact Part.sub_trans (by decide) hp
    | exact Part.mem hp (by decide)
    | (intro _; try dsimp only)
    | split

theorem execObservationComplete_changes {P : List Part} {s₀ : State} (n : StallId) (obs : Observation) (s : State) (hp : Part.sub [.funcs, .irqs, .stalls, .farriers, .freeCtr] P = true)  (hc : Changes P s₀ s) : ResChanges P s₀ (execObservationComplete n obs s) := by
  unfold execObservationComplete
  try dsimp only
  repeat' first
    | with_reducible assumption
    | with_reducible exact Changes.refl _ _
    | with_reducible apply Changes.ite
    | with_reducible apply ResChanges.next
    | with_reducible exact ResChanges.fault _
    | with_reducible exact ResChanges.refused _
    | with_reducible apply ResChanges.ite
    | with_reducible apply observed_changes
    | exact Part.sub_trans (by decide) hp
    | exact Part.mem hp (by decide)
    | (intro _; try dsimp only)
    | split

theorem autoStart_changes {P : List Part} {s₀ : State} (n : StallId) (k : CalKind) (t : BitVec 8) (s : State) (hp : Part.sub [.stalls, .farriers] P = true)  (hc : Changes P s₀ s) : Changes P s₀ (autoStart n k t s) := by
  unfold autoStart
  try dsimp only
  repeat' first
    | with_reducible assumption
    | with_reducible exact Changes.refl _ _
    | with_reducible apply Changes.ite
    | with_reducible apply startCal_changes
    | exact Part.sub_trans (by decide) hp
    | exact Part.mem hp (by decide)
    | (intro _; try dsimp only)
    | split

theorem execAutomaticCalibrationStart_changes {P : List Part} {s₀ : State} (n : StallId) (kind : CalKind) (target : BitVec 8) (s : State) (hp : Part.sub [.stalls, .farriers] P = true)  (hc : Changes P s₀ s) : ResChanges P s₀ (execAutomaticCalibrationStart n kind target s) := by
  unfold execAutomaticCalibrationStart
  try dsimp only
  repeat' first
    | with_reducible assumption
    | with_reducible exact Changes.refl _ _
    | with_reducible apply Changes.ite
    | with_reducible apply ResChanges.next
    | with_reducible exact ResChanges.fault _
    | with_reducible exact ResChanges.refused _
    | with_reducible apply ResChanges.ite
    | with_reducible apply autoStart_changes
    | exact Part.sub_trans (by decide) hp
    | exact Part.mem hp (by decide)
    | (intro _; try dsimp only)
    | split

end Sys2Proof.Machine
end

