-- ==== Sys2Proof/Laws/ChangesFields.lean ====
section
/-!
SUPPORT. What each operation of Machine/Fields.lean may change.
-/

set_option linter.unusedTactic false
set_option linter.unreachableTactic false
set_option linter.style.longLine false
set_option linter.unusedVariables false
set_option maxRecDepth 8000

namespace Sys2Proof.Machine

open Sys2Proof

theorem farrierField_changes {P : List Part} {s₀ : State} (n : StallId) (r : FaReg) (val : Word) (x3 : State) (hp : Part.sub [.farriers] P = true)  (hc : Changes P s₀ x3) : Changes P s₀ (farrierField n r val x3) := by
  unfold farrierField
  try dsimp only
  repeat' first
    | with_reducible assumption
    | with_reducible exact Changes.refl _ _
    | with_reducible apply Changes.ite
    | with_reducible apply modFarrier_changes
    | dsimp only [id]
    | exact Part.sub_trans (by decide) hp
    | exact Part.mem hp (by decide)
    | (intro _; try dsimp only)
    | split

theorem queueField_changes {P : List Part} {s₀ : State} (q : QueueId) (r : QReg) (val : Word) (x3 : State) (hp : Part.sub [.queues] P = true)  (hc : Changes P s₀ x3) : Changes P s₀ (queueField q r val x3) := by
  unfold queueField
  try dsimp only
  repeat' first
    | with_reducible assumption
    | with_reducible exact Changes.refl _ _
    | with_reducible apply Changes.ite
    | with_reducible apply modQueue_changes
    | dsimp only [id]
    | exact Part.sub_trans (by decide) hp
    | exact Part.mem hp (by decide)
    | (intro _; try dsimp only)
    | split

theorem riderField_changes {P : List Part} {s₀ : State} (h : RiderId) (r : RhReg) (val : Word) (x3 : State) (hp : Part.sub [.riders] P = true)  (hc : Changes P s₀ x3) : Changes P s₀ (riderField h r val x3) := by
  unfold riderField
  try dsimp only
  repeat' first
    | with_reducible assumption
    | with_reducible exact Changes.refl _ _
    | with_reducible apply Changes.ite
    | with_reducible apply modRider_changes
    | dsimp only [id]
    | exact Part.sub_trans (by decide) hp
    | exact Part.mem hp (by decide)
    | (intro _; try dsimp only)
    | split

theorem nodeField_changes {P : List Part} {s₀ : State} (n : StallId) (r : NodeReg) (val : Word) (x3 : State) (hp : Part.sub [.nodes] P = true)  (hc : Changes P s₀ x3) : Changes P s₀ (nodeField n r val x3) := by
  unfold nodeField
  try dsimp only
  repeat' first
    | with_reducible assumption
    | with_reducible exact Changes.refl _ _
    | with_reducible apply Changes.ite
    | with_reducible apply modNode_changes
    | dsimp only [id]
    | exact Part.sub_trans (by decide) hp
    | exact Part.mem hp (by decide)
    | (intro _; try dsimp only)
    | split

theorem lineField_changes {P : List Part} {s₀ : State} (l : LineId) (r : FlReg) (val : Word) (x3 : State) (hp : Part.sub [.lines, .fasts] P = true)  (hc : Changes P s₀ x3) : Changes P s₀ (lineField l r val x3) := by
  unfold lineField
  try dsimp only
  repeat' first
    | with_reducible assumption
    | with_reducible exact Changes.refl _ _
    | with_reducible apply Changes.ite
    | with_reducible apply modFast_changes
    | with_reducible apply modLine_changes
    | dsimp only [id]
    | exact Part.sub_trans (by decide) hp
    | exact Part.mem hp (by decide)
    | (intro _; try dsimp only)
    | split

theorem kernelPageField_changes {P : List Part} {s₀ : State} (n : StallId) (val : Word) (x2 : State) (hp : Part.sub [.stalls] P = true)  (hc : Changes P s₀ x2) : Changes P s₀ (kernelPageField n val x2) := by
  unfold kernelPageField
  try dsimp only
  repeat' first
    | with_reducible assumption
    | with_reducible exact Changes.refl _ _
    | with_reducible apply Changes.ite
    | with_reducible apply modStall_changes
    | exact Part.sub_trans (by decide) hp
    | exact Part.mem hp (by decide)
    | (intro _; try dsimp only)
    | split

theorem unitField_changes {P : List Part} {s₀ : State} (u : UnitId) (r : TuReg) (val : Word) (x3 : State) (hp : Part.sub [.units, .held] P = true)  (hc : Changes P s₀ x3) : Changes P s₀ (unitField u r val x3) := by
  unfold unitField
  try dsimp only
  repeat' first
    | with_reducible assumption
    | with_reducible exact Changes.refl _ _
    | with_reducible apply Changes.ite
    | with_reducible apply modUnit_changes
    | with_reducible apply pairWrite_changes
    | exact Part.sub_trans (by decide) hp
    | exact Part.mem hp (by decide)
    | (intro _; try dsimp only)
    | split

theorem chanField_changes {P : List Part} {s₀ : State} (c : ChanId) (r : ChReg) (val : Word) (x3 : State) (hp : Part.sub [.chans] P = true)  (hc : Changes P s₀ x3) : Changes P s₀ (chanField c r val x3) := by
  unfold chanField
  try dsimp only
  repeat' first
    | with_reducible assumption
    | with_reducible exact Changes.refl _ _
    | with_reducible apply Changes.ite
    | with_reducible apply modChan_changes
    | dsimp only [id]
    | exact Part.sub_trans (by decide) hp
    | exact Part.mem hp (by decide)
    | (intro _; try dsimp only)
    | split

theorem acqField_changes {P : List Part} {s₀ : State} (n : StallId) (k : Fin 5) (r : AsReg) (val : Word) (x4 : State) (hp : Part.sub [.acqs] P = true)  (hc : Changes P s₀ x4) : Changes P s₀ (acqField n k r val x4) := by
  unfold acqField
  try dsimp only
  repeat' first
    | with_reducible assumption
    | with_reducible exact Changes.refl _ _
    | with_reducible apply Changes.ite
    | with_reducible apply modAcq_changes
    | dsimp only [id]
    | exact Part.sub_trans (by decide) hp
    | exact Part.mem hp (by decide)
    | (intro _; try dsimp only)
    | split

theorem seqField_changes {P : List Part} {s₀ : State} (v : VoiceId) (r : VsReg) (val : Word) (x3 : State) (hp : Part.sub [.seqs, .held] P = true)  (hc : Changes P s₀ x3) : Changes P s₀ (seqField v r val x3) := by
  unfold seqField
  try dsimp only
  repeat' first
    | with_reducible assumption
    | with_reducible exact Changes.refl _ _
    | with_reducible apply Changes.ite
    | with_reducible apply modSeq_changes
    | with_reducible apply pairWrite_changes
    | dsimp only [id]
    | exact Part.sub_trans (by decide) hp
    | exact Part.mem hp (by decide)
    | (intro _; try dsimp only)
    | split

theorem voiceField_changes {P : List Part} {s₀ : State} (v : VoiceId) (r : VcReg) (val : Word) (x3 : State) (hp : Part.sub [.voices] P = true)  (hc : Changes P s₀ x3) : Changes P s₀ (voiceField v r val x3) := by
  unfold voiceField
  try dsimp only
  repeat' first
    | with_reducible assumption
    | with_reducible exact Changes.refl _ _
    | with_reducible apply Changes.ite
    | with_reducible apply modVoice_changes
    | dsimp only [id]
    | exact Part.sub_trans (by decide) hp
    | exact Part.mem hp (by decide)
    | (intro _; try dsimp only)
    | split

theorem sliceField_changes {P : List Part} {s₀ : State} (i : SliceId) (r : SlReg) (val : Word) (x3 : State) (hp : Part.sub [.slices] P = true)  (hc : Changes P s₀ x3) : Changes P s₀ (sliceField i r val x3) := by
  unfold sliceField
  try dsimp only
  repeat' first
    | with_reducible assumption
    | with_reducible exact Changes.refl _ _
    | with_reducible apply Changes.ite
    | with_reducible apply modSlice_changes
    | dsimp only [id]
    | exact Part.sub_trans (by decide) hp
    | exact Part.mem hp (by decide)
    | (intro _; try dsimp only)
    | split

theorem ctlField_changes {P : List Part} {s₀ : State} (n : StallId) (r : CtlReg) (val : Word) (x3 : State) (hp : Part.sub [.stalls, .gaits] P = true)  (hc : Changes P s₀ x3) : Changes P s₀ (ctlField n r val x3) := by
  unfold ctlField
  try dsimp only
  repeat' first
    | with_reducible assumption
    | with_reducible exact Changes.refl _ _
    | with_reducible apply Changes.ite
    | with_reducible apply modGait_changes
    | with_reducible apply modStall_changes
    | dsimp only [id]
    | exact Part.sub_trans (by decide) hp
    | exact Part.mem hp (by decide)
    | (intro _; try dsimp only)
    | split

theorem persistField_changes {P : List Part} {s₀ : State} (w : Fin 1048576) (val : Word) (x2 : State) (hp : Part.sub [.persist] P = true)  (hc : Changes P s₀ x2) : Changes P s₀ (persistField w val x2) := by
  unfold persistField
  try dsimp only
  repeat' first
    | with_reducible assumption
    | with_reducible exact Changes.refl _ _
    | with_reducible apply Changes.ite
    | with_reducible apply setPersist_changes
    | dsimp only [id]
    | exact Part.sub_trans (by decide) hp
    | exact Part.mem hp (by decide)
    | (intro _; try dsimp only)
    | split

theorem qdirField_changes {P : List Part} {s₀ : State} (r : QdirReg) (val : Word) (x2 : State) (hp : Part.sub [.qdir] P = true)  (hc : Changes P s₀ x2) : Changes P s₀ (qdirField r val x2) := by
  unfold qdirField
  try dsimp only
  repeat' first
    | with_reducible assumption
    | with_reducible exact Changes.refl _ _
    | with_reducible apply Changes.ite
    | with_reducible apply setQdir_changes
    | dsimp only [id]
    | exact Part.sub_trans (by decide) hp
    | exact Part.mem hp (by decide)
    | (intro _; try dsimp only)
    | split

theorem hkField_changes {P : List Part} {s₀ : State} (k : Fin 8) (r : HkReg) (val : Word) (x3 : State) (hp : Part.sub [.hks] P = true)  (hc : Changes P s₀ x3) : Changes P s₀ (hkField k r val x3) := by
  unfold hkField
  try dsimp only
  repeat' first
    | with_reducible assumption
    | with_reducible exact Changes.refl _ _
    | with_reducible apply Changes.ite
    | with_reducible apply modHk_changes
    | dsimp only [id]
    | exact Part.sub_trans (by decide) hp
    | exact Part.mem hp (by decide)
    | (intro _; try dsimp only)
    | split

theorem cmpField_changes {P : List Part} {s₀ : State} (c : CmpId) (r : WcReg) (val : Word) (x3 : State) (hp : Part.sub [.watches] P = true)  (hc : Changes P s₀ x3) : Changes P s₀ (cmpField c r val x3) := by
  unfold cmpField
  try dsimp only
  repeat' first
    | with_reducible assumption
    | with_reducible exact Changes.refl _ _
    | with_reducible apply Changes.ite
    | with_reducible apply modWatch_changes
    | dsimp only [id]
    | exact Part.sub_trans (by decide) hp
    | exact Part.mem hp (by decide)
    | (intro _; try dsimp only)
    | split

theorem cellField_changes {P : List Part} {s₀ : State} (c : CellId) (r : BkReg) (val : Word) (x3 : State) (hp : Part.sub [.cells] P = true)  (hc : Changes P s₀ x3) : Changes P s₀ (cellField c r val x3) := by
  unfold cellField
  try dsimp only
  repeat' first
    | with_reducible assumption
    | with_reducible exact Changes.refl _ _
    | with_reducible apply Changes.ite
    | with_reducible apply modCell_changes
    | dsimp only [id]
    | exact Part.sub_trans (by decide) hp
    | exact Part.mem hp (by decide)
    | (intro _; try dsimp only)
    | split

theorem planeField_changes {P : List Part} {s₀ : State} (b : Bool) (val : Word) (x2 : State) (hp : Part.sub [.hub] P = true)  (hc : Changes P s₀ x2) : Changes P s₀ (planeField b val x2) := by
  unfold planeField
  try dsimp only
  repeat' first
    | with_reducible assumption
    | with_reducible exact Changes.refl _ _
    | with_reducible apply Changes.ite
    | with_reducible apply setHub_changes
    | exact Part.sub_trans (by decide) hp
    | exact Part.mem hp (by decide)
    | (intro _; try dsimp only)
    | split

theorem hubField_changes {P : List Part} {s₀ : State} (r : HubReg) (val : Word) (x2 : State) (hp : Part.sub [.hub] P = true)  (hc : Changes P s₀ x2) : Changes P s₀ (hubField r val x2) := by
  unfold hubField
  try dsimp only
  repeat' first
    | with_reducible assumption
    | with_reducible exact Changes.refl _ _
    | with_reducible apply Changes.ite
    | with_reducible apply setHub_changes
    | dsimp only [id]
    | exact Part.sub_trans (by decide) hp
    | exact Part.mem hp (by decide)
    | (intro _; try dsimp only)
    | split

theorem tlField_changes {P : List Part} {s₀ : State} (k : LaneId) (r : TlReg) (val : Word) (x3 : State) (hp : Part.sub [.lanes] P = true)  (hc : Changes P s₀ x3) : Changes P s₀ (tlField k r val x3) := by
  unfold tlField
  try dsimp only
  repeat' first
    | with_reducible assumption
    | with_reducible exact Changes.refl _ _
    | with_reducible apply Changes.ite
    | with_reducible apply modLane_changes
    | dsimp only [id]
    | exact Part.sub_trans (by decide) hp
    | exact Part.mem hp (by decide)
    | (intro _; try dsimp only)
    | split

theorem tetherField_changes {P : List Part} {s₀ : State} (r : TetherReg) (val : Word) (x2 : State) (hp : Part.sub [.tether] P = true)  (hc : Changes P s₀ x2) : Changes P s₀ (tetherField r val x2) := by
  unfold tetherField
  try dsimp only
  repeat' first
    | with_reducible assumption
    | with_reducible exact Changes.refl _ _
    | with_reducible apply Changes.ite
    | with_reducible apply setTether_changes
    | dsimp only [id]
    | exact Part.sub_trans (by decide) hp
    | exact Part.mem hp (by decide)
    | (intro _; try dsimp only)
    | split

theorem tpField_changes {P : List Part} {s₀ : State} (k : Fin 8) (r : TpReg) (val : Word) (x3 : State) (hp : Part.sub [.pulses, .held] P = true)  (hc : Changes P s₀ x3) : Changes P s₀ (tpField k r val x3) := by
  unfold tpField
  try dsimp only
  repeat' first
    | with_reducible assumption
    | with_reducible exact Changes.refl _ _
    | with_reducible apply Changes.ite
    | with_reducible apply modPulse_changes
    | with_reducible apply pairWrite_changes
    | exact Part.sub_trans (by decide) hp
    | exact Part.mem hp (by decide)
    | (intro _; try dsimp only)
    | split

theorem dmField_changes {P : List Part} {s₀ : State} (d : Fin 2) (r : DmReg) (val : Word) (x3 : State) (hp : Part.sub [.domains] P = true)  (hc : Changes P s₀ x3) : Changes P s₀ (dmField d r val x3) := by
  unfold dmField
  try dsimp only
  repeat' first
    | with_reducible assumption
    | with_reducible exact Changes.refl _ _
    | with_reducible apply Changes.ite
    | with_reducible apply modDomain_changes
    | dsimp only [id]
    | exact Part.sub_trans (by decide) hp
    | exact Part.mem hp (by decide)
    | (intro _; try dsimp only)
    | split

theorem ptField_changes {P : List Part} {s₀ : State} (p : Fin 2) (r : PtReg) (val : Word) (x3 : State) (hp : Part.sub [.ethPorts] P = true)  (hc : Changes P s₀ x3) : Changes P s₀ (ptField p r val x3) := by
  unfold ptField
  try dsimp only
  repeat' first
    | with_reducible assumption
    | with_reducible exact Changes.refl _ _
    | with_reducible apply Changes.ite
    | with_reducible apply modPort_changes
    | dsimp only [id]
    | exact Part.sub_trans (by decide) hp
    | exact Part.mem hp (by decide)
    | (intro _; try dsimp only)
    | split

theorem timeField_changes {P : List Part} {s₀ : State} (r : TimeReg) (val : Word) (x2 : State) (hp : Part.sub [.spine, .tc] P = true)  (hc : Changes P s₀ x2) : Changes P s₀ (timeField r val x2) := by
  unfold timeField
  split
  · exact setTime_changes _ _ (Part.sub_trans (by decide) hp) hc
  · exact Changes.set_spine _ (Part.mem hp (by decide)) hc
  · exact Changes.set_spine _ (Part.mem hp (by decide)) hc
  · exact hc

theorem tackField_changes {P : List Part} {s₀ : State} (r : TackReg) (val : Word) (x2 : State) (hp : Part.sub [.tack] P = true)  (hc : Changes P s₀ x2) : Changes P s₀ (tackField r val x2) := by
  unfold tackField
  try dsimp only
  repeat' first
    | with_reducible assumption
    | with_reducible exact Changes.refl _ _
    | with_reducible apply Changes.ite
    | with_reducible apply setTack_changes
    | dsimp only [id]
    | exact Part.sub_trans (by decide) hp
    | exact Part.mem hp (by decide)
    | (intro _; try dsimp only)
    | split

theorem powerField_changes {P : List Part} {s₀ : State} (r : PowerReg) (val : Word) (x2 : State) (hp : Part.sub [.power, .backup, .persist, .held] P = true)  (hc : Changes P s₀ x2) : Changes P s₀ (powerField r val x2) := by
  unfold powerField
  try dsimp only
  repeat' first
    | with_reducible assumption
    | with_reducible exact Changes.refl _ _
    | with_reducible apply Changes.ite
    | with_reducible apply holdWord_changes
    | with_reducible apply setBackup_changes
    | with_reducible apply setPersist_changes
    | with_reducible apply setPower_changes
    | dsimp only [id]
    | exact Part.sub_trans (by decide) hp
    | exact Part.mem hp (by decide)
    | (intro _; try dsimp only)
    | split

theorem hostField_changes {P : List Part} {s₀ : State} (f : Func) (r : HostReg) (val : Word) (x3 : State) (hp : Part.sub [.host, .funcs] P = true)  (hc : Changes P s₀ x3) : Changes P s₀ (hostField f r val x3) := by
  unfold hostField
  split
  · exact setHost_changes _ _ (Part.sub_trans (by decide) hp) hc
  · exact modFunc_changes _ _ _ (Part.sub_trans (by decide) hp) hc
  · exact modFunc_changes _ _ _ (Part.sub_trans (by decide) hp) hc
  · exact hc

theorem plainField_changes {P : List Part} {s₀ : State} (f : Func) (r : Reg) (val : Word) (x3 : State) (hp : Part.sub [.host, .funcs, .power, .backup, .persist, .tack, .spine, .stalls, .gaits, .slices, .acqs, .voices, .seqs, .chans, .units, .nodes, .cells, .hub, .riders, .lines, .fasts, .queues, .qdir, .farriers, .lanes, .tether, .tc, .ethPorts, .domains, .pulses, .watches, .hks, .held] P = true)  (hc : Changes P s₀ x3) : Changes P s₀ (plainField f r val x3) := by
  unfold plainField
  try dsimp only
  repeat' first
    | with_reducible assumption
    | with_reducible exact Changes.refl _ _
    | with_reducible apply Changes.ite
    | with_reducible apply acqField_changes
    | with_reducible apply cellField_changes
    | with_reducible apply chanField_changes
    | with_reducible apply cmpField_changes
    | with_reducible apply ctlField_changes
    | with_reducible apply dmField_changes
    | with_reducible apply farrierField_changes
    | with_reducible apply hkField_changes
    | with_reducible apply hostField_changes
    | with_reducible apply hubField_changes
    | with_reducible apply kernelPageField_changes
    | with_reducible apply lineField_changes
    | with_reducible apply nodeField_changes
    | with_reducible apply persistField_changes
    | with_reducible apply planeField_changes
    | with_reducible apply powerField_changes
    | with_reducible apply ptField_changes
    | with_reducible apply qdirField_changes
    | with_reducible apply queueField_changes
    | with_reducible apply riderField_changes
    | with_reducible apply seqField_changes
    | with_reducible apply sliceField_changes
    | with_reducible apply tackField_changes
    | with_reducible apply tetherField_changes
    | with_reducible apply timeField_changes
    | with_reducible apply tlField_changes
    | with_reducible apply tpField_changes
    | with_reducible apply unitField_changes
    | with_reducible apply voiceField_changes
    | dsimp only [id]
    | exact Part.sub_trans (by decide) hp
    | exact Part.mem hp (by decide)
    | (intro _; try dsimp only)
    | split

end Sys2Proof.Machine
end

