-- ==== Sys2Proof/Laws/ChangesFlux.lean ====
section
/-!
SUPPORT. What each operation of Machine/Flux.lean may change.
-/

set_option linter.unusedTactic false
set_option linter.unreachableTactic false
set_option linter.style.longLine false
set_option linter.unusedVariables false
set_option maxRecDepth 8000

namespace Sys2Proof.Machine

open Sys2Proof

theorem execEdgeTableWrite_changes {P : List Part} {s₀ : State} (f : Func) (l : LineId) (t : Fin 32) (val : Word) (s : State) (hp : Part.sub [.funcs, .fasts] P = true)  (hc : Changes P s₀ s) : ResChanges P s₀ (execEdgeTableWrite f l t val s) := by
  unfold execEdgeTableWrite
  try dsimp only
  repeat' first
    | with_reducible assumption
    | with_reducible exact Changes.refl _ _
    | with_reducible apply Changes.ite
    | with_reducible apply ResChanges.next
    | with_reducible exact ResChanges.fault _
    | with_reducible exact ResChanges.refused _
    | with_reducible apply ResChanges.ite
    | with_reducible apply hostCheck_changes
    | with_reducible apply modFast_changes
    | exact Part.sub_trans (by decide) hp
    | exact Part.mem hp (by decide)
    | (intro _; try dsimp only)
    | split

theorem fastSet_changes {P : List Part} {s₀ : State} (f : Func) (l : LineId) (val : Word) (s : State) (hp : Part.sub [.funcs, .fasts] P = true)  (hc : Changes P s₀ s) : Changes P s₀ (fastSet f l val s) := by
  unfold fastSet
  try dsimp only
  repeat' first
    | with_reducible assumption
    | with_reducible exact Changes.refl _ _
    | with_reducible apply Changes.ite
    | with_reducible apply grantWaiting_changes
    | with_reducible apply modFast_changes
    | exact Part.sub_trans (by decide) hp
    | exact Part.mem hp (by decide)
    | (intro _; try dsimp only)
    | split

theorem execFlFastSet_changes {P : List Part} {s₀ : State} (f : Func) (l : LineId) (val : Word) (grant : Grant) (s : State) (hp : Part.sub [.funcs, .fasts] P = true)  (hc : Changes P s₀ s) : ResChanges P s₀ (execFlFastSet f l val grant s) := by
  unfold execFlFastSet
  try dsimp only
  repeat' first
    | with_reducible assumption
    | with_reducible exact Changes.refl _ _
    | with_reducible apply Changes.ite
    | with_reducible apply ResChanges.next
    | with_reducible exact ResChanges.fault _
    | with_reducible exact ResChanges.refused _
    | with_reducible apply ResChanges.ite
    | with_reducible apply countLine_changes
    | with_reducible apply fastSet_changes
    | with_reducible apply hostElement_changes
    | exact Part.sub_trans (by decide) hp
    | exact Part.mem hp (by decide)
    | (intro _; try dsimp only)
    | split

theorem execGeneratorConfigWrite_changes {P : List Part} {s₀ : State} (f : Func) (l : LineId) (reg : GenReg) (val : Word) (s : State) (hp : Part.sub [.funcs, .lines] P = true)  (hc : Changes P s₀ s) : ResChanges P s₀ (execGeneratorConfigWrite f l reg val s) := by
  unfold execGeneratorConfigWrite
  try dsimp only
  repeat' first
    | with_reducible assumption
    | with_reducible exact Changes.refl _ _
    | with_reducible apply Changes.ite
    | with_reducible apply ResChanges.next
    | with_reducible exact ResChanges.fault _
    | with_reducible exact ResChanges.refused _
    | with_reducible apply ResChanges.ite
    | with_reducible apply hostCheck_changes
    | with_reducible apply modLine_changes
    | exact Part.sub_trans (by decide) hp
    | exact Part.mem hp (by decide)
    | (intro _; try dsimp only)
    | split

theorem writeSafe_changes {P : List Part} {s₀ : State} (l : LineId) (val : Word) (s : State) (hp : Part.sub [.persist, .lines] P = true)  (hc : Changes P s₀ s) : Changes P s₀ (writeSafe l val s) := by
  unfold writeSafe
  try dsimp only
  repeat' first
    | with_reducible assumption
    | with_reducible exact Changes.refl _ _
    | with_reducible apply Changes.ite
    | with_reducible apply goSafe_changes
    | with_reducible apply modLine_changes
    | with_reducible apply persistLine_changes
    | exact Part.sub_trans (by decide) hp
    | exact Part.mem hp (by decide)
    | (intro _; try dsimp only)
    | split

theorem execFlSafeWrite_changes {P : List Part} {s₀ : State} (f : Func) (l : LineId) (val : Word) (s : State) (hp : Part.sub [.funcs, .persist, .lines] P = true)  (hc : Changes P s₀ s) : ResChanges P s₀ (execFlSafeWrite f l val s) := by
  unfold execFlSafeWrite
  try dsimp only
  repeat' first
    | with_reducible assumption
    | with_reducible exact Changes.refl _ _
    | with_reducible apply Changes.ite
    | with_reducible apply ResChanges.next
    | with_reducible exact ResChanges.fault _
    | with_reducible exact ResChanges.refused _
    | with_reducible apply ResChanges.ite
    | with_reducible apply hostWrite_changes
    | with_reducible apply writeSafe_changes
    | exact Part.sub_trans (by decide) hp
    | exact Part.mem hp (by decide)
    | (intro _; try dsimp only)
    | split

theorem leaveHalter_changes {P : List Part} {s₀ : State} (l : LineId) (s : State) (hp : Part.sub [.lines] P = true)  (hc : Changes P s₀ s) : Changes P s₀ (leaveHalter l s) := by
  unfold leaveHalter
  try dsimp only
  repeat' first
    | with_reducible assumption
    | with_reducible exact Changes.refl _ _
    | with_reducible apply Changes.ite
    | with_reducible apply modLine_changes
    | exact Part.sub_trans (by decide) hp
    | exact Part.mem hp (by decide)
    | (intro _; try dsimp only)
    | split

theorem writeCurb_changes {P : List Part} {s₀ : State} (l : LineId) (val : Word) (s : State) (hp : Part.sub [.persist, .lines] P = true)  (hc : Changes P s₀ s) : Changes P s₀ (writeCurb l val s) := by
  unfold writeCurb
  try dsimp only
  repeat' first
    | with_reducible assumption
    | with_reducible exact Changes.refl _ _
    | with_reducible apply Changes.ite
    | with_reducible apply leaveHalter_changes
    | with_reducible apply modLine_changes
    | with_reducible apply persistLine_changes
    | exact Part.sub_trans (by decide) hp
    | exact Part.mem hp (by decide)
    | (intro _; try dsimp only)
    | split

theorem execFlCurbWrite_changes {P : List Part} {s₀ : State} (f : Func) (l : LineId) (val : Word) (s : State) (hp : Part.sub [.funcs, .persist, .lines] P = true)  (hc : Changes P s₀ s) : ResChanges P s₀ (execFlCurbWrite f l val s) := by
  unfold execFlCurbWrite
  try dsimp only
  repeat' first
    | with_reducible assumption
    | with_reducible exact Changes.refl _ _
    | with_reducible apply Changes.ite
    | with_reducible apply ResChanges.next
    | with_reducible exact ResChanges.fault _
    | with_reducible exact ResChanges.refused _
    | with_reducible apply ResChanges.ite
    | with_reducible apply hostCheck_changes
    | with_reducible apply writeCurb_changes
    | exact Part.sub_trans (by decide) hp
    | exact Part.mem hp (by decide)
    | (intro _; try dsimp only)
    | split

theorem execFlDcWrite_changes {P : List Part} {s₀ : State} (f : Func) (l : LineId) (val : Word) (grant : Grant) (s : State) (hp : Part.sub [.funcs, .lines, .fasts] P = true)  (hc : Changes P s₀ s) : ResChanges P s₀ (execFlDcWrite f l val grant s) := by
  unfold execFlDcWrite
  try dsimp only
  repeat' first
    | with_reducible assumption
    | with_reducible exact Changes.refl _ _
    | with_reducible apply Changes.ite
    | with_reducible apply ResChanges.next
    | with_reducible exact ResChanges.fault _
    | with_reducible exact ResChanges.refused _
    | with_reducible apply ResChanges.ite
    | with_reducible apply countLine_changes
    | with_reducible apply grantDc_changes
    | with_reducible apply hostElement_changes
    | exact Part.sub_trans (by decide) hp
    | exact Part.mem hp (by decide)
    | (intro _; try dsimp only)
    | split

theorem writeFlCtl_changes {P : List Part} {s₀ : State} (l : LineId) (val : Word) (s : State) (hp : Part.sub [.funcs, .lines, .fasts] P = true)  (hc : Changes P s₀ s) : Changes P s₀ (writeFlCtl l val s) := by
  unfold writeFlCtl
  try dsimp only
  repeat' first
    | with_reducible assumption
    | with_reducible exact Changes.refl _ _
    | with_reducible apply Changes.ite
    | with_reducible apply fastReturn_changes
    | with_reducible apply modFast_changes
    | with_reducible apply modLine_changes
    | exact Part.sub_trans (by decide) hp
    | exact Part.mem hp (by decide)
    | (intro _; try dsimp only)
    | split

theorem execFlCtlWrite_changes {P : List Part} {s₀ : State} (f : Func) (l : LineId) (val : Word) (s : State) (hp : Part.sub [.funcs, .lines, .fasts] P = true)  (hc : Changes P s₀ s) : ResChanges P s₀ (execFlCtlWrite f l val s) := by
  unfold execFlCtlWrite
  try dsimp only
  repeat' first
    | with_reducible assumption
    | with_reducible exact Changes.refl _ _
    | with_reducible apply Changes.ite
    | with_reducible apply ResChanges.next
    | with_reducible exact ResChanges.fault _
    | with_reducible exact ResChanges.refused _
    | with_reducible apply ResChanges.ite
    | with_reducible apply hostCheck_changes
    | with_reducible apply writeFlCtl_changes
    | exact Part.sub_trans (by decide) hp
    | exact Part.mem hp (by decide)
    | (intro _; try dsimp only)
    | split

theorem execClear_changes {P : List Part} {s₀ : State} (f : Func) (g : GroupId) (reports : Bool) (s : State) (hp : Part.sub [.funcs, .groups] P = true)  (hc : Changes P s₀ s) : ResChanges P s₀ (execClear f g reports s) := by
  unfold execClear
  try dsimp only
  repeat' first
    | with_reducible assumption
    | with_reducible exact Changes.refl _ _
    | with_reducible apply Changes.ite
    | with_reducible apply ResChanges.next
    | with_reducible exact ResChanges.fault _
    | with_reducible exact ResChanges.refused _
    | with_reducible apply ResChanges.ite
    | with_reducible apply hostCheck_changes
    | with_reducible apply modGroup_changes
    | exact Part.sub_trans (by decide) hp
    | exact Part.mem hp (by decide)
    | (intro _; try dsimp only)
    | split

theorem execFastDacFault_changes {P : List Part} {s₀ : State} (g : GroupId) (s : State) (hp : Part.sub [.funcs, .riders, .lines, .fasts, .groups] P = true)  (hc : Changes P s₀ s) : ResChanges P s₀ (execFastDacFault g s) := by
  unfold execFastDacFault
  try dsimp only
  repeat' first
    | with_reducible assumption
    | with_reducible exact Changes.refl _ _
    | with_reducible apply Changes.ite
    | with_reducible apply ResChanges.next
    | with_reducible exact ResChanges.fault _
    | with_reducible exact ResChanges.refused _
    | with_reducible apply ResChanges.ite
    | with_reducible apply groupFault_changes
    | exact Part.sub_trans (by decide) hp
    | exact Part.mem hp (by decide)
    | (intro _; try dsimp only)
    | split

theorem fastChange_changes {P : List Part} {s₀ : State} (l : LineId) (s : State) (hp : Part.sub [.funcs, .fasts] P = true)  (hc : Changes P s₀ s) : Changes P s₀ (fastChange l s) := by
  unfold fastChange
  try dsimp only
  repeat' first
    | with_reducible assumption
    | with_reducible exact Changes.refl _ _
    | with_reducible apply Changes.ite
    | with_reducible apply changeLevel_changes
    | with_reducible apply grantWaiting_changes
    | with_reducible apply modFast_changes
    | exact Part.sub_trans (by decide) hp
    | exact Part.mem hp (by decide)
    | (intro _; try dsimp only)
    | split

theorem execFastLevelChange_changes {P : List Part} {s₀ : State} (l : LineId) (s : State) (hp : Part.sub [.funcs, .fasts] P = true)  (hc : Changes P s₀ s) : ResChanges P s₀ (execFastLevelChange l s) := by
  unfold execFastLevelChange
  try dsimp only
  repeat' first
    | with_reducible assumption
    | with_reducible exact Changes.refl _ _
    | with_reducible apply Changes.ite
    | with_reducible apply ResChanges.next
    | with_reducible exact ResChanges.fault _
    | with_reducible exact ResChanges.refused _
    | with_reducible apply ResChanges.ite
    | with_reducible apply fastChange_changes
    | exact Part.sub_trans (by decide) hp
    | exact Part.mem hp (by decide)
    | (intro _; try dsimp only)
    | split

theorem spanReadback_changes {P : List Part} {s₀ : State} (l : LineId) (found : SpanCheck) (s : State) (hp : Part.sub [.funcs, .riders, .lines, .fasts, .groups] P = true)  (hc : Changes P s₀ s) : Changes P s₀ (spanReadback l found s) := by
  unfold spanReadback
  try dsimp only
  repeat' first
    | with_reducible assumption
    | with_reducible exact Changes.refl _ _
    | with_reducible apply Changes.ite
    | with_reducible apply groupFault_changes
    | exact Part.sub_trans (by decide) hp
    | exact Part.mem hp (by decide)
    | (intro _; try dsimp only)
    | split

theorem execSpanReadbackCheck_changes {P : List Part} {s₀ : State} (l : LineId) (found : SpanCheck) (s : State) (hp : Part.sub [.funcs, .riders, .lines, .fasts, .groups] P = true)  (hc : Changes P s₀ s) : ResChanges P s₀ (execSpanReadbackCheck l found s) := by
  unfold execSpanReadbackCheck
  try dsimp only
  repeat' first
    | with_reducible assumption
    | with_reducible exact Changes.refl _ _
    | with_reducible apply Changes.ite
    | with_reducible apply ResChanges.next
    | with_reducible exact ResChanges.fault _
    | with_reducible exact ResChanges.refused _
    | with_reducible apply ResChanges.ite
    | with_reducible apply spanReadback_changes
    | exact Part.sub_trans (by decide) hp
    | exact Part.mem hp (by decide)
    | (intro _; try dsimp only)
    | split

theorem execSpanSwitchEnd_changes {P : List Part} {s₀ : State} (l : LineId) (s : State) (hp : Part.sub [.lines] P = true)  (hc : Changes P s₀ s) : ResChanges P s₀ (execSpanSwitchEnd l s) := by
  unfold execSpanSwitchEnd
  try dsimp only
  repeat' first
    | with_reducible assumption
    | with_reducible exact Changes.refl _ _
    | with_reducible apply Changes.ite
    | with_reducible apply ResChanges.next
    | with_reducible exact ResChanges.fault _
    | with_reducible exact ResChanges.refused _
    | with_reducible apply ResChanges.ite
    | with_reducible apply modLine_changes
    | exact Part.sub_trans (by decide) hp
    | exact Part.mem hp (by decide)
    | (intro _; try dsimp only)
    | split

theorem execDcTick_changes {P : List Part} {s₀ : State} (s : State) (hp : Part.sub [.funcs, .irqs, .power, .tack, .stallImages, .stalls, .gaits, .slices, .acqs, .voices, .seqs, .chans, .units, .nodes, .cells, .books, .flights, .nextFlight, .hub, .riders, .lines, .fasts, .groups, .queues, .qdir, .farriers, .trims, .watches, .hbm, .library, .descs, .kernels, .store, .held, .latched] P = true)  (hc : Changes P s₀ s) : ResChanges P s₀ (execDcTick s) := by
  unfold execDcTick
  try dsimp only
  repeat' first
    | with_reducible assumption
    | with_reducible exact Changes.refl _ _
    | with_reducible apply Changes.ite
    | with_reducible apply ResChanges.next
    | with_reducible exact ResChanges.fault _
    | with_reducible exact ResChanges.refused _
    | with_reducible apply ResChanges.ite
    | with_reducible apply endPowerDown_changes
    | with_reducible apply forEach_changes
    | with_reducible apply tickLines_changes
    | exact Part.sub_trans (by decide) hp
    | exact Part.mem hp (by decide)
    | (intro _; try dsimp only)
    | split

end Sys2Proof.Machine
end

