-- ==== Sys2Proof/Laws/ChangesVoices.lean ====
section
/-!
SUPPORT. What each operation of Machine/Voices.lean may change.
-/

set_option linter.unusedTactic false
set_option linter.unreachableTactic false
set_option linter.style.longLine false
set_option linter.unusedVariables false
set_option maxRecDepth 8000

namespace Sys2Proof.Machine

open Sys2Proof

theorem execTuningTakesEffect_changes {P : List Part} {s₀ : State} (v : VoiceId) (s : State) (hp : Part.sub [.voices, .chans, .units, .riders, .trims] P = true)  (hc : Changes P s₀ s) : ResChanges P s₀ (execTuningTakesEffect v s) := by
  unfold execTuningTakesEffect
  try dsimp only
  repeat' first
    | with_reducible assumption
    | with_reducible exact Changes.refl _ _
    | with_reducible apply Changes.ite
    | with_reducible apply ResChanges.next
    | with_reducible exact ResChanges.fault _
    | with_reducible exact ResChanges.refused _
    | with_reducible apply ResChanges.ite
    | with_reducible apply tuneVoice_changes
    | exact Part.sub_trans (by decide) hp
    | exact Part.mem hp (by decide)
    | (intro _; try dsimp only)
    | split

theorem execDelayWrite_changes {P : List Part} {s₀ : State} (f : Func) (v : VoiceId) (val : Word) (grant : Grant) (s : State) (hp : Part.sub [.funcs, .voices] P = true)  (hc : Changes P s₀ s) : ResChanges P s₀ (execDelayWrite f v val grant s) := by
  unfold execDelayWrite
  try dsimp only
  repeat' first
    | with_reducible assumption
    | with_reducible exact Changes.refl _ _
    | with_reducible apply Changes.ite
    | with_reducible apply ResChanges.next
    | with_reducible exact ResChanges.fault _
    | with_reducible exact ResChanges.refused _
    | with_reducible apply ResChanges.ite
    | with_reducible apply countVoice_changes
    | with_reducible apply hostElement_changes
    | with_reducible apply modVoice_changes
    | exact Part.sub_trans (by decide) hp
    | exact Part.mem hp (by decide)
    | (intro _; try dsimp only)
    | split

theorem commitFtw_changes {P : List Part} {s₀ : State} (v : VoiceId) (val : Word) (s : State) (hp : Part.sub [.voices] P = true)  (hc : Changes P s₀ s) : Changes P s₀ (commitFtw v val s) := by
  unfold commitFtw
  try dsimp only
  repeat' first
    | with_reducible assumption
    | with_reducible exact Changes.refl _ _
    | with_reducible apply Changes.ite
    | with_reducible apply modVoice_changes
    | with_reducible apply setFtw_changes
    | exact Part.sub_trans (by decide) hp
    | exact Part.mem hp (by decide)
    | (intro _; try dsimp only)
    | split

theorem execFtwHiWrite_changes {P : List Part} {s₀ : State} (f : Func) (v : VoiceId) (val : Word) (grant : Grant) (s : State) (hp : Part.sub [.funcs, .voices] P = true)  (hc : Changes P s₀ s) : ResChanges P s₀ (execFtwHiWrite f v val grant s) := by
  unfold execFtwHiWrite
  try dsimp only
  repeat' first
    | with_reducible assumption
    | with_reducible exact Changes.refl _ _
    | with_reducible apply Changes.ite
    | with_reducible apply ResChanges.next
    | with_reducible exact ResChanges.fault _
    | with_reducible exact ResChanges.refused _
    | with_reducible apply ResChanges.ite
    | with_reducible apply commitFtw_changes
    | with_reducible apply countVoice_changes
    | with_reducible apply hostElement_changes
    | exact Part.sub_trans (by decide) hp
    | exact Part.mem hp (by decide)
    | (intro _; try dsimp only)
    | split

theorem ftwLoWrite_changes {P : List Part} {s₀ : State} (f : Func) (v : VoiceId) (val : Word) (s : State) (hp : Part.sub [.funcs, .voices] P = true)  (hc : Changes P s₀ s) : Changes P s₀ (ftwLoWrite f v val s) := by
  unfold ftwLoWrite
  try dsimp only
  repeat' first
    | with_reducible assumption
    | with_reducible exact Changes.refl _ _
    | with_reducible apply Changes.ite
    | with_reducible apply hostWrite_changes
    | with_reducible apply modVoice_changes
    | exact Part.sub_trans (by decide) hp
    | exact Part.mem hp (by decide)
    | (intro _; try dsimp only)
    | split

theorem execFtwLoWrite_changes {P : List Part} {s₀ : State} (f : Func) (v : VoiceId) (val : Word) (s : State) (hp : Part.sub [.funcs, .voices] P = true)  (hc : Changes P s₀ s) : ResChanges P s₀ (execFtwLoWrite f v val s) := by
  unfold execFtwLoWrite
  try dsimp only
  repeat' first
    | with_reducible assumption
    | with_reducible exact Changes.refl _ _
    | with_reducible apply Changes.ite
    | with_reducible apply ResChanges.next
    | with_reducible exact ResChanges.fault _
    | with_reducible exact ResChanges.refused _
    | with_reducible apply ResChanges.ite
    | with_reducible apply ftwLoWrite_changes
    | exact Part.sub_trans (by decide) hp
    | exact Part.mem hp (by decide)
    | (intro _; try dsimp only)
    | split

theorem execVoiceTuningWrite_changes {P : List Part} {s₀ : State} (f : Func) (v : VoiceId) (reg : TuneReg) (val : Word) (grant : Grant) (s : State) (hp : Part.sub [.funcs, .voices] P = true)  (hc : Changes P s₀ s) : ResChanges P s₀ (execVoiceTuningWrite f v reg val grant s) := by
  unfold execVoiceTuningWrite
  try dsimp only
  repeat' first
    | with_reducible assumption
    | with_reducible exact Changes.refl _ _
    | with_reducible apply Changes.ite
    | with_reducible apply ResChanges.next
    | with_reducible exact ResChanges.fault _
    | with_reducible exact ResChanges.refused _
    | with_reducible apply ResChanges.ite
    | with_reducible apply countVoice_changes
    | with_reducible apply hostElement_changes
    | with_reducible apply modVoice_changes
    | exact Part.sub_trans (by decide) hp
    | exact Part.mem hp (by decide)
    | (intro _; try dsimp only)
    | split

theorem slCtl_changes {P : List Part} {s₀ : State} (i : SliceId) (val : Word) (s : State) (hp : Part.sub [.slices] P = true)  (hc : Changes P s₀ s) : Changes P s₀ (slCtl i val s) := by
  unfold slCtl
  try dsimp only
  repeat' first
    | with_reducible assumption
    | with_reducible exact Changes.refl _ _
    | with_reducible apply Changes.ite
    | with_reducible apply closePort_changes
    | with_reducible apply modSlice_changes
    | with_reducible apply openPort_changes
    | exact Part.sub_trans (by decide) hp
    | exact Part.mem hp (by decide)
    | (intro _; try dsimp only)
    | split

theorem onSlice_changes {P : List Part} {s₀ : State} (i : SliceId) (f : State → State) (s : State) (hp : Part.sub [] P = true) (hf : ∀ y0, Changes P s₀ y0 → Changes P s₀ (f y0)) (hc : Changes P s₀ s) : ResChanges P s₀ (onSlice i f s) := by
  unfold onSlice
  try dsimp only
  repeat' first
    | with_reducible assumption
    | with_reducible exact Changes.refl _ _
    | with_reducible apply Changes.ite
    | with_reducible apply ResChanges.next
    | with_reducible exact ResChanges.fault _
    | with_reducible exact ResChanges.refused _
    | with_reducible apply ResChanges.ite
    | with_reducible apply hf
    | exact Part.sub_trans (by decide) hp
    | exact Part.mem hp (by decide)
    | (intro _; try dsimp only)
    | split

theorem execSlCtlWrite_changes {P : List Part} {s₀ : State} (f : Func) (slice : SliceId) (val : Word) (s : State) (hp : Part.sub [.funcs, .slices] P = true)  (hc : Changes P s₀ s) : ResChanges P s₀ (execSlCtlWrite f slice val s) := by
  unfold execSlCtlWrite
  try dsimp only
  repeat' first
    | with_reducible assumption
    | with_reducible exact Changes.refl _ _
    | with_reducible apply Changes.ite
    | with_reducible apply ResChanges.next
    | with_reducible exact ResChanges.fault _
    | with_reducible exact ResChanges.refused _
    | with_reducible apply ResChanges.ite
    | with_reducible apply hostWrite_changes
    | with_reducible apply onSlice_changes
    | with_reducible apply slCtl_changes
    | exact Part.sub_trans (by decide) hp
    | exact Part.mem hp (by decide)
    | (intro _; try dsimp only)
    | split

theorem portOpened_changes {P : List Part} {s₀ : State} (i : SliceId) (s : State) (hp : Part.sub [.slices] P = true)  (hc : Changes P s₀ s) : Changes P s₀ (portOpened i s) := by
  unfold portOpened
  try dsimp only
  repeat' first
    | with_reducible assumption
    | with_reducible exact Changes.refl _ _
    | with_reducible apply Changes.ite
    | with_reducible apply modSlice_changes
    | exact Part.sub_trans (by decide) hp
    | exact Part.mem hp (by decide)
    | (intro _; try dsimp only)
    | split

theorem execPortOpenTimer_changes {P : List Part} {s₀ : State} (slice : SliceId) (s : State) (hp : Part.sub [.slices] P = true)  (hc : Changes P s₀ s) : ResChanges P s₀ (execPortOpenTimer slice s) := by
  unfold execPortOpenTimer
  try dsimp only
  repeat' first
    | with_reducible assumption
    | with_reducible exact Changes.refl _ _
    | with_reducible apply Changes.ite
    | with_reducible apply ResChanges.next
    | with_reducible exact ResChanges.fault _
    | with_reducible exact ResChanges.refused _
    | with_reducible apply ResChanges.ite
    | with_reducible apply onSlice_changes
    | with_reducible apply portOpened_changes
    | exact Part.sub_trans (by decide) hp
    | exact Part.mem hp (by decide)
    | (intro _; try dsimp only)
    | split

theorem attenTakes_changes {P : List Part} {s₀ : State} (i : SliceId) (s : State) (hp : Part.sub [.slices] P = true)  (hc : Changes P s₀ s) : Changes P s₀ (attenTakes i s) := by
  unfold attenTakes
  try dsimp only
  repeat' first
    | with_reducible assumption
    | with_reducible exact Changes.refl _ _
    | with_reducible apply Changes.ite
    | with_reducible apply modSlice_changes
    | exact Part.sub_trans (by decide) hp
    | exact Part.mem hp (by decide)
    | (intro _; try dsimp only)
    | split

theorem execAttenTakesEffect_changes {P : List Part} {s₀ : State} (slice : SliceId) (s : State) (hp : Part.sub [.slices] P = true)  (hc : Changes P s₀ s) : ResChanges P s₀ (execAttenTakesEffect slice s) := by
  unfold execAttenTakesEffect
  try dsimp only
  repeat' first
    | with_reducible assumption
    | with_reducible exact Changes.refl _ _
    | with_reducible apply Changes.ite
    | with_reducible apply ResChanges.next
    | with_reducible exact ResChanges.fault _
    | with_reducible exact ResChanges.refused _
    | with_reducible apply ResChanges.ite
    | with_reducible apply attenTakes_changes
    | with_reducible apply onSlice_changes
    | exact Part.sub_trans (by decide) hp
    | exact Part.mem hp (by decide)
    | (intro _; try dsimp only)
    | split

theorem execGuardHitClear_changes {P : List Part} {s₀ : State} (f : Func) (slice : SliceId) (s : State) (hp : Part.sub [.funcs, .slices] P = true)  (hc : Changes P s₀ s) : ResChanges P s₀ (execGuardHitClear f slice s) := by
  unfold execGuardHitClear
  try dsimp only
  repeat' first
    | with_reducible assumption
    | with_reducible exact Changes.refl _ _
    | with_reducible apply Changes.ite
    | with_reducible apply ResChanges.next
    | with_reducible exact ResChanges.fault _
    | with_reducible exact ResChanges.refused _
    | with_reducible apply ResChanges.ite
    | with_reducible apply hostWrite_changes
    | with_reducible apply modSlice_changes
    | with_reducible apply onSlice_changes
    | dsimp only [id]
    | exact Part.sub_trans (by decide) hp
    | exact Part.mem hp (by decide)
    | (intro _; try dsimp only)
    | split

theorem guardClip_changes {P : List Part} {s₀ : State} (i : SliceId) (t : Fine) (s : State) (hp : Part.sub [.funcs, .irqs, .slices, .riders] P = true)  (hc : Changes P s₀ s) : Changes P s₀ (guardClip i t s) := by
  unfold guardClip
  try dsimp only
  repeat' first
    | with_reducible assumption
    | with_reducible exact Changes.refl _ _
    | with_reducible apply Changes.ite
    | with_reducible apply forEach_changes
    | with_reducible apply markVoice_changes
    | with_reducible apply modSlice_changes
    | with_reducible apply raise_changes
    | with_reducible apply record_changes
    | exact Part.sub_trans (by decide) hp
    | exact Part.mem hp (by decide)
    | (intro _; try dsimp only)
    | split

theorem sumGuard_changes {P : List Part} {s₀ : State} (i : SliceId) (k : Fin 16) (s : State) (hp : Part.sub [.funcs, .irqs, .slices, .riders] P = true)  (hc : Changes P s₀ s) : Changes P s₀ (sumGuard i k s) := by
  unfold sumGuard
  try dsimp only
  repeat' first
    | with_reducible assumption
    | with_reducible exact Changes.refl _ _
    | with_reducible apply Changes.ite
    | with_reducible apply guardClip_changes
    | exact Part.sub_trans (by decide) hp
    | exact Part.mem hp (by decide)
    | (intro _; try dsimp only)
    | split

theorem execSumGuardClip_changes {P : List Part} {s₀ : State} (slice : SliceId) (sample : Fin 16) (s : State) (hp : Part.sub [.funcs, .irqs, .slices, .riders] P = true)  (hc : Changes P s₀ s) : ResChanges P s₀ (execSumGuardClip slice sample s) := by
  unfold execSumGuardClip
  try dsimp only
  repeat' first
    | with_reducible assumption
    | with_reducible exact Changes.refl _ _
    | with_reducible apply Changes.ite
    | with_reducible apply ResChanges.next
    | with_reducible exact ResChanges.fault _
    | with_reducible exact ResChanges.refused _
    | with_reducible apply ResChanges.ite
    | with_reducible apply onSlice_changes
    | with_reducible apply sumGuard_changes
    | exact Part.sub_trans (by decide) hp
    | exact Part.mem hp (by decide)
    | (intro _; try dsimp only)
    | split

theorem delayTakes_changes {P : List Part} {s₀ : State} (v : VoiceId) (s : State) (hp : Part.sub [.voices] P = true)  (hc : Changes P s₀ s) : Changes P s₀ (delayTakes v s) := by
  unfold delayTakes
  try dsimp only
  repeat' first
    | with_reducible assumption
    | with_reducible exact Changes.refl _ _
    | with_reducible apply Changes.ite
    | with_reducible apply modVoice_changes
    | exact Part.sub_trans (by decide) hp
    | exact Part.mem hp (by decide)
    | (intro _; try dsimp only)
    | split

theorem execDelayTakesEffect_changes {P : List Part} {s₀ : State} (v : VoiceId) (s : State) (hp : Part.sub [.voices] P = true)  (hc : Changes P s₀ s) : ResChanges P s₀ (execDelayTakesEffect v s) := by
  unfold execDelayTakesEffect
  try dsimp only
  repeat' first
    | with_reducible assumption
    | with_reducible exact Changes.refl _ _
    | with_reducible apply Changes.ite
    | with_reducible apply ResChanges.next
    | with_reducible exact ResChanges.fault _
    | with_reducible exact ResChanges.refused _
    | with_reducible apply ResChanges.ite
    | with_reducible apply delayTakes_changes
    | exact Part.sub_trans (by decide) hp
    | exact Part.mem hp (by decide)
    | (intro _; try dsimp only)
    | split

end Sys2Proof.Machine
end

