-- ==== Sys2Proof/Laws/ChangesGaits.lean ====
section
/-!
SUPPORT. What each operation of Machine/Gaits.lean may change.
-/

set_option linter.unusedTactic false
set_option linter.unreachableTactic false
set_option linter.style.longLine false
set_option linter.unusedVariables false
set_option maxRecDepth 8000

namespace Sys2Proof.Machine

open Sys2Proof

theorem execTrotDeadlineWrite_changes {P : List Part} {s₀ : State} (f : Func) (n : StallId) (k : Fin 8) (val : Word) (s : State) (hp : Part.sub [.funcs, .gaits] P = true)  (hc : Changes P s₀ s) : ResChanges P s₀ (execTrotDeadlineWrite f n k val s) := by
  unfold execTrotDeadlineWrite
  try dsimp only
  repeat' first
    | with_reducible assumption
    | with_reducible exact Changes.refl _ _
    | with_reducible apply Changes.ite
    | with_reducible apply ResChanges.next
    | with_reducible exact ResChanges.fault _
    | with_reducible exact ResChanges.refused _
    | with_reducible apply ResChanges.ite
    | with_reducible apply hostCheck_changes
    | with_reducible apply modGait_changes
    | exact Part.sub_trans (by decide) hp
    | exact Part.mem hp (by decide)
    | (intro _; try dsimp only)
    | split

theorem execPaceWarnClear_changes {P : List Part} {s₀ : State} (f : Func) (place : PacePlace) (s : State) (hp : Part.sub [.funcs, .spine, .gaits] P = true)  (hc : Changes P s₀ s) : ResChanges P s₀ (execPaceWarnClear f place s) := by
  unfold execPaceWarnClear
  refine ResChanges.next (hostWrite_changes _ _ _ _ (Part.sub_trans (by decide) hp) (fun s hs => ?_) hc)
  dsimp only
  split
  · exact modGait_changes _ _ _ (Part.sub_trans (by decide) hp) hs
  · exact Changes.set_spine _ (Part.mem hp (by decide)) hs

theorem paceCodes_changes {P : List Part} {s₀ : State} (was : Pace) (now : Pace) (stall : Nat) (src : Nat) (s : State) (hp : Part.sub [.funcs, .irqs] P = true)  (hc : Changes P s₀ s) : Changes P s₀ (paceCodes was now stall src s) := by
  unfold paceCodes
  try dsimp only
  repeat' first
    | with_reducible assumption
    | with_reducible exact Changes.refl _ _
    | with_reducible apply Changes.ite
    | with_reducible apply raise_changes
    | with_reducible apply record_changes
    | exact Part.sub_trans (by decide) hp
    | exact Part.mem hp (by decide)
    | (intro _; try dsimp only)
    | split

theorem paceToken_changes {P : List Part} {s₀ : State} (was : Pace) (now : Pace) (src : Place) (e : Option ReinChan) (s : State) (hp : Part.sub [.funcs, .nodes, .books, .flights, .nextFlight, .hub] P = true)  (hc : Changes P s₀ s) : Changes P s₀ (paceToken was now src e s) := by
  unfold paceToken
  try dsimp only
  repeat' first
    | with_reducible assumption
    | with_reducible exact Changes.refl _ _
    | with_reducible apply Changes.ite
    | with_reducible apply issueToken_changes
    | exact Part.sub_trans (by decide) hp
    | exact Part.mem hp (by decide)
    | (intro _; try dsimp only)
    | split

theorem paceMeasured_changes {P : List Part} {s₀ : State} (p : PacePlace) (k : Fin 4) (margin : Int) (s : State) (hp : Part.sub [.funcs, .irqs, .spine, .gaits, .nodes, .books, .flights, .nextFlight, .hub, .riders] P = true)  (hc : Changes P s₀ s) : Changes P s₀ (paceMeasured p k margin s) := by
  cases p
  case stall n =>
    unfold paceMeasured
    dsimp only
    refine Changes.ite (fun _ => ?_) fun _ => hc
    refine paceToken_changes _ _ _ _ _ (Part.sub_trans (by decide) hp) (paceCodes_changes _ _ _ _ _ (Part.sub_trans (by decide) hp) ?_)
    refine forEach_changes _ _ _ (fun r s hs => modRider_changes _ _ _ (Part.sub_trans (by decide) hp) hs) ?_
    exact modGait_changes _ _ _ (Part.sub_trans (by decide) hp) hc
  case spine =>
    unfold paceMeasured
    dsimp only
    refine Changes.ite (fun _ => hc) fun _ => ?_
    refine paceToken_changes _ _ _ _ _ (Part.sub_trans (by decide) hp) (paceCodes_changes _ _ _ _ _ (Part.sub_trans (by decide) hp) ?_)
    refine forEach_changes _ _ _ (fun n s hs => forEach_changes _ _ _ (fun r s hs => modRider_changes _ _ _ (Part.sub_trans (by decide) hp) hs) hs) ?_
    exact Changes.set_spine _ (Part.mem hp (by decide)) hc

theorem execPaceMeasurement_changes {P : List Part} {s₀ : State} (place : PacePlace) (monitor : Fin 4) (margin : Int) (s : State) (hp : Part.sub [.funcs, .irqs, .spine, .gaits, .nodes, .books, .flights, .nextFlight, .hub, .riders] P = true)  (hc : Changes P s₀ s) : ResChanges P s₀ (execPaceMeasurement place monitor margin s) := by
  unfold execPaceMeasurement
  try dsimp only
  repeat' first
    | with_reducible assumption
    | with_reducible exact Changes.refl _ _
    | with_reducible apply Changes.ite
    | with_reducible apply ResChanges.next
    | with_reducible exact ResChanges.fault _
    | with_reducible exact ResChanges.refused _
    | with_reducible apply ResChanges.ite
    | with_reducible apply paceMeasured_changes
    | exact Part.sub_trans (by decide) hp
    | exact Part.mem hp (by decide)
    | (intro _; try dsimp only)
    | split

theorem trotRelease_changes {P : List Part} {s₀ : State} (v : VoiceId) (s : State) (hp : Part.sub [.funcs, .voices, .seqs, .chans, .units, .riders, .queues, .qdir, .trims, .freeCtr] P = true)  (hc : Changes P s₀ s) : Changes P s₀ (trotRelease v s) := by
  unfold trotRelease
  try dsimp only
  repeat' first
    | with_reducible assumption
    | with_reducible exact Changes.refl _ _
    | with_reducible apply Changes.ite
    | with_reducible apply endFork_changes
    | with_reducible apply holdSelection_changes
    | with_reducible apply missFork_changes
    | with_reducible apply modSeq_changes
    | exact Part.sub_trans (by decide) hp
    | exact Part.mem hp (by decide)
    | (intro _; try dsimp only)
    | split

theorem execTrotRelease_changes {P : List Part} {s₀ : State} (v : VoiceId) (s : State) (hp : Part.sub [.funcs, .voices, .seqs, .chans, .units, .riders, .queues, .qdir, .trims, .freeCtr] P = true)  (hc : Changes P s₀ s) : ResChanges P s₀ (execTrotRelease v s) := by
  unfold execTrotRelease
  try dsimp only
  repeat' first
    | with_reducible assumption
    | with_reducible exact Changes.refl _ _
    | with_reducible apply Changes.ite
    | with_reducible apply ResChanges.next
    | with_reducible exact ResChanges.fault _
    | with_reducible exact ResChanges.refused _
    | with_reducible apply ResChanges.ite
    | with_reducible apply trotRelease_changes
    | exact Part.sub_trans (by decide) hp
    | exact Part.mem hp (by decide)
    | (intro _; try dsimp only)
    | split

theorem leaveClaim_changes {P : List Part} {s₀ : State} (k : Nat) (input : Nat) (s : State) (hp : Part.sub [.riders] P = true)  (hc : Changes P s₀ s) : Changes P s₀ (leaveClaim k input s) := by
  unfold leaveClaim
  try dsimp only
  repeat' first
    | with_reducible assumption
    | with_reducible exact Changes.refl _ _
    | with_reducible apply Changes.ite
    | with_reducible apply modRider_changes
    | exact Part.sub_trans (by decide) hp
    | exact Part.mem hp (by decide)
    | (intro _; try dsimp only)
    | split

theorem completeEmpty_changes {P : List Part} {s₀ : State} (fk : Fork) (v : VoiceId) (late : Bool) (settled : Bool) (s : State) (hp : Part.sub [.funcs, .irqs, .stalls, .seqs, .chans, .riders, .queues, .feeds] P = true)  (hc : Changes P s₀ s) : Changes P s₀ (completeEmpty fk v late settled s) := by
  unfold completeEmpty
  try dsimp only
  repeat' first
    | with_reducible assumption
    | with_reducible exact Changes.refl _ _
    | with_reducible apply Changes.ite
    | with_reducible apply forkWithoutToken_changes
    | with_reducible apply leaveClaim_changes
    | exact Part.sub_trans (by decide) hp
    | exact Part.mem hp (by decide)
    | (intro _; try dsimp only)
    | split

theorem forkLate_changes {P : List Part} {s₀ : State} (v : VoiceId) (fk : Fork) (s : State) (hp : Part.sub [.funcs, .irqs, .stalls, .gaits, .seqs, .chans, .riders, .queues, .feeds] P = true)  (hc : Changes P s₀ s) : Changes P s₀ (forkLate v fk s) := by
  unfold forkLate
  try dsimp only
  repeat' first
    | with_reducible assumption
    | with_reducible exact Changes.refl _ _
    | with_reducible apply Changes.ite
    | with_reducible apply completeEmpty_changes
    | with_reducible apply lateFault_changes
    | with_reducible apply modGait_changes
    | with_reducible apply modSeq_changes
    | with_reducible apply settleFork_changes
    | exact Part.sub_trans (by decide) hp
    | exact Part.mem hp (by decide)
    | (intro _; try dsimp only)
    | split

theorem endSpent_changes {P : List Part} {s₀ : State} (v : VoiceId) (fk : Fork) (s : State) (hp : Part.sub [.funcs, .irqs, .stalls, .seqs, .chans, .riders, .queues, .feeds] P = true)  (hc : Changes P s₀ s) : Changes P s₀ (endSpent v fk s) := by
  unfold endSpent
  try dsimp only
  repeat' first
    | with_reducible assumption
    | with_reducible exact Changes.refl _ _
    | with_reducible apply Changes.ite
    | with_reducible apply completeEmpty_changes
    | with_reducible apply modSeq_changes
    | exact Part.sub_trans (by decide) hp
    | exact Part.mem hp (by decide)
    | (intro _; try dsimp only)
    | split

theorem latchPoint_changes {P : List Part} {s₀ : State} (v : VoiceId) (s : State) (hp : Part.sub [.funcs, .irqs, .stalls, .gaits, .seqs, .chans, .riders, .queues, .feeds] P = true)  (hc : Changes P s₀ s) : Changes P s₀ (latchPoint v s) := by
  unfold latchPoint
  try dsimp only
  repeat' first
    | with_reducible assumption
    | with_reducible exact Changes.refl _ _
    | with_reducible apply Changes.ite
    | with_reducible apply completeEmpty_changes
    | with_reducible apply endSpent_changes
    | with_reducible apply forkLate_changes
    | with_reducible apply missFork_changes
    | with_reducible apply modSeq_changes
    | exact Part.sub_trans (by decide) hp
    | exact Part.mem hp (by decide)
    | (intro _; try dsimp only)
    | split

theorem execTrotLatchPoint_changes {P : List Part} {s₀ : State} (v : VoiceId) (s : State) (hp : Part.sub [.funcs, .irqs, .stalls, .gaits, .seqs, .chans, .riders, .queues, .feeds] P = true)  (hc : Changes P s₀ s) : ResChanges P s₀ (execTrotLatchPoint v s) := by
  unfold execTrotLatchPoint
  try dsimp only
  repeat' first
    | with_reducible assumption
    | with_reducible exact Changes.refl _ _
    | with_reducible apply Changes.ite
    | with_reducible apply ResChanges.next
    | with_reducible exact ResChanges.fault _
    | with_reducible exact ResChanges.refused _
    | with_reducible apply ResChanges.ite
    | with_reducible apply latchPoint_changes
    | exact Part.sub_trans (by decide) hp
    | exact Part.mem hp (by decide)
    | (intro _; try dsimp only)
    | split

theorem markGateWindows_changes {P : List Part} {s₀ : State} (n : StallId) (k : Fin 5) (frame : Nat) (s : State) (hp : Part.sub [.chans, .riders] P = true)  (hc : Changes P s₀ s) : Changes P s₀ (markGateWindows n k frame s) := by
  unfold markGateWindows
  try dsimp only
  repeat' first
    | with_reducible assumption
    | with_reducible exact Changes.refl _ _
    | with_reducible apply Changes.ite
    | with_reducible apply markFrame_changes
    | exact Part.sub_trans (by decide) hp
    | exact Part.mem hp (by decide)
    | (intro _; try dsimp only)
    | split

theorem adcFull_changes {P : List Part} {s₀ : State} (n : StallId) (k : Fin 5) (frame : Nat) (s : State) (hp : Part.sub [.funcs, .gaits, .chans, .units, .riders] P = true)  (hc : Changes P s₀ s) : Changes P s₀ (adcFull n k frame s) := by
  unfold adcFull
  try dsimp only
  repeat' first
    | with_reducible assumption
    | with_reducible exact Changes.refl _ _
    | with_reducible apply Changes.ite
    | with_reducible apply markGateWindows_changes
    | with_reducible apply markRecords_changes
    | with_reducible apply modGait_changes
    | with_reducible apply onAcq_changes
    | with_reducible apply record_changes
    | exact Part.sub_trans (by decide) hp
    | exact Part.mem hp (by decide)
    | (intro _; try dsimp only)
    | split

theorem execAdcGateFull_changes {P : List Part} {s₀ : State} (n : StallId) (slice : Fin 5) (frame : Nat) (s : State) (hp : Part.sub [.funcs, .gaits, .chans, .units, .riders] P = true)  (hc : Changes P s₀ s) : ResChanges P s₀ (execAdcGateFull n slice frame s) := by
  unfold execAdcGateFull
  try dsimp only
  repeat' first
    | with_reducible assumption
    | with_reducible exact Changes.refl _ _
    | with_reducible apply Changes.ite
    | with_reducible apply ResChanges.next
    | with_reducible exact ResChanges.fault _
    | with_reducible exact ResChanges.refused _
    | with_reducible apply ResChanges.ite
    | with_reducible apply adcFull_changes
    | exact Part.sub_trans (by decide) hp
    | exact Part.mem hp (by decide)
    | (intro _; try dsimp only)
    | split

theorem markFluxGate_changes {P : List Part} {s₀ : State} (g : GroupId) (s : State) (hp : Part.sub [.riders] P = true)  (hc : Changes P s₀ s) : Changes P s₀ (markFluxGate g s) := by
  unfold markFluxGate
  try dsimp only
  repeat' first
    | with_reducible assumption
    | with_reducible exact Changes.refl _ _
    | with_reducible apply Changes.ite
    | with_reducible apply forEach_changes
    | with_reducible apply markRider_changes
    | exact Part.sub_trans (by decide) hp
    | exact Part.mem hp (by decide)
    | (intro _; try dsimp only)
    | split

theorem countEmpty_changes {P : List Part} {s₀ : State} (n : StallId) (beats : Nat) (s : State) (hp : Part.sub [.gaits] P = true)  (hc : Changes P s₀ s) : Changes P s₀ (countEmpty n beats s) := by
  unfold countEmpty
  try dsimp only
  repeat' first
    | with_reducible assumption
    | with_reducible exact Changes.refl _ _
    | with_reducible apply Changes.ite
    | with_reducible apply modGait_changes
    | exact Part.sub_trans (by decide) hp
    | exact Part.mem hp (by decide)
    | (intro _; try dsimp only)
    | split

theorem dacEmpty_changes {P : List Part} {s₀ : State} (i : SliceId) (beats : Nat) (s : State) (hp : Part.sub [.funcs, .gaits, .slices, .riders] P = true)  (hc : Changes P s₀ s) : Changes P s₀ (dacEmpty i beats s) := by
  unfold dacEmpty
  try dsimp only
  repeat' first
    | with_reducible assumption
    | with_reducible exact Changes.refl _ _
    | with_reducible apply Changes.ite
    | with_reducible apply countEmpty_changes
    | with_reducible apply markSlice_changes
    | with_reducible apply modSlice_changes
    | with_reducible apply record_changes
    | exact Part.sub_trans (by decide) hp
    | exact Part.mem hp (by decide)
    | (intro _; try dsimp only)
    | split

theorem execDacGateUnderrun_changes {P : List Part} {s₀ : State} (gate : Gate) (beats : Nat) (s : State) (hp : Part.sub [.funcs, .gaits, .slices, .riders, .fasts] P = true)  (hc : Changes P s₀ s) : ResChanges P s₀ (execDacGateUnderrun gate beats s) := by
  unfold execDacGateUnderrun
  try dsimp only
  repeat' first
    | with_reducible assumption
    | with_reducible exact Changes.refl _ _
    | with_reducible apply Changes.ite
    | with_reducible apply ResChanges.next
    | with_reducible exact ResChanges.fault _
    | with_reducible exact ResChanges.refused _
    | with_reducible apply ResChanges.ite
    | with_reducible apply countEmpty_changes
    | with_reducible apply dacEmpty_changes
    | with_reducible apply forEach_changes
    | with_reducible apply markFluxGate_changes
    | with_reducible apply modFast_changes
    | with_reducible apply onSlice_changes
    | with_reducible apply record_changes
    | exact Part.sub_trans (by decide) hp
    | exact Part.mem hp (by decide)
    | (intro _; try dsimp only)
    | split

end Sys2Proof.Machine
end

