-- ==== Sys2Proof/Laws/ChangesInstallOps.lean ====
section
/-!
SUPPORT. What each operation of Machine/InstallOps.lean may change.
-/

set_option linter.unusedTactic false
set_option linter.unreachableTactic false
set_option linter.style.longLine false
set_option linter.unusedVariables false
set_option maxRecDepth 8000

namespace Sys2Proof.Machine

open Sys2Proof

theorem writeRecord_changes {P : List Part} {s₀ : State} (base : Nat) (s : State) (hp : Part.sub [.hbm] P = true)  (hc : Changes P s₀ s) : Changes P s₀ (writeRecord base s) := by
  unfold writeRecord
  try dsimp only
  repeat' first
    | with_reducible assumption
    | with_reducible exact Changes.refl _ _
    | with_reducible apply Changes.ite
    | with_reducible apply setHbm_changes
    | exact Part.sub_trans (by decide) hp
    | exact Part.mem hp (by decide)
    | (intro _; try dsimp only)
    | split

theorem raiseFloor_changes {P : List Part} {s₀ : State} (s : State) (hp : Part.sub [.backup, .persist] P = true)  (hc : Changes P s₀ s) : Changes P s₀ (raiseFloor s) := by
  unfold raiseFloor
  try dsimp only
  repeat' first
    | with_reducible assumption
    | with_reducible exact Changes.refl _ _
    | with_reducible apply Changes.ite
    | with_reducible apply setBackup_changes
    | with_reducible apply setPersist_changes
    | exact Part.sub_trans (by decide) hp
    | exact Part.mem hp (by decide)
    | (intro _; try dsimp only)
    | split

theorem fillMemories_changes {P : List Part} {s₀ : State} (n : StallId) (i : StallImage) (s : State) (hp : Part.sub [.library, .descs, .kernels, .store] P = true)  (hc : Changes P s₀ s) : Changes P s₀ (fillMemories n i s) := by
  unfold fillMemories
  try dsimp only
  repeat' first
    | with_reducible assumption
    | with_reducible exact Changes.refl _ _
    | with_reducible apply Changes.ite
    | (refine Changes.trans hc ⟨fun p hn => ?_⟩; cases p <;> first | rfl | (rw [Part.mem hp (by decide)] at hn; cases hn))
    | exact Part.sub_trans (by decide) hp
    | exact Part.mem hp (by decide)
    | (intro _; try dsimp only)
    | split

theorem fillCells_changes {P : List Part} {s₀ : State} (n : StallId) (i : StallImage) (s : State) (hp : Part.sub [.cells] P = true)  (hc : Changes P s₀ s) : Changes P s₀ (fillCells n i s) := by
  unfold fillCells
  try dsimp only
  repeat' first
    | with_reducible assumption
    | with_reducible exact Changes.refl _ _
    | with_reducible apply Changes.ite
    | with_reducible apply Changes.set_cells
    | exact Part.sub_trans (by decide) hp
    | exact Part.mem hp (by decide)
    | (intro _; try dsimp only)
    | split

theorem fillStall_changes {P : List Part} {s₀ : State} (n : StallId) (i : StallImage) (s : State) (hp : Part.sub [.stallImages, .cells, .queues, .library, .descs, .kernels, .store] P = true)  (hc : Changes P s₀ s) : Changes P s₀ (fillStall n i s) := by
  unfold fillStall
  try dsimp only
  repeat' first
    | with_reducible assumption
    | with_reducible exact Changes.refl _ _
    | with_reducible apply Changes.ite
    | with_reducible apply fillCells_changes
    | with_reducible apply fillMemories_changes
    | with_reducible apply grantQueues_changes
    | with_reducible apply presentPorts_changes
    | with_reducible apply setStallImages_changes
    | exact Part.sub_trans (by decide) hp
    | exact Part.mem hp (by decide)
    | (intro _; try dsimp only)
    | split

theorem initFarrier_changes {P : List Part} {s₀ : State} (n : StallId) (r : FaReg) (val : Word) (x3 : State) (hp : Part.sub [.farriers] P = true)  (hc : Changes P s₀ x3) : Changes P s₀ (initFarrier n r val x3) := by
  unfold initFarrier
  try dsimp only
  repeat' first
    | with_reducible assumption
    | with_reducible exact Changes.refl _ _
    | with_reducible apply Changes.ite
    | with_reducible apply farrierField_changes
    | dsimp only [id]
    | exact Part.sub_trans (by decide) hp
    | exact Part.mem hp (by decide)
    | (intro _; try dsimp only)
    | split

theorem initRider_changes {P : List Part} {s₀ : State} (h : RiderId) (r : RhReg) (val : Word) (x3 : State) (hp : Part.sub [.riders] P = true)  (hc : Changes P s₀ x3) : Changes P s₀ (initRider h r val x3) := by
  unfold initRider
  try dsimp only
  repeat' first
    | with_reducible assumption
    | with_reducible exact Changes.refl _ _
    | with_reducible apply Changes.ite
    | with_reducible apply modRider_changes
    | with_reducible apply riderField_changes
    | dsimp only [id]
    | exact Part.sub_trans (by decide) hp
    | exact Part.mem hp (by decide)
    | (intro _; try dsimp only)
    | split

theorem initLine_changes {P : List Part} {s₀ : State} (l : LineId) (r : FlReg) (val : Word) (x3 : State) (hp : Part.sub [.lines, .fasts] P = true)  (hc : Changes P s₀ x3) : Changes P s₀ (initLine l r val x3) := by
  unfold initLine
  try dsimp only
  repeat' first
    | with_reducible assumption
    | with_reducible exact Changes.refl _ _
    | with_reducible apply Changes.ite
    | with_reducible apply lineField_changes
    | with_reducible apply modLine_changes
    | dsimp only [id]
    | exact Part.sub_trans (by decide) hp
    | exact Part.mem hp (by decide)
    | (intro _; try dsimp only)
    | split

theorem initUnit_changes {P : List Part} {s₀ : State} (u : UnitId) (r : TuReg) (val : Word) (x3 : State) (hp : Part.sub [.units] P = true)  (hc : Changes P s₀ x3) : Changes P s₀ (initUnit u r val x3) := by
  unfold initUnit
  try dsimp only
  repeat' first
    | with_reducible assumption
    | with_reducible exact Changes.refl _ _
    | with_reducible apply Changes.ite
    | with_reducible apply modUnit_changes
    | exact Part.sub_trans (by decide) hp
    | exact Part.mem hp (by decide)
    | (intro _; try dsimp only)
    | split

theorem initChan_changes {P : List Part} {s₀ : State} (c : ChanId) (r : ChReg) (val : Word) (x3 : State) (hp : Part.sub [.chans] P = true)  (hc : Changes P s₀ x3) : Changes P s₀ (initChan c r val x3) := by
  unfold initChan
  try dsimp only
  repeat' first
    | with_reducible assumption
    | with_reducible exact Changes.refl _ _
    | with_reducible apply Changes.ite
    | with_reducible apply chanField_changes
    | with_reducible apply modChan_changes
    | dsimp only [id]
    | exact Part.sub_trans (by decide) hp
    | exact Part.mem hp (by decide)
    | (intro _; try dsimp only)
    | split

theorem initVoice_changes {P : List Part} {s₀ : State} (v : VoiceId) (r : VcReg) (val : Word) (x3 : State) (hp : Part.sub [.voices] P = true)  (hc : Changes P s₀ x3) : Changes P s₀ (initVoice v r val x3) := by
  unfold initVoice
  try dsimp only
  repeat' first
    | with_reducible assumption
    | with_reducible exact Changes.refl _ _
    | with_reducible apply Changes.ite
    | with_reducible apply modVoice_changes
    | dsimp only [id]
    | exact Part.sub_trans (by decide) hp
    | exact Part.mem hp (by decide)
    | (intro _; try dsimp only)
    | split

theorem initSlice_changes {P : List Part} {s₀ : State} (i : SliceId) (r : SlReg) (val : Word) (x3 : State) (hp : Part.sub [.slices] P = true)  (hc : Changes P s₀ x3) : Changes P s₀ (initSlice i r val x3) := by
  unfold initSlice
  try dsimp only
  repeat' first
    | with_reducible assumption
    | with_reducible exact Changes.refl _ _
    | with_reducible apply Changes.ite
    | with_reducible apply modSlice_changes
    | with_reducible apply sliceField_changes
    | dsimp only [id]
    | exact Part.sub_trans (by decide) hp
    | exact Part.mem hp (by decide)
    | (intro _; try dsimp only)
    | split

theorem initCtl_changes {P : List Part} {s₀ : State} (n : StallId) (r : CtlReg) (val : Word) (x3 : State) (hp : Part.sub [.stalls, .gaits] P = true)  (hc : Changes P s₀ x3) : Changes P s₀ (initCtl n r val x3) := by
  unfold initCtl
  try dsimp only
  repeat' first
    | with_reducible assumption
    | with_reducible exact Changes.refl _ _
    | with_reducible apply Changes.ite
    | with_reducible apply ctlField_changes
    | with_reducible apply modGait_changes
    | dsimp only [id]
    | exact Part.sub_trans (by decide) hp
    | exact Part.mem hp (by decide)
    | (intro _; try dsimp only)
    | split

theorem initReg_changes {P : List Part} {s₀ : State} (r : Reg) (val : Word) (x2 : State) (hp : Part.sub [.stalls, .gaits, .slices, .acqs, .voices, .seqs, .chans, .units, .cells, .riders, .lines, .fasts, .farriers, .watches] P = true)  (hc : Changes P s₀ x2) : Changes P s₀ (initReg r val x2) := by
  unfold initReg
  try dsimp only
  repeat' first
    | with_reducible assumption
    | with_reducible exact Changes.refl _ _
    | with_reducible apply Changes.ite
    | with_reducible apply initChan_changes
    | with_reducible apply initCtl_changes
    | with_reducible apply initFarrier_changes
    | with_reducible apply initLine_changes
    | with_reducible apply initRider_changes
    | with_reducible apply initSlice_changes
    | with_reducible apply initUnit_changes
    | with_reducible apply initVoice_changes
    | with_reducible apply kernelPageField_changes
    | with_reducible apply modAcq_changes
    | with_reducible apply modCell_changes
    | with_reducible apply modSeq_changes
    | with_reducible apply modWatch_changes
    | dsimp only [id]
    | exact Part.sub_trans (by decide) hp
    | exact Part.mem hp (by decide)
    | (intro _; try dsimp only)
    | split
    | (rename_i r; cases watchOf r)

theorem initFlCtl_changes {P : List Part} {s₀ : State} (r : Reg) (val : Word) (x2 : State) (hp : Part.sub [.lines, .fasts] P = true)  (hc : Changes P s₀ x2) : Changes P s₀ (initFlCtl r val x2) := by
  unfold initFlCtl
  try dsimp only
  repeat' first
    | with_reducible assumption
    | with_reducible exact Changes.refl _ _
    | with_reducible apply Changes.ite
    | with_reducible apply modFast_changes
    | with_reducible apply modLine_changes
    | dsimp only [id]
    | exact Part.sub_trans (by decide) hp
    | exact Part.mem hp (by decide)
    | (intro _; try dsimp only)
    | split

theorem applyInit_changes {P : List Part} {s₀ : State} (n : StallId) (i : StallImage) (s : State) (hp : Part.sub [.stalls, .gaits, .slices, .acqs, .voices, .seqs, .chans, .units, .cells, .riders, .lines, .fasts, .farriers, .watches] P = true)  (hc : Changes P s₀ s) : Changes P s₀ (applyInit n i s) := by
  unfold applyInit
  try dsimp only
  repeat' first
    | with_reducible assumption
    | with_reducible exact Changes.refl _ _
    | with_reducible apply Changes.ite
    | with_reducible apply forEach_changes
    | with_reducible apply initFlCtl_changes
    | with_reducible apply initReg_changes
    | exact Part.sub_trans (by decide) hp
    | exact Part.mem hp (by decide)
    | (intro _; try dsimp only)
    | split

theorem stallPower_changes {P : List Part} {s₀ : State} (n : StallId) (i : StallImage) (s : State) (hp : Part.sub [.power] P = true)  (hc : Changes P s₀ s) : Changes P s₀ (stallPower n i s) := by
  unfold stallPower
  try dsimp only
  repeat' first
    | with_reducible assumption
    | with_reducible exact Changes.refl _ _
    | with_reducible apply Changes.ite
    | with_reducible apply forEach_changes
    | with_reducible apply setDomains_changes
    | exact Part.sub_trans (by decide) hp
    | exact Part.mem hp (by decide)
    | (intro _; try dsimp only)
    | split

theorem fillFarrier_changes {P : List Part} {s₀ : State} (n : StallId) (p : FarrierPolicy) (s : State) (hp : Part.sub [.farriers] P = true)  (hc : Changes P s₀ s) : Changes P s₀ (fillFarrier n p s) := by
  unfold fillFarrier
  try dsimp only
  repeat' first
    | with_reducible assumption
    | with_reducible exact Changes.refl _ _
    | with_reducible apply Changes.ite
    | with_reducible apply modFarrier_changes
    | exact Part.sub_trans (by decide) hp
    | exact Part.mem hp (by decide)
    | (intro _; try dsimp only)
    | split

theorem fillWatch_changes {P : List Part} {s₀ : State} (n : StallId) (i : StallImage) (s : State) (hp : Part.sub [.watches] P = true)  (hc : Changes P s₀ s) : Changes P s₀ (fillWatch n i s) := by
  unfold fillWatch
  try dsimp only
  repeat' first
    | with_reducible assumption
    | with_reducible exact Changes.refl _ _
    | with_reducible apply Changes.ite
    | with_reducible apply forEach_changes
    | with_reducible apply modWatch_changes
    | exact Part.sub_trans (by decide) hp
    | exact Part.mem hp (by decide)
    | (intro _; try dsimp only)
    | split

theorem fillTrot_changes {P : List Part} {s₀ : State} (n : StallId) (i : StallImage) (s : State) (hp : Part.sub [.gaits] P = true)  (hc : Changes P s₀ s) : Changes P s₀ (fillTrot n i s) := by
  unfold fillTrot
  try dsimp only
  repeat' first
    | with_reducible assumption
    | with_reducible exact Changes.refl _ _
    | with_reducible apply Changes.ite
    | with_reducible apply modGait_changes
    | exact Part.sub_trans (by decide) hp
    | exact Part.mem hp (by decide)
    | (intro _; try dsimp only)
    | split

theorem fillTrims_changes {P : List Part} {s₀ : State} (n : StallId) (s : State) (hp : Part.sub [.voices] P = true)  (hc : Changes P s₀ s) : Changes P s₀ (fillTrims n s) := by
  unfold fillTrims
  try dsimp only
  repeat' first
    | with_reducible assumption
    | with_reducible exact Changes.refl _ _
    | with_reducible apply Changes.ite
    | with_reducible apply forEach_changes
    | with_reducible apply modVoice_changes
    | exact Part.sub_trans (by decide) hp
    | exact Part.mem hp (by decide)
    | (intro _; try dsimp only)
    | split

theorem resetTunables_changes {P : List Part} {s₀ : State} (n : StallId) (s : State) (hp : Part.sub [.stalls, .gaits, .slices, .acqs, .voices, .seqs, .chans, .units, .riders, .lines, .fasts] P = true)  (hc : Changes P s₀ s) : Changes P s₀ (resetTunables n s) := by
  unfold resetTunables
  try dsimp only
  repeat' first
    | with_reducible assumption
    | with_reducible exact Changes.refl _ _
    | with_reducible apply Changes.ite
    | with_reducible apply forEach_changes
    | with_reducible apply goSafe_changes
    | with_reducible apply modGait_changes
    | with_reducible apply modLine_changes
    | with_reducible apply modRider_changes
    | with_reducible apply modStall_changes
    | (refine Changes.trans hc ⟨fun p hn => ?_⟩; cases p <;> first | rfl | (rw [Part.mem hp (by decide)] at hn; cases hn))
    | exact Part.sub_trans (by decide) hp
    | exact Part.mem hp (by decide)
    | (intro _; try dsimp only)
    | split

theorem standing_changes {P : List Part} {s₀ : State} (n : StallId) (t : SliceKind × BitVec 4) (s : State) (hp : Part.sub [.stalls] P = true)  (hc : Changes P s₀ s) : Changes P s₀ (standing n t s).1 := by
  unfold standing
  try dsimp only
  repeat' first
    | with_reducible assumption
    | with_reducible exact Changes.refl _ _
    | with_reducible apply Changes.ite
    | with_reducible apply modSpare_changes
    | with_reducible apply Changes.fst_ite
    | refine Changes.fst ‹_ = (_, _)› ?_
    | dsimp only
    | exact Part.sub_trans (by decide) hp
    | exact Part.mem hp (by decide)
    | (intro _; try dsimp only)
    | split

theorem standings_changes {P : List Part} {s₀ : State} (n : StallId) (l : List (SliceKind × BitVec 4)) (s : State)
    (hp : Part.sub [.stalls] P = true) (hc : Changes P s₀ s) : Changes P s₀ (standings n l s).1 := by
  induction l generalizing s with
  | nil => exact hc
  | cons a l ih => exact ih _ (standing_changes _ _ _ (Part.sub_trans (by decide) hp) hc)

theorem applyStall_changes {P : List Part} {s₀ : State} (n : StallId) (i : StallImage) (s : State) (hp : Part.sub [.power, .stalls, .gaits, .slices, .acqs, .voices, .seqs, .chans, .units, .cells, .riders, .lines, .fasts, .farriers, .watches] P = true)  (hc : Changes P s₀ s) : Changes P s₀ (applyStall n i s).1 := by
  unfold applyStall
  try dsimp only
  repeat' first
    | with_reducible assumption
    | with_reducible exact Changes.refl _ _
    | with_reducible apply Changes.ite
    | with_reducible apply applyInit_changes
    | with_reducible apply fillFarrier_changes
    | with_reducible apply fillTrims_changes
    | with_reducible apply fillTrot_changes
    | with_reducible apply fillWatch_changes
    | with_reducible apply resetTunables_changes
    | with_reducible apply stallPower_changes
    | with_reducible apply standings_changes
    | with_reducible apply Changes.fst_ite
    | refine Changes.fst ‹_ = (_, _)› ?_
    | dsimp only
    | with_reducible apply standings_changes
    | exact Part.sub_trans (by decide) hp
    | exact Part.mem hp (by decide)
    | (intro _; try dsimp only)
    | split

end Sys2Proof.Machine
end

