-- ==== Sys2Proof/Laws/ChangesTallyOps.lean ====
section
/-!
SUPPORT. What each operation of Machine/TallyOps.lean may change.
-/

set_option linter.unusedTactic false
set_option linter.unreachableTactic false
set_option linter.style.longLine false
set_option linter.unusedVariables false
set_option maxRecDepth 8000

namespace Sys2Proof.Machine

open Sys2Proof

theorem tallyLog_changes {P : List Part} {s₀ : State} (kind : BitVec 8) (source : BitVec 8) (data : Word) (s : State) (hp : Part.sub [.tally] P = true)  (hc : Changes P s₀ s) : Changes P s₀ (tallyLog kind source data s) := by
  unfold tallyLog
  try dsimp only
  repeat' first
    | with_reducible assumption
    | with_reducible exact Changes.refl _ _
    | with_reducible apply Changes.ite
    | with_reducible apply setTally_changes
    | exact Part.sub_trans (by decide) hp
    | exact Part.mem hp (by decide)
    | (intro _; try dsimp only)
    | split

theorem takeMessage_changes {P : List Part} {s₀ : State} (m : FeedIn) (s : State) (hp : Part.sub [.tally] P = true)  (hc : Changes P s₀ s) : Changes P s₀ (takeMessage m s) := by
  unfold takeMessage
  try dsimp only
  repeat' first
    | with_reducible assumption
    | with_reducible exact Changes.refl _ _
    | with_reducible apply Changes.ite
    | with_reducible apply setTally_changes
    | with_reducible apply tallyLog_changes
    | exact Part.sub_trans (by decide) hp
    | exact Part.mem hp (by decide)
    | (intro _; try dsimp only)
    | split

theorem sendFeed_changes {P : List Part} {s₀ : State} (n : StallId) (s : State) (hp : Part.sub [.feeds] P = true)  (hc : Changes P s₀ s) : Changes P s₀ (sendFeed n s) := by
  unfold sendFeed
  try dsimp only
  repeat' first
    | with_reducible assumption
    | with_reducible exact Changes.refl _ _
    | with_reducible apply Changes.ite
    | with_reducible apply modFeed_changes
    | exact Part.sub_trans (by decide) hp
    | exact Part.mem hp (by decide)
    | (intro _; try dsimp only)
    | split

theorem sealToken_changes {P : List Part} {s₀ : State} (tok : Token) (s : State) (hp : Part.sub [.tally] P = true)  (hc : Changes P s₀ s) : Changes P s₀ (sealToken tok s) := by
  unfold sealToken
  try dsimp only
  repeat' first
    | with_reducible assumption
    | with_reducible exact Changes.refl _ _
    | with_reducible apply Changes.ite
    | with_reducible apply tallyLog_changes
    | exact Part.sub_trans (by decide) hp
    | exact Part.mem hp (by decide)
    | (intro _; try dsimp only)
    | split

end Sys2Proof.Machine
end

