-- ==== Sys2Proof/Laws/ChangesTimeOps.lean ====
section
/-!
SUPPORT. What each operation of Machine/TimeOps.lean may change.
-/

set_option linter.unusedTactic false
set_option linter.unreachableTactic false
set_option linter.style.longLine false
set_option linter.unusedVariables false
set_option maxRecDepth 8000

namespace Sys2Proof.Machine

open Sys2Proof

theorem followRules_changes {P : List Part} {s₀ : State} (s : State) (hp : Part.sub [.tc] P = true)  (hc : Changes P s₀ s) : Changes P s₀ (followRules s) := by
  unfold followRules
  try dsimp only
  repeat' first
    | with_reducible assumption
    | with_reducible exact Changes.refl _ _
    | with_reducible apply Changes.ite
    | with_reducible apply setTime_changes
    | exact Part.sub_trans (by decide) hp
    | exact Part.mem hp (by decide)
    | (intro _; try dsimp only)
    | split

theorem steerFollower_changes {P : List Part} {s₀ : State} (s : State) (hp : Part.sub [.tc] P = true)  (hc : Changes P s₀ s) : Changes P s₀ (steerFollower s) := by
  unfold steerFollower
  try dsimp only
  repeat' first
    | with_reducible assumption
    | with_reducible exact Changes.refl _ _
    | with_reducible apply Changes.ite
    | with_reducible apply followRules_changes
    | exact Part.sub_trans (by decide) hp
    | exact Part.mem hp (by decide)
    | (intro _; try dsimp only)
    | split

theorem follow_changes {P : List Part} {s₀ : State} (d : Fin 2) (s : State) (hp : Part.sub [.tc] P = true)  (hc : Changes P s₀ s) : Changes P s₀ (follow d s) := by
  unfold follow
  try dsimp only
  repeat' first
    | with_reducible assumption
    | with_reducible exact Changes.refl _ _
    | with_reducible apply Changes.ite
    | with_reducible apply setTime_changes
    | exact Part.sub_trans (by decide) hp
    | exact Part.mem hp (by decide)
    | (intro _; try dsimp only)
    | split

theorem enterHoldover_changes {P : List Part} {s₀ : State} (s : State) (hp : Part.sub [.funcs, .tc] P = true)  (hc : Changes P s₀ s) : Changes P s₀ (enterHoldover s) := by
  unfold enterHoldover
  try dsimp only
  repeat' first
    | with_reducible assumption
    | with_reducible exact Changes.refl _ _
    | with_reducible apply Changes.ite
    | with_reducible apply record_changes
    | with_reducible apply setTime_changes
    | exact Part.sub_trans (by decide) hp
    | exact Part.mem hp (by decide)
    | (intro _; try dsimp only)
    | split

theorem switchTo_changes {P : List Part} {s₀ : State} (d : Fin 2) (s : State) (hp : Part.sub [.funcs, .tc] P = true)  (hc : Changes P s₀ s) : Changes P s₀ (switchTo d s) := by
  unfold switchTo
  try dsimp only
  repeat' first
    | with_reducible assumption
    | with_reducible exact Changes.refl _ _
    | with_reducible apply Changes.ite
    | with_reducible apply follow_changes
    | with_reducible apply record_changes
    | with_reducible apply setTime_changes
    | exact Part.sub_trans (by decide) hp
    | exact Part.mem hp (by decide)
    | (intro _; try dsimp only)
    | split

theorem leadRules_changes {P : List Part} {s₀ : State} (reached : Option (Fin 2)) (s : State) (hp : Part.sub [.funcs, .tc] P = true)  (hc : Changes P s₀ s) : Changes P s₀ (leadRules reached s) := by
  unfold leadRules
  try dsimp only
  repeat' first
    | with_reducible assumption
    | with_reducible exact Changes.refl _ _
    | with_reducible apply Changes.ite
    | with_reducible apply enterHoldover_changes
    | with_reducible apply follow_changes
    | with_reducible apply switchTo_changes
    | exact Part.sub_trans (by decide) hp
    | exact Part.mem hp (by decide)
    | (intro _; try dsimp only)
    | split

theorem evalReached_changes {P : List Part} {s₀ : State} (reached : Option (Fin 2)) (s : State) (hp : Part.sub [.funcs, .tc] P = true)  (hc : Changes P s₀ s) : Changes P s₀ (evalReached reached s) := by
  unfold evalReached
  try dsimp only
  repeat' first
    | with_reducible assumption
    | with_reducible exact Changes.refl _ _
    | with_reducible apply Changes.ite
    | with_reducible apply followRules_changes
    | with_reducible apply leadRules_changes
    | with_reducible apply setTime_changes
    | exact Part.sub_trans (by decide) hp
    | exact Part.mem hp (by decide)
    | (intro _; try dsimp only)
    | split

theorem evalServo_changes {P : List Part} {s₀ : State} (s : State) (hp : Part.sub [.funcs, .tc] P = true)  (hc : Changes P s₀ s) : Changes P s₀ (evalServo s) := by
  unfold evalServo
  try dsimp only
  repeat' first
    | with_reducible assumption
    | with_reducible exact Changes.refl _ _
    | with_reducible apply Changes.ite
    | with_reducible apply evalReached_changes
    | exact Part.sub_trans (by decide) hp
    | exact Part.mem hp (by decide)
    | (intro _; try dsimp only)
    | split

theorem recordSkips_changes {P : List Part} {s₀ : State} (x0 : Nat) (x1 : State) (hp : Part.sub [.funcs] P = true)  (hc : Changes P s₀ x1) : Changes P s₀ (recordSkips x0 x1) := by
  induction x0 generalizing x1 with
  | zero => exact hc
  | succ k ih => exact ih _ (record_changes _ _ _ _ _ _ (Part.sub_trans (by decide) hp) hc)

theorem skipPulses_changes {P : List Part} {s₀ : State} (from_ : Fine) (till : Fine) (s : State) (hp : Part.sub [.funcs, .pulses] P = true)  (hc : Changes P s₀ s) : Changes P s₀ (skipPulses from_ till s) := by
  unfold skipPulses
  try dsimp only
  repeat' first
    | with_reducible assumption
    | with_reducible exact Changes.refl _ _
    | with_reducible apply Changes.ite
    | with_reducible apply forEach_changes
    | with_reducible apply modPulse_changes
    | with_reducible apply recordSkips_changes
    | exact Part.sub_trans (by decide) hp
    | exact Part.mem hp (by decide)
    | (intro _; try dsimp only)
    | split

end Sys2Proof.Machine
end

