-- ==== Sys2Proof/Laws/ChangesTetherOps.lean ====
section
/-!
SUPPORT. What each operation of Machine/TetherOps.lean may change.
-/

set_option linter.unusedTactic false
set_option linter.unreachableTactic false
set_option linter.style.longLine false
set_option linter.unusedVariables false
set_option maxRecDepth 8000

namespace Sys2Proof.Machine

open Sys2Proof

theorem hubIngress_changes {P : List Part} {s₀ : State} (port : Nat) (tok : Token) (s : State) (hp : Part.sub [.funcs, .nodes, .books, .flights, .nextFlight, .hub] P = true)  (hc : Changes P s₀ s) : Changes P s₀ (hubIngress port tok s) := by
  unfold hubIngress
  try dsimp only
  repeat' first
    | with_reducible assumption
    | with_reducible exact Changes.refl _ _
    | with_reducible apply Changes.ite
    | with_reducible apply addFlight_changes
    | with_reducible apply forEach_changes
    | with_reducible apply issueToken_changes
    | with_reducible apply loopDrop_changes
    | with_reducible apply modBook_changes
    | exact Part.sub_trans (by decide) hp
    | exact Part.mem hp (by decide)
    | (intro _; try dsimp only)
    | split

theorem endRetrain_changes {P : List Part} {s₀ : State} (op : OpStatus) (s : State) (hp : Part.sub [.funcs, .irqs, .tether] P = true)  (hc : Changes P s₀ s) : Changes P s₀ (endRetrain op s) := by
  unfold endRetrain
  try dsimp only
  repeat' first
    | with_reducible assumption
    | with_reducible exact Changes.refl _ _
    | with_reducible apply Changes.ite
    | with_reducible apply raise_changes
    | with_reducible apply setTether_changes
    | exact Part.sub_trans (by decide) hp
    | exact Part.mem hp (by decide)
    | (intro _; try dsimp only)
    | split

theorem replacePackets_changes {P : List Part} {s₀ : State} (s : State) (hp : Part.sub [.tether] P = true)  (hc : Changes P s₀ s) : Changes P s₀ (replacePackets s) := by
  unfold replacePackets
  try dsimp only
  repeat' first
    | with_reducible assumption
    | with_reducible exact Changes.refl _ _
    | with_reducible apply Changes.ite
    | with_reducible apply setTether_changes
    | exact Part.sub_trans (by decide) hp
    | exact Part.mem hp (by decide)
    | (intro _; try dsimp only)
    | split

theorem egressBusy_changes {P : List Part} {s₀ : State} (k : LaneId) (e : ReinChan) (s : State) (hp : Part.sub [.funcs, .books, .lanes, .tether] P = true)  (hc : Changes P s₀ s) : Changes P s₀ (egressBusy k e s) := by
  unfold egressBusy
  try dsimp only
  repeat' first
    | with_reducible assumption
    | with_reducible exact Changes.refl _ _
    | with_reducible apply Changes.ite
    | with_reducible apply bookOverrun_changes
    | with_reducible apply modLane_changes
    | with_reducible apply record_changes
    | with_reducible apply setTether_changes
    | exact Part.sub_trans (by decide) hp
    | exact Part.mem hp (by decide)
    | (intro _; try dsimp only)
    | split

theorem noLaneDrop_changes {P : List Part} {s₀ : State} (e : ReinChan) (s : State) (hp : Part.sub [.funcs, .books, .tether] P = true)  (hc : Changes P s₀ s) : Changes P s₀ (noLaneDrop e s) := by
  unfold noLaneDrop
  try dsimp only
  repeat' first
    | with_reducible assumption
    | with_reducible exact Changes.refl _ _
    | with_reducible apply Changes.ite
    | with_reducible apply bookOverrun_changes
    | with_reducible apply record_changes
    | with_reducible apply setTether_changes
    | exact Part.sub_trans (by decide) hp
    | exact Part.mem hp (by decide)
    | (intro _; try dsimp only)
    | split

theorem toEgress_changes {P : List Part} {s₀ : State} (c : Egress) (s : State) (hp : Part.sub [.funcs, .books, .lanes, .tether] P = true)  (hc : Changes P s₀ s) : Changes P s₀ (toEgress c s).1 := by
  unfold toEgress
  try dsimp only
  repeat' first
    | with_reducible assumption
    | with_reducible exact Changes.refl _ _
    | with_reducible apply Changes.ite
    | with_reducible apply egressBusy_changes
    | with_reducible apply modLane_changes
    | with_reducible apply noLaneDrop_changes
    | with_reducible apply Changes.fst_ite
    | refine Changes.fst ‹_ = (_, _)› ?_
    | dsimp only
    | exact Part.sub_trans (by decide) hp
    | exact Part.mem hp (by decide)
    | (intro _; try dsimp only)
    | split

theorem handOn_changes {P : List Part} {s₀ : State} (c : Egress) (s : State) (hp : Part.sub [.funcs, .books, .lanes, .tether] P = true)  (hc : Changes P s₀ s) : Changes P s₀ (handOn c s) := by
  unfold handOn
  try dsimp only
  repeat' first
    | with_reducible assumption
    | with_reducible exact Changes.refl _ _
    | with_reducible apply Changes.ite
    | with_reducible apply modBook_changes
    | with_reducible apply toEgress_changes
    | with_reducible apply Changes.fst_ite
    | refine Changes.fst ‹_ = (_, _)› ?_
    | dsimp only
    | exact Part.sub_trans (by decide) hp
    | exact Part.mem hp (by decide)
    | (intro _; try dsimp only)
    | split

theorem laneLeaves_changes {P : List Part} {s₀ : State} (k : LaneId) (s : State) (hp : Part.sub [.funcs, .books, .lanes, .tether] P = true)  (hc : Changes P s₀ s) : Changes P s₀ (laneLeaves k s) := by
  unfold laneLeaves
  try dsimp only
  repeat' first
    | with_reducible assumption
    | with_reducible exact Changes.refl _ _
    | with_reducible apply Changes.ite
    | with_reducible apply forEach_changes
    | with_reducible apply handOn_changes
    | with_reducible apply modLane_changes
    | with_reducible apply replacePackets_changes
    | with_reducible apply setTether_changes
    | exact Part.sub_trans (by decide) hp
    | exact Part.mem hp (by decide)
    | (intro _; try dsimp only)
    | split

theorem unhitch_changes {P : List Part} {s₀ : State} (k : LaneId) (cause : BitVec 4) (code : Option Code) (retry : Bool) (s : State) (hp : Part.sub [.funcs, .irqs, .books, .lanes, .tether, .tc] P = true)  (hc : Changes P s₀ s) : Changes P s₀ (unhitch k cause code retry s) := by
  unfold unhitch
  try dsimp only
  repeat' first
    | with_reducible assumption
    | with_reducible exact Changes.refl _ _
    | with_reducible apply Changes.ite
    | with_reducible apply endRetrain_changes
    | with_reducible apply laneLeaves_changes
    | with_reducible apply modLane_changes
    | with_reducible apply raise_changes
    | with_reducible apply record_changes
    | with_reducible apply steerFollower_changes
    | exact Part.sub_trans (by decide) hp
    | exact Part.mem hp (by decide)
    | (intro _; try dsimp only)
    | split

theorem train_changes {P : List Part} {s₀ : State} (k : LaneId) (s : State) (hp : Part.sub [.funcs, .irqs, .lanes] P = true)  (hc : Changes P s₀ s) : Changes P s₀ (train k s) := by
  unfold train
  try dsimp only
  repeat' first
    | with_reducible assumption
    | with_reducible exact Changes.refl _ _
    | with_reducible apply Changes.ite
    | with_reducible apply modLane_changes
    | with_reducible apply raise_changes
    | exact Part.sub_trans (by decide) hp
    | exact Part.mem hp (by decide)
    | (intro _; try dsimp only)
    | split

theorem sendRequest_changes {P : List Part} {s₀ : State} (k : LaneId) (s : State) (hp : Part.sub [.lanes] P = true)  (hc : Changes P s₀ s) : Changes P s₀ (sendRequest k s) := by
  unfold sendRequest
  try dsimp only
  repeat' first
    | with_reducible assumption
    | with_reducible exact Changes.refl _ _
    | with_reducible apply Changes.ite
    | with_reducible apply modLane_changes
    | exact Part.sub_trans (by decide) hp
    | exact Part.mem hp (by decide)
    | (intro _; try dsimp only)
    | split

theorem showRetrain_changes {P : List Part} {s₀ : State} (k : LaneId) (s : State) (hp : Part.sub [.tether] P = true)  (hc : Changes P s₀ s) : Changes P s₀ (showRetrain k s) := by
  unfold showRetrain
  try dsimp only
  repeat' first
    | with_reducible assumption
    | with_reducible exact Changes.refl _ _
    | with_reducible apply Changes.ite
    | with_reducible apply setTether_changes
    | exact Part.sub_trans (by decide) hp
    | exact Part.mem hp (by decide)
    | (intro _; try dsimp only)
    | split

theorem modTx_changes {P : List Part} {s₀ : State} (k : LaneId) (f : Transmit → Transmit) (s : State) (hp : Part.sub [.lanes] P = true)  (hc : Changes P s₀ s) : Changes P s₀ (modTx k f s) := by
  unfold modTx
  try dsimp only
  repeat' first
    | with_reducible assumption
    | with_reducible exact Changes.refl _ _
    | with_reducible apply Changes.ite
    | with_reducible apply modLane_changes
    | exact Part.sub_trans (by decide) hp
    | exact Part.mem hp (by decide)
    | (intro _; try dsimp only)
    | split

theorem egressEntry_changes {P : List Part} {s₀ : State} (tok : Token) (s : State) (hp : Part.sub [.funcs, .nodes, .books, .hub, .lanes, .tether] P = true)  (hc : Changes P s₀ s) : Changes P s₀ (egressEntry tok s) := by
  unfold egressEntry
  try dsimp only
  repeat' first
    | with_reducible assumption
    | with_reducible exact Changes.refl _ _
    | with_reducible apply Changes.ite
    | with_reducible apply loopDrop_changes
    | with_reducible apply modBook_changes
    | with_reducible apply toEgress_changes
    | with_reducible apply Changes.fst_ite
    | refine Changes.fst ‹_ = (_, _)› ?_
    | dsimp only
    | exact Part.sub_trans (by decide) hp
    | exact Part.mem hp (by decide)
    | (intro _; try dsimp only)
    | split

theorem sendWords_changes {P : List Part} {s₀ : State} (q : QueueId) (s : State) (hp : Part.sub [.queues, .qdir, .tether] P = true)  (hc : Changes P s₀ s) : Changes P s₀ (sendWords q s) := by
  unfold sendWords
  try dsimp only
  repeat' first
    | with_reducible assumption
    | with_reducible exact Changes.refl _ _
    | with_reducible apply Changes.ite
    | with_reducible apply fixPages_changes
    | with_reducible apply modProd_changes
    | with_reducible apply modQueue_changes
    | with_reducible apply setTether_changes
    | with_reducible apply takeWords_changes
    | exact Part.sub_trans (by decide) hp
    | exact Part.mem hp (by decide)
    | (intro _; try dsimp only)
    | split

theorem sendCredits_changes {P : List Part} {s₀ : State} (q : QueueId) (s : State) (hp : Part.sub [.tether] P = true)  (hc : Changes P s₀ s) : Changes P s₀ (sendCredits q s) := by
  unfold sendCredits
  try dsimp only
  repeat' first
    | with_reducible assumption
    | with_reducible exact Changes.refl _ _
    | with_reducible apply Changes.ite
    | with_reducible apply setTether_changes
    | exact Part.sub_trans (by decide) hp
    | exact Part.mem hp (by decide)
    | (intro _; try dsimp only)
    | split

theorem tetherWork_changes {P : List Part} {s₀ : State} (s : State) (hp : Part.sub [.queues, .qdir, .tether] P = true)  (hc : Changes P s₀ s) : Changes P s₀ (tetherWork s) := by
  unfold tetherWork
  try dsimp only
  repeat' first
    | with_reducible assumption
    | with_reducible exact Changes.refl _ _
    | with_reducible apply Changes.ite
    | with_reducible apply forEach_changes
    | with_reducible apply sendCredits_changes
    | with_reducible apply sendWords_changes
    | exact Part.sub_trans (by decide) hp
    | exact Part.mem hp (by decide)
    | (intro _; try dsimp only)
    | split

theorem tickTrips_changes {P : List Part} {s₀ : State} (k : LaneId) (s : State) (hp : Part.sub [.lanes] P = true)  (hc : Changes P s₀ s) : Changes P s₀ (tickTrips k s) := by
  unfold tickTrips
  try dsimp only
  repeat' first
    | with_reducible assumption
    | with_reducible exact Changes.refl _ _
    | with_reducible apply Changes.ite
    | with_reducible apply sendRequest_changes
    | exact Part.sub_trans (by decide) hp
    | exact Part.mem hp (by decide)
    | (intro _; try dsimp only)
    | split

theorem sendEvent_changes {P : List Part} {s₀ : State} (k : LaneId) (s : State) (hp : Part.sub [.lanes] P = true)  (hc : Changes P s₀ s) : Changes P s₀ (sendEvent k s) := by
  unfold sendEvent
  try dsimp only
  repeat' first
    | with_reducible assumption
    | with_reducible exact Changes.refl _ _
    | with_reducible apply Changes.ite
    | with_reducible apply modLane_changes
    | exact Part.sub_trans (by decide) hp
    | exact Part.mem hp (by decide)
    | (intro _; try dsimp only)
    | split

theorem startMark_changes {P : List Part} {s₀ : State} (k : LaneId) (s : State) (hp : Part.sub [.lanes] P = true)  (hc : Changes P s₀ s) : Changes P s₀ (startMark k s) := by
  unfold startMark
  try dsimp only
  repeat' first
    | with_reducible assumption
    | with_reducible exact Changes.refl _ _
    | with_reducible apply Changes.ite
    | with_reducible apply modTx_changes
    | exact Part.sub_trans (by decide) hp
    | exact Part.mem hp (by decide)
    | (intro _; try dsimp only)
    | split

theorem startPacket_changes {P : List Part} {s₀ : State} (k : LaneId) (p : Packet) (s : State) (hp : Part.sub [.lanes, .tether] P = true)  (hc : Changes P s₀ s) : Changes P s₀ (startPacket k p s) := by
  unfold startPacket
  try dsimp only
  repeat' first
    | with_reducible assumption
    | with_reducible exact Changes.refl _ _
    | with_reducible apply Changes.ite
    | with_reducible apply modTx_changes
    | with_reducible apply setTether_changes
    | exact Part.sub_trans (by decide) hp
    | exact Part.mem hp (by decide)
    | (intro _; try dsimp only)
    | split

theorem hitchedUnit_changes {P : List Part} {s₀ : State} (k : LaneId) (s : State) (hp : Part.sub [.lanes, .tether] P = true)  (hc : Changes P s₀ s) : Changes P s₀ (hitchedUnit k s) := by
  unfold hitchedUnit
  try dsimp only
  repeat' first
    | with_reducible assumption
    | with_reducible exact Changes.refl _ _
    | with_reducible apply Changes.ite
    | with_reducible apply modTx_changes
    | with_reducible apply startMark_changes
    | with_reducible apply startPacket_changes
    | exact Part.sub_trans (by decide) hp
    | exact Part.mem hp (by decide)
    | (intro _; try dsimp only)
    | split

theorem startUnit_changes {P : List Part} {s₀ : State} (k : LaneId) (s : State) (hp : Part.sub [.lanes, .tether] P = true)  (hc : Changes P s₀ s) : Changes P s₀ (startUnit k s) := by
  unfold startUnit
  try dsimp only
  repeat' first
    | with_reducible assumption
    | with_reducible exact Changes.refl _ _
    | with_reducible apply Changes.ite
    | with_reducible apply hitchedUnit_changes
    | with_reducible apply modTx_changes
    | with_reducible apply startMark_changes
    | exact Part.sub_trans (by decide) hp
    | exact Part.mem hp (by decide)
    | (intro _; try dsimp only)
    | split

theorem sendSymbol_changes {P : List Part} {s₀ : State} (k : LaneId) (s : State) (hp : Part.sub [.lanes] P = true)  (hc : Changes P s₀ s) : Changes P s₀ (sendSymbol k s) := by
  unfold sendSymbol
  try dsimp only
  repeat' first
    | with_reducible assumption
    | with_reducible exact Changes.refl _ _
    | with_reducible apply Changes.ite
    | with_reducible apply modTx_changes
    | exact Part.sub_trans (by decide) hp
    | exact Part.mem hp (by decide)
    | (intro _; try dsimp only)
    | split

theorem tickLane_changes {P : List Part} {s₀ : State} (k : LaneId) (s : State) (hp : Part.sub [.lanes, .tether] P = true)  (hc : Changes P s₀ s) : Changes P s₀ (tickLane k s) := by
  unfold tickLane
  try dsimp only
  repeat' first
    | with_reducible assumption
    | with_reducible exact Changes.refl _ _
    | with_reducible apply Changes.ite
    | with_reducible apply modLane_changes
    | with_reducible apply modTx_changes
    | with_reducible apply sendEvent_changes
    | with_reducible apply sendSymbol_changes
    | with_reducible apply startUnit_changes
    | exact Part.sub_trans (by decide) hp
    | exact Part.mem hp (by decide)
    | (intro _; try dsimp only)
    | split

end Sys2Proof.Machine
end

