-- ==== Sys2Proof/Laws/ChangesRein.lean ====
section
/-!
SUPPORT. What each operation of Machine/Rein.lean may change.
-/

set_option linter.unusedTactic false
set_option linter.unreachableTactic false
set_option linter.style.longLine false
set_option linter.unusedVariables false
set_option maxRecDepth 8000

namespace Sys2Proof.Machine

open Sys2Proof

theorem execClearFlipFlops_changes {P : List Part} {s₀ : State} (f : Func) (n : StallId) (s : State) (hp : Part.sub [.funcs, .cells] P = true)  (hc : Changes P s₀ s) : ResChanges P s₀ (execClearFlipFlops f n s) := by
  unfold execClearFlipFlops
  try dsimp only
  repeat' first
    | with_reducible assumption
    | with_reducible exact Changes.refl _ _
    | with_reducible apply Changes.ite
    | with_reducible apply ResChanges.next
    | with_reducible exact ResChanges.fault _
    | with_reducible exact ResChanges.refused _
    | with_reducible apply ResChanges.ite
    | with_reducible apply clearFlipFlopsOf_changes
    | with_reducible apply hostWrite_changes
    | exact Part.sub_trans (by decide) hp
    | exact Part.mem hp (by decide)
    | (intro _; try dsimp only)
    | split

theorem execSetFlipFlop_changes {P : List Part} {s₀ : State} (f : Func) (n : StallId) (cell : Fin 256) (value : BitVec 2) (inv : Bool) (s : State) (hp : Part.sub [.funcs, .cells] P = true)  (hc : Changes P s₀ s) : ResChanges P s₀ (execSetFlipFlop f n cell value inv s) := by
  unfold execSetFlipFlop
  try dsimp only
  repeat' first
    | with_reducible assumption
    | with_reducible exact Changes.refl _ _
    | with_reducible apply Changes.ite
    | with_reducible apply ResChanges.next
    | with_reducible exact ResChanges.fault _
    | with_reducible exact ResChanges.refused _
    | with_reducible apply ResChanges.ite
    | with_reducible apply hostCheck_changes
    | with_reducible apply setFlipFlopOf_changes
    | exact Part.sub_trans (by decide) hp
    | exact Part.mem hp (by decide)
    | (intro _; try dsimp only)
    | split

theorem bkFilterWrite_changes {P : List Part} {s₀ : State} (f : Func) (id : CellId) (val : Word) (s : State) (hp : Part.sub [.funcs, .cells] P = true)  (hc : Changes P s₀ s) : Changes P s₀ (bkFilterWrite f id val s) := by
  unfold bkFilterWrite
  try dsimp only
  repeat' first
    | with_reducible assumption
    | with_reducible exact Changes.refl _ _
    | with_reducible apply Changes.ite
    | with_reducible apply hostWrite_changes
    | with_reducible apply modCell_changes
    | exact Part.sub_trans (by decide) hp
    | exact Part.mem hp (by decide)
    | (intro _; try dsimp only)
    | split

theorem execBkFilterWrite_changes {P : List Part} {s₀ : State} (f : Func) (cell : CellId) (val : Word) (s : State) (hp : Part.sub [.funcs, .cells] P = true)  (hc : Changes P s₀ s) : ResChanges P s₀ (execBkFilterWrite f cell val s) := by
  unfold execBkFilterWrite
  try dsimp only
  repeat' first
    | with_reducible assumption
    | with_reducible exact Changes.refl _ _
    | with_reducible apply Changes.ite
    | with_reducible apply ResChanges.next
    | with_reducible exact ResChanges.fault _
    | with_reducible exact ResChanges.refused _
    | with_reducible apply ResChanges.ite
    | with_reducible apply bkFilterWrite_changes
    | exact Part.sub_trans (by decide) hp
    | exact Part.mem hp (by decide)
    | (intro _; try dsimp only)
    | split

theorem execReinAuditCmd_changes {P : List Part} {s₀ : State} (f : Func) (chan : ReinChan) (s : State) (hp : Part.sub [.funcs, .hub] P = true)  (hc : Changes P s₀ s) : ResChanges P s₀ (execReinAuditCmd f chan s) := by
  unfold execReinAuditCmd
  try dsimp only
  repeat' first
    | with_reducible assumption
    | with_reducible exact Changes.refl _ _
    | with_reducible apply Changes.ite
    | with_reducible apply ResChanges.next
    | with_reducible exact ResChanges.fault _
    | with_reducible exact ResChanges.refused _
    | with_reducible apply ResChanges.ite
    | with_reducible apply setHub_changes
    | with_reducible apply spineCommand_changes
    | exact Part.sub_trans (by decide) hp
    | exact Part.mem hp (by decide)
    | (intro _; try dsimp only)
    | split

theorem reinInject_changes {P : List Part} {s₀ : State} (f : Func) (e : ReinChan) (value : BitVec 2) (inv : Bool) (g : Grant) (s : State) (hp : Part.sub [.funcs, .nodes, .books, .flights, .nextFlight, .hub] P = true)  (hc : Changes P s₀ s) : Changes P s₀ (reinInject f e value inv g s) := by
  unfold reinInject
  try dsimp only
  repeat' first
    | with_reducible assumption
    | with_reducible exact Changes.refl _ _
    | with_reducible apply Changes.ite
    | with_reducible apply countContend_changes
    | with_reducible apply hostCheck_changes
    | with_reducible apply hubIngress_changes
    | exact Part.sub_trans (by decide) hp
    | exact Part.mem hp (by decide)
    | (intro _; try dsimp only)
    | split

theorem execReinInject_changes {P : List Part} {s₀ : State} (f : Func) (chan : ReinChan) (value : BitVec 2) (inv : Bool) (grant : Grant) (s : State) (hp : Part.sub [.funcs, .nodes, .books, .flights, .nextFlight, .hub] P = true)  (hc : Changes P s₀ s) : ResChanges P s₀ (execReinInject f chan value inv grant s) := by
  unfold execReinInject
  try dsimp only
  repeat' first
    | with_reducible assumption
    | with_reducible exact Changes.refl _ _
    | with_reducible apply Changes.ite
    | with_reducible apply ResChanges.next
    | with_reducible exact ResChanges.fault _
    | with_reducible exact ResChanges.refused _
    | with_reducible apply ResChanges.ite
    | with_reducible apply reinInject_changes
    | exact Part.sub_trans (by decide) hp
    | exact Part.mem hp (by decide)
    | (intro _; try dsimp only)
    | split

theorem hubOp_changes {P : List Part} {s₀ : State} (g : OpStatus → OpStatus) (s : State) (hp : Part.sub [.hub] P = true)  (hc : Changes P s₀ s) : Changes P s₀ (hubOp g s) := by
  unfold hubOp
  try dsimp only
  repeat' first
    | with_reducible assumption
    | with_reducible exact Changes.refl _ _
    | with_reducible apply Changes.ite
    | with_reducible apply setHub_changes
    | exact Part.sub_trans (by decide) hp
    | exact Part.mem hp (by decide)
    | (intro _; try dsimp only)
    | split

theorem endHubOp_changes {P : List Part} {s₀ : State} (op : OpStatus) (s : State) (hp : Part.sub [.funcs, .irqs, .hub] P = true)  (hc : Changes P s₀ s) : Changes P s₀ (endHubOp op s) := by
  unfold endHubOp
  try dsimp only
  repeat' first
    | with_reducible assumption
    | with_reducible exact Changes.refl _ _
    | with_reducible apply Changes.ite
    | with_reducible apply raise_changes
    | with_reducible apply setHub_changes
    | exact Part.sub_trans (by decide) hp
    | exact Part.mem hp (by decide)
    | (intro _; try dsimp only)
    | split

theorem modPlane_changes {P : List Part} {s₀ : State} (b : Bool) (f : HubPlane → HubPlane) (s : State) (hp : Part.sub [.hub] P = true)  (hc : Changes P s₀ s) : Changes P s₀ (modPlane b f s) := by
  unfold modPlane
  try dsimp only
  repeat' first
    | with_reducible assumption
    | with_reducible exact Changes.refl _ _
    | with_reducible apply Changes.ite
    | with_reducible apply setHub_changes
    | exact Part.sub_trans (by decide) hp
    | exact Part.mem hp (by decide)
    | (intro _; try dsimp only)
    | split

theorem writePlane_changes {P : List Part} {s₀ : State} (b : Bool) (keep : Bool) (s : State) (hp : Part.sub [.cells] P = true)  (hc : Changes P s₀ s) : Changes P s₀ (writePlane b keep s) := by
  unfold writePlane
  try dsimp only
  repeat' first
    | with_reducible assumption
    | with_reducible exact Changes.refl _ _
    | with_reducible apply Changes.ite
    | with_reducible apply Changes.set_cells
    | exact Part.sub_trans (by decide) hp
    | exact Part.mem hp (by decide)
    | (intro _; try dsimp only)
    | split

theorem startReturn_changes {P : List Part} {s₀ : State} (b : Bool) (s : State) (hp : Part.sub [.funcs, .irqs, .cells, .hub] P = true)  (hc : Changes P s₀ s) : Changes P s₀ (startReturn b s) := by
  unfold startReturn
  try dsimp only
  repeat' first
    | with_reducible assumption
    | with_reducible exact Changes.refl _ _
    | with_reducible apply Changes.ite
    | with_reducible apply endHubOp_changes
    | with_reducible apply modPlane_changes
    | with_reducible apply setHub_changes
    | with_reducible apply writePlane_changes
    | exact Part.sub_trans (by decide) hp
    | exact Part.mem hp (by decide)
    | (intro _; try dsimp only)
    | split

theorem execReturn_changes {P : List Part} {s₀ : State} (f : Func) (planeB : Bool) (s : State) (hp : Part.sub [.funcs, .irqs, .cells, .hub] P = true)  (hc : Changes P s₀ s) : ResChanges P s₀ (execReturn f planeB s) := by
  unfold execReturn
  try dsimp only
  repeat' first
    | with_reducible assumption
    | with_reducible exact Changes.refl _ _
    | with_reducible apply Changes.ite
    | with_reducible apply ResChanges.next
    | with_reducible exact ResChanges.fault _
    | with_reducible exact ResChanges.refused _
    | with_reducible apply ResChanges.ite
    | with_reducible apply hubOp_changes
    | with_reducible apply spineCommand_changes
    | with_reducible apply startReturn_changes
    | exact Part.sub_trans (by decide) hp
    | exact Part.mem hp (by decide)
    | (intro _; try dsimp only)
    | split

theorem startTakeOut_changes {P : List Part} {s₀ : State} (b : Bool) (s : State) (hp : Part.sub [.funcs, .irqs, .hub] P = true)  (hc : Changes P s₀ s) : Changes P s₀ (startTakeOut b s) := by
  unfold startTakeOut
  try dsimp only
  repeat' first
    | with_reducible assumption
    | with_reducible exact Changes.refl _ _
    | with_reducible apply Changes.ite
    | with_reducible apply endHubOp_changes
    | with_reducible apply setHub_changes
    | exact Part.sub_trans (by decide) hp
    | exact Part.mem hp (by decide)
    | (intro _; try dsimp only)
    | split

theorem execTakeOut_changes {P : List Part} {s₀ : State} (f : Func) (planeB : Bool) (s : State) (hp : Part.sub [.funcs, .irqs, .hub] P = true)  (hc : Changes P s₀ s) : ResChanges P s₀ (execTakeOut f planeB s) := by
  unfold execTakeOut
  try dsimp only
  repeat' first
    | with_reducible assumption
    | with_reducible exact Changes.refl _ _
    | with_reducible apply Changes.ite
    | with_reducible apply ResChanges.next
    | with_reducible exact ResChanges.fault _
    | with_reducible exact ResChanges.refused _
    | with_reducible apply ResChanges.ite
    | with_reducible apply hubOp_changes
    | with_reducible apply spineCommand_changes
    | with_reducible apply startTakeOut_changes
    | exact Part.sub_trans (by decide) hp
    | exact Part.mem hp (by decide)
    | (intro _; try dsimp only)
    | split

theorem releaseKept_changes {P : List Part} {s₀ : State} (e : ReinChan) (s : State) (hp : Part.sub [.funcs, .books, .flights, .nextFlight, .hub] P = true)  (hc : Changes P s₀ s) : Changes P s₀ (releaseKept e s) := by
  unfold releaseKept
  try dsimp only
  repeat' first
    | with_reducible assumption
    | with_reducible exact Changes.refl _ _
    | with_reducible apply Changes.ite
    | with_reducible apply enterFabric_changes
    | with_reducible apply forEach_changes
    | with_reducible apply modBook_changes
    | exact Part.sub_trans (by decide) hp
    | exact Part.mem hp (by decide)
    | (intro _; try dsimp only)
    | split

theorem auditSettle_changes {P : List Part} {s₀ : State} (s : State) (hp : Part.sub [.funcs, .irqs, .books, .flights, .nextFlight, .hub] P = true)  (hc : Changes P s₀ s) : Changes P s₀ (auditSettle s) := by
  unfold auditSettle
  try dsimp only
  repeat' first
    | with_reducible assumption
    | with_reducible exact Changes.refl _ _
    | with_reducible apply Changes.ite
    | with_reducible apply raise_changes
    | with_reducible apply record_changes
    | with_reducible apply releaseKept_changes
    | with_reducible apply setHub_changes
    | exact Part.sub_trans (by decide) hp
    | exact Part.mem hp (by decide)
    | (intro _; try dsimp only)
    | split

theorem execChannelAuditSettlePoint_changes {P : List Part} {s₀ : State} (s : State) (hp : Part.sub [.funcs, .irqs, .books, .flights, .nextFlight, .hub] P = true)  (hc : Changes P s₀ s) : ResChanges P s₀ (execChannelAuditSettlePoint s) := by
  unfold execChannelAuditSettlePoint
  try dsimp only
  repeat' first
    | with_reducible assumption
    | with_reducible exact Changes.refl _ _
    | with_reducible apply Changes.ite
    | with_reducible apply ResChanges.next
    | with_reducible exact ResChanges.fault _
    | with_reducible exact ResChanges.refused _
    | with_reducible apply ResChanges.ite
    | with_reducible apply auditSettle_changes
    | exact Part.sub_trans (by decide) hp
    | exact Part.mem hp (by decide)
    | (intro _; try dsimp only)
    | split

theorem copyFlipFlops_changes {P : List Part} {s₀ : State} (b : Bool) (s : State) (hp : Part.sub [.cells] P = true)  (hc : Changes P s₀ s) : Changes P s₀ (copyFlipFlops b s) := by
  unfold copyFlipFlops
  try dsimp only
  repeat' first
    | with_reducible assumption
    | with_reducible exact Changes.refl _ _
    | with_reducible apply Changes.ite
    | with_reducible apply forEach_changes
    | with_reducible apply modCell_changes
    | exact Part.sub_trans (by decide) hp
    | exact Part.mem hp (by decide)
    | (intro _; try dsimp only)
    | split

theorem servePlane_changes {P : List Part} {s₀ : State} (b : Bool) (s : State) (hp : Part.sub [.hub] P = true)  (hc : Changes P s₀ s) : Changes P s₀ (servePlane b s) := by
  unfold servePlane
  try dsimp only
  repeat' first
    | with_reducible assumption
    | with_reducible exact Changes.refl _ _
    | with_reducible apply Changes.ite
    | with_reducible apply modPlane_changes
    | exact Part.sub_trans (by decide) hp
    | exact Part.mem hp (by decide)
    | (intro _; try dsimp only)
    | split

theorem settleAction_changes {P : List Part} {s₀ : State} (a : HubAction) (s : State) (hp : Part.sub [.funcs, .irqs, .tack, .hubImage, .cells, .hub] P = true)  (hc : Changes P s₀ s) : Changes P s₀ (settleAction a s) := by
  unfold settleAction
  try dsimp only
  repeat' first
    | with_reducible assumption
    | with_reducible exact Changes.refl _ _
    | with_reducible apply Changes.ite
    | with_reducible apply copyFlipFlops_changes
    | with_reducible apply endHubOp_changes
    | with_reducible apply modPlane_changes
    | with_reducible apply record_changes
    | with_reducible apply servePlane_changes
    | with_reducible apply setHubImage_changes
    | with_reducible apply setTack_changes
    | with_reducible apply writePlane_changes
    | exact Part.sub_trans (by decide) hp
    | exact Part.mem hp (by decide)
    | (intro _; try dsimp only)
    | split

theorem settleFilters_changes {P : List Part} {s₀ : State} (s : State) (hp : Part.sub [.cells] P = true)  (hc : Changes P s₀ s) : Changes P s₀ (settleFilters s) := by
  unfold settleFilters
  try dsimp only
  repeat' first
    | with_reducible assumption
    | with_reducible exact Changes.refl _ _
    | with_reducible apply Changes.ite
    | with_reducible apply forEach_changes
    | with_reducible apply modCell_changes
    | exact Part.sub_trans (by decide) hp
    | exact Part.mem hp (by decide)
    | (intro _; try dsimp only)
    | split

theorem hubSettle_changes {P : List Part} {s₀ : State} (s : State) (hp : Part.sub [.funcs, .irqs, .tack, .hubImage, .cells, .hub] P = true)  (hc : Changes P s₀ s) : Changes P s₀ (hubSettle s) := by
  unfold hubSettle
  try dsimp only
  repeat' first
    | with_reducible assumption
    | with_reducible exact Changes.refl _ _
    | with_reducible apply Changes.ite
    | with_reducible apply forEach_changes
    | with_reducible apply setHub_changes
    | with_reducible apply settleAction_changes
    | with_reducible apply settleFilters_changes
    | exact Part.sub_trans (by decide) hp
    | exact Part.mem hp (by decide)
    | (intro _; try dsimp only)
    | split

theorem execHubSettlePoint_changes {P : List Part} {s₀ : State} (s : State) (hp : Part.sub [.funcs, .irqs, .tack, .hubImage, .cells, .hub] P = true)  (hc : Changes P s₀ s) : ResChanges P s₀ (execHubSettlePoint s) := by
  unfold execHubSettlePoint
  try dsimp only
  repeat' first
    | with_reducible assumption
    | with_reducible exact Changes.refl _ _
    | with_reducible apply Changes.ite
    | with_reducible apply ResChanges.next
    | with_reducible exact ResChanges.fault _
    | with_reducible exact ResChanges.refused _
    | with_reducible apply ResChanges.ite
    | with_reducible apply hubSettle_changes
    | exact Part.sub_trans (by decide) hp
    | exact Part.mem hp (by decide)
    | (intro _; try dsimp only)
    | split

theorem readBack_changes {P : List Part} {s₀ : State} (good : Bool) (s : State) (hp : Part.sub [.funcs, .irqs, .hub] P = true)  (hc : Changes P s₀ s) : Changes P s₀ (readBack good s) := by
  unfold readBack
  try dsimp only
  repeat' first
    | with_reducible assumption
    | with_reducible exact Changes.refl _ _
    | with_reducible apply Changes.ite
    | with_reducible apply endHubOp_changes
    | with_reducible apply modPlane_changes
    | with_reducible apply record_changes
    | with_reducible apply setHub_changes
    | exact Part.sub_trans (by decide) hp
    | exact Part.mem hp (by decide)
    | (intro _; try dsimp only)
    | split

theorem execRejoinReadbackDone_changes {P : List Part} {s₀ : State} (good : Bool) (s : State) (hp : Part.sub [.funcs, .irqs, .hub] P = true)  (hc : Changes P s₀ s) : ResChanges P s₀ (execRejoinReadbackDone good s) := by
  unfold execRejoinReadbackDone
  try dsimp only
  repeat' first
    | with_reducible assumption
    | with_reducible exact Changes.refl _ _
    | with_reducible apply Changes.ite
    | with_reducible apply ResChanges.next
    | with_reducible exact ResChanges.fault _
    | with_reducible exact ResChanges.refused _
    | with_reducible apply ResChanges.ite
    | with_reducible apply readBack_changes
    | exact Part.sub_trans (by decide) hp
    | exact Part.mem hp (by decide)
    | (intro _; try dsimp only)
    | split

theorem leaveHub_changes {P : List Part} {s₀ : State} (i : Nat) (f : Flight) (t : Token) (s : State) (hp : Part.sub [.flights] P = true)  (hc : Changes P s₀ s) : Changes P s₀ (leaveHub i f t s) := by
  unfold leaveHub
  try dsimp only
  repeat' first
    | with_reducible assumption
    | with_reducible exact Changes.refl _ _
    | with_reducible apply Changes.ite
    | with_reducible apply putFlight_changes
    | exact Part.sub_trans (by decide) hp
    | exact Part.mem hp (by decide)
    | (intro _; try dsimp only)
    | split

theorem losePlaneCopies_changes {P : List Part} {s₀ : State} (b : Bool) (s : State) (hp : Part.sub [.funcs, .books, .flights, .hub] P = true)  (hc : Changes P s₀ s) : Changes P s₀ (losePlaneCopies b s) := by
  unfold losePlaneCopies
  try dsimp only
  repeat' first
    | with_reducible assumption
    | with_reducible exact Changes.refl _ _
    | with_reducible apply Changes.ite
    | with_reducible apply dropFlight_changes
    | with_reducible apply forEach_changes
    | with_reducible apply leaveHub_changes
    | with_reducible apply noRouteDrop_changes
    | with_reducible apply putFlight_changes
    | exact Part.sub_trans (by decide) hp
    | exact Part.mem hp (by decide)
    | (intro _; try dsimp only)
    | split

theorem planeFails_changes {P : List Part} {s₀ : State} (b : Bool) (cause : BitVec 4) (s : State) (hp : Part.sub [.funcs, .books, .flights, .hub] P = true)  (hc : Changes P s₀ s) : Changes P s₀ (planeFails b cause s) := by
  unfold planeFails
  try dsimp only
  repeat' first
    | with_reducible assumption
    | with_reducible exact Changes.refl _ _
    | with_reducible apply Changes.ite
    | with_reducible apply losePlaneCopies_changes
    | with_reducible apply modPlane_changes
    | with_reducible apply record_changes
    | exact Part.sub_trans (by decide) hp
    | exact Part.mem hp (by decide)
    | (intro _; try dsimp only)
    | split

theorem nodeFault_changes {P : List Part} {s₀ : State} (n : StallId) (cause : BitVec 4) (code : Code) (e : Option ReinChan) (c : Option (BitVec 8)) (s : State) (hp : Part.sub [.funcs, .irqs, .stalls, .slices, .voices, .seqs, .chans, .nodes, .books, .flights, .nextFlight, .hub, .riders, .fasts, .queues, .farriers, .feeds, .freeCtr] P = true)  (hc : Changes P s₀ s) : Changes P s₀ (nodeFault n cause code e c s) := by
  unfold nodeFault
  try dsimp only
  repeat' first
    | with_reducible assumption
    | with_reducible exact Changes.refl _ _
    | with_reducible apply Changes.ite
    | with_reducible apply captureFault_changes
    | with_reducible apply dropNode_changes
    | with_reducible apply fatalStall_changes
    | with_reducible apply modNode_changes
    | with_reducible apply record_changes
    | exact Part.sub_trans (by decide) hp
    | exact Part.mem hp (by decide)
    | (intro _; try dsimp only)
    | split

theorem recordSingles_changes {P : List Part} {s₀ : State} (stall : Nat) (x1 : Nat) (x2 : State) (hp : Part.sub [.funcs] P = true)  (hc : Changes P s₀ x2) : Changes P s₀ (recordSingles stall x1 x2) := by
  induction x1 generalizing x2 with
  | zero => exact hc
  | succ k ih => exact ih _ (record_changes _ _ _ _ _ _ (Part.sub_trans (by decide) hp) hc)

theorem scrubPass_changes {P : List Part} {s₀ : State} (p : FabricPlace) (singles : Nat) (double : Option (Fin 1024)) (s : State) (hp : Part.sub [.funcs, .irqs, .stalls, .slices, .voices, .seqs, .chans, .nodes, .cells, .books, .flights, .nextFlight, .hub, .riders, .fasts, .queues, .farriers, .feeds, .freeCtr] P = true)  (hc : Changes P s₀ s) : Changes P s₀ (scrubPass p singles double s) := by
  unfold scrubPass
  try dsimp only
  repeat' first
    | with_reducible assumption
    | with_reducible exact Changes.refl _ _
    | with_reducible apply Changes.ite
    | with_reducible apply modCell_changes
    | with_reducible apply modNode_changes
    | with_reducible apply modPlane_changes
    | with_reducible apply nodeFault_changes
    | with_reducible apply planeFails_changes
    | with_reducible apply recordSingles_changes
    | with_reducible apply setHub_changes
    | exact Part.sub_trans (by decide) hp
    | exact Part.mem hp (by decide)
    | (intro _; try dsimp only)
    | split

theorem execScrubPass_changes {P : List Part} {s₀ : State} (place : FabricPlace) (singles : Nat) (double : Option (Fin 1024)) (s : State) (hp : Part.sub [.funcs, .irqs, .stalls, .slices, .voices, .seqs, .chans, .nodes, .cells, .books, .flights, .nextFlight, .hub, .riders, .fasts, .queues, .farriers, .feeds, .freeCtr] P = true)  (hc : Changes P s₀ s) : ResChanges P s₀ (execScrubPass place singles double s) := by
  unfold execScrubPass
  try dsimp only
  repeat' first
    | with_reducible assumption
    | with_reducible exact Changes.refl _ _
    | with_reducible apply Changes.ite
    | with_reducible apply ResChanges.next
    | with_reducible exact ResChanges.fault _
    | with_reducible exact ResChanges.refused _
    | with_reducible apply ResChanges.ite
    | with_reducible apply scrubPass_changes
    | exact Part.sub_trans (by decide) hp
    | exact Part.mem hp (by decide)
    | (intro _; try dsimp only)
    | split

theorem fabricFault_changes {P : List Part} {s₀ : State} (p : FabricPlace) (cause : BitVec 4) (e : Option ReinChan) (c : Option (Fin 1024)) (s : State) (hp : Part.sub [.funcs, .irqs, .stalls, .slices, .voices, .seqs, .chans, .nodes, .books, .flights, .nextFlight, .hub, .riders, .fasts, .queues, .farriers, .feeds, .freeCtr] P = true)  (hc : Changes P s₀ s) : Changes P s₀ (fabricFault p cause e c s) := by
  unfold fabricFault
  try dsimp only
  repeat' first
    | with_reducible assumption
    | with_reducible exact Changes.refl _ _
    | with_reducible apply Changes.ite
    | with_reducible apply nodeFault_changes
    | with_reducible apply planeFails_changes
    | exact Part.sub_trans (by decide) hp
    | exact Part.mem hp (by decide)
    | (intro _; try dsimp only)
    | split

theorem execFabricFault_changes {P : List Part} {s₀ : State} (place : FabricPlace) (cause : BitVec 4) (chan : Option ReinChan) (cell : Option (Fin 1024)) (s : State) (hp : Part.sub [.funcs, .irqs, .stalls, .slices, .voices, .seqs, .chans, .nodes, .books, .flights, .nextFlight, .hub, .riders, .fasts, .queues, .farriers, .feeds, .freeCtr] P = true)  (hc : Changes P s₀ s) : ResChanges P s₀ (execFabricFault place cause chan cell s) := by
  unfold execFabricFault
  try dsimp only
  repeat' first
    | with_reducible assumption
    | with_reducible exact Changes.refl _ _
    | with_reducible apply Changes.ite
    | with_reducible apply ResChanges.next
    | with_reducible exact ResChanges.fault _
    | with_reducible exact ResChanges.refused _
    | with_reducible apply ResChanges.ite
    | with_reducible apply fabricFault_changes
    | exact Part.sub_trans (by decide) hp
    | exact Part.mem hp (by decide)
    | (intro _; try dsimp only)
    | split

theorem endFilter_changes {P : List Part} {s₀ : State} (id : CellId) (s : State) (hp : Part.sub [.funcs, .nodes, .cells] P = true)  (hc : Changes P s₀ s) : Changes P s₀ (endFilter id s).1 := by
  unfold endFilter
  try dsimp only
  repeat' first
    | with_reducible assumption
    | with_reducible exact Changes.refl _ _
    | with_reducible apply Changes.ite
    | with_reducible apply cellIssue_changes
    | with_reducible apply modCell_changes
    | with_reducible apply Changes.fst_ite
    | refine Changes.fst ‹_ = (_, _)› ?_
    | dsimp only
    | exact Part.sub_trans (by decide) hp
    | exact Part.mem hp (by decide)
    | (intro _; try dsimp only)
    | split

theorem execFilterWidthExpiry_changes {P : List Part} {s₀ : State} (cell : CellId) (s : State) (hp : Part.sub [.funcs, .nodes, .cells, .books, .flights, .nextFlight, .hub] P = true)  (hc : Changes P s₀ s) : ResChanges P s₀ (execFilterWidthExpiry cell s) := by
  unfold execFilterWidthExpiry
  try dsimp only
  repeat' first
    | with_reducible assumption
    | with_reducible exact Changes.refl _ _
    | with_reducible apply Changes.ite
    | with_reducible apply ResChanges.next
    | with_reducible exact ResChanges.fault _
    | with_reducible exact ResChanges.refused _
    | with_reducible apply ResChanges.ite
    | with_reducible apply endFilter_changes
    | with_reducible apply runCell_changes
    | with_reducible apply Changes.fst_ite
    | refine Changes.fst ‹_ = (_, _)› ?_
    | dsimp only
    | exact Part.sub_trans (by decide) hp
    | exact Part.mem hp (by decide)
    | (intro _; try dsimp only)
    | split

theorem expireJoin_changes {P : List Part} {s₀ : State} (id : CellId) (s : State) (hp : Part.sub [.funcs, .nodes, .cells] P = true)  (hc : Changes P s₀ s) : Changes P s₀ (expireJoin id s).1 := by
  unfold expireJoin
  try dsimp only
  repeat' first
    | with_reducible assumption
    | with_reducible exact Changes.refl _ _
    | with_reducible apply Changes.ite
    | with_reducible apply evalCell_changes
    | with_reducible apply modCell_changes
    | with_reducible apply record_changes
    | with_reducible apply Changes.fst_ite
    | refine Changes.fst ‹_ = (_, _)› ?_
    | dsimp only
    | exact Part.sub_trans (by decide) hp
    | exact Part.mem hp (by decide)
    | (intro _; try dsimp only)
    | split

theorem execJoinWindowExpiry_changes {P : List Part} {s₀ : State} (cell : CellId) (s : State) (hp : Part.sub [.funcs, .nodes, .cells, .books, .flights, .nextFlight, .hub] P = true)  (hc : Changes P s₀ s) : ResChanges P s₀ (execJoinWindowExpiry cell s) := by
  unfold execJoinWindowExpiry
  try dsimp only
  repeat' first
    | with_reducible assumption
    | with_reducible exact Changes.refl _ _
    | with_reducible apply Changes.ite
    | with_reducible apply ResChanges.next
    | with_reducible exact ResChanges.fault _
    | with_reducible exact ResChanges.refused _
    | with_reducible apply ResChanges.ite
    | with_reducible apply expireJoin_changes
    | with_reducible apply runCell_changes
    | with_reducible apply Changes.fst_ite
    | refine Changes.fst ‹_ = (_, _)› ?_
    | dsimp only
    | exact Part.sub_trans (by decide) hp
    | exact Part.mem hp (by decide)
    | (intro _; try dsimp only)
    | split

theorem execCellEvaluation_changes {P : List Part} {s₀ : State} (cell : CellId) (s : State) (hp : Part.sub [.funcs, .nodes, .cells, .books, .flights, .nextFlight, .hub] P = true)  (hc : Changes P s₀ s) : ResChanges P s₀ (execCellEvaluation cell s) := by
  unfold execCellEvaluation
  try dsimp only
  repeat' first
    | with_reducible assumption
    | with_reducible exact Changes.refl _ _
    | with_reducible apply Changes.ite
    | with_reducible apply ResChanges.next
    | with_reducible exact ResChanges.fault _
    | with_reducible exact ResChanges.refused _
    | with_reducible apply ResChanges.ite
    | with_reducible apply evalCell_changes
    | with_reducible apply runCell_changes
    | with_reducible apply Changes.fst_ite
    | refine Changes.fst ‹_ = (_, _)› ?_
    | dsimp only
    | exact Part.sub_trans (by decide) hp
    | exact Part.mem hp (by decide)
    | (intro _; try dsimp only)
    | split

theorem ownerDropAt_changes {P : List Part} {s₀ : State} (d : Consumer) (e : ReinChan) (s : State) (hp : Part.sub [.funcs, .nodes, .books] P = true)  (hc : Changes P s₀ s) : Changes P s₀ (ownerDropAt d e s) := by
  unfold ownerDropAt
  try dsimp only
  repeat' first
    | with_reducible assumption
    | with_reducible exact Changes.refl _ _
    | with_reducible apply Changes.ite
    | with_reducible apply bookOverrun_changes
    | with_reducible apply captureFault_changes
    | with_reducible apply modNode_changes
    | with_reducible apply record_changes
    | exact Part.sub_trans (by decide) hp
    | exact Part.mem hp (by decide)
    | (intro _; try dsimp only)
    | split

theorem bookEntry_changes {P : List Part} {s₀ : State} (e : ReinChan) (overran : Bool) (s : State) (hp : Part.sub [.books] P = true)  (hc : Changes P s₀ s) : Changes P s₀ (bookEntry e overran s) := by
  unfold bookEntry
  try dsimp only
  repeat' first
    | with_reducible assumption
    | with_reducible exact Changes.refl _ _
    | with_reducible apply Changes.ite
    | with_reducible apply bookOverrun_changes
    | with_reducible apply modBook_changes
    | exact Part.sub_trans (by decide) hp
    | exact Part.mem hp (by decide)
    | (intro _; try dsimp only)
    | split

theorem toCell_changes {P : List Part} {s₀ : State} (id : CellId) (k : Fin 6) (f : Flight) (s : State) (hp : Part.sub [.funcs, .nodes, .cells, .books] P = true)  (hc : Changes P s₀ s) : Changes P s₀ (toCell id k f s) := by
  unfold toCell
  try dsimp only
  repeat' first
    | with_reducible assumption
    | with_reducible exact Changes.refl _ _
    | with_reducible apply Changes.ite
    | with_reducible apply bookEntry_changes
    | with_reducible apply feedInput_changes
    | with_reducible apply Changes.fst_ite
    | refine Changes.fst ‹_ = (_, _)› ?_
    | dsimp only
    | exact Part.sub_trans (by decide) hp
    | exact Part.mem hp (by decide)
    | (intro _; try dsimp only)
    | split

theorem toTaskInput_changes {P : List Part} {s₀ : State} (r : RiderId) (k : Fin 4) (f : Flight) (s : State) (hp : Part.sub [.funcs, .irqs, .stalls, .seqs, .chans, .nodes, .books, .riders, .queues, .feeds] P = true)  (hc : Changes P s₀ s) : Changes P s₀ (toTaskInput r k f s) := by
  unfold toTaskInput
  try dsimp only
  repeat' first
    | with_reducible assumption
    | with_reducible exact Changes.refl _ _
    | with_reducible apply Changes.ite
    | with_reducible apply bookEntry_changes
    | with_reducible apply countBusy_changes
    | with_reducible apply enterTaskInput_changes
    | with_reducible apply record_changes
    | with_reducible apply Changes.fst_ite
    | refine Changes.fst ‹_ = (_, _)› ?_
    | dsimp only
    | exact Part.sub_trans (by decide) hp
    | exact Part.mem hp (by decide)
    | (intro _; try dsimp only)
    | split

theorem enterConsumer_changes {P : List Part} {s₀ : State} (f : Flight) (s : State) (hp : Part.sub [.funcs, .irqs, .stalls, .seqs, .chans, .units, .nodes, .cells, .books, .hub, .riders, .queues, .lanes, .tether, .watches, .feeds, .tally] P = true)  (hc : Changes P s₀ s) : Changes P s₀ (enterConsumer f s) := by
  unfold enterConsumer
  try dsimp only
  repeat' first
    | with_reducible assumption
    | with_reducible exact Changes.refl _ _
    | with_reducible apply Changes.ite
    | with_reducible apply bookEntry_changes
    | with_reducible apply egressEntry_changes
    | with_reducible apply modWatch_changes
    | with_reducible apply sealToken_changes
    | with_reducible apply toCell_changes
    | with_reducible apply toTaskInput_changes
    | with_reducible apply tokenTrigger_changes
    | exact Part.sub_trans (by decide) hp
    | exact Part.mem hp (by decide)
    | (intro _; try dsimp only)
    | split

theorem deliverCopy_changes {P : List Part} {s₀ : State} (i : Nat) (waits : Nat) (s : State) (hp : Part.sub [.funcs, .irqs, .stalls, .seqs, .chans, .units, .nodes, .cells, .books, .flights, .hub, .riders, .queues, .lanes, .tether, .watches, .feeds, .tally] P = true)  (hc : Changes P s₀ s) : Changes P s₀ (deliverCopy i waits s) := by
  unfold deliverCopy
  try dsimp only
  repeat' first
    | with_reducible assumption
    | with_reducible exact Changes.refl _ _
    | with_reducible apply Changes.ite
    | with_reducible apply countContend_changes
    | with_reducible apply dropFlight_changes
    | with_reducible apply enterConsumer_changes
    | with_reducible apply notRidingDrop_changes
    | with_reducible apply ownerDropAt_changes
    | exact Part.sub_trans (by decide) hp
    | exact Part.mem hp (by decide)
    | (intro _; try dsimp only)
    | split

theorem execConsumerDelivery_changes {P : List Part} {s₀ : State} (copy : Nat) (waits : Nat) (s : State) (hp : Part.sub [.funcs, .irqs, .stalls, .seqs, .chans, .units, .nodes, .cells, .books, .flights, .hub, .riders, .queues, .lanes, .tether, .watches, .feeds, .tally] P = true)  (hc : Changes P s₀ s) : ResChanges P s₀ (execConsumerDelivery copy waits s) := by
  unfold execConsumerDelivery
  try dsimp only
  repeat' first
    | with_reducible assumption
    | with_reducible exact Changes.refl _ _
    | with_reducible apply Changes.ite
    | with_reducible apply ResChanges.next
    | with_reducible exact ResChanges.fault _
    | with_reducible exact ResChanges.refused _
    | with_reducible apply ResChanges.ite
    | with_reducible apply deliverCopy_changes
    | exact Part.sub_trans (by decide) hp
    | exact Part.mem hp (by decide)
    | (intro _; try dsimp only)
    | split

theorem missingCopy_changes {P : List Part} {s₀ : State} (i : Nat) (s : State) (hp : Part.sub [.funcs, .books, .flights, .hub] P = true)  (hc : Changes P s₀ s) : Changes P s₀ (missingCopy i s) := by
  unfold missingCopy
  try dsimp only
  repeat' first
    | with_reducible assumption
    | with_reducible exact Changes.refl _ _
    | with_reducible apply Changes.ite
    | with_reducible apply leaveHub_changes
    | with_reducible apply modPlane_changes
    | with_reducible apply planeFails_changes
    | exact Part.sub_trans (by decide) hp
    | exact Part.mem hp (by decide)
    | (intro _; try dsimp only)
    | split

theorem execMissingCopyTimeout_changes {P : List Part} {s₀ : State} (copy : Nat) (s : State) (hp : Part.sub [.funcs, .books, .flights, .hub] P = true)  (hc : Changes P s₀ s) : ResChanges P s₀ (execMissingCopyTimeout copy s) := by
  unfold execMissingCopyTimeout
  try dsimp only
  repeat' first
    | with_reducible assumption
    | with_reducible exact Changes.refl _ _
    | with_reducible apply Changes.ite
    | with_reducible apply ResChanges.next
    | with_reducible exact ResChanges.fault _
    | with_reducible exact ResChanges.refused _
    | with_reducible apply ResChanges.ite
    | with_reducible apply missingCopy_changes
    | exact Part.sub_trans (by decide) hp
    | exact Part.mem hp (by decide)
    | (intro _; try dsimp only)
    | split

theorem mismatchDrop_changes {P : List Part} {s₀ : State} (i : Nat) (f : Flight) (s : State) (hp : Part.sub [.funcs, .books, .flights, .hub] P = true)  (hc : Changes P s₀ s) : Changes P s₀ (mismatchDrop i f s) := by
  unfold mismatchDrop
  try dsimp only
  repeat' first
    | with_reducible assumption
    | with_reducible exact Changes.refl _ _
    | with_reducible apply Changes.ite
    | with_reducible apply bookOverrun_changes
    | with_reducible apply dropFlight_changes
    | with_reducible apply record_changes
    | with_reducible apply setHub_changes
    | exact Part.sub_trans (by decide) hp
    | exact Part.mem hp (by decide)
    | (intro _; try dsimp only)
    | split

theorem compareCopy_changes {P : List Part} {s₀ : State} (i : Nat) (b : Bool) (waits : Nat) (s : State) (hp : Part.sub [.funcs, .nodes, .books, .flights, .hub] P = true)  (hc : Changes P s₀ s) : Changes P s₀ (compareCopy i b waits s) := by
  unfold compareCopy
  try dsimp only
  repeat' first
    | with_reducible assumption
    | with_reducible exact Changes.refl _ _
    | with_reducible apply Changes.ite
    | with_reducible apply countContend_changes
    | with_reducible apply leaveHub_changes
    | with_reducible apply mismatchDrop_changes
    | with_reducible apply putFlight_changes
    | exact Part.sub_trans (by decide) hp
    | exact Part.mem hp (by decide)
    | (intro _; try dsimp only)
    | split

theorem execCompareUnitCopy_changes {P : List Part} {s₀ : State} (copy : Nat) (planeB : Bool) (waits : Nat) (s : State) (hp : Part.sub [.funcs, .nodes, .books, .flights, .hub] P = true)  (hc : Changes P s₀ s) : ResChanges P s₀ (execCompareUnitCopy copy planeB waits s) := by
  unfold execCompareUnitCopy
  try dsimp only
  repeat' first
    | with_reducible assumption
    | with_reducible exact Changes.refl _ _
    | with_reducible apply Changes.ite
    | with_reducible apply ResChanges.next
    | with_reducible exact ResChanges.fault _
    | with_reducible exact ResChanges.refused _
    | with_reducible apply ResChanges.ite
    | with_reducible apply compareCopy_changes
    | exact Part.sub_trans (by decide) hp
    | exact Part.mem hp (by decide)
    | (intro _; try dsimp only)
    | split

theorem hubEntry_changes {P : List Part} {s₀ : State} (i : Nat) (nodeWaits : Nat) (hubWaits : Nat) (s : State) (hp : Part.sub [.funcs, .nodes, .books, .flights, .hub] P = true)  (hc : Changes P s₀ s) : Changes P s₀ (hubEntry i nodeWaits hubWaits s) := by
  unfold hubEntry
  try dsimp only
  repeat' first
    | with_reducible assumption
    | with_reducible exact Changes.refl _ _
    | with_reducible apply Changes.ite
    | with_reducible apply countContend_changes
    | with_reducible apply dropFlight_changes
    | with_reducible apply loopDrop_changes
    | with_reducible apply noRouteDrop_changes
    | with_reducible apply putFlight_changes
    | exact Part.sub_trans (by decide) hp
    | exact Part.mem hp (by decide)
    | (intro _; try dsimp only)
    | split

theorem execHubEntry_changes {P : List Part} {s₀ : State} (copy : Nat) (nodeWaits : Nat) (hubWaits : Nat) (s : State) (hp : Part.sub [.funcs, .nodes, .books, .flights, .hub] P = true)  (hc : Changes P s₀ s) : ResChanges P s₀ (execHubEntry copy nodeWaits hubWaits s) := by
  unfold execHubEntry
  try dsimp only
  repeat' first
    | with_reducible assumption
    | with_reducible exact Changes.refl _ _
    | with_reducible apply Changes.ite
    | with_reducible apply ResChanges.next
    | with_reducible exact ResChanges.fault _
    | with_reducible exact ResChanges.refused _
    | with_reducible apply ResChanges.ite
    | with_reducible apply hubEntry_changes
    | exact Part.sub_trans (by decide) hp
    | exact Part.mem hp (by decide)
    | (intro _; try dsimp only)
    | split

theorem markerEdge_changes {P : List Part} {s₀ : State} (v : VoiceId) (b : Fin 4) (level : Bool) (s : State) (hp : Part.sub [.funcs, .voices, .nodes, .books, .flights, .nextFlight, .hub] P = true)  (hc : Changes P s₀ s) : Changes P s₀ (markerEdge v b level s) := by
  unfold markerEdge
  try dsimp only
  repeat' first
    | with_reducible assumption
    | with_reducible exact Changes.refl _ _
    | with_reducible apply Changes.ite
    | with_reducible apply forEach_changes
    | with_reducible apply issueToken_changes
    | with_reducible apply modVoice_changes
    | exact Part.sub_trans (by decide) hp
    | exact Part.mem hp (by decide)
    | (intro _; try dsimp only)
    | split

theorem execMarkerEdge_changes {P : List Part} {s₀ : State} (v : VoiceId) (bit : Fin 4) (level : Bool) (s : State) (hp : Part.sub [.funcs, .voices, .nodes, .books, .flights, .nextFlight, .hub] P = true)  (hc : Changes P s₀ s) : ResChanges P s₀ (execMarkerEdge v bit level s) := by
  unfold execMarkerEdge
  try dsimp only
  repeat' first
    | with_reducible assumption
    | with_reducible exact Changes.refl _ _
    | with_reducible apply Changes.ite
    | with_reducible apply ResChanges.next
    | with_reducible exact ResChanges.fault _
    | with_reducible exact ResChanges.refused _
    | with_reducible apply ResChanges.ite
    | with_reducible apply markerEdge_changes
    | exact Part.sub_trans (by decide) hp
    | exact Part.mem hp (by decide)
    | (intro _; try dsimp only)
    | split

end Sys2Proof.Machine
end

