-- ==== Sys2Proof/Laws/ChangesImages.lean ====
section
/-!
SUPPORT. What each operation of Machine/Images.lean may change.
-/

set_option linter.unusedTactic false
set_option linter.unreachableTactic false
set_option linter.style.longLine false
set_option linter.unusedVariables false
set_option maxRecDepth 8000

namespace Sys2Proof.Machine

open Sys2Proof

theorem hbmWrite_changes {P : List Part} {s₀ : State} (a : Nat) (bytes : List Byte) (s : State) (hp : Part.sub [.tack, .hbm] P = true)  (hc : Changes P s₀ s) : Changes P s₀ (hbmWrite a bytes s) := by
  unfold hbmWrite
  try dsimp only
  repeat' first
    | with_reducible assumption
    | with_reducible exact Changes.refl _ _
    | with_reducible apply Changes.ite
    | with_reducible apply setHbm_changes
    | with_reducible apply setTack_changes
    | exact Part.sub_trans (by decide) hp
    | exact Part.mem hp (by decide)
    | (intro _; try dsimp only)
    | split

theorem slotWrite_changes {P : List Part} {s₀ : State} (f : Func) (k : SlotId) (a : Nat) (bytes : List Byte) (s : State) (hp : Part.sub [.funcs, .tack, .hbm] P = true)  (hc : Changes P s₀ s) : Changes P s₀ (slotWrite f k a bytes s) := by
  unfold slotWrite
  try dsimp only
  repeat' first
    | with_reducible assumption
    | with_reducible exact Changes.refl _ _
    | with_reducible apply Changes.ite
    | with_reducible apply hbmWrite_changes
    | with_reducible apply refuseAt_changes
    | exact Part.sub_trans (by decide) hp
    | exact Part.mem hp (by decide)
    | (intro _; try dsimp only)
    | split

theorem stageBytes_changes {P : List Part} {s₀ : State} (f : Func) (a : Nat) (bytes : List Byte) (rest : Nat → List Byte → State → State) (s : State) (hp : Part.sub [.funcs, .tack, .hbm] P = true) (hrest : ∀ y0 y1 y2, Changes P s₀ y2 → Changes P s₀ (rest y0 y1 y2)) (hc : Changes P s₀ s) : Changes P s₀ (stageBytes f a bytes rest s) := by
  unfold stageBytes
  try dsimp only
  repeat' first
    | with_reducible assumption
    | with_reducible exact Changes.refl _ _
    | with_reducible apply Changes.ite
    | with_reducible apply slotWrite_changes
    | with_reducible apply hrest
    | exact Part.sub_trans (by decide) hp
    | exact Part.mem hp (by decide)
    | (intro _; try dsimp only)
    | split

theorem tackOp_changes {P : List Part} {s₀ : State} (g : OpStatus → OpStatus) (s : State) (hp : Part.sub [.tack] P = true)  (hc : Changes P s₀ s) : Changes P s₀ (tackOp g s) := by
  unfold tackOp
  try dsimp only
  repeat' first
    | with_reducible assumption
    | with_reducible exact Changes.refl _ _
    | with_reducible apply Changes.ite
    | with_reducible apply setTack_changes
    | exact Part.sub_trans (by decide) hp
    | exact Part.mem hp (by decide)
    | (intro _; try dsimp only)
    | split

theorem endTack_changes {P : List Part} {s₀ : State} (op : OpStatus) (s : State) (hp : Part.sub [.funcs, .irqs, .tack] P = true)  (hc : Changes P s₀ s) : Changes P s₀ (endTack op s) := by
  unfold endTack
  try dsimp only
  repeat' first
    | with_reducible assumption
    | with_reducible exact Changes.refl _ _
    | with_reducible apply Changes.ite
    | with_reducible apply raise_changes
    | with_reducible apply setTack_changes
    | exact Part.sub_trans (by decide) hp
    | exact Part.mem hp (by decide)
    | (intro _; try dsimp only)
    | split

theorem startFlashHerd_changes {P : List Part} {s₀ : State} (s : State) (hp : Part.sub [.tack] P = true)  (hc : Changes P s₀ s) : Changes P s₀ (startFlashHerd s) := by
  unfold startFlashHerd
  try dsimp only
  repeat' first
    | with_reducible assumption
    | with_reducible exact Changes.refl _ _
    | with_reducible apply Changes.ite
    | with_reducible apply setTack_changes
    | exact Part.sub_trans (by decide) hp
    | exact Part.mem hp (by decide)
    | (intro _; try dsimp only)
    | split

theorem startBringUp_changes {P : List Part} {s₀ : State} (bring : Tab PowerUpFound) (s : State) (hp : Part.sub [.funcs, .irqs, .power, .persist, .tack, .stallImages, .stalls, .gaits, .slices, .acqs, .voices, .seqs, .chans, .units, .nodes, .cells, .books, .flights, .nextFlight, .hub, .riders, .lines, .fasts, .groups, .queues, .qdir, .farriers, .trims, .watches, .hbm, .library, .descs, .kernels, .store, .held, .latched] P = true)  (hc : Changes P s₀ s) : Changes P s₀ (startBringUp bring s) := by
  unfold startBringUp
  try dsimp only
  repeat' first
    | with_reducible assumption
    | with_reducible exact Changes.refl _ _
    | with_reducible apply Changes.ite
    | with_reducible apply bringNext_changes
    | with_reducible apply setPower_changes
    | exact Part.sub_trans (by decide) hp
    | exact Part.mem hp (by decide)
    | (intro _; try dsimp only)
    | split

theorem bootStep6_changes {P : List Part} {s₀ : State} (bring : Tab PowerUpFound) (s : State) (hp : Part.sub [.funcs, .irqs, .power, .persist, .tack, .stallImages, .stalls, .gaits, .slices, .acqs, .voices, .seqs, .chans, .units, .nodes, .cells, .books, .flights, .nextFlight, .hub, .riders, .lines, .fasts, .groups, .queues, .qdir, .farriers, .trims, .watches, .hbm, .library, .descs, .kernels, .store, .held, .latched] P = true)  (hc : Changes P s₀ s) : Changes P s₀ (bootStep6 bring s) := by
  unfold bootStep6
  try dsimp only
  repeat' first
    | with_reducible assumption
    | with_reducible exact Changes.refl _ _
    | with_reducible apply Changes.ite
    | with_reducible apply endBringUp_changes
    | with_reducible apply setPower_changes
    | with_reducible apply startBringUp_changes
    | exact Part.sub_trans (by decide) hp
    | exact Part.mem hp (by decide)
    | (intro _; try dsimp only)
    | split

theorem afterTack_changes {P : List Part} {s₀ : State} (flash : Bool) (run : Option TackOp) (up : Bool) (bring : Tab PowerUpFound) (s : State) (hp : Part.sub [.funcs, .irqs, .power, .persist, .tack, .stallImages, .stalls, .gaits, .slices, .acqs, .voices, .seqs, .chans, .units, .nodes, .cells, .books, .flights, .nextFlight, .hub, .riders, .lines, .fasts, .groups, .queues, .qdir, .farriers, .trims, .watches, .hbm, .library, .descs, .kernels, .store, .held, .latched] P = true)  (hc : Changes P s₀ s) : Changes P s₀ (afterTack flash run up bring s) := by
  unfold afterTack
  try dsimp only
  repeat' first
    | with_reducible assumption
    | with_reducible exact Changes.refl _ _
    | with_reducible apply Changes.ite
    | with_reducible apply bootStep6_changes
    | with_reducible apply bringAligned_changes
    | with_reducible apply bringOn_changes
    | with_reducible apply startFlashHerd_changes
    | exact Part.sub_trans (by decide) hp
    | exact Part.mem hp (by decide)
    | (intro _; try dsimp only)
    | split

theorem failTack_changes {P : List Part} {s₀ : State} (st : OpState) (code : Code) (object : Word) (aux : Word) (bring : Tab PowerUpFound) (s : State) (hp : Part.sub [.funcs, .irqs, .power, .persist, .tack, .stallImages, .stalls, .gaits, .slices, .acqs, .voices, .seqs, .chans, .units, .nodes, .cells, .books, .flights, .nextFlight, .hub, .riders, .lines, .fasts, .groups, .queues, .qdir, .farriers, .trims, .watches, .hbm, .library, .descs, .kernels, .store, .held, .latched] P = true)  (hc : Changes P s₀ s) : Changes P s₀ (failTack st code object aux bring s) := by
  unfold failTack
  try dsimp only
  repeat' first
    | with_reducible assumption
    | with_reducible exact Changes.refl _ _
    | with_reducible apply Changes.ite
    | with_reducible apply afterTack_changes
    | with_reducible apply endTack_changes
    | with_reducible apply record_changes
    | exact Part.sub_trans (by decide) hp
    | exact Part.mem hp (by decide)
    | (intro _; try dsimp only)
    | split

theorem abortLoad_changes {P : List Part} {s₀ : State} (bring : Tab PowerUpFound) (s : State) (hp : Part.sub [.funcs, .irqs, .power, .persist, .tack, .stallImages, .stalls, .gaits, .slices, .acqs, .voices, .seqs, .chans, .units, .nodes, .cells, .books, .flights, .nextFlight, .hub, .riders, .lines, .fasts, .groups, .queues, .qdir, .farriers, .trims, .watches, .hbm, .library, .descs, .kernels, .store, .held, .latched] P = true)  (hc : Changes P s₀ s) : Changes P s₀ (abortLoad bring s) := by
  unfold abortLoad
  try dsimp only
  repeat' first
    | with_reducible assumption
    | with_reducible exact Changes.refl _ _
    | with_reducible apply Changes.ite
    | with_reducible apply failTack_changes
    | exact Part.sub_trans (by decide) hp
    | exact Part.mem hp (by decide)
    | (intro _; try dsimp only)
    | split

theorem execAbort_changes {P : List Part} {s₀ : State} (f : Func) (bring : Tab PowerUpFound) (s : State) (hp : Part.sub [.funcs, .irqs, .power, .persist, .tack, .stallImages, .stalls, .gaits, .slices, .acqs, .voices, .seqs, .chans, .units, .nodes, .cells, .books, .flights, .nextFlight, .hub, .riders, .lines, .fasts, .groups, .queues, .qdir, .farriers, .trims, .watches, .hbm, .library, .descs, .kernels, .store, .held, .latched] P = true)  (hc : Changes P s₀ s) : ResChanges P s₀ (execAbort f bring s) := by
  unfold execAbort
  try dsimp only
  repeat' first
    | with_reducible assumption
    | with_reducible exact Changes.refl _ _
    | with_reducible apply Changes.ite
    | with_reducible apply ResChanges.next
    | with_reducible exact ResChanges.fault _
    | with_reducible exact ResChanges.refused _
    | with_reducible apply ResChanges.ite
    | with_reducible apply abortLoad_changes
    | with_reducible apply spineCommand_changes
    | with_reducible apply tackOp_changes
    | exact Part.sub_trans (by decide) hp
    | exact Part.mem hp (by decide)
    | (intro _; try dsimp only)
    | split

theorem startLoad_changes {P : List Part} {s₀ : State} (f : Func) (op : TackOp) (slot : SlotId) (s : State) (hp : Part.sub [.tack] P = true)  (hc : Changes P s₀ s) : Changes P s₀ (startLoad f op slot s) := by
  unfold startLoad
  try dsimp only
  repeat' first
    | with_reducible assumption
    | with_reducible exact Changes.refl _ _
    | with_reducible apply Changes.ite
    | with_reducible apply setTack_changes
    | exact Part.sub_trans (by decide) hp
    | exact Part.mem hp (by decide)
    | (intro _; try dsimp only)
    | split

theorem loadCommand_changes {P : List Part} {s₀ : State} (f : Func) (op : TackOp) (slot : SlotId) (s : State) (hp : Part.sub [.funcs, .tack] P = true)  (hc : Changes P s₀ s) : Changes P s₀ (loadCommand f op slot s) := by
  unfold loadCommand
  try dsimp only
  repeat' first
    | with_reducible assumption
    | with_reducible exact Changes.refl _ _
    | with_reducible apply Changes.ite
    | with_reducible apply spineCommand_changes
    | with_reducible apply startLoad_changes
    | with_reducible apply tackOp_changes
    | exact Part.sub_trans (by decide) hp
    | exact Part.mem hp (by decide)
    | (intro _; try dsimp only)
    | split

theorem execCheck_changes {P : List Part} {s₀ : State} (f : Func) (n : StallId) (slot : SlotId) (s : State) (hp : Part.sub [.funcs, .tack] P = true)  (hc : Changes P s₀ s) : ResChanges P s₀ (execCheck f n slot s) := by
  unfold execCheck
  try dsimp only
  repeat' first
    | with_reducible assumption
    | with_reducible exact Changes.refl _ _
    | with_reducible apply Changes.ite
    | with_reducible apply ResChanges.next
    | with_reducible exact ResChanges.fault _
    | with_reducible exact ResChanges.refused _
    | with_reducible apply ResChanges.ite
    | with_reducible apply loadCommand_changes
    | exact Part.sub_trans (by decide) hp
    | exact Part.mem hp (by decide)
    | (intro _; try dsimp only)
    | split

theorem execLoadHub_changes {P : List Part} {s₀ : State} (f : Func) (slot : SlotId) (s : State) (hp : Part.sub [.funcs, .tack] P = true)  (hc : Changes P s₀ s) : ResChanges P s₀ (execLoadHub f slot s) := by
  unfold execLoadHub
  try dsimp only
  repeat' first
    | with_reducible assumption
    | with_reducible exact Changes.refl _ _
    | with_reducible apply Changes.ite
    | with_reducible apply ResChanges.next
    | with_reducible exact ResChanges.fault _
    | with_reducible exact ResChanges.refused _
    | with_reducible apply ResChanges.ite
    | with_reducible apply loadCommand_changes
    | exact Part.sub_trans (by decide) hp
    | exact Part.mem hp (by decide)
    | (intro _; try dsimp only)
    | split

theorem execLoadHerd_changes {P : List Part} {s₀ : State} (f : Func) (slot : SlotId) (s : State) (hp : Part.sub [.funcs, .tack] P = true)  (hc : Changes P s₀ s) : ResChanges P s₀ (execLoadHerd f slot s) := by
  unfold execLoadHerd
  try dsimp only
  repeat' first
    | with_reducible assumption
    | with_reducible exact Changes.refl _ _
    | with_reducible apply Changes.ite
    | with_reducible apply ResChanges.next
    | with_reducible exact ResChanges.fault _
    | with_reducible exact ResChanges.refused _
    | with_reducible apply ResChanges.ite
    | with_reducible apply loadCommand_changes
    | exact Part.sub_trans (by decide) hp
    | exact Part.mem hp (by decide)
    | (intro _; try dsimp only)
    | split

theorem execLoadStall_changes {P : List Part} {s₀ : State} (f : Func) (n : StallId) (slot : SlotId) (s : State) (hp : Part.sub [.funcs, .tack] P = true)  (hc : Changes P s₀ s) : ResChanges P s₀ (execLoadStall f n slot s) := by
  unfold execLoadStall
  try dsimp only
  repeat' first
    | with_reducible assumption
    | with_reducible exact Changes.refl _ _
    | with_reducible apply Changes.ite
    | with_reducible apply ResChanges.next
    | with_reducible exact ResChanges.fault _
    | with_reducible exact ResChanges.refused _
    | with_reducible apply ResChanges.ite
    | with_reducible apply loadCommand_changes
    | exact Part.sub_trans (by decide) hp
    | exact Part.mem hp (by decide)
    | (intro _; try dsimp only)
    | split

theorem execStagingSlotWrite_changes {P : List Part} {s₀ : State} (f : Func) (addr : BitVec 36) (bytes : List Byte) (s : State) (hp : Part.sub [.funcs, .tack, .hbm] P = true)  (hc : Changes P s₀ s) : ResChanges P s₀ (execStagingSlotWrite f addr bytes s) := by
  unfold execStagingSlotWrite
  try dsimp only
  repeat' first
    | with_reducible assumption
    | with_reducible exact Changes.refl _ _
    | with_reducible apply Changes.ite
    | with_reducible apply ResChanges.next
    | with_reducible exact ResChanges.fault _
    | with_reducible exact ResChanges.refused _
    | with_reducible apply ResChanges.ite
    | with_reducible apply stageBytes_changes
    | exact Part.sub_trans (by decide) hp
    | exact Part.mem hp (by decide)
    | (intro _; try dsimp only)
    | split

theorem failHub_changes {P : List Part} {s₀ : State} (bring : Tab PowerUpFound) (s : State) (hp : Part.sub [.funcs, .irqs, .power, .persist, .tack, .stallImages, .stalls, .gaits, .slices, .acqs, .voices, .seqs, .chans, .units, .nodes, .cells, .books, .flights, .nextFlight, .hub, .riders, .lines, .fasts, .groups, .queues, .qdir, .farriers, .trims, .watches, .hbm, .library, .descs, .kernels, .store, .held, .latched] P = true)  (hc : Changes P s₀ s) : Changes P s₀ (failHub bring s) := by
  unfold failHub
  try dsimp only
  repeat' first
    | with_reducible assumption
    | with_reducible exact Changes.refl _ _
    | with_reducible apply Changes.ite
    | with_reducible apply failTack_changes
    | with_reducible apply modPlane_changes
    | with_reducible apply setHub_changes
    | exact Part.sub_trans (by decide) hp
    | exact Part.mem hp (by decide)
    | (intro _; try dsimp only)
    | split

theorem joinPlane_changes {P : List Part} {s₀ : State} (b : Bool) (s : State) (hp : Part.sub [.flights] P = true)  (hc : Changes P s₀ s) : Changes P s₀ (joinPlane b s) := by
  unfold joinPlane
  try dsimp only
  repeat' first
    | with_reducible assumption
    | with_reducible exact Changes.refl _ _
    | with_reducible apply Changes.ite
    | with_reducible apply Changes.set_flights
    | exact Part.sub_trans (by decide) hp
    | exact Part.mem hp (by decide)
    | (intro _; try dsimp only)
    | split

theorem completeHub_changes {P : List Part} {s₀ : State} (bring : Tab PowerUpFound) (s : State) (hp : Part.sub [.funcs, .irqs, .power, .backup, .persist, .tack, .stallImages, .stalls, .gaits, .slices, .acqs, .voices, .seqs, .chans, .units, .nodes, .cells, .books, .flights, .nextFlight, .hub, .riders, .lines, .fasts, .groups, .queues, .qdir, .farriers, .trims, .watches, .hbm, .library, .descs, .kernels, .store, .held, .latched] P = true)  (hc : Changes P s₀ s) : Changes P s₀ (completeHub bring s) := by
  unfold completeHub
  try dsimp only
  repeat' first
    | with_reducible assumption
    | with_reducible exact Changes.refl _ _
    | with_reducible apply Changes.ite
    | with_reducible apply afterTack_changes
    | with_reducible apply copyFlipFlops_changes
    | with_reducible apply endTack_changes
    | with_reducible apply issueSeal_changes
    | with_reducible apply joinPlane_changes
    | with_reducible apply raiseFloor_changes
    | with_reducible apply servePlane_changes
    | with_reducible apply writePlane_changes
    | with_reducible apply writeRecord_changes
    | exact Part.sub_trans (by decide) hp
    | exact Part.mem hp (by decide)
    | (intro _; try dsimp only)
    | split

theorem fillLanes_changes {P : List Part} {s₀ : State} (i : HerdImage) (s : State) (hp : Part.sub [.funcs, .irqs, .power, .books, .lanes, .tether, .tc] P = true)  (hc : Changes P s₀ s) : Changes P s₀ (fillLanes i s) := by
  unfold fillLanes
  try dsimp only
  repeat' first
    | with_reducible assumption
    | with_reducible exact Changes.refl _ _
    | with_reducible apply Changes.ite
    | with_reducible apply forEach_changes
    | with_reducible apply modLane_changes
    | with_reducible apply setDomains_changes
    | with_reducible apply train_changes
    | with_reducible apply unhitch_changes
    | exact Part.sub_trans (by decide) hp
    | exact Part.mem hp (by decide)
    | (intro _; try dsimp only)
    | split

theorem failHerd_changes {P : List Part} {s₀ : State} (bring : Tab PowerUpFound) (s : State) (hp : Part.sub [.funcs, .irqs, .power, .persist, .tack, .stallImages, .stalls, .gaits, .slices, .acqs, .voices, .seqs, .chans, .units, .nodes, .cells, .books, .flights, .nextFlight, .hub, .riders, .lines, .fasts, .groups, .queues, .qdir, .farriers, .trims, .lanes, .tether, .tc, .watches, .hbm, .library, .descs, .kernels, .store, .held, .latched] P = true)  (hc : Changes P s₀ s) : Changes P s₀ (failHerd bring s) := by
  unfold failHerd
  try dsimp only
  repeat' first
    | with_reducible assumption
    | with_reducible exact Changes.refl _ _
    | with_reducible apply Changes.ite
    | with_reducible apply failTack_changes
    | with_reducible apply fillLanes_changes
    | exact Part.sub_trans (by decide) hp
    | exact Part.mem hp (by decide)
    | (intro _; try dsimp only)
    | split

theorem bringAfterHerd_changes {P : List Part} {s₀ : State} (flash : Bool) (bring : Tab PowerUpFound) (s : State) (hp : Part.sub [.funcs, .irqs, .power, .persist, .tack, .stallImages, .stalls, .gaits, .slices, .acqs, .voices, .seqs, .chans, .units, .nodes, .cells, .books, .flights, .nextFlight, .hub, .riders, .lines, .fasts, .groups, .queues, .qdir, .farriers, .trims, .watches, .hbm, .library, .descs, .kernels, .store, .held, .latched] P = true)  (hc : Changes P s₀ s) : Changes P s₀ (bringAfterHerd flash bring s) := by
  unfold bringAfterHerd
  try dsimp only
  repeat' first
    | with_reducible assumption
    | with_reducible exact Changes.refl _ _
    | with_reducible apply Changes.ite
    | with_reducible apply bootStep6_changes
    | with_reducible apply startBringUp_changes
    | with_reducible apply startFlashHerd_changes
    | exact Part.sub_trans (by decide) hp
    | exact Part.mem hp (by decide)
    | (intro _; try dsimp only)
    | split

theorem applyKeys_changes {P : List Part} {s₀ : State} (h : Header) (i : HerdImage) (s : State) (hp : Part.sub [.persist] P = true)  (hc : Changes P s₀ s) : Changes P s₀ (applyKeys h i s) := by
  unfold applyKeys
  try dsimp only
  repeat' first
    | with_reducible assumption
    | with_reducible exact Changes.refl _ _
    | with_reducible apply Changes.ite
    | with_reducible apply setPersist_changes
    | exact Part.sub_trans (by decide) hp
    | exact Part.mem hp (by decide)
    | (intro _; try dsimp only)
    | split

theorem resetSpine_changes {P : List Part} {s₀ : State} (s : State) (hp : Part.sub [.spine, .pulses, .hks, .hkCtl] P = true)  (hc : Changes P s₀ s) : Changes P s₀ (resetSpine s) := by
  unfold resetSpine
  try dsimp only
  repeat' first
    | with_reducible assumption
    | with_reducible exact Changes.refl _ _
    | with_reducible apply Changes.ite
    | with_reducible apply forEach_changes
    | with_reducible apply modHk_changes
    | with_reducible apply modPulse_changes
    | with_reducible apply setHk_changes
    | with_reducible apply Changes.set_spine
    | exact Part.sub_trans (by decide) hp
    | exact Part.mem hp (by decide)
    | (intro _; try dsimp only)
    | split

theorem fillSpineWatch_changes {P : List Part} {s₀ : State} (i : HerdImage) (s : State) (hp : Part.sub [.watches] P = true)  (hc : Changes P s₀ s) : Changes P s₀ (fillSpineWatch i s) := by
  unfold fillSpineWatch
  try dsimp only
  repeat' first
    | with_reducible assumption
    | with_reducible exact Changes.refl _ _
    | with_reducible apply Changes.ite
    | with_reducible apply forEach_changes
    | with_reducible apply modWatch_changes
    | exact Part.sub_trans (by decide) hp
    | exact Part.mem hp (by decide)
    | (intro _; try dsimp only)
    | split

theorem completeHerd_changes {P : List Part} {s₀ : State} (i : HerdImage) (bring : Tab PowerUpFound) (s : State) (hp : Part.sub [.funcs, .irqs, .power, .backup, .persist, .tack, .spine, .herdImage, .hubImage, .stallImages, .stalls, .gaits, .slices, .acqs, .voices, .seqs, .chans, .units, .nodes, .cells, .books, .flights, .nextFlight, .hub, .riders, .lines, .fasts, .groups, .queues, .qdir, .farriers, .trims, .lanes, .tether, .tc, .pulses, .watches, .hks, .hkCtl, .hbm, .library, .descs, .kernels, .store, .held, .latched] P = true)  (hc : Changes P s₀ s) : Changes P s₀ (completeHerd i bring s) := by
  unfold completeHerd
  try dsimp only
  repeat' first
    | with_reducible assumption
    | with_reducible exact Changes.refl _ _
    | with_reducible apply Changes.ite
    | with_reducible apply applyKeys_changes
    | with_reducible apply bringAfterHerd_changes
    | with_reducible apply endTack_changes
    | with_reducible apply fillLanes_changes
    | with_reducible apply fillSpineWatch_changes
    | with_reducible apply issueSeal_changes
    | with_reducible apply joinPlane_changes
    | with_reducible apply raiseFloor_changes
    | with_reducible apply resetSpine_changes
    | with_reducible apply servePlane_changes
    | with_reducible apply setTack_changes
    | with_reducible apply writePlane_changes
    | with_reducible apply writeRecord_changes
    | (refine Changes.trans hc ⟨fun p hn => ?_⟩; cases p <;> first | rfl | (rw [Part.mem hp (by decide)] at hn; cases hn))
    | exact Part.sub_trans (by decide) hp
    | exact Part.mem hp (by decide)
    | (intro _; try dsimp only)
    | split

theorem completeStall_changes {P : List Part} {s₀ : State} (n : StallId) (i : StallImage) (bring : Tab PowerUpFound) (s : State) (hp : Part.sub [.funcs, .irqs, .power, .backup, .persist, .tack, .stallImages, .stalls, .gaits, .slices, .acqs, .voices, .seqs, .chans, .units, .nodes, .cells, .books, .flights, .nextFlight, .hub, .riders, .lines, .fasts, .groups, .queues, .qdir, .farriers, .trims, .watches, .hbm, .library, .descs, .kernels, .store, .held, .latched] P = true)  (hc : Changes P s₀ s) : Changes P s₀ (completeStall n i bring s) := by
  unfold completeStall
  try dsimp only
  repeat' first
    | with_reducible assumption
    | with_reducible exact Changes.refl _ _
    | with_reducible apply Changes.ite
    | with_reducible apply afterTack_changes
    | with_reducible apply applyStall_changes
    | with_reducible apply endTack_changes
    | with_reducible apply fillStall_changes
    | with_reducible apply modStall_changes
    | with_reducible apply raiseFloor_changes
    | with_reducible apply record_changes
    | with_reducible apply setLife_changes
    | with_reducible apply writeRecord_changes
    | with_reducible apply Changes.fst_ite
    | refine Changes.fst ‹_ = (_, _)› ?_
    | dsimp only
    | exact Part.sub_trans (by decide) hp
    | exact Part.mem hp (by decide)
    | (intro _; try dsimp only)
    | split

theorem loadEnd_changes {P : List Part} {s₀ : State} (r : CommitResult) (bring : Tab PowerUpFound) (s : State) (hp : Part.sub [.funcs, .irqs, .power, .backup, .persist, .tack, .spine, .herdImage, .hubImage, .stallImages, .stalls, .gaits, .slices, .acqs, .voices, .seqs, .chans, .units, .nodes, .cells, .books, .flights, .nextFlight, .hub, .riders, .lines, .fasts, .groups, .queues, .qdir, .farriers, .trims, .lanes, .tether, .tc, .pulses, .watches, .hks, .hkCtl, .hbm, .library, .descs, .kernels, .store, .held, .latched] P = true)  (hc : Changes P s₀ s) : Changes P s₀ (loadEnd r bring s) := by
  unfold loadEnd
  try dsimp only
  repeat' first
    | with_reducible assumption
    | with_reducible exact Changes.refl _ _
    | with_reducible apply Changes.ite
    | with_reducible apply completeHerd_changes
    | with_reducible apply completeHub_changes
    | with_reducible apply completeStall_changes
    | with_reducible apply failHerd_changes
    | with_reducible apply failHub_changes
    | with_reducible apply failTack_changes
    | exact Part.sub_trans (by decide) hp
    | exact Part.mem hp (by decide)
    | (intro _; try dsimp only)
    | split

theorem execLoadEnd_changes {P : List Part} {s₀ : State} (result : CommitResult) (bring : Tab PowerUpFound) (s : State) (hp : Part.sub [.funcs, .irqs, .power, .backup, .persist, .tack, .spine, .herdImage, .hubImage, .stallImages, .stalls, .gaits, .slices, .acqs, .voices, .seqs, .chans, .units, .nodes, .cells, .books, .flights, .nextFlight, .hub, .riders, .lines, .fasts, .groups, .queues, .qdir, .farriers, .trims, .lanes, .tether, .tc, .pulses, .watches, .hks, .hkCtl, .hbm, .library, .descs, .kernels, .store, .held, .latched] P = true)  (hc : Changes P s₀ s) : ResChanges P s₀ (execLoadEnd result bring s) := by
  unfold execLoadEnd
  try dsimp only
  repeat' first
    | with_reducible assumption
    | with_reducible exact Changes.refl _ _
    | with_reducible apply Changes.ite
    | with_reducible apply ResChanges.next
    | with_reducible exact ResChanges.fault _
    | with_reducible exact ResChanges.refused _
    | with_reducible apply ResChanges.ite
    | with_reducible apply loadEnd_changes
    | exact Part.sub_trans (by decide) hp
    | exact Part.mem hp (by decide)
    | (intro _; try dsimp only)
    | split

theorem enterHub_changes {P : List Part} {s₀ : State} (s : State) (hp : Part.sub [.funcs, .tack, .books, .flights, .hub] P = true)  (hc : Changes P s₀ s) : Changes P s₀ (enterHub s) := by
  unfold enterHub
  try dsimp only
  repeat' first
    | with_reducible assumption
    | with_reducible exact Changes.refl _ _
    | with_reducible apply Changes.ite
    | with_reducible apply losePlaneCopies_changes
    | with_reducible apply modPlane_changes
    | with_reducible apply setHub_changes
    | with_reducible apply setTack_changes
    | exact Part.sub_trans (by decide) hp
    | exact Part.mem hp (by decide)
    | (intro _; try dsimp only)
    | split

theorem idleLanes_changes {P : List Part} {s₀ : State} (s : State) (hp : Part.sub [.funcs, .irqs, .books, .lanes, .tether, .tc] P = true)  (hc : Changes P s₀ s) : Changes P s₀ (idleLanes s) := by
  unfold idleLanes
  try dsimp only
  repeat' first
    | with_reducible assumption
    | with_reducible exact Changes.refl _ _
    | with_reducible apply Changes.ite
    | with_reducible apply forEach_changes
    | with_reducible apply modLane_changes
    | with_reducible apply unhitch_changes
    | exact Part.sub_trans (by decide) hp
    | exact Part.mem hp (by decide)
    | (intro _; try dsimp only)
    | split

theorem enterCommit_changes {P : List Part} {s₀ : State} (op : TackOp) (b : ImageBody) (s : State) (hp : Part.sub [.funcs, .irqs, .tack, .stallImages, .stalls, .slices, .acqs, .voices, .seqs, .units, .nodes, .books, .flights, .nextFlight, .hub, .riders, .lines, .queues, .qdir, .farriers, .trims, .lanes, .tether, .tc, .watches, .hbm] P = true)  (hc : Changes P s₀ s) : Changes P s₀ (enterCommit op b s) := by
  unfold enterCommit
  try dsimp only
  repeat' first
    | with_reducible assumption
    | with_reducible exact Changes.refl _ _
    | with_reducible apply Changes.ite
    | with_reducible apply discardImage_changes
    | with_reducible apply enterHub_changes
    | with_reducible apply idleLanes_changes
    | with_reducible apply setTack_changes
    | with_reducible apply toStabled_changes
    | exact Part.sub_trans (by decide) hp
    | exact Part.mem hp (by decide)
    | (intro _; try dsimp only)
    | split

theorem checkPassed_changes {P : List Part} {s₀ : State} (bring : Tab PowerUpFound) (s : State) (hp : Part.sub [.funcs, .irqs, .power, .persist, .tack, .stallImages, .stalls, .gaits, .slices, .acqs, .voices, .seqs, .chans, .units, .nodes, .cells, .books, .flights, .nextFlight, .hub, .riders, .lines, .fasts, .groups, .queues, .qdir, .farriers, .trims, .watches, .hbm, .library, .descs, .kernels, .store, .held, .latched] P = true)  (hc : Changes P s₀ s) : Changes P s₀ (checkPassed bring s) := by
  unfold checkPassed
  try dsimp only
  repeat' first
    | with_reducible assumption
    | with_reducible exact Changes.refl _ _
    | with_reducible apply Changes.ite
    | with_reducible apply afterTack_changes
    | with_reducible apply endTack_changes
    | with_reducible apply setTack_changes
    | exact Part.sub_trans (by decide) hp
    | exact Part.mem hp (by decide)
    | (intro _; try dsimp only)
    | split

theorem refuseImage_changes {P : List Part} {s₀ : State} (f : Flaw) (bring : Tab PowerUpFound) (s : State) (hp : Part.sub [.funcs, .irqs, .power, .persist, .tack, .stallImages, .stalls, .gaits, .slices, .acqs, .voices, .seqs, .chans, .units, .nodes, .cells, .books, .flights, .nextFlight, .hub, .riders, .lines, .fasts, .groups, .queues, .qdir, .farriers, .trims, .watches, .hbm, .library, .descs, .kernels, .store, .held, .latched] P = true)  (hc : Changes P s₀ s) : Changes P s₀ (refuseImage f bring s) := by
  unfold refuseImage
  try dsimp only
  repeat' first
    | with_reducible assumption
    | with_reducible exact Changes.refl _ _
    | with_reducible apply Changes.ite
    | with_reducible apply failTack_changes
    | with_reducible apply record_changes
    | with_reducible apply setTack_changes
    | exact Part.sub_trans (by decide) hp
    | exact Part.mem hp (by decide)
    | (intro _; try dsimp only)
    | split

theorem checksEnd_changes {P : List Part} {s₀ : State} (op : TackOp) (c : ImageChecks) (bring : Tab PowerUpFound) (s : State) (hp : Part.sub [.funcs, .irqs, .power, .persist, .tack, .stallImages, .stalls, .gaits, .slices, .acqs, .voices, .seqs, .chans, .units, .nodes, .cells, .books, .flights, .nextFlight, .hub, .riders, .lines, .fasts, .groups, .queues, .qdir, .farriers, .trims, .lanes, .tether, .tc, .watches, .hbm, .library, .descs, .kernels, .store, .held, .latched] P = true)  (hc : Changes P s₀ s) : Changes P s₀ (checksEnd op c bring s) := by
  unfold checksEnd
  try dsimp only
  repeat' first
    | with_reducible assumption
    | with_reducible exact Changes.refl _ _
    | with_reducible apply Changes.ite
    | with_reducible apply checkPassed_changes
    | with_reducible apply enterCommit_changes
    | with_reducible apply refuseImage_changes
    | exact Part.sub_trans (by decide) hp
    | exact Part.mem hp (by decide)
    | (intro _; try dsimp only)
    | split

theorem execTackChecksEnd_changes {P : List Part} {s₀ : State} (checks : ImageChecks) (bring : Tab PowerUpFound) (s : State) (hp : Part.sub [.funcs, .irqs, .power, .persist, .tack, .stallImages, .stalls, .gaits, .slices, .acqs, .voices, .seqs, .chans, .units, .nodes, .cells, .books, .flights, .nextFlight, .hub, .riders, .lines, .fasts, .groups, .queues, .qdir, .farriers, .trims, .lanes, .tether, .tc, .watches, .hbm, .library, .descs, .kernels, .store, .held, .latched] P = true)  (hc : Changes P s₀ s) : ResChanges P s₀ (execTackChecksEnd checks bring s) := by
  unfold execTackChecksEnd
  try dsimp only
  repeat' first
    | with_reducible assumption
    | with_reducible exact Changes.refl _ _
    | with_reducible apply Changes.ite
    | with_reducible apply ResChanges.next
    | with_reducible exact ResChanges.fault _
    | with_reducible exact ResChanges.refused _
    | with_reducible apply ResChanges.ite
    | with_reducible apply checksEnd_changes
    | exact Part.sub_trans (by decide) hp
    | exact Part.mem hp (by decide)
    | (intro _; try dsimp only)
    | split

end Sys2Proof.Machine
end

