-- ==== Sys2Proof/Laws/ChangesStalls.lean ====
section
/-!
SUPPORT. What each operation of Machine/Stalls.lean may change.
-/

set_option linter.unusedTactic false
set_option linter.unreachableTactic false
set_option linter.style.longLine false
set_option linter.unusedVariables false
set_option maxRecDepth 8000

namespace Sys2Proof.Machine

open Sys2Proof

theorem requestTakeover_changes {P : List Part} {s₀ : State} (f : Func) (n : StallId) (k : SliceKind) (target : BitVec 4) (s : State) (hp : Part.sub [.stalls] P = true)  (hc : Changes P s₀ s) : Changes P s₀ (requestTakeover f n k target s) := by
  unfold requestTakeover
  try dsimp only
  repeat' first
    | with_reducible assumption
    | with_reducible exact Changes.refl _ _
    | with_reducible apply Changes.ite
    | with_reducible apply modSpare_changes
    | with_reducible apply modStall_changes
    | exact Part.sub_trans (by decide) hp
    | exact Part.mem hp (by decide)
    | (intro _; try dsimp only)
    | split

theorem spareCommand_changes {P : List Part} {s₀ : State} (f : Func) (n : StallId) (code : State → Option Code) (eff : State → State) (s : State) (hp : Part.sub [.funcs, .stalls] P = true) (heff : ∀ y0, Changes P s₀ y0 → Changes P s₀ (eff y0)) (hc : Changes P s₀ s) : Changes P s₀ (spareCommand f n code eff s) := by
  unfold spareCommand
  try dsimp only
  repeat' first
    | with_reducible assumption
    | with_reducible exact Changes.refl _ _
    | with_reducible apply Changes.ite
    | with_reducible apply hostWrite_changes
    | with_reducible apply modStall_changes
    | with_reducible apply refuseReg_changes
    | with_reducible apply heff
    | exact Part.sub_trans (by decide) hp
    | exact Part.mem hp (by decide)
    | (intro _; try dsimp only)
    | split

theorem execSpareTakeover_changes {P : List Part} {s₀ : State} (f : Func) (n : StallId) (kind : SliceKind) (target : BitVec 4) (s : State) (hp : Part.sub [.funcs, .stalls] P = true)  (hc : Changes P s₀ s) : ResChanges P s₀ (execSpareTakeover f n kind target s) := by
  unfold execSpareTakeover
  try dsimp only
  repeat' first
    | with_reducible assumption
    | with_reducible exact Changes.refl _ _
    | with_reducible apply Changes.ite
    | with_reducible apply ResChanges.next
    | with_reducible exact ResChanges.fault _
    | with_reducible exact ResChanges.refused _
    | with_reducible apply ResChanges.ite
    | with_reducible apply requestTakeover_changes
    | with_reducible apply spareCommand_changes
    | exact Part.sub_trans (by decide) hp
    | exact Part.mem hp (by decide)
    | (intro _; try dsimp only)
    | split

theorem endSpareOp_changes {P : List Part} {s₀ : State} (n : StallId) (op : OpStatus) (s : State) (hp : Part.sub [.funcs, .irqs, .stalls] P = true)  (hc : Changes P s₀ s) : Changes P s₀ (endSpareOp n op s) := by
  unfold endSpareOp
  try dsimp only
  repeat' first
    | with_reducible assumption
    | with_reducible exact Changes.refl _ _
    | with_reducible apply Changes.ite
    | with_reducible apply modStall_changes
    | with_reducible apply raise_changes
    | exact Part.sub_trans (by decide) hp
    | exact Part.mem hp (by decide)
    | (intro _; try dsimp only)
    | split

theorem requestRelease_changes {P : List Part} {s₀ : State} (f : Func) (n : StallId) (k : SliceKind) (s : State) (hp : Part.sub [.funcs, .irqs, .stalls] P = true)  (hc : Changes P s₀ s) : Changes P s₀ (requestRelease f n k s) := by
  unfold requestRelease
  try dsimp only
  repeat' first
    | with_reducible assumption
    | with_reducible exact Changes.refl _ _
    | with_reducible apply Changes.ite
    | with_reducible apply endSpareOp_changes
    | with_reducible apply modSpare_changes
    | with_reducible apply modStall_changes
    | exact Part.sub_trans (by decide) hp
    | exact Part.mem hp (by decide)
    | (intro _; try dsimp only)
    | split

theorem execSpareRelease_changes {P : List Part} {s₀ : State} (f : Func) (n : StallId) (kind : SliceKind) (s : State) (hp : Part.sub [.funcs, .irqs, .stalls] P = true)  (hc : Changes P s₀ s) : ResChanges P s₀ (execSpareRelease f n kind s) := by
  unfold execSpareRelease
  try dsimp only
  repeat' first
    | with_reducible assumption
    | with_reducible exact Changes.refl _ _
    | with_reducible apply Changes.ite
    | with_reducible apply ResChanges.next
    | with_reducible exact ResChanges.fault _
    | with_reducible exact ResChanges.refused _
    | with_reducible apply ResChanges.ite
    | with_reducible apply requestRelease_changes
    | with_reducible apply spareCommand_changes
    | exact Part.sub_trans (by decide) hp
    | exact Part.mem hp (by decide)
    | (intro _; try dsimp only)
    | split

theorem stallCommand_changes {P : List Part} {s₀ : State} (f : Func) (n : StallId) (halt : Bool) (permitted : State → Bool) (eff : State → State) (s : State) (hp : Part.sub [.funcs, .stalls] P = true) (heff : ∀ y0, Changes P s₀ y0 → Changes P s₀ (eff y0)) (hc : Changes P s₀ s) : Changes P s₀ (stallCommand f n halt permitted eff s) := by
  unfold stallCommand
  try dsimp only
  repeat' first
    | with_reducible assumption
    | with_reducible exact Changes.refl _ _
    | with_reducible apply Changes.ite
    | with_reducible apply hostWrite_changes
    | with_reducible apply modStall_changes
    | with_reducible apply refuseReg_changes
    | with_reducible apply heff
    | exact Part.sub_trans (by decide) hp
    | exact Part.mem hp (by decide)
    | (intro _; try dsimp only)
    | split

theorem haltCommand_changes {P : List Part} {s₀ : State} (n : StallId) (s : State) (hp : Part.sub [.funcs, .irqs, .stalls, .slices, .voices, .seqs, .chans, .nodes, .books, .flights, .nextFlight, .hub, .riders, .fasts, .queues, .farriers, .feeds, .freeCtr] P = true)  (hc : Changes P s₀ s) : Changes P s₀ (haltCommand n s) := by
  unfold haltCommand
  try dsimp only
  repeat' first
    | with_reducible assumption
    | with_reducible exact Changes.refl _ _
    | with_reducible apply Changes.ite
    | with_reducible apply haltStall_changes
    | with_reducible apply modStall_changes
    | exact Part.sub_trans (by decide) hp
    | exact Part.mem hp (by decide)
    | (intro _; try dsimp only)
    | split

theorem execHalt_changes {P : List Part} {s₀ : State} (f : Func) (n : StallId) (s : State) (hp : Part.sub [.funcs, .irqs, .stalls, .slices, .voices, .seqs, .chans, .nodes, .books, .flights, .nextFlight, .hub, .riders, .fasts, .queues, .farriers, .feeds, .freeCtr] P = true)  (hc : Changes P s₀ s) : ResChanges P s₀ (execHalt f n s) := by
  unfold execHalt
  try dsimp only
  repeat' first
    | with_reducible assumption
    | with_reducible exact Changes.refl _ _
    | with_reducible apply Changes.ite
    | with_reducible apply ResChanges.next
    | with_reducible exact ResChanges.fault _
    | with_reducible exact ResChanges.refused _
    | with_reducible apply ResChanges.ite
    | with_reducible apply haltCommand_changes
    | with_reducible apply stallCommand_changes
    | exact Part.sub_trans (by decide) hp
    | exact Part.mem hp (by decide)
    | (intro _; try dsimp only)
    | split

theorem powerDownStall_changes {P : List Part} {s₀ : State} (n : StallId) (s : State) (hp : Part.sub [.funcs, .irqs, .power, .tack, .stallImages, .stalls, .gaits, .slices, .acqs, .voices, .seqs, .chans, .units, .nodes, .cells, .books, .flights, .nextFlight, .hub, .riders, .lines, .fasts, .groups, .queues, .qdir, .farriers, .trims, .watches, .hbm, .library, .descs, .kernels, .store, .held, .latched] P = true)  (hc : Changes P s₀ s) : Changes P s₀ (powerDownStall n s) := by
  unfold powerDownStall
  try dsimp only
  repeat' first
    | with_reducible assumption
    | with_reducible exact Changes.refl _ _
    | with_reducible apply Changes.ite
    | with_reducible apply endPowerDown_changes
    | with_reducible apply linesSafe_changes
    | with_reducible apply modStall_changes
    | exact Part.sub_trans (by decide) hp
    | exact Part.mem hp (by decide)
    | (intro _; try dsimp only)
    | split

theorem execPowerDown_changes {P : List Part} {s₀ : State} (f : Func) (n : StallId) (s : State) (hp : Part.sub [.funcs, .irqs, .power, .tack, .stallImages, .stalls, .gaits, .slices, .acqs, .voices, .seqs, .chans, .units, .nodes, .cells, .books, .flights, .nextFlight, .hub, .riders, .lines, .fasts, .groups, .queues, .qdir, .farriers, .trims, .watches, .hbm, .library, .descs, .kernels, .store, .held, .latched] P = true)  (hc : Changes P s₀ s) : ResChanges P s₀ (execPowerDown f n s) := by
  unfold execPowerDown
  try dsimp only
  repeat' first
    | with_reducible assumption
    | with_reducible exact Changes.refl _ _
    | with_reducible apply Changes.ite
    | with_reducible apply ResChanges.next
    | with_reducible exact ResChanges.fault _
    | with_reducible exact ResChanges.refused _
    | with_reducible apply ResChanges.ite
    | with_reducible apply powerDownStall_changes
    | with_reducible apply stallCommand_changes
    | exact Part.sub_trans (by decide) hp
    | exact Part.mem hp (by decide)
    | (intro _; try dsimp only)
    | split

theorem unloadStall_changes {P : List Part} {s₀ : State} (n : StallId) (s : State) (hp : Part.sub [.funcs, .irqs, .stallImages, .stalls, .slices, .acqs, .voices, .seqs, .units, .nodes, .books, .flights, .nextFlight, .hub, .riders, .lines, .queues, .qdir, .farriers, .trims, .watches, .hbm] P = true)  (hc : Changes P s₀ s) : Changes P s₀ (unloadStall n s) := by
  unfold unloadStall
  try dsimp only
  repeat' first
    | with_reducible assumption
    | with_reducible exact Changes.refl _ _
    | with_reducible apply Changes.ite
    | with_reducible apply discardImage_changes
    | with_reducible apply endStallOp_changes
    | with_reducible apply toStabled_changes
    | exact Part.sub_trans (by decide) hp
    | exact Part.mem hp (by decide)
    | (intro _; try dsimp only)
    | split

theorem execUnload_changes {P : List Part} {s₀ : State} (f : Func) (n : StallId) (s : State) (hp : Part.sub [.funcs, .irqs, .stallImages, .stalls, .slices, .acqs, .voices, .seqs, .units, .nodes, .books, .flights, .nextFlight, .hub, .riders, .lines, .queues, .qdir, .farriers, .trims, .watches, .hbm] P = true)  (hc : Changes P s₀ s) : ResChanges P s₀ (execUnload f n s) := by
  unfold execUnload
  try dsimp only
  repeat' first
    | with_reducible assumption
    | with_reducible exact Changes.refl _ _
    | with_reducible apply Changes.ite
    | with_reducible apply ResChanges.next
    | with_reducible exact ResChanges.fault _
    | with_reducible exact ResChanges.refused _
    | with_reducible apply ResChanges.ite
    | with_reducible apply stallCommand_changes
    | with_reducible apply unloadStall_changes
    | exact Part.sub_trans (by decide) hp
    | exact Part.mem hp (by decide)
    | (intro _; try dsimp only)
    | split

theorem drainStall_changes {P : List Part} {s₀ : State} (n : StallId) (s : State) (hp : Part.sub [.funcs, .irqs, .stalls, .seqs, .chans, .nodes, .books, .flights, .nextFlight, .hub, .riders, .queues, .feeds] P = true)  (hc : Changes P s₀ s) : Changes P s₀ (drainStall n s) := by
  unfold drainStall
  try dsimp only
  repeat' first
    | with_reducible assumption
    | with_reducible exact Changes.refl _ _
    | with_reducible apply Changes.ite
    | with_reducible apply drainRider_changes
    | with_reducible apply enterResting_changes
    | with_reducible apply forEach_changes
    | with_reducible apply modStall_changes
    | exact Part.sub_trans (by decide) hp
    | exact Part.mem hp (by decide)
    | (intro _; try dsimp only)
    | split

theorem execDrain_changes {P : List Part} {s₀ : State} (f : Func) (n : StallId) (s : State) (hp : Part.sub [.funcs, .irqs, .stalls, .seqs, .chans, .nodes, .books, .flights, .nextFlight, .hub, .riders, .queues, .feeds] P = true)  (hc : Changes P s₀ s) : ResChanges P s₀ (execDrain f n s) := by
  unfold execDrain
  try dsimp only
  repeat' first
    | with_reducible assumption
    | with_reducible exact Changes.refl _ _
    | with_reducible apply Changes.ite
    | with_reducible apply ResChanges.next
    | with_reducible exact ResChanges.fault _
    | with_reducible exact ResChanges.refused _
    | with_reducible apply ResChanges.ite
    | with_reducible apply drainStall_changes
    | with_reducible apply stallCommand_changes
    | exact Part.sub_trans (by decide) hp
    | exact Part.mem hp (by decide)
    | (intro _; try dsimp only)
    | split

theorem startStall_changes {P : List Part} {s₀ : State} (n : StallId) (s : State) (hp : Part.sub [.funcs, .irqs, .stalls, .slices, .nodes, .books, .flights, .nextFlight, .hub, .riders] P = true)  (hc : Changes P s₀ s) : Changes P s₀ (startStall n s) := by
  unfold startStall
  try dsimp only
  repeat' first
    | with_reducible assumption
    | with_reducible exact Changes.refl _ _
    | with_reducible apply Changes.ite
    | with_reducible apply endStallOp_changes
    | with_reducible apply forEach_changes
    | with_reducible apply modRider_changes
    | with_reducible apply modStall_changes
    | with_reducible apply openPort_changes
    | with_reducible apply setLife_changes
    | exact Part.sub_trans (by decide) hp
    | exact Part.mem hp (by decide)
    | (intro _; try dsimp only)
    | split

theorem execStart_changes {P : List Part} {s₀ : State} (f : Func) (n : StallId) (s : State) (hp : Part.sub [.funcs, .irqs, .stalls, .slices, .nodes, .books, .flights, .nextFlight, .hub, .riders] P = true)  (hc : Changes P s₀ s) : ResChanges P s₀ (execStart f n s) := by
  unfold execStart
  try dsimp only
  repeat' first
    | with_reducible assumption
    | with_reducible exact Changes.refl _ _
    | with_reducible apply Changes.ite
    | with_reducible apply ResChanges.next
    | with_reducible exact ResChanges.fault _
    | with_reducible exact ResChanges.refused _
    | with_reducible apply ResChanges.ite
    | with_reducible apply stallCommand_changes
    | with_reducible apply startStall_changes
    | exact Part.sub_trans (by decide) hp
    | exact Part.mem hp (by decide)
    | (intro _; try dsimp only)
    | split

theorem execPowerUp_changes {P : List Part} {s₀ : State} (f : Func) (n : StallId) (found : PowerUpFound) (s : State) (hp : Part.sub [.funcs, .irqs, .power, .persist, .tack, .stallImages, .stalls, .gaits, .slices, .acqs, .voices, .seqs, .chans, .units, .nodes, .cells, .books, .flights, .nextFlight, .hub, .riders, .lines, .fasts, .groups, .queues, .qdir, .farriers, .trims, .watches, .hbm, .library, .descs, .kernels, .store, .held, .latched] P = true)  (hc : Changes P s₀ s) : ResChanges P s₀ (execPowerUp f n found s) := by
  unfold execPowerUp
  try dsimp only
  repeat' first
    | with_reducible assumption
    | with_reducible exact Changes.refl _ _
    | with_reducible apply Changes.ite
    | with_reducible apply ResChanges.next
    | with_reducible exact ResChanges.fault _
    | with_reducible exact ResChanges.refused _
    | with_reducible apply ResChanges.ite
    | with_reducible apply stallCommand_changes
    | with_reducible apply startPowerUp_changes
    | exact Part.sub_trans (by decide) hp
    | exact Part.mem hp (by decide)
    | (intro _; try dsimp only)
    | split

theorem losePower_changes {P : List Part} {s₀ : State} (n : StallId) (bring : Tab PowerUpFound) (s : State) (hp : Part.sub [.funcs, .irqs, .power, .persist, .tack, .stallImages, .stalls, .gaits, .slices, .acqs, .voices, .seqs, .chans, .units, .nodes, .cells, .books, .flights, .nextFlight, .hub, .riders, .lines, .fasts, .groups, .queues, .qdir, .farriers, .trims, .watches, .hbm, .library, .descs, .kernels, .store, .held, .latched] P = true)  (hc : Changes P s₀ s) : Changes P s₀ (losePower n bring s) := by
  unfold losePower
  try dsimp only
  repeat' first
    | with_reducible assumption
    | with_reducible exact Changes.refl _ _
    | with_reducible apply Changes.ite
    | with_reducible apply bringOn_changes
    | with_reducible apply endStallOp_changes
    | with_reducible apply modStall_changes
    | with_reducible apply record_changes
    | with_reducible apply stallOff_changes
    | exact Part.sub_trans (by decide) hp
    | exact Part.mem hp (by decide)
    | (intro _; try dsimp only)
    | split

theorem readbackMismatch_changes {P : List Part} {s₀ : State} (i : SliceId) (s : State) (hp : Part.sub [.funcs, .irqs, .stalls, .slices, .acqs, .chans, .units, .riders, .farriers, .hbm] P = true)  (hc : Changes P s₀ s) : Changes P s₀ (readbackMismatch i s) := by
  unfold readbackMismatch
  try dsimp only
  repeat' first
    | with_reducible assumption
    | with_reducible exact Changes.refl _ _
    | with_reducible apply Changes.ite
    | with_reducible apply converterFault_changes
    | with_reducible apply record_changes
    | exact Part.sub_trans (by decide) hp
    | exact Part.mem hp (by decide)
    | (intro _; try dsimp only)
    | split

theorem execSwitchReadbackMismatch_changes {P : List Part} {s₀ : State} (slice : SliceId) (s : State) (hp : Part.sub [.funcs, .irqs, .stalls, .slices, .acqs, .chans, .units, .riders, .farriers, .hbm] P = true)  (hc : Changes P s₀ s) : ResChanges P s₀ (execSwitchReadbackMismatch slice s) := by
  unfold execSwitchReadbackMismatch
  try dsimp only
  repeat' first
    | with_reducible assumption
    | with_reducible exact Changes.refl _ _
    | with_reducible apply Changes.ite
    | with_reducible apply ResChanges.next
    | with_reducible exact ResChanges.fault _
    | with_reducible exact ResChanges.refused _
    | with_reducible apply ResChanges.ite
    | with_reducible apply readbackMismatch_changes
    | exact Part.sub_trans (by decide) hp
    | exact Part.mem hp (by decide)
    | (intro _; try dsimp only)
    | split

theorem restage_changes {P : List Part} {s₀ : State} (i : SliceId) (s : State) (hp : Part.sub [.voices] P = true)  (hc : Changes P s₀ s) : Changes P s₀ (restage i s) := by
  unfold restage
  try dsimp only
  repeat' first
    | with_reducible assumption
    | with_reducible exact Changes.refl _ _
    | with_reducible apply Changes.ite
    | with_reducible apply stageTrims_changes
    | exact Part.sub_trans (by decide) hp
    | exact Part.mem hp (by decide)
    | (intro _; try dsimp only)
    | split

theorem forcedComplete_changes {P : List Part} {s₀ : State} (n : StallId) (k : SliceKind) (s : State) (hp : Part.sub [.stalls, .slices, .voices, .chans, .units, .riders] P = true)  (hc : Changes P s₀ s) : Changes P s₀ (forcedComplete n k s) := by
  unfold forcedComplete
  try dsimp only
  repeat' first
    | with_reducible assumption
    | with_reducible exact Changes.refl _ _
    | with_reducible apply Changes.ite
    | with_reducible apply markSliceShots_changes
    | with_reducible apply modSpare_changes
    | with_reducible apply openPort_changes
    | with_reducible apply restage_changes
    | exact Part.sub_trans (by decide) hp
    | exact Part.mem hp (by decide)
    | (intro _; try dsimp only)
    | split

theorem execForcedTakeoverComplete_changes {P : List Part} {s₀ : State} (n : StallId) (kind : SliceKind) (s : State) (hp : Part.sub [.stalls, .slices, .voices, .chans, .units, .riders] P = true)  (hc : Changes P s₀ s) : ResChanges P s₀ (execForcedTakeoverComplete n kind s) := by
  unfold execForcedTakeoverComplete
  try dsimp only
  repeat' first
    | with_reducible assumption
    | with_reducible exact Changes.refl _ _
    | with_reducible apply Changes.ite
    | with_reducible apply ResChanges.next
    | with_reducible exact ResChanges.fault _
    | with_reducible exact ResChanges.refused _
    | with_reducible apply ResChanges.ite
    | with_reducible apply forcedComplete_changes
    | exact Part.sub_trans (by decide) hp
    | exact Part.mem hp (by decide)
    | (intro _; try dsimp only)
    | split

theorem execSliceConverterFault_changes {P : List Part} {s₀ : State} (slice : SliceId) (s : State) (hp : Part.sub [.funcs, .irqs, .stalls, .slices, .acqs, .chans, .units, .riders, .farriers, .hbm] P = true)  (hc : Changes P s₀ s) : ResChanges P s₀ (execSliceConverterFault slice s) := by
  unfold execSliceConverterFault
  try dsimp only
  repeat' first
    | with_reducible assumption
    | with_reducible exact Changes.refl _ _
    | with_reducible apply Changes.ite
    | with_reducible apply ResChanges.next
    | with_reducible exact ResChanges.fault _
    | with_reducible exact ResChanges.refused _
    | with_reducible apply ResChanges.ite
    | with_reducible apply converterFault_changes
    | exact Part.sub_trans (by decide) hp
    | exact Part.mem hp (by decide)
    | (intro _; try dsimp only)
    | split

theorem spareTimeout_changes {P : List Part} {s₀ : State} (n : StallId) (k : SliceKind) (s : State) (hp : Part.sub [.funcs, .irqs, .stalls] P = true)  (hc : Changes P s₀ s) : Changes P s₀ (spareTimeout n k s) := by
  unfold spareTimeout
  try dsimp only
  repeat' first
    | with_reducible assumption
    | with_reducible exact Changes.refl _ _
    | with_reducible apply Changes.ite
    | with_reducible apply endSpareOp_changes
    | with_reducible apply modSpare_changes
    | with_reducible apply record_changes
    | exact Part.sub_trans (by decide) hp
    | exact Part.mem hp (by decide)
    | (intro _; try dsimp only)
    | split

theorem execSpareSilenceTimeout_changes {P : List Part} {s₀ : State} (n : StallId) (kind : SliceKind) (s : State) (hp : Part.sub [.funcs, .irqs, .stalls] P = true)  (hc : Changes P s₀ s) : ResChanges P s₀ (execSpareSilenceTimeout n kind s) := by
  unfold execSpareSilenceTimeout
  try dsimp only
  repeat' first
    | with_reducible assumption
    | with_reducible exact Changes.refl _ _
    | with_reducible apply Changes.ite
    | with_reducible apply ResChanges.next
    | with_reducible exact ResChanges.fault _
    | with_reducible exact ResChanges.refused _
    | with_reducible apply ResChanges.ite
    | with_reducible apply spareTimeout_changes
    | exact Part.sub_trans (by decide) hp
    | exact Part.mem hp (by decide)
    | (intro _; try dsimp only)
    | split

theorem spareSwitch_changes {P : List Part} {s₀ : State} (n : StallId) (k : SliceKind) (s : State) (hp : Part.sub [.funcs, .irqs, .stalls, .voices] P = true)  (hc : Changes P s₀ s) : Changes P s₀ (spareSwitch n k s) := by
  unfold spareSwitch
  try dsimp only
  repeat' first
    | with_reducible assumption
    | with_reducible exact Changes.refl _ _
    | with_reducible apply Changes.ite
    | with_reducible apply endSpareOp_changes
    | with_reducible apply modSpare_changes
    | with_reducible apply restage_changes
    | exact Part.sub_trans (by decide) hp
    | exact Part.mem hp (by decide)
    | (intro _; try dsimp only)
    | split

theorem execSpareSwitch_changes {P : List Part} {s₀ : State} (n : StallId) (kind : SliceKind) (s : State) (hp : Part.sub [.funcs, .irqs, .stalls, .voices] P = true)  (hc : Changes P s₀ s) : ResChanges P s₀ (execSpareSwitch n kind s) := by
  unfold execSpareSwitch
  try dsimp only
  repeat' first
    | with_reducible assumption
    | with_reducible exact Changes.refl _ _
    | with_reducible apply Changes.ite
    | with_reducible apply ResChanges.next
    | with_reducible exact ResChanges.fault _
    | with_reducible exact ResChanges.refused _
    | with_reducible apply ResChanges.ite
    | with_reducible apply spareSwitch_changes
    | exact Part.sub_trans (by decide) hp
    | exact Part.mem hp (by decide)
    | (intro _; try dsimp only)
    | split

theorem execStallPowerLoss_changes {P : List Part} {s₀ : State} (n : StallId) (domain : BitVec 8) (bring : Tab PowerUpFound) (s : State) (hp : Part.sub [.funcs, .irqs, .power, .persist, .tack, .stallImages, .stalls, .gaits, .slices, .acqs, .voices, .seqs, .chans, .units, .nodes, .cells, .books, .flights, .nextFlight, .hub, .riders, .lines, .fasts, .groups, .queues, .qdir, .farriers, .trims, .watches, .hbm, .library, .descs, .kernels, .store, .held, .latched] P = true)  (hc : Changes P s₀ s) : ResChanges P s₀ (execStallPowerLoss n domain bring s) := by
  unfold execStallPowerLoss
  try dsimp only
  repeat' first
    | with_reducible assumption
    | with_reducible exact Changes.refl _ _
    | with_reducible apply Changes.ite
    | with_reducible apply ResChanges.next
    | with_reducible exact ResChanges.fault _
    | with_reducible exact ResChanges.refused _
    | with_reducible apply ResChanges.ite
    | with_reducible apply losePower_changes
    | with_reducible apply setDomains_changes
    | exact Part.sub_trans (by decide) hp
    | exact Part.mem hp (by decide)
    | (intro _; try dsimp only)
    | split

theorem drainTimedOut_changes {P : List Part} {s₀ : State} (n : StallId) (s : State) (hp : Part.sub [.funcs, .irqs, .stalls, .slices, .voices, .seqs, .chans, .nodes, .books, .flights, .nextFlight, .hub, .riders, .fasts, .queues, .qdir, .feeds] P = true)  (hc : Changes P s₀ s) : Changes P s₀ (drainTimedOut n s) := by
  unfold drainTimedOut
  try dsimp only
  repeat' first
    | with_reducible assumption
    | with_reducible exact Changes.refl _ _
    | with_reducible apply Changes.ite
    | with_reducible apply askStop_changes
    | with_reducible apply forEach_changes
    | with_reducible apply modStall_changes
    | with_reducible apply toHarnessed_changes
    | exact Part.sub_trans (by decide) hp
    | exact Part.mem hp (by decide)
    | (intro _; try dsimp only)
    | split

theorem execDrainTimeout_changes {P : List Part} {s₀ : State} (n : StallId) (s : State) (hp : Part.sub [.funcs, .irqs, .stalls, .slices, .voices, .seqs, .chans, .nodes, .books, .flights, .nextFlight, .hub, .riders, .fasts, .queues, .qdir, .feeds] P = true)  (hc : Changes P s₀ s) : ResChanges P s₀ (execDrainTimeout n s) := by
  unfold execDrainTimeout
  try dsimp only
  repeat' first
    | with_reducible assumption
    | with_reducible exact Changes.refl _ _
    | with_reducible apply Changes.ite
    | with_reducible apply ResChanges.next
    | with_reducible exact ResChanges.fault _
    | with_reducible exact ResChanges.refused _
    | with_reducible apply ResChanges.ite
    | with_reducible apply drainTimedOut_changes
    | exact Part.sub_trans (by decide) hp
    | exact Part.mem hp (by decide)
    | (intro _; try dsimp only)
    | split

theorem execRidersAllStopped_changes {P : List Part} {s₀ : State} (n : StallId) (s : State) (hp : Part.sub [.funcs, .irqs, .stalls, .slices, .voices, .seqs, .chans, .nodes, .books, .flights, .nextFlight, .hub, .riders, .fasts, .queues, .qdir] P = true)  (hc : Changes P s₀ s) : ResChanges P s₀ (execRidersAllStopped n s) := by
  unfold execRidersAllStopped
  try dsimp only
  repeat' first
    | with_reducible assumption
    | with_reducible exact Changes.refl _ _
    | with_reducible apply Changes.ite
    | with_reducible apply ResChanges.next
    | with_reducible exact ResChanges.fault _
    | with_reducible exact ResChanges.refused _
    | with_reducible apply ResChanges.ite
    | with_reducible apply toHarnessed_changes
    | exact Part.sub_trans (by decide) hp
    | exact Part.mem hp (by decide)
    | (intro _; try dsimp only)
    | split

theorem execStallFatalFault_changes {P : List Part} {s₀ : State} (n : StallId) (code : Code) (object : Word) (s : State) (hp : Part.sub [.funcs, .irqs, .stalls, .slices, .voices, .seqs, .chans, .nodes, .books, .flights, .nextFlight, .hub, .riders, .fasts, .queues, .farriers, .feeds, .freeCtr] P = true)  (hc : Changes P s₀ s) : ResChanges P s₀ (execStallFatalFault n code object s) := by
  unfold execStallFatalFault
  try dsimp only
  repeat' first
    | with_reducible assumption
    | with_reducible exact Changes.refl _ _
    | with_reducible apply Changes.ite
    | with_reducible apply ResChanges.next
    | with_reducible exact ResChanges.fault _
    | with_reducible exact ResChanges.refused _
    | with_reducible apply ResChanges.ite
    | with_reducible apply fatalStall_changes
    | with_reducible apply record_changes
    | exact Part.sub_trans (by decide) hp
    | exact Part.mem hp (by decide)
    | (intro _; try dsimp only)
    | split

theorem notAligned_changes {P : List Part} {s₀ : State} (n : StallId) (bring : Tab PowerUpFound) (s : State) (hp : Part.sub [.funcs, .irqs, .power, .persist, .tack, .stallImages, .stalls, .gaits, .slices, .acqs, .voices, .seqs, .chans, .units, .nodes, .cells, .books, .flights, .nextFlight, .hub, .riders, .lines, .fasts, .groups, .queues, .qdir, .farriers, .trims, .watches, .hbm, .library, .descs, .kernels, .store, .held, .latched] P = true)  (hc : Changes P s₀ s) : Changes P s₀ (notAligned n bring s) := by
  unfold notAligned
  try dsimp only
  repeat' first
    | with_reducible assumption
    | with_reducible exact Changes.refl _ _
    | with_reducible apply Changes.ite
    | with_reducible apply bringOn_changes
    | with_reducible apply endStallOp_changes
    | with_reducible apply record_changes
    | with_reducible apply stallOff_changes
    | exact Part.sub_trans (by decide) hp
    | exact Part.mem hp (by decide)
    | (intro _; try dsimp only)
    | split

theorem execAlignmentTimeout_changes {P : List Part} {s₀ : State} (n : StallId) (bring : Tab PowerUpFound) (s : State) (hp : Part.sub [.funcs, .irqs, .power, .persist, .tack, .stallImages, .stalls, .gaits, .slices, .acqs, .voices, .seqs, .chans, .units, .nodes, .cells, .books, .flights, .nextFlight, .hub, .riders, .lines, .fasts, .groups, .queues, .qdir, .farriers, .trims, .watches, .hbm, .library, .descs, .kernels, .store, .held, .latched] P = true)  (hc : Changes P s₀ s) : ResChanges P s₀ (execAlignmentTimeout n bring s) := by
  unfold execAlignmentTimeout
  try dsimp only
  repeat' first
    | with_reducible assumption
    | with_reducible exact Changes.refl _ _
    | with_reducible apply Changes.ite
    | with_reducible apply ResChanges.next
    | with_reducible exact ResChanges.fault _
    | with_reducible exact ResChanges.refused _
    | with_reducible apply ResChanges.ite
    | with_reducible apply notAligned_changes
    | exact Part.sub_trans (by decide) hp
    | exact Part.mem hp (by decide)
    | (intro _; try dsimp only)
    | split

theorem aligned_changes {P : List Part} {s₀ : State} (n : StallId) (bring : Tab PowerUpFound) (s : State) (hp : Part.sub [.funcs, .irqs, .power, .persist, .tack, .stallImages, .stalls, .gaits, .slices, .acqs, .voices, .seqs, .chans, .units, .nodes, .cells, .books, .flights, .nextFlight, .hub, .riders, .lines, .fasts, .groups, .queues, .qdir, .farriers, .trims, .watches, .hbm, .library, .descs, .kernels, .store, .held, .latched] P = true)  (hc : Changes P s₀ s) : Changes P s₀ (aligned n bring s) := by
  unfold aligned
  try dsimp only
  repeat' first
    | with_reducible assumption
    | with_reducible exact Changes.refl _ _
    | with_reducible apply Changes.ite
    | with_reducible apply bringAligned_changes
    | with_reducible apply endStallOp_changes
    | with_reducible apply modStall_changes
    | with_reducible apply toStabled_changes
    | exact Part.sub_trans (by decide) hp
    | exact Part.mem hp (by decide)
    | (intro _; try dsimp only)
    | split

theorem execFrameAlignmentDone_changes {P : List Part} {s₀ : State} (n : StallId) (bring : Tab PowerUpFound) (s : State) (hp : Part.sub [.funcs, .irqs, .power, .persist, .tack, .stallImages, .stalls, .gaits, .slices, .acqs, .voices, .seqs, .chans, .units, .nodes, .cells, .books, .flights, .nextFlight, .hub, .riders, .lines, .fasts, .groups, .queues, .qdir, .farriers, .trims, .watches, .hbm, .library, .descs, .kernels, .store, .held, .latched] P = true)  (hc : Changes P s₀ s) : ResChanges P s₀ (execFrameAlignmentDone n bring s) := by
  unfold execFrameAlignmentDone
  try dsimp only
  repeat' first
    | with_reducible assumption
    | with_reducible exact Changes.refl _ _
    | with_reducible apply Changes.ite
    | with_reducible apply ResChanges.next
    | with_reducible exact ResChanges.fault _
    | with_reducible exact ResChanges.refused _
    | with_reducible apply ResChanges.ite
    | with_reducible apply aligned_changes
    | exact Part.sub_trans (by decide) hp
    | exact Part.mem hp (by decide)
    | (intro _; try dsimp only)
    | split

end Sys2Proof.Machine
end

