-- ==== Sys2Proof/Laws/ChangesPowerOps.lean ====
section
/-!
SUPPORT. What each operation of Machine/PowerOps.lean may change.
-/

set_option linter.unusedTactic false
set_option linter.unreachableTactic false
set_option linter.style.longLine false
set_option linter.unusedVariables false
set_option maxRecDepth 8000

namespace Sys2Proof.Machine

open Sys2Proof

theorem plainModule_changes {P : List Part} {s₀ : State} (line : Line → Line) (s : State) (hp : Part.sub [.clock, .host, .funcs, .irqs, .power, .persist, .tack, .spine, .herdImage, .hubImage, .stallImages, .stalls, .gaits, .slices, .acqs, .voices, .seqs, .chans, .units, .nodes, .cells, .books, .flights, .nextFlight, .hub, .riders, .lines, .fasts, .groups, .queues, .qdir, .farriers, .trims, .shotAudits, .lanes, .tether, .tc, .ethPorts, .domains, .pulses, .watches, .hks, .hkCtl, .hbm, .library, .descs, .kernels, .store, .held, .latched] P = true)  (hc : Changes P s₀ s) : Changes P s₀ (plainModule line s) := by
  unfold plainModule
  try dsimp only
  repeat' first
    | with_reducible assumption
    | with_reducible exact Changes.refl _ _
    | with_reducible apply Changes.ite
    | (refine Changes.trans hc ⟨fun p hn => ?_⟩; cases p <;> first | rfl | (rw [Part.mem hp (by decide)] at hn; cases hn))
    | exact Part.sub_trans (by decide) hp
    | exact Part.mem hp (by decide)
    | (intro _; try dsimp only)
    | split

theorem resetModule_changes {P : List Part} {s₀ : State} (cause : ResetCause) (w : ResetWorld) (s : State) (hp : Part.sub [.clock, .host, .funcs, .irqs, .power, .backup, .persist, .tack, .spine, .herdImage, .hubImage, .stallImages, .stalls, .gaits, .slices, .acqs, .voices, .seqs, .chans, .units, .nodes, .cells, .books, .flights, .nextFlight, .hub, .riders, .lines, .fasts, .groups, .queues, .qdir, .farriers, .trims, .shotAudits, .lanes, .tether, .tc, .ethPorts, .domains, .pulses, .watches, .hks, .hkCtl, .hbm, .library, .descs, .kernels, .store, .held, .latched] P = true)  (hc : Changes P s₀ s) : Changes P s₀ (resetModule cause w s) := by
  unfold resetModule
  try dsimp only
  repeat' first
    | with_reducible assumption
    | with_reducible exact Changes.refl _ _
    | with_reducible apply Changes.ite
    | with_reducible apply plainModule_changes
    | with_reducible apply record_changes
    | (refine Changes.trans hc ⟨fun p hn => ?_⟩; cases p <;> first | rfl | (rw [Part.mem hp (by decide)] at hn; cases hn))
    | exact Part.sub_trans (by decide) hp
    | exact Part.mem hp (by decide)
    | (intro _; try dsimp only)
    | split

theorem fatalAll_changes {P : List Part} {s₀ : State} (s : State) (hp : Part.sub [.funcs, .irqs, .stalls, .slices, .voices, .seqs, .chans, .nodes, .books, .flights, .nextFlight, .hub, .riders, .fasts, .queues, .farriers, .feeds, .freeCtr] P = true)  (hc : Changes P s₀ s) : Changes P s₀ (fatalAll s) := by
  unfold fatalAll
  try dsimp only
  repeat' first
    | with_reducible assumption
    | with_reducible exact Changes.refl _ _
    | with_reducible apply Changes.ite
    | with_reducible apply fatalStall_changes
    | with_reducible apply forEach_changes
    | exact Part.sub_trans (by decide) hp
    | exact Part.mem hp (by decide)
    | (intro _; try dsimp only)
    | split

theorem stallDomainFault_changes {P : List Part} {s₀ : State} (n : StallId) (k : Nat) (bring : Tab PowerUpFound) (s : State) (hp : Part.sub [.funcs, .irqs, .power, .persist, .tack, .stallImages, .stalls, .gaits, .slices, .acqs, .voices, .seqs, .chans, .units, .nodes, .cells, .books, .flights, .nextFlight, .hub, .riders, .lines, .fasts, .groups, .queues, .qdir, .farriers, .trims, .watches, .hbm, .library, .descs, .kernels, .store, .held, .latched] P = true)  (hc : Changes P s₀ s) : Changes P s₀ (stallDomainFault n k bring s) := by
  unfold stallDomainFault
  try dsimp only
  repeat' first
    | with_reducible assumption
    | with_reducible exact Changes.refl _ _
    | with_reducible apply Changes.ite
    | with_reducible apply converterFault_changes
    | with_reducible apply forEach_changes
    | with_reducible apply groupFault_changes
    | with_reducible apply losePower_changes
    | with_reducible apply modLine_changes
    | exact Part.sub_trans (by decide) hp
    | exact Part.mem hp (by decide)
    | (intro _; try dsimp only)
    | split

theorem domainFault_changes {P : List Part} {s₀ : State} (d : Nat) (bring : Tab PowerUpFound) (s : State) (hp : Part.sub [.funcs, .irqs, .power, .persist, .tack, .stallImages, .stalls, .gaits, .slices, .acqs, .voices, .seqs, .chans, .units, .nodes, .cells, .books, .flights, .nextFlight, .hub, .riders, .lines, .fasts, .groups, .queues, .qdir, .farriers, .trims, .watches, .feeds, .hbm, .library, .descs, .kernels, .store, .held, .latched, .freeCtr] P = true)  (hc : Changes P s₀ s) : Changes P s₀ (domainFault d bring s) := by
  unfold domainFault
  try dsimp only
  repeat' first
    | with_reducible assumption
    | with_reducible exact Changes.refl _ _
    | with_reducible apply Changes.ite
    | with_reducible apply fatalAll_changes
    | with_reducible apply record_changes
    | with_reducible apply setPower_changes
    | with_reducible apply stallDomainFault_changes
    | exact Part.sub_trans (by decide) hp
    | exact Part.mem hp (by decide)
    | (intro _; try dsimp only)
    | split

theorem bootFromStep3_changes {P : List Part} {s₀ : State} (src : BitVec 2) (bring : Tab PowerUpFound) (s : State) (hp : Part.sub [.clock, .funcs, .irqs, .power, .persist, .tack, .stallImages, .stalls, .gaits, .slices, .acqs, .voices, .seqs, .chans, .units, .nodes, .cells, .books, .flights, .nextFlight, .hub, .riders, .lines, .fasts, .groups, .queues, .qdir, .farriers, .trims, .tc, .watches, .hbm, .library, .descs, .kernels, .store, .held, .latched] P = true)  (hc : Changes P s₀ s) : Changes P s₀ (bootFromStep3 src bring s) := by
  unfold bootFromStep3
  try dsimp only
  repeat' first
    | with_reducible assumption
    | with_reducible exact Changes.refl _ _
    | with_reducible apply Changes.ite
    | with_reducible apply bootStep6_changes
    | with_reducible apply forEach_changes
    | with_reducible apply modLine_changes
    | with_reducible apply setClock_changes
    | with_reducible apply setPower_changes
    | with_reducible apply setTime_changes
    | with_reducible apply startFlashHerd_changes
    | exact Part.sub_trans (by decide) hp
    | exact Part.mem hp (by decide)
    | (intro _; try dsimp only)
    | split

theorem checkKeys_changes {P : List Part} {s₀ : State} (found : BootFound) (s : State) (hp : Part.sub [.funcs, .backup, .persist] P = true)  (hc : Changes P s₀ s) : Changes P s₀ (checkKeys found s) := by
  unfold checkKeys
  try dsimp only
  repeat' first
    | with_reducible assumption
    | with_reducible exact Changes.refl _ _
    | with_reducible apply Changes.ite
    | with_reducible apply record_changes
    | with_reducible apply setBackup_changes
    | with_reducible apply setPersist_changes
    | exact Part.sub_trans (by decide) hp
    | exact Part.mem hp (by decide)
    | (intro _; try dsimp only)
    | split

theorem checkFlux_changes {P : List Part} {s₀ : State} (l : LineId) (failA : Bool) (failB : Bool) (s : State) (hp : Part.sub [.funcs, .persist, .lines] P = true)  (hc : Changes P s₀ s) : Changes P s₀ (checkFlux l failA failB s) := by
  unfold checkFlux
  try dsimp only
  repeat' first
    | with_reducible assumption
    | with_reducible exact Changes.refl _ _
    | with_reducible apply Changes.ite
    | with_reducible apply modLine_changes
    | with_reducible apply recordLine_changes
    | with_reducible apply setPersist_changes
    | exact Part.sub_trans (by decide) hp
    | exact Part.mem hp (by decide)
    | (intro _; try dsimp only)
    | split

theorem checkAllFlux_changes {P : List Part} {s₀ : State} (found : BootFound) (s : State) (hp : Part.sub [.funcs, .persist, .lines] P = true)  (hc : Changes P s₀ s) : Changes P s₀ (checkAllFlux found s) := by
  unfold checkAllFlux
  try dsimp only
  repeat' first
    | with_reducible assumption
    | with_reducible exact Changes.refl _ _
    | with_reducible apply Changes.ite
    | with_reducible apply checkFlux_changes
    | with_reducible apply forEach_changes
    | exact Part.sub_trans (by decide) hp
    | exact Part.mem hp (by decide)
    | (intro _; try dsimp only)
    | split

theorem listenDomains_changes {P : List Part} {s₀ : State} (s : State) (hp : Part.sub [.domains] P = true)  (hc : Changes P s₀ s) : Changes P s₀ (listenDomains s) := by
  unfold listenDomains
  try dsimp only
  repeat' first
    | with_reducible assumption
    | with_reducible exact Changes.refl _ _
    | with_reducible apply Changes.ite
    | with_reducible apply forEach_changes
    | with_reducible apply modDomain_changes
    | exact Part.sub_trans (by decide) hp
    | exact Part.mem hp (by decide)
    | (intro _; try dsimp only)
    | split

theorem checkBanks_changes {P : List Part} {s₀ : State} (found : BootFound) (s : State) (hp : Part.sub [.funcs, .power, .persist] P = true)  (hc : Changes P s₀ s) : Changes P s₀ (checkBanks found s) := by
  unfold checkBanks
  try dsimp only
  repeat' first
    | with_reducible assumption
    | with_reducible exact Changes.refl _ _
    | with_reducible apply Changes.ite
    | with_reducible apply record_changes
    | with_reducible apply setPersist_changes
    | with_reducible apply setPower_changes
    | exact Part.sub_trans (by decide) hp
    | exact Part.mem hp (by decide)
    | (intro _; try dsimp only)
    | split

theorem bootToStep3_changes {P : List Part} {s₀ : State} (found : BootFound) (s : State) (hp : Part.sub [.funcs, .power, .backup, .persist, .lines, .domains] P = true)  (hc : Changes P s₀ s) : Changes P s₀ (bootToStep3 found s) := by
  unfold bootToStep3
  try dsimp only
  repeat' first
    | with_reducible assumption
    | with_reducible exact Changes.refl _ _
    | with_reducible apply Changes.ite
    | with_reducible apply checkAllFlux_changes
    | with_reducible apply checkBanks_changes
    | with_reducible apply checkKeys_changes
    | with_reducible apply listenDomains_changes
    | with_reducible apply persistErrors_changes
    | with_reducible apply setPower_changes
    | exact Part.sub_trans (by decide) hp
    | exact Part.mem hp (by decide)
    | (intro _; try dsimp only)
    | split

theorem resetHost_changes {P : List Part} {s₀ : State} (s : State) (hp : Part.sub [.host, .funcs, .irqs] P = true)  (hc : Changes P s₀ s) : Changes P s₀ (resetHost s) := by
  unfold resetHost
  try dsimp only
  repeat' first
    | with_reducible assumption
    | with_reducible exact Changes.refl _ _
    | with_reducible apply Changes.ite
    | with_reducible apply record_changes
    | (refine Changes.trans hc ⟨fun p hn => ?_⟩; cases p <;> first | rfl | (rw [Part.mem hp (by decide)] at hn; cases hn))
    | exact Part.sub_trans (by decide) hp
    | exact Part.mem hp (by decide)
    | (intro _; try dsimp only)
    | split

theorem restartFeeds_changes {P : List Part} {s₀ : State} (s : State) (hp : Part.sub [.feeds] P = true)  (hc : Changes P s₀ s) : Changes P s₀ (restartFeeds s) := by
  unfold restartFeeds
  try dsimp only
  repeat' first
    | with_reducible assumption
    | with_reducible exact Changes.refl _ _
    | with_reducible apply Changes.ite
    | with_reducible apply forEach_changes
    | with_reducible apply modFeed_changes
    | exact Part.sub_trans (by decide) hp
    | exact Part.mem hp (by decide)
    | (intro _; try dsimp only)
    | split

theorem finalFeeds_changes {P : List Part} {s₀ : State} (s : State) (hp : Part.sub [.feeds, .tally] P = true)  (hc : Changes P s₀ s) : Changes P s₀ (finalFeeds s) := by
  unfold finalFeeds
  try dsimp only
  repeat' first
    | with_reducible assumption
    | with_reducible exact Changes.refl _ _
    | with_reducible apply Changes.ite
    | with_reducible apply forEach_changes
    | with_reducible apply sendFeed_changes
    | with_reducible apply takeMessage_changes
    | with_reducible apply tallyLog_changes
    | exact Part.sub_trans (by decide) hp
    | exact Part.mem hp (by decide)
    | (intro _; try dsimp only)
    | split

theorem modSupply_changes {P : List Part} {s₀ : State} (second : Bool) (f : Supply → Supply) (s : State) (hp : Part.sub [.power] P = true)  (hc : Changes P s₀ s) : Changes P s₀ (modSupply second f s) := by
  unfold modSupply
  try dsimp only
  repeat' first
    | with_reducible assumption
    | with_reducible exact Changes.refl _ _
    | with_reducible apply Changes.ite
    | with_reducible apply setPower_changes
    | exact Part.sub_trans (by decide) hp
    | exact Part.mem hp (by decide)
    | (intro _; try dsimp only)
    | split

end Sys2Proof.Machine
end

