-- ==== Sys2Proof/Laws/ChangesPower.lean ====
section
/-!
SUPPORT. What each operation of Machine/Power.lean may change.
-/

set_option linter.unusedTactic false
set_option linter.unreachableTactic false
set_option linter.style.longLine false
set_option linter.unusedVariables false
set_option maxRecDepth 8000

namespace Sys2Proof.Machine

open Sys2Proof

theorem fwWritten_changes {P : List Part} {s₀ : State} (version : Word) (good : Bool) (s : State) (hp : Part.sub [.funcs, .irqs, .power, .persist, .freeCtr] P = true)  (hc : Changes P s₀ s) : Changes P s₀ (fwWritten version good s) := by
  unfold fwWritten
  try dsimp only
  repeat' first
    | with_reducible assumption
    | with_reducible exact Changes.refl _ _
    | with_reducible apply Changes.ite
    | with_reducible apply freshen_changes
    | with_reducible apply raise_changes
    | with_reducible apply setPersist_changes
    | with_reducible apply setPower_changes
    | exact Part.sub_trans (by decide) hp
    | exact Part.mem hp (by decide)
    | (intro _; try dsimp only)
    | split

theorem execFwWriteDone_changes {P : List Part} {s₀ : State} (good : Bool) (s : State) (hp : Part.sub [.funcs, .irqs, .power, .persist, .freeCtr] P = true)  (hc : Changes P s₀ s) : ResChanges P s₀ (execFwWriteDone good s) := by
  unfold execFwWriteDone
  try dsimp only
  repeat' first
    | with_reducible assumption
    | with_reducible exact Changes.refl _ _
    | with_reducible apply Changes.ite
    | with_reducible apply ResChanges.next
    | with_reducible exact ResChanges.fault _
    | with_reducible exact ResChanges.refused _
    | with_reducible apply ResChanges.ite
    | with_reducible apply fwWritten_changes
    | exact Part.sub_trans (by decide) hp
    | exact Part.mem hp (by decide)
    | (intro _; try dsimp only)
    | split

theorem rwpWrite_changes {P : List Part} {s₀ : State} (r : RwpReg) (val : Word) (s : State) (hp : Part.sub [.funcs, .persist, .tc] P = true)  (hc : Changes P s₀ s) : Changes P s₀ (rwpWrite r val s) := by
  unfold rwpWrite
  try dsimp only
  repeat' first
    | with_reducible assumption
    | with_reducible exact Changes.refl _ _
    | with_reducible apply Changes.ite
    | with_reducible apply evalServo_changes
    | with_reducible apply setPersist_changes
    | exact Part.sub_trans (by decide) hp
    | exact Part.mem hp (by decide)
    | (intro _; try dsimp only)
    | split

theorem execRwpWrite_changes {P : List Part} {s₀ : State} (f : Func) (reg : RwpReg) (val : Word) (s : State) (hp : Part.sub [.funcs, .persist, .tc] P = true)  (hc : Changes P s₀ s) : ResChanges P s₀ (execRwpWrite f reg val s) := by
  unfold execRwpWrite
  try dsimp only
  repeat' first
    | with_reducible assumption
    | with_reducible exact Changes.refl _ _
    | with_reducible apply Changes.ite
    | with_reducible apply ResChanges.next
    | with_reducible exact ResChanges.fault _
    | with_reducible exact ResChanges.refused _
    | with_reducible apply ResChanges.ite
    | with_reducible apply hostCheck_changes
    | with_reducible apply rwpWrite_changes
    | exact Part.sub_trans (by decide) hp
    | exact Part.mem hp (by decide)
    | (intro _; try dsimp only)
    | split

theorem rtcHi_changes {P : List Part} {s₀ : State} (val : Word) (s : State) (hp : Part.sub [.backup, .held] P = true)  (hc : Changes P s₀ s) : Changes P s₀ (rtcHi val s) := by
  unfold rtcHi
  try dsimp only
  repeat' first
    | with_reducible assumption
    | with_reducible exact Changes.refl _ _
    | with_reducible apply Changes.ite
    | with_reducible apply dropHeld_changes
    | with_reducible apply setBackup_changes
    | exact Part.sub_trans (by decide) hp
    | exact Part.mem hp (by decide)
    | (intro _; try dsimp only)
    | split

theorem execRtcHiWrite_changes {P : List Part} {s₀ : State} (f : Func) (val : Word) (s : State) (hp : Part.sub [.funcs, .backup, .held] P = true)  (hc : Changes P s₀ s) : ResChanges P s₀ (execRtcHiWrite f val s) := by
  unfold execRtcHiWrite
  try dsimp only
  repeat' first
    | with_reducible assumption
    | with_reducible exact Changes.refl _ _
    | with_reducible apply Changes.ite
    | with_reducible apply ResChanges.next
    | with_reducible exact ResChanges.fault _
    | with_reducible exact ResChanges.refused _
    | with_reducible apply ResChanges.ite
    | with_reducible apply hostWrite_changes
    | with_reducible apply rtcHi_changes
    | exact Part.sub_trans (by decide) hp
    | exact Part.mem hp (by decide)
    | (intro _; try dsimp only)
    | split

theorem powerOp_changes {P : List Part} {s₀ : State} (g : OpStatus → OpStatus) (s : State) (hp : Part.sub [.power] P = true)  (hc : Changes P s₀ s) : Changes P s₀ (powerOp g s) := by
  unfold powerOp
  try dsimp only
  repeat' first
    | with_reducible assumption
    | with_reducible exact Changes.refl _ _
    | with_reducible apply Changes.ite
    | with_reducible apply setPower_changes
    | exact Part.sub_trans (by decide) hp
    | exact Part.mem hp (by decide)
    | (intro _; try dsimp only)
    | split

theorem powerCommand_changes {P : List Part} {s₀ : State} (f : Func) (code : State → Option Code) (eff : State → State) (s : State) (hp : Part.sub [.funcs, .power] P = true) (heff : ∀ y0, Changes P s₀ y0 → Changes P s₀ (eff y0)) (hc : Changes P s₀ s) : Changes P s₀ (powerCommand f code eff s) := by
  unfold powerCommand
  try dsimp only
  repeat' first
    | with_reducible assumption
    | with_reducible exact Changes.refl _ _
    | with_reducible apply Changes.ite
    | with_reducible apply powerOp_changes
    | with_reducible apply spineCommand_changes
    | with_reducible apply heff
    | exact Part.sub_trans (by decide) hp
    | exact Part.mem hp (by decide)
    | (intro _; try dsimp only)
    | split

theorem execFwSwitch_changes {P : List Part} {s₀ : State} (f : Func) (key : BitVec 16) (s : State) (hp : Part.sub [.funcs, .power] P = true)  (hc : Changes P s₀ s) : ResChanges P s₀ (execFwSwitch f key s) := by
  unfold execFwSwitch
  try dsimp only
  repeat' first
    | with_reducible assumption
    | with_reducible exact Changes.refl _ _
    | with_reducible apply Changes.ite
    | with_reducible apply ResChanges.next
    | with_reducible exact ResChanges.fault _
    | with_reducible exact ResChanges.refused _
    | with_reducible apply ResChanges.ite
    | with_reducible apply powerCommand_changes
    | with_reducible apply setPower_changes
    | exact Part.sub_trans (by decide) hp
    | exact Part.mem hp (by decide)
    | (intro _; try dsimp only)
    | split

theorem startFwWrite_changes {P : List Part} {s₀ : State} (version : Word) (s : State) (hp : Part.sub [.power] P = true)  (hc : Changes P s₀ s) : Changes P s₀ (startFwWrite version s) := by
  unfold startFwWrite
  try dsimp only
  repeat' first
    | with_reducible assumption
    | with_reducible exact Changes.refl _ _
    | with_reducible apply Changes.ite
    | with_reducible apply setPower_changes
    | exact Part.sub_trans (by decide) hp
    | exact Part.mem hp (by decide)
    | (intro _; try dsimp only)
    | split

theorem execFwWrite_changes {P : List Part} {s₀ : State} (f : Func) (key : BitVec 16) (_slot : SlotId) (sigOk : Bool) (version : Word) (s : State) (hp : Part.sub [.funcs, .power] P = true)  (hc : Changes P s₀ s) : ResChanges P s₀ (execFwWrite f key _slot sigOk version s) := by
  unfold execFwWrite
  try dsimp only
  repeat' first
    | with_reducible assumption
    | with_reducible exact Changes.refl _ _
    | with_reducible apply Changes.ite
    | with_reducible apply ResChanges.next
    | with_reducible exact ResChanges.fault _
    | with_reducible exact ResChanges.refused _
    | with_reducible apply ResChanges.ite
    | with_reducible apply powerCommand_changes
    | with_reducible apply startFwWrite_changes
    | exact Part.sub_trans (by decide) hp
    | exact Part.mem hp (by decide)
    | (intro _; try dsimp only)
    | split

theorem takeFactory_changes {P : List Part} {s₀ : State} (n : StallId) (s : State) (hp : Part.sub [.persist, .stalls, .slices, .farriers] P = true)  (hc : Changes P s₀ s) : Changes P s₀ (takeFactory n s) := by
  unfold takeFactory
  try dsimp only
  repeat' first
    | with_reducible assumption
    | with_reducible exact Changes.refl _ _
    | with_reducible apply Changes.ite
    | with_reducible apply forEach_changes
    | with_reducible apply modFarrier_changes
    | with_reducible apply modStall_changes
    | with_reducible apply modStud_changes
    | with_reducible apply openPort_changes
    | exact Part.sub_trans (by decide) hp
    | exact Part.mem hp (by decide)
    | (intro _; try dsimp only)
    | split

theorem acceptFactory_changes {P : List Part} {s₀ : State} (n : StallId) (s : State) (hp : Part.sub [.funcs, .irqs, .power, .persist, .stalls, .slices, .farriers] P = true)  (hc : Changes P s₀ s) : Changes P s₀ (acceptFactory n s) := by
  unfold acceptFactory
  try dsimp only
  repeat' first
    | with_reducible assumption
    | with_reducible exact Changes.refl _ _
    | with_reducible apply Changes.ite
    | with_reducible apply powerOp_changes
    | with_reducible apply raise_changes
    | with_reducible apply takeFactory_changes
    | exact Part.sub_trans (by decide) hp
    | exact Part.mem hp (by decide)
    | (intro _; try dsimp only)
    | split

theorem execAcceptFactory_changes {P : List Part} {s₀ : State} (f : Func) (key : BitVec 16) (n : StallId) (s : State) (hp : Part.sub [.funcs, .irqs, .power, .persist, .stalls, .slices, .farriers] P = true)  (hc : Changes P s₀ s) : ResChanges P s₀ (execAcceptFactory f key n s) := by
  unfold execAcceptFactory
  try dsimp only
  repeat' first
    | with_reducible assumption
    | with_reducible exact Changes.refl _ _
    | with_reducible apply Changes.ite
    | with_reducible apply ResChanges.next
    | with_reducible exact ResChanges.fault _
    | with_reducible exact ResChanges.refused _
    | with_reducible apply ResChanges.ite
    | with_reducible apply acceptFactory_changes
    | with_reducible apply powerCommand_changes
    | exact Part.sub_trans (by decide) hp
    | exact Part.mem hp (by decide)
    | (intro _; try dsimp only)
    | split

theorem execModuleReset_changes {P : List Part} {s₀ : State} (f : Func) (key : BitVec 16) (world : ResetWorld) (s : State) (hp : Part.sub [.clock, .host, .funcs, .irqs, .power, .backup, .persist, .tack, .spine, .herdImage, .hubImage, .stallImages, .stalls, .gaits, .slices, .acqs, .voices, .seqs, .chans, .units, .nodes, .cells, .books, .flights, .nextFlight, .hub, .riders, .lines, .fasts, .groups, .queues, .qdir, .farriers, .trims, .shotAudits, .lanes, .tether, .tc, .ethPorts, .domains, .pulses, .watches, .hks, .hkCtl, .hbm, .library, .descs, .kernels, .store, .held, .latched] P = true)  (hc : Changes P s₀ s) : ResChanges P s₀ (execModuleReset f key world s) := by
  unfold execModuleReset
  try dsimp only
  repeat' first
    | with_reducible assumption
    | with_reducible exact Changes.refl _ _
    | with_reducible apply Changes.ite
    | with_reducible apply ResChanges.next
    | with_reducible exact ResChanges.fault _
    | with_reducible exact ResChanges.refused _
    | with_reducible apply ResChanges.ite
    | with_reducible apply powerCommand_changes
    | with_reducible apply resetModule_changes
    | exact Part.sub_trans (by decide) hp
    | exact Part.mem hp (by decide)
    | (intro _; try dsimp only)
    | split

theorem execFanTrayFitted_changes {P : List Part} {s₀ : State} (s : State) (hp : Part.sub [.funcs, .power] P = true)  (hc : Changes P s₀ s) : ResChanges P s₀ (execFanTrayFitted s) := by
  unfold execFanTrayFitted
  try dsimp only
  repeat' first
    | with_reducible assumption
    | with_reducible exact Changes.refl _ _
    | with_reducible apply Changes.ite
    | with_reducible apply ResChanges.next
    | with_reducible exact ResChanges.fault _
    | with_reducible exact ResChanges.refused _
    | with_reducible apply ResChanges.ite
    | with_reducible apply record_changes
    | with_reducible apply setPower_changes
    | exact Part.sub_trans (by decide) hp
    | exact Part.mem hp (by decide)
    | (intro _; try dsimp only)
    | split

theorem execFanTrayRemoved_changes {P : List Part} {s₀ : State} (s : State) (hp : Part.sub [.funcs, .power] P = true)  (hc : Changes P s₀ s) : ResChanges P s₀ (execFanTrayRemoved s) := by
  unfold execFanTrayRemoved
  try dsimp only
  repeat' first
    | with_reducible assumption
    | with_reducible exact Changes.refl _ _
    | with_reducible apply Changes.ite
    | with_reducible apply ResChanges.next
    | with_reducible exact ResChanges.fault _
    | with_reducible exact ResChanges.refused _
    | with_reducible apply ResChanges.ite
    | with_reducible apply record_changes
    | with_reducible apply setPower_changes
    | exact Part.sub_trans (by decide) hp
    | exact Part.mem hp (by decide)
    | (intro _; try dsimp only)
    | split

theorem switchFirmware_changes {P : List Part} {s₀ : State} (s : State) (hp : Part.sub [.funcs, .irqs, .power, .persist] P = true)  (hc : Changes P s₀ s) : Changes P s₀ (switchFirmware s) := by
  unfold switchFirmware
  try dsimp only
  repeat' first
    | with_reducible assumption
    | with_reducible exact Changes.refl _ _
    | with_reducible apply Changes.ite
    | with_reducible apply raise_changes
    | with_reducible apply record_changes
    | with_reducible apply setPersist_changes
    | with_reducible apply setPower_changes
    | exact Part.sub_trans (by decide) hp
    | exact Part.mem hp (by decide)
    | (intro _; try dsimp only)
    | split

theorem execSpineSettlePoint_changes {P : List Part} {s₀ : State} (s : State) (hp : Part.sub [.funcs, .irqs, .power, .persist] P = true)  (hc : Changes P s₀ s) : ResChanges P s₀ (execSpineSettlePoint s) := by
  unfold execSpineSettlePoint
  try dsimp only
  repeat' first
    | with_reducible assumption
    | with_reducible exact Changes.refl _ _
    | with_reducible apply Changes.ite
    | with_reducible apply ResChanges.next
    | with_reducible exact ResChanges.fault _
    | with_reducible exact ResChanges.refused _
    | with_reducible apply ResChanges.ite
    | with_reducible apply switchFirmware_changes
    | exact Part.sub_trans (by decide) hp
    | exact Part.mem hp (by decide)
    | (intro _; try dsimp only)
    | split

theorem execPowerDomainFault_changes {P : List Part} {s₀ : State} (domain : BitVec 8) (bring : Tab PowerUpFound) (s : State) (hp : Part.sub [.funcs, .irqs, .power, .persist, .tack, .stallImages, .stalls, .gaits, .slices, .acqs, .voices, .seqs, .chans, .units, .nodes, .cells, .books, .flights, .nextFlight, .hub, .riders, .lines, .fasts, .groups, .queues, .qdir, .farriers, .trims, .watches, .feeds, .hbm, .library, .descs, .kernels, .store, .held, .latched, .freeCtr] P = true)  (hc : Changes P s₀ s) : ResChanges P s₀ (execPowerDomainFault domain bring s) := by
  unfold execPowerDomainFault
  try dsimp only
  repeat' first
    | with_reducible assumption
    | with_reducible exact Changes.refl _ _
    | with_reducible apply Changes.ite
    | with_reducible apply ResChanges.next
    | with_reducible exact ResChanges.fault _
    | with_reducible exact ResChanges.refused _
    | with_reducible apply ResChanges.ite
    | with_reducible apply domainFault_changes
    | exact Part.sub_trans (by decide) hp
    | exact Part.mem hp (by decide)
    | (intro _; try dsimp only)
    | split

theorem execReferenceLockTimeout_changes {P : List Part} {s₀ : State} (s : State) (hp : Part.sub [.funcs] P = true)  (hc : Changes P s₀ s) : ResChanges P s₀ (execReferenceLockTimeout s) := by
  unfold execReferenceLockTimeout
  try dsimp only
  repeat' first
    | with_reducible assumption
    | with_reducible exact Changes.refl _ _
    | with_reducible apply Changes.ite
    | with_reducible apply ResChanges.next
    | with_reducible exact ResChanges.fault _
    | with_reducible exact ResChanges.refused _
    | with_reducible apply ResChanges.ite
    | with_reducible apply record_changes
    | exact Part.sub_trans (by decide) hp
    | exact Part.mem hp (by decide)
    | (intro _; try dsimp only)
    | split

theorem execReferenceLocked_changes {P : List Part} {s₀ : State} (src : BitVec 2) (bring : Tab PowerUpFound) (s : State) (hp : Part.sub [.clock, .funcs, .irqs, .power, .persist, .tack, .stallImages, .stalls, .gaits, .slices, .acqs, .voices, .seqs, .chans, .units, .nodes, .cells, .books, .flights, .nextFlight, .hub, .riders, .lines, .fasts, .groups, .queues, .qdir, .farriers, .trims, .tc, .watches, .hbm, .library, .descs, .kernels, .store, .held, .latched] P = true)  (hc : Changes P s₀ s) : ResChanges P s₀ (execReferenceLocked src bring s) := by
  unfold execReferenceLocked
  try dsimp only
  repeat' first
    | with_reducible assumption
    | with_reducible exact Changes.refl _ _
    | with_reducible apply Changes.ite
    | with_reducible apply ResChanges.next
    | with_reducible exact ResChanges.fault _
    | with_reducible exact ResChanges.refused _
    | with_reducible apply ResChanges.ite
    | with_reducible apply bootFromStep3_changes
    | exact Part.sub_trans (by decide) hp
    | exact Part.mem hp (by decide)
    | (intro _; try dsimp only)
    | split

theorem inRange_changes {P : List Part} {s₀ : State} (s : State) (eff : State → State) (hp : Part.sub [] P = true) (heff : ∀ y0, Changes P s₀ y0 → Changes P s₀ (eff y0)) (hc : Changes P s₀ s) : Changes P s₀ (inRange s eff) := by
  unfold inRange
  try dsimp only
  repeat' first
    | with_reducible assumption
    | with_reducible exact Changes.refl _ _
    | with_reducible apply Changes.ite
    | with_reducible apply heff
    | exact Part.sub_trans (by decide) hp
    | exact Part.mem hp (by decide)
    | (intro _; try dsimp only)
    | split

theorem execBootStart_changes {P : List Part} {s₀ : State} (found : BootFound) (s : State) (hp : Part.sub [.funcs, .power, .backup, .persist, .lines, .domains] P = true)  (hc : Changes P s₀ s) : ResChanges P s₀ (execBootStart found s) := by
  unfold execBootStart
  try dsimp only
  repeat' first
    | with_reducible assumption
    | with_reducible exact Changes.refl _ _
    | with_reducible apply Changes.ite
    | with_reducible apply ResChanges.next
    | with_reducible exact ResChanges.fault _
    | with_reducible exact ResChanges.refused _
    | with_reducible apply ResChanges.ite
    | with_reducible apply bootToStep3_changes
    | with_reducible apply inRange_changes
    | exact Part.sub_trans (by decide) hp
    | exact Part.mem hp (by decide)
    | (intro _; try dsimp only)
    | split

theorem execWatchdog_changes {P : List Part} {s₀ : State} (world : ResetWorld) (s : State) (hp : Part.sub [.clock, .host, .funcs, .irqs, .power, .backup, .persist, .tack, .spine, .herdImage, .hubImage, .stallImages, .stalls, .gaits, .slices, .acqs, .voices, .seqs, .chans, .units, .nodes, .cells, .books, .flights, .nextFlight, .hub, .riders, .lines, .fasts, .groups, .queues, .qdir, .farriers, .trims, .shotAudits, .lanes, .tether, .tc, .ethPorts, .domains, .pulses, .watches, .hks, .hkCtl, .hbm, .library, .descs, .kernels, .store, .held, .latched] P = true)  (hc : Changes P s₀ s) : ResChanges P s₀ (execWatchdog world s) := by
  unfold execWatchdog
  try dsimp only
  repeat' first
    | with_reducible assumption
    | with_reducible exact Changes.refl _ _
    | with_reducible apply Changes.ite
    | with_reducible apply ResChanges.next
    | with_reducible exact ResChanges.fault _
    | with_reducible exact ResChanges.refused _
    | with_reducible apply ResChanges.ite
    | with_reducible apply inRange_changes
    | with_reducible apply resetModule_changes
    | exact Part.sub_trans (by decide) hp
    | exact Part.mem hp (by decide)
    | (intro _; try dsimp only)
    | split

theorem execLinkTrained_changes {P : List Part} {s₀ : State} (width : BitVec 4) (speed : BitVec 4) (s : State) (hp : Part.sub [.host] P = true)  (hc : Changes P s₀ s) : ResChanges P s₀ (execLinkTrained width speed s) := by
  unfold execLinkTrained
  try dsimp only
  repeat' first
    | with_reducible assumption
    | with_reducible exact Changes.refl _ _
    | with_reducible apply Changes.ite
    | with_reducible apply ResChanges.next
    | with_reducible exact ResChanges.fault _
    | with_reducible exact ResChanges.refused _
    | with_reducible apply ResChanges.ite
    | with_reducible apply inRange_changes
    | with_reducible apply setHost_changes
    | exact Part.sub_trans (by decide) hp
    | exact Part.mem hp (by decide)
    | (intro _; try dsimp only)
    | split

theorem execHotReset_changes {P : List Part} {s₀ : State} (s : State) (hp : Part.sub [.host, .funcs, .irqs] P = true)  (hc : Changes P s₀ s) : ResChanges P s₀ (execHotReset s) := by
  unfold execHotReset
  try dsimp only
  repeat' first
    | with_reducible assumption
    | with_reducible exact Changes.refl _ _
    | with_reducible apply Changes.ite
    | with_reducible apply ResChanges.next
    | with_reducible exact ResChanges.fault _
    | with_reducible exact ResChanges.refused _
    | with_reducible apply ResChanges.ite
    | with_reducible apply inRange_changes
    | with_reducible apply resetHost_changes
    | exact Part.sub_trans (by decide) hp
    | exact Part.mem hp (by decide)
    | (intro _; try dsimp only)
    | split

theorem perstAccepted_changes {P : List Part} {s₀ : State} (world : ResetWorld) (s : State) (hp : Part.sub [.clock, .host, .funcs, .irqs, .power, .backup, .persist, .tack, .spine, .herdImage, .hubImage, .stallImages, .stalls, .gaits, .slices, .acqs, .voices, .seqs, .chans, .units, .nodes, .cells, .books, .flights, .nextFlight, .hub, .riders, .lines, .fasts, .groups, .queues, .qdir, .farriers, .trims, .shotAudits, .lanes, .tether, .tc, .ethPorts, .domains, .pulses, .watches, .hks, .hkCtl, .hbm, .library, .descs, .kernels, .store, .held, .latched] P = true)  (hc : Changes P s₀ s) : Changes P s₀ (perstAccepted world s) := by
  unfold perstAccepted
  try dsimp only
  repeat' first
    | with_reducible assumption
    | with_reducible exact Changes.refl _ _
    | with_reducible apply Changes.ite
    | with_reducible apply resetHost_changes
    | with_reducible apply resetModule_changes
    | exact Part.sub_trans (by decide) hp
    | exact Part.mem hp (by decide)
    | (intro _; try dsimp only)
    | split

theorem execPerst_changes {P : List Part} {s₀ : State} (width : Fine) (world : ResetWorld) (s : State) (hp : Part.sub [.clock, .host, .funcs, .irqs, .power, .backup, .persist, .tack, .spine, .herdImage, .hubImage, .stallImages, .stalls, .gaits, .slices, .acqs, .voices, .seqs, .chans, .units, .nodes, .cells, .books, .flights, .nextFlight, .hub, .riders, .lines, .fasts, .groups, .queues, .qdir, .farriers, .trims, .shotAudits, .lanes, .tether, .tc, .ethPorts, .domains, .pulses, .watches, .hks, .hkCtl, .hbm, .library, .descs, .kernels, .store, .held, .latched, .freeCtr] P = true)  (hc : Changes P s₀ s) : ResChanges P s₀ (execPerst width world s) := by
  unfold execPerst
  try dsimp only
  repeat' first
    | with_reducible assumption
    | with_reducible exact Changes.refl _ _
    | with_reducible apply Changes.ite
    | with_reducible apply ResChanges.next
    | with_reducible exact ResChanges.fault _
    | with_reducible exact ResChanges.refused _
    | with_reducible apply ResChanges.ite
    | with_reducible apply freshen_changes
    | with_reducible apply inRange_changes
    | with_reducible apply perstAccepted_changes
    | exact Part.sub_trans (by decide) hp
    | exact Part.mem hp (by decide)
    | (intro _; try dsimp only)
    | split

theorem execBrownOutReset_changes {P : List Part} {s₀ : State} (world : ResetWorld) (s : State) (hp : Part.sub [.clock, .host, .funcs, .irqs, .power, .backup, .persist, .tack, .spine, .herdImage, .hubImage, .stallImages, .stalls, .gaits, .slices, .acqs, .voices, .seqs, .chans, .units, .nodes, .cells, .books, .flights, .nextFlight, .hub, .riders, .lines, .fasts, .groups, .queues, .qdir, .farriers, .trims, .shotAudits, .lanes, .tether, .tc, .ethPorts, .domains, .pulses, .watches, .hks, .hkCtl, .hbm, .library, .descs, .kernels, .store, .held, .latched] P = true)  (hc : Changes P s₀ s) : ResChanges P s₀ (execBrownOutReset world s) := by
  unfold execBrownOutReset
  try dsimp only
  repeat' first
    | with_reducible assumption
    | with_reducible exact Changes.refl _ _
    | with_reducible apply Changes.ite
    | with_reducible apply ResChanges.next
    | with_reducible exact ResChanges.fault _
    | with_reducible exact ResChanges.refused _
    | with_reducible apply ResChanges.ite
    | with_reducible apply inRange_changes
    | with_reducible apply resetModule_changes
    | exact Part.sub_trans (by decide) hp
    | exact Part.mem hp (by decide)
    | (intro _; try dsimp only)
    | split

theorem execPowerOnReset_changes {P : List Part} {s₀ : State} (world : ResetWorld) (s : State) (hp : Part.sub [.clock, .host, .funcs, .irqs, .power, .backup, .persist, .tack, .spine, .herdImage, .hubImage, .stallImages, .stalls, .gaits, .slices, .acqs, .voices, .seqs, .chans, .units, .nodes, .cells, .books, .flights, .nextFlight, .hub, .riders, .lines, .fasts, .groups, .queues, .qdir, .farriers, .trims, .shotAudits, .lanes, .tether, .tc, .ethPorts, .domains, .pulses, .watches, .hks, .hkCtl, .feeds, .hbm, .library, .descs, .kernels, .store, .held, .latched] P = true)  (hc : Changes P s₀ s) : ResChanges P s₀ (execPowerOnReset world s) := by
  unfold execPowerOnReset
  try dsimp only
  repeat' first
    | with_reducible assumption
    | with_reducible exact Changes.refl _ _
    | with_reducible apply Changes.ite
    | with_reducible apply ResChanges.next
    | with_reducible exact ResChanges.fault _
    | with_reducible exact ResChanges.refused _
    | with_reducible apply ResChanges.ite
    | with_reducible apply resetModule_changes
    | with_reducible apply restartFeeds_changes
    | exact Part.sub_trans (by decide) hp
    | exact Part.mem hp (by decide)
    | (intro _; try dsimp only)
    | split

theorem busFalls_changes {P : List Part} {s₀ : State} (s : State) (hp : Part.sub [.clock, .host, .funcs, .irqs, .power, .backup, .persist, .tack, .spine, .herdImage, .hubImage, .stallImages, .stalls, .gaits, .slices, .acqs, .voices, .seqs, .chans, .units, .nodes, .cells, .books, .flights, .nextFlight, .hub, .riders, .lines, .fasts, .groups, .queues, .qdir, .farriers, .trims, .shotAudits, .lanes, .tether, .tc, .ethPorts, .domains, .pulses, .watches, .hks, .hkCtl, .feeds, .tally, .hbm, .library, .descs, .kernels, .store, .held, .latched] P = true)  (hc : Changes P s₀ s) : Changes P s₀ (busFalls s) := by
  unfold busFalls
  try dsimp only
  repeat' first
    | with_reducible assumption
    | with_reducible exact Changes.refl _ _
    | with_reducible apply Changes.ite
    | with_reducible apply finalFeeds_changes
    | with_reducible apply plainModule_changes
    | with_reducible apply setBackup_changes
    | with_reducible apply Changes.set_power
    | exact Part.sub_trans (by decide) hp
    | exact Part.mem hp (by decide)
    | (intro _; try dsimp only)
    | split

theorem execBusBelow10V2_changes {P : List Part} {s₀ : State} (s : State) (hp : Part.sub [.clock, .host, .funcs, .irqs, .power, .backup, .persist, .tack, .spine, .herdImage, .hubImage, .stallImages, .stalls, .gaits, .slices, .acqs, .voices, .seqs, .chans, .units, .nodes, .cells, .books, .flights, .nextFlight, .hub, .riders, .lines, .fasts, .groups, .queues, .qdir, .farriers, .trims, .shotAudits, .lanes, .tether, .tc, .ethPorts, .domains, .pulses, .watches, .hks, .hkCtl, .feeds, .tally, .hbm, .library, .descs, .kernels, .store, .held, .latched] P = true)  (hc : Changes P s₀ s) : ResChanges P s₀ (execBusBelow10V2 s) := by
  unfold execBusBelow10V2
  try dsimp only
  repeat' first
    | with_reducible assumption
    | with_reducible exact Changes.refl _ _
    | with_reducible apply Changes.ite
    | with_reducible apply ResChanges.next
    | with_reducible exact ResChanges.fault _
    | with_reducible exact ResChanges.refused _
    | with_reducible apply ResChanges.ite
    | with_reducible apply busFalls_changes
    | exact Part.sub_trans (by decide) hp
    | exact Part.mem hp (by decide)
    | (intro _; try dsimp only)
    | split

theorem shutDown_changes {P : List Part} {s₀ : State} (s : State) (hp : Part.sub [.funcs, .irqs, .power, .stalls, .slices, .voices, .seqs, .chans, .nodes, .books, .flights, .nextFlight, .hub, .riders, .lines, .fasts, .queues, .farriers, .feeds, .freeCtr] P = true)  (hc : Changes P s₀ s) : Changes P s₀ (shutDown s) := by
  unfold shutDown
  try dsimp only
  repeat' first
    | with_reducible assumption
    | with_reducible exact Changes.refl _ _
    | with_reducible apply Changes.ite
    | with_reducible apply fatalAll_changes
    | with_reducible apply record_changes
    | with_reducible apply setPower_changes
    | with_reducible apply Changes.set_lines
    | exact Part.sub_trans (by decide) hp
    | exact Part.mem hp (by decide)
    | (intro _; try dsimp only)
    | split

theorem execSupplyAcFailure_changes {P : List Part} {s₀ : State} (s : State) (hp : Part.sub [.funcs, .irqs, .power, .stalls, .slices, .voices, .seqs, .chans, .nodes, .books, .flights, .nextFlight, .hub, .riders, .lines, .fasts, .queues, .farriers, .feeds, .freeCtr] P = true)  (hc : Changes P s₀ s) : ResChanges P s₀ (execSupplyAcFailure s) := by
  unfold execSupplyAcFailure
  try dsimp only
  repeat' first
    | with_reducible assumption
    | with_reducible exact Changes.refl _ _
    | with_reducible apply Changes.ite
    | with_reducible apply ResChanges.next
    | with_reducible exact ResChanges.fault _
    | with_reducible exact ResChanges.refused _
    | with_reducible apply ResChanges.ite
    | with_reducible apply shutDown_changes
    | exact Part.sub_trans (by decide) hp
    | exact Part.mem hp (by decide)
    | (intro _; try dsimp only)
    | split

theorem execSupplyInService_changes {P : List Part} {s₀ : State} (second : Bool) (s : State) (hp : Part.sub [.funcs, .power] P = true)  (hc : Changes P s₀ s) : ResChanges P s₀ (execSupplyInService second s) := by
  unfold execSupplyInService
  try dsimp only
  repeat' first
    | with_reducible assumption
    | with_reducible exact Changes.refl _ _
    | with_reducible apply Changes.ite
    | with_reducible apply ResChanges.next
    | with_reducible exact ResChanges.fault _
    | with_reducible exact ResChanges.refused _
    | with_reducible apply ResChanges.ite
    | with_reducible apply modSupply_changes
    | with_reducible apply record_changes
    | exact Part.sub_trans (by decide) hp
    | exact Part.mem hp (by decide)
    | (intro _; try dsimp only)
    | split

theorem execSupplyFailure_changes {P : List Part} {s₀ : State} (second : Bool) (removed : Bool) (s : State) (hp : Part.sub [.funcs, .power] P = true)  (hc : Changes P s₀ s) : ResChanges P s₀ (execSupplyFailure second removed s) := by
  unfold execSupplyFailure
  try dsimp only
  repeat' first
    | with_reducible assumption
    | with_reducible exact Changes.refl _ _
    | with_reducible apply Changes.ite
    | with_reducible apply ResChanges.next
    | with_reducible exact ResChanges.fault _
    | with_reducible exact ResChanges.refused _
    | with_reducible apply ResChanges.ite
    | with_reducible apply modSupply_changes
    | with_reducible apply record_changes
    | exact Part.sub_trans (by decide) hp
    | exact Part.mem hp (by decide)
    | (intro _; try dsimp only)
    | split

end Sys2Proof.Machine
end

