-- ==== Sys2Proof/Laws/ChangesQueues.lean ====
section
/-!
SUPPORT. What each operation of Machine/Queues.lean may change.
-/

set_option linter.unusedTactic false
set_option linter.unreachableTactic false
set_option linter.style.longLine false
set_option linter.unusedVariables false
set_option maxRecDepth 8000

namespace Sys2Proof.Machine

open Sys2Proof

theorem recordQdir_changes {P : List Part} {s₀ : State} (code : Code) (q : Option QueueId) (s : State) (hp : Part.sub [.funcs] P = true)  (hc : Changes P s₀ s) : Changes P s₀ (recordQdir code q s) := by
  unfold recordQdir
  try dsimp only
  repeat' first
    | with_reducible assumption
    | with_reducible exact Changes.refl _ _
    | with_reducible apply Changes.ite
    | with_reducible apply record_changes
    | exact Part.sub_trans (by decide) hp
    | exact Part.mem hp (by decide)
    | (intro _; try dsimp only)
    | split

theorem qdirEnd_changes {P : List Part} {s₀ : State} (op : OpStatus) (q : Option QueueId) (s : State) (hp : Part.sub [.funcs, .irqs, .qdir] P = true)  (hc : Changes P s₀ s) : Changes P s₀ (qdirEnd op q s) := by
  unfold qdirEnd
  try dsimp only
  repeat' first
    | with_reducible assumption
    | with_reducible exact Changes.refl _ _
    | with_reducible apply Changes.ite
    | with_reducible apply raise_changes
    | with_reducible apply recordQdir_changes
    | with_reducible apply setQdir_changes
    | exact Part.sub_trans (by decide) hp
    | exact Part.mem hp (by decide)
    | (intro _; try dsimp only)
    | split

theorem hbmDouble_changes {P : List Part} {s₀ : State} (a : BitVec 36) (q : Option QueueId) (s : State) (hp : Part.sub [.funcs, .irqs, .tack, .queues, .qdir, .hbm] P = true)  (hc : Changes P s₀ s) : Changes P s₀ (hbmDouble a q s) := by
  unfold hbmDouble
  try dsimp only
  repeat' first
    | with_reducible assumption
    | with_reducible exact Changes.refl _ _
    | with_reducible apply Changes.ite
    | with_reducible apply forcedReset_changes
    | with_reducible apply record_changes
    | with_reducible apply setHbm_changes
    | with_reducible apply setQdir_changes
    | with_reducible apply setTack_changes
    | exact Part.sub_trans (by decide) hp
    | exact Part.mem hp (by decide)
    | (intro _; try dsimp only)
    | split

theorem hbmErrors_changes {P : List Part} {s₀ : State} (e : HbmErrors) (s : State) (hp : Part.sub [.funcs, .irqs, .tack, .queues, .qdir, .hbm] P = true)  (hc : Changes P s₀ s) : Changes P s₀ (hbmErrors e s) := by
  unfold hbmErrors
  try dsimp only
  repeat' first
    | with_reducible assumption
    | with_reducible exact Changes.refl _ _
    | with_reducible apply Changes.ite
    | with_reducible apply forEach_changes
    | with_reducible apply hbmDouble_changes
    | with_reducible apply record_changes
    | with_reducible apply setQdir_changes
    | exact Part.sub_trans (by decide) hp
    | exact Part.mem hp (by decide)
    | (intro _; try dsimp only)
    | split

theorem hbmScrubDone_changes {P : List Part} {s₀ : State} (err : HbmErrors) (s : State) (hp : Part.sub [.funcs, .irqs, .tack, .queues, .qdir, .hbm] P = true)  (hc : Changes P s₀ s) : Changes P s₀ (hbmScrubDone err s) := by
  unfold hbmScrubDone
  try dsimp only
  repeat' first
    | with_reducible assumption
    | with_reducible exact Changes.refl _ _
    | with_reducible apply Changes.ite
    | with_reducible apply hbmErrors_changes
    | with_reducible apply qdirEnd_changes
    | with_reducible apply setQdir_changes
    | exact Part.sub_trans (by decide) hp
    | exact Part.mem hp (by decide)
    | (intro _; try dsimp only)
    | split

theorem execHbmScrubDone_changes {P : List Part} {s₀ : State} (err : HbmErrors) (s : State) (hp : Part.sub [.funcs, .irqs, .tack, .queues, .qdir, .hbm] P = true)  (hc : Changes P s₀ s) : ResChanges P s₀ (execHbmScrubDone err s) := by
  unfold execHbmScrubDone
  try dsimp only
  repeat' first
    | with_reducible assumption
    | with_reducible exact Changes.refl _ _
    | with_reducible apply Changes.ite
    | with_reducible apply ResChanges.next
    | with_reducible exact ResChanges.fault _
    | with_reducible exact ResChanges.refused _
    | with_reducible apply ResChanges.ite
    | with_reducible apply hbmScrubDone_changes
    | exact Part.sub_trans (by decide) hp
    | exact Part.mem hp (by decide)
    | (intro _; try dsimp only)
    | split

theorem hostPop_changes {P : List Part} {s₀ : State} (f : Func) (q : QueueId) (n : Nat) (s : State) (hp : Part.sub [.funcs, .queues, .qdir] P = true)  (hc : Changes P s₀ s) : Changes P s₀ (hostPop f q n s) := by
  unfold hostPop
  try dsimp only
  repeat' first
    | with_reducible assumption
    | with_reducible exact Changes.refl _ _
    | with_reducible apply Changes.ite
    | with_reducible apply hostCheck_changes
    | with_reducible apply hostTake_changes
    | with_reducible apply modQueue_changes
    | exact Part.sub_trans (by decide) hp
    | exact Part.mem hp (by decide)
    | (intro _; try dsimp only)
    | split

theorem execQPop_changes {P : List Part} {s₀ : State} (f : Func) (q : QueueId) (words : Fin 16) (s : State) (hp : Part.sub [.funcs, .queues, .qdir] P = true)  (hc : Changes P s₀ s) : ResChanges P s₀ (execQPop f q words s) := by
  unfold execQPop
  try dsimp only
  repeat' first
    | with_reducible assumption
    | with_reducible exact Changes.refl _ _
    | with_reducible apply Changes.ite
    | with_reducible apply ResChanges.next
    | with_reducible exact ResChanges.fault _
    | with_reducible exact ResChanges.refused _
    | with_reducible apply ResChanges.ite
    | with_reducible apply hostPop_changes
    | exact Part.sub_trans (by decide) hp
    | exact Part.mem hp (by decide)
    | (intro _; try dsimp only)
    | split

theorem hostPush_changes {P : List Part} {s₀ : State} (f : Func) (q : QueueId) (r : QReg) (eoi : Bool) (val : Word) (s : State) (hp : Part.sub [.funcs, .queues] P = true)  (hc : Changes P s₀ s) : Changes P s₀ (hostPush f q r eoi val s) := by
  unfold hostPush
  try dsimp only
  repeat' first
    | with_reducible assumption
    | with_reducible exact Changes.refl _ _
    | with_reducible apply Changes.ite
    | with_reducible apply hostCheck_changes
    | with_reducible apply issueWords_changes
    | exact Part.sub_trans (by decide) hp
    | exact Part.mem hp (by decide)
    | (intro _; try dsimp only)
    | split

theorem execQPushEnd_changes {P : List Part} {s₀ : State} (f : Func) (q : QueueId) (val : Word) (s : State) (hp : Part.sub [.funcs, .queues] P = true)  (hc : Changes P s₀ s) : ResChanges P s₀ (execQPushEnd f q val s) := by
  unfold execQPushEnd
  try dsimp only
  repeat' first
    | with_reducible assumption
    | with_reducible exact Changes.refl _ _
    | with_reducible apply Changes.ite
    | with_reducible apply ResChanges.next
    | with_reducible exact ResChanges.fault _
    | with_reducible exact ResChanges.refused _
    | with_reducible apply ResChanges.ite
    | with_reducible apply hostPush_changes
    | exact Part.sub_trans (by decide) hp
    | exact Part.mem hp (by decide)
    | (intro _; try dsimp only)
    | split

theorem execQPush_changes {P : List Part} {s₀ : State} (f : Func) (q : QueueId) (val : Word) (s : State) (hp : Part.sub [.funcs, .queues] P = true)  (hc : Changes P s₀ s) : ResChanges P s₀ (execQPush f q val s) := by
  unfold execQPush
  try dsimp only
  repeat' first
    | with_reducible assumption
    | with_reducible exact Changes.refl _ _
    | with_reducible apply Changes.ite
    | with_reducible apply ResChanges.next
    | with_reducible exact ResChanges.fault _
    | with_reducible exact ResChanges.refused _
    | with_reducible apply ResChanges.ite
    | with_reducible apply hostPush_changes
    | exact Part.sub_trans (by decide) hp
    | exact Part.mem hp (by decide)
    | (intro _; try dsimp only)
    | split

theorem qdirRefuse_changes {P : List Part} {s₀ : State} (f : Func) (code : Code) (s : State) (hp : Part.sub [.funcs, .qdir] P = true)  (hc : Changes P s₀ s) : Changes P s₀ (qdirRefuse f code s) := by
  unfold qdirRefuse
  try dsimp only
  repeat' first
    | with_reducible assumption
    | with_reducible exact Changes.refl _ _
    | with_reducible apply Changes.ite
    | with_reducible apply refuseReg_changes
    | with_reducible apply setQdir_changes
    | exact Part.sub_trans (by decide) hp
    | exact Part.mem hp (by decide)
    | (intro _; try dsimp only)
    | split

theorem startScrub_changes {P : List Part} {s₀ : State} (s : State) (hp : Part.sub [.qdir] P = true)  (hc : Changes P s₀ s) : Changes P s₀ (startScrub s) := by
  unfold startScrub
  try dsimp only
  repeat' first
    | with_reducible assumption
    | with_reducible exact Changes.refl _ _
    | with_reducible apply Changes.ite
    | with_reducible apply setQdir_changes
    | exact Part.sub_trans (by decide) hp
    | exact Part.mem hp (by decide)
    | (intro _; try dsimp only)
    | split

theorem qdirCommand_changes {P : List Part} {s₀ : State} (f : Func) (q : Option QueueId) (eff : State → State) (s : State) (hp : Part.sub [.funcs, .qdir] P = true) (heff : ∀ y0, Changes P s₀ y0 → Changes P s₀ (eff y0)) (hc : Changes P s₀ s) : Changes P s₀ (qdirCommand f q eff s) := by
  unfold qdirCommand
  try dsimp only
  repeat' first
    | with_reducible assumption
    | with_reducible exact Changes.refl _ _
    | with_reducible apply Changes.ite
    | with_reducible apply hostWrite_changes
    | with_reducible apply qdirRefuse_changes
    | with_reducible apply refuseReg_changes
    | with_reducible apply heff
    | exact Part.sub_trans (by decide) hp
    | exact Part.mem hp (by decide)
    | (intro _; try dsimp only)
    | split

theorem execScrub_changes {P : List Part} {s₀ : State} (f : Func) (s : State) (hp : Part.sub [.funcs, .qdir] P = true)  (hc : Changes P s₀ s) : ResChanges P s₀ (execScrub f s) := by
  unfold execScrub
  try dsimp only
  repeat' first
    | with_reducible assumption
    | with_reducible exact Changes.refl _ _
    | with_reducible apply Changes.ite
    | with_reducible apply ResChanges.next
    | with_reducible exact ResChanges.fault _
    | with_reducible exact ResChanges.refused _
    | with_reducible apply ResChanges.ite
    | with_reducible apply qdirCommand_changes
    | with_reducible apply startScrub_changes
    | exact Part.sub_trans (by decide) hp
    | exact Part.mem hp (by decide)
    | (intro _; try dsimp only)
    | split

theorem startAudit_changes {P : List Part} {s₀ : State} (c : QdirCmd) (s : State) (hp : Part.sub [.qdir] P = true)  (hc : Changes P s₀ s) : Changes P s₀ (startAudit c s) := by
  unfold startAudit
  try dsimp only
  repeat' first
    | with_reducible assumption
    | with_reducible exact Changes.refl _ _
    | with_reducible apply Changes.ite
    | with_reducible apply setQdir_changes
    | exact Part.sub_trans (by decide) hp
    | exact Part.mem hp (by decide)
    | (intro _; try dsimp only)
    | split

theorem execAuditPages_changes {P : List Part} {s₀ : State} (f : Func) (s : State) (hp : Part.sub [.funcs, .qdir] P = true)  (hc : Changes P s₀ s) : ResChanges P s₀ (execAuditPages f s) := by
  unfold execAuditPages
  try dsimp only
  repeat' first
    | with_reducible assumption
    | with_reducible exact Changes.refl _ _
    | with_reducible apply Changes.ite
    | with_reducible apply ResChanges.next
    | with_reducible exact ResChanges.fault _
    | with_reducible exact ResChanges.refused _
    | with_reducible apply ResChanges.ite
    | with_reducible apply qdirCommand_changes
    | with_reducible apply startAudit_changes
    | exact Part.sub_trans (by decide) hp
    | exact Part.mem hp (by decide)
    | (intro _; try dsimp only)
    | split

theorem auditQueue_changes {P : List Part} {s₀ : State} (f : Func) (q : QueueId) (s : State) (hp : Part.sub [.funcs, .qdir] P = true)  (hc : Changes P s₀ s) : Changes P s₀ (auditQueue f q s) := by
  unfold auditQueue
  try dsimp only
  repeat' first
    | with_reducible assumption
    | with_reducible exact Changes.refl _ _
    | with_reducible apply Changes.ite
    | with_reducible apply qdirCommand_changes
    | with_reducible apply qdirRefuse_changes
    | with_reducible apply startAudit_changes
    | exact Part.sub_trans (by decide) hp
    | exact Part.mem hp (by decide)
    | (intro _; try dsimp only)
    | split

theorem execAuditQueue_changes {P : List Part} {s₀ : State} (f : Func) (q : QueueId) (s : State) (hp : Part.sub [.funcs, .qdir] P = true)  (hc : Changes P s₀ s) : ResChanges P s₀ (execAuditQueue f q s) := by
  unfold execAuditQueue
  try dsimp only
  repeat' first
    | with_reducible assumption
    | with_reducible exact Changes.refl _ _
    | with_reducible apply Changes.ite
    | with_reducible apply ResChanges.next
    | with_reducible exact ResChanges.fault _
    | with_reducible exact ResChanges.refused _
    | with_reducible apply ResChanges.ite
    | with_reducible apply auditQueue_changes
    | exact Part.sub_trans (by decide) hp
    | exact Part.mem hp (by decide)
    | (intro _; try dsimp only)
    | split

theorem startFlush_changes {P : List Part} {s₀ : State} (q : QueueId) (s : State) (hp : Part.sub [.funcs, .irqs, .queues, .qdir] P = true)  (hc : Changes P s₀ s) : Changes P s₀ (startFlush q s) := by
  unfold startFlush
  try dsimp only
  repeat' first
    | with_reducible assumption
    | with_reducible exact Changes.refl _ _
    | with_reducible apply Changes.ite
    | with_reducible apply flushQueue_changes
    | with_reducible apply qdirEnd_changes
    | with_reducible apply setQdir_changes
    | exact Part.sub_trans (by decide) hp
    | exact Part.mem hp (by decide)
    | (intro _; try dsimp only)
    | split

theorem execFlush_changes {P : List Part} {s₀ : State} (f : Func) (q : QueueId) (s : State) (hp : Part.sub [.funcs, .irqs, .queues, .qdir] P = true)  (hc : Changes P s₀ s) : ResChanges P s₀ (execFlush f q s) := by
  unfold execFlush
  try dsimp only
  repeat' first
    | with_reducible assumption
    | with_reducible exact Changes.refl _ _
    | with_reducible apply Changes.ite
    | with_reducible apply ResChanges.next
    | with_reducible exact ResChanges.fault _
    | with_reducible exact ResChanges.refused _
    | with_reducible apply ResChanges.ite
    | with_reducible apply qdirCommand_changes
    | with_reducible apply startFlush_changes
    | exact Part.sub_trans (by decide) hp
    | exact Part.mem hp (by decide)
    | (intro _; try dsimp only)
    | split

theorem execBackgroundScrub_changes {P : List Part} {s₀ : State} (err : HbmErrors) (s : State) (hp : Part.sub [.funcs, .irqs, .tack, .queues, .qdir, .hbm] P = true)  (hc : Changes P s₀ s) : ResChanges P s₀ (execBackgroundScrub err s) := by
  unfold execBackgroundScrub
  try dsimp only
  repeat' first
    | with_reducible assumption
    | with_reducible exact Changes.refl _ _
    | with_reducible apply Changes.ite
    | with_reducible apply ResChanges.next
    | with_reducible exact ResChanges.fault _
    | with_reducible exact ResChanges.refused _
    | with_reducible apply ResChanges.ite
    | with_reducible apply hbmErrors_changes
    | exact Part.sub_trans (by decide) hp
    | exact Part.mem hp (by decide)
    | (intro _; try dsimp only)
    | split

theorem execPointerCheckPass_changes {P : List Part} {s₀ : State} (q : QueueId) (differs : Bool) (s : State) (hp : Part.sub [.funcs, .irqs, .queues, .qdir] P = true)  (hc : Changes P s₀ s) : ResChanges P s₀ (execPointerCheckPass q differs s) := by
  unfold execPointerCheckPass
  try dsimp only
  repeat' first
    | with_reducible assumption
    | with_reducible exact Changes.refl _ _
    | with_reducible apply Changes.ite
    | with_reducible apply ResChanges.next
    | with_reducible exact ResChanges.fault _
    | with_reducible exact ResChanges.refused _
    | with_reducible apply ResChanges.ite
    | with_reducible apply forcedReset_changes
    | exact Part.sub_trans (by decide) hp
    | exact Part.mem hp (by decide)
    | (intro _; try dsimp only)
    | split

theorem flushProgress_changes {P : List Part} {s₀ : State} (q : QueueId) (s : State) (hp : Part.sub [.funcs, .irqs, .qdir] P = true)  (hc : Changes P s₀ s) : Changes P s₀ (flushProgress q s) := by
  unfold flushProgress
  try dsimp only
  repeat' first
    | with_reducible assumption
    | with_reducible exact Changes.refl _ _
    | with_reducible apply Changes.ite
    | with_reducible apply qdirEnd_changes
    | with_reducible apply setQdir_changes
    | exact Part.sub_trans (by decide) hp
    | exact Part.mem hp (by decide)
    | (intro _; try dsimp only)
    | split

theorem pageFreed_changes {P : List Part} {s₀ : State} (s : State) (hp : Part.sub [.qdir] P = true)  (hc : Changes P s₀ s) : Changes P s₀ (pageFreed s) := by
  unfold pageFreed
  try dsimp only
  repeat' first
    | with_reducible assumption
    | with_reducible exact Changes.refl _ _
    | with_reducible apply Changes.ite
    | with_reducible apply setQdir_changes
    | exact Part.sub_trans (by decide) hp
    | exact Part.mem hp (by decide)
    | (intro _; try dsimp only)
    | split

theorem pageRelease_changes {P : List Part} {s₀ : State} (p : PageFrom) (s : State) (hp : Part.sub [.funcs, .irqs, .queues, .qdir] P = true)  (hc : Changes P s₀ s) : Changes P s₀ (pageRelease p s) := by
  unfold pageRelease
  try dsimp only
  repeat' first
    | with_reducible assumption
    | with_reducible exact Changes.refl _ _
    | with_reducible apply Changes.ite
    | with_reducible apply flushProgress_changes
    | with_reducible apply modQueue_changes
    | with_reducible apply pageFreed_changes
    | with_reducible apply setQdir_changes
    | exact Part.sub_trans (by decide) hp
    | exact Part.mem hp (by decide)
    | (intro _; try dsimp only)
    | split

theorem execPageReleaseDone_changes {P : List Part} {s₀ : State} (p : PageFrom) (s : State) (hp : Part.sub [.funcs, .irqs, .queues, .qdir] P = true)  (hc : Changes P s₀ s) : ResChanges P s₀ (execPageReleaseDone p s) := by
  unfold execPageReleaseDone
  try dsimp only
  repeat' first
    | with_reducible assumption
    | with_reducible exact Changes.refl _ _
    | with_reducible apply Changes.ite
    | with_reducible apply ResChanges.next
    | with_reducible exact ResChanges.fault _
    | with_reducible exact ResChanges.refused _
    | with_reducible apply ResChanges.ite
    | with_reducible apply pageRelease_changes
    | exact Part.sub_trans (by decide) hp
    | exact Part.mem hp (by decide)
    | (intro _; try dsimp only)
    | split

theorem setAudit_changes {P : List Part} {s₀ : State} (a : Nat) (b : Nat) (c : Nat) (d : Nat) (s : State) (hp : Part.sub [.qdir] P = true)  (hc : Changes P s₀ s) : Changes P s₀ (setAudit a b c d s) := by
  unfold setAudit
  try dsimp only
  repeat' first
    | with_reducible assumption
    | with_reducible exact Changes.refl _ _
    | with_reducible apply Changes.ite
    | with_reducible apply setQdir_changes
    | exact Part.sub_trans (by decide) hp
    | exact Part.mem hp (by decide)
    | (intro _; try dsimp only)
    | split

theorem auditEnd_changes {P : List Part} {s₀ : State} (sum : Nat) (total : Nat) (q : Option QueueId) (s : State) (hp : Part.sub [.funcs, .irqs, .qdir] P = true)  (hc : Changes P s₀ s) : Changes P s₀ (auditEnd sum total q s) := by
  unfold auditEnd
  try dsimp only
  repeat' first
    | with_reducible assumption
    | with_reducible exact Changes.refl _ _
    | with_reducible apply Changes.ite
    | with_reducible apply qdirEnd_changes
    | exact Part.sub_trans (by decide) hp
    | exact Part.mem hp (by decide)
    | (intro _; try dsimp only)
    | split

theorem bookAudit_changes {P : List Part} {s₀ : State} (s : State) (hp : Part.sub [.funcs, .irqs, .queues, .qdir] P = true)  (hc : Changes P s₀ s) : Changes P s₀ (bookAudit s) := by
  unfold bookAudit
  try dsimp only
  repeat' first
    | with_reducible assumption
    | with_reducible exact Changes.refl _ _
    | with_reducible apply Changes.ite
    | with_reducible apply auditEnd_changes
    | with_reducible apply forEach_changes
    | with_reducible apply hostTake_changes
    | with_reducible apply modQueue_changes
    | with_reducible apply movePages_changes
    | with_reducible apply setAudit_changes
    | with_reducible apply setQdir_changes
    | exact Part.sub_trans (by decide) hp
    | exact Part.mem hp (by decide)
    | (intro _; try dsimp only)
    | split

theorem execBookAuditSettlePoint_changes {P : List Part} {s₀ : State} (s : State) (hp : Part.sub [.funcs, .irqs, .queues, .qdir] P = true)  (hc : Changes P s₀ s) : ResChanges P s₀ (execBookAuditSettlePoint s) := by
  unfold execBookAuditSettlePoint
  try dsimp only
  repeat' first
    | with_reducible assumption
    | with_reducible exact Changes.refl _ _
    | with_reducible apply Changes.ite
    | with_reducible apply ResChanges.next
    | with_reducible exact ResChanges.fault _
    | with_reducible exact ResChanges.refused _
    | with_reducible apply ResChanges.ite
    | with_reducible apply bookAudit_changes
    | exact Part.sub_trans (by decide) hp
    | exact Part.mem hp (by decide)
    | (intro _; try dsimp only)
    | split

theorem creditReturn_changes {P : List Part} {s₀ : State} (q : QueueId) (i : Nat) (s : State) (hp : Part.sub [.queues] P = true)  (hc : Changes P s₀ s) : Changes P s₀ (creditReturn q i s) := by
  unfold creditReturn
  try dsimp only
  repeat' first
    | with_reducible assumption
    | with_reducible exact Changes.refl _ _
    | with_reducible apply Changes.ite
    | with_reducible apply modProd_changes
    | exact Part.sub_trans (by decide) hp
    | exact Part.mem hp (by decide)
    | (intro _; try dsimp only)
    | split

theorem execCreditReturnArrives_changes {P : List Part} {s₀ : State} (q : QueueId) (port : Nat) (s : State) (hp : Part.sub [.queues] P = true)  (hc : Changes P s₀ s) : ResChanges P s₀ (execCreditReturnArrives q port s) := by
  unfold execCreditReturnArrives
  try dsimp only
  repeat' first
    | with_reducible assumption
    | with_reducible exact Changes.refl _ _
    | with_reducible apply Changes.ite
    | with_reducible apply ResChanges.next
    | with_reducible exact ResChanges.fault _
    | with_reducible exact ResChanges.refused _
    | with_reducible apply ResChanges.ite
    | with_reducible apply creditReturn_changes
    | exact Part.sub_trans (by decide) hp
    | exact Part.mem hp (by decide)
    | (intro _; try dsimp only)
    | split

theorem grantWord_changes {P : List Part} {s₀ : State} (q : QueueId) (i : Nat) (s : State) (hp : Part.sub [.funcs, .queues, .qdir] P = true)  (hc : Changes P s₀ s) : Changes P s₀ (grantWord q i s) := by
  unfold grantWord
  try dsimp only
  repeat' first
    | with_reducible assumption
    | with_reducible exact Changes.refl _ _
    | with_reducible apply Changes.ite
    | with_reducible apply modProd_changes
    | with_reducible apply record_changes
    | with_reducible apply setQdir_changes
    | with_reducible apply storeWord_changes
    | exact Part.sub_trans (by decide) hp
    | exact Part.mem hp (by decide)
    | (intro _; try dsimp only)
    | split

theorem queueWordGrant_changes {P : List Part} {s₀ : State} (q : QueueId) (i : Nat) (s : State) (hp : Part.sub [.funcs, .queues, .qdir] P = true)  (hc : Changes P s₀ s) : Changes P s₀ (queueWordGrant q i s) := by
  unfold queueWordGrant
  try dsimp only
  repeat' first
    | with_reducible assumption
    | with_reducible exact Changes.refl _ _
    | with_reducible apply Changes.ite
    | with_reducible apply grantWord_changes
    | exact Part.sub_trans (by decide) hp
    | exact Part.mem hp (by decide)
    | (intro _; try dsimp only)
    | split

theorem execQueueWordGrant_changes {P : List Part} {s₀ : State} (q : QueueId) (port : Nat) (s : State) (hp : Part.sub [.funcs, .queues, .qdir] P = true)  (hc : Changes P s₀ s) : ResChanges P s₀ (execQueueWordGrant q port s) := by
  unfold execQueueWordGrant
  try dsimp only
  repeat' first
    | with_reducible assumption
    | with_reducible exact Changes.refl _ _
    | with_reducible apply Changes.ite
    | with_reducible apply ResChanges.next
    | with_reducible exact ResChanges.fault _
    | with_reducible exact ResChanges.refused _
    | with_reducible apply ResChanges.ite
    | with_reducible apply queueWordGrant_changes
    | exact Part.sub_trans (by decide) hp
    | exact Part.mem hp (by decide)
    | (intro _; try dsimp only)
    | split

end Sys2Proof.Machine
end

