-- ==== Sys2Proof/Laws/ChangesRead.lean ====
section
/-!
SUPPORT. What each operation of Machine/Read.lean may change.
-/

set_option linter.unusedTactic false
set_option linter.unreachableTactic false
set_option linter.style.longLine false
set_option linter.unusedVariables false
set_option maxRecDepth 8000

namespace Sys2Proof.Machine

open Sys2Proof

theorem execKernelWindowWrite_changes {P : List Part} {s₀ : State} (f : Func) (n : StallId) (t : Fin 4096) (val : Word) (s : State) (hp : Part.sub [.funcs, .kernels] P = true)  (hc : Changes P s₀ s) : ResChanges P s₀ (execKernelWindowWrite f n t val s) := by
  unfold execKernelWindowWrite
  try dsimp only
  repeat' first
    | with_reducible assumption
    | with_reducible exact Changes.refl _ _
    | with_reducible apply Changes.ite
    | with_reducible apply ResChanges.next
    | with_reducible exact ResChanges.fault _
    | with_reducible exact ResChanges.refused _
    | with_reducible apply ResChanges.ite
    | with_reducible apply hostCheck_changes
    | with_reducible apply Changes.set_kernels
    | exact Part.sub_trans (by decide) hp
    | exact Part.mem hp (by decide)
    | (intro _; try dsimp only)
    | split

theorem commitSet_changes {P : List Part} {s₀ : State} (c : ChanId) (s : State) (hp : Part.sub [.chans] P = true)  (hc : Changes P s₀ s) : Changes P s₀ (commitSet c s) := by
  unfold commitSet
  try dsimp only
  repeat' first
    | with_reducible assumption
    | with_reducible exact Changes.refl _ _
    | with_reducible apply Changes.ite
    | with_reducible apply modChan_changes
    | exact Part.sub_trans (by decide) hp
    | exact Part.mem hp (by decide)
    | (intro _; try dsimp only)
    | split

theorem execChCommit_changes {P : List Part} {s₀ : State} (f : Func) (c : ChanId) (s : State) (hp : Part.sub [.funcs, .chans] P = true)  (hc : Changes P s₀ s) : ResChanges P s₀ (execChCommit f c s) := by
  unfold execChCommit
  try dsimp only
  repeat' first
    | with_reducible assumption
    | with_reducible exact Changes.refl _ _
    | with_reducible apply Changes.ite
    | with_reducible apply ResChanges.next
    | with_reducible exact ResChanges.fault _
    | with_reducible exact ResChanges.refused _
    | with_reducible apply ResChanges.ite
    | with_reducible apply commitSet_changes
    | with_reducible apply hostWrite_changes
    | exact Part.sub_trans (by decide) hp
    | exact Part.mem hp (by decide)
    | (intro _; try dsimp only)
    | split

theorem execStagedSetWrite_changes {P : List Part} {s₀ : State} (f : Func) (c : ChanId) (reg : StagedReg) (val : Word) (s : State) (hp : Part.sub [.funcs, .chans] P = true)  (hc : Changes P s₀ s) : ResChanges P s₀ (execStagedSetWrite f c reg val s) := by
  unfold execStagedSetWrite
  try dsimp only
  repeat' first
    | with_reducible assumption
    | with_reducible exact Changes.refl _ _
    | with_reducible apply Changes.ite
    | with_reducible apply ResChanges.next
    | with_reducible exact ResChanges.fault _
    | with_reducible exact ResChanges.refused _
    | with_reducible apply ResChanges.ite
    | with_reducible apply hostCheck_changes
    | with_reducible apply modChan_changes
    | exact Part.sub_trans (by decide) hp
    | exact Part.mem hp (by decide)
    | (intro _; try dsimp only)
    | split

theorem execChCtlWrite_changes {P : List Part} {s₀ : State} (f : Func) (c : ChanId) (val : Word) (s : State) (hp : Part.sub [.funcs, .chans] P = true)  (hc : Changes P s₀ s) : ResChanges P s₀ (execChCtlWrite f c val s) := by
  unfold execChCtlWrite
  try dsimp only
  repeat' first
    | with_reducible assumption
    | with_reducible exact Changes.refl _ _
    | with_reducible apply Changes.ite
    | with_reducible apply ResChanges.next
    | with_reducible exact ResChanges.fault _
    | with_reducible exact ResChanges.refused _
    | with_reducible apply ResChanges.ite
    | with_reducible apply hostCheck_changes
    | with_reducible apply modChan_changes
    | exact Part.sub_trans (by decide) hp
    | exact Part.mem hp (by decide)
    | (intro _; try dsimp only)
    | split

theorem execAsCtlWrite_changes {P : List Part} {s₀ : State} (f : Func) (n : StallId) (k : Fin 5) (val : Word) (s : State) (hp : Part.sub [.funcs, .acqs] P = true)  (hc : Changes P s₀ s) : ResChanges P s₀ (execAsCtlWrite f n k val s) := by
  unfold execAsCtlWrite
  try dsimp only
  repeat' first
    | with_reducible assumption
    | with_reducible exact Changes.refl _ _
    | with_reducible apply Changes.ite
    | with_reducible apply ResChanges.next
    | with_reducible exact ResChanges.fault _
    | with_reducible exact ResChanges.refused _
    | with_reducible apply ResChanges.ite
    | with_reducible apply hostWrite_changes
    | with_reducible apply modAcq_changes
    | exact Part.sub_trans (by decide) hp
    | exact Part.mem hp (by decide)
    | (intro _; try dsimp only)
    | split

theorem windowDecides_changes {P : List Part} {s₀ : State} (c : ChanId) (sig : Signal) (s : State) (hp : Part.sub [.funcs, .chans, .nodes, .books, .flights, .nextFlight, .hub, .riders, .queues, .farriers, .freeCtr] P = true)  (hc : Changes P s₀ s) : Changes P s₀ (windowDecides c sig s) := by
  unfold windowDecides
  try dsimp only
  repeat' first
    | with_reducible assumption
    | with_reducible exact Changes.refl _ _
    | with_reducible apply Changes.ite
    | with_reducible apply closeWindow_changes
    | exact Part.sub_trans (by decide) hp
    | exact Part.mem hp (by decide)
    | (intro _; try dsimp only)
    | split

theorem execWindowDecision_changes {P : List Part} {s₀ : State} (c : ChanId) (sig : Signal) (s : State) (hp : Part.sub [.funcs, .chans, .nodes, .books, .flights, .nextFlight, .hub, .riders, .queues, .farriers, .freeCtr] P = true)  (hc : Changes P s₀ s) : ResChanges P s₀ (execWindowDecision c sig s) := by
  unfold execWindowDecision
  try dsimp only
  repeat' first
    | with_reducible assumption
    | with_reducible exact Changes.refl _ _
    | with_reducible apply Changes.ite
    | with_reducible apply ResChanges.next
    | with_reducible exact ResChanges.fault _
    | with_reducible exact ResChanges.refused _
    | with_reducible apply ResChanges.ite
    | with_reducible apply windowDecides_changes
    | exact Part.sub_trans (by decide) hp
    | exact Part.mem hp (by decide)
    | (intro _; try dsimp only)
    | split

theorem windowStarts_changes {P : List Part} {s₀ : State} (c : ChanId) (s : State) (hp : Part.sub [.funcs, .chans, .units, .riders] P = true)  (hc : Changes P s₀ s) : Changes P s₀ (windowStarts c s) := by
  unfold windowStarts
  try dsimp only
  repeat' first
    | with_reducible assumption
    | with_reducible exact Changes.refl _ _
    | with_reducible apply Changes.ite
    | with_reducible apply openWindow_changes
    | with_reducible apply triggerUnits_changes
    | exact Part.sub_trans (by decide) hp
    | exact Part.mem hp (by decide)
    | (intro _; try dsimp only)
    | split

theorem execWindowStart_changes {P : List Part} {s₀ : State} (c : ChanId) (s : State) (hp : Part.sub [.funcs, .chans, .units, .riders] P = true)  (hc : Changes P s₀ s) : ResChanges P s₀ (execWindowStart c s) := by
  unfold execWindowStart
  try dsimp only
  repeat' first
    | with_reducible assumption
    | with_reducible exact Changes.refl _ _
    | with_reducible apply Changes.ite
    | with_reducible apply ResChanges.next
    | with_reducible exact ResChanges.fault _
    | with_reducible exact ResChanges.refused _
    | with_reducible apply ResChanges.ite
    | with_reducible apply windowStarts_changes
    | exact Part.sub_trans (by decide) hp
    | exact Part.mem hp (by decide)
    | (intro _; try dsimp only)
    | split

theorem filterTakes_changes {P : List Part} {s₀ : State} (c : ChanId) (s : State) (hp : Part.sub [.chans, .units, .riders] P = true)  (hc : Changes P s₀ s) : Changes P s₀ (filterTakes c s) := by
  unfold filterTakes
  try dsimp only
  repeat' first
    | with_reducible assumption
    | with_reducible exact Changes.refl _ _
    | with_reducible apply Changes.ite
    | with_reducible apply flagChan_changes
    | with_reducible apply modChan_changes
    | exact Part.sub_trans (by decide) hp
    | exact Part.mem hp (by decide)
    | (intro _; try dsimp only)
    | split

theorem execFilterTakesEffect_changes {P : List Part} {s₀ : State} (c : ChanId) (s : State) (hp : Part.sub [.chans, .units, .riders] P = true)  (hc : Changes P s₀ s) : ResChanges P s₀ (execFilterTakesEffect c s) := by
  unfold execFilterTakesEffect
  try dsimp only
  repeat' first
    | with_reducible assumption
    | with_reducible exact Changes.refl _ _
    | with_reducible apply Changes.ite
    | with_reducible apply ResChanges.next
    | with_reducible exact ResChanges.fault _
    | with_reducible exact ResChanges.refused _
    | with_reducible apply ResChanges.ite
    | with_reducible apply filterTakes_changes
    | exact Part.sub_trans (by decide) hp
    | exact Part.mem hp (by decide)
    | (intro _; try dsimp only)
    | split

theorem fullScale_changes {P : List Part} {s₀ : State} (n : StallId) (k : Fin 5) (sample : Nat) (s : State) (hp : Part.sub [.funcs, .acqs, .chans, .units, .riders] P = true)  (hc : Changes P s₀ s) : Changes P s₀ (fullScale n k sample s) := by
  unfold fullScale
  try dsimp only
  repeat' first
    | with_reducible assumption
    | with_reducible exact Changes.refl _ _
    | with_reducible apply Changes.ite
    | with_reducible apply forEach_changes
    | with_reducible apply markRecords_changes
    | with_reducible apply markWindow_changes
    | with_reducible apply modAcq_changes
    | with_reducible apply recordChan_changes
    | exact Part.sub_trans (by decide) hp
    | exact Part.mem hp (by decide)
    | (intro _; try dsimp only)
    | split

theorem execAdcFullScaleCode_changes {P : List Part} {s₀ : State} (n : StallId) (k : Fin 5) (sample : Nat) (s : State) (hp : Part.sub [.funcs, .acqs, .chans, .units, .riders] P = true)  (hc : Changes P s₀ s) : ResChanges P s₀ (execAdcFullScaleCode n k sample s) := by
  unfold execAdcFullScaleCode
  try dsimp only
  repeat' first
    | with_reducible assumption
    | with_reducible exact Changes.refl _ _
    | with_reducible apply Changes.ite
    | with_reducible apply ResChanges.next
    | with_reducible exact ResChanges.fault _
    | with_reducible exact ResChanges.refused _
    | with_reducible apply ResChanges.ite
    | with_reducible apply fullScale_changes
    | with_reducible apply onAcq_changes
    | exact Part.sub_trans (by decide) hp
    | exact Part.mem hp (by decide)
    | (intro _; try dsimp only)
    | split

theorem rangeTakes_changes {P : List Part} {s₀ : State} (n : StallId) (k : Fin 5) (s : State) (hp : Part.sub [.acqs, .chans, .units, .riders] P = true)  (hc : Changes P s₀ s) : Changes P s₀ (rangeTakes n k s) := by
  unfold rangeTakes
  try dsimp only
  repeat' first
    | with_reducible assumption
    | with_reducible exact Changes.refl _ _
    | with_reducible apply Changes.ite
    | with_reducible apply flagChan_changes
    | with_reducible apply forEach_changes
    | with_reducible apply modAcq_changes
    | exact Part.sub_trans (by decide) hp
    | exact Part.mem hp (by decide)
    | (intro _; try dsimp only)
    | split

theorem execRangeTakesEffect_changes {P : List Part} {s₀ : State} (n : StallId) (k : Fin 5) (s : State) (hp : Part.sub [.acqs, .chans, .units, .riders] P = true)  (hc : Changes P s₀ s) : ResChanges P s₀ (execRangeTakesEffect n k s) := by
  unfold execRangeTakesEffect
  try dsimp only
  repeat' first
    | with_reducible assumption
    | with_reducible exact Changes.refl _ _
    | with_reducible apply Changes.ite
    | with_reducible apply ResChanges.next
    | with_reducible exact ResChanges.fault _
    | with_reducible exact ResChanges.refused _
    | with_reducible apply ResChanges.ite
    | with_reducible apply onAcq_changes
    | with_reducible apply rangeTakes_changes
    | exact Part.sub_trans (by decide) hp
    | exact Part.mem hp (by decide)
    | (intro _; try dsimp only)
    | split

end Sys2Proof.Machine
end

