-- ==== Sys2Proof/Laws/ChangesRiders.lean ====
section
/-!
SUPPORT. What each operation of Machine/Riders.lean may change.
-/

set_option linter.unusedTactic false
set_option linter.unreachableTactic false
set_option linter.style.longLine false
set_option linter.unusedVariables false
set_option maxRecDepth 8000

namespace Sys2Proof.Machine

open Sys2Proof

theorem dropWords_changes {P : List Part} {s₀ : State} (n : StallId) (a : Nat) (s : State) (hp : Part.sub [.held] P = true)  (hc : Changes P s₀ s) : Changes P s₀ (dropWords n a s) := by
  unfold dropWords
  try dsimp only
  repeat' first
    | with_reducible assumption
    | with_reducible exact Changes.refl _ _
    | with_reducible apply Changes.ite
    | with_reducible apply dropHeld_changes
    | with_reducible apply forEach_changes
    | exact Part.sub_trans (by decide) hp
    | exact Part.mem hp (by decide)
    | (intro _; try dsimp only)
    | split

theorem storeWrite_changes {P : List Part} {s₀ : State} (f : Func) (n : StallId) (w : Fin 524288) (val : Word) (s : State) (hp : Part.sub [.funcs, .store, .held] P = true)  (hc : Changes P s₀ s) : Changes P s₀ (storeWrite f n w val s) := by
  unfold storeWrite
  try dsimp only
  repeat' first
    | with_reducible assumption
    | with_reducible exact Changes.refl _ _
    | with_reducible apply Changes.ite
    | with_reducible apply dropWords_changes
    | with_reducible apply holdWord_changes
    | with_reducible apply refuseReg_changes
    | with_reducible apply setStore_changes
    | exact Part.sub_trans (by decide) hp
    | exact Part.mem hp (by decide)
    | (intro _; try dsimp only)
    | split

theorem execControlStoreWrite_changes {P : List Part} {s₀ : State} (f : Func) (n : StallId) (w : Fin 524288) (val : Word) (s : State) (hp : Part.sub [.funcs, .store, .held] P = true)  (hc : Changes P s₀ s) : ResChanges P s₀ (execControlStoreWrite f n w val s) := by
  unfold execControlStoreWrite
  try dsimp only
  repeat' first
    | with_reducible assumption
    | with_reducible exact Changes.refl _ _
    | with_reducible apply Changes.ite
    | with_reducible apply ResChanges.next
    | with_reducible exact ResChanges.fault _
    | with_reducible exact ResChanges.refused _
    | with_reducible apply ResChanges.ite
    | with_reducible apply hostWrite_changes
    | with_reducible apply storeWrite_changes
    | exact Part.sub_trans (by decide) hp
    | exact Part.mem hp (by decide)
    | (intro _; try dsimp only)
    | split

theorem setRiderReg_changes {P : List Part} {s₀ : State} (r : RiderId) (reg : RiderReg) (val : Word) (s : State) (hp : Part.sub [.riders, .held] P = true)  (hc : Changes P s₀ s) : Changes P s₀ (setRiderReg r reg val s) := by
  unfold setRiderReg
  try dsimp only
  repeat' first
    | with_reducible assumption
    | with_reducible exact Changes.refl _ _
    | with_reducible apply Changes.ite
    | with_reducible apply dropHeld_changes
    | with_reducible apply holdWord_changes
    | with_reducible apply modRider_changes
    | exact Part.sub_trans (by decide) hp
    | exact Part.mem hp (by decide)
    | (intro _; try dsimp only)
    | split

theorem execRiderRegisterWrite_changes {P : List Part} {s₀ : State} (f : Func) (r : RiderId) (reg : RiderReg) (val : Word) (s : State) (hp : Part.sub [.funcs, .riders, .held] P = true)  (hc : Changes P s₀ s) : ResChanges P s₀ (execRiderRegisterWrite f r reg val s) := by
  unfold execRiderRegisterWrite
  try dsimp only
  repeat' first
    | with_reducible assumption
    | with_reducible exact Changes.refl _ _
    | with_reducible apply Changes.ite
    | with_reducible apply ResChanges.next
    | with_reducible exact ResChanges.fault _
    | with_reducible exact ResChanges.refused _
    | with_reducible apply ResChanges.ite
    | with_reducible apply hostCheck_changes
    | with_reducible apply setRiderReg_changes
    | exact Part.sub_trans (by decide) hp
    | exact Part.mem hp (by decide)
    | (intro _; try dsimp only)
    | split

theorem execRhHandlerWrite_changes {P : List Part} {s₀ : State} (f : Func) (r : RiderId) (val : Word) (s : State) (hp : Part.sub [.funcs, .riders] P = true)  (hc : Changes P s₀ s) : ResChanges P s₀ (execRhHandlerWrite f r val s) := by
  unfold execRhHandlerWrite
  try dsimp only
  repeat' first
    | with_reducible assumption
    | with_reducible exact Changes.refl _ _
    | with_reducible apply Changes.ite
    | with_reducible apply ResChanges.next
    | with_reducible exact ResChanges.fault _
    | with_reducible exact ResChanges.refused _
    | with_reducible apply ResChanges.ite
    | with_reducible apply hostCheck_changes
    | with_reducible apply modRider_changes
    | exact Part.sub_trans (by decide) hp
    | exact Part.mem hp (by decide)
    | (intro _; try dsimp only)
    | split

theorem spurRider_changes {P : List Part} {s₀ : State} (r : RiderId) (s : State) (hp : Part.sub [.funcs, .irqs, .stalls, .seqs, .chans, .riders, .queues, .feeds] P = true)  (hc : Changes P s₀ s) : Changes P s₀ (spurRider r s) := by
  unfold spurRider
  try dsimp only
  repeat' first
    | with_reducible assumption
    | with_reducible exact Changes.refl _ _
    | with_reducible apply Changes.ite
    | with_reducible apply modRider_changes
    | with_reducible apply sampleFaults_changes
    | exact Part.sub_trans (by decide) hp
    | exact Part.mem hp (by decide)
    | (intro _; try dsimp only)
    | split

theorem execSpur_changes {P : List Part} {s₀ : State} (f : Func) (r : RiderId) (s : State) (hp : Part.sub [.funcs, .irqs, .stalls, .seqs, .chans, .riders, .queues, .feeds] P = true)  (hc : Changes P s₀ s) : ResChanges P s₀ (execSpur f r s) := by
  unfold execSpur
  try dsimp only
  repeat' first
    | with_reducible assumption
    | with_reducible exact Changes.refl _ _
    | with_reducible apply Changes.ite
    | with_reducible apply ResChanges.next
    | with_reducible exact ResChanges.fault _
    | with_reducible exact ResChanges.refused _
    | with_reducible apply ResChanges.ite
    | with_reducible apply hostWrite_changes
    | with_reducible apply spurRider_changes
    | exact Part.sub_trans (by decide) hp
    | exact Part.mem hp (by decide)
    | (intro _; try dsimp only)
    | split

theorem execRiderStop_changes {P : List Part} {s₀ : State} (f : Func) (r : RiderId) (s : State) (hp : Part.sub [.funcs, .stalls, .seqs, .chans, .riders, .queues, .feeds] P = true)  (hc : Changes P s₀ s) : ResChanges P s₀ (execRiderStop f r s) := by
  unfold execRiderStop
  try dsimp only
  repeat' first
    | with_reducible assumption
    | with_reducible exact Changes.refl _ _
    | with_reducible apply Changes.ite
    | with_reducible apply ResChanges.next
    | with_reducible exact ResChanges.fault _
    | with_reducible exact ResChanges.refused _
    | with_reducible apply ResChanges.ite
    | with_reducible apply askStop_changes
    | with_reducible apply hostWrite_changes
    | exact Part.sub_trans (by decide) hp
    | exact Part.mem hp (by decide)
    | (intro _; try dsimp only)
    | split

theorem execRiderStart_changes {P : List Part} {s₀ : State} (f : Func) (r : RiderId) (s : State) (hp : Part.sub [.funcs, .riders] P = true)  (hc : Changes P s₀ s) : ResChanges P s₀ (execRiderStart f r s) := by
  unfold execRiderStart
  try dsimp only
  repeat' first
    | with_reducible assumption
    | with_reducible exact Changes.refl _ _
    | with_reducible apply Changes.ite
    | with_reducible apply ResChanges.next
    | with_reducible exact ResChanges.fault _
    | with_reducible exact ResChanges.refused _
    | with_reducible apply ResChanges.ite
    | with_reducible apply hostCheck_changes
    | with_reducible apply modRider_changes
    | exact Part.sub_trans (by decide) hp
    | exact Part.mem hp (by decide)
    | (intro _; try dsimp only)
    | split

theorem execRiderRelease_changes {P : List Part} {s₀ : State} (r : RiderId) (s : State) (hp : Part.sub [.riders] P = true)  (hc : Changes P s₀ s) : ResChanges P s₀ (execRiderRelease r s) := by
  unfold execRiderRelease
  try dsimp only
  repeat' first
    | with_reducible assumption
    | with_reducible exact Changes.refl _ _
    | with_reducible apply Changes.ite
    | with_reducible apply ResChanges.next
    | with_reducible exact ResChanges.fault _
    | with_reducible exact ResChanges.refused _
    | with_reducible apply ResChanges.ite
    | with_reducible apply releaseRider_changes
    | exact Part.sub_trans (by decide) hp
    | exact Part.mem hp (by decide)
    | (intro _; try dsimp only)
    | split

theorem execPostGranted_changes {P : List Part} {s₀ : State} (r : RiderId) (s : State) (hp : Part.sub [.funcs, .irqs, .stalls, .voices, .seqs, .chans, .units, .nodes, .cells, .books, .flights, .nextFlight, .hub, .riders, .lines, .fasts, .queues, .qdir, .feeds] P = true)  (hc : Changes P s₀ s) : ResChanges P s₀ (execPostGranted r s) := by
  unfold execPostGranted
  try dsimp only
  repeat' first
    | with_reducible assumption
    | with_reducible exact Changes.refl _ _
    | with_reducible apply Changes.ite
    | with_reducible apply ResChanges.next
    | with_reducible exact ResChanges.fault _
    | with_reducible exact ResChanges.refused _
    | with_reducible apply ResChanges.ite
    | with_reducible apply grantHeld_changes
    | exact Part.sub_trans (by decide) hp
    | exact Part.mem hp (by decide)
    | (intro _; try dsimp only)
    | split

theorem execWaitDeadline_changes {P : List Part} {s₀ : State} (r : RiderId) (s : State) (hp : Part.sub [.funcs, .irqs, .stalls, .seqs, .chans, .riders, .queues, .feeds] P = true)  (hc : Changes P s₀ s) : ResChanges P s₀ (execWaitDeadline r s) := by
  unfold execWaitDeadline
  try dsimp only
  repeat' first
    | with_reducible assumption
    | with_reducible exact Changes.refl _ _
    | with_reducible apply Changes.ite
    | with_reducible apply ResChanges.next
    | with_reducible exact ResChanges.fault _
    | with_reducible exact ResChanges.refused _
    | with_reducible apply ResChanges.ite
    | with_reducible apply deadlineReached_changes
    | exact Part.sub_trans (by decide) hp
    | exact Part.mem hp (by decide)
    | (intro _; try dsimp only)
    | split

theorem execWaitConditionTrue_changes {P : List Part} {s₀ : State} (r : RiderId) (u : Run) (s : State) (hp : Part.sub [.funcs, .irqs, .stalls, .voices, .seqs, .chans, .units, .nodes, .cells, .books, .flights, .nextFlight, .hub, .riders, .lines, .fasts, .queues, .qdir, .feeds] P = true)  (hc : Changes P s₀ s) : ResChanges P s₀ (execWaitConditionTrue r u s) := by
  unfold execWaitConditionTrue
  try dsimp only
  repeat' first
    | with_reducible assumption
    | with_reducible exact Changes.refl _ _
    | with_reducible apply Changes.ite
    | with_reducible apply ResChanges.next
    | with_reducible exact ResChanges.fault _
    | with_reducible exact ResChanges.refused _
    | with_reducible apply ResChanges.ite
    | with_reducible apply waitTrue_changes
    | exact Part.sub_trans (by decide) hp
    | exact Part.mem hp (by decide)
    | (intro _; try dsimp only)
    | split

theorem execCtrig_changes {P : List Part} {s₀ : State} (r : RiderId) (u : Run) (s : State) (hp : Part.sub [.funcs, .irqs, .stalls, .voices, .seqs, .chans, .units, .nodes, .cells, .books, .flights, .nextFlight, .hub, .riders, .lines, .fasts, .queues, .qdir, .feeds] P = true)  (hc : Changes P s₀ s) : ResChanges P s₀ (execCtrig r u s) := by
  unfold execCtrig
  try dsimp only
  repeat' first
    | with_reducible assumption
    | with_reducible exact Changes.refl _ _
    | with_reducible apply Changes.ite
    | with_reducible apply ResChanges.next
    | with_reducible exact ResChanges.fault _
    | with_reducible exact ResChanges.refused _
    | with_reducible apply ResChanges.ite
    | with_reducible apply execWord_changes
    | exact Part.sub_trans (by decide) hp
    | exact Part.mem hp (by decide)
    | (intro _; try dsimp only)
    | split

theorem execFfClear_changes {P : List Part} {s₀ : State} (r : RiderId) (u : Run) (s : State) (hp : Part.sub [.funcs, .irqs, .stalls, .voices, .seqs, .chans, .units, .nodes, .cells, .books, .flights, .nextFlight, .hub, .riders, .lines, .fasts, .queues, .qdir, .feeds] P = true)  (hc : Changes P s₀ s) : ResChanges P s₀ (execFfClear r u s) := by
  unfold execFfClear
  try dsimp only
  repeat' first
    | with_reducible assumption
    | with_reducible exact Changes.refl _ _
    | with_reducible apply Changes.ite
    | with_reducible apply ResChanges.next
    | with_reducible exact ResChanges.fault _
    | with_reducible exact ResChanges.refused _
    | with_reducible apply ResChanges.ite
    | with_reducible apply execWord_changes
    | exact Part.sub_trans (by decide) hp
    | exact Part.mem hp (by decide)
    | (intro _; try dsimp only)
    | split

theorem execFfSet_changes {P : List Part} {s₀ : State} (r : RiderId) (u : Run) (s : State) (hp : Part.sub [.funcs, .irqs, .stalls, .voices, .seqs, .chans, .units, .nodes, .cells, .books, .flights, .nextFlight, .hub, .riders, .lines, .fasts, .queues, .qdir, .feeds] P = true)  (hc : Changes P s₀ s) : ResChanges P s₀ (execFfSet r u s) := by
  unfold execFfSet
  try dsimp only
  repeat' first
    | with_reducible assumption
    | with_reducible exact Changes.refl _ _
    | with_reducible apply Changes.ite
    | with_reducible apply ResChanges.next
    | with_reducible exact ResChanges.fault _
    | with_reducible exact ResChanges.refused _
    | with_reducible apply ResChanges.ite
    | with_reducible apply execWord_changes
    | exact Part.sub_trans (by decide) hp
    | exact Part.mem hp (by decide)
    | (intro _; try dsimp only)
    | split

theorem execEmitRelay_changes {P : List Part} {s₀ : State} (r : RiderId) (u : Run) (s : State) (hp : Part.sub [.funcs, .irqs, .stalls, .voices, .seqs, .chans, .units, .nodes, .cells, .books, .flights, .nextFlight, .hub, .riders, .lines, .fasts, .queues, .qdir, .feeds] P = true)  (hc : Changes P s₀ s) : ResChanges P s₀ (execEmitRelay r u s) := by
  unfold execEmitRelay
  try dsimp only
  repeat' first
    | with_reducible assumption
    | with_reducible exact Changes.refl _ _
    | with_reducible apply Changes.ite
    | with_reducible apply ResChanges.next
    | with_reducible exact ResChanges.fault _
    | with_reducible exact ResChanges.refused _
    | with_reducible apply ResChanges.ite
    | with_reducible apply execWord_changes
    | exact Part.sub_trans (by decide) hp
    | exact Part.mem hp (by decide)
    | (intro _; try dsimp only)
    | split

theorem execEmit_changes {P : List Part} {s₀ : State} (r : RiderId) (u : Run) (s : State) (hp : Part.sub [.funcs, .irqs, .stalls, .voices, .seqs, .chans, .units, .nodes, .cells, .books, .flights, .nextFlight, .hub, .riders, .lines, .fasts, .queues, .qdir, .feeds] P = true)  (hc : Changes P s₀ s) : ResChanges P s₀ (execEmit r u s) := by
  unfold execEmit
  try dsimp only
  repeat' first
    | with_reducible assumption
    | with_reducible exact Changes.refl _ _
    | with_reducible apply Changes.ite
    | with_reducible apply ResChanges.next
    | with_reducible exact ResChanges.fault _
    | with_reducible exact ResChanges.refused _
    | with_reducible apply ResChanges.ite
    | with_reducible apply execWord_changes
    | exact Part.sub_trans (by decide) hp
    | exact Part.mem hp (by decide)
    | (intro _; try dsimp only)
    | split

theorem execOpen_changes {P : List Part} {s₀ : State} (r : RiderId) (u : Run) (s : State) (hp : Part.sub [.funcs, .irqs, .stalls, .voices, .seqs, .chans, .units, .nodes, .cells, .books, .flights, .nextFlight, .hub, .riders, .lines, .fasts, .queues, .qdir, .feeds] P = true)  (hc : Changes P s₀ s) : ResChanges P s₀ (execOpen r u s) := by
  unfold execOpen
  try dsimp only
  repeat' first
    | with_reducible assumption
    | with_reducible exact Changes.refl _ _
    | with_reducible apply Changes.ite
    | with_reducible apply ResChanges.next
    | with_reducible exact ResChanges.fault _
    | with_reducible exact ResChanges.refused _
    | with_reducible apply ResChanges.ite
    | with_reducible apply execWord_changes
    | exact Part.sub_trans (by decide) hp
    | exact Part.mem hp (by decide)
    | (intro _; try dsimp only)
    | split

theorem execFluxDcCode_changes {P : List Part} {s₀ : State} (r : RiderId) (u : Run) (s : State) (hp : Part.sub [.funcs, .irqs, .stalls, .voices, .seqs, .chans, .units, .nodes, .cells, .books, .flights, .nextFlight, .hub, .riders, .lines, .fasts, .queues, .qdir, .feeds] P = true)  (hc : Changes P s₀ s) : ResChanges P s₀ (execFluxDcCode r u s) := by
  unfold execFluxDcCode
  try dsimp only
  repeat' first
    | with_reducible assumption
    | with_reducible exact Changes.refl _ _
    | with_reducible apply Changes.ite
    | with_reducible apply ResChanges.next
    | with_reducible exact ResChanges.fault _
    | with_reducible exact ResChanges.refused _
    | with_reducible apply ResChanges.ite
    | with_reducible apply execWord_changes
    | exact Part.sub_trans (by decide) hp
    | exact Part.mem hp (by decide)
    | (intro _; try dsimp only)
    | split

theorem execFluxFastCode_changes {P : List Part} {s₀ : State} (r : RiderId) (u : Run) (s : State) (hp : Part.sub [.funcs, .irqs, .stalls, .voices, .seqs, .chans, .units, .nodes, .cells, .books, .flights, .nextFlight, .hub, .riders, .lines, .fasts, .queues, .qdir, .feeds] P = true)  (hc : Changes P s₀ s) : ResChanges P s₀ (execFluxFastCode r u s) := by
  unfold execFluxFastCode
  try dsimp only
  repeat' first
    | with_reducible assumption
    | with_reducible exact Changes.refl _ _
    | with_reducible apply Changes.ite
    | with_reducible apply ResChanges.next
    | with_reducible exact ResChanges.fault _
    | with_reducible exact ResChanges.refused _
    | with_reducible apply ResChanges.ite
    | with_reducible apply execWord_changes
    | exact Part.sub_trans (by decide) hp
    | exact Part.mem hp (by decide)
    | (intro _; try dsimp only)
    | split

theorem execFluxDcGoal_changes {P : List Part} {s₀ : State} (r : RiderId) (u : Run) (s : State) (hp : Part.sub [.funcs, .irqs, .stalls, .voices, .seqs, .chans, .units, .nodes, .cells, .books, .flights, .nextFlight, .hub, .riders, .lines, .fasts, .queues, .qdir, .feeds] P = true)  (hc : Changes P s₀ s) : ResChanges P s₀ (execFluxDcGoal r u s) := by
  unfold execFluxDcGoal
  try dsimp only
  repeat' first
    | with_reducible assumption
    | with_reducible exact Changes.refl _ _
    | with_reducible apply Changes.ite
    | with_reducible apply ResChanges.next
    | with_reducible exact ResChanges.fault _
    | with_reducible exact ResChanges.refused _
    | with_reducible apply ResChanges.ite
    | with_reducible apply execWord_changes
    | exact Part.sub_trans (by decide) hp
    | exact Part.mem hp (by decide)
    | (intro _; try dsimp only)
    | split

theorem execVtune_changes {P : List Part} {s₀ : State} (r : RiderId) (u : Run) (s : State) (hp : Part.sub [.funcs, .irqs, .stalls, .voices, .seqs, .chans, .units, .nodes, .cells, .books, .flights, .nextFlight, .hub, .riders, .lines, .fasts, .queues, .qdir, .feeds] P = true)  (hc : Changes P s₀ s) : ResChanges P s₀ (execVtune r u s) := by
  unfold execVtune
  try dsimp only
  repeat' first
    | with_reducible assumption
    | with_reducible exact Changes.refl _ _
    | with_reducible apply Changes.ite
    | with_reducible apply ResChanges.next
    | with_reducible exact ResChanges.fault _
    | with_reducible exact ResChanges.refused _
    | with_reducible apply ResChanges.ite
    | with_reducible apply execWord_changes
    | exact Part.sub_trans (by decide) hp
    | exact Part.mem hp (by decide)
    | (intro _; try dsimp only)
    | split

theorem execFork_changes {P : List Part} {s₀ : State} (r : RiderId) (u : Run) (s : State) (hp : Part.sub [.funcs, .irqs, .stalls, .voices, .seqs, .chans, .units, .nodes, .cells, .books, .flights, .nextFlight, .hub, .riders, .lines, .fasts, .queues, .qdir, .feeds] P = true)  (hc : Changes P s₀ s) : ResChanges P s₀ (execFork r u s) := by
  unfold execFork
  try dsimp only
  repeat' first
    | with_reducible assumption
    | with_reducible exact Changes.refl _ _
    | with_reducible apply Changes.ite
    | with_reducible apply ResChanges.next
    | with_reducible exact ResChanges.fault _
    | with_reducible exact ResChanges.refused _
    | with_reducible apply ResChanges.ite
    | with_reducible apply execWord_changes
    | exact Part.sub_trans (by decide) hp
    | exact Part.mem hp (by decide)
    | (intro _; try dsimp only)
    | split

theorem execVstop_changes {P : List Part} {s₀ : State} (r : RiderId) (u : Run) (s : State) (hp : Part.sub [.funcs, .irqs, .stalls, .voices, .seqs, .chans, .units, .nodes, .cells, .books, .flights, .nextFlight, .hub, .riders, .lines, .fasts, .queues, .qdir, .feeds] P = true)  (hc : Changes P s₀ s) : ResChanges P s₀ (execVstop r u s) := by
  unfold execVstop
  try dsimp only
  repeat' first
    | with_reducible assumption
    | with_reducible exact Changes.refl _ _
    | with_reducible apply Changes.ite
    | with_reducible apply ResChanges.next
    | with_reducible exact ResChanges.fault _
    | with_reducible exact ResChanges.refused _
    | with_reducible apply ResChanges.ite
    | with_reducible apply execWord_changes
    | exact Part.sub_trans (by decide) hp
    | exact Part.mem hp (by decide)
    | (intro _; try dsimp only)
    | split

theorem execVbreak_changes {P : List Part} {s₀ : State} (r : RiderId) (u : Run) (s : State) (hp : Part.sub [.funcs, .irqs, .stalls, .voices, .seqs, .chans, .units, .nodes, .cells, .books, .flights, .nextFlight, .hub, .riders, .lines, .fasts, .queues, .qdir, .feeds] P = true)  (hc : Changes P s₀ s) : ResChanges P s₀ (execVbreak r u s) := by
  unfold execVbreak
  try dsimp only
  repeat' first
    | with_reducible assumption
    | with_reducible exact Changes.refl _ _
    | with_reducible apply Changes.ite
    | with_reducible apply ResChanges.next
    | with_reducible exact ResChanges.fault _
    | with_reducible exact ResChanges.refused _
    | with_reducible apply ResChanges.ite
    | with_reducible apply execWord_changes
    | exact Part.sub_trans (by decide) hp
    | exact Part.mem hp (by decide)
    | (intro _; try dsimp only)
    | split

theorem execVbranch_changes {P : List Part} {s₀ : State} (r : RiderId) (u : Run) (s : State) (hp : Part.sub [.funcs, .irqs, .stalls, .voices, .seqs, .chans, .units, .nodes, .cells, .books, .flights, .nextFlight, .hub, .riders, .lines, .fasts, .queues, .qdir, .feeds] P = true)  (hc : Changes P s₀ s) : ResChanges P s₀ (execVbranch r u s) := by
  unfold execVbranch
  try dsimp only
  repeat' first
    | with_reducible assumption
    | with_reducible exact Changes.refl _ _
    | with_reducible apply Changes.ite
    | with_reducible apply ResChanges.next
    | with_reducible exact ResChanges.fault _
    | with_reducible exact ResChanges.refused _
    | with_reducible apply ResChanges.ite
    | with_reducible apply execWord_changes
    | exact Part.sub_trans (by decide) hp
    | exact Part.mem hp (by decide)
    | (intro _; try dsimp only)
    | split

theorem execVselalt_changes {P : List Part} {s₀ : State} (r : RiderId) (u : Run) (s : State) (hp : Part.sub [.funcs, .irqs, .stalls, .voices, .seqs, .chans, .units, .nodes, .cells, .books, .flights, .nextFlight, .hub, .riders, .lines, .fasts, .queues, .qdir, .feeds] P = true)  (hc : Changes P s₀ s) : ResChanges P s₀ (execVselalt r u s) := by
  unfold execVselalt
  try dsimp only
  repeat' first
    | with_reducible assumption
    | with_reducible exact Changes.refl _ _
    | with_reducible apply Changes.ite
    | with_reducible apply ResChanges.next
    | with_reducible exact ResChanges.fault _
    | with_reducible exact ResChanges.refused _
    | with_reducible apply ResChanges.ite
    | with_reducible apply execWord_changes
    | exact Part.sub_trans (by decide) hp
    | exact Part.mem hp (by decide)
    | (intro _; try dsimp only)
    | split

theorem execVloadalt_changes {P : List Part} {s₀ : State} (r : RiderId) (u : Run) (s : State) (hp : Part.sub [.funcs, .irqs, .stalls, .voices, .seqs, .chans, .units, .nodes, .cells, .books, .flights, .nextFlight, .hub, .riders, .lines, .fasts, .queues, .qdir, .feeds] P = true)  (hc : Changes P s₀ s) : ResChanges P s₀ (execVloadalt r u s) := by
  unfold execVloadalt
  try dsimp only
  repeat' first
    | with_reducible assumption
    | with_reducible exact Changes.refl _ _
    | with_reducible apply Changes.ite
    | with_reducible apply ResChanges.next
    | with_reducible exact ResChanges.fault _
    | with_reducible exact ResChanges.refused _
    | with_reducible apply ResChanges.ite
    | with_reducible apply execWord_changes
    | exact Part.sub_trans (by decide) hp
    | exact Part.mem hp (by decide)
    | (intro _; try dsimp only)
    | split

theorem execVstart_changes {P : List Part} {s₀ : State} (r : RiderId) (u : Run) (s : State) (hp : Part.sub [.funcs, .irqs, .stalls, .voices, .seqs, .chans, .units, .nodes, .cells, .books, .flights, .nextFlight, .hub, .riders, .lines, .fasts, .queues, .qdir, .feeds] P = true)  (hc : Changes P s₀ s) : ResChanges P s₀ (execVstart r u s) := by
  unfold execVstart
  try dsimp only
  repeat' first
    | with_reducible assumption
    | with_reducible exact Changes.refl _ _
    | with_reducible apply Changes.ite
    | with_reducible apply ResChanges.next
    | with_reducible exact ResChanges.fault _
    | with_reducible exact ResChanges.refused _
    | with_reducible apply ResChanges.ite
    | with_reducible apply execWord_changes
    | exact Part.sub_trans (by decide) hp
    | exact Part.mem hp (by decide)
    | (intro _; try dsimp only)
    | split

theorem execShotEnd_changes {P : List Part} {s₀ : State} (r : RiderId) (u : Run) (s : State) (hp : Part.sub [.funcs, .irqs, .stalls, .voices, .seqs, .chans, .units, .nodes, .cells, .books, .flights, .nextFlight, .hub, .riders, .lines, .fasts, .queues, .qdir, .feeds] P = true)  (hc : Changes P s₀ s) : ResChanges P s₀ (execShotEnd r u s) := by
  unfold execShotEnd
  try dsimp only
  repeat' first
    | with_reducible assumption
    | with_reducible exact Changes.refl _ _
    | with_reducible apply Changes.ite
    | with_reducible apply ResChanges.next
    | with_reducible exact ResChanges.fault _
    | with_reducible exact ResChanges.refused _
    | with_reducible apply ResChanges.ite
    | with_reducible apply execWord_changes
    | exact Part.sub_trans (by decide) hp
    | exact Part.mem hp (by decide)
    | (intro _; try dsimp only)
    | split

theorem execShotBegin_changes {P : List Part} {s₀ : State} (r : RiderId) (u : Run) (s : State) (hp : Part.sub [.funcs, .irqs, .stalls, .voices, .seqs, .chans, .units, .nodes, .cells, .books, .flights, .nextFlight, .hub, .riders, .lines, .fasts, .queues, .qdir, .feeds] P = true)  (hc : Changes P s₀ s) : ResChanges P s₀ (execShotBegin r u s) := by
  unfold execShotBegin
  try dsimp only
  repeat' first
    | with_reducible assumption
    | with_reducible exact Changes.refl _ _
    | with_reducible apply Changes.ite
    | with_reducible apply ResChanges.next
    | with_reducible exact ResChanges.fault _
    | with_reducible exact ResChanges.refused _
    | with_reducible apply ResChanges.ite
    | with_reducible apply execWord_changes
    | exact Part.sub_trans (by decide) hp
    | exact Part.mem hp (by decide)
    | (intro _; try dsimp only)
    | split

theorem execIrq_changes {P : List Part} {s₀ : State} (r : RiderId) (u : Run) (s : State) (hp : Part.sub [.funcs, .irqs, .stalls, .voices, .seqs, .chans, .units, .nodes, .cells, .books, .flights, .nextFlight, .hub, .riders, .lines, .fasts, .queues, .qdir, .feeds] P = true)  (hc : Changes P s₀ s) : ResChanges P s₀ (execIrq r u s) := by
  unfold execIrq
  try dsimp only
  repeat' first
    | with_reducible assumption
    | with_reducible exact Changes.refl _ _
    | with_reducible apply Changes.ite
    | with_reducible apply ResChanges.next
    | with_reducible exact ResChanges.fault _
    | with_reducible exact ResChanges.refused _
    | with_reducible apply ResChanges.ite
    | with_reducible apply execWord_changes
    | exact Part.sub_trans (by decide) hp
    | exact Part.mem hp (by decide)
    | (intro _; try dsimp only)
    | split

theorem execPop_changes {P : List Part} {s₀ : State} (r : RiderId) (u : Run) (s : State) (hp : Part.sub [.funcs, .irqs, .stalls, .voices, .seqs, .chans, .units, .nodes, .cells, .books, .flights, .nextFlight, .hub, .riders, .lines, .fasts, .queues, .qdir, .feeds] P = true)  (hc : Changes P s₀ s) : ResChanges P s₀ (execPop r u s) := by
  unfold execPop
  try dsimp only
  repeat' first
    | with_reducible assumption
    | with_reducible exact Changes.refl _ _
    | with_reducible apply Changes.ite
    | with_reducible apply ResChanges.next
    | with_reducible exact ResChanges.fault _
    | with_reducible exact ResChanges.refused _
    | with_reducible apply ResChanges.ite
    | with_reducible apply execWord_changes
    | exact Part.sub_trans (by decide) hp
    | exact Part.mem hp (by decide)
    | (intro _; try dsimp only)
    | split

theorem execPush_changes {P : List Part} {s₀ : State} (r : RiderId) (u : Run) (s : State) (hp : Part.sub [.funcs, .irqs, .stalls, .voices, .seqs, .chans, .units, .nodes, .cells, .books, .flights, .nextFlight, .hub, .riders, .lines, .fasts, .queues, .qdir, .feeds] P = true)  (hc : Changes P s₀ s) : ResChanges P s₀ (execPush r u s) := by
  unfold execPush
  try dsimp only
  repeat' first
    | with_reducible assumption
    | with_reducible exact Changes.refl _ _
    | with_reducible apply Changes.ite
    | with_reducible apply ResChanges.next
    | with_reducible exact ResChanges.fault _
    | with_reducible exact ResChanges.refused _
    | with_reducible apply ResChanges.ite
    | with_reducible apply execWord_changes
    | exact Part.sub_trans (by decide) hp
    | exact Part.mem hp (by decide)
    | (intro _; try dsimp only)
    | split

theorem execTake_changes {P : List Part} {s₀ : State} (r : RiderId) (u : Run) (s : State) (hp : Part.sub [.funcs, .irqs, .stalls, .voices, .seqs, .chans, .units, .nodes, .cells, .books, .flights, .nextFlight, .hub, .riders, .lines, .fasts, .queues, .qdir, .feeds] P = true)  (hc : Changes P s₀ s) : ResChanges P s₀ (execTake r u s) := by
  unfold execTake
  try dsimp only
  repeat' first
    | with_reducible assumption
    | with_reducible exact Changes.refl _ _
    | with_reducible apply Changes.ite
    | with_reducible apply ResChanges.next
    | with_reducible exact ResChanges.fault _
    | with_reducible exact ResChanges.refused _
    | with_reducible apply ResChanges.ite
    | with_reducible apply execWord_changes
    | exact Part.sub_trans (by decide) hp
    | exact Part.mem hp (by decide)
    | (intro _; try dsimp only)
    | split

theorem execTime_changes {P : List Part} {s₀ : State} (r : RiderId) (u : Run) (s : State) (hp : Part.sub [.funcs, .irqs, .stalls, .voices, .seqs, .chans, .units, .nodes, .cells, .books, .flights, .nextFlight, .hub, .riders, .lines, .fasts, .queues, .qdir, .feeds] P = true)  (hc : Changes P s₀ s) : ResChanges P s₀ (execTime r u s) := by
  unfold execTime
  try dsimp only
  repeat' first
    | with_reducible assumption
    | with_reducible exact Changes.refl _ _
    | with_reducible apply Changes.ite
    | with_reducible apply ResChanges.next
    | with_reducible exact ResChanges.fault _
    | with_reducible exact ResChanges.refused _
    | with_reducible apply ResChanges.ite
    | with_reducible apply execWord_changes
    | exact Part.sub_trans (by decide) hp
    | exact Part.mem hp (by decide)
    | (intro _; try dsimp only)
    | split

theorem execAlu_changes {P : List Part} {s₀ : State} (r : RiderId) (u : Run) (s : State) (hp : Part.sub [.funcs, .irqs, .stalls, .voices, .seqs, .chans, .units, .nodes, .cells, .books, .flights, .nextFlight, .hub, .riders, .lines, .fasts, .queues, .qdir, .feeds] P = true)  (hc : Changes P s₀ s) : ResChanges P s₀ (execAlu r u s) := by
  unfold execAlu
  try dsimp only
  repeat' first
    | with_reducible assumption
    | with_reducible exact Changes.refl _ _
    | with_reducible apply Changes.ite
    | with_reducible apply ResChanges.next
    | with_reducible exact ResChanges.fault _
    | with_reducible exact ResChanges.refused _
    | with_reducible apply ResChanges.ite
    | with_reducible apply execWord_changes
    | exact Part.sub_trans (by decide) hp
    | exact Part.mem hp (by decide)
    | (intro _; try dsimp only)
    | split

theorem execNop_changes {P : List Part} {s₀ : State} (r : RiderId) (u : Run) (s : State) (hp : Part.sub [.funcs, .irqs, .stalls, .voices, .seqs, .chans, .units, .nodes, .cells, .books, .flights, .nextFlight, .hub, .riders, .lines, .fasts, .queues, .qdir, .feeds] P = true)  (hc : Changes P s₀ s) : ResChanges P s₀ (execNop r u s) := by
  unfold execNop
  try dsimp only
  repeat' first
    | with_reducible assumption
    | with_reducible exact Changes.refl _ _
    | with_reducible apply Changes.ite
    | with_reducible apply ResChanges.next
    | with_reducible exact ResChanges.fault _
    | with_reducible exact ResChanges.refused _
    | with_reducible apply ResChanges.ite
    | with_reducible apply execWord_changes
    | exact Part.sub_trans (by decide) hp
    | exact Part.mem hp (by decide)
    | (intro _; try dsimp only)
    | split

end Sys2Proof.Machine
end

