-- ==== Sys2Proof/Laws/ChangesSequencer.lean ====
section
/-!
SUPPORT. What each operation of Machine/Sequencer.lean may change.
-/

set_option linter.unusedTactic false
set_option linter.unreachableTactic false
set_option linter.style.longLine false
set_option linter.unusedVariables false
set_option maxRecDepth 8000

namespace Sys2Proof.Machine

open Sys2Proof

theorem envWrite_changes {P : List Part} {s₀ : State} (n : StallId) (p : EnvPlace) (val : Word) (s : State) (hp : Part.sub [.library, .descs] P = true)  (hc : Changes P s₀ s) : Changes P s₀ (envWrite n p val s) := by
  unfold envWrite
  try dsimp only
  repeat' first
    | with_reducible assumption
    | with_reducible exact Changes.refl _ _
    | with_reducible apply Changes.ite
    | (refine Changes.trans hc ⟨fun p hn => ?_⟩; cases p <;> first | rfl | (rw [Part.mem hp (by decide)] at hn; cases hn))
    | exact Part.sub_trans (by decide) hp
    | exact Part.mem hp (by decide)
    | (intro _; try dsimp only)
    | split

theorem execEnvelopeWindowWrite_changes {P : List Part} {s₀ : State} (f : Func) (n : StallId) (w : Fin 2097152) (val : Word) (s : State) (hp : Part.sub [.funcs, .library, .descs] P = true)  (hc : Changes P s₀ s) : ResChanges P s₀ (execEnvelopeWindowWrite f n w val s) := by
  unfold execEnvelopeWindowWrite
  try dsimp only
  repeat' first
    | with_reducible assumption
    | with_reducible exact Changes.refl _ _
    | with_reducible apply Changes.ite
    | with_reducible apply ResChanges.next
    | with_reducible exact ResChanges.fault _
    | with_reducible exact ResChanges.refused _
    | with_reducible apply ResChanges.ite
    | with_reducible apply envWrite_changes
    | with_reducible apply hostCheck_changes
    | exact Part.sub_trans (by decide) hp
    | exact Part.mem hp (by decide)
    | (intro _; try dsimp only)
    | split

theorem hostPost_changes {P : List Part} {s₀ : State} (f : Func) (v : VoiceId) (g : Grant) (p : State → Post) (s : State) (hp : Part.sub [.funcs, .voices, .seqs] P = true)  (hc : Changes P s₀ s) : Changes P s₀ (hostPost f v g p s) := by
  unfold hostPost
  try dsimp only
  repeat' first
    | with_reducible assumption
    | with_reducible exact Changes.refl _ _
    | with_reducible apply Changes.ite
    | with_reducible apply applyPost_changes
    | with_reducible apply countVoice_changes
    | with_reducible apply hostElement_changes
    | exact Part.sub_trans (by decide) hp
    | exact Part.mem hp (by decide)
    | (intro _; try dsimp only)
    | split

theorem execStop_changes {P : List Part} {s₀ : State} (f : Func) (v : VoiceId) (grant : Grant) (s : State) (hp : Part.sub [.funcs, .voices, .seqs] P = true)  (hc : Changes P s₀ s) : ResChanges P s₀ (execStop f v grant s) := by
  unfold execStop
  try dsimp only
  repeat' first
    | with_reducible assumption
    | with_reducible exact Changes.refl _ _
    | with_reducible apply Changes.ite
    | with_reducible apply ResChanges.next
    | with_reducible exact ResChanges.fault _
    | with_reducible exact ResChanges.refused _
    | with_reducible apply ResChanges.ite
    | with_reducible apply hostPost_changes
    | exact Part.sub_trans (by decide) hp
    | exact Part.mem hp (by decide)
    | (intro _; try dsimp only)
    | split

theorem execBreak_changes {P : List Part} {s₀ : State} (f : Func) (v : VoiceId) (grant : Grant) (s : State) (hp : Part.sub [.funcs, .voices, .seqs] P = true)  (hc : Changes P s₀ s) : ResChanges P s₀ (execBreak f v grant s) := by
  unfold execBreak
  try dsimp only
  repeat' first
    | with_reducible assumption
    | with_reducible exact Changes.refl _ _
    | with_reducible apply Changes.ite
    | with_reducible apply ResChanges.next
    | with_reducible exact ResChanges.fault _
    | with_reducible exact ResChanges.refused _
    | with_reducible apply ResChanges.ite
    | with_reducible apply hostPost_changes
    | exact Part.sub_trans (by decide) hp
    | exact Part.mem hp (by decide)
    | (intro _; try dsimp only)
    | split

theorem execBranch_changes {P : List Part} {s₀ : State} (f : Func) (v : VoiceId) (desc : Word) (grant : Grant) (s : State) (hp : Part.sub [.funcs, .voices, .seqs] P = true)  (hc : Changes P s₀ s) : ResChanges P s₀ (execBranch f v desc grant s) := by
  unfold execBranch
  try dsimp only
  repeat' first
    | with_reducible assumption
    | with_reducible exact Changes.refl _ _
    | with_reducible apply Changes.ite
    | with_reducible apply ResChanges.next
    | with_reducible exact ResChanges.fault _
    | with_reducible exact ResChanges.refused _
    | with_reducible apply ResChanges.ite
    | with_reducible apply hostPost_changes
    | exact Part.sub_trans (by decide) hp
    | exact Part.mem hp (by decide)
    | (intro _; try dsimp only)
    | split

theorem execSelectAlt_changes {P : List Part} {s₀ : State} (f : Func) (v : VoiceId) (grant : Grant) (s : State) (hp : Part.sub [.funcs, .voices, .seqs] P = true)  (hc : Changes P s₀ s) : ResChanges P s₀ (execSelectAlt f v grant s) := by
  unfold execSelectAlt
  try dsimp only
  repeat' first
    | with_reducible assumption
    | with_reducible exact Changes.refl _ _
    | with_reducible apply Changes.ite
    | with_reducible apply ResChanges.next
    | with_reducible exact ResChanges.fault _
    | with_reducible exact ResChanges.refused _
    | with_reducible apply ResChanges.ite
    | with_reducible apply hostPost_changes
    | exact Part.sub_trans (by decide) hp
    | exact Part.mem hp (by decide)
    | (intro _; try dsimp only)
    | split

theorem execLoadAlt_changes {P : List Part} {s₀ : State} (f : Func) (v : VoiceId) (desc : Word) (grant : Grant) (s : State) (hp : Part.sub [.funcs, .voices, .seqs] P = true)  (hc : Changes P s₀ s) : ResChanges P s₀ (execLoadAlt f v desc grant s) := by
  unfold execLoadAlt
  try dsimp only
  repeat' first
    | with_reducible assumption
    | with_reducible exact Changes.refl _ _
    | with_reducible apply Changes.ite
    | with_reducible apply ResChanges.next
    | with_reducible exact ResChanges.fault _
    | with_reducible exact ResChanges.refused _
    | with_reducible apply ResChanges.ite
    | with_reducible apply hostPost_changes
    | exact Part.sub_trans (by decide) hp
    | exact Part.mem hp (by decide)
    | (intro _; try dsimp only)
    | split

theorem execVoiceStart_changes {P : List Part} {s₀ : State} (f : Func) (v : VoiceId) (desc : Word) (grant : Grant) (s : State) (hp : Part.sub [.funcs, .voices, .seqs] P = true)  (hc : Changes P s₀ s) : ResChanges P s₀ (execVoiceStart f v desc grant s) := by
  unfold execVoiceStart
  try dsimp only
  repeat' first
    | with_reducible assumption
    | with_reducible exact Changes.refl _ _
    | with_reducible apply Changes.ite
    | with_reducible apply ResChanges.next
    | with_reducible exact ResChanges.fault _
    | with_reducible exact ResChanges.refused _
    | with_reducible apply ResChanges.ite
    | with_reducible apply hostPost_changes
    | exact Part.sub_trans (by decide) hp
    | exact Part.mem hp (by decide)
    | (intro _; try dsimp only)
    | split

theorem streamBack_changes {P : List Part} {s₀ : State} (v : VoiceId) (s : State) (hp : Part.sub [.seqs, .queues, .qdir] P = true)  (hc : Changes P s₀ s) : Changes P s₀ (streamBack v s) := by
  unfold streamBack
  try dsimp only
  repeat' first
    | with_reducible assumption
    | with_reducible exact Changes.refl _ _
    | with_reducible apply Changes.ite
    | with_reducible apply discardBacklog_changes
    | with_reducible apply fillAhead_changes
    | with_reducible apply fillPlay_changes
    | with_reducible apply forEach_changes
    | with_reducible apply modSeq_changes
    | exact Part.sub_trans (by decide) hp
    | exact Part.mem hp (by decide)
    | (intro _; try dsimp only)
    | split

theorem execStreamResume_changes {P : List Part} {s₀ : State} (v : VoiceId) (s : State) (hp : Part.sub [.seqs, .queues, .qdir] P = true)  (hc : Changes P s₀ s) : ResChanges P s₀ (execStreamResume v s) := by
  unfold execStreamResume
  try dsimp only
  repeat' first
    | with_reducible assumption
    | with_reducible exact Changes.refl _ _
    | with_reducible apply Changes.ite
    | with_reducible apply ResChanges.next
    | with_reducible exact ResChanges.fault _
    | with_reducible exact ResChanges.refused _
    | with_reducible apply ResChanges.ite
    | with_reducible apply streamBack_changes
    | exact Part.sub_trans (by decide) hp
    | exact Part.mem hp (by decide)
    | (intro _; try dsimp only)
    | split

theorem streamUnder_changes {P : List Part} {s₀ : State} (v : VoiceId) (s : State) (hp : Part.sub [.funcs, .seqs, .riders] P = true)  (hc : Changes P s₀ s) : Changes P s₀ (streamUnder v s) := by
  unfold streamUnder
  try dsimp only
  repeat' first
    | with_reducible assumption
    | with_reducible exact Changes.refl _ _
    | with_reducible apply Changes.ite
    | with_reducible apply beginUnderrun_changes
    | exact Part.sub_trans (by decide) hp
    | exact Part.mem hp (by decide)
    | (intro _; try dsimp only)
    | split

theorem execStreamUnderrun_changes {P : List Part} {s₀ : State} (v : VoiceId) (s : State) (hp : Part.sub [.funcs, .seqs, .riders] P = true)  (hc : Changes P s₀ s) : ResChanges P s₀ (execStreamUnderrun v s) := by
  unfold execStreamUnderrun
  try dsimp only
  repeat' first
    | with_reducible assumption
    | with_reducible exact Changes.refl _ _
    | with_reducible apply Changes.ite
    | with_reducible apply ResChanges.next
    | with_reducible exact ResChanges.fault _
    | with_reducible exact ResChanges.refused _
    | with_reducible apply ResChanges.ite
    | with_reducible apply streamUnder_changes
    | exact Part.sub_trans (by decide) hp
    | exact Part.mem hp (by decide)
    | (intro _; try dsimp only)
    | split

theorem tellRider_changes {P : List Part} {s₀ : State} (v : VoiceId) (r : State × ForkEnd) (hp : Part.sub [.funcs, .irqs, .stalls, .seqs, .chans, .riders, .queues, .feeds] P = true)  (hc : Changes P s₀ r.1) : Changes P s₀ (tellRider v r) := by
  unfold tellRider
  try dsimp only
  repeat' first
    | with_reducible assumption
    | with_reducible exact Changes.refl _ _
    | with_reducible apply Changes.ite
    | with_reducible apply forkWithoutToken_changes
    | exact Part.sub_trans (by decide) hp
    | exact Part.mem hp (by decide)
    | (intro _; try dsimp only)
    | split

theorem boundaryAtVoice_changes {P : List Part} {s₀ : State} (v : VoiceId) (s : State) (hp : Part.sub [.funcs, .irqs, .stalls, .voices, .seqs, .chans, .units, .riders, .queues, .qdir, .trims, .feeds, .freeCtr] P = true)  (hc : Changes P s₀ s) : Changes P s₀ (boundaryAtVoice v s) := by
  unfold boundaryAtVoice
  try dsimp only
  repeat' first
    | with_reducible assumption
    | with_reducible exact Changes.refl _ _
    | with_reducible apply Changes.ite
    | with_reducible apply segmentEnd_changes
    | with_reducible apply tellRider_changes
    | with_reducible apply Changes.fst_ite
    | refine Changes.fst ‹_ = (_, _)› ?_
    | dsimp only
    | exact Part.sub_trans (by decide) hp
    | exact Part.mem hp (by decide)
    | (intro _; try dsimp only)
    | split

theorem execSegmentBoundary_changes {P : List Part} {s₀ : State} (v : VoiceId) (s : State) (hp : Part.sub [.funcs, .irqs, .stalls, .voices, .seqs, .chans, .units, .riders, .queues, .qdir, .trims, .feeds, .freeCtr] P = true)  (hc : Changes P s₀ s) : ResChanges P s₀ (execSegmentBoundary v s) := by
  unfold execSegmentBoundary
  try dsimp only
  repeat' first
    | with_reducible assumption
    | with_reducible exact Changes.refl _ _
    | with_reducible apply Changes.ite
    | with_reducible apply ResChanges.next
    | with_reducible exact ResChanges.fault _
    | with_reducible exact ResChanges.refused _
    | with_reducible apply ResChanges.ite
    | with_reducible apply boundaryAtVoice_changes
    | exact Part.sub_trans (by decide) hp
    | exact Part.mem hp (by decide)
    | (intro _; try dsimp only)
    | split

theorem repetition_changes {P : List Part} {s₀ : State} (v : VoiceId) (s : State) (hp : Part.sub [.voices, .seqs, .chans, .units, .riders, .trims] P = true)  (hc : Changes P s₀ s) : Changes P s₀ (repetition v s) := by
  unfold repetition
  try dsimp only
  repeat' first
    | with_reducible assumption
    | with_reducible exact Changes.refl _ _
    | with_reducible apply Changes.ite
    | with_reducible apply modSeq_changes
    | with_reducible apply tuneVoice_changes
    | exact Part.sub_trans (by decide) hp
    | exact Part.mem hp (by decide)
    | (intro _; try dsimp only)
    | split

theorem execRepetitionBoundary_changes {P : List Part} {s₀ : State} (v : VoiceId) (s : State) (hp : Part.sub [.voices, .seqs, .chans, .units, .riders, .trims] P = true)  (hc : Changes P s₀ s) : ResChanges P s₀ (execRepetitionBoundary v s) := by
  unfold execRepetitionBoundary
  try dsimp only
  repeat' first
    | with_reducible assumption
    | with_reducible exact Changes.refl _ _
    | with_reducible apply Changes.ite
    | with_reducible apply ResChanges.next
    | with_reducible exact ResChanges.fault _
    | with_reducible exact ResChanges.refused _
    | with_reducible apply ResChanges.ite
    | with_reducible apply repetition_changes
    | exact Part.sub_trans (by decide) hp
    | exact Part.mem hp (by decide)
    | (intro _; try dsimp only)
    | split

theorem commitPoint_changes {P : List Part} {s₀ : State} (v : VoiceId) (s : State) (hp : Part.sub [.funcs, .seqs] P = true)  (hc : Changes P s₀ s) : Changes P s₀ (commitPoint v s) := by
  unfold commitPoint
  try dsimp only
  repeat' first
    | with_reducible assumption
    | with_reducible exact Changes.refl _ _
    | with_reducible apply Changes.ite
    | with_reducible apply judge_changes
    | exact Part.sub_trans (by decide) hp
    | exact Part.mem hp (by decide)
    | (intro _; try dsimp only)
    | split

theorem execCommitPoint_changes {P : List Part} {s₀ : State} (v : VoiceId) (s : State) (hp : Part.sub [.funcs, .seqs] P = true)  (hc : Changes P s₀ s) : ResChanges P s₀ (execCommitPoint v s) := by
  unfold execCommitPoint
  try dsimp only
  repeat' first
    | with_reducible assumption
    | with_reducible exact Changes.refl _ _
    | with_reducible apply Changes.ite
    | with_reducible apply ResChanges.next
    | with_reducible exact ResChanges.fault _
    | with_reducible exact ResChanges.refused _
    | with_reducible apply ResChanges.ite
    | with_reducible apply commitPoint_changes
    | exact Part.sub_trans (by decide) hp
    | exact Part.mem hp (by decide)
    | (intro _; try dsimp only)
    | split

theorem skipWords_changes {P : List Part} {s₀ : State} (v : VoiceId) (e : Nat) (s : State) (hp : Part.sub [.seqs, .queues, .qdir] P = true)  (hc : Changes P s₀ s) : Changes P s₀ (skipWords v e s) := by
  unfold skipWords
  try dsimp only
  repeat' first
    | with_reducible assumption
    | with_reducible exact Changes.refl _ _
    | with_reducible apply Changes.ite
    | with_reducible apply fillPlay_changes
    | with_reducible apply modSeq_changes
    | exact Part.sub_trans (by decide) hp
    | exact Part.mem hp (by decide)
    | (intro _; try dsimp only)
    | split

theorem pastCut_changes {P : List Part} {s₀ t : State} (v : VoiceId) (end_ : Fine) (s : State) (ho : (pastCut v end_ s) = some t) (hp : Part.sub [.funcs, .voices, .seqs, .chans, .units, .riders, .queues, .qdir, .trims, .freeCtr] P = true) (hc : Changes P s₀ s) : Changes P s₀ t := by
  unfold pastCut at ho
  dsimp only at ho
  have h1 := modSeq_changes v preferReady s (Part.sub_trans (by decide) hp) hc
  repeat' split at ho
  all_goals first
    | (cases ho; done)
    | exact forkAtHold_changes _ _ _ ho (Part.sub_trans (by decide) hp) h1
    | exact selAtHold_changes _ _ _ ho (Part.sub_trans (by decide) hp) h1

theorem catchUp_changes {P : List Part} {s₀ : State} (v : VoiceId) (x1 : Nat) (x2 : State) (hp : Part.sub [.funcs, .irqs, .stalls, .voices, .seqs, .chans, .units, .riders, .queues, .qdir, .trims, .feeds, .freeCtr] P = true)  (hc : Changes P s₀ x2) : Changes P s₀ (catchUp v x1 x2) := by
  induction x1 generalizing x2 with
  | zero => exact hc
  | succ n ih =>
    unfold catchUp
    dsimp only
    split
    · split
      · exact modSeq_changes _ _ _ (Part.sub_trans (by decide) hp) hc
      · split
        · rename_i h
          exact ih _ (pastCut_changes _ _ _ h (Part.sub_trans (by decide) hp) hc)
        · have hk : ∀ e : Nat, Changes P s₀ (skipWords v e x2) := fun e => skipWords_changes _ _ _ (Part.sub_trans (by decide) hp) hc
          split
          · exact modSeq_changes _ _ _ (Part.sub_trans (by decide) hp) (hk _)
          · refine ih _ (Changes.ite (fun _ => ?_) fun _ => ?_)
            · exact tellRider_changes _ _ (Part.sub_trans (by decide) hp) (holdEnd_changes _ _ _ (Part.sub_trans (by decide) hp) (hk _))
            · exact playBoundary_changes _ _ _ (Part.sub_trans (by decide) hp) (hk _)
    · exact hc

theorem judgeBreak_changes {P : List Part} {s₀ : State} (v : VoiceId) (s : State) (hp : Part.sub [.funcs, .seqs] P = true)  (hc : Changes P s₀ s) : Changes P s₀ (judgeBreak v s) := by
  unfold judgeBreak
  try dsimp only
  repeat' first
    | with_reducible assumption
    | with_reducible exact Changes.refl _ _
    | with_reducible apply Changes.ite
    | with_reducible apply countLate_changes
    | with_reducible apply modSeq_changes
    | exact Part.sub_trans (by decide) hp
    | exact Part.mem hp (by decide)
    | (intro _; try dsimp only)
    | split

theorem portReady_changes {P : List Part} {s₀ : State} (v : VoiceId) (w : WaitPort) (s : State) (hp : Part.sub [.funcs, .irqs, .stalls, .voices, .seqs, .chans, .units, .riders, .queues, .qdir, .trims, .feeds, .freeCtr] P = true)  (hc : Changes P s₀ s) : Changes P s₀ (portReady v w s) := by
  unfold portReady
  try dsimp only
  repeat' first
    | with_reducible assumption
    | with_reducible exact Changes.refl _ _
    | with_reducible apply Changes.ite
    | with_reducible apply catchUp_changes
    | with_reducible apply countFork_changes
    | with_reducible apply judgeBreak_changes
    | with_reducible apply modSeq_changes
    | with_reducible apply takePort_changes
    | exact Part.sub_trans (by decide) hp
    | exact Part.mem hp (by decide)
    | (intro _; try dsimp only)
    | split

theorem portEmpty_changes {P : List Part} {s₀ : State} (v : VoiceId) (w : WaitPort) (s : State) (hp : Part.sub [.seqs, .riders] P = true)  (hc : Changes P s₀ s) : Changes P s₀ (portEmpty v w s) := by
  unfold portEmpty
  try dsimp only
  repeat' first
    | with_reducible assumption
    | with_reducible exact Changes.refl _ _
    | with_reducible apply Changes.ite
    | with_reducible apply countFork_changes
    | with_reducible apply goIdle_changes
    | exact Part.sub_trans (by decide) hp
    | exact Part.mem hp (by decide)
    | (intro _; try dsimp only)
    | split

theorem branchLoaded_changes {P : List Part} {s₀ : State} (v : VoiceId) (s : State) (hp : Part.sub [.funcs, .irqs, .stalls, .voices, .seqs, .chans, .units, .riders, .queues, .qdir, .trims, .feeds, .freeCtr] P = true)  (hc : Changes P s₀ s) : Changes P s₀ (branchLoaded v s) := by
  unfold branchLoaded
  try dsimp only
  repeat' first
    | with_reducible assumption
    | with_reducible exact Changes.refl _ _
    | with_reducible apply Changes.ite
    | with_reducible apply modSeq_changes
    | with_reducible apply portEmpty_changes
    | with_reducible apply portReady_changes
    | with_reducible apply recordVoice_changes
    | exact Part.sub_trans (by decide) hp
    | exact Part.mem hp (by decide)
    | (intro _; try dsimp only)
    | split

theorem altLoaded_changes {P : List Part} {s₀ : State} (v : VoiceId) (s : State) (hp : Part.sub [.funcs, .irqs, .stalls, .voices, .seqs, .chans, .units, .riders, .queues, .qdir, .trims, .feeds, .freeCtr] P = true)  (hc : Changes P s₀ s) : Changes P s₀ (altLoaded v s) := by
  unfold altLoaded
  try dsimp only
  repeat' first
    | with_reducible assumption
    | with_reducible exact Changes.refl _ _
    | with_reducible apply Changes.ite
    | with_reducible apply modSeq_changes
    | with_reducible apply portEmpty_changes
    | with_reducible apply portReady_changes
    | with_reducible apply recordVoice_changes
    | exact Part.sub_trans (by decide) hp
    | exact Part.mem hp (by decide)
    | (intro _; try dsimp only)
    | split

theorem primLoaded_changes {P : List Part} {s₀ : State} (v : VoiceId) (s : State) (hp : Part.sub [.funcs, .irqs, .stalls, .voices, .seqs, .chans, .units, .riders, .queues, .qdir, .trims, .feeds, .freeCtr] P = true)  (hc : Changes P s₀ s) : Changes P s₀ (primLoaded v s) := by
  unfold primLoaded
  try dsimp only
  repeat' first
    | with_reducible assumption
    | with_reducible exact Changes.refl _ _
    | with_reducible apply Changes.ite
    | with_reducible apply fillAhead_changes
    | with_reducible apply modSeq_changes
    | with_reducible apply portEmpty_changes
    | with_reducible apply portReady_changes
    | with_reducible apply recordVoice_changes
    | exact Part.sub_trans (by decide) hp
    | exact Part.mem hp (by decide)
    | (intro _; try dsimp only)
    | split

theorem execDescriptorLoadDone_changes {P : List Part} {s₀ : State} (v : VoiceId) (side : PortSide) (s : State) (hp : Part.sub [.funcs, .irqs, .stalls, .voices, .seqs, .chans, .units, .riders, .queues, .qdir, .trims, .feeds, .freeCtr] P = true)  (hc : Changes P s₀ s) : ResChanges P s₀ (execDescriptorLoadDone v side s) := by
  unfold execDescriptorLoadDone
  try dsimp only
  repeat' first
    | with_reducible assumption
    | with_reducible exact Changes.refl _ _
    | with_reducible apply Changes.ite
    | with_reducible apply ResChanges.next
    | with_reducible exact ResChanges.fault _
    | with_reducible exact ResChanges.refused _
    | with_reducible apply ResChanges.ite
    | with_reducible apply altLoaded_changes
    | with_reducible apply branchLoaded_changes
    | with_reducible apply primLoaded_changes
    | exact Part.sub_trans (by decide) hp
    | exact Part.mem hp (by decide)
    | (intro _; try dsimp only)
    | split

theorem playStart_changes {P : List Part} {s₀ : State} (v : VoiceId) (s : State) (hp : Part.sub [.funcs, .voices, .seqs, .chans, .units, .riders, .queues, .qdir, .trims] P = true)  (hc : Changes P s₀ s) : Changes P s₀ (playStart v s) := by
  unfold playStart
  try dsimp only
  repeat' first
    | with_reducible assumption
    | with_reducible exact Changes.refl _ _
    | with_reducible apply Changes.ite
    | with_reducible apply modSeq_changes
    | with_reducible apply takePort_changes
    | exact Part.sub_trans (by decide) hp
    | exact Part.mem hp (by decide)
    | (intro _; try dsimp only)
    | split

theorem execPlayStart_changes {P : List Part} {s₀ : State} (v : VoiceId) (s : State) (hp : Part.sub [.funcs, .voices, .seqs, .chans, .units, .riders, .queues, .qdir, .trims] P = true)  (hc : Changes P s₀ s) : ResChanges P s₀ (execPlayStart v s) := by
  unfold execPlayStart
  try dsimp only
  repeat' first
    | with_reducible assumption
    | with_reducible exact Changes.refl _ _
    | with_reducible apply Changes.ite
    | with_reducible apply ResChanges.next
    | with_reducible exact ResChanges.fault _
    | with_reducible exact ResChanges.refused _
    | with_reducible apply ResChanges.ite
    | with_reducible apply playStart_changes
    | exact Part.sub_trans (by decide) hp
    | exact Part.mem hp (by decide)
    | (intro _; try dsimp only)
    | split

end Sys2Proof.Machine
end

