-- ==== Sys2Proof/Laws/ChangesTally.lean ====
section
/-!
SUPPORT. What each operation of Machine/Tally.lean may change.
-/

set_option linter.unusedTactic false
set_option linter.unreachableTactic false
set_option linter.style.longLine false
set_option linter.unusedVariables false
set_option maxRecDepth 8000

namespace Sys2Proof.Machine

open Sys2Proof

theorem execTallyMirrorWrite_changes {P : List Part} {s₀ : State} (f : Func) (w : Fin 17408) (s : State) (hp : Part.sub [.funcs] P = true)  (hc : Changes P s₀ s) : ResChanges P s₀ (execTallyMirrorWrite f w s) := by
  unfold execTallyMirrorWrite
  try dsimp only
  repeat' first
    | with_reducible assumption
    | with_reducible exact Changes.refl _ _
    | with_reducible apply Changes.ite
    | with_reducible apply ResChanges.next
    | with_reducible exact ResChanges.fault _
    | with_reducible exact ResChanges.refused _
    | with_reducible apply ResChanges.ite
    | with_reducible apply refuseReg_changes
    | exact Part.sub_trans (by decide) hp
    | exact Part.mem hp (by decide)
    | (intro _; try dsimp only)
    | split

theorem mirrorOld_changes {P : List Part} {s₀ : State} (s : State) (hp : Part.sub [.host, .funcs, .irqs] P = true)  (hc : Changes P s₀ s) : Changes P s₀ (mirrorOld s) := by
  unfold mirrorOld
  try dsimp only
  repeat' first
    | with_reducible assumption
    | with_reducible exact Changes.refl _ _
    | with_reducible apply Changes.ite
    | with_reducible apply raise_changes
    | with_reducible apply record_changes
    | with_reducible apply setHost_changes
    | exact Part.sub_trans (by decide) hp
    | exact Part.mem hp (by decide)
    | (intro _; try dsimp only)
    | split

theorem execMirrorStale_changes {P : List Part} {s₀ : State} (s : State) (hp : Part.sub [.host, .funcs, .irqs] P = true)  (hc : Changes P s₀ s) : ResChanges P s₀ (execMirrorStale s) := by
  unfold execMirrorStale
  try dsimp only
  repeat' first
    | with_reducible assumption
    | with_reducible exact Changes.refl _ _
    | with_reducible apply Changes.ite
    | with_reducible apply ResChanges.next
    | with_reducible exact ResChanges.fault _
    | with_reducible exact ResChanges.refused _
    | with_reducible apply ResChanges.ite
    | with_reducible apply mirrorOld_changes
    | exact Part.sub_trans (by decide) hp
    | exact Part.mem hp (by decide)
    | (intro _; try dsimp only)
    | split

theorem refreshMirror_changes {P : List Part} {s₀ : State} (s : State) (hp : Part.sub [.host, .tally, .freeCtr] P = true)  (hc : Changes P s₀ s) : Changes P s₀ (refreshMirror s) := by
  unfold refreshMirror
  try dsimp only
  repeat' first
    | with_reducible assumption
    | with_reducible exact Changes.refl _ _
    | with_reducible apply Changes.ite
    | with_reducible apply freshen_changes
    | with_reducible apply setHost_changes
    | with_reducible apply setTally_changes
    | exact Part.sub_trans (by decide) hp
    | exact Part.mem hp (by decide)
    | (intro _; try dsimp only)
    | split

theorem execMirrorRefresh_changes {P : List Part} {s₀ : State} (s : State) (hp : Part.sub [.host, .tally, .freeCtr] P = true)  (hc : Changes P s₀ s) : ResChanges P s₀ (execMirrorRefresh s) := by
  unfold execMirrorRefresh
  try dsimp only
  repeat' first
    | with_reducible assumption
    | with_reducible exact Changes.refl _ _
    | with_reducible apply Changes.ite
    | with_reducible apply ResChanges.next
    | with_reducible exact ResChanges.fault _
    | with_reducible exact ResChanges.refused _
    | with_reducible apply ResChanges.ite
    | with_reducible apply refreshMirror_changes
    | exact Part.sub_trans (by decide) hp
    | exact Part.mem hp (by decide)
    | (intro _; try dsimp only)
    | split

theorem setSeal_changes {P : List Part} {s₀ : State} (x : SealState) (s : State) (hp : Part.sub [.tally] P = true)  (hc : Changes P s₀ s) : Changes P s₀ (setSeal x s) := by
  unfold setSeal
  try dsimp only
  repeat' first
    | with_reducible assumption
    | with_reducible exact Changes.refl _ _
    | with_reducible apply Changes.ite
    | with_reducible apply setTally_changes
    | exact Part.sub_trans (by decide) hp
    | exact Part.mem hp (by decide)
    | (intro _; try dsimp only)
    | split

theorem tallyFault_changes {P : List Part} {s₀ : State} (memoryOk : Bool) (s : State) (hp : Part.sub [.tally] P = true)  (hc : Changes P s₀ s) : Changes P s₀ (tallyFault memoryOk s) := by
  unfold tallyFault
  try dsimp only
  repeat' first
    | with_reducible assumption
    | with_reducible exact Changes.refl _ _
    | with_reducible apply Changes.ite
    | with_reducible apply setSeal_changes
    | with_reducible apply tallyLog_changes
    | exact Part.sub_trans (by decide) hp
    | exact Part.mem hp (by decide)
    | (intro _; try dsimp only)
    | split

theorem badFirmware_changes {P : List Part} {s₀ : State} (check : BitVec 32) (memoryOk : Bool) (s : State) (hp : Part.sub [.tally] P = true)  (hc : Changes P s₀ s) : Changes P s₀ (badFirmware check memoryOk s) := by
  unfold badFirmware
  try dsimp only
  repeat' first
    | with_reducible assumption
    | with_reducible exact Changes.refl _ _
    | with_reducible apply Changes.ite
    | with_reducible apply tallyFault_changes
    | with_reducible apply tallyLog_changes
    | exact Part.sub_trans (by decide) hp
    | exact Part.mem hp (by decide)
    | (intro _; try dsimp only)
    | split

theorem execFirmwareCheck_changes {P : List Part} {s₀ : State} (check : BitVec 32) (s : State) (hp : Part.sub [.tally] P = true)  (hc : Changes P s₀ s) : ResChanges P s₀ (execFirmwareCheck check s) := by
  unfold execFirmwareCheck
  try dsimp only
  repeat' first
    | with_reducible assumption
    | with_reducible exact Changes.refl _ _
    | with_reducible apply Changes.ite
    | with_reducible apply ResChanges.next
    | with_reducible exact ResChanges.fault _
    | with_reducible exact ResChanges.refused _
    | with_reducible apply ResChanges.ite
    | with_reducible apply badFirmware_changes
    | exact Part.sub_trans (by decide) hp
    | exact Part.mem hp (by decide)
    | (intro _; try dsimp only)
    | split

theorem tallyStarts_changes {P : List Part} {s₀ : State} (carrier : Nat) (check : BitVec 32) (memoryOk : Bool) (s : State) (hp : Part.sub [.tally] P = true)  (hc : Changes P s₀ s) : Changes P s₀ (tallyStarts carrier check memoryOk s) := by
  unfold tallyStarts
  try dsimp only
  repeat' first
    | with_reducible assumption
    | with_reducible exact Changes.refl _ _
    | with_reducible apply Changes.ite
    | with_reducible apply badFirmware_changes
    | with_reducible apply setSeal_changes
    | with_reducible apply setTally_changes
    | with_reducible apply tallyFault_changes
    | with_reducible apply tallyLog_changes
    | exact Part.sub_trans (by decide) hp
    | exact Part.mem hp (by decide)
    | (intro _; try dsimp only)
    | split

theorem execTallyPowerOn_changes {P : List Part} {s₀ : State} (carrier : Nat) (check : BitVec 32) (memoryOk : Bool) (s : State) (hp : Part.sub [.tally] P = true)  (hc : Changes P s₀ s) : ResChanges P s₀ (execTallyPowerOn carrier check memoryOk s) := by
  unfold execTallyPowerOn
  try dsimp only
  repeat' first
    | with_reducible assumption
    | with_reducible exact Changes.refl _ _
    | with_reducible apply Changes.ite
    | with_reducible apply ResChanges.next
    | with_reducible exact ResChanges.fault _
    | with_reducible exact ResChanges.refused _
    | with_reducible apply ResChanges.ite
    | with_reducible apply tallyStarts_changes
    | exact Part.sub_trans (by decide) hp
    | exact Part.mem hp (by decide)
    | (intro _; try dsimp only)
    | split

theorem sealWrite_changes {P : List Part} {s₀ : State} (item : SealItem) (s : State) (hp : Part.sub [.tally, .freeCtr] P = true)  (hc : Changes P s₀ s) : Changes P s₀ (sealWrite item s) := by
  unfold sealWrite
  try dsimp only
  repeat' first
    | with_reducible assumption
    | with_reducible exact Changes.refl _ _
    | with_reducible apply Changes.ite
    | with_reducible apply freshen_changes
    | with_reducible apply setTally_changes
    | with_reducible apply tallyLog_changes
    | exact Part.sub_trans (by decide) hp
    | exact Part.mem hp (by decide)
    | (intro _; try dsimp only)
    | split

theorem execSealPortConfiguration_changes {P : List Part} {s₀ : State} (item : SealItem) (s : State) (hp : Part.sub [.tally, .freeCtr] P = true)  (hc : Changes P s₀ s) : ResChanges P s₀ (execSealPortConfiguration item s) := by
  unfold execSealPortConfiguration
  try dsimp only
  repeat' first
    | with_reducible assumption
    | with_reducible exact Changes.refl _ _
    | with_reducible apply Changes.ite
    | with_reducible apply ResChanges.next
    | with_reducible exact ResChanges.fault _
    | with_reducible exact ResChanges.refused _
    | with_reducible apply ResChanges.ite
    | with_reducible apply sealWrite_changes
    | exact Part.sub_trans (by decide) hp
    | exact Part.mem hp (by decide)
    | (intro _; try dsimp only)
    | split

theorem sealClose_changes {P : List Part} {s₀ : State} (s : State) (hp : Part.sub [.tally] P = true)  (hc : Changes P s₀ s) : Changes P s₀ (sealClose s) := by
  unfold sealClose
  try dsimp only
  repeat' first
    | with_reducible assumption
    | with_reducible exact Changes.refl _ _
    | with_reducible apply Changes.ite
    | with_reducible apply setSeal_changes
    | with_reducible apply tallyLog_changes
    | exact Part.sub_trans (by decide) hp
    | exact Part.mem hp (by decide)
    | (intro _; try dsimp only)
    | split

theorem execSealClosed_changes {P : List Part} {s₀ : State} (s : State) (hp : Part.sub [.tally] P = true)  (hc : Changes P s₀ s) : ResChanges P s₀ (execSealClosed s) := by
  unfold execSealClosed
  try dsimp only
  repeat' first
    | with_reducible assumption
    | with_reducible exact Changes.refl _ _
    | with_reducible apply Changes.ite
    | with_reducible apply ResChanges.next
    | with_reducible exact ResChanges.fault _
    | with_reducible exact ResChanges.refused _
    | with_reducible apply ResChanges.ite
    | with_reducible apply sealClose_changes
    | exact Part.sub_trans (by decide) hp
    | exact Part.mem hp (by decide)
    | (intro _; try dsimp only)
    | split

theorem sealOpen_changes {P : List Part} {s₀ : State} (s : State) (hp : Part.sub [.tally] P = true)  (hc : Changes P s₀ s) : Changes P s₀ (sealOpen s) := by
  unfold sealOpen
  try dsimp only
  repeat' first
    | with_reducible assumption
    | with_reducible exact Changes.refl _ _
    | with_reducible apply Changes.ite
    | with_reducible apply setTally_changes
    | with_reducible apply tallyLog_changes
    | exact Part.sub_trans (by decide) hp
    | exact Part.mem hp (by decide)
    | (intro _; try dsimp only)
    | split

theorem execSealOpened_changes {P : List Part} {s₀ : State} (s : State) (hp : Part.sub [.tally] P = true)  (hc : Changes P s₀ s) : ResChanges P s₀ (execSealOpened s) := by
  unfold execSealOpened
  try dsimp only
  repeat' first
    | with_reducible assumption
    | with_reducible exact Changes.refl _ _
    | with_reducible apply Changes.ite
    | with_reducible apply ResChanges.next
    | with_reducible exact ResChanges.fault _
    | with_reducible exact ResChanges.refused _
    | with_reducible apply ResChanges.ite
    | with_reducible apply sealOpen_changes
    | exact Part.sub_trans (by decide) hp
    | exact Part.mem hp (by decide)
    | (intro _; try dsimp only)
    | split

theorem feedLost_changes {P : List Part} {s₀ : State} (k : FeedId) (s : State) (hp : Part.sub [.tally] P = true)  (hc : Changes P s₀ s) : Changes P s₀ (feedLost k s) := by
  unfold feedLost
  try dsimp only
  repeat' first
    | with_reducible assumption
    | with_reducible exact Changes.refl _ _
    | with_reducible apply Changes.ite
    | with_reducible apply setTally_changes
    | with_reducible apply tallyLog_changes
    | exact Part.sub_trans (by decide) hp
    | exact Part.mem hp (by decide)
    | (intro _; try dsimp only)
    | split

theorem execFeedTimeout_changes {P : List Part} {s₀ : State} (id : FeedId) (s : State) (hp : Part.sub [.tally] P = true)  (hc : Changes P s₀ s) : ResChanges P s₀ (execFeedTimeout id s) := by
  unfold execFeedTimeout
  try dsimp only
  repeat' first
    | with_reducible assumption
    | with_reducible exact Changes.refl _ _
    | with_reducible apply Changes.ite
    | with_reducible apply ResChanges.next
    | with_reducible exact ResChanges.fault _
    | with_reducible exact ResChanges.refused _
    | with_reducible apply ResChanges.ite
    | with_reducible apply feedLost_changes
    | exact Part.sub_trans (by decide) hp
    | exact Part.mem hp (by decide)
    | (intro _; try dsimp only)
    | split

theorem execFeedMessage_changes {P : List Part} {s₀ : State} (msg : FeedIn) (s : State) (hp : Part.sub [.tally] P = true)  (hc : Changes P s₀ s) : ResChanges P s₀ (execFeedMessage msg s) := by
  unfold execFeedMessage
  try dsimp only
  repeat' first
    | with_reducible assumption
    | with_reducible exact Changes.refl _ _
    | with_reducible apply Changes.ite
    | with_reducible apply ResChanges.next
    | with_reducible exact ResChanges.fault _
    | with_reducible exact ResChanges.refused _
    | with_reducible apply ResChanges.ite
    | with_reducible apply takeMessage_changes
    | exact Part.sub_trans (by decide) hp
    | exact Part.mem hp (by decide)
    | (intro _; try dsimp only)
    | split

theorem execFeedSend_changes {P : List Part} {s₀ : State} (id : FeedId) (s : State) (hp : Part.sub [.feeds] P = true)  (hc : Changes P s₀ s) : ResChanges P s₀ (execFeedSend id s) := by
  unfold execFeedSend
  try dsimp only
  repeat' first
    | with_reducible assumption
    | with_reducible exact Changes.refl _ _
    | with_reducible apply Changes.ite
    | with_reducible apply ResChanges.next
    | with_reducible exact ResChanges.fault _
    | with_reducible exact ResChanges.refused _
    | with_reducible apply ResChanges.ite
    | with_reducible apply sendFeed_changes
    | exact Part.sub_trans (by decide) hp
    | exact Part.mem hp (by decide)
    | (intro _; try dsimp only)
    | split

theorem tickRefresh_changes {P : List Part} {s₀ : State} (s : State) (hp : Part.sub [.tally] P = true)  (hc : Changes P s₀ s) : Changes P s₀ (tickRefresh s) := by
  unfold tickRefresh
  try dsimp only
  repeat' first
    | with_reducible assumption
    | with_reducible exact Changes.refl _ _
    | with_reducible apply Changes.ite
    | with_reducible apply setTally_changes
    | exact Part.sub_trans (by decide) hp
    | exact Part.mem hp (by decide)
    | (intro _; try dsimp only)
    | split

end Sys2Proof.Machine
end

