-- ==== Sys2Proof/Laws/ChangesTether.lean ====
section
/-!
SUPPORT. What each operation of Machine/Tether.lean may change.
-/

set_option linter.unusedTactic false
set_option linter.unreachableTactic false
set_option linter.style.longLine false
set_option linter.unusedVariables false
set_option maxRecDepth 8000

namespace Sys2Proof.Machine

open Sys2Proof

theorem execCheckerLockLost_changes {P : List Part} {s₀ : State} (lane : LaneId) (s : State) (hp : Part.sub [.lanes] P = true)  (hc : Changes P s₀ s) : ResChanges P s₀ (execCheckerLockLost lane s) := by
  unfold execCheckerLockLost
  try dsimp only
  repeat' first
    | with_reducible assumption
    | with_reducible exact Changes.refl _ _
    | with_reducible apply Changes.ite
    | with_reducible apply ResChanges.next
    | with_reducible exact ResChanges.fault _
    | with_reducible exact ResChanges.refused _
    | with_reducible apply ResChanges.ite
    | with_reducible apply modLane_changes
    | exact Part.sub_trans (by decide) hp
    | exact Part.mem hp (by decide)
    | (intro _; try dsimp only)
    | split

theorem execCheckerLocked_changes {P : List Part} {s₀ : State} (lane : LaneId) (s : State) (hp : Part.sub [.lanes] P = true)  (hc : Changes P s₀ s) : ResChanges P s₀ (execCheckerLocked lane s) := by
  unfold execCheckerLocked
  try dsimp only
  repeat' first
    | with_reducible assumption
    | with_reducible exact Changes.refl _ _
    | with_reducible apply Changes.ite
    | with_reducible apply ResChanges.next
    | with_reducible exact ResChanges.fault _
    | with_reducible exact ResChanges.refused _
    | with_reducible apply ResChanges.ite
    | with_reducible apply modLane_changes
    | exact Part.sub_trans (by decide) hp
    | exact Part.mem hp (by decide)
    | (intro _; try dsimp only)
    | split

theorem setPrbs_changes {P : List Part} {s₀ : State} (k : LaneId) (val : Word) (s : State) (hp : Part.sub [.lanes, .freeCtr] P = true)  (hc : Changes P s₀ s) : Changes P s₀ (setPrbs k val s) := by
  unfold setPrbs
  try dsimp only
  repeat' first
    | with_reducible assumption
    | with_reducible exact Changes.refl _ _
    | with_reducible apply Changes.ite
    | with_reducible apply freshen_changes
    | with_reducible apply modLane_changes
    | dsimp only [id]
    | exact Part.sub_trans (by decide) hp
    | exact Part.mem hp (by decide)
    | (intro _; try dsimp only)
    | split

theorem execTlPrbsWrite_changes {P : List Part} {s₀ : State} (f : Func) (lane : LaneId) (val : Word) (s : State) (hp : Part.sub [.funcs, .lanes, .freeCtr] P = true)  (hc : Changes P s₀ s) : ResChanges P s₀ (execTlPrbsWrite f lane val s) := by
  unfold execTlPrbsWrite
  try dsimp only
  repeat' first
    | with_reducible assumption
    | with_reducible exact Changes.refl _ _
    | with_reducible apply Changes.ite
    | with_reducible apply ResChanges.next
    | with_reducible exact ResChanges.fault _
    | with_reducible exact ResChanges.refused _
    | with_reducible apply ResChanges.ite
    | with_reducible apply hostCheck_changes
    | with_reducible apply setPrbs_changes
    | exact Part.sub_trans (by decide) hp
    | exact Part.mem hp (by decide)
    | (intro _; try dsimp only)
    | split

theorem tlCtl_changes {P : List Part} {s₀ : State} (k : LaneId) (val : Word) (s : State) (hp : Part.sub [.funcs, .irqs, .books, .lanes, .tether, .tc] P = true)  (hc : Changes P s₀ s) : Changes P s₀ (tlCtl k val s) := by
  unfold tlCtl
  try dsimp only
  repeat' first
    | with_reducible assumption
    | with_reducible exact Changes.refl _ _
    | with_reducible apply Changes.ite
    | with_reducible apply modLane_changes
    | with_reducible apply train_changes
    | with_reducible apply unhitch_changes
    | exact Part.sub_trans (by decide) hp
    | exact Part.mem hp (by decide)
    | (intro _; try dsimp only)
    | split

theorem execTlCtlWrite_changes {P : List Part} {s₀ : State} (f : Func) (lane : LaneId) (val : Word) (s : State) (hp : Part.sub [.funcs, .irqs, .books, .lanes, .tether, .tc] P = true)  (hc : Changes P s₀ s) : ResChanges P s₀ (execTlCtlWrite f lane val s) := by
  unfold execTlCtlWrite
  try dsimp only
  repeat' first
    | with_reducible assumption
    | with_reducible exact Changes.refl _ _
    | with_reducible apply Changes.ite
    | with_reducible apply ResChanges.next
    | with_reducible exact ResChanges.fault _
    | with_reducible exact ResChanges.refused _
    | with_reducible apply ResChanges.ite
    | with_reducible apply hostWrite_changes
    | with_reducible apply tlCtl_changes
    | exact Part.sub_trans (by decide) hp
    | exact Part.mem hp (by decide)
    | (intro _; try dsimp only)
    | split

theorem tetherOp_changes {P : List Part} {s₀ : State} (g : OpStatus → OpStatus) (s : State) (hp : Part.sub [.tether] P = true)  (hc : Changes P s₀ s) : Changes P s₀ (tetherOp g s) := by
  unfold tetherOp
  try dsimp only
  repeat' first
    | with_reducible assumption
    | with_reducible exact Changes.refl _ _
    | with_reducible apply Changes.ite
    | with_reducible apply setTether_changes
    | exact Part.sub_trans (by decide) hp
    | exact Part.mem hp (by decide)
    | (intro _; try dsimp only)
    | split

theorem execInject_changes {P : List Part} {s₀ : State} (f : Func) (lane : LaneId) (s : State) (hp : Part.sub [.funcs, .lanes, .tether] P = true)  (hc : Changes P s₀ s) : ResChanges P s₀ (execInject f lane s) := by
  unfold execInject
  try dsimp only
  repeat' first
    | with_reducible assumption
    | with_reducible exact Changes.refl _ _
    | with_reducible apply Changes.ite
    | with_reducible apply ResChanges.next
    | with_reducible exact ResChanges.fault _
    | with_reducible exact ResChanges.refused _
    | with_reducible apply ResChanges.ite
    | with_reducible apply modLane_changes
    | with_reducible apply spineCommand_changes
    | with_reducible apply tetherOp_changes
    | exact Part.sub_trans (by decide) hp
    | exact Part.mem hp (by decide)
    | (intro _; try dsimp only)
    | split

theorem startRetrain_changes {P : List Part} {s₀ : State} (k : LaneId) (s : State) (hp : Part.sub [.funcs, .irqs, .books, .lanes, .tether, .tc] P = true)  (hc : Changes P s₀ s) : Changes P s₀ (startRetrain k s) := by
  unfold startRetrain
  try dsimp only
  repeat' first
    | with_reducible assumption
    | with_reducible exact Changes.refl _ _
    | with_reducible apply Changes.ite
    | with_reducible apply laneLeaves_changes
    | with_reducible apply modLane_changes
    | with_reducible apply setTether_changes
    | with_reducible apply steerFollower_changes
    | with_reducible apply train_changes
    | exact Part.sub_trans (by decide) hp
    | exact Part.mem hp (by decide)
    | (intro _; try dsimp only)
    | split

theorem execRetrain_changes {P : List Part} {s₀ : State} (f : Func) (lane : LaneId) (s : State) (hp : Part.sub [.funcs, .irqs, .books, .lanes, .tether, .tc] P = true)  (hc : Changes P s₀ s) : ResChanges P s₀ (execRetrain f lane s) := by
  unfold execRetrain
  try dsimp only
  repeat' first
    | with_reducible assumption
    | with_reducible exact Changes.refl _ _
    | with_reducible apply Changes.ite
    | with_reducible apply ResChanges.next
    | with_reducible exact ResChanges.fault _
    | with_reducible exact ResChanges.refused _
    | with_reducible apply ResChanges.ite
    | with_reducible apply spineCommand_changes
    | with_reducible apply startRetrain_changes
    | with_reducible apply tetherOp_changes
    | exact Part.sub_trans (by decide) hp
    | exact Part.mem hp (by decide)
    | (intro _; try dsimp only)
    | split

theorem execTimeMarkTimer_changes {P : List Part} {s₀ : State} (lane : LaneId) (s : State) (hp : Part.sub [.lanes] P = true)  (hc : Changes P s₀ s) : ResChanges P s₀ (execTimeMarkTimer lane s) := by
  unfold execTimeMarkTimer
  try dsimp only
  repeat' first
    | with_reducible assumption
    | with_reducible exact Changes.refl _ _
    | with_reducible apply Changes.ite
    | with_reducible apply ResChanges.next
    | with_reducible exact ResChanges.fault _
    | with_reducible exact ResChanges.refused _
    | with_reducible apply ResChanges.ite
    | with_reducible apply sendRequest_changes
    | exact Part.sub_trans (by decide) hp
    | exact Part.mem hp (by decide)
    | (intro _; try dsimp only)
    | split

theorem runTrip_changes {P : List Part} {s₀ : State} (k : LaneId) (twice : Int) (offset : Int) (s : State) (hp : Part.sub [.funcs, .irqs, .lanes, .tc] P = true)  (hc : Changes P s₀ s) : Changes P s₀ (runTrip k twice offset s) := by
  unfold runTrip
  try dsimp only
  repeat' first
    | with_reducible assumption
    | with_reducible exact Changes.refl _ _
    | with_reducible apply Changes.ite
    | with_reducible apply modLane_changes
    | with_reducible apply raise_changes
    | with_reducible apply record_changes
    | with_reducible apply steerFollower_changes
    | exact Part.sub_trans (by decide) hp
    | exact Part.mem hp (by decide)
    | (intro _; try dsimp only)
    | split

theorem trainTrip_changes {P : List Part} {s₀ : State} (k : LaneId) (twice : Int) (offset : Int) (s : State) (hp : Part.sub [.lanes, .tether] P = true)  (hc : Changes P s₀ s) : Changes P s₀ (trainTrip k twice offset s) := by
  unfold trainTrip
  try dsimp only
  repeat' first
    | with_reducible assumption
    | with_reducible exact Changes.refl _ _
    | with_reducible apply Changes.ite
    | with_reducible apply modLane_changes
    | with_reducible apply showRetrain_changes
    | exact Part.sub_trans (by decide) hp
    | exact Part.mem hp (by decide)
    | (intro _; try dsimp only)
    | split

theorem timeMark_changes {P : List Part} {s₀ : State} (k : LaneId) (m : TimeMark) (s : State) (hp : Part.sub [.funcs, .irqs, .lanes, .tether, .tc] P = true)  (hc : Changes P s₀ s) : Changes P s₀ (timeMark k m s) := by
  unfold timeMark
  try dsimp only
  repeat' first
    | with_reducible assumption
    | with_reducible exact Changes.refl _ _
    | with_reducible apply Changes.ite
    | with_reducible apply modLane_changes
    | with_reducible apply modTx_changes
    | with_reducible apply runTrip_changes
    | with_reducible apply trainTrip_changes
    | exact Part.sub_trans (by decide) hp
    | exact Part.mem hp (by decide)
    | (intro _; try dsimp only)
    | split

theorem execTimeMarkReceived_changes {P : List Part} {s₀ : State} (lane : LaneId) (mark : TimeMark) (s : State) (hp : Part.sub [.funcs, .irqs, .lanes, .tether, .tc] P = true)  (hc : Changes P s₀ s) : ResChanges P s₀ (execTimeMarkReceived lane mark s) := by
  unfold execTimeMarkReceived
  try dsimp only
  repeat' first
    | with_reducible assumption
    | with_reducible exact Changes.refl _ _
    | with_reducible apply Changes.ite
    | with_reducible apply ResChanges.next
    | with_reducible exact ResChanges.fault _
    | with_reducible exact ResChanges.refused _
    | with_reducible apply ResChanges.ite
    | with_reducible apply timeMark_changes
    | exact Part.sub_trans (by decide) hp
    | exact Part.mem hp (by decide)
    | (intro _; try dsimp only)
    | split

theorem resend_changes {P : List Part} {s₀ : State} (k : LaneId) (q : QueueId) (credits : Bool) (seq : Nat) (s : State) (hp : Part.sub [.tether] P = true)  (hc : Changes P s₀ s) : Changes P s₀ (resend k q credits seq s) := by
  unfold resend
  try dsimp only
  repeat' first
    | with_reducible assumption
    | with_reducible exact Changes.refl _ _
    | with_reducible apply Changes.ite
    | with_reducible apply setTether_changes
    | exact Part.sub_trans (by decide) hp
    | exact Part.mem hp (by decide)
    | (intro _; try dsimp only)
    | split

theorem execPacketRetransmission_changes {P : List Part} {s₀ : State} (lane : LaneId) (queue : QueueId) (credits : Bool) (seq : Nat) (s : State) (hp : Part.sub [.tether] P = true)  (hc : Changes P s₀ s) : ResChanges P s₀ (execPacketRetransmission lane queue credits seq s) := by
  unfold execPacketRetransmission
  try dsimp only
  repeat' first
    | with_reducible assumption
    | with_reducible exact Changes.refl _ _
    | with_reducible apply Changes.ite
    | with_reducible apply ResChanges.next
    | with_reducible exact ResChanges.fault _
    | with_reducible exact ResChanges.refused _
    | with_reducible apply ResChanges.ite
    | with_reducible apply resend_changes
    | exact Part.sub_trans (by decide) hp
    | exact Part.mem hp (by decide)
    | (intro _; try dsimp only)
    | split

theorem followWords_changes {P : List Part} {s₀ : State} (k : LaneId) (q : QueueId) (s : State) (hp : Part.sub [.tether] P = true)  (hc : Changes P s₀ s) : Changes P s₀ (followWords k q s) := by
  unfold followWords
  try dsimp only
  repeat' first
    | with_reducible assumption
    | with_reducible exact Changes.refl _ _
    | with_reducible apply Changes.ite
    | with_reducible apply setTether_changes
    | exact Part.sub_trans (by decide) hp
    | exact Part.mem hp (by decide)
    | (intro _; try dsimp only)
    | split

theorem pushIngress_changes {P : List Part} {s₀ : State} (k : LaneId) (q : QueueId) (w : Word × Bool) (s : State) (hp : Part.sub [.funcs, .queues, .qdir, .tether] P = true)  (hc : Changes P s₀ s) : Changes P s₀ (pushIngress k q w s) := by
  unfold pushIngress
  try dsimp only
  repeat' first
    | with_reducible assumption
    | with_reducible exact Changes.refl _ _
    | with_reducible apply Changes.ite
    | with_reducible apply modProd_changes
    | with_reducible apply record_changes
    | with_reducible apply setQdir_changes
    | with_reducible apply setTether_changes
    | exact Part.sub_trans (by decide) hp
    | exact Part.mem hp (by decide)
    | (intro _; try dsimp only)
    | split

theorem packetIn_changes {P : List Part} {s₀ : State} (k : LaneId) (p : PacketIn) (intact : Bool) (s : State) (hp : Part.sub [.funcs, .queues, .qdir, .lanes, .tether] P = true)  (hc : Changes P s₀ s) : Changes P s₀ (packetIn k p intact s) := by
  unfold packetIn
  try dsimp only
  repeat' first
    | with_reducible assumption
    | with_reducible exact Changes.refl _ _
    | with_reducible apply Changes.ite
    | with_reducible apply followWords_changes
    | with_reducible apply forEach_changes
    | with_reducible apply modLane_changes
    | with_reducible apply modTx_changes
    | with_reducible apply pushIngress_changes
    | with_reducible apply setTether_changes
    | exact Part.sub_trans (by decide) hp
    | exact Part.mem hp (by decide)
    | (intro _; try dsimp only)
    | split

theorem execPacketReceived_changes {P : List Part} {s₀ : State} (lane : LaneId) (pkt : PacketIn) (intact : Bool) (s : State) (hp : Part.sub [.funcs, .queues, .qdir, .lanes, .tether] P = true)  (hc : Changes P s₀ s) : ResChanges P s₀ (execPacketReceived lane pkt intact s) := by
  unfold execPacketReceived
  try dsimp only
  repeat' first
    | with_reducible assumption
    | with_reducible exact Changes.refl _ _
    | with_reducible apply Changes.ite
    | with_reducible apply ResChanges.next
    | with_reducible exact ResChanges.fault _
    | with_reducible exact ResChanges.refused _
    | with_reducible apply ResChanges.ite
    | with_reducible apply packetIn_changes
    | exact Part.sub_trans (by decide) hp
    | exact Part.mem hp (by decide)
    | (intro _; try dsimp only)
    | split

theorem ackPacket_changes {P : List Part} {s₀ : State} (k : LaneId) (q : QueueId) (credits : Bool) (seq : Nat) (s : State) (hp : Part.sub [.tether] P = true)  (hc : Changes P s₀ s) : Changes P s₀ (ackPacket k q credits seq s) := by
  unfold ackPacket
  try dsimp only
  repeat' first
    | with_reducible assumption
    | with_reducible exact Changes.refl _ _
    | with_reducible apply Changes.ite
    | with_reducible apply setTether_changes
    | exact Part.sub_trans (by decide) hp
    | exact Part.mem hp (by decide)
    | (intro _; try dsimp only)
    | split

theorem ackEvents_changes {P : List Part} {s₀ : State} (k : LaneId) (count : BitVec 8) (answers : Nat) (s : State) (hp : Part.sub [.funcs, .lanes] P = true)  (hc : Changes P s₀ s) : Changes P s₀ (ackEvents k count answers s) := by
  unfold ackEvents
  try dsimp only
  repeat' first
    | with_reducible assumption
    | with_reducible exact Changes.refl _ _
    | with_reducible apply Changes.ite
    | with_reducible apply modLane_changes
    | with_reducible apply record_changes
    | exact Part.sub_trans (by decide) hp
    | exact Part.mem hp (by decide)
    | (intro _; try dsimp only)
    | split

theorem execEventAcknowledge_changes {P : List Part} {s₀ : State} (lane : LaneId) (ack : AckIn) (s : State) (hp : Part.sub [.funcs, .lanes, .tether] P = true)  (hc : Changes P s₀ s) : ResChanges P s₀ (execEventAcknowledge lane ack s) := by
  unfold execEventAcknowledge
  try dsimp only
  repeat' first
    | with_reducible assumption
    | with_reducible exact Changes.refl _ _
    | with_reducible apply Changes.ite
    | with_reducible apply ResChanges.next
    | with_reducible exact ResChanges.fault _
    | with_reducible exact ResChanges.refused _
    | with_reducible apply ResChanges.ite
    | with_reducible apply ackEvents_changes
    | with_reducible apply ackPacket_changes
    | exact Part.sub_trans (by decide) hp
    | exact Part.mem hp (by decide)
    | (intro _; try dsimp only)
    | split

theorem eventIn_changes {P : List Part} {s₀ : State} (k : LaneId) (tok : Token) (intact : Bool) (s : State) (hp : Part.sub [.funcs, .nodes, .books, .flights, .nextFlight, .hub, .lanes] P = true)  (hc : Changes P s₀ s) : Changes P s₀ (eventIn k tok intact s) := by
  unfold eventIn
  try dsimp only
  repeat' first
    | with_reducible assumption
    | with_reducible exact Changes.refl _ _
    | with_reducible apply Changes.ite
    | with_reducible apply hubIngress_changes
    | with_reducible apply modLane_changes
    | with_reducible apply modTx_changes
    | exact Part.sub_trans (by decide) hp
    | exact Part.mem hp (by decide)
    | (intro _; try dsimp only)
    | split

theorem execEventReceived_changes {P : List Part} {s₀ : State} (lane : LaneId) (tok : Token) (intact : Bool) (s : State) (hp : Part.sub [.funcs, .nodes, .books, .flights, .nextFlight, .hub, .lanes] P = true)  (hc : Changes P s₀ s) : ResChanges P s₀ (execEventReceived lane tok intact s) := by
  unfold execEventReceived
  try dsimp only
  repeat' first
    | with_reducible assumption
    | with_reducible exact Changes.refl _ _
    | with_reducible apply Changes.ite
    | with_reducible apply ResChanges.next
    | with_reducible exact ResChanges.fault _
    | with_reducible exact ResChanges.refused _
    | with_reducible apply ResChanges.ite
    | with_reducible apply eventIn_changes
    | exact Part.sub_trans (by decide) hp
    | exact Part.mem hp (by decide)
    | (intro _; try dsimp only)
    | split

theorem execErrorRateLimit_changes {P : List Part} {s₀ : State} (lane : LaneId) (s : State) (hp : Part.sub [.funcs, .irqs, .books, .lanes, .tether, .tc] P = true)  (hc : Changes P s₀ s) : ResChanges P s₀ (execErrorRateLimit lane s) := by
  unfold execErrorRateLimit
  try dsimp only
  repeat' first
    | with_reducible assumption
    | with_reducible exact Changes.refl _ _
    | with_reducible apply Changes.ite
    | with_reducible apply ResChanges.next
    | with_reducible exact ResChanges.fault _
    | with_reducible exact ResChanges.refused _
    | with_reducible apply ResChanges.ite
    | with_reducible apply unhitch_changes
    | exact Part.sub_trans (by decide) hp
    | exact Part.mem hp (by decide)
    | (intro _; try dsimp only)
    | split

theorem execLossOfSignal_changes {P : List Part} {s₀ : State} (lane : LaneId) (s : State) (hp : Part.sub [.funcs, .irqs, .books, .lanes, .tether, .tc] P = true)  (hc : Changes P s₀ s) : ResChanges P s₀ (execLossOfSignal lane s) := by
  unfold execLossOfSignal
  try dsimp only
  repeat' first
    | with_reducible assumption
    | with_reducible exact Changes.refl _ _
    | with_reducible apply Changes.ite
    | with_reducible apply ResChanges.next
    | with_reducible exact ResChanges.fault _
    | with_reducible exact ResChanges.refused _
    | with_reducible apply ResChanges.ite
    | with_reducible apply unhitch_changes
    | exact Part.sub_trans (by decide) hp
    | exact Part.mem hp (by decide)
    | (intro _; try dsimp only)
    | split

theorem backoffEnd_changes {P : List Part} {s₀ : State} (k : LaneId) (s : State) (hp : Part.sub [.funcs, .irqs, .lanes] P = true)  (hc : Changes P s₀ s) : Changes P s₀ (backoffEnd k s) := by
  unfold backoffEnd
  try dsimp only
  repeat' first
    | with_reducible assumption
    | with_reducible exact Changes.refl _ _
    | with_reducible apply Changes.ite
    | with_reducible apply train_changes
    | exact Part.sub_trans (by decide) hp
    | exact Part.mem hp (by decide)
    | (intro _; try dsimp only)
    | split

theorem execBackoffWaitEnd_changes {P : List Part} {s₀ : State} (lane : LaneId) (s : State) (hp : Part.sub [.funcs, .irqs, .lanes] P = true)  (hc : Changes P s₀ s) : ResChanges P s₀ (execBackoffWaitEnd lane s) := by
  unfold execBackoffWaitEnd
  try dsimp only
  repeat' first
    | with_reducible assumption
    | with_reducible exact Changes.refl _ _
    | with_reducible apply Changes.ite
    | with_reducible apply ResChanges.next
    | with_reducible exact ResChanges.fault _
    | with_reducible exact ResChanges.refused _
    | with_reducible apply ResChanges.ite
    | with_reducible apply backoffEnd_changes
    | exact Part.sub_trans (by decide) hp
    | exact Part.mem hp (by decide)
    | (intro _; try dsimp only)
    | split

theorem execTrainingTimeout_changes {P : List Part} {s₀ : State} (lane : LaneId) (s : State) (hp : Part.sub [.funcs, .irqs, .books, .lanes, .tether, .tc] P = true)  (hc : Changes P s₀ s) : ResChanges P s₀ (execTrainingTimeout lane s) := by
  unfold execTrainingTimeout
  try dsimp only
  repeat' first
    | with_reducible assumption
    | with_reducible exact Changes.refl _ _
    | with_reducible apply Changes.ite
    | with_reducible apply ResChanges.next
    | with_reducible exact ResChanges.fault _
    | with_reducible exact ResChanges.refused _
    | with_reducible apply ResChanges.ite
    | with_reducible apply unhitch_changes
    | exact Part.sub_trans (by decide) hp
    | exact Part.mem hp (by decide)
    | (intro _; try dsimp only)
    | split

theorem hitch_changes {P : List Part} {s₀ : State} (k : LaneId) (s : State) (hp : Part.sub [.funcs, .irqs, .lanes, .tether, .tc] P = true)  (hc : Changes P s₀ s) : Changes P s₀ (hitch k s) := by
  unfold hitch
  try dsimp only
  repeat' first
    | with_reducible assumption
    | with_reducible exact Changes.refl _ _
    | with_reducible apply Changes.ite
    | with_reducible apply endRetrain_changes
    | with_reducible apply modLane_changes
    | with_reducible apply raise_changes
    | with_reducible apply record_changes
    | with_reducible apply replacePackets_changes
    | with_reducible apply steerFollower_changes
    | exact Part.sub_trans (by decide) hp
    | exact Part.mem hp (by decide)
    | (intro _; try dsimp only)
    | split

theorem phaseEnd_changes {P : List Part} {s₀ : State} (k : LaneId) (found : PhaseFound) (s : State) (hp : Part.sub [.funcs, .irqs, .books, .lanes, .tether, .tc] P = true)  (hc : Changes P s₀ s) : Changes P s₀ (phaseEnd k found s) := by
  unfold phaseEnd
  try dsimp only
  repeat' first
    | with_reducible assumption
    | with_reducible exact Changes.refl _ _
    | with_reducible apply Changes.ite
    | with_reducible apply hitch_changes
    | with_reducible apply modLane_changes
    | with_reducible apply showRetrain_changes
    | with_reducible apply unhitch_changes
    | exact Part.sub_trans (by decide) hp
    | exact Part.mem hp (by decide)
    | (intro _; try dsimp only)
    | split

theorem execTrainingPhaseEnd_changes {P : List Part} {s₀ : State} (lane : LaneId) (found : PhaseFound) (s : State) (hp : Part.sub [.funcs, .irqs, .books, .lanes, .tether, .tc] P = true)  (hc : Changes P s₀ s) : ResChanges P s₀ (execTrainingPhaseEnd lane found s) := by
  unfold execTrainingPhaseEnd
  try dsimp only
  repeat' first
    | with_reducible assumption
    | with_reducible exact Changes.refl _ _
    | with_reducible apply Changes.ite
    | with_reducible apply ResChanges.next
    | with_reducible exact ResChanges.fault _
    | with_reducible exact ResChanges.refused _
    | with_reducible apply ResChanges.ite
    | with_reducible apply phaseEnd_changes
    | exact Part.sub_trans (by decide) hp
    | exact Part.mem hp (by decide)
    | (intro _; try dsimp only)
    | split

theorem execTrainingPatternReceived_changes {P : List Part} {s₀ : State} (lane : LaneId) (s : State) (hp : Part.sub [.funcs, .irqs, .lanes] P = true)  (hc : Changes P s₀ s) : ResChanges P s₀ (execTrainingPatternReceived lane s) := by
  unfold execTrainingPatternReceived
  try dsimp only
  repeat' first
    | with_reducible assumption
    | with_reducible exact Changes.refl _ _
    | with_reducible apply Changes.ite
    | with_reducible apply ResChanges.next
    | with_reducible exact ResChanges.fault _
    | with_reducible exact ResChanges.refused _
    | with_reducible apply ResChanges.ite
    | with_reducible apply backoffEnd_changes
    | exact Part.sub_trans (by decide) hp
    | exact Part.mem hp (by decide)
    | (intro _; try dsimp only)
    | split

end Sys2Proof.Machine
end

