-- ==== Sys2Proof/Laws/ChangesTime.lean ====
section
/-!
SUPPORT. What each operation of Machine/Time.lean may change.
-/

set_option linter.unusedTactic false
set_option linter.unreachableTactic false
set_option linter.style.longLine false
set_option linter.unusedVariables false
set_option maxRecDepth 8000

namespace Sys2Proof.Machine

open Sys2Proof

theorem execPtLinkChange_changes {P : List Part} {s₀ : State} (p : Fin 2) (up : Bool) (s : State) (hp : Part.sub [.ethPorts] P = true)  (hc : Changes P s₀ s) : ResChanges P s₀ (execPtLinkChange p up s) := by
  unfold execPtLinkChange
  try dsimp only
  repeat' first
    | with_reducible assumption
    | with_reducible exact Changes.refl _ _
    | with_reducible apply Changes.ite
    | with_reducible apply ResChanges.next
    | with_reducible exact ResChanges.fault _
    | with_reducible exact ResChanges.refused _
    | with_reducible apply ResChanges.ite
    | with_reducible apply modPort_changes
    | exact Part.sub_trans (by decide) hp
    | exact Part.mem hp (by decide)
    | (intro _; try dsimp only)
    | split

theorem delayReq_changes {P : List Part} {s₀ : State} (p : Fin 2) (stamp : Int) (s : State) (hp : Part.sub [.ethPorts] P = true)  (hc : Changes P s₀ s) : Changes P s₀ (delayReq p stamp s) := by
  unfold delayReq
  try dsimp only
  repeat' first
    | with_reducible assumption
    | with_reducible exact Changes.refl _ _
    | with_reducible apply Changes.ite
    | with_reducible apply modPort_changes
    | exact Part.sub_trans (by decide) hp
    | exact Part.mem hp (by decide)
    | (intro _; try dsimp only)
    | split

theorem execDelayReqSend_changes {P : List Part} {s₀ : State} (p : Fin 2) (stamp : Int) (s : State) (hp : Part.sub [.ethPorts] P = true)  (hc : Changes P s₀ s) : ResChanges P s₀ (execDelayReqSend p stamp s) := by
  unfold execDelayReqSend
  try dsimp only
  repeat' first
    | with_reducible assumption
    | with_reducible exact Changes.refl _ _
    | with_reducible apply Changes.ite
    | with_reducible apply ResChanges.next
    | with_reducible exact ResChanges.fault _
    | with_reducible exact ResChanges.refused _
    | with_reducible apply ResChanges.ite
    | with_reducible apply delayReq_changes
    | exact Part.sub_trans (by decide) hp
    | exact Part.mem hp (by decide)
    | (intro _; try dsimp only)
    | split

theorem disarmPulse_changes {P : List Part} {s₀ : State} (k : Fin 8) (s : State) (hp : Part.sub [.pulses] P = true)  (hc : Changes P s₀ s) : Changes P s₀ (disarmPulse k s) := by
  unfold disarmPulse
  try dsimp only
  repeat' first
    | with_reducible assumption
    | with_reducible exact Changes.refl _ _
    | with_reducible apply Changes.ite
    | with_reducible apply modPulse_changes
    | exact Part.sub_trans (by decide) hp
    | exact Part.mem hp (by decide)
    | (intro _; try dsimp only)
    | split

theorem execTpDisarm_changes {P : List Part} {s₀ : State} (f : Func) (k : Fin 8) (s : State) (hp : Part.sub [.funcs, .pulses] P = true)  (hc : Changes P s₀ s) : ResChanges P s₀ (execTpDisarm f k s) := by
  unfold execTpDisarm
  try dsimp only
  repeat' first
    | with_reducible assumption
    | with_reducible exact Changes.refl _ _
    | with_reducible apply Changes.ite
    | with_reducible apply ResChanges.next
    | with_reducible exact ResChanges.fault _
    | with_reducible exact ResChanges.refused _
    | with_reducible apply ResChanges.ite
    | with_reducible apply disarmPulse_changes
    | with_reducible apply hostWrite_changes
    | exact Part.sub_trans (by decide) hp
    | exact Part.mem hp (by decide)
    | (intro _; try dsimp only)
    | split

theorem armPulse_changes {P : List Part} {s₀ : State} (k : Fin 8) (s : State) (hp : Part.sub [.pulses] P = true)  (hc : Changes P s₀ s) : Changes P s₀ (armPulse k s) := by
  unfold armPulse
  try dsimp only
  repeat' first
    | with_reducible assumption
    | with_reducible exact Changes.refl _ _
    | with_reducible apply Changes.ite
    | with_reducible apply modPulse_changes
    | exact Part.sub_trans (by decide) hp
    | exact Part.mem hp (by decide)
    | (intro _; try dsimp only)
    | split

theorem execTpArm_changes {P : List Part} {s₀ : State} (f : Func) (k : Fin 8) (s : State) (hp : Part.sub [.funcs, .pulses] P = true)  (hc : Changes P s₀ s) : ResChanges P s₀ (execTpArm f k s) := by
  unfold execTpArm
  try dsimp only
  repeat' first
    | with_reducible assumption
    | with_reducible exact Changes.refl _ _
    | with_reducible apply Changes.ite
    | with_reducible apply ResChanges.next
    | with_reducible exact ResChanges.fault _
    | with_reducible exact ResChanges.refused _
    | with_reducible apply ResChanges.ite
    | with_reducible apply armPulse_changes
    | with_reducible apply hostCheck_changes
    | exact Part.sub_trans (by decide) hp
    | exact Part.mem hp (by decide)
    | (intro _; try dsimp only)
    | split

theorem dmCtl_changes {P : List Part} {s₀ : State} (d : Fin 2) (val : Word) (s : State) (hp : Part.sub [.funcs, .persist, .tc, .domains] P = true)  (hc : Changes P s₀ s) : Changes P s₀ (dmCtl d val s) := by
  unfold dmCtl
  try dsimp only
  repeat' first
    | with_reducible assumption
    | with_reducible exact Changes.refl _ _
    | with_reducible apply Changes.ite
    | with_reducible apply evalServo_changes
    | with_reducible apply modDomain_changes
    | with_reducible apply setPersist_changes
    | exact Part.sub_trans (by decide) hp
    | exact Part.mem hp (by decide)
    | (intro _; try dsimp only)
    | split

theorem execDmCtlWrite_changes {P : List Part} {s₀ : State} (f : Func) (d : Fin 2) (val : Word) (s : State) (hp : Part.sub [.funcs, .persist, .tc, .domains] P = true)  (hc : Changes P s₀ s) : ResChanges P s₀ (execDmCtlWrite f d val s) := by
  unfold execDmCtlWrite
  try dsimp only
  repeat' first
    | with_reducible assumption
    | with_reducible exact Changes.refl _ _
    | with_reducible apply Changes.ite
    | with_reducible apply ResChanges.next
    | with_reducible exact ResChanges.fault _
    | with_reducible exact ResChanges.refused _
    | with_reducible apply ResChanges.ite
    | with_reducible apply dmCtl_changes
    | with_reducible apply hostWrite_changes
    | exact Part.sub_trans (by decide) hp
    | exact Part.mem hp (by decide)
    | (intro _; try dsimp only)
    | split

theorem epochTai_changes {P : List Part} {s₀ : State} (w : Fin 3) (val : Word) (s : State) (hp : Part.sub [.tc, .held] P = true)  (hc : Changes P s₀ s) : Changes P s₀ (epochTai w val s) := by
  unfold epochTai
  try dsimp only
  repeat' first
    | with_reducible assumption
    | with_reducible exact Changes.refl _ _
    | with_reducible apply Changes.ite
    | with_reducible apply dropHeld_changes
    | with_reducible apply holdWord_changes
    | with_reducible apply setTime_changes
    | exact Part.sub_trans (by decide) hp
    | exact Part.mem hp (by decide)
    | (intro _; try dsimp only)
    | split

theorem execEpochTaiWrite_changes {P : List Part} {s₀ : State} (f : Func) (word : Fin 3) (val : Word) (s : State) (hp : Part.sub [.funcs, .tc, .held] P = true)  (hc : Changes P s₀ s) : ResChanges P s₀ (execEpochTaiWrite f word val s) := by
  unfold execEpochTaiWrite
  try dsimp only
  repeat' first
    | with_reducible assumption
    | with_reducible exact Changes.refl _ _
    | with_reducible apply Changes.ite
    | with_reducible apply ResChanges.next
    | with_reducible exact ResChanges.fault _
    | with_reducible exact ResChanges.refused _
    | with_reducible apply ResChanges.ite
    | with_reducible apply epochTai_changes
    | with_reducible apply hostCheck_changes
    | exact Part.sub_trans (by decide) hp
    | exact Part.mem hp (by decide)
    | (intro _; try dsimp only)
    | split

theorem timeOp_changes {P : List Part} {s₀ : State} (g : OpStatus → OpStatus) (s : State) (hp : Part.sub [.tc] P = true)  (hc : Changes P s₀ s) : Changes P s₀ (timeOp g s) := by
  unfold timeOp
  try dsimp only
  repeat' first
    | with_reducible assumption
    | with_reducible exact Changes.refl _ _
    | with_reducible apply Changes.ite
    | with_reducible apply setTime_changes
    | exact Part.sub_trans (by decide) hp
    | exact Part.mem hp (by decide)
    | (intro _; try dsimp only)
    | split

theorem endTimeOp_changes {P : List Part} {s₀ : State} (op : OpStatus) (s : State) (hp : Part.sub [.funcs, .irqs, .tc] P = true)  (hc : Changes P s₀ s) : Changes P s₀ (endTimeOp op s) := by
  unfold endTimeOp
  try dsimp only
  repeat' first
    | with_reducible assumption
    | with_reducible exact Changes.refl _ _
    | with_reducible apply Changes.ite
    | with_reducible apply raise_changes
    | with_reducible apply setTime_changes
    | exact Part.sub_trans (by decide) hp
    | exact Part.mem hp (by decide)
    | (intro _; try dsimp only)
    | split

theorem timeAccept_changes {P : List Part} {s₀ : State} (d : Fin 2) (s : State) (hp : Part.sub [.funcs, .irqs, .tc, .domains] P = true)  (hc : Changes P s₀ s) : Changes P s₀ (timeAccept d s) := by
  unfold timeAccept
  try dsimp only
  repeat' first
    | with_reducible assumption
    | with_reducible exact Changes.refl _ _
    | with_reducible apply Changes.ite
    | with_reducible apply endTimeOp_changes
    | with_reducible apply evalServo_changes
    | with_reducible apply modDomain_changes
    | with_reducible apply setTime_changes
    | exact Part.sub_trans (by decide) hp
    | exact Part.mem hp (by decide)
    | (intro _; try dsimp only)
    | split

theorem execAccept_changes {P : List Part} {s₀ : State} (f : Func) (d : Fin 2) (s : State) (hp : Part.sub [.funcs, .irqs, .tc, .domains] P = true)  (hc : Changes P s₀ s) : ResChanges P s₀ (execAccept f d s) := by
  unfold execAccept
  try dsimp only
  repeat' first
    | with_reducible assumption
    | with_reducible exact Changes.refl _ _
    | with_reducible apply Changes.ite
    | with_reducible apply ResChanges.next
    | with_reducible exact ResChanges.fault _
    | with_reducible exact ResChanges.refused _
    | with_reducible apply ResChanges.ite
    | with_reducible apply spineCommand_changes
    | with_reducible apply timeAccept_changes
    | with_reducible apply timeOp_changes
    | exact Part.sub_trans (by decide) hp
    | exact Part.mem hp (by decide)
    | (intro _; try dsimp only)
    | split

theorem timeSwitch_changes {P : List Part} {s₀ : State} (d : Fin 2) (s : State) (hp : Part.sub [.funcs, .irqs, .tc] P = true)  (hc : Changes P s₀ s) : Changes P s₀ (timeSwitch d s) := by
  unfold timeSwitch
  try dsimp only
  repeat' first
    | with_reducible assumption
    | with_reducible exact Changes.refl _ _
    | with_reducible apply Changes.ite
    | with_reducible apply endTimeOp_changes
    | with_reducible apply evalServo_changes
    | with_reducible apply setTime_changes
    | with_reducible apply switchTo_changes
    | exact Part.sub_trans (by decide) hp
    | exact Part.mem hp (by decide)
    | (intro _; try dsimp only)
    | split

theorem execSwitch_changes {P : List Part} {s₀ : State} (f : Func) (d : Fin 2) (s : State) (hp : Part.sub [.funcs, .irqs, .tc] P = true)  (hc : Changes P s₀ s) : ResChanges P s₀ (execSwitch f d s) := by
  unfold execSwitch
  try dsimp only
  repeat' first
    | with_reducible assumption
    | with_reducible exact Changes.refl _ _
    | with_reducible apply Changes.ite
    | with_reducible apply ResChanges.next
    | with_reducible exact ResChanges.fault _
    | with_reducible exact ResChanges.refused _
    | with_reducible apply ResChanges.ite
    | with_reducible apply spineCommand_changes
    | with_reducible apply timeOp_changes
    | with_reducible apply timeSwitch_changes
    | exact Part.sub_trans (by decide) hp
    | exact Part.mem hp (by decide)
    | (intro _; try dsimp only)
    | split

theorem execAlign_changes {P : List Part} {s₀ : State} (f : Func) (s : State) (hp : Part.sub [.funcs, .tc] P = true)  (hc : Changes P s₀ s) : ResChanges P s₀ (execAlign f s) := by
  unfold execAlign
  try dsimp only
  repeat' first
    | with_reducible assumption
    | with_reducible exact Changes.refl _ _
    | with_reducible apply Changes.ite
    | with_reducible apply ResChanges.next
    | with_reducible exact ResChanges.fault _
    | with_reducible exact ResChanges.refused _
    | with_reducible apply ResChanges.ite
    | with_reducible apply evalServo_changes
    | with_reducible apply setTime_changes
    | with_reducible apply spineCommand_changes
    | with_reducible apply timeOp_changes
    | exact Part.sub_trans (by decide) hp
    | exact Part.mem hp (by decide)
    | (intro _; try dsimp only)
    | split

theorem pulseToken_changes {P : List Part} {s₀ : State} (k : Fin 8) (high : Bool) (s : State) (hp : Part.sub [.funcs, .nodes, .books, .flights, .nextFlight, .hub] P = true)  (hc : Changes P s₀ s) : Changes P s₀ (pulseToken k high s) := by
  unfold pulseToken
  try dsimp only
  repeat' first
    | with_reducible assumption
    | with_reducible exact Changes.refl _ _
    | with_reducible apply Changes.ite
    | with_reducible apply issueToken_changes
    | exact Part.sub_trans (by decide) hp
    | exact Part.mem hp (by decide)
    | (intro _; try dsimp only)
    | split

theorem pulseEdge_changes {P : List Part} {s₀ : State} (k : Fin 8) (rising : Bool) (s : State) (hp : Part.sub [.funcs, .nodes, .books, .flights, .nextFlight, .hub, .pulses] P = true)  (hc : Changes P s₀ s) : Changes P s₀ (pulseEdge k rising s) := by
  unfold pulseEdge
  try dsimp only
  repeat' first
    | with_reducible assumption
    | with_reducible exact Changes.refl _ _
    | with_reducible apply Changes.ite
    | with_reducible apply modPulse_changes
    | with_reducible apply pulseToken_changes
    | exact Part.sub_trans (by decide) hp
    | exact Part.mem hp (by decide)
    | (intro _; try dsimp only)
    | split

theorem execTimePulseEdge_changes {P : List Part} {s₀ : State} (k : Fin 8) (rising : Bool) (s : State) (hp : Part.sub [.funcs, .nodes, .books, .flights, .nextFlight, .hub, .pulses] P = true)  (hc : Changes P s₀ s) : ResChanges P s₀ (execTimePulseEdge k rising s) := by
  unfold execTimePulseEdge
  try dsimp only
  repeat' first
    | with_reducible assumption
    | with_reducible exact Changes.refl _ _
    | with_reducible apply Changes.ite
    | with_reducible apply ResChanges.next
    | with_reducible exact ResChanges.fault _
    | with_reducible exact ResChanges.refused _
    | with_reducible apply ResChanges.ite
    | with_reducible apply pulseEdge_changes
    | exact Part.sub_trans (by decide) hp
    | exact Part.mem hp (by decide)
    | (intro _; try dsimp only)
    | split

theorem execSlewSaturation_changes {P : List Part} {s₀ : State} (s : State) (hp : Part.sub [.funcs, .tc] P = true)  (hc : Changes P s₀ s) : ResChanges P s₀ (execSlewSaturation s) := by
  unfold execSlewSaturation
  try dsimp only
  repeat' first
    | with_reducible assumption
    | with_reducible exact Changes.refl _ _
    | with_reducible apply Changes.ite
    | with_reducible apply ResChanges.next
    | with_reducible exact ResChanges.fault _
    | with_reducible exact ResChanges.refused _
    | with_reducible apply ResChanges.ite
    | with_reducible apply record_changes
    | with_reducible apply setTime_changes
    | exact Part.sub_trans (by decide) hp
    | exact Part.mem hp (by decide)
    | (intro _; try dsimp only)
    | split

theorem announceLost_changes {P : List Part} {s₀ : State} (d : Fin 2) (s : State) (hp : Part.sub [.funcs, .tc, .domains] P = true)  (hc : Changes P s₀ s) : Changes P s₀ (announceLost d s) := by
  unfold announceLost
  try dsimp only
  repeat' first
    | with_reducible assumption
    | with_reducible exact Changes.refl _ _
    | with_reducible apply Changes.ite
    | with_reducible apply evalServo_changes
    | with_reducible apply modDomain_changes
    | with_reducible apply record_changes
    | exact Part.sub_trans (by decide) hp
    | exact Part.mem hp (by decide)
    | (intro _; try dsimp only)
    | split

theorem execAnnounceTimeout_changes {P : List Part} {s₀ : State} (d : Fin 2) (s : State) (hp : Part.sub [.funcs, .tc, .domains] P = true)  (hc : Changes P s₀ s) : ResChanges P s₀ (execAnnounceTimeout d s) := by
  unfold execAnnounceTimeout
  try dsimp only
  repeat' first
    | with_reducible assumption
    | with_reducible exact Changes.refl _ _
    | with_reducible apply Changes.ite
    | with_reducible apply ResChanges.next
    | with_reducible exact ResChanges.fault _
    | with_reducible exact ResChanges.refused _
    | with_reducible apply ResChanges.ite
    | with_reducible apply announceLost_changes
    | exact Part.sub_trans (by decide) hp
    | exact Part.mem hp (by decide)
    | (intro _; try dsimp only)
    | split

theorem otherFrame_changes {P : List Part} {s₀ : State} (p : Fin 2) (x : FrameIn) (s : State) (hp : Part.sub [.ethPorts] P = true)  (hc : Changes P s₀ s) : Changes P s₀ (otherFrame p x s) := by
  unfold otherFrame
  try dsimp only
  repeat' first
    | with_reducible assumption
    | with_reducible exact Changes.refl _ _
    | with_reducible apply Changes.ite
    | with_reducible apply modPort_changes
    | exact Part.sub_trans (by decide) hp
    | exact Part.mem hp (by decide)
    | (intro _; try dsimp only)
    | split

theorem execNonPtpFrame_changes {P : List Part} {s₀ : State} (port : Fin 2) (frame : FrameIn) (s : State) (hp : Part.sub [.ethPorts] P = true)  (hc : Changes P s₀ s) : ResChanges P s₀ (execNonPtpFrame port frame s) := by
  unfold execNonPtpFrame
  try dsimp only
  repeat' first
    | with_reducible assumption
    | with_reducible exact Changes.refl _ _
    | with_reducible apply Changes.ite
    | with_reducible apply ResChanges.next
    | with_reducible exact ResChanges.fault _
    | with_reducible exact ResChanges.refused _
    | with_reducible apply ResChanges.ite
    | with_reducible apply otherFrame_changes
    | exact Part.sub_trans (by decide) hp
    | exact Part.mem hp (by decide)
    | (intro _; try dsimp only)
    | split

theorem updateInter_changes {P : List Part} {s₀ : State} (s : State) (hp : Part.sub [.tc] P = true)  (hc : Changes P s₀ s) : Changes P s₀ (updateInter s) := by
  unfold updateInter
  try dsimp only
  repeat' first
    | with_reducible assumption
    | with_reducible exact Changes.refl _ _
    | with_reducible apply Changes.ite
    | with_reducible apply setTime_changes
    | exact Part.sub_trans (by decide) hp
    | exact Part.mem hp (by decide)
    | (intro _; try dsimp only)
    | split

theorem degrade_changes {P : List Part} {s₀ : State} (d : Fin 2) (s : State) (hp : Part.sub [.funcs, .domains] P = true)  (hc : Changes P s₀ s) : Changes P s₀ (degrade d s) := by
  unfold degrade
  try dsimp only
  repeat' first
    | with_reducible assumption
    | with_reducible exact Changes.refl _ _
    | with_reducible apply Changes.ite
    | with_reducible apply modDomain_changes
    | with_reducible apply record_changes
    | dsimp only [id]
    | exact Part.sub_trans (by decide) hp
    | exact Part.mem hp (by decide)
    | (intro _; try dsimp only)
    | split

theorem lockDomain_changes {P : List Part} {s₀ : State} (d : Fin 2) (s : State) (hp : Part.sub [.funcs, .domains] P = true)  (hc : Changes P s₀ s) : Changes P s₀ (lockDomain d s) := by
  unfold lockDomain
  try dsimp only
  repeat' first
    | with_reducible assumption
    | with_reducible exact Changes.refl _ _
    | with_reducible apply Changes.ite
    | with_reducible apply modDomain_changes
    | with_reducible apply record_changes
    | exact Part.sub_trans (by decide) hp
    | exact Part.mem hp (by decide)
    | (intro _; try dsimp only)
    | split

theorem domainSample_changes {P : List Part} {s₀ : State} (d : Fin 2) (v : Int × Int) (s : State) (hp : Part.sub [.funcs, .tc, .domains] P = true)  (hc : Changes P s₀ s) : Changes P s₀ (domainSample d v s) := by
  unfold domainSample
  try dsimp only
  repeat' first
    | with_reducible assumption
    | with_reducible exact Changes.refl _ _
    | with_reducible apply Changes.ite
    | with_reducible apply degrade_changes
    | with_reducible apply evalReached_changes
    | with_reducible apply lockDomain_changes
    | with_reducible apply modDomain_changes
    | with_reducible apply setTime_changes
    | with_reducible apply updateInter_changes
    | exact Part.sub_trans (by decide) hp
    | exact Part.mem hp (by decide)
    | (intro _; try dsimp only)
    | split

theorem announceIn_changes {P : List Part} {s₀ : State} (d : Fin 2) (a : AnnounceData) (s : State) (hp : Part.sub [.domains] P = true)  (hc : Changes P s₀ s) : Changes P s₀ (announceIn d a s) := by
  unfold announceIn
  try dsimp only
  repeat' first
    | with_reducible assumption
    | with_reducible exact Changes.refl _ _
    | with_reducible apply Changes.ite
    | with_reducible apply modDomain_changes
    | exact Part.sub_trans (by decide) hp
    | exact Part.mem hp (by decide)
    | (intro _; try dsimp only)
    | split

theorem ptpIn_changes {P : List Part} {s₀ : State} (p : Fin 2) (m : PtpFrame) (s : State) (hp : Part.sub [.funcs, .tc, .ethPorts, .domains] P = true)  (hc : Changes P s₀ s) : Changes P s₀ (ptpIn p m s) := by
  unfold ptpIn
  try dsimp only
  repeat' first
    | with_reducible assumption
    | with_reducible exact Changes.refl _ _
    | with_reducible apply Changes.ite
    | with_reducible apply announceIn_changes
    | with_reducible apply domainSample_changes
    | with_reducible apply forEach_changes
    | with_reducible apply modPort_changes
    | exact Part.sub_trans (by decide) hp
    | exact Part.mem hp (by decide)
    | (intro _; try dsimp only)
    | split

theorem execPtpMessageReceived_changes {P : List Part} {s₀ : State} (port : Fin 2) (msg : PtpFrame) (s : State) (hp : Part.sub [.funcs, .tc, .ethPorts, .domains] P = true)  (hc : Changes P s₀ s) : ResChanges P s₀ (execPtpMessageReceived port msg s) := by
  unfold execPtpMessageReceived
  try dsimp only
  repeat' first
    | with_reducible assumption
    | with_reducible exact Changes.refl _ _
    | with_reducible apply Changes.ite
    | with_reducible apply ResChanges.next
    | with_reducible exact ResChanges.fault _
    | with_reducible exact ResChanges.refused _
    | with_reducible apply ResChanges.ite
    | with_reducible apply ptpIn_changes
    | exact Part.sub_trans (by decide) hp
    | exact Part.mem hp (by decide)
    | (intro _; try dsimp only)
    | split

theorem latchNow_changes {P : List Part} {s₀ : State} (f : Func) (s : State) (hp : Part.sub [.tc] P = true)  (hc : Changes P s₀ s) : Changes P s₀ (latchNow f s) := by
  unfold latchNow
  try dsimp only
  repeat' first
    | with_reducible assumption
    | with_reducible exact Changes.refl _ _
    | with_reducible apply Changes.ite
    | with_reducible apply setTime_changes
    | exact Part.sub_trans (by decide) hp
    | exact Part.mem hp (by decide)
    | (intro _; try dsimp only)
    | split

theorem execTimeNowRead_changes {P : List Part} {s₀ : State} (f : Func) (s : State) (hp : Part.sub [.tc] P = true)  (hc : Changes P s₀ s) : ResChanges P s₀ (execTimeNowRead f s) := by
  unfold execTimeNowRead
  try dsimp only
  repeat' first
    | with_reducible assumption
    | with_reducible exact Changes.refl _ _
    | with_reducible apply Changes.ite
    | with_reducible apply ResChanges.next
    | with_reducible exact ResChanges.fault _
    | with_reducible exact ResChanges.refused _
    | with_reducible apply ResChanges.ite
    | with_reducible apply latchNow_changes
    | exact Part.sub_trans (by decide) hp
    | exact Part.mem hp (by decide)
    | (intro _; try dsimp only)
    | split

theorem execAlignTimeout_changes {P : List Part} {s₀ : State} (s : State) (hp : Part.sub [.funcs, .irqs, .tc] P = true)  (hc : Changes P s₀ s) : ResChanges P s₀ (execAlignTimeout s) := by
  unfold execAlignTimeout
  try dsimp only
  repeat' first
    | with_reducible assumption
    | with_reducible exact Changes.refl _ _
    | with_reducible apply Changes.ite
    | with_reducible apply ResChanges.next
    | with_reducible exact ResChanges.fault _
    | with_reducible exact ResChanges.refused _
    | with_reducible apply ResChanges.ite
    | with_reducible apply endTimeOp_changes
    | with_reducible apply record_changes
    | exact Part.sub_trans (by decide) hp
    | exact Part.mem hp (by decide)
    | (intro _; try dsimp only)
    | split

theorem execAlignComplete_changes {P : List Part} {s₀ : State} (error : Int) (s : State) (hp : Part.sub [.funcs, .irqs, .tc] P = true)  (hc : Changes P s₀ s) : ResChanges P s₀ (execAlignComplete error s) := by
  unfold execAlignComplete
  try dsimp only
  repeat' first
    | with_reducible assumption
    | with_reducible exact Changes.refl _ _
    | with_reducible apply Changes.ite
    | with_reducible apply ResChanges.next
    | with_reducible exact ResChanges.fault _
    | with_reducible exact ResChanges.refused _
    | with_reducible apply ResChanges.ite
    | with_reducible apply endTimeOp_changes
    | with_reducible apply record_changes
    | with_reducible apply setTime_changes
    | exact Part.sub_trans (by decide) hp
    | exact Part.mem hp (by decide)
    | (intro _; try dsimp only)
    | split

theorem skipTriggers_changes {P : List Part} {s₀ : State} (from_ : Fine) (till : Fine) (s : State) (hp : Part.sub [.funcs, .units] P = true)  (hc : Changes P s₀ s) : Changes P s₀ (skipTriggers from_ till s) := by
  unfold skipTriggers
  try dsimp only
  repeat' first
    | with_reducible assumption
    | with_reducible exact Changes.refl _ _
    | with_reducible apply Changes.ite
    | with_reducible apply forEach_changes
    | with_reducible apply modUnit_changes
    | with_reducible apply trigger_changes
    | exact Part.sub_trans (by decide) hp
    | exact Part.mem hp (by decide)
    | (intro _; try dsimp only)
    | split

theorem alignStep_changes {P : List Part} {s₀ : State} (tai : Tai) (error : Int) (s : State) (hp : Part.sub [.clock, .funcs, .units, .nodes, .books, .flights, .nextFlight, .hub, .tc, .pulses] P = true)  (hc : Changes P s₀ s) : Changes P s₀ (alignStep tai error s) := by
  unfold alignStep
  try dsimp only
  repeat' first
    | with_reducible assumption
    | with_reducible exact Changes.refl _ _
    | with_reducible apply Changes.ite
    | with_reducible apply issueSeal_changes
    | with_reducible apply setClock_changes
    | with_reducible apply setTime_changes
    | with_reducible apply skipPulses_changes
    | with_reducible apply skipTriggers_changes
    | exact Part.sub_trans (by decide) hp
    | exact Part.mem hp (by decide)
    | (intro _; try dsimp only)
    | split

theorem execAlignStep_changes {P : List Part} {s₀ : State} (tai : Tai) (error : Int) (s : State) (hp : Part.sub [.clock, .funcs, .units, .nodes, .books, .flights, .nextFlight, .hub, .tc, .pulses] P = true)  (hc : Changes P s₀ s) : ResChanges P s₀ (execAlignStep tai error s) := by
  unfold execAlignStep
  try dsimp only
  repeat' first
    | with_reducible assumption
    | with_reducible exact Changes.refl _ _
    | with_reducible apply Changes.ite
    | with_reducible apply ResChanges.next
    | with_reducible exact ResChanges.fault _
    | with_reducible exact ResChanges.refused _
    | with_reducible apply ResChanges.ite
    | with_reducible apply alignStep_changes
    | exact Part.sub_trans (by decide) hp
    | exact Part.mem hp (by decide)
    | (intro _; try dsimp only)
    | split

end Sys2Proof.Machine
end

