-- ==== Sys2Proof/Laws/ChangesWatch.lean ====
section
/-!
SUPPORT. What each operation of Machine/Watch.lean may change.
-/

set_option linter.unusedTactic false
set_option linter.unreachableTactic false
set_option linter.style.longLine false
set_option linter.unusedVariables false
set_option maxRecDepth 8000

namespace Sys2Proof.Machine

open Sys2Proof

theorem execScanEntryWrite_changes {P : List Part} {s₀ : State} (f : Func) (k : Fin 8) (entry : Fin 16) (val : Word) (s : State) (hp : Part.sub [.funcs, .hks] P = true)  (hc : Changes P s₀ s) : ResChanges P s₀ (execScanEntryWrite f k entry val s) := by
  unfold execScanEntryWrite
  try dsimp only
  repeat' first
    | with_reducible assumption
    | with_reducible exact Changes.refl _ _
    | with_reducible apply Changes.ite
    | with_reducible apply ResChanges.next
    | with_reducible exact ResChanges.fault _
    | with_reducible exact ResChanges.refused _
    | with_reducible apply ResChanges.ite
    | with_reducible apply hostCheck_changes
    | with_reducible apply modHk_changes
    | exact Part.sub_trans (by decide) hp
    | exact Part.mem hp (by decide)
    | (intro _; try dsimp only)
    | split

theorem execHkStop_changes {P : List Part} {s₀ : State} (f : Func) (k : Fin 8) (s : State) (hp : Part.sub [.funcs, .hks] P = true)  (hc : Changes P s₀ s) : ResChanges P s₀ (execHkStop f k s) := by
  unfold execHkStop
  try dsimp only
  repeat' first
    | with_reducible assumption
    | with_reducible exact Changes.refl _ _
    | with_reducible apply Changes.ite
    | with_reducible apply ResChanges.next
    | with_reducible exact ResChanges.fault _
    | with_reducible exact ResChanges.refused _
    | with_reducible apply ResChanges.ite
    | with_reducible apply hostWrite_changes
    | with_reducible apply modHk_changes
    | exact Part.sub_trans (by decide) hp
    | exact Part.mem hp (by decide)
    | (intro _; try dsimp only)
    | split

theorem hkStart_changes {P : List Part} {s₀ : State} (f : Func) (k : Fin 8) (s : State) (hp : Part.sub [.funcs, .hks] P = true)  (hc : Changes P s₀ s) : Changes P s₀ (hkStart f k s) := by
  unfold hkStart
  try dsimp only
  repeat' first
    | with_reducible assumption
    | with_reducible exact Changes.refl _ _
    | with_reducible apply Changes.ite
    | with_reducible apply hostCheck_changes
    | with_reducible apply modHk_changes
    | exact Part.sub_trans (by decide) hp
    | exact Part.mem hp (by decide)
    | (intro _; try dsimp only)
    | split

theorem execHkStart_changes {P : List Part} {s₀ : State} (f : Func) (k : Fin 8) (s : State) (hp : Part.sub [.funcs, .hks] P = true)  (hc : Changes P s₀ s) : ResChanges P s₀ (execHkStart f k s) := by
  unfold execHkStart
  try dsimp only
  repeat' first
    | with_reducible assumption
    | with_reducible exact Changes.refl _ _
    | with_reducible apply Changes.ite
    | with_reducible apply ResChanges.next
    | with_reducible exact ResChanges.fault _
    | with_reducible exact ResChanges.refused _
    | with_reducible apply ResChanges.ite
    | with_reducible apply hkStart_changes
    | exact Part.sub_trans (by decide) hp
    | exact Part.mem hp (by decide)
    | (intro _; try dsimp only)
    | split

theorem execComparatorConfigWrite_changes {P : List Part} {s₀ : State} (f : Func) (cmp : CmpId) (reg : WatchReg) (val : Word) (s : State) (hp : Part.sub [.funcs, .watches] P = true)  (hc : Changes P s₀ s) : ResChanges P s₀ (execComparatorConfigWrite f cmp reg val s) := by
  unfold execComparatorConfigWrite
  try dsimp only
  repeat' first
    | with_reducible assumption
    | with_reducible exact Changes.refl _ _
    | with_reducible apply Changes.ite
    | with_reducible apply ResChanges.next
    | with_reducible exact ResChanges.fault _
    | with_reducible exact ResChanges.refused _
    | with_reducible apply ResChanges.ite
    | with_reducible apply hostCheck_changes
    | with_reducible apply modWatch_changes
    | exact Part.sub_trans (by decide) hp
    | exact Part.mem hp (by decide)
    | (intro _; try dsimp only)
    | split

theorem latchToken_changes {P : List Part} {s₀ : State} (c : CmpId) (v : Bool) (s : State) (hp : Part.sub [.funcs, .nodes, .books, .flights, .nextFlight, .hub] P = true)  (hc : Changes P s₀ s) : Changes P s₀ (latchToken c v s) := by
  unfold latchToken
  try dsimp only
  repeat' first
    | with_reducible assumption
    | with_reducible exact Changes.refl _ _
    | with_reducible apply Changes.ite
    | with_reducible apply issueToken_changes
    | exact Part.sub_trans (by decide) hp
    | exact Part.mem hp (by decide)
    | (intro _; try dsimp only)
    | split

theorem clearLatch_changes {P : List Part} {s₀ : State} (c : CmpId) (s : State) (hp : Part.sub [.funcs, .nodes, .books, .flights, .nextFlight, .hub, .watches] P = true)  (hc : Changes P s₀ s) : Changes P s₀ (clearLatch c s) := by
  unfold clearLatch
  try dsimp only
  repeat' first
    | with_reducible assumption
    | with_reducible exact Changes.refl _ _
    | with_reducible apply Changes.ite
    | with_reducible apply latchToken_changes
    | with_reducible apply modWatch_changes
    | exact Part.sub_trans (by decide) hp
    | exact Part.mem hp (by decide)
    | (intro _; try dsimp only)
    | split

theorem latchClear_changes {P : List Part} {s₀ : State} (f : Func) (c : CmpId) (level : BitVec 10) (s : State) (hp : Part.sub [.funcs, .nodes, .books, .flights, .nextFlight, .hub, .watches] P = true)  (hc : Changes P s₀ s) : Changes P s₀ (latchClear f c level s) := by
  unfold latchClear
  try dsimp only
  repeat' first
    | with_reducible assumption
    | with_reducible exact Changes.refl _ _
    | with_reducible apply Changes.ite
    | with_reducible apply clearLatch_changes
    | with_reducible apply hostWrite_changes
    | with_reducible apply modWatch_changes
    | with_reducible apply refuseReg_changes
    | exact Part.sub_trans (by decide) hp
    | exact Part.mem hp (by decide)
    | (intro _; try dsimp only)
    | split

theorem execLatchClear_changes {P : List Part} {s₀ : State} (f : Func) (cmp : CmpId) (level : BitVec 10) (s : State) (hp : Part.sub [.funcs, .nodes, .books, .flights, .nextFlight, .hub, .watches] P = true)  (hc : Changes P s₀ s) : ResChanges P s₀ (execLatchClear f cmp level s) := by
  unfold execLatchClear
  try dsimp only
  repeat' first
    | with_reducible assumption
    | with_reducible exact Changes.refl _ _
    | with_reducible apply Changes.ite
    | with_reducible apply ResChanges.next
    | with_reducible exact ResChanges.fault _
    | with_reducible exact ResChanges.refused _
    | with_reducible apply ResChanges.ite
    | with_reducible apply latchClear_changes
    | exact Part.sub_trans (by decide) hp
    | exact Part.mem hp (by decide)
    | (intro _; try dsimp only)
    | split

theorem startCheck_changes {P : List Part} {s₀ : State} (f : Func) (c : CmpId) (levels : Bool) (s : State) (hp : Part.sub [.funcs, .watches] P = true)  (hc : Changes P s₀ s) : Changes P s₀ (startCheck f c levels s) := by
  unfold startCheck
  try dsimp only
  repeat' first
    | with_reducible assumption
    | with_reducible exact Changes.refl _ _
    | with_reducible apply Changes.ite
    | with_reducible apply hostCheck_changes
    | with_reducible apply modWatch_changes
    | exact Part.sub_trans (by decide) hp
    | exact Part.mem hp (by decide)
    | (intro _; try dsimp only)
    | split

theorem execCheckLevels_changes {P : List Part} {s₀ : State} (f : Func) (cmp : CmpId) (s : State) (hp : Part.sub [.funcs, .watches] P = true)  (hc : Changes P s₀ s) : ResChanges P s₀ (execCheckLevels f cmp s) := by
  unfold execCheckLevels
  try dsimp only
  repeat' first
    | with_reducible assumption
    | with_reducible exact Changes.refl _ _
    | with_reducible apply Changes.ite
    | with_reducible apply ResChanges.next
    | with_reducible exact ResChanges.fault _
    | with_reducible exact ResChanges.refused _
    | with_reducible apply ResChanges.ite
    | with_reducible apply startCheck_changes
    | exact Part.sub_trans (by decide) hp
    | exact Part.mem hp (by decide)
    | (intro _; try dsimp only)
    | split

theorem execCheckSwap_changes {P : List Part} {s₀ : State} (f : Func) (cmp : CmpId) (s : State) (hp : Part.sub [.funcs, .watches] P = true)  (hc : Changes P s₀ s) : ResChanges P s₀ (execCheckSwap f cmp s) := by
  unfold execCheckSwap
  try dsimp only
  repeat' first
    | with_reducible assumption
    | with_reducible exact Changes.refl _ _
    | with_reducible apply Changes.ite
    | with_reducible apply ResChanges.next
    | with_reducible exact ResChanges.fault _
    | with_reducible exact ResChanges.refused _
    | with_reducible apply ResChanges.ite
    | with_reducible apply startCheck_changes
    | exact Part.sub_trans (by decide) hp
    | exact Part.mem hp (by decide)
    | (intro _; try dsimp only)
    | split

theorem setHkCtl_changes {P : List Part} {s₀ : State} (val : Word) (s : State) (hp : Part.sub [.hks, .hkCtl] P = true)  (hc : Changes P s₀ s) : Changes P s₀ (setHkCtl val s) := by
  unfold setHkCtl
  try dsimp only
  repeat' first
    | with_reducible assumption
    | with_reducible exact Changes.refl _ _
    | with_reducible apply Changes.ite
    | with_reducible apply forEach_changes
    | with_reducible apply modHk_changes
    | with_reducible apply setHk_changes
    | exact Part.sub_trans (by decide) hp
    | exact Part.mem hp (by decide)
    | (intro _; try dsimp only)
    | split

theorem execHkCtlWrite_changes {P : List Part} {s₀ : State} (f : Func) (val : Word) (s : State) (hp : Part.sub [.funcs, .hks, .hkCtl] P = true)  (hc : Changes P s₀ s) : ResChanges P s₀ (execHkCtlWrite f val s) := by
  unfold execHkCtlWrite
  try dsimp only
  repeat' first
    | with_reducible assumption
    | with_reducible exact Changes.refl _ _
    | with_reducible apply Changes.ite
    | with_reducible apply ResChanges.next
    | with_reducible exact ResChanges.fault _
    | with_reducible exact ResChanges.refused _
    | with_reducible apply ResChanges.ite
    | with_reducible apply hostWrite_changes
    | with_reducible apply setHkCtl_changes
    | exact Part.sub_trans (by decide) hp
    | exact Part.mem hp (by decide)
    | (intro _; try dsimp only)
    | split

theorem turnEnd_changes {P : List Part} {s₀ : State} (offsetErr : Int) (gainErr : Int) (s : State) (hp : Part.sub [.funcs, .hks, .hkCtl] P = true)  (hc : Changes P s₀ s) : Changes P s₀ (turnEnd offsetErr gainErr s) := by
  unfold turnEnd
  try dsimp only
  repeat' first
    | with_reducible assumption
    | with_reducible exact Changes.refl _ _
    | with_reducible apply Changes.ite
    | with_reducible apply modHk_changes
    | with_reducible apply record_changes
    | with_reducible apply setHk_changes
    | exact Part.sub_trans (by decide) hp
    | exact Part.mem hp (by decide)
    | (intro _; try dsimp only)
    | split

theorem execBackgroundCalibrationTurnEnd_changes {P : List Part} {s₀ : State} (offsetErr : Int) (gainErr : Int) (s : State) (hp : Part.sub [.funcs, .hks, .hkCtl] P = true)  (hc : Changes P s₀ s) : ResChanges P s₀ (execBackgroundCalibrationTurnEnd offsetErr gainErr s) := by
  unfold execBackgroundCalibrationTurnEnd
  try dsimp only
  repeat' first
    | with_reducible assumption
    | with_reducible exact Changes.refl _ _
    | with_reducible apply Changes.ite
    | with_reducible apply ResChanges.next
    | with_reducible exact ResChanges.fault _
    | with_reducible exact ResChanges.refused _
    | with_reducible apply ResChanges.ite
    | with_reducible apply turnEnd_changes
    | exact Part.sub_trans (by decide) hp
    | exact Part.mem hp (by decide)
    | (intro _; try dsimp only)
    | split

theorem execBackgroundCalibrationTurn_changes {P : List Part} {s₀ : State} (s : State) (hp : Part.sub [.hkCtl] P = true)  (hc : Changes P s₀ s) : ResChanges P s₀ (execBackgroundCalibrationTurn s) := by
  unfold execBackgroundCalibrationTurn
  try dsimp only
  repeat' first
    | with_reducible assumption
    | with_reducible exact Changes.refl _ _
    | with_reducible apply Changes.ite
    | with_reducible apply ResChanges.next
    | with_reducible exact ResChanges.fault _
    | with_reducible exact ResChanges.refused _
    | with_reducible apply ResChanges.ite
    | with_reducible apply setHk_changes
    | exact Part.sub_trans (by decide) hp
    | exact Part.mem hp (by decide)
    | (intro _; try dsimp only)
    | split

theorem execReferenceReady_changes {P : List Part} {s₀ : State} (s : State) (hp : Part.sub [.hkCtl] P = true)  (hc : Changes P s₀ s) : ResChanges P s₀ (execReferenceReady s) := by
  unfold execReferenceReady
  try dsimp only
  repeat' first
    | with_reducible assumption
    | with_reducible exact Changes.refl _ _
    | with_reducible apply Changes.ite
    | with_reducible apply ResChanges.next
    | with_reducible exact ResChanges.fault _
    | with_reducible exact ResChanges.refused _
    | with_reducible apply ResChanges.ite
    | with_reducible apply setHk_changes
    | exact Part.sub_trans (by decide) hp
    | exact Part.mem hp (by decide)
    | (intro _; try dsimp only)
    | split

theorem takeHkData_changes {P : List Part} {s₀ : State} (f : Func) (k : Fin 8) (s : State) (hp : Part.sub [.hks] P = true)  (hc : Changes P s₀ s) : Changes P s₀ (takeHkData f k s) := by
  unfold takeHkData
  try dsimp only
  repeat' first
    | with_reducible assumption
    | with_reducible exact Changes.refl _ _
    | with_reducible apply Changes.ite
    | with_reducible apply modHk_changes
    | exact Part.sub_trans (by decide) hp
    | exact Part.mem hp (by decide)
    | (intro _; try dsimp only)
    | split

theorem execHkDataRead_changes {P : List Part} {s₀ : State} (f : Func) (k : Fin 8) (s : State) (hp : Part.sub [.hks] P = true)  (hc : Changes P s₀ s) : ResChanges P s₀ (execHkDataRead f k s) := by
  unfold execHkDataRead
  try dsimp only
  repeat' first
    | with_reducible assumption
    | with_reducible exact Changes.refl _ _
    | with_reducible apply Changes.ite
    | with_reducible apply ResChanges.next
    | with_reducible exact ResChanges.fault _
    | with_reducible exact ResChanges.refused _
    | with_reducible apply ResChanges.ite
    | with_reducible apply takeHkData_changes
    | exact Part.sub_trans (by decide) hp
    | exact Part.mem hp (by decide)
    | (intro _; try dsimp only)
    | split

theorem conversion_changes {P : List Part} {s₀ : State} (k : Fin 8) (code : BitVec 12) (s : State) (hp : Part.sub [.funcs, .hks] P = true)  (hc : Changes P s₀ s) : Changes P s₀ (conversion k code s) := by
  unfold conversion
  try dsimp only
  repeat' first
    | with_reducible assumption
    | with_reducible exact Changes.refl _ _
    | with_reducible apply Changes.ite
    | with_reducible apply modHk_changes
    | with_reducible apply record_changes
    | exact Part.sub_trans (by decide) hp
    | exact Part.mem hp (by decide)
    | (intro _; try dsimp only)
    | split

theorem execConversionDone_changes {P : List Part} {s₀ : State} (k : Fin 8) (code : BitVec 12) (s : State) (hp : Part.sub [.funcs, .hks] P = true)  (hc : Changes P s₀ s) : ResChanges P s₀ (execConversionDone k code s) := by
  unfold execConversionDone
  try dsimp only
  repeat' first
    | with_reducible assumption
    | with_reducible exact Changes.refl _ _
    | with_reducible apply Changes.ite
    | with_reducible apply ResChanges.next
    | with_reducible exact ResChanges.fault _
    | with_reducible exact ResChanges.refused _
    | with_reducible apply ResChanges.ite
    | with_reducible apply conversion_changes
    | exact Part.sub_trans (by decide) hp
    | exact Part.mem hp (by decide)
    | (intro _; try dsimp only)
    | split

theorem takeAction_changes {P : List Part} {s₀ : State} (c : CmpId) (which : BitVec 8) (s : State) (hp : Part.sub [.funcs, .irqs, .stalls, .slices, .voices, .seqs, .chans, .nodes, .books, .flights, .nextFlight, .hub, .riders, .lines, .fasts, .groups, .queues, .farriers, .watches, .feeds, .freeCtr] P = true)  (hc : Changes P s₀ s) : Changes P s₀ (takeAction c which s) := by
  unfold takeAction
  try dsimp only
  repeat' first
    | with_reducible assumption
    | with_reducible exact Changes.refl _ _
    | with_reducible apply Changes.ite
    | with_reducible apply fatalStall_changes
    | with_reducible apply forEach_changes
    | with_reducible apply groupFault_changes
    | with_reducible apply markWindows_changes
    | with_reducible apply modWatch_changes
    | exact Part.sub_trans (by decide) hp
    | exact Part.mem hp (by decide)
    | (intro _; try dsimp only)
    | split

theorem setLatch_changes {P : List Part} {s₀ : State} (c : CmpId) (which : BitVec 8) (s : State) (hp : Part.sub [.host, .funcs, .irqs, .stalls, .slices, .voices, .seqs, .chans, .nodes, .books, .flights, .nextFlight, .hub, .riders, .lines, .fasts, .groups, .queues, .farriers, .watches, .feeds, .freeCtr] P = true)  (hc : Changes P s₀ s) : Changes P s₀ (setLatch c which s) := by
  unfold setLatch
  try dsimp only
  repeat' first
    | with_reducible assumption
    | with_reducible exact Changes.refl _ _
    | with_reducible apply Changes.ite
    | with_reducible apply latchToken_changes
    | with_reducible apply modWatch_changes
    | with_reducible apply raise_changes
    | with_reducible apply record_changes
    | with_reducible apply setHost_changes
    | with_reducible apply takeAction_changes
    | exact Part.sub_trans (by decide) hp
    | exact Part.mem hp (by decide)
    | (intro _; try dsimp only)
    | split

theorem checkEnd_changes {P : List Part} {s₀ : State} (c : CmpId) (pass : Bool) (s : State) (hp : Part.sub [.host, .funcs, .irqs, .stalls, .slices, .voices, .seqs, .chans, .nodes, .books, .flights, .nextFlight, .hub, .riders, .lines, .fasts, .groups, .queues, .farriers, .watches, .feeds, .freeCtr] P = true)  (hc : Changes P s₀ s) : Changes P s₀ (checkEnd c pass s) := by
  unfold checkEnd
  try dsimp only
  repeat' first
    | with_reducible assumption
    | with_reducible exact Changes.refl _ _
    | with_reducible apply Changes.ite
    | with_reducible apply modWatch_changes
    | with_reducible apply record_changes
    | with_reducible apply setLatch_changes
    | with_reducible apply takeAction_changes
    | exact Part.sub_trans (by decide) hp
    | exact Part.mem hp (by decide)
    | (intro _; try dsimp only)
    | split

theorem execSelfCheckEnd_changes {P : List Part} {s₀ : State} (cmp : CmpId) (pass : Bool) (s : State) (hp : Part.sub [.host, .funcs, .irqs, .stalls, .slices, .voices, .seqs, .chans, .nodes, .books, .flights, .nextFlight, .hub, .riders, .lines, .fasts, .groups, .queues, .farriers, .watches, .feeds, .freeCtr] P = true)  (hc : Changes P s₀ s) : ResChanges P s₀ (execSelfCheckEnd cmp pass s) := by
  unfold execSelfCheckEnd
  try dsimp only
  repeat' first
    | with_reducible assumption
    | with_reducible exact Changes.refl _ _
    | with_reducible apply Changes.ite
    | with_reducible apply ResChanges.next
    | with_reducible exact ResChanges.fault _
    | with_reducible exact ResChanges.refused _
    | with_reducible apply ResChanges.ite
    | with_reducible apply checkEnd_changes
    | exact Part.sub_trans (by decide) hp
    | exact Part.mem hp (by decide)
    | (intro _; try dsimp only)
    | split

theorem periodClear_changes {P : List Part} {s₀ : State} (c : CmpId) (level : BitVec 10) (s : State) (hp : Part.sub [.funcs, .nodes, .books, .flights, .nextFlight, .hub, .watches] P = true)  (hc : Changes P s₀ s) : Changes P s₀ (periodClear c level s) := by
  unfold periodClear
  try dsimp only
  repeat' first
    | with_reducible assumption
    | with_reducible exact Changes.refl _ _
    | with_reducible apply Changes.ite
    | with_reducible apply clearLatch_changes
    | with_reducible apply modWatch_changes
    | exact Part.sub_trans (by decide) hp
    | exact Part.mem hp (by decide)
    | (intro _; try dsimp only)
    | split

theorem execPeriodClear_changes {P : List Part} {s₀ : State} (cmp : CmpId) (level : BitVec 10) (s : State) (hp : Part.sub [.funcs, .nodes, .books, .flights, .nextFlight, .hub, .watches] P = true)  (hc : Changes P s₀ s) : ResChanges P s₀ (execPeriodClear cmp level s) := by
  unfold execPeriodClear
  try dsimp only
  repeat' first
    | with_reducible assumption
    | with_reducible exact Changes.refl _ _
    | with_reducible apply Changes.ite
    | with_reducible apply ResChanges.next
    | with_reducible exact ResChanges.fault _
    | with_reducible exact ResChanges.refused _
    | with_reducible apply ResChanges.ite
    | with_reducible apply periodClear_changes
    | exact Part.sub_trans (by decide) hp
    | exact Part.mem hp (by decide)
    | (intro _; try dsimp only)
    | split

theorem trip_changes {P : List Part} {s₀ : State} (c : CmpId) (level : BitVec 10) (which : BitVec 8) (s : State) (hp : Part.sub [.host, .funcs, .irqs, .stalls, .slices, .voices, .seqs, .chans, .nodes, .books, .flights, .nextFlight, .hub, .riders, .lines, .fasts, .groups, .queues, .farriers, .watches, .feeds, .freeCtr] P = true)  (hc : Changes P s₀ s) : Changes P s₀ (trip c level which s) := by
  unfold trip
  try dsimp only
  repeat' first
    | with_reducible assumption
    | with_reducible exact Changes.refl _ _
    | with_reducible apply Changes.ite
    | with_reducible apply modWatch_changes
    | with_reducible apply setLatch_changes
    | exact Part.sub_trans (by decide) hp
    | exact Part.mem hp (by decide)
    | (intro _; try dsimp only)
    | split

theorem execComparatorTrip_changes {P : List Part} {s₀ : State} (cmp : CmpId) (level : BitVec 10) (which : BitVec 8) (s : State) (hp : Part.sub [.host, .funcs, .irqs, .stalls, .slices, .voices, .seqs, .chans, .nodes, .books, .flights, .nextFlight, .hub, .riders, .lines, .fasts, .groups, .queues, .farriers, .watches, .feeds, .freeCtr] P = true)  (hc : Changes P s₀ s) : ResChanges P s₀ (execComparatorTrip cmp level which s) := by
  unfold execComparatorTrip
  try dsimp only
  repeat' first
    | with_reducible assumption
    | with_reducible exact Changes.refl _ _
    | with_reducible apply Changes.ite
    | with_reducible apply ResChanges.next
    | with_reducible exact ResChanges.fault _
    | with_reducible exact ResChanges.refused _
    | with_reducible apply ResChanges.ite
    | with_reducible apply trip_changes
    | exact Part.sub_trans (by decide) hp
    | exact Part.mem hp (by decide)
    | (intro _; try dsimp only)
    | split

end Sys2Proof.Machine
end

