-- ==== Sys2Proof/Laws/ChangesHostOps.lean ====
section
/-!
SUPPORT. What each operation of Machine/HostOps.lean may change.
-/

set_option linter.unusedTactic false
set_option linter.unreachableTactic false
set_option linter.style.longLine false
set_option linter.unusedVariables false
set_option maxRecDepth 8000

namespace Sys2Proof.Machine

open Sys2Proof

theorem sendCapped_changes {P : List Part} {s₀ : State} (src : Nat) (f : Func) (e : Nat) (s : State) (hp : Part.sub [.funcs, .irqs] P = true)  (hc : Changes P s₀ s) : Changes P s₀ (sendCapped src f e s) := by
  unfold sendCapped
  try dsimp only
  repeat' first
    | with_reducible assumption
    | with_reducible exact Changes.refl _ _
    | with_reducible apply Changes.ite
    | with_reducible apply deliver_changes
    | with_reducible apply modIrq_changes
    | exact Part.sub_trans (by decide) hp
    | exact Part.mem hp (by decide)
    | (intro _; try dsimp only)
    | split

theorem releaseEntry_changes {P : List Part} {s₀ : State} (f : Func) (e : Nat) (s : State) (hp : Part.sub [.funcs, .irqs] P = true)  (hc : Changes P s₀ s) : Changes P s₀ (releaseEntry f e s) := by
  unfold releaseEntry
  try dsimp only
  repeat' first
    | with_reducible assumption
    | with_reducible exact Changes.refl _ _
    | with_reducible apply Changes.ite
    | with_reducible apply forEach_changes
    | with_reducible apply modFunc_changes
    | with_reducible apply modIrq_changes
    | with_reducible apply sendCapped_changes
    | exact Part.sub_trans (by decide) hp
    | exact Part.mem hp (by decide)
    | (intro _; try dsimp only)
    | split

theorem andThen_changes {P : List Part} {s₀ : State} (a : Res) (k : State → Res) (ha : ResChanges P s₀ a)
    (hk : ∀ s, Changes P s₀ s → ResChanges P s₀ (k s)) : ResChanges P s₀ (andThen a k) := by
  unfold andThen
  split
  · exact hk _ (ha.all _ rfl)
  · exact ha

theorem refuseSize_changes {P : List Part} {s₀ : State} (f : Func) (a : Nat) (s : State) (hp : Part.sub [.funcs] P = true)  (hc : Changes P s₀ s) : Changes P s₀ (refuseSize f a s) := by
  unfold refuseSize
  try dsimp only
  repeat' first
    | with_reducible assumption
    | with_reducible exact Changes.refl _ _
    | with_reducible apply Changes.ite
    | with_reducible apply refuseAt_changes
    | with_reducible apply refuseReg_changes
    | exact Part.sub_trans (by decide) hp
    | exact Part.mem hp (by decide)
    | (intro _; try dsimp only)
    | split

theorem plainWrite_changes {P : List Part} {s₀ : State} (f : Func) (r : Reg) (val : Word) (s : State) (hp : Part.sub [.host, .funcs, .power, .backup, .persist, .tack, .spine, .stalls, .gaits, .slices, .acqs, .voices, .seqs, .chans, .units, .nodes, .cells, .hub, .riders, .lines, .fasts, .queues, .qdir, .farriers, .lanes, .tether, .tc, .ethPorts, .domains, .pulses, .watches, .hks, .held] P = true)  (hc : Changes P s₀ s) : ResChanges P s₀ (plainWrite f r val s) := by
  unfold plainWrite
  try dsimp only
  repeat' first
    | with_reducible assumption
    | with_reducible exact Changes.refl _ _
    | with_reducible apply Changes.ite
    | with_reducible apply ResChanges.next
    | with_reducible exact ResChanges.fault _
    | with_reducible exact ResChanges.refused _
    | with_reducible apply ResChanges.ite
    | with_reducible apply hostWrite_changes
    | with_reducible apply plainField_changes
    | exact Part.sub_trans (by decide) hp
    | exact Part.mem hp (by decide)
    | (intro _; try dsimp only)
    | split

theorem unknownValue_changes {P : List Part} {s₀ : State} (f : Func) (r : Reg) (code : Code) (s : State) (hp : Part.sub [.funcs] P = true)  (hc : Changes P s₀ s) : ResChanges P s₀ (unknownValue f r code s) := by
  unfold unknownValue
  try dsimp only
  repeat' first
    | with_reducible assumption
    | with_reducible exact Changes.refl _ _
    | with_reducible apply Changes.ite
    | with_reducible apply ResChanges.next
    | with_reducible exact ResChanges.fault _
    | with_reducible exact ResChanges.refused _
    | with_reducible apply ResChanges.ite
    | with_reducible apply hostCheck_changes
    | dsimp only [id]
    | exact Part.sub_trans (by decide) hp
    | exact Part.mem hp (by decide)
    | (intro _; try dsimp only)
    | split

theorem persistWrite_changes {P : List Part} {s₀ : State} (f : Func) (w : Fin 1048576) (val : Word) (s : State) (hp : Part.sub [.host, .funcs, .power, .backup, .persist, .tack, .spine, .stalls, .gaits, .slices, .acqs, .voices, .seqs, .chans, .units, .nodes, .cells, .hub, .riders, .lines, .fasts, .queues, .qdir, .farriers, .lanes, .tether, .tc, .ethPorts, .domains, .pulses, .watches, .hks, .held] P = true)  (hc : Changes P s₀ s) : ResChanges P s₀ (persistWrite f w val s) := by
  unfold persistWrite
  try dsimp only
  repeat' first
    | with_reducible assumption
    | with_reducible exact Changes.refl _ _
    | with_reducible apply Changes.ite
    | with_reducible apply ResChanges.next
    | with_reducible exact ResChanges.fault _
    | with_reducible exact ResChanges.refused _
    | with_reducible apply ResChanges.ite
    | with_reducible apply plainWrite_changes
    | with_reducible apply unknownValue_changes
    | exact Part.sub_trans (by decide) hp
    | exact Part.mem hp (by decide)
    | (intro _; try dsimp only)
    | split

theorem farrierCmdWrite_changes {P : List Part} {s₀ : State} (f : Func) (n : StallId) (val : Word) (s : State) (hp : Part.sub [.funcs, .irqs, .stalls, .chans, .farriers, .trims] P = true)  (hc : Changes P s₀ s) : ResChanges P s₀ (farrierCmdWrite f n val s) := by
  unfold farrierCmdWrite
  try dsimp only
  repeat' first
    | with_reducible assumption
    | with_reducible exact Changes.refl _ _
    | with_reducible apply Changes.ite
    | with_reducible apply ResChanges.next
    | with_reducible exact ResChanges.fault _
    | with_reducible exact ResChanges.refused _
    | with_reducible apply ResChanges.ite
    | with_reducible apply execFarrierAbort_changes
    | with_reducible apply execFarrierStart_changes
    | with_reducible apply execRestore_changes
    | with_reducible apply farrierCommand_changes
    | dsimp only [id]
    | exact Part.sub_trans (by decide) hp
    | exact Part.mem hp (by decide)
    | (intro _; try dsimp only)
    | split

theorem farrierWrite_changes {P : List Part} {s₀ : State} (f : Func) (n : StallId) (r : FaReg) (val : Word) (s : State) (hp : Part.sub [.host, .funcs, .irqs, .power, .backup, .persist, .tack, .spine, .stalls, .gaits, .slices, .acqs, .voices, .seqs, .chans, .units, .nodes, .cells, .hub, .riders, .lines, .fasts, .queues, .qdir, .farriers, .trims, .lanes, .tether, .tc, .ethPorts, .domains, .pulses, .watches, .hks, .held] P = true)  (hc : Changes P s₀ s) : ResChanges P s₀ (farrierWrite f n r val s) := by
  unfold farrierWrite
  try dsimp only
  repeat' first
    | with_reducible assumption
    | with_reducible exact Changes.refl _ _
    | with_reducible apply Changes.ite
    | with_reducible apply ResChanges.next
    | with_reducible exact ResChanges.fault _
    | with_reducible exact ResChanges.refused _
    | with_reducible apply ResChanges.ite
    | with_reducible apply farrierCmdWrite_changes
    | with_reducible apply plainWrite_changes
    | exact Part.sub_trans (by decide) hp
    | exact Part.mem hp (by decide)
    | (intro _; try dsimp only)
    | split

theorem queueWrite_changes {P : List Part} {s₀ : State} (f : Func) (n : StallId) (i : Fin 2048) (r : QReg) (val : Word) (s : State) (hp : Part.sub [.host, .funcs, .power, .backup, .persist, .tack, .spine, .stalls, .gaits, .slices, .acqs, .voices, .seqs, .chans, .units, .nodes, .cells, .hub, .riders, .lines, .fasts, .queues, .qdir, .farriers, .lanes, .tether, .tc, .ethPorts, .domains, .pulses, .watches, .hks, .held] P = true)  (hc : Changes P s₀ s) : ResChanges P s₀ (queueWrite f n i r val s) := by
  unfold queueWrite
  try dsimp only
  repeat' first
    | with_reducible assumption
    | with_reducible exact Changes.refl _ _
    | with_reducible apply Changes.ite
    | with_reducible apply ResChanges.next
    | with_reducible exact ResChanges.fault _
    | with_reducible exact ResChanges.refused _
    | with_reducible apply ResChanges.ite
    | with_reducible apply execQPop_changes
    | with_reducible apply execQPush_changes
    | with_reducible apply execQPushEnd_changes
    | with_reducible apply plainWrite_changes
    | exact Part.sub_trans (by decide) hp
    | exact Part.mem hp (by decide)
    | (intro _; try dsimp only)
    | split

theorem riderCmdWrite_changes {P : List Part} {s₀ : State} (f : Func) (h : RiderId) (val : Word) (s : State) (hp : Part.sub [.funcs, .irqs, .stalls, .seqs, .chans, .riders, .queues, .feeds] P = true)  (hc : Changes P s₀ s) : ResChanges P s₀ (riderCmdWrite f h val s) := by
  unfold riderCmdWrite
  try dsimp only
  repeat' first
    | with_reducible assumption
    | with_reducible exact Changes.refl _ _
    | with_reducible apply Changes.ite
    | with_reducible apply ResChanges.next
    | with_reducible exact ResChanges.fault _
    | with_reducible exact ResChanges.refused _
    | with_reducible apply ResChanges.ite
    | with_reducible apply execRiderStart_changes
    | with_reducible apply execRiderStop_changes
    | with_reducible apply execSpur_changes
    | with_reducible apply unknownValue_changes
    | exact Part.sub_trans (by decide) hp
    | exact Part.mem hp (by decide)
    | (intro _; try dsimp only)
    | split

theorem riderWrite_changes {P : List Part} {s₀ : State} (f : Func) (h : RiderId) (r : RhReg) (val : Word) (s : State) (hp : Part.sub [.host, .funcs, .irqs, .power, .backup, .persist, .tack, .spine, .stalls, .gaits, .slices, .acqs, .voices, .seqs, .chans, .units, .nodes, .cells, .hub, .riders, .lines, .fasts, .queues, .qdir, .farriers, .lanes, .tether, .tc, .ethPorts, .domains, .pulses, .watches, .hks, .feeds, .held] P = true)  (hc : Changes P s₀ s) : ResChanges P s₀ (riderWrite f h r val s) := by
  unfold riderWrite
  try dsimp only
  repeat' first
    | with_reducible assumption
    | with_reducible exact Changes.refl _ _
    | with_reducible apply Changes.ite
    | with_reducible apply ResChanges.next
    | with_reducible exact ResChanges.fault _
    | with_reducible exact ResChanges.refused _
    | with_reducible apply ResChanges.ite
    | with_reducible apply execRhHandlerWrite_changes
    | with_reducible apply execRiderRegisterWrite_changes
    | with_reducible apply plainWrite_changes
    | with_reducible apply riderCmdWrite_changes
    | exact Part.sub_trans (by decide) hp
    | exact Part.mem hp (by decide)
    | (intro _; try dsimp only)
    | split

theorem noAction_changes {P : List Part} {s₀ : State} (f : Func) (r : Reg) (s : State) (hp : Part.sub [.funcs] P = true)  (hc : Changes P s₀ s) : ResChanges P s₀ (noAction f r s) := by
  unfold noAction
  try dsimp only
  repeat' first
    | with_reducible assumption
    | with_reducible exact Changes.refl _ _
    | with_reducible apply Changes.ite
    | with_reducible apply ResChanges.next
    | with_reducible exact ResChanges.fault _
    | with_reducible exact ResChanges.refused _
    | with_reducible apply ResChanges.ite
    | with_reducible apply hostWrite_changes
    | dsimp only [id]
    | exact Part.sub_trans (by decide) hp
    | exact Part.mem hp (by decide)
    | (intro _; try dsimp only)
    | split

theorem nodeWrite_changes {P : List Part} {s₀ : State} (f : Func) (n : StallId) (r : NodeReg) (val : Word) (s : State) (hp : Part.sub [.host, .funcs, .power, .backup, .persist, .tack, .spine, .stalls, .gaits, .slices, .acqs, .voices, .seqs, .chans, .units, .nodes, .cells, .hub, .riders, .lines, .fasts, .queues, .qdir, .farriers, .lanes, .tether, .tc, .ethPorts, .domains, .pulses, .watches, .hks, .held] P = true)  (hc : Changes P s₀ s) : ResChanges P s₀ (nodeWrite f n r val s) := by
  unfold nodeWrite
  try dsimp only
  repeat' first
    | with_reducible assumption
    | with_reducible exact Changes.refl _ _
    | with_reducible apply Changes.ite
    | with_reducible apply ResChanges.next
    | with_reducible exact ResChanges.fault _
    | with_reducible exact ResChanges.refused _
    | with_reducible apply ResChanges.ite
    | with_reducible apply execClearFlipFlops_changes
    | with_reducible apply execSetFlipFlop_changes
    | with_reducible apply noAction_changes
    | with_reducible apply plainWrite_changes
    | exact Part.sub_trans (by decide) hp
    | exact Part.mem hp (by decide)
    | (intro _; try dsimp only)
    | split

theorem lineWrite_changes {P : List Part} {s₀ : State} (f : Func) (l : LineId) (r : FlReg) (val : Word) (grant : Grant) (s : State) (hp : Part.sub [.host, .funcs, .power, .backup, .persist, .tack, .spine, .stalls, .gaits, .slices, .acqs, .voices, .seqs, .chans, .units, .nodes, .cells, .hub, .riders, .lines, .fasts, .queues, .qdir, .farriers, .lanes, .tether, .tc, .ethPorts, .domains, .pulses, .watches, .hks, .held] P = true)  (hc : Changes P s₀ s) : ResChanges P s₀ (lineWrite f l r val grant s) := by
  unfold lineWrite
  try dsimp only
  repeat' first
    | with_reducible assumption
    | with_reducible exact Changes.refl _ _
    | with_reducible apply Changes.ite
    | with_reducible apply ResChanges.next
    | with_reducible exact ResChanges.fault _
    | with_reducible exact ResChanges.refused _
    | with_reducible apply ResChanges.ite
    | with_reducible apply execFlCtlWrite_changes
    | with_reducible apply execFlCurbWrite_changes
    | with_reducible apply execFlDcWrite_changes
    | with_reducible apply execFlFastSet_changes
    | with_reducible apply execFlSafeWrite_changes
    | with_reducible apply execGeneratorConfigWrite_changes
    | with_reducible apply plainWrite_changes
    | exact Part.sub_trans (by decide) hp
    | exact Part.mem hp (by decide)
    | (intro _; try dsimp only)
    | split

theorem groupWrite_changes {P : List Part} {s₀ : State} (f : Func) (g : GroupId) (cmd : Bool) (val : Word) (reports : Bool) (s : State) (hp : Part.sub [.funcs, .groups] P = true)  (hc : Changes P s₀ s) : ResChanges P s₀ (groupWrite f g cmd val reports s) := by
  unfold groupWrite
  try dsimp only
  repeat' first
    | with_reducible assumption
    | with_reducible exact Changes.refl _ _
    | with_reducible apply Changes.ite
    | with_reducible apply ResChanges.next
    | with_reducible exact ResChanges.fault _
    | with_reducible exact ResChanges.refused _
    | with_reducible apply ResChanges.ite
    | with_reducible apply execClear_changes
    | with_reducible apply noAction_changes
    | exact Part.sub_trans (by decide) hp
    | exact Part.mem hp (by decide)
    | (intro _; try dsimp only)
    | split

theorem unitWrite_changes {P : List Part} {s₀ : State} (f : Func) (u : UnitId) (r : TuReg) (val : Word) (s : State) (hp : Part.sub [.host, .funcs, .power, .backup, .persist, .tack, .spine, .stalls, .gaits, .slices, .acqs, .voices, .seqs, .chans, .units, .nodes, .cells, .hub, .riders, .lines, .fasts, .queues, .qdir, .farriers, .lanes, .tether, .tc, .ethPorts, .domains, .pulses, .watches, .hks, .hbm, .held] P = true)  (hc : Changes P s₀ s) : ResChanges P s₀ (unitWrite f u r val s) := by
  unfold unitWrite
  try dsimp only
  repeat' first
    | with_reducible assumption
    | with_reducible exact Changes.refl _ _
    | with_reducible apply Changes.ite
    | with_reducible apply ResChanges.next
    | with_reducible exact ResChanges.fault _
    | with_reducible exact ResChanges.refused _
    | with_reducible apply ResChanges.ite
    | with_reducible apply execArm_changes
    | with_reducible apply execDisarm_changes
    | with_reducible apply execForce_changes
    | with_reducible apply execRelease_changes
    | with_reducible apply execTuRdWrite_changes
    | with_reducible apply noAction_changes
    | with_reducible apply plainWrite_changes
    | exact Part.sub_trans (by decide) hp
    | exact Part.mem hp (by decide)
    | (intro _; try dsimp only)
    | split

theorem chanWrite_changes {P : List Part} {s₀ : State} (f : Func) (c : ChanId) (r : ChReg) (val : Word) (s : State) (hp : Part.sub [.host, .funcs, .power, .backup, .persist, .tack, .spine, .stalls, .gaits, .slices, .acqs, .voices, .seqs, .chans, .units, .nodes, .cells, .hub, .riders, .lines, .fasts, .queues, .qdir, .farriers, .lanes, .tether, .tc, .ethPorts, .domains, .pulses, .watches, .hks, .held] P = true)  (hc : Changes P s₀ s) : ResChanges P s₀ (chanWrite f c r val s) := by
  unfold chanWrite
  try dsimp only
  repeat' first
    | with_reducible assumption
    | with_reducible exact Changes.refl _ _
    | with_reducible apply Changes.ite
    | with_reducible apply ResChanges.next
    | with_reducible exact ResChanges.fault _
    | with_reducible exact ResChanges.refused _
    | with_reducible apply ResChanges.ite
    | with_reducible apply execChCommit_changes
    | with_reducible apply execChCtlWrite_changes
    | with_reducible apply execStagedSetWrite_changes
    | with_reducible apply noAction_changes
    | with_reducible apply plainWrite_changes
    | exact Part.sub_trans (by decide) hp
    | exact Part.mem hp (by decide)
    | (intro _; try dsimp only)
    | split

theorem postWrite_changes {P : List Part} {s₀ : State} (f : Func) (v : VoiceId) (val : Word) (grant : Grant) (s : State) (hp : Part.sub [.funcs, .voices, .seqs] P = true)  (hc : Changes P s₀ s) : ResChanges P s₀ (postWrite f v val grant s) := by
  unfold postWrite
  try dsimp only
  repeat' first
    | with_reducible assumption
    | with_reducible exact Changes.refl _ _
    | with_reducible apply Changes.ite
    | with_reducible apply ResChanges.next
    | with_reducible exact ResChanges.fault _
    | with_reducible exact ResChanges.refused _
    | with_reducible apply ResChanges.ite
    | with_reducible apply execBranch_changes
    | with_reducible apply execBreak_changes
    | with_reducible apply execLoadAlt_changes
    | with_reducible apply execSelectAlt_changes
    | with_reducible apply execStop_changes
    | with_reducible apply execVoiceStart_changes
    | with_reducible apply noAction_changes
    | with_reducible apply unknownValue_changes
    | exact Part.sub_trans (by decide) hp
    | exact Part.mem hp (by decide)
    | (intro _; try dsimp only)
    | split

theorem seqWrite_changes {P : List Part} {s₀ : State} (f : Func) (v : VoiceId) (r : VsReg) (val : Word) (grant : Grant) (s : State) (hp : Part.sub [.host, .funcs, .power, .backup, .persist, .tack, .spine, .stalls, .gaits, .slices, .acqs, .voices, .seqs, .chans, .units, .nodes, .cells, .hub, .riders, .lines, .fasts, .queues, .qdir, .farriers, .lanes, .tether, .tc, .ethPorts, .domains, .pulses, .watches, .hks, .held] P = true)  (hc : Changes P s₀ s) : ResChanges P s₀ (seqWrite f v r val grant s) := by
  unfold seqWrite
  try dsimp only
  repeat' first
    | with_reducible assumption
    | with_reducible exact Changes.refl _ _
    | with_reducible apply Changes.ite
    | with_reducible apply ResChanges.next
    | with_reducible exact ResChanges.fault _
    | with_reducible exact ResChanges.refused _
    | with_reducible apply ResChanges.ite
    | with_reducible apply plainWrite_changes
    | with_reducible apply postWrite_changes
    | exact Part.sub_trans (by decide) hp
    | exact Part.mem hp (by decide)
    | (intro _; try dsimp only)
    | split

theorem voiceWrite_changes {P : List Part} {s₀ : State} (f : Func) (v : VoiceId) (r : VcReg) (val : Word) (grant : Grant) (s : State) (hp : Part.sub [.host, .funcs, .power, .backup, .persist, .tack, .spine, .stalls, .gaits, .slices, .acqs, .voices, .seqs, .chans, .units, .nodes, .cells, .hub, .riders, .lines, .fasts, .queues, .qdir, .farriers, .lanes, .tether, .tc, .ethPorts, .domains, .pulses, .watches, .hks, .held] P = true)  (hc : Changes P s₀ s) : ResChanges P s₀ (voiceWrite f v r val grant s) := by
  unfold voiceWrite
  try dsimp only
  repeat' first
    | with_reducible assumption
    | with_reducible exact Changes.refl _ _
    | with_reducible apply Changes.ite
    | with_reducible apply ResChanges.next
    | with_reducible exact ResChanges.fault _
    | with_reducible exact ResChanges.refused _
    | with_reducible apply ResChanges.ite
    | with_reducible apply execDelayWrite_changes
    | with_reducible apply execFtwHiWrite_changes
    | with_reducible apply execFtwLoWrite_changes
    | with_reducible apply execVoiceTuningWrite_changes
    | with_reducible apply plainWrite_changes
    | exact Part.sub_trans (by decide) hp
    | exact Part.mem hp (by decide)
    | (intro _; try dsimp only)
    | split

theorem sliceWrite_changes {P : List Part} {s₀ : State} (f : Func) (i : SliceId) (reg : Reg) (r : SlReg) (val : Word) (s : State) (hp : Part.sub [.host, .funcs, .power, .backup, .persist, .tack, .spine, .stalls, .gaits, .slices, .acqs, .voices, .seqs, .chans, .units, .nodes, .cells, .hub, .riders, .lines, .fasts, .queues, .qdir, .farriers, .lanes, .tether, .tc, .ethPorts, .domains, .pulses, .watches, .hks, .held] P = true)  (hc : Changes P s₀ s) : ResChanges P s₀ (sliceWrite f i reg r val s) := by
  unfold sliceWrite
  try dsimp only
  repeat' first
    | with_reducible assumption
    | with_reducible exact Changes.refl _ _
    | with_reducible apply Changes.ite
    | with_reducible apply ResChanges.next
    | with_reducible exact ResChanges.fault _
    | with_reducible exact ResChanges.refused _
    | with_reducible apply ResChanges.ite
    | with_reducible apply execSlCtlWrite_changes
    | with_reducible apply plainWrite_changes
    | exact Part.sub_trans (by decide) hp
    | exact Part.mem hp (by decide)
    | (intro _; try dsimp only)
    | split

theorem spareCmdWrite_changes {P : List Part} {s₀ : State} (f : Func) (n : StallId) (val : Word) (s : State) (hp : Part.sub [.funcs, .irqs, .stalls] P = true)  (hc : Changes P s₀ s) : ResChanges P s₀ (spareCmdWrite f n val s) := by
  unfold spareCmdWrite
  try dsimp only
  repeat' first
    | with_reducible assumption
    | with_reducible exact Changes.refl _ _
    | with_reducible apply Changes.ite
    | with_reducible apply ResChanges.next
    | with_reducible exact ResChanges.fault _
    | with_reducible exact ResChanges.refused _
    | with_reducible apply ResChanges.ite
    | with_reducible apply execSpareRelease_changes
    | with_reducible apply execSpareTakeover_changes
    | with_reducible apply noAction_changes
    | exact Part.sub_trans (by decide) hp
    | exact Part.mem hp (by decide)
    | (intro _; try dsimp only)
    | split

theorem stallCmdWrite_changes {P : List Part} {s₀ : State} (f : Func) (n : StallId) (val : Word) (env : WriteEnv) (s : State) (hp : Part.sub [.funcs, .irqs, .power, .persist, .tack, .stallImages, .stalls, .gaits, .slices, .acqs, .voices, .seqs, .chans, .units, .nodes, .cells, .books, .flights, .nextFlight, .hub, .riders, .lines, .fasts, .groups, .queues, .qdir, .farriers, .trims, .watches, .feeds, .hbm, .library, .descs, .kernels, .store, .held, .latched, .freeCtr] P = true)  (hc : Changes P s₀ s) : ResChanges P s₀ (stallCmdWrite f n val env s) := by
  unfold stallCmdWrite
  try dsimp only
  repeat' first
    | with_reducible assumption
    | with_reducible exact Changes.refl _ _
    | with_reducible apply Changes.ite
    | with_reducible apply ResChanges.next
    | with_reducible exact ResChanges.fault _
    | with_reducible exact ResChanges.refused _
    | with_reducible apply ResChanges.ite
    | with_reducible apply execDrain_changes
    | with_reducible apply execHalt_changes
    | with_reducible apply execPowerDown_changes
    | with_reducible apply execPowerUp_changes
    | with_reducible apply execStart_changes
    | with_reducible apply execUnload_changes
    | with_reducible apply stallCommand_changes
    | dsimp only [id]
    | exact Part.sub_trans (by decide) hp
    | exact Part.mem hp (by decide)
    | (intro _; try dsimp only)
    | split

theorem ctlWrite_changes {P : List Part} {s₀ : State} (f : Func) (n : StallId) (r : CtlReg) (val : Word) (env : WriteEnv) (s : State) (hp : Part.sub [.host, .funcs, .irqs, .power, .backup, .persist, .tack, .spine, .stallImages, .stalls, .gaits, .slices, .acqs, .voices, .seqs, .chans, .units, .nodes, .cells, .books, .flights, .nextFlight, .hub, .riders, .lines, .fasts, .groups, .queues, .qdir, .farriers, .trims, .shotAudits, .lanes, .tether, .tc, .ethPorts, .domains, .pulses, .watches, .hks, .feeds, .hbm, .library, .descs, .kernels, .store, .held, .latched, .freeCtr] P = true)  (hc : Changes P s₀ s) : ResChanges P s₀ (ctlWrite f n r val env s) := by
  unfold ctlWrite
  try dsimp only
  repeat' first
    | with_reducible assumption
    | with_reducible exact Changes.refl _ _
    | with_reducible apply Changes.ite
    | with_reducible apply ResChanges.next
    | with_reducible exact ResChanges.fault _
    | with_reducible exact ResChanges.refused _
    | with_reducible apply ResChanges.ite
    | with_reducible apply execShotAuditCmd_changes
    | with_reducible apply execTrotDeadlineWrite_changes
    | with_reducible apply plainWrite_changes
    | with_reducible apply spareCmdWrite_changes
    | with_reducible apply stallCmdWrite_changes
    | exact Part.sub_trans (by decide) hp
    | exact Part.mem hp (by decide)
    | (intro _; try dsimp only)
    | split

theorem qdirCmdWrite_changes {P : List Part} {s₀ : State} (f : Func) (val : Word) (s : State) (hp : Part.sub [.funcs, .irqs, .queues, .qdir] P = true)  (hc : Changes P s₀ s) : ResChanges P s₀ (qdirCmdWrite f val s) := by
  unfold qdirCmdWrite
  try dsimp only
  repeat' first
    | with_reducible assumption
    | with_reducible exact Changes.refl _ _
    | with_reducible apply Changes.ite
    | with_reducible apply ResChanges.next
    | with_reducible exact ResChanges.fault _
    | with_reducible exact ResChanges.refused _
    | with_reducible apply ResChanges.ite
    | with_reducible apply execAuditPages_changes
    | with_reducible apply execAuditQueue_changes
    | with_reducible apply execFlush_changes
    | with_reducible apply execScrub_changes
    | with_reducible apply hostWrite_changes
    | with_reducible apply qdirRefuse_changes
    | exact Part.sub_trans (by decide) hp
    | exact Part.mem hp (by decide)
    | (intro _; try dsimp only)
    | split

theorem qdirWrite_changes {P : List Part} {s₀ : State} (f : Func) (r : QdirReg) (val : Word) (s : State) (hp : Part.sub [.host, .funcs, .irqs, .power, .backup, .persist, .tack, .spine, .stalls, .gaits, .slices, .acqs, .voices, .seqs, .chans, .units, .nodes, .cells, .hub, .riders, .lines, .fasts, .queues, .qdir, .farriers, .lanes, .tether, .tc, .ethPorts, .domains, .pulses, .watches, .hks, .held] P = true)  (hc : Changes P s₀ s) : ResChanges P s₀ (qdirWrite f r val s) := by
  unfold qdirWrite
  try dsimp only
  repeat' first
    | with_reducible assumption
    | with_reducible exact Changes.refl _ _
    | with_reducible apply Changes.ite
    | with_reducible apply ResChanges.next
    | with_reducible exact ResChanges.fault _
    | with_reducible exact ResChanges.refused _
    | with_reducible apply ResChanges.ite
    | with_reducible apply plainWrite_changes
    | with_reducible apply qdirCmdWrite_changes
    | exact Part.sub_trans (by decide) hp
    | exact Part.mem hp (by decide)
    | (intro _; try dsimp only)
    | split

theorem hkWrite_changes {P : List Part} {s₀ : State} (f : Func) (k : Fin 8) (r : HkReg) (val : Word) (s : State) (hp : Part.sub [.host, .funcs, .power, .backup, .persist, .tack, .spine, .stalls, .gaits, .slices, .acqs, .voices, .seqs, .chans, .units, .nodes, .cells, .hub, .riders, .lines, .fasts, .queues, .qdir, .farriers, .lanes, .tether, .tc, .ethPorts, .domains, .pulses, .watches, .hks, .held] P = true)  (hc : Changes P s₀ s) : ResChanges P s₀ (hkWrite f k r val s) := by
  unfold hkWrite
  try dsimp only
  repeat' first
    | with_reducible assumption
    | with_reducible exact Changes.refl _ _
    | with_reducible apply Changes.ite
    | with_reducible apply ResChanges.next
    | with_reducible exact ResChanges.fault _
    | with_reducible exact ResChanges.refused _
    | with_reducible apply ResChanges.ite
    | with_reducible apply execHkStart_changes
    | with_reducible apply execHkStop_changes
    | with_reducible apply noAction_changes
    | with_reducible apply plainWrite_changes
    | exact Part.sub_trans (by decide) hp
    | exact Part.mem hp (by decide)
    | (intro _; try dsimp only)
    | split

theorem cmpWrite_changes {P : List Part} {s₀ : State} (f : Func) (c : CmpId) (r : WcReg) (val : Word) (env : WriteEnv) (s : State) (hp : Part.sub [.host, .funcs, .power, .backup, .persist, .tack, .spine, .stalls, .gaits, .slices, .acqs, .voices, .seqs, .chans, .units, .nodes, .cells, .books, .flights, .nextFlight, .hub, .riders, .lines, .fasts, .queues, .qdir, .farriers, .lanes, .tether, .tc, .ethPorts, .domains, .pulses, .watches, .hks, .held] P = true)  (hc : Changes P s₀ s) : ResChanges P s₀ (cmpWrite f c r val env s) := by
  unfold cmpWrite
  try dsimp only
  repeat' first
    | with_reducible assumption
    | with_reducible exact Changes.refl _ _
    | with_reducible apply Changes.ite
    | with_reducible apply ResChanges.next
    | with_reducible exact ResChanges.fault _
    | with_reducible exact ResChanges.refused _
    | with_reducible apply ResChanges.ite
    | with_reducible apply andThen_changes
    | with_reducible apply execCheckLevels_changes
    | with_reducible apply execCheckSwap_changes
    | with_reducible apply execComparatorConfigWrite_changes
    | with_reducible apply execLatchClear_changes
    | with_reducible apply noAction_changes
    | with_reducible apply plainWrite_changes
    | exact Part.sub_trans (by decide) hp
    | exact Part.mem hp (by decide)
    | (intro _; try dsimp only)
    | split

theorem cellWrite_changes {P : List Part} {s₀ : State} (f : Func) (c : CellId) (reg : Reg) (r : BkReg) (val : Word) (s : State) (hp : Part.sub [.host, .funcs, .power, .backup, .persist, .tack, .spine, .stalls, .gaits, .slices, .acqs, .voices, .seqs, .chans, .units, .nodes, .cells, .hub, .riders, .lines, .fasts, .queues, .qdir, .farriers, .lanes, .tether, .tc, .ethPorts, .domains, .pulses, .watches, .hks, .held] P = true)  (hc : Changes P s₀ s) : ResChanges P s₀ (cellWrite f c reg r val s) := by
  unfold cellWrite
  try dsimp only
  repeat' first
    | with_reducible assumption
    | with_reducible exact Changes.refl _ _
    | with_reducible apply Changes.ite
    | with_reducible apply ResChanges.next
    | with_reducible exact ResChanges.fault _
    | with_reducible exact ResChanges.refused _
    | with_reducible apply ResChanges.ite
    | with_reducible apply execBkFilterWrite_changes
    | with_reducible apply plainWrite_changes
    | exact Part.sub_trans (by decide) hp
    | exact Part.mem hp (by decide)
    | (intro _; try dsimp only)
    | split

theorem unknownSpine_changes {P : List Part} {s₀ : State} (f : Func) (r : Reg) (setOp : (OpStatus → OpStatus) → State → State) (code : Code) (s : State) (hp : Part.sub [.funcs] P = true) (hsetOp : ∀ y0 y1, Changes P s₀ y1 → Changes P s₀ (setOp y0 y1)) (hc : Changes P s₀ s) : ResChanges P s₀ (unknownSpine f r setOp code s) := by
  unfold unknownSpine
  try dsimp only
  repeat' first
    | with_reducible assumption
    | with_reducible exact Changes.refl _ _
    | with_reducible apply Changes.ite
    | with_reducible apply ResChanges.next
    | with_reducible exact ResChanges.fault _
    | with_reducible exact ResChanges.refused _
    | with_reducible apply ResChanges.ite
    | with_reducible apply spineCommand_changes
    | with_reducible apply hsetOp
    | dsimp only [id]
    | exact Part.sub_trans (by decide) hp
    | exact Part.mem hp (by decide)
    | (intro _; try dsimp only)
    | split

theorem hubCmdWrite_changes {P : List Part} {s₀ : State} (f : Func) (val : Word) (s : State) (hp : Part.sub [.funcs, .irqs, .cells, .hub] P = true)  (hc : Changes P s₀ s) : ResChanges P s₀ (hubCmdWrite f val s) := by
  unfold hubCmdWrite
  try dsimp only
  repeat' first
    | with_reducible assumption
    | with_reducible exact Changes.refl _ _
    | with_reducible apply Changes.ite
    | with_reducible apply ResChanges.next
    | with_reducible exact ResChanges.fault _
    | with_reducible exact ResChanges.refused _
    | with_reducible apply ResChanges.ite
    | with_reducible apply execReturn_changes
    | with_reducible apply execTakeOut_changes
    | with_reducible apply hubOp_changes
    | with_reducible apply unknownSpine_changes
    | exact Part.sub_trans (by decide) hp
    | exact Part.mem hp (by decide)
    | (intro _; try dsimp only)
    | split

theorem hubWrite_changes {P : List Part} {s₀ : State} (f : Func) (r : HubReg) (val : Word) (env : WriteEnv) (s : State) (hp : Part.sub [.host, .funcs, .irqs, .power, .backup, .persist, .tack, .spine, .stalls, .gaits, .slices, .acqs, .voices, .seqs, .chans, .units, .nodes, .cells, .books, .flights, .nextFlight, .hub, .riders, .lines, .fasts, .queues, .qdir, .farriers, .lanes, .tether, .tc, .ethPorts, .domains, .pulses, .watches, .hks, .held] P = true)  (hc : Changes P s₀ s) : ResChanges P s₀ (hubWrite f r val env s) := by
  unfold hubWrite
  try dsimp only
  repeat' first
    | with_reducible assumption
    | with_reducible exact Changes.refl _ _
    | with_reducible apply Changes.ite
    | with_reducible apply ResChanges.next
    | with_reducible exact ResChanges.fault _
    | with_reducible exact ResChanges.refused _
    | with_reducible apply ResChanges.ite
    | with_reducible apply execReinAuditCmd_changes
    | with_reducible apply execReinInject_changes
    | with_reducible apply hubCmdWrite_changes
    | with_reducible apply plainWrite_changes
    | exact Part.sub_trans (by decide) hp
    | exact Part.mem hp (by decide)
    | (intro _; try dsimp only)
    | split

theorem tlWrite_changes {P : List Part} {s₀ : State} (f : Func) (k : LaneId) (r : TlReg) (val : Word) (s : State) (hp : Part.sub [.host, .funcs, .irqs, .power, .backup, .persist, .tack, .spine, .stalls, .gaits, .slices, .acqs, .voices, .seqs, .chans, .units, .nodes, .cells, .books, .hub, .riders, .lines, .fasts, .queues, .qdir, .farriers, .lanes, .tether, .tc, .ethPorts, .domains, .pulses, .watches, .hks, .held, .freeCtr] P = true)  (hc : Changes P s₀ s) : ResChanges P s₀ (tlWrite f k r val s) := by
  unfold tlWrite
  try dsimp only
  repeat' first
    | with_reducible assumption
    | with_reducible exact Changes.refl _ _
    | with_reducible apply Changes.ite
    | with_reducible apply ResChanges.next
    | with_reducible exact ResChanges.fault _
    | with_reducible exact ResChanges.refused _
    | with_reducible apply ResChanges.ite
    | with_reducible apply execTlCtlWrite_changes
    | with_reducible apply execTlPrbsWrite_changes
    | with_reducible apply plainWrite_changes
    | exact Part.sub_trans (by decide) hp
    | exact Part.mem hp (by decide)
    | (intro _; try dsimp only)
    | split

theorem tetherCmdWrite_changes {P : List Part} {s₀ : State} (f : Func) (val : Word) (s : State) (hp : Part.sub [.funcs, .irqs, .books, .lanes, .tether, .tc] P = true)  (hc : Changes P s₀ s) : ResChanges P s₀ (tetherCmdWrite f val s) := by
  unfold tetherCmdWrite
  try dsimp only
  repeat' first
    | with_reducible assumption
    | with_reducible exact Changes.refl _ _
    | with_reducible apply Changes.ite
    | with_reducible apply ResChanges.next
    | with_reducible exact ResChanges.fault _
    | with_reducible exact ResChanges.refused _
    | with_reducible apply ResChanges.ite
    | with_reducible apply execInject_changes
    | with_reducible apply execRetrain_changes
    | with_reducible apply tetherOp_changes
    | with_reducible apply unknownSpine_changes
    | exact Part.sub_trans (by decide) hp
    | exact Part.mem hp (by decide)
    | (intro _; try dsimp only)
    | split

theorem tetherWrite_changes {P : List Part} {s₀ : State} (f : Func) (r : TetherReg) (val : Word) (s : State) (hp : Part.sub [.host, .funcs, .irqs, .power, .backup, .persist, .tack, .spine, .stalls, .gaits, .slices, .acqs, .voices, .seqs, .chans, .units, .nodes, .cells, .books, .hub, .riders, .lines, .fasts, .queues, .qdir, .farriers, .lanes, .tether, .tc, .ethPorts, .domains, .pulses, .watches, .hks, .held] P = true)  (hc : Changes P s₀ s) : ResChanges P s₀ (tetherWrite f r val s) := by
  unfold tetherWrite
  try dsimp only
  repeat' first
    | with_reducible assumption
    | with_reducible exact Changes.refl _ _
    | with_reducible apply Changes.ite
    | with_reducible apply ResChanges.next
    | with_reducible exact ResChanges.fault _
    | with_reducible exact ResChanges.refused _
    | with_reducible apply ResChanges.ite
    | with_reducible apply plainWrite_changes
    | with_reducible apply tetherCmdWrite_changes
    | exact Part.sub_trans (by decide) hp
    | exact Part.mem hp (by decide)
    | (intro _; try dsimp only)
    | split

theorem tpWrite_changes {P : List Part} {s₀ : State} (f : Func) (k : Fin 8) (r : TpReg) (val : Word) (s : State) (hp : Part.sub [.host, .funcs, .power, .backup, .persist, .tack, .spine, .stalls, .gaits, .slices, .acqs, .voices, .seqs, .chans, .units, .nodes, .cells, .hub, .riders, .lines, .fasts, .queues, .qdir, .farriers, .lanes, .tether, .tc, .ethPorts, .domains, .pulses, .watches, .hks, .held] P = true)  (hc : Changes P s₀ s) : ResChanges P s₀ (tpWrite f k r val s) := by
  unfold tpWrite
  try dsimp only
  repeat' first
    | with_reducible assumption
    | with_reducible exact Changes.refl _ _
    | with_reducible apply Changes.ite
    | with_reducible apply ResChanges.next
    | with_reducible exact ResChanges.fault _
    | with_reducible exact ResChanges.refused _
    | with_reducible apply ResChanges.ite
    | with_reducible apply andThen_changes
    | with_reducible apply execTpArm_changes
    | with_reducible apply execTpDisarm_changes
    | with_reducible apply plainWrite_changes
    | exact Part.sub_trans (by decide) hp
    | exact Part.mem hp (by decide)
    | (intro _; try dsimp only)
    | split

theorem dmWrite_changes {P : List Part} {s₀ : State} (f : Func) (d : Fin 2) (r : DmReg) (val : Word) (s : State) (hp : Part.sub [.host, .funcs, .power, .backup, .persist, .tack, .spine, .stalls, .gaits, .slices, .acqs, .voices, .seqs, .chans, .units, .nodes, .cells, .hub, .riders, .lines, .fasts, .queues, .qdir, .farriers, .lanes, .tether, .tc, .ethPorts, .domains, .pulses, .watches, .hks, .held] P = true)  (hc : Changes P s₀ s) : ResChanges P s₀ (dmWrite f d r val s) := by
  unfold dmWrite
  try dsimp only
  repeat' first
    | with_reducible assumption
    | with_reducible exact Changes.refl _ _
    | with_reducible apply Changes.ite
    | with_reducible apply ResChanges.next
    | with_reducible exact ResChanges.fault _
    | with_reducible exact ResChanges.refused _
    | with_reducible apply ResChanges.ite
    | with_reducible apply execDmCtlWrite_changes
    | with_reducible apply plainWrite_changes
    | exact Part.sub_trans (by decide) hp
    | exact Part.mem hp (by decide)
    | (intro _; try dsimp only)
    | split

theorem ptWrite_changes {P : List Part} {s₀ : State} (f : Func) (p : Fin 2) (r : PtReg) (val : Word) (s : State) (hp : Part.sub [.host, .funcs, .power, .backup, .persist, .tack, .spine, .stalls, .gaits, .slices, .acqs, .voices, .seqs, .chans, .units, .nodes, .cells, .hub, .riders, .lines, .fasts, .queues, .qdir, .farriers, .lanes, .tether, .tc, .ethPorts, .domains, .pulses, .watches, .hks, .held] P = true)  (hc : Changes P s₀ s) : ResChanges P s₀ (ptWrite f p r val s) := by
  unfold ptWrite
  try dsimp only
  repeat' first
    | with_reducible assumption
    | with_reducible exact Changes.refl _ _
    | with_reducible apply Changes.ite
    | with_reducible apply ResChanges.next
    | with_reducible exact ResChanges.fault _
    | with_reducible exact ResChanges.refused _
    | with_reducible apply ResChanges.ite
    | with_reducible apply execRwpWrite_changes
    | with_reducible apply plainWrite_changes
    | exact Part.sub_trans (by decide) hp
    | exact Part.mem hp (by decide)
    | (intro _; try dsimp only)
    | split

theorem timeCmdWrite_changes {P : List Part} {s₀ : State} (f : Func) (val : Word) (s : State) (hp : Part.sub [.funcs, .irqs, .tc, .domains] P = true)  (hc : Changes P s₀ s) : ResChanges P s₀ (timeCmdWrite f val s) := by
  unfold timeCmdWrite
  try dsimp only
  repeat' first
    | with_reducible assumption
    | with_reducible exact Changes.refl _ _
    | with_reducible apply Changes.ite
    | with_reducible apply ResChanges.next
    | with_reducible exact ResChanges.fault _
    | with_reducible exact ResChanges.refused _
    | with_reducible apply ResChanges.ite
    | with_reducible apply execAccept_changes
    | with_reducible apply execAlign_changes
    | with_reducible apply execSwitch_changes
    | with_reducible apply timeOp_changes
    | with_reducible apply unknownSpine_changes
    | exact Part.sub_trans (by decide) hp
    | exact Part.mem hp (by decide)
    | (intro _; try dsimp only)
    | split

theorem timeWrite_changes {P : List Part} {s₀ : State} (f : Func) (r : TimeReg) (val : Word) (s : State) (hp : Part.sub [.host, .funcs, .irqs, .power, .backup, .persist, .tack, .spine, .stalls, .gaits, .slices, .acqs, .voices, .seqs, .chans, .units, .nodes, .cells, .hub, .riders, .lines, .fasts, .queues, .qdir, .farriers, .lanes, .tether, .tc, .ethPorts, .domains, .pulses, .watches, .hks, .held] P = true)  (hc : Changes P s₀ s) : ResChanges P s₀ (timeWrite f r val s) := by
  unfold timeWrite
  try dsimp only
  repeat' first
    | with_reducible assumption
    | with_reducible exact Changes.refl _ _
    | with_reducible apply Changes.ite
    | with_reducible apply ResChanges.next
    | with_reducible exact ResChanges.fault _
    | with_reducible exact ResChanges.refused _
    | with_reducible apply ResChanges.ite
    | with_reducible apply execEpochTaiWrite_changes
    | with_reducible apply execRwpWrite_changes
    | with_reducible apply plainWrite_changes
    | with_reducible apply timeCmdWrite_changes
    | exact Part.sub_trans (by decide) hp
    | exact Part.mem hp (by decide)
    | (intro _; try dsimp only)
    | split

theorem tackCmdWrite_changes {P : List Part} {s₀ : State} (f : Func) (val : Word) (env : WriteEnv) (s : State) (hp : Part.sub [.funcs, .irqs, .power, .persist, .tack, .stallImages, .stalls, .gaits, .slices, .acqs, .voices, .seqs, .chans, .units, .nodes, .cells, .books, .flights, .nextFlight, .hub, .riders, .lines, .fasts, .groups, .queues, .qdir, .farriers, .trims, .watches, .hbm, .library, .descs, .kernels, .store, .held, .latched] P = true)  (hc : Changes P s₀ s) : ResChanges P s₀ (tackCmdWrite f val env s) := by
  unfold tackCmdWrite
  try dsimp only
  repeat' first
    | with_reducible assumption
    | with_reducible exact Changes.refl _ _
    | with_reducible apply Changes.ite
    | with_reducible apply ResChanges.next
    | with_reducible exact ResChanges.fault _
    | with_reducible exact ResChanges.refused _
    | with_reducible apply ResChanges.ite
    | with_reducible apply execAbort_changes
    | with_reducible apply execCheck_changes
    | with_reducible apply execLoadHerd_changes
    | with_reducible apply execLoadHub_changes
    | with_reducible apply execLoadStall_changes
    | with_reducible apply tackOp_changes
    | with_reducible apply unknownSpine_changes
    | exact Part.sub_trans (by decide) hp
    | exact Part.mem hp (by decide)
    | (intro _; try dsimp only)
    | split

theorem tackWrite_changes {P : List Part} {s₀ : State} (f : Func) (r : TackReg) (val : Word) (env : WriteEnv) (s : State) (hp : Part.sub [.host, .funcs, .irqs, .power, .backup, .persist, .tack, .spine, .stallImages, .stalls, .gaits, .slices, .acqs, .voices, .seqs, .chans, .units, .nodes, .cells, .books, .flights, .nextFlight, .hub, .riders, .lines, .fasts, .groups, .queues, .qdir, .farriers, .trims, .lanes, .tether, .tc, .ethPorts, .domains, .pulses, .watches, .hks, .hbm, .library, .descs, .kernels, .store, .held, .latched] P = true)  (hc : Changes P s₀ s) : ResChanges P s₀ (tackWrite f r val env s) := by
  unfold tackWrite
  try dsimp only
  repeat' first
    | with_reducible assumption
    | with_reducible exact Changes.refl _ _
    | with_reducible apply Changes.ite
    | with_reducible apply ResChanges.next
    | with_reducible exact ResChanges.fault _
    | with_reducible exact ResChanges.refused _
    | with_reducible apply ResChanges.ite
    | with_reducible apply plainWrite_changes
    | with_reducible apply tackCmdWrite_changes
    | exact Part.sub_trans (by decide) hp
    | exact Part.mem hp (by decide)
    | (intro _; try dsimp only)
    | split

theorem powerCmdWrite_changes {P : List Part} {s₀ : State} (f : Func) (val : Word) (env : WriteEnv) (s : State) (hp : Part.sub [.clock, .host, .funcs, .irqs, .power, .backup, .persist, .tack, .spine, .herdImage, .hubImage, .stallImages, .stalls, .gaits, .slices, .acqs, .voices, .seqs, .chans, .units, .nodes, .cells, .books, .flights, .nextFlight, .hub, .riders, .lines, .fasts, .groups, .queues, .qdir, .farriers, .trims, .shotAudits, .lanes, .tether, .tc, .ethPorts, .domains, .pulses, .watches, .hks, .hkCtl, .hbm, .library, .descs, .kernels, .store, .held, .latched] P = true)  (hc : Changes P s₀ s) : ResChanges P s₀ (powerCmdWrite f val env s) := by
  unfold powerCmdWrite
  try dsimp only
  repeat' first
    | with_reducible assumption
    | with_reducible exact Changes.refl _ _
    | with_reducible apply Changes.ite
    | with_reducible apply ResChanges.next
    | with_reducible exact ResChanges.fault _
    | with_reducible exact ResChanges.refused _
    | with_reducible apply ResChanges.ite
    | with_reducible apply execAcceptFactory_changes
    | with_reducible apply execFwSwitch_changes
    | with_reducible apply execFwWrite_changes
    | with_reducible apply execModuleReset_changes
    | with_reducible apply powerOp_changes
    | with_reducible apply unknownSpine_changes
    | exact Part.sub_trans (by decide) hp
    | exact Part.mem hp (by decide)
    | (intro _; try dsimp only)
    | split

theorem powerWrite_changes {P : List Part} {s₀ : State} (f : Func) (r : PowerReg) (val : Word) (env : WriteEnv) (s : State) (hp : Part.sub [.clock, .host, .funcs, .irqs, .power, .backup, .persist, .tack, .spine, .herdImage, .hubImage, .stallImages, .stalls, .gaits, .slices, .acqs, .voices, .seqs, .chans, .units, .nodes, .cells, .books, .flights, .nextFlight, .hub, .riders, .lines, .fasts, .groups, .queues, .qdir, .farriers, .trims, .shotAudits, .lanes, .tether, .tc, .ethPorts, .domains, .pulses, .watches, .hks, .hkCtl, .hbm, .library, .descs, .kernels, .store, .held, .latched] P = true)  (hc : Changes P s₀ s) : ResChanges P s₀ (powerWrite f r val env s) := by
  unfold powerWrite
  try dsimp only
  repeat' first
    | with_reducible assumption
    | with_reducible exact Changes.refl _ _
    | with_reducible apply Changes.ite
    | with_reducible apply ResChanges.next
    | with_reducible exact ResChanges.fault _
    | with_reducible exact ResChanges.refused _
    | with_reducible apply ResChanges.ite
    | with_reducible apply execRtcHiWrite_changes
    | with_reducible apply execRwpWrite_changes
    | with_reducible apply plainWrite_changes
    | with_reducible apply powerCmdWrite_changes
    | exact Part.sub_trans (by decide) hp
    | exact Part.mem hp (by decide)
    | (intro _; try dsimp only)
    | split

theorem entryWrite_changes {P : List Part} {s₀ : State} (f : Func) (e : Fin 2048) (w : Fin 4) (val : Word) (s : State) (hp : Part.sub [.funcs, .irqs] P = true)  (hc : Changes P s₀ s) : Changes P s₀ (entryWrite f e w val s) := by
  unfold entryWrite
  try dsimp only
  repeat' first
    | with_reducible assumption
    | with_reducible exact Changes.refl _ _
    | with_reducible apply Changes.ite
    | with_reducible apply modFunc_changes
    | with_reducible apply releaseEntry_changes
    | exact Part.sub_trans (by decide) hp
    | exact Part.mem hp (by decide)
    | (intro _; try dsimp only)
    | split

theorem regWrite_changes {P : List Part} {s₀ : State} (f : Func) (r : Reg) (val : Word) (env : WriteEnv) (s : State) (hp : Part.sub [.clock, .host, .funcs, .irqs, .power, .backup, .persist, .tack, .spine, .herdImage, .hubImage, .stallImages, .stalls, .gaits, .slices, .acqs, .voices, .seqs, .chans, .units, .nodes, .cells, .books, .flights, .nextFlight, .hub, .riders, .lines, .fasts, .groups, .queues, .qdir, .farriers, .trims, .shotAudits, .lanes, .tether, .tc, .ethPorts, .domains, .pulses, .watches, .hks, .hkCtl, .feeds, .hbm, .library, .descs, .kernels, .store, .held, .latched, .freeCtr] P = true)  (hc : Changes P s₀ s) : ResChanges P s₀ (regWrite f r val env s) := by
  have plain : ResChanges P s₀ (plainWrite f r val s) := plainWrite_changes _ _ _ _ (Part.sub_trans (by decide) hp) hc
  cases r
  case hkCtl b =>
    cases b
    · exact execHkCtlWrite_changes _ _ _ (Part.sub_trans (by decide) hp) hc
    · exact plain
  case acq n k q =>
    cases q
    case ctl => exact execAsCtlWrite_changes _ _ _ _ _ (Part.sub_trans (by decide) hp) hc
    all_goals exact plain
  case msix e w =>
    exact ResChanges.next (hostWrite_changes _ _ _ _ (Part.sub_trans (by decide) hp)
      (fun s hs => entryWrite_changes _ _ _ _ _ (Part.sub_trans (by decide) hp) hs) hc)
  case power => exact powerWrite_changes _ _ _ _ _ (Part.sub_trans (by decide) hp) hc
  case tack => exact tackWrite_changes _ _ _ _ _ (Part.sub_trans (by decide) hp) hc
  case time => exact timeWrite_changes _ _ _ _ (Part.sub_trans (by decide) hp) hc
  case pt => exact ptWrite_changes _ _ _ _ _ (Part.sub_trans (by decide) hp) hc
  case dm => exact dmWrite_changes _ _ _ _ _ (Part.sub_trans (by decide) hp) hc
  case tp => exact tpWrite_changes _ _ _ _ _ (Part.sub_trans (by decide) hp) hc
  case tether => exact tetherWrite_changes _ _ _ _ (Part.sub_trans (by decide) hp) hc
  case tl => exact tlWrite_changes _ _ _ _ _ (Part.sub_trans (by decide) hp) hc
  case hub => exact hubWrite_changes _ _ _ _ _ (Part.sub_trans (by decide) hp) hc
  case hubCell => exact cellWrite_changes _ _ _ _ _ _ (Part.sub_trans (by decide) hp) hc
  case spineCmp => exact cmpWrite_changes _ _ _ _ _ _ (Part.sub_trans (by decide) hp) hc
  case hk => exact hkWrite_changes _ _ _ _ _ (Part.sub_trans (by decide) hp) hc
  case scan => exact execScanEntryWrite_changes _ _ _ _ _ (Part.sub_trans (by decide) hp) hc
  case qdir => exact qdirWrite_changes _ _ _ _ (Part.sub_trans (by decide) hp) hc
  case ctl => exact ctlWrite_changes _ _ _ _ _ _ (Part.sub_trans (by decide) hp) hc
  case cmp => exact cmpWrite_changes _ _ _ _ _ _ (Part.sub_trans (by decide) hp) hc
  case drive => exact sliceWrite_changes _ _ _ _ _ _ (Part.sub_trans (by decide) hp) hc
  case probe => exact sliceWrite_changes _ _ _ _ _ _ (Part.sub_trans (by decide) hp) hc
  case voice => exact voiceWrite_changes _ _ _ _ _ _ (Part.sub_trans (by decide) hp) hc
  case seq => exact seqWrite_changes _ _ _ _ _ _ (Part.sub_trans (by decide) hp) hc
  case chan => exact chanWrite_changes _ _ _ _ _ (Part.sub_trans (by decide) hp) hc
  case unit => exact unitWrite_changes _ _ _ _ _ (Part.sub_trans (by decide) hp) hc
  case kernelTap => exact execKernelWindowWrite_changes _ _ _ _ _ (Part.sub_trans (by decide) hp) hc
  case group => exact groupWrite_changes _ _ _ _ _ _ (Part.sub_trans (by decide) hp) hc
  case line => exact lineWrite_changes _ _ _ _ _ _ (Part.sub_trans (by decide) hp) hc
  case edge => exact execEdgeTableWrite_changes _ _ _ _ _ (Part.sub_trans (by decide) hp) hc
  case node => exact nodeWrite_changes _ _ _ _ _ (Part.sub_trans (by decide) hp) hc
  case cell => exact cellWrite_changes _ _ _ _ _ _ (Part.sub_trans (by decide) hp) hc
  case rider => exact riderWrite_changes _ _ _ _ _ (Part.sub_trans (by decide) hp) hc
  case queue => exact queueWrite_changes _ _ _ _ _ _ (Part.sub_trans (by decide) hp) hc
  case farrier => exact farrierWrite_changes _ _ _ _ _ (Part.sub_trans (by decide) hp) hc
  case store => exact execControlStoreWrite_changes _ _ _ _ _ (Part.sub_trans (by decide) hp) hc
  case env => exact execEnvelopeWindowWrite_changes _ _ _ _ _ (Part.sub_trans (by decide) hp) hc
  case persist => exact persistWrite_changes _ _ _ _ (Part.sub_trans (by decide) hp) hc
  case tally => exact execTallyMirrorWrite_changes _ _ _ (Part.sub_trans (by decide) hp) hc
  all_goals exact plain

theorem wordWriteAt_changes {P : List Part} {s₀ : State} (f : Func) (a : Nat) (val : Word) (env : WriteEnv) (s : State) (hp : Part.sub [.clock, .host, .funcs, .irqs, .power, .backup, .persist, .tack, .spine, .herdImage, .hubImage, .stallImages, .stalls, .gaits, .slices, .acqs, .voices, .seqs, .chans, .units, .nodes, .cells, .books, .flights, .nextFlight, .hub, .riders, .lines, .fasts, .groups, .queues, .qdir, .farriers, .trims, .shotAudits, .lanes, .tether, .tc, .ethPorts, .domains, .pulses, .watches, .hks, .hkCtl, .feeds, .hbm, .library, .descs, .kernels, .store, .held, .latched, .freeCtr] P = true)  (hc : Changes P s₀ s) : ResChanges P s₀ (wordWriteAt f a val env s) := by
  unfold wordWriteAt
  try dsimp only
  repeat' first
    | with_reducible assumption
    | with_reducible exact Changes.refl _ _
    | with_reducible apply Changes.ite
    | with_reducible apply ResChanges.next
    | with_reducible exact ResChanges.fault _
    | with_reducible exact ResChanges.refused _
    | with_reducible apply ResChanges.ite
    | with_reducible apply refuseAt_changes
    | with_reducible apply regWrite_changes
    | exact Part.sub_trans (by decide) hp
    | exact Part.mem hp (by decide)
    | (intro _; try dsimp only)
    | split

theorem barWrite_changes {P : List Part} {s₀ : State} (f : Func) (size : AccessSize) (a : Nat) (val : Word64) (env : WriteEnv) (s : State) (hp : Part.sub [.clock, .host, .funcs, .irqs, .power, .backup, .persist, .tack, .spine, .herdImage, .hubImage, .stallImages, .stalls, .gaits, .slices, .acqs, .voices, .seqs, .chans, .units, .nodes, .cells, .books, .flights, .nextFlight, .hub, .riders, .lines, .fasts, .groups, .queues, .qdir, .farriers, .trims, .shotAudits, .lanes, .tether, .tc, .ethPorts, .domains, .pulses, .watches, .hks, .hkCtl, .feeds, .hbm, .library, .descs, .kernels, .store, .held, .latched, .freeCtr] P = true)  (hc : Changes P s₀ s) : ResChanges P s₀ (barWrite f size a val env s) := by
  unfold barWrite
  try dsimp only
  repeat' first
    | with_reducible assumption
    | with_reducible exact Changes.refl _ _
    | with_reducible apply Changes.ite
    | with_reducible apply ResChanges.next
    | with_reducible exact ResChanges.fault _
    | with_reducible exact ResChanges.refused _
    | with_reducible apply ResChanges.ite
    | with_reducible apply andThen_changes
    | with_reducible apply refuseSize_changes
    | with_reducible apply wordWriteAt_changes
    | exact Part.sub_trans (by decide) hp
    | exact Part.mem hp (by decide)
    | (intro _; try dsimp only)
    | split

theorem capRelease_changes {P : List Part} {s₀ : State} (src : Nat) (s : State) (hp : Part.sub [.funcs, .irqs] P = true)  (hc : Changes P s₀ s) : Changes P s₀ (capRelease src s) := by
  unfold capRelease
  try dsimp only
  repeat' first
    | with_reducible assumption
    | with_reducible exact Changes.refl _ _
    | with_reducible apply Changes.ite
    | with_reducible apply deliver_changes
    | with_reducible apply modIrq_changes
    | exact Part.sub_trans (by decide) hp
    | exact Part.mem hp (by decide)
    | (intro _; try dsimp only)
    | split

end Sys2Proof.Machine
end

