-- ==== Sys2Proof/Laws/ChangesHostRows.lean ====
section
/-!
SUPPORT. What each operation of Machine/HostRows.lean may change.
-/

set_option linter.unusedTactic false
set_option linter.unreachableTactic false
set_option linter.style.longLine false
set_option linter.unusedVariables false
set_option maxRecDepth 8000

namespace Sys2Proof.Machine

open Sys2Proof

theorem discardWrite_changes {P : List Part} {s₀ : State} (f : Func) (a : Nat) (s : State) (hp : Part.sub [.funcs] P = true)  (hc : Changes P s₀ s) : Changes P s₀ (discardWrite f a s) := by
  unfold discardWrite
  try dsimp only
  repeat' first
    | with_reducible assumption
    | with_reducible exact Changes.refl _ _
    | with_reducible apply Changes.ite
    | with_reducible apply refuseAt_changes
    | exact Part.sub_trans (by decide) hp
    | exact Part.mem hp (by decide)
    | (intro _; try dsimp only)
    | split

theorem execHbmHostWrite_changes {P : List Part} {s₀ : State} (f : Func) (addr : BitVec 36) (bytes : List Byte) (s : State) (hp : Part.sub [.funcs, .tack, .hbm] P = true)  (hc : Changes P s₀ s) : ResChanges P s₀ (execHbmHostWrite f addr bytes s) := by
  unfold execHbmHostWrite
  try dsimp only
  repeat' first
    | with_reducible assumption
    | with_reducible exact Changes.refl _ _
    | with_reducible apply Changes.ite
    | with_reducible apply ResChanges.next
    | with_reducible exact ResChanges.fault _
    | with_reducible exact ResChanges.refused _
    | with_reducible apply ResChanges.ite
    | with_reducible apply discardWrite_changes
    | with_reducible apply stageBytes_changes
    | exact Part.sub_trans (by decide) hp
    | exact Part.mem hp (by decide)
    | (intro _; try dsimp only)
    | split

theorem releaseEntries_changes {P : List Part} {s₀ : State} (f : Func) (s : State) (hp : Part.sub [.funcs, .irqs] P = true)  (hc : Changes P s₀ s) : Changes P s₀ (releaseEntries f s) := by
  unfold releaseEntries
  try dsimp only
  repeat' first
    | with_reducible assumption
    | with_reducible exact Changes.refl _ _
    | with_reducible apply Changes.ite
    | with_reducible apply forEach_changes
    | with_reducible apply releaseEntry_changes
    | exact Part.sub_trans (by decide) hp
    | exact Part.mem hp (by decide)
    | (intro _; try dsimp only)
    | split

theorem enableVfs_changes {P : List Part} {s₀ : State} (count : Nat) (s : State) (hp : Part.sub [.funcs] P = true)  (hc : Changes P s₀ s) : Changes P s₀ (enableVfs count s) := by
  unfold enableVfs
  try dsimp only
  repeat' first
    | with_reducible assumption
    | with_reducible exact Changes.refl _ _
    | with_reducible apply Changes.ite
    | with_reducible apply forEach_changes
    | with_reducible apply modFunc_changes
    | exact Part.sub_trans (by decide) hp
    | exact Part.mem hp (by decide)
    | (intro _; try dsimp only)
    | split

theorem configure_changes {P : List Part} {s₀ : State} (r : ConfigReq) (s : State) (hp : Part.sub [.funcs, .irqs] P = true)  (hc : Changes P s₀ s) : Changes P s₀ (configure r s) := by
  unfold configure
  try dsimp only
  repeat' first
    | with_reducible assumption
    | with_reducible exact Changes.refl _ _
    | with_reducible apply Changes.ite
    | with_reducible apply enableVfs_changes
    | with_reducible apply modFunc_changes
    | with_reducible apply releaseEntries_changes
    | exact Part.sub_trans (by decide) hp
    | exact Part.mem hp (by decide)
    | (intro _; try dsimp only)
    | split

theorem execConfigurationRequest_changes {P : List Part} {s₀ : State} (req : ConfigReq) (s : State) (hp : Part.sub [.funcs, .irqs] P = true)  (hc : Changes P s₀ s) : ResChanges P s₀ (execConfigurationRequest req s) := by
  unfold execConfigurationRequest
  try dsimp only
  repeat' first
    | with_reducible assumption
    | with_reducible exact Changes.refl _ _
    | with_reducible apply Changes.ite
    | with_reducible apply ResChanges.next
    | with_reducible exact ResChanges.fault _
    | with_reducible exact ResChanges.refused _
    | with_reducible apply ResChanges.ite
    | with_reducible apply configure_changes
    | exact Part.sub_trans (by decide) hp
    | exact Part.mem hp (by decide)
    | (intro _; try dsimp only)
    | split

theorem execHostRegisterWrite_changes {P : List Part} {s₀ : State} (f : Func) (size : AccessSize) (addr : BitVec 28) (val : Word64) (env : WriteEnv) (s : State) (hp : Part.sub [.clock, .host, .funcs, .irqs, .power, .backup, .persist, .tack, .spine, .herdImage, .hubImage, .stallImages, .stalls, .gaits, .slices, .acqs, .voices, .seqs, .chans, .units, .nodes, .cells, .books, .flights, .nextFlight, .hub, .riders, .lines, .fasts, .groups, .queues, .qdir, .farriers, .trims, .shotAudits, .lanes, .tether, .tc, .ethPorts, .domains, .pulses, .watches, .hks, .hkCtl, .feeds, .hbm, .library, .descs, .kernels, .store, .held, .latched, .freeCtr] P = true)  (hc : Changes P s₀ s) : ResChanges P s₀ (execHostRegisterWrite f size addr val env s) := by
  unfold execHostRegisterWrite
  try dsimp only
  repeat' first
    | with_reducible assumption
    | with_reducible exact Changes.refl _ _
    | with_reducible apply Changes.ite
    | with_reducible apply ResChanges.next
    | with_reducible exact ResChanges.fault _
    | with_reducible exact ResChanges.refused _
    | with_reducible apply ResChanges.ite
    | with_reducible apply barWrite_changes
    | exact Part.sub_trans (by decide) hp
    | exact Part.mem hp (by decide)
    | (intro _; try dsimp only)
    | split

theorem execMsixTableWrite_changes {P : List Part} {s₀ : State} (f : Func) (entry : Fin 2048) (word : Fin 4) (val : Word) (s : State) (hp : Part.sub [.funcs, .irqs] P = true)  (hc : Changes P s₀ s) : ResChanges P s₀ (execMsixTableWrite f entry word val s) := by
  unfold execMsixTableWrite
  try dsimp only
  repeat' first
    | with_reducible assumption
    | with_reducible exact Changes.refl _ _
    | with_reducible apply Changes.ite
    | with_reducible apply ResChanges.next
    | with_reducible exact ResChanges.fault _
    | with_reducible exact ResChanges.refused _
    | with_reducible apply ResChanges.ite
    | with_reducible apply entryWrite_changes
    | with_reducible apply hostWrite_changes
    | exact Part.sub_trans (by decide) hp
    | exact Part.mem hp (by decide)
    | (intro _; try dsimp only)
    | split

theorem execMsixCapRelease_changes {P : List Part} {s₀ : State} (source : Nat) (s : State) (hp : Part.sub [.funcs, .irqs] P = true)  (hc : Changes P s₀ s) : ResChanges P s₀ (execMsixCapRelease source s) := by
  unfold execMsixCapRelease
  try dsimp only
  repeat' first
    | with_reducible assumption
    | with_reducible exact Changes.refl _ _
    | with_reducible apply Changes.ite
    | with_reducible apply ResChanges.next
    | with_reducible exact ResChanges.fault _
    | with_reducible exact ResChanges.refused _
    | with_reducible apply ResChanges.ite
    | with_reducible apply capRelease_changes
    | exact Part.sub_trans (by decide) hp
    | exact Part.mem hp (by decide)
    | (intro _; try dsimp only)
    | split

end Sys2Proof.Machine
end

