-- ==== Sys2Proof/Laws/ChangesImageOps.lean ====
section
/-!
SUPPORT. What each operation of Machine/ImageOps.lean may change.
-/

set_option linter.unusedTactic false
set_option linter.unreachableTactic false
set_option linter.style.longLine false
set_option linter.unusedVariables false
set_option maxRecDepth 8000

namespace Sys2Proof.Machine

open Sys2Proof

theorem candidate_changes {P : List Part} {s₀ : State} (n : StallId) (b : ImageBody) (s : State) (hp : Part.sub [.herdImage, .hubImage, .stallImages] P = true)  (hc : Changes P s₀ s) : Changes P s₀ (candidate n b s) := by
  unfold candidate
  try dsimp only
  repeat' first
    | with_reducible assumption
    | with_reducible exact Changes.refl _ _
    | with_reducible apply Changes.ite
    | with_reducible apply setHubImage_changes
    | with_reducible apply setStallImages_changes
    | (refine Changes.trans hc ⟨fun p hn => ?_⟩; cases p <;> first | rfl | (rw [Part.mem hp (by decide)] at hn; cases hn))
    | exact Part.sub_trans (by decide) hp
    | exact Part.mem hp (by decide)
    | (intro _; try dsimp only)
    | split

end Sys2Proof.Machine
end

