-- ==== Sys2Proof/Laws/ChangesReadSpine.lean ====
section
/-!
SUPPORT. What each operation of Machine/ReadSpine.lean may change.
-/

set_option linter.unusedTactic false
set_option linter.unreachableTactic false
set_option linter.style.longLine false
set_option linter.unusedVariables false
set_option maxRecDepth 8000

namespace Sys2Proof.Machine

open Sys2Proof

theorem readEffect_changes {P : List Part} {s₀ : State} (f : Func) (r : Reg) (s : State) (hp : Part.sub [.tc, .hks, .latched] P = true)  (hc : Changes P s₀ s) : Changes P s₀ (readEffect f r s) := by
  unfold readEffect
  split
  · exact latchNow_changes _ _ (Part.sub_trans (by decide) hp) hc
  · exact takeHkData_changes _ _ _ (Part.sub_trans (by decide) hp) hc
  · exact Changes.set_latched _ (Part.mem hp (by decide)) hc

end Sys2Proof.Machine
end

