-- ==== Sys2Proof/Laws/ChangesTick.lean ====
section
/-!
SUPPORT. What each operation of Machine/Tick.lean may change.
-/

set_option linter.unusedTactic false
set_option linter.unreachableTactic false
set_option linter.style.longLine false
set_option linter.unusedVariables false
set_option maxRecDepth 8000

namespace Sys2Proof.Machine

open Sys2Proof

theorem refillStream_changes {P : List Part} {s₀ : State} (v : VoiceId) (s : State) (hp : Part.sub [.seqs, .queues, .qdir] P = true)  (hc : Changes P s₀ s) : Changes P s₀ (refillStream v s) := by
  unfold refillStream
  try dsimp only
  repeat' first
    | with_reducible assumption
    | with_reducible exact Changes.refl _ _
    | with_reducible apply Changes.ite
    | with_reducible apply fillAhead_changes
    | with_reducible apply fillPlay_changes
    | exact Part.sub_trans (by decide) hp
    | exact Part.mem hp (by decide)
    | (intro _; try dsimp only)
    | split

theorem missWord_changes {P : List Part} {s₀ : State} (v : VoiceId) (s : State) (hp : Part.sub [.funcs, .seqs, .riders] P = true)  (hc : Changes P s₀ s) : Changes P s₀ (missWord v s) := by
  unfold missWord
  try dsimp only
  repeat' first
    | with_reducible assumption
    | with_reducible exact Changes.refl _ _
    | with_reducible apply Changes.ite
    | with_reducible apply beginUnderrun_changes
    | exact Part.sub_trans (by decide) hp
    | exact Part.mem hp (by decide)
    | (intro _; try dsimp only)
    | split

theorem playBeat_changes {P : List Part} {s₀ : State} (v : VoiceId) (s : State) (hp : Part.sub [.voices, .feeds] P = true)  (hc : Changes P s₀ s) : Changes P s₀ (playBeat v s) := by
  unfold playBeat
  try dsimp only
  repeat' first
    | with_reducible assumption
    | with_reducible exact Changes.refl _ _
    | with_reducible apply Changes.ite
    | with_reducible apply feedAdd_changes
    | with_reducible apply modVoice_changes
    | exact Part.sub_trans (by decide) hp
    | exact Part.mem hp (by decide)
    | (intro _; try dsimp only)
    | split

theorem tickVoice_changes {P : List Part} {s₀ : State} (v : VoiceId) (s : State) (hp : Part.sub [.funcs, .voices, .seqs, .riders, .queues, .qdir, .feeds] P = true)  (hc : Changes P s₀ s) : Changes P s₀ (tickVoice v s) := by
  unfold tickVoice
  try dsimp only
  repeat' first
    | with_reducible assumption
    | with_reducible exact Changes.refl _ _
    | with_reducible apply Changes.ite
    | with_reducible apply missWord_changes
    | with_reducible apply modSeq_changes
    | with_reducible apply playBeat_changes
    | with_reducible apply refillStream_changes
    | exact Part.sub_trans (by decide) hp
    | exact Part.mem hp (by decide)
    | (intro _; try dsimp only)
    | split

theorem tickVoices_changes {P : List Part} {s₀ : State} (s : State) (hp : Part.sub [.funcs, .voices, .seqs, .riders, .queues, .qdir, .feeds] P = true)  (hc : Changes P s₀ s) : Changes P s₀ (tickVoices s) := by
  unfold tickVoices
  try dsimp only
  repeat' first
    | with_reducible assumption
    | with_reducible exact Changes.refl _ _
    | with_reducible apply Changes.ite
    | with_reducible apply forEach_changes
    | with_reducible apply tickVoice_changes
    | exact Part.sub_trans (by decide) hp
    | exact Part.mem hp (by decide)
    | (intro _; try dsimp only)
    | split

theorem tickSlices_changes {P : List Part} {s₀ : State} (n : StallId) (s : State) (hp : Part.sub [.slices] P = true)  (hc : Changes P s₀ s) : Changes P s₀ (tickSlices n s) := by
  unfold tickSlices
  try dsimp only
  repeat' first
    | with_reducible assumption
    | with_reducible exact Changes.refl _ _
    | with_reducible apply Changes.ite
    | with_reducible apply forEach_changes
    | with_reducible apply modSlice_changes
    | exact Part.sub_trans (by decide) hp
    | exact Part.mem hp (by decide)
    | (intro _; try dsimp only)
    | split

theorem countFrames_changes {P : List Part} {s₀ : State} (s : State) (hp : Part.sub [.feeds] P = true)  (hc : Changes P s₀ s) : Changes P s₀ (countFrames s) := by
  unfold countFrames
  try dsimp only
  repeat' first
    | with_reducible assumption
    | with_reducible exact Changes.refl _ _
    | with_reducible apply Changes.ite
    | with_reducible apply feedAdd_changes
    | with_reducible apply forEach_changes
    | exact Part.sub_trans (by decide) hp
    | exact Part.mem hp (by decide)
    | (intro _; try dsimp only)
    | split

theorem tickFast_changes {P : List Part} {s₀ : State} (s : State) (hp : Part.sub [.funcs, .fasts] P = true)  (hc : Changes P s₀ s) : Changes P s₀ (tickFast s) := by
  unfold tickFast
  try dsimp only
  repeat' first
    | with_reducible assumption
    | with_reducible exact Changes.refl _ _
    | with_reducible apply Changes.ite
    | with_reducible apply countClips_changes
    | with_reducible apply forEach_changes
    | exact Part.sub_trans (by decide) hp
    | exact Part.mem hp (by decide)
    | (intro _; try dsimp only)
    | split

theorem tickUnits_changes {P : List Part} {s₀ : State} (s : State) (hp : Part.sub [.funcs, .units] P = true)  (hc : Changes P s₀ s) : Changes P s₀ (tickUnits s) := by
  unfold tickUnits
  try dsimp only
  repeat' first
    | with_reducible assumption
    | with_reducible exact Changes.refl _ _
    | with_reducible apply Changes.ite
    | with_reducible apply dueTriggers_changes
    | with_reducible apply endStore_changes
    | with_reducible apply forEach_changes
    | exact Part.sub_trans (by decide) hp
    | exact Part.mem hp (by decide)
    | (intro _; try dsimp only)
    | split

theorem tickOsc_changes {P : List Part} {s₀ : State} (s : State) (hp : Part.sub [.tc] P = true)  (hc : Changes P s₀ s) : Changes P s₀ (tickOsc s) := by
  unfold tickOsc
  try dsimp only
  repeat' first
    | with_reducible assumption
    | with_reducible exact Changes.refl _ _
    | with_reducible apply Changes.ite
    | with_reducible apply setTime_changes
    | exact Part.sub_trans (by decide) hp
    | exact Part.mem hp (by decide)
    | (intro _; try dsimp only)
    | split

theorem tickServo_changes {P : List Part} {s₀ : State} (s : State) (hp : Part.sub [.tc] P = true)  (hc : Changes P s₀ s) : Changes P s₀ (tickServo s) := by
  unfold tickServo
  try dsimp only
  repeat' first
    | with_reducible assumption
    | with_reducible exact Changes.refl _ _
    | with_reducible apply Changes.ite
    | with_reducible apply setTime_changes
    | with_reducible apply tickOsc_changes
    | exact Part.sub_trans (by decide) hp
    | exact Part.mem hp (by decide)
    | (intro _; try dsimp only)
    | split

theorem tickWatches_changes {P : List Part} {s₀ : State} (s : State) (hp : Part.sub [.watches] P = true)  (hc : Changes P s₀ s) : Changes P s₀ (tickWatches s) := by
  unfold tickWatches
  try dsimp only
  repeat' first
    | with_reducible assumption
    | with_reducible exact Changes.refl _ _
    | with_reducible apply Changes.ite
    | with_reducible apply Changes.set_watches
    | exact Part.sub_trans (by decide) hp
    | exact Part.mem hp (by decide)
    | (intro _; try dsimp only)
    | split

theorem tickTime_changes {P : List Part} {s₀ : State} (s : State) (hp : Part.sub [.clock] P = true)  (hc : Changes P s₀ s) : Changes P s₀ (tickTime s) := by
  unfold tickTime
  try dsimp only
  repeat' first
    | with_reducible assumption
    | with_reducible exact Changes.refl _ _
    | with_reducible apply Changes.ite
    | with_reducible apply Changes.set_clock
    | exact Part.sub_trans (by decide) hp
    | exact Part.mem hp (by decide)
    | (intro _; try dsimp only)
    | split

theorem tickWallClocks_changes {P : List Part} {s₀ : State} (s : State) (hp : Part.sub [.backup, .tally] P = true)  (hc : Changes P s₀ s) : Changes P s₀ (tickWallClocks s) := by
  unfold tickWallClocks
  try dsimp only
  repeat' first
    | with_reducible assumption
    | with_reducible exact Changes.refl _ _
    | with_reducible apply Changes.ite
    | with_reducible apply setBackup_changes
    | with_reducible apply setTally_changes
    | exact Part.sub_trans (by decide) hp
    | exact Part.mem hp (by decide)
    | (intro _; try dsimp only)
    | split

theorem tackWork_changes {P : List Part} {s₀ : State} (s : State) (hp : Part.sub [.tack, .freeCtr] P = true)  (hc : Changes P s₀ s) : Changes P s₀ (tackWork s) := by
  unfold tackWork
  try dsimp only
  repeat' first
    | with_reducible assumption
    | with_reducible exact Changes.refl _ _
    | with_reducible apply Changes.ite
    | with_reducible apply freshen_changes
    | with_reducible apply setTack_changes
    | exact Part.sub_trans (by decide) hp
    | exact Part.mem hp (by decide)
    | (intro _; try dsimp only)
    | split

theorem scrubWork_changes {P : List Part} {s₀ : State} (s : State) (hp : Part.sub [.qdir, .freeCtr] P = true)  (hc : Changes P s₀ s) : Changes P s₀ (scrubWork s) := by
  unfold scrubWork
  try dsimp only
  repeat' first
    | with_reducible assumption
    | with_reducible exact Changes.refl _ _
    | with_reducible apply Changes.ite
    | with_reducible apply freshen_changes
    | with_reducible apply setQdir_changes
    | exact Part.sub_trans (by decide) hp
    | exact Part.mem hp (by decide)
    | (intro _; try dsimp only)
    | split

theorem rejoinWork_changes {P : List Part} {s₀ : State} (s : State) (hp : Part.sub [.hub, .freeCtr] P = true)  (hc : Changes P s₀ s) : Changes P s₀ (rejoinWork s) := by
  unfold rejoinWork
  try dsimp only
  repeat' first
    | with_reducible assumption
    | with_reducible exact Changes.refl _ _
    | with_reducible apply Changes.ite
    | with_reducible apply freshen_changes
    | with_reducible apply setHub_changes
    | exact Part.sub_trans (by decide) hp
    | exact Part.mem hp (by decide)
    | (intro _; try dsimp only)
    | split

theorem trainWork_changes {P : List Part} {s₀ : State} (s : State) (hp : Part.sub [.tether, .freeCtr] P = true)  (hc : Changes P s₀ s) : Changes P s₀ (trainWork s) := by
  unfold trainWork
  try dsimp only
  repeat' first
    | with_reducible assumption
    | with_reducible exact Changes.refl _ _
    | with_reducible apply Changes.ite
    | with_reducible apply freshen_changes
    | with_reducible apply setTether_changes
    | exact Part.sub_trans (by decide) hp
    | exact Part.mem hp (by decide)
    | (intro _; try dsimp only)
    | split

theorem bootWork_changes {P : List Part} {s₀ : State} (s : State) (hp : Part.sub [.power, .freeCtr] P = true)  (hc : Changes P s₀ s) : Changes P s₀ (bootWork s) := by
  unfold bootWork
  try dsimp only
  repeat' first
    | with_reducible assumption
    | with_reducible exact Changes.refl _ _
    | with_reducible apply Changes.ite
    | with_reducible apply freshen_changes
    | with_reducible apply setPower_changes
    | exact Part.sub_trans (by decide) hp
    | exact Part.mem hp (by decide)
    | (intro _; try dsimp only)
    | split

theorem tickDomains_changes {P : List Part} {s₀ : State} (s : State) (hp : Part.sub [.power, .freeCtr] P = true)  (hc : Changes P s₀ s) : Changes P s₀ (tickDomains s) := by
  unfold tickDomains
  try dsimp only
  repeat' first
    | with_reducible assumption
    | with_reducible exact Changes.refl _ _
    | with_reducible apply Changes.ite
    | with_reducible apply freshen_changes
    | with_reducible apply setPower_changes
    | exact Part.sub_trans (by decide) hp
    | exact Part.mem hp (by decide)
    | (intro _; try dsimp only)
    | split

theorem tickSupplies_changes {P : List Part} {s₀ : State} (s : State) (hp : Part.sub [.power, .freeCtr] P = true)  (hc : Changes P s₀ s) : Changes P s₀ (tickSupplies s) := by
  unfold tickSupplies
  try dsimp only
  repeat' first
    | with_reducible assumption
    | with_reducible exact Changes.refl _ _
    | with_reducible apply Changes.ite
    | with_reducible apply freshen_changes
    | with_reducible apply setPower_changes
    | exact Part.sub_trans (by decide) hp
    | exact Part.mem hp (by decide)
    | (intro _; try dsimp only)
    | split

theorem tickPrbs_changes {P : List Part} {s₀ : State} (k : LaneId) (s : State) (hp : Part.sub [.lanes, .freeCtr] P = true)  (hc : Changes P s₀ s) : Changes P s₀ (tickPrbs k s) := by
  unfold tickPrbs
  try dsimp only
  repeat' first
    | with_reducible assumption
    | with_reducible exact Changes.refl _ _
    | with_reducible apply Changes.ite
    | with_reducible apply freshen_changes
    | with_reducible apply modLane_changes
    | exact Part.sub_trans (by decide) hp
    | exact Part.mem hp (by decide)
    | (intro _; try dsimp only)
    | split

theorem tick_changes {P : List Part} {s₀ : State} (s : State) (hp : Part.sub [.clock, .funcs, .power, .backup, .tack, .slices, .voices, .seqs, .units, .hub, .riders, .fasts, .queues, .qdir, .farriers, .trims, .lanes, .tether, .tc, .watches, .feeds, .tally, .freeCtr] P = true)  (hc : Changes P s₀ s) : Changes P s₀ (tick s) := by
  unfold tick
  try dsimp only
  repeat' first
    | with_reducible assumption
    | with_reducible exact Changes.refl _ _
    | with_reducible apply Changes.ite
    | with_reducible apply bootWork_changes
    | with_reducible apply countFrames_changes
    | with_reducible apply forEach_changes
    | with_reducible apply rejoinWork_changes
    | with_reducible apply scrubWork_changes
    | with_reducible apply tackWork_changes
    | with_reducible apply tetherWork_changes
    | with_reducible apply tickDomains_changes
    | with_reducible apply tickFarrier_changes
    | with_reducible apply tickFast_changes
    | with_reducible apply tickLane_changes
    | with_reducible apply tickPrbs_changes
    | with_reducible apply tickRefresh_changes
    | with_reducible apply tickServo_changes
    | with_reducible apply tickSlices_changes
    | with_reducible apply tickSupplies_changes
    | with_reducible apply tickTime_changes
    | with_reducible apply tickTrims_changes
    | with_reducible apply tickTrips_changes
    | with_reducible apply tickUnits_changes
    | with_reducible apply tickVoices_changes
    | with_reducible apply tickWallClocks_changes
    | with_reducible apply tickWatches_changes
    | with_reducible apply trainWork_changes
    | exact Part.sub_trans (by decide) hp
    | exact Part.mem hp (by decide)
    | (intro _; try dsimp only)
    | split

end Sys2Proof.Machine
end

