-- ==== Sys2Proof/Laws/Loops.lean ====
section
/-!
SUPPORT. Loops over the objects of a stall: who is in them, and what a loop leaves of each object when every turn changes one object.
-/

namespace Sys2Proof.Machine

open Sys2Proof

/-- A loop in which the turn of `k` maps what is read of `k` by `g k` and leaves what is read of every other key: each key of the list is
mapped once. `I` is what every turn keeps. -/
theorem forEach_keyed {κ β : Type} [DecidableEq κ] (get : State → κ → β) (f : κ → State → State) (g : κ → β → β) (I : State → Prop)
    (keep : ∀ k s, I s → I (f k s)) (same : ∀ k s, I s → get (f k s) k = g k (get s k))
    (other : ∀ k j s, I s → k ≠ j → get (f k s) j = get s j) (l : List κ) (hl : l.Nodup) (s : State) (hs : I s) (j : κ) :
    get (forEach l f s) j = if j ∈ l then g j (get s j) else get s j := by
  induction l generalizing s with
  | nil => rfl
  | cons k l ih =>
    obtain ⟨h1, h2⟩ := List.nodup_cons.mp hl
    show get (forEach l f (f k s)) j = _
    rw [ih h2 _ (keep k s hs)]
    by_cases e : j = k
    · subst e
      simp [h1, same j s hs]
    · simp [e, other k j s hs (fun h => e h.symm)]

/-- What every turn of a loop keeps, the loop keeps. -/
theorem forEach_keep {κ : Type} (f : κ → State → State) (I : State → Prop) (keep : ∀ k s, I s → I (f k s)) (l : List κ) (s : State) (hs : I s) :
    I (forEach l f s) := by
  induction l generalizing s with
  | nil => exact hs
  | cons k l ih => exact ih _ (keep k s hs)

theorem mem_stallRiders (n : StallId) (r : RiderId) : r ∈ stallRiders n ↔ r.stall = n := by
  obtain ⟨m, i⟩ := r
  simp [stallRiders, eq_comm]

theorem nodup_stallRiders (n : StallId) : (stallRiders n).Nodup :=
  (List.nodup_finRange 16).map fun _ _ h => by cases h; rfl

theorem mem_stallChans (n : StallId) (r : ChanId) : r ∈ stallChans n ↔ r.stall = n := by
  obtain ⟨m, i⟩ := r
  simp [stallChans, eq_comm]

theorem nodup_stallChans (n : StallId) : (stallChans n).Nodup :=
  (List.nodup_finRange 64).map fun _ _ h => by cases h; rfl

theorem mem_stallLines (n : StallId) (r : LineId) : r ∈ stallLines n ↔ r.stall = n := by
  obtain ⟨m, i⟩ := r
  simp [stallLines, eq_comm]

theorem nodup_stallLines (n : StallId) : (stallLines n).Nodup :=
  (List.nodup_finRange 64).map fun _ _ h => by cases h; rfl

theorem mem_stallVoices (n : StallId) (v : VoiceId) : v ∈ stallVoices n ↔ v.stall = n := by
  obtain ⟨m, p, i⟩ := v
  cases p <;> simp [stallVoices, eq_comm]

theorem nodup_stallVoices (n : StallId) : (stallVoices n).Nodup := by
  refine List.Nodup.append ((List.nodup_finRange 64).map fun _ _ h => by cases h; rfl)
    ((List.nodup_finRange 64).map fun _ _ h => by cases h; rfl) ?_
  intro v h1 h2
  simp only [List.mem_map] at h1 h2
  obtain ⟨_, _, rfl⟩ := h1
  obtain ⟨_, _, h⟩ := h2
  cases h

end Sys2Proof.Machine
end

