-- ==== Sys2Proof/Laws/Near.lean ====
section
/-!
SUPPORT. No CTL block of a stall changes but the one that an operation names: `Near n s t`.
-/

set_option linter.unusedTactic false
set_option linter.unreachableTactic false
set_option linter.unusedVariables false
set_option maxRecDepth 4000

namespace Sys2Proof.Machine

open Sys2Proof

/-- No CTL block changes but that of stall `n`. -/
structure Near (n : StallId) (s t : State) : Prop where
  other : ∀ m, m ≠ n → getStall t m = getStall s m

theorem Near.refl (n : StallId) (s : State) : Near n s s := ⟨fun _ _ => rfl⟩

theorem Near.trans {n : StallId} {s t u : State} (h : Near n s t) (k : Near n t u) : Near n s u :=
  ⟨fun m hm => (k.other m hm).trans (h.other m hm)⟩

theorem Near.ite {n : StallId} {s a b : State} {c : Prop} [Decidable c] (ha : c → Near n s a) (hb : ¬c → Near n s b) :
    Near n s (if c then a else b) := by
  split
  · exact ha ‹_›
  · exact hb ‹_›

/-- The CTL blocks are the same where the table of them is. -/
theorem getStall_of_stalls {s t : State} (h : t.stalls = s.stalls) (n : StallId) : getStall t n = getStall s n := by
  simp [getStall, h]

/-- What changes no CTL block, read at any stall. -/
theorem Changes.getStall {P : List Part} {s t : State} (h : Changes P s t) (n : StallId) (hp : P.contains .stalls = false := by decide) :
    getStall t n = getStall s n := getStall_of_stalls (h.stalls hp) n

theorem near_of {n : StallId} {P : List Part} {s₀ s t : State} (hc : Near n s₀ s) (h : Changes P s t) (hp : P.contains .stalls = false) :
    Near n s₀ t := ⟨fun m hm => (h.getStall m hp).trans (hc.other m hm)⟩

theorem near_forEach {n : StallId} {s₀ : State} {α : Type} (l : List α) (f : α → State → State) (s : State)
    (hf : ∀ a s, Near n s₀ s → Near n s₀ (f a s)) (hc : Near n s₀ s) : Near n s₀ (forEach l f s) :=
  forEach_keep f (Near n s₀) hf l s hc

theorem near_riders {n : StallId} {s₀ : State} (f : RiderId → State → State) (m : StallId)
    (hf : ∀ r s, Near r.stall s₀ s → Near r.stall s₀ (f r s)) (s : State) (hc : Near m s₀ s) : Near m s₀ (forEach (stallRiders m) f s) := by
  have : ∀ (l : List RiderId), (∀ r ∈ l, r.stall = m) → ∀ s, Near m s₀ s → Near m s₀ (forEach l f s) := by
    intro l
    induction l with
    | nil => exact fun _ _ h => h
    | cons r l ih =>
      intro hl s hs
      have hr : r.stall = m := hl r List.mem_cons_self
      exact ih (fun x hx => hl x (List.mem_cons_of_mem _ hx)) _ (hr ▸ hf r s (hr.symm ▸ hs))
  exact this _ (fun r hr => (mem_stallRiders m r).mp hr) s hc

theorem near_modFarrier {m : StallId} {s₀ : State} (n : StallId) (f : Farrier → Farrier) (s : State) (hc : Near m s₀ s) : Near m s₀ (modFarrier n f s) :=
  near_of hc (modFarrier_changes (P := [.farriers]) n f s (Part.sub_refl _) (Changes.refl _ _)) (by decide)

theorem near_raise {m : StallId} {s₀ : State} (src : Nat) (s : State) (hc : Near m s₀ s) : Near m s₀ (raise src s) :=
  near_of hc (raise_changes (P := [.funcs, .irqs]) src s (Part.sub_refl _) (Changes.refl _ _)) (by decide)

theorem near_record {m : StallId} {s₀ : State} (code : Code) (stall : Nat) (owner : Owner) (object : Word) (aux : Word) (s : State) (hc : Near m s₀ s) : Near m s₀ (record code stall owner object aux s) :=
  near_of hc (record_changes (P := [.funcs]) code stall owner object aux s (Part.sub_refl _) (Changes.refl _ _)) (by decide)

theorem near_feedShot {m : StallId} {s₀ : State} (n : StallId) (o : Owner) (aborted : Bool) (s : State) (hc : Near m s₀ s) : Near m s₀ (feedShot n o aborted s) :=
  near_of hc (feedShot_changes (P := [.feeds]) n o aborted s (Part.sub_refl _) (Changes.refl _ _)) (by decide)

theorem near_modRider {m : StallId} {s₀ : State} (r : RiderId) (f : Rider → Rider) (s : State) (hc : Near m s₀ s) : Near m s₀ (modRider r f s) :=
  near_of hc (modRider_changes (P := [.riders]) r f s (Part.sub_refl _) (Changes.refl _ _)) (by decide)

theorem near_writeShot {m : StallId} {s₀ : State} (r : RiderId) (aborted : Bool) (end_ : Word64) (s : State) (hc : Near m s₀ s) : Near m s₀ (writeShot r aborted end_ s) :=
  near_of hc (writeShot_changes (P := [.funcs, .riders, .queues]) r aborted end_ s (Part.sub_refl _) (Changes.refl _ _)) (by decide)

theorem near_discardOpens {m : StallId} {s₀ : State} (n : StallId) (of : Nat → Bool) (s : State) (hc : Near m s₀ s) : Near m s₀ (discardOpens n of s) :=
  near_of hc (discardOpens_changes (P := [.chans]) n of s (Part.sub_refl _) (Changes.refl _ _)) (by decide)

theorem near_dropSpent {m : StallId} {s₀ : State} (r : RiderId) (v : VoiceId) (s : State) (hc : Near m s₀ s) : Near m s₀ (dropSpent r v s) :=
  near_of hc (dropSpent_changes (P := [.seqs]) r v s (Part.sub_refl _) (Changes.refl _ _)) (by decide)

theorem near_goIdle {m : StallId} {s₀ : State} (v : VoiceId) (s : State) (hc : Near m s₀ s) : Near m s₀ (goIdle v s) :=
  near_of hc (goIdle_changes (P := [.seqs]) v s (Part.sub_refl _) (Changes.refl _ _)) (by decide)

theorem near_modSeq {m : StallId} {s₀ : State} (v : VoiceId) (f : Seq → Seq) (s : State) (hc : Near m s₀ s) : Near m s₀ (modSeq v f s) :=
  near_of hc (modSeq_changes (P := [.seqs]) v f s (Part.sub_refl _) (Changes.refl _ _)) (by decide)

theorem near_recordRider {m : StallId} {s₀ : State} (code : Code) (r : RiderId) (s : State) (hc : Near m s₀ s) : Near m s₀ (recordRider code r s) :=
  near_of hc (recordRider_changes (P := [.funcs]) code r s (Part.sub_refl _) (Changes.refl _ _)) (by decide)

theorem near_lifeToken {m : StallId} {s₀ : State} (n : StallId) (l : Life) (s : State) (hc : Near m s₀ s) : Near m s₀ (lifeToken n l s) :=
  near_of hc (lifeToken_changes (P := [.funcs, .nodes, .books, .flights, .nextFlight, .hub]) n l s (Part.sub_refl _) (Changes.refl _ _)) (by decide)

theorem near_closePorts {m : StallId} {s₀ : State} (n : StallId) (s : State) (hc : Near m s₀ s) : Near m s₀ (closePorts n s) :=
  near_of hc (closePorts_changes (P := [.slices]) n s (Part.sub_refl _) (Changes.refl _ _)) (by decide)

theorem near_cutWindows {m : StallId} {s₀ : State} (n : StallId) (s : State) (hc : Near m s₀ s) : Near m s₀ (cutWindows n s) :=
  near_of hc (cutWindows_changes (P := [.funcs, .chans, .nodes, .books, .flights, .nextFlight, .hub, .riders, .queues, .farriers, .feeds, .freeCtr]) n s (Part.sub_refl _) (Changes.refl _ _)) (by decide)

theorem near_fastStop {m : StallId} {s₀ : State} (n : StallId) (s : State) (hc : Near m s₀ s) : Near m s₀ (fastStop n s) :=
  near_of hc (fastStop_changes (P := [.funcs, .fasts]) n s (Part.sub_refl _) (Changes.refl _ _)) (by decide)

theorem near_idleVoices {m : StallId} {s₀ : State} (n : StallId) (s : State) (hc : Near m s₀ s) : Near m s₀ (idleVoices n s) :=
  near_of hc (idleVoices_changes (P := [.voices, .seqs, .riders]) n s (Part.sub_refl _) (Changes.refl _ _)) (by decide)

theorem near_absentPorts {m : StallId} {s₀ : State} (n : StallId) (s : State) (hc : Near m s₀ s) : Near m s₀ (absentPorts n s) :=
  near_of hc (absentPorts_changes (P := [.queues]) n s (Part.sub_refl _) (Changes.refl _ _)) (by decide)

theorem near_clearRecord {m : StallId} {s₀ : State} (n : StallId) (s : State) (hc : Near m s₀ s) : Near m s₀ (clearRecord n s) :=
  near_of hc (clearRecord_changes (P := [.hbm]) n s (Part.sub_refl _) (Changes.refl _ _)) (by decide)

theorem near_endCaptures {m : StallId} {s₀ : State} (n : StallId) (s : State) (hc : Near m s₀ s) : Near m s₀ (endCaptures n s) :=
  near_of hc (endCaptures_changes (P := [.funcs, .units, .qdir, .hbm]) n s (Part.sub_refl _) (Changes.refl _ _)) (by decide)

theorem near_endQueues {m : StallId} {s₀ : State} (n : StallId) (s : State) (hc : Near m s₀ s) : Near m s₀ (endQueues n s) :=
  near_of hc (endQueues_changes (P := [.queues, .qdir]) n s (Part.sub_refl _) (Changes.refl _ _)) (by decide)

theorem near_linesSafe {m : StallId} {s₀ : State} (n : StallId) (s : State) (hc : Near m s₀ s) : Near m s₀ (linesSafe n s) :=
  near_of hc (linesSafe_changes (P := [.lines]) n s (Part.sub_refl _) (Changes.refl _ _)) (by decide)

theorem near_modTrims {m : StallId} {s₀ : State} (n : StallId) (f : Trims → Trims) (s : State) (hc : Near m s₀ s) : Near m s₀ (modTrims n f s) :=
  near_of hc (modTrims_changes (P := [.trims]) n f s (Part.sub_refl _) (Changes.refl _ _)) (by decide)

theorem near_plainWatch {m : StallId} {s₀ : State} (n : StallId) (s : State) (hc : Near m s₀ s) : Near m s₀ (plainWatch n s) :=
  near_of hc (plainWatch_changes (P := [.watches]) n s (Part.sub_refl _) (Changes.refl _ _)) (by decide)

theorem near_setStallImages {m : StallId} {s₀ : State} (f : Tab StallImage → Tab StallImage) (s : State) (hc : Near m s₀ s) : Near m s₀ (setStallImages f s) :=
  near_of hc (setStallImages_changes (P := [.stallImages]) f s (Part.sub_refl _) (Changes.refl _ _)) (by decide)

theorem near_dropNode {m : StallId} {s₀ : State} (n : StallId) (s : State) (hc : Near m s₀ s) : Near m s₀ (dropNode n s) :=
  near_of hc (dropNode_changes (P := [.nodes, .books, .flights]) n s (Part.sub_refl _) (Changes.refl _ _)) (by decide)

theorem near_fastDown {m : StallId} {s₀ : State} (n : StallId) (s : State) (hc : Near m s₀ s) : Near m s₀ (fastDown n s) :=
  near_of hc (fastDown_changes (P := [.funcs, .fasts]) n s (Part.sub_refl _) (Changes.refl _ _)) (by decide)

theorem near_forgetStall {m : StallId} {s₀ : State} (n : StallId) (s : State) (hc : Near m s₀ s) : Near m s₀ (forgetStall n s) :=
  near_of hc (forgetStall_changes (P := [.slices, .acqs, .voices, .seqs, .chans, .units, .nodes, .cells, .riders, .lines, .fasts, .groups, .farriers, .trims, .watches, .library, .descs, .kernels, .store, .held, .latched]) n s (Part.sub_refl _) (Changes.refl _ _)) (by decide)

theorem near_modGait {m : StallId} {s₀ : State} (n : StallId) (f : Gait → Gait) (s : State) (hc : Near m s₀ s) : Near m s₀ (modGait n f s) :=
  near_of hc (modGait_changes (P := [.gaits]) n f s (Part.sub_refl _) (Changes.refl _ _)) (by decide)

theorem near_setTack {m : StallId} {s₀ : State} (f : Tack → Tack) (s : State) (hc : Near m s₀ s) : Near m s₀ (setTack f s) :=
  near_of hc (setTack_changes (P := [.tack]) f s (Part.sub_refl _) (Changes.refl _ _)) (by decide)

theorem near_stallDomains {m : StallId} {s₀ : State} (n : StallId) (on : Bool) (s : State) (hc : Near m s₀ s) : Near m s₀ (stallDomains n on s) :=
  near_of hc (stallDomains_changes (P := [.power]) n on s (Part.sub_refl _) (Changes.refl _ _)) (by decide)

theorem near_clearFaults {m : StallId} {s₀ : State} (n : StallId) (s : State) (hc : Near m s₀ s) : Near m s₀ (clearFaults n s) :=
  near_of hc (clearFaults_changes (P := [.slices, .acqs, .nodes]) n s (Part.sub_refl _) (Changes.refl _ _)) (by decide)

theorem near_openPort {m : StallId} {s₀ : State} (i : SliceId) (s : State) (hc : Near m s₀ s) : Near m s₀ (openPort i s) :=
  near_of hc (openPort_changes (P := [.slices]) i s (Part.sub_refl _) (Changes.refl _ _)) (by decide)

theorem near_modStud {m : StallId} {s₀ : State} (n : StallId) (f : Stud → Stud) (s : State) (hc : Near m s₀ s) : Near m s₀ (modStud n f s) :=
  near_of hc (modStud_changes (P := [.persist]) n f s (Part.sub_refl _) (Changes.refl _ _)) (by decide)

theorem near_modWatch {m : StallId} {s₀ : State} (c : CmpId) (f : Watch → Watch) (s : State) (hc : Near m s₀ s) : Near m s₀ (modWatch c f s) :=
  near_of hc (modWatch_changes (P := [.watches]) c f s (Part.sub_refl _) (Changes.refl _ _)) (by decide)

theorem near_persistErrors {m : StallId} {s₀ : State} (corrected : Nat) (doubles : Nat) (s : State) (hc : Near m s₀ s) : Near m s₀ (persistErrors corrected doubles s) :=
  near_of hc (persistErrors_changes (P := [.funcs, .persist]) corrected doubles s (Part.sub_refl _) (Changes.refl _ _)) (by decide)

theorem near_faultBit {m : StallId} {s₀ : State} (i : SliceId) (s : State) (hc : Near m s₀ s) : Near m s₀ (faultBit i s) :=
  near_of hc (faultBit_changes (P := [.slices, .acqs]) i s (Part.sub_refl _) (Changes.refl _ _)) (by decide)

theorem near_markSliceShots {m : StallId} {s₀ : State} (i : SliceId) (s : State) (hc : Near m s₀ s) : Near m s₀ (markSliceShots i s) :=
  near_of hc (markSliceShots_changes (P := [.chans, .units, .riders]) i s (Part.sub_refl _) (Changes.refl _ _)) (by decide)

theorem near_noSpare {m : StallId} {s₀ : State} (i : SliceId) (s : State) (hc : Near m s₀ s) : Near m s₀ (noSpare i s) :=
  near_of hc (noSpare_changes (P := [.funcs, .units, .hbm]) i s (Part.sub_refl _) (Changes.refl _ _)) (by decide)

theorem near_setSliceFault {m : StallId} {s₀ : State} (i : SliceId) (s : State) (hc : Near m s₀ s) : Near m s₀ (setSliceFault i s) :=
  near_of hc (setSliceFault_changes (P := [.slices, .acqs]) i s (Part.sub_refl _) (Changes.refl _ _)) (by decide)

theorem near_restage {m : StallId} {s₀ : State} (i : SliceId) (s : State) (hc : Near m s₀ s) : Near m s₀ (restage i s) :=
  near_of hc (restage_changes (P := [.voices]) i s (Part.sub_refl _) (Changes.refl _ _)) (by decide)

theorem near_flushQueue {m : StallId} {s₀ : State} (q : QueueId) (s : State) (hc : Near m s₀ s) : Near m s₀ (flushQueue q s) :=
  near_of hc (flushQueue_changes (P := [.queues, .qdir]) q s (Part.sub_refl _) (Changes.refl _ _)) (by decide)

theorem near_modStall {s₀ : State} (n : StallId) (f : StallCtl → StallCtl) (s : State) (hc : Near n s₀ s) : Near n s₀ (modStall n f s) :=
  ⟨fun m hm => (getStall_modStall_ne n f m s (fun h => hm (Fin.ext h.symm))).trans (hc.other m hm)⟩

theorem near_modSpare {s₀ : State} (n : StallId) (k : SliceKind) (f : Spare → Spare) (s : State) (hc : Near n s₀ s) : Near n s₀ (modSpare n k f s) := by
  unfold modSpare
  try dsimp only
  repeat' first
    | with_reducible assumption
    | with_reducible exact Near.refl _ _
    | with_reducible apply Near.ite
    | with_reducible apply near_modStall
    | (intro _; try dsimp only)
    | split

theorem near_freeA4 {s₀ : State} (n : StallId) (s : State) (hc : Near n s₀ s) : Near n s₀ (freeA4 n s) := by
  unfold freeA4
  try dsimp only
  repeat' first
    | with_reducible assumption
    | with_reducible exact Near.refl _ _
    | with_reducible apply Near.ite
    | with_reducible apply near_modStall
    | (intro _; try dsimp only)
    | split

theorem near_wakeSpareReq {s₀ : State} (n : StallId) (s : State) (hc : Near n s₀ s) : Near n s₀ (wakeSpareReq n s) := by
  unfold wakeSpareReq
  try dsimp only
  repeat' first
    | with_reducible assumption
    | with_reducible exact Near.refl _ _
    | with_reducible apply Near.ite
    | with_reducible apply near_modStall
    | (intro _; try dsimp only)
    | split

theorem near_stopCal {s₀ : State} (n : StallId) (op : OpStatus) (s : State) (hc : Near n s₀ s) : Near n s₀ (stopCal n op s) := by
  unfold stopCal
  try dsimp only
  repeat' first
    | with_reducible assumption
    | with_reducible exact Near.refl _ _
    | with_reducible apply Near.ite
    | with_reducible apply near_modFarrier
    | with_reducible apply near_raise
    | with_reducible apply near_wakeSpareReq
    | (intro _; try dsimp only)
    | split

theorem near_endCal {s₀ : State} (n : StallId) (st : OpState) (code : Code) (s : State) (hc : Near n s₀ s) : Near n s₀ (endCal n st code s) := by
  unfold endCal
  try dsimp only
  repeat' first
    | with_reducible assumption
    | with_reducible exact Near.refl _ _
    | with_reducible apply Near.ite
    | with_reducible apply near_modFarrier
    | with_reducible apply near_record
    | with_reducible apply near_stopCal
    | (intro _; try dsimp only)
    | split

theorem near_countDrain {s₀ : State} (n : StallId) (aborted : Bool) (s : State) (hc : Near n s₀ s) : Near n s₀ (countDrain n aborted s) := by
  unfold countDrain
  try dsimp only
  repeat' first
    | with_reducible assumption
    | with_reducible exact Near.refl _ _
    | with_reducible apply Near.ite
    | with_reducible apply near_modStall
    | (intro _; try dsimp only)
    | split

theorem near_endShot {s₀ : State} (r : RiderId) (aborted : Bool) (end_ : Word64) (s : State) (hc : Near (r.stall) s₀ s) : Near (r.stall) s₀ (endShot r aborted end_ s) := by
  unfold endShot
  try dsimp only
  repeat' first
    | with_reducible assumption
    | with_reducible exact Near.refl _ _
    | with_reducible apply Near.ite
    | with_reducible apply near_countDrain
    | with_reducible apply near_feedShot
    | with_reducible apply near_modRider
    | with_reducible apply near_writeShot
    | (intro _; try dsimp only)
    | split

theorem near_stopRider {s₀ : State} (r : RiderId) (k : StopKind) (s : State) (hc : Near (r.stall) s₀ s) : Near (r.stall) s₀ (stopRider r k s) := by
  unfold stopRider
  try dsimp only
  repeat' first
    | with_reducible assumption
    | with_reducible exact Near.refl _ _
    | with_reducible apply Near.ite
    | with_reducible apply near_discardOpens
    | with_reducible apply near_dropSpent
    | with_reducible apply near_endShot
    | with_reducible apply near_goIdle
    | with_reducible apply near_modRider
    | with_reducible apply near_modSeq
    | with_reducible apply near_forEach
    | (intro _; try dsimp only)
    | split

theorem near_fatalFault {s₀ : State} (r : RiderId) (code : Code) (s : State) (hc : Near (r.stall) s₀ s) : Near (r.stall) s₀ (fatalFault r code s) := by
  unfold fatalFault
  try dsimp only
  repeat' first
    | with_reducible assumption
    | with_reducible exact Near.refl _ _
    | with_reducible apply Near.ite
    | with_reducible apply near_modRider
    | with_reducible apply near_raise
    | with_reducible apply near_recordRider
    | with_reducible apply near_stopRider
    | (intro _; try dsimp only)
    | split

theorem near_askStop {s₀ : State} (r : RiderId) (k : StopKind) (s : State) (hc : Near (r.stall) s₀ s) : Near (r.stall) s₀ (askStop r k s) := by
  unfold askStop
  try dsimp only
  repeat' first
    | with_reducible assumption
    | with_reducible exact Near.refl _ _
    | with_reducible apply Near.ite
    | with_reducible apply near_modRider
    | with_reducible apply near_stopRider
    | (intro _; try dsimp only)
    | split

theorem near_requestTakeover {s₀ : State} (f : Func) (n : StallId) (k : SliceKind) (target : BitVec 4) (s : State) (hc : Near n s₀ s) : Near n s₀ (requestTakeover f n k target s) := by
  unfold requestTakeover
  try dsimp only
  repeat' first
    | with_reducible assumption
    | with_reducible exact Near.refl _ _
    | with_reducible apply Near.ite
    | with_reducible apply near_modSpare
    | with_reducible apply near_modStall
    | (intro _; try dsimp only)
    | split

theorem near_endSpareOp {s₀ : State} (n : StallId) (op : OpStatus) (s : State) (hc : Near n s₀ s) : Near n s₀ (endSpareOp n op s) := by
  unfold endSpareOp
  try dsimp only
  repeat' first
    | with_reducible assumption
    | with_reducible exact Near.refl _ _
    | with_reducible apply Near.ite
    | with_reducible apply near_modStall
    | with_reducible apply near_raise
    | (intro _; try dsimp only)
    | split

theorem near_requestRelease {s₀ : State} (f : Func) (n : StallId) (k : SliceKind) (s : State) (hc : Near n s₀ s) : Near n s₀ (requestRelease f n k s) := by
  unfold requestRelease
  try dsimp only
  repeat' first
    | with_reducible assumption
    | with_reducible exact Near.refl _ _
    | with_reducible apply Near.ite
    | with_reducible apply near_endSpareOp
    | with_reducible apply near_modSpare
    | with_reducible apply near_modStall
    | (intro _; try dsimp only)
    | split

theorem near_setLife {s₀ : State} (n : StallId) (l : Life) (s : State) (hc : Near n s₀ s) : Near n s₀ (setLife n l s) := by
  unfold setLife
  try dsimp only
  repeat' first
    | with_reducible assumption
    | with_reducible exact Near.refl _ _
    | with_reducible apply Near.ite
    | with_reducible apply near_lifeToken
    | with_reducible apply near_modStall
    | with_reducible apply near_raise
    | (intro _; try dsimp only)
    | split

theorem near_enterResting {s₀ : State} (n : StallId) (s : State) (hc : Near n s₀ s) : Near n s₀ (enterResting n s) := by
  unfold enterResting
  try dsimp only
  repeat' first
    | with_reducible assumption
    | with_reducible exact Near.refl _ _
    | with_reducible apply Near.ite
    | with_reducible apply near_modStall
    | with_reducible apply near_setLife
    | (intro _; try dsimp only)
    | split

theorem near_haltStall {s₀ : State} (n : StallId) (s : State) (hc : Near n s₀ s) : Near n s₀ (haltStall n s) := by
  unfold haltStall
  try dsimp only
  repeat' first
    | with_reducible assumption
    | with_reducible exact Near.refl _ _
    | with_reducible apply Near.ite
    | with_reducible apply near_riders
    | with_reducible apply near_askStop
    | with_reducible apply near_closePorts
    | with_reducible apply near_cutWindows
    | with_reducible apply near_enterResting
    | with_reducible apply near_fastStop
    | with_reducible apply near_idleVoices
    | with_reducible apply near_modStall
    | with_reducible apply near_forEach
    | (intro _; try dsimp only)
    | split

theorem near_haltCommand {s₀ : State} (n : StallId) (s : State) (hc : Near n s₀ s) : Near n s₀ (haltCommand n s) := by
  unfold haltCommand
  try dsimp only
  repeat' first
    | with_reducible assumption
    | with_reducible exact Near.refl _ _
    | with_reducible apply Near.ite
    | with_reducible apply near_haltStall
    | with_reducible apply near_modStall
    | (intro _; try dsimp only)
    | split

theorem near_abortCal {s₀ : State} (n : StallId) (which : Calib → Bool) (s : State) (hc : Near n s₀ s) : Near n s₀ (abortCal n which s) := by
  unfold abortCal
  try dsimp only
  repeat' first
    | with_reducible assumption
    | with_reducible exact Near.refl _ _
    | with_reducible apply Near.ite
    | with_reducible apply near_endCal
    | (intro _; try dsimp only)
    | split

theorem near_leaveCal {s₀ : State} (n : StallId) (s : State) (hc : Near n s₀ s) : Near n s₀ (leaveCal n s) := by
  unfold leaveCal
  try dsimp only
  repeat' first
    | with_reducible assumption
    | with_reducible exact Near.refl _ _
    | with_reducible apply Near.ite
    | with_reducible apply near_abortCal
    | with_reducible apply near_freeA4
    | with_reducible apply near_modFarrier
    | (intro _; try dsimp only)
    | split

theorem near_discardImage {s₀ : State} (n : StallId) (s : State) (hc : Near n s₀ s) : Near n s₀ (discardImage n s) := by
  unfold discardImage
  try dsimp only
  repeat' first
    | with_reducible assumption
    | with_reducible exact Near.refl _ _
    | with_reducible apply Near.ite
    | with_reducible apply near_absentPorts
    | with_reducible apply near_clearRecord
    | with_reducible apply near_endCaptures
    | with_reducible apply near_endQueues
    | with_reducible apply near_idleVoices
    | with_reducible apply near_leaveCal
    | with_reducible apply near_linesSafe
    | with_reducible apply near_modStall
    | with_reducible apply near_modTrims
    | with_reducible apply near_plainWatch
    | with_reducible apply near_setStallImages
    | (intro _; try dsimp only)
    | split

theorem near_stallOff {s₀ : State} (n : StallId) (s : State) (hc : Near n s₀ s) : Near n s₀ (stallOff n s) := by
  unfold stallOff
  try dsimp only
  repeat' first
    | with_reducible assumption
    | with_reducible exact Near.refl _ _
    | with_reducible apply Near.ite
    | with_reducible apply near_closePorts
    | with_reducible apply near_discardImage
    | with_reducible apply near_dropNode
    | with_reducible apply near_fastDown
    | with_reducible apply near_forgetStall
    | with_reducible apply near_modGait
    | with_reducible apply near_modStall
    | with_reducible apply near_setLife
    | with_reducible apply near_setTack
    | with_reducible apply near_stallDomains
    | (intro _; try dsimp only)
    | split

theorem near_endStallOp {s₀ : State} (n : StallId) (op : OpStatus) (s : State) (hc : Near n s₀ s) : Near n s₀ (endStallOp n op s) := by
  unfold endStallOp
  try dsimp only
  repeat' first
    | with_reducible assumption
    | with_reducible exact Near.refl _ _
    | with_reducible apply Near.ite
    | with_reducible apply near_modStall
    | with_reducible apply near_raise
    | (intro _; try dsimp only)
    | split

theorem near_toStabled {s₀ : State} (n : StallId) (s : State) (hc : Near n s₀ s) : Near n s₀ (toStabled n s) := by
  unfold toStabled
  try dsimp only
  repeat' first
    | with_reducible assumption
    | with_reducible exact Near.refl _ _
    | with_reducible apply Near.ite
    | with_reducible apply near_clearFaults
    | with_reducible apply near_setLife
    | (intro _; try dsimp only)
    | split

theorem near_unloadStall {s₀ : State} (n : StallId) (s : State) (hc : Near n s₀ s) : Near n s₀ (unloadStall n s) := by
  unfold unloadStall
  try dsimp only
  repeat' first
    | with_reducible assumption
    | with_reducible exact Near.refl _ _
    | with_reducible apply Near.ite
    | with_reducible apply near_discardImage
    | with_reducible apply near_endStallOp
    | with_reducible apply near_toStabled
    | (intro _; try dsimp only)
    | split

theorem near_drainRider {s₀ : State} (r : RiderId) (s : State) (hc : Near (r.stall) s₀ s) : Near (r.stall) s₀ (drainRider r s) := by
  unfold drainRider
  try dsimp only
  repeat' first
    | with_reducible assumption
    | with_reducible exact Near.refl _ _
    | with_reducible apply Near.ite
    | with_reducible apply near_modRider
    | with_reducible apply near_stopRider
    | (intro _; try dsimp only)
    | split

theorem near_drainStall {s₀ : State} (n : StallId) (s : State) (hc : Near n s₀ s) : Near n s₀ (drainStall n s) := by
  unfold drainStall
  try dsimp only
  repeat' first
    | with_reducible assumption
    | with_reducible exact Near.refl _ _
    | with_reducible apply Near.ite
    | with_reducible apply near_riders
    | with_reducible apply near_drainRider
    | with_reducible apply near_enterResting
    | with_reducible apply near_modStall
    | with_reducible apply near_forEach
    | (intro _; try dsimp only)
    | split

theorem near_startStall {s₀ : State} (n : StallId) (s : State) (hc : Near n s₀ s) : Near n s₀ (startStall n s) := by
  unfold startStall
  try dsimp only
  repeat' first
    | with_reducible assumption
    | with_reducible exact Near.refl _ _
    | with_reducible apply Near.ite
    | with_reducible apply near_endStallOp
    | with_reducible apply near_modRider
    | with_reducible apply near_modStall
    | with_reducible apply near_openPort
    | with_reducible apply near_setLife
    | with_reducible apply near_forEach
    | (intro _; try dsimp only)
    | split

theorem near_loadStud {s₀ : State} (n : StallId) (okA : Bool) (okB : Bool) (s : State) (hc : Near n s₀ s) : Near n s₀ (loadStud n okA okB s) := by
  unfold loadStud
  try dsimp only
  repeat' first
    | with_reducible assumption
    | with_reducible exact Near.refl _ _
    | with_reducible apply Near.ite
    | with_reducible apply near_modStall
    | with_reducible apply near_modStud
    | with_reducible apply near_modTrims
    | with_reducible apply near_record
    | (intro _; try dsimp only)
    | split

theorem near_startPowerUp {s₀ : State} (n : StallId) (found : PowerUpFound) (s : State) (hc : Near n s₀ s) : Near n s₀ (startPowerUp n found s) := by
  unfold startPowerUp
  try dsimp only
  repeat' first
    | with_reducible assumption
    | with_reducible exact Near.refl _ _
    | with_reducible apply Near.ite
    | with_reducible apply near_endStallOp
    | with_reducible apply near_loadStud
    | with_reducible apply near_modStall
    | with_reducible apply near_modWatch
    | with_reducible apply near_persistErrors
    | with_reducible apply near_record
    | with_reducible apply near_stallDomains
    | with_reducible apply near_stallOff
    | with_reducible apply near_forEach
    | (intro _; try dsimp only)
    | split

theorem near_faultHaltStall {s₀ : State} (n : StallId) (s : State) (hc : Near n s₀ s) : Near n s₀ (faultHaltStall n s) := by
  unfold faultHaltStall
  try dsimp only
  repeat' first
    | with_reducible assumption
    | with_reducible exact Near.refl _ _
    | with_reducible apply Near.ite
    | with_reducible apply near_haltStall
    | with_reducible apply near_modStall
    | (intro _; try dsimp only)
    | split

theorem near_fatalStall {s₀ : State} (n : StallId) (s : State) (hc : Near n s₀ s) : Near n s₀ (fatalStall n s) := by
  unfold fatalStall
  try dsimp only
  repeat' first
    | with_reducible assumption
    | with_reducible exact Near.refl _ _
    | with_reducible apply Near.ite
    | with_reducible apply near_faultHaltStall
    | with_reducible apply near_modStall
    | with_reducible apply near_raise
    | with_reducible apply near_record
    | (intro _; try dsimp only)
    | split

theorem near_dropSpareReq {s₀ : State} (n : StallId) (k : SliceKind) (s : State) (hc : Near n s₀ s) : Near n s₀ (dropSpareReq n k s) := by
  unfold dropSpareReq
  try dsimp only
  repeat' first
    | with_reducible assumption
    | with_reducible exact Near.refl _ _
    | with_reducible apply Near.ite
    | with_reducible apply near_modStall
    | with_reducible apply near_record
    | (intro _; try dsimp only)
    | split

theorem near_loseA4 {s₀ : State} (n : StallId) (s : State) (hc : Near n s₀ s) : Near n s₀ (loseA4 n s) := by
  unfold loseA4
  try dsimp only
  repeat' first
    | with_reducible assumption
    | with_reducible exact Near.refl _ _
    | with_reducible apply Near.ite
    | with_reducible apply near_endCal
    | (intro _; try dsimp only)
    | split

theorem near_beginForced {s₀ : State} (i : SliceId) (s : State) (hc : Near (i.stall) s₀ s) : Near (i.stall) s₀ (beginForced i s) := by
  unfold beginForced
  try dsimp only
  repeat' first
    | with_reducible assumption
    | with_reducible exact Near.refl _ _
    | with_reducible apply Near.ite
    | with_reducible apply near_dropSpareReq
    | with_reducible apply near_loseA4
    | with_reducible apply near_modFarrier
    | with_reducible apply near_modSpare
    | (intro _; try dsimp only)
    | split

theorem near_spareFails {s₀ : State} (n : StallId) (k : SliceKind) (s : State) (hc : Near n s₀ s) : Near n s₀ (spareFails n k s) := by
  unfold spareFails
  try dsimp only
  repeat' first
    | with_reducible assumption
    | with_reducible exact Near.refl _ _
    | with_reducible apply Near.ite
    | with_reducible apply near_dropSpareReq
    | with_reducible apply near_modFarrier
    | with_reducible apply near_modSpare
    | (intro _; try dsimp only)
    | split

theorem near_calFault {s₀ : State} (i : SliceId) (s : State) (hc : Near (i.stall) s₀ s) : Near (i.stall) s₀ (calFault i s) := by
  unfold calFault
  try dsimp only
  repeat' first
    | with_reducible assumption
    | with_reducible exact Near.refl _ _
    | with_reducible apply Near.ite
    | with_reducible apply near_abortCal
    | with_reducible apply near_loseA4
    | (intro _; try dsimp only)
    | split

theorem near_converterFault {s₀ : State} (i : SliceId) (s : State) (hc : Near (i.stall) s₀ s) : Near (i.stall) s₀ (converterFault i s) := by
  unfold converterFault
  try dsimp only
  repeat' first
    | with_reducible assumption
    | with_reducible exact Near.refl _ _
    | with_reducible apply Near.ite
    | with_reducible apply near_beginForced
    | with_reducible apply near_calFault
    | with_reducible apply near_faultBit
    | with_reducible apply near_markSliceShots
    | with_reducible apply near_noSpare
    | with_reducible apply near_setSliceFault
    | with_reducible apply near_spareFails
    | (intro _; try dsimp only)
    | split

theorem near_forcedComplete {s₀ : State} (n : StallId) (k : SliceKind) (s : State) (hc : Near n s₀ s) : Near n s₀ (forcedComplete n k s) := by
  unfold forcedComplete
  try dsimp only
  repeat' first
    | with_reducible assumption
    | with_reducible exact Near.refl _ _
    | with_reducible apply Near.ite
    | with_reducible apply near_markSliceShots
    | with_reducible apply near_modSpare
    | with_reducible apply near_openPort
    | with_reducible apply near_restage
    | (intro _; try dsimp only)
    | split

theorem near_spareTimeout {s₀ : State} (n : StallId) (k : SliceKind) (s : State) (hc : Near n s₀ s) : Near n s₀ (spareTimeout n k s) := by
  unfold spareTimeout
  try dsimp only
  repeat' first
    | with_reducible assumption
    | with_reducible exact Near.refl _ _
    | with_reducible apply Near.ite
    | with_reducible apply near_endSpareOp
    | with_reducible apply near_modSpare
    | with_reducible apply near_record
    | (intro _; try dsimp only)
    | split

theorem near_spareSwitch {s₀ : State} (n : StallId) (k : SliceKind) (s : State) (hc : Near n s₀ s) : Near n s₀ (spareSwitch n k s) := by
  unfold spareSwitch
  try dsimp only
  repeat' first
    | with_reducible assumption
    | with_reducible exact Near.refl _ _
    | with_reducible apply Near.ite
    | with_reducible apply near_endSpareOp
    | with_reducible apply near_modSpare
    | with_reducible apply near_restage
    | (intro _; try dsimp only)
    | split

theorem near_toHarnessed {s₀ : State} (n : StallId) (s : State) (hc : Near n s₀ s) : Near n s₀ (toHarnessed n s) := by
  unfold toHarnessed
  try dsimp only
  repeat' first
    | with_reducible assumption
    | with_reducible exact Near.refl _ _
    | with_reducible apply Near.ite
    | with_reducible apply near_closePorts
    | with_reducible apply near_discardOpens
    | with_reducible apply near_endStallOp
    | with_reducible apply near_fastStop
    | with_reducible apply near_flushQueue
    | with_reducible apply near_idleVoices
    | with_reducible apply near_modStall
    | with_reducible apply near_record
    | with_reducible apply near_setLife
    | with_reducible apply near_forEach
    | (intro _; try dsimp only)
    | split

theorem near_drainTimedOut {s₀ : State} (n : StallId) (s : State) (hc : Near n s₀ s) : Near n s₀ (drainTimedOut n s) := by
  unfold drainTimedOut
  try dsimp only
  repeat' first
    | with_reducible assumption
    | with_reducible exact Near.refl _ _
    | with_reducible apply Near.ite
    | with_reducible apply near_riders
    | with_reducible apply near_askStop
    | with_reducible apply near_modStall
    | with_reducible apply near_toHarnessed
    | with_reducible apply near_forEach
    | (intro _; try dsimp only)
    | split

end Sys2Proof.Machine
end

