-- ==== Sys2Proof/Laws/Stall.lean ====
section
/-!
SUPPORT. What the operations of a stall's life do to the CTL block of their own stall.
-/

namespace Sys2Proof.Machine

open Sys2Proof

@[simp] theorem getStall_raise (src : Nat) (s : State) (n : StallId) : getStall (raise src s) n = getStall s n :=
  getStall_of_stalls (by simp) n

@[simp] theorem getStall_record (c : Code) (st : Nat) (o : Owner) (a b : Word) (s : State) (n : StallId) :
    getStall (record c st o a b s) n = getStall s n := getStall_of_stalls (by simp) n

@[simp] theorem getStall_lifeToken (n : StallId) (l : Life) (s : State) (m : StallId) : getStall (lifeToken n l s) m = getStall s m :=
  (lifeToken_changes (P := [.funcs, .nodes, .books, .flights, .nextFlight, .hub]) n l s (Part.sub_refl _) (Changes.refl _ s)).getStall m

@[simp] theorem getStall_setLife (n : StallId) (l : Life) (s : State) : getStall (setLife n l s) n = { getStall s n with life := l } := by
  simp [setLife]

@[simp] theorem getStall_endStallOp (n : StallId) (op : OpStatus) (s : State) :
    getStall (endStallOp n op s) n = { getStall s n with op, cmd := none } := by
  simp [endStallOp]

@[simp] theorem getStall_endSpareOp (n : StallId) (op : OpStatus) (s : State) :
    getStall (endSpareOp n op s) n = { getStall s n with spareReq := none, spareOp := op } := by
  simp [endSpareOp]

@[simp] theorem getStall_setDomains (lo k : Nat) (on : Bool) (s : State) (n : StallId) : getStall (setDomains lo k on s) n = getStall s n :=
  getStall_of_stalls (by simp [setDomains]) n

@[simp] theorem getStall_clearFaults (n : StallId) (s : State) (m : StallId) : getStall (clearFaults n s) m = getStall s m :=
  (clearFaults_changes (P := [.slices, .acqs, .nodes]) n s (Part.sub_refl _) (Changes.refl _ s)).getStall m

@[simp] theorem getStall_toStabled (n : StallId) (s : State) : getStall (toStabled n s) n = { getStall s n with life := .stabled } := by
  simp [toStabled]

/-- The end of a command, a stall state and a fault clearing leave the images alone. -/
@[simp] theorem imageOf_setLife (n : StallId) (l : Life) (s : State) (m : StallId) : imageOf (setLife n l s) m = imageOf s m := by
  simp only [imageOf, (setLife_changes (P := [.funcs, .irqs, .stalls, .nodes, .books, .flights, .nextFlight, .hub]) n l s (Part.sub_refl _)
    (Changes.refl _ s)).stallImages]

/-- A command of a stall that is admitted and that nothing refuses has its effect. -/
theorem stallCommand_accepted {s : State} {f : Func} {n : StallId} {halt : Bool} (h : admits s f (.ctl n .cmd) = true)
    (k : stallCode n halt true s = none) {p : State → Bool} (hp : p s = true) (eff : State → State) :
    stallCommand f n halt p eff s = eff s := by
  simp [stallCommand, hostWrite_of_admits h, hp, k]

/-- A command of a stall in a state that does not permit it is refused with 0x1D01. -/
theorem stallCommand_refused {s : State} {f : Func} {n : StallId} {halt : Bool} (h : admits s f (.ctl n .cmd) = true)
    {p : State → Bool} {c : Code} (k : stallCode n halt (p s) s = some c) (eff : State → State) :
    stallCommand f n halt p eff s = refuseReg f (.ctl n .cmd) c (modStall n (fun x => { x with op := opRefuse c x.op }) s) := by
  simp [stallCommand, hostWrite_of_admits h, k]

theorem spareCommand_accepted {s : State} {f : Func} {n : StallId} (h : admits s f (.ctl n .spareCmd) = true) {code : State → Option Code}
    (k : code s = none) (eff : State → State) : spareCommand f n code eff s = eff s := by
  simp [spareCommand, hostWrite_of_admits h, k]

/-! ## Shots that end while a stall rests -/

/-- Between two CTL blocks only the count of the drain and the progress of the operation differ. -/
structure LifeKept (x y : StallCtl) : Prop where
  rest : y = { x with drain := y.drain, op := y.op }
  busy : y.op.state = x.op.state
  valid : y.drain.valid = x.drain.valid
  atStart : y.drain.atStart = x.drain.atStart

theorem LifeKept.refl (x : StallCtl) : LifeKept x x := ⟨rfl, rfl, rfl, rfl⟩

theorem LifeKept.trans {x y z : StallCtl} (h : LifeKept x y) (k : LifeKept y z) : LifeKept x z :=
  ⟨by have := k.rest; rw [h.rest] at this; exact this, k.busy.trans h.busy, k.valid.trans h.valid, k.atStart.trans h.atStart⟩

theorem LifeKept.life {x y : StallCtl} (h : LifeKept x y) : y.life = x.life := by rw [h.rest]
theorem LifeKept.cmd {x y : StallCtl} (h : LifeKept x y) : y.cmd = x.cmd := by rw [h.rest]
theorem LifeKept.haltPending {x y : StallCtl} (h : LifeKept x y) : y.haltPending = x.haltPending := by rw [h.rest]
theorem LifeKept.draining {x y : StallCtl} (h : LifeKept x y) : y.draining = x.draining := by rw [h.rest]
theorem LifeKept.drainCode {x y : StallCtl} (h : LifeKept x y) : y.drainCode = x.drainCode := by rw [h.rest]
theorem LifeKept.fault {x y : StallCtl} (h : LifeKept x y) : y.fault = x.fault := by rw [h.rest]

/-- The CTL block of any stall, before and after an operation. -/
def Kept (n : StallId) (s t : State) : Prop := LifeKept (getStall s n) (getStall t n)

theorem Kept.refl (n : StallId) (s : State) : Kept n s s := LifeKept.refl _

theorem Kept.trans {n : StallId} {s t u : State} (h : Kept n s t) (k : Kept n t u) : Kept n s u := LifeKept.trans h k

theorem Kept.of_changes {n : StallId} {P : List Part} {s t : State} (h : Changes P s t) (hp : P.contains .stalls = false := by decide) :
    Kept n s t := by
  unfold Kept
  rw [h.getStall n hp]
  exact LifeKept.refl _

theorem kept_countDrain (m n : StallId) (a : Bool) (s : State) : Kept n s (countDrain m a s) := by
  unfold Kept
  by_cases h : m = n
  · subst h
    simp only [countDrain, getStall_modStall]
    split
    · cases a <;> exact ⟨rfl, by dsimp only; split <;> rfl, rfl, rfl⟩
    · exact LifeKept.refl _
  · rw [(near_countDrain m a s (Near.refl m s)).other n (fun e => h e.symm)]
    exact LifeKept.refl _

theorem kept_endShot (r : RiderId) (a : Bool) (e : Word64) (n : StallId) (s : State) : Kept n s (endShot r a e s) := by
  unfold endShot
  split
  · exact (Kept.of_changes (feedShot_changes (P := [.funcs, .chans, .queues, .riders, .feeds]) _ _ _ _ (by decide)
      (modRider_changes _ _ _ (by decide) (writeShot_changes _ _ _ _ (by decide) (Changes.refl _ s))))).trans (kept_countDrain _ _ _ _)
  · exact Kept.refl _ _

theorem kept_forEach {α : Type} {n : StallId} (l : List α) (f : α → State → State) (hf : ∀ a s, Kept n s (f a s)) (s : State) :
    Kept n s (forEach l f s) :=
  forEach_keep f (Kept n s) (fun a t h => Kept.trans h (hf a t)) l s (Kept.refl n s)

theorem kept_stopRider (r : RiderId) (k : StopKind) (n : StallId) (s : State) : Kept n s (stopRider r k s) := by
  unfold stopRider
  split
  · exact Kept.of_changes (modRider_changes (P := [.riders]) _ _ _ (by decide) (Changes.refl _ s))
  · dsimp only
    refine Kept.trans ?_ (Kept.of_changes (modRider_changes (P := [.riders]) _ _ _ (by decide) (Changes.refl _ _)))
    refine Kept.trans ?_ (kept_endShot _ _ _ _ _)
    refine Kept.trans ?_ (kept_forEach (n := n) (spentVoices _ r) (dropSpent r) (fun v s =>
      Kept.of_changes (dropSpent_changes (P := [.seqs]) _ _ _ (by decide) (Changes.refl _ s))) _)
    refine Kept.trans (Kept.of_changes (discardOpens_changes (P := [.chans]) r.stall (fun h => h == r.num.val) s (by decide) (Changes.refl _ s))) ?_
    refine kept_forEach _ _ (fun v s => ?_) _
    cases k
    · exact Kept.of_changes (modSeq_changes (P := [.voices, .seqs, .riders]) _ _ _ (by decide) (goIdle_changes _ _ (by decide) (Changes.refl _ s)))
    · exact Kept.of_changes (modSeq_changes (P := [.seqs]) _ _ _ (by decide) (Changes.refl _ s))

theorem kept_askStop (r : RiderId) (k : StopKind) (n : StallId) (s : State) : Kept n s (askStop r k s) := by
  unfold askStop
  split
  · exact Kept.of_changes (modRider_changes (P := [.riders]) _ _ _ (by decide) (Changes.refl _ s))
  · exact Kept.of_changes (modRider_changes (P := [.riders]) _ _ _ (by decide) (Changes.refl _ s))
  · exact kept_stopRider _ _ _ _

theorem kept_drainRider (r : RiderId) (n : StallId) (s : State) : Kept n s (drainRider r s) := by
  unfold drainRider
  dsimp only
  split
  · exact kept_stopRider _ _ _ _
  · split
    · exact Kept.of_changes (modRider_changes (P := [.riders]) _ _ _ (by decide) (Changes.refl _ s))
    · exact Kept.refl _ _

/-- A halt leaves the CTL block but for its flags and its life: what it does after it has marked the stall. -/
theorem kept_haltRest (n m : StallId) (s : State) :
    Kept m s (closePorts n (fastStop n (idleVoices n (forEach (stallRiders n) (fun r s => askStop r .halt s) (cutWindows n s))))) := by
  refine Kept.trans (t := cutWindows n s) (Kept.of_changes (cutWindows_changes
    (P := [.funcs, .chans, .nodes, .books, .flights, .nextFlight, .hub, .riders, .queues, .farriers, .feeds, .freeCtr]) n s (by decide) (Changes.refl _ s))) ?_
  refine Kept.trans (kept_forEach (stallRiders n) (fun r s => askStop r .halt s) (fun r s => kept_askStop r .halt m s) _) ?_
  exact Kept.of_changes (closePorts_changes (P := [.funcs, .slices, .voices, .seqs, .riders, .fasts]) _ _ (by decide)
    (fastStop_changes _ _ (by decide) (idleVoices_changes _ _ (by decide) (Changes.refl _ _))))

end Sys2Proof.Machine
end

