-- ==== Sys2Proof/Tests/Slice0.lean ====
section
/-!
SUPPORT. The model's own tests: operands that name nothing, the spec's worked examples (their numbers are the spec's), and for every statement
with hypotheses a witness, a concrete state and operands that meet all of its hypotheses together.
-/

open Sys2Proof Sys2Proof.Machine

namespace Sys2Proof.Tests

set_option Elab.async false

/-! ## Operands that name nothing (Table 00-3, Table 03-6, Table 19-4) -/

theorem test_slice_wf : SliceId.wf ⟨0, .drive, 8⟩ = true ∧ SliceId.wf ⟨0, .probe, 4⟩ = true ∧ SliceId.wf ⟨0, .probe, 5⟩ = false ∧
    SliceId.wf ⟨0, .acq, 5⟩ = false := by decide

theorem test_gate_wf : Gate.wf (.dac ⟨0, .drive, 8⟩) = true ∧ Gate.wf (.dac ⟨0, .acq, 0⟩) = false ∧ Gate.wf (.dac ⟨0, .probe, 5⟩) = false := by decide

theorem test_converter_fault_wf : Instr.wf (.sliceConverterFault ⟨1, .acq, 5⟩) = false ∧ Instr.wf (.sliceConverterFault ⟨1, .acq, 4⟩) = true := by decide

theorem test_sum_guard_wf : Instr.wf (.sumGuardClip ⟨1, .acq, 0⟩ 0) = false ∧ Instr.wf (.sumGuardClip ⟨1, .probe, 8⟩ 0) = false := by decide

theorem test_guard_clear_wf : Instr.wf (.guardHitClear 0 ⟨1, .acq, 0⟩) = false ∧ Instr.wf (.guardHitClear 0 ⟨1, .probe, 6⟩) = false := by decide

theorem test_sl_ctl_wf : Instr.wf (.slCtlWrite 0 ⟨1, .acq, 0⟩ 0) = false ∧ Instr.wf (.slCtlWrite 0 ⟨1, .probe, 7⟩ 0) = false := by decide

theorem test_port_wf : Instr.wf (.attenTakesEffect ⟨0, .acq, 0⟩) = false ∧ Instr.wf (.portOpenTimer ⟨0, .acq, 0⟩) = false ∧
    Instr.wf (.switchReadbackMismatch ⟨0, .acq, 0⟩) = false := by decide

theorem test_underrun_wf : Instr.wf (.dacGateUnderrun (.dac ⟨0, .acq, 0⟩) 1) = false := by decide

theorem test_staging_wf : Instr.wf (.stagingSlotWrite 0 0x7FFFFFF [0, 0]) = false ∧ Instr.wf (.stagingSlotWrite 0 0x8000000 [0]) = false ∧
    Instr.wf (.stagingSlotWrite 0 0x4000000 [0, 0]) = true := by decide

theorem test_hbm_wf : Instr.wf (.hbmHostWrite 0 0xFFFFFFFFF [0, 0]) = false ∧ Instr.wf (.hbmHostWrite 0 0x8000000 [0]) = true := by decide

theorem test_link_wf : Instr.wf (.linkTrained 3 1) = false ∧ Instr.wf (.linkTrained 8 0) = false ∧ Instr.wf (.linkTrained 8 6) = false ∧
    Instr.wf (.linkTrained 8 5) = true := by decide

/-- A command whose operands name nothing changes nothing but the queue. -/
theorem test_step_ill_formed : step { State.reset with pending := [.sliceConverterFault ⟨1, .acq, 5⟩] } = .next State.reset := by rfl

/-- The opcode table gives no word. -/
theorem test_no_word (nbits w : Nat) : decodeTableWord nbits w = none := rfl

/-! ## The spec's worked examples -/

/-- S2.U1 at 0x0303_5100 (file 07). -/
theorem test_unit_address : regAddr (.unit 2 1 .src) = 0x03035100 ∧ decodeReg 0x03035100 = some (.unit 2 1 .src) := by decide +kernel

/-- Q_COUNT, Q_HOST_CREDIT and Q_PUSH_END of queue index 0x205 of stall 3 (file 11). -/
theorem test_queue_address : decodeReg 0x04088144 = some (.queue 3 0x205 .count) ∧ decodeReg 0x0408814C = some (.queue 3 0x205 .hostCredit) ∧
    decodeReg 0x04088154 = some (.queue 3 0x205 .pushEnd) := by decide +kernel

/-- CH_DISC and CH_COMMIT of S6.C42 (file 06), W5 of stall 2 (file 15), FL_DC of S1.F12 (file 10). -/
theorem test_more_addresses : decodeReg 0x07039510 = some (.chan ⟨6, 42⟩ .disc) ∧ decodeReg 0x07039538 = some (.chan ⟨6, 42⟩ .commit) ∧
    decodeReg 0x03000540 = some (.cmp 2 5 .ctl) ∧ decodeReg 0x02041304 = some (.line ⟨1, 12⟩ .dc) := by decide +kernel

/-- 1,000,112 ns after the epoch (file 02). -/
theorem test_schedule_time : schedOfFine (250028 * fineFrame) = 0x1E856000 := by decide +kernel

/-- The planes of S6.C42 (Table 06-12). -/
def qutrit : PlaneSet :=
  { en := 7, map := 0x13DA
    p0 := { a := 0x5A82, b := 0xA57E, c := 0x52DD, ksh := 20, k := 0x8312 }
    p1 := { a := 0x68DD, b := 0x4967, c := 0x5B34, ksh := 20, k := 0x8312 }
    p2 := { a := 0x7FCE, b := 0xF8E6, c := 0x71C2, ksh := 20, k := 0x8312 } }

/-- The decision of that example: sides 0b110, state 1, quality 113. -/
theorem test_qutrit_decision : sideBits qutrit 60000 35000 = 6 ∧ stateOf qutrit 6 = 1 ∧ qualityOf qutrit 60000 35000 = 113 := by decide +kernel

/-- Codes 420 and 612 around level 500 cross at 26/64 of an interval (file 07). -/
theorem test_crossing : crossingF 500 420 612 = 26 := by decide

/-- The records of S2.U1: 80,008,256 bytes at a = 0, and 10,001,088 at a = 4 (file 07). -/
theorem test_record_bytes : recordBytes {} 40004096 = 80008256 ∧ recordBytes { avg := 4 } 2500256 = 10001088 ∧
    padFor 67108864 60006528 10001088 = 7102336 := by decide +kernel

/-- The first move of S1.F12 in file 10: from 78,643 by a curb step of 64. -/
theorem test_first_move : (moveTo 0 64 { codeNow := 78643 }).codeNow = 78579 ∧ (moveTo 0 64 { codeNow := 51 }).codeNow = 0 := by decide +kernel

/-- 0x3_0A3D is −62,915 in a bipolar span (file 10). -/
theorem test_flux_code : codeVal 1 0x30A3D = -62915 ∧ codeVal 3 0x30A3D = 199229 := by decide +kernel

/-! ## Reset -/

theorem test_reset_memories : memoriesCanonical State.reset = true := by decide +kernel

/-! ## States of the witnesses -/

/-- The image of stall 0: voices V00 and Q00 and channel C00 on the first slice of their kind, every spare permitted, a queue of each kind of port, and
an owner's rider. -/
def demoImage : StallImage :=
  { voices := [(0, { slice := 0 }), (1, { slice := 0, owner := 1 }), (64, { slice := 0 })]
    chans := [(0, { slice := 0, states := 2, klimit := 4096 })], policy := 0xFFFFF
    riders := [(0, { shotQ := some 4 }), (1, { owner := 1, subs := [(3, [5])] })]
    node := { cells := [(7, { used := true, ffEn := true })] }
    queues := [(3, { prods := [(.host, 16)], consumer := some .host }),
      (4, { prods := [(.rider ⟨0, 0⟩, 16)], consumer := some (.rider ⟨0, 1⟩) }), (5, { prods := [(.rider ⟨0, 1⟩, 16)], consumer := some (.rider ⟨0, 0⟩) }),
      (6, { itemMode := true, prods := [(.host, 16), (.slice 1 0, 4), (.tether 5, 8)] })]
    farrier := { kindEn := 0x3F, autoEn := 0x3F } }

/-- A module that runs, its link trained and virtual function 1 enabled, with an epoch, a herd image, stall 0 riding with an image, stall 1
harnessed, stall 2 stabled and the others off. -/
def demo : State :=
  { State.reset with
    clock := { now := 1000000000, sched := 1536000, running := true }
    host := { width := 8, speed := 5 }, funcs := [(1, { enabled := true })]
    power := { phase := .running, domOn := alwaysOn ||| bootDomains }
    herdImage := some { chans := [(5, {}), (6, { owner := 1 })], quotas := [(0, 64)] }, hubImage := some {}
    stallImages := [(0, demoImage), (1, {})]
    stalls := [(0, { life := .riding, powered := true, frameLocked := true, imageTag := 1 }),
      (1, { life := .harnessed, powered := true, frameLocked := true, imageTag := 2 }),
      (2, { life := .stabled, powered := true, frameLocked := true })] }

/-- An operation of the loader is in a phase, from staging slot 0. -/
def loadingAt (op : TackOp) (phase : Nat) : State :=
  setTack (fun t => { t with run := some op, phase, op := { state := .busy, progress := 350 } }) demo

/-- A number in 48 bytes, the highest first. -/
def bytes48 (n : Nat) : List Byte := (List.range 48).map fun k => BitVec.ofNat 8 (n / 256 ^ (47 - k))

/-- A signature (R124, R125) under the secret key 1, whose public key is the curve's base point, with the nonce 1. -/
def signature (s : Nat) : List Byte := bytes48 p384Base.x.toNat ++ bytes48 s

/-- Bytes from an address on. -/
def placed (a : Nat) : List Byte → Tab Byte
  | [] => []
  | b :: l => (a, b) :: placed (a + 1) l

/-- A byte of a run is the one placed there. -/
theorem placed_get (l : List Byte) : ∀ a k : Nat, tabGet 0 (placed a l) (a + k) = l.getD k 0 := by
  induction l with
  | nil => intro a k; simp [placed, tabGet, tabFind]
  | cons b l ih =>
    intro a k
    cases k with
    | zero => simp [placed, tabGet, tabFind]
    | succ k =>
      have e := ih (a + 1) k
      rw [Nat.add_right_comm, Nat.add_assoc] at e
      have h : tabGet 0 (placed a (b :: l)) (a + (k + 1)) = tabGet 0 (placed (a + 1) l) (a + (k + 1)) := by
        simp only [placed, tabGet, tabFind, if_neg (show ¬a = a + (k + 1) by omega)]
      rw [h, e]; simp

/-- Reading a part of a run. -/
theorem placed_read (l : List Byte) : ∀ n k : Nat, k + n ≤ l.length → memRead 0 (placed 0 l) k n = (l.drop k).take n := by
  intro n
  induction n with
  | zero => intro k _; simp [memRead]
  | succ n ih =>
    intro k h
    have e := placed_get l 0 k
    rw [Nat.zero_add] at e
    have hk : k < l.length := by omega
    rw [memRead, e, ih (k + 1) (by omega), List.drop_eq_getElem_cons hk, List.take_succ_cons, List.getD_eq_getElem _ _ hk]

/-- An entry of a directory (Table 03-2): a section of a type at an offset, empty but for STABLE's. -/
def dirEntry (type : Byte) (offset : Nat) : List Byte :=
  [type, 0, 0, 0, BitVec.ofNat 8 offset, BitVec.ofNat 8 (offset / 256), 0, 0]
    ++ (if type = 0x22 then [96, 0, 0, 0, 0xD2, 0x84, 0xDB, 0x4E] else List.replicate 8 0)

/-- The bytes of an image of tag 7 for stall 2: its header, and the eleven required sections (Tables 03-1 to 03-3), all empty but STABLE, which holds
its signature; then the signature block. -/
def stagedList : List Byte :=
  [0x54, 0x41, 0x43, 0x4B, 1, 0, 2, 2, 7, 0, 0, 0, 0, 5, 0, 0, 11] ++ List.replicate 111 0
    ++ (dirEntry 0x01 320 ++ dirEntry 0x20 384 ++ dirEntry 0x21 448 ++ dirEntry 0x22 512 ++ dirEntry 0x24 640 ++ dirEntry 0x25 704 ++ dirEntry 0x26 768
      ++ dirEntry 0x27 832 ++ dirEntry 0x28 896 ++ dirEntry 0x29 960 ++ dirEntry 0x2A 1024)
    ++ List.replicate 208 0
    ++ signature 0xE3382ACA10379B6FDB8AF99DA4D290DE901AF273A065A2DBA604099FE64B0C127C51D11DA6C48F680F6F3129BB0EC412
    ++ List.replicate 416 0
    ++ (4 :: bytes48 p384Base.x.toNat ++ bytes48 p384Base.y.toNat)
    ++ signature 0xCC5B8C8C0845F62661C3F12921D5D92E658F668E0131CD1975BB9591B418EA05FAAF3615D492B84739AB30ED1FB47683
    ++ List.replicate 63 0

/-- That image in staging slot 0. -/
def stagedBytes : Tab Byte := placed 0 stagedList

/-- The checks of that image run for an operation; key slot 0 enrols its signer, which signs for the boot ROM's key too. -/
def stagedFor (op : TackOp) : State :=
  setTack (fun t => { t with slot0Len := 0x500, len := 0x500, fits := true })
    (setPersist (fun p =>
      { p with
        keys := { slot0 := .enrolled (sha384 (4 :: bytes48 p384Base.x.toNat ++ bytes48 p384Base.y.toNat)) }
        romKeyX := BitVec.ofInt 384 p384Base.x, romKeyY := BitVec.ofInt 384 p384Base.y }) { loadingAt op 4 with hbm := stagedBytes })

/-- Phase 5 of a load whose sections say what is given. -/
def committing (op : TackOp) (b : ImageBody) : State :=
  setTack (fun t => { t with body := some b, header := { tag := 7 } }) (loadingAt op 5)

/-- V00 of stall 0 with a sequencer in hand. -/
def atSeq (q : Seq) : State := modSeq ⟨0, false, 0⟩ (fun _ => q) demo

/-- A descriptor of a PLAY segment of 9 beats. -/
def playDesc : Desc := 0x900000000

/-- C00 of stall 0 in a given state. -/
def atChan (f : Channel → Channel) : State := modChan ⟨0, 0⟩ f demo

/-- A window of 16 samples of rider H00. -/
def window : Window := { start := 990, len := 16, rider := 0, shot := 1, index := 0, ints := {}, planes := {} }

/-- U00 of stall 0 in a given state. -/
def atUnit (f : CapUnit → CapUnit) : State := modUnit ⟨0, 0⟩ f demo

/-- The fields of a capture of raw samples of a slice into 1 MiB. -/
def rawCfg (src : BitVec 3) : UnitCfg := { trigSrc := src, ringMib := 1, level := 100 }

/-- U00 armed with a ring of 1 MiB. -/
def armedUnit (src : BitVec 3) (f : CapUnit → CapUnit) : State :=
  atUnit fun x => f { x with arm := rawCfg src, armed := true, owner := some 0, op := opStart, ringPage := 16, ringBytes := 1048576 }

/-- A token of E0005 with its hop count. -/
def token (hop : BitVec 3) : Token := { chan := 5, kind := .edge, hop, inv := false, value := 3 }

/-- A microword (Table 09-3) from its op, seq, sub and obj fields and others. -/
def mw (op seq sub obj : Nat) (rest : MicroWord) : MicroWord := BitVec.ofNat 256 (op * 2 ^ 26 + seq * 2 ^ 12 + sub * 2 ^ 112 + obj * 2 ^ 96) ||| rest

/-- H00 of stall 0 has a word in hand. -/
def atRider (w : MicroWord) (f : Rider → Rider) (s : State) : State :=
  { modRider ⟨0, 0⟩ (fun x => f { x with state := .running, pc := 16 }) s with store := [(16, w)] }

/-! ## Witnesses -/

/-- No register lies at the highest offset of BAR0. -/
theorem no_register_at_the_top (r : Reg) : regAddr r ≠ 0xFFFFFFC := by
  cases r <;> (try (rename_i x; cases x)) <;>
    simp only [regAddr, hostOff, powerOff, tackOff, timeOff, ptOff, dmOff, tpOff, tetherOff, tlOff, hubOff, bkOff, wcOff, hkOff, qdirOff, ctlOff, slOff,
      vcOff, vsOff, asOff, tuOff, chOff, flOff, nodeOff, rhOff, qOff, faOff, loHi, stallBase, voiceBlock, ne_eq] <;> (repeat' split) <;> omega

theorem witness_StepRunsTheFrontCommand (h : Obligations.StepRunsTheFrontCommand) : True := by
  have _ := h { demo with pending := [.dcTick, .mirrorRefresh] } .dcTick [.mirrorRefresh] (by rfl)
  trivial

theorem witness_AnEmptyQueueLetsABeatPass (h : Obligations.AnEmptyQueueLetsABeatPass) : True := by
  have _ := h demo (by rfl)
  trivial

theorem witness_CommandsLeaveTheQueueAlone (h : Obligations.CommandsLeaveTheQueueAlone) : True := by
  have _ := h .dcTick { demo with pending := [.mirrorRefresh] } _ (by rfl)
  trivial

theorem witness_OperandsOfNoObjectChangeNothing (h : Obligations.OperandsOfNoObjectChangeNothing) : True := by
  have _ := (h demo).1 ⟨0, .acq, 5⟩ (by decide)
  have _ := (h demo).2.1 ⟨0, .acq, 0⟩ (by decide)
  have _ := (h demo).2.1 ⟨0, .probe, 5⟩ (by decide)
  have _ := (h (stagedFor (.loadStall 2))).2.2 { body := .herd {} } [] (.loadStall 2) (by rfl) (by decide +kernel)
  trivial

theorem witness_MemoriesStayCanonical (h : Obligations.MemoriesStayCanonical) : True := by
  have _ := h { demo with pending := [.hbmHostWrite 0 16 [0, 7]], hbm := [(16, 1), (18, 2)] } _ (by decide) (by rfl)
  trivial

theorem witness_OffsetsNameOneRegisterEach (h : Obligations.OffsetsNameOneRegisterEach) : True := by
  have _ := h.2 0x70000 (.hkCtl false) (by decide)
  trivial

theorem witness_UnassignedOffsetsAnswerNothing (h : Obligations.UnassignedOffsetsAnswerNothing) : True := by
  have _ := h demo 1 0xFFFFFFC (by decide) (by decide) no_register_at_the_top
  trivial

theorem witness_ForeignOwnersChangeNothing (h : Obligations.ForeignOwnersChangeNothing) : True := by
  have _ := h demo 1 (.voice ⟨0, false, 0⟩ .ftwHi) 0 (BitVec.ofNat 28 (regAddr (.voice ⟨0, false, 0⟩ .ftwHi))) 1 {} (by decide) (by decide) (by decide)
    (by decide) (by decide) (by intro n e; cases e; decide)
  trivial

theorem witness_DarkAndBusyWindowsDiscardWrites (h : Obligations.DarkAndBusyWindowsDiscardWrites) : True := by
  have _ := (h demo 0 (.ctl 7 .cmd) 7 (BitVec.ofNat 28 (regAddr (.ctl 7 .cmd))) (by decide) (by decide)).1 (by decide)
  have _ := (h (loadingAt (.loadStall 2) 5) 0 (.node 2 .status) 2 (BitVec.ofNat 28 (regAddr (.node 2 .status))) (by decide) (by decide)).2.1 (by decide) (by decide)
  have _ := (h demo 0 (.node 7 .status) 7 (BitVec.ofNat 28 (regAddr (.node 7 .status))) (by decide) (by decide)).2.2 (by decide) (by decide) (by decide)
  trivial

theorem witness_EachConverterHasOneDataRegister (h : Obligations.EachConverterHasOneDataRegister) : True := by
  have _ := h.1 (modHk 7 (fun x => { x with running := true, mode := 2, valid := true }) demo) 7 0xFFF _ (by decide) (by decide) (by rfl)
  have _ := h.1 (modHk 7 (fun x => { x with running := true, mode := 2 }) demo) 7 0xFFF _ (by decide) (by decide) (by rfl)
  have _ := h.2 demo 1 7 (by decide)
  trivial

theorem witness_OnlyStartMakesAStallRide (h : Obligations.OnlyStartMakesAStallRide) : True := by
  have _ := h (.start 0 1) demo _ 1 (by rfl) (by decide) (by decide +kernel)
  trivial

theorem witness_RefusedStallCommandsLeaveTheStall (h : Obligations.RefusedStallCommandsLeaveTheStall) : True := by
  have _ := (h (modStall 0 (fun x => { x with life := .resting, faultHalt := true }) demo) 0 0 {} (by decide)).1 (.halt 0 0) (by simp) (by decide)
  have _ := (h demo 0 0 {} (by decide)).2 (by decide) (by decide) (by decide) _ (.inl ⟨rfl, by decide⟩)
  have _ := (h demo 0 0 {} (by decide)).2 (by decide) (by decide) (by decide) _ (.inr (.inl ⟨rfl, by decide⟩))
  have _ := (h demo 0 2 {} (by decide)).2 (by decide) (by decide) (by decide) _ (.inr (.inr (.inl ⟨rfl, by decide⟩)))
  have _ := (h demo 0 2 {} (by decide)).2 (by decide) (by decide) (by decide) _ (.inr (.inr (.inr (.inl ⟨rfl, by decide⟩))))
  have _ := (h demo 0 3 {} (by decide)).2 (by decide) (by decide) (by decide) _ (.inr (.inr (.inr (.inr (.inl ⟨rfl, by decide, by decide⟩)))))
  have _ := (h demo 0 1 {} (by decide)).2 (by decide) (by decide) (by decide) _ (.inr (.inr (.inr (.inr (.inr ⟨rfl, by decide, by decide⟩)))))
  trivial

theorem witness_OneStallCommandAtATime (h : Obligations.OneStallCommandAtATime) : True := by
  have _ := (h (modStall 0 (fun x => { x with life := .resting, cmd := some .drain }) demo) 0 0 {} (by decide) (by decide) (by decide)).1 (.start 0 0) (by simp)
  have _ := (h (modStall 0 (fun x => { x with life := .resting, cmd := some .drain }) demo) 0 0 {} (by decide) (by decide) (by decide)).2 (.inr (by decide)) (by decide)
  trivial

theorem witness_StallCommandsTakeEffect (h : Obligations.StallCommandsTakeEffect) : True := by
  have _ := (h demo 0 3 (by decide) (by decide)).1 {} (by decide) (by decide) (by decide)
  have _ := (h demo 0 1 (by decide) (by decide)).2.1 (by decide)
  have _ := (h demo 0 1 (by decide) (by decide)).2.2.1 (by decide)
  have _ := (h demo 0 2 (by decide) (by decide)).2.2.2.1 (by decide) (by decide +kernel)
  have _ := (h (modLine ⟨2, 0⟩ (fun x => { x with connected := true, codeNow := 5 }) demo) 0 2 (by decide) (by decide)).2.2.2.2 (by decide) (by decide +kernel)
  trivial

/-- Stall 0 drains. -/
def draining : State := modStall 0 (fun x => { x with life := .resting, draining := true, cmd := some .drain, op := opStart }) demo

theorem witness_StallRestsAndHalts (h : Obligations.StallRestsAndHalts) : True := by
  have _ := h.1 demo 0 0 (by decide) (by decide) (by decide)
  have _ := h.2.1 draining 0 0 (by decide) (by decide) (by decide)
  have _ := h.2.2.1 demo 0 0x3D06 0 (by decide)
  have _ := h.2.2.2.1 draining 0 (by decide) (by decide)
  have _ := h.2.2.2.2 draining 0 (by decide) (by decide)
  trivial

/-- Stall 3 is being powered up. -/
def rising : State := modStall 3 (fun x => { x with powered := true, cmd := some .powerUp, op := opStart }) demo

theorem witness_StallPowerUpEnds (h : Obligations.StallPowerUpEnds) : True := by
  have _ := (h rising 3 [] (by decide)).1 (by decide) (by decide)
  have _ := (h rising 3 [] (by decide)).2.1 (by decide)
  have _ := (h demo 0 [] (by decide)).2.2 2 (by decide)
  trivial

/-- A spare command of stall 0 is in progress. -/
def spareBusy (k : SliceKind) (target : Option (BitVec 4)) : State :=
  modStall 0 (fun x =>
    { x with
      spareReq := some { kind := k, target, func := 0, at_ := 0 }, spareOp := opStart
      spareDrive := { use := .switching, target := 3 }, spareProbe := { use := .switching, target := 3 } }) demo

/-- A spare of stall 0 replaces drive slice D3. -/
def spareUsed (forced : Bool) : State :=
  modStall 0 (fun x => { x with spareDrive := { use := if forced then .switching else .replacing, target := 3, forced } }) demo

theorem witness_SparesStandForSlices (h : Obligations.SparesStandForSlices) : True := by
  have _ := h.1 demo 0 0 .drive 7 (by decide) (by decide) (by decide)
  have _ := h.2.1 (spareUsed false) 0 0 .drive (by decide) (by decide)
  have _ := h.2.1 demo 0 0 .acq (by decide) (by decide)
  have _ := h.2.2.1 (spareBusy .drive (some 3)) 0 .drive _ ⟨0, .drive, 3⟩ (by rfl) (by rfl) (by rfl) (by decide) (by decide) (by decide)
  have _ := h.2.2.1 (spareBusy .probe none) 0 .probe _ ⟨0, .probe, 3⟩ (by rfl) (by rfl) (by rfl) (by decide) (by decide) (by decide)
  have _ := h.2.2.2.1 (spareBusy .drive (some 3)) 0 .drive _ (by rfl) (by rfl) (by rfl)
  have _ := h.2.2.2.2.1 demo ⟨0, .drive, 7⟩ (by decide) (by decide) (by decide) (by decide) (by decide) (by decide) (by decide)
  have _ := h.2.2.2.2.2.1 (spareUsed false) ⟨0, .drive, 3⟩ (by decide) (by decide) (by decide) (by decide)
  have _ := h.2.2.2.2.2.2 (spareUsed true) 0 .drive (by decide) (by decide)
  trivial

theorem witness_GatesAndPaceMonitorsCount (h : Obligations.GatesAndPaceMonitorsCount) : True := by
  have _ := h.1 demo ⟨0, .probe, 4⟩ 70000 (by decide) (by decide)
  have _ := h.2.2.2.1 demo 0 3 (-1) _ (by decide) rfl
  have _ := h.2.2.2.1 demo 0 0 300 _ (by decide) rfl
  have _ := h.2.2.2.2.1 demo 7 0 5 (by decide)
  have _ := h.2.2.2.2.2.1 demo 3 0 _ (by decide) rfl
  have _ := h.2.2.2.2.2.2.1 demo 0 0 7 66 (by decide) (by decide)
  have _ := h.2.2.2.2.2.2.2.1 demo 0 0 (by decide)
  have _ := h.2.2.2.2.2.2.2.2 demo 0 (by decide)
  trivial

/-- A Trot fork on V00 of stall 0, armed by rider H00. -/
def trotFork (chosen : Option Bool) (latched : Bool) : Fork :=
  { rider := 0, input := 1, gait := .trot, cond := 1, anchor := none, deadline := 100, release := 0, chosen, latched }

/-- V00 of stall 0 with a fork and a READY alternate. -/
def forked (st : SeqState) (fk : Fork) : State :=
  modSeq ⟨0, false, 0⟩ (fun q => { q with state := st, desc := 0x80000000, fork := some fk, alt := some { idx := 9, desc := 0x100000001, state := .ready } }) demo

theorem witness_TrotForksKeepTheirTime (h : Obligations.TrotForksKeepTheirTime) : True := by
  have _ := (h.1 (forked .hold (trotFork (some false) false)) ⟨0, false, 0⟩ _ (by rfl) (by rfl) (by rfl) (by rfl) (by rfl)).1 (by rfl) (.inl (by rfl))
  have _ := (h.1 (forked .hold (trotFork (some true) false)) ⟨0, false, 0⟩ _ (by rfl) (by rfl) (by rfl) (by rfl) (by rfl)).1 (by rfl) (.inr ⟨by rfl, by rfl⟩)
  have _ := (h.1 (forked .hold (trotFork none false)) ⟨0, false, 0⟩ _ (by rfl) (by rfl) (by rfl) (by rfl) (by rfl)).2.1 (by rfl) (.inl (by rfl))
  have _ := (h.1 (forked .play (trotFork none false)) ⟨0, false, 0⟩ _ (by rfl) (by rfl) (by rfl) (by rfl) (by rfl)).2.2 (by decide)
  have _ := (h.2 (forked .play (trotFork none true)) ⟨0, false, 0⟩ _ (by rfl) (by rfl) (by rfl) (by rfl) (by rfl)).1 (by decide)
  have _ := (h.2 (forked .hold (trotFork (some true) true)) ⟨0, false, 0⟩ _ (by rfl) (by rfl) (by rfl) (by rfl) (by rfl)).2 _ (by rfl) (by rfl) (by rfl) (by rfl) (by decide)
  trivial

/-- V00 of stall 0 with a latched fork in HOLD, and a segment in its primary port. -/
def releasing (chosen : Option Bool) (p : PortSeg) : State :=
  modSeq ⟨0, false, 0⟩ (fun q => { q with prim := [p], alt := some p }) (forked .hold (trotFork chosen true))

theorem witness_TrotForksLatchAndTheirSuccessorsStart (h : Obligations.TrotForksLatchAndTheirSuccessorsStart) : True := by
  have _ := h.1 (forked .hold (trotFork (some false) false)) ⟨0, false, 0⟩ _ (by rfl) (by rfl) (by rfl) (by rfl) (by rfl) (by rfl) (.inl (by rfl))
  have _ := h.1 (forked .hold (trotFork (some true) false)) ⟨0, false, 0⟩ _ (by rfl) (by rfl) (by rfl) (by rfl) (by rfl) (by rfl) (.inr ⟨by rfl, by rfl⟩)
  have _ := h.2 (releasing (some true) { idx := 9, desc := 0x100000001, state := .ready }) ⟨0, false, 0⟩ _ _ _ (by rfl) (by rfl) (by rfl) (by rfl) (by rfl) (by rfl) rfl (by rfl)
  have _ := h.2 (releasing none { idx := 9, desc := 0x90000001, state := .ready }) ⟨0, false, 0⟩ _ _ _ (by rfl) (by rfl) (by rfl) (by rfl) (by rfl) (by rfl) rfl (by rfl)
  have _ := h.2 (releasing (some false) { idx := 9, desc := 0, state := .loading }) ⟨0, false, 0⟩ _ _ _ (by rfl) (by rfl) (by rfl) (by rfl) (by rfl) (by rfl) rfl (by rfl)
  trivial

/-- Phase 2 reads the key store, the bytes of the slot and nothing else. -/
theorem signature_parts (s u : State) (h : Header) (d : List DirEntry) (hp : s.persist = u.persist) (hb : s.hbm = u.hbm) (hs : imageBase s = imageBase u)
    (hf : s.tack.flash = u.tack.flash) :
    signatureFlaw s h d = signatureFlaw u h d := by
  simp only [signatureFlaw, signatureOk, stableOk, imageDigest, signerDigest, imageBytes, hp, hb, hs, hf]

/-- Reading a part of the staged image. -/
theorem staged_read (off n : Nat) (h : off + n ≤ 1280) : imageBytes (stagedFor (.check 2)) off n = (stagedList.drop off).take n := by
  have e : stagedList.length = 1280 := by decide +kernel
  have z : imageBase (stagedFor (.check 2)) + off = off := by rw [show imageBase (stagedFor (.check 2)) = 0 from by decide +kernel, Nat.zero_add]
  rw [imageBytes, z]
  exact placed_read stagedList n off (by omega)

/-- Its length. -/
theorem staged_length : (readHeader (stagedFor (.check 2))).length.toNat = 1280 := by decide +kernel

/-- Its digest. -/
theorem staged_digest : imageDigest (stagedFor (.check 2)) (readHeader (stagedFor (.check 2))) =
    0xcc6b3eadb4d256ffda8e3d15b843aca5cdbfc431b153c41b81318a752b2b72f7b92bb52e0a2a12d3eef0ba4969c2d321 := by
  rw [imageDigest, staged_length, staged_read _ _ (by decide)]; decide +kernel

/-- Its signature holds. -/
theorem staged_signature : signatureOk (stagedFor (.check 2)) (readHeader (stagedFor (.check 2))) = true := by
  rw [signatureOk, staged_digest, staged_length, staged_read _ _ (by decide), staged_read _ _ (by decide)]; decide +kernel

/-- The signatures of its STABLE sections hold. -/
theorem staged_stable : ((readDir (stagedFor (.check 2)) (readHeader (stagedFor (.check 2)))).any
    fun e => e.type == 0x22 && !stableOk (stagedFor (.check 2)) e) = false := by decide +kernel

/-- Key slot 0 enrols its signer. -/
theorem staged_enrolled : (keySlot (stagedFor (.check 2)).persist.keys (readHeader (stagedFor (.check 2))).keySlot.toNat !=
    .enrolled (signerDigest (stagedFor (.check 2)) (readHeader (stagedFor (.check 2))))) = false := by
  rw [signerDigest, staged_length, staged_read _ _ (by decide)]; decide +kernel

/-- The image of the staging slot is signed. -/
theorem staged_signed :
    signatureFlaw (stagedFor (.check 2)) (readHeader (stagedFor (.check 2))) (readDir (stagedFor (.check 2)) (readHeader (stagedFor (.check 2)))) = none := by
  simp only [signatureFlaw, staged_signature, staged_stable, staged_enrolled]; rfl

/-- The image of the staging slot passes every check, where phases 1, 3 and 4 find nothing. -/
theorem staged_good (s : State) (op : TackOp) (c : ImageChecks) (hp : s.persist = (stagedFor (.check 2)).persist) (hb : s.hbm = (stagedFor (.check 2)).hbm)
    (hs : imageBase s = imageBase (stagedFor (.check 2))) (hf : s.tack.flash = false)
    (hh : readHeader s = readHeader (stagedFor (.check 2)))
    (hd : readDir s (readHeader s) = readDir (stagedFor (.check 2)) (readHeader (stagedFor (.check 2))))
    (h1 : headerFlaw s op (readHeader s) (readDir s (readHeader s)) = none) (h3 : directoryFlaw s (readHeader s) (readDir s (readHeader s)) = none)
    (h4 : sectionsFlaw s (opStall op) (readHeader s) (readDir s (readHeader s)) c.body = none) : imageFlaw s op c = none := by
  have h2 : signatureFlaw s (readHeader s) (readDir s (readHeader s)) = none := by
    rw [signature_parts s (stagedFor (.check 2)) _ _ hp hb hs hf, hd, hh]; exact staged_signed
  simp only [imageFlaw, h1, h2, h3, h4, Option.or]

theorem check_good : imageFlaw (stagedFor (.check 2)) (.check 2) { body := .stall {} } = none := by
  apply staged_good <;> decide +kernel

theorem load_good : imageFlaw (stagedFor (.loadStall 2)) (.loadStall 2) { body := .stall {} } = none := by
  apply staged_good <;> decide +kernel

/-- The load finds its stall harnessed. -/
def stagedHarnessed : State := modStall 2 (fun x => { x with life := .harnessed }) (stagedFor (.loadStall 2))

theorem harnessed_good : imageFlaw stagedHarnessed (.loadStall 2) { body := .stall {} } = none := by
  apply staged_good <;> decide +kernel

/-- The load finds its stall riding. -/
def stagedRiding : State := modStall 2 (fun x => { x with life := .riding }) (stagedFor (.loadStall 2))

theorem riding_good : imageFlaw stagedRiding (.loadStall 2) { body := .stall {} } = none := by
  apply staged_good <;> decide +kernel

theorem witness_ImageLoadsBeginAndStop (h : Obligations.ImageLoadsBeginAndStop) : True := by
  have _ := h.1 demo 0 1 _ .loadHerd (by decide) (by decide) (.inl (by decide)) (.inl ⟨rfl, rfl⟩)
  have _ := h.1 demo 0 1 _ .loadHub (by decide) (by decide) (.inl (by decide)) (.inr (.inl ⟨rfl, rfl⟩))
  have _ := h.1 demo 0 1 _ (.loadStall 7) (by decide) (by decide) (.inl (by decide)) (.inr (.inr (.inl ⟨7, rfl, rfl⟩)))
  have _ := h.1 demo 0 1 _ (.check 7) (by decide) (by decide) (.inr ⟨7, rfl⟩) (.inr (.inr (.inr ⟨7, rfl, rfl⟩)))
  have _ := (h.2.1 demo 0 [] (by decide)).1 (by decide)
  have _ := (h.2.1 (loadingAt (.check 0) 4) 0 [] (by decide)).2.1 (by decide) (by decide) (by decide) (by decide) (by decide)
  have _ := (h.2.1 (loadingAt (.loadStall 2) 5) 0 [] (by decide)).2.2 (by decide) (by decide)
  have _ := (h.2.2 (loadingAt (.check 0) 4) _ { body := .stall {} } [] (by rfl) (by decide) (by decide) (by decide) (by decide) (by decide +kernel)).1 _ (by rfl)
  have _ := (h.2.2 (stagedFor (.check 2)) _ { body := .stall {} } [] (by rfl) (by decide) (by decide) (by decide) (by decide) (by decide +kernel)).2.1 2 check_good (by rfl)
  have _ := (h.2.2 stagedRiding _ { body := .stall {} } [] (by rfl) (by decide) (by decide) (by decide) (by decide) (by decide +kernel)).2.2.1 2 riding_good (by rfl) (by decide) (by decide)
  have _ := (h.2.2 (stagedFor (.loadStall 2)) _ { body := .stall {} } [] (by rfl) (by decide) (by decide) (by decide) (by decide) (by decide +kernel)).2.2.2.1 2 load_good (by rfl) (by decide)
  have _ := (h.2.2 stagedHarnessed _ { body := .stall {} } [] (by rfl) (by decide) (by decide) (by decide) (by decide) (by decide +kernel)).2.2.2.2 2 harnessed_good (by rfl) (by decide)
  trivial

theorem witness_ImageLoadsComplete (h : Obligations.ImageLoadsComplete) : True := by
  have _ := (h.1 (committing (.loadStall 2) (.stall demoImage)) 2 demoImage [] (by rfl) (by rfl) (by decide) (by decide) (by decide) (by decide)).1 (by decide)
  have _ := (h.1 (committing (.loadStall 2) (.stall demoImage)) 2 demoImage [] (by rfl) (by rfl) (by decide) (by decide) (by decide) (by decide)).2.1 (by decide)
  have _ := (h.1 (setTack (fun t => { t with lostTarget := true }) (committing (.loadStall 2) (.stall demoImage))) 2 demoImage [] (by rfl) (by rfl) (by decide) (by decide) (by decide) (by decide)).2.2 .good (by decide)
  have _ := h.2.1 (committing .loadHerd (.herd {})) {} [] (by rfl) (by rfl) (by decide)
  have _ := (h.2.2 demo 0 0x7FFFFFC [1, 0, 2, 3] 1 (by rfl) (by decide) (by decide) (by decide)).1 (by decide)
  have _ := (h.2.2 (loadingAt (.check 0) 1) 0 0x3FFFFFF [1] 0 (by rfl) (by decide) (by decide) (by decide)).2 (by decide)
  trivial

/-- V00 of stall 0 has values pending. -/
def tuned : State :=
  modVoice ⟨0, false, 0⟩ (fun x => { x with pend := { ftw := some 5, mask := some 3 }, pendDelay := some 511, pendTrim := some 2 }) demo

theorem witness_VoiceTuningIsPendingUntilItTakesEffect (h : Obligations.VoiceTuningIsPendingUntilItTakesEffect) : True := by
  have _ := h.1 demo 0 ⟨0, false, 0⟩ 0xFFFFFFFF (by decide)
  have _ := h.2.1 demo 1 ⟨0, false, 1⟩ 0x7FFF .held (by decide) (by decide)
  have _ := h.2.2.1 demo 0 ⟨0, false, 0⟩ 0x8000 .granted (by decide) (by decide)
  have _ := h.2.2.1 demo 0 ⟨0, true, 0⟩ 0xFFFF .held (by decide) (by decide)
  have _ := h.2.2.2.1 demo 0 ⟨0, true, 0⟩ .scale 0xFFFF .held (by decide)
  have _ := h.2.2.2.2.1 tuned ⟨0, false, 0⟩ (by decide)
  have _ := h.2.2.2.2.2.1 demo 0 ⟨0, false, 0⟩ 0x1FF .granted (by decide)
  have _ := h.2.2.2.2.2.2 tuned ⟨0, false, 0⟩ (by decide) (by decide)
  trivial

/-- The tuning of V00 of stall 0: the highest scale, an eighth of a turn. -/
def loudTune : Tuning := { scale := 0xFFFF, offset := 0x2000 }

/-- V00 of stall 0 has played the same beat 32 times. -/
def loudBeat : State :=
  modSlice ⟨0, .drive, 0⟩ (fun x => { x with scale := 0xFFFF })
    (modVoice ⟨0, false, 0⟩ (fun x =>
      { x with
        tune := loudTune
        beats := (List.range 32).map fun k =>
          { at_ := beatNow demo - k * fineBeat, i := 0x8000, q := 0x7FFF, marks := 0, tune := loudTune } }) demo)

/-- A sum whose samples are all equal is the sum of the taps times that sample. -/
theorem taps_foldl (f : Nat → Int × Int) (a b : Int) (l : List (Int × Nat)) (h : ∀ x ∈ l, f x.2 = (a, b)) (acc : Int × Int) :
    l.foldl (fun acc h => let e := f h.2; (acc.1 + h.1 * e.1, acc.2 + h.1 * e.2)) acc =
      (acc.1 + (l.map (·.1)).sum * a, acc.2 + (l.map (·.1)).sum * b) := by
  induction l generalizing acc with
  | nil => simp
  | cons x l ih =>
    rw [List.foldl_cons, ih fun y hy => h y (List.mem_cons_of_mem _ hy)]
    simp only [h x List.mem_cons_self, List.map_cons, List.sum_cons, Int.add_mul, Int.add_assoc]

/-- The taps of the bank add up to its gain. -/
theorem interpCoefs_sum (p : Nat) : (interpCoefs p).sum = 65160 + (Config.interpGain p).val := by
  simp only [interpCoefs, List.sum_cons]; omega

/-- The bank's output for that beat, at sample 5 of the beat in progress. -/
theorem loud_env (b : Beat) : ∃ g : Int, 65160 ≤ g ∧ envSample loudBeat ⟨0, false, 0⟩ 1536080 b = (g * -32768, g * 32767) := by
  have h : ∀ k < 32, envAt loudBeat ⟨0, false, 0⟩ ((1536080 : Int) - (k : Nat) * 256) = (-32768, 32767) := by decide +kernel
  refine ⟨(interpCoefs ((1536080 - b.at_) % fineBeat)).sum, ?_, ?_⟩
  · rw [interpCoefs_sum]; omega
  · refine (taps_foldl (fun k => envAt loudBeat ⟨0, false, 0⟩ ((1536080 : Int) - k * 256)) (-32768) 32767 _ ?_ _).trans ?_
    · intro x hx
      have := (List.mem_zipIdx hx).2.1
      simp only [interpCoefs, interpBeats, List.length_cons, List.length_map, List.length_range] at this
      exact h _ (by omega)
    · rw [List.zipIdx_map_fst]; simp

set_option maxRecDepth 8000 in
/-- Its sum passes the 14 bits. -/
theorem loud_clips : clips loudBeat ⟨0, .drive, 0⟩ 96005 = true := by
  have hb : boundVoices loudBeat ⟨0, .drive, 0⟩ = [⟨0, false, 0⟩, ⟨0, false, 1⟩] := by decide +kernel
  have hq : voiceTerm loudBeat ⟨0, false, 1⟩ 96005 = 0 := by rfl
  obtain ⟨b, hs, ht⟩ : ∃ b, (if voiceServed loudBeat ⟨0, false, 0⟩ then beatAt loudBeat ⟨0, false, 0⟩ (96005 * 16) else none) = some b ∧
      b.tune = loudTune := ⟨_, rfl, rfl⟩
  obtain ⟨g, hg, he⟩ := loud_env b
  obtain ⟨c, d, hc, h1, h2⟩ : ∃ c d : Int, cosSin (theta loudTune 96005 ++ 0#1) = (c, d) ∧ 2 ^ 95 ≤ c ∧ 2 ^ 95 ≤ d :=
    ⟨_, _, rfl, by decide +kernel, by decide +kernel⟩
  have hv : voiceTerm loudBeat ⟨0, false, 0⟩ 96005 = 65535 * (g * -32768 * c - g * 32767 * d) := by
    rw [voiceTerm, hs]; simp only [ht, hc]; rw [he]; rfl
  have hx : g * 2 ^ 95 ≤ g * c := Int.mul_le_mul_of_nonneg_left h1 (by omega)
  have hy : g * 2 ^ 95 ≤ g * d := Int.mul_le_mul_of_nonneg_left h2 (by omega)
  have hz : sliceSum loudBeat ⟨0, .drive, 0⟩ 96005 = 65535 * (65535 * (-32768 * (g * c) - 32767 * (g * d)) + (0 + 0)) := by
    rw [sliceSum, hb]; simp only [List.map_cons, List.map_nil, List.sum_cons, List.sum_nil, hv, hq]
    rw [show ((getSlice loudBeat ⟨0, .drive, 0⟩).scale.toNat : Int) = 65535 from rfl]; ring
  simp only [clips, guardedCode, sumCode, hz, bne_iff_ne]
  omega

theorem witness_SliceOutputsFollowTheirRules (h : Obligations.SliceOutputsFollowTheirRules) : True := by
  have _ := (h.1 loudBeat ⟨0, .drive, 0⟩ ⟨0, .drive, 0⟩ 5 _ (by decide) (by decide) (by rfl) (by rfl)).1 loud_clips
  have _ := (h.1 demo ⟨0, .probe, 3⟩ ⟨0, .probe, 3⟩ 15 _ (by decide) (by decide) (by rfl) (by rfl)).2 (by rfl)
  have _ := h.2.1 demo 0 ⟨0, .drive, 7⟩ (by decide) (by decide) (by decide) (by decide)
  have _ := (h.2.2.1 demo 0 ⟨0, .drive, 8⟩ (by decide) (by decide) (by decide) (by decide) 1).2 (by decide)
  have _ := h.2.2.2.1 demo 0 ⟨0, .drive, 7⟩ 0x010F4000 (by decide) (by decide) (by decide) (by decide)
  have _ := h.2.2.2.1 demo 0 ⟨0, .probe, 0⟩ 0x000F4000 (by decide) (by decide) (by decide) (by decide)
  have _ := h.2.2.2.1 demo 0 ⟨1, .probe, 0⟩ 0x010F4000 (by decide) (by decide) (by decide) (by decide)
  have _ := h.2.2.2.2.1 (modSlice ⟨0, .drive, 0⟩ (fun x => { x with attenPend := some 31 }) demo) ⟨0, .drive, 0⟩ (by decide) (by decide) (.inl (by decide))
  have _ := h.2.2.2.2.1 (modSlice ⟨0, .drive, 0⟩ (fun x => { x with attenPend := some 31, port := .open_ }) demo) ⟨0, .drive, 0⟩ (by decide) (by decide) (.inr (by decide))
  have _ := h.2.2.2.2.2.1 (modSlice ⟨0, .probe, 3⟩ (fun x => { x with port := .opening }) demo) ⟨0, .probe, 3⟩ (by decide) (by decide) (by decide)
  have _ := h.2.2.2.2.2.2 demo ⟨2, .drive, 0⟩ (by decide) (by decide) (by decide) (by decide)
  trivial

theorem witness_PostsReachTheSequencer (h : Obligations.PostsReachTheSequencer) : True := by
  have _ := (h (atSeq { startReg := 0x1FB800 }) 0 ⟨0, false, 0⟩ 0x1FFF .granted _ (by rfl) (by decide)).1 (by decide)
  have _ := (h demo 0 ⟨0, true, 0⟩ 0x1FFF .held _ (by rfl) (by decide)).2.1 (by decide)
  have _ := (h (atSeq { state := .play }) 0 ⟨0, false, 0⟩ 0 .granted _ (by rfl) (by decide)).2.2.1 (by decide) (by decide) (by decide)
  have _ := (h (atSeq { state := .hold, committed := true }) 0 ⟨0, false, 0⟩ 0 .held _ (by rfl) (by decide)).2.2.2.1 (by decide) (by decide)
  have _ := (h (atSeq { state := .play }) 0 ⟨0, false, 0⟩ 0x1FFF .granted _ (by rfl) (by decide)).2.2.2.2.1 (by decide) (by decide) (by decide)
  have _ := (h (atSeq { state := .hold, rep := 4095 }) 0 ⟨0, false, 0⟩ 0 .held _ (by rfl) (by decide)).2.2.2.2.2.1 (by decide) (by decide) (by decide) (by decide)
  have _ := (h (atSeq { state := .waiting }) 0 ⟨0, false, 0⟩ 0 .granted _ (by rfl) (by decide)).2.2.2.2.2.2.1 (by decide) (by decide) (by decide)
  have _ := (h (atSeq { state := .stream, sel := some (.alt, false) }) 0 ⟨0, false, 0⟩ 0 .held _ (by rfl) (by decide)).2.2.2.2.2.2.2.1 (by decide) (by decide) (by decide)
  have _ := (h demo 0 ⟨0, false, 0⟩ 0 .granted _ (by rfl) (by decide)).2.2.2.2.2.2.2.2 _ _ (.inr (.inr (.inl ⟨rfl, rfl⟩))) _ (by rfl)
  trivial

theorem witness_PlaysStartRepeatAndEnd (h : Obligations.PlaysStartRepeatAndEnd) : True := by
  have _ := h.1 (atSeq { start := some (9, 1536001), prim := [{ idx := 9, desc := playDesc, state := .ready }] }) ⟨0, false, 0⟩ 9 1536001 _ [] (by rfl) (by rfl) (by rfl) (by rfl) (by decide)
  have _ := (h.2.1 ({ atSeq { alt := some { idx := 9, desc := 0, state := .loading } } with descs := [(37, 9)] }) ⟨0, false, 0⟩ _ (by rfl) (by rfl) (by decide)).1 (by decide +kernel)
  have _ := (h.2.1 (atSeq { alt := some { idx := 9, desc := 0, state := .loading } }) ⟨0, false, 0⟩ _ (by rfl) (by rfl) (by decide)).2 _ (by rfl)
  have _ := h.2.2.1 (atSeq { state := .play, desc := playDesc }) ⟨0, false, 0⟩ (by decide) (by decide) (by decide)
  have _ := h.2.2.2.1 (atSeq { state := .play, desc := playDesc + 0xFFF0000000000000, rep := 4094 }) ⟨0, false, 0⟩ (by decide) (by decide) (by decide) (by decide)
  have _ := (h.2.2.2.2 (atSeq { state := .play, desc := playDesc + 0x10000000, committed := true }) ⟨0, false, 0⟩ (by decide) (by decide) (by decide) (by decide)).1 (by decide)
  have _ := (h.2.2.2.2 (atSeq { state := .play, desc := playDesc, committed := true, prim := [{ idx := 9, desc := playDesc, state := .ready }] }) ⟨0, false, 0⟩ (by decide) (by decide) (by decide) (by decide)).2 _ [] 9 (by decide) (by rfl) (by rfl) (by decide) (by decide)
  trivial

theorem witness_StreamsAndThePageWindow (h : Obligations.StreamsAndThePageWindow) : True := by
  have _ := h.1 (atSeq { state := .stream }) ⟨0, false, 0⟩ (by decide) (by decide) (by decide)
  have _ := h.2.1 ({ atSeq { state := .stream, under := true, play := { queue := 9, toTake := 5 } } with
    stallImages := [(0, { demoImage with queues := (9, { prods := [(.host, 16)], consumer := some (.voice ⟨0, false, 0⟩) }) :: demoImage.queues })]
    queues := [(9, { stored := [{ word := 0x7FFF, eoi := true, port := 0 }] })] }) _ ⟨0, false, 0⟩ _ (by decide) (by decide) (by decide) (by decide) (by decide) (by decide) (by decide +kernel) (by decide +kernel) (by rfl)
  have _ := (h.2.2 (modStall 0 (fun x => { x with envPage := 2 }) demo) 0 0 2097151 0xFFFFFFFF (by decide)).1 6291455 (by decide) (by decide)
  have _ := (h.2.2 (modStall 0 (fun x => { x with envPage := 3 }) demo) 0 0 32767 0xFFFFFFFF (by decide)).2 32767 (by decide) (by decide)
  trivial

theorem witness_ReadoutSettingsWaitForTheirInstant (h : Obligations.ReadoutSettingsWaitForTheirInstant) : True := by
  have _ := h.1 demo 0 0 3 0x20000 (by decide) (by decide)
  have _ := h.2.1 demo 0 0 0x20000 (by decide)
  have _ := h.2.2.1 (modAcq 0 0 (fun x => { x with range := 2 }) demo) 0 0 0 (by decide) (by decide) (by decide) (by decide)
  have _ := (h.2.2.2.1 demo 0 ⟨0, 63⟩ 0x201 (by decide)).1 (by decide)
  have _ := (h.2.2.2.1 demo 0 ⟨0, 63⟩ 0x301 (by decide)).2 (by decide)
  have _ := h.2.2.2.2.1 (atChan fun x => { x with filter := 2 }) ⟨0, 0⟩ (by decide) (by decide)
  have _ := h.2.2.2.2.2.1 demo 0 ⟨0, 0⟩ .int_ 16 (by decide) (by decide)
  have _ := h.2.2.2.2.2.1 demo 0 ⟨0, 1⟩ (.c 2) 0xFFFFFFFF (by decide) (by decide)
  have _ := h.2.2.2.2.2.2.1 (atChan fun x => { x with stagedInt := { bank := true, shift := 16 } }) 0 ⟨0, 0⟩ (by decide)
  have _ := h.2.2.2.2.2.2.2 (modStall 0 (fun x => { x with kernelBank := true }) demo) 0 0 4095 0x7FFF8000 (by decide) (by decide)
  trivial

theorem witness_WindowsOpenAndDecide (h : Obligations.WindowsOpenAndDecide) : True := by
  have _ := h.1 (atChan fun x => { x with latch := some { start := 1000, len := 4096, rider := 0, shot := 1, late := true }, pendPlane := some { en := 7 } }) ⟨0, 0⟩ _ (by rfl) (by rfl) (by decide)
  have _ := h.2.1 (atChan fun x => { x with win := some window }) 0 0 0 63360 (by decide)
  have _ := h.2.2 ({ atChan fun x => { x with win := some window } with kernels := [(0, 0x7FFF), (15, 0x8000)] }) ⟨0, 0⟩ { codesFrom := 63360, codes := [2047, -2048, 7] } _ (by rfl)
  trivial

theorem witness_CapturesAreArmedAndEnd (h : Obligations.CapturesAreArmedAndEnd) : True := by
  have _ := (h.1 (atUnit fun x => { x with cfg := rawCfg 0 }) 0 ⟨0, 0⟩ (by decide)).1 (by decide +kernel)
  have _ := (h.1 (armedUnit 0 id) 0 ⟨0, 0⟩ (by decide)).2.1 0x1402 (by decide)
  have _ := (h.1 demo 0 ⟨0, 3⟩ (by decide)).2.2.1 (by decide)
  have _ := (h.1 (armedUnit 0 fun x => { x with record := some { trigFrame := 900, trigPos := 0, sample := 57600 } }) 0 ⟨0, 0⟩ (by decide)).2.2.2.1 (by decide)
  have _ := (h.1 (atUnit fun x => { x with ringPage := 16, ringBytes := 1048576 }) 0 ⟨0, 0⟩ (by decide)).2.2.2.2 (by decide) (by decide)
  have _ := h.2.1 (armedUnit 0 fun x => { x with record := some { trigFrame := 900, trigPos := 0, sample := 57600 } }) ⟨0, 0⟩ {} _ (by rfl)
  have _ := h.2.2 (armedUnit 0 fun x => { x with wr := 128, used := 128 }) 0 ⟨0, 0⟩ 128 (by decide) (by decide) (.inl (by decide))
  trivial

theorem witness_TriggersAndGapsOfACapture (h : Obligations.TriggersAndGapsOfACapture) : True := by
  have _ := (h.1 (armedUnit 0 id) 0 ⟨0, 0⟩ _ (by decide) rfl).1 (by decide)
  have _ := (h.1 demo 0 ⟨0, 3⟩ _ (by decide) rfl).2 (by decide)
  have _ := h.2.1 (armedUnit 0 fun x => { x with waiting := [{ frame := 1000, force := true }] }) ⟨0, 0⟩ _ (by rfl) (by decide) (by decide) (by decide)
  have _ := (h.2.2.1 (armedUnit 1 id) ⟨0, 0⟩ 63999 _ { codesFrom := 63999, codes := [96, 101] } _ (by decide) (by rfl) (by decide) (.inl (by decide +kernel)) rfl rfl (by decide +kernel)).1 (by decide +kernel)
  have _ := (h.2.2.1 (armedUnit 1 fun x => { x with arm := { x.arm with slope := 1 }, record := some { trigFrame := 900, trigPos := 0, sample := 57600 } }) ⟨0, 0⟩ 63998 _ { codesFrom := 63998, codes := [104, 100] } _ (by decide) (by rfl) (by decide) (.inr (by decide +kernel)) rfl rfl (by decide +kernel)).2 _ (by rfl) (by rfl) (by rfl) (by decide +kernel) (by decide +kernel)
  have _ := h.2.2.2.1 (armedUnit 4 fun x => { x with arm := { x.arm with time := 0x1F4000 } }) ⟨0, 0⟩ _ (by rfl) (by rfl) rfl (by decide) (by decide)
  have _ := h.2.2.2.2.1 (armedUnit 0 fun x => { x with hobble := .frames 1001 }) ⟨0, 0⟩ 1001 (by rfl)
  have _ := h.2.2.2.2.2.1 (armedUnit 0 id) ⟨0, 0⟩ (by decide) (by rfl) (by rfl) (.inr (by decide))
  have _ := (h.2.2.2.2.2.2 (armedUnit 0 fun x => { x with gap := some { cause := 0, first := 990, last := 990, store := true } }) ⟨0, 0⟩ _ (by rfl) (by decide) (by decide) (by decide) (by decide)).1 (by decide)
  have _ := (h.2.2.2.2.2.2 (armedUnit 0 fun x => { x with gap := some { cause := 0, first := 990, last := 990, store := true, until_ := 1536001 } }) ⟨0, 0⟩ _ (by rfl) (by decide) (by decide) (by decide) (by decide)).2 (by decide)
  trivial

/-- The hub's planes serve as given, and one copy is in flight. -/
def carrying (a b : Bool) (f : Flight) : State :=
  { demo with
    hub := { planeA := if a then { state := .service, entry := true } else {}, planeB := if b then { state := .service, entry := true } else {} }
    flights := [(4, f)], nextFlight := 5 }

/-- A copy to a blanking input of a comparator, at a stage. -/
def copyTo (d : Consumer) (stage : Stage) (hop : BitVec 3) : Flight := { tok := token hop, src := .node 0, port := 7, dst := d, stage }

/-- A copy in the planes on its way to C00's cell input. -/
def planed (gotA gotB : Bool) (va vb : BitVec 2) : Flight :=
  { copyTo (.cellInput (.node 0 0) 0) .planes 1 with a := some { token 1 with value := va }, b := some { token 1 with value := vb }, gotA, gotB }

theorem witness_TokensTravelThroughTheFabric (h : Obligations.TokensTravelThroughTheFabric) : True := by
  have _ := h.1 (modVoice ⟨0, false, 0⟩ (fun x => { x with tune := { mask := 8 }, beats := [{ at_ := beatNow demo, i := 0, q := 0, marks := 8, tune := {} }] }) demo) ⟨0, false, 0⟩ 3 true (by decide) (by decide)
  have _ := ((h.2.1 (carrying true false (copyTo (.cellInput (.node 0 0) 0) .hubLink 6)) 4 _ (by rfl) (by decide)).1 0 2 70000 (by decide) (by decide) (by decide) (by decide)).1 (by decide) (by decide)
  have _ := ((h.2.1 (carrying true true (copyTo (.cellInput (.node 0 0) 0) .hubLink 7)) 4 _ (by rfl) (by decide)).1 0 2 70000 (by decide) (by decide) (by decide) (by decide)).2.1 (by decide) (by decide)
  have _ := ((h.2.1 (carrying false false (copyTo (.cellInput (.node 0 0) 0) .hubLink 0)) 4 _ (by rfl) (by decide)).1 0 2 70000 (by decide) (by decide) (by decide) (by decide)).2.2 (by decide) (by decide)
  have _ := ((h.2.1 (carrying true true (planed true false 3 3)) 4 _ (by rfl) (by decide)).2.1 true _ 9 (by decide) (by decide) (by rfl) (by decide)).1 (.inr (by decide))
  have _ := ((h.2.1 (carrying true true (planed false false 3 3)) 4 _ (by rfl) (by decide)).2.1 false _ 9 (by decide) (by decide) (by rfl) (by decide)).2.1 (by decide) (by decide)
  have _ := ((h.2.1 (carrying true true (planed true false 3 2)) 4 _ (by rfl) (by decide)).2.1 true _ 9 (by decide) (by decide) (by rfl) (by decide)).2.2 (by decide) (by decide) (by decide)
  have _ := (h.2.1 (carrying true true (planed true false 3 3)) 4 _ (by rfl) (by decide)).2.2.1 _ (by decide) (by decide) (by decide) (by decide) (by rfl)
  have _ := ((h.2.1 (carrying true true (copyTo (.blank 0) .exit 1)) 4 _ (by rfl) (by decide)).2.2.2 1 (by decide) (by decide)).1 0 (by decide) (by decide) (by decide)
  have _ := ((h.2.1 (carrying true true (copyTo (.cellInput (.node 1 0) 0) .local_ 1)) 4 _ (by rfl) (by decide)).2.2.2 1 (by decide) (by decide)).2.1 1 (by decide)
  have _ := ((h.2.1 { carrying true true (copyTo (.taskInput ⟨0, 1⟩ 3) .exit 1) with herdImage := some { chans := [(5, { owner := 2 })] }, riders := [(1, { state := .running })] } 4 _ (by rfl) (by decide)).2.2.2 1 (by decide) (by decide)).2.2 (by decide) (by decide)
  have _ := h.2.2 (carrying true true (copyTo (.blank 0) .exit 1)) 0 5 3 true .held (by decide) (by decide) (by decide)
  trivial

/-- Stall 0 with two cells: B000, a flip-flop on E0005 and E0006 that owner 1 may write, and B255, which issues and marks an expired join. -/
def celled (c : Cell) (b : Fin 256) : State :=
  modCell (.node 0 b) (fun _ => c)
    { demo with
      stallImages := [(0, { demoImage with
        node := { cells := [(0, { used := true, ffEn := true, owner := 1, inputs := [{ joined := true, source := .chan 5 }, { joined := true, source := .chan 6 }], table := 0xC0 }),
          (255, { used := true, expireInv := true, emitMask := 0xF, inputs := [{ joined := true, source := .chan 5 }], table := 0xC })] } })] }

theorem witness_CellsEvaluateAndHoldTheirBits (h : Obligations.CellsEvaluateAndHoldTheirBits) : True := by
  have _ := (h.1 (celled { latches := [(0, [token 1]), (1, [token 2, token 3])] } 0) 0 0 _ (by decide) rfl).1 (by decide)
  have _ := (h.1 (celled { latches := [(0, [token 1])] } 255) 0 255 _ (by decide) rfl).1 (by decide)
  have _ := (h.1 (celled { latches := [(0, [token 1])], join := some 7 } 0) 0 0 _ (by decide) rfl).2.1 (by decide)
  have _ := (h.1 (celled { cand := some (2, true, 1), filterRun := true } 255) 0 255 _ (by decide) rfl).2.2 (by decide)
  have _ := h.2.1 (celled {} 0) 1 0 0 3 true (by decide) (by decide)
  have _ := h.2.2.1 (celled { ffValue := 3, ffInv := true } 0) 1 0 (by decide)
  have _ := h.2.2.2.1 (celled {} 0) 1 0 0 0xFF01 (by decide)
  have _ := h.2.2.2.2 demo 0 1023 0xFF01 (by decide)
  trivial

/-- The hub with its planes in given states. -/
def hubIn (a b : HubPlane) (pend : List HubAction) : State := { demo with hub := { planeA := a, planeB := b, pend } }

/-- A plane that serves and takes entries. -/
def served : HubPlane := { state := .service, entry := true }

theorem witness_PlanesLeaveRejoinAndBooksBalance (h : Obligations.PlanesLeaveRejoinAndBooksBalance) : True := by
  have _ := h.1 (hubIn served served []) true 2 none (some 1023) (by decide)
  have _ := h.2.1 demo 0 3 (some 5) none (by decide)
  have _ := h.2.1 (modNode 2 (fun x => { x with cause := 1 }) demo) 2 3 (some 5) none (by decide)
  have _ := (h.2.2.1 (hubIn served {} []) 65535).1 false (by decide)
  have _ := (h.2.2.1 demo 65535).2 2 (by decide)
  have _ := (h.2.2.2.1 (hubIn served served []) 0 true (by decide)).1 (by decide) (by decide)
  have _ := (h.2.2.2.1 (hubIn served {} []) 0 true (by decide)).2 (by decide) (by decide)
  have _ := h.2.2.2.2.1 (hubIn served { state := .rejoin } []) true (by decide) (by decide)
  have _ := (h.2.2.2.2.2.1 (hubIn served served [.takeOut true]) true (by decide)).1 (by decide) (by decide) (by decide)
  have _ := (h.2.2.2.2.2.1 (hubIn served { state := .rejoin } [.rejoin true]) true (by decide)).2.1 (by decide)
  have _ := (h.2.2.2.2.2.1 (modCell (.hub false 1023) (fun x => { x with pendFilter := some (255, 1) }) (hubIn served served [])) true (by decide)).2.2 (by decide) 1023 255 1 (by decide)
  have _ := h.2.2.2.2.2.2.1 (hubIn served served []) 0 4095 (by decide) (by decide)
  have _ := h.2.2.2.2.2.2.2 { carrying true true (copyTo (.blank 0) .exit 1) with hub := { audit := { op := opStart, chan := 5, held := true } }, books := [(5, { issued := 1 })] } _ _ (by decide) rfl rfl
  trivial

theorem witness_RiderWordsComputeAndSequence (h : Obligations.RiderWordsComputeAndSequence) : True := by
  have _ := (h (atRider (mw 0 0 0 0 0) id demo) ⟨0, 0⟩ (mw 0 0 0 0 0) {} (by decide +kernel)).1 (by decide) (by decide)
  have _ := (h (atRider (mw 0 1 0 0 (0xFFFF <<< 32)) id demo) ⟨0, 0⟩ (mw 0 1 0 0 (0xFFFF <<< 32)) {} (by decide +kernel)).2.1 (by decide) (by decide)
  have _ := (h (atRider (mw 0 2 0 0 0) (fun x => { x with stack := [1, 2, 3, 4, 5, 6, 7] }) demo) ⟨0, 0⟩ (mw 0 2 0 0 0) {} (by decide +kernel)).2.2.1 (by decide) (by decide) (by decide)
  have _ := (h (atRider (mw 0 3 0 0 0) (fun x => { x with stack := [99] }) demo) ⟨0, 0⟩ (mw 0 3 0 0 0) {} (by decide +kernel)).2.2.2.1 _ _ (by decide) (by decide) (by rfl)
  have _ := (h (atRider (mw 0 4 0 0 0) (fun x => { x with stack := [99], inHandler := true }) demo) ⟨0, 0⟩ (mw 0 4 0 0 0) {} (by decide +kernel)).2.2.2.2.1 _ _ (by decide) (by decide) (by rfl) (by decide)
  have _ := (h (atRider (mw 0 5 0 0 0) (fun x => { x with shot := { active := true } }) demo) ⟨0, 0⟩ (mw 0 5 0 0 0) {} (by decide +kernel)).2.2.2.2.2.1 (by decide) (by decide)
  have _ := (h (atRider (mw 1 0 0 0 (3 <<< 124 ||| 15 <<< 120 ||| 1 <<< 111 ||| 1 <<< 160)) (fun x => { x with regs := [(15, 0xFFFFFFFF)] }) demo) ⟨0, 0⟩ (mw 1 0 0 0 (3 <<< 124 ||| 15 <<< 120 ||| 1 <<< 111 ||| 1 <<< 160)) {} (by decide +kernel)).2.2.2.2.2.2.1 (by decide) (by decide)
  have _ := (h (atRider (mw 1 0 7 0 0) id demo) ⟨0, 0⟩ (mw 1 0 7 0 0) {} (by decide +kernel)).2.2.2.2.2.2.1 (by decide) (by decide)
  have _ := (h (atRider (mw 2 0 2 0 (1 <<< 8 ||| 5 <<< 160 ||| 7 <<< 192)) id demo) ⟨0, 0⟩ (mw 2 0 2 0 (1 <<< 8 ||| 5 <<< 160 ||| 7 <<< 192)) {} (by decide +kernel)).2.2.2.2.2.2.2.1 (by decide) (by decide)
  have _ := (h (atRider (mw 3 0 0 0 (3 <<< 10)) (fun x => { x with inputs := [(3, { latch := [(token 7, true)] })] }) demo) ⟨0, 0⟩ (mw 3 0 0 0 (3 <<< 10)) {} (by decide +kernel)).2.2.2.2.2.2.2.2.1 (by decide) (by decide)
  have _ := (h (atRider (mw 6 0 0 0 (15 <<< 160)) id demo) ⟨0, 0⟩ (mw 6 0 0 0 (15 <<< 160)) {} (by decide +kernel)).2.2.2.2.2.2.2.2.2 (by decide) (by decide)
  trivial

/-- Queues 4 and 5 of stall 0: H00 has 16 credits for the one, and the other holds a word for it. -/
def queued : State := { demo with queues := [(4, { prods := [(0, { credits := 16 })] }), (5, { stored := [{ word := 9, eoi := true, port := 0 }] })] }

theorem witness_RiderWordsReachOtherUnits (h : Obligations.RiderWordsReachOtherUnits) : True := by
  have _ := ((h (atRider (mw 4 0 15 4 (1 <<< 48)) id queued) ⟨0, 0⟩ (mw 4 0 15 4 (1 <<< 48)) {} (by decide +kernel) (by decide)).1 4 { prods := [(.rider ⟨0, 0⟩, 16)], consumer := some (.rider ⟨0, 1⟩) } 0 (by decide) (by decide)).1 (by decide) (by decide) (by decide)
  have _ := ((h (atRider (mw 5 0 0 5 (1 <<< 48)) id queued) ⟨0, 0⟩ (mw 5 0 0 5 (1 <<< 48)) {} (by decide +kernel) (by decide)).1 5 {} 0 (by decide) (by decide)).2 _ _ (by decide) (by rfl)
  have _ := (h (atRider (mw 7 0 0 0 0) id demo) ⟨0, 0⟩ (mw 7 0 0 0 0) {} (by decide +kernel) (by decide)).2.1 (by decide) (by decide) (by decide)
  have _ := (h (atRider (mw 7 0 1 0 0) (fun x => { x with shot := { active := true, num := 0xFFFFFFFF } }) queued) ⟨0, 0⟩ (mw 7 0 1 0 0) {} (by decide +kernel) (by decide)).2.2.1 (by decide) (by decide) (by decide)
  have _ := (h (atRider (mw 0x11 0 0 0 (4095 <<< 144)) id (atChan fun x => { x with enable := true, win := some window })) ⟨0, 0⟩ (mw 0x11 0 0 0 (4095 <<< 144)) {} (by decide +kernel) (by decide)).2.2.2.1 ⟨0, 0⟩ 4096 _ (by decide) (by decide) (by decide) (by decide) (by rfl) rfl
  have _ := ((h (atRider (mw 0x12 0 0 5 (7 <<< 160)) id demo) ⟨0, 0⟩ (mw 0x12 0 0 5 (7 <<< 160)) {} (by decide +kernel) (by decide)).2.2.2.2.1 5 7 (Token.mk 5 .emission 0 true 3) (by decide) (by decide) (by decide) (by decide)).1 (.inl (by decide)) (by decide)
  have _ := ((h (atRider (mw 0x12 0 1 5 0) (fun x => { x with regs := [(0, 0x33)] }) demo) ⟨0, 0⟩ (mw 0x12 0 1 5 0) {} (by decide +kernel) (by decide)).2.2.2.2.1 5 0x33 (Token.mk 5 .emission 7 false 3) (by decide) (by decide) (by decide) (by decide)).2.1 (by decide) (by decide) (by decide)
  have _ := ((h (atRider (mw 0x12 0 1 5 0) (fun x => { x with regs := [(0, 0x3B)] }) demo) ⟨0, 0⟩ (mw 0x12 0 1 5 0) {} (by decide +kernel) (by decide)).2.2.2.2.1 5 0x3B (token 0) (by decide) (by decide) (by decide) (by decide)).2.2 (by decide) (by decide)
  have _ := (h (atRider (mw 0x13 0 0 7 (7 <<< 160)) id demo) ⟨0, 0⟩ (mw 0x13 0 0 7 (7 <<< 160)) {} (by decide +kernel) (by decide)).2.2.2.2.2.1 (.node 0 7) (by decide) (by decide) (by decide) (by decide)
  have _ := (h (atRider (mw 0x13 0 1 0 0) id demo) ⟨0, 0⟩ (mw 0x13 0 1 0 0) {} (by decide +kernel) (by decide)).2.2.2.2.2.2.1 (by decide) (by decide)
  have _ := ((h (atRider (mw 0x14 0 0 0 0) (fun x => { x with times := [(0, 0x1F4800)] }) (armedUnit 5 id)) ⟨0, 0⟩ (mw 0x14 0 0 0 0) {} (by decide +kernel) (by decide)).2.2.2.2.2.2.2 ⟨0, 0⟩ _ (by decide) (by decide) (by decide) (by decide) (by decide) rfl).1 (by decide)
  have _ := ((h (atRider (mw 0x14 0 0 0 0) (fun x => { x with times := [(0, 0x1F4000)] }) (armedUnit 5 id)) ⟨0, 0⟩ (mw 0x14 0 0 0 0) {} (by decide +kernel) (by decide)).2.2.2.2.2.2.2 ⟨0, 0⟩ _ (by decide) (by decide) (by decide) (by decide) (by decide) rfl).2 (by decide) (by decide)
  trivial

theorem witness_RiderPostsReachVoicesAndLines (h : Obligations.RiderPostsReachVoicesAndLines) : True := by
  have _ := ((h (atRider (mw 8 0 0 0 (8191 <<< 128)) (fun x => { x with times := [(0, 0x1F4A00)] }) demo) ⟨0, 0⟩ (mw 8 0 0 0 (8191 <<< 128)) {} (by decide +kernel) (by decide)).1 ⟨0, false, 0⟩ (by decide)).1 (by decide) (by decide)
  have _ := ((h (atRider (mw 9 0 0 64 0) id demo) ⟨0, 0⟩ (mw 9 0 0 64 0) {} (by decide +kernel) (by decide)).1 ⟨0, true, 0⟩ (by decide)).2.1 (by decide) (by decide)
  have _ := (((h (atRider (mw 0xA 0 0 0 0) id (atSeq { state := .play })) ⟨0, 0⟩ (mw 0xA 0 0 0 0) {} (by decide +kernel) (by decide)).1 ⟨0, false, 0⟩ (by decide)).2.2.1 (by decide) (by decide) (by decide)).1 (by decide)
  have _ := (((h (atRider (mw 0xB 0 0 0 0) id (atSeq { state := .stream })) ⟨0, 0⟩ (mw 0xB 0 0 0 0) {} (by decide +kernel) (by decide)).1 ⟨0, false, 0⟩ (by decide)).2.2.1 (by decide) (by decide) (by decide)).2.1 (by decide)
  have _ := (((h (atRider (mw 0xD 0 0 0 0) id (atSeq { state := .hold })) ⟨0, 0⟩ (mw 0xD 0 0 0 0) {} (by decide +kernel) (by decide)).1 ⟨0, false, 0⟩ (by decide)).2.2.1 (by decide) (by decide) (by decide)).2.2 (by decide)
  have _ := ((h (atRider (mw 0xC 0 0 0 0) id (atSeq { state := .hold })) ⟨0, 0⟩ (mw 0xC 0 0 0 0) {} (by decide +kernel) (by decide)).1 ⟨0, false, 0⟩ (by decide)).2.2.2.1 (by decide) (by decide) (by decide) (by decide) (by decide)
  have _ := ((h (atRider (mw 0xF 0 0 0 (0x7FFF <<< 192)) id demo) ⟨0, 0⟩ (mw 0xF 0 0 0 (0x7FFF <<< 192)) {} (by decide +kernel) (by decide)).1 ⟨0, false, 0⟩ (by decide)).2.2.2.2.1 (by decide) (.inr (by decide))
  have _ := ((h (atRider (mw 0xF 0 9 0 (511 <<< 160)) id demo) ⟨0, 0⟩ (mw 0xF 0 9 0 (511 <<< 160)) {} (by decide +kernel) (by decide)).1 ⟨0, false, 0⟩ (by decide)).2.2.2.2.1 (by decide) (.inl (by decide))
  have _ := (((h (atRider (mw 0xE 0 0 0 (1 <<< 48)) id (atSeq { state := .hold })) ⟨0, 0⟩ (mw 0xE 0 0 0 (1 <<< 48)) {} (by decide +kernel) (by decide)).1 ⟨0, false, 0⟩ (by decide)).2.2.2.2.2 (by decide) (by decide)).1 (by decide)
  have _ := (((h (atRider (mw 0xE 0 0 0 (1 <<< 48 ||| 8 <<< 84)) (fun x => { x with inputs := [(0, { latch := [(token 7, true)] })] }) (atSeq { state := .play })) ⟨0, 0⟩ (mw 0xE 0 0 0 (1 <<< 48 ||| 8 <<< 84)) {} (by decide +kernel) (by decide)).1 ⟨0, false, 0⟩ (by decide)).2.2.2.2.2 (by decide) (by decide)).2 _ _ _ (by rfl) (by rfl)
  have _ := ((h (atRider (mw 0x10 0 0 63 (0x3FFFFF <<< 160)) id demo) ⟨0, 0⟩ (mw 0x10 0 0 63 (0x3FFFFF <<< 160)) {} (by decide +kernel) (by decide)).2 ⟨0, 63⟩ (by decide) (by decide) (by decide)).1 (by decide) (by decide)
  have _ := ((h (atRider (mw 0x10 0 2 63 (0x3FFFF <<< 160)) id demo) ⟨0, 0⟩ (mw 0x10 0 2 63 (0x3FFFF <<< 160)) {} (by decide +kernel) (by decide)).2 ⟨0, 63⟩ (by decide) (by decide) (by decide)).2.1 (by decide) (by decide)
  have _ := ((h (atRider (mw 0x10 0 1 0 (0xFFFF <<< 160)) id demo) ⟨0, 0⟩ (mw 0x10 0 1 0 (0xFFFF <<< 160)) {} (by decide +kernel) (by decide)).2 ⟨0, 0⟩ (by decide) (by decide) (by decide)).2.2 _ (by decide) (by decide) rfl (by decide)
  trivial

/-- H00 of stall 0 in a state, at a word. -/
def riderIn (st : RiderState) (w : MicroWord) (f : Rider → Rider) : State := modRider ⟨0, 0⟩ (fun x => { x with state := st }) (atRider w f demo)

theorem witness_RidersWaitStartAndStop (h : Obligations.RidersWaitStartAndStop) : True := by
  have _ := (h.1 (riderIn .waiting (mw 0 0 0 0 (1 <<< 48 ||| 9 <<< 15 ||| 12 <<< 20 ||| 1 <<< 25)) (fun x => { x with flags := { tmo := true, z := true } })) ⟨0, 0⟩ _ (by rfl)).1 (by decide) (by decide) (by decide) (by decide) (by decide) (by decide)
  have _ := (h.1 (riderIn .waiting (mw 0 0 0 0 (1 <<< 48 ||| 1 <<< 15 ||| 0x99 <<< 64)) id) ⟨0, 0⟩ _ (by rfl)).2.1 (by decide) (by decide)
  have _ := (h.1 (riderIn .held (mw 0xF 0 1 64 (0x8000 <<< 160)) id) ⟨0, 0⟩ _ (by rfl)).2.2.1 (by decide) (by decide) (by decide) (by decide) (by decide)
  have _ := (h.1 (riderIn .stopped 0 (fun x => { x with release := true, stack := [1] })) ⟨0, 0⟩ _ (by rfl)).2.2.2 (by decide) (by decide)
  have _ := (h.2.1 demo 0 ⟨0, 0⟩ (by decide)).1 (by decide)
  have _ := (h.2.1 demo 0 ⟨1, 15⟩ (by decide)).2.1 0x1704 (by decide)
  have _ := (h.2.1 (riderIn .running 0 id) 0 ⟨0, 0⟩ (by decide)).2.2.1 (by decide)
  have _ := (h.2.1 (riderIn .forked 0 (fun x => { x with shot := { active := true } })) 0 ⟨0, 0⟩ (by decide)).2.2.2.1 (by decide)
  have _ := (h.2.1 (riderIn .running 0 id) 0 ⟨0, 0⟩ (by decide)).2.2.2.2.1 (by decide)
  have _ := (h.2.1 (riderIn .waiting (mw 0 0 0 0 (1 <<< 48 ||| 1 <<< 15)) (fun x => { x with fault := { handler := 0x4000 } })) 0 ⟨0, 0⟩ (by decide)).2.2.2.2.2 (by decide) (by decide) (by decide) (by decide)
  have _ := (h.2.2.1 demo 0 0 524286 9 (by decide)).1 (by decide)
  have _ := (h.2.2.1 demo 0 1 524287 0 (by decide)).2 (by decide) (by decide +kernel)
  have _ := (h.2.2.2.1 demo 0 ⟨0, 15⟩ (.l 15) 9 (by decide)).1 (by decide)
  have _ := (h.2.2.2.1 demo 0 ⟨0, 15⟩ (.tHi 3) 9 (by decide)).1 (by decide)
  have _ := (h.2.2.2.1 (riderIn .running 0 id) 0 ⟨0, 0⟩ (.tLo 0) 9 (by decide)).2 (by decide)
  have _ := h.2.2.2.2 demo 0 ⟨0, 0⟩ 0xFFFF (by decide) (by decide)
  trivial

/-- F00 of stall 0 in a state. -/
def atLine (x : Line) (y : Fast) : State := modFast ⟨0, 0⟩ (fun _ => y) (modLine ⟨0, 0⟩ (fun _ => x) demo)

theorem witness_FluxLinesFollowTheirRegisters (h : Obligations.FluxLinesFollowTheirRegisters) : True := by
  have _ := (h.1 demo 0 ⟨0, 63⟩ 0x3FFFFF .granted _ rfl).1 (by decide) (by decide)
  have _ := (h.1 demo 0 ⟨2, 63⟩ 0x3FFFFF .held _ rfl).1 (by decide) (by decide)
  have _ := (h.1 demo 0 ⟨0, 63⟩ 0xFFFF0001 .granted _ rfl).2.1 (by decide) (by decide) (by decide) (by decide)
  have _ := (h.1 demo 0 ⟨2, 63⟩ 0x3FFFFF .held _ rfl).2.2.1 (by decide)
  have _ := (h.1 (atLine { genHi := 9, connected := true } { en := true, level := 9, posts := [⟨1001, 1⟩] }) 0 ⟨0, 0⟩ 0x20000 .granted _ rfl).2.2.2.1 (by decide) (by decide)
  have _ := (h.1 (atLine { genHi := 9, connected := true } {}) 0 ⟨0, 0⟩ 0x100 .held _ rfl).2.2.2.1 (by decide) (by decide)
  have _ := (h.1 demo 0 ⟨0, 63⟩ 0xFFFFFFFF .granted _ rfl).2.2.2.2.1 .cfg (by decide) (by decide)
  have _ := (h.1 (atLine {} { posts := [⟨2000, 1⟩, ⟨2001, 1⟩, ⟨2002, 1⟩, ⟨2003, 1⟩] }) 0 ⟨0, 0⟩ 0x8000 .held _ rfl).2.2.2.2.2.1 (by decide) (by decide) (by decide)
  have _ := (h.1 (atLine {} { posts := [⟨2000, 1⟩, ⟨2001, 1⟩, ⟨2002, 1⟩] }) 0 ⟨0, 0⟩ 0x8000 .granted _ rfl).2.2.2.2.2.1 (by decide) (by decide) (by decide)
  have _ := (h.1 demo 0 ⟨1, 63⟩ 0xFFFF .held _ rfl).2.2.2.2.2.2 31 (by decide) (by decide)
  have _ := h.2.1 (atLine { goal := { code := 0x1FFFF }, dc := .ramping, connected := true } {})
  have _ := h.2.2.1 (atLine { goal := { span := 3 }, dc := .switching, entering := some 3, connected := true } {}) ⟨0, 0⟩ 3 (by rfl) (by rfl)
  have _ := h.2.2.2 (atLine {} { en := true, posts := [⟨1000, 0x8000⟩] }) ⟨0, 0⟩ _ [] (by rfl) (by decide)
  trivial

theorem witness_GroupFaultsZeroTheFastPath (h : Obligations.GroupFaultsZeroTheFastPath) : True := by
  have _ := h.1 (atLine { dc := .halter } { level := 9, posts := [⟨1001, 1⟩] }) ⟨0, 0⟩
  have _ := h.2.1 demo ⟨0, 63⟩
  have _ := (h.2.2.1 (atLine { dc := .switching, entering := some 3 } {}) ⟨0, 0⟩ 3 3 (by rfl) (by rfl)).1 (by decide)
  have _ := (h.2.2.1 (atLine { dc := .switching, entering := some 3 } {}) ⟨0, 0⟩ 3 0 (by rfl) (by rfl)).2 (by decide)
  have _ := h.2.2.2 (modGroup ⟨0, 7⟩ (fun x => { x with cause := 2, faulted := true }) demo) 0 ⟨0, 7⟩ false (by decide) (by decide)
  trivial

theorem witness_TheCurbBoundsEveryMove (h : Obligations.TheCurbBoundsEveryMove) : True := by
  have _ := h (atLine { goal := { code := 0x1FFFF }, dc := .ramping, connected := true } {}) _ (by rfl) ⟨0, 0⟩
  have _ := ((h demo _ (by rfl) ⟨2, 63⟩).2.2.2 (by decide)).2 (by decide)
  trivial

/-- A word of a queue. -/
def qword (eoi : Bool) : QWord := { word := 0xFFFFFFFF, eoi, port := 0 }

/-- Queue q of stall 0 in a state. -/
def atQueue (q : QueueId) (x : Queue) : State := modQueue q (fun _ => x) demo

/-- Queue 3 as the image of stall 0 allocates it. -/
def hostQueue : QueueAlloc := { prods := [(.host, 16)], consumer := some .host }

/-- Queue 6 as the image of stall 0 allocates it. -/
def itemQueue : QueueAlloc := { itemMode := true, prods := [(.host, 16), (.slice 1 0, 4), (.tether 5, 8)] }

theorem witness_QueuesMoveWordsAndCredits (h : Obligations.QueuesMoveWordsAndCredits) : True := by
  have _ := (h.1 (atQueue 9 { prods := [(0, { flight := [qword true] })] }) 9 0 _ [] (by decide) (by rfl)).1 (by decide)
  have _ := ((h.1 (atQueue 3 { stored := [qword true], prods := [(0, { flight := [qword false] })] }) 3 0 _ [] (by decide) (by rfl)).2 hostQueue (by decide) (by decide) (by decide)).1 (by decide)
  have _ := ((h.1 (atQueue 6 { prods := [(0, { flight := [qword false], staged := List.replicate 63 (qword false) })] }) 6 0 _ [] (by decide) (by rfl)).2 itemQueue (by decide) (by decide) (by decide)).2.1 (by decide) (by decide) (by decide)
  have _ := ((h.1 (atQueue 6 { prods := [(0, { flight := [qword true], staged := List.replicate 63 (qword false) })] }) 6 0 _ [] (by decide) (by rfl)).2 itemQueue (by decide) (by decide) (by decide)).2.2.1 (by decide) (by decide) (by decide)
  have _ := ((h.1 (atQueue 6 { prods := [(0, { flight := [qword true], staged := List.replicate 64 (qword false) })] }) 6 0 _ [] (by decide) (by rfl)).2 itemQueue (by decide) (by decide) (by decide)).2.2.2 .host 16 (by decide) (by decide) (by rfl)
  have _ := (h.2.1 (atQueue 6 { prods := [(0, { returning := 1 })] }) 6 0 itemQueue .host 16 (by decide) (by decide) (by decide)).1 (by decide)
  have _ := (h.2.1 (atQueue 6 { prods := [(1, { returning := 1 })] }) 6 1 itemQueue (.slice 1 0) 4 (by decide) (by decide) (by decide)).2 (by decide)
  have _ := (h.2.2.1 (atQueue 3 { prods := [(0, { credits := 1 })] }) 0 3 0xFFFFFFFF).1 hostQueue 0 (by decide) (by decide) (by decide)
  have _ := (h.2.2.1 (atQueue 3 { prods := [(0, { credits := 1 })] }) 0 3 0xFFFFFFFF).2.1 hostQueue 0 (by decide) (by decide) (by decide)
  have _ := (h.2.2.1 (atQueue 3 {}) 0 3 0xFFFFFFFF).2.2.1 hostQueue 0 (by decide) (by decide) (by decide)
  have _ := ((h.2.2.1 (atQueue 3 { stored := [qword true, qword false] }) 0 3 0).2.2.2 1 _ _ (by decide) (by decide) (by rfl)).1 (by decide) (by decide)
  have _ := ((h.2.2.1 { atQueue 3 { stored := [qword true, qword false] } with qdir := { cmd := some (.auditQueue 3) } } 0 3 0).2.2.2 8 _ _ (by decide) (by decide) (by rfl)).2 (by decide)
  have _ := h.2.2.2.1 (atQueue 3 { stored := [qword true, qword false] }) 3 hostQueue (by decide)
  have _ := h.2.2.2.2 (atQueue 3 { stored := [qword true, qword false] }) 3
  trivial

theorem witness_QdirFlushesAuditsAndScrubs (h : Obligations.QdirFlushesAuditsAndScrubs) : True := by
  have _ := ((h.1 (atQueue 3 { stored := [qword true, qword false] }) 0 (by decide) (by decide) (by decide)).1 3 hostQueue (by decide) (by decide)).1 (by decide)
  have _ := ((h.1 (atQueue 3 { stored := [qword true, qword false], pages := 1 }) 0 (by decide) (by decide) (by decide)).1 3 hostQueue (by decide) (by decide)).2.1 (by decide)
  have _ := ((h.1 (atQueue 3 { stored := [qword true, qword false] }) 0 (by decide) (by decide) (by decide)).1 3 hostQueue (by decide) (by decide)).2.2 (by decide)
  have _ := (h.1 demo 0 (by decide) (by decide) (by decide)).2 (by decide)
  have _ := h.2.1 { demo with qdir := { cmd := some .auditPages, free := 1045951, transit := 1 } } (by decide)
  have _ := h.2.1 { demo with qdir := { cmd := some .auditPages, free := 1045951 } } (by decide)
  have _ := h.2.2.1 { atQueue 3 { stored := List.replicate 48 (qword true), prods := [(0, { credits := 16 })] } with qdir := { cmd := some (.auditQueue 3) } } 3 hostQueue (by decide) (by decide) (by decide)
  have _ := h.2.2.1 { atQueue 3 { stored := [qword true], prods := [(0, { credits := 16 })] } with qdir := { cmd := some (.auditQueue 3) } } 3 hostQueue (by decide) (by decide) (by decide)
  have _ := (h.2.2.2.1 { atQueue 3 { releasing := 1 } with qdir := { transit := 1, free := 1045951 } } (by decide)).1 3 (by decide)
  have _ := (h.2.2.2.1 { demo with qdir := { transit := 1, free := 1045951, ringTransit := [(0, [(16, 1), (40, 2)])] } } (by decide)).2.1 0 16 1 _ (by rfl)
  have _ := (h.2.2.2.1 { atQueue 3 { freeing := 1 } with qdir := { cmd := some (.flush 3), op := opStart, transit := 1, free := 1045951 } } (by decide)).2.2 3 (by decide) (by decide) (by decide)
  have _ := (h.2.2.2.2.1 demo 65536).1
  have _ := (h.2.2.2.2.1 demo 65536).2.1 0x8000000 (by decide)
  have _ := (h.2.2.2.2.1 { demo with qdir := { cmd := some .scrub, op := opStart } } 65536).2.2 (by decide)
  have _ := (h.2.2.2.2.2 demo 0 0x7FFFFFC [1, 0, 2, 3] (by decide) (by decide)).1 1 (by decide) (by rfl) (by decide)
  have _ := (h.2.2.2.2.2 demo 0 0x8000000 [1] (by decide) (by decide)).2 (by decide) (by decide)
  trivial

/-- The Farrier of stall 0 in a state; its acquisition spare in a use. -/
def atFarrier (f : Farrier → Farrier) : State := modFarrier 0 f demo

/-- A calibration that runs, of a kind on a target, in a phase. -/
def calRuns (kind : CalKind) (target : BitVec 8) (phase : Nat) (values : Option CalValues) : State :=
  atFarrier fun x => { x with op := opStart, cal := { running := true, ran := true, kind, target, phase, values } }

/-- C00 of stall 0 has an accepted entry in both copies of the stud book. -/
def studied : State :=
  setPersist (fun p => { p with studs := [(0, { a := { seq := 1, chans := [(0, { accepted := true, planes := { en := 7 }, kernelCrc := kernelCrc demo ⟨0, 0⟩ })] } })] }) demo

/-- Its RESTORE is not refused. -/
theorem studied_restores : restoreCode 0 0 0x40 studied = none := by
  have e : restoreEntry studied 0 0x40 = some (0, { accepted := true, planes := { en := 7 }, kernelCrc := kernelCrc demo ⟨0, 0⟩ }) := by
    have hk : kernelCrc studied ⟨0, 0⟩ = kernelCrc demo ⟨0, 0⟩ := by simp only [kernelCrc, studied, setPersist]; rfl
    have ht : targetOf 0x40 = .chan 0 := by decide
    have hs : studCopy (getStud studied 0) = some { seq := 1, chans := [(0, { accepted := true, planes := { en := 7 }, kernelCrc := kernelCrc demo ⟨0, 0⟩ })] } := by rfl
    simp only [restoreEntry, ht, hs, Option.bind_some]
    have hf : tabFind (0 : Fin 64).val [(0, ({ accepted := true, planes := { en := 7 }, kernelCrc := kernelCrc demo ⟨0, 0⟩ } : StudChan))] = some { accepted := true, planes := { en := 7 }, kernelCrc := kernelCrc demo ⟨0, 0⟩ } := by
      generalize kernelCrc demo ⟨0, 0⟩ = k
      rfl
    have hsh : (0 : BitVec 5) = (getChan studied ⟨0, 0⟩).ints.shift := by decide
    rw [hf, Option.bind_some, hk, ← hsh]
    exact if_pos ⟨rfl, rfl, rfl⟩
  simp only [restoreCode, e]
  decide

/-- The IQ calibration of P0 has seen live pulses and a natural gap. -/
def gapped : State :=
  modFarrier 0 (fun x => { x with cal := { x.cal with gap := true } })
    (modSlice ⟨0, .probe, 0⟩ (fun x => { x with loudTo := some 1536000 }) (calRuns .iq 0x10 2 none))

theorem witness_CalibrationsBeginObserveAndEnd (h : Obligations.CalibrationsBeginObserveAndEnd) : True := by
  have _ := (h.1 demo 0 0 .marker 0x83 (by decide)).1 (by decide) (by decide)
  have _ := (h.1 demo 0 0 .planes 0x40 (by decide)).1 (by decide) (by decide)
  have _ := (h.1 demo 0 0 .dac 0x09 (by decide)).2 0x1902 (by decide)
  have _ := h.2.1 demo 0 .adcIl 0x20 (by decide) (by decide) (by decide +kernel)
  have _ := ((h.2.2.1 gapped 0 (by decide)).1 0xFFFF true ((List.range 16).map fun k => (72 + k, 1)) (by decide) (by decide) (by decide)).1 (by decide)
  have _ := ((h.2.2.1 (calRuns .dac 0x08 2 none) 0 (by decide)).1 0xFFFF false ((List.range 4).map fun k => (k, 1)) (by decide) (by decide) (by decide)).2 0x2901 (by decide)
  have _ := (h.2.2.1 (calRuns .planes 0x40 2 none) 0 (by decide)).2.1 (by decide)
  have _ := (h.2.2.1 (calRuns .marker 0x80 4 none) 0 (by decide)).2.2 (by decide)
  have _ := (h.2.2.2 demo 0 0 (by decide) (by decide)).1 (by decide)
  have _ := (h.2.2.2 (calRuns .marker 0x80 3 none) 0 0 (by decide) (by decide)).2 (by decide)
  trivial

theorem witness_CalibrationsGoIntoForce (h : Obligations.CalibrationsGoIntoForce) : True := by
  have _ := h.1 (calRuns .planes 0x40 1 none) 0 0 (by decide) (by decide) (by decide) (by decide) (by decide) (by decide) (by decide)
  have _ := h.2.1 (calRuns .marker 0x83 4 (some (.trims [(0, 9)]))) 0 _ none (by decide) (by decide) (by rfl) (by decide) (by decide)
  have _ := h.2.1 (calRuns .skew 0x08 4 (some (.trims [(0, 9)]))) 0 _ (some true) (by decide) (by decide) (by rfl) (by decide) (by decide)
  have _ := h.2.1 (modStall 0 (fun x => { x with factoryHold := true }) (calRuns .iq 0x10 4 (some (.trims [(0, 9)])))) 0 _ none (by decide) (by decide) (by rfl) (by decide) (by decide)
  have _ := h.2.2 studied 0 0 0x40 (by decide) studied_restores
  trivial

/-- Lane 15 in a state. -/
def atLane (x : Lane) : State := modLane 15 (fun _ => x) demo

/-- A copy that waits on lane 15. -/
def sent (bad : Bool) : Egress := { chan := 5, tok := token 1, bad }

/-- Lane 15 hitched, with two events on the line. -/
def hitched15 : State := atLane { enable := true, state := .hitched, unacked := [sent false, sent true], egress := [sent false], time := { worst := 3 } }

theorem witness_LanesTrainHitchAndFall (h : Obligations.LanesTrainHitchAndFall) : True := by
  have _ := (h.1 hitched15 0 15 (by decide)).1 (by decide)
  have _ := (h.1 (atLane { enable := true, backoff := 6 }) 0 15 (by decide)).1 (by decide)
  have _ := (h.1 hitched15 0 15 (by decide)).2 (by decide)
  have _ := (h.2.1 { atLane {} with herdImage := none } 0 15 0xCF000000 (by decide)).1 (by decide) (by decide) (by decide)
  have _ := (h.2.1 (atLane { backoff := 6, prbs := { genEn := true } }) 0 15 0xCF000000 (by decide)).2.1 (by decide) (by decide) (by decide)
  have _ := (h.2.1 hitched15 0 15 0 (by decide)).2.2.1 (by decide) (by decide) (by decide)
  have _ := (h.2.1 hitched15 0 15 0xCF000000 (by decide)).2.2.2 (by decide)
  have _ := h.2.2.1 (atLane { enable := true, backoff := 6 }) 15 (by decide) (by decide) (by decide)
  have _ := (h.2.2.2.1 (atLane { enable := true, state := .training, phase := 1 }) 15 { ppm := 200 } (by decide)).1 (by decide) (by decide)
  have _ := (h.2.2.2.1 (atLane { enable := true, state := .training, phase := 1, backoff := 6 }) 15 { ppm := 201 } (by decide)).2.1 (by decide) (by decide)
  have _ := (h.2.2.2.1 (atLane { enable := true, state := .training, phase := 3, trainAuto := true }) 15 { eyes := [(3, 9), (7, 255), (9, 255)] } (by decide)).2.2.1 (by decide)
  have _ := (h.2.2.2.1 (atLane { enable := true, state := .training, phase := 4 }) 15 { partnerLane := 1 } (by decide)).2.2.2.1 (by decide) (.inr (by decide))
  have _ := (h.2.2.2.1 (atLane { enable := true, state := .training, phase := 4 }) 15 {} (by decide)).2.2.2.2.1 (by decide) (by decide) (by decide)
  have _ := (h.2.2.2.1 (atLane { enable := true, state := .training, phase := 5, time := { trips := 1024, sum := 2048000 } }) 15 {} (by decide)).2.2.2.2.2.1 (by decide) (by decide)
  have _ := (h.2.2.2.1 (atLane { enable := true, state := .training, phase := 5 }) 15 {} (by decide)).2.2.2.2.2.2
  have _ := h.2.2.2.2.1 hitched15 15 (by decide)
  have _ := h.2.2.2.2.2.1 hitched15 15 255 (by decide)
  have _ := (h.2.2.2.2.2.2 (atLane { enable := true, state := .training, phase := 5, time := { sent := some 0 } }) 15 0 5 6 _ 255 (by decide) rfl).1 (by decide) (by decide)
  have _ := (h.2.2.2.2.2.2 (atLane { enable := true, state := .hitched, time := { sent := some 0, worst := 3 } }) 15 0 5 6 _ 0 (by decide) rfl).2 (by decide)
  trivial

theorem witness_LanesCarryEventsAndPackets (h : Obligations.LanesCarryEventsAndPackets) : True := by
  have _ := (h.1 hitched15 15 (by decide)).1 (token 7)
  have _ := (h.1 hitched15 15 (by decide)).2.1 (token 6) (by decide) (by decide)
  have _ := (h.1 hitched15 15 (by decide)).2.2.1 (token 7) (by decide)
  have _ := (h.1 hitched15 15 (by decide)).2.2.2.1 1 2 1 (by decide)
  have _ := (h.1 hitched15 15 (by decide)).2.2.2.1 2 2 1 (by decide)
  have _ := (h.1 { hitched15 with tether := { packets := [{ seq := 0, queue := 3, words := [], credits := 1, lane := some 15 }, { seq := 0, queue := 3, words := [], lane := some 14 }] } } 15 (by decide)).2.2.2.2.1 3 true 0
  have _ := (h.1 { hitched15 with tether := { packets := [{ seq := 0, queue := 3, words := [], credits := 1, lane := some 15 }, { seq := 0, queue := 3, words := [], lane := some 14 }] } } 15 (by decide)).2.2.2.2.2.1 3 true 0
  have _ := ((h.1 hitched15 15 (by decide)).2.2.2.2.2.2 { seq := 0, queue := 6 }).1
  have _ := ((h.1 hitched15 15 (by decide)).2.2.2.2.2.2 { seq := 1, queue := 6 }).2.1 (by decide)
  have _ := ((h.1 hitched15 15 (by decide)).2.2.2.2.2.2 { seq := 0, queue := 6, credits := 8 }).2.2.1 (by decide)
  have _ := ((h.1 hitched15 15 (by decide)).2.2.2.2.2.2 { seq := 0, queue := 6, credits := 8 }).2.2.2.1 (by decide) (by decide)
  have _ := ((h.1 hitched15 15 (by decide)).2.2.2.2.2.2 { seq := 0, queue := 6, words := [(9, true)] }).2.2.2.2 (9, true) 2 (by decide) (by decide) (by decide)
  have _ := h.2.1 demo 0 15 0xF0F80000 (by decide) (by decide)
  have _ := (h.2.2 (atLane { prbs := { chkEn := true, errors := 0xFFFFFFFE } }) 15).1 (by decide)
  have _ := (h.2.2 (atLane { prbs := { chkEn := true, locked := true, errors := 0xFFFFFFFE } }) 15).2
  trivial

/-- A module in which no stall rides, a lead, with domain 0 in a state. -/
def lead (d : Domain) (tc : TimeCtl) : State :=
  modDomain 0 (fun _ => d) (setPersist (fun p => { p with time := { p.time with role := 1 }, domains := [(0, { enable := true })], ports := [(0, { enable := true, ipv4 := 9 })] })
    { demo with stalls := [(1, { life := .harnessed, powered := true })], tc, ethPorts := [(0, { link := true })] })

theorem witness_TheEpochIsAlignedAndSwitched (h : Obligations.TheEpochIsAlignedAndSwitched) : True := by
  have _ := (h.1 (lead {} {}) 0 (by decide) (by decide)).1 (by decide)
  have _ := (h.1 demo 0 (by decide) (by decide)).2.1 (by decide)
  have _ := ((h.1 (lead { state := .locked, offset := 7 } {}) 0 (by decide) (by decide)).2.2.1 0 (by decide)).1 (by decide) (by decide)
  have _ := ((h.1 (setPersist (fun p => { p with time := { p.time with role := 0 } }) (lead { state := .locked } {})) 0 (by decide) (by decide)).2.2.1 0 (by decide)).2 (by decide)
  have _ := (h.1 (lead {} {}) 0 (by decide) (by decide)).2.2.2.1 1 (by decide)
  have _ := (h.1 (lead { state := .degraded, samples := [(1, 1)] } {}) 0 (by decide) (by decide)).2.2.2.2 0
  have _ := (h.2.1 (lead { state := .locked } { align := true }) { sec := 9 } (-321) (by decide)).1 (by decide) (by decide) (by decide)
  have _ := (h.2.1 (lead { state := .locked } { align := true, alignStepped := true, op := opStart }) {} 1599 (by decide)).2.1 (by decide) (by decide)
  have _ := (h.2.1 (lead { state := .locked } { align := true, op := opStart }) {} 0 (by decide)).2.2.1 (by decide) (by decide)
  have _ := (h.2.1 (lead {} { align := true, op := opStart }) {} 0 (by decide)).2.2.2 (by decide) (by decide)
  have _ := (h.2.2.1 (lead {} {}) 0 0xFFFFFFFF).1 (by decide) (by decide)
  have _ := (h.2.2.1 (lead {} {}) 0 999999999).2.1 (by decide) (by decide)
  have _ := (h.2.2.1 demo 0 0).2.2 (by decide)
  have _ := h.2.2.2 (lead {} {}) (by decide)
  trivial

/-- A time pulse of mode 1 that starts 8 frames from the demo's now. -/
def pulse : TimePulse := { mode := 1, start := 0x1F8000 }

theorem witness_DomainsAreTrackedAndPulsesFire (h : Obligations.DomainsAreTrackedAndPulsesFire) : True := by
  have _ := (h.1 (lead { state := .lost, masters := [{ gmClass := 6 }] } {}) 0 (by decide)).1 { number := 0, msg := .announce { sender := 9, gmClass := 255 } 3 } _ _ rfl (by decide)
  have _ := (h.1 (lead { state := .locked, samples := [(0, 0)], masters := [{ sender := 9 }] } {}) 0 (by decide)).2.1 { number := 0, msg := .sample 9 800 0 (-7) } 0 _ _ _ _ rfl (by decide) (by decide) (by decide) (by decide) (by decide) (.inr (by decide))
  have _ := (h.1 (setPersist (fun p => { p with ports := [(0, { enable := true, p2p := true })] }) (lead {} {})) 0 (by decide)).2.2.1 { number := 1, msg := .pdelayReq 5 9 } _ _ rfl (by decide)
  have _ := (h.1 (lead {} {}) 0 (by decide)).2.2.2.1 { number := 0, multicast := false, msg := .announce {} 0 } (by decide)
  have _ := (h.1 (lead {} {}) 0 (by decide)).2.2.2.2.1 9 (by decide) (by decide)
  have _ := (h.1 (lead {} {}) 0 (by decide)).2.2.2.2.2.1
  have _ := (h.1 (lead {} {}) 0 (by decide)).2.2.2.2.2.2 (-1)
  have _ := h.2.1 demo 1 true
  have _ := h.2.2.1 (lead { state := .degraded } {}) 0 (by decide) (by decide)
  have _ := h.2.2.2.1 demo 0 0 0x80FF0F00 (by decide)
  have _ := h.2.2.2.1 (lead { state := .listening } {}) 0 0 0 (by decide)
  have _ := (h.2.2.2.2.1 (modPulse 7 (fun _ => pulse) demo) 0 7 (by decide)).1 (by decide) (by decide)
  have _ := (h.2.2.2.2.1 (modPulse 7 (fun _ => { pulse with start := 0x1F7FFF }) demo) 0 7 (by decide)).2.1 (by decide)
  have _ := (h.2.2.2.2.1 demo 0 0 (by decide)).2.2.1 (by decide)
  have _ := (h.2.2.2.2.1 (modPulse 7 (fun _ => { pulse with level := true }) demo) 0 7 (by decide)).2.2.2 (by decide)
  have _ := (h.2.2.2.2.2 (modPulse 7 (fun _ => { pulse with armed := some { mode := 1, start := 1536256 } }) demo) 7 _ (by rfl) (by decide)).1 (by decide)
  have _ := (h.2.2.2.2.2 (modPulse 7 (fun _ => { pulse with armed := some { mode := 1, start := 1536240 } }) demo) 7 _ (by rfl) (by decide)).2.1 _ (by decide) (by rfl) (by decide)
  have _ := (h.2.2.2.2.2 (modPulse 7 (fun _ => { pulse with armed := some { mode := 1 }, level := true, endsAt := 1000000255 }) demo) 7 _ (by rfl) (by decide)).2.2 (by decide) (by decide) (by decide) (by decide)
  trivial

/-- W8 of stall 0 in a state. -/
def atWatch (x : Watch) : State := modWatch (.stall 0 8) (fun _ => x) demo

/-- A comparator that trips above 511. -/
def above511 : WatchCfg := { mode := 2, enable := true, hi := 511, blankSrc := 2, clrMode := true, clrPeriod := 1, action := 2 }

theorem witness_ComparatorsLatchClearAndCheck (h : Obligations.ComparatorsLatchClearAndCheck) : True := by
  have _ := (h.1 (atWatch { cfg := above511, blankTok := true }) (.stall 0 8) 512 3 (by decide) (by decide) (by decide) (by decide) (by decide)).1 (by decide)
  have _ := (h.1 (atWatch { cfg := above511, tripped := true }) (.stall 0 8) 512 3 (by decide) (by decide) (by decide) (by decide) (by decide)).2.1 (by decide) (by decide)
  have _ := (h.1 (atWatch { cfg := above511 }) (.stall 0 8) 512 3 (by decide) (by decide) (by decide) (by decide) (by decide)).2.2 (by decide) (by decide)
  have _ := (h.2.1 (atWatch { cfg := above511, tripped := true, cond := true }) 0 (.stall 0 8) 510 (by decide) (by decide)).1 (by decide) (by decide)
  have _ := (h.2.1 (atWatch { cfg := above511, tripped := true, cond := true, shunt := some 1 }) 0 (.stall 0 8) 509 (by decide) (by decide)).2 (.inl (by decide))
  have _ := (h.2.1 demo 0 (.spine 15) 0 (by decide) (by decide)).2 (.inl (by decide))
  have _ := (h.2.2.1 (atWatch { cfg := above511, tripped := true, cond := true }) (.stall 0 8) 510 (by decide) (by decide) (by decide) (by decide)).1 (by decide)
  have _ := (h.2.2.1 (atWatch { cfg := above511, tripped := true, cond := true }) (.stall 0 8) 509 (by decide) (by decide) (by decide) (by decide)).2 (by decide)
  have _ := (h.2.2.2.1 demo 0 (.spine 15) (by decide) (by decide)).1 (by decide)
  have _ := (h.2.2.2.1 (atWatch { chkBusy := true }) 0 (.stall 0 8) (by decide) (by decide)).2 (by decide)
  have _ := h.2.2.2.2.1 (atWatch { cfg := above511, chkBusy := true }) (.stall 0 8) (by decide)
  have _ := h.2.2.2.2.1 (atWatch { cfg := { above511 with action := 0 }, tripped := true, chkBusy := true }) (.stall 0 8) (by decide)
  have _ := (h.2.2.2.2.2 demo 0 (.stall 0 8) .ref 0x01FF01FF (by decide)).1 (by decide)
  have _ := (h.2.2.2.2.2 demo 0 (.stall 0 8) .ctl 0x2A802 (by decide)).1 (by decide)
  have _ := (h.2.2.2.2.2 demo 0 (.stall 0 8) .ref 0x01FF0200 (by decide)).2 0x1C02 (by decide)
  have _ := (h.2.2.2.2.2 demo 0 (.stall 0 9) .ctl 0x20000 (by decide)).2 0x1C02 (by decide)
  trivial

/-- Converter 7 in a state, with the reference ready. -/
def atHk (x : HkConv) : State := modHk 7 (fun _ => x) { demo with hkCtl := { refReady := true } }

theorem witness_ConvertersRunTheirLists (h : Obligations.ConvertersRunTheirLists) : True := by
  have _ := (h.1 (atHk { mode := 2 }) 0 7 (by decide)).1 (by decide) (by decide)
  have _ := (h.1 (atHk { mode := 1, running := true, at_ := 3 }) 0 7 (by decide)).1 (by decide) (by decide)
  have _ := (h.1 demo 0 7 (by decide)).2.1 (by decide)
  have _ := (h.1 demo 0 7 (by decide)).2.2
  have _ := h.2.1 (atHk { mode := 1, running := true, valid := true, lastInput := some (0, 0) }) 7 0xFFF _ (by decide) (by decide) (by decide) (by rfl)
  have _ := h.2.1 (atHk { mode := 2, length := 1, running := true }) 7 0xFFF _ (by decide) (by decide) (by decide) (by rfl)
  have _ := h.2.1 (atHk { mode := 2, length := 1, running := true, lastInput := some (0, 0) }) 7 0 _ (by decide) (by decide) (by decide) (by rfl)
  have _ := h.2.2.1 (atHk { valid := true, overrun := true }) 1 7 (by decide)
  have _ := h.2.2.2.1 (atHk { mode := 2, running := true, at_ := 3 }) 0 2 (by decide)
  have _ := h.2.2.2.1 (atHk { mode := 2, running := true, at_ := 3 }) 0 1 (by decide)
  have _ := h.2.2.2.2.1 demo (by decide)
  have _ := (h.2.2.2.2.2.1 demo 0 7 15 0x301FF (by decide)).1 (by decide)
  have _ := (h.2.2.2.2.2.1 demo 0 7 15 0 (by decide)).2 (by decide)
  have _ := h.2.2.2.2.2.2.1 { demo with hkCtl := { nextTurn := 7 } } (by decide) (by decide)
  have _ := (h.2.2.2.2.2.2.2 { demo with hkCtl := { spareUse := 1, spareTgt := 7 } } 7 16 (-16) (by decide) (by decide)).1 (by decide) (by decide)
  have _ := (h.2.2.2.2.2.2.2 { demo with hkCtl := { spareUse := 1, spareTgt := 7 } } 7 17 0 (by decide) (by decide)).2 (.inl (by decide))
  trivial

theorem witness_ResetsKeepWhatOutlivesThem (h : Obligations.ResetsKeepWhatOutlivesThem) : True := by
  have _ := h.2.2.1 demo (by decide) (by decide)
  have _ := h.2.2.2.1 (setPower (fun p => { p with shutdown := true }) demo) (by decide)
  have _ := h.2.2.2.1 demo (by decide)
  have _ := (h.2.2.2.2.1 demo { backupValid := false })
  have _ := h.2.2.2.2.2.1 demo {} (by decide)
  have _ := ((h.2.2.2.2.2.1 demo {} (by decide)).2.2.2.1 7680000 (by decide)).1 (by decide)
  have _ := (h.2.2.2.2.2.1 demo {} (by decide)).2.2.1 1920000 (by decide) (by decide)
  have _ := ((h.2.2.2.2.2.1 (setPersist (fun p => { p with perstScope := true }) demo) {} (by decide)).2.2.2.1 7680000 (by decide)).2 (by decide)
  have _ := h.2.2.2.2.2.2.1 demo {} 1919999 (by decide)
  have _ := (h.2.2.2.2.2.2.2 demo 0 0x5A17 {} (by decide)).1 (by decide)
  have _ := (h.2.2.2.2.2.2.2 demo 0 0x5A16 {} (by decide)).2 (by decide)
  trivial

/-- A module that boots. -/
def bootsIn (p : ModulePhase) (straps : BitVec 8) : State := { State.reset with power := { phase := p, straps, domOn := alwaysOn ||| bootDomains, op := opStart } }

theorem witness_BootRunsItsSteps (h : Obligations.BootRunsItsSteps) : True := by
  have _ := (h.1 (bootsIn .held 0) {} (by decide)).1 (by decide)
  have _ := (h.1 (bootsIn .held 0) { bank0 := false, bank1 := false } (by decide)).1 (by decide)
  have _ := (h.1 demo {} (by decide)).2 (by decide)
  have _ := (h.2.1 (bootsIn (.boot 3) 0) 1 [] (by decide)).1 (by decide) (by decide)
  have _ := (h.2.1 (bootsIn (.boot 3) 1) 1 [] (by decide)).2 (by decide) (by decide) (by decide)
  have _ := h.2.2.1 (bootsIn (.boot 3) 0) (by decide) (by decide)
  have _ := (h.2.2.2.1 { demo with power := { phase := .running, domOn := domainMask 0 256 } } 255 [] (by decide)).1 (by decide)
  have _ := (h.2.2.2.1 { demo with power := { phase := .running, domOn := domainMask 0 256 } } 249 [] (by decide)).1 (by decide)
  have _ := (h.2.2.2.1 { demo with power := { phase := .running, domOn := domainMask 0 256 } } 0 [] (by decide)).2.1 0 (by decide)
  have _ := (h.2.2.2.1 { demo with power := { phase := .running, domOn := domainMask 0 256 } } 28 [] (by decide)).2.2 ⟨0, 7⟩ (by decide)
  have _ := (h.2.2.2.1 { demo with power := { phase := .running, switchOn := [245, 246] } } 245 [] (by decide)).1 (by decide)
  have _ := h.2.2.2.2.1 demo 2 [] (by decide)
  have _ := ((h.2.2.2.2.2 (setPersist (fun p => { p with cooling := 1 }) demo)).1 (by decide)).1 (by decide)
  have _ := ((h.2.2.2.2.2 (setPower (fun p => { p with fanTray := false }) (setPersist (fun p => { p with cooling := 1 }) demo))).1 (by decide)).2 (by decide)
  have _ := (h.2.2.2.2.2 (setPersist (fun p => { p with cooling := 0 }) demo)).2 (by decide)
  trivial

theorem witness_PersistentRegistersAndFirmware (h : Obligations.PersistentRegistersAndFirmware) : True := by
  have _ := (h.1 demo 0 0x5A16 (by decide)).1 (by decide) _ (.inl ⟨1, rfl⟩)
  have _ := (h.1 demo 0 0x5A16 (by decide)).1 (by decide) _ (.inr (.inl ⟨0, true, 9, rfl⟩))
  have _ := (h.1 demo 0 0x5A16 (by decide)).1 (by decide) _ (.inr (.inr rfl))
  have _ := (h.1 demo 0 0x5A17 (by decide)).2.1 1 (by decide) (by decide) (by decide) (by decide)
  have _ := (h.1 demo 0 0x5A17 (by decide)).2.2.1 0 true 0 (by decide) (by decide)
  have _ := (h.1 demo 0 0x5A17 (by decide)).2.2.2.1 0 0 (by decide) (by decide)
  have _ := (h.1 (setPower (fun p => { p with fwOk := true }) demo) 0 0x5A17 (by decide)).2.2.2.2 (by decide)
  have _ := h.2.1 (setPower (fun p => { p with fwWriting := some 9 }) demo) 9 (by decide) (by decide)
  have _ := h.2.2.1 (setPower (fun p => { p with cmd := some .fwSwitch, op := opStart }) demo) (by decide) (by decide)
  have _ := (h.2.2.2.1 demo 0 .timeCtl 0x1E0182 (by decide)).1 (by decide)
  have _ := (h.2.2.2.1 demo 0 (.ptIpv4 1) 0xFFFFFFFF (by decide)).1 (by decide)
  have _ := (h.2.2.2.1 demo 0 (.ptCtl 1) 0x20000000 (by decide)).2 1 (by decide) (by decide)
  have _ := h.2.2.2.2 { demo with held := [(regAddr (.power .rtcLo), 9)] } 0 1 (by decide)
  trivial

/-- The Tally in a state, with what the feed of stall 0 sent last. -/
def tallied (t : Tally) : State := { demo with tally := t, feeds := [(0, { totals := [(1, { done := 9 })], gen := 2, sent := [(1, { done := 7 })], sentFrame := 5 })] }

theorem witness_TheTallyCountsAndSeals (h : Obligations.TheTallyCountsAndSeals) : True := by
  have _ := (h.2.1 (tallied { last := [(0, (2, [(1, { done := 4 })]))], owners := [(1, { done := 4 })] }) { from_ := .stall 0 } (by decide)).1 0 [(1, { done := 4 })] (by decide) (by decide)
    (by intro g o e; obtain ⟨rfl, rfl⟩ : g = 2 ∧ o = [(1, { done := 4 })] := by cases e; exact ⟨rfl, rfl⟩
        rfl) (by intro e; cases e)
  have _ := (h.2.1 (tallied {}) { from_ := .stall 0 } (by decide)).1 0 [] (by decide) (by decide) (by intro g o e; cases e) (by intro _; rfl)
  have _ := (h.2.1 (tallied {}) { from_ := .inlet true, serial := 3, energy := 100 } (by decide)).2.1 true (by decide) (by decide) (by decide)
  have _ := (h.2.1 (tallied { supplySerial2 := 3, supplyBase2 := 100 }) { from_ := .inlet true, serial := 3, energy := 109 } (by decide)).2.2 true (by decide) (by decide) (by decide)
  have _ := h.2.2.1 (tallied {}) { from_ := .spine, intact := false } (by decide)
  have _ := h.2.2.2.1 (tallied {}) (.inlet true) (by decide)
  have _ := h.2.2.2.2.1 (tallied {}) (.inl (by decide))
  have _ := h.2.2.2.2.2.1 (tallied { state := .opened, carrier := 9 }) (by decide)
  have _ := h.2.2.2.2.2.2.1 (tallied { state := .unbound }) (.tenantRead true) (by decide)
  have _ := (h.2.2.2.2.2.2.2.1 (tallied {}) 9 0 (by decide)).1 (by decide)
  have _ := (h.2.2.2.2.2.2.2.1 (tallied {}) 9 1 (by decide)).2.1 (by decide) true
  have _ := (h.2.2.2.2.2.2.2.1 (tallied {}) 9 1 (by decide)).2.2
  have _ := h.2.2.2.2.2.2.2.2.1 (tallied { refreshLeft := 75000 }) (by decide)
  have _ := h.2.2.2.2.2.2.2.2.2.1 (tallied { conf := [.tenantRead true] }) (by decide)
  have _ := h.2.2.2.2.2.2.2.2.2.2.1 (tallied {}) (by decide)
  have _ := h.2.2.2.2.2.2.2.2.2.2.2 demo 1 17407 (by decide)
  trivial

theorem witness_SilentFeedsAreLoggedAndCaughtUp (h : Obligations.SilentFeedsAreLoggedAndCaughtUp) : True := by
  have _ := h.1 (tallied {}) (.stall 0) (by decide)
  have _ := h.2 (tallied { feed := 0x7FE, last := [(0, (2, [(1, { done := 4 })]))], owners := [(1, { done := 4 })] }) 0 { from_ := .stall 0 } 2 _ (by decide) (by decide) (by decide) (by decide) (by rfl) (by decide)
  trivial

/-- The shot audit of stall 0 in a state. -/
def auditing (x : ShotAudit) : State := modShotAudit 0 (fun _ => x) (modRider ⟨0, 1⟩ (fun r => { r with started := 2, completed := 1, shot := { active := true } }) demo)

theorem witness_ShotAuditsBalanceTheirBooks (h : Obligations.ShotAuditsBalanceTheirBooks) : True := by
  have _ := (h.1 demo 1 0 0x101 (by decide)).1 (by decide)
  have _ := (h.1 (auditing { op := opStart }) 0 0 0 (by decide)).2 (by decide)
  have _ := (h.2 (auditing { op := opStart, index := 1 }) 0 (by decide)).1 (by decide) ⟨0, 1⟩ (by decide) (by decide)
  have _ := (h.2 (auditing { op := opStart, ownerScope := true, index := 1 }) 0 (by decide)).2
  trivial

/-- Source 0x800 is mapped to an entry of virtual function 1, and held under the cap. -/
def vectored (masked mask on : Bool) : State :=
  { demo with
    herdImage := some { vectors := [(0x800, 1, 5)] }, irqs := [(0x800, { last := some 0, held := true })]
    funcs := [(1, { enabled := true, msix := [(5, { masked })], msixMask := mask, msixEnable := on })] }

theorem witness_TheHostInterfaceServesItsFunctions (h : Obligations.TheHostInterfaceServesItsFunctions) : True := by
  have _ := (h.1 demo 0 0xFFFFFFC 9 {} (by decide)).1 (by decide) (by decide)
  have _ := (h.1 demo 1 0 9 {} (by decide)).2.1 .b2 (.inr (.inr ⟨by decide, by decide⟩))
  have _ := (h.1 demo 1 4 9 {} (by decide)).2.1 .b8 (.inr (.inl ⟨rfl, by decide⟩))
  have _ := (h.1 demo 1 2 9 {} (by decide)).2.1 .b4 (.inl ⟨rfl, by decide⟩)
  have _ := (h.1 demo 0 0x70000 2 {} (by decide)).2.2.1 (by decide) (by decide) (by decide)
  have _ := (h.1 demo 0 (BitVec.ofNat 28 (regAddr (.power .rtcLo))) 0xFFFFFFFF00000000 {} (by decide)).2.2.2 (by decide) (by decide) (by decide) (by decide) (by decide)
  have _ := h.2.1 demo 1 2047 3 0 (by decide) (by decide)
  have _ := (h.2.2.1 { demo with irqs := [(0x800, { held := true })] } 0x800 (by decide)).1 (by decide)
  have _ := (h.2.2.1 (vectored false false true) 0x800 (by decide)).2.1 1 5 (by decide) (by decide) (by decide) (by decide) (by decide)
  have _ := (h.2.2.1 (vectored false true true) 0x800 (by decide)).2.2 1 5 (by decide) (by decide) (.inr (.inl (by decide)))
  have _ := (h.2.2.2 demo (by decide)).1 14
  have _ := ((h.2.2.2 demo (by decide)).2 1 (by decide)).1 true
  have _ := ((h.2.2.2 demo (by decide)).2 1 (by decide)).2.2 true false (fun _ => rfl)
  trivial

end Sys2Proof.Tests
end

section
/-!
PROOFS. Stall commands that the stall's state or a command in progress refuses, and HALT, which passes a command in progress (R57, R60, R61).
-/

namespace Sys2Proof.Machine

open Sys2Proof

/-! ## What a refusal leaves in the logs and the error status (R695 to R697) -/

/-- A merge takes place in an entry of the same code. -/
theorem mergeLog_has_code {now : Fine} {code : Code} {src : LogSource} {l m : List LogEntry} (h : mergeLog now code src l = some m) :
    (m.any fun e => e.code = code) = true := by
  induction l generalizing m with
  | nil => cases h
  | cons e rest ih =>
    simp only [mergeLog] at h
    split at h
    · next same =>
      split at h
      · cases h
        simp [same.1]
      · cases h
    · obtain ⟨m', hm, rfl⟩ := Option.map_eq_some_iff.mp h
      simp [ih hm]

/-- A code that enters a function's log stands in it: merged, or as the newest entry. -/
theorem noted_logInto (f : Func) (code : Code) (owner : Owner) (stall : Nat) (object aux : Word) (func : BitVec 8) (src : LogSource) (s : State) :
    noted (logInto f code owner stall object aux func src s) f code = true := by
  simp only [noted, logInto, getFunc_modFunc]
  split
  · next m hm => exact mergeLog_has_code hm
  · simp

theorem getFunc_logInto_ne {f g : Func} (h : f ≠ g) (code : Code) (owner : Owner) (stall : Nat) (object aux : Word) (func : BitVec 8)
    (src : LogSource) (s : State) : getFunc (logInto f code owner stall object aux func src s) g = getFunc s g :=
  getFunc_modFunc_ne _ _ _ _ fun e => h (Fin.ext e)

/-- The log of a function is apart from its error status. -/
@[simp] theorem lastCode_logInto (f g : Func) (code : Code) (owner : Owner) (stall : Nat) (object aux : Word) (func : BitVec 8) (src : LogSource)
    (s : State) : (getFunc (logInto f code owner stall object aux func src s) g).lastCode = (getFunc s g).lastCode := by
  by_cases h : f = g
  · subst h
    simp only [logInto, getFunc_modFunc]
    split <;> rfl
  · rw [getFunc_logInto_ne h]

@[simp] theorem lastCode_refuseReg (f : Func) (r : Reg) (code : Code) (s : State) : (getFunc (refuseReg f r code s) f).lastCode = code := by
  simp only [refuseReg, refuseAt]
  split <;> simp

/-- The physical function's log holds the code of every refusal, whichever function is refused. -/
@[simp] theorem noted_refuseReg (f : Func) (r : Reg) (code : Code) (s : State) : noted (refuseReg f r code s) 0 code = true := by
  simp only [refuseReg, refuseAt]
  split
  · exact noted_logInto ..
  · next h =>
    have hf : f ≠ 0 := fun e => h (congrArg Fin.val e)
    rw [noted, getFunc_logInto_ne hf]
    exact noted_logInto ..

@[simp] theorem getStall_refuseReg (f : Func) (r : Reg) (code : Code) (s : State) (n : StallId) : getStall (refuseReg f r code s) n = getStall s n :=
  getStall_of_stalls (by simp) n

/-! ## A stall command that is refused -/

/-- A refused stall command sets the error status, the log and STn_OP_STATUS, and nothing else (R695, R702). -/
theorem stallCommand_refusal {s : State} {f : Func} {n : StallId} {halt : Bool} (h : admits s f (.ctl n .cmd) = true) {p : State → Bool} {c : Code}
    (k : stallCode n halt (p s) s = some c) (eff : State → State) :
    (getFunc (stallCommand f n halt p eff s) f).lastCode = c ∧ noted (stallCommand f n halt p eff s) 0 c = true ∧
    getStall (stallCommand f n halt p eff s) n = { getStall s n with op := opRefuse c (getStall s n).op } ∧
    (∀ m, m ≠ n → getStall (stallCommand f n halt p eff s) m = getStall s m) ∧
    Changes [.funcs, .stalls] s (stallCommand f n halt p eff s) := by
  rw [stallCommand_refused h k]
  refine ⟨by simp, by simp, by simp, fun m hm => ?_, ?_⟩
  · rw [getStall_refuseReg, getStall_modStall_ne _ _ _ _ fun e => hm (Fin.ext e.symm)]
  · exact refuseReg_changes _ _ _ _ (by decide) (modStall_changes _ _ _ (by decide) (Changes.refl _ s))

/-- A command in progress refuses every stall command but HALT, whatever the stall's state permits (R61). -/
theorem stallCode_of_cmd {s : State} {n : StallId} (hc : (getStall s n).cmd.isSome = true) (hf : (getStall s n).faultHalt = false)
    (permitted : Bool) : stallCode n false permitted s = some 0x1D02 := by
  simp [stallCode, hc, hf]

/-- HALT passes a command in progress; a stall that a bring-up has yet to reach is refused it (R61, R632). -/
theorem stallCode_halt {s : State} {n : StallId} (hf : (getStall s n).faultHalt = false) (hb : s.power.toBring.contains n = false) :
    stallCode n true true s = none := by
  simp only [stallCode, hf, hb]
  rfl

/-! ## The halt of a stall (Table 01-9) -/

/-- A stall as a halt marks it, before its windows, riders, voices, lines and ports stop. -/
def haltMark (n : StallId) (s : State) : State :=
  modStall n (fun x => { x with haltPending := true, draining := false, flushing := false, cmd := x.cmd.map fun _ => .halt })
    (if (getStall s n).life = .riding then enterResting n s else s)

theorem kept_haltMark_haltStall (n m : StallId) (s : State) : Kept m (haltMark n s) (haltStall n s) := kept_haltRest n m (haltMark n s)

theorem haltPending_haltStall (n : StallId) (s : State) : (getStall (haltStall n s) n).haltPending = true := by
  rw [(kept_haltMark_haltStall n n s).haltPending]
  simp [haltMark]

/-- A halt takes over the command in progress, if there is one. -/
theorem cmd_haltStall (n : StallId) (s : State) : (getStall (haltStall n s) n).cmd = (getStall s n).cmd.map fun _ => .halt := by
  rw [(kept_haltMark_haltStall n n s).cmd]
  simp only [haltMark, getStall_modStall]
  split <;> simp [enterResting]

/-- A stall that rides enters RESTING with its halt; one that rests stays there. -/
theorem life_haltStall {n : StallId} {s : State} (h : lifeOf n s = .riding ∨ lifeOf n s = .resting) : lifeOf n (haltStall n s) = .resting := by
  rw [lifeOf, (kept_haltMark_haltStall n n s).life]
  simp only [haltMark, getStall_modStall]
  split
  · simp [enterResting]
  · next notRiding => exact h.resolve_left notRiding

/-- HALT is the stall's command from then on, in the place of one in progress, and its riders have a halt to obey (Table 01-9). -/
theorem haltCommand_effect {n : StallId} {s : State} (h : lifeOf n s = .riding ∨ lifeOf n s = .resting) :
    lifeOf n (haltCommand n s) = .resting ∧ (getStall (haltCommand n s) n).cmd = some .halt ∧
    (getStall (haltCommand n s) n).haltPending = true := by
  refine ⟨life_haltStall ?_, ?_, haltPending_haltStall n _⟩
  · simpa [lifeOf] using h
  · simp [haltCommand, cmd_haltStall]

/-! ## One command at a time -/

/-- Settles O15: a command in progress refuses the five other commands by their common code, and HALT, which it does not refuse, halts. -/
theorem oneStallCommandAtATime : Obligations.OneStallCommandAtATime := by
  unfold Obligations.OneStallCommandAtATime
  intro s f n found hadm hcmd hfault
  refine ⟨fun c hc => ?_, fun hlife hbring => ?_⟩
  · have refusal (p : State → Bool) (eff : State → State) :=
      stallCommand_refusal (p := p) hadm (stallCode_of_cmd hcmd hfault (p s)) eff
    simp only [List.mem_cons, List.not_mem_nil, or_false] at hc
    obtain rfl | rfl | rfl | rfl | rfl := hc
    · exact ⟨_, rfl, refusal _ (startPowerUp n found)⟩
    · exact ⟨_, rfl, refusal _ (startStall n)⟩
    · exact ⟨_, rfl, refusal _ (drainStall n)⟩
    · exact ⟨_, rfl, refusal _ (unloadStall n)⟩
    · exact ⟨_, rfl, refusal _ (powerDownStall n)⟩
  · have accepted : exec (.halt f n) s = .next (haltCommand n s) :=
      congrArg Host.Outcome.next (stallCommand_accepted hadm (stallCode_halt hfault hbring) (by simpa using hlife) _)
    obtain ⟨hrest, hhalt, hpending⟩ := haltCommand_effect hlife
    exact ⟨_, accepted, hrest, hhalt, hpending, (near_haltCommand n s (Near.refl n s)).other⟩

end Sys2Proof.Machine
end

section
/-!
PROOFS. The address map read back: every register of BAR0 decodes from its own offset, and lies at a word boundary (Tables 19-1, 19-2).
-/

namespace Sys2Proof.Machine

open Sys2Proof

/-! ## The map table of one block -/

/-- What a block's map table has to be for its registers to decode: it lists every register of the block, no two share an offset, and each
lies at a word boundary inside the block's size. -/
structure BlockMap {ρ : Type} (off : ρ → Nat) (all : List ρ) (size : Nat) : Prop where
  complete : ∀ r, r ∈ all
  apart : (all.map off).Nodup
  placed : ∀ r ∈ all, off r < size ∧ off r % 4 = 0

namespace BlockMap

variable {ρ : Type} {off : ρ → Nat} {all : List ρ} {size : Nat}

theorem lt (h : BlockMap off all size) (r : ρ) : off r < size := (h.placed r (h.complete r)).1

theorem aligned (h : BlockMap off all size) (r : ρ) : off r % 4 = 0 := (h.placed r (h.complete r)).2

/-- A register's own offset finds it in its block's map. -/
theorem regAt_off (h : BlockMap off all size) (r : ρ) : regAt off all (off r) = some r := by
  have found : (regAt off all (off r)).isSome := List.find?_isSome.mpr ⟨r, h.complete r, beq_self_eq_true _⟩
  obtain ⟨x, hx⟩ := Option.isSome_iff_exists.mp found
  have same : off x = off r := by simpa using List.find?_some (p := fun y => off y == off r) hx
  have : x = r := List.inj_on_of_nodup_map h.apart (h.complete x) (h.complete r) same
  exact this ▸ hx

theorem decodes (h : BlockMap off all size) (r : ρ) {o : Nat} (ho : o = off r) (mk : ρ → Reg) : (regAt off all o).map mk = some (mk r) := by
  rw [ho, h.regAt_off r, Option.map_some]

end BlockMap

theorem fin?_val {n : Nat} (i : Fin n) : fin? n i.val = some i := by simp [fin?]

theorem indexed_eq {ρ : Type} {n stride o : Nat} (rest : Fin n → Nat → Option ρ) (i : Fin n) (j : Nat) (ho : o = i.val * stride + j) (hj : j < stride) :
    indexed n stride o rest = rest i j := by
  have hdiv : o / stride = i.val := by rw [ho, Nat.mul_comm, Nat.mul_add_div (by omega), Nat.div_eq_of_lt hj, Nat.add_zero]
  have hmod : o % stride = j := by rw [ho, Nat.mul_comm, Nat.mul_add_mod, Nat.mod_eq_of_lt hj]
  simp [indexed, hdiv, hmod, fin?_val]

theorem wordAt_eq {ρ : Type} {n o : Nat} (mk : Fin n → ρ) (w : Fin n) (ho : o = w.val * 4) : wordAt n o mk = some (mk w) := by
  have hdiv : o / 4 = w.val := by omega
  simp [wordAt, hdiv, fin?_val, show o % 4 = 0 by omega]

/-- A table of rows of words: word `w` of row `i`. -/
theorem indexed_wordAt_eq {ρ : Type} {n m stride o : Nat} (mk : Fin n → Fin m → ρ) (i : Fin n) (w : Fin m) (hs : m * 4 ≤ stride)
    (ho : o = i.val * stride + w.val * 4) : indexed n stride o (fun k j => wordAt m j (mk k)) = some (mk i w) := by
  rw [indexed_eq _ i (w.val * 4) ho (by omega), wordAt_eq _ w rfl]

/-- A block that repeats: register `r` of copy `i`. -/
theorem BlockMap.decodes_indexed {ρ : Type} {off : ρ → Nat} {all : List ρ} {size n stride o : Nat} (h : BlockMap off all size) (i : Fin n) (r : ρ)
    (hs : size ≤ stride) (ho : o = i.val * stride + off r) (mk : Fin n → ρ → Reg) :
    indexed n stride o (fun k j => (regAt off all j).map (mk k)) = some (mk i r) := by
  rw [indexed_eq _ i (off r) ho (Nat.lt_of_lt_of_le (h.lt r) hs), h.decodes r rfl]

/-! ## The tables -/

theorem hostMap : BlockMap hostOff hostAll 0x28 := ⟨fun r => by cases r <;> decide, by decide, by decide⟩
theorem powerMap : BlockMap powerOff powerAll 0x80 := ⟨fun r => by cases r <;> simp [powerAll], by decide, by decide⟩
theorem tackMap : BlockMap tackOff tackAll 0x70 :=
  ⟨fun r => by cases r with | slotLen k => revert k; decide | _ => simp [tackAll], by decide, by decide⟩
theorem timeMap : BlockMap timeOff timeAll 0x1000 := ⟨fun r => by cases r <;> simp [timeAll], by decide, by decide⟩
theorem ptMap : BlockMap ptOff ptAll 0x40 := ⟨fun r => by cases r <;> decide, by decide, by decide⟩
theorem dmMap : BlockMap dmOff dmAll 0x40 := ⟨fun r => by cases r <;> decide, by decide, by decide⟩
theorem tpMap : BlockMap tpOff tpAll 0x20 := ⟨fun r => by cases r <;> decide, by decide, by decide⟩
theorem tetherMap : BlockMap tetherOff tetherAll 0x14 := ⟨fun r => by cases r <;> decide, by decide, by decide⟩
theorem tlMap : BlockMap tlOff tlAll 0x40 := ⟨fun r => by cases r <;> decide, by decide, by decide⟩
theorem hubMap : BlockMap hubOff hubAll 0x100 :=
  ⟨fun r => by
    cases r with
    | issued hi | consumed hi | overrun hi | auditLoop hi => revert hi; decide
    | _ => decide, by decide, by decide⟩
theorem bkMap : BlockMap bkOff bkAll 16 := ⟨fun r => by cases r <;> decide, by decide, by decide⟩
theorem wcMap : BlockMap wcOff wcAll 0x40 := ⟨fun r => by cases r <;> decide, by decide, by decide⟩
theorem hkMap : BlockMap hkOff hkAll 16 := ⟨fun r => by cases r <;> decide, by decide, by decide⟩
theorem qdirMap : BlockMap qdirOff qdirAll 0x88 := ⟨fun r => by cases r <;> simp [qdirAll], by decide, by decide⟩
theorem ctlMap : BlockMap ctlOff ctlAll 0x400 := ⟨fun r => by cases r <;> simp [ctlAll], by decide, by decide⟩
theorem slMap : BlockMap slOff slAll 0x1000 :=
  ⟨fun r => by cases r with | lanes i => revert i; decide | _ => decide, by decide, by decide⟩
theorem vcMap : BlockMap vcOff vcAll 0x40 := ⟨fun r => by cases r <;> decide, by decide, by decide⟩
theorem vsMap : BlockMap vsOff vsAll 0x40 := ⟨fun r => by cases r <;> decide, by decide, by decide⟩
theorem asMap : BlockMap asOff asAll 0x1000 :=
  ⟨fun r => by cases r with | lanes i => revert i; decide | _ => decide, by decide, by decide⟩
theorem chMap : BlockMap chOff chAll 0x80 :=
  ⟨fun r => by cases r with | ab p | c p | qk p => revert p; decide | _ => decide, by decide, by decide⟩
theorem tuMap : BlockMap tuOff tuAll 0x100 := ⟨fun r => by cases r <;> decide, by decide, by decide⟩
theorem flMap : BlockMap flOff flAll 0x40 := ⟨fun r => by cases r <;> decide, by decide, by decide⟩
theorem nodeMap : BlockMap nodeOff nodeAll 0x24 := ⟨fun r => by cases r <;> decide, by decide, by decide⟩
theorem rhMap : BlockMap rhOff rhAll 0x100 := ⟨fun r => by cases r <;> simp [rhAll], by decide, by decide⟩
theorem qMap : BlockMap qOff qAll 0x40 := ⟨fun r => by cases r <;> simp [qAll], by decide, by decide⟩
theorem faMap : BlockMap faOff faAll 0x200 := ⟨fun r => by cases r <;> simp [faAll], by decide +kernel, by decide +kernel⟩

/-! ## The blocks -/

/-- A stall window lies whole in the range of the stalls. -/
theorem decodeReg_window (n : StallId) {o : Nat} (h : o < 0x1000000) : decodeReg (stallBase n + o) = decodeStall n o := by
  have base : stallBase n = 0x1000000 + n.val * 0x1000000 := rfl
  simp (disch := omega) only [decodeReg, ↓if_pos, ↓if_neg]
  exact indexed_eq _ n o (by omega) h

/-- The spine blocks lie below PERSIST. -/
theorem decodeReg_spine {o : Nat} (h : o < 0x100000) : decodeReg o = decodeSpine o := if_pos h

/-- Whichever of DRIVE and PROBE holds a voice's registers, the block decodes by the one table (Table 04-4). -/
theorem decodeStall_voices (n : StallId) (b : Bool) {o : Nat} (h : o < 0x10000) :
    decodeStall n (voiceBlock b + o) = decodeVoices n b o := by
  cases b with
  | false =>
    change decodeStall n (0x10000 + o) = _
    simp (disch := omega) only [decodeStall, ↓if_pos, ↓if_neg, Nat.add_sub_cancel_left]
  | true =>
    change decodeStall n (0x20000 + o) = _
    simp (disch := omega) only [decodeStall, ↓if_pos, ↓if_neg, Nat.add_sub_cancel_left]

/-- HUBA and HUBB decode by the one table (Table 08-10). -/
theorem decodeSpine_hub (b : Bool) {o : Nat} (h : o < 0x10000) :
    decodeSpine ((if b then 0x60000 else 0x50000) + o) = decodeHub b o := by
  cases b with
  | false =>
    change decodeSpine (0x50000 + o) = _
    simp (disch := omega) only [decodeSpine, ↓if_pos, ↓if_neg, Nat.add_sub_cancel_left]
  | true =>
    change decodeSpine (0x60000 + o) = _
    simp (disch := omega) only [decodeSpine, ↓if_pos, ↓if_neg, Nat.add_sub_cancel_left]

/-- The same from the base of BAR0. -/
theorem decodeReg_hub (b : Bool) {o : Nat} (h : o < 0x10000) : decodeReg ((if b then 0x60000 else 0x50000) + o) = decodeHub b o := by
  rw [decodeReg_spine (by cases b <;> simp <;> omega), decodeSpine_hub b h]

theorem voiceBlock_le (b : Bool) : voiceBlock b ≤ 0x20000 := by cases b <;> decide

/-! ## The whole map

A decoder's tests are decided from the outermost inwards, each by `omega`; what they lead to is a table that a lemma above reads. -/

/-- The pace registers of TIME lie past the pulse outputs; the others below the ports (Table 14-4). -/
theorem decodeReg_time (r : TimeReg) : decodeReg (regAddr (.time r)) = some (.time r) := by
  have hr := timeMap.lt r
  have split : timeOff r < 0x100 ∨ 0x500 ≤ timeOff r := by cases r <;> simp only [timeOff] <;> omega
  obtain low | high := split <;> simp (disch := omega) only [regAddr, decodeReg_spine, decodeSpine, decodeTime, ↓if_pos, ↓if_neg]
  · exact timeMap.decodes r (by omega) _
  · exact timeMap.decodes r (by omega) _

/-- A group's two words, FG_CFG and FG_CMD. -/
theorem decodeReg_group (g : GroupId) (c : Bool) : decodeReg (regAddr (.group g c)) = some (.group g c) := by
  have word : (if c then 4 else 0) < 16 := by cases c <;> decide
  simp (disch := omega) only [regAddr, Nat.add_assoc, decodeReg_window, decodeStall, decodeFlux, ↓if_pos, ↓if_neg]
  rw [indexed_eq _ g.num (if c then 4 else 0) (by omega) word]
  cases c <;> rfl

/-- A register of the spine, of PERSIST or of the Tally mirror decodes from its own offset. -/
theorem decodeReg_regAddr_of_spine {r : Reg} (spine : regStall r = none) : decodeReg (regAddr r) = some r := by
  cases r with
  | host r =>
    have hr := hostMap.lt r
    simp (disch := omega) only [regAddr, decodeReg_spine, decodeSpine, ↓if_pos]
    exact hostMap.decodes r (by omega) _
  | log k w =>
    simp (disch := omega) only [regAddr, Nat.add_assoc, decodeReg_spine, decodeSpine, ↓if_pos, ↓if_neg]
    exact indexed_wordAt_eq _ k w (by omega) (by omega)
  | pba w =>
    simp (disch := omega) only [regAddr, decodeReg_spine, decodeSpine, ↓if_pos, ↓if_neg]
    exact wordAt_eq _ w (by omega)
  | msix e w =>
    simp (disch := omega) only [regAddr, Nat.add_assoc, decodeReg_spine, decodeSpine, ↓if_pos, ↓if_neg]
    exact indexed_wordAt_eq _ e w (by omega) (by omega)
  | power r =>
    have hr := powerMap.lt r
    simp (disch := omega) only [regAddr, decodeReg_spine, decodeSpine, ↓if_pos, ↓if_neg]
    exact powerMap.decodes r (by omega) _
  | tack r =>
    have hr := tackMap.lt r
    simp (disch := omega) only [regAddr, decodeReg_spine, decodeSpine, ↓if_pos, ↓if_neg]
    exact tackMap.decodes r (by omega) _
  | time r => exact decodeReg_time r
  | pt p r =>
    have hr := ptMap.lt r
    simp (disch := omega) only [regAddr, Nat.add_assoc, decodeReg_spine, decodeSpine, decodeTime, ↓if_pos, ↓if_neg]
    exact ptMap.decodes_indexed p r (by omega) (by omega) _
  | dm d r =>
    have hr := dmMap.lt r
    simp (disch := omega) only [regAddr, Nat.add_assoc, decodeReg_spine, decodeSpine, decodeTime, ↓if_pos, ↓if_neg]
    exact dmMap.decodes_indexed d r (by omega) (by omega) _
  | tp k r =>
    have hr := tpMap.lt r
    simp (disch := omega) only [regAddr, Nat.add_assoc, decodeReg_spine, decodeSpine, decodeTime, ↓if_pos, ↓if_neg]
    exact tpMap.decodes_indexed k r (by omega) (by omega) _
  | tether r =>
    have hr := tetherMap.lt r
    simp (disch := omega) only [regAddr, decodeReg_spine, decodeSpine, ↓if_pos, ↓if_neg]
    exact tetherMap.decodes r (by omega) _
  | tl k r =>
    have hr := tlMap.lt r
    simp (disch := omega) only [regAddr, Nat.add_assoc, decodeReg_spine, decodeSpine, ↓if_pos, ↓if_neg]
    exact tlMap.decodes_indexed k r (by omega) (by omega) _
  | hub r =>
    have hr := hubMap.lt r
    refine (decodeReg_hub false (o := hubOff r) (by omega)).trans ?_
    simp (disch := omega) only [decodeHub, ↓if_pos, Bool.false_eq_true, ↓reduceIte]
    exact hubMap.decodes r rfl _
  | plane b err =>
    have word : 0x100 + (if err then 4 else 0) < 0x10000 := by cases err <;> decide
    rw [regAddr, Nat.add_assoc, decodeReg_hub b word]
    cases err <;> simp [decodeHub]
  | hubCell b c r =>
    have hr := bkMap.lt r
    simp (disch := omega) only [regAddr, Nat.add_assoc, decodeReg_hub, decodeHub, ↓if_pos, ↓if_neg]
    exact bkMap.decodes_indexed c r (by omega) (by omega) _
  | reinChan e =>
    simp (disch := omega) only [regAddr, decodeReg_spine, decodeSpine, decodeHub, ↓if_pos, ↓if_neg, Bool.false_eq_true, ↓reduceIte]
    exact wordAt_eq _ e (by omega)
  | hkCtl st => cases st <;> simp [regAddr, decodeReg, decodeSpine, decodeWatch]
  | spineCmp k r =>
    have hr := wcMap.lt r
    simp (disch := omega) only [regAddr, Nat.add_assoc, decodeReg_spine, decodeSpine, decodeWatch, ↓if_pos, ↓if_neg]
    exact wcMap.decodes_indexed k r (by omega) (by omega) _
  | hk k r =>
    have hr := hkMap.lt r
    simp (disch := omega) only [regAddr, Nat.add_assoc, decodeReg_spine, decodeSpine, decodeWatch, ↓if_pos, ↓if_neg]
    exact hkMap.decodes_indexed k r (by omega) (by omega) _
  | scan k i =>
    simp (disch := omega) only [regAddr, Nat.add_assoc, decodeReg_spine, decodeSpine, decodeWatch, ↓if_pos, ↓if_neg]
    exact indexed_wordAt_eq _ k i (by omega) (by omega)
  | sfStud => simp [regAddr, decodeReg, decodeSpine]
  | qdir r =>
    have hr := qdirMap.lt r
    simp (disch := omega) only [regAddr, decodeReg_spine, decodeSpine, ↓if_neg]
    exact qdirMap.decodes r (by omega) _
  | persist w =>
    change decodeReg (0x100000 + w.val * 4) = _
    simp (disch := omega) only [decodeReg, ↓if_pos, ↓if_neg]
    exact wordAt_eq _ w (by omega)
  | tally w =>
    change decodeReg (0xF000000 + w.val * 4) = _
    simp (disch := omega) only [decodeReg, ↓if_neg]
    exact wordAt_eq _ w (by omega)
  | _ => cases spine

/-- A register of a stall window decodes from its own offset. -/
theorem decodeReg_regAddr_of_window {r : Reg} {w : StallId × Bool} (inWindow : regStall r = some w) : decodeReg (regAddr r) = some r := by
  cases r with
  | ctl n r =>
    have hr := ctlMap.lt r
    simp (disch := omega) only [regAddr, decodeReg_window, decodeStall, ↓if_pos]
    exact ctlMap.decodes r (by omega) _
  | cmp n w r =>
    have hr := wcMap.lt r
    simp (disch := omega) only [regAddr, Nat.add_assoc, decodeReg_window, decodeStall, ↓if_pos, ↓if_neg]
    exact wcMap.decodes_indexed w r (by omega) (by omega) _
  | drive n k r =>
    have hr := slMap.lt r
    simp (disch := omega) only [regAddr, Nat.add_assoc, decodeReg_window, decodeStall, decodeVoices, ↓if_pos, ↓if_neg, Bool.false_eq_true, ↓reduceIte]
    exact slMap.decodes_indexed k r (by omega) (by omega) _
  | probe n k r =>
    have hr := slMap.lt r
    simp (disch := omega) only [regAddr, Nat.add_assoc, decodeReg_window, decodeStall, decodeVoices, ↓if_pos, ↓if_neg, ↓reduceIte]
    exact slMap.decodes_indexed k r (by omega) (by omega) _
  | voice v r =>
    have hr := vcMap.lt r
    have hb := voiceBlock_le v.probe
    simp (disch := omega) only [regAddr, Nat.add_assoc, decodeReg_window, decodeStall_voices, decodeVoices, ↓if_pos, ↓if_neg]
    exact vcMap.decodes_indexed v.num r (by omega) (by omega) _
  | seq v r =>
    have hr := vsMap.lt r
    have hb := voiceBlock_le v.probe
    simp (disch := omega) only [regAddr, Nat.add_assoc, decodeReg_window, decodeStall_voices, decodeVoices, ↓if_neg]
    exact vsMap.decodes_indexed v.num r (by omega) (by omega) _
  | markerRoute n b k =>
    have hb := voiceBlock_le b
    simp (disch := omega) only [regAddr, Nat.add_assoc, decodeReg_window, decodeStall_voices, decodeVoices, ↓if_pos, ↓if_neg]
    exact wordAt_eq _ k (by omega)
  | acq n k r =>
    have hr := asMap.lt r
    simp (disch := omega) only [regAddr, Nat.add_assoc, decodeReg_window, decodeStall, decodeAcq, ↓if_pos, ↓if_neg]
    exact asMap.decodes_indexed k r (by omega) (by omega) _
  | chan c r =>
    have hr := chMap.lt r
    simp (disch := omega) only [regAddr, Nat.add_assoc, decodeReg_window, decodeStall, decodeAcq, ↓if_pos, ↓if_neg]
    exact chMap.decodes_indexed c.num r (by omega) (by omega) _
  | unit n u r =>
    have hr := tuMap.lt r
    simp (disch := omega) only [regAddr, Nat.add_assoc, decodeReg_window, decodeStall, decodeAcq, ↓if_pos, ↓if_neg]
    exact tuMap.decodes_indexed u r (by omega) (by omega) _
  | traceAllow n =>
    simp (disch := omega) only [regAddr, decodeReg_window, decodeStall, decodeAcq, ↓if_pos, ↓if_neg]
  | kernelPage n =>
    simp (disch := omega) only [regAddr, decodeReg_window, decodeStall, decodeAcq, ↓if_pos, ↓if_neg]
  | kernelTap n t =>
    simp (disch := omega) only [regAddr, Nat.add_assoc, decodeReg_window, decodeStall, decodeAcq, ↓if_pos, ↓if_neg]
    exact wordAt_eq _ t (by omega)
  | group g c => exact decodeReg_group g c
  | line l r =>
    have hr := flMap.lt r
    simp (disch := omega) only [regAddr, Nat.add_assoc, decodeReg_window, decodeStall, decodeFlux, ↓if_pos, ↓if_neg]
    exact flMap.decodes_indexed l.num r (by omega) (by omega) _
  | edge l t =>
    simp (disch := omega) only [regAddr, Nat.add_assoc, decodeReg_window, decodeStall, decodeFlux, ↓if_pos, ↓if_neg]
    exact indexed_wordAt_eq _ l.num t (by omega) (by omega)
  | node n r =>
    have hr := nodeMap.lt r
    simp (disch := omega) only [regAddr, Nat.add_assoc, decodeReg_window, decodeStall, ↓if_pos, ↓if_neg]
    exact nodeMap.decodes r (by omega) _
  | cell n b r =>
    have hr := bkMap.lt r
    simp (disch := omega) only [regAddr, Nat.add_assoc, decodeReg_window, decodeStall, ↓if_pos, ↓if_neg]
    exact bkMap.decodes_indexed b r (by omega) (by omega) _
  | rider h r =>
    have hr := rhMap.lt r
    simp (disch := omega) only [regAddr, Nat.add_assoc, decodeReg_window, decodeStall, ↓if_pos, ↓if_neg]
    exact rhMap.decodes_indexed h.num r (by omega) (by omega) _
  | riderSummary n =>
    simp (disch := omega) only [regAddr, decodeReg_window, decodeStall, ↓if_pos, ↓if_neg]
  | queue n i r =>
    have hr := qMap.lt r
    simp (disch := omega) only [regAddr, Nat.add_assoc, decodeReg_window, decodeStall, ↓if_pos, ↓if_neg]
    exact qMap.decodes_indexed i r (by omega) (by omega) _
  | farrier n r =>
    have hr := faMap.lt r
    simp (disch := omega) only [regAddr, Nat.add_assoc, decodeReg_window, decodeStall, ↓if_pos, ↓if_neg]
    exact faMap.decodes r (by omega) _
  | store n w =>
    simp (disch := omega) only [regAddr, Nat.add_assoc, decodeReg_window, decodeStall, ↓if_pos, ↓if_neg]
    exact wordAt_eq _ w (by omega)
  | env n w =>
    simp (disch := omega) only [regAddr, Nat.add_assoc, decodeReg_window, decodeStall, ↓if_neg]
    exact wordAt_eq _ w (by omega)
  | _ => cases inWindow

/-- Every register decodes from its own offset. -/
theorem decodeReg_regAddr (r : Reg) : decodeReg (regAddr r) = some r := by
  rcases h : regStall r with _ | w
  · exact decodeReg_regAddr_of_spine h
  · exact decodeReg_regAddr_of_window h

/-- Every register lies at a word boundary. -/
theorem regAddr_aligned (r : Reg) : regAddr r % 4 = 0 := by
  cases r <;> grind [regAddr, stallBase, voiceBlock, hostMap.aligned, powerMap.aligned, tackMap.aligned, timeMap.aligned, ptMap.aligned,
    dmMap.aligned, tpMap.aligned, tetherMap.aligned, tlMap.aligned, hubMap.aligned, bkMap.aligned, wcMap.aligned, hkMap.aligned,
    qdirMap.aligned, ctlMap.aligned, slMap.aligned, vcMap.aligned, vsMap.aligned, asMap.aligned, chMap.aligned, tuMap.aligned,
    flMap.aligned, nodeMap.aligned, rhMap.aligned, qMap.aligned, faMap.aligned]

end Sys2Proof.Machine
end

section
/-!
PROOFS. A write that the gate refuses (R20, R133, R150, R693): whatever the register, it is recorded and has no effect.
-/

namespace Sys2Proof.Machine

open Sys2Proof

/-! ## What a refusal leaves in the error status -/

/-- An entry of a log leaves the rest of the error status alone too, besides its code (`lastCode_logInto`). -/
@[simp] theorem errStatus_logInto (f g : Func) (code : Code) (owner : Owner) (stall : Nat) (object aux : Word) (func : BitVec 8) (src : LogSource)
    (s : State) :
    (getFunc (logInto f code owner stall object aux func src s) g).errOffset = (getFunc s g).errOffset ∧
    (getFunc (logInto f code owner stall object aux func src s) g).errCount = (getFunc s g).errCount := by
  by_cases h : f = g
  · subst h
    simp only [logInto, getFunc_modFunc]
    split <;> exact ⟨rfl, rfl⟩
  · rw [getFunc_logInto_ne h]
    exact ⟨rfl, rfl⟩

@[simp] theorem errStatus_refuseReg (f : Func) (r : Reg) (code : Code) (s : State) :
    (getFunc (refuseReg f r code s) f).errOffset = BitVec.ofNat 36 (regAddr r) ∧
    (getFunc (refuseReg f r code s) f).errCount = satInc (getFunc s f).errCount := by
  simp only [refuseReg, refuseAt]
  split <;> simp

/-- The log of the refused function holds the code, besides the physical function's (`noted_refuseReg`). -/
@[simp] theorem noted_refuseReg_own (f : Func) (r : Reg) (code : Code) (s : State) : noted (refuseReg f r code s) f code = true := by
  simp only [refuseReg, refuseAt]
  split
  · next h =>
    have hf : f = 0 := Fin.ext h
    subst hf
    exact noted_logInto ..
  · exact noted_logInto ..

theorem refuseReg_changes_funcs (f : Func) (r : Reg) (code : Code) (s : State) : Changes [.funcs] s (refuseReg f r code s) :=
  refuseReg_changes f r code s (by decide) (Changes.refl _ s)

/-! ## Writes that stand behind the gate of a register -/

/-- A write stands behind the gate of register `r`: what the gate refuses is recorded, and nothing else happens. -/
structure Gated (f : Func) (r : Reg) (write : State → Res) : Prop where
  refuses : ∀ {s c}, hostReach s f = true → gateCode s f r = some c → write s = .next (refuseReg f r c s)

/-- Every write made through `hostWrite`, as plain fields, checked writes and commands are. -/
theorem gated_hostWrite (f : Func) (r : Reg) (eff : State → State) : Gated f r fun s => .next (hostWrite f r eff s) :=
  ⟨fun reach gate => congrArg Host.Outcome.next (hostWrite_of_gate reach gate eff)⟩

/-- A register outside the stall windows and under no owner, which the gate never refuses. -/
theorem gated_of_free {f : Func} {r : Reg} (outside : regStall r = none) (free : ∀ s, regOwner s r = none) (write : State → Res) :
    Gated f r write := by
  refine ⟨fun {s c} _ gate => ?_⟩
  simp [gateCode, outside, free s] at gate

/-! ## Block by block

Where a register's writes all go through `hostWrite`, a split by register and by command value shows it; the lemmas below stand for the blocks
that choose between writes in another way. -/

section
variable (f : Func) (val : Word)

theorem gated_stallCmdWrite (n : StallId) (env : WriteEnv) : Gated f (.ctl n .cmd) (stallCmdWrite f n val env) := by
  unfold stallCmdWrite
  split <;> exact gated_hostWrite ..

theorem gated_spareCmdWrite (n : StallId) : Gated f (.ctl n .spareCmd) (spareCmdWrite f n val) := by
  unfold spareCmdWrite
  split
  · split <;> exact gated_hostWrite ..
  · exact gated_hostWrite ..

theorem gated_ctlWrite (n : StallId) (r : CtlReg) (env : WriteEnv) : Gated f (.ctl n r) (ctlWrite f n r val env) := by
  cases r with
  | cmd => exact gated_stallCmdWrite ..
  | spareCmd => exact gated_spareCmdWrite ..
  | _ => exact gated_hostWrite ..

/-- A comparator's status: the clear of its latch asks the gate itself. -/
theorem gated_cmpWrite (c : CmpId) (r : WcReg) (env : WriteEnv) : Gated f (cmpReg c r) (cmpWrite f c r val env) := by
  cases r with
  | cmd =>
    unfold cmpWrite
    dsimp only
    split <;> exact gated_hostWrite ..
  | status =>
    refine ⟨fun reach gate => ?_⟩
    simp only [cmpWrite, gate, reduceCtorEq, false_and, if_false]
    exact (gated_hostWrite ..).refuses reach gate
  | _ => exact gated_hostWrite ..

theorem gated_slCtlWrite {i : SliceId} (h : outSliceOk i = true) : Gated f (sliceReg i .ctl) (execSlCtlWrite f i val) := by
  refine ⟨fun reach gate => ?_⟩
  simpa [execSlCtlWrite, onSlice, h] using hostWrite_of_gate reach gate _

theorem gated_driveWrite (n : StallId) (k : Fin 9) (r : SlReg) :
    Gated f (.drive n k r) (sliceWrite f ⟨n, .drive, k⟩ (.drive n k r) r val) := by
  cases r with
  | ctl => exact gated_slCtlWrite (i := ⟨n, .drive, k⟩) f val rfl
  | _ => exact gated_hostWrite ..

theorem sliceReg_probe (n : StallId) (k : Fin 5) (r : SlReg) : sliceReg ⟨n, .probe, k.castLE (by omega)⟩ r = .probe n k r := by
  simp [sliceReg, Nat.mod_eq_of_lt k.isLt]

theorem outSliceOk_probe (n : StallId) (k : Fin 5) : outSliceOk ⟨n, .probe, k.castLE (by omega)⟩ = true := by
  simp [outSliceOk, sliceExists, Nat.le_of_lt_succ k.isLt]

theorem gated_probeWrite (n : StallId) (k : Fin 5) (r : SlReg) :
    Gated f (.probe n k r) (sliceWrite f ⟨n, .probe, k.castLE (by omega)⟩ (.probe n k r) r val) := by
  cases r with
  | ctl => exact sliceReg_probe n k .ctl ▸ gated_slCtlWrite f val (outSliceOk_probe n k)
  | _ => exact gated_hostWrite ..

theorem gated_seqWrite (v : VoiceId) (r : VsReg) (g : Grant) : Gated f (.seq v r) (seqWrite f v r val g) := by
  cases r with
  | post =>
    unfold seqWrite postWrite
    dsimp only
    split <;> exact gated_hostWrite ..
  | _ => exact gated_hostWrite ..

theorem gated_chanWrite (c : ChanId) (r : ChReg) : Gated f (.chan c r) (chanWrite f c r val) := by
  cases r with
  | commit =>
    unfold chanWrite
    dsimp only
    split <;> exact gated_hostWrite ..
  | _ => exact gated_hostWrite ..

theorem gated_unitWrite (n : StallId) (u : Fin 4) (r : TuReg) : Gated f (.unit n u r) (unitWrite f ⟨n, u⟩ r val) := by
  cases r with
  | cmd =>
    unfold unitWrite
    dsimp only
    split <;> exact gated_hostWrite ..
  | _ => exact gated_hostWrite ..

theorem gated_groupWrite (g : GroupId) (cmd reports : Bool) : Gated f (.group g cmd) (groupWrite f g cmd val reports) := by
  cases cmd with
  | false => exact gated_hostWrite ..
  | true =>
    unfold groupWrite
    split <;> exact gated_hostWrite ..

theorem gated_nodeWrite (n : StallId) (r : NodeReg) : Gated f (.node n r) (nodeWrite f n r val) := by
  cases r with
  | ffCmd =>
    unfold nodeWrite
    dsimp only
    split <;> exact gated_hostWrite ..
  | _ => exact gated_hostWrite ..

theorem gated_riderWrite (h : RiderId) (r : RhReg) : Gated f (.rider h r) (riderWrite f h r val) := by
  cases r with
  | cmd =>
    unfold riderWrite riderCmdWrite
    dsimp only
    split <;> exact gated_hostWrite ..
  | _ => exact gated_hostWrite ..

/-- Queue i of a stall, numbered in the herd, has its registers at index i of the stall's QUEUES (R13). -/
theorem queueReg_ofNat (n : StallId) (i : Fin 2048) (r : QReg) : queueReg (BitVec.ofNat 14 (n.val * 2048 + i.val)) r = .queue n i r := by
  have stall : queueStall (BitVec.ofNat 14 (n.val * 2048 + i.val)) = n := by
    apply Fin.ext
    simp only [queueStall, bits, BitVec.extractLsb'_toNat, BitVec.toNat_ofNat, Nat.shiftRight_eq_div_pow]
    omega
  have index : queueIndex (BitVec.ofNat 14 (n.val * 2048 + i.val)) = i.val := by
    simp only [queueIndex, bits, BitVec.extractLsb'_toNat, BitVec.toNat_ofNat, Nat.shiftRight_eq_div_pow]
    omega
  simp [queueReg, stall, index]

theorem gated_queueWrite (n : StallId) (i : Fin 2048) (r : QReg) : Gated f (.queue n i r) (queueWrite f n i r val) := by
  cases r with
  | push => exact queueReg_ofNat n i .push ▸ gated_hostWrite ..
  | pushEnd => exact queueReg_ofNat n i .pushEnd ▸ gated_hostWrite ..
  | pop => exact queueReg_ofNat n i .pop ▸ gated_hostWrite ..
  | _ => exact gated_hostWrite ..

theorem gated_farrierWrite (n : StallId) (r : FaReg) : Gated f (.farrier n r) (farrierWrite f n r val) := by
  cases r with
  | cmd =>
    unfold farrierWrite farrierCmdWrite
    dsimp only
    split
    · split <;> exact gated_hostWrite ..
    all_goals exact gated_hostWrite ..
  | _ => exact gated_hostWrite ..

theorem gated_powerWrite (r : PowerReg) (env : WriteEnv) : Gated f (.power r) (powerWrite f r val env) := by
  cases r with
  | cmd =>
    unfold powerWrite powerCmdWrite
    dsimp only
    split <;> exact gated_hostWrite ..
  | _ => exact gated_hostWrite ..

theorem gated_timeWrite (r : TimeReg) : Gated f (.time r) (timeWrite f r val) := by
  cases r with
  | cmd =>
    unfold timeWrite timeCmdWrite
    dsimp only
    split <;> exact gated_hostWrite ..
  | _ => exact gated_hostWrite ..

theorem gated_ptWrite (p : Fin 2) (r : PtReg) : Gated f (.pt p r) (ptWrite f p r val) := by
  cases r <;> exact gated_hostWrite ..

theorem gated_dmWrite (d : Fin 2) (r : DmReg) : Gated f (.dm d r) (dmWrite f d r val) := by
  cases r <;> exact gated_hostWrite ..

/-- TP_CTL's command acts after its fields; a write that the gate refuses reaches neither. -/
theorem gated_tpWrite (k : Fin 8) (r : TpReg) : Gated f (.tp k r) (tpWrite f k r val) := by
  cases r with
  | ctl =>
    refine ⟨fun reach gate => ?_⟩
    simp only [tpWrite, plainWrite, hostWrite_of_gate reach gate, andThen, gate, reduceCtorEq, if_false]
  | _ => exact gated_hostWrite ..

theorem gated_tetherWrite (r : TetherReg) : Gated f (.tether r) (tetherWrite f r val) := by
  cases r with
  | cmd =>
    unfold tetherWrite tetherCmdWrite
    dsimp only
    split <;> exact gated_hostWrite ..
  | _ => exact gated_hostWrite ..

theorem gated_hkWrite (k : Fin 8) (r : HkReg) : Gated f (.hk k r) (hkWrite f k r val) := by
  cases r with
  | cmd =>
    unfold hkWrite
    dsimp only
    split <;> exact gated_hostWrite ..
  | _ => exact gated_hostWrite ..

/-- The stud book refuses every host write by the code that a foreign owner's has (R520). -/
theorem gated_persistWrite (w : Fin 1048576) : Gated f (.persist w) (persistWrite f w val) := by
  unfold persistWrite
  split <;> exact gated_hostWrite ..

theorem gated_hubCellWrite (b : Bool) (c : Fin 1024) (r : BkReg) : Gated f (.hubCell b c r) (cellWrite f (.hub b c) (.hubCell b c r) r val) := by
  cases b with
  | false => cases r <;> exact gated_hostWrite ..
  | true => exact gated_of_free rfl (fun _ => rfl) _

end

/-- The gate stands before every register of BAR0. -/
theorem gated_regWrite (f : Func) (r : Reg) (val : Word) (env : WriteEnv) : Gated f r (regWrite f r val env) := by
  cases r with
  | power r => exact gated_powerWrite ..
  | time r => exact gated_timeWrite ..
  | pt p r => exact gated_ptWrite ..
  | dm d r => exact gated_dmWrite ..
  | tp k r => exact gated_tpWrite ..
  | tether r => exact gated_tetherWrite ..
  | tl k r => cases r <;> exact gated_hostWrite ..
  | hubCell b c r => exact gated_hubCellWrite ..
  | hkCtl status => cases status <;> exact gated_hostWrite ..
  | spineCmp i r => exact gated_cmpWrite f val (.spine i) r env
  | hk k r => exact gated_hkWrite ..
  | persist w => exact gated_persistWrite ..
  | ctl n r => exact gated_ctlWrite ..
  | cmp n w r => exact gated_cmpWrite f val (.stall n w) r env
  | drive n k r => exact gated_driveWrite ..
  | probe n k r => exact gated_probeWrite ..
  | voice v r => cases r <;> exact gated_hostWrite ..
  | seq v r => exact gated_seqWrite ..
  | acq n k r => cases r <;> exact gated_hostWrite ..
  | chan c r => exact gated_chanWrite ..
  | unit n u r => exact gated_unitWrite ..
  | group g cmd => exact gated_groupWrite ..
  | line l r => cases r <;> exact gated_hostWrite ..
  | node n r => exact gated_nodeWrite ..
  | cell n b r => cases r <;> exact gated_hostWrite ..
  | rider h r => exact gated_riderWrite ..
  | queue n i r => exact gated_queueWrite ..
  | farrier n r => exact gated_farrierWrite ..
  | scan | markerRoute | traceAllow | kernelPage | kernelTap | edge | riderSummary | store | env => exact gated_hostWrite ..
  | host | log | pba | msix | tack | hub | plane | reinChan | sfStud | qdir | tally => exact gated_of_free rfl (fun _ => rfl) _

/-- A 32-bit write at the offset of a register that the gate refuses. -/
theorem hostRegisterWrite_of_gate {s : State} {f : Func} {r : Reg} {addr : BitVec 28} {c : Code} (placed : regAddr r = addr.toNat)
    (reach : hostReach s f = true) (gate : gateCode s f r = some c) (val : Word64) (env : WriteEnv) :
    exec (.hostRegisterWrite f .b4 addr val env) s = .next (refuseReg f r c s) := by
  have write : exec (.hostRegisterWrite f .b4 addr val env) s = barWrite f .b4 (regAddr r) val env s := by rw [placed]; rfl
  rw [write, barWrite, if_pos (regAddr_aligned r), wordWriteAt, if_pos reach, decodeReg_regAddr]
  exact (gated_regWrite ..).refuses reach gate

/-- A 32-bit read at the offset of a register. -/
theorem wordReadAt_regAddr (f : Func) (r : Reg) (s : State) :
    wordReadAt f (regAddr r) s = if windowDark s r then (0, refuseReg f r 0x1F04 s) else
      (if r = .time (.now 0) then readReg f r (readEffect f r s) else latchedWord f r s, readEffect f r s) := by
  rw [wordReadAt, decodeReg_regAddr]

/-! ## What the gate says -/

/-- Function k acts as owner k, so only the physical function has owner 0's leave. -/
theorem mayAct_eq_false {f : Func} {o : Owner} (foreign : f.owner ≠ o) (notZero : f.owner ≠ 0) : mayAct f o = false := by
  have : f.val ≠ 0 := fun h => notZero (Fin.ext h)
  simp [mayAct, foreign, this]

/-- Another owner's write passes the window's checks and fails the owner's. -/
theorem gateCode_foreign {s : State} {f : Func} {r : Reg} {o : Owner} (owned : regOwner s r = some o) (foreign : f.owner ≠ o) (notZero : f.owner ≠ 0)
    (answers : ∀ n, regStall r = some (n, false) → (getStall s n).powered = true ∧ inCommit s n = false) : gateCode s f r = some 0x1F01 := by
  have owner := mayAct_eq_false foreign notZero
  rcases window : regStall r with _ | ⟨n, _ | _⟩
  · simp [gateCode, window, owned, owner]
  · obtain ⟨powered, idle⟩ := answers n window
    simp [gateCode, window, owned, owner, powered, idle]
  · simp [gateCode, window, owned, owner]

theorem gateCode_inCommit {s : State} {r : Reg} {n : StallId} (window : regStall r = some (n, false)) (busy : inCommit s n = true) (f : Func) :
    gateCode s f r = some 0x1D59 := by
  simp [gateCode, window, busy]

theorem gateCode_dark {s : State} {r : Reg} {n : StallId} (window : regStall r = some (n, false)) (idle : inCommit s n = false)
    (dark : (getStall s n).powered = false) (f : Func) : gateCode s f r = some 0x1F04 := by
  simp [gateCode, window, idle, dark]

/-- The CTL block has no window check: its writes can meet the owner's alone. -/
theorem gateCode_ctl {s : State} {f : Func} {r : Reg} {n : StallId} {c : Code} (ctl : regStall r = some (n, true)) (gate : gateCode s f r = some c) :
    c = 0x1F01 := by
  simp only [gateCode, ctl] at gate
  split at gate
  · split at gate <;> simp_all
  · cases gate

/-- A register of a stall window that answers reads as its latched or present value: none is TIME_NOW0. -/
theorem wordReadAt_window {s : State} {r : Reg} {n : StallId} {ctl : Bool} (window : regStall r = some (n, ctl)) (lit : windowDark s r = false) (f : Func) :
    wordReadAt f (regAddr r) s = (latchedWord f r s, readEffect f r s) := by
  have notTime : r ≠ .time (.now 0) := by rintro rfl; cases window
  simp [wordReadAt_regAddr, lit, notTime]

/-! ## The statements -/

/-- Settles O10: the gate finds the register under another owner, and its refusal is all that the write does. Which registers are under owner 0
without an RWL field is `regOwner`'s reading (log entry 15). -/
theorem foreignOwnersChangeNothing : Obligations.ForeignOwnersChangeNothing := by
  unfold Obligations.ForeignOwnersChangeNothing
  intro s f r o addr val env placed reach owned foreign notZero answers
  refine ⟨_, hostRegisterWrite_of_gate placed reach (gateCode_foreign owned foreign notZero answers) val env, ?_⟩
  rw [← placed]
  exact ⟨by simp, by simp, by simp, by simp, by simp, refuseReg_changes_funcs ..⟩

/-- Settles O11: no check of the window stands before CTL; outside it a write asks first for the load in commit, then for the power (log entry 12),
and a read is refused for want of power alone, and not during that load. -/
theorem darkAndBusyWindowsDiscardWrites : Obligations.DarkAndBusyWindowsDiscardWrites := by
  unfold Obligations.DarkAndBusyWindowsDiscardWrites
  intro s f r n addr placed reach
  have refused {c : Code} (gate : gateCode s f r = some c) (val : Word64) (env : WriteEnv) :
      ∃ t, exec (.hostRegisterWrite f .b4 addr val env) s = .next t ∧ (getFunc t f).lastCode = c ∧ noted t 0 c = true ∧ Changes [.funcs] s t :=
    ⟨_, hostRegisterWrite_of_gate placed reach gate val env, by simp, by simp, refuseReg_changes_funcs ..⟩
  refine ⟨fun ctl => ?_, fun window busy => ?_, fun window idle dark => ?_⟩
  · refine ⟨fun gate => ?_, fun gate => ?_, placed ▸ wordReadAt_window ctl (by simp [windowDark, ctl]) f⟩
    · exact absurd (gateCode_ctl ctl gate) (by decide)
    · exact absurd (gateCode_ctl ctl gate) (by decide)
  · exact ⟨refused (gateCode_inCommit window busy f), placed ▸ wordReadAt_window window (by simp [windowDark, window, busy]) f⟩
  · refine ⟨refused (gateCode_dark window idle dark f), _, ?_, by simp, by simp, refuseReg_changes_funcs f r 0x1F04 s⟩
    rw [← placed, wordReadAt_regAddr, if_pos (by simp [windowDark, window, idle, dark])]

end Sys2Proof.Machine
end

section
/-!
PROOFS. The data register of a housekeeping converter (R609): what a conversion leaves in it, and what a read of HK_DATA leaves of it.
-/

namespace Sys2Proof.Machine

open Sys2Proof

/-! ## What a record leaves -/

theorem ownerFunc_ne_zero {o : Owner} {f : Func} (h : ownerFunc o = some f) : f ≠ 0 := by
  unfold ownerFunc at h
  split at h
  · next owned =>
    cases h
    exact fun e => owned.2 (congrArg Fin.val e)
  · cases h

/-- The physical function's log holds the code of every record, whichever owner's log shows it too (R696). -/
@[simp] theorem noted_record (code : Code) (stall : Nat) (owner : Owner) (object aux : Word) (s : State) :
    noted (record code stall owner object aux s) 0 code = true := by
  unfold record
  split
  · next f hf =>
    rw [noted, getFunc_logInto_ne (ownerFunc_ne_zero hf)]
    exact noted_logInto ..
  · exact noted_logInto ..

@[simp] theorem getHk_record (code : Code) (stall : Nat) (owner : Owner) (object aux : Word) (s : State) (k : Fin 8) :
    getHk (record code stall owner object aux s) k = getHk s k := by
  simp [getHk]

/-! ## The data register after a conversion -/

/-- Converter `y` holds the result that entry `e` of converter `k` gives in `s`, and has counted an unread result that it replaced. -/
structure HoldsResult (s : State) (k : Fin 8) (e : ScanEntry) (code : BitVec 12) (y : HkConv) : Prop where
  valid : y.valid = true
  input : y.input = e.input
  gain : y.gain = hkGain e
  result : y.code = hkResult s k e code
  overrun : y.overrun = ((getHk s k).overrun || (getHk s k).valid)
  overruns : y.overruns = if (getHk s k).valid then satInc (getHk s k).overruns else (getHk s k).overruns

section
variable {s : State} {k : Fin 8} {e : ScanEntry} {code : BitVec 12} {y : HkConv}

theorem HoldsResult.ite {c : Prop} [Decidable c] {a b : HkConv} (ha : HoldsResult s k e code a) (hb : HoldsResult s k e code b) :
    HoldsResult s k e code (if c then a else b) := by
  split
  · exact ha
  · exact hb

/-- A list that starts afresh leaves the data register. -/
theorem HoldsResult.afterBegin (h : HoldsResult s k e code y) (now : Fine) : HoldsResult s k e code (hkBegin now y) :=
  ⟨h.valid, h.input, h.gain, h.result, h.overrun, h.overruns⟩

/-- The passage to the next entry leaves the data register. -/
theorem HoldsResult.afterNext (h : HoldsResult s k e code y) (now : Fine) : HoldsResult s k e code (hkNext now y) := by
  obtain ⟨valid, input, gain, result, overrun, overruns⟩ := h
  exact .ite ⟨valid, input, gain, result, overrun, overruns⟩
    (.ite ⟨valid, input, gain, result, overrun, overruns⟩ ⟨valid, input, gain, result, overrun, overruns⟩)

/-- A conversion that is due stores its result in its converter, be it an extra one (R608) or an entry's, and whether or not a START waits for
it; over an unread result it is recorded. -/
theorem conversion_of_due (running : (getHk s k).running = true) (due : (getHk s k).due ≤ s.clock.now)
    (entry : tabGet {} (getHk s k).entries (getHk s k).at_ = e) (code : BitVec 12) :
    ∃ y, HoldsResult s k e code y ∧
      conversion k code s = if (getHk s k).valid then record 0x3C11 8 0 0 0 (modHk k (fun _ => y) s) else modHk k (fun _ => y) s := by
  subst entry
  have kept {e : ScanEntry} {y : HkConv} (h : HoldsResult s k e code y) :
      HoldsResult s k e code (if (getHk s k).restart then hkBegin s.clock.now y else y) := .ite (h.afterBegin _) h
  unfold conversion
  rw [if_pos ⟨running, due⟩]
  refine ⟨_, kept (.ite ?extra (.afterNext ?result _)), rfl⟩
  case extra => exact ⟨rfl, rfl, rfl, rfl, rfl, rfl⟩
  case result => exact ⟨rfl, rfl, rfl, rfl, rfl, rfl⟩

end

/-! ## The statement -/

/-- Settles O12: the conversion's data register comes from `conversion_of_due`, and whether the result before it was read decides the rest. -/
theorem eachConverterHasOneDataRegister : Obligations.EachConverterHasOneDataRegister := by
  unfold Obligations.EachConverterHasOneDataRegister
  refine ⟨fun s k code e running due entry => ?_, fun s f k reach => ?_⟩
  · obtain ⟨y, holds, conv⟩ := conversion_of_due running due entry code
    have own : getHk (conversion k code s) k = y := by rw [conv]; split <;> simp
    have others (j : Fin 8) (h : j ≠ k) : getHk (conversion k code s) j = getHk s j := by
      rw [conv]
      split <;> simp [getHk_modHk_ne _ _ _ _ (Fin.val_ne_of_ne h.symm)]
    refine ⟨_, rfl, ?_⟩
    rw [own]
    refine ⟨holds.valid, holds.input, holds.gain, holds.result, fun unread => ?_, fun read => ?_, others,
      conversion_changes _ _ _ (by decide) (Changes.refl _ s)⟩
    · exact ⟨by simp [holds.overrun, unread], by simp [holds.overruns, unread], by simp [conv, unread]⟩
    · refine ⟨by simp [holds.overrun, read], by simp [holds.overruns, read], ?_⟩
      rw [conv, if_neg (by simp [read])]
      exact modHk_changes _ _ _ (by decide) (Changes.refl _ s)
  · have read : takeHkData f k s = modHk k (fun x => { x with valid := false, overrun := false }) s := if_pos reach
    exact ⟨_, congrArg Host.Outcome.next read, getHk_modHk .., fun _ h => getHk_modHk_ne _ _ _ _ (Fin.val_ne_of_ne h.symm),
      modHk_changes _ _ _ (by decide) (Changes.refl _ s)⟩

end Sys2Proof.Machine
end

section
/-!
PROOFS. A feed's silence and its return (R649, R650): the bit of a transmitter in TY_FEED, the entry in the Tally's log, and what the totals of the
next intact message add to the owners' counters.
-/

namespace Sys2Proof.Machine

open Sys2Proof

/-! ## Tables that loops write -/

/-- A loop that writes the keys which satisfy `p` leaves the value of each of them, and every other key as it was. -/
theorem tabFind_foldl_tabSet {α : Type} (p : Nat → Bool) (v : Nat → α) (ks : List Nat) (t : Tab α) (k : Nat) :
    tabFind k (ks.foldl (fun acc o => if p o then tabSet acc o (v o) else acc) t) = if k ∈ ks ∧ p k then some (v k) else tabFind k t := by
  induction ks generalizing t with
  | nil => simp
  | cons j ks ih =>
    rw [List.foldl_cons, ih]
    by_cases hjk : j = k
    · subst hjk
      cases hp : p j <;> simp [tabFind_tabSet]
    · cases hp : p j <;> simp [tabFind_tabSet_ne _ _ hjk, Ne.symm hjk]

/-- A loop over a table's entries leaves a key that the table does not list. -/
theorem tabGet_foldl_tabMod_of_none {α β : Type} (d : α) (f : β → α → α) {k : Nat} {l : Tab β} (h : tabFind k l = none) (t : Tab α) :
    tabGet d (l.foldl (fun acc e => tabMod d acc e.1 (f e.2)) t) k = tabGet d t k := by
  induction l generalizing t with
  | nil => rfl
  | cons e l ih =>
    obtain ⟨i, b⟩ := e
    by_cases hik : i = k
    · simp [tabFind, hik] at h
    · rw [List.foldl_cons, ih (by simpa [tabFind, hik] using h), tabGet_tabMod_ne hik]

/-- A table whose keys rise strictly lists none of a lower key again. -/
theorem tabFind_eq_none_of_sorted_cons {β : Type} {k : Nat} {b : β} {l : Tab β} (h : tabSorted ((k, b) :: l) = true) : tabFind k l = none := by
  rw [tabSorted_iff, List.pairwise_cons] at h
  obtain ⟨above, -⟩ := h
  induction l with
  | nil => rfl
  | cons e l ih =>
    have : e.1 ≠ k := (above e List.mem_cons_self).ne'
    simpa [tabFind, this] using ih fun x hx => above x (List.mem_cons_of_mem _ hx)

/-- A loop over the entries of a table in order acts once on each key that the table lists. -/
theorem tabGet_foldl_tabMod_of_some {α β : Type} (d : α) (f : β → α → α) {k : Nat} {b : β} {l : Tab β} (sorted : tabSorted l = true)
    (h : tabFind k l = some b) (t : Tab α) :
    tabGet d (l.foldl (fun acc e => tabMod d acc e.1 (f e.2)) t) k = f b (tabGet d t k) := by
  induction l generalizing t with
  | nil => cases h
  | cons e l ih =>
    obtain ⟨i, c⟩ := e
    by_cases hik : i = k
    · subst hik
      obtain rfl : c = b := by simpa [tabFind] using h
      rw [List.foldl_cons, tabGet_foldl_tabMod_of_none d f (tabFind_eq_none_of_sorted_cons sorted), tabGet_tabMod]
    · have rest : tabSorted l = true := by
        rw [tabSorted_iff] at sorted ⊢
        exact sorted.of_cons
      rw [List.foldl_cons, ih rest (by simpa [tabFind, hik] using h), tabGet_tabMod_ne hik]

/-! ## What totals add (R649) -/

theorem gained_sorted (totals old : Tab Counts) : tabSorted (gained totals old) = true := by
  refine List.foldlRecOn (motive := fun t : Tab Counts => tabSorted t = true) _ _ rfl fun acc sorted o _ => ?_
  split
  · exact tabSet_sorted _ _ _ sorted
  · exact sorted

theorem tabFind_gained {totals : Tab Counts} {o : Nat} (owner : o < 15) (listed : (tabFind o totals).isSome = true) (old : Tab Counts) :
    tabFind o (gained totals old) = some (subCounts (tabGet {} totals o) (tabGet {} old o)) := by
  unfold gained
  rw [tabFind_foldl_tabSet, if_pos ⟨List.mem_range.mpr owner, listed⟩]

@[simp] theorem takeTotals_keeps (n : StallId) (gen frame : Nat) (totals : Tab Counts) (t : Tally) :
    (takeTotals n gen frame totals t).feed = t.feed ∧ (takeTotals n gen frame totals t).logCount = t.logCount ∧
      (takeTotals n gen frame totals t).log = t.log :=
  ⟨rfl, rfl, rfl⟩

@[simp] theorem takeTotals_last (n : StallId) (gen frame : Nat) (totals : Tab Counts) (t : Tally) :
    tabFind n.val (takeTotals n gen frame totals t).last = some (gen, totals) :=
  tabFind_tabSet ..

/-- Totals of the generation that the Tally had last add their difference to each owner that they list. -/
theorem takeTotals_owners {n : StallId} {gen o : Nat} {totals old : Tab Counts} {t : Tally} (last : tabFind n.val t.last = some (gen, old))
    (owner : o < 15) (listed : (tabFind o totals).isSome = true) (frame : Nat) :
    tabGet {} (takeTotals n gen frame totals t).owners o =
      addCounts (tabGet {} t.owners o) (subCounts (tabGet {} totals o) (tabGet {} old o)) := by
  have same : (takeTotals n gen frame totals t).owners =
      (gained totals old).foldl (fun acc e => tabMod {} acc e.1 (addCounts · e.2)) t.owners := by
    simp [takeTotals, last]
  rw [same]
  exact tabGet_foldl_tabMod_of_some {} (fun c x => addCounts x c) (gained_sorted ..) (tabFind_gained owner listed old) t.owners

/-! ## The Tally's log (R661) -/

@[simp] theorem tallyLog_keeps (kind source : BitVec 8) (data : Word) (s : State) :
    (tallyLog kind source data s).tally.feed = s.tally.feed ∧ (tallyLog kind source data s).tally.state = s.tally.state ∧
      (tallyLog kind source data s).tally.owners = s.tally.owners ∧ (tallyLog kind source data s).tally.last = s.tally.last ∧
      (tallyLog kind source data s).feeds = s.feeds :=
  ⟨rfl, rfl, rfl, rfl, rfl⟩

@[simp] theorem tallyLog_logCount (kind source : BitVec 8) (data : Word) (s : State) :
    (tallyLog kind source data s).tally.logCount = s.tally.logCount + 1 := rfl

@[simp] theorem tallyLog_log_head? (kind source : BitVec 8) (data : Word) (s : State) :
    (tallyLog kind source data s).tally.log.head? =
      some { number := s.tally.logCount + 1, seconds := bits s.tally.clock 16 32, kind, source, data } := rfl

/-! ## The bit of a transmitter in TY_FEED -/

theorem feedBit_lt (k : FeedId) : feedBit k < 11 := by
  cases k with
  | stall n => exact n.isLt.trans (by decide)
  | spine => decide
  | inlet two => cases two <;> decide

theorem bit_feedMask (k : FeedId) (j : Nat) : bit (feedMask k) j = decide (feedBit k = j) := by
  rw [bit, feedMask, BitVec.getLsbD_ofNat, Nat.testBit_two_pow, Bool.and_eq_right_iff_imp, decide_eq_true_iff, decide_eq_true_iff]
  rintro rfl
  exact feedBit_lt k

theorem bit_or_feedMask (x : BitVec 11) (k : FeedId) : bit (x ||| feedMask k) (feedBit k) = true := by
  have stands : bit (feedMask k) (feedBit k) = true := by simp [bit_feedMask]
  exact (BitVec.getLsbD_or ..).trans (Bool.or_eq_true_iff.mpr (.inr stands))

theorem bit_and_not_feedMask (x : BitVec 11) (k : FeedId) (j : Nat) :
    bit (x &&& ~~~(feedMask k)) j = (bit x j && decide (j ≠ feedBit k)) := by
  have mask : (feedMask k).getLsbD j = decide (feedBit k = j) := bit_feedMask k j
  simp only [bit, BitVec.getLsbD_and, BitVec.getLsbD_not, mask, eq_comm (a := j), decide_not]
  cases stands : x.getLsbD j with
  | false => rfl
  | true => simp only [BitVec.lt_of_getLsbD stands, decide_true, Bool.true_and]

/-! ## The return of a stall's feed -/

/-- The first intact message of a silent stall feed: its bit is set, its return is logged, and its totals are taken. -/
theorem takeMessage_of_silent_stall {s : State} {n : StallId} {m : FeedIn} (from_ : m.from_ = .stall n) (silent : bit s.tally.feed n.val = false)
    (counts : s.tally.state ≠ .fault) :
    takeMessage m s =
      setTally (takeTotals n (getFeed s n.val).gen (getFeed s n.val).sentFrame (getFeed s n.val).sent)
        (tallyLog 0x11 (feedSource (.stall n)) 0 (setTally (fun t => { t with feed := t.feed ||| feedMask (.stall n) }) s)) := by
  simp [takeMessage, from_, feedBit, silent, counting, counts, getFeed]

/-! ## The statement -/

/-- Settles O58: a timeout is `feedLost` of a bit that stands, and the next message is `takeMessage_of_silent_stall`; the owners' gain is that of
`takeTotals_owners`, since neither the bit nor the log entry touches what the Tally last took from the stall. -/
theorem silentFeedsAreLoggedAndCaughtUp : Obligations.SilentFeedsAreLoggedAndCaughtUp := by
  unfold Obligations.SilentFeedsAreLoggedAndCaughtUp
  refine ⟨fun s k stands => ?_, fun s n m g old intact from_ silent counts last gen => ?_⟩
  · have lost : feedLost k s =
        tallyLog 0x10 (feedSource k) 0 (setTally (fun t => { t with feed := t.feed &&& ~~~(feedMask k) }) s) := if_pos stands
    refine ⟨feedLost k s, rfl, ?_, fun j other => ?_, ?_, ?_, ?_, ?_, feedLost_changes k s (by decide) (Changes.refl _ s)⟩
    · simp [lost, bit_and_not_feedMask]
    · simp [lost, bit_and_not_feedMask, other]
    all_goals simp [lost]
  · subst gen
    have back := takeMessage_of_silent_stall from_ silent counts
    have taken : exec (.feedMessage m) s = .next (takeMessage m s) := congrArg Host.Outcome.next (if_pos intact)
    refine ⟨_, taken, ?_, ?_, ?_, fun o owner listed => ?_, ?_, takeMessage_changes m s (by decide) (Changes.refl _ s)⟩
    · rw [back]
      exact bit_or_feedMask s.tally.feed (.stall n)
    · simp [back]
    · simp [back]
    · rw [back, setTally_tally, takeTotals_owners (old := old) (by simpa using last) owner listed]
      simp
    · simp [back]

end Sys2Proof.Machine
end

section
/-!
PROOFS. Unassigned offsets (R692): an offset that decodes is the offset of the register it names, so one that no register has decodes to none, and a
write or a read there is recorded and does nothing else.
-/

namespace Sys2Proof.Machine

open Sys2Proof

/-! ## Lookups that name a register by its own offset -/

/-- What a lookup finds, if anything, is a register that lies at offset `a` of BAR0. -/
def NamesAt (a : Nat) (found : Option Reg) : Prop := ∀ r, found = some r → regAddr r = a

section
variable {a o : Nat}

theorem NamesAt.ofNone : NamesAt a none := nofun

theorem NamesAt.ofSome {r : Reg} (h : regAddr r = a) : NamesAt a (some r) := fun _ e => Option.some.inj e ▸ h

theorem NamesAt.ofIte {c : Prop} [Decidable c] {x y : Option Reg} (hx : c → NamesAt a x) (hy : ¬c → NamesAt a y) :
    NamesAt a (if c then x else y) := by
  split
  · exact hx ‹_›
  · exact hy ‹_›

/-- A block's map finds only a register of that offset in the block. -/
theorem NamesAt.ofRegAt {ρ : Type} {off : ρ → Nat} {all : List ρ} {mk : ρ → Reg} (h : ∀ r, off r = o → regAddr (mk r) = a) :
    NamesAt a ((regAt off all o).map mk) := by
  intro _ e
  obtain ⟨r, found, rfl⟩ := Option.map_eq_some_iff.mp e
  exact h r (by simpa using List.find?_some (p := fun y => off y == o) found)

theorem val_of_fin?_eq_some {n i : Nat} {k : Fin n} (h : fin? n i = some k) : k.val = i := by
  unfold fin? at h
  split at h
  · cases h
    rfl
  · cases h

theorem NamesAt.ofIndexed {n stride : Nat} {rest : Fin n → Nat → Option Reg} (h : ∀ i j, o = i.val * stride + j → NamesAt a (rest i j)) :
    NamesAt a (indexed n stride o rest) := by
  unfold indexed
  split
  · next i hi => exact h i _ (by rw [val_of_fin?_eq_some hi, Nat.div_add_mod'])
  · exact .ofNone

theorem NamesAt.ofWordAt {n : Nat} {mk : Fin n → Reg} (h : ∀ w, o = w.val * 4 → regAddr (mk w) = a) : NamesAt a (wordAt n o mk) := by
  refine .ofIte (fun aligned r e => ?_) fun _ => .ofNone
  obtain ⟨w, hw, rfl⟩ := Option.map_eq_some_iff.mp e
  have := val_of_fin?_eq_some hw
  exact h w (by omega)

/-! ## The blocks

Each lemma follows its decoder's tests; what is left at a leaf is that the block's base, the strides and the offset found there add up. -/

theorem namesAt_decodeHub (b : Bool) : NamesAt ((if b then 0x60000 else 0x50000) + o) (decodeHub b o) := by
  unfold decodeHub
  refine .ofIte (fun _ => .ofIte (fun _ => .ofNone) fun isA => .ofRegAt fun r _ => ?hub) fun _ =>
    .ofIte (fun _ => .ofSome ?plane) fun _ =>
    .ofIte (fun _ => .ofSome ?planeErr) fun _ =>
    .ofIte (fun _ => .ofNone) fun _ =>
    .ofIte (fun _ => .ofIndexed fun c j _ => .ofRegAt fun r _ => ?cell) fun _ =>
    .ofIte (fun _ => .ofNone) fun _ => .ofIte (fun _ => .ofNone) fun isA => .ofWordAt fun e _ => ?reinChan
  case hub | reinChan =>
    simp only [regAddr, if_neg isA]
    omega
  all_goals
    simp only [regAddr, Bool.false_eq_true, ↓reduceIte]
    omega

theorem namesAt_decodeWatch : NamesAt (0x70000 + o) (decodeWatch o) := by
  unfold decodeWatch
  refine .ofIte (fun zero => .ofSome (zero ▸ rfl)) fun _ =>
    .ofIte (fun four => .ofSome (four ▸ rfl)) fun _ =>
    .ofIte (fun _ => .ofNone) fun _ =>
    .ofIte (fun _ => .ofIndexed fun k j _ => .ofRegAt fun r _ => ?hk) fun _ =>
    .ofIte (fun _ => .ofNone) fun _ =>
    .ofIte (fun _ => .ofIndexed fun k j _ => .ofWordAt fun i _ => ?scan) fun _ =>
    .ofIndexed fun k j _ => .ofRegAt fun r _ => ?spineCmp
  all_goals
    simp only [regAddr]
    omega

theorem namesAt_decodeTime : NamesAt (0x30000 + o) (decodeTime o) := by
  unfold decodeTime
  refine .ofIte (fun _ => .ofRegAt fun r _ => ?low) fun _ =>
    .ofIte (fun _ => .ofIndexed fun p j _ => .ofRegAt fun r _ => ?port) fun _ =>
    .ofIte (fun _ => .ofNone) fun _ =>
    .ofIte (fun _ => .ofIndexed fun d j _ => .ofRegAt fun r _ => ?domain) fun _ =>
    .ofIte (fun _ => .ofNone) fun _ =>
    .ofIte (fun _ => .ofIndexed fun k j _ => .ofRegAt fun r _ => ?pulse) fun _ =>
    .ofRegAt fun r _ => ?pace
  all_goals
    simp only [regAddr]
    omega

theorem namesAt_decodeVoices (n : StallId) (b : Bool) : NamesAt (stallBase n + voiceBlock b + o) (decodeVoices n b o) := by
  unfold decodeVoices
  refine .ofIte (fun _ => .ofIte (fun isProbe => .ofIndexed fun k j _ => .ofRegAt fun r _ => ?probe)
      fun isDrive => .ofIndexed fun k j _ => .ofRegAt fun r _ => ?drive) fun _ =>
    .ofIte (fun _ => .ofIndexed fun v j _ => .ofRegAt fun r _ => ?voice) fun _ =>
    .ofIte (fun _ => .ofWordAt fun k _ => ?marker) fun _ =>
    .ofIndexed fun v j _ => .ofRegAt fun r _ => ?seq
  case probe =>
    simp only [regAddr, voiceBlock, if_pos isProbe]
    omega
  case drive =>
    simp only [regAddr, voiceBlock, if_neg isDrive]
    omega
  all_goals
    simp only [regAddr]
    omega

theorem namesAt_decodeAcq (n : StallId) : NamesAt (stallBase n + 0x30000 + o) (decodeAcq n o) := by
  unfold decodeAcq
  refine .ofIte (fun _ => .ofIndexed fun k j _ => .ofRegAt fun r _ => ?acq) fun _ =>
    .ofIte (fun _ => .ofIndexed fun u j _ => .ofRegAt fun r _ => ?unit) fun _ =>
    .ofIte (fun _ => .ofSome ?traceAllow) fun _ =>
    .ofIte (fun _ => .ofNone) fun _ =>
    .ofIte (fun _ => .ofIndexed fun c j _ => .ofRegAt fun r _ => ?chan) fun _ =>
    .ofIte (fun _ => .ofSome ?kernelPage) fun _ =>
    .ofIte (fun _ => .ofNone) fun _ => .ofWordAt fun t _ => ?kernelTap
  all_goals
    simp only [regAddr]
    omega

theorem namesAt_decodeFlux (n : StallId) : NamesAt (stallBase n + 0x40000 + o) (decodeFlux n o) := by
  unfold decodeFlux
  refine .ofIte (fun _ => .ofIndexed fun g j _ => .ofIte (fun _ => .ofSome ?cfg) fun _ => .ofIte (fun _ => .ofSome ?cmd) fun _ => .ofNone) fun _ =>
    .ofIte (fun _ => .ofNone) fun _ =>
    .ofIte (fun _ => .ofIndexed fun l j _ => .ofRegAt fun r _ => ?line) fun _ =>
    .ofIte (fun _ => .ofNone) fun _ => .ofIndexed fun l j _ => .ofWordAt fun t _ => ?edge
  all_goals
    simp only [regAddr, Bool.false_eq_true, ↓reduceIte]
    omega

/-- The offset of a part of the map inside the whole. -/
theorem NamesAt.at {b : Nat} {found : Option Reg} (h : NamesAt b found) (same : b = a) : NamesAt a found := same ▸ h

theorem namesAt_decodeStall (n : StallId) : NamesAt (stallBase n + o) (decodeStall n o) := by
  unfold decodeStall
  refine .ofIte (fun _ => .ofIte (fun _ => .ofRegAt fun r _ => ?ctl) fun _ => .ofIndexed fun w j _ => .ofRegAt fun r _ => ?cmp) fun _ =>
    .ofIte (fun _ => (namesAt_decodeVoices n false).at ?drive) fun _ =>
    .ofIte (fun _ => (namesAt_decodeVoices n true).at ?probe) fun _ =>
    .ofIte (fun _ => (namesAt_decodeAcq n).at ?acq) fun _ =>
    .ofIte (fun _ => (namesAt_decodeFlux n).at ?flux) fun _ =>
    .ofIte (fun _ => .ofIte (fun _ => .ofRegAt fun r _ => ?node) fun _ => .ofIndexed fun b j _ => .ofRegAt fun r _ => ?cell) fun _ =>
    .ofIte (fun _ => .ofIndexed fun h j _ => .ofRegAt fun r _ => ?rider) fun _ =>
    .ofIte (fun _ => .ofSome ?riderSummary) fun _ =>
    .ofIte (fun _ => .ofNone) fun _ =>
    .ofIte (fun _ => .ofIndexed fun q j _ => .ofRegAt fun r _ => ?queue) fun _ =>
    .ofIte (fun _ => .ofRegAt fun r _ => ?farrier) fun _ =>
    .ofIte (fun _ => .ofWordAt fun w _ => ?store) fun _ => .ofWordAt fun w _ => ?env
  case drive | probe =>
    simp only [voiceBlock, Bool.false_eq_true, ↓reduceIte]
    omega
  case acq | flux => omega
  all_goals
    simp only [regAddr]
    omega

theorem namesAt_decodeSpine : NamesAt o (decodeSpine o) := by
  unfold decodeSpine
  refine .ofIte (fun _ => .ofRegAt fun r _ => ?host) fun _ =>
    .ofIte (fun _ => .ofIndexed fun k j _ => .ofWordAt fun w _ => ?log) fun _ =>
    .ofIte (fun _ => .ofNone) fun _ =>
    .ofIte (fun _ => .ofWordAt fun w _ => ?pba) fun _ =>
    .ofIte (fun _ => .ofIndexed fun e j _ => .ofWordAt fun w _ => ?msix) fun _ =>
    .ofIte (fun _ => .ofRegAt fun r _ => ?power) fun _ =>
    .ofIte (fun _ => .ofRegAt fun r _ => ?tack) fun _ =>
    .ofIte (fun _ => namesAt_decodeTime.at ?time) fun _ =>
    .ofIte (fun _ => .ofIte (fun _ => .ofRegAt fun r _ => ?tether) fun _ => .ofIndexed fun k j _ => .ofRegAt fun r _ => ?lane) fun _ =>
    .ofIte (fun _ => (namesAt_decodeHub false).at ?hubA) fun _ =>
    .ofIte (fun _ => (namesAt_decodeHub true).at ?hubB) fun _ =>
    .ofIte (fun _ => namesAt_decodeWatch.at ?watch) fun _ =>
    .ofIte (fun _ => .ofIte (fun _ => .ofSome ?stud) fun _ => .ofNone) fun _ => .ofRegAt fun r _ => ?qdir
  case hubA | hubB =>
    simp only [Bool.false_eq_true, ↓reduceIte]
    omega
  case time | watch => omega
  all_goals
    simp only [regAddr]
    omega

theorem namesAt_decodeReg : NamesAt a (decodeReg a) := by
  unfold decodeReg
  refine .ofIte (fun _ => namesAt_decodeSpine) fun _ =>
    .ofIte (fun _ => .ofWordAt fun w _ => ?persist) fun _ =>
    .ofIte (fun _ => .ofNone) fun _ =>
    .ofIte (fun _ => .ofIndexed fun n j _ => (namesAt_decodeStall n).at ?window) fun _ =>
    .ofIte (fun _ => .ofNone) fun _ => .ofWordAt fun w _ => ?tally
  case window =>
    simp only [stallBase]
    omega
  all_goals
    simp only [regAddr]
    omega

end

/-- An offset that no register has names none. -/
theorem decodeReg_unassigned {a : Nat} (unassigned : ∀ r, regAddr r ≠ a) : decodeReg a = none :=
  Option.eq_none_iff_forall_ne_some.mpr fun r found => unassigned r (namesAt_decodeReg r found)

/-! ## The refusal of an access -/

/-- Function `f`'s access to `offset` of BAR0 was refused with `code` in `s`, which gives `t`: it stands in the function's error status, in the
physical function's log and in its own, and nothing but the functions' records changed (R695, R696). -/
structure RecordsRefusal (f : Func) (offset : Nat) (code : Code) (s t : State) : Prop where
  lastCode : (getFunc t f).lastCode = code
  errCount : (getFunc t f).errCount = satInc (getFunc s f).errCount
  errOffset : (getFunc t f).errOffset = BitVec.ofNat 36 offset
  notedPhysical : noted t 0 code = true
  notedOwn : noted t f code = true
  changes : Changes [.funcs] s t

theorem refuseAt_recordsRefusal (f : Func) (offset : Nat) (code : Code) (owner : Owner) (stall : Nat) (object aux : Word) (s : State) :
    RecordsRefusal f offset code s (refuseAt f false offset code owner stall object aux s) := by
  have changes := refuseAt_changes f false offset code owner stall object aux s (by decide) (Changes.refl [.funcs] s)
  by_cases physical : f = 0
  · subst physical
    refine ⟨?_, ?_, ?_, noted_logInto .., noted_logInto .., changes⟩ <;> simp [refuseAt]
  · have virtual : f.val ≠ 0 := fun e => physical (Fin.ext e)
    simp only [refuseAt, if_neg virtual] at changes ⊢
    refine ⟨by simp, by simp, by simp, ?_, noted_logInto .., changes⟩
    rw [noted, getFunc_logInto_ne physical]
    exact noted_logInto ..

/-! ## The statement -/

/-- A 32-bit write at a word boundary where no register lies is refused there. -/
theorem hostRegisterWrite_unassigned {s : State} {f : Func} {addr : BitVec 28} (reach : hostReach s f = true) (aligned : addr.toNat % 4 = 0)
    (unassigned : ∀ r, regAddr r ≠ addr.toNat) (val : Word64) (env : WriteEnv) :
    exec (.hostRegisterWrite f .b4 addr val env) s =
      .next (refuseAt f false addr.toNat 0x1F03 0 (offsetStall addr.toNat) 0 (BitVec.ofNat 32 addr.toNat) s) := by
  have write : exec (.hostRegisterWrite f .b4 addr val env) s = barWrite f .b4 addr.toNat val env s := rfl
  rw [write, barWrite, if_pos aligned, wordWriteAt, if_pos reach, decodeReg_unassigned unassigned]

/-- A read where no register lies returns 0 and is refused there. -/
theorem wordReadAt_unassigned {a : Nat} (unassigned : ∀ r, regAddr r ≠ a) (f : Func) (s : State) :
    wordReadAt f a s = (0, refuseAt f false a 0x1F03 0 (offsetStall a) 0 (BitVec.ofNat 32 a) s) := by
  rw [wordReadAt, decodeReg_unassigned unassigned]

/-- Settles O9: no lookup of the map names a register away from its own offset, so the offset decodes to none; the write and the read then are one and
the same refusal, and `refuseAt_recordsRefusal` says all that it leaves. That the offset is looked up before a stall window is asked is the model's
order of checks (log entry 12). -/
theorem unassignedOffsetsAnswerNothing : Obligations.UnassignedOffsetsAnswerNothing := by
  unfold Obligations.UnassignedOffsetsAnswerNothing
  intro s f addr reach aligned unassigned
  obtain ⟨lastCode, errCount, errOffset, physical, own, changes⟩ :=
    refuseAt_recordsRefusal f addr.toNat 0x1F03 0 (offsetStall addr.toNat) 0 (BitVec.ofNat 32 addr.toNat) s
  refine ⟨fun val env => ⟨_, hostRegisterWrite_unassigned reach aligned unassigned val env, ?_⟩, _, wordReadAt_unassigned unassigned f s, ?_⟩
  · exact ⟨lastCode, errCount, errOffset, physical, own, changes⟩
  · exact ⟨lastCode, errCount, errOffset, physical, own, changes⟩

end Sys2Proof.Machine
end

section
/-!
PROOFS. One step: the command at the front of the queue, the beat of an empty queue, what every command answers and leaves alone; the address map; commands
whose operands name nothing; the reset state.
-/

namespace Sys2Proof.Machine

set_option Elab.async false

open Sys2Proof

/-- Settles O8: both directions of the address map, from the lookups of the blocks. -/
theorem offsetsNameOneRegisterEach : Obligations.OffsetsNameOneRegisterEach :=
  ⟨decodeReg_regAddr, fun _ _ found => namesAt_decodeReg _ found⟩

/-- Settles O1: the queue of a step that has a front command decides the match of `step`. -/
theorem stepRunsTheFrontCommand : Obligations.StepRunsTheFrontCommand := by
  intro s c rest front
  rw [step, front]

/-! ## The queue of waiting commands -/

/-- Every part of the state but the queue of waiting commands. -/
def behindQueue : List Part :=
  [.clock, .host, .funcs, .irqs, .power, .backup, .persist, .tack, .spine, .herdImage, .hubImage, .stallImages, .stalls, .gaits, .slices, .acqs, .voices,
   .seqs, .chans, .units, .nodes, .cells, .books, .flights, .nextFlight, .hub, .riders, .lines, .fasts, .groups, .queues, .qdir, .farriers, .trims,
   .shotAudits, .lanes, .tether, .tc, .ethPorts, .domains, .pulses, .watches, .hks, .hkCtl, .feeds, .tally, .hbm, .library, .descs, .kernels, .store,
   .held, .latched, .freeCtr]

/-- What every command may change: all but the queue of waiting commands. -/
theorem exec_changes (c : Instr) (s : State) : ResChanges behindQueue s (exec c s) := by
  cases c with
  | powerUp f n found => exact execPowerUp_changes f n found s (by decide) (Changes.refl _ s)
  | frameAlignmentDone n bring => exact execFrameAlignmentDone_changes n bring s (by decide) (Changes.refl _ s)
  | alignmentTimeout n bring => exact execAlignmentTimeout_changes n bring s (by decide) (Changes.refl _ s)
  | start f n => exact execStart_changes f n s (by decide) (Changes.refl _ s)
  | drain f n => exact execDrain_changes f n s (by decide) (Changes.refl _ s)
  | unload f n => exact execUnload_changes f n s (by decide) (Changes.refl _ s)
  | powerDown f n => exact execPowerDown_changes f n s (by decide) (Changes.refl _ s)
  | halt f n => exact execHalt_changes f n s (by decide) (Changes.refl _ s)
  | stallFatalFault n code object => exact execStallFatalFault_changes n code object s (by decide) (Changes.refl _ s)
  | ridersAllStopped n => exact execRidersAllStopped_changes n s (by decide) (Changes.refl _ s)
  | drainTimeout n => exact execDrainTimeout_changes n s (by decide) (Changes.refl _ s)
  | stallPowerLoss n domain bring => exact execStallPowerLoss_changes n domain bring s (by decide) (Changes.refl _ s)
  | spareTakeover f n kind target => exact execSpareTakeover_changes f n kind target s (by decide) (Changes.refl _ s)
  | spareRelease f n kind => exact execSpareRelease_changes f n kind s (by decide) (Changes.refl _ s)
  | spareSwitch n kind => exact execSpareSwitch_changes n kind s (by decide) (Changes.refl _ s)
  | spareSilenceTimeout n kind => exact execSpareSilenceTimeout_changes n kind s (by decide) (Changes.refl _ s)
  | sliceConverterFault slice => exact execSliceConverterFault_changes slice s (by decide) (Changes.refl _ s)
  | forcedTakeoverComplete n kind => exact execForcedTakeoverComplete_changes n kind s (by decide) (Changes.refl _ s)
  | dacGateUnderrun gate beats => exact execDacGateUnderrun_changes gate beats s (by decide) (Changes.refl _ s)
  | adcGateFull n slice frame => exact execAdcGateFull_changes n slice frame s (by decide) (Changes.refl _ s)
  | trotLatchPoint v => exact execTrotLatchPoint_changes v s (by decide) (Changes.refl _ s)
  | trotRelease v => exact execTrotRelease_changes v s (by decide) (Changes.refl _ s)
  | paceMeasurement place monitor margin => exact execPaceMeasurement_changes place monitor margin s (by decide) (Changes.refl _ s)
  | trotDeadlineWrite f n k val => exact execTrotDeadlineWrite_changes f n k val s (by decide) (Changes.refl _ s)
  | paceWarnClear f place => exact execPaceWarnClear_changes f place s (by decide) (Changes.refl _ s)
  | loadStall f n slot => exact execLoadStall_changes f n slot s (by decide) (Changes.refl _ s)
  | loadHerd f slot => exact execLoadHerd_changes f slot s (by decide) (Changes.refl _ s)
  | loadHub f slot => exact execLoadHub_changes f slot s (by decide) (Changes.refl _ s)
  | check f n slot => exact execCheck_changes f n slot s (by decide) (Changes.refl _ s)
  | abort f bring => exact execAbort_changes f bring s (by decide) (Changes.refl _ s)
  | tackChecksEnd checks bring => exact execTackChecksEnd_changes checks bring s (by decide) (Changes.refl _ s)
  | loadEnd result bring => exact execLoadEnd_changes result bring s (by decide) (Changes.refl _ s)
  | stagingSlotWrite f addr bytes => exact execStagingSlotWrite_changes f addr bytes s (by decide) (Changes.refl _ s)
  | ftwLoWrite f v val => exact execFtwLoWrite_changes f v val s (by decide) (Changes.refl _ s)
  | ftwHiWrite f v val grant => exact execFtwHiWrite_changes f v val grant s (by decide) (Changes.refl _ s)
  | voiceTuningWrite f v reg val grant => exact execVoiceTuningWrite_changes f v reg val grant s (by decide) (Changes.refl _ s)
  | delayWrite f v val grant => exact execDelayWrite_changes f v val grant s (by decide) (Changes.refl _ s)
  | delayTakesEffect v => exact execDelayTakesEffect_changes v s (by decide) (Changes.refl _ s)
  | sumGuardClip slice sample => exact execSumGuardClip_changes slice sample s (by decide) (Changes.refl _ s)
  | guardHitClear f slice => exact execGuardHitClear_changes f slice s (by decide) (Changes.refl _ s)
  | slCtlWrite f slice val => exact execSlCtlWrite_changes f slice val s (by decide) (Changes.refl _ s)
  | attenTakesEffect slice => exact execAttenTakesEffect_changes slice s (by decide) (Changes.refl _ s)
  | portOpenTimer slice => exact execPortOpenTimer_changes slice s (by decide) (Changes.refl _ s)
  | switchReadbackMismatch slice => exact execSwitchReadbackMismatch_changes slice s (by decide) (Changes.refl _ s)
  | voiceStart f v desc grant => exact execVoiceStart_changes f v desc grant s (by decide) (Changes.refl _ s)
  | loadAlt f v desc grant => exact execLoadAlt_changes f v desc grant s (by decide) (Changes.refl _ s)
  | selectAlt f v grant => exact execSelectAlt_changes f v grant s (by decide) (Changes.refl _ s)
  | branch f v desc grant => exact execBranch_changes f v desc grant s (by decide) (Changes.refl _ s)
  | break_ f v grant => exact execBreak_changes f v grant s (by decide) (Changes.refl _ s)
  | stop f v grant => exact execStop_changes f v grant s (by decide) (Changes.refl _ s)
  | playStart v => exact execPlayStart_changes v s (by decide) (Changes.refl _ s)
  | descriptorLoadDone v side => exact execDescriptorLoadDone_changes v side s (by decide) (Changes.refl _ s)
  | commitPoint v => exact execCommitPoint_changes v s (by decide) (Changes.refl _ s)
  | repetitionBoundary v => exact execRepetitionBoundary_changes v s (by decide) (Changes.refl _ s)
  | segmentBoundary v => exact execSegmentBoundary_changes v s (by decide) (Changes.refl _ s)
  | streamUnderrun v => exact execStreamUnderrun_changes v s (by decide) (Changes.refl _ s)
  | streamResume v => exact execStreamResume_changes v s (by decide) (Changes.refl _ s)
  | envelopeWindowWrite f n w val => exact execEnvelopeWindowWrite_changes f n w val s (by decide) (Changes.refl _ s)
  | asCtlWrite f n k val => exact execAsCtlWrite_changes f n k val s (by decide) (Changes.refl _ s)
  | rangeTakesEffect n k => exact execRangeTakesEffect_changes n k s (by decide) (Changes.refl _ s)
  | adcFullScaleCode n k sample => exact execAdcFullScaleCode_changes n k sample s (by decide) (Changes.refl _ s)
  | chCtlWrite f c val => exact execChCtlWrite_changes f c val s (by decide) (Changes.refl _ s)
  | filterTakesEffect c => exact execFilterTakesEffect_changes c s (by decide) (Changes.refl _ s)
  | stagedSetWrite f c reg val => exact execStagedSetWrite_changes f c reg val s (by decide) (Changes.refl _ s)
  | chCommit f c => exact execChCommit_changes f c s (by decide) (Changes.refl _ s)
  | kernelWindowWrite f n t val => exact execKernelWindowWrite_changes f n t val s (by decide) (Changes.refl _ s)
  | windowStart c => exact execWindowStart_changes c s (by decide) (Changes.refl _ s)
  | windowDecision c sig => exact execWindowDecision_changes c sig s (by decide) (Changes.refl _ s)
  | arm f u => exact execArm_changes f u s (by decide) (Changes.refl _ s)
  | disarm f u => exact execDisarm_changes f u s (by decide) (Changes.refl _ s)
  | force f u => exact execForce_changes f u s (by decide) (Changes.refl _ s)
  | release f u => exact execRelease_changes f u s (by decide) (Changes.refl _ s)
  | levelCrossing u sample sig => exact execLevelCrossing_changes u sample sig s (by decide) (Changes.refl _ s)
  | scheduleTimeTrigger u => exact execScheduleTimeTrigger_changes u s (by decide) (Changes.refl _ s)
  | hobbleEnd u => exact execHobbleEnd_changes u s (by decide) (Changes.refl _ s)
  | recordEnd u sig => exact execRecordEnd_changes u sig s (by decide) (Changes.refl _ s)
  | storageBehind u => exact execStorageBehind_changes u s (by decide) (Changes.refl _ s)
  | tuRdWrite f u val => exact execTuRdWrite_changes f u val s (by decide) (Changes.refl _ s)
  | markerEdge v bit level => exact execMarkerEdge_changes v bit level s (by decide) (Changes.refl _ s)
  | hubEntry copy nodeWaits hubWaits => exact execHubEntry_changes copy nodeWaits hubWaits s (by decide) (Changes.refl _ s)
  | compareUnitCopy copy planeB waits => exact execCompareUnitCopy_changes copy planeB waits s (by decide) (Changes.refl _ s)
  | missingCopyTimeout copy => exact execMissingCopyTimeout_changes copy s (by decide) (Changes.refl _ s)
  | consumerDelivery copy waits => exact execConsumerDelivery_changes copy waits s (by decide) (Changes.refl _ s)
  | cellEvaluation cell => exact execCellEvaluation_changes cell s (by decide) (Changes.refl _ s)
  | joinWindowExpiry cell => exact execJoinWindowExpiry_changes cell s (by decide) (Changes.refl _ s)
  | filterWidthExpiry cell => exact execFilterWidthExpiry_changes cell s (by decide) (Changes.refl _ s)
  | fabricFault place cause chan cell => exact execFabricFault_changes place cause chan cell s (by decide) (Changes.refl _ s)
  | scrubPass place singles double => exact execScrubPass_changes place singles double s (by decide) (Changes.refl _ s)
  | setFlipFlop f n cell value inv => exact execSetFlipFlop_changes f n cell value inv s (by decide) (Changes.refl _ s)
  | clearFlipFlops f n => exact execClearFlipFlops_changes f n s (by decide) (Changes.refl _ s)
  | bkFilterWrite f cell val => exact execBkFilterWrite_changes f cell val s (by decide) (Changes.refl _ s)
  | reinInject f chan value inv grant => exact execReinInject_changes f chan value inv grant s (by decide) (Changes.refl _ s)
  | takeOut f planeB => exact execTakeOut_changes f planeB s (by decide) (Changes.refl _ s)
  | return_ f planeB => exact execReturn_changes f planeB s (by decide) (Changes.refl _ s)
  | rejoinReadbackDone good => exact execRejoinReadbackDone_changes good s (by decide) (Changes.refl _ s)
  | hubSettlePoint => exact execHubSettlePoint_changes s (by decide) (Changes.refl _ s)
  | reinAuditCmd f chan => exact execReinAuditCmd_changes f chan s (by decide) (Changes.refl _ s)
  | channelAuditSettlePoint => exact execChannelAuditSettlePoint_changes s (by decide) (Changes.refl _ s)
  | nop r u => exact execNop_changes r u s (by decide) (Changes.refl _ s)
  | alu r u => exact execAlu_changes r u s (by decide) (Changes.refl _ s)
  | time r u => exact execTime_changes r u s (by decide) (Changes.refl _ s)
  | take r u => exact execTake_changes r u s (by decide) (Changes.refl _ s)
  | push r u => exact execPush_changes r u s (by decide) (Changes.refl _ s)
  | pop r u => exact execPop_changes r u s (by decide) (Changes.refl _ s)
  | irq r u => exact execIrq_changes r u s (by decide) (Changes.refl _ s)
  | shotBegin r u => exact execShotBegin_changes r u s (by decide) (Changes.refl _ s)
  | shotEnd r u => exact execShotEnd_changes r u s (by decide) (Changes.refl _ s)
  | vstart r u => exact execVstart_changes r u s (by decide) (Changes.refl _ s)
  | vloadalt r u => exact execVloadalt_changes r u s (by decide) (Changes.refl _ s)
  | vselalt r u => exact execVselalt_changes r u s (by decide) (Changes.refl _ s)
  | vbranch r u => exact execVbranch_changes r u s (by decide) (Changes.refl _ s)
  | vbreak r u => exact execVbreak_changes r u s (by decide) (Changes.refl _ s)
  | vstop r u => exact execVstop_changes r u s (by decide) (Changes.refl _ s)
  | fork r u => exact execFork_changes r u s (by decide) (Changes.refl _ s)
  | vtune r u => exact execVtune_changes r u s (by decide) (Changes.refl _ s)
  | fluxDcGoal r u => exact execFluxDcGoal_changes r u s (by decide) (Changes.refl _ s)
  | fluxFastCode r u => exact execFluxFastCode_changes r u s (by decide) (Changes.refl _ s)
  | fluxDcCode r u => exact execFluxDcCode_changes r u s (by decide) (Changes.refl _ s)
  | open_ r u => exact execOpen_changes r u s (by decide) (Changes.refl _ s)
  | emit r u => exact execEmit_changes r u s (by decide) (Changes.refl _ s)
  | emitRelay r u => exact execEmitRelay_changes r u s (by decide) (Changes.refl _ s)
  | ffSet r u => exact execFfSet_changes r u s (by decide) (Changes.refl _ s)
  | ffClear r u => exact execFfClear_changes r u s (by decide) (Changes.refl _ s)
  | ctrig r u => exact execCtrig_changes r u s (by decide) (Changes.refl _ s)
  | waitConditionTrue r u => exact execWaitConditionTrue_changes r u s (by decide) (Changes.refl _ s)
  | waitDeadline r => exact execWaitDeadline_changes r s (by decide) (Changes.refl _ s)
  | postGranted r => exact execPostGranted_changes r s (by decide) (Changes.refl _ s)
  | riderRelease r => exact execRiderRelease_changes r s (by decide) (Changes.refl _ s)
  | riderStart f r => exact execRiderStart_changes f r s (by decide) (Changes.refl _ s)
  | riderStop f r => exact execRiderStop_changes f r s (by decide) (Changes.refl _ s)
  | spur f r => exact execSpur_changes f r s (by decide) (Changes.refl _ s)
  | controlStoreWrite f n w val => exact execControlStoreWrite_changes f n w val s (by decide) (Changes.refl _ s)
  | riderRegisterWrite f r reg val => exact execRiderRegisterWrite_changes f r reg val s (by decide) (Changes.refl _ s)
  | rhHandlerWrite f r val => exact execRhHandlerWrite_changes f r val s (by decide) (Changes.refl _ s)
  | flDcWrite f l val grant => exact execFlDcWrite_changes f l val grant s (by decide) (Changes.refl _ s)
  | dcTick => exact execDcTick_changes s (by decide) (Changes.refl _ s)
  | spanSwitchEnd l => exact execSpanSwitchEnd_changes l s (by decide) (Changes.refl _ s)
  | spanReadbackCheck l found => exact execSpanReadbackCheck_changes l found s (by decide) (Changes.refl _ s)
  | flCurbWrite f l val => exact execFlCurbWrite_changes f l val s (by decide) (Changes.refl _ s)
  | flSafeWrite f l val => exact execFlSafeWrite_changes f l val s (by decide) (Changes.refl _ s)
  | flCtlWrite f l val => exact execFlCtlWrite_changes f l val s (by decide) (Changes.refl _ s)
  | generatorConfigWrite f l reg val => exact execGeneratorConfigWrite_changes f l reg val s (by decide) (Changes.refl _ s)
  | flFastSet f l val grant => exact execFlFastSet_changes f l val grant s (by decide) (Changes.refl _ s)
  | fastLevelChange l => exact execFastLevelChange_changes l s (by decide) (Changes.refl _ s)
  | edgeTableWrite f l t val => exact execEdgeTableWrite_changes f l t val s (by decide) (Changes.refl _ s)
  | fastDacFault g => exact execFastDacFault_changes g s (by decide) (Changes.refl _ s)
  | clear f g reports => exact execClear_changes f g reports s (by decide) (Changes.refl _ s)
  | queueWordGrant q port => exact execQueueWordGrant_changes q port s (by decide) (Changes.refl _ s)
  | creditReturnArrives q port => exact execCreditReturnArrives_changes q port s (by decide) (Changes.refl _ s)
  | qPush f q val => exact execQPush_changes f q val s (by decide) (Changes.refl _ s)
  | qPushEnd f q val => exact execQPushEnd_changes f q val s (by decide) (Changes.refl _ s)
  | qPop f q words => exact execQPop_changes f q words s (by decide) (Changes.refl _ s)
  | flush f q => exact execFlush_changes f q s (by decide) (Changes.refl _ s)
  | auditQueue f q => exact execAuditQueue_changes f q s (by decide) (Changes.refl _ s)
  | auditPages f => exact execAuditPages_changes f s (by decide) (Changes.refl _ s)
  | scrub f => exact execScrub_changes f s (by decide) (Changes.refl _ s)
  | bookAuditSettlePoint => exact execBookAuditSettlePoint_changes s (by decide) (Changes.refl _ s)
  | pageReleaseDone from_ => exact execPageReleaseDone_changes from_ s (by decide) (Changes.refl _ s)
  | pointerCheckPass q differs => exact execPointerCheckPass_changes q differs s (by decide) (Changes.refl _ s)
  | backgroundScrub err => exact execBackgroundScrub_changes err s (by decide) (Changes.refl _ s)
  | farrierStart f n kind target => exact execFarrierStart_changes f n kind target s (by decide) (Changes.refl _ s)
  | farrierAbort f n => exact execFarrierAbort_changes f n s (by decide) (Changes.refl _ s)
  | restore f n target => exact execRestore_changes f n target s (by decide) (Changes.refl _ s)
  | automaticCalibrationStart n kind target => exact execAutomaticCalibrationStart_changes n kind target s (by decide) (Changes.refl _ s)
  | observationComplete n obs => exact execObservationComplete_changes n obs s (by decide) (Changes.refl _ s)
  | observationTimeout n => exact execObservationTimeout_changes n s (by decide) (Changes.refl _ s)
  | quietBoundary n badCopy => exact execQuietBoundary_changes n badCopy s (by decide) (Changes.refl _ s)
  | activationTimeout n => exact execActivationTimeout_changes n s (by decide) (Changes.refl _ s)
  | retrain f lane => exact execRetrain_changes f lane s (by decide) (Changes.refl _ s)
  | inject f lane => exact execInject_changes f lane s (by decide) (Changes.refl _ s)
  | tlCtlWrite f lane val => exact execTlCtlWrite_changes f lane val s (by decide) (Changes.refl _ s)
  | trainingPatternReceived lane => exact execTrainingPatternReceived_changes lane s (by decide) (Changes.refl _ s)
  | trainingPhaseEnd lane found => exact execTrainingPhaseEnd_changes lane found s (by decide) (Changes.refl _ s)
  | trainingTimeout lane => exact execTrainingTimeout_changes lane s (by decide) (Changes.refl _ s)
  | backoffWaitEnd lane => exact execBackoffWaitEnd_changes lane s (by decide) (Changes.refl _ s)
  | lossOfSignal lane => exact execLossOfSignal_changes lane s (by decide) (Changes.refl _ s)
  | errorRateLimit lane => exact execErrorRateLimit_changes lane s (by decide) (Changes.refl _ s)
  | eventReceived lane tok intact => exact execEventReceived_changes lane tok intact s (by decide) (Changes.refl _ s)
  | eventAcknowledge lane ack => exact execEventAcknowledge_changes lane ack s (by decide) (Changes.refl _ s)
  | packetReceived lane pkt intact => exact execPacketReceived_changes lane pkt intact s (by decide) (Changes.refl _ s)
  | packetRetransmission lane queue credits seq => exact execPacketRetransmission_changes lane queue credits seq s (by decide) (Changes.refl _ s)
  | timeMarkReceived lane mark => exact execTimeMarkReceived_changes lane mark s (by decide) (Changes.refl _ s)
  | timeMarkTimer lane => exact execTimeMarkTimer_changes lane s (by decide) (Changes.refl _ s)
  | tlPrbsWrite f lane val => exact execTlPrbsWrite_changes f lane val s (by decide) (Changes.refl _ s)
  | align f => exact execAlign_changes f s (by decide) (Changes.refl _ s)
  | alignStep tai error => exact execAlignStep_changes tai error s (by decide) (Changes.refl _ s)
  | alignComplete error => exact execAlignComplete_changes error s (by decide) (Changes.refl _ s)
  | alignTimeout => exact execAlignTimeout_changes s (by decide) (Changes.refl _ s)
  | switch f d => exact execSwitch_changes f d s (by decide) (Changes.refl _ s)
  | accept f d => exact execAccept_changes f d s (by decide) (Changes.refl _ s)
  | epochTaiWrite f word val => exact execEpochTaiWrite_changes f word val s (by decide) (Changes.refl _ s)
  | timeNowRead f => exact execTimeNowRead_changes f s (by decide) (Changes.refl _ s)
  | ptpMessageReceived port msg => exact execPtpMessageReceived_changes port msg s (by decide) (Changes.refl _ s)
  | nonPtpFrame port frame => exact execNonPtpFrame_changes port frame s (by decide) (Changes.refl _ s)
  | announceTimeout d => exact execAnnounceTimeout_changes d s (by decide) (Changes.refl _ s)
  | dmCtlWrite f d val => exact execDmCtlWrite_changes f d val s (by decide) (Changes.refl _ s)
  | slewSaturation => exact execSlewSaturation_changes s (by decide) (Changes.refl _ s)
  | tpArm f k => exact execTpArm_changes f k s (by decide) (Changes.refl _ s)
  | tpDisarm f k => exact execTpDisarm_changes f k s (by decide) (Changes.refl _ s)
  | timePulseEdge k rising => exact execTimePulseEdge_changes k rising s (by decide) (Changes.refl _ s)
  | comparatorTrip cmp level which => exact execComparatorTrip_changes cmp level which s (by decide) (Changes.refl _ s)
  | latchClear f cmp level => exact execLatchClear_changes f cmp level s (by decide) (Changes.refl _ s)
  | periodClear cmp level => exact execPeriodClear_changes cmp level s (by decide) (Changes.refl _ s)
  | checkSwap f cmp => exact execCheckSwap_changes f cmp s (by decide) (Changes.refl _ s)
  | checkLevels f cmp => exact execCheckLevels_changes f cmp s (by decide) (Changes.refl _ s)
  | selfCheckEnd cmp pass => exact execSelfCheckEnd_changes cmp pass s (by decide) (Changes.refl _ s)
  | comparatorConfigWrite f cmp reg val => exact execComparatorConfigWrite_changes f cmp reg val s (by decide) (Changes.refl _ s)
  | hkStart f k => exact execHkStart_changes f k s (by decide) (Changes.refl _ s)
  | hkStop f k => exact execHkStop_changes f k s (by decide) (Changes.refl _ s)
  | conversionDone k code => exact execConversionDone_changes k code s (by decide) (Changes.refl _ s)
  | hkDataRead f k => exact execHkDataRead_changes f k s (by decide) (Changes.refl _ s)
  | hkCtlWrite f val => exact execHkCtlWrite_changes f val s (by decide) (Changes.refl _ s)
  | referenceReady => exact execReferenceReady_changes s (by decide) (Changes.refl _ s)
  | scanEntryWrite f k entry val => exact execScanEntryWrite_changes f k entry val s (by decide) (Changes.refl _ s)
  | backgroundCalibrationTurn => exact execBackgroundCalibrationTurn_changes s (by decide) (Changes.refl _ s)
  | backgroundCalibrationTurnEnd offsetErr gainErr => exact execBackgroundCalibrationTurnEnd_changes offsetErr gainErr s (by decide) (Changes.refl _ s)
  | supplyFailure second removed => exact execSupplyFailure_changes second removed s (by decide) (Changes.refl _ s)
  | supplyInService second => exact execSupplyInService_changes second s (by decide) (Changes.refl _ s)
  | supplyAcFailure => exact execSupplyAcFailure_changes s (by decide) (Changes.refl _ s)
  | busBelow10V2 => exact execBusBelow10V2_changes s (by decide) (Changes.refl _ s)
  | powerOnReset world => exact execPowerOnReset_changes world s (by decide) (Changes.refl _ s)
  | brownOutReset world => exact execBrownOutReset_changes world s (by decide) (Changes.refl _ s)
  | perst width world => exact execPerst_changes width world s (by decide) (Changes.refl _ s)
  | hotReset => exact execHotReset_changes s (by decide) (Changes.refl _ s)
  | linkTrained width speed => exact execLinkTrained_changes width speed s (by decide) (Changes.refl _ s)
  | watchdog world => exact execWatchdog_changes world s (by decide) (Changes.refl _ s)
  | bootStart found => exact execBootStart_changes found s (by decide) (Changes.refl _ s)
  | referenceLocked src bring => exact execReferenceLocked_changes src bring s (by decide) (Changes.refl _ s)
  | referenceLockTimeout => exact execReferenceLockTimeout_changes s (by decide) (Changes.refl _ s)
  | powerDomainFault domain bring => exact execPowerDomainFault_changes domain bring s (by decide) (Changes.refl _ s)
  | moduleReset f key world => exact execModuleReset_changes f key world s (by decide) (Changes.refl _ s)
  | acceptFactory f key n => exact execAcceptFactory_changes f key n s (by decide) (Changes.refl _ s)
  | fwWrite f key slot sigOk version => exact execFwWrite_changes f key slot sigOk version s (by decide) (Changes.refl _ s)
  | fwSwitch f key => exact execFwSwitch_changes f key s (by decide) (Changes.refl _ s)
  | spineSettlePoint => exact execSpineSettlePoint_changes s (by decide) (Changes.refl _ s)
  | rwpWrite f reg val => exact execRwpWrite_changes f reg val s (by decide) (Changes.refl _ s)
  | rtcHiWrite f val => exact execRtcHiWrite_changes f val s (by decide) (Changes.refl _ s)
  | feedSend id => exact execFeedSend_changes id s (by decide) (Changes.refl _ s)
  | feedMessage msg => exact execFeedMessage_changes msg s (by decide) (Changes.refl _ s)
  | feedTimeout id => exact execFeedTimeout_changes id s (by decide) (Changes.refl _ s)
  | sealOpened => exact execSealOpened_changes s (by decide) (Changes.refl _ s)
  | sealClosed => exact execSealClosed_changes s (by decide) (Changes.refl _ s)
  | sealPortConfiguration item => exact execSealPortConfiguration_changes item s (by decide) (Changes.refl _ s)
  | tallyPowerOn carrier check memoryOk => exact execTallyPowerOn_changes carrier check memoryOk s (by decide) (Changes.refl _ s)
  | firmwareCheck check => exact execFirmwareCheck_changes check s (by decide) (Changes.refl _ s)
  | mirrorRefresh => exact execMirrorRefresh_changes s (by decide) (Changes.refl _ s)
  | mirrorStale => exact execMirrorStale_changes s (by decide) (Changes.refl _ s)
  | tallyMirrorWrite f w => exact execTallyMirrorWrite_changes f w s (by decide) (Changes.refl _ s)
  | shotAuditCmd f n val => exact execShotAuditCmd_changes f n val s (by decide) (Changes.refl _ s)
  | shotAuditSettlePoint n => exact execShotAuditSettlePoint_changes n s (by decide) (Changes.refl _ s)
  | fanTrayRemoved => exact execFanTrayRemoved_changes s (by decide) (Changes.refl _ s)
  | fanTrayFitted => exact execFanTrayFitted_changes s (by decide) (Changes.refl _ s)
  | msixCapRelease source => exact execMsixCapRelease_changes source s (by decide) (Changes.refl _ s)
  | msixTableWrite f entry word val => exact execMsixTableWrite_changes f entry word val s (by decide) (Changes.refl _ s)
  | hostRegisterWrite f size addr val env => exact execHostRegisterWrite_changes f size addr val env s (by decide) (Changes.refl _ s)
  | farrierSpareSwitch n => exact execFarrierSpareSwitch_changes n s (by decide) (Changes.refl _ s)
  | tuningTakesEffect v => exact execTuningTakesEffect_changes v s (by decide) (Changes.refl _ s)
  | storageRecovered u => exact execStorageRecovered_changes u s (by decide) (Changes.refl _ s)
  | checkerLocked lane => exact execCheckerLocked_changes lane s (by decide) (Changes.refl _ s)
  | checkerLockLost lane => exact execCheckerLockLost_changes lane s (by decide) (Changes.refl _ s)
  | fwWriteDone good => exact execFwWriteDone_changes good s (by decide) (Changes.refl _ s)
  | hbmScrubDone err => exact execHbmScrubDone_changes err s (by decide) (Changes.refl _ s)
  | configurationRequest req => exact execConfigurationRequest_changes req s (by decide) (Changes.refl _ s)
  | hbmHostWrite f addr bytes => exact execHbmHostWrite_changes f addr bytes s (by decide) (Changes.refl _ s)
  | delayReqSend p stamp => exact execDelayReqSend_changes p stamp s (by decide) (Changes.refl _ s)
  | ptLinkChange p up => exact execPtLinkChange_changes p up s (by decide) (Changes.refl _ s)

/-- Settles O3: the queue is in no list of parts that a command may change. -/
theorem commandsLeaveTheQueueAlone : Obligations.CommandsLeaveTheQueueAlone :=
  fun c s t answer => ((exec_changes c s).all t answer).pending

/-! ## Answers -/

/-- An outcome is a next state. -/
def Answers (r : Res) : Prop := ∃ t, r = .next t

theorem Answers.next (t : State) : Answers (.next t) := ⟨t, rfl⟩

theorem Answers.andThen {r : Res} {k : State → Res} (h : Answers r) (hk : ∀ s, Answers (k s)) : Answers (andThen r k) := by
  obtain ⟨t, rfl⟩ := h
  exact hk t

theorem answers_tackChecksEnd (c : ImageChecks) (bring : Tab PowerUpFound) (s : State) : Answers (execTackChecksEnd c bring s) := by
  unfold execTackChecksEnd
  split
  · exact .next _
  · split
    · exact .next _
    · split <;> exact .next _

/-! ## Writes to registers, block by block -/

section
variable (f : Func) (val : Word) (s : State)

theorem answers_stallCmdWrite (n : StallId) (env : WriteEnv) : Answers (stallCmdWrite f n val env s) := by
  unfold stallCmdWrite
  split <;> exact .next _

theorem answers_spareCmdWrite (n : StallId) : Answers (spareCmdWrite f n val s) := by
  unfold spareCmdWrite
  split
  · split <;> exact .next _
  · exact .next _

theorem answers_cmpWrite (c : CmpId) (r : WcReg) (env : WriteEnv) : Answers (cmpWrite f c r val env s) := by
  cases r with
  | cmd =>
    unfold cmpWrite
    dsimp only
    split <;> exact .next _
  | status =>
    unfold cmpWrite
    dsimp only
    split
    · exact (Answers.next _).andThen fun _ => .next _
    · exact .next _
  | _ => exact .next _

theorem answers_postWrite (v : VoiceId) (g : Grant) : Answers (postWrite f v val g s) := by
  unfold postWrite
  split <;> exact .next _

theorem answers_chanWrite (c : ChanId) (r : ChReg) : Answers (chanWrite f c r val s) := by
  cases r with
  | commit =>
    unfold chanWrite
    dsimp only
    split <;> exact .next _
  | _ => exact .next _

theorem answers_unitWrite (u : UnitId) (r : TuReg) : Answers (unitWrite f u r val s) := by
  cases r with
  | cmd =>
    unfold unitWrite
    dsimp only
    split <;> exact .next _
  | _ => exact .next _

theorem answers_groupWrite (g : GroupId) (cmd reports : Bool) : Answers (groupWrite f g cmd val reports s) := by
  unfold groupWrite
  split <;> exact .next _

theorem answers_nodeWrite (n : StallId) (r : NodeReg) : Answers (nodeWrite f n r val s) := by
  cases r with
  | ffCmd =>
    unfold nodeWrite
    dsimp only
    split <;> exact .next _
  | _ => exact .next _

theorem answers_riderCmdWrite (h : RiderId) : Answers (riderCmdWrite f h val s) := by
  unfold riderCmdWrite
  split <;> exact .next _

theorem answers_farrierCmdWrite (n : StallId) : Answers (farrierCmdWrite f n val s) := by
  unfold farrierCmdWrite
  dsimp only
  split
  · split <;> exact .next _
  all_goals exact .next _

theorem answers_powerCmdWrite (env : WriteEnv) : Answers (powerCmdWrite f val env s) := by
  unfold powerCmdWrite
  dsimp only
  split <;> exact .next _

theorem answers_tackCmdWrite (env : WriteEnv) : Answers (tackCmdWrite f val env s) := by
  unfold tackCmdWrite
  dsimp only
  split <;> exact .next _

theorem answers_timeCmdWrite : Answers (timeCmdWrite f val s) := by
  unfold timeCmdWrite
  dsimp only
  split <;> exact .next _

theorem answers_tpWrite (k : Fin 8) (r : TpReg) : Answers (tpWrite f k r val s) := by
  cases r with
  | ctl =>
    unfold tpWrite
    refine (Answers.next _).andThen fun t => ?_
    split
    · split <;> exact .next _
    · exact .next _
  | _ => exact .next _

theorem answers_tetherCmdWrite : Answers (tetherCmdWrite f val s) := by
  unfold tetherCmdWrite
  dsimp only
  split <;> exact .next _

theorem answers_hubCmdWrite : Answers (hubCmdWrite f val s) := by
  unfold hubCmdWrite
  split <;> exact .next _

theorem answers_hkWrite (k : Fin 8) (r : HkReg) : Answers (hkWrite f k r val s) := by
  cases r with
  | cmd =>
    unfold hkWrite
    dsimp only
    split <;> exact .next _
  | _ => exact .next _

theorem answers_qdirCmdWrite : Answers (qdirCmdWrite f val s) := by
  unfold qdirCmdWrite
  split <;> exact .next _

theorem answers_persistWrite (w : Fin 1048576) : Answers (persistWrite f w val s) := by
  unfold persistWrite
  split <;> exact .next _

/-- Every write to a register is carried out. -/
theorem answers_regWrite (r : Reg) (env : WriteEnv) : Answers (regWrite f r val env s) := by
  cases r with
  | power r => cases r with | cmd => exact answers_powerCmdWrite .. | _ => exact .next _
  | tack r => cases r with | cmd => exact answers_tackCmdWrite .. | _ => exact .next _
  | time r => cases r with | cmd => exact answers_timeCmdWrite .. | _ => exact .next _
  | pt p r => cases r <;> exact .next _
  | dm d r => cases r <;> exact .next _
  | tp k r => exact answers_tpWrite ..
  | tether r => cases r with | cmd => exact answers_tetherCmdWrite .. | _ => exact .next _
  | tl k r => cases r <;> exact .next _
  | hub r => cases r with | cmd => exact answers_hubCmdWrite .. | _ => exact .next _
  | hubCell b c r => cases r <;> exact .next _
  | hkCtl status => cases status <;> exact .next _
  | spineCmp i r => exact answers_cmpWrite f val s (.spine i) r env
  | hk k r => exact answers_hkWrite ..
  | qdir r => cases r with | cmd => exact answers_qdirCmdWrite .. | _ => exact .next _
  | ctl n r =>
    cases r with
    | cmd => exact answers_stallCmdWrite ..
    | spareCmd => exact answers_spareCmdWrite ..
    | _ => exact .next _
  | cmp n w r => exact answers_cmpWrite f val s (.stall n w) r env
  | drive n k r => cases r <;> exact .next _
  | probe n k r => cases r <;> exact .next _
  | voice v r => cases r <;> exact .next _
  | seq v r => cases r with | post => exact answers_postWrite .. | _ => exact .next _
  | acq n k r => cases r <;> exact .next _
  | chan c r => exact answers_chanWrite ..
  | unit n u r => exact answers_unitWrite ..
  | group g c => exact answers_groupWrite ..
  | line l r => cases r <;> exact .next _
  | node n r => exact answers_nodeWrite ..
  | cell n b r => cases r <;> exact .next _
  | rider h r => cases r with | cmd => exact answers_riderCmdWrite .. | _ => exact .next _
  | queue n i r => cases r <;> exact .next _
  | farrier n r => cases r with | cmd => exact answers_farrierCmdWrite .. | _ => exact .next _
  | persist w => exact answers_persistWrite ..
  | _ => exact .next _

theorem answers_wordWriteAt (a : Nat) (env : WriteEnv) : Answers (wordWriteAt f a val env s) := by
  unfold wordWriteAt
  split
  · split
    · exact answers_regWrite ..
    · exact .next _
  · exact .next _

end

theorem answers_barWrite (f : Func) (size : AccessSize) (a : Nat) (val : Word64) (env : WriteEnv) (s : State) :
    Answers (barWrite f size a val env s) := by
  unfold barWrite
  split
  · split
    · exact answers_wordWriteAt ..
    · exact .next _
  · split
    · exact (answers_wordWriteAt ..).andThen fun _ => answers_wordWriteAt ..
    · exact .next _
  · exact .next _

/-- Settles O4: every arm of `exec` is a next state; where an arm chooses between outcomes, each of them is one. -/
theorem everyCommandAnswersANextState : Obligations.EveryCommandAnswersANextState := by
  intro c s
  show Answers (exec c s)
  cases c with
  | dacGateUnderrun gate beats => cases gate <;> exact .next _
  | tackChecksEnd c bring => exact answers_tackChecksEnd ..
  | hostRegisterWrite f size addr val env => exact answers_barWrite ..
  | _ => exact .next _

/-! ## Operands that name nothing -/

theorem sliceExists_eq_wf (i : SliceId) : sliceExists i = i.wf := by
  obtain ⟨n, k, j⟩ := i
  cases k <;> simp [sliceExists, SliceId.wf, Nat.lt_succ_iff]

theorem outSliceOk_eq (i : SliceId) : outSliceOk i = (i.wf && decide (i.kind ≠ .acq)) := by
  obtain ⟨n, k, j⟩ := i
  cases k <;> simp [outSliceOk, sliceExists_eq_wf]

/-- A command of a drive or probe slice finds nothing to act on elsewhere (the model's choice, log entry 5). -/
theorem onSlice_of_not {i : SliceId} (none : (i.wf && decide (i.kind ≠ .acq)) = false) (eff : State → State) (s : State) :
    onSlice i eff s = .next s := by
  rw [onSlice, outSliceOk_eq, none]
  rfl

/-- Settles O5: the commands of a slice go through `onSlice`, a converter fault asks whether its slice exists, and sections that do not fit the image
under check end nothing (log entry 5). -/
theorem operandsOfNoObjectChangeNothing : Obligations.OperandsOfNoObjectChangeNothing := by
  intro s
  refine ⟨fun i absent => ?_, fun i absent => ?_, fun c bring op run misfit => ?_⟩
  · show Host.Outcome.next (converterFault i s) = .next s
    rw [converterFault, if_pos (.inr (by rw [sliceExists_eq_wf, absent]; rfl))]
  · have idle (eff : State → State) := onSlice_of_not absent eff s
    refine ⟨fun _ => idle _, idle _, idle _, ?_, fun _ => idle _, fun _ _ => idle _, fun _ => idle _⟩
    have away : i.kind = .acq ∨ !sliceExists i ∨ lifeOf i.stall s = .off ∨ (getSlice s i).port ≠ .terminated := by
      rw [sliceExists_eq_wf]
      by_cases acq : i.kind = .acq
      · exact .inl acq
      · exact .inr (.inl (by simpa [acq] using absent))
    exact congrArg Host.Outcome.next (if_pos away)
  · simp [exec, execTackChecksEnd, run, misfit]

/-- Settles O7: the reset state is a closed term; the values that the spec does not state are log entries 6, 7 and 10. -/
theorem resetLeavesAnEmptyModule : Obligations.ResetLeavesAnEmptyModule :=
  ⟨rfl, rfl, fun _ => ⟨rfl, rfl, rfl⟩, rfl, rfl, rfl, rfl, fun _ => rfl, fun _ => rfl, fun _ => ⟨rfl, rfl, rfl, rfl, rfl, rfl⟩, rfl, rfl, rfl,
    fun _ _ => rfl, fun _ => rfl⟩

/-! ## A beat -/

/-- What goes on in a beat whether or not an epoch runs. -/
def beatWork (s : State) : State :=
  forEach (List.finRange 16) tickLane (forEach (List.finRange 16) tickPrbs
    (tickRefresh (tickSupplies (tickDomains (bootWork (trainWork (rejoinWork (scrubWork (tackWork (tickWallClocks (tickTime s)))))))))))

/-- What a running epoch adds to a beat. -/
def epochWork (s : State) : State :=
  forEach (List.finRange 16) tickTrips (tetherWork (tickWatches (tickServo (forEach (List.finRange 8) tickTrims (forEach (List.finRange 8) tickFarrier
    (tickUnits (tickFast (countFrames (forEach (List.finRange 8) tickSlices (tickVoices s))))))))))

theorem tick_eq (s : State) : tick s = if (beatWork s).clock.running then epochWork (beatWork s) else beatWork s := rfl

/-- A loop whose turns do nothing does nothing. -/
theorem forEach_of_idle {α : Type} {l : List α} {f : α → State → State} {s : State} (idle : ∀ a, f a s = s) : forEach l f s = s :=
  forEach_keep f (· = s) (fun a _ h => by rw [h, idle a]) l s rfl

/-- What a beat changes besides the clock while no epoch runs. -/
def beatParts : List Part := [.power, .backup, .tack, .hub, .qdir, .lanes, .tether, .tally, .freeCtr]

theorem beatWork_changes (s : State) : Changes beatParts (tickTime s) (beatWork s) := by
  refine forEach_changes _ _ _ (fun k s => tickLane_changes k s (by decide)) (forEach_changes _ _ _ (fun k s => tickPrbs_changes k s (by decide)) ?_)
  refine tickRefresh_changes _ (by decide) (tickSupplies_changes _ (by decide) (tickDomains_changes _ (by decide) (bootWork_changes _ (by decide)
    (trainWork_changes _ (by decide) (rejoinWork_changes _ (by decide) (scrubWork_changes _ (by decide) (tackWork_changes _ (by decide) ?_)))))))
  exact tickWallClocks_changes _ (by decide) (Changes.refl _ _)

theorem clock_beatWork (s : State) : (beatWork s).clock = (tickTime s).clock := (beatWork_changes s).clock

theorem clock_tick (s : State) : (tick s).clock = (tickTime s).clock := by
  rw [tick_eq]
  split
  · refine (Changes.clock (P := [.funcs, .slices, .voices, .seqs, .units, .riders, .fasts, .queues, .qdir, .farriers, .trims, .lanes, .tether, .tc, .watches,
      .feeds, .freeCtr]) ?_).trans (clock_beatWork s)
    refine forEach_changes _ _ _ (fun k s => tickTrips_changes k s (by decide)) (tetherWork_changes _ (by decide) (tickWatches_changes _ (by decide)
      (tickServo_changes _ (by decide) (forEach_changes _ _ _ (fun n s => tickTrims_changes n s (by decide)) (forEach_changes _ _ _
        (fun n s => tickFarrier_changes n s (by decide)) ?_)))))
    exact tickUnits_changes _ (by decide) (tickFast_changes _ (by decide) (countFrames_changes _ (by decide) (forEach_changes _ _ _
      (fun n s => tickSlices_changes n s (by decide)) (tickVoices_changes _ (by decide) (Changes.refl _ _)))))
  · exact clock_beatWork s

/-- Nothing is in progress that a beat gets on with while no epoch runs. -/
structure AtRest (s : State) : Prop where
  tack : s.tack.run = none
  scrub : s.qdir.cmd ≠ some .scrub
  rejoin (b : Bool) : rejoining s b = false
  train : s.tether.retrain = none
  boot : s.power.cmd ≠ some .boot
  supply1 : s.power.supply1.present = false
  supply2 : s.power.supply2.present = false
  domains : s.power.switchOn = []
  lanes (k : LaneId) : (getLane s k).enable = false ∧ (getLane s k).tx = {} ∧ (getLane s k).prbs.locked = false ∧ (getLane s k).prbs.genEn = false

theorem AtRest.of_changes {s t : State} (rest : AtRest s) (h : Changes [.clock, .backup, .tally] s t) : AtRest t := by
  obtain ⟨tack, scrub, rejoin, train, boot, supply1, supply2, domains, lanes⟩ := rest
  refine ⟨by rwa [h.tack], by rwa [h.qdir], fun b => ?_, by rwa [h.tether], by rwa [h.power], by rwa [h.power], by rwa [h.power], by rwa [h.power], fun k => ?_⟩
  · rw [show rejoining t b = rejoining s b by rw [rejoining, rejoining, planeOf, planeOf, h.hub], rejoin b]
  · simpa only [getLane, h.lanes] using lanes k

theorem AtRest.tickPrbs {s : State} (rest : AtRest s) (k : LaneId) : tickPrbs k s = s := by
  simp [Machine.tickPrbs, (rest.lanes k).2.2.1]

theorem AtRest.tickLane {s : State} (rest : AtRest s) (k : LaneId) : tickLane k s = s := by
  obtain ⟨off, empty, _, quiet⟩ := rest.lanes k
  simp [Machine.tickLane, off, empty, quiet]

/-- At rest a beat moves the clocks and the mirror's refresh alone. -/
theorem AtRest.beatWork {s : State} (rest : AtRest s) : beatWork s = tickRefresh (tickWallClocks (tickTime s)) := by
  have clocks : Changes [.clock, .backup, .tally] s (tickWallClocks (tickTime s)) :=
    tickWallClocks_changes _ (by decide) (tickTime_changes _ (by decide) (Changes.refl _ s))
  have u := rest.of_changes clocks
  have v := rest.of_changes (tickRefresh_changes _ (by decide) clocks)
  have work : tickSupplies (tickDomains (bootWork (trainWork (rejoinWork (scrubWork (tackWork (tickWallClocks (tickTime s)))))))) =
      tickWallClocks (tickTime s) := by
    simp [tackWork, u.tack, scrubWork, u.scrub, rejoinWork, u.rejoin, trainWork, u.train, bootWork, u.boot, tickDomains, u.domains, tickSupplies,
      u.supply1, u.supply2]
  rw [Machine.beatWork, work, forEach_of_idle v.tickPrbs, forEach_of_idle v.tickLane]

/-- Settles O2: the clock moves in `tickTime` alone; what else a beat does is `beatWork`, and `epochWork` while an epoch runs. That a step on an empty
queue is one beat is the model's choice (log entry 2). -/
theorem anEmptyQueueLetsABeatPass : Obligations.AnEmptyQueueLetsABeatPass := by
  intro s empty
  have time : Changes [.clock] s (tickTime s) := tickTime_changes s (by decide) (Changes.refl _ s)
  have all := tick_changes (P := [.clock, .funcs, .power, .backup, .tack, .slices, .voices, .seqs, .units, .hub, .riders, .fasts, .queues, .qdir, .farriers,
    .trims, .lanes, .tether, .tc, .watches, .feeds, .tally, .freeCtr]) s (by decide) (Changes.refl _ s)
  refine ⟨tick s, by rw [step, empty], all.pending.trans empty, congrArg Clock.now (clock_tick s), congrArg Clock.sched (clock_tick s),
    (congrArg Clock.running (clock_tick s)).trans rfl, fun stopped => ?_, all⟩
  have beat : tick s = beatWork s := by
    rw [tick_eq, clock_beatWork, if_neg]
    simpa [tickTime] using stopped
  rw [beat]
  refine ⟨(time.mono (by decide)).trans ((beatWork_changes s).mono (by decide)), fun tack scrub planeA planeB train boot supply1 supply2 domains lanes => ?_⟩
  have rest : AtRest s := ⟨tack, scrub, fun b => by cases b <;> assumption, train, boot, supply1, supply2, domains, lanes⟩
  rw [rest.beatWork]
  exact tickRefresh_changes _ (by decide) (tickWallClocks_changes _ (by decide) (time.mono (by decide)))

end Sys2Proof.Machine
end

section
/-!
PROOFS. Riding and the memories: what every command leaves of both (O6, O13).
-/

namespace Sys2Proof.Machine

set_option Elab.async false

open Sys2Proof

/-- Every part of the state but the stalls and the six memories (the user words of the persistent register file stand in `.persist`). -/
def besideStallsAndMemories : List Part :=
  [.pending, .clock, .host, .funcs, .irqs, .power, .backup, .tack, .spine, .herdImage, .hubImage, .stallImages, .gaits, .slices, .acqs,
   .voices, .seqs, .chans, .units, .nodes, .cells, .books, .flights, .nextFlight, .hub, .riders, .lines, .fasts, .groups, .queues,
   .qdir, .farriers, .trims, .shotAudits, .lanes, .tether, .tc, .ethPorts, .domains, .pulses, .watches, .hks, .hkCtl, .feeds, .tally,
   .held, .latched, .freeCtr]

/-- From `s₀` to `s` no stall has begun to ride but those of `R`, and a module whose memories were canonical has canonical memories still. -/
structure Steady (R : StallId → Prop) (s₀ s : State) : Prop where
  riding : ∀ n, lifeOf n s = .riding → lifeOf n s₀ = .riding ∨ R n
  memories : memoriesCanonical s₀ = true → memoriesCanonical s = true

/-- Every next state of an outcome is steady. -/
structure ResSteady (R : StallId → Prop) (s₀ : State) (r : Res) : Prop where
  all : ∀ t, r = .next t → Steady R s₀ t

section

variable {R : StallId → Prop} {s₀ s t : State}

theorem Steady.refl (R : StallId → Prop) (s : State) : Steady R s s := ⟨fun _ h => .inl h, id⟩

theorem Steady.trans (h : Steady R s₀ s) (k : Steady R s t) : Steady R s₀ t :=
  ⟨fun n hn => (k.riding n hn).elim (h.riding n) .inr, fun hm => k.memories (h.memories hm)⟩

/-- What leaves the stalls and the memories alone is steady. -/
theorem Steady.frame (h : Steady R s₀ s) (k : Changes besideStallsAndMemories s t) : Steady R s₀ t := by
  refine h.trans ⟨fun n hn => .inl ?_, fun hm => ?_⟩
  · rw [← hn]
    exact congrArg StallCtl.life (k.getStall n).symm
  · simpa only [memoriesCanonical, k.hbm, k.library, k.descs, k.kernels, k.store, k.persist] using hm

theorem Steady.ite {a b : State} {c : Prop} [Decidable c] (ha : c → Steady R s₀ a) (hb : ¬c → Steady R s₀ b) :
    Steady R s₀ (if c then a else b) := by
  split
  · exact ha ‹_›
  · exact hb ‹_›

theorem Steady.fst {a : State} {β : Type} {b : β} {p : State × β} (h : p = (a, b)) (k : Steady R s₀ p.1) : Steady R s₀ a := by
  cases h
  exact k

theorem Steady.fst_ite {β : Type} {a b : State × β} {c : Prop} [Decidable c] (ha : c → Steady R s₀ a.1)
    (hb : ¬c → Steady R s₀ b.1) : Steady R s₀ (if c then a else b).1 := by
  split
  · exact ha ‹_›
  · exact hb ‹_›

theorem Steady.of_id (h : Steady R s₀ t) : Steady R s₀ (id t) := h

theorem ResSteady.next (h : Steady R s₀ t) : ResSteady R s₀ (.next t) := ⟨fun _ hu => by cases hu; exact h⟩

theorem ResSteady.fault (x : Fault) : ResSteady R s₀ (.fault x) := ⟨fun _ hu => by cases hu⟩

theorem ResSteady.refused (x : Refusal) : ResSteady R s₀ (.refused x) := ⟨fun _ hu => by cases hu⟩

theorem ResSteady.ite {a b : Res} {c : Prop} [Decidable c] (ha : c → ResSteady R s₀ a) (hb : ¬c → ResSteady R s₀ b) :
    ResSteady R s₀ (if c then a else b) := by
  split
  · exact ha ‹_›
  · exact hb ‹_›

theorem ResSteady.frame {r : Res} (h : Steady R s₀ s) (k : ResChanges besideStallsAndMemories s r) : ResSteady R s₀ r :=
  ⟨fun t ht => h.frame (k.all t ht)⟩

theorem forEach_steady {α : Type} (l : List α) (f : α → State → State) (s : State)
    (hf : ∀ a s, Steady R s₀ s → Steady R s₀ (f a s)) (h : Steady R s₀ s) : Steady R s₀ (forEach l f s) := by
  unfold forEach
  induction l generalizing s with
  | nil => exact h
  | cons a l ih => exact ih _ (hf a s h)

theorem andThen_steady (a : Res) (k : State → Res) (ha : ResSteady R s₀ a) (hk : ∀ s, Steady R s₀ s → ResSteady R s₀ (k s)) :
    ResSteady R s₀ (andThen a k) := by
  cases a with
  | next t => exact hk t (ha.all t rfl)
  | fault x => exact ResSteady.fault x
  | refused x => exact ResSteady.refused x

/-! ## The writes of a stall and of a memory -/

/-- A write of a stall's registers that does not let it ride. -/
theorem modStall_steady (n : StallId) (f : StallCtl → StallCtl) (s : State) (hf : ∀ x, (f x).life = .riding → x.life = .riding ∨ R n)
    (h : Steady R s₀ s) : Steady R s₀ (modStall n f s) := by
  refine h.trans ⟨fun m hm => ?_, id⟩
  by_cases e : m = n
  · subst e
    exact hf _ (by simpa [lifeOf] using hm)
  · refine .inl ?_
    rwa [lifeOf, getStall_modStall_ne n f m s fun k => e (Fin.ext k.symm)] at hm

theorem memoriesCanonical_iff (s : State) : memoriesCanonical s = true ↔ memWf 0 s.hbm = true ∧ memWf 0 s.library = true ∧ memWf 0 s.descs = true ∧
    memWf 0 s.kernels = true ∧ memWf 0 s.store = true ∧ memWf 0 s.persist.user = true := by
  simp only [memoriesCanonical, Bool.and_eq_true, and_assoc]

/-- A write that leaves the stalls alone is steady where it keeps the memories canonical. -/
theorem Steady.of_stalls (h : Steady R s₀ s) (hs : t.stalls = s.stalls) (hm : memoriesCanonical s = true → memoriesCanonical t = true) :
    Steady R s₀ t :=
  h.trans ⟨fun n hn => .inl (by simpa only [lifeOf, getStall, hs] using hn), hm⟩

theorem setHbm_steady (f : Tab Byte → Tab Byte) (s : State) (hf : ∀ m, memWf 0 m = true → memWf 0 (f m) = true)
    (h : Steady R s₀ s) : Steady R s₀ (setHbm f s) := by
  refine h.of_stalls rfl fun hm => ?_
  obtain ⟨hbm, rest⟩ := (memoriesCanonical_iff s).1 hm
  exact (memoriesCanonical_iff _).2 ⟨hf _ hbm, rest⟩

theorem setStore_steady (f : Tab (BitVec 256) → Tab (BitVec 256)) (s : State) (hf : ∀ m, memWf 0 m = true → memWf 0 (f m) = true)
    (h : Steady R s₀ s) : Steady R s₀ (setStore f s) := by
  refine h.of_stalls rfl fun hm => ?_
  obtain ⟨hbm, library, descs, kernels, store, user⟩ := (memoriesCanonical_iff s).1 hm
  exact (memoriesCanonical_iff _).2 ⟨hbm, library, descs, kernels, hf _ store, user⟩

theorem setPersist_steady (f : Persist → Persist) (s : State) (hf : ∀ p, memWf 0 p.user = true → memWf 0 (f p).user = true)
    (h : Steady R s₀ s) : Steady R s₀ (setPersist f s) := by
  refine h.of_stalls rfl fun hm => ?_
  obtain ⟨hbm, library, descs, kernels, store, user⟩ := (memoriesCanonical_iff s).1 hm
  exact (memoriesCanonical_iff _).2 ⟨hbm, library, descs, kernels, store, hf _ user⟩

theorem dropKeys_wf {α : Type} [DecidableEq α] (d : α) (lo n : Nat) (m : Tab α) (h : memWf d m = true) : memWf d (dropKeys lo n m) = true :=
  filter_wf d m _ h

theorem fillFrom_wf {α : Type} [DecidableEq α] (d : α) (base : Nat) (words m : Tab α) (h : memWf d m = true) : memWf d (fillFrom d base words m) = true := by
  unfold fillFrom
  induction words generalizing m with
  | nil => exact h
  | cons w ws ih => exact ih _ (memSet_wf d m _ _ h)

/-! ## One lemma for each operation that writes a stall or a memory -/

theorem hostWrite_steady (f : Func) (r : Reg) (eff : State → State) (s : State) (heff : ∀ y0, Steady R s₀ y0 → Steady R s₀ (eff y0))
    (hc : Steady R s₀ s) : Steady R s₀ (hostWrite f r eff s) := by
  unfold hostWrite
  try dsimp only
  repeat' first
    | with_reducible assumption
    | with_reducible apply Steady.ite
    | with_reducible apply (Steady.frame · (refuseReg_changes _ _ _ _ (by decide) (Changes.refl _ _)))
    | with_reducible apply heff
    | (intro _; try dsimp only)
    | split

theorem hostCheck_steady (f : Func) (r : Reg) (code : State → Option Code) (eff : State → State) (s : State)
    (heff : ∀ y0, Steady R s₀ y0 → Steady R s₀ (eff y0)) (hc : Steady R s₀ s) : Steady R s₀ (hostCheck f r code eff s) := by
  unfold hostCheck
  try dsimp only
  repeat' first
    | with_reducible assumption
    | with_reducible apply hostWrite_steady
    | with_reducible apply (Steady.frame · (refuseReg_changes _ _ _ _ (by decide) (Changes.refl _ _)))
    | with_reducible apply heff
    | (intro _; try dsimp only)
    | split

theorem hostElement_steady (f : Func) (r : Reg) (g : Grant) (count : State → State) (code : State → Option Code) (eff : State → State)
    (s : State) (hcount : ∀ y0, Steady R s₀ y0 → Steady R s₀ (count y0)) (heff : ∀ y0, Steady R s₀ y0 → Steady R s₀ (eff y0))
    (hc : Steady R s₀ s) : Steady R s₀ (hostElement f r g count code eff s) := by
  unfold hostElement
  try dsimp only
  repeat' first
    | with_reducible assumption
    | with_reducible apply hostWrite_steady
    | with_reducible apply (Steady.frame · (refuseReg_changes _ _ _ _ (by decide) (Changes.refl _ _)))
    | with_reducible apply hcount
    | with_reducible apply heff
    | (intro _; try dsimp only)
    | split

theorem pairWrite_steady (lo : Reg) (isHi : Bool) (val : Word) (inForceLo : State → Word) (commit : Word → Word → State → State)
    (s : State) (hcommit : ∀ y0 y1 y2, Steady R s₀ y2 → Steady R s₀ (commit y0 y1 y2)) (hc : Steady R s₀ s) :
    Steady R s₀ (pairWrite lo isHi val inForceLo commit s) := by
  unfold pairWrite
  try dsimp only
  repeat' first
    | with_reducible assumption
    | with_reducible apply Steady.ite
    | with_reducible apply (Steady.frame · (dropHeld_changes _ _ (by decide) (Changes.refl _ _)))
    | with_reducible apply (Steady.frame · (holdWord_changes _ _ _ (by decide) (Changes.refl _ _)))
    | with_reducible apply hcommit
    | (intro _; try dsimp only)

theorem spineCommand_steady (f : Func) (r : Reg) (setOp : (OpStatus → OpStatus) → State → State) (code : State → Option Code)
    (eff : State → State) (s : State) (hsetOp : ∀ y0 y1, Steady R s₀ y1 → Steady R s₀ (setOp y0 y1))
    (heff : ∀ y0, Steady R s₀ y0 → Steady R s₀ (eff y0)) (hc : Steady R s₀ s) : Steady R s₀ (spineCommand f r setOp code eff s) := by
  unfold spineCommand
  try dsimp only
  repeat' first
    | with_reducible assumption
    | with_reducible apply Steady.ite
    | with_reducible apply hostWrite_steady
    | with_reducible apply (Steady.frame · (refuseReg_changes _ _ _ _ (by decide) (Changes.refl _ _)))
    | with_reducible apply hsetOp
    | with_reducible apply heff
    | (intro _; try dsimp only)
    | split

theorem ringWrite_steady (u : UnitId) (bytes : List Byte) (total : Nat) (s : State) (hc : Steady R s₀ s) :
    Steady R s₀ (ringWrite u bytes total s) := by
  unfold ringWrite
  try dsimp only
  repeat' first
    | with_reducible assumption
    | with_reducible apply setHbm_steady
    | with_reducible apply (Steady.frame · (modUnit_changes _ _ _ (by decide) (Changes.refl _ _)))
    | exact fun _ h => memWrite_wf _ _ _ _ h

theorem writeGap_steady (u : UnitId) (s : State) (hc : Steady R s₀ s) : Steady R s₀ (writeGap u s) := by
  unfold writeGap
  try dsimp only
  repeat' first
    | with_reducible assumption
    | with_reducible apply Steady.ite
    | with_reducible apply ringWrite_steady
    | with_reducible apply (Steady.frame · (modUnit_changes _ _ _ (by decide) (Changes.refl _ _)))
    | split

theorem endCapture_steady (u : UnitId) (op : OpStatus) (s : State) (hc : Steady R s₀ s) : Steady R s₀ (endCapture u op s) := by
  unfold endCapture
  try dsimp only
  repeat' first
    | with_reducible assumption
    | with_reducible apply writeGap_steady
    | with_reducible apply (Steady.frame · (modUnit_changes _ _ _ (by decide) (Changes.refl _ _)))

theorem writePad_steady (u : UnitId) (b : Nat) (s : State) (hc : Steady R s₀ s) : Steady R s₀ (writePad u b s) := by
  unfold writePad
  try dsimp only
  repeat' first
    | with_reducible assumption
    | with_reducible apply Steady.ite
    | with_reducible apply ringWrite_steady
    | (intro _; try dsimp only)

theorem closeRecord_steady (u : UnitId) (r : Record) (post : Nat) (cut : Bool) (sig : Signal) (s : State) (hc : Steady R s₀ s) :
    Steady R s₀ (closeRecord u r post cut sig s) := by
  unfold closeRecord
  try dsimp only
  repeat' first
    | with_reducible assumption
    | with_reducible apply ringWrite_steady
    | with_reducible apply writeGap_steady
    | with_reducible apply writePad_steady
    | with_reducible apply (Steady.frame · (modUnit_changes _ _ _ (by decide) (Changes.refl _ _)))
    | with_reducible apply (Steady.frame · (showProgress_changes _ _ (by decide) (Changes.refl _ _)))

theorem cutRecord_steady (u : UnitId) (s : State) (hc : Steady R s₀ s) : Steady R s₀ (cutRecord u s) := by
  unfold cutRecord
  try dsimp only
  repeat' first
    | with_reducible assumption
    | with_reducible apply closeRecord_steady
    | split

theorem freeRing_steady (u : UnitId) (s : State) (hc : Steady R s₀ s) : Steady R s₀ (freeRing u s) := by
  unfold freeRing
  dsimp only
  split
  · exact hc
  · exact ((setHbm_steady _ _ (fun m hm => filter_wf 0 m _ hm) hc).frame (releasePages_changes _ _ _ (by decide) (Changes.refl _ _))).frame
      (modUnit_changes _ _ _ (by decide) (setQdir_changes _ _ (by decide) (Changes.refl _ _)))

theorem endCaptures_steady (n : StallId) (s : State) (hc : Steady R s₀ s) : Steady R s₀ (endCaptures n s) := by
  unfold endCaptures
  try dsimp only
  repeat' first
    | with_reducible assumption
    | with_reducible apply Steady.ite
    | with_reducible apply forEach_steady
    | with_reducible apply freeRing_steady
    | with_reducible apply (Steady.frame · (modUnit_changes _ _ _ (by decide) (Changes.refl _ _)))
    | with_reducible apply (Steady.frame · (record_changes _ _ _ _ _ _ (by decide) (Changes.refl _ _)))
    | (intro _; try dsimp only)

theorem failCaptures_steady (n : StallId) (k : Fin 5) (s : State) (hc : Steady R s₀ s) : Steady R s₀ (failCaptures n k s) := by
  unfold failCaptures
  try dsimp only
  repeat' first
    | with_reducible assumption
    | with_reducible apply cutRecord_steady
    | with_reducible apply endCapture_steady
    | with_reducible apply forEach_steady
    | with_reducible apply (Steady.frame · (record_changes _ _ _ _ _ _ (by decide) (Changes.refl _ _)))
    | (intro _; try dsimp only)

theorem disarmUnit_steady (u : UnitId) (s : State) (hc : Steady R s₀ s) : Steady R s₀ (disarmUnit u s) := by
  unfold disarmUnit
  try dsimp only
  repeat' first
    | with_reducible assumption
    | with_reducible apply Steady.ite
    | with_reducible apply cutRecord_steady
    | with_reducible apply endCapture_steady
    | with_reducible apply (Steady.frame · (record_changes _ _ _ _ _ _ (by decide) (Changes.refl _ _)))
    | (intro _; try dsimp only)

theorem execDisarm_steady (f : Func) (u : UnitId) (s : State) (hc : Steady R s₀ s) : ResSteady R s₀ (execDisarm f u s) := by
  unfold execDisarm
  try dsimp only
  repeat' first
    | with_reducible assumption
    | with_reducible apply ResSteady.next
    | with_reducible apply disarmUnit_steady
    | with_reducible apply hostWrite_steady

theorem recordEnds_steady (u : UnitId) (sig : Signal) (s : State) (hc : Steady R s₀ s) : Steady R s₀ (recordEnds u sig s) := by
  unfold recordEnds
  try dsimp only
  repeat' first
    | with_reducible assumption
    | with_reducible apply Steady.ite
    | with_reducible apply closeRecord_steady
    | with_reducible apply endCapture_steady
    | with_reducible apply (Steady.frame · (nextContinuous_changes _ _ (by decide) (Changes.refl _ _)))
    | (intro _; try dsimp only)
    | split

theorem execRecordEnd_steady (u : UnitId) (sig : Signal) (s : State) (hc : Steady R s₀ s) : ResSteady R s₀ (execRecordEnd u sig s) := by
  unfold execRecordEnd
  try dsimp only
  repeat' first
    | with_reducible assumption
    | with_reducible apply ResSteady.next
    | with_reducible apply recordEnds_steady

theorem releaseUnit_steady (f : Func) (u : UnitId) (s : State) (hc : Steady R s₀ s) : Steady R s₀ (releaseUnit f u s) := by
  unfold releaseUnit
  try dsimp only
  repeat' first
    | with_reducible assumption
    | with_reducible apply Steady.ite
    | with_reducible apply freeRing_steady
    | with_reducible apply (Steady.frame · (refuseUnit_changes _ _ _ _ (by decide) (Changes.refl _ _)))
    | (intro _; try dsimp only)

theorem execRelease_steady (f : Func) (u : UnitId) (s : State) (hc : Steady R s₀ s) : ResSteady R s₀ (execRelease f u s) := by
  unfold execRelease
  try dsimp only
  repeat' first
    | with_reducible assumption
    | with_reducible apply ResSteady.next
    | with_reducible apply hostWrite_steady
    | with_reducible apply releaseUnit_steady

theorem storageBehind_steady (u : UnitId) (s : State) (hc : Steady R s₀ s) : Steady R s₀ (storageBehind u s) := by
  unfold storageBehind
  try dsimp only
  repeat' first
    | with_reducible assumption
    | with_reducible apply Steady.ite
    | with_reducible apply cutRecord_steady
    | with_reducible apply endCapture_steady
    | with_reducible apply (Steady.frame · (beginGap_changes _ _ _ _ _ (by decide) (Changes.refl _ _)))
    | (intro _; try dsimp only)

theorem execStorageBehind_steady (u : UnitId) (s : State) (hc : Steady R s₀ s) : ResSteady R s₀ (execStorageBehind u s) := by
  unfold execStorageBehind
  try dsimp only
  repeat' first
    | with_reducible assumption
    | with_reducible apply ResSteady.next
    | with_reducible apply storageBehind_steady

theorem freeSpace_steady (u : UnitId) (val : Word) (s : State) (hc : Steady R s₀ s) : Steady R s₀ (freeSpace u val s) := by
  unfold freeSpace
  try dsimp only
  repeat' first
    | with_reducible assumption
    | with_reducible apply Steady.ite
    | with_reducible apply writeGap_steady
    | with_reducible apply (Steady.frame · (endDrain_changes _ _ (by decide) (Changes.refl _ _)))
    | with_reducible apply (Steady.frame · (modUnit_changes _ _ _ (by decide) (Changes.refl _ _)))
    | with_reducible apply (Steady.frame · (nextContinuous_changes _ _ (by decide) (Changes.refl _ _)))
    | with_reducible apply (Steady.frame · (showProgress_changes _ _ (by decide) (Changes.refl _ _)))
    | (intro _; try dsimp only)

theorem execTuRdWrite_steady (f : Func) (u : UnitId) (val : Word) (s : State) (hc : Steady R s₀ s) : ResSteady R s₀ (execTuRdWrite f u val s) := by
  unfold execTuRdWrite
  try dsimp only
  repeat' first
    | with_reducible assumption
    | with_reducible apply ResSteady.next
    | with_reducible apply freeSpace_steady
    | with_reducible apply hostCheck_steady

theorem runCell_steady (id : CellId) (ready : State → CellId → Bool) (ev : CellId → State → State × Option Token) (s : State)
    (hev : ∀ i s, Steady R s₀ s → Steady R s₀ (ev i s).1) (hc : Steady R s₀ s) : Steady R s₀ (runCell id ready ev s) := by
  unfold runCell
  split
  · split
    · dsimp only
      split
      · exact (hev _ _ hc).frame (issueToken_changes _ _ _ _ (by decide) (Changes.refl _ _))
      · exact hev _ _ hc
    · exact hc
  · dsimp only
    refine Steady.frame (Steady.fst_ite (fun _ => hev _ _ ?_) fun _ => ?_) (issueHubCopies_changes _ _ _ _ (by decide) (Changes.refl _ _))
    · exact Steady.fst_ite (fun _ => hev _ _ hc) fun _ => hc
    · exact Steady.fst_ite (fun _ => hev _ _ hc) fun _ => hc

theorem onAcq_steady (n : StallId) (k : Fin 5) (f : Fin 5 → State → State) (s : State) (hf : ∀ y0 y1, Steady R s₀ y1 → Steady R s₀ (f y0 y1))
    (hc : Steady R s₀ s) : Steady R s₀ (onAcq n k f s) := by
  unfold onAcq
  try dsimp only
  repeat' first
    | with_reducible assumption
    | with_reducible apply hf
    | split

theorem freeA4_steady (n : StallId) (s : State) (hc : Steady R s₀ s) : Steady R s₀ (freeA4 n s) := by
  unfold freeA4
  try dsimp only
  repeat' first
    | with_reducible assumption
    | with_reducible apply Steady.ite
    | with_reducible apply modStall_steady
    | exact fun _ h => .inl h
    | (intro _; try dsimp only)

theorem wakeSpareReq_steady (n : StallId) (s : State) (hc : Steady R s₀ s) : Steady R s₀ (wakeSpareReq n s) := by
  unfold wakeSpareReq
  try dsimp only
  repeat' first
    | with_reducible assumption
    | with_reducible apply Steady.ite
    | with_reducible apply modStall_steady
    | exact fun _ h => .inl h

theorem stopCal_steady (n : StallId) (op : OpStatus) (s : State) (hc : Steady R s₀ s) : Steady R s₀ (stopCal n op s) := by
  unfold stopCal
  try dsimp only
  repeat' first
    | with_reducible assumption
    | with_reducible apply wakeSpareReq_steady
    | with_reducible apply (Steady.frame · (modFarrier_changes _ _ _ (by decide) (Changes.refl _ _)))
    | with_reducible apply (Steady.frame · (raise_changes _ _ (by decide) (Changes.refl _ _)))

theorem endCal_steady (n : StallId) (st : OpState) (code : Code) (s : State) (hc : Steady R s₀ s) : Steady R s₀ (endCal n st code s) := by
  unfold endCal
  try dsimp only
  repeat' first
    | with_reducible assumption
    | with_reducible apply Steady.ite
    | with_reducible apply stopCal_steady
    | with_reducible apply (Steady.frame · (modFarrier_changes _ _ _ (by decide) (Changes.refl _ _)))
    | with_reducible apply (Steady.frame · (record_changes _ _ _ _ _ _ (by decide) (Changes.refl _ _)))
    | (intro _; try dsimp only)

theorem abortCal_steady (n : StallId) (which : Calib → Bool) (s : State) (hc : Steady R s₀ s) : Steady R s₀ (abortCal n which s) := by
  unfold abortCal
  try dsimp only
  repeat' first
    | with_reducible assumption
    | with_reducible apply Steady.ite
    | with_reducible apply endCal_steady
    | (intro _; try dsimp only)

theorem leaveCal_steady (n : StallId) (s : State) (hc : Steady R s₀ s) : Steady R s₀ (leaveCal n s) := by
  unfold leaveCal
  try dsimp only
  repeat' first
    | with_reducible assumption
    | with_reducible apply abortCal_steady
    | with_reducible apply freeA4_steady
    | with_reducible apply (Steady.frame · (modFarrier_changes _ _ _ (by decide) (Changes.refl _ _)))

theorem modStud_steady (n : StallId) (f : Stud → Stud) (s : State) (hc : Steady R s₀ s) : Steady R s₀ (modStud n f s) := by
  unfold modStud
  try dsimp only
  repeat' first
    | with_reducible assumption
    | with_reducible apply setPersist_steady
    | exact fun _ h => memWrite_wf _ _ _ _ h
    | exact fun _ h => h

theorem loadStud_steady (n : StallId) (okA : Bool) (okB : Bool) (s : State) (hc : Steady R s₀ s) : Steady R s₀ (loadStud n okA okB s) := by
  unfold loadStud
  try dsimp only
  repeat' first
    | with_reducible assumption
    | with_reducible apply Steady.ite
    | with_reducible apply modStall_steady
    | with_reducible apply modStud_steady
    | with_reducible apply (Steady.frame · (modTrims_changes _ _ _ (by decide) (Changes.refl _ _)))
    | with_reducible apply (Steady.frame · (record_changes _ _ _ _ _ _ (by decide) (Changes.refl _ _)))
    | exact fun _ h => .inl h
    | (intro _; try dsimp only)
    | split

theorem recordStud_steady (n : StallId) (bad : Option Bool) (s : State) (hc : Steady R s₀ s) : Steady R s₀ (recordStud n bad s) := by
  unfold recordStud
  try dsimp only
  repeat' first
    | with_reducible assumption
    | with_reducible apply Steady.ite
    | with_reducible apply modStud_steady

theorem persistLine_steady (l : LineId) (s : State) (hc : Steady R s₀ s) : Steady R s₀ (persistLine l s) := by
  unfold persistLine
  try dsimp only
  repeat' first
    | with_reducible assumption
    | with_reducible apply setPersist_steady
    | exact fun _ h => memWrite_wf _ _ _ _ h
    | exact fun _ h => h

theorem countDrain_steady (n : StallId) (aborted : Bool) (s : State) (hc : Steady R s₀ s) : Steady R s₀ (countDrain n aborted s) :=
  modStall_steady n _ s (fun x hx => .inl (by split at hx <;> exact hx)) hc

theorem endShot_steady (r : RiderId) (aborted : Bool) (end_ : Word64) (s : State) (hc : Steady R s₀ s) : Steady R s₀ (endShot r aborted end_ s) := by
  unfold endShot
  try dsimp only
  repeat' first
    | with_reducible assumption
    | with_reducible apply Steady.ite
    | with_reducible apply countDrain_steady
    | with_reducible apply (Steady.frame · (feedShot_changes _ _ _ _ (by decide) (Changes.refl _ _)))
    | with_reducible apply (Steady.frame · (modRider_changes _ _ _ (by decide) (Changes.refl _ _)))
    | with_reducible apply (Steady.frame · (writeShot_changes _ _ _ _ (by decide) (Changes.refl _ _)))
    | (intro _; try dsimp only)

theorem stopRider_steady (r : RiderId) (k : StopKind) (s : State) (hc : Steady R s₀ s) : Steady R s₀ (stopRider r k s) := by
  unfold stopRider
  try dsimp only
  repeat' first
    | with_reducible assumption
    | with_reducible apply Steady.ite
    | with_reducible apply endShot_steady
    | with_reducible apply forEach_steady
    | with_reducible apply (Steady.frame · (discardOpens_changes _ _ _ (by decide) (Changes.refl _ _)))
    | with_reducible apply (Steady.frame · (dropSpent_changes _ _ _ (by decide) (Changes.refl _ _)))
    | with_reducible apply (Steady.frame · (goIdle_changes _ _ (by decide) (Changes.refl _ _)))
    | with_reducible apply (Steady.frame · (modRider_changes _ _ _ (by decide) (Changes.refl _ _)))
    | with_reducible apply (Steady.frame · (modSeq_changes _ _ _ (by decide) (Changes.refl _ _)))
    | (intro _; try dsimp only)
    | split

theorem fatalFault_steady (r : RiderId) (code : Code) (s : State) (hc : Steady R s₀ s) : Steady R s₀ (fatalFault r code s) := by
  unfold fatalFault
  try dsimp only
  repeat' first
    | with_reducible assumption
    | with_reducible apply stopRider_steady
    | with_reducible apply (Steady.frame · (modRider_changes _ _ _ (by decide) (Changes.refl _ _)))
    | with_reducible apply (Steady.frame · (raise_changes _ _ (by decide) (Changes.refl _ _)))
    | with_reducible apply (Steady.frame · (recordRider_changes _ _ _ (by decide) (Changes.refl _ _)))

theorem enterHandler_steady (r : RiderId) (s : State) (hc : Steady R s₀ s) : Steady R s₀ (enterHandler r s) := by
  unfold enterHandler
  try dsimp only
  repeat' first
    | with_reducible assumption
    | with_reducible apply Steady.ite
    | with_reducible apply fatalFault_steady
    | with_reducible apply (Steady.frame · (modRider_changes _ _ _ (by decide) (Changes.refl _ _)))
    | (intro _; try dsimp only)
    | split

theorem sampleFaults_steady (r : RiderId) (s : State) (hc : Steady R s₀ s) : Steady R s₀ (sampleFaults r s) := by
  unfold sampleFaults
  try dsimp only
  repeat' first
    | with_reducible assumption
    | with_reducible apply Steady.ite
    | with_reducible apply enterHandler_steady
    | (intro _; try dsimp only)

theorem askStop_steady (r : RiderId) (k : StopKind) (s : State) (hc : Steady R s₀ s) : Steady R s₀ (askStop r k s) := by
  unfold askStop
  try dsimp only
  repeat' first
    | with_reducible assumption
    | with_reducible apply stopRider_steady
    | with_reducible apply (Steady.frame · (modRider_changes _ _ _ (by decide) (Changes.refl _ _)))
    | split

theorem drainRider_steady (r : RiderId) (s : State) (hc : Steady R s₀ s) : Steady R s₀ (drainRider r s) := by
  unfold drainRider
  try dsimp only
  repeat' first
    | with_reducible assumption
    | with_reducible apply Steady.ite
    | with_reducible apply stopRider_steady
    | with_reducible apply (Steady.frame · (modRider_changes _ _ _ (by decide) (Changes.refl _ _)))
    | (intro _; try dsimp only)

theorem pause_steady (r : RiderId) (s : State) (hc : Steady R s₀ s) : Steady R s₀ (pause r s) := by
  unfold pause
  try dsimp only
  repeat' first
    | with_reducible assumption
    | with_reducible apply Steady.ite
    | with_reducible apply sampleFaults_steady
    | with_reducible apply stopRider_steady
    | (intro _; try dsimp only)

theorem actShot_steady (r : RiderId) (w : MicroWord) (s : State) (hc : Steady R s₀ s) : Steady R s₀ (actShot r w s).1 := by
  unfold actShot
  try dsimp only
  repeat' first
    | with_reducible assumption
    | with_reducible apply Steady.ite
    | with_reducible apply endShot_steady
    | with_reducible apply (Steady.frame · (beginShot_changes _ _ _ (by decide) (Changes.refl _ _)))
    | with_reducible apply Steady.fst_ite
    | refine Steady.fst ‹_ = (_, _)› ?_
    | dsimp only
    | (intro _; try dsimp only)

theorem action_steady (r : RiderId) (w : MicroWord) (g : Grant) (again : Bool) (s : State) (hc : Steady R s₀ s) :
    Steady R s₀ (action r w g again s).1 := by
  unfold action
  try dsimp only
  repeat' first
    | with_reducible assumption
    | with_reducible apply actShot_steady
    | with_reducible apply (Steady.frame · (actCtrig_changes _ _ _ (by decide) (Changes.refl _ _)))
    | with_reducible apply (Steady.frame · (actEmit_changes _ _ _ (by decide) (Changes.refl _ _)))
    | with_reducible apply (Steady.frame · (actFlipFlop_changes _ _ _ _ (by decide) (Changes.refl _ _)))
    | with_reducible apply (Steady.frame · (actFlux_changes _ _ _ _ (by decide) (Changes.refl _ _)))
    | with_reducible apply (Steady.frame · (actOpen_changes _ _ _ _ _ (by decide) (Changes.refl _ _)))
    | with_reducible apply (Steady.frame · (actPop_changes _ _ _ _ (by decide) (Changes.refl _ _)))
    | with_reducible apply (Steady.frame · (actPost_changes _ _ _ _ (by decide) (Changes.refl _ _)))
    | with_reducible apply (Steady.frame · (actPush_changes _ _ _ _ (by decide) (Changes.refl _ _)))
    | with_reducible apply (Steady.frame · (actTune_changes _ _ _ _ (by decide) (Changes.refl _ _)))
    | with_reducible apply (Steady.frame · (modRider_changes _ _ _ (by decide) (Changes.refl _ _)))
    | with_reducible apply (Steady.frame · (raise_changes _ _ (by decide) (Changes.refl _ _)))
    | with_reducible apply Steady.fst_ite
    | refine Steady.fst ‹_ = (_, _)› ?_
    | dsimp only
    | split

theorem boundary_steady (r : RiderId) (s : State) (hc : Steady R s₀ s) : Steady R s₀ (boundary r s) := by
  unfold boundary
  try dsimp only
  repeat' first
    | with_reducible assumption
    | with_reducible apply Steady.ite
    | with_reducible apply enterHandler_steady
    | with_reducible apply stopRider_steady
    | (intro _; try dsimp only)

theorem sequence_steady (r : RiderId) (w : MicroWord) (s : State) (hc : Steady R s₀ s) : Steady R s₀ (sequence r w s) := by
  unfold sequence
  try dsimp only
  repeat' first
    | with_reducible assumption
    | with_reducible apply Steady.ite
    | with_reducible apply boundary_steady
    | with_reducible apply fatalFault_steady
    | with_reducible apply stopRider_steady
    | with_reducible apply (Steady.frame · (modRider_changes _ _ _ (by decide) (Changes.refl _ _)))
    | dsimp only [id]
    | (intro _; try dsimp only)
    | split

theorem finish_steady (r : RiderId) (w : MicroWord) (again : Bool) (res : State × ActEnd) (hc : Steady R s₀ res.1) :
    Steady R s₀ (finish r w again res) := by
  unfold finish
  try dsimp only
  repeat' first
    | with_reducible assumption
    | with_reducible apply Steady.ite
    | with_reducible apply pause_steady
    | with_reducible apply sequence_steady
    | with_reducible apply stopRider_steady
    | with_reducible apply (Steady.frame · (ctrigFault_changes _ _ (by decide) (Changes.refl _ _)))
    | with_reducible apply (Steady.frame · (modRider_changes _ _ _ (by decide) (Changes.refl _ _)))
    | with_reducible apply (Steady.frame · (refusedFault_changes _ _ _ (by decide) (Changes.refl _ _)))
    | (intro _; try dsimp only)
    | split

theorem completeFork_steady (r : RiderId) (w : MicroWord) (l : Word) (alt : Bool) (late : Bool) (settled : Bool) (s : State)
    (hc : Steady R s₀ s) : Steady R s₀ (completeFork r w l alt late settled s) := by
  unfold completeFork
  try dsimp only
  repeat' first
    | with_reducible assumption
    | with_reducible apply Steady.ite
    | with_reducible apply sequence_steady
    | with_reducible apply (Steady.frame · (modRider_changes _ _ _ (by decide) (Changes.refl _ _)))

theorem consumeFork_steady (r : RiderId) (w : MicroWord) (t : Token) (hub : Bool) (s : State) (hc : Steady R s₀ s) :
    Steady R s₀ (consumeFork r w t hub s) := by
  unfold consumeFork
  try dsimp only
  repeat' first
    | with_reducible assumption
    | with_reducible apply Steady.ite
    | with_reducible apply completeFork_steady
    | with_reducible apply (Steady.frame · (dropSpent_changes _ _ _ (by decide) (Changes.refl _ _)))
    | with_reducible apply (Steady.frame · (modSeq_changes _ _ _ (by decide) (Changes.refl _ _)))
    | (intro _; try dsimp only)

theorem armFork_steady (r : RiderId) (w : MicroWord) (s : State) (hc : Steady R s₀ s) : Steady R s₀ (armFork r w s) := by
  unfold armFork
  try dsimp only
  repeat' first
    | with_reducible assumption
    | with_reducible apply consumeFork_steady
    | with_reducible apply finish_steady
    | with_reducible apply pause_steady
    | with_reducible apply (Steady.frame · (modRider_changes _ _ _ (by decide) (Changes.refl _ _)))
    | with_reducible apply (Steady.frame · (modSeq_changes _ _ _ (by decide) (Changes.refl _ _)))
    | with_reducible apply (Steady.frame · (notePost_changes _ _ _ (by decide) (Changes.refl _ _)))
    | with_reducible apply (Steady.frame · (stay_changes _ _ _ _ _ (by decide) (Changes.refl _ _)))
    | split

theorem grantHeld_steady (r : RiderId) (s : State) (hc : Steady R s₀ s) : Steady R s₀ (grantHeld r s) := by
  unfold grantHeld
  try dsimp only
  repeat' first
    | with_reducible assumption
    | with_reducible apply Steady.ite
    | with_reducible apply action_steady
    | with_reducible apply armFork_steady
    | with_reducible apply finish_steady
    | with_reducible apply pause_steady
    | with_reducible apply (Steady.frame · (stay_changes _ _ _ _ _ (by decide) (Changes.refl _ _)))
    | with_reducible apply Steady.fst_ite
    | refine Steady.fst ‹_ = (_, _)› ?_
    | dsimp only
    | (intro _; try dsimp only)

theorem deadlineReached_steady (r : RiderId) (s : State) (hc : Steady R s₀ s) : Steady R s₀ (deadlineReached r s) := by
  unfold deadlineReached
  try dsimp only
  repeat' first
    | with_reducible assumption
    | with_reducible apply Steady.ite
    | with_reducible apply boundary_steady
    | with_reducible apply (Steady.frame · (modRider_changes _ _ _ (by decide) (Changes.refl _ _)))
    | with_reducible apply (Steady.frame · (modSeq_changes _ _ _ (by decide) (Changes.refl _ _)))
    | with_reducible apply (Steady.frame · (recordRider_changes _ _ _ (by decide) (Changes.refl _ _)))
    | (intro _; try dsimp only)
    | split

theorem skipWord_steady (r : RiderId) (s : State) (hc : Steady R s₀ s) : Steady R s₀ (skipWord r s) := by
  unfold skipWord
  try dsimp only
  repeat' first
    | with_reducible assumption
    | with_reducible apply boundary_steady
    | with_reducible apply (Steady.frame · (modRider_changes _ _ _ (by decide) (Changes.refl _ _)))

theorem runWord_steady (r : RiderId) (w : MicroWord) (g : Grant) (again : Bool) (s : State) (hc : Steady R s₀ s) :
    Steady R s₀ (runWord r w g again s) := by
  unfold runWord
  try dsimp only
  repeat' first
    | with_reducible assumption
    | with_reducible apply Steady.ite
    | with_reducible apply action_steady
    | with_reducible apply finish_steady
    | with_reducible apply skipWord_steady
    | with_reducible apply (Steady.frame · (modRider_changes _ _ _ (by decide) (Changes.refl _ _)))
    | with_reducible apply Steady.fst_ite
    | refine Steady.fst ‹_ = (_, _)› ?_
    | dsimp only
    | (intro _; try dsimp only)

theorem waitTrue_steady (r : RiderId) (u : Run) (s : State) (hc : Steady R s₀ s) : Steady R s₀ (waitTrue r u s) := by
  unfold waitTrue
  try dsimp only
  repeat' first
    | with_reducible assumption
    | with_reducible apply Steady.ite
    | with_reducible apply runWord_steady
    | (intro _; try dsimp only)

theorem runFork_steady (r : RiderId) (w : MicroWord) (g : Grant) (again : Bool) (s : State) (hc : Steady R s₀ s) :
    Steady R s₀ (runFork r w g again s) := by
  unfold runFork
  try dsimp only
  repeat' first
    | with_reducible assumption
    | with_reducible apply Steady.ite
    | with_reducible apply armFork_steady
    | with_reducible apply finish_steady
    | with_reducible apply skipWord_steady
    | with_reducible apply (Steady.frame · (countVoice_changes _ _ (by decide) (Changes.refl _ _)))
    | (intro _; try dsimp only)

theorem execWord_steady (is : MicroWord → Bool) (r : RiderId) (u : Run) (s : State) (hc : Steady R s₀ s) : Steady R s₀ (execWord is r u s) := by
  unfold execWord
  try dsimp only
  repeat' first
    | with_reducible assumption
    | with_reducible apply Steady.ite
    | with_reducible apply fatalFault_steady
    | with_reducible apply pause_steady
    | with_reducible apply runFork_steady
    | with_reducible apply runWord_steady
    | with_reducible apply (Steady.frame · (modRider_changes _ _ _ (by decide) (Changes.refl _ _)))
    | with_reducible apply (Steady.frame · (recordRider_changes _ _ _ (by decide) (Changes.refl _ _)))
    | with_reducible apply (Steady.frame · (stay_changes _ _ _ _ _ (by decide) (Changes.refl _ _)))
    | (intro _; try dsimp only)
    | split

theorem overrunFault_steady (r : RiderId) (s : State) (hc : Steady R s₀ s) : Steady R s₀ (overrunFault r s) := by
  unfold overrunFault
  try dsimp only
  repeat' first
    | with_reducible assumption
    | with_reducible apply Steady.ite
    | with_reducible apply sampleFaults_steady
    | with_reducible apply (Steady.frame · (modRider_changes _ _ _ (by decide) (Changes.refl _ _)))
    | with_reducible apply (Steady.frame · (raise_changes _ _ (by decide) (Changes.refl _ _)))
    | with_reducible apply (Steady.frame · (recordRider_changes _ _ _ (by decide) (Changes.refl _ _)))
    | (intro _; try dsimp only)

theorem enterTaskInput_steady (r : RiderId) (k : Nat) (t : Token) (hub : Bool) (s : State) (hc : Steady R s₀ s) :
    Steady R s₀ (enterTaskInput r k t hub s).1 := by
  unfold enterTaskInput
  try dsimp only
  repeat' first
    | with_reducible assumption
    | with_reducible apply Steady.ite
    | with_reducible apply consumeFork_steady
    | with_reducible apply overrunFault_steady
    | with_reducible apply (Steady.frame · (modRider_changes _ _ _ (by decide) (Changes.refl _ _)))
    | with_reducible apply Steady.fst_ite
    | refine Steady.fst ‹_ = (_, _)› ?_
    | dsimp only
    | (intro _; try dsimp only)

theorem forkWithoutToken_steady (r : RiderId) (v : VoiceId) (late : Bool) (settled : Bool) (s : State) (hc : Steady R s₀ s) :
    Steady R s₀ (forkWithoutToken r v late settled s) := by
  unfold forkWithoutToken
  try dsimp only
  repeat' first
    | with_reducible assumption
    | with_reducible apply Steady.ite
    | with_reducible apply completeFork_steady
    | (intro _; try dsimp only)

theorem lateFault_steady (r : RiderId) (s : State) (hc : Steady R s₀ s) : Steady R s₀ (lateFault r s) := by
  unfold lateFault
  try dsimp only
  repeat' first
    | with_reducible assumption
    | with_reducible apply Steady.ite
    | with_reducible apply sampleFaults_steady
    | with_reducible apply (Steady.frame · (modRider_changes _ _ _ (by decide) (Changes.refl _ _)))
    | with_reducible apply (Steady.frame · (raise_changes _ _ (by decide) (Changes.refl _ _)))
    | with_reducible apply (Steady.frame · (recordRider_changes _ _ _ (by decide) (Changes.refl _ _)))

theorem modSpare_steady (n : StallId) (k : SliceKind) (f : Spare → Spare) (s : State) (hc : Steady R s₀ s) : Steady R s₀ (modSpare n k f s) :=
  modStall_steady n _ s (fun x hx => .inl (by cases k <;> exact hx)) hc

/-- A life other than RIDING may be entered by every stall, RIDING by those of `R`. -/
theorem setLife_steady (n : StallId) (l : Life) (s : State) (hl : l = .riding → R n) (hc : Steady R s₀ s) : Steady R s₀ (setLife n l s) :=
  ((modStall_steady n _ s (fun _ h => .inr (hl h)) hc).frame (raise_changes _ _ (by decide) (Changes.refl _ _))).frame
    (lifeToken_changes _ _ _ (by decide) (Changes.refl _ _))

theorem enterResting_steady (n : StallId) (s : State) (hc : Steady R s₀ s) : Steady R s₀ (enterResting n s) := by
  unfold enterResting
  try dsimp only
  repeat' first
    | with_reducible assumption
    | with_reducible apply modStall_steady
    | with_reducible apply setLife_steady
    | exact fun _ h => .inl h
    | exact (absurd · (by decide))

theorem haltStall_steady (n : StallId) (s : State) (hc : Steady R s₀ s) : Steady R s₀ (haltStall n s) := by
  unfold haltStall
  try dsimp only
  repeat' first
    | with_reducible assumption
    | with_reducible apply Steady.ite
    | with_reducible apply askStop_steady
    | with_reducible apply enterResting_steady
    | with_reducible apply forEach_steady
    | with_reducible apply modStall_steady
    | with_reducible apply (Steady.frame · (closePorts_changes _ _ (by decide) (Changes.refl _ _)))
    | with_reducible apply (Steady.frame · (cutWindows_changes _ _ (by decide) (Changes.refl _ _)))
    | with_reducible apply (Steady.frame · (fastStop_changes _ _ (by decide) (Changes.refl _ _)))
    | with_reducible apply (Steady.frame · (idleVoices_changes _ _ (by decide) (Changes.refl _ _)))
    | exact fun _ h => .inl h
    | (intro _; try dsimp only)

theorem forgetStall_steady (n : StallId) (s : State) (hc : Steady R s₀ s) : Steady R s₀ (forgetStall n s) := by
  unfold forgetStall
  refine Steady.frame ?_ (modNode_changes _ _ _ (by decide) (modFarrier_changes _ _ _ (by decide)
    (forEach_changes _ _ _ (fun _ _ h => modLine_changes _ _ _ (by decide) h) (Changes.refl _ _))))
  refine hc.of_stalls rfl fun hm => ?_
  obtain ⟨hbm, library, descs, kernels, store, user⟩ := (memoriesCanonical_iff s).1 hm
  exact (memoriesCanonical_iff _).2
    ⟨hbm, dropKeys_wf _ _ _ _ library, dropKeys_wf _ _ _ _ descs, dropKeys_wf _ _ _ _ kernels, dropKeys_wf _ _ _ _ store, user⟩

theorem clearRecord_steady (n : StallId) (s : State) (hc : Steady R s₀ s) : Steady R s₀ (clearRecord n s) :=
  setHbm_steady _ s (fun m hm => dropKeys_wf _ _ _ m hm) hc

theorem discardImage_steady (n : StallId) (s : State) (hc : Steady R s₀ s) : Steady R s₀ (discardImage n s) := by
  unfold discardImage
  try dsimp only
  repeat' first
    | with_reducible assumption
    | with_reducible apply Steady.ite
    | with_reducible apply clearRecord_steady
    | with_reducible apply endCaptures_steady
    | with_reducible apply leaveCal_steady
    | with_reducible apply modStall_steady
    | with_reducible apply (Steady.frame · (absentPorts_changes _ _ (by decide) (Changes.refl _ _)))
    | with_reducible apply (Steady.frame · (endQueues_changes _ _ (by decide) (Changes.refl _ _)))
    | with_reducible apply (Steady.frame · (idleVoices_changes _ _ (by decide) (Changes.refl _ _)))
    | with_reducible apply (Steady.frame · (linesSafe_changes _ _ (by decide) (Changes.refl _ _)))
    | with_reducible apply (Steady.frame · (modTrims_changes _ _ _ (by decide) (Changes.refl _ _)))
    | with_reducible apply (Steady.frame · (plainWatch_changes _ _ (by decide) (Changes.refl _ _)))
    | with_reducible apply (Steady.frame · (setStallImages_changes _ _ (by decide) (Changes.refl _ _)))
    | exact fun _ h => .inl h

theorem stallOff_steady (n : StallId) (s : State) (hc : Steady R s₀ s) : Steady R s₀ (stallOff n s) := by
  unfold stallOff
  try dsimp only
  repeat' first
    | with_reducible assumption
    | with_reducible apply Steady.ite
    | with_reducible apply discardImage_steady
    | with_reducible apply forgetStall_steady
    | with_reducible apply modStall_steady
    | with_reducible apply setLife_steady
    | with_reducible apply (Steady.frame · (closePorts_changes _ _ (by decide) (Changes.refl _ _)))
    | with_reducible apply (Steady.frame · (dropNode_changes _ _ (by decide) (Changes.refl _ _)))
    | with_reducible apply (Steady.frame · (fastDown_changes _ _ (by decide) (Changes.refl _ _)))
    | with_reducible apply (Steady.frame · (modGait_changes _ _ _ (by decide) (Changes.refl _ _)))
    | with_reducible apply (Steady.frame · (setTack_changes _ _ (by decide) (Changes.refl _ _)))
    | with_reducible apply (Steady.frame · (stallDomains_changes _ _ _ (by decide) (Changes.refl _ _)))
    | exact fun _ h => .inl h
    | exact (absurd · (by decide))
    | (intro _; try dsimp only)

theorem endStallOp_steady (n : StallId) (op : OpStatus) (s : State) (hc : Steady R s₀ s) : Steady R s₀ (endStallOp n op s) := by
  unfold endStallOp
  try dsimp only
  repeat' first
    | with_reducible assumption
    | with_reducible apply modStall_steady
    | with_reducible apply (Steady.frame · (raise_changes _ _ (by decide) (Changes.refl _ _)))
    | exact fun _ h => .inl h

theorem endPowerDown_steady (n : StallId) (s : State) (hc : Steady R s₀ s) : Steady R s₀ (endPowerDown n s) := by
  unfold endPowerDown
  try dsimp only
  repeat' first
    | with_reducible assumption
    | with_reducible apply Steady.ite
    | with_reducible apply endStallOp_steady
    | with_reducible apply stallOff_steady
    | (intro _; try dsimp only)

theorem toStabled_steady (n : StallId) (s : State) (hc : Steady R s₀ s) : Steady R s₀ (toStabled n s) := by
  unfold toStabled
  try dsimp only
  repeat' first
    | with_reducible assumption
    | with_reducible apply setLife_steady
    | with_reducible apply (Steady.frame · (clearFaults_changes _ _ (by decide) (Changes.refl _ _)))
    | exact (absurd · (by decide))

theorem persistErrors_steady (corrected : Nat) (doubles : Nat) (s : State) (hc : Steady R s₀ s) :
    Steady R s₀ (persistErrors corrected doubles s) := by
  unfold persistErrors
  try dsimp only
  repeat' first
    | with_reducible assumption
    | with_reducible apply setPersist_steady
    | with_reducible apply (Steady.frame · (recordDoubles_changes _ _ (by decide) (Changes.refl _ _)))
    | exact fun _ h => memWrite_wf _ _ _ _ h
    | exact fun _ h => h

theorem startPowerUp_steady (n : StallId) (found : PowerUpFound) (s : State) (hc : Steady R s₀ s) : Steady R s₀ (startPowerUp n found s) := by
  unfold startPowerUp
  try dsimp only
  repeat' first
    | with_reducible assumption
    | with_reducible apply Steady.ite
    | with_reducible apply endStallOp_steady
    | with_reducible apply forEach_steady
    | with_reducible apply loadStud_steady
    | with_reducible apply modStall_steady
    | with_reducible apply persistErrors_steady
    | with_reducible apply stallOff_steady
    | with_reducible apply (Steady.frame · (modWatch_changes _ _ _ (by decide) (Changes.refl _ _)))
    | with_reducible apply (Steady.frame · (record_changes _ _ _ _ _ _ (by decide) (Changes.refl _ _)))
    | with_reducible apply (Steady.frame · (stallDomains_changes _ _ _ (by decide) (Changes.refl _ _)))
    | exact fun _ h => .inl h
    | (intro _; try dsimp only)

theorem bringNext_steady (bring : Tab PowerUpFound) (x1 : Nat) (x2 : State) (hc : Steady R s₀ x2) : Steady R s₀ (bringNext bring x1 x2) := by
  induction x1 generalizing x2 with
  | zero => exact hc.frame (endBringUp_changes _ (by decide) (Changes.refl _ _))
  | succ n ih =>
    unfold bringNext
    split
    · exact hc.frame (endBringUp_changes _ (by decide) (Changes.refl _ _))
    · rename_i a rest _
      have hk := hc.frame (setPower_changes (fun p => { p with toBring := rest, bringing := some a }) x2 (by decide) (Changes.refl _ _))
      dsimp only
      split
      · exact ih _ (hk.frame (stallBrought_changes _ _ _ (by decide) (Changes.refl _ _)))
      · have hk2 := startPowerUp_steady a (tabGet {} bring a.val) _ hk
        split
        · exact hk2
        · exact ih _ (hk2.frame (stallBrought_changes _ _ _ (by decide) (Changes.refl _ _)))

theorem bringOn_steady (n : StallId) (up : Bool) (bring : Tab PowerUpFound) (s : State) (hc : Steady R s₀ s) :
    Steady R s₀ (bringOn n up bring s) := by
  unfold bringOn
  try dsimp only
  repeat' first
    | with_reducible assumption
    | with_reducible apply Steady.ite
    | with_reducible apply bringNext_steady
    | with_reducible apply (Steady.frame · (stallBrought_changes _ _ _ (by decide) (Changes.refl _ _)))
    | (intro _; try dsimp only)

theorem bringAligned_steady (n : StallId) (bring : Tab PowerUpFound) (s : State) (hc : Steady R s₀ s) : Steady R s₀ (bringAligned n bring s) := by
  unfold bringAligned
  try dsimp only
  repeat' first
    | with_reducible assumption
    | with_reducible apply Steady.ite
    | with_reducible apply bringOn_steady
    | with_reducible apply (Steady.frame · (startFlashStall_changes _ _ (by decide) (Changes.refl _ _)))
    | (intro _; try dsimp only)

theorem faultHaltStall_steady (n : StallId) (s : State) (hc : Steady R s₀ s) : Steady R s₀ (faultHaltStall n s) := by
  unfold faultHaltStall
  try dsimp only
  repeat' first
    | with_reducible assumption
    | with_reducible apply haltStall_steady
    | with_reducible apply modStall_steady
    | exact fun _ h => .inl h

theorem fatalStall_steady (n : StallId) (s : State) (hc : Steady R s₀ s) : Steady R s₀ (fatalStall n s) := by
  unfold fatalStall
  try dsimp only
  repeat' first
    | with_reducible assumption
    | with_reducible apply Steady.ite
    | with_reducible apply faultHaltStall_steady
    | with_reducible apply modStall_steady
    | with_reducible apply (Steady.frame · (raise_changes _ _ (by decide) (Changes.refl _ _)))
    | with_reducible apply (Steady.frame · (record_changes _ _ _ _ _ _ (by decide) (Changes.refl _ _)))
    | exact fun _ h => .inl h
    | (intro _; try dsimp only)
    | split

theorem dropSpareReq_steady (n : StallId) (k : SliceKind) (s : State) (hc : Steady R s₀ s) : Steady R s₀ (dropSpareReq n k s) := by
  unfold dropSpareReq
  try dsimp only
  repeat' first
    | with_reducible assumption
    | with_reducible apply Steady.ite
    | with_reducible apply modStall_steady
    | with_reducible apply (Steady.frame · (record_changes _ _ _ _ _ _ (by decide) (Changes.refl _ _)))
    | exact fun _ h => .inl h
    | (intro _; try dsimp only)
    | split

theorem loseA4_steady (n : StallId) (s : State) (hc : Steady R s₀ s) : Steady R s₀ (loseA4 n s) := by
  unfold loseA4
  try dsimp only
  repeat' first
    | with_reducible assumption
    | with_reducible apply Steady.ite
    | with_reducible apply endCal_steady
    | (intro _; try dsimp only)

theorem beginForced_steady (i : SliceId) (s : State) (hc : Steady R s₀ s) : Steady R s₀ (beginForced i s) := by
  unfold beginForced
  try dsimp only
  repeat' first
    | with_reducible assumption
    | with_reducible apply Steady.ite
    | with_reducible apply dropSpareReq_steady
    | with_reducible apply loseA4_steady
    | with_reducible apply modSpare_steady
    | with_reducible apply (Steady.frame · (modFarrier_changes _ _ _ (by decide) (Changes.refl _ _)))
    | exact fun _ h => .inl h
    | (intro _; try dsimp only)

theorem spareFails_steady (n : StallId) (k : SliceKind) (s : State) (hc : Steady R s₀ s) : Steady R s₀ (spareFails n k s) := by
  unfold spareFails
  try dsimp only
  repeat' first
    | with_reducible assumption
    | with_reducible apply Steady.ite
    | with_reducible apply dropSpareReq_steady
    | with_reducible apply modSpare_steady
    | with_reducible apply (Steady.frame · (modFarrier_changes _ _ _ (by decide) (Changes.refl _ _)))
    | exact fun _ h => .inl h
    | (intro _; try dsimp only)

theorem noSpare_steady (i : SliceId) (s : State) (hc : Steady R s₀ s) : Steady R s₀ (noSpare i s) := by
  unfold noSpare
  try dsimp only
  repeat' first
    | with_reducible assumption
    | with_reducible apply failCaptures_steady
    | with_reducible apply (Steady.frame · (record_changes _ _ _ _ _ _ (by decide) (Changes.refl _ _)))
    | split

theorem calFault_steady (i : SliceId) (s : State) (hc : Steady R s₀ s) : Steady R s₀ (calFault i s) := by
  unfold calFault
  try dsimp only
  repeat' first
    | with_reducible assumption
    | with_reducible apply Steady.ite
    | with_reducible apply abortCal_steady
    | with_reducible apply loseA4_steady
    | (intro _; try dsimp only)

theorem converterFault_steady (i : SliceId) (s : State) (hc : Steady R s₀ s) : Steady R s₀ (converterFault i s) := by
  unfold converterFault
  try dsimp only
  repeat' first
    | with_reducible assumption
    | with_reducible apply Steady.ite
    | with_reducible apply beginForced_steady
    | with_reducible apply calFault_steady
    | with_reducible apply noSpare_steady
    | with_reducible apply spareFails_steady
    | with_reducible apply (Steady.frame · (faultBit_changes _ _ (by decide) (Changes.refl _ _)))
    | with_reducible apply (Steady.frame · (markSliceShots_changes _ _ (by decide) (Changes.refl _ _)))
    | with_reducible apply (Steady.frame · (setSliceFault_changes _ _ (by decide) (Changes.refl _ _)))
    | (intro _; try dsimp only)
    | split

theorem toHarnessed_steady (n : StallId) (s : State) (hc : Steady R s₀ s) : Steady R s₀ (toHarnessed n s) := by
  unfold toHarnessed
  try dsimp only
  repeat' first
    | with_reducible assumption
    | with_reducible apply Steady.ite
    | with_reducible apply endStallOp_steady
    | with_reducible apply forEach_steady
    | with_reducible apply modStall_steady
    | with_reducible apply setLife_steady
    | with_reducible apply (Steady.frame · (closePorts_changes _ _ (by decide) (Changes.refl _ _)))
    | with_reducible apply (Steady.frame · (discardOpens_changes _ _ _ (by decide) (Changes.refl _ _)))
    | with_reducible apply (Steady.frame · (fastStop_changes _ _ (by decide) (Changes.refl _ _)))
    | with_reducible apply (Steady.frame · (flushQueue_changes _ _ (by decide) (Changes.refl _ _)))
    | with_reducible apply (Steady.frame · (idleVoices_changes _ _ (by decide) (Changes.refl _ _)))
    | with_reducible apply (Steady.frame · (record_changes _ _ _ _ _ _ (by decide) (Changes.refl _ _)))
    | exact fun _ h => .inl h
    | exact (absurd · (by decide))
    | (intro _; try dsimp only)

theorem farrierSwitch_steady (n : StallId) (s : State) (hc : Steady R s₀ s) : Steady R s₀ (farrierSwitch n s) := by
  unfold farrierSwitch
  try dsimp only
  repeat' first
    | with_reducible assumption
    | with_reducible apply Steady.ite
    | with_reducible apply freeA4_steady
    | with_reducible apply modSpare_steady
    | with_reducible apply (Steady.frame · (modFarrier_changes _ _ _ (by decide) (Changes.refl _ _)))
    | exact fun _ h => .inl h
    | (intro _; try dsimp only)
    | split

theorem execFarrierSpareSwitch_steady (n : StallId) (s : State) (hc : Steady R s₀ s) : ResSteady R s₀ (execFarrierSpareSwitch n s) := by
  unfold execFarrierSpareSwitch
  try dsimp only
  repeat' first
    | with_reducible assumption
    | with_reducible apply ResSteady.next
    | with_reducible apply farrierSwitch_steady

theorem farrierCommand_steady (f : Func) (n : StallId) (code : State → Option Code) (eff : State → State) (s : State)
    (heff : ∀ y0, Steady R s₀ y0 → Steady R s₀ (eff y0)) (hc : Steady R s₀ s) : Steady R s₀ (farrierCommand f n code eff s) := by
  unfold farrierCommand
  try dsimp only
  repeat' first
    | with_reducible assumption
    | with_reducible apply hostWrite_steady
    | with_reducible apply (Steady.frame · (modFarrier_changes _ _ _ (by decide) (Changes.refl _ _)))
    | with_reducible apply (Steady.frame · (refuseReg_changes _ _ _ _ (by decide) (Changes.refl _ _)))
    | with_reducible apply heff
    | (intro _; try dsimp only)
    | split

theorem execFarrierAbort_steady (f : Func) (n : StallId) (s : State) (hc : Steady R s₀ s) : ResSteady R s₀ (execFarrierAbort f n s) := by
  unfold execFarrierAbort
  try dsimp only
  repeat' first
    | with_reducible assumption
    | with_reducible apply Steady.ite
    | with_reducible apply ResSteady.next
    | with_reducible apply ResSteady.ite
    | with_reducible apply endCal_steady
    | with_reducible apply farrierCommand_steady
    | (intro _; try dsimp only)

theorem preempt_steady (n : StallId) (s : State) (hc : Steady R s₀ s) : Steady R s₀ (preempt n s) := by
  unfold preempt
  try dsimp only
  repeat' first
    | with_reducible assumption
    | with_reducible apply Steady.ite
    | with_reducible apply endCal_steady
    | with_reducible apply (Steady.frame · (modFarrier_changes _ _ _ (by decide) (Changes.refl _ _)))
    | (intro _; try dsimp only)

theorem startCal_steady (n : StallId) (auto : Bool) (f : Func) (k : CalKind) (t : BitVec 8) (s : State) (hc : Steady R s₀ s) :
    Steady R s₀ (startCal n auto f k t s) := by
  unfold startCal
  try dsimp only
  repeat' first
    | with_reducible assumption
    | with_reducible apply Steady.ite
    | with_reducible apply modSpare_steady
    | with_reducible apply (Steady.frame · (modFarrier_changes _ _ _ (by decide) (Changes.refl _ _)))
    | exact fun _ h => .inl h
    | (intro _; try dsimp only)

theorem execFarrierStart_steady (f : Func) (n : StallId) (kind : CalKind) (target : BitVec 8) (s : State) (hc : Steady R s₀ s) :
    ResSteady R s₀ (execFarrierStart f n kind target s) := by
  unfold execFarrierStart
  try dsimp only
  repeat' first
    | with_reducible assumption
    | with_reducible apply ResSteady.next
    | with_reducible apply farrierCommand_steady
    | with_reducible apply preempt_steady
    | with_reducible apply startCal_steady
    | (intro _; try dsimp only)

theorem execActivationTimeout_steady (n : StallId) (s : State) (hc : Steady R s₀ s) : ResSteady R s₀ (execActivationTimeout n s) := by
  unfold execActivationTimeout
  try dsimp only
  repeat' first
    | with_reducible assumption
    | with_reducible apply Steady.ite
    | with_reducible apply ResSteady.next
    | with_reducible apply ResSteady.ite
    | with_reducible apply endCal_steady
    | (intro _; try dsimp only)

theorem recordRun_steady (n : StallId) (bad : Option Bool) (s : State) (hc : Steady R s₀ s) : Steady R s₀ (recordRun n bad s) := by
  unfold recordRun
  try dsimp only
  repeat' first
    | with_reducible assumption
    | with_reducible apply Steady.ite
    | with_reducible apply recordStud_steady
    | with_reducible apply stopCal_steady
    | with_reducible apply (Steady.frame · (modFarrier_changes _ _ _ (by decide) (Changes.refl _ _)))
    | with_reducible apply (Steady.frame · (record_changes _ _ _ _ _ _ (by decide) (Changes.refl _ _)))
    | (intro _; try dsimp only)

theorem quietAt_steady (n : StallId) (bad : Option Bool) (s : State) (hc : Steady R s₀ s) : Steady R s₀ (quietAt n bad s) := by
  unfold quietAt
  try dsimp only
  repeat' first
    | with_reducible assumption
    | with_reducible apply Steady.ite
    | with_reducible apply freeA4_steady
    | with_reducible apply recordRun_steady
    | with_reducible apply (Steady.frame · (activate_changes _ _ _ (by decide) (Changes.refl _ _)))
    | (intro _; try dsimp only)

theorem execQuietBoundary_steady (n : StallId) (badCopy : Option Bool) (s : State) (hc : Steady R s₀ s) :
    ResSteady R s₀ (execQuietBoundary n badCopy s) := by
  unfold execQuietBoundary
  try dsimp only
  repeat' first
    | with_reducible assumption
    | with_reducible apply ResSteady.next
    | with_reducible apply quietAt_steady

theorem execObservationTimeout_steady (n : StallId) (s : State) (hc : Steady R s₀ s) : ResSteady R s₀ (execObservationTimeout n s) := by
  unfold execObservationTimeout
  try dsimp only
  repeat' first
    | with_reducible assumption
    | with_reducible apply Steady.ite
    | with_reducible apply ResSteady.next
    | with_reducible apply ResSteady.ite
    | with_reducible apply endCal_steady
    | (intro _; try dsimp only)

theorem fitFails_steady (n : StallId) (code : Code) (quality : BitVec 16) (s : State) (hc : Steady R s₀ s) :
    Steady R s₀ (fitFails n code quality s) := by
  unfold fitFails
  try dsimp only
  repeat' first
    | with_reducible assumption
    | with_reducible apply endCal_steady
    | with_reducible apply (Steady.frame · (modFarrier_changes _ _ _ (by decide) (Changes.refl _ _)))

theorem fitTrims_steady (n : StallId) (figure : BitVec 16) (inRange : Bool) (vals : Tab (BitVec 32)) (s : State) (hc : Steady R s₀ s) :
    Steady R s₀ (fitTrims n figure inRange vals s) := by
  unfold fitTrims
  try dsimp only
  repeat' first
    | with_reducible assumption
    | with_reducible apply fitFails_steady
    | with_reducible apply (Steady.frame · (toActivate_changes _ _ _ _ (by decide) (Changes.refl _ _)))
    | split

theorem fitPlanes_steady (n : StallId) (c : ChanId) (clusters : List Nat) (s : State) (hc : Steady R s₀ s) :
    Steady R s₀ (fitPlanes n c clusters s) := by
  unfold fitPlanes
  try dsimp only
  repeat' first
    | with_reducible assumption
    | with_reducible apply Steady.ite
    | with_reducible apply fitFails_steady
    | with_reducible apply (Steady.frame · (drawn_changes _ _ (by decide) (Changes.refl _ _)))
    | with_reducible apply (Steady.frame · (toActivate_changes _ _ _ _ (by decide) (Changes.refl _ _)))
    | (intro _; try dsimp only)
    | split

theorem observed_steady (n : StallId) (o : Observation) (s : State) (hc : Steady R s₀ s) : Steady R s₀ (observed n o s) := by
  unfold observed
  try dsimp only
  repeat' first
    | with_reducible assumption
    | with_reducible apply Steady.ite
    | with_reducible apply fitPlanes_steady
    | with_reducible apply fitTrims_steady
    | (intro _; try dsimp only)
    | split

theorem execObservationComplete_steady (n : StallId) (obs : Observation) (s : State) (hc : Steady R s₀ s) :
    ResSteady R s₀ (execObservationComplete n obs s) := by
  unfold execObservationComplete
  try dsimp only
  repeat' first
    | with_reducible assumption
    | with_reducible apply ResSteady.next
    | with_reducible apply observed_steady

theorem autoStart_steady (n : StallId) (k : CalKind) (t : BitVec 8) (s : State) (hc : Steady R s₀ s) : Steady R s₀ (autoStart n k t s) := by
  unfold autoStart
  try dsimp only
  repeat' first
    | with_reducible assumption
    | with_reducible apply Steady.ite
    | with_reducible apply startCal_steady
    | (intro _; try dsimp only)

theorem execAutomaticCalibrationStart_steady (n : StallId) (kind : CalKind) (target : BitVec 8) (s : State) (hc : Steady R s₀ s) :
    ResSteady R s₀ (execAutomaticCalibrationStart n kind target s) := by
  unfold execAutomaticCalibrationStart
  try dsimp only
  repeat' first
    | with_reducible assumption
    | with_reducible apply ResSteady.next
    | with_reducible apply autoStart_steady

theorem kernelPageField_steady (n : StallId) (val : Word) (x2 : State) (hc : Steady R s₀ x2) : Steady R s₀ (kernelPageField n val x2) := by
  unfold kernelPageField
  try dsimp only
  repeat' first
    | with_reducible assumption
    | with_reducible apply modStall_steady
    | exact fun _ h => .inl h

theorem ctlField_steady (n : StallId) (r : CtlReg) (val : Word) (x3 : State) (hc : Steady R s₀ x3) : Steady R s₀ (ctlField n r val x3) := by
  unfold ctlField
  try dsimp only
  repeat' first
    | with_reducible assumption
    | with_reducible apply modStall_steady
    | with_reducible apply (Steady.frame · (modGait_changes _ _ _ (by decide) (Changes.refl _ _)))
    | dsimp only [id]
    | exact fun _ h => .inl h
    | split

theorem persistField_steady (w : Fin 1048576) (val : Word) (x2 : State) (hc : Steady R s₀ x2) : Steady R s₀ (persistField w val x2) := by
  unfold persistField
  try dsimp only
  repeat' first
    | with_reducible assumption
    | with_reducible apply Steady.ite
    | with_reducible apply setPersist_steady
    | dsimp only [id]
    | exact fun _ h => memWrite_wf _ _ _ _ h
    | exact fun _ h => h
    | split

theorem powerField_steady (r : PowerReg) (val : Word) (x2 : State) (hc : Steady R s₀ x2) : Steady R s₀ (powerField r val x2) := by
  unfold powerField
  try dsimp only
  repeat' first
    | with_reducible assumption
    | with_reducible apply setPersist_steady
    | with_reducible apply (Steady.frame · (holdWord_changes _ _ _ (by decide) (Changes.refl _ _)))
    | with_reducible apply (Steady.frame · (setBackup_changes _ _ (by decide) (Changes.refl _ _)))
    | with_reducible apply (Steady.frame · (setPower_changes _ _ (by decide) (Changes.refl _ _)))
    | dsimp only [id]
    | exact fun _ h => memWrite_wf _ _ _ _ h
    | exact fun _ h => h
    | split

theorem plainField_steady (f : Func) (r : Reg) (val : Word) (x3 : State) (hc : Steady R s₀ x3) : Steady R s₀ (plainField f r val x3) := by
  unfold plainField
  try dsimp only
  repeat' first
    | with_reducible assumption
    | with_reducible apply ctlField_steady
    | with_reducible apply kernelPageField_steady
    | with_reducible apply persistField_steady
    | with_reducible apply powerField_steady
    | with_reducible apply (Steady.frame · (acqField_changes _ _ _ _ _ (by decide) (Changes.refl _ _)))
    | with_reducible apply (Steady.frame · (cellField_changes _ _ _ _ (by decide) (Changes.refl _ _)))
    | with_reducible apply (Steady.frame · (chanField_changes _ _ _ _ (by decide) (Changes.refl _ _)))
    | with_reducible apply (Steady.frame · (cmpField_changes _ _ _ _ (by decide) (Changes.refl _ _)))
    | with_reducible apply (Steady.frame · (dmField_changes _ _ _ _ (by decide) (Changes.refl _ _)))
    | with_reducible apply (Steady.frame · (farrierField_changes _ _ _ _ (by decide) (Changes.refl _ _)))
    | with_reducible apply (Steady.frame · (hkField_changes _ _ _ _ (by decide) (Changes.refl _ _)))
    | with_reducible apply (Steady.frame · (hostField_changes _ _ _ _ (by decide) (Changes.refl _ _)))
    | with_reducible apply (Steady.frame · (hubField_changes _ _ _ (by decide) (Changes.refl _ _)))
    | with_reducible apply (Steady.frame · (lineField_changes _ _ _ _ (by decide) (Changes.refl _ _)))
    | with_reducible apply (Steady.frame · (nodeField_changes _ _ _ _ (by decide) (Changes.refl _ _)))
    | with_reducible apply (Steady.frame · (planeField_changes _ _ _ (by decide) (Changes.refl _ _)))
    | with_reducible apply (Steady.frame · (ptField_changes _ _ _ _ (by decide) (Changes.refl _ _)))
    | with_reducible apply (Steady.frame · (qdirField_changes _ _ _ (by decide) (Changes.refl _ _)))
    | with_reducible apply (Steady.frame · (queueField_changes _ _ _ _ (by decide) (Changes.refl _ _)))
    | with_reducible apply (Steady.frame · (riderField_changes _ _ _ _ (by decide) (Changes.refl _ _)))
    | with_reducible apply (Steady.frame · (seqField_changes _ _ _ _ (by decide) (Changes.refl _ _)))
    | with_reducible apply (Steady.frame · (sliceField_changes _ _ _ _ (by decide) (Changes.refl _ _)))
    | with_reducible apply (Steady.frame · (tackField_changes _ _ _ (by decide) (Changes.refl _ _)))
    | with_reducible apply (Steady.frame · (tetherField_changes _ _ _ (by decide) (Changes.refl _ _)))
    | with_reducible apply (Steady.frame · (timeField_changes _ _ _ (by decide) (Changes.refl _ _)))
    | with_reducible apply (Steady.frame · (tlField_changes _ _ _ _ (by decide) (Changes.refl _ _)))
    | with_reducible apply (Steady.frame · (tpField_changes _ _ _ _ (by decide) (Changes.refl _ _)))
    | with_reducible apply (Steady.frame · (unitField_changes _ _ _ _ (by decide) (Changes.refl _ _)))
    | with_reducible apply (Steady.frame · (voiceField_changes _ _ _ _ (by decide) (Changes.refl _ _)))
    | dsimp only [id]
    | split

theorem writeSafe_steady (l : LineId) (val : Word) (s : State) (hc : Steady R s₀ s) : Steady R s₀ (writeSafe l val s) := by
  unfold writeSafe
  try dsimp only
  repeat' first
    | with_reducible assumption
    | with_reducible apply Steady.ite
    | with_reducible apply persistLine_steady
    | with_reducible apply (Steady.frame · (goSafe_changes _ _ (by decide) (Changes.refl _ _)))
    | with_reducible apply (Steady.frame · (modLine_changes _ _ _ (by decide) (Changes.refl _ _)))
    | (intro _; try dsimp only)

theorem execFlSafeWrite_steady (f : Func) (l : LineId) (val : Word) (s : State) (hc : Steady R s₀ s) :
    ResSteady R s₀ (execFlSafeWrite f l val s) := by
  unfold execFlSafeWrite
  try dsimp only
  repeat' first
    | with_reducible assumption
    | with_reducible apply ResSteady.next
    | with_reducible apply hostWrite_steady
    | with_reducible apply writeSafe_steady

theorem writeCurb_steady (l : LineId) (val : Word) (s : State) (hc : Steady R s₀ s) : Steady R s₀ (writeCurb l val s) := by
  unfold writeCurb
  try dsimp only
  repeat' first
    | with_reducible assumption
    | with_reducible apply persistLine_steady
    | with_reducible apply (Steady.frame · (leaveHalter_changes _ _ (by decide) (Changes.refl _ _)))
    | with_reducible apply (Steady.frame · (modLine_changes _ _ _ (by decide) (Changes.refl _ _)))

theorem execFlCurbWrite_steady (f : Func) (l : LineId) (val : Word) (s : State) (hc : Steady R s₀ s) :
    ResSteady R s₀ (execFlCurbWrite f l val s) := by
  unfold execFlCurbWrite
  try dsimp only
  repeat' first
    | with_reducible assumption
    | with_reducible apply Steady.ite
    | with_reducible apply ResSteady.next
    | with_reducible apply ResSteady.ite
    | with_reducible apply hostCheck_steady
    | with_reducible apply writeCurb_steady

theorem execDcTick_steady (s : State) (hc : Steady R s₀ s) : ResSteady R s₀ (execDcTick s) := by
  unfold execDcTick
  try dsimp only
  repeat' first
    | with_reducible assumption
    | with_reducible apply ResSteady.next
    | with_reducible apply endPowerDown_steady
    | with_reducible apply forEach_steady
    | with_reducible apply (Steady.frame · (tickLines_changes _ (by decide) (Changes.refl _ _)))

theorem onSlice_steady (i : SliceId) (f : State → State) (s : State) (hf : ∀ y0, Steady R s₀ y0 → Steady R s₀ (f y0))
    (hc : Steady R s₀ s) : ResSteady R s₀ (onSlice i f s) := by
  unfold onSlice
  try dsimp only
  repeat' first
    | with_reducible assumption
    | with_reducible apply Steady.ite
    | with_reducible apply ResSteady.next
    | with_reducible apply ResSteady.ite
    | with_reducible apply hf
    | (intro _; try dsimp only)

theorem completeEmpty_steady (fk : Fork) (v : VoiceId) (late : Bool) (settled : Bool) (s : State) (hc : Steady R s₀ s) :
    Steady R s₀ (completeEmpty fk v late settled s) := by
  unfold completeEmpty
  try dsimp only
  repeat' first
    | with_reducible assumption
    | with_reducible apply forkWithoutToken_steady
    | with_reducible apply (Steady.frame · (leaveClaim_changes _ _ _ (by decide) (Changes.refl _ _)))
    | split

theorem forkLate_steady (v : VoiceId) (fk : Fork) (s : State) (hc : Steady R s₀ s) : Steady R s₀ (forkLate v fk s) := by
  unfold forkLate
  try dsimp only
  repeat' first
    | with_reducible assumption
    | with_reducible apply completeEmpty_steady
    | with_reducible apply lateFault_steady
    | with_reducible apply (Steady.frame · (modGait_changes _ _ _ (by decide) (Changes.refl _ _)))
    | with_reducible apply (Steady.frame · (modSeq_changes _ _ _ (by decide) (Changes.refl _ _)))
    | with_reducible apply (Steady.frame · (settleFork_changes _ _ _ _ _ (by decide) (Changes.refl _ _)))
    | split

theorem endSpent_steady (v : VoiceId) (fk : Fork) (s : State) (hc : Steady R s₀ s) : Steady R s₀ (endSpent v fk s) := by
  unfold endSpent
  try dsimp only
  repeat' first
    | with_reducible assumption
    | with_reducible apply completeEmpty_steady
    | with_reducible apply (Steady.frame · (modSeq_changes _ _ _ (by decide) (Changes.refl _ _)))

theorem latchPoint_steady (v : VoiceId) (s : State) (hc : Steady R s₀ s) : Steady R s₀ (latchPoint v s) := by
  unfold latchPoint
  try dsimp only
  repeat' first
    | with_reducible assumption
    | with_reducible apply Steady.ite
    | with_reducible apply completeEmpty_steady
    | with_reducible apply endSpent_steady
    | with_reducible apply forkLate_steady
    | with_reducible apply (Steady.frame · (missFork_changes _ _ (by decide) (Changes.refl _ _)))
    | with_reducible apply (Steady.frame · (modSeq_changes _ _ _ (by decide) (Changes.refl _ _)))
    | (intro _; try dsimp only)
    | split

theorem execTrotLatchPoint_steady (v : VoiceId) (s : State) (hc : Steady R s₀ s) : ResSteady R s₀ (execTrotLatchPoint v s) := by
  unfold execTrotLatchPoint
  try dsimp only
  repeat' first
    | with_reducible assumption
    | with_reducible apply ResSteady.next
    | with_reducible apply latchPoint_steady

theorem writeRecord_steady (base : Nat) (s : State) (hc : Steady R s₀ s) : Steady R s₀ (writeRecord base s) :=
  setHbm_steady _ s (fun m hm => memWrite_wf _ _ _ _ (dropKeys_wf _ _ _ m hm)) hc

theorem raiseFloor_steady (s : State) (hc : Steady R s₀ s) : Steady R s₀ (raiseFloor s) := by
  unfold raiseFloor
  try dsimp only
  repeat' first
    | with_reducible assumption
    | with_reducible apply Steady.ite
    | with_reducible apply setPersist_steady
    | with_reducible apply (Steady.frame · (setBackup_changes _ _ (by decide) (Changes.refl _ _)))
    | exact fun _ h => memWrite_wf _ _ _ _ h
    | exact fun _ h => h
    | (intro _; try dsimp only)

theorem fillMemories_steady (n : StallId) (i : StallImage) (s : State) (hc : Steady R s₀ s) : Steady R s₀ (fillMemories n i s) := by
  refine hc.of_stalls rfl fun hm => ?_
  obtain ⟨hbm, library, descs, kernels, store, user⟩ := (memoriesCanonical_iff s).1 hm
  exact (memoriesCanonical_iff _).2
    ⟨hbm, fillFrom_wf _ _ _ _ (dropKeys_wf _ _ _ _ library), fillFrom_wf _ _ _ _ (dropKeys_wf _ _ _ _ descs), dropKeys_wf _ _ _ _ kernels,
      fillFrom_wf _ _ _ _ (fillFrom_wf _ _ _ _ (dropKeys_wf _ _ _ _ store)), user⟩

theorem fillStall_steady (n : StallId) (i : StallImage) (s : State) (hc : Steady R s₀ s) : Steady R s₀ (fillStall n i s) := by
  unfold fillStall
  try dsimp only
  repeat' first
    | with_reducible assumption
    | with_reducible apply fillMemories_steady
    | with_reducible apply (Steady.frame · (fillCells_changes _ _ _ (by decide) (Changes.refl _ _)))
    | with_reducible apply (Steady.frame · (grantQueues_changes _ _ (by decide) (Changes.refl _ _)))
    | with_reducible apply (Steady.frame · (presentPorts_changes _ (by decide) (Changes.refl _ _)))
    | with_reducible apply (Steady.frame · (setStallImages_changes _ _ (by decide) (Changes.refl _ _)))

theorem initCtl_steady (n : StallId) (r : CtlReg) (val : Word) (x3 : State) (hc : Steady R s₀ x3) : Steady R s₀ (initCtl n r val x3) := by
  unfold initCtl
  try dsimp only
  repeat' first
    | with_reducible assumption
    | with_reducible apply ctlField_steady
    | with_reducible apply (Steady.frame · (modGait_changes _ _ _ (by decide) (Changes.refl _ _)))
    | dsimp only [id]
    | split

theorem initReg_steady (r : Reg) (val : Word) (x2 : State) (hc : Steady R s₀ x2) : Steady R s₀ (initReg r val x2) := by
  unfold initReg
  try dsimp only
  repeat' first
    | with_reducible assumption
    | with_reducible apply initCtl_steady
    | with_reducible apply kernelPageField_steady
    | with_reducible apply (Steady.frame · (initChan_changes _ _ _ _ (by decide) (Changes.refl _ _)))
    | with_reducible apply (Steady.frame · (initFarrier_changes _ _ _ _ (by decide) (Changes.refl _ _)))
    | with_reducible apply (Steady.frame · (initLine_changes _ _ _ _ (by decide) (Changes.refl _ _)))
    | with_reducible apply (Steady.frame · (initRider_changes _ _ _ _ (by decide) (Changes.refl _ _)))
    | with_reducible apply (Steady.frame · (initSlice_changes _ _ _ _ (by decide) (Changes.refl _ _)))
    | with_reducible apply (Steady.frame · (initUnit_changes _ _ _ _ (by decide) (Changes.refl _ _)))
    | with_reducible apply (Steady.frame · (initVoice_changes _ _ _ _ (by decide) (Changes.refl _ _)))
    | with_reducible apply (Steady.frame · (modAcq_changes _ _ _ _ (by decide) (Changes.refl _ _)))
    | with_reducible apply (Steady.frame · (modCell_changes _ _ _ (by decide) (Changes.refl _ _)))
    | with_reducible apply (Steady.frame · (modSeq_changes _ _ _ (by decide) (Changes.refl _ _)))
    | with_reducible apply (Steady.frame · (modWatch_changes _ _ _ (by decide) (Changes.refl _ _)))
    | dsimp only [id]
    | split
    | (rename_i r; cases watchOf r)

theorem applyInit_steady (n : StallId) (i : StallImage) (s : State) (hc : Steady R s₀ s) : Steady R s₀ (applyInit n i s) := by
  unfold applyInit
  try dsimp only
  repeat' first
    | with_reducible assumption
    | with_reducible apply forEach_steady
    | with_reducible apply initReg_steady
    | with_reducible apply (Steady.frame · (initFlCtl_changes _ _ _ (by decide) (Changes.refl _ _)))
    | (intro _; try dsimp only)
    | split

theorem resetTunables_steady (n : StallId) (s : State) (hc : Steady R s₀ s) : Steady R s₀ (resetTunables n s) := by
  unfold resetTunables
  refine modStall_steady n _ _ (fun _ h => .inl h) (Steady.frame ?_ (modGait_changes _ _ _ (by decide)
    (forEach_changes _ _ _ (fun _ _ h => goSafe_changes _ _ (by decide) (modLine_changes _ _ _ (by decide) h))
      (forEach_changes _ _ _ (fun _ _ h => modRider_changes _ _ _ (by decide) h) (Changes.refl _ _)))))
  exact hc.of_stalls rfl id

theorem standing_steady (n : StallId) (t : SliceKind × BitVec 4) (s : State) (hc : Steady R s₀ s) : Steady R s₀ (standing n t s).1 := by
  unfold standing
  try dsimp only
  repeat' first
    | with_reducible assumption
    | with_reducible apply Steady.ite
    | with_reducible apply modSpare_steady
    | with_reducible apply Steady.fst_ite
    | refine Steady.fst ‹_ = (_, _)› ?_
    | dsimp only
    | exact fun _ h => .inl h
    | (intro _; try dsimp only)

theorem standings_steady (n : StallId) (l : List (SliceKind × BitVec 4)) (s : State) (hc : Steady R s₀ s) : Steady R s₀ (standings n l s).1 := by
  induction l generalizing s with
  | nil => exact hc
  | cons a l ih => exact ih _ (standing_steady _ _ _ hc)

theorem applyStall_steady (n : StallId) (i : StallImage) (s : State) (hc : Steady R s₀ s) : Steady R s₀ (applyStall n i s).1 := by
  unfold applyStall
  try dsimp only
  repeat' first
    | with_reducible assumption
    | with_reducible apply applyInit_steady
    | with_reducible apply resetTunables_steady
    | with_reducible apply standings_steady
    | with_reducible apply standings_steady
    | with_reducible apply (Steady.frame · (fillFarrier_changes _ _ _ (by decide) (Changes.refl _ _)))
    | with_reducible apply (Steady.frame · (fillTrims_changes _ _ (by decide) (Changes.refl _ _)))
    | with_reducible apply (Steady.frame · (fillTrot_changes _ _ _ (by decide) (Changes.refl _ _)))
    | with_reducible apply (Steady.frame · (fillWatch_changes _ _ _ (by decide) (Changes.refl _ _)))
    | with_reducible apply (Steady.frame · (stallPower_changes _ _ _ (by decide) (Changes.refl _ _)))

theorem nodeFault_steady (n : StallId) (cause : BitVec 4) (code : Code) (e : Option ReinChan) (c : Option (BitVec 8)) (s : State)
    (hc : Steady R s₀ s) : Steady R s₀ (nodeFault n cause code e c s) := by
  unfold nodeFault
  try dsimp only
  repeat' first
    | with_reducible assumption
    | with_reducible apply fatalStall_steady
    | with_reducible apply (Steady.frame · (captureFault_changes _ _ _ _ _ (by decide) (Changes.refl _ _)))
    | with_reducible apply (Steady.frame · (dropNode_changes _ _ (by decide) (Changes.refl _ _)))
    | with_reducible apply (Steady.frame · (modNode_changes _ _ _ (by decide) (Changes.refl _ _)))
    | with_reducible apply (Steady.frame · (record_changes _ _ _ _ _ _ (by decide) (Changes.refl _ _)))

theorem scrubPass_steady (p : FabricPlace) (singles : Nat) (double : Option (Fin 1024)) (s : State) (hc : Steady R s₀ s) :
    Steady R s₀ (scrubPass p singles double s) := by
  unfold scrubPass
  try dsimp only
  repeat' first
    | with_reducible assumption
    | with_reducible apply Steady.ite
    | with_reducible apply nodeFault_steady
    | with_reducible apply (Steady.frame · (modCell_changes _ _ _ (by decide) (Changes.refl _ _)))
    | with_reducible apply (Steady.frame · (modNode_changes _ _ _ (by decide) (Changes.refl _ _)))
    | with_reducible apply (Steady.frame · (modPlane_changes _ _ _ (by decide) (Changes.refl _ _)))
    | with_reducible apply (Steady.frame · (planeFails_changes _ _ _ (by decide) (Changes.refl _ _)))
    | with_reducible apply (Steady.frame · (recordSingles_changes _ _ _ (by decide) (Changes.refl _ _)))
    | with_reducible apply (Steady.frame · (setHub_changes _ _ (by decide) (Changes.refl _ _)))
    | (intro _; try dsimp only)
    | split

theorem execScrubPass_steady (place : FabricPlace) (singles : Nat) (double : Option (Fin 1024)) (s : State) (hc : Steady R s₀ s) :
    ResSteady R s₀ (execScrubPass place singles double s) := by
  unfold execScrubPass
  try dsimp only
  repeat' first
    | with_reducible assumption
    | with_reducible apply ResSteady.next
    | with_reducible apply scrubPass_steady

theorem fabricFault_steady (p : FabricPlace) (cause : BitVec 4) (e : Option ReinChan) (c : Option (Fin 1024)) (s : State)
    (hc : Steady R s₀ s) : Steady R s₀ (fabricFault p cause e c s) := by
  unfold fabricFault
  try dsimp only
  repeat' first
    | with_reducible assumption
    | with_reducible apply Steady.ite
    | with_reducible apply nodeFault_steady
    | with_reducible apply (Steady.frame · (planeFails_changes _ _ _ (by decide) (Changes.refl _ _)))
    | (intro _; try dsimp only)
    | split

theorem execFabricFault_steady (place : FabricPlace) (cause : BitVec 4) (chan : Option ReinChan) (cell : Option (Fin 1024)) (s : State)
    (hc : Steady R s₀ s) : ResSteady R s₀ (execFabricFault place cause chan cell s) := by
  unfold execFabricFault
  try dsimp only
  repeat' first
    | with_reducible assumption
    | with_reducible apply ResSteady.next
    | with_reducible apply fabricFault_steady

theorem toTaskInput_steady (r : RiderId) (k : Fin 4) (f : Flight) (s : State) (hc : Steady R s₀ s) : Steady R s₀ (toTaskInput r k f s) := by
  unfold toTaskInput
  try dsimp only
  repeat' first
    | with_reducible assumption
    | with_reducible apply Steady.ite
    | with_reducible apply enterTaskInput_steady
    | with_reducible apply (Steady.frame · (bookEntry_changes _ _ _ (by decide) (Changes.refl _ _)))
    | with_reducible apply (Steady.frame · (countBusy_changes _ _ (by decide) (Changes.refl _ _)))
    | with_reducible apply (Steady.frame · (record_changes _ _ _ _ _ _ (by decide) (Changes.refl _ _)))
    | with_reducible apply Steady.fst_ite
    | refine Steady.fst ‹_ = (_, _)› ?_
    | dsimp only
    | (intro _; try dsimp only)

theorem enterConsumer_steady (f : Flight) (s : State) (hc : Steady R s₀ s) : Steady R s₀ (enterConsumer f s) := by
  unfold enterConsumer
  try dsimp only
  repeat' first
    | with_reducible assumption
    | with_reducible apply toTaskInput_steady
    | with_reducible apply (Steady.frame · (bookEntry_changes _ _ _ (by decide) (Changes.refl _ _)))
    | with_reducible apply (Steady.frame · (egressEntry_changes _ _ (by decide) (Changes.refl _ _)))
    | with_reducible apply (Steady.frame · (modWatch_changes _ _ _ (by decide) (Changes.refl _ _)))
    | with_reducible apply (Steady.frame · (sealToken_changes _ _ (by decide) (Changes.refl _ _)))
    | with_reducible apply (Steady.frame · (toCell_changes _ _ _ _ (by decide) (Changes.refl _ _)))
    | with_reducible apply (Steady.frame · (tokenTrigger_changes _ _ _ (by decide) (Changes.refl _ _)))
    | split

theorem deliverCopy_steady (i : Nat) (waits : Nat) (s : State) (hc : Steady R s₀ s) : Steady R s₀ (deliverCopy i waits s) := by
  unfold deliverCopy
  try dsimp only
  repeat' first
    | with_reducible assumption
    | with_reducible apply Steady.ite
    | with_reducible apply enterConsumer_steady
    | with_reducible apply (Steady.frame · (countContend_changes _ _ _ (by decide) (Changes.refl _ _)))
    | with_reducible apply (Steady.frame · (dropFlight_changes _ _ (by decide) (Changes.refl _ _)))
    | with_reducible apply (Steady.frame · (notRidingDrop_changes _ _ _ (by decide) (Changes.refl _ _)))
    | with_reducible apply (Steady.frame · (ownerDropAt_changes _ _ _ (by decide) (Changes.refl _ _)))
    | (intro _; try dsimp only)
    | split

theorem execConsumerDelivery_steady (copy : Nat) (waits : Nat) (s : State) (hc : Steady R s₀ s) :
    ResSteady R s₀ (execConsumerDelivery copy waits s) := by
  unfold execConsumerDelivery
  try dsimp only
  repeat' first
    | with_reducible assumption
    | with_reducible apply ResSteady.next
    | with_reducible apply deliverCopy_steady

theorem hbmWrite_steady (a : Nat) (bytes : List Byte) (s : State) (hc : Steady R s₀ s) : Steady R s₀ (hbmWrite a bytes s) := by
  unfold hbmWrite
  try dsimp only
  repeat' first
    | with_reducible assumption
    | with_reducible apply setHbm_steady
    | with_reducible apply (Steady.frame · (setTack_changes _ _ (by decide) (Changes.refl _ _)))
    | exact fun _ h => memWrite_wf _ _ _ _ h

theorem slotWrite_steady (f : Func) (k : SlotId) (a : Nat) (bytes : List Byte) (s : State) (hc : Steady R s₀ s) :
    Steady R s₀ (slotWrite f k a bytes s) := by
  unfold slotWrite
  try dsimp only
  repeat' first
    | with_reducible assumption
    | with_reducible apply Steady.ite
    | with_reducible apply hbmWrite_steady
    | with_reducible apply (Steady.frame · (refuseAt_changes _ _ _ _ _ _ _ _ _ (by decide) (Changes.refl _ _)))
    | (intro _; try dsimp only)

theorem stageBytes_steady (f : Func) (a : Nat) (bytes : List Byte) (rest : Nat → List Byte → State → State) (s : State)
    (hrest : ∀ y0 y1 y2, Steady R s₀ y2 → Steady R s₀ (rest y0 y1 y2)) (hc : Steady R s₀ s) : Steady R s₀ (stageBytes f a bytes rest s) := by
  unfold stageBytes
  try dsimp only
  repeat' first
    | with_reducible assumption
    | with_reducible apply Steady.ite
    | with_reducible apply slotWrite_steady
    | with_reducible apply hrest
    | (intro _; try dsimp only)

theorem startBringUp_steady (bring : Tab PowerUpFound) (s : State) (hc : Steady R s₀ s) : Steady R s₀ (startBringUp bring s) := by
  unfold startBringUp
  try dsimp only
  repeat' first
    | with_reducible assumption
    | with_reducible apply Steady.ite
    | with_reducible apply bringNext_steady
    | with_reducible apply (Steady.frame · (setPower_changes _ _ (by decide) (Changes.refl _ _)))

theorem bootStep6_steady (bring : Tab PowerUpFound) (s : State) (hc : Steady R s₀ s) : Steady R s₀ (bootStep6 bring s) := by
  unfold bootStep6
  try dsimp only
  repeat' first
    | with_reducible assumption
    | with_reducible apply Steady.ite
    | with_reducible apply startBringUp_steady
    | with_reducible apply (Steady.frame · (endBringUp_changes _ (by decide) (Changes.refl _ _)))
    | with_reducible apply (Steady.frame · (setPower_changes _ _ (by decide) (Changes.refl _ _)))
    | (intro _; try dsimp only)

theorem afterTack_steady (flash : Bool) (run : Option TackOp) (up : Bool) (bring : Tab PowerUpFound) (s : State) (hc : Steady R s₀ s) :
    Steady R s₀ (afterTack flash run up bring s) := by
  unfold afterTack
  try dsimp only
  repeat' first
    | with_reducible assumption
    | with_reducible apply Steady.ite
    | with_reducible apply bootStep6_steady
    | with_reducible apply bringAligned_steady
    | with_reducible apply bringOn_steady
    | with_reducible apply (Steady.frame · (startFlashHerd_changes _ (by decide) (Changes.refl _ _)))
    | (intro _; try dsimp only)
    | split

theorem failTack_steady (st : OpState) (code : Code) (object : Word) (aux : Word) (bring : Tab PowerUpFound) (s : State)
    (hc : Steady R s₀ s) : Steady R s₀ (failTack st code object aux bring s) := by
  unfold failTack
  try dsimp only
  repeat' first
    | with_reducible assumption
    | with_reducible apply afterTack_steady
    | with_reducible apply (Steady.frame · (endTack_changes _ _ (by decide) (Changes.refl _ _)))
    | with_reducible apply (Steady.frame · (record_changes _ _ _ _ _ _ (by decide) (Changes.refl _ _)))

theorem abortLoad_steady (bring : Tab PowerUpFound) (s : State) (hc : Steady R s₀ s) : Steady R s₀ (abortLoad bring s) := by
  unfold abortLoad
  try dsimp only
  repeat' first
    | with_reducible assumption
    | with_reducible apply Steady.ite
    | with_reducible apply failTack_steady
    | (intro _; try dsimp only)

theorem execAbort_steady (f : Func) (bring : Tab PowerUpFound) (s : State) (hc : Steady R s₀ s) : ResSteady R s₀ (execAbort f bring s) := by
  unfold execAbort
  try dsimp only
  repeat' first
    | with_reducible assumption
    | with_reducible apply ResSteady.next
    | with_reducible apply abortLoad_steady
    | with_reducible apply spineCommand_steady
    | with_reducible apply (Steady.frame · (tackOp_changes _ _ (by decide) (Changes.refl _ _)))
    | (intro _; try dsimp only)

theorem execStagingSlotWrite_steady (f : Func) (addr : BitVec 36) (bytes : List Byte) (s : State) (hc : Steady R s₀ s) :
    ResSteady R s₀ (execStagingSlotWrite f addr bytes s) := by
  unfold execStagingSlotWrite
  try dsimp only
  repeat' first
    | with_reducible assumption
    | with_reducible apply ResSteady.next
    | with_reducible apply stageBytes_steady
    | (intro _; try dsimp only)

theorem failHub_steady (bring : Tab PowerUpFound) (s : State) (hc : Steady R s₀ s) : Steady R s₀ (failHub bring s) := by
  unfold failHub
  try dsimp only
  repeat' first
    | with_reducible assumption
    | with_reducible apply Steady.ite
    | with_reducible apply failTack_steady
    | with_reducible apply (Steady.frame · (modPlane_changes _ _ _ (by decide) (Changes.refl _ _)))
    | with_reducible apply (Steady.frame · (setHub_changes _ _ (by decide) (Changes.refl _ _)))

theorem completeHub_steady (bring : Tab PowerUpFound) (s : State) (hc : Steady R s₀ s) : Steady R s₀ (completeHub bring s) := by
  unfold completeHub
  try dsimp only
  repeat' first
    | with_reducible assumption
    | with_reducible apply afterTack_steady
    | with_reducible apply raiseFloor_steady
    | with_reducible apply writeRecord_steady
    | with_reducible apply (Steady.frame · (copyFlipFlops_changes _ _ (by decide) (Changes.refl _ _)))
    | with_reducible apply (Steady.frame · (endTack_changes _ _ (by decide) (Changes.refl _ _)))
    | with_reducible apply (Steady.frame · (issueSeal_changes _ _ _ (by decide) (Changes.refl _ _)))
    | with_reducible apply (Steady.frame · (joinPlane_changes _ _ (by decide) (Changes.refl _ _)))
    | with_reducible apply (Steady.frame · (servePlane_changes _ _ (by decide) (Changes.refl _ _)))
    | with_reducible apply (Steady.frame · (writePlane_changes _ _ _ (by decide) (Changes.refl _ _)))

theorem failHerd_steady (bring : Tab PowerUpFound) (s : State) (hc : Steady R s₀ s) : Steady R s₀ (failHerd bring s) := by
  unfold failHerd
  try dsimp only
  repeat' first
    | with_reducible assumption
    | with_reducible apply failTack_steady
    | with_reducible apply (Steady.frame · (fillLanes_changes _ _ (by decide) (Changes.refl _ _)))

theorem bringAfterHerd_steady (flash : Bool) (bring : Tab PowerUpFound) (s : State) (hc : Steady R s₀ s) :
    Steady R s₀ (bringAfterHerd flash bring s) := by
  unfold bringAfterHerd
  try dsimp only
  repeat' first
    | with_reducible assumption
    | with_reducible apply Steady.ite
    | with_reducible apply bootStep6_steady
    | with_reducible apply startBringUp_steady
    | with_reducible apply (Steady.frame · (startFlashHerd_changes _ (by decide) (Changes.refl _ _)))
    | (intro _; try dsimp only)

theorem applyKeys_steady (h : Header) (i : HerdImage) (s : State) (hc : Steady R s₀ s) : Steady R s₀ (applyKeys h i s) := by
  unfold applyKeys
  try dsimp only
  repeat' first
    | with_reducible assumption
    | with_reducible apply setPersist_steady
    | exact fun _ h => memWrite_wf _ _ _ _ h
    | exact fun _ h => h
    | split

theorem completeHerd_steady (i : HerdImage) (bring : Tab PowerUpFound) (s : State) (hc : Steady R s₀ s) : Steady R s₀ (completeHerd i bring s) := by
  unfold completeHerd
  dsimp only
  have planes : Steady R s₀ (setTack (fun t => { t with herdTag := t.header.tag, herdDigest := t.digest })
      { s with herdImage := some i, hubImage := some i.hub }) :=
    (hc.of_stalls (t := { s with herdImage := some i, hubImage := some i.hub }) rfl id).frame (setTack_changes _ _ (by decide) (Changes.refl _ _))
  refine bringAfterHerd_steady _ _ _ (Steady.frame ?_ (endTack_changes _ _ (by decide) (Changes.refl _ _)))
  refine Steady.frame (writeRecord_steady _ _ (raiseFloor_steady _ (applyKeys_steady _ _ _ (Steady.frame (planes.frame ?_)
    (fillSpineWatch_changes _ _ (by decide) (fillLanes_changes _ _ (by decide) (resetSpine_changes _ (by decide) (Changes.refl _ _))))))))
    (issueSeal_changes _ _ _ (by decide) (Changes.refl _ _))
  exact joinPlane_changes _ _ (by decide) (joinPlane_changes _ _ (by decide) (servePlane_changes _ _ (by decide)
    (servePlane_changes _ _ (by decide) (writePlane_changes _ _ _ (by decide) (writePlane_changes _ _ _ (by decide) (Changes.refl _ _))))))

theorem completeStall_steady (n : StallId) (i : StallImage) (bring : Tab PowerUpFound) (s : State) (hc : Steady R s₀ s) :
    Steady R s₀ (completeStall n i bring s) := by
  unfold completeStall
  try dsimp only
  repeat' first
    | with_reducible assumption
    | with_reducible apply Steady.ite
    | with_reducible apply afterTack_steady
    | with_reducible apply applyStall_steady
    | with_reducible apply fillStall_steady
    | with_reducible apply modStall_steady
    | with_reducible apply raiseFloor_steady
    | with_reducible apply setLife_steady
    | with_reducible apply writeRecord_steady
    | with_reducible apply (Steady.frame · (endTack_changes _ _ (by decide) (Changes.refl _ _)))
    | with_reducible apply (Steady.frame · (record_changes _ _ _ _ _ _ (by decide) (Changes.refl _ _)))
    | with_reducible apply Steady.fst_ite
    | refine Steady.fst ‹_ = (_, _)› ?_
    | dsimp only
    | exact fun _ h => .inl h
    | exact (absurd · (by decide))
    | (intro _; try dsimp only)

theorem loadEnd_steady (r : CommitResult) (bring : Tab PowerUpFound) (s : State) (hc : Steady R s₀ s) : Steady R s₀ (loadEnd r bring s) := by
  unfold loadEnd
  try dsimp only
  repeat' first
    | with_reducible assumption
    | with_reducible apply Steady.ite
    | with_reducible apply completeHerd_steady
    | with_reducible apply completeHub_steady
    | with_reducible apply completeStall_steady
    | with_reducible apply failHerd_steady
    | with_reducible apply failHub_steady
    | with_reducible apply failTack_steady
    | (intro _; try dsimp only)
    | split

theorem execLoadEnd_steady (result : CommitResult) (bring : Tab PowerUpFound) (s : State) (hc : Steady R s₀ s) :
    ResSteady R s₀ (execLoadEnd result bring s) := by
  unfold execLoadEnd
  try dsimp only
  repeat' first
    | with_reducible assumption
    | with_reducible apply ResSteady.next
    | with_reducible apply loadEnd_steady

theorem enterCommit_steady (op : TackOp) (b : ImageBody) (s : State) (hc : Steady R s₀ s) : Steady R s₀ (enterCommit op b s) := by
  unfold enterCommit
  try dsimp only
  repeat' first
    | with_reducible assumption
    | with_reducible apply Steady.ite
    | with_reducible apply discardImage_steady
    | with_reducible apply toStabled_steady
    | with_reducible apply (Steady.frame · (enterHub_changes _ (by decide) (Changes.refl _ _)))
    | with_reducible apply (Steady.frame · (idleLanes_changes _ (by decide) (Changes.refl _ _)))
    | with_reducible apply (Steady.frame · (setTack_changes _ _ (by decide) (Changes.refl _ _)))
    | (intro _; try dsimp only)
    | split

theorem checkPassed_steady (bring : Tab PowerUpFound) (s : State) (hc : Steady R s₀ s) : Steady R s₀ (checkPassed bring s) := by
  unfold checkPassed
  try dsimp only
  repeat' first
    | with_reducible assumption
    | with_reducible apply afterTack_steady
    | with_reducible apply (Steady.frame · (endTack_changes _ _ (by decide) (Changes.refl _ _)))
    | with_reducible apply (Steady.frame · (setTack_changes _ _ (by decide) (Changes.refl _ _)))

theorem refuseImage_steady (f : Flaw) (bring : Tab PowerUpFound) (s : State) (hc : Steady R s₀ s) : Steady R s₀ (refuseImage f bring s) := by
  unfold refuseImage
  try dsimp only
  repeat' first
    | with_reducible assumption
    | with_reducible apply Steady.ite
    | with_reducible apply failTack_steady
    | with_reducible apply (Steady.frame · (record_changes _ _ _ _ _ _ (by decide) (Changes.refl _ _)))
    | with_reducible apply (Steady.frame · (setTack_changes _ _ (by decide) (Changes.refl _ _)))
    | (intro _; try dsimp only)

theorem checksEnd_steady (op : TackOp) (c : ImageChecks) (bring : Tab PowerUpFound) (s : State) (hc : Steady R s₀ s) :
    Steady R s₀ (checksEnd op c bring s) := by
  unfold checksEnd
  try dsimp only
  repeat' first
    | with_reducible assumption
    | with_reducible apply Steady.ite
    | with_reducible apply checkPassed_steady
    | with_reducible apply enterCommit_steady
    | with_reducible apply refuseImage_steady
    | (intro _; try dsimp only)
    | split

theorem execTackChecksEnd_steady (checks : ImageChecks) (bring : Tab PowerUpFound) (s : State) (hc : Steady R s₀ s) :
    ResSteady R s₀ (execTackChecksEnd checks bring s) := by
  unfold execTackChecksEnd
  try dsimp only
  repeat' first
    | with_reducible assumption
    | with_reducible apply Steady.ite
    | with_reducible apply ResSteady.next
    | with_reducible apply ResSteady.ite
    | with_reducible apply checksEnd_steady
    | (intro _; try dsimp only)
    | split

theorem requestTakeover_steady (f : Func) (n : StallId) (k : SliceKind) (target : BitVec 4) (s : State) (hc : Steady R s₀ s) :
    Steady R s₀ (requestTakeover f n k target s) := by
  unfold requestTakeover
  try dsimp only
  repeat' first
    | with_reducible assumption
    | with_reducible apply Steady.ite
    | with_reducible apply modSpare_steady
    | with_reducible apply modStall_steady
    | exact fun _ h => .inl h
    | (intro _; try dsimp only)

theorem spareCommand_steady (f : Func) (n : StallId) (code : State → Option Code) (eff : State → State) (s : State)
    (heff : ∀ y0, Steady R s₀ y0 → Steady R s₀ (eff y0)) (hc : Steady R s₀ s) : Steady R s₀ (spareCommand f n code eff s) := by
  unfold spareCommand
  try dsimp only
  repeat' first
    | with_reducible assumption
    | with_reducible apply hostWrite_steady
    | with_reducible apply modStall_steady
    | with_reducible apply (Steady.frame · (refuseReg_changes _ _ _ _ (by decide) (Changes.refl _ _)))
    | with_reducible apply heff
    | exact fun _ h => .inl h
    | (intro _; try dsimp only)
    | split

theorem execSpareTakeover_steady (f : Func) (n : StallId) (kind : SliceKind) (target : BitVec 4) (s : State) (hc : Steady R s₀ s) :
    ResSteady R s₀ (execSpareTakeover f n kind target s) := by
  unfold execSpareTakeover
  try dsimp only
  repeat' first
    | with_reducible assumption
    | with_reducible apply ResSteady.next
    | with_reducible apply requestTakeover_steady
    | with_reducible apply spareCommand_steady

theorem endSpareOp_steady (n : StallId) (op : OpStatus) (s : State) (hc : Steady R s₀ s) : Steady R s₀ (endSpareOp n op s) := by
  unfold endSpareOp
  try dsimp only
  repeat' first
    | with_reducible assumption
    | with_reducible apply modStall_steady
    | with_reducible apply (Steady.frame · (raise_changes _ _ (by decide) (Changes.refl _ _)))
    | exact fun _ h => .inl h

theorem requestRelease_steady (f : Func) (n : StallId) (k : SliceKind) (s : State) (hc : Steady R s₀ s) : Steady R s₀ (requestRelease f n k s) := by
  unfold requestRelease
  try dsimp only
  repeat' first
    | with_reducible assumption
    | with_reducible apply Steady.ite
    | with_reducible apply endSpareOp_steady
    | with_reducible apply modSpare_steady
    | with_reducible apply modStall_steady
    | exact fun _ h => .inl h
    | (intro _; try dsimp only)

theorem execSpareRelease_steady (f : Func) (n : StallId) (kind : SliceKind) (s : State) (hc : Steady R s₀ s) :
    ResSteady R s₀ (execSpareRelease f n kind s) := by
  unfold execSpareRelease
  try dsimp only
  repeat' first
    | with_reducible assumption
    | with_reducible apply ResSteady.next
    | with_reducible apply requestRelease_steady
    | with_reducible apply spareCommand_steady

theorem stallCommand_steady (f : Func) (n : StallId) (halt : Bool) (permitted : State → Bool) (eff : State → State) (s : State)
    (heff : ∀ y0, Steady R s₀ y0 → Steady R s₀ (eff y0)) (hc : Steady R s₀ s) : Steady R s₀ (stallCommand f n halt permitted eff s) := by
  unfold stallCommand
  try dsimp only
  repeat' first
    | with_reducible assumption
    | with_reducible apply hostWrite_steady
    | with_reducible apply modStall_steady
    | with_reducible apply (Steady.frame · (refuseReg_changes _ _ _ _ (by decide) (Changes.refl _ _)))
    | with_reducible apply heff
    | exact fun _ h => .inl h
    | (intro _; try dsimp only)
    | split

theorem haltCommand_steady (n : StallId) (s : State) (hc : Steady R s₀ s) : Steady R s₀ (haltCommand n s) := by
  unfold haltCommand
  try dsimp only
  repeat' first
    | with_reducible assumption
    | with_reducible apply Steady.ite
    | with_reducible apply haltStall_steady
    | with_reducible apply modStall_steady
    | exact fun _ h => .inl h

theorem execHalt_steady (f : Func) (n : StallId) (s : State) (hc : Steady R s₀ s) : ResSteady R s₀ (execHalt f n s) := by
  unfold execHalt
  try dsimp only
  repeat' first
    | with_reducible assumption
    | with_reducible apply ResSteady.next
    | with_reducible apply haltCommand_steady
    | with_reducible apply stallCommand_steady

theorem powerDownStall_steady (n : StallId) (s : State) (hc : Steady R s₀ s) : Steady R s₀ (powerDownStall n s) := by
  unfold powerDownStall
  try dsimp only
  repeat' first
    | with_reducible assumption
    | with_reducible apply endPowerDown_steady
    | with_reducible apply modStall_steady
    | with_reducible apply (Steady.frame · (linesSafe_changes _ _ (by decide) (Changes.refl _ _)))
    | exact fun _ h => .inl h

theorem execPowerDown_steady (f : Func) (n : StallId) (s : State) (hc : Steady R s₀ s) : ResSteady R s₀ (execPowerDown f n s) := by
  unfold execPowerDown
  try dsimp only
  repeat' first
    | with_reducible assumption
    | with_reducible apply ResSteady.next
    | with_reducible apply powerDownStall_steady
    | with_reducible apply stallCommand_steady

theorem unloadStall_steady (n : StallId) (s : State) (hc : Steady R s₀ s) : Steady R s₀ (unloadStall n s) := by
  unfold unloadStall
  try dsimp only
  repeat' first
    | with_reducible assumption
    | with_reducible apply discardImage_steady
    | with_reducible apply endStallOp_steady
    | with_reducible apply toStabled_steady

theorem execUnload_steady (f : Func) (n : StallId) (s : State) (hc : Steady R s₀ s) : ResSteady R s₀ (execUnload f n s) := by
  unfold execUnload
  try dsimp only
  repeat' first
    | with_reducible assumption
    | with_reducible apply ResSteady.next
    | with_reducible apply stallCommand_steady
    | with_reducible apply unloadStall_steady

theorem drainStall_steady (n : StallId) (s : State) (hc : Steady R s₀ s) : Steady R s₀ (drainStall n s) := by
  unfold drainStall
  try dsimp only
  repeat' first
    | with_reducible assumption
    | with_reducible apply drainRider_steady
    | with_reducible apply enterResting_steady
    | with_reducible apply forEach_steady
    | with_reducible apply modStall_steady
    | exact fun _ h => .inl h

theorem execDrain_steady (f : Func) (n : StallId) (s : State) (hc : Steady R s₀ s) : ResSteady R s₀ (execDrain f n s) := by
  unfold execDrain
  try dsimp only
  repeat' first
    | with_reducible assumption
    | with_reducible apply ResSteady.next
    | with_reducible apply drainStall_steady
    | with_reducible apply stallCommand_steady

/-- A START is steady for its stall alone. -/
theorem startStall_steady (n : StallId) (s : State) (hr : R n) (hc : Steady R s₀ s) : Steady R s₀ (startStall n s) := by
  unfold startStall
  refine endStallOp_steady _ _ _ (Steady.frame (s := setLife n .riding (modStall n (fun x => { x with fault := false }) s))
    (setLife_steady _ _ _ (fun _ => hr) (modStall_steady _ _ _ (fun _ h => .inl h) hc)) (forEach_changes _ _ _ (fun _ _ h => openPort_changes _ _ (by decide) h)
      (forEach_changes _ _ _ (fun _ _ h => Changes.ite (fun _ => modRider_changes _ _ _ (by decide) h) fun _ => h) (Changes.refl _ _))))

theorem execStart_steady (f : Func) (n : StallId) (s : State) (hr : R n) (hc : Steady R s₀ s) : ResSteady R s₀ (execStart f n s) :=
  ResSteady.next (stallCommand_steady _ _ _ _ _ _ (fun _ hs => startStall_steady n _ hr hs) hc)

theorem execPowerUp_steady (f : Func) (n : StallId) (found : PowerUpFound) (s : State) (hc : Steady R s₀ s) :
    ResSteady R s₀ (execPowerUp f n found s) := by
  unfold execPowerUp
  try dsimp only
  repeat' first
    | with_reducible assumption
    | with_reducible apply ResSteady.next
    | with_reducible apply stallCommand_steady
    | with_reducible apply startPowerUp_steady

theorem losePower_steady (n : StallId) (bring : Tab PowerUpFound) (s : State) (hc : Steady R s₀ s) : Steady R s₀ (losePower n bring s) := by
  unfold losePower
  try dsimp only
  repeat' first
    | with_reducible assumption
    | with_reducible apply Steady.ite
    | with_reducible apply bringOn_steady
    | with_reducible apply endStallOp_steady
    | with_reducible apply modStall_steady
    | with_reducible apply stallOff_steady
    | with_reducible apply (Steady.frame · (record_changes _ _ _ _ _ _ (by decide) (Changes.refl _ _)))
    | exact fun _ h => .inl h
    | (intro _; try dsimp only)

theorem readbackMismatch_steady (i : SliceId) (s : State) (hc : Steady R s₀ s) : Steady R s₀ (readbackMismatch i s) := by
  unfold readbackMismatch
  try dsimp only
  repeat' first
    | with_reducible assumption
    | with_reducible apply Steady.ite
    | with_reducible apply converterFault_steady
    | with_reducible apply (Steady.frame · (record_changes _ _ _ _ _ _ (by decide) (Changes.refl _ _)))
    | (intro _; try dsimp only)

theorem execSwitchReadbackMismatch_steady (slice : SliceId) (s : State) (hc : Steady R s₀ s) :
    ResSteady R s₀ (execSwitchReadbackMismatch slice s) := by
  unfold execSwitchReadbackMismatch
  try dsimp only
  repeat' first
    | with_reducible assumption
    | with_reducible apply ResSteady.next
    | with_reducible apply readbackMismatch_steady

theorem forcedComplete_steady (n : StallId) (k : SliceKind) (s : State) (hc : Steady R s₀ s) : Steady R s₀ (forcedComplete n k s) := by
  unfold forcedComplete
  try dsimp only
  repeat' first
    | with_reducible assumption
    | with_reducible apply Steady.ite
    | with_reducible apply modSpare_steady
    | with_reducible apply (Steady.frame · (markSliceShots_changes _ _ (by decide) (Changes.refl _ _)))
    | with_reducible apply (Steady.frame · (openPort_changes _ _ (by decide) (Changes.refl _ _)))
    | with_reducible apply (Steady.frame · (restage_changes _ _ (by decide) (Changes.refl _ _)))
    | exact fun _ h => .inl h
    | (intro _; try dsimp only)
    | split

theorem execForcedTakeoverComplete_steady (n : StallId) (kind : SliceKind) (s : State) (hc : Steady R s₀ s) :
    ResSteady R s₀ (execForcedTakeoverComplete n kind s) := by
  unfold execForcedTakeoverComplete
  try dsimp only
  repeat' first
    | with_reducible assumption
    | with_reducible apply ResSteady.next
    | with_reducible apply forcedComplete_steady

theorem execSliceConverterFault_steady (slice : SliceId) (s : State) (hc : Steady R s₀ s) : ResSteady R s₀ (execSliceConverterFault slice s) := by
  unfold execSliceConverterFault
  try dsimp only
  repeat' first
    | with_reducible assumption
    | with_reducible apply ResSteady.next
    | with_reducible apply converterFault_steady

theorem spareTimeout_steady (n : StallId) (k : SliceKind) (s : State) (hc : Steady R s₀ s) : Steady R s₀ (spareTimeout n k s) := by
  unfold spareTimeout
  try dsimp only
  repeat' first
    | with_reducible assumption
    | with_reducible apply Steady.ite
    | with_reducible apply endSpareOp_steady
    | with_reducible apply modSpare_steady
    | with_reducible apply (Steady.frame · (record_changes _ _ _ _ _ _ (by decide) (Changes.refl _ _)))
    | exact fun _ h => .inl h
    | (intro _; try dsimp only)
    | split

theorem execSpareSilenceTimeout_steady (n : StallId) (kind : SliceKind) (s : State) (hc : Steady R s₀ s) :
    ResSteady R s₀ (execSpareSilenceTimeout n kind s) := by
  unfold execSpareSilenceTimeout
  try dsimp only
  repeat' first
    | with_reducible assumption
    | with_reducible apply ResSteady.next
    | with_reducible apply spareTimeout_steady

theorem spareSwitch_steady (n : StallId) (k : SliceKind) (s : State) (hc : Steady R s₀ s) : Steady R s₀ (spareSwitch n k s) := by
  unfold spareSwitch
  try dsimp only
  repeat' first
    | with_reducible assumption
    | with_reducible apply Steady.ite
    | with_reducible apply endSpareOp_steady
    | with_reducible apply modSpare_steady
    | with_reducible apply (Steady.frame · (restage_changes _ _ (by decide) (Changes.refl _ _)))
    | exact fun _ h => .inl h
    | (intro _; try dsimp only)
    | split

theorem execSpareSwitch_steady (n : StallId) (kind : SliceKind) (s : State) (hc : Steady R s₀ s) : ResSteady R s₀ (execSpareSwitch n kind s) := by
  unfold execSpareSwitch
  try dsimp only
  repeat' first
    | with_reducible assumption
    | with_reducible apply ResSteady.next
    | with_reducible apply spareSwitch_steady

theorem execStallPowerLoss_steady (n : StallId) (domain : BitVec 8) (bring : Tab PowerUpFound) (s : State) (hc : Steady R s₀ s) :
    ResSteady R s₀ (execStallPowerLoss n domain bring s) := by
  unfold execStallPowerLoss
  try dsimp only
  repeat' first
    | with_reducible assumption
    | with_reducible apply Steady.ite
    | with_reducible apply ResSteady.next
    | with_reducible apply ResSteady.ite
    | with_reducible apply losePower_steady
    | with_reducible apply (Steady.frame · (setDomains_changes _ _ _ _ (by decide) (Changes.refl _ _)))
    | (intro _; try dsimp only)

theorem drainTimedOut_steady (n : StallId) (s : State) (hc : Steady R s₀ s) : Steady R s₀ (drainTimedOut n s) := by
  unfold drainTimedOut
  try dsimp only
  repeat' first
    | with_reducible assumption
    | with_reducible apply Steady.ite
    | with_reducible apply askStop_steady
    | with_reducible apply forEach_steady
    | with_reducible apply modStall_steady
    | with_reducible apply toHarnessed_steady
    | exact fun _ h => .inl h
    | (intro _; try dsimp only)

theorem execDrainTimeout_steady (n : StallId) (s : State) (hc : Steady R s₀ s) : ResSteady R s₀ (execDrainTimeout n s) := by
  unfold execDrainTimeout
  try dsimp only
  repeat' first
    | with_reducible assumption
    | with_reducible apply ResSteady.next
    | with_reducible apply drainTimedOut_steady

theorem execRidersAllStopped_steady (n : StallId) (s : State) (hc : Steady R s₀ s) : ResSteady R s₀ (execRidersAllStopped n s) := by
  unfold execRidersAllStopped
  try dsimp only
  repeat' first
    | with_reducible assumption
    | with_reducible apply Steady.ite
    | with_reducible apply ResSteady.next
    | with_reducible apply ResSteady.ite
    | with_reducible apply toHarnessed_steady
    | (intro _; try dsimp only)

theorem execStallFatalFault_steady (n : StallId) (code : Code) (object : Word) (s : State) (hc : Steady R s₀ s) :
    ResSteady R s₀ (execStallFatalFault n code object s) := by
  unfold execStallFatalFault
  try dsimp only
  repeat' first
    | with_reducible assumption
    | with_reducible apply Steady.ite
    | with_reducible apply ResSteady.next
    | with_reducible apply ResSteady.ite
    | with_reducible apply fatalStall_steady
    | with_reducible apply (Steady.frame · (record_changes _ _ _ _ _ _ (by decide) (Changes.refl _ _)))
    | (intro _; try dsimp only)

theorem notAligned_steady (n : StallId) (bring : Tab PowerUpFound) (s : State) (hc : Steady R s₀ s) : Steady R s₀ (notAligned n bring s) := by
  unfold notAligned
  try dsimp only
  repeat' first
    | with_reducible assumption
    | with_reducible apply Steady.ite
    | with_reducible apply bringOn_steady
    | with_reducible apply endStallOp_steady
    | with_reducible apply stallOff_steady
    | with_reducible apply (Steady.frame · (record_changes _ _ _ _ _ _ (by decide) (Changes.refl _ _)))
    | (intro _; try dsimp only)

theorem execAlignmentTimeout_steady (n : StallId) (bring : Tab PowerUpFound) (s : State) (hc : Steady R s₀ s) :
    ResSteady R s₀ (execAlignmentTimeout n bring s) := by
  unfold execAlignmentTimeout
  try dsimp only
  repeat' first
    | with_reducible assumption
    | with_reducible apply ResSteady.next
    | with_reducible apply notAligned_steady

theorem aligned_steady (n : StallId) (bring : Tab PowerUpFound) (s : State) (hc : Steady R s₀ s) : Steady R s₀ (aligned n bring s) := by
  unfold aligned
  try dsimp only
  repeat' first
    | with_reducible assumption
    | with_reducible apply Steady.ite
    | with_reducible apply bringAligned_steady
    | with_reducible apply endStallOp_steady
    | with_reducible apply modStall_steady
    | with_reducible apply toStabled_steady
    | exact fun _ h => .inl h
    | (intro _; try dsimp only)

theorem execFrameAlignmentDone_steady (n : StallId) (bring : Tab PowerUpFound) (s : State) (hc : Steady R s₀ s) :
    ResSteady R s₀ (execFrameAlignmentDone n bring s) := by
  unfold execFrameAlignmentDone
  try dsimp only
  repeat' first
    | with_reducible assumption
    | with_reducible apply ResSteady.next
    | with_reducible apply aligned_steady

/-- A reset leaves every stall off, and the user words alone of the memories. -/
theorem plainModule_steady (line : Line → Line) (s : State) (hc : Steady R s₀ s) : Steady R s₀ (plainModule line s) := by
  refine hc.trans ⟨fun n hn => ?_, fun hm => ?_⟩
  · cases hn
  · obtain ⟨_, _, _, _, _, user⟩ := (memoriesCanonical_iff s).1 hm
    exact (memoriesCanonical_iff _).2 ⟨rfl, rfl, rfl, rfl, rfl, user⟩

theorem resetModule_steady (cause : ResetCause) (w : ResetWorld) (s : State) (hc : Steady R s₀ s) : Steady R s₀ (resetModule cause w s) := by
  unfold resetModule
  dsimp only
  have plain := plainModule_steady (if cause = .powerOn then openedLine else heldLine) s hc
  refine Steady.ite (fun _ => Steady.frame ?_ (record_changes _ _ _ _ _ _ (by decide) (Changes.refl _ _))) fun _ => ?_
  · exact plain.of_stalls rfl id
  · exact plain.of_stalls rfl id

theorem fatalAll_steady (s : State) (hc : Steady R s₀ s) : Steady R s₀ (fatalAll s) := by
  unfold fatalAll
  try dsimp only
  repeat' first
    | with_reducible assumption
    | with_reducible apply fatalStall_steady
    | with_reducible apply forEach_steady

theorem stallDomainFault_steady (n : StallId) (k : Nat) (bring : Tab PowerUpFound) (s : State) (hc : Steady R s₀ s) :
    Steady R s₀ (stallDomainFault n k bring s) := by
  unfold stallDomainFault
  try dsimp only
  repeat' first
    | with_reducible assumption
    | with_reducible apply Steady.ite
    | with_reducible apply converterFault_steady
    | with_reducible apply forEach_steady
    | with_reducible apply losePower_steady
    | with_reducible apply (Steady.frame · (groupFault_changes _ _ _ (by decide) (Changes.refl _ _)))
    | with_reducible apply (Steady.frame · (modLine_changes _ _ _ (by decide) (Changes.refl _ _)))
    | (intro _; try dsimp only)
    | split

theorem domainFault_steady (d : Nat) (bring : Tab PowerUpFound) (s : State) (hc : Steady R s₀ s) : Steady R s₀ (domainFault d bring s) := by
  unfold domainFault
  try dsimp only
  repeat' first
    | with_reducible assumption
    | with_reducible apply Steady.ite
    | with_reducible apply fatalAll_steady
    | with_reducible apply stallDomainFault_steady
    | with_reducible apply (Steady.frame · (record_changes _ _ _ _ _ _ (by decide) (Changes.refl _ _)))
    | with_reducible apply (Steady.frame · (setPower_changes _ _ (by decide) (Changes.refl _ _)))
    | (intro _; try dsimp only)
    | split

theorem bootFromStep3_steady (src : BitVec 2) (bring : Tab PowerUpFound) (s : State) (hc : Steady R s₀ s) :
    Steady R s₀ (bootFromStep3 src bring s) := by
  unfold bootFromStep3
  try dsimp only
  repeat' first
    | with_reducible assumption
    | with_reducible apply Steady.ite
    | with_reducible apply bootStep6_steady
    | with_reducible apply forEach_steady
    | with_reducible apply (Steady.frame · (modLine_changes _ _ _ (by decide) (Changes.refl _ _)))
    | with_reducible apply (Steady.frame · (setClock_changes _ _ (by decide) (Changes.refl _ _)))
    | with_reducible apply (Steady.frame · (setPower_changes _ _ (by decide) (Changes.refl _ _)))
    | with_reducible apply (Steady.frame · (setTime_changes _ _ (by decide) (Changes.refl _ _)))
    | with_reducible apply (Steady.frame · (startFlashHerd_changes _ (by decide) (Changes.refl _ _)))
    | (intro _; try dsimp only)

theorem checkKeys_steady (found : BootFound) (s : State) (hc : Steady R s₀ s) : Steady R s₀ (checkKeys found s) := by
  unfold checkKeys
  try dsimp only
  repeat' first
    | with_reducible assumption
    | with_reducible apply Steady.ite
    | with_reducible apply setPersist_steady
    | with_reducible apply (Steady.frame · (record_changes _ _ _ _ _ _ (by decide) (Changes.refl _ _)))
    | with_reducible apply (Steady.frame · (setBackup_changes _ _ (by decide) (Changes.refl _ _)))
    | exact fun _ h => memWrite_wf _ _ _ _ h
    | exact fun _ h => h
    | (intro _; try dsimp only)
    | split

theorem checkFlux_steady (l : LineId) (failA : Bool) (failB : Bool) (s : State) (hc : Steady R s₀ s) : Steady R s₀ (checkFlux l failA failB s) := by
  unfold checkFlux
  try dsimp only
  repeat' first
    | with_reducible assumption
    | with_reducible apply setPersist_steady
    | with_reducible apply (Steady.frame · (modLine_changes _ _ _ (by decide) (Changes.refl _ _)))
    | with_reducible apply (Steady.frame · (recordLine_changes _ _ _ (by decide) (Changes.refl _ _)))
    | exact fun _ h => memWrite_wf _ _ _ _ h
    | exact fun _ h => h
    | split

theorem checkAllFlux_steady (found : BootFound) (s : State) (hc : Steady R s₀ s) : Steady R s₀ (checkAllFlux found s) := by
  unfold checkAllFlux
  try dsimp only
  repeat' first
    | with_reducible assumption
    | with_reducible apply checkFlux_steady
    | with_reducible apply forEach_steady
    | (intro _; try dsimp only)

theorem checkBanks_steady (found : BootFound) (s : State) (hc : Steady R s₀ s) : Steady R s₀ (checkBanks found s) := by
  unfold checkBanks
  try dsimp only
  repeat' first
    | with_reducible assumption
    | with_reducible apply Steady.ite
    | with_reducible apply setPersist_steady
    | with_reducible apply (Steady.frame · (record_changes _ _ _ _ _ _ (by decide) (Changes.refl _ _)))
    | with_reducible apply (Steady.frame · (setPower_changes _ _ (by decide) (Changes.refl _ _)))
    | exact fun _ h => memWrite_wf _ _ _ _ h
    | exact fun _ h => h
    | (intro _; try dsimp only)

theorem bootToStep3_steady (found : BootFound) (s : State) (hc : Steady R s₀ s) : Steady R s₀ (bootToStep3 found s) := by
  unfold bootToStep3
  try dsimp only
  repeat' first
    | with_reducible assumption
    | with_reducible apply Steady.ite
    | with_reducible apply checkAllFlux_steady
    | with_reducible apply checkBanks_steady
    | with_reducible apply checkKeys_steady
    | with_reducible apply persistErrors_steady
    | with_reducible apply (Steady.frame · (listenDomains_changes _ (by decide) (Changes.refl _ _)))
    | with_reducible apply (Steady.frame · (setPower_changes _ _ (by decide) (Changes.refl _ _)))

theorem writtenBank_user (version : Word) (p : Persist) : (writtenBank version p).user = p.user := by
  unfold writtenBank
  split <;> rfl

theorem fwWritten_steady (version : Word) (good : Bool) (s : State) (hc : Steady R s₀ s) : Steady R s₀ (fwWritten version good s) := by
  unfold fwWritten
  try dsimp only
  repeat' first
    | with_reducible assumption
    | with_reducible apply Steady.ite
    | with_reducible apply setPersist_steady
    | with_reducible apply (Steady.frame · (freshen_changes _ (by decide) (Changes.refl _ _)))
    | with_reducible apply (Steady.frame · (raise_changes _ _ (by decide) (Changes.refl _ _)))
    | with_reducible apply (Steady.frame · (setPower_changes _ _ (by decide) (Changes.refl _ _)))
    | exact fun _ h => memWrite_wf _ _ _ _ h
    | exact fun p hp => (writtenBank_user _ p).symm ▸ hp
    | (intro _; try dsimp only)

theorem execFwWriteDone_steady (good : Bool) (s : State) (hc : Steady R s₀ s) : ResSteady R s₀ (execFwWriteDone good s) := by
  unfold execFwWriteDone
  try dsimp only
  repeat' first
    | with_reducible assumption
    | with_reducible apply ResSteady.next
    | with_reducible apply fwWritten_steady
    | split

theorem rwpField_user (r : RwpReg) (val : Word) (p : Persist) : (rwpField r val p).user = p.user := by
  cases r <;> rfl

theorem rwpWrite_steady (r : RwpReg) (val : Word) (s : State) (hc : Steady R s₀ s) : Steady R s₀ (rwpWrite r val s) := by
  unfold rwpWrite
  try dsimp only
  repeat' first
    | with_reducible assumption
    | with_reducible apply Steady.ite
    | with_reducible apply setPersist_steady
    | with_reducible apply (Steady.frame · (evalServo_changes _ (by decide) (Changes.refl _ _)))
    | exact fun _ h => memWrite_wf _ _ _ _ h
    | exact fun p hp => (rwpField_user _ _ p).symm ▸ hp
    | (intro _; try dsimp only)

theorem execRwpWrite_steady (f : Func) (reg : RwpReg) (val : Word) (s : State) (hc : Steady R s₀ s) : ResSteady R s₀ (execRwpWrite f reg val s) := by
  unfold execRwpWrite
  try dsimp only
  repeat' first
    | with_reducible assumption
    | with_reducible apply ResSteady.next
    | with_reducible apply hostCheck_steady
    | with_reducible apply rwpWrite_steady

theorem powerCommand_steady (f : Func) (code : State → Option Code) (eff : State → State) (s : State)
    (heff : ∀ y0, Steady R s₀ y0 → Steady R s₀ (eff y0)) (hc : Steady R s₀ s) : Steady R s₀ (powerCommand f code eff s) := by
  unfold powerCommand
  try dsimp only
  repeat' first
    | with_reducible assumption
    | with_reducible apply spineCommand_steady
    | with_reducible apply (Steady.frame · (powerOp_changes _ _ (by decide) (Changes.refl _ _)))
    | with_reducible apply heff
    | (intro _; try dsimp only)

theorem takeFactory_steady (n : StallId) (s : State) (hc : Steady R s₀ s) : Steady R s₀ (takeFactory n s) := by
  unfold takeFactory
  try dsimp only
  repeat' first
    | with_reducible assumption
    | with_reducible apply Steady.ite
    | with_reducible apply forEach_steady
    | with_reducible apply modStall_steady
    | with_reducible apply modStud_steady
    | with_reducible apply (Steady.frame · (modFarrier_changes _ _ _ (by decide) (Changes.refl _ _)))
    | with_reducible apply (Steady.frame · (openPort_changes _ _ (by decide) (Changes.refl _ _)))
    | exact fun _ h => .inl h
    | (intro _; try dsimp only)

theorem acceptFactory_steady (n : StallId) (s : State) (hc : Steady R s₀ s) : Steady R s₀ (acceptFactory n s) := by
  unfold acceptFactory
  try dsimp only
  repeat' first
    | with_reducible assumption
    | with_reducible apply Steady.ite
    | with_reducible apply takeFactory_steady
    | with_reducible apply (Steady.frame · (powerOp_changes _ _ (by decide) (Changes.refl _ _)))
    | with_reducible apply (Steady.frame · (raise_changes _ _ (by decide) (Changes.refl _ _)))
    | (intro _; try dsimp only)

theorem execAcceptFactory_steady (f : Func) (key : BitVec 16) (n : StallId) (s : State) (hc : Steady R s₀ s) :
    ResSteady R s₀ (execAcceptFactory f key n s) := by
  unfold execAcceptFactory
  try dsimp only
  repeat' first
    | with_reducible assumption
    | with_reducible apply ResSteady.next
    | with_reducible apply acceptFactory_steady
    | with_reducible apply powerCommand_steady

theorem execModuleReset_steady (f : Func) (key : BitVec 16) (world : ResetWorld) (s : State) (hc : Steady R s₀ s) :
    ResSteady R s₀ (execModuleReset f key world s) := by
  unfold execModuleReset
  try dsimp only
  repeat' first
    | with_reducible assumption
    | with_reducible apply ResSteady.next
    | with_reducible apply powerCommand_steady
    | with_reducible apply resetModule_steady

theorem switchFirmware_steady (s : State) (hc : Steady R s₀ s) : Steady R s₀ (switchFirmware s) := by
  unfold switchFirmware
  try dsimp only
  repeat' first
    | with_reducible assumption
    | with_reducible apply setPersist_steady
    | with_reducible apply (Steady.frame · (raise_changes _ _ (by decide) (Changes.refl _ _)))
    | with_reducible apply (Steady.frame · (record_changes _ _ _ _ _ _ (by decide) (Changes.refl _ _)))
    | with_reducible apply (Steady.frame · (setPower_changes _ _ (by decide) (Changes.refl _ _)))
    | exact fun _ h => memWrite_wf _ _ _ _ h
    | exact fun _ h => h

theorem execSpineSettlePoint_steady (s : State) (hc : Steady R s₀ s) : ResSteady R s₀ (execSpineSettlePoint s) := by
  unfold execSpineSettlePoint
  try dsimp only
  repeat' first
    | with_reducible assumption
    | with_reducible apply Steady.ite
    | with_reducible apply ResSteady.next
    | with_reducible apply ResSteady.ite
    | with_reducible apply switchFirmware_steady
    | (intro _; try dsimp only)

theorem execPowerDomainFault_steady (domain : BitVec 8) (bring : Tab PowerUpFound) (s : State) (hc : Steady R s₀ s) :
    ResSteady R s₀ (execPowerDomainFault domain bring s) := by
  unfold execPowerDomainFault
  try dsimp only
  repeat' first
    | with_reducible assumption
    | with_reducible apply ResSteady.next
    | with_reducible apply domainFault_steady

theorem execReferenceLocked_steady (src : BitVec 2) (bring : Tab PowerUpFound) (s : State) (hc : Steady R s₀ s) :
    ResSteady R s₀ (execReferenceLocked src bring s) := by
  unfold execReferenceLocked
  try dsimp only
  repeat' first
    | with_reducible assumption
    | with_reducible apply Steady.ite
    | with_reducible apply ResSteady.next
    | with_reducible apply ResSteady.ite
    | with_reducible apply bootFromStep3_steady
    | (intro _; try dsimp only)

theorem inRange_steady (s : State) (eff : State → State) (heff : ∀ y0, Steady R s₀ y0 → Steady R s₀ (eff y0)) (hc : Steady R s₀ s) :
    Steady R s₀ (inRange s eff) := by
  unfold inRange
  try dsimp only
  repeat' first
    | with_reducible assumption
    | with_reducible apply Steady.ite
    | with_reducible apply heff
    | (intro _; try dsimp only)

theorem execBootStart_steady (found : BootFound) (s : State) (hc : Steady R s₀ s) : ResSteady R s₀ (execBootStart found s) := by
  unfold execBootStart
  try dsimp only
  repeat' first
    | with_reducible assumption
    | with_reducible apply Steady.ite
    | with_reducible apply ResSteady.next
    | with_reducible apply ResSteady.ite
    | with_reducible apply bootToStep3_steady
    | with_reducible apply inRange_steady
    | (intro _; try dsimp only)

theorem execWatchdog_steady (world : ResetWorld) (s : State) (hc : Steady R s₀ s) : ResSteady R s₀ (execWatchdog world s) := by
  unfold execWatchdog
  try dsimp only
  repeat' first
    | with_reducible assumption
    | with_reducible apply ResSteady.next
    | with_reducible apply inRange_steady
    | with_reducible apply resetModule_steady

theorem perstAccepted_steady (world : ResetWorld) (s : State) (hc : Steady R s₀ s) : Steady R s₀ (perstAccepted world s) := by
  unfold perstAccepted
  try dsimp only
  repeat' first
    | with_reducible assumption
    | with_reducible apply Steady.ite
    | with_reducible apply resetModule_steady
    | with_reducible apply (Steady.frame · (resetHost_changes _ (by decide) (Changes.refl _ _)))
    | (intro _; try dsimp only)

theorem execPerst_steady (width : Fine) (world : ResetWorld) (s : State) (hc : Steady R s₀ s) : ResSteady R s₀ (execPerst width world s) := by
  unfold execPerst
  try dsimp only
  repeat' first
    | with_reducible assumption
    | with_reducible apply Steady.ite
    | with_reducible apply ResSteady.next
    | with_reducible apply ResSteady.ite
    | with_reducible apply inRange_steady
    | with_reducible apply perstAccepted_steady
    | with_reducible apply (Steady.frame · (freshen_changes _ (by decide) (Changes.refl _ _)))
    | (intro _; try dsimp only)

theorem execBrownOutReset_steady (world : ResetWorld) (s : State) (hc : Steady R s₀ s) : ResSteady R s₀ (execBrownOutReset world s) := by
  unfold execBrownOutReset
  try dsimp only
  repeat' first
    | with_reducible assumption
    | with_reducible apply ResSteady.next
    | with_reducible apply inRange_steady
    | with_reducible apply resetModule_steady

theorem execPowerOnReset_steady (world : ResetWorld) (s : State) (hc : Steady R s₀ s) : ResSteady R s₀ (execPowerOnReset world s) := by
  unfold execPowerOnReset
  try dsimp only
  repeat' first
    | with_reducible assumption
    | with_reducible apply ResSteady.next
    | with_reducible apply resetModule_steady
    | with_reducible apply (Steady.frame · (restartFeeds_changes _ (by decide) (Changes.refl _ _)))

theorem busFalls_steady (s : State) (hc : Steady R s₀ s) : Steady R s₀ (busFalls s) := by
  unfold busFalls
  dsimp only
  refine Steady.frame (plainModule_steady _ _ ?_) (Changes.set_power _ (by decide) (Changes.refl _ _))
  split
  · exact hc.frame (setBackup_changes _ _ (by decide) (finalFeeds_changes _ (by decide) (Changes.refl _ _)))
  · exact hc.frame (setBackup_changes _ _ (by decide) (Changes.refl _ _))

theorem execBusBelow10V2_steady (s : State) (hc : Steady R s₀ s) : ResSteady R s₀ (execBusBelow10V2 s) := by
  unfold execBusBelow10V2
  try dsimp only
  repeat' first
    | with_reducible assumption
    | with_reducible apply Steady.ite
    | with_reducible apply ResSteady.next
    | with_reducible apply ResSteady.ite
    | with_reducible apply busFalls_steady
    | (intro _; try dsimp only)

theorem shutDown_steady (s : State) (hc : Steady R s₀ s) : Steady R s₀ (shutDown s) := by
  unfold shutDown
  refine Steady.frame (fatalAll_steady _ ?_) (Changes.set_lines _ (by decide) (Changes.refl _ _))
  exact hc.frame (record_changes _ _ _ _ _ _ (by decide) (setPower_changes _ _ (by decide) (Changes.refl _ _)))

theorem execSupplyAcFailure_steady (s : State) (hc : Steady R s₀ s) : ResSteady R s₀ (execSupplyAcFailure s) := by
  unfold execSupplyAcFailure
  try dsimp only
  repeat' first
    | with_reducible assumption
    | with_reducible apply Steady.ite
    | with_reducible apply ResSteady.next
    | with_reducible apply ResSteady.ite
    | with_reducible apply shutDown_steady
    | (intro _; try dsimp only)

theorem hbmDouble_steady (a : BitVec 36) (q : Option QueueId) (s : State) (hc : Steady R s₀ s) : Steady R s₀ (hbmDouble a q s) := by
  unfold hbmDouble
  try dsimp only
  repeat' first
    | with_reducible assumption
    | with_reducible apply Steady.ite
    | with_reducible apply setHbm_steady
    | with_reducible apply (Steady.frame · (forcedReset_changes _ _ (by decide) (Changes.refl _ _)))
    | with_reducible apply (Steady.frame · (record_changes _ _ _ _ _ _ (by decide) (Changes.refl _ _)))
    | with_reducible apply (Steady.frame · (setQdir_changes _ _ (by decide) (Changes.refl _ _)))
    | with_reducible apply (Steady.frame · (setTack_changes _ _ (by decide) (Changes.refl _ _)))
    | exact fun _ h => memWrite_wf _ _ _ _ h
    | exact fun _ h => h
    | (intro _; try dsimp only)
    | split

theorem hbmErrors_steady (e : HbmErrors) (s : State) (hc : Steady R s₀ s) : Steady R s₀ (hbmErrors e s) := by
  unfold hbmErrors
  try dsimp only
  repeat' first
    | with_reducible assumption
    | with_reducible apply forEach_steady
    | with_reducible apply hbmDouble_steady
    | with_reducible apply (Steady.frame · (record_changes _ _ _ _ _ _ (by decide) (Changes.refl _ _)))
    | with_reducible apply (Steady.frame · (setQdir_changes _ _ (by decide) (Changes.refl _ _)))
    | (intro _; try dsimp only)
    | split

theorem hbmScrubDone_steady (err : HbmErrors) (s : State) (hc : Steady R s₀ s) : Steady R s₀ (hbmScrubDone err s) := by
  unfold hbmScrubDone
  try dsimp only
  repeat' first
    | with_reducible assumption
    | with_reducible apply Steady.ite
    | with_reducible apply hbmErrors_steady
    | with_reducible apply (Steady.frame · (qdirEnd_changes _ _ _ (by decide) (Changes.refl _ _)))
    | with_reducible apply (Steady.frame · (setQdir_changes _ _ (by decide) (Changes.refl _ _)))
    | (intro _; try dsimp only)

theorem execHbmScrubDone_steady (err : HbmErrors) (s : State) (hc : Steady R s₀ s) : ResSteady R s₀ (execHbmScrubDone err s) := by
  unfold execHbmScrubDone
  try dsimp only
  repeat' first
    | with_reducible assumption
    | with_reducible apply ResSteady.next
    | with_reducible apply hbmScrubDone_steady

theorem qdirCommand_steady (f : Func) (q : Option QueueId) (eff : State → State) (s : State)
    (heff : ∀ y0, Steady R s₀ y0 → Steady R s₀ (eff y0)) (hc : Steady R s₀ s) : Steady R s₀ (qdirCommand f q eff s) := by
  unfold qdirCommand
  try dsimp only
  repeat' first
    | with_reducible assumption
    | with_reducible apply Steady.ite
    | with_reducible apply hostWrite_steady
    | with_reducible apply (Steady.frame · (qdirRefuse_changes _ _ _ (by decide) (Changes.refl _ _)))
    | with_reducible apply (Steady.frame · (refuseReg_changes _ _ _ _ (by decide) (Changes.refl _ _)))
    | with_reducible apply heff
    | (intro _; try dsimp only)

theorem execBackgroundScrub_steady (err : HbmErrors) (s : State) (hc : Steady R s₀ s) : ResSteady R s₀ (execBackgroundScrub err s) := by
  unfold execBackgroundScrub
  try dsimp only
  repeat' first
    | with_reducible assumption
    | with_reducible apply ResSteady.next
    | with_reducible apply hbmErrors_steady

theorem execKernelWindowWrite_steady (f : Func) (n : StallId) (t : Fin 4096) (val : Word) (s : State) (hc : Steady R s₀ s) :
    ResSteady R s₀ (execKernelWindowWrite f n t val s) := by
  refine ResSteady.next (hostCheck_steady _ _ _ _ _ (fun s hs => hs.of_stalls rfl fun hm => ?_) hc)
  obtain ⟨hbm, library, descs, kernels, store, user⟩ := (memoriesCanonical_iff s).1 hm
  exact (memoriesCanonical_iff _).2 ⟨hbm, library, descs, memSet_wf _ _ _ _ kernels, store, user⟩

theorem storeWrite_steady (f : Func) (n : StallId) (w : Fin 524288) (val : Word) (s : State) (hc : Steady R s₀ s) :
    Steady R s₀ (storeWrite f n w val s) := by
  unfold storeWrite
  dsimp only
  have words := hc.frame (dropWords_changes n (w.val / 8) s (by decide) (Changes.refl _ _))
  split
  · split
    · exact words.frame (refuseReg_changes _ _ _ _ (by decide) (Changes.refl _ _))
    · exact setStore_steady _ _ (fun m hm => memSet_wf _ _ _ _ hm) words
  · exact hc.frame (holdWord_changes _ _ _ (by decide) (Changes.refl _ _))

theorem execControlStoreWrite_steady (f : Func) (n : StallId) (w : Fin 524288) (val : Word) (s : State) (hc : Steady R s₀ s) :
    ResSteady R s₀ (execControlStoreWrite f n w val s) := by
  unfold execControlStoreWrite
  try dsimp only
  repeat' first
    | with_reducible assumption
    | with_reducible apply ResSteady.next
    | with_reducible apply hostWrite_steady
    | with_reducible apply storeWrite_steady

theorem spurRider_steady (r : RiderId) (s : State) (hc : Steady R s₀ s) : Steady R s₀ (spurRider r s) := by
  unfold spurRider
  try dsimp only
  repeat' first
    | with_reducible assumption
    | with_reducible apply sampleFaults_steady
    | with_reducible apply (Steady.frame · (modRider_changes _ _ _ (by decide) (Changes.refl _ _)))

theorem execSpur_steady (f : Func) (r : RiderId) (s : State) (hc : Steady R s₀ s) : ResSteady R s₀ (execSpur f r s) := by
  unfold execSpur
  try dsimp only
  repeat' first
    | with_reducible assumption
    | with_reducible apply ResSteady.next
    | with_reducible apply hostWrite_steady
    | with_reducible apply spurRider_steady

theorem execRiderStop_steady (f : Func) (r : RiderId) (s : State) (hc : Steady R s₀ s) : ResSteady R s₀ (execRiderStop f r s) := by
  unfold execRiderStop
  try dsimp only
  repeat' first
    | with_reducible assumption
    | with_reducible apply ResSteady.next
    | with_reducible apply askStop_steady
    | with_reducible apply hostWrite_steady

theorem execPostGranted_steady (r : RiderId) (s : State) (hc : Steady R s₀ s) : ResSteady R s₀ (execPostGranted r s) := by
  unfold execPostGranted
  try dsimp only
  repeat' first
    | with_reducible assumption
    | with_reducible apply ResSteady.next
    | with_reducible apply grantHeld_steady

theorem execWaitDeadline_steady (r : RiderId) (s : State) (hc : Steady R s₀ s) : ResSteady R s₀ (execWaitDeadline r s) := by
  unfold execWaitDeadline
  try dsimp only
  repeat' first
    | with_reducible assumption
    | with_reducible apply ResSteady.next
    | with_reducible apply deadlineReached_steady

theorem execWaitConditionTrue_steady (r : RiderId) (u : Run) (s : State) (hc : Steady R s₀ s) : ResSteady R s₀ (execWaitConditionTrue r u s) := by
  unfold execWaitConditionTrue
  try dsimp only
  repeat' first
    | with_reducible assumption
    | with_reducible apply ResSteady.next
    | with_reducible apply waitTrue_steady

theorem execCtrig_steady (r : RiderId) (u : Run) (s : State) (hc : Steady R s₀ s) : ResSteady R s₀ (execCtrig r u s) := by
  unfold execCtrig
  try dsimp only
  repeat' first
    | with_reducible assumption
    | with_reducible apply ResSteady.next
    | with_reducible apply execWord_steady

theorem execFfClear_steady (r : RiderId) (u : Run) (s : State) (hc : Steady R s₀ s) : ResSteady R s₀ (execFfClear r u s) := by
  unfold execFfClear
  try dsimp only
  repeat' first
    | with_reducible assumption
    | with_reducible apply ResSteady.next
    | with_reducible apply execWord_steady

theorem execFfSet_steady (r : RiderId) (u : Run) (s : State) (hc : Steady R s₀ s) : ResSteady R s₀ (execFfSet r u s) := by
  unfold execFfSet
  try dsimp only
  repeat' first
    | with_reducible assumption
    | with_reducible apply ResSteady.next
    | with_reducible apply execWord_steady

theorem execEmitRelay_steady (r : RiderId) (u : Run) (s : State) (hc : Steady R s₀ s) : ResSteady R s₀ (execEmitRelay r u s) := by
  unfold execEmitRelay
  try dsimp only
  repeat' first
    | with_reducible assumption
    | with_reducible apply ResSteady.next
    | with_reducible apply execWord_steady

theorem execEmit_steady (r : RiderId) (u : Run) (s : State) (hc : Steady R s₀ s) : ResSteady R s₀ (execEmit r u s) := by
  unfold execEmit
  try dsimp only
  repeat' first
    | with_reducible assumption
    | with_reducible apply ResSteady.next
    | with_reducible apply execWord_steady

theorem execOpen_steady (r : RiderId) (u : Run) (s : State) (hc : Steady R s₀ s) : ResSteady R s₀ (execOpen r u s) := by
  unfold execOpen
  try dsimp only
  repeat' first
    | with_reducible assumption
    | with_reducible apply ResSteady.next
    | with_reducible apply execWord_steady

theorem execFluxDcCode_steady (r : RiderId) (u : Run) (s : State) (hc : Steady R s₀ s) : ResSteady R s₀ (execFluxDcCode r u s) := by
  unfold execFluxDcCode
  try dsimp only
  repeat' first
    | with_reducible assumption
    | with_reducible apply ResSteady.next
    | with_reducible apply execWord_steady

theorem execFluxFastCode_steady (r : RiderId) (u : Run) (s : State) (hc : Steady R s₀ s) : ResSteady R s₀ (execFluxFastCode r u s) := by
  unfold execFluxFastCode
  try dsimp only
  repeat' first
    | with_reducible assumption
    | with_reducible apply ResSteady.next
    | with_reducible apply execWord_steady

theorem execFluxDcGoal_steady (r : RiderId) (u : Run) (s : State) (hc : Steady R s₀ s) : ResSteady R s₀ (execFluxDcGoal r u s) := by
  unfold execFluxDcGoal
  try dsimp only
  repeat' first
    | with_reducible assumption
    | with_reducible apply ResSteady.next
    | with_reducible apply execWord_steady

theorem execVtune_steady (r : RiderId) (u : Run) (s : State) (hc : Steady R s₀ s) : ResSteady R s₀ (execVtune r u s) := by
  unfold execVtune
  try dsimp only
  repeat' first
    | with_reducible assumption
    | with_reducible apply ResSteady.next
    | with_reducible apply execWord_steady

theorem execFork_steady (r : RiderId) (u : Run) (s : State) (hc : Steady R s₀ s) : ResSteady R s₀ (execFork r u s) := by
  unfold execFork
  try dsimp only
  repeat' first
    | with_reducible assumption
    | with_reducible apply ResSteady.next
    | with_reducible apply execWord_steady

theorem execVstop_steady (r : RiderId) (u : Run) (s : State) (hc : Steady R s₀ s) : ResSteady R s₀ (execVstop r u s) := by
  unfold execVstop
  try dsimp only
  repeat' first
    | with_reducible assumption
    | with_reducible apply ResSteady.next
    | with_reducible apply execWord_steady

theorem execVbreak_steady (r : RiderId) (u : Run) (s : State) (hc : Steady R s₀ s) : ResSteady R s₀ (execVbreak r u s) := by
  unfold execVbreak
  try dsimp only
  repeat' first
    | with_reducible assumption
    | with_reducible apply ResSteady.next
    | with_reducible apply execWord_steady

theorem execVbranch_steady (r : RiderId) (u : Run) (s : State) (hc : Steady R s₀ s) : ResSteady R s₀ (execVbranch r u s) := by
  unfold execVbranch
  try dsimp only
  repeat' first
    | with_reducible assumption
    | with_reducible apply ResSteady.next
    | with_reducible apply execWord_steady

theorem execVselalt_steady (r : RiderId) (u : Run) (s : State) (hc : Steady R s₀ s) : ResSteady R s₀ (execVselalt r u s) := by
  unfold execVselalt
  try dsimp only
  repeat' first
    | with_reducible assumption
    | with_reducible apply ResSteady.next
    | with_reducible apply execWord_steady

theorem execVloadalt_steady (r : RiderId) (u : Run) (s : State) (hc : Steady R s₀ s) : ResSteady R s₀ (execVloadalt r u s) := by
  unfold execVloadalt
  try dsimp only
  repeat' first
    | with_reducible assumption
    | with_reducible apply ResSteady.next
    | with_reducible apply execWord_steady

theorem execVstart_steady (r : RiderId) (u : Run) (s : State) (hc : Steady R s₀ s) : ResSteady R s₀ (execVstart r u s) := by
  unfold execVstart
  try dsimp only
  repeat' first
    | with_reducible assumption
    | with_reducible apply ResSteady.next
    | with_reducible apply execWord_steady

theorem execShotEnd_steady (r : RiderId) (u : Run) (s : State) (hc : Steady R s₀ s) : ResSteady R s₀ (execShotEnd r u s) := by
  unfold execShotEnd
  try dsimp only
  repeat' first
    | with_reducible assumption
    | with_reducible apply ResSteady.next
    | with_reducible apply execWord_steady

theorem execShotBegin_steady (r : RiderId) (u : Run) (s : State) (hc : Steady R s₀ s) : ResSteady R s₀ (execShotBegin r u s) := by
  unfold execShotBegin
  try dsimp only
  repeat' first
    | with_reducible assumption
    | with_reducible apply ResSteady.next
    | with_reducible apply execWord_steady

theorem execIrq_steady (r : RiderId) (u : Run) (s : State) (hc : Steady R s₀ s) : ResSteady R s₀ (execIrq r u s) := by
  unfold execIrq
  try dsimp only
  repeat' first
    | with_reducible assumption
    | with_reducible apply ResSteady.next
    | with_reducible apply execWord_steady

theorem execPop_steady (r : RiderId) (u : Run) (s : State) (hc : Steady R s₀ s) : ResSteady R s₀ (execPop r u s) := by
  unfold execPop
  try dsimp only
  repeat' first
    | with_reducible assumption
    | with_reducible apply ResSteady.next
    | with_reducible apply execWord_steady

theorem execPush_steady (r : RiderId) (u : Run) (s : State) (hc : Steady R s₀ s) : ResSteady R s₀ (execPush r u s) := by
  unfold execPush
  try dsimp only
  repeat' first
    | with_reducible assumption
    | with_reducible apply ResSteady.next
    | with_reducible apply execWord_steady

theorem execTake_steady (r : RiderId) (u : Run) (s : State) (hc : Steady R s₀ s) : ResSteady R s₀ (execTake r u s) := by
  unfold execTake
  try dsimp only
  repeat' first
    | with_reducible assumption
    | with_reducible apply ResSteady.next
    | with_reducible apply execWord_steady

theorem execTime_steady (r : RiderId) (u : Run) (s : State) (hc : Steady R s₀ s) : ResSteady R s₀ (execTime r u s) := by
  unfold execTime
  try dsimp only
  repeat' first
    | with_reducible assumption
    | with_reducible apply ResSteady.next
    | with_reducible apply execWord_steady

theorem execAlu_steady (r : RiderId) (u : Run) (s : State) (hc : Steady R s₀ s) : ResSteady R s₀ (execAlu r u s) := by
  unfold execAlu
  try dsimp only
  repeat' first
    | with_reducible assumption
    | with_reducible apply ResSteady.next
    | with_reducible apply execWord_steady

theorem execNop_steady (r : RiderId) (u : Run) (s : State) (hc : Steady R s₀ s) : ResSteady R s₀ (execNop r u s) := by
  unfold execNop
  try dsimp only
  repeat' first
    | with_reducible assumption
    | with_reducible apply ResSteady.next
    | with_reducible apply execWord_steady

theorem envWrite_steady (n : StallId) (p : EnvPlace) (val : Word) (s : State) (hc : Steady R s₀ s) : Steady R s₀ (envWrite n p val s) := by
  cases p with
  | library w =>
    refine hc.of_stalls rfl fun hm => ?_
    obtain ⟨hbm, library, rest⟩ := (memoriesCanonical_iff s).1 hm
    exact (memoriesCanonical_iff _).2 ⟨hbm, memSet_wf _ _ _ _ library, rest⟩
  | desc w =>
    refine hc.of_stalls rfl fun hm => ?_
    obtain ⟨hbm, library, descs, rest⟩ := (memoriesCanonical_iff s).1 hm
    exact (memoriesCanonical_iff _).2 ⟨hbm, library, memSet_wf _ _ _ _ descs, rest⟩
  | none => exact hc

theorem execEnvelopeWindowWrite_steady (f : Func) (n : StallId) (w : Fin 2097152) (val : Word) (s : State) (hc : Steady R s₀ s) :
    ResSteady R s₀ (execEnvelopeWindowWrite f n w val s) := by
  unfold execEnvelopeWindowWrite
  try dsimp only
  repeat' first
    | with_reducible assumption
    | with_reducible apply Steady.ite
    | with_reducible apply ResSteady.next
    | with_reducible apply ResSteady.ite
    | with_reducible apply envWrite_steady
    | with_reducible apply hostCheck_steady
    | (intro _; try dsimp only)

theorem tellRider_steady (v : VoiceId) (r : State × ForkEnd) (hc : Steady R s₀ r.1) : Steady R s₀ (tellRider v r) := by
  unfold tellRider
  try dsimp only
  repeat' first
    | with_reducible assumption
    | with_reducible apply forkWithoutToken_steady
    | split

theorem boundaryAtVoice_steady (v : VoiceId) (s : State) (hc : Steady R s₀ s) : Steady R s₀ (boundaryAtVoice v s) := by
  unfold boundaryAtVoice
  try dsimp only
  repeat' first
    | with_reducible assumption
    | with_reducible apply tellRider_steady
    | with_reducible apply (Steady.frame · (segmentEnd_changes _ _ (by decide) (Changes.refl _ _)))

theorem execSegmentBoundary_steady (v : VoiceId) (s : State) (hc : Steady R s₀ s) : ResSteady R s₀ (execSegmentBoundary v s) := by
  unfold execSegmentBoundary
  try dsimp only
  repeat' first
    | with_reducible assumption
    | with_reducible apply ResSteady.next
    | with_reducible apply boundaryAtVoice_steady

theorem catchUp_steady (v : VoiceId) (x1 : Nat) (x2 : State) (hc : Steady R s₀ x2) : Steady R s₀ (catchUp v x1 x2) := by
  induction x1 generalizing x2 with
  | zero => exact hc
  | succ n ih =>
    have hk : ∀ e : Nat, Steady R s₀ (skipWords v e x2) := fun e => hc.frame (skipWords_changes _ _ _ (by decide) (Changes.refl _ _))
    unfold catchUp
    dsimp only
    split
    · split
      · exact hc.frame (modSeq_changes _ _ _ (by decide) (Changes.refl _ _))
      · split
        · rename_i h
          exact ih _ (hc.frame (pastCut_changes _ _ _ h (by decide) (Changes.refl _ _)))
        · split
          · exact (hk _).frame (modSeq_changes _ _ _ (by decide) (Changes.refl _ _))
          · refine ih _ (Steady.ite (fun _ => ?_) fun _ => ?_)
            · exact tellRider_steady _ _ ((hk _).frame (holdEnd_changes _ _ _ (by decide) (Changes.refl _ _)))
            · exact (hk _).frame (playBoundary_changes _ _ _ (by decide) (Changes.refl _ _))
    · exact hc

theorem portReady_steady (v : VoiceId) (w : WaitPort) (s : State) (hc : Steady R s₀ s) : Steady R s₀ (portReady v w s) := by
  unfold portReady
  try dsimp only
  repeat' first
    | with_reducible assumption
    | with_reducible apply Steady.ite
    | with_reducible apply catchUp_steady
    | with_reducible apply (Steady.frame · (countFork_changes _ _ _ _ (by decide) (Changes.refl _ _)))
    | with_reducible apply (Steady.frame · (judgeBreak_changes _ _ (by decide) (Changes.refl _ _)))
    | with_reducible apply (Steady.frame · (modSeq_changes _ _ _ (by decide) (Changes.refl _ _)))
    | with_reducible apply (Steady.frame · (takePort_changes _ _ _ _ (by decide) (Changes.refl _ _)))
    | (intro _; try dsimp only)
    | split

theorem branchLoaded_steady (v : VoiceId) (s : State) (hc : Steady R s₀ s) : Steady R s₀ (branchLoaded v s) := by
  unfold branchLoaded
  try dsimp only
  repeat' first
    | with_reducible assumption
    | with_reducible apply portReady_steady
    | with_reducible apply (Steady.frame · (modSeq_changes _ _ _ (by decide) (Changes.refl _ _)))
    | with_reducible apply (Steady.frame · (portEmpty_changes _ _ _ (by decide) (Changes.refl _ _)))
    | with_reducible apply (Steady.frame · (recordVoice_changes _ _ _ (by decide) (Changes.refl _ _)))
    | split

theorem altLoaded_steady (v : VoiceId) (s : State) (hc : Steady R s₀ s) : Steady R s₀ (altLoaded v s) := by
  unfold altLoaded
  try dsimp only
  repeat' first
    | with_reducible assumption
    | with_reducible apply Steady.ite
    | with_reducible apply portReady_steady
    | with_reducible apply (Steady.frame · (modSeq_changes _ _ _ (by decide) (Changes.refl _ _)))
    | with_reducible apply (Steady.frame · (portEmpty_changes _ _ _ (by decide) (Changes.refl _ _)))
    | with_reducible apply (Steady.frame · (recordVoice_changes _ _ _ (by decide) (Changes.refl _ _)))
    | (intro _; try dsimp only)
    | split

theorem primLoaded_steady (v : VoiceId) (s : State) (hc : Steady R s₀ s) : Steady R s₀ (primLoaded v s) := by
  unfold primLoaded
  try dsimp only
  repeat' first
    | with_reducible assumption
    | with_reducible apply Steady.ite
    | with_reducible apply portReady_steady
    | with_reducible apply (Steady.frame · (fillAhead_changes _ _ (by decide) (Changes.refl _ _)))
    | with_reducible apply (Steady.frame · (modSeq_changes _ _ _ (by decide) (Changes.refl _ _)))
    | with_reducible apply (Steady.frame · (portEmpty_changes _ _ _ (by decide) (Changes.refl _ _)))
    | with_reducible apply (Steady.frame · (recordVoice_changes _ _ _ (by decide) (Changes.refl _ _)))
    | (intro _; try dsimp only)
    | split

theorem execDescriptorLoadDone_steady (v : VoiceId) (side : PortSide) (s : State) (hc : Steady R s₀ s) :
    ResSteady R s₀ (execDescriptorLoadDone v side s) := by
  unfold execDescriptorLoadDone
  try dsimp only
  repeat' first
    | with_reducible assumption
    | with_reducible apply ResSteady.next
    | with_reducible apply altLoaded_steady
    | with_reducible apply branchLoaded_steady
    | with_reducible apply primLoaded_steady
    | split

theorem dmCtl_steady (d : Fin 2) (val : Word) (s : State) (hc : Steady R s₀ s) : Steady R s₀ (dmCtl d val s) := by
  unfold dmCtl
  try dsimp only
  repeat' first
    | with_reducible assumption
    | with_reducible apply Steady.ite
    | with_reducible apply setPersist_steady
    | with_reducible apply (Steady.frame · (evalServo_changes _ (by decide) (Changes.refl _ _)))
    | with_reducible apply (Steady.frame · (modDomain_changes _ _ _ (by decide) (Changes.refl _ _)))
    | exact fun _ h => memWrite_wf _ _ _ _ h
    | exact fun _ h => h
    | (intro _; try dsimp only)

theorem execDmCtlWrite_steady (f : Func) (d : Fin 2) (val : Word) (s : State) (hc : Steady R s₀ s) : ResSteady R s₀ (execDmCtlWrite f d val s) := by
  unfold execDmCtlWrite
  try dsimp only
  repeat' first
    | with_reducible assumption
    | with_reducible apply ResSteady.next
    | with_reducible apply dmCtl_steady
    | with_reducible apply hostWrite_steady

theorem takeAction_steady (c : CmpId) (which : BitVec 8) (s : State) (hc : Steady R s₀ s) : Steady R s₀ (takeAction c which s) := by
  unfold takeAction
  try dsimp only
  repeat' first
    | with_reducible assumption
    | with_reducible apply Steady.ite
    | with_reducible apply fatalStall_steady
    | with_reducible apply forEach_steady
    | with_reducible apply (Steady.frame · (groupFault_changes _ _ _ (by decide) (Changes.refl _ _)))
    | with_reducible apply (Steady.frame · (markWindows_changes _ _ _ _ _ (by decide) (Changes.refl _ _)))
    | with_reducible apply (Steady.frame · (modWatch_changes _ _ _ (by decide) (Changes.refl _ _)))
    | (intro _; try dsimp only)
    | split

theorem setLatch_steady (c : CmpId) (which : BitVec 8) (s : State) (hc : Steady R s₀ s) : Steady R s₀ (setLatch c which s) := by
  unfold setLatch
  try dsimp only
  repeat' first
    | with_reducible assumption
    | with_reducible apply Steady.ite
    | with_reducible apply takeAction_steady
    | with_reducible apply (Steady.frame · (latchToken_changes _ _ _ (by decide) (Changes.refl _ _)))
    | with_reducible apply (Steady.frame · (modWatch_changes _ _ _ (by decide) (Changes.refl _ _)))
    | with_reducible apply (Steady.frame · (raise_changes _ _ (by decide) (Changes.refl _ _)))
    | with_reducible apply (Steady.frame · (record_changes _ _ _ _ _ _ (by decide) (Changes.refl _ _)))
    | with_reducible apply (Steady.frame · (setHost_changes _ _ (by decide) (Changes.refl _ _)))
    | (intro _; try dsimp only)

theorem checkEnd_steady (c : CmpId) (pass : Bool) (s : State) (hc : Steady R s₀ s) : Steady R s₀ (checkEnd c pass s) := by
  unfold checkEnd
  try dsimp only
  repeat' first
    | with_reducible assumption
    | with_reducible apply Steady.ite
    | with_reducible apply setLatch_steady
    | with_reducible apply takeAction_steady
    | with_reducible apply (Steady.frame · (modWatch_changes _ _ _ (by decide) (Changes.refl _ _)))
    | with_reducible apply (Steady.frame · (record_changes _ _ _ _ _ _ (by decide) (Changes.refl _ _)))
    | (intro _; try dsimp only)

theorem execSelfCheckEnd_steady (cmp : CmpId) (pass : Bool) (s : State) (hc : Steady R s₀ s) : ResSteady R s₀ (execSelfCheckEnd cmp pass s) := by
  unfold execSelfCheckEnd
  try dsimp only
  repeat' first
    | with_reducible assumption
    | with_reducible apply ResSteady.next
    | with_reducible apply checkEnd_steady

theorem trip_steady (c : CmpId) (level : BitVec 10) (which : BitVec 8) (s : State) (hc : Steady R s₀ s) : Steady R s₀ (trip c level which s) := by
  unfold trip
  try dsimp only
  repeat' first
    | with_reducible assumption
    | with_reducible apply Steady.ite
    | with_reducible apply setLatch_steady
    | with_reducible apply (Steady.frame · (modWatch_changes _ _ _ (by decide) (Changes.refl _ _)))
    | (intro _; try dsimp only)

theorem execComparatorTrip_steady (cmp : CmpId) (level : BitVec 10) (which : BitVec 8) (s : State) (hc : Steady R s₀ s) :
    ResSteady R s₀ (execComparatorTrip cmp level which s) := by
  unfold execComparatorTrip
  try dsimp only
  repeat' first
    | with_reducible assumption
    | with_reducible apply ResSteady.next
    | with_reducible apply trip_steady

theorem plainWrite_steady (f : Func) (r : Reg) (val : Word) (s : State) (hc : Steady R s₀ s) : ResSteady R s₀ (plainWrite f r val s) := by
  unfold plainWrite
  try dsimp only
  repeat' first
    | with_reducible assumption
    | with_reducible apply ResSteady.next
    | with_reducible apply hostWrite_steady
    | with_reducible apply plainField_steady

theorem persistWrite_steady (f : Func) (w : Fin 1048576) (val : Word) (s : State) (hc : Steady R s₀ s) : ResSteady R s₀ (persistWrite f w val s) := by
  unfold persistWrite
  try dsimp only
  repeat' first
    | with_reducible assumption
    | with_reducible apply Steady.ite
    | with_reducible apply ResSteady.next
    | with_reducible apply ResSteady.ite
    | with_reducible apply plainWrite_steady
    | with_reducible apply (ResSteady.frame · (unknownValue_changes _ _ _ _ (by decide) (Changes.refl _ _)))
    | (intro _; try dsimp only)

theorem farrierCmdWrite_steady (f : Func) (n : StallId) (val : Word) (s : State) (hc : Steady R s₀ s) :
    ResSteady R s₀ (farrierCmdWrite f n val s) := by
  unfold farrierCmdWrite
  try dsimp only
  repeat' first
    | with_reducible assumption
    | with_reducible apply ResSteady.next
    | with_reducible apply execFarrierAbort_steady
    | with_reducible apply execFarrierStart_steady
    | with_reducible apply farrierCommand_steady
    | with_reducible apply (ResSteady.frame · (execRestore_changes _ _ _ _ (by decide) (Changes.refl _ _)))
    | dsimp only [id]
    | (intro _; try dsimp only)
    | split

theorem farrierWrite_steady (f : Func) (n : StallId) (r : FaReg) (val : Word) (s : State) (hc : Steady R s₀ s) :
    ResSteady R s₀ (farrierWrite f n r val s) := by
  unfold farrierWrite
  try dsimp only
  repeat' first
    | with_reducible assumption
    | with_reducible apply ResSteady.next
    | with_reducible apply farrierCmdWrite_steady
    | with_reducible apply plainWrite_steady
    | split

theorem queueWrite_steady (f : Func) (n : StallId) (i : Fin 2048) (r : QReg) (val : Word) (s : State) (hc : Steady R s₀ s) :
    ResSteady R s₀ (queueWrite f n i r val s) := by
  unfold queueWrite
  try dsimp only
  repeat' first
    | with_reducible assumption
    | with_reducible apply ResSteady.next
    | with_reducible apply plainWrite_steady
    | with_reducible apply (ResSteady.frame · (execQPop_changes _ _ _ _ (by decide) (Changes.refl _ _)))
    | with_reducible apply (ResSteady.frame · (execQPush_changes _ _ _ _ (by decide) (Changes.refl _ _)))
    | with_reducible apply (ResSteady.frame · (execQPushEnd_changes _ _ _ _ (by decide) (Changes.refl _ _)))
    | split

theorem riderCmdWrite_steady (f : Func) (h : RiderId) (val : Word) (s : State) (hc : Steady R s₀ s) : ResSteady R s₀ (riderCmdWrite f h val s) := by
  unfold riderCmdWrite
  try dsimp only
  repeat' first
    | with_reducible assumption
    | with_reducible apply ResSteady.next
    | with_reducible apply execRiderStop_steady
    | with_reducible apply execSpur_steady
    | with_reducible apply (ResSteady.frame · (execRiderStart_changes _ _ _ (by decide) (Changes.refl _ _)))
    | with_reducible apply (ResSteady.frame · (unknownValue_changes _ _ _ _ (by decide) (Changes.refl _ _)))
    | split

theorem riderWrite_steady (f : Func) (h : RiderId) (r : RhReg) (val : Word) (s : State) (hc : Steady R s₀ s) :
    ResSteady R s₀ (riderWrite f h r val s) := by
  unfold riderWrite
  try dsimp only
  repeat' first
    | with_reducible assumption
    | with_reducible apply ResSteady.next
    | with_reducible apply plainWrite_steady
    | with_reducible apply riderCmdWrite_steady
    | with_reducible apply (ResSteady.frame · (execRhHandlerWrite_changes _ _ _ _ (by decide) (Changes.refl _ _)))
    | with_reducible apply (ResSteady.frame · (execRiderRegisterWrite_changes _ _ _ _ _ (by decide) (Changes.refl _ _)))
    | split

theorem nodeWrite_steady (f : Func) (n : StallId) (r : NodeReg) (val : Word) (s : State) (hc : Steady R s₀ s) :
    ResSteady R s₀ (nodeWrite f n r val s) := by
  unfold nodeWrite
  try dsimp only
  repeat' first
    | with_reducible assumption
    | with_reducible apply ResSteady.next
    | with_reducible apply plainWrite_steady
    | with_reducible apply (ResSteady.frame · (execClearFlipFlops_changes _ _ _ (by decide) (Changes.refl _ _)))
    | with_reducible apply (ResSteady.frame · (execSetFlipFlop_changes _ _ _ _ _ _ (by decide) (Changes.refl _ _)))
    | with_reducible apply (ResSteady.frame · (noAction_changes _ _ _ (by decide) (Changes.refl _ _)))
    | split

theorem lineWrite_steady (f : Func) (l : LineId) (r : FlReg) (val : Word) (grant : Grant) (s : State) (hc : Steady R s₀ s) :
    ResSteady R s₀ (lineWrite f l r val grant s) := by
  unfold lineWrite
  try dsimp only
  repeat' first
    | with_reducible assumption
    | with_reducible apply ResSteady.next
    | with_reducible apply execFlCurbWrite_steady
    | with_reducible apply execFlSafeWrite_steady
    | with_reducible apply plainWrite_steady
    | with_reducible apply (ResSteady.frame · (execFlCtlWrite_changes _ _ _ _ (by decide) (Changes.refl _ _)))
    | with_reducible apply (ResSteady.frame · (execFlDcWrite_changes _ _ _ _ _ (by decide) (Changes.refl _ _)))
    | with_reducible apply (ResSteady.frame · (execFlFastSet_changes _ _ _ _ _ (by decide) (Changes.refl _ _)))
    | with_reducible apply (ResSteady.frame · (execGeneratorConfigWrite_changes _ _ _ _ _ (by decide) (Changes.refl _ _)))
    | split

theorem unitWrite_steady (f : Func) (u : UnitId) (r : TuReg) (val : Word) (s : State) (hc : Steady R s₀ s) :
    ResSteady R s₀ (unitWrite f u r val s) := by
  unfold unitWrite
  try dsimp only
  repeat' first
    | with_reducible assumption
    | with_reducible apply ResSteady.next
    | with_reducible apply execDisarm_steady
    | with_reducible apply execRelease_steady
    | with_reducible apply execTuRdWrite_steady
    | with_reducible apply plainWrite_steady
    | with_reducible apply (ResSteady.frame · (execArm_changes _ _ _ (by decide) (Changes.refl _ _)))
    | with_reducible apply (ResSteady.frame · (execForce_changes _ _ _ (by decide) (Changes.refl _ _)))
    | with_reducible apply (ResSteady.frame · (noAction_changes _ _ _ (by decide) (Changes.refl _ _)))
    | split

theorem chanWrite_steady (f : Func) (c : ChanId) (r : ChReg) (val : Word) (s : State) (hc : Steady R s₀ s) :
    ResSteady R s₀ (chanWrite f c r val s) := by
  unfold chanWrite
  try dsimp only
  repeat' first
    | with_reducible assumption
    | with_reducible apply Steady.ite
    | with_reducible apply ResSteady.next
    | with_reducible apply ResSteady.ite
    | with_reducible apply plainWrite_steady
    | with_reducible apply (ResSteady.frame · (execChCommit_changes _ _ _ (by decide) (Changes.refl _ _)))
    | with_reducible apply (ResSteady.frame · (execChCtlWrite_changes _ _ _ _ (by decide) (Changes.refl _ _)))
    | with_reducible apply (ResSteady.frame · (execStagedSetWrite_changes _ _ _ _ _ (by decide) (Changes.refl _ _)))
    | with_reducible apply (ResSteady.frame · (noAction_changes _ _ _ (by decide) (Changes.refl _ _)))
    | (intro _; try dsimp only)
    | split

theorem seqWrite_steady (f : Func) (v : VoiceId) (r : VsReg) (val : Word) (grant : Grant) (s : State) (hc : Steady R s₀ s) :
    ResSteady R s₀ (seqWrite f v r val grant s) := by
  unfold seqWrite
  try dsimp only
  repeat' first
    | with_reducible assumption
    | with_reducible apply ResSteady.next
    | with_reducible apply plainWrite_steady
    | with_reducible apply (ResSteady.frame · (postWrite_changes _ _ _ _ _ (by decide) (Changes.refl _ _)))
    | split

theorem voiceWrite_steady (f : Func) (v : VoiceId) (r : VcReg) (val : Word) (grant : Grant) (s : State) (hc : Steady R s₀ s) :
    ResSteady R s₀ (voiceWrite f v r val grant s) := by
  unfold voiceWrite
  try dsimp only
  repeat' first
    | with_reducible assumption
    | with_reducible apply ResSteady.next
    | with_reducible apply plainWrite_steady
    | with_reducible apply (ResSteady.frame · (execDelayWrite_changes _ _ _ _ _ (by decide) (Changes.refl _ _)))
    | with_reducible apply (ResSteady.frame · (execFtwHiWrite_changes _ _ _ _ _ (by decide) (Changes.refl _ _)))
    | with_reducible apply (ResSteady.frame · (execFtwLoWrite_changes _ _ _ _ (by decide) (Changes.refl _ _)))
    | with_reducible apply (ResSteady.frame · (execVoiceTuningWrite_changes _ _ _ _ _ _ (by decide) (Changes.refl _ _)))
    | split

theorem sliceWrite_steady (f : Func) (i : SliceId) (reg : Reg) (r : SlReg) (val : Word) (s : State) (hc : Steady R s₀ s) :
    ResSteady R s₀ (sliceWrite f i reg r val s) := by
  unfold sliceWrite
  try dsimp only
  repeat' first
    | with_reducible assumption
    | with_reducible apply ResSteady.next
    | with_reducible apply plainWrite_steady
    | with_reducible apply (ResSteady.frame · (execSlCtlWrite_changes _ _ _ _ (by decide) (Changes.refl _ _)))
    | split

theorem spareCmdWrite_steady (f : Func) (n : StallId) (val : Word) (s : State) (hc : Steady R s₀ s) : ResSteady R s₀ (spareCmdWrite f n val s) := by
  unfold spareCmdWrite
  try dsimp only
  repeat' first
    | with_reducible assumption
    | with_reducible apply Steady.ite
    | with_reducible apply ResSteady.next
    | with_reducible apply ResSteady.ite
    | with_reducible apply execSpareRelease_steady
    | with_reducible apply execSpareTakeover_steady
    | with_reducible apply (ResSteady.frame · (noAction_changes _ _ _ (by decide) (Changes.refl _ _)))
    | (intro _; try dsimp only)
    | split

/-- A write to STn_CMD is steady but for the value of START. -/
theorem stallCmdWrite_steady (f : Func) (n : StallId) (val : Word) (env : WriteEnv) (s : State) (hr : (bits val 0 8 : BitVec 8) = 2 → R n)
    (hc : Steady R s₀ s) : ResSteady R s₀ (stallCmdWrite f n val env s) := by
  unfold stallCmdWrite
  split
  · exact execPowerUp_steady _ _ _ _ hc
  · exact execStart_steady _ _ _ (hr (BitVec.eq_of_toNat_eq ‹_›)) hc
  · exact execDrain_steady _ _ _ hc
  · exact execUnload_steady _ _ _ hc
  · exact execPowerDown_steady _ _ _ hc
  · exact execHalt_steady _ _ _ hc
  · exact ResSteady.next (stallCommand_steady _ _ _ _ _ _ (fun _ hs => hs) hc)

theorem ctlWrite_steady (f : Func) (n : StallId) (r : CtlReg) (val : Word) (env : WriteEnv) (s : State) (hr : r = .cmd →
    (bits val 0 8 : BitVec 8) = 2 → R n) (hc : Steady R s₀ s) : ResSteady R s₀ (ctlWrite f n r val env s) := by
  unfold ctlWrite
  split
  · exact stallCmdWrite_steady _ _ _ _ _ (hr rfl) hc
  · exact spareCmdWrite_steady _ _ _ _ hc
  · exact ResSteady.frame hc (execTrotDeadlineWrite_changes _ _ _ _ _ (by decide) (Changes.refl _ _))
  · exact ResSteady.frame hc (execShotAuditCmd_changes _ _ _ _ (by decide) (Changes.refl _ _))
  · exact plainWrite_steady _ _ _ _ hc

theorem qdirWrite_steady (f : Func) (r : QdirReg) (val : Word) (s : State) (hc : Steady R s₀ s) : ResSteady R s₀ (qdirWrite f r val s) := by
  unfold qdirWrite
  try dsimp only
  repeat' first
    | with_reducible assumption
    | with_reducible apply ResSteady.next
    | with_reducible apply plainWrite_steady
    | with_reducible apply (ResSteady.frame · (qdirCmdWrite_changes _ _ _ (by decide) (Changes.refl _ _)))
    | split

theorem hkWrite_steady (f : Func) (k : Fin 8) (r : HkReg) (val : Word) (s : State) (hc : Steady R s₀ s) : ResSteady R s₀ (hkWrite f k r val s) := by
  unfold hkWrite
  try dsimp only
  repeat' first
    | with_reducible assumption
    | with_reducible apply ResSteady.next
    | with_reducible apply plainWrite_steady
    | with_reducible apply (ResSteady.frame · (execHkStart_changes _ _ _ (by decide) (Changes.refl _ _)))
    | with_reducible apply (ResSteady.frame · (execHkStop_changes _ _ _ (by decide) (Changes.refl _ _)))
    | with_reducible apply (ResSteady.frame · (noAction_changes _ _ _ (by decide) (Changes.refl _ _)))
    | split

theorem cmpWrite_steady (f : Func) (c : CmpId) (r : WcReg) (val : Word) (env : WriteEnv) (s : State) (hc : Steady R s₀ s) :
    ResSteady R s₀ (cmpWrite f c r val env s) := by
  unfold cmpWrite
  try dsimp only
  repeat' first
    | with_reducible assumption
    | with_reducible apply Steady.ite
    | with_reducible apply ResSteady.next
    | with_reducible apply ResSteady.ite
    | with_reducible apply andThen_steady
    | with_reducible apply plainWrite_steady
    | with_reducible apply (ResSteady.frame · (execCheckLevels_changes _ _ _ (by decide) (Changes.refl _ _)))
    | with_reducible apply (ResSteady.frame · (execCheckSwap_changes _ _ _ (by decide) (Changes.refl _ _)))
    | with_reducible apply (ResSteady.frame · (execComparatorConfigWrite_changes _ _ _ _ _ (by decide) (Changes.refl _ _)))
    | with_reducible apply (ResSteady.frame · (execLatchClear_changes _ _ _ _ (by decide) (Changes.refl _ _)))
    | with_reducible apply (ResSteady.frame · (noAction_changes _ _ _ (by decide) (Changes.refl _ _)))
    | (intro _; try dsimp only)
    | split

theorem cellWrite_steady (f : Func) (c : CellId) (reg : Reg) (r : BkReg) (val : Word) (s : State) (hc : Steady R s₀ s) :
    ResSteady R s₀ (cellWrite f c reg r val s) := by
  unfold cellWrite
  try dsimp only
  repeat' first
    | with_reducible assumption
    | with_reducible apply ResSteady.next
    | with_reducible apply plainWrite_steady
    | with_reducible apply (ResSteady.frame · (execBkFilterWrite_changes _ _ _ _ (by decide) (Changes.refl _ _)))
    | split

theorem unknownSpine_steady (f : Func) (r : Reg) (setOp : (OpStatus → OpStatus) → State → State) (code : Code) (s : State)
    (hsetOp : ∀ y0 y1, Steady R s₀ y1 → Steady R s₀ (setOp y0 y1)) (hc : Steady R s₀ s) : ResSteady R s₀ (unknownSpine f r setOp code s) := by
  unfold unknownSpine
  try dsimp only
  repeat' first
    | with_reducible assumption
    | with_reducible apply ResSteady.next
    | with_reducible apply spineCommand_steady
    | with_reducible apply hsetOp
    | dsimp only [id]
    | (intro _; try dsimp only)

theorem hubWrite_steady (f : Func) (r : HubReg) (val : Word) (env : WriteEnv) (s : State) (hc : Steady R s₀ s) :
    ResSteady R s₀ (hubWrite f r val env s) := by
  unfold hubWrite
  try dsimp only
  repeat' first
    | with_reducible assumption
    | with_reducible apply ResSteady.next
    | with_reducible apply plainWrite_steady
    | with_reducible apply (ResSteady.frame · (execReinAuditCmd_changes _ _ _ (by decide) (Changes.refl _ _)))
    | with_reducible apply (ResSteady.frame · (execReinInject_changes _ _ _ _ _ _ (by decide) (Changes.refl _ _)))
    | with_reducible apply (ResSteady.frame · (hubCmdWrite_changes _ _ _ (by decide) (Changes.refl _ _)))
    | split

theorem tlWrite_steady (f : Func) (k : LaneId) (r : TlReg) (val : Word) (s : State) (hc : Steady R s₀ s) : ResSteady R s₀ (tlWrite f k r val s) := by
  unfold tlWrite
  try dsimp only
  repeat' first
    | with_reducible assumption
    | with_reducible apply ResSteady.next
    | with_reducible apply plainWrite_steady
    | with_reducible apply (ResSteady.frame · (execTlCtlWrite_changes _ _ _ _ (by decide) (Changes.refl _ _)))
    | with_reducible apply (ResSteady.frame · (execTlPrbsWrite_changes _ _ _ _ (by decide) (Changes.refl _ _)))
    | split

theorem tetherWrite_steady (f : Func) (r : TetherReg) (val : Word) (s : State) (hc : Steady R s₀ s) : ResSteady R s₀ (tetherWrite f r val s) := by
  unfold tetherWrite
  try dsimp only
  repeat' first
    | with_reducible assumption
    | with_reducible apply ResSteady.next
    | with_reducible apply plainWrite_steady
    | with_reducible apply (ResSteady.frame · (tetherCmdWrite_changes _ _ _ (by decide) (Changes.refl _ _)))
    | split

theorem tpWrite_steady (f : Func) (k : Fin 8) (r : TpReg) (val : Word) (s : State) (hc : Steady R s₀ s) : ResSteady R s₀ (tpWrite f k r val s) := by
  unfold tpWrite
  try dsimp only
  repeat' first
    | with_reducible assumption
    | with_reducible apply Steady.ite
    | with_reducible apply ResSteady.next
    | with_reducible apply ResSteady.ite
    | with_reducible apply andThen_steady
    | with_reducible apply plainWrite_steady
    | with_reducible apply (ResSteady.frame · (execTpArm_changes _ _ _ (by decide) (Changes.refl _ _)))
    | with_reducible apply (ResSteady.frame · (execTpDisarm_changes _ _ _ (by decide) (Changes.refl _ _)))
    | (intro _; try dsimp only)
    | split

theorem dmWrite_steady (f : Func) (d : Fin 2) (r : DmReg) (val : Word) (s : State) (hc : Steady R s₀ s) : ResSteady R s₀ (dmWrite f d r val s) := by
  unfold dmWrite
  try dsimp only
  repeat' first
    | with_reducible assumption
    | with_reducible apply ResSteady.next
    | with_reducible apply execDmCtlWrite_steady
    | with_reducible apply plainWrite_steady
    | split

theorem ptWrite_steady (f : Func) (p : Fin 2) (r : PtReg) (val : Word) (s : State) (hc : Steady R s₀ s) : ResSteady R s₀ (ptWrite f p r val s) := by
  unfold ptWrite
  try dsimp only
  repeat' first
    | with_reducible assumption
    | with_reducible apply ResSteady.next
    | with_reducible apply execRwpWrite_steady
    | with_reducible apply plainWrite_steady
    | split

theorem timeWrite_steady (f : Func) (r : TimeReg) (val : Word) (s : State) (hc : Steady R s₀ s) : ResSteady R s₀ (timeWrite f r val s) := by
  unfold timeWrite
  try dsimp only
  repeat' first
    | with_reducible assumption
    | with_reducible apply ResSteady.next
    | with_reducible apply execRwpWrite_steady
    | with_reducible apply plainWrite_steady
    | with_reducible apply (ResSteady.frame · (execEpochTaiWrite_changes _ _ _ _ (by decide) (Changes.refl _ _)))
    | with_reducible apply (ResSteady.frame · (timeCmdWrite_changes _ _ _ (by decide) (Changes.refl _ _)))
    | split

theorem tackCmdWrite_steady (f : Func) (val : Word) (env : WriteEnv) (s : State) (hc : Steady R s₀ s) :
    ResSteady R s₀ (tackCmdWrite f val env s) := by
  unfold tackCmdWrite
  try dsimp only
  repeat' first
    | with_reducible assumption
    | with_reducible apply ResSteady.next
    | with_reducible apply execAbort_steady
    | with_reducible apply unknownSpine_steady
    | with_reducible apply (ResSteady.frame · (execCheck_changes _ _ _ _ (by decide) (Changes.refl _ _)))
    | with_reducible apply (ResSteady.frame · (execLoadHerd_changes _ _ _ (by decide) (Changes.refl _ _)))
    | with_reducible apply (ResSteady.frame · (execLoadHub_changes _ _ _ (by decide) (Changes.refl _ _)))
    | with_reducible apply (ResSteady.frame · (execLoadStall_changes _ _ _ _ (by decide) (Changes.refl _ _)))
    | with_reducible apply (Steady.frame · (tackOp_changes _ _ (by decide) (Changes.refl _ _)))
    | (intro _; try dsimp only)
    | split

theorem tackWrite_steady (f : Func) (r : TackReg) (val : Word) (env : WriteEnv) (s : State) (hc : Steady R s₀ s) :
    ResSteady R s₀ (tackWrite f r val env s) := by
  unfold tackWrite
  try dsimp only
  repeat' first
    | with_reducible assumption
    | with_reducible apply ResSteady.next
    | with_reducible apply plainWrite_steady
    | with_reducible apply tackCmdWrite_steady
    | split

theorem powerCmdWrite_steady (f : Func) (val : Word) (env : WriteEnv) (s : State) (hc : Steady R s₀ s) :
    ResSteady R s₀ (powerCmdWrite f val env s) := by
  unfold powerCmdWrite
  try dsimp only
  repeat' first
    | with_reducible assumption
    | with_reducible apply ResSteady.next
    | with_reducible apply execAcceptFactory_steady
    | with_reducible apply execModuleReset_steady
    | with_reducible apply unknownSpine_steady
    | with_reducible apply (ResSteady.frame · (execFwSwitch_changes _ _ _ (by decide) (Changes.refl _ _)))
    | with_reducible apply (ResSteady.frame · (execFwWrite_changes _ _ _ _ _ _ (by decide) (Changes.refl _ _)))
    | with_reducible apply (Steady.frame · (powerOp_changes _ _ (by decide) (Changes.refl _ _)))
    | (intro _; try dsimp only)
    | split

theorem powerWrite_steady (f : Func) (r : PowerReg) (val : Word) (env : WriteEnv) (s : State) (hc : Steady R s₀ s) :
    ResSteady R s₀ (powerWrite f r val env s) := by
  unfold powerWrite
  try dsimp only
  repeat' first
    | with_reducible assumption
    | with_reducible apply ResSteady.next
    | with_reducible apply execRwpWrite_steady
    | with_reducible apply plainWrite_steady
    | with_reducible apply powerCmdWrite_steady
    | with_reducible apply (ResSteady.frame · (execRtcHiWrite_changes _ _ _ (by decide) (Changes.refl _ _)))
    | split

theorem regWrite_steady (f : Func) (r : Reg) (val : Word) (env : WriteEnv) (s : State) (hr : ∀ n, r = .ctl n .cmd →
    (bits val 0 8 : BitVec 8) = 2 → R n) (hc : Steady R s₀ s) : ResSteady R s₀ (regWrite f r val env s) := by
  have plain : ResSteady R s₀ (plainWrite f r val s) := plainWrite_steady _ _ _ _ hc
  cases r
  case hkCtl b =>
    cases b
    · exact ResSteady.frame hc (execHkCtlWrite_changes _ _ _ (by decide) (Changes.refl _ _))
    · exact plain
  case ctl n r => exact ctlWrite_steady _ _ _ _ _ _ (fun e => hr n (e ▸ rfl)) hc
  case acq n k q =>
    cases q
    case ctl => exact ResSteady.frame hc (execAsCtlWrite_changes _ _ _ _ _ (by decide) (Changes.refl _ _))
    all_goals exact plain
  case msix e w =>
    exact ResSteady.next (hostWrite_steady _ _ _ _ (fun s hs => hs.frame (entryWrite_changes _ _ _ _ _ (by decide) (Changes.refl _ _))) hc)
  case power => exact powerWrite_steady _ _ _ _ _ hc
  case tack => exact tackWrite_steady _ _ _ _ _ hc
  case time => exact timeWrite_steady _ _ _ _ hc
  case pt => exact ptWrite_steady _ _ _ _ _ hc
  case dm => exact dmWrite_steady _ _ _ _ _ hc
  case tp => exact tpWrite_steady _ _ _ _ _ hc
  case tether => exact tetherWrite_steady _ _ _ _ hc
  case tl => exact tlWrite_steady _ _ _ _ _ hc
  case hub => exact hubWrite_steady _ _ _ _ _ hc
  case hubCell => exact cellWrite_steady _ _ _ _ _ _ hc
  case spineCmp => exact cmpWrite_steady _ _ _ _ _ _ hc
  case hk => exact hkWrite_steady _ _ _ _ _ hc
  case scan => exact ResSteady.frame hc (execScanEntryWrite_changes _ _ _ _ _ (by decide) (Changes.refl _ _))
  case qdir => exact qdirWrite_steady _ _ _ _ hc
  case cmp => exact cmpWrite_steady _ _ _ _ _ _ hc
  case drive => exact sliceWrite_steady _ _ _ _ _ _ hc
  case probe => exact sliceWrite_steady _ _ _ _ _ _ hc
  case voice => exact voiceWrite_steady _ _ _ _ _ _ hc
  case seq => exact seqWrite_steady _ _ _ _ _ _ hc
  case chan => exact chanWrite_steady _ _ _ _ _ hc
  case unit => exact unitWrite_steady _ _ _ _ _ hc
  case kernelTap => exact execKernelWindowWrite_steady _ _ _ _ _ hc
  case group => exact ResSteady.frame hc (groupWrite_changes _ _ _ _ _ _ (by decide) (Changes.refl _ _))
  case line => exact lineWrite_steady _ _ _ _ _ _ hc
  case edge => exact ResSteady.frame hc (execEdgeTableWrite_changes _ _ _ _ _ (by decide) (Changes.refl _ _))
  case node => exact nodeWrite_steady _ _ _ _ _ hc
  case cell => exact cellWrite_steady _ _ _ _ _ _ hc
  case rider => exact riderWrite_steady _ _ _ _ _ hc
  case queue => exact queueWrite_steady _ _ _ _ _ _ hc
  case farrier => exact farrierWrite_steady _ _ _ _ _ hc
  case store => exact execControlStoreWrite_steady _ _ _ _ _ hc
  case env => exact execEnvelopeWindowWrite_steady _ _ _ _ _ hc
  case persist => exact persistWrite_steady _ _ _ _ hc
  case tally => exact ResSteady.frame hc (execTallyMirrorWrite_changes _ _ _ (by decide) (Changes.refl _ _))
  all_goals exact plain

/-- A word written through BAR0 is steady but for the value of START written to the STn_CMD that stands at its address. -/
theorem wordWriteAt_steady (f : Func) (a : Nat) (val : Word) (env : WriteEnv) (s : State) (hr : ∀ n, regAddr (.ctl n .cmd) = a →
    (bits val 0 8 : BitVec 8) = 2 → R n) (hc : Steady R s₀ s) : ResSteady R s₀ (wordWriteAt f a val env s) := by
  unfold wordWriteAt
  split
  · split
    · rename_i r hd
      exact regWrite_steady _ _ _ _ _ (fun n e => hr n ((e ▸ namesAt_decodeReg _ hd : regAddr (.ctl n .cmd) = a))) hc
    · exact ResSteady.next (hc.frame (refuseAt_changes _ _ _ _ _ _ _ _ _ (by decide) (Changes.refl _ _)))
  · exact ResSteady.next hc

theorem bits_bits_low (val : Word64) (k : Nat) : (bits (bits val k 32 : Word) 0 8 : BitVec 8) = bits val k 8 := by
  unfold bits
  ext i hi
  simp only [BitVec.getElem_extractLsb', BitVec.getLsbD_extractLsb', Nat.zero_add]
  rw [decide_eq_true (by omega), Bool.true_and]

/-- An access to BAR0 is steady but for a word of it that writes START to an STn_CMD. -/
theorem barWrite_steady (f : Func) (size : AccessSize) (a : Nat) (val : Word64) (env : WriteEnv) (s : State)
    (hlo : (size = .b4 ∨ size = .b8) → ∀ n, regAddr (.ctl n .cmd) = a → (bits val 0 8 : BitVec 8) = 2 → R n)
    (hhi : size = .b8 → ∀ n, regAddr (.ctl n .cmd) = a + 4 → (bits val 32 8 : BitVec 8) = 2 → R n) (hc : Steady R s₀ s) :
    ResSteady R s₀ (barWrite f size a val env s) := by
  have size_refused : ResSteady R s₀ (.next (refuseSize f a s)) := ResSteady.next (hc.frame (refuseSize_changes _ _ _ (by decide) (Changes.refl _ _)))
  unfold barWrite
  split
  · refine ResSteady.ite (fun _ => ?_) fun _ => size_refused
    exact wordWriteAt_steady _ _ _ _ _ (fun n ha hb => hlo (.inl rfl) n ha (bits_bits_low val 0 ▸ hb)) hc
  · refine ResSteady.ite (fun _ => andThen_steady _ _ ?_ fun t ht => ?_) fun _ => size_refused
    · exact wordWriteAt_steady _ _ _ _ _ (fun n ha hb => hlo (.inr rfl) n ha (bits_bits_low val 0 ▸ hb)) hc
    · exact wordWriteAt_steady _ _ _ _ _ (fun n ha hb => hhi rfl n ha (bits_bits_low val 32 ▸ hb)) ht
  · exact size_refused

theorem execHbmHostWrite_steady (f : Func) (addr : BitVec 36) (bytes : List Byte) (s : State) (hc : Steady R s₀ s) :
    ResSteady R s₀ (execHbmHostWrite f addr bytes s) := by
  unfold execHbmHostWrite
  try dsimp only
  repeat' first
    | with_reducible assumption
    | with_reducible apply Steady.ite
    | with_reducible apply ResSteady.next
    | with_reducible apply ResSteady.ite
    | with_reducible apply stageBytes_steady
    | with_reducible apply (Steady.frame · (discardWrite_changes _ _ _ (by decide) (Changes.refl _ _)))
    | (intro _; try dsimp only)

end

/-- What lets a stall begin to ride (R56): its START, or the write of START's value to its STn_CMD. -/
def GivesStart (c : Instr) (n : StallId) : Prop := (∃ f, c = .start f n) ∨ writesByte c (.ctl n .cmd) 2

/-- Every command is steady but for the stalls that it starts. -/
theorem exec_steady (c : Instr) (s : State) : ResSteady (GivesStart c) s (exec c s) := by
  have here : Steady (GivesStart c) s s := Steady.refl _ s
  cases c with
  | powerUp f n found => exact execPowerUp_steady f n found s here
  | frameAlignmentDone n bring => exact execFrameAlignmentDone_steady n bring s here
  | alignmentTimeout n bring => exact execAlignmentTimeout_steady n bring s here
  | start f n => exact execStart_steady f n s (.inl ⟨f, rfl⟩) here
  | drain f n => exact execDrain_steady f n s here
  | unload f n => exact execUnload_steady f n s here
  | powerDown f n => exact execPowerDown_steady f n s here
  | halt f n => exact execHalt_steady f n s here
  | stallFatalFault n code object => exact execStallFatalFault_steady n code object s here
  | ridersAllStopped n => exact execRidersAllStopped_steady n s here
  | drainTimeout n => exact execDrainTimeout_steady n s here
  | stallPowerLoss n domain bring => exact execStallPowerLoss_steady n domain bring s here
  | spareTakeover f n kind target => exact execSpareTakeover_steady f n kind target s here
  | spareRelease f n kind => exact execSpareRelease_steady f n kind s here
  | spareSwitch n kind => exact execSpareSwitch_steady n kind s here
  | spareSilenceTimeout n kind => exact execSpareSilenceTimeout_steady n kind s here
  | sliceConverterFault slice => exact execSliceConverterFault_steady slice s here
  | forcedTakeoverComplete n kind => exact execForcedTakeoverComplete_steady n kind s here
  | dacGateUnderrun gate beats => exact ResSteady.frame here (execDacGateUnderrun_changes gate beats s (by decide) (Changes.refl _ s))
  | adcGateFull n slice frame => exact ResSteady.frame here (execAdcGateFull_changes n slice frame s (by decide) (Changes.refl _ s))
  | trotLatchPoint v => exact execTrotLatchPoint_steady v s here
  | trotRelease v => exact ResSteady.frame here (execTrotRelease_changes v s (by decide) (Changes.refl _ s))
  | paceMeasurement place monitor margin => exact ResSteady.frame here (execPaceMeasurement_changes place monitor margin s (by decide) (Changes.refl _ s))
  | trotDeadlineWrite f n k val => exact ResSteady.frame here (execTrotDeadlineWrite_changes f n k val s (by decide) (Changes.refl _ s))
  | paceWarnClear f place => exact ResSteady.frame here (execPaceWarnClear_changes f place s (by decide) (Changes.refl _ s))
  | loadStall f n slot => exact ResSteady.frame here (execLoadStall_changes f n slot s (by decide) (Changes.refl _ s))
  | loadHerd f slot => exact ResSteady.frame here (execLoadHerd_changes f slot s (by decide) (Changes.refl _ s))
  | loadHub f slot => exact ResSteady.frame here (execLoadHub_changes f slot s (by decide) (Changes.refl _ s))
  | check f n slot => exact ResSteady.frame here (execCheck_changes f n slot s (by decide) (Changes.refl _ s))
  | abort f bring => exact execAbort_steady f bring s here
  | tackChecksEnd checks bring => exact execTackChecksEnd_steady checks bring s here
  | loadEnd result bring => exact execLoadEnd_steady result bring s here
  | stagingSlotWrite f addr bytes => exact execStagingSlotWrite_steady f addr bytes s here
  | ftwLoWrite f v val => exact ResSteady.frame here (execFtwLoWrite_changes f v val s (by decide) (Changes.refl _ s))
  | ftwHiWrite f v val grant => exact ResSteady.frame here (execFtwHiWrite_changes f v val grant s (by decide) (Changes.refl _ s))
  | voiceTuningWrite f v reg val grant => exact ResSteady.frame here (execVoiceTuningWrite_changes f v reg val grant s (by decide) (Changes.refl _ s))
  | delayWrite f v val grant => exact ResSteady.frame here (execDelayWrite_changes f v val grant s (by decide) (Changes.refl _ s))
  | delayTakesEffect v => exact ResSteady.frame here (execDelayTakesEffect_changes v s (by decide) (Changes.refl _ s))
  | sumGuardClip slice sample => exact ResSteady.frame here (execSumGuardClip_changes slice sample s (by decide) (Changes.refl _ s))
  | guardHitClear f slice => exact ResSteady.frame here (execGuardHitClear_changes f slice s (by decide) (Changes.refl _ s))
  | slCtlWrite f slice val => exact ResSteady.frame here (execSlCtlWrite_changes f slice val s (by decide) (Changes.refl _ s))
  | attenTakesEffect slice => exact ResSteady.frame here (execAttenTakesEffect_changes slice s (by decide) (Changes.refl _ s))
  | portOpenTimer slice => exact ResSteady.frame here (execPortOpenTimer_changes slice s (by decide) (Changes.refl _ s))
  | switchReadbackMismatch slice => exact execSwitchReadbackMismatch_steady slice s here
  | voiceStart f v desc grant => exact ResSteady.frame here (execVoiceStart_changes f v desc grant s (by decide) (Changes.refl _ s))
  | loadAlt f v desc grant => exact ResSteady.frame here (execLoadAlt_changes f v desc grant s (by decide) (Changes.refl _ s))
  | selectAlt f v grant => exact ResSteady.frame here (execSelectAlt_changes f v grant s (by decide) (Changes.refl _ s))
  | branch f v desc grant => exact ResSteady.frame here (execBranch_changes f v desc grant s (by decide) (Changes.refl _ s))
  | break_ f v grant => exact ResSteady.frame here (execBreak_changes f v grant s (by decide) (Changes.refl _ s))
  | stop f v grant => exact ResSteady.frame here (execStop_changes f v grant s (by decide) (Changes.refl _ s))
  | playStart v => exact ResSteady.frame here (execPlayStart_changes v s (by decide) (Changes.refl _ s))
  | descriptorLoadDone v side => exact execDescriptorLoadDone_steady v side s here
  | commitPoint v => exact ResSteady.frame here (execCommitPoint_changes v s (by decide) (Changes.refl _ s))
  | repetitionBoundary v => exact ResSteady.frame here (execRepetitionBoundary_changes v s (by decide) (Changes.refl _ s))
  | segmentBoundary v => exact execSegmentBoundary_steady v s here
  | streamUnderrun v => exact ResSteady.frame here (execStreamUnderrun_changes v s (by decide) (Changes.refl _ s))
  | streamResume v => exact ResSteady.frame here (execStreamResume_changes v s (by decide) (Changes.refl _ s))
  | envelopeWindowWrite f n w val => exact execEnvelopeWindowWrite_steady f n w val s here
  | asCtlWrite f n k val => exact ResSteady.frame here (execAsCtlWrite_changes f n k val s (by decide) (Changes.refl _ s))
  | rangeTakesEffect n k => exact ResSteady.frame here (execRangeTakesEffect_changes n k s (by decide) (Changes.refl _ s))
  | adcFullScaleCode n k sample => exact ResSteady.frame here (execAdcFullScaleCode_changes n k sample s (by decide) (Changes.refl _ s))
  | chCtlWrite f c val => exact ResSteady.frame here (execChCtlWrite_changes f c val s (by decide) (Changes.refl _ s))
  | filterTakesEffect c => exact ResSteady.frame here (execFilterTakesEffect_changes c s (by decide) (Changes.refl _ s))
  | stagedSetWrite f c reg val => exact ResSteady.frame here (execStagedSetWrite_changes f c reg val s (by decide) (Changes.refl _ s))
  | chCommit f c => exact ResSteady.frame here (execChCommit_changes f c s (by decide) (Changes.refl _ s))
  | kernelWindowWrite f n t val => exact execKernelWindowWrite_steady f n t val s here
  | windowStart c => exact ResSteady.frame here (execWindowStart_changes c s (by decide) (Changes.refl _ s))
  | windowDecision c sig => exact ResSteady.frame here (execWindowDecision_changes c sig s (by decide) (Changes.refl _ s))
  | arm f u => exact ResSteady.frame here (execArm_changes f u s (by decide) (Changes.refl _ s))
  | disarm f u => exact execDisarm_steady f u s here
  | force f u => exact ResSteady.frame here (execForce_changes f u s (by decide) (Changes.refl _ s))
  | release f u => exact execRelease_steady f u s here
  | levelCrossing u sample sig => exact ResSteady.frame here (execLevelCrossing_changes u sample sig s (by decide) (Changes.refl _ s))
  | scheduleTimeTrigger u => exact ResSteady.frame here (execScheduleTimeTrigger_changes u s (by decide) (Changes.refl _ s))
  | hobbleEnd u => exact ResSteady.frame here (execHobbleEnd_changes u s (by decide) (Changes.refl _ s))
  | recordEnd u sig => exact execRecordEnd_steady u sig s here
  | storageBehind u => exact execStorageBehind_steady u s here
  | tuRdWrite f u val => exact execTuRdWrite_steady f u val s here
  | markerEdge v bit level => exact ResSteady.frame here (execMarkerEdge_changes v bit level s (by decide) (Changes.refl _ s))
  | hubEntry copy nodeWaits hubWaits => exact ResSteady.frame here (execHubEntry_changes copy nodeWaits hubWaits s (by decide) (Changes.refl _ s))
  | compareUnitCopy copy planeB waits => exact ResSteady.frame here (execCompareUnitCopy_changes copy planeB waits s (by decide) (Changes.refl _ s))
  | missingCopyTimeout copy => exact ResSteady.frame here (execMissingCopyTimeout_changes copy s (by decide) (Changes.refl _ s))
  | consumerDelivery copy waits => exact execConsumerDelivery_steady copy waits s here
  | cellEvaluation cell => exact ResSteady.frame here (execCellEvaluation_changes cell s (by decide) (Changes.refl _ s))
  | joinWindowExpiry cell => exact ResSteady.frame here (execJoinWindowExpiry_changes cell s (by decide) (Changes.refl _ s))
  | filterWidthExpiry cell => exact ResSteady.frame here (execFilterWidthExpiry_changes cell s (by decide) (Changes.refl _ s))
  | fabricFault place cause chan cell => exact execFabricFault_steady place cause chan cell s here
  | scrubPass place singles double => exact execScrubPass_steady place singles double s here
  | setFlipFlop f n cell value inv => exact ResSteady.frame here (execSetFlipFlop_changes f n cell value inv s (by decide) (Changes.refl _ s))
  | clearFlipFlops f n => exact ResSteady.frame here (execClearFlipFlops_changes f n s (by decide) (Changes.refl _ s))
  | bkFilterWrite f cell val => exact ResSteady.frame here (execBkFilterWrite_changes f cell val s (by decide) (Changes.refl _ s))
  | reinInject f chan value inv grant => exact ResSteady.frame here (execReinInject_changes f chan value inv grant s (by decide) (Changes.refl _ s))
  | takeOut f planeB => exact ResSteady.frame here (execTakeOut_changes f planeB s (by decide) (Changes.refl _ s))
  | return_ f planeB => exact ResSteady.frame here (execReturn_changes f planeB s (by decide) (Changes.refl _ s))
  | rejoinReadbackDone good => exact ResSteady.frame here (execRejoinReadbackDone_changes good s (by decide) (Changes.refl _ s))
  | hubSettlePoint => exact ResSteady.frame here (execHubSettlePoint_changes s (by decide) (Changes.refl _ s))
  | reinAuditCmd f chan => exact ResSteady.frame here (execReinAuditCmd_changes f chan s (by decide) (Changes.refl _ s))
  | channelAuditSettlePoint => exact ResSteady.frame here (execChannelAuditSettlePoint_changes s (by decide) (Changes.refl _ s))
  | nop r u => exact execNop_steady r u s here
  | alu r u => exact execAlu_steady r u s here
  | time r u => exact execTime_steady r u s here
  | take r u => exact execTake_steady r u s here
  | push r u => exact execPush_steady r u s here
  | pop r u => exact execPop_steady r u s here
  | irq r u => exact execIrq_steady r u s here
  | shotBegin r u => exact execShotBegin_steady r u s here
  | shotEnd r u => exact execShotEnd_steady r u s here
  | vstart r u => exact execVstart_steady r u s here
  | vloadalt r u => exact execVloadalt_steady r u s here
  | vselalt r u => exact execVselalt_steady r u s here
  | vbranch r u => exact execVbranch_steady r u s here
  | vbreak r u => exact execVbreak_steady r u s here
  | vstop r u => exact execVstop_steady r u s here
  | fork r u => exact execFork_steady r u s here
  | vtune r u => exact execVtune_steady r u s here
  | fluxDcGoal r u => exact execFluxDcGoal_steady r u s here
  | fluxFastCode r u => exact execFluxFastCode_steady r u s here
  | fluxDcCode r u => exact execFluxDcCode_steady r u s here
  | open_ r u => exact execOpen_steady r u s here
  | emit r u => exact execEmit_steady r u s here
  | emitRelay r u => exact execEmitRelay_steady r u s here
  | ffSet r u => exact execFfSet_steady r u s here
  | ffClear r u => exact execFfClear_steady r u s here
  | ctrig r u => exact execCtrig_steady r u s here
  | waitConditionTrue r u => exact execWaitConditionTrue_steady r u s here
  | waitDeadline r => exact execWaitDeadline_steady r s here
  | postGranted r => exact execPostGranted_steady r s here
  | riderRelease r => exact ResSteady.frame here (execRiderRelease_changes r s (by decide) (Changes.refl _ s))
  | riderStart f r => exact ResSteady.frame here (execRiderStart_changes f r s (by decide) (Changes.refl _ s))
  | riderStop f r => exact execRiderStop_steady f r s here
  | spur f r => exact execSpur_steady f r s here
  | controlStoreWrite f n w val => exact execControlStoreWrite_steady f n w val s here
  | riderRegisterWrite f r reg val => exact ResSteady.frame here (execRiderRegisterWrite_changes f r reg val s (by decide) (Changes.refl _ s))
  | rhHandlerWrite f r val => exact ResSteady.frame here (execRhHandlerWrite_changes f r val s (by decide) (Changes.refl _ s))
  | flDcWrite f l val grant => exact ResSteady.frame here (execFlDcWrite_changes f l val grant s (by decide) (Changes.refl _ s))
  | dcTick => exact execDcTick_steady s here
  | spanSwitchEnd l => exact ResSteady.frame here (execSpanSwitchEnd_changes l s (by decide) (Changes.refl _ s))
  | spanReadbackCheck l found => exact ResSteady.frame here (execSpanReadbackCheck_changes l found s (by decide) (Changes.refl _ s))
  | flCurbWrite f l val => exact execFlCurbWrite_steady f l val s here
  | flSafeWrite f l val => exact execFlSafeWrite_steady f l val s here
  | flCtlWrite f l val => exact ResSteady.frame here (execFlCtlWrite_changes f l val s (by decide) (Changes.refl _ s))
  | generatorConfigWrite f l reg val => exact ResSteady.frame here (execGeneratorConfigWrite_changes f l reg val s (by decide) (Changes.refl _ s))
  | flFastSet f l val grant => exact ResSteady.frame here (execFlFastSet_changes f l val grant s (by decide) (Changes.refl _ s))
  | fastLevelChange l => exact ResSteady.frame here (execFastLevelChange_changes l s (by decide) (Changes.refl _ s))
  | edgeTableWrite f l t val => exact ResSteady.frame here (execEdgeTableWrite_changes f l t val s (by decide) (Changes.refl _ s))
  | fastDacFault g => exact ResSteady.frame here (execFastDacFault_changes g s (by decide) (Changes.refl _ s))
  | clear f g reports => exact ResSteady.frame here (execClear_changes f g reports s (by decide) (Changes.refl _ s))
  | queueWordGrant q port => exact ResSteady.frame here (execQueueWordGrant_changes q port s (by decide) (Changes.refl _ s))
  | creditReturnArrives q port => exact ResSteady.frame here (execCreditReturnArrives_changes q port s (by decide) (Changes.refl _ s))
  | qPush f q val => exact ResSteady.frame here (execQPush_changes f q val s (by decide) (Changes.refl _ s))
  | qPushEnd f q val => exact ResSteady.frame here (execQPushEnd_changes f q val s (by decide) (Changes.refl _ s))
  | qPop f q words => exact ResSteady.frame here (execQPop_changes f q words s (by decide) (Changes.refl _ s))
  | flush f q => exact ResSteady.frame here (execFlush_changes f q s (by decide) (Changes.refl _ s))
  | auditQueue f q => exact ResSteady.frame here (execAuditQueue_changes f q s (by decide) (Changes.refl _ s))
  | auditPages f => exact ResSteady.frame here (execAuditPages_changes f s (by decide) (Changes.refl _ s))
  | scrub f => exact ResSteady.frame here (execScrub_changes f s (by decide) (Changes.refl _ s))
  | bookAuditSettlePoint => exact ResSteady.frame here (execBookAuditSettlePoint_changes s (by decide) (Changes.refl _ s))
  | pageReleaseDone from_ => exact ResSteady.frame here (execPageReleaseDone_changes from_ s (by decide) (Changes.refl _ s))
  | pointerCheckPass q differs => exact ResSteady.frame here (execPointerCheckPass_changes q differs s (by decide) (Changes.refl _ s))
  | backgroundScrub err => exact execBackgroundScrub_steady err s here
  | farrierStart f n kind target => exact execFarrierStart_steady f n kind target s here
  | farrierAbort f n => exact execFarrierAbort_steady f n s here
  | restore f n target => exact ResSteady.frame here (execRestore_changes f n target s (by decide) (Changes.refl _ s))
  | automaticCalibrationStart n kind target => exact execAutomaticCalibrationStart_steady n kind target s here
  | observationComplete n obs => exact execObservationComplete_steady n obs s here
  | observationTimeout n => exact execObservationTimeout_steady n s here
  | quietBoundary n badCopy => exact execQuietBoundary_steady n badCopy s here
  | activationTimeout n => exact execActivationTimeout_steady n s here
  | retrain f lane => exact ResSteady.frame here (execRetrain_changes f lane s (by decide) (Changes.refl _ s))
  | inject f lane => exact ResSteady.frame here (execInject_changes f lane s (by decide) (Changes.refl _ s))
  | tlCtlWrite f lane val => exact ResSteady.frame here (execTlCtlWrite_changes f lane val s (by decide) (Changes.refl _ s))
  | trainingPatternReceived lane => exact ResSteady.frame here (execTrainingPatternReceived_changes lane s (by decide) (Changes.refl _ s))
  | trainingPhaseEnd lane found => exact ResSteady.frame here (execTrainingPhaseEnd_changes lane found s (by decide) (Changes.refl _ s))
  | trainingTimeout lane => exact ResSteady.frame here (execTrainingTimeout_changes lane s (by decide) (Changes.refl _ s))
  | backoffWaitEnd lane => exact ResSteady.frame here (execBackoffWaitEnd_changes lane s (by decide) (Changes.refl _ s))
  | lossOfSignal lane => exact ResSteady.frame here (execLossOfSignal_changes lane s (by decide) (Changes.refl _ s))
  | errorRateLimit lane => exact ResSteady.frame here (execErrorRateLimit_changes lane s (by decide) (Changes.refl _ s))
  | eventReceived lane tok intact => exact ResSteady.frame here (execEventReceived_changes lane tok intact s (by decide) (Changes.refl _ s))
  | eventAcknowledge lane ack => exact ResSteady.frame here (execEventAcknowledge_changes lane ack s (by decide) (Changes.refl _ s))
  | packetReceived lane pkt intact => exact ResSteady.frame here (execPacketReceived_changes lane pkt intact s (by decide) (Changes.refl _ s))
  | packetRetransmission lane queue credits seq => exact ResSteady.frame here (execPacketRetransmission_changes lane queue credits seq s (by decide) (Changes.refl _ s))
  | timeMarkReceived lane mark => exact ResSteady.frame here (execTimeMarkReceived_changes lane mark s (by decide) (Changes.refl _ s))
  | timeMarkTimer lane => exact ResSteady.frame here (execTimeMarkTimer_changes lane s (by decide) (Changes.refl _ s))
  | tlPrbsWrite f lane val => exact ResSteady.frame here (execTlPrbsWrite_changes f lane val s (by decide) (Changes.refl _ s))
  | align f => exact ResSteady.frame here (execAlign_changes f s (by decide) (Changes.refl _ s))
  | alignStep tai error => exact ResSteady.frame here (execAlignStep_changes tai error s (by decide) (Changes.refl _ s))
  | alignComplete error => exact ResSteady.frame here (execAlignComplete_changes error s (by decide) (Changes.refl _ s))
  | alignTimeout => exact ResSteady.frame here (execAlignTimeout_changes s (by decide) (Changes.refl _ s))
  | switch f d => exact ResSteady.frame here (execSwitch_changes f d s (by decide) (Changes.refl _ s))
  | accept f d => exact ResSteady.frame here (execAccept_changes f d s (by decide) (Changes.refl _ s))
  | epochTaiWrite f word val => exact ResSteady.frame here (execEpochTaiWrite_changes f word val s (by decide) (Changes.refl _ s))
  | timeNowRead f => exact ResSteady.frame here (execTimeNowRead_changes f s (by decide) (Changes.refl _ s))
  | ptpMessageReceived port msg => exact ResSteady.frame here (execPtpMessageReceived_changes port msg s (by decide) (Changes.refl _ s))
  | nonPtpFrame port frame => exact ResSteady.frame here (execNonPtpFrame_changes port frame s (by decide) (Changes.refl _ s))
  | announceTimeout d => exact ResSteady.frame here (execAnnounceTimeout_changes d s (by decide) (Changes.refl _ s))
  | dmCtlWrite f d val => exact execDmCtlWrite_steady f d val s here
  | slewSaturation => exact ResSteady.frame here (execSlewSaturation_changes s (by decide) (Changes.refl _ s))
  | tpArm f k => exact ResSteady.frame here (execTpArm_changes f k s (by decide) (Changes.refl _ s))
  | tpDisarm f k => exact ResSteady.frame here (execTpDisarm_changes f k s (by decide) (Changes.refl _ s))
  | timePulseEdge k rising => exact ResSteady.frame here (execTimePulseEdge_changes k rising s (by decide) (Changes.refl _ s))
  | comparatorTrip cmp level which => exact execComparatorTrip_steady cmp level which s here
  | latchClear f cmp level => exact ResSteady.frame here (execLatchClear_changes f cmp level s (by decide) (Changes.refl _ s))
  | periodClear cmp level => exact ResSteady.frame here (execPeriodClear_changes cmp level s (by decide) (Changes.refl _ s))
  | checkSwap f cmp => exact ResSteady.frame here (execCheckSwap_changes f cmp s (by decide) (Changes.refl _ s))
  | checkLevels f cmp => exact ResSteady.frame here (execCheckLevels_changes f cmp s (by decide) (Changes.refl _ s))
  | selfCheckEnd cmp pass => exact execSelfCheckEnd_steady cmp pass s here
  | comparatorConfigWrite f cmp reg val => exact ResSteady.frame here (execComparatorConfigWrite_changes f cmp reg val s (by decide) (Changes.refl _ s))
  | hkStart f k => exact ResSteady.frame here (execHkStart_changes f k s (by decide) (Changes.refl _ s))
  | hkStop f k => exact ResSteady.frame here (execHkStop_changes f k s (by decide) (Changes.refl _ s))
  | conversionDone k code => exact ResSteady.frame here (execConversionDone_changes k code s (by decide) (Changes.refl _ s))
  | hkDataRead f k => exact ResSteady.frame here (execHkDataRead_changes f k s (by decide) (Changes.refl _ s))
  | hkCtlWrite f val => exact ResSteady.frame here (execHkCtlWrite_changes f val s (by decide) (Changes.refl _ s))
  | referenceReady => exact ResSteady.frame here (execReferenceReady_changes s (by decide) (Changes.refl _ s))
  | scanEntryWrite f k entry val => exact ResSteady.frame here (execScanEntryWrite_changes f k entry val s (by decide) (Changes.refl _ s))
  | backgroundCalibrationTurn => exact ResSteady.frame here (execBackgroundCalibrationTurn_changes s (by decide) (Changes.refl _ s))
  | backgroundCalibrationTurnEnd offsetErr gainErr => exact ResSteady.frame here (execBackgroundCalibrationTurnEnd_changes offsetErr gainErr s (by decide) (Changes.refl _ s))
  | supplyFailure second removed => exact ResSteady.frame here (execSupplyFailure_changes second removed s (by decide) (Changes.refl _ s))
  | supplyInService second => exact ResSteady.frame here (execSupplyInService_changes second s (by decide) (Changes.refl _ s))
  | supplyAcFailure => exact execSupplyAcFailure_steady s here
  | busBelow10V2 => exact execBusBelow10V2_steady s here
  | powerOnReset world => exact execPowerOnReset_steady world s here
  | brownOutReset world => exact execBrownOutReset_steady world s here
  | perst width world => exact execPerst_steady width world s here
  | hotReset => exact ResSteady.frame here (execHotReset_changes s (by decide) (Changes.refl _ s))
  | linkTrained width speed => exact ResSteady.frame here (execLinkTrained_changes width speed s (by decide) (Changes.refl _ s))
  | watchdog world => exact execWatchdog_steady world s here
  | bootStart found => exact execBootStart_steady found s here
  | referenceLocked src bring => exact execReferenceLocked_steady src bring s here
  | referenceLockTimeout => exact ResSteady.frame here (execReferenceLockTimeout_changes s (by decide) (Changes.refl _ s))
  | powerDomainFault domain bring => exact execPowerDomainFault_steady domain bring s here
  | moduleReset f key world => exact execModuleReset_steady f key world s here
  | acceptFactory f key n => exact execAcceptFactory_steady f key n s here
  | fwWrite f key slot sigOk version => exact ResSteady.frame here (execFwWrite_changes f key slot sigOk version s (by decide) (Changes.refl _ s))
  | fwSwitch f key => exact ResSteady.frame here (execFwSwitch_changes f key s (by decide) (Changes.refl _ s))
  | spineSettlePoint => exact execSpineSettlePoint_steady s here
  | rwpWrite f reg val => exact execRwpWrite_steady f reg val s here
  | rtcHiWrite f val => exact ResSteady.frame here (execRtcHiWrite_changes f val s (by decide) (Changes.refl _ s))
  | feedSend id => exact ResSteady.frame here (execFeedSend_changes id s (by decide) (Changes.refl _ s))
  | feedMessage msg => exact ResSteady.frame here (execFeedMessage_changes msg s (by decide) (Changes.refl _ s))
  | feedTimeout id => exact ResSteady.frame here (execFeedTimeout_changes id s (by decide) (Changes.refl _ s))
  | sealOpened => exact ResSteady.frame here (execSealOpened_changes s (by decide) (Changes.refl _ s))
  | sealClosed => exact ResSteady.frame here (execSealClosed_changes s (by decide) (Changes.refl _ s))
  | sealPortConfiguration item => exact ResSteady.frame here (execSealPortConfiguration_changes item s (by decide) (Changes.refl _ s))
  | tallyPowerOn carrier check memoryOk => exact ResSteady.frame here (execTallyPowerOn_changes carrier check memoryOk s (by decide) (Changes.refl _ s))
  | firmwareCheck check => exact ResSteady.frame here (execFirmwareCheck_changes check s (by decide) (Changes.refl _ s))
  | mirrorRefresh => exact ResSteady.frame here (execMirrorRefresh_changes s (by decide) (Changes.refl _ s))
  | mirrorStale => exact ResSteady.frame here (execMirrorStale_changes s (by decide) (Changes.refl _ s))
  | tallyMirrorWrite f w => exact ResSteady.frame here (execTallyMirrorWrite_changes f w s (by decide) (Changes.refl _ s))
  | shotAuditCmd f n val => exact ResSteady.frame here (execShotAuditCmd_changes f n val s (by decide) (Changes.refl _ s))
  | shotAuditSettlePoint n => exact ResSteady.frame here (execShotAuditSettlePoint_changes n s (by decide) (Changes.refl _ s))
  | fanTrayRemoved => exact ResSteady.frame here (execFanTrayRemoved_changes s (by decide) (Changes.refl _ s))
  | fanTrayFitted => exact ResSteady.frame here (execFanTrayFitted_changes s (by decide) (Changes.refl _ s))
  | msixCapRelease source => exact ResSteady.frame here (execMsixCapRelease_changes source s (by decide) (Changes.refl _ s))
  | msixTableWrite f entry word val => exact ResSteady.frame here (execMsixTableWrite_changes f entry word val s (by decide) (Changes.refl _ s))
  | hostRegisterWrite f size addr val env =>
    refine barWrite_steady f size addr.toNat val env s (fun hsize n ha hb => ?_) (fun hsize n ha hb => ?_) here
    · exact .inr ⟨f, size, addr, val, env, rfl, .inl ⟨hsize, ha, hb⟩⟩
    · exact .inr ⟨f, size, addr, val, env, rfl, .inr ⟨hsize, ha, hb⟩⟩
  | farrierSpareSwitch n => exact execFarrierSpareSwitch_steady n s here
  | tuningTakesEffect v => exact ResSteady.frame here (execTuningTakesEffect_changes v s (by decide) (Changes.refl _ s))
  | storageRecovered u => exact ResSteady.frame here (execStorageRecovered_changes u s (by decide) (Changes.refl _ s))
  | checkerLocked lane => exact ResSteady.frame here (execCheckerLocked_changes lane s (by decide) (Changes.refl _ s))
  | checkerLockLost lane => exact ResSteady.frame here (execCheckerLockLost_changes lane s (by decide) (Changes.refl _ s))
  | fwWriteDone good => exact execFwWriteDone_steady good s here
  | hbmScrubDone err => exact execHbmScrubDone_steady err s here
  | configurationRequest req => exact ResSteady.frame here (execConfigurationRequest_changes req s (by decide) (Changes.refl _ s))
  | hbmHostWrite f addr bytes => exact execHbmHostWrite_steady f addr bytes s here
  | delayReqSend p stamp => exact ResSteady.frame here (execDelayReqSend_changes p stamp s (by decide) (Changes.refl _ s))
  | ptLinkChange p up => exact ResSteady.frame here (execPtLinkChange_changes p up s (by decide) (Changes.refl _ s))

/-- Settles O13: every command is steady (`exec_steady`), and a steady outcome lets no stall begin to ride but those the command starts. -/
theorem onlyStartMakesAStallRide : Obligations.OnlyStartMakesAStallRide := by
  intro c s t n answer still rides
  exact (((exec_steady c s).all t answer).riding n rides).resolve_left still

/-- Settles O6: a command is steady (`exec_steady`), and a beat (`tick_changes`) touches no memory. -/
theorem memoriesStayCanonical : Obligations.MemoriesStayCanonical := by
  intro s t canonical answer
  have steady : ∃ R, Steady R s t := by
    unfold step at answer
    split at answer
    · cases answer
      exact ⟨fun _ => False, (Steady.refl _ s).frame (tick_changes s (by decide) (Changes.refl _ s))⟩
    · rename_i c rest _
      have popped : Steady (GivesStart c) s { s with pending := rest } := (Steady.refl _ s).frame (Changes.set_pending _ (by decide) (Changes.refl _ s))
      exact ⟨_, popped.trans ((exec_steady c _).all t answer)⟩
  obtain ⟨_, steady⟩ := steady
  exact steady.memories canonical

end Sys2Proof.Machine
end

section
/-!
PROOFS. What is read of an object: where its part does not change, and where another object of the part is written.
-/

namespace Sys2Proof.Machine

set_option Elab.async false

open Sys2Proof

/-- Every part of the state. -/
def everyPart : List Part := .pending :: behindQueue

/-- Every part of the state but one: what is changed inside it leaves that one alone. -/
def allBut (p : Part) : List Part := everyPart.filter fun q => decide (q ≠ p)

/-! ## What is read of a part that does not change -/

theorem Changes.getGait {P : List Part} {s t : State} (h : Changes P s t) (n : StallId) (hp : P.contains .gaits = false := by decide) :
    getGait t n = getGait s n := by
  simp only [Machine.getGait, h.gaits hp]

theorem Changes.getSlice {P : List Part} {s t : State} (h : Changes P s t) (i : SliceId) (hp : P.contains .slices = false := by decide) :
    getSlice t i = getSlice s i := by
  simp only [Machine.getSlice, h.slices hp]

theorem Changes.getAcq {P : List Part} {s t : State} (h : Changes P s t) (n : StallId) (k : Fin 5) (hp : P.contains .acqs = false := by decide) :
    getAcq t n k = getAcq s n k := by
  simp only [Machine.getAcq, h.acqs hp]

theorem Changes.getVoice {P : List Part} {s t : State} (h : Changes P s t) (v : VoiceId) (hp : P.contains .voices = false := by decide) :
    getVoice t v = getVoice s v := by
  simp only [Machine.getVoice, h.voices hp]

theorem Changes.getSeq {P : List Part} {s t : State} (h : Changes P s t) (v : VoiceId) (hp : P.contains .seqs = false := by decide) :
    getSeq t v = getSeq s v := by
  simp only [Machine.getSeq, h.seqs hp]

theorem Changes.getChan {P : List Part} {s t : State} (h : Changes P s t) (c : ChanId) (hp : P.contains .chans = false := by decide) :
    getChan t c = getChan s c := by
  simp only [Machine.getChan, h.chans hp]

theorem Changes.getUnit {P : List Part} {s t : State} (h : Changes P s t) (u : UnitId) (hp : P.contains .units = false := by decide) :
    getUnit t u = getUnit s u := by
  simp only [Machine.getUnit, h.units hp]

theorem Changes.getNode {P : List Part} {s t : State} (h : Changes P s t) (n : StallId) (hp : P.contains .nodes = false := by decide) :
    getNode t n = getNode s n := by
  simp only [Machine.getNode, h.nodes hp]

theorem Changes.getCell {P : List Part} {s t : State} (h : Changes P s t) (c : CellId) (hp : P.contains .cells = false := by decide) :
    getCell t c = getCell s c := by
  simp only [Machine.getCell, h.cells hp]

theorem Changes.getBook {P : List Part} {s t : State} (h : Changes P s t) (e : ReinChan) (hp : P.contains .books = false := by decide) :
    getBook t e = getBook s e := by
  simp only [Machine.getBook, h.books hp]

theorem Changes.getRider {P : List Part} {s t : State} (h : Changes P s t) (r : RiderId) (hp : P.contains .riders = false := by decide) :
    getRider t r = getRider s r := by
  simp only [Machine.getRider, h.riders hp]

theorem Changes.getLine {P : List Part} {s t : State} (h : Changes P s t) (l : LineId) (hp : P.contains .lines = false := by decide) :
    getLine t l = getLine s l := by
  simp only [Machine.getLine, h.lines hp]

theorem Changes.getFast {P : List Part} {s t : State} (h : Changes P s t) (l : LineId) (hp : P.contains .fasts = false := by decide) :
    getFast t l = getFast s l := by
  simp only [Machine.getFast, h.fasts hp]

theorem Changes.getGroup {P : List Part} {s t : State} (h : Changes P s t) (g : GroupId) (hp : P.contains .groups = false := by decide) :
    getGroup t g = getGroup s g := by
  simp only [Machine.getGroup, h.groups hp]

theorem Changes.getQueue {P : List Part} {s t : State} (h : Changes P s t) (q : QueueId) (hp : P.contains .queues = false := by decide) :
    getQueue t q = getQueue s q := by
  simp only [Machine.getQueue, h.queues hp]

theorem Changes.getFarrier {P : List Part} {s t : State} (h : Changes P s t) (n : StallId) (hp : P.contains .farriers = false := by decide) :
    getFarrier t n = getFarrier s n := by
  simp only [Machine.getFarrier, h.farriers hp]

theorem Changes.getTrims {P : List Part} {s t : State} (h : Changes P s t) (n : StallId) (hp : P.contains .trims = false := by decide) :
    getTrims t n = getTrims s n := by
  simp only [Machine.getTrims, h.trims hp]

theorem Changes.getShotAudit {P : List Part} {s t : State} (h : Changes P s t) (n : StallId) (hp : P.contains .shotAudits = false := by decide) :
    getShotAudit t n = getShotAudit s n := by
  simp only [Machine.getShotAudit, h.shotAudits hp]

theorem Changes.getLane {P : List Part} {s t : State} (h : Changes P s t) (k : LaneId) (hp : P.contains .lanes = false := by decide) :
    getLane t k = getLane s k := by
  simp only [Machine.getLane, h.lanes hp]

theorem Changes.getPort {P : List Part} {s t : State} (h : Changes P s t) (p : Fin 2) (hp : P.contains .ethPorts = false := by decide) :
    getPort t p = getPort s p := by
  simp only [Machine.getPort, h.ethPorts hp]

theorem Changes.getDomain {P : List Part} {s t : State} (h : Changes P s t) (d : Fin 2) (hp : P.contains .domains = false := by decide) :
    getDomain t d = getDomain s d := by
  simp only [Machine.getDomain, h.domains hp]

theorem Changes.getPulse {P : List Part} {s t : State} (h : Changes P s t) (k : Fin 8) (hp : P.contains .pulses = false := by decide) :
    getPulse t k = getPulse s k := by
  simp only [Machine.getPulse, h.pulses hp]

theorem Changes.getWatch {P : List Part} {s t : State} (h : Changes P s t) (c : CmpId) (hp : P.contains .watches = false := by decide) :
    getWatch t c = getWatch s c := by
  simp only [Machine.getWatch, h.watches hp]

theorem Changes.getHk {P : List Part} {s t : State} (h : Changes P s t) (k : Fin 8) (hp : P.contains .hks = false := by decide) :
    getHk t k = getHk s k := by
  simp only [Machine.getHk, h.hks hp]

theorem Changes.getFunc {P : List Part} {s t : State} (h : Changes P s t) (f : Func) (hp : P.contains .funcs = false := by decide) :
    getFunc t f = getFunc s f := by
  simp only [Machine.getFunc, h.funcs hp]

theorem Changes.getIrq {P : List Part} {s t : State} (h : Changes P s t) (src : Nat) (hp : P.contains .irqs = false := by decide) :
    getIrq t src = getIrq s src := by
  simp only [Machine.getIrq, h.irqs hp]

theorem Changes.getFeed {P : List Part} {s t : State} (h : Changes P s t) (k : Nat) (hp : P.contains .feeds = false := by decide) :
    getFeed t k = getFeed s k := by
  simp only [Machine.getFeed, h.feeds hp]

theorem Changes.imageOf {P : List Part} {s t : State} (h : Changes P s t) (n : StallId) (hp : P.contains .stallImages = false := by decide) :
    imageOf t n = imageOf s n := by
  simp only [Machine.imageOf, h.stallImages hp]

theorem Changes.hasImage {P : List Part} {s t : State} (h : Changes P s t) (n : StallId) (hp : P.contains .stallImages = false := by decide) :
    hasImage t n = hasImage s n := by
  simp only [Machine.hasImage, h.stallImages hp]

theorem Changes.voiceBind {P : List Part} {s t : State} (h : Changes P s t) (v : VoiceId) (hp : P.contains .stallImages = false := by decide) :
    voiceBind t v = voiceBind s v := by
  simp only [Machine.voiceBind, h.imageOf _ hp]

theorem Changes.chanBind {P : List Part} {s t : State} (h : Changes P s t) (c : ChanId) (hp : P.contains .stallImages = false := by decide) :
    chanBind t c = chanBind s c := by
  simp only [Machine.chanBind, h.imageOf _ hp]

theorem Changes.lineBind {P : List Part} {s t : State} (h : Changes P s t) (l : LineId) (hp : P.contains .stallImages = false := by decide) :
    lineBind t l = lineBind s l := by
  simp only [Machine.lineBind, h.imageOf _ hp]

theorem Changes.riderBind {P : List Part} {s t : State} (h : Changes P s t) (r : RiderId) (hp : P.contains .stallImages = false := by decide) :
    riderBind t r = riderBind s r := by
  simp only [Machine.riderBind, h.imageOf _ hp]

theorem Changes.queueAlloc {P : List Part} {s t : State} (h : Changes P s t) (q : QueueId) (hp : P.contains .stallImages = false := by decide) :
    queueAlloc t q = queueAlloc s q := by
  simp only [Machine.queueAlloc, h.imageOf _ hp]

/-! ## What is read of another object than the one written -/

theorem getStall_modStall_other {n n' : StallId} (h : n' ≠ n) (f : StallCtl → StallCtl) (s : State) : getStall (modStall n f s) n' = getStall s n' :=
  getStall_modStall_ne _ _ _ _ fun e => h (Fin.ext e.symm)

theorem getGait_modGait_other {n n' : StallId} (h : n' ≠ n) (f : Gait → Gait) (s : State) : getGait (modGait n f s) n' = getGait s n' :=
  getGait_modGait_ne _ _ _ _ fun e => h (Fin.ext e.symm)

theorem getVoice_modVoice_other {v v' : VoiceId} (h : v' ≠ v) (f : Voice → Voice) (s : State) : getVoice (modVoice v f s) v' = getVoice s v' :=
  getVoice_modVoice_ne _ _ _ _ fun e => h ((voiceKey_inj e).symm)

theorem getSeq_modSeq_other {v v' : VoiceId} (h : v' ≠ v) (f : Seq → Seq) (s : State) : getSeq (modSeq v f s) v' = getSeq s v' :=
  getSeq_modSeq_ne _ _ _ _ fun e => h ((voiceKey_inj e).symm)

theorem getChan_modChan_other {c c' : ChanId} (h : c' ≠ c) (f : Channel → Channel) (s : State) : getChan (modChan c f s) c' = getChan s c' :=
  getChan_modChan_ne _ _ _ _ fun e => h ((chanKey_inj e).symm)

theorem getUnit_modUnit_other {u u' : UnitId} (h : u' ≠ u) (f : CapUnit → CapUnit) (s : State) : getUnit (modUnit u f s) u' = getUnit s u' :=
  getUnit_modUnit_ne _ _ _ _ fun e => h ((unitKey_inj e).symm)

theorem getNode_modNode_other {n n' : StallId} (h : n' ≠ n) (f : Node → Node) (s : State) : getNode (modNode n f s) n' = getNode s n' :=
  getNode_modNode_ne _ _ _ _ fun e => h (Fin.ext e.symm)

theorem getCell_modCell_other {c c' : CellId} (h : c' ≠ c) (f : Cell → Cell) (s : State) : getCell (modCell c f s) c' = getCell s c' :=
  getCell_modCell_ne _ _ _ _ fun e => h ((cellKey_inj e).symm)

theorem getBook_modBook_other {e e' : ReinChan} (h : e' ≠ e) (f : Book → Book) (s : State) : getBook (modBook e f s) e' = getBook s e' :=
  getBook_modBook_ne _ _ _ _ fun e => h (BitVec.eq_of_toNat_eq e.symm)

theorem getRider_modRider_other {r r' : RiderId} (h : r' ≠ r) (f : Rider → Rider) (s : State) : getRider (modRider r f s) r' = getRider s r' :=
  getRider_modRider_ne _ _ _ _ fun e => h ((riderKey_inj e).symm)

theorem getLine_modLine_other {l l' : LineId} (h : l' ≠ l) (f : Line → Line) (s : State) : getLine (modLine l f s) l' = getLine s l' :=
  getLine_modLine_ne _ _ _ _ fun e => h ((lineKey_inj e).symm)

theorem getFast_modFast_other {l l' : LineId} (h : l' ≠ l) (f : Fast → Fast) (s : State) : getFast (modFast l f s) l' = getFast s l' :=
  getFast_modFast_ne _ _ _ _ fun e => h ((lineKey_inj e).symm)

theorem getGroup_modGroup_other {g g' : GroupId} (h : g' ≠ g) (f : Group → Group) (s : State) : getGroup (modGroup g f s) g' = getGroup s g' :=
  getGroup_modGroup_ne _ _ _ _ fun e => h ((groupKey_inj e).symm)

theorem getQueue_modQueue_other {q q' : QueueId} (h : q' ≠ q) (f : Queue → Queue) (s : State) : getQueue (modQueue q f s) q' = getQueue s q' :=
  getQueue_modQueue_ne _ _ _ _ fun e => h (BitVec.eq_of_toNat_eq e.symm)

theorem getFarrier_modFarrier_other {n n' : StallId} (h : n' ≠ n) (f : Farrier → Farrier) (s : State) : getFarrier (modFarrier n f s) n' = getFarrier s n' :=
  getFarrier_modFarrier_ne _ _ _ _ fun e => h (Fin.ext e.symm)

theorem getTrims_modTrims_other {n n' : StallId} (h : n' ≠ n) (f : Trims → Trims) (s : State) : getTrims (modTrims n f s) n' = getTrims s n' :=
  getTrims_modTrims_ne _ _ _ _ fun e => h (Fin.ext e.symm)

theorem getShotAudit_modShotAudit_other {n n' : StallId} (h : n' ≠ n) (f : ShotAudit → ShotAudit) (s : State) : getShotAudit (modShotAudit n f s) n' = getShotAudit s n' :=
  getShotAudit_modShotAudit_ne _ _ _ _ fun e => h (Fin.ext e.symm)

theorem getLane_modLane_other {k k' : LaneId} (h : k' ≠ k) (f : Lane → Lane) (s : State) : getLane (modLane k f s) k' = getLane s k' :=
  getLane_modLane_ne _ _ _ _ fun e => h (Fin.ext e.symm)

theorem getPort_modPort_other {p p' : Fin 2} (h : p' ≠ p) (f : EthPort → EthPort) (s : State) : getPort (modPort p f s) p' = getPort s p' :=
  getPort_modPort_ne _ _ _ _ fun e => h (Fin.ext e.symm)

theorem getDomain_modDomain_other {d d' : Fin 2} (h : d' ≠ d) (f : Domain → Domain) (s : State) : getDomain (modDomain d f s) d' = getDomain s d' :=
  getDomain_modDomain_ne _ _ _ _ fun e => h (Fin.ext e.symm)

theorem getPulse_modPulse_other {k k' : Fin 8} (h : k' ≠ k) (f : TimePulse → TimePulse) (s : State) : getPulse (modPulse k f s) k' = getPulse s k' :=
  getPulse_modPulse_ne _ _ _ _ fun e => h (Fin.ext e.symm)

theorem getWatch_modWatch_other {c c' : CmpId} (h : c' ≠ c) (f : Watch → Watch) (s : State) : getWatch (modWatch c f s) c' = getWatch s c' :=
  getWatch_modWatch_ne _ _ _ _ fun e => h ((cmpKey_inj e).symm)

theorem getHk_modHk_other {k k' : Fin 8} (h : k' ≠ k) (f : HkConv → HkConv) (s : State) : getHk (modHk k f s) k' = getHk s k' :=
  getHk_modHk_ne _ _ _ _ fun e => h (Fin.ext e.symm)

theorem getFunc_modFunc_other {f f' : Func} (h : f' ≠ f) (g : HostFunc → HostFunc) (s : State) : getFunc (modFunc f g s) f' = getFunc s f' :=
  getFunc_modFunc_ne _ _ _ _ fun e => h (Fin.ext e.symm)

theorem getIrq_modIrq_other {src src' : Nat} (h : src' ≠ src) (g : IrqSource → IrqSource) (s : State) : getIrq (modIrq src g s) src' = getIrq s src' :=
  getIrq_modIrq_ne _ _ _ _ fun e => h (e.symm)

theorem getFeed_modFeed_other {k k' : Nat} (h : k' ≠ k) (g : Feed → Feed) (s : State) : getFeed (modFeed k g s) k' = getFeed s k' :=
  getFeed_modFeed_ne _ _ _ _ fun e => h (e.symm)

end Sys2Proof.Machine
end

section
/-!
PROOFS. Stall commands that the stall's state or a halt in progress refuses (O14).
-/

namespace Sys2Proof.Machine

set_option Elab.async false

open Sys2Proof

/-! ## Refused stall commands (R57, R60) -/

/-- A halt that a fault began refuses every stall command (R60). -/
theorem stallCode_of_faultHalt {s : State} {n : StallId} (hf : (getStall s n).faultHalt = true) (halt permitted : Bool) :
    stallCode n halt permitted s = some 0x1D03 := by
  simp [stallCode, hf]

/-- A state that does not permit a command refuses it, where no command, load or halt of the stall is in progress (R57). -/
theorem stallCode_of_not_permitted {s : State} {n : StallId} (hf : (getStall s n).faultHalt = false) (hc : (getStall s n).cmd.isSome = false)
    (hl : loading s n = false) (halt : Bool) : stallCode n halt false s = some 0x1D01 := by
  simp [stallCode, hf, hc, hl]

/-- Settles O14: the code that refuses the command decides the refusal's whole effect (`stallCommand_refusal`). -/
theorem refusedStallCommandsLeaveTheStall : Obligations.RefusedStallCommandsLeaveTheStall := by
  intro s f n found hadm
  refine ⟨fun c hc hfault => ?_, fun hfault hcmd hload c hc => ?_⟩
  · have refusal (halt : Bool) (p : State → Bool) (eff : State → State) :=
      stallCommand_refusal (halt := halt) (p := p) hadm (stallCode_of_faultHalt hfault halt (p s)) eff
    simp only [List.mem_cons, List.not_mem_nil, or_false] at hc
    obtain rfl | rfl | rfl | rfl | rfl | rfl := hc
    · exact ⟨_, rfl, refusal _ _ (startPowerUp n found)⟩
    · exact ⟨_, rfl, refusal _ _ (startStall n)⟩
    · exact ⟨_, rfl, refusal _ _ (drainStall n)⟩
    · exact ⟨_, rfl, refusal _ _ (unloadStall n)⟩
    · exact ⟨_, rfl, refusal _ _ (powerDownStall n)⟩
    · exact ⟨_, rfl, refusal _ _ (haltCommand n)⟩
  · have refusal (halt : Bool) (p : State → Bool) (hp : p s = false) (eff : State → State) :=
      stallCommand_refusal (halt := halt) (p := p) hadm (hp ▸ stallCode_of_not_permitted hfault hcmd hload halt) eff
    obtain ⟨rfl, hlife⟩ | ⟨rfl, hlife⟩ | ⟨rfl, hlife⟩ | ⟨rfl, hlife⟩ | ⟨rfl, hlife⟩ | ⟨rfl, hlife⟩ := hc
    · exact ⟨_, rfl, refusal _ _ (by simp [hlife]) (startPowerUp n found)⟩
    · exact ⟨_, rfl, refusal _ _ (by simp [hlife]) (startStall n)⟩
    · exact ⟨_, rfl, refusal _ _ (by simp [hlife]) (drainStall n)⟩
    · exact ⟨_, rfl, refusal _ _ (by simp [hlife]) (unloadStall n)⟩
    · exact ⟨_, rfl, refusal _ _ (by simp [hlife]) (powerDownStall n)⟩
    · exact ⟨_, rfl, refusal _ _ (by simp [hlife]) (haltCommand n)⟩

end Sys2Proof.Machine
end

section
/-!
PROOFS. POWER_UP, START, UNLOAD and POWER_DOWN (O16).
-/

namespace Sys2Proof.Machine

set_option Elab.async false

open Sys2Proof

/-! ## POWER_UP (R57, R604) -/

/-- Loading the stud book sets of the CTL block only whether the factory trims hold (R49). -/
theorem life_loadStud (n : StallId) (a b : Bool) (s : State) : (getStall (loadStud n a b s) n).life = (getStall s n).life := by
  have trims (g : Trims → Trims) (h : Stud → Stud) (k : Stud → Stud) :
      getStall (modTrims n g (modStud n h (modStud n k s))) n = getStall s n :=
    (modTrims_changes (P := [.trims, .persist]) _ _ _ (by decide) (modStud_changes _ _ _ (by decide)
      (modStud_changes _ _ _ (by decide) (Changes.refl _ s)))).getStall n
  unfold loadStud
  dsimp only
  split
  · split <;> simp [trims]
  · simp [trims]

/-- The stud book and its errors are apart from the power domains. -/
theorem power_loadStud (n : StallId) (a b : Bool) (corrected doubles : Nat) (s : State) :
    (loadStud n a b (persistErrors corrected doubles s)).power = s.power :=
  (loadStud_changes (P := allBut .power) n a b _ (by decide) (persistErrors_changes _ _ _ (by decide) (Changes.refl _ s))).power

/-- A domain that is off waits to be switched on, by this command or by an earlier one. -/
theorem waitDomains_waits {lo n d : Nat} (now : Fine) (p : Power) (hlo : lo ≤ d) (hd : d < lo + n) (hoff : bit p.domOn d = false) :
    (waitDomains lo n now p).switchOn.contains d = true := by
  simp only [waitDomains, List.contains_eq_mem, List.mem_append, List.mem_filter, List.mem_map, List.mem_range, decide_eq_true_eq]
  by_cases h : d ∈ p.switchOn
  · exact .inl h
  · exact .inr ⟨⟨d - lo, by omega, by omega⟩, by simp [hoff, h]⟩

/-- A POWER_UP whose comparators pass leaves its stall OFF and powered, its command in progress, and its domains waiting (R604, R620). -/
theorem startPowerUp_of_passed {n : StallId} {found : PowerUpFound} (s : State) (h : found.comparators = 0) :
    (getStall (startPowerUp n found s) n).life = (getStall s n).life ∧ (getStall (startPowerUp n found s) n).cmd = some .powerUp ∧
    (getStall (startPowerUp n found s) n).op = opStart ∧ (getStall (startPowerUp n found s) n).powered = true ∧
    (startPowerUp n found s).power = waitDomains (30 * n.val + 1) 29 s.clock.now s.power ∧
    Changes [.funcs, .power, .persist, .stalls, .trims] s (startPowerUp n found s) := by
  have start (c d : Nat) : getStall (persistErrors c d (stallDomains n true s)) n = getStall s n :=
    (persistErrors_changes (P := [.funcs, .persist, .power]) _ _ _ (by decide) (stallDomains_changes _ _ _ (by decide) (Changes.refl _ s))).getStall n
  simp only [startPowerUp, h, if_true]
  refine ⟨?_, by simp, by simp, by simp, ?_, ?_⟩
  · simp only [getStall_modStall, life_loadStud, start]
  · simp only [(modStall_changes (P := [.stalls]) _ _ _ (by decide) (Changes.refl _ _)).power, power_loadStud]
    simp [stallDomains, setDomains]
  · exact modStall_changes _ _ _ (by decide) (loadStud_changes _ _ _ _ (by decide) (persistErrors_changes _ _ _ (by decide)
      (stallDomains_changes _ _ _ (by decide) (Changes.refl _ s))))

/-! ## START (Tables 01-9, 04-2) -/

/-- START releases the riders that the image marks, and no other (Table 01-9). -/
theorem getRider_startStall (n : StallId) (s : State) (r : RiderId) :
    getRider (startStall n s) r =
      if r.stall = n ∧ (riderBind s r).start = true then { getRider s r with release := true } else getRider s r := by
  have before : Changes (allBut .riders) s (setLife n .riding (modStall n (fun x => { x with fault := false }) s)) :=
    setLife_changes _ _ _ (by decide) (modStall_changes _ _ _ (by decide) (Changes.refl _ s))
  have image : Changes (allBut .stallImages) s (setLife n .riding (modStall n (fun x => { x with fault := false }) s)) :=
    setLife_changes _ _ _ (by decide) (modStall_changes _ _ _ (by decide) (Changes.refl _ s))
  have after (u : State) : Changes (allBut .riders) u (endStallOp n (opDone 0) (forEach (stallSlices n) openPort u)) :=
    endStallOp_changes _ _ _ (by decide) (forEach_changes _ _ _ (fun _ _ h => openPort_changes _ _ (by decide) h) (Changes.refl _ u))
  rw [startStall, (after _).getRider r]
  have each := forEach_keyed getRider (fun r s => if (riderBind s r).start then modRider r (fun x => { x with release := true }) s else s)
    (fun r x => if (riderBind s r).start = true then { x with release := true } else x) (fun u => u.stallImages = s.stallImages) ?keep ?same ?other
    (stallRiders n) (nodup_stallRiders n) (setLife n .riding (modStall n (fun x => { x with fault := false }) s)) image.stallImages r
  case keep => exact fun k u hu => by split <;> simp [hu]
  case same =>
    intro k u hu
    have bind : riderBind u k = riderBind s k := by simp only [riderBind, imageOf, hu]
    rw [bind]
    split <;> simp
  case other =>
    intro k j u _ hkj
    split
    · exact getRider_modRider_other hkj.symm _ _
    · rfl
  rw [each, before.getRider r]
  simp only [mem_stallRiders, ite_and]

theorem startStall_stall (n : StallId) (s : State) :
    getStall (startStall n s) n = { getStall s n with life := .riding, fault := false, cmd := none, op := opDone 0 } := by
  have ports (u : State) : getStall (forEach (stallSlices n) openPort u) n = getStall u n :=
    (forEach_changes (P := [.slices]) _ _ _ (fun _ _ h => openPort_changes _ _ (by decide) h) (Changes.refl _ u)).getStall n
  have riders (u : State) : getStall (forEach (stallRiders n)
      (fun r s => if (riderBind s r).start then modRider r (fun x => { x with release := true }) s else s) u) n = getStall u n :=
    (forEach_changes (P := [.riders]) _ _ _
      (fun _ _ h => Changes.ite (fun _ => modRider_changes _ _ _ (by decide) h) fun _ => h) (Changes.refl _ u)).getStall n
  simp [startStall, ports, riders]

/-! ## UNLOAD (Table 01-9) -/

/-- A discarded image leaves the table of images, and no other image with it. -/
theorem stallImages_discardImage (n : StallId) (s : State) : (discardImage n s).stallImages = tabDel s.stallImages n.val := by
  have before : Changes (allBut .stallImages) s
      (plainWatch n (linesSafe n (absentPorts n (endQueues n (endCaptures n (idleVoices n (leaveCal n s))))))) :=
    plainWatch_changes _ _ (by decide) (linesSafe_changes _ _ (by decide) (absentPorts_changes _ _ (by decide) (endQueues_changes _ _ (by decide)
      (endCaptures_changes _ _ (by decide) (idleVoices_changes _ _ (by decide) (leaveCal_changes _ _ (by decide) (Changes.refl _ s)))))))
  have after (u : State) : Changes (allBut .stallImages) u (modTrims n settledTrims (clearRecord n u)) :=
    modTrims_changes _ _ _ (by decide) (clearRecord_changes _ _ (by decide) (Changes.refl _ u))
  simp only [discardImage, modStall_keeps, (after _).stallImages, setStallImages, before.stallImages]

theorem hasImage_of_discarded {n : StallId} {s t : State} (h : t.stallImages = tabDel s.stallImages n.val) : hasImage t n = false := by
  rw [hasImage, h, tabFind_tabDel]
  rfl

theorem imageOf_of_discarded {n m : StallId} {s t : State} (h : t.stallImages = tabDel s.stallImages n.val) (hm : m ≠ n) :
    imageOf t m = imageOf s m := by
  rw [imageOf, h, tabGet, tabFind_tabDel_ne _ fun e => hm (Fin.ext e.symm)]
  rfl

theorem imageTag_discardImage (n : StallId) (s : State) : (getStall (discardImage n s) n).imageTag = 0 := by
  simp [discardImage]

theorem stallImages_unloadStall (n : StallId) (s : State) : (unloadStall n s).stallImages = tabDel s.stallImages n.val := by
  have after (u : State) : Changes (allBut .stallImages) u (endStallOp n (opDone 0) (toStabled n u)) :=
    endStallOp_changes _ _ _ (by decide) (toStabled_changes _ _ (by decide) (Changes.refl _ u))
  rw [unloadStall, (after _).stallImages, stallImages_discardImage]

/-! ## POWER_DOWN (R55) -/

/-- Every line of the stall goes toward its safe value, and no other line. -/
theorem getLine_linesSafe (n : StallId) (s : State) (l : LineId) :
    getLine (linesSafe n s) l = if l.stall = n then setGoal (stopGen (getLine s l)).safe (stopGen (getLine s l)) else getLine s l := by
  have each := forEach_keyed getLine (fun l s => goSafe l (modLine l stopGen s)) (fun _ x => setGoal (stopGen x).safe (stopGen x)) (fun _ => True)
    (fun _ _ _ => trivial) (fun k u _ => by simp [goSafe])
    (fun k j u _ hkj => by simp only [goSafe, getLine_modLine_other hkj.symm]) (stallLines n) (nodup_stallLines n) s trivial l
  simpa only [mem_stallLines, linesSafe] using each

/-- The ramps read the lines alone. -/
theorem getLine_linesSafe_modStall (n : StallId) (f : StallCtl → StallCtl) (s : State) (l : LineId) :
    getLine (linesSafe n (modStall n f s)) l = getLine (linesSafe n s) l := by
  have unchanged : getLine (modStall n f s) l = getLine s l := by simp only [getLine, modStall_keeps]
  simp only [getLine_linesSafe, unchanged]

theorem linesRest_linesSafe_modStall (n : StallId) (f : StallCtl → StallCtl) (s : State) :
    linesRest (linesSafe n (modStall n f s)) n = linesRest (linesSafe n s) n := by
  simp only [linesRest, getLine_linesSafe_modStall]

theorem getStall_linesSafe (n m : StallId) (s : State) : getStall (linesSafe n s) m = getStall s m :=
  (linesSafe_changes (P := [.lines]) n s (by decide) (Changes.refl _ s)).getStall m

/-- A stall whose lines hold their safe values is off at once; one whose lines ramp waits for them. -/
theorem powerDownStall_eq (n : StallId) (s : State) :
    powerDownStall n s =
      if linesRest (linesSafe n s) n = true then
        endStallOp n (opDone 0) (stallOff n (linesSafe n (modStall n (fun x => { x with cmd := some .powerDown, op := opStart }) s)))
      else linesSafe n (modStall n (fun x => { x with cmd := some .powerDown, op := opStart }) s) := by
  simp [powerDownStall, endPowerDown, getStall_linesSafe, linesRest_linesSafe_modStall]

/-- The part of `stallOff` before the domains go off. -/
def stallEmptied (n : StallId) (s : State) : State := forgetStall n (fastDown n (discardImage n (dropNode n (closePorts n s))))

theorem stallImages_stallEmptied (n : StallId) (s : State) : (stallEmptied n s).stallImages = tabDel s.stallImages n.val := by
  have after (u : State) : Changes (allBut .stallImages) u (forgetStall n (fastDown n u)) :=
    forgetStall_changes _ _ (by decide) (fastDown_changes _ _ (by decide) (Changes.refl _ u))
  have before : Changes (allBut .stallImages) s (dropNode n (closePorts n s)) :=
    dropNode_changes _ _ (by decide) (closePorts_changes _ _ (by decide) (Changes.refl _ s))
  rw [stallEmptied, (after _).stallImages, stallImages_discardImage, before.stallImages]

theorem stallEmptied_changes (n : StallId) (s : State) : Changes [.funcs, .irqs, .tack, .stallImages, .stalls, .slices, .acqs, .voices, .seqs, .chans, .units, .nodes, .cells, .books,
    .flights, .nextFlight, .hub, .riders, .lines, .fasts, .groups, .queues, .qdir, .farriers, .trims, .watches, .hbm, .library, .descs, .kernels, .store, .held,
    .latched] s (stallEmptied n s) :=
  forgetStall_changes _ _ (by decide) (fastDown_changes _ _ (by decide) (discardImage_changes _ _ (by decide)
    (dropNode_changes _ _ (by decide) (closePorts_changes _ _ (by decide) (Changes.refl _ s)))))

/-- What a stall's switched domains take with them when they go off (R55, R57). -/
theorem stallOff_effect (n : StallId) (s : State) :
    (getStall (stallOff n s) n).life = .off ∧ (getStall (stallOff n s) n).powered = false ∧
    (stallOff n s).stallImages = tabDel s.stallImages n.val ∧
    (stallOff n s).power = dropDomains (30 * n.val + 1) 29 s.clock.now s.power := by
  have last (u : State) (f : StallCtl → StallCtl) : Changes [.funcs, .irqs, .stalls, .nodes, .books, .flights, .nextFlight, .hub] u
      (setLife n .off (modStall n f u)) := setLife_changes _ _ _ (by decide) (modStall_changes _ _ _ (by decide) (Changes.refl _ u))
  have tack (u : State) (g : Gait → Gait) : Changes [.gaits, .tack] u
      (if (modGait n g u).tack.run = some (.loadStall n) ∧ 5 ≤ (modGait n g u).tack.phase then setTack (fun t => { t with lostTarget := true }) (modGait n g u)
        else modGait n g u) :=
    Changes.ite (fun _ => setTack_changes _ _ (by decide) (modGait_changes _ _ _ (by decide) (Changes.refl _ u)))
      fun _ => modGait_changes _ _ _ (by decide) (Changes.refl _ u)
  refine ⟨by simp [stallOff], by simp [stallOff], ?_, ?_⟩
  · rw [stallOff, (last _ _).stallImages, (tack _ _).stallImages]
    simp only [stallDomains, setDomains, setPower_keeps]
    exact stallImages_stallEmptied n s
  · rw [stallOff, (last _ _).power, (tack _ _).power]
    simp only [stallDomains, setDomains, setPower_power, Bool.false_eq_true, if_false]
    rw [show forgetStall n (fastDown n (discardImage n (dropNode n (closePorts n s)))) = stallEmptied n s from rfl,
      (stallEmptied_changes n s).power, (stallEmptied_changes n s).clock]

/-! ## The statement -/

/-- Settles O16, command by command. START enters RIDING and ends in the command itself (log entry 24, a reading of Table 01-9 that the model has chosen). -/
theorem stallCommandsTakeEffect : Obligations.StallCommandsTakeEffect := by
  intro s f n hadm hcode
  have accepted (p : State → Bool) (hp : p s = true) (eff : State → State) : stallCommand f n false p eff s = eff s :=
    stallCommand_accepted hadm hcode hp eff
  refine ⟨fun found hlife hrecovery hcmp => ?_, fun hlife => ?_, fun hlife => ?_, fun hlife hrest => ?_, fun hlife hrest => ?_⟩
  · obtain ⟨life, cmd, op, powered, power, frame⟩ := startPowerUp_of_passed (n := n) s hcmp
    refine ⟨_, congrArg Host.Outcome.next (accepted _ (by simp [hlife, hrecovery]) _), life.trans hlife, cmd, op, powered, power, ?_, ?_,
      (near_startPowerUp n found s (Near.refl n s)).other, frame.mono (by decide)⟩
    · rw [power]
      rfl
    · intro d hlo hhi hoff
      rw [power]
      exact waitDomains_waits _ _ (by omega) (by omega) hoff
  · have stall := startStall_stall n s
    exact ⟨_, congrArg Host.Outcome.next (accepted _ (by simp [hlife]) _), by rw [stall], by rw [stall], by rw [stall], by rw [stall],
      getRider_startStall n s, (near_startStall n s (Near.refl n s)).other, startStall_changes n s (by decide) (Changes.refl _ s)⟩
  · have images := stallImages_unloadStall n s
    exact ⟨_, congrArg Host.Outcome.next (accepted _ (by simp [hlife]) _), by simp [unloadStall], by simp [unloadStall], by simp [unloadStall],
      by simp [unloadStall, imageTag_discardImage], hasImage_of_discarded images, fun m hm => imageOf_of_discarded images hm,
      (near_unloadStall n s (Near.refl n s)).other, unloadStall_changes n s (by decide) (Changes.refl _ s)⟩
  · have marked : Changes [.stalls, .lines] s (linesSafe n (modStall n (fun x => { x with cmd := some .powerDown, op := opStart }) s)) :=
      linesSafe_changes _ _ (by decide) (modStall_changes _ _ _ (by decide) (Changes.refl _ s))
    obtain ⟨life, powered, images, power⟩ := stallOff_effect n (linesSafe n (modStall n (fun x => { x with cmd := some .powerDown, op := opStart }) s))
    have ends (u : State) : Changes [.irqs, .stalls, .funcs] u (endStallOp n (opDone 0) u) := endStallOp_changes _ _ _ (by decide) (Changes.refl _ u)
    refine ⟨_, congrArg Host.Outcome.next (accepted _ (by obtain h | h := hlife <;> simp [h]) _), ?_⟩
    rw [powerDownStall_eq, if_pos hrest]
    refine ⟨by simp [life], by simp, by simp, by simp [powered], hasImage_of_discarded (s := s) ?_, ?_, ?_, ?_⟩
    · rw [(ends _).stallImages, images, marked.stallImages]
    · rw [(ends _).power, power, marked.power]
      rfl
    · exact (near_endStallOp _ _ _ (near_stallOff _ _ (near_linesSafe _ _ (near_modStall _ _ _ (Near.refl n s))))).other
    · exact endStallOp_changes _ _ _ (by decide) (stallOff_changes _ _ (by decide) (marked.mono (by decide)))
  · refine ⟨_, congrArg Host.Outcome.next (accepted _ (by obtain h | h := hlife <;> simp [h]) _), ?_⟩
    rw [powerDownStall_eq, if_neg (by simp [hrest])]
    exact ⟨by simp [getStall_linesSafe], getLine_linesSafe_modStall n _ s,
      (near_linesSafe _ _ (near_modStall _ _ _ (Near.refl n s))).other,
      linesSafe_changes _ _ (by decide) (modStall_changes _ _ _ (by decide) (Changes.refl _ s))⟩

end Sys2Proof.Machine
end

section
/-!
PROOFS. DRAIN, HALT, fatal faults and the way to HARNESSED (O17).
-/

namespace Sys2Proof.Machine

set_option Elab.async false

open Sys2Proof

/-! ## The riders of a stall that is asked to stop (R383) -/

/-- A shot record changes no rider but the one whose shot it is. -/
theorem getRider_writeShot_other {r q : RiderId} (h : q ≠ r) (aborted : Bool) (e : Word64) (s : State) :
    getRider (writeShot r aborted e s) q = getRider s q := by
  unfold writeShot
  split
  · rfl
  · split
    · rw [(recordRider_changes (P := [.funcs]) _ _ _ (by decide) (Changes.refl _ _)).getRider, getRider_modRider_other h]
    · exact (issueWords_changes (P := [.queues]) _ _ _ _ _ (by decide) (Changes.refl _ s)).getRider q

theorem getRider_endShot_other {r q : RiderId} (h : q ≠ r) (aborted : Bool) (e : Word64) (s : State) :
    getRider (endShot r aborted e s) q = getRider s q := by
  have counted (u : State) (o : Owner) : getRider (countDrain r.stall aborted (feedShot r.stall o aborted u)) q = getRider u q :=
    (countDrain_changes (P := [.stalls, .feeds]) _ _ _ (by decide) (feedShot_changes _ _ _ _ (by decide) (Changes.refl _ u))).getRider q
  unfold endShot
  split
  · rw [counted, getRider_modRider_other h, getRider_writeShot_other h]
  · rfl

/-- What the stop of a rider does before its shot ends, it does to voices and windows. -/
theorem stopRider_voices {r : RiderId} {k : StopKind} {s : State} (running : (getRider s r).state ≠ .stopped) :
    ∃ u, Changes [.chans, .seqs] s u ∧
      stopRider r k s = modRider r (fun x =>
        { x with state := .stopped, stopPending := false, release := false, deadline := none, savedWait := none, inHandler := false,
                 forkVoice := none }) (endShot r true (schedOfFine (frameAtOrAfter u.clock.sched)) u) := by
  refine ⟨_, ?_, by rw [stopRider, if_neg running]⟩
  refine forEach_changes _ _ _ (fun v u h => dropSpent_changes _ _ _ (by decide) h)
    (forEach_changes _ _ _ (fun v u h => ?_) (discardOpens_changes _ _ _ (by decide) (Changes.refl _ s)))
  cases k
  · exact modSeq_changes _ _ _ (by decide) (goIdle_changes _ _ (by decide) h)
  · exact modSeq_changes _ _ _ (by decide) h

theorem getRider_stopRider_other {r q : RiderId} (h : q ≠ r) (k : StopKind) (s : State) : getRider (stopRider r k s) q = getRider s q := by
  by_cases stopped : (getRider s r).state = .stopped
  · rw [stopRider, if_pos stopped, getRider_modRider_other h]
  · obtain ⟨u, before, stop⟩ := stopRider_voices (k := k) stopped
    rw [stop, getRider_modRider_other h, getRider_endShot_other h, before.getRider]

theorem state_stopRider (r : RiderId) (k : StopKind) (s : State) : (getRider (stopRider r k s) r).state = .stopped := by
  by_cases stopped : (getRider s r).state = .stopped
  · simp [stopRider, stopped]
  · obtain ⟨u, -, stop⟩ := stopRider_voices (k := k) stopped
    simp [stop]

theorem getRider_askStop_other {r q : RiderId} (h : q ≠ r) (k : StopKind) (s : State) : getRider (askStop r k s) q = getRider s q := by
  unfold askStop
  split
  · exact getRider_modRider_other h _ _
  · exact getRider_modRider_other h _ _
  · exact getRider_stopRider_other h k s

/-- A running rider stops at its next boundary, and every other rider at once. -/
theorem state_askStop (r : RiderId) (k : StopKind) (s : State) :
    (getRider (askStop r k s) r).state = if (getRider s r).state = .running then .running else .stopped := by
  unfold askStop
  split
  · next h => simp [h]
  · next h => simp [h]
  · next _ h => rw [state_stopRider, if_neg h]

/-- The riders of a stall after each has been asked to stop. -/
theorem state_askedToStop (n : StallId) (k : StopKind) (s : State) (q : RiderId) :
    (getRider (forEach (stallRiders n) (fun r s => askStop r k s) s) q).state =
      if q.stall = n then (if (getRider s q).state = .running then .running else .stopped) else (getRider s q).state := by
  have each := forEach_keyed (fun s r => (getRider s r).state) (fun r s => askStop r k s) (fun _ x => if x = .running then .running else .stopped)
    (fun _ => True) (fun _ _ _ => trivial) (fun r u _ => state_askStop r k u)
    (fun r j u _ h => by simp only [getRider_askStop_other (Ne.symm h)]) (stallRiders n) (nodup_stallRiders n) s trivial q
  simpa only [mem_stallRiders] using each

theorem allStopped_iff (s : State) (n : StallId) : allStopped s n = true ↔ ∀ r : RiderId, r.stall = n → (getRider s r).state = .stopped := by
  simp only [allStopped, List.all_eq_true, beq_iff_eq, mem_stallRiders]

/-! ## DRAIN -/

/-- What a DRAIN leaves of its stall: RESTING, its command, and the count of the shots that run (R59, Table 01-13). -/
theorem drainStall_stall (n : StallId) (s : State) :
    (getStall (drainStall n s) n).life = .resting ∧ (getStall (drainStall n s) n).cmd = some .drain ∧
    (getStall (drainStall n s) n).op.state = .busy ∧ (getStall (drainStall n s) n).draining = true ∧
    (getStall (drainStall n s) n).drain.valid = true ∧ (getStall (drainStall n s) n).drain.atStart = shotsNow s n := by
  have shots (f : StallCtl → StallCtl) : shotsNow (modStall n f s) n = shotsNow s n := by simp only [shotsNow, getRider, modStall_keeps]
  have kept : Kept n _ (drainStall n s) := kept_forEach (stallRiders n) drainRider (fun r u => kept_drainRider r n u)
    (enterResting n (modStall n (fun x => { x with cmd := some .drain, op := opStart, draining := true, flushing := x.drainFlush, drainCode := 0 }) s))
  refine ⟨?_, ?_, ?_, ?_, ?_, ?_⟩
  · simp [kept.life, enterResting]
  · simp [kept.cmd, enterResting]
  · simp [kept.busy, enterResting, opStart]
  · simp [kept.draining, enterResting]
  · simp [kept.valid, enterResting]
  · simp [kept.atStart, enterResting, shots]

/-! ## HALT and fatal faults -/

/-- A halt turns a drain in progress into itself (R61). -/
theorem draining_haltStall (n : StallId) (s : State) : (getStall (haltStall n s) n).draining = false := by
  rw [(kept_haltMark_haltStall n n s).draining]
  simp [haltMark]

theorem fault_haltStall (n : StallId) (s : State) : (getStall (haltStall n s) n).fault = (getStall s n).fault := by
  rw [(kept_haltMark_haltStall n n s).fault]
  simp only [haltMark, getStall_modStall]
  split <;> simp [enterResting]

/-- A fatal fault marks its stall, and halts it where it rides or rests (R57, R60). -/
theorem fatalStall_stall {n : StallId} {s : State} (h : lifeOf n s ≠ .off) :
    (getStall (fatalStall n s) n).fault = true ∧
    (getStall (fatalStall n s) n).life = (if lifeOf n s = .riding then .resting else lifeOf n s) ∧
    (lifeOf n s = .riding ∨ lifeOf n s = .resting → (getStall (fatalStall n s) n).haltPending = true) := by
  have marked : getStall (raise (stallSource n) (record 0x3D06 n.val 0 0 0 (modStall n (fun x => { x with fault := true }) s))) n =
      { getStall s n with fault := true } := by simp
  have halts (u : State) (hu : (getStall u n).life = .riding ∨ (getStall u n).life = .resting) :
      (getStall (faultHaltStall n u) n).life = .resting ∧ (getStall (faultHaltStall n u) n).fault = (getStall u n).fault ∧
      (getStall (faultHaltStall n u) n).haltPending = true := by
    refine ⟨life_haltStall (by simpa [lifeOf] using hu), ?_, haltPending_haltStall n _⟩
    rw [faultHaltStall, fault_haltStall]
    simp
  rw [fatalStall, if_neg (show ¬ (getStall s n).life = .off from h)]
  dsimp only
  rw [marked]
  split
  · next hl =>
    obtain ⟨life, fault, pending⟩ := halts _ (.inl (by rw [marked]; exact hl))
    have rides : lifeOf n s = .riding := hl
    exact ⟨by rw [fault, marked], by rw [life, if_pos rides], fun _ => pending⟩
  · next hl =>
    obtain ⟨life, fault, pending⟩ := halts _ (.inr (by rw [marked]; exact hl))
    have rests : lifeOf n s = .resting := hl
    exact ⟨by rw [fault, marked], by rw [life, rests]; rfl, fun _ => pending⟩
  · next hriding hresting =>
    rw [marked]
    exact ⟨rfl, (if_neg hriding).symm, fun hl => absurd hl (not_or_intro hriding hresting)⟩

/-! ## The way to HARNESSED -/

/-- The last stop of a stall's riders ends the command in progress, with the code of a drain timeout (R57, R59, R63). -/
theorem toHarnessed_stall (n : StallId) (s : State) :
    (getStall (toHarnessed n s) n).life = .harnessed ∧ (getStall (toHarnessed n s) n).cmd = none ∧
    (getStall (toHarnessed n s) n).haltPending = false ∧ (getStall (toHarnessed n s) n).draining = false ∧
    (getStall (toHarnessed n s) n).drain.valid = false ∧
    ((getStall s n).op.state = .busy → (getStall s n).cmd.isSome = true → (getStall (toHarnessed n s) n).op = opDone (getStall s n).drainCode) := by
  unfold toHarnessed
  dsimp only
  split
  · simp only [getStall_endStallOp]
    split <;> simp
  · next h =>
    have idle : ¬ ((getStall s n).op.state = .busy ∧ (getStall s n).cmd.isSome = true) := h
    simp only [getStall_modStall]
    refine ⟨?_, trivial, ?_, ?_, ?_, fun busy cmd => absurd ⟨busy, cmd⟩ idle⟩ <;> split <;> simp

/-- A drain timeout ends the drain at once where every rider stands, and leaves it to the last boundary where one runs (R59). -/
theorem drainTimedOut_stall {n : StallId} {s : State} (rests : lifeOf n s = .resting) (drains : (getStall s n).draining = true) :
    ((∀ r : RiderId, r.stall = n → (getRider s r).state = .stopped) →
      (getStall (drainTimedOut n s) n).life = .harnessed ∧ (getStall (drainTimedOut n s) n).cmd = none) ∧
    ((∃ r : RiderId, r.stall = n ∧ (getRider s r).state = .running) → (getStall (drainTimedOut n s) n).life = .resting) := by
  rw [drainTimedOut, if_pos ⟨rests, drains⟩]
  dsimp only
  generalize hu : modStall n _ s = u
  have riders (q : RiderId) : getRider u q = getRider s q := by
    rw [← hu]
    exact (modStall_changes (P := [.stalls]) _ _ _ (by decide) (Changes.refl _ s)).getRider q
  have asked (q : RiderId) (hq : q.stall = n) :
      (getRider (forEach (stallRiders n) (fun r s => askStop r .other s) u) q).state =
        if (getRider s q).state = .running then .running else .stopped := by
    rw [state_askedToStop, if_pos hq, riders]
  refine ⟨fun all => ?_, fun ⟨r, hr, runs⟩ => ?_⟩
  · rw [if_pos ((allStopped_iff _ n).2 fun q hq => by rw [asked q hq, all q hq]; rfl)]
    obtain ⟨life, cmd, -⟩ := toHarnessed_stall n (forEach (stallRiders n) (fun r s => askStop r .other s) u)
    exact ⟨life, cmd⟩
  · rw [if_neg fun all => ?_]
    · rw [(kept_forEach (stallRiders n) (fun r s => askStop r .other s) (fun r u => kept_askStop r .other n u) u).life, ← hu, getStall_modStall]
      exact rests
    · have := (allStopped_iff _ n).1 all r hr
      rw [asked r hr, if_pos runs] at this
      cases this

/-! ## The statement -/

/-- Settles O17: each clause is the effect of its operation on the stall, with the loops over riders and voices set aside by `Kept`. -/
theorem stallRestsAndHalts : Obligations.StallRestsAndHalts := by
  refine ⟨fun s f n hadm hcode hlife => ?_, fun s f n hadm hcode hlife => ?_, fun s n code object hlife => ?_, fun s n hlife hstop => ?_,
    fun s n hlife hdrain => ?_⟩
  · obtain ⟨life, cmd, busy, draining, valid, atStart⟩ := drainStall_stall n s
    exact ⟨_, congrArg Host.Outcome.next (stallCommand_accepted hadm hcode (by simp [hlife]) _), life, cmd, busy, draining, valid, atStart,
      (near_drainStall n s (Near.refl n s)).other, drainStall_changes n s (by decide) (Changes.refl _ s)⟩
  · obtain ⟨life, cmd, pending⟩ := haltCommand_effect hlife
    exact ⟨_, congrArg Host.Outcome.next (stallCommand_accepted hadm hcode (by simpa using hlife) _), life, cmd, pending,
      draining_haltStall n _, (near_haltCommand n s (Near.refl n s)).other, haltCommand_changes n s (by decide) (Changes.refl _ s)⟩
  · have logged : Changes [.funcs] s (if code = 0x3D06 ∨ lifeOf n s = .off then s else record code n.val 0 object 0 s) :=
      Changes.ite (fun _ => Changes.refl _ s) fun _ => record_changes _ _ _ _ _ _ (by decide) (Changes.refl _ s)
    have same := logged.getStall n
    have life_same : lifeOf n (if code = 0x3D06 ∨ lifeOf n s = .off then s else record code n.val 0 object 0 s) = lifeOf n s := congrArg StallCtl.life same
    obtain ⟨fault, life, pending⟩ := fatalStall_stall (life_same ▸ hlife)
    rw [life_same] at life pending
    exact ⟨_, rfl, fault, life, pending, (near_fatalStall n _ (near_of (Near.refl n s) logged (by decide))).other,
      fatalStall_changes n _ (by decide) (logged.mono (by decide))⟩
  · obtain ⟨life, cmd, pending, draining, valid, op⟩ := toHarnessed_stall n s
    exact ⟨_, congrArg Host.Outcome.next (if_pos ⟨hlife, hstop⟩), life, cmd, pending, draining, valid, op,
      (near_toHarnessed n s (Near.refl n s)).other, toHarnessed_changes n s (by decide) (Changes.refl _ s)⟩
  · obtain ⟨stopped, running⟩ := drainTimedOut_stall hlife hdrain
    exact ⟨_, rfl, stopped, running, (near_drainTimedOut n s (Near.refl n s)).other, drainTimedOut_changes n s (by decide) (Changes.refl _ s)⟩

end Sys2Proof.Machine
end

section
/-!
PROOFS. The end of a POWER_UP, and a loss of power (O18).
-/

namespace Sys2Proof.Machine

set_option Elab.async false

open Sys2Proof

/-! ## A stall that no bring-up has in hand (R632, R633) -/

theorem bringOn_of_not_bringing {n : StallId} {s : State} (h : s.power.bringing ≠ some n) (up : Bool) (bring : Tab PowerUpFound) :
    bringOn n up bring s = s := if_neg h

theorem bringAligned_of_not_bringing {n : StallId} {s : State} (h : s.power.bringing ≠ some n) (bring : Tab PowerUpFound) :
    bringAligned n bring s = s := by
  have notDue : ¬ flashImageDue n s = true := by simp [flashImageDue, h]
  rw [bringAligned, if_neg notDue, bringOn_of_not_bringing h]

/-- Switching domains leaves the bring-up in hand. -/
theorem bringing_stallOff (n : StallId) (s : State) : (stallOff n s).power.bringing = s.power.bringing := by
  rw [(stallOff_effect n s).2.2.2]
  rfl

/-- An aligned stall that no bring-up has in hand reaches STABLED, and its POWER_UP ends (Table 01-9). -/
theorem aligned_eq {n : StallId} {s : State} (h : s.power.bringing ≠ some n) (cmd : (getStall s n).cmd = some .powerUp)
    (on : domainWaits s (30 * n.val + 1) 29 = false) (bring : Tab PowerUpFound) :
    aligned n bring s = endStallOp n (opDone 0) (toStabled n (modStall n (fun x => { x with frameLocked := true, fault := false }) s)) := by
  have frame : Changes (allBut .power) s (endStallOp n (opDone 0) (toStabled n (modStall n (fun x => { x with frameLocked := true, fault := false }) s))) :=
    endStallOp_changes _ _ _ (by decide) (toStabled_changes _ _ (by decide) (modStall_changes _ _ _ (by decide) (Changes.refl _ s)))
  rw [aligned, if_pos ⟨cmd, by simp [on]⟩]
  exact bringAligned_of_not_bringing (by rw [frame.power]; exact h) bring

/-- A stall that does not align goes off, and its POWER_UP fails (Table 01-9). -/
theorem notAligned_eq {n : StallId} {s : State} (h : s.power.bringing ≠ some n) (cmd : (getStall s n).cmd = some .powerUp) (bring : Tab PowerUpFound) :
    notAligned n bring s = endStallOp n (opEnd .failed 0x2D05 (getStall s n).op) (record 0x2D05 n.val 0 0 0 (stallOff n s)) := by
  have frame (u : State) (op : OpStatus) : Changes (allBut .power) u (endStallOp n op (record 0x2D05 n.val 0 0 0 u)) :=
    endStallOp_changes _ _ _ (by decide) (record_changes _ _ _ _ _ _ (by decide) (Changes.refl _ u))
  rw [notAligned, if_pos cmd]
  exact bringOn_of_not_bringing (by rw [(frame _ _).power, bringing_stallOff]; exact h) false bring

/-- A stall that loses power, before any bring-up is told. -/
def powerLost (n : StallId) (s : State) : State :=
  let u := record 0x3D07 n.val 0 0 0 (modStall n (fun x => { x with fault := true }) (stallOff n s))
  if (getStall s n).cmd.isSome then endStallOp n (opEnd .failed 0x3D07 (getStall s n).op) u else u

theorem powerLost_frame (n : StallId) (s : State) : Changes [.funcs, .irqs, .stalls] (stallOff n s) (powerLost n s) :=
  have lost := record_changes 0x3D07 n.val 0 0 0 (modStall n (fun x => { x with fault := true }) (stallOff n s)) (by decide)
    (modStall_changes _ _ _ (by decide) (Changes.refl [.funcs, .irqs, .stalls] (stallOff n s)))
  Changes.ite (fun _ => endStallOp_changes _ _ _ (by decide) lost) fun _ => lost

theorem near_powerLost (n : StallId) (s : State) : Near n s (powerLost n s) :=
  have lost := near_record 0x3D07 n.val 0 0 0 _ (near_modStall n (fun x => { x with fault := true }) _ (near_stallOff n s (Near.refl n s)))
  Near.ite (fun _ => near_endStallOp n _ _ lost) fun _ => lost

theorem losePower_eq {n : StallId} {s : State} (h : s.power.bringing ≠ some n) (on : lifeOf n s ≠ .off) (bring : Tab PowerUpFound) :
    losePower n bring s = powerLost n s := by
  have bringing : (powerLost n s).power.bringing ≠ some n := by rw [(powerLost_frame n s).power, bringing_stallOff]; exact h
  rw [losePower, if_neg on]
  exact (ite_congr rfl (fun _ => rfl) fun _ => bringOn_of_not_bringing bringing false bring).trans (ite_self _)

/-- What the loss of its domains leaves of a stall (Table 01-9): off, faulty, its command ended. -/
theorem powerLost_stall (n : StallId) (s : State) :
    (getStall (powerLost n s) n).life = .off ∧ (getStall (powerLost n s) n).fault = true ∧ (getStall (powerLost n s) n).powered = false ∧
    ((getStall s n).cmd.isSome = true → (getStall (powerLost n s) n).cmd = none) := by
  obtain ⟨life, powered, -⟩ := stallOff_effect n s
  unfold powerLost
  dsimp only
  split
  · simp [life, powered]
  · next idle => simp [life, powered, idle]

/-- Settles O18: with no bring-up in hand, the end of a POWER_UP and a loss of power are those of the stall alone. -/
theorem stallPowerUpEnds : Obligations.StallPowerUpEnds := by
  intro s n bring idle
  refine ⟨fun cmd on => ?_, fun cmd => ?_, fun domain on => ?_⟩
  · refine ⟨_, rfl, ?_⟩
    rw [aligned_eq idle cmd on]
    refine ⟨by simp, by simp, by simp, by simp, by simp, ?_, ?_⟩
    · exact (near_endStallOp _ _ _ (near_toStabled _ _ (near_modStall _ _ _ (Near.refl n s)))).other
    · exact endStallOp_changes _ _ _ (by decide) (toStabled_changes _ _ (by decide) (modStall_changes _ _ _ (by decide) (Changes.refl _ s)))
  · obtain ⟨life, powered, -⟩ := stallOff_effect n s
    refine ⟨_, rfl, ?_⟩
    rw [notAligned_eq idle cmd]
    refine ⟨by simp [life], by simp [powered], by simp, by simp [opEnd], ?_, ?_⟩
    · exact (near_endStallOp _ _ _ (near_record _ _ _ _ _ _ (near_stallOff _ _ (Near.refl n s)))).other
    · exact endStallOp_changes _ _ _ (by decide) (record_changes _ _ _ _ _ _ (by decide) (stallOff_changes _ _ (by decide) (Changes.refl _ s)))
  · have dropped : Changes [.power] s (setDomains domain.toNat 1 false s) := setDomains_changes _ _ _ _ (by decide) (Changes.refl _ s)
    have same := dropped.getStall n
    have still_on : lifeOf n (setDomains domain.toNat 1 false s) ≠ .off := by rw [lifeOf, same]; exact on
    obtain ⟨life, fault, powered, cmd⟩ := powerLost_stall n (setDomains domain.toNat 1 false s)
    refine ⟨_, congrArg Host.Outcome.next (congrArg (losePower n bring) (if_neg on)), ?_⟩
    rw [losePower_eq (s := setDomains domain.toNat 1 false s) idle still_on]
    refine ⟨life, fault, powered, same ▸ cmd, ?_, ?_⟩
    · exact ((near_of (Near.refl n s) dropped (by decide)).trans (near_powerLost n _)).other
    · exact (stallOff_changes _ _ (by decide) (dropped.mono (by decide))).trans ((powerLost_frame n _).mono (by decide))

end Sys2Proof.Machine
end

section
/-!
PROOFS. The spares: takeover, release, switch, silence, forced takeover (O19).
-/

namespace Sys2Proof.Machine

set_option Elab.async false

open Sys2Proof

/-! ## The spares of a stall -/

@[simp] theorem spareOf_modSpare (n : StallId) (k : SliceKind) (f : Spare → Spare) (s : State) :
    spareOf (getStall (modSpare n k f s) n) k = f (spareOf (getStall s n) k) := by
  cases k <;> simp [modSpare, spareOf]

@[simp] theorem spareReq_modSpare (n : StallId) (k : SliceKind) (f : Spare → Spare) (s : State) :
    (getStall (modSpare n k f s) n).spareReq = (getStall s n).spareReq := by
  cases k <;> simp [modSpare]

@[simp] theorem spareOp_modSpare (n : StallId) (k : SliceKind) (f : Spare → Spare) (s : State) :
    (getStall (modSpare n k f s) n).spareOp = (getStall s n).spareOp := by
  cases k <;> simp [modSpare]

/-- The end of a spare operation leaves every spare as it was. -/
@[simp] theorem spareOf_endSpareOp (n : StallId) (op : OpStatus) (s : State) (k : SliceKind) :
    spareOf (getStall (endSpareOp n op s) n) k = spareOf (getStall s n) k := by
  rw [getStall_endSpareOp]
  cases k <;> rfl

@[simp] theorem getStall_restage (i : SliceId) (s : State) (n : StallId) : getStall (restage i s) n = getStall s n :=
  (restage_changes (P := [.voices]) i s (by decide) (Changes.refl _ s)).getStall n

@[simp] theorem getStall_markSliceShots (i : SliceId) (s : State) (n : StallId) : getStall (markSliceShots i s) n = getStall s n :=
  (markSliceShots_changes (P := [.chans, .units, .riders]) i s (by decide) (Changes.refl _ s)).getStall n

@[simp] theorem getStall_setSliceFault (i : SliceId) (s : State) (n : StallId) : getStall (setSliceFault i s) n = getStall s n :=
  (setSliceFault_changes (P := [.slices, .acqs]) i s (by decide) (Changes.refl _ s)).getStall n

@[simp] theorem getStall_openPort (i : SliceId) (s : State) (n : StallId) : getStall (openPort i s) n = getStall s n :=
  (openPort_changes (P := [.slices]) i s (by decide) (Changes.refl _ s)).getStall n

@[simp] theorem getStall_faultBit (i : SliceId) (s : State) (n : StallId) : getStall (faultBit i s) n = getStall s n :=
  (faultBit_changes (P := [.slices, .acqs]) i s (by decide) (Changes.refl _ s)).getStall n

/-! ## Commands of a spare (R50 to R52) -/

/-- A takeover that no Farrier run stands against begins its switch (R42). -/
theorem requestTakeover_stall {f : Func} {n : StallId} {k : SliceKind} {target : BitVec 4} {s : State} (h : (spareOf (getStall s n) k).use ≠ .farrier) :
    (spareOf (getStall (requestTakeover f n k target s) n) k).use = .switching ∧
    (spareOf (getStall (requestTakeover f n k target s) n) k).target = target ∧
    (getStall (requestTakeover f n k target s) n).spareOp = opStart ∧
    (getStall (requestTakeover f n k target s) n).spareReq = some { kind := k, target := some target, func := f, at_ := s.clock.now } := by
  simp [requestTakeover, h]

/-- A release of a spare that replaces a slice begins its switch; one of an idle spare is done at once (R42). -/
theorem requestRelease_stall (f : Func) (n : StallId) (k : SliceKind) (s : State) :
    ((spareOf (getStall s n) k).use = .replacing →
      (spareOf (getStall (requestRelease f n k s) n) k).use = .switching ∧ (getStall (requestRelease f n k s) n).spareOp = opStart ∧
      (getStall (requestRelease f n k s) n).spareReq = some { kind := k, target := none, func := f, at_ := s.clock.now }) ∧
    ((spareOf (getStall s n) k).use ≠ .replacing → (getStall (requestRelease f n k s) n).spareOp = opDone 0) := by
  refine ⟨fun h => ?_, fun h => ?_⟩
  · simp [requestRelease, h]
  · simp [requestRelease, h]

/-! ## The switch and the silence that it waits for (R42, R43) -/

theorem spareSwitch_eq {n : StallId} {k : SliceKind} {s : State} {r : SpareReq} {i : SliceId} (req : (getStall s n).spareReq = some r)
    (kind : r.kind = k) (free : r.waitsFarrier = false) (use : (spareOf (getStall s n) k).use = .switching)
    (target : targetOfSpare n k (spareOf (getStall s n) k) = some i) (silent : sliceSilent s i = true) :
    spareSwitch n k s = endSpareOp n (opDone 0) (restage i (modSpare n k (fun x =>
      if r.target.isSome then { x with use := .replacing, served := x.target } else { x with use := .idle, target := 0xF, leaving := false }) s)) := by
  simp [spareSwitch, req, kind, free, use, target, silent]

theorem spareTimeout_eq {n : StallId} {k : SliceKind} {s : State} {r : SpareReq} (req : (getStall s n).spareReq = some r)
    (kind : r.kind = k) (free : r.waitsFarrier = false) :
    ∃ op, op.state = .failed ∧ op.code = spareCode 0x2003 k ∧ spareTimeout n k s = endSpareOp n op (record (spareCode 0x2003 k) n.val 0 0 0
      (modSpare n k (fun x => if x.use = .farrier then x else if r.target.isSome then { x with use := .idle, target := 0xF }
        else { x with use := .replacing, leaving := false }) s)) := by
  refine ⟨opEnd .failed (spareCode 0x2003 k) (getStall s n).spareOp, rfl, rfl, ?_⟩
  simp [spareTimeout, req, kind, free]

/-! ## Converter faults of a drive slice (R40, R44) -/

/-- A drive slice shares its key with no other slice. -/
theorem sliceKey_drive_inj {i j : SliceId} (hk : i.kind = .drive) (h : sliceKey i = sliceKey j) : j = i := by
  obtain ⟨⟨n, hn⟩, k, ⟨a, ha⟩⟩ := i
  obtain ⟨⟨m, hm⟩, l, ⟨b, hb⟩⟩ := j
  cases hk
  cases l <;> simp only [sliceKey, SliceId.mk.injEq, Fin.mk.injEq, true_and, reduceCtorEq, false_and, and_false] at h ⊢ <;> omega

/-- Of a stall the end of a calibration wakes the request that waits for it, and no more (R52). -/
theorem abortCal_stall (n : StallId) (which : Calib → Bool) (s : State) :
    ∃ q, getStall (abortCal n which s) n = { getStall s n with spareReq := q } := by
  have stopped (op : OpStatus) : ∃ q, getStall (stopCal n op s) n = { getStall s n with spareReq := q } := by
    have frame (u : State) (f : Farrier → Farrier) : getStall (raise (farrierSource n) (modFarrier n f u)) n = getStall u n :=
      (raise_changes (P := [.irqs, .funcs, .farriers]) _ _ (by decide) (modFarrier_changes _ _ _ (by decide) (Changes.refl _ u))).getStall n
    exact ⟨_, (frame _ _).trans (getStall_modStall n _ s)⟩
  unfold abortCal
  dsimp only
  split
  · obtain ⟨q, stop⟩ := stopped (opEnd .aborted 0x0902 (getFarrier s n).op)
    refine ⟨q, ?_⟩
    have logged (u : State) : Changes [.funcs, .farriers] u (if (getStall (record 0x0902 n.val 0 0 0 u) n).spareAcq.use = .farrier then
        modFarrier n (fun x => { x with cal := { x.cal with returning := true } }) (record 0x0902 n.val 0 0 0 u) else record 0x0902 n.val 0 0 0 u) :=
      Changes.ite (fun _ => modFarrier_changes _ _ _ (by decide) (record_changes _ _ _ _ _ _ (by decide) (Changes.refl _ u)))
        fun _ => record_changes _ _ _ _ _ _ (by decide) (Changes.refl _ u)
    exact ((logged _).getStall n).trans stop
  · exact ⟨_, rfl⟩

/-- What a fault finds of a slice that is no spare, after a calibration on it has ended. -/
theorem calFault_drive {i : SliceId} (hk : i.kind = .drive) (s : State) :
    (∃ q, getStall (calFault i s) i.stall = { getStall s i.stall with spareReq := q }) ∧
    Changes [.funcs, .irqs, .stalls, .farriers] s (calFault i s) := by
  have h : calFault i s = abortCal i.stall (calStruck i) s := if_neg fun e => by rw [hk] at e; cases e.1
  exact h ▸ ⟨abortCal_stall _ _ s, abortCal_changes _ _ s (by decide) (Changes.refl _ s)⟩

theorem isSpare_drive {i : SliceId} (hk : i.kind = .drive) (hi : i.idx.val < 8) : isSpare i = false := by
  simp only [isSpare, hk, beq_eq_false_iff_ne]
  omega

/-- A converter fault of a drive slice that is no spare, with the calibration on it out of the way. -/
theorem converterFault_drive {i : SliceId} {s : State} (hk : i.kind = .drive) (hi : i.idx.val < 8) (on : lifeOf i.stall s ≠ .off) :
    converterFault i s =
      if carried s i then faultBit i (calFault i s)
      else if autoPermitted s i.stall .drive ∧ permitted s i.stall .drive (BitVec.ofNat 4 i.idx.val) ∧ spareFree (getStall s i.stall).spareDrive
      then beginForced i (markSliceShots i (setSliceFault i (calFault i s)))
      else noSpare i (markSliceShots i (setSliceFault i (calFault i s))) := by
  obtain ⟨⟨q, stall⟩, frame⟩ := calFault_drive hk s
  have carried_same : carried (calFault i s) i = carried s i := by simp only [carried, stall, hk, spareOf]
  have served : servedBy (calFault i s) i = none := by simp [servedBy, isSpare_drive hk hi]
  have marked : Changes [.funcs, .irqs, .stalls, .farriers, .slices, .acqs, .chans, .units, .riders] s (markSliceShots i (setSliceFault i (calFault i s))) :=
    markSliceShots_changes _ _ (by decide) (setSliceFault_changes _ _ (by decide) (frame.mono (by decide)))
  have spare : (getStall (markSliceShots i (setSliceFault i (calFault i s))) i.stall).spareDrive = (getStall s i.stall).spareDrive := by simp [stall]
  rw [converterFault, if_neg (show ¬ ((getStall s i.stall).life = .off ∨ (!sliceExists i) = true) by simpa [sliceExists, hk, lifeOf] using on)]
  simp only [served, isSpare_drive hk hi, carried_same, Bool.false_eq_true, if_false]
  refine if_congr Iff.rfl rfl (if_congr ?_ rfl rfl)
  simp only [autoPermitted, permitted, marked.imageOf, hk, spareOf, spare]

/-- The port of a faulted drive slice is terminated (R44). -/
theorem getSlice_setSliceFault {i : SliceId} (hk : i.kind = .drive) (s : State) :
    (getSlice (setSliceFault i s) i).fault = true ∧ (getSlice (setSliceFault i s) i).port = .terminated := by
  simp [setSliceFault, faultBit, hk, closePort]

/-- A forced takeover points the spare of the kind at the faulted slice (R44). -/
theorem beginForced_spare {i : SliceId} (hk : i.kind = .drive) (s : State) :
    (getStall (beginForced i s) i.stall).spareDrive.use = .switching ∧ (getStall (beginForced i s) i.stall).spareDrive.forced = true ∧
    (getStall (beginForced i s) i.stall).spareDrive.target = BitVec.ofNat 4 i.idx.val := by
  have pointed : (getStall (beginForced i s) i.stall).spareDrive = spareOf (getStall (beginForced i s) i.stall) i.kind := by rw [hk]; rfl
  rw [pointed]
  simp [beginForced]

/-! ## The end of a forced takeover (R44, R196) -/

theorem forcedComplete_spare {n : StallId} {k : SliceKind} {s : State} (forced : (spareOf (getStall s n) k).forced = true)
    (use : (spareOf (getStall s n) k).use = .switching) :
    (spareOf (getStall (forcedComplete n k s) n) k).use = .replacing ∧
    (spareOf (getStall (forcedComplete n k s) n) k).served = (spareOf (getStall s n) k).target := by
  have taken : getStall (forcedComplete n k s) n = getStall (modSpare n k (fun x => { x with use := .replacing, served := x.target }) s) n := by
    simp only [forcedComplete, forced, use, and_self, if_true]
    split
    · split <;> simp
    · rfl
  rw [taken]
  simp

/-! ## The statement -/

/-- Settles O19. A release that meets no silence fails, and the spare goes on replacing (log entry 148); a release of a spare that replaces nothing
ends done (log entry 28): both are the model's choice. -/
theorem sparesStandForSlices : Obligations.SparesStandForSlices := by
  refine ⟨fun s f n k target hadm hcode hfarrier => ?takeover, fun s f n k hadm hcode => ?release, fun s n k r i hreq hkind hfree huse htarget hsilent => ?switch,
    fun s n k r hreq hkind hfree => ?timeout, fun s i hk hi hon hcarried hauto hperm hspare => ?forced, fun s i hk hi hon hcarried => ?carried,
    fun s n k hforced huse => ?complete⟩
  case takeover =>
    obtain ⟨use, aim, op, req⟩ := requestTakeover_stall (f := f) (target := target) hfarrier
    exact ⟨_, congrArg Host.Outcome.next (spareCommand_accepted hadm hcode _), use, aim, op, req,
      (near_requestTakeover f n k target s (Near.refl n s)).other, requestTakeover_changes f n k target s (by decide) (Changes.refl _ s)⟩
  case release =>
    obtain ⟨replacing, idle⟩ := requestRelease_stall f n k s
    exact ⟨_, congrArg Host.Outcome.next (spareCommand_accepted hadm hcode _), replacing, idle,
      (near_requestRelease f n k s (Near.refl n s)).other, requestRelease_changes f n k s (by decide) (Changes.refl _ s)⟩
  case switch =>
    have switched := spareSwitch_eq hreq hkind hfree huse htarget hsilent
    have spare := congrArg (fun t => spareOf (getStall t n) k) switched
    simp only [spareOf_endSpareOp, getStall_restage, spareOf_modSpare] at spare
    refine ⟨_, rfl, fun taking => ?_, fun leaving => ?_, ?_, ?_, (near_spareSwitch n k s (Near.refl n s)).other,
      spareSwitch_changes n k s (by decide) (Changes.refl _ s)⟩
    · simp [spare, taking]
    · simp [spare, leaving]
    · simp [switched]
    · simp [switched]
  case timeout =>
    obtain ⟨op, failed, code, timeout⟩ := spareTimeout_eq hreq hkind hfree
    have spare := congrArg (fun t => spareOf (getStall t n) k) timeout
    simp only [spareOf_endSpareOp, getStall_record, spareOf_modSpare] at spare
    refine ⟨_, rfl, fun farrier => ?_, fun other taking => ?_, fun other leaving => ?_, ?_, ?_, ?_, (near_spareTimeout n k s (Near.refl n s)).other,
      spareTimeout_changes n k s (by decide) (Changes.refl _ s)⟩
    · rw [spare, if_pos farrier]
    · simp [spare, other, taking]
    · simp [spare, other, leaving]
    · simp [timeout]
    · simp [timeout, failed]
    · simp [timeout, code]
  case forced =>
    have begins : converterFault i s = beginForced i (markSliceShots i (setSliceFault i (calFault i s))) := by
      rw [converterFault_drive hk hi hon, if_neg (by simp [hcarried]), if_pos ⟨hauto, hperm, hspare⟩]
    have after (u : State) : Changes (allBut .slices) u (beginForced i (markSliceShots i u)) :=
      beginForced_changes _ _ (by decide) (markSliceShots_changes _ _ (by decide) (Changes.refl _ u))
    obtain ⟨fault, port⟩ := getSlice_setSliceFault hk (calFault i s)
    obtain ⟨use, forced, target⟩ := beginForced_spare hk (markSliceShots i (setSliceFault i (calFault i s)))
    refine ⟨_, rfl, ?_, ?_, ?_, ?_, ?_, (near_converterFault i s (Near.refl i.stall s)).other, converterFault_changes i s (by decide) (Changes.refl _ s)⟩
    · rw [begins, (after _).getSlice]; exact fault
    · rw [begins, (after _).getSlice]; exact port
    · rw [begins]; exact use
    · rw [begins]; exact forced
    · rw [begins]; exact target
  case carried =>
    have plays : converterFault i s = modSlice i (fun x => { x with fault := true }) (calFault i s) := by
      rw [converterFault_drive hk hi hon, if_pos hcarried]
      simp only [faultBit, hk]
    have frame := (calFault_drive hk s).2
    refine ⟨_, rfl, ?_, fun j hj => ?_, fun v => ?_, (near_converterFault i s (Near.refl i.stall s)).other, converterFault_changes i s (by decide) (Changes.refl _ s)⟩
    · rw [plays, getSlice_modSlice, frame.getSlice]
    · rw [plays, getSlice_modSlice_ne _ _ _ _ fun e => hj (sliceKey_drive_inj hk e), frame.getSlice]
    · rw [plays, (modSlice_changes (P := [.slices]) _ _ _ (by decide) (Changes.refl _ _)).getVoice, frame.getVoice]
  case complete =>
    obtain ⟨use, served⟩ := forcedComplete_spare hforced huse
    exact ⟨_, rfl, use, served, (near_forcedComplete n k s (Near.refl n s)).other, forcedComplete_changes n k s (by decide) (Changes.refl _ s)⟩

end Sys2Proof.Machine
end

section
/-!
PROOFS. Gates and pace monitors: where the statement fails (O20).
-/

namespace Sys2Proof.Machine

set_option Elab.async false

open Sys2Proof

/-- A probe spare whose target register names a probe slice that Table 00-3 does not have. -/
def strayProbeSpare : State := { State.reset with stalls := [(0, { spareProbe := { use := .replacing, target := 5 } })] }

/-- Refutes O20: the sixth probe slice, which Table 00-3 does not have, has the key of the first acquisition slice in the table of slices. Where a
spare's target names it, an empty gate of the spare writes the entry that reads as the acquisition slice. -/
theorem not_gatesAndPaceMonitorsCount : ¬ Obligations.GatesAndPaceMonitorsCount := by
  intro h
  obtain ⟨t, answer, -, -, others, -⟩ := h.1 strayProbeSpare ⟨0, .probe, 4⟩ 1 (by decide) (by decide)
  have same := others ⟨0, .acq, 0⟩ (by decide)
  have plays : exec (.dacGateUnderrun (.dac ⟨0, .probe, 4⟩) 1) strayProbeSpare = .next (dacEmpty ⟨0, .probe, 4⟩ 1 strayProbeSpare) := rfl
  rw [plays] at answer
  cases answer
  exact absurd (congrArg Slice.zeroTo same) (by decide)

end Sys2Proof.Machine
end

section
/-!
PROOFS. Trot forks at the latch point: where the statement fails (O21).
-/

namespace Sys2Proof.Machine

set_option Elab.async false

open Sys2Proof

/-- An entry of the physical function's log. -/
def logEntryOf (code : Code) (source : LogSource) : LogEntry :=
  { number := 0, code, owner := 0, stall := 0, rep := 0, at_ := 0, latest := 0, object := 0, aux := 0, func := 0xFF, source }

/-- A full log whose oldest entry is a missed fork of voice V00 of stall 0. -/
def fullLog : List LogEntry := List.replicate 511 (logEntryOf 1 (.device 8 0)) ++ [logEntryOf 0x3206 (.device 0 (voiceObject ⟨0, false, 0⟩))]

/-- A voice outside a HOLD whose Trot fork has no token, and whose rider, FORKED on it, is at a word that returns from an empty call stack. -/
def missedAtReturn : State :=
  { State.reset with
    funcs := [(0, { log := fullLog })]
    seqs := [(0, { fork := some { rider := 0, input := 0, gait := .trot, cond := 0, anchor := none, deadline := 0, release := 0 } })]
    riders := [(0, { state := .forked })]
    store := [(0, 0x3000)] }

/-- Refutes O21: the missed fork enters the log by a merge into its oldest entry (R697), and the fault that its FORK word meets on the empty call stack pushes
that entry out of the 512 (R696), so the log does not hold 0x3206 after the step. -/
theorem not_trotForksKeepTheirTime : ¬ Obligations.TrotForksKeepTheirTime := by
  intro h
  obtain ⟨-, -, missed⟩ := h.1 missedAtReturn ⟨0, false, 0⟩
    { rider := 0, input := 0, gait := .trot, cond := 0, anchor := none, deadline := 0, release := 0 } rfl rfl rfl rfl rfl
  obtain ⟨t, answer, -, held, -⟩ := missed (by decide)
  have latch : latchPoint ⟨0, false, 0⟩ missedAtReturn = t := Host.Outcome.next.inj answer
  rw [← latch] at held
  exact absurd held (by decide +kernel)

end Sys2Proof.Machine
end

section
/-!
PROOFS. What the start of a segment and the words of a stream leave of the sequencers.
-/

namespace Sys2Proof.Machine

set_option Elab.async false

open Sys2Proof

/-! ## What a stream moves of a voice's sequencer -/

/-- Of the sequencers only that of `v` differs, and of it only its stream: buffers, backlog, discards and underruns. -/
structure StreamMoved (v : VoiceId) (s t : State) : Prop where
  other : ∀ w, w ≠ v → getSeq t w = getSeq s w
  own : getSeq t v = { getSeq s v with
    play := (getSeq t v).play, ahead := (getSeq t v).ahead, backlog := (getSeq t v).backlog, discarded := (getSeq t v).discarded
    under := (getSeq t v).under, events := (getSeq t v).events }

namespace StreamMoved

variable {v : VoiceId} {s t u : State}

theorem refl (v : VoiceId) (s : State) : StreamMoved v s s := ⟨fun _ _ => rfl, rfl⟩

theorem trans (h : StreamMoved v s t) (k : StreamMoved v t u) : StreamMoved v s u :=
  ⟨fun w hw => (k.other w hw).trans (h.other w hw), by have := k.own; rw [h.own] at this; exact this⟩

theorem of_changes {P : List Part} (h : Changes P s t) (hp : P.contains .seqs = false := by decide) : StreamMoved v s t :=
  ⟨fun w _ => h.getSeq w hp, by rw [h.getSeq v hp]⟩

theorem of_modSeq (f : Seq → Seq) (s : State) (hf : ∀ q, f q = { q with
    play := (f q).play, ahead := (f q).ahead, backlog := (f q).backlog, discarded := (f q).discarded, under := (f q).under, events := (f q).events }) :
    StreamMoved v s (modSeq v f s) :=
  ⟨fun _ hw => getSeq_modSeq_other hw f s, by rw [getSeq_modSeq]; exact hf _⟩

theorem state (h : StreamMoved v s t) : (getSeq t v).state = (getSeq s v).state := by rw [h.own]
theorem cur (h : StreamMoved v s t) : (getSeq t v).cur = (getSeq s v).cur := by rw [h.own]
theorem desc (h : StreamMoved v s t) : (getSeq t v).desc = (getSeq s v).desc := by rw [h.own]
theorem segTime (h : StreamMoved v s t) : (getSeq t v).segTime = (getSeq s v).segTime := by rw [h.own]
theorem waitOn (h : StreamMoved v s t) : (getSeq t v).waitOn = (getSeq s v).waitOn := by rw [h.own]
theorem fork (h : StreamMoved v s t) : (getSeq t v).fork = (getSeq s v).fork := by rw [h.own]
theorem rep (h : StreamMoved v s t) : (getSeq t v).rep = (getSeq s v).rep := by rw [h.own]

end StreamMoved

theorem discardBacklog_moves (v : VoiceId) (id : QueueId) (s : State) : StreamMoved v s (discardBacklog v id s) := by
  unfold discardBacklog
  refine StreamMoved.trans (t := (streamTake v id (backlogOf (getSeq s v) id) s).2)
    (.of_changes (streamTake_changes (P := [.queues, .qdir]) v id _ s (by decide) (Changes.refl _ s))) ?_
  exact StreamMoved.of_modSeq _ _ fun _ => rfl

theorem fillBuf_moves (v : VoiceId) (n : Nat) (b : StreamBuf) (s : State) : StreamMoved v s (fillBuf v n b s).2 := by
  unfold fillBuf
  dsimp only
  split
  · exact (discardBacklog_moves v _ s).trans (.of_changes (streamTake_changes (P := [.queues, .qdir]) v _ _ _ (by decide) (Changes.refl _ _)))
  · exact discardBacklog_moves v _ s

theorem fillPlay_moves (v : VoiceId) (s : State) : StreamMoved v s (fillPlay v s) :=
  (fillBuf_moves v _ _ s).trans (StreamMoved.of_modSeq _ _ fun _ => rfl)

theorem beginUnderrun_moves (v : VoiceId) (s : State) : StreamMoved v s (beginUnderrun v s) := by
  refine (StreamMoved.of_modSeq (fun q => { q with under := true, events := satInc q.events }) s fun _ => rfl).trans ?_
  exact .of_changes (markVoice_changes (P := [.riders, .funcs]) _ _ _ (by decide) (recordVoice_changes _ _ _ (by decide) (Changes.refl _ _)))

theorem startStream_moves (v : VoiceId) (d : Desc) (s : State) : StreamMoved v s (startStream v d s) := by
  have filled : StreamMoved v s (fillPlay v (modSeq v (fun q => { q with play := q.ahead.getD (freshBuf d), ahead := none }) s)) :=
    (StreamMoved.of_modSeq _ s fun _ => rfl).trans (fillPlay_moves v _)
  unfold startStream
  dsimp only
  split
  · exact filled.trans (beginUnderrun_moves v _)
  · exact filled

/-! ## A segment that starts -/

/-- Refilling the chain is all that the end of a start does to a sequencer. -/
theorem refill_eq (s : State) (v : VoiceId) (q : Seq) : refill s v q = { q with prim := (refill s v q).prim } := by
  unfold refill
  split
  · split
    · dsimp only
      split <;> rfl
    · rfl
  · rfl

/-- A segment has started, but for the words of its stream and its chain. -/
def segmentBegun (v : VoiceId) (p : PortSeg) (at_ : Fine) (s : State) : State :=
  modSeq v (fun q =>
    { countDiscard q.play.words.length q with
      state := kindState p.desc, cur := p.idx, desc := p.desc, head := p.head, segTime := at_, rep := 0, beat := 0, waitOn := none
      brkAt := if q.sel.any (fun x => x.1 = .break_) then breakRep p.desc at_ (max at_ q.selAt) else none
      under := false, play := {} }) (tuneVoice v s)

/-- What a start leaves of the sequencers beside what `segmentBegun` says: the stream's words and the chain of its own. -/
theorem startSegment_eq (v : VoiceId) (p : PortSeg) (at_ : Fine) (s : State) :
    ∃ u, StreamMoved v (segmentBegun v p at_ s) u ∧ startSegment v p at_ s = modSeq v (refill u v) u := by
  refine ⟨if isStream p.desc then startStream v p.desc (segmentBegun v p at_ s) else segmentBegun v p at_ s, ?_, rfl⟩
  split
  · exact startStream_moves v p.desc _
  · exact StreamMoved.refl v _

theorem getSeq_tuneVoice (v w : VoiceId) (s : State) : getSeq (tuneVoice v s) w = getSeq s w :=
  (tuneVoice_changes (P := [.voices, .chans, .units, .riders, .trims]) v s (by decide) (Changes.refl _ s)).getSeq w

/-- What a voice plays once a segment has started (R167, R211). -/
theorem startSegment_seq (v : VoiceId) (p : PortSeg) (at_ : Fine) (s : State) :
    (getSeq (startSegment v p at_ s) v).state = kindState p.desc ∧ (getSeq (startSegment v p at_ s) v).cur = p.idx ∧
    (getSeq (startSegment v p at_ s) v).desc = p.desc ∧ (getSeq (startSegment v p at_ s) v).segTime = at_ ∧
    (getSeq (startSegment v p at_ s) v).waitOn = none ∧ (getSeq (startSegment v p at_ s) v).rep = 0 ∧
    (getSeq (startSegment v p at_ s) v).fork = (getSeq s v).fork := by
  obtain ⟨u, moved, started⟩ := startSegment_eq v p at_ s
  have own : getSeq (startSegment v p at_ s) v = { getSeq u v with prim := (refill u v (getSeq u v)).prim } := by
    rw [started, getSeq_modSeq]
    exact refill_eq u v _
  have begun := getSeq_modSeq v (fun q : Seq =>
    { countDiscard q.play.words.length q with
      state := kindState p.desc, cur := p.idx, desc := p.desc, head := p.head, segTime := at_, rep := 0, beat := 0, waitOn := none
      brkAt := if q.sel.any (fun x => x.1 = .break_) then breakRep p.desc at_ (max at_ q.selAt) else none
      under := false, play := {} }) (tuneVoice v s)
  rw [getSeq_tuneVoice] at begun
  rw [own]
  exact ⟨moved.state.trans (congrArg Seq.state begun), moved.cur.trans (congrArg Seq.cur begun), moved.desc.trans (congrArg Seq.desc begun),
    moved.segTime.trans (congrArg Seq.segTime begun), moved.waitOn.trans (congrArg Seq.waitOn begun), moved.rep.trans (congrArg Seq.rep begun),
    moved.fork.trans (congrArg Seq.fork begun :)⟩

theorem startSegment_other {v w : VoiceId} (h : w ≠ v) (p : PortSeg) (at_ : Fine) (s : State) :
    getSeq (startSegment v p at_ s) w = getSeq s w := by
  obtain ⟨u, moved, started⟩ := startSegment_eq v p at_ s
  rw [started, getSeq_modSeq_other h, moved.other w h, segmentBegun, getSeq_modSeq_other h, getSeq_tuneVoice]

end Sys2Proof.Machine
end

section
/-!
PROOFS. Trot forks on time, and the start of their successors (O22).
-/

namespace Sys2Proof.Machine

set_option Elab.async false

open Sys2Proof

/-! ## A fork on time at its latch point (R91, R400) -/

/-- A Trot fork that is on time latches, and nothing else changes. -/
theorem latchPoint_of_timely {s : State} {v : VoiceId} {fk : Fork} (hfork : (getSeq s v).fork = some fk) (hgait : fk.gait = .trot)
    (hopen : fk.latched = false) (harmed : fk.disarmed = false) (hspent : (getSeq s v).spent = []) (hhold : (getSeq s v).state = .hold)
    (hready : fk.chosen = some false ∨ (fk.chosen = some true ∧ altReady (getSeq s v) = true)) :
    latchPoint v s = modSeq v (fun q => { q with fork := some { fk with latched := true } }) s := by
  have unspent : spentDue (getSeq s v) = none := by simp [spentDue, hspent]
  have timely : ¬ (fk.chosen = none ∨ (fk.chosen = some true ∧ (!altReady (getSeq s v)) = true)) := by
    obtain h | ⟨h, ready⟩ := hready
    · simp [h]
    · simp [h, ready]
  simp only [latchPoint, unspent, hfork]
  rw [if_pos ⟨hgait, by simp [hopen], by simp [harmed]⟩, if_neg (by simp [hhold]), if_neg timely]

/-! ## The port that a fork takes (R229, R231) -/

theorem portHead_fork (q : Seq) (w : WaitPort) (x : Option Fork) : portHead { q with fork := x } w = portHead q w := by
  cases w <;> rfl

theorem leavePort_fork (p : PortSeg) (q : Seq) (w : WaitPort) : (leavePort p q w).fork = q.fork := by
  cases w with
  | primary => rfl
  | alternate =>
    simp only [leavePort, newChain]
    split <;> rfl
  | branch k =>
    simp only [leavePort, newChain]
    split <;> rfl

theorem takePort_other {v x : VoiceId} (h : x ≠ v) (w : WaitPort) (at_ : Fine) (s : State) : getSeq (takePort v w at_ s) x = getSeq s x := by
  have missing (u : State) : getSeq (portMissing v u) x = getSeq u x :=
    (portMissing_changes (P := [.funcs, .riders]) v u (by decide) (Changes.refl _ u)).getSeq x
  unfold takePort
  split
  · rw [goIdle, getSeq_modSeq_other h, missing]
  · split
    · rw [missing, getSeq_modSeq_other h]
    · rw [startSegment_other h, getSeq_modSeq_other h]

/-- A READY port goes into play at its instant. -/
theorem takePort_ready {v : VoiceId} {w : WaitPort} {p : PortSeg} {s : State} (head : portHead (getSeq s v) w = some p) (ready : p.state = .ready)
    (at_ : Fine) : takePort v w at_ s = startSegment v p at_ (modSeq v (fun q => leavePort p q w) s) := by
  simp [takePort, head, ready]

/-- A LOADING port keeps its voice waiting. -/
theorem takePort_loading {v : VoiceId} {w : WaitPort} {p : PortSeg} {s : State} (head : portHead (getSeq s v) w = some p) (loading : p.state = .loading)
    (at_ : Fine) :
    (getSeq (takePort v w at_ s) v).state = .waiting ∧ (getSeq (takePort v w at_ s) v).waitOn = some w ∧
    (getSeq (takePort v w at_ s) v).segTime = at_ ∧ (getSeq (takePort v w at_ s) v).fork = (getSeq s v).fork := by
  have missing (u : State) : getSeq (portMissing v u) v = getSeq u v :=
    (portMissing_changes (P := [.funcs, .riders]) v u (by decide) (Changes.refl _ u)).getSeq v
  simp [takePort, head, loading, missing, countDiscard]

/-- Between two states the sequencers of the other voices and the port that `v` is to take are the same. -/
structure PortKept (v : VoiceId) (w : WaitPort) (s t : State) : Prop where
  other : ∀ x, x ≠ v → getSeq t x = getSeq s x
  port : portHead (getSeq t v) w = portHead (getSeq s v) w

namespace PortKept

variable {v : VoiceId} {w : WaitPort} {s t u : State}

theorem trans (h : PortKept v w s t) (k : PortKept v w t u) : PortKept v w s u :=
  ⟨fun x hx => (k.other x hx).trans (h.other x hx), k.port.trans h.port⟩

theorem of_changes {P : List Part} (h : Changes P s t) (hp : P.contains .seqs = false := by decide) : PortKept v w s t :=
  ⟨fun x _ => h.getSeq x hp, by rw [h.getSeq v hp]⟩

theorem of_modSeq (f : Seq → Seq) (s : State) (hf : ∀ q, portHead (f q) w = portHead q w) : PortKept v w s (modSeq v f s) :=
  ⟨fun _ hx => getSeq_modSeq_other hx f s, by rw [getSeq_modSeq]; exact hf _⟩

theorem ite {c : Prop} [Decidable c] (ht : PortKept v w s t) (hu : PortKept v w s u) : PortKept v w s (if c then t else u) := by
  split
  · exact ht
  · exact hu

end PortKept

theorem portKept_setLead (v : VoiceId) (w : WaitPort) (gait : GaitKind) (s : State) : PortKept v w s (setLead v gait s) := by
  unfold setLead
  split
  · exact .of_modSeq _ s fun q => by cases w <;> rfl
  · exact (PortKept.of_modSeq _ s fun q => by cases w <;> rfl).trans
      (.of_changes (freshen_changes (P := [.freeCtr]) _ (by decide) (Changes.refl _ _)))

/-- A selection that a fork holds leaves the ports (R233). -/
theorem portKept_holdSelection (v : VoiceId) (w : WaitPort) (s : State) : PortKept v w s (holdSelection v s) := by
  unfold holdSelection
  split
  · exact (PortKept.of_modSeq _ s fun q => by cases w <;> rfl).trans (.of_changes (countVoice_changes (P := [.voices]) _ _ (by decide) (Changes.refl _ _)))
  · exact ⟨fun _ _ => rfl, rfl⟩

theorem portHead_promote (q : Seq) (w : WaitPort) : portHead (promote q) w = portHead q w := by
  unfold promote
  split <;> cases w <;> rfl

/-- The state in which the end of a fork takes the port: its flags have settled, the release has counted, and the fork has left its voice. -/
def forkEnded (v : VoiceId) (fk : Fork) (alt : Bool) (at_ : Fine) (s : State) : State :=
  let s := settleFork v fk alt (fk.late || fk.missed) s
  let waits := decide (((portHead (getSeq s v) (if alt then .alternate else .primary)).map (·.state)) = some .loading)
  let s := if fk.disarmed ∨ fk.missed then s else setLead v fk.gait s
  modSeq v (fun q => { q with fork := none }) (if fk.disarmed ∨ waits then s else countFork v fk at_ s)

theorem portKept_forkEnded (v : VoiceId) (fk : Fork) (alt : Bool) (at_ : Fine) (w : WaitPort) (s : State) : PortKept v w s (forkEnded v fk alt at_ s) := by
  have settled : PortKept v w s (settleFork v fk alt (fk.late || fk.missed) s) :=
    .of_changes (settleFork_changes (P := [.riders]) v fk alt (fk.late || fk.missed) s (by decide) (Changes.refl _ s))
  have led (c : Prop) [Decidable c] (u : State) : PortKept v w u (if c then u else setLead v fk.gait u) :=
    .ite ⟨fun _ _ => rfl, rfl⟩ (portKept_setLead v w fk.gait u)
  have counted (c : Prop) [Decidable c] (u : State) : PortKept v w u (if c then u else countFork v fk at_ u) :=
    .ite ⟨fun _ _ => rfl, rfl⟩ (.of_changes (countFork_changes (P := [.riders]) _ _ _ _ (by decide) (Changes.refl _ u)))
  exact ((settled.trans (led _ _)).trans (counted _ _)).trans (.of_modSeq _ _ fun q => portHead_fork q w none)

/-- The end of an armed fork takes its port, and owes the release where the port is still LOADING (R229, R112). -/
theorem endFork_takes {v : VoiceId} {fk : Fork} (armed : fk.disarmed = false) {w : WaitPort} {alt : Bool} (hw : w = if alt then .alternate else .primary)
    (at_ : Fine) (s : State) :
    endFork v fk alt at_ s =
      if (portHead (getSeq s v) w).map (·.state) = some .loading
        then modSeq v (fun q => { q with owed := some fk }) (takePort v w at_ (forkEnded v fk alt at_ s))
      else takePort v w at_ (forkEnded v fk alt at_ s) := by
  subst hw
  have settled := settleFork_changes (P := [.riders]) v fk alt (fk.late || fk.missed) s (by decide) (Changes.refl _ s)
  simp only [endFork, forkEnded, armed, settled.getSeq v, Bool.not_false, and_true, decide_eq_true_eq]

/-- Settles O22: a timely fork latches and does no more; at the release `endFork` takes the port that the token chose, READY or LOADING. -/
theorem trotForksLatchAndTheirSuccessorsStart : Obligations.TrotForksLatchAndTheirSuccessorsStart := by
  refine ⟨fun s v fk hfork hgait hopen harmed hspent hhold hready => ?_, fun s v fk w p hfork hgait hlatched hmissed harmed hhold hw hport => ?_⟩
  · have latched := latchPoint_of_timely hfork hgait hopen harmed hspent hhold hready
    refine ⟨_, congrArg Host.Outcome.next latched, ?_, getSeq_modSeq _ _ _, fun w hw => getSeq_modSeq_other hw _ _,
      modSeq_changes _ _ _ (by decide) (Changes.refl _ s)⟩
    rw [getSeq_modSeq]
  · have kept : PortKept v w s (modSeq v promote (holdSelection v s)) :=
      (portKept_holdSelection v w s).trans (.of_modSeq _ _ fun q => portHead_promote q w)
    have ends := endFork_takes (v := v) (alt := decide (fk.chosen = some true)) harmed (by simpa using hw) fk.release (modSeq v promote (holdSelection v s))
    have left := portKept_forkEnded v fk (decide (fk.chosen = some true)) fk.release w (modSeq v promote (holdSelection v s))
    have fork : (getSeq (forkEnded v fk (decide (fk.chosen = some true)) fk.release (modSeq v promote (holdSelection v s))) v).fork = none := by
      rw [forkEnded, getSeq_modSeq]
    have released : trotRelease v s = endFork v fk (decide (fk.chosen = some true)) fk.release (modSeq v promote (holdSelection v s)) := by
      simp only [trotRelease, hfork]
      rw [if_pos ⟨hgait, hlatched, by simp [hmissed], by simp [harmed]⟩, if_pos hhold]
    have port := (kept.trans left).port.trans hport
    rw [kept.port, hport] at ends
    have frame := trotRelease_changes (P := [.funcs, .voices, .seqs, .chans, .units, .riders, .queues, .qdir, .trims, .freeCtr]) v s (by decide) (Changes.refl _ s)
    refine ⟨_, rfl, ?_⟩
    rw [released, ends] at frame ⊢
    cases hstate : p.state with
    | ready =>
      rw [if_neg (by simp [hstate])] at frame ⊢
      have started := takePort_ready port hstate fk.release
      obtain ⟨state, cur, desc, segTime, waitOn, -, forkKept⟩ := startSegment_seq v p fk.release (modSeq v (fun q => leavePort p q w)
        (forkEnded v fk (decide (fk.chosen = some true)) fk.release (modSeq v promote (holdSelection v s))))
      refine ⟨?_, ?_, fun _ => ?_, fun h => (by cases h), fun x hx => ?_, frame⟩
      · rw [started, forkKept, getSeq_modSeq, leavePort_fork, fork]
      · rw [started, segTime]
      · rw [started]
        exact ⟨cur, desc, state, waitOn⟩
      · rw [takePort_other hx, (kept.trans left).other x hx]
    | loading =>
      rw [if_pos (by simp [hstate])] at frame ⊢
      obtain ⟨state, waitOn, segTime, forkKept⟩ := takePort_loading port hstate fk.release
      refine ⟨?_, ?_, fun h => (by cases h), fun _ => ?_, fun x hx => ?_, frame⟩
      · rw [getSeq_modSeq]; exact forkKept.trans fork
      · rw [getSeq_modSeq]; exact segTime
      · rw [getSeq_modSeq]; exact ⟨state, waitOn, rfl⟩
      · rw [getSeq_modSeq_other hx, takePort_other hx, (kept.trans left).other x hx]

end Sys2Proof.Machine
end

section
/-!
PROOFS. Loads and checks of an image: their beginning, their flaws, ABORT (O23).
-/

namespace Sys2Proof.Machine

set_option Elab.async false

open Sys2Proof

/-! ## Interrupts leave the logs (R699) -/

theorem log_modFunc (f : Func) (g : HostFunc → HostFunc) (h : Func) (s : State) (hg : ∀ x, (g x).log = x.log) :
    (getFunc (modFunc f g s) h).log = (getFunc s h).log := by
  by_cases e : h = f
  · rw [e, getFunc_modFunc, hg]
  · rw [getFunc_modFunc_other e]

theorem log_deliver (src : Nat) (f : Func) (e : Nat) (h : Func) (s : State) : (getFunc (deliver src f e s) h).log = (getFunc s h).log := by
  have source (i : IrqSource → IrqSource) (u : State) : getFunc (modIrq src i u) h = getFunc u h :=
    (modIrq_changes (P := [.irqs]) _ _ _ (by decide) (Changes.refl _ u)).getFunc h
  unfold deliver
  dsimp only
  split
  · exact log_modFunc _ _ h s fun _ => rfl
  · split
    · rw [source]
      exact log_modFunc _ _ h s fun _ => rfl
    · rw [source]
      exact log_modFunc _ _ h s fun _ => rfl

theorem log_raise (src : Nat) (h : Func) (s : State) : (getFunc (raise src s) h).log = (getFunc s h).log := by
  have source (i : IrqSource → IrqSource) (u : State) : getFunc (modIrq src i u) h = getFunc u h :=
    (modIrq_changes (P := [.irqs]) _ _ _ (by decide) (Changes.refl _ u)).getFunc h
  unfold raise
  split
  · rfl
  · dsimp only
    split
    · exact log_modFunc _ _ h s fun _ => rfl
    · split
      · rfl
      · split
        · split
          · rw [source]
          · exact log_deliver _ _ _ _ _
        · exact log_deliver _ _ _ _ _

/-- An interrupt enters no code into a log. -/
@[simp] theorem noted_raise (src : Nat) (h : Func) (code : Code) (s : State) : noted (raise src s) h code = noted s h code := by
  rw [noted, log_raise, noted]

/-- What leaves the functions alone enters no code into a log. -/
theorem Changes.noted {P : List Part} {s t : State} (h : Changes P s t) (f : Func) (code : Code) (hp : P.contains .funcs = false := by decide) :
    noted t f code = noted s f code := by
  simp only [Machine.noted, h.getFunc f hp]

/-! ## The end of an operation of the loader (R157, R701, R705) -/

/-- Where no image comes from the flash and no bring-up is in hand, nothing follows an operation of the loader. -/
theorem afterTack_idle {s : State} (boot : s.power.phase ≠ .boot 5) (bringing : s.power.bringing = none) (run : Option TackOp) (up : Bool)
    (bring : Tab PowerUpFound) : afterTack false run up bring s = s := by
  simp [afterTack, boot, bringing]

theorem endTack_tack (op : OpStatus) (s : State) :
    (endTack op s).tack = { s.tack with run := none, op, partialValid := false, phase := 0, body := none, lostTarget := false } := by
  simp [endTack]

theorem failTack_idle {s : State} (flash : s.tack.flash = false) (boot : s.power.phase ≠ .boot 5) (bringing : s.power.bringing = none) (st : OpState)
    (code : Code) (object aux : Word) (bring : Tab PowerUpFound) :
    failTack st code object aux bring s = endTack (opEnd st code s.tack.op) (record code 8 0 object aux s) := by
  have frame : Changes (allBut .power) s (endTack (opEnd st code s.tack.op) (record code 8 0 object aux s)) :=
    endTack_changes _ _ (by decide) (record_changes _ _ _ _ _ _ (by decide) (Changes.refl _ s))
  simp only [failTack, flash]
  exact afterTack_idle (by rw [frame.power]; exact boot) (by rw [frame.power]; exact bringing) _ _ _

/-- What an operation that fails or is aborted leaves of the loader and of the log. -/
theorem failTack_effect {s : State} (flash : s.tack.flash = false) (boot : s.power.phase ≠ .boot 5) (bringing : s.power.bringing = none) (st : OpState)
    (code : Code) (object aux : Word) (bring : Tab PowerUpFound) :
    (failTack st code object aux bring s).tack =
      { s.tack with run := none, op := opEnd st code s.tack.op, partialValid := false, phase := 0, body := none, lostTarget := false } ∧
    noted (failTack st code object aux bring s) 0 code = true ∧ Changes [.funcs, .irqs, .tack] s (failTack st code object aux bring s) := by
  rw [failTack_idle flash boot bringing]
  refine ⟨?_, ?_, endTack_changes _ _ (by decide) (record_changes _ _ _ _ _ _ (by decide) (Changes.refl _ s))⟩
  · simp [endTack_tack]
  · rw [endTack, noted_raise, (setTack_changes (P := [.tack]) _ _ (by decide) (Changes.refl _ _)).noted, noted_record]

/-! ## The beginning of a load or check (R144, R145) -/

/-- An accepted load or check, as it stands in the loader. -/
def begunLoad (f : Func) (op : TackOp) (slot : SlotId) (s : State) (t : Tack) : Tack :=
  { t with
    run := some op, slot, flash := false, len := slotLen s slot, fits := stateFits op s, func := some f, op := opStart, partialValid := true, phase := 1
    sectionsDone := 0, sectionAt := 0, sectionsTotal := 0, faultObj := 0, faultAux := 0, lostTarget := false, body := none }

theorem loadCommand_eq {s : State} {f : Func} {op : TackOp} (slot : SlotId) (hadm : admitsSpine s f (.tack .cmd) = true) (free : s.tack.run = none)
    (permitted : s.power.recovery = false ∨ ∃ n, op = .check n) : loadCommand f op slot s = setTack (begunLoad f op slot s) s := by
  rw [loadCommand, spineCommand_of_admits hadm _ (by simp [loadCode, free])]
  obtain normal | ⟨n, rfl⟩ := permitted
  · simp [startLoad, normal]
    rfl
  · simp [startLoad]
    rfl

/-! ## The end of phases 1 to 4 (R136, R140, R143, R145) -/

theorem checksEnd_of_tackChecksEnd {s : State} {op : TackOp} {c : ImageChecks} (run : s.tack.run = some op) (phase : s.tack.phase < 5)
    (fits : checksFit s op c = true) (bring : Tab PowerUpFound) : exec (.tackChecksEnd c bring) s = .next (checksEnd op c bring s) := by
  show execTackChecksEnd c bring s = _
  simp [execTackChecksEnd, run, Nat.not_le.mpr phase, fits]

/-- What a flaw writes into the loader before its operation fails. -/
def flawNoted (fl : Flaw) (s : State) (t : Tack) : Tack :=
  { t with
    faultObj := fl.object, faultAux := BitVec.ofNat 32 (fl.aux.getD fl.section_), sectionAt := BitVec.ofNat 8 fl.section_
    sectionsDone := if fl.phase < 3 then 0 else BitVec.ofNat 8 fl.section_
    sectionsTotal := if fl.phase = 1 then 0 else BitVec.ofNat 8 (readHeader s).sections.toNat
    op := { t.op with progress := max t.op.progress (flawProgress (readHeader s) fl) } }

/-- A refused image leaves its flaw in TACK_FAULT_OBJ and in the log (R156, R157). -/
theorem refuseImage_effect {s : State} (flash : s.tack.flash = false) (boot : s.power.phase ≠ .boot 5) (bringing : s.power.bringing = none) (fl : Flaw)
    (bring : Tab PowerUpFound) :
    (refuseImage fl bring s).tack.run = none ∧ (refuseImage fl bring s).tack.op.state = .failed ∧ (refuseImage fl bring s).tack.op.code = fl.code ∧
    (refuseImage fl bring s).tack.faultObj = fl.object ∧ noted (refuseImage fl bring s) 0 fl.code = true ∧
    Changes [.funcs, .irqs, .tack] s (refuseImage fl bring s) := by
  have frame : Changes [.tack] s (setTack (flawNoted fl s) s) := setTack_changes _ _ (by decide) (Changes.refl _ s)
  have refuse : refuseImage fl bring s =
      failTack .failed fl.code fl.object (BitVec.ofNat 32 (fl.aux.getD fl.section_)) bring (setTack (flawNoted fl s) s) := by
    simp [refuseImage, flash]
    rfl
  obtain ⟨tack, logged, ended⟩ := failTack_effect (s := setTack (flawNoted fl s) s) flash boot bringing .failed fl.code fl.object
    (BitVec.ofNat 32 (fl.aux.getD fl.section_)) bring
  rw [refuse, tack]
  exact ⟨rfl, rfl, rfl, rfl, logged, (frame.mono (by decide)).trans ended⟩

/-- What a CHECK that passes writes into the loader before it ends. -/
def sectionsPassed (s : State) (t : Tack) : Tack :=
  { t with
    sectionsDone := BitVec.ofNat 8 (readHeader s).sections.toNat, sectionsTotal := BitVec.ofNat 8 (readHeader s).sections.toNat, sectionAt := 0 }

theorem checkPassed_effect {s : State} (boot : s.power.phase ≠ .boot 5) (bringing : s.power.bringing = none) (bring : Tab PowerUpFound) :
    (checkPassed bring s).tack.run = none ∧ (checkPassed bring s).tack.op = opDone 0 ∧ Changes [.funcs, .irqs, .tack] s (checkPassed bring s) := by
  have frame : Changes [.funcs, .irqs, .tack] s (endTack (opDone 0) (setTack (sectionsPassed s) s)) :=
    endTack_changes _ _ (by decide) (setTack_changes _ _ (by decide) (Changes.refl _ s))
  have ends : checkPassed bring s = endTack (opDone 0) (setTack (sectionsPassed s) s) :=
    afterTack_idle (s := endTack (opDone 0) (setTack (sectionsPassed s) s)) (by rw [frame.power]; exact boot) (by rw [frame.power]; exact bringing)
      none true bring
  rw [ends, endTack_tack]
  exact ⟨rfl, rfl, frame⟩

/-- What the start of phase 5 writes into the loader. -/
def commitBegun (b : ImageBody) (s : State) (t : Tack) : Tack :=
  { t with
    phase := 5, op := { t.op with progress := 600 }, sectionsDone := BitVec.ofNat 8 (readHeader s).sections.toNat
    sectionsTotal := BitVec.ofNat 8 (readHeader s).sections.toNat, sectionAt := 0, header := readHeader s, body := some b, digest := imageDigest s (readHeader s) }

/-- A stall load that no check refuses begins to commit where its stall permits it; one whose stall is HARNESSED unloads it first (R57, R143). -/
theorem checksEnd_loadStall {s : State} {n : StallId} {c : ImageChecks} (noFlaw : imageFlaw s (.loadStall n) c = none)
    (life : lifeOf n s = .stabled ∨ lifeOf n s = .harnessed) (bring : Tab PowerUpFound) :
    checksEnd (.loadStall n) c bring s =
      if lifeOf n s = .harnessed then toStabled n (discardImage n (setTack (commitBegun c.body s) s)) else setTack (commitBegun c.body s) s := by
  have fits : commitFlaw (.loadStall n) s = none := by
    obtain h | h := life <;> simp [commitFlaw, stateFits, h]
  simp only [checksEnd, noFlaw, fits, writesHub, Bool.false_and, Bool.false_eq_true, if_false]
  rfl

/-- Settles O23. ABORT with nothing running ends nothing (log entry 38, on which R149 is silent); a check or load that a check refuses, that passes or that commits
is told by its flaw and by the state of its stall. -/
theorem imageLoadsBeginAndStop : Obligations.ImageLoadsBeginAndStop := by
  refine ⟨fun s f slot c op hadm free permitted hc => ?begin, fun s f bring hadm => ⟨fun free => ?idle, fun runs phase flash boot bringing => ?abort, fun runs phase => ?late⟩,
    fun s op c bring run phase flash boot bringing fits => ?checks⟩
  case begin =>
    have load := loadCommand_eq slot hadm free permitted
    have command : exec c s = .next (loadCommand f op slot s) := by
      obtain ⟨rfl, rfl⟩ | ⟨rfl, rfl⟩ | ⟨n, rfl, rfl⟩ | ⟨n, rfl, rfl⟩ := hc <;> rfl
    refine ⟨_, command.trans (congrArg Host.Outcome.next load), ?_⟩
    simp only [setTack_tack]
    exact ⟨rfl, rfl, rfl, rfl, rfl, rfl, rfl, rfl, setTack_changes _ _ (by decide) (Changes.refl _ s)⟩
  case idle =>
    refine ⟨_, congrArg Host.Outcome.next ((spineCommand_of_admits hadm _ (by simp [abortLoadCode, free]) _)), ?_⟩
    simp [abortLoad, free]
  case abort =>
    have accepted : abortLoadCode s = none := by simp [abortLoadCode, Nat.not_le.mpr phase]
    have aborts : abortLoad bring s = failTack .aborted 0x0D55 0 0 bring s := if_pos runs
    obtain ⟨tack, logged, frame⟩ := failTack_effect flash boot bringing .aborted 0x0D55 0 0 bring
    refine ⟨_, congrArg Host.Outcome.next ((spineCommand_of_admits hadm _ accepted _).trans aborts), ?_⟩
    rw [tack]
    exact ⟨rfl, rfl, rfl, logged, frame⟩
  case late =>
    have refused : abortLoadCode s = some 0x1D56 := if_pos ⟨runs, phase⟩
    refine ⟨_, congrArg Host.Outcome.next (spineCommand_of_code hadm _ refused _), ?_, ?_, by simp, ?_⟩
    · simp [tackOp]
    · simp [tackOp]
    · exact refuseReg_changes _ _ _ _ (by decide) (tackOp_changes _ _ (by decide) (Changes.refl _ s))
  case checks =>
    have ends := checksEnd_of_tackChecksEnd run phase fits bring
    refine ⟨fun fl hfl => ?flaw, fun n hnone hop => ?passed, fun n hnone hop hstabled hharnessed => ?unfit, fun n hnone hop hlife => ?commit,
      fun n hnone hop hlife => ?unload⟩
    case flaw =>
      have refused : checksEnd op c bring s = refuseImage fl bring s := by simp only [checksEnd, hfl]
      exact ⟨_, ends.trans (congrArg Host.Outcome.next refused), refuseImage_effect flash boot bringing fl bring⟩
    case passed =>
      subst hop
      have passes : checksEnd (.check n) c bring s = checkPassed bring s := by simp only [checksEnd, hnone]
      exact ⟨_, ends.trans (congrArg Host.Outcome.next passes), checkPassed_effect boot bringing bring⟩
    case unfit =>
      subst hop
      have unfit : commitFlaw (.loadStall n) s = some { phase := 4, code := 0x1D44 } := by simp [commitFlaw, stateFits, hstabled, hharnessed]
      have refused : checksEnd (.loadStall n) c bring s = refuseImage { phase := 4, code := 0x1D44 } bring s := by simp only [checksEnd, hnone, unfit]
      obtain ⟨none, failed, code, -, logged, frame⟩ := refuseImage_effect flash boot bringing { phase := 4, code := 0x1D44 } bring
      exact ⟨_, ends.trans (congrArg Host.Outcome.next refused), none, failed, code, logged, frame⟩
    case commit =>
      subst hop
      have commits := checksEnd_loadStall hnone (.inl hlife) bring
      rw [if_neg (by simp [hlife])] at commits
      refine ⟨_, ends.trans (congrArg Host.Outcome.next commits), ?_⟩
      simp only [setTack_tack]
      exact ⟨run, rfl, rfl, rfl, rfl, setTack_changes _ _ (by decide) (Changes.refl _ s)⟩
    case unload =>
      subst hop
      have commits := checksEnd_loadStall hnone (.inr hlife) bring
      rw [if_pos hlife] at commits
      have after (u : State) : Changes (allBut .tack) u (toStabled n (discardImage n u)) :=
        toStabled_changes _ _ (by decide) (discardImage_changes _ _ (by decide) (Changes.refl _ u))
      have images (u : State) : (toStabled n (discardImage n u)).stallImages = tabDel u.stallImages n.val := by
        rw [(toStabled_changes (P := allBut .stallImages) _ _ (by decide) (Changes.refl _ _)).stallImages, stallImages_discardImage]
      refine ⟨_, ends.trans (congrArg Host.Outcome.next commits), ?_, by simp, by simp [imageTag_discardImage], ?_, ?_⟩
      · rw [(after _).tack]
        rfl
      · exact hasImage_of_discarded (images _)
      · exact (near_toStabled _ _ (near_discardImage _ _ (near_setTack _ _ (Near.refl n s)))).other

end Sys2Proof.Machine
end

section
/-!
PROOFS. The image of a stall and the stalls beside it.
-/

namespace Sys2Proof.Machine

set_option Elab.async false

open Sys2Proof

/-! ## The registers of a stall's own window -/

/-- A register that acts on a stall names the stall of its window. -/
def InWindow (n : StallId) : Reg → Prop
  | .ctl m _ => m = n
  | .kernelPage m => m = n
  | _ => True

theorem inWindow_indexed {n : StallId} {N stride o : Nat} {rest : Fin N → Nat → Option Reg} (h : ∀ i o, ∀ r ∈ rest i o, InWindow n r) :
    ∀ r ∈ indexed N stride o rest, InWindow n r := by
  intro r hr
  unfold indexed at hr
  split at hr
  · exact h _ _ r hr
  · cases hr

theorem inWindow_map {n : StallId} {ρ : Type} {o : Option ρ} {mk : ρ → Reg} (h : ∀ x, InWindow n (mk x)) : ∀ r ∈ o.map mk, InWindow n r := by
  intro r hr
  obtain ⟨x, -, rfl⟩ := Option.map_eq_some_iff.mp hr
  exact h x

theorem inWindow_wordAt {n : StallId} {N o : Nat} {mk : Fin N → Reg} (h : ∀ x, InWindow n (mk x)) : ∀ r ∈ wordAt N o mk, InWindow n r := by
  unfold wordAt
  split
  · exact inWindow_map h
  · simp

theorem inWindow_some {n : StallId} {r : Reg} (h : InWindow n r) : ∀ x ∈ some r, InWindow n x := by
  rintro _ ⟨⟩
  exact h

theorem inWindow_none {n : StallId} : ∀ x ∈ (none : Option Reg), InWindow n x := nofun

theorem inWindow_ite {n : StallId} {c : Prop} [Decidable c] {a b : Option Reg} (ha : ∀ r ∈ a, InWindow n r) (hb : ∀ r ∈ b, InWindow n r) :
    ∀ r ∈ if c then a else b, InWindow n r := by
  by_cases h : c
  · rwa [if_pos h]
  · rwa [if_neg h]

theorem inWindow_decodeVoices (n : StallId) (b : Bool) (o : Nat) : ∀ r ∈ decodeVoices n b o, InWindow n r :=
  inWindow_ite
    (inWindow_ite (inWindow_indexed fun _ _ => inWindow_map fun _ => trivial) (inWindow_indexed fun _ _ => inWindow_map fun _ => trivial))
    (inWindow_ite (inWindow_indexed fun _ _ => inWindow_map fun _ => trivial)
      (inWindow_ite (inWindow_wordAt fun _ => trivial) (inWindow_indexed fun _ _ => inWindow_map fun _ => trivial)))

theorem inWindow_decodeAcq (n : StallId) (o : Nat) : ∀ r ∈ decodeAcq n o, InWindow n r :=
  inWindow_ite (inWindow_indexed fun _ _ => inWindow_map fun _ => trivial)
    (inWindow_ite (inWindow_indexed fun _ _ => inWindow_map fun _ => trivial)
      (inWindow_ite (inWindow_some trivial)
        (inWindow_ite inWindow_none
          (inWindow_ite (inWindow_indexed fun _ _ => inWindow_map fun _ => trivial)
            (inWindow_ite (inWindow_some rfl) (inWindow_ite inWindow_none (inWindow_wordAt fun _ => trivial)))))))

theorem inWindow_decodeFlux (n : StallId) (o : Nat) : ∀ r ∈ decodeFlux n o, InWindow n r :=
  inWindow_ite (inWindow_indexed fun _ _ => inWindow_ite (inWindow_some trivial) (inWindow_ite (inWindow_some trivial) inWindow_none))
    (inWindow_ite inWindow_none
      (inWindow_ite (inWindow_indexed fun _ _ => inWindow_map fun _ => trivial)
        (inWindow_ite inWindow_none (inWindow_indexed fun _ _ => inWindow_wordAt fun _ => trivial))))

/-- A stall's window decodes to no register of another stall's controller. -/
theorem inWindow_decodeStall (n : StallId) (o : Nat) : ∀ r ∈ decodeStall n o, InWindow n r :=
  inWindow_ite (inWindow_ite (inWindow_map fun _ => rfl) (inWindow_indexed fun _ _ => inWindow_map fun _ => trivial))
    (inWindow_ite (inWindow_decodeVoices n false _)
      (inWindow_ite (inWindow_decodeVoices n true _)
        (inWindow_ite (inWindow_decodeAcq n _)
          (inWindow_ite (inWindow_decodeFlux n _)
            (inWindow_ite (inWindow_ite (inWindow_map fun _ => trivial) (inWindow_indexed fun _ _ => inWindow_map fun _ => trivial))
              (inWindow_ite (inWindow_indexed fun _ _ => inWindow_map fun _ => trivial)
                (inWindow_ite (inWindow_some trivial)
                  (inWindow_ite inWindow_none
                    (inWindow_ite (inWindow_indexed fun _ _ => inWindow_map fun _ => trivial)
                      (inWindow_ite (inWindow_map fun _ => trivial)
                        (inWindow_ite (inWindow_wordAt fun _ => trivial) (inWindow_wordAt fun _ => trivial))))))))))))

/-! ## A stall's image goes into force (R118, R135) -/

/-- The initial value of a register of a stall's window reaches no other stall. -/
theorem near_initReg {n : StallId} {r : Reg} (h : InWindow n r) (val : Word) (s : State) : Near n s (initReg r val s) := by
  have apart (h : Changes (allBut .stalls) s (initReg r val s)) : Near n s (initReg r val s) := near_of (Near.refl n s) h (by decide)
  cases r with
  | ctl m r =>
    obtain rfl : m = n := h
    cases r <;> first
      | exact Near.refl m s
      | exact near_modGait _ _ _ (Near.refl m s)
      | exact near_modStall _ _ _ (Near.refl m s)
  | kernelPage m =>
    obtain rfl : m = n := h
    exact near_modStall _ _ _ (Near.refl m s)
  | cmp n w r => exact apart (by cases r <;> first | exact modWatch_changes _ _ _ (by decide) (Changes.refl _ s) | exact Changes.refl _ s)
  | drive n k r => exact apart (initSlice_changes _ _ _ _ (by decide) (Changes.refl _ s))
  | probe n k r => exact apart (initSlice_changes _ _ _ _ (by decide) (Changes.refl _ s))
  | voice v r => exact apart (initVoice_changes _ _ _ _ (by decide) (Changes.refl _ s))
  | seq v r => exact apart (by cases r <;> first | exact modSeq_changes _ _ _ (by decide) (Changes.refl _ s) | exact Changes.refl _ s)
  | acq n k r => exact apart (by cases r <;> first | exact modAcq_changes _ _ _ _ (by decide) (Changes.refl _ s) | exact Changes.refl _ s)
  | chan c r => exact apart (initChan_changes _ _ _ _ (by decide) (Changes.refl _ s))
  | unit n u r => exact apart (initUnit_changes _ _ _ _ (by decide) (Changes.refl _ s))
  | line l r => exact apart (initLine_changes _ _ _ _ (by decide) (Changes.refl _ s))
  | cell n b r => exact apart (by cases r <;> first | exact modCell_changes _ _ _ (by decide) (Changes.refl _ s) | exact Changes.refl _ s)
  | rider h r => exact apart (initRider_changes _ _ _ _ (by decide) (Changes.refl _ s))
  | farrier n r => exact apart (initFarrier_changes _ _ _ _ (by decide) (Changes.refl _ s))
  | _ => exact Near.refl n s

theorem near_initFlCtl {n : StallId} {s₀ : State} (r : Reg) (val : Word) (s : State) (hc : Near n s₀ s) : Near n s₀ (initFlCtl r val s) :=
  near_of hc (initFlCtl_changes (P := allBut .stalls) r val s (by decide) (Changes.refl _ s)) (by decide)

theorem near_applyInit {n : StallId} {s₀ : State} (i : StallImage) (s : State) (hc : Near n s₀ s) : Near n s₀ (applyInit n i s) := by
  unfold applyInit
  refine near_forEach _ _ _ (fun e u hu => ?_) (near_forEach _ _ _ (fun e u hu => ?_) hc)
  · split
    · exact near_initFlCtl _ _ _ hu
    · exact hu
  · split
    next r hr => exact hu.trans (near_initReg (inWindow_decodeStall n e.1 r hr) _ _)
    next => exact hu

theorem near_standings {n : StallId} {s₀ : State} (l : List (SliceKind × BitVec 4)) (s : State) (hc : Near n s₀ s) : Near n s₀ (standings n l s).1 := by
  induction l generalizing s with
  | nil => exact hc
  | cons t rest ih =>
    refine ih _ ?_
    unfold standing
    split
    · dsimp only
      exact near_modSpare n t.1 _ s hc
    · exact hc

theorem near_resetTunables {n : StallId} {s₀ : State} (s : State) (hc : Near n s₀ s) : Near n s₀ (resetTunables n s) := by
  unfold resetTunables
  refine near_modStall _ _ _ (near_modGait _ _ _ (near_forEach _ _ _ (fun l u hu => ?_) (near_forEach _ _ _ (fun r u hu => near_modRider _ _ _ hu) ?_)))
  · exact near_of hu (goSafe_changes (P := allBut .stalls) _ _ (by decide) (modLine_changes _ _ _ (by decide) (Changes.refl _ u))) (by decide)
  · exact ⟨fun m hm => hc.other m hm⟩

theorem near_applyStall {n : StallId} {s₀ : State} (i : StallImage) (s : State) (hc : Near n s₀ s) : Near n s₀ (applyStall n i s).1 := by
  have tables (u : State) : Changes (allBut .stalls) u (fillTrims n (fillTrot n i (fillWatch n i (fillFarrier n i.farrier u)))) :=
    fillTrims_changes _ _ (by decide) (fillTrot_changes _ _ _ (by decide) (fillWatch_changes _ _ _ (by decide)
      (fillFarrier_changes _ _ _ (by decide) (Changes.refl _ u))))
  have power (u : State) : Changes (allBut .stalls) u (stallPower n i u) := stallPower_changes _ _ _ (by decide) (Changes.refl _ u)
  exact near_of (near_applyInit i _ (near_of (near_resetTunables _ (near_standings _ _ hc)) (tables _) (by decide))) (power _) (by decide)

end Sys2Proof.Machine
end

section
/-!
PROOFS. LOAD_END and the staging slots (O24).
-/

namespace Sys2Proof.Machine

set_option Elab.async false

open Sys2Proof

/-! ## A stall load completes (R145, R148) -/

theorem stallImages_fillStall (n : StallId) (i : StallImage) (s : State) : (fillStall n i s).stallImages = tabSet s.stallImages n.val i := by
  have after (u : State) : Changes (allBut .stallImages) u (presentPorts (grantQueues n (fillCells n i (fillMemories n i u)))) :=
    presentPorts_changes _ (by decide) (grantQueues_changes _ _ (by decide) (fillCells_changes _ _ _ (by decide)
      (fillMemories_changes _ _ _ (by decide) (Changes.refl _ u))))
  exact (after _).stallImages

/-- Switching a domain does not touch the phase of boot, nor the bring-up. -/
theorem power_setDomains (lo n : Nat) (on : Bool) (s : State) :
    (setDomains lo n on s).power.phase = s.power.phase ∧ (setDomains lo n on s).power.bringing = s.power.bringing := by
  unfold setDomains
  cases on
  · exact ⟨rfl, rfl⟩
  · exact ⟨rfl, rfl⟩

theorem power_stallPower (n : StallId) (i : StallImage) (s : State) :
    (stallPower n i s).power.phase = s.power.phase ∧ (stallPower n i s).power.bringing = s.power.bringing := by
  refine forEach_keep _ (fun u => u.power.phase = s.power.phase ∧ u.power.bringing = s.power.bringing) (fun k u hu => ?_) _ s ⟨rfl, rfl⟩
  obtain ⟨phase, bringing⟩ := power_setDomains (30 * n.val + k) 1
    (!((decide (2 ≤ k) && decide (k ≤ 28) && !(k == 10 || k == 15 || k == 20)) && leftOff i k)) u
  exact ⟨phase.trans hu.1, bringing.trans hu.2⟩

theorem power_applyStall (n : StallId) (i : StallImage) (s : State) :
    (applyStall n i s).1.power.phase = s.power.phase ∧ (applyStall n i s).1.power.bringing = s.power.bringing := by
  have before : (applyInit n i (fillTrims n (fillTrot n i (fillWatch n i (fillFarrier n i.farrier
      (resetTunables n (standings n i.standing s).1)))))).power = s.power := by
    refine Changes.power (P := allBut .power) ?_
    refine applyInit_changes _ _ _ (by decide) (fillTrims_changes _ _ (by decide) (fillTrot_changes _ _ _ (by decide)
      (fillWatch_changes _ _ _ (by decide) (fillFarrier_changes _ _ _ (by decide) (resetTunables_changes _ _ (by decide) ?_)))))
    exact standings_changes _ _ _ (by decide) (Changes.refl _ s)
  obtain ⟨phase, bringing⟩ := power_stallPower n i (applyInit n i (fillTrims n (fillTrot n i (fillWatch n i (fillFarrier n i.farrier
      (resetTunables n (standings n i.standing s).1))))))
  rw [before] at phase bringing
  exact ⟨phase, bringing⟩

/-- The image of a completed load, in force at its stall. -/
def harnessedWith (n : StallId) (i : StallImage) (s : State) : State :=
  setLife n .harnessed (modStall n (fun x => { x with imageTag := s.tack.header.tag })
    (raiseFloor (writeRecord (recordBase n) (applyStall n i (fillStall n i s)).1)))

/-- A completed load records 0x0D53 where a standing setting of the image was not permitted. -/
def completed (n : StallId) (i : StallImage) (s : State) : State :=
  let code : Code := if (applyStall n i (fillStall n i s)).2 then 0 else 0x0D53
  endTack (opDone code)
    (if (applyStall n i (fillStall n i s)).2 then harnessedWith n i s else record code 8 0 0 0 (harnessedWith n i s))

theorem completed_after (n : StallId) (i : StallImage) (s : State) : Changes [.funcs, .irqs, .tack] (harnessedWith n i s) (completed n i s) :=
  endTack_changes _ _ (by decide) (Changes.ite (fun _ => Changes.refl _ _) fun _ => record_changes _ _ _ _ _ _ (by decide) (Changes.refl _ _))

theorem harnessedWith_applied (n : StallId) (i : StallImage) (s : State) :
    Changes [.funcs, .irqs, .backup, .persist, .stalls, .nodes, .books, .flights, .nextFlight, .hub, .hbm] (applyStall n i (fillStall n i s)).1
      (harnessedWith n i s) :=
  setLife_changes _ _ _ (by decide) (modStall_changes _ _ _ (by decide) (raiseFloor_changes _ (by decide)
    (writeRecord_changes _ _ (by decide) (Changes.refl _ _))))

theorem power_completed (n : StallId) (i : StallImage) (s : State) :
    (completed n i s).power.phase = s.power.phase ∧ (completed n i s).power.bringing = s.power.bringing := by
  have filled : (fillStall n i s).power = s.power := (fillStall_changes (P := allBut .power) n i s (by decide) (Changes.refl _ s)).power
  rw [(completed_after n i s).power, (harnessedWith_applied n i s).power, ← filled]
  exact power_applyStall n i (fillStall n i s)

theorem completeStall_idle {s : State} (flash : s.tack.flash = false) (boot : s.power.phase ≠ .boot 5) (bringing : s.power.bringing = none)
    (n : StallId) (i : StallImage) (bring : Tab PowerUpFound) : completeStall n i bring s = completed n i s := by
  obtain ⟨phase, none⟩ := power_completed n i s
  have ends : completeStall n i bring s = afterTack s.tack.flash s.tack.run true bring (completed n i s) := rfl
  rw [ends, flash]
  exact afterTack_idle (by rwa [phase]) (none.trans bringing) _ _ _

theorem stallImages_completed (n : StallId) (i : StallImage) (s : State) : (completed n i s).stallImages = tabSet s.stallImages n.val i := by
  rw [(completed_after n i s).stallImages, (harnessedWith_applied n i s).stallImages,
    (applyStall_changes (P := allBut .stallImages) _ _ _ (by decide) (Changes.refl _ _)).stallImages, stallImages_fillStall]

theorem imageOf_of_filled {n : StallId} {i : StallImage} {s t : State} (h : t.stallImages = tabSet s.stallImages n.val i) : imageOf t n = i := by
  rw [imageOf, h, tabGet_tabSet]

theorem hasImage_of_filled {n : StallId} {i : StallImage} {s t : State} (h : t.stallImages = tabSet s.stallImages n.val i) : hasImage t n = true := by
  rw [hasImage, h, tabFind_tabSet]
  rfl

theorem imageOf_of_filled_ne {n m : StallId} {i : StallImage} {s t : State} (h : t.stallImages = tabSet s.stallImages n.val i) (hm : m ≠ n) :
    imageOf t m = imageOf s m := by
  rw [imageOf, h, tabGet_tabSet_ne fun e => hm (Fin.ext e.symm)]
  rfl

/-- The stall of a completed load, and no other stall, has changed. -/
theorem completed_stalls (n : StallId) (i : StallImage) (s : State) :
    (getStall (completed n i s) n).life = .harnessed ∧ (getStall (completed n i s) n).imageTag = s.tack.header.tag ∧
    ∀ m, m ≠ n → getStall (completed n i s) m = getStall s m := by
  have ended (m : StallId) : getStall (completed n i s) m = getStall (harnessedWith n i s) m := (completed_after n i s).getStall m
  have applied : Near n s (applyStall n i (fillStall n i s)).1 :=
    near_applyStall i _ (near_of (Near.refl n s) (fillStall_changes (P := allBut .stalls) n i s (by decide) (Changes.refl _ s)) (by decide))
  have recorded : Near n s (raiseFloor (writeRecord (recordBase n) (applyStall n i (fillStall n i s)).1)) :=
    near_of applied (raiseFloor_changes (P := allBut .stalls) _ (by decide) (writeRecord_changes _ _ (by decide) (Changes.refl _ _))) (by decide)
  refine ⟨?_, ?_, fun m hm => (ended m).trans ((near_setLife n .harnessed _ (near_modStall n _ _ recorded)).other m hm)⟩
  · rw [ended, harnessedWith, getStall_setLife]
  · rw [ended, harnessedWith, getStall_setLife, getStall_modStall]

/-! ## A herd image goes into force (R118, R151) -/

/-- The tag and digest of the herd image are kept. -/
def HerdNamed (s t : State) : Prop := t.tack.herdTag = s.tack.herdTag ∧ t.tack.herdDigest = s.tack.herdDigest

theorem HerdNamed.refl (s : State) : HerdNamed s s := ⟨rfl, rfl⟩

theorem HerdNamed.frame {P : List Part} {s₀ s t : State} (hc : HerdNamed s₀ s) (h : Changes P s t) (hp : P.contains .tack = false := by decide) :
    HerdNamed s₀ t := by
  simp only [HerdNamed, h.tack hp]
  exact hc

theorem HerdNamed.forEach {α : Type} {s₀ s : State} (l : List α) (f : α → State → State) (hf : ∀ a u, Changes (allBut .tack) u (f a u))
    (hc : HerdNamed s₀ s) : HerdNamed s₀ (forEach l f s) :=
  forEach_keep f (HerdNamed s₀) (fun a u hu => hu.frame (hf a u)) l s hc

theorem herdNamed_lostTarget {c : Prop} [Decidable c] {s₀ s : State} (hc : HerdNamed s₀ s) :
    HerdNamed s₀ (if c then setTack (fun t => { t with lostTarget := true }) s else s) := by
  split
  · exact hc
  · exact hc

theorem herdNamed_stallOff {s₀ : State} (n : StallId) (s : State) (hc : HerdNamed s₀ s) : HerdNamed s₀ (stallOff n s) := by
  have before : Changes (allBut .tack) s (modGait n (fun x => { x with pace := { x.pace with now := 0xFF, margins := [] } })
      (stallDomains n false (forgetStall n (fastDown n (discardImage n (dropNode n (closePorts n s))))))) :=
    modGait_changes _ _ _ (by decide) (stallDomains_changes _ _ _ (by decide) (forgetStall_changes _ _ (by decide) (fastDown_changes _ _ (by decide)
      (discardImage_changes _ _ (by decide) (dropNode_changes _ _ (by decide) (closePorts_changes _ _ (by decide) (Changes.refl _ s)))))))
  have after (f : StallCtl → StallCtl) (u : State) : Changes (allBut .tack) u (setLife n .off (modStall n f u)) :=
    setLife_changes _ _ _ (by decide) (modStall_changes _ _ _ (by decide) (Changes.refl _ u))
  exact (herdNamed_lostTarget (hc.frame before)).frame (after _ _)

theorem herdNamed_startPowerUp {s₀ : State} (n : StallId) (found : PowerUpFound) (s : State) (hc : HerdNamed s₀ s) :
    HerdNamed s₀ (startPowerUp n found s) := by
  have before (f : StallCtl → StallCtl) (a b : Bool) (c d : Nat) : HerdNamed s₀ (modStall n f (loadStud n a b (persistErrors c d (stallDomains n true s)))) :=
    hc.frame (modStall_changes (P := allBut .tack) _ _ _ (by decide) (loadStud_changes _ _ _ _ (by decide) (persistErrors_changes _ _ _ (by decide)
      (stallDomains_changes _ _ _ (by decide) (Changes.refl _ s)))))
  have after (op : OpStatus) (u : State) : Changes (allBut .tack) u (endStallOp n op (record 0x2D08 n.val 0 0 0 u)) :=
    endStallOp_changes _ _ _ (by decide) (record_changes _ _ _ _ _ _ (by decide) (Changes.refl _ u))
  unfold startPowerUp
  dsimp only
  split
  · exact before _ _ _ _ _
  · refine (herdNamed_stallOff n _ (HerdNamed.forEach _ _ (fun w u => ?_) (before _ _ _ _ _))).frame (after _ _)
    exact modWatch_changes _ _ _ (by decide) (record_changes _ _ _ _ _ _ (by decide) (Changes.refl _ u))

theorem herdNamed_bringNext {s₀ : State} (bring : Tab PowerUpFound) (k : Nat) (s : State) (hc : HerdNamed s₀ s) : HerdNamed s₀ (bringNext bring k s) := by
  have brought (n : StallId) (up : Bool) (u : State) : Changes (allBut .tack) u (stallBrought n up u) :=
    stallBrought_changes _ _ _ (by decide) (Changes.refl _ u)
  have ended (u : State) : Changes (allBut .tack) u (endBringUp u) := endBringUp_changes _ (by decide) (Changes.refl _ u)
  induction k generalizing s with
  | zero => exact hc.frame (ended s)
  | succ k ih =>
    unfold bringNext
    split
    · exact hc.frame (ended s)
    next n rest _ =>
      have begun : HerdNamed s₀ (setPower (fun p => { p with toBring := rest, bringing := some n }) s) := hc
      dsimp only
      split
      · exact ih _ (begun.frame (brought _ _ _))
      · have up := herdNamed_startPowerUp n (tabGet {} bring n.val) _ begun
        split
        · exact up
        · exact ih _ (up.frame (brought _ _ _))

theorem herdNamed_startBringUp {s₀ : State} (bring : Tab PowerUpFound) (s : State) (hc : HerdNamed s₀ s) : HerdNamed s₀ (startBringUp bring s) :=
  herdNamed_bringNext bring 9 _ (hc.frame (setPower_changes (P := allBut .tack) _ _ (by decide) (Changes.refl _ s)))

theorem herdNamed_bringAfterHerd {s₀ : State} (flash : Bool) (bring : Tab PowerUpFound) (s : State) (hc : HerdNamed s₀ s) :
    HerdNamed s₀ (bringAfterHerd flash bring s) := by
  have step6 (f : Power → Power) (u : State) : Changes (allBut .tack) u (setPower f u) := setPower_changes _ _ (by decide) (Changes.refl _ u)
  unfold bringAfterHerd bootStep6
  dsimp only
  split
  · split
    · exact herdNamed_startBringUp bring _ (hc.frame (step6 _ _))
    · exact (hc.frame (step6 _ _)).frame (endBringUp_changes (P := allBut .tack) _ (by decide) (Changes.refl _ _))
  split
  · exact hc
  split
  · exact hc
  · exact herdNamed_startBringUp bring _ hc

theorem herdNamed_endTack {s₀ : State} (op : OpStatus) (s : State) (hc : HerdNamed s₀ s) : HerdNamed s₀ (endTack op s) := by
  simp only [HerdNamed, endTack_tack]
  exact hc

/-- A herd image in force, with its tag and digest, before anything else is written from it. -/
def herdNamed (i : HerdImage) (s : State) : State :=
  setTack (fun t => { t with herdTag := t.header.tag, herdDigest := t.digest }) { s with herdImage := some i, hubImage := some i.hub }

/-- What a completed herd image writes over the module (R118, R135). -/
def herdWritten (i : HerdImage) (s : State) : State :=
  issueSeal 8 1 (writeRecord herdRecord (raiseFloor (applyKeys s.tack.header i (fillSpineWatch i (fillLanes i (resetSpine
    (joinPlane true (joinPlane false (servePlane true (servePlane false (writePlane true false (writePlane false false (herdNamed i s))))))))))))) 

theorem herdWritten_frame (i : HerdImage) (s : State) :
    Changes [.funcs, .irqs, .power, .backup, .persist, .spine, .nodes, .cells, .books, .flights, .nextFlight, .hub, .lanes, .tether, .tc, .pulses,
      .watches, .hks, .hkCtl, .hbm] (herdNamed i s) (herdWritten i s) := by
  refine issueSeal_changes _ _ _ (by decide) (writeRecord_changes _ _ (by decide) (raiseFloor_changes _ (by decide) (applyKeys_changes _ _ _ (by decide)
    (fillSpineWatch_changes _ _ (by decide) (fillLanes_changes _ _ (by decide) (resetSpine_changes _ (by decide) ?_))))))
  exact joinPlane_changes _ _ (by decide) (joinPlane_changes _ _ (by decide) (servePlane_changes _ _ (by decide) (servePlane_changes _ _ (by decide)
    (writePlane_changes _ _ _ (by decide) (writePlane_changes _ _ _ (by decide) (Changes.refl _ _))))))

/-! ## Staging slots (R141, R142) -/

/-- What a write into a memory leaves at the places it covers. -/
theorem tabGet_memWrite {α : Type} [DecidableEq α] {d : α} (l : List α) (t : Tab α) {k j : Nat} (h : j < l.length) :
    tabGet d (memWrite d t k l) (k + j) = l.getD j d := by
  induction l generalizing t k j with
  | nil => simp at h
  | cons a rest ih =>
    cases j with
    | zero => rw [memWrite, tabGet_memWrite_ne _ _ (.inl (by omega)), Nat.add_zero, tabGet_memSet, List.getD_cons_zero]
    | succ j =>
      rw [memWrite, show k + (j + 1) = k + 1 + j by omega, ih _ (by simpa using h), List.getD_cons_succ]

/-- A write that lies in one slot is that slot's write alone. -/
theorem stageBytes_in_slot {f : Func} {a : Nat} {bytes : List Byte} {k : SlotId} (slot : slotOf a = some k)
    (fits : a + bytes.length ≤ (k.val + 1) * 0x4000000) (some : bytes ≠ []) (rest : Nat → List Byte → State → State) (s : State) :
    stageBytes f a bytes rest s = slotWrite f k a bytes s := by
  unfold slotOf at slot
  split at slot
  · next low =>
    obtain rfl : 0 = k := Option.some.inj slot
    have within : bytes.length ≤ 0x4000000 - a := by simp at fits; omega
    simp [stageBytes, List.take_of_length_le within, List.drop_of_length_le within, some]
  · next high =>
    split at slot
    · obtain rfl : 1 = k := Option.some.inj slot
      have within : bytes.length ≤ 0x8000000 - a := by simp at fits; omega
      have below : 0x4000000 - a = 0 := by omega
      have from_ : max a 0x4000000 = a := by omega
      simp [stageBytes, below, from_, List.take_of_length_le within, within, some]
    · cases slot

theorem refuseAt_effect (f : Func) (bar2 : Bool) (offset : Nat) (code : Code) (owner : Owner) (stall : Nat) (object aux : Word) (s : State) :
    (getFunc (refuseAt f bar2 offset code owner stall object aux s) f).lastCode = code ∧
    noted (refuseAt f bar2 offset code owner stall object aux s) 0 code = true := by
  by_cases physical : f = 0
  · subst physical
    exact ⟨by simp [refuseAt], noted_logInto ..⟩
  · have virtual : f.val ≠ 0 := fun e => physical (Fin.ext e)
    simp only [refuseAt, if_neg virtual]
    refine ⟨by simp, ?_⟩
    rw [noted, getFunc_logInto_ne physical]
    exact noted_logInto ..

/-- Settles O24: a stall image goes into force at its stall alone, a herd image keeps its tag through the bring-up that follows it, and bytes in one slot are that
slot's own write. -/
theorem imageLoadsComplete : Obligations.ImageLoadsComplete := by
  refine ⟨fun s n i bring run body phase flash boot bringing => ?stall, fun s i bring run body phase => ?herd,
    fun s f addr bytes k slot fits some reach => ?slot⟩
  case stall =>
    have fails (code : Code) := failTack_effect flash boot bringing .failed code 0 0 bring
    refine ⟨fun kept => ⟨completed n i s, ?_, ?_⟩, fun kept => ⟨failTack .failed 0x2D54 0 0 bring s, ?_, ?_⟩,
      fun r lost => ⟨failTack .failed 0x2D57 0 0 bring s, ?_, ?_⟩⟩
    · refine congrArg Host.Outcome.next ?_
      simp only [loadEnd, if_neg (Nat.not_lt.mpr phase), run, body, kept, Bool.false_eq_true, if_false]
      exact completeStall_idle flash boot bringing n i bring
    · obtain ⟨life, tag, other⟩ := completed_stalls n i s
      have images := stallImages_completed n i s
      have herd : Changes (allBut .herdImage) s (completed n i s) ∧ Changes (allBut .hubImage) s (completed n i s) := by
        have applied : Changes [.power, .stalls, .gaits, .slices, .acqs, .voices, .seqs, .chans, .units, .cells, .riders, .lines, .fasts, .farriers,
            .watches, .stallImages, .queues, .library, .descs, .kernels, .store] s (applyStall n i (fillStall n i s)).1 :=
          applyStall_changes _ _ _ (by decide) (fillStall_changes _ _ _ (by decide) (Changes.refl _ s))
        have whole {P : List Part} (hp : Part.sub [.power, .stalls, .gaits, .slices, .acqs, .voices, .seqs, .chans, .units, .cells, .riders, .lines,
            .fasts, .farriers, .watches, .stallImages, .queues, .library, .descs, .kernels, .store] P = true)
            (hq : Part.sub [.funcs, .irqs, .backup, .persist, .stalls, .nodes, .books, .flights, .nextFlight, .hub, .hbm] P = true)
            (hr : Part.sub [.funcs, .irqs, .tack] P = true) : Changes P s (completed n i s) :=
          ((applied.mono hp).trans ((harnessedWith_applied n i s).mono hq)).trans ((completed_after n i s).mono hr)
        exact ⟨whole (by decide) (by decide) (by decide), whole (by decide) (by decide) (by decide)⟩
      refine ⟨?_, ?_, ?_, life, tag, imageOf_of_filled images, hasImage_of_filled images, fun m hm => ⟨imageOf_of_filled_ne images hm, other m hm⟩,
        herd.1.herdImage, herd.2.hubImage⟩ <;> simp [completed, endTack_tack, opDone]
    · refine congrArg Host.Outcome.next ?_
      simp only [loadEnd, if_neg (Nat.not_lt.mpr phase), run, body, kept, Bool.false_eq_true, if_false]
    · obtain ⟨tack, logged, frame⟩ := fails 0x2D54
      rw [tack]
      exact ⟨rfl, rfl, rfl, logged, frame⟩
    · refine congrArg Host.Outcome.next ?_
      simp only [loadEnd, if_neg (Nat.not_lt.mpr phase), run, body, lost, if_true]
    · obtain ⟨tack, logged, frame⟩ := fails 0x2D57
      rw [tack]
      exact ⟨rfl, rfl, rfl, logged, frame⟩
  case herd =>
    have ends : exec (.loadEnd .good bring) s = .next (completeHerd i bring s) := by
      refine congrArg Host.Outcome.next ?_
      simp only [loadEnd, if_neg (Nat.not_lt.mpr phase), run, body]
    have written : completeHerd i bring s = bringAfterHerd s.tack.flash bring (endTack (opDone 0) (herdWritten i s)) := rfl
    have frame := herdWritten_frame i s
    have images : Changes (allBut .herdImage) (herdNamed i s) (completeHerd i bring s) ∧ Changes (allBut .hubImage) (herdNamed i s) (completeHerd i bring s) :=
      ⟨written ▸ bringAfterHerd_changes _ _ _ (by decide) (endTack_changes _ _ (by decide) (frame.mono (by decide))),
        written ▸ bringAfterHerd_changes _ _ _ (by decide) (endTack_changes _ _ (by decide) (frame.mono (by decide)))⟩
    have named : HerdNamed (herdNamed i s) (completeHerd i bring s) :=
      written ▸ herdNamed_bringAfterHerd _ bring _ (herdNamed_endTack _ _ ((HerdNamed.refl _).frame frame))
    refine ⟨_, ends, images.1.herdImage, images.2.hubImage, named.1, named.2, ?_⟩
    exact completeHerd_changes _ _ _ (by decide) (Changes.refl _ s)
  case slot =>
    have writes : exec (.stagingSlotWrite f addr bytes) s = .next (slotWrite f k addr.toNat bytes s) :=
      congrArg Host.Outcome.next (stageBytes_in_slot slot fits some _ s)
    refine ⟨fun free => ⟨hbmWrite addr.toNat bytes s, ?_, ?_⟩, 
      fun read => ⟨refuseAt f true addr.toNat 0x1D5A 0 8 0 (BitVec.ofNat 32 addr.toNat) s, ?_, ?_⟩⟩
    · rw [writes, slotWrite, reach, free]
      rfl
    · have memory : (hbmWrite addr.toNat bytes s).hbm = memWrite 0 s.hbm addr.toNat bytes := rfl
      refine ⟨memory, fun j hj => ?_, fun a ha => ?_, hbmWrite_changes _ _ _ (by decide) (Changes.refl _ s)⟩
      · rw [memory]
        exact tabGet_memWrite _ _ hj
      · rw [memory]
        exact tabGet_memWrite_ne _ _ ha
    · rw [writes, slotWrite, reach, read]
      rfl
    · obtain ⟨code, logged⟩ := refuseAt_effect f true addr.toNat 0x1D5A 0 8 0 (BitVec.ofNat 32 addr.toNat) s
      exact ⟨code, logged, refuseAt_changes _ _ _ _ _ _ _ _ _ (by decide) (Changes.refl _ s)⟩

end Sys2Proof.Machine
end

section
/-!
PROOFS. Tuning of a voice (O25).
-/

namespace Sys2Proof.Machine

set_option Elab.async false

open Sys2Proof

/-! ## A host write to a register that an element holds (R706) -/

/-- The count of a write that found its element held. -/
def counted (g : Grant) (count : State → State) (s : State) : State := if g = .held then count s else s

theorem hostElement_of_admits {s : State} {f : Func} {r : Reg} (h : admits s f r = true) (g : Grant) (count : State → State)
    {code : State → Option Code} (k : code (counted g count s) = none) (eff : State → State) :
    hostElement f r g count code eff s = eff (counted g count s) := by
  rw [hostElement, hostWrite_of_admits h]
  cases g <;> simp_all [counted]

theorem hostElement_of_code {s : State} {f : Func} {r : Reg} (h : admits s f r = true) (g : Grant) (count : State → State)
    {code : State → Option Code} {c : Code} (k : code (counted g count s) = some c) (eff : State → State) :
    hostElement f r g count code eff s = refuseReg f r c (counted g count s) := by
  rw [hostElement, hostWrite_of_admits h]
  cases g <;> simp_all [counted]

/-- A voice after the count of a write that found it held. -/
theorem getVoice_counted (g : Grant) (v : VoiceId) (s : State) :
    getVoice (counted g (countVoice v) s) v =
      { getVoice s v with contend := if g = .held then satInc (getVoice s v).contend else (getVoice s v).contend } := by
  cases g
  · rfl
  · simp [counted, countVoice]

theorem counted_changes {P : List Part} (g : Grant) (v : VoiceId) (s : State) (hp : Part.sub [.voices] P = true) : Changes P s (counted g (countVoice v) s) := by
  cases g
  · exact Changes.refl _ s
  · exact modVoice_changes _ _ _ hp (Changes.refl _ s)

theorem getVoice_counted_other {v w : VoiceId} (h : w ≠ v) (g : Grant) (s : State) : getVoice (counted g (countVoice v) s) w = getVoice s w := by
  cases g
  · rfl
  · exact getVoice_modVoice_other h _ _

/-! ## Tuning in a voice that does not play (R167) -/

theorem trimVoice_voices (v : VoiceId) (s : State) : (trimVoice v s).voices = s.voices :=
  (trimVoice_changes (P := [.trims]) v s (by decide) (Changes.refl _ s)).voices

/-- What takes effect leaves, apart from the record of the past, the pending values in force. -/
theorem tuneVoice_voices (v : VoiceId) (s : State) :
    getVoice (tuneVoice v s) v = { applyTuning (getVoice s v) with was := (getVoice (tuneVoice v s) v).was } ∧
    ∀ w, w ≠ v → getVoice (tuneVoice v s) w = getVoice s w := by
  have trimmed (w : VoiceId) : getVoice (trimVoice v s) w = getVoice s w := by simp only [getVoice, trimVoice_voices]
  have flagged (at_ : Fine) (u : State) (w : VoiceId) :
      getVoice (forEach (pairedChans u v) (fun c s => flagChan c (at_ / fineFrame) (filterFlags (getChan s c).filterOn) s) u) w = getVoice u w :=
    (forEach_changes (P := [.chans, .units, .riders]) _ _ _ (fun _ _ h => flagChan_changes _ _ _ _ (by decide) h) (Changes.refl _ u)).getVoice w
  unfold tuneVoice
  dsimp only
  split
  · exact ⟨by simp [trimmed, applyTuning], fun w hw => by rw [getVoice_modVoice_other hw, trimmed]⟩
  · refine ⟨?_, fun w hw => ?_⟩
    · simp [flagged, trimmed]
    · rw [flagged, getVoice_modVoice_other hw, getVoice_modVoice_other hw, trimmed]

/-- Settles O25: a held element (R706) adds its count before the write, and the pending values take effect as a whole. -/
theorem voiceTuningIsPendingUntilItTakesEffect : Obligations.VoiceTuningIsPendingUntilItTakesEffect := by
  refine ⟨fun s f v val hadm => ?low, fun s f v val g hadm below => ?high, fun s f v val g hadm beyond => ?refused,
    fun s f v reg val g hadm => ?tuning, fun s v idle => ?takes, fun s f v val g hadm => ?delay, fun s v idle quiet => ?delayed⟩
  case low =>
    refine ⟨_, congrArg Host.Outcome.next (hostWrite_of_admits hadm _), by simp, fun w hw => getVoice_modVoice_other hw _ _, ?_⟩
    exact modVoice_changes _ _ _ (by decide) (Changes.refl _ s)
  case high =>
    have accepted : ftwCode v val = none := by simp [ftwCode, below]
    have element := hostElement_of_admits hadm g (countVoice v) (code := fun _ => ftwCode v val) accepted (commitFtw v val)
    refine ⟨_, congrArg Host.Outcome.next element, ?_⟩
    refine ⟨?_, ?_, ?_, ?_, fun w hw => ?_, ?_⟩
    · simp [commitFtw, setFtw, getVoice_counted]
    · simp [commitFtw, setFtw, getVoice_counted]
    · simp [commitFtw, setFtw]
    · simp [commitFtw, setFtw, getVoice_counted]
    · rw [commitFtw, getVoice_modVoice_other hw, setFtw, getVoice_modVoice_other hw, getVoice_counted_other hw]
    · exact commitFtw_changes _ _ _ (by decide) (counted_changes g v s (by decide))
  case refused =>
    have refused : ftwCode v val = some (if v.probe then 0x1131 else 0x1121) := if_pos beyond
    have element := hostElement_of_code hadm g (countVoice v) (code := fun _ => ftwCode v val) refused (commitFtw v val)
    refine ⟨_, congrArg Host.Outcome.next element, rfl, by simp, ?_⟩
    exact refuseReg_changes _ _ _ _ (by decide) (counted_changes g v s (by decide))
  case tuning =>
    have element := hostElement_of_admits hadm g (countVoice v) (code := fun _ => none) rfl
      (modVoice v fun x => { x with pend := setPending reg val x.pend })
    refine ⟨_, congrArg Host.Outcome.next element, by simp [getVoice_counted], fun w hw => ?_, ?_⟩
    · rw [getVoice_modVoice_other hw, getVoice_counted_other hw]
    · exact modVoice_changes _ _ _ (by decide) (counted_changes g v s (by decide))
  case takes =>
    have tunes : exec (.tuningTakesEffect v) s = .next (tuneVoice v s) := congrArg Host.Outcome.next (if_neg (by simp [idle]))
    obtain ⟨tuned, other⟩ := tuneVoice_voices v s
    exact ⟨_, tunes, by rw [tuned]; rfl, tuned, other, tuneVoice_changes _ _ (by decide) (Changes.refl _ s)⟩
  case delay =>
    have element := hostElement_of_admits hadm g (countVoice v) (code := fun _ => none) rfl (modVoice v fun x => { x with pendDelay := some (bits val 0 9) })
    refine ⟨_, congrArg Host.Outcome.next element, by simp [getVoice_counted], fun w hw => ?_, ?_⟩
    · rw [getVoice_modVoice_other hw, getVoice_counted_other hw]
    · exact modVoice_changes _ _ _ (by decide) (counted_changes g v s (by decide))
  case delayed =>
    refine ⟨_, congrArg Host.Outcome.next (if_neg (by simp [idle, quiet])), by simp, fun w hw => getVoice_modVoice_other hw _ _, ?_⟩
    exact modVoice_changes _ _ _ (by decide) (Changes.refl _ s)

end Sys2Proof.Machine
end

section
/-!
PROOFS. The output path of a slice (O26).
-/

namespace Sys2Proof.Machine

set_option Elab.async false

open Sys2Proof

/-! ## The sum guard (R172 to R174) -/

/-- What a clip leaves in its slice; the first one is told. -/
def clippedAt (t : Fine) (x : Slice) : Slice :=
  { x with clipped := satInc x.clipped, guardHit := true, guardTime := if x.guardHit then x.guardTime else t }

theorem getSlice_modSlice_other {i j : SliceId} (h : sliceKey j ≠ sliceKey i) (f : Slice → Slice) (s : State) : getSlice (modSlice i f s) j = getSlice s j :=
  getSlice_modSlice_ne i f j s fun e => h e.symm

theorem guardClip_slices (j : SliceId) (t : Fine) (s : State) :
    getSlice (guardClip j t s) j = clippedAt t (getSlice s j) ∧ ∀ x, sliceKey x ≠ sliceKey j → getSlice (guardClip j t s) x = getSlice s x := by
  have marks (u v : State) (x : SliceId) :
      getSlice (forEach (boundVoices v j) (fun v s => if (beatAt s v t).isSome then markVoice v .guard s else s) u) x = getSlice u x :=
    (forEach_changes (P := [.riders]) _ _ _
      (fun _ _ h => Changes.ite (fun _ => markVoice_changes _ _ _ (by decide) h) fun _ => h) (Changes.refl _ u)).getSlice x
  have logs (code : Code) (owner : Owner) (u : State) (x : SliceId) : getSlice (record code j.stall.val owner 0 0 u) x = getSlice u x :=
    (record_changes (P := [.funcs]) _ _ _ _ _ _ (by decide) (Changes.refl _ u)).getSlice x
  have raises (u : State) (x : SliceId) : getSlice (raise (guardSource j) u) x = getSlice u x :=
    (raise_changes (P := [.funcs, .irqs]) _ _ (by decide) (Changes.refl _ u)).getSlice x
  unfold guardClip
  dsimp only
  refine ⟨?_, fun x hx => ?_⟩
  · rw [apply_ite (getSlice · j), marks, ite_self]
    split
    next hit => simp [clippedAt, hit]
    next first => rw [apply_ite (getSlice · j), raises, ite_self, logs]; simp [clippedAt, first]
  · rw [apply_ite (getSlice · x), marks, ite_self]
    split
    · exact getSlice_modSlice_other hx _ _
    · rw [apply_ite (getSlice · x), raises, ite_self, logs, getSlice_modSlice_other hx, getSlice_modSlice_other hx]

/-! ## A switch that reads back wrong (R192) -/

/-- The slice is marked faulty, and its port is closed. -/
def Struck (i : SliceId) (s : State) : Prop := (getSlice s i).port = .terminated ∧ (getSlice s i).fault = true

theorem Struck.frame {i : SliceId} {P : List Part} {s t : State} (h : Struck i s) (hc : Changes P s t) (hp : P.contains .slices = false := by decide) :
    Struck i t := by
  rw [Struck, hc.getSlice i hp]
  exact h

theorem closePort_terminated {i j : SliceId} {s : State} (h : (getSlice s j).port = .terminated) : (getSlice (closePort i s) j).port = .terminated := by
  by_cases e : sliceKey j = sliceKey i
  · simp [closePort, getSlice, modSlice, e]
  · rwa [closePort, getSlice_modSlice_other e]

theorem Struck.closePort {i j : SliceId} {s : State} (h : Struck j s) : Struck j (closePort i s) := by
  refine ⟨closePort_terminated h.1, ?_⟩
  by_cases e : sliceKey j = sliceKey i
  · obtain ⟨-, fault⟩ := h
    simpa [Machine.closePort, getSlice, modSlice, e] using e ▸ fault
  · rw [Machine.closePort, getSlice_modSlice_other e]
    exact h.2

theorem faultBit_of_output {i : SliceId} (hi : i.kind ≠ .acq) (s : State) : faultBit i s = modSlice i (fun x => { x with fault := true }) s := by
  unfold faultBit
  split
  · contradiction
  · rfl

theorem setSliceFault_of_output {i : SliceId} (hi : i.kind ≠ .acq) (s : State) : setSliceFault i s = closePort i (faultBit i s) := by
  unfold setSliceFault
  split
  · contradiction
  · rfl

theorem struck_faultBit {i : SliceId} {s : State} (hi : i.kind ≠ .acq) (h : (getSlice s i).port = .terminated) : Struck i (faultBit i s) := by
  simp [Struck, faultBit_of_output hi, h]

theorem struck_setSliceFault {i : SliceId} (hi : i.kind ≠ .acq) (s : State) : Struck i (setSliceFault i s) := by
  simp [Struck, setSliceFault_of_output hi, closePort, faultBit_of_output hi]

theorem Struck.setSliceFault {i j : SliceId} {s : State} (hi : i.kind ≠ .acq) (h : Struck j s) : Struck j (setSliceFault i s) := by
  rw [setSliceFault_of_output hi, faultBit_of_output hi]
  refine Struck.closePort ?_
  by_cases e : sliceKey j = sliceKey i
  · exact ⟨by simpa [Struck, getSlice, modSlice, e] using e ▸ h.1, by simp [getSlice, modSlice, e]⟩
  · rw [Struck, getSlice_modSlice_other e]
    exact h

theorem servedBy_kind {i j : SliceId} {s : State} (h : servedBy s i = some j) : j.kind = i.kind := by
  unfold servedBy at h
  dsimp only at h
  split at h
  · obtain ⟨k, -, rfl⟩ := Option.map_eq_some_iff.mp h
    rfl
  · cases h

/-- A converter fault of an output slice whose port is closed leaves it faulty and its port closed. -/
theorem struck_converterFault {i : SliceId} {s : State} (exists_ : sliceExists i = true) (hi : i.kind ≠ .acq) (on : lifeOf i.stall s ≠ .off)
    (closed : (getSlice s i).port = .terminated) : Struck i (converterFault i s) := by
  have calm : Changes [.funcs, .irqs, .stalls, .farriers] s (calFault i s) := calFault_changes _ _ (by decide) (Changes.refl _ s)
  have fails (k : SliceKind) (u : State) : Changes (allBut .slices) u (spareFails i.stall k u) := spareFails_changes _ _ _ (by decide) (Changes.refl _ u)
  have told (j : SliceId) (u : State) : Changes (allBut .slices) u (noSpare j (markSliceShots j u)) :=
    noSpare_changes _ _ (by decide) (markSliceShots_changes _ _ (by decide) (Changes.refl _ u))
  have none_ (u : State) : Changes (allBut .slices) u (noSpare i u) := noSpare_changes _ _ (by decide) (Changes.refl _ u)
  have forced (u : State) : Changes (allBut .slices) u (beginForced i u) := beginForced_changes _ _ (by decide) (Changes.refl _ u)
  have marked (u : State) : Changes (allBut .slices) u (markSliceShots i u) := markSliceShots_changes _ _ (by decide) (Changes.refl _ u)
  have live : ¬((getStall s i.stall).life = .off ∨ (!sliceExists i) = true) := by simp [exists_]; exact on
  rw [converterFault, if_neg live]
  dsimp only
  split
  next j served => exact (((struck_setSliceFault hi _).frame (fails _ _)).setSliceFault (servedBy_kind served ▸ hi)).frame (told j _)
  next =>
    split
    · exact (struck_setSliceFault hi _).frame (fails _ _)
    split
    · exact struck_faultBit hi (by rw [calm.getSlice]; exact closed)
    split
    · exact ((struck_setSliceFault hi _).frame (marked _)).frame (forced _)
    · exact ((struck_setSliceFault hi _).frame (marked _)).frame (none_ _)

/-! ## The statement -/

theorem sliceExists_of_wf {i : SliceId} (h : i.wf = true) : sliceExists i = true := by
  obtain ⟨n, k, x⟩ := i
  cases k <;> simp_all [SliceId.wf, sliceExists, Nat.lt_succ_iff]

theorem onSlice_of_output {i : SliceId} (h : i.wf = true) (hi : i.kind ≠ .acq) (f : State → State) (s : State) : onSlice i f s = .next (f s) := by
  simp [onSlice, outSliceOk, sliceExists_of_wf h, hi]

/-- What a write to SL_CTL sets at once. -/
def slCtlSet (val : Word) (x : Slice) : Slice := { x with portEn := bit val 24, attenPend := some (bits val 16 5), scale := bits val 0 16 }

theorem getSlice_openPort (i : SliceId) (s : State) :
    getSlice (openPort i s) i =
      if (getSlice s i).port = .terminated ∧ (getSlice s i).portEn ∧ (!(getSlice s i).fault ∨ carried s i) ∧ !(getStall s i.stall).factoryHold ∧ !isSpare i
      then { getSlice s i with port := .opening, portAt := s.clock.now } else getSlice s i := by
  unfold openPort
  rw [apply_ite (getSlice · i), getSlice_modSlice]

/-- A slice after a write to its SL_CTL: its port follows PORT_EN (Table 04-2). -/
theorem getSlice_slCtl {i : SliceId} (own : isSpare i = false) (val : Word) (s : State) :
    getSlice (slCtl i val s) i =
      if bit val 24 then
        (if lifeOf i.stall s = .riding then getSlice (openPort i (modSlice i (slCtlSet val) s)) i else slCtlSet val (getSlice s i))
      else if (getSlice s i).port = .terminated then slCtlSet val (getSlice s i)
      else { slCtlSet val (getSlice s i) with port := .terminated, portAt := s.clock.now } := by
  have stall (n : StallId) : getStall (modSlice i (slCtlSet val) s) n = getStall s n :=
    (modSlice_changes (P := [.slices]) i _ _ (by decide) (Changes.refl _ s)).getStall n
  have writes : slCtl i val s = if bit val 24 then
        (if (getStall (modSlice i (slCtlSet val) s) i.stall).life = .riding then openPort i (modSlice i (slCtlSet val) s) else modSlice i (slCtlSet val) s)
      else if (getSlice (modSlice i (slCtlSet val) s) i).port = .terminated then modSlice i (slCtlSet val) s else closePort i (modSlice i (slCtlSet val) s) :=
    if_neg (by simp [own])
  rw [writes, stall, apply_ite (getSlice · i), apply_ite (getSlice · i), apply_ite (getSlice · i), getSlice_modSlice, closePort, getSlice_modSlice,
    getSlice_modSlice]
  rfl

/-- Settles O26. Every SL_CTL write leaves a waiting setting, also one that repeats the setting in force (log entry 186, the model's choice where R189 is
silent), and a write to a spare's own registers outside a takeover does nothing (log entry 45). -/
theorem sliceOutputsFollowTheirRules : Obligations.SliceOutputsFollowTheirRules := by
  refine ⟨fun s i j k n wf out stands hn => ⟨fun clip => ?clip, fun noClip => ?noClip⟩, fun s f i wf out own hadm => ?clear,
    fun s f i wf out spare hadm val => ⟨?spareClear, fun hctl => ?spareCtl⟩, fun s f i val wf out own hadm => ?ctl, fun s i wf out may => ?atten,
    fun s i wf out opening => ?opens, fun s i wf out on closed => ?mismatch⟩
  case clip =>
    have guards : exec (.sumGuardClip i k) s = .next (guardClip j (n * 16) s) := by
      refine (onSlice_of_output wf out _ s).trans (congrArg Host.Outcome.next ?_)
      rw [hn] at clip ⊢
      simp only [sumGuard, stands, clip, if_true]
    obtain ⟨own, other⟩ := guardClip_slices j (n * 16) s
    refine ⟨_, guards, ?_, ?_, ?_, ?_, other, guardClip_changes _ _ _ (by decide) (Changes.refl _ s)⟩ <;> rw [own]
    all_goals rfl
  case noClip =>
    refine (onSlice_of_output wf out _ s).trans (congrArg Host.Outcome.next ?_)
    rw [hn] at noClip
    simp [sumGuard, stands, noClip]
  case clear =>
    refine ⟨_, (onSlice_of_output wf out _ s).trans (congrArg Host.Outcome.next ((hostWrite_of_admits hadm _).trans (congrFun (if_neg (by simp [own])) s))), ?_, ?_⟩
    · simp
    · exact modSlice_changes _ _ _ (by decide) (Changes.refl _ s)
  case spareClear =>
    exact (onSlice_of_output wf out _ s).trans (congrArg Host.Outcome.next ((hostWrite_of_admits hadm _).trans (by simp [spare])))
  case spareCtl =>
    exact (onSlice_of_output wf out _ s).trans (congrArg Host.Outcome.next ((hostWrite_of_admits hctl _).trans (if_pos spare)))
  case ctl =>
    refine ⟨slCtl i val s, (onSlice_of_output wf out _ s).trans (congrArg Host.Outcome.next (hostWrite_of_admits hadm _)), ?_⟩
    have fields := getSlice_slCtl own val s
    have set : getSlice (modSlice i (slCtlSet val) s) i = slCtlSet val (getSlice s i) := getSlice_modSlice _ _ _
    by_cases on : bit val 24 = true
    · by_cases riding : lifeOf i.stall s = .riding
      · rw [if_pos on, if_pos riding, getSlice_openPort, set] at fields
        rw [fields]
        refine ⟨?_, ?_, ?_, ?_, by simp [on], fun _ _ closed sound held => ?_, by simp [riding], slCtl_changes _ _ _ (by decide) (Changes.refl _ s)⟩
        case refine_5 =>
          have may : (slCtlSet val (getSlice s i)).port = .terminated ∧ (slCtlSet val (getSlice s i)).portEn = true ∧
              ((!(slCtlSet val (getSlice s i)).fault) = true ∨ carried (modSlice i (slCtlSet val) s) i = true) ∧
              (!(getStall (modSlice i (slCtlSet val) s) i.stall).factoryHold) = true ∧ (!isSpare i) = true := by
            simp [slCtlSet, closed, on, sound, own]
            exact held
          rw [if_pos may]
        all_goals split <;> rfl
      · rw [if_pos on, if_neg riding] at fields
        rw [fields]
        exact ⟨rfl, rfl, rfl, rfl, by simp [on], by simp [riding], fun _ _ => rfl, slCtl_changes _ _ _ (by decide) (Changes.refl _ s)⟩
    · rw [if_neg on] at fields
      rw [fields]
      refine ⟨?_, ?_, ?_, ?_, fun _ => ?_, by simp [on], by simp [on], slCtl_changes _ _ _ (by decide) (Changes.refl _ s)⟩
      case refine_5 =>
        split
        next closed => exact closed
        next => rfl
      all_goals split <;> rfl
  case atten =>
    refine ⟨_, (onSlice_of_output wf out _ s).trans (congrArg Host.Outcome.next (if_pos may)), by simp, ?_⟩
    exact modSlice_changes _ _ _ (by decide) (Changes.refl _ s)
  case opens =>
    refine ⟨_, (onSlice_of_output wf out _ s).trans (congrArg Host.Outcome.next (if_pos opening)), by simp, ?_⟩
    exact modSlice_changes _ _ _ (by decide) (Changes.refl _ s)
  case mismatch =>
    have mismatches : exec (.switchReadbackMismatch i) s =
        .next (converterFault i (record (if i.kind = .drive then 0x3125 else 0x3135) i.stall.val (sliceOwner s i) 0 0 s)) :=
      congrArg Host.Outcome.next (if_neg (by simp [out, sliceExists_of_wf wf, on, closed]))
    have logged : Changes [.funcs] s (record (if i.kind = .drive then 0x3125 else 0x3135) i.stall.val (sliceOwner s i) 0 0 s) :=
      record_changes _ _ _ _ _ _ (by decide) (Changes.refl _ s)
    obtain ⟨terminated, fault⟩ := struck_converterFault
      (s := record (if i.kind = .drive then 0x3125 else 0x3135) i.stall.val (sliceOwner s i) 0 0 s) (sliceExists_of_wf wf) out (by simpa only [lifeOf, logged.getStall] using on)
      (by rw [logged.getSlice]; exact closed)
    exact ⟨_, mismatches, terminated, fault, converterFault_changes _ _ (by decide) (logged.mono (by decide))⟩

end Sys2Proof.Machine
end

section
/-!
PROOFS. The host's posts to a voice (O27).
-/

namespace Sys2Proof.Machine

set_option Elab.async false

open Sys2Proof

/-! ## Posts (R220 to R227) -/

/-- Whether a post is refused does not depend on the voice's own registers. -/
theorem postCode_counted (g : Grant) (v : VoiceId) (p : Post) (s : State) : postCode (counted g (countVoice v) s) v p = postCode s v p := by
  have frame : Changes [.voices] s (counted g (countVoice v) s) := counted_changes g v s (by decide)
  simp only [postCode, voiceServed, descAt, frame.getSeq, frame.getStall, frame.clock, frame.descs]
  rfl

theorem getSeq_counted (g : Grant) (v w : VoiceId) (s : State) : getSeq (counted g (countVoice v) s) w = getSeq s w :=
  (counted_changes (P := [.voices]) g v s (by decide)).getSeq w

theorem clock_counted (g : Grant) (v : VoiceId) (s : State) : (counted g (countVoice v) s).clock = s.clock :=
  (counted_changes (P := [.voices]) g v s (by decide)).clock

section
variable {s : State} {f : Func} {v : VoiceId} (hadm : admits s f (.seq v .post) = true) (g : Grant)
include hadm

/-- A post that nothing refuses is granted after the count of its held element (R706). -/
theorem hostPost_of_accepted {p : State → Post} (same : p (counted g (countVoice v) s) = p s) (h : postCode s v (p s) = none) :
    hostPost f v g p s = applyPost v (p s) (counted g (countVoice v) s) := by
  rw [hostPost, hostElement_of_admits hadm g (countVoice v) (by rw [same, postCode_counted, h]), same]

/-- A post that reads no register of the voice, granted. -/
theorem hostPost_of_plain {p : Post} (h : postCode s v p = none) : hostPost f v g (fun _ => p) s = applyPost v p (counted g (countVoice v) s) :=
  hostPost_of_accepted hadm g (p := fun _ => p) rfl h

theorem hostPost_of_refused {p : State → Post} (same : p (counted g (countVoice v) s) = p s) {code : Code} (h : postCode s v (p s) = some code) :
    hostPost f v g p s = refuseReg f (.seq v .post) code (counted g (countVoice v) s) :=
  hostElement_of_code hadm g (countVoice v) (by rw [same, postCode_counted, h]) _

end

/-- A selection for the coming boundary (R222). -/
theorem postSelection_free {v : VoiceId} {s : State} (x : Selection) (open_ : (getSeq s v).committed = false) (free : (getSeq s v).sel = none) :
    postSelection v x s = modSeq v (fun q => { q with sel := some (x, false), selAt := s.clock.sched }) s := by
  simp [postSelection, open_, free]

/-- A selection behind another one (R226). -/
theorem postSelection_held {v : VoiceId} {s : State} (x : Selection) (open_ : (getSeq s v).committed = false) (held : (getSeq s v).sel.isSome = true) :
    postSelection v x s = countVoice v (modSeq v (fun q => { q with later := q.later ++ [x] }) s) := by
  obtain ⟨y, hy⟩ := Option.isSome_iff_exists.mp held
  simp [postSelection, open_, hy]

/-- A selection past the commit point (R225). -/
theorem postSelection_late {v : VoiceId} {s : State} (x : Selection) (late : (getSeq s v).committed = true) :
    postSelection v x s = countLate v (modSeq v (fun q => { q with later := q.later ++ [x] }) s) := by
  simp [postSelection, late]

theorem postBreak_hold {v : VoiceId} {s : State} (hold : (getSeq s v).state = .hold) (open_ : (getSeq s v).committed = false) :
    postBreak v s = postSelection v .break_ s := by
  simp [postBreak, hold, open_]

theorem getSeq_countLate (v : VoiceId) (s : State) : getSeq (countLate v s) v = { getSeq s v with late := satInc (getSeq s v).late } := by
  rw [countLate, (recordVoice_changes (P := [.funcs]) _ _ _ (by decide) (Changes.refl _ _)).getSeq, getSeq_modSeq]

theorem noted_countLate (v : VoiceId) (s : State) : noted (countLate v s) 0 0x0201 = true := noted_record ..

theorem getSeq_countLate_other {v w : VoiceId} (h : w ≠ v) (s : State) : getSeq (countLate v s) w = getSeq s w := by
  rw [countLate, (recordVoice_changes (P := [.funcs]) _ _ _ (by decide) (Changes.refl _ _)).getSeq, getSeq_modSeq_other h]

/-- A post that changes the voice's sequencer alone. -/
theorem seq_posted {u : State} {v : VoiceId} (fn : Seq → Seq) {s : State} (same : ∀ w, getSeq u w = getSeq s w) :
    getSeq (modSeq v fn u) v = fn (getSeq s v) ∧ (∀ w, w ≠ v → getSeq (modSeq v fn u) w = getSeq s w) ∧ Changes [.seqs] u (modSeq v fn u) :=
  ⟨by rw [getSeq_modSeq, same], fun w hw => by rw [getSeq_modSeq_other hw, same], modSeq_changes _ _ _ (by decide) (Changes.refl _ u)⟩

/-- Settles O27: a post that nothing refuses is granted, one past the commit point counts late. -/
theorem postsReachTheSequencer : Obligations.PostsReachTheSequencer := by
  intro s f v desc g u hu hadm
  obtain rfl : u = counted g (countVoice v) s := hu
  have same := getSeq_counted g v
  have clock := clock_counted g v s
  refine ⟨fun ok => ?start, fun ok => ?loadAlt, fun ok open_ free => ?selectAlt, fun ok late => ?selectLate, fun ok open_ free => ?branch,
    fun ok hold open_ free => ?break_, fun ok open_ free => ?stop, fun ok open_ held => ?stopHeld, fun c p which code refused => ?refused⟩
  case start =>
    have post := hostPost_of_accepted hadm g (p := fun s => .start (postDesc desc) (getSeq s v).startReg) (by simp only [same]) ok
    exact ⟨_, congrArg Host.Outcome.next post, seq_posted _ (same · s)⟩
  case loadAlt =>
    exact ⟨_, congrArg Host.Outcome.next (hostPost_of_plain hadm g ok), seq_posted _ (same · s)⟩
  case selectAlt =>
    have post := (hostPost_of_plain hadm g ok).trans (postSelection_free .alt (by rw [same]; exact open_) (by rw [same]; exact free))
    rw [clock] at post
    exact ⟨_, congrArg Host.Outcome.next post, seq_posted _ (same · s)⟩
  case selectLate =>
    have post := (hostPost_of_plain hadm g ok).trans (postSelection_late .alt (by rw [same]; exact late))
    refine ⟨_, congrArg Host.Outcome.next post, ?_, noted_countLate _ _, fun w hw => ?_, ?_⟩
    · rw [getSeq_countLate, getSeq_modSeq, same]
    · rw [getSeq_countLate_other hw, getSeq_modSeq_other hw, same]
    · exact countLate_changes _ _ (by decide) (modSeq_changes _ _ _ (by decide) (Changes.refl _ _))
  case branch =>
    have moved (w : VoiceId) (fn : Seq → Seq) : Changes [.seqs] (counted g (countVoice v) s) (modSeq w fn (counted g (countVoice v) s)) :=
      modSeq_changes _ _ _ (by decide) (Changes.refl _ _)
    have post := (hostPost_of_plain hadm g ok).trans (postSelection_free (.branch (getSeq (counted g (countVoice v) s) v).nextBranch)
      (by rw [getSeq_modSeq, same]; exact open_) (by rw [getSeq_modSeq, same]; exact free))
    rw [(moved _ _).clock, clock, same] at post
    refine ⟨_, congrArg Host.Outcome.next post, ?_, fun w hw => ?_, modSeq_changes _ _ _ (by decide) (moved _ _)⟩
    · rw [getSeq_modSeq, getSeq_modSeq, same]
    · rw [getSeq_modSeq_other hw, getSeq_modSeq_other hw, same]
  case break_ =>
    have post := (hostPost_of_plain hadm g ok).trans ((postBreak_hold (by rw [same]; exact hold) (by rw [same]; exact open_)).trans
      (postSelection_free .break_ (by rw [same]; exact open_) (by rw [same]; exact free)))
    rw [clock] at post
    exact ⟨_, congrArg Host.Outcome.next post, seq_posted _ (same · s)⟩
  case stop =>
    have post := (hostPost_of_plain hadm g ok).trans (postSelection_free .stop (by rw [same]; exact open_) (by rw [same]; exact free))
    rw [clock] at post
    exact ⟨_, congrArg Host.Outcome.next post, seq_posted _ (same · s)⟩
  case stopHeld =>
    have post := (hostPost_of_plain hadm g ok).trans (postSelection_held .stop (by rw [same]; exact open_) (by rw [same]; exact held))
    refine ⟨_, congrArg Host.Outcome.next post, ?_, ?_, ?_⟩
    · rw [countVoice, (modVoice_changes (P := [.voices]) _ _ _ (by decide) (Changes.refl _ _)).getSeq, getSeq_modSeq, same]
    · rw [countVoice, getVoice_modVoice, (modSeq_changes (P := [.seqs]) _ _ _ (by decide) (Changes.refl _ _)).getVoice]
    · exact modVoice_changes _ _ _ (by decide) (modSeq_changes _ _ _ (by decide) (Changes.refl _ _))
  case refused =>
    have posted {p' : State → Post} (e : p' s = p) (e' : p' (counted g (countVoice v) s) = p' s) : ∃ t, (.next (hostPost f v g p' s) : Res) = .next t ∧
        (getFunc t f).lastCode = code ∧ noted t 0 code = true ∧ Changes [.funcs] (counted g (countVoice v) s) t :=
      ⟨_, congrArg Host.Outcome.next (hostPost_of_refused hadm g e' (e ▸ refused)), by simp, by simp,
        refuseReg_changes _ _ _ _ (by decide) (Changes.refl _ _)⟩
    obtain ⟨rfl, rfl⟩ | ⟨rfl, rfl⟩ | ⟨rfl, rfl⟩ | ⟨rfl, rfl⟩ | ⟨rfl, rfl⟩ | ⟨rfl, rfl⟩ := which
    · exact posted (p' := fun s => .start (postDesc desc) (getSeq s v).startReg) rfl (by simp only [same])
    all_goals exact posted (p' := fun _ => _) rfl rfl

end Sys2Proof.Machine
end

section
/-!
PROOFS. The instants of a play (O28).
-/

namespace Sys2Proof.Machine

set_option Elab.async false

open Sys2Proof

/-! ## A PLAY segment that starts (R167, R211) -/

/-- A segment that is no stream takes no words: its voice alone, the tuning and the chain move. -/
theorem startSegment_of_no_stream {p : PortSeg} (h : isStream p.desc = false) (v : VoiceId) (at_ : Fine) (s : State) :
    startSegment v p at_ s = modSeq v (refill (segmentBegun v p at_ s) v) (segmentBegun v p at_ s) := by
  simp only [startSegment, h, Bool.false_eq_true, if_false]
  rfl

theorem isStream_of_play {d : Desc} (h : descKind d = 0) : isStream d = false := by
  simp [isStream, h]

/-- A PLAY segment in play, its tuning in force (R167). -/
structure PlayStarts (v : VoiceId) (p : PortSeg) (at_ : Fine) (s t : State) : Prop where
  state : (getSeq t v).state = .play
  cur : (getSeq t v).cur = p.idx
  desc : (getSeq t v).desc = p.desc
  segTime : (getSeq t v).segTime = at_
  rep : (getSeq t v).rep = 0
  startOff : (getSeq t v).startOff = (getSeq s v).startOff
  start : (getSeq t v).start = (getSeq s v).start
  pend : (getVoice t v).pend = {}
  changes : Changes [.voices, .seqs, .chans, .units, .riders, .trims] s t

theorem startSegment_of_play {p : PortSeg} (kind : descKind p.desc = 0) (v : VoiceId) (at_ : Fine) (s : State) :
    PlayStarts v p at_ s (startSegment v p at_ s) := by
  have begun : Changes [.voices, .seqs, .chans, .units, .riders, .trims] s (segmentBegun v p at_ s) :=
    modSeq_changes _ _ _ (by decide) (tuneVoice_changes _ _ (by decide) (Changes.refl _ s))
  have own : getSeq (startSegment v p at_ s) v =
      { getSeq (segmentBegun v p at_ s) v with prim := (refill (segmentBegun v p at_ s) v (getSeq (segmentBegun v p at_ s) v)).prim } := by
    rw [startSegment_of_no_stream (isStream_of_play kind), getSeq_modSeq]
    exact refill_eq _ v _
  have voice : getVoice (startSegment v p at_ s) v = getVoice (tuneVoice v s) v := by
    rw [startSegment_of_no_stream (isStream_of_play kind), (modSeq_changes (P := [.seqs]) _ _ _ (by decide) (Changes.refl _ _)).getVoice,
      segmentBegun, (modSeq_changes (P := [.seqs]) _ _ _ (by decide) (Changes.refl _ _)).getVoice]
  have tuned := getSeq_tuneVoice v v s
  refine ⟨?_, ?_, ?_, ?_, ?_, ?_, ?_, ?_, ?_⟩
  case refine_8 => rw [voice, (tuneVoice_voices v s).1]; rfl
  case refine_9 =>
    rw [startSegment_of_no_stream (isStream_of_play kind)]
    exact modSeq_changes _ _ _ (by decide) begun
  all_goals rw [own]; simp [segmentBegun, kindState, kind, countDiscard, tuned]

theorem takePort_primary {v : VoiceId} {p : PortSeg} {rest : List PortSeg} {s : State} (head : (getSeq s v).prim = p :: rest) (ready : p.state = .ready)
    (at_ : Fine) : takePort v .primary at_ s = startSegment v p at_ (modSeq v (fun q => { q with prim := q.prim.drop 1 }) s) :=
  takePort_ready (w := .primary) (by rw [portHead, head]; rfl) ready at_

/-! ## A load that ends while its voice waits for nothing (R217, R218) -/

theorem portReady_of_not_waiting {v : VoiceId} {s : State} (h : (getSeq s v).state ≠ .waiting) (w : WaitPort) : portReady v w s = s := by
  simp [portReady, h]

theorem portEmpty_of_not_waiting {v : VoiceId} {s : State} (h : (getSeq s v).state ≠ .waiting) (w : WaitPort) : portEmpty v w s = s := by
  simp [portEmpty, h]

/-! ## The end of a segment (R205, R212) -/

/-- A segment past its commit point, with no fork and no selection, gives its successor its end. -/
theorem boundaryAtVoice_of_play {v : VoiceId} {s : State} (play : (getSeq s v).state = .play) (committed : (getSeq s v).committed = true)
    (unforked : (getSeq s v).fork = none) (unselected : (getSeq s v).sel = none) :
    boundaryAtVoice v s =
      if descStop (getSeq s v).desc then goIdle v s else takePort v .primary (boundaryAt s (getSeq s v) true) (modSeq v promote s) := by
  simp [boundaryAtVoice, segmentEnd, play, playBoundary, committed, unforked, takeSuccessor, unselected, tellRider]

theorem segBeats_of_play {d : Desc} (h : descKind d = 0) : segBeats d = some ((descRepeat d + 1) * descLength d) := by
  simp [segBeats, h]

theorem boundaryAt_of_segEnd {q : Seq} {n : Nat} (h : segEnd q = some n) (s : State) : boundaryAt s q true = q.segTime + n * fineBeat := by
  simp [boundaryAt, h]

/-- Settles O28. That VS_SEG_TIME of a START is the beat boundary below its start time is log entry 178, the model's reading of Table 05-5. -/
theorem playsStartRepeatAndEnd : Obligations.PlaysStartRepeatAndEnd := by
  refine ⟨fun s v d t0 p rest starts idle head ready kind => ?start, fun s v p alt loading served => ⟨fun ok => ?loaded, fun c bad => ?bad⟩,
    fun s v play open_ free => ?commit, fun s v play more kind unbroken => ?repetition, fun s v play committed unforked free => ?boundary⟩
  case start =>
    have set (fn : Seq → Seq) : getSeq (modSeq v fn s) v = fn (getSeq s v) := getSeq_modSeq _ _ _
    have plays : exec (.playStart v) s = .next (startSegment v p (t0 / fineBeat * fineBeat) (modSeq v (fun q => { q with prim := q.prim.drop 1 })
        (modSeq v (fun q => { q with start := none, startOff := BitVec.ofNat 8 (t0 % fineBeat) }) s))) := by
      refine congrArg Host.Outcome.next ?_
      simp only [playStart, starts, idle, if_true]
      exact takePort_primary (rest := rest) (by rw [set]; exact head) ready _
    obtain ⟨state, cur, desc, segTime, -, startOff, start, pend, changes⟩ := startSegment_of_play kind v (t0 / fineBeat * fineBeat)
      (modSeq v (fun q => { q with prim := q.prim.drop 1 }) (modSeq v (fun q => { q with start := none, startOff := BitVec.ofNat 8 (t0 % fineBeat) }) s))
    rw [getSeq_modSeq, set] at startOff start
    refine ⟨_, plays, state, cur, desc, segTime, startOff, start, pend, ?_⟩
    exact Changes.trans (modSeq_changes _ _ _ (by decide) (modSeq_changes _ _ _ (by decide) (Changes.refl _ s))) changes
  case loaded =>
    have loads : exec (.descriptorLoadDone v .alternate) s =
        .next (modSeq v (fun q => { q with alt := some (loaded s v.stall (descAt s v.stall p.idx) p) }) s) := by
      refine congrArg Host.Outcome.next ?_
      simp only [altLoaded, alt, loading, if_true, ok]
      exact portReady_of_not_waiting (by rw [getSeq_modSeq]; exact served) _
    exact ⟨_, loads, seq_posted _ fun _ => rfl⟩
  case bad =>
    have fails : exec (.descriptorLoadDone v .alternate) s = .next (recordVoice c v (modSeq v (fun q => { q with alt := none }) s)) := by
      refine congrArg Host.Outcome.next ?_
      simp only [altLoaded, alt, loading, if_true, bad]
      refine portEmpty_of_not_waiting ?_ _
      rw [(recordVoice_changes (P := [.funcs]) _ _ _ (by decide) (Changes.refl _ _)).getSeq, getSeq_modSeq]
      exact served
    have told (w : VoiceId) (u : State) : getSeq (recordVoice c v u) w = getSeq u w :=
      (recordVoice_changes (P := [.funcs]) _ _ _ (by decide) (Changes.refl _ _)).getSeq w
    refine ⟨_, fails, by rw [told, getSeq_modSeq], noted_record .., fun w hw => by rw [told, getSeq_modSeq_other hw], ?_⟩
    exact recordVoice_changes _ _ _ (by decide) (modSeq_changes _ _ _ (by decide) (Changes.refl _ s))
  case commit =>
    have unchosen : preferReady (getSeq s v) = getSeq s v := by simp [preferReady, free]
    have commits : exec (.commitPoint v) s = .next (modSeq v (fun q => { q with committed := true }) (modSeq v preferReady s)) := by
      refine congrArg Host.Outcome.next ?_
      simp only [commitPoint, play, open_, true_or, Bool.not_false, and_self, if_true, judge, getSeq_modSeq, unchosen, free]
    refine ⟨_, commits, by rw [getSeq_modSeq, getSeq_modSeq, unchosen], fun w hw => by rw [getSeq_modSeq_other hw, getSeq_modSeq_other hw], ?_⟩
    exact modSeq_changes _ _ _ (by decide) (modSeq_changes _ _ _ (by decide) (Changes.refl _ s))
  case repetition =>
    have repeats : exec (.repetitionBoundary v) s = .next (tuneVoice v (modSeq v (fun q => { q with rep := q.rep + 1, beat := 0 }) s)) :=
      congrArg Host.Outcome.next (if_pos (by simp [supplies, play, more, segBeats_of_play kind, unbroken]))
    refine ⟨_, repeats, ?_, ?_, fun w hw => ?_, tuneVoice_changes _ _ (by decide) (modSeq_changes _ _ _ (by decide) (Changes.refl _ s))⟩
    · rw [getSeq_tuneVoice, getSeq_modSeq]
    · rw [(tuneVoice_voices v _).1]
      rfl
    · rw [getSeq_tuneVoice, getSeq_modSeq_other hw]
  case boundary =>
    have ends := boundaryAtVoice_of_play play committed unforked free
    refine ⟨fun stop => ?_, fun p rest n next head ready kind hn => ?_⟩
    · rw [if_pos stop] at ends
      exact ⟨_, congrArg Host.Outcome.next ends, by simp [goIdle], by simp [goIdle], by simp [goIdle], goIdle_changes _ _ (by decide) (Changes.refl _ s)⟩
    · have promoted : (getSeq (modSeq v promote s) v).prim = p :: rest := by
        rw [getSeq_modSeq, promote]
        split <;> exact head
      rw [if_neg (by simp [next]), takePort_primary promoted ready] at ends
      obtain ⟨state, cur, desc, segTime, rep, -, -, -, changes⟩ := startSegment_of_play kind v (boundaryAt s (getSeq s v) true)
        (modSeq v (fun q => { q with prim := q.prim.drop 1 }) (modSeq v promote s))
      refine ⟨_, congrArg Host.Outcome.next ends, state, cur, desc, ?_, rep, ?_⟩
      · rw [segTime, boundaryAt_of_segEnd hn]
      · exact Changes.trans (modSeq_changes _ _ _ (by decide) (modSeq_changes _ _ _ (by decide) (Changes.refl _ s))) changes

end Sys2Proof.Machine
end

section
/-!
PROOFS. Streams and the page window (O29).
-/

namespace Sys2Proof.Machine

set_option Elab.async false

open Sys2Proof

/-! ## A stream that runs out of words (R240) -/

theorem noted_markVoice (v : VoiceId) (c : ShotCause) (f : Func) (code : Code) (s : State) : noted (markVoice v c s) f code = noted s f code :=
  (markVoice_changes (P := [.riders]) v c s (by decide) (Changes.refl _ s)).noted f code

/-- An underrun counts once and marks its voice and the shots that use it. -/
theorem beginUnderrun_effect (v : VoiceId) (s : State) :
    getSeq (beginUnderrun v s) v = { getSeq s v with under := true, events := satInc (getSeq s v).events } ∧
    noted (beginUnderrun v s) 0 0x3205 = true ∧ (∀ w, w ≠ v → getSeq (beginUnderrun v s) w = getSeq s w) ∧
    Changes [.funcs, .seqs, .riders] s (beginUnderrun v s) := by
  have told (w : VoiceId) (u : State) : getSeq (markVoice v .seq (recordVoice 0x3205 v u)) w = getSeq u w :=
    (markVoice_changes (P := [.funcs, .riders]) _ _ _ (by decide) (recordVoice_changes _ _ _ (by decide) (Changes.refl _ u))).getSeq w
  refine ⟨?_, ?_, fun w hw => ?_, beginUnderrun_changes _ _ (by decide) (Changes.refl _ s)⟩
  · rw [beginUnderrun, told, getSeq_modSeq]
  · rw [beginUnderrun, noted_markVoice]
    exact noted_record ..
  · rw [beginUnderrun, told, getSeq_modSeq_other hw]

/-! ## A stream whose words arrive again (R241) -/

/-- The first word that a stream takes is the first one that its queue stores. -/
theorem streamTake_head {v : VoiceId} {q : QueueId} {s u : State} {w : QWord} (owns : (queueAlloc s q).bind (·.consumer) = some (.voice v))
    (free : queueHeld s q = false) (stored : takeWord q s = some (w, u)) {n : Nat} (hn : 0 < n) : (streamTake v q n s).1.head? = some w.word := by
  obtain ⟨n, rfl⟩ := Nat.exists_eq_succ_of_ne_zero hn.ne'
  simp [streamTake, owns, free, stored]

theorem takeWord_of_queues {q : QueueId} {s t u : State} {w : QWord} (h : t.queues = s.queues) (stored : takeWord q s = some (w, u)) :
    ∃ u', takeWord q t = some (w, u') := by
  unfold takeWord at stored ⊢
  rw [show getQueue t q = getQueue s q by simp only [getQueue, h]]
  split at stored
  · cases stored
  · obtain ⟨rfl, -⟩ := Prod.mk.inj (Option.some.inj stored)
    exact ⟨_, rfl⟩

theorem streamTake_seqs (v : VoiceId) (q : QueueId) (n : Nat) (s : State) (w : VoiceId) : getSeq (streamTake v q n s).2 w = getSeq s w :=
  (streamTake_changes (P := [.queues, .qdir]) v q n s (by decide) (Changes.refl _ s)).getSeq w

theorem discardBacklog_of_empty {v : VoiceId} {id : QueueId} {s : State} (h : backlogOf (getSeq s v) id = 0) :
    discardBacklog v id s = modSeq v (fun q => setBacklog id (backlogOf q id - 0) (countDiscard 0 q)) s := by
  simp [discardBacklog, h, streamTake]

/-- A stream in play with no words, no backlog and nothing ahead takes the words that its queue gives. -/
theorem fillPlay_of_empty {v : VoiceId} {s : State} (backlog : (getSeq s v).backlog = []) (ahead : (getSeq s v).ahead = none)
    (empty : (getSeq s v).play.words = []) :
    ∃ t, t.queues = s.queues ∧ t.stallImages = s.stallImages ∧ t.qdir = s.qdir ∧
      (getSeq (fillPlay v s) v).ahead = none ∧ (getSeq (fillPlay v s) v).play.words =
        (streamTake v (getSeq s v).play.queue (min (playRoom (getSeq s v).play) (getSeq s v).play.toTake) t).1 := by
  have discarded := discardBacklog_of_empty (v := v) (id := (getSeq s v).play.queue) (s := s) (by simp [backlogOf, backlog])
  refine ⟨discardBacklog v (getSeq s v).play.queue s, by rw [discarded]; rfl, by rw [discarded]; rfl, by rw [discarded]; rfl, ?_, ?_⟩
  all_goals
    simp only [fillPlay, ahead, Option.any_none, Bool.false_eq_true, if_false, fillBuf, discarded, getSeq_modSeq, backlogOf, setBacklog, countDiscard,
      backlog, tabDel, List.filter_nil, tabGet_nil, if_true, streamTake_seqs, empty, List.length_nil, List.nil_append, Nat.sub_zero]

theorem fillAhead_of_none {v : VoiceId} {s : State} (h : (getSeq s v).ahead = none) : fillAhead v s = s := by
  simp [fillAhead, h]

/-- Settles O29: a stream that runs out of words counts its underrun once, and goes on with the first word that its queue then stores. -/
theorem streamsAndThePageWindow : Obligations.StreamsAndThePageWindow := by
  refine ⟨fun s v stream fed empty => ?under, fun s u v w stream under backlog ahead empty some_ owns free stored => ?resume,
    fun s f n w val hadm => ⟨fun k place may => ?library, fun k place may => ?desc⟩⟩
  case under =>
    have begins : exec (.streamUnderrun v) s = .next (beginUnderrun v s) := congrArg Host.Outcome.next (if_pos ⟨stream, by simp [fed], empty⟩)
    exact ⟨_, begins, beginUnderrun_effect v s⟩
  case resume =>
    have back : exec (.streamResume v) s =
        .next (modSeq v (fun q => if q.under ∧ q.play.words ≠ [] then { q with under := false } else q) (fillPlay v s)) := by
      refine congrArg Host.Outcome.next ?_
      obtain ⟨-, -, -, -, noAhead, -⟩ := fillPlay_of_empty backlog ahead empty
      simp only [streamBack, backlog, forEach, List.foldl_nil, stream, if_true]
      exact congrArg (modSeq v _) (fillAhead_of_none noAhead)
    obtain ⟨t, queues, images, qdir, -, words⟩ := fillPlay_of_empty backlog ahead empty
    obtain ⟨u', stored⟩ := takeWord_of_queues queues stored
    have first : (getSeq (fillPlay v s) v).play.words.head? = some w.word := by
      rw [words]
      refine streamTake_head (by simpa only [queueAlloc, imageOf, images] using owns) (by simpa only [queueHeld, qdir] using free) stored ?_
      simp only [playRoom]
      omega
    have fed : (getSeq (fillPlay v s) v).play.words ≠ [] := by
      intro none
      rw [none] at first
      cases first
    refine ⟨_, back, ?_, ?_, ?_⟩
    · rw [getSeq_modSeq]
      split
      · rfl
      next still => simpa [fed] using still
    · rw [getSeq_modSeq, apply_ite Seq.play, ite_self]
      exact first
    · exact modSeq_changes _ _ _ (by decide) (fillPlay_changes _ _ (by decide) (Changes.refl _ s))
  case library =>
    have owner : envOwner s n (envPlace (getStall s n).envPage w.val) = some (blockOwner s n (k / 16384)) := by rw [place]; rfl
    have write := hostCheck_of_admits hadm
      (code := fun s => match envOwner s n (envPlace (getStall s n).envPage w.val) with | some o => if mayAct f o then none else some 0x1F01 | none => none)
      (by simp only [owner, may, if_true]) (fun s => envWrite n (envPlace (getStall s n).envPage w.val) val s)
    simp only [place] at write
    refine ⟨_, congrArg Host.Outcome.next write, tabGet_memSet _ _ _ _, fun j hj => tabGet_memSet_ne hj.symm, ?_⟩
    exact Changes.set_library _ rfl (Changes.refl _ s)
  case desc =>
    have owner : envOwner s n (envPlace (getStall s n).envPage w.val) = some (tabGet 0 (imageOf s n).groups (k / 256)) := by rw [place]; rfl
    have write := hostCheck_of_admits hadm
      (code := fun s => match envOwner s n (envPlace (getStall s n).envPage w.val) with | some o => if mayAct f o then none else some 0x1F01 | none => none)
      (by simp only [owner, may, if_true]) (fun s => envWrite n (envPlace (getStall s n).envPage w.val) val s)
    simp only [place] at write
    refine ⟨_, congrArg Host.Outcome.next write, tabGet_memSet _ _ _ _, fun j hj => tabGet_memSet_ne hj.symm, ?_⟩
    exact Changes.set_descs _ rfl (Changes.refl _ s)

end Sys2Proof.Machine
end

section
/-!
PROOFS. The settings of the readout (O30).
-/

namespace Sys2Proof.Machine

set_option Elab.async false

open Sys2Proof

/-! ## Flagged samples of a channel (R250, R255, R256) -/

/-- A channel whose flags and open window alone have changed. -/
def Flagged (x y : Channel) : Prop := y = { x with flagFrom := y.flagFrom, flagTo := y.flagTo, win := y.win }

theorem Flagged.refl (x : Channel) : Flagged x x := rfl

theorem Flagged.trans {x y z : Channel} (h : Flagged x y) (k : Flagged y z) : Flagged x z := by
  unfold Flagged at *
  rw [h] at k
  exact k

/-- Of the channels only `c` has changed, and of it only its flags and its open window. -/
structure ChanFlagged (c : ChanId) (s t : State) : Prop where
  own : Flagged (getChan s c) (getChan t c)
  other : ∀ d, d ≠ c → getChan t d = getChan s d

theorem ChanFlagged.refl (c : ChanId) (s : State) : ChanFlagged c s s := ⟨Flagged.refl _, fun _ _ => rfl⟩

theorem ChanFlagged.trans {c : ChanId} {s t u : State} (h : ChanFlagged c s t) (k : ChanFlagged c t u) : ChanFlagged c s u :=
  ⟨h.own.trans k.own, fun d hd => (k.other d hd).trans (h.other d hd)⟩

theorem ChanFlagged.of_changes {c : ChanId} {P : List Part} {s t : State} (h : Changes P s t) (hp : P.contains .chans = false := by decide) :
    ChanFlagged c s t :=
  ⟨by rw [h.getChan c hp]; exact Flagged.refl _, fun d _ => h.getChan d hp⟩

theorem ChanFlagged.of_modChan (c : ChanId) (f : Channel → Channel) (s : State) (hf : ∀ x, Flagged x (f x)) : ChanFlagged c s (modChan c f s) :=
  ⟨by rw [getChan_modChan]; exact hf _, fun _ hd => getChan_modChan_other hd f s⟩

theorem markWindow_flags (c : ChanId) (f : Window → Window) (extra : Option ShotCause) (s : State) : ChanFlagged c s (markWindow c f extra s) := by
  unfold markWindow
  split
  next w _ => exact (ChanFlagged.of_modChan c (fun x => { x with win := some (f w) }) s fun _ => rfl).trans (.of_changes (onShotOf_changes (P := [.riders]) _ _ _ _ (by decide) (Changes.refl _ _)))
  next => exact ChanFlagged.refl c s

/-- Flagging a channel's samples changes no other channel, and of its own only the flags and the open window. -/
theorem flagChan_flags (c : ChanId) (fr k : Nat) (s : State) : ChanFlagged c s (flagChan c fr k s) := by
  have records (f : CapUnit → CapUnit) (u : UnitId) {v : State} (h : Changes [.units] s v) :
      Changes [.units] s (if capturesChan (getUnit v u) c then modUnit u f v else v) :=
    Changes.ite (fun _ => modUnit_changes _ _ _ (by decide) h) fun _ => h
  have flagged : ChanFlagged c s (modChan c (fun x => { x with flagFrom := fr, flagTo := max x.flagTo (fr + k) }) (forEach (stallUnits c.stall) (fun u s =>
      if capturesChan (getUnit s u) c then
        modUnit u (flagRecord (fr * fineFrame) ((fr + k) * fineFrame) fun t r => { r with settle := earliest t r.settle }) s else s) s)) :=
    (ChanFlagged.of_changes (forEach_changes (P := [.units]) _ _ _ (fun u _ h => records _ u h) (Changes.refl _ s))).trans (.of_modChan c _ _ fun _ => rfl)
  unfold flagChan
  dsimp only
  split
  · split
    · exact flagged.trans (markWindow_flags c _ none _)
    · exact flagged
  · exact flagged

/-! ## The statement -/

theorem acqKey_ne {n m : StallId} {k j : Fin 5} (h : (m, j) ≠ (n, k)) : acqKey n k ≠ acqKey m j := by
  intro e
  obtain ⟨rfl, rfl⟩ := acqKey_inj e
  exact h rfl

theorem getAcq_modAcq_other {n m : StallId} {k j : Fin 5} (h : (m, j) ≠ (n, k)) (f : AcqSlice → AcqSlice) (s : State) :
    getAcq (modAcq n k f s) m j = getAcq s m j :=
  getAcq_modAcq_ne n k f m j s (acqKey_ne h)

/-- A write to a channel's registers that changes the channel alone. -/
theorem chan_written (c : ChanId) (f : Channel → Channel) (s : State) :
    getChan (modChan c f s) c = f (getChan s c) ∧ (∀ d, d ≠ c → getChan (modChan c f s) d = getChan s d) ∧ Changes [.chans] s (modChan c f s) :=
  ⟨getChan_modChan _ _ _, fun _ hd => getChan_modChan_other hd f s, modChan_changes _ _ _ (by decide) (Changes.refl _ s)⟩

theorem stageWrite_kept (reg : StagedReg) (val : Word) (x : Channel) :
    (stageWrite reg val x).ints = x.ints ∧ (stageWrite reg val x).planes = x.planes := by
  cases reg <;> exact ⟨rfl, rfl⟩

/-- Settles O30. A write to the AS_CTL of the spare A4 leaves the state as it was in every state, also outside a takeover (log entry 45). -/
theorem readoutSettingsWaitForTheirInstant : Obligations.ReadoutSettingsWaitForTheirInstant := by
  refine ⟨fun s f n k val own hadm => ?asCtl, fun s f n val hadm => ?a4, fun s n k j stands pending closed unarmed => ?range,
    fun s f c val hadm => ⟨fun mode => ?chCtl, fun reserved => ?badMode⟩, fun s c pending closed => ?filter,
    fun s f c reg val hadm ok => ?staged, fun s f c hadm => ?commit, fun s f n k val hadm ok => ?kernel⟩
  case asCtl =>
    refine ⟨_, congrArg Host.Outcome.next ((hostWrite_of_admits hadm _).trans (if_neg own)), by simp, fun m j h => getAcq_modAcq_other h _ _, ?_⟩
    exact modAcq_changes _ _ _ _ (by decide) (Changes.refl _ s)
  case a4 =>
    refine congrArg Host.Outcome.next ?_
    rw [hostWrite_of_admits hadm]
    exact if_pos rfl
  case range =>
    have free : (boundChans s n j).all (fun c => (getChan s c).win.isNone) = true := by
      simpa only [List.all_eq_true, Option.isNone_iff_eq_none] using closed
    have takes : exec (.rangeTakesEffect n k) s = .next (forEach (boundChans s n j) (fun c u => flagChan c (frameNow u) 8 u)
        (modAcq n j (fun x => { x with inForce := x.range }) s)) := by
      refine congrArg Host.Outcome.next ?_
      simp only [onAcq, stands]
      unfold rangeTakes
      dsimp only
      rw [if_pos ⟨pending, by simp only [free, unarmed, List.isEmpty_nil, Bool.and_self]⟩]
    refine ⟨_, takes, ?_, fun c => ?_, ?_⟩
    · rw [(forEach_changes (P := [.chans, .units, .riders]) _ _ _ (fun _ _ h => flagChan_changes _ _ _ _ (by decide) h) (Changes.refl _ _)).getAcq,
        getAcq_modAcq]
    · have kept := forEach_keep (fun c u => flagChan c (frameNow u) 8 u) (fun u => Flagged (getChan s c) (getChan u c)) (fun d u h => by
          obtain ⟨own, other⟩ := flagChan_flags d (frameNow u) 8 u
          by_cases e : c = d
          · subst e
            exact h.trans own
          · rw [other c e]
            exact h) (boundChans s n j) (modAcq n j (fun x => { x with inForce := x.range }) s) (Flagged.refl _)
      rw [kept]
      exact ⟨rfl, rfl⟩
    · exact forEach_changes _ _ _ (fun _ _ h => flagChan_changes _ _ _ _ (by decide) h) (modAcq_changes _ _ _ _ (by decide) (Changes.refl _ s))
  case chCtl =>
    have write := hostCheck_of_admits hadm (code := fun _ => if bits val 8 2 = (3 : BitVec 2) then some 0x1311 else none) (if_neg mode)
      (modChan c fun x => { x with filter := bits val 8 2, enable := bit val 0 })
    exact ⟨_, congrArg Host.Outcome.next write, chan_written c _ s⟩
  case badMode =>
    have write := hostCheck_of_code hadm (code := fun _ => if bits val 8 2 = (3 : BitVec 2) then some 0x1311 else none) (if_pos reserved)
      (modChan c fun x => { x with filter := bits val 8 2, enable := bit val 0 })
    exact ⟨_, congrArg Host.Outcome.next write, by simp, by simp, refuseReg_changes _ _ _ _ (by decide) (Changes.refl _ s)⟩
  case filter =>
    have takes : exec (.filterTakesEffect c) s = .next (flagChan c (frameNow s) (filterFlags (getChan s c).filter)
        (modChan c (fun x => { x with filterOn := x.filter, was := pastMode s c (frameNow s) }) s)) :=
      congrArg Host.Outcome.next (if_pos ⟨pending, by simp [closed]⟩)
    obtain ⟨own, other⟩ := flagChan_flags c (frameNow s) (filterFlags (getChan s c).filter)
      (modChan c (fun x => { x with filterOn := x.filter, was := pastMode s c (frameNow s) }) s)
    rw [getChan_modChan] at own
    refine ⟨_, takes, by rw [own], by rw [own], fun d hd => ?_, ?_⟩
    · rw [other d hd, getChan_modChan_other hd]
    · exact flagChan_changes _ _ _ _ (by decide) (modChan_changes _ _ _ (by decide) (Changes.refl _ s))
  case staged =>
    have write := hostCheck_of_admits hadm (code := fun s => stagedCode s c reg val) ok (modChan c (stageWrite reg val))
    obtain ⟨own, other, frame⟩ := chan_written c (stageWrite reg val) s
    obtain ⟨ints, planes⟩ := stageWrite_kept reg val (getChan s c)
    exact ⟨_, congrArg Host.Outcome.next write, own, by rw [own, ints], by rw [own, planes], other, frame⟩
  case commit =>
    have write := hostWrite_of_admits hadm (commitSet c)
    by_cases owns : farrierOwns s c = true
    · rw [commitSet, if_pos owns] at write
      obtain ⟨own, other, frame⟩ := chan_written c (fun x => { x with pendInt := some x.stagedInt }) s
      exact ⟨_, congrArg Host.Outcome.next write, by rw [own], by rw [own, if_pos owns], by rw [own], by rw [own], other, frame⟩
    · rw [commitSet, if_neg owns] at write
      obtain ⟨own, other, frame⟩ := chan_written c (fun x => { x with pendInt := some x.stagedInt, pendPlane := some x.stagedPlane }) s
      exact ⟨_, congrArg Host.Outcome.next write, by rw [own], by rw [own, if_neg owns], by rw [own], by rw [own], other, frame⟩
  case kernel =>
    have write := hostCheck_of_admits hadm (code := fun s => kernelCode s f ⟨n, (getStall s n).kernelChan⟩ (getStall s n).kernelBank) ok
      (fun s => { s with kernels := memSet 0 s.kernels (kernelKey ⟨n, (getStall s n).kernelChan⟩ (getStall s n).kernelBank k.val) val })
    exact ⟨_, congrArg Host.Outcome.next write, tabGet_memSet _ _ _ _, fun j hj => tabGet_memSet_ne hj.symm, Changes.set_kernels _ rfl (Changes.refl _ s)⟩

end Sys2Proof.Machine
end

section
/-!
PROOFS. Windows open and decide (O31).
-/

namespace Sys2Proof.Machine

set_option Elab.async false

open Sys2Proof

/-! ## A window opens (R258 to R262) -/

/-- A fold whose every step leaves the state as it was does so too. -/
theorem forEach_of_idle_on {α : Type} {l : List α} {f : α → State → State} {s : State} (idle : ∀ a ∈ l, f a s = s) : forEach l f s = s := by
  induction l with
  | nil => rfl
  | cons a l ih =>
    rw [forEach, List.foldl_cons, idle a (List.mem_cons_self ..)]
    exact ih fun b hb => idle b (List.mem_cons_of_mem _ hb)

/-- Marking a window's shot leaves its channel as it was. -/
theorem getChan_markShot (c d : ChanId) (extra : Option ShotCause) (s : State) : getChan (markWindow c id extra s) d = getChan s d := by
  unfold markWindow
  split
  next w open_ =>
    rw [(onShotOf_changes (P := [.riders]) _ _ _ _ (by decide) (Changes.refl _ _)).getChan]
    by_cases e : d = c
    · subst e
      rw [getChan_modChan]
      simp only [id, ← open_]
    · rw [getChan_modChan_other e]
  next => rfl

/-- The window that a latched open opens with the pending sets of its channel. -/
def OpensAs (q : OpenReq) (x y : Channel) : Prop :=
  y.latch = none ∧ y.pendInt = none ∧ y.pendPlane = none ∧ y.ints = x.pendInt.getD x.ints ∧ y.planes = x.pendPlane.getD x.planes ∧
  ∃ w, y.win = some w ∧ w.start = q.start ∧ w.len = q.len ∧ w.rider = q.rider ∧ w.shot = q.shot ∧ w.lateOpen = q.late ∧ w.ints = y.ints ∧
    w.planes = y.planes

theorem takeIndex_changes_riders (c : ChanId) (q : OpenReq) (s : State) : Changes [.riders] s (takeIndex c q s).1 :=
  takeIndex_changes _ _ _ (by decide) (Changes.refl _ s)

theorem openWindow_opens (c : ChanId) (q : OpenReq) (s : State) : OpensAs q (getChan s c) (getChan (openWindow c q s) c) := by
  have told (code : Code) (u : State) : getChan (recordChan code c u) c = getChan u c :=
    (recordChan_changes (P := [.funcs]) _ _ _ (by decide) (Changes.refl _ u)).getChan c
  have begun := (takeIndex_changes_riders c q s).getChan c
  unfold openWindow
  dsimp only
  rw [apply_ite (getChan · c), told, ite_self, apply_ite (getChan · c), getChan_markShot, ite_self, getChan_modChan, begun]
  exact ⟨rfl, rfl, rfl, rfl, rfl, _, rfl, rfl, rfl, rfl, rfl, rfl, rfl, rfl⟩

theorem noted_openWindow {q : OpenReq} (late : q.late = true) (c : ChanId) (s : State) : noted (openWindow c q s) 0 0x3310 = true := by
  unfold openWindow
  dsimp only
  rw [if_pos late]
  exact noted_record ..

theorem mem_stallUnits (n : StallId) (u : UnitId) : u ∈ stallUnits n ↔ u.stall = n := by
  simp only [stallUnits, List.mem_map, List.mem_finRange, true_and]
  exact ⟨fun ⟨_, h⟩ => h ▸ rfl, fun h => ⟨u.num, by rw [← h]⟩⟩

/-- Where no unit of a stall is armed, nothing triggers one. -/
theorem triggerUnits_of_unarmed {n : StallId} {s : State} (h : ∀ u : UnitId, u.stall = n → (getUnit s u).armed = false) (src : BitVec 3)
    (obj frame : Nat) : triggerUnits n src obj frame s = s :=
  forEach_of_idle_on fun u hu => if_neg (by simp [h u ((mem_stallUnits n u).mp hu)])

/-! ## A full-scale code (R257) -/

/-- What a full-scale code at a frame does to a channel of its slice: its open window is marked, once. -/
def fullMarked (frame : Nat) (x : Channel) : Channel :=
  if x.win.any fun w => containsFrame w frame && !w.full then { x with win := x.win.map fun w => { w with ovr := true, full := true } } else x

theorem getChan_markWindow (c : ChanId) (f : Window → Window) (extra : Option ShotCause) (s : State) :
    getChan (markWindow c f extra s) c = { getChan s c with win := (getChan s c).win.map f } := by
  have shot (w : Window) (g : Shot → Shot) (u : State) : getChan (onShotOf c w g u) c = getChan u c :=
    (onShotOf_changes (P := [.riders]) _ _ _ _ (by decide) (Changes.refl _ u)).getChan c
  unfold markWindow
  split
  next w open_ => rw [shot, getChan_modChan, open_]; rfl
  next closed =>
    have plain : { getChan s c with win := none } = getChan s c := by rw [← closed]
    rw [closed, Option.map_none, plain]

theorem Changes.boundChans {P : List Part} {s t : State} (h : Changes P s t) (n : StallId) (k : Fin 5)
    (hp : P.contains .stallImages = false := by decide) : boundChans t n k = boundChans s n k := by
  unfold Machine.boundChans
  simp only [h.chanBind _ hp, h.hasImage _ hp]

/-- Each bound channel of the slice has its open window marked, and no other channel changes. -/
theorem getChan_fullScale (n : StallId) (k : Fin 5) (sample : Nat) (s : State) (c : ChanId) :
    getChan (fullScale n k sample s) c = if c ∈ boundChans s n k then fullMarked (sample / 64) (getChan s c) else getChan s c := by
  let u := markRecords n k (fun x => flagRecord (sample * 24) (sample * 24 + 1) (fun t r => { r with ovr := earliest t r.ovr })
    { x with ovrAt := some (max sample (x.ovrAt.getD 0)) }) (modAcq n k (fun x => { x with ovr := satInc x.ovr, ovrHit := true }) s)
  have frame : Changes [.acqs, .units] s u := markRecords_changes _ _ _ _ (by decide) (modAcq_changes _ _ _ _ (by decide) (Changes.refl _ s))
  have bound : boundChans u n k = boundChans s n k := frame.boundChans n k
  have told (code : Code) (d e : ChanId) (v : State) : getChan (recordChan code d v) e = getChan v e :=
    (recordChan_changes (P := [.funcs]) _ _ _ (by decide) (Changes.refl _ v)).getChan e
  have each := forEach_keyed getChan (fun c s => if (getChan s c).win.any fun w => containsFrame w (sample / 64) && !w.full then
      recordChan 0x3313 c (markWindow c (fun w => { w with ovr := true, full := true }) none s) else s) (fun _ => fullMarked (sample / 64))
    (fun _ => True) (fun _ _ _ => trivial) ?same ?other (boundChans u n k) ?nodup u trivial c
  case same =>
    intro d v _
    rw [fullMarked]
    split
    · rw [told, getChan_markWindow]
    · rfl
  case other =>
    intro d e v _ hde
    split
    · rw [told]
      exact (markWindow_flags d _ none v).other e hde.symm
    · rfl
  case nodup => exact (nodup_stallChans n).filter _
  rw [bound, frame.getChan] at each
  rw [← each, ← bound]
  rfl

/-! ## The decision of a window (R265 to R277) -/

/-- The record of a decision changes no channel but its own, and of it only the count of dropped records. -/
theorem writeDecision_chans (c : ChanId) (w : Window) (o : Outcome) (sent : Bool) (s : State) :
    (∃ k, getChan (writeDecision c w o sent s) c = { getChan s c with dropped := k }) ∧
    ∀ d, d ≠ c → getChan (writeDecision c w o sent s) d = getChan s d := by
  have told (g : Shot → Shot) (d : ChanId) (u : State) : getChan (onShotOf c w g (recordChan 0x3311 c u)) d = getChan u d :=
    (onShotOf_changes (P := [.funcs, .riders]) _ _ _ _ (by decide) (recordChan_changes _ _ _ (by decide) (Changes.refl _ u))).getChan d
  have issued (q : QueueId) (p : QPort) (ws : List Word) (d : ChanId) : getChan (issueWords q p ws true s) d = getChan s d :=
    (issueWords_changes (P := [.queues]) _ _ _ _ _ (by decide) (Changes.refl _ s)).getChan d
  unfold writeDecision
  split
  · split
    · exact ⟨⟨_, by rw [told, getChan_modChan]⟩, fun d hd => by rw [told, getChan_modChan_other hd]⟩
    · exact ⟨⟨_, issued ..⟩, fun d _ => issued ..⟩
  · exact ⟨⟨_, rfl⟩, fun _ _ => rfl⟩

/-- A channel whose window has closed with an outcome (Table 06-3). -/
def closedWith (w : Window) (o : Outcome) (x : Channel) : Channel :=
  { x with
    win := none, windows := satInc x.windows, invalid := if windowInvalid w o.cut then satInc x.invalid else x.invalid
    last := { valid := true, invalid := windowInvalid w o.cut, sat := o.sat, state := o.state, quality := o.quality } }

/-- The close of a window changes no channel but its own. -/
theorem closeWindow_chans (c : ChanId) (w : Window) (o : Outcome) (s : State) :
    (∃ k, getChan (closeWindow c w o s) c = { closedWith w o (getChan s c) with dropped := k }) ∧
    ∀ d, d ≠ c → getChan (closeWindow c w o s) d = getChan s d := by
  have after (b : Bool) (v : State) (d : ChanId) :
      getChan (if b then onShotOf c w (setCause .channel) (collectWindow c w o.cut v) else collectWindow c w o.cut v) d = getChan v d := by
    have collected : Changes (allBut .chans) v (collectWindow c w o.cut v) := collectWindow_changes _ _ _ _ (by decide) (Changes.refl _ v)
    exact (Changes.ite (fun _ => onShotOf_changes _ _ _ _ (by decide) collected) fun _ => collected :
      Changes (allBut .chans) v (if b then onShotOf c w (setCause .channel) (collectWindow c w o.cut v) else collectWindow c w o.cut v)).getChan d
  have told (b : Bool) (code : Code) (v : State) (d : ChanId) : getChan (if b then recordChan code c v else v) d = getChan v d :=
    (Changes.ite (fun _ => recordChan_changes _ _ _ (by decide) (Changes.refl _ v)) fun _ => Changes.refl _ v :
      Changes [.funcs] v (if b then recordChan code c v else v)).getChan d
  have token (b : Bool) (tok : Token) (v : State) (d : ChanId) :
      getChan (if b then issueToken (.node c.stall) c.num.val tok v else v) d = getChan v d :=
    (Changes.ite (fun _ => issueToken_changes _ _ _ _ (by decide) (Changes.refl _ v)) fun _ => Changes.refl _ v :
      Changes (allBut .chans) v (if b then issueToken (.node c.stall) c.num.val tok v else v)).getChan d
  unfold closeWindow
  dsimp only
  refine ⟨?_, fun d hd => ?_⟩
  · rw [after]
    obtain ⟨⟨k, own⟩, -⟩ := writeDecision_chans c w o (tokenLeaves s c w o) _
    refine ⟨k, own.trans ?_⟩
    rw [told, told, getChan_modChan, token, getChan_modChan]
    rfl
  · rw [after, (writeDecision_chans c w o (tokenLeaves s c w o) _).2 d hd, told, told, getChan_modChan_other hd, token, getChan_modChan_other hd]

/-- Settles O31. That a decision closes its window in the same step, and leaves the latched open for the next WINDOW_START, is log entry 56, the model's
choice. -/
theorem windowsOpenAndDecide : Obligations.WindowsOpenAndDecide := by
  refine ⟨fun s c q closed latched active => ?opens, fun s n k j sample stands => ?full, fun s c sig w open_ => ?decides⟩
  case opens =>
    have starts : exec (.windowStart c) s = .next (triggerUnits c.stall 3 c.num.val q.start (openWindow c q s)) := by
      refine congrArg Host.Outcome.next ?_
      simp only [windowStarts, closed, latched, active, if_true]
    have opened := openWindow_opens c q s
    have triggered (u : State) : getChan (triggerUnits c.stall 3 c.num.val q.start u) c = getChan u c :=
      (triggerUnits_changes (P := [.funcs, .units]) _ _ _ _ _ (by decide) (Changes.refl _ u)).getChan c
    rw [← triggered (openWindow c q s)] at opened
    obtain ⟨latch, pendInt, pendPlane, ints, planes, window⟩ := opened
    refine ⟨_, starts, latch, pendInt, pendPlane, ints, planes, window, fun late unarmed => ?_, ?_⟩
    · rw [triggerUnits_of_unarmed fun u hu => ?_]
      · exact noted_openWindow late c s
      · rw [(openWindow_changes (P := [.funcs, .chans, .riders]) _ _ _ (by decide) (Changes.refl _ s)).getUnit]
        exact unarmed u hu
    · exact triggerUnits_changes _ _ _ _ _ (by decide) (openWindow_changes _ _ _ (by decide) (Changes.refl _ s))
  case full =>
    have marks : exec (.adcFullScaleCode n k sample) s = .next (fullScale n j sample s) := by
      refine congrArg Host.Outcome.next ?_
      simp only [onAcq, stands]
    refine ⟨_, marks, ?_, fun c hc w open_ => ?_, fullScale_changes _ _ _ _ (by decide) (Changes.refl _ s)⟩
    · have channels (l : List ChanId) (u : State) : getAcq (forEach l (fun c s => if (getChan s c).win.any fun w => containsFrame w (sample / 64) && !w.full
          then recordChan 0x3313 c (markWindow c (fun w => { w with ovr := true, full := true }) none s) else s) u) n j = getAcq u n j :=
        (forEach_changes (P := [.funcs, .chans, .riders]) _ _ _ (fun c _ h => Changes.ite (fun _ => recordChan_changes _ _ _ (by decide)
          (markWindow_changes _ _ _ _ (by decide) h)) fun _ => h) (Changes.refl _ u)).getAcq n j
      have records (f : CapUnit → CapUnit) (u : State) : getAcq (markRecords n j f u) n j = getAcq u n j :=
        (markRecords_changes (P := [.units]) _ _ _ _ (by decide) (Changes.refl _ u)).getAcq n j
      unfold fullScale
      dsimp only
      rw [channels, records, getAcq_modAcq]
    · rw [getChan_fullScale, if_pos hc, fullMarked, open_]
      refine ⟨fun holds first => ?_, fun beside => ?_⟩
      · simp [holds, first]
      · have unmarked : (containsFrame w (sample / 64) && !w.full) = false := by
          obtain h | h := beside <;> simp [h]
        simp [unmarked, open_]
  case decides =>
    have closes : exec (.windowDecision c sig) s = .next (closeWindow c w (outcomeOf w (integrate s c w sig w.len) false) s) := by
      refine congrArg Host.Outcome.next ?_
      simp only [windowDecides, open_]
    obtain ⟨⟨k, own⟩, other⟩ := closeWindow_chans c w (outcomeOf w (integrate s c w sig w.len) false) s
    refine ⟨_, closes, ?_, ?_, ?_, ?_, ?_, ?_, fun re im sums => ?_, other, closeWindow_changes _ _ _ _ (by decide) (Changes.refl _ s)⟩
    case refine_7 =>
      rw [own, sums]
      exact ⟨rfl, rfl, rfl⟩
    all_goals rw [own]; rfl

end Sys2Proof.Machine
end

section
/-!
PROOFS. What the parts of a capture unit move.
-/

namespace Sys2Proof.Machine

set_option Elab.async false

open Sys2Proof

/-! ## What a write to the ring moves of its unit (R297, R317, R319) -/

/-- Of the units only `u` differs, and of it only the ring's fill and the gap. -/
structure RingMoved (u : UnitId) (s t : State) : Prop where
  other : ∀ w, w ≠ u → getUnit t w = getUnit s w
  own : getUnit t u = { getUnit s u with wr := (getUnit t u).wr, used := (getUnit t u).used, gap := (getUnit t u).gap }

namespace RingMoved

variable {u : UnitId} {s t v : State}

theorem refl (u : UnitId) (s : State) : RingMoved u s s := ⟨fun _ _ => rfl, rfl⟩

theorem trans (h : RingMoved u s t) (k : RingMoved u t v) : RingMoved u s v :=
  ⟨fun w hw => (k.other w hw).trans (h.other w hw), by have := k.own; rw [h.own] at this; exact this⟩

theorem of_changes {P : List Part} (h : Changes P s t) (hp : P.contains .units = false := by decide) : RingMoved u s t :=
  ⟨fun w _ => h.getUnit w hp, by rw [h.getUnit u hp]⟩

theorem of_modUnit (f : CapUnit → CapUnit) (s : State) (hf : ∀ x, f x = { x with wr := (f x).wr, used := (f x).used, gap := (f x).gap }) :
    RingMoved u s (modUnit u f s) :=
  ⟨fun _ hw => getUnit_modUnit_other hw f s, by rw [getUnit_modUnit]; exact hf _⟩

theorem arm (h : RingMoved u s t) : (getUnit t u).arm = (getUnit s u).arm := by rw [h.own]
theorem armed (h : RingMoved u s t) : (getUnit t u).armed = (getUnit s u).armed := by rw [h.own]
theorem record (h : RingMoved u s t) : (getUnit t u).record = (getUnit s u).record := by rw [h.own]
theorem records (h : RingMoved u s t) : (getUnit t u).records = (getUnit s u).records := by rw [h.own]
theorem ringBytes (h : RingMoved u s t) : (getUnit t u).ringBytes = (getUnit s u).ringBytes := by rw [h.own]
theorem owner (h : RingMoved u s t) : (getUnit t u).owner = (getUnit s u).owner := by rw [h.own]
theorem op (h : RingMoved u s t) : (getUnit t u).op = (getUnit s u).op := by rw [h.own]

end RingMoved

theorem ringWrite_moves (u : UnitId) (bytes : List Byte) (total : Nat) (s : State) : RingMoved u s (ringWrite u bytes total s) :=
  (RingMoved.of_changes (setHbm_changes (P := [.hbm]) _ _ (by decide) (Changes.refl _ s))).trans (.of_modUnit _ _ fun _ => rfl)

theorem writePad_moves (u : UnitId) (b : Nat) (s : State) : RingMoved u s (writePad u b s) := by
  unfold writePad
  dsimp only
  split
  · exact RingMoved.refl u s
  · exact ringWrite_moves u _ _ s

theorem writeGap_moves (u : UnitId) (s : State) : RingMoved u s (writeGap u s) := by
  unfold writeGap
  dsimp only
  split
  · exact RingMoved.refl u s
  · exact (ringWrite_moves u _ _ s).trans (.of_modUnit _ _ fun _ => rfl)

theorem gap_writePad (u : UnitId) (b : Nat) (s : State) : (getUnit (writePad u b s) u).gap = (getUnit s u).gap := by
  unfold writePad
  dsimp only
  split
  · rfl
  · rw [ringWrite, getUnit_modUnit, (setHbm_changes (P := [.hbm]) _ _ (by decide) (Changes.refl _ _)).getUnit]

/-- A gap record that has space, or that there is none of, leaves no gap (log entry 164 is the case without space). -/
theorem gap_writeGap {u : UnitId} {s : State} (h : (getUnit s u).gap = none ∨ (getUnit s u).used + 64 ≤ (getUnit s u).ringBytes) :
    (getUnit (writeGap u s) u).gap = none := by
  unfold writeGap
  dsimp only
  split
  next none_ =>
    obtain none | space := h
    · exact none
    · rwa [if_pos space] at none_
  next => rw [getUnit_modUnit]

theorem writeGap_of_none {u : UnitId} {s : State} (h : (getUnit s u).gap = none) : writeGap u s = s := by
  unfold writeGap
  simp [h]

/-! ## The close of a record (R310, R319, R320) -/

/-- What a closed record leaves of its unit, apart from the ring's fill, what was dropped, where the next pre region begins, and the progress. -/
theorem closeRecord_unit (u : UnitId) (r : Record) (post : Nat) (cut : Bool) (sig : Signal) (s : State) :
    (∃ wr used filled dropped op, getUnit (closeRecord u r post cut sig s) u = { getUnit s u with
        wr, used, filledFrom := filled, dropped, op, gap := (getUnit (writeGap u s) u).gap, records := (getUnit s u).records + 1, record := none }) ∧
    ∀ w, w ≠ u → getUnit (closeRecord u r post cut sig s) w = getUnit s w := by
  have written (b : Nat) : RingMoved u s (writePad u b (writeGap u s)) := (writeGap_moves u s).trans (writePad_moves u b _)
  refine ⟨?_, fun w hw => ?_⟩
  · unfold closeRecord showProgress ringWrite
    dsimp only
    simp only [getUnit_modUnit]
    have hbm (f : Tab Byte → Tab Byte) (v : State) : getUnit (setHbm f v) u = getUnit v u :=
      (setHbm_changes (P := [.hbm]) _ _ (by decide) (Changes.refl _ v)).getUnit u
    simp only [hbm]
    rw [(written _).own, gap_writePad]
    split
    · exact ⟨_, _, _, _, _, rfl⟩
    · exact ⟨_, _, _, _, _, rfl⟩
  · unfold closeRecord showProgress
    dsimp only
    rw [getUnit_modUnit_other hw, getUnit_modUnit_other hw, (ringWrite_moves u _ _ _).other w hw, (written _).other w hw]

/-- The end of a capture closes it with its operation status, and touches no other unit. -/
theorem endCapture_unit (u : UnitId) (op : OpStatus) (s : State) :
    (∃ wr used gap, getUnit (endCapture u op s) u = { getUnit s u with
        wr, used, gap, armed := false, op, record := none, hobble := .none, waiting := [] } ∧
      ((getUnit s u).gap = none ∨ (getUnit s u).used + 64 ≤ (getUnit s u).ringBytes → gap = none)) ∧
    ∀ w, w ≠ u → getUnit (endCapture u op s) w = getUnit s w := by
  let v := modUnit u (fun x => { x with gap := x.gap.map (settleGap x.arm s.clock.sched) }) s
  have settled : getUnit v u = { getUnit s u with gap := (getUnit s u).gap.map (settleGap (getUnit s u).arm s.clock.sched) } := getUnit_modUnit _ _ _
  have moved := writeGap_moves u v
  have ends : endCapture u op s = modUnit u (fun x => { x with armed := false, op, record := none, hobble := .none, waiting := [] }) (writeGap u v) := rfl
  rw [ends]
  refine ⟨⟨(getUnit (writeGap u v) u).wr, (getUnit (writeGap u v) u).used, (getUnit (writeGap u v) u).gap, ?_, fun room => gap_writeGap ?_⟩, fun w hw => ?_⟩
  · rw [getUnit_modUnit, moved.own, settled]
  · rw [settled]
    exact room.imp (fun h => by rw [h]; rfl) id
  · rw [getUnit_modUnit_other hw, moved.other w hw]
    exact getUnit_modUnit_other hw _ _

/-! ## What starts the next record, or begins a gap (R313 to R317) -/

/-- Of the units only `u` differs, and of it only its gap and its record in progress. -/
structure GapMoved (u : UnitId) (s t : State) : Prop where
  other : ∀ w, w ≠ u → getUnit t w = getUnit s w
  own : getUnit t u = { getUnit s u with
    gap := (getUnit t u).gap, gaps := (getUnit t u).gaps, filledFrom := (getUnit t u).filledFrom, started := (getUnit t u).started
    record := (getUnit t u).record, op := (getUnit t u).op }

namespace GapMoved

variable {u : UnitId} {s t v : State}

theorem refl (u : UnitId) (s : State) : GapMoved u s s := ⟨fun _ _ => rfl, rfl⟩

theorem trans (h : GapMoved u s t) (k : GapMoved u t v) : GapMoved u s v :=
  ⟨fun w hw => (k.other w hw).trans (h.other w hw), by have := k.own; rw [h.own] at this; exact this⟩

theorem ite {c : Prop} [Decidable c] (ht : GapMoved u s t) (hv : GapMoved u s v) : GapMoved u s (if c then t else v) := by
  split
  · exact ht
  · exact hv

theorem of_changes {P : List Part} (h : Changes P s t) (hp : P.contains .units = false := by decide) : GapMoved u s t :=
  ⟨fun w _ => h.getUnit w hp, by rw [h.getUnit u hp]⟩

theorem of_modUnit (f : CapUnit → CapUnit) (s : State) (hf : ∀ x, f x = { x with
    gap := (f x).gap, gaps := (f x).gaps, filledFrom := (f x).filledFrom, started := (f x).started, record := (f x).record, op := (f x).op }) :
    GapMoved u s (modUnit u f s) :=
  ⟨fun _ hw => getUnit_modUnit_other hw f s, by rw [getUnit_modUnit]; exact hf _⟩

end GapMoved

theorem showProgress_moves (u : UnitId) (s : State) : GapMoved u s (showProgress u s) :=
  GapMoved.of_modUnit _ s fun x => by dsimp only; split <;> rfl

/-- The end of one part of a gap touches the gap and the start of the pre region alone. -/
theorem endPart_gap (drain : Bool) (at_ : Fine) (x : CapUnit) :
    endPart drain at_ x = { x with gap := (endPart drain at_ x).gap, filledFrom := (endPart drain at_ x).filledFrom } := by
  unfold endPart
  split
  next g _ =>
    by_cases both : (if drain then g.store else g.drain) = true
    · rw [if_pos both]
    · rw [if_neg both]
  next => rfl

theorem endPart_moves (u : UnitId) (drain : Bool) (at_ : Fine) (s : State) : GapMoved u s (modUnit u (endPart drain at_) s) :=
  GapMoved.of_modUnit _ s fun x => by rw [endPart_gap]

theorem endDrain_moves (u : UnitId) (s : State) : GapMoved u s (endDrain u s) := by
  unfold endDrain
  dsimp only
  split
  · exact endPart_moves u _ _ s
  · exact GapMoved.refl u s

theorem beginGap_moves (u : UnitId) (drain : Bool) (at_ until_ : Fine) (s : State) : GapMoved u s (beginGap u drain at_ until_ s) := by
  have told (code : Code) (owner : Owner) (v : State) : GapMoved u v (record code u.stall.val owner 0 0 v) :=
    .of_changes (record_changes (P := [.funcs]) _ _ _ _ _ _ (by decide) (Changes.refl _ v))
  unfold beginGap
  dsimp only
  split
  · exact (GapMoved.of_modUnit (fun x => { x with gap := some _, gaps := satInc x.gaps }) s fun _ => rfl).trans (told _ _ _)
  next g _ =>
    have joined (g' : Gap) : GapMoved u s (modUnit u (fun x => { x with gap := some g' }) s) := GapMoved.of_modUnit _ s fun _ => rfl
    exact GapMoved.ite ((joined _).trans (told _ _ _)) (joined _)

theorem startRecord_moves (u : UnitId) (r : Record) (s : State) : GapMoved u s (startRecord u r s) :=
  GapMoved.of_modUnit _ s fun _ => rfl

theorem nextContinuous_moves (u : UnitId) (s : State) : GapMoved u s (nextContinuous u s) := by
  exact GapMoved.ite (GapMoved.ite (startRecord_moves u _ s) (beginGap_moves u _ _ _ s)) (GapMoved.refl u s)

end Sys2Proof.Machine
end

section
/-!
PROOFS. A capture from ARM to RELEASE (O32).
-/

namespace Sys2Proof.Machine

set_option Elab.async false

open Sys2Proof

/-! ## DISARM and the end of a record (R302, R310) -/

/-- The record in progress closes, and counts, where there is one. -/
theorem cutRecord_unit (u : UnitId) (s : State) :
    (∃ wr used gap filled dropped op, getUnit (cutRecord u s) u = { getUnit s u with
        wr, used, gap, filledFrom := filled, dropped, op, record := none
        records := (getUnit s u).records + if (getUnit s u).record.isSome then 1 else 0 } ∧
      ((getUnit s u).gap = none ∨ (getUnit s u).used + 64 ≤ (getUnit s u).ringBytes → gap = none ∨ used + 64 ≤ (getUnit s u).ringBytes)) ∧
    ∀ w, w ≠ u → getUnit (cutRecord u s) w = getUnit s w := by
  unfold cutRecord
  dsimp only
  split
  next idle =>
    refine ⟨⟨(getUnit s u).wr, (getUnit s u).used, (getUnit s u).gap, (getUnit s u).filledFrom, (getUnit s u).dropped, (getUnit s u).op, ?_, id⟩,
      fun _ _ => rfl⟩
    generalize getUnit s u = x at idle ⊢
    cases x
    cases idle
    rfl
  next r running =>
    obtain ⟨⟨wr, used, filled, dropped, op, own⟩, other⟩ := closeRecord_unit u r
      (min (s.clock.sched / interval (getUnit s u).arm - r.sample) (getUnit s u).arm.post.toNat) true {} s
    exact ⟨⟨wr, used, _, filled, dropped, op, own.trans (by rw [running]; rfl), fun room => .inl (gap_writeGap room)⟩, other⟩

/-- A unit that is disarmed (R302). -/
theorem disarmUnit_unit {u : UnitId} {s : State} (armed : (getUnit s u).armed = true) :
    ((getUnit (disarmUnit u s) u).armed = false ∧ (getUnit (disarmUnit u s) u).op.state = .aborted ∧ (getUnit (disarmUnit u s) u).op.code = 0x0401) ∧
    noted (disarmUnit u s) 0 0x0401 = true ∧ (getUnit (disarmUnit u s) u).record = none ∧
    ((getUnit s u).gap = none ∨ (getUnit s u).used + 64 ≤ (getUnit s u).ringBytes → (getUnit (disarmUnit u s) u).gap = none) ∧
    (getUnit (disarmUnit u s) u).records = (getUnit s u).records + (if (getUnit s u).record.isSome then 1 else 0) ∧
    (getUnit (disarmUnit u s) u).ringBytes = (getUnit s u).ringBytes ∧ ∀ w, w ≠ u → getUnit (disarmUnit u s) w = getUnit s w := by
  obtain ⟨⟨wr, used, gap, filled, dropped, op, cut, cutRoom⟩, cutOther⟩ := cutRecord_unit u s
  obtain ⟨⟨wr', used', gap', ended, endRoom⟩, endOther⟩ := endCapture_unit u (opEnd .aborted 0x0401 (getUnit (cutRecord u s) u).op) (cutRecord u s)
  have disarms : disarmUnit u s = record 0x0401 u.stall.val (((getUnit (cutRecord u s) u).owner).getD 0) 0 0
      (endCapture u (opEnd .aborted 0x0401 (getUnit (cutRecord u s) u).op) (cutRecord u s)) := if_pos armed
  have told (w : UnitId) (v : State) : getUnit (record 0x0401 u.stall.val (((getUnit (cutRecord u s) u).owner).getD 0) 0 0 v) w = getUnit v w :=
    (record_changes (P := [.funcs]) _ _ _ _ _ _ (by decide) (Changes.refl _ v)).getUnit w
  have own : getUnit (disarmUnit u s) u = getUnit (endCapture u (opEnd .aborted 0x0401 (getUnit (cutRecord u s) u).op) (cutRecord u s)) u := by
    rw [disarms, told]
  rw [ended, cut] at own
  rw [cut] at endRoom
  rw [own]
  exact ⟨⟨rfl, rfl, rfl⟩, by rw [disarms]; exact noted_record .., rfl, fun room => endRoom (cutRoom room), rfl, rfl,
    fun w hw => by rw [disarms, told, endOther w hw, cutOther w hw]⟩

/-! ## RELEASE (R298) -/

theorem tabGet_filter {α : Type} (d : α) (p : Nat → Bool) (t : Tab α) (k : Nat) :
    tabGet d (t.filter fun e => p e.1) k = if p k then tabGet d t k else d := by
  have found (t : Tab α) : tabFind k (t.filter fun e => p e.1) = if p k then tabFind k t else none := by
    induction t with
    | nil => simp [tabFind]
    | cons e rest ih =>
      obtain ⟨i, a⟩ := e
      by_cases hi : p i = true
      · rw [List.filter_cons_of_pos (by exact hi), tabFind, tabFind, ih]
        by_cases e : i = k
        · subst e; simp [hi]
        · simp [e]
      · rw [List.filter_cons_of_neg (by exact hi), ih, tabFind]
        by_cases e : i = k
        · subst e; simp [hi]
        · simp [e]
  rw [tabGet, found]
  split <;> rfl

/-- A ring that goes back loses its bytes and leaves every other byte (R298). -/
theorem freeRing_effect {u : UnitId} {s : State} (ring : (getUnit s u).ringBytes ≠ 0) :
    ((getUnit (freeRing u s) u).ringBytes = 0 ∧ (getUnit (freeRing u s) u).owner = none) ∧
    (∀ a, tabGet 0 (freeRing u s).hbm a = if a < pageAddr (getUnit s u).ringPage ∨ pageAddr (getUnit s u).ringPage + (getUnit s u).ringBytes ≤ a
      then tabGet 0 s.hbm a else 0) ∧ ∀ w, w ≠ u → getUnit (freeRing u s) w = getUnit s w := by
  let lo := pageAddr (getUnit s u).ringPage
  let n := (getUnit s u).ringBytes
  let k := n / 65536
  let emptied := setHbm (fun m => m.filter fun p => p.1 < lo || lo + n ≤ p.1) s
  let given := setQdir (fun d => { d with ringTransit := tabMod [] d.ringTransit u.stall.val (· ++ [((getUnit s u).ringPage, k)]) })
    (releasePages u.stall k emptied)
  have frees : freeRing u s = modUnit u (fun x =>
      { x with owner := none, ringPage := 0, ringBytes := 0, used := 0, partialValid := false, gap := none }) given := if_neg ring
  have back : Changes [.qdir] emptied given := setQdir_changes _ _ (by decide) (releasePages_changes _ _ _ (by decide) (Changes.refl _ _))
  have units : Changes [.hbm] s emptied := setHbm_changes _ _ (by decide) (Changes.refl _ s)
  have hbm : (freeRing u s).hbm = s.hbm.filter fun p => p.1 < lo || lo + n ≤ p.1 := by
    rw [frees, (modUnit_changes (P := [.units]) _ _ _ (by decide) (Changes.refl _ _)).hbm, back.hbm]
    rfl
  refine ⟨by rw [frees, getUnit_modUnit]; exact ⟨rfl, rfl⟩, fun a => ?_, fun w hw => ?_⟩
  · rw [hbm, tabGet_filter 0 (fun a => decide (a < lo) || decide (lo + n ≤ a))]
    simp only [Bool.or_eq_true, decide_eq_true_eq, lo, n]
  · rw [frees, getUnit_modUnit_other hw, back.getUnit, units.getUnit]

/-! ## The statement -/

theorem armUnit_unit (f : Func) (u : UnitId) (s : State) :
    ((getUnit (armUnit f u s) u).armed = true ∧ (getUnit (armUnit f u s) u).arm = (getUnit s u).cfg ∧ (getUnit (armUnit f u s) u).owner = some f.owner ∧
      (getUnit (armUnit f u s) u).op = opStart ∧ (getUnit (armUnit f u s) u).records = 0 ∧
      (getUnit (armUnit f u s) u).ringBytes = (getUnit s u).cfg.ringMib.toNat * 1048576 ∧ (getUnit (armUnit f u s) u).wr = 0 ∧
      (getUnit (armUnit f u s) u).rd = 0 ∧ (getUnit (armUnit f u s) u).used = 0) ∧
    ∀ w, w ≠ u → getUnit (armUnit f u s) w = getUnit s w := by
  have pages (k : Nat) (w : UnitId) : getUnit (allocPages u.stall k s) w = getUnit s w :=
    (allocPages_changes (P := [.qdir]) _ _ _ (by decide) (Changes.refl _ s)).getUnit w
  refine ⟨?_, fun w hw => by rw [armUnit, getUnit_modUnit_other hw, pages]⟩
  rw [armUnit, getUnit_modUnit]
  refine ⟨rfl, rfl, rfl, rfl, rfl, ?_, rfl, rfl, rfl⟩
  show (getUnit s u).cfg.ringMib.toNat * pagesPerMib * 65536 = _
  rw [pagesPerMib]
  omega

theorem refuseUnit_unit (f : Func) (u : UnitId) (c : Code) (s : State) :
    getUnit (refuseUnit f u c s) u = { getUnit s u with op := opRefuse c (getUnit s u).op } ∧ (getFunc (refuseUnit f u c s) f).lastCode = c ∧
    noted (refuseUnit f u c s) 0 c = true ∧ ∀ w, w ≠ u → getUnit (refuseUnit f u c s) w = getUnit s w := by
  have told (v : State) (w : UnitId) : getUnit (refuseReg f (unitReg u .cmd) c v) w = getUnit v w :=
    (refuseReg_changes (P := [.funcs]) _ _ _ _ (by decide) (Changes.refl _ v)).getUnit w
  refine ⟨?_, by simp [refuseUnit], by simp [refuseUnit], fun w hw => ?_⟩
  · rw [refuseUnit, told, getUnit_modUnit]
  · rw [refuseUnit, told, getUnit_modUnit_other hw]

/-- What a freed part of the ring leaves of its unit, where no gap record enters (R296). -/
theorem freeSpace_unit {u : UnitId} {s : State} (quiet : (getUnit s u).armed = true ∨ (getUnit s u).gap = none) (val : Word) :
    ((getUnit (freeSpace u val s) u).rd = val.toNat ∧ (getUnit (freeSpace u val s) u).used = (getUnit s u).used - rdAdvance (getUnit s u) val ∧
      (getUnit (freeSpace u val s) u).wr = (getUnit s u).wr) ∧
    ∀ w, w ≠ u → getUnit (freeSpace u val s) w = getUnit s w := by
  let freed := modUnit u (fun x => { x with rd := val.toNat, used := x.used - rdAdvance x val }) s
  have own : getUnit freed u = { getUnit s u with rd := val.toNat, used := (getUnit s u).used - rdAdvance (getUnit s u) val } := getUnit_modUnit _ _ _
  have noGap : (if (getUnit freed u).armed then freed else writeGap u freed) = freed := by
    obtain armed | none := quiet
    · exact if_pos (by rw [own]; exact armed)
    · rw [writeGap_of_none (by rw [own]; exact none), ite_self]
  have frees : freeSpace u val s = nextContinuous u (showProgress u (endDrain u freed)) := by
    show nextContinuous u (showProgress u (endDrain u (if (getUnit freed u).armed then freed else writeGap u freed))) = _
    rw [noGap]
  obtain ⟨other, moved⟩ := ((endDrain_moves u freed).trans (showProgress_moves u _)).trans (nextContinuous_moves u _)
  rw [frees]
  refine ⟨?_, fun w hw => (other w hw).trans (getUnit_modUnit_other hw _ _)⟩
  rw [moved, own]
  exact ⟨rfl, rfl, rfl⟩

/-- Settles O32: a capture's commands and its record's end are told unit by unit; the statement shuts out the gap record without space of log entry 164. -/
theorem capturesAreArmedAndEnd : Obligations.CapturesAreArmedAndEnd := by
  refine ⟨fun s f u hadm => ⟨fun ok => ?arm, fun c bad => ?refused, fun idle => ?idle, fun armed => ?disarm, fun unarmed ring => ?release⟩,
    fun s u sig r running => ?ends, fun s f u val hadm ok quiet => ?read⟩
  case arm =>
    have arms : exec (.arm f u) s = .next (armUnit f u s) := by
      refine congrArg Host.Outcome.next ?_
      rw [arm, hostWrite_of_admits hadm, ok]
    obtain ⟨⟨armed, cfg, owner, op, records, bytes, wr, rd, used⟩, other⟩ := armUnit_unit f u s
    exact ⟨_, arms, armed, cfg, owner, op, records, bytes, wr, rd, used, other, armUnit_changes _ _ _ (by decide) (Changes.refl _ s)⟩
  case refused =>
    have refuses : exec (.arm f u) s = .next (refuseUnit f u c s) := by
      refine congrArg Host.Outcome.next ?_
      rw [arm, hostWrite_of_admits hadm, bad]
    obtain ⟨own, code, logged, other⟩ := refuseUnit_unit f u c s
    exact ⟨_, refuses, own, code, logged, other, refuseUnit_changes _ _ _ _ (by decide) (Changes.refl _ s)⟩
  case idle =>
    exact congrArg Host.Outcome.next ((hostWrite_of_admits hadm _).trans (if_neg (by simp [idle])))
  case disarm =>
    obtain ⟨⟨off, aborted, code⟩, logged, record, gap, records, bytes, other⟩ := disarmUnit_unit armed
    exact ⟨_, congrArg Host.Outcome.next (hostWrite_of_admits hadm _), off, aborted, code, logged, record, gap, records, bytes, other,
      disarmUnit_changes _ _ (by decide) (Changes.refl _ s)⟩
  case release =>
    have frees : exec (.release f u) s = .next (freeRing u s) :=
      congrArg Host.Outcome.next ((hostWrite_of_admits hadm _).trans (if_neg (by simp [unarmed])))
    obtain ⟨⟨bytes, owner⟩, hbm, other⟩ := freeRing_effect ring
    refine ⟨_, frees, bytes, owner, fun a lo hi => ?_, fun a out => ?_, other, freeRing_changes _ _ (by decide) (Changes.refl _ s)⟩
    · rw [hbm, if_neg (by omega)]
    · rw [hbm, if_pos out]
  case ends =>
    obtain ⟨⟨wr, used, filled, dropped, op, closed⟩, closedOther⟩ := closeRecord_unit u r (getUnit s u).arm.post.toNat false sig s
    have ends : exec (.recordEnd u sig) s = .next (if (getUnit s u).arm.recCount ≠ 0 ∧ (getUnit s u).arm.recCount.toNat ≤ (getUnit s u).records + 1
        then endCapture u (opDone 0) (closeRecord u r (getUnit s u).arm.post.toNat false sig s)
        else nextContinuous u (closeRecord u r (getUnit s u).arm.post.toNat false sig s)) := by
      refine congrArg Host.Outcome.next ?_
      simp only [recordEnds, running, closed]
    obtain ⟨⟨wr', used', gap', ended, -⟩, endOther⟩ := endCapture_unit u (opDone 0) (closeRecord u r (getUnit s u).arm.post.toNat false sig s)
    obtain ⟨goesOther, goes⟩ := nextContinuous_moves u (closeRecord u r (getUnit s u).arm.post.toNat false sig s)
    rw [closed] at ended goes
    refine ⟨_, ends, ?_, fun counted full => ?_, fun endless => ?_, fun w hw => ?_, ?_⟩
    · split
      · rw [ended]
      · rw [goes]
    · rw [if_pos ⟨counted, full⟩, ended]
      exact ⟨rfl, rfl, rfl⟩
    · rw [if_neg (by simp [endless]), goes]
    · split
      · rw [endOther w hw, closedOther w hw]
      · rw [goesOther w hw, closedOther w hw]
    · have closes : Changes [.funcs, .units, .hbm] s (closeRecord u r (getUnit s u).arm.post.toNat false sig s) :=
        closeRecord_changes _ _ _ _ _ _ (by decide) (Changes.refl _ s)
      exact Changes.ite (fun _ => endCapture_changes _ _ _ (by decide) closes) fun _ => nextContinuous_changes _ _ (by decide) closes
  case read =>
    obtain ⟨⟨rd, used, wr⟩, other⟩ := freeSpace_unit quiet val
    exact ⟨_, congrArg Host.Outcome.next (hostCheck_of_admits hadm ok _), rd, used, wr, other, freeSpace_changes _ _ _ (by decide) (Changes.refl _ s)⟩

end Sys2Proof.Machine
end

section
/-!
PROOFS. Triggers, hobbles and gaps of a capture (O33).
-/

namespace Sys2Proof.Machine

set_option Elab.async false

open Sys2Proof

/-! ## A trigger that is judged (R308, R309) -/

theorem endStore_of_none {u : UnitId} {s : State} (h : (getUnit s u).gap = none) (t : Fine) : endStore u t s = s := by
  simp [endStore, h]

section
variable {u : UnitId} {s : State} {t : Trigger} (armed : (getUnit s u).armed = true) (fresh : (getUnit s u).lastTrig ≠ some (trigKey t))
  (unhobbled : (getUnit s u).hobble = .none) (noGap : (getUnit s u).gap = none)
  (full : preFull (getUnit s u) ≤ trigFine t / interval (getUnit s u).arm)
include armed fresh unhobbled noGap full

/-- A trigger that no hobble holds back and whose pre region is full meets the record in progress, or the space for one. -/
theorem judgeTrigger_of_full : judgeTrigger u t s =
    (let noted := modUnit u (fun x => { x with lastTrig := some (trigKey t) }) s
     if (getUnit s u).record.isSome then modUnit u (fun x => { x with busy := satInc x.busy }) noted
     else if !hasSpace (getUnit s u) then
       modUnit u (fun x => { x with gap := x.gap.map fun g => { g with lostTriggers := g.lostTriggers + 1 } })
         (beginGap u true (trigFine t / interval (getUnit s u).arm * interval (getUnit s u).arm) 0 noted)
     else startRecord u
       { trigFrame := t.frame, trigPos := if (getUnit s u).arm.continuous then 0 else t.pos, sample := trigFine t / interval (getUnit s u).arm
         interp := t.interp && !(getUnit s u).arm.continuous, force := t.force }
       (modUnit u (fun x => { x with hobble := newHobble x.arm t.frame }) noted)) := by
  have pass : hobbleHit (getUnit (modUnit u (fun x => { x with lastTrig := some (trigKey t) }) s) u) t.frame = none := by
    rw [getUnit_modUnit]
    simp [hobbleHit, unhobbled]
  have late : ¬ trigFine t / interval (getUnit s u).arm <
      if (getUnit s u).arm.pre = 0 then (getUnit s u).filledFrom / interval (getUnit s u).arm
      else sampleFrom (getUnit s u).arm (getUnit s u).filledFrom + (getUnit s u).arm.pre.toNat := Nat.not_lt.mpr full
  unfold judgeTrigger
  rw [endStore_of_none noGap]
  dsimp only
  rw [if_neg (by simp [armed]), if_neg fresh, pass]
  dsimp only
  rw [if_neg late]
  simp only [noGap, Option.any_none, Bool.false_eq_true, false_or, if_false]

end

/-- A record that an accepted trigger starts in a unit, and what else it leaves of the unit. -/
structure Starts (u : UnitId) (t : Trigger) (s v : State) : Prop where
  record : ∃ r, (getUnit v u).record = some r ∧ r.trigFrame = t.frame ∧ r.force = t.force ∧
    ((getUnit s u).arm.continuous = false → r.trigPos = t.pos ∧ r.interp = t.interp)
  waiting : (getUnit v u).waiting = (getUnit s u).waiting
  fired : (getUnit v u).fired = (getUnit s u).fired
  other : ∀ w, w ≠ u → getUnit v w = getUnit s w
  changes : Changes [.units] s v

theorem takesTrigger_iff (x : CapUnit) (t : Trigger) : takesTrigger x t = true ↔
    x.armed = true ∧ x.lastTrig ≠ some (trigKey t) ∧ x.hobble = .none ∧ x.record = none ∧ x.gap = none ∧ hasSpace x = true ∧
    preFull x ≤ trigFine t / interval x.arm := by
  simp [takesTrigger, and_assoc]

/-- A trigger that an idle unit takes starts its record at the trigger's instant. -/
theorem judgeTrigger_starts {u : UnitId} {s : State} {t : Trigger} (takes : takesTrigger (getUnit s u) t = true) : Starts u t s (judgeTrigger u t s) := by
  obtain ⟨armed, fresh, unhobbled, idle, noGap, space, full⟩ := (takesTrigger_iff _ _).mp takes
  have judged := judgeTrigger_of_full armed fresh unhobbled noGap full
  simp only [idle, Option.isSome_none, Bool.false_eq_true, if_false, space, Bool.not_true] at judged
  rw [judged]
  refine ⟨?_, ?_, ?_, fun w hw => ?_, startRecord_changes _ _ _ (by decide) (modUnit_changes _ _ _ (by decide)
    (modUnit_changes _ _ _ (by decide) (Changes.refl _ s)))⟩
  · rw [startRecord, getUnit_modUnit]
    exact ⟨_, rfl, rfl, rfl, fun single => by simp [single]⟩
  · rw [startRecord, getUnit_modUnit, getUnit_modUnit, getUnit_modUnit]
  · rw [startRecord, getUnit_modUnit, getUnit_modUnit, getUnit_modUnit]
  · rw [startRecord, getUnit_modUnit_other hw, getUnit_modUnit_other hw, getUnit_modUnit_other hw]

theorem trigger_of_due {t : Trigger} {s : State} (due : t.frame * fineFrame ≤ s.clock.sched) (u : UnitId) : trigger u t s = judgeTrigger u t s :=
  if_neg (Nat.not_lt.mpr due)

/-- A unit that a change of it leaves as ready to take a trigger. -/
theorem starts_of_modUnit {u : UnitId} {s : State} {t : Trigger} (g : CapUnit → CapUnit) (same : takesTrigger (g (getUnit s u)) t = takesTrigger (getUnit s u) t)
    (takes : takesTrigger (getUnit s u) t = true) :
    Starts u t (modUnit u g s) (judgeTrigger u t (modUnit u g s)) :=
  judgeTrigger_starts (by rw [getUnit_modUnit, same, takes])

/-! ## Gaps (R315 to R317) -/

theorem nextContinuous_of_triggered {u : UnitId} {s : State} (h : (getUnit s u).arm.continuous = false) : nextContinuous u s = s := by
  simp [nextContinuous, h]

/-- A first gap is told, and counts once. -/
theorem beginGap_first {u : UnitId} {s : State} (none : (getUnit s u).gap = none) (at_ until_ : Fine) :
    (∃ g, (getUnit (beginGap u false at_ until_ s) u).gap = some g ∧ g.cause = 0 ∧ g.first = at_ / fineFrame ∧ g.store = true) ∧
    getUnit (beginGap u false at_ until_ s) u = { getUnit s u with
      gap := (getUnit (beginGap u false at_ until_ s) u).gap, gaps := satInc (getUnit s u).gaps } ∧
    noted (beginGap u false at_ until_ s) 0 0x3401 = true ∧ (∀ w, w ≠ u → getUnit (beginGap u false at_ until_ s) w = getUnit s w) := by
  let g : Gap := { cause := 0, first := at_ / fineFrame, last := at_ / fineFrame, from_ := at_, store := true, drain := false, until_ }
  have begins : beginGap u false at_ until_ s = record 0x3401 u.stall.val (((getUnit s u).owner).getD 0) 0 0
      (modUnit u (fun x => { x with gap := some g, gaps := satInc x.gaps }) s) := by
    simp [beginGap, none, g]
  have told (w : UnitId) (v : State) : getUnit (record 0x3401 u.stall.val (((getUnit s u).owner).getD 0) 0 0 v) w = getUnit v w :=
    (record_changes (P := [.funcs]) _ _ _ _ _ _ (by decide) (Changes.refl _ v)).getUnit w
  rw [begins, told, getUnit_modUnit]
  exact ⟨⟨g, rfl, rfl, rfl, rfl⟩, rfl, noted_record .., fun w hw => by rw [told, getUnit_modUnit_other hw]⟩

/-- A FORCE waits for the next frame boundary (R304, R309). -/
theorem force_waits {s : State} {f : Func} {u : UnitId} {tr : Trigger} (hadm : admits s f (unitReg u .cmd) = true)
    (htr : tr = { frame := frameNow s + 1, force := true }) :
    exec (.force f u) s = .next (modUnit u (fun x => if x.armed then { x with waiting := insertTrigger tr x.waiting } else x) s) := by
  have ahead : s.clock.sched < (frameNow s + 1) * fineFrame := by
    rw [Nat.mul_comm]
    exact Nat.lt_mul_div_succ s.clock.sched (by decide)
  refine congrArg Host.Outcome.next ((hostWrite_of_admits hadm _).trans ?_)
  rw [htr]
  exact if_pos ahead

/-- A level trigger reaches its unit at the crossing's place (R306, R307). -/
theorem levelTrigger_of_crossing {s : State} {u : UnitId} {sample pos : Nat} {sig : Signal} {tr : Trigger} (armed : (getUnit s u).armed = true)
    (source : (getUnit s u).arm.trigSrc = 1) (crossing : risesAt s u sig sample = true ∨ fallsAt s u sig sample = true)
    (hpos : pos = if (getUnit s u).arm.decimated then
        sample * 4096 + crossingF (getUnit s u).arm.level.toInt (levelSample s u sig sample) (levelSample s u sig (sample + 1)) * 64
      else sample * 64 + crossingF (getUnit s u).arm.level.toInt (levelSample s u sig sample) (levelSample s u sig (sample + 1)))
    (htr : tr = { frame := pos / 4096, pos := pos % 4096, interp := true }) :
    levelTrigger u sample sig s = trigger u tr (modUnit u (fun x =>
      { x with upFrom := if risesAt s u sig sample then sample + 1 else x.upFrom, downFrom := if fallsAt s u sig sample then sample + 1 else x.downFrom }) s) := by
  subst htr hpos
  unfold levelTrigger
  exact if_pos ⟨armed, source, crossing⟩

/-- A unit whose gap knows that storage has recovered (R315). -/
def recovering (now : Fine) (x : CapUnit) : CapUnit :=
  { x with gap := x.gap.map fun g => if g.store then { g with recovered := some (g.recovered.getD now) } else g }

/-- A storage gap whose record's last post sample has passed ends at once. -/
theorem endStore_past {u : UnitId} {s : State} {g : Gap} {r t : Fine} (gap : (getUnit s u).gap = some g) (recovered : g.recovered = some r)
    (store : g.store = true) (past : max r g.until_ ≤ t) : endStore u t s = modUnit u (endPart false (max r g.until_)) s := by
  simp only [endStore, gap, recovered, store, past, and_self, if_true]

theorem endStore_ahead {u : UnitId} {s : State} {g : Gap} {r t : Fine} (gap : (getUnit s u).gap = some g) (recovered : g.recovered = some r)
    (ahead : t < max r g.until_) : endStore u t s = s := by
  simp only [endStore, gap, recovered, Nat.not_le.mpr ahead, and_false, if_false]

/-- Settles O33. The lost samples of a storage gap are log entry 174, the hysteresis ahead of the first crossing is log entry 175, and a trigger that waits for
its instant is log entry 176: the model's readings. -/
theorem triggersAndGapsOfACapture : Obligations.TriggersAndGapsOfACapture := by
  refine ⟨fun s f u tr hadm htr => ⟨fun armed => ?force, fun idle => ?forceIdle⟩, fun s u tr waiting due takes single => ?due,
    fun s u sample pos sig tr armed source single crossing hpos htr due => ⟨fun takes => ?level, fun r running noGap unhobbled fresh full => ?busy⟩,
    fun s u tr source unfired htr due takes => ?schedule, fun s u e hobble => ?hobble, fun s u armed idle noGap more => ?behind,
    fun s u g gap store drained unrecovered single => ⟨fun past => ?recovered, fun ahead => ?recovering⟩⟩
  case force =>
    have forces := force_waits hadm htr
    refine ⟨_, forces, ?_, fun w hw => getUnit_modUnit_other hw _ _, modUnit_changes _ _ _ (by decide) (Changes.refl _ s)⟩
    rw [getUnit_modUnit, if_pos armed]
  case forceIdle =>
    refine ⟨_, force_waits hadm htr, fun w => ?_⟩
    by_cases hw : w = u
    · rw [hw, getUnit_modUnit, if_neg (by simp [idle])]
    · exact getUnit_modUnit_other hw _ _
  case due =>
    have started := starts_of_modUnit (fun x => { x with waiting := x.waiting.dropWhile fun t => decide (t.frame * fineFrame ≤ s.clock.sched) }) rfl takes
    have judges : dueTriggers u s = judgeTrigger u tr
        (modUnit u (fun x => { x with waiting := x.waiting.dropWhile fun t => decide (t.frame * fineFrame ≤ s.clock.sched) }) s) := by
      simp only [dueTriggers, waiting, List.takeWhile_cons, due, decide_true, if_true, List.takeWhile_nil]
      rfl
    obtain ⟨⟨r, record, frame, force, exact_⟩, rest, -, other, -⟩ := started
    obtain ⟨place, -⟩ := exact_ (by rw [getUnit_modUnit]; exact single)
    rw [← judges] at record rest other
    rw [getUnit_modUnit] at rest
    refine ⟨r, record, frame, place, force, ?_, fun w hw => (other w hw).trans (getUnit_modUnit_other hw _ _)⟩
    rw [rest]
    simp [waiting, due]
  case level =>
    have started := starts_of_modUnit (fun x =>
      { x with upFrom := if risesAt s u sig sample then sample + 1 else x.upFrom, downFrom := if fallsAt s u sig sample then sample + 1 else x.downFrom })
      rfl takes
    have reaches := (levelTrigger_of_crossing armed source crossing hpos htr).trans (trigger_of_due (by exact due) u)
    obtain ⟨⟨r, record, frame, force, exact_⟩, -, -, other, changes⟩ := started
    obtain ⟨place, interp⟩ := exact_ (by rw [getUnit_modUnit]; exact single)
    subst htr
    exact ⟨_, r, congrArg Host.Outcome.next reaches, record, frame, place, interp, force, fun w hw => (other w hw).trans (getUnit_modUnit_other hw _ _),
      Changes.trans (modUnit_changes _ _ _ (by decide) (Changes.refl _ s)) changes⟩
  case busy =>
    have reaches := (levelTrigger_of_crossing armed source crossing hpos htr).trans (trigger_of_due (by exact due) u)
    have set (fn : CapUnit → CapUnit) : getUnit (modUnit u fn s) u = fn (getUnit s u) := getUnit_modUnit _ _ _
    rw [judgeTrigger_of_full (by rw [set]; exact armed) (by rw [set]; exact fresh) (by rw [set]; exact unhobbled) (by rw [set]; exact noGap)
      (by rw [set]; exact full), set] at reaches
    simp only [running, Option.isSome_some, if_true] at reaches
    refine ⟨_, congrArg Host.Outcome.next reaches, ?_, ?_, fun w hw => ?_, ?_⟩
    · rw [getUnit_modUnit, getUnit_modUnit, set]
    · rw [getUnit_modUnit, getUnit_modUnit, set]
      exact running
    · rw [getUnit_modUnit_other hw, getUnit_modUnit_other hw, getUnit_modUnit_other hw]
    · exact modUnit_changes _ _ _ (by decide) (modUnit_changes _ _ _ (by decide) (modUnit_changes _ _ _ (by decide) (Changes.refl _ s)))
  case schedule =>
    obtain ⟨armed, -, -, -, -, -, -⟩ := (takesTrigger_iff _ _).mp takes
    have started := starts_of_modUnit (fun x => { x with fired := true }) rfl takes
    have reaches : scheduleTrigger u s = judgeTrigger u tr (modUnit u (fun x => { x with fired := true }) s) := by
      refine Eq.trans ?_ (trigger_of_due (by exact due) u)
      subst htr
      exact if_pos ⟨armed, source, by simp [unfired]⟩
    obtain ⟨⟨r, record, frame, -, -⟩, -, fired, other, changes⟩ := started
    rw [getUnit_modUnit] at fired
    exact ⟨_, r, congrArg Host.Outcome.next reaches, record, frame, fired, fun w hw => (other w hw).trans (getUnit_modUnit_other hw _ _),
      Changes.trans (modUnit_changes _ _ _ (by decide) (Changes.refl _ s)) changes⟩
  case hobble =>
    have ends : exec (.hobbleEnd u) s = .next (modUnit u (fun x => { x with hobble := .none }) s) := by
      refine congrArg Host.Outcome.next ?_
      simp only [hobbleEnds, hobble]
    exact ⟨_, ends, getUnit_modUnit _ _ _, fun w hw => getUnit_modUnit_other hw _ _, modUnit_changes _ _ _ (by decide) (Changes.refl _ s)⟩
  case behind =>
    have uncut : cutRecord u s = s := by simp [cutRecord, idle]
    obtain ⟨⟨g, gap, cause, first, store⟩, own, logged, other⟩ := beginGap_first noGap s.clock.sched (recordTill (getUnit s u))
    have goesOn : ¬ ((getUnit s u).arm.recCount ≠ 0 ∧ (getUnit s u).arm.recCount.toNat ≤ (getUnit s u).records) := by
      rintro ⟨counted, reached⟩
      obtain endless | below := more
      · exact counted endless
      · omega
    have begins : exec (.storageBehind u) s = .next (beginGap u false s.clock.sched (recordTill (getUnit s u)) s) := by
      refine congrArg Host.Outcome.next ?_
      simp only [storageBehind, armed, if_true, uncut]
      rw [own]
      exact if_neg goesOn
    exact ⟨_, g, begins, gap, cause, first, store, by rw [own], logged, other, beginGap_changes _ _ _ _ _ (by decide) (Changes.refl _ s)⟩
  case recovered =>
    have own : getUnit (modUnit u (recovering s.clock.sched) s) u = { getUnit s u with gap := some { g with recovered := some s.clock.sched } } := by
      simp [recovering, gap, store, unrecovered]
    have ended := endStore_past (u := u) (t := s.clock.sched) (s := modUnit u (recovering s.clock.sched) s) (g := { g with recovered := some s.clock.sched })
      (r := s.clock.sched) (by rw [own]) rfl store (max_le le_rfl past)
    rw [max_eq_left past] at ended
    have part := getUnit_modUnit u (endPart false s.clock.sched) (modUnit u (recovering s.clock.sched) s)
    rw [own] at part
    simp only [endPart, Bool.false_eq_true, if_false, drained, settleGap, store, true_or, if_true] at part
    have recovers : storageRecovered u s = modUnit u (endPart false s.clock.sched) (modUnit u (recovering s.clock.sched) s) :=
      (congrArg (nextContinuous u) ended).trans (nextContinuous_of_triggered (by rw [part]; exact single))
    refine ⟨_, congrArg Host.Outcome.next recovers, ?_, ?_, fun w hw => ?_, ?_⟩
    · rw [part, drained, unrecovered]
    · rw [part]
    · rw [getUnit_modUnit_other hw, getUnit_modUnit_other hw]
    · exact modUnit_changes _ _ _ (by decide) (modUnit_changes _ _ _ (by decide) (Changes.refl _ s))
  case recovering =>
    have own : getUnit (modUnit u (recovering s.clock.sched) s) u = { getUnit s u with gap := some { g with recovered := some s.clock.sched } } := by
      simp [recovering, gap, store, unrecovered]
    have waits := endStore_ahead (u := u) (t := s.clock.sched) (s := modUnit u (recovering s.clock.sched) s) (g := { g with recovered := some s.clock.sched })
      (r := s.clock.sched) (by rw [own]) rfl (lt_max_of_lt_right ahead)
    have recovers : storageRecovered u s = modUnit u (recovering s.clock.sched) s :=
      (congrArg (nextContinuous u) waits).trans (nextContinuous_of_triggered (by rw [own]; exact single))
    refine ⟨_, congrArg Host.Outcome.next recovers, by rw [own], fun w hw => getUnit_modUnit_other hw _ _, ?_⟩
    exact modUnit_changes _ _ _ (by decide) (Changes.refl _ s)

end Sys2Proof.Machine
end

section
/-!
PROOFS. Tokens on their way: where the statement fails (O34).
-/

namespace Sys2Proof.Machine

set_option Elab.async false

open Sys2Proof

/-- A token on channel E000, and its copy in the planes: at plane A's compare unit, not yet at plane B's. -/
def edgeToken : Token := { chan := 0, kind := .edge, hop := 1, inv := false, value := 1 }

def halfCompared : Flight :=
  { tok := edgeToken, src := .hub, port := 0, dst := .egress 0, stage := .planes, a := some edgeToken, b := some edgeToken, gotA := true }

/-- Both planes in service, and a table of copies that lists copy 0 a second time, in plane B alone. -/
def copyListedTwice : State :=
  { State.reset with
    hub := { State.reset.hub with planeA := { state := .service, entry := true }, planeB := { state := .service, entry := true } }
    flights := [(0, halfCompared), (0, { halfCompared with a := none, gotA := false })] }

/-- Refutes O34: in a state whose table of copies lists a number twice, which no run from reset reaches, plane B's fault drops the second entry by its number and
the delivered copy with it, so that the copy that MISSING_COPY_TIMEOUT has sent on does not stand in the fabric after the step. -/
theorem not_tokensTravelThroughTheFabric : ¬ Obligations.TokensTravelThroughTheFabric := by
  intro h
  obtain ⟨-, copies, -⟩ := h
  obtain ⟨-, -, timeout, -⟩ := copies copyListedTwice 0 halfCompared rfl (by decide)
  obtain ⟨t, answer, -, -, -, -, delivered, -⟩ := timeout edgeToken rfl (by decide) (by decide) (by decide) rfl
  have sent : missingCopy 0 copyListedTwice = t := Host.Outcome.next.inj answer
  rw [← sent] at delivered
  exact absurd delivered (by decide +kernel)

end Sys2Proof.Machine
end

section
/-!
PROOFS. Buckle cells: where the statement fails (O35).
-/

namespace Sys2Proof.Machine

set_option Elab.async false

open Sys2Proof

/-- A full log whose oldest entry is a code of a stall, or of the spine, with an object. -/
def fullLogOf (code : Code) (stall : Nat) (object : Word) : List LogEntry :=
  List.replicate 511 (logEntryOf 1 (.device 8 0)) ++ [logEntryOf code (.device stall object)]

/-- Cell 0 evaluates with inv when its join expires, and its wire is the joined input of cell 1. -/
def wiredPair : StallImage :=
  { node :=
    { cells :=
      [(0, { used := true, emitMask := 1, expireInv := true, inputs := [{ joined := true, source := .chan 0 }, { joined := true, source := .chan 0 }] }),
       (1, { used := true, inputs := [{ joined := true, source := .cell 0 }] })] } }

/-- Cell 0 waits for its second token, the latch of cell 1 is full, and the log is full. -/
def joinBeforeFullLatch : State :=
  { State.reset with
    funcs := [(0, { log := fullLogOf 0x064A 0 (cellObject (.node 0 0)) })]
    stalls := [(0, { life := .riding })]
    stallImages := [(0, wiredPair)]
    cells := [(0, { latches := [(0, [edgeToken])], join := some 0 }), (1, { latches := [(0, [edgeToken, edgeToken])] })] }

/-- Refutes O35: the expired join enters the log by a merge into its oldest entry (R697), and the overrun that its evaluation meets at a full latch (0x3643, R353)
pushes that entry out of the 512 (R696), so the log does not hold 0x064A after the step. -/
theorem not_cellsEvaluateAndHoldTheirBits : ¬ Obligations.CellsEvaluateAndHoldTheirBits := by
  intro h
  obtain ⟨-, expiry, -⟩ := h.1 joinBeforeFullLatch 0 0 _ (by decide) rfl
  obtain ⟨t, answer, -, -, -, held, -⟩ := expiry (by decide)
  have expires : runCell (.node 0 0) joinRuns expireJoin joinBeforeFullLatch = t := Host.Outcome.next.inj answer
  rw [← expires] at held
  exact absurd held (by decide +kernel)

end Sys2Proof.Machine
end

section
/-!
PROOFS. Hub planes and token books: where the statement fails (O36).
-/

namespace Sys2Proof.Machine

set_option Elab.async false

open Sys2Proof

/-- An audit of channel E000 whose book does not balance: the hub keeps a token for an armed capture unit, no plane takes new tokens, and the log is full. -/
def auditOverKeptToken : State :=
  { State.reset with
    funcs := [(0, { log := fullLogOf 0x364B 8 (reinObject 0) })]
    hub := { State.reset.hub with planeA := {}, planeB := {}, audit := { State.reset.hub.audit with chan := 0, held := true } }
    books := [(0, { issued := 1, kept := [(.hub, 0, edgeToken)] })]
    units := [(0, { armed := true, arm := { trigSrc := 2, trigObj := 0 } })] }

/-- Refutes O36: the audit's failure enters the log by a merge into its oldest entry (R697), and the kept token that the end of the hold sends on finds no plane in
service (0x3647, R366), which pushes that entry out of the 512 (R696), so the log does not hold 0x364B after the step. -/
theorem not_planesLeaveRejoinAndBooksBalance : ¬ Obligations.PlanesLeaveRejoinAndBooksBalance := by
  intro h
  obtain ⟨-, -, -, -, -, -, -, audits⟩ := h
  obtain ⟨t, answer, -, -, -, -, -, -, -, -, unbalanced, -⟩ := audits auditOverKeptToken _ _ rfl rfl rfl
  obtain ⟨-, -, held⟩ := unbalanced (by decide +kernel)
  have settles : auditSettle auditOverKeptToken = t := Host.Outcome.next.inj answer
  rw [← settles] at held
  exact absurd held (by decide +kernel)

end Sys2Proof.Machine
end

section
/-!
PROOFS. A rider's word runs: what its conditions read, its action and its sequencing (R386, R387, Table 09-4).
-/

namespace Sys2Proof.Machine

set_option Elab.async false

open Sys2Proof

/-! ### Two changes of one rider -/

theorem tabSet_tabSet {α : Type} (a b : α) (k : Nat) : ∀ t : Tab α, tabSet (tabSet t k a) k b = tabSet t k b
  | [] => by simp [tabSet]
  | (i, c) :: rest => by
    rcases Nat.lt_trichotomy k i with h | h | h
    · simp [tabSet, h]
    · simp [tabSet, h]
    · have h₁ : ¬ k < i := by omega
      have h₂ : k ≠ i := by omega
      simp [tabSet, h₁, h₂, tabSet_tabSet a b k rest]

theorem modRider_modRider (r : RiderId) (f g : Rider → Rider) (s : State) : modRider r f (modRider r g s) = modRider r (f ∘ g) s := by
  simp [modRider, tabMod, tabSet_tabSet]

theorem modRider_congr {r : RiderId} {f g : Rider → Rider} {s : State} (h : f (getRider s r) = g (getRider s r)) : modRider r f s = modRider r g s := by
  simp only [getRider] at h
  simp only [modRider, tabMod, h]

/-! ### What a condition reads of its rider (Table 09-6): its registers, its task inputs and its flags -/

/-- Two riders hold the same registers, task inputs and flags. -/
def sameInputs (x y : Rider) : Prop := x.regs = y.regs ∧ x.times = y.times ∧ x.inputs = y.inputs ∧ x.flags = y.flags

theorem condHolds_withRiders {s : State} {r : RiderId} {rs : Tab Rider} (h : sameInputs (tabGet {} rs (riderKey r)) (getRider s r))
    (w : MicroWord) (c : Nat) : condHolds { s with riders := rs } r w c = condHolds s r w c := by
  obtain ⟨hr, ht, hi, hf⟩ := h
  have hx : getRider { s with riders := rs } r = tabGet {} rs (riderKey r) := rfl
  simp only [condHolds, hx, objectNum, oldest, workReg, timeReg, taskInput, hr, ht, hi, hf]
  rfl

theorem predHolds_withRiders {s : State} {r : RiderId} {rs : Tab Rider} (h : sameInputs (tabGet {} rs (riderKey r)) (getRider s r))
    (w : MicroWord) : predHolds { s with riders := rs } r w = predHolds s r w := by
  simp only [predHolds, condHolds_withRiders h]

theorem waitMet_withRiders {s : State} {r : RiderId} {rs : Tab Rider} (h : sameInputs (tabGet {} rs (riderKey r)) (getRider s r))
    (w : MicroWord) : waitMet { s with riders := rs } r w = waitMet s r w := by
  have hx : getRider { s with riders := rs } r = tabGet {} rs (riderKey r) := rfl
  simp only [waitMet, condHolds_withRiders h, queueReady, hx, objectNum, workReg, h.1]
  rfl

theorem predHolds_modRider {s : State} {r : RiderId} {f : Rider → Rider} (h : sameInputs (f (getRider s r)) (getRider s r)) (w : MicroWord) :
    predHolds (modRider r f s) r w = predHolds s r w :=
  predHolds_withRiders (by rw [tabGet_tabMod]; exact h) w

theorem waitMet_modRider {s : State} {r : RiderId} {f : Rider → Rider} (h : sameInputs (f (getRider s r)) (getRider s r)) (w : MicroWord) :
    waitMet (modRider r f s) r w = waitMet s r w :=
  waitMet_withRiders (by rw [tabGet_tabMod]; exact h) w

theorem predHolds_modRider_congr {s : State} {r : RiderId} {f g : Rider → Rider} (h : sameInputs (f (getRider s r)) (g (getRider s r)))
    (w : MicroWord) : predHolds (modRider r f s) r w = predHolds (modRider r g s) r w :=
  predHolds_withRiders (s := modRider r g s) (by rw [tabGet_tabMod, getRider_modRider]; exact h) w

/-! ### A word that need not wait (R386) -/

/-- A rider as the action of its word finds it: of what `begun` leaves, the wait that a handler interrupted may stand still. -/
def reached (w : MicroWord) (x : Rider) : Rider :=
  { begun w x with
    state := .running
    savedWait := match x.savedWait with | some (pc, d) => if pc = x.pc ∧ !x.inHandler then none else some (pc, d) | none => none }

/-- A rider goes on at a word. -/
def goOn (pc : BitVec 16) (x : Rider) : Rider := { endWait x with pc, state := .running }

theorem savedWait_reached_of_inHandler {x : Rider} (w : MicroWord) (h : x.inHandler = true) : (reached w x).savedWait = x.savedWait := by
  simp only [reached, h]
  cases x.savedWait <;> simp

/-- The end of the word's wait leaves what `begun` says. -/
theorem endWait_reached {w : MicroWord} {x : Rider} (h : x.state = .running) : endWait (reached w x) = begun w x := by
  have hs : (if x.inHandler = true then (reached w x).savedWait else none) = (begun w x).savedWait := by
    cases hi : x.inHandler with
    | true => simp [savedWait_reached_of_inHandler w hi, begun, hi]
    | false => simp [begun, hi]
  calc endWait (reached w x)
      = { begun w x with state := .running, savedWait := if x.inHandler = true then (reached w x).savedWait else none } := rfl
    _ = { begun w x with state := .running } := by rw [hs]
    _ = begun w x := by rw [← h]; rfl

/-- What the fetch and the end of the wait leave of a rider, step by step. -/
theorem modRider_reached (r : RiderId) (w : MicroWord) (s : State) :
    (if (decide (Mw.wcond w ≠ 0) || decide ((getRider (stay r w .running false
          (modRider r (fun x => { x with lastStable := decide (x.pc.toNat < 0x4000) }) s)) r).state = .waiting)) = true then
        modRider r (fun x => { x with flags := { x.flags with tmo := false } })
          (stay r w .running false (modRider r (fun x => { x with lastStable := decide (x.pc.toNat < 0x4000) }) s))
      else stay r w .running false (modRider r (fun x => { x with lastStable := decide (x.pc.toNat < 0x4000) }) s)) =
      modRider r (reached w) s := by
  have hw : ¬ (getRider (stay r w .running false
      (modRider r (fun x => { x with lastStable := decide (x.pc.toNat < 0x4000) }) s)) r).state = .waiting := by
    simp [stay]
  by_cases hc : Mw.wcond w = 0
  · rw [if_neg (by simp [hc, hw]), stay, modRider_modRider]
    exact modRider_congr (by simp [reached, begun, hc] <;> rfl)
  · rw [if_pos (by simp [hc]), stay, modRider_modRider, modRider_modRider]
    exact modRider_congr (by simp [reached, begun, hc] <;> rfl)

section
variable {s : State} {r : RiderId} {w : MicroWord} {u : Run}

/-- What stands of a rider and its word where the word runs. -/
structure Runs (s : State) (r : RiderId) (w : MicroWord) : Prop where
  running : (getRider s r).state = .running
  inHand : wordInHand s r = w
  fetched : fetchCode s r w .clean = none
  met : waitMet s r w = true
  pred : predHolds (modRider r (begun w) s) r w = true
  noStop : (getRider s r).stopPending = false
  life : (getStall s r.stall).life = .riding ∨ (getStall s r.stall).life = .resting ∧ (getRider s r).shot.active = true
  noFault : (getRider s r).inHandler = true ∨ nextFault (getRider s r).fault = none
  shot : Mw.op w = 7 → shotHeld s r = false ∧ (getStall s r.stall).life = .riding

theorem boundaryQuiet_iff : boundaryQuiet s r = true ↔ (getRider s r).stopPending = false ∧
    ((getStall s r.stall).life = .riding ∨ (getStall s r.stall).life = .resting ∧ (getRider s r).shot.active = true) ∧
    ((getRider s r).inHandler = true ∨ nextFault (getRider s r).fault = none) := by
  simp [boundaryQuiet, and_assoc]

theorem runs_of_wordRuns (h : wordRuns s r w u = true) : u = {} ∧ Runs s r w := by
  simp only [wordRuns, Bool.and_eq_true, decide_eq_true_eq, Option.isNone_iff_eq_none, Bool.or_eq_true, Bool.not_eq_true', boundaryQuiet_iff] at h
  obtain ⟨⟨⟨⟨⟨⟨⟨running, inHand⟩, hu⟩, fetched⟩, met⟩, pred⟩, noStop, life, noFault⟩, shot⟩ := h
  exact ⟨hu, running, inHand, fetched, met, pred, noStop, life, noFault, fun h7 => shot.resolve_left (absurd h7)⟩

theorem Runs.not_malformed (h : Runs s r w) : malformed w = false := by
  have hf := h.fetched
  cases hm : malformed w with
  | false => rfl
  | true =>
    simp only [fetchCode, hm, if_true] at hf
    split at hf <;> cases hf

/-- The fetch passes, and a rider at its word begins it. -/
theorem execWord_fetched {is : MicroWord → Bool} (h : Runs s r w) (his : is w = true) : execWord is r {} s =
    (let t := modRider r (fun x => { x with lastStable := decide (x.pc.toNat < 0x4000) }) s
    if Mw.op w = 0x0E then runFork r w .granted false t
    else if waitMet t r w then runWord r w .granted false (stay r w .running false t)
    else pause r (stay r w .waiting true t)) := by
  have hgo : ¬ ((getRider s r).state ≠ .running ∨ (Mw.op w = 7 ∧ shotHeld s r = true)) := by
    rintro (h₁ | ⟨h₁, h₂⟩)
    · exact h₁ h.running
    · exact absurd h₂ (by simp [(h.shot h₁).1])
  simp only [execWord, h.inHand, if_neg hgo, h.fetched, his, if_true]
  rfl

/-- A word that runs takes its action at once, and the action's end decides how the rider goes on. -/
theorem execWord_runs {is : MicroWord → Bool} (h : Runs s r w) (his : is w = true) (hop : Mw.op w ≠ 0x0E) :
    execWord is r {} s = finish r w false (action r w .granted false (modRider r (reached w) s)) := by
  have hm : waitMet (modRider r (fun x => { x with lastStable := decide (x.pc.toNat < 0x4000) }) s) r w = true := by
    rw [waitMet_modRider ⟨rfl, rfl, rfl, rfl⟩]; exact h.met
  have hp : predHolds (modRider r (reached w) s) r w = true :=
    (predHolds_modRider_congr (f := reached w) (g := begun w) ⟨rfl, rfl, rfl, rfl⟩ w).trans h.pred
  rw [execWord_fetched h his]
  simp only [if_neg hop, if_pos hm, runWord, modRider_reached, if_pos hp]

/-! ### The sequencing of a word (Table 09-4) -/

/-- Nothing meets a rider at a boundary. -/
theorem boundary_of_quiet {t : State} (hs : (getRider t r).stopPending = false) (hd : drainStops t r = false)
    (hf : (getRider t r).inHandler = true ∨ nextFault (getRider t r).fault = none) : boundary r t = t := by
  unfold boundary
  by_cases hr : (getRider t r).state = .running
  · rw [if_neg (not_not_intro hr), if_neg (by simp [hs]), if_neg (by simp [hd]), enterHandler]
    rcases hf with hi | hn
    · rw [if_pos hi]
    · rw [hn, ite_self]
  · rw [if_pos hr]

theorem drainStops_of_life {t : State} (h : (getStall t r.stall).life = .riding ∨ (getRider t r).shot.active = true) : drainStops t r = false := by
  rcases h with h | h <;> simp [drainStops, h]

/-- An action has left its rider at the word: only what its shot gathers and its last anchor differ, and neither another rider nor the stall's state does. -/
structure Acted (s t : State) (r : RiderId) (w : MicroWord) : Prop where
  rider : getRider t r = { reached w (getRider s r) with shot := (getRider t r).shot, lastAnchor := (getRider t r).lastAnchor }
  active : (getRider t r).shot.active = (getRider s r).shot.active
  others : ∀ q, q ≠ r → getRider t q = getRider s q
  life : (getStall t r.stall).life = (getStall s r.stall).life

theorem acted_reached (s : State) (r : RiderId) (w : MicroWord) : Acted s (modRider r (reached w) s) r w :=
  ⟨by rw [getRider_modRider], by rw [getRider_modRider]; rfl, fun _ h => getRider_modRider_other h _ _, rfl⟩

/-- An action that leaves the riders and the stalls as they were. -/
theorem acted_of_changes {P : List Part} {t : State} (h : Changes P (modRider r (reached w) s) t) (hr : P.contains .riders = false := by decide)
    (hs : P.contains .stalls = false := by decide) : Acted s t r w := by
  have hx : ∀ q, getRider t q = getRider (modRider r (reached w) s) q := fun q => by unfold getRider; rw [h.riders hr]
  obtain ⟨hrider, hactive, hothers, hlife⟩ := acted_reached s r w
  exact ⟨by rw [hx]; exact hrider, by rw [hx]; exact hactive, fun q hq => (hx q).trans (hothers q hq), by rw [h.getStall _ hs]; exact hlife⟩

/-- The rider goes on at a word with a change of its own, and nothing meets it there. -/
theorem boundary_goOn {t : State} {f : Rider → Rider} (hs : (getRider t r).stopPending = false)
    (hl : (getStall t r.stall).life = .riding ∨ (getRider t r).shot.active = true)
    (hf : (f (getRider t r)).inHandler = true ∨ nextFault (getRider t r).fault = none)
    (hfs : (f (getRider t r)).stopPending = (getRider t r).stopPending) (hfa : (f (getRider t r)).shot = (getRider t r).shot)
    (hff : (f (getRider t r)).fault = (getRider t r).fault) : boundary r (modRider r f t) = modRider r f t := by
  refine boundary_of_quiet ?_ (drainStops_of_life ?_) ?_
  · rw [getRider_modRider, hfs]; exact hs
  · rw [getRider_modRider, hfa]; exact hl
  · rw [getRider_modRider, hff]; exact hf

theorem Acted.stopPending {t : State} (h : Acted s t r w) : (getRider t r).stopPending = (getRider s r).stopPending := by rw [h.rider]; rfl

theorem Acted.fault {t : State} (h : Acted s t r w) : (getRider t r).fault = (getRider s r).fault := by rw [h.rider]; rfl

theorem Acted.inHandler {t : State} (h : Acted s t r w) : (getRider t r).inHandler = (getRider s r).inHandler := by rw [h.rider]; rfl

theorem Acted.pc {t : State} (h : Acted s t r w) : (getRider t r).pc = (getRider s r).pc := by rw [h.rider]; rfl

/-- A word without a sequencing of its own goes on at pc + 1. -/
theorem sequence_next {t : State} (hseq : Mw.seq w = 0) (hs : (getRider t r).stopPending = false)
    (hl : (getStall t r.stall).life = .riding ∨ (getRider t r).shot.active = true)
    (hf : (getRider t r).inHandler = true ∨ nextFault (getRider t r).fault = none) :
    sequence r w t = modRider r (goOn ((getRider t r).pc + 1)) t := by
  simp only [sequence, hseq]
  exact boundary_goOn hs hl hf rfl rfl rfl

theorem Runs.quiet (h : Runs s r w) {t : State} (ha : Acted s t r w) : (getRider t r).stopPending = false ∧
    ((getStall t r.stall).life = .riding ∨ (getRider t r).shot.active = true) ∧
    ((getRider t r).inHandler = true ∨ nextFault (getRider t r).fault = none) := by
  refine ⟨ha.stopPending.trans h.noStop, ?_, ?_⟩
  · rw [ha.life, ha.active]; exact h.life.imp_right And.right
  · rw [ha.inHandler, ha.fault]; exact h.noFault

/-- The state after an action that is done: its rider goes on at the next word. -/
def nextWord (r : RiderId) (t : State) : State := modRider r (goOn ((getRider t r).pc + 1)) t

theorem nextWord_changes (r : RiderId) (t : State) : Changes [.riders] t (nextWord r t) := modRider_changes r _ t (by decide) (Changes.refl _ _)

theorem finish_done (h : Runs s r w) (hseq : Mw.seq w = 0) {t : State} (ha : Acted s t r w) : finish r w false (t, .done) = nextWord r t := by
  obtain ⟨hs, hl, hf⟩ := h.quiet ha
  exact sequence_next hseq hs hl hf

theorem goesOn_nextWord (h : Runs s r w) {t : State} (ha : Acted s t r w) : goesOn s (nextWord r t) r w := by
  refine ⟨?_, fun q hq => (getRider_modRider_other hq _ _).trans (ha.others q hq)⟩
  have hb : endWait (getRider t r) = { begun w (getRider s r) with shot := (getRider t r).shot, lastAnchor := (getRider t r).lastAnchor } := by
    rw [ha.rider, ← endWait_reached h.running]; rfl
  have hx : getRider (nextWord r t) r = goOn ((getRider t r).pc + 1) (getRider t r) := getRider_modRider ..
  rw [hx, goOn, hb, ha.pc]
  have hst : (begun w (getRider s r)).state = .running := h.running
  rw [← hst]

/-- A word whose action is done and leaves its rider at the word: what it answers, and how its rider goes on. -/
theorem execWord_done {is : MicroWord → Bool} (h : Runs s r w) (his : is w = true) (hop : Mw.op w ≠ 0x0E) (hseq : Mw.seq w = 0) {t : State}
    (hact : action r w .granted false (modRider r (reached w) s) = (t, .done)) (ha : Acted s t r w) :
    execWord is r {} s = nextWord r t ∧ goesOn s (nextWord r t) r w := by
  rw [execWord_runs h his hop, hact, finish_done h hseq ha]
  exact ⟨rfl, goesOn_nextWord h ha⟩

end

end Sys2Proof.Machine
end

section
/-!
PROOFS. Words that act on their rider alone: NOP with each sequencing, ALU, TIME, TAKE and IRQ (O37).
-/

namespace Sys2Proof.Machine

set_option Elab.async false

open Sys2Proof

/-! ### A shot ends, and a rider stops (R383, R407) -/

section
variable {s : State} {r : RiderId}

/-- The record of a shot leaves its rider as it was, but for the count of those that it had to drop. -/
theorem getRider_writeShot (ab : Bool) (e : Word64) (s : State) : getRider (writeShot r ab e s) r =
    { getRider s r with recordsDropped := (getRider (writeShot r ab e s) r).recordsDropped } := by
  have hq : ∀ q p ws eoi (u : State), getRider (issueWords q p ws eoi u) r = getRider u r := fun q p ws eoi u =>
    (issueWords_changes (P := [.queues]) q p ws eoi u (by decide) (Changes.refl _ u)).getRider r
  have hr : ∀ c (u : State), getRider (recordRider c r u) r = getRider u r := fun c u =>
    (recordRider_changes (P := [.funcs]) c r u (by decide) (Changes.refl _ u)).getRider r
  unfold writeShot
  split
  · rfl
  · split
    · simp only [hr, getRider_modRider]
    · simp only [hq]

/-- A rider whose shot ends. -/
def shotEnded (ab : Bool) (x : Rider) : Rider :=
  { x with
    shot := { x.shot with active := false }
    completed := if ab then x.completed else x.completed + 1
    aborted := if ab then x.aborted + 1 else x.aborted
    inputs := x.inputs.map fun i => (i.1, { i.2 with claim := false }) }

theorem endShot_of_active (h : (getRider s r).shot.active = true) (ab : Bool) (e : Word64) : endShot r ab e s =
    countDrain r.stall ab (feedShot r.stall (riderOwner s r) ab (modRider r (shotEnded ab) (writeShot r ab e s))) := by
  have ho : riderOwner (modRider r (shotEnded ab) (writeShot r ab e s)) r = riderOwner s r := by
    have hc := modRider_changes r (shotEnded ab) _ (by decide)
      (writeShot_changes (P := [.funcs, .riders, .queues]) r ab e s (by decide) (Changes.refl _ s))
    simp only [riderOwner, riderBind, imageOf, hc.stallImages]
  rw [← ho]
  exact if_pos h

theorem endShot_of_idle (h : (getRider s r).shot.active = false) (ab : Bool) (e : Word64) : endShot r ab e s = s :=
  if_neg (by simp [h])

theorem getRider_endShot_of_active (h : (getRider s r).shot.active = true) (ab : Bool) (e : Word64) : getRider (endShot r ab e s) r =
    { shotEnded ab (getRider s r) with recordsDropped := (getRider (endShot r ab e s) r).recordsDropped } := by
  have hd : getRider (endShot r ab e s) r = shotEnded ab (getRider (writeShot r ab e s) r) := by
    rw [endShot_of_active h, (countDrain_changes (P := [.stalls]) _ _ _ (by decide) (Changes.refl _ _)).getRider r,
      (feedShot_changes (P := [.feeds]) _ _ _ _ (by decide) (Changes.refl _ _)).getRider r, getRider_modRider]
  rw [hd, getRider_writeShot]
  rfl

/-- A shot that is not in progress any more: what a stop leaves of the rider's shot, its counts and its registers. -/
structure ShotAborted (x y : Rider) : Prop where
  active : y.shot.active = false
  aborted : y.aborted = x.aborted + (if x.shot.active then 1 else 0)
  regs : y.regs = x.regs

theorem shotAborted_endShot (e : Word64) : ShotAborted (getRider s r) (getRider (endShot r true e s) r) := by
  cases h : (getRider s r).shot.active with
  | true =>
    rw [getRider_endShot_of_active h]
    exact ⟨rfl, by rw [h]; rfl, rfl⟩
  | false =>
    rw [endShot_of_idle h]
    exact ⟨h, by simp [h], rfl⟩

/-- A rider that is not STOPPED yet stops with its shot aborted. -/
theorem shotAborted_stopRider (h : (getRider s r).state ≠ .stopped) (k : StopKind) :
    ShotAborted (getRider s r) (getRider (stopRider r k s) r) := by
  obtain ⟨u, before, stop⟩ := stopRider_voices (k := k) h
  obtain ⟨active, aborted, regs⟩ := shotAborted_endShot (s := u) (r := r) (schedOfFine (frameAtOrAfter u.clock.sched))
  rw [before.getRider] at aborted regs
  rw [stop, getRider_modRider]
  exact ⟨active, aborted, regs⟩

end

/-! ### Words that act on their rider alone (R386, R387) -/

section
variable {s : State} {r : RiderId} {w : MicroWord}

/-- A word whose action and sequencing change its rider alone: from the rider that it begins with to the rider `y`. -/
def leaves (s t : State) (r : RiderId) (y : Rider) : Prop :=
  getRider t r = y ∧ (∀ q, q ≠ r → getRider t q = getRider s q) ∧ Changes [.riders] s t

theorem leaves_modRider (f : Rider → Rider) : leaves s (modRider r f s) r (f (getRider s r)) :=
  ⟨getRider_modRider .., fun _ h => getRider_modRider_other h _ _, modRider_changes r f s (by decide) (Changes.refl _ s)⟩

/-- What a boundary asks of a rider is the same in two riders. -/
def sameCourse (x y : Rider) : Prop := y.stopPending = x.stopPending ∧ y.shot = x.shot ∧ y.fault = x.fault ∧ y.inHandler = x.inHandler

/-- The sequencing of a word: the rider goes on at a word with a change `g` of its own, and nothing meets it there. -/
theorem boundary_leaves (h : Runs s r w) {t : State} {y : Rider} (ht : leaves s t r y) (hy : sameCourse (getRider s r) y)
    {g : Rider → Rider} {pc : BitVec 16}
    (hg : (g (endWait y)).stopPending = y.stopPending ∧ (g (endWait y)).shot = y.shot ∧ (g (endWait y)).fault = y.fault)
    (hh : (g (endWait y)).inHandler = y.inHandler ∨ nextFault (getRider s r).fault = none) :
    leaves s (boundary r (modRider r (fun x => { g (endWait x) with pc, state := .running }) t)) r
      { g (endWait y) with pc, state := .running } := by
  obtain ⟨hx, hothers, hc⟩ := ht
  obtain ⟨hstop, hshot, hfault, hin⟩ := hy
  obtain ⟨hstop', hshot', hfault'⟩ := hg
  have hb : boundary r (modRider r (fun x => { g (endWait x) with pc, state := .running }) t) =
      modRider r (fun x => { g (endWait x) with pc, state := .running }) t := by
    refine boundary_goOn ?_ ?_ ?_ ?_ ?_ ?_ <;> rw [hx]
    · exact hstop.trans h.noStop
    · rw [hshot, hc.getStall]; exact h.life.imp_right And.right
    · rw [hfault]
      exact hh.elim (fun hi => h.noFault.imp_left fun hn => (hi.trans hin).trans hn) .inr
    · exact hstop'
    · exact hshot'
    · exact hfault'
  rw [hb]
  exact ⟨by rw [getRider_modRider, hx], fun q hq => (getRider_modRider_other hq _ _).trans (hothers q hq), modRider_changes r _ t (by decide) hc⟩

theorem leaves_reached : leaves s (modRider r (reached w) s) r (reached w (getRider s r)) := leaves_modRider _

theorem leaves_action (f : Rider → Rider) : leaves s (modRider r f (modRider r (reached w) s)) r (f (reached w (getRider s r))) := by
  rw [modRider_modRider]; exact leaves_modRider _

/-- A word whose action changes its rider alone and which goes on at pc + 1. -/
theorem execWord_leaves {is : MicroWord → Bool} (h : Runs s r w) (his : is w = true) (hop : Mw.op w ≠ 0x0E) (hseq : Mw.seq w = 0)
    {t : State} {y : Rider} (hact : action r w .granted false (modRider r (reached w) s) = (t, .done)) (ht : leaves s t r y)
    (hy : sameCourse (getRider s r) y) (hpc : y.pc = (getRider s r).pc) :
    leaves s (execWord is r {} s) r { endWait y with pc := (getRider s r).pc + 1, state := .running } := by
  rw [execWord_runs h his hop, hact]
  simp only [finish, sequence, hseq, ht.1, hpc]
  exact boundary_leaves h ht hy (g := id) ⟨rfl, rfl, rfl⟩ (.inl rfl)

theorem action_nop {t : State} (hop : Mw.op w = 0) : action r w .granted false t = (t, .done) := by
  unfold action; rw [hop]; rfl

theorem execNop_finish (h : Runs s r w) (hop : Mw.op w = 0) :
    execWord (isOp 0x00) r {} s = sequence r w (modRider r (reached w) s) := by
  rw [execWord_runs h (by simp [isOp, hop]) (by simp [hop]), action_nop hop]; rfl

/-- A NOP whose sequencing goes on at a word with a change `g` of the rider. -/
theorem execNop_goes (h : Runs s r w) (hop : Mw.op w = 0) {g : Rider → Rider} {pc : BitVec 16}
    (hseq : sequence r w (modRider r (reached w) s) =
      boundary r (modRider r (fun x => { g (endWait x) with pc, state := .running }) (modRider r (reached w) s)))
    (hg : (g (begun w (getRider s r))).stopPending = (getRider s r).stopPending ∧ (g (begun w (getRider s r))).shot = (getRider s r).shot ∧
      (g (begun w (getRider s r))).fault = (getRider s r).fault)
    (hst : (g (begun w (getRider s r))).state = (getRider s r).state)
    (hh : (g (begun w (getRider s r))).inHandler = (getRider s r).inHandler ∨ nextFault (getRider s r).fault = none) :
    leaves s (execWord (isOp 0x00) r {} s) r { g (begun w (getRider s r)) with pc } := by
  rw [execNop_finish h hop, hseq, show ({ g (begun w (getRider s r)) with pc } : Rider) =
    { g (begun w (getRider s r)) with pc, state := .running } by rw [← h.running, ← hst], ← endWait_reached h.running]
  rw [← endWait_reached h.running] at hg hh
  exact boundary_leaves h leaves_reached ⟨rfl, rfl, rfl, rfl⟩ hg hh

/-- A NOP with sequencing STOP. -/
theorem execNop_stops (h : Runs s r w) (hop : Mw.op w = 0) (hseq : Mw.seq w = 5) :
    (getRider (execWord (isOp 0x00) r {} s) r).state = .stopped ∧
      ShotAborted (getRider s r) (getRider (execWord (isOp 0x00) r {} s) r) ∧
      Changes [.funcs, .stalls, .seqs, .chans, .riders, .queues, .feeds] s (execWord (isOp 0x00) r {} s) := by
  have hstop : execWord (isOp 0x00) r {} s = stopRider r .other (modRider r (reached w) s) := by
    rw [execNop_finish h hop]; simp only [sequence, hseq]
  have hx : getRider (modRider r (reached w) s) r = reached w (getRider s r) := getRider_modRider ..
  have ha := shotAborted_stopRider (s := modRider r (reached w) s) (r := r) (by rw [hx]; exact (by decide : RiderState.running ≠ .stopped)) .other
  rw [hx] at ha
  rw [hstop]
  exact ⟨state_stopRider .., ⟨ha.active, ha.aborted, ha.regs⟩,
    stopRider_changes _ _ _ (by decide) (modRider_changes r _ s (by decide) (Changes.refl _ s))⟩

theorem action_alu {t : State} (hop : Mw.op w = 1) : action r w .granted false t = (modRider r (actAlu w) t, .done) := by
  unfold action; rw [hop]; rfl

theorem action_time {t : State} (hop : Mw.op w = 2) : action r w .granted false t = (modRider r (actTime t.clock.sched w) t, .done) := by
  unfold action; rw [hop]; rfl

theorem action_take {t : State} (hop : Mw.op w = 3) : action r w .granted false t = (modRider r (actTake w) t, .done) := by
  unfold action; rw [hop]; rfl

theorem action_irq {t : State} (hop : Mw.op w = 6) : action r w .granted false t =
    (raise (0x900 + 16 * (riderOwner t r).val + (bits (Mw.immLo w) 0 4 : BitVec 4).toNat) t, .done) := by
  unfold action; rw [hop]; rfl

/-- A word whose action writes registers, flags and task inputs of its rider alone, as a function of those. -/
theorem execWord_writes {is : MicroWord → Bool} (h : Runs s r w) (his : is w = true) (hop : Mw.op w ≠ 0x0E) (hseq : Mw.seq w = 0)
    {f : Rider → Rider} (hact : action r w .granted false (modRider r (reached w) s) = (modRider r f (modRider r (reached w) s), .done))
    (hf : ∀ x, ∃ regs times inputs flags, f x = { x with regs, times, inputs, flags })
    (hfe : ∀ x y, sameInputs x y → x.lastAnchor = y.lastAnchor → sameInputs (f x) (f y)) :
    leaves s (execWord is r {} s) r { f (begun w (getRider s r)) with pc := (getRider s r).pc + 1 } := by
  obtain ⟨regs, times, inputs, flags, hx⟩ := hf (reached w (getRider s r))
  obtain ⟨regs', times', inputs', flags', hy⟩ := hf (begun w (getRider s r))
  have hl := execWord_leaves h his hop hseq hact (leaves_action f) (by rw [hx]; exact ⟨rfl, rfl, rfl, rfl⟩) (by rw [hx]; rfl)
  have hs := hfe (reached w (getRider s r)) (begun w (getRider s r)) ⟨rfl, rfl, rfl, rfl⟩ rfl
  rw [hx, hy] at hs
  obtain ⟨rfl, rfl, rfl, rfl⟩ := hs
  rw [hx] at hl
  refine ⟨hl.1.trans ?_, hl.2⟩
  rw [hy]
  calc _ = { endWait (reached w (getRider s r)) with pc := (getRider s r).pc + 1, regs, times, inputs, flags, state := .running } := rfl
    _ = { begun w (getRider s r) with pc := (getRider s r).pc + 1, regs, times, inputs, flags, state := .running } := by
      rw [endWait_reached h.running]
    _ = _ := by rw [← h.running]; rfl

theorem actAlu_writes (w : MicroWord) (x : Rider) : ∃ regs times inputs flags, actAlu w x = { x with regs, times, inputs, flags } :=
  ⟨_, _, _, _, rfl⟩

theorem actTime_writes (now : Fine) (w : MicroWord) (x : Rider) :
    ∃ regs times inputs flags, actTime now w x = { x with regs, times, inputs, flags } := by
  unfold actTime
  split <;> exact ⟨_, _, _, _, rfl⟩

theorem actTake_writes (w : MicroWord) (x : Rider) : ∃ regs times inputs flags, actTake w x = { x with regs, times, inputs, flags } := by
  unfold actTake
  split <;> exact ⟨_, _, _, _, rfl⟩

theorem operandB_begun (w : MicroWord) (x : Rider) : operandB (begun w x) w = operandB x w := rfl

@[simp] theorem workReg_setWork (k : Nat) (v : Word) (x : Rider) : workReg (setWork k v x) k = v := by simp [workReg, setWork]

@[simp] theorem timeReg_setTimeReg (n : Nat) (v : Word64) (x : Rider) : timeReg (setTimeReg n v x) n = v := by simp [timeReg, setTimeReg]

@[simp] theorem taskInput_modInput (k : Nat) (f : TaskInput → TaskInput) (x : Rider) : taskInput (modInput k f x) k = f (taskInput x k) := by
  simp [taskInput, modInput]

theorem actAlu_add (x : Rider) (hsub : Mw.sub w = 0) :
    workReg (actAlu w x) (Mw.ld w) = workReg x (Mw.la w) + operandB x w ∧
      (actAlu w x).flags.c = decide (2 ^ 32 ≤ (workReg x (Mw.la w)).toNat + (operandB x w).toNat) := by
  rw [actAlu, hsub]
  exact ⟨workReg_setWork .., rfl⟩

/-- A comparison writes its register's own value. -/
theorem actAlu_compare (x : Rider) (hsub : Mw.sub w = 7) :
    (actAlu w x).flags.z = decide (workReg x (Mw.la w) - operandB x w = 0) ∧ workReg (actAlu w x) (Mw.ld w) = workReg x (Mw.ld w) := by
  rw [actAlu, hsub]
  exact ⟨rfl, workReg_setWork ..⟩

theorem actTime_now (now : Fine) (x : Rider) (hsub : Mw.sub w = 0) : timeReg (actTime now w x) (Mw.tn w) = schedOfFine (nextFrame now) := by
  rw [actTime, hsub]
  exact timeReg_setTimeReg ..

theorem actTime_imm (now : Fine) (x : Rider) (hsub : Mw.sub w = 2) : timeReg (actTime now w x) (Mw.tn w) = Mw.immHi w ++ Mw.immLo w := by
  rw [actTime, hsub]
  exact timeReg_setTimeReg ..

theorem actTake_empty {x : Rider} (hl : (taskInput x (Mw.ti w)).latch = []) : workReg (actTake w x) (Mw.ld w) = 0 := by
  rw [actTake, hl]
  exact workReg_setWork ..

theorem actTake_token {x : Rider} {k : Token} {hub : Bool} {rest : List (Token × Bool)} (hl : (taskInput x (Mw.ti w)).latch = (k, hub) :: rest) :
    workReg (actTake w x) (Mw.ld w) = tokenWord k ∧ (taskInput (actTake w x) (Mw.ti w)).latch = rest := by
  rw [actTake, hl]
  exact ⟨workReg_setWork .., congrArg TaskInput.latch (taskInput_modInput (Mw.ti w) (fun i => { i with latch := rest }) x)⟩

/-- A message to a host does not depend on the riders. -/
theorem deliver_withRiders (src : Nat) (f : Func) (e : Nat) (s : State) (rs : Tab Rider) :
    deliver src f e { s with riders := rs } = { deliver src f e s with riders := rs } := by
  have hf : funcEnabled { s with riders := rs } f = funcEnabled s f := rfl
  have hg : getFunc { s with riders := rs } f = getFunc s f := rfl
  simp only [deliver, hf, hg]
  split
  · rfl
  · split <;> rfl

theorem raise_withRiders (src : Nat) (s : State) (rs : Tab Rider) :
    raise src { s with riders := rs } = { raise src s with riders := rs } := by
  have hv : vectorOf { s with riders := rs } src = vectorOf s src := rfl
  have hi : getIrq { s with riders := rs } src = getIrq s src := rfl
  simp only [raise, hv, hi, deliver_withRiders]
  split
  · rfl
  · split
    · rfl
    · split
      · rfl
      · split
        · split <;> rfl
        · rfl

/-- The number of the source that an IRQ word raises (R387, Table 19-6). -/
def irqSource (s : State) (r : RiderId) (w : MicroWord) : Nat := 0x900 + 16 * (riderOwner s r).val + (bits (Mw.immLo w) 0 4 : BitVec 4).toNat

/-- What an IRQ word leaves of the state as its rider finds it. -/
theorem raise_reached : (raise (irqSource s r w) (modRider r (reached w) s)).irqs = (raise (irqSource s r w) s).irqs ∧
    (raise (irqSource s r w) (modRider r (reached w) s)).funcs = (raise (irqSource s r w) s).funcs := by
  have hr : raise (irqSource s r w) (modRider r (reached w) s) = _ := raise_withRiders _ s _
  rw [hr]
  exact ⟨rfl, rfl⟩

theorem execIrq_raises (h : Runs s r w) (hop : Mw.op w = 6) (hseq : Mw.seq w = 0) :
    ∃ t, execWord (isOp 0x06) r {} s = t ∧ getRider t r = { begun w (getRider s r) with pc := (getRider s r).pc + 1 } ∧
      t.irqs = (raise (irqSource s r w) s).irqs ∧ t.funcs = (raise (irqSource s r w) s).funcs ∧
      (∀ q, q ≠ r → getRider t q = getRider s q) ∧ Changes [.funcs, .irqs, .riders] s t := by
  have hm := modRider_changes (P := [.funcs, .irqs, .riders]) r (reached w) s (by decide) (Changes.refl _ s)
  have hu : getRider (raise (irqSource s r w) (modRider r (reached w) s)) r = reached w (getRider s r) := by
    rw [(raise_changes (P := [.funcs, .irqs]) _ _ (by decide) (Changes.refl _ _)).getRider, getRider_modRider]
  obtain ⟨hexec, hx, hothers⟩ := execWord_done h (is := isOp 0x06) (by simp [isOp, hop]) (by simp [hop]) hseq (action_irq hop)
    (acted_of_changes (raise_changes (P := [.funcs, .irqs]) _ _ (by decide) (Changes.refl _ _)))
  refine ⟨_, hexec, ?_, ?_, ?_, hothers, ?_⟩
  · refine hx.trans ?_
    have hn : getRider (nextWord r (raise (irqSource s r w) (modRider r (reached w) s))) r =
        goOn ((getRider (raise (irqSource s r w) (modRider r (reached w) s)) r).pc + 1)
          (getRider (raise (irqSource s r w) (modRider r (reached w) s)) r) := getRider_modRider ..
    rw [hu] at hn
    exact congrArg (fun y : Rider => { begun w (getRider s r) with pc := (getRider s r).pc + 1, shot := y.shot, lastAnchor := y.lastAnchor }) hn
  · exact raise_reached.1
  · exact raise_reached.2
  · exact modRider_changes r _ _ (by decide) (raise_changes _ _ (by decide) hm)

end

/-- Settles O37: each word runs its action on the rider that has begun it, and its sequencing meets nothing at the boundary. -/
theorem riderWordsComputeAndSequence : Obligations.RiderWordsComputeAndSequence := by
  intro s r w u hrun
  obtain ⟨rfl, h⟩ := runs_of_wordRuns hrun
  refine ⟨fun hop hseq => ?_, fun hop hseq => ?_, fun hop hseq hroom => ?_, fun a rest hop hseq hstack => ?_,
    fun a rest hop hseq hstack hquiet => ?_, fun hop hseq => ?_, fun hop hseq => ?_, fun hop hseq => ?_, fun hop hseq => ?_, fun hop hseq => ?_⟩
  · exact ⟨_, rfl, execNop_goes h hop (g := id) (by simp only [sequence, hseq]; simp only [getRider_modRider]; rfl) ⟨rfl, rfl, rfl⟩ rfl (.inl rfl)⟩
  · exact ⟨_, rfl, execNop_goes h hop (g := id) (by simp only [sequence, hseq]) ⟨rfl, rfl, rfl⟩ rfl (.inl rfl)⟩
  · exact ⟨_, rfl, execNop_goes h hop (g := fun x => { x with stack := (x.pc + 1) :: x.stack })
      (by simp only [sequence, hseq]; rw [if_neg (by rw [getRider_modRider]; exact Nat.not_le.mpr hroom)]) ⟨rfl, rfl, rfl⟩ rfl (.inl rfl)⟩
  · exact ⟨_, rfl, execNop_goes h hop (g := fun x => { x with stack := rest })
      (by simp only [sequence, hseq, getRider_modRider]; rw [show (reached w (getRider s r)).stack = a :: rest from hstack])
      ⟨rfl, rfl, rfl⟩ rfl (.inl rfl)⟩
  · exact ⟨_, rfl, execNop_goes h hop (g := fun x => { x with stack := rest, inHandler := false })
      (by simp only [sequence, hseq, getRider_modRider]; rw [show (reached w (getRider s r)).stack = a :: rest from hstack])
      ⟨rfl, rfl, rfl⟩ rfl (.inr hquiet)⟩
  · obtain ⟨hst, ⟨hactive, haborted, hregs⟩, hc⟩ := execNop_stops h hop hseq
    exact ⟨_, rfl, hst, hactive, haborted, hregs, hc⟩
  · obtain ⟨hx, hothers, hc⟩ := execWord_writes h (is := isOp 0x01) (by simp [isOp, hop]) (by simp [hop]) hseq (action_alu hop) (actAlu_writes w)
      fun x y ⟨hr, ht, hi, hf⟩ _ => by simp [sameInputs, actAlu, setWork, workReg, operandB, hr, ht, hi, hf]
    refine ⟨_, rfl, hx, fun hsub => ?_, fun hsub => ?_, hothers, hc⟩ <;> rw [hx]
    · exact actAlu_add (begun w (getRider s r)) hsub
    · exact actAlu_compare (begun w (getRider s r)) hsub
  · obtain ⟨hx, hothers, hc⟩ := execWord_writes h (is := isOp 0x02) (by simp [isOp, hop]) (by simp [hop]) hseq (action_time hop) (actTime_writes _ w)
      fun x y ⟨hr, ht, hi, hf⟩ ha => by
        unfold actTime; split <;> simp [sameInputs, setTimeReg, setWork, timeReg, hr, ht, hi, hf, ha]
    refine ⟨_, rfl, hx, fun hsub => ?_, fun hsub => ?_, hothers, hc⟩ <;> rw [hx]
    · exact actTime_now s.clock.sched (begun w (getRider s r)) hsub
    · exact actTime_imm s.clock.sched (begun w (getRider s r)) hsub
  · obtain ⟨hx, hothers, hc⟩ := execWord_writes h (is := isOp 0x03) (by simp [isOp, hop]) (by simp [hop]) hseq (action_take hop) (actTake_writes w)
      fun x y ⟨hr, ht, hi, hf⟩ ha => by
        simp only [actTake, taskInput, hi]; split <;> simp [sameInputs, setWork, modInput, hr, ht, hi, hf]
    refine ⟨_, rfl, hx, fun hempty => ?_, fun k hub rest hlatch => ?_, hothers, hc⟩ <;> rw [hx]
    · exact actTake_empty (x := begun w (getRider s r)) hempty
    · exact actTake_token (x := begun w (getRider s r)) hlatch
  · obtain ⟨t, ht, facts⟩ := execIrq_raises h hop hseq
    exact ⟨t, congrArg Host.Outcome.next ht, facts⟩

end Sys2Proof.Machine
end

section
/-!
PROOFS. The words, ports and pages of a queue (R459 to R473).
-/

namespace Sys2Proof.Machine

set_option Elab.async false

open Sys2Proof

/-! ## A queue and its producer ports -/

section
variable (q : QueueId) (i : Nat) (f : QProd → QProd) (s : State)

@[simp] theorem getQueue_modProd : getQueue (modProd q i f s) q = { getQueue s q with prods := tabMod {} (getQueue s q).prods i f } :=
  getQueue_modQueue ..

@[simp] theorem getProd_modProd : getProd (modProd q i f s) q i = f (getProd s q i) := by
  simp [getProd]

/-- A change of a queue that leaves its ports as they were. -/
theorem getProd_modQueue {g : Queue → Queue} (h : (g (getQueue s q)).prods = (getQueue s q).prods) (j : Nat) :
    getProd (modQueue q g s) q j = getProd s q j := by
  simp only [getProd, getQueue_modQueue, h]

end

theorem getQueue_modProd_other {q p : QueueId} (h : p ≠ q) (i : Nat) (f : QProd → QProd) (s : State) :
    getQueue (modProd q i f s) p = getQueue s p := getQueue_modQueue_other h _ _

/-- The allocation of a queue stands in the images of its stall. -/
theorem queueAlloc_of_images {s t : State} (h : t.stallImages = s.stallImages) (q : QueueId) : queueAlloc t q = queueAlloc s q := by
  simp only [queueAlloc, imageOf, h]

/-- A move of pages leaves the queues as they were. -/
theorem getQueue_allocPages (n : StallId) (k : Nat) (s : State) (q : QueueId) : getQueue (allocPages n k s) q = getQueue s q :=
  (allocPages_changes (P := [.qdir]) n k s (by decide) (Changes.refl _ s)).getQueue q

theorem getQueue_releasePages (n : StallId) (k : Nat) (s : State) (q : QueueId) : getQueue (releasePages n k s) q = getQueue s q :=
  (releasePages_changes (P := [.qdir]) n k s (by decide) (Changes.refl _ s)).getQueue q

/-- The pages of a queue are brought in line: nothing else of it changes. -/
theorem getQueue_fixPages (q : QueueId) (s : State) : getQueue (fixPages q s) q =
    { getQueue s q with pages := (getQueue (fixPages q s) q).pages, releasing := (getQueue (fixPages q s) q).releasing } := by
  unfold fixPages
  dsimp only
  split
  · rw [getQueue_modQueue, getQueue_allocPages]
  · split
    · rw [getQueue_modQueue, getQueue_releasePages]
    · rfl

theorem getQueue_fixPages_other {q p : QueueId} (h : p ≠ q) (s : State) : getQueue (fixPages q s) p = getQueue s p := by
  unfold fixPages
  dsimp only
  split
  · rw [getQueue_modQueue_other h, getQueue_allocPages]
  · split
    · rw [getQueue_modQueue_other h, getQueue_releasePages]
    · rfl

@[simp] theorem stored_fixPages (q : QueueId) (s : State) : (getQueue (fixPages q s) q).stored = (getQueue s q).stored := by
  rw [getQueue_fixPages]

@[simp] theorem getProd_fixPages (q : QueueId) (s : State) (i : Nat) : getProd (fixPages q s) q i = getProd s q i := by
  rw [getProd, getQueue_fixPages]; rfl

/-! ## Words that a port issues (R459, R463) -/

/-- The words that port `i` issues, the last one marked when `eoi` is set. -/
def markedWords (i : Nat) (eoi : Bool) (ws : List Word) : List QWord :=
  ws.zipIdx.map fun x => { word := x.1, eoi := eoi && x.2 + 1 == ws.length, port := i }

theorem issueWords_of_port {q : QueueId} {p : QPort} {a : QueueAlloc} {i : Nat} {s : State} (alloc : queueAlloc s q = some a)
    (port : prodIndex a p = some i) (ws : List Word) (eoi : Bool) : issueWords q p ws eoi s =
    modProd q i (fun d => { d with credits := d.credits - ws.length, flight := d.flight ++ markedWords i eoi ws }) s := by
  simp only [issueWords, alloc, Option.bind_some, port]
  rfl

theorem markedWords_one (i : Nat) (eoi : Bool) (w : Word) : markedWords i eoi [w] = [{ word := w, eoi, port := i }] := by
  simp [markedWords]

/-- The words of consecutive registers. -/
theorem markedWords_range (i : Nat) (eoi : Bool) (f : Nat → Word) (n : Nat) : markedWords i eoi ((List.range (n + 1)).map f) =
    (List.range (n + 1)).map fun k => { word := f k, eoi := eoi && decide (k = n), port := i } := by
  refine List.ext_getElem (by simp [markedWords]) fun k hk _ => ?_
  simp [markedWords]
  rfl

/-! ## Words that a consumer takes (R460) -/

/-- What the take of the oldest word leaves of a queue. -/
structure Takes (q : QueueId) (w : QWord) (rest : List QWord) (s t : State) : Prop where
  stored : (getQueue t q).stored = rest
  returning : (getProd t q w.port).returning = (getProd s q w.port).returning + 1
  other : ∀ p, p ≠ q → getQueue t p = getQueue s p
  changes : Changes [.queues, .qdir] s t

theorem takeWord_takes {q : QueueId} {s : State} {w : QWord} {rest : List QWord} (stored : (getQueue s q).stored = w :: rest) :
    ∃ t, takeWord q s = some (w, t) ∧ Takes q w rest s t := by
  refine ⟨_, by rw [takeWord, stored], ?_, ?_, fun p hp => ?_, ?_⟩
  · rw [stored_fixPages, getQueue_modProd, getQueue_modQueue]
    simp [dropWord, stored]
  · rw [getProd_fixPages, getProd_modProd, getProd_modQueue _ _ rfl]
  · rw [getQueue_fixPages_other hp, getQueue_modProd_other hp, getQueue_modQueue_other hp]
  · exact fixPages_changes _ _ (by decide) (modProd_changes _ _ _ _ (by decide) (modQueue_changes _ _ _ (by decide) (Changes.refl _ s)))

end Sys2Proof.Machine
end

section
/-!
PROOFS. Words, credits and resets of a queue (O44).
-/

namespace Sys2Proof.Machine

set_option Elab.async false

open Sys2Proof

/-! ## A word reaches its queue (R457, R464 to R470) -/

section
variable {s : State} {q : QueueId} {i : Nat} {w : QWord} {rest : List QWord}

/-- The first word that a port has issued has left it. -/
def sentWord (q : QueueId) (i : Nat) (rest : List QWord) (s : State) : State := modProd q i (fun d => { d with flight := rest }) s

theorem getProd_sentWord : getProd (sentWord q i rest s) q i = { getProd s q i with flight := rest } := getProd_modProd ..

theorem stored_sentWord : (getQueue (sentWord q i rest s) q).stored = (getQueue s q).stored := by
  rw [sentWord, getQueue_modProd]

theorem getQueue_sentWord_other {p : QueueId} (h : p ≠ q) : getQueue (sentWord q i rest s) p = getQueue s p := getQueue_modProd_other h _ _ _

theorem sentWord_changes : Changes [.queues] s (sentWord q i rest s) := modProd_changes _ _ _ _ (by decide) (Changes.refl _ s)

/-- No audit holds the word. -/
theorem queueWordGrant_of_free (free : queueHeld s q = false)
    (pages : s.qdir.cmd = some .auditPages → (getQueue (grantWord q i s) q).pages ≤ (getQueue s q).pages) :
    queueWordGrant q i s = grantWord q i s := by
  simp only [queueWordGrant, free, Bool.false_eq_true, if_false]
  exact if_neg fun h => Nat.not_lt.mpr (pages h.1) h.2

theorem grantWord_of_alloc {a : QueueAlloc} (flight : (getProd s q i).flight = w :: rest) (alloc : queueAlloc s q = some a) :
    grantWord q i s = storeWord q a i w (sentWord q i rest s) := by
  have here : queueAlloc (modProd q i (fun d => { d with flight := rest }) s) q = some a := alloc
  simp only [grantWord, flight, here]
  rfl

/-- A word for a queue that no image allocates is dropped and told (R470). -/
theorem grantWord_of_none (flight : (getProd s q i).flight = w :: rest) (none : queueAlloc s q = none) :
    grantWord q i s = record 0x3804 8 0 (queueObject q) 0
      (setQdir (fun d => { d with noQueue := satInc d.noQueue }) (sentWord q i rest s)) := by
  have here : queueAlloc (modProd q i (fun d => { d with flight := rest }) s) q = Option.none := none
  simp only [grantWord, flight, here]
  rfl

/-- The exec of a grant whose queue is allocated and which no audit holds. -/
theorem exec_queueWordGrant {a : QueueAlloc} (free : queueHeld s q = false) (flight : (getProd s q i).flight = w :: rest)
    (alloc : queueAlloc s q = some a) (pages : s.qdir.cmd ≠ some .auditPages) :
    exec (.queueWordGrant q i) s = .next (storeWord q a i w (sentWord q i rest s)) :=
  congrArg Host.Outcome.next ((queueWordGrant_of_free free fun h => absurd h pages).trans (grantWord_of_alloc flight alloc))

theorem stored_foldl_putWord (quota : Nat) (ws : List QWord) (x : Queue) :
    (ws.foldl (fun x w => putWord quota w x) x).stored = x.stored ++ ws ∧ (ws.foldl (fun x w => putWord quota w x) x).prods = x.prods := by
  induction ws generalizing x with
  | nil => exact ⟨(List.append_nil _).symm, rfl⟩
  | cons w ws ih =>
    obtain ⟨hstored, hprods⟩ := ih (putWord quota w x)
    exact ⟨by rw [List.foldl_cons, hstored]; simp [putWord], hprods⟩

/-- What words that are stored leave of their queue: nothing else of it changes but its pages. -/
theorem storedWords (f : QProd → QProd) (g : Queue → Queue) (ws : List QWord) (hg : ∀ x, (g x).stored = x.stored ++ ws ∧ (g x).prods = x.prods)
    (s : State) :
    getProd (fixPages q (modQueue q g (modProd q i f s))) q i = f (getProd s q i) ∧
    (getQueue (fixPages q (modQueue q g (modProd q i f s))) q).stored = (getQueue s q).stored ++ ws ∧
    ∀ p, p ≠ q → getQueue (fixPages q (modQueue q g (modProd q i f s))) p = getQueue s p := by
  refine ⟨?_, ?_, fun p hp => ?_⟩
  · rw [getProd_fixPages, getProd_modQueue _ _ (hg _).2, getProd_modProd]
  · rw [stored_fixPages, getQueue_modQueue, (hg _).1, getQueue_modProd]
  · rw [getQueue_fixPages_other hp, getQueue_modQueue_other hp, getQueue_modProd_other hp]

section
variable {a : QueueAlloc} {u : State} (open_ : (getProd u q i).discarding = false)
include open_

theorem storeWord_word (item : a.itemMode = false) : storeWord q a i w u =
    fixPages q (modQueue q (putWord (queueQuota u q) w) (modProd q i (fun d => { d with openItem := !w.eoi }) u)) := by
  simp [storeWord, open_, item]

theorem storeWord_staged (item : a.itemMode = true) (eoi : w.eoi = false) (room : (getProd u q i).staged.length < 64) :
    storeWord q a i w u = modProd q i (fun d => { d with staged := (getProd u q i).staged ++ [w], openItem := true }) u := by
  simp [storeWord, open_, item, eoi, room]

theorem storeWord_item (item : a.itemMode = true) (eoi : w.eoi = true) (room : (getProd u q i).staged.length < 64) :
    storeWord q a i w u = fixPages q (modQueue q (fun x => ((getProd u q i).staged ++ [w]).foldl (fun x w => putWord (queueQuota u q) w x) x)
      (modProd q i (fun d => { d with staged := [], openItem := false }) u)) := by
  simp [storeWord, open_, item, eoi, room]

theorem storeWord_long (item : a.itemMode = true) (full : 64 ≤ (getProd u q i).staged.length) :
    storeWord q a i w u = record 0x3802 (queueStall q).val a.owner (queueObject q) 0
      (modProd q i (fun d => { d with staged := [], openItem := false, discarding := !w.eoi })
        (discardWords q a i ((getProd u q i).staged.length + 1) u)) := by
  simp [storeWord, open_, item, full]

end

/-- Discarded words: their credits go to the port, or wait for it, and the discards count. -/
theorem discardWords_effect {a : QueueAlloc} {p : QPort} {c : Nat} (port : a.prods[i]? = some (p, c)) (k : Nat) (u : State) :
    getProd (discardWords q a i k u) q i = (if portPresent u q p then { getProd u q i with credits := (getProd u q i).credits + k }
      else { getProd u q i with absent := (getProd u q i).absent + k }) ∧
    (getQueue (discardWords q a i k u) q).stored = (getQueue u q).stored ∧
    (getQueue (discardWords q a i k u) q).discards = satAdd (getQueue u q).discards k := by
  simp only [discardWords, port]
  refine ⟨?_, ?_, ?_⟩
  · rw [getProd_modQueue _ _ rfl, getProd_modProd]
  · rw [getQueue_modQueue, getQueue_modProd]
  · rw [getQueue_modQueue, getQueue_modProd]

end

/-! ## A forced reset (R479) -/

theorem resets_releasePages (n : StallId) (k : Nat) (s : State) : (releasePages n k s).qdir.resets = s.qdir.resets := by
  unfold releasePages askPages
  split <;> rfl

/-- A queue is emptied, and no other queue and no count of resets has changed. -/
structure Emptied (q : QueueId) (s t : State) : Prop where
  stored : (getQueue t q).stored = []
  resets : (getQueue t q).resets = (getQueue s q).resets
  other : ∀ p, p ≠ q → getQueue t p = getQueue s p
  qdir : t.qdir.resets = s.qdir.resets

theorem flushQueue_empties (q : QueueId) (s : State) : Emptied q s (flushQueue q s) := by
  unfold flushQueue
  refine ⟨?_, ?_, fun p hp => ?_, resets_releasePages _ _ s⟩
  · rw [getQueue_modQueue]
  · rw [getQueue_modQueue, getQueue_releasePages]
  · rw [getQueue_modQueue_other hp, getQueue_releasePages]

/-- What the new credits of a reset queue's ports are set from. -/
def resetPort (q : QueueId) (e : (QPort × Nat) × Nat) (s : State) : State :=
  let here := portPresent s q e.1.1
  modProd q e.2 (fun d =>
    let c := e.1.2 - d.flight.length
    { d with credits := if here then c else 0, absent := if here then 0 else c, returning := 0 }) s

theorem emptied_resetPort {q : QueueId} {s t : State} (e : (QPort × Nat) × Nat) (h : Emptied q s t) : Emptied q s (resetPort q e t) := by
  refine ⟨?_, ?_, fun p hp => ?_, h.qdir⟩
  · rw [resetPort, getQueue_modProd]; exact h.stored
  · rw [resetPort, getQueue_modProd]; exact h.resets
  · rw [resetPort, getQueue_modProd_other hp]; exact h.other p hp

/-- A reset empties its queue, marks it and is told. -/
theorem forcedReset_effect {q : QueueId} {s : State} {a : QueueAlloc} (alloc : queueAlloc s q = some a) :
    (getQueue (forcedReset q s) q).stored = [] ∧ (getQueue (forcedReset q s) q).fault = true ∧
    (getQueue (forcedReset q s) q).resets = satInc (getQueue s q).resets ∧ (forcedReset q s).qdir.resets = satInc s.qdir.resets ∧
    noted (forcedReset q s) 0 0x3801 = true ∧ ∀ p, p ≠ q → getQueue (forcedReset q s) p = getQueue s p := by
  have ports : Emptied q s (forEach a.prods.zipIdx (resetPort q) (flushQueue q s)) :=
    forEach_keep (resetPort q) (Emptied q s) (fun e t h => emptied_resetPort e h) _ _ (flushQueue_empties q s)
  have reset : forcedReset q s = raise ((queueStall q).val * 256 + 0x1A) (record 0x3801 (queueStall q).val a.owner (queueObject q) 0
      (setQdir (fun d => { d with resets := satInc d.resets }) (modQueue q (fun x =>
        { x with ungranted := a.capacity - (a.prods.map (·.2)).sum, fault := true, resets := satInc x.resets
                 lost := x.lost + flushCount (getQueue s q) }) (forEach a.prods.zipIdx (resetPort q) (flushQueue q s))))) := by
    simp only [forcedReset, alloc]
    rfl
  have told {n : Nat} {code : Code} {k : Nat} {o : Owner} {x y : Word} (t : State) :
      Changes [.funcs, .irqs] t (raise n (record code k o x y t)) :=
    raise_changes _ _ (by decide) (record_changes _ _ _ _ _ _ (by decide) (Changes.refl _ t))
  have queue {n : Nat} {code : Code} {k : Nat} {o : Owner} {x y : Word} {g : Qdir → Qdir} (t : State) (p : QueueId) :
      getQueue (raise n (record code k o x y (setQdir g t))) p = getQueue t p := (told _).getQueue p
  rw [reset]
  refine ⟨?_, ?_, ?_, ?_, ?_, fun p hp => ?_⟩
  · rw [queue, getQueue_modQueue]
    exact ports.stored
  · rw [queue, getQueue_modQueue]
  · rw [queue, getQueue_modQueue]
    exact congrArg satInc ports.resets
  · rw [(told _).qdir]
    exact congrArg satInc ports.qdir
  · rw [noted_raise]
    exact noted_record ..
  · rw [queue, getQueue_modQueue_other hp]
    exact ports.other p hp

/-! ## The host's pushes and pops (R488) -/

theorem alloc_of_hostProd {s : State} {q : QueueId} {a : QueueAlloc} {i : Nat} (h : hostProd s q = some (a, i)) :
    queueAlloc s q = some a ∧ prodIndex a .host = some i := by
  simpa [hostProd, Option.bind_eq_some_iff] using h

/-- A push of the host that it may do and has a credit for. -/
theorem hostPush_pushes {s : State} {f : Func} {q : QueueId} {r : QReg} {a : QueueAlloc} {i : Nat} (adm : admits s f (queueReg q r) = true)
    (port : hostProd s q = some (a, i)) (credits : (getProd s q i).credits ≠ 0) (eoi : Bool) (val : Word) :
    hostPush f q r eoi val s = modProd q i (fun d =>
      { d with credits := d.credits - 1, flight := d.flight ++ [{ word := val, eoi, port := i }] }) s := by
  obtain ⟨alloc, index⟩ := alloc_of_hostProd port
  have ok : pushCode q s = none := by simp [pushCode, port, credits]
  rw [hostPush, hostCheck_of_admits adm ok, issueWords_of_port alloc index, markedWords_one]
  rfl

/-- A push of the host: the port's credit and word, and nothing of any other queue. -/
theorem pushed {s : State} {q : QueueId} {i : Nat} (f : QProd → QProd) :
    getProd (modProd q i f s) q i = f (getProd s q i) ∧ (∀ p, p ≠ q → getQueue (modProd q i f s) p = getQueue s p) ∧
      Changes [.queues] s (modProd q i f s) :=
  ⟨getProd_modProd .., fun _ hp => getQueue_modProd_other hp _ _ _, modProd_changes _ _ _ _ (by decide) (Changes.refl _ s)⟩

/-- The host takes one word. -/
theorem hostTake_one {s : State} {q : QueueId} {w : QWord} {rest : List QWord} (stored : (getQueue s q).stored = w :: rest) :
    ∃ t, hostTake q 1 s = modQueue q (fun x =>
      { x with popValid := true, popTaken := 1, popEoi := w.eoi, popData := tabSet x.popData 0 w.word }) t ∧ Takes q w rest s t := by
  obtain ⟨t, take, takes⟩ := takeWord_takes stored
  have one : takeWords q 1 s = ([w], t) := by
    simp only [takeWords, take]
    split <;> rfl
  exact ⟨t, by simp only [hostTake, one]; rfl, takes⟩

/-- Settles O44: each word, credit and reset by the rule of its queue's state; a pop that an audit holds waits until the settle point (the model's choice,
log entry 97, deduced from R486). -/
theorem queuesMoveWordsAndCredits : Obligations.QueuesMoveWordsAndCredits := by
  refine ⟨fun s q i w rest free flight => ⟨fun none => ?none, fun a alloc open_ pages =>
    ⟨fun item => ?word, fun item eoi room => ?staged, fun item eoi room => ?item, fun p c item full port => ?long⟩⟩, ?credit, ?host, ?reset, ?pass⟩
  case none =>
    have granted : exec (.queueWordGrant q i) s = .next (grantWord q i s) := by
      refine congrArg Host.Outcome.next (queueWordGrant_of_free free fun _ => ?_)
      rw [grantWord_of_none flight none, (record_changes (P := [.funcs]) _ _ _ _ _ _ (by decide) (Changes.refl _ _)).getQueue]
      refine Nat.le_of_eq (Eq.trans (b := (getQueue (sentWord q i rest s) q).pages) rfl ?_)
      rw [sentWord, getQueue_modProd]
    have told (p : QueueId) : getQueue (grantWord q i s) p = getQueue (sentWord q i rest s) p := by
      rw [grantWord_of_none flight none, (record_changes (P := [.funcs]) _ _ _ _ _ _ (by decide) (Changes.refl _ _)).getQueue]; rfl
    refine ⟨_, granted, ?_, ?_, ?_, ?_, fun p hp => ?_, ?_⟩
    · rw [getProd, told]
      exact congrArg QProd.flight getProd_sentWord
    · rw [told, stored_sentWord]
    · rw [grantWord_of_none flight none, (record_changes (P := [.funcs]) _ _ _ _ _ _ (by decide) (Changes.refl _ _)).qdir]; rfl
    · rw [grantWord_of_none flight none]
      exact noted_record ..
    · rw [told, getQueue_sentWord_other hp]
    · rw [grantWord_of_none flight none]
      exact record_changes _ _ _ _ _ _ (by decide) (setQdir_changes _ _ (by decide) (sentWord_changes.mono (by decide)))
  case word =>
    have store := storeWord_word (a := a) (w := w) (u := sentWord q i rest s) (by rw [getProd_sentWord]; exact open_) item
    obtain ⟨prod, stored, other⟩ := storedWords (q := q) (i := i) (fun d => { d with openItem := !w.eoi }) (putWord (queueQuota (sentWord q i rest s) q) w) [w]
      (fun x => ⟨rfl, rfl⟩) (sentWord q i rest s)
    rw [← store, getProd_sentWord] at prod
    rw [← store, stored_sentWord] at stored
    rw [← store] at other
    exact ⟨_, exec_queueWordGrant free flight alloc pages, by rw [prod], stored, by rw [prod],
      fun p hp => (other p hp).trans (getQueue_sentWord_other hp), by
        rw [store]
        exact fixPages_changes _ _ (by decide) (modQueue_changes _ _ _ (by decide) (modProd_changes _ _ _ _ (by decide) (sentWord_changes.mono (by decide))))⟩
  case staged =>
    have store := storeWord_staged (a := a) (w := w) (u := sentWord q i rest s) (by rw [getProd_sentWord]; exact open_) item eoi
      (by rw [getProd_sentWord]; exact room)
    refine ⟨_, exec_queueWordGrant free flight alloc pages, ?_, ?_, ?_, fun p hp => ?_, ?_⟩ <;> rw [store]
    · rw [getProd_modProd, getProd_sentWord]
    · rw [getProd_modProd, getProd_sentWord]
    · rw [getQueue_modProd]; exact stored_sentWord
    · rw [getQueue_modProd_other hp, getQueue_sentWord_other hp]
    · exact modProd_changes _ _ _ _ (by decide) sentWord_changes
  case item =>
    have store := storeWord_item (a := a) (w := w) (u := sentWord q i rest s) (by rw [getProd_sentWord]; exact open_) item eoi
      (by rw [getProd_sentWord]; exact room)
    obtain ⟨prod, stored, other⟩ := storedWords (q := q) (i := i) (fun d => { d with staged := [], openItem := false })
      (fun x => ((getProd (sentWord q i rest s) q i).staged ++ [w]).foldl (fun x w => putWord (queueQuota (sentWord q i rest s) q) w x) x) _
      (fun x => stored_foldl_putWord _ _ x) (sentWord q i rest s)
    rw [← store, getProd_sentWord] at prod
    rw [← store, stored_sentWord, getProd_sentWord, ← List.append_assoc] at stored
    rw [← store] at other
    exact ⟨_, exec_queueWordGrant free flight alloc pages, by rw [prod], by rw [prod], stored,
      fun p hp => (other p hp).trans (getQueue_sentWord_other hp), by
        rw [store]
        exact fixPages_changes _ _ (by decide) (modQueue_changes _ _ _ (by decide) (modProd_changes _ _ _ _ (by decide) (sentWord_changes.mono (by decide))))⟩
  case long =>
    have store := storeWord_long (a := a) (w := w) (u := sentWord q i rest s) (by rw [getProd_sentWord]; exact open_) item
      (by rw [getProd_sentWord]; exact full)
    obtain ⟨prod, stored, discards⟩ := discardWords_effect (q := q) port ((getProd s q i).staged.length + 1) (sentWord q i rest s)
    rw [getProd_sentWord] at store prod
    have told (v : State) : getQueue (record 0x3802 (queueStall q).val a.owner (queueObject q) 0 v) q = getQueue v q :=
      (record_changes (P := [.funcs]) _ _ _ _ _ _ (by decide) (Changes.refl _ v)).getQueue q
    have prod' : getProd (storeWord q a i w (sentWord q i rest s)) q i =
        { getProd (discardWords q a i ((getProd s q i).staged.length + 1) (sentWord q i rest s)) q i with
          staged := [], openItem := false, discarding := !w.eoi } := by
      rw [store, getProd, told, ← getProd, getProd_modProd]
    refine ⟨_, exec_queueWordGrant free flight alloc pages, by rw [prod'], ?_, fun here => ?_, fun away => ?_, ?_, by rw [prod'], ?_, ?_⟩
    · rw [store, told, getQueue_modProd]
      exact stored.trans stored_sentWord
    · rw [prod', prod, if_pos (show portPresent (sentWord q i rest s) q p = true from here)]
      exact (Nat.add_assoc ..).symm
    · rw [prod', prod, if_neg (show ¬ portPresent (sentWord q i rest s) q p = true by rw [show portPresent (sentWord q i rest s) q p = false from away]; decide)]
      exact (Nat.add_assoc ..).symm
    · rw [store, told, getQueue_modProd]
      refine discards.trans ?_
      rw [sentWord, getQueue_modProd]
    · rw [store]
      exact noted_record ..
    · rw [store]
      exact record_changes _ _ _ _ _ _ (by decide) (modProd_changes _ _ _ _ (by decide) (discardWords_changes _ _ _ _ _ (by decide) (sentWord_changes.mono (by decide))))
  case credit =>
    intro s q i a p c back alloc port
    have arrives : creditReturn q i s = if portPresent s q p then
        modProd q i (fun d => { d with returning := d.returning - 1, credits := d.credits + 1 }) s
        else modProd q i (fun d => { d with returning := d.returning - 1, absent := d.absent + 1 }) s := by
      simp only [creditReturn, if_neg back, alloc, Option.bind_some, port]
    refine ⟨fun here => ?_, fun away => ?_⟩
    · rw [if_pos here] at arrives
      obtain ⟨prod, other, changes⟩ := pushed (s := s) (q := q) (i := i) fun d => { d with returning := d.returning - 1, credits := d.credits + 1 }
      exact ⟨_, congrArg Host.Outcome.next arrives, prod, by rw [getQueue_modProd], other, changes⟩
    · rw [if_neg (by simp [away])] at arrives
      exact ⟨_, congrArg Host.Outcome.next arrives, pushed _⟩
  case host =>
    intro s f q val
    refine ⟨fun a i adm port credits => ?_, fun a i adm port credits => ?_, fun a i adm port empty => ?_, fun n w rest adm ok stored => ⟨fun one free => ?_, fun held => ?_⟩⟩
    · exact ⟨_, congrArg Host.Outcome.next (hostPush_pushes adm port credits false val), pushed _⟩
    · exact ⟨_, congrArg Host.Outcome.next (hostPush_pushes adm port credits true val), pushed _⟩
    · have refused : hostPush f q .push false val s = refuseReg f (queueReg q .push) 0x1803 s :=
        hostCheck_of_code adm (by simp [pushCode, port, empty]) _
      exact ⟨_, congrArg Host.Outcome.next refused, lastCode_refuseReg .., noted_refuseReg .., refuseReg_changes _ _ _ _ (by decide) (Changes.refl _ s)⟩
    · obtain ⟨t, take, takes⟩ := hostTake_one stored
      have pops : hostPop f q n s = hostTake q 1 s := by
        rw [hostPop, hostCheck_of_admits adm ok, if_neg (by simp [free]), one]
      refine ⟨_, congrArg Host.Outcome.next (pops.trans take), ?_, ?_, ?_, ?_, ?_, ?_, fun p hp => ?_, ?_⟩
      · rw [getQueue_modQueue]; exact takes.stored
      · rw [getQueue_modQueue]
      · rw [getQueue_modQueue]
      · rw [getQueue_modQueue]
      · rw [getQueue_modQueue]; exact tabGet_tabSet ..
      · rw [getProd_modQueue _ _ rfl]; exact takes.returning
      · rw [getQueue_modQueue_other hp, takes.other p hp]
      · exact modQueue_changes _ _ _ (by decide) takes.changes
    · have waits : hostPop f q n s = modQueue q (fun x => { x with heldPops := x.heldPops ++ [n.val] }) s := by
        rw [hostPop, hostCheck_of_admits adm ok, if_pos held]
      exact ⟨_, congrArg Host.Outcome.next waits, getQueue_modQueue .., fun p hp => getQueue_modQueue_other hp _ _,
        modQueue_changes _ _ _ (by decide) (Changes.refl _ s)⟩
  case reset =>
    intro s q a alloc
    obtain ⟨stored, fault, resets, qdir, told, other⟩ := forcedReset_effect alloc
    exact ⟨_, rfl, stored, fault, resets, qdir, told, other, forcedReset_changes _ _ (by decide) (Changes.refl _ s)⟩
  case pass => exact fun s q => ⟨s, rfl, rfl⟩

end Sys2Proof.Machine
end

section
/-!
PROOFS. Words that reach queues, shots, channels, the fabric, cells and capture units (O38).
-/

namespace Sys2Proof.Machine

set_option Elab.async false

open Sys2Proof

section
variable {s : State} {r : RiderId} {w : MicroWord}

/-! ## What the action of a word finds, and how its rider goes on -/

/-- The state in which a word that runs takes its action. -/
abbrev atWord (r : RiderId) (w : MicroWord) (s : State) : State := modRider r (reached w) s

theorem getRider_atWord : getRider (atWord r w s) r = reached w (getRider s r) := getRider_modRider ..

theorem objectNum_atWord : objectNum (getRider (atWord r w s) r) w = objectNum (getRider s r) w := by rw [getRider_atWord]; rfl

theorem workReg_atWord (k : Nat) : workReg (getRider (atWord r w s) r) k = workReg (getRider s r) k := by rw [getRider_atWord]; rfl

theorem timeReg_atWord (k : Nat) : timeReg (getRider (atWord r w s) r) k = timeReg (getRider s r) k := by rw [getRider_atWord]; rfl

theorem atWord_changes {P : List Part} (hp : Part.sub [.riders] P = true) : Changes P s (atWord r w s) :=
  modRider_changes r _ s hp (Changes.refl _ s)

/-- A word whose action is done and leaves its rider at the word: what it answers, how its rider goes on, and what changes. -/
theorem execWord_answer {is : MicroWord → Bool} {P : List Part} (h : Runs s r w) (his : is w = true) (hop : Mw.op w ≠ 0x0E) (hseq : Mw.seq w = 0)
    {t : State} (hact : action r w .granted false (atWord r w s) = (t, .done)) (ha : Acted s t r w) (hc : Changes P (atWord r w s) t)
    (hp : Part.sub [.riders] P = true := by decide) :
    execWord is r {} s = nextWord r t ∧ goesOn s (nextWord r t) r w ∧ Changes P s (nextWord r t) := by
  obtain ⟨hexec, hgoes⟩ := execWord_done h his hop hseq hact ha
  exact ⟨hexec, hgoes, modRider_changes r _ t hp ((atWord_changes hp).trans hc)⟩

/-- A word whose action is done and leaves its rider such that nothing meets it at the boundary. -/
theorem execWord_next {is : MicroWord → Bool} (h : Runs s r w) (his : is w = true) (hop : Mw.op w ≠ 0x0E) (hseq : Mw.seq w = 0) {t : State}
    (hact : action r w .granted false (atWord r w s) = (t, .done)) (hs : (getRider t r).stopPending = false)
    (hl : (getStall t r.stall).life = .riding ∨ (getRider t r).shot.active = true)
    (hf : (getRider t r).inHandler = true ∨ nextFault (getRider t r).fault = none) : execWord is r {} s = nextWord r t := by
  rw [execWord_runs h his hop, hact]
  exact sequence_next hseq hs hl hf

theorem getRider_nextWord (t : State) : getRider (nextWord r t) r = goOn ((getRider t r).pc + 1) (getRider t r) := getRider_modRider ..

theorem getRider_nextWord_other {q : RiderId} (hq : q ≠ r) (t : State) : getRider (nextWord r t) q = getRider t q := getRider_modRider_other hq _ _

theorem goOn_reached {x : Rider} (h : x.state = .running) (pc : BitVec 16) : goOn pc (reached w x) = { begun w x with pc } := by
  have hs : (begun w x).state = .running := h
  rw [goOn, endWait_reached h, ← hs]

/-! ## PUSH and POP (R459, R460, R463) -/

theorem execPush_pushes (h : Runs s r w) (hseq : Mw.seq w = 0) (hop : Mw.op w = 4) {q : QueueId} {a : QueueAlloc} {i : Nat}
    (obj : q = objectNum (getRider s r) w) (free : queueHeld s q = false) (alloc : queueAlloc s q = some a)
    (port : prodIndex a (.rider r) = some i) :
    ∃ t, execWord (isOp 0x04) r {} s = t ∧
      getProd t q i = { getProd s q i with
        credits := (getProd s q i).credits - (Mw.sub w + 1)
        flight := (getProd s q i).flight ++ (List.range (Mw.sub w + 1)).map fun k =>
          { word := workReg (getRider s r) (Mw.la w + k), eoi := bit (Mw.aux w) 15 && decide (k = Mw.sub w), port := i } } ∧
      goesOn s t r w ∧ (∀ p, p ≠ q → getQueue t p = getQueue s p) ∧ Changes [.riders, .queues] s t := by
  subst obj
  have hact : action r w .granted false (atWord r w s) =
      (issueWords (objectNum (getRider s r) w) (.rider r) ((List.range (Mw.sub w + 1)).map fun k => workReg (getRider s r) (Mw.la w + k))
        (bit (Mw.aux w) 15) (atWord r w s), .done) := by
    unfold action; rw [hop]
    show actPush r w .granted (atWord r w s) = _
    have free' : queueHeld (atWord r w s) (objectNum (getRider s r) w) = false := free
    simp only [actPush, objectNum_atWord, workReg_atWord, free']
    rfl
  have issued := issueWords_of_port (s := atWord r w s) alloc port
    ((List.range (Mw.sub w + 1)).map fun k => workReg (getRider s r) (Mw.la w + k)) (bit (Mw.aux w) 15)
  rw [markedWords_range] at issued
  rw [issued] at hact
  obtain ⟨hexec, hgoes, hc⟩ := execWord_answer (P := [.riders, .queues]) h (is := isOp 0x04) (by simp [isOp, hop]) (by simp [hop]) hseq hact
    (acted_of_changes (P := [.queues]) (modProd_changes _ _ _ _ (by decide) (Changes.refl _ _)))
    (modProd_changes _ _ _ _ (by decide) (Changes.refl _ _))
  refine ⟨_, hexec, ?_, hgoes, fun p hp => getQueue_modProd_other hp _ _ _, hc⟩
  refine (getProd_modProd ..).trans ?_
  rw [List.length_map, List.length_range]
  rfl

theorem execPop_pops (h : Runs s r w) (hseq : Mw.seq w = 0) (hop : Mw.op w = 5) {q : QueueId} {qw : QWord} {rest : List QWord}
    (obj : q = objectNum (getRider s r) w) (free : queueHeld s q = false) (stored : (getQueue s q).stored = qw :: rest) :
    ∃ t, execWord (isOp 0x05) r {} s = t ∧ workReg (getRider t r) (Mw.ld w) = qw.word ∧ (getRider t r).flags.eoi = qw.eoi ∧
      (getRider t r).pc = (getRider s r).pc + 1 ∧ (getQueue t q).stored = rest ∧
      (getProd t q qw.port).returning = (getProd s q qw.port).returning + 1 ∧ (∀ p, p ≠ q → getQueue t p = getQueue s p) ∧
      (∀ p, p ≠ r → getRider t p = getRider s p) ∧ Changes [.riders, .queues, .qdir] s t := by
  subst obj
  obtain ⟨u, take, takes⟩ := takeWord_takes (s := atWord r w s) stored
  have hact : action r w .granted false (atWord r w s) =
      (modRider r (fun x => { setWork (Mw.ld w) qw.word x with flags := { x.flags with eoi := qw.eoi } }) u, .done) := by
    unfold action; rw [hop]
    show actPop r w .granted (atWord r w s) = _
    have free' : queueHeld (atWord r w s) (objectNum (getRider s r) w) = false := free
    simp only [actPop, objectNum_atWord, free', take]
    rfl
  have hx : getRider u r = reached w (getRider s r) := (takes.changes.getRider r).trans getRider_atWord
  have hstall : getStall u r.stall = getStall s r.stall := takes.changes.getStall r.stall
  have hy : getRider (modRider r (fun x => { setWork (Mw.ld w) qw.word x with flags := { x.flags with eoi := qw.eoi } }) u) r =
      { setWork (Mw.ld w) qw.word (reached w (getRider s r)) with flags := { (reached w (getRider s r)).flags with eoi := qw.eoi } } := by
    rw [getRider_modRider, hx]
  have hexec := execWord_next h (is := isOp 0x05) (by simp [isOp, hop]) (by simp [hop]) hseq hact (by rw [hy]; exact h.noStop)
    (by rw [hy]; exact h.life.imp (fun hl => hstall ▸ hl) And.right) (by rw [hy]; exact h.noFault)
  refine ⟨_, hexec, ?_, ?_, ?_, takes.stored, takes.returning, takes.other, fun p hp => ?_, ?_⟩
  · rw [getRider_nextWord, hy]
    exact workReg_setWork ..
  · rw [getRider_nextWord, hy]; rfl
  · rw [getRider_nextWord, hy]; rfl
  · rw [getRider_nextWord_other hp, getRider_modRider_other hp, takes.changes.getRider, getRider_modRider_other hp]
  · exact modRider_changes _ _ _ (by decide) (modRider_changes _ _ _ (by decide)
      ((atWord_changes (by decide)).trans (takes.changes.mono (by decide))))

/-! ## SHOT (R406, R407) -/

/-- A rider whose shot begins. -/
def shotBegun (s : State) (r : RiderId) (start : Word64) (x : Rider) : Rider :=
  { x with
    shot := { num := x.shot.num + 1, active := true, start
              pace := standingPace (getGait s r.stall).pace, spinePace := standingPace s.spine.pace }
    lastVoices := x.shot.voices, started := x.started + 1 }

theorem execShotBegin_begins (h : Runs s r w) (hseq : Mw.seq w = 0) (hop : Mw.op w = 7) (hsub : Mw.sub w = 0) (idle : (getRider s r).shot.active = false) :
    ∃ t, execWord (isSub 0x07 0) r {} s = t ∧
      getRider t r = { begun w (getRider s r) with
        pc := (getRider s r).pc + 1, started := (getRider s r).started + 1,
        shot := { num := (getRider s r).shot.num + 1, active := true, start := timeReg (getRider s r) (Mw.tn w)
                  pace := standingPace (getGait s r.stall).pace, spinePace := standingPace s.spine.pace }
        lastVoices := (getRider s r).shot.voices } ∧
      (∀ q, q ≠ r → getRider t q = getRider s q) ∧ Changes [.riders] s t := by
  have hlife : (getStall s r.stall).life = .riding := (h.shot hop).2
  have hact : action r w .granted false (atWord r w s) = (beginShot r (timeReg (getRider s r) (Mw.tn w)) (atWord r w s), .done) := by
    unfold action; rw [hop]
    show actShot r w (atWord r w s) = _
    have idle' : (getRider (atWord r w s) r).shot.active = false := by rw [getRider_atWord]; exact idle
    have ride : ¬ (getStall (atWord r w s) r.stall).life = .resting := fun hr => by
      rw [show (getStall (atWord r w s) r.stall).life = .riding from hlife] at hr; cases hr
    simp only [actShot, hsub, if_true, idle', Bool.false_eq_true, if_false, if_neg ride, timeReg_atWord]
  have hb : getRider (beginShot r (timeReg (getRider s r) (Mw.tn w)) (atWord r w s)) r =
      shotBegun s r (timeReg (getRider s r) (Mw.tn w)) (reached w (getRider s r)) := (getRider_modRider ..).trans (by rw [getRider_atWord]; rfl)
  have hexec := execWord_next h (is := isSub 0x07 0) (by simp [isSub, hop, hsub]) (by simp [hop]) hseq hact (by rw [hb]; exact h.noStop)
    (.inl hlife) (by rw [hb]; exact h.noFault)
  refine ⟨_, hexec, ?_, fun q hq => ?_, ?_⟩
  · rw [getRider_nextWord, hb]
    exact congrArg (shotBegun s r (timeReg (getRider s r) (Mw.tn w))) (goOn_reached h.running ((getRider s r).pc + 1))
  · rw [getRider_nextWord_other hq, beginShot, getRider_modRider_other hq, getRider_modRider_other hq]
  · exact modRider_changes _ _ _ (by decide) (beginShot_changes _ _ _ (by decide) (atWord_changes (by decide)))

theorem life_endShot (ab : Bool) (e : Word64) (u : State) : (getStall (endShot r ab e u) r.stall).life = (getStall u r.stall).life := by
  have hw (v : State) : getStall (writeShot r ab e v) r.stall = getStall v r.stall :=
    (writeShot_changes (P := [.funcs, .riders, .queues]) _ _ _ v (by decide) (Changes.refl _ v)).getStall r.stall
  cases h : (getRider u r).shot.active with
  | false => rw [endShot_of_idle h]
  | true =>
    rw [endShot_of_active h, countDrain, getStall_modStall]
    split
    · exact congrArg (·.life) (hw u)
    · exact congrArg (·.life) (hw u)

/-- A shot that completes counts at the stall's feed. -/
theorem done_endShot {u : State} (h : (getRider u r).shot.active = true) (e : Word64) :
    (tabGet {} (getFeed (endShot r false e u) r.stall.val).totals (riderOwner u r).val).done =
      (tabGet {} (getFeed u r.stall.val).totals (riderOwner u r).val).done + 1 := by
  have hw : getFeed (modRider r (shotEnded false) (writeShot r false e u)) r.stall.val = getFeed u r.stall.val :=
    (writeShot_changes (P := [.funcs, .riders, .queues]) _ _ _ u (by decide) (Changes.refl _ u)).getFeed r.stall.val
  rw [endShot_of_active h, (countDrain_changes (P := [.stalls]) _ _ _ (by decide) (Changes.refl _ _)).getFeed, feedShot, getFeed_modFeed,
    tabGet_tabMod, hw]
  rfl

theorem execShotEnd_ends (h : Runs s r w) (hseq : Mw.seq w = 0) (hop : Mw.op w = 7) (hsub : Mw.sub w = 1) (active : (getRider s r).shot.active = true) :
    ∃ t, execWord (isSub 0x07 1) r {} s = t ∧ (getRider t r).shot.active = false ∧ (getRider t r).completed = (getRider s r).completed + 1 ∧
      (getRider t r).aborted = (getRider s r).aborted ∧ (getRider t r).pc = (getRider s r).pc + 1 ∧
      (tabGet {} (getFeed t r.stall.val).totals (riderOwner s r).val).done =
        (tabGet {} (getFeed s r.stall.val).totals (riderOwner s r).val).done + 1 ∧
      (∀ q, q ≠ r → getRider t q = getRider s q) ∧ Changes [.funcs, .stalls, .riders, .queues, .feeds] s t := by
  have active' : (getRider (atWord r w s) r).shot.active = true := by rw [getRider_atWord]; exact active
  have hact : action r w .granted false (atWord r w s) = (endShot r false (timeReg (getRider s r) (Mw.tn w)) (atWord r w s), .done) := by
    unfold action; rw [hop]
    show actShot r w (atWord r w s) = _
    simp only [actShot, hsub, Nat.one_ne_zero, if_false, active', if_true, timeReg_atWord]
  have hy := getRider_endShot_of_active active' false (timeReg (getRider s r) (Mw.tn w))
  rw [getRider_atWord] at hy
  have hexec := execWord_next h (is := isSub 0x07 1) (by simp [isSub, hop, hsub]) (by simp [hop]) hseq hact (by rw [hy]; exact h.noStop)
    (.inl ((life_endShot ..).trans (h.shot hop).2)) (by rw [hy]; exact h.noFault)
  refine ⟨_, hexec, ?_, ?_, ?_, ?_, ?_, fun q hq => ?_, ?_⟩
  · rw [getRider_nextWord, hy]; rfl
  · rw [getRider_nextWord, hy]; rfl
  · rw [getRider_nextWord, hy]; rfl
  · rw [getRider_nextWord, hy]; rfl
  · exact done_endShot active' _
  · rw [getRider_nextWord_other hq, getRider_endShot_other hq, getRider_modRider_other hq]
  · exact modRider_changes _ _ _ (by decide) (endShot_changes _ _ _ _ (by decide) (atWord_changes (by decide)))

/-! ## OPEN (R258 to R261) -/

/-- An OPEN counts a contention where the channel's window is open. -/
theorem getChan_countOpen {c : ChanId} {u : State} (latch : (getChan u c).latch = none) :
    (getChan (countOpen c u) c).win = (getChan u c).win ∧
    (getChan (countOpen c u) c).contend = if (getChan u c).win.isSome then satInc (getChan u c).contend else (getChan u c).contend := by
  by_cases hw : (getChan u c).win.isSome = true <;> simp [countOpen, latch, hw]

theorem openFrame_of_win {c : ChanId} {u v : State} (clock : v.clock = u.clock) (win : (getChan v c).win = (getChan u c).win) (fr : Nat) :
    openFrame v c fr = openFrame u c fr := by
  simp only [openFrame, openInTime, frameNow, clock, win]
  rfl

/-- What a granted open leaves of its rider (R260, R386). -/
def anchored (c : ChanId) (last : Nat) (x : Rider) : Rider :=
  { x with lastAnchor := schedOfFine (last * fineFrame)
           shot := if x.shot.active then { x.shot with chans := chanKey c :: x.shot.chans.filter (· ≠ chanKey c) } else x.shot }

theorem active_anchored (c : ChanId) (last : Nat) (x : Rider) : (anchored c last x).shot.active = x.shot.active := by
  simp only [anchored]; split <;> rfl

theorem grantOpen_grants (r : RiderId) (c : ChanId) (start len : Nat) (u : State) : ∃ q : OpenReq,
    grantOpen r c start len u = modRider r (anchored c (openFrame u c start + len)) (modChan c (fun x => { x with latch := some q }) u) ∧
    q.start = openFrame u c start ∧ q.len = len ∧ q.rider = r.num.val :=
  ⟨_, rfl, rfl, rfl, rfl⟩

theorem action_open (hop : Mw.op w = 0x11) {c : ChanId} {len : Nat} (obj : c = objChan r.stall (objectNum (getRider s r) w))
    (hlen : len = (Mw.arg w).toNat % 4096 + 1) (ok : openCode s r c len = none) (latch : (getChan s c).latch = none) :
    action r w .granted false (atWord r w s) =
      (grantOpen r c (bits (timeReg (getRider s r) (Mw.tn w)) 11 53 : BitVec 53).toNat len (countOpen c (atWord r w s)), .done) := by
  subst obj hlen
  have latch' : (getChan (atWord r w s) (objChan r.stall (objectNum (getRider s r) w))).latch = none := latch
  have ok' : openCode (atWord r w s) r (objChan r.stall (objectNum (getRider s r) w)) ((Mw.arg w).toNat % 4096 + 1) = none := ok
  unfold action; rw [hop]
  show actOpen r w .granted false (atWord r w s) = _
  simp only [actOpen, objectNum_atWord, timeReg_atWord, ok', openHeld, latch']
  rfl

theorem execOpen_opens (h : Runs s r w) (hseq : Mw.seq w = 0) (hop : Mw.op w = 0x11) {c : ChanId} {len fr : Nat}
    (obj : c = objChan r.stall (objectNum (getRider s r) w)) (hlen : len = (Mw.arg w).toNat % 4096 + 1) (ok : openCode s r c len = none)
    (latch : (getChan s c).latch = none) (hfr : fr = openFrame s c (bits (timeReg (getRider s r) (Mw.tn w)) 11 53 : BitVec 53).toNat) :
    ∃ t q, execWord (isOp 0x11) r {} s = t ∧ (getChan t c).latch = some q ∧ q.start = fr ∧ q.len = len ∧ q.rider = r.num.val ∧
      (getRider t r).lastAnchor = schedOfFine ((fr + len) * fineFrame) ∧
      (getChan t c).contend = (if (getChan s c).win.isSome then satInc (getChan s c).contend else (getChan s c).contend) ∧
      goesOn s t r w ∧ (∀ d, d ≠ c → getChan t d = getChan s d) ∧ Changes [.chans, .riders] s t := by
  have counted := countOpen_changes (P := [.chans]) c (atWord r w s) (by decide) (Changes.refl _ _)
  obtain ⟨win, contend⟩ := getChan_countOpen (c := c) (u := atWord r w s) latch
  have hframe : openFrame (countOpen c (atWord r w s)) c (bits (timeReg (getRider s r) (Mw.tn w)) 11 53 : BitVec 53).toNat = fr :=
    (openFrame_of_win (u := s) counted.clock win _).trans hfr.symm
  obtain ⟨q, grant, start, qlen, rider⟩ := grantOpen_grants r c (bits (timeReg (getRider s r) (Mw.tn w)) 11 53 : BitVec 53).toNat len
    (countOpen c (atWord r w s))
  rw [hframe] at grant start
  have hact := action_open hop obj hlen ok latch
  rw [grant] at hact
  have hx : getRider (modRider r (anchored c (fr + len)) (modChan c (fun x => { x with latch := some q }) (countOpen c (atWord r w s)))) r =
      anchored c (fr + len) (reached w (getRider s r)) := by
    rw [getRider_modRider]
    exact congrArg _ ((counted.getRider r).trans getRider_atWord)
  have acted : Acted s (modRider r (anchored c (fr + len)) (modChan c (fun x => { x with latch := some q }) (countOpen c (atWord r w s)))) r w := by
    refine ⟨by rw [hx]; rfl, by rw [hx, active_anchored]; rfl, fun p hp => ?_, congrArg (·.life) (counted.getStall r.stall)⟩
    rw [getRider_modRider_other hp]
    exact (counted.getRider p).trans (getRider_modRider_other hp _ _)
  obtain ⟨hexec, hgoes, hc⟩ := execWord_answer (P := [.chans, .riders]) h (is := isOp 0x11) (by simp [isOp, hop]) (by simp [hop]) hseq hact acted
    (modRider_changes _ _ _ (by decide) (modChan_changes _ _ _ (by decide) (counted.mono (by decide))))
  have chan (f : Rider → Rider) (v : State) (d : ChanId) : getChan (nextWord r (modRider r f v)) d = getChan v d := rfl
  refine ⟨_, q, hexec, by rw [chan, getChan_modChan], start, qlen, rider, ?_, ?_, hgoes, fun d hd => ?_, hc⟩
  · rw [getRider_nextWord, hx]; rfl
  · rw [chan, getChan_modChan]
    exact contend
  · rw [chan, getChan_modChan_other hd]
    unfold countOpen
    dsimp only
    split
    · exact getChan_modChan_other hd _ _
    · rfl

/-! ## EMIT (R328, R330, R397) -/

/-- The copy of a token that a node sends to a consumer. -/
def copyOf (tok : Token) (n : StallId) (port : Nat) (d : Consumer) : Flight :=
  { tok, src := .node n, port, dst := d, stage := if consumerPlace d = .node n then .local_ else .hubLink }

theorem startCopy_of_node (tok : Token) (n : StallId) (port : Nat) (d : Consumer) (u : State) :
    startCopy tok (.node n) port d u = addFlight (copyOf tok n port d) (modBook tok.chan (fun b => { b with issued := b.issued + 1 }) u) := by
  simp only [startCopy, copyOf]
  split <;> rfl

/-- The copies of a token: each consumer's one is on its way, and each counts as issued. -/
theorem forEach_startCopy (tok : Token) (n : StallId) (port : Nat) (l : List Consumer) (u : State) :
    (getBook (forEach l (startCopy tok (.node n) port) u) tok.chan).issued = (getBook u tok.chan).issued + l.length ∧
    (∀ i, i < u.nextFlight → tabFind i (forEach l (startCopy tok (.node n) port) u).flights = tabFind i u.flights) ∧
    ∀ d ∈ l, ∃ i, tabFind i (forEach l (startCopy tok (.node n) port) u).flights = some (copyOf tok n port d) := by
  induction l generalizing u with
  | nil => exact ⟨rfl, fun _ _ => rfl, fun d hd => absurd hd (List.not_mem_nil)⟩
  | cons d l ih =>
    obtain ⟨issued, kept, copies⟩ := ih (startCopy tok (.node n) port d u)
    have one := startCopy_of_node tok n port d u
    have next : (startCopy tok (.node n) port d u).nextFlight = u.nextFlight + 1 := by rw [one]; rfl
    have flights : (startCopy tok (.node n) port d u).flights = tabSet u.flights u.nextFlight (copyOf tok n port d) := by rw [one]; rfl
    have book : (getBook (startCopy tok (.node n) port d u) tok.chan).issued = (getBook u tok.chan).issued + 1 := by
      have here (v : State) : getBook (addFlight (copyOf tok n port d) v) tok.chan = getBook v tok.chan := rfl
      rw [one, here, getBook_modBook]
    rw [next] at kept
    refine ⟨issued.trans (by rw [book, List.length_cons]; omega), fun i hi => ?_, fun e he => ?_⟩
    · rw [show forEach (d :: l) (startCopy tok (.node n) port) u = forEach l (startCopy tok (.node n) port) (startCopy tok (.node n) port d u) from rfl,
        kept i (by omega), flights, tabFind_tabSet_ne _ _ (by omega)]
    · rcases List.mem_cons.mp he with rfl | he
      · exact ⟨u.nextFlight, (kept _ (by omega)).trans (by rw [flights, tabFind_tabSet])⟩
      · exact copies e he

theorem nodeActive_of_runs (h : Runs s r w) : nodeActive s r.stall = true := by
  rcases h.life with hl | ⟨hl, -⟩ <;> simp [nodeActive, hl]

/-- A token that a rider issues where no audit holds its channel. -/
theorem issueToken_issues (h : Runs s r w) {tok : Token} (free : chanHeld s tok.chan = false) (port : Nat) :
    (getBook (issueToken (.node r.stall) port tok (atWord r w s)) tok.chan).issued = (getBook s tok.chan).issued + (consumersOf s tok.chan).length ∧
    (∀ d ∈ consumersOf s tok.chan, ∃ i,
      tabFind i (issueToken (.node r.stall) port tok (atWord r w s)).flights = some (copyOf tok r.stall port d)) ∧
    Changes [.books, .flights, .nextFlight] (atWord r w s) (issueToken (.node r.stall) port tok (atWord r w s)) := by
  have active : nodeActive (atWord r w s) r.stall = true := (nodeActive_of_runs h : nodeActive s r.stall = true)
  have free' : chanHeld (atWord r w s) tok.chan = false := free
  have enters : issueToken (.node r.stall) port tok (atWord r w s) =
      forEach (consumersOf s tok.chan) (startCopy tok (.node r.stall) port) (atWord r w s) := by
    simp only [issueToken, active, free', Bool.not_true, Bool.false_eq_true, if_false]
    rfl
  obtain ⟨issued, -, copies⟩ := forEach_startCopy tok r.stall port (consumersOf s tok.chan) (atWord r w s)
  rw [enters]
  refine ⟨issued, copies, forEach_changes _ _ _ (fun d u hu => ?_) (Changes.refl _ _)⟩
  rw [startCopy_of_node]
  exact addFlight_changes _ _ (by decide) (modBook_changes _ _ _ (by decide) hu)

/-- The operand of an EMIT (R397). -/
def emitOperand (w : MicroWord) (x : Rider) : Word := if Mw.sub w = 0 then Mw.immLo w else workReg x (Mw.la w)

theorem action_emit (hop : Mw.op w = 0x12) {hops : BitVec 3} (hhops : hops = if Mw.sub w = 1 then bits (emitOperand w (getRider s r)) 3 3 else 0) :
    action r w .granted false (atWord r w s) =
      if Mw.sub w = 1 ∧ hops = 7 then
        (loopDrop (.node r.stall) (objRein (objectNum (getRider s r) w))
          (modBook (objRein (objectNum (getRider s r) w)) (fun b => { b with issued := b.issued + 1 }) (atWord r w s)), .done)
      else (issueToken (.node r.stall) (0x200 + r.num.val)
        { chan := objRein (objectNum (getRider s r) w), kind := .emission, hop := if Mw.sub w = 1 then hops + 1 else 0
          inv := bit (emitOperand w (getRider s r)) 2, value := bits (emitOperand w (getRider s r)) 0 2 } (atWord r w s), .done) := by
  subst hhops
  unfold action; rw [hop]
  show actEmit r w (atWord r w s) = _
  simp only [actEmit, objectNum_atWord, workReg_atWord, emitOperand] <;> rfl

/-- A word that issues a token: each consumer's copy is on its way, and its rider goes on. -/
theorem execWord_issues {is : MicroWord → Bool} (h : Runs s r w) (his : is w = true) (hseq : Mw.seq w = 0) (hop : Mw.op w = 0x12)
    {e : ReinChan} {tok : Token} (chan : tok.chan = e) (free : chanHeld s e = false)
    (hact : action r w .granted false (atWord r w s) = (issueToken (.node r.stall) (0x200 + r.num.val) tok (atWord r w s), .done)) :
    ∃ t, execWord is r {} s = t ∧ (getBook t e).issued = (getBook s e).issued + (consumersOf s e).length ∧
      (∀ d ∈ consumersOf s e, ∃ i, tabFind i t.flights = some {
        tok, src := .node r.stall, port := 0x200 + r.num.val, dst := d, stage := if consumerPlace d = .node r.stall then .local_ else .hubLink }) ∧
      goesOn s t r w ∧ Changes [.books, .flights, .nextFlight, .riders] s t := by
  subst chan
  obtain ⟨issued, copies, changes⟩ := issueToken_issues h free (0x200 + r.num.val)
  obtain ⟨hexec, hgoes, hc⟩ := execWord_answer (P := [.books, .flights, .nextFlight, .riders]) h his (by simp [hop]) hseq hact
    (acted_of_changes changes) (changes.mono (by decide))
  exact ⟨_, hexec, issued, copies, hgoes, hc⟩

/-- A relayed token that has made its last hop is dropped, counted and told (R332). -/
theorem execRelay_drops (h : Runs s r w) (hseq : Mw.seq w = 0) (hop : Mw.op w = 0x12) (hsub : Mw.sub w = 1) {e : ReinChan}
    (obj : e = objRein (objectNum (getRider s r) w)) (limit : bits (emitOperand w (getRider s r)) 3 3 = (7 : BitVec 3)) :
    ∃ t, execWord (isSub 0x12 1) r {} s = t ∧ (getBook t e).issued = (getBook s e).issued + 1 ∧ (getBook t e).loop = (getBook s e).loop + 1 ∧
      noted t 0 0x3641 = true ∧ goesOn s t r w ∧ Changes [.funcs, .nodes, .books, .riders] s t := by
  have hact := action_emit (s := s) (r := r) (hops := 7) hop (by rw [hsub]; exact limit.symm)
  rw [if_pos ⟨hsub, rfl⟩, ← obj] at hact
  have changes := loopDrop_changes (P := [.funcs, .nodes, .books, .hub]) (.node r.stall) e _ (by decide)
    (modBook_changes e (fun b => { b with issued := b.issued + 1 }) (atWord r w s) (by decide) (Changes.refl _ _))
  have drop (u : State) : loopDrop (.node r.stall) e u =
      record 0x3641 r.stall.val (chanAttr u e).owner (reinObject e) 0
        (modNode r.stall (fun x => { x with loop := satInc x.loop }) (modBook e (fun b => { b with loop := b.loop + 1 }) u)) := rfl
  have changes' : Changes [.funcs, .nodes, .books] (atWord r w s)
      (loopDrop (.node r.stall) e (modBook e (fun b => { b with issued := b.issued + 1 }) (atWord r w s))) := by
    rw [drop]
    exact record_changes _ _ _ _ _ _ (by decide) (modNode_changes _ _ _ (by decide) (modBook_changes _ _ _ (by decide)
      (modBook_changes _ _ _ (by decide) (Changes.refl _ _))))
  have book : getBook (loopDrop (.node r.stall) e (modBook e (fun b => { b with issued := b.issued + 1 }) (atWord r w s))) e =
      { getBook s e with issued := (getBook s e).issued + 1, loop := (getBook s e).loop + 1 } := by
    have here (u : State) : getBook (modNode r.stall (fun x => { x with loop := satInc x.loop }) u) e = getBook u e := rfl
    rw [drop, (record_changes (P := [.funcs]) _ _ _ _ _ _ (by decide) (Changes.refl _ _)).getBook, here, getBook_modBook, getBook_modBook]
    rfl
  obtain ⟨hexec, hgoes, hc⟩ := execWord_answer (P := [.funcs, .nodes, .books, .riders]) h (is := isSub 0x12 1) (by simp [isSub, hop, hsub])
    (by simp [hop]) hseq hact (acted_of_changes changes') (changes'.mono (by decide))
  have back (u : State) : getBook (nextWord r u) e = getBook u e := rfl
  refine ⟨_, hexec, by rw [back, book], by rw [back, book], ?_, hgoes, hc⟩
  have told (u : State) : noted (nextWord r u) 0 0x3641 = noted u 0 0x3641 := rfl
  rw [told, drop]
  exact noted_record ..

/-! ## FF (R349) -/

theorem action_flipFlop (hop : Mw.op w = 0x13) (u : State) : action r w .granted false u = actFlipFlop r w .granted u := by
  unfold action; rw [hop]; rfl

theorem execFfSet_sets (h : Runs s r w) (hseq : Mw.seq w = 0) (hop : Mw.op w = 0x13) (hsub : Mw.sub w = 0) {c : CellId}
    (obj : c = objCell r.stall (objectNum (getRider s r) w)) (ok : flipFlopCode s c = none) :
    ∃ t, execWord (isSub 0x13 0) r {} s = t ∧
      getCell t c = { getCell s c with ffValue := bits (Mw.immLo w) 0 2, ffInv := bit (Mw.immLo w) 2 } ∧ goesOn s t r w ∧
      (∀ d, d ≠ c → getCell t d = getCell s d) ∧ Changes [.cells, .riders] s t := by
  subst obj
  have hact : action r w .granted false (atWord r w s) =
      (setFlipFlopOf (objCell r.stall (objectNum (getRider s r) w)) (bits (Mw.immLo w) 0 2) (bit (Mw.immLo w) 2) (atWord r w s), .done) := by
    have ok' : flipFlopCode (atWord r w s) (objCell r.stall (objectNum (getRider s r) w)) = none := ok
    simp only [action_flipFlop hop, actFlipFlop, hsub, objectNum_atWord, ok']
    rfl
  have changes := setFlipFlopOf_changes (P := [.cells]) (objCell r.stall (objectNum (getRider s r) w)) (bits (Mw.immLo w) 0 2) (bit (Mw.immLo w) 2)
    (atWord r w s) (by decide) (Changes.refl _ _)
  obtain ⟨hexec, hgoes, hc⟩ := execWord_answer (P := [.cells, .riders]) h (is := isSub 0x13 0) (by simp [isSub, hop, hsub]) (by simp [hop]) hseq hact
    (acted_of_changes changes) (changes.mono (by decide))
  have back (u : State) (d : CellId) : getCell (nextWord r u) d = getCell u d := rfl
  refine ⟨_, hexec, ?_, hgoes, fun d hd => ?_, hc⟩
  · rw [back, setFlipFlopOf, getCell_modCell]
    rfl
  · rw [back, setFlipFlopOf, getCell_modCell_other hd]
    rfl

/-- One entry of the cells of a node, as FF_CLEAR reads it. -/
def clearEntry (n : StallId) (o : Owner) (e : Nat × CellImage) (s : State) : State :=
  match fin? 256 e.1 with
  | some b => if e.2.ffEn ∧ e.2.owner = o then setFlipFlopOf (.node n b) 0 false s else s
  | none => s

/-- A flip-flop is clear. -/
def Cleared (c : CellId) (s : State) : Prop := (getCell s c).ffValue = 0 ∧ (getCell s c).ffInv = false

theorem cleared_setFlipFlopOf (c d : CellId) {u : State} (h : c = d ∨ Cleared c u) : Cleared c (setFlipFlopOf d 0 false u) := by
  by_cases hd : c = d
  · subst hd
    simp [Cleared, setFlipFlopOf]
  · rw [Cleared, setFlipFlopOf, getCell_modCell_other hd]
    exact h.resolve_left hd

theorem cleared_clearEntry (n : StallId) (o : Owner) (e : Nat × CellImage) (c : CellId) {u : State} (h : Cleared c u) :
    Cleared c (clearEntry n o e u) := by
  unfold clearEntry
  split
  · split
    · exact cleared_setFlipFlopOf _ _ (.inr h)
    · exact h
  · exact h

/-- Each listed flip-flop of the owner is clear in the end. -/
theorem cleared_forEach {n : StallId} {o : Owner} {b : Fin 256} {i : CellImage} (en : i.ffEn = true) (owner : i.owner = o)
    (l : List (Nat × CellImage)) (u : State) (listed : (b.val, i) ∈ l) : Cleared (.node n b) (forEach l (clearEntry n o) u) := by
  have hb : fin? 256 b.val = some b := by simp [fin?]
  induction l generalizing u with
  | nil => exact absurd listed List.not_mem_nil
  | cons e l ih =>
    rw [show forEach (e :: l) (clearEntry n o) u = forEach l (clearEntry n o) (clearEntry n o e u) from rfl]
    rcases List.mem_cons.mp listed with rfl | listed
    · refine forEach_keep (clearEntry n o) (Cleared (.node n b)) (fun e u hu => cleared_clearEntry n o e _ hu) l _ ?_
      simp only [clearEntry, hb, en, owner, and_self, if_true]
      exact cleared_setFlipFlopOf _ _ (.inl rfl)
    · exact ih _ listed

theorem execFfClear_clears (h : Runs s r w) (hseq : Mw.seq w = 0) (hop : Mw.op w = 0x13) (hsub : Mw.sub w = 1) :
    ∃ t, execWord (isSub 0x13 1) r {} s = t ∧
      (∀ (b : Fin 256) (i : CellImage), (b.val, i) ∈ (imageOf s r.stall).node.cells → i.ffEn = true → i.owner = riderOwner s r →
        (getCell t (.node r.stall b)).ffValue = 0 ∧ (getCell t (.node r.stall b)).ffInv = false) ∧
      goesOn s t r w ∧ Changes [.cells, .riders] s t := by
  have hact : action r w .granted false (atWord r w s) = (clearFlipFlopsOf r.stall (riderOwner s r) (atWord r w s), .done) := by
    simp only [action_flipFlop hop, actFlipFlop, hsub]
    rfl
  have changes := clearFlipFlopsOf_changes (P := [.cells]) r.stall (riderOwner s r) (atWord r w s) (by decide) (Changes.refl _ _)
  obtain ⟨hexec, hgoes, hc⟩ := execWord_answer (P := [.cells, .riders]) h (is := isSub 0x13 1) (by simp [isSub, hop, hsub]) (by simp [hop]) hseq hact
    (acted_of_changes changes) (changes.mono (by decide))
  refine ⟨_, hexec, fun b i hmem en owner => ?_, hgoes, hc⟩
  have back (u : State) (d : CellId) : getCell (nextWord r u) d = getCell u d := rfl
  rw [back]
  exact cleared_forEach en owner (imageOf s r.stall).node.cells (atWord r w s) hmem

/-! ## CTRIG (R304, R404) -/

theorem action_ctrig (hop : Mw.op w = 0x14) {k : UnitId} {fr : Nat} (obj : k = objUnit r.stall (objectNum (getRider s r) w))
    (src : (getUnit s k).arm.trigSrc = 5) (owner : (getUnit s k).owner = some (riderOwner s r)) (armed : (getUnit s k).armed = true)
    (hfr : fr = (bits (timeReg (getRider s r) (Mw.tn w)) 11 53 : BitVec 53).toNat) :
    action r w .granted false (atWord r w s) = (trigger k { frame := fr } (atWord r w s), .done) := by
  subst obj hfr
  have same (u : UnitId) : getUnit (atWord r w s) u = getUnit s u := rfl
  have own : riderOwner (atWord r w s) r = riderOwner s r := rfl
  unfold action; rw [hop]
  show actCtrig r w (atWord r w s) = _
  simp only [actCtrig, objectNum_atWord, timeReg_atWord, same, own]
  rw [if_pos ⟨armed, src, owner⟩]

theorem ctrigClauses (h : Runs s r w) (hseq : Mw.seq w = 0) (hop : Mw.op w = 0x14) {k : UnitId} {fr : Nat}
    (hact : action r w .granted false (atWord r w s) = (trigger k { frame := fr } (atWord r w s), .done)) (armed : (getUnit s k).armed = true) :
    (s.clock.sched < fr * fineFrame →
      ∃ t, execWord (isOp 0x14) r {} s = t ∧
        getUnit t k = { getUnit s k with waiting := insertTrigger { frame := fr } (getUnit s k).waiting } ∧ goesOn s t r w ∧
        (∀ j, j ≠ k → getUnit t j = getUnit s j) ∧ Changes [.units, .riders] s t) ∧
    (fr * fineFrame ≤ s.clock.sched → takesTrigger (getUnit s k) { frame := fr } = true →
      ∃ t p, execWord (isOp 0x14) r {} s = t ∧ (getUnit t k).record = some p ∧ p.trigFrame = fr ∧ goesOn s t r w ∧
        (∀ j, j ≠ k → getUnit t j = getUnit s j) ∧ Changes [.funcs, .units, .riders] s t) := by
  have back (u : State) (j : UnitId) : getUnit (nextWord r u) j = getUnit u j := rfl
  refine ⟨fun future => ?_, fun due takes => ?_⟩
  · have waits : trigger k { frame := fr } (atWord r w s) =
        modUnit k (fun x => if x.armed then { x with waiting := insertTrigger { frame := fr } x.waiting } else x) (atWord r w s) := if_pos future
    rw [waits] at hact
    have changes := modUnit_changes (P := [.units]) k (fun x => if x.armed then { x with waiting := insertTrigger { frame := fr } x.waiting } else x)
      (atWord r w s) (by decide) (Changes.refl _ _)
    obtain ⟨hexec, hgoes, hc⟩ := execWord_answer (P := [.units, .riders]) h (is := isOp 0x14) (by simp [isOp, hop]) (by simp [hop]) hseq hact
      (acted_of_changes changes) (changes.mono (by decide))
    refine ⟨_, hexec, ?_, hgoes, fun j hj => ?_, hc⟩
    · rw [back, getUnit_modUnit]
      exact if_pos armed
    · rw [back, getUnit_modUnit_other hj]
      rfl
  · have judged : trigger k { frame := fr } (atWord r w s) = judgeTrigger k { frame := fr } (atWord r w s) :=
      trigger_of_due (t := { frame := fr }) (s := atWord r w s) due k
    rw [judged] at hact
    have starts := judgeTrigger_starts (u := k) (s := atWord r w s) takes
    obtain ⟨p, record, frame, -⟩ := starts.record
    obtain ⟨hexec, hgoes, hc⟩ := execWord_answer (P := [.funcs, .units, .riders]) h (is := isOp 0x14) (by simp [isOp, hop]) (by simp [hop]) hseq hact
      (acted_of_changes starts.changes) (starts.changes.mono (by decide))
    exact ⟨_, p, hexec, record, frame, hgoes, starts.other, hc⟩

end

/-- Settles O38: each word that runs reaches the one unit that it names, and its rider goes on.  That an open ahead of its frame stands in the latch (log
entry 55), that a relay at the hop limit issues one copy (log entry 82) and that FF gives no token to joined readers (log entry 191) are the model's choices. -/
theorem riderWordsReachOtherUnits : Obligations.RiderWordsReachOtherUnits := by
  intro s r w u hrun hseq
  obtain ⟨rfl, h⟩ := runs_of_wordRuns hrun
  refine ⟨fun q a i obj free => ⟨fun hop alloc port => ?push, fun qw rest hop stored => ?pop⟩, fun hop hsub idle => ?shotBegin, fun hop hsub active => ?shotEnd,
    fun c len fr hop obj hlen ok latch hfr => ?open_, fun e a tok obj free hop ha => ⟨fun hsub htok => ?emit, fun hsub hhop htok => ?relay, fun hsub hhop => ?loop⟩,
    fun c hop hsub obj ok => ?ffSet, fun hop hsub => ?ffClear, fun k fr hop obj src owner armed hfr => ?ctrig⟩
  case push =>
    obtain ⟨t, ht, facts⟩ := execPush_pushes h hseq hop obj free alloc port
    exact ⟨t, congrArg Host.Outcome.next ht, facts⟩
  case pop =>
    obtain ⟨t, ht, facts⟩ := execPop_pops h hseq hop obj free stored
    exact ⟨t, congrArg Host.Outcome.next ht, facts⟩
  case shotBegin =>
    obtain ⟨t, ht, facts⟩ := execShotBegin_begins h hseq hop hsub idle
    exact ⟨t, congrArg Host.Outcome.next ht, facts⟩
  case shotEnd =>
    obtain ⟨t, ht, facts⟩ := execShotEnd_ends h hseq hop hsub active
    exact ⟨t, congrArg Host.Outcome.next ht, facts⟩
  case open_ =>
    obtain ⟨t, q, ht, facts⟩ := execOpen_opens h hseq hop obj hlen ok latch hfr
    exact ⟨t, q, congrArg Host.Outcome.next ht, facts⟩
  case emit =>
    have hne : Mw.sub w ≠ 1 := by omega
    have hact := action_emit (s := s) (r := r) (w := w) hop rfl
    simp only [hne, false_and, if_false] at hact
    subst obj ha htok
    obtain ⟨t, ht, facts⟩ := execWord_issues h (is := fun w => isSub 0x12 0 w || isSub 0x12 2 w)
      (by rcases hsub with hsub | hsub <;> simp [isSub, hop, hsub]) hseq hop rfl free hact
    exact ⟨t, congrArg Host.Outcome.next ht, facts⟩
  case relay =>
    subst obj ha htok
    have hact := action_emit (s := s) (r := r) (w := w) hop rfl
    simp only [hsub, if_true, true_and] at hact
    have hne : bits (emitOperand w (getRider s r)) 3 3 ≠ (7 : BitVec 3) := hhop
    rw [if_neg hne] at hact
    obtain ⟨t, ht, facts⟩ := execWord_issues h (is := isSub 0x12 1) (by simp [isSub, hop, hsub]) hseq hop rfl free hact
    exact ⟨t, congrArg Host.Outcome.next ht, facts⟩
  case loop =>
    obtain ⟨t, ht, facts⟩ := execRelay_drops h hseq hop hsub obj (by rw [emitOperand, ← ha]; exact hhop)
    exact ⟨t, congrArg Host.Outcome.next ht, facts⟩
  case ffSet =>
    obtain ⟨t, ht, facts⟩ := execFfSet_sets h hseq hop hsub obj ok
    exact ⟨t, congrArg Host.Outcome.next ht, facts⟩
  case ffClear =>
    obtain ⟨t, ht, facts⟩ := execFfClear_clears h hseq hop hsub
    exact ⟨t, congrArg Host.Outcome.next ht, facts⟩
  case ctrig =>
    obtain ⟨waits, starts⟩ := ctrigClauses h hseq hop (action_ctrig hop obj src owner armed hfr) armed
    refine ⟨fun future => ?_, fun due takes => ?_⟩
    · obtain ⟨t, ht, facts⟩ := waits future
      exact ⟨t, congrArg Host.Outcome.next ht, facts⟩
    · obtain ⟨t, p, ht, facts⟩ := starts due takes
      exact ⟨t, p, congrArg Host.Outcome.next ht, facts⟩

end Sys2Proof.Machine
end

section
/-!
PROOFS. Posts of a rider to voices and lines (O39).
-/

namespace Sys2Proof.Machine

set_option Elab.async false

open Sys2Proof

section
variable {s : State} {r : RiderId} {w : MicroWord}

/-! ## What a post leaves of its rider (R279, R449) -/

/-- A change of what the rider's shot gathers. -/
def gathers (f : Rider → Rider) : Prop := ∀ x, ∃ sh : Shot, f x = { x with shot := sh } ∧ sh.active = x.shot.active

theorem Acted.gather {u : State} (ha : Acted s u r w) {f : Rider → Rider} (hf : gathers f) : Acted s (modRider r f u) r w := by
  obtain ⟨sh, hsh, hactive⟩ := hf (getRider u r)
  refine ⟨?_, ?_, fun q hq => (getRider_modRider_other hq _ _).trans (ha.others q hq), ha.life⟩
  · rw [getRider_modRider, hsh]
    exact congrArg (fun y : Rider => { y with shot := sh }) ha.rider
  · rw [getRider_modRider, hsh]
    exact hactive.trans ha.active

theorem gathers_ite {c : Rider → Prop} [∀ x, Decidable (c x)] {g : Rider → Shot} (h : ∀ x, (g x).active = x.shot.active) :
    gathers fun x => if c x then { x with shot := g x } else x := fun x => by
  by_cases hc : c x
  · exact ⟨g x, if_pos hc, h x⟩
  · exact ⟨x.shot, if_neg hc, rfl⟩

theorem active_setCause (c : ShotCause) (x : Shot) : (setCause c x).active = x.active := by
  cases c <;> rfl

/-- A post changes of the riders only what its own rider's shot gathers. -/
theorem gathers_notePost (r : RiderId) (v : VoiceId) (u : State) : ∃ sh : Shot, getRider (notePost r v u) r = { getRider u r with shot := sh } ∧
    sh.active = (getRider u r).shot.active := by
  obtain ⟨sh, hsh, hactive⟩ := gathers_ite (c := fun x => x.shot.active ∧ !x.shot.voices.contains (voiceKey v))
    (g := fun x => { x.shot with voices := voiceKey v :: x.shot.voices }) (fun _ => rfl) (getRider u r)
  unfold notePost
  dsimp only
  split
  · unfold markRider
    split
    · refine ⟨setCause .slice sh, ?_, (active_setCause _ _).trans hactive⟩
      rw [getRider_modRider, getRider_modRider]
      exact congrArg (fun x : Rider => { x with shot := setCause .slice x.shot }) hsh
    · exact ⟨sh, (getRider_modRider ..).trans hsh, hactive⟩
  · exact ⟨sh, (getRider_modRider ..).trans hsh, hactive⟩

theorem getRider_notePost_other {q : RiderId} (hq : q ≠ r) (v : VoiceId) (u : State) : getRider (notePost r v u) q = getRider u q := by
  unfold notePost
  dsimp only
  split
  · unfold markRider
    split
    · rw [getRider_modRider_other hq, getRider_modRider_other hq]
    · exact getRider_modRider_other hq _ _
  · exact getRider_modRider_other hq _ _

theorem notePost_changes_refl (r : RiderId) (v : VoiceId) (u : State) : Changes [.riders] u (notePost r v u) :=
  notePost_changes r v u (by decide) (Changes.refl _ u)

theorem Acted.notePost {u : State} (ha : Acted s u r w) (v : VoiceId) : Acted s (notePost r v u) r w := by
  obtain ⟨sh, hsh, hactive⟩ := gathers_notePost r v u
  refine ⟨?_, ?_, fun q hq => (getRider_notePost_other hq v u).trans (ha.others q hq), ?_⟩
  · rw [hsh]
    exact congrArg (fun y : Rider => { y with shot := sh }) ha.rider
  · rw [hsh]
    exact hactive.trans ha.active
  · rw [(notePost_changes_refl r v u).getStall]
    exact ha.life

theorem Acted.noteLine {u : State} (ha : Acted s u r w) (l : LineId) : Acted s (noteLine r l u) r w :=
  ha.gather (gathers_ite fun _ => rfl)

/-! ## Posts to a voice (R217, R220 to R228) -/

theorem modSeq_modSeq (v : VoiceId) (f g : Seq → Seq) (u : State) : modSeq v f (modSeq v g u) = modSeq v (f ∘ g) u := by
  simp [modSeq, tabMod, tabSet_tabSet]

/-- The ops that post to a sequencer. -/
def isPost (w : MicroWord) : Prop := Mw.op w = 8 ∨ Mw.op w = 9 ∨ Mw.op w = 0x0A ∨ Mw.op w = 0x0B ∨ Mw.op w = 0x0C ∨ Mw.op w = 0x0D

theorem action_post (hop : isPost w) (u : State) : action r w .granted false u = actPost r w .granted u := by
  unfold action
  rcases hop with hop | hop | hop | hop | hop | hop <;> rw [hop] <;> rfl

/-- A post that its voice takes as a change of its sequencer alone. -/
theorem execWord_posts {is : MicroWord → Bool} (h : Runs s r w) (his : is w = true) (hop : isPost w) (hseq : Mw.seq w = 0) {v : VoiceId}
    (obj : v = objVoice r.stall (objectNum (getRider s r) w)) {p : Post} (hp : wordPost (getRider s r) w = p) (ok : postCode s v p = none)
    {fn : Seq → Seq} (happ : applyPost v p (atWord r w s) = modSeq v fn (atWord r w s)) {y : Seq} (hy : fn (getSeq s v) = y) :
    ∃ t, (Host.Outcome.next (execWord is r {} s) : Res) = .next t ∧ getSeq t v = y ∧ goesOn s t r w ∧ (∀ x, x ≠ v → getSeq t x = getSeq s x) ∧
      Changes [.seqs, .riders] s t := by
  subst obj
  have post : wordPost (getRider (atWord r w s) r) w = p := by rw [getRider_atWord, ← hp]; rfl
  have ok' : postCode (atWord r w s) (objVoice r.stall (objectNum (getRider s r) w)) p = none := ok
  have hact : action r w .granted false (atWord r w s) = (notePost r (objVoice r.stall (objectNum (getRider s r) w))
      (modSeq (objVoice r.stall (objectNum (getRider s r) w)) fn (atWord r w s)), .done) := by
    rw [action_post hop, actPost]
    simp only [objectNum_atWord, post, ok', happ]
    rfl
  have moved := modSeq_changes (P := [.seqs]) (objVoice r.stall (objectNum (getRider s r) w)) fn (atWord r w s) (by decide) (Changes.refl _ _)
  obtain ⟨hexec, hgoes, hc⟩ := execWord_answer (P := [.seqs, .riders]) h his (by rcases hop with hop | hop | hop | hop | hop | hop <;> simp [hop]) hseq hact
    ((acted_of_changes moved).notePost _) (notePost_changes _ _ _ (by decide) (moved.mono (by decide)))
  have seq (u : State) (x : VoiceId) : getSeq (nextWord r (notePost r (objVoice r.stall (objectNum (getRider s r) w)) u)) x = getSeq u x :=
    (notePost_changes_refl r _ u).getSeq x
  refine ⟨_, congrArg Host.Outcome.next hexec, ?_, hgoes, fun x hx => ?_, hc⟩
  · rw [seq, getSeq_modSeq, ← hy]
    rfl
  · rw [seq, getSeq_modSeq_other hx]
    rfl

/-! ## VTUNE (Table 09-10) -/

theorem tunePost_keeps (x : Rider) (w : MicroWord) (v : VoiceId) (u : State) :
    (getVoice (tunePost x w v u) v).tune = (getVoice u v).tune ∧ ∀ z, z ≠ v → getVoice (tunePost x w v u) z = getVoice u z := by
  have one (f : Voice → Voice) (hf : ∀ y, (f y).tune = y.tune) :
      (getVoice (modVoice v f u) v).tune = (getVoice u v).tune ∧ ∀ z, z ≠ v → getVoice (modVoice v f u) z = getVoice u z :=
    ⟨by rw [getVoice_modVoice, hf], fun z hz => getVoice_modVoice_other hz _ _⟩
  unfold tunePost
  split <;> exact one _ fun _ => rfl

theorem action_tune (hop : Mw.op w = 0x0F) (again : Bool) (u : State) : action r w .granted again u = actTune r w .granted u := by
  unfold action; rw [hop]; rfl

/-- A VTUNE that its voice takes. -/
theorem execVtune_tunes (h : Runs s r w) (hseq : Mw.seq w = 0) (hop : Mw.op w = 0x0F) {v : VoiceId}
    (obj : v = objVoice r.stall (objectNum (getRider s r) w)) (ok : Mw.sub w ≠ 0 ∨ bit (Mw.immHi w) 15 = false) :
    ∃ t, execWord (isOp 0x0F) r {} s = t ∧ (∀ z, getVoice t z = getVoice (tunePost (getRider (atWord r w s) r) w v (atWord r w s)) z) ∧
      goesOn s t r w ∧ Changes [.voices, .riders] s t := by
  subst obj
  have hact : action r w .granted false (atWord r w s) = (notePost r (objVoice r.stall (objectNum (getRider s r) w))
      (tunePost (getRider (atWord r w s) r) w (objVoice r.stall (objectNum (getRider s r) w)) (atWord r w s)), .done) := by
    have small : ¬ (Mw.sub w = 0 ∧ bit (Mw.immHi w) 15 = true) := fun ⟨h₁, h₂⟩ => ok.elim (· h₁) (by simp [h₂])
    rw [action_tune hop, actTune]
    simp only [objectNum_atWord, if_neg small]
    rfl
  have tuned := tunePost_changes (P := [.voices]) (getRider (atWord r w s) r) w (objVoice r.stall (objectNum (getRider s r) w)) (atWord r w s) (by decide)
    (Changes.refl _ _)
  obtain ⟨hexec, hgoes, hc⟩ := execWord_answer (P := [.voices, .riders]) h (is := isOp 0x0F) (by simp [isOp, hop]) (by simp [hop]) hseq hact
    ((acted_of_changes tuned).notePost _) (notePost_changes _ _ _ (by decide) (tuned.mono (by decide)))
  exact ⟨_, hexec, fun z => ((notePost_changes_refl r _ _).trans (nextWord_changes r _)).getVoice z, hgoes, hc⟩

/-! ## FORK (R398) -/

/-- The state in which a FORK that runs arms: its rider has fetched the word, and no wait has begun. -/
abbrev atFork (r : RiderId) (s : State) : State := modRider r (fun x => { x with lastStable := decide (x.pc.toNat < 0x4000) }) s

theorem getRider_atFork : getRider (atFork r s) r = { getRider s r with lastStable := decide ((getRider s r).pc.toNat < 0x4000) } := getRider_modRider ..

theorem wcond_of_fork (h : Runs s r w) (hop : Mw.op w = 0x0E) : Mw.wcond w = 0 := by
  have hm := h.not_malformed
  unfold malformed at hm
  simp only [Bool.or_eq_false_iff] at hm
  have hf := hm.1.1.2
  rw [hop] at hf
  simp only [decide_true, Bool.true_and, Bool.or_eq_false_iff] at hf
  exact not_not.mp (of_decide_eq_false hf.2)

theorem execFork_arms (h : Runs s r w) (hop : Mw.op w = 0x0E) : execWord (isOp 0x0E) r {} s = armFork r w (atFork r s) := by
  have hp : predHolds (atFork r s) r w = true := by
    have flags : (begun w (getRider s r)).flags = (getRider s r).flags := by simp [begun, wcond_of_fork h hop]
    exact (predHolds_modRider_congr (f := fun x => { x with lastStable := decide (x.pc.toNat < 0x4000) }) (g := begun w)
      ⟨rfl, rfl, rfl, flags.symm⟩ w).trans h.pred
  rw [execWord_fetched h (by simp [isOp, hop])]
  simp only [hop, if_true, runFork, hp]
  rfl

theorem forkVoiceOf_atFork (h : Runs s r w) : forkVoiceOf (atFork r s) r = objVoice r.stall (objectNum (getRider s r) w) := by
  have hw : wordInHand (atFork r s) r = w := by rw [← h.inHand, wordInHand, getRider_atFork]; rfl
  rw [forkVoiceOf, hw, getRider_atFork]
  rfl

/-- The state in which the fork stands at its voice. -/
def armed (r : RiderId) (w : MicroWord) (v : VoiceId) (s : State) : State :=
  notePost r v (modSeq v (fun q => { q with fork := some (newFork s r w) }) (atFork r s))

/-- What arming leaves of the rider: its shot remembers the voice. -/
theorem rider_armed (v : VoiceId) : ∃ sh : Shot, getRider (armed r w v s) r =
    { getRider s r with lastStable := decide ((getRider s r).pc.toNat < 0x4000), shot := sh } ∧ sh.active = (getRider s r).shot.active := by
  have hm : getRider (modSeq v (fun q => { q with fork := some (newFork s r w) }) (atFork r s)) r =
      { getRider s r with lastStable := decide ((getRider s r).pc.toNat < 0x4000) } := getRider_atFork
  obtain ⟨sh, hsh, hactive⟩ := gathers_notePost r v (modSeq v (fun q => { q with fork := some (newFork s r w) }) (atFork r s))
  rw [hm] at hsh hactive
  exact ⟨sh, hsh, hactive⟩

theorem newFork_atFork : newFork (atFork r s) r w = newFork s r w := by
  simp only [newFork, getRider_atFork]
  rfl

theorem latch_armed (v : VoiceId) : taskInput (getRider (armed r w v s) r) (Mw.ti w) = taskInput (getRider s r) (Mw.ti w) := by
  obtain ⟨sh, hx, -⟩ := rider_armed (s := s) (r := r) (w := w) v
  rw [hx]; rfl

theorem forkCode_atFork (v : VoiceId) : forkCode (atFork r s) r w v = forkCode s r w v := by
  simp only [forkCode, getRider_atFork]; rfl

theorem seq_armed (v x : VoiceId) : getSeq (armed r w v s) x = getSeq (modSeq v (fun q => { q with fork := some (newFork s r w) }) s) x :=
  (notePost_changes_refl r v _).getSeq x

section
variable {v : VoiceId} (h : Runs s r w) (obj : v = objVoice r.stall (objectNum (getRider s r) w)) (ok : forkCode s r w v = none)
include h obj ok

theorem armFork_waits (latch : (taskInput (getRider s r) (Mw.ti w)).latch = []) :
    armFork r w (atFork r s) = pause r (stay r w .forked (!Mw.trot w) (armed r w v s)) := by
  rw [← latch_armed v] at latch
  unfold armed at latch ⊢
  subst obj
  simp only [armFork, forkVoiceOf_atFork h, forkCode_atFork, ok, newFork_atFork, latch]

theorem armFork_takes {k : Token} {hub : Bool} {rest : List (Token × Bool)} (latch : (taskInput (getRider s r) (Mw.ti w)).latch = (k, hub) :: rest) :
    armFork r w (atFork r s) = consumeFork r w k hub (modRider r (modInput (Mw.ti w) fun i => { i with latch := rest }) (armed r w v s)) := by
  rw [← latch_armed v] at latch
  unfold armed at latch ⊢
  subst obj
  simp only [armFork, forkVoiceOf_atFork h, forkCode_atFork, ok, newFork_atFork, latch]

/-- A FORK whose input holds no token: its rider is FORKED with the deadline of the word's wait. -/
theorem execFork_waits (hop : Mw.op w = 0x0E) (latch : (taskInput (getRider s r) (Mw.ti w)).latch = []) :
    ∃ t, execWord (isOp 0x0E) r {} s = t ∧ getSeq t v = { getSeq s v with fork := some (newFork s r w) } ∧
      (getRider t r).state = .forked ∧ (getRider t r).pc = (getRider s r).pc ∧
      (getRider t r).deadline = (if Mw.trot w then none else some ((getRider s r).deadline.getD (waitDeadline s (getRider s r) w))) ∧
      (getRider t r).regs = (getRider s r).regs ∧ (∀ x, x ≠ v → getSeq t x = getSeq s x) ∧ Changes [.seqs, .riders] s t := by
  obtain ⟨sh, hx, -⟩ := rider_armed (s := s) (r := r) (w := w) v
  have clock : (armed r w v s).clock = s.clock := (notePost_changes_refl r v _).clock
  have hy : getRider (stay r w .forked (!Mw.trot w) (armed r w v s)) r = _ := getRider_modRider ..
  have paused : pause r (stay r w .forked (!Mw.trot w) (armed r w v s)) = stay r w .forked (!Mw.trot w) (armed r w v s) := by
    have noStop : (getRider (stay r w .forked (!Mw.trot w) (armed r w v s)) r).stopPending = false := by rw [hy, hx]; exact h.noStop
    have forked : (getRider (stay r w .forked (!Mw.trot w) (armed r w v s)) r).state = .forked := by rw [hy]
    simp [pause, noStop, forked, sampleFaults]
  have seq (x : VoiceId) : getSeq (stay r w .forked (!Mw.trot w) (armed r w v s)) x =
      getSeq (modSeq v (fun q => { q with fork := some (newFork s r w) }) s) x :=
    (stay_changes (P := [.riders]) _ _ _ _ (armed r w v s) (by decide) (Changes.refl _ _)).getSeq x |>.trans (seq_armed v x)
  refine ⟨_, (execFork_arms h hop).trans ((armFork_waits h obj ok latch).trans paused), ?_, ?_, ?_, ?_, ?_, fun x hx => ?_, ?_⟩
  · rw [seq, getSeq_modSeq]
  · rw [hy]
  · rw [hy, hx]
  · rw [hy, hx]
    cases Mw.trot w with
    | true => rfl
    | false =>
      simp only [Bool.not_false, if_true, Bool.false_eq_true, if_false, waitDeadline, clock]
  · rw [hy, hx]
  · rw [seq, getSeq_modSeq_other hx]
  · refine stay_changes _ _ _ _ _ (by decide) (notePost_changes _ _ _ (by decide) (modSeq_changes _ _ _ (by decide) ?_))
    exact modRider_changes _ _ _ (by decide) (Changes.refl _ s)

end

/-- What the fork of a FORK word becomes when it consumes a token. -/
def forkTaken (s : State) (r : RiderId) (w : MicroWord) (k : Token) (hub : Bool) : Fork :=
  { newFork s r w with chosen := some (takesAlt w k), consumedAt := some s.clock.sched, hub := hub }

/-- A rider whose FORK word has consumed a token. -/
def forkDone (w : MicroWord) (v : VoiceId) (k : Token) (x : Rider) : Rider :=
  { setWork (Mw.ld w) (tokenWord k) x with
    flags := { x.flags with alt := takesAlt w k, late := false, tmo := x.flags.tmo && Mw.trot w }, forkVoice := some (voiceKey v) }

/-- The state in which a FORK consumes the token that its input holds. -/
def atToken (r : RiderId) (w : MicroWord) (v : VoiceId) (rest : List (Token × Bool)) (s : State) : State :=
  modRider r (modInput (Mw.ti w) fun i => { i with latch := rest }) (armed r w v s)

theorem rider_atToken (v : VoiceId) (rest : List (Token × Bool)) : ∃ sh : Shot, getRider (atToken r w v rest s) r =
    modInput (Mw.ti w) (fun i => { i with latch := rest })
      { getRider s r with lastStable := decide ((getRider s r).pc.toNat < 0x4000), shot := sh } ∧ sh.active = (getRider s r).shot.active := by
  obtain ⟨sh, hx, hactive⟩ := rider_armed (s := s) (r := r) (w := w) v
  exact ⟨sh, (getRider_modRider ..).trans (congrArg _ hx), hactive⟩

theorem atToken_changes (v : VoiceId) (rest : List (Token × Bool)) : Changes [.seqs, .riders] s (atToken r w v rest s) := by
  refine modRider_changes _ _ _ (by decide) (notePost_changes _ _ _ (by decide) (modSeq_changes _ _ _ (by decide) ?_))
  exact modRider_changes _ _ _ (by decide) (Changes.refl _ s)

theorem forkVoiceOf_of_rider {u : State} (h : Runs s r w) (store : u.store = s.store) (pc : (getRider u r).pc = (getRider s r).pc)
    (regs : (getRider u r).regs = (getRider s r).regs) : forkVoiceOf u r = objVoice r.stall (objectNum (getRider s r) w) := by
  have hw : wordInHand u r = w := by rw [← h.inHand, wordInHand, wordInHand, store, pc]
  simp only [forkVoiceOf, hw, objectNum, workReg, regs]

/-- The fork of the rider takes the token. -/
def chooses (s : State) (r : RiderId) (w : MicroWord) (k : Token) (hub : Bool) (q : Seq) : Seq :=
  { q with fork := q.fork.map fun fk =>
      if fk.rider = riderKey r then { fk with chosen := some (takesAlt w k), consumedAt := some s.clock.sched, hub } else fk }

/-- The state that a FORK leaves its sequencing with, when its fork has consumed a token. -/
def forkTook (r : RiderId) (w : MicroWord) (v : VoiceId) (k : Token) (hub : Bool) (rest : List (Token × Bool)) (s : State) : State :=
  modRider r (forkDone w v k) (modSeq v (chooses s r w k hub) (atToken r w v rest s))

theorem forkTook_changes (v : VoiceId) (k : Token) (hub : Bool) (rest : List (Token × Bool)) :
    Changes [.seqs, .riders] s (forkTook r w v k hub rest s) :=
  modRider_changes _ _ _ (by decide) (modSeq_changes _ _ _ (by decide) (atToken_changes v rest))

theorem consumeFork_atToken (h : Runs s r w) {v : VoiceId} (obj : v = objVoice r.stall (objectNum (getRider s r) w)) {k : Token} {hub : Bool}
    {rest : List (Token × Bool)} (spent : (getSeq s v).spent = []) :
    consumeFork r w k hub (atToken r w v rest s) = sequence r w (forkTook r w v k hub rest s) := by
  obtain ⟨sh, hx, -⟩ := rider_atToken (s := s) (r := r) (w := w) v rest
  have changes := atToken_changes (s := s) (r := r) (w := w) v rest
  have voice : forkVoiceOf (atToken r w v rest s) r = v :=
    (forkVoiceOf_of_rider h changes.store (by rw [hx]; rfl) (by rw [hx]; rfl)).trans obj.symm
  have voice' (f : Seq → Seq) : forkVoiceOf (modSeq v f (atToken r w v rest s)) r = v := voice
  have spent' : (getSeq (atToken r w v rest s) v).spent = [] := by
    rw [show getSeq (atToken r w v rest s) v = getSeq (armed r w v s) v from rfl, seq_armed, getSeq_modSeq]
    exact spent
  have clock : (atToken r w v rest s).clock = s.clock := changes.clock
  simp only [consumeFork, voice, spent', List.any_nil, Bool.false_eq_true, if_false, completeFork, voice', clock]
  rfl

/-- A FORK whose input holds a token: the fork consumes it, and the rider goes on. -/
theorem execFork_takes (h : Runs s r w) (hseq : Mw.seq w = 0) {v : VoiceId} (obj : v = objVoice r.stall (objectNum (getRider s r) w))
    (ok : forkCode s r w v = none) (hop : Mw.op w = 0x0E) {k : Token} {hub : Bool} {rest : List (Token × Bool)}
    (latch : (taskInput (getRider s r) (Mw.ti w)).latch = (k, hub) :: rest) (spent : (getSeq s v).spent = []) :
    ∃ t, execWord (isOp 0x0E) r {} s = t ∧
      getSeq t v = { getSeq s v with
        fork := some { newFork s r w with chosen := some (takesAlt w k), consumedAt := some s.clock.sched, hub := hub } } ∧
      (getRider t r).state = .running ∧ (getRider t r).pc = (getRider s r).pc + 1 ∧ workReg (getRider t r) (Mw.ld w) = tokenWord k ∧
      (getRider t r).flags.alt = takesAlt w k ∧ (getRider t r).flags.late = false ∧
      (taskInput (getRider t r) (Mw.ti w)).latch = rest ∧ (∀ x, x ≠ v → getSeq t x = getSeq s x) ∧ Changes [.seqs, .riders] s t := by
  obtain ⟨sh, hx, hactive⟩ := rider_atToken (s := s) (r := r) (w := w) v rest
  have hy : getRider (forkTook r w v k hub rest s) r = forkDone w v k (modInput (Mw.ti w) (fun i => { i with latch := rest })
      { getRider s r with lastStable := decide ((getRider s r).pc.toNat < 0x4000), shot := sh }) := by
    rw [forkTook, getRider_modRider]
    exact congrArg (forkDone w v k) hx
  have hstall : getStall (forkTook r w v k hub rest s) r.stall = getStall s r.stall :=
    (forkTook_changes v k hub rest).getStall r.stall
  have hnext : sequence r w (forkTook r w v k hub rest s) = nextWord r (forkTook r w v k hub rest s) := by
    refine sequence_next hseq ?_ ?_ ?_
    · rw [hy]; exact h.noStop
    · rw [hstall, hy]
      exact h.life.imp_right fun hr => hactive.trans hr.2
    · rw [hy]; exact h.noFault
  have hexec : execWord (isOp 0x0E) r {} s = nextWord r (forkTook r w v k hub rest s) :=
    ((execFork_arms h hop).trans (armFork_takes h obj ok latch)).trans ((consumeFork_atToken h obj spent).trans hnext)
  have seq (x : VoiceId) : getSeq (nextWord r (forkTook r w v k hub rest s)) x =
      getSeq (modSeq v (chooses s r w k hub) (atToken r w v rest s)) x :=
    ((nextWord_changes r _).getSeq x).trans (modRider_changes (P := [.riders]) r (forkDone w v k) _ (by decide) (Changes.refl _ _) |>.getSeq x)
  have seq' (x : VoiceId) : getSeq (atToken r w v rest s) x = getSeq (modSeq v (fun q => { q with fork := some (newFork s r w) }) s) x :=
    (modRider_changes (P := [.riders]) r _ _ (by decide) (Changes.refl _ _)).getSeq x |>.trans (seq_armed v x)
  refine ⟨_, hexec, ?_, ?_, ?_, ?_, ?_, ?_, ?_, fun x hx => ?_, ?_⟩
  · rw [seq, getSeq_modSeq, seq', getSeq_modSeq]
    have own : (newFork s r w).rider = riderKey r := rfl
    simp only [chooses, Option.map_some, own, if_true]
  · rw [getRider_nextWord]; rfl
  · rw [getRider_nextWord, hy]; rfl
  · rw [getRider_nextWord, hy]; exact workReg_setWork ..
  · rw [getRider_nextWord, hy]; rfl
  · rw [getRider_nextWord, hy]; rfl
  · rw [getRider_nextWord, hy]
    exact congrArg TaskInput.latch (taskInput_modInput (Mw.ti w) (fun i => { i with latch := rest }) _)
  · rw [seq, getSeq_modSeq_other hx, seq', getSeq_modSeq_other hx]
  · exact modRider_changes _ _ _ (by decide) (forkTook_changes v k hub rest)

/-! ## FLUX (R427, R428, R439) -/

theorem action_flux (hop : Mw.op w = 0x10) (u : State) : action r w .granted false u = actFlux r w .granted u := by
  unfold action; rw [hop]; rfl

/-- A FLUX word whose line takes the change `u`. -/
theorem execFlux_answer {is : MicroWord → Bool} {P : List Part} (h : Runs s r w) (his : is w = true) (hseq : Mw.seq w = 0) (hop : Mw.op w = 0x10)
    {l : LineId} {u : State} (hact : actFlux r w .granted (atWord r w s) = (noteLine r l u, .done)) (hc : Changes P (atWord r w s) u)
    (hr : P.contains .riders = false) (hs : P.contains .stalls = false) :
    execWord is r {} s = nextWord r (noteLine r l u) ∧ goesOn s (nextWord r (noteLine r l u)) r w ∧
      Changes (.riders :: P) s (nextWord r (noteLine r l u)) := by
  have hp : Part.sub [.riders] (.riders :: P) = true := by simp [Part.sub]
  have hq : Part.sub P (.riders :: P) = true := by
    simp only [Part.sub, List.all_eq_true, List.contains_iff_mem]
    exact fun p hp => List.mem_cons_of_mem _ hp
  obtain ⟨hexec, hgoes, hchanges⟩ := execWord_answer (P := .riders :: P) h his (by simp [hop]) hseq ((action_flux hop _).trans hact)
    ((acted_of_changes hc hr hs).noteLine l) (noteLine_changes _ _ _ hp (hc.mono hq)) hp
  exact ⟨hexec, hgoes, hchanges⟩

theorem goal_setGoal (g : DcPoint) (x : Line) : (setGoal g x).goal = g := by
  unfold setGoal
  dsimp only
  split <;> (try split) <;> (try split) <;> rfl

/-- A DC point that a FLUX word sets as its line's goal. -/
theorem execFlux_dc {is : MicroWord → Bool} (h : Runs s r w) (his : is w = true) (hseq : Mw.seq w = 0) (hop : Mw.op w = 0x10) (hsub : Mw.sub w ≠ 1)
    {l : LineId} (obj : l = objLine r.stall (objectNum (getRider s r) w)) (awake : restsSafe s r.stall = false) {span : BitVec 2}
    (hspan : span = if Mw.sub w = 0 then bits (Mw.immLo w) 20 2 else (getLine s l).goal.span) (ok : dcCode s l span = none) :
    ∃ t, execWord is r {} s = t ∧ getLine t l = setGoal { span, code := bits (Mw.immLo w) 0 18 } (getLine s l) ∧
      goesOn s t r w ∧ (∀ x, x ≠ l → getLine t x = getLine s x) ∧ Changes [.riders, .lines] s t := by
  subst obj hspan
  have hact : actFlux r w .granted (atWord r w s) = (noteLine r (objLine r.stall (objectNum (getRider s r) w))
      (modLine (objLine r.stall (objectNum (getRider s r) w)) (setGoal
        { span := if Mw.sub w = 0 then bits (Mw.immLo w) 20 2 else (getLine s (objLine r.stall (objectNum (getRider s r) w))).goal.span
          code := bits (Mw.immLo w) 0 18 }) (atWord r w s)), .done) := by
    have line (l : LineId) : getLine (atWord r w s) l = getLine s l := rfl
    have code (l : LineId) (span : BitVec 2) : dcCode (atWord r w s) l span = dcCode s l span := rfl
    have dc (g : DcPoint) : grantDc (objLine r.stall (objectNum (getRider s r) w)) g (atWord r w s) =
        modLine (objLine r.stall (objectNum (getRider s r) w)) (setGoal g) (atWord r w s) :=
      if_neg (by rw [show restsSafe (atWord r w s) (objLine r.stall (objectNum (getRider s r) w)).stall = false from awake]; decide)
    simp only [actFlux, objectNum_atWord, if_neg hsub, line, code, ok, dc]
    rfl
  obtain ⟨hexec, hgoes, hc⟩ := execFlux_answer h his hseq hop hact (modLine_changes (P := [.lines]) _ _ _ (by decide) (Changes.refl _ _))
    (by decide) (by decide)
  have back (l : LineId) (u : State) (x : LineId) : getLine (nextWord r (noteLine r l u)) x = getLine u x :=
    (noteLine_changes (P := [.riders]) r l u (by decide) (Changes.refl _ u)).getLine x
  refine ⟨_, hexec, ?_, hgoes, fun x hx => ?_, hc⟩
  · rw [back, getLine_modLine]; rfl
  · rw [back, getLine_modLine_other hx]; rfl

/-- A level that a rider posts to a line's fast path: its frame and the count of a late one. -/
theorem grantFast_posts (l : LineId) (fr : Nat) (level : BitVec 16) (u : State) :
    (getFast (grantFast l fr level u) l).posts = insertPost { frame := max fr (earliestFast u), level } (getFast u l).posts ∧
    (getFast (grantFast l fr level u) l).late = (if fr < earliestFast u then satInc (getFast u l).late else (getFast u l).late) ∧
    (fr < earliestFast u → noted (grantFast l fr level u) 0 0x0501 = true) ∧ (∀ x, x ≠ l → getFast (grantFast l fr level u) x = getFast u x) := by
  have told (v : State) (x : LineId) : getFast (recordLine 0x0501 l v) x = getFast v x :=
    (recordLine_changes (P := [.funcs]) _ _ v (by decide) (Changes.refl _ v)).getFast x
  by_cases late : fr < earliestFast u
  · simp only [grantFast, if_pos late]
    refine ⟨?_, ?_, fun _ => noted_record .., fun x hx => ?_⟩
    · rw [told, getFast_modFast, getFast_modFast]
    · rw [told, getFast_modFast, getFast_modFast]
    · rw [told, getFast_modFast_other hx, getFast_modFast_other hx]
  · simp only [grantFast, if_neg late]
    refine ⟨?_, ?_, fun hl => absurd hl late, fun x hx => ?_⟩
    · rw [getFast_modFast]
    · rw [getFast_modFast]
    · rw [getFast_modFast_other hx]

theorem execFlux_fast (h : Runs s r w) (hseq : Mw.seq w = 0) (hop : Mw.op w = 0x10) (hsub : Mw.sub w = 1) {l : LineId} {fr : Nat}
    (obj : l = objLine r.stall (objectNum (getRider s r) w)) (ok : fastCode s l true = none)
    (hfr : fr = (bits (timeReg (getRider s r) (Mw.tn w)) 11 53 : BitVec 53).toNat) (room : fastFull (getFast s l) = false) :
    ∃ t, execWord (isSub 0x10 1) r {} s = t ∧
      (getFast t l).posts = insertPost { frame := max fr (earliestFast s), level := bits (Mw.immLo w) 0 16 } (getFast s l).posts ∧
      (getFast t l).late = (if fr < earliestFast s then satInc (getFast s l).late else (getFast s l).late) ∧
      (fr < earliestFast s → noted t 0 0x0501 = true) ∧ goesOn s t r w ∧ (∀ x, x ≠ l → getFast t x = getFast s x) ∧
      Changes [.funcs, .riders, .fasts] s t := by
  subst obj hfr
  have hact : actFlux r w .granted (atWord r w s) = (noteLine r (objLine r.stall (objectNum (getRider s r) w))
      (grantFast (objLine r.stall (objectNum (getRider s r) w)) (bits (timeReg (getRider s r) (Mw.tn w)) 11 53 : BitVec 53).toNat
        (bits (Mw.immLo w) 0 16) (atWord r w s)), .done) := by
    have fast (l : LineId) : getFast (atWord r w s) l = getFast s l := rfl
    have code (l : LineId) : fastCode (atWord r w s) l true = fastCode s l true := rfl
    simp only [actFlux, objectNum_atWord, timeReg_atWord, hsub, if_true, fast, code, ok, room]
    rfl
  obtain ⟨hexec, hgoes, hc⟩ := execFlux_answer h (is := isSub 0x10 1) (by simp [isSub, hop, hsub]) hseq hop hact
    (grantFast_changes (P := [.funcs, .fasts]) _ _ _ _ (by decide) (Changes.refl _ _)) (by decide) (by decide)
  obtain ⟨posts, late, told, other⟩ := grantFast_posts (objLine r.stall (objectNum (getRider s r) w))
    (bits (timeReg (getRider s r) (Mw.tn w)) 11 53 : BitVec 53).toNat (bits (Mw.immLo w) 0 16) (atWord r w s)
  have changes (l : LineId) (u : State) : Changes [.riders] u (nextWord r (noteLine r l u)) :=
    (noteLine_changes r l u (by decide) (Changes.refl _ u)).trans (nextWord_changes r _)
  refine ⟨_, hexec, ?_, ?_, fun hl => ?_, hgoes, fun x hx => ?_, hc.mono (by decide)⟩
  · rw [(changes _ _).getFast]; exact posts
  · rw [(changes _ _).getFast]; exact late
  · rw [(changes _ _).noted]; exact told hl
  · rw [(changes _ _).getFast]; exact other x hx

end

/-- Settles O39: each post of a rider that its voice or line takes, and how the rider goes on. -/
theorem riderPostsReachVoicesAndLines : Obligations.RiderPostsReachVoicesAndLines := by
  intro s r w u hrun hseq
  obtain ⟨rfl, h⟩ := runs_of_wordRuns hrun
  refine ⟨fun v obj => ⟨fun hop ok => ?start, fun hop ok => ?loadAlt,
    fun ok open_ free => ⟨fun hop => ?selectAlt, fun hop => ?branch, fun hop => ?stop⟩, fun hop ok hold open_ free => ?break_, fun hop ok => ?tune,
    fun hop ok => ⟨fun latch => ?forkWaits, fun k hub rest latch spent => ?forkTakes⟩⟩,
    fun l obj hop awake => ⟨fun hsub ok => ?dcGoal, fun hsub ok => ?dcCode, fun fr hsub ok hfr room => ?fast⟩⟩
  case start =>
    exact execWord_posts h (is := isOp 0x08) (by simp [isOp, hop]) (by simp [isPost, hop]) hseq obj (by rw [wordPost, hop]; rfl) ok rfl rfl
  case loadAlt =>
    exact execWord_posts h (is := isOp 0x09) (by simp [isOp, hop]) (by simp [isPost, hop]) hseq obj (by rw [wordPost, hop]; rfl) ok rfl rfl
  case selectAlt =>
    exact execWord_posts h (is := isOp 0x0A) (by simp [isOp, hop]) (by simp [isPost, hop]) hseq obj (by rw [wordPost, hop]; rfl) (p := .selectAlt) ok
      (postSelection_free (s := atWord r w s) .alt open_ free) rfl
  case branch =>
    refine execWord_posts h (is := isOp 0x0B) (by simp [isOp, hop]) (by simp [isPost, hop]) hseq obj (by rw [wordPost, hop]; rfl) (p := .branch (Mw.desc w)) ok
      ((postSelection_free _ (by rw [getSeq_modSeq]; exact open_) (by rw [getSeq_modSeq]; exact free)).trans (modSeq_modSeq ..)) rfl
  case stop =>
    exact execWord_posts h (is := isOp 0x0D) (by simp [isOp, hop]) (by simp [isPost, hop]) hseq obj (by rw [wordPost, hop]; rfl) (p := .stop) ok
      (postSelection_free (s := atWord r w s) .stop open_ free) rfl
  case break_ =>
    exact execWord_posts h (is := isOp 0x0C) (by simp [isOp, hop]) (by simp [isPost, hop]) hseq obj (by rw [wordPost, hop]; rfl) (p := .break_) ok
      ((postBreak_hold (s := atWord r w s) hold open_).trans (postSelection_free .break_ open_ free)) rfl
  case tune =>
    obtain ⟨t, hexec, voice, hgoes, hc⟩ := execVtune_tunes h hseq hop obj ok
    obtain ⟨tune, other⟩ := tunePost_keeps (getRider (atWord r w s) r) w v (atWord r w s)
    refine ⟨t, congrArg Host.Outcome.next hexec, by rw [voice]; exact tune, fun hsub => ?_, fun hsub => ?_, fun hsub => ?_, fun hsub => ?_, fun hsub => ?_, hgoes,
      fun x hx => by rw [voice]; exact other x hx, hc⟩ <;> rw [voice, tunePost, hsub]
    · exact congrArg Voice.pend (getVoice_modVoice ..)
    · exact congrArg Voice.pend (getVoice_modVoice ..)
    · exact congrArg (·.pend.vz) (getVoice_modVoice ..)
    · exact congrArg Voice.pend (getVoice_modVoice ..)
    · exact congrArg Voice.pendDelay (getVoice_modVoice ..)
  case forkWaits =>
    obtain ⟨t, ht, facts⟩ := execFork_waits h obj ok hop latch
    exact ⟨t, congrArg Host.Outcome.next ht, facts⟩
  case forkTakes =>
    obtain ⟨t, ht, facts⟩ := execFork_takes h hseq obj ok hop latch spent
    exact ⟨t, congrArg Host.Outcome.next ht, facts⟩
  case dcGoal =>
    obtain ⟨t, ht, line, hgoes, other, hc⟩ := execFlux_dc h (is := isSub 0x10 0) (by simp [isSub, hop, hsub]) hseq hop (by omega) obj awake
      (by rw [if_pos hsub]) ok
    exact ⟨t, congrArg Host.Outcome.next ht, line, by rw [line, goal_setGoal], hgoes, other, hc⟩
  case dcCode =>
    obtain ⟨t, ht, line, hgoes, other, hc⟩ := execFlux_dc h (is := isSub 0x10 2) (by simp [isSub, hop, hsub]) hseq hop (by omega) obj awake
      (by rw [if_neg (by omega)]) ok
    exact ⟨t, congrArg Host.Outcome.next ht, by rw [line, goal_setGoal], hgoes, other, hc⟩
  case fast =>
    obtain ⟨t, ht, facts⟩ := execFlux_fast h hseq hop hsub obj ok hfr room
    exact ⟨t, congrArg Host.Outcome.next ht, facts⟩

end Sys2Proof.Machine
end

section
/-!
PROOFS. Waits, starts and stops of a rider, and the host's writes to it (O40).
-/

namespace Sys2Proof.Machine

set_option Elab.async false

open Sys2Proof

section
variable {s : State} {r : RiderId} {w : MicroWord}

/-! ## Waits that end (R386, R393 to R395) -/

/-- A waiting rider whose condition is met goes on with its word. -/
theorem waitTrue_nop (hw : w = wordInHand s r) (waiting : (getRider s r).state = .waiting) (met : waitMet s r w = true)
    (quiet : boundaryQuiet s r = true) (hop : Mw.op w = 0) (hseq : Mw.seq w = 0)
    (pred : predHolds (modRider r (fun x => { x with flags := { x.flags with tmo := false } }) s) r w = true) :
    waitTrue r {} s = nextWord r (modRider r (fun x => { x with flags := { x.flags with tmo := false } }) s) := by
  obtain ⟨noStop, life, noFault⟩ := boundaryQuiet_iff.mp quiet
  have free : (getRider s r).state = .waiting ∧ waitMet s r w ∧ !(Mw.op w = 7 && shotHeld s r) := ⟨waiting, met, by simp [hop]⟩
  have waited : (decide (Mw.wcond w ≠ 0) || decide ((getRider s r).state = .waiting)) = true := by simp [waiting]
  simp only [waitTrue, ← hw]
  rw [if_pos free]
  simp only [runWord, waited, if_true, pred, action_nop hop, finish]
  exact sequence_next hseq (by rw [getRider_modRider]; exact noStop) (by rw [getRider_modRider]; exact life.imp_right And.right)
    (by rw [getRider_modRider]; exact noFault)

/-- A rider at its wait's deadline: the state that its boundary meets. -/
def timedOut (r : RiderId) (w : MicroWord) (s : State) : State :=
  recordRider 0x0701 r (modRider r (fun x =>
    { x with flags := { x.flags with tmo := true }, timeouts := satInc x.timeouts, pc := Mw.tmoAddr w, state := .running, deadline := none }) s)

theorem getRider_timedOut (q : RiderId) : getRider (timedOut r w s) q = getRider (modRider r (fun x =>
    { x with flags := { x.flags with tmo := true }, timeouts := satInc x.timeouts, pc := Mw.tmoAddr w, state := .running, deadline := none }) s) q :=
  (recordRider_changes (P := [.funcs]) _ _ _ (by decide) (Changes.refl _ _)).getRider q

theorem timedOut_changes : Changes [.funcs, .riders] s (timedOut r w s) :=
  recordRider_changes _ _ _ (by decide) (modRider_changes _ _ _ (by decide) (Changes.refl _ s))

theorem deadlineReached_waiting (hw : w = wordInHand s r) (waiting : (getRider s r).state = .waiting) (quiet : boundaryQuiet s r = true) :
    deadlineReached r s = timedOut r w s := by
  obtain ⟨noStop, life, noFault⟩ := boundaryQuiet_iff.mp quiet
  have hx := getRider_timedOut (s := s) (r := r) (w := w) r
  rw [getRider_modRider] at hx
  have out : deadlineReached r s = boundary r (timedOut r w s) := by
    simp only [deadlineReached, ← hw, waiting]
    rfl
  rw [out]
  refine boundary_of_quiet (by rw [hx]; exact noStop) (drainStops_of_life ?_) (by rw [hx]; exact noFault)
  rw [hx, timedOut_changes.getStall]
  exact life.imp_right And.right

/-- A held VTUNE that is granted. -/
theorem grantHeld_tune (hw : w = wordInHand s r) (held : (getRider s r).state = .held) (quiet : boundaryQuiet s r = true)
    (hop : Mw.op w = 0x0F) (hsub : Mw.sub w = 1) (hseq : Mw.seq w = 0) : ∃ t, grantHeld r s = nextWord r t ∧ (getRider t r).pc = (getRider s r).pc ∧
      (∀ q, q ≠ r → getRider t q = getRider s q) ∧
      (getVoice t (objVoice r.stall (objectNum (getRider s r) w))).pend.offset = some (bits (Mw.immLo w) 0 16) ∧ Changes [.voices, .riders] s t := by
  obtain ⟨noStop, life, noFault⟩ := boundaryQuiet_iff.mp quiet
  have ready : queueReady s r w = true := by simp [queueReady, hop]
  have tuned := tunePost_changes (P := [.voices]) (getRider s r) w (objVoice r.stall (objectNum (getRider s r) w)) s (by decide) (Changes.refl _ s)
  have hact : action r w .granted true s = (notePost r (objVoice r.stall (objectNum (getRider s r) w))
      (tunePost (getRider s r) w (objVoice r.stall (objectNum (getRider s r) w)) s), .done) := by
    rw [action_tune hop, actTune]
    simp only [if_neg (show ¬ (Mw.sub w = 0 ∧ bit (Mw.immHi w) 15 = true) by omega)]
    rfl
  obtain ⟨sh, hx, active⟩ := gathers_notePost r (objVoice r.stall (objectNum (getRider s r) w))
    (tunePost (getRider s r) w (objVoice r.stall (objectNum (getRider s r) w)) s)
  have noted := notePost_changes_refl r (objVoice r.stall (objectNum (getRider s r) w))
    (tunePost (getRider s r) w (objVoice r.stall (objectNum (getRider s r) w)) s)
  rw [tuned.getRider] at hx active
  refine ⟨notePost r (objVoice r.stall (objectNum (getRider s r) w)) (tunePost (getRider s r) w (objVoice r.stall (objectNum (getRider s r) w)) s),
    ?_, by rw [hx], fun q hq => ?_, ?_, (tuned.mono (by decide)).trans (noted.mono (by decide))⟩
  · have granted : grantHeld r s = finish r w true (action r w .granted true s) := by
      simp only [grantHeld, ← hw, held, if_true, hop, ready]
      rfl
    rw [granted, hact]
    refine sequence_next hseq ?_ ?_ ?_
    · rw [hx]; exact noStop
    · rw [noted.getStall, tuned.getStall, hx]
      exact life.imp_right fun hr => active.trans hr.2
    · rw [hx]; exact noFault
  · rw [getRider_notePost_other hq, tuned.getRider]
  · rw [noted.getVoice, tunePost, hsub]
    exact congrArg (·.pend.offset) (getVoice_modVoice ..)

/-! ## The handler (R404, R405) -/

/-- A spur reaches a waiting rider at once: nothing else pends, and its handler has room for the return address. -/
theorem sampleFaults_spur {u : State} (waiting : (getRider u r).state = .waiting) (out : (getRider u r).inHandler = false)
    (fault : nextFault (getRider u r).fault = some ({ (getRider u r).fault.pend with spur := false }, 0)) (room : (getRider u r).stack.length < 8) :
    ∃ saved, sampleFaults r u = modRider r (fun x =>
      setWork 15 0 { x with
        stack := x.pc :: x.stack, inHandler := true, pc := x.fault.handler
        fault := { x.fault with pend := { x.fault.pend with spur := false } }
        state := .running, deadline := none, savedWait := saved }) u := by
  refine ⟨match (getRider u r).deadline with
    | some d => some ((getRider u r).pc, d)
    | none => (getRider u r).savedWait.filter fun w => decide (w.1 = (getRider u r).pc), ?_⟩
  simp only [sampleFaults, waiting, if_true, enterHandler, out, Bool.false_eq_true, if_false, fault, if_neg (Nat.not_le.mpr room)]
  exact modRider_congr rfl

theorem nextFault_spur {f : RiderFault} (none : nextFault f = none) :
    nextFault { f with pend := { f.pend with spur := true } } = some ({ f.pend with spur := false }, 0) := by
  unfold nextFault at none ⊢
  simp only at none ⊢
  split at none
  · cases none
  · split at none
    · cases none
    · split at none
      · cases none
      · split at none
        · cases none
        next h₁ h₂ h₃ h₄ => rw [if_neg h₁, if_neg h₂, if_neg h₃, if_neg h₄, if_pos trivial]

end

/-- A change of one rider, and of nothing else. -/
theorem rider_changed {s : State} {r : RiderId} (f : Rider → Rider) {y : Rider} (hy : f (getRider s r) = y) :
    getRider (modRider r f s) r = y ∧ (∀ q, q ≠ r → getRider (modRider r f s) q = getRider s q) ∧ Changes [.riders] s (modRider r f s) :=
  ⟨(getRider_modRider ..).trans hy, fun _ hq => getRider_modRider_other hq _ _, modRider_changes _ _ _ (by decide) (Changes.refl _ s)⟩

theorem startCode_eq {s : State} {r : RiderId} {c : Code} (h : startCode s r = some c) : c = 0x1704 := by
  unfold startCode at h
  split at h
  · cases h
  · exact (Option.some.inj h).symm

theorem askStop_of_stays {s : State} {r : RiderId} (k : StopKind)
    (h : (getRider s r).state = .waiting ∨ (getRider s r).state = .held ∨ (getRider s r).state = .forked) : askStop r k s = stopRider r k s := by
  rcases h with h | h | h <;> simp [askStop, h]

theorem store_dropWords (n : StallId) (a : Nat) (s : State) : (dropWords n a s).store = s.store :=
  (dropWords_changes (P := [.held]) n a s (by decide) (Changes.refl _ s)).store

/-- A commit puts its word into the control store, and nothing else of it changes (R412). -/
theorem storeWrite_commits {s : State} {f : Func} {n : StallId} {k : Fin 524288} {val : Word} (last : k.val % 8 = 7)
    (ok : storeCode f s n (k.val / 8) (commitWord s n (k.val / 8) val) = none) :
    storeWrite f n k val s = setStore (fun m => memSet 0 m (n.val * 65536 + k.val / 8) (commitWord s n (k.val / 8) val)) (dropWords n (k.val / 8) s) := by
  simp only [storeWrite, last, if_true, ok]

/-- What a write to a work or time register of a STOPPED rider leaves (R22, R414). -/
theorem setRiderReg_effect (r : RiderId) (reg : RiderReg) (val : Word) (s : State) :
    (∀ k, reg = .l k → workReg (getRider (setRiderReg r reg val s) r) k.val = val ∧ (setRiderReg r reg val s).held = s.held) ∧
    (∀ k, reg = .tLo k → tabGet 0 (setRiderReg r reg val s).held (regAddr (.rider r (.tLo k))) = val ∧
      getRider (setRiderReg r reg val s) r = getRider s r) ∧
    (∀ k, reg = .tHi k → timeReg (getRider (setRiderReg r reg val s) r) k.val =
      val ++ heldWord (.rider r (.tLo k)) (bits (timeReg (getRider s r) k.val) 0 32) s) ∧
    (getRider (setRiderReg r reg val s) r).pc = (getRider s r).pc ∧ (∀ q, q ≠ r → getRider (setRiderReg r reg val s) q = getRider s q) ∧
    Changes [.riders, .held] s (setRiderReg r reg val s) := by
  have changes := setRiderReg_changes (P := [.riders, .held]) r reg val s (by decide) (Changes.refl _ s)
  cases reg with
  | l k =>
    refine ⟨fun j hj => ?_, fun j hj => (by cases hj), fun j hj => (by cases hj), ?_, fun q hq => getRider_modRider_other hq _ _, changes⟩
    · cases hj
      exact ⟨by rw [setRiderReg, getRider_modRider, workReg_setWork], rfl⟩
    · rw [setRiderReg, getRider_modRider]; rfl
  | tLo k =>
    refine ⟨fun j hj => (by cases hj), fun j hj => ?_, fun j hj => (by cases hj), rfl, fun q hq => rfl, changes⟩
    cases hj
    exact ⟨tabGet_tabSet .., rfl⟩
  | tHi k =>
    have same (w : Word64) (q : RiderId) : getRider (dropHeld (.rider r (.tLo k)) (modRider r (setTimeReg k.val w) s)) q =
        getRider (modRider r (setTimeReg k.val w) s) q := rfl
    refine ⟨fun j hj => (by cases hj), fun j hj => (by cases hj), fun j hj => ?_, ?_, fun q hq => ?_, changes⟩
    · cases hj
      rw [setRiderReg, same, getRider_modRider, timeReg_setTimeReg]
    · rw [setRiderReg, same, getRider_modRider]; rfl
    · rw [setRiderReg, same, getRider_modRider_other hq]

/-- Settles O40: each wait, start and stop by the state that the rider is in, and each write of the host that is admitted. -/
theorem ridersWaitStartAndStop : Obligations.RidersWaitStartAndStop := by
  refine ⟨fun s r w hw => ⟨fun waiting met quiet hop hseq pred => ?waits, fun waiting quiet => ?deadline, fun held quiet hop hsub hseq => ?granted,
    fun stopped release => ?release⟩, fun s f r adm => ⟨fun ok => ?start, fun c refused => ?refused, fun running => ?running, fun stays => ?stop,
    fun apart => ?spur, fun waiting out none room => ?handler⟩, fun s f n k val adm => ⟨fun low => ?held, fun last ok => ?commit⟩,
    fun s f r reg val adm => ⟨fun stopped => ?reg, fun moving => ?regRefused⟩, fun s f r val adm ok => ?handlerWrite⟩
  case waits =>
    refine ⟨_, congrArg Host.Outcome.next (waitTrue_nop hw waiting met quiet hop hseq pred), ?_, fun q hq => ?_, ?_⟩
    · rw [getRider_nextWord, getRider_modRider]; rfl
    · rw [getRider_nextWord_other hq, getRider_modRider_other hq]
    · exact modRider_changes _ _ _ (by decide) (modRider_changes _ _ _ (by decide) (Changes.refl _ s))
  case deadline =>
    refine ⟨_, congrArg Host.Outcome.next (deadlineReached_waiting hw waiting quiet), ?_, noted_record .., fun q hq => ?_, timedOut_changes⟩
    · rw [getRider_timedOut, getRider_modRider]
    · rw [getRider_timedOut, getRider_modRider_other hq]
  case granted =>
    obtain ⟨t, granted, pc, others, offset, changes⟩ := grantHeld_tune hw held quiet hop hsub hseq
    refine ⟨_, congrArg Host.Outcome.next granted, ?_, ?_, ?_, fun q hq => ?_, modRider_changes _ _ _ (by decide) changes⟩
    · rw [getRider_nextWord]; rfl
    · rw [getRider_nextWord]
      exact congrArg (· + 1) pc
    · rw [(nextWord_changes r t).getVoice]; exact offset
    · rw [getRider_nextWord_other hq, others q hq]
  case release =>
    refine ⟨_, congrArg Host.Outcome.next (if_pos ⟨stopped, release⟩), ?_, ?_, ?_, ?_, ?_, ?_, ?_, ?_, fun q hq => getRider_modRider_other hq _ _,
      modRider_changes _ _ _ (by decide) (Changes.refl _ s)⟩ <;> rw [getRider_modRider]
  case start =>
    exact ⟨_, congrArg Host.Outcome.next (hostCheck_of_admits adm (code := fun s => startCode s r) ok _), rider_changed _ rfl⟩
  case refused =>
    exact ⟨_, congrArg Host.Outcome.next (hostCheck_of_code adm (code := fun s => startCode s r) refused _), startCode_eq refused, lastCode_refuseReg ..,
      noted_refuseReg .., refuseReg_changes _ _ _ _ (by decide) (Changes.refl _ s)⟩
  case running =>
    have asked : askStop r .other s = modRider r (fun x => { x with stopPending := true }) s := by simp only [askStop, running]
    exact ⟨_, congrArg Host.Outcome.next ((hostWrite_of_admits adm _).trans asked), rider_changed _ rfl⟩
  case stop =>
    have moving : (getRider s r).state ≠ .stopped := by rcases stays with h | h | h <;> rw [h] <;> decide
    obtain ⟨active, aborted, -⟩ := shotAborted_stopRider moving .other
    exact ⟨_, congrArg Host.Outcome.next ((hostWrite_of_admits adm _).trans (askStop_of_stays .other stays)), state_stopRider .., active, aborted,
      fun q hq => getRider_stopRider_other hq _ _, stopRider_changes _ _ _ (by decide) (Changes.refl _ s)⟩
  case spur =>
    have spurred : spurRider r s = modRider r (fun x => { x with fault := { x.fault with pend := { x.fault.pend with spur := true } } }) s := by
      rw [spurRider, sampleFaults, getRider_modRider, if_neg apart]
    exact ⟨_, congrArg Host.Outcome.next ((hostWrite_of_admits adm _).trans spurred), rider_changed _ rfl⟩
  case handler =>
    obtain ⟨saved, enters⟩ := sampleFaults_spur (r := r)
      (u := modRider r (fun x => { x with fault := { x.fault with pend := { x.fault.pend with spur := true } } }) s)
      (by rw [getRider_modRider]; exact waiting) (by rw [getRider_modRider]; exact out)
      (by rw [getRider_modRider]; exact nextFault_spur none) (by rw [getRider_modRider]; exact room)
    rw [modRider_modRider] at enters
    refine ⟨_, congrArg Host.Outcome.next ((hostWrite_of_admits adm _).trans enters), ?_, ?_, ?_, ?_, ?_, fun q hq => getRider_modRider_other hq _ _,
      modRider_changes _ _ _ (by decide) (Changes.refl _ s)⟩ <;> rw [getRider_modRider]
    · rfl
    · rfl
    · rfl
    · exact workReg_setWork ..
    · rfl
  case held =>
    have holds : storeWrite f n k val s = holdWord (.store n k) val s := if_neg low
    exact ⟨_, congrArg Host.Outcome.next ((hostWrite_of_admits adm _).trans holds), tabGet_tabSet .., holdWord_changes _ _ _ (by decide) (Changes.refl _ s)⟩
  case commit =>
    refine ⟨_, congrArg Host.Outcome.next ((hostWrite_of_admits adm _).trans (storeWrite_commits last ok)), tabGet_memSet .., fun a ha => ?_,
      Changes.set_store _ rfl (dropWords_changes _ _ _ (by decide) (Changes.refl _ s))⟩
    exact (tabGet_memSet_ne ha.symm).trans (congrArg (tabGet 0 · a) (store_dropWords ..))
  case reg =>
    have writes := hostCheck_of_admits adm (code := fun s => if (getRider s r).state = .stopped then none else some 0x1703) (if_pos stopped)
      (setRiderReg r reg val)
    exact ⟨_, congrArg Host.Outcome.next writes, setRiderReg_effect r reg val s⟩
  case regRefused =>
    have refused := hostCheck_of_code adm (code := fun s => if (getRider s r).state = .stopped then none else some 0x1703) (c := 0x1703) (if_neg moving)
      (setRiderReg r reg val)
    exact ⟨_, congrArg Host.Outcome.next refused, lastCode_refuseReg .., noted_refuseReg .., refuseReg_changes _ _ _ _ (by decide) (Changes.refl _ s)⟩
  case handlerWrite =>
    have writes := hostCheck_of_admits adm (code := fun s => if addressOk s r.stall (riderOwner s r) (bits val 0 16) then none else some 0x1705)
      (if_pos ok) (modRider r fun x => { x with fault := { x.fault with handler := bits val 0 16 } })
    exact ⟨_, congrArg Host.Outcome.next writes, rider_changed _ rfl⟩

end Sys2Proof.Machine
end

section
/-!
PROOFS. The DC tick: the curb bounds every move, and a POWER_DOWN ends with the last ramp (O43).
-/

namespace Sys2Proof.Machine

set_option Elab.async false

open Sys2Proof

/-! ## The codes of a span (R420) -/

/-- The values that a span's codes have. -/
def inSpan (span : BitVec 2) (v : Int) : Prop := if span = 3 then 0 ≤ v ∧ v < 2 ^ 18 else -2 ^ 17 ≤ v ∧ v < 2 ^ 17

theorem inSpan_codeVal (span : BitVec 2) (c : BitVec 18) : inSpan span (codeVal span c) := by
  unfold inSpan codeVal
  split
  · exact ⟨Int.natCast_nonneg _, by exact_mod_cast c.isLt⟩
  · exact ⟨BitVec.le_toInt c, BitVec.toInt_lt⟩

theorem codeVal_ofInt {span : BitVec 2} {v : Int} (h : inSpan span v) : codeVal span (BitVec.ofInt 18 v) = v := by
  unfold inSpan at h
  unfold codeVal
  split at h
  next hs =>
    rw [if_pos hs, BitVec.toNat_ofInt, Int.toNat_of_nonneg (Int.emod_nonneg _ (by decide))]
    exact Int.emod_eq_of_lt h.1 h.2
  next hs =>
    rw [if_neg hs, BitVec.toInt_ofInt]
    exact Int.bmod_eq_of_le h.1 h.2

theorem codeVal_zero (span : BitVec 2) : codeVal span 0 = 0 := by
  unfold codeVal
  split <;> rfl

/-- A value between two of a span's values is one. -/
theorem inSpan_between {span : BitVec 2} {a b v : Int} (ha : inSpan span a) (hb : inSpan span b) (h : min a b ≤ v ∧ v ≤ max a b) : inSpan span v := by
  unfold inSpan at *
  split <;> simp_all <;> omega

/-! ## A line at a DC tick (R422 to R436) -/

/-- A line moves by no more than its curb allows, in its span. -/
structure Moves (x y : Line) : Prop where
  span : y.spanNow = x.spanNow
  curb : y.curb = x.curb
  bound : (codeVal x.spanNow y.codeNow - codeVal x.spanNow x.codeNow).natAbs ≤ x.curb.step.toNat

/-- A line of which neither the span nor the curb nor the code changes. -/
theorem moves_of_same {x y : Line} (span : y.spanNow = x.spanNow) (curb : y.curb = x.curb) (code : y.codeNow = x.codeNow) : Moves x y :=
  ⟨span, curb, by rw [code, Int.sub_self]; exact Nat.zero_le _⟩

/-- The same, behind a change that leaves them. -/
theorem Moves.of_same {x y z : Line} (h : Moves y z) (span : y.spanNow = x.spanNow) (curb : y.curb = x.curb) (code : y.codeNow = x.codeNow) : Moves x z :=
  ⟨h.span.trans span, h.curb.trans curb, by rw [← span, ← code, ← curb]; exact h.bound⟩

theorem moves_moveTo {x : Line} {target : Int} {step : Nat} (ht : inSpan x.spanNow target) (hs : step ≤ x.curb.step.toNat) : Moves x (moveTo target step x) := by
  refine ⟨rfl, rfl, ?_⟩
  have hv := inSpan_codeVal x.spanNow x.codeNow
  have code : codeVal x.spanNow (moveTo target step x).codeNow =
      codeVal x.spanNow x.codeNow + max (-(step : Int)) (min (step : Int) (target - codeVal x.spanNow x.codeNow)) :=
    codeVal_ofInt (inSpan_between hv ht (by omega))
  rw [code]
  omega

theorem moves_rampTick (x : Line) : Moves x (rampTick x) := by
  unfold rampTick
  split
  · exact moves_of_same rfl rfl rfl
  · split
    · exact moves_moveTo (inSpan_codeVal _ _) (Nat.le_refl _)
    · exact moves_of_same rfl rfl rfl

/-- A line that may come a step nearer to a value of its span. -/
theorem moves_step {x y : Line} (span : y.spanNow = x.spanNow) (curb : y.curb = x.curb) (code : y.codeNow = x.codeNow) {c : Prop} [Decidable c]
    {target : Int} {step : Nat} (ht : inSpan y.spanNow target) (hs : step ≤ y.curb.step.toNat) :
    Moves x (if c then moveTo target step y else y) := by
  split
  · exact (moves_moveTo ht hs).of_same span curb code
  · exact moves_of_same span curb code

theorem moves_cycleTick (x : Line) : Moves x (cycleTick x) := by
  have step (y : Line) (rising : Bool) (span : y.spanNow = x.spanNow) (curb : y.curb = x.curb) (code : y.codeNow = x.codeNow) :
      Moves x (if mayMove y ∧ y.codeNow ≠ (if rising then y.genHi else y.genLo) then
        moveTo (codeVal y.spanNow (if rising then y.genHi else y.genLo))
          (if y.genMode = 2 ∧ !rising then y.curb.step.toNat else min y.genStep.toNat y.curb.step.toNat) y else y) := by
    refine moves_step span curb code (inSpan_codeVal _ _) ?_
    split
    · exact Nat.le_refl _
    · exact Nat.min_le_right _ _
  exact step { x with genRising := _ } _ rfl rfl rfl

theorem moves_noiseTick (line : Nat) (x : Line) : Moves x (noiseTick line x) := by
  have step (y : Line) (span : y.spanNow = x.spanNow) (curb : y.curb = x.curb) (code : y.codeNow = x.codeNow) :
      Moves x (if mayMove y ∧ y.codeNow ≠ y.genGoal then moveTo (codeVal y.spanNow y.genGoal) y.curb.step.toNat y else y) :=
    moves_step span curb code (inSpan_codeVal _ _) (Nat.le_refl _)
  exact step _ (by split <;> rfl) (by split <;> rfl) (by split <;> rfl)

theorem moves_genTick (line : Nat) (x : Line) : Moves x (genTick line x) := by
  have run (y : Line) (span : y.spanNow = x.spanNow) (curb : y.curb = x.curb) (code : y.codeNow = x.codeNow) :
      Moves x (if y.genMode = 3 then noiseTick line y else cycleTick y) := by
    split
    · exact (moves_noiseTick line y).of_same span curb code
    · exact (moves_cycleTick y).of_same span curb code
  unfold genTick
  split
  · dsimp only
    split
    · exact run x rfl rfl rfl
    · exact run _ rfl rfl rfl
  · split
    · exact moves_moveTo (inSpan_codeVal _ _) (Nat.le_refl _)
    · exact moves_of_same rfl rfl rfl

theorem moves_restBad {x y : Line} (h : Moves x y) : Moves x (restBad y) := by
  unfold restBad
  split
  · exact ⟨h.span, h.curb, h.bound⟩
  · exact h

/-- What a connected line does at a DC tick in its state (Table 10-2). -/
def tickState (plays : Bool) (line : Nat) (x : Line) : Line :=
  match x.dc with
  | .steady => x
  | .ramping => rampTick x
  | .phase1 =>
    if codeVal x.spanNow x.codeNow = 0 then { x with dc := .switching, entering := some x.goal.span }
    else if mayMove x then moveTo 0 x.curb.step.toNat x
    else x
  | .switching => x
  | .phase3 => rampTick x
  | .generator => if plays then genTick line x else x
  | .halter => x

theorem moves_tickState (plays : Bool) (line : Nat) (x : Line) : Moves x (tickState plays line x) := by
  unfold tickState
  split
  case h_2 | h_5 => exact moves_rampTick x
  case h_3 =>
    split
    · exact moves_of_same rfl rfl rfl
    · exact moves_step rfl rfl rfl (codeVal_zero x.spanNow ▸ inSpan_codeVal x.spanNow 0) (Nat.le_refl _)
  case h_6 =>
    split
    · exact moves_genTick line x
    · exact moves_of_same rfl rfl rfl
  all_goals exact moves_of_same rfl rfl rfl

theorem tickLine_of_unconnected {x : Line} (h : x.connected = false) (plays : Bool) (line : Nat) : tickLine plays line x = x := by
  simp [tickLine, h]

/-- A connected line at a DC tick: the tick counts, a generator may start, and the line does what its state says. -/
theorem tickLine_of_connected {x : Line} (h : x.connected = true) (plays : Bool) (line : Nat) : ∃ y : Line,
    y.spanNow = x.spanNow ∧ y.curb = x.curb ∧ y.codeNow = x.codeNow ∧ tickLine plays line x = restBad (tickState plays line y) := by
  refine ⟨_, ?_, ?_, ?_, if_neg (by simp [h])⟩ <;> split <;> rfl

/-- No DC tick moves a line by more than its curb allows (R423). -/
theorem moves_tickLine (plays : Bool) (line : Nat) (x : Line) : Moves x (tickLine plays line x) := by
  cases h : x.connected with
  | false => rw [tickLine_of_unconnected h]; exact moves_of_same rfl rfl rfl
  | true =>
    obtain ⟨y, span, curb, code, tick⟩ := tickLine_of_connected h plays line
    rw [tick]
    exact moves_restBad ((moves_tickState plays line y).of_same span curb code)

/-! ## Every line at a DC tick -/

theorem tabFind_map {α β : Type} (f : Nat → α → β) (k : Nat) : ∀ t : Tab α, tabFind k (t.map fun e => (e.1, f e.1 e.2)) = (tabFind k t).map (f k)
  | [] => rfl
  | (i, a) :: rest => by
    by_cases h : i = k
    · simp [tabFind, h]
    · simp [tabFind, h, tabFind_map f k rest]

theorem getLine_tickLines (s : State) (l : LineId) : getLine (tickLines s) l = tickLine (stallPlays s l.stall) l.num.val (getLine s l) := by
  have small := l.num.isLt
  have place : lineKey l / 64 = l.stall.val := by simp only [lineKey]; omega
  have num : lineKey l % 64 = l.num.val := by simp only [lineKey]; omega
  have stall : fin? 8 (lineKey l / 64) = some l.stall := by simp [fin?, place]
  have found : tabFind (lineKey l) (tickLines s).lines = (tabFind (lineKey l) s.lines).map (tickLine (stallPlays s l.stall) l.num.val) := by
    refine (tabFind_map (fun k x => tickLine (match fin? 8 (k / 64) with | some n => stallPlays s n | none => false) (k % 64) x) (lineKey l) s.lines).trans ?_
    rw [stall, num]
  rw [getLine, getLine, tabGet, tabGet, found]
  cases tabFind (lineKey l) s.lines with
  | none => exact (tickLine_of_unconnected rfl _ _).symm
  | some x => rfl

/-! ## A POWER_DOWN ends with the last ramp (R55) -/

theorem getLine_of_lines {s t : State} (h : t.lines = s.lines) (l : LineId) : getLine t l = getLine s l := by simp only [getLine, h]

theorem getLine_discardImage (n : StallId) (s : State) (l : LineId) : getLine (discardImage n s) l = getLine (linesSafe n s) l := by
  have before : Changes (allBut .lines) s (absentPorts n (endQueues n (endCaptures n (idleVoices n (leaveCal n s))))) :=
    absentPorts_changes _ _ (by decide) (endQueues_changes _ _ (by decide) (endCaptures_changes _ _ (by decide)
      (idleVoices_changes _ _ (by decide) (leaveCal_changes _ _ (by decide) (Changes.refl _ s)))))
  have after (u : State) (f : StallCtl → StallCtl) (g : Tab StallImage → Tab StallImage) (h : Trims → Trims) :
      Changes (allBut .lines) u (modStall n f (modTrims n h (clearRecord n (setStallImages g (plainWatch n u))))) :=
    modStall_changes _ _ _ (by decide) (modTrims_changes _ _ _ (by decide) (clearRecord_changes _ _ (by decide)
      (setStallImages_changes _ _ (by decide) (plainWatch_changes _ _ (by decide) (Changes.refl _ u)))))
  rw [discardImage, (after _ _ _ _).getLine, getLine_linesSafe, getLine_linesSafe, before.getLine]

/-- The lines of a stall keep of their records what outlives its domains. -/
theorem getLine_keepLines (n : StallId) (u : State) (l : LineId) :
    getLine (forEach (stallLines n) (fun l s => modLine l keepLine s) u) l = if l.stall = n then keepLine (getLine u l) else getLine u l := by
  have each := forEach_keyed getLine (fun l s => modLine l keepLine s) (fun _ x => keepLine x) (fun _ => True)
    (fun _ _ _ => trivial) (fun k u _ => getLine_modLine ..) (fun k j u _ hkj => getLine_modLine_other hkj.symm _ _)
    (stallLines n) (nodup_stallLines n) u trivial l
  simpa only [mem_stallLines] using each

theorem getLine_forgetStall (n : StallId) (s : State) (l : LineId) :
    getLine (forgetStall n s) l = if l.stall = n then keepLine (getLine s l) else getLine s l := by
  have after (u : State) (f : Node → Node) : Changes (allBut .lines) u (modNode n f (modFarrier n noLimits u)) :=
    modNode_changes _ _ _ (by decide) (modFarrier_changes _ _ _ (by decide) (Changes.refl _ u))
  unfold forgetStall
  dsimp only
  rw [(after _ _).getLine, getLine_keepLines]
  rfl

theorem getLine_stallOff (n : StallId) (s : State) (l : LineId) :
    getLine (stallOff n s) l = if l.stall = n then keepLine (setGoal (stopGen (getLine s l)).safe (stopGen (getLine s l))) else getLine s l := by
  have before : Changes (allBut .lines) s (dropNode n (closePorts n s)) :=
    dropNode_changes _ _ (by decide) (closePorts_changes _ _ (by decide) (Changes.refl _ s))
  have down (u : State) : Changes (allBut .lines) u (fastDown n u) := fastDown_changes _ _ (by decide) (Changes.refl _ u)
  have domains (u : State) : Changes (allBut .lines) u (stallDomains n false u) := stallDomains_changes _ _ _ (by decide) (Changes.refl _ u)
  have gone (u : State) (g : Gait → Gait) : Changes (allBut .lines) u
      (if (modGait n g u).tack.run = some (.loadStall n) ∧ 5 ≤ (modGait n g u).tack.phase then setTack (fun t => { t with lostTarget := true }) (modGait n g u)
        else modGait n g u) :=
    Changes.ite (fun _ => setTack_changes _ _ (by decide) (modGait_changes _ _ _ (by decide) (Changes.refl _ u)))
      fun _ => modGait_changes _ _ _ (by decide) (Changes.refl _ u)
  have last (u : State) (f : StallCtl → StallCtl) : Changes (allBut .lines) u (setLife n .off (modStall n f u)) :=
    setLife_changes _ _ _ (by decide) (modStall_changes _ _ _ (by decide) (Changes.refl _ u))
  rw [stallOff, (last _ _).getLine, (gone _ _).getLine, (domains _).getLine, getLine_forgetStall, (down _).getLine, getLine_discardImage, getLine_linesSafe,
    before.getLine]
  split <;> rfl

theorem linesRest_of_lines {s t : State} {n : StallId} (h : ∀ l : LineId, l.stall = n → getLine t l = getLine s l) : linesRest t n = linesRest s n := by
  rw [Bool.eq_iff_iff]
  simp only [linesRest, List.all_eq_true]
  exact forall₂_congr fun l hl => by rw [h l ((mem_stallLines n l).mp hl)]

/-- A POWER_DOWN that has not ended, or another command, leaves the stall as it was. -/
theorem endPowerDown_of_rest {n : StallId} {s : State} (h : (getStall s n).cmd ≠ some .powerDown ∨ linesRest s n = false) : endPowerDown n s = s :=
  if_neg fun ⟨hcmd, hrest⟩ => h.elim (· hcmd) (by simp [hrest])

/-- A POWER_DOWN that ends. -/
theorem endPowerDown_ends {n : StallId} {s : State} (hcmd : (getStall s n).cmd = some .powerDown) (hrest : linesRest s n = true) :
    (getStall (endPowerDown n s) n).life = .off ∧ (getStall (endPowerDown n s) n).cmd = none ∧ (getStall (endPowerDown n s) n).op = opDone 0 ∧
      (getStall (endPowerDown n s) n).powered = false := by
  obtain ⟨life, powered, -⟩ := stallOff_effect n s
  rw [endPowerDown, if_pos ⟨hcmd, hrest⟩]
  simp [life, powered]

theorem getLine_endPowerDown (n : StallId) (s : State) (l : LineId) : getLine (endPowerDown n s) l = getLine s l ∨
    l.stall = n ∧ getLine (endPowerDown n s) l = keepLine (setGoal (stopGen (getLine s l)).safe (stopGen (getLine s l))) := by
  unfold endPowerDown
  split
  · rw [(endStallOp_changes (P := allBut .lines) n (opDone 0) (stallOff n s) (by decide) (Changes.refl _ _)).getLine, getLine_stallOff]
    split
    next h => exact .inr ⟨h, rfl⟩
    · exact .inl rfl
  · exact .inl rfl

theorem getLine_endPowerDown_other {n : StallId} {l : LineId} (h : l.stall ≠ n) (s : State) : getLine (endPowerDown n s) l = getLine s l :=
  (getLine_endPowerDown n s l).elim id fun e => absurd e.1 h

theorem getStall_endPowerDown_other {n m : StallId} (h : m ≠ n) (s : State) : getStall (endPowerDown n s) m = getStall s m := by
  unfold endPowerDown
  split
  · exact (near_endStallOp n (opDone 0) _ (near_stallOff n s (Near.refl n s))).other m h
  · rfl

/-- Where a loop over different keys keeps a fact at every key but one, and turns it into another there. -/
theorem forEach_at {α : Type} {f : α → State → State} {I J : State → Prop} (k : α) (before : ∀ a u, a ≠ k → I u → I (f a u)) (here : ∀ u, I u → J (f k u))
    (after : ∀ a u, a ≠ k → J u → J (f a u)) {l : List α} (nodup : l.Nodup) (hk : k ∈ l) {s : State} (hs : I s) : J (forEach l f s) := by
  induction l generalizing s with
  | nil => exact absurd hk List.not_mem_nil
  | cons a l ih =>
    obtain ⟨hnot, nodup⟩ := List.nodup_cons.mp nodup
    rw [show forEach (a :: l) f s = forEach l f (f a s) from rfl]
    by_cases e : a = k
    · subst e
      have still : ∀ (m : List α) (u : State), a ∉ m → J u → J (forEach m f u) := by
        intro m
        induction m with
        | nil => exact fun u _ hu => hu
        | cons b m ih =>
          intro u hm hu
          exact ih (f b u) (fun h => hm (List.mem_cons_of_mem _ h)) (after b u (fun h => hm (h ▸ List.mem_cons_self)) hu)
      exact still l _ hnot (here s hs)
    · exact ih nodup ((List.mem_cons.mp hk).resolve_left (Ne.symm e)) (before a s e hs)

/-- The DC tick: every line's own tick, then the ends of the POWER_DOWNs. -/
def dcTick (s : State) : State := forEach (List.finRange 8) endPowerDown (tickLines s)

theorem getStall_tickLines (s : State) (n : StallId) : getStall (tickLines s) n = getStall s n := rfl

/-- What a DC tick leaves of the line's span, curb and code. -/
def sameDc (x y : Line) : Prop := y.spanNow = x.spanNow ∧ y.curb = x.curb ∧ y.codeNow = x.codeNow

theorem sameDc_setGoal (g : DcPoint) (x : Line) : sameDc x (setGoal g x) := by
  unfold setGoal
  dsimp only
  split
  · split
    · exact ⟨rfl, rfl, rfl⟩
    · split <;> exact ⟨rfl, rfl, rfl⟩
  · split <;> exact ⟨rfl, rfl, rfl⟩
  · split <;> exact ⟨rfl, rfl, rfl⟩
  · exact ⟨rfl, rfl, rfl⟩

theorem sameDc_stopGen (x : Line) : sameDc x (stopGen x) := by
  unfold stopGen
  dsimp only
  split
  · exact sameDc_setGoal _ _
  · exact ⟨rfl, rfl, rfl⟩

theorem sameDc.trans {x y z : Line} (h : sameDc x y) (k : sameDc y z) : sameDc x z := ⟨k.1.trans h.1, k.2.1.trans h.2.1, k.2.2.trans h.2.2⟩

theorem sameDc_endPowerDown (n : StallId) (s : State) (l : LineId) : sameDc (getLine s l) (getLine (endPowerDown n s) l) := by
  rcases getLine_endPowerDown n s l with e | ⟨-, e⟩ <;> rw [e]
  · exact ⟨rfl, rfl, rfl⟩
  · exact ((sameDc_stopGen _).trans (sameDc_setGoal _ _)).trans ⟨rfl, rfl, rfl⟩

/-- The end of a POWER_DOWN moves no line. -/
theorem sameDc_dcTick (s : State) (l : LineId) : sameDc (getLine (tickLines s) l) (getLine (dcTick s) l) :=
  forEach_keep endPowerDown (fun t => sameDc (getLine (tickLines s) l) (getLine t l)) (fun n t h => h.trans (sameDc_endPowerDown n t l)) _ _
    ⟨rfl, rfl, rfl⟩

/-- A stall stands at a DC tick as its own record and its lines' ticks left it. -/
structure Ticked (s : State) (n : StallId) (t : State) : Prop where
  stall : getStall t n = getStall s n
  lines : ∀ l : LineId, l.stall = n → getLine t l = getLine (tickLines s) l

theorem ticked_tickLines (s : State) (n : StallId) : Ticked s n (tickLines s) := ⟨rfl, fun _ _ => rfl⟩

theorem Ticked.other {s t : State} {n m : StallId} (h : Ticked s n t) (hm : m ≠ n) : Ticked s n (endPowerDown m t) :=
  ⟨(getStall_endPowerDown_other (Ne.symm hm) t).trans h.stall,
    fun l hl => (getLine_endPowerDown_other (fun e => hm (e.symm.trans hl)) t).trans (h.lines l hl)⟩

/-- A stall that no POWER_DOWN holds: its lines have ticked, and it is as it was. -/
theorem dcTick_apart {s : State} {n : StallId} (h : (getStall s n).cmd ≠ some .powerDown ∨ linesRest (tickLines s) n = false) :
    Ticked s n (dcTick s) := by
  refine forEach_keep endPowerDown (Ticked s n) (fun m t ticked => ?_) _ _ (ticked_tickLines s n)
  by_cases e : m = n
  · subst e
    rw [endPowerDown_of_rest]
    · exact ticked
    · rw [ticked.stall, linesRest_of_lines ticked.lines]
      exact h
  · exact ticked.other e

/-- A stall whose POWER_DOWN has ended. -/
structure PoweredDown (n : StallId) (t : State) : Prop where
  life : (getStall t n).life = .off
  cmd : (getStall t n).cmd = none
  op : (getStall t n).op = opDone 0
  powered : (getStall t n).powered = false

/-- A POWER_DOWN whose last line has come to rest ends with the tick. -/
theorem dcTick_ends {s : State} {n : StallId} (hcmd : (getStall s n).cmd = some .powerDown) (hrest : linesRest (tickLines s) n = true) :
    PoweredDown n (dcTick s) := by
  refine forEach_at (I := Ticked s n) (J := PoweredDown n) n (fun m t hm ticked => ticked.other hm) (fun t ticked => ?_) (fun m t hm h => ?_)
    (List.nodup_finRange 8) (List.mem_finRange n) (ticked_tickLines s n)
  · obtain ⟨life, cmd, op, powered⟩ := endPowerDown_ends (n := n) (s := t) (by rw [ticked.stall]; exact hcmd)
      ((linesRest_of_lines ticked.lines).trans hrest)
    exact ⟨life, cmd, op, powered⟩
  · have same := getStall_endPowerDown_other (Ne.symm hm) t
    exact ⟨by rw [same, h.life], by rw [same, h.cmd], by rw [same, h.op], by rw [same, h.powered]⟩

/-- Settles O43: a line's own tick bounds its move, and the end of a POWER_DOWN moves no line. -/
theorem theCurbBoundsEveryMove : Obligations.TheCurbBoundsEveryMove := by
  intro s t answer l
  obtain rfl : dcTick s = t := Host.Outcome.next.inj answer
  obtain ⟨span, curb, code⟩ := sameDc_dcTick s l
  have moves := moves_tickLine (stallPlays s l.stall) l.num.val (getLine s l)
  rw [getLine_tickLines] at span curb code
  refine ⟨span.trans moves.span, curb.trans moves.curb, by rw [code]; exact moves.bound, fun apart => ⟨?_, fun up => ?_⟩⟩
  · rw [code, tickLine_of_unconnected apart]
  · rw [(dcTick_apart (.inl up)).lines l rfl, getLine_tickLines, tickLine_of_unconnected apart]

end Sys2Proof.Machine
end

section
/-!
PROOFS. Chapter 10: the commands of flux lines, their fast path and the DC tick (O41).
-/

namespace Sys2Proof.Machine

set_option Elab.async false

open Sys2Proof

/-! ## Host writes that wait for room on a fast path (R439) -/

/-- Of a fast path only its posts, its waiting writes and the count of late ones differ. -/
structure SameLevel (l : LineId) (s t : State) : Prop where
  fast : getFast t l = { getFast s l with posts := (getFast t l).posts, waiting := (getFast t l).waiting, late := (getFast t l).late }
  other : ∀ m, m ≠ l → getFast t m = getFast s m

theorem SameLevel.refl (l : LineId) (s : State) : SameLevel l s s := ⟨rfl, fun _ _ => rfl⟩

theorem SameLevel.trans {l : LineId} {s t u : State} (h : SameLevel l s t) (k : SameLevel l t u) : SameLevel l s u := by
  refine ⟨k.fast.trans ?_, fun m hm => (k.other m hm).trans (h.other m hm)⟩
  rw [h.fast]

theorem sameLevel_grantFast (l : LineId) (fr : Nat) (level : BitVec 16) (s : State) : SameLevel l s (grantFast l fr level s) := by
  have told (v : State) (x : LineId) : getFast (recordLine 0x0501 l v) x = getFast v x :=
    (recordLine_changes (P := [.funcs]) _ _ v (by decide) (Changes.refl _ v)).getFast x
  refine ⟨?_, (grantFast_posts l fr level s).2.2.2⟩
  unfold grantFast
  dsimp only
  split
  · rw [told, getFast_modFast, getFast_modFast]
  · rw [getFast_modFast]

theorem sameLevel_grantOne (l : LineId) (s : State) : SameLevel l s (grantOne l s) := by
  have taken (rest : List (Func × BitVec 16)) : SameLevel l s (modFast l (fun x => { x with waiting := rest }) s) :=
    ⟨by rw [getFast_modFast], fun m hm => getFast_modFast_other hm _ _⟩
  unfold grantOne
  dsimp only
  split
  · exact SameLevel.refl l s
  · split
    · exact SameLevel.refl l s
    · split
      · have refused (f : Func) (r : Reg) (c : Code) (u : State) : SameLevel l u (refuseReg f r c u) := by
          have same := (refuseReg_changes (P := [.funcs]) f r c u (by decide) (Changes.refl _ u)).getFast
          exact ⟨by rw [same], fun m _ => same m⟩
        exact (taken _).trans (refused ..)
      · exact (taken _).trans (sameLevel_grantFast ..)

theorem sameLevel_grantWaiting (l : LineId) (s : State) : SameLevel l s (grantWaiting l s) :=
  forEach_keep (fun _ => grantOne l) (SameLevel l s) (fun _ _ h => h.trans (sameLevel_grantOne l _)) _ _ (SameLevel.refl l s)

theorem grantWaiting_of_none {l : LineId} {s : State} (h : (getFast s l).waiting = []) : grantWaiting l s = s := by
  rw [grantWaiting, h]; rfl

/-- The clips of the change in progress count: of a fast path only its counts differ. -/
theorem getFast_countClips (l : LineId) (until_ : Fine) (s : State) :
    getFast (countClips l until_ s) l = { getFast s l with
      counted := (getFast (countClips l until_ s) l).counted, clipped := (getFast (countClips l until_ s) l).clipped } ∧
    ∀ m, m ≠ l → getFast (countClips l until_ s) m = getFast s m := by
  have told (v : State) (x : LineId) : getFast (recordLine 0x3504 l v) x = getFast v x :=
    (recordLine_changes (P := [.funcs]) _ _ v (by decide) (Changes.refl _ v)).getFast x
  unfold countClips
  dsimp only
  split
  · exact ⟨by rw [told, getFast_modFast], fun m hm => by rw [told, getFast_modFast_other hm]⟩
  · exact ⟨by rw [getFast_modFast], fun m hm => getFast_modFast_other hm _ _⟩

/-- A change of level: from the value reached, at its frame. -/
theorem getFast_changeLevel (l : LineId) (level : BitVec 16) (frame : Nat) (s : State) :
    (getFast (changeLevel l level frame s) l).level = level ∧
    (getFast (changeLevel l level frame s) l).changeAt = some (frame * fineFrame) ∧
    (getFast (changeLevel l level frame s) l).old = fastOutput (getFast s l) (frame * fineFrame) ∧
    (getFast (changeLevel l level frame s) l).posts = (getFast s l).posts ∧
    (getFast (changeLevel l level frame s) l).waiting = (getFast s l).waiting ∧
    (getFast (changeLevel l level frame s) l).en = (getFast s l).en ∧ ∀ m, m ≠ l → getFast (changeLevel l level frame s) m = getFast s m := by
  obtain ⟨fast, other⟩ := getFast_countClips l (frame * fineFrame) s
  have changed : getFast (changeLevel l level frame s) l = _ := getFast_modFast ..
  rw [changed]
  refine ⟨rfl, rfl, ?_, ?_, ?_, ?_, fun m hm => (getFast_modFast_other hm _ _).trans (other m hm)⟩
  · dsimp only
    rw [fast]
    rfl
  all_goals dsimp only; rw [fast]

/-- The fast path discards its posts and returns to 0 (R442). -/
theorem fastReturn_effect (l : LineId) (s : State) :
    (getFast (fastReturn l s) l).level = 0 ∧ (getFast (fastReturn l s) l).en = (getFast s l).en ∧
    ((getFast s l).waiting = [] → (getFast (fastReturn l s) l).posts = []) ∧ ∀ m, m ≠ l → getFast (fastReturn l s) m = getFast s m := by
  have emptied := getFast_modFast l (fun x => { x with posts := [] }) s
  have back : ∃ t, fastReturn l s = grantWaiting l t ∧ (getFast t l).level = 0 ∧ (getFast t l).en = (getFast s l).en ∧ (getFast t l).posts = [] ∧
      (getFast t l).waiting = (getFast s l).waiting ∧ ∀ m, m ≠ l → getFast t m = getFast s m := by
    by_cases h : (getFast (modFast l (fun x => { x with posts := [] }) s) l).level = 0
    · refine ⟨_, congrArg (grantWaiting l) (if_pos h), h, ?_, ?_, ?_, fun m hm => getFast_modFast_other hm _ _⟩ <;> rw [emptied]
    · obtain ⟨level, -, -, posts, waiting, en, other⟩ := getFast_changeLevel l 0 (frameNow (modFast l (fun x => { x with posts := [] }) s) + 1)
        (modFast l (fun x => { x with posts := [] }) s)
      rw [emptied] at posts waiting en
      exact ⟨_, congrArg (grantWaiting l) (if_neg h), level, en, posts, waiting, fun m hm => (other m hm).trans (getFast_modFast_other hm _ _)⟩
  obtain ⟨t, ret, level, en, posts, waiting, other⟩ := back
  have same := sameLevel_grantWaiting l t
  rw [ret]
  refine ⟨?_, ?_, fun none => ?_, fun m hm => (same.other m hm).trans (other m hm)⟩
  · rw [same.fast]; exact level
  · rw [same.fast]; exact en
  · rw [grantWaiting_of_none (waiting.trans none)]; exact posts

/-! ## FL_CURB and FL_SAFE (R426, R444 to R446, R638) -/

/-- A line's values enter the persistent register file in both copies. -/
theorem persistLine_effect (l : LineId) (s : State) :
    (tabGet {} (persistLine l s).persist.flux (lineKey l)).a = {
      curb := (getLine s l).curb
      safe := (getLine s l).safe
      seq := max (fluxSeq (tabGet {} s.persist.flux (lineKey l)).a) (fluxSeq (tabGet {} s.persist.flux (lineKey l)).b) } ∧
    (tabGet {} (persistLine l s).persist.flux (lineKey l)).b = (tabGet {} (persistLine l s).persist.flux (lineKey l)).a := by
  have both : tabGet {} (persistLine l s).persist.flux (lineKey l) = _ := tabGet_tabSet ..
  rw [both]
  exact ⟨rfl, rfl⟩

theorem leaveHalter_of_good {l : LineId} {s : State} (h : (getLine s l).persistBad = false) : leaveHalter l s = s := by
  simp [leaveHalter, h]

theorem safeWritten_setGoal (g : DcPoint) (x : Line) : (setGoal g x).safeWritten = x.safeWritten ∧ (setGoal g x).safe = x.safe ∧
    (setGoal g x).genMode = x.genMode := by
  unfold setGoal
  dsimp only
  split
  · split
    · exact ⟨rfl, rfl, rfl⟩
    · split <;> exact ⟨rfl, rfl, rfl⟩
  · split <;> exact ⟨rfl, rfl, rfl⟩
  · split <;> exact ⟨rfl, rfl, rfl⟩
  · exact ⟨rfl, rfl, rfl⟩

/-- The line and the register file with the value that FL_SAFE has written. -/
def safeWrite (l : LineId) (val : Word) (s : State) : State :=
  persistLine l (modLine l (fun x => { x with safe := dcPoint val, safeWritten := x.persistBad }) s)

theorem getLine_safeWrite (l : LineId) (val : Word) (s : State) (m : LineId) :
    getLine (safeWrite l val s) m = getLine (modLine l (fun x => { x with safe := dcPoint val, safeWritten := x.persistBad }) s) m :=
  (persistLine_changes (P := [.persist]) l _ (by decide) (Changes.refl _ _)).getLine m

theorem safeWrite_changes (l : LineId) (val : Word) (s : State) : Changes [.persist, .lines] s (safeWrite l val s) :=
  persistLine_changes _ _ (by decide) (modLine_changes _ _ _ (by decide) (Changes.refl _ s))

theorem writeSafe_effect (l : LineId) (val : Word) (s : State) :
    (getLine (writeSafe l val s) l).safe = dcPoint val ∧ (getLine (writeSafe l val s) l).safeWritten = (getLine s l).persistBad ∧
    (writeSafe l val s).persist = (safeWrite l val s).persist ∧
    (getLine (writeSafe l val s) l).goal = (if restsSafe s l.stall then dcPoint val else (getLine s l).goal) ∧
    ∀ m, m ≠ l → getLine (writeSafe l val s) m = getLine s m := by
  have own := getLine_safeWrite l val s l
  rw [getLine_modLine] at own
  have rests : restsSafe (safeWrite l val s) l.stall = restsSafe s l.stall := by
    simp only [restsSafe, (safeWrite_changes l val s).getStall]
  have write : writeSafe l val s = if restsSafe s l.stall then goSafe l (safeWrite l val s) else safeWrite l val s := by
    rw [← rests]; rfl
  have others (m : LineId) (hm : m ≠ l) : getLine (safeWrite l val s) m = getLine s m := by
    rw [getLine_safeWrite, getLine_modLine_other hm]
  rw [write]
  cases restsSafe s l.stall with
  | true =>
    have moved : getLine (goSafe l (safeWrite l val s)) l = setGoal (dcPoint val) (getLine (safeWrite l val s) l) := by
      rw [goSafe, getLine_modLine, own]
    obtain ⟨written, safe, -⟩ := safeWritten_setGoal (dcPoint val) (getLine (safeWrite l val s) l)
    rw [if_pos rfl, if_pos rfl, moved, goal_setGoal, written, safe, own]
    exact ⟨rfl, rfl, rfl, rfl, fun m hm => (getLine_modLine_other hm _ _).trans (others m hm)⟩
  | false =>
    rw [if_neg Bool.false_ne_true, if_neg Bool.false_ne_true, own]
    exact ⟨rfl, rfl, rfl, rfl, others⟩

/-! ## FL_CTL (R433 to R436, R442) -/

theorem genMode_stopGen (x : Line) : (stopGen x).genMode = 0 := by
  unfold stopGen
  dsimp only
  split
  · exact (safeWritten_setGoal _ _).2.2
  · rfl

/-- The generator part of an FL_CTL write. -/
def setMode (l : LineId) (mode : BitVec 2) (s : State) : State :=
  if mode = (getLine s l).genMode then s else modLine l (fun x => if mode = 0 then stopGen x else startGen mode x) s

theorem setMode_effect (l : LineId) (mode : BitVec 2) (s : State) :
    (getLine (setMode l mode s) l).genMode = mode ∧
    (mode ≠ 0 → mode ≠ (getLine s l).genMode → (getLine (setMode l mode s) l).dc = (getLine s l).dc ∧ (getLine (setMode l mode s) l).genRunning = false) ∧
    (mode = (getLine s l).genMode → getLine (setMode l mode s) l = getLine s l) ∧
    (∀ m, m ≠ l → getLine (setMode l mode s) m = getLine s m) ∧ Changes [.lines] s (setMode l mode s) := by
  unfold setMode
  split
  next h => exact ⟨h.symm, fun _ k => absurd h k, fun _ => rfl, fun _ _ => rfl, Changes.refl _ s⟩
  next h =>
    rw [getLine_modLine]
    refine ⟨?_, fun hm _ => ?_, fun k => absurd k h, fun m hm => getLine_modLine_other hm _ _, modLine_changes _ _ _ (by decide) (Changes.refl _ s)⟩
    · split
      next h0 => rw [genMode_stopGen, h0]
      · rfl
    · rw [if_neg hm]
      exact ⟨rfl, rfl⟩

theorem writeFlCtl_effect (l : LineId) (val : Word) (s : State) :
    (∀ m, getLine (writeFlCtl l val s) m = getLine (setMode l (bits val 16 2) s) m) ∧ (getFast (writeFlCtl l val s) l).en = bit val 8 ∧
    (bit val 8 = false → (getFast s l).en = true →
      (getFast (writeFlCtl l val s) l).level = 0 ∧ ((getFast s l).waiting = [] → (getFast (writeFlCtl l val s) l).posts = [])) ∧
    (∀ m, m ≠ l → getFast (writeFlCtl l val s) m = getFast s m) ∧ Changes [.funcs, .lines, .fasts] s (writeFlCtl l val s) := by
  obtain ⟨-, -, -, -, changes⟩ := setMode_effect l (bits val 16 2) s
  have mode : Changes [.funcs, .lines, .fasts] s (setMode l (bits val 16 2) s) := changes.mono (by decide)
  have fast := getFast_modFast l (fun x => { x with en := bit val 8 }) (setMode l (bits val 16 2) s)
  rw [changes.getFast] at fast
  have other (m : LineId) (hm : m ≠ l) : getFast (modFast l (fun x => { x with en := bit val 8 }) (setMode l (bits val 16 2) s)) m = getFast s m := by
    rw [getFast_modFast_other hm, changes.getFast]
  have write : writeFlCtl l val s = if (getFast s l).en ∧ !bit val 8 then
      fastReturn l (modFast l (fun x => { x with en := bit val 8 }) (setMode l (bits val 16 2) s))
      else modFast l (fun x => { x with en := bit val 8 }) (setMode l (bits val 16 2) s) := by
    rw [← changes.getFast]; rfl
  rw [write]
  split
  next stops =>
    obtain ⟨level, en, posts, others⟩ := fastReturn_effect l (modFast l (fun x => { x with en := bit val 8 }) (setMode l (bits val 16 2) s))
    rw [fast] at en posts
    refine ⟨fun m => ?_, en, fun _ _ => ⟨level, posts⟩, fun m hm => (others m hm).trans (other m hm), ?_⟩
    · rw [(fastReturn_changes (P := [.funcs, .fasts]) l _ (by decide) (Changes.refl _ _)).getLine]; rfl
    · exact fastReturn_changes _ _ (by decide) (modFast_changes _ _ _ (by decide) mode)
  next stays =>
    exact ⟨fun m => rfl, congrArg Fast.en fast, fun h0 h1 => absurd ⟨h1, by rw [h0]; rfl⟩ stays, other, modFast_changes _ _ _ (by decide) mode⟩

/-! ## FL_FAST_SET and FAST_LEVEL_CHANGE (R437 to R442) -/

/-- A granted level for a frame that is not too early adds its post and nothing else. -/
theorem grantFast_ahead {l : LineId} {fr : Nat} {s : State} (h : earliestFast s ≤ fr) (level : BitVec 16) :
    grantFast l fr level s = modFast l (fun x => { x with posts := insertPost { frame := fr, level } x.posts }) s := by
  rw [grantFast, if_neg (by omega), Nat.max_eq_left h]

/-- The one write that waits is posted where a post is free. -/
theorem grantWaiting_of_one {l : LineId} {s : State} {f : Func} {v : BitVec 16} (h : (getFast s l).waiting = [(f, v)]) (free : fastFull (getFast s l) = false)
    (ok : fastCode s l false = none) :
    grantWaiting l s = modFast l (fun x => { x with posts := insertPost { frame := earliestFast s, level := v } x.posts })
      (modFast l (fun x => { x with waiting := [] }) s) := by
  have code : fastCode (modFast l (fun x => { x with waiting := [] }) s) l false = none := ok
  have one : grantWaiting l s = grantOne l s := by rw [grantWaiting, h]; rfl
  rw [one, grantOne, h]
  dsimp only
  rw [if_neg (by simp [free]), code]
  exact grantFast_ahead (Nat.le_refl _) v

/-- The one write that waits stays where no post is free (R439). -/
theorem grantWaiting_of_full {l : LineId} {s : State} {f : Func} {v : BitVec 16} (h : (getFast s l).waiting = [(f, v)]) (full : fastFull (getFast s l) = true) :
    grantWaiting l s = s := by
  have one : grantWaiting l s = grantOne l s := by rw [grantWaiting, h]; rfl
  rw [one, grantOne, h]
  exact if_pos full

section
variable {l : LineId} {s : State} (none : (getFast s l).waiting = []) (f : Func) (val : Word)
include none

/-- The write joins those that wait, of which there is none. -/
theorem waiting_modFast : (getFast (modFast l (fun x => { x with waiting := x.waiting ++ [(f, bits val 0 16)] }) s) l).waiting = [(f, bits val 0 16)] := by
  rw [getFast_modFast, none]; rfl

theorem fastSet_of_free (free : fastFull (getFast s l) = false) (ok : fastCode s l false = .none) :
    getFast (fastSet f l val s) l = { getFast s l with posts := insertPost { frame := earliestFast s, level := bits val 0 16 } (getFast s l).posts } ∧
    (∀ m, m ≠ l → getFast (fastSet f l val s) m = getFast s m) ∧ Changes [.fasts] s (fastSet f l val s) := by
  have full : fastFull (getFast (modFast l (fun x => { x with waiting := x.waiting ++ [(f, bits val 0 16)] }) s) l) = false := by
    rw [getFast_modFast]; exact free
  rw [fastSet, grantWaiting_of_one (waiting_modFast none f val) full ok]
  refine ⟨?_, fun m hm => ?_, modFast_changes _ _ _ (by decide) (modFast_changes _ _ _ (by decide) (modFast_changes _ _ _ (by decide) (Changes.refl _ s)))⟩
  · rw [getFast_modFast, getFast_modFast, getFast_modFast, ← none]; rfl
  · rw [getFast_modFast_other hm, getFast_modFast_other hm, getFast_modFast_other hm]

theorem fastSet_of_full (full : fastFull (getFast s l) = true) :
    getFast (fastSet f l val s) l = { getFast s l with waiting := [(f, bits val 0 16)] } ∧
    (∀ m, m ≠ l → getFast (fastSet f l val s) m = getFast s m) ∧ Changes [.fasts] s (fastSet f l val s) := by
  have stays : fastFull (getFast (modFast l (fun x => { x with waiting := x.waiting ++ [(f, bits val 0 16)] }) s) l) = true := by
    rw [getFast_modFast]; exact full
  rw [fastSet, grantWaiting_of_full (waiting_modFast none f val) stays]
  refine ⟨?_, fun m hm => getFast_modFast_other hm _ _, modFast_changes _ _ _ (by decide) (Changes.refl _ s)⟩
  rw [getFast_modFast, none]; rfl

/-- The boundary of the first posted level. -/
theorem fastChange_effect {p : FastPost} {rest : List FastPost} (posts : (getFast s l).posts = p :: rest) :
    (getFast (fastChange l s) l).posts = rest ∧
    (fastPlays s l = true → (getFast (fastChange l s) l).level = p.level ∧ (getFast (fastChange l s) l).changeAt = some (p.frame * fineFrame) ∧
      (getFast (fastChange l s) l).old = fastOutput (getFast s l) (p.frame * fineFrame)) ∧
    (fastPlays s l = false → (getFast (fastChange l s) l).level = (getFast s l).level) ∧ ∀ m, m ≠ l → getFast (fastChange l s) m = getFast s m := by
  have taken := getFast_modFast l (fun x => { x with posts := rest }) s
  have plays : fastPlays (modFast l (fun x => { x with posts := rest }) s) l = fastPlays s l := by
    rw [fastPlays, taken]; rfl
  have change : fastChange l s = grantWaiting l (if fastPlays s l then changeLevel l p.level p.frame (modFast l (fun x => { x with posts := rest }) s)
      else modFast l (fun x => { x with posts := rest }) s) := by
    rw [fastChange, posts]
    dsimp only
    rw [plays]
  rw [change]
  cases fastPlays s l with
  | true =>
    obtain ⟨level, at_, old, left, waiting, -, other⟩ := getFast_changeLevel l p.level p.frame (modFast l (fun x => { x with posts := rest }) s)
    rw [taken] at old left waiting
    rw [if_pos rfl, grantWaiting_of_none (waiting.trans none)]
    exact ⟨left, fun _ => ⟨level, at_, old⟩, (fun h => by cases h), fun m hm => (other m hm).trans (getFast_modFast_other hm _ _)⟩
  | false =>
    rw [if_neg Bool.false_ne_true, grantWaiting_of_none (by rw [taken]; exact none), taken]
    exact ⟨rfl, (fun h => by cases h), fun _ => rfl, fun m hm => getFast_modFast_other hm _ _⟩

end

/-! ## The DC tick and the end of a switch of span (R422, R431, Table 10-2) -/

/-- A tick at which no POWER_DOWN ends. -/
theorem dcTick_of_rest {s : State} (h : ∀ n, (getStall s n).cmd ≠ some .powerDown ∨ linesRest (tickLines s) n = false) : dcTick s = tickLines s :=
  forEach_of_idle fun n => endPowerDown_of_rest (h n)

theorem switchDone_of_entering {x : Line} {sp : BitVec 2} (hdc : x.dc = .switching) (h : x.entering = some sp) :
    (switchDone x).spanNow = sp ∧ (switchDone x).entering = none ∧ (switchDone x).dc = (if x.goal.span ≠ sp then .phase1 else .phase3) ∧
    (switchDone x).codeNow = x.codeNow := by
  rw [switchDone, hdc, h]
  dsimp only
  split <;> exact ⟨rfl, rfl, rfl, rfl⟩

/-! ## The commands -/

section
variable {s : State} {f : Func} {l : LineId} (val : Word) (g : Grant)

theorem counted_countLine (l : LineId) (s : State) : counted g (countLine l) s = if g = .held then countLine l s else s := rfl

/-- The count of a write that found its element held is all that differs. -/
theorem counted_countLine_changes {P : List Part} (l : LineId) (s : State) (hp : Part.sub [.fasts] P = true) : Changes P s (counted g (countLine l) s) :=
  Changes.ite (fun _ => modFast_changes _ _ _ hp (Changes.refl _ s)) fun _ => Changes.refl _ s

theorem getFast_counted (s : State) : (getFast (counted g (countLine l) s) l).waiting = (getFast s l).waiting ∧
    (getFast (counted g (countLine l) s) l).posts = (getFast s l).posts := by
  cases g
  · exact ⟨rfl, rfl⟩
  · have h : getFast (counted .held (countLine l) s) l = _ := getFast_modFast ..
    rw [h]
    exact ⟨rfl, rfl⟩

theorem getFast_counted_other {m : LineId} (h : m ≠ l) (s : State) : getFast (counted g (countLine l) s) m = getFast s m := by
  cases g
  · rfl
  · exact getFast_modFast_other h _ _

theorem flDcWrite_effect (hadm : admits s f (.line l .dc) = true) (ok : dcCode s l (bits val 20 2) = none) :
    ∃ t, exec (.flDcWrite f l val g) s = .next t ∧
      (restsSafe s l.stall = true → t = counted g (countLine l) s) ∧
      (restsSafe s l.stall = false →
        getLine t l = setGoal { span := bits val 20 2, code := bits val 0 18 } (getLine s l) ∧
        (getLine t l).goal = { span := bits val 20 2, code := bits val 0 18 } ∧ (getLine t l).codeNow = (getLine s l).codeNow) ∧
      (∀ m, m ≠ l → getLine t m = getLine s m) ∧ Changes [.lines] (counted g (countLine l) s) t := by
  have same := counted_countLine_changes (P := [.fasts]) g l s (by decide)
  have code : dcCode (counted g (countLine l) s) l (dcPoint val).span = none := by
    rw [← ok]; simp only [dcCode, same.getLine, same.getGroup]; rfl
  have element := hostElement_of_admits hadm g (countLine l) (code := fun s => dcCode s l (dcPoint val).span) code (grantDc l (dcPoint val))
  have rests : restsSafe (counted g (countLine l) s) l.stall = restsSafe s l.stall := by simp only [restsSafe, same.getStall]
  refine ⟨_, congrArg Host.Outcome.next element, ?_⟩
  rw [grantDc, rests]
  cases restsSafe s l.stall with
  | true => exact ⟨fun _ => rfl, (fun h => by cases h), fun m _ => same.getLine m, Changes.refl _ _⟩
  | false =>
    rw [if_neg Bool.false_ne_true, getLine_modLine, same.getLine]
    refine ⟨(fun h => by cases h), fun _ => ⟨rfl, goal_setGoal _ _, (sameDc_setGoal _ _).2.2⟩, fun m hm => ?_,
      modLine_changes _ _ _ (by decide) (Changes.refl _ _)⟩
    rw [getLine_modLine_other hm, same.getLine]

theorem flCurbWrite_effect (hadm : admits s f (.line l .curb) = true) (step : bits val 0 16 ≠ (0 : BitVec 16)) (period : bits val 16 16 ≠ (0 : BitVec 16))
    (good : (getLine s l).persistBad = false) :
    ∃ t, exec (.flCurbWrite f l val) s = .next t ∧
      getLine t l = { getLine s l with curb := { step := bits val 0 16, period := bits val 16 16 } } ∧
      (tabGet {} t.persist.flux (lineKey l)).a.curb = { step := bits val 0 16, period := bits val 16 16 } ∧
      (tabGet {} t.persist.flux (lineKey l)).b = (tabGet {} t.persist.flux (lineKey l)).a ∧
      fluxSeq (tabGet {} t.persist.flux (lineKey l)).a =
        max (fluxSeq (tabGet {} s.persist.flux (lineKey l)).a) (fluxSeq (tabGet {} s.persist.flux (lineKey l)).b) + 1 ∧
      (∀ m, m ≠ l → getLine t m = getLine s m) ∧ Changes [.persist, .lines] s t := by
  have write := hostCheck_of_admits hadm
    (code := fun _ => if bits val 0 16 = (0 : BitVec 16) ∨ bits val 16 16 = (0 : BitVec 16) then some 0x1501 else none)
    (if_neg (not_or.mpr ⟨step, period⟩)) (writeCurb l val)
  have line (m : LineId) (u : State) : getLine (persistLine l u) m = getLine u m :=
    (persistLine_changes (P := [.persist]) l _ (by decide) (Changes.refl _ _)).getLine m
  have own : getLine (persistLine l (modLine l (fun x => { x with curb := { step := bits val 0 16, period := bits val 16 16 } }) s)) l = _ :=
    (line l _).trans (getLine_modLine ..)
  obtain ⟨a, b⟩ := persistLine_effect l (modLine l (fun x => { x with curb := { step := bits val 0 16, period := bits val 16 16 } }) s)
  refine ⟨_, congrArg Host.Outcome.next write, ?_⟩
  rw [writeCurb, leaveHalter_of_good (by rw [own]; exact good)]
  refine ⟨own, ?_, b, ?_, fun m hm => (line m _).trans (getLine_modLine_other hm _ _),
    persistLine_changes _ _ (by decide) (modLine_changes _ _ _ (by decide) (Changes.refl _ s))⟩
  · rw [a, getLine_modLine]
  · rw [a]; rfl

theorem flSafeWrite_effect (hadm : admits s f (.line l .safe) = true) :
    ∃ t, exec (.flSafeWrite f l val) s = .next t ∧ (getLine t l).safe = { span := bits val 20 2, code := bits val 0 18 } ∧
      (getLine t l).safeWritten = (getLine s l).persistBad ∧
      (tabGet {} t.persist.flux (lineKey l)).a.safe = { span := bits val 20 2, code := bits val 0 18 } ∧
      (tabGet {} t.persist.flux (lineKey l)).b = (tabGet {} t.persist.flux (lineKey l)).a ∧
      (getLine t l).goal = (if restsSafe s l.stall then { span := bits val 20 2, code := bits val 0 18 } else (getLine s l).goal) ∧
      (∀ m, m ≠ l → getLine t m = getLine s m) ∧ Changes [.persist, .lines] s t := by
  obtain ⟨safe, written, persist, goal, other⟩ := writeSafe_effect l val s
  obtain ⟨a, b⟩ := persistLine_effect l (modLine l (fun x => { x with safe := dcPoint val, safeWritten := x.persistBad }) s)
  have write : hostWrite f (.line l .safe) (writeSafe l val) s = writeSafe l val s := hostWrite_of_admits hadm _
  refine ⟨_, congrArg Host.Outcome.next write, safe, written, ?_, ?_, goal, other, writeSafe_changes _ _ _ (by decide) (Changes.refl _ s)⟩
  · rw [persist, safeWrite, a, getLine_modLine]; rfl
  · rw [persist]; exact b

theorem flCtlWrite_effect (hadm : admits s f (.line l .ctl) = true) (ok : genCode s l (bits val 16 2) = none) :
    ∃ t, exec (.flCtlWrite f l val) s = .next t ∧ (getFast t l).en = bit val 8 ∧ (getLine t l).genMode = bits val 16 2 ∧
      (bits val 16 2 ≠ (0 : BitVec 2) → bits val 16 2 ≠ (getLine s l).genMode → (getLine t l).dc = (getLine s l).dc ∧ (getLine t l).genRunning = false) ∧
      (bits val 16 2 = (getLine s l).genMode → getLine t l = getLine s l) ∧
      (bit val 8 = false → (getFast s l).en = true → (getFast t l).level = 0 ∧ ((getFast s l).waiting = [] → (getFast t l).posts = [])) ∧
      (∀ m, m ≠ l → getLine t m = getLine s m ∧ getFast t m = getFast s m) ∧ Changes [.funcs, .lines, .fasts] s t := by
  have write := hostCheck_of_admits hadm (code := fun s => genCode s l (bits val 16 2)) ok (writeFlCtl l val)
  obtain ⟨lines, en, stops, fasts, changes⟩ := writeFlCtl_effect l val s
  obtain ⟨mode, fresh, same, other, -⟩ := setMode_effect l (bits val 16 2) s
  refine ⟨_, congrArg Host.Outcome.next write, en, ?_, fun h k => ?_, fun h => ?_, stops, fun m hm => ⟨?_, fasts m hm⟩, changes⟩
  · rw [lines]; exact mode
  · rw [lines]; exact fresh h k
  · rw [lines]; exact same h
  · rw [lines]; exact other m hm

theorem generatorConfigWrite_effect {reg : GenReg} (hadm : admits s f (.line l (genReg reg)) = true) (ok : genWriteCode s l reg = none) :
    ∃ t, exec (.generatorConfigWrite f l reg val) s = .next t ∧ getLine t l = setGen reg val (getLine s l) ∧
      (∀ m, m ≠ l → getLine t m = getLine s m) ∧ Changes [.lines] s t :=
  ⟨_, congrArg Host.Outcome.next (hostCheck_of_admits hadm (code := fun s => genWriteCode s l reg) ok (modLine l (setGen reg val))),
    getLine_modLine .., fun _ hm => getLine_modLine_other hm _ _, modLine_changes _ _ _ (by decide) (Changes.refl _ s)⟩

theorem flFastSet_effect (hadm : admits s f (.line l .fastSet) = true) (ok : fastCode s l false = none) (none : (getFast s l).waiting = []) :
    ∃ t, exec (.flFastSet f l val g) s = .next t ∧
      (fastFull (getFast s l) = false → getFast t l = { getFast (counted g (countLine l) s) l with
        posts := insertPost { frame := earliestFast s, level := bits val 0 16 } (getFast s l).posts }) ∧
      (fastFull (getFast s l) = true → getFast t l = { getFast (counted g (countLine l) s) l with waiting := [(f, bits val 0 16)] }) ∧
      (∀ m, m ≠ l → getFast t m = getFast s m) ∧ Changes [.fasts] s t := by
  have same := counted_countLine_changes (P := [.fasts]) g l s (by decide)
  have code : fastCode (counted g (countLine l) s) l false = .none := by
    rw [← ok]; simp only [fastCode, fastOff, hasImage, imageOf, same.getLine, same.getGroup, same.stallImages]; rfl
  have element := hostElement_of_admits hadm g (countLine l) (code := fun s => fastCode s l false) code (fastSet f l val)
  obtain ⟨waiting, posts⟩ := getFast_counted (l := l) g s
  have full : fastFull (getFast (counted g (countLine l) s) l) = fastFull (getFast s l) := by rw [fastFull, posts]; rfl
  have soon : earliestFast (counted g (countLine l) s) = earliestFast s := by simp only [earliestFast, same.clock]
  refine ⟨_, congrArg Host.Outcome.next element, ?_⟩
  cases room : fastFull (getFast s l) with
  | false =>
    obtain ⟨own, other, changes⟩ := fastSet_of_free (waiting.trans none) f val (full.trans room) code
    rw [soon, posts] at own
    exact ⟨fun _ => own, (fun h => by cases h), fun m hm => (other m hm).trans (getFast_counted_other g hm s), same.trans changes⟩
  | true =>
    obtain ⟨own, other, changes⟩ := fastSet_of_full (waiting.trans none) f val (full.trans room)
    exact ⟨(fun h => by cases h), fun _ => own, fun m hm => (other m hm).trans (getFast_counted_other g hm s), same.trans changes⟩

theorem edgeTableWrite_effect {k : Fin 32} (hadm : admits s f (.edge l k) = true) (ok : edgeCode s l.stall = none) :
    ∃ t, exec (.edgeTableWrite f l k val) s = .next t ∧ edgeTap (getFast t l) k.val = bits val 0 16 ∧
      (∀ j, j ≠ k.val → edgeTap (getFast t l) j = edgeTap (getFast s l) j) ∧ (∀ m, m ≠ l → getFast t m = getFast s m) ∧ Changes [.fasts] s t := by
  have write := hostCheck_of_admits hadm (code := fun s => edgeCode s l.stall) ok (modFast l fun x => { x with edge := tabSet x.edge k.val (bits val 0 16) })
  refine ⟨_, congrArg Host.Outcome.next write, ?_, fun j hj => ?_, fun m hm => getFast_modFast_other hm _ _,
    modFast_changes _ _ _ (by decide) (Changes.refl _ s)⟩
  · rw [getFast_modFast, edgeTap, tabGet_tabSet]
  · rw [getFast_modFast, edgeTap, tabGet_tabSet_ne hj.symm]; rfl

end

theorem execDcTick_effect (s : State) :
    ∃ t, exec .dcTick s = .next t ∧
      (∀ l, (getStall s l.stall).cmd ≠ some .powerDown → getLine t l = tickLine (stallPlays s l.stall) l.num.val (getLine s l)) ∧
      (∀ n, (getStall s n).cmd = some .powerDown → linesRest (tickLines s) n = true →
        (getStall t n).life = .off ∧ (getStall t n).cmd = none ∧ (getStall t n).op = opDone 0 ∧ (getStall t n).powered = false) ∧
      (∀ n, ((getStall s n).cmd ≠ some .powerDown ∨ linesRest (tickLines s) n = false) → getStall t n = getStall s n) ∧
      ((∀ n, (getStall s n).cmd ≠ some .powerDown ∨ linesRest (tickLines s) n = false) → Changes [.lines] s t) := by
  refine ⟨dcTick s, rfl, fun l h => ?_, fun n hcmd hrest => ?_, fun n h => (dcTick_apart h).stall, fun h => ?_⟩
  · rw [(dcTick_apart (.inl h)).lines l rfl, getLine_tickLines]
  · obtain ⟨life, cmd, op, powered⟩ := dcTick_ends hcmd hrest
    exact ⟨life, cmd, op, powered⟩
  · rw [dcTick_of_rest h]
    exact tickLines_changes _ (by decide) (Changes.refl _ s)

/-- Settles O41: the commands of flux lines by their effects on the line's record and its fast path.  Two clauses are the model's reading and no word of
the spec: that an FL_DC write in OFF, in STABLED and in the ramp of a POWER_DOWN leaves the goal as it was is log entry 87 (with 24), and the order
in which a fifth post of the host waits is log entry 91. -/
theorem fluxLinesFollowTheirRegisters : Obligations.FluxLinesFollowTheirRegisters := by
  unfold Obligations.FluxLinesFollowTheirRegisters
  refine ⟨fun s f l val g u hu => ?_, execDcTick_effect, fun s l sp hdc hen => ?_, fun s l p rest posts none => ?_⟩
  · rw [← counted_countLine] at hu
    subst hu
    exact ⟨flDcWrite_effect val g, flCurbWrite_effect val, flSafeWrite_effect val, flCtlWrite_effect val, fun reg => generatorConfigWrite_effect val,
      flFastSet_effect val g, fun k => edgeTableWrite_effect val⟩
  · obtain ⟨span, entering, dc, code⟩ := switchDone_of_entering hdc hen
    have own := getLine_modLine l switchDone s
    exact ⟨_, rfl, by rw [own, span], by rw [own, entering], by rw [own, dc], by rw [own, code], fun m hm => getLine_modLine_other hm _ _,
      modLine_changes _ _ _ (by decide) (Changes.refl _ s)⟩
  · obtain ⟨left, plays, rests, other⟩ := fastChange_effect none posts
    exact ⟨_, rfl, left, plays, rests, other, fastChange_changes _ _ (by decide) (Changes.refl _ s)⟩

end Sys2Proof.Machine
end

section
/-!
PROOFS. Chapter 10: the faults of a flux group (O42).
-/

namespace Sys2Proof.Machine

set_option Elab.async false

open Sys2Proof

/-! ## A line whose group is faulted (R448) -/

/-- A write that waits where the group is faulted is refused: no post comes of it. -/
theorem posts_grantOne_of_faulted {l : LineId} {s : State} (h : (getGroup s (lineGroup l)).faulted = true) : (getFast (grantOne l s) l).posts = (getFast s l).posts := by
  have code (rest : List (Func × BitVec 16)) : fastCode (modFast l (fun x => { x with waiting := rest }) s) l false = some 0x1502 := if_pos (.inl h)
  have refused (f : Func) (u : State) : getFast (refuseReg f (.line l .fastSet) 0x1502 u) l = getFast u l :=
    (refuseReg_changes (P := [.funcs]) _ _ _ _ (by decide) (Changes.refl _ u)).getFast l
  unfold grantOne
  dsimp only
  split
  · rfl
  · split
    · rfl
    · rw [code]
      dsimp only
      rw [refused, getFast_modFast]

theorem posts_grantWaiting_of_faulted {l : LineId} {s : State} (h : (getGroup s (lineGroup l)).faulted = true) :
    (getFast (grantWaiting l s) l).posts = (getFast s l).posts := by
  refine (forEach_keep (fun _ => grantOne l) (fun t => (getGroup t (lineGroup l)).faulted = true ∧ (getFast t l).posts = (getFast s l).posts)
    (fun _ t ⟨faulted, posts⟩ => ⟨?_, (posts_grantOne_of_faulted faulted).trans posts⟩) _ _ ⟨h, rfl⟩).2
  rw [(grantOne_changes (P := [.funcs, .fasts]) l t (by decide) (Changes.refl _ t)).getGroup, faulted]

/-- The fast path of a line whose group is faulted: at 0 with no post, and the writes that waited refused. -/
theorem fastZero_effect (l : LineId) (s : State) : (getFast (fastZero l s) l).level = 0 ∧
    ((getGroup s (lineGroup l)).faulted = true → (getFast (fastZero l s) l).posts = []) ∧ ∀ m, m ≠ l → getFast (fastZero l s) m = getFast s m := by
  obtain ⟨-, other⟩ := getFast_countClips l s.clock.sched s
  have count : Changes [.funcs, .fasts] s (modFast l (fun x => { x with level := 0, old := 0, changeAt := none, posts := [] }) (countClips l s.clock.sched s)) :=
    modFast_changes _ _ _ (by decide) (countClips_changes _ _ _ (by decide) (Changes.refl _ s))
  have zero := getFast_modFast l (fun x => { x with level := 0, old := 0, changeAt := none, posts := [] }) (countClips l s.clock.sched s)
  have same := sameLevel_grantWaiting l (modFast l (fun x => { x with level := 0, old := 0, changeAt := none, posts := [] }) (countClips l s.clock.sched s))
  unfold fastZero
  refine ⟨?_, fun h => ?_, fun m hm => ?_⟩
  · rw [same.fast, zero]
  · rw [posts_grantWaiting_of_faulted (by rw [count.getGroup]; exact h), zero]
  · rw [same.other m hm, getFast_modFast_other hm, other m hm]

/-! ## A group fault (R447 to R449) -/

/-- What a group fault makes of a line: one that holds at 0 V in halter stays. -/
def faulted (cause : BitVec 4) (x : Line) : Line := if x.dc = .halter then x else faultLine cause x

/-- A group fault at one line of its group. -/
def faultOne (cause : BitVec 4) (l : LineId) (s : State) : State := fastZero l (modLine l (fun x => if x.dc = .halter then x else faultLine cause x) s)

theorem faultOne_changes (cause : BitVec 4) (l : LineId) (s : State) : Changes [.funcs, .lines, .fasts] s (faultOne cause l s) :=
  fastZero_changes _ _ (by decide) (modLine_changes _ _ _ (by decide) (Changes.refl _ s))

theorem getLine_faultOne (cause : BitVec 4) (l : LineId) (s : State) (m : LineId) :
    getLine (faultOne cause l s) m = getLine (modLine l (fun x => if x.dc = .halter then x else faultLine cause x) s) m :=
  (fastZero_changes (P := [.funcs, .fasts]) l _ (by decide) (Changes.refl _ _)).getLine m

theorem mem_groupLines (g : GroupId) (l : LineId) : l ∈ groupLines g ↔ lineGroup l = g := by
  obtain ⟨n, i⟩ := l
  obtain ⟨m, j⟩ := g
  simp only [groupLines, List.mem_map, List.mem_finRange, true_and, lineGroup]
  constructor
  · rintro ⟨k, h⟩
    cases h
    exact congrArg (GroupId.mk _) (Fin.ext (by simp only; omega))
  · intro h
    cases h
    exact ⟨⟨i.val % 8, by omega⟩, congrArg (LineId.mk _) (Fin.ext (by simp only; omega))⟩

theorem nodup_groupLines (g : GroupId) : (groupLines g).Nodup := by
  refine (List.nodup_finRange 8).map fun i j h => Fin.ext ?_
  have num := congrArg (fun l : LineId => l.num.val) h
  simp only at num
  omega

/-- The lines of a group after its fault. -/
def faultLines (g : GroupId) (cause : BitVec 4) (s : State) : State :=
  forEach (groupLines g) (fun l s => fastZero l (modLine l (fun x => if x.dc = .halter then x else faultLine cause x) s)) s

theorem getLine_faultLines (g : GroupId) (cause : BitVec 4) (s : State) (l : LineId) :
    getLine (faultLines g cause s) l = if l ∈ groupLines g then faulted cause (getLine s l) else getLine s l :=
  forEach_keyed getLine (faultOne cause) (fun _ => faulted cause) (fun _ => True) (fun _ _ _ => trivial)
    (fun k u _ => by rw [getLine_faultOne, getLine_modLine]; rfl) (fun k j u _ hkj => by rw [getLine_faultOne, getLine_modLine_other hkj.symm])
    _ (nodup_groupLines g) s trivial l

/-- The faulted group's fast paths stand at 0 with no post. -/
theorem getFast_faultLines {g : GroupId} {s : State} (h : (getGroup s g).faulted = true) (cause : BitVec 4) {l : LineId} (hl : l ∈ groupLines g) :
    (getFast (faultLines g cause s) l).level = 0 ∧ (getFast (faultLines g cause s) l).posts = [] := by
  have near (k : LineId) (u : State) : (getGroup (faultOne cause k u) g).faulted = (getGroup u g).faulted := by rw [(faultOne_changes cause k u).getGroup]
  refine forEach_at (f := faultOne cause) (I := fun t => (getGroup t g).faulted = true) (J := fun t => (getFast t l).level = 0 ∧ (getFast t l).posts = []) l
    (fun k u _ hu => (near k u).trans hu) (fun u hu => ?_) (fun k u hk hu => ?_) (nodup_groupLines g) hl h
  · obtain ⟨level, posts, -⟩ := fastZero_effect l (modLine l (fun x => if x.dc = .halter then x else faultLine cause x) u)
    exact ⟨level, posts (by rw [(mem_groupLines g l).mp hl]; exact hu)⟩
  · have same : getFast (faultOne cause k u) l = getFast u l := (fastZero_effect k _).2.2 l hk.symm
    rw [same]
    exact hu

theorem getFast_faultLines_other (g : GroupId) (cause : BitVec 4) (s : State) {l : LineId} (hl : l ∉ groupLines g) :
    getFast (faultLines g cause s) l = getFast s l := by
  unfold faultLines forEach
  refine List.foldlRecOn (motive := fun t => getFast t l = getFast s l) (groupLines g) _ rfl fun t ht k hk => ?_
  exact ((fastZero_effect k _).2.2 l fun e => hl (e ▸ hk)).trans ht

theorem faultLines_changes (g : GroupId) (cause : BitVec 4) (s : State) : Changes [.funcs, .lines, .fasts] s (faultLines g cause s) := by
  unfold faultLines
  exact forEach_changes _ _ _ (fun l u hu => hu.trans (faultOne_changes cause l u)) (Changes.refl _ s)

/-- The groups of a module when one is faulted. -/
def faultGroup (g : GroupId) (cause : BitVec 4) (s : State) : State := modGroup g (fun x => { x with cause, faulted := true }) s

/-- After the lines, a fault records its code and marks the shots of the riders that posted to the group. -/
theorem groupFault_after (g : GroupId) (cause : BitVec 4) (s : State) :
    Changes [.funcs, .riders] (faultLines g cause (faultGroup g cause s)) (groupFault g cause s) :=
  markGroup_changes _ _ (by decide) (record_changes _ _ _ _ _ _ (by decide) (Changes.refl _ _))

/-- What a group fault leaves: the group with its cause, its fast paths at 0, its lines bound for their safe values, and the code in the host's log. -/
structure GroupFaulted (g : GroupId) (cause : BitVec 4) (s t : State) : Prop where
  because : (getGroup t g).cause = cause
  stands : (getGroup t g).faulted = true
  noted : noted t 0 (groupFaultCode cause) = true
  fast : ∀ l ∈ groupLines g, (getFast t l).level = 0 ∧ (getFast t l).posts = []
  line : ∀ l ∈ groupLines g, getLine t l = faulted cause (getLine s l)
  apart : ∀ l, l ∉ groupLines g → getLine t l = getLine s l ∧ getFast t l = getFast s l
  others : ∀ h, h ≠ g → getGroup t h = getGroup s h
  changes : Changes [.funcs, .riders, .lines, .fasts, .groups] s t

theorem groupFault_effect (g : GroupId) (cause : BitVec 4) (s : State) : GroupFaulted g cause s (groupFault g cause s) := by
  have first : Changes [.groups] s (faultGroup g cause s) := modGroup_changes _ _ _ (by decide) (Changes.refl _ s)
  have lines : Changes [.funcs, .lines, .fasts] (faultGroup g cause s) (faultLines g cause (faultGroup g cause s)) := faultLines_changes ..
  have after := groupFault_after g cause s
  have group : getGroup (faultGroup g cause s) g = { getGroup s g with cause, faulted := true } := getGroup_modGroup ..
  have own : getGroup (groupFault g cause s) g = _ := (after.getGroup g).trans ((lines.getGroup g).trans group)
  refine ⟨by rw [own], by rw [own], ?_, fun l hl => ?_, fun l hl => ?_, fun l hl => ⟨?_, ?_⟩, fun h hh => ?_, ?_⟩
  · have marked (u : State) : Changes [.riders] u (markGroup g u) := markGroup_changes _ _ (by decide) (Changes.refl _ _)
    exact ((marked _).noted 0 _).trans (noted_record ..)
  · rw [after.getFast]
    exact getFast_faultLines (by rw [group]) cause hl
  · rw [after.getLine, getLine_faultLines, if_pos hl, first.getLine]
  · rw [after.getLine, getLine_faultLines, if_neg hl, first.getLine]
  · rw [after.getFast, getFast_faultLines_other g cause _ hl, first.getFast]
  · rw [after.getGroup, lines.getGroup]
    exact getGroup_modGroup_other hh _ _
  · exact (first.mono (by decide)).trans ((lines.mono (by decide)).trans (after.mono (by decide)))

/-! ## A line under a group fault (R448) -/

/-- A faulted line has a new goal, with its generator stopped: the safe value but where the reference fails, which ends a switch of span. -/
theorem faultLine_setsGoal (cause : BitVec 4) (x : Line) : ∃ (g : DcPoint) (y : Line), faultLine cause x = setGoal g y ∧ y.genMode = 0 ∧
    y.spanNow = x.spanNow ∧ (cause ≠ 3 → g = x.safe) ∧ (cause = 3 → x.dc = .switching → y.entering = none) := by
  unfold faultLine
  dsimp only
  by_cases h : cause = 3
  · have stays (y : Line) : ∃ g, (if y.safe.span ≠ y.spanNow then setGoal { span := y.spanNow, code := 0 } y else setGoal y.safe y) = setGoal g y := by
      split <;> exact ⟨_, rfl⟩
    rw [if_pos h]
    obtain ⟨g, goal⟩ := stays (if (if x.dc = .generator then DcState.steady else x.dc) = .switching ∨ (if x.dc = .generator then DcState.steady else x.dc) = .phase1
      then { x with genMode := 0, genRunning := false, dc := .ramping, entering := none }
      else { x with genMode := 0, genRunning := false, dc := if x.dc = .generator then DcState.steady else x.dc })
    refine ⟨g, _, goal, ?_, ?_, fun k => absurd h k, fun _ moving => ?_⟩
    · simp only [apply_ite Line.genMode, ite_self]
    · simp only [apply_ite Line.spanNow, ite_self]
    · rw [moving]; rfl
  · rw [if_neg h]
    by_cases e : x.entering.getD x.spanNow = x.safe.span ∧ (if x.dc = .generator then DcState.steady else x.dc) = .phase1
    · exact ⟨_, _, if_pos e, rfl, rfl, fun _ => rfl, fun k => absurd k h⟩
    · exact ⟨_, _, if_neg e, rfl, rfl, fun _ => rfl, fun k => absurd k h⟩

theorem entering_setGoal (g : DcPoint) (x : Line) : (setGoal g x).entering = x.entering := by
  unfold setGoal
  dsimp only
  split
  · split
    · rfl
    · split <;> rfl
  · split <;> rfl
  · split <;> rfl
  · rfl

theorem faultLine_converter (x : Line) : (faultLine 2 x).genMode = 0 ∧ (faultLine 2 x).goal = x.safe := by
  obtain ⟨g, y, line, mode, -, goal, -⟩ := faultLine_setsGoal 2 x
  rw [line, (safeWritten_setGoal g y).2.2, goal_setGoal]
  exact ⟨mode, goal (by decide)⟩

theorem entering_faultLine {x : Line} (h : x.dc = .switching) : (faultLine 3 x).entering = none := by
  obtain ⟨g, y, line, -, -, -, ended⟩ := faultLine_setsGoal 3 x
  rw [line, entering_setGoal]
  exact ended rfl h

theorem spanNow_faultLine (cause : BitVec 4) (x : Line) : (faultLine cause x).spanNow = x.spanNow := by
  obtain ⟨g, y, line, -, span, -⟩ := faultLine_setsGoal cause x
  rw [line, (sameDc_setGoal g y).1]
  exact span

theorem spanNow_faulted (cause : BitVec 4) (x : Line) : (faulted cause x).spanNow = x.spanNow := by
  unfold faulted
  split
  · rfl
  · exact spanNow_faultLine cause x

/-- Settles O42: a group fault by its effect on the group, its lines and their fast paths; CLEAR by the group's fault bit.  That SPAN_READBACK_CHECK
brings a fault of the DC reference too is log entry 183: the model's choice. -/
theorem groupFaultsZeroTheFastPath : Obligations.GroupFaultsZeroTheFastPath := by
  unfold Obligations.GroupFaultsZeroTheFastPath
  refine ⟨fun s g => ?_, fun s l => ?_, fun s l sp span hdc hen => ⟨fun same => ?_, fun differs => ?_⟩, fun s f g reports hadm ok => ?_⟩
  · have fault := groupFault_effect g 2 s
    refine ⟨_, rfl, fault.because, fault.stands, fault.noted, fun l hl => ?_, fault.apart, fault.others, fault.changes⟩
    obtain ⟨level, posts⟩ := fault.fast l hl
    rw [fault.line l hl, faulted]
    refine ⟨level, posts, fun h => if_pos h, fun h => ?_⟩
    rw [if_neg h]
    exact faultLine_converter _
  · have fault := groupFault_effect (lineGroup l) 3 s
    have own := fault.line l ((mem_groupLines _ _).mpr rfl)
    exact ⟨_, rfl, fault.because, fault.stands, fault.noted, (congrArg Line.spanNow own).trans (spanNow_faulted ..), fault.fast, fault.changes⟩
  · have check : spanReadback l (.span span) s = s := by simp only [spanReadback, hdc, hen, if_pos same]
    exact ⟨_, congrArg Host.Outcome.next check, rfl⟩
  · have fault := groupFault_effect (lineGroup l) 3 s
    have own := fault.line l ((mem_groupLines _ _).mpr rfl)
    have check : spanReadback l (.span span) s = groupFault (lineGroup l) 3 s := by simp only [spanReadback, hdc, hen, if_neg differs]
    have moving : faulted 3 (getLine s l) = faultLine 3 (getLine s l) := if_neg (by rw [hdc]; decide)
    exact ⟨_, congrArg Host.Outcome.next check, fault.because, fault.stands, fault.noted, by rw [own, moving, entering_faultLine hdc],
      by rw [own, spanNow_faulted], fault.fast, fault.changes⟩
  · exact ⟨_, congrArg Host.Outcome.next (hostCheck_of_admits hadm (code := clearCode f g reports) ok (modGroup g fun x => { x with faulted := false })),
      getGroup_modGroup .., fun h hh => getGroup_modGroup_other hh _ _, modGroup_changes _ _ _ (by decide) (Changes.refl _ s)⟩

end Sys2Proof.Machine
end

section
/-!
PROOFS. Chapter 11: the commands of QDIR, its audits and the pages of the HBM (O45).
-/

namespace Sys2Proof.Machine

set_option Elab.async false

open Sys2Proof

/-! ## A command of QDIR and its end (R487, R491) -/

/-- An accepted command of QDIR takes its effect. -/
theorem qdirCommand_accepted {s : State} {f : Func} (hadm : admits s f (.qdir .cmd) = true) (still : fwSwitching s = false) (idle : s.qdir.cmd = none)
    {q : QueueId} {a : QueueAlloc} (alloc : queueAlloc s q = some a) (owns : mayAct f a.owner = true) (eff : State → State) :
    qdirCommand f (some q) eff s = eff s := by
  rw [qdirCommand, hostWrite_of_admits hadm]
  simp [alloc, owns, still, idle]

/-- The same for a command on the whole module, of the physical function. -/
theorem qdirCommand_of_module {s : State} {f : Func} (hadm : admits s f (.qdir .cmd) = true) (still : fwSwitching s = false) (idle : s.qdir.cmd = none)
    (physical : f.val = 0) (eff : State → State) : qdirCommand f none eff s = eff s := by
  rw [qdirCommand, hostWrite_of_admits hadm]
  simp [mayAct, physical, still, idle]

theorem noted_recordQdir (code : Code) (q : Option QueueId) (s : State) : noted (recordQdir code q s) 0 code = true := by
  unfold recordQdir
  split <;> exact noted_record ..

/-- What the end of a command of QDIR leaves. -/
structure QdirEnded (op : OpStatus) (s t : State) : Prop where
  qdir : t.qdir = { s.qdir with cmd := none, op, partialValid := false }
  noted : op.code ≠ 0 → noted t 0 op.code = true
  changes : Changes [.funcs, .irqs, .qdir] s t

theorem qdirEnd_ends (op : OpStatus) (q : Option QueueId) (s : State) : QdirEnded op s (qdirEnd op q s) := by
  have ended (u : State) : (raise 0x801 (setQdir (fun d => { d with cmd := none, op, partialValid := false }) u)).qdir =
      { u.qdir with cmd := none, op, partialValid := false } := by rw [(raise_changes (P := [.funcs, .irqs]) _ _ (by decide) (Changes.refl _ _)).qdir]; rfl
  have changes (u : State) : Changes [.funcs, .irqs, .qdir] u (raise 0x801 (setQdir (fun d => { d with cmd := none, op, partialValid := false }) u)) :=
    raise_changes _ _ (by decide) (setQdir_changes _ _ (by decide) (Changes.refl _ u))
  unfold qdirEnd
  by_cases h : op.code = 0
  · rw [if_pos h]
    exact ⟨ended s, fun k => absurd h k, changes s⟩
  · have logged : Changes [.funcs] s (recordQdir op.code q s) := recordQdir_changes _ _ _ (by decide) (Changes.refl _ s)
    rw [if_neg h]
    refine ⟨by rw [ended, logged.qdir], fun _ => ?_, (logged.mono (by decide)).trans (changes _)⟩
    rw [noted_raise]
    exact noted_recordQdir ..

/-! ## FLUSH (R467, R469) -/

/-- The spill pages of a flushed queue are freed one by one. -/
theorem pages_flushQueue (q : QueueId) (s : State) : (getQueue (flushQueue q s) q).pages = 0 ∧
    (getQueue (flushQueue q s) q).freeing = (getQueue s q).freeing + (getQueue s q).pages := by
  unfold flushQueue
  rw [getQueue_modQueue, getQueue_releasePages]
  exact ⟨rfl, rfl⟩

/-- A flush in progress. -/
def flushing (q : QueueId) (s : State) : State :=
  setQdir (fun d => { d with cmd := some (.flush q), op := opStart, partialValid := true, result := BitVec.ofNat 31 (flushCount (getQueue s q)),
                             flushPages := (getQueue s q).pages, openDropped := hasStaged (getQueue s q) }) (flushQueue q s)

theorem flushing_changes (q : QueueId) (s : State) : Changes [.queues, .qdir] s (flushing q s) :=
  setQdir_changes _ _ (by decide) (flushQueue_changes _ _ (by decide) (Changes.refl _ s))

theorem startFlush_of_spilled {q : QueueId} {s : State} (h : (getQueue s q).pages ≠ 0) : startFlush q s = flushing q s := if_neg h

theorem startFlush_of_dry {q : QueueId} {s : State} (h : (getQueue s q).pages = 0) :
    startFlush q s = qdirEnd (opDone (if hasStaged (getQueue s q) then 0x0801 else 0)) (some q) (flushing q s) := if_pos h

theorem getQueue_flushing (q : QueueId) (s : State) (p : QueueId) : getQueue (flushing q s) p = getQueue (flushQueue q s) p := rfl

/-! ## BOOK_AUDIT_SETTLE_POINT (R486) -/

/-- The end of an audit: its values, and its outcome by their sum. -/
theorem auditEnd_effect (a b c d sum total : Nat) (q : Option QueueId) (s : State) :
    (auditEnd sum total q (setAudit a b c d s)).qdir.cmd = none ∧
    (auditEnd sum total q (setAudit a b c d s)).qdir.audit0 = BitVec.ofNat 32 a ∧
    (auditEnd sum total q (setAudit a b c d s)).qdir.audit1 = BitVec.ofNat 32 b ∧
    (auditEnd sum total q (setAudit a b c d s)).qdir.audit2 = BitVec.ofNat 32 c ∧
    (auditEnd sum total q (setAudit a b c d s)).qdir.audit3 = BitVec.ofNat 32 d ∧
    (sum = total → (auditEnd sum total q (setAudit a b c d s)).qdir.op = opDone 0) ∧
    (sum ≠ total → (auditEnd sum total q (setAudit a b c d s)).qdir.op.state = .failed ∧
      (auditEnd sum total q (setAudit a b c d s)).qdir.op.code = 0x3805 ∧ noted (auditEnd sum total q (setAudit a b c d s)) 0 0x3805 = true) ∧
    Changes [.funcs, .irqs, .qdir] s (auditEnd sum total q (setAudit a b c d s)) := by
  have ends := qdirEnd_ends (if sum = total then opDone 0 else opEnd .failed 0x3805 (setAudit a b c d s).qdir.op) q (setAudit a b c d s)
  have first : Changes [.qdir] s (setAudit a b c d s) := setQdir_changes _ _ (by decide) (Changes.refl _ s)
  rw [auditEnd]
  refine ⟨by rw [ends.qdir], by rw [ends.qdir]; rfl, by rw [ends.qdir]; rfl, by rw [ends.qdir]; rfl, by rw [ends.qdir]; rfl, fun h => ?_, fun h => ?_,
    (first.mono (by decide)).trans ends.changes⟩
  · rw [ends.qdir, if_pos h]
  · have logged := ends.noted
    rw [if_neg h] at logged
    rw [ends.qdir, if_neg h]
    exact ⟨rfl, rfl, logged (show (0x3805 : Code) ≠ 0 by decide)⟩

/-- The moves of pages that an audit held change the page book and not the audit's values or its end. -/
structure AuditKept (s t : State) : Prop where
  cmd : t.qdir.cmd = s.qdir.cmd
  op : t.qdir.op = s.qdir.op
  audit0 : t.qdir.audit0 = s.qdir.audit0
  audit1 : t.qdir.audit1 = s.qdir.audit1
  audit2 : t.qdir.audit2 = s.qdir.audit2
  audit3 : t.qdir.audit3 = s.qdir.audit3
  changes : Changes [.qdir] s t

theorem AuditKept.refl (s : State) : AuditKept s s := ⟨rfl, rfl, rfl, rfl, rfl, rfl, Changes.refl _ s⟩

theorem AuditKept.movePages {s t : State} (h : AuditKept s t) (m : PageMove) : AuditKept s (movePages m t) := by
  cases m <;> exact ⟨h.cmd, h.op, h.audit0, h.audit1, h.audit2, h.audit3, movePages_changes _ _ (by decide) h.changes⟩

theorem auditKept_heldMoves (l : List PageMove) (s : State) :
    AuditKept s (forEach l movePages (setQdir (fun d => { d with heldMoves := [] }) s)) :=
  forEach_keep movePages (AuditKept s) (fun m _ h => h.movePages m) _ _
    ⟨rfl, rfl, rfl, rfl, rfl, rfl, setQdir_changes _ _ (by decide) (Changes.refl _ s)⟩

/-! ## Errors of the HBM (R485) -/

theorem satInc_satAdd {w : Nat} (x : BitVec w) (k : Nat) : satInc (satAdd x k) = satAdd x (k + 1) := by
  have small : min (x.toNat + k) (2 ^ w - 1) % 2 ^ w = min (x.toNat + k) (2 ^ w - 1) :=
    Nat.mod_eq_of_lt (by have := Nat.two_pow_pos w; omega)
  unfold satInc satAdd
  rw [BitVec.toNat_ofNat, small]
  congr 1
  omega

theorem satAdd_zero {w : Nat} (x : BitVec w) : satAdd x 0 = x := by
  unfold satAdd
  rw [Nat.add_zero, Nat.min_eq_left (by have := x.isLt; omega), BitVec.ofNat_toNat, BitVec.setWidth_eq]

/-- Single-bit errors: each counts and is recorded. -/
def singleErrors (k : Nat) (s : State) : State :=
  forEach (List.range k) (fun _ s => record 0x0802 8 0 0 0 (setQdir (fun d => { d with corrected := satInc d.corrected }) s)) s

theorem singleErrors_succ (k : Nat) (s : State) : singleErrors (k + 1) s =
    record 0x0802 8 0 0 0 (setQdir (fun d => { d with corrected := satInc d.corrected }) (singleErrors k s)) := by
  simp only [singleErrors, forEach, List.range_succ, List.foldl_append, List.foldl_cons, List.foldl_nil]

theorem qdir_singleErrors (k : Nat) (s : State) : (singleErrors k s).qdir = { s.qdir with corrected := satAdd s.qdir.corrected k } := by
  induction k with
  | zero => rw [satAdd_zero]; rfl
  | succ k ih =>
    rw [singleErrors_succ, (record_changes (P := [.funcs]) _ _ _ _ _ _ (by decide) (Changes.refl _ _)).qdir, ← satInc_satAdd]
    simp only [setQdir, ih]

theorem noted_singleErrors {k : Nat} (h : 0 < k) (s : State) : noted (singleErrors k s) 0 0x0802 = true := by
  obtain ⟨j, rfl⟩ := Nat.exists_eq_add_of_lt h
  rw [Nat.zero_add, singleErrors_succ]
  exact noted_record ..

theorem singleErrors_changes (k : Nat) (s : State) : Changes [.funcs, .qdir] s (singleErrors k s) := by
  unfold singleErrors
  exact forEach_changes _ _ _ (fun _ u hu => record_changes _ _ _ _ _ _ (by decide) (setQdir_changes _ _ (by decide) hu)) (Changes.refl _ s)

theorem hbmErrors_singles (k : Nat) (s : State) : hbmErrors { singles := k, double := none } s = singleErrors k s := rfl

/-- A double-bit error counts and is recorded (R485). -/
def doubleError (s : State) : State := record 0x3803 8 0 0 0 (setQdir (fun d => { d with uncorrected := satInc d.uncorrected }) s)

theorem doubleError_changes (s : State) : Changes [.funcs, .qdir] s (doubleError s) :=
  record_changes _ _ _ _ _ _ (by decide) (setQdir_changes _ _ (by decide) (Changes.refl _ s))

theorem uncorrected_doubleError (s : State) : (doubleError s).qdir.uncorrected = satInc s.qdir.uncorrected := by
  rw [doubleError, (record_changes (P := [.funcs]) _ _ _ _ _ _ (by decide) (Changes.refl _ _)).qdir]
  rfl

/-- The 32 bytes of a block that read as 0 (R485). -/
def zeroBlock (a : BitVec 36) (s : State) : State := setHbm (fun m => memWrite 0 m (hbmBlock a * 32) (List.replicate 32 0)) s

theorem hbm_zeroBlock (a : BitVec 36) (s : State) : (zeroBlock a s).hbm = memWrite 0 s.hbm (a.toNat / 32 * 32) (List.replicate 32 0) := by
  simp only [zeroBlock, setHbm, hbmBlock]

/-- A double-bit error outside the staging slots and the spill pages: its 32 bytes read as 0. -/
theorem hbmErrors_double {a : BitVec 36} (h : 0x8000000 ≤ a.toNat) (s : State) :
    hbmErrors { singles := 0, double := some (a, none) } s = zeroBlock a (doubleError s) := if_neg (by omega)

theorem getQueue_pageFreed (s : State) (q : QueueId) : getQueue (pageFreed s) q = getQueue s q := rfl

/-- Settles O45: the commands of QDIR and the pages of the HBM.  That a ring's pages return one by one from its first is log entry 62, and 0x1805 for
every other BAR2 write outside the slots is log entry 22: the model's choices. -/
theorem qdirFlushesAuditsAndScrubs : Obligations.QdirFlushesAuditsAndScrubs := by
  unfold Obligations.QdirFlushesAuditsAndScrubs
  refine ⟨fun s f hadm still idle => ⟨fun q a alloc owns => ⟨fun dry => ?dry, fun spilled => ?spilled, fun quiet => ?audit⟩, fun physical => ⟨?pages, ?scrub⟩⟩,
    fun s hcmd => ?pageBook, fun s q a hcmd alloc held => ?queueBook, fun s free => ⟨fun q some => ?returned, fun n p k more ring => ?ring, fun q none last hcmd => ?flushed⟩,
    fun s k => ⟨?singles, fun a high => ?double, fun hcmd => ?passed⟩, fun s f addr bytes reach some => ⟨fun k slot fits free => ?slot, fun high none => ?other⟩⟩
  case dry =>
    have ends := qdirEnd_ends (opDone (if hasStaged (getQueue s q) then 0x0801 else 0)) (.some q) (flushing q s)
    have queue (p : QueueId) := (ends.changes.getQueue p).trans (getQueue_flushing q s p)
    have emptied := flushQueue_empties q s
    refine ⟨_, congrArg Host.Outcome.next ((qdirCommand_accepted hadm still idle alloc owns _).trans (startFlush_of_dry dry)), ?_, ?_, ?_, ?_,
      fun p hp => (queue p).trans (emptied.other p hp), ((flushing_changes q s).mono (by decide)).trans (ends.changes.mono (by decide))⟩
    · rw [queue, emptied.stored]
    · rw [ends.qdir]
    · rw [ends.qdir]; rfl
    · rw [ends.qdir]; rfl
  case spilled =>
    have emptied := flushQueue_empties q s
    obtain ⟨pages, freeing⟩ := pages_flushQueue q s
    exact ⟨_, congrArg Host.Outcome.next ((qdirCommand_accepted hadm still idle alloc owns _).trans (startFlush_of_spilled spilled)),
      emptied.stored, rfl, rfl, pages, freeing, emptied.other, flushing_changes q s⟩
  case audit =>
    have accepted := qdirCommand_accepted hadm still idle alloc owns (fun s => if inCommit s (queueStall q) then qdirRefuse f 0x1801 s else startAudit (.auditQueue q) s)
    simp only [quiet, Bool.false_eq_true, if_false] at accepted
    exact ⟨_, congrArg Host.Outcome.next accepted, rfl, setQdir_changes _ _ (by decide) (Changes.refl _ s)⟩
  case pages =>
    exact ⟨_, congrArg Host.Outcome.next (qdirCommand_of_module hadm still idle physical _), rfl, setQdir_changes _ _ (by decide) (Changes.refl _ s)⟩
  case scrub =>
    exact ⟨_, congrArg Host.Outcome.next (qdirCommand_of_module hadm still idle physical _), rfl, setQdir_changes _ _ (by decide) (Changes.refl _ s)⟩
  case pageBook =>
    have settle : bookAudit s = forEach s.qdir.heldMoves movePages (setQdir (fun d => { d with heldMoves := [] })
        (auditEnd (s.qdir.free + s.qdir.allocated + s.qdir.transit) 1045952 none
          (setAudit s.qdir.free s.qdir.allocated s.qdir.transit 1045952 s))) := by simp only [bookAudit, hcmd]
    obtain ⟨cmd, a0, a1, a2, a3, good, bad, changes⟩ := auditEnd_effect s.qdir.free s.qdir.allocated s.qdir.transit 1045952
      (s.qdir.free + s.qdir.allocated + s.qdir.transit) 1045952 none s
    have kept := auditKept_heldMoves s.qdir.heldMoves (auditEnd (s.qdir.free + s.qdir.allocated + s.qdir.transit) 1045952 none
      (setAudit s.qdir.free s.qdir.allocated s.qdir.transit 1045952 s))
    refine ⟨_, congrArg Host.Outcome.next settle, kept.cmd.trans cmd, kept.audit0.trans a0, kept.audit1.trans a1, kept.audit2.trans a2, kept.audit3.trans a3,
      fun h => kept.op.trans (good h), fun h => ?_, (changes.mono (by decide)).trans (kept.changes.mono (by decide))⟩
    obtain ⟨state, code, logged⟩ := bad h
    rw [kept.op, kept.changes.noted 0]
    exact ⟨state, code, logged⟩
  case queueBook =>
    obtain ⟨cmd, -, -, -, a3, good, bad, changes⟩ := auditEnd_effect (bookTerms (getQueue s q)).1 (bookTerms (getQueue s q)).2.1 (bookTerms (getQueue s q)).2.2
      a.capacity ((bookTerms (getQueue s q)).1 + (bookTerms (getQueue s q)).2.1 + (bookTerms (getQueue s q)).2.2) a.capacity (.some q) s
    have pops := congrArg Queue.heldPops (changes.getQueue q)
    have settle : bookAudit s = modQueue q (fun x => { x with heldPops := [] }) (auditEnd
        ((bookTerms (getQueue s q)).1 + (bookTerms (getQueue s q)).2.1 + (bookTerms (getQueue s q)).2.2) a.capacity (.some q)
        (setAudit (bookTerms (getQueue s q)).1 (bookTerms (getQueue s q)).2.1 (bookTerms (getQueue s q)).2.2 a.capacity s)) := by
      simp only [bookAudit, hcmd, alloc, Option.map_some, Option.getD_some, pops, held]
      rfl
    have last (u : State) : Changes [.queues] u (modQueue q (fun x => { x with heldPops := [] }) u) := modQueue_changes _ _ _ (by decide) (Changes.refl _ u)
    refine ⟨_, congrArg Host.Outcome.next settle, cmd, good, fun h => ?_, a3, ?_, (changes.mono (by decide)).trans ((last _).mono (by decide))⟩
    · rw [(last _).noted 0]
      exact bad h
    · rw [getQueue_modQueue, changes.getQueue]
  case returned =>
    have release : pageRelease (.queue q) s = pageFreed (modQueue q (fun x => { x with releasing := x.releasing - 1 }) s) := by
      simp only [pageRelease, if_neg free, if_pos some]
    exact ⟨_, congrArg Host.Outcome.next release, (getQueue_pageFreed ..).trans (getQueue_modQueue ..), rfl, setQdir_changes _ _ (by decide) (modQueue_changes _ _ _ (by decide) (Changes.refl _ s))⟩
  case ring =>
    have release : pageRelease (.ring n) s = pageFreed (setQdir (fun d =>
        { d with ringTransit := tabSet d.ringTransit n.val (if k ≤ 1 then more else (p + 1, k - 1) :: more) }) s) := by
      simp only [pageRelease, if_neg free, ring]
    exact ⟨_, congrArg Host.Outcome.next release, tabGet_tabSet .., rfl, rfl, setQdir_changes _ _ (by decide) (setQdir_changes _ _ (by decide) (Changes.refl _ s))⟩
  case flushed =>
    have left : (getQueue (pageFreed (modQueue q (fun x => { x with freeing := x.freeing - 1 }) s)) q).freeing = 0 := by
      have own : getQueue (pageFreed (modQueue q (fun x => { x with freeing := x.freeing - 1 }) s)) q = _ :=
        (getQueue_pageFreed ..).trans (getQueue_modQueue ..)
      rw [own, last]
    have going : (pageFreed (modQueue q (fun x => { x with freeing := x.freeing - 1 }) s)).qdir.cmd = .some (.flush q) := hcmd
    have release : pageRelease (.queue q) s = qdirEnd (opDone (if s.qdir.openDropped then 0x0801 else 0)) (.some q)
        (pageFreed (modQueue q (fun x => { x with freeing := x.freeing - 1 }) s)) := by
      simp only [pageRelease, if_neg free, none, last, Nat.lt_irrefl, if_false, Nat.zero_lt_one, if_true, flushProgress, going, left]
      rfl
    have ends := qdirEnd_ends (opDone (if s.qdir.openDropped then 0x0801 else 0)) (.some q) (pageFreed (modQueue q (fun x => { x with freeing := x.freeing - 1 }) s))
    refine ⟨_, congrArg Host.Outcome.next release, ?_, by rw [ends.qdir], by rw [ends.qdir], ?_⟩
    · rw [ends.changes.getQueue, left]
    · exact (setQdir_changes _ _ (by decide) (modQueue_changes _ _ _ (by decide) (Changes.refl _ s))).trans (ends.changes.mono (by decide))
  case singles =>
    exact ⟨_, rfl, congrArg Qdir.corrected (qdir_singleErrors k s), fun h => noted_singleErrors h s, singleErrors_changes k s⟩
  case double =>
    refine ⟨_, congrArg Host.Outcome.next (hbmErrors_double high s), uncorrected_doubleError s, ?_, fun j hj => ?_, fun b hb => ?_, ?_⟩
    · exact ((setHbm_changes (P := [.hbm]) _ _ (by decide) (Changes.refl _ (doubleError s))).noted 0 _).trans (noted_record ..)
    · rw [hbm_zeroBlock, tabGet_memWrite _ _ (by simpa using hj), List.getD_replicate _ hj]
    · rw [hbm_zeroBlock, tabGet_memWrite_ne _ _ (by simpa using hb), (doubleError_changes s).hbm]
    · exact setHbm_changes _ _ (by decide) ((doubleError_changes s).mono (by decide))
  case passed =>
    have going : (singleErrors k s).qdir.cmd = some .scrub := by rw [qdir_singleErrors]; exact hcmd
    have done : hbmScrubDone { singles := k, double := none } s = qdirEnd (opDone 0) none (setQdir (fun d => { d with result := 1045952 }) (singleErrors k s)) :=
      if_pos going
    have ends := qdirEnd_ends (opDone 0) none (setQdir (fun d => { d with result := 1045952 }) (singleErrors k s))
    refine ⟨_, congrArg Host.Outcome.next done, by rw [ends.qdir], by rw [ends.qdir], by rw [ends.qdir]; rfl, ?_, ?_⟩
    · rw [ends.qdir]
      exact congrArg Qdir.corrected (qdir_singleErrors k s)
    · exact (setQdir_changes _ _ (by decide) ((singleErrors_changes k s).mono (by decide))).trans ends.changes
  case slot =>
    have write : exec (.hbmHostWrite f addr bytes) s = .next (hbmWrite addr.toNat bytes s) := by
      refine congrArg Host.Outcome.next ((if_pos reach).trans ((stageBytes_in_slot slot fits some _ s).trans ?_))
      rw [slotWrite, reach, free]
      rfl
    have memory : (hbmWrite addr.toNat bytes s).hbm = memWrite 0 s.hbm addr.toNat bytes := rfl
    refine ⟨_, write, fun j hj => ?_, fun a ha => ?_, hbmWrite_changes _ _ _ (by decide) (Changes.refl _ s)⟩
    · rw [memory]
      exact tabGet_memWrite _ _ hj
    · rw [memory]
      exact tabGet_memWrite_ne _ _ ha
  case other =>
    have beyond : stageBytes f addr.toNat bytes (fun a _ s => discardWrite f a s) s = discardWrite f addr.toNat s := by
      have first : 0x4000000 - addr.toNat = 0 := by omega
      have second : 0x8000000 - max addr.toNat 0x4000000 = 0 := by omega
      have third : max addr.toNat 0x8000000 = addr.toNat := by omega
      simp [stageBytes, first, second, third, some]
    have discard : discardWrite f addr.toNat s = refuseAt f true addr.toNat 0x1805 0 8 0 (BitVec.ofNat 32 addr.toNat) s := by
      rw [discardWrite, none]
    obtain ⟨code, logged⟩ := refuseAt_effect f true addr.toNat 0x1805 0 8 0 (BitVec.ofNat 32 addr.toNat) s
    exact ⟨_, congrArg Host.Outcome.next ((if_pos reach).trans (beyond.trans discard)), code, logged,
      refuseAt_changes _ _ _ _ _ _ _ _ _ (by decide) (Changes.refl _ s)⟩

end Sys2Proof.Machine
end

section
/-!
PROOFS. Chapter 12: a calibration begins, observes and ends (O46).
-/

namespace Sys2Proof.Machine

set_option Elab.async false

open Sys2Proof

/-! ## A Farrier command (R496, R515, R516) -/

theorem farrierCommand_of_code {s : State} {f : Func} {n : StallId} {code : State → Option Code} {c : Code} (hadm : admits s f (faCmd n) = true)
    (h : code s = some c) (eff : State → State) :
    farrierCommand f n code eff s = refuseReg f (faCmd n) c (modFarrier n (fun x => { x with op := opRefuse c x.op }) s) := by
  rw [farrierCommand, hostWrite_of_admits hadm, h]

theorem farrierCommand_accepted {s : State} {f : Func} {n : StallId} {code : State → Option Code} (hadm : admits s f (faCmd n) = true)
    (h : code s = none) (eff : State → State) : farrierCommand f n code eff s = eff s := by
  rw [farrierCommand, hostWrite_of_admits hadm, h]

/-! ## A calibration starts (R496, R514, R515) -/

/-- What a calibration is as it starts. -/
structure CalStarted (n : StallId) (auto : Bool) (k : CalKind) (target : BitVec 8) (s t : State) : Prop where
  running : (getFarrier t n).cal.running = true
  kind : (getFarrier t n).cal.kind = k
  aim : (getFarrier t n).cal.target = target
  auto : (getFarrier t n).cal.auto = auto
  phase : (getFarrier t n).cal.phase = (if needsSpare s n k target then 1 else 2)
  busy : (getFarrier t n).op.state = .busy
  other : ∀ m, m ≠ n → getFarrier t m = getFarrier s m
  changes : Changes [.stalls, .farriers] s t

theorem startCal_starts (n : StallId) (auto : Bool) (f : Func) (k : CalKind) (target : BitVec 8) (s : State) :
    CalStarted n auto k target s (startCal n auto f k target s) := by
  have changes : Changes [.stalls, .farriers] s (startCal n auto f k target s) := startCal_changes _ _ _ _ _ _ (by decide) (Changes.refl _ s)
  have spare (c : Prop) [Decidable c] (g : Spare → Spare) (u : State) : Changes [.stalls] u (if c then modSpare n .acq g u else u) :=
    Changes.ite (fun _ => modSpare_changes _ _ _ _ (by decide) (Changes.refl _ u)) fun _ => Changes.refl _ u
  have own : getFarrier (startCal n auto f k target s) n = _ := ((spare _ _ _).getFarrier n).trans (getFarrier_modFarrier ..)
  refine ⟨by rw [own], by rw [own], by rw [own], by rw [own], by rw [own], by rw [own]; rfl, fun m hm => ?_, changes⟩
  exact ((spare _ _ _).getFarrier m).trans (getFarrier_modFarrier_other hm _ _)

/-! ## A calibration ends without acceptance (R506, R511 to R513, R516) -/

/-- What the end of a calibration with a status and a code leaves. -/
structure CalEnded (n : StallId) (st : OpState) (code : Code) (s t : State) : Prop where
  running : (getFarrier t n).cal.running = false
  state : (getFarrier t n).op.state = st
  because : (getFarrier t n).op.code = code
  rejected : (getFarrier t n).rejected = if st = .failed then satInc (getFarrier s n).rejected else (getFarrier s n).rejected
  noted : noted t 0 code = true
  stalls : t.stalls = (wakeSpareReq n s).stalls
  changes : Changes [.funcs, .irqs, .stalls, .farriers] s t

/-- The Farrier of a stall whose calibration has stopped. -/
theorem getFarrier_stopCal (n : StallId) (op : OpStatus) (s : State) : getFarrier (stopCal n op s) n =
    { getFarrier s n with op, cal := { (getFarrier s n).cal with running := false, phase := 0, values := none }
                          lastEnd := tabSet (getFarrier s n).lastEnd (runKey (getFarrier s n).cal.kind (getFarrier s n).cal.target) s.clock.now } := by
  rw [stopCal, (raise_changes (P := [.funcs, .irqs]) _ _ (by decide) (Changes.refl _ _)).getFarrier, getFarrier_modFarrier,
    (wakeSpareReq_changes (P := [.stalls]) n s (by decide) (Changes.refl _ s)).getFarrier]

theorem stalls_stopCal (n : StallId) (op : OpStatus) (s : State) : (stopCal n op s).stalls = (wakeSpareReq n s).stalls :=
  (raise_changes (P := [.funcs, .irqs]) (farrierSource n) _ (by decide) (Changes.refl _ _)).stalls

/-- The count of the calibrations that failed. -/
def countRejected (n : StallId) (st : OpState) (s : State) : State :=
  if st = .failed then modFarrier n (fun x => { x with rejected := satInc x.rejected }) s else s

theorem countRejected_changes (n : StallId) (st : OpState) (s : State) : Changes [.farriers] s (countRejected n st s) :=
  Changes.ite (fun _ => modFarrier_changes _ _ _ (by decide) (Changes.refl _ s)) fun _ => Changes.refl _ s

theorem getFarrier_countRejected (n : StallId) (st : OpState) (s : State) : getFarrier (countRejected n st s) n =
    { getFarrier s n with rejected := if st = .failed then satInc (getFarrier s n).rejected else (getFarrier s n).rejected } := by
  unfold countRejected
  split
  · exact getFarrier_modFarrier ..
  · rfl

/-- A slice for which A4 stands is still to return to service. -/
def toReturn (n : StallId) (s : State) : State :=
  if (getStall s n).spareAcq.use = .farrier then modFarrier n (fun x => { x with cal := { x.cal with returning := true } }) s else s

theorem toReturn_changes (n : StallId) (s : State) : Changes [.farriers] s (toReturn n s) :=
  Changes.ite (fun _ => modFarrier_changes _ _ _ (by decide) (Changes.refl _ s)) fun _ => Changes.refl _ s

theorem getFarrier_toReturn (n : StallId) (s : State) : (getFarrier (toReturn n s) n).cal.running = (getFarrier s n).cal.running ∧
    (getFarrier (toReturn n s) n).op = (getFarrier s n).op ∧ (getFarrier (toReturn n s) n).rejected = (getFarrier s n).rejected := by
  unfold toReturn
  split
  · rw [getFarrier_modFarrier]
    exact ⟨rfl, rfl, rfl⟩
  · exact ⟨rfl, rfl, rfl⟩

theorem endCal_eq (n : StallId) (st : OpState) (code : Code) (s : State) : endCal n st code s =
    toReturn n (record code n.val 0 0 0 (countRejected n st (stopCal n (opEnd st code (getFarrier s n).op) s))) := rfl

theorem endCal_ends (n : StallId) (st : OpState) (code : Code) (s : State) : CalEnded n st code s (endCal n st code s) := by
  have back := toReturn_changes n (record code n.val 0 0 0 (countRejected n st (stopCal n (opEnd st code (getFarrier s n).op) s)))
  have told (u : State) : Changes [.funcs] u (record code n.val 0 0 0 u) := record_changes _ _ _ _ _ _ (by decide) (Changes.refl _ u)
  have count := countRejected_changes n st (stopCal n (opEnd st code (getFarrier s n).op) s)
  obtain ⟨running, op, rejected⟩ := getFarrier_toReturn n (record code n.val 0 0 0 (countRejected n st (stopCal n (opEnd st code (getFarrier s n).op) s)))
  rw [(told _).getFarrier, getFarrier_countRejected, getFarrier_stopCal] at running op rejected
  rw [endCal_eq]
  refine ⟨running, by rw [op]; rfl, by rw [op]; rfl, rejected, ?_, ?_, ?_⟩
  · exact (back.noted 0 _).trans (noted_record ..)
  · exact back.stalls.trans ((told _).stalls.trans (count.stalls.trans (stalls_stopCal ..)))
  · exact endCal_changes n st code s (by decide) (Changes.refl _ s)

/-! ## OBSERVATION_COMPLETE of kinds 1 to 5 (R506, Table 12-2) -/

/-- The Farrier of a fit that has failed, as its end finds it. -/
def fitFailed (n : StallId) (quality : BitVec 16) (s : State) : State :=
  modFarrier n (fun x => { x with now := quality, op := { x.op with progress := 800 }, cal := { x.cal with phase := 3 } }) s

theorem fitFails_ends (n : StallId) (code : Code) (quality : BitVec 16) (s : State) : CalEnded n .failed code s (fitFails n code quality s) := by
  have first : Changes [.farriers] s (fitFailed n quality s) := modFarrier_changes _ _ _ (by decide) (Changes.refl _ s)
  obtain ⟨running, state, because, rejected, logged, stalls, changes⟩ := endCal_ends n .failed code (fitFailed n quality s)
  refine ⟨running, state, because, ?_, logged, stalls, (first.mono (by decide)).trans changes⟩
  refine rejected.trans ?_
  rw [fitFailed, getFarrier_modFarrier]

theorem observed_trims {n : StallId} {s : State} {figure : BitVec 16} {inRange : Bool} {vals : Tab (BitVec 32)} (running : (getFarrier s n).cal.running = true)
    (phase : (getFarrier s n).cal.phase = 2) (enough : observedEnough s n (getFarrier s n).cal (.trims figure inRange vals) = true) :
    observed n (.trims figure inRange vals) s = fitTrims n figure inRange vals s := if_pos ⟨running, phase, enough⟩

/-- Settles O46: a calibration begins, observes and ends without acceptance.  Which target an automatic run takes (`autoNext`), and that an ABORT with nothing
running changes nothing, are log entry 104: the model's choice. -/
theorem calibrationsBeginObserveAndEnd : Obligations.CalibrationsBeginObserveAndEnd := by
  unfold Obligations.CalibrationsBeginObserveAndEnd
  refine ⟨fun s f n k target hadm => ⟨fun ok idle => ?start, fun c refused => ?refused⟩, fun s n k target runs idle next => ?auto,
    fun s n running => ⟨fun figure inRange vals phase kind enough => ⟨fun ok => ?fits, fun c fails => ?fails⟩, fun phase => ?timeout, fun phase => ?late⟩,
    fun s f n hadm ok => ⟨fun idle => ?still, fun running => ?aborts⟩⟩
  case start =>
    have started := startCal_starts n false f k target s
    have none : preempt n s = s := if_neg (by simp [idle])
    have begin_ := (farrierCommand_accepted hadm ok (fun s => startCal n false f k target (preempt n s))).trans (congrArg (startCal n false f k target) none)
    exact ⟨_, congrArg Host.Outcome.next begin_, started.running, started.kind, started.aim, started.auto, started.phase, started.busy, started.other,
      started.changes⟩
  case refused =>
    have same (u : State) : Changes [.funcs] u (refuseReg f (faCmd n) c u) := refuseReg_changes _ _ _ _ (by decide) (Changes.refl _ u)
    refine ⟨_, congrArg Host.Outcome.next (farrierCommand_of_code hadm refused _), ?_, lastCode_refuseReg .., noted_refuseReg .., ?_⟩
    · rw [(same _).getFarrier, getFarrier_modFarrier]
    · exact refuseReg_changes _ _ _ _ (by decide) (modFarrier_changes _ _ _ (by decide) (Changes.refl _ s))
  case auto =>
    have started := startCal_starts n true 0 k target s
    have turn : autoStart n k target s = startCal n true 0 k target s := if_pos ⟨runs, by rw [idle]; rfl, next⟩
    exact ⟨_, congrArg Host.Outcome.next turn, started.running, started.auto, started.kind, started.phase, started.other, started.changes⟩
  case fits =>
    have fit : fitTrims n figure inRange vals s = toActivate n (.trims vals) figure s := by simp only [fitTrims, ok]
    have own : getFarrier (toActivate n (.trims vals) figure s) n = _ := getFarrier_modFarrier ..
    exact ⟨_, congrArg Host.Outcome.next ((observed_trims running phase enough).trans fit), by rw [own], by rw [own], by rw [own], by rw [own], rfl,
      modFarrier_changes _ _ _ (by decide) (Changes.refl _ s)⟩
  case fails =>
    have fit : fitTrims n figure inRange vals s = fitFails n c figure s := by simp only [fitTrims, fails]
    have ended := fitFails_ends n c figure s
    exact ⟨_, congrArg Host.Outcome.next ((observed_trims running phase enough).trans fit), ended.running, ended.state, ended.because, ended.rejected, ended.noted,
      ended.changes.getTrims n, ended.stalls, ended.changes⟩
  case timeout =>
    have ended := endCal_ends n .failed 0x2902 s
    exact ⟨_, congrArg Host.Outcome.next (if_pos ⟨running, phase⟩), ended.running, ended.state, ended.because, ended.noted, ended.stalls, ended.changes⟩
  case late =>
    have ended := endCal_ends n .failed 0x2903 s
    exact ⟨_, congrArg Host.Outcome.next (if_pos ⟨running, phase⟩), ended.running, ended.state, ended.because, ended.noted, ended.stalls, ended.changes⟩
  case still =>
    have nothing := (farrierCommand_accepted hadm ok (fun s => if (getFarrier s n).cal.running then endCal n .aborted 0x0901 s else s)).trans
      (if_neg (by simp [idle]))
    exact ⟨_, congrArg Host.Outcome.next nothing, rfl⟩
  case aborts =>
    have ended := endCal_ends n .aborted 0x0901 s
    have abort := (farrierCommand_accepted hadm ok (fun s => if (getFarrier s n).cal.running then endCal n .aborted 0x0901 s else s)).trans (if_pos running)
    exact ⟨_, congrArg Host.Outcome.next abort, ended.running, ended.state, ended.because, ended.rejected, ended.noted, ended.changes.getTrims n, ended.stalls,
      ended.changes⟩

end Sys2Proof.Machine
end

section
/-!
PROOFS. Chapter 12: a calibration takes the spare, goes into force and is recorded; a set is restored (O47).
-/

namespace Sys2Proof.Machine

set_option Elab.async false

open Sys2Proof

/-! ## FARRIER_SPARE_SWITCH (R496) -/

/-- A4 beside the slice served last, or in the place of the slice under calibration. -/
def spareFor (a : Fin 5) (x : Spare) : Spare :=
  if a.val = 4 then { x with use := .farrier, target := x.served }
  else { x with use := .farrier, target := BitVec.ofNat 4 a.val, served := BitVec.ofNat 4 a.val, live := true }

theorem spareFor_target (a : Fin 5) (x : Spare) : (spareFor a x).use = .farrier ∧
    (spareFor a x).target = if a.val = 4 then x.served else BitVec.ofNat 4 a.val := by
  unfold spareFor
  split <;> exact ⟨rfl, rfl⟩

/-- The switch of A4 to a slice under calibration, and the observation that begins with it. -/
def switched (n : StallId) (a : Fin 5) (s : State) : State :=
  modFarrier n (fun x => { x with op := { x.op with progress := 100 }, cal := { x.cal with phase := 2, phaseAt := s.clock.now } })
    (modSpare n .acq (fun x =>
      if a.val = 4 then { x with use := .farrier, target := x.served }
      else { x with use := .farrier, target := BitVec.ofNat 4 a.val, served := BitVec.ofNat 4 a.val, live := true }) s)

theorem farrierSwitch_switches {n : StallId} {a : Fin 5} {s : State} (running : (getFarrier s n).cal.running = true) (phase : (getFarrier s n).cal.phase = 1)
    (stays : (getFarrier s n).cal.returning = false) (idle : (getStall s n).spareAcq.use = .idle) (good : (getStall s n).spareAcq.bad = false)
    (slice : calSlice s n (getFarrier s n).cal.kind (getFarrier s n).cal.target = some a)
    (silent : a.val = 4 ∨ sliceSilent s ⟨n, .acq, a.castLE (Nat.le_add_right 5 4)⟩ = true) : farrierSwitch n s = switched n a s := by
  unfold farrierSwitch
  dsimp only
  rw [if_neg (by simp [stays]), if_pos ⟨running, phase, idle, by simp [good]⟩, slice]
  exact if_pos silent

/-! ## Values go into force (R509, Table 12-3) -/

/-- Trims that go into force wait in the stall's own trims and in the trims that its voices take. -/
theorem activateTrims_own (n : StallId) (c : Calib) (vals : Tab (BitVec 32)) (s : State) {m : StallId} (h : m ≠ n) :
    getTrims (activateTrims n c vals s) m = getTrims s m := by
  have other (f : Trims → Trims) : getTrims (modTrims n f s) m = getTrims s m := getTrims_modTrims_other h f s
  unfold activateTrims
  dsimp only
  split
  · exact other _
  · exact other _
  · split
    · split
      · exact other _
      · exact other _
      · exact ((stageTrims_changes (P := [.voices]) _ _ (by decide) (Changes.refl _ _)).getTrims m).trans (other _)
      · rfl
    · rfl

theorem activateTrims_marker {n : StallId} {c : Calib} {m : Fin 4} (kind : c.kind = .marker) (target : targetOf c.target = .marker m) (vals : Tab (BitVec 32))
    (s : State) : tabGet {} (getTrims (activateTrims n c vals s) n).pendMarkers m.val = { accepted := true, value := tabGet 0 vals 0, quality := c.quality } := by
  simp only [activateTrims, kind, target, getTrims_modTrims, tabGet_tabSet]

/-! ## The stud book (R518, R638) -/

/-- Both copies of a record that reads back as written. -/
theorem recordStud_good (n : StallId) (s : State) : getStud (recordStud n none s) n = { getStud s n with
    a := (getStud (recordStud n none s) n).a, b := (getStud (recordStud n none s) n).a, aOk := true, bOk := true } ∧
    (getStud (recordStud n none s) n).a.seq = nextSeq (getStud s n) ∧ (getStud (recordStud n none s) n).a.ok = true ∧
    (getStud (recordStud n none s) n).a.skew = (getTrims s n).skew := by
  have own (f : Stud → Stud) : getStud (modStud n f s) n = f (getStud s n) := tabGet_tabMod ..
  unfold recordStud
  dsimp only
  rw [own]
  cases writesBFirst (getStud s n) <;> exact ⟨rfl, rfl, rfl, rfl⟩

/-! ## The end of an accepted calibration (R510, R518, R519) -/

/-- A calibration has been accepted: it counts. -/
def accepted (n : StallId) (s : State) : State := modFarrier n (fun x => { x with accepted := satInc x.accepted }) s

theorem recordRun_of_held {n : StallId} {s : State} (h : (getStall s n).factoryHold = true) (bad : Option Bool) :
    recordRun n bad s = stopCal n (opDone 0) (modFarrier n (fun x => { x with studStale := true }) (accepted n s)) := if_pos h

theorem recordRun_good {n : StallId} {s : State} (h : (getStall s n).factoryHold = false) :
    recordRun n none s = stopCal n (opDone 0) (recordStud n none (accepted n s)) := 
  if_neg fun k => Bool.false_ne_true (h.symm.trans k)

/-- The Farrier of a run whose record reads back otherwise. -/
def recordFailed (n : StallId) (bad : Option Bool) (s : State) : State :=
  modFarrier n (fun x => { x with studStale := true, rejected := satInc x.rejected, op := { x.op with progress := 950 } }) (recordStud n bad (accepted n s))

theorem recordRun_bad {n : StallId} {s : State} (h : (getStall s n).factoryHold = false) {bad : Option Bool} (differs : bad.isSome = true) :
    recordRun n bad s = record 0x2905 n.val 0 0 0
      (stopCal n (opEnd .failed 0x2905 (getFarrier (recordFailed n bad s) n).op) (recordFailed n bad s)) := by
  cases bad with
  | none => cases differs
  | some _ => exact if_neg fun k => Bool.false_ne_true (h.symm.trans k)

/-- What the record of an accepted calibration leaves. -/
structure RunRecorded (n : StallId) (bad : Option Bool) (s t : State) : Prop where
  running : (getFarrier t n).cal.running = false
  accepted : (getFarrier t n).accepted = satInc (getFarrier s n).accepted
  good : (getStall s n).factoryHold = false → bad = none →
    (getFarrier t n).op = opDone 0 ∧ (getStud t n).a.seq = nextSeq (getStud s n) ∧ (getStud t n).b.seq = nextSeq (getStud s n) ∧
    (getStud t n).a.ok = true ∧ (getStud t n).b.ok = true ∧ (getStud t n).a.skew = (getTrims s n).skew
  broken : (getStall s n).factoryHold = false → bad.isSome = true →
    (getFarrier t n).op.state = .failed ∧ (getFarrier t n).op.code = 0x2905 ∧ (getFarrier t n).studStale = true ∧ noted t 0 0x2905 = true
  held : (getStall s n).factoryHold = true → (getFarrier t n).op = opDone 0 ∧ (getFarrier t n).studStale = true ∧ getStud t n = getStud s n
  other : ∀ m, m ≠ n → getFarrier t m = getFarrier s m
  changes : Changes [.funcs, .irqs, .persist, .stalls, .farriers] s t

theorem getFarrier_accepted (n : StallId) (s : State) : getFarrier (accepted n s) n = { getFarrier s n with accepted := satInc (getFarrier s n).accepted } :=
  getFarrier_modFarrier ..

theorem getFarrier_stopCal_other {n m : StallId} (h : m ≠ n) (op : OpStatus) (s : State) : getFarrier (stopCal n op s) m = getFarrier s m := by
  rw [stopCal, (raise_changes (P := [.funcs, .irqs]) _ _ (by decide) (Changes.refl _ _)).getFarrier, getFarrier_modFarrier_other h,
    (wakeSpareReq_changes (P := [.stalls]) n s (by decide) (Changes.refl _ s)).getFarrier]

theorem getStud_of_persist {s t : State} (h : t.persist = s.persist) (n : StallId) : getStud t n = getStud s n := by rw [getStud, h, getStud]

theorem recordRun_records (n : StallId) (bad : Option Bool) (s : State) : RunRecorded n bad s (recordRun n bad s) := by
  have changes : Changes [.funcs, .irqs, .persist, .stalls, .farriers] s (recordRun n bad s) := recordRun_changes _ _ _ (by decide) (Changes.refl _ s)
  have counted : Changes [.farriers] s (accepted n s) := modFarrier_changes _ _ _ (by decide) (Changes.refl _ s)
  have stop (op : OpStatus) (u : State) : Changes [.funcs, .irqs, .stalls, .farriers] u (stopCal n op u) := stopCal_changes _ _ _ (by decide) (Changes.refl _ u)
  have apart (m : StallId) (hm : m ≠ n) : getFarrier (accepted n s) m = getFarrier s m := getFarrier_modFarrier_other hm _ _
  have stud (b : Option Bool) (u : State) (m : StallId) : getFarrier (recordStud n b u) m = getFarrier u m :=
    (recordStud_changes (P := [.persist]) n b u (by decide) (Changes.refl _ u)).getFarrier m
  cases hold : (getStall s n).factoryHold with
  | true =>
    have run := recordRun_of_held hold bad
    have own : getFarrier (recordRun n bad s) n = _ := run ▸ getFarrier_stopCal n (opDone 0) _
    rw [getFarrier_modFarrier, getFarrier_accepted] at own
    refine ⟨by rw [own], by rw [own], (fun k => by cases hold.symm.trans k), (fun k => by cases hold.symm.trans k), fun _ => ⟨by rw [own], by rw [own], ?_⟩,
      fun m hm => ?_, changes⟩
    · rw [run]
      exact getStud_of_persist ((stop _ _).persist) n
    · rw [run, getFarrier_stopCal_other hm, getFarrier_modFarrier_other hm, apart m hm]
  | false =>
    cases bad with
    | none =>
      have run := recordRun_good hold
      have own : getFarrier (recordRun n none s) n = _ := run ▸ getFarrier_stopCal n (opDone 0) _
      rw [stud, getFarrier_accepted] at own
      obtain ⟨both, seq, ok, skew⟩ := recordStud_good n (accepted n s)
      have book : getStud (recordRun n none s) n = getStud (recordStud n none (accepted n s)) n := run ▸ getStud_of_persist ((stop _ _).persist) n
      have same : getStud (accepted n s) n = getStud s n := getStud_of_persist counted.persist n
      have second : (getStud (recordRun n none s) n).b = (getStud (recordRun n none s) n).a := by rw [book, both]
      rw [same, ← book] at seq
      rw [← book] at ok skew
      refine ⟨by rw [own], by rw [own], fun _ _ => ⟨by rw [own], seq, by rw [second, seq], ok, by rw [second, ok], skew⟩, (fun _ k => by cases k),
        (fun k => by cases hold.symm.trans k), fun m hm => ?_, changes⟩
      rw [run, getFarrier_stopCal_other hm, stud, apart m hm]
    | some first =>
      have run := recordRun_bad hold (bad := some first) rfl
      have told (u : State) (m : StallId) : getFarrier (record 0x2905 n.val 0 0 0 u) m = getFarrier u m :=
        (record_changes (P := [.funcs]) _ _ _ _ _ _ (by decide) (Changes.refl _ u)).getFarrier m
      have failed : getFarrier (recordFailed n (some first) s) n = _ := getFarrier_modFarrier ..
      rw [stud, getFarrier_accepted] at failed
      have own : getFarrier (recordRun n (some first) s) n = _ := run ▸ (told _ n).trans (getFarrier_stopCal n _ _)
      refine ⟨by rw [own], by rw [own, failed], (fun _ k => by cases k), fun _ _ => ⟨by rw [own]; rfl, by rw [own]; rfl, by rw [own, failed], ?_⟩,
        (fun k => by cases hold.symm.trans k), fun m hm => ?_, changes⟩
      · rw [run]
        exact noted_record ..
      · rw [run, told, getFarrier_stopCal_other hm, recordFailed, getFarrier_modFarrier_other hm, stud, apart m hm]

/-- A kind that needs no spare has no acquisition slice under calibration. -/
theorem calSlice_of_plain {k : CalKind} (h : readoutKind k = false) (s : State) (n : StallId) (t : BitVec 8) : calSlice s n k t = none := by
  unfold calSlice
  split
  · cases h
  · cases h
  · rfl

/-- A quiet boundary of a kind that needs no spare puts its values into force and records them. -/
theorem quietAt_of_quiet {n : StallId} {s : State} (running : (getFarrier s n).cal.running = true) (phase : (getFarrier s n).cal.phase = 4)
    (kind : readoutKind (getFarrier s n).cal.kind = false) (quiet : quietFrame s n (getFarrier s n).cal.target = true) (bad : Option Bool) :
    quietAt n bad s = recordRun n bad (activate n (getFarrier s n).cal s) := by
  unfold quietAt
  dsimp only
  rw [if_pos ⟨running, phase, quiet⟩, calSlice_of_plain kind, kind]
  rfl

/-! ## RESTORE (R521) -/

/-- A RESTORE that nothing refuses finds the entry that it commits. -/
theorem restoreEntry_of_code {f : Func} {n : StallId} {target : BitVec 8} {s : State} (h : restoreCode f n target s = none) :
    ∃ k e, restoreEntry s n target = some (k, e) := by
  cases entry : restoreEntry s n target with
  | some x => exact ⟨x.1, x.2, rfl⟩
  | none => simp [restoreCode, entry, ite_eq_iff] at h

/-- Settles O47: a calibration takes the spare, goes into force and is recorded, and a set is restored.  That a run whose record reads back otherwise counts
as accepted too is log entry 103, the quiet frame is log entry 102 and the slice shown with A4 as the target is log entry 101: the model's choices. -/
theorem calibrationsGoIntoForce : Obligations.CalibrationsGoIntoForce := by
  unfold Obligations.CalibrationsGoIntoForce
  refine ⟨fun s n a running phase stays idle good slice silent => ?_, fun s n vals bad running phase values kind quiet => ?_,
    fun s f n target hadm ok => ?_⟩
  · have begun (u : State) (f : Farrier → Farrier) : Changes [.farriers] u (modFarrier n f u) := modFarrier_changes _ _ _ (by decide) (Changes.refl _ u)
    have stall : getStall (switched n a s) n = _ := ((begun _ _).getStall n).trans (getStall_modStall ..)
    have farrier : getFarrier (switched n a s) n = _ := getFarrier_modFarrier ..
    obtain ⟨use, target⟩ := spareFor_target a (getStall s n).spareAcq
    exact ⟨_, congrArg Host.Outcome.next (farrierSwitch_switches running phase stays idle good slice silent), (congrArg (fun x => x.spareAcq.use) stall).trans use,
      (congrArg (fun x => x.spareAcq.target) stall).trans target, by rw [farrier], by rw [farrier],
      fun m hm => ⟨((begun _ _).getStall m).trans (getStall_modStall_other hm _ _), getFarrier_modFarrier_other hm _ _⟩,
      modFarrier_changes _ _ _ (by decide) (modSpare_changes _ _ _ _ (by decide) (Changes.refl _ s))⟩
  · have force : activate n (getFarrier s n).cal s = activateTrims n (getFarrier s n).cal vals s := by rw [activate, values]
    have acts : Changes [.voices, .trims] s (activateTrims n (getFarrier s n).cal vals s) := activateTrims_changes _ _ _ _ (by decide) (Changes.refl _ s)
    have run := (quietAt_of_quiet running phase kind quiet bad).trans (congrArg (recordRun n bad) force)
    obtain ⟨stopped, accepted, good, broken, held, other, changes⟩ := recordRun_records n bad (activateTrims n (getFarrier s n).cal vals s)
    rw [acts.getFarrier] at accepted
    rw [acts.getStall, getStud_of_persist acts.persist] at good held
    rw [acts.getStall] at broken
    refine ⟨_, congrArg Host.Outcome.next run, stopped, accepted, fun h b => ?_, broken, held, fun m marker target => ?_, fun m hm => ⟨?_, ?_⟩, ?_⟩
    · rw [changes.getTrims]
      exact good h b
    · rw [changes.getTrims]
      exact activateTrims_marker marker target vals s
    · exact (other m hm).trans (acts.getFarrier m)
    · exact (changes.getTrims m).trans (activateTrims_own n _ vals s hm)
    · exact (acts.mono (by decide)).trans (changes.mono (by decide))
  · obtain ⟨k, e, entry⟩ := restoreEntry_of_code ok
    have restores : restorePlanes n target s = raise (farrierSource n) (modFarrier n (fun x => { x with op := opDone 0 })
        (commitPlanes ⟨n, k⟩ e.planes (modTrims n (fun x => { x with chans := tabSet x.chans k.val e }) s))) := by rw [restorePlanes, entry]
    have last (u : State) : Changes [.funcs, .irqs] u (raise (farrierSource n) u) := raise_changes _ _ (by decide) (Changes.refl _ u)
    have status (u : State) : Changes [.farriers] u (modFarrier n (fun x => { x with op := opDone 0 }) u) := modFarrier_changes _ _ _ (by decide) (Changes.refl _ u)
    have chan (c : ChanId) := ((last _).getChan c).trans ((status (commitPlanes ⟨n, k⟩ e.planes (modTrims n (fun x => { x with chans := tabSet x.chans k.val e }) s))).getChan c)
    have own := (chan ⟨n, k⟩).trans (getChan_modChan ..)
    refine ⟨_, k, e, congrArg Host.Outcome.next ((farrierCommand_accepted hadm ok _).trans restores), entry, by rw [own], by rw [own], ?_, ?_, ?_,
      fun c hc => (chan c).trans (getChan_modChan_other hc _ _), ?_⟩
    · rw [own]
      rfl
    · have trims : getTrims (commitPlanes ⟨n, k⟩ e.planes (modTrims n (fun x => { x with chans := tabSet x.chans k.val e }) s)) n = _ :=
        ((commitPlanes_changes (P := [.chans]) ⟨n, k⟩ e.planes _ (by decide) (Changes.refl _ _)).getTrims n).trans (getTrims_modTrims ..)
      rw [(last _).getTrims, (status _).getTrims, trims, tabFind_tabSet]
    · rw [(last _).getFarrier, getFarrier_modFarrier]
    · rw [← restores]
      exact restorePlanes_changes _ _ _ (by decide) (Changes.refl _ s)

end Sys2Proof.Machine
end

section
/-!
PROOFS. Chapter 13: the life of a tether lane (O48).
-/

namespace Sys2Proof.Machine

set_option Elab.async false

open Sys2Proof

/-! ## A lane enters training (R538, R540) -/

/-- A lane that has entered TRAINING, with the equaliser fields as they stood. -/
def trained (x : Lane) : Lane :=
  { x with
    state := .training, phase := 1, trainings := satInc x.trainings, trainAuto := x.eqAuto, trainSet := x.eqSet, tx := {}
    time := { x.time with trips := 0, sum := 0, largest := 0, sent := none } }

theorem raise_quiet (src : Nat) (s : State) : Changes [.funcs, .irqs] s (raise src s) := raise_changes _ _ (by decide) (Changes.refl _ s)

theorem getLane_train (k : LaneId) (s : State) : getLane (train k s) k = trained (getLane s k) :=
  ((raise_quiet _ _).getLane k).trans (getLane_modLane ..)

theorem getLane_train_other {k j : LaneId} (h : j ≠ k) (s : State) : getLane (train k s) j = getLane s j :=
  ((raise_quiet _ _).getLane j).trans (getLane_modLane_other h _ _)

/-! ## The copies of a lane that leaves HITCHED are handed on (R533, R537, R543) -/

/-- Of a lane only the count of its diverted copies may differ. -/
def DivertsOnly (k : LaneId) (s t : State) : Prop := ∃ d, getLane t k = { getLane s k with diverted := d }

theorem DivertsOnly.refl (k : LaneId) (s : State) : DivertsOnly k s s := ⟨(getLane s k).diverted, rfl⟩

theorem DivertsOnly.trans {k : LaneId} {s t u : State} (h : DivertsOnly k s t) (g : DivertsOnly k t u) : DivertsOnly k s u := by
  obtain ⟨d, hd⟩ := h
  obtain ⟨e, he⟩ := g
  exact ⟨e, by rw [he, hd]⟩

theorem DivertsOnly.state {k : LaneId} {s t : State} (h : DivertsOnly k s t) : (getLane t k).state = (getLane s k).state := by
  obtain ⟨d, hd⟩ := h
  rw [hd]

theorem divertsOnly_of_eq {k : LaneId} {s t : State} (h : getLane t k = getLane s k) : DivertsOnly k s t := ⟨(getLane s k).diverted, h⟩

theorem divertsOnly_modLane {k j : LaneId} (h : j ≠ k) (f : Lane → Lane) (s : State) : DivertsOnly k s (modLane j f s) :=
  divertsOnly_of_eq (getLane_modLane_other h.symm f s)

theorem divertsOnly_count (k j : LaneId) (s : State) : DivertsOnly k s (modLane j (fun x => { x with diverted := satInc x.diverted }) s) := by
  by_cases h : j = k
  · subst h
    exact ⟨_, getLane_modLane ..⟩
  · exact divertsOnly_modLane h _ s

/-- The lane that a copy takes is HITCHED. -/
theorem hitched_of_laneFor {s : State} {r : Route} {e : ReinChan} {j : LaneId} {d : Bool} (h : laneFor s r e = some (j, d)) : hitched s j = true := by
  unfold laneFor at h
  dsimp only at h
  split at h
  next up =>
    split at h
    next a alt =>
      split at h <;> cases h
      · exact (Option.filter_eq_some_iff.mp alt).2
      · exact up
    next => cases h; exact up
  next =>
    obtain ⟨a, alt, pair⟩ := Option.map_eq_some_iff.mp h
    cases pair
    exact (Option.filter_eq_some_iff.mp alt).2

/-- A lane that is not HITCHED takes no copy. -/
theorem divertsOnly_toEgress {k : LaneId} {s : State} (h : (getLane s k).state ≠ .hitched) (c : Egress) : DivertsOnly k s (toEgress c s).1 := by
  have dropped (e : ReinChan) : DivertsOnly k s (noLaneDrop e s) :=
    divertsOnly_of_eq ((noLaneDrop_changes (P := [.funcs, .books, .tether]) e s (by decide) (Changes.refl _ s)).getLane k)
  unfold toEgress
  split
  · exact dropped _
  · split
    · exact dropped _
    next r _ j diverted lane =>
      have other : j ≠ k := fun e => h (by subst e; exact of_decide_eq_true (hitched_of_laneFor lane))
      have busy : DivertsOnly k s (egressBusy j c.chan s) := by
        have before (u : State) : Changes [.books, .tether] u (setTether (fun t => { t with busy := satInc t.busy }) (bookOverrun c.chan 1 u)) :=
          setTether_changes _ _ (by decide) (bookOverrun_changes _ _ _ (by decide) (Changes.refl _ u))
        have after (p : Prop) [Decidable p] (u : State) : Changes [.funcs] u (if p then u else record 0x3643 8 (chanAttr u c.chan).owner (reinObject c.chan) 0 u) :=
          Changes.ite (fun _ => Changes.refl _ u) fun _ => record_changes _ _ _ _ _ _ (by decide) (Changes.refl _ u)
        refine divertsOnly_of_eq ?_
        rw [egressBusy, (after _ _).getLane, getLane_modLane_other other.symm, (before s).getLane]
      dsimp only
      split
      · exact busy
      · refine DivertsOnly.trans ?_ (divertsOnly_modLane other _ _)
        split
        · exact divertsOnly_count k _ s
        · exact DivertsOnly.refl k s

theorem divertsOnly_handOn {k : LaneId} {s : State} (h : (getLane s k).state ≠ .hitched) (c : Egress) : DivertsOnly k s (handOn c s) := by
  have taken := divertsOnly_toEgress h c
  unfold handOn
  dsimp only
  split
  · exact taken
  · exact taken.trans (divertsOnly_of_eq ((modBook_changes (P := [.books]) _ _ _ (by decide) (Changes.refl _ _)).getLane k))

/-- What a lane keeps that leaves HITCHED: its unacknowledged events are lost. -/
def left (x : Lane) : Lane := { x with egress := [], unacked := [], lost := satAdd x.lost x.unacked.length, tx := {} }

theorem getLane_laneLeaves {k : LaneId} {s : State} (h : (getLane s k).state ≠ .hitched) :
    ∃ d, getLane (laneLeaves k s) k = { left (getLane s k) with diverted := d } := by
  have first : getLane (modLane k (fun y => { y with egress := [], unacked := [], lost := satAdd y.lost y.unacked.length, tx := {} }) s) k = left (getLane s k) :=
    getLane_modLane ..
  have handed : DivertsOnly k (modLane k (fun y => { y with egress := [], unacked := [], lost := satAdd y.lost y.unacked.length, tx := {} }) s)
      (forEach (getLane s k).egress handOn (modLane k (fun y => { y with egress := [], unacked := [], lost := satAdd y.lost y.unacked.length, tx := {} }) s)) :=
    forEach_keep handOn (DivertsOnly k _) (fun c u hu => hu.trans (divertsOnly_handOn (by rw [hu.state, first]; exact h) c)) _ _ (DivertsOnly.refl k _)
  have last (u : State) (g : TetherCtl → TetherCtl) : Changes [.tether] u (replacePackets (setTether g u)) :=
    replacePackets_changes _ (by decide) (setTether_changes _ _ (by decide) (Changes.refl _ u))
  obtain ⟨d, hd⟩ := handed
  exact ⟨d, ((last _ _).getLane k).trans (hd.trans (by rw [first]))⟩

/-! ## A lane goes to UNHITCHED (Table 13-3, R542, R554) -/

/-- A lane that has gone to UNHITCHED. -/
def fallen (cause : BitVec 4) (retry : Bool) (x : Lane) : Lane :=
  { x with state := .unhitched, phase := 0, cause, backoff := if retry then min 6 (x.backoff + 1) else x.backoff }

/-- The end of a fall: its code is recorded, the lane's source raised, and a RETRAIN of the lane ends with it. -/
def fallEnds (k : LaneId) (code : Option Code) (s : State) : State :=
  let s := match code with | some c => record c 8 0 0 0 s | none => s
  let s := raise (laneSource k) s
  if s.tether.retrain = some k then
    endRetrain (match code with | some c => opEnd .failed c s.tether.op | none => opEnd .aborted 0 s.tether.op) s
  else s

theorem fallEnds_changes (k : LaneId) (code : Option Code) (s : State) : Changes [.funcs, .irqs, .tether] s (fallEnds k code s) := by
  unfold fallEnds
  refine Changes.ite (fun _ => endRetrain_changes _ _ (by decide) (raise_changes _ _ (by decide) ?_)) fun _ => raise_changes _ _ (by decide) ?_
  all_goals
    split
    · exact record_changes _ _ _ _ _ _ (by decide) (Changes.refl _ s)
    · exact Changes.refl _ s

theorem noted_endRetrain (op : OpStatus) (f : Func) (c : Code) (s : State) : noted (endRetrain op s) f c = noted s f c := by
  rw [endRetrain, noted_raise]
  rfl

theorem noted_fallEnds (k : LaneId) (c : Code) (s : State) : noted (fallEnds k (some c) s) 0 c = true := by
  unfold fallEnds
  dsimp only
  split
  · rw [noted_endRetrain, noted_raise, noted_record]
  · rw [noted_raise, noted_record]

theorem steerFollower_quiet (s : State) : Changes [.tc] s (steerFollower s) := steerFollower_changes _ (by decide) (Changes.refl _ s)

/-- A lane that was not HITCHED falls with its state alone. -/
theorem unhitch_of_down {k : LaneId} {s : State} (h : (getLane s k).state ≠ .hitched) (cause : BitVec 4) (code : Option Code) (retry : Bool) :
    unhitch k cause code retry s = fallEnds k code (modLane k (fun x =>
      { x with state := .unhitched, phase := 0, cause, backoff := if retry then min 6 (x.backoff + 1) else x.backoff }) s) :=
  congrArg (fallEnds k code) (if_neg h)

theorem unhitch_of_hitched {k : LaneId} {s : State} (h : (getLane s k).state = .hitched) (cause : BitVec 4) (code : Option Code) (retry : Bool) :
    unhitch k cause code retry s = fallEnds k code (steerFollower (laneLeaves k (modLane k (fun x =>
      { x with state := .unhitched, phase := 0, cause, backoff := if retry then min 6 (x.backoff + 1) else x.backoff }) s))) :=
  congrArg (fallEnds k code) (if_pos h)

/-- What the fall of a lane in training leaves. -/
structure FellDown (k : LaneId) (cause : BitVec 4) (retry : Bool) (s t : State) : Prop where
  lane : getLane t k = fallen cause retry (getLane s k)
  changes : Changes [.funcs, .irqs, .lanes, .tether] s t

theorem unhitch_down {k : LaneId} {s : State} (h : (getLane s k).state ≠ .hitched) (cause : BitVec 4) (code : Option Code) (retry : Bool) :
    FellDown k cause retry s (unhitch k cause code retry s) := by
  rw [unhitch_of_down h]
  exact ⟨((fallEnds_changes ..).getLane k).trans (getLane_modLane ..),
    (modLane_changes (P := [.funcs, .irqs, .lanes, .tether]) _ _ _ (by decide) (Changes.refl _ s)).trans ((fallEnds_changes ..).mono (by decide))⟩

/-- A lane that was HITCHED falls, and what it held is lost or handed on. -/
theorem unhitch_hitched {k : LaneId} {s : State} (h : (getLane s k).state = .hitched) (cause : BitVec 4) (code : Option Code) (retry : Bool) :
    ∃ d, getLane (unhitch k cause code retry s) k = { left (fallen cause retry (getLane s k)) with diverted := d } := by
  have own : getLane (modLane k (fun x => { x with state := .unhitched, phase := 0, cause, backoff := if retry then min 6 (x.backoff + 1) else x.backoff }) s) k =
      fallen cause retry (getLane s k) := getLane_modLane ..
  obtain ⟨d, hd⟩ := getLane_laneLeaves (k := k)
    (s := modLane k (fun x => { x with state := .unhitched, phase := 0, cause, backoff := if retry then min 6 (x.backoff + 1) else x.backoff }) s)
    (by rw [own]; exact LaneState.noConfusion)
  rw [unhitch_of_hitched h]
  exact ⟨d, ((fallEnds_changes ..).getLane k).trans (((steerFollower_quiet _).getLane k).trans (hd.trans (by rw [own])))⟩

theorem noted_unhitch (k : LaneId) (cause : BitVec 4) (c : Code) (retry : Bool) (s : State) : noted (unhitch k cause (some c) retry s) 0 c = true := by
  by_cases h : (getLane s k).state = .hitched
  · rw [unhitch_of_hitched h]; exact noted_fallEnds ..
  · rw [unhitch_of_down h]; exact noted_fallEnds ..

/-! ## RETRAIN and TL_CTL (R538, R540, R554) -/

/-- A lane of which a RETRAIN begins. -/
def retraining (k : LaneId) (s : State) : State :=
  train k (modLane k (fun x => if (getLane s k).state = .hitched then { x with cause := 7 } else { x with backoff := 0 }) s)

/-- The operation of TETHER as a RETRAIN begins. -/
def retrainShown (k : LaneId) (s : State) : State :=
  setTether (fun t => { t with op := opStart, retrain := some k, partialValid := true, phase := 1, measured := 0 }) s

theorem startRetrain_eq (k : LaneId) (s : State) : startRetrain k s =
    retrainShown k (if (getLane s k).state = .hitched then steerFollower (laneLeaves k (retraining k s)) else retraining k s) := rfl

/-- A RETRAIN of a lane in each of its states. -/
theorem startRetrain_effect (k : LaneId) (s : State) :
    (getLane (startRetrain k s) k).state = .training ∧ (getLane (startRetrain k s) k).phase = 1 ∧
    (getLane (startRetrain k s) k).trainings = satInc (getLane s k).trainings ∧ (startRetrain k s).tether.op = opStart ∧
    (startRetrain k s).tether.retrain = some k ∧
    ((getLane s k).state = .hitched → (getLane (startRetrain k s) k).cause = 7 ∧ (getLane (startRetrain k s) k).egress = [] ∧
      (getLane (startRetrain k s) k).unacked = []) := by
  have shown (u : State) : getLane (retrainShown k u) k = getLane u k := rfl
  have own := getLane_train k (modLane k (fun x => if (getLane s k).state = .hitched then { x with cause := 7 } else { x with backoff := 0 }) s)
  rw [getLane_modLane] at own
  rw [startRetrain_eq, shown]
  by_cases h : (getLane s k).state = .hitched
  · rw [if_pos h] at own
    obtain ⟨d, hd⟩ := getLane_laneLeaves (k := k) (s := retraining k s) (by rw [retraining, own]; exact LaneState.noConfusion)
    rw [retraining, own] at hd
    rw [if_pos h, (steerFollower_quiet _).getLane, retraining, hd]
    exact ⟨rfl, rfl, rfl, rfl, rfl, fun _ => ⟨rfl, rfl, rfl⟩⟩
  · rw [if_neg h] at own
    rw [if_neg h, retraining, own]
    exact ⟨rfl, rfl, rfl, rfl, rfl, fun k => absurd k h⟩

/-- The lane's settings as a TL_CTL write leaves them. -/
def setTl (val : Word) (x : Lane) : Lane := { x with enable := bit val 31, eqAuto := bit val 30, eqSet := bits val 24 4 }

/-- A lane that TL_CTL enables: its pattern generator and checker stop. -/
def opened (x : Lane) : Lane := { x with backoff := 0, prbs := { x.prbs with genEn := false, chkEn := false, locked := false } }

/-- A lane with the settings of a TL_CTL write. -/
def tlSet (k : LaneId) (val : Word) (s : State) : State := modLane k (fun x => { x with enable := bit val 31, eqAuto := bit val 30, eqSet := bits val 24 4 }) s

theorem getLane_tlSet (k : LaneId) (val : Word) (s : State) : getLane (tlSet k val s) k = setTl val (getLane s k) := getLane_modLane ..

theorem getLane_tlSet_other {k j : LaneId} (h : j ≠ k) (val : Word) (s : State) : getLane (tlSet k val s) j = getLane s j := getLane_modLane_other h _ _

theorem tlSet_changes (k : LaneId) (val : Word) (s : State) : Changes [.lanes] s (tlSet k val s) := modLane_changes _ _ _ (by decide) (Changes.refl _ s)

/-- The write enables the lane. -/
def tlOpened (k : LaneId) (val : Word) (s : State) : State :=
  modLane k (fun x => { x with backoff := 0, prbs := { x.prbs with genEn := false, chkEn := false, locked := false } }) (tlSet k val s)

theorem getLane_tlOpened (k : LaneId) (val : Word) (s : State) : getLane (tlOpened k val s) k = opened (setTl val (getLane s k)) :=
  (getLane_modLane ..).trans (congrArg opened (getLane_tlSet k val s))

theorem getLane_tlOpened_other {k j : LaneId} (h : j ≠ k) (val : Word) (s : State) : getLane (tlOpened k val s) j = getLane s j :=
  (getLane_modLane_other h _ _).trans (getLane_tlSet_other h val s)

theorem tlOpened_changes (k : LaneId) (val : Word) (s : State) : Changes [.lanes] s (tlOpened k val s) :=
  modLane_changes _ _ _ (by decide) (tlSet_changes k val s)

section
variable {k : LaneId} {val : Word} {s : State}

theorem tlCtl_opens (on : bit val 31 = true) (was : (getLane s k).enable = false) :
    tlCtl k val s = if lanesHeld s then tlOpened k val s else train k (tlOpened k val s) := by
  unfold tlCtl
  dsimp only
  rw [if_pos (by rw [on, was]; rfl)]
  rfl

theorem tlCtl_closes (off : bit val 31 = false) (was : (getLane s k).enable = true) (up : (getLane s k).state ≠ .unhitched) :
    tlCtl k val s = unhitch k 6 none false (tlSet k val s) := by
  have held : (getLane (tlSet k val s) k).state ≠ .unhitched := by rw [getLane_tlSet]; exact up
  unfold tlCtl
  dsimp only
  rw [if_neg (by rw [off]; exact Bool.false_ne_true), if_pos (by rw [Bool.and_eq_true, Bool.and_eq_true]; exact ⟨⟨was, by rw [off]; rfl⟩, decide_eq_true held⟩)]
  rfl

theorem tlCtl_sets (same : bit val 31 = (getLane s k).enable) : tlCtl k val s = tlSet k val s := by
  unfold tlCtl
  dsimp only
  rw [if_neg (by rw [← same]; cases bit val 31 <;> decide), if_neg (by rw [← same]; cases bit val 31 <;> simp)]
  rfl

end

/-! ## TRAINING_PHASE_END (R539, R540, R548) -/

/-- A lane whose equaliser phase picks the widest eye takes the lowest of the widest. -/
theorem widestEye_spec (eyes : Tab (BitVec 8)) : widestEye eyes < 16 ∧
    ∀ j, j < 16 → tabGet 0 eyes j ≤ tabGet 0 eyes (widestEye eyes) ∧ (tabGet 0 eyes j = tabGet 0 eyes (widestEye eyes) → widestEye eyes ≤ j) := by
  have upTo (n : Nat) : (List.range (n + 1)).foldl (fun best k => if tabGet 0 eyes best < tabGet 0 eyes k then k else best) 0 < n + 1 ∧
      ∀ j, j < n + 1 → tabGet 0 eyes j ≤ tabGet 0 eyes ((List.range (n + 1)).foldl (fun best k => if tabGet 0 eyes best < tabGet 0 eyes k then k else best) 0) ∧
        (tabGet 0 eyes j = tabGet 0 eyes ((List.range (n + 1)).foldl (fun best k => if tabGet 0 eyes best < tabGet 0 eyes k then k else best) 0) →
          (List.range (n + 1)).foldl (fun best k => if tabGet 0 eyes best < tabGet 0 eyes k then k else best) 0 ≤ j) := by
    induction n with
    | zero => simp
    | succ n ih =>
      rw [List.range_succ, List.foldl_append, List.foldl_cons, List.foldl_nil]
      generalize (List.range (n + 1)).foldl (fun best k => if tabGet 0 eyes best < tabGet 0 eyes k then k else best) 0 = b at ih
      obtain ⟨small, widest⟩ := ih
      split
      next wider =>
        refine ⟨by omega, fun j hj => ?_⟩
        by_cases e : j = n + 1
        · subst e
          exact ⟨BitVec.le_refl _, fun _ => le_refl _⟩
        · obtain ⟨le, -⟩ := widest j (by omega)
          exact ⟨by bv_omega, fun e => by bv_omega⟩
      next narrower =>
        refine ⟨by omega, fun j hj => ?_⟩
        by_cases e : j = n + 1
        · subst e
          exact ⟨by bv_omega, fun _ => by omega⟩
        · exact widest j (by omega)
  exact upTo 15

/-- The next phase of a lane's training. -/
def nextPhase (k : LaneId) (p : Nat) (s : State) : State := showRetrain k (modLane k (fun y => { y with phase := p + 1 }) s)

theorem showRetrain_quiet (k : LaneId) (s : State) : Changes [.tether] s (showRetrain k s) := showRetrain_changes _ _ (by decide) (Changes.refl _ s)

theorem getLane_nextPhase (k : LaneId) (p : Nat) (s : State) : getLane (nextPhase k p s) k = { getLane s k with phase := p + 1 } :=
  ((showRetrain_quiet ..).getLane k).trans (getLane_modLane ..)

theorem getLane_nextPhase_other {k j : LaneId} (h : j ≠ k) (p : Nat) (s : State) : getLane (nextPhase k p s) j = getLane s j :=
  ((showRetrain_quiet ..).getLane j).trans (getLane_modLane_other h _ _)

theorem nextPhase_changes (k : LaneId) (p : Nat) (s : State) : Changes [.lanes, .tether] s (nextPhase k p s) :=
  showRetrain_changes _ _ (by decide) (modLane_changes _ _ _ (by decide) (Changes.refl _ s))

/-- The partner that phase 4 has found. -/
def seen (k : LaneId) (found : PhaseFound) (s : State) : State :=
  modLane k (fun y => { y with seenId := found.partnerId, seenLane := found.partnerLane }) s

section
variable {k : LaneId} {s : State} (training : (getLane s k).state = .training) (found : PhaseFound)
include training

theorem phaseEnd_one (phase : (getLane s k).phase = 1) : phaseEnd k found s = if 200 < found.ppm then unhitch k 3 (some 0x2A03) true s else nextPhase k 1 s := by
  simp only [phaseEnd, training, phase, if_true]
  rfl

theorem phaseEnd_three (phase : (getLane s k).phase = 3) : phaseEnd k found s = nextPhase k 3 (modLane k (equalise found.eyes) s) := by
  simp only [phaseEnd, training, phase, if_true]
  rfl

theorem phaseEnd_four (phase : (getLane s k).phase = 4) : phaseEnd k found s =
    if found.partnerId ≠ (laneCfg s k).partnerId ∨ found.partnerLane ≠ (laneCfg s k).partnerLane then unhitch k 2 (some 0x2A02) true (seen k found s)
    else nextPhase k 4 (seen k found s) := by
  simp only [phaseEnd, training, phase, if_true]
  rfl

theorem phaseEnd_five (phase : (getLane s k).phase = 5) (trips : 1024 ≤ (getLane s k).time.trips) : phaseEnd k found s = hitch k s := by
  simp only [phaseEnd, training, phase, if_true, trips]

end

/-- The end of a lane's training (R548). -/
def hitchEnds (k : LaneId) (s : State) : State := if s.tether.retrain = some k then endRetrain (opDone 0x0A01) s else s

/-- A lane that has become HITCHED. -/
def joined (x : Lane) : Lane :=
  { x with
    state := .hitched, phase := 0, backoff := 0, ackCount := 0, intactIn := 0
    time := { x.time with mean := latField (meanLatency x.time.sum x.time.trips), worst := latField (x.time.largest + 224), maxRun := 0, sent := none } }

/-- The lane's record as it becomes HITCHED. -/
def laneJoined (k : LaneId) (s : State) : State :=
  modLane k (fun x =>
    { x with
      state := .hitched, phase := 0, backoff := 0, ackCount := 0, intactIn := 0
      time := { x.time with mean := latField (meanLatency x.time.sum x.time.trips), worst := latField (x.time.largest + 224), maxRun := 0, sent := none } }) s

theorem hitch_eq (k : LaneId) (s : State) : hitch k s =
    hitchEnds k (steerFollower (replacePackets (raise (laneSource k) (record 0x0A01 8 0 0 0 (laneJoined k s))))) := rfl

theorem hitch_effect (k : LaneId) (s : State) : getLane (hitch k s) k = joined (getLane s k) ∧ (∀ j, j ≠ k → getLane (hitch k s) j = getLane s j) ∧
    noted (hitch k s) 0 0x0A01 = true := by
  have moves (u : State) : Changes [.tether, .tc] u (steerFollower (replacePackets u)) :=
    steerFollower_changes _ (by decide) (replacePackets_changes _ (by decide) (Changes.refl _ u))
  have told (u : State) : Changes [.funcs, .irqs] u (raise (laneSource k) (record 0x0A01 8 0 0 0 u)) :=
    raise_changes _ _ (by decide) (record_changes _ _ _ _ _ _ (by decide) (Changes.refl _ u))
  have ends (u : State) : Changes [.funcs, .irqs, .tether] u (hitchEnds k u) :=
    Changes.ite (fun _ => endRetrain_changes _ _ (by decide) (Changes.refl _ u)) fun _ => Changes.refl _ u
  have quiet (u : State) : noted (hitchEnds k u) 0 0x0A01 = noted u 0 0x0A01 := by
    unfold hitchEnds
    split
    · exact noted_endRetrain ..
    · rfl
  have lane (j : LaneId) : getLane (hitch k s) j = getLane (laneJoined k s) j := by
    rw [hitch_eq, (ends _).getLane, (moves _).getLane, (told _).getLane]
  refine ⟨(lane k).trans (getLane_modLane ..), fun j hj => (lane j).trans (getLane_modLane_other hj _ _), ?_⟩
  rw [hitch_eq, quiet, (moves _).noted 0, noted_raise, noted_record]

/-! ## TIME_MARK_RECEIVED (R547 to R549) -/

/-- The request that was out has been answered. -/
def answered (k : LaneId) (s : State) : State := modLane k (fun x => { x with time := { x.time with sent := none } }) s

theorem timeMark_reply {k : LaneId} {s : State} {t1 t2 t3 : Int} {at_ : Fin 256} (on : marksOn (getLane s k) = true) (sent : (getLane s k).time.sent = some t1) :
    timeMark k (.reply t2 t3 at_) s = if (getLane s k).state = .training
      then trainTrip k ((stampNow s at_.val - t1) - (t3 - t2)) (((t2 - t1) - (stampNow s at_.val - t3)) / 2) (answered k s)
      else runTrip k ((stampNow s at_.val - t1) - (t3 - t2)) (((t2 - t1) - (stampNow s at_.val - t3)) / 2) (answered k s) := by
  simp only [timeMark, on, sent, Bool.not_true, Bool.false_eq_true, if_false]
  rfl

theorem getLane_answered (k : LaneId) (s : State) : getLane (answered k s) k = { getLane s k with time := { (getLane s k).time with sent := none } } :=
  getLane_modLane ..

theorem getLane_answered_other {k j : LaneId} (h : j ≠ k) (s : State) : getLane (answered k s) j = getLane s j := getLane_modLane_other h _ _

theorem trainTrip_effect (k : LaneId) (twice offset : Int) (s : State) :
    (getLane (trainTrip k twice offset s) k).time.trips = (getLane s k).time.trips + 1 ∧
    (getLane (trainTrip k twice offset s) k).time.sum = (getLane s k).time.sum + twice ∧
    (getLane (trainTrip k twice offset s) k).state = (getLane s k).state ∧ ∀ j, j ≠ k → getLane (trainTrip k twice offset s) j = getLane s j := by
  have own : getLane (trainTrip k twice offset s) k = _ := ((showRetrain_quiet ..).getLane k).trans (getLane_modLane ..)
  rw [own]
  exact ⟨rfl, rfl, rfl, fun j hj => ((showRetrain_quiet ..).getLane j).trans (getLane_modLane_other hj _ _)⟩

/-- The lane after a round trip while HITCHED. -/
def ran (twice offset : Int) (x : Lane) : Lane :=
  { x with overErr := x.overErr || decide (x.time.worst.toNat < (twice / 2).toNat)
           time := { x.time with last := latField (twice / 2).toNat, maxRun := latField (max x.time.maxRun.toNat (twice / 2).toNat), offset := BitVec.ofInt 32 offset } }

/-- A latency above the worst of the training is recorded (R549). -/
def tellOver (k : LaneId) (above : Bool) (s : State) : State := if above then raise (laneSource k) (record 0x3A05 8 0 0 0 s) else s

theorem tellOver_changes (k : LaneId) (above : Bool) (s : State) : Changes [.funcs, .irqs] s (tellOver k above s) :=
  Changes.ite (fun _ => raise_changes _ _ (by decide) (record_changes _ _ _ _ _ _ (by decide) (Changes.refl _ s))) fun _ => Changes.refl _ s

theorem runTrip_eq (k : LaneId) (twice offset : Int) (s : State) : runTrip k twice offset s =
    steerFollower (tellOver k (decide ((getLane s k).time.worst.toNat < (twice / 2).toNat))
      (modLane k (fun x => { x with
        overErr := x.overErr || decide ((getLane s k).time.worst.toNat < (twice / 2).toNat)
        time := { x.time with last := latField (twice / 2).toNat, maxRun := latField (max x.time.maxRun.toNat (twice / 2).toNat), offset := BitVec.ofInt 32 offset } }) s)) :=
  rfl

theorem runTrip_effect (k : LaneId) (twice offset : Int) (s : State) :
    getLane (runTrip k twice offset s) k = ran twice offset (getLane s k) ∧ (∀ j, j ≠ k → getLane (runTrip k twice offset s) j = getLane s j) ∧
    ((getLane s k).time.worst.toNat < (twice / 2).toNat → noted (runTrip k twice offset s) 0 0x3A05 = true) := by
  rw [runTrip_eq]
  refine ⟨?_, fun j hj => ?_, fun above => ?_⟩
  · exact ((steerFollower_quiet _).getLane k).trans (((tellOver_changes ..).getLane k).trans (getLane_modLane ..))
  · exact ((steerFollower_quiet _).getLane j).trans (((tellOver_changes ..).getLane j).trans (getLane_modLane_other hj _ _))
  · rw [(steerFollower_quiet _).noted 0, tellOver, if_pos (decide_eq_true above), noted_raise, noted_record]

/-! ## The commands and events -/

section
variable {s : State} {f : Func} {k : LaneId}

theorem retrain_effect (hadm : admitsSpine s f (.tether .cmd) = true) (ok : retrainCode k s = none) :
    ∃ t, exec (.retrain f k) s = .next t ∧ (getLane t k).state = .training ∧ (getLane t k).phase = 1 ∧
      (getLane t k).trainings = satInc (getLane s k).trainings ∧ t.tether.op = opStart ∧ t.tether.retrain = some k ∧
      ((getLane s k).state = .hitched → (getLane t k).cause = 7 ∧ (getLane t k).egress = [] ∧ (getLane t k).unacked = []) ∧
      Changes [.funcs, .irqs, .books, .lanes, .tether, .tc] s t := by
  obtain ⟨state, phase, trainings, op, retrain, hitched⟩ := startRetrain_effect k s
  exact ⟨_, congrArg Host.Outcome.next (spineCommand_of_admits hadm tetherOp (code := retrainCode k) ok (startRetrain k)), state, phase, trainings, op, retrain, hitched,
    startRetrain_changes _ _ (by decide) (Changes.refl _ s)⟩

theorem inject_effect (hadm : admitsSpine s f (.tether .cmd) = true) (up : (getLane s k).state = .hitched) :
    ∃ t, exec (.inject f k) s = .next t ∧ getLane t k = { getLane s k with corruptNext := true } ∧
      (∀ j, j ≠ k → getLane t j = getLane s j) ∧ Changes [.lanes] s t :=
  ⟨_, congrArg Host.Outcome.next (spineCommand_of_admits hadm tetherOp (code := fun s => if hitched s k then none else some 0x1A03)
      (if_pos (decide_eq_true up)) (modLane k fun x => { x with corruptNext := true })),
    getLane_modLane .., fun _ hj => getLane_modLane_other hj _ _, modLane_changes _ _ _ (by decide) (Changes.refl _ s)⟩

/-- The wait in UNHITCHED ends in training. -/
theorem backoffEnd_effect (down : (getLane s k).state = .unhitched) (on : (getLane s k).enable = true) (free : lanesHeld s = false) :
    (getLane (backoffEnd k s) k).state = .training ∧ (getLane (backoffEnd k s) k).phase = 1 ∧
      (∀ j, j ≠ k → getLane (backoffEnd k s) j = getLane s j) ∧ Changes [.funcs, .irqs, .lanes] s (backoffEnd k s) := by
  have ends : backoffEnd k s = train k s := if_pos ⟨down, on, by simp [free]⟩
  rw [ends, getLane_train]
  exact ⟨rfl, rfl, fun j hj => getLane_train_other hj s, train_changes _ _ (by decide) (Changes.refl _ s)⟩

end

/-- TL_CTL, by what the write asks and where the lane stands. -/
theorem tlCtlWrite_effect (s : State) (f : Func) (k : LaneId) (val : Word) (hadm : admits s f (.tl k .ctl) = true) :
    (bit val 31 = true → (getLane s k).enable = false → lanesHeld s = true →
      ∃ t, exec (.tlCtlWrite f k val) s = .next t ∧ (getLane t k).enable = true ∧ (getLane t k).state = (getLane s k).state ∧
        (getLane t k).trainings = (getLane s k).trainings ∧ (∀ j, j ≠ k → getLane t j = getLane s j) ∧ Changes [.lanes] s t) ∧
    (bit val 31 = true → (getLane s k).enable = false → lanesHeld s = false →
      ∃ t, exec (.tlCtlWrite f k val) s = .next t ∧ (getLane t k).enable = true ∧ (getLane t k).state = .training ∧ (getLane t k).phase = 1 ∧
        (getLane t k).backoff = 0 ∧ (getLane t k).eqAuto = bit val 30 ∧ (getLane t k).eqSet = bits val 24 4 ∧
        (getLane t k).prbs.genEn = false ∧ (∀ j, j ≠ k → getLane t j = getLane s j) ∧ Changes [.funcs, .irqs, .lanes] s t) ∧
    (bit val 31 = false → (getLane s k).enable = true → (getLane s k).state ≠ .unhitched →
      ∃ t, exec (.tlCtlWrite f k val) s = .next t ∧ (getLane t k).enable = false ∧ (getLane t k).state = .unhitched ∧ (getLane t k).cause = 6 ∧
        Changes [.funcs, .irqs, .books, .lanes, .tether, .tc] s t) ∧
    (bit val 31 = (getLane s k).enable →
      ∃ t, exec (.tlCtlWrite f k val) s = .next t ∧ getLane t k = { getLane s k with eqAuto := bit val 30, eqSet := bits val 24 4 } ∧
        (∀ j, j ≠ k → getLane t j = getLane s j) ∧ Changes [.lanes] s t) := by
  have write : exec (.tlCtlWrite f k val) s = .next (tlCtl k val s) := congrArg Host.Outcome.next (hostWrite_of_admits hadm _)
  refine ⟨fun on was held => ⟨_, write, ?_⟩, fun on was free => ⟨_, write, ?_⟩, fun off was up => ⟨_, write, ?_⟩, fun same => ⟨_, write, ?_⟩⟩
  · rw [tlCtl_opens on was, if_pos held, getLane_tlOpened]
    exact ⟨on, rfl, rfl, fun j hj => getLane_tlOpened_other hj val s, tlOpened_changes k val s⟩
  · rw [tlCtl_opens on was, if_neg (by rw [free]; exact Bool.false_ne_true), getLane_train, getLane_tlOpened]
    exact ⟨on, rfl, rfl, rfl, rfl, rfl, rfl, fun j hj => (getLane_train_other hj _).trans (getLane_tlOpened_other hj val s),
      train_changes _ _ (by decide) ((tlOpened_changes k val s).mono (by decide))⟩
  · have own := getLane_tlSet k val s
    have frame : Changes [.funcs, .irqs, .books, .lanes, .tether, .tc] s (unhitch k 6 none false (tlSet k val s)) :=
      unhitch_changes _ _ _ _ _ (by decide) ((tlSet_changes k val s).mono (by decide))
    rw [tlCtl_closes off was up]
    by_cases h : (getLane (tlSet k val s) k).state = .hitched
    · obtain ⟨d, hd⟩ := unhitch_hitched h 6 none false
      rw [hd, own]
      exact ⟨off, rfl, rfl, frame⟩
    · rw [(unhitch_down h 6 none false).lane, own]
      exact ⟨off, rfl, rfl, frame⟩
  · rw [tlCtl_sets same, getLane_tlSet, setTl, same]
    exact ⟨rfl, fun j hj => getLane_tlSet_other hj val s, tlSet_changes k val s⟩

/-- TRAINING_PHASE_END and TRAINING_TIMEOUT of a lane in training. -/
theorem trainingPhaseEnd_effect (s : State) (k : LaneId) (found : PhaseFound) (training : (getLane s k).state = .training) :
    ((getLane s k).phase = 1 → found.ppm ≤ 200 →
      ∃ t, exec (.trainingPhaseEnd k found) s = .next t ∧ getLane t k = { getLane s k with phase := 2 } ∧
        (∀ j, j ≠ k → getLane t j = getLane s j) ∧ Changes [.lanes, .tether] s t) ∧
    ((getLane s k).phase = 1 → 200 < found.ppm →
      ∃ t, exec (.trainingPhaseEnd k found) s = .next t ∧ (getLane t k).state = .unhitched ∧ (getLane t k).cause = 3 ∧
        (getLane t k).backoff = min 6 ((getLane s k).backoff + 1) ∧ noted t 0 0x2A03 = true ∧
        Changes [.funcs, .irqs, .lanes, .tether] s t) ∧
    ((getLane s k).phase = 3 →
      ∃ t, exec (.trainingPhaseEnd k found) s = .next t ∧ (getLane t k).phase = 4 ∧
        ((getLane s k).trainAuto = false →
          (getLane t k).eqNow = (getLane s k).trainSet ∧ (getLane t k).eye = tabGet 0 found.eyes (getLane s k).trainSet.toNat) ∧
        ((getLane s k).trainAuto = true → (getLane t k).eye = tabGet 0 found.eyes (getLane t k).eqNow.toNat ∧
          (∀ j, j < 16 → tabGet 0 found.eyes j ≤ (getLane t k).eye ∧ (tabGet 0 found.eyes j = (getLane t k).eye → (getLane t k).eqNow.toNat ≤ j))) ∧
        (∀ j, j ≠ k → getLane t j = getLane s j) ∧ Changes [.lanes, .tether] s t) ∧
    ((getLane s k).phase = 4 → found.partnerId ≠ (laneCfg s k).partnerId ∨ found.partnerLane ≠ (laneCfg s k).partnerLane →
      ∃ t, exec (.trainingPhaseEnd k found) s = .next t ∧ (getLane t k).state = .unhitched ∧ (getLane t k).cause = 2 ∧
        (getLane t k).seenId = found.partnerId ∧ noted t 0 0x2A02 = true ∧ Changes [.funcs, .irqs, .lanes, .tether] s t) ∧
    ((getLane s k).phase = 4 → found.partnerId = (laneCfg s k).partnerId → found.partnerLane = (laneCfg s k).partnerLane →
      ∃ t, exec (.trainingPhaseEnd k found) s = .next t ∧ (getLane t k).state = .training ∧ (getLane t k).phase = 5 ∧
        (∀ j, j ≠ k → getLane t j = getLane s j) ∧ Changes [.lanes, .tether] s t) ∧
    ((getLane s k).phase = 5 → 1024 ≤ (getLane s k).time.trips →
      ∃ t, exec (.trainingPhaseEnd k found) s = .next t ∧ (getLane t k).state = .hitched ∧ (getLane t k).backoff = 0 ∧
        (getLane t k).time.mean = latField (meanLatency (getLane s k).time.sum (getLane s k).time.trips) ∧ noted t 0 0x0A01 = true ∧
        (∀ j, j ≠ k → getLane t j = getLane s j) ∧ Changes [.funcs, .irqs, .lanes, .tether, .tc] s t) ∧
    (∃ t, exec (.trainingTimeout k) s = .next t ∧ (getLane t k).state = .unhitched ∧ (getLane t k).cause = 1 ∧
      (getLane t k).backoff = min 6 ((getLane s k).backoff + 1) ∧ noted t 0 0x2A01 = true ∧ Changes [.funcs, .irqs, .lanes, .tether] s t) := by
  have down : (getLane s k).state ≠ .hitched := by rw [training]; exact LaneState.noConfusion
  have ends : exec (.trainingPhaseEnd k found) s = .next (phaseEnd k found s) := rfl
  have other : Changes [.lanes] s (seen k found s) := modLane_changes _ _ _ (by decide) (Changes.refl _ s)
  have partner : getLane (seen k found s) k = { getLane s k with seenId := found.partnerId, seenLane := found.partnerLane } := getLane_modLane ..
  refine ⟨fun one near => ⟨_, ends, ?_⟩, fun one far => ⟨_, ends, ?_⟩, fun three => ⟨_, ends, ?_⟩, fun four wrong => ⟨_, ends, ?_⟩,
    fun four id lane => ⟨_, ends, ?_⟩, fun five trips => ⟨_, ends, ?_⟩, ?_⟩
  · rw [phaseEnd_one training found one, if_neg (by omega), getLane_nextPhase]
    exact ⟨rfl, fun j hj => getLane_nextPhase_other hj 1 s, nextPhase_changes k 1 s⟩
  · have fell := unhitch_down down 3 (some 0x2A03) true
    rw [phaseEnd_one training found one, if_pos far, fell.lane]
    exact ⟨rfl, rfl, rfl, noted_unhitch .., fell.changes⟩
  · have equal : getLane (modLane k (equalise found.eyes) s) k = equalise found.eyes (getLane s k) := getLane_modLane ..
    obtain ⟨small, widest⟩ := widestEye_spec found.eyes
    rw [phaseEnd_three training found three, getLane_nextPhase, equal]
    refine ⟨rfl, fun set => ?_, fun auto => ?_, fun j hj => (getLane_nextPhase_other hj 3 _).trans (getLane_modLane_other hj _ _),
      ((modLane_changes (P := [.lanes, .tether]) _ _ _ (by decide) (Changes.refl _ s))).trans (nextPhase_changes k 3 _)⟩
    · simp [equalise, set]
    · have number : (BitVec.ofNat 4 (widestEye found.eyes)).toNat = widestEye found.eyes := by rw [BitVec.toNat_ofNat]; exact Nat.mod_eq_of_lt small
      simp only [equalise, auto, if_true, number]
      exact ⟨trivial, widest⟩
  · have fell := unhitch_down (k := k) (s := seen k found s) (by rw [partner]; exact down) 2 (some 0x2A02) true
    rw [phaseEnd_four training found four, if_pos wrong, fell.lane, partner]
    exact ⟨rfl, rfl, rfl, noted_unhitch .., (other.mono (by decide)).trans fell.changes⟩
  · rw [phaseEnd_four training found four, if_neg (by simp [id, lane]), getLane_nextPhase, partner]
    exact ⟨training, rfl, fun j hj => (getLane_nextPhase_other hj 4 _).trans (getLane_modLane_other hj _ _),
      (other.mono (by decide)).trans (nextPhase_changes k 4 _)⟩
  · obtain ⟨lane, others, logged⟩ := hitch_effect k s
    rw [phaseEnd_five training found five trips, lane]
    exact ⟨rfl, rfl, rfl, logged, others, hitch_changes _ _ (by decide) (Changes.refl _ s)⟩
  · have fell := unhitch_down down 1 (some 0x2A01) true
    refine ⟨unhitch k 1 (some 0x2A01) true s, congrArg Host.Outcome.next (if_pos training), ?_⟩
    rw [fell.lane]
    exact ⟨rfl, rfl, rfl, noted_unhitch .., fell.changes⟩

/-- Settles O48: the life of a tether lane.  That a reply's t3 is its t2 is log entry 192, that no lane trains before a herd image is in force or in its phases
5 and 6 is log entry 193, and the rounding of the latencies is log entry 110: the model's choices. -/
theorem lanesTrainHitchAndFall : Obligations.LanesTrainHitchAndFall := by
  unfold Obligations.LanesTrainHitchAndFall
  refine ⟨fun s f k hadm => ⟨retrain_effect hadm, inject_effect hadm⟩, tlCtlWrite_effect, fun s k down on free => ⟨?pattern, ?backoff⟩,
    trainingPhaseEnd_effect, fun s k up => ⟨?signal, ?errors, ?mark⟩, fun s k at_ on => ?request,
    fun s k t1 t2 t3 t4 at_ sent stamp => ⟨fun training phase => ?trip, fun up => ?run⟩⟩
  case pattern => exact ⟨_, rfl, backoffEnd_effect down on free⟩
  case backoff => exact ⟨_, rfl, backoffEnd_effect down on free⟩
  case signal =>
    obtain ⟨d, hd⟩ := unhitch_hitched up 4 (some 0x3A01) false
    refine ⟨unhitch k 4 (some 0x3A01) false s, congrArg Host.Outcome.next (if_pos (decide_eq_true up)), ?_⟩
    rw [hd]
    exact ⟨rfl, rfl, rfl, rfl, rfl, noted_unhitch .., unhitch_changes _ _ _ _ _ (by decide) (Changes.refl _ s)⟩
  case errors =>
    obtain ⟨d, hd⟩ := unhitch_hitched up 5 (some 0x3A02) false
    refine ⟨unhitch k 5 (some 0x3A02) false s, congrArg Host.Outcome.next (if_pos (decide_eq_true up)), ?_⟩
    rw [hd]
    exact ⟨rfl, rfl, rfl, noted_unhitch .., unhitch_changes _ _ _ _ _ (by decide) (Changes.refl _ s)⟩
  case mark =>
    exact ⟨_, congrArg Host.Outcome.next (if_pos (decide_eq_true up)), getLane_modLane .., fun j hj => getLane_modLane_other hj _ _,
      modLane_changes _ _ _ (by decide) (Changes.refl _ s)⟩
  case request =>
    have asks : timeMark k (.request at_) s = modTx k (fun y => { y with marks := y.marks ++ [.reply (stampNow s at_.val) (stampNow s at_.val)] }) s := by
      simp only [timeMark, on, Bool.not_true, Bool.false_eq_true, if_false]
    exact ⟨_, congrArg Host.Outcome.next asks, getLane_modLane .., fun j hj => getLane_modLane_other hj _ _, modTx_changes _ _ _ (by decide) (Changes.refl _ s)⟩
  case trip =>
    have on : marksOn (getLane s k) = true := by simp [marksOn, training, phase]
    have trips := (timeMark_reply (t2 := t2) (t3 := t3) (at_ := at_) on sent).trans (if_pos training)
    obtain ⟨count, sum, state, other⟩ := trainTrip_effect k ((stampNow s at_.val - t1) - (t3 - t2)) (((t2 - t1) - (stampNow s at_.val - t3)) / 2) (answered k s)
    rw [getLane_answered] at count sum state
    subst stamp
    exact ⟨_, congrArg Host.Outcome.next trips, count, sum, state.trans training, fun j hj => (other j hj).trans (getLane_answered_other hj s),
      trainTrip_changes _ _ _ _ (by decide) (modLane_changes _ _ _ (by decide) (Changes.refl _ s))⟩
  case run =>
    have on : marksOn (getLane s k) = true := by simp [marksOn, up]
    have runs := (timeMark_reply (t2 := t2) (t3 := t3) (at_ := at_) on sent).trans (if_neg (by rw [up]; exact LaneState.noConfusion))
    obtain ⟨lane, other, logged⟩ := runTrip_effect k ((stampNow s at_.val - t1) - (t3 - t2)) (((t2 - t1) - (stampNow s at_.val - t3)) / 2) (answered k s)
    rw [getLane_answered] at lane logged
    subst stamp
    refine ⟨_, congrArg Host.Outcome.next runs, by rw [lane]; rfl, fun above => ⟨?_, logged above⟩, fun j hj => (other j hj).trans (getLane_answered_other hj s),
      runTrip_changes _ _ _ _ (by decide) (modLane_changes _ _ _ (by decide) (Changes.refl _ s))⟩
    rw [lane]
    exact (congrArg ((getLane s k).overErr || ·) (decide_eq_true above)).trans (Bool.or_true _)

end Sys2Proof.Machine
end

section
/-!
PROOFS. Chapter 13: events, packets and patterns of a tether lane (O49).
-/

namespace Sys2Proof.Machine

set_option Elab.async false

open Sys2Proof

/-! ## An event enters the hub (R333, R334, R367, R533) -/

/-- One copy more is issued in a channel's book, and no other book differs. -/
structure IssuesOne (e : ReinChan) (s t : State) : Prop where
  issued : (getBook t e).issued = (getBook s e).issued + 1
  other : ∀ d, d ≠ e → getBook t d = getBook s d

/-- A loop each turn of which issues a copy. -/
theorem issued_forEach {α : Type} {e : ReinChan} {f : α → State → State} (step : ∀ a u, IssuesOne e u (f a u)) (l : List α) (s : State) :
    (getBook (forEach l f s) e).issued = (getBook s e).issued + l.length ∧ ∀ d, d ≠ e → getBook (forEach l f s) d = getBook s d := by
  induction l generalizing s with
  | nil => exact ⟨rfl, fun _ _ => rfl⟩
  | cons a l ih =>
    obtain ⟨issued, other⟩ := ih (f a s)
    obtain ⟨one, same⟩ := step a s
    exact ⟨issued.trans (by rw [one, List.length_cons]; omega), fun d hd => (other d hd).trans (same d hd)⟩

/-- A copy counts as issued in its channel's book. -/
theorem issuesOne_modBook (e : ReinChan) (s : State) : IssuesOne e s (modBook e (fun b => { b with issued := b.issued + 1 }) s) :=
  ⟨congrArg Book.issued (getBook_modBook ..), fun _ hd => getBook_modBook_other hd _ _⟩

theorem IssuesOne.of_books {e : ReinChan} {s t u : State} (h : IssuesOne e s t) (same : u.books = t.books) : IssuesOne e s u := by
  have read (d : ReinChan) : getBook u d = getBook t d := by rw [getBook, same, getBook]
  exact ⟨by rw [read, h.issued], fun d hd => by rw [read, h.other d hd]⟩

/-- A copy that waits at the hub's link. -/
theorem issuesOne_addFlight (e : ReinChan) (fl : Flight) (s : State) : IssuesOne e s (addFlight fl (modBook e (fun b => { b with issued := b.issued + 1 }) s)) :=
  (issuesOne_modBook e s).of_books (addFlight_changes (P := [.flights, .nextFlight]) fl _ (by decide) (Changes.refl _ _)).books

/-- A copy that finds no plane in service counts as overrun-dropped besides. -/
theorem IssuesOne.noRouteDrop {e : ReinChan} {s t : State} (h : IssuesOne e s t) : IssuesOne e s (noRouteDrop e t) := by
  have after (o : Owner) (u : State) : Changes [.funcs, .hub] u (record 0x3647 8 o (reinObject e) 0 (setHub (fun h => { h with noRoute := satInc h.noRoute }) u)) :=
    record_changes _ _ _ _ _ _ (by decide) (setHub_changes _ _ (by decide) (Changes.refl _ u))
  have dropped : IssuesOne e s (bookOverrun e 1 t) := by
    refine ⟨?_, fun d hd => (getBook_modBook_other hd _ _).trans (h.other d hd)⟩
    rw [bookOverrun, getBook_modBook]
    exact h.issued
  exact dropped.of_books (after _ _).books

theorem issuesOne_startCopy (tok : Token) (port : Nat) (dst : Consumer) (s : State) : IssuesOne tok.chan s (startCopy tok .hub port dst s) := by
  unfold startCopy planeFlight
  dsimp only
  split
  · exact issuesOne_addFlight ..
  · exact (issuesOne_modBook tok.chan s).noRouteDrop

/-- An event of a channel that no audit holds issues a copy for each consumer, whether the hub takes it now or holds it at the link. -/
theorem hubIngress_issues {port : Nat} {tok : Token} {s : State} (hop : tok.hop ≠ 7) (free : chanHeld s tok.chan = false) :
    (getBook (hubIngress port tok s) tok.chan).issued = (getBook s tok.chan).issued + (consumersOf s tok.chan).length ∧
    (∀ e, e ≠ tok.chan → getBook (hubIngress port tok s) e = getBook s e) ∧
    Changes [.funcs, .books, .flights, .nextFlight, .hub] s (hubIngress port tok s) := by
  by_cases holds : hubHolds s = true
  · have waits : hubIngress port tok s = forEach (consumersOf s tok.chan) (fun d s =>
        addFlight { tok, src := .hub, port, dst := d, stage := .hubLink } (modBook tok.chan (fun b => { b with issued := b.issued + 1 }) s)) s := by
      rw [hubIngress, if_neg hop, if_pos (by rw [holds, free]; rfl)]
    obtain ⟨issued, other⟩ := issued_forEach (fun d u => issuesOne_addFlight tok.chan { tok, src := .hub, port, dst := d, stage := .hubLink } u)
      (consumersOf s tok.chan) s
    rw [waits]
    exact ⟨issued, other, forEach_changes _ _ _ (fun d u hu => addFlight_changes _ _ (by decide) (modBook_changes _ _ _ (by decide) hu)) (Changes.refl _ s)⟩
  · have enters : hubIngress port tok s = enterFabric { tok with hop := tok.hop + 1 } .hub port s := by
      rw [hubIngress, if_neg hop, if_neg (by simp [holds]), issueToken]
      simp [free]
    obtain ⟨issued, other⟩ := issued_forEach (fun d u => issuesOne_startCopy { tok with hop := tok.hop + 1 } port d u) (consumersOf s tok.chan) s
    rw [enters]
    exact ⟨issued, other, enterFabric_changes _ _ _ _ (by decide) (Changes.refl _ s)⟩

/-- An event at the hop limit counts as issued and is dropped (R334). -/
theorem hubIngress_loops {port : Nat} {tok : Token} {s : State} (hop : tok.hop = 7) :
    (getBook (hubIngress port tok s) tok.chan).issued = (getBook s tok.chan).issued + 1 ∧
    (getBook (hubIngress port tok s) tok.chan).loop = (getBook s tok.chan).loop + 1 ∧ (hubIngress port tok s).hub.loop = satInc s.hub.loop ∧
    noted (hubIngress port tok s) 0 0x3641 = true ∧ Changes [.funcs, .books, .hub] s (hubIngress port tok s) := by
  have told (u : State) (o : Owner) : Changes [.funcs] u (record 0x3641 8 o (reinObject tok.chan) 0 u) := record_changes _ _ _ _ _ _ (by decide) (Changes.refl _ u)
  have hub (u : State) : Changes [.hub] u (setHub (fun h => { h with loop := satInc h.loop }) u) := setHub_changes _ _ (by decide) (Changes.refl _ u)
  rw [hubIngress, if_pos hop, loopDrop]
  refine ⟨?_, ?_, ?_, noted_record .., ?_⟩
  · rw [(told _ _).getBook, (hub _).getBook, getBook_modBook, getBook_modBook]
  · rw [(told _ _).getBook, (hub _).getBook, getBook_modBook, getBook_modBook]
  · rw [(told _ _).hub]
    rfl
  · exact record_changes _ _ _ _ _ _ (by decide) (setHub_changes _ _ (by decide) (modBook_changes _ _ _ (by decide) (modBook_changes _ _ _ (by decide) (Changes.refl _ s))))

/-- The lane that has received an intact event. -/
def gotEvent (k : LaneId) (s : State) : State :=
  modLane k (fun x => { x with intactIn := x.intactIn + 1 }) (modTx k (fun t => { t with ackDue := true }) s)

theorem gotEvent_changes (k : LaneId) (s : State) : Changes [.lanes] s (gotEvent k s) :=
  modLane_changes _ _ _ (by decide) (modTx_changes _ _ _ (by decide) (Changes.refl _ s))

theorem getLane_gotEvent (k : LaneId) (s : State) : getLane (gotEvent k s) k =
    { getLane s k with intactIn := (getLane s k).intactIn + 1, tx := { (getLane s k).tx with ackDue := true } } := by
  rw [gotEvent, getLane_modLane, modTx, getLane_modLane]

theorem getLane_gotEvent_other {k j : LaneId} (h : j ≠ k) (s : State) : getLane (gotEvent k s) j = getLane s j :=
  (getLane_modLane_other h _ _).trans (getLane_modLane_other h _ _)

section
variable {s : State} {k : LaneId} (up : (getLane s k).state = .hitched)
include up

theorem eventReceived_intact (tok : Token) : exec (.eventReceived k tok true) s = .next (hubIngress (0x400 + k.val) tok (gotEvent k s)) :=
  congrArg Host.Outcome.next (if_pos (decide_eq_true up))

theorem eventReceived_broken (tok : Token) : ∃ t, exec (.eventReceived k tok false) s = .next t ∧
    getLane t k = { getLane s k with codeErr := satInc (getLane s k).codeErr, tx := { (getLane s k).tx with ackDue := true } } ∧
    (∀ j, j ≠ k → getLane t j = getLane s j) ∧ Changes [.lanes] s t := by
  refine ⟨_, congrArg Host.Outcome.next (if_pos (decide_eq_true up)), ?_, fun j hj => ?_, ?_⟩
  · exact (getLane_modLane ..).trans (by rw [modTx, getLane_modLane])
  · exact (getLane_modLane_other hj _ _).trans (getLane_modLane_other hj _ _)
  · exact modLane_changes _ _ _ (by decide) (modTx_changes _ _ _ (by decide) (Changes.refl _ s))

theorem eventReceived_enters {tok : Token} (hop : tok.hop ≠ 7) (free : chanHeld s tok.chan = false) : ∃ t, exec (.eventReceived k tok true) s = .next t ∧
    (getBook t tok.chan).issued = (getBook s tok.chan).issued + (consumersOf s tok.chan).length ∧
    getLane t k = { getLane s k with intactIn := (getLane s k).intactIn + 1, tx := { (getLane s k).tx with ackDue := true } } ∧
    (∀ j, j ≠ k → getLane t j = getLane s j) ∧
    (∀ e, e ≠ tok.chan → getBook t e = getBook s e) ∧ Changes [.funcs, .books, .flights, .nextFlight, .hub, .lanes] s t := by
  obtain ⟨issued, other, changes⟩ := hubIngress_issues (port := 0x400 + k.val) (s := gotEvent k s) hop free
  exact ⟨_, eventReceived_intact up tok, issued, (changes.getLane k).trans (getLane_gotEvent k s),
    fun j hj => (changes.getLane j).trans (getLane_gotEvent_other hj s), other, ((gotEvent_changes k s).mono (by decide)).trans (changes.mono (by decide))⟩

theorem eventReceived_loops {tok : Token} (hop : tok.hop = 7) : ∃ t, exec (.eventReceived k tok true) s = .next t ∧
    (getBook t tok.chan).issued = (getBook s tok.chan).issued + 1 ∧ (getBook t tok.chan).loop = (getBook s tok.chan).loop + 1 ∧
    t.hub.loop = satInc s.hub.loop ∧ noted t 0 0x3641 = true ∧
    getLane t k = { getLane s k with intactIn := (getLane s k).intactIn + 1, tx := { (getLane s k).tx with ackDue := true } } ∧
    (∀ j, j ≠ k → getLane t j = getLane s j) ∧ Changes [.funcs, .books, .hub, .lanes] s t := by
  obtain ⟨issued, loop, hub, logged, changes⟩ := hubIngress_loops (port := 0x400 + k.val) (s := gotEvent k s) hop
  exact ⟨_, eventReceived_intact up tok, issued, loop, hub, logged, (changes.getLane k).trans (getLane_gotEvent k s),
    fun j hj => (changes.getLane j).trans (getLane_gotEvent_other hj s), ((gotEvent_changes k s).mono (by decide)).trans (changes.mono (by decide))⟩

end

/-! ## Acknowledges and packets (R533, R535 to R537) -/

theorem hitched_of_state {s : State} {k : LaneId} (up : (getLane s k).state = .hitched) : hitched s k = true := decide_eq_true up

/-- An acknowledge of events: those that it answers and does not report intact are lost. -/
theorem ackEvents_effect (k : LaneId) (count : BitVec 8) (answers lost : Nat) (s : State)
    (h : lost = max (((getLane s k).unacked.take answers).length - (count - (getLane s k).ackCount).toNat)
      (((getLane s k).unacked.take answers).filter fun e => e.bad).length) :
    getLane (ackEvents k count answers s) k = { getLane s k with
      unacked := (getLane s k).unacked.drop answers, ackCount := count, lost := satAdd (getLane s k).lost lost } ∧
    (0 < lost → noted (ackEvents k count answers s) 0 0x3A04 = true) ∧ (∀ j, j ≠ k → getLane (ackEvents k count answers s) j = getLane s j) ∧
    Changes [.funcs, .lanes] s (ackEvents k count answers s) := by
  have told (p : Prop) [Decidable p] (u : State) : Changes [.funcs] u (if p then u else record 0x3A04 8 0 0 0 u) :=
    Changes.ite (fun _ => Changes.refl _ u) fun _ => record_changes _ _ _ _ _ _ (by decide) (Changes.refl _ u)
  unfold ackEvents
  dsimp only
  rw [← h]
  refine ⟨((told _ _).getLane k).trans (getLane_modLane ..), fun some => ?_, fun j hj => ((told _ _).getLane j).trans (getLane_modLane_other hj _ _), ?_⟩
  · rw [if_neg (Nat.ne_of_gt some)]
    exact noted_record ..
  · exact (modLane_changes (P := [.funcs, .lanes]) _ _ _ (by decide) (Changes.refl _ s)).trans ((told _ _).mono (by decide))

section
variable {s : State} {k : LaneId} (up : (getLane s k).state = .hitched)
include up

theorem packetIn_broken (p : PacketIn) : packetIn k p false s = modLane k (fun x => { x with codeErr := satInc x.codeErr }) s := by
  simp [packetIn, hitched_of_state up]

/-- A packet ahead of its order is not taken and not acknowledged. -/
theorem packetIn_ahead {p : PacketIn} (h : tabGet 0 s.tether.received (packetKey p.queue p.words.isEmpty) < p.seq) : packetIn k p true s = s := by
  have late : ¬p.seq ≤ tabGet 0 s.tether.received (packetKey p.queue p.words.isEmpty) := by omega
  have other : p.seq ≠ tabGet 0 s.tether.received (packetKey p.queue p.words.isEmpty) := by omega
  simp [packetIn, hitched_of_state up, late, other]

/-- The acknowledge of a packet that is taken, or was taken before. -/
def packAcked (k : LaneId) (p : PacketIn) (s : State) : State := modTx k (fun t => { t with packAcks := t.packAcks ++ [(p.queue, p.words.isEmpty, p.seq)] }) s

omit up in
theorem packAcked_changes (p : PacketIn) : Changes [.lanes] s (packAcked k p s) := modTx_changes _ _ _ (by decide) (Changes.refl _ s)

theorem packetIn_before {p : PacketIn} (h : p.seq < tabGet 0 s.tether.received (packetKey p.queue p.words.isEmpty)) : packetIn k p true s = packAcked k p s := by
  have early : p.seq ≤ tabGet 0 s.tether.received (packetKey p.queue p.words.isEmpty) := by omega
  have other : p.seq ≠ tabGet 0 s.tether.received (packetKey p.queue p.words.isEmpty) := by omega
  unfold packetIn
  dsimp only
  rw [hitched_of_state up, decide_eq_true early]
  exact if_neg other

/-- The packet of its turn is taken. -/
def packetTaken (k : LaneId) (p : PacketIn) (s : State) : State :=
  setTether (fun t => { t with received := tabSet t.received (packetKey p.queue p.words.isEmpty) (p.seq + 1) }) (packAcked k p s)

/-- What a packet in its order brings: remote credits, or words that follow. -/
def packetBrings (k : LaneId) (p : PacketIn) (s : State) : State :=
  if p.words.isEmpty then setTether (fun t => { t with remote := tabSet t.remote p.queue.toNat (tabGet 0 t.remote p.queue.toNat + p.credits) }) s
  else forEach p.words (pushIngress k p.queue) (followWords k p.queue s)

theorem packetIn_turn {p : PacketIn} (h : p.seq = tabGet 0 s.tether.received (packetKey p.queue p.words.isEmpty)) :
    packetIn k p true s = packetBrings k p (packetTaken k p s) := by
  have taken : decide (p.seq ≤ tabGet 0 s.tether.received (packetKey p.queue p.words.isEmpty)) = true := decide_eq_true (Nat.le_of_eq h)
  unfold packetIn
  dsimp only
  rw [hitched_of_state up, taken]
  exact if_pos h

end

theorem packetBrings_changes (k : LaneId) (p : PacketIn) (s : State) : Changes [.funcs, .queues, .qdir, .tether] s (packetBrings k p s) := by
  unfold packetBrings
  split
  · exact setTether_changes _ _ (by decide) (Changes.refl _ s)
  · exact forEach_changes _ _ _ (fun w u hu => pushIngress_changes _ _ _ _ (by decide) hu) (followWords_changes _ _ _ (by decide) (Changes.refl _ s))

theorem getLane_packAcked (k : LaneId) (p : PacketIn) (s : State) : getLane (packAcked k p s) k = { getLane s k with
    tx := { (getLane s k).tx with packAcks := (getLane s k).tx.packAcks ++ [(p.queue, p.words.isEmpty, p.seq)] } } := getLane_modLane ..

theorem getLane_packAcked_other {k j : LaneId} (h : j ≠ k) (p : PacketIn) (s : State) : getLane (packAcked k p s) j = getLane s j := getLane_modLane_other h _ _

/-- One word that comes over a lane is pushed at the lane's ingress port with its credit. -/
theorem pushIngress_pushes {k : LaneId} {q : QueueId} {i : Nat} {s : State} (port : portOfLane s q k = some i) (w : Word × Bool) :
    getProd (pushIngress k q w s) q i = { getProd s q i with
      credits := (getProd s q i).credits - 1, flight := (getProd s q i).flight ++ [{ word := w.1, eoi := w.2, port := i }] } ∧
    (pushIngress k q w s).tether.received = s.tether.received ∧ Changes [.queues, .tether] s (pushIngress k q w s) := by
  have pushes : pushIngress k q w s = modProd q i (fun d => { d with credits := d.credits - 1, flight := d.flight ++ [{ word := w.1, eoi := w.2, port := i }] })
      (setTether (fun t => { t with told := tabSet t.told q.toNat (tabGet 0 t.told q.toNat - 1) }) s) := by rw [pushIngress, port]
  rw [pushes, getProd_modProd]
  exact ⟨rfl, rfl, modProd_changes _ _ _ _ (by decide) (setTether_changes _ _ (by decide) (Changes.refl _ s))⟩

/-- PACKET_RECEIVED on a HITCHED lane (R536). -/
theorem packetReceived_effect {s : State} {k : LaneId} (up : (getLane s k).state = .hitched) (p : PacketIn) :
    (∃ t, exec (.packetReceived k p false) s = .next t ∧ getLane t k = { getLane s k with codeErr := satInc (getLane s k).codeErr } ∧
      (∀ j, j ≠ k → getLane t j = getLane s j) ∧ Changes [.lanes] s t) ∧
    (tabGet 0 s.tether.received (packetKey p.queue p.words.isEmpty) < p.seq →
      ∃ t, exec (.packetReceived k p true) s = .next t ∧ t = s) ∧
    (p.seq ≤ tabGet 0 s.tether.received (packetKey p.queue p.words.isEmpty) →
      ∃ t, exec (.packetReceived k p true) s = .next t ∧
        getLane t k = { getLane s k with
          tx := { (getLane s k).tx with packAcks := (getLane s k).tx.packAcks ++ [(p.queue, p.words.isEmpty, p.seq)] } } ∧
        (∀ j, j ≠ k → getLane t j = getLane s j) ∧
        (p.seq < tabGet 0 s.tether.received (packetKey p.queue p.words.isEmpty) → Changes [.lanes] s t)) ∧
    (p.seq = tabGet 0 s.tether.received (packetKey p.queue true) → p.words = [] →
      ∃ t, exec (.packetReceived k p true) s = .next t ∧
        tabGet 0 t.tether.received (packetKey p.queue true) = p.seq + 1 ∧
        tabGet 0 t.tether.remote p.queue.toNat = tabGet 0 s.tether.remote p.queue.toNat + p.credits ∧ Changes [.lanes, .tether] s t) ∧
    (∀ w i, p.seq = tabGet 0 s.tether.received (packetKey p.queue false) → p.words = [w] → portOfLane s p.queue k = some i →
      ∃ t, exec (.packetReceived k p true) s = .next t ∧
        getProd t p.queue i = { getProd s p.queue i with
          credits := (getProd s p.queue i).credits - 1
          flight := (getProd s p.queue i).flight ++ [{ word := w.1, eoi := w.2, port := i }] } ∧
        tabGet 0 t.tether.received (packetKey p.queue false) = p.seq + 1 ∧ Changes [.queues, .lanes, .tether] s t) := by
  have taken : Changes [.lanes, .tether] s (packetTaken k p s) := setTether_changes _ _ (by decide) ((packAcked_changes p).mono (by decide))
  have lane (j : LaneId) : getLane (packetBrings k p (packetTaken k p s)) j = getLane (packAcked k p s) j := (packetBrings_changes ..).getLane j
  refine ⟨⟨_, congrArg Host.Outcome.next (packetIn_broken up p), getLane_modLane .., fun j hj => getLane_modLane_other hj _ _,
    modLane_changes _ _ _ (by decide) (Changes.refl _ s)⟩, fun ahead => ⟨_, congrArg Host.Outcome.next (packetIn_ahead up ahead), rfl⟩,
    fun due => ?acked, fun turn empty => ?credits, fun w i turn words port => ?words⟩
  case acked =>
    rcases Nat.lt_or_eq_of_le due with before | turn
    · exact ⟨_, congrArg Host.Outcome.next (packetIn_before up before), getLane_packAcked k p s, fun j hj => getLane_packAcked_other hj p s,
        fun _ => packAcked_changes p⟩
    · exact ⟨_, congrArg Host.Outcome.next (packetIn_turn up turn), (lane k).trans (getLane_packAcked k p s),
        fun j hj => (lane j).trans (getLane_packAcked_other hj p s), fun before => absurd turn (Nat.ne_of_lt before)⟩
  case credits =>
    have none : p.words.isEmpty = true := by rw [empty]; rfl
    have brings : packetBrings k p (packetTaken k p s) = _ := if_pos none
    refine ⟨_, congrArg Host.Outcome.next ((packetIn_turn up (by rw [none]; exact turn)).trans brings), ?_, tabGet_tabSet .., ?_⟩
    · rw [← none]
      exact tabGet_tabSet ..
    · exact setTether_changes _ _ (by decide) taken
  case words =>
    have some : p.words.isEmpty = false := by rw [words]; rfl
    have brings : packetBrings k p (packetTaken k p s) = pushIngress k p.queue w (followWords k p.queue (packetTaken k p s)) := by
      rw [packetBrings, if_neg (by rw [some]; exact Bool.false_ne_true), words]
      rfl
    obtain ⟨prod, received, changes⟩ := pushIngress_pushes (k := k) (q := p.queue) (i := i) (s := followWords k p.queue (packetTaken k p s)) port w
    have follows : Changes [.tether] (packetTaken k p s) (followWords k p.queue (packetTaken k p s)) := followWords_changes _ _ _ (by decide) (Changes.refl _ _)
    refine ⟨_, congrArg Host.Outcome.next ((packetIn_turn up (by rw [some]; exact turn)).trans brings), prod, ?_, ?_⟩
    · rw [received, ← some]
      exact tabGet_tabSet ..
    · exact (taken.mono (by decide)).trans ((follows.mono (by decide)).trans (changes.mono (by decide)))

/-! ## Patterns (R550, R551) -/

theorem setPrbs_effect (k : LaneId) (val : Word) (s : State) :
    (getLane (setPrbs k val s) k).prbs.genEn = bit val 31 ∧ (getLane (setPrbs k val s) k).prbs.chkEn = bit val 30 ∧
    (getLane (setPrbs k val s) k).prbs.poly = bits val 28 2 ∧ (getLane (setPrbs k val s) k).prbs.injRate = bits val 20 4 ∧
    (getLane (setPrbs k val s) k).prbs.injectNext = ((getLane s k).prbs.injectNext || bit val 19) ∧
    (getLane (setPrbs k val s) k).prbs.locked = ((getLane s k).prbs.locked && bit val 30) ∧
    (getLane (setPrbs k val s) k).state = (getLane s k).state ∧ (∀ j, j ≠ k → getLane (setPrbs k val s) j = getLane s j) ∧
    Changes [.lanes, .freeCtr] s (setPrbs k val s) := by
  have drawn (c : Prop) [Decidable c] (u : State) : Changes [.freeCtr] u ((if c then freshen else id) u) := by
    split
    · exact freshen_changes _ (by decide) (Changes.refl _ u)
    · exact Changes.refl _ u
  have own : getLane (setPrbs k val s) k = _ := ((drawn _ _).getLane k).trans (getLane_modLane ..)
  rw [own]
  exact ⟨rfl, rfl, rfl, rfl, rfl, rfl, rfl, fun j hj => ((drawn _ _).getLane j).trans (getLane_modLane_other hj _ _),
    (modLane_changes (P := [.lanes, .freeCtr]) _ _ _ (by decide) (Changes.refl _ s)).trans ((drawn _ _).mono (by decide))⟩

/-- Settles O49: events, packets and patterns of a tether lane.  That a token at the hop limit counts as one copy is log entry 107, the events that an
acknowledge finds lost are log entry 108, the numbering of packets is log entry 109, and which packets are acknowledged is log entry 192: the model's
choices. -/
theorem lanesCarryEventsAndPackets : Obligations.LanesCarryEventsAndPackets := by
  unfold Obligations.LanesCarryEventsAndPackets
  refine ⟨fun s k up => ⟨eventReceived_broken up, fun tok => eventReceived_enters up, fun tok => eventReceived_loops up, fun count answers lost h => ?acks,
    fun q credits n => ?released, fun q credits n => ?again, packetReceived_effect up⟩, fun s f k val hadm ok => ?prbs, fun s k => ⟨fun on => ?locks, ?lost⟩⟩
  case acks => exact ⟨_, congrArg Host.Outcome.next (if_pos (hitched_of_state up)), ackEvents_effect k count answers lost s h⟩
  case released =>
    refine ⟨_, congrArg Host.Outcome.next (if_pos (hitched_of_state up)), fun p => ?_, setTether_changes _ _ (by decide) (Changes.refl _ s)⟩
    simp only [ackPacket, setTether, List.mem_filter, Bool.not_eq_true', ← Bool.not_eq_true, Bool.and_eq_true, beq_iff_eq, and_assoc]
  case again =>
    exact ⟨_, congrArg Host.Outcome.next (if_pos (hitched_of_state up)), rfl, setTether_changes _ _ (by decide) (Changes.refl _ s)⟩
  case prbs =>
    exact ⟨_, congrArg Host.Outcome.next (hostCheck_of_admits hadm (code := prbsCode k val) ok (setPrbs k val)), setPrbs_effect k val s⟩
  case locks =>
    refine ⟨_, rfl, ?_, fun j hj => getLane_modLane_other hj _ _, modLane_changes _ _ _ (by decide) (Changes.refl _ s)⟩
    exact (getLane_modLane ..).trans (if_pos on)
  case lost =>
    exact ⟨_, rfl, getLane_modLane .., fun j hj => getLane_modLane_other hj _ _, modLane_changes _ _ _ (by decide) (Changes.refl _ s)⟩

end Sys2Proof.Machine
end

section
/-!
PROOFS. Chapter 14: the epoch and the servo (O50).
-/

namespace Sys2Proof.Machine

set_option Elab.async false

open Sys2Proof

/-! ## The servo's choice (R561 to R564, R578) -/

/-- Of the time subsystem only what the servo follows, its error and the oscillator's frequency may differ. -/
def SteersOnly (s t : State) : Prop := ∃ servo error osc, t.tc = { s.tc with servo, error, osc }

theorem SteersOnly.refl (s : State) : SteersOnly s s := ⟨_, _, _, rfl⟩

theorem SteersOnly.trans {s t u : State} (h : SteersOnly s t) (k : SteersOnly t u) : SteersOnly s u := by
  obtain ⟨a, b, c, ht⟩ := h
  obtain ⟨d, e, f, hu⟩ := k
  exact ⟨d, e, f, by rw [hu, ht]⟩

/-- What a code's record leaves of the time subsystem. -/
theorem steersOnly_record (code : Code) (stall : Nat) (owner : Owner) (object aux : Word) (s : State) : SteersOnly s (record code stall owner object aux s) :=
  ⟨_, _, _, (record_changes (P := [.funcs]) _ _ _ _ _ _ (by decide) (Changes.refl _ s)).tc⟩

theorem steersOnly_follow (d : Fin 2) (s : State) : SteersOnly s (follow d s) := ⟨_, _, _, rfl⟩

theorem steersOnly_switchTo (d : Fin 2) (s : State) : SteersOnly s (switchTo d s) :=
  (steersOnly_follow d s).trans (SteersOnly.trans ⟨_, _, _, rfl⟩ (steersOnly_record ..))

theorem steersOnly_enterHoldover (s : State) : SteersOnly s (enterHoldover s) := SteersOnly.trans ⟨_, _, _, rfl⟩ (steersOnly_record ..)

theorem SteersOnly.ite {s t u : State} {c : Prop} [Decidable c] (h : SteersOnly s t) (k : SteersOnly s u) : SteersOnly s (if c then t else u) := by
  split
  · exact h
  · exact k

theorem steersOnly_leadRules (reached : Option (Fin 2)) (s : State) : SteersOnly s (leadRules reached s) := by
  have stays := SteersOnly.refl s
  unfold leadRules
  dsimp only
  split
  · exact .ite (.ite (steersOnly_switchTo ..) stays) (.ite (.ite (steersOnly_switchTo ..) stays) (steersOnly_enterHoldover s))
  · exact .ite (steersOnly_follow ..) (.ite (steersOnly_follow ..) (.ite stays (steersOnly_enterHoldover s)))

theorem steersOnly_followRules (s : State) : SteersOnly s (followRules s) := by
  unfold followRules
  split <;> exact ⟨_, _, _, rfl⟩

theorem steersOnly_evalServo (s : State) : SteersOnly s (evalServo s) := by
  unfold evalServo evalReached
  split
  · exact steersOnly_leadRules ..
  · split
    · exact steersOnly_followRules s
    · split
      · exact SteersOnly.refl s
      · exact ⟨_, _, _, rfl⟩

/-! ## The commands of TIME (R565, R579, Table 14-5) -/

theorem tc_endTimeOp (op : OpStatus) (s : State) : (endTimeOp op s).tc = { s.tc with op, align := false } :=
  (raise_changes (P := [.funcs, .irqs]) 0x803 _ (by decide) (Changes.refl _ _)).tc

theorem noted_endTimeOp (op : OpStatus) (f : Func) (c : Code) (s : State) : noted (endTimeOp op s) f c = noted s f c := by
  rw [endTimeOp, noted_raise]
  rfl

/-- A switch of the lead to a domain (R579). -/
theorem switchTo_effect (d : Fin 2) (s : State) : followed (switchTo d s) = some d ∧ (switchTo d s).tc.error = (if d = 1 then s.tc.inter else -s.tc.inter) ∧
    noted (switchTo d s) 0 0x0B02 = true := by
  have tc : (switchTo d s).tc = { s.tc with servo := if d = 0 then .primary else .secondary, error := if d = 1 then s.tc.inter else -s.tc.inter } :=
    (record_changes (P := [.funcs]) 0x0B02 8 0 0 0 _ (by decide) (Changes.refl _ _)).tc
  refine ⟨?_, by rw [tc], noted_record ..⟩
  rw [followed, tc]
  match d with
  | 0 => rfl
  | 1 => rfl

section
variable {s : State} {f : Func} (hadm : admitsSpine s f (.time .cmd) = true) (free : s.tc.align = false)
include hadm free

theorem align_begins (rests : someRides s = false) : ∃ t, exec (.align f) s = .next t ∧ t.tc.align = true ∧ t.tc.alignStepped = false ∧
    t.tc.op = opStart ∧ t.tc.tai = s.tc.tai ∧ Changes [.funcs, .tc] s t := by
  have begin_ := spineCommand_of_admits hadm timeOp (code := fun s => if s.tc.align then some 0x1B02 else if someRides s then some 0x1B01 else none)
    (by simp [free, rests]) (fun s => evalServo (setTime (fun t => { t with op := opStart, align := true, alignStepped := false }) s))
  obtain ⟨servo, error, osc, tc⟩ := steersOnly_evalServo (setTime (fun t => { t with op := opStart, align := true, alignStepped := false }) s)
  exact ⟨_, congrArg Host.Outcome.next begin_, by rw [tc]; rfl, by rw [tc]; rfl, by rw [tc]; rfl, by rw [tc]; rfl,
    evalServo_changes _ (by decide) (setTime_changes _ _ (by decide) (Changes.refl _ s))⟩

omit free in
/-- A refused command of TIME shows the refusal and leaves the rest of the time subsystem. -/
theorem timeCommand_refused {code : State → Option Code} {c : Code} (h : code s = some c) (eff : State → State) :
    spineCommand f (.time .cmd) timeOp code eff s = refuseReg f (.time .cmd) c (timeOp (opRefuse c) s) ∧
    (refuseReg f (.time .cmd) c (timeOp (opRefuse c) s)).tc = { s.tc with op := opRefuse c s.tc.op } ∧
    Changes [.funcs, .tc] s (refuseReg f (.time .cmd) c (timeOp (opRefuse c) s)) :=
  ⟨spineCommand_of_code hadm timeOp h eff, (refuseReg_changes (P := [.funcs]) _ _ _ _ (by decide) (Changes.refl _ _)).tc,
    refuseReg_changes _ _ _ _ (by decide) (timeOp_changes _ _ (by decide) (Changes.refl _ s))⟩

theorem align_refused (rides : someRides s = true) : ∃ t, exec (.align f) s = .next t ∧ t.tc = { s.tc with op := opRefuse 0x1B01 s.tc.op } ∧
    (getFunc t f).lastCode = 0x1B01 ∧ noted t 0 0x1B01 = true ∧ Changes [.funcs, .tc] s t := by
  obtain ⟨refused, tc, changes⟩ := timeCommand_refused hadm (code := fun s => if s.tc.align then some 0x1B02 else if someRides s then some 0x1B01 else none)
    (c := 0x1B01) (by simp [free, rides]) (fun s => evalServo (setTime (fun t => { t with op := opStart, align := true, alignStepped := false }) s))
  exact ⟨_, congrArg Host.Outcome.next refused, tc, lastCode_refuseReg .., noted_refuseReg .., changes⟩

/-- What refuses a SWITCH. -/
def switchCode (d : Fin 2) (s : State) : Option Code := if s.tc.align then some 0x1B02 else if locked s d then none else some 0x1B04

theorem switch_accepted {d : Fin 2} (locks : locked s d = true) : exec (.switch f d) s = .next (timeSwitch d s) :=
  congrArg Host.Outcome.next (spineCommand_of_admits hadm timeOp (code := switchCode d) (by simp [switchCode, free, locks]) (timeSwitch d))

theorem switch_follows {d : Fin 2} (locks : locked s d = true) (lead : s.persist.time.role = 1) (other : followed s ≠ some d) :
    ∃ t, exec (.switch f d) s = .next t ∧ followed t = some d ∧ t.tc.error = (if d = 1 then s.tc.inter else -s.tc.inter) ∧ t.tc.op = opDone 0x0B02 ∧
      noted t 0 0x0B02 = true ∧ Changes [.funcs, .irqs, .tc] s t := by
  have switches : timeSwitch d s = endTimeOp (opDone 0x0B02) (switchTo d (setTime (fun t => { t with op := opStart }) s)) := if_pos ⟨lead, other⟩
  obtain ⟨target, error, logged⟩ := switchTo_effect d (setTime (fun t => { t with op := opStart }) s)
  have tc := tc_endTimeOp (opDone 0x0B02) (switchTo d (setTime (fun t => { t with op := opStart }) s))
  refine ⟨_, (switch_accepted hadm free locks).trans (congrArg Host.Outcome.next switches), ?_, by rw [tc]; exact error, by rw [tc],
    by rw [noted_endTimeOp]; exact logged, ?_⟩
  · rw [followed, tc]
    exact target
  · rw [← switches]
    exact timeSwitch_changes _ _ (by decide) (Changes.refl _ s)

/-- In a role that is not lead a SWITCH ends done (log entry 115). -/
theorem switch_elsewhere {d : Fin 2} (locks : locked s d = true) (role : s.persist.time.role ≠ 1) :
    ∃ t, exec (.switch f d) s = .next t ∧ t.tc.op = opDone 0 ∧ Changes [.funcs, .irqs, .tc] s t := by
  have stays : timeSwitch d s = endTimeOp (opDone 0) (evalServo (setTime (fun t => { t with op := opStart }) s)) := if_neg fun h => role h.1
  refine ⟨_, switch_accepted hadm free locks, ?_, timeSwitch_changes _ _ (by decide) (Changes.refl _ s)⟩
  rw [stays, tc_endTimeOp]

theorem switch_refused {d : Fin 2} (open_ : locked s d = false) : ∃ t, exec (.switch f d) s = .next t ∧ (getFunc t f).lastCode = 0x1B04 ∧
    t.tc.servo = s.tc.servo ∧ Changes [.funcs, .tc] s t := by
  obtain ⟨refused, tc, changes⟩ := timeCommand_refused hadm (code := switchCode d) (c := 0x1B04) (by simp [switchCode, free, open_]) (timeSwitch d)
  exact ⟨_, congrArg Host.Outcome.next refused, lastCode_refuseReg .., by rw [tc], changes⟩

theorem accept_effect (d : Fin 2) : ∃ t, exec (.accept f d) s = .next t ∧ t.tc.op = opDone 0 ∧
    ((getDomain s d).state = .degraded → (getDomain t d).state = .listening ∧ (getDomain t d).samples = []) ∧
    ((getDomain s d).state ≠ .degraded → getDomain t d = getDomain s d) ∧
    (∀ e, e ≠ d → getDomain t e = getDomain s e) ∧ Changes [.funcs, .irqs, .tc, .domains] s t := by
  have accepts := spineCommand_of_admits hadm timeOp (code := fun s => if s.tc.align then some 0x1B02 else none) (by simp [free]) (timeAccept d)
  have ends (u : State) : Changes [.funcs, .irqs, .tc] u (endTimeOp (opDone 0) (evalServo (setTime (fun t => { t with op := opStart }) u))) :=
    endTimeOp_changes _ _ (by decide) (evalServo_changes _ (by decide) (setTime_changes _ _ (by decide) (Changes.refl _ u)))
  have own : getDomain (timeAccept d s) d = _ := ((ends _).getDomain d).trans (getDomain_modDomain ..)
  refine ⟨_, congrArg Host.Outcome.next accepts, congrArg TimeCtl.op (tc_endTimeOp ..), fun h => ?_, fun h => ?_,
    fun e he => ((ends _).getDomain e).trans (getDomain_modDomain_other he _ _), timeAccept_changes _ _ (by decide) (Changes.refl _ s)⟩
  · rw [own, if_pos h]
    exact ⟨rfl, rfl⟩
  · rw [own, if_neg h]

end

/-! ## ALIGN (R565, R566) -/

/-- The clock and the epoch after the step of an ALIGN. -/
def epochStepped (tai : Tai) (error : Int) (s : State) : State :=
  setTime (fun t =>
    { t with tai, stepped := true, alignStepped := true, error := error - error.tdiv 320 * 320, op := { t.op with progress := 500 } }) s

theorem alignStep_steps {tai : Tai} {error : Int} {s : State} (align : s.tc.align = true) (first : s.tc.alignStepped = false) (target : alignTarget s = true)
    (rests : someRides s = false) : alignStep tai error s =
      issueSeal 9 1 (skipTriggers s.clock.sched ((s.clock.sched : Int) - error.tdiv 320 * (5 * fineFrame : Nat)).toNat
        (skipPulses s.clock.sched ((s.clock.sched : Int) - error.tdiv 320 * (5 * fineFrame : Nat)).toNat
          (setClock (fun c => { c with sched := ((s.clock.sched : Int) - error.tdiv 320 * (5 * fineFrame : Nat)).toNat }) (epochStepped tai error s)))) :=
  if_pos ⟨align, by simp [first], target, by simp [rests]⟩

/-- What follows the step leaves the clock and the time subsystem. -/
theorem alignStep_after (old new : Fine) (s : State) :
    Changes [.funcs, .units, .nodes, .books, .flights, .nextFlight, .hub, .pulses] s (issueSeal 9 1 (skipTriggers old new (skipPulses old new s))) :=
  issueSeal_changes _ _ _ (by decide) (skipTriggers_changes _ _ _ (by decide) (skipPulses_changes _ _ _ (by decide) (Changes.refl _ s)))

section
variable {s : State} (align : s.tc.align = true)
include align

theorem alignStep_effect (tai : Tai) (error : Int) (first : s.tc.alignStepped = false) (target : alignTarget s = true) (rests : someRides s = false) :
    ∃ t, exec (.alignStep tai error) s = .next t ∧ t.tc.tai = tai ∧ t.tc.epochValid = s.tc.epochValid ∧ t.tc.alignStepped = true ∧
      t.tc.error = error - error.tdiv 320 * 320 ∧ t.clock.sched = ((s.clock.sched : Int) - error.tdiv 320 * 7680).toNat ∧
      t.clock.now = s.clock.now ∧ Changes [.clock, .funcs, .units, .nodes, .books, .flights, .nextFlight, .hub, .tc, .pulses] s t := by
  have after := alignStep_after s.clock.sched ((s.clock.sched : Int) - error.tdiv 320 * (5 * fineFrame : Nat)).toNat
    (setClock (fun c => { c with sched := ((s.clock.sched : Int) - error.tdiv 320 * (5 * fineFrame : Nat)).toNat }) (epochStepped tai error s))
  refine ⟨_, rfl, ?_⟩
  have frame : Changes [.clock, .funcs, .units, .nodes, .books, .flights, .nextFlight, .hub, .tc, .pulses] s (alignStep tai error s) :=
    alignStep_changes _ _ _ (by decide) (Changes.refl _ s)
  rw [alignStep_steps align first target rests] at frame ⊢
  rw [after.tc, after.clock]
  exact ⟨rfl, rfl, rfl, rfl, rfl, rfl, frame⟩

theorem alignComplete_effect (error : Int) (stepped : s.tc.alignStepped = true) (small : error.natAbs < s.persist.time.lockThresh.toNat * 16) :
    ∃ t, exec (.alignComplete error) s = .next t ∧ t.tc.align = false ∧ t.tc.op = opDone 0x0B03 ∧ t.tc.error = error ∧ t.tc.epochValid = true ∧
      noted t 0 0x0B03 = true ∧ Changes [.funcs, .irqs, .tc] s t := by
  have told (u : State) : Changes [.funcs] u (record 0x0B03 8 0 0 0 u) := record_changes _ _ _ _ _ _ (by decide) (Changes.refl _ u)
  have tc := (told _).tc.trans (tc_endTimeOp (opDone 0x0B03) (setTime (fun t => { t with error, epochValid := true }) s))
  exact ⟨_, congrArg Host.Outcome.next (if_pos ⟨align, stepped, small⟩), by rw [tc], by rw [tc], by rw [tc]; rfl, by rw [tc]; rfl, noted_record ..,
    record_changes _ _ _ _ _ _ (by decide) (endTimeOp_changes _ _ (by decide) (setTime_changes _ _ (by decide) (Changes.refl _ s)))⟩

theorem alignTimeout_effect (first : s.tc.alignStepped = false) (none : alignTarget s = false) : ∃ t, exec .alignTimeout s = .next t ∧ t.tc.align = false ∧
    t.tc.op.state = .failed ∧ t.tc.op.code = 0x2B01 ∧ noted t 0 0x2B01 = true ∧ Changes [.funcs, .irqs, .tc] s t := by
  have told (u : State) : Changes [.funcs] u (record 0x2B01 8 0 0 0 u) := record_changes _ _ _ _ _ _ (by decide) (Changes.refl _ u)
  have tc := (told _).tc.trans (tc_endTimeOp (opEnd .failed 0x2B01 s.tc.op) s)
  exact ⟨_, congrArg Host.Outcome.next (if_pos ⟨align, by simp [first], by simp [none]⟩), by rw [tc], by rw [tc]; rfl, by rw [tc]; rfl, noted_record ..,
    record_changes _ _ _ _ _ _ (by decide) (endTimeOp_changes _ _ (by decide) (Changes.refl _ s))⟩

end

theorem alignTimeout_onTarget {s : State} (target : alignTarget s = true) : exec .alignTimeout s = .next s :=
  congrArg Host.Outcome.next (if_neg (by simp [target]))

theorem epochTaiWrite_held {s : State} {f : Func} (hadm : admits s f (.time (.tai 0)) = true) (rests : someRides s = false) (val : Word) :
    ∃ t, exec (.epochTaiWrite f 0 val) s = .next t ∧ tabGet 0 t.held (regAddr (.time (.tai 0))) = val ∧ Changes [.held] s t :=
  ⟨_, congrArg Host.Outcome.next (hostCheck_of_admits hadm (code := fun s => if someRides s then some 0x1B01 else none) (by simp [rests]) (epochTai 0 val)),
    tabGet_tabSet .., holdWord_changes _ _ _ (by decide) (Changes.refl _ s)⟩

theorem epochTaiWrite_commits {s : State} {f : Func} (hadm : admits s f (.time (.tai 2)) = true) (rests : someRides s = false) (val : Word) :
    ∃ t, exec (.epochTaiWrite f 2 val) s = .next t ∧ t.tc.epochValid = true ∧ t.tc.tai.ns = val ∧
      t.tc.tai.sub = bits (heldWord (.time (.tai 0)) (bits (epochTime s).sec 0 16 ++ (epochTime s).sub) s) 0 16 ∧
      t.tc.tai.sec = heldWord (.time (.tai 1)) (bits (epochTime s).sec 16 32) s ++
        (bits (heldWord (.time (.tai 0)) (bits (epochTime s).sec 0 16 ++ (epochTime s).sub) s) 16 16 : BitVec 16) ∧
      Changes [.tc, .held] s t :=
  ⟨_, congrArg Host.Outcome.next (hostCheck_of_admits hadm (code := fun s => if someRides s then some 0x1B01 else none) (by simp [rests]) (epochTai 2 val)),
    rfl, rfl, rfl, rfl, epochTai_changes _ _ _ (by decide) (Changes.refl _ s)⟩

theorem tc_setTime (f : TimeCtl → TimeCtl) (s : State) : (setTime f s).tc = f s.tc := rfl

theorem timeNowRead_effect {s : State} {f : Func} (reach : hostReach s f = true) :
    ∃ t, exec (.timeNowRead f) s = .next t ∧ t.tc.nowSched = schedOfFine s.clock.sched ∧ t.tc.nowTai = taiOf (taiAt s s.clock.sched) ∧
      t.tc.tai = s.tc.tai ∧ Changes [.tc] s t := by
  have latches : latchNow f s = setTime (fun t => { t with nowTai := taiOf (taiAt s s.clock.sched), nowSched := schedOfFine s.clock.sched }) s := by
    rw [latchNow, if_pos reach]
  refine ⟨_, congrArg Host.Outcome.next latches, ?_, ?_, ?_, setTime_changes _ _ (by decide) (Changes.refl _ s)⟩ <;> rw [tc_setTime]

/-- Settles O50: the epoch and the servo.  That a SWITCH in a role that is not lead ends done is log entry 115, the step of an ALIGN in units of 20 ns and the
timeout that passes over an ALIGN with its target are log entry 116, and the error that a SWITCH sets is log entry 195: the model's choices. -/
theorem theEpochIsAlignedAndSwitched : Obligations.TheEpochIsAlignedAndSwitched := by
  unfold Obligations.TheEpochIsAlignedAndSwitched
  refine ⟨fun s f hadm free => ⟨align_begins hadm free, align_refused hadm free, fun d locks => ⟨switch_follows hadm free locks, switch_elsewhere hadm free locks⟩,
    fun d => switch_refused hadm free, accept_effect hadm free⟩,
    fun s tai error align => ⟨alignStep_effect align tai error, alignComplete_effect align error, fun _ => alignTimeout_onTarget, alignTimeout_effect align⟩,
    fun s f val => ⟨fun hadm rests => epochTaiWrite_held hadm rests val, fun hadm rests => epochTaiWrite_commits hadm rests val, timeNowRead_effect⟩,
    fun s lead => ⟨_, congrArg Host.Outcome.next (if_pos lead), (record_changes (P := [.funcs]) _ _ _ _ _ _ (by decide) (Changes.refl _ _)).tc, noted_record ..,
      record_changes _ _ _ _ _ _ (by decide) (setTime_changes _ _ (by decide) (Changes.refl _ s))⟩⟩

end Sys2Proof.Machine
end

section
/-!
PROOFS. Chapter 14: ports, time domains and time pulses (O51).
-/

namespace Sys2Proof.Machine

set_option Elab.async false

open Sys2Proof

/-! ## Ports (R567 to R571) -/

/-- A message arrives on a port that runs PTP. -/
def portHeard (p : Fin 2) (s : State) : State := modPort p (fun x => { x with ptpRx := satInc x.ptpRx }) s

theorem portHeard_changes (p : Fin 2) (s : State) : Changes [.ethPorts] s (portHeard p s) := modPort_changes _ _ _ (by decide) (Changes.refl _ s)

theorem getPort_portHeard (p : Fin 2) (s : State) : getPort (portHeard p s) p = { getPort s p with ptpRx := satInc (getPort s p).ptpRx } := getPort_modPort ..

theorem getPort_portHeard_other {p q : Fin 2} (h : q ≠ p) (s : State) : getPort (portHeard p s) q = getPort s q := getPort_modPort_other h _ _

/-- Something of each domain in turn, which the other domain's turn leaves. -/
theorem forEach_domains (f : Fin 2 → State → State) (s : State) : forEach [0, 1] f s = f 1 (f 0 s) := rfl

section
variable {s : State} {p : Fin 2} (runs : portRuns s p = true)
include runs

theorem ptpIn_unsupported {m : PtpFrame} (h : supported (portCfg s p) m = false) : ptpIn p m s = portHeard p s := by
  have cfg : portCfg (modPort p (fun x => { x with ptpRx := satInc x.ptpRx }) s) p = portCfg s p := rfl
  simp only [ptpIn, runs, if_true, cfg, h, Bool.false_eq_true, if_false]
  rfl

theorem ptpIn_announce {m : PtpFrame} {a : AnnounceData} {i : Int} (msg : m.msg = .announce a i) (h : supported (portCfg s p) m = true) :
    ptpIn p m s = forEach [0, 1] (fun d s => if tracked s p d m.number then announceIn d a s else s) (portHeard p s) := by
  have cfg : portCfg (modPort p (fun x => { x with ptpRx := satInc x.ptpRx }) s) p = portCfg s p := rfl
  simp only [ptpIn, runs, if_true, cfg, h, msg]
  rfl

theorem ptpIn_sample {m : PtpFrame} {sender : BitVec 64} {offset path i : Int} (msg : m.msg = .sample sender offset path i) (h : supported (portCfg s p) m = true) :
    ptpIn p m s = forEach [0, 1] (fun d t =>
      if tracked t p d m.number && takesSample (getDomain t d) sender then domainSample d (corrected (portCfg s p) offset path) t else t) (portHeard p s) := by
  have cfg : portCfg (modPort p (fun x => { x with ptpRx := satInc x.ptpRx }) s) p = portCfg s p := rfl
  simp only [ptpIn, runs, if_true, cfg, h, msg]
  rfl

theorem ptpIn_pdelay {m : PtpFrame} {rx tx : Int} (msg : m.msg = .pdelayReq rx tx) (h : supported (portCfg s p) m = true) :
    ptpIn p m s = modPort p (fun x => { x with sent := pdelayAnswer (portCfg s p) rx tx }) (portHeard p s) := by
  have cfg : portCfg (modPort p (fun x => { x with ptpRx := satInc x.ptpRx }) s) p = portCfg s p := rfl
  simp only [ptpIn, runs, if_true, cfg, h, msg]
  rfl

end

/-! ## Announces (R567, Table 14-3) -/

/-- A domain that has heard an Announce. -/
def announced (a : AnnounceData) (x : Domain) : Domain :=
  let masters := a :: x.masters.filter fun b => decide (b.sender ≠ a.sender)
  let best := (bestMaster masters).getD a
  let x := { x with masters, gmClass := best.gmClass, gmId := best.gmId }
  if x.state = .lost then { clearMedians x with state := .listening } else x

theorem announced_effect (a : AnnounceData) (x : Domain) :
    (announced a x).masters = a :: x.masters.filter (fun b => decide (b.sender ≠ a.sender)) ∧
    (announced a x).gmClass = ((bestMaster (announced a x).masters).getD a).gmClass ∧
    (announced a x).gmId = ((bestMaster (announced a x).masters).getD a).gmId ∧
    (announced a x).state = if x.state = .lost then .listening else x.state := by
  unfold announced
  dsimp only
  split
  · exact ⟨rfl, rfl, rfl, rfl⟩
  · exact ⟨rfl, rfl, rfl, rfl⟩

/-- The turn of a domain at an Announce. -/
def announceTurn (p : Fin 2) (number : BitVec 8) (a : AnnounceData) (d : Fin 2) (s : State) : State := if tracked s p d number then announceIn d a s else s

theorem announceTurn_changes (p : Fin 2) (number : BitVec 8) (a : AnnounceData) (d : Fin 2) (s : State) : Changes [.domains] s (announceTurn p number a d s) :=
  Changes.ite (fun _ => announceIn_changes _ _ _ (by decide) (Changes.refl _ s)) fun _ => Changes.refl _ s

theorem getDomain_announceTurn (p : Fin 2) (number : BitVec 8) (a : AnnounceData) (d : Fin 2) (s : State) :
    getDomain (announceTurn p number a d s) d = if tracked s p d number then announced a (getDomain s d) else getDomain s d := by
  unfold announceTurn
  split
  · exact getDomain_modDomain ..
  · rfl

theorem getDomain_announceTurn_other {d e : Fin 2} (h : e ≠ d) (p : Fin 2) (number : BitVec 8) (a : AnnounceData) (s : State) :
    getDomain (announceTurn p number a d s) e = getDomain s e := by
  unfold announceTurn
  split
  · exact getDomain_modDomain_other h _ _
  · rfl

/-- Which domains a port's messages are for stands in the persistent register file. -/
theorem tracked_of_persist {s t : State} (h : t.persist = s.persist) (p d : Fin 2) (number : BitVec 8) : tracked t p d number = tracked s p d number := by
  have cfg : domainCfg t d = domainCfg s d := by rw [domainCfg, h, domainCfg]
  unfold tracked
  rw [cfg]

theorem getDomain_announces (p : Fin 2) (number : BitVec 8) (a : AnnounceData) (s : State) (d : Fin 2) :
    getDomain (announceTurn p number a 1 (announceTurn p number a 0 s)) d = if tracked s p d number then announced a (getDomain s d) else getDomain s d := by
  have same := tracked_of_persist (announceTurn_changes p number a 0 s).persist p 1 number
  match d with
  | 0 => rw [getDomain_announceTurn_other (by decide), getDomain_announceTurn]
  | 1 => rw [getDomain_announceTurn, same, getDomain_announceTurn_other (by decide)]

/-! ## Samples (R573, R575) -/

/-- A domain that has accepted a sample. -/
def sampled (v : Int × Int) (x : Domain) : Domain :=
  { acceptSample { x with count := satInc x.count, recent := (v :: x.recent).take 16 } v with outRun := [] }

/-- The domain's record after a sample that is no outlier. -/
def sampleTaken (d : Fin 2) (v : Int × Int) (s : State) : State :=
  modDomain d (fun x => { acceptSample { x with count := satInc x.count, recent := (v :: x.recent).take 16 } v with outRun := [] }) s

theorem getDomain_sampleTaken (d : Fin 2) (v : Int × Int) (s : State) : getDomain (sampleTaken d v s) d = sampled v (getDomain s d) := getDomain_modDomain ..

/-- A LOCKED domain without outliers in a row stays as it is. -/
theorem degrade_of_steady {d : Fin 2} {s : State} (h : (getDomain s d).outRun = []) : degrade d s = s := by
  unfold degrade
  dsimp only
  rw [h]
  exact if_neg (by simp)

/-- What a sample sets besides its domain: the difference of the domains, the error and what the servo follows. -/
def sampleSteers (d : Fin 2) (s : State) : State :=
  let s := updateInter s
  let s := if followed s = some d ∧ !false ∧ locked s d then setTime (fun t => { t with error := (getDomain s d).offset }) s else s
  evalReached none s

theorem sampleSteers_changes (d : Fin 2) (s : State) : Changes [.funcs, .tc] s (sampleSteers d s) :=
  evalReached_changes _ _ (by decide) (Changes.ite (fun _ => setTime_changes _ _ (by decide) (updateInter_changes _ (by decide) (Changes.refl _ s)))
    fun _ => updateInter_changes _ (by decide) (Changes.refl _ s))

theorem domainSample_inside {d : Fin 2} {v : Int × Int} {s : State} (locks : (getDomain s d).state = .locked)
    (inside : isOutlier s.persist.time (getDomain s d) v = false) : domainSample d v s = sampleSteers d (sampleTaken d v s) := by
  have own := getDomain_sampleTaken d v s
  have state : (getDomain (sampleTaken d v s) d).state = .locked := by rw [own]; exact locks
  have still : degrade d (sampleTaken d v s) = sampleTaken d v s := degrade_of_steady (by rw [own]; rfl)
  have same : modDomain d (fun x => { acceptSample { x with count := satInc x.count, recent := (v :: x.recent).take 16 } v with outRun := [] }) s = sampleTaken d v s := rfl
  unfold domainSample
  simp only [inside, Bool.false_eq_true, if_false, same, state, if_true, still]
  rfl

/-- A sample within off_step of the median is no outlier (R574). -/
theorem isOutlier_of_near {c : TimeCfg} {x : Domain} {v : Int × Int} (h : x.samples = [] ∨ (v.1 - x.offset).natAbs ≤ c.offStep.toNat * 16) :
    isOutlier c x v = false := by
  unfold isOutlier
  rcases h with none | near
  · rw [none]; rfl
  · rw [decide_eq_false (by simpa [ns16] using near), Bool.and_false]

/-- The turn of a domain at a sample. -/
def sampleTurn (p : Fin 2) (number : BitVec 8) (sender : BitVec 64) (v : Int × Int) (d : Fin 2) (s : State) : State :=
  if tracked s p d number && takesSample (getDomain s d) sender then domainSample d v s else s

theorem sampleTurn_of_untracked {p d : Fin 2} {number : BitVec 8} {s : State} (h : tracked s p d number = false) (sender : BitVec 64) (v : Int × Int) :
    sampleTurn p number sender v d s = s := by
  rw [sampleTurn, h]
  rfl

/-- Of two domains' turns only that of the one tracked counts. -/
theorem sampleTurns_of_one {p d : Fin 2} {number : BitVec 8} {s : State} (only : ∀ e, e ≠ d → tracked s p e number = false) (sender : BitVec 64) (v : Int × Int) :
    sampleTurn p number sender v 1 (sampleTurn p number sender v 0 s) = sampleTurn p number sender v d s := by
  have frame : (sampleTurn p number sender v 0 s).persist = s.persist :=
    (Changes.ite (P := [.funcs, .tc, .domains]) (fun _ => domainSample_changes _ _ _ (by decide) (Changes.refl _ s)) fun _ => Changes.refl _ s).persist
  match d with
  | 0 => rw [sampleTurn_of_untracked ((tracked_of_persist frame p 1 number).trans (only 1 (by decide)))]
  | 1 => rw [sampleTurn_of_untracked (only 0 (by decide))]

/-! ## The messages and frames of a port -/

section
variable {s : State} {p : Fin 2} (runs : portRuns s p = true)
include runs

theorem announce_effect {m : PtpFrame} {a : AnnounceData} {i : Int} (msg : m.msg = .announce a i) (ok : supported (portCfg s p) m = true) :
    ∃ t, exec (.ptpMessageReceived p m) s = .next t ∧ (getPort t p).ptpRx = satInc (getPort s p).ptpRx ∧
      (∀ d : Fin 2, tracked s p d m.number = true →
        (getDomain t d).masters = a :: (getDomain s d).masters.filter (fun b => decide (b.sender ≠ a.sender)) ∧
        (getDomain t d).gmClass = ((bestMaster (getDomain t d).masters).getD a).gmClass ∧
        (getDomain t d).gmId = ((bestMaster (getDomain t d).masters).getD a).gmId ∧
        (getDomain t d).state = (if (getDomain s d).state = .lost then .listening else (getDomain s d).state)) ∧
      (∀ d : Fin 2, tracked s p d m.number = false → getDomain t d = getDomain s d) ∧ Changes [.ethPorts, .domains] s t := by
  have heard := portHeard_changes p s
  have turns : Changes [.domains] (portHeard p s) (announceTurn p m.number a 1 (announceTurn p m.number a 0 (portHeard p s))) :=
    (announceTurn_changes ..).trans (announceTurn_changes ..)
  have domain (d : Fin 2) := getDomain_announces p m.number a (portHeard p s) d
  simp only [heard.getDomain, tracked_of_persist heard.persist] at domain
  refine ⟨_, congrArg Host.Outcome.next (ptpIn_announce runs msg ok), ?_, fun d track => ?_, fun d track => ?_, (heard.mono (by decide)).trans (turns.mono (by decide))⟩
  · exact congrArg EthPort.ptpRx ((turns.getPort p).trans (getPort_portHeard p s))
  · have own := (domain d).trans (if_pos track)
    have effect := announced_effect a (getDomain s d)
    rw [← own] at effect
    exact effect
  · exact (domain d).trans (if_neg (by rw [track]; exact Bool.false_ne_true))

theorem sample_effect {m : PtpFrame} {d : Fin 2} {sender : BitVec 64} {offset path i : Int} (msg : m.msg = .sample sender offset path i)
    (ok : supported (portCfg s p) m = true) (track : tracked s p d m.number = true) (only : ∀ e, e ≠ d → tracked s p e m.number = false)
    (takes : takesSample (getDomain s d) sender = true) (locks : (getDomain s d).state = .locked)
    (near : (getDomain s d).samples = [] ∨
      ((corrected (portCfg s p) offset path).1 - (getDomain s d).offset).natAbs ≤ s.persist.time.offStep.toNat * 16) :
    ∃ t, exec (.ptpMessageReceived p m) s = .next t ∧ (getDomain t d).state = .locked ∧
      (getDomain t d).samples = (corrected (portCfg s p) offset path :: (getDomain s d).samples).take 16 ∧
      (getDomain t d).offset = median ((getDomain t d).samples.map (·.1)) ∧ (getDomain t d).outliers = (getDomain s d).outliers ∧
      (∀ e, e ≠ d → getDomain t e = getDomain s e) ∧ Changes [.funcs, .tc, .ethPorts, .domains] s t := by
  have heard := portHeard_changes p s
  have here := heard.getDomain d
  have turn : sampleTurn p m.number sender (corrected (portCfg s p) offset path) d (portHeard p s) =
      sampleSteers d (sampleTaken d (corrected (portCfg s p) offset path) (portHeard p s)) := by
    rw [sampleTurn, tracked_of_persist heard.persist, here, track, takes]
    exact (if_pos rfl).trans (domainSample_inside (by rw [here]; exact locks) (by rw [here, heard.persist]; exact isOutlier_of_near near))
  have steers := sampleSteers_changes d (sampleTaken d (corrected (portCfg s p) offset path) (portHeard p s))
  have own := (steers.getDomain d).trans (getDomain_sampleTaken d _ (portHeard p s))
  rw [here] at own
  have both := sampleTurns_of_one (s := portHeard p s) (fun e he => (tracked_of_persist heard.persist p e m.number).trans (only e he)) sender
    (corrected (portCfg s p) offset path)
  refine ⟨_, congrArg Host.Outcome.next ((ptpIn_sample runs msg ok).trans (both.trans turn)), by rw [own]; exact locks, by rw [own]; rfl, by rw [own]; rfl,
    by rw [own]; rfl, fun e he => ?_, ?_⟩
  · rw [steers.getDomain, sampleTaken, getDomain_modDomain_other he, heard.getDomain]
  · exact (heard.mono (by decide)).trans (((modDomain_changes _ _ _ (by decide) (Changes.refl _ _)).trans (steers.mono (by decide))))

theorem pdelay_effect {m : PtpFrame} {rx tx : Int} (msg : m.msg = .pdelayReq rx tx) (ok : supported (portCfg s p) m = true) :
    ∃ t, exec (.ptpMessageReceived p m) s = .next t ∧
      getPort t p = { getPort s p with ptpRx := satInc (getPort s p).ptpRx, sent := pdelayAnswer (portCfg s p) rx tx } ∧
      (∀ q, q ≠ p → getPort t q = getPort s q) ∧ Changes [.ethPorts] s t := by
  refine ⟨_, congrArg Host.Outcome.next (ptpIn_pdelay runs msg ok), ?_, fun q hq => ?_, modPort_changes _ _ _ (by decide) (portHeard_changes p s)⟩
  · rw [getPort_modPort, getPort_portHeard]
  · rw [getPort_modPort_other hq, getPort_portHeard_other hq]

theorem unsupported_effect {m : PtpFrame} (no : supported (portCfg s p) m = false) :
    ∃ t, exec (.ptpMessageReceived p m) s = .next t ∧ getPort t p = { getPort s p with ptpRx := satInc (getPort s p).ptpRx } ∧
      (∀ q, q ≠ p → getPort t q = getPort s q) ∧ Changes [.ethPorts] s t :=
  ⟨_, congrArg Host.Outcome.next (ptpIn_unsupported runs no), getPort_portHeard p s, fun _ hq => getPort_portHeard_other hq s, portHeard_changes p s⟩

theorem arp_effect {a : BitVec 32} (mine : a = (portCfg s p).ipv4) (some : a ≠ 0) :
    ∃ t, exec (.nonPtpFrame p (.arp a)) s = .next t ∧ getPort t p = { getPort s p with answered := (getPort s p).answered + 1 } ∧
      (∀ q, q ≠ p → getPort t q = getPort s q) ∧ Changes [.ethPorts] s t := by
  subst mine
  refine ⟨_, congrArg Host.Outcome.next (if_pos runs), (getPort_modPort ..).trans (if_pos ?_), fun q hq => getPort_modPort_other hq _ _,
    modPort_changes _ _ _ (by decide) (Changes.refl _ s)⟩
  simpa using some

theorem otherFrame_drops :
    ∃ t, exec (.nonPtpFrame p .other) s = .next t ∧ getPort t p = { getPort s p with dropped := satInc (getPort s p).dropped } ∧
      (∀ q, q ≠ p → getPort t q = getPort s q) ∧ Changes [.ethPorts] s t :=
  ⟨_, congrArg Host.Outcome.next (if_pos runs), (getPort_modPort ..).trans (if_neg Bool.false_ne_true), fun _ hq => getPort_modPort_other hq _ _,
    modPort_changes _ _ _ (by decide) (Changes.refl _ s)⟩

theorem delayReq_effect (stamp : Int) :
    ∃ t m, exec (.delayReqSend p stamp) s = .next t ∧ (getPort t p).sent = [m] ∧ m.inFrame = (oneStepNow (portCfg s p) && !(portCfg s p).p2p) ∧
      m.stamp = stamp + txCorr (portCfg s p) ∧
      m.kind = (if (portCfg s p).p2p then 2 else 1) ∧ (∀ q, q ≠ p → getPort t q = getPort s q) ∧ Changes [.ethPorts] s t :=
  ⟨_, _, congrArg Host.Outcome.next (if_pos runs), congrArg EthPort.sent (getPort_modPort ..), rfl, rfl, rfl, fun _ hq => getPort_modPort_other hq _ _,
    modPort_changes _ _ _ (by decide) (Changes.refl _ s)⟩

end

/-! ## Domains (Table 14-3) -/

theorem evalServo_quiet (s : State) : Changes [.funcs, .tc] s (evalServo s) := evalServo_changes _ (by decide) (Changes.refl _ s)

/-- In a role that is not lead the servo's choice enters no code into a log. -/
theorem noted_evalServo {s : State} (role : s.persist.time.role ≠ 1) (f : Func) (c : Code) : noted (evalServo s) f c = noted s f c := by
  unfold evalServo evalReached
  rw [if_neg role]
  split
  · exact (followRules_changes (P := [.tc]) s (by decide) (Changes.refl _ s)).noted f c
  · split <;> rfl

theorem announceTimeout_effect {s : State} {d : Fin 2} (on : (getDomain s d).state ≠ .disabled) (up : (getDomain s d).state ≠ .lost) :
    ∃ t, exec (.announceTimeout d) s = .next t ∧ (getDomain t d).state = .lost ∧ (getDomain t d).cause = 3 ∧
      (s.persist.time.role ≠ 1 → noted t 0 0x3B03 = true) ∧
      (∀ e, e ≠ d → getDomain t e = getDomain s e) ∧ Changes [.funcs, .tc, .domains] s t := by
  have lost : announceLost d s = evalServo (record 0x3B03 8 0 0 0
      (modDomain d (fun x => { x with state := .lost, cause := 3, masters := [], recent := [], outRun := [] }) s)) := by
    unfold announceLost
    split
    next h => exact absurd h on
    next h => exact absurd h up
    next => rfl
  have told (u : State) : Changes [.funcs] u (record 0x3B03 8 0 0 0 u) := record_changes _ _ _ _ _ _ (by decide) (Changes.refl _ u)
  have domain (e : Fin 2) (u : State) : getDomain (evalServo (record 0x3B03 8 0 0 0 u)) e = getDomain u e :=
    ((evalServo_quiet _).getDomain e).trans ((told u).getDomain e)
  refine ⟨_, congrArg Host.Outcome.next lost, ?_, ?_, fun role => ?_, fun e he => (domain e _).trans (getDomain_modDomain_other he _ _), ?_⟩
  · rw [domain, getDomain_modDomain]
  · rw [domain, getDomain_modDomain]
  · rw [noted_evalServo (by rw [(told _).persist]; exact role), noted_record]
  · rw [← lost]
    exact announceLost_changes _ _ (by decide) (Changes.refl _ s)

/-- The fields of DM_CTL. -/
def dmConfig (val : Word) : DomainCfg := { enable := bit val 31, port := bit val 30, number := bits val 16 8, annTimeout := bits val 8 4 }

/-- The configuration that a DM_CTL write sets. -/
def dmSet (d : Fin 2) (val : Word) (s : State) : State :=
  setPersist (fun p => { p with domains := tabSet p.domains d.val (dmConfig val) }) s

theorem domainCfg_dmSet (d : Fin 2) (val : Word) (s : State) : domainCfg (dmSet d val s) d = dmConfig val := tabGet_tabSet ..

theorem domainCfg_dmSet_other {d e : Fin 2} (h : e ≠ d) (val : Word) (s : State) : domainCfg (dmSet d val s) e = domainCfg s e :=
  tabGet_tabSet_ne fun k => h (Fin.ext k.symm)

/-- Enable starts and ends the tracking of a domain. -/
def dmTracks (d : Fin 2) (on was : Bool) (s : State) : State :=
  if on && !was then modDomain d (fun x => { clearMedians x with state := .listening, cause := 0 }) s
  else if was && !on then modDomain d (fun x => { x with state := .disabled, masters := [], recent := [], outRun := [] }) s
  else s

theorem dmTracks_changes (d : Fin 2) (on was : Bool) (s : State) : Changes [.domains] s (dmTracks d on was s) :=
  Changes.ite (fun _ => modDomain_changes _ _ _ (by decide) (Changes.refl _ s))
    fun _ => Changes.ite (fun _ => modDomain_changes _ _ _ (by decide) (Changes.refl _ s)) fun _ => Changes.refl _ s

theorem dmTracks_effect (d : Fin 2) (on was : Bool) (s : State) :
    (on = true → was = false → (getDomain (dmTracks d on was s) d).state = .listening) ∧
    (on = false → was = true → (getDomain (dmTracks d on was s) d).state = .disabled) ∧
    (on = was → getDomain (dmTracks d on was s) d = getDomain s d) ∧ ∀ e, e ≠ d → getDomain (dmTracks d on was s) e = getDomain s e := by
  refine ⟨?_, ?_, ?_, fun e he => ?_⟩
  · rintro rfl rfl
    exact congrArg Domain.state (getDomain_modDomain ..)
  · rintro rfl rfl
    exact congrArg Domain.state (getDomain_modDomain ..)
  · rintro rfl
    cases on <;> rfl
  · unfold dmTracks
    split
    · exact getDomain_modDomain_other he _ _
    · split
      · exact getDomain_modDomain_other he _ _
      · rfl

theorem dmCtl_eq (d : Fin 2) (val : Word) (s : State) : dmCtl d val s = evalServo (dmTracks d (bit val 31) (domainCfg s d).enable (dmSet d val s)) := rfl

theorem dmCtlWrite_effect {s : State} {f : Func} {d : Fin 2} (hadm : admits s f (.dm d .ctl) = true) (val : Word) :
    ∃ t, exec (.dmCtlWrite f d val) s = .next t ∧ (domainCfg t d).enable = bit val 31 ∧ (domainCfg t d).port = bit val 30 ∧
      (domainCfg t d).number = bits val 16 8 ∧ (domainCfg t d).annTimeout = bits val 8 4 ∧
      (bit val 31 = true → (domainCfg s d).enable = false → (getDomain t d).state = .listening) ∧
      (bit val 31 = false → (domainCfg s d).enable = true → (getDomain t d).state = .disabled) ∧
      (bit val 31 = (domainCfg s d).enable → getDomain t d = getDomain s d) ∧
      (∀ e, e ≠ d → getDomain t e = getDomain s e ∧ domainCfg t e = domainCfg s e) ∧ Changes [.funcs, .persist, .tc, .domains] s t := by
  obtain ⟨starts, ends, stays, others⟩ := dmTracks_effect d (bit val 31) (domainCfg s d).enable (dmSet d val s)
  have domain (e : Fin 2) := (evalServo_quiet (dmTracks d (bit val 31) (domainCfg s d).enable (dmSet d val s))).getDomain e
  have cfg (e : Fin 2) : domainCfg (evalServo (dmTracks d (bit val 31) (domainCfg s d).enable (dmSet d val s))) e = domainCfg (dmSet d val s) e := by
    rw [domainCfg, (evalServo_quiet _).persist, (dmTracks_changes ..).persist, domainCfg]
  have own := (cfg d).trans (domainCfg_dmSet d val s)
  rw [← domain] at starts ends stays
  exact ⟨_, congrArg Host.Outcome.next ((hostWrite_of_admits hadm _).trans (dmCtl_eq d val s)), by rw [own]; rfl, by rw [own]; rfl, by rw [own]; rfl, by rw [own]; rfl, starts, ends, stays,
    fun e he => ⟨(domain e).trans (others e he), (cfg e).trans (domainCfg_dmSet_other he val s)⟩, dmCtl_changes d val s (by decide) (Changes.refl _ s)⟩

/-! ## Time pulses (R582 to R586) -/

theorem pulseToken_quiet (k : Fin 8) (high : Bool) (s : State) : Changes [.funcs, .nodes, .books, .flights, .nextFlight, .hub] s (pulseToken k high s) :=
  pulseToken_changes _ _ _ (by decide) (Changes.refl _ s)

section
variable {s : State} {f : Func} {k : Fin 8}

theorem tpArm_effect (hadm : admits s f (.tp k .ctl) = true) (ok : pulseArmCode k s = none) (low : (getPulse s k).level = false) :
    ∃ t a, exec (.tpArm f k) s = .next t ∧ getPulse t k = { getPulse s k with armed := some a } ∧ a.mode = (getPulse s k).mode ∧
      a.start = schedToFine (getPulse s k).start / 16 * 16 ∧ a.width = (getPulse s k).width.toNat ∧
      (∀ j, j ≠ k → getPulse t j = getPulse s j) ∧ Changes [.pulses] s t :=
  ⟨_, { mode := (getPulse s k).mode, start := schedToFine (getPulse s k).start / 16 * 16, period := (getPulse s k).period.toNat
        width := (getPulse s k).width.toNat },
    congrArg Host.Outcome.next (hostCheck_of_admits hadm (code := pulseArmCode k) ok (armPulse k)),
    (getPulse_modPulse ..).trans (if_neg (by rw [low]; exact Bool.false_ne_true)), rfl, rfl, rfl, fun _ hj => getPulse_modPulse_other hj _ _,
    modPulse_changes _ _ _ (by decide) (Changes.refl _ s)⟩

theorem tpDisarm_low (hadm : admits s f (.tp k .ctl) = true) (low : (getPulse s k).level = false) :
    ∃ t, exec (.tpDisarm f k) s = .next t ∧ getPulse t k = { getPulse s k with armed := none } ∧
      (∀ j, j ≠ k → getPulse t j = getPulse s j) ∧ Changes [.pulses] s t :=
  ⟨_, congrArg Host.Outcome.next (hostWrite_of_admits hadm (disarmPulse k)), (getPulse_modPulse ..).trans (if_neg (by rw [low]; exact Bool.false_ne_true)),
    fun _ hj => getPulse_modPulse_other hj _ _, modPulse_changes _ _ _ (by decide) (Changes.refl _ s)⟩

theorem tpDisarm_high (hadm : admits s f (.tp k .ctl) = true) (high : (getPulse s k).level = true) :
    ∃ t, exec (.tpDisarm f k) s = .next t ∧ getPulse t k = { getPulse s k with disarmPend := true, nextArm := none } ∧
      (∀ j, j ≠ k → getPulse t j = getPulse s j) ∧ Changes [.pulses] s t :=
  ⟨_, congrArg Host.Outcome.next (hostWrite_of_admits hadm (disarmPulse k)), (getPulse_modPulse ..).trans (if_pos high),
    fun _ hj => getPulse_modPulse_other hj _ _, modPulse_changes _ _ _ (by decide) (Changes.refl _ s)⟩

theorem timePulseEdge_early {a : TpArm} (armed : (getPulse s k).armed = some a) (due : pulseDue s a = none) : exec (.timePulseEdge k true) s = .next s := by
  refine congrArg Host.Outcome.next ?_
  simp only [pulseEdge, armed, due, if_true]

theorem timePulseEdge_rises {a : TpArm} {at_ : Fine} (armed : (getPulse s k).armed = some a) (low : (getPulse s k).level = false)
    (due : pulseDue s a = some at_) (new : (getPulse s k).rose ≠ some at_) :
    ∃ t, exec (.timePulseEdge k true) s = .next t ∧
      getPulse t k = { getPulse s k with
        level := true, rose := some at_, endsAt := at_ + a.width * 16, pulses := satInc (getPulse s k).pulses } ∧
      (∀ j, j ≠ k → getPulse t j = getPulse s j) ∧ Changes [.funcs, .nodes, .books, .flights, .nextFlight, .hub, .pulses] s t := by
  have rises : pulseEdge k true s = pulseToken k (!(getPulse s k).polarity) (modPulse k (risePulse at_ a) s) := by
    simp only [pulseEdge, armed, due, low, new, if_true, Bool.not_false, ne_eq, not_false_eq_true, and_self]
  exact ⟨_, congrArg Host.Outcome.next rises, ((pulseToken_quiet ..).getPulse k).trans (getPulse_modPulse ..),
    fun j hj => ((pulseToken_quiet ..).getPulse j).trans (getPulse_modPulse_other hj _ _),
    pulseToken_changes _ _ _ (by decide) (modPulse_changes _ _ _ (by decide) (Changes.refl _ s))⟩

/-- The end of a pulse: an output with mode once disarms itself. -/
def fallPulse (once : Bool) (x : TimePulse) : TimePulse :=
  { x with
    level := false, disarmPend := false, nextArm := none
    armed := if x.nextArm.isSome then x.nextArm else if x.disarmPend || once then none else x.armed }

theorem timePulseEdge_falls {a : TpArm} (armed : (getPulse s k).armed = some a) (high : (getPulse s k).level = true) (once : a.mode = 1)
    (next : (getPulse s k).nextArm = none) (past : (getPulse s k).endsAt < s.clock.now + 256) :
    ∃ t, exec (.timePulseEdge k false) s = .next t ∧ (getPulse t k).level = false ∧ (getPulse t k).armed = none ∧
      (∀ j, j ≠ k → getPulse t j = getPulse s j) ∧ Changes [.funcs, .nodes, .books, .flights, .nextFlight, .hub, .pulses] s t := by
  have falls : pulseEdge k false s = pulseToken k (getPulse s k).polarity (modPulse k (fallPulse true) s) := by
    simp only [pulseEdge, Bool.false_eq_true, if_false, high, armed, once, decide_true]
    exact if_pos ⟨trivial, past⟩
  have own : getPulse (pulseToken k (getPulse s k).polarity (modPulse k (fallPulse true) s)) k = fallPulse true (getPulse s k) :=
    ((pulseToken_quiet ..).getPulse k).trans (getPulse_modPulse ..)
  refine ⟨_, congrArg Host.Outcome.next falls, by rw [own]; rfl, ?_, fun j hj => ((pulseToken_quiet ..).getPulse j).trans (getPulse_modPulse_other hj _ _),
    pulseToken_changes _ _ _ (by decide) (modPulse_changes _ _ _ (by decide) (Changes.refl _ s))⟩
  rw [own]
  simp [fallPulse, next]

end

/-- Settles O51: ports, domains and time pulses.  The median is log entry 113, the corrections of stamps are log entry 114, the instants and the rounding of
pulses are log entry 117, and the choice of the best master, what is supported and whose samples are taken are log entry 194: the model's choices. -/
theorem domainsAreTrackedAndPulsesFire : Obligations.DomainsAreTrackedAndPulsesFire := by
  unfold Obligations.DomainsAreTrackedAndPulsesFire
  refine ⟨fun s p runs => ⟨fun m a i => announce_effect runs, fun m d sender offset path i msg ok track only takes locks near =>
      sample_effect runs msg ok track only takes locks near, fun m rx tx => pdelay_effect runs, fun m => unsupported_effect runs, fun a => arp_effect runs,
      otherFrame_drops runs, delayReq_effect runs⟩,
    fun s p up => ?link, fun s d => announceTimeout_effect, fun s f d val hadm => dmCtlWrite_effect hadm val,
    fun s f k hadm => ⟨tpArm_effect hadm, fun refused => ?refused, tpDisarm_low hadm, tpDisarm_high hadm⟩,
    fun s k a armed _ => ⟨timePulseEdge_early armed, fun at_ => timePulseEdge_rises armed, timePulseEdge_falls armed⟩⟩
  case link =>
    exact ⟨_, rfl, getPort_modPort .., fun q hq => getPort_modPort_other hq _ _, modPort_changes _ _ _ (by decide) (Changes.refl _ s)⟩
  case refused =>
    exact ⟨_, congrArg Host.Outcome.next (hostCheck_of_code hadm (code := pulseArmCode k) refused (armPulse k)), lastCode_refuseReg .., noted_refuseReg ..,
      refuseReg_changes _ _ _ _ (by decide) (Changes.refl _ s)⟩

end Sys2Proof.Machine
end

section
/-!
PROOFS. Comparators: their latches, clears, self-checks and configurations (O52).
-/

namespace Sys2Proof.Machine

set_option Elab.async false

open Sys2Proof

/-! ## What a latch does outside the comparators (R594, Table 15-2) -/

theorem latchToken_quiet (c : CmpId) (v : Bool) (s : State) : Changes [.funcs, .nodes, .books, .flights, .nextFlight, .hub] s (latchToken c v s) :=
  latchToken_changes _ _ _ (by decide) (Changes.refl _ s)

theorem latchToken_plain {c : CmpId} {s : State} (h : (getWatch s c).cfg.reinEn = false) (v : Bool) : latchToken c v s = s := by
  simp [latchToken, h]

/-- What the action of a comparator may leave in its watch: the shunt of its input alone. -/
structure WatchActed (c : CmpId) (which : BitVec 8) (s t : State) : Prop where
  kept : ∃ shunt, getWatch t c = { getWatch s c with shunt }
  shunted : watchesInput c = true → (getWatch s c).cfg.action = 2 → (getWatch t c).shunt = some (bits which 0 2)
  others : ∀ d, d ≠ c → getWatch t d = getWatch s d

/-- An action that is none of a shunt leaves every comparator. -/
theorem WatchActed.of_changes {P : List Part} {c : CmpId} {which : BitVec 8} {s t : State} (h : Changes P s t)
    (plain : ¬ (watchesInput c = true ∧ (getWatch s c).cfg.action = 2)) (hp : P.contains .watches = false := by decide) : WatchActed c which s t where
  kept := ⟨(getWatch s c).shunt, h.getWatch c hp⟩
  shunted := fun input action => absurd ⟨input, action⟩ plain
  others := fun d _ => h.getWatch d hp

theorem fatalStall_quiet (n : StallId) (s : State) : Changes [.funcs, .irqs, .stalls, .slices, .voices, .seqs, .chans, .nodes, .books, .flights,
    .nextFlight, .hub, .riders, .fasts, .queues, .farriers, .feeds, .freeCtr] s (fatalStall n s) :=
  fatalStall_changes _ _ (by decide) (Changes.refl _ s)

/-- A shunt closes on an input: the windows of its channel are marked. -/
theorem shunted_windows (n : StallId) (k : Option (Fin 5)) (s : State) :
    Changes [.chans, .riders] s (match k with | some k => markWindows n k (fun w => { w with ovr := true }) none s | none => s) := by
  cases k with
  | none => exact Changes.refl _ s
  | some k => exact markWindows_changes _ _ _ _ _ (by decide) (Changes.refl _ s)

theorem takeAction_acts (c : CmpId) (which : BitVec 8) (s : State) : WatchActed c which s (takeAction c which s) := by
  unfold takeAction
  split
  next n w action =>
    have other : ¬ (watchesInput (.stall n w) = true ∧ (getWatch s (.stall n w)).cfg.action = 2) := fun h => by simp [action] at h
    split
    · exact .of_changes (groupFault_changes (P := [.funcs, .riders, .lines, .fasts, .groups]) _ _ _ (by decide) (Changes.refl _ s)) other
    · exact .of_changes (Changes.refl [] s) other
  next n w action =>
    have marked := shunted_windows n (fin? 5 (bits which 0 2).toNat) (modWatch (.stall n w) (fun x => { x with shunt := some (bits which 0 2) }) s)
    have seen := (marked.getWatch (.stall n w)).trans (getWatch_modWatch ..)
    exact ⟨⟨_, seen⟩, fun _ _ => congrArg Watch.shunt seen, fun d h => (marked.getWatch d).trans (getWatch_modWatch_other h _ _)⟩
  next n w action =>
    exact .of_changes (fatalStall_quiet n s) fun h => by simp [action] at h
  next k action =>
    have halted : Changes [.funcs, .irqs, .stalls, .slices, .voices, .seqs, .chans, .nodes, .books, .flights, .nextFlight, .hub, .riders, .fasts, .queues,
        .farriers, .feeds, .freeCtr] s (forEach (List.finRange 8) (fun n s => if active s n then fatalStall n s else s) s) :=
      forEach_changes _ _ _ (fun n u hu => Changes.ite (fun _ => hu.trans (fatalStall_quiet n u)) fun _ => hu) (Changes.refl _ s)
    exact .of_changes halted fun h => by simp [watchesInput] at h
  next c _ _ _ shunts _ _ =>
    refine .of_changes (Changes.refl [] s) fun h => ?_
    obtain ⟨input, action⟩ := h
    cases c with
    | stall n w => exact shunts n w rfl action
    | spine k => exact absurd input Bool.false_ne_true

theorem takeAction_none {c : CmpId} {s : State} (h : (getWatch s c).cfg.action = 0) (which : BitVec 8) : takeAction c which s = s := by
  unfold takeAction
  rw [h]
  split <;> simp_all

/-! ## The latch sets -/

/-- The watch of a latch that sets, with no shunt and no wake yet. -/
def latched (now : Fine) (which : BitVec 8) (x : Watch) : Watch := { x with tripped := true, cap := now / fineFrame * fineFrame, which }

/-- A latch that sets: the condition that tripped it, with the shunt and the wake that the action and the configuration bring. -/
structure LatchSet (c : CmpId) (which : BitVec 8) (s t : State) : Prop where
  watch : ∃ shunt wake, getWatch t c = { latched s.clock.sched which (getWatch s c) with shunt, wake }
  shunted : watchesInput c = true → (getWatch s c).cfg.action = 2 → (getWatch t c).shunt = some (bits which 0 2)
  others : ∀ d, d ≠ c → getWatch t d = getWatch s d
  recorded : noted t 0 0x3C01 = true

/-- The latch wakes a link that sleeps. -/
def wakes (c : CmpId) (on : Bool) (s : State) : State :=
  if on ∧ linkSleeps s then setHost (fun h => { h with wake := true }) (modWatch c (fun x => { x with wake := true }) s) else s

theorem getWatch_wakes (c : CmpId) (on : Bool) (s : State) :
    (∃ wake, getWatch (wakes c on s) c = { getWatch s c with wake }) ∧ ∀ d, d ≠ c → getWatch (wakes c on s) d = getWatch s d := by
  unfold wakes
  split
  · exact ⟨⟨true, getWatch_modWatch c (fun x => { x with wake := true }) s⟩, fun d h => getWatch_modWatch_other h (fun x => { x with wake := true }) s⟩
  · exact ⟨⟨_, rfl⟩, fun _ _ => rfl⟩

/-- The interrupt of a latch. -/
def latchIrq (c : CmpId) (on : Bool) (s : State) : State := if on then raise (cmpSource c) s else s

theorem latchIrq_quiet (c : CmpId) (on : Bool) (s : State) : Changes [.funcs, .irqs] s (latchIrq c on s) :=
  Changes.ite (fun _ => raise_quiet _ s) fun _ => Changes.refl _ s

theorem setLatch_eq (c : CmpId) (which : BitVec 8) (s : State) : ∃ irq wake, setLatch c which s =
    record 0x3C01 (cmpStall c) 0 0 0 (wakes c wake (latchIrq c irq (latchToken c true (takeAction c which (modWatch c (latched s.clock.sched which) s))))) :=
  ⟨_, _, rfl⟩

theorem setLatch_sets (c : CmpId) (which : BitVec 8) (s : State) : LatchSet c which s (setLatch c which s) := by
  obtain ⟨irq, wake, eq⟩ := setLatch_eq c which s
  obtain ⟨⟨shunt, kept⟩, shunted, others⟩ := takeAction_acts c which (modWatch c (latched s.clock.sched which) s)
  generalize takeAction c which (modWatch c (latched s.clock.sched which) s) = u at eq kept shunted others
  have toldAt : ∀ d, getWatch (latchIrq c irq (latchToken c true u)) d = getWatch u d := fun d =>
    ((latchIrq_quiet c irq _).getWatch d).trans ((latchToken_quiet c true u).getWatch d)
  generalize latchIrq c irq (latchToken c true u) = v at eq toldAt
  obtain ⟨⟨w, woke⟩, wokeOthers⟩ := getWatch_wakes c wake v
  have quiet := record_changes (P := [.funcs]) 0x3C01 (cmpStall c) 0 0 0 (wakes c wake v) (by decide) (Changes.refl _ _)
  have watch : getWatch (setLatch c which s) c = { latched s.clock.sched which (getWatch s c) with shunt, wake := w } := by
    rw [eq, quiet.getWatch c, woke, toldAt c, kept, getWatch_modWatch]
  have atAction : (getWatch u c).shunt = shunt := congrArg Watch.shunt kept
  refine ⟨⟨shunt, w, watch⟩, fun input action => ?_, fun d h => ?_, eq ▸ noted_record ..⟩
  · rw [watch, ← atAction]
    exact shunted input (by rw [getWatch_modWatch]; exact action)
  · rw [eq, quiet.getWatch d, wokeOthers d h, toldAt d, others d h, getWatch_modWatch_other h]

/-! ## Trips (R592 to R595) -/

section
variable {s : State} {c : CmpId} {level : BitVec 10} (powered : cmpPowered s c = true) (enabled : (getWatch s c).cfg.enable = true)
  (unchecked : (getWatch s c).chkBusy = false) (dwell : dwelt s (getWatch s c) = true) (met : levelMeets (getWatch s c).cfg level 0 = true)
include powered enabled unchecked dwell met

/-- A condition that has dwelt counts as blanked, or as a trip, which sets a latch that is clear. -/
theorem trip_met (which : BitVec 8) : trip c level which s =
    (let u := modWatch c (fun x => { x with cond := true, level }) s
     if blankedNow (getWatch s c) (frameNow s) then modWatch c (fun x => { x with blanked := satInc x.blanked }) u
     else if (getWatch s c).tripped then modWatch c (fun x => { x with trips := satInc x.trips }) u
     else setLatch c (if watchesInput c then which else 0) (modWatch c (fun x => { x with trips := satInc x.trips }) u)) := by
  unfold trip
  rw [if_pos ⟨powered, enabled, by simp [unchecked], dwell, met⟩]
  rfl

theorem trip_blanked (which : BitVec 8) (h : blankedNow (getWatch s c) (frameNow s) = true) :
    ∃ t, exec (.comparatorTrip c level which) s = .next t ∧
      getWatch t c = { getWatch s c with cond := true, level, blanked := satInc (getWatch s c).blanked } ∧
      (∀ d, d ≠ c → getWatch t d = getWatch s d) ∧ Changes [.watches] s t := by
  have eq : trip c level which s = modWatch c (fun x => { x with blanked := satInc x.blanked }) (modWatch c (fun x => { x with cond := true, level }) s) := by
    rw [trip_met powered enabled unchecked dwell met]
    simp only [h, if_true]
  refine ⟨_, congrArg Host.Outcome.next eq, by simp, fun d other => ?_, ?_⟩
  · rw [getWatch_modWatch_other other, getWatch_modWatch_other other]
  · exact modWatch_changes _ _ _ (by decide) (modWatch_changes _ _ _ (by decide) (Changes.refl _ s))

theorem trip_tripped (which : BitVec 8) (h : blankedNow (getWatch s c) (frameNow s) = false) (tripped : (getWatch s c).tripped = true) :
    ∃ t, exec (.comparatorTrip c level which) s = .next t ∧
      getWatch t c = { getWatch s c with cond := true, level, trips := satInc (getWatch s c).trips } ∧
      (∀ d, d ≠ c → getWatch t d = getWatch s d) ∧ Changes [.watches] s t := by
  have eq : trip c level which s = modWatch c (fun x => { x with trips := satInc x.trips }) (modWatch c (fun x => { x with cond := true, level }) s) := by
    rw [trip_met powered enabled unchecked dwell met]
    simp only [h, tripped, if_true, Bool.false_eq_true, if_false]
  refine ⟨_, congrArg Host.Outcome.next eq, by simp, fun d other => ?_, ?_⟩
  · rw [getWatch_modWatch_other other, getWatch_modWatch_other other]
  · exact modWatch_changes _ _ _ (by decide) (modWatch_changes _ _ _ (by decide) (Changes.refl _ s))

theorem trip_latches (which : BitVec 8) (h : blankedNow (getWatch s c) (frameNow s) = false) (clear : (getWatch s c).tripped = false) :
    ∃ t, exec (.comparatorTrip c level which) s = .next t ∧
      (getWatch t c).tripped = true ∧ (getWatch t c).level = level ∧ (getWatch t c).trips = satInc (getWatch s c).trips ∧
      (getWatch t c).which = (if watchesInput c then which else 0) ∧ (getWatch t c).cap = s.clock.sched / fineFrame * fineFrame ∧
      (getWatch t c).cfg = (getWatch s c).cfg ∧ noted t 0 0x3C01 = true ∧
      (watchesInput c = true → (getWatch s c).cfg.action = 2 → (getWatch t c).shunt = some (bits which 0 2)) ∧
      (∀ d, d ≠ c → getWatch t d = getWatch s d) ∧ Changes [.host, .funcs, .irqs, .stalls, .slices, .voices, .seqs, .chans, .nodes, .books, .flights, .nextFlight, .hub, .riders, .lines, .fasts, .groups, .queues, .farriers, .watches, .feeds, .freeCtr] s t := by
  have eq : trip c level which s = setLatch c (if watchesInput c then which else 0)
      (modWatch c (fun x => { x with trips := satInc x.trips }) (modWatch c (fun x => { x with cond := true, level }) s)) := by
    rw [trip_met powered enabled unchecked dwell met]
    simp only [h, clear, Bool.false_eq_true, if_false]
  have counted : getWatch (modWatch c (fun x => { x with trips := satInc x.trips }) (modWatch c (fun x => { x with cond := true, level }) s)) c =
      { getWatch s c with cond := true, level, trips := satInc (getWatch s c).trips } := by simp
  obtain ⟨⟨shunt, wake, watch⟩, shunted, others, recorded⟩ := setLatch_sets c (if watchesInput c then which else 0)
    (modWatch c (fun x => { x with trips := satInc x.trips }) (modWatch c (fun x => { x with cond := true, level }) s))
  rw [counted] at watch shunted
  rw [← eq] at watch shunted others recorded
  refine ⟨_, rfl, ?_, ?_, ?_, ?_, ?_, ?_, recorded, fun input action => ?_, fun d other => ?_, trip_changes _ _ _ _ (by decide) (Changes.refl _ s)⟩
  iterate 6 rw [watch]; rfl
  · rw [shunted input action, if_pos input]
  · rw [others d other, getWatch_modWatch_other other, getWatch_modWatch_other other]

end

/-! ## Clears (R596, R597) -/

/-- A latch that clears, with the watch as it was before. -/
structure LatchCleared (c : CmpId) (s t : State) : Prop where
  watch : getWatch t c = (if (getWatch s c).tripped then { getWatch s c with tripped := false, shunt := none, wake := false } else getWatch s c)
  others : ∀ d, d ≠ c → getWatch t d = getWatch s d
  local_ : (getWatch s c).tripped = false ∨ (getWatch s c).cfg.reinEn = false → Changes [.watches] s t
  frame : Changes [.funcs, .nodes, .books, .flights, .nextFlight, .hub, .watches] s t

theorem clearLatch_clears (c : CmpId) (s : State) : LatchCleared c s (clearLatch c s) := by
  have frame : Changes [.funcs, .nodes, .books, .flights, .nextFlight, .hub, .watches] s (clearLatch c s) := clearLatch_changes _ _ (by decide) (Changes.refl _ s)
  by_cases tripped : (getWatch s c).tripped = true
  · have eq : clearLatch c s = latchToken c false (modWatch c (fun x => { x with tripped := false, shunt := none, wake := false }) s) := if_pos tripped
    refine ⟨?_, fun d other => ?_, fun h => ?_, frame⟩
    · rw [eq, (latchToken_quiet c false _).getWatch c, getWatch_modWatch, if_pos tripped]
    · rw [eq, (latchToken_quiet c false _).getWatch d, getWatch_modWatch_other other]
    · have plain : (getWatch s c).cfg.reinEn = false := h.resolve_left fun e => Bool.false_ne_true (e.symm.trans tripped)
      rw [eq, latchToken_plain (by rw [getWatch_modWatch]; exact plain)]
      exact modWatch_changes _ _ _ (by decide) (Changes.refl _ s)
  · have eq : clearLatch c s = s := if_neg tripped
    rw [eq] at frame ⊢
    exact ⟨(if_neg tripped).symm, fun _ _ => rfl, fun _ => Changes.refl _ s, frame⟩

theorem LatchCleared.tripped {c : CmpId} {s t : State} (h : LatchCleared c s t) : (getWatch t c).tripped = false := by
  rw [h.watch]
  split
  · rfl
  · next clear => exact Bool.eq_false_iff.mpr clear

/-- A clear leaves what the latch does not hold. -/
theorem LatchCleared.kept {c : CmpId} {s t : State} (h : LatchCleared c s t) : (getWatch t c).cap = (getWatch s c).cap ∧
    (getWatch t c).trips = (getWatch s c).trips ∧ (getWatch t c).cfg = (getWatch s c).cfg := by
  rw [h.watch]
  split <;> exact ⟨rfl, rfl, rfl⟩

/-- The look at the source that a clear begins with. -/
def looked (c : CmpId) (met : Bool) (level : BitVec 10) (s : State) : State := modWatch c (lookAt met level s.clock.now) s

theorem looked_changes (c : CmpId) (met : Bool) (level : BitVec 10) (s : State) : Changes [.watches] s (looked c met level s) :=
  modWatch_changes _ _ _ (by decide) (Changes.refl _ s)

theorem getWatch_looked (c : CmpId) (met : Bool) (level : BitVec 10) (s : State) :
    getWatch (looked c met level s) c = lookAt met level s.clock.now (getWatch s c) := getWatch_modWatch ..

theorem getWatch_looked_other {c d : CmpId} (h : d ≠ c) (met : Bool) (level : BitVec 10) (s : State) :
    getWatch (looked c met level s) d = getWatch s d := getWatch_modWatch_other h _ _

section
variable {s : State} {f : Func} {c : CmpId} {level : BitVec 10} (admitted : admits s f (cmpReg c .status) = true) (unchecked : (getWatch s c).chkBusy = false)
include admitted unchecked

theorem latchClear_of_admits : latchClear f c level s =
    (if stillMet (getWatch s c) level && !blankedNow (getWatch s c) (frameNow s)
      then refuseReg f (cmpReg c .status) 0x1C01 (looked c (stillMet (getWatch s c) level) level s)
      else clearLatch c (looked c (stillMet (getWatch s c) level) level s)) := by
  simp only [latchClear, hostWrite_of_admits admitted, unchecked, Bool.false_eq_true, if_false]
  rfl

theorem latchClear_refused (met : stillMet (getWatch s c) level = true) (open_ : blankedNow (getWatch s c) (frameNow s) = false) :
    ∃ t, exec (.latchClear f c level) s = .next t ∧ getWatch t c = lookAt true level s.clock.now (getWatch s c) ∧ (getFunc t f).lastCode = 0x1C01 ∧
      noted t 0 0x1C01 = true ∧ (∀ d, d ≠ c → getWatch t d = getWatch s d) ∧ Changes [.funcs, .watches] s t := by
  have eq : latchClear f c level s = refuseReg f (cmpReg c .status) 0x1C01 (looked c true level s) := by
    rw [latchClear_of_admits admitted unchecked, met, open_]
    rfl
  have quiet := refuseReg_changes_funcs f (cmpReg c .status) 0x1C01 (looked c true level s)
  refine ⟨_, congrArg Host.Outcome.next eq, ?_, lastCode_refuseReg .., noted_refuseReg .., fun d other => ?_, ?_⟩
  · rw [quiet.getWatch c, getWatch_looked]
  · rw [quiet.getWatch d, getWatch_looked_other other]
  · exact ((looked_changes c true level s).mono (by decide)).trans (quiet.mono (by decide))

theorem latchClear_clears (past : stillMet (getWatch s c) level = false ∨ blankedNow (getWatch s c) (frameNow s) = true) :
    ∃ t, exec (.latchClear f c level) s = .next t ∧ (getWatch t c).tripped = false ∧ (getWatch t c).cap = (getWatch s c).cap ∧
      (getWatch t c).trips = (getWatch s c).trips ∧ (getWatch t c).cfg = (getWatch s c).cfg ∧
      ((getWatch s c).tripped = true → (getWatch t c).shunt = none) ∧
      ((getWatch s c).tripped = false ∨ (getWatch s c).cfg.reinEn = false → Changes [.watches] s t) ∧
      (∀ d, d ≠ c → getWatch t d = getWatch s d) ∧ Changes [.funcs, .nodes, .books, .flights, .nextFlight, .hub, .watches] s t := by
  have eq : latchClear f c level s = clearLatch c (looked c (stillMet (getWatch s c) level) level s) := by
    rw [latchClear_of_admits admitted unchecked]
    exact if_neg fun h => by
      obtain ⟨met, open_⟩ := (Bool.and_eq_true _ _).mp h
      obtain gone | blanked := past
      · exact Bool.false_ne_true (gone.symm.trans met)
      · rw [blanked] at open_
        exact Bool.false_ne_true open_
  have cleared := clearLatch_clears c (looked c (stillMet (getWatch s c) level) level s)
  obtain ⟨cap, trips, cfg⟩ := cleared.kept
  have tripped := cleared.tripped
  have look := getWatch_looked c (stillMet (getWatch s c) level) level s
  have before := looked_changes c (stillMet (getWatch s c) level) level s
  obtain ⟨watch, others, here, frame⟩ := cleared
  rw [look] at watch cap trips cfg here
  refine ⟨_, congrArg Host.Outcome.next eq, tripped, cap, trips, cfg, fun set => ?_, fun h => before.trans (here h), fun d other => ?_,
    (before.mono (by decide)).trans frame⟩
  · rw [watch, if_pos (show (lookAt _ _ _ (getWatch s c)).tripped = true from set)]
  · rw [others d other, getWatch_looked_other other]

end

section
variable {s : State} {c : CmpId} {level : BitVec 10} (powered : cmpPowered s c = true) (mode : (getWatch s c).cfg.clrMode = true)
  (due : clearDue s (getWatch s c) = true) (unchecked : (getWatch s c).chkBusy = false)
include powered mode due unchecked

theorem periodClear_due : periodClear c level s =
    (if stillMet (getWatch s c) level then looked c (stillMet (getWatch s c) level) level s
      else clearLatch c (looked c (stillMet (getWatch s c) level) level s)) := by
  unfold periodClear
  rw [if_pos ⟨powered, mode, due⟩]
  simp only [unchecked, Bool.false_eq_true, if_false]
  rfl

theorem periodClear_met (met : stillMet (getWatch s c) level = true) :
    ∃ t, exec (.periodClear c level) s = .next t ∧ getWatch t c = lookAt true level s.clock.now (getWatch s c) ∧
      (∀ d, d ≠ c → getWatch t d = getWatch s d) ∧ Changes [.watches] s t := by
  have eq : periodClear c level s = looked c true level s := by rw [periodClear_due powered mode due unchecked, met, if_pos rfl]
  exact ⟨_, congrArg Host.Outcome.next eq, getWatch_looked .., fun d other => getWatch_looked_other other .., looked_changes ..⟩

theorem periodClear_clears (gone : stillMet (getWatch s c) level = false) :
    ∃ t, exec (.periodClear c level) s = .next t ∧ (getWatch t c).tripped = false ∧ (getWatch t c).cap = (getWatch s c).cap ∧
      (∀ d, d ≠ c → getWatch t d = getWatch s d) ∧ Changes [.funcs, .nodes, .books, .flights, .nextFlight, .hub, .watches] s t := by
  have eq : periodClear c level s = clearLatch c (looked c false level s) := by
    rw [periodClear_due powered mode due unchecked, gone, if_neg Bool.false_ne_true]
  have cleared := clearLatch_clears c (looked c false level s)
  refine ⟨_, congrArg Host.Outcome.next eq, cleared.tripped, ?_, fun d other => ?_,
    ((looked_changes c false level s).mono (by decide)).trans cleared.frame⟩
  · rw [cleared.kept.1, getWatch_looked]
    rfl
  · rw [cleared.others d other, getWatch_looked_other other]

end

/-! ## Self-checks (R601 to R603) -/

section
variable {s : State} {f : Func} {c : CmpId} (admitted : admits s f (cmpReg c .cmd) = true) (powered : cmpPowered s c = true) (levels : Bool)
include admitted powered

theorem startCheck_begins (free : checkCode c s = none) :
    startCheck f c levels s = modWatch c (fun x => { x with chkBusy := true, chkLevels := levels }) s :=
  hostCheck_of_admits admitted ((if_pos powered).trans free) _

theorem startCheck_refused (busy : (getWatch s c).chkBusy = true) : startCheck f c levels s = refuseReg f (cmpReg c .cmd) 0x1C03 s :=
  hostCheck_of_code (c := 0x1C03) admitted ((if_pos powered).trans (by simp only [checkCode, busy, Bool.true_or, if_true])) _

end

section
variable {s : State} {c : CmpId} (busy : (getWatch s c).chkBusy = true)
include busy

theorem checkEnd_passed : checkEnd c true s = modWatch c (fun x => { x with chkBusy := false, since := s.clock.now }) s := by
  simp only [checkEnd, busy, if_true]

/-- A check that fails is recorded before the latch or the action. -/
def checkFailed (c : CmpId) (s : State) : State :=
  record 0x3C02 (cmpStall c) 0 0 0
    (modWatch c (fun x => { x with chkFail := true }) (modWatch c (fun x => { x with chkBusy := false, since := s.clock.now }) s))

omit busy in
theorem getWatch_checkFailed (c : CmpId) (s : State) : getWatch (checkFailed c s) c = { getWatch s c with chkBusy := false, since := s.clock.now, chkFail := true } := by
  rw [checkFailed, (record_changes (P := [.funcs]) _ _ _ _ _ _ (by decide) (Changes.refl _ _)).getWatch c, getWatch_modWatch, getWatch_modWatch]

omit busy in
theorem getWatch_checkFailed_other {c d : CmpId} (h : d ≠ c) (s : State) : getWatch (checkFailed c s) d = getWatch s d := by
  rw [checkFailed, (record_changes (P := [.funcs]) _ _ _ _ _ _ (by decide) (Changes.refl _ _)).getWatch d, getWatch_modWatch_other h, getWatch_modWatch_other h]

theorem checkEnd_failed : checkEnd c false s =
    (if (getWatch s c).tripped then takeAction c (getWatch (checkFailed c s) c).which (checkFailed c s) else setLatch c 0 (checkFailed c s)) := by
  have was : (getWatch (modWatch c (fun x => { x with chkBusy := false, since := s.clock.now }) s) c).tripped = (getWatch s c).tripped := by simp
  simp only [checkEnd, busy, if_true, Bool.false_eq_true, if_false, was]
  rfl

theorem checkEnd_fails :
    ∃ t, exec (.selfCheckEnd c false) s = .next t ∧ (getWatch t c).chkBusy = false ∧ (getWatch t c).chkFail = true ∧
      (getWatch t c).tripped = true ∧
      ((getWatch s c).tripped = true → (getWatch s c).cfg.action = 0 → noted t 0 0x3C02 = true) ∧ (∀ d, d ≠ c → getWatch t d = getWatch s d) ∧ Changes [.host, .funcs, .irqs, .stalls, .slices, .voices, .seqs, .chans, .nodes, .books, .flights, .nextFlight, .hub, .riders, .lines, .fasts, .groups, .queues, .farriers, .watches, .feeds, .freeCtr] s t := by
  have frame : Changes [.host, .funcs, .irqs, .stalls, .slices, .voices, .seqs, .chans, .nodes, .books, .flights, .nextFlight, .hub, .riders, .lines, .fasts,
      .groups, .queues, .farriers, .watches, .feeds, .freeCtr] s (checkEnd c false s) := checkEnd_changes _ _ _ (by decide) (Changes.refl _ s)
  have failed := getWatch_checkFailed c s
  by_cases was : (getWatch s c).tripped = true
  · have eq : checkEnd c false s = takeAction c (getWatch (checkFailed c s) c).which (checkFailed c s) := (checkEnd_failed busy).trans (if_pos was)
    obtain ⟨⟨shunt, kept⟩, -, others⟩ := takeAction_acts c (getWatch (checkFailed c s) c).which (checkFailed c s)
    rw [← eq, failed] at kept
    refine ⟨_, rfl, by rw [kept], by rw [kept], by rw [kept]; exact was, fun _ plain => ?_, fun d other => ?_, frame⟩
    · rw [eq, takeAction_none (by rw [failed]; exact plain)]
      exact noted_record ..
    · rw [eq, others d other, getWatch_checkFailed_other other]
  · have eq : checkEnd c false s = setLatch c 0 (checkFailed c s) := (checkEnd_failed busy).trans (if_neg was)
    obtain ⟨⟨shunt, wake, watch⟩, -, others, -⟩ := setLatch_sets c 0 (checkFailed c s)
    rw [← eq, failed] at watch
    refine ⟨_, rfl, by rw [watch]; rfl, by rw [watch]; rfl, by rw [watch]; rfl, fun set => absurd set was, fun d other => ?_, frame⟩
    rw [eq, others d other, getWatch_checkFailed_other other]

end

/-! ## Configurations (R599) -/

theorem cfg_stageWatch_running {s : State} (h : s.clock.running = true) (r : WatchReg) (val : Word) (x : Watch) :
    stageWatch r val s x = { x with next := some (setWatchCfg r val (writtenWatch x)) } := if_pos h

theorem stageWatch_at_once {s : State} (h : s.clock.running = false) (r : WatchReg) (val : Word) (x : Watch) :
    stageWatch r val s x = takeWatch (setWatchCfg r val (writtenWatch x)) s.clock.now x := if_neg (by rw [h]; exact Bool.false_ne_true)

/-- What is written reads back, whether it waits or is in force. -/
theorem writtenWatch_stageWatch (r : WatchReg) (val : Word) (s : State) (x : Watch) :
    writtenWatch (stageWatch r val s x) = setWatchCfg r val (writtenWatch x) := by
  unfold stageWatch
  split <;> rfl

theorem tripped_stageWatch (r : WatchReg) (val : Word) (s : State) (x : Watch) : (stageWatch r val s x).tripped = x.tripped := by
  unfold stageWatch
  split <;> rfl

theorem watchCode_is {c : CmpId} {r : WatchReg} {val : Word} {code : Code} (h : watchCode c r val = some code) : code = 0x1C02 := by
  unfold watchCode at h
  cases r <;> simp at h
  · exact h.2.symm
  · exact h.2.symm

section
variable {s : State} {f : Func} {c : CmpId} {reg : WatchReg} {val : Word} (admitted : admits s f (cmpReg c (watchReg reg)) = true)
include admitted

theorem comparatorConfigWrite_stages (fits : watchCode c reg val = none) :
    ∃ t, exec (.comparatorConfigWrite f c reg val) s = .next t ∧
      (s.clock.running = true → (getWatch t c).cfg = (getWatch s c).cfg) ∧
      (s.clock.running = false → (getWatch t c).cfg = writtenWatch (getWatch t c)) ∧
      (reg = .ref → writtenWatch (getWatch t c) = { writtenWatch (getWatch s c) with hi := bits val 16 10, lo := bits val 0 10 }) ∧
      (reg = .latch → writtenWatch (getWatch t c) = { writtenWatch (getWatch s c) with clrMode := bit val 16, clrPeriod := bits val 0 16 }) ∧
      (reg = .ctl → (writtenWatch (getWatch t c)).action = bits val 16 2 ∧ (writtenWatch (getWatch t c)).mode = bits val 12 2 ∧
        (writtenWatch (getWatch t c)).enable = bit val 11 ∧ (writtenWatch (getWatch t c)).dwell = bits val 0 8) ∧
      (reg = .blank → (writtenWatch (getWatch t c)).blankSrc = bits val 30 2 ∧ (writtenWatch (getWatch t c)).chan = bits val 16 12) ∧
      (getWatch t c).tripped = (getWatch s c).tripped ∧ (∀ d, d ≠ c → getWatch t d = getWatch s d) ∧ Changes [.watches] s t := by
  have eq := hostCheck_of_admits admitted (code := fun _ => watchCode c reg val) fits (fun s => modWatch c (stageWatch reg val s) s)
  have seen : getWatch (modWatch c (stageWatch reg val s) s) c = stageWatch reg val s (getWatch s c) := getWatch_modWatch ..
  refine ⟨_, congrArg Host.Outcome.next eq, fun on => ?_, fun off => ?_, ?_, ?_, ?_, ?_, ?_, fun d other => getWatch_modWatch_other other _ _,
    modWatch_changes _ _ _ (by decide) (Changes.refl _ s)⟩
  · rw [seen, cfg_stageWatch_running on]
  · rw [seen, writtenWatch_stageWatch, stageWatch_at_once off]
    rfl
  · rintro rfl
    rw [seen, writtenWatch_stageWatch]
    rfl
  · rintro rfl
    rw [seen, writtenWatch_stageWatch]
    rfl
  · rintro rfl
    rw [seen, writtenWatch_stageWatch]
    exact ⟨rfl, rfl, rfl, rfl⟩
  · rintro rfl
    rw [seen, writtenWatch_stageWatch]
    exact ⟨rfl, rfl⟩
  · rw [seen, tripped_stageWatch]

theorem comparatorConfigWrite_refused {code : Code} (refused : watchCode c reg val = some code) :
    ∃ t, exec (.comparatorConfigWrite f c reg val) s = .next t ∧ code = 0x1C02 ∧ (getFunc t f).lastCode = code ∧ noted t 0 code = true ∧
      Changes [.funcs] s t :=
  ⟨_, congrArg Host.Outcome.next (hostCheck_of_code admitted (code := fun _ => watchCode c reg val) refused _), watchCode_is refused,
    lastCode_refuseReg .., noted_refuseReg .., refuseReg_changes_funcs ..⟩

end

/-- Settles O52: each command of a comparator through the lemma of its branch. That a configuration is in force at once without an epoch, and reads
back as written, is the model's choice (log entry 169); that the dwell begins again at the end of a self-check is its reading (log entry 196). -/
theorem comparatorsLatchClearAndCheck : Obligations.ComparatorsLatchClearAndCheck := by
  unfold Obligations.ComparatorsLatchClearAndCheck
  refine ⟨fun s c level which powered enabled unchecked dwell met => ⟨?_, ?_, ?_⟩, fun s f c level admitted unchecked => ⟨?_, ?_⟩,
    fun s c level powered mode due unchecked => ⟨?_, ?_⟩, fun s f c admitted powered => ⟨fun free => ⟨?_, ?_⟩, fun busy => ⟨?_, ?_⟩⟩,
    fun s c busy => ⟨?_, ?_⟩, fun s f c reg val admitted => ⟨?_, ?_⟩⟩
  · exact trip_blanked powered enabled unchecked dwell met which
  · exact trip_tripped powered enabled unchecked dwell met which
  · exact trip_latches powered enabled unchecked dwell met which
  · exact latchClear_refused admitted unchecked
  · exact latchClear_clears admitted unchecked
  · exact periodClear_met powered mode due unchecked
  · exact periodClear_clears powered mode due unchecked
  · exact ⟨_, congrArg Host.Outcome.next (startCheck_begins admitted powered false free), getWatch_modWatch .., fun d other => getWatch_modWatch_other other _ _,
      modWatch_changes _ _ _ (by decide) (Changes.refl _ s)⟩
  · exact ⟨_, congrArg Host.Outcome.next (startCheck_begins admitted powered true free), getWatch_modWatch .., fun d other => getWatch_modWatch_other other _ _,
      modWatch_changes _ _ _ (by decide) (Changes.refl _ s)⟩
  · exact ⟨_, congrArg Host.Outcome.next (startCheck_refused admitted powered false busy), lastCode_refuseReg .., noted_refuseReg .., refuseReg_changes_funcs ..⟩
  · exact ⟨_, congrArg Host.Outcome.next (startCheck_refused admitted powered true busy), lastCode_refuseReg .., noted_refuseReg .., refuseReg_changes_funcs ..⟩
  · exact ⟨_, congrArg Host.Outcome.next (checkEnd_passed busy), getWatch_modWatch .., fun d other => getWatch_modWatch_other other _ _,
      modWatch_changes _ _ _ (by decide) (Changes.refl _ s)⟩
  · exact checkEnd_fails busy
  · exact comparatorConfigWrite_stages admitted
  · exact fun code => comparatorConfigWrite_refused admitted

end Sys2Proof.Machine
end

section
/-!
PROOFS. Housekeeping converters: lists, conversions, registers and turns of the background calibration (O53).
-/

namespace Sys2Proof.Machine

set_option Elab.async false

open Sys2Proof

/-! ## Lists that start and stop (R607, R610) -/

/-- A converter that runs nothing. -/
def hkStopped (x : HkConv) : HkConv := { x with running := false, restart := false, extra := 0, primed := false }

theorem modHk_others (k : Fin 8) (g : HkConv → HkConv) (s : State) :
    (∀ j, j ≠ k → getHk (modHk k g s) j = getHk s j) ∧ Changes [.hks] s (modHk k g s) :=
  ⟨fun _ h => getHk_modHk_other h g s, modHk_changes _ _ _ (by decide) (Changes.refl _ s)⟩

section
variable {s : State} {f : Func} {k : Fin 8} (admitted : admits s f (.hk k .cmd) = true)
include admitted

theorem hkStart_ready (ready : s.hkCtl.refReady = true) (runs : hkRuns (getHk s k).mode = true) :
    ∃ t, exec (.hkStart f k) s = .next t ∧
      getHk t k = (if (getHk s k).running then { getHk s k with restart := true } else hkBegin s.clock.now (getHk s k)) ∧
      (∀ j, j ≠ k → getHk t j = getHk s j) ∧ Changes [.hks] s t := by
  have eq := hostCheck_of_admits admitted (code := fun s => if s.hkCtl.refReady then none else some 0x1C10) (if_pos ready)
    (modHk k fun x => if !hkRuns x.mode then x else if x.running then { x with restart := true } else hkBegin s.clock.now x)
  refine ⟨_, congrArg Host.Outcome.next eq, ?_, modHk_others ..⟩
  rw [getHk_modHk, runs]
  rfl

theorem hkStart_refused (unready : s.hkCtl.refReady = false) :
    ∃ t, exec (.hkStart f k) s = .next t ∧ (getFunc t f).lastCode = 0x1C10 ∧ noted t 0 0x1C10 = true ∧ Changes [.funcs] s t := by
  have code : (fun s : State => if s.hkCtl.refReady then none else some 0x1C10) s = some (0x1C10 : Code) :=
    if_neg (by rw [unready]; exact Bool.false_ne_true)
  exact ⟨_, congrArg Host.Outcome.next (hostCheck_of_code admitted (code := fun s => if s.hkCtl.refReady then none else some 0x1C10) code _),
    lastCode_refuseReg .., noted_refuseReg .., refuseReg_changes_funcs ..⟩

theorem hkStop_stops : ∃ t, exec (.hkStop f k) s = .next t ∧
    getHk t k = { getHk s k with running := false, restart := false, extra := 0, primed := false } ∧
    (∀ j, j ≠ k → getHk t j = getHk s j) ∧ Changes [.hks] s t :=
  ⟨_, congrArg Host.Outcome.next (hostWrite_of_admits admitted (modHk k hkStopped)), getHk_modHk .., modHk_others ..⟩

end

/-! ## Conversions (R606 to R609) -/

/-- The converter with the result of a conversion, before its list goes on. -/
def hkTaken (s : State) (k : Fin 8) (code : BitVec 12) (e : ScanEntry) (settle carried : Bool) (x : HkConv) : HkConv :=
  { x with
    valid := true, overrun := x.overrun || x.valid, overruns := if x.valid then satInc x.overruns else x.overruns, settle, spare := carried
    settles := if settle then satInc x.settles else x.settles, gain := hkGain e, input := e.input, code := hkResult s k e code
    lastInput := some (e.input, hkGain e) }

/-- The conversions that an entry still takes before its result. -/
def hkLeft (x : HkConv) (e : ScanEntry) : Nat := if x.primed then x.extra else extrasFor x e

/-- The converter after a conversion: an extra one leaves its entry in turn, a result moves the list on. -/
def hkConverted (s : State) (k : Fin 8) (code : BitVec 12) (e : ScanEntry) (carried : Bool) (x : HkConv) : HkConv :=
  let y := hkTaken s k code e (decide (0 < hkLeft x e)) carried x
  if decide (0 < hkLeft x e) then { y with primed := true, extra := hkLeft x e - 1 } else hkNext s.clock.now y

theorem hkConverted_holds (s : State) (k : Fin 8) (code : BitVec 12) (e : ScanEntry) (carried : Bool) :
    HoldsResult s k e code (hkConverted s k code e carried (getHk s k)) :=
  .ite ⟨rfl, rfl, rfl, rfl, rfl, rfl⟩ (.afterNext ⟨rfl, rfl, rfl, rfl, rfl, rfl⟩ _)

theorem hkNext_keeps (now : Fine) (x : HkConv) : (hkNext now x).settle = x.settle ∧ (hkNext now x).lastInput = x.lastInput := by
  unfold hkNext
  dsimp only
  split
  · exact ⟨rfl, rfl⟩
  · split <;> exact ⟨rfl, rfl⟩

/-- A conversion is an extra one where its entry still takes one, and its input and gain are then in hand. -/
theorem hkConverted_settle (s : State) (k : Fin 8) (code : BitVec 12) (e : ScanEntry) (carried : Bool) (x : HkConv) :
    (hkConverted s k code e carried x).settle = decide (0 < hkLeft x e) ∧
    (hkConverted s k code e carried x).lastInput = some (e.input, hkGain e) := by
  unfold hkConverted
  dsimp only
  split
  · exact ⟨rfl, rfl⟩
  · exact hkNext_keeps _ _

/-- An input in hand at the gain in hand takes no extra conversion (R608). -/
theorem hkLeft_same {x : HkConv} {e : ScanEntry} (unprimed : x.primed = false) (h : x.lastInput = some (e.input, hkGain e)) : hkLeft x e = 0 := by
  simp [hkLeft, extrasFor, unprimed, h]

/-- Another input takes an extra conversion at least (R608). -/
theorem hkLeft_other {x : HkConv} {e : ScanEntry} (unprimed : x.primed = false) (h : ∀ g, x.lastInput ≠ some (e.input, g)) : 0 < hkLeft x e := by
  unfold hkLeft extrasFor
  rw [if_neg (by rw [unprimed]; exact Bool.false_ne_true)]
  split
  · exact Nat.one_pos
  · next i g last =>
    have other : i ≠ e.input := fun same => h g (same ▸ last)
    split
    · exact Nat.two_pos
    · exact Nat.one_pos

section
variable {s : State} {k : Fin 8} {code : BitVec 12} {e : ScanEntry} {carried : Bool} {x : HkConv}

/-- An extra conversion leaves its entry in turn. -/
theorem hkConverted_extra (h : 0 < hkLeft x e) :
    (hkConverted s k code e carried x).settles = satInc x.settles ∧ (hkConverted s k code e carried x).at_ = x.at_ ∧
    (hkConverted s k code e carried x).due = x.due := by
  have eq : hkConverted s k code e carried x =
    { hkTaken s k code e (decide (0 < hkLeft x e)) carried x with primed := true, extra := hkLeft x e - 1 } := if_pos (decide_eq_true h)
  rw [eq]
  exact ⟨if_pos (decide_eq_true h), rfl, rfl⟩

theorem hkConverted_next (h : ¬ 0 < hkLeft x e) :
    hkConverted s k code e carried x = hkNext s.clock.now (hkTaken s k code e (decide (0 < hkLeft x e)) carried x) :=
  if_neg fun some => h (of_decide_eq_true some)

end

theorem due_hkNext (now : Fine) (x : HkConv) : (hkNext now x).due = max now (x.due + x.interval.toNat * fineMicro) := by
  unfold hkNext
  dsimp only
  split
  · rfl
  · split <;> rfl

theorem at_hkNext {now : Fine} {x : HkConv} (h : x.at_ < x.length.toNat) : (hkNext now x).at_ = x.at_ + 1 := by
  unfold hkNext
  exact (congrArg HkConv.at_ (if_pos h)).trans rfl

/-- The end of a list: a mode that repeats begins it again (R607). -/
theorem hkNext_ends {now : Fine} {x : HkConv} (h : ¬ x.at_ < x.length.toNat) (runs : x.running = true) :
    (hkNext now x).at_ = 0 ∧ (hkNext now x).running = decide (x.mode = 2) := by
  unfold hkNext
  dsimp only
  rw [if_neg h]
  by_cases again : x.mode = 2
  · rw [if_pos again]
    exact ⟨rfl, runs.trans (decide_eq_true again).symm⟩
  · rw [if_neg again]
    exact ⟨rfl, (decide_eq_false again).symm⟩

/-- The record of a result that was not read. -/
def hkOverrun (was : Bool) (s : State) : State := if was then record 0x3C11 8 0 0 0 s else s

theorem hkOverrun_changes (was : Bool) (s : State) : Changes [.funcs] s (hkOverrun was s) :=
  Changes.ite (fun _ => record_changes _ _ _ _ _ _ (by decide) (Changes.refl _ s)) fun _ => Changes.refl _ s

section
variable {s : State} {k : Fin 8} (runs : (getHk s k).running = true) (first : (getHk s k).restart = false) (due : (getHk s k).due ≤ s.clock.now)
include runs first due

theorem conversion_due (code : BitVec 12) : ∃ carried, conversion k code s =
    hkOverrun (getHk s k).valid (modHk k (fun _ => hkConverted s k code (tabGet {} (getHk s k).entries (getHk s k).at_) carried (getHk s k)) s) := by
  refine ⟨decide (s.hkCtl.spareUse ≠ 0) && decide (s.hkCtl.spareTgt.toNat = k.val), ?_⟩
  unfold conversion
  rw [if_pos ⟨runs, due⟩]
  change hkOverrun (getHk s k).valid (modHk k (fun _ => if (getHk s k).restart then _ else _) s) = _
  rw [first]
  rfl

theorem conversionDone_converts {code : BitVec 12} {e : ScanEntry} (entry : tabGet {} (getHk s k).entries (getHk s k).at_ = e) :
    ∃ t, exec (.conversionDone k code) s = .next t ∧ (getHk t k).valid = true ∧ (getHk t k).input = e.input ∧ (getHk t k).gain = hkGain e ∧
      (getHk t k).code = hkResult s k e code ∧ (getHk t k).lastInput = some (e.input, hkGain e) ∧
      (getHk t k).overrun = ((getHk s k).overrun || (getHk s k).valid) ∧
      (getHk t k).overruns = (if (getHk s k).valid then satInc (getHk s k).overruns else (getHk s k).overruns) ∧
      ((getHk s k).valid = true → noted t 0 0x3C11 = true) ∧
      ((getHk s k).primed = false → (getHk s k).lastInput = some (e.input, hkGain e) → (getHk t k).settle = false) ∧
      ((getHk s k).primed = false → (∀ g, (getHk s k).lastInput ≠ some (e.input, g)) →
        (getHk t k).settle = true ∧ (getHk t k).settles = satInc (getHk s k).settles ∧ (getHk t k).at_ = (getHk s k).at_) ∧
      ((getHk t k).settle = false → (getHk t k).due = max s.clock.now ((getHk s k).due + (getHk s k).interval.toNat * fineMicro)) ∧
      ((getHk t k).settle = true → (getHk t k).due = (getHk s k).due) ∧
      ((getHk t k).settle = false → (getHk s k).at_ < (getHk s k).length.toNat → (getHk t k).at_ = (getHk s k).at_ + 1) ∧
      ((getHk t k).settle = false → ¬ (getHk s k).at_ < (getHk s k).length.toNat →
        (getHk t k).at_ = 0 ∧ (getHk t k).running = decide ((getHk s k).mode = 2)) ∧
      (∀ j, j ≠ k → getHk t j = getHk s j) ∧ Changes [.funcs, .hks] s t := by
  obtain ⟨carried, eq⟩ := conversion_due runs first due code
  rw [entry] at eq
  have quiet := hkOverrun_changes (getHk s k).valid (modHk k (fun _ => hkConverted s k code e carried (getHk s k)) s)
  have seen : getHk (conversion k code s) k = hkConverted s k code e carried (getHk s k) := by rw [eq, quiet.getHk k, getHk_modHk]
  obtain ⟨valid, input, gain, result, overrun, overruns⟩ := hkConverted_holds s k code e carried
  obtain ⟨settle, last⟩ := hkConverted_settle s k code e carried (getHk s k)
  have moved : (hkConverted s k code e carried (getHk s k)).settle = false → ¬ 0 < hkLeft (getHk s k) e := fun h =>
    of_decide_eq_false (settle.symm.trans h)
  have stays : (hkConverted s k code e carried (getHk s k)).settle = true → 0 < hkLeft (getHk s k) e := fun h =>
    of_decide_eq_true (settle.symm.trans h)
  refine ⟨_, rfl, ?_⟩
  rw [seen]
  refine ⟨valid, input, gain, result, last, overrun, overruns, fun unread => ?_, fun unprimed same => ?_, fun unprimed other => ?_,
    fun h => ?_, fun h => (hkConverted_extra (stays h)).2.2, fun h inside => ?_, fun h outside => ?_, fun j h => ?_, ?_⟩
  · rw [eq]
    exact (congrArg (noted · 0 0x3C11) (if_pos unread)).trans (noted_record ..)
  · rw [settle, hkLeft_same unprimed same]
    rfl
  · have extra := hkLeft_other unprimed other
    obtain ⟨settles, at_, -⟩ := hkConverted_extra (s := s) (k := k) (code := code) (carried := carried) extra
    exact ⟨settle.trans (decide_eq_true extra), settles, at_⟩
  · rw [hkConverted_next (moved h), due_hkNext]
    rfl
  · rw [hkConverted_next (moved h)]
    exact at_hkNext (now := s.clock.now) (x := hkTaken s k code e _ carried (getHk s k)) inside
  · rw [hkConverted_next (moved h)]
    exact hkNext_ends (now := s.clock.now) (x := hkTaken s k code e _ carried (getHk s k)) outside runs
  · rw [eq, quiet.getHk j, getHk_modHk_other h]
  · rw [eq]
    exact ((modHk_others k _ s).2.mono (by decide)).trans (quiet.mono (by decide))

end

/-! ## The registers of the converters (R607, R610) -/

theorem hkDataRead_takes {s : State} {f : Func} (reach : hostReach s f = true) (k : Fin 8) :
    ∃ t, exec (.hkDataRead f k) s = .next t ∧ getHk t k = { getHk s k with valid := false, overrun := false } ∧
      (∀ j, j ≠ k → getHk t j = getHk s j) ∧ Changes [.hks] s t :=
  ⟨_, congrArg Host.Outcome.next (if_pos reach), getHk_modHk .., modHk_others ..⟩

/-- Every converter stops. -/
def hkAllStopped (s : State) : State := forEach (List.finRange 8) (fun k s => modHk k hkStopped s) s

theorem getHk_hkAllStopped (s : State) (k : Fin 8) : getHk (hkAllStopped s) k = hkStopped (getHk s k) := by
  unfold hkAllStopped
  exact (forEach_keyed getHk (fun k s => modHk k hkStopped s) (fun _ => hkStopped) (fun _ => True) (fun _ _ _ => trivial) (fun _ _ _ => getHk_modHk ..)
    (fun _ _ _ _ other => getHk_modHk_other (Ne.symm other) _ _) _ (List.nodup_finRange 8) s trivial k).trans (if_pos (List.mem_finRange k))

theorem hkAllStopped_changes (s : State) : Changes [.hks] s (hkAllStopped s) := by
  unfold hkAllStopped
  exact forEach_changes _ _ _ (fun k u hu => hu.trans (modHk_others k _ u).2) (Changes.refl _ s)

theorem hkCtlWrite_sets {s : State} {f : Func} (val : Word) (admitted : admits s f (.hkCtl false) = true) :
    ∃ t, exec (.hkCtlWrite f val) s = .next t ∧
      t.hkCtl = { s.hkCtl with bgCal := bit val 1, refEn := bit val 0, refReady := s.hkCtl.refReady && bit val 0 } ∧
      (∀ k, getHk t k = (if bit val 0 then getHk s k
        else { getHk s k with running := false, restart := false, extra := 0, primed := false })) ∧ Changes [.hks, .hkCtl] s t := by
  let set := setHk (fun h => { h with bgCal := bit val 1, refEn := bit val 0, refReady := h.refReady && bit val 0 }) s
  have eq : hostWrite f (.hkCtl false) (setHkCtl val) s = if bit val 0 then set else hkAllStopped set := hostWrite_of_admits admitted _
  have before : Changes [.hkCtl] s set := setHk_changes _ _ (by decide) (Changes.refl _ s)
  refine ⟨_, congrArg Host.Outcome.next eq, ?_, fun k => ?_, ?_⟩
  · split
    · rfl
    · exact (hkAllStopped_changes set).hkCtl
  · split
    · rfl
    · rw [getHk_hkAllStopped]
      rfl
  · exact Changes.ite (fun _ => before.mono (by decide)) fun _ => (before.mono (by decide)).trans ((hkAllStopped_changes set).mono (by decide))

theorem referenceReady_enabled {s : State} (enabled : s.hkCtl.refEn = true) :
    ∃ t, exec .referenceReady s = .next t ∧ t.hkCtl = { s.hkCtl with refReady := true } ∧ Changes [.hkCtl] s t :=
  ⟨_, rfl, if_pos enabled, setHk_changes _ _ (by decide) (Changes.refl _ s)⟩

section
variable {s : State} {f : Func} {k : Fin 8} {n : Fin 16} {val : Word} (admitted : admits s f (.scan k n) = true)
include admitted

theorem scanEntryWrite_sets (serves : hkServes k (bits val 0 10) = true) :
    ∃ t, exec (.scanEntryWrite f k n val) s = .next t ∧ (tabGet {} (getHk t k).entries n.val).input = bits val 0 10 ∧
      (tabGet {} (getHk t k).entries n.val).gain = bits val 16 2 ∧
      (∀ m : Nat, m ≠ n.val → tabGet {} (getHk t k).entries m = tabGet {} (getHk s k).entries m) ∧
      { getHk t k with entries := (getHk s k).entries } = getHk s k ∧ (∀ j, j ≠ k → getHk t j = getHk s j) ∧ Changes [.hks] s t := by
  have eq := hostCheck_of_admits admitted (code := fun _ => if hkServes k (bits val 0 10) then none else some 0x1C11) (if_pos serves)
    (modHk k fun x => { x with entries := tabSet x.entries n.val { gain := bits val 16 2, input := bits val 0 10 } })
  refine ⟨_, congrArg Host.Outcome.next eq, ?_, ?_, fun m other => ?_, ?_, modHk_others ..⟩
  · rw [getHk_modHk, tabGet_tabSet]
  · rw [getHk_modHk, tabGet_tabSet]
  · rw [getHk_modHk, tabGet_tabSet_ne (Ne.symm other)]
  · rw [getHk_modHk]

theorem scanEntryWrite_refused (unserved : hkServes k (bits val 0 10) = false) :
    ∃ t, exec (.scanEntryWrite f k n val) s = .next t ∧ (getFunc t f).lastCode = 0x1C11 ∧ noted t 0 0x1C11 = true ∧ Changes [.funcs] s t := by
  have code : (if hkServes k (bits val 0 10) then none else some 0x1C11) = some (0x1C11 : Code) := if_neg (by rw [unserved]; exact Bool.false_ne_true)
  exact ⟨_, congrArg Host.Outcome.next (hostCheck_of_code admitted (code := fun _ => if hkServes k (bits val 0 10) then none else some 0x1C11) code _),
    lastCode_refuseReg .., noted_refuseReg .., refuseReg_changes_funcs ..⟩

end

/-! ## Turns of the background calibration (R611) -/

theorem backgroundCalibrationTurn_begins {s : State} (on : s.hkCtl.bgCal = true) (free : s.hkCtl.spareUse = 0) :
    ∃ t, exec .backgroundCalibrationTurn s = .next t ∧ t.hkCtl = { s.hkCtl with
        spareUse := 1, spareTgt := BitVec.ofNat 4 s.hkCtl.nextTurn.val, nextTurn := s.hkCtl.nextTurn + 1 } ∧ Changes [.hkCtl] s t :=
  ⟨_, rfl, if_pos ⟨on, free⟩, setHk_changes _ _ (by decide) (Changes.refl _ s)⟩

section
variable {s : State} {k : Fin 8} {a b : Int} (turn : s.hkCtl.spareUse = 1) (target : s.hkCtl.spareTgt = BitVec.ofNat 4 k.val)
include turn target

/-- The converter whose turn ends takes its trims. -/
def trimmed (k : Fin 8) (a b : Int) (s : State) : State := modHk k (fun x => { x with offsetTrim := a, gainTrim := b }) s

theorem turnEnd_turn : turnEnd a b s =
    (if 16 < a.natAbs ∨ 16 < b.natAbs then
      record 0x3C12 8 0 0 0 (setHk (fun h => { h with spareUse := 2 }) (modHk k (fun x => { x with failed := true }) (trimmed k a b s)))
    else setHk (fun h => { h with spareUse := 0, spareTgt := 0xF }) (trimmed k a b s)) := by
  have named : fin? 8 s.hkCtl.spareTgt.toNat = some k := by
    rw [target, BitVec.toNat_ofNat, Nat.mod_eq_of_lt (by omega)]
    exact fin?_val k
  unfold turnEnd
  rw [if_pos turn, named]
  rfl

theorem turnEnd_good (h : a.natAbs ≤ 16) (g : b.natAbs ≤ 16) :
    ∃ t, exec (.backgroundCalibrationTurnEnd a b) s = .next t ∧ getHk t k = { getHk s k with offsetTrim := a, gainTrim := b } ∧
      t.hkCtl = { s.hkCtl with spareUse := 0, spareTgt := 0xF } ∧ (∀ j, j ≠ k → getHk t j = getHk s j) ∧ Changes [.hks, .hkCtl] s t := by
  have eq := (turnEnd_turn turn target (a := a) (b := b)).trans (if_neg (by omega))
  have trim := modHk_others k (fun x => { x with offsetTrim := a, gainTrim := b }) s
  have last : Changes [.hkCtl] (trimmed k a b s) (setHk (fun h => { h with spareUse := 0, spareTgt := 0xF }) (trimmed k a b s)) :=
    setHk_changes _ _ (by decide) (Changes.refl _ _)
  exact ⟨_, congrArg Host.Outcome.next eq, (last.getHk k).trans (getHk_modHk ..), rfl, fun j other => (last.getHk j).trans (trim.1 j other),
    (trim.2.mono (by decide)).trans (last.mono (by decide))⟩

theorem turnEnd_bad (h : 16 < a.natAbs ∨ 16 < b.natAbs) :
    ∃ t, exec (.backgroundCalibrationTurnEnd a b) s = .next t ∧ (getHk t k).failed = true ∧ t.hkCtl = { s.hkCtl with spareUse := 2 } ∧
      noted t 0 0x3C12 = true ∧ (∀ j, j ≠ k → getHk t j = getHk s j) ∧ Changes [.funcs, .hks, .hkCtl] s t := by
  have eq := (turnEnd_turn turn target (a := a) (b := b)).trans (if_pos h)
  have trim := modHk_others k (fun x => { x with offsetTrim := a, gainTrim := b }) s
  have fail := modHk_others k (fun x => { x with failed := true }) (trimmed k a b s)
  have spare : Changes [.hkCtl] (modHk k (fun x => { x with failed := true }) (trimmed k a b s))
      (setHk (fun h => { h with spareUse := 2 }) (modHk k (fun x => { x with failed := true }) (trimmed k a b s))) :=
    setHk_changes _ _ (by decide) (Changes.refl _ _)
  have last := record_changes (P := [.funcs]) 0x3C12 8 0 0 0
    (setHk (fun h => { h with spareUse := 2 }) (modHk k (fun x => { x with failed := true }) (trimmed k a b s))) (by decide) (Changes.refl _ _)
  refine ⟨_, congrArg Host.Outcome.next eq, ?_, last.hkCtl, noted_record .., fun j other => ?_, ?_⟩
  · rw [last.getHk k, spare.getHk k, getHk_modHk]
  · rw [last.getHk j, spare.getHk j, fail.1 j other, trimmed, trim.1 j other]
  · exact (((trim.2.mono (by decide)).trans (fail.2.mono (by decide))).trans (spare.mono (by decide))).trans (last.mono (by decide))

end

/-- Settles O53: each command of a converter through the lemma of its branch. That the first conversion after reset takes an extra one is the model's
reading (log entry 122), and so is the earliest start of the next entry, an interval after the one that was due (log entry 196). -/
theorem convertersRunTheirLists : Obligations.ConvertersRunTheirLists := by
  unfold Obligations.ConvertersRunTheirLists
  exact ⟨fun s f k admitted => ⟨hkStart_ready admitted, hkStart_refused admitted, hkStop_stops admitted⟩,
    fun s k code e runs first due entry => conversionDone_converts runs first due entry,
    fun s f k reach => hkDataRead_takes reach k,
    fun s f val admitted => hkCtlWrite_sets val admitted,
    fun s enabled => referenceReady_enabled enabled,
    fun s f k n val admitted => ⟨scanEntryWrite_sets admitted, scanEntryWrite_refused admitted⟩,
    fun s on free => backgroundCalibrationTurn_begins on free,
    fun s k a b turn target => ⟨turnEnd_good turn target, turnEnd_bad turn target⟩⟩

end Sys2Proof.Machine
end

section
/-!
PROOFS. Supplies, shutdowns and resets: what outlives each (O54).
-/

namespace Sys2Proof.Machine

set_option Elab.async false

open Sys2Proof

/-! ## Tables whose every entry is mapped -/

theorem tabGet_mapped {α : Type} (d : α) (g : α → α) (h : g d = d) (t : Tab α) (k : Nat) : tabGet d (t.map fun e => (e.1, g e.2)) k = g (tabGet d t k) := by
  have found : tabFind k (t.map fun e => (e.1, g e.2)) = (tabFind k t).map g := by
    induction t with
    | nil => rfl
    | cons e rest ih =>
      rw [List.map_cons, tabFind, tabFind, ih]
      split <;> rfl
  rw [tabGet, tabGet, found]
  cases tabFind k t with
  | none => exact h.symm
  | some a => rfl

/-! ## Lines through a shutdown and a reset (R417, R418, R616) -/

/-- A new goal leaves a line's values and its fast part. -/
theorem setGoal_leaves (g : DcPoint) (x : Line) : (setGoal g x).curb = x.curb ∧ (setGoal g x).safe = x.safe ∧ (setGoal g x).spanNow = x.spanNow ∧
    (setGoal g x).codeNow = x.codeNow ∧ (setGoal g x).connected = x.connected ∧ (setGoal g x).genMode = x.genMode := by
  unfold setGoal
  dsimp only
  split
  · split
    · exact ⟨rfl, rfl, rfl, rfl, rfl, rfl⟩
    · split <;> exact ⟨rfl, rfl, rfl, rfl, rfl, rfl⟩
  · split <;> exact ⟨rfl, rfl, rfl, rfl, rfl, rfl⟩
  · split <;> exact ⟨rfl, rfl, rfl, rfl, rfl, rfl⟩
  · exact ⟨rfl, rfl, rfl, rfl, rfl, rfl⟩

/-- A line on its way to 0 V keeps its values. -/
theorem zeroLine_effect (x : Line) : (zeroLine x).goal.code = 0 ∧ (zeroLine x).genMode = 0 ∧ (zeroLine x).codeNow = x.codeNow ∧
    (zeroLine x).curb = x.curb ∧ (zeroLine x).safe = x.safe := by
  unfold zeroLine
  dsimp only
  obtain ⟨curb, safe, -, code, -, mode⟩ := setGoal_leaves { span := x.entering.getD x.spanNow, code := 0 }
    { x with genMode := 0, genRunning := false, dc := if x.dc = .generator ∨ x.dc = .phase1 then .ramping else x.dc }
  exact ⟨by rw [goal_setGoal], mode, code, curb, safe⟩

/-- A generator that stops leaves the values of its line. -/
theorem stopGen_leaves (x : Line) : (stopGen x).curb = x.curb ∧ (stopGen x).safe = x.safe ∧ (stopGen x).spanNow = x.spanNow ∧
    (stopGen x).codeNow = x.codeNow ∧ (stopGen x).connected = x.connected := by
  unfold stopGen
  dsimp only
  split
  · obtain ⟨curb, safe, span, code, connected, -⟩ := setGoal_leaves x.goal { x with genMode := 0, genRunning := false, dc := .steady }
    exact ⟨curb, safe, span, code, connected⟩
  · exact ⟨rfl, rfl, rfl, rfl, rfl⟩

/-- What a line holds through a reset that finds the bus in range. -/
theorem heldLine_effect (x : Line) : (heldLine x).curb = x.curb ∧ (heldLine x).safe = x.safe ∧ (heldLine x).goal = x.safe ∧
    (heldLine x).spanNow = x.spanNow ∧ (heldLine x).codeNow = x.codeNow ∧ (heldLine x).connected = x.connected := by
  unfold heldLine
  dsimp only
  obtain ⟨curb, safe, span, code, connected, -⟩ := setGoal_leaves x.safe
    { keepLine (if x.dc = .halter then x else stopGen x) with persistBad := false, safeWritten := false }
  rw [curb, safe, span, code, connected, goal_setGoal]
  obtain ⟨curb, safe, span, code, connected⟩ := stopGen_leaves x
  dsimp only [keepLine]
  split
  · exact ⟨rfl, rfl, rfl, rfl, rfl, rfl⟩
  · exact ⟨curb, safe, rfl, span, code, connected⟩

theorem getLine_openedLines {t : State} (s : State) (l : LineId) (h : t.lines = s.lines.map fun e => (e.1, openedLine e.2)) :
    getLine t l = openedLine (getLine s l) := by
  rw [getLine, h]
  exact tabGet_mapped {} openedLine rfl s.lines _

theorem getLine_heldLines {t : State} (s : State) (l : LineId) (h : t.lines = s.lines.map fun e => (e.1, heldLine e.2)) :
    getLine t l = heldLine (getLine s l) := by
  rw [getLine, h]
  exact tabGet_mapped {} heldLine rfl s.lines _

/-! ## Supplies (R615, R616) -/

theorem supplyFailure_fails (s : State) (second removed : Bool) :
    ∃ t, exec (.supplyFailure second removed) s = .next t ∧ noted t 0 0x3D60 = true ∧
      (let old := if second then s.power.supply2 else s.power.supply1
       (if second then t.power.supply2 else t.power.supply1) = if removed then {} else { old with dcOk := false, inService := false }) ∧
      (if second then t.power.supply1 = s.power.supply1 else t.power.supply2 = s.power.supply2) ∧ Changes [.funcs, .power] s t := by
  have quiet (u : State) := record_changes (P := [.funcs]) 0x3D60 8 0 0 0 u (by decide) (Changes.refl _ u)
  refine ⟨_, rfl, noted_record .., ?_, ?_,
    record_changes _ _ _ _ _ _ (by decide) (modSupply_changes _ _ _ (by decide) (Changes.refl _ s))⟩
  · rw [(quiet _).power]
    cases second <;> rfl
  · rw [(quiet _).power]
    cases second <;> rfl

theorem supplyInService_serves (s : State) (second : Bool) :
    ∃ t, exec (.supplyInService second) s = .next t ∧ noted t 0 0x0D61 = true ∧
      (if second then t.power.supply2.inService else t.power.supply1.inService) = true ∧
      (if second then t.power.supply1 = s.power.supply1 else t.power.supply2 = s.power.supply2) ∧ Changes [.funcs, .power] s t := by
  have quiet (u : State) := record_changes (P := [.funcs]) 0x0D61 8 0 0 0 u (by decide) (Changes.refl _ u)
  refine ⟨_, rfl, noted_record .., ?_, ?_,
    record_changes _ _ _ _ _ _ (by decide) (modSupply_changes _ _ _ (by decide) (Changes.refl _ s))⟩
  · rw [(quiet _).power]
    cases second <;> rfl
  · rw [(quiet _).power]
    cases second <;> rfl

theorem fatalAll_quiet (s : State) : Changes [.funcs, .irqs, .stalls, .slices, .voices, .seqs, .chans, .nodes, .books, .flights, .nextFlight, .hub,
    .riders, .fasts, .queues, .farriers, .feeds, .freeCtr] s (fatalAll s) := fatalAll_changes _ (by decide) (Changes.refl _ s)

/-- A fatal fault of another stall leaves where a stall stands. -/
theorem lifeOf_fatalStall_other {n m : StallId} (h : n ≠ m) (s : State) : lifeOf n (fatalStall m s) = lifeOf n s :=
  congrArg StallCtl.life ((near_fatalStall m s (Near.refl m s)).other n h)

/-- A stall that rides rests when every stall takes a fatal fault. -/
theorem lifeOf_fatalAll {n : StallId} {s : State} (rides : lifeOf n s = .riding) : lifeOf n (fatalAll s) = .resting := by
  unfold fatalAll
  exact forEach_at (I := fun u => lifeOf n u = .riding) (J := fun u => lifeOf n u = .resting) n
    (fun m u other hu => (lifeOf_fatalStall_other (Ne.symm other) u).trans hu)
    (fun u hu => (fatalStall_stall (by rw [hu]; decide)).2.1.trans (if_pos hu))
    (fun m u other hu => (lifeOf_fatalStall_other (Ne.symm other) u).trans hu)
    (List.nodup_finRange 8) (List.mem_finRange n) rides

/-- The state of a shutdown before the stalls take their faults. -/
def shutting (s : State) : State :=
  record 0x3D61 8 0 0 0 (setPower (fun p =>
    { p with shutdown := true, supply1 := { p.supply1 with acOk := false }, supply2 := { p.supply2 with acOk := false } }) s)

theorem shutting_changes (s : State) : Changes [.funcs, .power] s (shutting s) :=
  record_changes _ _ _ _ _ _ (by decide) (setPower_changes _ _ (by decide) (Changes.refl _ s))

/-- Every line goes to 0 V. -/
def zeroLines (u : State) : State := { u with lines := u.lines.map fun e => (e.1, zeroLine e.2) }

theorem getLine_zeroLines (u : State) (l : LineId) : getLine (zeroLines u) l = zeroLine (getLine u l) := tabGet_mapped ({} : Line) zeroLine rfl u.lines _

theorem zeroLines_changes (u : State) : Changes [.lines] u (zeroLines u) :=
  ⟨fun p h => by cases p <;> first | rfl | exact Bool.noConfusion h⟩

theorem shutDown_eq (s : State) : shutDown s = zeroLines (fatalAll (shutting s)) := rfl

theorem supplyAcFailure_shuts {s : State} (up : s.power.shutdown = false) (bus : s.power.busLow = false) :
    ∃ t, exec .supplyAcFailure s = .next t ∧ t.power = { s.power with
        shutdown := true, supply1 := { s.power.supply1 with acOk := false }, supply2 := { s.power.supply2 with acOk := false } } ∧
      (∀ n, lifeOf n s = .riding → lifeOf n t = .resting) ∧
      (∀ l, (getLine t l).goal.code = 0 ∧ (getLine t l).genMode = 0 ∧ (getLine t l).codeNow = (getLine s l).codeNow ∧
        (getLine t l).curb = (getLine s l).curb ∧ (getLine t l).safe = (getLine s l).safe) ∧ Changes [.funcs, .irqs, .power, .stalls, .slices, .voices, .seqs, .chans, .nodes, .books, .flights, .nextFlight, .hub, .riders, .lines, .fasts, .queues, .farriers, .feeds, .freeCtr] s t := by
  have eq : (if s.power.shutdown || s.power.busLow then s else shutDown s) = zeroLines (fatalAll (shutting s)) := if_neg (by rw [up, bus]; decide)
  have start := shutting_changes s
  have power : (shutting s).power = { s.power with
      shutdown := true, supply1 := { s.power.supply1 with acOk := false }, supply2 := { s.power.supply2 with acOk := false } } :=
    (record_changes (P := [.funcs]) 0x3D61 8 0 0 0 _ (by decide) (Changes.refl _ _)).power
  have rests (n : StallId) (rides : lifeOf n s = .riding) : lifeOf n (fatalAll (shutting s)) = .resting :=
    lifeOf_fatalAll ((congrArg StallCtl.life (start.getStall n)).trans rides)
  have faults := fatalAll_quiet (shutting s)
  generalize shutting s = u at eq start power rests faults
  generalize fatalAll u = v at eq rests faults
  have zeroed := zeroLines_changes v
  refine ⟨_, congrArg Host.Outcome.next eq, (zeroed.power.trans faults.power).trans power,
    fun n rides => (congrArg StallCtl.life (zeroed.getStall n)).trans (rests n rides), fun l => ?_,
    ((start.mono (by decide)).trans (faults.mono (by decide))).trans (zeroed.mono (by decide))⟩
  rw [getLine_zeroLines, faults.getLine l, start.getLine l]
  exact zeroLine_effect _

/-! ## What a reset keeps of the module (R622, R635, R636) -/

/-- A plain module, its backup domain and its power taken from elsewhere. -/
theorem plainModule_frame (line : Line → Line) (s : State) :
    Changes [.pending, .backup, .persist, .lines, .feeds, .tally, .freeCtr] State.reset (plainModule line s) :=
  ⟨fun p h => by cases p <;> first | rfl | exact Bool.noConfusion h⟩

/-- The module after the bus has busFallen, with what the shutdown left. -/
def busFallen (p : Power) (u : State) : State :=
  { plainModule openedLine u with power := { straps := p.straps, ga := p.ga, domOn := domainMask 254 2, busLow := true, fanTray := p.fanTray } }

/-- What the fall of the bus leaves in the backup domain and the Tally. -/
def falling (s : State) : State :=
  if s.power.shutdown then setBackup (backupStepped (s.lines.filter fun e => offZero e.2).length) (finalFeeds s)
  else setBackup (fun b => { b with powerFail := false }) s

theorem finalFeeds_quiet (s : State) : Changes [.feeds, .tally] s (finalFeeds s) := finalFeeds_changes _ (by decide) (Changes.refl _ s)

theorem falling_changes (s : State) : Changes [.feeds, .tally, .backup] s (falling s) :=
  Changes.ite (fun _ => setBackup_changes _ _ (by decide) ((finalFeeds_quiet s).mono (by decide)))
    fun _ => setBackup_changes _ _ (by decide) (Changes.refl _ s)

theorem busFalls_eq (s : State) : busFalls s = busFallen (falling s).power (falling s) := by
  unfold busFalls falling
  dsimp only
  split <;> rfl

theorem falling_powerFail (s : State) : (falling s).backup.powerFail = s.power.shutdown := by
  unfold falling
  split
  · next on => exact on.symm
  · next off => exact (Bool.eq_false_iff.mpr off).symm

theorem falling_stepped {s : State} (h : s.power.shutdown = true) :
    (falling s).backup.fluxStepped = (s.backup.fluxStepped || s.lines.any fun e => offZero e.2) := by
  have some : decide (0 < (s.lines.filter fun e => offZero e.2).length) = s.lines.any fun e => offZero e.2 := by
    rw [Bool.eq_iff_iff, decide_eq_true_iff, List.length_pos_iff_exists_mem, List.any_eq_true]
    exact exists_congr fun e => List.mem_filter
  have eq : falling s = setBackup (backupStepped (s.lines.filter fun e => offZero e.2).length) (finalFeeds s) := if_pos h
  calc (falling s).backup.fluxStepped = ((finalFeeds s).backup.fluxStepped || decide (0 < (s.lines.filter fun e => offZero e.2).length)) := by rw [eq]; rfl
    _ = _ := by rw [(finalFeeds_quiet s).backup, some]

theorem falling_unstepped {s : State} (h : s.power.shutdown = false) : (falling s).backup.fluxStepped = s.backup.fluxStepped := by
  have eq : falling s = setBackup (fun b => { b with powerFail := false }) s := if_neg (by rw [h]; exact Bool.false_ne_true)
  rw [eq]
  rfl

theorem busBelow10V2_falls {s : State} (bus : s.power.busLow = false) :
    ∃ t, exec .busBelow10V2 s = .next t ∧ t.power.busLow = true ∧ t.power.phase = .held ∧ t.power.domOn = domainMask 254 2 ∧
      (∀ l, (getLine t l).connected = false ∧ (getLine t l).codeNow = 0 ∧ (getLine t l).curb = (getLine s l).curb ∧
        (getLine t l).safe = (getLine s l).safe) ∧
      t.backup.powerFail = s.power.shutdown ∧
      (s.power.shutdown = true → t.backup.fluxStepped = (s.backup.fluxStepped || s.lines.any fun e => offZero e.2)) ∧
      (s.power.shutdown = false → t.backup.fluxStepped = s.backup.fluxStepped) ∧
      t.persist = keptPersist s.persist ∧ t.pending = s.pending ∧
      Changes [.pending, .power, .backup, .persist, .lines, .feeds, .tally, .freeCtr] State.reset t := by
  have eq : (if s.power.busLow then s else busFalls s) = busFallen (falling s).power (falling s) :=
    (if_neg (by rw [bus]; exact Bool.false_ne_true)).trans (busFalls_eq s)
  have kept := falling_changes s
  refine ⟨_, congrArg Host.Outcome.next eq, rfl, rfl, rfl, fun l => ?_, falling_powerFail s, falling_stepped, falling_unstepped,
    congrArg keptPersist kept.persist, kept.pending, ?_⟩
  · have line : getLine (busFallen (falling s).power (falling s)) l = openedLine (getLine s l) := by
      rw [getLine_openedLines (falling s) l rfl, kept.getLine l]
    rw [line]
    exact ⟨rfl, rfl, rfl, rfl⟩
  · exact ((plainModule_frame openedLine (falling s)).mono (by decide)).trans
      ⟨fun p h => by cases p <;> first | rfl | exact Bool.noConfusion h⟩

/-! ## Power-on (R622, R626, R652) -/

/-- The module at a power-on, before the record of a lost backup domain. -/
def poweredOn (w : ResetWorld) (s : State) : State :=
  { plainModule openedLine s with
    backup := backupAt .powerOn w.backupValid s.backup
    power := { straps := w.straps, ga := w.ga, domOn := alwaysOn, fanTray := s.power.fanTray }
    tc := { refSrc := if strapClock w.straps = 3 then 0 else strapClock w.straps } }

/-- The record of a backup domain that was lost. -/
def backupNoted (valid : Bool) (s : State) : State := if valid then s else record 0x3D63 8 0 0 0 s

theorem backupNoted_changes (valid : Bool) (s : State) : Changes [.funcs] s (backupNoted valid s) :=
  Changes.ite (fun _ => Changes.refl _ s) fun _ => record_changes _ _ _ _ _ _ (by decide) (Changes.refl _ s)

theorem resetModule_powerOn (w : ResetWorld) (s : State) : resetModule .powerOn w s = backupNoted w.backupValid (poweredOn w s) := by
  cases h : w.backupValid <;> simp only [resetModule, backupNoted, poweredOn, h] <;> rfl

theorem restartFeeds_quiet (s : State) : Changes [.feeds] s (restartFeeds s) := restartFeeds_changes _ (by decide) (Changes.refl _ s)

theorem getFeed_restartFeeds (n : StallId) (s : State) : getFeed (restartFeeds s) n.val = restartFeed (getFeed s n.val) := by
  unfold restartFeeds
  exact (forEach_keyed (fun s (n : StallId) => getFeed s n.val) (fun n s => modFeed n.val restartFeed s) (fun _ => restartFeed) (fun _ => True)
    (fun _ _ _ => trivial) (fun _ _ _ => getFeed_modFeed ..) (fun _ _ _ _ other => getFeed_modFeed_other (fun e => other (Fin.ext e).symm) _ _)
    _ (List.nodup_finRange 8) s trivial n).trans (if_pos (List.mem_finRange n))

theorem powerOnReset_resets (s : State) (w : ResetWorld) :
    ∃ t, exec (.powerOnReset w) s = .next t ∧
      t.power = { straps := w.straps, ga := w.ga, domOn := alwaysOn, fanTray := s.power.fanTray } ∧
      (w.backupValid = false → t.backup = {} ∧ noted t 0 0x3D63 = true) ∧
      (w.backupValid = true → t.backup = { s.backup with lost := false, lastCause := 1, resetCount := satInc s.backup.resetCount }) ∧
      (∀ l, (getLine t l).connected = false ∧ (getLine t l).codeNow = 0 ∧ (getLine t l).curb = (getLine s l).curb ∧
        (getLine t l).safe = (getLine s l).safe) ∧
      (∀ n : StallId, getFeed t n.val = { gen := (getFeed s n.val).gen + 1 }) ∧ t.tally = s.tally ∧ t.persist = keptPersist s.persist ∧
      t.pending = s.pending ∧
      Changes [.pending, .funcs, .power, .backup, .persist, .lines, .tc, .feeds, .tally, .freeCtr] State.reset t := by
  have noting := backupNoted_changes w.backupValid (poweredOn w s)
  have feeding := restartFeeds_quiet (backupNoted w.backupValid (poweredOn w s))
  refine ⟨_, congrArg (fun u => Host.Outcome.next (restartFeeds u)) (resetModule_powerOn w s), feeding.power.trans noting.power, fun lost => ⟨?_, ?_⟩,
    fun valid => ?_, fun l => ?_, fun n => ?_, feeding.tally.trans noting.tally, feeding.persist.trans noting.persist,
    feeding.pending.trans noting.pending, ?_⟩
  · rw [feeding.backup, noting.backup, poweredOn, lost]
    rfl
  · rw [feeding.noted]
    exact (congrArg (noted · 0 0x3D63) (if_neg (by rw [lost]; exact Bool.false_ne_true))).trans (noted_record ..)
  · rw [feeding.backup, noting.backup, poweredOn, valid, backupAt, if_neg (by decide)]
    simp only [ne_eq, not_true_eq_false, decide_false, Bool.and_false]
    rfl
  · have line : getLine (poweredOn w s) l = openedLine (getLine s l) := getLine_openedLines s l rfl
    rw [feeding.getLine l, noting.getLine l, line]
    exact ⟨rfl, rfl, rfl, rfl⟩
  · rw [getFeed_restartFeeds, noting.getFeed n.val]
    rfl
  · have plain : Changes [.power, .backup, .tc] (plainModule openedLine s) (poweredOn w s) :=
      ⟨fun p h => by cases p <;> first | rfl | exact Bool.noConfusion h⟩
    exact ((((plainModule_frame openedLine s).mono (by decide)).trans (plain.mono (by decide))).trans (noting.mono (by decide))).trans
      (feeding.mono (by decide))

/-! ## Resets with the bus in range (R622 to R624, R635) -/

/-- The module after a reset that finds the bus in range. -/
def resetWithin (cause : ResetCause) (w : ResetWorld) (s : State) : State :=
  { plainModule heldLine s with
    backup := { s.backup with lastCause := causeNum cause, resetCount := satInc s.backup.resetCount }
    power := { straps := w.straps, ga := w.ga, domOn := alwaysOn ||| (s.power.domOn &&& bootDomains), fanTray := s.power.fanTray }
    tc := { refSrc := if strapClock w.straps = 3 then 0 else strapClock w.straps } }

theorem resetModule_within {cause : ResetCause} (h : cause ≠ .powerOn) (w : ResetWorld) (s : State) : resetModule cause w s = resetWithin cause w s := by
  have backup : backupAt cause w.backupValid s.backup = { s.backup with lastCause := causeNum cause, resetCount := satInc s.backup.resetCount } := by
    simp only [backupAt, h, false_and, if_false, ne_eq, not_false_eq_true, decide_true, Bool.and_true]
  unfold resetModule
  rw [backup]
  simp only [h, false_and, if_false]
  rfl

theorem moduleResetTo_resetModule {cause : ResetCause} (h : cause ≠ .powerOn) (w : ResetWorld) (s : State) :
    moduleResetTo cause w s (resetModule cause w s) := by
  rw [resetModule_within h]
  refine ⟨rfl, rfl, rfl, rfl, rfl, rfl, rfl, fun l => ?_, ?_⟩
  · have line : getLine (resetWithin cause w s) l = heldLine (getLine s l) := getLine_heldLines s l rfl
    rw [line]
    exact heldLine_effect _
  · have plain : Changes [.power, .backup, .tc] (plainModule heldLine s) (resetWithin cause w s) :=
      ⟨fun p h => by cases p <;> first | rfl | exact Bool.noConfusion h⟩
    exact ((plainModule_frame heldLine s).mono (by decide)).trans (plain.mono (by decide))

theorem inRange_of_bus {s : State} (bus : s.power.busLow = false) (eff : State → State) : inRange s eff = eff s :=
  if_neg (by rw [bus]; exact Bool.false_ne_true)

theorem brownOutReset_resets {s : State} (bus : s.power.busLow = false) (w : ResetWorld) :
    ∃ t, exec (.brownOutReset w) s = .next t ∧ moduleResetTo .brownOut w s t :=
  ⟨_, congrArg Host.Outcome.next (inRange_of_bus bus _), moduleResetTo_resetModule (by decide) w s⟩

theorem watchdog_resets {s : State} (bus : s.power.busLow = false) (w : ResetWorld) :
    ∃ t, exec (.watchdog w) s = .next t ∧ moduleResetTo .watchdog w s t :=
  ⟨_, congrArg Host.Outcome.next (inRange_of_bus bus _), moduleResetTo_resetModule (by decide) w s⟩

/-! ## PERST# (R623) -/

theorem perst_of_taken {width : Fine} (long : perstTaken ≤ width) (w : ResetWorld) (s : State) :
    exec (.perst width w) s = .next (inRange s (perstAccepted w)) := by
  have heard : ¬ width < perstIgnored := Nat.not_lt.mpr (Nat.le_trans (by decide : perstIgnored ≤ perstTaken) long)
  have eq : (if width < perstIgnored then s else inRange s fun s =>
      if perstTaken ≤ width then perstAccepted w s else if Config.perstAccepts s.freeCtr then perstAccepted w (freshen s) else freshen s) =
      inRange s (perstAccepted w) := by
    rw [if_neg heard]
    simp only [long, if_true]
  exact congrArg Host.Outcome.next eq

theorem perst_between {s : State} (bus : s.power.busLow = false) {width : Fine} (heard : perstIgnored ≤ width) (short : width < perstTaken) (w : ResetWorld) :
    exec (.perst width w) s = if Config.perstAccepts s.freeCtr then exec (.perst perstTaken w) (freshen s) else .next (freshen s) := by
  have eq : (if width < perstIgnored then s else inRange s fun s =>
      if perstTaken ≤ width then perstAccepted w s else if Config.perstAccepts s.freeCtr then perstAccepted w (freshen s) else freshen s) =
      if Config.perstAccepts s.freeCtr then perstAccepted w (freshen s) else freshen s := by
    rw [if_neg (Nat.not_lt.mpr heard), inRange_of_bus bus, if_neg (Nat.not_le.mpr short)]
  have taken : exec (.perst perstTaken w) (freshen s) = .next (perstAccepted w (freshen s)) := by
    rw [perst_of_taken (Nat.le_refl _), inRange_of_bus (s := freshen s) bus]
  refine (congrArg Host.Outcome.next eq).trans ?_
  rw [taken]
  split <;> rfl

theorem perst_resets {s : State} (bus : s.power.busLow = false) {width : Fine} (long : perstTaken ≤ width) (module_ : s.persist.perstScope = false)
    (w : ResetWorld) : ∃ t, exec (.perst width w) s = .next t ∧ moduleResetTo .perst w s t := by
  have eq : perstAccepted w s = resetModule .perst w s := if_neg (by rw [module_]; exact Bool.false_ne_true)
  refine ⟨_, (perst_of_taken long w s).trans (congrArg Host.Outcome.next ((inRange_of_bus bus _).trans eq)), moduleResetTo_resetModule (by decide) w s⟩

theorem perst_host {s : State} (bus : s.power.busLow = false) {width : Fine} (long : perstTaken ≤ width) (host : s.persist.perstScope = true)
    (w : ResetWorld) : exec (.perst width w) s = exec .hotReset s := by
  have eq : perstAccepted w s = resetHost s := if_pos host
  have hot : exec .hotReset s = .next (inRange s resetHost) := rfl
  rw [perst_of_taken long, hot, inRange_of_bus bus, inRange_of_bus bus, eq]

/-! ## The reset of HOST alone (R624) -/

/-- The module with its HOST block at reset, before the record of a lost link. -/
def hostCleared (s : State) : State :=
  { s with
    funcs := s.funcs.map fun e => (e.1, hostOnlyFunc e.2)
    irqs := s.irqs.map fun e => (e.1, { e.2 with parked := false })
    host := { s.host with width := 0, speed := 0, downs := if decide (s.host.width ≠ 0) then satInc s.host.downs else s.host.downs } }

/-- The record of a link that was lost. -/
def linkLost (was : Bool) (s : State) : State := if was then record 0x3F01 8 0 0 0 s else s

theorem linkLost_changes (was : Bool) (s : State) : Changes [.funcs] s (linkLost was s) :=
  Changes.ite (fun _ => record_changes _ _ _ _ _ _ (by decide) (Changes.refl _ s)) fun _ => Changes.refl _ s

theorem resetHost_eq (s : State) : resetHost s = linkLost (decide (s.host.width ≠ 0)) (hostCleared s) := rfl

theorem hostCleared_changes (s : State) : Changes [.host, .funcs, .irqs] s (hostCleared s) :=
  ⟨fun p h => by cases p <;> first | rfl | exact Bool.noConfusion h⟩

/-- What a function's configuration is after a reset of HOST. -/
def FuncPlain (h : HostFunc) : Prop := h.msix = [] ∧ h.enabled = false ∧ h.lastCode = 0 ∧ h.d3hot = false

theorem funcPlain_hostCleared (s : State) (f : Func) : FuncPlain (getFunc (hostCleared s) f) := by
  have eq : getFunc (hostCleared s) f = hostOnlyFunc (getFunc s f) := tabGet_mapped ({} : HostFunc) hostOnlyFunc rfl s.funcs f.val
  rw [eq]
  exact ⟨rfl, rfl, rfl, rfl⟩

/-- An entry of a log leaves the configuration of every function. -/
theorem FuncPlain.logInto {s : State} {g : Func} (h : FuncPlain (getFunc s g)) (f : Func) (code : Code) (owner : Owner) (stall : Nat)
    (object aux : Word) (func : BitVec 8) (src : LogSource) : FuncPlain (getFunc (logInto f code owner stall object aux func src s) g) := by
  by_cases e : f = g
  · subst e
    simp only [Machine.logInto, getFunc_modFunc]
    split <;> exact h
  · rw [getFunc_logInto_ne e]
    exact h

theorem FuncPlain.linkLost {s : State} {g : Func} (h : FuncPlain (getFunc s g)) (was : Bool) : FuncPlain (getFunc (linkLost was s) g) := by
  unfold Machine.linkLost record
  split
  · dsimp only
    split
    · exact (h.logInto ..).logInto ..
    · exact h.logInto ..
  · exact h

theorem hotReset_resets {s : State} (bus : s.power.busLow = false) :
    ∃ t, exec .hotReset s = .next t ∧ t.host.width = 0 ∧ t.host.speed = 0 ∧ (s.host.width ≠ 0 → t.host.downs = satInc s.host.downs) ∧
      (∀ f, (getFunc t f).msix = [] ∧ (getFunc t f).enabled = false ∧ (getFunc t f).lastCode = 0 ∧ (getFunc t f).d3hot = false) ∧
      Changes [.host, .funcs, .irqs] s t := by
  have lost := linkLost_changes (decide (s.host.width ≠ 0)) (hostCleared s)
  refine ⟨_, congrArg Host.Outcome.next ((inRange_of_bus bus resetHost).trans (resetHost_eq s)), ?_, ?_, fun trained => ?_,
    fun f => (funcPlain_hostCleared s f).linkLost _, (hostCleared_changes s).trans (lost.mono (by decide))⟩
  · rw [lost.host]
    rfl
  · rw [lost.host]
    rfl
  · rw [lost.host]
    exact if_pos (decide_eq_true trained)

theorem linkTrained_trains {s : State} (bus : s.power.busLow = false) (width speed : BitVec 4) :
    ∃ t, exec (.linkTrained width speed) s = .next t ∧ t.host = { s.host with width := width, speed := speed } ∧ Changes [.host] s t :=
  ⟨_, congrArg Host.Outcome.next (inRange_of_bus bus _), rfl, setHost_changes _ _ (by decide) (Changes.refl _ s)⟩

/-! ## MODULE_RESET (R634, Table 16-8) -/

theorem powerOp_changes_power (g : OpStatus → OpStatus) (s : State) : Changes [.power] s (powerOp g s) := powerOp_changes _ _ (by decide) (Changes.refl _ s)

/-- A power command that is refused stands in the log and in the operation status, and changes nothing else. -/
theorem powerCommand_refused {s : State} {f : Func} (admitted : admitsSpine s f (.power .cmd) = true) {code : State → Option Code} {c : Code}
    (refused : code s = some c) (eff : State → State) : (getFunc (powerCommand f code eff s) f).lastCode = c ∧ noted (powerCommand f code eff s) 0 c = true ∧
      (powerCommand f code eff s).power = { s.power with op := opRefuse c s.power.op } ∧ Changes [.funcs, .power] s (powerCommand f code eff s) := by
  rw [show powerCommand f code eff s = refuseReg f (.power .cmd) c (powerOp (opRefuse c) s) from spineCommand_of_code admitted powerOp refused eff]
  have quiet := refuseReg_changes_funcs f (.power .cmd) c (powerOp (opRefuse c) s)
  exact ⟨lastCode_refuseReg .., noted_refuseReg .., quiet.power, ((powerOp_changes_power _ s).mono (by decide)).trans (quiet.mono (by decide))⟩

theorem powerCode_of_key {key : BitVec 16} (h : key ≠ 0x5A17) (fwWrite : Bool) (s : State) : powerCode key fwWrite s = some 0x1D60 := if_pos h

theorem moduleReset_resets {s : State} {f : Func} {key : BitVec 16} (w : ResetWorld) (admitted : admitsSpine s f (.power .cmd) = true)
    (permitted : powerCode key false s = none) : ∃ t, exec (.moduleReset f key w) s = .next t ∧ moduleResetTo .moduleReset w s t :=
  ⟨_, congrArg Host.Outcome.next (spineCommand_of_admits admitted powerOp permitted (resetModule .moduleReset w)), moduleResetTo_resetModule (by decide) w s⟩

/-- Settles O54: each reset through what the plain module keeps of the state. That PERST# between 5 and 20 µs is resolved by a free value is log entry
167, that a backup domain that is not valid starts again is log entry 126, and what a hot reset counts and records is log entry 131: the model's. -/
theorem resetsKeepWhatOutlivesThem : Obligations.ResetsKeepWhatOutlivesThem := by
  unfold Obligations.ResetsKeepWhatOutlivesThem
  refine ⟨supplyFailure_fails, supplyInService_serves, fun s up bus => supplyAcFailure_shuts up bus, fun s bus => busBelow10V2_falls bus, powerOnReset_resets,
    fun s w bus => ⟨brownOutReset_resets bus w, watchdog_resets bus w, fun width heard short => perst_between bus heard short w,
      fun width long => ⟨fun scope => perst_resets bus long scope w, fun scope => perst_host bus long scope w⟩, hotReset_resets bus,
      linkTrained_trains bus⟩,
    fun s w width short => ⟨_, congrArg Host.Outcome.next (if_pos short), rfl⟩,
    fun s f key w admitted => ⟨moduleReset_resets w admitted, fun wrong => ⟨_, rfl, ?_⟩⟩⟩
  exact powerCommand_refused admitted (powerCode_of_key wrong false s) _

end Sys2Proof.Machine
end

section
/-!
PROOFS. Boot's steps, faults of power domains and the fan tray (O55).
-/

namespace Sys2Proof.Machine

set_option Elab.async false

open Sys2Proof

/-! ## Boot steps 1 and 2 (R630, R639, R641) -/

theorem record_funcs (code : Code) (stall : Nat) (owner : Owner) (object aux : Word) (s : State) :
    Changes [.funcs] s (record code stall owner object aux s) := record_changes _ _ _ _ _ _ (by decide) (Changes.refl _ s)

/-- What the loads of boot step 2 leave of the register file: the bank and the keys. -/
def SameBankKeys (s t : State) : Prop := t.persist.fwBank = s.persist.fwBank ∧ t.persist.keys = s.persist.keys

theorem SameBankKeys.of_changes {P : List Part} {s t : State} (h : Changes P s t) (hp : P.contains .persist = false := by decide) : SameBankKeys s t :=
  ⟨congrArg Persist.fwBank (h.persist hp), congrArg Persist.keys (h.persist hp)⟩

theorem SameBankKeys.trans {s t u : State} (h : SameBankKeys s t) (k : SameBankKeys t u) : SameBankKeys s u := ⟨k.1.trans h.1, k.2.trans h.2⟩

/-- The register file with the flux values of a line as they were found. -/
def fluxFound (l : LineId) (x : FluxPersist) (s : State) : State :=
  modLine l (takeFlux (fluxPick x)) (setPersist (fun p => { p with flux := tabSet p.flux (lineKey l) x }) s)

theorem recordLine_funcs (code : Code) (l : LineId) (s : State) : Changes [.funcs] s (recordLine code l s) :=
  recordLine_changes _ _ _ (by decide) (Changes.refl _ s)

theorem checkFlux_keeps (l : LineId) (failA failB : Bool) (s : State) : SameBankKeys s (checkFlux l failA failB s) := by
  have found (x : FluxPersist) : SameBankKeys s (fluxFound l x s) := ⟨rfl, rfl⟩
  unfold checkFlux
  dsimp only
  split
  · exact found _
  · exact (found _).trans (.of_changes (recordLine_funcs ..))
  · exact (found _).trans (.of_changes (recordLine_funcs ..))

theorem checkAllFlux_keeps (found : BootFound) (s : State) : SameBankKeys s (checkAllFlux found s) := by
  unfold checkAllFlux
  exact forEach_keep _ (SameBankKeys s) (fun l u hu => hu.trans (checkFlux_keeps ..)) _ s ⟨rfl, rfl⟩

theorem listenDomains_quiet (s : State) : Changes [.domains] s (listenDomains s) := listenDomains_changes _ (by decide) (Changes.refl _ s)

/-- The key store as boot step 2 finds it, before the mirrors of the floors follow. -/
def keysFound (found : BootFound) (s : State) : State :=
  let s := setPersist (fun p => { p with keyA := { p.keyA with ok := p.keyA.ok && found.keyA }, keyB := { p.keyB with ok := p.keyB.ok && found.keyB } }) s
  match keyPick s.persist with
  | none => record 0x3D66 8 0 0 0 (setPersist (fun p => { storeKeys (rebuiltKeys s.persist s.backup) p with keyRebuilt := true }) s)
  | some c =>
    let s := setPersist (fun p => { p with keys := c.keys }) s
    if s.persist.keyA.ok && s.persist.keyB.ok then s else record 0x0D62 8 0 0 0 s

theorem checkKeys_eq (found : BootFound) (s : State) : checkKeys found s =
    setBackup (fun b => { b with floorHerd := (keysFound found s).persist.keys.floorHerd, floorStall := (keysFound found s).persist.keys.floorStall })
      (keysFound found s) := rfl

theorem keysFound_bank (found : BootFound) (s : State) : (keysFound found s).persist.fwBank = s.persist.fwBank := by
  unfold keysFound
  dsimp only
  split
  · exact (congrArg Persist.fwBank (record_funcs ..).persist).trans rfl
  · split
    · rfl
    · exact (congrArg Persist.fwBank (record_funcs ..).persist).trans rfl

/-- The state after the checks of the banks, of the register file and of its keys. -/
def keysChecked (found : BootFound) (s : State) : State :=
  checkKeys found (persistErrors found.corrected
    (min ((if found.keyA then 0 else 1) + (if found.keyB then 0 else 1) + found.fluxA.length + found.fluxB.length) found.doubles)
    (checkBanks found (setPower (fun p => { p with domOn := p.domOn ||| bootDomains }) s)))

theorem bootToStep3_eq (found : BootFound) (s : State) : bootToStep3 found s =
    setPower (fun p => { p with phase := .boot 3, cmd := some .boot, op := { state := .busy, progress := 150 }, partialValid := true, stallsUp := 0 })
      (listenDomains (checkAllFlux found (keysChecked found s))) := rfl

theorem recordDoubles_bank (k : Nat) (s : State) : Changes [.funcs] s (recordDoubles k s) := recordDoubles_changes _ _ (by decide) (Changes.refl _ s)

theorem persistErrors_bank (corrected doubles : Nat) (s : State) : (persistErrors corrected doubles s).persist.fwBank = s.persist.fwBank :=
  (congrArg Persist.fwBank (recordDoubles_bank ..).persist).trans rfl

theorem bank_keysChecked (found : BootFound) (s : State) : (keysChecked found s).persist.fwBank =
    (checkBanks found (setPower (fun p => { p with domOn := p.domOn ||| bootDomains }) s)).persist.fwBank := by
  unfold keysChecked
  rw [checkKeys_eq]
  exact (keysFound_bank ..).trans (persistErrors_bank ..)

theorem power_keysChecked (found : BootFound) (s : State) : (keysChecked found s).power =
    (checkBanks found (setPower (fun p => { p with domOn := p.domOn ||| bootDomains }) s)).power :=
  (checkKeys_changes (P := [.funcs, .backup, .persist]) _ _ (by decide) (Changes.refl _ _)).power.trans
    (persistErrors_changes (P := [.funcs, .persist]) _ _ _ (by decide) (Changes.refl _ _)).power

/-- Banks that both check out leave the bank in use and the module out of recovery. -/
theorem checkBanks_good {found : BootFound} {s : State} (h0 : found.bank0 = true) (h1 : found.bank1 = true)
    (straps : bits s.power.straps 0 2 ≠ (3 : BitVec 2)) : checkBanks found s = s := by
  unfold checkBanks
  dsimp only
  rw [if_neg straps, if_pos]
  rw [h0, h1]
  cases s.persist.fwBank <;> rfl

/-- With no bank that checks out the module is in recovery. -/
theorem checkBanks_bad {found : BootFound} (h0 : found.bank0 = false) (h1 : found.bank1 = false) (s : State) :
    checkBanks found s = setPower (fun p => { p with recovery := true }) s := by
  unfold checkBanks
  dsimp only
  simp only [h0, h1, ite_self, Bool.false_eq_true, if_false]

/-- The checks of the banks leave every power domain as it is. -/
theorem domOn_checkBanks (found : BootFound) (s : State) : (checkBanks found s).power.domOn = s.power.domOn := by
  have noted (u : State) : (record 0x3D65 8 0 0 0 u).power.domOn = u.power.domOn := congrArg Power.domOn (record_funcs ..).power
  exact iteInduction (motive := fun u : State => u.power.domOn = s.power.domOn) (fun _ => rfl) fun _ =>
    iteInduction (motive := fun u : State => u.power.domOn = s.power.domOn) (fun _ => rfl) fun _ =>
      iteInduction (motive := fun u : State => u.power.domOn = s.power.domOn) (fun _ => noted _) fun _ => rfl

theorem floors_checkKeys (found : BootFound) (s : State) : (checkKeys found s).backup.floorHerd = (checkKeys found s).persist.keys.floorHerd ∧
    (checkKeys found s).backup.floorStall = (checkKeys found s).persist.keys.floorStall := by
  rw [checkKeys_eq]
  exact ⟨rfl, rfl⟩

theorem bootStart_boots {s : State} (bus : s.power.busLow = false) (held : s.power.phase = .held) (found : BootFound) :
    ∃ t, exec (.bootStart found) s = .next t ∧ t.power.phase = .boot 3 ∧ t.power.cmd = some .boot ∧ t.power.op.state = .busy ∧
      t.power.domOn = s.power.domOn ||| bootDomains ∧ t.power.stallsUp = 0 ∧
      (found.bank0 = true → found.bank1 = true → bits s.power.straps 0 2 ≠ (3 : BitVec 2) →
        t.persist.fwBank = s.persist.fwBank ∧ t.power.recovery = s.power.recovery) ∧
      (found.bank0 = false → found.bank1 = false → t.power.recovery = true) ∧
      t.backup.floorHerd = t.persist.keys.floorHerd ∧ t.backup.floorStall = t.persist.keys.floorStall ∧
      Changes [.funcs, .power, .backup, .persist, .lines, .domains] s t := by
  have eq : inRange s (fun s => if s.power.phase = .held then bootToStep3 found s else s) = bootToStep3 found s :=
    (inRange_of_bus bus _).trans (if_pos held)
  have frame : Changes [.funcs, .power, .backup, .persist, .lines, .domains] s (bootToStep3 found s) := bootToStep3_changes _ _ (by decide) (Changes.refl _ s)
  have listen := listenDomains_quiet (checkAllFlux found (keysChecked found s))
  have flux : Changes [.funcs, .persist, .lines] (keysChecked found s) (checkAllFlux found (keysChecked found s)) :=
    checkAllFlux_changes _ _ (by decide) (Changes.refl _ _)
  have banks := (listen.power.trans flux.power).trans (power_keysChecked found s)
  obtain ⟨bank, keys⟩ := checkAllFlux_keeps found (keysChecked found s)
  rw [← listen.persist] at bank keys
  have backup := listen.backup.trans flux.backup
  obtain ⟨herd, stall⟩ : (keysChecked found s).backup.floorHerd = (keysChecked found s).persist.keys.floorHerd ∧
      (keysChecked found s).backup.floorStall = (keysChecked found s).persist.keys.floorStall := floors_checkKeys ..
  rw [bank_keysChecked] at bank
  rw [bootToStep3_eq] at eq frame
  generalize listenDomains (checkAllFlux found (keysChecked found s)) = u at eq frame banks bank keys backup
  refine ⟨_, congrArg Host.Outcome.next eq, rfl, rfl, rfl, ?_, rfl, fun h0 h1 straps => ⟨?_, ?_⟩, fun h0 h1 => ?_, ?_, ?_, frame⟩
  · exact (congrArg Power.domOn banks).trans (domOn_checkBanks ..)
  · exact bank.trans (congrArg (·.persist.fwBank) (checkBanks_good (s := setPower (fun p => { p with domOn := p.domOn ||| bootDomains }) s) h0 h1 straps))
  · exact (congrArg Power.recovery banks).trans (congrArg (·.power.recovery) (checkBanks_good (s := setPower (fun p => { p with domOn := p.domOn ||| bootDomains }) s) h0 h1 straps))
  · exact (congrArg Power.recovery banks).trans (congrArg (·.power.recovery) (checkBanks_bad h0 h1 _))
  · exact (congrArg Backup.floorHerd backup).trans (herd.trans (congrArg KeyStore.floorHerd keys.symm))
  · exact (congrArg Backup.floorStall backup).trans (stall.trans (congrArg KeyStore.floorStall keys.symm))

theorem bootStart_other {s : State} (bus : s.power.busLow = false) (up : s.power.phase ≠ .held) (found : BootFound) :
    ∃ t, exec (.bootStart found) s = .next t ∧ t = s :=
  ⟨_, congrArg Host.Outcome.next ((inRange_of_bus bus _).trans (if_neg up)), rfl⟩

/-! ## Boot steps 3 to 5 (R556, R629, R631) -/

theorem connected_connectLine (x : Line) : (connectLine x).connected = true := by
  unfold connectLine
  split
  · assumption
  · dsimp only
    split
    · unfold restBad
      split <;> rfl
    · exact (setGoal_leaves _ _).2.2.2.2.1

theorem mem_allLines (l : LineId) : l ∈ allLines :=
  List.mem_flatMap.mpr ⟨l.stall, List.mem_finRange _, (mem_stallLines _ l).mpr rfl⟩

theorem nodup_allLines : allLines.Nodup := by
  refine List.nodup_flatMap.mpr ⟨fun n _ => nodup_stallLines n, (List.nodup_finRange 8).imp fun {n m} apart l hn hm => ?_⟩
  exact apart (((mem_stallLines n l).mp hn).symm.trans ((mem_stallLines m l).mp hm))

/-- Every flux line is connected, at step 3 of boot. -/
def connectLines (s : State) : State := forEach allLines (fun l s => modLine l connectLine s) s

theorem connectLines_changes (s : State) : Changes [.lines] s (connectLines s) := by
  unfold connectLines
  exact forEach_changes _ _ _ (fun l u hu => modLine_changes _ _ _ (by decide) hu) (Changes.refl _ s)

theorem connected_connectLines (s : State) (l : LineId) : (getLine (connectLines s) l).connected = true := by
  have each := forEach_keyed getLine (fun l s => modLine l connectLine s) (fun _ => connectLine) (fun _ => True) (fun _ _ _ => trivial)
    (fun _ _ _ => getLine_modLine ..) (fun _ _ _ _ other => getLine_modLine_other (Ne.symm other) _ _) allLines nodup_allLines s trivial l
  rw [connectLines, each, if_pos (mem_allLines l)]
  exact connected_connectLine _

/-- The epoch starts at 0 with the reference that has locked, and the lines are connected. -/
def referenced (src : BitVec 2) (s : State) : State :=
  connectLines (setTime (fun t => { t with refSrc := if clockMode s ≠ 3 then clockMode s else if src = 0 then 0 else 2 })
    (setClock (fun c => { c with sched := 0, running := true }) s))

theorem referenced_changes (src : BitVec 2) (s : State) : Changes [.clock, .lines, .tc] s (referenced src s) :=
  (setTime_changes _ _ (by decide) (setClock_changes _ _ (by decide) (Changes.refl _ s))).trans ((connectLines_changes _).mono (by decide))

theorem clock_referenced (src : BitVec 2) (s : State) : (referenced src s).clock = { s.clock with sched := 0, running := true } :=
  (connectLines_changes _).clock

/-- What boot does once the reference has locked: the herd image from the flash, or step 6. -/
def afterReference (bring : Tab PowerUpFound) (u : State) : State :=
  if bootsFromFlash u && !u.power.recovery then
    let v := setPower (fun p => { p with phase := .boot 5, op := { p.op with progress := 350 } }) u
    if v.tack.run.isNone then startFlashHerd v else v
  else bootStep6 bring u

theorem bootFromStep3_eq (src : BitVec 2) (bring : Tab PowerUpFound) (s : State) :
    bootFromStep3 src bring s = afterReference bring (referenced src s) := by
  unfold bootFromStep3 referenced connectLines afterReference
  rfl

theorem afterReference_loads {u : State} (flash : bootsFromFlash u = true) (sound : u.power.recovery = false) (idle : u.tack.run = none)
    (bring : Tab PowerUpFound) : afterReference bring u =
      startFlashHerd (setPower (fun p => { p with phase := .boot 5, op := { p.op with progress := 350 } }) u) := by
  unfold afterReference
  rw [flash, sound]
  exact (if_pos rfl).trans (if_pos (congrArg Option.isNone idle))

/-- The end of a boot without a herd image (R631). -/
def booted (s : State) : State :=
  record 0x0D60 8 0 0 0 (setPower (fun p => { p with phase := .running, cmd := none, op := opDone 0x0D60, partialValid := p.fwWriting.isSome })
    (setPower (fun p => { p with bringing := none }) (setPower (fun p => { p with phase := .boot 6, op := { p.op with progress := 500 } }) s)))

theorem bootStep6_bare {s : State} (image : s.herdImage = none) (bring : Tab PowerUpFound) : bootStep6 bring s = raise 0x804 (booted s) := by
  unfold bootStep6
  dsimp only
  rw [if_neg (by rw [show (setPower (fun p => { p with phase := .boot 6, op := { p.op with progress := 500 } }) s).herdImage = none from image]
                 exact Bool.false_ne_true)]
  rfl

theorem afterReference_bare {u : State} (flash : bootsFromFlash u = false) (image : u.herdImage = none) (bring : Tab PowerUpFound) :
    afterReference bring u = raise 0x804 (booted u) := by
  unfold afterReference
  rw [flash, Bool.false_and, if_neg Bool.false_ne_true]
  exact bootStep6_bare image bring

/-- Where the module boots from is set by its straps. -/
theorem bootsFromFlash_of_power {s u : State} (h : u.power = s.power) : bootsFromFlash u = bootsFromFlash s := by
  unfold bootsFromFlash
  rw [h]

theorem booted_changes (s : State) : Changes [.funcs, .power] s (booted s) :=
  record_changes _ _ _ _ _ _ (by decide) (setPower_changes _ _ (by decide) (setPower_changes _ _ (by decide)
    (setPower_changes _ _ (by decide) (Changes.refl _ s))))

section
variable {s : State} (step3 : s.power.phase = .boot 3) (src : BitVec 2) (bring : Tab PowerUpFound)
include step3

theorem referenceLocked_boots (flash : bootsFromFlash s = false) (image : s.herdImage = none) :
    ∃ t, exec (.referenceLocked src bring) s = .next t ∧ t.power.phase = .running ∧ t.power.cmd = none ∧ t.power.op = opDone 0x0D60 ∧
      t.clock.sched = 0 ∧ t.clock.running = true ∧ (∀ l, (getLine t l).connected = true) ∧ noted t 0 0x0D60 = true ∧
      Changes [.clock, .funcs, .irqs, .power, .lines, .tc] s t := by
  have start := referenced_changes src s
  have eq : (if s.power.phase = .boot 3 then bootFromStep3 src bring s else s) = raise 0x804 (booted (referenced src s)) :=
    (if_pos step3).trans ((bootFromStep3_eq src bring s).trans
      (afterReference_bare ((bootsFromFlash_of_power start.power).trans flash) (start.herdImage.trans image) bring))
  have done := booted_changes (referenced src s)
  have told := raise_quiet 0x804 (booted (referenced src s))
  have power : (booted (referenced src s)).power = _ := (record_funcs 0x0D60 8 0 0 0 _).power
  have clock := (told.clock.trans done.clock).trans (clock_referenced src s)
  refine ⟨_, congrArg Host.Outcome.next eq, ?_, ?_, ?_, ?_, ?_, fun l => ?_, ?_, ?_⟩
  · rw [told.power, power]
    rfl
  · rw [told.power, power]
    rfl
  · rw [told.power, power]
    rfl
  · rw [clock]
  · rw [clock]
  · rw [told.getLine l, done.getLine l]
    exact connected_connectLines _ l
  · rw [noted_raise]
    exact noted_record ..
  · exact ((start.mono (by decide)).trans (done.mono (by decide))).trans (told.mono (by decide))

theorem referenceLocked_loads (flash : bootsFromFlash s = true) (sound : s.power.recovery = false) (idle : s.tack.run = none) :
    ∃ t, exec (.referenceLocked src bring) s = .next t ∧ t.power.phase = .boot 5 ∧ t.tack.run = some .loadHerd ∧ t.tack.flash = true ∧
      t.tack.phase = 1 ∧ t.clock.running = true ∧ Changes [.clock, .power, .tack, .lines, .tc] s t := by
  obtain ⟨u, start, running, from_⟩ : ∃ u, Changes [.clock, .lines, .tc] s u ∧ u.clock.running = true ∧ bootFromStep3 src bring s = afterReference bring u :=
    ⟨_, referenced_changes src s, congrArg Clock.running (clock_referenced src s), bootFromStep3_eq src bring s⟩
  have eq : (if s.power.phase = .boot 3 then bootFromStep3 src bring s else s) =
      startFlashHerd (setPower (fun p => { p with phase := .boot 5, op := { p.op with progress := 350 } }) u) :=
    (if_pos step3).trans (from_.trans
      (afterReference_loads ((bootsFromFlash_of_power start.power).trans flash) ((congrArg Power.recovery start.power).trans sound)
        ((congrArg Tack.run start.tack).trans idle) bring))
  exact ⟨_, congrArg Host.Outcome.next eq, rfl, rfl, rfl, rfl, running,
    startFlashHerd_changes _ (by decide) (setPower_changes _ _ (by decide) (start.mono (by decide)))⟩

theorem referenceLockTimeout_notes (mode : clockMode s ≠ 3) :
    ∃ t, exec .referenceLockTimeout s = .next t ∧ noted t 0 0x2D61 = true ∧ Changes [.funcs] s t :=
  ⟨_, congrArg Host.Outcome.next (if_pos ⟨step3, mode⟩), noted_record .., record_funcs ..⟩

end

/-! ## Faults of power domains (R621) -/

/-- A domain that has faulted, before its fault has effect. -/
def domainDown (d stall : Nat) (s : State) : State :=
  record 0x3D67 stall 0 0 0 (setPower (fun p => { dropDomains d 1 s.clock.now p with domFault := p.domFault ||| domainMask d 1 }) s)

theorem domainDown_changes (d stall : Nat) (s : State) : Changes [.funcs, .power] s (domainDown d stall s) :=
  record_changes _ _ _ _ _ _ (by decide) (setPower_changes _ _ (by decide) (Changes.refl _ s))

theorem power_domainDown (d stall : Nat) (s : State) :
    (domainDown d stall s).power = { dropDomains d 1 s.clock.now s.power with domFault := s.power.domFault ||| domainMask d 1 } :=
  (record_funcs 0x3D67 stall 0 0 0 _).power

theorem noted_domainDown (d stall : Nat) (s : State) : noted (domainDown d stall s) 0 0x3D67 = true := noted_record ..

/-- The mask of one domain holds its bit. -/
theorem bit_domainMask {d : Nat} (h : d < 256) : bit (domainMask d 1) d = true := by
  unfold bit domainMask
  rw [BitVec.getLsbD_ofNat, decide_eq_true h, Bool.true_and, show (2 ^ 1 - 1) * 2 ^ d = 2 ^ d by omega, Nat.testBit_two_pow_self]

theorem bit_dropDomains {d : Nat} (h : d < 256) (now : Fine) (p : Power) : bit (dropDomains d 1 now p).domOn d = false := by
  have mask := bit_domainMask h
  unfold bit at mask ⊢
  simp only [dropDomains, BitVec.getLsbD_and, BitVec.getLsbD_not, mask, Bool.not_true, Bool.and_false]

theorem waits_dropDomains (d : Nat) (now : Fine) (p : Power) : (dropDomains d 1 now p).switchOn.contains d = false := by
  rw [Bool.eq_false_iff, ne_eq, List.contains_iff_mem]
  intro listed
  have passes := (List.mem_filter.mp (show d ∈ p.switchOn.filter fun e => decide (e < d) || decide (d + 1 ≤ e) from listed)).2
  simp at passes

section
variable {s : State} {d : Nat} (on : (bit s.power.domOn d || s.power.switchOn.contains d) = true) (bring : Tab PowerUpFound)
include on

theorem domainFault_shared (h : 240 ≤ d) (small : d < 256) :
    domainFault d bring s = if 244 ≤ d ∧ d < 250 then fatalAll (domainDown d 8 s) else domainDown d 8 s := by
  have none_ : fin? 8 (d / 30) = none := dif_neg (by omega)
  unfold domainFault
  rw [if_pos on, none_, if_neg (by omega)]
  rfl

theorem domainFault_stall (n : StallId) (k : Nat) (at_ : d = 30 * n.val + k) (h : k < 30) :
    domainFault d bring s = stallDomainFault n k bring (domainDown d n.val s) := by
  have div : d / 30 = n.val := by omega
  have mod : d % 30 = k := by omega
  have inStall : d < 240 := by omega
  unfold domainFault
  dsimp only
  rw [if_pos on, if_pos inStall, div, mod, fin?_val]
  rfl

end

/-- The output switch of every line of a stall opens. -/
def openSwitches (n : StallId) (s : State) : State := forEach (stallLines n) (fun l s => modLine l openSwitch s) s

theorem stallDomainFault_keep (n : StallId) (bring : Tab PowerUpFound) (s : State) : stallDomainFault n 0 bring s = openSwitches n s := if_pos rfl

theorem openSwitches_changes (n : StallId) (s : State) : Changes [.lines] s (openSwitches n s) := by
  unfold openSwitches
  exact forEach_changes _ _ _ (fun l u hu => modLine_changes _ _ _ (by decide) hu) (Changes.refl _ _)

theorem getLine_openSwitches (n : StallId) (s : State) (l : LineId) :
    getLine (openSwitches n s) l = if l.stall = n then openSwitch (getLine s l) else getLine s l := by
  have each := forEach_keyed getLine (fun l s => modLine l openSwitch s) (fun _ => openSwitch) (fun _ => True) (fun _ _ _ => trivial)
    (fun _ _ _ => getLine_modLine ..) (fun _ _ _ _ other => getLine_modLine_other (Ne.symm other) _ _) (stallLines n) (nodup_stallLines n) s trivial l
  rw [openSwitches, each]
  simp only [mem_stallLines]

section
variable {s : State} {d : BitVec 8} (on : (bit s.power.domOn d.toNat || s.power.switchOn.contains d.toNat) = true) (bring : Tab PowerUpFound)
include on

theorem powerDomainFault_shared (h : 240 ≤ d.toNat) :
    ∃ t, exec (.powerDomainFault d bring) s = .next t ∧ t.power = { dropDomains d.toNat 1 s.clock.now s.power with
        domFault := s.power.domFault ||| domainMask d.toNat 1 } ∧ bit t.power.domOn d.toNat = false ∧
      t.power.switchOn.contains d.toNat = false ∧
      (¬ (244 ≤ d.toNat ∧ d.toNat < 250) → noted t 0 0x3D67 = true ∧ Changes [.funcs, .power] s t) ∧
      (244 ≤ d.toNat → d.toNat < 250 → ∀ n, lifeOf n s = .riding → lifeOf n t = .resting) := by
  have eq := domainFault_shared on bring h d.isLt
  have down := domainDown_changes d.toNat 8 s
  have power : (if 244 ≤ d.toNat ∧ d.toNat < 250 then fatalAll (domainDown d.toNat 8 s) else domainDown d.toNat 8 s).power =
      { dropDomains d.toNat 1 s.clock.now s.power with domFault := s.power.domFault ||| domainMask d.toNat 1 } := by
    split
    · exact (fatalAll_quiet _).power.trans (power_domainDown ..)
    · exact power_domainDown ..
  refine ⟨_, congrArg Host.Outcome.next eq, power, ?_, ?_, fun apart => ?_, fun low high n rides => ?_⟩
  · rw [power]
    exact bit_dropDomains d.isLt s.clock.now s.power
  · rw [power]
    exact waits_dropDomains d.toNat s.clock.now s.power
  · rw [if_neg apart]
    exact ⟨noted_domainDown .., down⟩
  · rw [if_pos ⟨low, high⟩]
    exact lifeOf_fatalAll ((congrArg StallCtl.life (down.getStall n)).trans rides)

theorem powerDomainFault_keep {n : StallId} (h : d.toNat = 30 * n.val) :
    ∃ t, exec (.powerDomainFault d bring) s = .next t ∧
      (∀ l, l.stall = n → (getLine t l).connected = false ∧ (getLine t l).codeNow = 0 ∧ (getLine t l).genMode = 0) ∧
      (∀ l, l.stall ≠ n → getLine t l = getLine s l) ∧ noted t 0 0x3D67 = true ∧ Changes [.funcs, .power, .lines] s t := by
  have eq := (domainFault_stall on bring n 0 h (by decide)).trans (stallDomainFault_keep ..)
  have down := domainDown_changes d.toNat n.val s
  have known := noted_domainDown d.toNat n.val s
  generalize domainDown d.toNat n.val s = u at eq down known
  have opened := openSwitches_changes n u
  refine ⟨_, congrArg Host.Outcome.next eq, fun l own => ?_, fun l other => ?_, (opened.noted 0 0x3D67).trans known,
    (down.mono (by decide)).trans (opened.mono (by decide))⟩
  · rw [getLine_openSwitches, if_pos own]
    exact ⟨rfl, rfl, rfl⟩
  · rw [getLine_openSwitches, if_neg other, down.getLine l]

theorem powerDomainFault_group {g : GroupId} (h : d.toNat = 30 * g.stall.val + 21 + g.num.val) :
    ∃ t, exec (.powerDomainFault d bring) s = .next t ∧ (getGroup t g).faulted = true ∧ (getGroup t g).cause = 2 ∧
      (∀ h, h ≠ g → getGroup t h = getGroup s h) ∧ Changes [.funcs, .power, .riders, .lines, .fasts, .groups] s t := by
  have down := domainDown_changes d.toNat g.stall.val s
  have eq : domainFault d.toNat bring s = groupFault g 2 (domainDown d.toNat g.stall.val s) := by
    rw [domainFault_stall on bring g.stall (21 + g.num.val) (by omega) (by omega)]
    unfold stallDomainFault
    rw [if_neg (by omega), if_neg (by omega), if_neg (by omega), show 21 + g.num.val - 21 = g.num.val by omega, fin?_val]
  have fault := groupFault_effect g 2 (domainDown d.toNat g.stall.val s)
  exact ⟨_, congrArg Host.Outcome.next eq, fault.stands, fault.because, fun k other => (fault.others k other).trans (down.getGroup k),
    (down.mono (by decide)).trans (fault.changes.mono (by decide))⟩

end

theorem powerDomainFault_off {s : State} {d : BitVec 8} (off : (bit s.power.domOn d.toNat || s.power.switchOn.contains d.toNat) = false)
    (bring : Tab PowerUpFound) : ∃ t, exec (.powerDomainFault d bring) s = .next t ∧ t = s :=
  ⟨_, congrArg Host.Outcome.next (if_neg (by rw [off]; exact Bool.false_ne_true)), rfl⟩

/-! ## The fan tray (R684) -/

section
variable {s : State}

theorem fanTrayRemoved_notes (tray : hasTray s = true) (fitted : s.power.fanTray = true) :
    ∃ t, exec .fanTrayRemoved s = .next t ∧ t.power = { s.power with fanTray := false } ∧ noted t 0 0x3D68 = true ∧ Changes [.funcs, .power] s t :=
  ⟨_, congrArg Host.Outcome.next (if_pos ⟨tray, fitted⟩), (record_funcs ..).power, noted_record ..,
    record_changes _ _ _ _ _ _ (by decide) (setPower_changes _ _ (by decide) (Changes.refl _ s))⟩

theorem fanTrayFitted_notes (tray : hasTray s = true) (out : s.power.fanTray = false) :
    ∃ t, exec .fanTrayFitted s = .next t ∧ t.power = { s.power with fanTray := true } ∧ noted t 0 0x0D64 = true ∧ Changes [.funcs, .power] s t :=
  ⟨_, congrArg Host.Outcome.next (if_pos ⟨tray, by rw [out]; rfl⟩), (record_funcs ..).power, noted_record ..,
    record_changes _ _ _ _ _ _ (by decide) (setPower_changes _ _ (by decide) (Changes.refl _ s))⟩

theorem fanTray_none (bare : hasTray s = false) :
    (∃ t, exec .fanTrayRemoved s = .next t ∧ t = s) ∧ (∃ t, exec .fanTrayFitted s = .next t ∧ t = s) :=
  ⟨⟨_, congrArg Host.Outcome.next (if_neg fun h => Bool.false_ne_true (bare.symm.trans h.1)), rfl⟩,
    ⟨_, congrArg Host.Outcome.next (if_neg fun h => Bool.false_ne_true (bare.symm.trans h.1)), rfl⟩⟩

end

/-- Settles O55: each command of boot and of the power domains through the lemma of its branch. That a fault of a domain without power changes nothing,
and that a keep domain's fault opens the switches at code 0, is the model's reading (log entry 130); what boot finds of the banks is log entry 129. -/
theorem bootRunsItsSteps : Obligations.BootRunsItsSteps := by
  unfold Obligations.BootRunsItsSteps
  exact ⟨fun s found bus => ⟨fun held => bootStart_boots bus held found, fun up => bootStart_other bus up found⟩,
    fun s src bring step3 => ⟨referenceLocked_boots step3 src bring, referenceLocked_loads step3 src bring⟩,
    fun s step3 mode => referenceLockTimeout_notes step3 mode,
    fun s d bring on => ⟨powerDomainFault_shared on bring, fun n => powerDomainFault_keep on bring, fun g => powerDomainFault_group on bring⟩,
    fun s d bring off => powerDomainFault_off off bring,
    fun s => ⟨fun tray => ⟨fanTrayRemoved_notes tray, fanTrayFitted_notes tray⟩, fanTray_none⟩⟩

end Sys2Proof.Machine
end

section
/-!
PROOFS. Firmware and persistent registers: a stall that rests takes its factory values back (O56).
-/

namespace Sys2Proof.Machine

set_option Elab.async false

open Sys2Proof

/-! ## Acceptance of the factory values while a stall rests (R640) -/

/-- A stall that rests, held to its factory values, with a drive slice whose port is enabled and terminated: a rest is no halt, so its voices are still
served. -/
def restingOnFactoryValues : State :=
  { State.reset with
    host := { State.reset.host with width := 8 }
    power := { State.reset.power with phase := .running }
    stalls := [(0, { life := .resting, factoryHold := true })]
    slices := [(0, { portEn := true })] }

/-- Refutes O56: its clause of ACCEPT_FACTORY sets RIDING and OFF alone aside and says that no slice changes, but in RESTING without a halt the voices
are still served, and the hold's end lets the enabled port of a slice open. (ACCEPT_FACTORY ending done with code 0 is log entry 128.) -/
theorem not_persistentRegistersAndFirmware : ¬ Obligations.PersistentRegistersAndFirmware := by
  intro h
  obtain ⟨commands, -⟩ := h
  obtain ⟨-, accepts, -⟩ := commands restingOnFactoryValues 0 0x5A17 (by decide +kernel)
  obtain ⟨t, answer, -, -, -, -, -, -, frame⟩ := accepts 0 (by decide +kernel) (by decide +kernel) (by decide +kernel) rfl
  have accepted : powerCommand 0 (powerCode 0x5A17 false) (acceptFactory 0) restingOnFactoryValues = t := Host.Outcome.next.inj answer
  have held := congrArg Slice.port (frame.getSlice ⟨0, .drive, 0⟩)
  rw [← accepted] at held
  exact absurd held (by decide +kernel)

end Sys2Proof.Machine
end

section
/-!
PROOFS. The Tally: its feeds, its seal, its checks and its mirror (O57).
-/

namespace Sys2Proof.Machine

set_option Elab.async false

open Sys2Proof

/-! ## What a message finds (R649, R650) -/

/-- A transmitter is heard: its bit stands, and its return is logged. -/
def heard (k : FeedId) (s : State) : State :=
  let u := setTally (fun t => { t with feed := t.feed ||| feedMask k }) s
  if !bit s.tally.feed (feedBit k) then tallyLog 0x11 (feedSource k) 0 u else u

/-- The Tally as a transmitter that is heard leaves it, its log apart. -/
theorem heard_tally (k : FeedId) (s : State) : ∃ log logCount, (heard k s).tally = { s.tally with feed := s.tally.feed ||| feedMask k, log, logCount } := by
  unfold heard
  dsimp only
  split
  · exact ⟨_, _, rfl⟩
  · exact ⟨_, _, rfl⟩

theorem heard_changes (k : FeedId) (s : State) : Changes [.tally] s (heard k s) :=
  Changes.ite (fun _ => tallyLog_changes _ _ _ _ (by decide) (setTally_changes _ _ (by decide) (Changes.refl _ s)))
    fun _ => setTally_changes _ _ (by decide) (Changes.refl _ s)

theorem counting_heard {k : FeedId} {s : State} (counts : s.tally.state ≠ .fault) : counting (heard k s).tally = true := by
  obtain ⟨log, logCount, eq⟩ := heard_tally k s
  rw [eq]
  exact decide_eq_true counts

theorem takeMessage_stall {m : FeedIn} {n : StallId} {s : State} (from_ : m.from_ = .stall n) (counts : s.tally.state ≠ .fault) :
    takeMessage m s = setTally (takeTotals n (getFeed s n.val).gen (getFeed s n.val).sentFrame (getFeed s n.val).sent) (heard (.stall n) s) := by
  obtain ⟨from_, intact, serial, energy⟩ := m
  subst from_
  have eq : takeMessage { from_ := .stall n, intact, serial, energy } s = if counting (heard (.stall n) s).tally then
      (let f := getFeed (heard (.stall n) s) n.val; setTally (takeTotals n f.gen f.sentFrame f.sent) (heard (.stall n) s)) else heard (.stall n) s := rfl
  rw [eq, if_pos (counting_heard counts), (heard_changes (.stall n) s).getFeed]

/-- An inlet's supply, with another serial number logged. -/
def supplyHeard (two : Bool) (serial : Nat) (s : State) : State :=
  let u := heard (.inlet two) s
  if supplySerial u.tally two = serial then u else tallyLog 0x12 (feedSource (.inlet two)) (BitVec.ofNat 32 serial) u

theorem takeMessage_inlet {m : FeedIn} {two : Bool} {s : State} (from_ : m.from_ = .inlet two) (counts : s.tally.state ≠ .fault) :
    takeMessage m s = setTally (takeEnergy two m.serial m.energy) (supplyHeard two m.serial s) := by
  obtain ⟨from_, intact, serial, energy⟩ := m
  subst from_
  have eq : takeMessage { from_ := .inlet two, intact, serial, energy } s = if counting (heard (.inlet two) s).tally then
      setTally (takeEnergy two serial energy) (supplyHeard two serial s) else heard (.inlet two) s := rfl
  rw [eq, if_pos (counting_heard counts)]

theorem supplySerial_heard (k : FeedId) (two : Bool) (s : State) : supplySerial (heard k s).tally two = supplySerial s.tally two := by
  obtain ⟨log, logCount, eq⟩ := heard_tally k s
  rw [eq]
  rfl

/-! ## Totals (R649) -/

/-- Totals enter the owners' counters as a loop over what they have gained. -/
theorem owners_takeTotals {n : StallId} {gen : Nat} {old : Tab Counts} {t : Tally}
    (last : ∀ g o, tabFind n.val t.last = some (g, o) → old = if g = gen then o else []) (first : tabFind n.val t.last = none → old = [])
    (frame : Nat) (totals : Tab Counts) : (takeTotals n gen frame totals t).owners =
      (gained totals old).foldl (fun acc e => tabMod {} acc e.1 (addCounts · e.2)) t.owners := by
  cases found : tabFind n.val t.last with
  | none =>
    rw [first found]
    simp only [takeTotals, found]
  | some last_ =>
    obtain ⟨g, o⟩ := last_
    rw [last g o found]
    simp only [takeTotals, found, decide_eq_true_eq]

theorem tabFind_gained_none {totals : Tab Counts} {o : Nat} (h : tabFind o totals = none) (old : Tab Counts) : tabFind o (gained totals old) = none := by
  unfold gained
  rw [tabFind_foldl_tabSet, h]
  exact if_neg fun k => Bool.false_ne_true k.2

theorem feedMessage_stall {s : State} {m : FeedIn} {n : StallId} {old : Tab Counts} (intact : m.intact = true) (from_ : m.from_ = .stall n)
    (counts : s.tally.state ≠ .fault) (last : ∀ g o, tabFind n.val s.tally.last = some (g, o) → old = if g = (getFeed s n.val).gen then o else [])
    (first : tabFind n.val s.tally.last = none → old = []) :
    ∃ t, exec (.feedMessage m) s = .next t ∧ bit t.tally.feed n.val = true ∧
      (∀ o : Nat, o < 15 → (tabFind o (getFeed s n.val).sent).isSome = true →
        tabGet {} t.tally.owners o =
          addCounts (tabGet {} s.tally.owners o) (subCounts (tabGet {} (getFeed s n.val).sent o) (tabGet {} old o))) ∧
      (∀ o : Nat, tabFind o (getFeed s n.val).sent = none → tabGet {} t.tally.owners o = tabGet {} s.tally.owners o) ∧
      tabFind n.val t.tally.last = some ((getFeed s n.val).gen, (getFeed s n.val).sent) ∧
      tabGet 0 t.tally.frames n.val = (getFeed s n.val).sentFrame ∧ Changes [.tally] s t := by
  have eq : (if m.intact then takeMessage m s else s) = _ := (if_pos intact).trans (takeMessage_stall from_ counts)
  obtain ⟨log, logCount, tally⟩ := heard_tally (.stall n) s
  have changes := heard_changes (.stall n) s
  generalize heard (.stall n) s = u at eq tally changes
  have owners : (takeTotals n (getFeed s n.val).gen (getFeed s n.val).sentFrame (getFeed s n.val).sent u.tally).owners =
      (gained (getFeed s n.val).sent old).foldl (fun acc e => tabMod {} acc e.1 (addCounts · e.2)) s.tally.owners := by
    rw [owners_takeTotals (old := old) (by rw [tally]; exact last) (by rw [tally]; exact first), tally]
  refine ⟨_, congrArg Host.Outcome.next eq, ?_, fun o owner listed => ?_, fun o unlisted => ?_, takeTotals_last .., ?_,
    setTally_changes _ _ (by decide) changes⟩
  · have feed : u.tally.feed = s.tally.feed ||| feedMask (.stall n) := congrArg Tally.feed tally
    exact (congrArg (bit · n.val) feed).trans (bit_or_feedMask s.tally.feed (.stall n))
  · exact (congrArg (tabGet {} · o) owners).trans
      (tabGet_foldl_tabMod_of_some {} (fun c x => addCounts x c) (gained_sorted ..) (tabFind_gained owner listed old) s.tally.owners)
  · exact (congrArg (tabGet {} · o) owners).trans
      (tabGet_foldl_tabMod_of_none {} (fun c x => addCounts x c) (tabFind_gained_none unlisted old) s.tally.owners)
  · exact tabGet_tabSet ..

/-! ## Energy (R655) -/

theorem supplySerial_takeEnergy (two : Bool) (serial energy : Nat) (t : Tally) : supplySerial (takeEnergy two serial energy t) two = serial := by
  cases two
  · by_cases h : t.supplySerial1 = serial
    · simp [supplySerial, takeEnergy, h]
    · simp [supplySerial, takeEnergy, h]
  · by_cases h : t.supplySerial2 = serial
    · simp [supplySerial, takeEnergy, h]
    · simp [supplySerial, takeEnergy, h]

/-- Another supply gives a new base and no energy. -/
theorem takeEnergy_other {two : Bool} {serial : Nat} {t : Tally} (h : supplySerial t two ≠ serial) (energy : Nat) :
    (takeEnergy two serial energy t).eIn1 = t.eIn1 ∧ (takeEnergy two serial energy t).eIn2 = t.eIn2 ∧ (takeEnergy two serial energy t).log = t.log := by
  cases two
  · have apart : t.supplySerial1 ≠ serial := h
    simp [takeEnergy, apart]
  · have apart : t.supplySerial2 ≠ serial := h
    simp [takeEnergy, apart]

/-- The same supply adds what its register has gained. -/
theorem takeEnergy_same {two : Bool} {serial : Nat} {t : Tally} (h : supplySerial t two = serial) (energy : Nat) :
    (if two then (takeEnergy two serial energy t).eIn2 = t.eIn2 + (energy - t.supplyBase2) ∧ (takeEnergy two serial energy t).eIn1 = t.eIn1
      else (takeEnergy two serial energy t).eIn1 = t.eIn1 + (energy - t.supplyBase1) ∧ (takeEnergy two serial energy t).eIn2 = t.eIn2) := by
  cases two
  · have same : t.supplySerial1 = serial := h
    simp [takeEnergy, same]
  · have same : t.supplySerial2 = serial := h
    simp [takeEnergy, same]

theorem owners_takeEnergy (two : Bool) (serial energy : Nat) (t : Tally) : (takeEnergy two serial energy t).owners = t.owners := by
  unfold takeEnergy
  split
  · split <;> rfl
  · split <;> rfl

section
variable {s : State} {m : FeedIn} {two : Bool} (intact : m.intact = true) (from_ : m.from_ = .inlet two) (counts : s.tally.state ≠ .fault)
include intact from_ counts

theorem feedMessage_otherSupply (other : supplySerial s.tally two ≠ m.serial) :
    ∃ t, exec (.feedMessage m) s = .next t ∧ supplySerial t.tally two = m.serial ∧ t.tally.eIn1 = s.tally.eIn1 ∧
      t.tally.eIn2 = s.tally.eIn2 ∧ (t.tally.log.head?).any (fun e => e.kind = 0x12) = true ∧ Changes [.tally] s t := by
  have eq : (if m.intact then takeMessage m s else s) = _ := (if_pos intact).trans (takeMessage_inlet from_ counts)
  have before : supplySerial (heard (.inlet two) s).tally two ≠ m.serial := by
    rw [supplySerial_heard]
    exact other
  have supply : supplyHeard two m.serial s = tallyLog 0x12 (feedSource (.inlet two)) (BitVec.ofNat 32 m.serial) (heard (.inlet two) s) := if_neg before
  rw [supply] at eq
  obtain ⟨log, logCount, tally⟩ := heard_tally (.inlet two) s
  have changes := heard_changes (.inlet two) s
  generalize heard (.inlet two) s = u at eq tally before changes
  have sums : u.tally.eIn1 = s.tally.eIn1 ∧ u.tally.eIn2 = s.tally.eIn2 := by
    rw [tally]
    exact ⟨rfl, rfl⟩
  obtain ⟨first, second, logged⟩ := takeEnergy_other (two := two) (serial := m.serial)
    (t := (tallyLog 0x12 (feedSource (.inlet two)) (BitVec.ofNat 32 m.serial) u).tally) before m.energy
  refine ⟨_, congrArg Host.Outcome.next eq, supplySerial_takeEnergy .., first.trans sums.1, second.trans sums.2, ?_,
    setTally_changes _ _ (by decide) (tallyLog_changes _ _ _ _ (by decide) changes)⟩
  rw [setTally_tally, logged, tallyLog_log_head?]
  rfl

theorem feedMessage_sameSupply (same : supplySerial s.tally two = m.serial) :
    ∃ t, exec (.feedMessage m) s = .next t ∧ supplySerial t.tally two = m.serial ∧
      (if two then t.tally.eIn2 = s.tally.eIn2 + (m.energy - s.tally.supplyBase2) ∧ t.tally.eIn1 = s.tally.eIn1
        else t.tally.eIn1 = s.tally.eIn1 + (m.energy - s.tally.supplyBase1) ∧ t.tally.eIn2 = s.tally.eIn2) ∧
      t.tally.owners = s.tally.owners ∧ Changes [.tally] s t := by
  have eq : (if m.intact then takeMessage m s else s) = _ := (if_pos intact).trans (takeMessage_inlet from_ counts)
  have before : supplySerial (heard (.inlet two) s).tally two = m.serial := (supplySerial_heard ..).trans same
  have supply : supplyHeard two m.serial s = heard (.inlet two) s := if_pos before
  rw [supply] at eq
  obtain ⟨log, logCount, tally⟩ := heard_tally (.inlet two) s
  have changes := heard_changes (.inlet two) s
  generalize heard (.inlet two) s = u at eq tally before changes
  have energy := takeEnergy_same before m.energy
  have sums : u.tally.eIn1 = s.tally.eIn1 ∧ u.tally.eIn2 = s.tally.eIn2 ∧ u.tally.supplyBase1 = s.tally.supplyBase1 ∧
      u.tally.supplyBase2 = s.tally.supplyBase2 ∧ u.tally.owners = s.tally.owners := by
    rw [tally]
    exact ⟨rfl, rfl, rfl, rfl, rfl⟩
  obtain ⟨first, second, base1, base2, owners⟩ := sums
  rw [first, second, base1, base2] at energy
  exact ⟨_, congrArg Host.Outcome.next eq, supplySerial_takeEnergy .., energy, (owners_takeEnergy ..).trans owners,
    setTally_changes _ _ (by decide) changes⟩

end

/-! ## Feeds -/

theorem feedSend_sends (s : State) (n : StallId) :
    ∃ t, exec (.feedSend (.stall n)) s = .next t ∧
      getFeed t n.val = { getFeed s n.val with sent := (getFeed s n.val).totals, sentFrame := s.clock.sched / fineFrame } ∧
      (∀ m : Nat, m ≠ n.val → getFeed t m = getFeed s m) ∧ Changes [.feeds] s t :=
  ⟨_, rfl, getFeed_modFeed .., fun _ other => getFeed_modFeed_other other _ _, modFeed_changes _ _ _ (by decide) (Changes.refl _ s)⟩

theorem feedTimeout_silent {s : State} {k : FeedId} (stands : bit s.tally.feed (feedBit k) = true) :
    ∃ t, exec (.feedTimeout k) s = .next t ∧ t.tally.feed = s.tally.feed &&& ~~~(feedMask k) ∧
      (t.tally.log.head?).any (fun e => e.kind = 0x10 && e.source = feedSource k) = true ∧ t.tally.owners = s.tally.owners ∧
      Changes [.tally] s t := by
  refine ⟨_, congrArg Host.Outcome.next (if_pos stands), rfl, ?_, rfl, tallyLog_changes _ _ _ _ (by decide) (setTally_changes _ _ (by decide) (Changes.refl _ s))⟩
  rw [tallyLog_log_head?]
  simp

/-! ## The seal (R658, Table 17-3) -/

theorem sealOpened_opens {s : State} (sealed : s.tally.state = .closed ∨ s.tally.state = .unbound) :
    ∃ t, exec .sealOpened s = .next t ∧ t.tally.state = .opened ∧ t.tally.opens = satInc s.tally.opens ∧
      (t.tally.log.head?).any (fun e => e.kind = 0x01) = true ∧ Changes [.tally] s t := by
  have eq : sealOpen s = tallyLog 0x01 0xFF 0 (setTally (fun t => { t with state := .opened, opens := satInc t.opens }) s) := by
    unfold sealOpen
    obtain closed | unbound := sealed
    · rw [closed]
    · rw [unbound]
  refine ⟨_, congrArg Host.Outcome.next eq, rfl, rfl, ?_, tallyLog_changes _ _ _ _ (by decide) (setTally_changes _ _ (by decide) (Changes.refl _ s))⟩
  rw [tallyLog_log_head?]
  rfl

section
variable {s : State} (opened : s.tally.state = .opened)
include opened

theorem sealClosed_closes :
    ∃ t, exec .sealClosed s = .next t ∧ t.tally.state = (if boundSerial s.tally = s.tally.carrier then .closed else .unbound) ∧
      t.tally.opens = s.tally.opens ∧ t.tally.owners = s.tally.owners ∧ Changes [.tally] s t := by
  have enters (x : SealState) (kind : BitVec 8) : Changes [.tally] s (tallyLog kind 0xFF 0 (setSeal x s)) :=
    tallyLog_changes _ _ _ _ (by decide) (setSeal_changes _ _ (by decide) (Changes.refl _ s))
  by_cases bound : boundSerial s.tally = s.tally.carrier
  · have eq : sealClose s = tallyLog 0x02 0xFF 0 (setSeal .closed s) := (if_pos opened).trans (if_pos bound)
    exact ⟨_, congrArg Host.Outcome.next eq, (if_pos bound).symm, rfl, rfl, enters ..⟩
  · have eq : sealClose s = tallyLog 0x05 0xFF 0 (setSeal .unbound s) := (if_pos opened).trans (if_neg bound)
    exact ⟨_, congrArg Host.Outcome.next eq, (if_neg bound).symm, rfl, rfl, enters ..⟩

theorem sealPortConfiguration_written (item : SealItem) :
    ∃ t, exec (.sealPortConfiguration item) s = .next t ∧ t.tally.conf = s.tally.conf ++ [item] ∧
      t.tally.changes = satInc s.tally.changes ∧ t.tally.state = .opened ∧ t.tally.serial = s.tally.serial ∧
      (t.tally.log.head?).any (fun e => e.kind = 0x03) = true ∧ Changes [.tally, .freeCtr] s t := by
  have eq : sealWrite item s = freshen (tallyLog 0x03 0xFF (Config.sealItem s.freeCtr)
      (setTally (fun t => { t with conf := t.conf ++ [item], changes := satInc t.changes }) s)) := if_pos opened
  refine ⟨_, congrArg Host.Outcome.next eq, rfl, rfl, opened, rfl, ?_, ?_⟩
  · have tally (u : State) : (freshen u).tally = u.tally := rfl
    rw [tally, tallyLog_log_head?]
    rfl
  · exact freshen_changes _ (by decide) (tallyLog_changes _ _ _ _ (by decide) (setTally_changes _ _ (by decide) (Changes.refl _ s)))

end

/-! ## The checks of the Tally (R656, R657) -/

/-- A check value that differs leaves the Tally in FAULT, with its counters. -/
theorem badFirmware_faults (check : BitVec 32) (memoryOk : Bool) (s : State) : (badFirmware check memoryOk s).tally.state = .fault ∧
    (badFirmware check memoryOk s).tally.owners = s.tally.owners ∧ Changes [.tally] s (badFirmware check memoryOk s) := by
  refine ⟨?_, ?_, badFirmware_changes _ _ _ (by decide) (Changes.refl _ s)⟩
  · cases memoryOk <;> rfl
  · cases memoryOk <;> rfl

/-- The Tally on its carrier, with its power-on logged. -/
def tallyUp (carrier : Nat) (memoryOk : Bool) (s : State) : State :=
  if memoryOk then tallyLog 0x14 0xFF 0 (setTally (fun t => { t with carrier }) s) else setTally (fun t => { t with carrier }) s

theorem tallyUp_keeps (carrier : Nat) (memoryOk : Bool) (s : State) : (tallyUp carrier memoryOk s).tally.state = s.tally.state ∧
    (tallyUp carrier memoryOk s).tally.fwCheck = s.tally.fwCheck ∧ Changes [.tally] s (tallyUp carrier memoryOk s) := by
  have frame : Changes [.tally] s (tallyUp carrier memoryOk s) :=
    Changes.ite (fun _ => tallyLog_changes _ _ _ _ (by decide) (setTally_changes _ _ (by decide) (Changes.refl _ s)))
      fun _ => setTally_changes _ _ (by decide) (Changes.refl _ s)
  cases memoryOk
  · exact ⟨rfl, rfl, frame⟩
  · exact ⟨rfl, rfl, frame⟩

theorem tallyStarts_eq (carrier : Nat) (check : BitVec 32) (memoryOk : Bool) (s : State) : tallyStarts carrier check memoryOk s =
    (let u := tallyUp carrier memoryOk s
     if u.tally.state = .fault then u
     else if check ≠ u.tally.fwCheck then badFirmware check memoryOk u
     else if !memoryOk then tallyFault false u
     else if u.tally.serial ≠ carrier then tallyLog 0x05 0xFF 0 (setSeal .unbound u)
     else u) := rfl

section
variable {s : State} (carrier : Nat) {check : BitVec 32} (sound : s.tally.state ≠ .fault)
include sound

theorem tallyPowerOn_good (good : check = s.tally.fwCheck) :
    ∃ t, exec (.tallyPowerOn carrier check true) s = .next t ∧ t.tally.carrier = carrier ∧
      t.tally.state = (if s.tally.serial = carrier then s.tally.state else .unbound) ∧ t.tally.owners = s.tally.owners ∧
      Changes [.tally] s t := by
  have frame : Changes [.tally] s (tallyStarts carrier check true s) := tallyStarts_changes _ _ _ _ (by decide) (Changes.refl _ s)
  have up : tallyStarts carrier check true s =
      if s.tally.serial ≠ carrier then tallyLog 0x05 0xFF 0 (setSeal .unbound (tallyUp carrier true s)) else tallyUp carrier true s := by
    rw [tallyStarts_eq]
    exact (if_neg sound).trans ((if_neg fun h => h good).trans (if_neg Bool.false_ne_true))
  by_cases bound : s.tally.serial = carrier
  · have eq := up.trans (if_neg fun h => h bound)
    rw [eq] at frame
    exact ⟨_, congrArg Host.Outcome.next eq, rfl, (if_pos bound).symm, rfl, frame⟩
  · have eq := up.trans (if_pos bound)
    rw [eq] at frame
    exact ⟨_, congrArg Host.Outcome.next eq, rfl, (if_neg bound).symm, rfl, frame⟩

theorem tallyPowerOn_bad (bad : check ≠ s.tally.fwCheck) (memoryOk : Bool) :
    ∃ t, exec (.tallyPowerOn carrier check memoryOk) s = .next t ∧ t.tally.state = .fault ∧ Changes [.tally] s t := by
  obtain ⟨state, fwCheck, changes⟩ := tallyUp_keeps carrier memoryOk s
  have eq : tallyStarts carrier check memoryOk s = badFirmware check memoryOk (tallyUp carrier memoryOk s) := by
    rw [tallyStarts_eq]
    dsimp only
    rw [state, fwCheck, if_neg sound, if_pos bad]
  obtain ⟨fault, -, last⟩ := badFirmware_faults check memoryOk (tallyUp carrier memoryOk s)
  exact ⟨_, congrArg Host.Outcome.next eq, fault, changes.trans last⟩

theorem firmwareCheck_checks (check : BitVec 32) :
    ∃ t, exec (.firmwareCheck check) s = .next t ∧ t.tally.state = (if check = s.tally.fwCheck then s.tally.state else .fault) ∧
      t.tally.owners = s.tally.owners ∧ Changes [.tally] s t := by
  by_cases good : check = s.tally.fwCheck
  · exact ⟨_, congrArg Host.Outcome.next (if_pos (.inr good)), (if_pos good).symm, rfl, Changes.refl _ s⟩
  · obtain ⟨fault, owners, changes⟩ := badFirmware_faults check true s
    exact ⟨_, congrArg Host.Outcome.next (if_neg (not_or_intro sound good)), fault.trans (if_neg good).symm, owners, changes⟩

end

/-! ## The mirror (R662 to R665) -/

/-- What the configuration of the seal port leaves of the Tally. -/
structure ConfKept (t u : Tally) : Prop where
  mirror : u.mirror = t.mirror
  state : u.state = t.state
  owners : completeOwners u = completeOwners t
  eIn1 : u.eIn1 = t.eIn1
  eIn2 : u.eIn2 = t.eIn2
  log : u.log = t.log

theorem applySeal_keeps (c : SealItem) (t : Tally) : ConfKept t (applySeal c t) := by
  cases c with
  | clock x => exact ⟨rfl, rfl, rfl, rfl, rfl, rfl⟩
  | serial n => exact ⟨rfl, rfl, rfl, rfl, rfl, rfl⟩
  | meter two k => cases two <;> exact ⟨rfl, rfl, rfl, rfl, rfl, rfl⟩
  | tenantRead on => exact ⟨rfl, rfl, rfl, rfl, rfl, rfl⟩

theorem ConfKept.trans {t u v : Tally} (h : ConfKept t u) (k : ConfKept u v) : ConfKept t v :=
  ⟨k.mirror.trans h.mirror, k.state.trans h.state, k.owners.trans h.owners, k.eIn1.trans h.eIn1, k.eIn2.trans h.eIn2, k.log.trans h.log⟩

theorem serial_applySeal (c : SealItem) (t : Tally) : (applySeal c t).serial = match c with | .serial n => n | _ => t.serial := by
  cases c with
  | meter two k => cases two <;> rfl
  | _ => rfl

/-- Items of configuration in turn: what they keep, and the serial number that they bind. -/
theorem applySeals_effect (l : List SealItem) (t : Tally) : ConfKept t (l.foldl (fun t c => applySeal c t) t) ∧
    (l.foldl (fun t c => applySeal c t) t).serial = l.foldl (fun acc c => match c with | .serial n => n | _ => acc) t.serial := by
  induction l generalizing t with
  | nil => exact ⟨⟨rfl, rfl, rfl, rfl, rfl, rfl⟩, rfl⟩
  | cons c l ih =>
    obtain ⟨kept, serial⟩ := ih (applySeal c t)
    rw [serial_applySeal] at serial
    exact ⟨(applySeal_keeps c t).trans kept, serial⟩

theorem applyConf_effect (t : Tally) : ConfKept t (applyConf t) ∧ (applyConf t).serial = boundSerial t ∧ (applyConf t).conf = [] := by
  obtain ⟨⟨mirror, state, owners, eIn1, eIn2, log⟩, serial⟩ := applySeals_effect t.conf t
  exact ⟨⟨mirror, state, owners, eIn1, eIn2, log⟩, serial, rfl⟩

/-- The Tally with its mirror rewritten, for a refresh of `n` beats. -/
def mirrored (n : Nat) (t : Tally) : Tally :=
  { applyConf t with mirror := refreshed (applyConf t), refreshLeft := n, recent := (applyConf t).recent.filter fun e => completeFrame (applyConf t) < e.1 }

theorem refreshMirror_tally (s : State) : ∃ n, 1 ≤ n ∧ n ≤ refreshLimit ∧ (refreshMirror s).tally = mirrored n s.tally :=
  ⟨_, Nat.le_max_left .., Nat.max_le.mpr ⟨by decide, Nat.min_le_left ..⟩, rfl⟩

theorem seq_tickRefresh {u : State} (h : u.tally.refreshLeft = 1) : (tickRefresh u).tally.mirror.seq = u.tally.mirror.seq + 1 := by
  unfold tickRefresh
  rw [h]
  rfl

theorem mirrorRefresh_refreshes {s : State} (free : s.tally.refreshLeft = 0) :
    ∃ t, exec .mirrorRefresh s = .next t ∧ t.tally.mirror.seq = s.tally.mirror.seq + 1 ∧ 1 ≤ t.tally.refreshLeft ∧
      t.tally.refreshLeft ≤ refreshLimit ∧
      (∀ u, u.tally = t.tally → t.tally.refreshLeft = 1 → (tickRefresh u).tally.mirror.seq = s.tally.mirror.seq + 2) ∧ t.tally.conf = [] ∧
      t.tally.mirror.state = s.tally.state ∧ t.tally.mirror.owners = completeOwners s.tally ∧ t.tally.mirror.eIn1 = s.tally.eIn1 ∧
      t.tally.mirror.eIn2 = s.tally.eIn2 ∧ t.tally.mirror.eTotal = s.tally.eIn1 + s.tally.eIn2 ∧ t.tally.mirror.log = s.tally.log ∧
      t.tally.serial = boundSerial s.tally ∧ t.host = { s.host with mirrorStale := false } ∧ Changes [.host, .tally, .freeCtr] s t := by
  have frame : Changes [.host, .tally, .freeCtr] s (refreshMirror s) := refreshMirror_changes _ (by decide) (Changes.refl _ s)
  obtain ⟨n, some, within, tally⟩ := refreshMirror_tally s
  obtain ⟨⟨mirror, state, owners, eIn1, eIn2, log⟩, serial, conf⟩ := applyConf_effect s.tally
  have seq : (mirrored n s.tally).mirror.seq = s.tally.mirror.seq + 1 := congrArg (·.seq + 1) mirror
  refine ⟨_, congrArg Host.Outcome.next (if_pos free), ?_⟩
  rw [tally]
  refine ⟨seq, some, within, fun u same last => ?_, conf, state, owners, eIn1, eIn2, congrArg₂ (· + ·) eIn1 eIn2, log, serial, rfl, frame⟩
  rw [seq_tickRefresh ((congrArg Tally.refreshLeft same).trans last), same]
  exact (congrArg (· + 1) seq).trans (BitVec.add_assoc ..)

theorem mirrorStale_notes {s : State} (fresh : s.host.mirrorStale = false) :
    ∃ t, exec .mirrorStale s = .next t ∧ t.host = { s.host with mirrorStale := true } ∧ noted t 0 0x3E01 = true ∧
      Changes [.host, .funcs, .irqs] s t := by
  have eq : mirrorOld s = raise 0x806 (record 0x3E01 8 0 0 0 (setHost (fun h => { h with mirrorStale := true }) s)) :=
    if_neg (by rw [fresh]; exact Bool.false_ne_true)
  refine ⟨_, congrArg Host.Outcome.next eq, (raise_quiet ..).host.trans (record_funcs ..).host, ?_, ?_⟩
  · rw [noted_raise]
    exact noted_record ..
  · exact raise_changes _ _ (by decide) (record_changes _ _ _ _ _ _ (by decide) (setHost_changes _ _ (by decide) (Changes.refl _ s)))

/-- Settles O57: each command of the Tally through the lemma of its branch. That a refresh shows its values at once under an odd TY_SEQ, and that
MIRROR_REFRESH while one runs changes nothing, is the model's reading (log entry 140). -/
theorem theTallyCountsAndSeals : Obligations.TheTallyCountsAndSeals := by
  unfold Obligations.TheTallyCountsAndSeals
  refine ⟨feedSend_sends, fun s m intact => ⟨?_, ?_, ?_⟩, fun s m broken => ?_, fun s k => feedTimeout_silent, fun s => sealOpened_opens,
    fun s opened => ⟨sealClosed_closes opened, sealPortConfiguration_written opened⟩, fun s item sealed => ?_,
    fun s carrier check sound => ⟨tallyPowerOn_good carrier sound, tallyPowerOn_bad carrier sound, firmwareCheck_checks sound check⟩, fun s busy => ?_,
    fun s => mirrorRefresh_refreshes, fun s => mirrorStale_notes, fun s f w reach => ?_⟩
  · exact fun n old => feedMessage_stall intact
  · exact fun two => feedMessage_otherSupply intact
  · exact fun two => feedMessage_sameSupply intact
  · exact ⟨_, congrArg Host.Outcome.next (if_neg (by rw [broken]; exact Bool.false_ne_true)), rfl⟩
  · exact ⟨_, congrArg Host.Outcome.next (if_neg sealed), rfl⟩
  · exact ⟨_, congrArg Host.Outcome.next (if_neg busy), rfl⟩
  · exact ⟨_, congrArg Host.Outcome.next (if_pos reach), lastCode_refuseReg .., noted_refuseReg_own .., noted_refuseReg .., refuseReg_changes_funcs ..⟩

end Sys2Proof.Machine
end

section
/-!
PROOFS. Shot audits: the command and the settle point (O59).
-/

namespace Sys2Proof.Machine

set_option Elab.async false

open Sys2Proof

/-! ## The command (R678) -/

section
variable {s : State} {f : Func} {n : StallId} {val : Word} (admitted : admits s f (.ctl n .shotCmd) = true)
include admitted

theorem shotAuditCmd_starts (accepted : shotAuditCode f n val s = none) :
    ∃ t, exec (.shotAuditCmd f n val) s = .next t ∧
      getShotAudit t n = { getShotAudit s n with op := opStart, ownerScope := bit val 8, index := bits val 0 4 } ∧
      (∀ m, m ≠ n → getShotAudit t m = getShotAudit s m) ∧ Changes [.shotAudits] s t := by
  refine ⟨startShotAudit n val s, congrArg Host.Outcome.next ((hostWrite_of_admits admitted _).trans ?_), getShotAudit_modShotAudit ..,
    fun m other => getShotAudit_modShotAudit_other other _ _, startShotAudit_changes _ _ _ (by decide) (Changes.refl _ s)⟩
  rw [accepted]

/-- An audit that runs refuses another (Table 18-5). -/
theorem shotAuditCmd_busy (busy : (getShotAudit s n).op.state = .busy) :
    ∃ t, exec (.shotAuditCmd f n val) s = .next t ∧ (getFunc t f).lastCode = 0x1706 ∧ noted t 0 0x1706 = true ∧
      getShotAudit t n = { getShotAudit s n with op := opRefuse 0x1706 (getShotAudit s n).op } ∧
      (∀ m, m ≠ n → getShotAudit t m = getShotAudit s m) ∧ Changes [.funcs, .shotAudits] s t := by
  have refused : shotAuditCode f n val s = some 0x1706 := if_pos (.inl busy)
  have quiet := refuseReg_changes_funcs f (.ctl n .shotCmd) 0x1706 (modShotAudit n (fun a => { a with op := opRefuse 0x1706 a.op }) s)
  refine ⟨_, congrArg Host.Outcome.next ((hostWrite_of_admits admitted _).trans ?_), lastCode_refuseReg .., noted_refuseReg ..,
    (quiet.getShotAudit n).trans (getShotAudit_modShotAudit ..), fun m other => (quiet.getShotAudit m).trans (getShotAudit_modShotAudit_other other _ _),
    ((modShotAudit_changes _ _ _ (by decide) (Changes.refl _ s))).trans (quiet.mono (by decide))⟩
  rw [refused]

end

/-! ## The settle point (R669, R670, R677) -/

/-- An audit of one rider reads that rider alone. -/
theorem auditRiders_one {r : RiderId} {index : BitVec 4} (h : r.num.val = index.toNat) (s : State) : auditRiders s r.stall false index = [r] := by
  have picked (k : Fin 16) : (List.finRange 16).filter (fun i => decide (i.val = k.val)) = [k] := by
    revert k
    decide
  obtain ⟨n, k⟩ := r
  unfold auditRiders stallRiders
  rw [← h, List.filter_map]
  exact (congrArg (List.map (RiderId.mk n)) (picked k)).trans rfl

theorem shotTerms_one (s : State) (r : RiderId) : shotTerms s [r] =
    ((getRider s r).started, (getRider s r).completed, (getRider s r).aborted, if (getRider s r).shot.active then 1 else 0) := by
  simp only [shotTerms, List.foldl_cons, List.foldl_nil, zero_add]

/-- The audit with its terms and its end. -/
def settledAudit (t : BitVec 32 × BitVec 32 × BitVec 32 × BitVec 5) (a : ShotAudit) : ShotAudit :=
  { a with
    started := t.1, completed := t.2.1, aborted := t.2.2.1, inProgress := t.2.2.2
    op := if decide (t.1 = t.2.1 + t.2.2.1 + t.2.2.2.zeroExtend 32) then opDone 0 else opEnd .failed 0x3712 a.op }

/-- The record of books that do not balance. -/
def imbalance (good : Bool) (n : StallId) (o : Owner) (object : Word) (s : State) : State := if good then s else record 0x3712 n.val o object 0 s

theorem imbalance_changes (good : Bool) (n : StallId) (o : Owner) (object : Word) (s : State) : Changes [.funcs] s (imbalance good n o object s) :=
  Changes.ite (fun _ => Changes.refl _ s) fun _ => record_funcs ..

/-- What an audit that settles leaves. -/
structure AuditSettled (n : StallId) (t : BitVec 32 × BitVec 32 × BitVec 32 × BitVec 5) (s u : State) : Prop where
  audit : getShotAudit u n = settledAudit t (getShotAudit s n)
  recorded : t.1 ≠ t.2.1 + t.2.2.1 + t.2.2.2.zeroExtend 32 → noted u 0 0x3712 = true
  others : ∀ m, m ≠ n → getShotAudit u m = getShotAudit s m
  frame : Changes [.funcs, .irqs, .shotAudits] s u

theorem shotSettle_settles {s : State} {n : StallId} (busy : (getShotAudit s n).op.state = .busy) :
    AuditSettled n (shotTerms s (auditRiders s n (getShotAudit s n).ownerScope (getShotAudit s n).index)) s (shotSettle n s) := by
  have frame : Changes [.funcs, .irqs, .shotAudits] s (shotSettle n s) := shotSettle_changes _ _ (by decide) (Changes.refl _ s)
  have eq (t) (h : shotTerms s (auditRiders s n (getShotAudit s n).ownerScope (getShotAudit s n).index) = t) : ∃ o object, shotSettle n s =
      raise (stallSource n) (imbalance (decide (t.1 = t.2.1 + t.2.2.1 + t.2.2.2.zeroExtend 32)) n o object (modShotAudit n (settledAudit t) s)) := by
    subst h
    exact ⟨_, _, if_pos busy⟩
  generalize shotTerms s (auditRiders s n (getShotAudit s n).ownerScope (getShotAudit s n).index) = t at eq
  obtain ⟨o, object, settles⟩ := eq t rfl
  have noting := imbalance_changes (decide (t.1 = t.2.1 + t.2.2.1 + t.2.2.2.zeroExtend 32)) n o object (modShotAudit n (settledAudit t) s)
  have told := raise_quiet (stallSource n)
    (imbalance (decide (t.1 = t.2.1 + t.2.2.1 + t.2.2.2.zeroExtend 32)) n o object (modShotAudit n (settledAudit t) s))
  refine ⟨?_, fun unbalanced => ?_, fun m other => ?_, frame⟩
  · rw [settles, told.getShotAudit n, noting.getShotAudit n, getShotAudit_modShotAudit]
  · rw [settles, noted_raise, imbalance, if_neg (by simpa using unbalanced)]
    exact noted_record ..
  · rw [settles, told.getShotAudit m, noting.getShotAudit m, getShotAudit_modShotAudit_other other]

section
variable {s : State} {n : StallId} (busy : (getShotAudit s n).op.state = .busy)
include busy

theorem shotAuditSettlePoint_rider (scope : (getShotAudit s n).ownerScope = false) {r : RiderId} (own : r.stall = n)
    (at_ : r.num.val = (getShotAudit s n).index.toNat) :
    ∃ t, exec (.shotAuditSettlePoint n) s = .next t ∧ (getShotAudit t n).started = (getRider s r).started ∧
      (getShotAudit t n).completed = (getRider s r).completed ∧ (getShotAudit t n).aborted = (getRider s r).aborted ∧
      (getShotAudit t n).inProgress = (if (getRider s r).shot.active then 1 else 0) ∧ Changes [.funcs, .irqs, .shotAudits] s t := by
  subst own
  have settled := shotSettle_settles busy
  rw [scope, auditRiders_one at_, shotTerms_one] at settled
  refine ⟨_, rfl, ?_, ?_, ?_, ?_, settled.frame⟩
  · exact (congrArg ShotAudit.started settled.audit).trans rfl
  · exact (congrArg ShotAudit.completed settled.audit).trans rfl
  · exact (congrArg ShotAudit.aborted settled.audit).trans rfl
  · exact (congrArg ShotAudit.inProgress settled.audit).trans rfl

theorem shotAuditSettlePoint_settles :
    ∃ t, exec (.shotAuditSettlePoint n) s = .next t ∧ (getShotAudit t n).ownerScope = (getShotAudit s n).ownerScope ∧
      ((getShotAudit t n).started =
          (getShotAudit t n).completed + (getShotAudit t n).aborted + (getShotAudit t n).inProgress.zeroExtend 32 →
        (getShotAudit t n).op = opDone 0) ∧
      ((getShotAudit t n).started ≠
          (getShotAudit t n).completed + (getShotAudit t n).aborted + (getShotAudit t n).inProgress.zeroExtend 32 →
        (getShotAudit t n).op.state = .failed ∧ (getShotAudit t n).op.code = 0x3712 ∧ noted t 0 0x3712 = true) ∧
      (∀ m, m ≠ n → getShotAudit t m = getShotAudit s m) ∧ Changes [.funcs, .irqs, .shotAudits] s t := by
  obtain ⟨audit, recorded, others, frame⟩ := shotSettle_settles busy
  refine ⟨_, rfl, ?_, ?_, ?_, others, frame⟩
  · rw [audit]
    rfl
  · rw [audit]
    exact fun balanced => if_pos (decide_eq_true balanced)
  · rw [audit]
    intro unbalanced
    have op : (settledAudit (shotTerms s (auditRiders s n (getShotAudit s n).ownerScope (getShotAudit s n).index)) (getShotAudit s n)).op =
        opEnd .failed 0x3712 (getShotAudit s n).op := if_neg fun e => unbalanced (of_decide_eq_true e)
    rw [op]
    exact ⟨rfl, rfl, recorded unbalanced⟩

end

/-- Settles O59: the command through the gate of its register, and the settle point through the terms of the riders that the audit concerns. -/
theorem shotAuditsBalanceTheirBooks : Obligations.ShotAuditsBalanceTheirBooks := by
  unfold Obligations.ShotAuditsBalanceTheirBooks
  exact ⟨fun s f n val admitted => ⟨shotAuditCmd_starts admitted, shotAuditCmd_busy admitted⟩,
    fun s n busy => ⟨fun scope r own at_ => shotAuditSettlePoint_rider busy scope own at_, shotAuditSettlePoint_settles busy⟩⟩

end Sys2Proof.Machine
end

section
/-!
PROOFS. The host interface: BAR0 writes, the MSI-X table, held messages and configuration requests (O60).
-/

namespace Sys2Proof.Machine

set_option Elab.async false

open Sys2Proof

/-! ## Writes to BAR0 (R690 to R692) -/

section
variable {s : State} {f : Func} (reach : hostReach s f = true)
include reach

/-- An access of a size or an alignment that BAR0 does not take is refused where it falls. -/
theorem refuseSize_effect (a : Nat) : (getFunc (refuseSize f a s) f).lastCode = 0x1F02 ∧ noted (refuseSize f a s) 0 0x1F02 = true ∧
    noted (refuseSize f a s) f 0x1F02 = true ∧ Changes [.funcs] s (refuseSize f a s) := by
  unfold refuseSize
  rw [if_pos reach]
  split
  · exact ⟨lastCode_refuseReg .., noted_refuseReg .., noted_refuseReg_own .., refuseReg_changes_funcs ..⟩
  · obtain ⟨lastCode, -, -, physical, own, changes⟩ := refuseAt_recordsRefusal f a 0x1F02 0 (offsetStall a) 0 (BitVec.ofNat 32 a) s
    exact ⟨lastCode, physical, own, changes⟩

theorem wordWriteAt_reg {a : Nat} {r : Reg} (found : decodeReg a = some r) (val : Word) (env : WriteEnv) :
    wordWriteAt f a val env s = regWrite f r val env s := by
  unfold wordWriteAt
  rw [if_pos reach, found]

theorem wordWriteAt_none {a : Nat} (found : decodeReg a = none) (val : Word) (env : WriteEnv) :
    wordWriteAt f a val env s = .next (refuseAt f false a 0x1F03 0 (offsetStall a) 0 (BitVec.ofNat 32 a) s) := by
  unfold wordWriteAt
  rw [if_pos reach, found]

theorem hostRegisterWrite_none {addr : BitVec 28} (aligned : addr.toNat % 4 = 0) (found : decodeReg addr.toNat = none) (val : Word64) (env : WriteEnv) :
    ∃ t, exec (.hostRegisterWrite f .b4 addr val env) s = .next t ∧ (getFunc t f).lastCode = 0x1F03 ∧
      (getFunc t f).errOffset = BitVec.ofNat 36 addr.toNat ∧ noted t 0 0x1F03 = true ∧ noted t f 0x1F03 = true ∧ Changes [.funcs] s t := by
  have eq : exec (.hostRegisterWrite f .b4 addr val env) s = _ := (if_pos aligned).trans (wordWriteAt_none reach found _ env)
  obtain ⟨lastCode, -, offset, physical, own, changes⟩ :=
    refuseAt_recordsRefusal f addr.toNat 0x1F03 0 (offsetStall addr.toNat) 0 (BitVec.ofNat 32 addr.toNat) s
  exact ⟨_, eq, lastCode, offset, physical, own, changes⟩

theorem hostRegisterWrite_misfit {addr : BitVec 28} {size : AccessSize}
    (misfit : (size = .b4 ∧ addr.toNat % 4 ≠ 0) ∨ (size = .b8 ∧ addr.toNat % 8 ≠ 0) ∨ (size ≠ .b4 ∧ size ≠ .b8)) (val : Word64) (env : WriteEnv) :
    ∃ t, exec (.hostRegisterWrite f size addr val env) s = .next t ∧ (getFunc t f).lastCode = 0x1F02 ∧ noted t 0 0x1F02 = true ∧
      noted t f 0x1F02 = true ∧ Changes [.funcs] s t := by
  refine ⟨refuseSize f addr.toNat s, ?_, refuseSize_effect reach _⟩
  change barWrite f size addr.toNat val env s = _
  unfold barWrite
  obtain ⟨rfl, apart⟩ | ⟨rfl, apart⟩ | ⟨not4, not8⟩ := misfit
  · exact if_neg apart
  · exact if_neg apart
  · split
    · exact absurd rfl not4
    · exact absurd rfl not8
    · rfl

omit reach in
/-- The bits of the lower half of a 64-bit value are its own. -/
theorem bit_lowHalf (val : Word64) {k : Nat} (h : k < 32) : bit (bits val 0 32 : Word) k = bit val k := by
  unfold bit bits
  rw [BitVec.getLsbD_extractLsb', decide_eq_true h, Bool.true_and, Nat.zero_add]

theorem hostRegisterWrite_hkCtl {addr : BitVec 28} (aligned : addr.toNat % 4 = 0) (found : decodeReg addr.toNat = some (.hkCtl false))
    (admitted : admits s f (.hkCtl false) = true) (val : Word64) (env : WriteEnv) :
    ∃ t, exec (.hostRegisterWrite f .b4 addr val env) s = .next t ∧ t.hkCtl.bgCal = bit val 1 ∧ t.hkCtl.refEn = bit val 0 ∧
      t.hkCtl.refReady = (s.hkCtl.refReady && bit val 0) ∧ Changes [.hks, .hkCtl] s t := by
  have eq : exec (.hostRegisterWrite f .b4 addr val env) s = exec (.hkCtlWrite f (bits val 0 32)) s :=
    (if_pos aligned).trans (wordWriteAt_reg reach found _ env)
  obtain ⟨t, answer, ctl, -, changes⟩ := hkCtlWrite_sets (s := s) (bits val 0 32) admitted
  rw [bit_lowHalf val (by decide), bit_lowHalf val (by decide)] at ctl
  exact ⟨t, eq.trans answer, congrArg HkCtl.bgCal ctl, congrArg HkCtl.refEn ctl, congrArg HkCtl.refReady ctl, changes⟩

/-! ## The real-time clock in one access (R22, R627) -/

omit reach in
theorem halves_append (val : Word64) : (bits val 32 32 : Word) ++ (bits val 0 32 : Word) = val := by
  refine BitVec.eq_of_getLsbD_eq fun i inside => ?_
  rw [BitVec.getLsbD_append]
  unfold bits
  rw [BitVec.getLsbD_extractLsb', BitVec.getLsbD_extractLsb']
  by_cases low : i < 32
  · simp [low]
  · have high : i - 32 < 32 := by omega
    simp [low, high, show 32 + (i - 32) = i by omega]

/-- The low word of the clock waits for the high one. -/
theorem wordWriteAt_rtcLo {a : Nat} (found : decodeReg a = some (.power .rtcLo)) (admitted : admits s f (.power .rtcLo) = true) (val : Word)
    (env : WriteEnv) : wordWriteAt f a val env s = .next (holdWord (.power .rtcLo) val s) :=
  (wordWriteAt_reg reach found val env).trans (congrArg Host.Outcome.next (hostWrite_of_admits admitted _))

theorem wordWriteAt_rtcHi {a : Nat} (found : decodeReg a = some (.power .rtcHi)) (admitted : admits s f (.power .rtcHi) = true) (val : Word)
    (env : WriteEnv) : wordWriteAt f a val env s = .next (rtcHi val s) :=
  (wordWriteAt_reg reach found val env).trans (congrArg Host.Outcome.next (hostWrite_of_admits admitted _))

omit reach in
theorem backup_rtcHi_held (hi lo : Word) (s : State) :
    (rtcHi hi (holdWord (.power .rtcLo) lo s)).backup = { s.backup with rtc := hi ++ lo, rtcValid := true } := by
  have held : heldWord (.power .rtcLo) (bits s.backup.rtc 0 32) (holdWord (.power .rtcLo) lo s) = lo := tabGet_tabSet ..
  have eq : (rtcHi hi (holdWord (.power .rtcLo) lo s)).backup =
      { s.backup with rtc := hi ++ heldWord (.power .rtcLo) (bits s.backup.rtc 0 32) (holdWord (.power .rtcLo) lo s), rtcValid := true } := rfl
  rw [eq, held]

theorem hostRegisterWrite_rtc {addr : BitVec 28} (aligned : addr.toNat % 8 = 0) (low : decodeReg addr.toNat = some (.power .rtcLo))
    (high : decodeReg (addr.toNat + 4) = some (.power .rtcHi)) (admitsLo : admits s f (.power .rtcLo) = true) (admitsHi : admits s f (.power .rtcHi) = true)
    (val : Word64) (env : WriteEnv) :
    ∃ t, exec (.hostRegisterWrite f .b8 addr val env) s = .next t ∧ t.backup = { s.backup with rtc := val, rtcValid := true } ∧
      Changes [.backup, .held] s t := by
  have reachHeld : hostReach (holdWord (.power .rtcLo) (bits val 0 32) s) f = true := reach
  have admitsHeld : admits (holdWord (.power .rtcLo) (bits val 0 32) s) f (.power .rtcHi) = true := admitsHi
  have eq : exec (.hostRegisterWrite f .b8 addr val env) s = .next (rtcHi (bits val 32 32) (holdWord (.power .rtcLo) (bits val 0 32) s)) := by
    refine (if_pos aligned).trans ?_
    rw [wordWriteAt_rtcLo reach low admitsLo]
    exact wordWriteAt_rtcHi reachHeld high admitsHeld _ env
  refine ⟨_, eq, ?_, rtcHi_changes _ _ (by decide) (holdWord_changes _ _ _ (by decide) (Changes.refl _ s))⟩
  rw [backup_rtcHi_held, halves_append]

end

/-! ## The MSI-X table (R699) -/

theorem pending_setEntryWord (w : Fin 4) (val : Word) (m : MsixEntry) : (setEntryWord w val m).pending = m.pending := by
  unfold setEntryWord
  split <;> rfl

/-- An entry with no pending message has none to send. -/
theorem releaseEntry_idle {f : Func} {e : Nat} {s : State} (idle : (tabGet {} (getFunc s f).msix e).pending = false) : releaseEntry f e s = s := by
  simp only [releaseEntry, idle, Bool.false_and, Bool.false_eq_true, if_false]

theorem msixTableWrite_writes {s : State} {f : Func} {e : Fin 2048} {w : Fin 4} {val : Word} (admitted : admits s f (.msix e w) = true)
    (idle : (tabGet {} (getFunc s f).msix e.val).pending = false) :
    ∃ t, exec (.msixTableWrite f e w val) s = .next t ∧
      tabGet {} (getFunc t f).msix e.val = setEntryWord w val (tabGet {} (getFunc s f).msix e.val) ∧
      (∀ d : Nat, d ≠ e.val → tabGet {} (getFunc t f).msix d = tabGet {} (getFunc s f).msix d) ∧
      (∀ g, g ≠ f → getFunc t g = getFunc s g) ∧ Changes [.funcs] s t := by
  let t := modFunc f (fun h => { h with msix := tabMod {} h.msix e.val (setEntryWord w val) }) s
  have own : getFunc t f = { getFunc s f with msix := tabMod {} (getFunc s f).msix e.val (setEntryWord w val) } := getFunc_modFunc ..
  have entry : tabGet {} (getFunc t f).msix e.val = setEntryWord w val (tabGet {} (getFunc s f).msix e.val) := by rw [own, tabGet_tabMod]
  have quiet : entryWrite f e w val s = t := releaseEntry_idle (by rw [entry, pending_setEntryWord]; exact idle)
  refine ⟨t, congrArg Host.Outcome.next ((hostWrite_of_admits admitted _).trans quiet), entry, fun d other => ?_,
    fun g other => getFunc_modFunc_other other _ _, modFunc_changes _ _ _ (by decide) (Changes.refl _ s)⟩
  rw [own, tabGet_tabMod_ne (Ne.symm other)]

/-! ## Messages that were held under the cap (R700) -/

section
variable {s : State} {src : Nat} (held : (getIrq s src).held = true)
include held

/-- A source whose message is held no longer. -/
def uncapped (src : Nat) (s : State) : State := modIrq src (fun i => { i with held := false }) s

omit held in
theorem uncapped_changes (src : Nat) (s : State) : Changes [.irqs] s (uncapped src s) := modIrq_changes _ _ _ (by decide) (Changes.refl _ s)

omit held in
theorem getIrq_uncapped (src : Nat) (s : State) : getIrq (uncapped src s) src = { getIrq s src with held := false } := getIrq_modIrq ..

/-- A held message goes to the entry that its source is mapped to. -/
theorem capRelease_eq : capRelease src s = match vectorOf s src with | some (f, e) => deliver src f e (uncapped src s) | none => uncapped src s :=
  if_pos held

theorem msixCapRelease_unmapped (unmapped : vectorOf s src = none) :
    ∃ t, exec (.msixCapRelease src) s = .next t ∧ getIrq t src = { getIrq s src with held := false } ∧
      (∀ k, k ≠ src → getIrq t k = getIrq s k) ∧ Changes [.irqs] s t := by
  have eq : capRelease src s = uncapped src s := by rw [capRelease_eq held, unmapped]
  exact ⟨_, congrArg Host.Outcome.next eq, getIrq_uncapped .., fun k other => getIrq_modIrq_other other _ _, uncapped_changes ..⟩

section
variable {f : Func} {e : Nat} (mapped : vectorOf s src = some (f, e)) (enabled : funcEnabled s f = true)
include mapped enabled

omit enabled in
theorem capRelease_mapped : capRelease src s = deliver src f e (uncapped src s) := by rw [capRelease_eq held, mapped]

omit held mapped in
/-- Where the entry, the mask of the function and its capability let a message pass, it leaves. -/
theorem deliver_sends (open_ : (tabGet {} (getFunc s f).msix e).masked = false) (unmasked : (getFunc s f).msixMask = false)
    (on : (getFunc s f).msixEnable = true) : deliver src f e s =
      modIrq src (fun i => { i with last := some s.clock.now, parked := false })
        (modFunc f (fun h => { h with msix := tabSet h.msix e { tabGet {} (getFunc s f).msix e with sent := (tabGet {} (getFunc s f).msix e).sent + 1 } }) s) := by
  unfold deliver
  rw [if_neg (by rw [enabled]; decide)]
  dsimp only
  rw [if_neg (by rw [open_, unmasked, on]; decide)]

omit held mapped in
/-- Where one of them does not, the message is pending, and its source waits. -/
theorem deliver_parks (shut : (tabGet {} (getFunc s f).msix e).masked = true ∨ (getFunc s f).msixMask = true ∨ (getFunc s f).msixEnable = false) :
    deliver src f e s = modIrq src (fun i => { i with parked := true })
      (modFunc f (fun h => { h with msix := tabSet h.msix e { tabGet {} (getFunc s f).msix e with pending := true } }) s) := by
  have stops : ((tabGet {} (getFunc s f).msix e).masked || (getFunc s f).msixMask || !(getFunc s f).msixEnable) = true := by
    obtain h | h | h := shut
    · rw [h, Bool.true_or, Bool.true_or]
    · rw [h, Bool.or_true, Bool.true_or]
    · rw [h, Bool.not_false, Bool.or_true]
  unfold deliver
  rw [if_neg (by rw [enabled]; decide)]
  dsimp only
  rw [if_pos stops]

theorem msixCapRelease_sends (open_ : (tabGet {} (getFunc s f).msix e).masked = false) (unmasked : (getFunc s f).msixMask = false)
    (on : (getFunc s f).msixEnable = true) :
    ∃ t, exec (.msixCapRelease src) s = .next t ∧ getIrq t src = { last := some s.clock.now, held := false, parked := false } ∧
      (tabGet {} (getFunc t f).msix e).sent = (tabGet {} (getFunc s f).msix e).sent + 1 ∧
      (∀ g, g ≠ f → getFunc t g = getFunc s g) ∧ Changes [.funcs, .irqs] s t := by
  let sent : MsixEntry := { tabGet {} (getFunc s f).msix e with sent := (tabGet {} (getFunc s f).msix e).sent + 1 }
  let u := modFunc f (fun h => { h with msix := tabSet h.msix e sent }) (uncapped src s)
  have eq : capRelease src s = modIrq src (fun i => { i with last := some s.clock.now, parked := false }) u :=
    (capRelease_mapped held mapped).trans (deliver_sends (s := uncapped src s) enabled open_ unmasked on)
  have func : Changes [.funcs] (uncapped src s) u := modFunc_changes _ _ _ (by decide) (Changes.refl _ _)
  have last : Changes [.irqs] u (modIrq src (fun i => { i with last := some s.clock.now, parked := false }) u) :=
    modIrq_changes _ _ _ (by decide) (Changes.refl _ _)
  refine ⟨_, congrArg Host.Outcome.next eq, ?_, ?_, fun g other => ?_,
    ((uncapped_changes src s).mono (by decide)).trans ((func.mono (by decide)).trans (last.mono (by decide)))⟩
  · rw [getIrq_modIrq, func.getIrq src, getIrq_uncapped]
  · rw [last.getFunc f, getFunc_modFunc, tabGet_tabSet]
  · rw [last.getFunc g, getFunc_modFunc_other other, (uncapped_changes src s).getFunc g]

theorem msixCapRelease_parks (shut : (tabGet {} (getFunc s f).msix e).masked = true ∨ (getFunc s f).msixMask = true ∨ (getFunc s f).msixEnable = false) :
    ∃ t, exec (.msixCapRelease src) s = .next t ∧ (getIrq t src).parked = true ∧ (getIrq t src).held = false ∧
      (tabGet {} (getFunc t f).msix e).pending = true ∧ (∀ g, g ≠ f → getFunc t g = getFunc s g) ∧ Changes [.funcs, .irqs] s t := by
  let waiting : MsixEntry := { tabGet {} (getFunc s f).msix e with pending := true }
  let u := modFunc f (fun h => { h with msix := tabSet h.msix e waiting }) (uncapped src s)
  have eq : capRelease src s = modIrq src (fun i => { i with parked := true }) u :=
    (capRelease_mapped held mapped).trans (deliver_parks (s := uncapped src s) enabled shut)
  have func : Changes [.funcs] (uncapped src s) u := modFunc_changes _ _ _ (by decide) (Changes.refl _ _)
  have last : Changes [.irqs] u (modIrq src (fun i => { i with parked := true }) u) := modIrq_changes _ _ _ (by decide) (Changes.refl _ _)
  refine ⟨_, congrArg Host.Outcome.next eq, ?_, ?_, ?_, fun g other => ?_,
    ((uncapped_changes src s).mono (by decide)).trans ((func.mono (by decide)).trans (last.mono (by decide)))⟩
  · rw [getIrq_modIrq]
  · rw [getIrq_modIrq, func.getIrq src, getIrq_uncapped]
  · rw [last.getFunc f, getFunc_modFunc, tabGet_tabSet]
  · rw [last.getFunc g, getFunc_modFunc_other other, (uncapped_changes src s).getFunc g]

end

end

/-! ## Configuration requests (R625, R687, R688) -/

section
variable {s : State} (answers : answersConfig s = true)
include answers

/-- A function under a count of enabled virtual functions. -/
def vfSet (count : Nat) (f : Func) (x : HostFunc) : HostFunc :=
  if f.val = 0 then x else if x.enabled = decide (f.val ≤ count) then x else { x with enabled := decide (f.val ≤ count) }

omit answers in
theorem getFunc_enableVfs (count : Nat) (s : State) (f : Func) : getFunc (enableVfs count s) f = vfSet count f (getFunc s f) := by
  have each := forEach_keyed getFunc (fun (f : Func) (s : State) => if f.val = 0 then s else
      let on := decide (f.val ≤ count)
      if (getFunc s f).enabled = on then s else modFunc f (fun h => { h with enabled := on }) s)
    (vfSet count) (fun _ => True) (fun _ _ _ => trivial) (fun g u _ => ?same) (fun g h u _ other => ?other) (List.finRange 15) (List.nodup_finRange 15) s
    trivial f
  case same =>
    dsimp only [vfSet]
    split
    · rfl
    · split
      · rfl
      · exact getFunc_modFunc ..
  case other =>
    dsimp only
    split
    · rfl
    · split
      · rfl
      · exact getFunc_modFunc_other (Ne.symm other) _ _
  exact each.trans (if_pos (List.mem_finRange f))

omit answers in
theorem enabled_vfSet {count : Nat} {f : Func} (virtual : f.val ≠ 0) (x : HostFunc) : (vfSet count f x).enabled = decide (f.val ≤ count) := by
  unfold vfSet
  rw [if_neg virtual]
  split
  · assumption
  · rfl

theorem configurationRequest_enableVfs (count : Fin 15) :
    ∃ t, exec (.configurationRequest (.enableVfs count)) s = .next t ∧
      (∀ f : Func, f.val ≠ 0 → (getFunc t f).enabled = decide (f.val ≤ count.val)) ∧ getFunc t 0 = getFunc s 0 ∧ Changes [.funcs] s t := by
  refine ⟨_, congrArg Host.Outcome.next (if_pos answers), fun f virtual => ?_, getFunc_enableVfs count.val s 0, enableVfs_changes _ _ (by decide) (Changes.refl _ s)⟩
  exact (congrArg HostFunc.enabled (getFunc_enableVfs count.val s f)).trans (enabled_vfSet virtual _)

variable {f : Func} (enabled : funcEnabled s f = true)
include enabled

theorem configurationRequest_power (d : Bool) :
    ∃ t, exec (.configurationRequest (.power f d)) s = .next t ∧ getFunc t f = { getFunc s f with d3hot := d } ∧
      (∀ g, g ≠ f → getFunc t g = getFunc s g) ∧ Changes [.funcs] s t :=
  ⟨_, congrArg Host.Outcome.next ((if_pos answers).trans (if_pos enabled)), getFunc_modFunc .., fun _ other => getFunc_modFunc_other other _ _,
    modFunc_changes _ _ _ (by decide) (Changes.refl _ s)⟩

theorem configurationRequest_bars (b0 b2 : Word64) :
    ∃ t, exec (.configurationRequest (.bars f b0 b2)) s = .next t ∧ getFunc t f = { getFunc s f with bar0 := b0, bar2 := b2 } ∧
      (∀ g, g ≠ f → getFunc t g = getFunc s g) ∧ Changes [.funcs] s t :=
  ⟨_, congrArg Host.Outcome.next ((if_pos answers).trans (if_pos enabled)), getFunc_modFunc .., fun _ other => getFunc_modFunc_other other _ _,
    modFunc_changes _ _ _ (by decide) (Changes.refl _ s)⟩

omit answers enabled in
/-- A function none of whose messages is pending has none to send. -/
theorem releaseEntries_idle {u : State} (idle : ∀ e : Nat, (tabGet {} (getFunc u f).msix e).pending = false) : releaseEntries f u = u :=
  forEach_keep (fun e s => releaseEntry f e s) (fun t => t = u) (fun e t same => by
    subst same
    exact releaseEntry_idle (idle e)) _ u rfl

theorem configurationRequest_msix (on mask : Bool) (idle : ∀ e : Nat, (tabGet {} (getFunc s f).msix e).pending = false) :
    ∃ t, exec (.configurationRequest (.msix f on mask)) s = .next t ∧ getFunc t f = { getFunc s f with msixEnable := on, msixMask := mask } ∧
      (∀ g, g ≠ f → getFunc t g = getFunc s g) ∧ Changes [.funcs] s t := by
  have own : getFunc (modFunc f (fun h => { h with msixEnable := on, msixMask := mask }) s) f = _ := getFunc_modFunc ..
  have quiet := releaseEntries_idle (f := f) (u := modFunc f (fun h => { h with msixEnable := on, msixMask := mask }) s)
    fun e => by rw [own]; exact idle e
  exact ⟨_, congrArg Host.Outcome.next ((if_pos answers).trans ((if_pos enabled).trans quiet)), own, fun _ other => getFunc_modFunc_other other _ _,
    modFunc_changes _ _ _ (by decide) (Changes.refl _ s)⟩

end

/-- Settles O60: each access of the host through the lemma of its branch. That a set function mask or a disabled MSI-X capability holds a message as a
masked entry does is the model's assumption (log entry 19). -/
theorem theHostInterfaceServesItsFunctions : Obligations.TheHostInterfaceServesItsFunctions := by
  unfold Obligations.TheHostInterfaceServesItsFunctions
  refine ⟨fun s f addr val env reach => ⟨?_, ?_, ?_, ?_⟩, fun s f e w val => msixTableWrite_writes, fun s src held => ⟨?_, ?_, ?_⟩,
    fun s answers => ⟨configurationRequest_enableVfs answers, fun f enabled =>
      ⟨configurationRequest_power answers enabled, configurationRequest_bars answers enabled, configurationRequest_msix answers enabled⟩⟩⟩
  · exact fun aligned found => hostRegisterWrite_none reach aligned found val env
  · exact fun size misfit => hostRegisterWrite_misfit reach misfit val env
  · exact fun aligned found admitted => hostRegisterWrite_hkCtl reach aligned found admitted val env
  · exact fun aligned low high admitsLo admitsHi => hostRegisterWrite_rtc reach aligned low high admitsLo admitsHi val env
  · exact msixCapRelease_unmapped held
  · exact fun f e mapped enabled => msixCapRelease_sends held mapped enabled
  · exact fun f e mapped enabled => msixCapRelease_parks held mapped enabled

end Sys2Proof.Machine
end
